-- ==== Sys2Proof/Word.lean ====
section
/-! DEFINITION. The machine's units of storage: the byte, the 32-bit scalar register, the 64-bit
instruction word, the 512-bit vector register (R143, R149). Everything that computes on them stands
under Machine/. -/
namespace Sys2Proof

/-- One byte of any memory of the device. -/
abbrev Byte := BitVec 8

/-- A 32-bit scalar register, register word or fp32 pattern. -/
abbrev Word := BitVec 32

/-- A 64-bit instruction word (R149). -/
abbrev IWord := BitVec 64

/-- A sparse table: keys strictly rising, and no entry equal to the table's default value. -/
abbrev Tbl (α : Type) := List (Nat × α)

end Sys2Proof
end

