-- ==== Sys2Proof/Syntax.lean ====
section
/-! DEFINITION. The commands of the block: one constructor of `Instr` for each of the 236 rows of
spec/opcode_table.json, with the operands its rule names. Operands that only the outside world
decides (what a bitstream decodes to, what a meter reads, whether a read met a physical error, how
many ticks of the unit's own clock have passed: `dt`) are carried by the command (assumptions 2, 3). -/
namespace Sys2Proof

/-- The access routes to registers (R8). -/
inductive Route where | bar0 | cantle | jtag
  deriving DecidableEq, Repr

/-- The routes to the object dictionary (R426, R592): their numbers are 0, 1, 2, 3. -/
inductive OdRoute where | mailbox | udp | can | cantle
  deriving DecidableEq, Repr

/-- MAC control frames (R28). -/
inductive MacControl where | data | pause | priorityPause
  deriving DecidableEq, Repr

/-- UDP checksum of a datagram: zero, right or wrong (R28). -/
inductive UdpSum where | zero | right | wrong
  deriving DecidableEq, Repr

/-- What an IP packet carries (R28): `igmp` and `mld` with their protocol versions, `host` the other protocols that
the Cantle handles (ARP, ICMP echo, NDP, DHCPv4 and SLAAC). -/
inductive Carried where
  | rtp | tsDatagram | srtp | dtls | host | igmp (version : Nat) | mld (version : Nat) | other
  deriving DecidableEq, Repr

/-- An Ethernet frame's headers down to the transport (R28): bytes of the frame, its VLAN identifiers outermost
first, whether a tag is a Q-in-Q service tag, the IP version, whether the packet is a fragment, and the IPv6 extension
headers by their next-header codes. -/
structure FrameHead where
  len : Nat
  control : MacControl
  vlans : List Nat
  serviceTag : Bool
  ipVersion : Nat
  fragment : Bool
  extHeaders : List Nat
  carried : Carried
  sum : UdpSum
  deriving DecidableEq, Repr

/-- A datagram on a 25G port (R28, R32), with the payload that its payload format (R29) lays out. Of a transport-stream datagram, `ts` is the PES PTS of its unit, `seq` the
number of its datagram, and `ccLost` the packets that its continuity counters show missing before it (R29). -/
structure Packet where
  port : Nat
  head : FrameHead
  udpPort : Nat
  group : List Byte
  ipLen : Nat
  ssrc : Nat
  payloadType : Nat
  seq : Nat
  ts : Nat
  marker : Bool
  ccLost : Nat
  payload : List Byte
  deriving DecidableEq, Repr

/-- What a session description names of a stream (R29): the H.264 packetization mode, sprop-max-don-diff, the AV1
operating points selected, the JPEG type, whether a transport stream comes over RTP, its video PIDs, and the bytes of
the parameter sets. -/
structure Sdp where
  packetizationMode : Nat
  maxDonDiff : Nat
  operatingPoints : Nat
  jpegType : Nat
  tsOverRtp : Bool
  videoPids : Nat
  parameterSets : List Byte
  deriving DecidableEq, Repr

/-- Transports that an RTSP server can offer (R30). -/
inductive RtspTransport where | unicast | multicast | interleaved
  deriving DecidableEq, Repr

/-- Digest algorithms of a challenge (R30). -/
inductive DigestAlg where | sha256 | md5 | unknown
  deriving DecidableEq, Repr

/-- A Digest challenge. -/
structure RtspChallenge where
  alg : DigestAlg
  realm : List Byte
  nonce : List Byte
  deriving DecidableEq, Repr

/-- An RTSP response (R30, R31): a 401 response carries a challenge, that of DESCRIBE the session description, that
of SETUP the transport and the server's session ID. -/
structure RtspReply where
  ok : Bool
  timeoutS : Option Nat
  session : List Byte
  challenge : Option RtspChallenge
  sdp : Option Sdp
  transport : Option RtspTransport
  deriving DecidableEq, Repr

/-- What a coded picture is for R77. -/
inductive PicKind where
  | idr | cra | bla | avKey | jpeg   -- refresh points by themselves
  | recovery (count : Nat)           -- carries a recovery-point SEI with this count
  | rasl
  | other
  deriving DecidableEq, Repr

/-- A rectangle: x, y, w, h in luma samples. -/
structure Rect where
  x : Nat
  y : Nat
  w : Nat
  h : Nat
  deriving DecidableEq, Repr

/-- Profiles of H.265 (R58). -/
inductive H265Profile where | main | main10 | mainStill | rangeExtensions | scc | multilayer
  deriving DecidableEq, Repr

/-- What an H.265 picture's headers name; the level in tenths (R58). -/
structure H265Form where
  profile : H265Profile
  level : Nat
  layerId : Nat          -- the least nuh_layer_id of its unit's NAL units
  fieldSeq : Bool
  deriving DecidableEq, Repr

/-- Profiles of H.264 (R59). -/
inductive H264Profile where
  | constrainedBaseline | baseline | main | high | high10 | extended | high422 | high444 | svc | mvc
  deriving DecidableEq, Repr

/-- What an H.264 picture's headers name; the level in tenths (R59). -/
structure H264Form where
  profile : H264Profile
  level : Nat
  fmo : Bool
  aso : Bool
  redundantSlices : Bool
  fieldPicture : Bool    -- field pictures and PAFF
  mbaff : Bool
  deriving DecidableEq, Repr

/-- What an AV1 picture's headers name; the level in tenths (R60). -/
structure Av1Form where
  seqProfile : Nat
  level : Nat
  monochrome : Bool
  largeScaleTile : Bool
  operatingPoint : Nat
  filmGrain : Bool
  deriving DecidableEq, Repr

/-- JPEG processes, and samplings (R61). -/
inductive JpegProcess where | baseline | progressive | hierarchical | lossless | arithmetic
  deriving DecidableEq, Repr

inductive JpegSampling where | s420 | s422 | s444 | other
  deriving DecidableEq, Repr

/-- What a JPEG image's headers name (R61). -/
structure JpegForm where
  process : JpegProcess
  precision : Nat
  components : Nat
  sampling : JpegSampling
  deriving DecidableEq, Repr

inductive CodedForm where
  | h264 (f : H264Form) | h265 (f : H265Form) | av1 (f : Av1Form) | jpeg (f : JpegForm)
  deriving DecidableEq, Repr

/-- The headers of a picture, as the published standards read them from its bytes (R58 to R62, R78, R81), with its
cropping window (R69). -/
structure PicHeader where
  kind : PicKind
  width : Nat
  height : Nat
  depth : Nat
  dpb : Nat
  crop : Rect
  form : CodedForm
  missingRef : Bool
  readable : Bool
  deriving DecidableEq, Repr

/-- A vector into a reference, and that reference's picture order: POC, or the order hint (R87). -/
structure MvRef where
  mvX : Int
  mvY : Int
  order : Int
  deriving DecidableEq, Repr

/-- One inter-predicted 4 x 4 unit, with the lists that it uses (R87). -/
structure MvUnit where
  l0 : Option MvRef
  l1 : Option MvRef
  deriving DecidableEq, Repr

/-- One 16 x 16 block as decoded (R86, R87). -/
structure BlockInfo where
  inter : List MvUnit
  intra16 : Nat
  residual : Nat
  skip : Bool
  concealed : Bool
  deriving DecidableEq, Repr

/-- What a decode produced: samples in raster order, blocks, the held pictures (by their decode
numbers) that become ready for output now, and those that leave the DPB (R71, R80, R84). -/
structure DecodedPic where
  truncated : Bool
  order : Int            -- its picture order (R87)
  list0 : Option Nat     -- decode number of the first picture of its reference list 0 (R80)
  luma : List Nat
  cb : List Nat
  cr : List Nat
  blocks : List BlockInfo
  ready : List Nat
  leave : List Nat
  failed : Bool          -- a reference read met a Class R failure (R393)
  deriving DecidableEq, Repr

/-- A clip or snapshot request (R93). -/
structure EvidReq where
  slot : Nat
  picture : Nat
  preroll : Nat
  postroll : Nat
  crop : Option Rect
  host : Option OdRoute
  deriving DecidableEq, Repr

/-- How an encode engine's reads of a source picture went: whether one met a Class R failure, and whether the failing
check was that of the memory-side cache (R393). -/
structure SourceRead where
  failed : Bool
  cache : Bool
  deriving DecidableEq, Repr

/-- Scalar ALU operations of classes 0x00 to 0x03 (R149). The function codes are not given by the spec. -/
inductive AluOp where
  | add | sub | and | or | xor | sll | srl | sra | slt | sltu | min | max | minu | maxu | undefined
  deriving DecidableEq, Repr

/-- Class 0x04 (R149, R145). -/
inductive MulOp where
  | mul | mulh | mulhu | div | divu | rem | remu | undefined
  deriving DecidableEq, Repr

/-- Branch conditions: codes 0 to 6 of R150, the others reserved. -/
inductive Cond where | eq | ne | lt | ge | ltu | geu | always | reserved
  deriving DecidableEq, Repr

/-- The word of an RR or RI instruction, and which of the two formats its function takes (R150). -/
structure ScalarFields where
  word : IWord
  immediate : Bool
  deriving DecidableEq, Repr

/-- Scalar access sizes (R147). -/
inductive ScalarMem where | load (bytes : Nat) (signed : Bool) | store (bytes : Nat) | undefined
  deriving DecidableEq, Repr

inductive VIntOp where
  | add | sub | and | or | xor | sll | srl | sra | min | max | mul
  | scaleChannel (r : Nat) (zp : Int) (zpOut : Int) (qmin : Int) (qmax : Int)   -- R210
  | scaleAcc                                                                    -- R249
  | undefined
  deriving DecidableEq, Repr

inductive VFloatOp where | add | sub | mul | fma | min | max | undefined
  deriving DecidableEq, Repr

inductive VCmpOp where
  | eq | lt | le | select | maskAnd | maskOr | maskXor | maskNot | undefined
  deriving DecidableEq, Repr

inductive VRedOp where | add | min | max | and | or | xor | undefined
  deriving DecidableEq, Repr

inductive VPermOp where | permute | broadcastLane (lane : Nat) | broadcastScalar | undefined
  deriving DecidableEq, Repr

/-- The word of a VV or VM instruction (R150). `ty2` is the destination type of a conversion, whose place in the word
the spec does not give. -/
structure VecFields where
  word : IWord
  ty2 : Nat
  deriving DecidableEq, Repr

/-- A core's engines with an instruction queue (R143). -/
inductive Engine where | array | narrowing | addressGen | dma
  deriving DecidableEq, Repr

/-- A failing read met by a consumer, physically: the lines (by the device address of their first byte)
newly found failing, those of them whose second read passes, and those whose copy in the memory-side cache is newly found
failing (R391). -/
structure ReadErrors where
  failing : List Nat
  transient : List Nat
  cached : List Nat
  deriving DecidableEq, Repr

/-- Cycles in which accesses of an agent met others at one line (R160, R164) in a core's scratchpad or a cluster's
buffer; `due`: 1,024 cycles have passed since that core's last event of it. -/
structure Meeting where
  unit : Nat
  cycles : Nat
  due : Bool
  deriving DecidableEq, Repr

/-- What a run of a cluster agent's accesses met physically. -/
structure AgentRun where
  errors : ReadErrors
  scratch : List Meeting
  buffer : List Meeting
  deriving DecidableEq, Repr

/-- A host memory request's attributes on BAR2 (R508, R510). -/
structure HostWrite where
  offset : Nat
  bytes : List Byte
  relaxed : Bool
  poisoned : Bool
  deriving DecidableEq, Repr

/-- A completion for a device read (R520). -/
inductive CplStatus where | success | unsupported | abort | poisoned
  deriving DecidableEq, Repr

/-- Errors that AER distinguishes (R522). -/
inductive TlpError where
  | receiver | badTlp | badDllp | replayTimeout | replayRollover
  | advisory | headerLogOverflow
  | dataLinkProtocol | flowControl | receiverOverflow | malformed
  | poisoned | ecrc | unexpectedCompletion | internal
  deriving DecidableEq, Repr

/-- A narration request (R320). -/
structure NarrReq where
  slot : Nat
  eventSeq : Nat
  picture : Nat
  crop : Rect
  template : List Byte   -- prompt template (R322)
  record : List Byte     -- body of the event record that fills the template's fields
  maxTokens : Nat
  temperature : Word
  topK : Nat
  seed : Nat
  host : Option OdRoute
  deriving DecidableEq, Repr

/-- Section content of a program image whose byte layout the spec leaves open, and the fields of
its narrator section (R424, R318): decoded by the loader. -/
structure NarratorDecl where
  weightFormat : Nat
  weightsHeld : Bool        -- the weights are the held operand in WS mode (R177)
  otherFormats : List Nat   -- formats of every other tensor, by their codes (R178)
  layers : Nat
  kvBytes : Nat
  kvHeads : Nat
  headDim : Nat
  kvFormat : Nat
  vocab : Nat
  eosId : Nat
  newlineId : Nat
  imageTokens : Nat
  ctxMax : Nat
  tStep : Nat
  tEmbed : Nat
  tokenBytes : List (List Byte)
  deriving DecidableEq, Repr

/-- An Awl ring of an image's section 12 (R256). -/
structure AwlRing where
  off : Nat
  n : Nat
  bellCore : Nat
  bellCtr : Nat
  deriving DecidableEq, Repr

/-- Tables of an image's section 6 as steering, tracking and the Narrator use them: offsets of its output
descriptors and coefficient tables in the image, and the counters of its jobs (R117, R119, R125). -/
structure SkvDecl where
  nOut : Nat
  outOff : Nat
  coefOff : Nat
  gateCore : Nat
  gateCtr : Nat
  gateN : Nat
  doneCore : Nat
  doneCtr : Nat
  doneN : Nat
  deriving DecidableEq, Repr

/-- What the loader reads of an image's sections 1, 6 to 10 and 12 (R424), whose byte layout the spec leaves open. -/
structure ImageDecl where
  streams : List (List IWord)          -- section 1, per partition core
  coreBanks : List Nat                 -- declared banks per partition core, 8 bits each (R161)
  bufferBanks : List Nat               -- declared banks per partition cluster, 16 bits each
  clusterArms : List (Nat × Nat × Nat) -- counter, v, L for every cluster (R280)
  deviceArms : List (Nat × Nat)        -- v, L of device counters 0 .. w - 1
  narrator : Option NarratorDecl
  energyMw : Nat                       -- section 9: sum of the stage estimates (R457)
  recompute : Bool
  rings : List AwlRing                 -- one per partition cluster (R256)
  skv : SkvDecl                        -- section 6
  detList : Nat                        -- where its last stage writes the detection list (R292)
  sectionsOk : Bool                    -- every section's own checks but those of the sections above and of 2 and 3
  deriving DecidableEq, Repr

/-- Create parameters of R426 that come with the request. -/
structure CreateReq where
  ctx : Option Nat
  image : Nat
  placement : List Nat
  share : Option Nat
  channels : Nat
  ways : Nat
  cls : Nat
  allotMw : Option Nat
  spin : Nat
  deschedUs : Nat
  sliceMs : Nat
  preemptUs : Nat
  debug : Bool
  restartMax : Nat
  deriving DecidableEq, Repr

/-- A class-F primitive request (R439): formats by their codes (R178), pages by their handles. -/
inductive Primitive where
  | gemm (m n k fmtA fmtB inA inB out : Nat)
  | search (d entries k : Nat) (query gallery out : Nat)
  | cropInfer (crops stages : Nat)
  deriving DecidableEq, Repr

/-- Layer records of 48 B and loop descriptor tables of 896 B, as bytes (R213, R241): what a primitive request carries,
or sections 3 and 2 of an image. -/
structure LayerSection where
  records : List Byte
  tables : List Byte
  deriving DecidableEq, Repr

/-- One detection, fp32 patterns (R292). -/
structure Detection where
  x0 : Word
  y0 : Word
  x1 : Word
  y1 : Word
  score : Word
  cls : Nat
  deriving DecidableEq, Repr

/-- A detection list (R292), as its bytes read. -/
structure DetList where
  count : Nat
  pts : Nat
  seq : Nat
  entries : List Detection
  deriving DecidableEq, Repr

/-- A Stirrup frame (R490). -/
structure Frame where
  seq : Nat
  ack : Nat
  hb : Nat
  payload : List Byte
  deriving DecidableEq, Repr

/-- What a mirror frame carries (R485). -/
inductive MirrorKind where | tracks | rules | chain | rtsp | sessions | commit | ledger | full
  deriving DecidableEq, Repr

inductive CtlMsg where
  | handoverRequest (slot : Nat)        -- the owner asks its partner to take a slot (R501)
  | handoverReady (slot pts : Nat)      -- the receiver has released the slot's refresh point
  | handoverFinal (slot : Nat)          -- the owner has sent the final state and stopped
  | shedRequest                         -- shedding step 6: take every slot now (R471)
  | parkAck
  | config (digest : List Byte)         -- the partner's pair entries changed (R482)
  deriving DecidableEq, Repr

inductive BadFrame where | crc | length | unknownType | outsidePairArea
  deriving DecidableEq, Repr

/-- The references of R21. -/
inductive SerdesRef where | pcie | ethernet | stirrup
  deriving DecidableEq, Repr

/-- One object-dictionary operation record (R534). -/
structure OdKey where
  index : Nat
  sub : Nat
  deriving DecidableEq, Repr

/-- Who sends a dictionary operation: its route and session (R536). -/
structure OdFrom where
  route : OdRoute
  session : Nat
  deriving DecidableEq, Repr

/-- A firmware container (R551), its fields as carried; `payload` follows the header. -/
structure Container where
  magicOk : Bool
  version : Nat
  kind : Nat
  key : Nat
  fwVersion : Nat
  svn : Nat
  length : Nat
  digest : List Byte
  signer : List Byte
  header : List Byte      -- bytes 0 to 191, what the signature covers
  signature : List Byte
  payload : List Byte
  deriving DecidableEq, Repr

/-- A debug response (R570). -/
structure DebugResp where
  route : Nat
  key : List Byte
  signature : List Byte
  keyByte : Nat
  deriving DecidableEq, Repr

/-- What a boot stage's work found (R556 to R561). -/
structure StageResult where
  workOk : Bool
  slotAOk : Bool         -- stages 2, 5, 7: the container of slot A verified
  slotBOk : Bool
  certOk : Bool          -- stage 1
  softMapOk : Bool       -- stage 3
  failingClusters : Nat  -- stage 6 bitmap
  trainedDie0 : Bool     -- stage 4
  trainedDie1 : Bool
  fault : Nat
  deriving DecidableEq, Repr

/-- Owner fuse fields (R545). -/
inductive OwnerFuse where | ownerLock | imagesRequired | vendorDebugDisable | revocation (mask : Nat)
  deriving DecidableEq, Repr

/-- Meters at a Rein tick (R461, R465): device power, junction temperatures, energy estimate of each
context over the tick window. -/
structure Meters where
  powerMw : Nat
  tempC : Nat
  energyUj : Nat
  ctxMw : List (Nat × Nat)
  deriving DecidableEq, Repr

/-- A slot's RTSP timer: `ms` have passed since the last request, or since the session went down (R30, R31). -/
structure RtspTimer where
  slot : Nat
  ms : Nat
  deriving DecidableEq, Repr

/-- A slot's silence: `ms` since its last RTP packet, `sessionMs` since the server last heard of its session (R31). -/
structure StreamSilence where
  slot : Nat
  ms : Nat
  sessionMs : Nat
  deriving DecidableEq, Repr

/-- A member's wait in a fusion set (R48): `us` after the reference sample's release of the set opened `index` sets
after the front one. -/
structure FusionWait where
  set : Nat
  member : Nat
  index : Nat
  us : Nat
  deriving DecidableEq, Repr

/-- A datagram at the management port, `dt` ticks of its counter after the last (R27). -/
structure UdpDatagram where
  dt : Nat
  bytes : List Byte
  deriving DecidableEq, Repr

inductive Instr where
  /-- R4 to R8, R595: a write to a register that has no row of its own. -/
  | registerWrite (route : Route) (addr bytes value : Nat)
  /-- R8: low-word read, loading the route's latch or sampling a counter. -/
  | lowWordRead (route : Route) (addr bytes : Nat)
  /-- R32 to R39. -/
  | rtpPacketArrival (dt : Nat) (p : Packet)
  /-- R33, R35. -/
  | jitterDeadline (slot dt : Nat)
  /-- R39. -/
  | policerWindowEnd (slot dt : Nat)
  /-- R30. -/
  | rtspResponse (slot : Nat) (r : RtspReply)
  /-- R30. -/
  | rtspKeepalive (t : RtspTimer)
  /-- R31. -/
  | streamTimeout (t : StreamSilence)
  /-- R31. -/
  | rtspRetry (t : RtspTimer)
  /-- R28. -/
  | rtcpReceiverReport (slot : Nat)
  /-- R46. -/
  | rtcpSenderReport (slot ntp rtpTs : Nat) (report : List Byte)
  /-- R48. -/
  | fusionSetTimeout (w : FusionWait)
  /-- R42. -/
  | pushTailWrite (value : Nat)
  /-- R42. -/
  | pushCtrlWrite (value : Nat)
  /-- R41, R43. -/
  | pushDescriptorRead (bytes : List Byte)
  /-- R43. -/
  | pushUnitReadComplete (dt : Nat) (bytes : List Byte)
  /-- R50: `level` is the pin. -/
  | evtInEdge (line dt : Nat) (level : Bool)
  /-- R50, R52. -/
  | evtInFilterAccept (line dt : Nat)
  /-- R51. -/
  | evtInStuck (line dt : Nat)
  /-- R51. -/
  | evtInStuckClear (line dt : Nat)
  /-- R56, R50. -/
  | evtLineCtrlWrite (dt value : Nat)
  /-- R56, R50. -/
  | evtLineFilterWrite (value : Nat)
  /-- R56, R51. -/
  | evtLineMaxactWrite (dt value : Nat)
  /-- R54. -/
  | evtOutSet (line : Nat)
  /-- R54. -/
  | evtOutClear (line : Nat)
  /-- R54. -/
  | evtOutPulse (line widthMs : Nat)
  /-- R54. -/
  | evtOutPulseEnd (line : Nat)
  /-- R72. -/
  | decodePictureStart (engine dt : Nat) (hdr : PicHeader) (bad : Bool)
  /-- R75. -/
  | decodeYield (engine dt : Nat)
  /-- R75. -/
  | decodeSaveDone (engine dt : Nat)
  /-- R75. -/
  | decodeRestoreDone (engine dt : Nat)
  /-- R71, R77 to R91. -/
  | decodeComplete (engine dt : Nat) (d : DecodedPic)
  /-- R76: of the slot's picture in decode, yielded, or waiting under R67. -/
  | decodeAbandon (slot dt : Nat)
  /-- R93, R94, R98 to R101, R110. -/
  | clipRequest (req : EvidReq)
  /-- R93, R98. -/
  | snapshotRequest (req : EvidReq)
  /-- R94. -/
  | clipBind
  /-- R95. -/
  | encodeStart (engine dt : Nat)
  /-- R102 to R109. -/
  | encodePictureComplete (engine dt : Nat) (c : SourceRead)
  /-- R111, R112. -/
  | snapshotComplete (engine dt : Nat) (failed cache : Bool)
  /-- R344. -/
  | evidenceRelease (evidId : Nat)
  /-- R344. -/
  | evidenceRetainExpiry (evidId : Nat)
  /-- R134 to R137. -/
  | steeringBuild (slot : Nat) (bad : Bool)
  /-- R116, R8: the high-word write of SKV_SUBMIT. -/
  | skiverSubmit (route : Route) (high : Nat)
  /-- R120, R122. -/
  | skiverJobStart (unit : Nat) (bad : Bool)
  /-- R121. -/
  | skiverJobComplete (unit dt : Nat)
  /-- R145. -/
  | scalarAlu (core : Nat) (op : AluOp) (f : ScalarFields)
  /-- R145. -/
  | scalarMuldiv (core : Nat) (op : MulOp) (f : ScalarFields)
  /-- R147. -/
  | scalarLoadStore (core : Nat) (op : ScalarMem) (f : ScalarFields) (e : ReadErrors)
  /-- R150. -/
  | branch (core rd rs1 rs2 : Nat) (cond : Cond) (offset : Int) (w : IWord)
  /-- R148. -/
  | csrRead (core rd csr : Nat) (w : IWord)
  /-- R146, R210. -/
  | vectorInt (core : Nat) (op : VIntOp) (f : VecFields)
  /-- R146. -/
  | vectorFloat (core : Nat) (op : VFloatOp) (f : VecFields)
  /-- R146. -/
  | vectorCompare (core : Nat) (op : VCmpOp) (f : VecFields)
  /-- R146. -/
  | vectorReduction (core : Nat) (op : VRedOp) (f : VecFields)
  /-- R146, R208. -/
  | vectorConversion (core : Nat) (f : VecFields)
  /-- R146. -/
  | vectorPermute (core : Nat) (op : VPermOp) (f : VecFields)
  /-- R147. -/
  | vectorLoadStore (core : Nat) (store : Bool) (f : VecFields) (base offset : Nat)
  /-- R186, R187. -/
  | lds (core : Nat) (w : IWord)
  /-- R186, R188. -/
  | strm (core : Nat) (w : IWord)
  /-- R186, R189. -/
  | ostr (core : Nat) (w : IWord)
  /-- R186, R189. -/
  | odrn (core : Nat) (w : IWord)
  /-- R186, R189. -/
  | oclr (core : Nat) (w : IWord)
  /-- R198, R201. -/
  | nrw (core : Nat) (w : IWord)
  /-- R198, R203. -/
  | nrwf (core : Nat) (w : IWord)
  /-- R198, R204. -/
  | lutl (core : Nat) (w : IWord)
  /-- R222, R225. -/
  | dld (core : Nat) (w : IWord)
  /-- R222, R229. -/
  | ags (core : Nat) (w : IWord)
  /-- R222, R226. -/
  | tnx (core : Nat) (w : IWord)
  /-- R222, R231. -/
  | agd (core : Nat) (w : IWord)
  /-- R222, R232. -/
  | trd (core : Nat) (w : IWord)
  /-- R150, R167. -/
  | dmaIssue (core : Nat) (w : IWord)
  /-- R169. -/
  | dmaDescriptorStart (cluster channel : Nat) (r : AgentRun)
  /-- R170. -/
  | dmaDescriptorComplete (cluster channel dt : Nat)
  /-- R150, R153. -/
  | instructionFill (core : Nat) (w : IWord)
  /-- R153. -/
  | ifillBlockLanded (cluster : Nat)
  /-- R150, R159. -/
  | bk (core : Nat) (w : IWord)
  /-- R149. -/
  | nop (core : Nat) (w : IWord)
  /-- R152. -/
  | endProgram (core : Nat) (w : IWord)
  /-- R152. -/
  | breakpoint (core : Nat) (w : IWord)
  /-- R143. -/
  | engineQueueAdvance (core : Nat) (engine : Engine)
  /-- R263, R265. -/
  | sig (core : Nat) (w : IWord)
  /-- R263, R265. -/
  | sigr (core : Nat) (w : IWord)
  /-- R263, R265. -/
  | wait (core : Nat) (w : IWord)
  /-- R263, R265. -/
  | waitr (core : Nat) (w : IWord)
  /-- R263, R265. -/
  | dec (core : Nat) (w : IWord)
  /-- R263, R265. -/
  | read (core : Nat) (w : IWord)
  /-- R268. -/
  | signalSend (core : Nat)
  /-- R266, R267: the first `count` increments in flight to the counter arrive in one cycle. -/
  | syncIncrementArrival (core ctr count : Nat)
  /-- R274. -/
  | corePark (core dt : Nat)
  /-- R274. -/
  | descheduleThreshold (ctx : Nat)
  /-- R281, R278. -/
  | wfa (core : Nat) (w : IWord)
  /-- R281. -/
  | wset (core : Nat) (w : IWord)
  /-- R281. -/
  | wrd (core : Nat) (w : IWord)
  /-- R273, R285: the high-word write of SYN_HOST_SIGNAL. -/
  | hostSignal (route : Route) (high : Nat)
  /-- R277. -/
  | contextEnd (ctx : Nat)
  /-- R256. -/
  | awlJobStart (cluster : Nat) (r : AgentRun)
  /-- R256. -/
  | awlJobComplete (cluster : Nat)
  /-- R301, R8. -/
  | stcSubmit (route : Route) (high : Nat)
  /-- R302, R303. -/
  | stitcherCallStart (unit : Nat)
  /-- R305. -/
  | stitcherCallComplete (unit dt : Nat)
  /-- R290, R295. -/
  | trackingPredict (slot : Nat) (bad : Bool)
  /-- R293, R310. -/
  | trackingDetectionsReady (slot : Nat) (e : ReadErrors)
  /-- R298 to R300: the embedding of each crop, by detection index. -/
  | trackingEmbeddingsReady (slot : Nat) (emb : List (Nat × List Byte))
  /-- R307 to R309. -/
  | trackingAssignmentReady (slot : Nat)
  /-- R312: `failing` are gallery entries whose lines fail their check (R393). -/
  | gallerySearchComplete (slot track : Nat) (failing : List Nat)
  /-- R320 to R324. -/
  | narrationRequest (req : NarrReq)
  /-- R330. -/
  | narrationCancel (session : Nat)
  /-- R326. -/
  | narratorStepStart
  /-- R331: the fp32 logits of each sampling session. -/
  | narratorStepComplete (us : Nat) (logits : List (Nat × List Word))
  /-- R323. -/
  | narratorEmbedComplete (session : Nat)
  /-- R354. -/
  | msixModerationTimer (ring : Nat)
  /-- R355. -/
  | ringTailWrite (ring value : Nat)
  /-- R355, R356. -/
  | ringCtrlWrite (ring value : Nat)
  /-- R357. -/
  | collectorDatagramTimer (collector : Nat)
  /-- R358. -/
  | deliveryAck (collector highest bitmap : Nat)
  /-- R359. -/
  | collectorAckTimeout (collector : Nat)
  /-- R370: a pending request's age crosses a threshold of its port's target. -/
  | requestUrgencyRise (port age : Nat)
  /-- R379. -/
  | refreshDue (channel bank : Nat) (busyUrgent : Bool)
  /-- R380. -/
  | channelRetrain (channel tempC : Nat)
  /-- R380. -/
  | retrainComplete (channel : Nat) (ok : Bool)
  /-- R375. -/
  | cacheFlush
  /-- R375. -/
  | flushComplete
  /-- R387. -/
  | mergeEntryTimeout (channel line : Nat) (e : ReadErrors)
  /-- R397. -/
  | burnisherLine (e : ReadErrors)
  /-- R398. -/
  | onchipScrubLine (failing : Bool)
  /-- R402. -/
  | quarantineCopyComplete (channel entry : Nat)
  /-- R403. -/
  | spareEntryAppend
  /-- R409, R410, R422. -/
  | allocPage (route : Route) (high : Nat)
  /-- R419, R422. -/
  | freePage (route : Route) (high : Nat)
  /-- R416, R422. -/
  | fbGet (route : Route) (high : Nat)
  /-- R416, R422. -/
  | fbTake (route : Route) (high : Nat)
  /-- R416, R422. -/
  | fbDrop (route : Route) (high : Nat)
  /-- R416, R422. -/
  | fbTakeEv (route : Route) (high : Nat)
  /-- R416, R422. -/
  | fbDropEv (route : Route) (high : Nat)
  /-- R422. -/
  | tkpIllegalCommand (route : Route) (high : Nat)
  /-- R419. -/
  | pageZeroingComplete (page : Nat)
  /-- R427 to R429. -/
  | contextCreate (route : OdRoute) (req : CreateReq) (decl : ImageDecl)
  /-- R436. -/
  | contextDestroy (route : OdRoute) (ctx : Nat)
  /-- R438. -/
  | captureRelease (route : OdRoute) (ctx : Nat)
  /-- R438. -/
  | captureRetainExpiry (ctx : Nat)
  /-- R431. -/
  | sliceExpiry (ctx : Nat)
  /-- R432. -/
  | preemptTimeout (ctx : Nat)
  /-- R434. -/
  | contextSwitchStart (ctx : Nat)
  /-- R434. -/
  | contextSwitchComplete (ctx : Nat) (readFails : Bool)
  /-- R439. -/
  | primitiveRequest (route : OdRoute) (p : Primitive) (layers : LayerSection)
  /-- R449. -/
  | checkpointSigned
  /-- R454, R455: `prefixes` is what the partner exchanges of the group's entries at a mismatch. -/
  | lockstepChainValue (slot group : Nat) (value : List Byte) (prefixes : List (List Byte))
  /-- R453. -/
  | leaderForcedEntries (slot group : Nat) (entries : List (List Byte))
  /-- R461 to R465, R472. -/
  | reinTick (m : Meters)
  /-- R465. -/
  | thermalResetRelease (tempC : Nat)
  /-- R457: measured and estimated energy and the leakage model's energy, in one unit. -/
  | calibrationUpdate (measured estimated leakage : Nat)
  /-- R460. -/
  | arithDividerChange (rootCount : Nat)
  /-- R466. -/
  | pwrWarn (asserted : Bool) (us : Nat)
  /-- R466: droop in 0.1 %. -/
  | droopChange (tenths us : Nat)
  /-- R467. -/
  | shedStepEntry (n us : Nat)
  /-- R467. -/
  | shedStepExit (n us : Nat)
  /-- R471. -/
  | shedParkTimeout
  /-- R474. -/
  | standbyEnter (route : OdRoute)
  /-- R475. -/
  | standbyWake (nonPcie : Bool)
  /-- R381, R517. -/
  | selfRefreshExitComplete
  /-- R476. -/
  | pllLock
  /-- R477, R22. -/
  | refclkLoss
  /-- R478. -/
  | serdesRefLoss (r : SerdesRef)
  /-- R490, R491. -/
  | stirrupWriteFrame (f : Frame)
  /-- R284, R490. -/
  | stirrupIncrementFrame (f : Frame)
  /-- R485, R490. -/
  | stirrupMirrorFrame (f : Frame) (kind : MirrorKind)
  /-- R490, R501. -/
  | stirrupControlFrame (f : Frame) (msg : CtlMsg)
  /-- R490, R486. -/
  | stirrupIdleFrame (f : Frame)
  /-- R490. -/
  | stirrupIdleTimer
  /-- R491. -/
  | stirrupRetxTimeout
  /-- R489, R482. -/
  | linkTrained (partnerDigest : List Byte) (partnerOwner : Bool)
  /-- R489. -/
  | linkTrainRetry
  /-- R492, R495. -/
  | linkSilent
  /-- R495. -/
  | failInChange (low : Bool)
  /-- R494. -/
  | hbInMissing
  /-- R494. -/
  | pairHbToggle
  /-- R485. -/
  | ledgerMirror
  /-- R501. -/
  | plannedHandover (slots : List Nat)
  /-- R510. -/
  | bar2Read (offset bytes : Nat) (e : ReadErrors)
  /-- R510. -/
  | bar2Write (w : HostWrite)
  /-- R514, R533. -/
  | mailboxDoorbell (value : Nat)
  /-- R514. -/
  | mailboxAck (value : Nat)
  /-- R515: the MSI-X enable, function mask and vector masks take new values. -/
  | msixUnmask (enable functionMask : Bool) (unmask : List Nat)
  /-- R516. -/
  | d3hotRequest
  /-- R517. -/
  | d0Request
  /-- R518. -/
  | pmeTurnOff
  /-- R523. -/
  | perst
  /-- R523. -/
  | flr
  /-- R520: for the read with this tag. -/
  | readCompletion (tag : Nat) (status : CplStatus) (dt : Nat) (bytes : List Byte)
  /-- R519. -/
  | completionTimeout (tag : Nat)
  /-- R536, R529. -/
  | odxRead (who : OdFrom) (k : OdKey)
  /-- R526, R536. -/
  | odxWrite (who : OdFrom) (k : OdKey) (value : List Byte)
  /-- R536, R538. -/
  | odxBegin (who : OdFrom)
  /-- R537. -/
  | odxCommit (who : OdFrom)
  /-- R538. -/
  | odxRollback (who : OdFrom)
  /-- R534. -/
  | odxInfo (who : OdFrom) (k : OdKey)
  /-- R538. -/
  | transactionExpiry (route : OdRoute)
  /-- R540. -/
  | blpOpen
  /-- R540. -/
  | blpClose (session : Nat)
  /-- R540, R541. -/
  | sessionTimeout (route : OdRoute) (session : Nat)
  /-- R541. -/
  | canFrame (bytes : List Byte) (classic : Bool)
  /-- R541. -/
  | canSegmentTimeout
  /-- R541. -/
  | canBusOff
  /-- R532. -/
  | expertUnlock (who : OdFrom) (value : Nat)
  /-- R530. -/
  | warmReset (route : OdRoute)
  /-- R413. -/
  | allocClassXPages (route : OdRoute) (n : Nat)
  /-- R413. -/
  | freeClassXPages (route : OdRoute) (handle : Nat)
  /-- R567, R568. -/
  | attestationRequest (route : OdRoute) (nonce : List Byte)
  /-- R570. -/
  | debugChallengeRequest (route scope : Nat)
  /-- R570. -/
  | debugResponse (r : DebugResp)
  /-- R570. -/
  | unlockLockoutEnd
  /-- R545, R572: `verified` is the Keeper's read-back (R546). -/
  | ownerKeyBurn (route : OdRoute) (k : Nat) (key : List Byte) (verified : Bool)
  /-- R545, R572. -/
  | ownerFuseSet (route : OdRoute) (f : OwnerFuse) (verified : Bool)
  /-- R553. -/
  | svnAdvance (route : OdRoute) (kind : Nat) (verified : Bool)
  /-- R552, R572. -/
  | revocationContainer (route : OdRoute) (c : Container) (verified : Bool)
  /-- R558, R572. -/
  | stageCountReset (route : OdRoute) (stage : Nat)
  /-- R564. -/
  | journalSelect (route : OdRoute) (pos : Nat)
  /-- R565. -/
  | configSave (route : OdRoute)
  /-- R572. -/
  | configErase (route : OdRoute)
  /-- R554: the container at the update handle. -/
  | firmwareUpdate (route : OdRoute) (c : Container)
  /-- R554. -/
  | firmwareUpdateDone
  /-- R581. -/
  | powerOn
  /-- R581. -/
  | resetNAssert
  /-- R579. -/
  | railBrownout
  /-- R556. -/
  | bootStagePass (r : StageResult)
  /-- R557. -/
  | stageWatchdog (failingClusters : Nat)
  /-- R559. -/
  | bootRetry
  /-- R8. -/
  | highWordRead (route : Route) (addr bytes : Nat)
  /-- R52. -/
  | evtInBudgetRefill (line dt : Nat)
  /-- R95. -/
  | encodeSaveDone (engine dt : Nat)
  /-- R95. -/
  | encodeRestoreDone (engine dt : Nat)
  /-- R478. -/
  | serdesRefReturn (r : SerdesRef)
  /-- R494. -/
  | hbInEdge
  /-- R490. -/
  | stirrupBadFrame (why : BadFrame)
  /-- R540. -/
  | blpUdpRequest (d : UdpDatagram)
  /-- R522. -/
  | pcieTlpError (e : TlpError)
  deriving DecidableEq, Repr

end Sys2Proof
end

