-- ==== Sys2Proof/Decode.lean ====
section
/-! DEFINITION. The words of the command table. No row of spec/opcode_table.json gives bits, so no
word of the table spells a command. (The 64-bit instruction words of the Dziad cores, R149 and R150,
are operands of their commands; `Machine/CoreWord.lean` reads them.) -/
namespace Sys2Proof

/-- The command a word spells by the table's bits: none, since every row's field list is empty. -/
def decodeTableWord (_nbits _w : Nat) : Option Instr := none

end Sys2Proof
end

