-- ==== Sys2Proof/Config.lean ====
section
/-! DEFINITION. What an implementation fixes, and the values the spec leaves open: constants without a
body, so that no proof can lean on a value of them. -/
namespace Sys2Proof

/-- Values the spec leaves open or draws at random, in the order they are drawn (assumption 5). -/
opaque Config.freeValue : Nat → Nat

/-- The device identity's Ed25519 public key (R547, R548). -/
opaque Config.devicePublicKey : List Byte

/-- Ed25519 signature of a message with the device identity key (R449, R567). -/
opaque Config.deviceSign : List Byte → List Byte

/-- Ed25519 verification: public key, message, signature (R551, R570). -/
opaque Config.verify : List Byte → List Byte → List Byte → Bool

/-- What the loader reads of an image whose section contents the spec does not lay out (assumption 7). -/
opaque Config.readImage : List Byte → Option ImageDecl

/-- The request that the 64 B value of entry 0x8010.01 and the 32 B values of 0x8011.01 and .02 spell:
their layouts are not given (assumption 8). -/
opaque Config.readNarration : List Byte → Option NarrReq

opaque Config.readEvidence : List Byte → Option EvidReq

/-- Whether a unit of a payload format is a refresh point by the published standards (R77), for a device that
does not decode it (R501). -/
opaque Config.refreshUnit : Nat → List Byte → Bool

/-- First pages of the track store and of its checkpoint copy (R288, R289): where the tracking service's pages lie is
not given. -/
opaque Config.storePage : Nat

opaque Config.checkpointPage : Nat

/-- The Digest answer of an RTSP request (RFC 7616, R30): whether by SHA-256, realm, nonce, URL with its credentials,
method. -/
opaque Config.digestAnswer : Bool → List Byte → List Byte → List Byte → Nat → List Byte

/-- The part of an access unit that an RTP payload of AV1 or JPEG carries, by the payload format (R29). -/
opaque Config.depacketise : Nat → List Byte → List Byte

/-- Chroma sample of a monochrome AV1 picture's buffer, by bit depth: R69 gives none. -/
opaque Config.monochromeChroma : Nat → Nat

/-- Size of the board's boot flash, 64 MiB to 256 MiB (R549). -/
opaque Config.flashBytes : Nat

/-- The vendor name of entry 0x1000.01. -/
opaque Config.vendorName : List Byte

/-- Version of the mask ROM (0x1001.03). -/
opaque Config.romVersion : Nat

/-- Version of the structure that record `i` of the discovery table describes, and the populated bytes of block
`b`: the table's values are not given (R511). -/
opaque Config.discoveryVersion : Nat → Nat

opaque Config.populatedBytes : Nat → Nat

/-- A byte of a debug capture's state and cluster blocks, of what they hold: their layout is not given (R433, R438). -/
opaque Config.captureByte : List Nat → Nat → Byte

/-- Device address of the page list of a context's save area, by context and reservation (CTX_SAVE_LIST, R441):
where the list lies is not given. -/
opaque Config.saveList : Nat → Nat → Nat

/-- A prompt template with the fields of an event record filled in (R322): the mark of a field in a template is not
given. -/
opaque Config.fillTemplate : List Byte → List Byte → List Byte

/-! ### The parts of an H.265 clip (R103 to R106) whose bits H.265 itself lays out -/

/-- HRD parameters of the VPS and SPS. -/
structure HrdParams where
  nal : Bool := true      -- nal_hrd_parameters_present_flag
  vcl : Bool := false     -- vcl_hrd_parameters_present_flag
  cpbCount : Nat := 1
  bitRate : Nat
  cpbSize : Nat
  cbr : Bool
  deriving DecidableEq, Repr

/-- How the CTUs of one column are coded. -/
inductive ColumnCode where
  | any                                   -- inter or intra, with any reference
  | inter (supportEnd : Nat)              -- every reference block with its interpolation support ends before this luma column
  | intra (limit : Nat)                   -- no reference sample at or beyond this luma column
  | intraDc (limit : Nat)                 -- DC intra without residual (R108)
  | skip                                  -- skip-coded from the previous picture
  deriving DecidableEq, Repr

/-- One picture: its slice, of one temporal layer. -/
structure PicturePlan where
  idr : Bool
  poc : Nat
  refs : List Nat               -- the pictures it references
  ctuSize : Nat := 32
  columns : List ColumnCode
  boundary : Option Nat         -- tile-column boundary of its PPS, in CTUs
  filterAcrossTiles : Bool := false
  qp : Nat
  deriving DecidableEq, Repr

/-- The NAL units whose content is a few numbers. -/
inductive HeadNal where
  | vps (levelIdc : Nat) (hrd : HrdParams)
  | sps (depth width height levelIdc ctuSize temporalLayers : Nat) (hrd : HrdParams)
  | pps (boundary : Option Nat) (filterAcrossTiles : Bool)
  | bufferingPeriod (initialRemovalDelay : Nat)
  | pictureTiming (poc : Nat)
  | recoveryPoint (pocCount : Nat)
  deriving DecidableEq, Repr

/-- The NAL unit of H.265's byte stream with this content. -/
opaque Config.headNal : HeadNal → List Byte

/-- The slice of a picture, from the firmware version, its plan, the previous picture as decoded, and its source samples. -/
opaque Config.sliceNal : Nat → PicturePlan → List Byte → List Byte → List Byte

/-- A picture as decoded, from the previous one and its slice. -/
opaque Config.reconstruct : List Byte → List Byte → List Byte

/-- The QP that rate control chooses, from the firmware version, the buffer's fullness, the previous picture as decoded and
the source samples. -/
opaque Config.rateQp : Nat → Nat → List Byte → List Byte → Nat

/-- A filler shorter than the smallest filler data NAL unit (R109). -/
opaque Config.shortFiller : Nat → List Byte

/-- What an engine encodes in place of source samples whose read failed, by draw (R112, R393). -/
opaque Config.lostSource : Nat → List Byte → List Byte

/-- A block's 64 quantised coefficients in zig-zag order, from the quantisation table and the samples: the arithmetic of
the forward transform is not given (R111). -/
opaque Config.quantised : List Nat → List Nat → List Int

/-- The version, units and density of a snapshot's JFIF header (R111). -/
opaque Config.jfifFields : List Byte

end Sys2Proof
end

