-- ==== Sys2Proof/Machine/Table.lean ====
section
/-! DEFINITION. Sparse tables in canonical form: reading, writing and removing entries, and small list
helpers that the kernel evaluates by structural recursion. -/
namespace Sys2Proof.Machine
open Sys2Proof

variable {α : Type}

/-- Entry `k` of a table whose unlisted entries are `d`. -/
def tget (d : α) : Tbl α → Nat → α
  | [], _ => d
  | (k', v) :: t, k => if k = k' then v else tget d t k

/-- Removes entry `k`. -/
def tdel : Tbl α → Nat → Tbl α
  | [], _ => []
  | (k', v) :: t, k => if k = k' then tdel t k else (k', v) :: tdel t k

/-- Puts `v` at `k`, keeping the keys rising. -/
def tput : Tbl α → Nat → α → Tbl α
  | [], k, v => [(k, v)]
  | (k', w) :: t, k, v =>
    if k < k' then (k, v) :: (k', w) :: t
    else if k = k' then (k, v) :: t
    else (k', w) :: tput t k v

/-- Writes entry `k`: writing the default removes the entry, so that equal tables are equal data. -/
def tset [DecidableEq α] (d : α) (t : Tbl α) (k : Nat) (v : α) : Tbl α :=
  if v = d then tdel t k else tput t k v

/-- Changes entry `k`. -/
def tmod [DecidableEq α] (d : α) (t : Tbl α) (k : Nat) (f : α → α) : Tbl α :=
  tset d t k (f (tget d t k))

/-- Counts up a counter. -/
def tinc (t : Tbl Nat) (k n : Nat) : Tbl Nat := tmod 0 t k (· + n)

/-- The numbers `a, a + 1, …` (`n` of them). -/
def upto (a : Nat) : Nat → List Nat
  | 0 => []
  | n + 1 => a :: upto (a + 1) n

/-- `xs` without `x`. -/
def without [DecidableEq α] (x : α) (xs : List α) : List α := xs.filter (fun y => decide (y ≠ x))

/-- Insertion into a list in rising order of `key`, after equal keys. -/
def insertBy (key : α → Nat) (x : α) : List α → List α
  | [] => [x]
  | y :: t => if key x < key y then x :: y :: t else y :: insertBy key x t

/-- Stable insertion sort by `key`. -/
def sortBy (key : α → Nat) : List α → List α
  | [] => []
  | x :: t =>
    match sortBy key t with
    | [] => [x]
    | y :: u => if key x ≤ key y then x :: y :: u else y :: insertLe x u
where
  /-- Inserts before the first key that is not smaller. -/
  insertLe (x : α) : List α → List α
    | [] => [x]
    | z :: w => if key x ≤ key z then x :: z :: w else z :: insertLe x w

/-- Replaces the elements that `p` picks by `f` of them. -/
def modWhere (p : α → Bool) (f : α → α) (xs : List α) : List α :=
  xs.map (fun x => if p x then f x else x)

/-- The first element of the least key. -/
def minBy (key : α → Nat) : List α → Option α
  | [] => none
  | x :: t =>
    match minBy key t with
    | none => some x
    | some y => if key x ≤ key y then some x else some y

/-- `n` copies. -/
def copies (n : Nat) (x : α) : List α := List.replicate n x

/-- A list cut into pieces of `n`, with `fuel` at least the number of pieces. -/
def chunks (n : Nat) : Nat → List α → List (List α)
  | 0, _ => []
  | fuel + 1, xs => if xs.isEmpty then [] else xs.take n :: chunks n fuel (xs.drop n)

end Sys2Proof.Machine
end

