-- ==== Sys2Proof/Machine/Bits.lean ====
section
/-! DEFINITION. Bits and bytes: fields, byte order (R3), two's complement, alignment, and the rounding
shift of R201. -/
namespace Sys2Proof.Machine
open Sys2Proof

/-- Bits `[hi:lo]` of a number. -/
def bits (v hi lo : Nat) : Nat := (v >>> lo) % 2 ^ (hi + 1 - lo)

/-- Bit `i` of a number. -/
def bit (v i : Nat) : Bool := (v >>> i) % 2 == 1

/-- A Boolean as a bit. -/
def b2n (b : Bool) : Nat := if b then 1 else 0

/-- `v` with bit `i` set or cleared. -/
def setBit (v i : Nat) (b : Bool) : Nat := v - b2n (bit v i) * 2 ^ i + b2n b * 2 ^ i

/-- Little-endian bytes of a number (R3). -/
def leBytes : Nat → Nat → List Byte
  | 0, _ => []
  | n + 1, v => BitVec.ofNat 8 v :: leBytes n (v / 256)

/-- Number of little-endian bytes. -/
def leNat : List Byte → Nat
  | [] => 0
  | b :: t => b.toNat + 256 * leNat t

/-- Field of `n` bytes at offset `o`. -/
def fieldAt (bs : List Byte) (o n : Nat) : Nat := leNat ((bs.drop o).take n)

/-- Signed value of a `w`-bit pattern. -/
def sgn (w v : Nat) : Int := if v % 2 ^ w < 2 ^ (w - 1) then (v % 2 ^ w : Nat) else (v % 2 ^ w : Nat) - (2 ^ w : Nat)

/-- The `w`-bit pattern of an integer. -/
def wrap (w : Nat) (i : Int) : Nat := (i % (2 ^ w : Nat)).toNat

/-- The smallest multiple of `a` that is at least `v`. -/
def alignUp (v a : Nat) : Nat := (v + a - 1) / a * a

/-- Quotient rounded up. -/
def ceilDiv (a b : Nat) : Nat := (a + b - 1) / b

/-- `v` clamped to `[lo, hi]`. -/
def clampI (v lo hi : Int) : Int := if v < lo then lo else if hi < v then hi else v

/-- t / 2^s, ties to even (R201). -/
def rshiftRne (t : Int) (s : Nat) : Int :=
  let d : Int := (2 ^ s : Nat)
  let q := Int.fdiv t d
  let r2 := 2 * (t - q * d)
  if r2 > d ∨ (r2 = d ∧ q % 2 = 1) then q + 1 else q

/-- `bs` padded with zeros, or cut, to `n` bytes. -/
def padTo (n : Nat) (bs : List Byte) : List Byte := (bs ++ copies (n - bs.length) 0#8).take n

def allZero (bs : List Byte) : Bool := bs.all (fun b => b == 0#8)

/-- ASCII bytes of a string. -/
def ascii (t : String) : List Byte := t.toList.map (fun c => BitVec.ofNat 8 c.toNat)

/-- Number of significant bits. -/
def bitLen (n : Nat) : Nat := if n = 0 then 0 else Nat.log2 n + 1

/-- Count of one bits among the low `n`. -/
def popCount (v : Nat) : Nat → Nat
  | 0 => 0
  | n + 1 => popCount v n + b2n (bit v n)

/-- The numbers of the one bits among the low `n`, ascending. -/
def onBits (v n : Nat) : List Nat := (upto 0 n).filter (fun i => bit v i)

/-- Saturating sum at `2^w − 1`. -/
def satAdd (w a b : Nat) : Nat := min (a + b) (2 ^ w - 1)

/-- Integer square root by binary digits, from bit `n − 1` down. -/
def isqrtFrom (v : Nat) : Nat → Nat → Nat
  | 0, r => r
  | n + 1, r => let c := r + 2 ^ n; isqrtFrom v n (if c * c ≤ v then c else r)

/-- Integer square root. -/
def isqrt (v : Nat) : Nat := isqrtFrom v (bitLen v / 2 + 1) 0

/-! ### Format pairs (R177) -/

/-- K per row, cycles per row and whether sums are fp32, for a pair in a mode (0 WS, 1 IS, 2 OS). -/
def pairOf (a b mode : Nat) : Option (Nat × Nat × Bool) :=
  let i8 := fun (x : Nat) => x == 0 || x == 1
  let i4 := fun (x : Nat) => x == 2 || x == 3
  let f8 := fun (x : Nat) => x == 6 || x == 7
  if b = 4 then
    if mode ≠ 0 then none else if i8 a then some (16, 1, false) else if i4 a then some (32, 1, false) else none
  else if i4 a && i4 b then some (32, 1, false)
  else if (i8 a || i4 a) && (i8 b || i4 b) then some (16, 1, false)
  else if a = 5 ∧ b = 5 then some (16, 4, false)
  else if (a = 5 ∧ i8 b) ∨ (i8 a ∧ b = 5) then some (16, 2, false)
  else if f8 a && f8 b then some (16, 2, true)
  else if (a = 8 ∧ b = 8) ∨ (a = 9 ∧ b = 9) then some (16, 4, true)
  else none

end Sys2Proof.Machine
end

