-- ==== Sys2Proof/Machine/CoreWord.lean ====
section
/-! DEFINITION. The 64-bit instruction words of the Dziad cores: class and function (R149), formats of the bits below
them (R150), and whether a command's operands are those that its word spells. The spec numbers the functions of
classes 0x00 to 0x1C nowhere: which of a class's operations a word names is its command's operand. -/
namespace Sys2Proof

/-- Bits `[hi:lo]` of a word. -/
def IWord.field (w : IWord) (hi lo : Nat) : Nat := Machine.bits w.toNat hi lo

/-- The 32 low bits of a word: imm32 of RI, the offset of BR. -/
def IWord.low32 (w : IWord) : Word := BitVec.ofNat 32 (IWord.field w 31 0)

/-- Fields of RR and RI (R150). -/
def ScalarFields.rd (f : ScalarFields) : Nat := f.word.field 51 47
def ScalarFields.rs1 (f : ScalarFields) : Nat := f.word.field 46 42
def ScalarFields.rs2 (f : ScalarFields) : Nat := f.word.field 41 37

/-- The bits that the format names zero. -/
def ScalarFields.zeros (f : ScalarFields) : Nat := if f.immediate then f.word.field 41 32 else f.word.field 36 0

/-- Fields of VV (R150). -/
def VecFields.vd (f : VecFields) : Nat := f.word.field 51 47
def VecFields.vs1 (f : VecFields) : Nat := f.word.field 46 42
def VecFields.vs2 (f : VecFields) : Nat := f.word.field 41 37
def VecFields.vs3 (f : VecFields) : Nat := f.word.field 36 32
def VecFields.mask (f : VecFields) : Nat := f.word.field 31 29
def VecFields.ty (f : VecFields) : Nat := f.word.field 28 25

/-- The bits of VV that hold an immediate or zero, and those that VM names zero. -/
def VecFields.zeros (f : VecFields) : Nat := f.word.field 24 0
def VecFields.memZeros (f : VecFields) : Nat := f.word.field 41 32 + f.word.field 24 17

/-- cond of BR (R150). -/
def condOf (c : Nat) : Cond :=
  match c with
  | 0 => .eq
  | 1 => .ne
  | 2 => .lt
  | 3 => .ge
  | 4 => .ltu
  | 5 => .geu
  | 6 => .always
  | _ => .reserved

/-- What the class of a word, with its function where the spec numbers it, names (R149, R186, R198, R222, R263,
R281). -/
inductive CoreClass where
  | alu | muldiv | loadStore | branch | csr
  | vint | vfloat | vcompare | vreduce | vconvert | vpermute | vmem
  | lds | strm | ostr | odrn | oclr | nrw | nrwf | lutl
  | ags | tnx | agd | trd | dld | dma | fill
  | sig | wait | dec | read | sigr | waitr | wfa | wset | wrd | bk | nop | endProgram | breakpoint
  deriving DecidableEq, Repr

/-- Class and function of the words whose functions the spec numbers. -/
def numberedClass (cls fn : Nat) : Option CoreClass :=
  match cls, fn with
  | 0x20, 0 => some .lds
  | 0x21, 0 => some .strm
  | 0x22, 0 => some .ostr
  | 0x22, 1 => some .odrn
  | 0x22, 2 => some .oclr
  | 0x24, 0 => some .nrw
  | 0x24, 1 => some .nrwf
  | 0x25, 0 => some .lutl
  | 0x26, 0 => some .ags
  | 0x26, 1 => some .tnx
  | 0x26, 2 => some .agd
  | 0x26, 3 => some .trd
  | 0x27, 0 => some .dld
  | 0x30, 0 => some .dma
  | 0x31, 0 => some .fill
  | 0x34, 0 => some .sig
  | 0x34, 1 => some .wait
  | 0x34, 2 => some .dec
  | 0x34, 3 => some .read
  | 0x35, 0 => some .sigr
  | 0x35, 1 => some .waitr
  | 0x36, 0 => some .wfa
  | 0x36, 1 => some .wset
  | 0x36, 2 => some .wrd
  | 0x38, 0 => some .bk
  | 0x3F, 0 => some .nop
  | 0x3F, 1 => some .endProgram
  | 0x3F, 2 => some .breakpoint
  | _, _ => none

/-- What a word names: none for a reserved class or an undefined function (R149, R151). -/
def coreClass (w : IWord) : Option CoreClass :=
  let cls := w.field 63 58
  if cls ≤ 3 then some .alu
  else if cls = 4 then some .muldiv
  else if cls = 5 then some .loadStore
  else if cls = 6 then some .branch
  else if cls = 7 then some .csr
  else if 0x10 ≤ cls ∧ cls ≤ 0x13 then some .vint
  else if 0x14 ≤ cls ∧ cls ≤ 0x17 then some .vfloat
  else if cls = 0x18 then some .vcompare
  else if cls = 0x19 then some .vreduce
  else if cls = 0x1A then some .vconvert
  else if cls = 0x1B then some .vpermute
  else if cls = 0x1C then some .vmem
  else numberedClass cls (w.field 57 52)

/-- A core instruction's class and word. -/
def Instr.coreWord : Instr → Option (CoreClass × IWord)
  | .scalarAlu _ _ f => some (.alu, f.word)
  | .scalarMuldiv _ _ f => some (.muldiv, f.word)
  | .scalarLoadStore _ _ f _ => some (.loadStore, f.word)
  | .branch _ _ _ _ _ _ w => some (.branch, w)
  | .csrRead _ _ _ w => some (.csr, w)
  | .vectorInt _ _ f => some (.vint, f.word)
  | .vectorFloat _ _ f => some (.vfloat, f.word)
  | .vectorCompare _ _ f => some (.vcompare, f.word)
  | .vectorReduction _ _ f => some (.vreduce, f.word)
  | .vectorConversion _ f => some (.vconvert, f.word)
  | .vectorPermute _ _ f => some (.vpermute, f.word)
  | .vectorLoadStore _ _ f _ _ => some (.vmem, f.word)
  | .lds _ w => some (.lds, w)
  | .strm _ w => some (.strm, w)
  | .ostr _ w => some (.ostr, w)
  | .odrn _ w => some (.odrn, w)
  | .oclr _ w => some (.oclr, w)
  | .nrw _ w => some (.nrw, w)
  | .nrwf _ w => some (.nrwf, w)
  | .lutl _ w => some (.lutl, w)
  | .dld _ w => some (.dld, w)
  | .ags _ w => some (.ags, w)
  | .tnx _ w => some (.tnx, w)
  | .agd _ w => some (.agd, w)
  | .trd _ w => some (.trd, w)
  | .dmaIssue _ w => some (.dma, w)
  | .instructionFill _ w => some (.fill, w)
  | .bk _ w => some (.bk, w)
  | .nop _ w => some (.nop, w)
  | .endProgram _ w => some (.endProgram, w)
  | .breakpoint _ w => some (.breakpoint, w)
  | .sig _ w => some (.sig, w)
  | .sigr _ w => some (.sigr, w)
  | .wait _ w => some (.wait, w)
  | .waitr _ w => some (.waitr, w)
  | .dec _ w => some (.dec, w)
  | .read _ w => some (.read, w)
  | .wfa _ w => some (.wfa, w)
  | .wset _ w => some (.wset, w)
  | .wrd _ w => some (.wrd, w)
  | _ => none

/-- The operands that stand beside a word are its fields: class 0x04 has the format RR, class 0x05 RI, and the
operands of branches, CSR reads and vector accesses lie in BR, RI and VM (R149, R150). -/
def Instr.spelt : Instr → Bool
  | .scalarMuldiv _ _ f => !f.immediate
  | .scalarLoadStore _ _ f _ => f.immediate
  | .branch _ rd rs1 rs2 cond offset w =>
    rd == w.field 51 47 && rs1 == w.field 46 42 && rs2 == w.field 41 37 && cond == condOf (w.field 36 32)
      && offset == Machine.sgn 32 (w.field 31 0)
  | .csrRead _ rd csr w => rd == w.field 51 47 && csr == w.field 31 0
  | .vectorLoadStore _ _ f base offset => base == f.word.field 46 42 && offset == f.word.field 16 0
  | _ => true

end Sys2Proof
end

