-- ==== Sys2Proof/Machine/Codes.lean ====
section
/-! DEFINITION. The fault and event codes of 26_fault_catalogue.md, by name (R590). -/
namespace Sys2Proof.Machine

/-- FLT_ING_RTSP: R31. -/
abbrev fltIngRtsp : Nat := 0x1001
/-- FLT_ING_PUSH: R43. -/
abbrev fltIngPush : Nat := 0x1002
/-- FLT_STREAM_STOP: R39, R79. -/
abbrev fltStreamStop : Nat := 0x1003
/-- FLT_EVT_STUCK: R51. -/
abbrev fltEvtStuck : Nat := 0x1004
/-- FLT_EVT_RATE: R52. -/
abbrev fltEvtRate : Nat := 0x1005
/-- FLT_ADMIT_SHAPE: R66. -/
abbrev fltAdmitShape : Nat := 0x2001
/-- FLT_ADMIT_RATE: R64, R503. -/
abbrev fltAdmitRate : Nat := 0x2002
/-- FLT_DEC_PROFILE: R62. -/
abbrev fltDecProfile : Nat := 0x2003
/-- FLT_DEC_DIMENSION: R78. -/
abbrev fltDecDimension : Nat := 0x2004
/-- FLT_DEC_ABANDON: R76. -/
abbrev fltDecAbandon : Nat := 0x2005
/-- FLT_VEN_PARAM: R93. -/
abbrev fltVenParam : Nat := 0x2006
/-- FLT_VEN_BUSY: R94. -/
abbrev fltVenBusy : Nat := 0x2007
/-- FLT_VEN_HOLD: R98. -/
abbrev fltVenHold : Nat := 0x2008
/-- FLT_VEN_SHED: R101. -/
abbrev fltVenShed : Nat := 0x2009
/-- FLT_VEN_SNAP_SIZE: R112. -/
abbrev fltVenSnapSize : Nat := 0x200A
/-- FLT_SKV_HANDLE: R120. -/
abbrev fltSkvHandle : Nat := 0x3001
/-- FLT_SKV_REGION: R120. -/
abbrev fltSkvRegion : Nat := 0x3002
/-- FLT_SKV_OUTPUT: R120. -/
abbrev fltSkvOutput : Nat := 0x3003
/-- FLT_SKV_COEF: R120, R125. -/
abbrev fltSkvCoef : Nat := 0x3004
/-- FLT_CORE_ADDR: R147, R202, R223. -/
abbrev fltCoreAddr : Nat := 0x4001
/-- FLT_CORE_ILLEGAL: R151. -/
abbrev fltCoreIllegal : Nat := 0x4002
/-- FLT_CORE_IFETCH: R154. -/
abbrev fltCoreIfetch : Nat := 0x4003
/-- FLT_CORE_TRANSPOSE: R158. -/
abbrev fltCoreTranspose : Nat := 0x4004
/-- FLT_CORE_BANK_OWN: R159, R223. -/
abbrev fltCoreBankOwn : Nat := 0x4005
/-- FLT_CORE_BANK_OFF: R161. -/
abbrev fltCoreBankOff : Nat := 0x4006
/-- FLT_DMA_DESC: R169. -/
abbrev fltDmaDesc : Nat := 0x4007
/-- FLT_DMA_ADDR: R169, R425. -/
abbrev fltDmaAddr : Nat := 0x4008
/-- FLT_ARR_ZP: R180. -/
abbrev fltArrZp : Nat := 0x4009
/-- FLT_ARR_STATE: R189. -/
abbrev fltArrState : Nat := 0x400A
/-- FLT_NRW_PARAM: R200. -/
abbrev fltNrwParam : Nat := 0x400B
/-- FLT_NRW_STATE: R204. -/
abbrev fltNrwState : Nat := 0x400C
/-- FLT_TILE_DESC: R217, R229, R231. -/
abbrev fltTileDesc : Nat := 0x400D
/-- FLT_TILE_STREAM: R226, R230. -/
abbrev fltTileStream : Nat := 0x400E
/-- FLT_TILE_LIST: R228. -/
abbrev fltTileList : Nat := 0x400F
/-- FLT_TILE_CAPACITY: R238, R239. -/
abbrev fltTileCapacity : Nat := 0x4010
/-- FLT_SHAPE: R243, R258. -/
abbrev fltShape : Nat := 0x4011
/-- FLT_AWL_DESC: R258. -/
abbrev fltAwlDesc : Nat := 0x4012
/-- EVT_DBG_BREAK: R152. -/
abbrev evtDbgBreak : Nat := 0x4080
/-- EVT_DBG_BANK_CONFLICT: R160. -/
abbrev evtDbgBankConflict : Nat := 0x4081
/-- FLT_SYNC_OVERFLOW: R266. -/
abbrev fltSyncOverflow : Nat := 0x5001
/-- FLT_SYNC_UNDERFLOW: R265. -/
abbrev fltSyncUnderflow : Nat := 0x5002
/-- FLT_SYNC_RESIDUE: R277. -/
abbrev fltSyncResidue : Nat := 0x5003
/-- FLT_SYNC_TARGET: R264. -/
abbrev fltSyncTarget : Nat := 0x5004
/-- FLT_WORK_OWNER: R280. -/
abbrev fltWorkOwner : Nat := 0x5005
/-- FLT_WORK_ARG: R281. -/
abbrev fltWorkArg : Nat := 0x5006
/-- FLT_STC_DESC: R302. -/
abbrev fltStcDesc : Nat := 0x6001
/-- FLT_STC_ADDR: R302. -/
abbrev fltStcAddr : Nat := 0x6002
/-- FLT_NAR_IMAGE: R318. -/
abbrev fltNarImage : Nat := 0x6003
/-- FLT_NAR_BUSY: R321. -/
abbrev fltNarBusy : Nat := 0x6004
/-- FLT_NAR_PROMPT: R322. -/
abbrev fltNarPrompt : Nat := 0x6005
/-- FLT_NAR_SHED: R330. -/
abbrev fltNarShed : Nat := 0x6006
/-- FLT_NAR_PICTURE: R324. -/
abbrev fltNarPicture : Nat := 0x6007
/-- FLT_MEM_DECODE: R366. -/
abbrev fltMemDecode : Nat := 0x7001
/-- FLT_MEM_TRAIN: R380. -/
abbrev fltMemTrain : Nat := 0x7002
/-- FLT_MEM_REMAP: R402, R403. -/
abbrev fltMemRemap : Nat := 0x7003
/-- FLT_MEM_REMAP_FULL: R402. -/
abbrev fltMemRemapFull : Nat := 0x7004
/-- FLT_MEM_SPARE_OUT: R400. -/
abbrev fltMemSpareOut : Nat := 0x7005
/-- FLT_MEM_DIE: R502. -/
abbrev fltMemDie : Nat := 0x7006
/-- FLT_INT_RECOMPUTE: R393, R394. -/
abbrev fltIntRecompute : Nat := 0x7007
/-- FLT_INT_P_LOST: R391, R392. -/
abbrev fltIntPLost : Nat := 0x7008
/-- FLT_INT_HOST: R391. -/
abbrev fltIntHost : Nat := 0x7009
/-- FLT_INT_SUBST: R393. -/
abbrev fltIntSubst : Nat := 0x700A
/-- FLT_INT_SOFTMAP: R400. -/
abbrev fltIntSoftmap : Nat := 0x700B
/-- FLT_CTX_IMAGE: R161, R427. -/
abbrev fltCtxImage : Nat := 0x8001
/-- FLT_CTX_DIGEST: R427, R555. -/
abbrev fltCtxDigest : Nat := 0x8002
/-- FLT_CTX_FULL: R427. -/
abbrev fltCtxFull : Nat := 0x8003
/-- FLT_CTX_CHANNELS: R376. -/
abbrev fltCtxChannels : Nat := 0x8004
/-- FLT_CTX_PARTITION: R14, R427. -/
abbrev fltCtxPartition : Nat := 0x8005
/-- FLT_CTX_COUNTERS: R427. -/
abbrev fltCtxCounters : Nat := 0x8006
/-- FLT_CTX_KILLED: R436. -/
abbrev fltCtxKilled : Nat := 0x8007
/-- FLT_ADMIT_POOL: R40, R65, R97, R110, R328, R378, R413. -/
abbrev fltAdmitPool : Nat := 0x8008
/-- FLT_TKP_DOUBLE_FREE: R418. -/
abbrev fltTkpDoubleFree : Nat := 0x8009
/-- FLT_TKP_REFCOUNT: R417. -/
abbrev fltTkpRefcount : Nat := 0x800A
/-- FLT_TKP_HANDLE: R418. -/
abbrev fltTkpHandle : Nat := 0x800B
/-- EVT_CTX_PREEMPT_TIMEOUT: R432. -/
abbrev evtCtxPreemptTimeout : Nat := 0x8080
/-- FLT_RNE_BUDGET: R458. -/
abbrev fltRneBudget : Nat := 0x9001
/-- FLT_RNE_STANDBY: R474. -/
abbrev fltRneStandby : Nat := 0x9002
/-- FLT_PWR_THERMAL: R465. -/
abbrev fltPwrThermal : Nat := 0x9003
/-- FLT_CLK_REF: R477. -/
abbrev fltClkRef : Nat := 0x9004
/-- FLT_CLK_SERDES_REF: R478. -/
abbrev fltClkSerdesRef : Nat := 0x9005
/-- EVT_RNE_THROTTLE: R461. -/
abbrev evtRneThrottle : Nat := 0x9080
/-- EVT_PWR_SHED: R468. -/
abbrev evtPwrShed : Nat := 0x9081
/-- FLT_PAIR_CONFIG: R482. -/
abbrev fltPairConfig : Nat := 0xA001
/-- FLT_PAIR_LINK: R492. -/
abbrev fltPairLink : Nat := 0xA002
/-- FLT_PAIR_SIDEBAND: R495. -/
abbrev fltPairSideband : Nat := 0xA003
/-- FLT_PAIR_DIVERGE: R455. -/
abbrev fltPairDiverge : Nat := 0xA004
/-- EVT_PAIR_SYNCED: R488. -/
abbrev evtPairSynced : Nat := 0xA080
/-- EVT_PAIR_TAKEOVER: R496. -/
abbrev evtPairTakeover : Nat := 0xA081
/-- FLT_PCI_ACCESS: R510. -/
abbrev fltPciAccess : Nat := 0xB001
/-- FLT_PCI_WINDOW: R513. -/
abbrev fltPciWindow : Nat := 0xB002
/-- FLT_PCI_CPL_TIMEOUT: R520. -/
abbrev fltPciCplTimeout : Nat := 0xB003
/-- FLT_PCI_CPL_ERROR: R520. -/
abbrev fltPciCplError : Nat := 0xB004
/-- FLT_PCI_LINK: R522. -/
abbrev fltPciLink : Nat := 0xB005
/-- FLT_MDO_TAIL: R355. -/
abbrev fltMdoTail : Nat := 0xB006
/-- FLT_MDO_COLLECTOR: R359. -/
abbrev fltMdoCollector : Nat := 0xB007
/-- EVT_ODX_ROLLBACK: R538. -/
abbrev evtOdxRollback : Nat := 0xC080
/-- FLT_KPR_FUSE: R546. -/
abbrev fltKprFuse : Nat := 0xD001
/-- FLT_KPR_PUF: R547. -/
abbrev fltKprPuf : Nat := 0xD002
/-- FLT_KPR_CERT: R548. -/
abbrev fltKprCert : Nat := 0xD003
/-- FLT_KPR_SIGN_RATE: R449. -/
abbrev fltKprSignRate : Nat := 0xD004
/-- FLT_KPR_BUSY: R568. -/
abbrev fltKprBusy : Nat := 0xD005
/-- FLT_KPR_UNLOCK: R570. -/
abbrev fltKprUnlock : Nat := 0xD006
/-- FLT_BOOT_VERIFY: R552. -/
abbrev fltBootVerify : Nat := 0xD007
/-- FLT_BOOT_ROLLBACK: R553. -/
abbrev fltBootRollback : Nat := 0xD008
/-- FLT_BOOT_UPDATE: R554. -/
abbrev fltBootUpdate : Nat := 0xD009
/-- FLT_BOOT_HALT: R559. -/
abbrev fltBootHalt : Nat := 0xD00A
/-- FLT_BOOT_STORE: R565. -/
abbrev fltBootStore : Nat := 0xD00B
/-- EVT_KPR_DEBUG: R570. -/
abbrev evtKprDebug : Nat := 0xD080

end Sys2Proof.Machine
end

