-- ==== Sys2Proof/Machine/Hash.lean ====
section
/-! DEFINITION. The published digests and checks the device uses: SHA-512 (FIPS 180-4, R443, R444),
CRC-32 of IEEE 802.3 (R511, R533). -/
namespace Sys2Proof.Machine
open Sys2Proof

/-- 2^64, the modulus of SHA-512's words. -/
def shaMod : Nat := 0x10000000000000000

/-- The words of numerals of `n` words each, most significant first. -/
def unpack (n : Nat) (xs : List Nat) : List Nat :=
  xs.flatMap (fun x => (upto 0 n).map (fun i => x / shaMod ^ (n - 1 - i) % shaMod))

/-- The 80 round constants, five to a numeral. -/
def shaK : List Nat := unpack 5 [
  0x428a2f98d728ae227137449123ef65cdb5c0fbcfec4d3b2fe9b5dba58189dbbc3956c25bf348b538,
  0x59f111f1b605d019923f82a4af194f9bab1c5ed5da6d8118d807aa98a303024212835b0145706fbe,
  0x243185be4ee4b28c550c7dc3d5ffb4e272be5d74f27b896f80deb1fe3b1696b19bdc06a725c71235,
  0xc19bf174cf692694e49b69c19ef14ad2efbe4786384f25e30fc19dc68b8cd5b5240ca1cc77ac9c65,
  0x2de92c6f592b02754a7484aa6ea6e4835cb0a9dcbd41fbd476f988da831153b5983e5152ee66dfab,
  0xa831c66d2db43210b00327c898fb213fbf597fc7beef0ee4c6e00bf33da88fc2d5a79147930aa725,
  0x06ca6351e003826f142929670a0e6e7027b70a8546d22ffc2e1b21385c26c9264d2c6dfc5ac42aed,
  0x53380d139d95b3df650a73548baf63de766a0abb3c77b2a881c2c92e47edaee692722c851482353b,
  0xa2bfe8a14cf10364a81a664bbc423001c24b8b70d0f89791c76c51a30654be30d192e819d6ef5218,
  0xd69906245565a910f40e35855771202a106aa07032bbd1b819a4c116b8d2d0c81e376c085141ab53,
  0x2748774cdf8eeb9934b0bcb5e19b48a8391c0cb3c5c95a634ed8aa4ae3418acb5b9cca4f7763e373,
  0x682e6ff3d6b2b8a3748f82ee5defb2fc78a5636f43172f6084c87814a1f0ab728cc702081a6439ec,
  0x90befffa23631e28a4506cebde82bde9bef9a3f7b2c67915c67178f2e372532bca273eceea26619c,
  0xd186b8c721c0c207eada7dd6cde0eb1ef57d4f7fee6ed17806f067aa72176fba0a637dc5a2c898a6,
  0x113f9804bef90dae1b710b35131c471b28db77f523047d8432caab7b40c724933c9ebe0a15c9bebc,
  0x431d67c49c100d4c4cc5d4becb3e42b6597f299cfc657e2a5fcb6fab3ad6faec6c44198c4a475817]

/-- The initial hash value, four words to a numeral. -/
def shaInit : List Nat := unpack 4 [
  0x6a09e667f3bcc908bb67ae8584caa73b3c6ef372fe94f82ba54ff53a5f1d36f1,
  0x510e527fade682d19b05688c2b3e6c1f1f83d9abfb41bd6b5be0cd19137e2179]

def rotr64 (x n : Nat) : Nat := (x >>> n) ||| ((x <<< (64 - n)) % shaMod)

/-- One step of the message schedule: `w` holds the last 16 words, oldest first. -/
def shaNext (w : List Nat) : Nat :=
  let a := w.getD 1 0
  let b := w.getD 14 0
  let s0 := (rotr64 a 1 ^^^ rotr64 a 8) ^^^ (a >>> 7)
  let s1 := (rotr64 b 19 ^^^ rotr64 b 61) ^^^ (b >>> 6)
  (w.getD 0 0 + s0 + w.getD 9 0 + s1) % shaMod

/-- The rounds over the constants left, with the sliding window of schedule words. -/
def shaRounds : List Nat → List Nat → List Nat → List Nat
  | [], _, h => h
  | k :: ks, w, h =>
    match h with
    | [a, b, c, d, e, f, g, hh] =>
      let wt := w.headD 0
      let s1 := (rotr64 e 14 ^^^ rotr64 e 18) ^^^ rotr64 e 41
      let ch := (e &&& f) ^^^ ((shaMod - 1 - e) &&& g)
      let t1 := (hh + s1 + ch + k + wt) % shaMod
      let s0 := (rotr64 a 28 ^^^ rotr64 a 34) ^^^ rotr64 a 39
      let maj := ((a &&& b) ^^^ (a &&& c)) ^^^ (b &&& c)
      let t2 := (s0 + maj) % shaMod
      shaRounds ks (w.drop 1 ++ [shaNext w]) [(t1 + t2) % shaMod, a, b, c, (d + t1) % shaMod, e, f, g]
    | _ => h

/-- Big-endian value of a list of bytes. -/
def beNat (bs : List Byte) : Nat := bs.foldl (fun a b => a * 256 + b.toNat) 0

/-- Big-endian bytes of a number. -/
def beBytes (n v : Nat) : List Byte := (leBytes n v).reverse

/-- One 128 B block. -/
def shaBlock (h : List Nat) (block : List Byte) : List Nat :=
  let w := (chunks 8 16 block).map beNat
  List.zipWith (fun a b => (a + b) % shaMod) h (shaRounds shaK w h)

/-- SHA-512 of a message, 64 bytes. -/
def sha512 (m : List Byte) : List Byte :=
  let len := m.length
  let zeros := (239 - (len + 0) % 128) % 128
  let padded := m ++ [0x80#8] ++ copies zeros 0#8 ++ beBytes 16 (len * 8)
  ((chunks 128 (padded.length / 128 + 1) padded).foldl shaBlock shaInit).flatMap (beBytes 8)

/-- One bit of CRC-32, reflected. -/
def crcBit (c : Nat) : Nat := if c % 2 = 1 then (c >>> 1) ^^^ 0xEDB88320 else c >>> 1

/-- CRC-32 of IEEE 802.3 over bytes. -/
def crc32 (bs : List Byte) : Nat :=
  (bs.foldl (fun c b =>
    crcBit (crcBit (crcBit (crcBit (crcBit (crcBit (crcBit (crcBit (c ^^^ b.toNat))))))))) 0xFFFFFFFF)
    ^^^ 0xFFFFFFFF

end Sys2Proof.Machine
end

