-- ==== Sys2Proof/Machine/State.lean ====
section
/-! DEFINITION. The state of the QS-2840 as plain data, its reset, and the reasons a step can stop.
Every field's docstring names the rule that gives it. Sparse tables (`Tbl`) hold only entries that
differ from the table's reset value; `Machine/Table.lean` reads and writes them. -/
namespace Sys2Proof.Machine

/-- What the device sends to the outside, in the model's own list `State.out` (assumption 4). -/
inductive Out where
  | hostWrite (addr : Nat) (bytes : List Byte) (relaxed : Bool)   -- posted write to host memory (R354, R506)
  | msix (vector : Nat)                                   -- MSI-X message (R515)
  | readData (route : Route) (value : Nat)                -- data of a register read (R7, R8)
  | bar2Data (bytes : List Byte)                          -- BAR2 read completion (R510)
  | bar2Unsupported | bar2Abort                           -- completions of a BAR request (R509, R510, R516)
  | odReply (route : OdRoute) (session status : Nat) (value : List Byte)   -- R534, R535
  | blp (dest : Nat) (bytes : List Byte)                  -- datagram to collector `dest` (R357)
  | blpReply (session : Nat) (bytes : List Byte)          -- R540
  | canReply (bytes : List Byte)                          -- R541
  -- an RTSP request (R30): 0 OPTIONS 1 DESCRIBE 2 SETUP 3 PLAY 4 GET_PARAMETER 5 TEARDOWN, its version, whether it
  -- asks for multicast, and its Digest answer (empty: none)
  | rtsp (slot method version : Nat) (multicast : Bool) (session digest : List Byte)
  | membership (port : Nat) (group : List Byte) (join : Bool)     -- IGMPv3 or MLDv2 report (R28)
  | rtcpReport (slot : Nat)                               -- R28
  | stirrup (frame : List Byte)                           -- R490
  | pushRead (addr len : Nat)                             -- read request of the push path (R43)
  | pme | wakePin | pmeAck                                -- R518
  deriving DecidableEq, Repr

/-! ### Ingest (02_stream_ingest.md) -/

structure PortState where
  ticks : Nat := 0            -- R27, counted without wrapping (R39)
  stamp : Nat := 0            -- the latest arrival stamp: 48 bits (R24, R27)
  unsupported : Nat := 0      -- R28, R45
  checksum : Nat := 0
  fragments : Nat := 0
  noSlot : Nat := 0
  deriving DecidableEq, Repr

structure HeldPacket where
  seq : Int                   -- extended sequence number (R32)
  marker : Bool
  bytes : List Byte
  deriving DecidableEq, Repr

structure HeldUnit where
  ts : Int                    -- extended timestamp (R33)
  deadline : Nat              -- ticks of the source's counter (R33)
  gap : Bool := false         -- it holds a resynchronisation candidate (R32)
  policed : Bool := false     -- R44 cause policer
  ccLost : Nat := 0           -- packets that a transport stream's continuity counters show missing (R29)
  packets : List HeldPacket := []
  deriving DecidableEq, Repr

structure EdgeStamp where
  line : Nat
  level : Bool
  stamp : Nat
  deriving DecidableEq, Repr

/-- RTSP client session of a slot (R30, R31). -/
structure Rtsp where
  phase : Nat := 0            -- 0 none, 1 OPTIONS 2 DESCRIBE 3 SETUP 4 PLAY sent, 5 playing, 6 down
  timeoutS : Option Nat := none
  backoffS : Nat := 1         -- R31: 1 s, doubled up to 60 s
  delivered : Bool := false
  session : List Byte := []   -- the server's session ID, from its SETUP response
  transport : Option RtspTransport := none
  auth : Option RtspChallenge := none -- the challenge that requests answer
  deriving DecidableEq, Repr

structure SenderReport where
  ntp : Nat
  raw : Nat                   -- its RTP timestamp
  rtpTs : Option Int          -- extended like the slot's timestamps (R32), once these have begun
  bytes : List Byte
  deriving DecidableEq, Repr

structure SlotIngest where
  started : Bool := false     -- a first packet was accepted (R32)
  extSeq : Int := 0
  extTs : Int := 0
  lastTs : Nat := 0
  highSeq : Int := 0          -- highest extended sequence number accepted
  ssrc : Option Nat := none   -- R36
  candidate : Option Packet := none   -- R32 resynchronisation candidate
  candTick : Nat := 0         -- its arrival stamp
  units : List HeldUnit := [] -- ascending timestamps
  skips : List (Int × Int) := []      -- sequence numbers skipped by restarts: from, up to (R32)
  unplaced : List (Nat × Nat) := []   -- SSRC and timestamp of policed datagrams that joined no held unit (R44)
  payloadType : Option Nat := none    -- R28: that of the slot's first packet
  paramSets : List Byte := []         -- from the session description, before the first unit (R29)
  releasedTs : Option Int := none     -- R34
  gapNext : Bool := false
  expectSeq : Option Int := none      -- sequence number after the last released packet (R35)
  bucket : Nat := 0           -- R38 tokens, in bytes x counter frequency
  bucketTick : Nat := 0
  winIdx : Nat := 0           -- R39: current window, bytes offered and dropped in it
  winOffered : Nat := 0
  winDropped : Nat := 0
  overruns : Nat := 0
  pushPts : Option Nat := none        -- R43
  edges : List EdgeStamp := []        -- R53 edges waiting for a unit
  rtsp : Rtsp := {}
  report : Option SenderReport := none  -- R46
  deriving DecidableEq, Repr

/-- Host push path (R41 to R43). -/
structure Push where
  base : Nat := 0
  enable : Bool := false
  sizeLog2 : Nat := 4
  tail : Nat := 0
  head : Nat := 0
  current : Option (List Byte) := none   -- descriptor whose unit is being read
  fetching : Bool := false               -- a descriptor read is outstanding
  deriving DecidableEq, Repr

/-! ### Event inputs and outputs (R50 to R56) -/

structure EvtLine where
  pin : Bool := false
  polarity : Bool := false
  wake : Bool := false
  filter : Nat := 20000       -- F, 0x4E20
  maxMs : Nat := 0
  input : Bool := false       -- synchronised level after polarity
  sync : List (Nat × Bool) := []      -- input changes in the synchroniser: cycle at its end, level (R50)
  counting : Option (Bool × Nat × Nat) := none  -- level counted, F in force, tick at start
  filtered : Bool := false
  held : Bool := false        -- last accepted level (R52)
  stuck : Bool := false
  inactiveSince : Nat := 0
  stamp : Nat := 0            -- EVT_LINE_STAMP
  activeFrom : Nat := 0       -- tick of the accepted active edge
  drops : Nat := 0            -- EVT_LINE_DROPS
  tokens : Nat := 80000       -- edge budget: 4 edges x 20,000 cycles (R52)
  tokenTick : Nat := 0
  faultWindow : Option Nat := none
  deriving DecidableEq, Repr

structure EvtOutLine where
  idle : Bool := false
  active : Bool := false
  pulseMs : Option Nat := none
  driven : Bool := false      -- high-impedance after reset (R55)
  deriving DecidableEq, Repr

structure Evt where
  ticks : Nat := 0            -- PERI_CLK counter (R50), unwrapped (R52)
  lines : Tbl EvtLine := []
  outs : Tbl EvtOutLine := []
  events : Nat := 0           -- EVT_IN_EVENTS
  deriving DecidableEq, Repr

/-! ### Stream slot configuration in force (entries of 0x2100 + n and the expert groups) -/

structure StreamCfg where
  enable : Bool := false
  source : Nat := 0
  url : List Byte := []
  rtspVersion : Nat := 1
  payload : Nat := 1
  udpPort : Nat := 0
  jitterMs : Nat := 100
  rate : Nat := 1000000
  burst : Nat := 262144
  group : List Byte := []
  maxW : Nat := 1920
  maxH : Nat := 1088
  depth : Nat := 8
  dpb : Nat := 6
  frNum : Nat := 30
  frDen : Nat := 1
  priority : Nat := 0
  engine : Nat := 255
  timeoutS : Nat := 5
  overrunLimit : Nat := 10
  sweepN : Nat := 4
  checkpointEvery : Nat := 300
  evidEnable : Bool := false
  maxTracks : Nat := 256
  linkGroup : Nat := 0
  tIntra : Nat := 4           -- R88
  tMv : Nat := 8
  tRes : Nat := 64
  deriving DecidableEq, Repr

structure SteerCfg where      -- R133
  sweepPhase : Nat := 0
  marginQ : Nat := 4
  marginMin : Nat := 16
  dilate : Nat := 1
  minBlocks : Nat := 2
  regionMax : Nat := 48
  promote : Nat := 60
  deriving DecidableEq, Repr

structure TrackCfg where      -- R307, R310 to R312
  detMax : Nat := 256
  wIou : Nat := 8
  iouGate : Nat := 1229
  cosGate : Nat := 2048
  bMin : Nat := 4096
  classMatch : Bool := true
  birthScore : Word := 0x3F000000#32
  confirmHits : Nat := 3
  maxMiss : Nat := 30
  qp : Word := 0x368637BD#32       -- 4.0e-6
  qv : Word := 0x2B8CBCCC#32       -- 1.0e-12
  r : Word := 0x3B23D70A#32        -- 2.5e-3
  p0pos : Word := 0x3B83126F#32    -- 4.0e-3
  p0vel : Word := 0x3089705F#32    -- 1.0e-9
  bidLimit : Nat := 1048576
  cropMax : Nat := 32
  reidMask : Nat := 0
  cropMin : Nat := 32
  gallerySize : Nat := 262144
  topK : Nat := 8
  linkGate : Nat := 3072
  deriving DecidableEq, Repr

structure EvidCfg where       -- R93
  preroll : Nat := 60
  guardPics : Nat := 15
  postroll : Nat := 150
  bitRate : Nat := 4000000
  cpbSize : Nat := 4000000
  cbr : Bool := true
  minQp : Nat := 22
  maxQp : Nat := 46
  refreshP : Nat := 30
  crop : Option Rect := none
  jpegQ : Nat := 85
  snapMax : Nat := 1048576
  deriving DecidableEq, Repr

structure FusionCfg where     -- R46
  member : Bool := false
  set : Nat := 0
  reference : Bool := false
  tol : Nat := 1500
  fixed : Bool := true
  offset : Int := 0
  deriving DecidableEq, Repr

structure AuditCfg where      -- R450
  enable : Bool := false
  withBytes : Bool := false
  pages : Nat := 16
  deriving DecidableEq, Repr

structure SlotCfg where
  stream : StreamCfg := {}
  steer : SteerCfg := {}
  track : TrackCfg := {}
  evid : EvidCfg := {}
  fusion : FusionCfg := {}
  audit : AuditCfg := {}
  routes : List (Nat × Nat) := []   -- record type -> ring + 256 x collector (0x8200 + n)
  bound : List Nat := []            -- contexts bound to the slot, ascending (0x3100 + c.0F)
  deriving DecidableEq, Repr

/-! ### Decode (03_video_decode.md) -/

/-- A unit as ingest releases it: an access unit, or a substitution token with its cause (R37, R44). -/
structure AccessUnit where
  ts : Nat
  cfg : SlotCfg := {}         -- configuration in force at its group (R442, R528)
  bytes : List Byte := []
  incomplete : Bool := false
  gap : Bool := false
  token : Option Nat := none
  group : Nat := 0            -- its chain group (R445)
  edges : List (Nat × Bool) := []   -- EVT_IN edges paired with it (R53)
  shed : Nat := 0             -- shed_mode at its frame boundary (R469)
  refreshWait : Bool := false -- decoding waits for a refresh point from here (R469)
  deriving DecidableEq, Repr

/-- One released unit of a member, kept for aligned fusion (R47). -/
structure FusionSample where
  member : Nat
  unit : AccessUnit
  deriving DecidableEq, Repr

/-- A set opened by a reference unit: each member's offset into the reference's time where it has one, and
the sender reports it rests on (R46, R47). -/
structure FusionOpen where
  time : Int
  ref : AccessUnit
  offsets : List (Nat × Int) := []
  waited : List Nat := []     -- members whose waiting time has passed (R48)
  reports : List (Nat × List Byte) := []
  deriving DecidableEq, Repr

structure FusionSet where
  opens : List FusionOpen := []         -- in order of T
  samples : List FusionSample := []
  lastGood : Tbl (Option Nat) := []     -- member slot -> last good sample's ts (R48)
  deriving DecidableEq, Repr

structure QUnit where
  unit : AccessUnit
  stamp : Nat                 -- VIDEO_CLK of the engine (R71)
  deadline : Option Nat
  waited : Bool := false      -- counted in quota_wait (R67, R91)
  deriving DecidableEq, Repr

/-- What keeps a slot waiting for a refresh point (R77), and whether a replay forces it (R447). -/
inductive WaitKind where | configured | shed | checkedSubst | forcedSubst | takeover
  deriving DecidableEq, Repr

structure Work where
  slot : Nat
  q : QUnit
  hdr : PicHeader
  handle : Nat                -- the buffer it decodes into
  epoch : Nat                 -- slot configuration under which it started (R73)
  cycles : Nat := 0
  again : Bool := false       -- it has yielded once (R75)
  deriving DecidableEq, Repr

inductive DecState where | idle | decoding | saving | restoring
  deriving DecidableEq, Repr

structure DecEngine where
  st : DecState := .idle
  ticks : Nat := 0            -- VIDEO_CLK
  work : Option Work := none
  yielded : Option Work := none
  slotShown : Nat := 0
  busy : Nat := 0
  switches : Nat := 0
  deriving DecidableEq, Repr

/-- A picture decoded and not yet output, or output and in the slot's pipeline. -/
structure Pic where
  dec : Nat                   -- decode number in the slot
  cfg : SlotCfg := {}         -- configuration in force at its unit's group
  seq : Nat := 0              -- output picture number (R85)
  pts : Nat
  handle : Option Nat         -- its frame buffer, or the last good one's when substituted (R82)
  subst : Option Nat := none
  degraded : Bool := false
  concealed : Bool := false
  refresh : Bool := false
  noInter : Bool := false
  width : Nat := 0
  height : Nat := 0
  group : Nat := 0
  edges : List (Nat × Bool) := []   -- EVT_IN edges paired with its unit
  skived : Bool := false      -- its Skiver job has been submitted
  forced : Bool := false      -- replay forces its substitution (R447)
  field : List Byte := []     -- the motion field of a substituted picture, which has no buffer of its own (R84, R89)
  shed : Nat := 0             -- shed_mode at its unit's frame boundary (R469)
  deriving DecidableEq, Repr

structure SlotDecode where
  engine : Nat := 0
  queue : List QUnit := []
  used : Nat := 0             -- bytes in the decode queue (R74)
  waiting : Option WaitKind := some .configured   -- R77
  recoverIn : Option Nat := none    -- pictures left of a recovery count (R77)
  checked : Option Nat := none      -- cause of R62 or R78 on account of which it waits (R79)
  substRun : Nat := 0         -- R79
  good : Bool := false        -- R82
  decNo : Nat := 0
  outSeq : Nat := 0
  degraded : Bool := false    -- R81
  lastGood : Option Nat := none     -- R67
  prev : Option Nat := none   -- previous picture in decode order (R80, R81)
  dpb : List (Nat × Nat) := []      -- decode number, handle
  hold : List Pic := []       -- decoded, not yet output
  afterSubst : Bool := true   -- the next good picture is a forced sweep (R134)
  deriving DecidableEq, Repr

/-! ### Evidence (04_evidence_encode.md) -/

/-- The picture coded last: the bytes before and after its evidence tag, which a truncation still changes (R101, R106). -/
structure CodedTail where
  head : List Byte
  body : List Byte
  pts : Nat
  seq : Nat
  flags : Nat
  deriving DecidableEq, Repr

structure Clip where
  id : Nat
  slot : Nat
  first : Nat
  last : Nat
  next : Nat                  -- next picture to encode
  crop : Rect
  cfg : EvidCfg := {}         -- parameters in force when it was bound (R93)
  num : Nat := 30             -- frame rate of its slot
  den : Nat := 1
  depth : Nat := 8
  engine : Nat := 0
  reqNo : Nat := 0
  short : Bool := false       -- short_preroll (R99)
  marks : Nat := 0            -- union of the tags' bits
  pts : Nat := 0              -- presentation time of its first picture
  held : List Pic := []       -- pictures held and not yet encoded
  base : Nat := 0             -- first picture beyond those held at binding (R98)
  droppedPics : List Pic := [] -- pictures dropped under R98 and not yet encoded
  fullness : Nat := 0         -- F of R107
  res : Nat := 0              -- reservation of its output (R110)
  output : List Byte := []    -- every coded picture but the last, with its tag
  tail : Option CodedTail := none
  recon : List Byte := []     -- the last coded picture as decoded: what the next one references (R103)
  enc : Nat := 0              -- pictures encoded
  host : Option OdRoute := none
  deriving DecidableEq, Repr

structure Snapshot where
  id : Nat
  slot : Nat
  pic : Pic
  crop : Rect
  q : Nat
  maxBytes : Nat := 1048576
  tries : Nat := 0
  reqNo : Nat := 0
  res : Nat := 0
  deriving DecidableEq, Repr

inductive EncWork where | clip (id : Nat) | snap (id : Nat)
  deriving DecidableEq, Repr

structure EncEngine where
  st : Nat := 0               -- 0 idle, 1 encoding, 2 saving, 3 restoring
  pass : Nat := 0
  slotShown : Nat := 0
  work : Option EncWork := none
  lastClip : Option Nat := none
  ticks : Nat := 0
  busy : Nat := 0
  switches : Nat := 0
  deriving DecidableEq, Repr

structure EvidOut where       -- output held until release (R344)
  id : Nat
  slot : Nat
  pages : List Nat
  listPage : Nat
  res : Nat
  deriving DecidableEq, Repr

structure Evid where
  clips : List Clip := []
  queue : List (Nat × Nat × EvidReq) := []  -- evid_id, request number; at most 16 (R94)
  snaps : List Snapshot := []
  outs : List EvidOut := []
  engines : Tbl EncEngine := []
  nextId : Nat := 1           -- evid_id (R106); 0 is "no evidence" in R341
  nextReq : Nat := 0
  deriving DecidableEq, Repr

/-! ### Skiver (05_skiver_and_steering.md) -/

structure Region where
  x : Nat
  y : Nat
  w : Nat
  h : Nat
  out : Nat := 0
  origin : Nat := 0
  index : Nat := 0
  trackId : Nat := 0xFFFFFFFF
  rsvOk : Bool := true        -- reserved fields zero
  deriving DecidableEq, Repr

structure Job where
  addr : Nat := 0
  fb : Nat
  slot : Nat
  nOut : Nat
  flags : Nat
  pts : Nat
  seq : Nat
  ctx : Nat
  gateCore : Nat
  gateCtr : Nat
  doneCtr : Nat
  gateN : Nat
  doneCore : Nat
  doneN : Nat
  outAddr : Nat
  coefAddr : Nat
  nReg : Nat
  regions : List Region
  rsvOk : Bool := true
  refHeld : Bool := false     -- R116: the frame-buffer reference is held
  internal : Bool := false    -- built by steering, tracking or the Narrator
  deriving DecidableEq, Repr

structure SkvUnit where
  st : Nat := 0
  slotShown : Nat := 0
  region : Nat := 0
  busy : Nat := 0
  jobs : Nat := 0
  job : Option Job := none
  deriving DecidableEq, Repr

structure Skv where
  queue : List Job := []
  overflow : Bool := false
  units : Tbl SkvUnit := []
  deriving DecidableEq, Repr

/-! ### Cores, clusters, contexts (06 to 11, 18) -/

inductive CoreSt where | unassigned | running | waiting | parked | zeroing | saving | restoring | ended
  deriving DecidableEq, Repr

/-- An increment on its way to a counter (R266, R270). -/
structure Incr where
  ctx : Nat
  core : Nat                  -- partition-relative
  ctr : Nat
  n : Nat
  fromCtx : Bool := true      -- sent from inside the partition (R276, R277)
  src : Nat                   -- the stop it comes from (R172, assumption 126)
  deriving DecidableEq, Repr

/-- A queued signal (R268): `behind` counts, by engine, the queue entries issued before it that still stand. -/
structure Signal where
  incr : Incr
  behind : Tbl Nat
  deriving DecidableEq, Repr

/-- What an entry of the array's queue is (R190). -/
inductive ArrayOp where | lds | strm | other
  deriving DecidableEq, Repr

/-- The held operand (R187): 32 or 16 rows of 16 codes, and the exponent row. -/
structure HeldOp where
  fmtS : Nat
  fmtT : Nat
  mode : Nat
  k : Nat
  rows : List (List Nat)
  exps : List Nat
  deriving DecidableEq, Repr

/-- A table slot (R212) with its cursor (R226). -/
structure TabSlot where
  table : List Byte := []     -- 896 B; empty when unloaded
  cur : Tbl (Option (List Nat)) := []   -- level 2..4 tile index vectors i[L+1], none = before-first
  seqs : Tbl Nat := []        -- next sequence position at each level
  count2 : Nat := 0           -- L2 tiles taken since the DLD (R220)
  count3 : Nat := 0
  deriving DecidableEq, Repr

structure Stream where        -- R229
  slot : Nat
  tensor : Nat
  write : Bool
  pos : Nat := 0
  deriving DecidableEq, Repr

structure WaitSt where        -- R274
  ctr : Nat
  n : Nat
  dp : Bool
  held : Bool := false        -- stopped before the evaluation by a pre-emption request (R432)
  cycles : Nat := 0
  deriving DecidableEq, Repr

structure Core where
  st : CoreSt := .unassigned
  ctx : Nat := 0
  pc : Nat := 0
  s : Tbl Word := []          -- s1..s31
  v : Tbl (BitVec 512) := []
  m : Tbl (BitVec 64) := []   -- m1..m7
  ibuf : Tbl IWord := []
  valid : Nat := 0            -- 32 block valid bits (R153)
  fills : List Nat := []      -- target blocks of pending fills
  src : Tbl Nat := []         -- source address of each valid block (R433)
  own : Tbl Nat := []         -- bank owner (R159)
  pwr : Nat := 0              -- powered banks (R161)
  queues : Tbl Nat := []      -- entries in each engine queue (R143)
  stalled : Option Instr := none   -- the instruction waiting at the head of the stream
  cycle : Nat := 0            -- CYCLE (R148)
  cycleHi : Option Nat := none
  conflicts : Nat := 0
  retired : Nat := 0
  held : Option HeldOp := none         -- the operand of the latest LDS
  heldPrev : Option HeldOp := none     -- the other held buffer (R190)
  arrayQ : List ArrayOp := []          -- the array's queue, oldest first
  os : Tbl Word := []
  osFloat : Bool := false     -- OS cell type
  rangeFlag : Bool := false   -- R183
  lut : Option (List Byte) := none
  tabs : Tbl TabSlot := []
  streams : Tbl (Option Stream) := []
  sync : Tbl Nat := []
  sigq : List Signal := []    -- R268
  wait : Option WaitSt := none
  park : Nat := 0             -- SYN_PARK_CYCLES
  taken5 : Tbl Nat := []      -- TNX level-5 sequence number per slot (R227)
  deriving DecidableEq, Repr

structure Desc where          -- a queued DMA descriptor (R168)
  bytes : List Byte
  core : Nat
  ctx : Nat
  addr : Nat
  deriving DecidableEq, Repr

structure Channel where
  queue : List Desc := []
  busy : Option Desc := none
  bytes : Nat := 0
  deriving DecidableEq, Repr

structure AwlJob where
  desc : List Byte
  deriving DecidableEq, Repr

structure Cluster where
  assigned : Bool := false
  ctx : Nat := 0
  pwr : Nat := 0
  conflicts : Nat := 0
  chans : Tbl Channel := []
  fills : List (Nat × Nat × Nat) := []   -- local core, block, source address (R153)
  wc : Tbl (Nat × Nat) := []  -- cluster work counters (v, L) (R278)
  results5 : Tbl Nat := []    -- level-5 results by 4 x sequence number + slot (R227)
  awlIndex : Nat := 0         -- next job number (R256)
  awlJob : Option AwlJob := none
  awlStopped : Bool := false  -- R258
  deriving DecidableEq, Repr

structure WorkCtr where
  v : Nat := 0
  limit : Nat := 0
  owner : Option Nat := none
  deriving DecidableEq, Repr

inductive CtxSt where
  | free | loading | resident | switchingOut | descheduled | switchingIn | tearingDown | ended
  deriving DecidableEq, Repr

structure Ctx where
  st : CtxSt := .free
  cls : Nat := 0
  debug : Bool := false
  owner : OdRoute := .mailbox
  k : Nat := 0
  map : List Nat := []        -- partition cluster -> logical cluster (R166)
  ctrs : List Nat := []       -- physical device work counters (R280)
  channels : Nat := 0
  ways : Nat := 0
  req : Option CreateReq := none     -- recorded parameters (R437, R475)
  decl : Option ImageDecl := none
  imageDigest : List Byte := []
  weightDigest : List Byte := []
  weightBytes : Nat := 0      -- length of the weights section
  spin : Nat := 4096          -- SYN_CTX_SPIN
  deschedUs : Nat := 2000     -- SYN_CTX_DESCHED
  ready : Bool := false
  readySince : Nat := 0       -- order in which it became ready
  started : Bool := false
  preempt : Bool := false     -- pre-emption request pending (R432)
  destroyWish : Bool := false -- destroy command during a switch (R437)
  deschedulable : Bool := false      -- stage 3 of R274
  standing : Bool := false    -- R484
  pages : List Nat := []      -- pages_p and pages_r
  imagePages : List Nat := [] -- the image copy, in image order (Class P)
  res : Nat := 0              -- its Class R reservation in the Tack pool
  saved : List (Nat × Core) := []    -- save area: core state blocks (R433)
  savedMem : List (Nat × Byte) := [] -- save area: scratchpads and buffers, partition offsets
  savedWc : List (Nat × Tbl (Nat × Nat)) := []
  savedSeq : List (Nat × Tbl Nat × Nat) := []    -- level-5 results and Awl job number of each partition cluster
  lastFault : Nat := 0
  capture : Bool := false     -- R438
  savePages : List Nat := []  -- pages of the save area (R433)
  resP : Nat := 0             -- its Class P reservation
  restarts : List Nat := []   -- Rein ticks of its restarts in the last hour (R426)
  deriving DecidableEq, Repr

structure CtxRun where        -- running figures of a context, apart from its parameters
  duty : Nat := 16            -- R459
  allotMw : Nat := 0
  lentMw : Nat := 0
  power : List Nat := []      -- last 10 ticks (R461)
  acct : Tbl Nat := []        -- R440
  bound : Nat := 0            -- bound slots, bit n (0x3100 + c.0F)
  rerun : List (Nat × Nat) := []     -- slot and seq of units re-issued at a recompute point (R394)
  deriving DecidableEq, Repr

/-! ### Tracking and Stitcher (12) -/

structure Track where
  id : Nat := 0
  state : Nat := 0
  flags : Nat := 0
  hits : Nat := 0
  misses : Nat := 0
  cls : Nat := 0
  score : Word := 0#32
  ptsLast : Nat := 0
  ptsBirth : Nat := 0
  pos : List Word := []
  vel : List Word := []
  cov : List Word := []       -- P00, P01, P11 of each coordinate
  globalId : Nat := 0
  galleryIdx : Nat := 0xFFFFFFFF
  emb : List Byte := []
  emitted : Bool := false     -- a record of it has been emitted (R315, R340)
  deriving DecidableEq, Repr

inductive TrkStage where | idle | predicted | detected | submitted | assigned
  deriving DecidableEq, Repr

structure SlotTrack where
  nextSerial : Nat := 1
  tracks : Tbl Track := []    -- working entries, by entry number
  saved : Tbl Track := []     -- checkpoint copy (R289)
  sent : Tbl Track := []      -- entries as last mirrored (R485)
  recorded : List (Nat × Nat) := []   -- global_ids that the leader has recorded, by track (R313)
  stage : TrkStage := .idle
  dets : List Detection := []
  embs : List (Nat × List Byte) := []
  crops : List Nat := []      -- detection indices with a crop
  deleted : List Track := []  -- deleted while predicting, not yet reported
  cols : List Nat := []       -- entry numbers, matrix column order
  result : List (Option Nat) := []   -- per detection: column
  limited : Bool := false
  deriving DecidableEq, Repr

structure Call where          -- a Stitcher call (R301)
  addr : Nat
  matAddr : Nat := 0
  resAddr : Nat := 0
  stride : Nat := 0
  n : Nat := 0
  m : Nat := 0
  bidLimit : Nat := 1
  ctx : Nat := 0
  slot : Nat := 0
  gateCore : Nat := 0
  gateCtr : Nat := 0
  doneCtr : Nat := 0
  gateN : Nat := 0
  doneCore : Nat := 0
  doneN : Nat := 0
  rsvOk : Bool := true
  matrix : List (List Nat) := []     -- of a call built by the tracking service
  internal : Bool := false
  deriving DecidableEq, Repr

structure StcUnit where
  st : Nat := 0
  slotShown : Nat := 0
  busy : Nat := 0
  bids : Nat := 0
  badEnt : Nat := 0
  call : Option Call := none
  col : List (Option Nat) := []
  owner : List (Option Nat) := []
  callBids : Nat := 0
  total : Nat := 0
  limited : Bool := false
  deriving DecidableEq, Repr

structure Stc where
  queue : List Call := []
  overflow : Bool := false
  units : Tbl StcUnit := []
  deriving DecidableEq, Repr

structure GalleryEntry where  -- R311
  trackId : Nat
  globalId : Nat
  slot : Nat
  cls : Nat
  pts : Nat
  emb : List Byte
  deriving DecidableEq, Repr

/-- A search in progress: its track's embedding and class, and the gallery at its version G (R312). -/
structure GSearch where
  slot : Nat
  track : Nat
  version : Nat
  cls : Nat
  emb : List Byte
  entries : Tbl (Option GalleryEntry)
  deriving DecidableEq, Repr

structure Gallery where
  entries : Tbl (Option GalleryEntry) := []
  version : Nat := 0
  searches : List GSearch := []
  deriving DecidableEq, Repr

/-! ### Narrator (13) -/

inductive SessSt where | embed | ready | prefill | sampled | decode
  deriving DecidableEq, Repr

structure Session where
  num : Nat
  req : NarrReq
  st : SessSt
  opened : Nat                -- order of opening
  pts : Nat
  marks : Nat := 0
  pos : Nat := 0              -- prefill rows done
  inStep : Nat := 0           -- rows of this session in the running step
  prompt : List Nat           -- prompt tokens (R322)
  tokens : List Nat := []     -- generated so far
  cancel : Bool := false
  embedding : Bool := false
  fault : Bool := false       -- every logit of a token was NaN (R331)
  buf : Nat := 0              -- its crop buffer (R324)
  pages : List Nat := []      -- its KV pages (R328)
  deriving DecidableEq, Repr

/-- A queued request with its trigger picture's pts and marks and its crop buffer. -/
structure NarrWait where
  req : NarrReq
  pts : Nat
  marks : Nat
  buf : Nat
  deriving DecidableEq, Repr

structure Narr where
  ctx : Option Nat := none
  sessions : List Session := []
  queue : List NarrWait := []
  running : Bool := false
  shed : Bool := false
  steps : Nat := 0
  tokens : Nat := 0
  stepMax : Nat := 0
  firstMax : Nat := 0
  refused : Nat := 0
  opened : Nat := 0
  kvRes : Nat := 0
  deriving DecidableEq, Repr

/-! ### Rules and delivery (14) -/

structure RuleCfg where       -- R347 to R349
  enable : Bool := false
  slot : Nat := 0
  kind : Nat := 0
  zone : List (Int × Int) := []
  line : List (Int × Int) := []
  direction : Nat := 0
  countHi : Nat := 0
  countLo : Nat := 0
  dwellTicks : Nat := 0
  limit : Word := 0#32
  scale : Word := 0x3F800000#32
  evtLine : Nat := 0
  cooldown : Nat := 0
  actions : Nat := 0
  evtOutLine : Nat := 0
  evtOutCmd : Nat := 0
  evtOutMs : Nat := 0
  template : List Byte := []
  seed : Nat := 0
  deriving DecidableEq, Repr

structure Rule where
  cfg : RuleCfg := {}
  inside : List (Nat × Nat) := []    -- track ID -> entry pts
  dwelt : List Nat := []             -- tracks whose dwell has fired in this stay
  sides : List (Nat × Bool) := []    -- track ID -> side A?
  seen : List Nat := []              -- tracks evaluated at the previous picture
  armed : Bool := true
  fired : List (Nat × Nat) := []     -- track ID -> pts of the last firing (cooldown)
  deriving DecidableEq, Repr

structure Ring where          -- R352 to R356
  base : Nat := 0
  enable : Bool := false
  sizeLog2 : Nat := 12
  vector : Nat := 0
  modTime : Nat := 0
  modCount : Nat := 0
  wb : Nat := 0
  tail : Nat := 0
  head : Nat := 0
  drops : Nat := 0
  tailFault : Bool := false
  lost : Nat := 0             -- records since the last loss record; > 0 means one is pending
  lostCause : Nat := 0
  unsig : Nat := 0            -- records written since the last message
  deriving DecidableEq, Repr

structure Collector where     -- R357 to R360
  enable : Bool := false
  addr : List Byte := []
  port : Nat := 0
  source : Nat := 0
  ackS : Nat := 5
  retxBytes : Nat := 4194304
  evidPush : Bool := false
  up : Bool := false
  nextNo : Nat := 0           -- datagram sequence number
  filling : List (List Byte) := []     -- records of the datagram being filled
  kept : List (Nat × List Byte) := []  -- retained datagrams, oldest first
  sent : List (Nat × Nat) := []        -- datagrams not yet acknowledged, with the records in each (R358)
  acked : Option Nat := none
  lossDue : Bool := false     -- the next datagram carries a loss record (R358, R359)
  lost : Nat := 0
  lostCause : Nat := 1
  dropped : Nat := 0
  deriving DecidableEq, Repr

/-! ### Chain and audit (19) -/

structure Entry where         -- a chain entry (R444); key2, key3 order it under R445
  typ : Nat
  sub : Nat
  payload : List Byte
  key2 : Nat := 0
  key3 : Nat := 0
  forced : Bool := false
  raw : List Byte := []       -- the bytes a type-3 entry hashes (R450)
  deriving DecidableEq, Repr

structure Group where
  num : Nat
  entries : List Entry := []
  outs : List (Nat × Nat) := []   -- seq and pts of the pictures its unit made ready
  ended : Bool := false       -- the decode of its unit has ended
  waiting : Bool := false     -- waits for the leader's forced entries (R453)
  deriving DecidableEq, Repr

structure CutRec where        -- a checkpoint cut, waiting for its signature (R448, R449)
  slot : Nat
  number : Nat
  chain : List Byte
  first : Nat
  last : Nat
  flags : Nat
  ctx : Nat
  imageDigest : List Byte
  weightDigest : List Byte
  pts : Nat
  epoch : Nat                 -- the slot configuration to which it belongs
  deriving DecidableEq, Repr

structure SlotChain where
  h : List Byte := []         -- 64 B (R443); empty while unconfigured
  seq : Nat := 0              -- next record seq (R337)
  nextGroup : Nat := 0        -- number of the next unit released
  closed : Nat := 0           -- groups closed
  groups : List Group := []   -- open groups, oldest first
  late : List Entry := []     -- completed since the last close (R445 item 5)
  cfgChange : Bool := false   -- a type-1 entry is due in the next group
  cpNumber : Nat := 0
  cpFirst : Nat := 0
  lastPts : Nat := 0          -- presentation time of the last output picture of a closed group
  genesis : List Byte := []   -- payload of the genesis entry (R444)
  finalDue : Bool := false    -- the slot has stopped: its last group takes the final checkpoint (R448)
  epoch : Nat := 0
  oldSeq : Nat := 0           -- seq that follows the last record of the previous configuration
  audHead : Nat := 0          -- audit ring head (its tail is entry 0x2900 + n.05), lost flag (R450)
  audLost : Bool := false
  audPages : List Nat := []
  values : List (Nat × List Byte × List (Nat × List Byte)) := []  -- own groups awaiting comparison: chain value, and
                              -- type and prefix of each entry (R454, R455)
  partner : List (Nat × List Byte × List (List Byte)) := []       -- the partner's
  awaitFinal : Bool := false  -- taken over at a refresh point, the owner's final state still to come (R501)
  diverged : Bool := false
  leader : List (Nat × List (List Byte)) := []   -- forced entries of the leader (R453)
  heldRecs : List (Nat × Nat × List Byte) := []  -- R486: records waiting for the mirror's ack: type,
                              -- groups closed (types 1 to 3) or seq, bytes
  deriving DecidableEq, Repr

/-! ### Slots -/

inductive SlotRun where | unconfigured | running | stopped | shadow | suspended
  deriving DecidableEq, Repr

structure Slot where
  run : SlotRun := .unconfigured
  cfg : SlotCfg := {}
  pendingCfg : Bool := false  -- class F changes await the frame boundary (R528)
  redo : Bool := false        -- a reconfiguration awaits the end of the picture in decode (R73)
  shedMode : Nat := 0
  shedNext : Nat := 0         -- shed_mode due at the next frame boundary (R469)
  stopFault : Nat := 0
  ing : SlotIngest := {}
  dec : SlotDecode := {}
  pics : List Pic := []       -- output, association not complete (R290)
  ring : List Pic := []       -- pre-roll ring (R97)
  trk : SlotTrack := {}
  chain : SlotChain := {}
  counters : Tbl Nat := []    -- 0x2200 + n, by subindex
  protect : Bool := false     -- R488
  jitRes : Option Nat := none     -- reservations: jitter storage (R40), decode queue (R65), audit ring (R450)
  queueRes : Option Nat := none
  audRes : Option Nat := none
  deriving DecidableEq, Repr

/-! ### Memory system and integrity (15, 16) -/

structure MergeEntry where    -- R387
  line : Nat
  bytes : List (Nat × Byte)   -- offset in the line -> byte
  deriving DecidableEq, Repr

structure CacheLine where     -- R373, R375
  way : Nat
  dirty : Bool
  use : Nat
  bad : Bool := false         -- its check fails (R384, R391)
  deriving DecidableEq, Repr

structure RemapEntry where    -- R402
  bank : Nat
  row : Nat
  spare : Nat
  copying : Bool
  deriving DecidableEq, Repr

inductive ChanSt where | outOfUse | active | training | selfRefresh
  deriving DecidableEq, Repr

structure DramChan where
  st : ChanSt := .outOfUse
  conservative : Bool := false
  hot : Bool := false
  readBytes : Nat := 0
  writeBytes : Nat := 0
  refForced : Nat := 0
  retrained : Nat := 0
  failed : Nat := 0
  failRun : Nat := 0
  trainTemp : Option Nat := none
  postponed : Tbl Nat := []   -- per bank (R379)
  merges : List MergeEntry := []
  failTable : List (Nat × Nat × Nat) := []   -- bank, row, count (R401), oldest counted first
  fullRows : List (Nat × Nat) := []          -- rows that raised FLT_MEM_REMAP_FULL
  remap : Tbl (Option RemapEntry) := []
  spares : Tbl Nat := []      -- spare rows assigned per bank (bit mask)
  zeroing : List Nat := []    -- pages in zeroing, in order (R419)
  waitRemap : List (Nat × Nat) := []         -- quarantines due after a retraining (R403)
  deriving DecidableEq, Repr

structure MemPort where
  target : Option Nat := none -- none: the default of R369
  ways : Nat := 0xFFFF
  reqs : Nat := 0
  late : Nat := 0
  maxLat : Nat := 0
  lastAge : Nat := 0          -- age and urgency of the request last examined (R370)
  urgency : Nat := 0
  deriving DecidableEq, Repr

structure SliceCnt where
  hits : Nat := 0
  misses : Nat := 0
  wb : Nat := 0
  deriving DecidableEq, Repr

structure Burnisher where     -- R397, R398, R407
  dramEn : Bool := true
  onchipEn : Bool := true
  hours : Nat := 24
  onchipInterval : Nat := 1144
  pos : Nat := 0
  passes : Nat := 0
  onchipPos : Nat := 0
  onchipPasses : Nat := 0
  lines : Nat := 0
  deriving DecidableEq, Repr

structure Mem where
  bytes : Tbl Byte := []      -- the whole device address space (R364)
  failing : Tbl Bool := []    -- lines, by their first address, whose stored check fails (R384)
  cache : Tbl (Option CacheLine) := []   -- by the line's first address
  useClock : Nat := 0
  chans : Tbl DramChan := []
  ports : Tbl MemPort := []
  slices : Tbl SliceCnt := []
  flushing : Bool := false
  pasr : Nat := 0xFFFF
  videoSet : Nat := 2 ^ 64 - 1
  svcSet : Nat := 2 ^ 64 - 1
  cnt : Tbl Nat := []         -- R406 counters: scope x 2^20 + unit x 16 + index
  burn : Burnisher := {}
  retired : List Nat := []    -- R400
  lostDie : Option Nat := none
  lostLines : List Nat := []  -- Class P lines lost on both copies, whose owner is yet to be acted on (R392)
  deriving DecidableEq, Repr

/-! ### Tack pool (17) -/

inductive PageSt where | free | zeroing | held | retired
  deriving DecidableEq, Repr

structure Page where
  st : PageSt := .free
  cls : Nat := 0              -- 0 R, 1 P, 2 X
  holder : Nat := 0
  retain : Bool := false
  gen : Nat := 0
  deriving DecidableEq, Repr

structure Reserv where
  active : Bool := false
  pool : Nat := 2             -- 0 system, 1 video, 2 general
  count : Nat := 0
  used : Nat := 0
  cls : Nat := 0
  pairs : Nat := 0            -- Class P allocations made (R409)
  channels : Nat := 2 ^ 64 - 1
  deriving DecidableEq, Repr

structure Fb where
  inUse : Bool := false       -- the index is assigned
  live : Bool := false
  gen : Nat := 0
  refs : Nat := 0
  ev : Nat := 0
  slot : Nat := 0
  evCharge : Bool := false    -- charged to the evidence reservation
  picW : Nat := 0             -- dimensions of the picture it holds (R84)
  picH : Nat := 0
  codec : Nat := 0            -- its codec (R85)
  extent : Nat := 0
  pos : Nat := 0              -- buffer number in its extent
  deriving DecidableEq, Repr

structure Extent where        -- R415
  slot : Nat := 0
  evidence : Bool := false
  old : Bool := false         -- of a previous configuration
  bufSize : Nat := 0
  frame : Nat := 0
  w : Nat := 0                -- max_width, max_height and bit depth of its configuration (R69)
  h : Nat := 0
  depth : Nat := 8
  pages : List Nat := []
  res : Nat := 0
  first : List Nat := []      -- frame-buffer indices, in buffer order
  deriving DecidableEq, Repr

structure Tkp where
  pages : Tbl Page := []
  res : Tbl Reserv := []
  fbs : Tbl Fb := []
  extents : Tbl (Option Extent) := []
  nextExtent : Nat := 0
  result : Nat := 0xFFFFFFFF
  done : Bool := false
  status : Nat := 0
  faults : Nat := 0
  waiting : Option (Nat × Nat × Bool × Nat) := none   -- res, class, retain, page awaited (R414)
  blocked : List Nat := []    -- later command words waiting behind it
  lists : Tbl (List Nat) := []      -- Class X page lists by handle (0xA030)
  lastHandle : Nat := 0
  listOwner : Tbl Nat := []
  deriving DecidableEq, Repr

/-! ### Energy and power (20) -/

structure ShedStep where
  d : Nat
  t : Nat
  w : Nat
  h : Nat
  droopSince : Option Nat := none   -- µs of the PWR count at which droop reached D_n
  holdUs : Nat := 0                 -- hold time counted
  holdFrom : Option Nat := none     -- running since
  deriving DecidableEq, Repr

structure Rne where           -- budget, reserve and planning temperature stand in entries 0x4000.01 to .03
  measured : Nat := 0
  lent : Nat := 0
  cal : Nat := 65536          -- 2.16 fixed point (R457, R479)
  divStep : Nat := 0
  divNext : Option Nat := none
  thermal : Bool := false
  thermalStep : Nat := 0
  budgetStep : Nat := 0
  energy : Nat := 0
  overTicks : Nat := 0             -- consecutive ticks above budget - reserve / 2
  phase : Nat := 0            -- class lowered next (R461)
  cuts : List Nat := []       -- lowerings in force, latest first: 0 replay, 1 near-live, 2 live, 3 divider step
  under : Nat := 0            -- ticks below budget - reserve
  shedOver : Nat := 0         -- R472
  shedUnder : Nat := 0
  ticks : Nat := 0
  lastThrottle : Option Nat := none
  thermTick : Nat := 0
  deriving DecidableEq, Repr

inductive PwrMode where | run | idle | parked | standby | entering | leaving
  deriving DecidableEq, Repr

structure Pwr where
  mode : PwrMode := .run
  step : Nat := 0
  warn : Bool := false
  byBudget : Nat := 0         -- bit n: step n is in force and was entered by budget (R472)
  droop : Nat := 0
  us : Nat := 0               -- µs counted by the PWR block
  warnSince : Option Nat := none
  events : Nat := 0
  steps : List ShedStep := []
  keepExtra : Nat := 0
  restore : List (CreateReq × ImageDecl × OdRoute × List Byte) := []  -- contexts to create again, with their
                              -- retained images (R475, R502)
  restoreSlots : List (Nat × Nat × Tbl Track) := []        -- slots, next serial and checkpoint (R475, R502)
  fenced : List Nat := []     -- contexts that parking stopped (R471, R473)
  parkWait : Bool := false    -- R471: waiting for the partner's ack
  pendingStandby : Bool := false   -- R523
  deriving DecidableEq, Repr

structure Clk where
  running : Bool := false     -- internal domains run
  pllLock : Bool := false
  stopped : Bool := false     -- the domains stopped for a clock loss; only a reset lets them run again (R22)
  refLost : Bool := false
  pcieRef : Bool := false
  ethRef : Bool := false
  stpRef : Bool := false
  mgmtLock : Bool := false
  arithDiv : Nat := 4
  monCount : Nat := 0
  deriving DecidableEq, Repr

/-! ### Redundant pair (21) -/

structure Shadow where        -- mirrored state of one slot (R485)
  h : List Byte := []
  seq : Nat := 0
  cpNumber : Nat := 0
  cpFirst : Nat := 0
  nextSerial : Nat := 1
  tracks : Tbl Track := []
  rules : List (Nat × Rule) := []
  rtspPhase : Nat := 0
  rtspSession : List Byte := []
  rtspTransport : Option RtspTransport := none
  ssrc : Nat := 0
  extSeq : Int := 0
  extTs : Int := 0
  group : Nat := 0            -- groups closed
  valid : Bool := false       -- a chain state has come
  deriving DecidableEq, Repr

/-- A response, as its route carries it (R514, R535, R540, R541). -/
inductive HeldReply where
  | op (who : OdFrom) (status : Nat) (value : List Byte)
  | mailbox (bytes : List Byte)
  | udp (session tag : Nat) (bytes : List Byte)
  | can (bytes : List Byte)
  deriving DecidableEq, Repr

structure Pair where
  mode : Nat := 0
  id : Nat := 0
  hbMs : Nat := 5
  owners : Nat := 0           -- bit n: owner of slot n in mode 2
  link : Nat := 0             -- 0 down, 1 training, 2 up, 3 held down
  owner : Bool := false       -- owner of every slot after a takeover
  partnerFailed : Bool := false
  failLow : Bool := false
  hbOk : Bool := false
  txSeq : Nat := 0
  rxSeq : Nat := 0
  unacked : List (Nat × Nat × List Byte) := []   -- kind, seq, payload
  resends : Nat := 0
  retx : Nat := 0
  bad : Nat := 0
  takeovers : Nat := 0
  linkDowns : Nat := 0
  lastPromote : Nat := 0
  partnerHb : Nat := 0
  failOut : Bool := true      -- FAIL_N is low
  hbOut : Bool := false       -- PAIR_HB
  hbSent : Nat := 0
  shadows : Tbl Shadow := []
  moved : List Nat := []      -- slots whose ownership a handover changed, to the partner
  taken : List Nat := []      -- slots taken over by handover
  taking : List Nat := []     -- slots to take at their next refresh point (R501)
  giving : List (Nat × Nat) := []   -- slots to give, and the pts of the receiver's refresh point
  txWait : List (Nat × List Byte) := []   -- frames waiting for room among the unacknowledged ones (R491)
  marked : List Nat := []     -- entries marked for resynchronisation (R487)
  commitWait : List (HeldReply × Nat) := []   -- responses waiting for the partner, by mirror seq (R537)
  synced : Bool := false
  sideFault : Bool := false
  deriving DecidableEq, Repr

structure PairShadow where    -- mirrored sessions and ledger
  sessions : List NarrWait := []
  ledger : List Nat := []
  area : Nat := 0             -- pair area: base
  areaLen : Nat := 0
  lagMax : Nat := 16
  leaderId : Nat := 0
  counters : List (Nat × Nat × Nat) := []   -- ctx, core, counter named by the pair configuration
  standing : List (CreateReq × ImageDecl) := []
  deriving DecidableEq, Repr

/-! ### PCIe endpoint (22) -/

structure PciRead where
  tag : Nat
  push : Bool
  addr : Nat
  desc : Bool
  deriving DecidableEq, Repr

structure Pci where
  ready : Bool := false
  saddleReady : Bool := false
  events : Nat := 0
  mbxState : Nat := 0
  mbxOverrun : Bool := false
  reqLen : Nat := 0           -- length of the request in the mailbox
  rspLen : Nat := 0
  reqArea : Tbl Byte := []
  rspArea : Tbl Byte := []
  obwBase : Tbl Nat := []
  obwEn : Tbl Bool := []
  aperture : Nat := 0
  cplTimeouts : Nat := 0
  cplErrors : Nat := 0
  denied : Nat := 0
  deniedPages : List Nat := []
  msixTable : Tbl Byte := []
  msixEn : Bool := false
  funcMask : Bool := false
  unmasked : List Nat := []
  pba : List Nat := []
  dState : Nat := 0           -- 0 D0, 3 D3hot
  linkL2 : Bool := false
  pmeEn : Bool := false
  pmeStatus : Bool := false
  wakeAsserted : Bool := false
  barLog2 : Nat := 34         -- BAR2 size
  cplDisable : Bool := false
  relaxedEn : Bool := true   -- Enable Relaxed Ordering of Device Control (R506)
  outstanding : List PciRead := []
  abandoned : List Nat := []
  aerCor : Nat := 0           -- correctable and uncorrectable error status (R522)
  aerUnc : Nat := 0
  deriving DecidableEq, Repr

/-! ### Object dictionary (23) -/

structure Staged where
  key : Nat                   -- index x 256 + subindex
  value : List Byte
  stamp : Nat
  deriving DecidableEq, Repr

structure Txn where
  session : Nat
  staged : List Staged := []
  deriving DecidableEq, Repr

structure OdSession where
  report : Bool := false      -- ROLLED_BACK pending (R538)
  unlocked : Bool := false
  challenge : Nat := 0        -- R532
  seen : Option Nat := none   -- the challenge that the session has read
  lastTag : Option Nat := none
  lastReply : List Byte := []
  deriving DecidableEq, Repr

structure OdRouteSt where
  txn : Option Txn := none
  reqs : Nat := 0
  bad : Nat := 0
  conflicts : Nat := 0
  sessions : Tbl (Option OdSession) := []
  deriving DecidableEq, Repr

structure Od where
  values : Tbl (Option (List Byte)) := []   -- committed values that differ from the default
  stamps : Tbl Nat := []
  routes : Tbl OdRouteSt := []
  free : Nat := 0             -- counter of drawn values (assumption 5)
  creates : List (Nat × OdRoute × List Byte) := []   -- pending creates: context, owner, digest of its image (R566)
  canMsg : Option (Nat × List Byte) := none  -- next segment number, bytes so far (R541)
  lastRecord : List Byte := []      -- 0xF000.01
  faultSeq : Nat := 0         -- R345, 0xF000.02
  deriving DecidableEq, Repr

/-! ### Boot and security (24) -/

structure Fuses where
  part : Nat := 0             -- 0 QS-2840, 1 QS-2840L
  stepping : Nat := 0
  serial : List Byte := []
  helper : Nat := 0
  vendorHash : List (List Byte) := []
  vendorRevoked : Nat := 0
  ownerHash : Tbl (Option (List Byte)) := []
  ownerRevoked : Nat := 0
  ownerLock : Bool := false
  imagesRequired : Bool := false
  vendorDebugOff : Bool := false
  svn : Tbl Nat := []         -- by kind 1..3
  deriving DecidableEq, Repr

structure JournalRec where    -- R563
  boot : Nat
  stage : Nat
  outcome : Nat
  count : Nat
  cause : Nat
  fault : Nat := 0
  detail : Nat := 0
  bitmap : Nat := 0
  ms : Nat := 0             -- the Keeper's own count of ms
  deriving DecidableEq, Repr

structure Flash where
  slots : Tbl (Option Container) := []   -- kind x 2 + slot (A 0, B 1)
  cert : List Byte := []
  softMap : List (Nat × Nat × Nat × Nat × Nat) := []  -- channel, bank, row, source, failures
  pendingSpares : List (Nat × Nat × Nat × Nat × Nat) := []
  journal : List JournalRec := []        -- newest first
  stored : Option (List (Nat × List Byte)) := none
  storedDigest : List Byte := []
  storedImages : List (Nat × List Byte) := []   -- context and digest of each image that the copy names
  images : List (List Byte × List Byte) := []   -- image store: digest and bytes
  deriving DecidableEq, Repr

structure Boot where
  stage : Nat := 0
  booting : Bool := false
  bootNum : Nat := 0
  cause : Nat := 0
  counts : Tbl Nat := []
  latched : Tbl Bool := []
  alt : Tbl Bool := []        -- stage ran its alternate in this boot
  altFails : Tbl Nat := []    -- consecutive failures of the alternate (R559)
  from2 : Tbl Nat := []       -- slot (0 A, 1 B) from which each kind was taken in this boot
  quarantined : Nat := 0      -- physical clusters
  working : Nat := 136
  clusters : Nat := 128       -- logical clusters
  decoders : Nat := 12
  identity : Bool := false
  halted : Bool := false
  thermalHold : Bool := false
  railsOk : Bool := true
  testEn : Bool := false
  softRestarted : Bool := false
  dieOut : Option Nat := none -- die recorded lost in the journal (R560)
  conservative : Bool := false
  skipped8 : Bool := false    -- stage 8 was skipped in this boot
  retry : Bool := false       -- a retry from the primary paths (R559)
  deriving DecidableEq, Repr

structure Kpr where
  signed : Nat := 0
  queue : List CutRec := []   -- checkpoints in cut order (R449)
  appends : List (Nat × Nat × Nat × Nat × Nat) := []   -- pending spare entries to append (R403)
  reports : Tbl Nat := []     -- reports of each route in the current second (R568)
  report : List Byte := []
  scopes : Nat := 0
  grantedEver : Nat := 0
  challenge : List Byte := []
  chalScope : Nat := 0
  chalRoute : Option Nat := none
  rejects : Nat := 0
  lockout : Bool := false
  accepted : Bool := false
  rejected : Bool := false
  respWords : Tbl Nat := []
  jpos : Nat := 0
  updTarget : Nat := 0
  updHandle : Nat := 0
  updState : Nat := 0
  updData : Option Container := none
  deriving DecidableEq, Repr

/-! ### The state -/

structure State where
  pending : List Instr := []            -- commands waiting, first in first out
  out : List Out := []                  -- newest first
  latches : Tbl (Option Nat) := []      -- R8, by route x 2^32 + offset
  heldLow : Tbl (Option Nat) := []
  sels : Tbl Nat := []                  -- the selection registers of every block, by BAR0 offset
  ports : Tbl PortState := []           -- 0, 1: 25G; 2: management; 3: push path
  push : Push := {}
  fusions : Tbl FusionSet := []
  evt : Evt := {}
  slots : Tbl Slot := []
  engines : Tbl DecEngine := []
  evid : Evid := {}
  skv : Skv := {}
  cores : Tbl Core := []                -- by logical core
  clusters : Tbl Cluster := []
  flight : List Incr := []              -- increments sent, not applied
  work : Tbl WorkCtr := []              -- device work counters
  hostDropped : Bool := false           -- SYN_HOST_STATUS
  ctxs : Tbl Ctx := []
  ctxRuns : Tbl CtxRun := []
  readyClock : Nat := 0
  stc : Stc := {}
  gallery : Gallery := {}
  narr : Narr := {}
  rules : Tbl Rule := []
  rings : Tbl Ring := []
  colls : Tbl Collector := []
  mem : Mem := {}
  tkp : Tkp := {}
  rne : Rne := {}
  pwr : Pwr := {}
  clk : Clk := {}
  pair : Pair := {}
  pairSh : PairShadow := {}
  pci : Pci := {}
  od : Od := {}
  fuses : Fuses := {}
  flash : Flash := {}
  boot : Boot := {}
  kpr : Kpr := {}
  deriving DecidableEq, Repr

/-- The shedding thresholds of R467 at reset: D_n in 0.1 %, t_n µs, w_n µs, h_n ms. -/
def shedDefaults : List ShedStep :=
  [⟨30, 10, 0, 1000, none, 0, none⟩, ⟨40, 50, 1000, 2000, none, 0, none⟩,
   ⟨50, 100, 5000, 5000, none, 0, none⟩, ⟨60, 200, 10000, 5000, none, 0, none⟩,
   ⟨70, 500, 20000, 10000, none, 0, none⟩, ⟨80, 1000, 50000, 30000, none, 0, none⟩]

/-- The machine right after power-on reset: registers at the Reset column (R6), nothing configured,
the root PLL not locked, no boot stage entered (R581), no command waiting. -/
def State.reset : State :=
  { pwr := { steps := shedDefaults } }

/-- The canonical form of a sparse table: keys strictly rising, no entry at the default. -/
def Tbl.wf {α : Type} [DecidableEq α] (d : α) : Tbl α → Bool
  | [] => true
  | [(_, v)] => decide (v ≠ d)
  | (k, v) :: (k', v') :: t => decide (v ≠ d) && decide (k < k') && Tbl.wf d ((k', v') :: t)

/-- Memory is in canonical form. An unlisted byte reads as zero (assumption 6). -/
abbrev Memory.wf (m : Tbl Byte) : Bool := Tbl.wf (0#8) m

/-- Reasons to stop with a fault. Every fault and event of the device (26_fault_catalogue.md) is a
record that the device delivers and an effect on its state, so no command of this model stops the
machine. -/
inductive Fault where
  /-- Raised by no meaning: kept so that the type has a name to show. Safe. -/
  | neverRaised
  deriving DecidableEq, Repr

/-- Reasons to refuse a command. -/
inductive Refusal where
  /-- Raised by an arm of `exec` whose command has no meaning yet (none is left). Safe. -/
  | notModelled (mnemonic : String)
  deriving DecidableEq, Repr

end Sys2Proof.Machine
end

