-- ==== Sys2Proof/Machine/Ops.lean ====
section
/-! DEFINITION. The named operations over the state: one reading and one changing operation for each
numbered unit, the model's list of emissions, free values, and the bytes of the device address space. -/
namespace Sys2Proof.Machine
open Sys2Proof

/-! ### How a meaning ends -/

/-- A command's effect `t` on the state `s`: the queue is not the command's to change. -/
def answer (s t : State) : Host.Outcome State Fault Refusal := .next { t with pending := s.pending }

/-- The internal clock domains run (R22, R465, R581). -/
def State.up (s : State) : Bool := s.clk.running && !s.boot.thermalHold

/-- The Cantle firmware serves requests: the device reached its ready stage (R556). -/
def State.ready (s : State) : Bool := s.up && s.pci.ready

/-- An effect of a unit in the internal clock domains: none while they stand still (R22). -/
def whenUp (s t : State) : Host.Outcome State Fault Refusal := if s.up then answer s t else .next s

/-- An effect of the Cantle firmware. -/
def whenReady (s t : State) : Host.Outcome State Fault Refusal := if s.ready then answer s t else .next s

/-! ### Emissions and free values -/

def State.emit (s : State) (o : Out) : State := { s with out := o :: s.out }

def State.emits (s : State) (os : List Out) : State := os.foldl State.emit s

/-- The next free value, below `2^w`; the counter advances (assumption 5). -/
def State.draw (s : State) (w : Nat) : Nat × State :=
  (Config.freeValue s.od.free % 2 ^ w, { s with od := { s.od with free := s.od.free + 1 } })

/-! ### Numbered units -/

def State.port (s : State) (n : Nat) : PortState := tget {} s.ports n
def State.modPort (s : State) (n : Nat) (f : PortState → PortState) : State :=
  { s with ports := tmod {} s.ports n f }

def State.slot (s : State) (n : Nat) : Slot := tget {} s.slots n
def State.modSlot (s : State) (n : Nat) (f : Slot → Slot) : State :=
  { s with slots := tmod {} s.slots n f }

def State.modIng (s : State) (n : Nat) (f : SlotIngest → SlotIngest) : State :=
  s.modSlot n (fun x => { x with ing := f x.ing })
def State.modDec (s : State) (n : Nat) (f : SlotDecode → SlotDecode) : State :=
  s.modSlot n (fun x => { x with dec := f x.dec })
def State.modTrk (s : State) (n : Nat) (f : SlotTrack → SlotTrack) : State :=
  s.modSlot n (fun x => { x with trk := f x.trk })
def State.modChain (s : State) (n : Nat) (f : SlotChain → SlotChain) : State :=
  s.modSlot n (fun x => { x with chain := f x.chain })

/-- Adds to the slot counter at subindex `sub` of 0x2200 + n; 64 bits, wrapping (R45). -/
def State.count (s : State) (n sub k : Nat) : State :=
  s.modSlot n (fun x => { x with counters := tmod 0 x.counters sub (fun c => (c + k) % 2 ^ 64) })

def State.engine (s : State) (n : Nat) : DecEngine := tget {} s.engines n
def State.modEngine (s : State) (n : Nat) (f : DecEngine → DecEngine) : State :=
  { s with engines := tmod {} s.engines n f }

def State.encEngine (s : State) (n : Nat) : EncEngine := tget {} s.evid.engines n
def State.modEnc (s : State) (n : Nat) (f : EncEngine → EncEngine) : State :=
  { s with evid := { s.evid with engines := tmod {} s.evid.engines n f } }

def State.skvUnit (s : State) (n : Nat) : SkvUnit := tget {} s.skv.units n
def State.modSkv (s : State) (n : Nat) (f : SkvUnit → SkvUnit) : State :=
  { s with skv := { s.skv with units := tmod {} s.skv.units n f } }

def State.core (s : State) (n : Nat) : Core := tget {} s.cores n
def State.modCore (s : State) (n : Nat) (f : Core → Core) : State :=
  { s with cores := tmod {} s.cores n f }

def State.cluster (s : State) (n : Nat) : Cluster := tget {} s.clusters n
def State.modCluster (s : State) (n : Nat) (f : Cluster → Cluster) : State :=
  { s with clusters := tmod {} s.clusters n f }

def State.ctx (s : State) (n : Nat) : Ctx := tget {} s.ctxs n
def State.modCtx (s : State) (n : Nat) (f : Ctx → Ctx) : State :=
  { s with ctxs := tmod {} s.ctxs n f }

def State.ctxRun (s : State) (n : Nat) : CtxRun := tget {} s.ctxRuns n
def State.modRun (s : State) (n : Nat) (f : CtxRun → CtxRun) : State :=
  { s with ctxRuns := tmod {} s.ctxRuns n f }

/-- Adds to accounting counter `i` of a context; 64 bits (R440). -/
def State.account (s : State) (c i k : Nat) : State :=
  s.modRun c (fun r => { r with acct := tmod 0 r.acct i (fun v => (v + k) % 2 ^ 64) })

/-- Adds to an accounting counter of every context bound to a slot (R440). -/
def State.accountBound (s : State) (n i k : Nat) : State := (s.slot n).cfg.bound.foldl (fun s c => s.account c i k) s

def State.workCtr (s : State) (n : Nat) : WorkCtr := tget {} s.work n
def State.modWork (s : State) (n : Nat) (f : WorkCtr → WorkCtr) : State :=
  { s with work := tmod {} s.work n f }

def State.stcUnit (s : State) (n : Nat) : StcUnit := tget {} s.stc.units n
def State.modStc (s : State) (n : Nat) (f : StcUnit → StcUnit) : State :=
  { s with stc := { s.stc with units := tmod {} s.stc.units n f } }

def State.rule (s : State) (n : Nat) : Rule := tget {} s.rules n
def State.modRule (s : State) (n : Nat) (f : Rule → Rule) : State :=
  { s with rules := tmod {} s.rules n f }

def State.ring (s : State) (n : Nat) : Ring := tget {} s.rings n
def State.modRing (s : State) (n : Nat) (f : Ring → Ring) : State :=
  { s with rings := tmod {} s.rings n f }

def State.coll (s : State) (n : Nat) : Collector := tget {} s.colls n
def State.modColl (s : State) (n : Nat) (f : Collector → Collector) : State :=
  { s with colls := tmod {} s.colls n f }

def State.line (s : State) (n : Nat) : EvtLine := tget {} s.evt.lines n
def State.modLine (s : State) (n : Nat) (f : EvtLine → EvtLine) : State :=
  { s with evt := { s.evt with lines := tmod {} s.evt.lines n f } }

def State.outLine (s : State) (n : Nat) : EvtOutLine := tget {} s.evt.outs n
def State.modOutLine (s : State) (n : Nat) (f : EvtOutLine → EvtOutLine) : State :=
  { s with evt := { s.evt with outs := tmod {} s.evt.outs n f } }

def State.chan (s : State) (n : Nat) : DramChan := tget {} s.mem.chans n
def State.modChan (s : State) (n : Nat) (f : DramChan → DramChan) : State :=
  { s with mem := { s.mem with chans := tmod {} s.mem.chans n f } }

def State.page (s : State) (n : Nat) : Page := tget {} s.tkp.pages n
def State.modPage (s : State) (n : Nat) (f : Page → Page) : State :=
  { s with tkp := { s.tkp with pages := tmod {} s.tkp.pages n f } }

def State.reserv (s : State) (n : Nat) : Reserv := tget {} s.tkp.res n
def State.modReserv (s : State) (n : Nat) (f : Reserv → Reserv) : State :=
  { s with tkp := { s.tkp with res := tmod {} s.tkp.res n f } }

def State.fb (s : State) (n : Nat) : Fb := tget {} s.tkp.fbs n
def State.modFb (s : State) (n : Nat) (f : Fb → Fb) : State :=
  { s with tkp := { s.tkp with fbs := tmod {} s.tkp.fbs n f } }

def State.odRoute (s : State) (n : Nat) : OdRouteSt := tget {} s.od.routes n
def State.modOdRoute (s : State) (n : Nat) (f : OdRouteSt → OdRouteSt) : State :=
  { s with od := { s.od with routes := tmod {} s.od.routes n f } }

/-- A selection register of a block, by its BAR0 offset. -/
def State.sel (s : State) (off : Nat) : Nat := tget 0 s.sels off

/-- Decode engines of the device: those of its capacity step, and with one die those whose rate half the grade's total
leaves (R15, R57, R503, assumption 119). -/
def State.decoderCount (s : State) : Nat :=
  if s.mem.lostDie.isSome then min s.boot.decoders (if s.fuses.part = 1 then 5 else 6) else s.boot.decoders

/-! ### Held register writes (R8) -/

/-- Number of an access route. -/
def Route.num : Route → Nat
  | .bar0 => 0
  | .cantle => 1
  | .jtag => 2

/-- Number of a dictionary route (R592). -/
def OdRoute.num : OdRoute → Nat
  | .mailbox => 0
  | .udp => 1
  | .can => 2
  | .cantle => 3

/-- A transport as mirrored (assumption 20): 0 none. -/
def RtspTransport.num : RtspTransport → Nat
  | .unicast => 1
  | .multicast => 2
  | .interleaved => 3

def RtspTransport.ofNum (k : Nat) : Option RtspTransport :=
  [RtspTransport.unicast, .multicast, .interleaved].find? (fun t => RtspTransport.num t == k)

def latchKey (r : Route) (off : Nat) : Nat := Route.num r * 2 ^ 32 + off

/-- Holds the low word of a 64-bit register for a route; a further one replaces it. -/
def State.holdLow (s : State) (r : Route) (off v : Nat) : State :=
  { s with heldLow := tset none s.heldLow (latchKey r off) (some v) }

/-- The high word is written: the whole value where a low word is held, and the held write is emptied. -/
def State.takeHeld (s : State) (r : Route) (off high : Nat) : Option Nat × State :=
  match tget none s.heldLow (latchKey r off) with
  | some low => (some (low + high % 2 ^ 32 * 2 ^ 32), { s with heldLow := tset none s.heldLow (latchKey r off) none })
  | none => (none, s)

/-! ### Committed dictionary values -/

def odKeyNat (index sub : Nat) : Nat := index * 256 + sub

/-- The committed value of an entry where it differs from the entry's default. -/
def State.odRaw (s : State) (index sub : Nat) : Option (List Byte) :=
  tget none s.od.values (odKeyNat index sub)

/-- The committed value of a numeric entry with default `d`. -/
def State.odNat (s : State) (index sub d : Nat) : Nat :=
  match s.odRaw index sub with
  | some v => leNat v
  | none => d

/-! ### Bytes of the device address space (R364): storage only, in canonical form -/

/-- The byte at an address; an unlisted byte reads as zero (assumption 6). -/
def State.rdByte (s : State) (a : Nat) : Byte := tget 0#8 s.mem.bytes a

def State.wrByte (s : State) (a : Nat) (b : Byte) : State :=
  { s with mem := { s.mem with bytes := tset 0#8 s.mem.bytes a b } }

/-- `n` bytes from `a` upward. -/
def rdList (m : Tbl Byte) (a : Nat) : Nat → List Byte
  | 0 => []
  | n + 1 => tget 0#8 m a :: rdList m (a + 1) n

/-- Bytes written from `a` upward. -/
def wrList (m : Tbl Byte) (a : Nat) : List Byte → Tbl Byte
  | [] => m
  | b :: t => wrList (tset 0#8 m a b) (a + 1) t

def State.rdBytes (s : State) (a n : Nat) : List Byte := rdList s.mem.bytes a n

def State.wrBytes (s : State) (a : Nat) (bs : List Byte) : State :=
  { s with mem := { s.mem with bytes := wrList s.mem.bytes a bs } }

def State.rdNat (s : State) (a n : Nat) : Nat := leNat (s.rdBytes a n)

/-- Removes every listed byte in `[a, a + n)`: the range reads as zero. -/
def zeroRange (m : Tbl Byte) (a n : Nat) : Tbl Byte :=
  m.filter (fun c => decide (c.1 < a ∨ a + n ≤ c.1))

def State.zero (s : State) (a n : Nat) : State :=
  { s with mem := { s.mem with bytes := zeroRange s.mem.bytes a n } }

/-! ### Addresses (R165, R364, R365) -/

/-- First byte of a core's scratchpad window. -/
def coreBase (core : Nat) : Nat := 0x010000000000 + core * 0x40000

/-- First byte of a cluster's buffer window. -/
def clusterBase (cl : Nat) : Nat := 0x011000000000 + cl * 0x200000

end Sys2Proof.Machine
end

