-- ==== Sys2Proof/Machine/Deliver.lean ====
section
/-! DEFINITION. Delivery: MSI-X (R515), delivery rings (R351 to R356), collectors (R346, R357 to R360),
and the fault and event record every FLT_ and EVT_ condition makes (R345, R591). -/
namespace Sys2Proof.Machine
open Sys2Proof

/-! ### MSI-X -/

/-- The endpoint may send a posted write: not in D3hot and not in L2 (R516, R518). -/
def State.hostUp (s : State) : Bool := s.pci.dState == 0 && !s.pci.linkL2

/-- What JTAG reaches while it is locked: the challenge and response registers. -/
def keeperDr (off : Nat) : Bool := decide (off = 0xB0030 ∨ (0xB0040 ≤ off ∧ off ≤ 0xB00F0))

/-- A route reaches the register space at an address. -/
def State.reaches (s : State) (r : Route) (addr : Nat) : Bool :=
  match r with
  | .bar0 => s.hostUp
  | .cantle => true
  | .jtag => bit s.kpr.scopes 0 || keeperDr addr

/-- An event of a vector: one message, or its pending bit while it cannot be sent (R515). -/
def State.msix (s : State) (v : Nat) : State :=
  if s.hostUp && s.pci.msixEn && !s.pci.funcMask && s.pci.unmasked.contains v then s.emit (.msix v)
  else if s.pci.pba.contains v then s
  else { s with pci := { s.pci with pba := insertBy id v s.pci.pba } }

/-- Sets bit `i` of PCI_DEV_EVENTS; a bit that becomes set is an event of vector 1 (R512, R515). -/
def State.devEvent (s : State) (i : Nat) : State :=
  if bit s.pci.events i then s
  else ({ s with pci := { s.pci with events := s.pci.events + 2 ^ i } }).msix 1

/-! ### Rings -/

/-- Units of 32 B in a ring. -/
def Ring.units (r : Ring) : Nat := 2 ^ r.sizeLog2 / 32

/-- Units between head and tail, modulo 2^32 (R352). -/
def Ring.used (r : Ring) : Nat := (r.head + 2 ^ 32 - r.tail) % 2 ^ 32

/-- Pad units before a record of `len` units when head is `h` (R352). -/
def Ring.pad (r : Ring) (h len : Nat) : Nat :=
  let room := r.units - h % r.units
  if room < len then room else 0

/-- Host address of unit count `h`. -/
def Ring.addr (r : Ring) (h : Nat) : Nat := r.base + (h % r.units) * 32

/-- A loss record (R346). -/
def lossRecord (unit count cause : Nat) : List Byte :=
  padTo 32 ([8#8] ++ leBytes 1 unit ++ leBytes 2 1 ++ leBytes 4 count ++ leBytes 1 cause)

/-- A pad record of `n` units (R336). -/
def padRecord (n : Nat) : List Byte := padTo (32 * n) ([0#8, 0#8] ++ leBytes 2 n)

/-- A ring drops a record: counted, and a loss record becomes pending (R353). -/
def Ring.drop (r : Ring) : Ring :=
  { r with drops := (r.drops + 1) % 2 ^ 64, lost := satAdd 32 r.lost 1 }

/-- The host writes of a record that fits, and the ring after it; `none` where it does not fit (R352). The writes of
records carry Relaxed Ordering where it is enabled; the head writeback does not (R506). -/
def Ring.write (relaxed : Bool) (n : Nat) (r : Ring) (bytes : List Byte) : Option (List Out × Ring) :=
  let len := bytes.length / 32
  let lossLen := if r.lost = 0 then 0 else 1
  let h0 := (r.head + lossLen) % 2 ^ 32
  let pad := r.pad h0 len
  let fits := if r.lost = 0 then r.used + pad + len + 1 ≤ r.units
              else r.used + 1 + pad + len ≤ r.units
  if r.enable ∧ fits then
    let h1 := (h0 + pad) % 2 ^ 32
    let h2 := (h1 + len) % 2 ^ 32
    let loss := if r.lost = 0 then [] else [Out.hostWrite (r.addr r.head) (lossRecord n r.lost r.lostCause) relaxed]
    let padW := if pad = 0 then [] else [Out.hostWrite (r.addr h0) (padRecord pad) relaxed]
    some (loss ++ padW ++ [Out.hostWrite (r.addr h1) bytes relaxed, Out.hostWrite r.wb (leBytes 4 h2 ++ leBytes 4 0) false],
      { r with head := h2, lost := 0, unsig := r.unsig + 1 + lossLen })
  else none

/-- The message of a ring after a record: at `count` records, or at every record for 0 (R354). -/
def State.ringSignal (s : State) (n : Nat) : State :=
  let r := s.ring n
  if r.modCount = 0 ∨ r.modCount ≤ r.unsig then (s.modRing n (fun r => { r with unsig := 0 })).msix r.vector
  else s

/-- A record reaches ring `n`: whether the ring took it, and the state (R352 to R354). A ring takes
nothing while the endpoint may send no write (assumption 9). -/
def State.ringPut (s : State) (n : Nat) (bytes : List Byte) : Bool × State :=
  match (if s.hostUp then Ring.write s.pci.relaxedEn n (s.ring n) bytes else none) with
  | some (os, r) => (true, ((s.emits os).modRing n (fun _ => r)).ringSignal n)
  | none => (false, s.modRing n Ring.drop)

/-! ### Collectors -/

/-- A BLP frame (R533). -/
def blpFrame (ty session tag : Nat) (body : List Byte) : List Byte :=
  let head := ascii "BX" ++ [1#8] ++ leBytes 1 ty ++ leBytes 2 session ++ leBytes 2 body.length ++ leBytes 4 tag
  let crc := crc32 (head ++ leBytes 4 0 ++ body)
  head ++ leBytes 4 crc ++ body

/-- Longest body of a datagram's records: R540's 1,232 B less the two headers (assumption 10). -/
def datagramRoom : Nat := 1200

/-- Keeps the last `room` bytes of datagrams (R358). -/
def keepLast (room : Nat) (xs : List (Nat × List Byte)) : List (Nat × List Byte) :=
  (xs.foldr (fun x (acc : Nat × List (Nat × List Byte)) =>
    let total := acc.1 + x.2.length
    if total ≤ room then (total, x :: acc.2) else (room + 1, acc.2)) (0, [])).2

/-- Sends a datagram of a collector: it takes the next number and is retained (R357, R358). -/
def State.collDatagram (s : State) (k ty recs : Nat) (bodyOf : Nat → List Byte) : State :=
  let c := s.coll k
  let m := blpFrame ty 0 0 (bodyOf c.nextNo)
  (s.emit (.blp k m)).modColl k (fun c =>
    { c with nextNo := (c.nextNo + 1) % 2 ^ 32, kept := keepLast c.retxBytes (c.kept ++ [(c.nextNo, m)]),
             sent := c.sent.filter (fun p => p.1 != c.nextNo) ++ [(c.nextNo, recs)] })

/-- Body of a delivery message (R357). -/
def deliveryBody (k : Nat) (recs : List (List Byte)) (no : Nat) : List Byte :=
  leBytes 2 k ++ leBytes 2 recs.length ++ leBytes 4 no ++ copies 8 0#8 ++ recs.flatten

/-- Sends the datagram being filled (R357). -/
def State.collFlush (s : State) (k : Nat) : State :=
  let c := s.coll k
  if c.filling.isEmpty then s
  else (s.collDatagram k 6 c.filling.length (deliveryBody k c.filling)).modColl k
    (fun c => { c with filling := [] })

/-- Adds a whole record to the datagram, sending first where it has no room (R357). -/
def State.collAdd (s : State) (k : Nat) (bytes : List Byte) : State :=
  let full := (s.coll k).filling.flatten.length + bytes.length > datagramRoom
  let s := if full then s.collFlush k else s
  s.modColl k (fun c => { c with filling := c.filling ++ [bytes] })

/-- `n` records of a collector are lost for a cause: the next datagram reports them (R346, R358, R359). -/
def Collector.lose (c : Collector) (n cause : Nat) : Collector :=
  { c with lossDue := true, lost := satAdd 32 c.lost n, lostCause := cause, dropped := (c.dropped + n) % 2 ^ 64 }

/-- A record reaches collector `k`: whether it took it (R351, R358, R359). -/
def State.collPut (s : State) (k : Nat) (bytes : List Byte) : Bool × State :=
  let c := s.coll k
  if !c.enable then (false, s)
  else if !c.up then (false, s.modColl k (fun c => c.lose 1 2))
  else
    let s := if c.lossDue then
        (s.collAdd k (lossRecord k c.lost c.lostCause)).modColl k (fun c => { c with lossDue := false, lost := 0 })
      else s
    (true, s.collAdd k bytes)

/-! ### Fault and event records -/

/-- The fields a fault rule fixes (R345, R592). -/
structure FaultInfo where
  code : Nat
  ctx : Nat := 0xFF
  unit : Nat := 0
  detail : Nat := 0
  addr : Nat := 0
  slot : Nat := 0xFFFF
  deriving DecidableEq, Repr

/-- The 32 B record (R345). -/
def faultRecord (f : FaultInfo) (seq : Nat) : List Byte :=
  [6#8] ++ leBytes 1 f.ctx ++ leBytes 2 1 ++ leBytes 4 f.unit ++ leBytes 4 f.detail ++ leBytes 2 f.code
    ++ leBytes 2 0 ++ leBytes 8 f.addr ++ leBytes 2 f.slot ++ leBytes 2 0 ++ leBytes 4 seq

/-- Raises a fault or event: one record to ring 0 and collector 0, held at 0xF000.01, and
PCI_DEV_EVENTS.fault where neither takes it (R351, R591). -/
def State.raise (s : State) (f : FaultInfo) : State :=
  let bytes := faultRecord f s.od.faultSeq
  let s := { s with od := { s.od with faultSeq := s.od.faultSeq + 1, lastRecord := bytes } }
  let r := s.ringPut 0 bytes
  let c := r.2.collPut 0 bytes
  if r.1 || c.1 then c.2 else c.2.devEvent 1

/-- Raises several records of one cycle in ascending code, then ascending unit (R594). -/
def State.raiseAll (s : State) (fs : List FaultInfo) : State :=
  (sortBy (fun f => f.code * 2 ^ 32 + f.unit) fs).foldl State.raise s

/-- Result of a dictionary request: its status (R535), the fault code of a refusal, and the state. -/
structure Reply where
  status : Nat := 0
  code : Nat := 0
  st : State

/-- Answers the request on its route (R534): REFUSED carries the fault code. -/
def Reply.send (r : Reply) (route : OdRoute) (session : Nat) : State :=
  r.st.emit (.odReply route session r.status (if r.status = 9 then leBytes 2 r.code else []))

/-- A refused request: its fault carries the route as unit and the dictionary index as detail (R592, R593). -/
def State.refuse (s : State) (route : OdRoute) (index code : Nat) : Reply :=
  ⟨9, code, s.raise { code := code, unit := OdRoute.num route, detail := index }⟩

/-! ### Stream records (R337, R350) -/

/-- The record of a slot: 32 B header, then the body (R337). -/
def streamRecord (slot ty seq pts : Nat) (chain body : List Byte) : List Byte :=
  let len := 32 + body.length
  let n := ceilDiv len 32
  padTo (32 * n) ([BitVec.ofNat 8 ty] ++ leBytes 1 slot ++ leBytes 2 n ++ leBytes 4 seq ++ leBytes 8 pts
    ++ padTo 16 chain ++ body)

/-- The collector that a slot's records of a type go to, as its route names it (R351). -/
def State.routeColl (s : State) (n ty : Nat) : Nat :=
  (((s.slot n).cfg.routes.find? (fun p => p.1 == ty)).map (·.2)).getD 0xFFFF / 256 % 256

/-- Delivers a record of slot `n`: to its route's ring and collector (R351). -/
def State.route (s : State) (n ty : Nat) (bytes : List Byte) : State :=
  let r := ((s.slot n).cfg.routes.find? (fun p => p.1 == ty)).map (·.2) |>.getD 0xFFFF
  let ring := r % 256
  let coll := r / 256 % 256
  let s := if ring < 64 then (s.ringPut ring bytes).2 else s
  if coll < 16 then (s.collPut coll bytes).2 else s

/-- The slot's records wait for the partner's acknowledgement (R486): modes 1 and 2, link up, protected. -/
def State.holdsRecords (s : State) (n : Nat) : Bool :=
  (s.pair.mode == 1 || s.pair.mode == 2) && s.pair.link == 2 && (s.slot n).protect

/-- Emits a stream record with the chain value given: it takes the slot's next seq, whatever its
route (R337), and is held for the mirror where R486 says so: records of a group for the mirror of its close,
the others for one whose next seq lies beyond theirs. -/
def State.streamOutWith (s : State) (n ty pts : Nat) (chain body : List Byte) : State :=
  let seq := (s.slot n).chain.seq
  let bytes := streamRecord n ty seq pts chain body
  let s := s.modChain n (fun c => { c with seq := (c.seq + 1) % 2 ^ 32 })
  if s.holdsRecords n then s.modChain n (fun c => { c with
    heldRecs := c.heldRecs ++ [(ty, if ty ≤ 3 then c.closed else seq, bytes)] })
  else s.route n ty bytes

/-- The chain value records carry: H[0..15] (R443, R446). -/
def State.chainValue (s : State) (n : Nat) : List Byte := (s.slot n).chain.h.take 16

def State.streamOut (s : State) (n ty pts : Nat) (body : List Byte) : State :=
  s.streamOutWith n ty pts (s.chainValue n) body

end Sys2Proof.Machine
end

