-- ==== Sys2Proof/Machine/Mem.lean ====
section
/-! DEFINITION. The memory system as agents meet it: the address map (R361 to R366), line checks and
their recovery (R384 to R396), the merge buffers (R387), the memory-side cache (R373 to R375) and the
quarantine of rows (R401, R402). -/
namespace Sys2Proof.Machine
open Sys2Proof

/-! ### Addresses -/

def saddleSize : Nat := 0x400000000
def pageSize : Nat := 0x10000

def inSaddle (a : Nat) : Bool := decide (a < saddleSize)
def inCores (a : Nat) : Bool := decide (0x010000000000 ≤ a ∧ a < 0x010000000000 + 2048 * 0x40000)
def inClusters (a : Nat) : Bool := decide (0x011000000000 ≤ a ∧ a < 0x011000000000 + 128 * 0x200000)

/-- Core and offset of a core-window address; cluster and offset of a cluster-window address. -/
def coreOf (a : Nat) : Nat × Nat := ((a - 0x010000000000) / 0x40000, (a - 0x010000000000) % 0x40000)
def clusterOf (a : Nat) : Nat × Nat := ((a - 0x011000000000) / 0x200000, (a - 0x011000000000) % 0x200000)

/-- Fields of a DRAM address (R362). -/
def pageOf (a : Nat) : Nat := a / pageSize
def chanOf (a : Nat) : Nat := a / pageSize % 64
def bankOf (a : Nat) : Nat := a / 64 % 32
def rowOf (a : Nat) : Nat := a / 0x400000
def dieOf (ch : Nat) : Nat := ch / 32

/-- The partner page of a Class P page: XOR 32, or XOR 16 on one die (R363, R503). -/
def State.partner (s : State) (p : Nat) : Nat := p ^^^ (if s.mem.lostDie = none then 32 else 16)

/-- An address that R364 populates with memory, on this part's capacity (R13, R15, R502). -/
def State.populated (s : State) (a : Nat) : Bool :=
  if inSaddle a then s.mem.lostDie != some (dieOf (chanOf a))
  else if inCores a then decide ((coreOf a).1 < s.boot.clusters * 16) && decide ((coreOf a).2 < 0x20000)
  else if inClusters a then decide ((clusterOf a).1 < s.boot.clusters) && decide ((clusterOf a).2 < 0x100000)
  else false

/-- Line length at an address: 32 B in a scratchpad, 64 B elsewhere (R384; an accumulator line carries a
check for each 32 B half). -/
def lineLen (a : Nat) : Nat := if inCores a then 32 else 64

/-- The lines of `[a, a + n)` by their first addresses. -/
def linesOf (a n : Nat) : List Nat :=
  let l := lineLen a
  if n = 0 then [] else (upto (a / l) ((a + n - 1) / l - a / l + 1)).map (· * l)

/-! ### Counters (R405, R406) -/

/-- Where a line's counters are kept: its channel, cluster buffer or core. -/
def scopeOf (a : Nat) : Nat × Nat :=
  if inSaddle a then (0, chanOf a)
  else if inClusters a then (2, (clusterOf a).1)
  else (3, (coreOf a).1)

def cntKey (scope unit idx : Nat) : Nat := scope * 2 ^ 20 + unit * 16 + idx

def State.intCount (s : State) (a idx : Nat) : State :=
  let u := scopeOf a
  { s with mem := { s.mem with
      cnt := tmod 0 s.mem.cnt (cntKey u.1 u.2 idx) (fun v => (v + 1) % 2 ^ 64) } }

/-- An integrity counter of a line's slice (R405, R406). -/
def State.sliceCount (s : State) (line idx : Nat) : State :=
  { s with mem := { s.mem with cnt := tmod 0 s.mem.cnt (cntKey 1 (chanOf line) idx) (fun v => (v + 1) % 2 ^ 64) } }

def State.modPortStat (s : State) (p : Nat) (f : MemPort → MemPort) : State :=
  { s with mem := { s.mem with ports := tmod {} s.mem.ports p f } }

def State.modSlice (s : State) (n : Nat) (f : SliceCnt → SliceCnt) : State :=
  { s with mem := { s.mem with slices := tmod {} s.mem.slices n f } }

/-! ### Line checks -/

def State.lineFails (s : State) (line : Nat) : Bool := tget false s.mem.failing line

def State.setFails (s : State) (line : Nat) (b : Bool) : State :=
  { s with mem := { s.mem with failing := tset false s.mem.failing line b } }

/-- Data class of a line: 0 R, 1 P, 2 X; scratchpad and buffer lines are Class R (R389). -/
def State.classOf (s : State) (a : Nat) : Nat := if inSaddle a then (s.page (pageOf a)).cls else 0

/-- The fault record of a row (R404): channel, bank and row, address of the row's first line. -/
def rowFault (code ch bank row : Nat) : FaultInfo :=
  { code := code, unit := ch, detail := bank + row * 32, addr := row * 0x400000 + ch * pageSize + bank * 64 }

/-- Quarantine of a row: a free remap entry and a spare row of its bank (R402). -/
def State.quarantine (s : State) (ch bank row : Nat) : State :=
  let c := s.chan ch
  let entry := (upto 0 64).find? (fun i => (tget none c.remap i).isNone)
  let spare := (upto 0 8).find? (fun i => !bit (tget 0 c.spares bank) i)
  match entry, spare with
  | some i, some sp =>
    let s := s.modChan ch (fun c => { c with
      remap := tset none c.remap i (some { bank := bank, row := row, spare := sp, copying := true }),
      spares := tmod 0 c.spares bank (fun m => setBit m sp true),
      failTable := c.failTable.filter (fun r => !(r.1 == bank && r.2.1 == row)) })
    let s := s.intCount (ch * pageSize) 10
    let s := { s with kpr := { s.kpr with appends := s.kpr.appends ++ [(ch, bank, row, 0, 3)] } }
    s.raise (rowFault fltMemRemap ch bank row)
  | _, _ =>
    if c.fullRows.contains (bank, row) then s
    else (s.modChan ch (fun c => { c with fullRows := c.fullRows ++ [(bank, row)] })).raise
      (rowFault fltMemRemapFull ch bank row)

/-- Counts a failing DRAM read of a row in the channel's failure table of 256 (R401); at 3 the row is
quarantined, or waits for the end of a retraining (R402, R403). -/
def State.countRow (s : State) (line : Nat) : State :=
  let ch := chanOf line
  let bank := bankOf line
  let row := rowOf line
  let c := s.chan ch
  let inRemap := c.remap.any (fun p => match p.2 with
    | some r => r.bank == bank && r.row == row | none => false)
  if inRemap then s
  else
    let isRow : Nat × Nat × Nat → Bool := fun r => r.1 == bank && r.2.1 == row
    match c.failTable.find? isRow with
    | some r =>
      let t := c.failTable.filter (fun x => !isRow x) ++ [(bank, row, r.2.2 + 1)]
      let s := s.modChan ch (fun c => { c with failTable := t })
      if r.2.2 + 1 < 3 then s
      else if c.st == .training then s.modChan ch (fun c => { c with waitRemap := c.waitRemap ++ [(bank, row)] })
      else s.quarantine ch bank row
    | none =>
      if c.failTable.length < 256 then
        s.modChan ch (fun c => { c with failTable := c.failTable ++ [(bank, row, 1)] })
      else
        match c.failTable.find? (fun r => r.2.2 == 1) with
        | some old => s.modChan ch (fun c => { c with
            failTable := c.failTable.filter (fun r => !(r.1 == old.1 && r.2.1 == old.2.1)) ++ [(bank, row, 1)] })
        | none => s

/-- What a consumer of a line meets (R391, R395). -/
inductive LineRes where | ok | lostP | failedR | failedX
  deriving DecidableEq, Repr

/-- A line is read and its check tested (R385, R391): a second read of a saddle line may pass; a Class P
line is repaired from its other copy; FLT_INT_P_LOST and FLT_INT_HOST carry the port (R404). -/
def State.testLine (s : State) (port line : Nat) (e : ReadErrors) : LineRes × State :=
  if !(s.lineFails line || e.failing.contains line) then (.ok, s)
  else
    let s := s.intCount line 0
    let s := if inSaddle line then s.countRow line else s
    if inSaddle line && !s.lineFails line && e.transient.contains line then (.ok, s.intCount line 1)
    else
      let s := s.setFails line true
      let cls := s.classOf line
      if cls = 1 then
        let other := s.partner (pageOf line) * pageSize + line % pageSize
        if s.lineFails other || e.failing.contains other then
          let s := ((s.setFails other true).intCount line 3).raise
            { code := fltIntPLost, unit := port, addr := line }
          (.lostP, { s with mem := { s.mem with lostLines := s.mem.lostLines ++ [line] } })
        else (.ok, (((s.wrBytes line (s.rdBytes other 64)).setFails line false).intCount line 2))
      else if cls = 2 then
        (.failedX, (s.intCount line 5).raise { code := fltIntHost, unit := port, addr := line })
      else (.failedR, s.intCount line 4)

/-! ### Memory-side cache (R373 to R375) -/

/-- Set of a line in its slice. -/
def cacheSet (line : Nat) : Nat := bits line 15 6 ^^^ bits line 31 22

/-- Lines of the same slice and set that are cached. -/
def State.setLines (s : State) (line : Nat) : List (Nat × CacheLine) :=
  s.mem.cache.filterMap (fun p => match p.2 with
    | some c => if chanOf p.1 = chanOf line ∧ cacheSet p.1 = cacheSet line then some (p.1, c) else none
    | none => none)

def State.putLine (s : State) (line : Nat) (c : Option CacheLine) : State :=
  { s with mem := { s.mem with cache := tset none s.mem.cache line c, useClock := s.mem.useClock + 1 } }

def State.modCached (s : State) (line : Nat) (f : CacheLine → CacheLine) : State :=
  { s with mem := { s.mem with cache := tmod none s.mem.cache line (Option.map f) } }

/-- The cached copy of a line fails its check. -/
def State.cacheBad (s : State) (line : Nat) : Bool := (tget none s.mem.cache line).any (·.bad)

/-- A line is written in full to DRAM: its check is good, on both copies of a Class P line (R363, R385). -/
def State.freshLine (s : State) (line : Nat) : State :=
  let t := s.setFails line false
  if s.classOf line = 1 then t.setFails (s.partner (pageOf line) * pageSize + line % pageSize) false else t

/-- DRAM traffic of a line: a read or a write of 64 B (Class P writes reach both copies). -/
def State.dramRead (s : State) (port line : Nat) : State :=
  (s.modChan (chanOf line) (fun c => { c with readBytes := (c.readBytes + 64) % 2 ^ 64 })).modPortStat port
    (fun p => { p with reqs := (p.reqs + 1) % 2 ^ 64 })

def State.dramWrite (s : State) (line : Nat) : State :=
  let w := fun (c : DramChan) => { c with writeBytes := (c.writeBytes + 64) % 2 ^ 64 }
  let s := s.modChan (chanOf line) w
  if s.classOf line = 1 then s.modChan (chanOf (s.partner (pageOf line) * pageSize)) w else s

/-- A dirty line is written to DRAM, with the check that it holds (R375, R385). -/
def State.writeBack (s : State) (line : Nat) (c : CacheLine) : State :=
  ((s.dramWrite line).setFails line c.bad).modSlice (chanOf line) (fun x => { x with wb := (x.wb + 1) % 2 ^ 64 })

/-- Allocates a line in a way of the mask: a free one, lowest first, else the least recently used;
a dirty victim is written back (R374, R375). -/
def State.cacheAlloc (s : State) (line ways : Nat) (dirty : Bool) : State :=
  let here := s.setLines line
  match (onBits ways 16).find? (fun w => !(here.any (fun c => c.2.way == w))) with
  | some w => s.putLine line (some { way := w, dirty := dirty, use := s.mem.useClock })
  | none =>
    match minBy (fun c => c.2.use) (here.filter (fun c => bit ways c.2.way)) with
    | none => s
    | some v =>
      let s := if v.2.dirty then s.writeBack v.1 v.2 else s
      (s.putLine v.1 none).putLine line (some { way := v.2.way, dirty := dirty, use := s.mem.useClock })

/-- A lookup: counted, and a hit refreshes the line's use. -/
def State.lookup (s : State) (line : Nat) : Bool × State :=
  match tget none s.mem.cache line with
  | some c =>
    (true, (s.putLine line (some { c with use := s.mem.useClock })).modSlice (chanOf line)
      (fun x => { x with hits := (x.hits + 1) % 2 ^ 64 }))
  | none => (false, s.modSlice (chanOf line) (fun x => { x with misses := (x.misses + 1) % 2 ^ 64 }))

/-! ### Merge buffers (R387) -/

/-- Stores bytes of one line with a fresh check; a Class P line takes them on both copies (R363). -/
def State.putBytes (s : State) (a : Nat) (bs : List Byte) : State :=
  let s := s.wrBytes a bs
  if s.classOf a = 1 then s.wrBytes (s.partner (pageOf a) * pageSize + a % pageSize) bs else s

/-- Closes an entry: a full mask is written with a new check; a narrower one is merged by
read-modify-write, and discarded where the line fails (R386, R387). -/
def State.closeEntry (s : State) (m : MergeEntry) (e : ReadErrors) : State :=
  let ch := chanOf m.line
  let s := s.modChan ch (fun c => { c with merges := c.merges.filter (fun x => x.line != m.line) })
  let put := fun (s : State) =>
    ((m.bytes.foldl (fun s b => s.putBytes (m.line + b.1) [b.2]) s).dramWrite m.line).freshLine m.line
  if 64 ≤ m.bytes.length then (put s).intCount m.line 8
  else
    let s := (s.dramRead 43 m.line).intCount m.line 7
    match s.testLine 43 m.line e with
    | (.ok, s) => put s
    | (_, s) => s.intCount m.line 6

def State.entryOf (s : State) (line : Nat) : Option MergeEntry :=
  (s.chan (chanOf line)).merges.find? (fun m => m.line == line)

def State.closeLine (s : State) (line : Nat) (e : ReadErrors) : State :=
  match s.entryOf line with
  | some m => s.closeEntry m e
  | none => s

/-- Puts bytes into an entry, in rising offset; a later write of the same byte replaces it. -/
def mergeBytes (old : List (Nat × Byte)) (off : Nat) (bs : List Byte) : List (Nat × Byte) :=
  ((upto off bs.length).zip bs).foldl (fun t p => tput t p.1 p.2) old

def noErrors : ReadErrors := ⟨[], [], []⟩

/-- A narrow write that misses: it opens an entry or merges into one; a 17th line closes the oldest. -/
def State.mergeWrite (s : State) (line off : Nat) (bs : List Byte) : State :=
  let ch := chanOf line
  match s.entryOf line with
  | some m =>
    let m' := { m with bytes := mergeBytes m.bytes off bs }
    let s := s.modChan ch (fun c => { c with merges := modWhere (fun x => x.line == line) (fun _ => m') c.merges })
    if 64 ≤ m'.bytes.length then s.closeEntry m' noErrors else s
  | none =>
    let s := match (s.chan ch).merges with
      | old :: _ => if 16 ≤ (s.chan ch).merges.length then s.closeEntry old noErrors else s
      | [] => s
    s.modChan ch (fun c => { c with merges := c.merges ++ [{ line := line, bytes := mergeBytes [] off bs }] })

/-! ### Reads and writes of agents -/

/-- A line fetched from DRAM, and cached where its check holds. -/
def State.readMiss (s : State) (port ways line : Nat) (e : ReadErrors) : LineRes × State :=
  match (s.dramRead port line).testLine port line e with
  | (.ok, s) => (.ok, s.cacheAlloc line ways false)
  | r => r

/-- The cached copy of a line fails: a clean one is fetched again from DRAM; a dirty one is a Class R or Class X failure of
the line (R391), found in the cache (R404). -/
def State.cacheFailure (s : State) (port ways line : Nat) (e : ReadErrors) : LineRes × State :=
  let s := s.sliceCount line 0
  if !(tget none s.mem.cache line).any (·.dirty) then (s.putLine line none).readMiss port ways line e
  else if s.classOf line = 2 then
    (.failedX, (s.sliceCount line 5).raise { code := fltIntHost, unit := port, detail := 1, addr := line })
  else (.failedR, s.sliceCount line 4)

/-- One line read by an agent (R373, R385, R387): an open entry closes first. A line that is cached is tested there. -/
def State.readLine (s : State) (port ways line : Nat) (e : ReadErrors) : LineRes × State :=
  if inSaddle line then
    let s := s.closeLine line e
    let s := if e.cached.contains line then s.modCached line (fun c => { c with bad := true }) else s
    match s.lookup line with
    | (true, s) => if s.cacheBad line then s.cacheFailure port ways line e else (.ok, s)
    | (false, s) => s.readMiss port ways line e
  else s.testLine port line e

/-- A read of `[a, a + n)`: the first line that fails, with what it meets, and the state. The bytes
are those of `rdBytes` after it. -/
def State.readRange (s : State) (port ways a n : Nat) (e : ReadErrors) : Option (Nat × LineRes) × State :=
  (linesOf a n).foldl (fun (acc : Option (Nat × LineRes) × State) line =>
    match acc.1 with
    | some _ => acc
    | none =>
      match acc.2.readLine port ways line e with
      | (.ok, s) => (none, s)
      | (r, s) => (some (line, r), s)) (none, s)

/-- The part of `[a, a + bs.length)` that lies in a line. -/
def partIn (line len a : Nat) (bs : List Byte) : Nat × List Byte :=
  let lo := max a line
  (lo, (bs.drop (lo - a)).take (min (a + bs.length) (line + len) - lo))

/-- One line written by an agent: a full line takes a fresh check; a narrower write merges, and is
discarded where the line's check fails (R375, R385 to R387). -/
def State.writeLine (s : State) (ways line : Nat) (a : Nat) (bs : List Byte) : State :=
  let len := lineLen line
  let full := decide (len ≤ bs.length)
  if inSaddle line then
    if full then
      let s := s.closeLine line noErrors
      let s := s.putBytes a bs
      match s.lookup line with
      | (true, s) =>
        if s.classOf line = 1 then ((s.dramWrite line).freshLine line).modCached line (fun c => { c with bad := false })
        else s.modCached line (fun c => { c with bad := false, dirty := true })
      | (false, s) =>
        if ways = 0 then (s.dramWrite line).freshLine line
        else if s.classOf line = 1 then ((s.dramWrite line).freshLine line).cacheAlloc line ways false
        else s.cacheAlloc line ways true
    else
      match s.lookup line with
      | (true, s) =>
        if s.cacheBad line then s.sliceCount line 6
        else if s.classOf line = 1 then ((s.putBytes a bs).dramWrite line).freshLine line
        else (s.putBytes a bs).modCached line (fun c => { c with dirty := true })
      | (false, s) => s.mergeWrite line (a - line) bs
  else if full then (s.putBytes a bs).setFails line false
  else if s.lineFails line then s.intCount line 6
  else s.putBytes a bs

/-- A write of bytes by an agent, in rising address order. -/
def State.store (s : State) (ways a : Nat) (bs : List Byte) : State :=
  (linesOf a bs.length).foldl (fun s line =>
    let p := partIn line (lineLen line) a bs
    s.writeLine ways line p.1 p.2) s

/-- Way mask of a port's requests (R374, R383). -/
def State.portWays (s : State) (p : Nat) : Nat := (tget {} s.mem.ports p).ways

/-- Bytes that a context's cluster DMA moves from (11) or to (12) DRAM (R440). -/
def State.accountDram (s : State) (c i a n : Nat) : State := if inSaddle a then s.account c i n else s

/-- A device service's access to an address that R364 does not populate (R366). -/
def State.decodeFault (s : State) (port a : Nat) : State :=
  s.raise { code := fltMemDecode, unit := port, addr := a }

/-- Bytes as a reader sees them: storage, with the open merge entry of each line applied (R387). -/
def State.seen (s : State) (a n : Nat) : List Byte :=
  (upto a n).map (fun x =>
    match (if inSaddle x then s.entryOf (x / 64 * 64) else none) with
    | some m => ((m.bytes.find? (fun b => b.1 == x % 64)).map (·.2)).getD (s.rdByte x)
    | none => s.rdByte x)

end Sys2Proof.Machine
end

