-- ==== Sys2Proof/Machine/OdTab.lean ====
section
/-! DEFINITION. The entries of the object dictionary (R524 to R531, R572): type, access, level, default,
range and apply class, and the configuration that committed values give. Subindices of the expert
groups follow the order of the rules' tables (assumption 15). -/
namespace Sys2Proof.Machine
open Sys2Proof

/-- An entry: type code (R525), size of STR and OCT, access 0 RO 1 RW 2 WO 3 W1C 4 RWT, level, default
(none for "—"), range, apply class 0 D 1 F 2 C (R528). -/
structure OdEnt where
  ty : Nat
  n : Nat := 0
  acc : Nat := 4
  lvl : Nat := 0
  dflt : Option (List Byte) := none
  lo : Nat := 0
  hi : Nat := 0
  cls : Nat := 0
  deriving DecidableEq, Repr

/-- Value bytes of a type; STR values are shorter or equal. -/
def tySize (ty n : Nat) : Nat :=
  if ty ≤ 1 then 1 else if ty = 2 then 2 else if ty = 3 then 4 else if ty = 4 then 8
  else if ty ≤ 6 then 4 else n

def tyBool : Nat := 0
def tyU8 : Nat := 1
def tyU16 : Nat := 2
def tyU32 : Nat := 3
def tyU64 : Nat := 4
def tyF32 : Nat := 6

/-- A writable number. -/
def num (ty d lo hi cls : Nat) : OdEnt :=
  { ty := ty, dflt := some (leBytes (tySize ty 0) d), lo := lo, hi := hi, cls := cls }

def flag (d cls : Nat) : OdEnt := num 0 d 0 1 cls

/-- A number over its type's whole range. -/
def any (ty d cls : Nat) : OdEnt := num ty d 0 (2 ^ (8 * tySize ty 0) - 1) cls

/-- A writable fixed-size value, zero by default. -/
def oct (n cls : Nat) : OdEnt := { ty := 8, n := n, dflt := some (copies n 0#8), lo := n, hi := n, cls := cls }

/-- A writable string, empty by default. -/
def str (n cls : Nat) : OdEnt := { ty := 7, n := n, dflt := some [], lo := 0, hi := n, cls := cls }

def ro (ty : Nat) : OdEnt := { ty := ty, acc := 0, hi := 2 ^ (8 * tySize ty 0) - 1 }
def roOct (n : Nat) : OdEnt := { ty := 8, n := n, acc := 0, lo := n, hi := n }
def roStr (n : Nat) : OdEnt := { ty := 7, n := n, acc := 0, hi := n }
def wo (ty lo hi : Nat) : OdEnt := { ty := ty, acc := 2, lo := lo, hi := hi }
def woOct (n : Nat) : OdEnt := { ty := 8, n := n, acc := 2, lo := n, hi := n }

def OdEnt.expert (e : OdEnt) : OdEnt := { e with lvl := 1 }

/-- Numbers a list of entries from subindex `a`. -/
def from_ (a : Nat) (es : List OdEnt) : List (Nat × OdEnt) := (upto a es.length).zip es

/-- One slot's basic entries (0x2100 + n). -/
def slotEntries : List (Nat × OdEnt) :=
  from_ 1 [flag 0 2, num tyU8 0 0 2 2, str 256 2, num tyU8 1 1 2 2, num tyU8 1 0 4 2, any tyU16 0 2,
    num tyU16 100 8 500 1, any tyU32 1000000 1, any tyU32 262144 1, oct 16 2,
    num tyU16 1920 64 8192 2, num tyU16 1088 64 8192 2, num tyU8 8 8 10 2, num tyU8 6 1 16 2,
    any tyU32 (30 * 65536 + 1) 2, num tyU8 0 0 2 2, any tyU8 0xFF 2, num tyU8 5 1 60 1, num tyU8 10 1 255 1,
    num tyU8 4 1 255 1, num tyU16 300 1 3600 1, flag 0 1, num tyU16 256 1 1024 1, num tyU8 0 0 15 1]
  ++ from_ 0x20 [ro tyU8, ro tyU8, ro tyU16]

/-- Steering with the default phase of the slot (R133), tracking and re-identification (R307, R310 to R312) of a slot. -/
def steerEntries (phase : Nat) : List (Nat × OdEnt) :=
  from_ 1 [num tyU8 phase 0 254 1, num tyU8 4 0 64 1, num tyU16 16 0 256 1, num tyU8 1 0 4 1,
    num tyU8 2 1 64 1, num tyU8 48 1 64 1, num tyU8 60 1 100 1]

def trackEntries : List (Nat × OdEnt) :=
  from_ 1 [num tyU16 256 1 1024 1, num tyU8 8 0 16 1, num tyU16 1229 0 4096 1, num tyU16 2048 0 4096 1,
    num tyU32 4096 0 65536 1, flag 1 1, num tyF32 0x3F000000 0 0x3F800000 1, num tyU8 3 1 16 1,
    num tyU8 30 1 255 1, num tyF32 0x368637BD 0 0x7F7FFFFF 1, num tyF32 0x2B8CBCCC 0 0x7F7FFFFF 1,
    num tyF32 0x3B23D70A 1 0x7F7FFFFF 1, num tyF32 0x3B83126F 1 0x7F7FFFFF 1, num tyF32 0x3089705F 1 0x7F7FFFFF 1,
    num tyU32 1048576 1 16777216 1, num tyU8 32 0 64 1, any tyU64 0 1, num tyU16 32 8 512 1,
    num tyU32 262144 1024 1048576 1, num tyU8 8 1 64 1, num tyU16 3072 0 4096 1]

/-- Change thresholds (R88), evidence (R93; the default of cpb_size is bit_rate) and fusion membership (R46). -/
def evidEntries (bitRate : Nat) : List (Nat × OdEnt) :=
  from_ 1 [num tyU8 4 1 16 2, any tyU16 8 2, any tyU16 64 2,
    num tyU16 60 0 300 1, num tyU8 15 0 60 1, num tyU16 150 0 900 1, num tyU32 4000000 256000 40000000 1,
    num tyU32 bitRate 0 40000000 1, num tyU8 0 0 1 1, num tyU8 22 0 51 1, num tyU8 46 0 51 1, num tyU8 30 8 120 1,
    any tyU16 0 1, any tyU16 0 1, any tyU16 0 1, any tyU16 0 1, num tyU8 85 1 100 1,
    num tyU32 1048576 16384 8388608 1,
    flag 0 2, any tyU8 0 2, flag 0 2, num tyU32 1500 1 45000 2, flag 1 2, any tyU64 0 2]

def auditEntries : List (Nat × OdEnt) :=
  from_ 1 [flag 0 1, flag 0 1, num tyU16 16 16 4096 1, ro tyU64, any tyU64 0 0]

/-- Context parameters (R426): image handle to restart_max at .02 to .0E. -/
def ctxParams : List OdEnt :=
  [any tyU32 0xFFFFFFFF 0, oct 128 0, any tyU8 0xFF 0, any tyU64 0 0, any tyU16 0 0, num tyU8 0 0 2 0,
   any tyU32 0 0, num tyU32 4096 0 65535 0, num tyU32 2000 100 1000000 0, num tyU16 20 1 1000 0, num tyU32 10000 100 100000 0,
   flag 0 0, any tyU8 0 0]

def ctxEntries : List (Nat × OdEnt) :=
  from_ 1 (num tyU8 0 1 3 0 :: ctxParams ++ [oct 32 1]) ++ from_ 0x20 [ro tyU8, ro tyU16]

def ruleEntries : List (Nat × OdEnt) :=
  from_ 1 [any tyU8 0 1, num tyU8 0 0 6 1, oct 128 1, oct 16 1, num tyU8 0 0 2 1, any tyU32 0 1, any tyU32 0 1,
    any tyF32 0 1, any tyF32 0x3F800000 1, num tyU8 0 0 15 1, any tyU32 0 1, num tyU8 0 0 15 1, any tyU32 0 1,
    str 256 1, any tyU64 0 1, flag 0 1]

/-- Default thresholds of shedding step `s` (R467): D in 0.1 %, t and w in µs, h in ms. -/
def shedEntry (s : Nat) : List (Nat × OdEnt) :=
  let d := [(30, 10, 0, 1000), (40, 50, 1000, 2000), (50, 100, 5000, 5000), (60, 200, 10000, 5000),
            (70, 500, 20000, 10000), (80, 1000, 50000, 30000)].getD (s - 1) (0, 0, 0, 0)
  from_ 1 [num tyU16 d.1 10 150 0, num tyU32 d.2.1 10 100000 0, num tyU32 d.2.2.1 0 1000000 0, num tyU32 d.2.2.2 100 600000 0]

/-- The basic and expert groups outside the numbered ranges. -/
def fixedGroup (index : Nat) : List (Nat × OdEnt) :=
  if index = 0x1000 then from_ 1 [roStr 16, roStr 16, ro tyU8, roOct 16]
  else if index = 0x1001 then from_ 1 [ro tyU32, ro tyU32, ro tyU16]
  else if index = 0x1002 then from_ 1 [ro tyU16, ro tyU8, ro tyU16, ro tyBool, ro tyU8]
  else if index = 0x1010 then from_ 1 [any tyU32 0 0, num tyU8 0 0 32 0, any tyU32 0 0, flag 1 0, num tyU16 4730 1024 65535 0]
  else if index = 0x1011 then from_ 1 [num tyU8 1 1 127 0, any tyU32 500000 0, num tyU32 2000000 0 5000000 0, any tyU16 0x500 0]
  else if index = 0x1012 ∨ index = 0x1013 then from_ 1 [any tyU32 0 0, num tyU8 0 0 32 0, num tyU16 0 0 4094 0]
  else if index = 0x1020 then from_ 1 [(num tyU16 1500 1280 9216 0).expert]
  else if index = 0x1022 ∨ index = 0x1023 then from_ 1 (copies 16 (num tyU16 0 0 4094 0).expert)
  else if index = 0x1024 then [(1, (num tyU8 1 0 2 0).expert)]
  else if index = 0x2000 then from_ 1 [num tyU8 24 4 48 0, num tyU8 4 0 16 0]
  else if index = 0x2B00 then from_ 1 [(any tyU64 (2 ^ 64 - 1) 0).expert, (any tyU64 (2 ^ 64 - 1) 0).expert]
  else if index = 0x4000 then from_ 1 [num tyU32 150000 20000 150000 0, num tyU32 10000 0 30000 0, num tyU8 85 25 105 0,
    ro tyU32, ro tyU32, ro tyF32]
  else if index = 0x4001 then from_ 1 [wo tyBool 0 1, any tyU16 0 0, any tyU16 0 0]
  else if 0x4101 ≤ index ∧ index ≤ 0x4106 then (shedEntry (index - 0x4100)).map (fun p => (p.1, p.2.expert))
  else if index = 0x5000 then from_ 1 [num tyU8 24 1 168 0, num tyU32 1144 100 1000000 0, flag 1 0, flag 1 0]
  else if index = 0x5001 then from_ 1 (copies 11 (ro tyU64))
  else if index = 0x5100 then (from_ 1 [ro tyU32, ro tyU32, ro tyBool]).map (fun p => (p.1, p.2.expert))
  else if 0x5140 ≤ index ∧ index < 0x5180 then (from_ 1 [ro tyU8, ro tyU16]).map (fun p => (p.1, p.2.expert))
  else if index = 0x6000 then from_ 1 [ro tyU8, ro tyBool, ro tyU16, ro tyU8]
  else if index = 0x6010 then (from_ 1 [num tyU8 0 0 3 0, num tyU8 0 0 1 0, num tyU8 5 2 100 0, num tyU8 16 1 64 0,
    num tyU8 0 0 1 0, any tyU64 0 0, any tyU32 0 0]).map (fun p => (p.1, p.2.expert))
  else if index = 0x6011 then [(1, (oct 32 0).expert)]
  else if index = 0x6012 then [(1, (woOct 32).expert)]
  else if index = 0x6014 then (from_ 1 (copies 16 (any tyU64 (2 ^ 64 - 1) 0))).map (fun p => (p.1, p.2.expert))
  else if 0x6020 ≤ index ∧ index < 0x6060 then (from_ 2 ctxParams).map (fun p => (p.1, p.2.expert))
  else if index = 0x7000 then from_ 1 [roOct 32, roOct 8]
  else if index = 0x7001 then from_ 1 [woOct 32, roOct 512]
  else if index = 0x7010 then
    (from_ 1 (copies 3 (any tyU8 0x1F 0)) ++ from_ 4 (copies 8 (oct 17 0))).map (fun p => (p.1, p.2.expert))
  else if index = 0x7011 then [(1, (roOct 192).expert)]
  else if index = 0x7012 then (from_ 1 (copies 4 (woOct 32) ++ [wo tyBool 0 1, wo tyBool 0 1, wo tyBool 0 1, wo tyU8 0 15])).map
    (fun p => (p.1, p.2.expert))
  else if index = 0x7020 then (from_ 1 [wo tyU8 1 3, woOct 256]).map (fun p => (p.1, p.2.expert))
  else if index = 0x7030 then (from_ 1 [ro tyU32, wo tyU8 1 9, wo tyU16 0 65535, roOct 64]).map (fun p => (p.1, p.2.expert))
  else if index = 0x7040 then (from_ 1 [wo tyU8 0 31, roOct 64, woOct 100, ro tyU8]).map (fun p => (p.1, p.2.expert))
  else if index = 0x7050 then (from_ 1 [wo tyBool 0 1, wo tyBool 0 1, roOct 64]).map (fun p => (p.1, p.2.expert))
  else if index = 0x7060 then (from_ 1 [wo tyU8 0 255, wo tyU32 0 (2 ^ 32 - 1), wo tyBool 0 1, ro tyU8]).map
    (fun p => (p.1, p.2.expert))
  else if index = 0x8000 then from_ 1 [num tyU16 300 10 3600 0, num tyU32 3600 60 86400 0, wo tyU32 0 (2 ^ 32 - 1)]
  else if index = 0x8010 then from_ 1 [woOct 64, wo tyU8 0 63]
  else if index = 0x8011 then from_ 1 [woOct 32, woOct 32]
  else if index = 0x8300 then (from_ 1 [num tyU8 0 0 64 0, num tyU8 32 0 32 0]).map (fun p => (p.1, p.2.expert))
  else if index = 0xA000 then from_ 1 [ro tyU8, ro tyU16, ro tyU32]
  else if index = 0xA010 then from_ 1 [ro tyU32, wo tyU32 0 (2 ^ 32 - 1), ro tyBool]
  else if index = 0xA020 then [(1, wo tyU8 1 1)]
  else if index = 0xA030 then from_ 1 [wo tyU32 0 (2 ^ 32 - 1), ro tyU32, wo tyU32 0 (2 ^ 32 - 1)]
  else if index = 0xF000 then from_ 1 [roOct 32, ro tyU64]
  else []

/-- The entries at an index; units that do not exist on this part have none (R529). -/
def State.odGroup (s : State) (index : Nat) : List (Nat × OdEnt) :=
  if 0x2100 ≤ index ∧ index < 0x2200 then slotEntries
  else if 0x2200 ≤ index ∧ index < 0x2300 then from_ 1 (copies 0x7F (ro tyU64))
  else if 0x2600 ≤ index ∧ index < 0x2700 then (steerEntries ((index - 0x2600) % s.odNat (index - 0x2600 + 0x2100) 0x14 4)).map (fun p => (p.1, p.2.expert))
  else if 0x2700 ≤ index ∧ index < 0x2800 then trackEntries.map (fun p => (p.1, p.2.expert))
  else if 0x2800 ≤ index ∧ index < 0x2900 then (evidEntries (s.odNat index 7 4000000)).map (fun p => (p.1, p.2.expert))
  else if 0x2900 ≤ index ∧ index < 0x2A00 then auditEntries.map (fun p => (p.1, p.2.expert))
  else if 0x3100 ≤ index ∧ index < 0x3140 then ctxEntries
  else if 0x3200 ≤ index ∧ index < 0x3240 then from_ 1 (copies 0x13 (ro tyU64))
  else if 0x8100 ≤ index ∧ index < 0x8110 then
    from_ 1 [oct 16 0, any tyU16 0 0, num tyU8 0 0 2 0, num tyU8 5 1 60 0, num tyU32 4194304 65536 16777216 0,
      flag 0 0, flag 0 0, ro tyU8, ro tyU64]
  else if 0x8200 ≤ index ∧ index < 0x8300 then from_ 1 (copies 7 (any tyU16 0xFFFF 1))
  else if 0x8400 ≤ index ∧ index < 0x8800 then ruleEntries
  else if 0x9100 ≤ index ∧ index < 0x9110 then
    from_ 1 [flag 0 0, num tyU32 20000 2000 2000000 0, num tyU32 0 0 3600000 0, ro tyBool, ro tyBool, ro tyU64]
  else if 0x9200 ≤ index ∧ index < 0x9208 then from_ 1 [flag 0 0, wo tyU32 0 (2 ^ 32 - 1)]
  else if 0xF100 ≤ index ∧ index < 0xF100 + s.decoderCount then
    (from_ 1 [ro tyU64, ro tyU64]).map (fun p => (p.1, p.2.expert))
  else if 0xF200 ≤ index ∧ index < 0xF200 + s.boot.clusters * 16 then
    (from_ 1 [ro tyU64, ro tyBool]).map (fun p => (p.1, p.2.expert))
  else fixedGroup index

/-- Entries whose default is another entry's value: sweep_phase and cpb_size (R93, R133). A committed value of theirs
is kept even where it equals the default of the moment. -/
def ownDefault (index sub : Nat) : Bool := !((index / 256 == 0x26 && sub == 1) || (index / 256 == 0x28 && sub == 8))

/-- An entry, and subindex 0 with the highest subindex in use (R524). -/
def State.odEnt (s : State) (index sub : Nat) : Option OdEnt :=
  let g := s.odGroup index
  if g.isEmpty then none
  else if sub = 0 then some (ro tyU8)
  else (g.find? (fun p => p.1 == sub)).map (·.2)

/-! ### Committed values as configuration -/

/-- The value of an entry: committed, or its default. -/
def State.odVal (s : State) (index sub : Nat) : List Byte :=
  match s.odRaw index sub with
  | some v => v
  | none => match s.odEnt index sub with
    | some e => e.dflt.getD []
    | none => []

def State.odNum (s : State) (index sub : Nat) : Nat := leNat (s.odVal index sub)

def State.odFlag (s : State) (index sub : Nat) : Bool := s.odNum index sub != 0

def State.odWord (s : State) (index sub : Nat) : Word := BitVec.ofNat 32 (s.odNum index sub)

/-- Drive of the 1.8 V I/O in mA: 4, 8 or 12 (R585, assumption 120). -/
def State.driveMa (s : State) : Nat := 4 + 4 * s.odNum 0x1024 1

/-- The configuration of slot `n` that the committed values give. A crop of four zeros is the whole picture (R93,
assumption 122). -/
def State.slotCfgOf (s : State) (n : Nat) : SlotCfg :=
  let a := s.odNum (0x2100 + n)
  let t := s.odNum (0x2700 + n)
  let w := s.odWord (0x2700 + n)
  let e := s.odNum (0x2800 + n)
  let g := s.odNum (0x2600 + n)
  let fps := a 0x0F
  { stream := {
      enable := a 1 != 0, source := a 2, url := s.odVal (0x2100 + n) 3, rtspVersion := a 4, payload := a 5,
      udpPort := a 6, jitterMs := a 7, rate := a 8, burst := a 9, group := s.odVal (0x2100 + n) 0x0A,
      maxW := a 0x0B, maxH := a 0x0C, depth := a 0x0D, dpb := a 0x0E, frNum := fps / 65536, frDen := fps % 65536,
      priority := a 0x10, engine := a 0x11, timeoutS := a 0x12, overrunLimit := a 0x13, sweepN := a 0x14,
      checkpointEvery := a 0x15, evidEnable := a 0x16 != 0, maxTracks := a 0x17, linkGroup := a 0x18,
      tIntra := e 1, tMv := e 2, tRes := e 3 }
    steer := {
      sweepPhase := g 1
      marginQ := g 2, marginMin := g 3, dilate := g 4, minBlocks := g 5, regionMax := g 6, promote := g 7 }
    track := {
      detMax := t 1, wIou := t 2, iouGate := t 3, cosGate := t 4, bMin := t 5, classMatch := t 6 != 0,
      birthScore := w 7, confirmHits := t 8, maxMiss := t 9, qp := w 0x0A, qv := w 0x0B, r := w 0x0C,
      p0pos := w 0x0D, p0vel := w 0x0E, bidLimit := t 0x0F, cropMax := t 0x10, reidMask := t 0x11,
      cropMin := t 0x12, gallerySize := t 0x13, topK := t 0x14, linkGate := t 0x15 }
    evid := {
      preroll := e 4, guardPics := e 5, postroll := e 6, bitRate := e 7,
      cpbSize := e 8,
      cbr := e 9 == 0, minQp := e 0x0A, maxQp := e 0x0B, refreshP := e 0x0C,
      crop := if e 0x0D = 0 ∧ e 0x0E = 0 ∧ e 0x0F = 0 ∧ e 0x10 = 0 then none else some ⟨e 0x0D, e 0x0E, e 0x0F, e 0x10⟩,
      jpegQ := e 0x11, snapMax := e 0x12 }
    fusion := {
      member := e 0x13 != 0, set := e 0x14, reference := e 0x15 != 0, tol := e 0x16, fixed := e 0x17 != 0,
      offset := sgn 64 (e 0x18) }
    audit := {
      enable := s.odFlag (0x2900 + n) 1, withBytes := s.odFlag (0x2900 + n) 2, pages := s.odNum (0x2900 + n) 3 }
    routes := (upto 1 7).map (fun t => (t, s.odNum (0x8200 + n) t)) }

/-- Signed pairs of 32-bit coordinates. -/
def pairsOf (bs : List Byte) : List (Int × Int) :=
  (chunks 8 (bs.length / 8 + 1) bs).map (fun p => (sgn 32 (leNat (p.take 4)), sgn 32 (leNat (p.drop 4))))

/-- The configuration of rule `r` (R347 to R349). -/
def State.ruleCfgOf (s : State) (r : Nat) : RuleCfg :=
  let i := 0x8400 + r
  let cmd := s.odNum i 0x0D
  { enable := s.odFlag i 0x10, slot := s.odNum i 1, kind := s.odNum i 2, zone := pairsOf (s.odVal i 3),
    line := pairsOf (s.odVal i 4), direction := s.odNum i 5, countHi := s.odNum i 6 / 65536,
    countLo := s.odNum i 6 % 65536, dwellTicks := s.odNum i 7, limit := s.odWord i 8, scale := s.odWord i 9,
    evtLine := s.odNum i 0x0A, cooldown := s.odNum i 0x0B, actions := s.odNum i 0x0C,
    evtOutLine := bits cmd 2 0, evtOutCmd := bits cmd 5 4, evtOutMs := bits cmd 19 6,
    template := s.odVal i 0x0E, seed := s.odNum i 0x0F }

/-- The stream-level entries of slot `n` (class F or C): its own groups, its routes and the rules bound
to it, as their values in index order (R443, R444, assumption 16). -/
def State.streamEntries (s : State) (n : Nat) : List Byte :=
  let vals := fun index => ((s.odGroup index).filter (fun p => p.2.acc == 4 && p.2.cls != 0)).flatMap
    (fun p => leBytes 2 index ++ leBytes 1 p.1 ++ s.odVal index p.1)
  let rules := (upto 0 1024).filter (fun r => s.odNum (0x8400 + r) 1 == n && (s.odRaw (0x8400 + r) 0x10).isSome)
  vals (0x2100 + n) ++ vals (0x2600 + n) ++ vals (0x2700 + n) ++ vals (0x2800 + n) ++ vals (0x2900 + n)
    ++ vals (0x8200 + n) ++ rules.flatMap (fun r => vals (0x8400 + r)) ++ leBytes 1 (s.slot n).shedMode

end Sys2Proof.Machine
end

