-- ==== Sys2Proof/Machine/Chain.lean ====
section
/-! DEFINITION. The per-slot chain (R443 to R446), checkpoints (R448, R449), the audit export (R450),
and the frames a device sends its partner (R485, R490, R491). -/
namespace Sys2Proof.Machine
open Sys2Proof

/-! ### Frames to the partner -/

/-- Bytes of the unacknowledged frames (R491). -/
def Pair.heldBytes (p : Pair) : Nat := p.unacked.foldl (fun n f => n + f.2.2.length + 20) 0

/-- A frame as sent (R490): header, payload and the CRC-32 over both. Its ack is the last number taken in order, and its
hb the heartbeat count of the Cantle firmware. -/
def Pair.frame (p : Pair) (kind : Nat) (again : Bool) (seq : Nat) (payload : List Byte) : List Byte :=
  let b := leBytes 1 kind ++ leBytes 1 again.toNat ++ leBytes 2 payload.length ++ leBytes 4 seq
    ++ leBytes 4 ((p.rxSeq + 2 ^ 32 - 1) % 2 ^ 32) ++ leBytes 4 p.hbSent ++ payload
  b ++ leBytes 4 (crc32 b)

/-- Sends the frames that wait, as far as 1 MiB of unacknowledged ones allows: each takes the next sequence
number and is kept until acknowledged (R490, R491). -/
def State.stirrupDrain : Nat → State → State
  | 0, s => s
  | k + 1, s => match s.pair.txWait with
    | (kind, payload) :: rest =>
      if s.pair.heldBytes + payload.length + 20 ≤ 2 ^ 20 then
        let q := s.pair.txSeq
        State.stirrupDrain k { s with
          out := .stirrup (s.pair.frame kind false q payload) :: s.out
          pair := { s.pair with
            txWait := rest, txSeq := (q + 1) % 2 ^ 32, unacked := s.pair.unacked ++ [(kind, q, payload)] } }
      else s
    | [] => s

/-- A frame of types 1 to 4, while the link is up. -/
def State.stirrupSend (s : State) (kind : Nat) (payload : List Byte) : State :=
  if s.pair.link = 2 then
    State.stirrupDrain (s.pair.txWait.length + 1)
      { s with pair := { s.pair with txWait := s.pair.txWait ++ [(kind, payload)] } }
  else s

/-- A mirror frame's payload: kind, slot, group number, state (R490). -/
def mirrorPayload (kind slot group : Nat) (state : List Byte) : List Byte :=
  leBytes 1 kind ++ leBytes 1 slot ++ leBytes 8 group ++ state

/-- Chain state as mirrored: H, next seq, checkpoint number, covered-range start (R485, assumption 20). -/
def SlotChain.mirror (c : SlotChain) : List Byte :=
  padTo 64 c.h ++ leBytes 4 c.seq ++ leBytes 4 c.cpNumber ++ leBytes 4 c.cpFirst

/-- The device owns slot `n` (R483). -/
def State.owns (s : State) (n : Nat) : Bool :=
  let m := s.pair.mode
  if m = 0 ∨ m = 3 ∨ s.pair.owner then true
  else if s.pair.taken.contains n then true
  else if s.pair.moved.contains n then false
  else if m = 1 then s.pair.id == 0
  else bit s.pair.owners n == (s.pair.id == 1)

/-- Modes 1 and 2: the slot's state is mirrored (R485). -/
def State.mirrors (s : State) (n : Nat) : Bool := (s.pair.mode == 1 || s.pair.mode == 2) && s.owns n

def State.mirrorChain (s : State) (n : Nat) : State :=
  if s.mirrors n then s.stirrupSend 3 (mirrorPayload 2 n (s.slot n).chain.closed (s.slot n).chain.mirror) else s

/-! ### Contexts of a slot -/

/-- The detector and the re-identification context of a configuration: its lowest-numbered bound context
and the next (assumption 19). -/
def SlotCfg.det (c : SlotCfg) : Option Nat := c.bound.head?
def SlotCfg.reid (c : SlotCfg) : Option Nat := c.bound[1]?

/-- A context that runs, descheduled ones included: created and not torn down. -/
def Ctx.live (x : Ctx) : Bool := x.st != .free && x.st != .ended && x.st != .tearingDown

/-! ### Entries and groups -/

/-- Header and payload of an entry (R444). -/
def Entry.bytes (e : Entry) : List Byte :=
  leBytes 1 e.typ ++ leBytes 1 e.sub ++ leBytes 2 e.payload.length ++ leBytes 4 0 ++ e.payload

/-- Order within a group (R445): types 1; 3, 5, 6, 7; 4; 8; then what completed since the last close. -/
def Entry.rank (e : Entry) : Nat :=
  let cls := if e.typ = 1 then 0 else if e.typ = 3 then 1 else if e.typ = 5 then 2 else if e.typ = 6 then 3
    else if e.typ = 7 then 4 else if e.typ = 4 then 5 else 6
  cls * 2 ^ 40 + (if e.typ = 4 ∨ e.typ = 8 then e.key2 else 0)

/-- Order of the entries that completed since the previous close: type, then event seq, evid_id or
picture number, then context. -/
def Entry.lateRank (e : Entry) : Nat := (e.typ * 2 ^ 40 + e.key2) * 256 + e.key3

/-- Lock-step follower: its leader decides every forced entry (R453). -/
def State.follower (s : State) : Bool := s.pair.mode == 3 && s.pair.link == 2 && s.pair.id != s.pairSh.leaderId

/-- An entry of group `g`: to the group while it is open, else to the next group to close (R445). -/
def State.chainAdd (s : State) (n g : Nat) (e : Entry) : State :=
  if s.follower && e.forced then s
  else s.modChain n (fun c =>
    if c.groups.any (fun x => x.num == g) then
      { c with groups := modWhere (fun x => x.num == g) (fun x => { x with entries := x.entries ++ [e] }) c.groups }
    else { c with late := c.late ++ [e] })

def State.chainLate (s : State) (n : Nat) (e : Entry) : State :=
  if s.follower && e.forced then s else s.modChain n (fun c => { c with late := c.late ++ [e] })

/-- An entry read back from its bytes, with the keys that order it (R444, R445). -/
def entryOfBytes (b : List Byte) : Entry :=
  let ty := fieldAt b 0 1
  let p := b.drop 8
  { typ := ty, sub := fieldAt b 1 1, payload := p.take (fieldAt b 2 2), forced := true
    key2 := if ty = 4 then fieldAt p 8 4 else if ty = 8 ∨ ty = 9 ∨ ty = 11 then fieldAt p 0 4 else 0
    key3 := if ty = 2 then fieldAt p 0 1 else 0 }

/-- Opens the group of the next released unit: its number (R445); a follower's group takes its leader's
forced entries, or waits for them (R453). -/
def State.openGroup (s : State) (n : Nat) : Nat × State :=
  let g := (s.slot n).chain.nextGroup
  let led := ((s.slot n).chain.leader.find? (fun p => p.1 == g)).map (·.2)
  let wait := (s.follower && led.isNone) || (s.slot n).chain.awaitFinal
  let es := if s.follower then (led.getD []).map entryOfBytes else []
  (g, s.modChain n (fun c => { c with nextGroup := g + 1, groups := c.groups ++ [{ num := g, waiting := wait, entries := es }] }))

/-- The group waits for the leader's forced entries. -/
def State.groupWaits (s : State) (n g : Nat) : Bool := (s.slot n).chain.groups.any (fun x => x.num == g && x.waiting)

/-- H after an entry (R443). -/
def chainStep (h : List Byte) (e : Entry) : List Byte := sha512 (h ++ e.bytes)

/-- The entries of a group in the order they are applied: a gallery link takes its place wherever it was
made since the previous close (R445). -/
def groupOrder (cfg : Option Entry) (g : Group) (late : List Entry) : List Entry :=
  cfg.toList ++ sortBy Entry.rank (g.entries ++ late.filter (fun e => e.typ == 8))
    ++ sortBy Entry.lateRank (late.filter (fun e => e.typ != 8))

/-! ### Checkpoints (R448) -/

/-- Cuts a checkpoint at the group just closed: flags bit 0 lock-step, bit 1 final. -/
def State.cutCheckpoint (s : State) (n flags pts : Nat) : State :=
  let c := (s.slot n).chain
  let det := (s.slot n).cfg.det
  let d := (det.map s.ctx).getD {}
  let r : CutRec := {
    slot := n, number := c.cpNumber, chain := c.h.take 16, first := c.cpFirst, last := (c.seq + 2 ^ 32 - 1) % 2 ^ 32,
    flags := flags, ctx := det.getD 0xFF, imageDigest := d.imageDigest.take 16, weightDigest := d.weightDigest.take 16,
    pts := pts, epoch := c.epoch }
  let s := s.modChain n (fun c => { c with cpNumber := c.cpNumber + 1, cpFirst := c.seq })
  { s with kpr := { s.kpr with queue := s.kpr.queue ++ [r] } }

/-! ### Audit export (R450) -/

def pad8 (bs : List Byte) : List Byte := padTo (alignUp bs.length 8) bs

/-- A group as exported: 32 B header, then entries padded to 8 B. -/
def auditGroup (num : Nat) (es : List Entry) (chain : List Byte) (lost withBytes : Bool) : List Byte :=
  let flags := b2n (es.any (·.forced)) + 2 * b2n lost + 4 * b2n withBytes
  leBytes 8 num ++ leBytes 4 es.length ++ padTo 16 chain ++ leBytes 4 flags
    ++ es.flatMap (fun e => pad8 e.bytes ++ (if withBytes && e.typ == 3 then pad8 e.raw else []))

/-- Writes ring bytes page by page. -/
def State.auditBytes (s : State) (pages : List Nat) (at_ : Nat) (bs : List Byte) : State :=
  let size := pages.length * pageSize
  ((upto 0 bs.length).zip bs).foldl (fun s p =>
    let o := (at_ + p.1) % size
    s.wrByte (pages.getD (o / pageSize) 0 * pageSize + o % pageSize) p.2) s

/-- Sends an exported group to the collector of the slot's checkpoint records (R450, R533, assumption 131). -/
def State.auditPush (s : State) (n : Nat) (bs : List Byte) : State :=
  let k := s.routeColl n 5
  let body := leBytes 1 n ++ leBytes 3 0 ++ bs
  if k < 16 ∧ (s.coll k).enable ∧ (s.coll k).up ∧ body.length < 65536 then s.emit (.blp k (blpFrame 9 0 0 body)) else s

/-- Exports a closed group; one that finds no room is not written, and the next carries flag bit 1. -/
def State.auditWrite (s : State) (n num : Nat) (es : List Entry) : State :=
  let x := s.slot n
  let c := x.chain
  if x.cfg.audit.enable && !c.audPages.isEmpty then
    let bs := auditGroup num es (c.h.take 16) c.audLost x.cfg.audit.withBytes
    let size := c.audPages.length * pageSize
    let tail := s.odNum (0x2900 + n) 5
    if c.audHead - tail + bs.length ≤ size then
      ((s.auditBytes c.audPages c.audHead bs).modChain n (fun c =>
        { c with audHead := c.audHead + bs.length, audLost := false })).auditPush n bs
    else s.modChain n (fun c => { c with audLost := true })
  else s

/-! ### Lock-step comparison (R454, R455) -/

/-- The first 16 B of SHA-512 over an entry. -/
def Entry.prefix16 (e : Entry) : List Byte := (sha512 e.bytes).take 16

/-- Index and type of the first entry that differs; with every entry equal, the computation differs. -/
def firstDiff : Nat → List (Nat × List Byte) → List (List Byte) → Nat × Nat
  | i, (t, p) :: xs, q :: ys => if p = q then firstDiff (i + 1) xs ys else (i, t)
  | i, (t, _) :: _, [] => (i, t)
  | i, [], _ => (i, 10)

/-- The divergence checkpoint at the value last reached: the cut made at that group, still unsigned, takes its flags,
and without one a checkpoint is cut (R449, R455). -/
def State.divergeCut (s : State) (n : Nat) : State :=
  let c := (s.slot n).chain
  let here := fun (r : CutRec) =>
    r.slot == n && r.epoch == c.epoch && r.number + 1 == c.cpNumber && decide (c.cpFirst = c.seq) && decide (r.chain = c.h.take 16)
  if s.kpr.queue.any here then { s with kpr := { s.kpr with queue := modWhere here (fun r => { r with flags := 3 }) s.kpr.queue } }
  else s.cutCheckpoint n 3 c.lastPts

/-- A slot diverges at a group: the record, a checkpoint with the lock-step and final flags, and no more
comparison until the slot is reconfigured. -/
def State.diverge (s : State) (n g unit : Nat) (value : List Byte) : State :=
  let s := s.modChain n (fun c => { c with diverged := true, values := [], partner := [] })
  let s := s.raise {
    code := fltPairDiverge, ctx := (s.slot n).cfg.det.getD 0xFF, unit := unit, detail := g % 2 ^ 32
    addr := leNat (value.take 8), slot := n }
  s.divergeCut n

/-- Compares the groups of a slot that both devices have closed, and the lag between them. -/
def State.compareFrom (n : Nat) : Nat → State → State
  | 0, s => s
  | k + 1, s =>
    let c := (s.slot n).chain
    let late := fun (len g : Nat) => if s.pairSh.lagMax < len then s.diverge n g 0xFF (c.h.take 16) else s
    match c.values, c.partner with
    | v :: vs, p :: ps =>
      if v.1 = p.1 then
        if v.2.1 = p.2.1 then
          State.compareFrom n k (s.modChain n (fun c => { c with values := vs, partner := ps }))
        else
          let d := firstDiff 0 v.2.2 p.2.2
          s.diverge n v.1 (d.1 * 256 + d.2) v.2.1
      else if v.1 < p.1 then State.compareFrom n k (s.modChain n (fun c => { c with values := vs }))
      else State.compareFrom n k (s.modChain n (fun c => { c with partner := ps }))
    | v :: vs, [] => late (vs.length + 1) v.1
    | [], p :: ps => late (ps.length + 1) p.1
    | [], [] => s

def State.compareChain (s : State) (n : Nat) : State :=
  if (s.slot n).chain.diverged then s
  else State.compareFrom n ((s.slot n).chain.values.length + (s.slot n).chain.partner.length + 1) s

/-! ### Closing a group (R445, R448) -/

/-- The digest of the slot's stream-level entries (R444). -/
def State.entriesDigest (s : State) (n : Nat) : List Byte := sha512 (s.streamEntries n)

/-- Applies group `g` of slot `n`: its entries in order, the export, the interval checkpoint where an
output picture has seq mod checkpoint_every = checkpoint_every − 1, and the mirror. -/
def State.closeGroup (s : State) (n g : Nat) : State :=
  let x := s.slot n
  match x.chain.groups.find? (fun y => y.num == g) with
  | none => s
  | some grp =>
    let leads := s.pair.mode == 3 && s.pair.link == 2 && !s.follower
    let forced := (grp.entries ++ x.chain.late).filter (·.forced)
    let s := if leads then s.stirrupSend 3 (mirrorPayload 8 n g (forced.flatMap Entry.bytes)) else s
    let cfg := if x.chain.cfgChange then some { typ := 1, sub := 0, payload := s.entriesDigest n : Entry } else none
    let es := groupOrder cfg grp x.chain.late
    let rest := x.chain.groups.filter (fun y => y.num != g)
    let final := x.chain.finalDue && rest.isEmpty
    let s := s.modChain n (fun c => { c with
      h := es.foldl chainStep c.h, closed := g + 1, late := [], cfgChange := false, groups := rest
      lastPts := ((grp.outs.getLast?).map (·.2)).getD c.lastPts, finalDue := c.finalDue && !final })
    let s := s.auditWrite n g (if g = 0 then { typ := 0, sub := 0, payload := x.chain.genesis } :: es else es)
    let every := x.cfg.stream.checkpointEvery
    let s : State := match grp.outs.find? (fun p => p.1 % every == every - 1) with
      | some p => s.cutCheckpoint n (2 * b2n final) p.2
      | none => if final then s.cutCheckpoint n 2 (s.slot n).chain.lastPts else s
    let s := s.mirrorChain n
    if s.pair.mode = 3 ∧ s.pair.link = 2 then
      ((s.stirrupSend 3 (mirrorPayload 2 n g (s.chainValue n))).modChain n (fun c =>
        if c.diverged then c
        else { c with values := c.values ++ [(g, c.h.take 16, es.map (fun e => (e.typ, e.prefix16)))] })).compareChain n
    else s

/-- Closes open groups up to and including `g`, oldest first. -/
def State.closeThrough (s : State) (n g : Nat) : State :=
  (((s.slot n).chain.groups.map (·.num)).filter (fun k => decide (k ≤ g))).foldl (fun s k => s.closeGroup n k) s

/-- Closes, oldest first, the groups whose decode has ended and whose pictures have all been finished; a
follower's group waits for its leader (R445, R453). -/
def State.settleFrom (n : Nat) : List Group → State → State
  | [], s => s
  | g :: t, s =>
    if g.ended && !g.waiting && !((s.slot n).pics.any (fun p => p.group == g.num)) then
      State.settleFrom n t (s.closeGroup n g.num)
    else s

def State.settleGroups (s : State) (n : Nat) : State := State.settleFrom n (s.slot n).chain.groups s

/-- A new configuration of the slot: genesis, seq and checkpoint numbers from 0 (R337, R443, R448). -/
def State.genesis (s : State) (n : Nat) : State :=
  let fw := match tget none s.flash.slots (4 + tget 0 s.boot.from2 2) with | some c => c.fwVersion | none => 0
  let e : Entry := { typ := 0, sub := 0, payload := leBytes 1 n ++ leBytes 4 fw ++ s.entriesDigest n }
  s.modChain n (fun c => {
    h := sha512 (ascii "QSCHAIN1" ++ e.bytes), epoch := c.epoch + 1, oldSeq := c.seq, genesis := e.payload
    audPages := c.audPages, audHead := c.audHead })

/-! ### Signed checkpoints (R343, R449) -/

/-- Bytes 32 to 95 of the record. -/
def CutRec.body (r : CutRec) (fw : Nat) : List Byte :=
  leBytes 4 r.number ++ leBytes 4 r.first ++ leBytes 4 r.last ++ leBytes 1 r.ctx ++ leBytes 1 r.flags ++ leBytes 2 0
    ++ (sha512 Config.devicePublicKey).take 8 ++ padTo 16 r.imageDigest ++ padTo 16 r.weightDigest
    ++ leBytes 4 fw ++ leBytes 4 0

/-- The oldest cut's signature is ready: its record takes the seq then due in the configuration of the
cut; a final checkpoint of an earlier configuration takes the seq after its last record. -/
def State.checkpointSigned (s : State) : State :=
  match s.kpr.queue with
  | [] => s
  | r :: rest =>
    let s := { s with kpr := { s.kpr with queue := rest, signed := (s.kpr.signed + 1) % 2 ^ 64 } }
    let fw := match tget none s.flash.slots (4 + tget 0 s.boot.from2 2) with | some c => c.fwVersion | none => 0
    let c := (s.slot r.slot).chain
    let cur := decide (r.epoch = c.epoch)
    let seq := if cur then c.seq else c.oldSeq
    let head := (streamRecord r.slot 5 seq r.pts r.chain (r.body fw ++ copies 64 0#8)).take 96
    let body := r.body fw ++ padTo 64 (Config.deviceSign head)
    if cur then (s.streamOutWith r.slot 5 r.pts r.chain body).mirrorChain r.slot
    else (s.modChain r.slot (fun c => { c with oldSeq := (c.oldSeq + 1) % 2 ^ 32 })).route r.slot 5
      (streamRecord r.slot 5 seq r.pts r.chain body)

def execCheckpointSigned (s : State) : Host.Outcome State Fault Refusal := whenUp s s.checkpointSigned

end Sys2Proof.Machine
end

