-- ==== Sys2Proof/Machine/Tack.lean ====
section
/-! DEFINITION. The Tack pool (R408 to R423, R596): pages, reservations, frame buffers and their
reference counts, zeroing. -/
namespace Sys2Proof.Machine
open Sys2Proof

/-! ### Pools and reservations -/

def numPages : Nat := 262144

/-- Pages of a pool: 0 system, 1 video slot part, 2 general, 3 evidence part (R65, R96, R412). -/
def State.poolSize (s : State) (pool : Nat) : Nat :=
  let video := s.odNat 0x2000 1 24 * 4096
  let evid := s.odNat 0x2000 2 4 * 4096
  let total := if s.mem.lostDie = none then numPages else numPages / 2
  if pool = 0 then 4096 else if pool = 1 then video - evid else if pool = 3 then evid
  else total - 4096 - video - s.mem.retired.length

/-- Pages held against a pool by its reservations (R413). -/
def State.poolHeld (s : State) (pool : Nat) : Nat :=
  s.tkp.res.foldl (fun n r => if r.2.active && r.2.pool == pool then n + r.2.count else n) 0

/-- A reservation's pages still to allocate. -/
def Reserv.left (r : Reserv) : Nat := if r.active then r.count - r.used else 0

/-- A page that an assignment may use: free or zeroing, on a die in use. -/
def State.pageAvail (s : State) (p : Nat) : Bool :=
  ((s.page p).st == .free || (s.page p).st == .zeroing) && s.mem.lostDie != some (dieOf (p % 64))

/-- Supply of a channel pair (c, its partner): available pages and rows with both available and neither
retired (R409, R596). Unlisted pages are free. -/
structure Supply where
  chan : Nat
  total : Nat
  pairs : Nat
  deriving DecidableEq, Repr

def State.supply (s : State) (c : Nat) : Supply :=
  let c' := s.partner c
  let gone := s.tkp.pages.filter (fun p =>
    (p.1 % 64 == c || p.1 % 64 == c') && !(p.2.st == .free || p.2.st == .zeroing))
  let rows := gone.foldl (fun (rs : List Nat) p => if rs.contains (p.1 / 64) then rs else p.1 / 64 :: rs) []
  ⟨c, 8192 - gone.length, 4096 - rows.length⟩

/-- The channel pairs of the dies in use. -/
def State.supplies (s : State) : List Supply :=
  match s.mem.lostDie with
  | none => (upto 0 32).map s.supply
  | some d => (upto (if d = 0 then 32 else 0) 16).map s.supply

/-- A demand: pages (or Class P pairs) still to allocate on a symmetric channel set (R376, R378). -/
structure Demand where
  set : Nat
  isP : Bool
  n : Nat
  deriving DecidableEq, Repr

/-- Greedy assignment of one demand over the supplies: what is left of both. -/
def greedy (d : Demand) : List Supply → Nat × List Supply
  | [] => (d.n, [])
  | u :: us =>
    if bit d.set u.chan then
      let k := if d.isP then min d.n (min u.pairs (u.total / 2)) else min d.n u.total
      let u' := if d.isP then { u with total := u.total - 2 * k, pairs := u.pairs - k }
                else { u with total := u.total - k }
      let r := greedy { d with n := d.n - k } us
      (r.1, u' :: r.2)
    else
      let r := greedy d us
      (r.1, u :: r.2)

/-- Every demand met greedily, in the order given. -/
def greedyAll : List Demand → List Supply → Bool
  | [], _ => true
  | d :: ds, us => match greedy d us with
    | (0, us') => greedyAll ds us'
    | _ => false

/-- Every way to give pages of one channel pair to the demands, tried in turn. -/
def giveAll (u : Supply) (k : List Demand → Bool) : List Demand → List Demand → Bool
  | [], done => k done.reverse
  | d :: ds, done =>
    let most := if bit d.set u.chan then (if d.isP then min d.n (min u.pairs (u.total / 2)) else min d.n u.total) else 0
    (upto 0 (most + 1)).any (fun g =>
      giveAll (if d.isP then { u with total := u.total - 2 * g, pairs := u.pairs - g }
               else { u with total := u.total - g }) k ds ({ d with n := d.n - g } :: done))

/-- An assignment exists (R596): exact search, channel pair by channel pair. -/
def assignExact : List Supply → List Demand → Bool
  | [], ds => ds.all (fun d => d.n == 0)
  | u :: us, ds => giveAll u (assignExact us) ds []

/-- Pages of the supplies in a set. -/
def supplyIn (set : Nat) (us : List Supply) : Nat :=
  us.foldl (fun n u => if bit set u.chan then n + u.total else n) 0

/-- R596: greedy success is an assignment; a demand larger than its set's pages, or all demands larger
than all pages, excludes one; otherwise the exact search decides. -/
def assignable (us : List Supply) (ds : List Demand) : Bool :=
  let pages := fun (d : Demand) => if d.isP then 2 * d.n else d.n
  if greedyAll (ds.filter (·.isP) ++ ds.filter (fun d => !d.isP)) us then true
  else if ds.any (fun d => supplyIn d.set us < pages d)
          || decide ((us.map (·.total)).foldl (· + ·) 0 < (ds.map pages).foldl (· + ·) 0) then false
  else assignExact us ds

/-- What every active reservation still has to allocate. -/
def State.demands (s : State) : List Demand :=
  s.tkp.res.filterMap (fun r =>
    if r.2.left = 0 then none
    else some ⟨r.2.channels, r.2.cls == 1, if r.2.cls = 1 then (r.2.left + 1) / 2 else r.2.left⟩)

/-- Every reservation can still be satisfied (R410, R596). -/
def State.satisfiable (s : State) : Bool := assignable s.supplies s.demands

/-- A reservation of `count` pages (Class P pages counted twice): its number, or none where the pool or
the channel set cannot hold it (R413, R596). The lowest free number is taken (assumption 11). -/
def State.reserve (s : State) (pool count cls channels : Nat) : Option (Nat × State) :=
  if s.poolHeld pool + count ≤ s.poolSize pool then
    match (upto 0 1024).find? (fun n => !(s.reserv n).active) with
    | some n =>
      let s' := s.modReserv n (fun _ =>
        { active := true, pool := pool, count := count, cls := cls, channels := channels })
      if s'.satisfiable then some (n, s') else none
    | none => none
  else none

/-! ### Pages -/

/-- Handle of a page (R411). -/
def pageHandle (gen p : Nat) : Nat := gen * 2 ^ 18 + p

/-- Downward and upward search. -/
def findDown (p : Nat → Bool) : Nat → Option Nat
  | 0 => none
  | n + 1 => if p n then some n else findDown p n

def findUp (p : Nat → Bool) (a : Nat) : Nat → Option Nat
  | 0 => none
  | n + 1 => if p a then some a else findUp p (a + 1) n

/-- The page passes to its holder (R408). -/
def State.holdPage (s : State) (p res cls : Nat) (retain : Bool) : State :=
  s.modPage p (fun g => { g with st := .held, cls := cls, holder := res, retain := retain })

/-- The state after reservation `res` has taken page `p` (and its partner for Class P). -/
def State.takePage (s : State) (res p cls : Nat) (retain : Bool) : State :=
  let s := s.holdPage p res cls retain
  if cls = 1 then
    (s.holdPage (s.partner p) res cls retain).modReserv res
      (fun r => { r with used := r.used + 2, pairs := r.pairs + 1 })
  else s.modReserv res (fun r => { r with used := r.used + 1 })

/-- Page `p` may be allocated to `res` from pages in state `st`, free or zeroing; a Class P pair is one that is zeroing where
either page is (R409, R410, R414). -/
def State.canTake (s : State) (res cls : Nat) (st : PageSt) (p : Nat) : Bool :=
  let r := s.reserv res
  let ok := fun q => s.pageAvail q && bit r.channels (q % 64)
  let q := s.partner p
  ok p && (cls != 1 || (ok q && (s.mem.lostDie.isSome || dieOf (p % 64) == r.pairs % 2)))
    && ((s.page p).st == .zeroing || (cls == 1 && (s.page q).st == .zeroing)) == (st == .zeroing)
    && (s.takePage res p cls false).satisfiable

/-- The page R410 chooses: lowest-numbered with retain, else highest-numbered. -/
def State.choosePage (s : State) (res cls : Nat) (retain : Bool) (st : PageSt) : Option Nat :=
  if retain then findUp (s.canTake res cls st) 0 numPages else findDown (s.canTake res cls st) numPages

/-- The reservation has room for an allocation of the class. -/
def State.resRoom (s : State) (res cls : Nat) : Bool :=
  decide ((if cls = 1 then 2 else 1) ≤ (s.reserv res).left)

/-- Zeroing of a page completes: it reads zero with valid checks and is free (R408, R419). -/
def State.pageZeroed (s : State) (p : Nat) : State :=
  let s := s.zero (p * pageSize) pageSize
  let s := { s with mem := { s.mem with
    failing := s.mem.failing.filter (fun l => decide (l.1 / pageSize ≠ p)),
    cache := s.mem.cache.filter (fun l => decide (l.1 / pageSize ≠ p)) } }
  let s := s.modChan (p % 64) (fun c => { c with
    zeroing := without p c.zeroing,
    merges := c.merges.filter (fun m => decide (m.line / pageSize ≠ p)) })
  s.modPage p (fun g => { g with st := .free, cls := 0, holder := 0, retain := false, gen := (g.gen + 1) % 2 ^ 12 })

/-- A page enters zeroing (R419). -/
def State.pageToZero (s : State) (p : Nat) : State :=
  (s.modPage p (fun g => { g with st := .zeroing })).modChan (p % 64)
    (fun c => { c with zeroing := c.zeroing ++ [p] })

/-- An allocation inside the device: a free page, else the zeroing page R410 would choose, whose
zeroing it waits for (R414; the wait itself is time, assumption 12). -/
def State.allocPage (s : State) (res cls : Nat) (retain : Bool) : Option (Nat × State) :=
  if !s.resRoom res cls then none
  else match s.choosePage res cls retain .free with
    | some p => some (p, s.takePage res p cls retain)
    | none => match s.choosePage res cls retain .zeroing with
      | some p =>
        let zeroed := fun (s : State) q => if (s.page q).st = .zeroing then s.pageZeroed q else s
        some (p, ((if cls = 1 then [p, s.partner p] else [p]).foldl zeroed s).takePage res p cls retain)
      | none => none

/-- `n` allocations. -/
def State.allocPages (s : State) (res cls : Nat) (retain : Bool) : Nat → List Nat → Option (List Nat × State)
  | 0, acc => some (acc.reverse, s)
  | n + 1, acc => match s.allocPage res cls retain with
    | some (p, s') => State.allocPages s' res cls retain n (p :: acc)
    | none => none

/-- Frees a held page, and the pair's other page for Class P (R420). -/
def State.freeHeld (s : State) (p : Nat) : State :=
  let g := s.page p
  if g.st == .held then
    let s := (s.pageToZero p).modReserv g.holder (fun r => { r with used := r.used - 1 })
    if g.cls = 1 ∧ (s.page (s.partner p)).st = .held then
      (s.pageToZero (s.partner p)).modReserv g.holder (fun r => { r with used := r.used - 1 })
    else s
  else s

/-- A reservation ends: its pages enter zeroing (R419). -/
def State.endReserv (s : State) (res : Nat) : State :=
  let mine := s.tkp.pages.filterMap (fun p => if p.2.st == .held && p.2.holder == res then some p.1 else none)
  let s := if (s.reserv res).active then mine.foldl State.pageToZero s else s
  s.modReserv res (fun _ => {})

/-! ### Frame buffers (R415 to R418) -/

/-- Handle of a frame buffer (R411). -/
def fbHandle (gen i : Nat) : Nat := 2 ^ 30 + gen * 2 ^ 17 + i

def fbIndex (h : Nat) : Nat := h % 2 ^ 17
def fbGen (h : Nat) : Nat := h / 2 ^ 17 % 2 ^ 13

/-- Sizes of a buffer: frame and motion field (R65). -/
def frameBytes (w h depth : Nat) : Nat :=
  alignUp w 64 * alignUp h 64 * (if depth = 8 then 3 else 6) / 2
def fieldBytes (w h : Nat) : Nat := alignUp (64 + ceilDiv w 16 * ceilDiv h 16 * 8) 65536

/-- Pages of an extent of `n` buffers (R65, R415). -/
def extentPages (w h depth n : Nat) : Nat := ceilDiv (n * (frameBytes w h depth + fieldBytes w h)) 65536

/-- Assigns indices to `n` buffers of an extent: each takes the lowest free index (R415). -/
def State.assignFbs (s : State) (ext slot : Nat) : Nat → Nat → List Nat → List Nat × State
  | 0, _, acc => (acc.reverse, s)
  | n + 1, i, acc =>
    match findUp (fun k => !(s.fb k).inUse) 0 131072 with
    | some k =>
      State.assignFbs (s.modFb k (fun f => { f with inUse := true, slot := slot, extent := ext, pos := i })) ext slot n
        (i + 1) (k :: acc)
    | none => (acc.reverse, s)

/-- Forms an extent of `n` buffers with pages of reservation `res` (R415). -/
def State.formExtent (s : State) (slot : Nat) (evidence : Bool) (w h depth n res : Nat) : Option State :=
  match s.allocPages res 0 false (extentPages w h depth n) [] with
  | none => none
  | some (pages, s) =>
    let id := s.tkp.nextExtent
    let r := s.assignFbs id slot n 0 []
    let x : Extent := {
      slot := slot, evidence := evidence, bufSize := frameBytes w h depth + fieldBytes w h,
      frame := frameBytes w h depth, w := w, h := h, depth := depth, pages := pages, res := res, first := r.1 }
    some { r.2 with tkp := { r.2.tkp with extents := tset none r.2.tkp.extents id (some x), nextExtent := id + 1 } }

/-- Device address of byte `o` of a frame buffer, through the extent's page list (R415). -/
def State.fbAddr (s : State) (h o : Nat) : Nat :=
  let f := s.fb (fbIndex h)
  match tget none s.tkp.extents f.extent with
  | some x => let b := f.pos * x.bufSize + o; x.pages.getD (b / pageSize) 0 * pageSize + b % pageSize
  | none => 0

/-- Bytes of a frame buffer from offset `o`, page by page. -/
def State.fbBytes (s : State) (h o n : Nat) : List Byte := (upto o n).map (fun k => s.rdByte (s.fbAddr h k))

/-- Writes bytes at offset `o` of a frame buffer, with fresh checks (R69, R84). -/
def State.fbStore (s : State) (ways h o : Nat) (bs : List Byte) : State :=
  (chunks pageSize (bs.length / pageSize + 2) (copies (o % pageSize) 0#8 ++ bs)).foldl
    (fun (acc : Nat × State) piece =>
      let body := if acc.1 = o then piece.drop (o % pageSize) else piece
      (acc.1 + body.length, acc.2.store ways (s.fbAddr h acc.1) body)) (o, s) |>.2

/-- Buffers in the slot's quota: live and not charged to the evidence reservation (R67, R68, R416). -/
def State.quotaUsed (s : State) (slot : Nat) : Nat :=
  (s.tkp.fbs.filter (fun f => f.2.inUse && f.2.live && f.2.slot == slot && !f.2.evCharge
    && (match tget none s.tkp.extents f.2.extent with | some x => !x.old | none => false))).length

/-- Pages of the evidence holds beyond those reserved under R97: of each extent's charged buffers more than the slot's evidence
buffers (R96, R114). -/
def State.holdsBeyond (s : State) : Nat :=
  (s.tkp.extents.filterMap (fun p => p.2.map (fun x => (p.1, x)))).foldl (fun n p =>
    let mine := fun (ev : Bool) (q : Nat × Extent) => q.2.slot == p.2.slot && q.2.evidence == ev
    let all := s.tkp.extents.filterMap (fun q => q.2.map (fun x => (q.1, x)))
    let have_ := ((all.filter (mine true)).map (fun q => q.2.first.length)).foldl (· + ·) 0
    let charged := (s.tkp.fbs.filter (fun f => f.2.live && f.2.evCharge && f.2.slot == p.2.slot)).length
    if p.2.evidence || (all.filter (mine false)).head?.map (·.1) != some p.1 then n
    else n + ((charged - have_) * p.2.bufSize + pageSize - 1) / pageSize) 0

/-- The slot's current extents. -/
def State.slotExtents (s : State) (slot : Nat) : List (Nat × Extent) :=
  s.tkp.extents.filterMap (fun p => match p.2 with
    | some x => if x.slot = slot ∧ !x.old then some (p.1, x) else none
    | none => none)

/-- `bufs` of the slot: the buffers of its slot extent (R65). -/
def State.bufsOf (s : State) (slot : Nat) : Nat :=
  ((s.slotExtents slot).filter (fun x => !x.2.evidence)).foldl (fun n x => n + x.2.first.length) 0

/-- FB_GET: any free buffer of the slot's two extents (a free choice), unless the quota is full (R416). -/
def State.fbGet (s : State) (slot : Nat) : Option (Nat × State) :=
  let free := (s.slotExtents slot).flatMap (fun x => x.2.first.filter (fun i => !(s.fb i).live))
  if s.bufsOf slot ≤ s.quotaUsed slot then none
  else match free with
    | [] => none
    | i :: _ =>
      let d := s.draw 17
      let k := free.getD (d.1 % free.length) i
      some (fbHandle (s.fb k).gen k, d.2.modFb k (fun f => { f with live := true, refs := 1, ev := 0, evCharge := false }))

/-- What a reference command answers: done, or a fault with its detail (R417, R418). -/
inductive TkpRes where | ok | fault (code detail : Nat)
  deriving DecidableEq, Repr

/-- The kind check of a frame-buffer command and its liveness and generation (R418). -/
def State.fbCheck (s : State) (h : Nat) (release : Bool) : TkpRes :=
  let f := s.fb (fbIndex h)
  if h / 2 ^ 30 ≠ 1 then .fault fltTkpHandle 2
  else if !f.inUse || !f.live then .fault (if release then fltTkpDoubleFree else fltTkpHandle) 0
  else if f.gen ≠ fbGen h then .fault (if release then fltTkpDoubleFree else fltTkpHandle) 1
  else .ok

/-- FB_TAKE and FB_TAKE_EV. -/
def State.fbTake (s : State) (h : Nat) (ev : Bool) : TkpRes × State :=
  match s.fbCheck h false with
  | .fault c d => (.fault c d, s)
  | .ok =>
    let f := s.fb (fbIndex h)
    if 65535 ≤ f.refs ∨ (ev ∧ 255 ≤ f.ev) then (.fault fltTkpRefcount 0, s)
    else (.ok, s.modFb (fbIndex h) (fun f =>
      { f with refs := f.refs + 1, ev := f.ev + b2n ev, evCharge := f.evCharge || ev }))

/-- The indices of an old extent return and its pages enter zeroing when its last buffer is free (R415). -/
def State.settleExtent (s : State) (id : Nat) : State :=
  match tget none s.tkp.extents id with
  | some x =>
    if x.old && !(x.first.any (fun i => (s.fb i).live)) then
      let s := x.first.foldl (fun s i => s.modFb i (fun f => { gen := f.gen })) s
      let s := s.endReserv x.res
      { s with tkp := { s.tkp with extents := tset none s.tkp.extents id none } }
    else s
  | none => s

/-- FB_DROP and FB_DROP_EV. -/
def State.fbDrop (s : State) (h : Nat) (ev : Bool) : TkpRes × State :=
  match s.fbCheck h true with
  | .fault c d => (.fault c d, s)
  | .ok =>
    let f := s.fb (fbIndex h)
    if (if ev then f.ev = 0 else f.refs = f.ev) then (.fault fltTkpDoubleFree 2, s)
    else
      let last := decide (f.refs = 1)
      let s := s.modFb (fbIndex h) (fun f =>
        if last then { f with refs := 0, ev := 0, live := false, evCharge := false, gen := (f.gen + 1) % 2 ^ 13 }
        else { f with refs := f.refs - 1, ev := f.ev - b2n ev,
                      evCharge := f.evCharge && !(ev && f.ev == 1) })
      (.ok, if last then s.settleExtent f.extent else s)

/-- A refused command: counted, and its fault raised with the issuing context (R417, R418, R423). -/
def State.tkpFault (s : State) (ctx code detail unit addr : Nat) : State :=
  ({ s with tkp := { s.tkp with faults := (s.tkp.faults + 1) % 2 ^ 64 } }).raise
    { code := code, ctx := ctx, unit := unit, detail := detail, addr := addr }

/-- A device service's reference command; a refusal raises its fault outside any context. -/
def State.fbTakeSvc (s : State) (h : Nat) (ev : Bool) : State :=
  match s.fbTake h ev with
  | (.ok, s) => s
  | (.fault c d, s) => s.tkpFault 0xFF c d 0 h

def State.fbDropSvc (s : State) (h : Nat) (ev : Bool) : State :=
  match s.fbDrop h ev with
  | (.ok, s) => s
  | (.fault c d, s) => s.tkpFault 0xFF c d 0 h

/-- The slot's extents belong to a previous configuration from now on (R415). -/
def State.retireExtents (s : State) (slot : Nat) : State :=
  (s.slotExtents slot).foldl (fun s x =>
    let xs := tset none s.tkp.extents x.1 (some { x.2 with old := true })
    ({ s with tkp := { s.tkp with extents := xs } }).settleExtent x.1) s

/-! ### Cantle commands (R422, R423) -/

def State.tkpResult (s : State) (handle status : Nat) : State :=
  { s with tkp := { s.tkp with result := handle, done := true, status := status } }

/-- A page that an allocation waits for is zeroed next on its channel, after the page in progress (R419). -/
def State.zeroNext (s : State) (p : Nat) : State :=
  if (s.page p).st != .zeroing then s
  else s.modChan (p % 64) (fun c => match c.zeroing with
    | h :: t => if h = p then c else { c with zeroing := h :: p :: without p t }
    | [] => c)

/-- An ALLOC_PAGE of the Cantle: it may wait for a zeroing page, and later commands wait behind it
(R410, R414). Class 3 names no class and is illegal (assumption 113). -/
def State.cmdAlloc (s : State) (w : Nat) : State :=
  let res := bits w 13 4
  let cls := bits w 15 14
  let retain := bit w 16
  if cls = 3 then s.tkpResult 0xFFFFFFFF 3
  else if !s.resRoom res cls then s.tkpResult 0xFFFFFFFF 1
  else match s.choosePage res cls retain .free with
    | some p => (s.takePage res p cls retain).tkpResult (pageHandle (s.page p).gen p) 0
    | none => match s.choosePage res cls retain .zeroing with
      | some p =>
        let s := (if cls = 1 then [p, s.partner p] else [p]).foldl State.zeroNext s
        { s with tkp := { s.tkp with done := false, waiting := some (res, cls, retain, p) } }
      | none => s.tkpResult 0xFFFFFFFF 1

/-- FREE_PAGE (R418 to R420). -/
def State.cmdFree (s : State) (h : Nat) : State :=
  let p := h % 2 ^ 18
  let g := s.page p
  let bad := fun code d => (s.tkpResult 0xFFFFFFFF 4).tkpFault 0xFF code d 0 h
  if h / 2 ^ 30 ≠ 0 then bad fltTkpHandle 2
  else if g.st ≠ .held then bad fltTkpDoubleFree 0
  else if g.gen ≠ h / 2 ^ 18 % 2 ^ 12 then bad fltTkpDoubleFree 1
  else (s.freeHeld p).tkpResult h 0

def State.cmdFb (s : State) (h : Nat) (r : TkpRes × State) : State :=
  match r with
  | (.ok, s') => s'.tkpResult h 0
  | (.fault c d, s') => (s'.tkpResult 0xFFFFFFFF 4).tkpFault 0xFF c d 0 h

/-- One command word (R422). -/
def State.tkpCmd (s : State) (w : Nat) : State :=
  let op := w % 16
  let h := w / 2 ^ 32
  if op = 0 then s.cmdAlloc w
  else if op = 1 then s.cmdFree h
  else if op = 2 then
    match s.fbGet (bits w 13 4) with
    | some (h, s) => s.tkpResult h 0
    | none => s.tkpResult 0xFFFFFFFF 2
  else if op = 3 then s.cmdFb h (s.fbTake h false)
  else if op = 4 then s.cmdFb h (s.fbDrop h false)
  else if op = 5 then s.cmdFb h (s.fbTake h true)
  else if op = 6 then s.cmdFb h (s.fbDrop h true)
  else s.tkpResult 0xFFFFFFFF 3

/-- A command word reaches the pool: it waits behind an allocation that waits (R414). -/
def State.tkpSubmit (s : State) (w : Nat) : State :=
  if s.tkp.waiting.isSome then { s with tkp := { s.tkp with blocked := s.tkp.blocked ++ [w], done := false } }
  else s.tkpCmd w

/-- The commands behind a wait run in order, up to the next wait. -/
def State.tkpDrain : List Nat → State → State
  | [], s => s
  | w :: ws, s =>
    if s.tkp.waiting.isSome then { s with tkp := { s.tkp with blocked := w :: ws } }
    else State.tkpDrain ws (s.tkpCmd w)

/-- BAR0 offset of TKP_CMD. -/
def tkpCmdOff : Nat := 0x140000

/-- The high-word write of TKP_CMD with op `op` in the held low word; without a held low word the write
is discarded (R8, R422). -/
def tkpRow (p : Nat → Bool) (route : Route) (high : Nat) (s : State) : Host.Outcome State Fault Refusal :=
  let r := s.takeHeld route tkpCmdOff high
  whenUp s (match (if s.reaches route tkpCmdOff then r.1 else none) with
    | some w => if p (w % 16) then r.2.tkpSubmit w else s
    | none => s)

def execAllocPage (route : Route) (high : Nat) (s : State) : Host.Outcome State Fault Refusal :=
  tkpRow (· == 0) route high s
def execFreePage (route : Route) (high : Nat) (s : State) : Host.Outcome State Fault Refusal :=
  tkpRow (· == 1) route high s
def execFbGet (route : Route) (high : Nat) (s : State) : Host.Outcome State Fault Refusal :=
  tkpRow (· == 2) route high s
def execFbTake (route : Route) (high : Nat) (s : State) : Host.Outcome State Fault Refusal :=
  tkpRow (· == 3) route high s
def execFbDrop (route : Route) (high : Nat) (s : State) : Host.Outcome State Fault Refusal :=
  tkpRow (· == 4) route high s
def execFbTakeEv (route : Route) (high : Nat) (s : State) : Host.Outcome State Fault Refusal :=
  tkpRow (· == 5) route high s
def execFbDropEv (route : Route) (high : Nat) (s : State) : Host.Outcome State Fault Refusal :=
  tkpRow (· == 6) route high s
def execTkpIllegalCommand (route : Route) (high : Nat) (s : State) : Host.Outcome State Fault Refusal :=
  tkpRow (fun op => decide (7 ≤ op)) route high s

/-- A channel's page in zeroing completes; an allocation that waited for it is served, and the commands
behind it run (R414, R419). -/
def State.zeroingDone (s : State) (p : Nat) : State :=
  if (s.chan (p % 64)).zeroing.head? = some p then
    let s := s.pageZeroed p
    match s.tkp.waiting with
    | some (res, cls, retain, q) =>
      let ready := (s.page q).st == .free && (cls != 1 || (s.page (s.partner q)).st == .free)
      if ready then
        let behind := s.tkp.blocked
        let s := { s with tkp := { s.tkp with waiting := none, blocked := [] } }
        State.tkpDrain behind ((s.takePage res q cls retain).tkpResult (pageHandle (s.page q).gen q) 0)
      else s
    | none => s
  else s

def execPageZeroingComplete (page : Nat) (s : State) : Host.Outcome State Fault Refusal :=
  whenUp s (s.zeroingDone page)

end Sys2Proof.Machine
end

