-- ==== Sys2Proof/Machine/Energy.lean ====
section
/-! DEFINITION. Rein's energy ledger and energy admission (R456 to R458, R597), in pW. -/
namespace Sys2Proof.Machine
open Sys2Proof

/-- Rows of the leakage table (R597): junction °C, mW. -/
def leakTable : List (Nat × Nat) := [(25, 8000), (45, 13000), (65, 21000), (85, 33500), (105, 53000)]

/-- Leakage in mW between rows, rounded up; outside the table its end rows' values (R597). -/
def leakAt (t : Nat) : List (Nat × Nat) → Nat
  | [] => 0
  | [(_, v)] => v
  | (a, va) :: (b, vb) :: rest =>
    if t ≤ a then va
    else if t ≤ b then va + ceilDiv ((vb - va) * (t - a)) (b - a)
    else leakAt t ((b, vb) :: rest)

def leakage (t : Nat) : Nat := leakAt t leakTable

/-- mW in pW. -/
def pW : Nat := 1000000000

/-- Admitted weighted rate of a slot times 2 × den, and its denominator (R64). -/
def StreamCfg.rate2 (c : StreamCfg) : Nat :=
  c.maxW * c.maxH * c.frNum * (if c.payload = 2 then 4 else if c.payload = 3 then 1 else 2)

/-- Charge of a slot: 0.21 nJ for each weighted pixel of a second, rounded up to a pW (R456). -/
def StreamCfg.energy (c : StreamCfg) : Nat := ceilDiv (c.rate2 * 210) (2 * c.frDen)

/-- Charge of a clip: 0.42 nJ for each pixel of a second (R456). -/
def clipEnergy (w h num den : Nat) : Nat := ceilDiv (w * h * num * 420) den

/-- A slot holds its admission: configured, whatever it does now. -/
def Slot.admitted (x : Slot) : Bool := x.run != .unconfigured

def State.baseEnergy (s : State) : Nat := (21000 + leakage (s.odNat 0x4000 3 85)) * pW

def State.videoEnergy (s : State) : Nat :=
  s.slots.foldl (fun n p => if p.2.admitted && p.2.run != .shadow then n + p.2.cfg.stream.energy else n) 0
    + s.evid.clips.foldl (fun n c => n + clipEnergy c.crop.w c.crop.h c.num c.den) 0

/-- The allotments of all contexts, descheduled ones included; a standing context is charged nothing (R484). -/
def State.allotments (s : State) : Nat :=
  s.ctxs.foldl (fun n p => if p.2.live && !p.2.standing then n + (s.ctxRun p.1).allotMw * pW else n) 0

def State.committed (s : State) : Nat := s.baseEnergy + s.videoEnergy + s.allotments

def State.budgetMw (s : State) : Nat := s.odNat 0x4000 1 150000
def State.reserveMw (s : State) : Nat := s.odNat 0x4000 2 10000

/-- Energy admission (R458): committed plus the new charge is at most budget − reserve. -/
def State.energyAdmits (s : State) (extra : Nat) : Bool :=
  decide (s.committed + extra + s.reserveMw * pW ≤ s.budgetMw * pW)

/-- New admissions are refused from the start of standby entry to the return to Run (R474). -/
def State.noAdmission (s : State) : Bool := s.pwr.mode == .entering || s.pwr.mode == .standby || s.pwr.mode == .leaving

end Sys2Proof.Machine
end

