-- ==== Sys2Proof/Machine/Float.lean ====
section
/-! DEFINITION. Float arithmetic to the bit (R178, R179, R184, R185, R208): values are exact dyadic
numbers, and each operation rounds once, to nearest, ties to even. -/
namespace Sys2Proof.Machine
open Sys2Proof

/-- A float value: NaN, an infinity, or ± m × 2^e. -/
inductive FV where
  | nan
  | inf (neg : Bool)
  | fin (neg : Bool) (m : Nat) (e : Int)
  deriving DecidableEq, Repr

/-- A float layout: exponent and mantissa bits; bias 2^(ebits − 1) − 1; `ieee` is false for E4M3. -/
structure FFmt where
  ebits : Nat
  mbits : Nat
  ieee : Bool
  deriving DecidableEq, Repr

/-- The layouts of codes 6 to 10 (R178); other codes have none. -/
def floatFmt : Nat → Option FFmt
  | 6 => some ⟨4, 3, false⟩
  | 7 => some ⟨5, 2, true⟩
  | 8 => some ⟨5, 10, true⟩
  | 9 => some ⟨8, 7, true⟩
  | 10 => some ⟨8, 23, true⟩
  | _ => none

def f32 : FFmt := ⟨8, 23, true⟩

def FFmt.width (f : FFmt) : Nat := f.ebits + f.mbits + 1

def FFmt.bias (f : FFmt) : Nat := 2 ^ (f.ebits - 1) - 1

/-- Code of infinity, or the first code past the finite ones. -/
def FFmt.top (f : FFmt) : Nat :=
  if f.ieee then (2 ^ f.ebits - 1) * 2 ^ f.mbits else 2 ^ (f.ebits + f.mbits) - 1

/-- Canonical NaN (R185, R208). -/
def FFmt.nanCode (f : FFmt) : Nat := if f.ieee then f.top + 2 ^ (f.mbits - 1) else f.top

/-- The value of a code (R178, R179). -/
def fdec (f : FFmt) (c : Nat) : FV :=
  let neg := bit c (f.ebits + f.mbits)
  let mag := c % 2 ^ (f.ebits + f.mbits)
  let e := mag / 2 ^ f.mbits
  let m := mag % 2 ^ f.mbits
  if f.ieee && mag == f.top then .inf neg
  else if mag ≥ f.top then .nan
  else if e = 0 then .fin neg m (1 - (f.bias : Int) - f.mbits)
  else .fin neg (m + 2 ^ f.mbits) ((e : Int) - f.bias - f.mbits)

/-- m / 2^s, ties to even. -/
def rneNat (m s : Nat) : Nat :=
  let q := m >>> s
  let r2 := 2 * (m - q <<< s)
  if r2 > 2 ^ s ∨ (r2 = 2 ^ s ∧ q % 2 = 1) then q + 1 else q

/-- Rounds a value to a code: overflow gives infinity (R184) or, with `sat`, the largest finite value
(R208). E4M3 has no infinity: an infinity becomes the largest finite value. -/
def fenc (f : FFmt) (sat : Bool) : FV → Nat
  | .nan => f.nanCode
  | .inf neg => (if f.ieee then f.top else f.top - 1) + b2n neg * 2 ^ (f.ebits + f.mbits)
  | .fin neg m e =>
    let low : Int := 1 - (f.bias : Int) - f.mbits
    let q : Int := max (e + bitLen m - 1 - f.mbits) low
    let m' := if q ≤ e then m <<< (e - q).toNat else rneNat m (q - e).toNat
    let c := (q - low).toNat * 2 ^ f.mbits + m'
    let c := if m = 0 then 0 else if c ≥ f.top then (if sat || !f.ieee then f.top - 1 else f.top) else c
    c + b2n neg * 2 ^ (f.ebits + f.mbits)

/-- Signed significand at exponent `e'` (at most the value's own). -/
def sigAt (neg : Bool) (m : Nat) (e e' : Int) : Int :=
  let v : Int := (m <<< (e - e').toNat : Nat)
  if neg then -v else v

/-- Exact sum; an exact zero is +0 but for (−0) + (−0) (R184). -/
def fvAdd : FV → FV → FV
  | .nan, _ => .nan
  | _, .nan => .nan
  | .inf a, .inf b => if a == b then .inf a else .nan
  | .inf a, _ => .inf a
  | _, .inf b => .inf b
  | .fin a m e, .fin b n k =>
    let e' := min e k
    let v := sigAt a m e e' + sigAt b n k e'
    if v = 0 then .fin (a && b && m == 0 && n == 0) 0 e' else .fin (decide (v < 0)) v.natAbs e'

def fvNeg : FV → FV
  | .nan => .nan
  | .inf a => .inf (!a)
  | .fin a m e => .fin (!a) m e

/-- Exact product (R184, R185). -/
def fvMul : FV → FV → FV
  | .nan, _ => .nan
  | _, .nan => .nan
  | .inf a, .inf b => .inf (a != b)
  | .inf a, .fin b n _ => if n = 0 then .nan else .inf (a != b)
  | .fin a m _, .inf b => if m = 0 then .nan else .inf (a != b)
  | .fin a m e, .fin b n k => .fin (a != b) (m * n) (e + k)

/-- Quotient with a sticky bit below at least 64 significant bits: enough for one rounding. -/
def fvDiv : FV → FV → FV
  | .nan, _ => .nan
  | _, .nan => .nan
  | .inf _, .inf _ => .nan
  | .inf a, .fin b _ _ => .inf (a != b)
  | .fin a _ e, .inf b => .fin (a != b) 0 e
  | .fin a m e, .fin b n k =>
    if n = 0 then (if m = 0 then .nan else .inf (a != b))
    else
      let s := 64 + bitLen n
      let q := (m <<< s) / n
      let r := (m <<< s) % n
      .fin (a != b) (2 * q + b2n (r != 0)) (e - k - s - 1)

/-- Square root of a value that is not negative, with a sticky bit. -/
def fvSqrt : FV → FV
  | .nan => .nan
  | .inf a => if a then .nan else .inf false
  | .fin a m e =>
    if m = 0 then .fin a 0 e
    else if a then .nan
    else
      let sh := 128 + (e % 2).toNat
      let v := m <<< sh
      let r := isqrt v
      .fin false (2 * r + b2n (r * r != v)) ((e - sh) / 2 - 1)

/-- `a < b` on values that are not NaN; −0 and +0 are equal. -/
def fvLt : FV → FV → Bool
  | .nan, _ => false
  | _, .nan => false
  | .inf a, .inf b => a && !b
  | .inf a, .fin _ _ _ => a
  | .fin _ _ _, .inf b => !b
  | .fin a m e, .fin b n k => let e' := min e k; decide (sigAt a m e e' < sigAt b n k e')

def fvEq (a b : FV) : Bool :=
  match a, b with
  | .nan, _ => false
  | _, .nan => false
  | a, b => !fvLt a b && !fvLt b a

def fvIsNan : FV → Bool
  | .nan => true
  | _ => false

/-- fp32 operations on patterns. -/
def fAdd (f : FFmt) (a b : Nat) : Nat := fenc f false (fvAdd (fdec f a) (fdec f b))
def fSub (f : FFmt) (a b : Nat) : Nat := fenc f false (fvAdd (fdec f a) (fvNeg (fdec f b)))
def fMul (f : FFmt) (a b : Nat) : Nat := fenc f false (fvMul (fdec f a) (fdec f b))
def fDiv (f : FFmt) (a b : Nat) : Nat := fenc f false (fvDiv (fdec f a) (fdec f b))
/-- a × b + c with one rounding. -/
def fFma (f : FFmt) (a b c : Nat) : Nat := fenc f false (fvAdd (fvMul (fdec f a) (fdec f b)) (fdec f c))
def fLt (f : FFmt) (a b : Nat) : Bool := fvLt (fdec f a) (fdec f b)
def fEq (f : FFmt) (a b : Nat) : Bool := fvEq (fdec f a) (fdec f b)
def fLe (f : FFmt) (a b : Nat) : Bool := fLt f a b || fEq f a b
def fIsNan (f : FFmt) (a : Nat) : Bool := fvIsNan (fdec f a)

/-- A float code of an integer, rounded to nearest even. -/
def fOfInt (f : FFmt) (sat : Bool) (i : Int) : Nat := fenc f sat (.fin (decide (i < 0)) i.natAbs 0)

/-- Nearest integer to a finite value, ties to even. -/
def fvRound : FV → Option Int
  | .fin a m e =>
    let v : Int := if e ≥ 0 then (m <<< e.toNat : Nat) else (rneNat m (-e).toNat : Nat)
    some (if a then -v else v)
  | _ => none

/-- Floor of a finite value. -/
def fvFloor : FV → Option Int
  | .fin a m e =>
    let v : Int := if a then -(m : Int) else m
    some (if e ≥ 0 then v * (2 ^ e.toNat : Nat) else Int.fdiv v (2 ^ (-e).toNat : Nat))
  | _ => none

/-- Conversion between float formats (R208): saturates. -/
def fConv (src dst : FFmt) (c : Nat) : Nat := fenc dst true (fdec src c)

/-- fp32 words. -/
def wAdd (a b : Word) : Word := BitVec.ofNat 32 (fAdd f32 a.toNat b.toNat)
def wSub (a b : Word) : Word := BitVec.ofNat 32 (fSub f32 a.toNat b.toNat)
def wMul (a b : Word) : Word := BitVec.ofNat 32 (fMul f32 a.toNat b.toNat)
def wDiv (a b : Word) : Word := BitVec.ofNat 32 (fDiv f32 a.toNat b.toNat)
def wLt (a b : Word) : Bool := fLt f32 a.toNat b.toNat
def wOfInt (i : Int) : Word := BitVec.ofNat 32 (fOfInt f32 false i)

end Sys2Proof.Machine
end

