-- ==== Sys2Proof/Machine/SkvBase.lean ====
section
/-! DEFINITION. What every submitter of Skiver jobs shares: the queue (R116, R122), the sizes of R126,
the growth of crop regions (R138), and the pictures a slot still holds (R67, R97, R324). -/
namespace Sys2Proof.Machine
open Sys2Proof

/-! ### Geometry -/

/-- Output size of a region of `w` × `h` in a `tw` × `th` tensor (R126): fit 0 stretch. -/
def fitSize (w h tw th fit : Nat) : Nat × Nat :=
  if fit = 0 then (tw, th)
  else if h * tw ≤ w * th then (tw, max 1 ((h * tw + w / 2) / w))
  else (max 1 ((w * th + h / 2) / h), th)

/-- The ratios of R126 on one axis. -/
def ratioOk (n len : Nat) : Bool := decide (len ≤ 32 * n) && decide (n ≤ 8 * len)

/-- One axis of a crop region grown about its centre to ceil(N / 8), inside `[0, size)`, even (R138). -/
def growAxis (x len n size : Nat) : Option (Nat × Nat) :=
  if n ≤ 8 * len then some (x, len)
  else
    let need := alignUp (ceilDiv n 8) 2
    if size < need then none
    else
      let x' := (x + len / 2 - need / 2) / 2 * 2
      some (if x' + need ≤ size then x' else (size - need) / 2 * 2, need)

/-- A crop region as R138 leaves it: none where the picture is too small or the region too large. -/
def growRegion (r : Rect) (tw th fit pw ph : Nat) : Option Rect :=
  let n := fitSize r.w r.h tw th fit
  match growAxis r.x r.w n.1 pw, growAxis r.y r.h n.2 ph with
  | some (x, w), some (y, h) => if w ≤ 32 * n.1 ∧ h ≤ 32 * n.2 then some ⟨x, y, w, h⟩ else none
  | _, _ => none

/-- A rectangle clipped to the picture, x and y rounded down and the ends rounded up to even (R135); a
strip of one sample at an odd edge is grown inwards to the least region of R118. -/
def clipEven (x0 y0 x1 y1 : Int) (pw ph : Nat) : Option Rect :=
  let lo := fun (v : Int) (m : Nat) => (clampI v 0 m).toNat / 2 * 2
  let hi := fun (v : Int) (m : Nat) => min m (alignUp (clampI v 0 m).toNat 2)
  let ax := lo x0 pw
  let ay := lo y0 ph
  let bx := hi x1 pw
  let by_ := hi y1 ph
  let in2 := fun (a b : Nat) => if b < a + 2 then a - 2 else a
  let has := fun (a b : Int) (m : Nat) => decide (clampI a 0 m < clampI b 0 m)
  if has x0 x1 pw && has y0 y1 ph then some ⟨in2 ax bx, in2 ay by_, bx - in2 ax bx, by_ - in2 ay by_⟩ else none

/-! ### Output descriptors (R119) -/

/-- An output descriptor. -/
structure OutDesc where
  base : Nat
  mask : Nat
  tw : Nat
  th : Nat
  fmt : Nat
  layout : Nat
  chan : Nat
  colour : Nat
  canvas : Bool
  kind : Nat
  fit : Nat
  tileW : Nat
  tileH : Nat
  halo : Nat
  zp : Int
  mul : List Int
  shift : List Nat
  add : List Int
  pad : List Nat
  rsv : Bool
  deriving DecidableEq, Repr

def readOut (b : List Byte) : OutDesc :=
  { base := fieldAt b 0 8, mask := fieldAt b 8 8, tw := fieldAt b 16 2, th := fieldAt b 18 2, fmt := fieldAt b 20 1
    layout := fieldAt b 21 1, chan := fieldAt b 22 1, colour := fieldAt b 23 1, canvas := fieldAt b 24 1 == 1
    kind := fieldAt b 24 1, fit := fieldAt b 25 1, tileW := 16 * fieldAt b 26 1, tileH := 16 * fieldAt b 27 1
    halo := fieldAt b 28 1, zp := sgn 16 (fieldAt b 30 2), mul := (upto 0 3).map (fun c => sgn 16 (fieldAt b (32 + 2 * c) 2))
    shift := (upto 0 3).map (fun c => fieldAt b (38 + c) 1), add := (upto 0 3).map (fun c => sgn 32 (fieldAt b (44 + 4 * c) 4))
    pad := (upto 0 4).map (fun c => fieldAt b (56 + 2 * c) 2), rsv := allZero ((b.drop 29).take 1) && allZero ((b.drop 41).take 3) }

/-- Bytes of an element, channels stored, channels computed, bytes of one tensor. -/
def OutDesc.esize (o : OutDesc) : Nat := if o.fmt = 5 ∨ o.fmt = 8 ∨ o.fmt = 9 then 2 else 1
def OutDesc.nChan (o : OutDesc) : Nat := if o.chan = 3 then 1 else if o.layout = 1 then 4 else 3
def OutDesc.size (o : OutDesc) : Nat := o.tw * o.th * o.nChan * o.esize
def OutDesc.tilesW (o : OutDesc) : Nat := o.tw / o.tileW
def OutDesc.tilesH (o : OutDesc) : Nat := o.th / o.tileH

/-- Zero-point range of an output format. -/
def outZpOk (fmt : Nat) (z : Int) : Bool :=
  if fmt = 0 then decide (0 ≤ z) && decide (z ≤ 255) else if fmt = 1 then decide (-128 ≤ z) && decide (z ≤ 127)
  else if fmt = 5 then true else z == 0

/-- Ranges of an output descriptor (R119, R130). -/
def OutDesc.ok (o : OutDesc) : Bool :=
  let dim := fun (v : Nat) => decide (16 ≤ v) && decide (v ≤ 4096)
  let tile := fun (v : Nat) => decide (16 ≤ v) && decide (v ≤ 256)
  dim o.tw && dim o.th && [0, 1, 5, 6, 7, 8, 9].contains o.fmt && decide (o.layout ≤ 2) && decide (o.chan ≤ 3)
    && decide (o.colour < 4) && decide (o.kind ≤ 1) && decide (o.fit ≤ 2) && o.rsv && outZpOk o.fmt o.zp
    && o.shift.all (fun v => decide (v ≤ 31))
    && (if o.canvas then tile o.tileW && tile o.tileH && o.tw % o.tileW == 0 && o.th % o.tileH == 0
          && decide (o.tilesW * o.tilesH ≤ 4096) else o.mask == 0)

/-! ### Image tables -/

/-- Device address of byte `off` of a context's image copy (R424, R425). -/
def Ctx.imageAddr (x : Ctx) (off : Nat) : Nat := x.imagePages.getD (off / pageSize) 0 * pageSize + off % pageSize

/-- An output descriptor's fields that submitters use: T_w, T_h, fit. -/
def State.outShape (s : State) (a : Nat) : Nat × Nat × Nat := (s.rdNat (a + 16) 2, s.rdNat (a + 18) 2, s.rdNat (a + 25) 1)

/-- A job built by the firmware for context `c` with the tables and counters its image declares. -/
def State.ctxJob (s : State) (c fb slot flags pts seq : Nat) (regions : List Region) : Option Job :=
  let x := s.ctx c
  x.decl.map (fun d =>
    { fb := fb, slot := slot, nOut := d.skv.nOut, flags := flags, pts := pts, seq := seq, ctx := c,
      gateCore := d.skv.gateCore, gateCtr := d.skv.gateCtr, doneCtr := d.skv.doneCtr, gateN := d.skv.gateN,
      doneCore := d.skv.doneCore, doneN := d.skv.doneN, outAddr := x.imageAddr d.skv.outOff,
      coefAddr := x.imageAddr d.skv.coefOff, nReg := regions.length, regions := regions, internal := true })

/-! ### The queue -/

/-- Submits a job: one reference on its frame buffer where the handle is live, and a place in the queue
of 256; a submission that finds it full is discarded (R116, R122, R141). -/
def State.skvEnqueue (s : State) (j : Job) : State :=
  if 256 ≤ s.skv.queue.length then { s with skv := { s.skv with overflow := true } }
  else
    match s.fbTake j.fb false with
    | (.ok, s) => { s with skv := { s.skv with queue := s.skv.queue ++ [{ j with refHeld := true }] } }
    | (.fault _ _, s) => { s with skv := { s.skv with queue := s.skv.queue ++ [{ j with refHeld := false }] } }

/-- The reference of a job is released (R12, R116). -/
def State.skvRelease (s : State) (j : Job) : State := if j.refHeld then s.fbDropSvc j.fb false else s

/-- Class of a slot: 0 live, 1 near-live, 2 replay (R63). -/
def State.slotClass (s : State) (n : Nat) : Nat := (s.slot n).cfg.stream.priority

/-! ### Pictures that a slot holds -/

/-- Marks of a picture: substituted, degraded, concealed (R338). -/
def Pic.marks (p : Pic) : Nat := b2n p.subst.isSome + 2 * b2n p.degraded + 4 * b2n p.concealed

/-- The motion-field header of a frame buffer (R84, R85). -/
def State.fbHeader (s : State) (h : Nat) : List Byte :=
  match tget none s.tkp.extents (s.fb (fbIndex h)).extent with
  | some x => s.fbBytes h x.frame 64
  | none => []

/-- The slot has narration rules: the Cantle holds its output pictures until their rules are evaluated (R324). -/
def State.narrRules (s : State) (n : Nat) : Bool := s.rules.any (fun r => r.2.cfg.enable && r.2.cfg.slot == n && bit r.2.cfg.actions 2)

/-- The picture `seq` of a slot while a reference of the slot holds it: for narration rules, in the
pre-roll ring, or as the last good output (R324). -/
def State.heldPic (s : State) (n seq : Nat) : Option Pic :=
  let x := s.slot n
  match ((if s.narrRules n then x.pics else []) ++ x.ring).find? (fun p => p.seq == seq && p.handle.isSome) with
  | some p => some p
  | none => match x.dec.lastGood with
    | some h =>
      let b := s.fbHeader h
      if fieldAt b 8 4 = seq then
        some { dec := 0, seq := seq, pts := fieldAt b 0 8, handle := some h, degraded := bit (fieldAt b 13 1) 2,
               width := (s.fb (fbIndex h)).picW, height := (s.fb (fbIndex h)).picH }
      else none
    | none => none

end Sys2Proof.Machine
end

