-- ==== Sys2Proof/Machine/Narr.lean ====
section
/-! DEFINITION. The Narrator (R318 to R334): requests and their queue, sessions, steps, sampling and
captions. -/
namespace Sys2Proof.Machine
open Sys2Proof

/-! ### Sampling (R331) -/

/-- 2^64 wrap. -/
def u64 (v : Nat) : Nat := v % 2 ^ 64

/-- The counter-based generator. -/
def mix64 (x : Nat) : Nat :=
  let x := u64 (x + 0x9E3779B97F4A7C15)
  let x := u64 ((x ^^^ (x >>> 30)) * 0xBF58476D1CE4E5B9)
  let x := u64 ((x ^^^ (x >>> 27)) * 0x94D049BB133111EB)
  x ^^^ (x >>> 31)

/-- The largest `r` below `2^n` on top of `r0` with `p r`, for a `p` that falls once. -/
def lastTrue (p : Nat → Bool) : Nat → Nat → Nat
  | 0, r => r
  | n + 1, r => lastTrue p n (if p (r + 2 ^ n) then r + 2 ^ n else r)

/-- EXP_TAB[d]: the integer nearest to 65,536 × 2^(−d/64). -/
def expTab (d : Nat) : Nat := lastTrue (fun n => decide (2 * n < 1 ∨ (2 * n - 1) ^ 64 ≤ 2 ^ (1088 - d))) 17 0

/-- `a` is above `b`, a NaN counting as −∞. -/
def logitAbove (a b : Word) : Bool :=
  if fIsNan f32 b.toNat then !fIsNan f32 a.toNat else !fIsNan f32 a.toNat && wLt b a

/-- The best remaining ID: largest logit, ties to the lower ID. -/
def bestId : List (Nat × Word) → Option (Nat × Word)
  | [] => none
  | x :: t => match bestId t with
    | none => some x
    | some y => if logitAbove y.2 x.2 then some y else some x

/-- The top `k` IDs by logit, descending. -/
def topIds : Nat → List (Nat × Word) → List (Nat × Word)
  | 0, _ => []
  | k + 1, xs => match bestId xs with
    | none => []
    | some b => b :: topIds k (xs.filter (fun y => decide (y.1 ≠ b.1)))

/-- The distance class of a candidate; `open_` stands for it where the difference is no number. -/
def logitDist (top l inv : Word) (open_ : Nat) : Nat :=
  let e := wMul (wMul (wSub top l) inv) 0x42800000#32
  match fvFloor (fdec f32 e.toNat) with
  | some i => (clampI i 0 1023).toNat
  | none => if fIsNan f32 e.toNat then open_ % 1024 else 1023

/-- The first candidate whose running weight exceeds `r`. -/
def pickAt (r : Nat) : Nat → List (Nat × Nat) → Nat → Nat
  | _, [], last => last
  | acc, (id, w) :: t, _ => if r < acc + w then id else pickAt r (acc + w) t id

/-- The token of a sampling row: `t` is the generated-token index. -/
def sampleToken (req : NarrReq) (logits : List Word) (t open_ : Nat) : Nat :=
  let ids := (upto 0 logits.length).zip logits
  let zeroT := fEq f32 req.temperature.toNat 0
  if zeroT ∨ req.topK = 1 then ((bestId ids).map (·.1)).getD 0
  else
    let c := topIds req.topK ids
    let top := ((c.head?).map (·.2)).getD 0#32
    let inv := wDiv 0x3F800000#32 req.temperature
    let ws := c.map (fun x => (x.1, expTab (logitDist top x.2 inv open_)))
    let total := (ws.map (·.2)).foldl (· + ·) 0
    let u := mix64 (req.seed ^^^ (t <<< 32)) >>> 40
    pickAt ((u * total) >>> 24) 0 ws 0

/-! ### Text (R334) -/

/-- Length of the well-formed sequence a lead byte begins, and the range of its second byte; 0 for a
byte that begins none. -/
def utf8Lead (b : Nat) : Nat × Nat × Nat :=
  if b < 0x80 then (1, 0, 0)
  else if 0xC2 ≤ b ∧ b ≤ 0xDF then (2, 0x80, 0xBF)
  else if b = 0xE0 then (3, 0xA0, 0xBF)
  else if b = 0xED then (3, 0x80, 0x9F)
  else if 0xE1 ≤ b ∧ b ≤ 0xEF then (3, 0x80, 0xBF)
  else if b = 0xF0 then (4, 0x90, 0xBF)
  else if b = 0xF4 then (4, 0x80, 0x8F)
  else if 0xF1 ≤ b ∧ b ≤ 0xF3 then (4, 0x80, 0xBF)
  else (0, 0, 0)

/-- U+FFFD. -/
def replacement : List Byte := [0xEF#8, 0xBF#8, 0xBD#8]

/-- Bytes of the sequence in progress, bytes it still needs, the range of the next one. -/
structure Utf8 where
  out : List Byte := []
  seq : List Byte := []
  need : Nat := 0
  lo : Nat := 0x80
  hi : Nat := 0xBF
  deriving DecidableEq, Repr

/-- Takes a byte that begins a sequence. -/
def Utf8.start (u : Utf8) (b : Byte) : Utf8 :=
  let l := utf8Lead b.toNat
  if l.1 = 0 then { out := u.out ++ replacement }
  else if l.1 = 1 then { out := u.out ++ [b] }
  else { out := u.out, seq := [b], need := l.1 - 1, lo := l.2.1, hi := l.2.2 }

/-- Takes the next byte: each ill-formed subsequence becomes U+FFFD. -/
def Utf8.next (u : Utf8) (b : Byte) : Utf8 :=
  if u.need = 0 then u.start b
  else if u.lo ≤ b.toNat ∧ b.toNat ≤ u.hi then
    if u.need = 1 then { out := u.out ++ u.seq ++ [b] }
    else { u with seq := u.seq ++ [b], need := u.need - 1, lo := 0x80, hi := 0xBF }
  else ({ out := u.out ++ replacement : Utf8 }).start b

/-- The text of a caption: at most 1,024 B. -/
def cleanUtf8 (bs : List Byte) : List Byte :=
  let u := bs.foldl Utf8.next {}
  (u.out ++ (if u.need = 0 then [] else replacement)).take 1024

/-! ### The prompt (R322) -/

/-- Longest token that a text begins with; ties to the lower ID (R322). -/
def longestToken (table : List (List Byte)) (text : List Byte) : Option (Nat × Nat) :=
  ((upto 0 table.length).zip table).foldl (fun (best : Option (Nat × Nat)) t =>
    if t.2.isEmpty || !(t.2.isPrefixOf text) then best
    else match best with
      | some b => if b.2 < t.2.length then some (t.1, t.2.length) else best
      | none => some (t.1, t.2.length)) none

/-- Greedy tokens of a text; a byte that begins no token is left out. -/
def tokenise (table : List (List Byte)) : Nat → List Byte → List Nat
  | 0, _ => []
  | fuel + 1, text =>
    if text.isEmpty then []
    else match longestToken table text with
      | some (id, n) => id :: tokenise table fuel (text.drop n)
      | none => tokenise table fuel (text.drop 1)

/-- The prompt of a request: its template, filled from the event record and tokenised. -/
def NarratorDecl.promptOf (d : NarratorDecl) (req : NarrReq) : List Nat :=
  let text := Config.fillTemplate req.template req.record
  tokenise d.tokenBytes text.length text

/-! ### The service -/

/-- The narrator section of the loaded image. -/
def State.narrDecl (s : State) : Option NarratorDecl :=
  match s.narr.ctx with
  | some c => match (s.ctx c).decl with
    | some d => d.narrator
    | none => none
  | none => none

/-- Positions of a KV page and KV pages of a session (R328). -/
def NarratorDecl.sessionPages (d : NarratorDecl) : Nat := d.layers * ceilDiv d.ctxMax (65536 / d.kvBytes)

/-- Rows of a session's prefill: the embedding's rows, then the prompt (R323). -/
def NarratorDecl.rows (d : NarratorDecl) (x : Session) : Nat := d.imageTokens + x.prompt.length

/-- The entry of a request's outcome (R332, R444 type 9). -/
def State.narrEntry (s : State) (req : NarrReq) (sub session : Nat) : State :=
  s.chainLate req.slot {
    typ := 9, sub := sub, forced := true, payload := leBytes 4 req.eventSeq ++ leBytes 1 session ++ leBytes 8 req.seed,
    key2 := req.eventSeq }

/-- Body of a caption record (R342). -/
def captionBody (x : Session) (flags : Nat) (text : List Byte) : List Byte :=
  leBytes 4 x.req.eventSeq ++ leBytes 1 x.num ++ leBytes 1 (x.marks + flags) ++ leBytes 2 x.tokens.length
    ++ leBytes 8 x.req.seed ++ leBytes 2 text.length ++ copies 14 0#8 ++ text

/-- The tokens' byte sequences. -/
def State.captionText (s : State) (x : Session) : List Byte :=
  match s.narrDecl with
  | some d => cleanUtf8 (x.tokens.flatMap (fun t => d.tokenBytes.getD t []))
  | none => []

/-- Emits a caption record; the digest of a final one enters the slot's chain (R334, R444 type 10). -/
def State.caption (s : State) (x : Session) (flags : Nat) (text : List Byte) (final : Bool) : State :=
  let body := captionBody x flags text
  let s := (s.streamOut x.req.slot 4 x.pts body).mirrorChain x.req.slot
  if final then
    s.chainLate x.req.slot { typ := 10, sub := 0,
                             payload := leBytes 4 x.req.eventSeq ++ sha512 (padTo (alignUp body.length 32) body),
                             key2 := x.req.eventSeq }
  else s

/-- A request as mirrored (assumption 20): its place, then its fields. -/
def narrFrame (i total : Nat) (w : NarrWait) : List Byte :=
  let r := w.req
  leBytes 1 i ++ leBytes 1 total ++ leBytes 8 w.pts ++ leBytes 1 w.marks ++ leBytes 2 r.slot ++ leBytes 4 r.eventSeq
    ++ leBytes 4 r.picture ++ leBytes 4 r.crop.x ++ leBytes 4 r.crop.y ++ leBytes 4 r.crop.w ++ leBytes 4 r.crop.h
    ++ leBytes 1 r.maxTokens ++ leBytes 4 r.temperature.toNat ++ leBytes 1 r.topK ++ leBytes 8 r.seed
    ++ leBytes 1 ((r.host.map OdRoute.num).getD 0xFF) ++ leBytes 2 r.template.length ++ r.template ++ leBytes 2 r.record.length ++ r.record

/-- Open sessions in the order of opening, then queued requests (R485). -/
def State.narrList (s : State) : List NarrWait :=
  (sortBy (·.opened) s.narr.sessions).map (fun x => ⟨x.req, x.pts, x.marks, x.buf⟩) ++ s.narr.queue

/-- The partner learns the sessions and the queue on every change of them; an empty list is one frame. -/
def State.narrMirror (s : State) : State :=
  if s.pair.mode = 1 ∨ s.pair.mode = 2 then
    let ws := s.narrList
    if ws.isEmpty then s.stirrupSend 3 (mirrorPayload 4 0 0 [0#8, 0#8])
    else ((upto 0 ws.length).zip ws).foldl (fun s p => s.stirrupSend 3 (mirrorPayload 4 0 0 (narrFrame p.1 ws.length p.2))) s
  else s

/-- A session ends with the flags of R325: its pages and crop buffer return. -/
def State.narrEnd (s : State) (num flags : Nat) (withText : Bool) : State :=
  match s.narr.sessions.find? (fun x => x.num == num) with
  | some x =>
    let s := s.caption x flags (if withText then s.captionText x else []) true
    let s := { s with narr := { s.narr with sessions := s.narr.sessions.filter (fun y => y.num != num) } }
    (x.pages.foldl State.freeHeld s).narrMirror
  | none => s

def flagTruncated : Nat := 8
def flagCancelled : Nat := 16
def flagShed : Nat := 32
def flagFault : Nat := 64
def flagPartial : Nat := 128

/-- Lowest number in `[0, n)` that is not in use. -/
def lowestFree (n : Nat) (used : List Nat) : Option Nat := (upto 0 n).find? (fun i => !used.contains i)

/-- A refused request: its chain entry, count and fault record. -/
def State.narrRefuse (s : State) (req : NarrReq) (sub code : Nat) : State :=
  let s := s.narrEntry req sub 0xFF
  let s := { s with narr := { s.narr with refused := (s.narr.refused + 1) % 2 ^ 32 } }
  s.raise { code := code, unit := OdRoute.num (req.host.getD .cantle), detail := 0x8010, slot := req.slot }

/-- The prompt fits (R322). -/
def NarratorDecl.promptOk (d : NarratorDecl) (req : NarrReq) : Bool :=
  let n := (NarratorDecl.promptOf d req).length
  decide (n + d.imageTokens + req.maxTokens ≤ d.ctxMax) && decide (n ≤ 512)

/-- A request takes a session: its KV pages, and state embed (R323, R328). -/
def State.narrSession (s : State) (d : NarratorDecl) (w : NarrWait) (num : Nat) : State :=
  let got := (s.allocPages s.narr.kvRes 0 false (NarratorDecl.sessionPages d) []).getD ([], s)
  let x : Session := {
    num := num, req := w.req, prompt := NarratorDecl.promptOf d w.req, st := .embed, opened := s.narr.opened, pts := w.pts, marks := w.marks,
    buf := w.buf, pages := got.1 }
  let s := got.2
  ({ s with narr := { s.narr with
    sessions := insertBy (·.num) x s.narr.sessions, opened := s.narr.opened + 1 } }).narrMirror

/-- Opens a session for a request, or refuses it for its prompt (R321, R322, R328). The code of a
refusal is answered. -/
def State.narrOpen (s : State) (d : NarratorDecl) (w : NarrWait) : Nat × State :=
  match lowestFree 64 (s.narr.sessions.map (·.num)) with
  | none => (fltNarBusy, s)
  | some num =>
    if !NarratorDecl.promptOk d w.req then (fltNarPrompt, s.narrRefuse w.req 3 fltNarPrompt)
    else (0, (s.narrSession d w num).narrEntry w.req 0 num)

/-- Free sessions take the oldest queued requests (R321). -/
def State.narrRefill : Nat → State → State
  | 0, s => s
  | n + 1, s => match s.narrDecl, s.narr.queue with
    | some d, w :: rest =>
      if s.narr.sessions.length < 64 then
        State.narrRefill n (({ s with narr := { s.narr with queue := rest } }).narrOpen d w).2
      else s
    | _, _ => s

/-- The crop job of a request (R324, R138): a region that cannot be grown is left out and counted. -/
def State.narrCrop (s : State) (c : Nat) (req : NarrReq) (p : Pic) (buf : Nat) : State :=
  match p.handle with
  | none => s
  | some h =>
    let x := s.ctx c
    let a := x.imageAddr ((x.decl.map (·.skv.outOff)).getD 0)
    let o := s.outShape a
    let f := s.fb (fbIndex h)
    let box := clipEven req.crop.x req.crop.y (req.crop.x + req.crop.w) (req.crop.y + req.crop.h) f.picW f.picH
    match box.bind (fun b => growRegion b o.1 o.2.1 o.2.2 f.picW f.picH) with
    | none => s.count req.slot 0x69 1
    | some b =>
      let r : Region := { x := b.x, y := b.y, w := b.w, h := b.h, origin := if req.host.isSome then 8 else 0, index := buf }
      match s.ctxJob c h req.slot 0 p.pts req.picture [r] with
      | some j => s.skvEnqueue { j with gateN := 0 }
      | none => s

/-- A request reaches the service (R320 to R324): the fault code of a refusal, or 0. -/
def State.narrAsk (s : State) (req : NarrReq) : Nat × State :=
  match s.narr.ctx, s.narrDecl with
  | some c, some d =>
    if s.narr.shed then (fltNarShed, s.narrRefuse req 4 fltNarShed)
    else match s.heldPic req.slot req.picture with
      | none => (fltNarPicture, s.narrRefuse req 5 fltNarPicture)
      | some p =>
        let used := s.narr.sessions.map (·.buf) ++ s.narr.queue.map (·.buf)
        let buf := (lowestFree 96 used).getD 0
        let w : NarrWait := ⟨req, p.pts, p.marks, buf⟩
        if s.narr.sessions.length < 64 then
          let r := s.narrOpen d w
          if r.1 = 0 then (0, r.2.narrCrop c req p buf) else r
        else if s.narr.queue.length < s.odNat 0x8300 2 32 then
          let s := ({ s with narr := { s.narr with queue := s.narr.queue ++ [w] } }).narrMirror
          (0, (s.narrEntry req 1 0xFF).narrCrop c req p buf)
        else (fltNarBusy, s.narrRefuse req 2 fltNarBusy)
  | _, _ => (fltNarBusy, s.narrRefuse req 2 fltNarBusy)

/-- The request's parameters lie in the ranges of R320. -/
def NarrReq.inRange (r : NarrReq) : Bool :=
  decide (1 ≤ r.maxTokens) && decide (r.maxTokens ≤ 128) && decide (1 ≤ r.topK) && decide (r.topK ≤ 64)
    && fLe f32 0 r.temperature.toNat && fLe f32 r.temperature.toNat 0x41800000 && decide (r.slot < 256)

/-- A host's request is a write of entry 0x8010.01 and is answered on its route; a rule's is not. -/
def State.narrHost (s : State) (req : NarrReq) : State :=
  match req.host with
  | none => (s.narrAsk req).2
  | some route =>
    if !NarrReq.inRange req then (Reply.mk 3 0 s).send route 0
    else
      let r := s.narrAsk req
      (Reply.mk (if r.1 = 0 then 0 else 9) r.1 r.2).send route 0

def execNarrationRequest (req : NarrReq) (s : State) : Host.Outcome State Fault Refusal :=
  whenReady s (s.narrHost req)

/-- Sessions marked by a cancel or by shedding end; free sessions take queued requests (R325, R330). -/
def State.narrBoundary (s : State) : State :=
  let s := s.narr.sessions.foldl (fun s x =>
    if s.narr.shed then s.narrEnd x.num flagShed true
    else if x.cancel then s.narrEnd x.num flagCancelled true else s) s
  s.narrRefill 33

/-- R330: a cancel takes effect at a step boundary. -/
def State.narrCancel (s : State) (num : Nat) : State :=
  let s := { s with narr := { s.narr with
    sessions := modWhere (fun x => x.num == num) (fun x => { x with cancel := true }) s.narr.sessions } }
  if s.narr.running then s else s.narrBoundary

def execNarrationCancel (session : Nat) (s : State) : Host.Outcome State Fault Refusal :=
  whenReady s (s.narrCancel session)

/-- "Stop narration" begins or is lifted: queued requests are dropped, and every session ends at the
boundary (R330, R467). -/
def State.narrShed (s : State) (on : Bool) : State :=
  let s := { s with narr := { s.narr with shed := on } }
  if !on then s
  else
    let s := s.narr.queue.foldl (fun s w => s.narrRefuse w.req 4 fltNarShed) s
    let s := ({ s with narr := { s.narr with queue := [] } }).narrMirror
    if s.narr.running then s else s.narrBoundary

/-- The Narrator context is torn down: every session ends with fault and no text (R325, R330). -/
def State.narrFault (s : State) : State :=
  let s := s.narr.sessions.foldl (fun s x => s.narrEnd x.num flagFault false) s
  let s := s.narr.queue.foldl (fun s w => s.narrRefuse w.req 2 fltNarBusy) s
  ({ s with narr := { s.narr with ctx := none, queue := [], running := false } }).narrMirror

/-- A mirrored request is opened again on the survivor, without a new entry or picture (R496, R498). -/
def State.narrReopen (s : State) (w : NarrWait) : State :=
  match s.narrDecl, lowestFree 64 (s.narr.sessions.map (·.num)) with
  | some d, some num => s.narrSession d w num
  | some _, none => { s with narr := { s.narr with queue := s.narr.queue ++ [w] } }
  | none, _ => s

/-! ### Steps (R326) -/

/-- Rows that a session puts into the step, and the prefill rows left. -/
def stepRows (d : NarratorDecl) (left : Nat) (x : Session) : Nat × Session :=
  let k := min left (NarratorDecl.rows d x - x.pos)
  (left - k, { x with inStep := k })

/-- Builds the step: a row for each session in decode; up to 128 prefill rows in the order of opening;
the oldest session in embed. -/
def buildStep (d : NarratorDecl) (xs : List Session) : List Session :=
  let xs := xs.map (fun x => { x with
    inStep := 0, embedding := false,
    st := if x.st = .ready then .prefill else if x.st = .sampled then .decode else x.st })
  let xs := xs.map (fun x => if x.st = .decode then { x with inStep := 1 } else x)
  let pre := sortBy (·.opened) (xs.filter (fun x => x.st == .prefill))
  let taken := pre.foldl (fun (a : Nat × List Session) x =>
    let r := stepRows d a.1 x
    (r.1, a.2 ++ [r.2])) (128, [])
  let xs := xs.map (fun x => (taken.2.find? (fun y => y.num == x.num)).getD x)
  match minBy (·.opened) (xs.filter (fun x => x.st == .embed)) with
  | some e => modWhere (fun x => x.num == e.num) (fun x => { x with embedding := true }) xs
  | none => xs

/-- A step starts at a boundary, where it has a row: it reads the weights once (R319). -/
def State.narrStart (s : State) : State :=
  match s.narrDecl with
  | none => s
  | some d =>
    if s.narr.running then s
    else
      let xs := buildStep d s.narr.sessions
      if xs.any (fun x => x.inStep != 0 || x.embedding) then
        let s := { s with narr := { s.narr with sessions := xs, running := true } }
        match s.narr.ctx with
        | some c => s.account c 11 (s.ctx c).weightBytes
        | none => s
      else s

def execNarratorStepStart (s : State) : Host.Outcome State Fault Refusal := whenReady s s.narrStart

/-- The image encoder's rows of a session are ready: it enters prefill at the next boundary (R326). -/
def State.narrEmbedded (s : State) (num : Nat) : State :=
  { s with narr := { s.narr with
    sessions := modWhere (fun x => x.num == num && x.st == .embed && x.embedding)
      (fun x => { x with st := .ready, embedding := false }) s.narr.sessions } }

def execNarratorEmbedComplete (session : Nat) (s : State) : Host.Outcome State Fault Refusal :=
  whenReady s (s.narrEmbedded session)

/-- A session samples at the end of the step: it is in decode, or the step held its last prefill row. -/
def samples (d : NarratorDecl) (x : Session) : Bool :=
  (x.st == .decode && x.inStep == 1) || (x.st == .prefill && x.inStep != 0 && x.pos + x.inStep == NarratorDecl.rows d x)

/-- The end of a step for one session: its token, its end condition (R325), a partial record (R334). -/
def State.narrToken (s : State) (d : NarratorDecl) (logits : List (Nat × List Word)) (x : Session) : State :=
  let put := fun (s : State) (f : Session → Session) => { s with narr := { s.narr with
    sessions := modWhere (fun y => y.num == x.num) f s.narr.sessions } }
  if !samples d x then
    put s (fun y => if y.st = .prefill then { y with pos := y.pos + y.inStep, inStep := 0 } else { y with inStep := 0 })
  else
    let ls := ((logits.find? (fun l => l.1 == x.num)).map (·.2)).getD []
    let allNan := ls.all (fun l => fIsNan f32 l.toNat)
    let dr := s.draw 10
    let s := if ls.any (fun l => decide (fdec f32 l.toNat = .inf false ∨ fdec f32 l.toNat = .inf true)) then dr.2 else s
    let tok := if allNan then d.eosId else sampleToken x.req ls x.tokens.length dr.1
    let dt := s.draw 32
    let s := if x.tokens.isEmpty then
        { dt.2 with narr := { dt.2.narr with firstMax := max dt.2.narr.firstMax dt.1 } } else s
    let s := { s with narr := { s.narr with tokens := (s.narr.tokens + 1) % 2 ^ 64 } }
    let stop := tok == d.eosId || tok == d.newlineId
    let s := put s (fun y => { y with
      st := if y.st = .prefill then .sampled else y.st, pos := if y.st = .prefill then y.pos + y.inStep else y.pos,
      inStep := 0, tokens := if stop then y.tokens else y.tokens ++ [tok], fault := y.fault || allNan })
    let n := x.tokens.length + 1
    if stop then s.narrEnd x.num (if allNan then flagFault else 0) true
    else if n = x.req.maxTokens then s.narrEnd x.num flagTruncated true
    else
      let every := s.odNat 0x8300 1 0
      match s.narr.sessions.find? (fun y => y.num == x.num) with
      | some y => if every ≠ 0 ∧ n % every = 0 then s.caption y flagPartial (s.captionText y) false else s
      | none => s

/-- A step completes: tokens in ascending session number, then the boundary. -/
def State.narrComplete (s : State) (us : Nat) (logits : List (Nat × List Word)) : State :=
  match s.narrDecl with
  | none => s
  | some d =>
    if !s.narr.running then s
    else
      let s := { s with narr := { s.narr with
        running := false, steps := (s.narr.steps + 1) % 2 ^ 64, stepMax := max s.narr.stepMax (us % 2 ^ 32) } }
      (s.narr.sessions.foldl (fun s x => s.narrToken d logits x) s).narrBoundary

def execNarratorStepComplete (us : Nat) (logits : List (Nat × List Word)) (s : State) :
    Host.Outcome State Fault Refusal :=
  whenReady s (s.narrComplete us logits)

/-- R333: the loaded image's bounds allow the guarantees, and its channels and ways are its own. -/
def State.narrGuarantees (s : State) : Bool :=
  match s.narr.ctx, s.narrDecl with
  | some c, some d =>
    let x := s.ctx c
    decide (d.tStep ≤ 12000) && decide (d.tEmbed ≤ 12000)
      && !(s.ctxs.any (fun y => y.1 != c && y.2.live && ((y.2.channels &&& x.channels) != 0 || (y.2.ways &&& x.ways) != 0)))
  | _, _ => false

end Sys2Proof.Machine
end

