-- ==== Sys2Proof/Machine/CtxBase.lean ====
section
/-! DEFINITION. Contexts as the other units meet them: their partition (R166), their counters (R266,
R276), their pages, and teardown (R436 to R438). -/
namespace Sys2Proof.Machine
open Sys2Proof

/-! ### The partition -/

/-- Cores of a partition. -/
def Ctx.numCores (x : Ctx) : Nat := 16 * x.k

/-- Logical core of partition core `j` (R166). -/
def Ctx.coreAt (x : Ctx) (j : Nat) : Option Nat := (x.map[j / 16]?).map (fun c => c * 16 + j % 16)

/-- Logical cores of the partition, in partition order. -/
def Ctx.cores (x : Ctx) : List Nat := x.map.flatMap (fun c => upto (c * 16) 16)

/-- Partition core of a logical core. -/
def Ctx.relCore (x : Ctx) (core : Nat) : Nat :=
  ((x.map.findIdx? (fun c => c == core / 16)).getD 0) * 16 + core % 16

/-- Partition cluster of a logical cluster. -/
def Ctx.relCluster (x : Ctx) (cl : Nat) : Nat := (x.map.findIdx? (fun c => c == cl)).getD 0

/-- The context that a core or a cluster runs. -/
def State.ctxOfCore (s : State) (core : Nat) : Nat := (s.core core).ctx

/-- A window address in partition numbering, translated at the issuing stop (R166): none where it is an
address fault. Addresses of the saddle are not translated. -/
def Ctx.translate (x : Ctx) (a : Nat) : Option Nat :=
  if inSaddle a then some a
  else if 0x010000000000 ≤ a ∧ a < 0x011000000000 then
    let c := coreOf a
    if c.2 < 0x20000 then (x.coreAt c.1).map (fun n => coreBase n + c.2) else none
  else if 0x011000000000 ≤ a ∧ a < 0x012000000000 then
    let c := clusterOf a
    if c.2 < 0x100000 then (x.map[c.1]?).map (fun n => clusterBase n + c.2) else none
  else none

/-- A DRAM page that the context holds. -/
def State.holdsPage (s : State) (c p : Nat) : Bool :=
  let g := s.page p
  let x := s.ctx c
  x.live && g.st == .held && (g.holder == x.res || g.holder == x.resP)

/-- Every page of `[a, a + n)` lies in the saddle and is held by the context. -/
def State.holdsRange (s : State) (c a n : Nat) : Bool :=
  n != 0 && decide (a + n ≤ saddleSize)
    && (upto (a / pageSize) ((a + n - 1) / pageSize - a / pageSize + 1)).all (fun p => s.holdsPage c p)

/-- `[a, a + n)` lies in one of the partition's cluster buffers, in logical numbers (R165). -/
def State.inBuffers (s : State) (c a n : Nat) : Bool :=
  inClusters a && n != 0 && (s.ctx c).map.contains (clusterOf a).1 && decide ((clusterOf a).2 + n ≤ 0x100000)

/-- Buffer banks of `[off, off + n)`. -/
def bufferBanks (off n : Nat) : List Nat := if 1024 ≤ n then upto 0 16 else (upto (off / 64) ((off + n - 1) / 64 - off / 64 + 1)).map (· % 16)

/-- A range meets a powered-down bank of a cluster buffer (R161). -/
def State.bufferOff (s : State) (a n : Nat) : Bool :=
  inClusters a && n != 0 && (bufferBanks (clusterOf a).2 n).any (fun b => !bit (s.cluster (clusterOf a).1).pwr b)

/-! ### Counters (R262, R266, R276) -/

/-- The value of a counter of a context: of its core while resident, of its save area while its state
is there. -/
def State.ctrGet (s : State) (c core ctr : Nat) : Option Nat :=
  let x := s.ctx c
  if x.st = .resident then (x.coreAt core).map (fun n => tget 0 (s.core n).sync ctr)
  else ((x.saved.find? (fun p => p.1 == core)).map (fun p => tget 0 p.2.sync ctr))

def State.ctrSet (s : State) (c core ctr v : Nat) : State :=
  let x := s.ctx c
  if x.st = .resident then
    match x.coreAt core with
    | some n => s.modCore n (fun k => { k with sync := tset 0 k.sync ctr v })
    | none => s
  else s.modCtx c (fun x => { x with
    saved := modWhere (fun p => p.1 == core) (fun p => (p.1, { p.2 with sync := tset 0 p.2.sync ctr v })) x.saved })

/-- Awl engines that wait for their bell at a counter: each takes 1 of it before a gate does (R256, R267). -/
def State.awlClaim (s : State) (c core ctr : Nat) : Nat :=
  let x := s.ctx c
  if x.st = .resident then
    ((upto 0 x.map.length).filter (fun j => match x.map[j]?, x.decl.bind (fun d => d.rings[j]?) with
      | some cl, some r =>
        let k := s.cluster cl
        r.bellCore == core && r.bellCtr == ctr && k.awlJob.isNone && !k.awlStopped && k.assigned && r.n != 0
      | _, _ => false)).length
  else 0

/-- A gate of a job or call: beyond what goes before it (`ahead`, and waiting bells), its counter holds the amount, in
its core or, of a descheduled context, in the counter image of its save area (R121, R267, R276, R302). -/
def State.gateOpen (s : State) (c core ctr n ahead : Nat) : Bool :=
  n == 0 || (((s.ctx c).st == .resident || (s.ctx c).st == .descheduled)
    && decide (n + ahead + s.awlClaim c core ctr ≤ ((s.ctrGet c core ctr).getD 0)))

def State.gateTake (s : State) (c core ctr n : Nat) : State :=
  if n = 0 then s else s.ctrSet c core ctr ((s.ctrGet c core ctr).getD 0 - n)

/-- Sends an increment towards a counter (R266). -/
def State.sendIncr (s : State) (i : Incr) : State := if i.n = 0 then s else { s with flight := s.flight ++ [i] }

/-! ### Storage of a partition -/

def State.clearFails (s : State) (a n : Nat) : State :=
  { s with mem := { s.mem with failing := s.mem.failing.filter (fun l => decide (l.1 < a ∨ a + n ≤ l.1)) } }

/-- A range reads zero, with good checks. -/
def State.wipe (s : State) (a n : Nat) : State := (s.zero a n).clearFails a n

/-- The scratchpads and buffers of a partition read zero (R162, R436). -/
def State.wipePartition (s : State) (x : Ctx) : State :=
  let s := x.cores.foldl (fun s n => s.wipe (coreBase n) 0x20000) s
  x.map.foldl (fun s c => s.wipe (clusterBase c) 0x100000) s

/-- The cores of a partition hold no program; their diagnostic counters, and the range flag (R183), stay until the next
context starts. -/
def State.idleCores (s : State) (x : Ctx) : State :=
  x.cores.foldl (fun s n => s.modCore n (fun k =>
    { conflicts := k.conflicts, retired := k.retired, park := k.park, pwr := k.pwr, rangeFlag := k.rangeFlag })) s

def State.idleClusters (s : State) (x : Ctx) (assigned : Bool) : State :=
  x.map.foldl (fun s c => s.modCluster c (fun k =>
    { conflicts := k.conflicts, pwr := k.pwr, assigned := assigned && k.assigned })) s

/-! ### Pictures a context leaves (R437) -/

/-- A substitution entry (R444 type 4); causes whose replay is forced (R447). -/
def substEntry (cause pts seq : Nat) (forced : Bool) : Entry :=
  { typ := 4, sub := cause, payload := leBytes 8 pts ++ leBytes 4 seq, key2 := seq, forced := forced }

def forcedCause (cause : Nat) : Bool := [1, 2, 5, 9, 10, 12].contains cause

/-- Every picture of a slot in work with context `c` is substituted with `cause` (R394, R437). -/
def State.dropPics (s : State) (n c cause : Nat) : State :=
  let mine := fun (p : Pic) => p.subst.isNone && p.skived && p.cfg.bound.contains c
  let hit := (s.slot n).pics.filter mine
  let s := hit.foldl (fun s p => s.chainLate n (substEntry cause p.pts p.seq true)) s
  let s := s.count n 0x21 hit.length
  s.modSlot n (fun x => { x with
    pics := modWhere mine (fun p => { p with subst := some cause }) x.pics
    dec := if hit.isEmpty then x.dec else { x.dec with afterSubst := true } })

/-- Slots that a context is bound to. -/
def State.boundSlots (s : State) (c : Nat) : List Nat :=
  (s.slots.filter (fun p => p.2.cfg.bound.contains c)).map (·.1)

/-- A bind, unbind or teardown entry (R444 type 2). -/
def State.bindEntry (s : State) (n c sub code : Nat) : State :=
  let x := s.ctx c
  if (s.slot n).run = .unconfigured then s
  else s.chainLate n {
    typ := 2, sub := sub, forced := sub == 2, key3 := c,
    payload := leBytes 1 c ++ leBytes 2 code ++ padTo 64 x.imageDigest ++ padTo 64 x.weightDigest }

/-! ### Teardown (R436) -/

/-- Steps 1 to 4: jobs, calls and increments of the context are discarded. -/
def State.discardWork (s : State) (c : Nat) : State :=
  let mine := s.skv.queue.filter (fun j => j.ctx == c)
  let s := { s with skv := { s.skv with queue := s.skv.queue.filter (fun j => j.ctx != c) } }
  let s := mine.foldl State.skvRelease s
  let s := (upto 0 8).foldl (fun s n => match (s.skvUnit n).job with
    | some j => if j.ctx = c then (s.skvRelease j).modSkv n (fun u => { u with st := 0, job := none }) else s
    | none => s) s
  let s := { s with stc := { s.stc with queue := s.stc.queue.filter (fun k => k.ctx != c) } }
  let s := (upto 0 4).foldl (fun s n => match (s.stcUnit n).call with
    | some k => if k.ctx = c then s.modStc n (fun u => { u with st := 0, call := none }) else s
    | none => s) s
  { s with flight := s.flight.filter (fun i => i.ctx != c) }

/-- Bytes of a range, sparse. -/
def State.listed (s : State) (a n : Nat) : List (Nat × Byte) :=
  s.mem.bytes.filter (fun b => decide (a ≤ b.1 ∧ b.1 < a + n))

/-- Banks of a core or a cluster buffer: the declared ones are powered (R161). -/
def coreBankOf (off : Nat) : Nat := off / 0x4000
def bufferBankOf (off : Nat) : Nat := off / 64 % 16

/-- The save area's image of the partition: core states and declared banks, by partition address (R433).
Held operands, cells, tables and queues are not saved. -/
def State.saveImage (s : State) (x : Ctx) :
    List (Nat × Core) × List (Nat × Byte) × List (Nat × Tbl (Nat × Nat)) × List (Nat × Tbl Nat × Nat) :=
  let js := upto 0 x.numCores
  let cores := js.filterMap (fun j => (x.coreAt j).map (fun n =>
    (j, { s.core n with held := none, heldPrev := none, arrayQ := [], os := [], osFloat := false, lut := none, queues := [],
                        stalled := none, sigq := [], fills := [] })))
  let mem1 := js.flatMap (fun j => match x.coreAt j with
    | some n => (s.listed (coreBase n) 0x20000).map (fun b => (coreBase j + (b.1 - coreBase n), b.2))
    | none => [])
  let cs := (upto 0 x.map.length).zip x.map
  let mem2 := cs.flatMap (fun c => (s.listed (clusterBase c.2) 0x100000).map (fun b =>
    (clusterBase c.1 + (b.1 - clusterBase c.2), b.2)))
  (cores, mem1 ++ mem2, cs.map (fun c => (c.1, (s.cluster c.2).wc)),
    cs.map (fun c => (c.1, (s.cluster c.2).results5, (s.cluster c.2).awlIndex)))

def State.storeSave (s : State) (c : Nat) : State :=
  let g := s.saveImage (s.ctx c)
  s.modCtx c (fun x => { x with saved := g.1, savedMem := g.2.1, savedWc := g.2.2.1, savedSeq := g.2.2.2 })

/-- Page of a save area and byte in it, for a byte of the partition: each cluster's 16 scratchpads, then its
buffer (R433). -/
def savePlace (a : Nat) : Nat × Nat :=
  let o := if inCores a then ((coreOf a).1 / 16, (coreOf a).1 % 16 * 0x20000 + (coreOf a).2)
    else ((clusterOf a).1, 0x200000 + (clusterOf a).2)
  (o.1 * 51 + o.2 / pageSize, o.2 % pageSize)

/-- What the state and cluster blocks of a capture hold: the causing fault record, and of each core its range flag, PC,
registers, counters and bank owners (R433, R438). -/
def State.captureContents (s : State) (x : Ctx) : List Nat :=
  s.od.lastRecord.map (·.toNat) ++ x.saved.flatMap (fun p =>
    let k := p.2
    [p.1, b2n k.rangeFlag, k.pc, k.valid] ++ (upto 0 32).map (fun r => (tget 0#32 k.s r).toNat)
      ++ (upto 0 32).map (fun r => (tget 0#512 k.v r).toNat) ++ (upto 0 8).map (fun r => (tget 0#64 k.m r).toNat)
      ++ (upto 0 48).map (tget 0 k.sync) ++ (upto 0 8).map (tget 0 k.own))

/-- The state and cluster blocks of each cluster's save area, pages 48 to 50 of its 51. Their layout is not given: each
byte is a free value of what they hold (assumption 126). -/
def State.writeBlocks (s : State) (x : Ctx) : State :=
  let held := s.captureContents x
  ((upto 0 x.k).flatMap (fun j => upto (51 * j + 48) 3)).foldl (fun s n => match x.savePages[n]? with
    | some p => s.putBytes (p * pageSize) ((upto 0 pageSize).map (fun i => Config.captureByte held (n * pageSize + i)))
    | none => s) s

/-- The save image as the pages of the save area show it to a reader of the capture (R438): scratchpads, buffers, and
the blocks. -/
def State.writeCapture (s : State) (c : Nat) : State :=
  let x := s.ctx c
  let clear := x.savePages.foldl (fun s p => s.zero (p * pageSize) pageSize) s
  let s := { clear with mem := { clear.mem with 
    failing := clear.mem.failing.filter (fun l => !x.savePages.contains (pageOf l.1))
    cache := clear.mem.cache.filter (fun l => !x.savePages.contains (pageOf l.1)) } }
  (x.savedMem.foldl (fun s b =>
    let o := savePlace b.1
    match x.savePages[o.1]? with
    | some p => s.wrByte (p * pageSize + o.2) b.2
    | none => s) s).writeBlocks x

/-- Its cores hold the partition now. -/
def Ctx.onPartition (x : Ctx) : Bool :=
  x.st == .resident || x.st == .loading || x.st == .switchingOut || x.st == .switchingIn

/-- Other contexts that share the partition of `c` (R430). -/
def State.sharers (s : State) (c : Nat) : List Nat :=
  (s.ctxs.filter (fun p => p.1 != c && p.2.live && p.2.map == (s.ctx c).map)).map (·.1)

/-- Step 7: pages enter zeroing, other than those of a kept capture (R419, R438). -/
def State.freePages (s : State) (c : Nat) : State :=
  let x := s.ctx c
  let s := s.endReserv x.resP
  if x.capture then x.pages.foldl State.freeHeld s else s.endReserv x.res

/-- Teardown with the fault code of its cause; `capture` false at standby entry (R474). -/
def State.teardownWith (s : State) (c code : Nat) (capture : Bool) : State :=
  let x := s.ctx c
  if !x.live then s
  else
    let s := s.discardWork c
    let keep := capture && x.debug && !x.standing
    let s := if keep && x.st == .resident then s.storeSave c else s
    let s := if keep then s.writeCapture c else s
    let shared := !(s.sharers c).isEmpty
    let s := if x.onPartition && !x.standing then ((s.idleCores x).idleClusters x shared).wipePartition x
             else if shared then s else s.idleClusters x false
    let s := x.ctrs.foldl (fun s p => s.modWork p (fun _ => {})) s
    let s := s.modCtx c (fun y => { y with
      st := .ended, lastFault := code, capture := keep, ready := false, preempt := false, standing := false,
      deschedulable := false, destroyWish := false,
      saved := if keep then y.saved else [], savedMem := if keep then y.savedMem else [],
      savedWc := if keep then y.savedWc else [], savedSeq := if keep then y.savedSeq else [], map := if keep then y.map else [], ctrs := [] })
    let s := s.freePages c
    let s := if s.narr.ctx = some c then s.narrFault.endReserv s.narr.kvRes else s
    let slots := s.boundSlots c
    let s := slots.foldl (fun s n => (s.dropPics n c 10).bindEntry n c 2 code) s
    s.modRun c (fun r => { r with allotMw := 0, lentMw := 0, power := [], rerun := [] })

/-- A faulted context is torn down once, whatever the number of faults of one cycle (R437, R594). -/
def State.teardown (s : State) (c code : Nat) : State := s.teardownWith c code true

/-- A capture ends: its pages are zeroed (R438). -/
def State.dropCapture (s : State) (c : Nat) : State :=
  if (s.ctx c).capture then
    (s.endReserv (s.ctx c).res).modCtx c (fun x => { x with
      capture := false, saved := [], savedMem := [], savedWc := [], savedSeq := [], savePages := [], map := [] })
  else s

end Sys2Proof.Machine
end

