-- ==== Sys2Proof/Machine/Keeper.lean ====
section
/-! DEFINITION. The Keeper: fuses (R545, R546), containers (R551 to R554), attestation (R567, R568),
debug unlock (R569, R570), the boot journal and the stored configuration (R563 to R565, R572). -/
namespace Sys2Proof.Machine
open Sys2Proof

/-- Bit `b` of the route's permissions: 0 read, 1 write basic, 2 write expert, 3 context commands,
4 security entries (R572); the Cantle's own route has every one. -/
def State.permits (s : State) (route : OdRoute) (b : Nat) : Bool :=
  match route with
  | .cantle => true
  | r => bit (s.odNat 0x7010 (OdRoute.num r + 1) 0x1F) b

/-- A request that needs permission `b`: ACCESS without it (R535, R572). -/
def State.secured (s : State) (route : OdRoute) (b : Nat) (r : Reply) : Reply :=
  if s.permits route b then r else ⟨2, 0, s⟩

/-- Ends a command that is a dictionary write of the route's session 0 (assumption 13). -/
def reqDone (s : State) (route : OdRoute) (r : Reply) : Host.Outcome State Fault Refusal :=
  whenReady s (r.send route 0)

/-! ### Keys and containers -/

/-- Hash and key_id of a public key (R544). -/
def keyHash (k : List Byte) : List Byte := (sha512 k).take 32
def keyId (k : List Byte) : List Byte := (sha512 k).take 8

/-- Vendor key `i` with this public key: fused and not revoked (R552). -/
def Fuses.vendorOk (f : Fuses) (i : Nat) (k : List Byte) : Bool :=
  f.vendorHash[i]? == some (keyHash k) && !bit f.vendorRevoked i

def Fuses.ownerOk (f : Fuses) (i : Nat) (k : List Byte) : Bool :=
  tget none f.ownerHash i == some (keyHash k) && !bit f.ownerRevoked i

/-- Bytes of a slot of each kind in the flash map (R550). -/
def slotBytes (kind : Nat) : Nat :=
  if kind = 1 then 0x100000 else if kind = 2 then 0x800000 else if kind = 3 then 0x400000 else 0x1000000

/-- R552 for the kinds signed by a vendor key. -/
def State.containerOk (s : State) (c : Container) (kind : Nat) : Bool :=
  c.magicOk && c.version == 1 && c.kind == kind && decide (c.key < 4) && decide (c.svn ≤ 64)
    && c.length == c.payload.length && decide (256 + c.payload.length ≤ slotBytes kind)
    && c.digest == sha512 c.payload && Config.verify c.signer c.header c.signature
    && s.fuses.vendorOk c.key c.signer

/-- Detail field of FLT_BOOT_VERIFY: kind in [7:0], slot in [8] (R552, assumption 14). -/
def verifyDetail (kind slot : Nat) : Nat := kind + slot * 256

/-! ### Journal (R563) -/

/-- A record of the boot journal: a full ring first loses its oldest sector of 1,024 (R563). Its
time, on the Keeper's own oscillator, is a free value (assumption 3). -/
def State.journal (s : State) (stage outcome count fault detail bitmap : Nat) : State :=
  let d := s.draw 32
  let s := d.2
  let r : JournalRec := {
    boot := s.boot.bootNum, stage := stage, outcome := outcome, count := count, cause := s.boot.cause,
    fault := fault, detail := detail, bitmap := bitmap, ms := d.1 }
  let old := if s.flash.journal.length < 4096 then s.flash.journal else s.flash.journal.take 3072
  { s with flash := { s.flash with journal := r :: old } }

/-- The 64 B record. -/
def JournalRec.bytes (r : JournalRec) : List Byte :=
  let b := ascii "QSJR" ++ leBytes 4 r.boot ++ leBytes 1 r.stage ++ leBytes 1 r.outcome ++ leBytes 1 r.count
    ++ leBytes 1 r.cause ++ leBytes 2 r.fault ++ leBytes 2 0 ++ leBytes 4 r.detail ++ leBytes 4 r.ms
    ++ leBytes 17 r.bitmap ++ copies 19 0#8
  b ++ leBytes 4 (crc32 b)

def execJournalSelect (route : OdRoute) (pos : Nat) (s : State) : Host.Outcome State Fault Refusal :=
  reqDone s route (s.secured route 4 ⟨0, 0, { s with kpr := { s.kpr with jpos := pos } }⟩)

/-- R558: the count of a stage is reset, with a record of outcome 6. -/
def State.resetCount (s : State) (stage : Nat) : State :=
  let s := s.journal stage 6 0 0 0 0
  { s with boot := { s.boot with
      counts := tset 0 s.boot.counts stage 0, latched := tset false s.boot.latched stage false,
      altFails := tset 0 s.boot.altFails stage 0,
      dieOut := if stage = 4 then none else s.boot.dieOut } }

def execStageCountReset (route : OdRoute) (stage : Nat) (s : State) : Host.Outcome State Fault Refusal :=
  reqDone s route (s.secured route 4
    (if 1 ≤ stage ∧ stage ≤ 9 then ⟨0, 0, s.resetCount stage⟩ else ⟨3, 0, s⟩))

/-! ### Attestation (R567, R568) -/

/-- Report fields 0 to 447 (R567). -/
def State.reportBody (s : State) (nonce : List Byte) : List Byte :=
  let f := s.fuses
  let cont := fun (k : Nat) => tget none s.flash.slots (k * 2 + tget 0 s.boot.from2 k)
  let digest := fun (k : Nat) => match cont k with | some c => c.digest | none => sha512 []
  let ver := fun (k : Nat) => match cont k with | some c => c.fwVersion | none => 0
  let flags := b2n s.boot.conservative + 2 * tget 0 s.boot.from2 1 + 4 * tget 0 s.boot.from2 2
    + 8 * tget 0 s.boot.from2 3 + 16 * b2n (s.boot.quarantined != 0) + 32 * b2n s.boot.skipped8
    + 64 * b2n s.boot.softRestarted + 128 * b2n s.mem.lostDie.isSome
  let ctxs := s.ctxs.filter (fun c => c.2.st == .resident || c.2.st == .descheduled)
  ascii "QSAT" ++ leBytes 2 1 ++ leBytes 2 0 ++ padTo 32 nonce ++ padTo 16 f.serial
    ++ keyId Config.devicePublicKey ++ leBytes 1 f.part ++ leBytes 1 f.stepping ++ leBytes 2 s.boot.clusters
    ++ leBytes 1 s.decoderCount ++ leBytes 1 (if s.mem.lostDie.isSome then 1 else 2) ++ leBytes 1 flags
    ++ leBytes 1 s.kpr.grantedEver ++ leBytes 4 s.boot.bootNum ++ leBytes 2 Config.romVersion ++ leBytes 2 0
    ++ leBytes 4 (ver 1) ++ leBytes 4 (ver 2) ++ leBytes 4 (ver 3)
    ++ leBytes 1 (tget 0 f.svn 1) ++ leBytes 1 (tget 0 f.svn 2) ++ leBytes 1 (tget 0 f.svn 3) ++ leBytes 1 0
    ++ leBytes 17 s.boot.quarantined ++ copies 15 0#8
    ++ digest 1 ++ digest 2 ++ digest 3
    ++ sha512 (s.flash.softMap.flatMap (fun m => leBytes 1 m.1 ++ leBytes 1 m.2.1 ++ leBytes 2 m.2.2.1
        ++ leBytes 1 m.2.2.2.1 ++ leBytes 1 m.2.2.2.2 ++ leBytes 2 0))
    ++ sha512 (ctxs.flatMap (fun c => leBytes 1 c.1 ++ padTo 64 c.2.imageDigest ++ padTo 64 c.2.weightDigest))

/-- The request: at most 10 reports per second and route (R568). -/
def State.attest (s : State) (route : OdRoute) (nonce : List Byte) : Reply :=
  let n := tget 0 s.kpr.reports (OdRoute.num route)
  if nonce.length ≠ 32 then ⟨4, 0, s⟩
  else if 10 ≤ n then s.refuse route 0x7001 fltKprBusy
  else
    let body := s.reportBody nonce
    ⟨0, 0, { s with kpr := { s.kpr with
      report := body ++ padTo 64 (Config.deviceSign body), signed := (s.kpr.signed + 1) % 2 ^ 64,
      reports := tset 0 s.kpr.reports (OdRoute.num route) (n + 1) } }⟩

def execAttestationRequest (route : OdRoute) (nonce : List Byte) (s : State) : Host.Outcome State Fault Refusal :=
  reqDone s route (s.secured route 1 (s.attest route nonce))

/-! ### Debug unlock (R569, R570) -/

def State.challenge (s : State) (route scope : Nat) : State :=
  let d := s.draw 256
  let c := ascii "QSDC" ++ leBytes 2 1 ++ leBytes 1 scope ++ leBytes 1 route ++ leBytes 32 d.1
    ++ padTo 16 s.fuses.serial ++ keyId Config.devicePublicKey
  { d.2 with kpr := { d.2.kpr with challenge := c, chalScope := scope, chalRoute := some route } }

/-- A refusal during the lockout: FLT_KPR_UNLOCK with the route (R570). -/
def State.unlockRefused (s : State) (route : Nat) : State :=
  s.raise { code := fltKprUnlock, unit := route, detail := 0x7040 }

/-- A challenge is requested for a route: 0 JTAG, 1 mailbox, 2 UDP, 3 CAN FD. -/
def State.askChallenge (s : State) (route scope : Nat) : State :=
  if 4 ≤ route then s else if s.kpr.lockout then s.unlockRefused route else s.challenge route (scope % 32)

def execDebugChallengeRequest (route scope : Nat) (s : State) : Host.Outcome State Fault Refusal :=
  whenUp s (s.askChallenge route scope)

/-- The key of a response may grant the challenge's scopes (R569, R570). -/
def State.responseOk (s : State) (r : DebugResp) : Bool :=
  let vendor := bit r.keyByte 2
  let i := r.keyByte % 4
  s.kpr.chalRoute == some r.route
    && (if vendor then s.fuses.vendorOk i r.key else s.fuses.ownerOk i r.key)
    && (!bit s.kpr.chalScope 4 || (vendor && !s.fuses.vendorDebugOff))
    && Config.verify r.key s.kpr.challenge r.signature

/-- Each challenge admits one response; the third rejection begins the lockout. -/
def State.respond (s : State) (r : DebugResp) : State :=
  if s.kpr.lockout then s.unlockRefused r.route
  else if s.responseOk r then
    let g := s.kpr.scopes ||| s.kpr.chalScope
    ({ s with kpr := { s.kpr with
        scopes := g, grantedEver := s.kpr.grantedEver ||| s.kpr.chalScope,
        chalRoute := none, accepted := true, rejected := false } }).raise
      { code := evtKprDebug, unit := r.route, detail := 0x7040 }
  else
    let n := s.kpr.rejects + 1
    { s with kpr := { s.kpr with
        chalRoute := none, accepted := false, rejected := true,
        rejects := if n = 3 then 0 else n, lockout := decide (n = 3) } }

def execDebugResponse (r : DebugResp) (s : State) : Host.Outcome State Fault Refusal :=
  whenUp s (s.respond r)

def execUnlockLockoutEnd (s : State) : Host.Outcome State Fault Refusal :=
  whenUp s { s with kpr := { s.kpr with lockout := false } }

/-! ### Fuses (R545, R546) -/

/-- Bytes ORed: a fuse bit, once set, is never cleared. -/
def orBytes (a b : List Byte) : List Byte := List.zipWith (· ||| ·) (padTo 32 a) (padTo 32 b)

/-- A fuse write: the command is refused where the read-back fails, and what was written stays. -/
def State.fuseDone (s : State) (route : OdRoute) (index : Nat) (verified : Bool) : Reply :=
  if verified then ⟨0, 0, s⟩ else s.refuse route index fltKprFuse

/-- Owner key `k`: its hash is burned while owner_lock is clear; which bits an unverified write left
is a free value. -/
def State.burnKey (s : State) (route : OdRoute) (k : Nat) (key : List Byte) (verified : Bool) : Reply :=
  if s.fuses.ownerLock || decide (4 ≤ k) then ⟨2, 0, s⟩
  else if key.length ≠ 32 then ⟨4, 0, s⟩
  else
    let d := s.draw 256
    let mask := if verified then copies 32 0xFF#8 else leBytes 32 d.1
    let s := if verified then s else d.2
    let old := (tget none s.fuses.ownerHash k).getD []
    let new := orBytes old (List.zipWith (· &&& ·) (keyHash key) mask)
    ({ s with fuses := { s.fuses with
        ownerHash := tset none s.fuses.ownerHash k (some new) } }).fuseDone route 0x7012 verified

def execOwnerKeyBurn (route : OdRoute) (k : Nat) (key : List Byte) (verified : Bool) (s : State) :
    Host.Outcome State Fault Refusal :=
  reqDone s route (s.secured route 4 (s.burnKey route k key verified))

/-- The owner's bits. -/
def State.setFuse (s : State) (route : OdRoute) (f : OwnerFuse) (verified : Bool) : Reply :=
  let d := s.draw 4
  let m := if verified then 15 else d.1
  let s := if verified then s else d.2
  let u := s.fuses
  let u := match f with
    | .ownerLock => { u with ownerLock := u.ownerLock || bit m 0 }
    | .imagesRequired => { u with imagesRequired := u.imagesRequired || bit m 0 }
    | .vendorDebugDisable => { u with vendorDebugOff := u.vendorDebugOff || bit m 0 }
    | .revocation mask => { u with ownerRevoked := u.ownerRevoked ||| (mask % 16 &&& m) }
  ({ s with fuses := u }).fuseDone route 0x7012 verified

def execOwnerFuseSet (route : OdRoute) (f : OwnerFuse) (verified : Bool) (s : State) :
    Host.Outcome State Fault Refusal :=
  reqDone s route (s.secured route 4 (s.setFuse route f verified))

/-- R553: bits up to the svn of the running container of the kind, in a boot that reached stage 9. -/
def State.advanceSvn (s : State) (route : OdRoute) (kind : Nat) (verified : Bool) : Reply :=
  if kind < 1 ∨ 3 < kind then ⟨3, 0, s⟩
  else match tget none s.flash.slots (kind * 2 + tget 0 s.boot.from2 kind) with
    | some c =>
      if s.boot.stage = 9 then
        let d := s.draw 7
        let old := tget 0 s.fuses.svn kind
        let new := if verified then max old c.svn else max old (min c.svn d.1)
        let s := if verified then s else d.2
        ({ s with fuses := { s.fuses with svn := tset 0 s.fuses.svn kind new } }).fuseDone route 0x7020 verified
      else s.refuse route 0x7020 fltBootRollback
    | none => s.refuse route 0x7020 fltBootVerify

def execSvnAdvance (route : OdRoute) (kind : Nat) (verified : Bool) (s : State) : Host.Outcome State Fault Refusal :=
  reqDone s route (s.secured route 4 (s.advanceSvn route kind verified))

/-- R572: a revocation container, not signed by a key it revokes. -/
def State.revoke (s : State) (route : OdRoute) (c : Container) (verified : Bool) : Reply :=
  let mask := leNat (c.payload.take 1) % 16
  if s.containerOk c 5 && !bit mask c.key then
    let d := s.draw 4
    let m := if verified then mask else mask &&& d.1
    let s := if verified then s else d.2
    ({ s with fuses := { s.fuses with vendorRevoked := s.fuses.vendorRevoked ||| m } }).fuseDone route 0x7020 verified
  else s.refuse route 0x7020 fltBootVerify

def execRevocationContainer (route : OdRoute) (c : Container) (verified : Bool) (s : State) :
    Host.Outcome State Fault Refusal :=
  reqDone s route (s.secured route 4 (s.revoke route c verified))

/-! ### Firmware update (R554) -/

/-- The update of the target slot (kind in [3:0], slot in [4]): verified under R552 and R553, and
refused for a slot that the running boot uses. -/
def State.update (s : State) (route : OdRoute) (c : Container) : Reply :=
  let kind := s.kpr.updTarget % 16
  let slot := bits s.kpr.updTarget 4 4
  let no := fun code => ({ s with kpr := { s.kpr with updState := 3 } }).refuse route 0x7060 code
  if kind < 1 ∨ 3 < kind ∨ !s.containerOk c kind then no fltBootVerify
  else if c.svn < tget 0 s.fuses.svn kind then no fltBootRollback
  else if tget 0 s.boot.from2 kind = slot then no fltBootUpdate
  else
    -- the slot holds no verified container while it is written
    ⟨0, 0, { s with kpr := { s.kpr with updState := 1, updData := some c },
                    flash := { s.flash with slots := tset none s.flash.slots (kind * 2 + slot) none } }⟩

def execFirmwareUpdate (route : OdRoute) (c : Container) (s : State) : Host.Outcome State Fault Refusal :=
  reqDone s route (s.secured route 4 (s.update route c))

def execFirmwareUpdateDone (s : State) : Host.Outcome State Fault Refusal :=
  whenReady s (if s.kpr.updState = 1 then
      { s with kpr := { s.kpr with updState := 2, updData := none },
               flash := { s.flash with
                 slots := tset none s.flash.slots (s.kpr.updTarget % 16 * 2 + bits s.kpr.updTarget 4 4) s.kpr.updData } }
    else s)

/-! ### Stored configuration (R565) -/

/-- First byte of the image store in the flash (R550). -/
def imageStoreBase : Nat := 0x03A90000

/-- The image store after adding an image, where it fits (R550, R565). -/
def addImage (store : List (List Byte × List Byte)) (e : List Byte × List Byte) : List (List Byte × List Byte) :=
  let used := store.foldl (fun n x => n + x.2.length) 0
  if store.any (fun x => x.1 == e.1) then store
  else if imageStoreBase + used + e.2.length ≤ Config.flashBytes then store ++ [e] else store

/-- Every writable entry whose value differs from its default, in ascending index, and the digest of each
image that a created context uses. -/
def State.saveConfig (s : State) (route : OdRoute) : Reply :=
  let vs := s.od.values.filterMap (fun p => p.2.map (fun v => (p.1, v)))
  let bytes := vs.flatMap (fun p => leBytes 4 p.1 ++ leBytes 2 p.2.length ++ p.2)
  let used := s.ctxs.filter (fun c => !c.2.imagePages.isEmpty && c.2.st != .ended && c.2.st != .free)
  let image := fun (c : Nat × Ctx) => (c.2.imageDigest, c.2.imagePages.flatMap (fun p => s.rdBytes (p * 0x10000) 0x10000))
  if 0x1000000 < bytes.length then s.refuse route 0x7050 fltBootStore
  else ⟨0, 0, { s with flash := { s.flash with
    stored := some vs, storedDigest := sha512 bytes, storedImages := used.map (fun c => (c.1, c.2.imageDigest))
    images := (used.map image).foldl addImage s.flash.images } }⟩

def execConfigSave (route : OdRoute) (s : State) : Host.Outcome State Fault Refusal :=
  reqDone s route (s.secured route 4 (s.saveConfig route))

def execConfigErase (route : OdRoute) (s : State) : Host.Outcome State Fault Refusal :=
  reqDone s route (s.secured route 4
    ⟨0, 0, { s with flash := { s.flash with stored := none, storedDigest := [], storedImages := [] } }⟩)

end Sys2Proof.Machine
end

