-- ==== Sys2Proof/Machine/LoopTab.lean ====
section
/-! DEFINITION. Loop descriptor tables as R213 to R216 lay them out. -/
namespace Sys2Proof.Machine
open Sys2Proof

structure LevelRec where
  order : List Nat
  b : List Nat
  hlo : List Nat
  hhi : List Nat
  deriving DecidableEq, Repr

structure TensorRec where
  home : Nat
  cbase : List Nat
  sbase : List Nat
  format : Nat
  role : Nat
  nAxes : Nat
  rdim : Nat
  flags : Nat
  zp : Int
  extent : List Nat
  coef : List (List Nat)
  offset : List Int
  hstride : List Int
  cstride : List Int
  sstride : List Int
  deriving DecidableEq, Repr

/-- A table as R213 to R216 lay it out; `levels` by level number. -/
structure Tab where
  cls : Nat
  nDims : Nat
  nTens : Nat
  dist5 : Nat
  dist3 : Nat
  wc5 : Nat
  wc3 : Nat
  x : List Nat
  list : Nat
  levels : List LevelRec
  tens : List TensorRec
  deriving DecidableEq, Repr

def readLevel (t : List Byte) (l : Nat) : LevelRec :=
  let o := 64 + (5 - l) * 32
  let ord := fieldAt t o 3
  { order := (upto 0 6).map (fun i => bits ord (3 * i + 2) (3 * i))
    b := (upto 0 6).map (fun d => fieldAt t (o + 4 + 2 * d) 2)
    hlo := (upto 0 6).map (fun d => fieldAt t (o + 16 + d) 1)
    hhi := (upto 0 6).map (fun d => fieldAt t (o + 22 + d) 1) }

def i32At (t : List Byte) (o : Nat) : Int := sgn 32 (fieldAt t o 4)

def readTensor (t : List Byte) (n : Nat) : TensorRec :=
  let o := 256 + 160 * n
  let four := fun (f : Nat → Int) => (upto 0 4).map f
  { home := fieldAt t o 8
    cbase := [fieldAt t (o + 8) 4, fieldAt t (o + 12) 4]
    sbase := [fieldAt t (o + 16) 4, fieldAt t (o + 20) 4]
    format := fieldAt t (o + 24) 1, role := fieldAt t (o + 25) 1, nAxes := fieldAt t (o + 26) 1
    rdim := fieldAt t (o + 27) 1, flags := fieldAt t (o + 28) 1, zp := sgn 16 (fieldAt t (o + 30) 2)
    extent := (upto 0 4).map (fun a => fieldAt t (o + 32 + 4 * a) 4)
    coef := (upto 0 4).map (fun a => (upto 0 6).map (fun d => fieldAt t (o + 48 + 6 * a + d) 1))
    offset := four (fun a => i32At t (o + 72 + 4 * a))
    hstride := four (fun a => i32At t (o + 88 + 4 * a))
    cstride := four (fun a => i32At t (o + 104 + 4 * a))
    sstride := four (fun a => i32At t (o + 120 + 4 * a)) }

def readTab (t : List Byte) : Tab :=
  { cls := fieldAt t 0 1, nDims := fieldAt t 1 1, nTens := fieldAt t 2 1, dist5 := fieldAt t 3 1, dist3 := fieldAt t 4 1
    wc5 := fieldAt t 5 1, wc3 := fieldAt t 6 1, x := (upto 0 6).map (fun d => fieldAt t (8 + 4 * d) 4), list := fieldAt t 32 8
    levels := (upto 0 6).map (readLevel t), tens := (upto 0 4).map (readTensor t) }

def noLevel : LevelRec := ⟨[], [], [], []⟩
def noTensor : TensorRec := ⟨0, [], [], 0, 0, 0, 0, 0, 0, [], [], [], [], [], []⟩

def Tab.level (t : Tab) (l : Nat) : LevelRec := t.levels.getD l noLevel
def Tab.tensor (t : Tab) (n : Nat) : TensorRec := t.tens.getD n noTensor
def Tab.bound (t : Tab) (l d : Nat) : Nat := (t.level l).b.getD d 1
def Tab.lo (t : Tab) (l d : Nat) : Nat := (t.level l).hlo.getD d 0
def Tab.hi (t : Tab) (l d : Nat) : Nat := (t.level l).hhi.getD d 0
def Tab.ext (t : Tab) (d : Nat) : Nat := t.x.getD d 1

end Sys2Proof.Machine
end

