-- ==== Sys2Proof/Machine/Layer.lean ====
section
/-! DEFINITION. Layer records of an image or a primitive (R241), and the shape check over them and their tables (R242
to R246, R254). -/
namespace Sys2Proof.Machine
open Sys2Proof

/-! ### Records (R241) -/

/-- A layer record (R241); `rsvOk`: its reserved bytes are zero. -/
structure LayerRec where
  kind : Nat
  group : Nat
  kH : Nat
  kW : Nat
  sH : Nat
  sW : Nat
  dH : Nat
  dW : Nat
  padTop : Nat
  padBottom : Nat
  padLeft : Nat
  padRight : Nat
  inH : Nat
  inW : Nat
  outH : Nat
  outW : Nat
  cIn : Nat
  cOut : Nat
  tabFirst : Nat
  nTab : Nat
  rsvOk : Bool
  deriving DecidableEq, Repr

def readLayer (b : List Byte) : LayerRec :=
  let f := fieldAt b
  { kind := f 0 1, group := f 1 1, kH := f 2 1, kW := f 3 1, sH := f 4 1, sW := f 5 1, dH := f 6 1, dW := f 7 1
    padTop := f 8 1, padBottom := f 9 1, padLeft := f 10 1, padRight := f 11 1, inH := f 12 4, inW := f 16 4
    outH := f 20 4, outW := f 24 4, cIn := f 28 4, cOut := f 32 4, tabFirst := f 36 2, nTab := f 38 1
    rsvOk := f 39 9 == 0 }

/-- The records, 48 B each. -/
def LayerSection.layers (x : LayerSection) : List LayerRec := (chunks 48 (x.records.length / 48) x.records).map readLayer

/-- Table `n`, 896 B (R213). -/
def LayerSection.table (x : LayerSection) (n : Nat) : Option Tab :=
  if 896 * (n + 1) ≤ x.tables.length then some (readTab ((x.tables.drop (896 * n)).take 896)) else none

/-- The tables that a record names; none where one does not exist. -/
def LayerSection.tablesOf (x : LayerSection) (l : LayerRec) : Option (List Tab) := (upto l.tabFirst l.nTab).mapM (LayerSection.table x)

/-- Ranges of a record's fields (R241). -/
def layerRange (l : LayerRec) : Bool :=
  let one := fun (v m : Nat) => decide (1 ≤ v) && decide (v ≤ m)
  decide (l.kind ≤ 6) && decide (l.group < 32) && one l.kH 255 && one l.kW 255 && one l.sH 255 && one l.sW 255
    && one l.dH 255 && one l.dW 255 && decide (l.padTop < 256) && decide (l.padBottom < 256)
    && decide (l.padLeft < 256) && decide (l.padRight < 256) && one l.inH 2147483647 && one l.inW 2147483647
    && one l.nTab 255 && l.rsvOk && (l.kind == 0 || 5 ≤ l.kind || l.cOut == l.cIn)

/-- The records are whole, and their fields in range. -/
def LayerSection.rangeOk (x : LayerSection) : Bool := x.records.length % 48 == 0 && (LayerSection.layers x).all layerRange

/-! ### Layer shapes (R242, R243) -/

def outSize (inp p0 p1 k d st : Nat) : Int :=
  Int.fdiv ((inp : Int) + p0 + p1 - ((k - 1) * d + 1)) st + 1

/-- The outputs that tap `t` reaches on an axis, clipped to `[0, out)`. -/
def tapRange (inp pad d st out t : Nat) : Int × Int :=
  (max 0 (-(Int.fdiv (-((pad : Int) - t * d)) st)), min ((out : Int) - 1) (Int.fdiv ((inp : Int) - 1 + pad - t * d) st))

/-- The ranges, by rising start, cover `[from, out)`. -/
def coversFrom (out : Int) : List (Int × Int) → Int → Bool
  | [], nxt => decide (out ≤ nxt)
  | (lo, hi) :: t, nxt => decide (lo ≤ nxt) && coversFrom out t (max nxt (hi + 1))

/-- Some output position of a pooling axis has no valid input position. -/
def emptyWindow (inp pad k d st out : Nat) : Bool :=
  let rs := ((upto 0 k).map (fun t => tapRange inp pad d st out t)).filter (fun r => decide (r.1 ≤ r.2))
  !coversFrom out (sortBy (fun r => r.1.toNat) rs) 0

/-! ### Tables of a layer (R244, R246) -/

/-- An axis of a tensor record: coefficients on the six dimensions, offset, extent. The dimensions are output column,
output row, output channel, input channel, kernel column, kernel row (R244). -/
structure AxisSpec where
  coef : List Nat
  offset : Int
  extent : Int
  deriving DecidableEq, Repr

/-- Coefficients on two dimensions. -/
def coefOn (d v e w : Nat) : List Nat := (upto 0 6).map (fun i => if i = d then v else if i = e then w else 0)

/-- Axis `a` of a tensor record. -/
def TensorRec.axis (r : TensorRec) (a : Nat) : AxisSpec :=
  ⟨r.coef.getD a [], r.offset.getD a 0, (r.extent.getD a 0 : Nat)⟩

/-- The record has these axes, in some order. -/
def TensorRec.hasAxes (r : TensorRec) (xs : List AxisSpec) : Bool :=
  r.nAxes == xs.length && xs.all (fun x => (upto 0 r.nAxes).any (fun a => r.axis a == x))

/-- One axis of a layer: input size, leading padding, kernel, dilation, stride, output size, and the output and kernel
dimensions of the tables. -/
structure LayerAxis where
  inp : Nat
  pad : Nat
  k : Nat
  d : Nat
  s : Nat
  out : Nat
  dOut : Nat
  dKer : Nat
  deriving DecidableEq, Repr

def LayerRec.row (l : LayerRec) : LayerAxis := ⟨l.inH, l.padTop, l.kH, l.dH, l.sH, l.outH, 1, 5⟩
def LayerRec.col (l : LayerRec) : LayerAxis := ⟨l.inW, l.padLeft, l.kW, l.dW, l.sW, l.outW, 0, 4⟩

/-- The stride exceeds the effective kernel: the axis takes the tap-split form (R246). -/
def LayerAxis.split (x : LayerAxis) : Bool := decide ((x.k - 1) * x.d + 1 < x.s)

/-- lo_t and hi_t of a tap. -/
def LayerAxis.range (x : LayerAxis) (t : Nat) : Int × Int := tapRange x.inp x.pad x.d x.s x.out t

/-- Taps of an axis that have a table of their own; the direct form has one table for all (`none`). -/
def LayerAxis.taps (x : LayerAxis) : List (Option Nat) :=
  if x.split then ((upto 0 x.k).filter (fun t => decide ((x.range t).1 ≤ (x.range t).2))).map some else [none]

/-- The input axis in the direct form (R244), or of a tap (R246). -/
def LayerAxis.input (x : LayerAxis) : Option Nat → AxisSpec
  | none => ⟨coefOn x.dOut x.s x.dKer x.d, -(x.pad : Nat), (x.inp : Nat)⟩
  | some t => ⟨coefOn x.dOut 1 x.dKer 0, -(x.range t).1, (x.range t).2 - (x.range t).1 + 1⟩

/-- The accumulator axis. -/
def LayerAxis.acc (x : LayerAxis) : AxisSpec := ⟨coefOn x.dOut 1 x.dKer 0, 0, (x.out : Nat)⟩

/-- The weights' kernel axis. -/
def LayerAxis.weight (x : LayerAxis) : AxisSpec := ⟨coefOn x.dKer 1 x.dOut 0, 0, (x.k : Nat)⟩

/-- Channel axes: input channels on their dimension, output channels on theirs. -/
def inChannels (l : LayerRec) : AxisSpec := ⟨coefOn 3 1 2 0, 0, (l.cIn : Nat)⟩
def outChannels (l : LayerRec) : AxisSpec := ⟨coefOn 2 1 3 0, 0, (l.cOut : Nat)⟩

/-- The input tensor of a table for the taps (row, column), with its axes' places. A depthwise convolution or a pooling
layer keeps its channels on one dimension, of input or of output channels (assumption 127). -/
def LayerRec.inputOf (l : LayerRec) (t : Option Nat × Option Nat) (v : Tab) : Option TensorRec :=
  let ax := [l.row.input t.1, l.col.input t.2]
  (v.tens.take v.nTens).find? (fun r => r.role != 1
    && (r.hasAxes (ax ++ [inChannels l]) || (l.kind != 0 && r.hasAxes (ax ++ [outChannels l]))))

/-- A table describes the layer for these taps (R244, R246). -/
def LayerRec.describes (l : LayerRec) (t : Option Nat × Option Nat) (v : Tab) : Bool :=
  let ts := v.tens.take v.nTens
  (l.inputOf t v).isSome
    && (l.kind != 0 || ts.any (fun r => r.role == 1 && r.hasAxes [l.row.acc, l.col.acc, outChannels l]))
    && (l.kind != 0 || t.1.isSome || t.2.isSome
      || ts.any (fun r => r.role != 1 && r.hasAxes [l.row.weight, l.col.weight, inChannels l, outChannels l]))

/-- Home stride of the input's axis that `x` describes. -/
def TensorRec.homeStride (r : TensorRec) (x : AxisSpec) : Int :=
  match (upto 0 r.nAxes).find? (fun a => r.axis a == x) with
  | some a => r.hstride.getD a 0
  | none => 0

/-- How far a tap's home lies from the input's origin: (s × lo + t × d − pad) × pitch, with hstride = s × pitch (R246);
none where the stride does not fit. -/
def LayerAxis.homeStep (x : LayerAxis) (t : Option Nat) (r : TensorRec) : Option Int :=
  match t with
  | none => some 0
  | some k =>
    let h := r.homeStride (x.input t)
    let st : Int := (x.s : Nat)
    if h % st = 0 then some ((st * (x.range k).1 + (k : Int) * (x.d : Nat) - (x.pad : Nat)) * (h / st)) else none

/-- The input's origin, and its pitch on each axis that is split, as a table places them. -/
def LayerRec.origin (l : LayerRec) (t : Option Nat × Option Nat) (v : Tab) : Option (Int × Int × Int) :=
  (l.inputOf t v).bind (fun r => match l.row.homeStep t.1 r, l.col.homeStep t.2 r with
    | some a, some b =>
      let pitch := fun (x : LayerAxis) (k : Option Nat) => if k.isSome then r.homeStride (x.input k) else 0
      some ((r.home : Nat) - a - b, pitch l.row t.1, pitch l.col t.2)
    | _, _ => none)

/-- The tables describe the layer: in the direct form each of them does; in the tap-split form there is one for each
pair of taps that reads anything, all on one input. The tables of Awl layers are held to nothing: R244 is of
convolutions on the array. -/
def LayerSection.describes (x : LayerSection) (l : LayerRec) : Bool :=
  match LayerSection.tablesOf x l with
  | none => false
  | some vs =>
    if 5 ≤ l.kind then true
    else
      let pairs := l.row.taps.flatMap (fun a => l.col.taps.map (fun b => (a, b)))
      let places := pairs.map (fun t => (vs.filter (l.describes t)).map (l.origin t))
      vs.all (fun v => pairs.any (fun t => l.describes t v))
        && ((!l.row.split && !l.col.split) || places.all (fun p => p.length == 1))
        && ((!l.row.split && !l.col.split) || (match places.flatten with
            | some o :: rest => rest.all (· == some o)
            | none :: _ => false
            | [] => true))

/-- Details 0 to 3 of one record. -/
def LayerSection.detail (x : LayerSection) (l : LayerRec) : Option Nat :=
  let oh := outSize l.inH l.padTop l.padBottom l.kH l.dH l.sH
  let ow := outSize l.inW l.padLeft l.padRight l.kW l.dW l.sW
  if oh ≤ 0 ∨ ow ≤ 0 then some 0
  else if (l.outH : Int) ≠ oh ∨ (l.outW : Int) ≠ ow then some 1
  else if (l.kind = 2 ∨ l.kind = 4) ∧ (emptyWindow l.inH l.padTop l.kH l.dH l.sH l.outH
      ∨ emptyWindow l.inW l.padLeft l.kW l.dW l.sW l.outW) then some 2
  else if !LayerSection.describes x l then some 3
  else none

/-- Detail 4: group positions run 0, 1, 2, … up to a record with bit 3 set, at most 8 layers. -/
def groupsOk : Nat → List LayerRec → Bool
  | pos, [] => pos == 0
  | pos, l :: t => l.group % 8 == pos && (bit l.group 3 || decide (pos < 7)) && groupsOk (if bit l.group 3 then 0 else pos + 1) t

/-- The fused groups: each ends with a record with bit 3 set. -/
def groupsOf : List LayerRec → List LayerRec → List (List LayerRec)
  | acc, [] => if acc.isEmpty then [] else [acc]
  | acc, l :: t => if bit l.group 3 then (acc ++ [l]) :: groupsOf [] t else groupsOf (acc ++ [l]) t

/-- Halo exchange is set in a group, and a table of it has dist5 ≠ 0 or dist3 ≠ 0 (R254). -/
def LayerSection.haloBad (x : LayerSection) (g : List LayerRec) : Bool :=
  g.any (fun l => bit l.group 4)
    && g.any (fun l => ((LayerSection.tablesOf x l).getD []).any (fun v => v.dist5 != 0 || v.dist3 != 0))

/-- The first failing check of R243, records in order, then groups, then halo exchange. -/
def LayerSection.shapeDetail (x : LayerSection) : Option Nat :=
  match (LayerSection.layers x).findSome? (LayerSection.detail x) with
  | some d => some d
  | none =>
    if !groupsOk 0 (LayerSection.layers x) then some 4
    else if (groupsOf [] (LayerSection.layers x)).any (LayerSection.haloBad x) then some 5
    else none

end Sys2Proof.Machine
end

