-- ==== Sys2Proof/Machine/OdBase.lean ====
section
/-! DEFINITION. Sessions of the dictionary's routes (R532, R538 to R541), responses (R514, R534, R537), the
messages of R533, and entries that the device itself changes (R527). -/
namespace Sys2Proof.Machine
open Sys2Proof

/-! ### Values -/

/-- An entry takes a value; its stamp rises where the value changes (R527). -/
def State.odPut (s : State) (index sub : Nat) (v : List Byte) : State :=
  if s.odVal index sub = v ∧ (ownDefault index sub || (s.odRaw index sub).isSome) then s
  else
    let key := odKeyNat index sub
    let base := ((s.odEnt index sub).bind (·.dflt))
    { s with od := { s.od with
        values := tset none s.od.values key (if base = some v ∧ ownDefault index sub then none else some v)
        stamps := if s.odVal index sub = v then s.od.stamps else tmod 0 s.od.stamps key (fun k => (k + 1) % 2 ^ 32) } }

/-- A numeric entry takes a value from the device. -/
def State.odPutNat (s : State) (index sub v : Nat) : State :=
  match s.odEnt index sub with
  | some e => s.odPut index sub (leBytes (tySize e.ty e.n) v)
  | none => s

/-! ### Sessions -/

def State.session (s : State) (w : OdFrom) : Option OdSession :=
  tget none (s.odRoute (OdRoute.num w.route)).sessions w.session

/-- The Cantle's own commits need no session. -/
def State.sessionOpen (s : State) (w : OdFrom) : Bool := w.route == .cantle || (s.session w).isSome

def State.modSession (s : State) (w : OdFrom) (f : OdSession → OdSession) : State :=
  s.modOdRoute (OdRoute.num w.route) (fun r => { r with
    sessions := tset none r.sessions w.session ((tget none r.sessions w.session).map f) })

/-- A session opens with a fresh challenge (R532). -/
def State.openSession (s : State) (w : OdFrom) : State :=
  let d := s.draw 32
  d.2.modOdRoute (OdRoute.num w.route) (fun r => { r with
    sessions := tset none r.sessions w.session (some { challenge := d.1 }) })

/-- The open transaction of a route is rolled back by the device: EVT_ODX_ROLLBACK, and a report for its
session (R538). -/
def State.autoRollback (s : State) (route : OdRoute) : State :=
  match (s.odRoute (OdRoute.num route)).txn with
  | none => s
  | some t =>
    let s := s.modOdRoute (OdRoute.num route) (fun r => { r with txn := none })
    let s := s.modSession ⟨route, t.session⟩ (fun x => { x with report := true })
    s.raise { code := evtOdxRollback, unit := OdRoute.num route }

/-- Responses that wait for the partner and belong to a session. -/
def HeldReply.of (h : HeldReply) (w : OdFrom) : Bool :=
  match h with
  | .op x _ _ => x == w
  | .mailbox _ => w.route == .mailbox
  | .udp n _ _ => w.route == .udp && n == w.session
  | .can _ => w.route == .can

/-- A session ends: its transaction is rolled back, and a response still to come is discarded (R538). -/
def State.endSession (s : State) (w : OdFrom) : State :=
  let mine := match (s.odRoute (OdRoute.num w.route)).txn with | some t => t.session == w.session | none => false
  let s := if mine then s.autoRollback w.route else s
  let s := s.modOdRoute (OdRoute.num w.route) (fun r => { r with sessions := tset none r.sessions w.session none })
  { s with pair := { s.pair with commitWait := s.pair.commitWait.filter (fun h => !HeldReply.of h.1 w) } }

/-! ### Responses -/

/-- A message was discarded on a route (R533, R542). -/
def State.routeBad (s : State) (route : OdRoute) : State :=
  s.modOdRoute (OdRoute.num route) (fun r => { r with bad := (r.bad + 1) % 2 ^ 32 })

/-- The mailbox has its response: `bs`, empty for a message that was not taken (R514). -/
def State.mailboxReady (s : State) (bs : List Byte) : State :=
  ({ s with pci := { s.pci with mbxState := 2, rspLen := bs.length, rspArea := wrList s.pci.rspArea 0 bs } }).msix 0

/-- Bytes of the smallest CAN FD frame that holds `n` (R541). -/
def dlcBytes (n : Nat) : Nat := if n ≤ 8 then n else ([12, 16, 20, 24, 32, 48].find? (fun k => decide (n ≤ k))).getD 64

/-- The CAN FD frames of a message: bit 7 of byte 0 first, bit 6 last, then the segment number (R541). -/
def canFrames (bs : List Byte) : List (List Byte) :=
  let parts := chunks 63 (bs.length / 63 + 1) bs
  ((upto 0 parts.length).zip parts).map (fun p =>
    let last := p.1 + 1 == parts.length
    padTo (dlcBytes (p.2.length + 1)) (leBytes 1 (128 * b2n (p.1 == 0) + 64 * b2n last + p.1 % 64) ++ p.2))

/-- A response leaves on its route, whose session is still open. A UDP session keeps its last one (R540). -/
def HeldReply.deliver (h : HeldReply) (s : State) : State :=
  match h with
  | .op w st v => if s.sessionOpen w then s.emit (.odReply w.route w.session st v) else s
  | .mailbox bs => if s.pci.mbxState = 1 then s.mailboxReady bs else s
  | .udp n tag bs => if s.sessionOpen ⟨.udp, n⟩ then
      (s.modSession ⟨.udp, n⟩ (fun x => { x with lastTag := some tag, lastReply := bs })).emit (.blpReply n bs)
    else s
  | .can bs => if s.sessionOpen ⟨.can, 1⟩ then s.emits ((canFrames bs).map Out.canReply) else s

/-! ### Messages (R533, R534) -/

structure Msg where
  ty : Nat
  session : Nat
  tag : Nat
  body : List Byte
  deriving DecidableEq, Repr

/-- A message with its magic, version, length and crc right. -/
def readMsg (b : List Byte) : Option Msg :=
  if 16 ≤ b.length ∧ b.take 2 = ascii "BX" ∧ fieldAt b 2 1 = 1 ∧ fieldAt b 6 2 = b.length - 16
      ∧ fieldAt b 12 4 = crc32 (b.take 12 ++ leBytes 4 0 ++ b.drop 16) then
    some ⟨fieldAt b 3 1, fieldAt b 4 2, fieldAt b 8 4, b.drop 16⟩
  else none

/-- An operation record. -/
structure OpRec where
  op : Nat
  index : Nat
  sub : Nat
  value : List Byte
  deriving DecidableEq, Repr

/-- The records of a body, `none` where one is cut short. -/
def readOps : Nat → List Byte → Option (List OpRec)
  | 0, b => if b.isEmpty then some [] else none
  | k + 1, b =>
    if b.isEmpty then some []
    else
      let n := fieldAt b 4 2
      let len := 8 + alignUp n 4
      if b.length < len then none
      else (readOps k (b.drop len)).map (fun t => ⟨fieldAt b 0 1, fieldAt b 2 2, fieldAt b 1 1, (b.drop 8).take n⟩ :: t)

/-- A response record. -/
def OpRec.reply (r : OpRec) (status : Nat) (v : List Byte) : List Byte :=
  leBytes 1 r.op ++ leBytes 1 r.sub ++ leBytes 2 r.index ++ leBytes 2 v.length ++ leBytes 1 status ++ [0#8]
    ++ padTo (alignUp v.length 4) v

end Sys2Proof.Machine
end

