-- ==== Sys2Proof/Machine/TrackStore.lean ====
section
/-! DEFINITION. The track store of a slot in memory (R288, R289): its entries, their checkpoint copy, and the Stitcher call
that a slot has in flight (R290). -/
namespace Sys2Proof.Machine
open Sys2Proof

def wBytes (w : Word) : List Byte := leBytes 4 w.toNat

/-- A store entry (R288); a free one is zero. -/
def Track.bytes (t : Track) : List Byte :=
  if t.state = 0 then copies 512 0#8
  else
    padTo 256 (leBytes 4 t.id ++ leBytes 1 t.state ++ leBytes 1 t.flags ++ leBytes 2 t.hits ++ leBytes 2 t.misses ++ leBytes 2 t.cls
      ++ wBytes t.score ++ leBytes 8 t.ptsLast ++ leBytes 8 t.ptsBirth ++ t.pos.flatMap wBytes ++ t.vel.flatMap wBytes
      ++ t.cov.flatMap wBytes ++ leBytes 4 t.globalId ++ leBytes 4 t.galleryIdx) ++ padTo 256 t.emb

/-- Entries in which `now` differs from `before`: number and content. -/
def trackDiff (now before : Tbl Track) : List (Nat × Track) :=
  ((now.map (·.1)) ++ ((before.map (·.1)).filter (fun e => !now.any (fun p => p.1 == e)))).filterMap (fun e =>
    let t := tget {} now e
    if t = tget {} before e then none else some (e, t))

/-- Device addresses of the store and of its checkpoint copy: page-aligned, 128 MiB each. Where the service's pages lie
is not given (assumption 128). -/
def storeBase : Nat := Config.storePage % 260096 * pageSize
def checkpointBase : Nat := Config.checkpointPage % 260096 * pageSize

/-- Address of entry `e` of slot `n` from a base (R288). -/
def entryAddr (base n e : Nat) : Nat := base + (n * 1024 + e) * 512

/-- The slot whose checkpoint lies on a page. -/
def checkpointSlot (page : Nat) : Option Nat :=
  let k := page - checkpointBase / pageSize
  if checkpointBase / pageSize ≤ page ∧ k < 2048 then some (k / 8) else none

/-- Entries of a slot written at a base. -/
def State.putEntries (s : State) (base n : Nat) (es : List (Nat × Track)) : State :=
  es.foldl (fun s e => s.store (s.portWays 39) (entryAddr base n e.1) e.2.bytes) s

/-- A change of a slot's working entries, in State and in the store. -/
def State.modTracks (s : State) (n : Nat) (f : SlotTrack → SlotTrack) : State :=
  let k := (s.slot n).trk
  (s.modTrk n f).putEntries storeBase n (trackDiff (f k).tracks k.tracks)

/-- The checkpoint: changed entries are copied (R289). -/
def State.checkpoint (s : State) (n : Nat) : State :=
  let k := (s.slot n).trk
  (s.modTrk n (fun k => { k with saved := k.tracks })).putEntries checkpointBase n (trackDiff k.tracks k.saved)

/-- The tracking service's own call of a slot is given up: the association that it belongs to is. -/
def State.dropCall (s : State) (n : Nat) : State :=
  let mine := fun (k : Call) => k.internal && k.slot == n
  let s := { s with stc := { s.stc with queue := s.stc.queue.filter (fun k => !mine k) } }
  (upto 0 4).foldl (fun s u => match (s.stcUnit u).call with
    | some k => if mine k then s.modStc u (fun x => { x with st := 0, call := none }) else s
    | none => s) s

/-- The association in progress is given up, and the working entries are those of the checkpoint again (R289). -/
def State.rewindTracks (s : State) (n : Nat) : State :=
  (s.dropCall n).modTracks n (fun k => { k with tracks := k.saved, stage := .idle })

/-- A slot's store is emptied: no track, no checkpoint, no association in flight; the next serial and what the partner
holds stay. -/
def State.emptyTracks (s : State) (n : Nat) : State :=
  ((s.dropCall n).modTracks n (fun k => { nextSerial := k.nextSerial, saved := k.saved, sent := k.sent })).checkpoint n

end Sys2Proof.Machine
end

