-- ==== Sys2Proof/Machine/Ctx.lean ====
section
/-! DEFINITION. Contexts: creation (R424 to R429), scheduling and switches (R430 to R435), faults and
restarts (R394, R436, R437), captures (R438), and their commands. -/
namespace Sys2Proof.Machine
open Sys2Proof

/-! ### Images (R424) -/

structure ImageHead where
  k : Nat
  w : Nat
  flags : Nat
  pagesP : Nat
  pagesR : Nat
  length : Nat
  sects : List (Nat × Nat × Nat)      -- type, offset, length
  deriving DecidableEq, Repr

/-- The header and section table, where they are in range and consistent (check 1 of R427). -/
def readHead (b : List Byte) : Option ImageHead :=
  let n := fieldAt b 6 2
  let len := fieldAt b 32 8
  let sects := (upto 0 n).map (fun i => (fieldAt b (128 + 16 * i) 2, fieldAt b (136 + 16 * i) 8, fieldAt b (132 + 16 * i) 4))
  let zeros := (upto 0 n).all (fun i => fieldAt b (130 + 16 * i) 2 == 0)
  let ok := b.take 4 == ascii "QSIM" && fieldAt b 4 2 == 1 && decide (1 ≤ n) && decide (n ≤ 64)
    && decide (1 ≤ fieldAt b 8 2) && decide (fieldAt b 8 2 ≤ 128) && decide (fieldAt b 10 2 ≤ 256)
    && decide (fieldAt b 12 1 < 8) && fieldAt b 13 3 == 0 && fieldAt b 28 4 == 0
    && (b.drop 40).take 24 == copies 24 0#8 && decide (128 + 16 * n ≤ len) && decide (len ≤ b.length) && zeros
    && sects.all (fun x => decide (1 ≤ x.1) && decide (x.1 ≤ 13) && decide (128 + 16 * n ≤ x.2.1) && decide (x.2.1 + x.2.2 ≤ len))
    && decide ((sects.map (·.1)).Nodup)
  if ok then some { k := fieldAt b 8 2, w := fieldAt b 10 2, flags := fieldAt b 12 1, pagesP := fieldAt b 20 4,
                    pagesR := fieldAt b 24 4, length := len, sects := sects }
  else none

/-- Bytes of a section. -/
def sectionOf (b : List Byte) (h : ImageHead) (ty : Nat) : Option (List Byte) :=
  (h.sects.find? (fun x => x.1 == ty)).map (fun x => (b.drop x.2.1).take x.2.2)

/-- The digest over the image, its own field and the content of section 13 read as zero (R424, R555). -/
def imageDigestOf (b : List Byte) (h : ImageHead) : List Byte :=
  let b := b.take h.length
  let b := b.take 64 ++ copies 64 0#8 ++ b.drop 128
  let b := match h.sects.find? (fun x => x.1 == 13) with
    | some x => b.take x.2.1 ++ copies x.2.2 0#8 ++ b.drop (x.2.1 + x.2.2)
    | none => b
  sha512 b

/-- Check 2: the digest, and the owner's signature where policy requires it or the image carries it (R555). -/
def State.imageSigned (s : State) (b : List Byte) (h : ImageHead) : Bool :=
  let digest := (b.drop 64).take 64
  let signed := match sectionOf b h 13 with
    | some x =>
      let key := x.take 32
      (upto 0 4).any (fun i => s.fuses.ownerOk i key) && Config.verify key digest ((x.drop 32).take 64) && x.length == 96
    | none => !s.fuses.imagesRequired
  digest == imageDigestOf b h && signed

/-- Layer records and loop descriptor tables of an image: sections 3 and 2. -/
def layersOf (b : List Byte) (h : ImageHead) : LayerSection :=
  { records := (sectionOf b h 3).getD [], tables := (sectionOf b h 2).getD [] }

/-- An Awl ring as R256 bounds it. -/
def AwlRing.ok (r : AwlRing) (numCores : Nat) : Bool :=
  r.off % 64 == 0 && decide (1 ≤ r.n) && decide (r.n ≤ 64) && decide (r.bellCore < numCores) && decide (r.bellCtr ≤ 47)

/-- Check 3: bank declarations (R161), every section's own checks (R256). -/
def declOk (h : ImageHead) (d : ImageDecl) : Bool :=
  d.sectionsOk && d.rings.all (fun r => AwlRing.ok r (16 * h.k)) && (d.rings.isEmpty || d.rings.length == h.k) && d.coreBanks.length == 16 * h.k && d.bufferBanks.length == h.k
    && d.coreBanks.all (fun b => decide (2 ≤ popCount b 6) && (bit b 6 || bit b 7))
    && d.deviceArms.length == h.w && d.streams.length == 16 * h.k
    && (d.deviceArms.all (fun a => decide (a.2 < 2 ^ 32 - 1))) && (d.clusterArms.all (fun a => decide (a.1 < 16) && decide (a.2.2 < 2 ^ 32 - 1)))

/-- The narrator section (R318). -/
def narratorOk (n : NarratorDecl) (skv : SkvDecl) (b : List Byte) : Bool :=
  let crop := readOut ((b.drop skv.outOff).take 64)
  n.weightFormat == 4 && n.weightsHeld && n.otherFormats.all (fun f => [1, 8, 10].contains f) && decide (1 ≤ n.layers) && decide (n.layers ≤ 64)
    && [256, 512, 1024, 2048, 4096].contains n.kvBytes && n.kvBytes == 2 * n.kvHeads * n.headDim && n.kvFormat == 1 && decide (2 ≤ n.vocab) && decide (n.vocab ≤ 65536)
    && decide (n.eosId < n.vocab) && decide (n.newlineId < n.vocab)
    && decide (1 ≤ n.imageTokens) && decide (n.imageTokens ≤ 256) && decide (64 ≤ n.ctxMax) && decide (n.ctxMax ≤ 2048)
    && n.tokenBytes.length == n.vocab && skv.nOut == 1 && crop.ok && crop.kind == 0

/-- Pages of the 96 crop buffers (R324), pages of the KV reservation (R328). -/
def cropPages (b : List Byte) (d : ImageDecl) : Nat := ceilDiv (96 * (readOut ((b.drop d.skv.outOff).take 64)).size) pageSize
def kvPages (n : NarratorDecl) : Nat := 64 * NarratorDecl.sessionPages n

/-! ### Placement (R427, R429) -/

def State.clusterFree (s : State) (c : Nat) : Bool := !(s.cluster c).assigned

/-- Clusters of a lowest-free placement. -/
def State.lowestPlace (s : State) (k : Nat) : Option (List Nat) :=
  let n := s.boot.clusters
  match (upto 0 (n + 1 - k)).find? (fun b => (upto b k).all s.clusterFree) with
  | some b => some (upto b k)
  | none =>
    let free := (upto 0 n).filter s.clusterFree
    if k ≤ free.length then some (free.take k) else none

/-- Check 7: the partition of a request. -/
def State.place (s : State) (req : CreateReq) (k : Nat) : Option (List Nat) :=
  match req.share with
  | some c =>
    let x := s.ctx c
    if x.live && x.onPartition && x.k == k && !x.standing then some x.map else none
  | none =>
    if k > s.boot.clusters then none
    else if req.placement.isEmpty then s.lowestPlace k
    else if req.placement.length == k && decide req.placement.Nodup
            && req.placement.all (fun c => decide (c < s.boot.clusters) && s.clusterFree c) then some req.placement
    else none

/-- A channel set that is non-zero and symmetric (R376). -/
def symmetric (m : Nat) : Bool := m != 0 && (upto 0 32).all (fun i => bit m i == bit m (i + 32))

/-- On one die a set holds channels of that die only, symmetric under XOR 16 (R503). -/
def State.channelsOk (s : State) (m : Nat) : Bool :=
  match s.mem.lostDie with
  | none => symmetric m
  | some d =>
    let a := if d = 0 then 32 else 0
    m != 0 && (upto 0 32).all (fun i => !bit m (32 - a + i)) && (upto 0 16).all (fun i => bit m (a + i) == bit m (a + i + 16))

/-! ### Starting a partition (R428, R162) -/

/-- Instruction words of a stream as a table (R153). -/
def ibufOf (ws : List IWord) : Tbl IWord := ((upto 0 2048).zip ws).filter (fun w => decide (w.2 ≠ 0#64))

/-- Blocks that a stream fills, as valid bits. -/
def blocksOf (n : Nat) : Nat := 2 ^ min 32 (ceilDiv n 64) - 1

/-- Every core of the partition starts at word 0. -/
def State.startCores (s : State) (c : Nat) (x : Ctx) (d : ImageDecl) : State :=
  (upto 0 x.numCores).foldl (fun s j => match x.coreAt j with
    | some n => s.modCore n (fun _ => {
        st := .running, ctx := c, pwr := d.coreBanks.getD j 0, ibuf := ibufOf (d.streams.getD j []),
        valid := blocksOf (d.streams.getD j []).length })
    | none => s) s

/-- Clusters and work counters of the partition: assigned, armed (R280). -/
def State.startClusters (s : State) (c : Nat) (x : Ctx) (d : ImageDecl) : State :=
  let arms : Tbl (Nat × Nat) := d.clusterArms.foldl (fun t a => tset (0, 0) t a.1 a.2) []
  let s := ((upto 0 x.map.length).zip x.map).foldl (fun s p => s.modCluster p.2 (fun _ =>
    { assigned := true, ctx := c, pwr := d.bufferBanks.getD p.1 0, wc := arms })) s
  ((x.ctrs.zip d.deviceArms)).foldl (fun s p => s.modWork p.1 (fun _ => { v := p.2.1, limit := p.2.2, owner := some c })) s

/-- The start sequence of R428. -/
def State.startPartition (s : State) (c : Nat) : State :=
  let x := s.ctx c
  match x.decl with
  | none => s
  | some d =>
    let s := ((s.wipePartition x).startClusters c x d).startCores c x d
    s.modCtx c (fun x => { x with
      st := .resident, started := true, ready := false, standing := false, deschedulable := false, preempt := false,
      saved := [], savedMem := [], savedWc := [], savedSeq := [] })

/-! ### Creation -/

/-- The slots that the context is bound to take a bind entry when it runs for them again (R444). -/
def State.rebind (s : State) (c : Nat) : State := (s.boundSlots c).foldl (fun s n => s.bindEntry n c 0 0) s

/-- Slots whose entry 0x3100 + c.0F names the context take it at their next frame boundary (R444, R528). -/
def State.offerBind (s : State) (c : Nat) : State :=
  { s with slots := s.slots.map (fun p =>
      if p.2.run != .unconfigured && bit (s.ctxRun c).bound p.1 && !p.2.cfg.bound.contains c then (p.1, { p.2 with pendingCfg := true })
      else p) }

/-- A context becomes ready: the order in which contexts became so decides ties (R431). -/
def State.makeReady (s : State) (c : Nat) : State :=
  if (s.ctx c).ready then s
  else ({ s with readyClock := s.readyClock + 1 }).modCtx c (fun x => { x with ready := true, readySince := s.readyClock })

/-- The image copy in Class P pages, both copies (R389). -/
def State.copyImage (s : State) (pages : List Nat) (b : List Byte) : State :=
  (pages.zip (chunks pageSize pages.length b)).foldl (fun s p => s.putBytes (p.1 * pageSize) p.2) s

/-- Reservations and pages of check 9. -/
def State.takeCtxPages (s : State) (h : ImageHead) (d : ImageDecl) (b : List Byte) (req : CreateReq) :
    Option (Nat × Nat × Nat × List Nat × List Nat × List Nat × State) :=
  let img := ceilDiv h.length pageSize
  let crop := if d.narrator.isSome then cropPages b d else 0
  let save := 51 * h.k
  match s.reserve 2 (2 * (img + h.pagesP)) 1 req.channels with
  | none => none
  | some (rp, s) => match s.reserve 2 (h.pagesR + save + crop) 0 req.channels with
    | none => none
    | some (rr, s) =>
      match (match d.narrator with
        | some n => (s.reserve 2 (kvPages n) 0 req.channels)
        | none => some (0, s)) with
      | none => none
      | some (kv, s) => match s.allocPages rp 1 true img [] with
        | none => none
        | some (ip, s) => match s.allocPages rp 1 false h.pagesP [] with
          | none => none
          | some (pp, s) => match s.allocPages rr 0 false (h.pagesR + crop) [] with
            | none => none
            | some (pr, s) => match s.allocPages rr 0 false save [] with
              | none => none
              | some (sv, s) => some (rp, rr, kv, ip, pp ++ pr, sv, s)

/-- Numbers of free device work counters (R280). -/
def State.freeWork (s : State) : List Nat :=
  let used := s.ctxs.flatMap (fun p => p.2.ctrs)
  (upto 0 256).filter (fun p => !used.contains p)

/-- Number that a create request gets (check 5). -/
def State.ctxNumber (s : State) (want : Option Nat) : Option Nat :=
  let free := fun c => !(s.ctx c).live && !(s.ctx c).capture
  match want with
  | some c => if c < 64 ∧ free c then some c else none
  | none => (upto 0 64).find? free

/-- Allotment in mW (R426, R457): as requested, else the image's estimates times cal. -/
def State.allotOf (s : State) (req : CreateReq) (d : ImageDecl) : Nat :=
  match req.allotMw with
  | some a => a
  | none => d.energyMw * s.rne.cal / 65536

/-- Bytes of the pages of an image handle (R426). -/
def State.handleBytes (s : State) (handle : Nat) : List Byte :=
  (tget [] s.tkp.lists handle).flatMap (fun p => s.seen (p * pageSize) pageSize)

/-- R427: the checks in order, and the context made and, where it has its partition to itself, started
(R428). A standing context is neither charged nor started (R484). The failing check's fault and detail
otherwise. -/
def State.createCtx (s : State) (owner : OdRoute) (req : CreateReq) (d : ImageDecl) (standing : Bool)
    (b : List Byte) : Except (Nat × Nat) (Nat × State) :=
  let copy := ceilDiv b.length pageSize
  if s.poolSize 0 < s.poolHeld 0 + 2 * copy then .error (fltAdmitPool, 0)
  else match readHead b with
  | none => .error (fltCtxImage, 0)
  | some h =>
    if !s.imageSigned b h then .error (fltCtxDigest, 0)
    else if !declOk h d || !LayerSection.rangeOk (layersOf b h) || (bit h.flags 1 != d.narrator.isSome) || (bit h.flags 0 != d.recompute) then .error (fltCtxImage, 0)
    else match LayerSection.shapeDetail (layersOf b h) with
    | some x => .error (fltShape, x)
    | none =>
      if !(match d.narrator with | some n => narratorOk n d.skv b | none => true) then .error (fltNarImage, 0)
      else match s.ctxNumber req.ctx with
      | none => .error (fltCtxFull, 0)
      | some c =>
        if !s.channelsOk req.channels then .error (fltCtxChannels, 0)
        else match s.place req h.k with
        | none => .error (fltCtxPartition, 0)
        | some map =>
          if s.freeWork.length < h.w then .error (fltCtxCounters, 0)
          else match s.takeCtxPages h d b req with
          | none => .error (fltAdmitPool, 0)
          | some (rp, rr, kv, ip, pages, sv, t) =>
            if !standing && !s.energyAdmits (s.allotOf req d * pW) then .error (fltRneBudget, 0)
            else
              let old := s.ctx c
              let x : Ctx := {
                st := .loading, cls := req.cls, debug := req.debug, owner := owner, k := h.k, map := map,
                ctrs := s.freeWork.take h.w, channels := req.channels, ways := req.ways, req := some { req with ctx := some c },
                decl := some d, imageDigest := (b.drop 64).take 64, weightDigest := sha512 ((sectionOf b h 5).getD []),
                weightBytes := ((sectionOf b h 5).getD []).length,
                spin := req.spin, deschedUs := req.deschedUs, standing := standing, pages := pages, imagePages := ip,
                savePages := sv, res := rr, resP := rp, lastFault := old.lastFault }
              let t := (t.copyImage ip (b.take h.length)).modCtx c (fun _ => x)
              let t := x.ctrs.foldl (fun t p => t.modWork p (fun w => { w with owner := some c })) t
              let t := t.modRun c (fun r => { r with allotMw := s.allotOf req d, duty := 16, acct := [], power := [], rerun := [] })
              let t := if d.narrator.isSome then { t with narr := { t.narr with ctx := some c, kvRes := kv } } else t
              let hold := map.foldl (fun t cl => t.modCluster cl (fun k => { k with assigned := true, ctx := c })) t
              let t := if standing then hold
                else if req.share.isSome then (t.modCtx c (fun x => { x with st := .descheduled })).makeReady c
                else t.startPartition c
              .ok (c, (t.rebind c).offerBind c)

/-! ### Scheduling of a shared partition (R430 to R432) -/

/-- The context that holds the partition now. -/
def State.residentOf (s : State) (map : List Nat) : Option Nat :=
  (s.ctxs.find? (fun p => p.2.onPartition && p.2.map == map && !p.2.standing)).map (·.1)

/-- Order of choice: highest class, longest ready, lower number (R431). -/
def readyKey (c : Nat) (x : Ctx) : Nat := (x.cls * 2 ^ 64 + x.readySince) * 64 + c

/-- The next context of a partition. -/
def State.nextReady (s : State) (map : List Nat) : Option Nat :=
  (minBy (fun p => readyKey p.1 p.2) (s.ctxs.filter (fun p => p.2.st == .descheduled && p.2.ready && p.2.map == map))).map (·.1)

/-- A pre-emption request: cores that stand at a deschedule point are stopped there (R432). -/
def State.preempt (s : State) (c : Nat) : State :=
  let s := s.modCtx c (fun x => { x with preempt := true })
  (s.ctx c).cores.foldl (fun s n => s.modCore n (fun k => match k.wait with
    | some w => if w.dp then { k with st := .parked, wait := some { w with held := true } } else k
    | none => k)) s

/-- A higher-class ready context makes a pre-emption request (R431). -/
def State.reschedule (s : State) (map : List Nat) : State :=
  match s.residentOf map, s.nextReady map with
  | some r, some n =>
    let x := s.ctx r
    if x.st = .resident ∧ !x.preempt ∧ (s.ctx n).cls < x.cls then s.preempt r else s
  | _, _ => s

/-- The incoming phase of a switch begins on idle cores: they are zeroed for a first start, restored otherwise (R162,
R173, R434). -/
def State.switchIn (s : State) (c : Nat) : State :=
  let x := s.ctx c
  let s := s.modCtx c (fun x => { x with st := .switchingIn, ready := false })
  x.cores.foldl (fun s n => s.modCore n (fun k => { k with st := if x.started then .restoring else .zeroing, ctx := c })) s

/-- A partition without a resident context takes its next ready one, with no save phase (R436, R437). -/
def State.takeNext (s : State) (map : List Nat) : State :=
  match s.residentOf map, s.nextReady map with
  | none, some n => s.switchIn n
  | _, _ => s

/-! ### Faults, ends and restarts -/

/-- The bytes of the image copy that a context holds. -/
def State.imageBytes (s : State) (c : Nat) : List Byte :=
  (s.ctx c).imagePages.flatMap (fun p => s.seen (p * pageSize) pageSize)

/-- Rein ticks of 100 µs in an hour. -/
def hourTicks : Nat := 36000000

/-- Creates the context again from its image and parameters, restart_max times in an hour (R426, R437). A refusal raises
its fault. -/
def State.restart (s : State) (c : Nat) (b : List Byte) : State :=
  let x := s.ctx c
  let recent := x.restarts.filter (fun t => decide (s.rne.ticks < t + hourTicks))
  match x.req, x.decl with
  | some req, some d =>
    if recent.length < req.restartMax ∧ !s.noAdmission then
      match s.createCtx x.owner req d false b with
      | .ok (_, s) => s.modCtx c (fun y => { y with restarts := s.rne.ticks :: recent })
      | .error (code, detail) => s.raise { code := code, ctx := c, unit := OdRoute.num x.owner, detail := detail }
    else s
  | _, _ => s

/-- A context ends with a cause: teardown, the next context of its partition, and a restart. -/
def State.endCtx (s : State) (c code : Nat) : State :=
  if (s.ctx c).live then
    let map := (s.ctx c).map
    let b := if code = fltIntPLost then s.handleBytes (((s.ctx c).req.map (·.image)).getD 0) else s.imageBytes c
    let s := (s.teardown c code).takeNext map
    if code = fltCtxKilled ∨ code = 0 then s else s.restart c b
  else s

/-- A fault of a context: its record, then the teardown (R436, R593). -/
def State.ctxFault (s : State) (c : Nat) (f : FaultInfo) : State := (s.raise { f with ctx := c }).endCtx c f.code

/-- A fault of a core's instruction: logical core, PC and address (R592). -/
def State.coreFault (s : State) (core code addr : Nat) : State :=
  s.ctxFault (s.core core).ctx { code := code, unit := core, detail := (s.core core).pc, addr := addr }

/-- Units of a context that have not completed: slot and picture (R394). -/
def State.unitsOf (s : State) (c : Nat) : List (Nat × Nat) :=
  (s.boundSlots c).flatMap (fun n => ((s.slot n).pics.filter (fun p => p.skived && p.subst.isNone)).map (fun p => (n, p.seq)))

/-- FLT_INT_RECOMPUTE and the restart at the recompute point (R393, R394): the partition is zeroed and
reloaded, and its units are issued again, their associations from the start; at a second failure they are substituted. -/
def State.recompute (s : State) (c unit mem_ line : Nat) : State :=
  let s := s.raise { code := fltIntRecompute, ctx := c, unit := unit, detail := mem_, addr := line }
  let x := s.ctx c
  if !(match x.decl with | some d => d.recompute | none => false) then s.endCtx c fltIntRecompute
  else
    let again := !(s.ctxRun c).rerun.isEmpty
    let units := s.unitsOf c
    let s := s.discardWork c
    let s := if again then
        (units.foldl (fun s u => s.raise { code := fltIntSubst, unit := 22, detail := if mem_ = 1 then 1 else 0,
                                           addr := line, slot := u.1 }) ((s.boundSlots c).foldl (fun s n => s.dropPics n c 9) s)).modRun c
          (fun r => { r with rerun := [] })
      else
        (s.boundSlots c).foldl (fun s n => (s.rewindTracks n).modSlot n (fun y => { y with
          pics := y.pics.map (fun p => if p.subst.isNone then { p with skived := false } else p) }))
          (s.modRun c (fun r => { r with rerun := units }))
    s.startPartition c

/-- Memory in which a failing line's check failed, for integrity records: 0 saddle, 1 cache, 2 buffer, 3 operand bank,
4 accumulator (R404). -/
def State.memCode (s : State) (a : Nat) : Nat :=
  if inSaddle a then b2n (s.cacheBad a) else if inClusters a then 2 else if (coreOf a).2 < 0x18000 then 3 else 4

/-! ### Switches (R433, R434) -/

/-- Every core of a resident context has stopped: ended, or at a deschedule point (R276, R432). -/
def State.allStopped (s : State) (c : Nat) : Bool :=
  (s.ctx c).cores.all (fun n => (s.core n).st == .ended || (match (s.core n).wait with
    | some w => w.dp && (w.held || (s.core n).st == .parked)
    | none => false))

/-- The DMA channels of the partition are idle and its own increments applied (R276). -/
def State.drained (s : State) (c : Nat) : Bool :=
  (s.ctx c).map.all (fun cl => (upto 0 2).all (fun m =>
      let ch := tget {} (s.cluster cl).chans m
      ch.queue.isEmpty && ch.busy.isNone) && (s.cluster cl).fills.isEmpty)
    && !(s.flight.any (fun i => i.ctx == c && i.fromCtx))
    && (s.ctx c).cores.all (fun n => (s.core n).sigq.isEmpty)

/-- Some saved wait is satisfied by the counter image: the context is ready (R276). -/
def Ctx.savedReady (x : Ctx) : Bool :=
  x.saved.any (fun p => match p.2.wait with
    | some w => decide (w.n ≤ tget 0 p.2.sync w.ctr)
    | none => p.2.st == .running)

/-- Bytes of a partition's state: declared banks and a core state block of 8 KiB each (R433). -/
def Ctx.saveBytes (x : Ctx) : Nat :=
  match x.decl with
  | some d => (d.coreBanks.map (fun b => popCount b 8 * 0x4000 + 8192)).foldl (· + ·) 0
      + (d.bufferBanks.map (fun b => popCount b 16 * 0x10000)).foldl (· + ·) 0
  | none => 0

/-- The save phase of the outgoing context. -/
def State.saveOut (s : State) (c : Nat) : State :=
  let x := s.ctx c
  let s := s.storeSave c
  let s := ((s.idleCores x).idleClusters x true).wipePartition x
  let s := (s.account c 17 1).account c 18 x.saveBytes
  let s := s.modCtx c (fun y => { y with st := .switchingOut, preempt := false, deschedulable := false })
  x.cores.foldl (fun s n => s.modCore n (fun k => { k with st := .saving, ctx := c })) s

/-- The restore phase: state and banks as saved, each valid block refilled from its source (R433). -/
def State.restoreIn (s : State) (c : Nat) : State :=
  let x := s.ctx c
  let d := x.decl
  let s := s.wipePartition x
  let s := x.savedMem.foldl (fun s b => match x.translate b.1 with
    | some a => s.wrByte a b.2
    | none => s) s
  let s := ((upto 0 x.map.length).zip x.map).foldl (fun s p => s.modCluster p.2 (fun k => { k with
    assigned := true, ctx := c, pwr := match d with | some d => d.bufferBanks.getD p.1 0 | none => 0,
    wc := ((x.savedWc.find? (fun w => w.1 == p.1)).map (·.2)).getD []
    results5 := ((x.savedSeq.find? (fun w => w.1 == p.1)).map (·.2.1)).getD []
    awlIndex := ((x.savedSeq.find? (fun w => w.1 == p.1)).map (·.2.2)).getD 0 })) s
  let s := x.saved.foldl (fun s p => match x.coreAt p.1 with
    | some n => s.modCore n (fun _ => { p.2 with
        st := match p.2.st with | .parked => .waiting | t => t
        wait := p.2.wait.map (fun w => { w with held := false }) })
    | none => s) s
  let refill := x.saved.foldl (fun m p => m + popCount p.2.valid 32 * 512) 0
  ((s.account c 17 1).account c 18 (x.saveBytes + refill)).modCtx c (fun y => { y with
    st := .resident, saved := [], savedMem := [], savedWc := [], savedSeq := [] })

/-- A satisfied wait of a running core passes: its amount is subtracted (R265, R267, R275). -/
def State.tryWait (s : State) (core : Nat) : State :=
  match (s.core core).wait with
  | some w =>
    if !w.held && decide (w.n ≤ tget 0 (s.core core).sync w.ctr) then
      s.modCore core (fun k => { k with
        sync := tset 0 k.sync w.ctr (tget 0 k.sync w.ctr - w.n), wait := none, st := .running, pc := (k.pc + 1) % 2048 })
    else s
  | none => s

/-- The waits of a resident context are evaluated (R432, R433). -/
def State.tryWaits (s : State) (c : Nat) : State := (s.ctx c).cores.foldl State.tryWait s

def execContextSwitchStart (ctx : Nat) (s : State) : Host.Outcome State Fault Refusal :=
  let x := s.ctx ctx
  whenUp s (if x.st = .descheduled ∧ s.pwr.mode ≠ .parked ∧ s.nextReady x.map = some ctx then
      (match s.residentOf x.map with
      | none => s.switchIn ctx
      | some r =>
        let y := s.ctx r
        if y.st = .resident ∧ (y.preempt ∨ y.deschedulable) ∧ s.allStopped r ∧ s.drained r then
          (s.saveOut r).modCtx ctx (fun z => { z with st := .switchingIn, ready := false })
        else s)
    else s)

/-- The outgoing context of a partition is descheduled; a destroy command that waited is applied (R437). -/
def State.finishOut (s : State) (map : List Nat) : State :=
  match s.ctxs.find? (fun p => p.2.st == .switchingOut && p.2.map == map) with
  | some (o, _) =>
    let s := s.modCtx o (fun x => { x with st := .descheduled, ready := false })
    if (s.ctx o).destroyWish then (s.raise { code := fltCtxKilled, ctx := o }).endCtx o fltCtxKilled
    else if (s.ctx o).savedReady then s.makeReady o else s
  | none => s

def execContextSwitchComplete (ctx : Nat) (readFails : Bool) (s : State) : Host.Outcome State Fault Refusal :=
  let x := s.ctx ctx
  whenUp s (if x.st = .switchingIn then
      let s := s.finishOut x.map
      if readFails && x.started then
        -- R437: the partition is zeroed and the next ready context is chosen
        let s := ((s.modCtx ctx (fun y => { y with st := .descheduled, ready := false })).idleCores x).wipePartition x
        let s := s.raise { code := fltIntRecompute, ctx := ctx, unit := (x.cores.head?).getD 0 }
        let s := if (match x.decl with | some d => d.recompute | none => false) then
            (s.modCtx ctx (fun y => { y with started := false, saved := [], savedMem := [], savedWc := [], savedSeq := [] })).makeReady ctx
          else s.endCtx ctx fltIntRecompute
        s.takeNext x.map
      else
        let s := if x.started then (s.restoreIn ctx).tryWaits ctx else s.startPartition ctx
        let s := if x.destroyWish then (s.raise { code := fltCtxKilled, ctx := ctx }).endCtx ctx fltCtxKilled else s
        s.reschedule x.map
    else s)

/-- R274 stage 3: every core has been parked at a deschedule point for the threshold. -/
def execDescheduleThreshold (ctx : Nat) (s : State) : Host.Outcome State Fault Refusal :=
  let x := s.ctx ctx
  whenUp s (if x.st = .resident ∧ x.cores.all (fun n => (s.core n).st == .parked
        && (match (s.core n).wait with | some w => w.dp | none => false)) then
      s.modCtx ctx (fun y => { y with deschedulable := true })
    else s)

/-- R431: the resident context has had its slice, and a ready context of its class exists. -/
def execSliceExpiry (ctx : Nat) (s : State) : Host.Outcome State Fault Refusal :=
  let x := s.ctx ctx
  let other := s.ctxs.any (fun p => p.2.st == .descheduled && p.2.ready && p.2.map == x.map && p.2.cls == x.cls)
  whenUp s (if x.st = .resident ∧ !x.preempt ∧ other then s.preempt ctx else s)

/-- A pre-emption request is withdrawn: stopped cores resume by evaluating their waits (R432). -/
def State.withdraw (s : State) (c : Nat) : State :=
  let s := s.modCtx c (fun y => { y with preempt := false })
  let s := (s.ctx c).cores.foldl (fun s n => s.modCore n (fun k => match k.wait with
    | some w => { k with st := if k.st = .parked then .waiting else k.st, wait := some { w with held := false } }
    | none => k)) s
  s.tryWaits c

/-- R432: the request is withdrawn; the stopped cores resume by evaluating their waits. In Parked entry
the context is torn down instead (R473). -/
def execPreemptTimeout (ctx : Nat) (s : State) : Host.Outcome State Fault Refusal :=
  let x := s.ctx ctx
  whenUp s (if x.st = .resident ∧ x.preempt then
      if s.pwr.mode = .parked ∨ s.pwr.step = 6 then s.endCtx ctx evtCtxPreemptTimeout
      else (s.withdraw ctx).raise { code := evtCtxPreemptTimeout, ctx := ctx }
    else s)

/-! ### Commands of owners -/

/-- Index of a context's parameters (R529). -/
def ctxIndex (c : Nat) : Nat := 0x3100 + c

/-- The request stands in the context's entries, as a commit of them would leave it (R529). -/
def State.putReq (s : State) (c : Nat) (req : CreateReq) : State :=
  let i := ctxIndex c
  let vals := [(1, 1), (2, req.image), (4, req.share.getD 0xFF), (5, req.channels), (6, req.ways), (7, req.cls),
    (8, req.allotMw.getD 0), (9, req.spin), (0x0A, req.deschedUs), (0x0B, req.sliceMs), (0x0C, req.preemptUs),
    (0x0D, b2n req.debug), (0x0E, req.restartMax)]
  vals.foldl (fun s p => s.odPutNat i p.1 p.2) (s.odPut i 3 (padTo 128 (req.placement.map (BitVec.ofNat 8))))

/-- A create request (R426, R427): refused during standby (R474). -/
def State.createReq (s : State) (route : OdRoute) (req : CreateReq) (d : ImageDecl) : Reply :=
  let idx := ctxIndex (req.ctx.getD 0)
  if s.noAdmission then s.refuse route idx fltRneStandby
  else match s.createCtx route req d false (s.handleBytes req.image) with
  | .ok (c, s) => ⟨0, 0, (s.reschedule (s.ctx c).map).putReq c req⟩
  | .error (code, detail) =>
    ⟨9, code, s.raise { code := code, unit := OdRoute.num route, detail := if code = fltShape then detail else idx }⟩

/-- Permission for context commands (R572): bit 3. -/
def ctxDone (s : State) (route : OdRoute) (r : Reply) : Host.Outcome State Fault Refusal :=
  let allowed := match route with | .cantle => true | r => bit (s.odNat 0x7010 (OdRoute.num r + 1) 0x1F) 3
  whenReady s ((if allowed then r else ⟨2, 0, s⟩ : Reply).send route 0)

def execContextCreate (route : OdRoute) (req : CreateReq) (decl : ImageDecl) (s : State) :
    Host.Outcome State Fault Refusal :=
  ctxDone s route (s.createReq route req decl)

/-- The owner destroys its context: cause FLT_CTX_KILLED; during a switch when the switch completes
(R436, R437). Another route's context is not its to destroy. -/
def State.destroyReq (s : State) (route : OdRoute) (c : Nat) : Reply :=
  let x := s.ctx c
  if !x.live then ⟨3, 0, s⟩
  else if x.owner ≠ route ∧ route ≠ .cantle then ⟨2, 0, s⟩
  else
    let s := s.odPutNat (ctxIndex c) 1 2
    if x.st = .switchingIn ∨ x.st = .switchingOut then ⟨0, 0, s.modCtx c (fun x => { x with destroyWish := true })⟩
    else ⟨0, 0, (s.raise { code := fltCtxKilled, ctx := c }).endCtx c fltCtxKilled⟩

def execContextDestroy (route : OdRoute) (ctx : Nat) (s : State) : Host.Outcome State Fault Refusal :=
  ctxDone s route (s.destroyReq route ctx)

/-- The owner releases a capture (R438). -/
def State.releaseReq (s : State) (route : OdRoute) (c : Nat) : Reply :=
  let x := s.ctx c
  if !x.capture then ⟨3, 0, s⟩
  else if x.owner ≠ route ∧ route ≠ .cantle then ⟨2, 0, s⟩
  else ⟨0, 0, s.dropCapture c⟩

def execCaptureRelease (route : OdRoute) (ctx : Nat) (s : State) : Host.Outcome State Fault Refusal :=
  ctxDone s route (s.releaseReq route ctx)

def execCaptureRetainExpiry (ctx : Nat) (s : State) : Host.Outcome State Fault Refusal :=
  whenReady s (s.dropCapture ctx)

/-! ### Context end (R277) -/

/-- Every core has ended, and every engine queue, channel and Awl engine of the partition is idle. -/
def State.ctxDoneRunning (s : State) (c : Nat) : Bool :=
  let x := s.ctx c
  x.st == .resident && s.drained c
    && x.cores.all (fun n => (s.core n).st == .ended && (s.core n).queues.isEmpty)
    && x.map.all (fun cl => (s.cluster cl).awlJob.isNone)

/-- The lowest-numbered core with a non-zero counter, its lowest such counter, and the value. -/
def State.residue (s : State) (c : Nat) : Option (Nat × Nat × Nat) :=
  let x := s.ctx c
  (upto 0 x.numCores).findSome? (fun j => match x.coreAt j with
    | some n => ((s.core n).sync.head?).map (fun p => (j, p.1, p.2))
    | none => none)

def execContextEnd (ctx : Nat) (s : State) : Host.Outcome State Fault Refusal :=
  whenUp s (if s.ctxDoneRunning ctx then
      (match s.residue ctx with
      | some r => s.ctxFault ctx { code := fltSyncResidue, unit := r.1, detail := r.2.1, addr := r.2.2 }
      | none => s.endCtx ctx 0)
    else s)

/-! ### Service primitives (R439) -/

/-- Pages that the requesting owner holds. -/
def State.ownerHolds (s : State) (route : OdRoute) (handle : Nat) : Bool :=
  tget 4 s.tkp.listOwner handle == OdRoute.num route && !(tget [] s.tkp.lists handle).isEmpty

def gemmDim (v : Nat) : Bool := v == 1 || (v != 0 && v % 16 == 0 && decide (v ≤ 65536))

/-- Limits of a primitive, and its page handles. -/
def primOk : Primitive → Bool
  | .gemm m n k fa fb _ _ _ => gemmDim m && gemmDim n && gemmDim k && (pairOf fa fb 0).isSome
  | .search d e k _ _ _ => [64, 128, 256].contains d && decide (e ≤ 1048576) && decide (1 ≤ k) && decide (k ≤ 64)
  | .cropInfer c st => decide (c ≤ 64) && decide (st ≤ 16)

def primHandles : Primitive → List Nat
  | .gemm _ _ _ _ _ a b o => [a, b, o]
  | .search _ _ _ q g o => [q, g, o]
  | .cropInfer _ _ => []

/-- A request of a route: in its limits, on pages its owner holds, with the records it carries checked
under R243 before its first tile. What the service's program then writes is its image's own work. -/
def State.primReq (s : State) (route : OdRoute) (p : Primitive) (ls : LayerSection) : Reply :=
  if !primOk p ∨ !LayerSection.rangeOk ls then ⟨3, 0, s⟩
  else if !(primHandles p).all (s.ownerHolds route) then ⟨2, 0, s⟩
  else match LayerSection.shapeDetail ls with
  | some x => ⟨9, fltShape, s.raise { code := fltShape, unit := OdRoute.num route, detail := x }⟩
  | none => ⟨0, 0, s⟩

def execPrimitiveRequest (route : OdRoute) (p : Primitive) (layers : LayerSection) (s : State) :
    Host.Outcome State Fault Refusal :=
  ctxDone s route (s.primReq route p layers)

end Sys2Proof.Machine
end

