-- ==== Sys2Proof/Machine/CoreBase.lean ====
section
/-! DEFINITION. What every core instruction shares: issue (R143, R151, R154), the registers of a core,
the engine port of its scratchpad (R147, R155 to R161), the engine queues, and the outcome of an
instruction that is refused. -/
namespace Sys2Proof.Machine
open Sys2Proof

/-- Why an instruction is not executed: a fault of its context (detail: the PC unless given), a failing
line that it read, an address that its cluster's DMA may not read for it, a queue that is full, or something that other
cores have still to do. -/
inductive Trap where
  | fault (code : Nat) (detail : Option Nat) (addr : Nat)
  | line (a : Nat) (r : LineRes)
  | dma (cl addr : Nat)
  | full
  | later
  deriving DecidableEq, Repr

/-- An instruction's effect, or its trap with what it had done before it. -/
abbrev Run := Except (Trap × State) State

/-- Folds a running effect over a list, stopping at the first trap. -/
def runAll {α : Type} (f : State → α → Run) (s : State) : List α → Run
  | [] => .ok s
  | x :: t => match f s x with
    | .ok s => runAll f s t
    | .error e => .error e

/-! ### Lost lines (R392) -/

/-- The track-store checkpoint of a slot is lost: its tracks go without final records, its next serial
stays, and the deletion enters its chain. -/
def State.loseTracks (s : State) (n : Nat) : State :=
  let k := (s.slot n).trk
  let e : Entry := { typ := 12, sub := 0, forced := true, payload := leBytes 4 (k.tracks.filter (fun t => t.2.state != 0)).length }
  let s := if (s.slot n).run = .unconfigured then s else s.chainLate n e
  s.emptyTracks n

/-- A context whose image, weights or tables lie on a lost Class P line is torn down. -/
def State.settleLost (s : State) : State :=
  let lines := s.mem.lostLines
  let s := { s with mem := { s.mem with lostLines := [] } }
  lines.foldl (fun s l =>
    match s.ctxs.find? (fun p => p.2.live && (p.2.imagePages ++ p.2.pages).any (fun g =>
        g == pageOf l || s.partner g == pageOf l)) with
    | some (c, _) => s.endCtx c fltIntPLost
    | none => match checkpointSlot (pageOf l) with
      | some n => s.loseTracks n
      | none => s) s

/-! ### Registers -/

/-- s0 reads zero. -/
def State.sreg (s : State) (core r : Nat) : Word := if r = 0 then 0#32 else tget 0#32 (s.core core).s r

/-- A write to s0 is discarded. -/
def State.setS (s : State) (core r : Nat) (v : Word) : State :=
  if r = 0 then s else s.modCore core (fun k => { k with s := tset 0#32 k.s r v })

def State.vreg (s : State) (core r : Nat) : BitVec 512 := tget 0#512 (s.core core).v r

def State.setV (s : State) (core r : Nat) (v : BitVec 512) : State :=
  s.modCore core (fun k => { k with v := tset 0#512 k.v r v })

/-- m0 reads all ones. -/
def State.mreg (s : State) (core r : Nat) : Nat :=
  if r = 0 then 2 ^ 64 - 1 else (tget 0#64 (s.core core).m r).toNat

def State.setM (s : State) (core r v : Nat) : State :=
  if r = 0 then s else s.modCore core (fun k => { k with m := tset 0#64 k.m r (BitVec.ofNat 64 v) })

/-! ### Issue -/

/-- The word that stands at the PC. -/
def Core.word (k : Core) : IWord := tget 0#64 k.ibuf k.pc

/-- The core goes on to the next word, the instruction counted as issued (R173, R440). -/
def State.retire (s : State) (core : Nat) : State :=
  (s.modCore core (fun k => { k with pc := (k.pc + 1) % 2048, retired := (k.retired + 1) % 2 ^ 64 })).account
    (s.core core).ctx 0 1

/-- The outcome of a trap of a core's instruction. -/
def State.trap (s : State) (core : Nat) (i : Instr) : Trap → State
  | .fault code detail addr =>
    let k := s.core core
    s.ctxFault k.ctx { code := code, unit := core, detail := detail.getD k.pc, addr := addr }
  | .line a .failedX => s.endCtx (s.core core).ctx (if inSaddle a then fltIntHost else fltIntRecompute)
  | .line _ .lostP => s.settleLost
  | .line a _ => s.recompute (s.core core).ctx core (s.memCode a) a
  | .dma cl addr => s.ctxFault (s.core core).ctx { code := fltDmaAddr, unit := 0x1000 + cl, addr := addr }
  | .full => s.modCore core (fun k => { k with stalled := some i })
  | .later => s

/-- The core can issue: it runs, nothing waits at the head of its stream, and the block of the PC is
valid. -/
def Core.canIssue (k : Core) : Bool :=
  k.st == .running && k.stalled.isNone && k.wait.isNone && bit k.valid (k.pc / 64)

/-- The core can issue, and `w` is the word at its PC. -/
def Core.issues (k : Core) (w : IWord) : Bool := k.canIssue && k.word == w

/-- Issue of a word whose class is that of its command: it executes, or it traps. A word of a reserved class, or of an
undefined function, is illegal (R149, R151). A command of another class than the word's is none that this word gives,
and changes nothing. -/
def State.dispatch (s : State) (core : Nat) (i : Instr) (c : CoreClass) (f : State → Run) : State :=
  match coreClass (s.core core).word with
  | none => s.trap core i (.fault fltCoreIllegal none (s.core core).word.toNat)
  | some d =>
    if d = c then
      match f s with
      | .ok t => t
      | .error (.later, _) => s
      | .error (.full, _) => s.trap core i .full
      | .error (t, u) => u.trap core i t
    else s

/-- An instruction reaches issue: the word at the PC, with the operands that it spells. A PC in an invalid block waits
for a pending fill, or faults (R154). -/
def State.atHead (s : State) (core : Nat) (i : Instr) (f : State → Run) : State :=
  let k := s.core core
  if k.canIssue then
    match i.coreWord with
    | some (c, w) => if k.word = w ∧ i.spelt then s.dispatch core i c f else s
    | none => s
  else if k.st = .running ∧ k.stalled = none ∧ k.wait = none ∧ !bit k.valid (k.pc / 64)
      ∧ !k.fills.contains (k.pc / 64) then
    s.trap core i (.fault fltCoreIfetch none k.word.toNat)
  else s

/-- An instruction that executes and leaves the head of the stream. -/
def State.issue (s : State) (core : Nat) (i : Instr) (f : State → Run) : State :=
  s.atHead core i (fun s => match f s with
    | .ok t => .ok (t.retire core)
    | .error x => .error x)

/-- An instruction that R151 refuses. -/
def State.illegal (s : State) (core : Nat) : Run :=
  .error (.fault fltCoreIllegal none (s.core core).word.toNat, s)

/-- An instruction of a word that R151 refuses. -/
def State.illegalWord (s : State) (w : IWord) : Run := .error (.fault fltCoreIllegal none w.toNat, s)

/-- A fault that names the instruction word. -/
def State.wordFault (s : State) (code : Nat) (w : IWord) : Run := .error (.fault code none w.toNat, s)

/-- Class and function of a word (R149). -/
def clsOf (w : IWord) : Nat := w.field 63 58
def fnOf (w : IWord) : Nat := w.field 57 52

/-- Bits `[hi:lo]` of a word. -/
def wf (w : IWord) (hi lo : Nat) : Nat := w.field hi lo

/-- The word has a class and function, and the listed fields are zero (R151). -/
def wordOk (w : IWord) (cls fn : Nat) (zeros : List (Nat × Nat)) : Bool :=
  clsOf w == cls && fnOf w == fn && zeros.all (fun z => wf w z.1 z.2 == 0)

/-! ### Engine queues (R143) -/

def Engine.num : Engine → Nat
  | .array => 0
  | .narrowing => 1
  | .addressGen => 2
  | .dma => 3

/-- An instruction of an engine: it takes a queue entry, or waits at the head of the stream. Its effect
takes place in issue order. -/
def State.enqueue (s : State) (core : Nat) (e : Engine) (f : State → Run) : Run :=
  if 4 ≤ tget 0 (s.core core).queues (Engine.num e) then .error (.full, s)
  else f (s.modCore core (fun k => { k with queues := tinc k.queues (Engine.num e) 1 }))

/-- An instruction of the array, with what its queue entry is. -/
def State.enqueueArray (s : State) (core : Nat) (op : ArrayOp) (f : State → Run) : Run :=
  s.enqueue core .array (fun s => f (s.modCore core (fun k => { k with arrayQ := k.arrayQ ++ [op] })))

/-- Both held buffers are in use (R190): a STRM runs, and a later LDS has loaded the other for a STRM still queued. -/
def Core.heldBusy (k : Core) : Bool :=
  match k.arrayQ with
  | .strm :: t => (t.dropWhile (· != .lds)).contains .strm
  | _ => false

/-! ### The engine port of the scratchpad -/

/-- Owners of R159. -/
def ownScalar : Nat := 0
def ownVector : Nat := 1
def ownArray : Nat := 2
def ownNarrow : Nat := 3

/-- Banks of `[off, off + n)`. -/
def banksOf (off n : Nat) : List Nat := upto (off / 0x4000) ((off + n - 1) / 0x4000 - off / 0x4000 + 1)

/-- Port of a cluster's DMA and way mask of its context (R369, R374). -/
def dmaPort (cl : Nat) : Nat := 22 + cl / 8

/-- Pages of section 1 of the image, which are read-only to the context (R425). -/
def State.codePages (s : State) (c : Nat) : List Nat :=
  let x := s.ctx c
  match x.imagePages with
  | [] => []
  | p :: _ =>
    let head := s.seen (p * pageSize) 1152
    match (upto 0 (fieldAt head 6 2)).find? (fun i => fieldAt head (128 + 16 * i) 2 == 1) with
    | none => []
    | some i =>
      let off := fieldAt head (136 + 16 * i) 8
      let len := fieldAt head (132 + 16 * i) 4
      ((upto (off / pageSize) ((off + len - 1) / pageSize - off / pageSize + 1)).filterMap (fun n => x.imagePages[n]?))

/-- An extent lies where the context may go: FLT_DMA_ADDR otherwise. -/
def State.extOk (s : State) (c : Nat) (write : Bool) (e : Int × Int) : Bool :=
  let x := s.ctx c
  if e.1 < 0 then false
  else
    let a := e.1.toNat
    let n := (e.2 - e.1).toNat
    if inSaddle a then
      s.holdsRange c a n && (!write || !((s.codePages c).any (fun p => decide (a / pageSize ≤ p) && decide (p ≤ (a + n - 1) / pageSize))))
    else match x.translate a with
      | none => false
      | some l =>
        if inCores a then
          decide ((coreOf a).2 + n ≤ 0x20000) && (banksOf (coreOf a).2 n).all (fun b => bit (s.core (coreOf l).1).pwr b)
        else decide ((clusterOf a).2 + n ≤ 0x100000) && (bufferBanks (clusterOf a).2 n).all (fun b => bit (s.cluster (clusterOf l).1).pwr b)

/-- An access of `n` bytes at an offset by an engine: address, power and ownership (R147, R159, R161). -/
def State.portCheck (s : State) (core owner off n align : Nat) : Option Trap :=
  let k := s.core core
  if 0x20000 < off + n ∨ off % align ≠ 0 then some (.fault fltCoreAddr none off)
  else if (banksOf off n).any (fun b => !bit k.pwr b) then some (.fault fltCoreBankOff none off)
  else if (banksOf off n).any (fun b => tget 0 k.own b != owner) then some (.fault fltCoreBankOwn none off)
  else none

/-- The lines of a scratchpad range are read and tested. -/
def State.testLines (s : State) (e : ReadErrors) : List Nat → Run
  | [] => .ok s
  | l :: t => match s.testLine 43 l e with
    | (.ok, s) => State.testLines s e t
    | (r, s) => .error (.line l r, s)

/-- Reads `n` bytes at an offset, tested line by line. -/
def State.portRead (s : State) (core owner off n align : Nat) (e : ReadErrors) : Except (Trap × State) (List Byte × State) :=
  match s.portCheck core owner off n align with
  | some t => .error (t, s)
  | none => match s.testLines e (linesOf (coreBase core + off) n) with
    | .ok s => .ok (s.rdBytes (coreBase core + off) n, s)
    | .error x => .error x

/-- Writes bytes at an offset; a write narrower than a line merges (R156, R386). -/
def State.portWrite (s : State) (core owner off align : Nat) (bs : List Byte) : Run :=
  match s.portCheck core owner off bs.length align with
  | some t => .error (t, s)
  | none => .ok (s.store 0 (coreBase core + off) bs)

/-- A meaning of a core instruction. -/
def coreStep (s : State) (core : Nat) (i : Instr) (f : State → Run) : Host.Outcome State Fault Refusal :=
  whenUp s (s.issue core i f)

end Sys2Proof.Machine
end

