-- ==== Sys2Proof/Machine/Tiles.lean ====
section
/-! DEFINITION. The address generator: checks of loop descriptor tables (R217), tile arithmetic (R218 to
R221), tile cursors (R225 to R228), streams (R229, R230, R233), descriptor building (R231), TRD (R232)
and the capacity check (R237 to R239). -/
namespace Sys2Proof.Machine
open Sys2Proof

/-! ### Tile arithmetic (R218, R219) -/

/-- A result of int64_t, which wraps (R9). -/
def i64 (v : Int) : Int := sgn 64 (wrap 64 v)

/-- Extent E_L and sibling step T_L of dimension d, in int64_t. -/
def Tab.tileE (t : Tab) (d : Nat) : Nat → Int
  | 0 => t.bound 0 d
  | l + 1 => i64 (t.bound (l + 1) d * (Tab.tileE t d l - (t.lo l d + t.hi l d : Nat)) + (t.lo l d + t.hi l d : Nat))

def Tab.tileT (t : Tab) (d l : Nat) : Int := i64 (t.tileE d l - (t.lo l d + t.hi l d : Nat))

/-- Start of the current level-`l` tile, from the child indices `i L` of the levels above. -/
def Tab.start (t : Tab) (i : Nat → List Nat) (d l : Nat) : Int :=
  (upto (l + 1) (5 - l)).foldl (fun (a : Int) (L : Nat) => i64 (a + ((i L).getD d 0 : Nat) * t.tileT d (L - 1))) (-(t.lo 4 d : Nat))

/-- Owned range of a level-`l` tile that starts at `a`. -/
def Tab.owned (t : Tab) (d l : Nat) (a : Int) : Int × Int := (a + t.lo l d, a + t.tileE d l - t.hi l d)

/-- A tile without an owned coordinate in [0, X). -/
def Tab.emptyTile (t : Tab) (i : Nat → List Nat) (l : Nat) : Bool :=
  (upto 0 t.nDims).any (fun d =>
    let o := t.owned d l (t.start i d l)
    decide (min o.2 (t.ext d) ≤ max o.1 0))

/-- Child indices of linear index `n` in level `l`'s order, fastest first. -/
def unrank (b : Nat → Nat) : List Nat → Nat → List (Nat × Nat)
  | [], _ => []
  | d :: t, n => (d, n % b d) :: unrank b t (n / b d)

def Tab.childIndex (t : Tab) (l n : Nat) : List Nat :=
  let ps := unrank (t.bound l) ((t.level l).order.take t.nDims) n
  (upto 0 6).map (fun d => ((ps.find? (fun p => p.1 == d)).map (·.2)).getD 0)

/-- The linear index of child indices. -/
def Tab.rank (t : Tab) (l : Nat) (i : List Nat) : Nat :=
  ((t.level l).order.take t.nDims).foldr (fun d acc => i.getD d 0 + t.bound l d * acc) 0

/-- Tiles of level `l − 1` in one of level `l`. -/
def Tab.count (t : Tab) (l : Nat) : Nat := ((t.level l).order.take t.nDims).foldl (fun n d => n * t.bound l d) 1

/-! ### Checks of DLD (R217, R239) -/

def zeroAt (t : List Byte) (o n : Nat) : Bool := (t.drop o).take n == copies n 0#8

def permOk (n : Nat) (o : List Nat) : Bool :=
  decide ((o.take n).Nodup) && (o.take n).all (fun d => decide (d < n)) && (o.drop n).all (· == 7)

def levelOk (t : List Byte) (v : Tab) (l : Nat) : Bool :=
  let o := 64 + (5 - l) * 32
  let r := v.level l
  permOk v.nDims r.order && decide (fieldAt t o 3 < 2 ^ 18) && zeroAt t (o + 3) 1 && zeroAt t (o + 28) 4
    && r.b.all (fun x => decide (1 ≤ x)) && ((r.hlo.drop v.nDims) ++ (r.hhi.drop v.nDims)).all (· == 0)
    && (l == 2 || l == 3 || l == 4 || (r.hlo ++ r.hhi).all (· == 0))

/-- A non-zero halo stands unchanged at every level up to L4. -/
def haloOk (v : Tab) (d : Nat) : Bool :=
  let same := fun (l : Nat) => (v.lo l d == 0 && v.hi l d == 0) || (v.lo l d == v.lo (l + 1) d && v.hi l d == v.hi (l + 1) d)
  same 2 && same 3

/-- Zero-point range of a format (R178). -/
def zpOk (fmt : Nat) (z : Int) : Bool :=
  if fmt ≤ 3 ∨ fmt = 5 then decide (codeMin fmt ≤ z) && decide (z ≤ codeMax fmt) else z == 0
where
  codeMin (f : Nat) : Int := if f = 0 ∨ f = 2 then 0 else if f = 1 then -128 else if f = 3 then -8 else -32768
  codeMax (f : Nat) : Int := if f = 0 then 255 else if f = 1 then 127 else if f = 2 then 15 else if f = 3 then 7 else 32767

def tensorOk (t : List Byte) (v : Tab) (n : Nat) : Bool :=
  let o := 256 + 160 * n
  let r := v.tensor n
  if v.nTens ≤ n then zeroAt t o 160
  else (bit r.flags 0 || zeroAt t (o + 12) 4) && (bit r.flags 1 || zeroAt t (o + 20) 4)
    && (upto r.nAxes (4 - r.nAxes)).all (fun a => zeroAt t (o + 32 + 4 * a) 4 && zeroAt t (o + 48 + 6 * a) 6 && zeroAt t (o + 72 + 4 * a) 4
      && zeroAt t (o + 88 + 4 * a) 4 && zeroAt t (o + 104 + 4 * a) 4 && zeroAt t (o + 120 + 4 * a) 4)
    && r.coef.all (fun c => (c.drop v.nDims).all (· == 0))
    && decide (r.format ≤ 11) && decide (r.role ≤ 2) && decide (1 ≤ r.nAxes) && decide (r.nAxes ≤ 4)
    && decide (r.rdim < v.nDims) && decide (r.flags < 4) && zeroAt t (o + 29) 1 && zpOk r.format r.zp && zeroAt t (o + 136) 24

def unit16 (v : Int) : Bool := v == 1 || decide (v % 16 = 0)

/-- Everything but the capacity check. Unused bytes, which are zero too: the second base of a copy that is not
double-buffered, axes from n_axes on, coefficients and halos of dimensions from n_dims on, and the work counter of a
distribution that fetches from none (R217). -/
def tabOk (t : List Byte) : Bool :=
  let v := readTab t
  let ds := upto 0 6
  decide (v.cls ≤ 1) && decide (1 ≤ v.nDims) && decide (v.nDims ≤ 6) && decide (1 ≤ v.nTens) && decide (v.nTens ≤ 4)
    && decide (v.dist5 ≤ 2) && decide (v.dist3 ≤ 2) && decide (v.wc3 ≤ 15) && (v.dist5 != 0 || v.wc5 == 0) && (v.dist3 == 1 || v.wc3 == 0) && zeroAt t 7 1
    && ds.all (fun d => decide (1 ≤ v.ext d) && decide (v.ext d ≤ 2147483647) && (decide (d < v.nDims) || v.ext d == 1))
    && v.list % 64 == 0 && (v.dist5 == 2 || v.list == 0) && zeroAt t 40 24
    && (upto 0 6).all (levelOk t v) && ds.all (haloOk v)
    && ds.all (fun d => (upto 0 6).all (fun l => decide (1 ≤ v.tileT d l)))
    && ds.all (fun d => decide ((v.ext d : Int) ≤ v.bound 5 d * v.tileT d 4))
    && (upto 0 4).all (tensorOk t v)
    && (v.cls == 0 || ds.all (fun d => v.lo 2 d == 0 && v.hi 2 d == 0 && v.lo 3 d == 0 && v.hi 3 d == 0 && v.lo 4 d == 0 && v.hi 4 d == 0
          && unit16 (v.ext d) && unit16 (v.tileE d 2) && unit16 (v.tileE d 3) && unit16 (v.tileE d 4)))

/-! ### Capacity (R237, R238) -/

/-- Element size in half-bytes. -/
def halfSize (fmt : Nat) : Nat :=
  if fmt = 2 ∨ fmt = 3 ∨ fmt = 4 then 1 else if fmt ≤ 1 ∨ fmt = 6 ∨ fmt = 7 then 2
  else if fmt = 5 ∨ fmt = 8 ∨ fmt = 9 then 4 else 8

def is4bit (fmt : Nat) : Bool := fmt == 2 || fmt == 3 || fmt == 4

/-- Bytes of one buffer of a tensor's core copy. -/
def Tab.span (v : Tab) (r : TensorRec) : Nat :=
  let s0 := if is4bit r.format then 1 else halfSize r.format / 2
  let s := (upto 0 r.nAxes).foldl (fun s a =>
    let w := (upto 0 v.nDims).foldl (fun w d => w + (r.coef.getD a []).getD d 0 * (v.tileE d 2 - 1).toNat) 0
    s + w * (r.sstride.getD a 0).natAbs / (if is4bit r.format then 2 else 1)) s0
  alignUp s (if r.role = 0 then 32 else 64)

/-- Buffers of a tensor: offset and length. -/
def Tab.buffers (v : Tab) (r : TensorRec) : List (Nat × Nat) :=
  (r.sbase.take (if bit r.flags 1 then 2 else 1)).map (fun b => (b, v.span r))

/-- The failing part of the check, or none: 0 operand sum, 1 accumulator sum, 2 placement. A span of 2^63
or more exceeds every sum. -/
def Tab.capacity (v : Tab) (pwr : Nat) : Option Nat :=
  let ts := (v.tens.take v.nTens)
  let sum := fun (role : Nat) => ((ts.filter (fun r => r.role == role)).flatMap v.buffers).foldl (fun n b => n + b.2) 0
  let op := popCount pwr 6
  let acc := popCount (pwr / 64) 2
  let placed := fun (r : TensorRec) => (v.buffers r).all (fun b =>
    let lim := if r.role = 0 then (0, 0x18000) else (0x18000, 0x20000)
    decide (lim.1 ≤ b.1) && decide (b.1 + b.2 ≤ lim.2)
      && (upto (b.1 / 0x4000) ((b.1 + b.2 - 1) / 0x4000 - b.1 / 0x4000 + 1)).all (fun k => bit pwr k))
  if 0x4000 * op < sum 0 then some 0 else if 0x4000 * acc < sum 1 then some 1
  else if (ts.filter (fun r => r.role != 2)).all placed then none else some 2

/-! ### Slots -/

def State.tabSlot (s : State) (core n : Nat) : TabSlot := tget {} (s.core core).tabs n
def State.modTab (s : State) (core n : Nat) (f : TabSlot → TabSlot) : State :=
  s.modCore core (fun k => { k with tabs := tmod {} k.tabs n f })

/-- The child indices i_L of the current tiles of a slot. -/
def TabSlot.idx (t : TabSlot) (l : Nat) : List Nat := (tget none t.cur (l - 1)).getD []

/-- The level has a current tile; level 5 always has. -/
def TabSlot.has (t : TabSlot) (l : Nat) : Bool := l == 5 || (tget none t.cur l).isSome

def TabSlot.loaded (t : TabSlot) : Bool := !t.table.isEmpty

/-- DLD (R217, R223, R225). -/
def State.dld (s : State) (core : Nat) (w : IWord) : Run :=
  let slot := wf w 46 45
  let off := (s.sreg core (wf w 51 47)).toNat
  match s.portRead core ownScalar off 896 32 noErrors with
  | .error x => .error x
  | .ok (t, s) =>
    if 0x18000 < off + 896 then .error (.fault fltCoreAddr none off, s)
    else if !tabOk t then s.wordFault fltTileDesc w
    else
      let v := readTab t
      match (if v.cls = 1 then v.capacity (s.core core).pwr else none) with
      | some d => .error (.fault fltTileCapacity (some d) w.toNat, s)
      | none => .ok (s.modCore core (fun k => { k with
          tabs := tset {} k.tabs slot { table := t }
          streams := k.streams.filter (fun p => match p.2 with | some x => x.slot != slot | none => false) }))

def execDld (core : Nat) (w : IWord) (s : State) : Host.Outcome State Fault Refusal :=
  coreStep s core (.dld core w) (fun s =>
    if !wordOk w 0x27 0 [(44, 0)] then s.illegalWord w
    else s.enqueue core .addressGen (fun s => s.dld core w))

/-! ### Work counters (R278 to R281) -/

/-- One fetch of a counter: its value, and v counted up below the limit. -/
def fetchOf (v limit : Nat) : Nat × Nat := if v < limit then (v, v + 1) else (0xFFFFFFFF, v)

def State.fetchCluster (s : State) (cl idx : Nat) : Nat × State :=
  let p := tget (0, 0) (s.cluster cl).wc idx
  let r := fetchOf p.1 p.2
  (r.1, s.modCluster cl (fun c => { c with wc := tset (0, 0) c.wc idx (r.2, p.2) }))

/-- A device counter, through the context's counter map; none where the index is not declared (R280). -/
def State.fetchDevice (s : State) (c idx : Nat) : Option (Nat × State) :=
  ((s.ctx c).ctrs[idx]?).map (fun p =>
    let r := fetchOf (s.workCtr p).v (s.workCtr p).limit
    (r.1, s.modWork p (fun x => { x with v := r.2 })))

/-! ### TNX (R226 to R228) -/

/-- What a sequence gives next: a tile's child indices, its end, or a trap. -/
inductive Next where
  | tile (i : List Nat) | done | trap (t : Trap)
  deriving DecidableEq, Repr

/-- First non-empty tile of the static sequence from `idx` by `step`; the second part is the position
after it. -/
def Tab.staticNext (v : Tab) (up : Nat → List Nat) (l step : Nat) : Nat → Nat → Nat → Next × Nat
  | 0, _, pos => (.done, pos)
  | fuel + 1, idx, pos =>
    if v.count l ≤ idx then (.done, 0)
    else
      let i := v.childIndex l idx
      if v.emptyTile (fun L => if L = l then i else up L) (l - 1) then Tab.staticNext v up l step fuel (idx + step) (pos + 1)
      else (.tile i, pos + 1)

/-- Child indices of tile-list entry `t`, on the first two dimensions of L5's order (R228). -/
def Tab.listIndex (v : Tab) (tilesW t : Nat) : List Nat :=
  let o := (v.level 5).order
  (upto 0 6).map (fun d => if d = o.getD 0 7 then t % tilesW else if d = o.getD 1 7 ∧ 2 ≤ v.nDims then t / tilesW else 0)

/-- The bounds of L5 match the canvas. -/
def Tab.listOk (v : Tab) (tilesW tilesH : Nat) : Bool :=
  let o := (v.level 5).order.take v.nDims
  v.bound 5 (o.getD 0 0) == tilesW && (match o[1]? with | some d => v.bound 5 d == tilesH | none => tilesH == 1)
    && (o.drop 2).all (fun d => v.bound 5 d == 1)

/-- Bytes of a mask area as the cluster DMA reads them for a tile list: like a fill, where the context may read, in
partition numbering (R154, R166, R228). -/
def State.maskRead (s : State) (cl c a n : Nat) : Except (Trap × State) (Nat × State) :=
  let x := s.ctx c
  if !s.extOk c false ((a : Int), ((a + n : Nat) : Int)) then .error (.dma cl a, s)
  else
    let l := (x.translate a).getD 0
    match (s.accountDram c 11 l n).readRange (dmaPort cl) x.ways l n noErrors with
    | (some (f, r), s) => .error (.line f r, s)
    | (none, s) => .ok (leNat (s.seen l n), s)

/-- Entry `x` of the tile list at list_addr: the child indices it names, or none past its end. -/
def Tab.listEntry (v : Tab) (cl c x : Nat) (w : IWord) (s : State) : Except (Trap × State) (Option (List Nat) × State) :=
  match s.maskRead cl c v.list 6 with
  | .error e => .error e
  | .ok (h, s) =>
    let tw := h % 65536
    if h / 2 ^ 32 ≤ x then .ok (none, s)
    else if !v.listOk tw (h / 65536 % 65536) then .error (.fault fltTileList none w.toNat, s)
    else match s.maskRead cl c (v.list + 1088 + 2 * x) 2 with
      | .error e => .error e
      | .ok (t, s) => .ok (some (v.listIndex tw t), s)

/-- A level-5 result of cluster `cl`: fetches until a tile that is not empty, or the end. -/
def Tab.fetch5 (v : Tab) (cl c : Nat) (w : IWord) : Nat → State → Next × State
  | 0, s => (.done, s)
  | fuel + 1, s =>
    match s.fetchDevice c v.wc5 with
    | none => (.trap (.fault fltWorkOwner none w.toNat), s)
    | some (x, s) =>
      if v.dist5 = 2 then
        match v.listEntry cl c x w s with
        | .error (e, s) => (.trap e, s)
        | .ok (none, s) => (.done, s)
        | .ok (some i, s) => if v.emptyTile (fun _ => i) 4 then Tab.fetch5 v cl c w fuel s else (.tile i, s)
      else if x = 0xFFFFFFFF ∨ v.count 5 ≤ x then (.done, s)
      else
        let i := v.childIndex 5 x
        if v.emptyTile (fun _ => i) 4 then Tab.fetch5 v cl c w fuel s else (.tile i, s)

/-- Level 3 under a cluster counter. -/
def Tab.fetch3 (v : Tab) (up : Nat → List Nat) (cl : Nat) : Nat → State → Next × State
  | 0, s => (.done, s)
  | fuel + 1, s =>
    match s.fetchCluster cl v.wc3 with
    | (x, s) =>
      if x = 0xFFFFFFFF ∨ v.count 3 ≤ x then (.done, s)
      else
        let i := v.childIndex 3 x
        if v.emptyTile (fun L => if L = 3 then i else up L) 2 then Tab.fetch3 v up cl fuel s else (.tile i, s)

/-- Where a level-5 result is kept; it is 1 for the end, else the linear index + 2. -/
def resultKey (slot m : Nat) : Nat := 4 * m + slot

/-- The m-th TNX at level 5 of a core under a shared sequence (R227): the cluster's result, fetched by the
first core to ask. A core two results ahead of the slowest waits. -/
def State.shared5 (s : State) (core slot : Nat) (v : Tab) (w : IWord) : Option (Next × State) :=
  let cl := core / 16
  let m := tget 0 (s.core core).taken5 slot
  let slow := (upto (cl * 16) 16).any (fun n => decide (tget 0 (s.core n).taken5 slot + 1 < m))
  if slow then none
  else
    let took := fun (s : State) => s.modCore core (fun k => { k with taken5 := tset 0 k.taken5 slot (m + 1) })
    match tget 0 (s.cluster cl).results5 (resultKey slot m) with
    | 0 =>
      match v.fetch5 cl (s.core core).ctx w (2 ^ 32) s with
      | (.trap t, s) => some (.trap t, s)
      | (r, s) =>
        let code := match r with | .tile i => v.rank 5 i + 2 | _ => 1
        some (r, took (s.modCluster cl (fun c => { c with
          results5 := tset 0 (c.results5.filter (fun p => !(p.1 % 4 == slot && decide (p.1 / 4 + 2 < m + 1)))) (resultKey slot m) code })))
    | 1 => some (.done, took s)
    | n + 2 => some (.tile (v.childIndex 5 n), took s)

/-- The next tile of level `l − 1` for this core, with the state after the sequence moved. -/
def State.nextTile (s : State) (core slot l : Nat) (v : Tab) (w : IWord) : Option (Next × State) :=
  let t := s.tabSlot core slot
  let x := s.ctx (s.core core).ctx
  let pos := tget 0 t.seqs l
  let static := fun (first step : Nat) =>
    let r := v.staticNext t.idx l step (v.count l + 1) (first + pos * step) pos
    some (r.1, s.modTab core slot (fun t => { t with seqs := tset 0 t.seqs l r.2 }))
  if l = 4 then static 0 1
  else if l = 5 then
    if v.dist5 = 0 then static (x.relCluster (core / 16)) x.k else s.shared5 core slot v w
  else if v.dist3 = 0 then static (core % 16) 16
  else if v.dist3 = 2 then static 0 1
  else some (v.fetch3 t.idx (core / 16) (2 ^ 32) s)

/-- Streams of a slot start again at position 0 (R229). -/
def State.restartStreams (s : State) (core slot : Nat) : State :=
  s.modCore core (fun k => { k with streams := k.streams.map (fun p =>
    (p.1, p.2.map (fun x => if x.slot = slot then { x with pos := 0 } else x))) })

/-- A tile is taken: the levels below are before-first. -/
def State.takeTile (s : State) (core slot l : Nat) (i : Option (List Nat)) : State :=
  let s := s.modTab core slot (fun t => { t with
    cur := tset none (t.cur.filter (fun p => decide (l ≤ p.1))) (l - 1) i
    seqs := t.seqs.filter (fun p => decide (l ≤ p.1))
    count2 := if l = 3 ∧ i.isSome then t.count2 + 1 else t.count2
    count3 := if l = 4 ∧ i.isSome then t.count3 + 1 else t.count3 })
  if l = 3 ∧ i.isSome then s.restartStreams core slot else s

def State.tnx (s : State) (core : Nat) (w : IWord) : Run :=
  let slot := wf w 46 45
  let l := wf w 44 43 + 3
  let t := s.tabSlot core slot
  if !t.loaded ∨ !t.has l then s.wordFault fltTileStream w
  else
    let v := readTab t.table
    match s.nextTile core slot l v w with
    | none => .error (.later, s)
    | some (.trap x, u) => .error (x, u)
    | some (.done, u) => .ok ((u.takeTile core slot l none).setS core (wf w 51 47) 0xFFFFFFFF#32)
    | some (.tile i, u) =>
      match (if l = 3 ∧ v.cls = 0 then v.capacity (s.core core).pwr else none) with
      | some d => .error (.fault fltTileCapacity (some d) w.toNat, s)
      | none => .ok ((u.takeTile core slot l (some i)).setS core (wf w 51 47) (BitVec.ofNat 32 (v.rank l i)))

def execTnx (core : Nat) (w : IWord) (s : State) : Host.Outcome State Fault Refusal :=
  coreStep s core (.tnx core w) (fun s =>
    if !wordOk w 0x26 1 [(42, 0)] ∨ wf w 44 43 = 3 then s.illegalWord w
    else s.enqueue core .addressGen (fun s => s.tnx core w))

/-! ### TRD (R232) -/

def State.trd (s : State) (core : Nat) (w : IWord) : State :=
  let t := s.tabSlot core (wf w 46 45)
  let l := wf w 44 42
  let v := readTab t.table
  let a : Word := if t.loaded && t.has l then BitVec.ofInt 32 (v.start t.idx (wf w 41 39) l) else 0x80000000#32
  s.setS core (wf w 51 47) a

def execTrd (core : Nat) (w : IWord) (s : State) : Host.Outcome State Fault Refusal :=
  coreStep s core (.trd core w) (fun s =>
    let t := s.tabSlot core (wf w 46 45)
    let l := wf w 44 42
    if !wordOk w 0x26 3 [(38, 0)] ∨ l < 2 ∨ 5 < l ∨ (t.loaded ∧ (readTab t.table).nDims ≤ wf w 41 39) then s.illegalWord w
    else s.enqueue core .addressGen (fun s => .ok (s.trd core w)))

/-! ### Streams (R229, R230, R233) -/

/-- Lanes of a row, and the alignment its consumer requires: an accumulator line, an operand row, an
output group (R188, R202). -/
def TensorRec.rowBytes (r : TensorRec) (n : Nat) : Nat := n * halfSize r.format / 2

def TensorRec.align (r : TensorRec) (n : Nat) : Nat := if r.role = 1 then 64 else r.rowBytes n

/-- Half-byte step of a tensor's core copy along dimension d. -/
def TensorRec.step (r : TensorRec) (d : Nat) : Int :=
  (upto 0 r.nAxes).foldl (fun (n : Int) a => n + ((r.coef.getD a []).getD d 0 : Nat) * r.sstride.getD a 0
    * (if is4bit r.format then 1 else 2)) 0

/-- R229: the refusals of an AGS. -/
def Tab.agsOk (v : Tab) (r : TensorRec) (write : Bool) : Bool :=
  let n := v.bound 0 r.rdim
  let lens := if r.role = 0 ∧ !write ∧ is4bit r.format then [16, 32] else [16]
  let al : Int := (2 * r.align n : Nat)
  r.role != 2 && lens.contains n && (r.role == 0 || halfSize r.format == 8)
    && (upto 0 v.nDims).all (fun d => d == r.rdim || v.bound 0 d == 1
        || (upto 0 r.nAxes).all (fun a => (r.coef.getD a []).getD d 0 == 0))
    && r.step r.rdim == (halfSize r.format : Nat)
    && (r.sbase.take (if bit r.flags 1 then 2 else 1)).all (fun b => decide (((2 * b : Nat) : Int) % al = 0))
    && (upto 0 v.nDims).all (fun d => (v.bound 1 d == 1 || decide ((r.step d * v.tileT d 0) % al = 0))
        && (v.bound 2 d == 1 || decide ((r.step d * v.tileT d 1) % al = 0)))

/-- AGS: a stream is bound at position 0. -/
def State.ags (s : State) (core : Nat) (w : IWord) : Run :=
  let slot := wf w 48 47
  let t := s.tabSlot core slot
  let v := readTab t.table
  let write := bit w.toNat 44
  if !t.loaded then s.wordFault fltTileStream w
  else if v.nTens ≤ wf w 46 45 ∨ !v.agsOk (v.tensor (wf w 46 45)) write then s.wordFault fltTileDesc w
  else .ok (s.modCore core (fun k => { k with
    streams := tset none k.streams (wf w 51 49) (some { slot := slot, tensor := wf w 46 45, write := write }) }))

def execAgs (core : Nat) (w : IWord) (s : State) : Host.Outcome State Fault Refusal :=
  coreStep s core (.ags core w) (fun s =>
    if !wordOk w 0x26 0 [(43, 0)] then s.illegalWord w
    else s.enqueue core .addressGen (fun s => s.ags core w))

/-- A stream in use: its table, slot, tensor and position. -/
structure Bound where
  num : Nat
  v : Tab
  t : TabSlot
  r : TensorRec
  deriving DecidableEq, Repr

/-- R230: a stream that is unbound, bound the other way or without a current L2 tile is refused. -/
def State.bound (s : State) (core n : Nat) (write : Bool) : Option Bound :=
  match tget none (s.core core).streams n with
  | none => none
  | some x =>
    let t := s.tabSlot core x.slot
    if x.write == write && t.loaded && t.has 2 then
      let v := readTab t.table
      some { num := n, v := v, t := t, r := v.tensor x.tensor }
    else none

/-- The axis coordinates of an element. -/
def TensorRec.coord (r : TensorRec) (e : Nat → Int) (a : Nat) : Int :=
  (upto 0 6).foldl (fun (c : Int) d => c + ((r.coef.getD a []).getD d 0 : Nat) * e d) (r.offset.getD a 0)

/-- R221. -/
def Tab.valid (v : Tab) (r : TensorRec) (e : Nat → Int) : Bool :=
  (upto 0 v.nDims).all (fun d =>
      (upto 0 r.nAxes).all (fun a => (r.coef.getD a []).getD d 0 == 0) || (decide (0 ≤ e d) && decide (e d < v.ext d)))
    && (upto 0 r.nAxes).all (fun a => decide (0 ≤ r.coord e a) && decide (r.coord e a < r.extent.getD a 0))

/-- Byte address in the core copy of the element `e` (R220). -/
def Bound.coreAddr (b : Bound) (e : Nat → Int) : Int :=
  let g := fun d => b.v.start b.t.idx d 2
  let p2 := if bit b.r.flags 1 then b.t.count2 % 2 else 0
  let h := (upto 0 b.r.nAxes).foldl (fun (n : Int) a => n + (b.r.coord e a - b.r.coord g a) * b.r.sstride.getD a 0) 0
  (b.r.sbase.getD p2 0 : Nat) + (if is4bit b.r.format then Int.fdiv h 2 else h)

/-- One row of a stream: its address and which lanes are valid. -/
structure Row where
  addr : Int
  valid : List Bool
  deriving DecidableEq, Repr

/-- The row at position `p`. -/
def Bound.row (b : Bound) (p : Nat) : Row :=
  let i1 := b.v.childIndex 1 (p % b.v.count 1)
  let i2 := b.v.childIndex 2 (p / b.v.count 1)
  let e0 := fun d => b.v.start b.t.idx d 2 + ((i2.getD d 0 : Nat) : Int) * b.v.tileT d 1 + ((i1.getD d 0 : Nat) : Int) * b.v.tileT d 0
  { addr := b.coreAddr e0
    valid := (upto 0 (b.v.bound 0 b.r.rdim)).map (fun (n : Nat) => b.v.valid b.r (fun d => if d = b.r.rdim then e0 d + (n : Int) else e0 d)) }

/-- The next row of a stream: the position moves on, wrapping. -/
def State.takeRow (s : State) (core : Nat) (b : Bound) : Row × State :=
  let p := match tget none (s.core core).streams b.num with | some x => x.pos | none => 0
  let n := b.v.count 1 * b.v.count 2
  (b.row p, s.modCore core (fun k => { k with
    streams := tmod none k.streams b.num (fun x => x.map (fun y => { y with pos := (p + 1) % n })) }))

/-- An offset that cannot be in the scratchpad faults as an address. -/
def offOf (a : Int) : Nat := if a < 0 then 2 ^ 64 else a.toNat

/-- Element codes of bytes, `h` half-bytes each. -/
def elemsOf (h n : Nat) (bs : List Byte) : List Nat :=
  let v := leNat bs
  (upto 0 n).map (fun i => bits v (4 * h * i + 4 * h - 1) (4 * h * i))

/-- Bytes of element codes. -/
def elemBytes (h : Nat) (xs : List Nat) : List Byte :=
  leBytes (xs.length * h / 2) (xs.foldr (fun x a => x % 16 ^ h + a * 16 ^ h) 0)

/-- Reads a row: codes of its valid lanes, `fill` in the others; no access where no lane is valid (R233). -/
def State.readAt (s : State) (core owner : Nat) (b : Bound) (row : Row) (fill : Nat) :
    Except (Trap × State) (List Nat × State) :=
  let n := row.valid.length
  if !row.valid.any id then .ok (copies n fill, s)
  else match s.portRead core owner (offOf row.addr) (b.r.rowBytes n) (b.r.align n) noErrors with
    | .error x => .error x
    | .ok (bs, s) =>
      .ok (((elemsOf (halfSize b.r.format) n bs).zip row.valid).map (fun p => if p.2 then p.1 else fill), s)

/-- Takes the next row of a stream and reads it. -/
def State.readRow (s : State) (core owner : Nat) (b : Bound) (fill : Nat) : Except (Trap × State) (List Nat × State) :=
  (s.takeRow core b).2.readAt core owner b (s.takeRow core b).1 fill

/-- Writes a row's valid lanes (R235). A 4-bit lane keeps the other half of its byte. -/
def State.writeRow (s : State) (core owner : Nat) (b : Bound) (row : Row) (xs : List Nat) : Run :=
  let n := row.valid.length
  let h := halfSize b.r.format
  let off := offOf row.addr
  if !row.valid.any id then .ok s
  else match s.portCheck core owner off (b.r.rowBytes n) (b.r.align n) with
    | some t => .error (t, s)
    | none =>
      let base := coreBase core + off
      if row.valid.all id then .ok (s.store 0 base (elemBytes h xs))
      else
        let old := elemsOf h n (s.rdBytes base (b.r.rowBytes n))
        let new := elemBytes h ((old.zip (xs.zip row.valid)).map (fun p => if p.2.2 then p.2.1 else p.1))
        .ok ((upto 0 new.length).foldl (fun s i =>
          let lo := i * 2 / h
          let touched := (upto lo (if h = 1 then 2 else 1)).any (fun l => row.valid.getD l false)
          if touched then s.store 0 (base + i) ((new.drop i).take 1) else s) s)

/-! ### AGD (R231) -/

/-- A copy's base, strides and coordinate origin, in device addresses of partition numbering. -/
structure Copy where
  base : Int
  stride : List Int
  g : Nat → Int

/-- Home, cluster copy and core copy of a tensor for the current tile. -/
def State.copyOf (s : State) (core which : Nat) (b : Bound) : Copy :=
  let x := s.ctx (s.core core).ctx
  let none_ := fun (_ : Nat) => (0 : Int)
  let c3 := fun d => b.v.start b.t.idx d 3
  let c2 := fun d => b.v.start b.t.idx d 2
  match which with
  | 0 => ⟨b.r.home, b.r.hstride, none_⟩
  | 1 => ⟨(clusterBase (x.relCluster (core / 16)) + b.r.cbase.getD (if bit b.r.flags 0 then b.t.count3 % 2 else 0) 0 : Nat),
          b.r.cstride, b.r.coord c3⟩
  | _ => ⟨(coreBase (x.relCore core) + b.r.sbase.getD (if bit b.r.flags 1 then b.t.count2 % 2 else 0) 0 : Nat),
          b.r.sstride, b.r.coord c2⟩

/-- Source, destination, tile level and whether the region is the owned range, by kind. -/
def kindOf (k : Nat) : Nat × Nat × Nat × Bool :=
  match k with
  | 0 => (0, 1, 3, false)
  | 1 => (1, 2, 2, false)
  | 2 => (2, 1, 2, true)
  | 3 => (1, 0, 3, true)
  | 4 => (0, 2, 2, false)
  | _ => (2, 0, 2, true)

/-- Half-byte address of a coordinate vector in a copy; bytes for wider formats are doubled. -/
def Copy.at (c : Copy) (r : TensorRec) (lo : Nat → Int) : Int :=
  let m : Int := if is4bit r.format then 1 else 2
  2 * c.base + (upto 0 r.nAxes).foldl (fun (n : Int) a => n + (lo a - c.g a) * c.stride.getD a 0 * m) 0

/-- A descriptor's extent along each axis, or none where R231 refuses it. -/
def descOf (r : TensorRec) (src : Option Copy) (dst : Copy) (lo n : Nat → Int) : Option (List Byte) :=
  let h : Int := (halfSize r.format : Nat)
  let m : Int := if is4bit r.format then 1 else 2
  let strides := fun (c : Copy) (a : Nat) => if a < r.nAxes then c.stride.getD a 0 * m else 0
  let da := dst.at r lo
  let sa := match src with | some c => c.at r lo | none => 0
  let cnt := fun (a : Nat) => if a < r.nAxes then n a else 1
  let unit := fun (c : Copy) => c.stride.getD 0 0 * m == h
  let even := fun (v : Int) => decide (v % 2 = 0)
  let ss := fun (a : Nat) => match src with | some c => strides c a | none => 0
  let ds := fun (a : Nat) => strides dst a
  let evenStep := fun (a : Nat) => cnt a == 1 || (even (ss a) && even (ds a))
  if !unit dst || (match src with | some c => !unit c | none => false) || decide (1 < cnt 3)
      || !even da || !even sa || !even (cnt 0 * h) || !evenStep 1 || !evenStep 2
      || decide (1048576 < cnt 0 * h / 2) || decide (65535 < cnt 1) || decide (65535 < cnt 2) then none
  else
    let word := fun (v : Int) (k : Nat) => leBytes k (wrap (8 * k) v)
    some (word (sa / 2) 8 ++ word (da / 2) 8 ++ word (cnt 0 * h / 2) 4 ++ word (cnt 1) 2 ++ word (cnt 2) 2
      ++ word (ss 1 / 2) 4 ++ word (ds 1 / 2) 4 ++ word (ss 2 / 2) 4 ++ word (ds 2 / 2) 4
      ++ leBytes 2 0 ++ leBytes 1 (if src.isNone then 1 else 0) ++ copies 21 0#8)

/-- The descriptors of an AGD: none where it is refused. -/
def State.agdDescs (s : State) (core kind : Nat) (b : Bound) (done : Nat) : Option (List (List Byte)) :=
  let (from_, to_, l, own) := kindOf kind
  let r := b.r
  let v := b.v
  let start := fun d => v.start b.t.idx d l
  let full := fun d => (start d, start d + v.tileE d l)
  let want := fun d => if own then v.owned d l (start d) else full d
  let clip := fun d => (max (want d).1 0, min (want d).2 (v.ext d))
  let emptyR := (upto 0 v.nDims).any (fun d => decide ((clip d).2 ≤ (clip d).1))
  let axis := fun (rng : Nat → Int × Int) (a : Nat) => (r.coord (fun d => (rng d).1) a, r.coord (fun d => (rng d).2 - 1) a + 1)
  let cut := fun (a : Nat) => (max (axis clip a).1 0, min (axis clip a).2 (r.extent.getD a 0))
  let emptyA := (upto 0 r.nAxes).any (fun a => decide ((cut a).2 ≤ (cut a).1))
  if emptyR || emptyA then some []
  else
    let src := s.copyOf core from_ b
    let dst := s.copyOf core to_ b
    let whole := axis full
    let smaller := (upto 0 r.nAxes).any (fun a => decide ((cut a).2 - (cut a).1 < (whole a).2 - (whole a).1))
    match descOf r (some src) dst (fun a => (cut a).1) (fun a => (cut a).2 - (cut a).1) with
    | none => none
    | some d =>
      let d := d.take 43 ++ leBytes 1 (bits done 16 11) ++ leBytes 2 (bits done 10 0) ++ leBytes 2 (bits done 31 17) ++ d.drop 48
      if !own && smaller then
        (descOf r none dst (fun a => (whole a).1) (fun a => (whole a).2 - (whole a).1)).map (fun z => [z, d])
      else some [d]

/-- AGD: the zero-fill descriptor, where one is needed, stands before the copy's. -/
def State.agd (s : State) (core : Nat) (w : IWord) : Run :=
  let slot := wf w 36 35
  let t := s.tabSlot core slot
  let v := readTab t.table
  let n := wf w 34 33
  let (from_, to_, l, _) := kindOf (wf w 32 30)
  let r := v.tensor n
  let off := (s.sreg core (wf w 51 47)).toNat
  if !t.loaded ∨ !t.has l then s.wordFault fltTileStream w
  else if v.nTens ≤ n ∨ (r.role = 2 ∧ (from_ = 2 ∨ to_ = 2)) then s.wordFault fltTileDesc w
  else match s.agdDescs core (wf w 32 30) { num := 0, v := v, t := t, r := r } (s.sreg core (wf w 46 42)).toNat with
    | none => s.wordFault fltTileDesc w
    | some ds =>
      match (if ds.isEmpty then (if off % 64 = 0 then .ok s else .error (.fault fltCoreAddr none off, s))
             else s.portWrite core ownScalar off 64 ds.flatten) with
      | .error x => .error x
      | .ok s => .ok (s.setS core (wf w 41 37) (BitVec.ofNat 32 ds.length))

def execAgd (core : Nat) (w : IWord) (s : State) : Host.Outcome State Fault Refusal :=
  coreStep s core (.agd core w) (fun s =>
    if !wordOk w 0x26 2 [(29, 0)] ∨ 5 < wf w 32 30 then s.illegalWord w
    else s.enqueue core .addressGen (fun s => s.agd core w))

end Sys2Proof.Machine
end

