-- ==== Sys2Proof/Machine/Vector.lean ====
section
/-! DEFINITION. The vector unit (R146, R147, R208, R210): lanes of 8, 16 or 32 bits under a mask. Where
the spec states no result for a lane (an integer sum outside the element type, a shift by the width or
more, a comparison with a NaN) the lane takes a free value. -/
namespace Sys2Proof.Machine
open Sys2Proof

/-- Bits of an element (R178); codes 2, 3 and 4 take 4. -/
def elemBits (ty : Nat) : Nat :=
  if ty = 0 ∨ ty = 1 ∨ ty = 6 ∨ ty = 7 then 8 else if ty = 5 ∨ ty = 8 ∨ ty = 9 then 16
  else if ty = 10 ∨ ty = 11 then 32 else 4

/-- Types of integer and of float arithmetic (R146). -/
def intType (ty : Nat) : Bool := [0, 1, 5, 11].contains ty
def floatType (ty : Nat) : Bool := [8, 9, 10].contains ty
def arithType (ty : Nat) : Bool := intType ty || floatType ty

/-- Lanes of a register. -/
def lanes (w : Nat) (v : BitVec 512) : List Nat := (upto 0 (512 / w)).map (fun i => bits v.toNat (w * i + w - 1) (w * i))

/-- A register of lanes, lane 0 in the low bits. -/
def ofLanes (w : Nat) (xs : List Nat) : BitVec 512 := BitVec.ofNat 512 (xs.foldr (fun x a => x % 2 ^ w + a * 2 ^ w) 0)

/-- Value of an integer code. -/
def intVal (ty c : Nat) : Int := if ty = 0 ∨ ty = 2 then (c : Int) else sgn (elemBits ty) c

/-- Code range of an integer format (R178). -/
def codeMin (ty : Nat) : Int := if ty = 0 ∨ ty = 2 then 0 else -(2 ^ (elemBits ty - 1) : Nat)
def codeMax (ty : Nat) : Int := if ty = 0 ∨ ty = 2 then (2 ^ elemBits ty - 1 : Nat) else (2 ^ (elemBits ty - 1) - 1 : Nat)

/-- The code of an integer, where the type holds it. -/
def inType (ty : Nat) (v : Int) : Option Nat :=
  if codeMin ty ≤ v ∧ v ≤ codeMax ty then some (wrap (elemBits ty) v) else none

/-- One lane of vector integer arithmetic; `scaleAcc` is the correction of an accumulator by a uint32 multiplier
(R249). -/
def vIntLane (op : VIntOp) (ty a b : Nat) : Option Nat :=
  let w := elemBits ty
  let x := intVal ty a
  let y := intVal ty b
  match op with
  | .add => inType ty (x + y)
  | .sub => inType ty (x - y)
  | .mul => inType ty (x * y)
  | .and => some (a &&& b)
  | .or => some (a ||| b)
  | .xor => some (a ^^^ b)
  | .sll => if b < w then some (a * 2 ^ b % 2 ^ w) else none
  | .srl => if b < w then some (a / 2 ^ b) else none
  | .sra => if b < w then some (wrap w (Int.fdiv (sgn w a) (2 ^ b : Nat))) else none
  | .min => some (if x < y then a else b)
  | .max => some (if x < y then b else a)
  | .scaleAcc => some (wrap 32 (rshiftRne (sgn 32 a * (b : Int)) 15))
  | .scaleChannel _ _ _ _ _ | .undefined => none

/-- R210 on one lane: multiplier `m`. -/
def scaleLane (ty r : Nat) (zp zpOut qmin qmax : Int) (a m : Nat) : Nat :=
  wrap (elemBits ty) (clampI (rshiftRne ((intVal ty a - zp) * sgn 16 m) r + zpOut) qmin qmax)

/-- Lanes under a mask: a lane that is off keeps its old value, a lane without a stated result takes a
free value. -/
def State.mergeLanes (s : State) (w mask : Nat) (old : List Nat) (new : List (Option Nat)) : List Nat × State :=
  ((upto 0 old.length).zip (old.zip new)).foldl (fun (acc : List Nat × State) p =>
    if bit mask p.1 then
      match p.2.2 with
      | some v => (acc.1 ++ [v], acc.2)
      | none => let d := acc.2.draw w; (acc.1 ++ [d.1], d.2)
    else (acc.1 ++ [p.2.1], acc.2)) ([], s)

/-- Writes masked lanes to a vector register. -/
def State.setLanes (s : State) (core : Nat) (f : VecFields) (w : Nat) (new : List (Option Nat)) : State :=
  let r := s.mergeLanes w (s.mreg core f.mask) (lanes w (s.vreg core f.vd)) new
  r.2.setV core f.vd (ofLanes w r.1)

/-- The vector unit was busy for the instruction (R440). -/
def State.vecBusy (s : State) (core : Nat) : State := s.account (s.core core).ctx 1 1

def State.vecInt (s : State) (core : Nat) (op : VIntOp) (f : VecFields) : State :=
  let w := elemBits f.ty
  let a := lanes w (s.vreg core f.vs1)
  match op with
  | .scaleChannel r zp zpOut qmin qmax =>
    let m := if w = 8 then lanes 16 (s.vreg core f.vs2) ++ lanes 16 (s.vreg core f.vs3) else lanes 16 (s.vreg core f.vs2)
    s.setLanes core f w ((a.zip m).map (fun p => some (scaleLane f.ty r zp zpOut qmin qmax p.1 p.2)))
  | op => s.setLanes core f w ((a.zip (lanes w (s.vreg core f.vs2))).map (fun p => vIntLane op f.ty p.1 p.2))

/-- Integers of R210 in their ranges: shift 0 to 31, limits in the type's code range; an operation without an immediate
has zeros in its place (R150). -/
def vIntOk (op : VIntOp) (f : VecFields) : Bool :=
  match op with
  | .undefined => false
  | .scaleChannel r _ _ qmin qmax =>
    decide (r < 32) && decide (codeMin f.ty ≤ qmin) && decide (qmin ≤ qmax) && decide (qmax ≤ codeMax f.ty) && intType f.ty
  | .scaleAcc => f.ty == 11 && f.zeros == 0
  | _ => intType f.ty && f.zeros == 0

def execVectorInt (core : Nat) (op : VIntOp) (f : VecFields) (s : State) : Host.Outcome State Fault Refusal :=
  coreStep s core (.vectorInt core op f) (fun s =>
    if vIntOk op f then .ok ((s.vecInt core op f).vecBusy core) else s.illegal core)

/-- The layout of a float type. -/
def ffmt (ty : Nat) : FFmt := (floatFmt ty).getD f32

/-- The canonical NaN of a format (R208). -/
def fNaN (f : FFmt) : Nat := fenc f false .nan

/-- One lane of vector float arithmetic. A NaN result is the canonical one, a maximum that is zero is +0.0 (R146, R185,
R248); the minimum of zeros of different sign is not stated. -/
def vFloatLane (op : VFloatOp) (ty a b c : Nat) : Option Nat :=
  let f := ffmt ty
  match op with
  | .add => some (fAdd f a b)
  | .sub => some (fSub f a b)
  | .mul => some (fMul f a b)
  | .fma => some (fFma f a b c)
  | .min =>
    if fIsNan f a || fIsNan f b then some (fNaN f)
    else if fLt f a b then some a else if fLt f b a then some b else if a = b then some a else none
  | .max =>
    if fIsNan f a || fIsNan f b then some (fNaN f)
    else
      let m := if fLt f a b then b else a
      some (if fEq f m 0 then 0 else m)
  | .undefined => none

def State.vecFloat (s : State) (core : Nat) (op : VFloatOp) (f : VecFields) : State :=
  let w := elemBits f.ty
  let c := lanes w (s.vreg core f.vs3)
  s.setLanes core f w (((lanes w (s.vreg core f.vs1)).zip ((lanes w (s.vreg core f.vs2)).zip c)).map
    (fun p => vFloatLane op f.ty p.1 p.2.1 p.2.2))

def execVectorFloat (core : Nat) (op : VFloatOp) (f : VecFields) (s : State) : Host.Outcome State Fault Refusal :=
  coreStep s core (.vectorFloat core op f) (fun s =>
    if op ≠ .undefined ∧ floatType f.ty ∧ f.zeros = 0 then .ok ((s.vecFloat core op f).vecBusy core) else s.illegal core)

/-- One lane of a comparison. -/
def vCmpLane (op : VCmpOp) (ty a b : Nat) : Option Bool :=
  if intType ty then
    let x := intVal ty a
    let y := intVal ty b
    match op with
    | .eq => some (decide (x = y))
    | .lt => some (decide (x < y))
    | _ => some (decide (x ≤ y))
  else
    let f := ffmt ty
    if fIsNan f a || fIsNan f b then none
    else match op with
      | .eq => some (fEq f a b)
      | .lt => some (fLt f a b)
      | _ => some (fLe f a b)

/-- Compare writes a mask register, select a vector register, mask logic a mask register. -/
def State.vecCompare (s : State) (core : Nat) (op : VCmpOp) (f : VecFields) : State :=
  let w := elemBits f.ty
  let a := lanes w (s.vreg core f.vs1)
  let b := lanes w (s.vreg core f.vs2)
  let mask := s.mreg core f.mask
  match op with
  | .select =>
    s.setV core f.vd (ofLanes w (((upto 0 a.length).zip (a.zip b)).map (fun p => if bit mask p.1 then p.2.1 else p.2.2)))
  | .maskAnd => s.setM core (f.vd % 8) (s.mreg core (f.vs1 % 8) &&& s.mreg core (f.vs2 % 8))
  | .maskOr => s.setM core (f.vd % 8) (s.mreg core (f.vs1 % 8) ||| s.mreg core (f.vs2 % 8))
  | .maskXor => s.setM core (f.vd % 8) (s.mreg core (f.vs1 % 8) ^^^ s.mreg core (f.vs2 % 8))
  | .maskNot => s.setM core (f.vd % 8) (2 ^ 64 - 1 - s.mreg core (f.vs1 % 8))
  | op =>
    let old := (upto 0 a.length).map (fun i => b2n (bit (s.mreg core (f.vd % 8)) i))
    let r := s.mergeLanes 1 mask old ((a.zip b).map (fun p => (vCmpLane op f.ty p.1 p.2).map b2n))
    let high := s.mreg core (f.vd % 8) / 2 ^ a.length * 2 ^ a.length
    r.2.setM core (f.vd % 8) (high + r.1.foldr (fun x t => x + 2 * t) 0)

/-- Mask logic works on mask registers and takes no element type. -/
def vCmpOk (op : VCmpOp) (f : VecFields) : Bool :=
  match op with
  | .undefined => false
  | .maskAnd | .maskOr | .maskXor | .maskNot => f.zeros == 0
  | _ => arithType f.ty && f.zeros == 0

def execVectorCompare (core : Nat) (op : VCmpOp) (f : VecFields) (s : State) : Host.Outcome State Fault Refusal :=
  coreStep s core (.vectorCompare core op f) (fun s =>
    if vCmpOk op f then .ok ((s.vecCompare core op f).vecBusy core) else s.illegal core)

/-- Two values of a reduction combined; `none` where the result is not stated. -/
def redPair (op : VRedOp) (ty : Nat) (a b : Option Nat) : Option Nat :=
  match a, b with
  | some a, some b =>
    match op with
    | .add => if floatType ty then some (fAdd (ffmt ty) a b) else vIntLane .add ty a b
    | .min => if floatType ty then vFloatLane .min ty a b 0 else vIntLane .min ty a b
    | .max => if floatType ty then vFloatLane .max ty a b 0 else vIntLane .max ty a b
    | .and => some (a &&& b)
    | .or => some (a ||| b)
    | .xor => some (a ^^^ b)
    | .undefined => none
  | _, _ => none

/-- One layer of the tree: lane 2i with lane 2i + 1. -/
def redLayer (op : VRedOp) (ty : Nat) : List (Option Nat) → List (Option Nat)
  | a :: b :: t => redPair op ty a b :: redLayer op ty t
  | t => t

/-- The fixed binary tree (R146). -/
def redTree (op : VRedOp) (ty : Nat) : Nat → List (Option Nat) → Option Nat
  | 0, xs => (xs.head?).getD none
  | n + 1, xs => redTree op ty n (redLayer op ty xs)

/-- The value goes to lane 0; the other lanes keep theirs. -/
def State.vecReduce (s : State) (core : Nat) (op : VRedOp) (f : VecFields) : State :=
  let w := elemBits f.ty
  let v := redTree op f.ty 6 ((lanes w (s.vreg core f.vs1)).map some)
  let rest := ((lanes w (s.vreg core f.vd)).drop 1).map some
  s.setLanes core f w (v :: rest)

def execVectorReduction (core : Nat) (op : VRedOp) (f : VecFields) (s : State) : Host.Outcome State Fault Refusal :=
  coreStep s core (.vectorReduction core op f) (fun s =>
    if op ≠ .undefined ∧ arithType f.ty ∧ f.zeros = 0 then .ok ((s.vecReduce core op f).vecBusy core) else s.illegal core)

/-- Conversion of one code (R208). Integers outside the destination's range and Q4B codes have no stated
result. -/
def convCode (src dst c : Nat) : Option Nat :=
  if src = 4 ∨ dst = 4 then none
  else match floatFmt src, floatFmt dst with
    | some a, some b => some (fConv a b c)
    | some a, none =>
      match fdec a c with
      | .nan => some 0
      | .inf neg => some (wrap (elemBits dst) (if neg then codeMin dst else codeMax dst))
      | v => (fvRound v).map (fun i => wrap (elemBits dst) (clampI i (codeMin dst) (codeMax dst)))
    | none, some b => some (fOfInt b true (intVal src c))
    | none, none => inType dst (intVal src c)

/-- Lane i of the source goes to lane i of the destination, as far as both have it. -/
def State.vecConvert (s : State) (core : Nat) (f : VecFields) : State :=
  let wa := elemBits f.ty
  let wb := elemBits f.ty2
  let n := min 64 (min (512 / wa) (512 / wb))
  let old := lanes wb (s.vreg core f.vd)
  let r := s.mergeLanes wb (s.mreg core f.mask) (old.take n) (((lanes wa (s.vreg core f.vs1)).take n).map (convCode f.ty f.ty2))
  r.2.setV core f.vd (ofLanes wb (r.1 ++ old.drop n))

def execVectorConversion (core : Nat) (f : VecFields) (s : State) : Host.Outcome State Fault Refusal :=
  coreStep s core (.vectorConversion core f) (fun s =>
    if f.ty ≤ 11 ∧ f.ty2 ≤ 11 then .ok ((s.vecConvert core f).vecBusy core) else s.illegal core)

/-- A permutation index past the last lane has no stated result. -/
def State.vecPermute (s : State) (core : Nat) (op : VPermOp) (f : VecFields) : State :=
  let w := elemBits f.ty
  let a := lanes w (s.vreg core f.vs1)
  match op with
  | .permute => s.setLanes core f w ((lanes w (s.vreg core f.vs2)).map (fun i => a[i]?))
  | .broadcastLane n => s.setLanes core f w (a.map (fun _ => a[n]?))
  | .broadcastScalar => s.setLanes core f w (a.map (fun _ => some ((s.sreg core f.vs1).toNat % 2 ^ w)))
  | .undefined => s

def execVectorPermute (core : Nat) (op : VPermOp) (f : VecFields) (s : State) : Host.Outcome State Fault Refusal :=
  coreStep s core (.vectorPermute core op f) (fun s =>
    if op ≠ .undefined ∧ arithType f.ty ∧ (op ≠ .permute ∧ op ≠ .broadcastScalar ∨ f.zeros = 0) then
      .ok ((s.vecPermute core op f).vecBusy core)
    else s.illegal core)

/-- Bytes of a register. -/
def vecBytes (v : BitVec 512) : List Byte := leBytes 64 v.toNat

/-- 64 B at s[rs1] + offset, aligned to 64 B (R147); a masked-off lane is not loaded or stored. -/
def State.vecMem (s : State) (core : Nat) (store : Bool) (f : VecFields) (base offset : Nat) : Run :=
  let w := elemBits f.ty
  let off := ((s.sreg core base).toNat + offset) % 2 ^ 32
  let mask := s.mreg core f.mask
  let full := (upto 0 (512 / w)).all (fun i => bit mask i)
  if store then
    let bs := vecBytes (s.vreg core f.vd)
    if full then s.portWrite core ownVector off 64 bs
    else match s.portCheck core ownVector off 64 64 with
      | some t => .error (t, s)
      | none => .ok ((upto 0 (512 / w)).foldl (fun s i =>
          if bit mask i then s.store 0 (coreBase core + off + i * (w / 8)) ((bs.drop (i * (w / 8))).take (w / 8)) else s) s)
  else match s.portRead core ownVector off 64 64 noErrors with
    | .error x => .error x
    | .ok (bs, s) => .ok (s.setLanes core f w ((lanes w (BitVec.ofNat 512 (leNat bs))).map some))

def execVectorLoadStore (core : Nat) (store : Bool) (f : VecFields) (base offset : Nat) (s : State) :
    Host.Outcome State Fault Refusal :=
  coreStep s core (.vectorLoadStore core store f base offset) (fun s =>
    if arithType f.ty ∧ f.memZeros = 0 then
      match s.vecMem core store f base offset with
      | .ok s => .ok (s.vecBusy core)
      | .error x => .error x
    else s.illegal core)

end Sys2Proof.Machine
end

