-- ==== Sys2Proof/Machine/Array.lean ====
section
/-! DEFINITION. The matrix array (R176 to R194): held operands, streamed rows, output cells, integer and
float accumulation. -/
namespace Sys2Proof.Machine
open Sys2Proof

/-! ### Zero points (R180) -/

/-- The halves of the register: held (or b) operand, streamed (or a) operand. -/
def zpHeld (r : Word) : Int := sgn 16 (r.toNat % 65536)
def zpStream (r : Word) : Int := sgn 16 (r.toNat / 65536)

/-- A half lies in its format's range; a Q4B operand's half carries ebase. -/
def zpFits (fmt : Nat) (z : Int) : Bool :=
  if fmt = 4 then decide (-128 ≤ z) && decide (z ≤ 127) else zpOk fmt z

/-- The code that a replaced lane of an operand carries (R233). -/
def fillCode (fmt : Nat) (z : Int) : Nat := if fmt ≤ 5 then wrap (elemBits fmt) z else 0

/-! ### Sums -/

/-- Contribution of a Q4B block partial (R181). -/
def q4bContrib (p d : Int) : Int :=
  if 0 ≤ d then sgn 32 (wrap 32 (p * (2 ^ (min d 31).toNat : Nat))) else rshiftRne p (min (-d) 31).toNat

/-- Adds integers in order: the exact sum, and whether the shadow left the int32 range (R182, R183). -/
def addAll (xs : List Int) (base : Int) : Int × Bool :=
  xs.foldl (fun (acc : Int × Bool) x =>
    let v := acc.1 + x
    (v, acc.2 || decide (v < -2147483648) || decide (2147483647 < v))) (base, false)

/-- Adds exact products in order, each sum rounded to fp32 (R184, R185). -/
def addFloats (xs : List FV) (base : Nat) : Nat := xs.foldl (fun acc x => fenc f32 false (fvAdd (fdec f32 acc) x)) base

def decAs (fmt c : Nat) : FV := fdec (ffmt fmt) c

/-- Column `j` of the held operand. -/
def HeldOp.col (h : HeldOp) (j : Nat) : List Nat := h.rows.map (fun r => r.getD j 0)

/-- The sum of column `j` for one streamed row (R176). -/
def HeldOp.sumInt (h : HeldOp) (fs : Nat) (xs : List Nat) (zs zt : Int) (j : Nat) (base : Int) : Int × Bool :=
  let sx := xs.map (fun c => intVal fs c - zs)
  if h.fmtT = 4 then
    let p := ((sx.zip (h.col j)).map (fun q => q.1 * sgn 4 q.2)).foldl (· + ·) 0
    addAll [q4bContrib p (sgn 8 (h.exps.getD j 0) - zt)] base
  else addAll ((sx.zip (h.col j)).map (fun q => q.1 * (intVal h.fmtT q.2 - zt))) base

def HeldOp.sumFloat (h : HeldOp) (fs : Nat) (xs : List Nat) (j base : Nat) : Nat :=
  addFloats ((xs.zip (h.col j)).map (fun q => fvMul (decAs fs q.1) (decAs h.fmtT q.2))) base

/-- The 16 sums of a row, and the range flag. -/
def HeldOp.rowSums (h : HeldOp) (float : Bool) (fs : Nat) (xs : List Nat) (zs zt : Int) (base : List Nat) :
    List Nat × Bool :=
  (upto 0 16).foldl (fun (acc : List Nat × Bool) j =>
    if float then (acc.1 ++ [h.sumFloat fs xs j (base.getD j 0)], acc.2)
    else
      let r := h.sumInt fs xs zs zt j (sgn 32 (base.getD j 0))
      (acc.1 ++ [wrap 32 r.1], acc.2 || r.2)) ([], false)

def State.flagRange (s : State) (core : Nat) (b : Bool) : State :=
  if b then s.modCore core (fun k => { k with rangeFlag := true }) else s

/-! ### LDS (R186, R187) -/

/-- Bytes of a held row. -/
def heldBytes (fmt : Nat) : Nat := 16 * halfSize fmt / 2

/-- One held row, read as a line. -/
def State.heldLine (s : State) (core off : Nat) : Except (Trap × State) (List Byte × State) :=
  if 0x18000 < off + 32 then .error (.fault fltCoreAddr none off, s) else s.portRead core ownArray off 32 32 noErrors

/-- A transposed read: unit `o` of `e` bytes of 16 lines (R158). -/
def State.transposed (s : State) (core line stride o e : Nat) : Except (Trap × State) (List Byte × State) :=
  (upto 0 16).foldl (fun (acc : Except (Trap × State) (List Byte × State)) i =>
    match acc with
    | .error x => .error x
    | .ok (bs, s) => match s.heldLine core ((line + i * stride) * 32) with
      | .error x => .error x
      | .ok (l, s) => .ok (bs ++ (l.drop o).take e, s)) (.ok ([], s))

/-- Row `k` of an LDS. -/
def State.heldRow (s : State) (core off stride fmt k : Nat) (t : Bool) : Except (Trap × State) (List Nat × State) :=
  let e := if heldBytes fmt = 32 then 2 else 1
  let r := if t then s.transposed core (off / 32) stride (k * e) e else s.heldLine core (off + k * stride * 32)
  match r with
  | .error x => .error x
  | .ok (bs, s) => .ok (elemsOf (halfSize fmt) 16 bs, s)

/-- Reads `n` held rows from row `k`. -/
def State.heldRows (core off stride fmt : Nat) (t : Bool) : Nat → Nat → State → Except (Trap × State) (List (List Nat) × State)
  | 0, _, s => .ok ([], s)
  | n + 1, k, s => match s.heldRow core off stride fmt k t with
    | .error x => .error x
    | .ok (r, s) => match State.heldRows core off stride fmt t n (k + 1) s with
      | .error x => .error x
      | .ok (rs, s) => .ok (r :: rs, s)

/-- The exponent row of a Q4B operand: 16 B, 16 B aligned, in an operand bank. -/
def State.expRow (s : State) (core fmt off : Nat) : Except (Trap × State) (List Nat × State) :=
  if fmt ≠ 4 then .ok ([], s)
  else if 0x18000 < off + 16 then .error (.fault fltCoreAddr none off, s)
  else match s.portRead core ownArray off 16 16 noErrors with
    | .error x => .error x
    | .ok (bs, s) => .ok (bs.map (fun b => b.toNat), s)

def State.lds (s : State) (core : Nat) (w : IWord) (k : Nat) : Run :=
  let t := bit w.toNat 40
  let stride := wf w 24 17
  let off := wf w 16 0
  let ft := wf w 47 44
  if t ∧ stride % 2 = 0 then s.wordFault fltCoreTranspose w
  else if off % 32 ≠ 0 then .error (.fault fltCoreAddr none off, s)
  else match State.heldRows core off stride ft t k 0 s with
    | .error x => .error x
    | .ok (rows, s) => match s.expRow core ft (s.sreg core (wf w 39 35)).toNat with
      | .error x => .error x
      | .ok (ex, s) => .ok ((s.modCore core (fun c => { c with
          held := some { fmtS := wf w 51 48, fmtT := ft, mode := wf w 43 42, k := k, rows := rows, exps := ex }
          heldPrev := if c.arrayQ.contains .strm then c.held else c.heldPrev })).account
            (s.core core).ctx 2 (if ft = 4 then k + 1 else k))

/-- An LDS that finds both held buffers in use waits as for a full queue (R190, assumption 126). -/
def execLds (core : Nat) (w : IWord) (s : State) : Host.Outcome State Fault Refusal :=
  coreStep s core (.lds core w) (fun s =>
    match pairOf (wf w 51 48) (wf w 47 44) (wf w 43 42) with
    | none => s.illegalWord w
    | some (k, _, _) =>
      if !wordOk w 0x20 0 [(41, 41), (34, 25)] ∨ 1 < wf w 43 42 ∨ wf w 24 17 = 0 ∨ (wf w 39 35 ≠ 0 ∧ wf w 47 44 ≠ 4) then
        s.illegalWord w
      else if (s.core core).heldBusy then .error (.full, s)
      else s.enqueueArray core .lds (fun s => s.lds core w k))

/-! ### STRM (R186, R188) -/

/-- A stream whose rows have `n` elements of the size of `fmt`. -/
def Bound.fits (b : Bound) (n fmt role : Nat) : Bool :=
  b.v.bound 0 b.r.rdim == n && halfSize b.r.format == halfSize fmt && b.r.role == role

/-- One row through the held operand. -/
def State.strmRow (core : Nat) (h : HeldOp) (float acc : Bool) (fs : Nat) (zs zt : Int) (bs ba : Bound) (s : State) : Run :=
  match s.readRow core ownArray bs (fillCode fs zs) with
  | .error x => .error x
  | .ok (xs, s) => match s.takeRow core ba with
    | (row, s) =>
      match (if acc then s.readAt core ownArray ba row 0 else .ok (copies 16 0, s)) with
      | .error x => .error x
      | .ok (base, s) =>
        let r := h.rowSums float fs xs zs zt base
        (s.flagRange core r.2).writeRow core ownArray ba row r.1

def State.strm (s : State) (core : Nat) (w : IWord) (k c : Nat) (float : Bool) : Run :=
  let fs := wf w 51 48
  let ft := wf w 47 44
  let rz := s.sreg core (wf w 39 35)
  match (s.core core).held with
  | none => s.wordFault fltArrState w
  | some h =>
    if h.fmtT ≠ ft ∨ h.mode ≠ wf w 43 42 ∨ h.k ≠ k then s.wordFault fltArrState w
    else if !zpFits ft (zpHeld rz) ∨ !zpFits fs (zpStream rz) then s.wordFault fltArrZp w
    else match s.bound core (wf w 34 32) false, s.bound core (wf w 28 26) true with
      | some bs, some ba =>
        if !bs.fits k fs 0 ∨ !ba.fits 16 11 1 then s.wordFault fltTileDesc w
        else runAll (fun s (_ : Nat) => s.strmRow core h float (bit w.toNat 41) fs (zpStream rz) (zpHeld rz) bs ba)
          (s.account (s.core core).ctx 2 (wf w 15 0 * c)) (upto 0 (wf w 15 0))
      | _, _ => s.wordFault fltTileStream w

def execStrm (core : Nat) (w : IWord) (s : State) : Host.Outcome State Fault Refusal :=
  coreStep s core (.strm core w) (fun s =>
    match pairOf (wf w 51 48) (wf w 47 44) (wf w 43 42) with
    | none => s.illegalWord w
    | some (k, c, float) =>
      if !wordOk w 0x21 0 [(40, 40), (31, 29), (25, 16)] ∨ 1 < wf w 43 42 ∨ wf w 15 0 = 0 then s.illegalWord w
      else s.enqueueArray core .strm (fun s => s.strm core w k c float))

/-! ### OS mode (R189) -/

/-- Cell (r, c). -/
def Core.cell (k : Core) (i : Nat) : Word := tget 0#32 k.os i

/-- The a and b codes of the steps of a row: two steps in 4-bit × 4-bit pairs. -/
def osSteps (n : Nat) (a b : List Nat) : List (List Nat × List Nat) :=
  if n = 32 then [(a.take 16, b.take 16), (a.drop 16, b.drop 16)] else [(a, b)]

/-- Integer cells after a step; each carries its exact sum of this instruction. -/
def osInt (fa fb : Nat) (za zb : Int) (cells : List (Int × Bool)) (p : List Nat × List Nat) : List (Int × Bool) :=
  ((upto 0 256).zip cells).map (fun c =>
    let r := addAll [(intVal fa (p.1.getD (c.1 / 16) 0) - za) * (intVal fb (p.2.getD (c.1 % 16) 0) - zb)] c.2.1
    (r.1, c.2.2 || r.2))

def osFloats (fa fb : Nat) (cells : List Nat) (p : List Nat × List Nat) : List Nat :=
  ((upto 0 256).zip cells).map (fun c =>
    addFloats [fvMul (decAs fa (p.1.getD (c.1 / 16) 0)) (decAs fb (p.2.getD (c.1 % 16) 0))] c.2)

/-- The rows of an OSTR, read through its two streams. -/
def State.osRows (core : Nat) (ba bb : Bound) (ca cb : Nat) : Nat → State → Except (Trap × State) (List (List Nat × List Nat) × State)
  | 0, s => .ok ([], s)
  | n + 1, s => match s.readRow core ownArray ba ca with
    | .error x => .error x
    | .ok (a, s) => match s.readRow core ownArray bb cb with
      | .error x => .error x
      | .ok (b, s) => match State.osRows core ba bb ca cb n s with
        | .error x => .error x
        | .ok (t, s) => .ok ((a, b) :: t, s)

/-- Rows of the next `n` whose a and b rows lie in one bank: such a row takes twice its cycles (R191). -/
def State.osShared (s : State) (core : Nat) (ba bb : Bound) : Nat → Nat
  | 0 => 0
  | n + 1 =>
    let a := s.takeRow core ba
    let b := a.2.takeRow core bb
    let bank := fun (x : Bound) (r : Row) => if r.valid.any id then banksOf (offOf r.addr) (x.r.rowBytes r.valid.length) else []
    b2n ((bank ba a.1).any (fun k => (bank bb b.1).contains k)) + State.osShared b.2 core ba bb n

def osTable (xs : List Nat) : Tbl Word := ((upto 0 256).zip (xs.map (BitVec.ofNat 32))).filter (fun p => decide (p.2 ≠ 0#32))

def State.ostr (s : State) (core : Nat) (w : IWord) (n c : Nat) (float : Bool) : Run :=
  let fa := wf w 51 48
  let fb := wf w 47 44
  let rz := s.sreg core (wf w 39 35)
  let k := s.core core
  if k.osFloat ≠ float then s.wordFault fltArrState w
  else if !zpFits fb (zpHeld rz) ∨ !zpFits fa (zpStream rz) then s.wordFault fltArrZp w
  else match s.bound core (wf w 34 32) false, s.bound core (wf w 31 29) false with
    | some ba, some bb =>
      if !ba.fits n fa 0 ∨ !bb.fits n fb 0 then s.wordFault fltTileDesc w
      else
        let twice := s.osShared core ba bb (wf w 15 0)
        match State.osRows core ba bb (fillCode fa (zpStream rz)) (fillCode fb (zpHeld rz)) (wf w 15 0) s with
        | .error x => .error x
        | .ok (rows, s) =>
          let steps := rows.flatMap (fun r => osSteps n r.1 r.2)
          let cells := (upto 0 256).map (fun i => (k.cell i).toNat)
          let s := s.account k.ctx 2 ((wf w 15 0 + twice) * c)
          if float then .ok (s.modCore core (fun k => { k with os := osTable (steps.foldl (osFloats fa fb) cells) }))
          else
            let r := steps.foldl (osInt fa fb (zpStream rz) (zpHeld rz)) (cells.map (fun v => (sgn 32 v, false)))
            .ok ((s.modCore core (fun k => { k with os := osTable (r.map (fun x => wrap 32 x.1)) })).flagRange core (r.any (·.2)))
    | _, _ => s.wordFault fltTileStream w

def execOstr (core : Nat) (w : IWord) (s : State) : Host.Outcome State Fault Refusal :=
  coreStep s core (.ostr core w) (fun s =>
    match pairOf (wf w 51 48) (wf w 47 44) 2 with
    | none => s.illegalWord w
    | some (k, c, float) =>
      if !wordOk w 0x22 0 [(41, 40), (28, 16)] ∨ wf w 43 42 ≠ 2 ∨ wf w 15 0 = 0 then s.illegalWord w
      else s.enqueueArray core .other (fun s => s.ostr core w k c float))

/-- One line of an ODRN: line `r` takes cells (r, 0..15), the memory value first where it adds. -/
def State.odrnRow (core : Nat) (float acc : Bool) (ba : Bound) (s : State) (r : Nat) : Run :=
  match s.takeRow core ba with
  | (row, s) =>
    match (if acc then s.readAt core ownArray ba row 0 else .ok (copies 16 0, s)) with
    | .error x => .error x
    | .ok (base, s) =>
      let cells := (upto (r * 16) 16).map (fun i => ((s.core core).cell i).toNat)
      let sums := (base.zip cells).map (fun p =>
        if !acc then (p.2, false)
        else if float then (fAdd f32 p.1 p.2, false)
        else let x := addAll [sgn 32 p.2] (sgn 32 p.1); (wrap 32 x.1, x.2))
      (s.flagRange core (sums.any (·.2))).writeRow core ownArray ba row (sums.map (·.1))

def State.odrn (s : State) (core : Nat) (w : IWord) : Run :=
  let float := wf w 47 44 == 10
  if (s.core core).osFloat ≠ float then s.wordFault fltArrState w
  else match s.bound core (wf w 28 26) true with
    | none => s.wordFault fltTileStream w
    | some ba =>
      if !ba.fits 16 11 1 then s.wordFault fltTileDesc w
      else match runAll (State.odrnRow core float (bit w.toNat 41) ba) (s.account (s.core core).ctx 2 16) (upto 0 16) with
        | .error x => .error x
        | .ok s => .ok (if bit w.toNat 40 then s.modCore core (fun k => { k with os := [] }) else s)

def execOdrn (core : Nat) (w : IWord) (s : State) : Host.Outcome State Fault Refusal :=
  coreStep s core (.odrn core w) (fun s =>
    if !wordOk w 0x22 1 [(51, 48), (39, 29), (25, 0)] ∨ wf w 43 42 ≠ 2 ∨ !([10, 11].contains (wf w 47 44)) then s.illegalWord w
    else s.enqueueArray core .other (fun s => s.odrn core w))

def execOclr (core : Nat) (w : IWord) (s : State) : Host.Outcome State Fault Refusal :=
  coreStep s core (.oclr core w) (fun s =>
    if !wordOk w 0x22 2 [(51, 48), (41, 0)] ∨ wf w 43 42 ≠ 2 ∨ !([10, 11].contains (wf w 47 44)) then s.illegalWord w
    else s.enqueueArray core .other (fun s => .ok ((s.modCore core (fun k => { k with
      os := [], osFloat := wf w 47 44 == 10 })).account (s.core core).ctx 2 1)))

end Sys2Proof.Machine
end

