-- ==== Sys2Proof/Machine/DeliverCmds.lean ====
section
/-! DEFINITION. The commands of the delivery rings, the collectors and MSI-X (R354 to R359, R515). -/
namespace Sys2Proof.Machine
open Sys2Proof

/-- R354: `time` µs have passed since the first record not yet signalled. -/
def execMsixModerationTimer (ring : Nat) (s : State) : Host.Outcome State Fault Refusal :=
  let r := s.ring ring
  whenUp s (if r.modTime ≠ 0 ∧ r.unsig ≠ 0 then
      (s.modRing ring (fun r => { r with unsig := 0 })).msix r.vector
    else s)

/-- R355: the tail write is valid when it lies between the tail it replaces and head. -/
def tailValid (r : Ring) (t : Nat) : Bool :=
  decide ((t + 2 ^ 32 - r.tail) % 2 ^ 32 ≤ (r.head + 2 ^ 32 - r.tail) % 2 ^ 32)

/-- A write to MDO_RING_TAIL (R355). -/
def State.ringTail (s : State) (n t : Nat) : State :=
  let r := s.ring n
  if !r.enable || tailValid r t then s.modRing n (fun r => { r with tail := t })
  else (s.modRing n (fun r => { r with enable := false, tailFault := true })).raise
    { code := fltMdoTail, unit := n, addr := t }

def execRingTailWrite (ring value : Nat) (s : State) : Host.Outcome State Fault Refusal :=
  whenUp s (if ring < 64 then s.ringTail ring (value % 2 ^ 32) else s)

/-- A write to MDO_RING_CTRL (R355, R356): size_log2 outside 12 to 26 discards it whole; enabling sets
head = tail = 0 and restarts the drop count. -/
def State.ringCtrl (s : State) (n v : Nat) : State :=
  let size := bits v 5 1
  if size < 12 ∨ 26 < size then s
  else s.modRing n (fun r =>
    let r' := { r with sizeLog2 := size, vector := bits v 15 8, enable := bit v 0 }
    if bit v 0 && !r.enable then { r' with head := 0, tail := 0, drops := 0, unsig := 0 } else r')

def execRingCtrlWrite (ring value : Nat) (s : State) : Host.Outcome State Fault Refusal :=
  whenUp s (if ring < 64 then s.ringCtrl ring (value % 2 ^ 32) else s)

/-- R357: 10 ms after the first record of the datagram. -/
def execCollectorDatagramTimer (collector : Nat) (s : State) : Host.Outcome State Fault Refusal :=
  whenUp s (s.collFlush collector)

/-- The numbers an acknowledgement reports missing: before the bitmap's last received number, and not
in it (R358). -/
def missingOf (highest bitmap : Nat) : List Nat :=
  let seen := onBits bitmap 64
  match seen.getLast? with
  | none => []
  | some l => ((upto 0 l).filter (fun i => !bit bitmap i)).map (fun i => (highest + 1 + i) % 2 ^ 32)

/-- An acknowledgement: it resends each missing datagram still held, once, and reports those no longer held, with
their records, as loss with cause 1 (R358). It marks a collector that was down up, and the first datagram then carries
a loss record (R359). -/
def State.collAck (s : State) (k highest bitmap : Nat) : State :=
  let missing := missingOf highest bitmap
  let c := s.coll k
  let resend := c.kept.filter (fun d => missing.contains d.1)
  let gone := c.sent.filter (fun p => missing.contains p.1 && !c.kept.any (fun d => d.1 == p.1))
  let s := s.emits (resend.map (fun d => Out.blp k d.2))
  s.modColl k (fun c =>
    let c' := if gone.isEmpty then c
      else c.lose ((gone.map (·.2)).foldl (· + ·) 0) (if c.lossDue then c.lostCause else 1)
    { c' with
      up := true, acked := some highest, lossDue := c'.lossDue || !c.up
      sent := c.sent.filter (fun p => decide (2 ^ 31 ≤ (highest + 2 ^ 32 - p.1) % 2 ^ 32) && !gone.contains p) })

def execDeliveryAck (collector highest bitmap : Nat) (s : State) : Host.Outcome State Fault Refusal :=
  whenUp s (if (s.coll collector).enable then s.collAck collector highest bitmap else s)

/-- R359: no acknowledgement within ack_timeout. The records of a datagram not yet sent are lost with it. -/
def execCollectorAckTimeout (collector : Nat) (s : State) : Host.Outcome State Fault Refusal :=
  let c := s.coll collector
  whenUp s (if c.enable && c.up then
      (s.modColl collector (fun c => { c.lose c.filling.length 2 with up := false, filling := [] })).raise
        { code := fltMdoCollector, unit := collector }
    else s)

/-- Sends every pending vector that may now be sent, in ascending order (R515). -/
def State.msixFlush (s : State) : State :=
  if s.hostUp && s.pci.msixEn && !s.pci.funcMask then
    let go := s.pci.pba.filter (fun v => s.pci.unmasked.contains v)
    ({ s with pci := { s.pci with pba := s.pci.pba.filter (fun v => !s.pci.unmasked.contains v) } }).emits
      (go.map Out.msix)
  else s

/-- R515: the enable, function mask and vector masks take new values. -/
def execMsixUnmask (enable functionMask : Bool) (unmask : List Nat) (s : State) :
    Host.Outcome State Fault Refusal :=
  answer s ({ s with pci := { s.pci with
    msixEn := enable, funcMask := functionMask, unmasked := unmask } }).msixFlush

end Sys2Proof.Machine
end

