-- ==== Sys2Proof/Machine/Evid.lean ====
section
/-! DEFINITION. Evidence (R92 to R101, R106, R110, R344, R360): the pre-roll ring and its holds, requests, the
binding, truncation and delivery of clips and snapshots. -/
namespace Sys2Proof.Machine
open Sys2Proof

/-! ### Chain entries and records -/

/-- An entry of type 11: 0 completed, 1 refused, 2 dropped picture, 3 truncated (R113, R444). -/
def State.evidEntry (s : State) (n sub id first last : Nat) (digest : List Byte) : State :=
  if (s.slot n).run = .unconfigured then s
  else s.chainLate n {
    typ := 11, sub := sub, forced := sub != 0, key2 := id
    payload := leBytes 4 id ++ leBytes 4 first ++ leBytes 4 last ++ padTo 64 digest }

/-- Sends the bytes of an output as evidence messages of the slot's collector where it has evidence push (R360). -/
def State.evidPush (s : State) (n id : Nat) (bytes : List Byte) : State :=
  let k := s.routeColl n 7
  let c := s.coll k
  if k < 16 ∧ c.enable ∧ c.up ∧ c.evidPush then
    let room := datagramRoom - 16
    ((upto 0 (ceilDiv bytes.length room)).foldl (fun s (i : Nat) =>
      s.collDatagram k 8 0 (fun no => leBytes 2 k ++ leBytes 2 0 ++ leBytes 4 no ++ leBytes 4 id ++ leBytes 4 (i * room)
        ++ (bytes.drop (i * room)).take room)) (s.collFlush k))
  else s

/-- Body of an evidence record (R344). -/
def evidBody (id kind flags len pages list first last : Nat) : List Byte :=
  leBytes 4 id ++ leBytes 1 kind ++ leBytes 1 flags ++ leBytes 2 0 ++ leBytes 4 len ++ leBytes 4 pages ++ leBytes 8 list
    ++ leBytes 4 first ++ leBytes 4 last

/-- A finished output goes to pages of its reservation, with the page list in one more page; its digest
enters the chain, and its record is emitted. -/
def State.deliverEvid (s : State) (n id kind flags first last pts res : Nat) (bytes : List Byte) : State :=
  let np := ceilDiv bytes.length pageSize
  match s.allocPages res 0 false (np + 1) [] with
  | none => s
  | some (pages, s) =>
    let data := pages.take np
    let list := pages.getD np 0
    let s := (data.zip (chunks pageSize np bytes)).foldl (fun s p => s.store (s.portWays 12) (p.1 * pageSize) p.2) s
    let s := s.store (s.portWays 12) (list * pageSize) (data.flatMap (leBytes 4))
    let s := s.evidEntry n 0 id first last (sha512 bytes)
    let s := s.evidPush n id bytes
    let s := (s.streamOut n 7 pts (evidBody id kind flags bytes.length np (list * pageSize) first last)).mirrorChain n
    { s with evid := { s.evid with outs := s.evid.outs ++ [⟨id, n, data, list, res⟩] } }

/-- The pages of an output are released (R344). -/
def State.evidRelease (s : State) (id : Nat) : State :=
  match s.evid.outs.find? (fun o => o.id == id) with
  | some o =>
    let s := { s with evid := { s.evid with outs := s.evid.outs.filter (fun o => o.id != id) } }
    s.endReserv o.res
  | none => s

/-- R344: entry 0x8000.03 is written. -/
def execEvidenceRelease (evidId : Nat) (s : State) : Host.Outcome State Fault Refusal := whenReady s (s.evidRelease evidId)

def execEvidenceRetainExpiry (evidId : Nat) (s : State) : Host.Outcome State Fault Refusal := whenReady s (s.evidRelease evidId)

/-! ### Holds -/

/-- An evidence hold on a picture's buffer, and its end (R68, R96). -/
def State.holdEv (s : State) (p : Pic) : State :=
  match p.handle with
  | some h => s.fbTakeSvc h true
  | none => s

def State.dropEv (s : State) (p : Pic) : State :=
  match p.handle with
  | some h => s.fbDropSvc h true
  | none => s

def State.modClip (s : State) (id : Nat) (f : Clip → Clip) : State :=
  { s with evid := { s.evid with clips := modWhere (fun c => c.id == id) f s.evid.clips } }

/-- Rational sums, as numerator and denominator. -/
def ratSum (xs : List (Nat × Nat)) : Nat × Nat := xs.foldl (fun a x => (a.1 * x.2 + x.1 * a.2, a.2 * x.2)) (0, 1)

/-- Charged load of an engine (R94). -/
def State.encLoad (s : State) (e : Nat) : Nat × Nat :=
  ratSum ((s.evid.clips.filter (fun c => c.engine == e)).map (fun c => (c.crop.w * c.crop.h * c.num, c.den)))

/-! ### The end of a clip -/

/-- The engine that works on a clip stops. -/
def State.encStop (s : State) (w : EncWork) : State :=
  (upto 0 2).foldl (fun s e => if (s.encEngine e).work = some w then s.modEnc e (fun g => { g with st := 0, pass := 0, work := none }) else s) s

/-- The evidence tag (R106). -/
def evidTag (id slot pts seq flags : Nat) : List Byte :=
  ascii "MIOHAL-QS-EVID01" ++ leBytes 8 pts ++ leBytes 4 seq ++ leBytes 1 slot ++ leBytes 1 flags ++ leBytes 4 id

/-- H.265's emulation prevention: after `z` zero bytes. -/
def escaped : Nat → List Byte → List Byte
  | _, [] => []
  | z, b :: t =>
    let r := escaped (if b = 0#8 then (if 2 ≤ z then 1 else z + 1) else 0) t
    if 2 ≤ z ∧ b.toNat ≤ 3 then 3#8 :: b :: r else b :: r

/-- The user-data-unregistered SEI message of a tag: a prefix SEI NAL unit of H.265's byte stream, payload type 5 (R106). -/
def tagSei (tag : List Byte) : List Byte := [0#8, 0#8, 1#8, 0x4E#8, 1#8] ++ escaped 0 ([5#8, 34#8] ++ tag ++ [0x80#8])

/-- A clip's bytes so far; the last picture's tag takes `extra` bits. -/
def Clip.coded (c : Clip) (extra : Nat) : List Byte :=
  c.output ++ match c.tail with
    | some t => t.head ++ tagSei (evidTag c.id c.slot t.pts t.seq (t.flags ||| extra)) ++ t.body
    | none => []

/-- A clip leaves the device's list: its holds are dropped, and what it encoded is delivered. -/
def State.closeClip (s : State) (c : Clip) (truncated : Bool) : State :=
  let s := (s.encStop (.clip c.id)).count c.slot 0x40 1
  let s := { s with evid := { s.evid with clips := s.evid.clips.filter (fun d => d.id != c.id) } }
  let s := (upto 0 2).foldl (fun s e =>
    if (s.encEngine e).lastClip = some c.id then s.modEnc e (fun g => { g with lastClip := none }) else s) s
  let s := c.held.foldl State.dropEv s
  let last := c.first + c.enc - 1
  let s := if truncated then (s.count c.slot 0x47 1).evidEntry c.slot 3 c.id c.first last [] else s
  if c.enc = 0 then s.endReserv c.res
  else s.deliverEvid c.slot c.id 0 (c.marks + 16 * b2n c.short + 32 * b2n truncated) c.first last c.pts c.res
    (c.coded (32 * b2n truncated))

/-! ### Refusals -/

/-- A refused request: its fault record, count and chain entry (R93, R113). -/
def State.evidRefuse (s : State) (req : EvidReq) (code : Nat) : State :=
  let s := (s.evidEntry req.slot 1 0 req.picture req.picture []).count req.slot 0x4A 1
  s.raise { code := code, unit := OdRoute.num (req.host.getD .cantle), detail := 0x8011, slot := req.slot }

/-- "Stop evidence encoding" is in force (R101). -/
def State.evidShed (s : State) : Bool := decide (1 ≤ s.pwr.step)

/-- A crop may be encoded: multiples of 8, at least 64, inside the slot's dimensions (R93). -/
def cropOk (r : Rect) (w h : Nat) : Bool :=
  [r.x, r.y, r.w, r.h].all (· % 8 == 0) && decide (64 ≤ r.w) && decide (64 ≤ r.h) && decide (r.x + r.w ≤ w) && decide (r.y + r.h ≤ h)

/-- The pre-roll ring holds a picture. -/
def Slot.inRing (x : Slot) (seq : Nat) : Bool := x.ring.any (fun p => p.seq == seq)

/-- Bits of a fallback picture: a P picture, and picture 0 (R108). -/
def fallbackBits (w h p : Nat) : Nat × Nat :=
  let c := ceilDiv w 32
  let rows := ceilDiv h 32
  (4096 + 4 * (c * rows) + 48 * ceilDiv c p * rows, 4096 + 4 * (c * rows) + 48 * (c * rows))

/-- H.265's levels up to 5.1 (its own limits, assumption 22): general_level_idc, luma samples of a picture, luma
samples a second, and kbit of bit rate and of CPB in the Main tier. -/
def hevcLevels : List (Nat × Nat × Nat × Nat × Nat) :=
  [(30, 36864, 552960, 128, 350), (60, 122880, 3686400, 1500, 1500), (63, 245760, 7372800, 3000, 3000),
   (90, 552960, 16588800, 6000, 6000), (93, 983040, 33177600, 10000, 10000), (120, 2228224, 66846720, 12000, 12000),
   (123, 2228224, 133693440, 20000, 20000), (150, 8912896, 267386880, 25000, 25000), (153, 8912896, 534773760, 40000, 40000)]

/-- The lowest level that covers an area at a frame rate with a bit rate and a CPB size (R93, R103). -/
def lowestLevel (w h num den bitRate cpb : Nat) : Option Nat :=
  (hevcLevels.find? (fun l => decide (w * h ≤ l.2.1) && decide (w * w ≤ 8 * l.2.1) && decide (h * h ≤ 8 * l.2.1)
    && decide (w * h * num ≤ l.2.2.1 * den) && decide (bitRate ≤ 1100 * l.2.2.2.1) && decide (cpb ≤ 1100 * l.2.2.2.2))).map (·.1)

/-- An area can be encoded with a slot's parameters: a level covers it, and the fallback bound is met (R93, R108). -/
def areaOk (e : EvidCfg) (v : StreamCfg) (w h : Nat) : Bool :=
  let fb := fallbackBits w h e.refreshP
  (lowestLevel w h v.frNum v.frDen e.bitRate e.cpbSize).isSome
    && decide (fb.1 * v.frNum ≤ e.bitRate * v.frDen) && decide (8 * fb.2 ≤ 7 * e.cpbSize)

/-- What refuses a request before its binding. FLT_VEN_HOLD is a host's only (R98). -/
def State.evidCheck (s : State) (req : EvidReq) : Option Nat :=
  let x := s.slot req.slot
  if s.evidShed then some fltVenShed
  else if s.noAdmission then some fltRneStandby
  else if decide (300 < req.preroll) || decide (900 < req.postroll)
      || !(match req.crop with | some r => cropOk r x.cfg.stream.maxW x.cfg.stream.maxH | none => true) then some fltVenParam
  else if req.host.isSome && !x.inRing req.picture then some fltVenHold
  else none

/-- A clip's own crop must be one that R93 lets a slot have (assumption 22). -/
def State.clipFits (s : State) (req : EvidReq) : Bool :=
  match req.crop with
  | some r => areaOk (s.slot req.slot).cfg.evid (s.slot req.slot).cfg.stream r.w r.h
  | none => true

/-- The area encoded: the request's crop, the slot's, or the whole picture. -/
def Slot.evidArea (x : Slot) (req : EvidReq) : Rect :=
  match req.crop, x.cfg.evid.crop with
  | some r, _ => r
  | none, some r => r
  | none, none => match x.ring.getLast? with
    | some p => ⟨0, 0, p.width, p.height⟩
    | none => ⟨0, 0, x.cfg.stream.maxW, x.cfg.stream.maxH⟩

/-! ### Binding (R94, R99, R110) -/

/-- Pages of a clip's output of `n` pictures (R110). -/
def clipPages (c : EvidCfg) (num den n : Nat) : Nat := ceilDiv (c.cpbSize * num + c.bitRate * n * den) (num * 8 * pageSize) + 1

/-- Fullness at the removal of picture 0 (R107). -/
def firstFullness (c : EvidCfg) (num : Nat) : Nat := 90000 * (c.cpbSize * 7 / 8) / c.bitRate * c.bitRate * num

/-- A reservation takes a new count, where its pool and channel set allow it. -/
def State.resizeReserv (s : State) (res count : Nat) : Option State :=
  let r := s.reserv res
  let s' := s.modReserv res (fun r => { r with count := count })
  if s.poolHeld r.pool - r.count + count ≤ s.poolSize r.pool ∧ s'.satisfiable then some s' else none

/-- Binds a request to the lower-numbered engine with room; none where neither has. The code of a refusal,
or 0. A clip none of whose pictures is still held or still to come ends at once (assumption 122). -/
def State.bindClip (s : State) (id no : Nat) (req : EvidReq) : Option (Nat × State) :=
  let x := s.slot req.slot
  let first := req.picture - req.preroll
  let v := x.cfg.stream
  let area := x.evidArea req
  let room := fun (e : Nat) =>
    let l := ratSum [s.encLoad e, (area.w * area.h * v.frNum, v.frDen)]
    decide (l.1 ≤ 500000000 * l.2)
  match (upto 0 2).find? room with
  | none => none
  | some e =>
    let last := req.picture + req.postroll
    let oldest := ((x.ring.head?).map (·.seq)).getD x.dec.outSeq
    let first' := max first oldest
    let held := x.ring.filter (fun p => decide (first' ≤ p.seq) && decide (p.seq ≤ last))
    if !s.energyAdmits (clipEnergy area.w area.h v.frNum v.frDen) then some (fltRneBudget, s)
    else match s.reserve 2 (clipPages x.cfg.evid v.frNum v.frDen (last + 1 - first')) 0 s.mem.videoSet with
      | none => some (fltAdmitPool, s)
      | some (res, s) =>
        let c : Clip := {
          id := id, slot := req.slot, first := first', last := last, next := first', crop := area, cfg := x.cfg.evid
          num := v.frNum, den := v.frDen, depth := v.depth, engine := e, reqNo := no, short := decide (first < first')
          pts := ((held.head?).map (·.pts)).getD 0, held := held, base := x.dec.outSeq
          fullness := firstFullness x.cfg.evid v.frNum, res := res, host := req.host }
        let s := held.foldl State.holdEv s
        let s := { s with evid := { s.evid with clips := s.evid.clips ++ [c] } }
        some (0, if held.isEmpty ∧ last < x.dec.outSeq then s.closeClip c true else s)

/-- The next identifier and request number. -/
def State.evidNumber (s : State) : Nat × Nat × State :=
  let id := s.evid.nextId
  (id, s.evid.nextReq, { s with evid := { s.evid with
    nextId := if id + 1 = 2 ^ 32 then 1 else id + 1, nextReq := s.evid.nextReq + 1 } })

/-- A new clip: bound, queued, or refused. The code, its identifier, the state. -/
def State.newClip (s : State) (req : EvidReq) : Nat × Nat × State :=
  let (id, no, t) := s.evidNumber
  match t.bindClip id no req with
  | some (0, t) => (0, id, t)
  | some (code, _) => (code, 0, s.evidRefuse req code)
  | none =>
    if t.evid.queue.length < 16 then (0, id, { t with evid := { t.evid with queue := t.evid.queue ++ [(id, no, req)] } })
    else (fltVenBusy, 0, s.evidRefuse req fltVenBusy)

/-- The clip of a slot that still takes post-roll pictures (R100). -/
def State.openClip (s : State) (n : Nat) : Option Clip :=
  s.evid.clips.find? (fun c => c.slot == n && decide ((s.slot n).dec.outSeq ≤ c.last))

/-- A clip request (R93 to R100): the code of a refusal or 0, the identifier, the state. Beyond the 1,200 pictures of an
extension a new clip starts at the next picture, without pre-roll. -/
def State.askClip (s : State) (req : EvidReq) : Nat × Nat × State :=
  match s.evidCheck req <|> (if s.clipFits req then none else some fltVenParam) with
  | some code => (code, 0, s.evidRefuse req code)
  | none => match s.openClip req.slot with
    | none => s.newClip req
    | some c =>
      let want := max c.last (req.picture + req.postroll)
      let last := min want (c.first + 1199)
      match s.resizeReserv c.res (clipPages c.cfg c.num c.den (last + 1 - c.first)) with
      | none => (fltAdmitPool, 0, s.evidRefuse req fltAdmitPool)
      | some s' =>
        let s' := s'.modClip c.id (fun c => { c with last := last })
        if last = want then (0, c.id, s')
        else s'.newClip { req with picture := last + 1, preroll := 0, postroll := want - (last + 1) }

/-- A request whose picture the device holds no more: its entry in the chain and its count (assumption 122). -/
def State.evidGone (s : State) (req : EvidReq) : State :=
  (s.evidEntry req.slot 1 0 req.picture req.picture []).count req.slot 0x4A 1

/-- A snapshot request: an evidence hold, and a reservation for its output. -/
def State.askSnap (s : State) (req : EvidReq) : Nat × Nat × State :=
  let x := s.slot req.slot
  let no := fun (code : Nat) => (code, 0, s.evidRefuse req code)
  match s.evidCheck req, x.ring.find? (fun p => p.seq == req.picture) with
  | some code, _ => no code
  | none, none => (0, 0, s.evidGone req)
  | none, some p =>
    match s.reserve 2 (ceilDiv x.cfg.evid.snapMax pageSize + 1) 0 s.mem.videoSet with
    | none => no fltAdmitPool
    | some (res, s) =>
      let (id, n, s) := s.evidNumber
      let k : Snapshot := {
        id := id, slot := req.slot, pic := p, crop := x.evidArea req, q := x.cfg.evid.jpegQ, maxBytes := x.cfg.evid.snapMax
        reqNo := n, res := res }
      let s := s.holdEv p
      (0, id, { s with evid := { s.evid with snaps := s.evid.snaps ++ [k] } })

/-- A host's request is a write of 0x8011 and is answered on its route; a rule's is not. -/
def evidAnswer (req : EvidReq) (r : Nat × Nat × State) : State :=
  match req.host with
  | none => r.2.2
  | some route => (Reply.mk (if r.1 = 0 then 0 else 9) r.1 r.2.2).send route 0

def execClipRequest (req : EvidReq) (s : State) : Host.Outcome State Fault Refusal := whenReady s (evidAnswer req (s.askClip req))

def execSnapshotRequest (req : EvidReq) (s : State) : Host.Outcome State Fault Refusal := whenReady s (evidAnswer req (s.askSnap req))

/-- Load was released: the oldest waiting request is bound where an engine has room. -/
def State.clipBind (s : State) : State :=
  match s.evid.queue with
  | [] => s
  | (id, no, req) :: rest =>
    match s.bindClip id no req with
    | none => s
    | some (code, s) =>
      let s := { s with evid := { s.evid with queue := rest } }
      if code = 0 then s else s.evidRefuse req code

def execClipBind (s : State) : Host.Outcome State Fault Refusal := whenReady s s.clipBind

/-! ### The pre-roll ring (R97, R98) -/

/-- A clip takes a new output picture, or drops it where its window of 8 is full. -/
def State.clipTake (s : State) (p : Pic) (c : Clip) : State :=
  if p.seq < c.first ∨ c.last < p.seq then s
  else if 8 ≤ (c.held.filter (fun q => decide (c.base ≤ q.seq))).length then
    ((s.modClip c.id (fun c => { c with droppedPics := c.droppedPics ++ [p] })).evidEntry c.slot 2 c.id p.seq p.seq []).count
      c.slot 0x43 1
  else (s.holdEv p).modClip c.id (fun c => { c with held := c.held ++ [p], pts := if p.seq = c.first then p.pts else c.pts })

/-- Ends every clip of a slot early (R101); what waits or is pending of it is refused. -/
def State.truncateSlot (s : State) (n : Nat) : State :=
  (s.evid.clips.filter (fun c => c.slot == n)).foldl (fun s c => s.closeClip c true) s

/-- A presentation time jumps by more than 4 frame intervals (R101). -/
def jumps (v : StreamCfg) (a b : Nat) : Bool := decide (4 * 90000 * v.frDen < ((b : Int) - a).natAbs * v.frNum)

/-- A slot's new output picture joins its pre-roll ring and its clips. -/
def State.ringPush (s : State) (n : Nat) (p : Pic) : State :=
  let x := s.slot n
  if !x.cfg.stream.evidEnable ∨ p.handle = none then s
  else
    let jump := match x.ring.getLast? with
      | some q => jumps x.cfg.stream q.pts p.pts
      | none => false
    let s := if jump then s.truncateSlot n else s
    let s := (s.evid.clips.filter (fun c => c.slot == n)).foldl (fun s c => s.clipTake p c) s
    let s := (s.holdEv p).modSlot n (fun x => { x with ring := x.ring ++ [p] })
    let keep := x.cfg.evid.preroll + x.cfg.evid.guardPics
    let ring := (s.slot n).ring
    let out := ring.take (ring.length - keep)
    (out.foldl State.dropEv s).modSlot n (fun x => { x with ring := ring.drop (ring.length - keep) })

/-- The pre-roll ring is emptied. -/
def State.ringClear (s : State) (n : Nat) : State :=
  ((s.slot n).ring.foldl State.dropEv s).modSlot n (fun x => { x with ring := [] })

/-! ### Pending snapshots, and what stops everything -/

/-- A pending snapshot is given up. -/
def State.cancelSnap (s : State) (k : Snapshot) : State :=
  let s := (s.encStop (.snap k.id)).dropEv k.pic
  let s := { s with evid := { s.evid with snaps := s.evid.snaps.filter (fun j => j.id != k.id) } }
  (s.evidEntry k.slot 1 k.id k.pic.seq k.pic.seq []).endReserv k.res

/-- Requests of the queue that `p` picks leave it, and `f` says how. -/
def State.dropQueued (s : State) (p : EvidReq → Bool) (f : State → EvidReq → State) : State :=
  let out := s.evid.queue.filter (fun q => p q.2.2)
  let s := { s with evid := { s.evid with queue := s.evid.queue.filter (fun q => !p q.2.2) } }
  out.foldl (fun s q => f s q.2.2) s

/-- Shedding step 1 is entered (R101). -/
def State.evidStop (s : State) : State :=
  let s := s.evid.clips.foldl (fun s c => s.closeClip c true) s
  let s := s.evid.snaps.foldl State.cancelSnap s
  s.dropQueued (fun _ => true) (fun s req => s.evidRefuse req fltVenShed)

/-- A slot stops or is reconfigured: its clips end (R101), and with its pictures go its pending snapshots, its waiting
requests and its pre-roll ring (assumption 122). -/
def State.evidEndSlot (s : State) (n : Nat) : State :=
  let s := s.truncateSlot n
  let s := (s.evid.snaps.filter (fun k => k.slot == n)).foldl State.cancelSnap s
  (s.dropQueued (fun r => r.slot == n) State.evidGone).ringClear n

end Sys2Proof.Machine
end

