-- ==== Sys2Proof/Machine/Evt.lean ====
section
/-! DEFINITION. The event inputs and outputs (R50 to R56). Times are cycles of the EVT block's PERI_CLK
counter; `dt` is the cycles since the block's last command (assumption 3). -/
namespace Sys2Proof.Machine
open Sys2Proof

/-- PERI_CLK cycles in a second and in a millisecond. -/
def periHz : Nat := 200000000
def periMs : Nat := 200000

/-- Cycles of budget that one accepted edge uses: 10,000 edges a second (R52). -/
def edgeCost : Nat := 20000

/-- EVT_STAMP of a cycle: 48 bits (R50). -/
def evtStamp (t : Nat) : Nat := t % 2 ^ 48

/-- The counter advances. -/
def State.evtTick (s : State) (dt : Nat) : State :=
  { s with evt := { s.evt with ticks := s.evt.ticks + dt } }

/-- Budget tokens of a line at cycle `t`: at most a burst of 4 edges (R52). -/
def EvtLine.tokensAt (l : EvtLine) (t : Nat) : Nat := min (4 * edgeCost) (l.tokens + (t - l.tokenTick))

/-- The level after polarity (R50). -/
def EvtLine.level (l : EvtLine) : Bool := l.pin != l.polarity

/-- The level that the synchroniser was given last. -/
def EvtLine.given (l : EvtLine) : Bool := ((l.sync.getLast?).map (·.2)).getD l.input

/-- An input change at cycle `t`: it leaves the synchroniser two cycles later (R50). -/
def EvtLine.inputAt (l : EvtLine) (t : Nat) : EvtLine :=
  if l.level = l.given then l else { l with sync := l.sync ++ [(t + 2, l.level)] }

/-- The synchronised level changes at cycle `t`: a filter count starts, with the F now in force, or the one running
ends. -/
def EvtLine.change (l : EvtLine) (t : Nat) (v : Bool) : EvtLine :=
  { l with input := v, counting := if v = l.filtered then none else some (v, l.filter, t) }

/-- The running count is complete at cycle `t`: the level has been held for F cycles. -/
def EvtLine.ripe (l : EvtLine) (t : Nat) : Bool := match l.counting with
  | some (_, f, start) => decide (start + f ≤ t)
  | none => false

/-- Changes leave the synchroniser up to cycle `t`; one that follows a complete count waits until that is accepted. -/
def EvtLine.settleFrom (t : Nat) : List (Nat × Bool) → EvtLine → EvtLine
  | [], l => { l with sync := [] }
  | (u, v) :: rest, l =>
    if u ≤ t ∧ l.ripe u = false then EvtLine.settleFrom t rest (l.change u v) else { l with sync := (u, v) :: rest }

def EvtLine.settle (l : EvtLine) (t : Nat) : EvtLine := EvtLine.settleFrom t l.sync l

/-- A slot takes an edge for pairing: running, not suspended, and outside aligned fusion (R53). -/
def Slot.takesEdge (x : Slot) : Bool :=
  x.run == .running && x.shedMode != 5 && !x.cfg.fusion.member

/-- Every slot that takes edges holds this one for its next released unit (R53). -/
def State.pairEdge (s : State) (line : Nat) (level : Bool) (stamp : Nat) : State :=
  { s with slots := s.slots.map (fun p =>
      if p.2.takesEdge then
        (p.1, { p.2 with ing := { p.2.ing with edges := p.2.ing.edges ++ [⟨line, level, stamp⟩] } })
      else p) }

/-- The line accepts its filtered level as its held level (R50, R52, R53). -/
def State.acceptEdge (s : State) (line : Nat) : State :=
  let t := s.evt.ticks
  let v := (s.line line).filtered
  let s := s.modLine line (fun l => { l with
    held := v, stamp := evtStamp t, tokens := l.tokensAt t - edgeCost, tokenTick := t,
    activeFrom := if v then t else l.activeFrom })
  let s := { s with evt := { s.evt with events := setBit s.evt.events line true } }
  s.pairEdge line v (evtStamp t)

/-- An edge beyond the budget: dropped and counted; FLT_EVT_RATE at the first drop of a 1 s window (R52). -/
def State.dropEdge (s : State) (line : Nat) : State :=
  let t := s.evt.ticks
  let w := t / periHz
  let first := (s.line line).faultWindow ≠ some w
  let s := s.modLine line (fun l => { l with
    drops := (l.drops + 1) % 2 ^ 64, faultWindow := some w, tokens := l.tokensAt t, tokenTick := t })
  if first then s.raise { code := fltEvtRate, unit := line, addr := evtStamp t } else s

/-- Marks a line stuck: it reads inactive for every consumer, and produces no edge (R51). -/
def State.markStuck (s : State) (line : Nat) : State :=
  let a := (s.line line).activeFrom
  (s.modLine line (fun l => { l with stuck := true, held := false })).raise
    { code := fltEvtStuck, unit := line, addr := evtStamp a }

/-- The active level in progress has lasted longer than the timeout (R51). -/
def State.lineOverdue (s : State) (line : Nat) : Bool :=
  let l := s.line line
  l.held && !l.stuck && l.maxMs != 0 && decide (l.activeFrom + l.maxMs * periMs < s.evt.ticks)

/-- A level change at a pin (R50). -/
def State.evtEdge (s : State) (line : Nat) (level : Bool) : State :=
  s.modLine line (fun l => ({ l.settle s.evt.ticks with pin := level }).inputAt s.evt.ticks)

def execEvtInEdge (line dt : Nat) (level : Bool) (s : State) : Host.Outcome State Fault Refusal :=
  whenUp s (if line < 16 then (s.evtTick dt).evtEdge line level else s)

/-- The filter count has completed: the line's filtered level changes (R50), and the edge is accepted,
or dropped beyond the budget (R52). A stuck line takes no edge (R51). -/
def State.filterDone (s : State) (line : Nat) : State :=
  let t := s.evt.ticks
  let s := s.modLine line (fun l => l.settle t)
  match (s.line line).counting with
  | some (v, f, start) =>
    if start + f ≤ t then
      let s := s.modLine line (fun l => ({ l with
        counting := none, filtered := v, inactiveSince := if v then l.inactiveSince else t }).settle t)
      let l := s.line line
      if l.stuck || v == l.held then s
      else if edgeCost ≤ l.tokensAt t then s.acceptEdge line
      else s.dropEdge line
    else s
  | none => s

def execEvtInFilterAccept (line dt : Nat) (s : State) : Host.Outcome State Fault Refusal :=
  whenUp s (if line < 16 then (s.evtTick dt).filterDone line else s)

/-- R52: the budget allows an edge again, and the line accepts its filtered level where it differs. -/
def execEvtInBudgetRefill (line dt : Nat) (s : State) : Host.Outcome State Fault Refusal :=
  let s' := s.evtTick dt
  let l := s'.line line
  whenUp s (if line < 16 then
      (if !l.stuck && l.filtered != l.held && decide (edgeCost ≤ l.tokensAt s'.evt.ticks)
       then s'.acceptEdge line else s')
    else s)

def execEvtInStuck (line dt : Nat) (s : State) : Host.Outcome State Fault Refusal :=
  let s' := s.evtTick dt
  whenUp s (if line < 16 then (if s'.lineOverdue line then s'.markStuck line else s') else s)

/-- R51: continuously inactive after filtering for 1 s. -/
def execEvtInStuckClear (line dt : Nat) (s : State) : Host.Outcome State Fault Refusal :=
  let s' := s.evtTick dt
  let l := s'.line line
  whenUp s (if line < 16 then
      (if l.stuck && !l.filtered && decide (l.inactiveSince + periHz ≤ s'.evt.ticks)
       then s'.modLine line (fun l => { l with stuck := false }) else s')
    else s)

/-- Polarity of a line: a change is an input change (R50). -/
def State.setPolarity (s : State) (line : Nat) (p : Bool) : State :=
  s.modLine line (fun l => ({ l.settle s.evt.ticks with polarity := p }).inputAt s.evt.ticks)

/-- F of a line, 2,000 to 2,000,000; a count in progress keeps the F it started with (R50). -/
def State.setFilter (s : State) (line f : Nat) : State :=
  if 2000 ≤ f ∧ f ≤ 2000000 then
    s.modLine line (fun l => { l.settle s.evt.ticks with filter := f })
  else s

/-- Maximum-active timeout in ms, at most 3,600,000; it applies at once (R51). -/
def State.setMaxAct (s : State) (line ms : Nat) : State :=
  if ms ≤ 3600000 then
    let s := s.modLine line (fun l => { l with maxMs := ms })
    if s.lineOverdue line then s.markStuck line else s
  else s

/-- BAR0 offset of EVT_LINE_SEL. -/
def evtSelOff : Nat := 0x190020

/-- The entries of a line (0x9100 + l, and its bit of 0x4001.03) show what its registers hold: the two are one
configuration (R56). -/
def State.lineEntries (s : State) (l : Nat) : State :=
  let x := s.line l
  let i := 0x9100 + l
  (((s.odPutNat i 1 (b2n x.polarity)).odPutNat i 2 x.filter).odPutNat i 3 x.maxMs).odPutNat 0x4001 3
    (setBit (s.odNum 0x4001 3) l x.wake)

/-- EVT_LINE_CTRL of the selected line. -/
def State.lineCtrl (s : State) (v : Nat) : State :=
  let l := s.sel evtSelOff
  ((s.setPolarity l (bit v 0)).modLine l (fun x => { x with wake := bit v 1 })).lineEntries l

def State.lineFilter (s : State) (v : Nat) : State :=
  (s.setFilter (s.sel evtSelOff) (bits v 20 0)).lineEntries (s.sel evtSelOff)

def State.lineMaxAct (s : State) (v : Nat) : State :=
  (s.setMaxAct (s.sel evtSelOff) (bits v 31 0)).lineEntries (s.sel evtSelOff)

def execEvtLineCtrlWrite (dt value : Nat) (s : State) : Host.Outcome State Fault Refusal :=
  whenUp s ((s.evtTick dt).lineCtrl value)

def execEvtLineFilterWrite (value : Nat) (s : State) : Host.Outcome State Fault Refusal :=
  whenUp s (s.lineFilter value)

def execEvtLineMaxactWrite (dt value : Nat) (s : State) : Host.Outcome State Fault Refusal :=
  whenUp s ((s.evtTick dt).lineMaxAct value)

/-! ### EVT_OUT (R54, R55) -/

/-- A command of a line: 1 SET, 2 CLEAR, 3 PULSE of `ms`; any other is discarded. -/
def State.evtOut (s : State) (line cmd ms : Nat) : State :=
  if 8 ≤ line then s
  else if cmd = 1 then s.modOutLine line (fun o => { o with active := true, pulseMs := none })
  else if cmd = 2 then s.modOutLine line (fun o => { o with active := false, pulseMs := none })
  else if cmd = 3 ∧ 1 ≤ ms ∧ ms ≤ 10000 then
    s.modOutLine line (fun o => { o with active := true, pulseMs := some ms })
  else s

/-- The level a line drives: the active level is the opposite of the idle level (R54). -/
def EvtOutLine.level (o : EvtOutLine) : Bool := o.active != o.idle

def execEvtOutSet (line : Nat) (s : State) : Host.Outcome State Fault Refusal :=
  whenUp s (s.evtOut line 1 0)

def execEvtOutClear (line : Nat) (s : State) : Host.Outcome State Fault Refusal :=
  whenUp s (s.evtOut line 2 0)

def execEvtOutPulse (line widthMs : Nat) (s : State) : Host.Outcome State Fault Refusal :=
  whenUp s (s.evtOut line 3 widthMs)

def execEvtOutPulseEnd (line : Nat) (s : State) : Host.Outcome State Fault Refusal :=
  whenUp s (if (s.outLine line).pulseMs.isSome then s.evtOut line 2 0 else s)

/-- A new idle level: the line keeps its state (R54). -/
def State.setIdle (s : State) (line : Nat) (idle : Bool) : State :=
  s.modOutLine line (fun o => { o with idle := idle })

/-- The lines leave high impedance (R55). -/
def State.driveOuts (s : State) (on : Bool) : State :=
  (upto 0 8).foldl (fun s l => s.modOutLine l (fun o => { o with driven := on })) s

/-! ### Register views (R56) -/

def State.evtInState (s : State) : Nat :=
  (upto 0 16).foldl (fun v l =>
    v + b2n ((s.line l).held && !(s.line l).stuck) * 2 ^ l + b2n (s.line l).stuck * 2 ^ (16 + l)) 0

def State.evtOutState (s : State) : Nat :=
  (upto 0 8).foldl (fun v l =>
    let o := s.outLine l
    v + b2n (o.driven && o.level) * 2 ^ l + b2n o.pulseMs.isSome * 2 ^ (8 + l) + b2n o.driven * 2 ^ (16 + l)) 0

end Sys2Proof.Machine
end

