-- ==== Sys2Proof/Machine/Skiver.lean ====
section
/-! DEFINITION. The Skiver units (R116 to R132): jobs, their validation, and the exact arithmetic from
source samples to tensor samples. -/
namespace Sys2Proof.Machine
open Sys2Proof

/-! ### Reading a job (R116 to R119) -/

def readRegion (b : List Byte) : Region :=
  { x := fieldAt b 0 2, y := fieldAt b 2 2, w := fieldAt b 4 2, h := fieldAt b 6 2, out := fieldAt b 8 1
    origin := fieldAt b 9 1, index := fieldAt b 10 2, trackId := fieldAt b 12 4, rsvOk := allZero ((b.drop 16).take 16) }

def readJob (a : Nat) (h : List Byte) (regions : List Region) : Job :=
  { addr := a, fb := fieldAt h 0 4, slot := fieldAt h 4 1, nReg := fieldAt h 5 1, nOut := fieldAt h 6 1, flags := fieldAt h 7 1
    pts := fieldAt h 8 8, seq := fieldAt h 16 4, ctx := fieldAt h 20 1, gateCore := fieldAt h 22 2, gateCtr := fieldAt h 24 1
    doneCtr := fieldAt h 25 1, gateN := fieldAt h 26 2, doneCore := fieldAt h 28 2, doneN := fieldAt h 30 2
    outAddr := fieldAt h 32 8, coefAddr := fieldAt h 40 8, regions := regions
    rsvOk := allZero ((h.drop 21).take 1) && allZero ((h.drop 48).take 16) }

/-- BAR0 offset of SKV_SUBMIT. -/
def skvSubmitOff : Nat := 0x40100

/-- A submission by address: the header and its regions are read, and the job queued (R116). -/
def State.skvSubmit (s : State) (a : Nat) : State :=
  if a % 64 ≠ 0 then s
  else if !s.populated a then s.decodeFault 14 a
  else
    let h := s.seen a 64
    let n := min (fieldAt h 5 1) 64
    let rs := (upto 0 n).map (fun i => readRegion (s.seen (a + 64 + 32 * i) 32))
    s.skvEnqueue (readJob a h rs)

def execSkiverSubmit (route : Route) (high : Nat) (s : State) : Host.Outcome State Fault Refusal :=
  let r := s.takeHeld route skvSubmitOff high
  whenUp s (match (if s.reaches route skvSubmitOff then r.1 else none) with
    | some a => r.2.skvSubmit a
    | none => s)

def State.jobOuts (s : State) (j : Job) : List OutDesc := (upto 0 j.nOut).map (fun i => readOut (s.seen (j.outAddr + 64 * i) 64))

/-! ### Sizes (R126) -/

/-- N_w, N_h, pad_x, pad_y of a source of `w` × `h`. -/
def OutDesc.place (o : OutDesc) (w h : Nat) : Nat × Nat × Nat × Nat :=
  let n := fitSize w h o.tw o.th o.fit
  (n.1, n.2, if o.fit = 1 then (o.tw - n.1) / 2 else 0, if o.fit = 1 then (o.th - n.2) / 2 else 0)

/-! ### Validation (R120) -/

/-- The handle is a live frame buffer of the slot. -/
def State.handleOk (s : State) (j : Job) : Bool :=
  let f := s.fb (fbIndex j.fb)
  f.live && f.gen == fbGen j.fb && fbHandle (fbGen j.fb) (fbIndex j.fb) == j.fb && f.slot == j.slot

/-- Ranges of the header (R117). The gate's core and counter are held to them without a gate too (assumption 125). -/
def Job.rangeOk (j : Job) (numCores : Nat) : Bool :=
  decide (j.nReg ≤ 64) && (j.nReg != 0 || bit j.flags 1) && decide (1 ≤ j.nOut) && decide (j.nOut ≤ 8)
    && decide (j.flags < 8) && decide (j.ctx ≤ 63) && j.rsvOk && decide (j.gateCore < numCores) && decide (j.doneCore < numCores)
    && decide (j.gateCtr ≤ 47) && decide (j.doneCtr ≤ 47) && decide (1 ≤ j.doneN) && j.outAddr % 64 == 0 && j.coefAddr % 64 == 0

/-- One region against the picture and its output (R118, R126). -/
def regionOk (r : Region) (outs : List OutDesc) (pw ph : Nat) : Bool :=
  match outs[r.out]? with
  | none => false
  | some o =>
    let len := if o.canvas then (pw, ph) else (r.w, r.h)
    let n := o.place len.1 len.2
    decide (2 ≤ r.w) && decide (2 ≤ r.h) && decide (r.origin < 16) && r.rsvOk && (!o.canvas || r.index == 0)
      && decide (r.x + r.w ≤ pw) && decide (r.y + r.h ≤ ph) && r.x % 2 == 0 && r.y % 2 == 0
      && (r.w % 2 == 0 || r.x + r.w == pw) && (r.h % 2 == 0 || r.y + r.h == ph)
      && ratioOk n.1 len.1 && ratioOk n.2.1 len.2

/-- No two regions of one crop output share an index. -/
def indexOk (rs : List Region) (outs : List OutDesc) : Bool :=
  decide (((rs.filter (fun r => match outs[r.out]? with | some o => !o.canvas | none => false)).map (fun r => (r.out, r.index))).Nodup)

/-- A range lies in the partition's buffers or the pages the context holds. -/
def State.rangeHeld (s : State) (c a n : Nat) : Bool := s.holdsRange c a n || s.inBuffers c a n

/-- Outputs, masks and tables lie where the context may have them. -/
def State.placesOk (s : State) (j : Job) (outs : List OutDesc) : Bool :=
  s.rangeHeld j.ctx j.outAddr (64 * j.nOut) && s.rangeHeld j.ctx j.coefAddr 1536
    && ((upto 0 outs.length).zip outs).all (fun p =>
      let o := p.2
      if o.canvas then s.rangeHeld j.ctx o.base o.size && s.rangeHeld j.ctx o.mask 9280
      else (j.regions.filter (fun r => r.out == p.1)).all (fun r => s.rangeHeld j.ctx (o.base + r.index * o.size) o.size))

/-- Taps of a phase (R125). -/
def phaseOk (taps : List Int) : Bool :=
  decide (taps.foldl (· + ·) 0 = 256) && taps.all (fun t => decide (-511 ≤ t) && decide (t ≤ 511))
    && decide (taps.foldl (fun n t => n + t.natAbs) 0 ≤ 512)

/-- Luma and chroma taps of every phase. -/
structure Coefs where
  luma : List (List Int)
  chroma : List (List Int)
  deriving DecidableEq, Repr

def readCoefs (b : List Byte) : Coefs :=
  let tap := fun (o : Nat) => sgn 16 (fieldAt b o 2)
  { luma := (upto 0 64).map (fun p => (upto 0 8).map (fun k => tap (16 * p + 2 * k)))
    chroma := (upto 0 64).map (fun p => (upto 0 4).map (fun k => tap (1024 + 8 * p + 2 * k))) }

/-- A sweep fills every canvas output, so each keeps the ratios of R126. -/
def sweepOk (j : Job) (outs : List OutDesc) (pw ph : Nat) : Bool :=
  !bit j.flags 0 || outs.all (fun o => !o.canvas || (let n := o.place pw ph; ratioOk n.1 pw && ratioOk n.2.1 ph))

/-- The fault that refuses a job, or none (R120). -/
def State.jobFault (s : State) (j : Job) : Option Nat :=
  let f := s.fb (fbIndex j.fb)
  let outs := s.jobOuts j
  if !s.handleOk j then some fltSkvHandle
  else if !j.rangeOk (s.ctx j.ctx).numCores ∨ !(j.regions.all (fun r => regionOk r outs f.picW f.picH)) ∨ !indexOk j.regions outs
      ∨ !sweepOk j outs f.picW f.picH then some fltSkvRegion
  else if !(outs.all OutDesc.ok) ∨ !s.placesOk j outs then some fltSkvOutput
  else
    let c := readCoefs (s.seen j.coefAddr 1536)
    if (c.luma ++ c.chroma).all phaseOk then none else some fltSkvCoef

/-! ### Samples (R124, R127) -/

/-- A source plane: its samples inside `[x0, x0 + w) × [y0, y0 + h)`. -/
structure Plane where
  at_ : Nat → Nat → Nat
  x0 : Nat
  y0 : Nat
  w : Nat
  h : Nat

/-- A sample, the nearest one inside where the position is outside (R124). -/
def Plane.get (p : Plane) (x y : Int) : Nat :=
  p.at_ (p.x0 + (clampI x 0 ((p.w : Int) - 1)).toNat) (p.y0 + (clampI y 0 ((p.h : Int) - 1)).toNat)

/-- Box pre-decimation factor of an axis. -/
def boxFactor (n len : Nat) : Nat :=
  (upto 0 4).foldl (fun d _ => if d < 16 ∧ 2 * d * n ≤ len then 2 * d else d) 1

/-- An axis: factor, decimated length, step. -/
structure Axis where
  d : Nat
  ld : Nat
  step : Nat
  delta : Nat
  deriving DecidableEq, Repr

def axisOf (n len delta : Nat) : Axis :=
  let d := boxFactor n len
  { d := d, ld := ceilDiv len d, step := (len * 65536 + d * n / 2) / (d * n), delta := delta / d }

/-- 16.16 position of output sample `i` in the decimated grid. -/
def Axis.pos (a : Axis) (i : Nat) : Int := (((2 * i + 1) * a.step / 2 : Nat) : Int) - 32768 + (a.delta : Nat)

/-- First sample position and phase. -/
def Axis.tap (a : Axis) (i : Nat) : Int × Nat := (Int.fdiv (a.pos i) 65536, (Int.fdiv (a.pos i) 1024 % 64).toNat)

/-- A decimated sample: the mean of its box, edges replicated. -/
def Plane.dec (p : Plane) (ax ay : Axis) (x y : Int) : Nat :=
  let n := ax.d * ay.d
  let sum := (upto 0 ay.d).foldl (fun t (j : Nat) => (upto 0 ax.d).foldl (fun t (i : Nat) =>
    t + p.get (x * (ax.d : Nat) + (i : Nat)) (y * (ay.d : Nat) + (j : Nat))) t) 0
  (sum + n / 2) / n

/-- The scaled sample E in the 10-bit domain; `back` is the offset of the first tap. -/
def Plane.scaled (p : Plane) (ax ay : Axis) (coef : List (List Int)) (back sh i j : Nat) : Nat :=
  let tx := ax.tap i
  let ty := ay.tap j
  let cx := coef.getD tx.2 []
  let cy := coef.getD ty.2 []
  let inR := fun (v : Int) (n : Nat) => clampI v 0 ((n : Int) - 1)
  let hpass := fun (y : Int) =>
    let sum := ((upto 0 cx.length).zip cx).foldl (fun (t : Int) c =>
      t + c.2 * (p.dec ax ay (inR (tx.1 - (back : Nat) + (c.1 : Nat)) ax.ld) y : Nat)) 0
    sgn 16 (wrap 16 (Int.fdiv (sum + 8) 16))
  let vsum := ((upto 0 cy.length).zip cy).foldl (fun (t : Int) c =>
    t + c.2 * hpass (inR (ty.1 - (back : Nat) + (c.1 : Nat)) ay.ld)) 0
  (clampI (Int.fdiv (vsum + (2 ^ (sh - 1) : Nat)) (2 ^ sh : Nat)) 0 1023).toNat

/-! ### Colour and quantisation (R128, R129) -/

/-- ky, rv, gu, gv, bu. -/
def colourCoefs (colour : Nat) : List Int :=
  match colour % 4 with
  | 0 => [9567, 13113, 3219, 6679, 16574]
  | 1 => [9567, 14729, 1752, 4378, 17356]
  | 2 => [8192, 11485, 2819, 5850, 14516]
  | _ => [8192, 12901, 1535, 3835, 15201]

/-- R, G, B of Y, Cb, Cr. -/
def toRgb (colour y cb cr : Nat) : List Nat :=
  let k := fun i => (colourCoefs colour).getD i 0
  let yd : Int := (y : Int) - (if bit colour 1 then 0 else 64)
  let u : Int := (cb : Int) - 512
  let v : Int := (cr : Int) - 512
  let fin := fun (x : Int) => (clampI (Int.fdiv (x + 4096) 8192) 0 1023).toNat
  [fin (k 0 * yd + k 1 * v), fin (k 0 * yd - k 2 * u - k 3 * v), fin (k 0 * yd + k 4 * u)]

/-- The computed channels of a sample in the output's order. -/
def OutDesc.channels (o : OutDesc) (y cb cr : Nat) : List Nat :=
  match o.chan with
  | 0 => toRgb o.colour y cb cr
  | 1 => (toRgb o.colour y cb cr).reverse
  | 2 => [y, cb, cr]
  | _ => [y]

/-- The code of channel `c` (R129). -/
def OutDesc.quant (o : OutDesc) (c e : Nat) : Nat :=
  let a : Int := (e : Int) * o.mul.getD c 0 + o.add.getD c 0
  let sh := o.shift.getD c 0
  match floatFmt o.fmt with
  | some f => fenc f true (.fin (decide (a < 0)) a.natAbs (-(sh : Int)))
  | none =>
    let r := rshiftRne a sh + o.zp
    if o.fmt = 0 then wrap 8 (clampI r 0 255) else if o.fmt = 1 then wrap 8 (clampI r (-128) 127)
    else wrap 16 (clampI r (-32768) 32767)

/-- Codes of a padding sample. -/
def OutDesc.padCodes (o : OutDesc) : List Nat := (upto 0 o.nChan).map (fun c => o.pad.getD c 0 % 2 ^ (8 * o.esize))

/-! ### One region's mapping -/

/-- How a source area maps into a tensor: planes, axes and placement. -/
structure Mapping where
  luma : Plane
  cb : Plane
  cr : Plane
  ax : Axis
  ay : Axis
  cx : Axis
  cy : Axis
  n : Nat × Nat × Nat × Nat
  coefs : Coefs
  sh : Nat

/-- Bytes of a luma sample, luma stride in samples, first sample of the CbCr plane (R69). -/
def Extent.geom (x : Extent) : Nat × Nat × Nat :=
  let b := if x.depth = 8 then 1 else 2
  (b, alignUp x.w 64, alignUp x.w 64 * alignUp x.h 64)

/-- A sample of a frame buffer at a sample offset. -/
def State.fbSample (s : State) (h b o : Nat) : Nat :=
  let v := leNat ((upto (o * b) b).map (fun k => s.rdByte (s.fbAddr h k)))
  if b = 1 then v else v / 64

/-- The mapping of area `(x, y, w, h)` of frame buffer `fb` into an output (R124, R126, R127). -/
def State.mapping (s : State) (fb : Nat) (o : OutDesc) (c : Coefs) (r : Rect) : Mapping :=
  let ext := (tget none s.tkp.extents (s.fb (fbIndex fb)).extent).getD {}
  let (b, stride, base) := ext.geom
  let n := o.place r.w r.h
  let cw := (r.x + r.w + 1) / 2 - r.x / 2
  let ch := (r.y + r.h + 1) / 2 - r.y / 2
  let plane := fun (k : Nat) => (⟨fun x y => s.fbSample fb b (base + y * stride + 2 * x + k), r.x / 2, r.y / 2, cw, ch⟩ : Plane)
  { luma := ⟨fun x y => s.fbSample fb b (y * stride + x), r.x, r.y, r.w, r.h⟩, cb := plane 0, cr := plane 1
    ax := axisOf n.1 r.w 0, ay := axisOf n.2.1 r.h 0, cx := axisOf n.1 cw 16384, cy := axisOf n.2.1 ch 0
    n := n, coefs := c, sh := if b = 1 then 10 else 12 }

/-- Codes of tensor sample (i, j), padding included. -/
def Mapping.sample (m : Mapping) (o : OutDesc) (i j : Nat) : List Nat :=
  let (nw, nh, px, py) := m.n
  if i < px ∨ px + nw ≤ i ∨ j < py ∨ py + nh ≤ j then o.padCodes
  else
    let x := i - px
    let y := j - py
    let e := m.luma.scaled m.ax m.ay m.coefs.luma 3 m.sh x y
    let u := if o.chan = 3 then 0 else m.cb.scaled m.cx m.cy m.coefs.chroma 1 m.sh x y
    let v := if o.chan = 3 then 0 else m.cr.scaled m.cx m.cy m.coefs.chroma 1 m.sh x y
    let q := ((upto 0 3).zip (o.channels e u v)).map (fun c => o.quant c.1 c.2)
    if o.chan ≠ 3 ∧ o.layout = 1 then q ++ [o.pad.getD 3 0 % 2 ^ (8 * o.esize)] else q

/-- Where one run of samples `[i0, i0 + n)` of row `j` goes: first address and bytes, plane by plane. -/
def OutDesc.runPlaces (o : OutDesc) (base i0 n j : Nat) : List (Nat × Nat) :=
  if o.layout = 2 ∧ o.chan ≠ 3 then
    (upto 0 3).map (fun c => (base + (c * o.th * o.tw + j * o.tw + i0) * o.esize, n * o.esize))
  else [(base + (j * o.tw + i0) * o.nChan * o.esize, n * o.nChan * o.esize)]

/-- Writes one run of samples `[i0, i0 + n)` of row `j`. -/
def State.writeRun (s : State) (ways : Nat) (o : OutDesc) (base : Nat) (m : Mapping) (i0 n j : Nat) : State :=
  let px := (upto i0 n).map (fun i => m.sample o i j)
  let e := o.esize
  if o.layout = 2 ∧ o.chan ≠ 3 then
    (upto 0 3).foldl (fun s c =>
      s.store ways (base + (c * o.th * o.tw + j * o.tw + i0) * e) (px.flatMap (fun q => leBytes e (q.getD c 0)))) s
  else s.store ways (base + (j * o.tw + i0) * o.nChan * e) (px.flatMap (fun q => q.flatMap (leBytes e)))

/-! ### Canvas tiles (R131, R132) -/

/-- Canvas rectangle of a region: x0, y0, x1, y1. -/
def OutDesc.canvasRect (o : OutDesc) (r : Region) (pw ph : Nat) : Nat × Nat × Nat × Nat :=
  let (nw, nh, px, py) := o.place pw ph
  (px + r.x * nw / pw, py + r.y * nh / ph, px + ceilDiv ((r.x + r.w) * nw) pw, py + ceilDiv ((r.y + r.h) * nh) ph)

/-- Tiles in raster order that a rectangle touches. -/
def OutDesc.tilesIn (o : OutDesc) (r : Nat × Nat × Nat × Nat) : List Nat :=
  (upto 0 (o.tilesW * o.tilesH)).filter (fun k =>
    let tx := k % o.tilesW * o.tileW
    let ty := k / o.tilesW * o.tileH
    decide (tx < r.2.2.1) && decide (r.1 < tx + o.tileW) && decide (ty < r.2.2.2) && decide (r.2.1 < ty + o.tileH))

/-- Compute and input tiles of an output (R131). -/
def OutDesc.tiles (o : OutDesc) (sweep : Bool) (rs : List Region) (pw ph : Nat) : List Nat × List Nat :=
  let every := upto 0 (o.tilesW * o.tilesH)
  if sweep then (every, every)
  else
    let rects := rs.map (fun r => o.canvasRect r pw ph)
    let grown := rects.map (fun r => (r.1 - o.halo, r.2.1 - o.halo, min o.tw (r.2.2.1 + o.halo), min o.th (r.2.2.2 + o.halo)))
    let hit := fun (xs : List (Nat × Nat × Nat × Nat)) => every.filter (fun k => xs.any (fun r => (o.tilesIn r).contains k))
    (hit rects, hit grown)

/-- A bitmap of 512 B. -/
def bitmap (ks : List Nat) : List Byte :=
  (upto 0 512).map (fun b => BitVec.ofNat 8 ((upto 0 8).foldl (fun v i => if ks.contains (8 * b + i) then v + 2 ^ i else v) 0))

/-- The mask area (R132). -/
def maskBytes (o : OutDesc) (j : Job) (compute input : List Nat) : List Byte :=
  let head := leBytes 2 o.tilesW ++ leBytes 2 o.tilesH ++ leBytes 2 compute.length ++ leBytes 2 input.length ++ leBytes 8 j.pts
    ++ leBytes 4 j.seq ++ leBytes 1 j.flags
  padTo 9280 (padTo 64 head ++ bitmap compute ++ bitmap input ++ compute.flatMap (leBytes 2))

/-! ### Running a job -/

/-- Lines of a source area of a frame buffer. -/
def State.sourceLines (s : State) (fb : Nat) (r : Rect) : List Nat :=
  let ext := (tget none s.tkp.extents (s.fb (fbIndex fb)).extent).getD {}
  let (b, stride, base) := ext.geom
  let row := fun (o n : Nat) => (upto (o / 64) ((o + n - 1) / 64 - o / 64 + 1)).map (fun k => s.fbAddr fb (64 * k))
  let luma := (upto r.y r.h).flatMap (fun y => row ((y * stride + r.x) * b) (r.w * b))
  let cw := (r.x + r.w + 1) / 2 - r.x / 2
  let chroma := (upto (r.y / 2) ((r.y + r.h + 1) / 2 - r.y / 2)).flatMap (fun y => row ((base + y * stride + r.x / 2 * 2) * b) (2 * cw * b))
  (luma ++ chroma).eraseDups

/-- Source area that canvas tiles need, per tile. -/
def Axis.span (a : Axis) (len i0 i1 : Nat) : Nat × Nat :=
  let lo := (clampI (((a.tap i0).1 - 3) * (a.d : Nat)) 0 ((len : Int) - 1)).toNat
  let hi := (clampI (((a.tap i1).1 + 5) * (a.d : Nat)) 1 len).toNat
  (lo, hi - lo)

/-- Areas of the picture that a job's outputs read. -/
def State.jobAreas (s : State) (j : Job) (outs : List OutDesc) : List Rect :=
  let f := s.fb (fbIndex j.fb)
  ((upto 0 outs.length).zip outs).flatMap (fun p =>
    let o := p.2
    let rs := j.regions.filter (fun r => r.out == p.1)
    if !o.canvas then rs.map (fun r => ⟨r.x, r.y, r.w, r.h⟩)
    else
      let (nw, nh, px, py) := o.place f.picW f.picH
      let ax := axisOf nw f.picW 0
      let ay := axisOf nh f.picH 0
      (o.tiles (bit j.flags 0) rs f.picW f.picH).2.filterMap (fun k =>
        let tx := k % o.tilesW * o.tileW
        let ty := k / o.tilesW * o.tileH
        if tx + o.tileW ≤ px ∨ px + nw ≤ tx ∨ ty + o.tileH ≤ py ∨ py + nh ≤ ty then none
        else
          let sx := ax.span f.picW (tx - px) (min nw (tx + o.tileW - px) - 1)
          let sy := ay.span f.picH (ty - py) (min nh (ty + o.tileH - py) - 1)
          some ⟨sx.1, sy.1, sx.2, sy.2⟩))

/-- Mask areas of a null job: headers with no tile (R137). -/
def State.writeNull (s : State) (ways : Nat) (j : Job) (outs : List OutDesc) : State :=
  outs.foldl (fun s o => if o.canvas then s.store ways o.mask (maskBytes o j [] []) else s) s

/-- Every sample of every input tile and every crop, and the masks (R130, R131). -/
def State.writeOutputs (s : State) (ways : Nat) (j : Job) (outs : List OutDesc) : State :=
  let f := s.fb (fbIndex j.fb)
  let coefs := readCoefs (s.seen j.coefAddr 1536)
  let src := s
  ((upto 0 outs.length).zip outs).foldl (fun s p =>
    let o := p.2
    let rs := j.regions.filter (fun r => r.out == p.1)
    if o.canvas then
      let m := src.mapping j.fb o coefs ⟨0, 0, f.picW, f.picH⟩
      let t := o.tiles (bit j.flags 0) rs f.picW f.picH
      let s := t.2.foldl (fun s k => (upto (k / o.tilesW * o.tileH) o.tileH).foldl (fun s y =>
        s.writeRun ways o o.base m (k % o.tilesW * o.tileW) o.tileW y) s) s
      s.store ways o.mask (maskBytes o j t.1 t.2)
    else rs.foldl (fun s r =>
      let m := src.mapping j.fb o coefs ⟨r.x, r.y, r.w, r.h⟩
      (upto 0 o.th).foldl (fun s y => s.writeRun ways o (o.base + r.index * o.size) m 0 o.tw y) s) s) s

/-- Ranges that a job's outputs and masks take. -/
def State.jobWrites (s : State) (j : Job) (outs : List OutDesc) : List (Nat × Nat) :=
  let f := s.fb (fbIndex j.fb)
  let none_ := bit j.flags 1 || j.regions.isEmpty
  ((upto 0 outs.length).zip outs).flatMap (fun p =>
    let o := p.2
    let rs := j.regions.filter (fun r => r.out == p.1)
    if o.canvas then
      (o.mask, 9280) :: (if none_ then [] else (o.tiles (bit j.flags 0) rs f.picW f.picH).2.flatMap (fun k =>
        (upto (k / o.tilesW * o.tileH) o.tileH).flatMap (o.runPlaces o.base (k % o.tilesW * o.tileW) o.tileW)))
    else if none_ then []
    else rs.flatMap (fun r => (upto 0 o.th).flatMap (o.runPlaces (o.base + r.index * o.size) 0 o.tw)))

/-- A job's tables stand in powered-down banks of its partition's buffers (R161). -/
def State.tablesOff (s : State) (j : Job) : Bool :=
  [(j.outAddr, 64 * j.nOut), (j.coefAddr, 1536)].any (fun r => s.inBuffers j.ctx r.1 r.2 && s.bufferOff r.1 r.2)

/-- Reads the source lines of a job: the first that fails. -/
def State.readSource (s : State) (port : Nat) (j : Job) (outs : List OutDesc) : Option Nat × State :=
  ((s.jobAreas j outs).flatMap (s.sourceLines j.fb)).eraseDups.foldl (fun (acc : Option Nat × State) l =>
    match acc.1 with
    | some _ => acc
    | none => match acc.2.readLine port (s.portWays port) l noErrors with
      | (.ok, s) => (none, s)
      | (_, s) => (some l, s)) (none, s)

/-- A picture whose source met a Class R failure is substituted, cause integrity (R393, R444). -/
def State.substSource (s : State) (port line : Nat) (j : Job) : State :=
  let s := s.raise { code := fltIntSubst, unit := port, detail := s.memCode line, addr := line, slot := j.slot }
  let mine := fun (p : Pic) => p.seq == j.seq && p.subst.isNone
  if (s.slot j.slot).pics.any mine then
    let s := (s.chainLate j.slot (substEntry 9 j.pts j.seq true)).count j.slot 0x21 1
    s.modSlot j.slot (fun x => { x with
      pics := modWhere mine (fun p => { p with subst := some 9 }) x.pics, dec := { x.dec with afterSubst := true } })
  else s

/-- A valid job runs on a unit. `bad`: its source met a Class R failure. -/
def State.runJob (s : State) (u : Nat) (j : Job) (bad : Bool) : State :=
  let s := s.gateTake j.ctx j.gateCore j.gateCtr j.gateN
  let outs := s.jobOuts j
  let ways := (s.ctx j.ctx).ways
  let src := if bit j.flags 1 then (none, s) else s.readSource (14 + u) j outs
  let s := src.2
  let line := (src.1).getD (s.fbAddr j.fb 0)
  let fails := !bit j.flags 1 && (bad || src.1.isSome)
  let j' := if fails then { j with flags := j.flags % 2 + 2 + (if bit j.flags 2 then 4 else 0), regions := [] } else j
  let s := if fails then s.substSource (14 + u) line j else s
  let s := if bit j'.flags 1 ∨ j'.regions.isEmpty then s.writeNull ways j' outs else s.writeOutputs ways j' outs
  s.modSkv u (fun x => { x with st := 1, slotShown := j.slot, region := 0, job := some j' })

/-- A job reads or writes cluster buffers of its context. -/
def State.jobBuffers (s : State) (j : Job) : Bool :=
  inClusters j.outAddr || inClusters j.coefAddr || (s.jobOuts j).any (fun o => inClusters o.base || (o.canvas && inClusters o.mask))

/-- An invalid job is taken whatever its gate (R120 to R122). A job in cluster buffers waits until its context is
resident (assumption 125). -/
def State.jobReady (s : State) (j : Job) : Bool :=
  (s.jobFault j).isSome || s.tablesOff j
    || (s.gateOpen j.ctx j.gateCore j.gateCtr j.gateN 0 && ((s.ctx j.ctx).st == .resident || !s.jobBuffers j))

/-- Amount that a Skiver gate takes of a counter before a Stitcher gate does (R267): of the oldest job that waits on it
and can run, where a unit is free. -/
def State.skvClaim (s : State) (c core ctr : Nat) : Nat :=
  if (upto 0 8).any (fun u => (s.skvUnit u).job.isNone) then
    ((s.skv.queue.find? (fun j => j.ctx == c && j.gateCore == core && j.gateCtr == ctr && j.gateN != 0 && s.jobReady j
      && (s.jobFault j).isNone && !s.tablesOff j)).map (·.gateN)).getD 0
  else 0

/-- The job a free unit takes: live slots first, then near-live, then replay; the oldest of a class. -/
def State.nextJob (s : State) : Option Job :=
  (upto 0 3).findSome? (fun k => s.skv.queue.find? (fun j => s.slotClass j.slot == k && s.jobReady j))

def State.skvStart (s : State) (u : Nat) (bad : Bool) : State :=
  if 8 ≤ u ∨ (s.skvUnit u).job.isSome then s
  else match s.nextJob with
    | none => s
    | some j =>
      let s := { s with skv := { s.skv with queue := s.skv.queue.erase j } }
      let flt := fun (code : Nat) => (s.skvRelease j).ctxFault j.ctx { code := code, unit := 0x2000 + u, detail := j.slot, addr := j.addr }
      if s.tablesOff j then flt fltCoreBankOff
      else match s.jobFault j with
      | some code => flt code
      | none =>
        if (s.jobWrites j (s.jobOuts j)).any (fun r => s.bufferOff r.1 r.2) then flt fltCoreBankOff else s.runJob u j bad

def execSkiverJobStart (unit : Nat) (bad : Bool) (s : State) : Host.Outcome State Fault Refusal := whenUp s (s.skvStart unit bad)

/-- Every write is acknowledged: the completion is signalled and the reference released (R121). -/
def State.skvDone (s : State) (u dt : Nat) : State :=
  match (s.skvUnit u).job with
  | none => s
  | some j =>
    let s := s.modSkv u (fun x => { x with
      st := 0, job := none, busy := (x.busy + dt) % 2 ^ 64, jobs := (x.jobs + 1) % 2 ^ 64 })
    ((s.skvRelease j).account j.ctx 8 dt).sendIncr
      { ctx := j.ctx, core := j.doneCore, ctr := j.doneCtr, n := j.doneN, fromCtx := false, src := 0x100 + u }

def execSkiverJobComplete (unit dt : Nat) (s : State) : Host.Outcome State Fault Refusal := whenUp s (s.skvDone unit dt)

end Sys2Proof.Machine
end

