-- ==== Sys2Proof/Machine/TrackBase.lean ====
section
/-! DEFINITION. The arithmetic of tracking (R293 to R300, R303, R309, R310): the motion model in fp32, boxes,
the benefit matrix, the auction. -/
namespace Sys2Proof.Machine
open Sys2Proof

/-! ### fp32 (R294) -/

def wFma (a b c : Word) : Word := BitVec.ofNat 32 (fFma f32 a.toNat b.toNat c.toNat)
def wNeg (a : Word) : Word := a ^^^ 0x80000000#32
/-- C's comparison forms of max and min. -/
def wMax (a b : Word) : Word := if wLt a b then b else a
def wMin (a b : Word) : Word := if wLt b a then b else a
def wHalf : Word := 0x3F000000#32
def wFinite (a : Word) : Bool := a.toNat / 2 ^ 23 % 256 != 255

/-! ### Detections (R293, R296) -/

/-- A usable entry (R293). -/
def Detection.usable (d : Detection) : Bool :=
  [d.x0, d.y0, d.x1, d.y1, d.score].all wFinite && wLt d.x0 d.x1 && wLt d.y0 d.y1
    && !wLt d.score 0#32 && !wLt 0x3F800000#32 d.score

/-- z of a detection. -/
def Detection.z (d : Detection) : List Word :=
  [wMul (wAdd d.x0 d.x1) wHalf, wMul (wAdd d.y0 d.y1) wHalf, wSub d.x1 d.x0, wSub d.y1 d.y0]

/-! ### Motion model -/

/-- One coordinate: position, velocity, P00, P01, P11. -/
structure Axis1 where
  pos : Word
  vel : Word
  p00 : Word
  p01 : Word
  p11 : Word
  deriving DecidableEq, Repr

def Track.axis (t : Track) (c : Nat) : Axis1 :=
  let g := fun (l : List Word) (i : Nat) => l.getD i 0#32
  ⟨g t.pos c, g t.vel c, g t.cov (3 * c), g t.cov (3 * c + 1), g t.cov (3 * c + 2)⟩

def Track.setAxes (t : Track) (xs : List Axis1) : Track :=
  { t with pos := xs.map (·.pos), vel := xs.map (·.vel), cov := xs.flatMap (fun a => [a.p00, a.p01, a.p11]) }

/-- h × h of a track. -/
def Track.qs (t : Track) : Word := wMul (t.pos.getD 3 0#32) (t.pos.getD 3 0#32)

/-- One coordinate over `dt` ticks (R295). -/
def Axis1.predict (a : Axis1) (dt qs qp qv : Word) : Axis1 :=
  let pos := wFma dt a.vel a.pos
  let k := wFma dt a.p11 a.p01
  let p00 := wFma dt k (wFma dt a.p01 a.p00)
  { a with pos := pos, p00 := wFma (wMul qp dt) qs p00, p01 := k, p11 := wFma (wMul qv dt) qs a.p11 }

/-- The track at `pts`; none where it is deleted without prediction (R295). -/
def Track.predict (cfg : TrackCfg) (t : Track) (pts : Nat) : Option Track :=
  let delta : Int := (pts : Int) - (t.ptsLast : Nat)
  if 16777216 < delta then none
  else
    let dt := wOfInt delta
    let qs := t.qs
    some { t.setAxes ((upto 0 4).map (fun c => (t.axis c).predict dt qs cfg.qp cfg.qv)) with ptsLast := pts }

/-- One coordinate with measurement `z` and noise `m` (R296). -/
def Axis1.update (a : Axis1) (z m : Word) : Axis1 :=
  let sm := wAdd a.p00 m
  let k0 := wDiv a.p00 sm
  let k1 := wDiv a.p01 sm
  let y := wSub z a.pos
  { pos := wFma k0 y a.pos, vel := wFma k1 y a.vel, p00 := wFma (wNeg k0) a.p00 a.p00
    p01 := wFma (wNeg k0) a.p01 a.p01, p11 := wFma (wNeg k1) a.p01 a.p11 }

/-- The track after its matched detection (R296). -/
def Track.update (cfg : TrackCfg) (t : Track) (d : Detection) : Track :=
  let m := wMul cfg.r t.qs
  t.setAxes ((upto 0 4).map (fun c => (t.axis c).update ((Detection.z d).getD c 0#32) m))

/-- The motion state of a birth (R297). -/
def Track.start (cfg : TrackCfg) (d : Detection) (pts : Nat) : Track :=
  let h := (Detection.z d).getD 3 0#32
  let p0 := wMul (wMul cfg.p0pos h) h
  let p1 := wMul (wMul cfg.p0vel h) h
  ({ ptsLast := pts, ptsBirth := pts } : Track).setAxes ((Detection.z d).map (fun z => ⟨z, 0#32, p0, 0#32, p1⟩))

/-! ### Boxes and the matrix (R298 to R300) -/

/-- x0, y0, x1, y1. -/
structure FBox where
  x0 : Word
  y0 : Word
  x1 : Word
  y1 : Word
  deriving DecidableEq, Repr

/-- The box of a track's position. -/
def Track.box (t : Track) : FBox :=
  let p := fun i => t.pos.getD i 0#32
  let hw := wMul wHalf (p 2)
  let hh := wMul wHalf (p 3)
  ⟨wSub (p 0) hw, wSub (p 1) hh, wAdd (p 0) hw, wAdd (p 1) hh⟩

/-- IoU in 1/4,096 (R298). -/
def iouQ (a b : FBox) : Nat :=
  let ix := wMax 0#32 (wSub (wMin a.x1 b.x1) (wMax a.x0 b.x0))
  let iy := wMax 0#32 (wSub (wMin a.y1 b.y1) (wMax a.y0 b.y0))
  let i := wMul ix iy
  let u := wSub (wAdd (wMul (wSub a.x1 a.x0) (wSub a.y1 a.y0)) (wMul (wSub b.x1 b.x0) (wSub b.y1 b.y0))) i
  let iou := if wLt 0#32 u then wDiv i u else 0#32
  match fvFloor (fdec f32 (wMul iou 0x45800000#32).toNat) with
  | some v => v.toNat
  | none => 0

/-- Exact dot product of int8 codes. -/
def dotInt8 (a b : List Byte) : Int := (a.zip b).foldl (fun (t : Int) p => t + p.1.toInt * p.2.toInt) 0

/-- Cosine similarity in 1/4,096 (R299). -/
def cosQ (a b : List Byte) : Nat := min 4096 ((max (dotInt8 a b) 0).toNat * 4096 / 16129)

/-- Infeasible. -/
def infeasible : Nat := 0xFFFFFFFF

def Track.embOk (t : Track) : Bool := bit t.flags 0

/-- An entry of the benefit matrix (R300). -/
def benefit (cfg : TrackCfg) (t : Track) (d : Detection) (emb : Option (List Byte)) : Nat :=
  let iou := iouQ t.box ⟨d.x0, d.y0, d.x1, d.y1⟩
  if cfg.classMatch && t.cls != d.cls then infeasible
  else
    let r := match emb, t.embOk with
      | some e, true =>
        let c := cosQ t.emb e
        (cfg.wIou * iou + (16 - cfg.wIou) * c, decide (cfg.iouGate ≤ iou) || decide (cfg.cosGate ≤ c))
      | _, _ => (16 * iou, decide (cfg.iouGate ≤ iou))
    if r.2 && decide (cfg.bMin ≤ r.1) then r.1 else infeasible

/-! ### The auction (R303, R304) -/

structure Auction where
  price : List Int
  owner : List (Option Nat)
  col : List (Option Nat)
  done : List Bool
  bids : Nat := 0
  limited : Bool := false
  deriving DecidableEq, Repr

/-- The best object of row `row`, its value and the second value; the private option is 0. -/
def bestBid (row : List Nat) (scale : Nat) (price : List Int) : Option Nat × Int × Int :=
  ((upto 0 row.length).zip row).foldl (fun (acc : Option Nat × Int × Int) e =>
    if e.2 ≤ 65536 then
      let v : Int := ((e.2 * scale : Nat) : Int) - price.getD e.1 0
      let (j1, v1, v2) := acc
      if v > v1 || (j1.isNone && decide (v > 0) && v == v1) then (some e.1, v, v1)
      else if v > v2 then (j1, v1, v) else acc
    else acc) (none, 0, 0)

/-- Bids until every row is placed or done, or `limit` bids; `fuel` bounds the bids. -/
def auctionRun (a : List (List Nat)) (limit : Nat) : Nat → Auction → Auction
  | 0, s => s
  | fuel + 1, s =>
    match (upto 0 a.length).find? (fun i => (s.col.getD i none).isNone && !s.done.getD i true) with
    | none => s
    | some i =>
      if s.bids = limit then { s with limited := true }
      else
        let b := bestBid (a.getD i []) (a.length + 1) s.price
        let s := { s with bids := s.bids + 1 }
        auctionRun a limit fuel (match b.1 with
          | none => { s with done := s.done.set i true }
          | some j =>
            let col := match s.owner.getD j none with
              | some o => s.col.set o none
              | none => s.col
            { s with price := s.price.set j (s.price.getD j 0 + b.2.1 - b.2.2 + 1)
                     owner := s.owner.set j (some i), col := col.set i (some j) })

/-- The assignment of an n × m matrix. -/
def auction (a : List (List Nat)) (m limit : Nat) : Auction :=
  auctionRun a limit (limit + 1)
    { price := copies m 0, owner := copies m none, col := copies a.length none, done := copies a.length false }

/-- Unscaled total benefit. -/
def auctionTotal (a : List (List Nat)) (r : Auction) : Nat :=
  ((upto 0 a.length).zip r.col).foldl (fun t p => match p.2 with
    | some j => t + (a.getD p.1 []).getD j 0
    | none => t) 0

/-! ### Orders -/

/-- Detection indices in descending score, ties to the lower index (R309, R310). -/
def byScore (ds : List Detection) : List Nat :=
  sortBy (fun i => 2 ^ 32 - ((ds[i]?).map (fun d => if d.score = 0x80000000#32 then 0 else d.score.toNat)).getD 0) (upto 0 ds.length)

/-- Live entries of a store in ascending track ID. -/
def liveTracks (ts : Tbl Track) : List (Nat × Track) := sortBy (·.2.id) (ts.filter (fun p => p.2.state != 0))

end Sys2Proof.Machine
end

