-- ==== Sys2Proof/Machine/Steering.lean ====
section
/-! DEFINITION. Region steering (R11, R133 to R140, R142): the region list of a slot's next picture and its
Skiver job. -/
namespace Sys2Proof.Machine
open Sys2Proof

/-! ### Rectangles of tracks (R135 step 1, R314) -/

/-- floor and ceiling of an exact value. -/
def fvCeil (v : FV) : Option Int := (fvFloor (fvNeg v)).map (fun i => -i)

/-- One axis of a box grown by its margin: the ends, exactly. -/
def grownAxis (cfg : SteerCfg) (a b : Word) : Option (Int × Int) :=
  let va := fdec f32 a.toNat
  let vb := fdec f32 b.toNat
  let side := fvAdd vb (fvNeg va)
  match fvFloor (fvMul side (.fin false cfg.marginQ (-4))) with
  | none => none
  | some m =>
    let g := max (cfg.marginMin : Int) m
    match fvFloor (fvAdd va (.fin (decide (0 < g)) g.natAbs 0)), fvCeil (fvAdd vb (.fin (decide (g < 0)) g.natAbs 0)) with
    | some lo, some hi => some (lo, hi)
    | _, _ => none

/-- The region of a live track on a picture: its box predicted to the picture's pts, grown and clipped. -/
def trackRegion (cfg : SlotCfg) (t : Track) (pts pw ph : Nat) : Option Region :=
  match t.predict cfg.track pts with
  | none => none
  | some t' =>
    let b := t'.box
    match grownAxis cfg.steer b.x0 b.x1, grownAxis cfg.steer b.y0 b.y1 with
    | some x, some y => (clipEven x.1 y.1 x.2 y.2 pw ph).map (fun r =>
        { x := r.x, y := r.y, w := r.w, h := r.h, origin := 1, trackId := t.id })
    | _, _ => none

/-! ### Rectangles of motion (R135 step 2) -/

/-- Blocks, by raster number, within `k` of a changed one. -/
def dilate (bw bh k : Nat) (changed : List Nat) : List Nat :=
  (upto 0 (bw * bh)).filter (fun i => changed.any (fun c =>
    decide (i % bw ≤ c % bw + k) && decide (c % bw ≤ i % bw + k) && decide (i / bw ≤ c / bw + k) && decide (c / bw ≤ i / bw + k)))

/-- 8-connected neighbours, or the same block. -/
def touching (bw a b : Nat) : Bool :=
  decide (a % bw ≤ b % bw + 1) && decide (b % bw ≤ a % bw + 1) && decide (a / bw ≤ b / bw + 1) && decide (b / bw ≤ a / bw + 1)

/-- Grows a component from its newest blocks: the component, and the blocks left. -/
def growComp (bw : Nat) : Nat → List Nat → List Nat → List Nat → List Nat × List Nat
  | 0, _, comp, rest => (comp, rest)
  | fuel + 1, front, comp, rest =>
    let hit := rest.filter (fun b => front.any (touching bw b))
    if hit.isEmpty then (comp, rest)
    else growComp bw fuel hit (comp ++ hit) (rest.filter (fun b => !hit.contains b))

/-- The components, in raster order of their first blocks. -/
def components (bw : Nat) : Nat → List Nat → List (List Nat)
  | 0, _ => []
  | _, [] => []
  | fuel + 1, b :: rest =>
    let r := growComp bw (rest.length + 1) [b] [b] rest
    r.1 :: components bw fuel r.2

def listMin (d : Nat) (xs : List Nat) : Nat := xs.foldl min d
def listMax (xs : List Nat) : Nat := xs.foldl max 0

/-- The region of a component. -/
def compRegion (bw pw ph : Nat) (comp : List Nat) : Option Region :=
  let xs := comp.map (· % bw)
  let ys := comp.map (· / bw)
  (clipEven (16 * listMin (xs.headD 0) xs : Nat) (16 * listMin (ys.headD 0) ys : Nat) (16 * (listMax xs + 1) : Nat) (16 * (listMax ys + 1) : Nat) pw ph).map
    (fun r => { x := r.x, y := r.y, w := r.w, h := r.h, origin := 2 })

/-- Motion regions of the changed blocks of a picture. -/
def motionRegions (cfg : SteerCfg) (changed : List Nat) (pw ph : Nat) : List Region :=
  let bw := ceilDiv pw 16
  let blocks := dilate bw (ceilDiv ph 16) cfg.dilate changed
  ((components bw (blocks.length + 1) blocks).filter (fun c =>
    decide (cfg.minBlocks ≤ (c.filter (changed.contains ·)).length))).filterMap (compRegion bw pw ph)

/-- The blocks whose change flag is set in the motion field of a frame buffer (R86). -/
def State.changedBlocks (s : State) (h pw ph : Nat) : List Nat :=
  match tget none s.tkp.extents (s.fb (fbIndex h)).extent with
  | none => []
  | some x => (upto 0 (ceilDiv pw 16 * ceilDiv ph 16)).filter (fun k =>
      bit (s.rdByte (s.fbAddr h (x.frame + 64 + 8 * k + 7))).toNat 0)

/-! ### Merging (R136) -/

/-- Bounding box of two regions; origins join, and a track ID stays where both name it. -/
def Region.join (a b : Region) : Region :=
  let x := min a.x b.x
  let y := min a.y b.y
  { a with x := x, y := y, w := max (a.x + a.w) (b.x + b.w) - x, h := max (a.y + a.h) (b.y + b.h) - y
           origin := a.origin ||| b.origin, trackId := if a.trackId = b.trackId then a.trackId else 0xFFFFFFFF }

/-- Area that joining two regions adds beyond the sum of their own. -/
def Region.cost (a b : Region) : Int :=
  let j := a.join b
  ((j.w * j.h : Nat) : Int) - (a.w * a.h : Nat) - (b.w * b.h : Nat)

/-- The pair of least cost: the lower i, then the lower j. -/
def bestPair (rs : List Region) : Option (Int × Nat × Nat) :=
  let idx := (upto 0 rs.length).zip rs
  idx.foldl (fun acc a => idx.foldl (fun (acc : Option (Int × Nat × Nat)) b =>
    if a.1 < b.1 then
      let c := a.2.cost b.2
      match acc with
      | some m => if c < m.1 then some (c, a.1, b.1) else acc
      | none => some (c, a.1, b.1)
    else acc) acc) none

/-- Merges down to `limit`: the regions and the number of merges. -/
def mergeRegions (limit : Nat) : Nat → List Region → List Region × Nat
  | 0, rs => (rs, 0)
  | fuel + 1, rs =>
    if rs.length ≤ limit then (rs, 0)
    else match bestPair rs with
      | none => (rs, 0)
      | some (_, i, j) =>
        match rs[i]?, rs[j]? with
        | some a, some b =>
          let r := mergeRegions limit fuel ((rs.set i (a.join b)).eraseIdx j)
          (r.1, r.2 + 1)
        | _, _ => (rs, 0)

/-! ### The job (R134 to R137) -/

/-- The region list of a good picture, its job flags, and the counters it moves. -/
structure Steered where
  regions : List Region
  flags : Nat
  counts : List (Nat × Nat)
  deriving DecidableEq, Repr

/-- Steering of a good picture, given its live tracks, its changed blocks and its canvas output.
`forced`: the first good picture, or the first after substituted ones; `shed`: R140. -/
def steer (cfg : SlotCfg) (o : OutDesc) (p : Pic) (tracks : List Track) (changed : List Nat) (forced shed : Bool) : Steered :=
  let sched := !shed && p.seq % cfg.stream.sweepN == cfg.steer.sweepPhase
  let forced := !shed && forced
  let all : Region := { x := 0, y := 0, w := p.width, h := p.height, origin := 4 }
  let tiles := o.tilesW * o.tilesH
  let sweepCounts := [(0x65, 1), (0x67, tiles), (0x68, tiles)]
  if sched || forced then
    { regions := [all], flags := 1 + 4 * b2n forced, counts := [(0x60, b2n sched), (0x61, b2n forced)] ++ sweepCounts }
  else
    let rs := tracks.filterMap (fun t => trackRegion cfg t p.pts p.width p.height)
      ++ (if p.noInter then [] else motionRegions cfg.steer changed p.width p.height)
    let m := mergeRegions cfg.steer.regionMax rs.length rs
    let t := o.tiles false m.1 p.width p.height
    if m.1.isEmpty then { regions := [], flags := 2, counts := [(0x64, 1)] }
    else if !shed && decide (cfg.steer.promote * tiles < t.1.length * 100) then
      { regions := [all], flags := 1, counts := [(0x62, 1), (0x66, m.2)] ++ sweepCounts }
    else { regions := m.1, flags := 0
           counts := [(0x63, 1), (0x65, m.1.length), (0x66, m.2), (0x67, t.1.length), (0x68, t.2.length)] }

def State.counts (s : State) (n : Nat) (cs : List (Nat × Nat)) : State := cs.foldl (fun s c => s.count n c.1 c.2) s

/-- The output of a job's table that steering fills: the first canvas, else the first. -/
def canvasOf (outs : List OutDesc) : Nat := (outs.findIdx? (fun o => o.canvas)).getD 0

/-- Submits the job of a picture; its regions go to output `k`. -/
def State.submitPic (s : State) (n c k : Nat) (crop : Bool) (p : Pic) (regions : List Region) (flags : Nat) : State :=
  match p.handle with
  | none => s
  | some h =>
    let rs := ((upto 0 regions.length).zip regions).map (fun r => { r.2 with out := k, index := if crop then r.1 else 0 })
    match s.ctxJob c h n flags p.pts p.seq rs with
    | some j => s.skvEnqueue j
    | none => s

/-- Changes the front picture of a slot. -/
def State.modFront (s : State) (n : Nat) (f : Pic → Pic) : State :=
  s.modSlot n (fun x => { x with pics := match x.pics with
    | p :: t => f p :: t
    | [] => [] })

/-- A picture in the pipeline becomes substituted after its group closed (R393, R437, R445). -/
def State.substFront (s : State) (n cause : Nat) (p : Pic) : State :=
  ((s.chainLate n (substEntry cause p.pts p.seq true)).count n 0x21 1).modFront n (fun p => { p with subst := some cause })

/-- The regions that a crop output takes, grown where R138 says so; one that cannot be grown is left out. -/
def cropRegions (o : OutDesc) (p : Pic) (rs : List Region) : List Region :=
  if o.canvas then rs
  else rs.filterMap (fun r => (growRegion ⟨r.x, r.y, r.w, r.h⟩ o.tw o.th o.fit p.width p.height).map
    (fun g => { r with x := g.x, y := g.y, w := g.w, h := g.h }))

/-- The lines of a picture's motion field that steering reads: the first that fails. -/
def State.readField (s : State) (h : Nat) (p : Pic) : Option Nat × State :=
  match tget none s.tkp.extents (s.fb (fbIndex h)).extent with
  | none => (none, s)
  | some x =>
    let n := 64 + 8 * (ceilDiv p.width 16 * ceilDiv p.height 16)
    ((upto 0 (ceilDiv n 64)).map (fun k => s.fbAddr h (x.frame + 64 * k) / 64 * 64)).foldl
      (fun (acc : Option Nat × State) l => match acc.1 with
        | some _ => acc
        | none => match acc.2.readLine 39 (s.portWays 39) l noErrors with
          | (.ok, s) => (none, s)
          | (_, s) => (some l, s)) (none, s)

/-- The front picture waits for steering: no association is in flight, and a lock-step follower has its
leader's entries of the group (R11, R453). -/
def State.steerable (s : State) (n : Nat) (p : Pic) : Bool :=
  !p.skived && (s.slot n).trk.stage == .idle && !s.groupWaits n p.group

/-- The picture is steered: a good one ends a run of substituted ones (R134). -/
def State.steerDone (s : State) (n : Nat) (good : Bool) : State :=
  (s.modFront n (fun p => { p with skived := true })).modDec n (fun d => { d with afterSubst := !good })

/-- Steering of the front picture for context `c`. `bad`: its motion field met a Class R failure. -/
def State.steerFor (s : State) (n c : Nat) (p : Pic) (bad : Bool) : State :=
  let null := fun (s : State) => ((s.submitPic n c 0 false p [] 2).count n 0x64 1).steerDone n false
  if p.subst.isSome then null s
  else match p.handle with
    | none => s.steerDone n false
    | some h =>
      let r := s.readField h p
      let s := r.2
      if bad ∨ r.1.isSome then
        let line := r.1.getD (s.fbAddr h 0)
        null ((s.raise { code := fltIntSubst, unit := 39, detail := s.memCode line, addr := line, slot := n }).substFront n 9 p)
      else
        let x := s.ctx c
        let outs := match x.decl with
          | some d => (upto 0 d.skv.nOut).map (fun i => readOut (s.seen (x.imageAddr d.skv.outOff + 64 * i) 64))
          | none => []
        let k := canvasOf outs
        match outs[k]? with
        | none => s.steerDone n true
        | some o =>
          let sl := s.slot n
          let shed := p.shed == 3 || p.shed == 4
          let changed := if p.noInter then [] else s.changedBlocks h p.width p.height
          let st := steer p.cfg o p ((liveTracks sl.trk.tracks).map (·.2)) changed sl.dec.afterSubst shed
          let rs := cropRegions o p st.regions
          let flags := if rs.isEmpty then 2 else st.flags
          ((s.submitPic n c k (!o.canvas) p rs flags).counts n (st.counts ++ [(0x69, st.regions.length - rs.length)])).steerDone n true

/-- A slot's next picture is steered. A picture whose detector context is gone is substituted, cause
context (R437). -/
def State.steerSlot (s : State) (n : Nat) (bad : Bool) : State :=
  match (s.slot n).pics with
  | [] => s
  | p :: _ =>
    if !s.steerable n p then s
    else match p.cfg.det with
      | none => s.steerDone n p.subst.isNone
      | some c =>
        if (s.ctx c).live then s.steerFor n c p bad
        else (if p.subst.isSome then s else s.substFront n 10 p).steerDone n false

def execSteeringBuild (slot : Nat) (bad : Bool) (s : State) : Host.Outcome State Fault Refusal :=
  whenReady s (s.steerSlot slot bad)

end Sys2Proof.Machine
end

