-- ==== Sys2Proof/Machine/Stitcher.lean ====
section
/-! DEFINITION. The Stitcher units (R301 to R306): calls, their validation, the auction and its result. -/
namespace Sys2Proof.Machine
open Sys2Proof

/-- BAR0 offset of STC_SUBMIT. -/
def stcSubmitOff : Nat := 0xD0100

/-- A call descriptor (R301). -/
def readCall (a : Nat) (b : List Byte) : Call :=
  { addr := a, matAddr := fieldAt b 0 8, resAddr := fieldAt b 8 8, stride := fieldAt b 16 4, n := fieldAt b 20 2, m := fieldAt b 22 2
    bidLimit := fieldAt b 24 4, ctx := fieldAt b 28 1, slot := fieldAt b 29 1, gateCore := fieldAt b 32 2, gateCtr := fieldAt b 34 1
    doneCtr := fieldAt b 35 1, gateN := fieldAt b 36 2, doneCore := fieldAt b 38 2, doneN := fieldAt b 40 2
    rsvOk := allZero ((b.drop 30).take 2) && allZero ((b.drop 42).take 22) }

/-- A call takes its place in the queue of 64, or is discarded (R302, R316). -/
def State.stcEnqueue (s : State) (k : Call) : State :=
  if 64 ≤ s.stc.queue.length then { s with stc := { s.stc with overflow := true } }
  else { s with stc := { s.stc with queue := s.stc.queue ++ [k] } }

/-- A submission by address. -/
def State.stcSubmit (s : State) (a : Nat) : State :=
  if a % 64 ≠ 0 then s
  else if !s.populated a then s.decodeFault 38 a
  else s.stcEnqueue (readCall a (s.seen a 64))

def execStcSubmit (route : Route) (high : Nat) (s : State) : Host.Outcome State Fault Refusal :=
  let r := s.takeHeld route stcSubmitOff high
  whenUp s (match (if s.reaches route stcSubmitOff then r.1 else none) with
    | some a => r.2.stcSubmit a
    | none => s)

/-! ### Validation (R302) -/

/-- Ranges of a descriptor; `numCores` of its context's partition. -/
def Call.rangeOk (k : Call) (numCores : Nat) : Bool :=
  k.matAddr % 64 == 0 && k.resAddr % 64 == 0 && k.stride % 64 == 0 && decide (4 * k.m ≤ k.stride) && decide (k.n ≤ 1024)
    && decide (k.m ≤ 1024) && decide (1 ≤ k.bidLimit) && decide (k.bidLimit ≤ 16777216) && decide (k.ctx ≤ 63)
    && k.rsvOk && decide (k.gateCore < numCores) && decide (k.doneCore < numCores) && decide (k.gateCtr ≤ 47) && decide (k.doneCtr ≤ 47)
    && decide (1 ≤ k.doneN)

/-- Bytes of the result area (R305). -/
def Call.resultLen (k : Call) : Nat := 64 + alignUp (2 * k.n) 64 + 2 * k.m

/-- The fault that refuses a call, or none. -/
def State.callFault (s : State) (k : Call) : Option Nat :=
  if k.internal then none
  else if !k.rangeOk (s.ctx k.ctx).numCores then some fltStcDesc
  else if !(k.n * k.stride == 0 || s.holdsRange k.ctx k.matAddr (k.n * k.stride)) || !s.holdsRange k.ctx k.resAddr k.resultLen then
    some fltStcAddr
  else none

/-- The call can be taken: it is refused whatever its gate, or its gate is open. -/
def State.callReady (s : State) (k : Call) : Bool :=
  k.internal || (s.callFault k).isSome
    || s.gateOpen k.ctx k.gateCore k.gateCtr k.gateN (s.skvClaim k.ctx k.gateCore k.gateCtr)

/-- Amount that a Stitcher gate takes of a counter before a later wait does (R267). -/
def State.stcClaim (s : State) (c core ctr : Nat) : Nat :=
  if (upto 0 4).any (fun u => (s.stcUnit u).call.isNone) then
    ((s.stc.queue.find? (fun k => !k.internal && k.ctx == c && k.gateCore == core && k.gateCtr == ctr && k.gateN != 0
      && s.callReady k && (s.callFault k).isNone)).map (·.gateN)).getD 0
  else 0

/-- The call a free unit takes: live slots first, then near-live, then replay; the oldest of a class. -/
def State.nextCall (s : State) : Option Call :=
  (upto 0 3).findSome? (fun c => s.stc.queue.find? (fun k => s.slotClass k.slot == c && s.callReady k))

/-! ### Running a call -/

/-- The matrix of a call, and what its reading met. -/
def State.callMatrix (s : State) (k : Call) : List (List Nat) × Option (Nat × LineRes) × State :=
  if k.internal then (k.matrix, none, s)
  else
    let r := s.readRange 38 (s.ctx k.ctx).ways k.matAddr (k.n * k.stride) noErrors
    ((upto 0 k.n).map (fun i => (upto 0 k.m).map (fun j => leNat (r.2.seen (k.matAddr + i * k.stride + 4 * j) 4))), r.1, r.2)

/-- Entries that are neither a benefit nor infeasible (R302). -/
def badEntries (a : List (List Nat)) : Nat :=
  a.foldl (fun t row => t + (row.filter (fun e => decide (65536 < e) && e != infeasible)).length) 0

/-- Cycles of a call without contention (R306). -/
def callCycles (n m bids : Nat) : Nat := 32 + bids * (40 + ceilDiv m 16) + ceilDiv (128 + 2 * n + 2 * m) 64

/-- A valid call runs on a unit. -/
def State.runCall (s : State) (u : Nat) (k : Call) : State :=
  let s := if k.internal then s else s.gateTake k.ctx k.gateCore k.gateCtr k.gateN
  match s.callMatrix k with
  | (_, some (l, r), s) => match r with
    | .lostP => s.settleLost
    | .failedX => s.endCtx k.ctx fltIntHost
    | _ => s.recompute k.ctx (0x3000 + u) (s.memCode l) l
  | (a, none, s) =>
    let r := auction a k.m k.bidLimit
    s.modStc u (fun x => { x with
      st := 1, slotShown := k.slot, call := some k, col := r.col, owner := r.owner, callBids := r.bids
      total := auctionTotal a r, limited := r.limited, badEnt := (x.badEnt + badEntries a) % 2 ^ 32 })

def State.stcStart (s : State) (u : Nat) : State :=
  if 4 ≤ u ∨ (s.stcUnit u).call.isSome then s
  else match s.nextCall with
    | none => s
    | some k =>
      let s := { s with stc := { s.stc with queue := s.stc.queue.erase k } }
      match s.callFault k with
      | some code => s.ctxFault k.ctx { code := code, unit := 0x3000 + u, detail := k.slot, addr := k.addr }
      | none => s.runCall u k

def execStitcherCallStart (unit : Nat) (s : State) : Host.Outcome State Fault Refusal := whenUp s (s.stcStart unit)

/-! ### The result (R305) -/

/-- Index codes: 0xFFFF for unassigned. -/
def idxBytes (xs : List (Option Nat)) : List Byte := xs.flatMap (fun x => leBytes 2 (x.getD 0xFFFF))

def resultBytes (x : StcUnit) (n : Nat) : List Byte :=
  padTo 64 (leBytes 4 x.callBids ++ leBytes 4 (b2n x.limited) ++ leBytes 8 x.total)
    ++ padTo (alignUp (2 * n) 64) (idxBytes x.col) ++ idxBytes x.owner

/-- The call's writes are acknowledged: the result stands in memory, or with the tracking service, and
the completion is signalled. -/
def State.stcDone (s : State) (u dt : Nat) : State :=
  let x := s.stcUnit u
  match x.call with
  | none => s
  | some k =>
    let s := s.modStc u (fun y => { busy := (y.busy + dt) % 2 ^ 64, bids := (y.bids + y.callBids) % 2 ^ 64, badEnt := y.badEnt })
    if k.internal then
      ((s.count k.slot 0x70 1).count k.slot 0x77 (b2n x.limited)).modTrk k.slot (fun t => if t.stage = .submitted then { t with stage := .assigned, result := x.col, limited := x.limited } else t)
    else
      ((s.store (s.ctx k.ctx).ways k.resAddr (resultBytes x k.n)).account k.ctx 9 dt).sendIncr
        { ctx := k.ctx, core := k.doneCore, ctr := k.doneCtr, n := k.doneN, fromCtx := false, src := 0x200 + u }

def execStitcherCallComplete (unit dt : Nat) (s : State) : Host.Outcome State Fault Refusal := whenUp s (s.stcDone unit dt)

end Sys2Proof.Machine
end

