-- ==== Sys2Proof/Machine/Rules.lean ====
section
/-! DEFINITION. Detection, track and event records (R338 to R341, R350), event rules (R347 to R349), and the end of a
picture's analysis (step 6 of R290). -/
namespace Sys2Proof.Machine
open Sys2Proof

/-! ### Record bodies -/


/-- R339: the track is the matched confirmed or coasting one. -/
def detBody (d : Detection) (index track marks ctx : Nat) : List Byte :=
  [d.x0, d.y0, d.x1, d.y1, d.score].flatMap wBytes ++ leBytes 2 d.cls ++ leBytes 2 index ++ leBytes 4 track
    ++ leBytes 1 marks ++ leBytes 1 ctx ++ leBytes 2 0

/-- R340. -/
def trackBody (t : Track) (seq marks : Nat) (deleted first : Bool) : List Byte :=
  leBytes 4 t.id ++ leBytes 4 t.globalId ++ leBytes 1 t.state
    ++ leBytes 1 (marks + 8 * b2n deleted + 16 * b2n (bit t.flags 1) + 32 * b2n first)
    ++ leBytes 2 t.cls ++ leBytes 2 t.hits ++ leBytes 2 t.misses ++ wBytes t.score ++ leBytes 4 seq
    ++ t.pos.flatMap wBytes ++ t.vel.flatMap wBytes ++ leBytes 8 t.ptsBirth
    ++ (upto 0 4).flatMap (fun c => wBytes (t.cov.getD (3 * c) 0#32)) ++ copies 16 0#8

/-- One firing of a rule. -/
structure Firing where
  flags : Nat := 0
  primary : Nat := 0xFFFFFFFF
  value : Word := 0#32
  ids : List Nat := []
  deriving DecidableEq, Repr

/-- R341. -/
def eventBody (rule kind flags evid seq : Nat) (f : Firing) : List Byte :=
  leBytes 2 rule ++ leBytes 1 kind ++ leBytes 1 flags ++ leBytes 4 f.primary ++ wBytes f.value ++ leBytes 4 evid
    ++ leBytes 4 seq ++ leBytes 2 f.ids.length ++ copies 10 0#8 ++ f.ids.flatMap (leBytes 4)

/-! ### Geometry (R347) -/

/-- The reference point of a track. -/
def Track.ref (t : Track) : Word × Word :=
  (t.pos.getD 0 0#32, wAdd (t.pos.getD 1 0#32) (wMul wHalf (t.pos.getD 3 0#32)))

/-- An edge (a, b) counts for point p. -/
def edgeHit (a b : Int × Int) (p : Word × Word) : Bool :=
  let ax := wOfInt a.1
  let ay := wOfInt a.2
  let bx := wOfInt b.1
  let by_ := wOfInt b.2
  (wLt p.2 ay != wLt p.2 by_)
    && wLt p.1 (wAdd ax (wDiv (wMul (wSub p.2 ay) (wSub bx ax)) (wSub by_ ay)))

/-- The point lies inside the polygon. -/
def inZone (zone : List (Int × Int)) (p : Word × Word) : Bool :=
  match zone with
  | [] => false
  | z :: rest => ((zone.zip (rest ++ [z])).filter (fun e => edgeHit e.1 e.2 p)).length % 2 == 1

/-- The strict side of a line: some true for a positive sign, side A. -/
def lineSide (line : List (Int × Int)) (p : Word × Word) : Option Bool :=
  match line with
  | [a, b] =>
    let ax := wOfInt a.1
    let ay := wOfInt a.2
    let v := wSub (wMul (wSub (wOfInt b.1) ax) (wSub p.2 ay)) (wMul (wSub (wOfInt b.2) ay) (wSub p.1 ax))
    if wLt 0#32 v then some true else if wLt v 0#32 then some false else none
  | _ => none

/-- The fp32 value nearest to the exact hypotenuse. -/
def hypot (a b : Word) : Word :=
  let sq := fun (w : Word) => fvMul (fdec f32 w.toNat) (fdec f32 w.toNat)
  BitVec.ofNat 32 (fenc f32 false (fvSqrt (fvAdd (sq a) (sq b))))

/-- Speed in m/s. -/
def Track.speed (t : Track) (scale : Word) : Word :=
  wDiv (wMul (hypot (t.vel.getD 0 0#32) (t.vel.getD 1 0#32)) 0x47AFC800#32) scale

/-- fp32 of ticks / 90,000. -/
def ticksSeconds (d : Nat) : Word :=
  BitVec.ofNat 32 (fenc f32 false (fvDiv (.fin false d 0) (.fin false 90000 0)))

/-! ### Evaluation (R348) -/

/-- A track as rules see it: confirmed or coasting, or just deleted. -/
structure TrackView where
  t : Track
  deleted : Bool
  deriving DecidableEq, Repr

def lookupNat (xs : List (Nat × Nat)) (k : Nat) : Option Nat := (xs.find? (fun p => p.1 == k)).map (·.2)

/-- The track may fire again under the rule's cooldown; its firing is noted. -/
def Rule.tryFire (r : Rule) (id pts : Nat) (f : Firing) : List Firing × Rule :=
  match lookupNat r.fired id with
  | some last => if pts < last + r.cfg.cooldown then ([], r)
                 else ([f], { r with fired := (id, pts) :: r.fired.filter (fun p => p.1 != id) })
  | none => ([f], { r with fired := (id, pts) :: r.fired })

/-- Forgets a track. -/
def Rule.forget (r : Rule) (id : Nat) : Rule :=
  { r with inside := r.inside.filter (fun p => p.1 != id), dwelt := without id r.dwelt, sides := r.sides.filter (fun p => p.1 != id)
           seen := without id r.seen, fired := r.fired.filter (fun p => p.1 != id) }

/-- The sides a crossing goes from and to fit the configured direction: 0 A→B, 1 B→A, 2 either. -/
def crossOk (direction : Nat) (fromA : Bool) : Bool :=
  if direction = 0 then fromA else if direction = 1 then !fromA else true

/-- A line rule meets a track. -/
def Rule.line (r : Rule) (pts : Nat) (t : Track) (f : Firing) : List Firing × Rule :=
  match lineSide r.cfg.line t.ref with
  | none => ([], r)
  | some a =>
    let prev := (r.sides.find? (fun p => p.1 == t.id)).map (·.2)
    let r' := { r with sides := (t.id, a) :: r.sides.filter (fun p => p.1 != t.id) }
    match prev with
    | some b => if b != a && crossOk r.cfg.direction b then r'.tryFire t.id pts f else ([], r')
    | none => ([], r')

/-- A zone rule of kinds 0, 1, 4 and 5 meets a track. -/
def Rule.zone (r : Rule) (pts : Nat) (t : Track) (f : Firing) : List Firing × Rule :=
  let id := t.id
  let ins := inZone r.cfg.zone t.ref
  let was := lookupNat r.inside id
  let known := r.seen.contains id
  let r1 := { r with
    seen := if known then r.seen else id :: r.seen
    inside := if ins then (match was with | some _ => r.inside | none => (id, pts) :: r.inside) else r.inside.filter (fun p => p.1 != id)
    dwelt := if ins then r.dwelt else without id r.dwelt }
  let k := r.cfg.kind
  if k = 0 then (if known && was.isNone && ins then r1.tryFire id pts f else ([], r1))
  else if k = 1 then (if was.isSome && !ins then r1.tryFire id pts f else ([], r1))
  else if k = 4 then
    let since := pts - (was.getD pts)
    if ins && !r.dwelt.contains id && decide (r.cfg.dwellTicks ≤ since) then
      ({ r1 with dwelt := id :: r1.dwelt } : Rule).tryFire id pts { f with value := ticksSeconds since }
    else ([], r1)
  else if k = 5 then
    let v := t.speed r.cfg.scale
    if ins && wLt r.cfg.limit v then r1.tryFire id pts { f with value := v } else ([], r1)
  else ([], r1)

/-- A rule of a per-track kind meets one track. -/
def Rule.meet (r : Rule) (pts : Nat) (v : TrackView) : List Firing × Rule :=
  let id := v.t.id
  let f : Firing := { primary := id, ids := [id] }
  if v.deleted then
    let x := if r.cfg.kind = 1 ∧ (lookupNat r.inside id).isSome then r.tryFire id pts { f with flags := 8 } else ([], r)
    (x.1, x.2.forget id)
  else if r.cfg.kind = 2 then r.line pts v.t f
  else r.zone pts v.t f

/-- A count rule: it fires when the number inside rises to count_hi, and rearms at count_lo or below. -/
def Rule.countInside (r : Rule) (vs : List TrackView) : List Firing × Rule :=
  let ids := (vs.filter (fun v => !v.deleted && inZone r.cfg.zone v.t.ref)).map (·.t.id)
  if r.armed && decide (r.cfg.countHi ≤ ids.length) then
    ([{ value := wOfInt ids.length, ids := ids.take 64 }], { r with armed := false })
  else ([], { r with armed := r.armed || decide (ids.length ≤ r.cfg.countLo) })

/-- A rule on one picture: its firings, and its state after them. -/
def Rule.eval (r : Rule) (p : Pic) (vs : List TrackView) : List Firing × Rule :=
  if r.cfg.kind = 6 then ((p.edges.filter (fun e => e.1 == r.cfg.evtLine)).map (fun _ => {}), r)
  else if p.subst.isSome then ([], r)
  else if r.cfg.kind = 3 then r.countInside vs
  else
    let x := vs.foldl (fun (a : List Firing × Rule) v => let m := a.2.meet p.pts v; (a.1 ++ m.1, m.2)) ([], r)
    let live := vs.map (·.t.id)
    let gone := (x.2.seen ++ x.2.sides.map (·.1)).filter (fun i => !live.contains i)
    (x.1, gone.foldl Rule.forget x.2)

/-! ### Actions (R349) -/

/-- The crop box of an event: its primary track's box, else the whole picture. -/
def eventBox (p : Pic) (vs : List TrackView) (id : Nat) : Rect :=
  let all : Rect := ⟨0, 0, p.width, p.height⟩
  match vs.find? (fun v => v.t.id == id) with
  | none => all
  | some v =>
    let b := v.t.box
    let at_ := fun (w : Word) (m : Nat) => (fvFloor (fdec f32 w.toNat)).map (fun i => (clampI i 0 m).toNat)
    match at_ b.x0 p.width, at_ b.y0 p.height, at_ b.x1 p.width, at_ b.y1 p.height with
    | some x0, some y0, some x1, some y1 => ⟨x0, y0, x1 - x0, y1 - y0⟩
    | _, _, _, _ => all

/-- A request that a rule makes, where its action is configured: refused?, identifier, state. -/
def State.ruleEvid (s : State) (on clip : Bool) (n seq : Nat) : Bool × Nat × State :=
  if !on then (false, 0, s)
  else
    let e := (s.slot n).cfg.evid
    let req : EvidReq := { slot := n, picture := seq, preroll := e.preroll, postroll := e.postroll, crop := none, host := none }
    let r := if clip then s.askClip req else s.askSnap req
    (r.1 != 0, r.2.1, r.2.2)

/-- A firing's actions, then its event record. -/
def State.fire (s : State) (n r : Nat) (cfg : RuleCfg) (p : Pic) (vs : List TrackView) (f : Firing) : State :=
  let (no1, id1, s) := s.ruleEvid (bit cfg.actions 0) true n p.seq
  let (_, id2, s) := s.ruleEvid (bit cfg.actions 1) false n p.seq
  let evid := if id1 ≠ 0 then id1 else id2
  let flags := p.marks + f.flags + 16 * b2n no1
  let seq := (s.slot n).chain.seq
  let nr : Nat × State := if bit cfg.actions 2 then
      s.narrAsk {
        slot := n, eventSeq := seq, picture := p.seq, crop := eventBox p vs f.primary
        template := cfg.template, record := eventBody r cfg.kind flags evid p.seq f
        maxTokens := 48, temperature := 0#32, topK := 8, seed := cfg.seed ^^^ seq, host := none }
    else (0, s)
  let drives := bit cfg.actions 3 && (cfg.evtOutCmd == 1 || cfg.evtOutCmd == 2
    || (cfg.evtOutCmd == 3 && decide (1 ≤ cfg.evtOutMs) && decide (cfg.evtOutMs ≤ 10000)))
  let s := if drives then nr.2.evtOut cfg.evtOutLine cfg.evtOutCmd cfg.evtOutMs else nr.2
  s.streamOut n 3 p.pts (eventBody r cfg.kind (flags + 32 * b2n (nr.1 != 0) + 64 * b2n drives) evid p.seq f)

/-- The slot's rules, in ascending index, on a picture. -/
def State.evalRules (s : State) (n : Nat) (p : Pic) (vs : List TrackView) : State :=
  ((s.rules.filter (fun r => r.2.cfg.enable && r.2.cfg.slot == n)).map (·.1)).foldl (fun s r =>
    let x := (s.rule r).eval p vs
    let cfg := (s.rule r).cfg
    x.1.foldl (fun s f => s.fire n r cfg p vs f) (s.modRule r (fun _ => x.2))) s

/-! ### The mirror of tracks and rules (R485) -/

/-- A rule's state as mirrored (assumption 20). -/
def Rule.bytes (r : Rule) : List Byte :=
  leBytes 1 (b2n r.armed) ++ leBytes 2 r.inside.length ++ r.inside.flatMap (fun p => leBytes 4 p.1 ++ leBytes 8 p.2)
    ++ leBytes 2 r.dwelt.length ++ r.dwelt.flatMap (leBytes 4) ++ leBytes 2 r.sides.length
    ++ r.sides.flatMap (fun p => leBytes 4 p.1 ++ leBytes 1 (b2n p.2)) ++ leBytes 2 r.seen.length ++ r.seen.flatMap (leBytes 4)
    ++ leBytes 2 r.fired.length ++ r.fired.flatMap (fun p => leBytes 4 p.1 ++ leBytes 8 p.2)

/-- Mirror frames of a slot's entries in `es`, with its next serial. -/
def State.sendTracks (s : State) (n g : Nat) (es : List (Nat × Track)) : State :=
  let k := (s.slot n).trk
  es.foldl (fun s p => s.stirrupSend 3 (mirrorPayload 0 n g (leBytes 4 k.nextSerial ++ leBytes 2 p.1 ++ p.2.bytes)))
    (s.modTrk n (fun k => { k with sent := k.tracks }))

/-- Step 5's mirror: the track entries that differ from what the partner holds, the next serial, the slot's rules. -/
def State.mirrorTracks (s : State) (n g : Nat) : State :=
  if s.mirrors n && s.pair.link == 2 then
    let k := (s.slot n).trk
    let s := s.sendTracks n g (trackDiff k.tracks k.sent)
    (s.rules.filter (fun r => r.2.cfg.enable && r.2.cfg.slot == n)).foldl (fun s r =>
      s.stirrupSend 3 (mirrorPayload 1 n g (leBytes 2 r.1 ++ r.2.bytes))) s
  else s

/-! ### Step 6 of R290 -/

/-- The picture leaves the pipeline: its hold ends, and groups that waited for it close. -/
def State.popPic (s : State) (n : Nat) (p : Pic) : State :=
  let s := s.modSlot n (fun x => { x with pics := x.pics.tail, trk := { x.trk with
    stage := .idle, dets := [], embs := [], crops := [], deleted := [], cols := [], result := [], limited := false } })
  let s := match p.handle with
    | some h => s.fbDropSvc h false
    | none => s
  s.settleGroups n

/-- Records of a picture (R315, R350): its group closes just before the first. -/
def State.finishPic (s : State) (n : Nat) (p : Pic) (dets : List (Detection × Nat)) (vs : List TrackView) : State :=
  let s := s.closeThrough n p.group
  let ctx := p.cfg.det.getD 0xFF
  let s := ((upto 0 dets.length).zip dets).foldl (fun s d => s.streamOut n 1 p.pts (detBody d.2.1 d.1 d.2.2 p.marks ctx)) s
  let s := vs.foldl (fun s v => s.streamOut n 2 p.pts (trackBody v.t p.seq p.marks v.deleted (!v.t.emitted))) s
  let s := s.modTrk n (fun k => { k with tracks := k.tracks.map (fun t =>
    if t.2.state = 2 ∨ t.2.state = 3 then (t.1, { t.2 with emitted := true }) else t) })
  let s := s.evalRules n p vs
  ((s.mirrorTracks n p.group).checkpoint n).popPic n p

end Sys2Proof.Machine
end

