-- ==== Sys2Proof/Machine/Tracking.lean ====
section
/-! DEFINITION. The tracking service (R286 to R293, R307 to R317): the sequence for one picture, the life of
tracks, and the gallery. -/
namespace Sys2Proof.Machine
open Sys2Proof

/-- Parameters of the picture's group. -/
def Pic.trk (p : Pic) : TrackCfg := p.cfg.track

/-! ### Step 1: prediction (R290, R291, R295) -/

/-- Every live track at the picture's pts; those R295 deletes are noted for their final records. -/
def State.predictAll (s : State) (n : Nat) (p : Pic) : State :=
  let live := liveTracks (s.slot n).trk.tracks
  let gone := live.filter (fun t => (t.2.predict p.trk p.pts).isNone)
  s.modTracks n (fun k => { k with
    tracks := k.tracks.filterMap (fun t => if t.2.state = 0 then some t else (t.2.predict p.trk p.pts).map (fun u => (t.1, u)))
    deleted := gone.map (·.2) })

/-- Views of a slot's tracks for records and rules: ascending ID, deleted ones among them (R315, R350). -/
def viewsOf (ts : Tbl Track) (deleted : List Track) : List TrackView :=
  let seen := fun (t : Track) => t.state == 2 || t.state == 3
  sortBy (fun v => v.t.id) (((ts.map (·.2)).filter seen).map (fun t => ⟨t, false⟩) ++ (deleted.filter seen).map (fun t => ⟨t, true⟩))

/-- A substituted picture: no list, no assignment, no birth; flags bit 2 is set (R291). -/
def State.coastPic (s : State) (n : Nat) (p : Pic) : State :=
  let s := if (s.slot n).trk.stage = .submitted then s.dropCall n else s
  let s := if (s.slot n).trk.stage = .idle then s.predictAll n p else s
  let s := s.modTracks n (fun k => { k with tracks := k.tracks.map (fun t =>
    if t.2.state = 0 then t else (t.1, { t.2 with flags := t.2.flags ||| 4 })) })
  let k := (s.slot n).trk
  s.finishPic n p [] (viewsOf k.tracks k.deleted)

/-- Step 1 on the front picture, whose Skiver job has been submitted. `bad`: working entries failed their
check and are restored from the checkpoint copy (R289). -/
def State.trackPredict (s : State) (n : Nat) (bad : Bool) : State :=
  match (s.slot n).pics with
  | [] => s
  | p :: _ =>
    if !p.skived then s
    else
      let s := if bad then s.rewindTracks n else s
      if p.subst.isSome || p.cfg.det.isNone then s.coastPic n p
      else if (s.slot n).trk.stage = .idle then (s.predictAll n p).modTrk n (fun k => { k with stage := .predicted })
      else s

def execTrackingPredict (slot : Nat) (bad : Bool) (s : State) : Host.Outcome State Fault Refusal :=
  whenReady s (s.trackPredict slot bad)

/-- The front picture of a slot at a stage of its association; one that has become substituted is left to
its next prediction. -/
def State.frontAt (s : State) (n : Nat) (st : TrkStage) : Option Pic :=
  match (s.slot n).pics with
  | p :: _ => if p.skived && p.subst.isNone && (s.slot n).trk.stage == st then some p else none
  | [] => none

/-! ### Step 2: detections and crops (R293, R310) -/

/-- The entries R293 keeps, and how many it leaves out. -/
def filterDets (cfg : TrackCfg) (p : Pic) (l : DetList) : List Detection × Nat :=
  if l.pts ≠ p.pts ∨ l.seq ≠ p.seq then ([], l.count)
  else
    let kept := (l.entries.take (min l.count cfg.detMax)).filter Detection.usable
    (kept, l.count - kept.length)

/-- Indices of the detections that get a crop. -/
def cropPick (cfg : TrackCfg) (ds : List Detection) : List Nat :=
  ((byScore ds).filter (fun i => match ds[i]? with
    | some d =>
      let side := wOfInt cfg.cropMin
      decide (d.cls < 64) && bit cfg.reidMask d.cls && !wLt (wSub d.x1 d.x0) side && !wLt (wSub d.y1 d.y0) side
    | none => false)).take cfg.cropMax

/-- The picture rectangle of a detection. -/
def detRect (d : Detection) (pw ph : Nat) : Option Rect :=
  let lo := fun (w : Word) => fvFloor (fdec f32 w.toNat)
  let hi := fun (w : Word) => fvCeil (fdec f32 w.toNat)
  match lo d.x0, lo d.y0, hi d.x1, hi d.y1 with
  | some a, some b, some c, some e => clipEven a b c e pw ph
  | _, _, _, _ => none

/-- Submits the crop job of a picture; a region that cannot be grown is left out and counted (R138), and so is one that lies
wholly outside the picture (assumption 125). The detections that got a crop are answered. -/
def State.cropJob (s : State) (n : Nat) (p : Pic) (ds : List Detection) : List Nat × State :=
  match p.cfg.reid, p.handle with
  | some c, some h =>
    if !(s.ctx c).live then ([], s)
    else
      let x := s.ctx c
      let o := s.outShape (x.imageAddr ((x.decl.map (·.skv.outOff)).getD 0))
      let pick := cropPick p.trk ds
      let regs := pick.filterMap (fun i => (ds[i]?).bind (fun d => (detRect d p.width p.height).bind (fun r =>
        (growRegion r o.1 o.2.1 o.2.2 p.width p.height).map (fun g => (i, g)))))
      let s := (s.count n 0x69 (pick.length - regs.length)).count n 0x78 regs.length
      if regs.isEmpty then ([], s)
      else
        let rs := ((upto 0 regs.length).zip regs).map (fun r =>
          ({ x := r.2.2.x, y := r.2.2.y, w := r.2.2.w, h := r.2.2.h, origin := 1, index := r.1 } : Region))
        match s.ctxJob c h n 0 p.pts p.seq rs with
        | some j => (regs.map (·.1), s.skvEnqueue j)
        | none => ([], s)
  | _, _ => ([], s)

/-- One entry of a detection list. -/
def detOfBytes (b : List Byte) : Detection :=
  let w := fun o => BitVec.ofNat 32 (fieldAt b o 4)
  { x0 := w 0, y0 := w 4, x1 := w 8, y1 := w 12, score := w 16, cls := fieldAt b 20 2 }

/-- The first `k` entries of a list, and its header. -/
def detListOf (k : Nat) (b : List Byte) : DetList :=
  { count := fieldAt b 0 4, pts := fieldAt b 8 8, seq := fieldAt b 16 4
    entries := (chunks 32 k ((b.drop 32).take (32 * k))).map detOfBytes }

/-- What reading a detection list gives. -/
inductive ListRead where
  | list (l : DetList)
  | absent (addr : Nat)
  | failed (line : Nat) (r : LineRes)
  deriving DecidableEq, Repr

/-- The list that a detector has written, read by the tracking service: its header, then the entries that R293 looks at. -/
def State.readList (s : State) (c detMax : Nat) (e : ReadErrors) : ListRead × State :=
  let x := s.ctx c
  let a : Nat := (x.decl.map (·.detList)).getD 0
  let ok := fun (n : Nat) => s.extOk c false ((a : Nat), ((a + n : Nat) : Int))
  match x.translate a with
  | none => (.absent a, s)
  | some la =>
    if !ok 32 then (.absent a, s)
    else match s.readRange 39 (s.portWays 39) la 32 e with
      | (some (l, r), s) => (.failed l r, s)
      | (none, s) =>
        let k := min (leNat (s.seen la 4)) detMax
        if !ok (32 + 32 * k) then (.absent a, s)
        else match s.readRange 39 (s.portWays 39) la (32 + 32 * k) noErrors with
          | (some (l, r), s) => (.failed l r, s)
          | (none, s) => (.list (detListOf k (s.seen la (32 + 32 * k))), s)

/-- Step 2 with a picture's list: the entries that stay, and the crop job. -/
def State.takeList (s : State) (n : Nat) (p : Pic) (l : DetList) : State :=
  let f := filterDets p.trk p l
  let r := (s.count n 0x76 f.2).cropJob n p f.1
  r.2.modTrk n (fun k => { k with stage := .detected, dets := f.1, crops := r.1 })

/-- A list whose read meets a failing line restarts the detector (R394, assumption 128); one at an address that is not
there is no list (R366). -/
def State.trackDetections (s : State) (n : Nat) (e : ReadErrors) : State :=
  match s.frontAt n .predicted with
  | none => s
  | some p => match p.cfg.det with
    | none => s
    | some c => match s.readList c p.trk.detMax e with
      | (.list l, s) => s.takeList n p l
      | (.absent a, s) => (s.decodeFault 39 a).takeList n p ⟨0, 0, 0, []⟩
      | (.failed l r, s) => match r with
        | .lostP => s.settleLost
        | .failedX => s.endCtx c fltIntHost
        | _ => s.recompute c 39 (s.memCode l) l

def execTrackingDetectionsReady (slot : Nat) (e : ReadErrors) (s : State) : Host.Outcome State Fault Refusal :=
  whenReady s (s.trackDetections slot e)

/-! ### Steps 3 and 4: the matrix and its call (R299 to R301) -/

/-- The embedding of a detection, 256 codes, zero beyond D. -/
def embOf (embs : List (Nat × List Byte)) (i : Nat) : Option (List Byte) := (embs.find? (fun e => e.1 == i)).map (·.2)

/-- The matrix: rows in list order, columns in ascending track ID. -/
def matrixOf (cfg : TrackCfg) (ds : List Detection) (embs : List (Nat × List Byte)) (ts : List Track) : List (List Nat) :=
  ((upto 0 ds.length).zip ds).map (fun d => ts.map (fun t => benefit cfg t d.2 (embOf embs d.1)))

def State.trackEmbeddings (s : State) (n : Nat) (emb : List (Nat × List Byte)) : State :=
  match s.frontAt n .detected with
  | none => s
  | some p =>
    let k := (s.slot n).trk
    let embs := (emb.filter (fun e => k.crops.contains e.1)).map (fun e => (e.1, padTo 256 e.2))
    let live := liveTracks k.tracks
    let call : Call := {
      addr := 0, ctx := 0xFF, slot := n, n := k.dets.length, m := live.length, bidLimit := p.trk.bidLimit
      matrix := matrixOf p.trk k.dets embs (live.map (·.2)), internal := true }
    let taken := decide (s.stc.queue.length < 64)
    (s.stcEnqueue call).modTrk n (fun k =>
      if taken then { k with stage := .submitted, embs := embs, cols := live.map (·.1) } else k)

def execTrackingEmbeddingsReady (slot : Nat) (emb : List (Nat × List Byte)) (s : State) :
    Host.Outcome State Fault Refusal :=
  whenReady s (s.trackEmbeddings slot emb)

/-! ### Step 5: the life of tracks (R287, R308, R309) -/

/-- The box has some area inside the picture. -/
def boxInside (b : FBox) (pw ph : Nat) : Bool :=
  wLt (wMax b.x0 0#32) (wMin b.x1 (wOfInt pw)) && wLt (wMax b.y0 0#32) (wMin b.y1 (wOfInt ph))

/-- What an association does to one track: the track after it, whether it is deleted, whether it became
confirmed from tentative, and from coasting. -/
structure Fate where
  t : Track
  dead : Bool
  confirmed : Bool
  back : Bool
  deriving DecidableEq, Repr

def fateOf (p : Pic) (t : Track) (hit : Option (Detection × Option (List Byte))) : Fate :=
  let cfg := p.trk
  let out := !boxInside t.box p.width p.height
  let t := { t with flags := t.flags &&& 0xFB }
  match hit with
  | some (d, e) =>
    let u := t.update cfg d
    let u := { u with hits := min 65535 (u.hits + 1), score := d.score, misses := 0
                      emb := e.getD u.emb, flags := if e.isSome then u.flags ||| 1 else u.flags }
    let conf := t.state == 1 && decide (cfg.confirmHits ≤ u.hits)
    let u := if conf then { u with state := 2, globalId := u.id } else if t.state = 3 then { u with state := 2 } else u
    ⟨u, out, conf, t.state == 3⟩
  | none =>
    if t.state = 1 then ⟨t, true, false, false⟩
    else if t.state = 2 then ⟨{ t with state := 3, misses := 1 }, out, false, false⟩
    else
      let m := min 65535 (t.misses + 1)
      ⟨{ t with misses := m }, out || decide (cfg.maxMiss ≤ m), false, false⟩

/-- The next serial after `v`. -/
def serialAfter (v : Nat) : Nat := if 0xFFFFFE ≤ v then 1 else v + 1

/-- The first serial from `v` that no live track holds. -/
def freeSerial (used : List Nat) : Nat → Nat → Nat
  | 0, v => v
  | fuel + 1, v => if used.contains v then freeSerial used fuel (serialAfter v) else v

/-- A birth (R287, R297, R309). -/
def SlotTrack.birth (k : SlotTrack) (n : Nat) (p : Pic) (d : Detection) (e : Option (List Byte)) : SlotTrack :=
  let used := (liveTracks k.tracks).map (fun t => t.2.id % 2 ^ 24)
  let v := freeSerial used 1025 k.nextSerial
  match findUp (fun i => (tget {} k.tracks i).state == 0) 0 1024 with
  | none => k
  | some i =>
    let t := Track.start p.trk d p.pts
    { k with nextSerial := serialAfter v
             tracks := tset {} k.tracks i { t with
               id := n * 2 ^ 24 + v, state := 1, cls := d.cls, score := d.score, emb := e.getD []
               flags := b2n e.isSome } }

/-- Births of the unmatched detections, in descending score. -/
def State.births (s : State) (n : Nat) (p : Pic) (matched : List Nat) : State :=
  let k0 := (s.slot n).trk
  let cand := (byScore k0.dets).filter (fun i => !matched.contains i && (match k0.dets[i]? with
    | some d => !wLt d.score p.trk.birthScore
    | none => false))
  cand.foldl (fun s i =>
    let k := (s.slot n).trk
    match k.dets[i]? with
    | none => s
    | some d =>
      if (liveTracks k.tracks).length < p.cfg.stream.maxTracks then
        (s.modTracks n (fun k => k.birth n p d (embOf k.embs i))).count n 0x72 1
      else s.count n 0x73 1) s

/-- A search is issued for a newly confirmed track of a link group with an embedding (R312). -/
def State.linkTrack (s : State) (n : Nat) (p : Pic) (t : Track) : State :=
  if p.cfg.stream.linkGroup = 0 ∨ !t.embOk then s
  else
    let q : GSearch := { slot := n, track := t.id, version := s.gallery.version, cls := t.cls, emb := t.emb, entries := s.gallery.entries }
    ({ s with gallery := { s.gallery with searches := s.gallery.searches ++ [q] } }).count n 0x79 1

/-- Step 5 and step 6 with the Stitcher's result. -/
def State.associate (s : State) (n : Nat) (p : Pic) : State :=
  let k := (s.slot n).trk
  let rows := (upto 0 k.result.length).zip k.result
  let fates := ((upto 0 k.cols.length).zip k.cols).map (fun c =>
    let hit := (rows.find? (fun r => r.2 == some c.1)).bind (fun r => (k.dets[r.1]?).map (fun d => (d, embOf k.embs r.1)))
    (c.2, fateOf p (tget {} k.tracks c.2) hit))
  let matched := rows.filterMap (fun r => if r.2.isSome then some r.1 else none)
  let dead := fates.filter (fun f => f.2.dead)
  let s := s.count n 0x71 matched.length
  let s := (s.count n 0x74 (fates.filter (fun f => f.2.confirmed || f.2.back)).length).count n 0x75 dead.length
  let s := s.modTracks n (fun k => { k with
    tracks := fates.foldl (fun ts f => tset {} ts f.1 (if f.2.dead then {} else f.2.t)) k.tracks })
  let s := s.births n p matched
  let s := (fates.filter (fun f => f.2.confirmed && !f.2.dead)).foldl (fun s f => s.linkTrack n p f.2.t) s
  let dets := ((upto 0 k.dets.length).zip k.dets).map (fun d =>
    let t := ((rows.find? (fun r => r.1 == d.1)).bind (·.2)).bind (fun j => fates[j]?)
    (d.2, match t with
      | some f => if f.2.t.state = 2 ∨ f.2.t.state = 3 then f.2.t.id else 0xFFFFFFFF
      | none => 0xFFFFFFFF))
  s.finishPic n p dets (viewsOf (s.slot n).trk.tracks (k.deleted ++ dead.map (fun f => f.2.t)))

def State.trackAssigned (s : State) (n : Nat) : State :=
  match s.frontAt n .assigned with
  | none => s
  | some p => s.associate n p

def execTrackingAssignmentReady (slot : Nat) (s : State) : Host.Outcome State Fault Refusal :=
  whenReady s (s.trackAssigned slot)

/-! ### The gallery (R311 to R313) -/

/-- Gallery entries by dot product with an embedding, descending, ties to the lower index: the top `k`. -/
def topDots (emb : List Byte) : Nat → List (Nat × GalleryEntry) → List (Nat × GalleryEntry)
  | 0, _ => []
  | k + 1, es =>
    match es.foldl (fun (b : Option (Nat × GalleryEntry)) e => match b with
      | some x => if dotInt8 x.2.emb emb < dotInt8 e.2.emb emb then some e else b
      | none => some e) none with
    | none => []
    | some b => b :: topDots emb k (es.filter (fun e => e.1 != b.1))

/-- The entry that gives the track its global_id. -/
def State.linkOf (s : State) (q : GSearch) (failing : List Nat) : Option GalleryEntry :=
  let x := (s.slot q.slot).cfg
  let es := q.entries.filterMap (fun e => if failing.contains e.1 then none else e.2.map (fun g => (e.1, g)))
  ((topDots q.emb x.track.topK es).map (·.2)).find? (fun g =>
    g.slot != q.slot && (s.slot g.slot).cfg.stream.linkGroup == x.stream.linkGroup && g.cls == q.cls
      && decide (x.track.linkGate ≤ cosQ g.emb q.emb))

/-- The global_id that a search gives its track, and whether it links it: the entry found, and in a lock-step follower what
the leader recorded (R313). None: the record has not come. -/
def State.linkFor (s : State) (q : GSearch) (failing : List Nat) : Option (Nat × Bool) :=
  if s.follower then
    ((s.slot q.slot).trk.recorded.find? (fun r => r.1 == q.track)).map (fun r => (r.2, r.2 != q.track))
  else match s.linkOf q failing with
    | some g => some (g.globalId, true)
    | none => some (q.track, false)

/-- A search completes: the track takes its global_id and is inserted; G and the global_id enter the chain. -/
def State.searchDone (s : State) (n track : Nat) (failing : List Nat) : State :=
  match s.gallery.searches.find? (fun q => q.slot == n && q.track == track) with
  | none => s
  | some q => match s.linkFor q failing with
   | none => s
   | some link =>
    let s := { s with gallery := { s.gallery with searches := s.gallery.searches.erase q } }
    match (s.slot n).trk.tracks.find? (fun t => t.2.state != 0 && t.2.id == track) with
    | none => s
    | some (e, t) =>
      let gid := link.1
      let i := s.gallery.version % (s.slot 0).cfg.track.gallerySize
      let g : GalleryEntry := { trackId := track, globalId := gid, slot := n, cls := t.cls, pts := t.ptsLast, emb := t.emb }
      let s := s.modTracks n (fun k => { k with
        recorded := k.recorded.filter (fun r => r.1 != track)
        tracks := tset {} k.tracks e { t with
          globalId := gid, galleryIdx := i, flags := if link.2 then t.flags ||| 2 else t.flags } })
      let s := { s with gallery := { s.gallery with
        entries := tset none s.gallery.entries i (some g), version := s.gallery.version + 1 } }
      (s.chainLate n { typ := 8, sub := 0, forced := true, key2 := track
                       payload := leBytes 4 track ++ leBytes 8 q.version ++ leBytes 4 gid }).count n 0x7A (b2n link.2)

def execGallerySearchComplete (slot track : Nat) (failing : List Nat) (s : State) : Host.Outcome State Fault Refusal :=
  whenReady s (s.searchDone slot track failing)

end Sys2Proof.Machine
end

