-- ==== Sys2Proof/Machine/VideoDecode.lean ====
section
/-! DEFINITION. The decode engines (R57 to R91): stamps and the decode queue, the choice of a picture, yields,
abandonment, substitution, output, frame-buffer contents and motion fields. -/
namespace Sys2Proof.Machine
open Sys2Proof

/-! ### Times and costs (R71, R75) -/

/-- The frame interval I in VIDEO_CLK cycles. -/
def StreamCfg.interval (v : StreamCfg) : Nat := 2800000000 * v.frDen / (3 * v.frNum)

/-- avg: the average cost of a picture. -/
def StreamCfg.avgCost (v : StreamCfg) : Nat :=
  ceilDiv (v.maxW * v.maxH * (if v.payload = 2 then 28 else if v.payload = 3 then 7 else 14)) 15

/-- Bytes of the decode queue (R65, R74). -/
def StreamCfg.queueBytes (v : StreamCfg) : Nat := alignUp (4 * v.rate * v.frDen / v.frNum + v.burst) 65536

/-- Deadline of a picture stamped `t`. -/
def StreamCfg.deadline (v : StreamCfg) (t : Nat) : Option Nat :=
  if v.priority = 0 then some (t + v.interval) else if v.priority = 1 then some (t + 4 * v.interval) else none

/-- Ingest hands a released unit over: a unit that does not fit the queue becomes a token (R74). -/
def State.handover (s : State) (n : Nat) (u : AccessUnit) : State :=
  let x := s.slot n
  let t := (s.engine x.dec.engine).ticks
  let fits := u.token.isSome || decide (x.dec.used + u.bytes.length ≤ x.cfg.stream.queueBytes)
  let s := if fits then s else s.counts n [(0x29, 1), (0x0D, 1)]
  let u := if fits then u else { u with token := some 2, bytes := [], incomplete := false }
  s.modDec n (fun d => { d with
    queue := d.queue ++ [{ unit := u, stamp := t, deadline := u.cfg.stream.deadline t }], used := d.used + u.bytes.length })

/-! ### The engine's clock -/

/-- `dt` VIDEO_CLK cycles pass on an engine (R90, R91); those of a picture count for the contexts of its slot (R440). -/
def State.engTick (s : State) (e dt : Nat) : State :=
  let g := s.engine e
  let s := match g.st, g.work with
    | .idle, _ => s
    | _, some w => (s.count w.slot 0x2C dt).accountBound w.slot 10 dt
    | _, none => s
  s.modEngine e (fun g => { g with
    ticks := g.ticks + dt, busy := if g.st = .idle then g.busy else (g.busy + dt) % 2 ^ 64
    work := if g.st = .decoding then g.work.map (fun w => { w with cycles := w.cycles + dt }) else g.work })

/-- The engine is free. -/
def State.engFree (s : State) (e : Nat) : State :=
  s.modEngine e (fun g => { g with st := .idle, work := none, slotShown := 0 })

/-! ### Stopping a stream (R39, R79) -/

/-- A slot stops: its evidence ends, ingest holds nothing of it, its last group takes the final checkpoint. -/
def State.stopSlot (s : State) (n code unit detail : Nat) : State :=
  let s := s.evidEndSlot n
  let s := s.raise { code := code, unit := unit, detail := detail, slot := n }
  let s := s.modSlot n (fun x => { x with
    run := .stopped, stopFault := code, ing := { x.ing with units := [], candidate := none, edges := [] } })
  if (s.slot n).chain.groups.isEmpty then s.cutCheckpoint n 2 (s.slot n).chain.lastPts
  else s.modChain n (fun c => { c with finalDue := true })

/-! ### The fate of the head unit (R62, R77 to R81, R469) -/

inductive Plan where | decode | discard | subst (cause : Nat)
  deriving DecidableEq, Repr

/-- A refresh point by itself (R77). -/
def PicKind.irap : PicKind → Bool
  | .idr | .cra | .bla | .avKey | .jpeg => true
  | _ => false

/-- The SEI picture of a recovery count (R77). -/
def PicKind.recover : PicKind → Option Nat
  | .recovery k => some k
  | _ => none

/-- Profiles, levels and tools that the engines decode (R58 to R61). Film grain is parsed and not applied, and
field_seq_flag streams decode field by field. -/
def formSupported : CodedForm → Bool
  | .h265 f => (f.profile == .main || f.profile == .main10 || f.profile == .mainStill) && decide (f.level ≤ 62)
  | .h264 f =>
    (match f.profile with
     | .constrainedBaseline | .main | .high | .high10 => true
     | .baseline => !f.fmo && !f.aso && !f.redundantSlices
     | .extended | .high422 | .high444 | .svc | .mvc => false)
      && decide (f.level ≤ 62) && !f.fieldPicture && !f.mbaff
  | .av1 f => f.seqProfile == 0 && decide (f.level ≤ 63) && !f.largeScaleTile && f.operatingPoint == 0
  | .jpeg f => f.process == .baseline && f.precision == 8 && (f.components == 1 || f.components == 3) && f.sampling != .other

/-- Codec numbers (R85). -/
def formCodec : CodedForm → Nat
  | .h264 _ => 0
  | .h265 _ => 1
  | .av1 _ => 2
  | .jpeg _ => 3

/-- The picture lies inside the support tables, as a picture of its slot's payload format (R29, R62). -/
def PicHeader.profileOk (h : PicHeader) (v : StreamCfg) : Bool :=
  !h.readable || (formSupported h.form && (if v.payload = 4 then decide (formCodec h.form ≤ 1) else formCodec h.form == v.payload))

/-- Every NAL unit of the unit belongs to an enhancement layer: discarded before decode (R58). -/
def PicHeader.enhancement (h : PicHeader) : Bool := h.readable && match h.form with
  | .h265 f => decide (0 < f.layerId)
  | _ => false

/-- The headers as the engine uses them: of a unit without readable headers nothing is known but the picture before
it, of `w` × `h`, from which every block is concealed (R80). -/
def PicHeader.read (hd : PicHeader) (v : StreamCfg) (w h : Nat) : PicHeader :=
  if hd.readable then { hd with kind := if v.payload = 3 then .jpeg else hd.kind }
  else { hd with kind := .other, missingRef := false, width := w, height := h, depth := v.depth, dpb := 0, crop := ⟨0, 0, w, h⟩ }

/-- A parameter set above the slot's admission (R69, R78). -/
def PicHeader.exceeds (h : PicHeader) (v : StreamCfg) : Bool :=
  decide (v.maxW < h.width) || decide (v.maxH < h.height) || decide (v.depth < h.depth) || decide (v.dpb < h.dpb)

/-- The decision, before the picture is decoded. -/
def planOf (d : SlotDecode) (u : AccessUnit) (h : PicHeader) : Plan :=
  match u.token with
  | some c => .subst c
  | none =>
    if PicHeader.enhancement h then .discard
    else if u.shed = 4 ∧ !PicKind.irap h.kind then .discard
    else if d.waiting.isSome ∧ !PicKind.irap h.kind ∧ (PicKind.recover h.kind).isNone ∧ d.recoverIn.isNone then .subst 6
    else if !PicHeader.profileOk h u.cfg.stream then .subst 3
    else if PicHeader.exceeds h u.cfg.stream then .subst 4
    else if h.kind = .rasl then .subst 11
    else if h.missingRef ∧ d.prev.isNone then .subst 8
    else .decode

/-- The slot waits for a refresh point from now on: a forced substitution or a takeover makes its cause 6
forced (R77, R447). -/
def SlotDecode.beginWait (d : SlotDecode) (k : WaitKind) : SlotDecode :=
  { d with recoverIn := none, waiting := match d.waiting with
      | some .forcedSubst => some .forcedSubst
      | some .takeover => some .takeover
      | _ => some k }

/-- Replay forces a substitution of this cause now. -/
def SlotDecode.forces (d : SlotDecode) (cause : Nat) : Bool :=
  forcedCause cause || (cause == 6 && (d.waiting == some .forcedSubst || d.waiting == some .takeover))

/-- What a lock-step leader decided about a unit: the forced cause it sent for it (R453). -/
def State.imposed (s : State) (n : Nat) (u : AccessUnit) : Option Nat :=
  if !s.follower then none
  else match (s.slot n).chain.leader.find? (fun p => p.1 == u.group) with
    | none => none
    | some p => (p.2.find? (fun e => fieldAt e 0 1 == 4 && forcedCause (fieldAt e 1 1) && fieldAt e 8 8 == u.ts)).map
        (fun e => fieldAt e 1 1)

/-! ### Chain entries and the end of a unit (R83, R445) -/

/-- Types 3 and 7 of a unit. -/
def State.unitEntries (s : State) (n : Nat) (u : AccessUnit) : State :=
  let s := if u.token.isSome then s else s.chainAdd n u.group {
    typ := 3, sub := b2n u.incomplete + 2 * b2n u.gap, raw := u.bytes
    payload := leBytes 8 u.ts ++ leBytes 4 u.bytes.length ++ sha512 u.bytes }
  u.edges.foldl (fun s e => s.chainAdd n u.group {
    typ := 7, sub := e.1, payload := leBytes 1 (b2n e.2) ++ leBytes 8 u.ts, forced := true }) s

/-- Pictures at the front of a slot without a detector need no analysis; they still end or begin a run of substituted
ones (R134). -/
def State.flowFree (n : Nat) : Nat → State → State
  | 0, s => s
  | k + 1, s => match (s.slot n).pics with
    | p :: _ =>
      if p.cfg.det.isNone && (s.slot n).trk.stage == .idle && !s.groupWaits n p.group then
        State.flowFree n k ((if p.skived then s else s.modDec n (fun d => { d with afterSubst := p.subst.isSome })).coastPic n p)
      else s
    | [] => s

/-- The decode of unit `g` has ended. -/
def State.endUnit (s : State) (n g : Nat) : State :=
  let s := s.modChain n (fun c => { c with groups := modWhere (fun x => x.num == g) (fun x => { x with ended := true }) c.groups })
  (State.flowFree n (s.slot n).pics.length s).settleGroups n

/-! ### Output (R67, R80 to R85, R89, R97) -/

/-- The motion-field header (R85). -/
def fieldHeader (pts seq slot flags w h codec : Nat) : List Byte :=
  padTo 64 (leBytes 8 pts ++ leBytes 4 seq ++ leBytes 1 slot ++ leBytes 1 flags ++ leBytes 2 (ceilDiv w 16)
    ++ leBytes 2 (ceilDiv h 16) ++ leBytes 1 codec)

def Pic.fieldFlags (p : Pic) : Nat :=
  b2n p.subst.isSome + 2 * b2n p.concealed + 4 * b2n p.degraded + 8 * b2n p.noInter + 16 * b2n p.refresh

/-- Frame byte offset of a buffer's motion field. -/
def State.fieldOffset (s : State) (h : Nat) : Nat :=
  match tget none s.tkp.extents (s.fb (fbIndex h)).extent with
  | some x => x.frame
  | none => 0

/-- A picture leaves its slot in output order during the decode of unit `g`. A substituted one refers to the
last good picture; before the first good one it has no buffer and no records. The field of one without a buffer of
its own goes with the picture (R84, R89, assumption 53). -/
def State.outPic (s : State) (n g e : Nat) (p : Pic) : State :=
  let x := s.slot n
  let seq := x.dec.outSeq
  let s := s.modDec n (fun d => { d with outSeq := (seq + 1) % 2 ^ 32 })
  let note := modWhere (fun (y : Group) => y.num == g) (fun y => { y with outs := y.outs ++ [(seq, p.pts)] })
  let s := s.modChain n (fun c => { c with groups := note c.groups })
  let own := p.handle
  let s : State := match own with
    | some h => s.fbStore (s.portWays e) h (s.fieldOffset h) (leBytes 8 p.pts ++ leBytes 4 seq ++ leBytes 1 n ++ leBytes 1 p.fieldFlags)
    | none => s
  let s : State := match p.subst with
    | some c => (s.count n 0x21 1).chainAdd n g (substEntry c p.pts seq p.forced)
    | none =>
      let s := s.count n 0x20 1
      match own with
      | none => s
      | some h =>
        let s := s.fbTakeSvc h false
        let s := match x.dec.lastGood with
          | some old => s.fbDropSvc old false
          | none => s
        s.modDec n (fun d => { d with lastGood := some h, good := true })
  match (s.slot n).dec.lastGood with
  | none => s
  | some good =>
    let h := if p.subst.isSome then good else own.getD good
    let b := s.fb (fbIndex h)
    let field := if p.subst.isNone ∨ own.isSome then []
      else fieldHeader p.pts seq n p.fieldFlags b.picW b.picH b.codec ++ copies (8 * (ceilDiv b.picW 16 * ceilDiv b.picH 16)) 0#8
    let q := { p with seq := seq, handle := some h, group := g, width := b.picW, height := b.picH, field := field }
    ((s.fbTakeSvc h false).ringPush n q).modSlot n (fun x => { x with pics := x.pics ++ [q] })

/-- Counters, faults and waits of a picture that is not decoded (R62, R74, R76 to R79). A picture that waits on account
of an unsupported profile carries cause 6 (R77) and is counted and reported like the one that began the wait (R62,
assumption 123). -/
def State.substEffects (s : State) (n e cause : Nat) (follows : Bool) : State :=
  let fault := fun (s : State) (code : Nat) => if follows then s else s.raise { code := code, unit := 0x4000 + e, detail := n, slot := n }
  let wait := fun (s : State) (k : WaitKind) => s.modDec n (fun d => d.beginWait k)
  let check := fun (s : State) => wait (s.modDec n (fun d => { d with checked := some cause })) .checkedSubst
  if cause = 3 then check (fault (s.count n 0x23 1) fltDecProfile)
  else if cause = 4 then check (fault (s.count n 0x22 1) fltDecDimension)
  else if cause = 5 then wait (fault (s.count n 0x25 1) fltDecAbandon) .forcedSubst
  else if cause = 6 then
    let s := s.count n 0x26 1
    if (s.slot n).dec.checked = some 3 then fault (s.count n 0x23 1) fltDecProfile else s
  else if cause = 2 then wait s .forcedSubst
  else s

/-- R79: the run of pictures substituted under R62 or R78, those that wait on account of it included. -/
def State.substRun (s : State) (n e cause : Nat) (waited : Bool) : State :=
  let run := if cause = 3 ∨ cause = 4 ∨ (cause = 6 ∧ waited) then (s.slot n).dec.substRun + 1 else 0
  let s := s.modDec n (fun d => { d with substRun := run })
  if 16 ≤ run ∧ (s.slot n).run = .running then s.stopSlot n fltStreamStop (0x4000 + e) 1 else s

/-- A unit is substituted without a decoded picture. -/
def State.substUnit (s : State) (n e : Nat) (u : AccessUnit) (cause : Nat) (follows : Bool) : State :=
  let d := (s.slot n).dec
  let s := s.substEffects n e cause follows
  let s := s.unitEntries n u
  let forced := d.forces cause
  let s := s.outPic n u.group e {
    dec := d.decNo, cfg := u.cfg, pts := u.ts, handle := none, subst := some cause, forced := forced, edges := u.edges
    shed := u.shed, group := u.group }
  (s.substRun n e cause d.checked.isSome).endUnit n u.group

/-! ### Starting (R67, R72 to R74, R393) -/

/-- Slots of an engine with a head unit, in the engine's order: class, then deadline or stamp, then slot. -/
def State.heads (s : State) (e : Nat) : List (Nat × QUnit) :=
  let busy := fun (n : Nat) => match (s.engine e).yielded with
    | some w => w.slot == n
    | none => false
  let hs := s.slots.filterMap (fun p => match p.2.dec.queue with
    | q :: _ => if p.2.dec.engine = e ∧ p.2.run ≠ .unconfigured ∧ !busy p.1 ∧ !s.groupWaits p.1 q.unit.group
        ∧ q.stamp < (s.engine e).ticks then some (p.1, q) else none
    | [] => none)
  sortBy (fun p => (p.2.unit.cfg.stream.priority * 2 ^ 80 + p.2.deadline.getD p.2.stamp) * 256 + p.1) hs

/-- The slot can take a buffer (R67). -/
def State.canTakeFb (s : State) (n : Nat) : Bool := (s.fbGet n).isSome

/-- Takes the slot's head unit from its queue (R74). -/
def State.popUnit (s : State) (n : Nat) : State :=
  s.modDec n (fun d => match d.queue with
    | q :: t => { d with queue := t, used := d.used - q.unit.bytes.length }
    | [] => d)

/-- Starts the head picture of slot `n`. `bad`: its bytes failed their check (R44, R393). -/
def State.startPic (s : State) (e n : Nat) (q : QUnit) (hdr : PicHeader) (bad : Bool) : State :=
  let s := s.popUnit n
  let bad := bad && q.unit.token.isNone
  let u := if bad then { q.unit with token := some 9, bytes := [], incomplete := false } else q.unit
  let s := if bad then (s.count n 0x0D 1).raise { code := fltIntSubst, unit := e, slot := n } else s
  let s := if u.refreshWait then s.modDec n (fun d => { d with recoverIn := none, waiting := some (d.waiting.getD .shed) }) else s
  let before := s.fb (fbIndex ((s.slot n).dec.prev.getD 0))
  let h := PicHeader.read hdr u.cfg.stream before.picW before.picH
  match s.imposed n u with
  | some c => s.substUnit n e u c true
  | none => match planOf (s.slot n).dec u h with
    | .discard => (s.unitEntries n u).endUnit n u.group
    | .subst c => s.substUnit n e u c false
    | .decode => match s.fbGet n with
      | none => s
      | some (fb, s) => s.modEngine e (fun g => { g with
          st := .decoding, slotShown := n
          work := some { slot := n, q := { q with unit := u }, hdr := h, handle := fb, epoch := (s.slot n).chain.epoch } })

/-- Marks and counts the heads that wait for a buffer (R67, R91). -/
def State.markWaits (s : State) (hs : List (Nat × QUnit)) : State :=
  hs.foldl (fun s p => if p.2.waited || p.2.unit.token.isSome || s.canTakeFb p.1 then s
    else (s.count p.1 0x2A 1).modDec p.1 (fun d => match d.queue with
      | q :: t => { d with queue := { q with waited := true } :: t }
      | [] => d)) s

/-- An idle engine takes the next picture, or resumes its yielded one where no other is eligible. -/
def State.decodeStart (s : State) (e : Nat) (hdr : PicHeader) (bad : Bool) : State :=
  let g := s.engine e
  if g.st ≠ .idle ∨ s.decoderCount ≤ e then s
  else
    let hs := s.heads e
    let s := s.markWaits hs
    match hs.find? (fun p => p.2.unit.token.isSome || s.canTakeFb p.1) with
    | some p => s.startPic e p.1 p.2 hdr bad
    | none => match g.yielded with
      | none => s
      | some w => s.modEngine e (fun g => { g with
          st := .restoring, work := some w, yielded := none, slotShown := w.slot, switches := (g.switches + 1) % 2 ^ 64 })

def execDecodePictureStart (engine dt : Nat) (hdr : PicHeader) (bad : Bool) (s : State) : Host.Outcome State Fault Refusal :=
  whenUp s ((s.engTick engine dt).decodeStart engine hdr bad)

/-! ### Yield, save, restore (R75) -/

def State.decodeYield (s : State) (e : Nat) : State :=
  let g := s.engine e
  match g.st, g.work, g.yielded with
  | .decoding, some w, none =>
    if !w.again ∧ 10 * w.q.unit.cfg.stream.avgCost ≤ w.cycles then
      (s.count w.slot 0x24 1).modEngine e (fun g => { g with
        st := .saving, work := some { w with again := true }, switches := (g.switches + 1) % 2 ^ 64 })
    else s
  | _, _, _ => s

def execDecodeYield (engine dt : Nat) (s : State) : Host.Outcome State Fault Refusal :=
  whenUp s ((s.engTick engine dt).decodeYield engine)

def State.decodeSaved (s : State) (e : Nat) : State :=
  if (s.engine e).st = .saving then
    s.modEngine e (fun g => { g with st := .idle, yielded := g.work, work := none, slotShown := 0 })
  else s

def execDecodeSaveDone (engine dt : Nat) (s : State) : Host.Outcome State Fault Refusal :=
  whenUp s ((s.engTick engine dt).decodeSaved engine)

def State.decodeRestored (s : State) (e : Nat) : State :=
  if (s.engine e).st = .restoring then s.modEngine e (fun g => { g with st := .decoding }) else s

def execDecodeRestoreDone (engine dt : Nat) (s : State) : Host.Outcome State Fault Refusal :=
  whenUp s ((s.engTick engine dt).decodeRestored engine)

/-! ### Buffer contents (R69, R70) -/

/-- Samples `x` to `x + n - 1` of a line, with the nearest of them outside, up to `len`. -/
def padLine {α : Type} (x n len : Nat) (z : α) (line : List α) : List α :=
  let mid := (line.drop x).take n
  (copies x (mid.headD z) ++ mid ++ copies (len - x - mid.length) (mid.getLast?.getD z)).take len

/-- Rows of a plane padded to `cols` × `rows`: outside the window every sample is the nearest inside it, columns
first (R69). -/
def padPlane {α : Type} (win : Rect) (cols rows : Nat) (z : α) (rs : List (List α)) : List (List α) :=
  padLine win.y win.h rows (copies cols z) (rs.map (padLine win.x win.w cols z))

/-- A cropping window in chroma samples. -/
def Rect.halved (r : Rect) : Rect := ⟨r.x / 2, r.y / 2, ceilDiv r.w 2, ceilDiv r.h 2⟩

/-- Sums neighbouring pairs of a row; an odd last sample is paired with itself (assumption 123). -/
def pairSums : List Nat → List Nat
  | a :: b :: t => (a + b) :: pairSums t
  | [a] => [a + a]
  | [] => []

/-- Adjacent rows combined two by two, an odd last row with itself (assumption 123). -/
def pairRows : List (List Nat) → List (List Nat)
  | a :: b :: t => List.zipWith (· + ·) a b :: pairRows t
  | [a] => [List.zipWith (· + ·) a a]
  | [] => []

/-- A chroma plane of a JPEG as 4:2:0 (R70): `none` where the image has one component. -/
def jpegChroma (w h : Nat) (c : List Nat) : List Nat :=
  let hw := ceilDiv w 2
  if c.isEmpty then copies (hw * ceilDiv h 2) 128
  else if c.length = w * h then
    ((pairRows (chunks w h c)).map pairSums).flatMap (fun r => r.map (fun v => (v + 2) / 4))
  else if c.length = hw * h then (pairRows (chunks hw h c)).flatMap (fun r => r.map (fun v => (v + 1) / 2))
  else c

/-- A sample as stored: NV12, or P010 with an 8-bit stream shifted left by 2. -/
def storedSample (slotDepth picDepth v : Nat) : Nat :=
  if slotDepth = 8 then v % 256 else (if picDepth = 8 then v * 4 else v) * 64 % 65536

/-- Bytes of a stored sample. -/
def sampleSize (slotDepth : Nat) : Nat := if slotDepth = 8 then 1 else 2

/-- The two planes of a buffer in rows of stored samples: luma, and CbCr pairs. -/
structure Planes where
  luma : List (List Nat)
  chroma : List (List (Nat × Nat))
  deriving DecidableEq, Repr

/-- What a decode gives, of the picture's own dimensions. A monochrome AV1 picture has no chroma samples: what its
buffer holds there is open (R69, assumption 123). -/
def decodedPlanes (v : StreamCfg) (h : PicHeader) (d : DecodedPic) : Planes :=
  let st := storedSample v.depth h.depth
  let hw := ceilDiv h.width 2
  let cv := fun (c : List Nat) =>
    if v.payload = 3 then jpegChroma h.width h.height c
    else if c.isEmpty then copies (hw * ceilDiv h.height 2) (Config.monochromeChroma h.depth % 2 ^ h.depth) else c
  { luma := chunks h.width h.height (d.luma.map st)
    chroma := chunks hw (ceilDiv h.height 2) (((cv d.cb).zip (cv d.cr)).map (fun p => (st p.1, st p.2))) }

/-- Samples of a line of which block `k` of `n` samples comes from `other` where `gone k`. -/
def blendLine {α : Type} (gone : Nat → Bool) (n : Nat) (line other : List α) : List α :=
  let parts := chunks n (line.length / n + 1) line
  ((upto 0 parts.length).zip parts).flatMap (fun p => if gone p.1 then ((other.drop (p.1 * n)).take n ++ p.2.drop (other.length - p.1 * n)).take p.2.length else p.2)

/-- Concealed blocks copy the co-located blocks of another buffer (R80). -/
def Planes.conceal (x : Planes) (blocksW : Nat) (gone : Nat → Bool) (other : Planes) : Planes :=
  let rows := fun {α : Type} (n : Nat) (own ref : List (List α)) =>
    ((upto 0 own.length).zip own).map (fun p => blendLine (fun k => gone (p.1 / n * blocksW + k)) n p.2 (ref.getD p.1 []))
  { luma := rows 16 x.luma other.luma, chroma := rows 8 x.chroma other.chroma }

/-- The bytes of the two planes of a buffer (R69). -/
def frameData (v : StreamCfg) (win : Rect) (x : Planes) : List Byte :=
  let sw := alignUp v.maxW 64
  let sh := alignUp v.maxH 64
  let b := leBytes (sampleSize v.depth)
  (padPlane win sw sh 0 x.luma).flatMap (fun r => r.flatMap b)
    ++ (padPlane (Rect.halved win) (sw / 2) (sh / 2) (0, 0) x.chroma).flatMap (fun r => r.flatMap (fun p => b p.1 ++ b p.2))

/-- The planes that a buffer of the slot holds. -/
def State.planesAt (s : State) (v : StreamCfg) (h : Nat) : Planes :=
  let sw := alignUp v.maxW 64
  let sh := alignUp v.maxH 64
  let n := sampleSize v.depth
  let nats := fun (o len : Nat) => (chunks n len (s.fbBytes h o (len * n))).map leNat
  let pairs := (chunks 2 (sw * sh / 4) (nats (sw * sh * n) (sw * sh / 2))).map (fun c => (c.getD 0 0, c.getD 1 0))
  { luma := chunks sw sh (nats 0 (sw * sh)), chroma := chunks (sw / 2) (sh / 2) pairs }

/-! ### The motion field (R84 to R89) -/

/-- Division rounded half to even. -/
def rneDiv (a : Int) (b : Nat) : Int :=
  let q := a / (b : Int)
  let r := 2 * (a % (b : Int))
  if r < (b : Int) ∨ (r = (b : Int) ∧ q % 2 = 0) then q else q + 1

/-- A unit's vector per output interval: divided by the signed distance, 1 when it is 0. -/
def perInterval (mv dist : Int) : Int :=
  if dist = 0 then mv else if dist < 0 then rneDiv (-mv) dist.natAbs else rneDiv mv dist.natAbs

/-- Mean over the inter units, saturated to int16. -/
def meanMv (vs : List Int) : Int :=
  if vs.isEmpty then 0 else clampI (rneDiv (vs.foldl (· + ·) 0) vs.length) (-32768) 32767

/-- The vectors of a block's inter units: that of list 0, otherwise that of list 1. -/
def BlockInfo.vectors (b : BlockInfo) : List MvRef := b.inter.filterMap (fun u => match u.l0 with
  | some r => some r
  | none => u.l1)

/-- One 64-bit entry of the field, of a picture of order `order`: a vector is divided by the signed distance from the
picture to its reference (R87). -/
def blockEntry (v : StreamCfg) (order : Int) (noInter : Bool) (b : BlockInfo) : Nat :=
  if b.concealed then 2 ^ 58
  else
    let vs := BlockInfo.vectors b
    let mx := meanMv (vs.map (fun u => perInterval u.mvX (u.order - order)))
    let my := meanMv (vs.map (fun u => perInterval u.mvY (u.order - order)))
    let res := min (b.residual / 16) 65535
    let change := !noInter && !b.skip && (decide (v.tIntra ≤ b.intra16) || decide (v.tMv ≤ mx.natAbs + my.natAbs) || decide (v.tRes ≤ res))
    wrap 16 mx + wrap 16 my * 2 ^ 16 + b.intra16 * 2 ^ 32 + res * 2 ^ 40 + b2n change * 2 ^ 56 + b2n b.skip * 2 ^ 57
      + b2n vs.isEmpty * 2 ^ 59

/-- A block that a decode does not give: concealed. -/
def noBlock : BlockInfo := ⟨[], 0, 0, false, true⟩

/-- The blocks of a picture of `w` × `h`, one for each entry of its field (R84). -/
def fieldBlocks (w h : Nat) (bs : List BlockInfo) : List BlockInfo :=
  let n := ceilDiv w 16 * ceilDiv h 16
  (bs ++ copies (n - bs.length) noBlock).take n

/-- The field a decoded picture is stored with; its header's output number comes with its output. One that is output
as substituted while its slot still waits has entries of zero (R89). -/
def fieldData (n : Nat) (v : StreamCfg) (h : PicHeader) (order : Int) (p : Pic) (blocks : List BlockInfo) : List Byte :=
  fieldHeader p.pts 0 n p.fieldFlags h.width h.height (formCodec h.form)
    ++ (fieldBlocks h.width h.height blocks).flatMap (fun b => leBytes 8 (if p.subst = some 6 then 0 else blockEntry v order p.noInter b))

/-! ### The end of a decode (R76, R80, R81, R393) -/

/-- What a decoded picture does to its slot's refresh state (R77, R81): is it a refresh point, is it still
awaited (cause 6), is it degraded, and the new state. -/
structure Refreshed where
  refresh : Bool
  waits : Bool
  degraded : Bool
  dec : SlotDecode
  deriving DecidableEq, Repr

def SlotDecode.onDecoded (d : SlotDecode) (h : PicHeader) : Refreshed :=
  let left := if PicKind.irap h.kind then some 0 else match d.recoverIn with
    | some k => some k
    | none => PicKind.recover h.kind
  let refresh := left == some 0
  let waits := d.waiting.isSome && !refresh
  let degraded := h.missingRef || (!refresh && d.degraded)
  { refresh := refresh, waits := waits, degraded := degraded
    dec := { d with
      waiting := if refresh then none else d.waiting, checked := if refresh then none else d.checked, degraded := degraded
      recoverIn := if refresh then none else left.map (· - 1) } }

/-- A picture leaves the DPB: one not yet output is never output. -/
def State.leaveDpb (s : State) (n k : Nat) : State :=
  let d := (s.slot n).dec
  match d.dpb.find? (fun p => p.1 == k) with
  | none => s
  | some (_, h) => (s.modDec n (fun d => { d with
      dpb := d.dpb.filter (fun p => p.1 != k), hold := d.hold.filter (fun p => p.dec != k) })).fbDropSvc h false

/-- A held picture is output. -/
def State.outHeld (s : State) (n g e k : Nat) : State :=
  match (s.slot n).dec.hold.find? (fun p => p.dec == k) with
  | none => s
  | some p => (s.modDec n (fun d => { d with hold := d.hold.filter (fun p => p.dec != k) })).outPic n g e p

/-- A reference met a Class R failure: the picture is substituted, and the slot waits (R393). -/
def State.refFailed (s : State) (e : Nat) (w : Work) : State :=
  let n := w.slot
  let s := (s.fbDropSvc w.handle false).raise { code := fltIntSubst, unit := e, addr := s.fbAddr ((s.slot n).dec.prev.getD w.handle) 0, slot := n }
  (s.substUnit n e w.q.unit 9 false).modDec n (fun d => d.beginWait .forcedSubst)

/-- The buffer from which a picture's missing blocks are copied: that of the first picture of list 0, or of the previous
picture in decode order (R80). -/
def State.concealFrom (s : State) (n : Nat) (d : DecodedPic) (own : Nat) : Nat :=
  let x := (s.slot n).dec
  let l0 := d.list0.bind (fun k => (x.dpb.find? (fun p => p.1 == k)).map (·.2))
  (l0.orElse (fun _ => x.prev)).getD own

/-- A picture is decoded: stored, kept in the DPB, and what became ready is output. -/
def State.decoded (s : State) (e : Nat) (w : Work) (d : DecodedPic) : State :=
  let n := w.slot
  let u := w.q.unit
  let v := u.cfg.stream
  let old := (s.slot n).dec
  let r := old.onDecoded w.hdr
  let blocks := if w.hdr.readable then fieldBlocks w.hdr.width w.hdr.height d.blocks
    else fieldBlocks w.hdr.width w.hdr.height []
  let concealed := d.truncated || blocks.any (·.concealed)
  let cause := if r.waits then some 6 else if concealed then some 7 else none
  let p : Pic := {
    dec := old.decNo, cfg := u.cfg, pts := u.ts, handle := some w.handle, subst := cause, forced := r.waits && old.forces 6
    degraded := r.degraded, concealed := concealed, refresh := r.refresh, noInter := !(blocks.any (fun b => !(BlockInfo.vectors b).isEmpty))
    width := w.hdr.width, height := w.hdr.height, group := u.group, edges := u.edges, shed := u.shed }
  let s := s.unitEntries n u
  let late := match w.q.deadline with
    | some t => decide (t < (s.engine e).ticks)
    | none => false
  let s := s.counts n ((if r.waits then [(0x26, 1)] else []) ++ (if concealed then [(0x27, 1)] else [])
    ++ (if r.degraded then [(0x28, 1)] else []) ++ (if late then [(0x2B, 1)] else []))
  let ways := s.portWays e
  let own := decodedPlanes v w.hdr d
  let planes := if !concealed then own else own.conceal (ceilDiv w.hdr.width 16) (fun k => (blocks.getD k noBlock).concealed)
    (s.planesAt v (s.concealFrom n d w.handle))
  let s := s.fbStore ways w.handle 0 (frameData v w.hdr.crop planes)
  let s := s.fbStore ways w.handle (s.fieldOffset w.handle) (fieldData n v w.hdr d.order p blocks)
  let s := s.modFb (fbIndex w.handle) (fun f => { f with picW := w.hdr.width, picH := w.hdr.height, codec := formCodec w.hdr.form })
  let s := s.modDec n (fun _ => { r.dec with
    dpb := old.dpb ++ [(old.decNo, w.handle)], hold := old.hold ++ [p], decNo := old.decNo + 1, prev := some w.handle })
  let s := s.substRun n e 0 false
  let s := d.ready.foldl (fun s k => s.outHeld n u.group e k) s
  let s := d.leave.foldl (fun s k => s.leaveDpb n k) s
  s.endUnit n u.group

/-- The picture in decode completes. One of an earlier configuration, which only the loss of its slot's contents
leaves running, drops its buffer. -/
def State.decodeDone (s : State) (e : Nat) (d : DecodedPic) : State :=
  let g := s.engine e
  match g.st, g.work with
  | .decoding, some w =>
    let s := s.engFree e
    if (s.slot w.slot).chain.epoch ≠ w.epoch then s.fbDropSvc w.handle false
    else if d.failed && !s.follower then s.refFailed e w
    else s.decoded e w d
  | _, _ => s

/-! ### Abandonment (R76) -/

/-- The deadline plus I has passed on the engine's counter. -/
def QUnit.overdue (q : QUnit) (ticks : Nat) : Bool :=
  match q.deadline with
  | some t => decide (t + q.unit.cfg.stream.interval ≤ ticks)
  | none => false

def Work.spent (w : Work) (ticks : Nat) : Bool :=
  decide (100 * w.q.unit.cfg.stream.avgCost ≤ w.cycles) || w.q.overdue ticks

/-- The picture of slot `n` that an engine holds, or the head that waits for it, is given up. A lock-step
follower gives up none (R453). -/
def State.abandon (s : State) (n : Nat) : State :=
  let x := s.slot n
  let e := x.dec.engine
  let g := s.engine e
  let mine := fun (w : Work) => w.slot == n && w.epoch == x.chain.epoch && w.spent g.ticks
  let give := fun (s : State) (w : Work) => (s.fbDropSvc w.handle false).substUnit n e w.q.unit 5 false
  if s.follower then s
  else match g.work.filter mine, g.yielded.filter mine with
    | some w, _ => give (s.engFree e) w
    | none, some w => give (s.modEngine e (fun g => { g with yielded := none })) w
    | none, none =>
      if (g.work.any (fun w => w.slot == n)) || (g.yielded.any (fun w => w.slot == n)) then s
      else match x.dec.queue with
        | q :: _ => if q.unit.token.isNone && q.overdue g.ticks then (s.popUnit n).substUnit n e q.unit 5 false else s
        | [] => s

/-! ### The end of a configuration (R67, R73, R83, R415) -/

/-- An engine holds a picture of the slot, running or yielded, that its present configuration began. -/
def State.decodes (s : State) (n : Nat) : Bool :=
  let x := s.slot n
  let g := s.engine x.dec.engine
  let mine := fun (w : Work) => w.slot == n && w.epoch == x.chain.epoch
  g.work.any mine || g.yielded.any mine

/-- Units of the slot's queue, which leave with its configuration: accepted, so their digests enter the chain, and
tokens their substitutions (R83). -/
def State.flushUnits (s : State) (n : Nat) : State :=
  (s.slot n).dec.queue.foldl (fun s q =>
    let s := s.unitEntries n q.unit
    match q.unit.token with
    | none => s
    | some c =>
      let seq := (s.slot n).dec.outSeq
      (s.modDec n (fun d => { d with outSeq := (seq + 1) % 2 ^ 32 })).chainAdd n q.unit.group
        (substEntry c q.unit.ts seq ((s.slot n).dec.forces c))) s

/-- Every frame buffer that a slot's decoding holds returns, and its queue is empty. A yielded picture is
dropped. -/
def State.decodeEndSlot (s : State) (n : Nat) : State :=
  let d := (s.slot n).dec
  let s := d.dpb.foldl (fun s p => s.fbDropSvc p.2 false) s
  let s := match d.lastGood with
    | some h => s.fbDropSvc h false
    | none => s
  let s := match (s.engine d.engine).yielded with
    | some w => if w.slot = n then (s.modEngine d.engine (fun g => { g with yielded := none })).fbDropSvc w.handle false else s
    | none => s
  s.modDec n (fun d => { engine := d.engine })

end Sys2Proof.Machine
end

