-- ==== Sys2Proof/Machine/SlotCtl.lean ====
section
/-! DEFINITION. Slot configuration: admission (R40, R57, R63 to R66, R93, R97, R449, R458, R503), the end of a
configuration (R415, R448), a new one (R287, R337, R443), and the frame boundary (R528, R470). -/
namespace Sys2Proof.Machine
open Sys2Proof

/-! ### Checks -/

/-- Parameter ranges beyond each entry's own (R63, R133), and the named engine (R57). -/
def State.shapeOk (s : State) (c : SlotCfg) : Bool :=
  let v := c.stream
  (v.payload == 3 || decide (v.maxW * v.maxH ≤ 35651584)) && (v.payload != 3 || v.depth == 8) && (v.depth == 8 || v.depth == 10)
    && (v.payload != 2 || v.dpb == 8) && decide (1 ≤ v.frDen) && decide (v.frDen ≤ v.frNum) && decide (v.frNum ≤ 240 * v.frDen)
    && (v.engine == 255 || decide (v.engine < s.decoderCount)) && decide (c.steer.sweepPhase < v.sweepN)

/-- Twice the admitted weighted rate of the slots on an engine, as a fraction (R64). -/
def State.decLoad (s : State) (e n : Nat) : Nat × Nat :=
  ratSum ((s.slots.filter (fun p => p.2.admitted && p.1 != n && p.2.dec.engine == e)).map
    (fun p => (p.2.cfg.stream.rate2, 2 * p.2.cfg.stream.frDen)))

def fitsIn (load : Nat × Nat) (v : StreamCfg) (limit : Nat) : Bool :=
  let l := ratSum [load, (v.rate2, 2 * v.frDen)]
  decide (l.1 ≤ limit * l.2)

/-- The engine a slot is bound to (R57, R64), within the limit of one die (R503). -/
def State.pickEngine (s : State) (n : Nat) (v : StreamCfg) : Option Nat :=
  let all := ratSum ((upto 0 s.decoderCount).map (fun e => s.decLoad e n))
  let total := if s.fuses.part = 1 then 5000000000 else 6000000000
  if s.mem.lostDie.isSome && !fitsIn all v total then none
  else
    let es := if v.engine = 255 then upto 0 s.decoderCount else [v.engine]
    es.find? (fun e => fitsIn (s.decLoad e n) v 1000000000)

/-- Jitter storage in pages (R40). -/
def StreamCfg.jitterPages (v : StreamCfg) : Nat := ceilDiv (v.rate * v.jitterMs + v.burst * 1000) 65536000 + 1

/-- Evidence buffers of a slot (R97). -/
def SlotCfg.evidBufs (c : SlotCfg) : Nat := c.evid.preroll + c.evid.guardPics + 8

/-- Evidence parameters: their joint ranges, a level up to 5.1, and the fallback bound (R93, R108). -/
def SlotCfg.evidOk (c : SlotCfg) : Bool :=
  let e := c.evid
  let v := c.stream
  let w := (e.crop.map (·.w)).getD v.maxW
  let h := (e.crop.map (·.h)).getD v.maxH
  decide (4 * e.bitRate * v.frDen ≤ e.cpbSize * v.frNum) && decide (e.cpbSize ≤ 40000000) && decide (e.minQp ≤ e.maxQp)
    && (match e.crop with | some r => cropOk r v.maxW v.maxH | none => true)
    && areaOk e v w h

/-- The signing rate of all slots with slot `n` at configuration `c` (R449). -/
def State.signOk (s : State) (n : Nat) (c : SlotCfg) : Bool :=
  let of := fun (v : StreamCfg) => (v.frNum, v.frDen * v.checkpointEvery)
  let l := ratSum (of c.stream :: (s.slots.filter (fun p => p.2.admitted && p.1 != n)).map (fun p => of p.2.cfg.stream))
  decide (l.1 ≤ 2000 * l.2)

/-! ### Contexts and rules of a slot -/

/-- Contexts bound to a slot: those named for it that run, and those bound before (R444). -/
def State.boundOf (s : State) (n : Nat) : List Nat :=
  (upto 0 64).filter (fun c => bit (s.ctxRun c).bound n && ((s.ctx c).live || (s.slot n).cfg.bound.contains c))

/-- The committed configuration of a slot. -/
def State.newCfg (s : State) (n : Nat) : SlotCfg := { s.slotCfgOf n with bound := s.boundOf n }

/-- The rules whose committed or present slot is `n` take their committed configuration; a rule that
changes starts afresh. -/
def State.applyRules (s : State) (n : Nat) : State :=
  let here := (upto 0 1024).filter (fun r => s.odNum (0x8400 + r) 1 == n || ((s.rule r).cfg.enable && (s.rule r).cfg.slot == n))
  here.foldl (fun s r =>
    let c := s.ruleCfgOf r
    if c = (s.rule r).cfg then s else s.modRule r (fun _ => if c.enable then { cfg := c } else {})) s

/-! ### Reservations -/

/-- A reservation of `count` pages made, resized or ended to match. -/
def State.matchReserv (s : State) (old : Option Nat) (pool count : Nat) (set : Nat) : Option (Option Nat × State) :=
  match old with
  | none => if count = 0 then some (none, s) else (s.reserve pool count 0 set).map (fun r => (some r.1, r.2))
  | some r =>
    if count = 0 then some (none, s.endReserv r) else (s.resizeReserv r count).map (fun s => (some r, s))

/-- A frame-buffer extent with its own reservation (R65, R97, R415). -/
def State.makeExtent (s : State) (n : Nat) (evidence : Bool) (v : StreamCfg) (bufs : Nat) : Option State :=
  match s.reserve (if evidence then 3 else 1) (extentPages v.maxW v.maxH v.depth bufs) 0 s.mem.videoSet with
  | none => none
  | some (res, s) => s.formExtent n evidence v.maxW v.maxH v.depth bufs res

/-- The slot's evidence extent belongs to the past. -/
def State.retireEvid (s : State) (n : Nat) : State :=
  ((s.slotExtents n).filter (fun x => x.2.evidence)).foldl (fun s x =>
    let xs := tset none s.tkp.extents x.1 (some { x.2 with old := true })
    ({ s with tkp := { s.tkp with extents := xs } }).settleExtent x.1) s

/-- Buffers of the slot's current evidence extent. -/
def State.evidHave (s : State) (n : Nat) : Nat :=
  ((s.slotExtents n).filter (fun x => x.2.evidence)).foldl (fun k x => k + x.2.first.length) 0

/-- Evidence buffers that match a configuration: reserved now, the old ones retired (R97). A slot that gives
evidence up keeps them until its frame boundary. -/
def State.matchEvid (s : State) (n : Nat) (c : SlotCfg) : Option State :=
  if !c.stream.evidEnable ∨ s.evidHave n = c.evidBufs then some s
  else (s.retireEvid n).makeExtent n true c.stream c.evidBufs

/-- Pages of the audit ring (R450), from the general pool on the service set. -/
def State.matchAudit (s : State) (n : Nat) (c : SlotCfg) : Option State :=
  let want := if c.audit.enable then c.audit.pages else 0
  let x := s.slot n
  if want = x.chain.audPages.length then some s
  else
    let s := match x.audRes with
      | some r => s.endReserv r
      | none => s
    if want = 0 then some (s.modSlot n (fun x => { x with audRes := none, chain := { x.chain with audPages := [], audHead := 0 } }))
    else match s.reserve 2 want 0 s.mem.svcSet with
      | none => none
      | some (r, s) => match s.allocPages r 0 false want [] with
        | none => none
        | some (ps, s) => some (s.modSlot n (fun x => { x with audRes := some r, chain := { x.chain with audPages := ps, audHead := 0 } }))

/-- Steps 4 to 7 of R537 for a slot, with its queue: the code of the first check that fails. -/
def State.admitRest (s : State) (n : Nat) (c : SlotCfg) (extra : Nat) : Except Nat State :=
  let x := s.slot n
  let v := c.stream
  match s.matchReserv x.queueRes 1 (v.queueBytes / 65536) s.mem.videoSet with
  | none => .error fltAdmitPool
  | some (q, s) => match s.matchReserv x.jitRes 2 v.jitterPages s.mem.videoSet with
    | none => .error fltAdmitPool
    | some (j, s) =>
      let s := s.modSlot n (fun x => { x with queueRes := q, jitRes := j })
      if v.evidEnable && !c.evidOk then .error fltVenParam
      else match s.matchEvid n c with
        | none => .error fltAdmitPool
        | some s => match s.matchAudit n c with
          | none => .error fltAdmitPool
          | some s =>
            if !s.signOk n c then .error fltKprSignRate
            else if !s.energyAdmits extra then .error fltRneBudget
            else .ok s

/-! ### Sources on the network (R28, R30) -/

/-- A slot's source is a 25G port and a multicast group. -/
def StreamCfg.grouped (v : StreamCfg) : Bool := decide (v.source < 2) && v.group.any (fun b => b != 0#8)

/-- The slot's group is joined or left on its port, unless another configured slot uses it there. -/
def State.membership (s : State) (n : Nat) (v : StreamCfg) (join : Bool) : State :=
  let shared := s.slots.any (fun p => p.1 != n && p.2.run != .unconfigured && p.2.cfg.stream.source == v.source
    && p.2.cfg.stream.group == v.group)
  if v.grouped && !shared then s.emit (.membership v.source v.group join) else s

/-- A request of the slot's RTSP client, in the configured version; it answers the server's last challenge. -/
def State.rtspSend (s : State) (n method : Nat) : State :=
  let v := (s.slot n).cfg.stream
  let digest := match (s.slot n).ing.rtsp.auth with
    | some c => Config.digestAnswer (c.alg == .sha256) c.realm c.nonce v.url method
    | none => []
  s.emit (.rtsp n method v.rtspVersion (method == 2 && v.grouped) (s.slot n).ing.rtsp.session digest)

/-- The client opens its session; it refuses RTSPS. -/
def State.rtspOpen (s : State) (n : Nat) : State :=
  if (s.slot n).cfg.stream.url.take 6 == ascii "rtsps:" then
    (s.raise { code := fltIngRtsp, slot := n }).modIng n (fun i => { i with rtsp := { i.rtsp with phase := 6 } })
  else s.rtspSend n 0

/-! ### The end of a configuration -/

/-- The slot's configuration ends: evidence, pictures, groups with the final checkpoint, buffers and
reservations (R101, R415, R448). -/
def State.endSlot (s : State) (n : Nat) : State :=
  let x := s.slot n
  if x.run = .unconfigured then s
  else
    let s := (s.evidEndSlot n).flushUnits n
    let s := if x.run = .shadow then s
      else if (s.slot n).chain.groups.isEmpty then
        (if x.run = .stopped then s else s.cutCheckpoint n 2 (s.slot n).chain.lastPts)
      else
        let s := s.modChain n (fun c => { c with finalDue := true })
        s.closeThrough n (s.slot n).chain.nextGroup
    let s := x.pics.foldl (fun s p => match p.handle with
      | some h => s.fbDropSvc h false
      | none => s) s
    let s := (s.decodeEndSlot n).retireExtents n
    let s := if x.ing.rtsp.phase ≠ 0 ∧ x.ing.rtsp.phase ≠ 6 then s.rtspSend n 5 else s
    let s := s.membership n x.cfg.stream false
    -- records that still wait for the mirror go out with their configuration (R486)
    let s := (s.slot n).chain.heldRecs.foldl (fun s r => s.route n r.1 r.2.2) s
    let s := [x.jitRes, x.queueRes, x.audRes].foldl (fun s r => match r with
      | some r => s.endReserv r
      | none => s) s
    (s.emptyTracks n).modSlot n (fun x => {
      run := .unconfigured, shedNext := x.shedNext
      chain := { epoch := x.chain.epoch, seq := x.chain.seq, oldSeq := x.chain.seq } })

/-! ### A new configuration -/

/-- Ticks a second of a slot's arrival counter (R27, R39). -/
def hzOf (source : Nat) : Nat := if source = 2 then 200000000 else 156250000

/-- The arrival counter of a slot's source (R26): the ports, or the push path. -/
def portOf (source : Nat) : Nat := if source = 2 then 3 else source

/-- shed_mode of a slot while shedding step `step` is the highest in force (R469). -/
def shedFor (priority step : Nat) : Nat := if priority = 0 ∨ step < 3 then 0 else min step 5

/-- A shadow begins: no track and no rule state has been mirrored to it (R287). -/
def State.newShadow (s : State) (n : Nat) : State :=
  { s with pair := { s.pair with shadows := tmod {} s.pair.shadows n (fun h => { h with nextSerial := 1, tracks := [], rules := [] }) } }

/-- The slot runs under its committed configuration from now on. -/
def State.startSlot (s : State) (n e : Nat) (c : SlotCfg) : State :=
  let t := (s.port (portOf c.stream.source)).ticks
  let hz := hzOf c.stream.source
  let own := s.owns n
  let ing : SlotIngest := {
    bucket := c.stream.burst * hz, bucketTick := t, winIdx := t / hz
    rtsp := if c.stream.url.isEmpty || !own then {} else { phase := 1 } }
  let s := s.modSlot n (fun x => { x with
    run := if own then .running else .shadow, cfg := c, pendingCfg := false, shedMode := 0
    shedNext := shedFor c.stream.priority s.pwr.step, stopFault := 0, ing := ing, dec := { engine := e }
    pics := [], ring := [], trk := {}, counters := [] })
  let s := if own then s else s.newShadow n
  let s := s.applyRules n
  let s := s.genesis n
  let s := if own then c.bound.foldl (fun s k => s.bindEntry n k 0 0) s else s
  let s := s.membership n c.stream true
  if c.stream.url.isEmpty || !own then s else s.rtspOpen n

/-- A slot is configured from its committed entries: the checks of R537 in order. -/
def State.reconfigureNow (s : State) (n : Nat) : Except Nat State :=
  let s := s.endSlot n
  let c := s.newCfg n
  let v := c.stream
  if !v.enable then .ok s
  else if s.noAdmission then .error fltRneStandby
  else if !s.shapeOk c then .error fltAdmitShape
  else match s.pickEngine n v with
    | none => .error fltAdmitRate
    | some e => match s.makeExtent n false v (v.dpb + 2) with
      | none => .error fltAdmitPool
      | some s => match s.admitRest n c (if s.owns n then v.energy else 0) with
        | .error code => .error code
        | .ok s => .ok (s.startSlot n e c)

/-- A reconfiguration during a decode is checked now, and applies when the picture has completed (R73,
assumption 124). -/
def State.reconfigure (s : State) (n : Nat) : Except Nat State :=
  match s.reconfigureNow n with
  | .error code => .error code
  | .ok t => .ok (if s.decodes n then s.modSlot n (fun x => { x with redo := true }) else t)

/-- The picture in decode has ended: a reconfiguration that waited for it applies. Where it no longer fits, the slot is
left unconfigured, with the refusal's fault. -/
def State.applyRedo (s : State) (n : Nat) : State :=
  if (s.slot n).redo && !s.decodes n then
    let s := s.modSlot n (fun x => { x with redo := false })
    match s.reconfigureNow n with
    | .ok t => t
    | .error code => (s.endSlot n).raise { code := code, detail := 0x2100 + n, slot := n }
  else s

/-- The slot whose picture an engine holds. -/
def State.engSlot (s : State) (e : Nat) : Nat := match (s.engine e).work with
  | some w => w.slot
  | none => 0

def execDecodeComplete (engine dt : Nat) (d : DecodedPic) (s : State) : Host.Outcome State Fault Refusal :=
  whenUp s (((s.engTick engine dt).decodeDone engine d).applyRedo (s.engSlot engine))

def execDecodeAbandon (slot dt : Nat) (s : State) : Host.Outcome State Fault Refusal :=
  whenUp s (((s.engTick (s.slot slot).dec.engine dt).abandon slot).applyRedo slot)

/-- Class F changes of a running slot: checked and reserved at the commit, in force at the frame boundary. -/
def State.scheduleSlot (s : State) (n : Nat) : Except Nat State :=
  let x := s.slot n
  if x.run = .unconfigured then .ok s
  else
    let c := s.newCfg n
    if !s.shapeOk c then .error fltAdmitShape
    else match s.admitRest n c 0 with
      | .error code => .error code
      | .ok s => .ok (s.modSlot n (fun x => { x with pendingCfg := true }))

/-! ### Promotion and return of a slot (R496, R497, R500, R501) -/

/-- A standing context starts under R428, without the energy check (R484). -/
def State.startStanding (s : State) (c : Nat) : State :=
  if (s.ctx c).live && (s.ctx c).standing then (s.startPartition c).rebind c else s

/-- The mirrored state of a slot becomes its own: chain, seq, tracks, rules (R496). -/
def State.loadShadow (s : State) (n : Nat) : State :=
  let h := tget {} s.pair.shadows n
  if !h.valid then s
  else
    let s := (s.modTracks n (fun k => { k with nextSerial := h.nextSerial, tracks := h.tracks })).checkpoint n
    let s := s.modSlot n (fun x => { x with
      chain := { x.chain with h := h.h, seq := h.seq, cpNumber := h.cpNumber, cpFirst := h.cpFirst, closed := max x.chain.closed h.group } })
    h.rules.foldl (fun s r => s.modRule r.1 (fun k => { r.2 with cfg := k.cfg })) s

/-- A shadow slot is analysed from its next released unit on: that unit takes a type-1 entry for the new
owner (R497), and an RTSP source is opened (R499). -/
def State.promote (s : State) (n : Nat) (kind : WaitKind) (gap : Bool) : State :=
  let h := tget {} s.pair.shadows n
  let rtsp := !(s.slot n).cfg.stream.url.isEmpty
  let s := s.modSlot n (fun x =>
    let i := { x.ing with gapNext := x.ing.gapNext || gap, rtsp := if rtsp then { phase := 1 } else x.ing.rtsp }
    { x with
      run := .running, shedNext := shedFor x.cfg.stream.priority s.pwr.step
      ing := if rtsp && h.valid && !i.started then
          { i with started := true, ssrc := some h.ssrc, extSeq := h.extSeq, highSeq := h.extSeq, extTs := h.extTs, lastTs := wrap 32 h.extTs }
        else i
      dec := { x.dec with waiting := some kind }
      chain := { x.chain with cfgChange := true, nextGroup := max x.chain.nextGroup h.group } })
  if rtsp then s.rtspOpen n else s

/-- The receiver of a planned handover has released the slot's first refresh point: it analyses from there
on, and its groups wait for the owner's final state (R501). -/
def State.takeSlot (s : State) (n ts : Nat) : State :=
  let s := (s.slot n).cfg.bound.foldl State.startStanding s
  let s := (s.promote n .configured false).modChain n (fun c => { c with awaitFinal := true })
  let s := { s with pair := { s.pair with
    taking := without n s.pair.taking, moved := without n s.pair.moved
    taken := if s.pair.taken.contains n then s.pair.taken else s.pair.taken ++ [n] } }
  s.stirrupSend 4 ([1#8] ++ leBytes 1 n ++ leBytes 8 ts)

/-- A slot becomes a shadow: its pictures, evidence and open groups are given up (R500, R501). -/
def State.toShadow (s : State) (n : Nat) : State :=
  let x := s.slot n
  if x.run = .unconfigured ∨ x.run = .shadow then s
  else
    let s := s.evidEndSlot n
    let s := x.pics.foldl (fun s p => match p.handle with
      | some h => s.fbDropSvc h false
      | none => s) s
    let s := s.decodeEndSlot n
    let s := if x.ing.rtsp.phase ≠ 0 ∧ x.ing.rtsp.phase ≠ 6 then s.rtspSend n 5 else s
    let s := (s.slot n).chain.heldRecs.foldl (fun s r => s.route n r.1 r.2.2) s
    ((s.emptyTracks n).newShadow n).modSlot n (fun y => { y with
      run := .shadow, pics := [], ring := [], trk := {}, protect := false, shedMode := 0
      dec := { engine := y.dec.engine }, ing := { y.ing with rtsp := {}, edges := [] }
      chain := { y.chain with groups := [], late := [], heldRecs := [], awaitFinal := false } })

/-! ### The frame boundary (R469, R470, R474, R528) -/

/-- Tokens of the policer at tick `t`, in bytes × counter frequency (R38). -/
def Slot.tokensAt (x : Slot) (t : Nat) : Nat :=
  let v := x.cfg.stream
  min (v.burst * hzOf v.source) (x.ing.bucket + (t - x.ing.bucketTick) * v.rate)

/-- Pending class F changes take effect; the type-1 entry belongs to the unit about to be released. -/
def State.applyFrame (s : State) (n : Nat) : State :=
  let x := s.slot n
  if !x.pendingCfg then s
  else
    let c := s.newCfg n
    let t := (s.port (portOf c.stream.source)).ticks
    let s := (c.bound.filter (fun k => !x.cfg.bound.contains k)).foldl (fun s k => s.bindEntry n k 0 0) s
    let s := (x.cfg.bound.filter (fun k => !c.bound.contains k)).foldl (fun s k => s.bindEntry n k 1 0) s
    let s := s.modSlot n (fun x => { x with
      cfg := c, pendingCfg := false, chain := { x.chain with cfgChange := true }
      ing := { x.ing with bucket := min (x.tokensAt t) (c.stream.burst * hzOf c.stream.source), bucketTick := t } })
    let s := s.applyRules n
    if x.cfg.stream.evidEnable && !c.stream.evidEnable then (s.evidEndSlot n).retireEvid n else s

/-- A pending shed_mode takes effect. -/
def State.applyShed (s : State) (n : Nat) : State :=
  s.modSlot n (fun x =>
    if x.shedNext = x.shedMode then x
    else { x with
      shedMode := x.shedNext
      run := if x.shedNext = 5 ∧ x.run = .running then .suspended else if x.run = .suspended then .running else x.run
      chain := { x.chain with cfgChange := true } })

end Sys2Proof.Machine
end

