-- ==== Sys2Proof/Machine/Rtp.lean ====
section
/-! DEFINITION. RTP payload formats (R29): what a packet's payload adds to its access unit, as an Annex B byte stream
for H.264 (RFC 6184, modes 0 and 1) and H.265 (RFC 7798 without DONL); arrival counters (R27); session
descriptions that admission refuses. The layouts are those of the standards that R29 names (assumption 117). -/
namespace Sys2Proof.Machine
open Sys2Proof

/-- Ticks pass on a port's arrival counter. -/
def PortState.tick (p : PortState) (dt : Nat) : PortState := { p with ticks := p.ticks + dt }

/-- A datagram, or a read, arrives `dt` ticks after the port's last event, and is stamped: 48 bits (R24, R27). -/
def PortState.arrive (p : PortState) (dt : Nat) : PortState := { p.tick dt with stamp := (p.ticks + dt) % 2 ^ 48 }

/-! ### Payload formats -/

/-- A NAL unit of a byte stream. -/
def startCoded (nal : List Byte) : List Byte := [0#8, 0#8, 0#8, 1#8] ++ nal

/-- The NAL units of an aggregation packet, each behind its 16-bit big-endian length. -/
def aggregated : Nat → List Byte → List Byte
  | 0, _ => []
  | k + 1, b =>
    let n := (b.headD 0#8).toNat * 256 + ((b.drop 1).headD 0#8).toNat
    if b.length < 2 ∨ n = 0 then [] else startCoded ((b.drop 2).take n) ++ aggregated k (b.drop (2 + n))

/-- H.264: a single NAL unit, STAP-A (24) or FU-A (28). -/
def depacketise264 (b : List Byte) : List Byte :=
  let h := (b.headD 0#8).toNat
  let fu := ((b.drop 1).headD 0#8).toNat
  if b.isEmpty then []
  else if h % 32 = 24 then aggregated b.length (b.drop 1)
  else if h % 32 = 28 then
    (if bit fu 7 then startCoded [BitVec.ofNat 8 (h / 32 * 32 + fu % 32)] else []) ++ b.drop 2
  else if 1 ≤ h % 32 ∧ h % 32 ≤ 23 then startCoded b
  else []

/-- H.265: a single NAL unit, AP (48) or FU (49); no PACI (50). -/
def depacketise265 (b : List Byte) : List Byte :=
  let h := (b.headD 0#8).toNat
  let fu := ((b.drop 2).headD 0#8).toNat
  let ty := h / 2 % 64
  if b.length < 2 then []
  else if ty = 48 then aggregated b.length (b.drop 2)
  else if ty = 49 then
    (if bit fu 7 then startCoded [BitVec.ofNat 8 (h / 128 * 128 + fu % 64 * 2 + h % 2), (b.drop 1).headD 0#8] else []) ++ b.drop 3
  else if ty < 48 then startCoded b
  else []

/-- What a packet's payload adds to its unit: H.264, H.265, AV1, JPEG, and the PES payload of a transport stream. -/
def depacketise (format : Nat) (b : List Byte) : List Byte :=
  if format = 0 then depacketise264 b
  else if format = 1 then depacketise265 b
  else if format = 4 then b
  else Config.depacketise format b

/-- What R29 refuses of a session description, for a slot's payload format. -/
def Sdp.refused (d : Sdp) (format : Nat) : Bool :=
  if format = 0 then d.packetizationMode == 2
  else if format = 1 then decide (0 < d.maxDonDiff)
  else if format = 2 then decide (1 < d.operatingPoints)
  else if format = 3 then !([0, 1, 64, 65].contains d.jpegType)
  else d.tsOverRtp || decide (1 < d.videoPids)

end Sys2Proof.Machine
end

