-- ==== Sys2Proof/Machine/Ingest.lean ====
section
/-! DEFINITION. Stream ingest (R26 to R49): datagrams, sequence and timestamp extension, the jitter buffer, the
policer, release, and aligned fusion. -/
namespace Sys2Proof.Machine
open Sys2Proof

/-! ### Release (R33, R37, R44, R445, R528) -/

/-- `dt` ticks pass on the arrival counter of a slot's source. -/
def State.srcTick (s : State) (n dt : Nat) : State :=
  s.modPort (portOf (s.slot n).cfg.stream.source) (fun p => p.tick dt)

def State.srcTicks (s : State) (n : Nat) : Nat := (s.port (portOf (s.slot n).cfg.stream.source)).ticks

/-- A unit of a running slot takes its group: pending changes apply at this frame boundary, edges are paired
with it (R53), and the decode engine receives it. -/
def State.groupUnit (s : State) (n : Nat) (u : AccessUnit) (back : Bool) : State :=
  let s := (s.applyShed n).applyFrame n
  let (g, s) := s.openGroup n
  let x := s.slot n
  let edges := if x.cfg.fusion.member then [] else x.ing.edges.map (fun e => (e.line, e.level))
  let u := { u with
    cfg := x.cfg, group := g, shed := x.shedMode, gap := u.gap || back, refreshWait := u.refreshWait || back, edges := edges }
  (s.modIng n (fun i => { i with edges := [] })).handover n u

/-- A released unit, counted (R45); the entry that fills a member's place in a fusion set is no unit and no token of
R44. A shadow discards it (R483), but for the refresh point at which a planned handover takes
the slot; its old owner discards from there on (R501). -/
def State.enterUnit (s : State) (n : Nat) (u : AccessUnit) (back : Bool) : State :=
  let fill := u.token == some 12
  let s := s.counts n [(0x0B, b2n (!fill)), (0x0C, b2n u.incomplete), (0x0D, b2n (u.token.isSome && !fill))]
  let x := s.slot n
  if x.run = .shadow then
    if s.pair.taking.contains n && u.token.isNone && Config.refreshUnit x.cfg.stream.payload u.bytes then
      (s.takeSlot n u.ts).groupUnit n u false
    else (s.applyShed n).applyFrame n
  else if s.pair.giving.any (fun g => g.1 == n && decide (g.2 ≤ u.ts)) then s
  else s.groupUnit n u back

/-! ### Aligned fusion (R46 to R49) -/

/-- Members of a set, ascending. -/
def State.fusionMembers (s : State) (k : Nat) : List Nat :=
  (s.slots.filter (fun p => p.2.run == .running && p.2.cfg.fusion.member && p.2.cfg.fusion.set == k)).map (·.1)

def State.fusionSet (s : State) (k : Nat) : FusionSet := tget {} s.fusions k
def State.modFusion (s : State) (k : Nat) (f : FusionSet → FusionSet) : State :=
  { s with fusions := tmod {} s.fusions k f }

/-- A slot's extension of a 32-bit timestamp (R32). -/
def SlotIngest.extendTs (i : SlotIngest) (ts : Nat) : Int := i.extTs + sgn 32 (wrap 32 ((ts : Int) - (i.lastTs : Int)))

/-- A sender report's timestamp in the slot's extended time. -/
def SlotIngest.reported (i : SlotIngest) (r : SenderReport) : Int := r.rtpTs.getD (i.extendTs r.raw)

/-- A member's offset into the reference's time, and the reports it rests on (R46). -/
def State.fusionOffset (s : State) (ref m : Nat) : Option Int × List (Nat × List Byte) :=
  let c := (s.slot m).cfg.fusion
  if m = ref then (some 0, [])
  else if c.fixed then (some c.offset, [])
  else match (s.slot ref).ing.report, (s.slot m).ing.report with
    | some a, some b =>
      (some ((s.slot ref).ing.reported a - (s.slot m).ing.reported b + ((b.ntp : Int) - (a.ntp : Int)) * 90000 / 4294967296),
        [(ref, a.bytes), (m, b.bytes)])
    | _, _ => (none, [])

/-- Mapped time of a unit of member `m` for a set. -/
def FusionOpen.mapped (o : FusionOpen) (m ts : Nat) : Option Int :=
  (o.offsets.find? (fun p => p.1 == m)).map (fun p => (ts : Int) + p.2)

/-- A member's sample for a set: the nearest within the tolerance, the earlier of two equally near. -/
def FusionSet.sampleFor (f : FusionSet) (o : FusionOpen) (tol m : Nat) : Option (FusionSample × Int) :=
  let near := f.samples.filterMap (fun p => if p.member ≠ m then none else match o.mapped m p.unit.ts with
    | some t => if (t - o.time).natAbs ≤ tol then some (p, t) else none
    | none => none)
  minBy (fun p => (p.2 - o.time).natAbs * 2 + b2n (decide (o.time < p.2))) near

/-- A sample of a member mapped later than the window has been released (R48). -/
def FusionSet.later (f : FusionSet) (o : FusionOpen) (tol m : Nat) : Bool :=
  f.samples.any (fun p => p.member == m && (match o.mapped m p.unit.ts with
    | some t => decide (o.time + tol < t)
    | none => false))

/-- Samples before a set's window that no set took are left out and counted. -/
def State.fusionDrop (s : State) (k : Nat) (o : FusionOpen) (tol : Nat) : State :=
  let old := fun (p : FusionSample) => match o.mapped p.member p.unit.ts with
    | some t => decide (t < o.time - tol)
    | none => false
  let f := s.fusionSet k
  let s := (f.samples.filter old).foldl (fun s p => s.count p.member 0x10 1) s
  s.modFusion k (fun f => { f with samples := f.samples.filter (fun p => !old p) })

/-- A set's entries in the chain of one member: the reports used, then the set (R46, R48, R49). -/
def State.fusionEntries (s : State) (n g : Nat) (reports : List (Nat × List Byte)) (e : Entry) : State :=
  (reports.foldl (fun s r => s.chainAdd n g { typ := 5, sub := 0, payload := leBytes 1 r.1 ++ sha512 r.2 }) s).chainAdd n g e

/-- Releases the front set: a member without a sample is filled with a token that refers to its last good sample;
one that has had none takes the set's time (R48, assumption 63). -/
def State.fusionRelease (s : State) (k : Nat) (o : FusionOpen) (members : List Nat) (tol : Nat) : State :=
  let f := s.fusionSet k
  let picks := members.map (fun m => (m, if (o.offsets.head?).map (·.1) = some m then some (⟨m, o.ref⟩, o.time)
    else f.sampleFor o tol m))
  let mask := (upto 0 members.length).foldl (fun k i => k + b2n ((picks.getD i (0, none)).2.isNone) * 2 ^ i) 0
  let e : Entry := {
    typ := 6, sub := members.length, forced := true
    payload := leBytes 8 (wrap 64 o.time) ++ leBytes 2 (s.evtInState % 65536) ++ leBytes 1 mask
      ++ picks.flatMap (fun p => leBytes 8 (wrap 64 ((p.2.map (·.2)).getD 0))) }
  let s := s.modFusion k (fun f => { f with
    opens := f.opens.tail
    samples := f.samples.filter (fun p => !picks.any (fun q => q.2.any (fun r => r.1 == p))) })
  let s := picks.foldl (fun s p =>
    let g := (s.slot p.1).chain.nextGroup
    let s : State := match p.2 with
      | some r =>
        (if r.1.unit.token.isSome then s
          else s.modFusion k (fun f => { f with lastGood := tset none f.lastGood p.1 (some r.1.unit.ts) })).enterUnit p.1 r.1.unit false
      | none =>
        let ts := (tget none f.lastGood p.1).getD (wrap 64 o.time)
        (s.count p.1 0x0F 1).enterUnit p.1 { ts := ts, token := some 12 } false
    s.fusionEntries p.1 g o.reports e) s
  match (s.fusionSet k).opens with
  | next :: _ => s.fusionDrop k next tol
  | [] => s

/-- Releases every front set that is ready. -/
def State.fusionRun (k : Nat) : Nat → State → State
  | 0, s => s
  | fuel + 1, s =>
    let f := s.fusionSet k
    match f.opens, s.fusionMembers k with
    | o :: _, ms =>
      let ref := ((o.offsets.head?).map (·.1)).getD 0
      let tol := (s.slot ref).cfg.fusion.tol
      if ms.all (fun m => m == ref || (f.sampleFor o tol m).isSome || f.later o tol m || o.waited.contains m) then
        State.fusionRun k fuel (s.fusionRelease k o ms tol)
      else s
    | [], _ => s

/-- A member's unit is released by its jitter buffer: a reference unit opens a set (R47). -/
def State.fusionUnit (s : State) (n : Nat) (u : AccessUnit) : State :=
  let c := (s.slot n).cfg.fusion
  let k := c.set
  let s := if c.reference then
      let os := (s.fusionMembers k).map (fun m => (m, s.fusionOffset n m))
      let offs := (n, (0 : Int)) :: os.filterMap (fun p => if p.1 = n then none else p.2.1.map (fun v => (p.1, v)))
      let reps := (os.flatMap (fun p => p.2.2)).foldl (fun (a : List (Nat × List Byte)) r => if a.contains r then a else a ++ [r]) []
      let o : FusionOpen := { time := u.ts, ref := u, offsets := offs, reports := reps }
      let alone := (s.fusionSet k).opens.isEmpty
      let s := s.modFusion k (fun f => { f with opens := f.opens ++ [o] })
      if alone then s.fusionDrop k o c.tol else s
    else s.modFusion k (fun f => { f with samples := f.samples ++ [⟨n, u⟩] })
  State.fusionRun k (s.fusionSet k).opens.length s

/-- A member's waiting time, its jitter delay and two of its frame intervals, has passed in `us` (R48). -/
def StreamCfg.waitedOut (v : StreamCfg) (us : Nat) : Bool :=
  decide (v.jitterMs * 1000 * v.frNum + 2000000 * v.frDen ≤ us * v.frNum)

/-- R48: a member's waiting time since a reference sample's release passes, and the sets that wait for no more
members are released. -/
def State.fusionTimeout (s : State) (k m index us : Nat) : State :=
  if (s.slot m).cfg.stream.waitedOut us then
    let s := s.modFusion k (fun f => { f with
      opens := ((upto 0 f.opens.length).zip f.opens).map (fun p =>
        if p.1 = index then { p.2 with waited := p.2.waited ++ [m] } else p.2) })
    State.fusionRun k (s.fusionSet k).opens.length s
  else s

def execFusionSetTimeout (w : FusionWait) (s : State) : Host.Outcome State Fault Refusal :=
  whenUp s (s.fusionTimeout w.set w.member w.index w.us)

/-- R46: a member's latest sender report; its RTP timestamp is extended like the slot's, once that has a packet. -/
def State.senderReport (s : State) (n ntp rtpTs : Nat) (bytes : List Byte) : State :=
  if (s.slot n).run ≠ .running then s
  else s.modIng n (fun i => { i with
    report := some ⟨ntp, rtpTs, if i.started then some (i.extendTs rtpTs) else none, bytes⟩ })

def execRtcpSenderReport (slot ntp rtpTs : Nat) (report : List Byte) (s : State) : Host.Outcome State Fault Refusal :=
  whenUp s (s.senderReport slot ntp rtpTs report)

/-! ### Units of the jitter buffer (R33 to R35) -/

def HeldUnit.seqs (u : HeldUnit) : List Int := u.packets.map (·.seq)

def minInt (d : Int) (xs : List Int) : Int := xs.foldl min d
def maxInt (d : Int) (xs : List Int) : Int := xs.foldl max d

/-- First and last sequence number held, and the marker's. -/
def HeldUnit.lo (u : HeldUnit) : Int := minInt ((u.seqs.head?).getD 0) u.seqs
def HeldUnit.hi (u : HeldUnit) : Int := maxInt ((u.seqs.head?).getD 0) u.seqs
def HeldUnit.mark (u : HeldUnit) : Option Int := (u.packets.find? (·.marker)).map (·.seq)

/-- Sequence numbers missing up to the marker, or up to the last packet held. -/
def HeldUnit.gaps (u : HeldUnit) : List Int :=
  let end_ := u.mark.getD u.hi
  ((upto 0 ((end_ - u.lo).toNat + 1)).map (fun (k : Nat) => u.lo + (k : Int))).filter (fun q => !u.seqs.contains q)

/-- A sequence number that a restart skipped (R32). -/
def skipped (skips : List (Int × Int)) (q : Int) : Bool := skips.any (fun r => decide (r.1 ≤ q ∧ q < r.2))

/-- Packets of the unit never received: missing numbers but those a restart skipped, and continuity gaps. -/
def HeldUnit.lost (u : HeldUnit) (skips : List (Int × Int)) : Nat :=
  (u.gaps.filter (fun q => !skipped skips q)).length + u.ccLost

/-- Numbers from `e` up to a unit's first packet that no packet held and no restart skipped (R35). -/
def lostBefore (skips : List (Int × Int)) (e lo : Int) : Nat :=
  (lo - e).toNat - skips.foldl (fun k r => k + (min lo r.2 - max e r.1).toNat) 0

def HeldUnit.complete (u : HeldUnit) : Bool := u.mark.isSome && u.gaps.isEmpty && u.ccLost == 0

/-- Packets in sequence order. -/
def HeldUnit.bytes (u : HeldUnit) : List Byte :=
  (sortBy (fun (p : HeldPacket) => (p.seq - u.lo).toNat) u.packets).flatMap (·.bytes)

/-- The oldest held unit leaves the jitter buffer. At the frame boundary where shed_mode becomes 5 it is discarded: its
datagrams stand in the counters of their arrival, and in no other (R45, R469). -/
def State.releaseHeld (s : State) (n : Nat) : State :=
  let x := s.slot n
  match x.ing.units with
  | [] => s
  | u :: rest =>
    let s := s.modIng n (fun i => { i with units := rest, releasedTs := some u.ts })
    if x.shedNext = 5 then
      (s.applyShed n).modIng n (fun i => { i with expectSeq := none })
    else
      let gapSeq := match x.ing.expectSeq with
        | some e => lostBefore x.ing.skips e u.lo
        | none => 0
      let s := s.count n 0x05 (u.lost x.ing.skips + gapSeq)
      let next := maxInt (u.hi + 1) x.ing.expectSeq.toList
      let s := s.modIng n (fun i => { i with
        gapNext := false, expectSeq := some next, skips := i.skips.filter (fun r => decide (next < r.2)), paramSets := [] })
      let a : AccessUnit := {
        ts := wrap 64 u.ts, bytes := if u.policed then [] else x.ing.paramSets ++ u.bytes
        incomplete := !u.policed && !u.complete
        gap := x.ing.gapNext || u.gap || decide (0 < gapSeq), token := if u.policed then some 1 else none }
      let back := x.shedMode = 5
      if x.cfg.fusion.member ∧ x.run ≠ .shadow then s.fusionUnit n { a with gap := a.gap || back, refreshWait := back }
      else s.enterUnit n a back

/-- Complete units leave in timestamp order. -/
def State.releaseReady (n : Nat) : Nat → State → State
  | 0, s => s
  | k + 1, s => match (s.slot n).ing.units with
    | u :: _ => if u.complete then State.releaseReady n k (s.releaseHeld n) else s
    | [] => s

/-- Units up to timestamp `ts` leave, as they stand. -/
def State.releaseThrough (n : Nat) (ts : Int) : Nat → State → State
  | 0, s => s
  | k + 1, s => match (s.slot n).ing.units with
    | u :: _ => if u.ts ≤ ts then State.releaseThrough n ts k (s.releaseHeld n) else s
    | [] => s

/-- R33: deadlines that have passed. -/
def State.jitterDue (s : State) (n : Nat) : State :=
  let i := (s.slot n).ing
  let t := s.srcTicks n
  match (i.units.filter (fun u => decide (u.deadline ≤ t))).getLast? with
  | some u =>
    let s := State.releaseThrough n u.ts i.units.length s
    State.releaseReady n i.units.length s
  | none => s

def execJitterDeadline (slot dt : Nat) (s : State) : Host.Outcome State Fault Refusal :=
  whenUp s ((s.srcTick slot dt).jitterDue slot)

/-- Inserts into the ascending list of held units, or into the unit with this timestamp. -/
def placeIn (ts : Int) (deadline : Nat) (p : HeldPacket) (policed gap : Bool) (cc : Nat) : List HeldUnit → List HeldUnit
  | [] => [{ ts := ts, deadline := deadline, policed := policed, gap := gap, ccLost := cc, packets := [p] }]
  | u :: t =>
    if u.ts = ts then
      { u with policed := u.policed || policed, gap := u.gap || gap, ccLost := u.ccLost + cc, packets := u.packets ++ [p] } :: t
    else if ts < u.ts then
      { ts := ts, deadline := deadline, policed := policed, gap := gap, ccLost := cc, packets := [p] } :: u :: t
    else u :: placeIn ts deadline p policed gap cc t

/-- A packet joins its unit, or is late or a duplicate (R34); a policed one is only known, and the rest of its unit
is discarded with it, that which comes after it too (R44). -/
def State.placePacket (s : State) (n : Nat) (seq ts : Int) (p : Packet) (policed gap : Bool) (stamp : Nat) : State :=
  let x := s.slot n
  let held := x.ing.units.flatMap HeldUnit.seqs
  if x.ing.releasedTs.any (fun r => decide (ts ≤ r)) then s.count n 0x08 (b2n (!policed))
  else if held.contains seq then s.count n 0x07 (b2n (!policed))
  else
    let s := s.count n 0x06 (b2n (!policed && held.any (fun h => decide (seq < h))))
    let v := x.cfg.stream
    let due := stamp + v.jitterMs * (hzOf v.source / 1000)
    let k : HeldPacket := ⟨seq, p.marker, if policed then [] else depacketise v.payload p.payload⟩
    let part := policed || x.ing.unplaced.contains (p.ssrc, p.ts)
    let s := s.modIng n (fun i => { i with units := placeIn ts due k part gap (if policed then 0 else p.ccLost) i.units })
    State.releaseReady n (s.slot n).ing.units.length s

/-! ### Extension (R32, R36) -/

/-- extend() without its effect. -/
def SlotIngest.extend (i : SlotIngest) (p : Packet) : Int × Int :=
  if !i.started then ((p.seq : Int), (p.ts : Int))
  else (i.extSeq + sgn 16 (wrap 16 ((p.seq : Int) - i.extSeq)), i.extendTs p.ts)

/-- 3,000 or more ahead of the highest accepted, or 100 or more behind it. -/
def SlotIngest.far (i : SlotIngest) (seq : Int) : Bool :=
  i.started && (decide (3000 ≤ seq - i.highSeq) || decide (100 ≤ i.highSeq - seq))

def SlotIngest.commit (i : SlotIngest) (p : Packet) (seq ts : Int) : SlotIngest :=
  { i with started := true, extSeq := seq, extTs := ts, lastTs := p.ts, highSeq := if i.started then max i.highSeq seq else seq }

/-- A new source: held units go, extension restarts, and GAP_BEFORE follows. -/
def State.newSource (s : State) (n : Nat) : State :=
  (s.modIng n (fun i => { i with
    started := false, units := [], skips := [], candidate := none, releasedTs := none, expectSeq := none, gapNext := true
    report := i.report.map (fun r => { r with rtpTs := none }) })).count n 0x0A 1

/-- The restart at the candidate: the numbers it skips are not lost. -/
def State.resync (s : State) (n : Nat) (c : Packet) : State :=
  let i := (s.slot n).ing
  let up := wrap 16 ((c.seq : Int) - i.highSeq)
  let seq := i.highSeq + (if up = 0 then 65536 else up : Nat)
  let ts := i.extendTs c.ts
  (s.modIng n (fun j => { j.commit c seq ts with skips := j.skips ++ [(i.highSeq + 1, seq)] })).placePacket n seq ts c false true i.candTick

/-- A datagram that the policer passed. -/
def State.accepted (s : State) (n : Nat) (p : Packet) (stamp : Nat) : State :=
  let s := if (s.slot n).ing.ssrc.any (fun q => q != p.ssrc) then s.newSource n else s
  let s := s.modIng n (fun i => { i with ssrc := some p.ssrc, unplaced := i.unplaced.filter (fun q => q.1 == p.ssrc) })
  let cand := (s.slot n).ing.candidate
  let s := match cand with
    | none => s
    | some c =>
      let s := if p.seq = (c.seq + 1) % 65536 then s.resync n c else s
      s.modIng n (fun i => { i with candidate := none })
  let i := (s.slot n).ing
  let e := i.extend p
  if i.far e.1 then (s.modIng n (fun i => { i with candidate := some p, candTick := stamp })).count n 0x09 1
  else (s.modIng n (fun i => i.commit p e.1 e.2)).placePacket n e.1 e.2 p false false stamp

/-! ### The policer (R38, R39) -/

/-- Windows that have ended are judged; those without an offered byte end a run. -/
def State.windows (s : State) (n : Nat) : State :=
  let x := s.slot n
  let i := x.ing
  let w := s.srcTicks n / hzOf x.cfg.stream.source
  if w ≤ i.winIdx then s
  else
    let isOver := decide (i.winOffered < i.winDropped * 100)
    let run := if isOver then i.overruns + 1 else 0
    let s := s.modIng n (fun i => { i with
      winIdx := w, winOffered := 0, winDropped := 0, overruns := if i.winIdx + 1 < w then 0 else run })
    if x.cfg.stream.overrunLimit ≤ run ∧ (x.run = .running ∨ x.run = .suspended) then s.stopSlot n fltStreamStop 0 0 else s

def execPolicerWindowEnd (slot dt : Nat) (s : State) : Host.Outcome State Fault Refusal :=
  whenUp s ((s.srcTick slot dt).windows slot)

/-- Takes `len` bytes from the bucket: does the datagram pass? A lock-step follower polices none (R453). -/
def State.police (s : State) (n len : Nat) : Bool × State :=
  let x := s.slot n
  let t := s.srcTicks n
  let have_ := x.tokensAt t
  let cost := len * hzOf x.cfg.stream.source
  let ok := decide (cost ≤ have_) || s.follower
  (ok, (s.modIng n (fun i => { i with
      bucket := if ok then have_ - cost else have_, bucketTick := t, winOffered := i.winOffered + len
      winDropped := i.winDropped + (if ok then 0 else len) })).counts n
    ([(0x01, 1), (0x02, len)] ++ (if ok then [] else [(0x03, 1), (0x04, len)])))

/-! ### Datagrams (R26, R28, R32, R45, R469) -/

/-- The slot a datagram belongs to: the lowest of those that share its port, UDP port and group (R26,
assumption 116). A session that is down takes none (R31). -/
def State.slotFor (s : State) (p : Packet) : Option Nat :=
  (s.slots.find? (fun x =>
    let v := x.2.cfg.stream
    x.2.run != .unconfigured && v.source == p.port && v.udpPort == p.udpPort && v.group == padTo 16 p.group
      && (v.url.isEmpty || x.2.run == .shadow || decide (4 ≤ x.2.ing.rtsp.phase ∧ x.2.ing.rtsp.phase ≤ 5)))).map (·.1)

/-- What a port makes of a frame (R28): `taken` is a frame that the port ignores or that the Cantle handles. -/
inductive FrameKind where | good | taken | fragment | badChecksum | unsupported
  deriving DecidableEq, Repr

/-- VLAN interfaces of a 25G port: its own (0x1012, 0x1013) and those of the expert entries (0x1022, 0x1023). -/
def State.vlansOf (s : State) (port : Nat) : List Nat :=
  (s.odNum (0x1012 + port) 3 :: (upto 1 16).map (s.odNum (0x1022 + port))).filter (fun v => v != 0)

/-- A datagram over UDP. -/
def Carried.udp : Carried → Bool
  | .rtp | .tsDatagram | .srtp | .dtls => true
  | _ => false

/-- The subset of R28, on a port with VLAN interfaces `vlans`. A fragment and a wrong checksum come first, since the
unsupported-frame counter holds every other frame. -/
def FrameHead.kind (h : FrameHead) (vlans : List Nat) : FrameKind :=
  if h.control = .pause then .taken
  else if h.fragment || h.extHeaders.contains 44 then .fragment
  else if Carried.udp h.carried && (h.sum == .wrong || (h.sum == .zero && h.ipVersion != 4)) then .badChecksum
  else if h.control = .priorityPause ∨ 9216 < h.len ∨ h.serviceTag = true ∨ 1 < h.vlans.length
      ∨ h.vlans.any (fun v => !vlans.contains v) = true ∨ (h.ipVersion ≠ 4 ∧ h.ipVersion ≠ 6)
      ∨ h.extHeaders.any (fun e => e != 0) = true then .unsupported
  else match h.carried with
    | .rtp | .tsDatagram => .good
    | .host => .taken
    | .igmp v => if v = 3 then .taken else .unsupported
    | .mld v => if v = 2 then .taken else .unsupported
    | .srtp | .dtls | .other => .unsupported

/-- A datagram that the slot's payload format or its payload type rules out (R28, R29). -/
def Slot.foreign (x : Slot) (p : Packet) : Bool :=
  (p.head.carried == .tsDatagram) != (x.cfg.stream.payload == 4)
    || (p.head.carried == .rtp && x.ing.payloadType.any (fun t => t != p.payloadType))

/-- A good datagram reaches its slot. One that the policer drops is not the next packet after a resynchronisation
candidate (R32, assumption 116). -/
def State.slotPacket (s : State) (n : Nat) (p : Packet) : State :=
  let s := s.windows n
  let x := s.slot n
  if x.run = .stopped then s.count n 0x12 1
  else if x.shedMode = 5 ∧ x.shedNext = 5 then s.count n 0x11 1
  else
    let t := s.srcTicks n
    let s := s.modIng n (fun i => { i with
      payloadType := i.payloadType.orElse (fun _ => some p.payloadType)
      rtsp := { i.rtsp with delivered := true, backoffS := if i.rtsp.phase = 5 then 1 else i.rtsp.backoffS } })
    let r := s.police n p.ipLen
    if r.1 then r.2.accepted n p t
    else
      let i := (r.2.slot n).ing
      let e := i.extend p
      if i.started ∧ i.ssrc = some p.ssrc ∧ !i.far e.1 then r.2.placePacket n e.1 e.2 p true false t
      else r.2.modIng n (fun i => { i with unplaced := i.unplaced.filter (fun q => q != (p.ssrc, p.ts)) ++ [(p.ssrc, p.ts)] })

/-- Parked and Standby: ingest discards (R473). -/
def State.ingests (s : State) : Bool := s.pwr.mode == .run || s.pwr.mode == .idle

def State.packet (s : State) (dt : Nat) (p : Packet) : State :=
  if 2 ≤ p.port then s
  else
    let s := s.modPort p.port (fun q => q.arrive dt)
    let inc := fun (v : Nat) => (v + 1) % 2 ^ 64
    let outside := s.modPort p.port (fun q => { q with unsupported := inc q.unsupported })
    if !s.ingests then s
    else match FrameHead.kind p.head (s.vlansOf p.port) with
      | .taken => s
      | .fragment => s.modPort p.port (fun q => { q with fragments := inc q.fragments })
      | .badChecksum => s.modPort p.port (fun q => { q with checksum := inc q.checksum })
      | .unsupported => outside
      | .good => match s.slotFor p with
        | none => s.modPort p.port (fun q => { q with noSlot := inc q.noSlot })
        | some n => if (s.slot n).foreign p then outside else s.slotPacket n p

def execRtpPacketArrival (dt : Nat) (p : Packet) (s : State) : Host.Outcome State Fault Refusal := whenUp s (s.packet dt p)

end Sys2Proof.Machine
end

