-- ==== Sys2Proof/Machine/Push.lean ====
section
/-! DEFINITION. The host push path (R41 to R43, R520, R521) and the sessions the device opens (R28, R30, R31). -/
namespace Sys2Proof.Machine
open Sys2Proof

/-! ### Device reads of host memory (R505, R521) -/

/-- Issues a read of the push path with the lowest free tag: none where every tag is held. -/
def State.pushIssue (s : State) (addr len : Nat) (desc : Bool) : State :=
  let used := s.pci.outstanding.map (·.tag) ++ s.pci.abandoned
  match lowestFree 512 used with
  | some tag => ({ s with pci := { s.pci with outstanding := s.pci.outstanding ++ [(⟨tag, true, addr, desc⟩ : PciRead)] } }).emit (.pushRead addr len)
  | none => s

def Push.entries (p : Push) : Nat := 2 ^ p.sizeLog2
def Push.descAddr (p : Push) : Nat := p.base + p.head % p.entries * 32

/-- Reads the next descriptor where one is available and none is in progress. -/
def State.pushFetch (s : State) : State :=
  let p := s.push
  if p.enable ∧ !p.fetching ∧ p.current.isNone ∧ p.head ≠ p.tail % p.entries ∧ s.hostUp then
    ({ s with push := { p with fetching := true } }).pushIssue p.descAddr 32 true
  else s

/-- The device is done with the descriptor at the head (R42, R515). -/
def State.pushAdvance (s : State) : State :=
  let h := (s.push.head + 1) % s.push.entries
  let s := { s with push := { s.push with head := h, current := none, fetching := false } }
  let s := if h % 16 = 0 ∨ h = s.push.tail % s.push.entries then s.msix 2 else s
  s.pushFetch

/-- The tail reads back as written (R4); the ring takes it modulo its entries. -/
def State.pushTail (s : State) (value : Nat) : State :=
  ({ s with push := { s.push with tail := value % 65536 } }).pushFetch

def execPushTailWrite (value : Nat) (s : State) : Host.Outcome State Fault Refusal := whenUp s (s.pushTail value)

/-- Clearing enable stops after the descriptor in progress; where reads never time out it abandons them. -/
def State.pushCtrl (s : State) (v : Nat) : State :=
  let en := bit v 0
  let size := bits v 8 4
  let s := { s with push := { s.push with enable := en, sizeLog2 := if 4 ≤ size ∧ size ≤ 16 then size else s.push.sizeLog2 } }
  let s := if !en ∧ s.pci.cplDisable then
      { s with
        push := { s.push with fetching := false, current := none }
        pci := { s.pci with
          outstanding := s.pci.outstanding.filter (fun r => !r.push)
          abandoned := s.pci.abandoned ++ (s.pci.outstanding.filter (·.push)).map (·.tag) } }
    else s
  s.pushFetch

def execPushCtrlWrite (value : Nat) (s : State) : Host.Outcome State Fault Refusal := whenUp s (s.pushCtrl value)

/-! ### Descriptors and units (R41, R43) -/

/-- A descriptor names a configured push slot, a legal length and zero reserved fields. -/
def State.pushDescOk (s : State) (b : List Byte) : Bool :=
  let len := fieldAt b 0 4
  let x := s.slot (fieldAt b 4 1)
  b.length == 32 && decide (1 ≤ len) && decide (len ≤ 8388608) && x.run != .unconfigured && x.cfg.stream.source == 2
    && decide (fieldAt b 5 1 ≤ 1) && fieldAt b 6 2 == 0 && fieldAt b 28 4 == 0

/-- The outstanding read of the push path is answered. -/
def State.pushRetire (s : State) (desc : Bool) : Option State :=
  match s.pci.outstanding.find? (fun r => r.push && r.desc == desc) with
  | some r => some { s with pci := { s.pci with outstanding := s.pci.outstanding.filter (fun q => q.tag != r.tag) } }
  | none => none

/-- A descriptor is checked; one that is skipped is counted in its slot's entry .14 (assumption 116). -/
def State.pushDesc (s : State) (b : List Byte) : State :=
  match s.pushRetire true with
  | none => s
  | some s =>
    if s.pushDescOk b then
      ({ s with push := { s.push with fetching := false, current := some b } }).pushIssue (fieldAt b 16 8) (fieldAt b 0 4) false
    else ((s.count (fieldAt b 4 1) 0x14 1).raise { code := fltIngPush, detail := s.push.head, addr := s.push.descAddr }).pushAdvance

def execPushDescriptorRead (bytes : List Byte) (s : State) : Host.Outcome State Fault Refusal := whenUp s (s.pushDesc bytes)

/-- The push-completion entry .13 of a slot takes the tag of its unit (R41, assumption 116). -/
def State.pushDone (s : State) (n tag : Nat) : State :=
  s.modSlot n (fun x => { x with counters := tset 0 x.counters 0x13 tag })

/-- A pushed unit: policed, checked for its order, released. The previous unit of its order is the last that was
neither policed nor out of order (assumption 116). -/
def State.pushUnit (s : State) (n : Nat) (desc bytes : List Byte) : State :=
  let s := s.windows n
  let x := s.slot n
  let pts := fieldAt desc 8 8
  let s := if x.run = .unconfigured then s else s.pushDone n (fieldAt desc 24 4)
  if x.run = .unconfigured then s
  else if x.run = .stopped then s.count n 0x12 1
  else if x.shedNext = 5 then (s.applyShed n).count n 0x11 1
  else
    let (ok, s) := s.police n bytes.length
    if !ok then s
    else if x.ing.pushPts.any (fun q => decide (pts ≤ q)) then s.count n 0x0E 1
    else
      let s := s.modIng n (fun i => { i with pushPts := some pts, started := true, extTs := pts, lastTs := pts % 2 ^ 32 })
      let a : AccessUnit := { ts := pts, bytes := bytes, gap := bit (fieldAt desc 5 1) 0 }
      let back := x.shedMode = 5
      if x.cfg.fusion.member ∧ x.run ≠ .shadow then s.fusionUnit n { a with gap := a.gap || back, refreshWait := back }
      else s.enterUnit n a back

def State.pushRead (s : State) (dt : Nat) (bytes : List Byte) : State :=
  let s := s.modPort 3 (fun p => p.arrive dt)
  match s.push.current, s.pushRetire false with
  | some d, some s => (if s.ingests then s.pushUnit (fieldAt d 4 1) d bytes else s).pushAdvance
  | _, _ => s

def execPushUnitReadComplete (dt : Nat) (bytes : List Byte) (s : State) : Host.Outcome State Fault Refusal :=
  whenUp s (s.pushRead dt bytes)

/-! ### RTSP and RTCP (R28, R30, R31) -/

/-- Changes a slot's session; the owner mirrors it (R485). -/
def State.modRtsp (s : State) (n : Nat) (f : Rtsp → Rtsp) : State :=
  let s := s.modIng n (fun i => { i with rtsp := f i.rtsp })
  let i := (s.slot n).ing
  if s.mirrors n then
    s.stirrupSend 3 (mirrorPayload 3 n 0 (leBytes 1 i.rtsp.phase ++ leBytes 4 (i.ssrc.getD 0) ++ leBytes 4 (wrap 32 i.extSeq)
      ++ leBytes 8 (wrap 64 i.extTs) ++ leBytes 1 ((i.rtsp.transport.map RtspTransport.num).getD 0) ++ i.rtsp.session))
  else s

/-- The session fails: it is torn down, and the retry waits (R31). -/
def State.rtspFail (s : State) (n : Nat) : State :=
  let s := (s.raise { code := fltIngRtsp, slot := n }).rtspSend n 5
  (s.modRtsp n (fun r => { r with phase := 6 })).modIng n (fun i => { i with units := [], candidate := none })

/-- The slot's session is the Cantle's to run. -/
def Slot.rtspRuns (x : Slot) : Bool := !x.cfg.stream.url.isEmpty && (x.run == .running || x.run == .suspended) && x.ing.rtsp.phase != 0

/-- A challenge that the client answers: SHA-256 or MD5, and not the one it has answered already. -/
def Rtsp.answers (q : Rtsp) (r : RtspReply) : Option RtspChallenge :=
  match r.challenge with
  | some c => if c.alg = .unknown ∨ q.auth = some c then none else some c
  | none => none

/-- A session description of a form that R29 refuses: the slot is refused as at its admission, and stops
(assumption 117). -/
def State.sdpRefused (s : State) (n : Nat) : State :=
  ((s.rtspSend n 5).modRtsp n (fun r => { r with phase := 0 })).stopSlot n fltAdmitShape 0 0

/-- A response to the last request: the request again with the answer to a challenge, the next one, playing, or
failure. Interleaved transport is refused. -/
def State.rtspResponse (s : State) (n : Nat) (r : RtspReply) : State :=
  let x := s.slot n
  let q := x.ing.rtsp
  let p := q.phase
  if !x.rtspRuns ∨ p = 6 then s
  else if !r.ok then
    match q.answers r with
    | some c => (s.modRtsp n (fun q => { q with auth := some c })).rtspSend n (if p = 5 then 4 else p - 1)
    | none => s.rtspFail n
  else if p = 3 ∧ r.transport = some .interleaved then s.rtspFail n
  else if p = 2 ∧ r.sdp.any (fun d => Sdp.refused d x.cfg.stream.payload) = true then s.sdpRefused n
  else
    let s := s.modRtsp n (fun q => { q with
      timeoutS := if r.timeoutS.isSome then r.timeoutS else q.timeoutS, phase := min 5 (p + 1), delivered := q.delivered && p == 5
      session := if p = 3 then r.session else q.session, transport := if p = 3 then r.transport else q.transport })
    let s := match (if p = 2 then r.sdp else none) with
      | some d => s.modIng n (fun i => { i with paramSets := d.parameterSets })
      | none => s
    if p < 4 then s.rtspSend n p else s

def execRtspResponse (slot : Nat) (r : RtspReply) (s : State) : Host.Outcome State Fault Refusal :=
  whenReady s (s.rtspResponse slot r)

/-- The keepalive interval in ms: half the announced timeout, or 30 s. -/
def Rtsp.keepaliveMs (r : Rtsp) : Nat := match r.timeoutS with
  | some t => t * 500
  | none => 30000

/-- A playing session sends GET_PARAMETER when its interval has passed. -/
def State.rtspKeepalive (s : State) (n ms : Nat) : State :=
  if (s.slot n).rtspRuns && (s.slot n).ing.rtsp.phase == 5 && decide ((s.slot n).ing.rtsp.keepaliveMs ≤ ms) then s.rtspSend n 4 else s

def execRtspKeepalive (t : RtspTimer) (s : State) : Host.Outcome State Fault Refusal := whenReady s (s.rtspKeepalive t.slot t.ms)

/-- The stream-timeout has passed without a packet, or the session timeout that the server announced. -/
def Slot.timedOut (x : Slot) (ms sessionMs : Nat) : Bool :=
  decide (x.cfg.stream.timeoutS * 1000 ≤ ms) || x.ing.rtsp.timeoutS.any (fun t => decide (t * 1000 ≤ sessionMs))

def State.streamTimeout (s : State) (n ms sessionMs : Nat) : State :=
  if (s.slot n).rtspRuns && (s.slot n).ing.rtsp.phase != 6 && (s.slot n).timedOut ms sessionMs then s.rtspFail n else s

def execStreamTimeout (t : StreamSilence) (s : State) : Host.Outcome State Fault Refusal :=
  whenReady s (s.streamTimeout t.slot t.ms t.sessionMs)

/-- The wait has passed: the session is opened again, and the next wait is twice as long, up to 60 s. -/
def State.rtspRetry (s : State) (n ms : Nat) : State :=
  if (s.slot n).rtspRuns && (s.slot n).ing.rtsp.phase == 6 && decide ((s.slot n).ing.rtsp.backoffS * 1000 ≤ ms) then
    (s.modRtsp n (fun r => { phase := 1, backoffS := min 60 (2 * r.backoffS) })).rtspOpen n
  else s

def execRtspRetry (t : RtspTimer) (s : State) : Host.Outcome State Fault Refusal := whenReady s (s.rtspRetry t.slot t.ms)

def State.receiverReport (s : State) (n : Nat) : State :=
  if (s.slot n).rtspRuns && (s.slot n).ing.rtsp.phase == 5 then s.emit (.rtcpReport n) else s

def execRtcpReceiverReport (slot : Nat) (s : State) : Host.Outcome State Fault Refusal := whenReady s (s.receiverReport slot)

end Sys2Proof.Machine
end

