-- ==== Sys2Proof/Machine/MemCmds.lean ====
section
/-! DEFINITION. The commands of the memory system and of the on-chip walk (R370, R375, R379, R380, R387,
R398, R402, R403). -/
namespace Sys2Proof.Machine
open Sys2Proof

/-- Default latency target of a port, in DRAM_CLK cycles (R369). -/
def defaultTarget (p : Nat) : Nat :=
  if p ≤ 11 then 1400 else if p ≤ 13 then 2800 else if p ≤ 21 then 1400 else if p ≤ 38 then 700
  else if p = 39 then 350 else if p = 40 then 2800 else if p ≤ 42 then 700 else 0

def MemPort.targetOf (m : MemPort) (p : Nat) : Nat := m.target.getD (defaultTarget p)

/-- Urgency of a request of age `a` under target `t` (R370). -/
def urgencyOf (t a : Nat) : Nat :=
  if t = 0 then 0 else if t * 90 / 100 ≤ a then 3 else if t * 75 / 100 ≤ a then 2
  else if t * 50 / 100 ≤ a then 1 else 0

/-- R370: the request's age reaches a threshold; at 100 % of the target it is counted late once. -/
def execRequestUrgencyRise (port age : Nat) (s : State) : Host.Outcome State Fault Refusal :=
  whenUp s (if port < 44 then s.modPortStat port (fun m =>
      let t := m.targetOf port
      { m with lastAge := age, urgency := urgencyOf t age, maxLat := max m.maxLat age,
               late := if t ≠ 0 ∧ age = t then (m.late + 1) % 2 ^ 64 else m.late })
    else s)

/-- R379: a refresh runs, is postponed while the bank has urgent requests, at most 8 times, or is
forced; the postponed ones follow it. -/
def execRefreshDue (channel bank : Nat) (busyUrgent : Bool) (s : State) : Host.Outcome State Fault Refusal :=
  let c := s.chan channel
  let p := tget 0 c.postponed bank
  whenUp s (if channel < 64 ∧ bank < 32 ∧ c.st = .active then
      s.modChan channel (fun c =>
        if busyUrgent && decide (p < 8) then { c with postponed := tset 0 c.postponed bank (p + 1) }
        else { c with postponed := tset 0 c.postponed bank 0,
                      refForced := if busyUrgent then (c.refForced + 1) % 2 ^ 32 else c.refForced })
    else s)

/-- R380: the die's temperature has moved by 10 °C since the channel's last training. -/
def tempMoved (old : Option Nat) (t : Nat) : Bool :=
  match old with
  | none => true
  | some o => decide (o + 10 ≤ t ∨ t + 10 ≤ o)

def execChannelRetrain (channel tempC : Nat) (s : State) : Host.Outcome State Fault Refusal :=
  let c := s.chan channel
  let other := s.mem.chans.any (fun p => p.2.st == .training)
  whenUp s (if channel < 64 ∧ c.st = .active then
      (if !other && tempMoved c.trainTemp tempC then
        s.modChan channel (fun c => { c with st := .training, trainTemp := some tempC, hot := decide (85 < tempC) })
       else s.modChan channel (fun c => { c with hot := decide (85 < tempC) }))
    else s)

def execCacheFlush (s : State) : Host.Outcome State Fault Refusal :=
  whenUp s { s with mem := { s.mem with flushing := true } }

/-- Every open merge entry closes by read-modify-write (R387). -/
def State.closeAll (s : State) : State :=
  (s.mem.chans.flatMap (fun p => p.2.merges)).foldl (fun s m => s.closeEntry m noErrors) s

/-- A flush writes back every dirty line and leaves the lines valid (R375). -/
def State.flushed (s : State) : State :=
  let s := s.closeAll
  s.mem.cache.foldl (fun s p => match p.2 with
    | some c => if c.dirty then (s.writeBack p.1 c).putLine p.1 (some { c with dirty := false }) else s
    | none => s) s

def execFlushComplete (s : State) : Host.Outcome State Fault Refusal :=
  whenUp s (if s.mem.flushing then
      { s.flushed with mem := { s.flushed.mem with flushing := false } }
    else s)

/-! ### The on-chip walk (R398) -/

/-- Is bank `b` of the walk powered, and its first address: cluster-buffer banks first, then the banks
of the cores. -/
def State.walkBank (s : State) (b : Nat) : Bool :=
  if b < s.boot.clusters * 16 then
    (s.cluster (b / 16)).assigned && bit (s.cluster (b / 16)).pwr (b % 16)
  else
    let k := b - s.boot.clusters * 16
    (s.core (k / 8)).st != .unassigned && bit (s.core (k / 8)).pwr (k % 8)

/-- Number of banks of the walk. -/
def State.walkBanks (s : State) : Nat := s.boot.clusters * 16 + s.boot.clusters * 128

/-- Address of line `j` of bank `b`; a scratchpad bank has 512 lines, a buffer bank 1,024 (R155, R163). -/
def State.walkLine (s : State) (b j : Nat) : Nat :=
  if b < s.boot.clusters * 16 then clusterBase (b / 16) + (j * 16 + b % 16) * 64
  else
    let k := b - s.boot.clusters * 16
    coreBase (k / 8) + k % 8 * 0x4000 + j * 32

def State.walkLen (s : State) (b : Nat) : Nat := if b < s.boot.clusters * 16 then 1024 else 512

/-- The next powered bank from `b` on, within `n` banks. -/
def State.nextBank (s : State) (b : Nat) : Nat → Option Nat
  | 0 => none
  | n + 1 => if s.walkBank b then some b else s.nextBank (b + 1) n

/-- R398: reads the next powered line; a failure is counted, and the line stays failing. -/
def State.onchipLine (s : State) (failing : Bool) : State :=
  let w := s.mem.burn
  let b0 := w.onchipPos / 1024
  match s.nextBank b0 (s.walkBanks - b0) with
  | none => { s with mem := { s.mem with burn := { w with
      onchipPos := 0, onchipPasses := (w.onchipPasses + 1) % 2 ^ 32 } } }
  | some b =>
    let j := if b = b0 then w.onchipPos % 1024 else 0
    let line := s.walkLine b j
    let bad := failing || s.lineFails line
    let s := if bad then ((s.setFails line true).intCount line 0).intCount line 9 else s
    let next := if j + 1 < s.walkLen b then b * 1024 + j + 1 else (b + 1) * 1024
    { s with mem := { s.mem with burn := { s.mem.burn with onchipPos := next, lines := (w.lines + 1) % 2 ^ 64 } } }

def execOnchipScrubLine (failing : Bool) (s : State) : Host.Outcome State Fault Refusal :=
  whenUp s (if s.mem.burn.onchipEn then s.onchipLine failing else s)

/-! ### Quarantine (R402, R403) -/

/-- The 32 lines of a row of a bank. -/
def rowLines (ch bank row : Nat) : List Nat :=
  (upto 0 32).map (fun k => row * 0x400000 + ch * pageSize + k * 2048 + bank * 64)

/-- The copy ends: the row is served from its spare; Class P lines were copied with good data. -/
def execQuarantineCopyComplete (channel entry : Nat) (s : State) : Host.Outcome State Fault Refusal :=
  whenUp s (match tget none (s.chan channel).remap entry with
    | some r => if r.copying then
        let s := s.modChan channel (fun c => { c with
          remap := tset none c.remap entry (some { r with copying := false }) })
        (rowLines channel r.bank r.row).foldl (fun s l =>
          if s.classOf l = 1 then (s.testLine 43 l noErrors).2 else s) s
      else s
    | none => s)

def execSpareEntryAppend (s : State) : Host.Outcome State Fault Refusal :=
  whenUp s (match s.kpr.appends with
    | [] => s
    | a :: t => { s with kpr := { s.kpr with appends := t, signed := (s.kpr.signed + 1) % 2 ^ 64 },
                         flash := { s.flash with pendingSpares := s.flash.pendingSpares ++ [a] } })

end Sys2Proof.Machine
end

