-- ==== Sys2Proof/Machine/MemLate.lean ====
section
/-! DEFINITION. The commands of the memory system whose failing reads may take a context or a track store
with them: merge time-outs (R387) and the Burnisher's walk of the saddle (R397). -/
namespace Sys2Proof.Machine
open Sys2Proof

/-- R387: 64 FABRIC_CLK cycles since the entry opened. -/
def execMergeEntryTimeout (channel line : Nat) (e : ReadErrors) (s : State) : Host.Outcome State Fault Refusal :=
  whenUp s (if channel < 64 ∧ chanOf line = channel then (s.closeLine line e).settleLost else s)

/-- The Burnisher reads a line straight from its channel: a failure follows R391, but a Class R or Class X
failure is only counted, with no record (R397, R404). -/
def State.burnRead (s : State) (line : Nat) (e : ReadErrors) : State :=
  let s := s.dramRead 43 line
  let s := { s with mem := { s.mem with burn := { s.mem.burn with lines := (s.mem.burn.lines + 1) % 2 ^ 64 } } }
  if !(s.lineFails line || e.failing.contains line) then s
  else
    let s := s.intCount line 9
    if s.classOf line = 1 then (s.testLine 43 line e).2
    else
      let s := (s.intCount line 0).countRow line
      if !s.lineFails line && e.transient.contains line then s.intCount line 1
      else
        let s := s.setFails line true
        if s.classOf line = 2 then s.intCount line 5 else s

/-- The walk does not read lines of free pages, of channels in self-refresh, or of a lost die; they take
their interval like the others. -/
def State.burnSkips (s : State) (line : Nat) : Bool :=
  (s.page (pageOf line)).st == .free || (s.chan (chanOf line)).st == .selfRefresh || !s.populated line

/-- One interval of the walk (R397). -/
def State.burnStep (s : State) (e : ReadErrors) : State :=
  let line := s.mem.burn.pos * 64
  let s := if s.burnSkips line then s else s.burnRead line e
  let last := decide (saddleSize / 64 ≤ s.mem.burn.pos + 1)
  { s with mem := { s.mem with burn := { s.mem.burn with
      pos := if last then 0 else s.mem.burn.pos + 1
      passes := if last then (s.mem.burn.passes + 1) % 2 ^ 32 else s.mem.burn.passes } } }

def execBurnisherLine (e : ReadErrors) (s : State) : Host.Outcome State Fault Refusal :=
  whenUp s (if s.mem.burn.dramEn then (s.burnStep e).settleLost else s)

end Sys2Proof.Machine
end

