-- ==== Sys2Proof/Machine/Reset.lean ====
section
/-! DEFINITION. Resets and the boot sequence up to its stored configuration (R556 to R564, R578 to R581),
the loss of a DRAM die (R502, R503, R560), of the reference clock (R22, R476, R477) and of heat (R465). -/
namespace Sys2Proof.Machine
open Sys2Proof

/-! ### Reset -/

/-- The state after a reset of the whole device: every register is at its Reset column (R6), but fuses, boot flash and
ref_lost stay (R477, R581); the EVT_IN and FAIL_IN_N pins keep the levels that the board drives, and the Keeper's counts
stand in its journal (R564). -/
def State.resetBase (s : State) : State :=
  { State.reset with
    pending := s.pending, out := s.out, fuses := s.fuses, flash := s.flash
    od := { free := s.od.free }
    evt := { lines := s.evt.lines.foldl (fun t l =>
      tset {} t l.1 ((({ pin := l.2.pin } : EvtLine)).inputAt 0)) [] }
    pwr := { steps := shedDefaults }
    clk := { refLost := s.clk.refLost }
    pair := { failLow := s.pair.failLow }
    boot := {
      bootNum := s.boot.bootNum, counts := s.boot.counts, latched := s.boot.latched, altFails := s.boot.altFails
      dieOut := s.boot.dieOut, railsOk := s.boot.railsOk, testEn := s.boot.testEn } }

/-! ### Stages -/

/-- Grade's capacity: logical clusters and decode engines (R13). -/
def Fuses.grade (f : Fuses) : Nat × Nat := if f.part = 1 then (112, 10) else (128, 12)

/-- The capacity steps of R15. -/
def capacitySteps : List (Nat × Nat) := [(128, 12), (112, 10), (96, 8), (80, 6), (64, 4)]

/-- Capacity with `working` physical clusters after a quarantine: below the grade's, and one that they fill
(R561). -/
def Fuses.capacity (f : Fuses) (working : Nat) : Option (Nat × Nat) :=
  capacitySteps.find? (fun c => decide (c.1 < f.grade.1 ∧ c.1 ≤ working))

def State.modBoot (s : State) (f : Boot → Boot) : State := { s with boot := f s.boot }

/-- A failure of stage `n` is counted: at 3 the count is latched (R557, R558). -/
def State.countFail (s : State) (n : Nat) : State :=
  if tget false s.boot.alt n then s.modBoot (fun b => { b with altFails := tinc b.altFails n 1 })
  else if tget false s.boot.latched n then s
  else
    let k := tget 0 s.boot.counts n + 1
    s.modBoot (fun b => { b with counts := tset 0 b.counts n k, latched := tset false b.latched n (decide (3 ≤ k)) })

/-- The count that a record of stage `n` carries. -/
def State.stageCount (s : State) (n : Nat) : Nat := tget 0 s.boot.counts n

/-- A pass sets the count to 0, except while it is latched (R557). -/
def State.countPass (s : State) (n : Nat) : State :=
  s.modBoot (fun b => { b with
    counts := if tget false b.latched n then b.counts else tset 0 b.counts n 0
    altFails := tset 0 b.altFails n 0 })

/-- The union of the bitmaps of the 3 latest failures of stage 6 (R561). -/
def State.failedClusters (s : State) : Nat :=
  ((s.flash.journal.filter (fun r => r.stage == 6 && r.outcome == 2)).take 3).foldl (fun m r => m ||| r.bitmap) 0

/-- The device has reached its ready stage: FAIL_N is released, PCI_DEV_STATUS.ready is set (R493, R556); a
reference loss of the last run is reported (R477). The mailbox's session has begun (R539). -/
def State.bootReady (s : State) : State :=
  let s := (s.journal 9 1 0 0 0 0).openSession ⟨.mailbox, 0⟩
  let s := (s.modBoot (fun b => { b with booting := false })).devEvent 0
  let s := { s with pci := { s.pci with ready := true, saddleReady := true }, pair := { s.pair with failOut := false } }
  if s.boot.cause = 6 then s.raise { code := fltClkRef } else s

/-- The Keeper holds the device at its stage, with FAIL_N asserted (R559). -/
def State.bootHalt (s : State) : State :=
  let s := s.raise { code := fltBootHalt, detail := s.boot.stage }
  { s.modBoot (fun b => { b with booting := false, halted := true }) with pair := { s.pair with failOut := true } }

/-- Stages from `n` on are entered: a latched stage runs its alternate; that of stages 6 and 8 is to skip
them, which quarantines the clusters that failed (R556, R558, R561). -/
def State.enterFrom : Nat → Nat → State → State
  | 0, _, s => s
  | k + 1, n, s =>
    let alt := tget false s.boot.latched n && !s.boot.retry
    let s := s.modBoot (fun b => { b with stage := n, alt := tset false b.alt n alt })
    if n = 9 then (s.journal 9 0 0 0 0 0).bootReady
    else if alt && n == 8 then
      State.enterFrom k 9 ((s.journal 8 3 (s.stageCount 8) 0 0 0).modBoot (fun b => { b with skipped8 := true }))
    else if alt && n == 6 then
      let q := s.failedClusters
      let working := 136 - popCount q 136
      let s := s.journal 6 3 (s.stageCount 6) 0 0 q
      match s.fuses.capacity working with
      | some c => State.enterFrom k 7 (s.modBoot (fun b => { b with
          quarantined := q, working := working, clusters := c.1, decoders := c.2 }))
      | none => s.bootHalt
    else
      let lost := (n == 4 && s.boot.dieOut.isSome)
      s.journal n (if alt then 4 else 0) (s.stageCount n) (if lost then fltMemDie else 0) (s.boot.dieOut.getD 0) 0

def State.enterStage (s : State) (n : Nat) : State := State.enterFrom 10 n s

/-- A boot starts with a cause: its number, stage 1 entered. A stage that the last boot entered and left
without an outcome counts as failed (R557, R563). -/
def State.startBoot (s : State) (cause : Nat) (retry : Bool) : State :=
  let s := if s.boot.booting then s.countFail s.boot.stage else s
  let s := s.resetBase
  let g := s.fuses.grade
  let s := s.modBoot (fun b => { b with
    bootNum := (b.bootNum + 1) % 2 ^ 32, cause := cause, booting := true, retry := retry, clusters := g.1, decoders := g.2 })
  s.enterStage 1

/-- A stage fails: recorded; the device halts under R559, or starts again with cause 3 (R557). -/
def State.failStage (s : State) (n fault detail bitmap : Nat) : State :=
  let s := s.countFail n
  let s := s.journal n 2 (s.stageCount n) fault detail bitmap
  let halt := n == 1 || decide (3 ≤ tget 0 s.boot.altFails n) || (n == 4 && tget false s.boot.alt 4)
  if halt then s.bootHalt else (s.modBoot (fun b => { b with booting := false })).startBoot 3 false

/-- A stage has done its work: the next is entered. -/
def State.passStage (s : State) (n : Nat) : State :=
  let s := s.countPass n
  (s.journal n (if tget false s.boot.alt n then 5 else 1) (s.stageCount n) 0 0 0).enterStage (n + 1)

/-! ### Stage work -/

/-- The container of a slot verifies (R552, R553): what the flash is known to hold, and what reading it met
(assumption 2). -/
def State.slotVerifies (s : State) (kind slot : Nat) (readOk : Bool) : Nat :=
  if !readOk then fltBootVerify
  else match tget none s.flash.slots (kind * 2 + slot) with
    | none => 0
    | some c => if !s.containerOk c kind then fltBootVerify
        else if c.svn < tget 0 s.fuses.svn kind then fltBootRollback else 0

/-- Stages 2, 5 and 7: the preferred slot, else the other at once, which still counts as one failure (R556). -/
def State.loadKind (s : State) (n kind : Nat) (r : StageResult) : State :=
  let pref := b2n (tget false s.boot.alt n)
  let look := fun (slot : Nat) => s.slotVerifies kind slot (if slot = 0 then r.slotAOk else r.slotBOk)
  let take := fun (s : State) (slot : Nat) => s.modBoot (fun b => { b with from2 := tset 0 b.from2 kind slot })
  if !r.workOk then s.failStage n r.fault 0 0
  else if look pref = 0 then (take s pref).passStage n
  else
    let s1 := s.raise { code := look pref, detail := verifyDetail kind pref }
    if look (1 - pref) = 0 then
      let s1 := (take s1 (1 - pref)).countFail n
      ((s1.journal n 2 (s1.stageCount n) (look pref) (verifyDetail kind pref) 0).journal n
        (if tget false s1.boot.alt n then 5 else 1) (s1.stageCount n) 0 0 0).enterStage (n + 1)
    else
      let s2 := s1.raise { code := look (1 - pref), detail := verifyDetail kind (1 - pref) }
      s2.failStage n (look pref) (verifyDetail kind pref) 0

/-- A row of the soft map takes a spare row of its bank, or its page is retired (R399, R400). -/
def State.applySpare (s : State) (e : Nat × Nat × Nat × Nat × Nat) : State :=
  let ch := e.1
  let bank := e.2.1
  let row := e.2.2.1
  match (upto 0 8).find? (fun i => !bit (tget 0 (s.chan ch).spares bank) i) with
  | some sp => s.modChan ch (fun c => { c with spares := tmod 0 c.spares bank (fun m => setBit m sp true) })
  | none =>
    let p := row * 64 + ch
    if s.mem.retired.contains p then s
    else
      let s := { s.modPage p (fun g => { g with st := .retired }) with mem := { s.mem with retired := insertBy id p s.mem.retired } }
      s.raise (rowFault fltMemSpareOut ch bank row)

/-- Stage 3: pending entries join the soft map, at most 4,096 in all; a map that does not verify is
replaced by a new empty one (R399, R400). -/
def State.applySoftMap (s : State) (ok : Bool) : State :=
  let gone := s.flash.softMap.length
  let old := if ok then s.flash.softMap else []
  let map := (old ++ s.flash.pendingSpares).take 4096
  let s := { s with flash := { s.flash with softMap := map, pendingSpares := [] }
                    kpr := { s.kpr with signed := (s.kpr.signed + 1) % 2 ^ 64 } }
  let s := if ok then s else (s.modBoot (fun b => { b with softRestarted := true })).raise { code := fltIntSoftmap, detail := gone }
  map.foldl State.applySpare s

/-- Stage 4: every channel of the dies in use is active; with one die the other's are out of use (R368, R503). -/
def State.trained (s : State) (lost : Option Nat) (conservative : Bool) : State :=
  let s := { s.modBoot (fun b => { b with conservative := conservative }) with mem := { s.mem with lostDie := lost } }
  (upto 0 64).foldl (fun s c => s.modChan c (fun x =>
    if lost = some (dieOf c) then { x with st := .outOfUse } else { x with st := .active, conservative := conservative })) s

/-- Stages 1 to 7 with what their work found. -/
def State.stageWork (s : State) (n : Nat) (r : StageResult) : State :=
  if n = 1 then
    if !s.clk.pllLock then s
    else if !r.workOk then s.failStage 1 r.fault 0 0
    else
      let s := s.modBoot (fun b => { b with identity := true })
      (if r.certOk then s else s.raise { code := fltKprCert }).passStage 1
  else if n = 2 then s.loadKind 2 1 r
  else if n = 3 then
    if !r.workOk then s.failStage 3 r.fault 0 0
    else (if tget false s.boot.alt 3 then s else s.applySoftMap r.softMapOk).passStage 3
  else if n = 4 then
    let alt := tget false s.boot.alt 4
    let t0 := r.trainedDie0 && s.boot.dieOut != some 0
    let t1 := r.trainedDie1 && s.boot.dieOut != some 1
    if !r.workOk then s.failStage 4 r.fault 0 0
    else if t0 && t1 then (s.trained none alt).passStage 4
    else if t0 && (alt || s.boot.dieOut == some 1) then (s.trained (some 1) alt).passStage 4
    else if t1 && (alt || s.boot.dieOut == some 0) then (s.trained (some 0) alt).passStage 4
    else s.failStage 4 (if r.fault = 0 then fltMemTrain else r.fault) 0 0
  else if n = 5 then
    let s := s.loadKind 5 2 r
    if 5 < s.boot.stage then s.driveOuts true else s    -- R55: the Cantle firmware runs
  else if n = 6 then
    if !r.workOk || r.failingClusters != 0 then s.failStage 6 r.fault 0 (r.failingClusters % 2 ^ 136)
    else s.passStage 6
  else if n = 7 then s.loadKind 7 3 r
  else s

/-! ### Commands of resets -/

/-- R581: power-on reset and RESET_N are released with every rail in tolerance; ref_lost clears. TEST_EN
high holds the device in reset (R575). -/
def execPowerOn (s : State) : Host.Outcome State Fault Refusal :=
  let s' := { s with clk := { s.clk with refLost := false } }
  answer s (if s.boot.testEn then s'.resetBase
    else (s'.modBoot (fun b => { b with railsOk := true })).startBoot 0 false)

/-- R581: a pulse on RESET_N; after a reference loss it is journaled as that (R560). -/
def execResetNAssert (s : State) : Host.Outcome State Fault Refusal :=
  answer s (if s.boot.testEn || !s.boot.railsOk then s.resetBase
    else if s.boot.thermalHold then s.resetBase.modBoot (fun b => { b with thermalHold := true })
    else s.startBoot (if s.clk.refLost && !s.clk.running then 6 else 1) false)

/-- R579: the device stays in reset until its rails are within tolerance. -/
def execRailBrownout (s : State) : Host.Outcome State Fault Refusal :=
  let s' := (if s.boot.booting then s.countFail s.boot.stage else s).resetBase
  answer s (s'.modBoot (fun b => { b with railsOk := false }))

/-- R476: the internal domains start. After a clock loss only a reset lets them (R22). -/
def execPllLock (s : State) : Host.Outcome State Fault Refusal :=
  answer s (if s.boot.railsOk && s.boot.stage != 0 && !s.clk.running && !s.clk.stopped then
      { s with clk := { s.clk with pllLock := true, running := true, monCount := 200 } }
    else s)

/-- R22, R477: every internal domain stops, FAIL_N falls and the EVT_OUT pins are high-impedance (R55); the device
resumes only through reset. -/
def execRefclkLoss (s : State) : Host.Outcome State Fault Refusal :=
  answer s ({ s with
    clk := { s.clk with pllLock := false, running := false, stopped := true, refLost := true, monCount := 0 }
    pair := { s.pair with failOut := true } }.driveOuts false)

/-- R557: the stage's watchdog has expired. -/
def execStageWatchdog (failingClusters : Nat) (s : State) : Host.Outcome State Fault Refusal :=
  answer s (if s.boot.booting then
      s.failStage s.boot.stage 0 0 (if s.boot.stage = 6 then failingClusters % 2 ^ 136 else 0)
    else s)

/-- R559: 60 s after a halt the whole sequence is tried again from the primary paths. -/
def execBootRetry (s : State) : Host.Outcome State Fault Refusal :=
  answer s (if s.boot.halted then s.startBoot s.boot.cause true else s)

/-- The command of entry 0xA020.01 (R530). -/
def execWarmReset (route : OdRoute) (s : State) : Host.Outcome State Fault Refusal :=
  whenReady s (if s.permits route 1 then s.startBoot 2 false else (Reply.mk 2 0 s).send route 0)

/-! ### Loss of a die (R502) -/

/-- What a later start builds again: each context with its image, parameters and owner, and each slot's
checkpoint (R475, R502). -/
def State.remember (s : State) : State :=
  let live := s.ctxs.filter (fun p => p.2.live && !p.2.standing)
  let shared := fun (p : Nat × Ctx) => (p.2.req.bind (·.share)).isSome
  let order := live.filter (fun p => !shared p) ++ live.filter shared
  let ctxs := order.filterMap (fun p => match p.2.req, p.2.decl with
    | some r, some d => some (r, d, p.2.owner, s.imageBytes p.1)
    | _, _ => none)
  let runs := s.slots.filter (fun p => p.2.run == .running || p.2.run == .suspended || p.2.run == .shadow)
  { s with pwr := { s.pwr with restore := ctxs, restoreSlots := runs.map (fun p => (p.1, p.2.trk.nextSerial, p.2.trk.saved)) } }

/-- The die is out of use from now on: the device warm-resets, and keeps the surviving Class P copies. -/
def State.loseDie (s : State) (die : Nat) : State :=
  let s := s.raise { code := fltMemDie, unit := die }
  let keep := s.remember.pwr
  let s := (s.modBoot (fun b => { b with dieOut := some die })).startBoot 4 false
  { s with pwr := { s.pwr with restore := keep.restore, restoreSlots := keep.restoreSlots } }

/-- A channel counts towards the loss of its die: it has failed retraining 3 times in a row since boot. -/
def State.chanLost (s : State) (c : DramChan) : Bool :=
  decide (3 ≤ c.failRun) || (c.conservative && !s.boot.conservative)

/-- A retraining ends (R380): quarantines that waited for it start (R403). -/
def State.retrained (s : State) (ch : Nat) (ok : Bool) : State :=
  let wait := (s.chan ch).waitRemap
  let back := fun (s : State) => (wait.foldl (fun s r => s.quarantine ch r.1 r.2)
    (s.modChan ch (fun c => { c with st := .active, waitRemap := [] })))
  if ok then back (s.modChan ch (fun c => { c with retrained := (c.retrained + 1) % 2 ^ 16, failRun := 0 }))
  else
    let s := s.modChan ch (fun c => { c with failed := (c.failed + 1) % 2 ^ 16, failRun := c.failRun + 1 })
    let s := s.raise { code := fltMemTrain, unit := ch }
    let third := decide (3 ≤ (s.chan ch).failRun) && !(s.chan ch).conservative
    let s := if third then s.modChan ch (fun c => { c with conservative := true }) else s
    let lost := (upto (dieOf ch * 32) 32).filter (fun c => s.chanLost (s.chan c))
    if 4 ≤ lost.length ∧ s.mem.lostDie = none then s.loseDie (dieOf ch)
    else if third then s        -- it is trained again, with the conservative profile
    else back s

def execRetrainComplete (channel : Nat) (ok : Bool) (s : State) : Host.Outcome State Fault Refusal :=
  whenUp s (if channel < 64 ∧ (s.chan channel).st = .training then s.retrained channel ok else s)

/-! ### Heat (R465) -/

/-- 110 °C: FLT_PWR_THERMAL, FAIL_N, and the device held in reset. -/
def State.overheat (s : State) : State :=
  let s := ({ s with pair := { s.pair with failOut := true } }).raise { code := fltPwrThermal }
  s.resetBase.modBoot (fun b => { b with thermalHold := true })

/-- Every sensor reads below 95 °C: the reset is released and the device boots with cause 5. -/
def execThermalResetRelease (tempC : Nat) (s : State) : Host.Outcome State Fault Refusal :=
  answer s (if s.boot.thermalHold && decide (tempC < 95) then s.startBoot 5 false else s)

end Sys2Proof.Machine
end

