-- ==== Sys2Proof/Machine/Shed.lean ====
section
/-! DEFINITION. The steps of shedding and their effects (R467 to R472), and Parked (R473). -/
namespace Sys2Proof.Machine
open Sys2Proof

/-! ### Effects of the steps -/

/-- Steps 3 to 5 set shed_mode of near-live and replay slots, from each slot's next frame boundary (R469). -/
def State.setShed (s : State) (step : Nat) : State :=
  { s with slots := s.slots.map (fun p =>
      (p.1, if p.2.run = .unconfigured then p.2 else { p.2 with shedNext := shedFor p.2.cfg.stream.priority step })) }

/-- The actions of steps 1 to 5, with `step` the highest in force after the change. -/
def State.shedAct (s : State) (n step : Nat) : State :=
  if n = 1 then (if step = 1 then s.evidStop else s)
  else if n = 2 then s.narrShed (decide (2 ≤ step))
  else s.setShed step

/-- EVT_PWR_SHED: unit 0 supply, 1 budget; detail the step in force after the change (R468). -/
def State.shedRecord (s : State) (byBudget : Bool) (step : Nat) : State :=
  ({ s with pwr := { s.pwr with events := (s.pwr.events + 1) % 2 ^ 32 } }).raise
    { code := evtPwrShed, unit := b2n byBudget, detail := step }

/-- Step `n` is entered, steps 1 to n − 1 being in force. -/
def State.enterStep (s : State) (n : Nat) (byBudget : Bool) : State :=
  let s := { s with pwr := { s.pwr with step := n, byBudget := setBit s.pwr.byBudget n byBudget } }
  (s.shedRecord byBudget n).shedAct n n

/-- Step `n`, the highest in force, is left; the record says what it had been entered by. -/
def State.leaveStep (s : State) (n : Nat) : State :=
  let b := bit s.pwr.byBudget n
  let s := { s with pwr := { s.pwr with step := n - 1, byBudget := setBit s.pwr.byBudget n false } }
  (s.shedRecord b (n - 1)).shedAct n (n - 1)

/-! ### Parked (R471, R473) -/

/-- The device parks: contexts stop at their next deschedule points under R432; ingest discards. -/
def State.park (s : State) : State :=
  let run := (s.ctxs.filter (fun p => p.2.st == .resident && !p.2.preempt)).map (·.1)
  let s := { s with pwr := { s.pwr with mode := .parked, parkWait := false, fenced := run } }
  run.foldl State.preempt s

/-- A slot waits for a refresh point, and its next unit carries GAP_BEFORE. -/
def State.waitRefresh (s : State) (n : Nat) (k : WaitKind) : State :=
  s.modSlot n (fun x => { x with ing := { x.ing with gapNext := true, units := [] }, dec := x.dec.beginWait k })

/-- The device leaves Parked: its contexts resume, and its slots at their next refresh points. -/
def State.unpark (s : State) : State :=
  let stopped := s.pwr.fenced
  let s := { s with pwr := { s.pwr with mode := .run, parkWait := false, fenced := [] } }
  let s := stopped.foldl (fun s c => if (s.ctx c).st = .resident then s.withdraw c else s) s
  let ns := (s.slots.filter (fun p => p.2.run == .running || p.2.run == .suspended)).map (·.1)
  ns.foldl (fun s n => s.waitRefresh n .shed) s

end Sys2Proof.Machine
end

