-- ==== Sys2Proof/Machine/Sync.lean ====
section
/-! DEFINITION. Sync counters (R262 to R277): signals, waits, arrivals, parking; work counter
instructions (R278 to R281); the host's signal (R273, R285). -/
namespace Sys2Proof.Machine
open Sys2Proof

/-! ### Signals (R264, R268) -/

/-- Entries of the queues whose accesses a signal waits for: array, narrowing, address generator. The writes of D's
descriptors are ordered by their own increments (R268, R170). -/
def Core.engineEntries (k : Core) : Tbl Nat := k.queues.filter (fun q => q.1 != Engine.num .dma)

/-- A signal enters the core's queue of 8, or waits at the head of the stream. -/
def State.signal (s : State) (core : Nat) (w : IWord) (target ctr n : Nat) : Run :=
  let k := s.core core
  if 16 * (s.ctx k.ctx).k ≤ target then s.wordFault fltSyncTarget w
  else if n = 0 then .ok s
  else if 8 ≤ k.sigq.length then .error (.full, s)
  else .ok (s.modCore core (fun k => { k with
    sigq := k.sigq ++ [{ incr := { ctx := k.ctx, core := target, ctr := ctr, n := n, src := core / 16 }, behind := k.engineEntries }] }))

def execSig (core : Nat) (w : IWord) (s : State) : Host.Outcome State Fault Refusal :=
  coreStep s core (.sig core w) (fun s =>
    if !wordOk w 0x34 0 [(34, 16)] ∨ 47 < wf w 51 46 ∨ wf w 15 0 = 0 then s.illegalWord w
    else s.signal core w (wf w 45 35) (wf w 51 46) (wf w 15 0))

def execSigr (core : Nat) (w : IWord) (s : State) : Host.Outcome State Fault Refusal :=
  coreStep s core (.sigr core w) (fun s =>
    if !wordOk w 0x35 0 [(45, 35), (24, 0)] ∨ 47 < wf w 51 46 then s.illegalWord w
    else s.signal core w ((s.sreg core (wf w 34 30)).toNat % 2048) (wf w 51 46) ((s.sreg core (wf w 29 25)).toNat % 65536))

/-! ### Waits (R265, R274, R432) -/

/-- A wait stands at the head of the stream; under a pre-emption request a deschedule point stops before
it is evaluated. Then it is tried. -/
def State.startWait (s : State) (core ctr n : Nat) (dp : Bool) : State :=
  let held := dp && (s.ctx (s.core core).ctx).preempt
  let s := s.modCore core (fun k => { k with
    wait := some { ctr := ctr, n := n, dp := dp, held := held }, st := if held then .parked else .waiting
    retired := (k.retired + 1) % 2 ^ 64 })
  (s.account (s.core core).ctx 0 1).tryWait core

/-- Amount of a counter that bells, Skiver gates and Stitcher gates that wait on it take before a wait that issues
later (R267). -/
def State.claims (s : State) (core ctr : Nat) : Nat :=
  let c := (s.core core).ctx
  let j := (s.ctx c).relCore core
  s.awlClaim c j ctr + s.skvClaim c j ctr + s.stcClaim c j ctr

/-- A wait issues. Where it would pass, what those that waited before it take goes first, and its issue lies after that
(assumption 126). -/
def State.issueWait (s : State) (core ctr n : Nat) (dp : Bool) : Run :=
  let v := tget 0 (s.core core).sync ctr
  if n ≤ v ∧ v < n + s.claims core ctr then .error (.later, s) else .ok (s.startWait core ctr n dp)

def execWait (core : Nat) (w : IWord) (s : State) : Host.Outcome State Fault Refusal :=
  whenUp s (s.atHead core (.wait core w) (fun s =>
    if !wordOk w 0x34 1 [(45, 17)] ∨ 47 < wf w 51 46 ∨ wf w 15 0 = 0 then s.illegalWord w
    else s.issueWait core (wf w 51 46) (wf w 15 0) (bit w.toNat 16)))

def execWaitr (core : Nat) (w : IWord) (s : State) : Host.Outcome State Fault Refusal :=
  whenUp s (s.atHead core (.waitr core w) (fun s =>
    if !wordOk w 0x35 1 [(45, 30), (24, 17), (15, 0)] ∨ 47 < wf w 51 46 then s.illegalWord w
    else s.issueWait core (wf w 51 46) ((s.sreg core (wf w 29 25)).toNat % 65536) (bit w.toNat 16)))

/-- DEC: at once, or FLT_SYNC_UNDERFLOW. -/
def execDec (core : Nat) (w : IWord) (s : State) : Host.Outcome State Fault Refusal :=
  coreStep s core (.dec core w) (fun s =>
    let ctr := wf w 51 46
    let n := wf w 15 0
    let v := tget 0 (s.core core).sync ctr
    if !wordOk w 0x34 2 [(45, 16)] ∨ 47 < ctr ∨ n = 0 then s.illegalWord w
    else if v < n then s.wordFault fltSyncUnderflow w
    else .ok (s.modCore core (fun k => { k with sync := tset 0 k.sync ctr (v - n) })))

def execRead (core : Nat) (w : IWord) (s : State) : Host.Outcome State Fault Refusal :=
  coreStep s core (.read core w) (fun s =>
    if !wordOk w 0x34 3 [(45, 35), (29, 0)] ∨ 47 < wf w 51 46 then s.illegalWord w
    else .ok (s.setS core (wf w 34 30) (BitVec.ofNat 32 (tget 0 (s.core core).sync (wf w 51 46)))))

/-! ### Arrival of increments (R266, R267, R276) -/

/-- The logical cluster whose stop an increment goes to. -/
def State.stopOf (s : State) (i : Incr) : Option Nat := ((s.ctx i.ctx).coreAt i.core).map (· / 16)

/-- Of the increments in flight, the first `n` that `mine` picks, and the rest. An increment that an earlier one from
the same source to the same stop (`here`) still precedes stays behind it (R172). -/
def takeIncrs (mine here : Incr → Bool) : Nat → List Nat → List Incr → List Incr × List Incr
  | _, _, [] => ([], [])
  | n, blocked, i :: t =>
    if n != 0 && mine i && !blocked.contains i.src then
      let r := takeIncrs mine here (n - 1) blocked t
      (i :: r.1, r.2)
    else
      let r := takeIncrs mine here n (if here i then i.src :: blocked else blocked) t
      (r.1, i :: r.2)

/-- The increment is for counter `ctr` of logical core `core`. -/
def State.hits (s : State) (core ctr : Nat) (i : Incr) : Bool :=
  i.ctr == ctr && (s.ctx i.ctx).coreAt i.core == some core

/-- A counter holds what it should: waits on it pass, or a descheduled context becomes ready (R276). -/
def State.afterIncr (s : State) (c core : Nat) : State :=
  if (s.ctx c).st = .resident then
    let t := s.tryWait core
    if (t.core core).wait = none ∧ (s.core core).wait ≠ none then t.modCtx c (fun x => { x with deschedulable := false }) else t
  else if (s.ctx c).st = .descheduled ∧ (s.ctx c).savedReady then (s.makeReady c).reschedule (s.ctx c).map
  else s

/-- Increments summed in one cycle, with one overflow test (R266, R267). -/
def State.arrive (s : State) (core ctr count : Nat) : State :=
  match s.flight.find? (s.hits core ctr) with
  | none => s
  | some i =>
    let mine := fun (j : Incr) => s.hits core ctr j && j.ctx == i.ctx
    let r := takeIncrs mine (fun j => s.stopOf j == some (core / 16)) count [] s.flight
    let sum := (r.1.map (·.n)).foldl (· + ·) 0
    let v := (s.ctrGet i.ctx i.core ctr).getD 0
    let s := { s with flight := r.2 }
    if r.1.isEmpty then s
    else if 65535 < v + sum then s.ctxFault i.ctx { code := fltSyncOverflow, unit := i.core, detail := ctr }
    else (s.ctrSet i.ctx i.core ctr (v + sum)).afterIncr i.ctx core

def execSyncIncrementArrival (core ctr count : Nat) (s : State) : Host.Outcome State Fault Refusal :=
  whenUp s (s.arrive core ctr count)

/-! ### Parking (R274) -/

/-- `dt` ARITH_CLK cycles of a wait pass: the core parks once the spin limit has passed, its engine work
is done and its partition has more than 4 clusters. -/
def State.parkCore (s : State) (core dt : Nat) : State :=
  let k := s.core core
  let x := s.ctx k.ctx
  match k.wait with
  | none => s
  | some w =>
    if k.st = .parked then
      (s.modCore core (fun k => { k with park := (k.park + dt) % 2 ^ 64 })).account k.ctx 5 dt
    else if k.st = .waiting then
      let s := (s.modCore core (fun k => { k with wait := some { w with cycles := w.cycles + dt } })).account k.ctx 4 dt
      if x.spin ≤ w.cycles + dt ∧ k.queues.isEmpty ∧ 4 < x.k then s.modCore core (fun k => { k with st := .parked }) else s
    else s

def execCorePark (core dt : Nat) (s : State) : Host.Outcome State Fault Refusal := whenUp s (s.parkCore core dt)

/-! ### Work counters (R281) -/

/-- Index and scope of a work counter instruction are legal. -/
def workOk (w : IWord) (fn : Nat) (zeros : List (Nat × Nat)) : Bool :=
  wordOk w 0x36 fn zeros && (bit w.toNat 46 || decide (wf w 45 38 ≤ 15))

/-- Physical device counter of an index, or none where it is not declared (R280). -/
def State.devCtr (s : State) (core idx : Nat) : Option Nat := (s.ctx (s.core core).ctx).ctrs[idx]?

def State.wfaRun (s : State) (core : Nat) (w : IWord) : Run :=
  let idx := wf w 45 38
  let put := fun (r : Nat × State) => r.2.setS core (wf w 51 47) (BitVec.ofNat 32 r.1)
  if bit w.toNat 46 then
    match s.fetchDevice (s.core core).ctx idx with
    | some r => .ok (put r)
    | none => s.wordFault fltWorkOwner w
  else .ok (put (s.fetchCluster (core / 16) idx))

def execWfa (core : Nat) (w : IWord) (s : State) : Host.Outcome State Fault Refusal :=
  coreStep s core (.wfa core w) (fun s => if workOk w 0 [(37, 0)] then s.wfaRun core w else s.illegalWord w)

def State.wsetRun (s : State) (core : Nat) (w : IWord) : Run :=
  let idx := wf w 45 38
  let v := (s.sreg core (wf w 51 47)).toNat
  let l := (s.sreg core (wf w 37 33)).toNat
  let dev := s.devCtr core idx
  if bit w.toNat 46 ∧ dev = none then s.wordFault fltWorkOwner w
  else if l = 0xFFFFFFFF then s.wordFault fltWorkArg w
  else match (if bit w.toNat 46 then dev else none) with
    | some p => .ok (s.modWork p (fun x => { x with v := v, limit := l }))
    | none => .ok (s.modCluster (core / 16) (fun c => { c with wc := tset (0, 0) c.wc idx (v, l) }))

def execWset (core : Nat) (w : IWord) (s : State) : Host.Outcome State Fault Refusal :=
  coreStep s core (.wset core w) (fun s => if workOk w 1 [(32, 0)] then s.wsetRun core w else s.illegalWord w)

def State.wrdRun (s : State) (core : Nat) (w : IWord) : Run :=
  let idx := wf w 45 38
  let put := fun (v : Nat) => s.setS core (wf w 51 47) (BitVec.ofNat 32 v)
  if bit w.toNat 46 then
    match s.devCtr core idx with
    | some p => .ok (put (s.workCtr p).v)
    | none => s.wordFault fltWorkOwner w
  else .ok (put (tget (0, 0) (s.cluster (core / 16)).wc idx).1)

def execWrd (core : Nat) (w : IWord) (s : State) : Host.Outcome State Fault Refusal :=
  coreStep s core (.wrd core w) (fun s => if workOk w 2 [(37, 0)] then s.wrdRun core w else s.illegalWord w)

/-! ### The host's signal (R273, R285) -/

/-- BAR0 offset of SYN_HOST_SIGNAL. -/
def hostSignalOff : Nat := 0x80210

/-- A context that runs: resident or descheduled (R430). -/
def Ctx.runs (x : Ctx) : Bool := x.live && x.st != .loading && x.st != .tearingDown && !x.standing

/-- A complete 64-bit word acts: an increment from outside, or a discard that SYN_HOST_STATUS shows. -/
def State.hostSig (s : State) (v : Nat) : State :=
  let c := bits v 5 0
  let ctr := bits v 11 6
  let core := bits v 22 12
  let n := bits v 47 32
  if !(s.ctx c).runs ∨ 16 * (s.ctx c).k ≤ core ∨ 47 < ctr ∨ n = 0 then { s with hostDropped := true }
  else s.sendIncr { ctx := c, core := core, ctr := ctr, n := n, fromCtx := false, src := 0x300 }

def execHostSignal (route : Route) (high : Nat) (s : State) : Host.Outcome State Fault Refusal :=
  let r := s.takeHeld route hostSignalOff high
  whenUp s (match (if s.reaches route hostSignalOff then r.1 else none) with
    | some v => r.2.hostSig v
    | none => s)

end Sys2Proof.Machine
end

