-- ==== Sys2Proof/Machine/Pair.lean ====
section
/-! DEFINITION. The redundant pair (R482 to R501): the Stirrup link and its frames, what is mirrored, failure
detection, takeover and planned handover, and lock-step (R453, R454). -/
namespace Sys2Proof.Machine
open Sys2Proof

/-! ### The pair's configuration (R482, R487) -/

/-- Index ranges of pair scope: stream, metadata delivery, events, pair (R487, R524). -/
def pairScope (index : Nat) : Bool := [2, 6, 8, 9].contains (index / 0x1000)

/-- SHA-512 of the pair entries and of every pair-scope entry (R482) that a partner with the same entries and the other
pair_id sends: two devices of one pair_id, or of different entries, do not match. -/
def State.pairDigest (s : State) : List Byte :=
  sha512 (leBytes 1 (1 - s.pair.id) ++ s.od.values.flatMap (fun p => match p.2 with
    | some v => if pairScope (p.1 / 256) && p.1 != odKeyNat 0x6010 2 then leBytes 3 p.1 ++ leBytes 2 v.length ++ v else []
    | none => []))

def State.modPair (s : State) (f : Pair → Pair) : State := { s with pair := f s.pair }

/-- Modes 1 and 2, where slots are mirrored and taken over. -/
def State.pairs (s : State) : Bool := s.pair.mode == 1 || s.pair.mode == 2

/-- Slots that the device owns and runs. -/
def State.ownSlots (s : State) : List Nat :=
  (s.slots.filter (fun p => p.2.run != .unconfigured && p.2.run != .shadow && s.owns p.1)).map (·.1)

/-! ### Full state of a slot (R488) -/

/-- A control payload: code, slot, value (assumption 20). -/
def ctlPayload (code slot v : Nat) : List Byte := leBytes 1 code ++ leBytes 1 slot ++ leBytes 8 v

/-- The complete mirror state of a slot, between two frames of kind 7: the first, with a 1, has the partner forget the
tracks and rules that it holds. -/
def State.sendFull (s : State) (n : Nat) : State :=
  let g := (s.slot n).chain.closed
  let s := (s.stirrupSend 3 (mirrorPayload 7 n g [1#8])).sendTracks n g (s.slot n).trk.tracks
  let s := (s.rules.filter (fun r => r.2.cfg.enable && r.2.cfg.slot == n)).foldl (fun s r =>
    s.stirrupSend 3 (mirrorPayload 1 n g (leBytes 2 r.1 ++ r.2.bytes))) s
  let s := (s.mirrorChain n).modRtsp n id
  s.stirrupSend 3 (mirrorPayload 7 n g [])

/-- An entry as a commit mirror carries it (R487). -/
def commitState (key : Nat) (v : List Byte) : List Byte := leBytes 4 key ++ leBytes 2 v.length ++ v

/-- Pieces of at most 4,000 bytes, in order. -/
def packStates : List (List Byte) → List Byte → List (List Byte)
  | [], acc => if acc.isEmpty then [] else [acc]
  | x :: t, acc => if !acc.isEmpty && 4000 < acc.length + x.length then acc :: packStates t x else packStates t (acc ++ x)

/-- Sends the committed values of entries, together as far as one frame holds them; an entry back at its default
is sent as that. -/
def State.sendEntries (s : State) (keys : List Nat) : State :=
  (packStates (keys.map (fun key => commitState key (s.odVal (key / 256) (key % 256)))) []).foldl
    (fun s b => s.stirrupSend 3 (mirrorPayload 5 0 0 b)) s

/-- Every slot that the device owns is protected: EVT_PAIR_SYNCED, once after each link-up (R488). -/
def State.checkSynced (s : State) : State :=
  if s.pairs && s.pair.link == 2 && !s.pair.synced && s.ownSlots.all (fun n => (s.slot n).protect) then
    (s.modPair (fun p => { p with synced := true })).raise { code := evtPairSynced }
  else s

/-! ### Takeover (R496) -/

/-- Committed lies above budget − reserve after a failover: the next step is entered at once (R472). -/
def State.shedFailover (s : State) : State :=
  if !s.energyAdmits 0 && s.pwr.step < 5 then s.enterStep (s.pwr.step + 1) true else s

/-- A takeover decision. In lock-step both devices own every slot already: the survivor leads. -/
def State.takeover (s : State) : State :=
  let s := s.modPair (fun p => { p with
    partnerFailed := true, takeovers := (p.takeovers + 1) % 2 ^ 16, taking := [], giving := [] })
  let s := s.raise { code := evtPairTakeover }
  if s.pair.mode = 3 then { s with pairSh := { s.pairSh with leaderId := s.pair.id } }
  else
    let s := s.modPair (fun p => { p with owner := true, moved := [], taken := [] })
    let s := ((s.ctxs.filter (fun p => p.2.live && p.2.standing)).map (·.1)).foldl State.startStanding s
    let s := s.shedFailover
    let ns := (s.slots.filter (fun p => p.2.run == .shadow)).map (·.1)
    let s := ns.foldl (fun s n => (s.loadShadow n).promote n .takeover true) s
    let s := s.pairSh.sessions.foldl State.narrReopen s
    let d := s.draw 32
    { d.2.modPair (fun p => { p with lastPromote := d.1 }) with pairSh := { d.2.pairSh with sessions := [] } }

/-- The decision table of R495, at a change of one of its inputs. -/
def State.judge (s : State) : State :=
  let p := s.pair
  let bad := p.failLow || !p.hbOk
  if p.mode = 0 then s
  else if p.link ≠ 2 then
    if bad && !p.partnerFailed then s.takeover else s
  else if bad then
    if p.sideFault then s else (s.modPair (fun p => { p with sideFault := true })).raise { code := fltPairSideband }
  else s.modPair (fun p => { p with sideFault := false })

/-! ### The link goes down (R453, R486, R492, R501) -/

/-- Groups no longer wait for the leader; comparison stops (R453). -/
def State.stopLockstep (s : State) (n : Nat) : State :=
  (s.modChain n (fun c => { c with
    groups := c.groups.map (fun g => { g with waiting := false }), leader := [], values := [], partner := [], diverged := true })).settleGroups n

/-- The link is down: FLT_PAIR_LINK, frames discarded, mirroring suspended; held records go out, commits that
wait complete locally and their entries stay marked, handovers in progress end. -/
def State.linkDown (s : State) : State :=
  if s.pair.link ≠ 2 then s
  else
    let held := (s.slots.map (·.1))
    let half := held.filter (fun n => (s.slot n).chain.awaitFinal)
    let wait := s.pair.commitWait
    let s := s.modPair (fun p => { p with
      link := 0, linkDowns := (p.linkDowns + 1) % 2 ^ 16, unacked := [], txWait := [], resends := 0, synced := false
      commitWait := [], taking := [], giving := [] })
    let s := s.raise { code := fltPairLink }
    let s := held.foldl (fun s n =>
      let s := (s.slot n).chain.heldRecs.foldl (fun s r => s.route n r.1 r.2.2) s
      s.modSlot n (fun x => { x with protect := false, chain := { x.chain with heldRecs := [] } })) s
    let s := half.foldl (fun s n =>
      (s.toShadow n).modPair (fun p => { p with moved := p.moved ++ [n], taken := without n p.taken })) s
    let s := if s.pair.mode = 3 then held.foldl State.stopLockstep s else s
    wait.foldl (fun s w => w.1.deliver s) s

/-- R492: no valid frame for 50 µs, or hb stands still for hb_timeout. -/
def execLinkSilent (s : State) : Host.Outcome State Fault Refusal :=
  whenUp s (if s.pair.link = 2 then s.linkDown.judge else s)

/-! ### Sidebands (R494, R495) -/

def execFailInChange (low : Bool) (s : State) : Host.Outcome State Fault Refusal :=
  whenUp s (s.modPair (fun p => { p with failLow := low })).judge

def execHbInMissing (s : State) : Host.Outcome State Fault Refusal :=
  whenUp s (s.modPair (fun p => { p with hbOk := false })).judge

def execHbInEdge (s : State) : Host.Outcome State Fault Refusal :=
  whenUp s (s.modPair (fun p => { p with hbOk := true })).judge

/-- R494: while the device is ready, every 500 µs: the heartbeat count of R490, advanced every 100 µs, has gone on by 5. -/
def execPairHbToggle (s : State) : Host.Outcome State Fault Refusal :=
  whenReady s (s.modPair (fun p => { p with hbOut := !p.hbOut, hbSent := (p.hbSent + 5) % 2 ^ 32 }))

/-! ### The link comes up (R482, R488, R489, R500) -/

/-- The device rejoins a partner that owns every slot: as a shadow for each, with standing contexts for what
it ran (R500). -/
def State.rejoin (s : State) : State :=
  let ns := (s.slots.filter (fun p => p.2.run != .unconfigured)).map (·.1)
  let s := ns.foldl State.toShadow s
  let run := (s.ctxs.filter (fun p => p.2.live && !p.2.standing)).map (·.1)
  let s := run.foldl (fun s c =>
    let x := s.ctx c
    let b := s.imageBytes c
    let s := s.teardownWith c fltCtxKilled false
    match x.req, x.decl with
    | some r, some d => (match s.createCtx x.owner { r with share := none } d true b with
      | .ok (_, s) => s
      | .error (code, detail) => s.raise { code := code, ctx := c, unit := OdRoute.num x.owner, detail := detail })
    | _, _ => s) s
  s.modPair (fun p => { p with owner := false, taken := [], moved := upto 0 256 })

/-- All four lanes have trained: the handshake compares the pair entries, and resynchronisation starts. -/
def State.linkUp (s : State) (digest : List Byte) (partnerOwner : Bool) : State :=
  if s.pair.mode = 0 ∨ s.pair.link = 2 then s
  else if digest ≠ s.pairDigest then (s.modPair (fun p => { p with link := 3 })).raise { code := fltPairConfig }
  else
    let s := s.modPair (fun p => { p with
      link := 2, txSeq := 0, rxSeq := 0, unacked := [], txWait := [], resends := 0, partnerFailed := false, synced := false })
    if s.pairs then
      let s := if partnerOwner && !s.pair.owner then s.rejoin else s
      let s := s.ownSlots.foldl State.sendFull s
      let s := s.narrMirror
      let marked := s.pair.marked
      let s := (s.modPair (fun p => { p with marked := [] })).sendEntries marked
      (s.checkSynced).judge
    else s.judge

def execLinkTrained (partnerDigest : List Byte) (partnerOwner : Bool) (s : State) : Host.Outcome State Fault Refusal :=
  whenUp s (if s.clk.stpRef then s.linkUp partnerDigest partnerOwner else s)

/-- R489: training starts again. -/
def execLinkTrainRetry (s : State) : Host.Outcome State Fault Refusal :=
  whenUp s (if s.pair.mode ≠ 0 ∧ s.pair.link ≠ 2 ∧ s.clk.stpRef then s.modPair (fun p => { p with link := 1 }) else s)

/-! ### Acknowledgement (R486, R487, R491) -/

/-- Sequence number `q` lies at or before `ack`. -/
def seqLe (q ack : Nat) : Bool := decide ((ack + 2 ^ 32 - q) % 2 ^ 32 < 2 ^ 31)

/-- Records of a slot that an acknowledged chain mirror covers go out in order. -/
def State.releaseRecords (s : State) (n closed next : Nat) : State :=
  let covers := fun (r : Nat × Nat × List Byte) => if r.1 ≤ 3 then decide (r.2.1 ≤ closed) else decide (r.2.1 < next)
  let go := (s.slot n).chain.heldRecs.filter covers
  let s := s.modChain n (fun c => { c with heldRecs := c.heldRecs.filter (fun r => !covers r) })
  go.foldl (fun s r => s.route n r.1 r.2.2) s

/-- What the acknowledgement of one frame lets happen. -/
def State.ackFrame (s : State) (f : Nat × Nat × List Byte) : State :=
  let kind := fieldAt f.2.2 0 1
  let n := fieldAt f.2.2 1 1
  let s := if f.1 = 3 ∧ kind = 2 ∧ s.pairs then s.releaseRecords n (fieldAt f.2.2 2 8) (fieldAt f.2.2 74 4)
    else if f.1 = 3 ∧ kind = 7 then s.modSlot n (fun x => { x with protect := true })
    else s
  let done := s.pair.commitWait.filter (fun w => w.2 == f.2.1)
  let s := s.modPair (fun p => { p with commitWait := p.commitWait.filter (fun w => w.2 != f.2.1) })
  done.foldl (fun s w => w.1.deliver s) s

/-- The owner of a slot being given: once its groups have closed and are acknowledged, it sends the final
state and stops (R501). -/
def State.finishGiving (s : State) (n : Nat) : State :=
  let x := s.slot n
  let open_ := s.pair.unacked.any (fun f => f.1 == 3 && fieldAt f.2.2 1 1 == n) || !s.pair.txWait.isEmpty
  if x.chain.groups.isEmpty && x.pics.isEmpty && x.chain.heldRecs.isEmpty && !open_ then
    let s := (s.mirrorChain n).stirrupSend 4 (ctlPayload 2 n 0)
    (s.toShadow n).modPair (fun p => { p with
      giving := p.giving.filter (fun g => g.1 != n), taken := without n p.taken
      moved := if p.moved.contains n then p.moved else p.moved ++ [n] })
  else s

/-- The ack and hb fields of a valid frame. -/
def State.frameHead (s : State) (f : Frame) : State :=
  let got := s.pair.unacked.filter (fun u => seqLe u.2.1 f.ack)
  let s := s.modPair (fun p => { p with
    partnerHb := f.hb, resends := if got.isEmpty then p.resends else 0
    unacked := p.unacked.filter (fun u => !seqLe u.2.1 f.ack) })
  let s := got.foldl State.ackFrame s
  let s := (State.stirrupDrain (s.pair.txWait.length + 1) s).checkSynced
  (s.pair.giving.map (·.1)).foldl State.finishGiving s

/-! ### Frames received (R490, R491) -/

def State.badFrame (s : State) : State := s.modPair (fun p => { p with bad := (p.bad + 1) % 2 ^ 64 })

/-- A frame of types 1 to 4: a bad one is counted; only the next expected number takes effect, and is
acknowledged from then on. -/
def State.takeFrame (s : State) (f : Frame) (ok : Bool) (effect : State → State) : State :=
  if s.pair.link ≠ 2 then s
  else if 4096 < f.payload.length || !ok then s.badFrame
  else
    let s := s.frameHead f
    if f.seq = s.pair.rxSeq then effect (s.modPair (fun p => { p with rxSeq := (p.rxSeq + 1) % 2 ^ 32 })) else s

/-- The pair area holds `[a, a + n)`. -/
def State.inPairArea (s : State) (a n : Nat) : Bool :=
  decide (s.pairSh.area ≤ a) && decide (a + n ≤ s.pairSh.area + s.pairSh.areaLen)

def execStirrupWriteFrame (f : Frame) (s : State) : Host.Outcome State Fault Refusal :=
  let a := fieldAt f.payload 0 8
  let data := f.payload.drop 8
  whenUp s (s.takeFrame f (!data.isEmpty && s.inPairArea a data.length) (fun s => s.store (s.portWays 42) a data))

/-- An increment of a counter that the pair configuration names (R284). -/
def State.rxIncrement (s : State) (p : List Byte) : State :=
  let c := fieldAt p 0 1
  let core := fieldAt p 1 2
  let ctr := fieldAt p 3 1
  if s.pairSh.counters.contains (c, core, ctr) && (s.ctx c).runs then
    s.sendIncr { ctx := c, core := core, ctr := ctr, n := fieldAt p 4 2, fromCtx := false, src := 0x301 }
  else s

def execStirrupIncrementFrame (f : Frame) (s : State) : Host.Outcome State Fault Refusal :=
  whenUp s (s.takeFrame f (f.payload.length == 6) (fun s => s.rxIncrement f.payload))

/-- R490: ack and heartbeat alone. -/
def execStirrupIdleFrame (f : Frame) (s : State) : Host.Outcome State Fault Refusal :=
  whenUp s (if s.pair.link = 2 then (if f.payload.isEmpty then s.frameHead f else s.badFrame) else s)

def execStirrupBadFrame (why : BadFrame) (s : State) : Host.Outcome State Fault Refusal :=
  whenUp s (if s.pair.link = 2 then (match why with | .crc | .length | .unknownType | .outsidePairArea => s.badFrame) else s)

/-! ### Planned handover (R501) -/

/-- The owner learns the receiver's refresh point: units from there on are not analysed. -/
def State.giveFrom (s : State) (n t : Nat) : State :=
  if (s.slot n).run ≠ .running ∨ !s.owns n then s
  else
    let late := (s.slot n).dec.queue.filter (fun q => decide (t ≤ q.unit.ts))
    let s := s.modSlot n (fun x => { x with
      dec := { x.dec with
        queue := x.dec.queue.filter (fun q => decide (q.unit.ts < t))
        used := x.dec.used - late.foldl (fun k q => k + q.unit.bytes.length) 0 }
      chain := { x.chain with groups := x.chain.groups.filter (fun g => !late.any (fun q => q.unit.group == g.num)) } })
    (s.modPair (fun p => { p with giving := p.giving ++ [(n, t)] })).finishGiving n

/-- The receiver has the final state: it continues from there, and its groups close. -/
def State.takeFinal (s : State) (n : Nat) : State :=
  if !(s.slot n).chain.awaitFinal then s
  else
    let s := (s.loadShadow n).modChain n (fun c => { c with
      awaitFinal := false, groups := c.groups.map (fun g => { g with waiting := false }) })
    s.settleGroups n

/-- R501: slots that the device owns are offered to the partner; others it takes itself. -/
def State.handoverSlots (s : State) (ns : List Nat) : State :=
  (sortBy id ns).foldl (fun s n =>
    if (s.slot n).run = .shadow then
      s.modPair (fun p => { p with taking := if p.taking.contains n then p.taking else p.taking ++ [n] })
    else if (s.slot n).run = .running ∧ s.owns n then s.stirrupSend 4 (ctlPayload 0 n 0)
    else s) s

def execPlannedHandover (slots : List Nat) (s : State) : Host.Outcome State Fault Refusal :=
  whenReady s (if s.pairs && s.pair.link == 2 then s.handoverSlots slots else s)

/-- A control message. A partner in step 6 is taken over at once, and acknowledged (R471). -/
def State.control (s : State) (m : CtlMsg) : State :=
  match m with
  | .handoverRequest n => if s.pairs && (s.slot n).run == .shadow then s.handoverSlots [n] else s
  | .handoverReady n t => s.giveFrom n t
  | .handoverFinal n => s.takeFinal n
  | .shedRequest => if s.pairs then s.takeover.stirrupSend 4 (ctlPayload 4 0 0) else s.stirrupSend 4 (ctlPayload 4 0 0)
  | .parkAck =>
    if s.pwr.parkWait then { s.park with pair := { s.park.pair with failOut := true } } else s
  | .config d => if d = s.pairDigest then s
    else (s.linkDown.modPair (fun p => { p with link := 3 })).raise { code := fltPairConfig }

def execStirrupControlFrame (f : Frame) (msg : CtlMsg) (s : State) : Host.Outcome State Fault Refusal :=
  whenUp s (s.takeFrame f true (fun s => s.control msg))

/-! ### Timers (R485, R490, R491) -/

def execStirrupIdleTimer (s : State) : Host.Outcome State Fault Refusal :=
  whenUp s (if s.pair.link = 2 then s.emit (.stirrup (s.pair.frame 0 false 0 [])) else s)

/-- R491: every unacknowledged frame is sent again; after 8 resends without an advance the link is down. -/
def execStirrupRetxTimeout (s : State) : Host.Outcome State Fault Refusal :=
  whenUp s (if s.pair.link ≠ 2 ∨ s.pair.unacked.isEmpty then s
    else if 8 ≤ s.pair.resends then s.linkDown.judge
    else (s.modPair (fun p => { p with
        resends := p.resends + 1, retx := (p.retx + p.unacked.length) % 2 ^ 64 })).emits
      (s.pair.unacked.map (fun f => Out.stirrup (s.pair.frame f.1 true f.2.1 f.2.2))))

/-- Every 100 ms the ledger lines and the calibration factor are mirrored (R485): mW, rounded up. -/
def execLedgerMirror (s : State) : Host.Outcome State Fault Refusal :=
  let line := fun (v : Nat) => leBytes 4 (ceilDiv v pW)
  whenReady s (if s.pairs then
      s.stirrupSend 3 (mirrorPayload 6 0 0 (leBytes 4 s.budgetMw ++ leBytes 4 s.reserveMw ++ line s.baseEnergy
        ++ line s.videoEnergy ++ line s.allotments ++ leBytes 4 s.rne.cal))
    else s)

/-! ### Lock-step (R453, R454) -/

/-- R454: the partner's chain value of a group. -/
def execLockstepChainValue (slot group : Nat) (value : List Byte) (prefixes : List (List Byte)) (s : State) :
    Host.Outcome State Fault Refusal :=
  whenUp s (if s.pair.mode = 3 ∧ s.pair.link = 2 ∧ (s.slot slot).run ≠ .unconfigured ∧ !(s.slot slot).chain.diverged then
      (s.modChain slot (fun c => { c with partner := c.partner ++ [(group, padTo 16 value, prefixes)] })).compareChain slot
    else s)

/-- R453: the leader's forced entries of a group: imposed on the group, which no longer waits for them; global_ids among
them are those that the follower's own searches take (R313). -/
def State.leaderEntries (s : State) (n g : Nat) (bs : List (List Byte)) : State :=
  let es := bs.map entryOfBytes
  let hit := fun (p : Pic) => p.group == g && es.any (fun e => e.typ == 4 && e.key2 == p.seq)
  let cause := fun (p : Pic) => (es.find? (fun e => e.typ == 4 && e.key2 == p.seq)).map (·.sub)
  let here := (s.slot n).chain.groups.any (fun x => x.num == g)
  let links := (es.filter (fun e => e.typ == 8)).map (fun e => (e.key2, fieldAt e.payload 12 4))
  let s := s.modSlot n (fun x => { x with
    trk := { x.trk with recorded := x.trk.recorded ++ links }
    pics := modWhere (fun p => hit p && p.subst.isNone) (fun p => { p with subst := cause p, forced := true }) x.pics
    chain := { x.chain with
      leader := (x.chain.leader.filter (fun l => decide (x.chain.closed ≤ l.1))) ++ [(g, bs)]
      groups := modWhere (fun x => x.num == g) (fun x => { x with entries := x.entries ++ es, waiting := false }) x.chain.groups
      late := if here || decide (x.chain.nextGroup ≤ g) then x.chain.late else x.chain.late ++ es } })
  s.settleGroups n

def execLeaderForcedEntries (slot group : Nat) (entries : List (List Byte)) (s : State) :
    Host.Outcome State Fault Refusal :=
  whenUp s (if s.follower && (s.slot slot).run != .unconfigured then s.leaderEntries slot group entries else s)

end Sys2Proof.Machine
end

