-- ==== Sys2Proof/Machine/Power.lean ====
section
/-! DEFINITION. Rein at work (R457, R459 to R465, R472), supply-sag shedding (R466 to R471), standby
(R381, R421, R474, R475) and the SerDes references (R478). -/
namespace Sys2Proof.Machine
open Sys2Proof

def State.modRne (s : State) (f : Rne → Rne) : State := { s with rne := f s.rne }
def State.modPwr (s : State) (f : Pwr → Pwr) : State := { s with pwr := f s.pwr }

/-! ### Contexts' power and limits (R461, R463) -/

/-- Live contexts that are charged, with their number. -/
def State.charged (s : State) : List (Nat × Ctx) := s.ctxs.filter (fun p => p.2.live && !p.2.standing)

/-- Estimates times cal, in mW (R457). -/
def State.calibrated (s : State) (mw : Nat) : Nat := mw * s.rne.cal / 65536

/-- Parked cores of a context's partition. -/
def State.parkedCores (s : State) (c : Nat) : Nat :=
  if (s.ctx c).st = .resident then ((s.ctx c).cores.filter (fun n => (s.core n).st == .parked)).length else 0

/-- What a context lends: nothing on a partition of 4 clusters or fewer. -/
def State.lends (s : State) (c : Nat) : Nat :=
  let x := s.ctx c
  if x.k ≤ 4 then 0 else (s.ctxRun c).allotMw * s.parkedCores c / x.numCores

/-- Not fully parked. -/
def State.sharing (s : State) (c : Nat) : Bool := decide (s.parkedCores c < (s.ctx c).numCores)

/-- Free headroom in mW. -/
def State.headroom (s : State) : Nat := s.budgetMw - s.reserveMw - ceilDiv s.committed pW

/-- A class takes a part of what is left, shared in proportion to allotments. How much each class takes of
the pool is not given: a free value. -/
def State.shareClass (s : State) (pool cls : Nat) : Nat × State :=
  let cs := s.charged.filter (fun p => p.2.cls == cls && s.sharing p.1)
  let d := s.draw 32
  let take := d.1 % (pool + 1)
  let sum := cs.foldl (fun n p => n + (s.ctxRun p.1).allotMw) 0
  if cs.isEmpty ∨ sum = 0 then (pool, s)
  else (pool - take, cs.foldl (fun t p => t.modRun p.1 (fun r => { r with lentMw := take * r.allotMw / sum })) d.2)

/-- The shares of this tick, in class order. -/
def State.shares (s : State) : State :=
  let lent := s.charged.foldl (fun n p => n + s.lends p.1) 0
  let s := (s.charged.foldl (fun t p => t.modRun p.1 (fun r => { r with lentMw := 0 })) s).modRne (fun r => { r with lent := lent })
  ([0, 1, 2].foldl (fun (acc : Nat × State) c => acc.2.shareClass acc.1 c) (s.headroom + lent, s)).2

/-- A context's power over the last 10 ticks against its limit: above it d falls by 1, below 90 % of it d
rises by 1. It does not rise while the device is over its own limit, or recovering from it (R461). -/
def State.dutyTick (s : State) (m : Meters) (p : Nat × Ctx) : State :=
  let est := s.calibrated (((m.ctxMw.find? (fun e => e.1 == p.1)).map (·.2)).getD 0)
  let may := s.rne.overTicks == 0 && s.rne.cuts.isEmpty
  s.modRun p.1 (fun r =>
    let pw := (est :: r.power).take 10
    let sum := pw.foldl (· + ·) 0
    let limit := 10 * (r.allotMw + r.lentMw)
    { r with
      power := pw
      duty := if limit < sum then max 1 (r.duty - 1) else if may && decide (10 * sum < 9 * limit) then min 16 (r.duty + 1) else r.duty
      acct := tmod 0 r.acct 16 (fun v => (v + est) % 2 ^ 64) })

/-! ### The device's own limit (R461) -/

/-- d of every context of a class moves by one. -/
def State.classDuty (s : State) (cls : Nat) (up : Bool) : State :=
  (s.charged.filter (fun p => p.2.cls == cls)).foldl (fun t p => t.modRun p.1 (fun r =>
    { r with duty := if up then min 16 (r.duty + 1) else max 1 (r.duty - 1) })) s

/-- Every context has d = 1. -/
def State.allSlow (s : State) : Bool := s.charged.all (fun p => (s.ctxRun p.1).duty == 1)

/-- One tick over the limit: replay contexts, in the next tick near-live ones, then live ones; the divider
once every d is 1. -/
def State.lowerTick (s : State) : State :=
  if s.allSlow then
    (if s.rne.budgetStep < 4 then s.modRne (fun r => { r with budgetStep := r.budgetStep + 1, cuts := 3 :: r.cuts }) else s)
  else
    let cls := 2 - s.rne.phase
    let moves := s.charged.any (fun p => p.2.cls == cls && decide (1 < (s.ctxRun p.1).duty))
    let s := s.modRne (fun r => { r with phase := (r.phase + 1) % 3, cuts := if moves then (2 - cls) :: r.cuts else r.cuts })
    s.classDuty cls false

/-- One recovery step: the latest lowering is undone. -/
def State.raiseTick (s : State) : State :=
  match s.rne.cuts with
  | [] => s
  | c :: t =>
    let s := s.modRne (fun r => { r with cuts := t, budgetStep := if c = 3 then r.budgetStep - 1 else r.budgetStep })
    if c = 3 then s else s.classDuty (2 - c) true

/-- Measured power exceeds budget − reserve / 2 (R461, R472). -/
def State.overHalf (s : State) (mw : Nat) : Bool := decide (2 * s.budgetMw < 2 * mw + s.reserveMw)

/-- Measured power against budget − reserve / 2, and against budget − reserve. -/
def State.budgetTick (s : State) (mw : Nat) : State :=
  let high := s.overHalf mw
  let low := decide (mw + s.reserveMw < s.budgetMw)
  let s := s.modRne (fun r => { r with
    overTicks := if high then r.overTicks + 1 else 0, phase := if high then r.phase else 0, under := if low then r.under + 1 else 0 })
  if 3 ≤ s.rne.overTicks then s.lowerTick
  else if s.rne.under % 100 = 0 ∧ 0 < s.rne.under then s.raiseTick
  else s

/-! ### Temperature (R465) -/

/-- At 100 °C one divider step per 1 ms; one lower per 100 ms below 97 °C. -/
def State.thermalTick (s : State) (t : Nat) : State :=
  let r := s.rne
  let n := r.thermTick + 1
  if 100 ≤ t then
    (if r.thermalStep < 4 ∧ (10 ≤ n ∨ !r.thermal) then
      s.modRne (fun r => { r with thermal := true, thermalStep := r.thermalStep + 1, thermTick := 0 })
    else s.modRne (fun r => { r with thermTick := n }))
  else if t < 97 then
    (if 1000 ≤ n ∧ 0 < r.thermalStep then
      s.modRne (fun r => { r with thermal := decide (1 < r.thermalStep), thermalStep := r.thermalStep - 1, thermTick := 0 })
    else s.modRne (fun r => { r with thermTick := n }))
  else s.modRne (fun r => { r with thermTick := n })

/-- The higher of the two divider steps is wanted; it takes effect under R460. -/
def State.wantDivider (s : State) : State :=
  let w := max s.rne.thermalStep s.rne.budgetStep
  s.modRne (fun r => { r with divNext := if w = r.divStep then none else some w })

/-- EVT_RNE_THROTTLE, at most once per second while a step above 0 or a d below 16 is in force. -/
def State.throttleEvent (s : State) : State :=
  let on := decide (0 < s.rne.divStep) || s.charged.any (fun p => decide ((s.ctxRun p.1).duty < 16))
  let due := match s.rne.lastThrottle with | some t => decide (t + 10000 ≤ s.rne.ticks) | none => true
  if on && due then (s.modRne (fun r => { r with lastThrottle := some r.ticks })).raise { code := evtRneThrottle } else s

/-! ### Shedding by budget (R472) -/

/-- The highest step in force is left by budget. -/
def State.leaveByBudget (s : State) : State :=
  if 0 < s.pwr.step ∧ bit s.pwr.byBudget s.pwr.step then s.leaveStep s.pwr.step else s

/-- One step per 10 ticks over the limit with every throttle used up; in reverse after 10 s below. -/
def State.shedTick (s : State) (mw : Nat) : State :=
  let stuck := s.overHalf mw && s.allSlow && s.rne.divStep == 4
  let calm := decide (mw + 2 * s.reserveMw < s.budgetMw)
  let s := s.modRne (fun r => { r with
    shedOver := if stuck then r.shedOver + 1 else 0, shedUnder := if calm then r.shedUnder + 1 else 0 })
  let s := if 10 ≤ s.rne.shedOver then
      let t := s.modRne (fun r => { r with shedOver := 0 })
      if t.pwr.step < 5 then t.enterStep (t.pwr.step + 1) true else t
    else s
  if 100000 ≤ s.rne.shedUnder then (s.modRne (fun r => { r with shedUnder := 0 })).leaveByBudget else s

/-- Rein's tick, every 100 µs (R461). -/
def State.reinTick (s : State) (m : Meters) : State :=
  if 110 ≤ m.tempC then s.overheat
  else
    let s := s.modRne (fun r => { r with
      ticks := r.ticks + 1, measured := m.powerMw, energy := (r.energy + m.energyUj) % 2 ^ 64 })
    let s := s.shares
    let s := s.charged.foldl (fun s p => s.dutyTick m p) s
    (((s.budgetTick m.powerMw).thermalTick m.tempC).wantDivider.shedTick m.powerMw).throttleEvent

def execReinTick (m : Meters) (s : State) : Host.Outcome State Fault Refusal :=
  whenReady s (s.reinTick m)

/-- cal = (3 × cal + m) / 4, clamped to [0.5, 2.0], m being the measured energy over the summed estimates and
the leakage model's energy; a new second also begins for the reports of R568. Where nothing is estimated m
is a free value. -/
def State.calibrate (s : State) (measured estimated leak : Nat) : State :=
  let d := s.draw 20
  let m := if estimated + leak = 0 then d.1 else measured * 65536 / (estimated + leak)
  let s := if estimated + leak = 0 then d.2 else s
  { s.modRne (fun r => { r with cal := min 131072 (max 32768 ((3 * r.cal + m) / 4)) }) with
    kpr := { s.kpr with reports := [] }
    pci := { s.pci with deniedPages := [] } }

def execCalibrationUpdate (measured estimated leakage : Nat) (s : State) : Host.Outcome State Fault Refusal :=
  whenReady s (s.calibrate measured estimated leakage)

/-- R460: the divider changes at a root cycle that is a multiple of 840. -/
def execArithDividerChange (rootCount : Nat) (s : State) : Host.Outcome State Fault Refusal :=
  whenUp s (match s.rne.divNext with
    | some d => if rootCount % 840 = 0 then
        { s.modRne (fun r => { r with divStep := d, divNext := none }) with clk := { s.clk with arithDiv := 4 + d } }
      else s
    | none => s)

/-! ### Supply sag (R466 to R468) -/

/-- The times of one step when the inputs take new values at `us`. -/
def ShedStep.inputs (x : ShedStep) (warn : Bool) (droop us : Nat) : ShedStep :=
  let run := x.holdUs + (match x.holdFrom with | some t => us - t | none => 0)
  let x := { x with droopSince := if droop < x.d then none else if x.droopSince.isSome then x.droopSince else some us }
  if warn ∨ x.d ≤ droop then { x with holdUs := 0, holdFrom := none }
  else if x.d ≤ droop + 10 then { x with holdUs := run, holdFrom := none }
  else if x.holdFrom.isSome then x else { x with holdFrom := some us }

/-- The filtered inputs take new values. -/
def State.sagInputs (s : State) (warn : Bool) (droop us : Nat) : State :=
  s.modPwr (fun p => { p with
    us := us, warn := warn, droop := droop
    warnSince := if warn then (if p.warnSince.isSome then p.warnSince else some us) else none
    steps := p.steps.map (fun x => x.inputs warn droop us) })

def execPwrWarn (asserted : Bool) (us : Nat) (s : State) : Host.Outcome State Fault Refusal :=
  whenUp s (if s.pwr.us ≤ us then s.sagInputs asserted s.pwr.droop us else s)

def execDroopChange (tenths us : Nat) (s : State) : Host.Outcome State Fault Refusal :=
  whenUp s (if s.pwr.us ≤ us then s.sagInputs s.pwr.warn tenths us else s)

/-- Settings and times of step `n`, 1 to 6. -/
def State.shedStep? (s : State) (n : Nat) : Option ShedStep := if n = 0 then none else s.pwr.steps[n - 1]?

/-- Step `n` is due by supply at `us`: droop for t_n, or warn for w_n. -/
def State.entryDue (s : State) (n us : Nat) : Bool :=
  match s.shedStep? n with
  | none => false
  | some x =>
    (match x.droopSince with | some t => decide (t + x.t ≤ us) | none => false)
      || (match s.pwr.warnSince with | some t => decide (t + x.w ≤ us) | none => false)

/-- The hold count of step `n` has reached h_n at `us`. -/
def State.exitDue (s : State) (n us : Nat) : Bool :=
  match s.shedStep? n with
  | none => false
  | some x => decide (x.h * 1000 ≤ x.holdUs + (match x.holdFrom with | some t => us - t | none => 0))

/-- Step 6: the last mirror and the request to the partner; without one the device parks at once (R471). -/
def State.stepSix (s : State) : State :=
  if s.pair.mode = 0 then s.park
  else
    let s := if s.pairs then s.ownSlots.foldl State.sendFull s else s
    let s := if s.pairs then s.narrMirror else s
    (s.stirrupSend 4 (ctlPayload 3 0 0)).modPwr (fun p => { p with parkWait := true })

/-- A step due by supply: entered after the one below it. One in force by budget is in force by supply from
now on, and is not entered again (R472). -/
def execShedStepEntry (n us : Nat) (s : State) : Host.Outcome State Fault Refusal :=
  whenUp s (if n = 0 ∨ 6 < n ∨ us < s.pwr.us ∨ !s.entryDue n us then s
    else
      let s := s.modPwr (fun p => { p with us := us })
      if n ≤ s.pwr.step then s.modPwr (fun p => { p with byBudget := setBit p.byBudget n false })
      else if n ≠ s.pwr.step + 1 then s
      else
        let s := s.enterStep n false
        if n = 6 then s.stepSix else s)

/-- Leaving step 6: a recovered device of a pair rejoins as one; without a partner work resumes (R471). -/
def State.leaveSix (s : State) : State :=
  let s := if s.pwr.mode = .parked then s.unpark else s.modPwr (fun p => { p with parkWait := false })
  if s.pair.mode = 0 then s
  else
    let s := s.modPair (fun p => { p with failOut := false })
    if s.pairs then s.rejoin else s

def execShedStepExit (n us : Nat) (s : State) : Host.Outcome State Fault Refusal :=
  whenUp s (if n = 0 ∨ n ≠ s.pwr.step ∨ us < s.pwr.us ∨ bit s.pwr.byBudget n ∨ !s.exitDue n us then s
    else
      let s := (s.modPwr (fun p => { p with us := us })).leaveStep n
      if n = 6 then s.leaveSix else s)

/-- R471: 50 ms without an acknowledgement. -/
def execShedParkTimeout (s : State) : Host.Outcome State Fault Refusal :=
  whenReady s (if s.pwr.parkWait then s.park else s)

/-! ### Standby (R381, R421, R474, R475) -/

/-- The eighth of its die that a page lies in. -/
def eighthOf (page : Nat) : Nat := page / 32768

/-- TKP_KEEP: of each die, the eighths that hold a retained page, the system pool's at 0 among them (R421): die 0
in bits 7 to 0. -/
def State.keepMask (s : State) : Nat :=
  let held := (s.tkp.pages.filter (fun p => p.2.retain && p.2.st == .held)).map (fun p => dieOf (p.1 % 64) * 8 + eighthOf p.1)
  (upto 0 16).foldl (fun m i => setBit m i (held.contains i || i % 8 == 0)) 0

/-- The eighth of an address is kept under MEM_PASR; a mask of 0 is 0x01. -/
def State.keeps (s : State) (a : Nat) : Bool :=
  let m := bits (s.mem.pasr / 2 ^ (8 * dieOf (chanOf a))) 7 0
  bit (if m = 0 then 1 else m) (eighthOf (pageOf a))

/-- Every lost eighth reads zero and fails no check (R381). -/
def State.loseEighths (s : State) : State :=
  let stays := fun (a : Nat) => !inSaddle a || s.keeps a
  { s with mem := { s.mem with
      bytes := s.mem.bytes.filter (fun p => stays p.1), failing := s.mem.failing.filter (fun p => stays p.1) } }

/-- The channels in use take a new state. -/
def State.setChannels (s : State) (st : ChanSt) : State :=
  (upto 0 64).foldl (fun s c => s.modChan c (fun x => if x.st = .outOfUse then x else { x with st := st })) s

/-- The sequence of R474. -/
def State.enterStandby (s : State) : State :=
  if s.pwr.mode = .leaving then s.modPwr (fun p => { p with pendingStandby := true })
  else if s.pwr.mode = .standby ∨ s.pwr.mode = .entering then s
  else
    let s := (s.modPwr (fun p => { p with mode := .entering, parkWait := false, fenced := [] })).remember
    let keep := s.keepMask
    let s := (s.slots.map (·.1)).foldl State.endSlot s
    let s := ((s.ctxs.filter (fun p => p.2.live)).map (·.1)).foldl (fun s c => s.teardownWith c 0 false) s
    let s := s.flushed
    let s := { s with mem := { s.mem with pasr := keep ||| s.pwr.keepExtra % 65536, cache := [], flushing := false }
                      pci := { s.pci with saddleReady := false } }
    ((s.setChannels .selfRefresh).devEvent 0).modPwr (fun p => { p with mode := .standby })

/-- The command of entry 0x4001.01. -/
def execStandbyEnter (route : OdRoute) (s : State) : Host.Outcome State Fault Refusal :=
  reqDone s route (s.secured route 1 ⟨0, 0, s.enterStandby⟩)

/-- Every step in force is left, from the highest down. -/
def State.clearSteps : Nat → State → State
  | 0, s => s
  | k + 1, s => State.clearSteps k (if s.pwr.step = 0 then s else s.leaveStep s.pwr.step)

/-- A wake from a source other than PCIe: PCI_DEV_EVENTS.wake, and PME where the host enabled it (R518). -/
def State.signalWake (s : State) : State :=
  let s := s.devEvent 2
  if s.pci.dState = 0 ∨ !s.pci.pmeEn then s
  else
    let s := { s with pci := { s.pci with pmeStatus := true } }
    if s.pci.linkL2 then ({ s with pci := { s.pci with wakeAsserted := true } }).emit .wakePin else s.emit .pme

/-- Standby is left: the saddle begins its exit from self-refresh. -/
def State.wake (s : State) (nonPcie : Bool) : State :=
  if s.pwr.mode ≠ .standby then s
  else
    let s := State.clearSteps 6 (s.modPwr (fun p => { p with mode := .leaving }))
    if nonPcie then s.signalWake else s

def execStandbyWake (nonPcie : Bool) (s : State) : Host.Outcome State Fault Refusal :=
  whenUp s (s.wake nonPcie)

/-- The channels of the dies in use (R503). -/
def State.dieChannels (s : State) : Nat :=
  match s.mem.lostDie with
  | none => 2 ^ 64 - 1
  | some d => if d = 0 then (2 ^ 32 - 1) * 2 ^ 32 else 2 ^ 32 - 1

/-- A context that ran is created again, on the channels that are left; a refusal raises its fault. -/
def State.recreate (s : State) (e : CreateReq × ImageDecl × OdRoute × List Byte) : State :=
  if (match e.1.ctx with | some c => (s.ctx c).live | none => false) then s
  else match s.createCtx e.2.2.1 { e.1 with channels := e.1.channels &&& s.dieChannels } e.2.1 false e.2.2.2 with
  | .ok (_, s) => s
  | .error (code, detail) =>
    s.raise { code := code, unit := OdRoute.num e.2.2.1, detail := if code = fltShape then detail else ctxIndex (e.1.ctx.getD 0) }

/-- A slot is configured again, with the tracks of its checkpoint (R289). -/
def State.resumeSlot (s : State) (e : Nat × Nat × Tbl Track) : State :=
  match (if (s.slot e.1).run = .unconfigured then s.reconfigure e.1 else .ok s) with
  | .ok s => if (s.slot e.1).run = .unconfigured then s
      else (s.modTracks e.1 (fun k => { k with nextSerial := e.2.1, tracks := e.2.2 })).checkpoint e.1
  | .error code => s.raise { code := code, unit := 3, detail := 0x2100 + e.1, slot := e.1 }

/-- What ran before standby or a die loss runs again. -/
def State.resumeRun (s : State) : State :=
  let cs := s.pwr.restore
  let ns := s.pwr.restoreSlots
  let s := cs.foldl State.recreate (s.modPwr (fun p => { p with restore := [], restoreSlots := [] }))
  ns.foldl State.resumeSlot s

/-- R381, R517: every channel is trained and every lost eighth filled; the device reaches Run. A standby
request that came meanwhile starts now (R523). -/
def State.saddleBack (s : State) : State :=
  if s.pwr.mode ≠ .leaving then s
  else
    let s := s.loseEighths.setChannels .active
    let s := ({ s with pci := { s.pci with saddleReady := true } }).devEvent 0
    let again := s.pwr.pendingStandby
    let s := (s.modPwr (fun p => { p with mode := .run, pendingStandby := false })).resumeRun
    if again then s.enterStandby else s

def execSelfRefreshExitComplete (s : State) : Host.Outcome State Fault Refusal := whenUp s s.saddleBack

/-! ### SerDes references (R21, R478) -/

/-- The links of a lost reference go down: FLT_CLK_SERDES_REF. -/
def State.refLost (s : State) (r : SerdesRef) : State :=
  let s := s.raise { code := fltClkSerdesRef }
  match r with
  | .pcie => { s with clk := { s.clk with pcieRef := false } }
  | .ethernet => { s with clk := { s.clk with ethRef := false, mgmtLock := false } }
  | .stirrup => ({ s with clk := { s.clk with stpRef := false } }).linkDown.judge

def State.refHere (s : State) (r : SerdesRef) : Bool :=
  match r with
  | .pcie => s.clk.pcieRef
  | .ethernet => s.clk.ethRef
  | .stirrup => s.clk.stpRef

def execSerdesRefLoss (r : SerdesRef) (s : State) : Host.Outcome State Fault Refusal :=
  answer s (if s.up then (if s.refHere r then s.refLost r else s)
    else match r with
      | .pcie => { s with clk := { s.clk with pcieRef := false } }
      | .ethernet => { s with clk := { s.clk with ethRef := false, mgmtLock := false } }
      | .stirrup => { s with clk := { s.clk with stpRef := false } })

/-- R481: the reference is present. -/
def execSerdesRefReturn (r : SerdesRef) (s : State) : Host.Outcome State Fault Refusal :=
  answer s (match r with
    | .pcie => { s with clk := { s.clk with pcieRef := true } }
    | .ethernet => { s with clk := { s.clk with ethRef := true, mgmtLock := true } }
    | .stirrup => { s with clk := { s.clk with stpRef := true } })

end Sys2Proof.Machine
end

