-- ==== Sys2Proof/Machine/OdRead.lean ====
section
/-! DEFINITION. Reading the object dictionary: the values that the device gives (R529 to R531, R572), and the
read and info operations (R534, R536). -/
namespace Sys2Proof.Machine
open Sys2Proof

/-! ### Codes -/

def SlotRun.code : SlotRun → Nat
  | .unconfigured => 0
  | .running => 1
  | .stopped => 2
  | .shadow => 3
  | .suspended => 4

/-- CTX_STATUS.state (R441). -/
def CtxSt.code : CtxSt → Nat
  | .free => 0
  | .loading => 1
  | .resident => 2
  | .switchingOut => 3
  | .descheduled => 4
  | .switchingIn => 5
  | .tearingDown => 6
  | .ended => 7

/-- cal as binary32: an exact multiple of 2^−16. -/
def calFloat (cal : Nat) : Nat := fenc f32 false (.fin false cal (-16))

/-- Reduced capacity (R15, R503). -/
def State.degraded (s : State) : Bool := decide (s.boot.clusters < s.fuses.grade.1) || s.mem.lostDie.isSome

/-- Live 1080p30 streams: 16 for each decode engine, and on one die half the grade's (R15, R503). -/
def State.liveCapacity (s : State) : Nat :=
  16 * s.decoderCount

/-- Every owned slot is protected (R488). -/
def State.pairProtected (s : State) : Bool := s.pairs && s.pair.link == 2 && s.ownSlots.all (fun n => (s.slot n).protect)

/-- Stage counts, 2 bits each (R572, R573). -/
def State.failCounts (s : State) : Nat := (upto 1 9).foldl (fun v n => v + min 3 (tget 0 s.boot.counts n) * 4 ^ (n - 1)) 0

/-- An accounting counter; energy is kept in tenths of a µJ (R440). Which bytes over PCIe, Ethernet and Stirrup are a
context's is not stated: those three are free values (assumption 37). -/
def State.acctValue (s : State) (c i : Nat) : Nat :=
  let v := tget 0 (s.ctxRun c).acct i
  if i = 16 then v / 10 else if 13 ≤ i ∧ i ≤ 15 then Config.freeValue s.od.free % 2 ^ 64 else v

/-- A device total of R406. -/
def State.intTotal (s : State) (i : Nat) : Nat :=
  (s.mem.cnt.filter (fun p => p.1 % 16 == i)).foldl (fun n p => n + p.2) 0 % 2 ^ 64

/-- Entries of a route's transaction staged by a session. -/
def State.ownTxn (s : State) (w : OdFrom) : Option Txn :=
  match (s.odRoute (OdRoute.num w.route)).txn with
  | some t => if t.session = w.session then some t else none
  | none => none

/-! ### Values -/

/-- Identity, communication and pool entries. -/
def State.roIdentity (s : State) (index sub : Nat) : List Byte :=
  let fw := fun (k : Nat) => match tget none s.flash.slots (k * 2 + tget 0 s.boot.from2 k) with | some c => c.fwVersion | none => 0
  if index = 0x1000 then
    (if sub = 1 then Config.vendorName.take 16
     else if sub = 2 then ascii (if s.fuses.part = 1 then "QS-2840L" else "QS-2840")
     else if sub = 3 then leBytes 1 s.fuses.stepping else padTo 16 s.fuses.serial)
  else if index = 0x1001 then
    (if sub = 1 then leBytes 4 (fw 2) else if sub = 2 then leBytes 4 (fw 3) else leBytes 2 Config.romVersion)
  else if index = 0x1002 then
    (if sub = 1 then leBytes 2 s.boot.clusters else if sub = 2 then leBytes 1 s.decoderCount
     else if sub = 3 then leBytes 2 s.liveCapacity else if sub = 4 then leBytes 1 (b2n s.degraded)
     else leBytes 1 (if s.mem.lostDie.isSome then 1 else 2))
  else []

/-- Slots, contexts and their counters. -/
def State.roUnits (s : State) (index sub : Nat) : List Byte :=
  let n := index % 256
  if index / 256 = 0x21 then
    (if sub = 0x20 then leBytes 1 (s.slot n).run.code else if sub = 0x21 then leBytes 1 (s.slot n).shedMode
     else leBytes 2 (s.slot n).stopFault)
  else if index / 256 = 0x22 then leBytes 8 (tget 0 (s.slot n).counters sub)
  else if index / 256 = 0x29 then leBytes 8 (s.slot n).chain.audHead
  else if index / 256 = 0x31 then (if sub = 0x20 then leBytes 1 (s.ctx n).st.code else leBytes 2 (s.ctx n).lastFault)
  else if index / 256 = 0x32 then leBytes 8 (s.acctValue n (sub - 1))
  else []

/-- Energy, integrity and the pair. -/
def State.roPower (s : State) (index sub : Nat) : List Byte :=
  if index = 0x4000 then
    (if sub = 4 then leBytes 4 (ceilDiv s.committed pW) else if sub = 5 then leBytes 4 s.rne.measured
     else leBytes 4 (calFloat s.rne.cal))
  else if index = 0x5001 then leBytes 8 (s.intTotal (sub - 1))
  else if index = 0x5100 then
    (if sub = 1 then leBytes 4 s.mem.retired.length else if sub = 2 then leBytes 4 s.flash.softMap.length
     else leBytes 1 (b2n s.boot.softRestarted))
  else if index / 64 = 0x145 then
    (if sub = 1 then leBytes 1 ((s.chan (index % 64)).remap.filter (fun p => p.2.isSome)).length
     else leBytes 2 (s.chan (index % 64)).failTable.length)
  else if index = 0x6000 then
    (if sub = 1 then leBytes 1 s.pair.link else if sub = 2 then leBytes 1 (b2n s.pairProtected)
     else if sub = 3 then leBytes 2 s.pair.takeovers else leBytes 1 s.pair.mode)
  else []

/-- Security (R572). -/
def State.roSecurity (s : State) (index sub : Nat) : List Byte :=
  if index = 0x7000 then (if sub = 1 then padTo 32 Config.devicePublicKey else keyId Config.devicePublicKey)
  else if index = 0x7001 then padTo 512 s.kpr.report
  else if index = 0x7011 then padTo 192 s.flash.cert
  else if index = 0x7030 then
    (if sub = 1 then leBytes 4 s.failCounts
     else match s.flash.journal[s.kpr.jpos]? with | some r => r.bytes | none => copies 64 0#8)
  else if index = 0x7040 then (if sub = 2 then padTo 64 s.kpr.challenge else leBytes 1 s.kpr.scopes)
  else if index = 0x7050 then padTo 64 s.flash.storedDigest
  else if index = 0x7060 then leBytes 1 s.kpr.updState
  else []

/-- Delivery, events, transactions and diagnostics. -/
def State.roRest (s : State) (w : OdFrom) (index sub : Nat) : List Byte :=
  if index / 16 = 0x810 then
    (let c := s.coll (index % 16)
     if sub = 8 then leBytes 1 (if !c.enable then 0 else if c.up then 1 else 2) else leBytes 8 c.dropped)
  else if index / 16 = 0x910 then
    (let l := s.line (index % 16)
     if sub = 4 then leBytes 1 (b2n (l.held && !l.stuck)) else if sub = 5 then leBytes 1 (b2n l.stuck) else leBytes 8 l.drops)
  else if index = 0xA000 then
    (if sub = 1 then leBytes 1 (if (s.ownTxn w).isSome then 1 else if (match s.session w with | some x => x.report | none => false) then 2 else 0)
     else leBytes 2 (match s.ownTxn w with | some t => t.staged.length | none => 0))
  else if index = 0xA010 then
    (if sub = 1 then leBytes 4 (match s.session w with | some x => x.challenge | none => 0)
     else leBytes 1 (b2n (match s.session w with | some x => x.unlocked | none => false)))
  else if index = 0xA030 then leBytes 4 s.tkp.lastHandle
  else if index = 0xF000 then (if sub = 1 then padTo 32 s.od.lastRecord else leBytes 8 s.od.faultSeq)
  else if index / 256 = 0xF1 then
    leBytes 8 (if sub = 1 then (s.engine (index % 256)).busy else (s.engine (index % 256)).switches)
  else if sub = 1 then leBytes 8 (s.core (index - 0xF200)).conflicts
  else leBytes 1 (b2n (s.core (index - 0xF200)).rangeFlag)

/-- The value of a read-only entry. -/
def State.roValue (s : State) (w : OdFrom) (index sub : Nat) : List Byte :=
  if sub = 0 then leBytes 1 ((s.odGroup index).foldl (fun m p => max m p.1) 0)
  else if index < 0x2000 then s.roIdentity index sub
  else if index < 0x4000 then s.roUnits index sub
  else if index < 0x7000 then s.roPower index sub
  else if index < 0x8000 then s.roSecurity index sub
  else s.roRest w index sub

/-! ### Operations -/

/-- Result of an operation: status, value, state, and the frame whose acknowledgement the response waits for. -/
structure OpRes where
  status : Nat := 0
  value : List Byte := []
  st : State
  wait : Option Nat := none

/-- Milliseconds left of the own transaction: the Cantle's count is time, and the value free, up to 30 s. -/
def State.msLeft (s : State) (w : OdFrom) : OpRes :=
  if (s.ownTxn w).isSome then
    let d := s.draw 32
    { value := leBytes 4 (d.1 % 30001), st := d.2 }
  else { value := leBytes 4 0, st := s }

/-- A read (R536): a session sees what it has staged. The challenge read is the one an unlock must match (R532). -/
def State.odRead (s : State) (w : OdFrom) (index sub : Nat) : OpRes :=
  match s.odEnt index sub with
  | none => { status := 1, st := s }
  | some e =>
    if !s.permits w.route 0 then { status := 2, st := s }
    else if e.acc = 2 then { value := if e.ty = 7 then [] else copies (tySize e.ty e.n) 0#8, st := s }
    else if e.acc = 0 then
      (if index = 0xA000 ∧ sub = 3 then s.msLeft w
       else
        let t := if index = 0xA010 ∧ sub = 1 then s.modSession w (fun x => { x with seen := some x.challenge }) else s
        { value := s.roValue w index sub, st := t })
    else match ((s.ownTxn w).bind (fun t => t.staged.find? (fun g => g.key == odKeyNat index sub))) with
      | some g => { value := g.value, st := s }
      | none => { value := s.odVal index sub, st := s }

/-- The 40 B of an info operation (R534). -/
def OdEnt.info (e : OdEnt) (stamp : Nat) : List Byte :=
  let wide := decide (7 ≤ e.ty)
  let ext := fun (v : Nat) => leBytes 8 (if e.ty = 5 then wrap 64 (sgn 32 v) else v)
  let d := match e.dflt with
    | none => 0
    | some v => if wide then v.length else leNat v
  leBytes 1 e.ty ++ leBytes 1 e.acc ++ leBytes 1 e.lvl ++ [0#8] ++ leBytes 2 (if wide then e.n else 0) ++ copies 2 0#8
    ++ leBytes 4 stamp ++ copies 4 0#8 ++ ext (if wide then (if e.ty = 7 then 0 else e.n) else e.lo)
    ++ ext (if wide then e.n else e.hi) ++ ext d

/-- The info operation. How often the device has changed an entry that only it writes is not counted: the stamp of such
an entry is a free value (R527, assumption 132). -/
def State.odInfo (s : State) (w : OdFrom) (index sub : Nat) : OpRes :=
  match s.odEnt index sub with
  | none => { status := 1, st := s }
  | some e =>
    if !s.permits w.route 0 then { status := 2, st := s }
    else if e.acc = 0 ∧ sub ≠ 0 then
      let d := s.draw 32
      { value := e.info d.1, st := d.2 }
    else { value := e.info (tget 0 s.od.stamps (odKeyNat index sub)), st := s }

/-- A request of one operation, answered on its route's session. -/
def OpRes.answer (r : OpRes) (w : OdFrom) : State :=
  let h := HeldReply.op w r.status r.value
  match r.wait with
  | some q => { r.st with pair := { r.st.pair with commitWait := r.st.pair.commitWait ++ [(h, q)] } }
  | none => h.deliver r.st

/-- A request of a session: counted; the route's session must be open (R539 to R541). -/
def odRequest (w : OdFrom) (s : State) (op : State → OpRes) : Host.Outcome State Fault Refusal :=
  whenReady s (if s.sessionOpen w then
      (op (s.modOdRoute (OdRoute.num w.route) (fun r => { r with reqs := (r.reqs + 1) % 2 ^ 32 }))).answer w
    else s.routeBad w.route)

def execOdxRead (who : OdFrom) (k : OdKey) (s : State) : Host.Outcome State Fault Refusal :=
  odRequest who s (fun s => s.odRead who k.index k.sub)

def execOdxInfo (who : OdFrom) (k : OdKey) (s : State) : Host.Outcome State Fault Refusal :=
  odRequest who s (fun s => s.odInfo who k.index k.sub)

end Sys2Proof.Machine
end

