-- ==== Sys2Proof/Machine/OdApply.lean ====
section
/-! DEFINITION. What committed values do (R528, R537): device-level entries, contexts and slots, in that order,
each against the state with the earlier changes; and the commit, rollback and begin operations (R536, R538). -/
namespace Sys2Proof.Machine
open Sys2Proof

/-- A refusal: status, fault code, and detail of its record. -/
structure OdErr where
  status : Nat := 9
  code : Nat
  detail : Nat
  deriving DecidableEq, Repr

/-! ### Device-level entries -/

/-- Every pool still holds its reservations, and the slot part of the video pool at least 1 GiB (R96, R412, R596). -/
def State.poolsHold (s : State) : Bool :=
  [0, 1, 2, 3].all (fun p => decide (s.poolHeld p ≤ s.poolSize p)) && s.satisfiable
    && decide (s.odNum 0x2000 2 + 4 ≤ s.odNum 0x2000 1)

/-- A channel set holds a number of pages: 4,096 on each channel (R378). -/
def setHolds (set pages : Nat) : Bool := decide (pages ≤ popCount set 64 * 4096)

/-- Video and service channel sets (R378). -/
def State.applySets (s : State) : Except OdErr State :=
  let v := s.odNum 0x2B00 1
  let c := s.odNum 0x2B00 2
  if !s.channelsOk (v &&& s.dieChannels) || !s.channelsOk (c &&& s.dieChannels) then .error { code := fltCtxChannels, detail := 0x2B00 }
  else if !setHolds v (s.odNum 0x2000 1 * 4096) || !setHolds c 4096 then .error { code := fltAdmitPool, detail := 0x2B00 }
  else .ok { s with mem := { s.mem with videoSet := v, svcSet := c } }

/-- Shedding thresholds: an ordering that R467 rules out is discarded, and the entries keep what is in force. -/
def stepsOk : List ShedStep → Bool
  | a :: b :: t => decide (a.d < b.d) && stepsOk (b :: t)
  | _ => true

/-- The times already running are compared with the new thresholds (R467). -/
def State.setSteps (s : State) (xs : List ShedStep) : State :=
  { s with pwr := { s.pwr with steps := xs.map (fun x => x.inputs s.pwr.warn s.pwr.droop s.pwr.us) } }

def State.applySteps (s : State) : State :=
  let xs := (upto 1 6).zip s.pwr.steps |>.map (fun p =>
    let v := s.odNum (0x4100 + p.1)
    { p.2 with d := v 1, t := v 2, w := v 3, h := v 4 })
  if stepsOk xs then s.setSteps xs
  else ((upto 1 6).zip s.pwr.steps).foldl (fun s p =>
    let i := 0x4100 + p.1
    (((s.odPutNat i 1 p.2.d).odPutNat i 2 p.2.t).odPutNat i 3 p.2.w).odPutNat i 4 p.2.h) s

/-- EVT_IN lines that wake the device (R475). -/
def State.applyWake (s : State) (mask : Nat) : State :=
  (upto 0 16).foldl (fun s l => s.modLine l (fun x => { x with wake := bit mask l })) s

/-- Collector `k` (R357 to R360): one that is enabled, or whose address, port or source changes, starts afresh. -/
def State.applyColl (s : State) (k : Nat) (subs : List Nat) : State :=
  let v := s.odNum (0x8100 + k)
  let on := v 6 != 0
  let fresh := on && (!(s.coll k).enable || subs.any (fun i => i ≤ 3))
  s.modColl k (fun c =>
    let b : Collector := if fresh ∨ !on then { up := on } else c
    { b with enable := on, addr := s.odVal (0x8100 + k) 1, port := v 2, source := v 3, ackS := v 4, retxBytes := v 5
             evidPush := v 7 != 0, kept := keepLast (v 5) b.kept })

/-- EVT_IN line `l` (R50, R51, R56). -/
def State.applyLine (s : State) (l : Nat) (subs : List Nat) : State :=
  let v := s.odNum (0x9100 + l)
  let s := if subs.contains 1 then s.setPolarity l (v 1 != 0) else s
  let s := if subs.contains 2 then s.setFilter l (v 2) else s
  if subs.contains 3 then s.setMaxAct l (v 3) else s

/-- After a change of the pair entries each configured slot takes the role that they give it (R483). -/
def State.takeRoles (s : State) : State :=
  ((s.slots.filter (fun p => p.2.run != .unconfigured)).map (·.1)).foldl (fun s n =>
    if s.owns n then
      (if (s.slot n).run = .shadow then ((s.slot n).cfg.bound.foldl State.startStanding s).promote n .configured true else s)
    else s.toShadow n) s

/-- The pair entries (R482, R501, R453): mode, id, hb_timeout, lag and leader of lock-step, pair area, owners,
counters. -/
def State.applyPair (s : State) (index : Nat) (subs : List Nat) : State :=
  let v := s.odNum 0x6010
  let modeSet := index == 0x6010 && subs.any (fun i => i ≤ 2)
  let ctr := fun (i : Nat) => let c := s.odNum 0x6014 i; (c % 256, bits c 23 8, bits c 31 24)
  let used := (upto 1 16).filter (fun i => s.odNum 0x6014 i != 2 ^ 64 - 1)
  let s := { s with
    pair := { s.pair with
      mode := v 1, id := v 2, hbMs := v 3, owners := s.odNum 0x6011 1
      owner := s.pair.owner && !modeSet, moved := if modeSet then [] else s.pair.moved
      taken := if modeSet then [] else s.pair.taken }
    pairSh := { s.pairSh with
      lagMax := v 4, leaderId := if index = 0x6010 ∧ subs.contains 5 then v 5 else s.pairSh.leaderId
      area := v 6, areaLen := v 7, counters := used.map ctr } }
  if modeSet ∨ index = 0x6011 then s.takeRoles else s

/-! ### Contexts -/

/-- Create parameters that the entries at `i` give (R426): a placement of zeros is the lowest free one, a
placement list one byte for each of k clusters. -/
def State.reqAt (s : State) (i c k : Nat) : CreateReq :=
  let v := s.odNum i
  let place := s.odVal i 3
  { ctx := some c, image := v 2
    placement := if place.all (fun b => b == 0#8) then [] else (place.take k).map (·.toNat)
    share := if v 4 = 0xFF then none else some (v 4), channels := v 5, ways := v 6, cls := v 7
    allotMw := if v 8 = 0 then none else some (v 8), spin := v 9, deschedUs := v 0x0A, sliceMs := v 0x0B
    preemptUs := v 0x0C, debug := v 0x0D != 0, restartMax := v 0x0E }

/-- What stands for a section content that cannot be read: its checks fail (R427). -/
def badDecl : ImageDecl :=
  { streams := [], coreBanks := [], bufferBanks := [], clusterArms := [], deviceArms := [], narrator := none
    energyMw := 0, recompute := false, rings := [], skv := ⟨0, 0, 0, 0, 0, 0, 0, 0, 0⟩, detList := 0, sectionsOk := false }

/-- A create from the entries at `i`, with the image's bytes. -/
def State.createFrom (s : State) (route : OdRoute) (i c : Nat) (standing : Bool) (b : List Byte) : Except OdErr State :=
  let req := s.reqAt i c (fieldAt b 8 2)
  if s.noAdmission then .error { code := fltRneStandby, detail := i }
  else match s.createCtx route req ((Config.readImage b).getD badDecl) standing b with
    | .ok (c, s) => .ok (if standing then s else s.reschedule (s.ctx c).map)
    | .error (code, x) => .error { code := code, detail := if code = fltShape then x else i }

/-- The command of entry 0x3100 + c.01. -/
def State.ctxCommand (s : State) (route : OdRoute) (c cmd : Nat) (image : Option (List Byte)) : Except OdErr State :=
  let i := ctxIndex c
  let of := fun (r : Reply) => if r.status = 2 then Except.error { status := 2, code := 0, detail := i } else .ok r.st
  if cmd = 1 then s.createFrom route i c false (image.getD (s.handleBytes (s.odNum i 2)))
  else if cmd = 2 then of (s.destroyReq route c)
  else if cmd = 3 then of (s.releaseReq route c)
  else .ok s

/-- A standing context as the pair configuration names it (R484): made again after a change. -/
def State.applyStanding (s : State) (c : Nat) : Except OdErr State :=
  let i := 0x6020 + c
  let s := if (s.ctx c).live && (s.ctx c).standing then s.teardownWith c 0 false else s
  if s.odNum i 2 = 0xFFFFFFFF then .ok s
  else s.createFrom .cantle i c true (s.handleBytes (s.odNum i 2))

/-! ### All of a commit's entries -/

/-- Effect of a device-level index whose subindices `subs` changed. -/
def State.applyIndex (s : State) (index : Nat) (subs : List Nat) : Except OdErr State :=
  if index = 0x2000 then (if s.poolsHold then .ok s else .error { code := fltAdmitPool, detail := index })
  else if index = 0x2B00 then s.applySets
  else if index = 0x4001 then
    .ok ({ s with pwr := { s.pwr with keepExtra := s.odNum index 2 } }.applyWake (s.odNum index 3))
  else if 0x4101 ≤ index ∧ index ≤ 0x4106 then .ok s.applySteps
  else if index = 0x5000 then .ok { s with mem := { s.mem with burn := { s.mem.burn with
      hours := s.odNum index 1, onchipInterval := s.odNum index 2, dramEn := s.odFlag index 3, onchipEn := s.odFlag index 4 } } }
  else if 0x6010 ≤ index ∧ index ≤ 0x6014 then .ok (s.applyPair index subs)
  else if 0x6020 ≤ index ∧ index < 0x6060 then s.applyStanding (index - 0x6020)
  else if index / 16 = 0x810 then .ok (s.applyColl (index % 16) subs)
  else if index / 16 = 0x910 then .ok (s.applyLine (index % 16) subs)
  else if index / 8 = 0x9200 / 8 then .ok (s.setIdle (index % 8) (s.odFlag index 1))
  else .ok s

def keyIndex (k : Nat × List Byte) : Nat := k.1 / 256
def keySub (k : Nat × List Byte) : Nat := k.1 % 256

def State.putKeys (s : State) (ks : List (Nat × List Byte)) : State :=
  ks.foldl (fun s k => s.odPut (keyIndex k) (keySub k) k.2) s

/-- Elements without repeats, in their order. -/
def uniq (xs : List Nat) : List Nat := xs.foldl (fun l x => if l.contains x then l else l ++ [x]) []

/-- Which entries a key belongs to: 0 device-level, 1 contexts, 2 slots (R528, R537). -/
def State.keyLevel (s : State) (k : Nat × List Byte) : Nat :=
  match s.odEnt (keyIndex k) (keySub k) with
  | some e => if e.cls ≠ 0 then 2 else if keyIndex k / 64 = 0x3100 / 64 then 1 else 0
  | none => 0

/-- Slots that a class F or C key concerns, as things stand. -/
def State.slotsOf (s : State) (k : Nat × List Byte) : List Nat :=
  let i := keyIndex k
  if i / 256 = 0x31 then
    (upto 0 256).filter (fun n => bit (leNat k.2) n != bit (s.ctxRun (i % 64)).bound n)
  else if 0x8400 ≤ i ∧ i < 0x8800 then [s.odNum i 1]
  else [i % 256]

/-- Slot-level values take effect in the committed configuration; a bound-slots entry at once in its context. -/
def State.putSlotKey (s : State) (k : Nat × List Byte) : State :=
  let s := s.odPut (keyIndex k) (keySub k) k.2
  if keyIndex k / 256 = 0x31 then s.modRun (keyIndex k % 64) (fun r => { r with bound := leNat k.2 }) else s

/-- Steps 2 and 3 of R537. `images` gives the image of a context that has no page handle (R566). -/
def State.applyKeys (s : State) (route : OdRoute) (ks : List (Nat × List Byte)) (images : List (Nat × List Byte)) :
    Except OdErr State :=
  let changed := fun (s : State) (k : Nat × List Byte) => s.odVal (keyIndex k) (keySub k) != k.2
  let dev := ks.filter (fun k => s.keyLevel k == 0)
  let ctx := ks.filter (fun k => s.keyLevel k == 1)
  let str := (ks.filter (fun k => s.keyLevel k == 2)).filter (changed s)
  let devices := (uniq (dev.map keyIndex)).foldlM (fun (s : State) i =>
    let mine := (dev.filter (fun k => keyIndex k == i)).filter (changed s)
    if mine.isEmpty then .ok s else (s.putKeys mine).applyIndex i (mine.map keySub)) s
  match devices with
  | .error e => .error e
  | .ok s =>
    let contexts := (uniq (ctx.map keyIndex)).foldlM (fun (s : State) i =>
      let mine := ctx.filter (fun k => keyIndex k == i)
      let s := s.putKeys mine
      let c := i % 64
      let image : Option (List Byte) := (images.find? (fun (x : Nat × List Byte) => x.1 == c)).map (fun x => x.2)
      match mine.find? (fun k => keySub k == 1) with
      | some k => s.ctxCommand route c (leNat k.2) image
      | none => .ok s) s
    match contexts with
    | .error e => .error e
    | .ok s =>
      let before := str.flatMap s.slotsOf
      let s := str.foldl State.putSlotKey s
      let rules := (str.filter (fun k => 0x8400 ≤ keyIndex k)).flatMap s.slotsOf
      let redo := uniq ((str.filter (fun k => match s.odEnt (keyIndex k) (keySub k) with
        | some e => e.cls == 2
        | none => false)).map (fun k => keyIndex k % 256))
      (sortBy id (uniq (before ++ rules))).foldlM (fun (s : State) n =>
        match (if redo.contains n then s.reconfigure n else s.scheduleSlot n) with
        | .ok s => .ok s
        | .error code => .error { code := code, detail := 0x2100 + n }) s

/-! ### Begin, commit, rollback (R536 to R538) -/

/-- The report of an automatic rollback, given once. -/
def State.takeReport (s : State) (w : OdFrom) : Bool × State :=
  match s.session w with
  | some x => (x.report, s.modSession w (fun x => { x with report := false }))
  | none => (false, s)

def State.setTxn (s : State) (w : OdFrom) (t : Option Txn) : State :=
  s.modOdRoute (OdRoute.num w.route) (fun r => { r with txn := t })

def State.odBegin (s : State) (w : OdFrom) : OpRes :=
  let r := s.takeReport w
  if r.1 then { status := 13, st := r.2 }
  else if (s.odRoute (OdRoute.num w.route)).txn.isSome then { status := 7, st := s }
  else { st := s.setTxn w (some { session := w.session }) }

def State.odRollback (s : State) (w : OdFrom) : OpRes :=
  let r := s.takeReport w
  if r.1 then { status := 13, st := r.2 }
  else if (s.ownTxn w).isSome then { st := s.setTxn w none }
  else { status := 6, st := s }

/-- A refusal is answered, and its fault recorded (R592, R593). -/
def State.odRefused (s : State) (route : OdRoute) (e : OdErr) : OpRes :=
  if e.status = 9 then
    { status := 9, value := leBytes 2 e.code, st := s.raise { code := e.code, unit := OdRoute.num route, detail := e.detail } }
  else { status := e.status, st := s }

/-- Pair-scope entries that changed are mirrored, and the response waits for the last one's acknowledgement;
while the link is down they are marked (R487). -/
def State.mirrorCommit (s : State) (keys : List Nat) : OpRes :=
  if s.pair.mode = 0 ∨ keys.isEmpty then { st := s }
  else if s.pair.link = 2 then
    let s := s.sendEntries keys
    { st := s, wait := some ((s.pair.txSeq + s.pair.txWait.length + 2 ^ 32 - 1) % 2 ^ 32) }
  else { st := s.modPair (fun p => { p with marked := uniq (p.marked ++ keys) }) }

/-- Slots that the committed entries make fusion members: slot, set, reference (R46). -/
def State.fusionNamed (s : State) : List (Nat × Nat × Bool) :=
  s.od.values.filterMap (fun p =>
    let i := p.1 / 256
    if i / 256 = 0x28 ∧ p.1 % 256 = 0x13 ∧ s.odFlag i 0x13 = true ∧ s.odFlag (0x2100 + i % 256) 1 = true then
      some (i % 256, s.odNum i 0x14, s.odFlag i 0x15) else none)

/-- Every fusion set names 2 to 8 members, one of them its reference (R46). -/
def State.fusionOk (s : State) : Bool :=
  s.fusionNamed.all (fun m =>
    let set := s.fusionNamed.filter (fun k => k.2.1 == m.2.1)
    decide (2 ≤ set.length ∧ set.length ≤ 8) && (set.filter (·.2.2)).length == 1)

/-- A key that a fusion set's members depend on. -/
def fusionKey (k : Nat) : Bool :=
  (k / 65536 == 0x28 && [0x13, 0x14, 0x15].contains (k % 256)) || (k / 65536 == 0x21 && k % 256 == 1)

/-- R537. A commit that leaves a fusion set with other than R46's members is refused as a shape (assumption 121). -/
def State.odCommit (s : State) (w : OdFrom) : OpRes :=
  let r := s.takeReport w
  if r.1 then { status := 13, st := r.2 }
  else match s.ownTxn w with
    | none => { status := 6, st := s }
    | some t =>
      let s := s.setTxn w none
      if t.staged.any (fun g => tget 0 s.od.stamps g.key != g.stamp) then
        { status := 8, st := s.modOdRoute (OdRoute.num w.route) (fun r => { r with conflicts := (r.conflicts + 1) % 2 ^ 32 }) }
      else
        let ks := sortBy (·.1) (t.staged.map (fun g => (g.key, g.value)))
        match s.applyKeys w.route ks [] with
        | .error e => s.odRefused w.route e
        | .ok u =>
          if ks.any (fun k => fusionKey k.1) && !u.fusionOk then s.odRefused w.route { code := fltAdmitShape, detail := 0x2800 }
          else u.mirrorCommit ((ks.filter (fun k => pairScope (keyIndex k) && k.1 != odKeyNat 0x6010 2
            && s.odVal (keyIndex k) (keySub k) != k.2)).map (·.1))

def execOdxBegin (who : OdFrom) (s : State) : Host.Outcome State Fault Refusal :=
  odRequest who s (fun s => s.odBegin who)

def execOdxCommit (who : OdFrom) (s : State) : Host.Outcome State Fault Refusal :=
  odRequest who s (fun s => s.odCommit who)

def execOdxRollback (who : OdFrom) (s : State) : Host.Outcome State Fault Refusal :=
  odRequest who s (fun s => s.odRollback who)

/-- R538: 30 s have passed since the begin. -/
def execTransactionExpiry (route : OdRoute) (s : State) : Host.Outcome State Fault Refusal :=
  whenReady s (s.autoRollback route)

end Sys2Proof.Machine
end

