-- ==== Sys2Proof/Machine/OdWrite.lean ====
section
/-! DEFINITION. Writing the object dictionary: staging (R526, R536), the command entries (R530, R572), the expert
unlock (R532), Class X pages (R413). -/
namespace Sys2Proof.Machine
open Sys2Proof

/-! ### Values (R525, R526) -/

/-- A continuation byte of UTF-8 in `[lo, hi]`. -/
def contIn (lo hi : Nat) (b : Byte) : Bool := decide (lo ≤ b.toNat) && decide (b.toNat ≤ hi)

/-- Well-formed UTF-8. -/
def utf8Ok : Nat → List Byte → Bool
  | 0, b => b.isEmpty
  | k + 1, b => match b with
    | [] => true
    | a :: t =>
      let n := a.toNat
      if n < 0x80 then utf8Ok k t
      else if 0xC2 ≤ n ∧ n ≤ 0xDF then (match t with | x :: t => contIn 0x80 0xBF x && utf8Ok k t | _ => false)
      else if 0xE0 ≤ n ∧ n ≤ 0xEF then (match t with
        | x :: y :: t => contIn (if n = 0xE0 then 0xA0 else 0x80) (if n = 0xED then 0x9F else 0xBF) x && contIn 0x80 0xBF y && utf8Ok k t
        | _ => false)
      else if 0xF0 ≤ n ∧ n ≤ 0xF4 then (match t with
        | x :: y :: z :: t => contIn (if n = 0xF0 then 0x90 else 0x80) (if n = 0xF4 then 0x8F else 0xBF) x && contIn 0x80 0xBF y
            && contIn 0x80 0xBF z && utf8Ok k t
        | _ => false)
      else false

/-- The value has its type's length, and an STR value is well formed. -/
def OdEnt.typeOk (e : OdEnt) (v : List Byte) : Bool :=
  if e.ty = 7 then decide (v.length ≤ e.n) && utf8Ok (v.length + 1) v else v.length == tySize e.ty e.n

/-- A route word names rings and collectors that exist (R351). -/
def routeOk (v : Nat) : Bool :=
  (decide (v % 256 < 64) || v % 256 == 0xFF) && (decide (v / 256 < 16) || v / 256 == 0xFF)

/-- The value lies in the entry's range. -/
def OdEnt.rangeOk (e : OdEnt) (index sub : Nat) (v : List Byte) : Bool :=
  let n := leNat v
  if 7 ≤ e.ty then true
  else if index / 256 = 0x82 then routeOk n
  else if index = 0x1011 ∧ sub = 2 then [125000, 250000, 500000, 1000000].contains n
  else decide (e.lo ≤ n) && decide (n ≤ e.hi)

/-! ### Permissions (R572) -/

/-- The permission bit that a write needs. -/
def OdEnt.writeBit (e : OdEnt) (index sub : Nat) : Nat :=
  if 0x7010 ≤ index ∧ index ≤ 0x70FF then 4
  else if index / 64 = 0x3100 / 64 ∧ sub = 1 then 3
  else if e.lvl = 1 then 2 else 1

/-! ### Class X pages (R413, R530) -/

/-- `n` pages of the general pool and the pages that list them: the handle of the first list page (assumption 23). -/
def State.hostAlloc (s : State) (route : OdRoute) (n : Nat) : Option State :=
  let listPages := ceilDiv (4 * n) pageSize
  match s.reserve 2 (n + listPages) 2 s.dieChannels with
  | none => none
  | some (res, s) => match s.allocPages res 2 false (n + listPages) [] with
    | none => none
    | some (pages, s) =>
      let data := pages.drop listPages
      let first := pages.head?.getD 0
      let handle := pageHandle (s.page first).gen first
      let bytes := data.flatMap (leBytes 4)
      let s := ((pages.take listPages).zip (chunks pageSize listPages bytes)).foldl (fun s p => s.putBytes (p.1 * pageSize) p.2) s
      some { s with tkp := { s.tkp with
        lists := tset [] s.tkp.lists handle data, lastHandle := handle
        listOwner := tset 4 s.tkp.listOwner handle (OdRoute.num route) } }

/-- The owner frees a list: its pages enter zeroing (R419). -/
def State.hostFree (s : State) (route : OdRoute) (handle : Nat) : Option State :=
  if s.ownerHolds route handle then
    let p := (tget [] s.tkp.lists handle).head?.getD 0
    let s := s.endReserv (s.page p).holder
    some { s with tkp := { s.tkp with
      lists := tset [] s.tkp.lists handle [], listOwner := tset 4 s.tkp.listOwner handle 4 } }
  else none

/-! ### Command entries -/

/-- The result of a security or service request as an operation's. -/
def Reply.result (r : Reply) : OpRes := { status := r.status, value := if r.status = 9 then leBytes 2 r.code else [], st := r.st }

def State.refusedRes (s : State) (route : OdRoute) (index code : Nat) : OpRes := (s.refuse route index code).result

/-- A container as its bytes lay it out (R551). -/
def readContainer (b : List Byte) : Container :=
  let n := fieldAt b 16 4
  { magicOk := b.take 4 == ascii "QSFW" && (b.drop 13).take 3 == copies 3 0#8 && (b.drop 20).take 12 == copies 12 0#8
      && (b.drop 128).take 64 == copies 64 0#8
    version := fieldAt b 4 2, kind := fieldAt b 6 1, key := fieldAt b 7 1, fwVersion := fieldAt b 8 4, svn := fieldAt b 12 1
    length := n, digest := (b.drop 32).take 64, signer := (b.drop 96).take 32, header := b.take 192
    signature := (b.drop 192).take 64, payload := (b.drop 256).take n }

/-- Whether the Keeper's read-back verifies is the fuses' own (R546): a free value. -/
def State.withReadBack (s : State) (f : State → Bool → Reply) : OpRes :=
  let d := s.draw 1
  (f d.2 (d.1 == 1)).result

/-- Writes of owner fuses (0x7012). -/
def State.fuseEntry (s : State) (route : OdRoute) (sub : Nat) (v : List Byte) : OpRes :=
  if sub ≤ 4 then s.withReadBack (fun s ok => s.burnKey route (sub - 1) v ok)
  else if sub = 8 then s.withReadBack (fun s ok => s.setFuse route (.revocation (leNat v)) ok)
  else if leNat v = 0 then { st := s }
  else s.withReadBack (fun s ok => s.setFuse route (if sub = 5 then .ownerLock else if sub = 6 then .imagesRequired else .vendorDebugDisable) ok)

/-- The route's number in a debug challenge (R570). -/
def debugRoute (r : OdRoute) : Nat := OdRoute.num r + 1

/-- Challenge and response (0x7040). -/
def State.debugEntry (s : State) (route : OdRoute) (sub : Nat) (v : List Byte) : OpRes :=
  let n := debugRoute route
  if s.kpr.lockout then { status := 9, value := leBytes 2 fltKprUnlock, st := s.unlockRefused n }
  else if sub = 1 then { st := s.challenge n (leNat v % 32) }
  else
    let t := s.respond { route := n, key := v.take 32, signature := (v.drop 32).take 64, keyByte := fieldAt v 96 1 }
    { status := if t.kpr.accepted then 0 else 2, st := t }

/-- Firmware update (0x7060): target, handle of the container's pages, start (R554). -/
def State.updateEntry (s : State) (route : OdRoute) (sub : Nat) (v : List Byte) : OpRes :=
  let n := leNat v
  if sub = 1 then { st := { s with kpr := { s.kpr with updTarget := n } } }
  else if sub = 2 then { st := { s with kpr := { s.kpr with updHandle := n } } }
  else if n = 0 then { st := s }
  else (s.update route (readContainer (s.handleBytes s.kpr.updHandle))).result

/-- The unlock of expert entries (R532): the value that the challenge held when it was read. -/
def State.unlock (s : State) (w : OdFrom) (v : Nat) : OpRes :=
  let ok := match s.session w with
    | some x => x.seen == some v && x.challenge == v
    | none => false
  let d := s.draw 32
  let t := d.2.modSession w (fun x => { x with challenge := d.1, seen := none, unlocked := x.unlocked || ok })
  { status := if ok then 0 else 2, st := t }

/-- Class X pages (0xA030). -/
def State.pagesEntry (s : State) (route : OdRoute) (sub n : Nat) : OpRes :=
  if sub = 1 then
    (if n = 0 then { status := 3, st := s }
     else match s.hostAlloc route n with
      | some t => { st := t }
      | none => s.refusedRes route 0xA030 fltAdmitPool)
  else match s.hostFree route n with
    | some t => { st := t }
    | none => { status := 3, st := s }

/-- Narration and evidence requests (0x8010, 0x8011). -/
def State.serviceEntry (s : State) (route : OdRoute) (index sub : Nat) (v : List Byte) : OpRes :=
  let done := fun (code : Nat) (t : State) => ({ status := if code = 0 then 0 else 9, value := if code = 0 then [] else leBytes 2 code, st := t } : OpRes)
  if index = 0x8010 ∧ sub = 2 then { st := s.narrCancel (leNat v) }
  else if index = 0x8010 then
    (match Config.readNarration v with
    | some q => if NarrReq.inRange q then (let r := s.narrAsk { q with host := some route }; done r.1 r.2) else { status := 3, st := s }
    | none => { status := 3, st := s })
  else match Config.readEvidence v with
    | some q =>
      let q := { q with host := some route }
      let r := if sub = 1 then s.askClip q else s.askSnap q
      done r.1 r.2.2
    | none => { status := 3, st := s }

/-- A write of a command entry: it acts at once (R526, R530). -/
def State.command (s : State) (w : OdFrom) (index sub : Nat) (v : List Byte) : OpRes :=
  let r := w.route
  let n := leNat v
  if index = 0x4001 then { st := if n = 1 then s.enterStandby else s }
  else if index = 0x6012 then { st := if s.pairs && s.pair.link == 2 then s.handoverSlots (onBits n 256) else s }
  else if index = 0x7001 then (s.attest r v).result
  else if index = 0x7012 then s.fuseEntry r sub v
  else if index = 0x7020 then
    s.withReadBack (fun s ok => if sub = 1 then s.advanceSvn r n ok else s.revoke r (readContainer v) ok)
  else if index = 0x7030 then
    { st := if sub = 2 then s.resetCount n else { s with kpr := { s.kpr with jpos := n } } }
  else if index = 0x7040 then s.debugEntry r sub v
  else if index = 0x7050 then
    (if n = 0 then { st := s } else if sub = 1 then (s.saveConfig r).result
     else { st := { s with flash := { s.flash with stored := none, storedDigest := [], storedImages := [] } } })
  else if index = 0x7060 then s.updateEntry r sub v
  else if index = 0x8000 then { st := s.evidRelease n }
  else if index = 0x8010 ∨ index = 0x8011 then s.serviceEntry r index sub v
  else if index / 8 = 0x9200 / 8 then { st := s.evtOut (index % 8) (n % 4) (n / 4) }
  else if index = 0xA010 then s.unlock w n
  else if index = 0xA020 then { st := s.startBoot 2 false }
  else if index = 0xA030 then s.pagesEntry r sub n
  else { st := s }

/-! ### Writes -/

def Txn.bytes (t : Txn) : Nat := t.staged.foldl (fun n g => n + g.value.length) 0

/-- A value is staged; the stamp recorded is that of the first staging (R536). -/
def State.stage (s : State) (w : OdFrom) (t : Txn) (key : Nat) (v : List Byte) : OpRes :=
  let old := t.staged.find? (fun g => g.key == key)
  let used := t.bytes - (match old with | some g => g.value.length | none => 0)
  if (old.isNone && decide (256 ≤ t.staged.length)) || decide (16384 < used + v.length) then { status := 10, st := s }
  else
    let stamp := match old with | some g => g.stamp | none => tget 0 s.od.stamps key
    let rest := t.staged.filter (fun g => g.key != key)
    { st := s.setTxn w (some { t with staged := rest ++ [⟨key, v, stamp⟩] }) }

/-- A write (R524, R526, R532, R535, R536). -/
def State.odWrite (s : State) (w : OdFrom) (index sub : Nat) (v : List Byte) : OpRes :=
  match s.odEnt index sub with
  | none => { status := 1, st := s }
  | some e =>
    let unlocked := w.route == .cantle || (match s.session w with | some x => x.unlocked | none => false)
    if sub = 0 ∨ e.acc = 0 then { status := 2, st := s }
    else if !s.permits w.route (e.writeBit index sub) then { status := 2, st := s }
    else if e.lvl = 1 && !unlocked then { status := 5, st := s }
    else if e.acc = 2 then
      (if !e.typeOk v then { status := 4, st := s } else if !e.rangeOk index sub v then { status := 3, st := s }
       else s.command w index sub v)
    else match s.ownTxn w with
      | none => { status := 6, st := s }
      | some t =>
        if !e.typeOk v then { status := 4, st := s }
        else if !e.rangeOk index sub v then { status := 3, st := s }
        else s.stage w t (odKeyNat index sub) v

def execOdxWrite (who : OdFrom) (k : OdKey) (value : List Byte) (s : State) : Host.Outcome State Fault Refusal :=
  odRequest who s (fun s => s.odWrite who k.index k.sub value)

/-- R532: a write of entry 0xA010.02. -/
def execExpertUnlock (who : OdFrom) (value : Nat) (s : State) : Host.Outcome State Fault Refusal :=
  odRequest who s (fun s => if s.permits who.route 1 then s.unlock who (value % 2 ^ 32) else { status := 2, st := s })

/-- A request that comes as a command of its own is answered as session 0's (assumption 13). -/
def OpRes.plain (r : OpRes) (route : OdRoute) : State := r.st.emit (.odReply route 0 r.status r.value)

/-- R413: a write of entry 0xA030.01. -/
def execAllocClassXPages (route : OdRoute) (n : Nat) (s : State) : Host.Outcome State Fault Refusal :=
  whenReady s ((if s.permits route 1 then s.pagesEntry route 1 n else { status := 2, st := s } : OpRes).plain route)

def execFreeClassXPages (route : OdRoute) (handle : Nat) (s : State) : Host.Outcome State Fault Refusal :=
  whenReady s ((if s.permits route 1 then s.pagesEntry route 3 handle else { status := 2, st := s } : OpRes).plain route)

end Sys2Proof.Machine
end

