-- ==== Sys2Proof/Machine/OdRoutes.lean ====
section
/-! DEFINITION. Requests as messages: their operations in order (R533 to R535), the mailbox (R514, R539), BLP over
UDP (R540) and over CAN FD (R541). -/
namespace Sys2Proof.Machine
open Sys2Proof

/-! ### A request -/

/-- One operation record. -/
def State.odOp (s : State) (w : OdFrom) (r : OpRec) : OpRes :=
  if r.op = 1 then s.odRead w r.index r.sub
  else if r.op = 2 then s.odWrite w r.index r.sub r.value
  else if r.op = 3 then s.odBegin w
  else if r.op = 4 then s.odCommit w
  else if r.op = 5 then s.odRollback w
  else if r.op = 6 then s.odInfo w r.index r.sub
  else { status := 15, st := s }

/-- The records of a request in order: the first that is not OK ends it, the rest are skipped; a response that
would exceed the route's limit ends it with SIZE (R535). -/
def runOps (w : OdFrom) (limit : Nat) : List OpRec → Bool → List Byte → Option Nat → State → List Byte × Option Nat × State
  | [], _, out, wait, s => (out, wait, s)
  | r :: rest, stop, out, wait, s =>
    if stop then runOps w limit rest true (out ++ r.reply 12 []) wait s
    else
      let x := s.odOp w r
      let wait := if x.wait.isSome then x.wait else wait
      if limit < 24 + out.length + alignUp x.value.length 4 + 8 * rest.length then
        runOps w limit rest true (out ++ r.reply 11 []) wait x.st
      else runOps w limit rest (x.status != 0) (out ++ r.reply x.status x.value) wait x.st

/-- A request's operations, and its response as the route carries it: at once, or when the partner has
acknowledged its commit (R537). -/
def State.serve (s : State) (w : OdFrom) (limit : Nat) (ops : List OpRec) (wrap_ : List Byte → HeldReply) : State :=
  let s := s.modOdRoute (OdRoute.num w.route) (fun r => { r with reqs := (r.reqs + 1) % 2 ^ 32 })
  let r := runOps w limit ops false [] none s
  let h := wrap_ r.1
  match r.2.1 with
  | some q => if r.2.2.pair.link = 2 then
      { r.2.2 with pair := { r.2.2.pair with commitWait := r.2.2.pair.commitWait ++ [(h, q)] } }
    else h.deliver r.2.2
  | none => h.deliver r.2.2

/-! ### The mailbox -/

/-- The request in the mailbox is served: the object dictionary takes requests of session 0 alone (R514, R539). -/
def State.serveMailbox (s : State) : State :=
  if s.pci.mbxState ≠ 1 ∨ !s.ready then s
  else
    let none_ := (s.routeBad .mailbox).mailboxReady []
    match readMsg (rdList s.pci.reqArea 0 s.pci.reqLen) with
    | none => none_
    | some m => match readOps (m.body.length + 1) m.body with
      | none => none_
      | some ops =>
        if m.ty = 1 ∧ m.session = 0 then
          s.serve ⟨.mailbox, 0⟩ 4096 ops (fun out => .mailbox (blpFrame 2 0 m.tag out))
        else none_

/-- R514: the doorbell submits the request; it is discarded while the mailbox is not idle. -/
def State.doorbell (s : State) (value : Nat) : State :=
  let len := bits value 12 0
  if s.pci.mbxState ≠ 0 ∨ len = 0 ∨ 4096 < len then { s with pci := { s.pci with mbxOverrun := true } }
  else ({ s with pci := { s.pci with mbxState := 1, reqLen := len } }).serveMailbox

def execMailboxDoorbell (value : Nat) (s : State) : Host.Outcome State Fault Refusal := whenUp s (s.doorbell value)

/-- R514: 1 returns a ready mailbox to idle. -/
def State.mailboxAck (s : State) (value : Nat) : State :=
  if bit value 0 && s.pci.mbxState == 2 then { s with pci := { s.pci with mbxState := 0, rspLen := 0 } } else s

def execMailboxAck (value : Nat) (s : State) : Host.Outcome State Fault Refusal := whenUp s (s.mailboxAck value)

/-! ### BLP over UDP (R540) -/

/-- Sessions of the UDP route. -/
def State.udpSessions (s : State) : List Nat := (upto 1 16).filter (fun n => (s.session ⟨.udp, n⟩).isSome)

/-- An open message: the reply carries the lowest free session, or BUSY. -/
def State.udpOpen (s : State) (tag : Nat) : State :=
  match (upto 1 16).find? (fun n => !s.udpSessions.contains n) with
  | some n => (s.openSession ⟨.udp, n⟩).emit (.blpReply n (blpFrame 4 n tag (leBytes 4 0)))
  | none => s.emit (.blpReply 0 (blpFrame 4 0 tag (leBytes 4 14)))

/-- A close message. -/
def State.udpClose (s : State) (n : Nat) : State :=
  if s.udpSessions.contains n then s.endSession ⟨.udp, n⟩ else s.routeBad .udp

/-- A request of an open session; a repeated tag receives the last response again. -/
def State.udpAsk (s : State) (m : Msg) : State :=
  match s.session ⟨.udp, m.session⟩ with
  | none => s.routeBad .udp
  | some x =>
    if x.lastTag = some m.tag then (if x.lastReply.isEmpty then s else s.emit (.blpReply m.session x.lastReply))
    else match readOps (m.body.length + 1) m.body with
      | none => s.routeBad .udp
      | some ops =>
        (s.modSession ⟨.udp, m.session⟩ (fun x => { x with lastTag := some m.tag, lastReply := [] })).serve ⟨.udp, m.session⟩ 1232 ops
          (fun out => .udp m.session m.tag (blpFrame 2 m.session m.tag out))

/-- A datagram at the BLP port of the management port: requests, open, close and delivery acknowledgements. -/
def State.udpMessage (s : State) (b : List Byte) : State :=
  match (if b.length ≤ 1232 then readMsg b else none) with
  | none => s.routeBad .udp
  | some m =>
    if m.ty = 1 then s.udpAsk m
    else if m.ty = 3 ∧ m.body.isEmpty then s.udpOpen m.tag
    else if m.ty = 5 then s.udpClose m.session
    else if m.ty = 7 ∧ m.body.length = 16 ∧ fieldAt m.body 0 2 < 16 then
      (if (s.coll (fieldAt m.body 0 2)).enable then s.collAck (fieldAt m.body 0 2) (fieldAt m.body 4 4) (fieldAt m.body 8 8) else s)
    else s.routeBad .udp

/-- A datagram at the management port is stamped by that port's counter (R24, R27). -/
def execBlpUdpRequest (d : UdpDatagram) (s : State) : Host.Outcome State Fault Refusal :=
  let s' := s.modPort 2 (fun p => p.arrive d.dt)
  whenUp s (if s.ready then s'.udpMessage d.bytes else s')

def execBlpOpen (s : State) : Host.Outcome State Fault Refusal := whenReady s (s.udpOpen 0)

def execBlpClose (session : Nat) (s : State) : Host.Outcome State Fault Refusal := whenReady s (s.udpClose session)

/-- R540, R541: 60 s without a request. The mailbox's session and the Cantle's own do not end so. -/
def execSessionTimeout (route : OdRoute) (session : Nat) (s : State) : Host.Outcome State Fault Refusal :=
  whenReady s (match route with
    | .udp | .can => if (s.session ⟨route, session⟩).isSome then s.endSession ⟨route, session⟩ else s
    | .mailbox | .cantle => s)

/-! ### BLP over CAN FD (R541) -/

/-- A complete message: its length is its header's, since the last frame is padded. -/
def State.canMessage (s : State) (b : List Byte) : State :=
  let len := 16 + fieldAt b 6 2
  match (if len ≤ 2048 then readMsg (b.take len) else none) with
  | none => s.routeBad .can
  | some m => match readOps (m.body.length + 1) m.body with
    | none => s.routeBad .can
    | some ops =>
      if m.ty ≠ 1 then s.routeBad .can
      else
        let w : OdFrom := ⟨.can, 1⟩
        let s := if (s.session w).isSome then s else s.openSession w
        s.serve w 2048 ops (fun out => .can (blpFrame 2 1 m.tag out))

/-- A frame on the node's request identifier: segments in order, the first discarding a message in progress. -/
def State.canSegment (s : State) (b : List Byte) : State :=
  let h := fieldAt b 0 1
  let n := h % 64
  let data := b.drop 1
  let end_ := fun (s : State) (k : Nat) (all : List Byte) =>
    if bit h 6 then ({ s with od := { s.od with canMsg := none } }).canMessage all
    else { s with od := { s.od with canMsg := some ((k + 1) % 64, all) } }
  if b.isEmpty then s
  else if bit h 7 then
    let s := if s.od.canMsg.isSome then s.routeBad .can else s
    if n = 0 then end_ s 0 data else ({ s with od := { s.od with canMsg := none } }).routeBad .can
  else match s.od.canMsg with
    | none => s.routeBad .can
    | some (k, got) =>
      if n = k ∧ got.length + data.length ≤ 2111 then end_ s k (got ++ data)
      else ({ s with od := { s.od with canMsg := none } }).routeBad .can

/-- Classic frames are ignored and counted. -/
def execCanFrame (bytes : List Byte) (classic : Bool) (s : State) : Host.Outcome State Fault Refusal :=
  whenReady s (if classic then s.routeBad .can else s.canSegment bytes)

/-- 100 ms between two segments. -/
def execCanSegmentTimeout (s : State) : Host.Outcome State Fault Refusal :=
  whenReady s (if s.od.canMsg.isSome then ({ s with od := { s.od with canMsg := none } }).routeBad .can else s)

/-- Bus-off: a response in progress is discarded. -/
def execCanBusOff (s : State) : Host.Outcome State Fault Refusal :=
  whenReady s { s with pair := { s.pair with commitWait := s.pair.commitWait.filter (fun h => !HeldReply.of h.1 ⟨.can, 1⟩) } }

end Sys2Proof.Machine
end

