-- ==== Sys2Proof/Machine/Boot.lean ====
section
/-! DEFINITION. Stage 8 of the boot, the stored configuration (R503, R566), the contexts whose image is still to
come, and the command of a stage that has done its work (R556). -/
namespace Sys2Proof.Machine
open Sys2Proof

/-! ### Images that the store holds (R565, R566) -/

/-- Contexts whose image the image store holds, with the image. -/
def State.bootImages (s : State) : List (Nat × List Byte) :=
  s.flash.storedImages.filterMap (fun (x : Nat × List Byte) =>
    (s.flash.images.find? (fun (i : List Byte × List Byte) => i.1 == x.2)).map (fun i => (x.1, i.2)))

/-- A context's create command among stored values. -/
def State.isCreate (s : State) (k : Nat × List Byte) : Bool := s.keyLevel k == 1 && keySub k == 1

/-- Contexts whose stored create waits for its image: number, owner, digest. -/
def State.bootPending (s : State) (ks : List (Nat × List Byte)) : List (Nat × OdRoute × List Byte) :=
  s.flash.storedImages.filterMap (fun (x : Nat × List Byte) =>
    if ks.any (fun k => s.isCreate k && keyIndex k % 64 == x.1 && leNat k.2 == 1)
      && !s.bootImages.any (fun i => i.1 == x.1) then some (x.1, .cantle, x.2) else none)

/-! ### Stage 8 -/

/-- The slots of one level at a time, for a device with one die: a slot beyond its decode rate is refused alone
(R503). -/
def State.readmit (s : State) (ks : List (Nat × List Byte)) (n : Nat) : Except OdErr State :=
  match s.applyKeys .cantle (ks.filter (fun k => keyIndex k % 256 == n)) [] with
  | .ok u => .ok u
  | .error e => if e.code = fltAdmitRate then .ok (s.odRefused .cantle e).st else .error e

/-- The stored configuration is applied as one transaction from the Cantle route; contexts whose image is absent
become pending creates. What ran before the loss of a die then runs again. -/
def State.applyStored (s : State) : Except OdErr State :=
  let all := s.flash.stored.getD []
  let images := s.bootImages
  let ks := all.filter (fun k => !s.isCreate k || images.any (fun i => i.1 == keyIndex k % 64))
  let slotKey := fun (k : Nat × List Byte) =>
    s.keyLevel k == 2 && keyIndex k / 256 != 0x31 && decide (keyIndex k < 0x8400 ∨ 0x8800 ≤ keyIndex k)
  let split := s.mem.lostDie.isSome
  match s.applyKeys .cantle (if split then ks.filter (fun k => !slotKey k) else ks) images with
  | .error e => .error e
  | .ok u =>
    let u := { u with od := { u.od with creates := s.bootPending all } }
    let cs := u.pwr.restore
    let ns := u.pwr.restoreSlots
    let u := cs.foldl State.recreate (u.modPwr (fun p => { p with restore := [], restoreSlots := [] }))
    let mine := ks.filter slotKey
    match (if split then (upto 0 256).foldlM (fun (u : State) n =>
        if mine.any (fun k => keyIndex k % 256 == n) then u.readmit mine n else .ok u) u else .ok u) with
    | .error e => .error e
    | .ok u => .ok (ns.foldl State.resumeSlot u)

/-- Stage 8: a refusal fails the stage with the refusal's fault code. -/
def State.stageEight (s : State) (r : StageResult) : State :=
  if !r.workOk then s.failStage 8 r.fault 0 0
  else match s.applyStored with
    | .ok u => u.passStage 8
    | .error e => s.failStage 8 e.code e.detail 0

/-- A stage's work is done. Stages past the first run while the internal domains do. -/
def State.bootStage (s : State) (r : StageResult) : State :=
  if !s.boot.booting then s
  else
    let s := if s.boot.stage = 8 then (if s.up then s.stageEight r else s)
      else if s.boot.stage = 1 ∨ s.up then s.stageWork s.boot.stage r else s
    s.serveMailbox

def execBootStagePass (r : StageResult) (s : State) : Host.Outcome State Fault Refusal := answer s (s.bootStage r)

/-! ### Pending creates (R566) -/

/-- A page list that holds the image of a digest, whole. -/
def State.suppliedImage (s : State) (digest : List Byte) : Option (List Byte) :=
  (((s.tkp.lists.map (·.1)).map s.handleBytes)).find? (fun b =>
    match readHead b with
    | some h => (b.drop 64).take 64 == digest && imageDigestOf b h == digest
    | none => false)

/-- Contexts whose image has come are created; a refused create is gone. -/
def State.settleCreates (s : State) : State :=
  s.od.creates.foldl (fun s x => match s.suppliedImage x.2.2 with
    | none => s
    | some b =>
      let s := { s with od := { s.od with creates := s.od.creates.filter (fun y => y.1 != x.1) } }
      match s.createFrom x.2.1 (ctxIndex x.1) x.1 false b with
      | .ok u => u.odPutNat (ctxIndex x.1) 1 1
      | .error e => (s.odRefused x.2.1 e).st) s

end Sys2Proof.Machine
end

