-- ==== Sys2Proof/Machine/Dma.lean ====
section
/-! DEFINITION. The cluster DMA (R167 to R170, R425), instruction fills (R153, R154) and the Awl engine
(R256 to R261). -/
namespace Sys2Proof.Machine
open Sys2Proof

/-- Outcome of a cluster agent's failing read (R391 to R394). -/
def State.clusterLine (s : State) (cl a : Nat) (r : LineRes) : State :=
  match r with
  | .failedX => s.endCtx (s.cluster cl).ctx fltIntHost
  | .lostP => s.settleLost
  | _ => s.recompute (s.cluster cl).ctx (0x1000 + cl) (s.memCode a) a

/-! ### D (R167) -/

/-- Address of a D instruction's descriptor. -/
def descAddr (core : Nat) (w : IWord) : Nat :=
  if bit w.toNat 50 then clusterBase (core / 16) + wf w 19 0 else coreBase core + wf w 19 0

def State.modChannel (s : State) (cl m : Nat) (f : Channel → Channel) : State :=
  s.modCluster cl (fun c => { c with chans := tmod {} c.chans m f })

def State.channel (s : State) (cl m : Nat) : Channel := tget {} (s.cluster cl).chans m

/-- The descriptor is copied into the channel's queue of 16. -/
def State.dIssue (s : State) (core : Nat) (w : IWord) : Run :=
  let off := wf w 19 0
  let a := descAddr core w
  let m := b2n (bit w.toNat 51)
  let k := s.core core
  if off % 64 ≠ 0 ∨ (!bit w.toNat 50 ∧ 0x20000 < off + 64) then .error (.fault fltCoreAddr none off, s)
  else if (if bit w.toNat 50 then !bit (s.cluster (core / 16)).pwr (bufferBankOf off) else !bit k.pwr (coreBankOf off)) then
    .error (.fault fltCoreBankOff none off, s)
  else if 16 ≤ (s.channel (core / 16) m).queue.length then .error (.full, s)
  else match s.testLines noErrors (linesOf a 64) with
    | .error x => .error x
    | .ok s => .ok (s.modChannel (core / 16) m (fun c => { c with
        queue := c.queue ++ [{ bytes := s.rdBytes a 64, core := core, ctx := k.ctx, addr := a }] }))

def State.dmaRun (s : State) (core : Nat) (w : IWord) : Run :=
  if !wordOk w 0x30 0 [(49, 20)] then s.illegalWord w else s.enqueue core .dma (fun s => s.dIssue core w)

def execDmaIssue (core : Nat) (w : IWord) (s : State) : Host.Outcome State Fault Refusal :=
  coreStep s core (.dmaIssue core w) (fun s => s.dmaRun core w)

/-- D instructions of a cluster that wait for a channel are tried again, in ascending local core. -/
def State.retryD (s : State) (cl : Nat) : State :=
  (upto (cl * 16) 16).foldl (fun s n => match (s.core n).stalled with
    | some (.dmaIssue c w) =>
      let s' := s.modCore n (fun k => { k with stalled := none })
      s'.issue n (.dmaIssue c w) (fun s => s.dmaRun n w)
    | _ => s) s

/-! ### Descriptors (R168, R169) -/

structure DmaDesc where
  src : Nat
  dst : Nat
  len0 : Nat
  cnt1 : Nat
  cnt2 : Nat
  ss1 : Int
  ds1 : Int
  ss2 : Int
  ds2 : Int
  mask : Nat
  flags : Nat
  doneCtr : Nat
  doneCore : Nat
  doneN : Nat
  rsv : Bool
  deriving DecidableEq, Repr

def readDesc (b : List Byte) : DmaDesc :=
  { src := fieldAt b 0 8, dst := fieldAt b 8 8, len0 := fieldAt b 16 4, cnt1 := fieldAt b 20 2, cnt2 := fieldAt b 22 2
    ss1 := i32At b 24, ds1 := i32At b 28, ss2 := i32At b 32, ds2 := i32At b 36, mask := fieldAt b 40 2
    flags := fieldAt b 42 1, doneCtr := fieldAt b 43 1, doneCore := fieldAt b 44 2, doneN := fieldAt b 46 2
    rsv := zeroAt b 48 16 }

def DmaDesc.fill (d : DmaDesc) : Bool := bit d.flags 0
def DmaDesc.bcast (d : DmaDesc) : Bool := bit d.flags 1

/-- Lowest address and first address past the highest, of one side. -/
def extentOf (base : Nat) (len cnt1 cnt2 : Nat) (s1 s2 : Int) : Int × Int :=
  let a := ((cnt1 - 1 : Nat) : Int) * s1
  let b := ((cnt2 - 1 : Nat) : Int) * s2
  ((base : Int) + min a 0 + min b 0, (base : Int) + max a 0 + max b 0 + (len : Nat))

def DmaDesc.srcExt (d : DmaDesc) : Int × Int := extentOf d.src d.len0 d.cnt1 d.cnt2 d.ss1 d.ss2

/-- Destination bases: one, or with broadcast one for each core of the mask. -/
def DmaDesc.dsts (d : DmaDesc) : List Nat :=
  if d.bcast then
    let c := coreOf d.dst
    (onBits d.mask 16).map (fun l => coreBase (c.1 / 16 * 16 + l) + c.2)
  else [d.dst]

def DmaDesc.dstExts (d : DmaDesc) : List (Int × Int) := d.dsts.map (fun b => extentOf b d.len0 d.cnt1 d.cnt2 d.ds1 d.ds2)

def overlaps (a b : Int × Int) : Bool := decide (a.1 < b.2) && decide (b.1 < a.2)

/-- Fields, reserved bytes and overlap: FLT_DMA_DESC. -/
def DmaDesc.ok (d : DmaDesc) (numCores : Nat) : Bool :=
  decide (1 ≤ d.len0) && decide (d.len0 ≤ 1048576) && decide (1 ≤ d.cnt1) && decide (1 ≤ d.cnt2) && decide (d.flags < 4)
    && decide (d.doneCtr ≤ 47) && decide (d.doneCore < numCores) && d.rsv && (!d.bcast || inCores d.dst)
    && (d.fill || !(d.dstExts.any (overlaps d.srcExt)))

/-- Runs of a descriptor in index order: their starts on both sides. -/
def DmaDesc.runs (d : DmaDesc) (dst : Nat) : List (Int × Int) :=
  (upto 0 d.cnt2).flatMap (fun (i2 : Nat) => (upto 0 d.cnt1).map (fun (i1 : Nat) =>
    ((d.src : Int) + (i2 : Int) * d.ss2 + (i1 : Int) * d.ss1, (dst : Int) + (i2 : Int) * d.ds2 + (i1 : Int) * d.ds1)))

/-- One run moved; the failing line of its source otherwise. -/
def State.moveRun (s : State) (cl : Nat) (x : Ctx) (c : Nat) (d : DmaDesc) (e : ReadErrors) (r : Int × Int) :
    Option (Nat × LineRes) × State :=
  let dst := (x.translate r.2.toNat).getD 0
  let put := fun (s : State) (bs : List Byte) =>
    (s.accountDram c 12 dst d.len0).store x.ways dst bs
  if d.fill then (none, put s (copies d.len0 0#8))
  else
    let src := (x.translate r.1.toNat).getD 0
    match (s.accountDram c 11 src d.len0).readRange (dmaPort cl) x.ways src d.len0 e with
    | (some f, s) => (some f, s)
    | (none, s) => (none, put s (s.seen src d.len0))

/-- All bytes of a descriptor. -/
def State.moveAll (s : State) (cl c : Nat) (d : DmaDesc) (e : ReadErrors) : Option (Nat × LineRes) × State :=
  let x := s.ctx c
  (d.dsts.flatMap d.runs).foldl (fun (acc : Option (Nat × LineRes) × State) r =>
    match acc.1 with
    | some _ => acc
    | none => acc.2.moveRun cl x c d e r) (none, s)

/-! ### Accesses of one cycle (R160, R164) -/

/-- Conflict cycles of a core's banks: counted, and reported under debug capture at most once in 1,024 cycles. What the
accesses read and write is the order of the commands, which R160 fixes (assumption 34). -/
def State.meetCore (s : State) (m : Meeting) : State :=
  let k := s.core m.unit
  let s := s.modCore m.unit (fun k => { k with conflicts := (k.conflicts + m.cycles) % 2 ^ 64 })
  if m.due && m.cycles != 0 && (s.ctx k.ctx).debug then
    s.raise { code := evtDbgBankConflict, ctx := k.ctx, unit := m.unit, detail := k.pc }
  else s

def State.meetCluster (s : State) (m : Meeting) : State :=
  s.modCluster m.unit (fun k => { k with conflicts := (k.conflicts + m.cycles) % 2 ^ 64 })

/-- The meetings at the units that accesses of these ranges touch. -/
def State.meet (s : State) (r : AgentRun) (at_ : List Nat) : State :=
  let s := (r.scratch.filter (fun m => at_.any (fun a => inCores a && (coreOf a).1 == m.unit))).foldl State.meetCore s
  (r.buffer.filter (fun m => at_.any (fun a => inClusters a && (clusterOf a).1 == m.unit))).foldl State.meetCluster s

/-- Translated first addresses of a descriptor's sides. -/
def DmaDesc.sides (d : DmaDesc) (x : Ctx) : List Nat := (if d.fill then d.dsts else d.src :: d.dsts).filterMap x.translate

/-- A channel takes its next descriptor: it is refused, or its bytes are moved (R169, R170). Pending fills of the
cluster go first (R154). -/
def State.dmaStart (s : State) (cl m : Nat) (r : AgentRun) : State :=
  let ch := s.channel cl m
  match ch.busy, (if (s.cluster cl).fills.isEmpty then ch.queue else []) with
  | none, q :: rest =>
    let x := s.ctx q.ctx
    let d := readDesc q.bytes
    let flt := fun (code : Nat) => s.ctxFault q.ctx { code := code, unit := 0x1000 + cl, detail := m, addr := q.addr }
    if !d.ok x.numCores then flt fltDmaDesc
    else if !((d.fill || s.extOk q.ctx false d.srcExt) && d.dstExts.all (s.extOk q.ctx true)) then flt fltDmaAddr
    else
      let s := (s.modChannel cl m (fun c => { c with queue := rest, busy := some q })).meet r (d.sides x)
      match s.moveAll cl q.ctx d r.errors with
      | (some (a, r), s) => s.clusterLine cl a r
      | (none, s) =>
        (s.modChannel cl m (fun c => { c with
          bytes := (c.bytes + d.dsts.length * d.cnt2 * d.cnt1 * d.len0) % 2 ^ 64 })).retryD cl
  | _, _ => s

def execDmaDescriptorStart (cluster channel : Nat) (r : AgentRun) (s : State) : Host.Outcome State Fault Refusal :=
  whenUp s (s.dmaStart cluster channel r)

/-- Every write is acknowledged: the completion increment is sent (R170). -/
def State.dmaDone (s : State) (cl m dt : Nat) : State :=
  match (s.channel cl m).busy with
  | none => s
  | some q =>
    let d := readDesc q.bytes
    ((s.modChannel cl m (fun c => { c with busy := none })).account q.ctx 7 dt).sendIncr
      { ctx := q.ctx, core := d.doneCore, ctr := d.doneCtr, n := d.doneN, src := cl }

def execDmaDescriptorComplete (cluster channel dt : Nat) (s : State) : Host.Outcome State Fault Refusal :=
  whenUp s (s.dmaDone cluster channel dt)

/-! ### Instruction fills (R153, R154) -/

/-- 64 words of a block as table entries from word `b × 64`. -/
def blockWords (old : Tbl IWord) (b : Nat) (bs : List Byte) : Tbl IWord :=
  (upto 0 64).foldl (fun t i => tset 0#64 t (b * 64 + i) (BitVec.ofNat 64 (fieldAt bs (8 * i) 8))) old

/-- The first queued fill of a cluster lands. -/
def State.fillLand (s : State) (cl : Nat) : State :=
  let c := s.cluster cl
  match c.fills with
  | [] => s
  | (local_, b, a) :: rest =>
    let n := cl * 16 + local_
    let x := s.ctx c.ctx
    if !s.extOk c.ctx false (a, a + 512) then
      s.ctxFault c.ctx { code := fltDmaAddr, unit := 0x1000 + cl, detail := 0, addr := a }
    else
      let s := s.modCluster cl (fun c => { c with fills := rest })
      let l := (x.translate a).getD 0
      match s.readRange (dmaPort cl) x.ways l 512 noErrors with
      | (some (f, r), s) => s.clusterLine cl f r
      | (none, s) => (s.accountDram c.ctx 11 l 512).modCore n (fun k =>
          let left := k.fills.erase b
          { k with
            ibuf := blockWords k.ibuf b (s.seen l 512), fills := left, src := tset 0 k.src b a
            valid := if left.contains b then k.valid else setBit k.valid b true })

def execIfillBlockLanded (cluster : Nat) (s : State) : Host.Outcome State Fault Refusal := whenUp s (s.fillLand cluster)

/-! ### Awl engine (R256 to R260) -/

structure AwlDesc where
  op : Nat
  fmtIn : Nat
  fmtW : Nat
  fmtOut : Nat
  kh : Nat
  kw : Nat
  sh : Nat
  sw : Nat
  dh : Nat
  dw : Nat
  pt : Nat
  pb : Nat
  pl : Nat
  pr : Nat
  cin : Nat
  noc : Nat
  shift : Nat
  inH : Nat
  inW : Nat
  zpIn : Int
  zpW : Int
  zpOut : Int
  qmin : Int
  qmax : Int
  inOff : Nat
  wOff : Nat
  outOff : Nat
  doneCore : Nat
  doneCtr : Nat
  doneN : Nat
  rsv : Bool
  deriving DecidableEq, Repr

def readAwl (b : List Byte) : AwlDesc :=
  let f := fieldAt b
  let i := fun (o : Nat) => sgn 16 (fieldAt b o 2)
  { op := f 0 1, fmtIn := f 1 1, fmtW := f 2 1, fmtOut := f 3 1, kh := f 4 1, kw := f 5 1, sh := f 6 1, sw := f 7 1
    dh := f 8 1, dw := f 9 1, pt := f 10 1, pb := f 11 1, pl := f 12 1, pr := f 13 1, cin := f 14 2, noc := f 16 1
    shift := f 17 1, inH := f 18 2, inW := f 20 2, zpIn := i 22, zpW := i 24, zpOut := i 26, qmin := i 28, qmax := i 30
    inOff := f 32 4, wOff := f 36 4, outOff := f 40 4, doneCore := f 44 2, doneCtr := f 46 1, doneN := f 48 2
    rsv := zeroAt b 47 1 && zeroAt b 50 14 }

/-- Ranges of R257. -/
def AwlDesc.rangeOk (d : AwlDesc) (numCores : Nat) : Bool :=
  let one := fun (v m : Nat) => decide (1 ≤ v) && decide (v ≤ m)
  let first := d.op == 0
  decide (d.op ≤ 1) && decide (d.fmtIn ≤ 1) && decide (d.fmtW ≤ 1)
    && (d.fmtOut == 0 || d.fmtOut == 1 || d.fmtOut == 5 || (d.fmtOut == 11 && !first))
    && one d.kh (if first then 11 else 3) && one d.kw (if first then 11 else 3)
    && decide (1 ≤ d.sh) && decide (1 ≤ d.sw) && decide (1 ≤ d.dh) && decide (1 ≤ d.dw)
    && (if first then d.cin == 3 || d.cin == 4 else one d.cin 4096) && one d.noc (if first then 64 else 8)
    && decide (d.shift ≤ 31) && one d.inH 4096 && one d.inW 4096
    && zpOk d.fmtIn d.zpIn && zpOk d.fmtW d.zpW && (d.fmtOut == 11 || zpOk d.fmtOut d.zpOut)
    && decide (d.doneCore < numCores) && decide (d.doneCtr ≤ 47) && decide (1 ≤ d.doneN) && d.rsv && decide (d.qmin ≤ d.qmax)

/-- Output size (R242). -/
def AwlDesc.outH (d : AwlDesc) : Int := outSize d.inH d.pt d.pb d.kh d.dh d.sh
def AwlDesc.outW (d : AwlDesc) : Int := outSize d.inW d.pl d.pr d.kw d.dw d.sw

/-- Input, weight and output regions in the buffer. -/
def AwlDesc.regions (d : AwlDesc) : List (Nat × Nat) :=
  let e := halfSize d.fmtOut / 2
  [(d.inOff, d.inH * d.inW * d.cin), (d.wOff, 256 + d.noc * d.kh * d.kw * d.cin), (d.outOff, d.outH.toNat * d.outW.toNat * d.noc * e)]

def AwlDesc.regionsOk (d : AwlDesc) (pwr : Nat) : Bool :=
  let rs := d.regions
  let o := rs.getD 2 (0, 0)
  rs.all (fun r => decide (r.1 + r.2 ≤ 0x100000) && (bufferBanks r.1 r.2).all (fun b => bit pwr b))
    && (rs.take 2).all (fun r => decide (r.1 + r.2 ≤ o.1) || decide (o.1 + o.2 ≤ r.1))

/-- The sum of one output position and channel (R259). `inp` and `wts` give codes by position. -/
def AwlDesc.acc (d : AwlDesc) (inp wts : Nat → Nat) (oy ox oc : Nat) : Int :=
  (upto 0 d.kh).foldl (fun (t : Int) (i : Nat) => (upto 0 d.kw).foldl (fun (t : Int) (j : Nat) =>
    let y : Int := ((oy * d.sh + i * d.dh : Nat) : Int) - (d.pt : Nat)
    let x : Int := ((ox * d.sw + j * d.dw : Nat) : Int) - (d.pl : Nat)
    if 0 ≤ y ∧ y < (d.inH : Int) ∧ 0 ≤ x ∧ x < (d.inW : Int) then
      (upto 0 d.cin).foldl (fun (t : Int) (ci : Nat) =>
        t + (intVal d.fmtIn (inp ((y.toNat * d.inW + x.toNat) * d.cin + ci)) - d.zpIn)
          * (intVal d.fmtW (wts (((oc * d.kh + i) * d.kw + j) * d.cin + ci)) - d.zpW)) t
    else t) t) 0
where
  intVal (ty c : Nat) : Int := if ty = 0 then (c : Int) else sgn 8 c

/-- One output element: narrowed (R201), or the raw sum. -/
def AwlDesc.elem (d : AwlDesc) (acc bias : Int) : List Byte :=
  if d.fmtOut = 11 then leBytes 4 (wrap 32 (acc + bias))
  else
    let w := 4 * halfSize d.fmtOut
    leBytes (w / 8) (wrap w (clampI (rshiftRne (sgn 32 (wrap 32 acc) + bias) d.shift + d.zpOut) d.qmin d.qmax))

/-- The output of a job, HWC packed. -/
def AwlDesc.output (d : AwlDesc) (buf : Nat → Byte) : List Byte :=
  (upto 0 d.outH.toNat).flatMap (fun oy => (upto 0 d.outW.toNat).flatMap (fun ox => (upto 0 d.noc).flatMap (fun oc =>
    let bias := sgn 32 (leNat ((upto 0 4).map (fun i => buf (d.wOff + 4 * oc + i))))
    d.elem (d.acc (fun i => (buf (d.inOff + i)).toNat) (fun i => (buf (d.wOff + 256 + i)).toNat) oy ox oc) bias)))

/-- Cycles of a job (R260). -/
def AwlDesc.cycles (d : AwlDesc) : Nat :=
  let q := if d.op = 0 then d.noc else if d.noc ≤ 2 then d.noc else if d.noc ≤ 4 then 4 else 8
  24 + d.outH.toNat * d.outW.toNat * d.kh * d.kw * ceilDiv (d.cin * q) 192

/-- The bell holds 1: it is taken, the slot's descriptor checked, the job run. -/
def State.awlStart (s : State) (cl : Nat) (r : AgentRun) : State :=
  let c := s.cluster cl
  let x := s.ctx c.ctx
  match (x.decl.bind (fun d => d.rings[x.relCluster cl]?)) with
  | none => s
  | some ring =>
    let bell := (s.ctrGet c.ctx ring.bellCore ring.bellCtr).getD 0
    if !c.assigned ∨ x.st ≠ .resident ∨ c.awlJob.isSome ∨ c.awlStopped ∨ bell = 0 ∨ ring.n = 0 then s
    else
      let s := s.ctrSet c.ctx ring.bellCore ring.bellCtr (bell - 1)
      let off := ring.off + c.awlIndex % ring.n * 64
      let a := clusterBase cl + off
      let s := s.modCluster cl (fun c => { c with awlIndex := c.awlIndex + 1 })
      if s.bufferOff a 64 then s.ctxFault c.ctx { code := fltCoreBankOff, unit := 0x1000 + cl, addr := a }
      else match s.readRange (dmaPort cl) 0 a 64 r.errors with
      | (some (l, r), s) => s.clusterLine cl l r
      | (none, s) =>
        let b := s.rdBytes a 64
        let d := readAwl b
        let flt := fun (code detail : Nat) => s.ctxFault c.ctx { code := code, unit := 0x1000 + cl, detail := detail, addr := a }
        if d.outH ≤ 0 ∨ d.outW ≤ 0 then flt fltShape 0
        else if !d.rangeOk x.numCores then flt fltAwlDesc 2
        else if !d.regionsOk c.pwr then flt fltAwlDesc 2
        else
          match (d.regions.take 2).foldl (fun (acc : Option (Nat × LineRes) × State) g =>
              match acc.1 with
              | some _ => acc
              | none => acc.2.readRange (dmaPort cl) 0 (clusterBase cl + g.1) g.2 r.errors) (none, s.meet r [clusterBase cl]) with
          | (some (l, r), s) => s.clusterLine cl l r
          | (none, s) =>
            let out := d.output (fun o => s.rdByte (clusterBase cl + o))
            ((s.store 0 (clusterBase cl + d.outOff) out).account c.ctx 6 d.cycles).modCluster cl
              (fun c => { c with awlJob := some { desc := b } })

def execAwlJobStart (cluster : Nat) (r : AgentRun) (s : State) : Host.Outcome State Fault Refusal :=
  whenUp s (s.awlStart cluster r)

/-- Every output write is acknowledged: the done counter is signalled. -/
def State.awlDone (s : State) (cl : Nat) : State :=
  let c := s.cluster cl
  match c.awlJob with
  | none => s
  | some j =>
    let d := readAwl j.desc
    (s.modCluster cl (fun c => { c with awlJob := none })).sendIncr
      { ctx := c.ctx, core := d.doneCore, ctr := d.doneCtr, n := d.doneN, src := cl }

def execAwlJobComplete (cluster : Nat) (s : State) : Host.Outcome State Fault Refusal := whenUp s (s.awlDone cluster)

end Sys2Proof.Machine
end

