-- ==== Sys2Proof/Machine/Narrowing.lean ====
section
/-! DEFINITION. The narrowing stage (R196 to R208): NRW, NRWF and LUTL. -/
namespace Sys2Proof.Machine
open Sys2Proof

/-- The computation of one lane (R201). -/
def narrow (acc bias : Int) (sh : Nat) (zp qmin qmax : Int) : Int := clampI (rshiftRne (acc + bias) sh + zp) qmin qmax

/-- Entry of the lookup table for a code (R204): uint8 by the code, int8 by code + 128. -/
def lutRead (t : List Byte) (fmt : Nat) (c : Int) : Nat := (t.getD (if fmt = 0 then c else c + 128).toNat 0#8).toNat

/-- The parameter block of NRW (R199, R200). -/
structure NrwPar where
  bias : List Nat
  zp : Int
  qmin : Int
  qmax : Int
  sh : Nat
  deriving DecidableEq, Repr

def readPar (b : List Byte) : NrwPar :=
  { bias := (upto 0 16).map (fun j => fieldAt b (4 * j) 4), zp := sgn 16 (fieldAt b 64 2), qmin := sgn 16 (fieldAt b 66 2)
    qmax := sgn 16 (fieldAt b 68 2), sh := fieldAt b 70 1 }

def parOk (b : List Byte) (fmt : Nat) : Bool :=
  let p := readPar b
  let inR := fun (v : Int) => decide (codeMin fmt ≤ v) && decide (v ≤ codeMax fmt)
  inR p.zp && inR p.qmin && inR p.qmax && decide (p.qmin ≤ p.qmax) && decide (p.sh ≤ 31) && zeroAt b 71 25

/-- Limits of NRWF are ordered and not NaN; its reserved bytes are zero. -/
def parFOk (b : List Byte) : Bool :=
  let lo := fieldAt b 64 4
  let hi := fieldAt b 68 4
  !fIsNan f32 lo && !fIsNan f32 hi && !fLt f32 hi lo && zeroAt b 72 24

/-- A lane of NRWF (R203): rounded sum, clamp, conversion; a NaN passes the clamp, and the sign of a zero
within the range is kept. -/
def narrowF (acc bias lo hi fmt : Nat) : Nat :=
  let v := fAdd f32 acc bias
  let c := if fIsNan f32 v then v else if fLt f32 v lo then lo else if fLt f32 hi v then hi else v
  fConv f32 (ffmt fmt) c

/-- A parameter block or table in operand banks of the narrowing engine, 32 B aligned. -/
def State.parRead (s : State) (core off n : Nat) : Except (Trap × State) (List Byte × State) :=
  if 0x18000 < off + n then .error (.fault fltCoreAddr none off, s) else s.portRead core ownNarrow off n 32 noErrors

/-- One accumulator line through the stage. -/
def State.nrwLine (core : Nat) (ba bo : Bound) (lane : Nat → Nat → Nat) (s : State) : Run :=
  match s.readRow core ownNarrow ba 0 with
  | .error x => .error x
  | .ok (acc, s) => match s.takeRow core bo with
    | (row, s) => s.writeRow core ownNarrow bo row (((upto 0 16).zip acc).map (fun p => lane p.1 p.2))

/-- The streams of a narrowing instruction: accumulator lines in, groups of `fmt` out. -/
def State.nrwRun (s : State) (core : Nat) (w : IWord) (fmt : Nat) (lane : Nat → Nat → Nat) : Run :=
  match s.bound core (wf w 42 40) false, s.bound core (wf w 39 37) true with
  | some ba, some bo =>
    if !ba.fits 16 11 1 ∨ !bo.fits 16 fmt 0 then s.wordFault fltTileDesc w
    else runAll (fun s (_ : Nat) => s.nrwLine core ba bo lane) (s.account (s.core core).ctx 3 (3 + wf w 15 0)) (upto 0 (wf w 15 0))
  | _, _ => s.wordFault fltTileStream w

def State.nrw (s : State) (core : Nat) (w : IWord) : Run :=
  let fmt := wf w 51 48
  let lut := bit w.toNat 36
  match s.parRead core (s.sreg core (wf w 47 43)).toNat 96 with
  | .error x => .error x
  | .ok (b, s) =>
    if !parOk b fmt then s.wordFault fltNrwParam w
    else if lut ∧ (s.core core).lut = none then s.wordFault fltNrwState w
    else
      let p := readPar b
      let t := ((s.core core).lut).getD []
      s.nrwRun core w fmt (fun j acc =>
        let c := narrow (sgn 32 acc) (sgn 32 (p.bias.getD j 0)) p.sh p.zp p.qmin p.qmax
        if lut then lutRead t fmt c else wrap (elemBits fmt) c)

def execNrw (core : Nat) (w : IWord) (s : State) : Host.Outcome State Fault Refusal :=
  coreStep s core (.nrw core w) (fun s =>
    let fmt := wf w 51 48
    if !wordOk w 0x24 0 [(35, 16)] ∨ !([0, 1, 2, 3, 5].contains fmt) ∨ (bit w.toNat 36 ∧ 1 < fmt) ∨ wf w 15 0 = 0 then
      s.illegalWord w
    else s.enqueue core .narrowing (fun s => s.nrw core w))

def State.nrwf (s : State) (core : Nat) (w : IWord) : Run :=
  match s.parRead core (s.sreg core (wf w 47 43)).toNat 96 with
  | .error x => .error x
  | .ok (b, s) =>
    if !parFOk b then s.wordFault fltNrwParam w
    else s.nrwRun core w (wf w 51 48) (fun j acc => narrowF acc (fieldAt b (4 * j) 4) (fieldAt b 64 4) (fieldAt b 68 4) (wf w 51 48))

def execNrwf (core : Nat) (w : IWord) (s : State) : Host.Outcome State Fault Refusal :=
  coreStep s core (.nrwf core w) (fun s =>
    if !wordOk w 0x24 1 [(36, 16)] ∨ !([6, 7, 8, 9, 10].contains (wf w 51 48)) ∨ wf w 15 0 = 0 then s.illegalWord w
    else s.enqueue core .narrowing (fun s => s.nrwf core w))

/-- LUTL: 256 B into the core's table (R204). -/
def State.lutl (s : State) (core : Nat) (w : IWord) : Run :=
  match s.parRead core (s.sreg core (wf w 47 43)).toNat 256 with
  | .error x => .error x
  | .ok (b, s) => .ok ((s.modCore core (fun k => { k with lut := some b })).account (s.core core).ctx 3 8)

def execLutl (core : Nat) (w : IWord) (s : State) : Host.Outcome State Fault Refusal :=
  coreStep s core (.lutl core w) (fun s =>
    if !wordOk w 0x25 0 [(51, 48), (42, 0)] then s.illegalWord w
    else s.enqueue core .narrowing (fun s => s.lutl core w))

end Sys2Proof.Machine
end

