-- ==== Sys2Proof/Machine/Scalar.lean ====
section
/-! DEFINITION. The scalar unit: arithmetic (R145), scratchpad access (R147), control and status
registers (R148), branches and system instructions (R150 to R154, R159). -/
namespace Sys2Proof.Machine
open Sys2Proof

/-- Second operand: imm32 of RI, s[rs2] of RR. -/
def State.src2 (s : State) (core : Nat) (f : ScalarFields) : Word :=
  if f.immediate then f.word.low32 else s.sreg core f.rs2

def boolWord (b : Bool) : Word := if b then 1#32 else 0#32

/-- An ALU operation; `none` for a shift by 32 or more, whose result the spec does not state. -/
def aluVal (op : AluOp) (a b : Word) : Option Word :=
  let sh := fun (f : Nat → Word) => if b.toNat < 32 then some (f b.toNat) else none
  match op with
  | .add => some (a + b)
  | .sub => some (a - b)
  | .and => some (a &&& b)
  | .or => some (a ||| b)
  | .xor => some (a ^^^ b)
  | .sll => sh (fun n => a <<< n)
  | .srl => sh (fun n => a >>> n)
  | .sra => sh (fun n => a.sshiftRight n)
  | .slt => some (boolWord (a.slt b))
  | .sltu => some (boolWord (a.ult b))
  | .min => some (if a.slt b then a else b)
  | .max => some (if a.slt b then b else a)
  | .minu => some (if a.ult b then a else b)
  | .maxu => some (if a.ult b then b else a)
  | .undefined => none

/-- Quotient and remainder of R145. DEDUCED (assumption 126): other quotients are rounded toward zero, and a
remainder has the sign of its dividend; R145 states only the corners, and both fit them. -/
def divS (a b : Word) : Word × Word :=
  if b = 0#32 then (BitVec.ofInt 32 (-1), a)
  else if a = 0x80000000#32 ∧ b = BitVec.ofInt 32 (-1) then (0x80000000#32, 0#32)
  else (BitVec.ofInt 32 (Int.tdiv a.toInt b.toInt), BitVec.ofInt 32 (Int.tmod a.toInt b.toInt))

def divU (a b : Word) : Word × Word :=
  if b = 0#32 then (0xFFFFFFFF#32, a)
  else (BitVec.ofNat 32 (a.toNat / b.toNat), BitVec.ofNat 32 (a.toNat % b.toNat))

/-- Multiply, multiply-high, divide, remainder. -/
def mulVal (op : MulOp) (a b : Word) : Word :=
  match op with
  | .mul => a * b
  | .mulh => BitVec.ofInt 32 (Int.fdiv (a.toInt * b.toInt) (2 ^ 32 : Nat))
  | .mulhu => BitVec.ofNat 32 (a.toNat * b.toNat / 2 ^ 32)
  | .div => (divS a b).1
  | .divu => (divU a b).1
  | .rem => (divS a b).2
  | .remu => (divU a b).2
  | .undefined => 0#32

/-- Writes a result, or a free value where the spec states none. -/
def State.setOrFree (s : State) (core r : Nat) : Option Word → State
  | some v => s.setS core r v
  | none => let d := s.draw 32; d.2.setS core r (BitVec.ofNat 32 d.1)

def execScalarAlu (core : Nat) (op : AluOp) (f : ScalarFields) (s : State) : Host.Outcome State Fault Refusal :=
  coreStep s core (.scalarAlu core op f) (fun s =>
    if op = .undefined ∨ f.zeros ≠ 0 then s.illegal core
    else .ok (s.setOrFree core f.rd (aluVal op (s.sreg core f.rs1) (s.src2 core f))))

def execScalarMuldiv (core : Nat) (op : MulOp) (f : ScalarFields) (s : State) : Host.Outcome State Fault Refusal :=
  coreStep s core (.scalarMuldiv core op f) (fun s =>
    if op = .undefined ∨ f.zeros ≠ 0 then s.illegal core
    else .ok (s.setS core f.rd (mulVal op (s.sreg core f.rs1) (s.src2 core f))))

/-- R147: 1, 2 or 4 B, naturally aligned, at s[rs1] + imm. -/
def State.scalarMem (s : State) (core : Nat) (op : ScalarMem) (f : ScalarFields) (e : ReadErrors) : Run :=
  let off := (s.sreg core f.rs1 + s.src2 core f).toNat
  match op with
  | .undefined => s.illegal core
  | .load n signed =>
    if f.zeros ≠ 0 ∨ !([1, 2, 4].contains n) then s.illegal core
    else match s.portRead core ownScalar off n n e with
      | .error x => .error x
      | .ok (bs, s) =>
        let x := if signed then BitVec.ofInt 32 (sgn (8 * n) (leNat bs)) else BitVec.ofNat 32 (leNat bs)
        .ok (s.setS core f.rd x)
  | .store n =>
    if f.zeros ≠ 0 ∨ !([1, 2, 4].contains n) then s.illegal core
    else s.portWrite core ownScalar off n (leBytes n (s.sreg core f.rd).toNat)

def execScalarLoadStore (core : Nat) (op : ScalarMem) (f : ScalarFields) (e : ReadErrors) (s : State) :
    Host.Outcome State Fault Refusal :=
  coreStep s core (.scalarLoadStore core op f e) (fun s => s.scalarMem core op f e)

/-- Branch conditions 0 to 6 (R150). -/
def condHolds (c : Cond) (a b : Word) : Bool :=
  match c with
  | .eq => a == b
  | .ne => a != b
  | .lt => a.slt b
  | .ge => !a.slt b
  | .ltu => a.ult b
  | .geu => !a.ult b
  | .always => true
  | .reserved => false

/-- R150: the target is (current + offset) mod 2,048; a jump writes the return index to rd. The PC is
left one short of the target, since retiring adds one. -/
def State.branchTo (s : State) (core rd rs1 rs2 : Nat) (cond : Cond) (offset : Int) : State :=
  let pc := (s.core core).pc
  let taken := condHolds cond (s.sreg core rs1) (s.sreg core rs2)
  let s := if cond = .always then s.setS core rd (BitVec.ofNat 32 ((pc + 1) % 2048)) else s
  if taken then s.modCore core (fun k => { k with pc := (((pc : Int) + offset - 1) % 2048).toNat }) else s

def execBranch (core rd rs1 rs2 : Nat) (cond : Cond) (offset : Int) (w : IWord) (s : State) :
    Host.Outcome State Fault Refusal :=
  coreStep s core (.branch core rd rs1 rs2 cond offset w) (fun s =>
    if cond = .reserved then s.illegal core
    else .ok (s.branchTo core rd rs1 rs2 cond offset))

/-- Owners of the 8 banks in 2 bits each. -/
def ownBits (k : Core) : Nat := (upto 0 8).foldl (fun a b => a + tget 0 k.own b * 4 ^ b) 0

/-- The value of a control and status register (R148). CYCLE moves on by a free amount: the model counts
no cycles. A number that the table does not list reads a free value. -/
def State.csrVal (s : State) (core csr : Nat) : Nat × State :=
  let k := s.core core
  let x := s.ctx k.ctx
  match csr with
  | 0 => (x.relCore core, s)
  | 1 => (x.k, s)
  | 2 => (k.ctx, s)
  | 3 =>
    let d := s.draw 64
    let c := (k.cycle + d.1) % 2 ^ 64
    (c % 2 ^ 32, d.2.modCore core (fun k => { k with cycle := c, cycleHi := some (c / 2 ^ 32) }))
  | 4 => (k.cycleHi.getD (k.cycle / 2 ^ 32), s)
  | 5 => (k.pwr, s)
  | 6 => (ownBits k, s)
  | _ => s.draw 32

def execCsrRead (core rd csr : Nat) (w : IWord) (s : State) : Host.Outcome State Fault Refusal :=
  coreStep s core (.csrRead core rd csr w) (fun s =>
    if w.field 41 32 ≠ 0 then s.illegal core
    else let r := s.csrVal core csr; .ok (r.2.setS core rd (BitVec.ofNat 32 r.1)))

/-! ### System, ownership, instruction fill -/

def execNop (core : Nat) (w : IWord) (s : State) : Host.Outcome State Fault Refusal :=
  coreStep s core (.nop core w) (fun s => if wordOk w 0x3F 0 [(51, 0)] then .ok s else s.illegalWord w)

/-- END: the core issues nothing more (R152). -/
def execEndProgram (core : Nat) (w : IWord) (s : State) : Host.Outcome State Fault Refusal :=
  coreStep s core (.endProgram core w) (fun s =>
    if wordOk w 0x3F 1 [(51, 0)] then .ok (s.modCore core (fun k => { k with st := .ended })) else s.illegalWord w)

/-- BREAK: the core halts with EVT_DBG_BREAK under debug capture, and is a NOP otherwise (R152). -/
def execBreakpoint (core : Nat) (w : IWord) (s : State) : Host.Outcome State Fault Refusal :=
  coreStep s core (.breakpoint core w) (fun s =>
    if !wordOk w 0x3F 2 [(51, 0)] then s.illegalWord w
    else
      let k := s.core core
      if (s.ctx k.ctx).debug then
        .ok ((s.raise { code := evtDbgBreak, ctx := k.ctx, unit := core, detail := k.pc, addr := w.toNat }).modCore core
          (fun k => { k with st := .waiting, stalled := some (.breakpoint core w) }))
      else .ok s)

/-- BK: a bank passes to a new owner (R159). -/
def execBk (core : Nat) (w : IWord) (s : State) : Host.Outcome State Fault Refusal :=
  coreStep s core (.bk core w) (fun s =>
    if !wordOk w 0x38 0 [(45, 0)] ∨ 8 ≤ wf w 51 48 then s.illegalWord w
    else .ok (s.modCore core (fun k => { k with own := tset 0 k.own (wf w 51 48) (wf w 47 46) })))

/-- The blocks a fill names, from the first, wrapping at 32. -/
def fillBlocks (first count : Nat) : List Nat := (upto first count).map (· % 32)

/-- IF: the target blocks become invalid and their copies are queued at the cluster DMA (R153, R154). -/
def State.fillIssue (s : State) (core : Nat) (w : IWord) : Run :=
  let k := s.core core
  let count := wf w 20 15
  let a := (s.sreg core (wf w 46 42)).toNat + (s.sreg core (wf w 41 37)).toNat % 2 ^ 16 * 2 ^ 32
  let blocks := fillBlocks (wf w 25 21) count
  if !wordOk w 0x31 0 [(51, 47), (36, 32), (31, 26), (14, 0)] ∨ count = 0 ∨ 32 < count then s.illegalWord w
  else if a % 512 ≠ 0 then .error (.fault fltCoreAddr none a, s)
  else if blocks.contains (k.pc / 64) then s.wordFault fltCoreIfetch w
  else
    let s := s.modCore core (fun k => { k with
      valid := blocks.foldl (fun v b => setBit v b false) k.valid, fills := k.fills ++ blocks
      src := blocks.foldl (fun t b => tdel t b) k.src })
    .ok (s.modCluster (core / 16) (fun c => { c with
      fills := c.fills ++ ((upto 0 count).zip blocks).map (fun p => (core % 16, p.2, a + p.1 * 512)) }))

def execInstructionFill (core : Nat) (w : IWord) (s : State) : Host.Outcome State Fault Refusal :=
  coreStep s core (.instructionFill core w) (fun s => s.fillIssue core w)

end Sys2Proof.Machine
end

