-- ==== Sys2Proof/Machine/CoreQueue.lean ====
section
/-! DEFINITION. The queues of a core as they drain (R143, R268): a freed entry lets the instruction at the
head of the stream issue. -/
namespace Sys2Proof.Machine
open Sys2Proof

/-- The state that a meaning answers. -/
def nextOf (s : State) : Host.Outcome State Fault Refusal → State
  | .next t => t
  | _ => s

/-- The instruction that waits at the head of the stream is issued again. A signal or a D may find its own
queue still full, and waits on. -/
def State.resume (s : State) (core : Nat) : State :=
  match (s.core core).stalled with
  | none => s
  | some i =>
    let t := s.modCore core (fun k => { k with stalled := none })
    match i with
    | .lds _ w => nextOf s (execLds core w t)
    | .strm _ w => nextOf s (execStrm core w t)
    | .ostr _ w => nextOf s (execOstr core w t)
    | .odrn _ w => nextOf s (execOdrn core w t)
    | .oclr _ w => nextOf s (execOclr core w t)
    | .nrw _ w => nextOf s (execNrw core w t)
    | .nrwf _ w => nextOf s (execNrwf core w t)
    | .lutl _ w => nextOf s (execLutl core w t)
    | .dld _ w => nextOf s (execDld core w t)
    | .ags _ w => nextOf s (execAgs core w t)
    | .tnx _ w => nextOf s (execTnx core w t)
    | .agd _ w => nextOf s (execAgd core w t)
    | .trd _ w => nextOf s (execTrd core w t)
    | .dmaIssue _ w => nextOf s (execDmaIssue core w t)
    | .sig _ w => nextOf s (execSig core w t)
    | .sigr _ w => nextOf s (execSigr core w t)
    | _ => s

/-- An entry of an engine's queue is free; signals behind it are one nearer to their turn. -/
def State.queueAdvance (s : State) (core : Nat) (e : Engine) : State :=
  if tget 0 (s.core core).queues (Engine.num e) = 0 then s
  else (s.modCore core (fun k => { k with
    queues := tmod 0 k.queues (Engine.num e) (· - 1), arrayQ := if e = .array then k.arrayQ.drop 1 else k.arrayQ
    sigq := k.sigq.map (fun g => { g with behind := tmod 0 g.behind (Engine.num e) (· - 1) }) })).resume core

def execEngineQueueAdvance (core : Nat) (engine : Engine) (s : State) : Host.Outcome State Fault Refusal :=
  whenUp s (s.queueAdvance core engine)

/-- The oldest queued signal is sent once no engine instruction issued before it stands in its queue, and an
instruction that waited for the signal queue issues (R268). -/
def State.sendSignal (s : State) (core : Nat) : State :=
  match (s.core core).sigq with
  | [] => s
  | g :: t =>
    if g.behind.isEmpty then ((s.modCore core (fun k => { k with sigq := t })).sendIncr g.incr).resume core else s

def execSignalSend (core : Nat) (s : State) : Host.Outcome State Fault Refusal := whenUp s (s.sendSignal core)

end Sys2Proof.Machine
end

