-- ==== Sys2Proof/Machine/EvidStream.lean ====
section
/-! DEFINITION. What an encode engine writes (R92, R103 to R111): the pictures of an H.265 clip with their parameter sets,
SEI messages and fillers, and the JPEG snapshot. Bits that H.265 leaves to the encoder come from Config. -/
namespace Sys2Proof.Machine
open Sys2Proof

/-! ### Source samples -/

/-- Rows of a plane inside a rectangle. -/
def cutRows {α : Type} (r : Rect) (rows : List (List α)) : List (List α) :=
  ((rows.drop r.y).take r.h).map (fun l => (l.drop r.x).take r.w)

/-- The samples of an area, luma then chroma, as stored. -/
def Planes.areaBytes (x : Planes) (depth : Nat) (r : Rect) : List Byte :=
  let b := leBytes (sampleSize depth)
  (cutRows r x.luma).flatMap (fun l => l.flatMap b)
    ++ (cutRows (Rect.halved r) x.chroma).flatMap (fun l => l.flatMap (fun p => b p.1 ++ b p.2))

/-- What a picture's buffer holds, of its slot's layout. -/
def State.picPlanes (s : State) (n : Nat) (p : Pic) : Planes := s.planesAt (s.slot n).cfg.stream (p.handle.getD 0)

/-- The version of the running video firmware (R113). -/
def State.videoFw (s : State) : Nat :=
  match tget none s.flash.slots (6 + tget 0 s.boot.from2 3) with
  | some c => c.fwVersion
  | none => 0

/-! ### The coding of a picture (R102 to R105, R108) -/

/-- The CTU columns refreshed by picture `n`: from the first to before the second (R104). -/
def refreshColumns (n p c : Nat) : Nat × Nat := let k := (n - 1) % p; (k * c / p, (k + 1) * c / p)

/-- How a column of a P picture is coded: the refresh columns lie from `lo` to before `hi` (R104, R105). -/
def columnCode (fallback : Bool) (lo hi i : Nat) : ColumnCode :=
  if lo ≤ i ∧ i < hi then (if fallback then .intraDc (32 * hi) else .intra (32 * hi))
  else if fallback then .skip
  else if i < lo then .inter (32 * lo - 8)
  else .any

/-- Picture `n` of a clip of `w` luma columns: an IDR picture first, then P pictures that reference the one before;
the tile boundary of a refresh picture stands after its refresh columns. -/
def picturePlan (w p n qp : Nat) (fallback : Bool) : PicturePlan :=
  let c := ceilDiv w 32
  if n = 0 then
    { idr := true, poc := 0, refs := [], columns := copies c (if fallback then .intraDc (32 * c) else .intra (32 * c))
      boundary := none, qp := qp }
  else
    let r := refreshColumns n p c
    { idr := false, poc := n, refs := [n - 1], columns := (upto 0 c).map (columnCode fallback r.1 r.2)
      boundary := if 0 < r.2 ∧ r.2 < c then some r.2 else none, qp := qp }

/-- The HRD parameters of a clip (R103). -/
def EvidCfg.hrd (c : EvidCfg) : HrdParams := { bitRate := c.bitRate, cpbSize := c.cpbSize, cbr := c.cbr }

/-- initial_cpb_removal_delay (R107). -/
def EvidCfg.firstDelay (c : EvidCfg) : Nat := 90000 * (c.cpbSize * 7 / 8) / c.bitRate

/-- What stands before picture `n`'s tag: parameter sets and SEI messages (R103 to R105; their order is assumption 49). -/
def Clip.headNals (c : Clip) (n : Nat) : List HeadNal :=
  let level := (lowestLevel c.crop.w c.crop.h c.num c.den c.cfg.bitRate c.cfg.cpbSize).getD 153
  let edge := fun (n : Nat) => (picturePlan c.crop.w c.cfg.refreshP n 0 false).boundary
  if n = 0 then
    [.vps level c.cfg.hrd, .sps c.depth c.crop.w c.crop.h level 32 1 c.cfg.hrd, .pps none false,
      .bufferingPeriod c.cfg.firstDelay, .pictureTiming 0]
  else
    (if edge n = edge (n - 1) then [] else [.pps (edge n) false]) ++ [.pictureTiming n]
      ++ (if (n - 1) % c.cfg.refreshP = 0 then [.recoveryPoint (c.cfg.refreshP - 1)] else [])

/-- Their bytes: each is short enough for the bound of R108. -/
def Clip.headBytes (c : Clip) (n : Nat) : List Byte := (c.headNals n).flatMap (fun x => (Config.headNal x).take 80)

/-- Filler data of `n` bytes (R109). -/
def fillerNal (n : Nat) : List Byte :=
  if n < 6 then padTo n (Config.shortFiller n) else [0#8, 0#8, 1#8, 0x4C#8, 1#8] ++ copies (n - 6) 0xFF#8 ++ [0x80#8]

/-- The QP of a pass: that of rate control, within the slot's range, and 6 more in the second (R108). -/
def Clip.qp (c : Clip) (fw pass : Nat) (source : List Byte) : Nat :=
  let q := max c.cfg.minQp (min (Config.rateQp fw c.fullness c.recon source) c.cfg.maxQp)
  if pass = 0 then q else min (q + 6) 51

/-- The largest size of a fallback picture in bits (R108). -/
def Clip.fallbackLimit (c : Clip) : Nat :=
  let f := fallbackBits c.crop.w c.crop.h c.cfg.refreshP
  if c.enc = 0 then f.2 else f.1

/-- The slice of a clip's next picture, after `before` bytes of its access unit: a fallback needs no source sample and
keeps its bound. -/
def Clip.slice (c : Clip) (fw pass before : Nat) (fallback : Bool) (source : List Byte) : List Byte :=
  let plan := picturePlan c.crop.w c.cfg.refreshP c.enc (c.qp fw pass source) fallback
  if fallback then (Config.sliceNal fw plan c.recon []).take (c.fallbackLimit / 8 - before)
  else Config.sliceNal fw plan c.recon source

/-! ### JPEG (R111) -/

/-- Table K.1 in zig-zag order. -/
def jpegLuma : List Nat := (beBytes 64 0x100b0c0e0c0a100e0d0e1211101318281a181616183123251d283a333d3c3933383740485c4e404457453738506d51575f626768673e4d71797064785c656763).map BitVec.toNat

/-- Table K.2 in zig-zag order: 99 from its seventeenth entry. -/
def jpegChromaTable : List Nat := (beBytes 16 0x1112121815182f1a1a2f634238426363).map BitVec.toNat ++ copies 48 99

/-- A quantisation table scaled for a quality. -/
def jpegScaled (q : Nat) (base : List Nat) : List Nat :=
  let f := if q < 50 then 5000 / q else 200 - 2 * q
  base.map (fun b => max 1 (min ((b * f + 50) / 100) 255))

/-- A Huffman table of Annex K.3: how many codes have 1 to 16 bits, and their symbols. -/
structure HuffTable where
  counts : List Byte
  symbols : List Byte
  deriving DecidableEq, Repr

def dcSymbols : List Byte := beBytes 12 0x000102030405060708090a0b

def dcLuma : HuffTable := ⟨beBytes 16 0x00010501010101010100000000000000, dcSymbols⟩

def dcChroma : HuffTable := ⟨beBytes 16 0x00030101010101010101010000000000, dcSymbols⟩

def acLuma : HuffTable := ⟨beBytes 16 0x0002010303020403050504040000017d,
  beBytes 54 0x01020300041105122131410613516107227114328191a1082342b1c11552d1f02433627282090a161718191a25262728292a34353637
    ++ beBytes 54 0x38393a434445464748494a535455565758595a636465666768696a737475767778797a838485868788898a92939495969798999aa2a3
    ++ beBytes 54 0xa4a5a6a7a8a9aab2b3b4b5b6b7b8b9bac2c3c4c5c6c7c8c9cad2d3d4d5d6d7d8d9dae1e2e3e4e5e6e7e8e9eaf1f2f3f4f5f6f7f8f9fa⟩

def acChroma : HuffTable := ⟨beBytes 16 0x00020102040403040705040400010277,
  beBytes 54 0x000102031104052131061241510761711322328108144291a1b1c109233352f0156272d10a162434e125f11718191a262728292a3536
    ++ beBytes 54 0x3738393a434445464748494a535455565758595a636465666768696a737475767778797a82838485868788898a92939495969798999a
    ++ beBytes 54 0xa2a3a4a5a6a7a8a9aab2b3b4b5b6b7b8b9bac2c3c4c5c6c7c8c9cad2d3d4d5d6d7d8d9dae2e3e4e5e6e7e8e9eaf2f3f4f5f6f7f8f9fa⟩

/-- The most significant `n` bits of a number, first bit first. -/
def msbBits (n v : Nat) : List Bool := (upto 0 n).map (fun i => bit v (n - 1 - i))

/-- The code of the `i`-th symbol: codes count up within a length and double at the next. -/
def huffWalk : List Nat → Nat → Nat → Nat → List Bool
  | [], _, _, _ => []
  | k :: t, len, first, i => if i < k then msbBits len (first + i) else huffWalk t (len + 1) ((first + k) * 2) (i - k)

def HuffTable.code (h : HuffTable) (symbol : Nat) : List Bool :=
  huffWalk (h.counts.map BitVec.toNat) 1 0 (h.symbols.findIdx (fun x => x.toNat == symbol))

/-- Magnitude category of a coefficient, and its extra bits. -/
def category (v : Int) : Nat := bitLen v.natAbs

def extraBits (v : Int) : List Bool :=
  let n := category v
  msbBits n (if v < 0 then (v + (2 ^ n : Nat) - 1).toNat else v.toNat)

/-- The AC coefficients of a block, with `run` zeros before them. -/
def acBits (h : HuffTable) : Nat → List Int → List Bool
  | _, [] => []
  | run, v :: t =>
    if (v :: t).all (· == 0) then h.code 0
    else if v = 0 then acBits h (run + 1) t
    else (copies (run / 16) (h.code 0xF0)).flatten ++ h.code (run % 16 * 16 + category v) ++ extraBits v ++ acBits h 0 t

/-- A block: its DC difference, then its AC coefficients; baseline coding bounds both. -/
def blockBits (dc ac : HuffTable) (last : Int) (xs : List Int) : List Bool :=
  let d := xs.headD 0 - last
  dc.code (category d) ++ extraBits d ++ acBits ac 0 xs.tail

/-- Coefficients of a block of samples. -/
def coefficients (table samples : List Nat) : List Int :=
  (Config.quantised table samples).take 64 |>.map (fun v => clampI v (-1023) 1023)

/-- The 8 × 8 block at column `bx` and row `by8` of a plane. -/
def blockAt (plane : List (List Nat)) (bx by8 : Nat) : List Nat :=
  ((plane.drop (8 * by8)).take 8).flatMap (fun l => (l.drop (8 * bx)).take 8)

/-- Blocks of one component in coding order, each coded after the one before. -/
structure JpegPart where
  dc : HuffTable
  ac : HuffTable
  comp : Nat
  block : List Int
  deriving DecidableEq, Repr

/-- The blocks of MCU `x` of MCU row `y`: four of luma, one of each chroma. -/
def mcuParts (ty tc : List Nat) (luma cb cr : List (List Nat)) (y x : Nat) : List JpegPart :=
  ([(0, 0), (1, 0), (0, 1), (1, 1)].map (fun (o : Nat × Nat) =>
      ⟨dcLuma, acLuma, 0, coefficients ty (blockAt luma (2 * x + o.1) (2 * y + o.2))⟩))
    ++ [⟨dcChroma, acChroma, 1, coefficients tc (blockAt cb x y)⟩, ⟨dcChroma, acChroma, 2, coefficients tc (blockAt cr x y)⟩]

/-- The entropy-coded bits of a restart interval: the DC predictions start at 0. -/
def partBits : List Int → List JpegPart → List Bool
  | _, [] => []
  | last, p :: t => blockBits p.dc p.ac (last.getD p.comp 0) p.block ++ partBits (last.set p.comp (p.block.headD 0)) t

/-- Bits as bytes, the last filled up with ones; a zero byte follows each FF. -/
def scanBytes (bits : List Bool) : List Byte :=
  (chunks 8 (bits.length / 8 + 1) bits).flatMap (fun c =>
    let v := (c ++ copies (8 - c.length) true).foldl (fun v b => 2 * v + b2n b) 0
    if v = 255 then [0xFF#8, 0#8] else [BitVec.ofNat 8 v])

/-- A marker segment. -/
def segment (marker : Nat) (body : List Byte) : List Byte :=
  [0xFF#8, BitVec.ofNat 8 marker] ++ beBytes 2 (body.length + 2) ++ body

/-- A Huffman table definition. -/
def HuffTable.definition (h : HuffTable) (id : Nat) : List Byte := segment 0xC4 (leBytes 1 id ++ h.counts ++ h.symbols)

/-- The crop rounded outwards to multiples of 16. -/
def Rect.outward16 (r : Rect) : Rect :=
  let x := r.x / 16 * 16
  let y := r.y / 16 * 16
  ⟨x, y, alignUp (r.x + r.w) 16 - x, alignUp (r.y + r.h) 16 - y⟩

/-- A stored sample as 8 bits. -/
def jpegSample (depth v : Nat) : Nat := if depth = 8 then v else min ((v / 64 + 2) / 4) 255

/-- The 8-bit samples of an area: luma, Cb, Cr. -/
def Planes.jpegBytes (x : Planes) (depth : Nat) (r : Rect) : List Byte :=
  let b := fun (v : Nat) => leBytes 1 (jpegSample depth v)
  let c := cutRows (Rect.halved r) x.chroma
  (cutRows r x.luma).flatMap (fun l => l.flatMap b) ++ c.flatMap (fun l => l.flatMap (fun p => b p.1))
    ++ c.flatMap (fun l => l.flatMap (fun p => b p.2))

/-- A baseline JFIF image of `w` × `h` samples, multiples of 16, with its tag in a COM segment. -/
def jpegImage (q w h : Nat) (samples tag : List Byte) : List Byte :=
  let ty := jpegScaled q jpegLuma
  let tc := jpegScaled q jpegChromaTable
  let v := samples.map BitVec.toNat
  let luma := chunks w h v
  let cb := chunks (w / 2) (h / 2) ((v.drop (w * h)).take (w * h / 4))
  let cr := chunks (w / 2) (h / 2) (v.drop (w * h + w * h / 4))
  let cols := w / 16
  let rows := h / 16
  let interval := fun (y : Nat) => scanBytes (partBits [0, 0, 0] ((upto 0 cols).flatMap (mcuParts ty tc luma cb cr y)))
  [0xFF#8, 0xD8#8] ++ segment 0xE0 (ascii "JFIF" ++ [0#8] ++ padTo 7 Config.jfifFields ++ leBytes 2 0) ++ segment 0xFE tag
    ++ segment 0xDB (leBytes 1 0 ++ ty.flatMap (leBytes 1)) ++ segment 0xDB (leBytes 1 1 ++ tc.flatMap (leBytes 1))
    ++ segment 0xC0 ([8#8] ++ beBytes 2 h ++ beBytes 2 w ++ [3#8, 1#8, 0x22#8, 0#8, 2#8, 0x11#8, 1#8, 3#8, 0x11#8, 1#8])
    ++ dcLuma.definition 0 ++ acLuma.definition 0x10 ++ dcChroma.definition 1 ++ acChroma.definition 0x11
    ++ segment 0xDD (beBytes 2 cols)
    ++ segment 0xDA [3#8, 1#8, 0#8, 2#8, 0x11#8, 3#8, 0x11#8, 0#8, 63#8, 0#8]
    ++ (upto 0 rows).flatMap (fun y => interval y ++ if y + 1 < rows then [0xFF#8, BitVec.ofNat 8 (0xD0 + y % 8)] else [])
    ++ [0xFF#8, 0xD9#8]

end Sys2Proof.Machine
end

