-- ==== Sys2Proof/Machine/EvidEncode.lean ====
section
/-! DEFINITION. The encode engines (R95, R102 to R112, R114, R115): the choice of work, saves and restores, rate
control against the CPB, clip pictures and snapshots. -/
namespace Sys2Proof.Machine
open Sys2Proof

/-- `dt` VIDEO_CLK cycles pass on an encode engine. -/
def State.encTick (s : State) (e dt : Nat) : State :=
  s.modEnc e (fun g => { g with ticks := g.ticks + dt, busy := if g.st = 0 then g.busy else (g.busy + dt) % 2 ^ 64 })

/-! ### The choice of work (R95) -/

/-- The clip's next picture can be encoded: held, or dropped (R98). -/
def Clip.ready (c : Clip) : Bool := c.droppedPics.any (fun p => p.seq == c.next) || c.held.any (fun p => p.seq == c.next)

def workKey (cls snap reqNo slot : Nat) : Nat := ((cls * 2 + snap) * 2 ^ 64 + reqNo) * 256 + slot

def EncWork.taken (s : State) (w : EncWork) : Bool := (upto 0 2).any (fun e => (s.encEngine e).work == some w)

/-- The next work of engine `e`, with its slot. -/
def State.nextWork (s : State) (e : Nat) : Option (EncWork × Nat) :=
  let cls := fun (n : Nat) => (s.slot n).cfg.stream.priority
  let snaps := (s.evid.snaps.filter (fun k => !EncWork.taken s (.snap k.id))).map
    (fun k => (workKey (cls k.slot) 0 k.reqNo k.slot, EncWork.snap k.id, k.slot))
  let clips := (s.evid.clips.filter (fun c => c.engine == e && c.ready)).map
    (fun c => (workKey (cls c.slot) 1 c.reqNo c.slot, EncWork.clip c.id, c.slot))
  (minBy (fun w => w.1) (snaps ++ clips)).map (·.2)

def State.clipOf (s : State) (id : Nat) : Option Clip := s.evid.clips.find? (fun c => c.id == id)

/-- The engine turns to a clip: its state is restored where it has one. -/
def State.turnTo (s : State) (e : Nat) (c : Clip) : State :=
  s.modEnc e (fun g => if 0 < c.enc then { g with st := 3, lastClip := some c.id, switches := (g.switches + 1) % 2 ^ 64 }
    else { g with st := 1, lastClip := some c.id })

/-- A free engine takes its next work; it saves another clip's state first. -/
def State.encodeStart (s : State) (e : Nat) : State :=
  let g := s.encEngine e
  if g.st ≠ 0 ∨ 2 ≤ e then s
  else match s.nextWork e with
    | none => s
    | some (w, n) =>
      let s := s.modEnc e (fun g => { g with work := some w, slotShown := n, pass := 0 })
      match w with
      | .snap _ => s.modEnc e (fun g => { g with st := 1 })
      | .clip id => match s.clipOf id with
        | none => s
        | some c =>
          if g.lastClip = some id then s.modEnc e (fun g => { g with st := 1 })
          else if g.lastClip.isSome then s.modEnc e (fun g => { g with st := 2, switches := (g.switches + 1) % 2 ^ 64 })
          else s.turnTo e c

def execEncodeStart (engine dt : Nat) (s : State) : Host.Outcome State Fault Refusal :=
  whenUp s ((s.encTick engine dt).encodeStart engine)

def State.encodeSaved (s : State) (e : Nat) : State :=
  let g := s.encEngine e
  match g.st, g.work with
  | 2, some (.clip id) => match s.clipOf id with
    | some c => s.turnTo e c
    | none => s
  | _, _ => s

def execEncodeSaveDone (engine dt : Nat) (s : State) : Host.Outcome State Fault Refusal :=
  whenUp s ((s.encTick engine dt).encodeSaved engine)

def State.encodeRestored (s : State) (e : Nat) : State :=
  if (s.encEngine e).st = 3 then s.modEnc e (fun g => { g with st := 1 }) else s

def execEncodeRestoreDone (engine dt : Nat) (s : State) : Host.Outcome State Fault Refusal :=
  whenUp s ((s.encTick engine dt).encodeRestored engine)

/-- The engine has finished a unit of work. -/
def State.encFree (s : State) (e : Nat) : State :=
  s.modEnc e (fun g => { g with st := 0, pass := 0, work := none, slotShown := 0 })

/-! ### Rate control (R107 to R109) -/

/-- The bounds of a picture's bits. -/
def cpbBounds (c : EvidCfg) (num den full : Nat) : Nat × Nat :=
  let k := 90000 * num
  let a := 90000 * c.bitRate * den
  (if c.cbr ∧ c.cpbSize * k < full + a then ceilDiv (full + a - c.cpbSize * k) k else 0, full / k)

/-- Filler bytes of a picture of `b` bits. -/
def fillerOf (bmin b : Nat) : Nat := ceilDiv (bmin - b) 8

/-- Fullness at the next removal. -/
def cpbNext (c : EvidCfg) (num den full b : Nat) : Nat :=
  let k := 90000 * num
  let f := full + 90000 * c.bitRate * den - b * k
  if !c.cbr ∧ c.cpbSize * k < f then c.cpbSize * k else f

/-! ### Clip pictures (R102, R106 to R109, R393) -/

/-- An integrity substitution met by an encode engine, in the saddle or in the memory-side cache. -/
def State.encFailed (s : State) (e n : Nat) (p : Option Pic) (cache : Bool) : State :=
  match p with
  | none => s
  | some p =>
    (s.raise { code := fltIntSubst, unit := 12 + e, detail := b2n cache, addr := s.fbAddr (p.handle.getD 0) 0, slot := n }).chainLate n
      (substEntry 9 p.pts p.seq true)

/-- What one pass over a clip's next picture gives (R108): the bytes before its tag, its slice, and the bits of the access
unit with the tag. -/
structure PassOutput where
  head : List Byte
  body : List Byte
  bits : Nat
  deriving DecidableEq, Repr

/-- A pass over a clip's next picture, tagged `tag`. -/
def State.encodePass (s : State) (c : Clip) (pass : Nat) (fallback : Bool) (source tag : List Byte) : PassOutput :=
  let head := c.headBytes c.enc
  let sei := (tagSei tag).length
  let body := c.slice s.videoFw pass (head.length + sei) fallback source
  ⟨head, body, 8 * (head.length + sei + body.length)⟩

/-- How a clip's next picture stands: its source or the dropped picture, and whether the read of its samples failed. -/
structure ClipPic where
  pic : Option Pic
  dropped : Bool
  failed : Bool
  deriving DecidableEq, Repr

/-- Its marks, as the tag's bits. -/
def ClipPic.marks (p : ClipPic) : Nat := ((p.pic.map Pic.marks).getD 0 ||| b2n p.failed) + 8 * b2n p.dropped

/-- It is coded as a repeat picture (R102). -/
def ClipPic.repeats (p : ClipPic) (n : Nat) : Bool := n != 0 && (bit p.marks 0 || p.dropped)

/-- The clip's next picture. A repeat picture needs no read of its source. -/
def Clip.nextPic (c : Clip) (r : SourceRead) : ClipPic :=
  let here := fun (l : List Pic) => l.find? (fun q => q.seq == c.next)
  let drop := here c.droppedPics
  let p : ClipPic := ⟨here c.held <|> drop, drop.isSome, false⟩
  { p with failed := r.failed && !p.repeats c.enc && !p.dropped }

/-- The bytes a picture is coded from: those of its buffer, or where their read failed what the engine has instead. -/
def State.clipSource (s : State) (c : Clip) (p : ClipPic) : List Byte × State :=
  let own := match p.pic with
    | some q => (s.picPlanes c.slot q).areaBytes c.depth c.crop
    | none => []
  if p.failed then (let d := s.draw 64; (Config.lostSource d.1 own, d.2)) else (own, s)

/-- A clip takes its coded picture. -/
def State.clipCoded (s : State) (e : Nat) (c : Clip) (p : ClipPic) (cache : Bool) (pass : Nat) (o : PassOutput) (bmin : Nat) : State :=
  let s := if p.failed then s.encFailed e c.slot p.pic cache else s
  let fill := fillerOf bmin o.bits
  let s := s.counts c.slot
    [(0x41, 1), (0x42, b2n (p.repeats c.enc)), (0x44, b2n (decide (1 ≤ pass))), (0x45, b2n (pass == 2)), (0x46, fill)]
  let c' := { c with
    enc := c.enc + 1, next := c.next + 1, output := c.coded 0, marks := c.marks ||| p.marks
    tail := some ⟨o.head, o.body ++ fillerNal fill, (p.pic.map (·.pts)).getD 0, c.next, p.marks + 16 * b2n c.short⟩
    recon := Config.reconstruct c.recon o.body
    fullness := cpbNext c.cfg c.num c.den c.fullness (o.bits + 8 * fill)
    held := c.held.filter (fun q => q.seq != c.next), droppedPics := c.droppedPics.filter (fun q => q.seq != c.next) }
  let s := s.modClip c.id (fun _ => c')
  let s := match c.held.find? (fun q => q.seq == c.next) with
    | some q => s.dropEv q
    | none => s
  let s := s.encFree e
  if c'.last < c'.next then s.closeClip c' false else s

/-- A pass over a clip's picture ends. Beyond bmax the next pass begins, up to the third, the fallback picture (R108). -/
def State.passDone (s : State) (e : Nat) (c : Clip) (r : SourceRead) : State :=
  let p := c.nextPic r
  let pass := (s.encEngine e).pass
  let b := cpbBounds c.cfg c.num c.den c.fullness
  let src := s.clipSource c p
  let tag := evidTag c.id c.slot ((p.pic.map (·.pts)).getD 0) c.next (p.marks + 16 * b2n c.short)
  let o := s.encodePass c pass (p.repeats c.enc || pass == 2) src.1 tag
  if b.2 < o.bits ∧ pass < 2 ∧ !p.repeats c.enc then src.2.modEnc e (fun g => { g with pass := g.pass + 1 })
  else src.2.clipCoded e c p r.cache pass o b.1

def State.encodeDone (s : State) (e : Nat) (r : SourceRead) : State :=
  let g := s.encEngine e
  match g.st, g.work with
  | 1, some (.clip id) => match s.clipOf id with
    | some c => s.passDone e c r
    | none => s
  | _, _ => s

def execEncodePictureComplete (engine dt : Nat) (c : SourceRead) (s : State) : Host.Outcome State Fault Refusal :=
  whenUp s ((s.encTick engine dt).encodeDone engine c)

/-! ### Snapshots (R111, R112) -/

/-- The image of a snapshot, with its tag (R106, R111). -/
def State.snapImage (s : State) (k : Snapshot) (failed : Bool) : List Byte × State :=
  let area := Rect.outward16 k.crop
  let own := (s.picPlanes k.slot k.pic).jpegBytes (s.slot k.slot).cfg.stream.depth area
  let src : List Byte × State := if failed then (let d := s.draw 64; (Config.lostSource d.1 own, d.2)) else (own, s)
  (jpegImage k.q area.w area.h src.1 (evidTag k.id k.slot k.pic.pts k.pic.seq (Pic.marks k.pic ||| b2n failed)), src.2)

/-- A snapshot is encoded: again at half its quality where it is too large, at most twice. -/
def State.snapCoded (s : State) (e : Nat) (k : Snapshot) (failed cache : Bool) : State :=
  let marks := Pic.marks k.pic ||| b2n failed
  let image := s.snapImage k failed
  let size := image.1.length
  let s := if failed then image.2.encFailed e k.slot (some k.pic) cache else image.2
  if k.maxBytes < size ∧ k.tries < 2 then
    (s.modEnc e (fun g => { g with pass := k.tries + 1 })) |> fun s => { s with evid := { s.evid with
      snaps := modWhere (fun j => j.id == k.id) (fun j => { j with q := max 1 (j.q / 2), tries := j.tries + 1 }) s.evid.snaps } }
  else
    let s := { s with evid := { s.evid with snaps := s.evid.snaps.filter (fun j => j.id != k.id) } }
    let s := (s.encFree e).dropEv k.pic
    if k.maxBytes < size then
      ((s.raise { code := fltVenSnapSize, unit := 0x5000 + e, detail := k.slot, slot := k.slot }).count k.slot 0x49 1).endReserv k.res
    else (s.count k.slot 0x48 1).deliverEvid k.slot k.id 1 marks k.pic.seq k.pic.seq k.pic.pts k.res image.1

def State.snapDone (s : State) (e : Nat) (failed cache : Bool) : State :=
  let g := s.encEngine e
  match g.st, g.work with
  | 1, some (.snap id) => match s.evid.snaps.find? (fun k => k.id == id) with
    | some k => s.snapCoded e k failed cache
    | none => s
  | _, _ => s

def execSnapshotComplete (engine dt : Nat) (failed cache : Bool) (s : State) : Host.Outcome State Fault Refusal :=
  whenUp s ((s.encTick engine dt).snapDone engine failed cache)

end Sys2Proof.Machine
end

