-- ==== Sys2Proof/Machine/PairMirror.lean ====
section
/-! DEFINITION. Mirror frames received from the partner (R485, R487, R490): the shadow state of its slots, its
narration sessions, its ledger, and its pair-scope commits. The layouts are those of assumption 20. -/
namespace Sys2Proof.Machine
open Sys2Proof

/-! ### Reading mirrored state -/

/-- `n` words from offset `o`. -/
def wordsAt (b : List Byte) (o n : Nat) : List Word := (upto 0 n).map (fun (i : Nat) => BitVec.ofNat 32 (fieldAt b (o + 4 * i) 4))

/-- A store entry (R288); state 0 is a free entry. -/
def trackOfBytes (b : List Byte) : Track :=
  let st := fieldAt b 4 1
  let flags := fieldAt b 5 1
  if st = 0 then {}
  else
    { id := fieldAt b 0 4, state := st, flags := flags, hits := fieldAt b 6 2, misses := fieldAt b 8 2, cls := fieldAt b 10 2
      score := BitVec.ofNat 32 (fieldAt b 12 4), ptsLast := fieldAt b 16 8, ptsBirth := fieldAt b 24 8
      pos := wordsAt b 32 4, vel := wordsAt b 48 4, cov := wordsAt b 64 12
      globalId := fieldAt b 112 4, galleryIdx := fieldAt b 116 4
      emb := if bit flags 0 then (b.drop 256).take 256 else [], emitted := st == 2 || st == 3 }

/-- A counted list of elements of `w` bytes, and what follows it. -/
def countedList (w : Nat) (b : List Byte) : List (List Byte) × List Byte :=
  let n := fieldAt b 0 2
  (chunks w n ((b.drop 2).take (w * n)), b.drop (2 + w * n))

/-- A rule's state, in the rule's own configuration. -/
def ruleOfBytes (b : List Byte) : Rule :=
  let stay := fun (e : List Byte) => (fieldAt e 0 4, fieldAt e 4 8)
  let inside := countedList 12 (b.drop 1)
  let dwelt := countedList 4 inside.2
  let sides := countedList 5 dwelt.2
  let seen := countedList 4 sides.2
  let fired := countedList 12 seen.2
  { armed := fieldAt b 0 1 == 1, inside := inside.1.map stay, dwelt := dwelt.1.map leNat
    sides := sides.1.map (fun e => (fieldAt e 0 4, fieldAt e 4 1 == 1)), seen := seen.1.map leNat
    fired := fired.1.map stay }

/-- A narration request. -/
def narrOfBytes (b : List Byte) : NarrWait :=
  let host := fieldAt b 51 1
  let t := fieldAt b 52 2
  let rec_ := b.drop (54 + t)
  { req := { slot := fieldAt b 11 2, eventSeq := fieldAt b 13 4, picture := fieldAt b 17 4
             crop := ⟨fieldAt b 21 4, fieldAt b 25 4, fieldAt b 29 4, fieldAt b 33 4⟩
             template := (b.drop 54).take t, record := (rec_.drop 2).take (fieldAt rec_ 0 2)
             maxTokens := fieldAt b 37 1, temperature := BitVec.ofNat 32 (fieldAt b 38 4), topK := fieldAt b 42 1
             seed := fieldAt b 43 8
             host := [OdRoute.mailbox, .udp, .can, .cantle].find? (fun r => OdRoute.num r == host) }
    pts := fieldAt b 2 8, marks := fieldAt b 10 1, buf := 0 }

/-- The entries of a commit mirror: key, value. -/
def commitEntries : Nat → List Byte → List (Nat × List Byte)
  | 0, _ => []
  | k + 1, b =>
    if b.length < 6 then []
    else
      let n := fieldAt b 4 2
      (fieldAt b 0 4, (b.drop 6).take n) :: commitEntries k (b.drop (6 + n))

/-! ### Effects -/

def State.modShadow (s : State) (n : Nat) (f : Shadow → Shadow) : State :=
  s.modPair (fun p => { p with shadows := tmod {} p.shadows n f })

/-- The partner's committed entries are applied here (R487); values that this device refuses stay out. -/
def State.mirrorApply (s : State) (ks : List (Nat × List Byte)) : State :=
  match s.applyKeys .cantle (ks.filter (fun k => pairScope (keyIndex k) && k.1 != odKeyNat 0x6010 2)) [] with
  | .ok u => u
  | .error e => (s.odRefused .cantle e).st

/-- Effect of a mirror frame. -/
def State.mirrored (s : State) (kind : MirrorKind) (p : List Byte) : State :=
  let n := fieldAt p 1 1
  let g := fieldAt p 2 8
  let b := p.drop 10
  match kind with
  | .tracks => s.modShadow n (fun h => { h with
      nextSerial := fieldAt b 0 4, tracks := tset {} h.tracks (fieldAt b 4 2) (trackOfBytes (b.drop 6)) })
  | .rules => s.modShadow n (fun h => { h with
      rules := sortBy (·.1) ((h.rules.filter (fun r => r.1 != fieldAt b 0 2)) ++ [(fieldAt b 0 2, ruleOfBytes (b.drop 2))]) })
  | .chain => s.modShadow n (fun h => { h with
      h := b.take 64, seq := fieldAt b 64 4, cpNumber := fieldAt b 68 4, cpFirst := fieldAt b 72 4, group := g, valid := true })
  | .rtsp => s.modShadow n (fun h => { h with
      rtspPhase := fieldAt b 0 1, ssrc := fieldAt b 1 4, extSeq := (fieldAt b 5 4 : Nat), extTs := sgn 64 (fieldAt b 9 8)
      rtspTransport := RtspTransport.ofNum (fieldAt b 17 1), rtspSession := b.drop 18 })
  | .sessions =>
    let i := fieldAt b 0 1
    let kept := if i = 0 then [] else s.pairSh.sessions
    { s with pairSh := { s.pairSh with sessions := if fieldAt b 1 1 = 0 then [] else kept ++ [narrOfBytes b] } }
  | .commit => s.mirrorApply (commitEntries (b.length / 6 + 1) b)
  | .ledger => { s with pairSh := { s.pairSh with ledger := (chunks 4 (b.length / 4 + 1) b).map leNat } }
  | .full => if fieldAt b 0 1 = 1 then s.modShadow n (fun h => { h with tracks := [], rules := [] }) else s

def execStirrupMirrorFrame (f : Frame) (kind : MirrorKind) (s : State) : Host.Outcome State Fault Refusal :=
  whenUp s (s.takeFrame f (decide (10 ≤ f.payload.length)) (fun s => if s.pairs then s.mirrored kind f.payload else s))

end Sys2Proof.Machine
end

