-- ==== Sys2Proof/Machine/Pcie.lean ====
section
/-! DEFINITION. The PCIe endpoint: BAR2 (R509, R510), power states (R516 to R518), reads that do not return
(R519 to R521), AER (R522) and the endpoint's resets (R523). -/
namespace Sys2Proof.Machine
open Sys2Proof

def State.modPci (s : State) (f : Pci → Pci) : State := { s with pci := f s.pci }

/-! ### Identity (R13, R505) -/

/-- What configuration space names the device by. -/
structure PciId where
  vendor : Nat
  device : Nat
  cls : Nat
  revision : Nat
  deriving DecidableEq, Repr

/-- The Device ID of the capacity that the device offers: 0x2841 for a QS-2840L and at reduced capacity (R15). -/
def State.pciId (s : State) : PciId :=
  { vendor := 0x1F9C, device := if s.fuses.part = 1 ∨ s.boot.clusters < s.fuses.grade.1 then 0x2841 else 0x2840
    cls := 0x120000, revision := s.fuses.stepping }

/-! ### AER (R522): the bits are those of the PCIe specification -/

/-- Logs an uncorrectable error. -/
def State.aer (s : State) (i : Nat) : State := s.modPci (fun p => { p with aerUnc := setBit p.aerUnc i true })

/-- Logs a correctable error. -/
def State.aerCorrect (s : State) (i : Nat) : State := s.modPci (fun p => { p with aerCor := setBit p.aerCor i true })

/-! ### Grants (R510) -/

/-- Pages of the reservation of a page list that a route allocated: the list's own pages among them. -/
def State.hostPage (s : State) (p : Nat) : Bool :=
  let g := s.page p
  g.st == .held && g.cls == 2 && s.tkp.lists.any (fun l =>
    tget 4 s.tkp.listOwner l.1 == OdRoute.num .mailbox && (match l.2.head? with
      | some q => (s.page q).holder == g.holder
      | none => false))

/-- A page that the host may reach. -/
def State.granted (s : State) (p : Nat) : Bool :=
  bit s.kpr.scopes 1 || s.hostPage p
    || s.evid.outs.any (fun o => o.listPage == p || o.pages.contains p)
    || s.slots.any (fun x => x.2.chain.audPages.contains p)
    || s.ctxs.any (fun x => x.2.capture && x.2.owner == .mailbox && x.2.savePages.contains p)

/-! ### BAR2 (R509, R516, R517) -/

/-- Device address of a request of `n` bytes at a BAR2 offset; `none` where it is unsupported. -/
def State.bar2Addr (s : State) (offset n : Nat) : Option Nat :=
  let a := if s.pci.barLog2 = 34 then offset else s.pci.aperture + offset
  let dead : Bool := match s.mem.lostDie with
    | some d => (upto (pageOf a) (pageOf (a + n - 1) - pageOf a + 1)).any (fun p => dieOf (p % 64) == d)
    | none => false
  if s.pci.dState ≠ 0 ∨ s.pci.linkL2 ∨ !s.pci.saddleReady ∨ n = 0 ∨ saddleSize < a + n ∨ dead then none else some a

/-- The pages of `[a, a + n)` that the host may not reach. -/
def State.deniedPages (s : State) (a n : Nat) : List Nat :=
  (upto (pageOf a) (pageOf (a + n - 1) - pageOf a + 1)).filter (fun p => !s.granted p)

/-- A request is refused: FLT_PCI_ACCESS once per page per second. -/
def State.deny (s : State) (a : Nat) (ps : List Nat) : State :=
  let s := s.modPci (fun p => { p with denied := (p.denied + 1) % 2 ^ 32 })
  ps.foldl (fun s p => if s.pci.deniedPages.contains p then s
    else (s.modPci (fun x => { x with deniedPages := p :: x.deniedPages })).raise
      { code := fltPciAccess, addr := max a (p * pageSize) }) s

/-- A byte of a capture whose place the spec does not give: a core state block or a cluster block (R433). -/
def State.inStateBlock (s : State) (a : Nat) : Bool :=
  s.ctxs.any (fun x => x.2.capture && ((upto 0 x.2.savePages.length).zip x.2.savePages).any (fun g =>
    g.2 == pageOf a && decide (48 ≤ g.1 % 51)))

/-- The bytes of a read that passes; those of a state block are free values. -/
def State.bar2Bytes (s : State) (a n : Nat) : List Byte × State :=
  if s.inStateBlock a then let d := s.draw (8 * n); (leBytes n d.1, d.2) else (s.seen a n, s)

/-- A read: data, Unsupported Request, or Completer Abort at a line that recovery does not restore. -/
def State.bar2Read (s : State) (offset n : Nat) (e : ReadErrors) : State :=
  match s.bar2Addr offset n with
  | none => (s.aer 20).emit .bar2Unsupported
  | some a =>
    let ps := s.deniedPages a n
    if !ps.isEmpty then ((s.deny a ps).aer 20).emit .bar2Unsupported
    else match s.readRange 40 (s.portWays 40) a n e with
      | (some _, s) => ((s.aer 15).emit .bar2Abort).settleLost
      | (none, s) => let r := s.bar2Bytes a n; r.2.emit (.bar2Data r.1)

def execBar2Read (offset bytes : Nat) (e : ReadErrors) (s : State) : Host.Outcome State Fault Refusal :=
  whenUp s (s.bar2Read offset bytes e)

/-- A posted write: discarded where it is poisoned, unsupported or not granted. An image that it completes
creates the context that waits for it (R566). -/
def State.bar2Write (s : State) (w : HostWrite) : State :=
  if w.poisoned then s.aer 12
  else match s.bar2Addr w.offset w.bytes.length with
    | none => s.aer 20
    | some a =>
      let ps := s.deniedPages a w.bytes.length
      if ps.isEmpty then (s.store (s.portWays 40) a w.bytes).settleCreates else s.deny a ps

def execBar2Write (w : HostWrite) (s : State) : Host.Outcome State Fault Refusal := whenUp s (s.bar2Write w)

/-! ### Power states (R516 to R518) -/

/-- A write of D3hot. -/
def State.toD3 (s : State) : State :=
  let s := s.modPci (fun p => { p with dState := 3 })
  if s.ready then s.enterStandby else s

def execD3hotRequest (s : State) : Host.Outcome State Fault Refusal := whenUp s s.toD3

/-- A write of D0: the link is up again, held messages go out, and standby is left. -/
def State.toD0 (s : State) : State :=
  let s := (s.modPci (fun p => { p with dState := 0, linkL2 := false, wakeAsserted := false })).modPwr (fun p => { p with pendingStandby := false })
  (s.msixFlush.wake false).pushFetch

def execD0Request (s : State) : Host.Outcome State Fault Refusal := whenUp s s.toD0

/-- PME_Turn_Off is acknowledged; the link goes to L2. -/
def execPmeTurnOff (s : State) : Host.Outcome State Fault Refusal :=
  whenUp s ((s.modPci (fun p => { p with linkL2 := true })).emit .pmeAck)

/-! ### Endpoint resets (R523, R538, R539) -/

/-- Configuration space, PCI block, MSI-X, windows, aperture and mailbox take their reset values; what shows the
device's own boot stays. -/
def Pci.reset (p : Pci) : Pci := { ({} : Pci) with ready := p.ready, saddleReady := p.saddleReady, deniedPages := p.deniedPages }

/-- The push ring and every delivery ring are disabled; the mailbox session ends with its transaction, and a new
one begins. -/
def State.resetEndpoint (s : State) (f : Pci → Pci) : State :=
  let open_ := (s.session ⟨.mailbox, 0⟩).isSome
  let s := if open_ then (s.endSession ⟨.mailbox, 0⟩).openSession ⟨.mailbox, 0⟩ else s
  let s := (s.rings.map (·.1)).foldl (fun s n => s.modRing n (fun r => { r with enable := false })) s
  let held := s.heldLow.filter (fun h => h.1 % 2 ^ 32 / 0x10000 != 10)
  { s with pci := f s.pci, heldLow := held, push := { s.push with enable := false, fetching := false, current := none } }

/-- A Function Level Reset: the error log and the PME bits are sticky. -/
def State.flr (s : State) : State :=
  s.resetEndpoint (fun p => { p.reset with aerCor := p.aerCor, aerUnc := p.aerUnc, pmeEn := p.pmeEn, pmeStatus := p.pmeStatus })

def execFlr (s : State) : Host.Outcome State Fault Refusal := whenUp s s.flr

/-- PERST# or hot reset. On a link in L2 it is D3cold, from which a wake source still signals; WAKE# is released
(R518). -/
def State.perst (s : State) : State :=
  s.resetEndpoint (fun p =>
    if p.linkL2 ∧ !p.wakeAsserted then { p.reset with linkL2 := true, dState := p.dState, pmeEn := p.pmeEn, pmeStatus := p.pmeStatus }
    else p.reset)

def execPerst (s : State) : Host.Outcome State Fault Refusal := whenUp s s.perst

/-! ### Completions (R519 to R521) -/

/-- An outstanding read fails. The push path stops at its descriptor: its ring is disabled. -/
def State.readFails (s : State) (r : PciRead) (code : Nat) : State :=
  let s := s.modPci (fun p => { p with outstanding := p.outstanding.filter (fun q => q.tag != r.tag) })
  let s := if r.push then { s with push := { s.push with enable := false, fetching := false, current := none } } else s
  s.raise { code := code, addr := r.addr }

/-- A completion that belongs to no outstanding read: an abandoned read's tag is free again. -/
def State.unexpected (s : State) (tag : Nat) : State :=
  (s.aer 16).modPci (fun p => { p with abandoned := p.abandoned.filter (fun t => t != tag) })

/-- AER bit of a completion that fails its read. -/
def CplStatus.aerBit : CplStatus → Nat
  | .unsupported => 20
  | .abort => 15
  | _ => 12

def State.completion (s : State) (tag : Nat) (status : CplStatus) (dt : Nat) (bytes : List Byte) : State :=
  match s.pci.outstanding.find? (fun r => r.tag == tag) with
  | none => s.unexpected tag
  | some r =>
    if status = .success then (if r.desc then s.pushDesc bytes else s.pushRead dt bytes)
    else ((s.aer (CplStatus.aerBit status)).modPci (fun p => { p with cplErrors := (p.cplErrors + 1) % 2 ^ 32 })).readFails r fltPciCplError

def execReadCompletion (tag : Nat) (status : CplStatus) (dt : Nat) (bytes : List Byte) (s : State) :
    Host.Outcome State Fault Refusal :=
  whenUp s (s.completion tag status dt bytes)

/-- A read's timer expires; none runs with Completion Timeout Disable set. -/
def State.cplTimeout (s : State) (tag : Nat) : State :=
  match s.pci.outstanding.find? (fun r => r.tag == tag) with
  | none => s
  | some r => if s.pci.cplDisable then s
    else ((s.aer 14).modPci (fun p => { p with cplTimeouts := (p.cplTimeouts + 1) % 2 ^ 32 })).readFails r fltPciCplTimeout

def execCompletionTimeout (tag : Nat) (s : State) : Host.Outcome State Fault Refusal := whenUp s (s.cplTimeout tag)

/-! ### Errors of the link (R522) -/

/-- A fatal error of the link. -/
def State.fatal (s : State) (i : Nat) : State := (s.aer i).raise { code := fltPciLink }

def State.tlpError (s : State) (e : TlpError) : State :=
  match e with
  | .receiver => s.aerCorrect 0
  | .badTlp => s.aerCorrect 6
  | .badDllp => s.aerCorrect 7
  | .replayRollover => s.aerCorrect 8
  | .replayTimeout => s.aerCorrect 12
  | .advisory => s.aerCorrect 13
  | .headerLogOverflow => s.aerCorrect 15
  | .dataLinkProtocol => s.fatal 4
  | .flowControl => s.fatal 13
  | .receiverOverflow => s.fatal 17
  | .malformed => s.fatal 18
  | .poisoned => s.aer 12
  | .ecrc => s.aer 19
  | .unexpectedCompletion => s.aer 16
  | .internal => (s.fatal 22).flr

def execPcieTlpError (e : TlpError) (s : State) : Host.Outcome State Fault Refusal := whenUp s (s.tlpError e)

end Sys2Proof.Machine
end

