-- ==== Sys2Proof/Machine/RegRead.lean ====
section
/-! DEFINITION. The register space as it reads: for each block, its registers by offset, whether a register is 64
bits wide, and the value it shows (R365 and each chapter's register table); reads (R4, R7, R8, R507). -/
namespace Sys2Proof.Machine
open Sys2Proof

/-- A 32-bit and a 64-bit register's reading. -/
def w32 (v : Nat) : Option (Bool × Nat) := some (false, v % 2 ^ 32)
def w64 (v : Nat) : Option (Bool × Nat) := some (true, v % 2 ^ 64)

/-- A flag at a bit. -/
def flagAt (i : Nat) (b : Bool) : Nat := b2n b * 2 ^ i

/-- BAR0 offset of register `o` of block `b` (R365). -/
def regOff (b o : Nat) : Nat := b * 0x10000 + o

/-! ### Codes of states -/

def DecState.code : DecState → Nat
  | .idle => 0
  | .decoding => 1
  | .saving => 2
  | .restoring => 3

/-- DZC_CORE_STATUS.state (R173). -/
def CoreSt.code : CoreSt → Nat
  | .unassigned => 0
  | .running => 1
  | .waiting => 2
  | .parked => 3
  | .zeroing => 4
  | .saving => 5
  | .restoring => 6
  | .ended => 7

/-- MEM_CH_STATUS.state (R382). -/
def ChanSt.code : ChanSt → Nat
  | .outOfUse => 0
  | .active => 1
  | .training => 2
  | .selfRefresh => 3

/-- What a register shows from a boot stage on: before that stage has set its unit up, it shows its Reset column
(R6, assumption 118). -/
def State.since (s : State) (stage v : Nat) : Nat := if stage ≤ s.boot.stage then v else 0

/-- PWR_MODE (R480); the device is idle while it runs no context (R473), from its ready stage on. -/
def State.modeCode (s : State) : Nat :=
  match s.pwr.mode with
  | .run => if s.ctxs.any (fun p => p.2.live) then 0 else s.since 9 1
  | .idle => 1
  | .parked => 2
  | .standby => 3
  | .entering => 4
  | .leaving => 5

/-! ### Selection registers -/

/-- Selection registers: offset, field mask. -/
def selRegs : List (Nat × Nat) :=
  [(0x20200, 0x1FFF), (0x30200, 0xFFF), (0x50000, 0x7FF), (0x60000, 0x7F), (0x80000, 0x7FF), (0x80200, 0x3F),
   (0x80300, 0xFF), (0x90020, 0x3F), (0x100000, 0x3F), (0x100100, 0x3F), (0x110000, 0x3F), (0x110100, 0x3F),
   (0x110200, 0x3F), (0x120000, 0x1FFFF), (0x120010, 0xFFF), (0x150000, 0x3F), (0x150008, 0x7F), (0x150028, 0x1F),
   (0x190020, 0xF)]

/-- Units that a selection may name (R595): ports 0 to 43; channel or slice 0 to 63, cluster 0 to 127. -/
def selOk (off v : Nat) : Bool :=
  if off = 0x100100 ∨ off = 0x110100 then decide (v < 44)
  else if off = 0x120000 then
    (let unit := bits v 12 2
     if v % 4 ≤ 1 then decide (unit < 64) else if v % 4 = 2 then decide (unit < 128) else true)
  else true

/-! ### The discovery table (R511) -/

def blockNames : List String :=
  ["GEN", "ING", "VDC", "VEN", "SKV", "DZC", "CLU", "GRT", "SYN", "RNE", "PCI", "KPR", "PWR", "STC", "NAR", "MDO", "MEM",
   "MSC", "INT", "BRN", "TKP", "CTX", "STP", "ODX", "CLK", "EVT"]

/-- A record of the table: type, index, and its three words. -/
def discRecord (i ty index : Nat) (a : List Byte) (b c : Nat) : List Byte :=
  leBytes 1 ty ++ leBytes 1 (if ty = 0 then 0 else Config.discoveryVersion i) ++ leBytes 2 index ++ padTo 4 a ++ leBytes 4 b ++ leBytes 4 c

def discoveryRecords : List Byte :=
  ((upto 0 26).zip blockNames).flatMap (fun p => discRecord p.1 1 p.1 (ascii p.2) (regOff p.1 0) (Config.populatedBytes p.1))
    ++ discRecord 26 2 0 (leBytes 4 (regOff 10 0x1000)) (regOff 10 0x2000) 4096
    ++ discRecord 27 3 0 (leBytes 4 (regOff 10 0x8000)) (regOff 10 0x9000) 256
    ++ discRecord 28 4 2 (leBytes 4 0) 0 16384
    ++ discRecord 29 5 0 (leBytes 4 (regOff 10 0)) 0 0
    ++ discRecord 30 0 0 [] 0 0

/-- The mask ROM's first 4 KiB: header, records, end record. -/
def discoveryTable : List Byte :=
  let head := ascii "QSDT" ++ leBytes 2 1 ++ leBytes 2 31 ++ leBytes 4 (32 + 16 * 31)
  let zero := copies 16 0#8
  head ++ leBytes 4 (crc32 (head ++ leBytes 4 0 ++ zero ++ discoveryRecords)) ++ zero ++ discoveryRecords

/-! ### Blocks 0 to 4 -/

def genReg (o : Nat) : Option (Bool × Nat) := if o < 0x1000 then w32 (fieldAt discoveryTable o 4) else none

def State.ingReg (s : State) (o : Nat) : Option (Bool × Nat) :=
  let p := s.push
  if o = 0x100 then w64 p.base
  else if o = 0x108 then w32 (b2n p.enable + p.sizeLog2 * 16)
  else if o = 0x10C then w32 p.tail
  else if o = 0x110 then w32 p.head
  else none

/-- A load in Mpixel/s, rounded up. -/
def mpix (l : Nat × Nat) : Nat := ceilDiv l.1 (l.2 * 1000000)

/-- VDC (R90): an engine that the part lacks reads zero. -/
def State.vdcReg (s : State) (o : Nat) : Option (Bool × Nat) :=
  let n := o / 0x20
  let r := o % 0x20
  let e := s.engine n
  let on := decide (n < s.fuses.grade.2)
  if n < 12 then
    (if r = 0 then w32 (if on then e.st.code + flagAt 2 e.yielded.isSome + e.slotShown * 256 else 0)
     else if r = 4 then w32 (if on then mpix (s.decLoad n 256) else 0)
     else if r = 8 then w64 (if on then e.busy else 0)
     else if r = 0x10 then w64 (if on then e.switches else 0)
     else none)
  else if o = 0x208 then
    (let v := s.sel (regOff 2 0x200)
     w64 (if bits v 12 8 ≤ 12 then tget 0 (s.slot (v % 256)).counters (0x20 + bits v 12 8) else 0))
  else none

/-- VEN (R114). -/
def State.venReg (s : State) (o : Nat) : Option (Bool × Nat) :=
  let n := o / 0x20
  let r := o % 0x20
  let e := s.encEngine n
  if n < 2 then
    (if r = 0 then w32 (e.st + e.pass * 4 + e.slotShown * 256)
     else if r = 4 then w32 (mpix (s.encLoad n))
     else if r = 8 then w64 e.busy
     else if r = 0x10 then w64 e.switches
     else none)
  else if o = 0x100 then w32 (s.since 5 (s.poolSize 3))
  else if o = 0x104 then w32 (s.poolHeld 3 + s.holdsBeyond)
  else if o = 0x108 then w32 s.evid.queue.length
  else if o = 0x208 then
    (let v := s.sel (regOff 3 0x200)
     w64 (tget 0 (s.slot (v % 256)).counters (0x40 + bits v 11 8)))
  else none

/-- The state and the region that a unit shows: how far a running job is, and whether its writes drain, is timing
(assumption 125). -/
def SkvUnit.progress (u : SkvUnit) (k : Nat) : Nat × Nat :=
  match u.job with
  | some j => (1 + Config.freeValue k % 2, Config.freeValue (k + 1) % max 1 j.regions.length)
  | none => (u.st, u.region)

/-- SKV (R141). -/
def State.skvReg (s : State) (o : Nat) : Option (Bool × Nat) :=
  let u := s.skvUnit (o / 0x20)
  let r := o % 0x20
  if o < 0x100 then
    (if r = 0 then
       (let at_ := u.progress s.od.free
        w32 (at_.1 + u.slotShown * 256 + at_.2 * 2 ^ 16))
     else if r = 8 then w64 u.busy
     else if r = 0x10 then w64 u.jobs
     else none)
  else if o = 0x100 then w64 0
  else if o = 0x108 then w32 (s.skv.queue.length + flagAt 16 s.skv.overflow)
  else none

/-! ### Blocks 5 to 8: cores, clusters, mesh, synchronisation -/

/-- DZC_CORE_STATUS.state. Of a switch with a save phase, how far it is when the register is read is timing: it shows
saving, or the phase of the incoming context (assumption 126). -/
def State.coreCode (s : State) (k : Core) : Nat :=
  if k.st = .saving ∧ Config.freeValue s.od.free % 2 = 1 then
    (match s.ctxs.find? (fun p => p.2.st == .switchingIn && p.2.map == (s.ctx k.ctx).map) with
    | some p => if p.2.started then CoreSt.restoring.code else CoreSt.zeroing.code
    | none => k.st.code)
  else k.st.code

/-- DZC (R173). -/
def State.dzcReg (s : State) (o : Nat) : Option (Bool × Nat) :=
  let n := s.sel (regOff 5 0)
  let k := s.core n
  if o = 0x10 then w32 (s.coreCode k + k.ctx * 256 + flagAt 16 (k.st != .unassigned && (s.ctx k.ctx).debug))
  else if o = 0x14 then w32 k.pwr
  else if o = 0x18 then w32 ((upto 0 8).foldl (fun v b => v + tget 0 k.own b * 4 ^ b) 0)
  else if o = 0x1C then w32 k.pc
  else if o = 0x20 then w64 k.conflicts
  else if o = 0x28 then w64 k.retired
  else none

/-- CLU (R174). -/
def State.cluReg (s : State) (o : Nat) : Option (Bool × Nat) :=
  let k := s.cluster (s.sel (regOff 6 0))
  let c := tget {} k.chans ((o - 0x20) / 0x10)
  let r := o % 0x10
  if o = 0x10 then w32 (k.ctx + flagAt 8 k.assigned)
  else if o = 0x14 then w32 k.pwr
  else if o = 0x18 then w64 k.conflicts
  else if 0x20 ≤ o ∧ o < 0x40 then
    (if r = 0 then w32 (c.queue.length + flagAt 5 c.busy.isSome) else if r = 8 then w64 c.bytes else none)
  else none

/-- A stop of the mesh that carries no cluster (R171). -/
def otherStop (col row : Nat) : Bool :=
  ((col == 0 || col == 15) && decide (1 ≤ row ∧ row ≤ 8)) || ((col == 0 || col == 15) && (row == 0 || row == 9))
    || ((col == 7 || col == 8) && (row == 0 || row == 9))

/-- Cluster stops, row by row: physical cluster p lies at stop p of the list. -/
def clusterStops : List (Nat × Nat) :=
  (upto 0 10).flatMap (fun row => ((upto 0 16).filter (fun col => !otherStop col row)).map (fun col => (col, row)))

/-- Physical cluster of a logical one: the working ones in ascending order (R171). -/
def State.physCluster (s : State) (c : Nat) : Option Nat :=
  if c < s.boot.clusters then ((upto 0 136).filter (fun p => !bit s.boot.quarantined p))[c]? else none

/-- GRT (R175). -/
def State.grtReg (s : State) (o : Nat) : Option (Bool × Nat) :=
  if 0x100 ≤ o ∧ o < 0x300 then
    (match s.physCluster ((o - 0x100) / 4) with
     | some p => let q := clusterStops.getD p (0, 0); w32 (s.since 7 (q.1 + q.2 * 16 + p * 256))
     | none => w32 0)
  else none

/-- SYN (R285). -/
def State.synReg (s : State) (o : Nat) : Option (Bool × Nat) :=
  let k := s.core (s.sel (regOff 8 0))
  let x := s.ctx (s.sel (regOff 8 0x200))
  let w := s.workCtr (s.sel (regOff 8 0x300))
  let wait := k.st == .waiting || k.st == .parked
  if o = 4 then
    (match (if wait then k.wait else none) with
     | some a => w32 (a.ctr + flagAt 6 true + flagAt 7 (k.st == .parked) + flagAt 8 a.dp + a.n * 2 ^ 16)
     | none => w32 (flagAt 7 (k.st == .parked)))
  else if o = 8 then w64 k.park
  else if 0x80 ≤ o ∧ o < 0x140 then w32 (tget 0 k.sync ((o - 0x80) / 4))
  else if o = 0x204 then w32 x.spin
  else if o = 0x208 then w32 x.deschedUs
  else if o = 0x210 then w64 0
  else if o = 0x218 then w32 (b2n s.hostDropped)
  else if o = 0x304 then (match w.owner with | some c => w32 (c + 64) | none => w32 0)
  else if o = 0x308 then w32 w.v
  else if o = 0x30C then w32 w.limit
  else none

/-! ### Blocks 9 to 14 -/

/-- RNE (R479). -/
def State.rneReg (s : State) (o : Nat) : Option (Bool × Nat) :=
  let c := s.ctxRun (s.sel (regOff 9 0x20))
  let mw := fun (v : Nat) => w32 (v % 2 ^ 18)
  if o = 0 then mw s.budgetMw
  else if o = 4 then w32 (s.reserveMw % 2 ^ 15)
  else if o = 8 then mw (s.since 5 (ceilDiv s.committed pW))
  else if o = 0xC then mw s.rne.measured
  else if o = 0x10 then mw s.rne.lent
  else if o = 0x14 then mw s.rne.cal
  else if o = 0x18 then w32 (s.rne.divStep + flagAt 3 s.rne.thermal)
  else if o = 0x24 then mw c.allotMw
  else if o = 0x28 then w32 c.duty
  else if o = 0x30 then w64 s.rne.energy
  else none

/-- PCI (R512): areas are words. -/
def State.pciReg (s : State) (o : Nat) : Option (Bool × Nat) :=
  let p := s.pci
  let i := (o - 0x20) / 0x10
  if o = 0 then w32 (s.boot.stage + flagAt 4 p.ready + flagAt 5 p.saddleReady + flagAt 6 s.degraded)
  else if o = 4 then w32 p.events
  else if o = 0x10 then w32 0
  else if o = 0x14 then w32 (p.mbxState + flagAt 2 p.mbxOverrun + p.rspLen * 2 ^ 16)
  else if o = 0x18 then w32 0
  else if 0x20 ≤ o ∧ o < 0x120 then
    (if o % 0x10 = 0 then w64 (tget 0 p.obwBase i) else if o % 0x10 = 8 then w32 (b2n (tget false p.obwEn i)) else none)
  else if o = 0x200 then w64 p.aperture
  else if o = 0x210 then w32 p.cplTimeouts
  else if o = 0x214 then w32 p.cplErrors
  else if o = 0x218 then w32 p.denied
  else if 0x1000 ≤ o ∧ o < 0x2000 then w32 0
  else if 0x2000 ≤ o ∧ o < 0x3000 then w32 (leNat (rdList p.rspArea (o - 0x2000) 4))
  else if 0x8000 ≤ o ∧ o < 0x9000 then
    (let e := o - 0x8000
     if e % 16 = 12 then w32 (b2n (!p.unmasked.contains (e / 16))) else w32 (leNat (rdList p.msixTable e 4)))
  else if 0x9000 ≤ o ∧ o < 0x9020 then w32 ((upto 0 32).foldl (fun v j => v + flagAt j (p.pba.contains ((o - 0x9000) * 8 + j))) 0)
  else none

/-- KPR (R573). -/
def State.kprReg (s : State) (o : Nat) : Option (Bool × Nat) :=
  let k := s.kpr
  let svn := fun (i : Nat) => tget 0 s.fuses.svn i
  if o = 0 then w32 (s.boot.stage + flagAt 4 s.boot.identity + flagAt 5 s.fuses.ownerLock + flagAt 6 s.fuses.imagesRequired
    + flagAt 7 s.fuses.vendorDebugOff + k.scopes * 256 + flagAt 13 k.lockout)
  else if o = 4 then w32 s.boot.bootNum
  else if o = 8 then w32 s.failCounts
  else if o = 0xC then w32 ((upto 1 9).foldl (fun v n => v + flagAt (n - 1) (tget false s.boot.alt n)) 0)
  else if o = 0x10 then w32 (svn 1 + svn 2 * 2 ^ 8 + svn 3 * 2 ^ 16)
  else if o = 0x14 then w32 (min 255 k.queue.length)
  else if o = 0x18 then w64 k.signed
  else if o = 0x30 then w32 0
  else if 0x40 ≤ o ∧ o < 0x80 then w32 (fieldAt (padTo 64 k.challenge) (o - 0x40) 4)
  else if 0x80 ≤ o ∧ o < 0xE4 then w32 0
  else if o = 0xF0 then w32 (flagAt 1 k.accepted + flagAt 2 k.rejected)
  else none

/-- PWR (R480). -/
def State.pwrReg (s : State) (o : Nat) : Option (Bool × Nat) :=
  let r := o % 0x10
  if o = 0 then w32 s.modeCode
  else if o = 4 then w32 (s.pwr.step + flagAt 3 s.pwr.warn + flagAt 4 (s.pwr.byBudget != 0) + s.pwr.droop % 256 * 256)
  else if o = 8 then w32 s.pwr.events
  else if 0x10 ≤ o ∧ o < 0x70 then
    (match s.pwr.steps[o / 0x10 - 1]? with
     | some x => w32 (if r = 0 then x.d else if r = 4 then x.t else if r = 8 then x.w else x.h)
     | none => none)
  else none

/-- STC (R316). -/
def State.stcReg (s : State) (o : Nat) : Option (Bool × Nat) :=
  let u := s.stcUnit (o / 0x20)
  let r := o % 0x20
  if o < 0x80 then
    (if r = 0 then
       -- bidding or writing the result: which of them a running call does is timing (assumption 125)
       w32 ((if u.call.isSome then 1 + Config.freeValue s.od.free % 2 else u.st) + u.slotShown * 256)
     else if r = 8 then w64 u.busy
     else if r = 0x10 then w64 u.bids
     else if r = 0x18 then w32 u.badEnt
     else none)
  else if o = 0x100 then w64 0
  else if o = 0x108 then w32 (s.stc.queue.length + flagAt 16 s.stc.overflow)
  else none

/-- NAR (R335). -/
def State.narReg (s : State) (o : Nat) : Option (Bool × Nat) :=
  let n := s.narr
  if o = 0 then w32 (n.sessions.length + n.queue.length * 256 + flagAt 14 n.shed + flagAt 15 s.narrGuarantees)
  else if o = 8 then w64 n.steps
  else if o = 0x10 then w64 n.tokens
  else if o = 0x18 then w32 n.stepMax
  else if o = 0x1C then w32 n.firstMax
  else if o = 0x20 then w32 n.refused
  else none

/-! ### Blocks 15 to 20: delivery and memory -/

/-- MDO (R356). -/
def State.mdoReg (s : State) (o : Nat) : Option (Bool × Nat) :=
  let n := s.ring (o / 0x40)
  let r := o % 0x40
  if 0x1000 ≤ o then none
  else if r = 0 then w64 n.base
  else if r = 8 then w32 (b2n n.enable + n.sizeLog2 * 2 + n.vector * 256)
  else if r = 0xC then w32 (n.modTime + n.modCount * 2 ^ 16)
  else if r = 0x10 then w64 n.wb
  else if r = 0x18 then w32 n.tail
  else if r = 0x1C then w32 n.head
  else if r = 0x20 then w64 n.drops
  else if r = 0x28 then w32 (b2n n.tailFault + flagAt 1 (n.lost != 0))
  else none

/-- MEM (R382). -/
def State.memReg (s : State) (o : Nat) : Option (Bool × Nat) :=
  let c := s.chan (s.sel (regOff 16 0))
  let p := s.sel (regOff 16 0x100)
  let m := tget {} s.mem.ports p
  if o = 4 then w32 (c.st.code + flagAt 2 c.conservative + flagAt 3 c.hot)
  else if o = 8 then w64 c.readBytes
  else if o = 0x10 then w64 c.writeBytes
  else if o = 0x18 then w32 c.refForced
  else if o = 0x1C then w32 (c.retrained + c.failed * 2 ^ 16)
  else if o = 0x104 then w32 (m.targetOf p)
  else if o = 0x108 then w64 m.reqs
  else if o = 0x110 then w64 m.late
  else if o = 0x118 then w32 m.maxLat
  else if o = 0x200 then w32 s.mem.pasr
  else if o = 0x208 then w64 s.mem.videoSet
  else if o = 0x210 then w64 s.mem.svcSet
  else none

/-- Ports whose way mask is their context's (R374, R383). -/
def ctxPort (p : Nat) : Bool := decide (22 ≤ p ∧ p ≤ 38)

/-- MSC (R383). -/
def State.mscReg (s : State) (o : Nat) : Option (Bool × Nat) :=
  let c := tget {} s.mem.slices (s.sel (regOff 17 0))
  let p := s.sel (regOff 17 0x100)
  if o = 8 then w64 c.hits
  else if o = 0x10 then w64 c.misses
  else if o = 0x18 then w64 c.wb
  else if o = 0x104 then w32 (if ctxPort p then 0 else s.portWays p)
  else if o = 0x204 then w32 (s.ctx (s.sel (regOff 17 0x200))).ways
  else if o = 0x300 then w32 (flagAt 1 s.mem.flushing)
  else none

/-- INT (R405, R406). -/
def State.intReg (s : State) (o : Nat) : Option (Bool × Nat) :=
  let c := s.sel (regOff 18 0)
  let e := s.sel (regOff 18 0x10)
  let m := (s.chan (e % 64)).remap
  if o = 8 then w64 (if bits c 16 13 ≤ 10 then tget 0 s.mem.cnt (cntKey (c % 4) (bits c 12 2) (bits c 16 13)) else 0)
  else if o = 0x14 then
    (match tget none m (bits e 11 6) with
     | some r => w32 (r.bank + r.row * 2 ^ 5 + r.spare * 2 ^ 17 + flagAt 31 true)
     | none => w32 0)
  else if o = 0x18 then w32 (m.filter (fun p => p.2.isSome)).length
  else if o = 0x1C then w32 s.mem.retired.length
  else none

/-- BRN (R407). -/
def State.brnReg (s : State) (o : Nat) : Option (Bool × Nat) :=
  let b := s.mem.burn
  if o = 0 then w32 (b2n b.dramEn + flagAt 1 b.onchipEn)
  else if o = 4 then w32 b.hours
  else if o = 8 then w32 b.onchipInterval
  else if o = 0x10 then w64 b.pos
  else if o = 0x18 then w32 b.passes
  else if o = 0x1C then w32 b.onchipPasses
  else if o = 0x20 then w64 b.lines
  else none

/-- Pages in a state, unlisted pages being free. -/
def State.pagesIn (s : State) (st : PageSt) : Nat := (s.tkp.pages.filter (fun p => p.2.st == st)).length

/-- TKP (R423). -/
def State.tkpReg (s : State) (o : Nat) : Option (Bool × Nat) :=
  let t := s.tkp
  let all := if s.mem.lostDie = none then numPages else numPages / 2
  if o = 0 then w64 0
  else if o = 8 then w32 t.result
  else if o = 0xC then w32 (b2n t.done + t.status * 2)
  else if o = 0x10 then w32 (s.since 5 (all - (s.tkp.pages.filter (fun p => p.2.st != .free)).length))
  else if o = 0x14 then w32 (s.pagesIn .zeroing)
  else if o = 0x18 then w32 (s.poolHeld 0 + s.poolHeld 1 + s.poolHeld 2 + s.poolHeld 3)
  else if o = 0x1C then w32 s.mem.retired.length
  else if o = 0x20 then w32 s.keepMask
  else if o = 0x28 then w64 t.faults
  else none

/-! ### Blocks 21 to 25 -/

/-- CTX (R441). -/
def State.ctxReg (s : State) (o : Nat) : Option (Bool × Nat) :=
  let n := s.sel (regOff 21 0)
  let x := s.ctx n
  let j := s.sel (regOff 21 8)
  if o = 4 then w32 (x.st.code + x.cls * 8 + flagAt 5 x.debug + flagAt 6 x.capture + flagAt 7 x.ready + x.k * 256 + OdRoute.num x.owner * 2 ^ 16)
  else if o = 0xC then (match x.map[j]? with | some c => w32 (c + 128) | none => w32 0)
  else if o = 0x10 then w64 x.channels
  else if o = 0x18 then w32 x.ways
  else if o = 0x1C then w32 x.lastFault
  else if o = 0x20 then w64 (if x.savePages.isEmpty then 0 else Config.saveList n x.res)
  else if o = 0x30 then w64 (s.acctValue n (s.sel (regOff 21 0x28)))
  else none

/-- STP_STATUS.owner_all: the device of a pair owns every slot (R504). -/
def State.ownsAll (s : State) : Bool := s.pair.mode != 0 && (upto 0 256).all s.owns

/-- STP (R504). -/
def State.stpReg (s : State) (o : Nat) : Option (Bool × Nat) :=
  let p := s.pair
  if o = 0 then w32 (p.link + p.mode * 4 + p.id * 16 + flagAt 5 s.ownsAll + flagAt 6 p.partnerFailed + flagAt 7 p.failLow + flagAt 8 p.hbOk
    + flagAt 9 s.pairProtected)
  else if o = 4 then w32 p.txSeq
  else if o = 8 then w32 p.rxSeq
  else if o = 0xC then w32 p.heldBytes
  else if o = 0x10 then w64 p.retx
  else if o = 0x18 then w64 p.bad
  else if o = 0x20 then w32 (p.takeovers + p.linkDowns * 2 ^ 16)
  else if o = 0x24 then w32 p.hbMs
  else if o = 0x28 then w32 p.lastPromote
  else none

/-- ODX (R542). -/
def State.odxReg (s : State) (o : Nat) : Option (Bool × Nat) :=
  let x := s.odRoute (o / 0x10)
  let r := o % 0x10
  if 0x30 ≤ o then none
  else if r = 0 then w32 (b2n x.txn.isSome + (x.sessions.filter (fun p => p.2.isSome)).length * 256)
  else if r = 4 then w32 x.reqs
  else if r = 8 then w32 x.bad
  else w32 x.conflicts

/-- CLK (R481). -/
def State.clkReg (s : State) (o : Nat) : Option (Bool × Nat) :=
  let c := s.clk
  if o = 0 then w32 (b2n c.pllLock + flagAt 1 c.refLost + flagAt 2 c.pcieRef + flagAt 3 c.ethRef + flagAt 4 c.stpRef + flagAt 5 c.mgmtLock)
  else if o = 4 then w32 c.arithDiv
  else if o = 8 then w32 c.monCount
  else none

/-- EVT (R56). -/
def State.evtReg (s : State) (o : Nat) : Option (Bool × Nat) :=
  let l := s.line (s.sel evtSelOff)
  if o = 0 then w32 s.evtInState
  else if o = 4 then w32 s.evt.events
  else if o = 8 then w64 (evtStamp s.evt.ticks)
  else if o = 0x10 then w32 s.evtOutState
  else if o = 0x14 then w32 0
  else if o = 0x24 then w32 (b2n l.polarity + flagAt 1 l.wake)
  else if o = 0x28 then w32 l.filter
  else if o = 0x2C then w32 l.maxMs
  else if o = 0x30 then w64 l.stamp
  else if o = 0x38 then w64 l.drops
  else none

/-! ### The whole space -/

/-- The register that starts at BAR0 offset `off`: whether it is 64 bits wide, and what it reads. -/
def State.reg (s : State) (off : Nat) : Option (Bool × Nat) :=
  if off % 4 ≠ 0 then none
  else if selRegs.any (fun r => r.1 == off) then w32 (s.sel off)
  else
    let o := off % 0x10000
    match off / 0x10000 with
    | 0 => genReg o
    | 1 => s.ingReg o
    | 2 => s.vdcReg o
    | 3 => s.venReg o
    | 4 => s.skvReg o
    | 5 => s.dzcReg o
    | 6 => s.cluReg o
    | 7 => s.grtReg o
    | 8 => s.synReg o
    | 9 => s.rneReg o
    | 10 => s.pciReg o
    | 11 => s.kprReg o
    | 12 => s.pwrReg o
    | 13 => s.stcReg o
    | 14 => s.narReg o
    | 15 => s.mdoReg o
    | 16 => s.memReg o
    | 17 => s.mscReg o
    | 18 => s.intReg o
    | 19 => s.brnReg o
    | 20 => s.tkpReg o
    | 21 => s.ctxReg o
    | 22 => s.stpReg o
    | 23 => s.odxReg o
    | 24 => s.clkReg o
    | 25 => s.evtReg o
    | _ => none

/-- Base of the 64-bit register whose high word lies at `off`. -/
def State.wideAt (s : State) (off : Nat) : Option (Nat × Nat) :=
  if off < 4 then none
  else match s.reg (off - 4) with
    | some (true, v) => some (off - 4, v)
    | _ => none

/-- One aligned word read by a route (R8): a low word loads the route's latch; the high word is the latch, once,
else the current one; a reserved word reads zero. -/
def State.readWord (s : State) (r : Route) (off : Nat) : Nat × State :=
  match s.reg off with
  | some (false, v) => (v, s)
  | some (true, v) => (v % 2 ^ 32, { s with latches := tset none s.latches (latchKey r off) (some (v / 2 ^ 32)) })
  | none => match s.wideAt off with
    | some (base, v) => match tget none s.latches (latchKey r base) with
      | some h => (h, { s with latches := tset none s.latches (latchKey r base) none })
      | none => (v / 2 ^ 32, s)
    | none => (0, s)

/-- Words in ascending address order (R507), the first in the low bits. -/
def State.readWords (r : Route) : Nat → Nat → State → Nat × State
  | 0, _, s => (0, s)
  | n + 1, off, s =>
    let a := s.readWord r off
    let b := State.readWords r n (off + 4) a.2
    (a.1 + b.1 * 2 ^ 32, b.2)

/-! ### Routes (R7, R516, R571) -/

/-- A read of `n` bytes: whole aligned words, or zero; a length that is no multiple of 4 reads zero whole (R7,
assumption 116). BAR0 answers Unsupported Request in D3hot (R516). -/
def State.readAccess (s : State) (r : Route) (addr n : Nat) : State :=
  if !s.reaches r addr then (if r = .bar0 then (s.aer 20).emit .bar2Unsupported else s.emit (.readData r 0))
  else if addr % 4 ≠ 0 ∨ n % 4 ≠ 0 ∨ n = 0 then s.emit (.readData r 0)
  else
    let a := State.readWords r (n / 4) addr s
    a.2.emit (.readData r a.1)

/-- R8: a low word. -/
def execLowWordRead (route : Route) (addr bytes : Nat) (s : State) : Host.Outcome State Fault Refusal :=
  whenUp s (s.readAccess route addr bytes)

/-- R8: a high word. -/
def execHighWordRead (route : Route) (addr bytes : Nat) (s : State) : Host.Outcome State Fault Refusal :=
  whenUp s (s.readAccess route addr bytes)

end Sys2Proof.Machine
end

