-- ==== Sys2Proof/Machine/RegWrite.lean ====
section
/-! DEFINITION. Writes of the register space (R4, R5, R7, R8, R507, R595): what each writable register does, the
held writes of 64-bit registers, and the routes. A write through this row of a register that has a row of its own
has that row's effect. -/
namespace Sys2Proof.Machine
open Sys2Proof

/-! ### Fields -/

/-- Bits of `v` written 1 clear the same bits of `old` (W1C). -/
def w1c (old v : Nat) : Nat := (upto 0 32).foldl (fun m i => if bit v i then setBit m i false else m) old

/-- A field takes `v` where its range holds it; else the whole write is discarded (R595). -/
def State.ranged (s : State) (lo hi v : Nat) (f : State → State) : State := if lo ≤ v ∧ v ≤ hi then f s else s

/-! ### Blocks -/

def State.ingPut (s : State) (o v : Nat) : State :=
  if o = 0x108 then s.pushCtrl v else if o = 0x10C then s.pushTail v else s

/-- W1C of SKV_QUEUE.overflow. -/
def State.skvPut (s : State) (o v : Nat) : State :=
  if o = 0x108 then { s with skv := { s.skv with overflow := s.skv.overflow && !bit v 16 } } else s

/-- SYN_CTX_SPIN and SYN_CTX_DESCHED are the selected context's entries .09 and .0A as well (R285). -/
def State.synPut (s : State) (o v : Nat) : State :=
  let c := s.sel (regOff 8 0x200)
  if o = 0x204 then (s.modCtx c (fun x => { x with spin := bits v 15 0 })).odPutNat (ctxIndex c) 9 (bits v 15 0)
  else if o = 0x208 then s.ranged 100 1000000 (bits v 19 0) (fun s =>
    (s.modCtx c (fun x => { x with deschedUs := bits v 19 0 })).odPutNat (ctxIndex c) 0x0A (bits v 19 0))
  else if o = 0x218 then { s with hostDropped := s.hostDropped && !bit v 0 }
  else s

/-- RNE_BUDGET and RNE_RESERVE are the energy entries as well (R479). -/
def State.rnePut (s : State) (o v : Nat) : State :=
  if o = 0 then s.ranged 20000 150000 (bits v 17 0) (fun s => s.odPutNat 0x4000 1 (bits v 17 0))
  else if o = 4 then s.ranged 0 30000 (bits v 14 0) (fun s => s.odPutNat 0x4000 2 (bits v 14 0))
  else s

/-- A word of an MSI-X table entry: address, data, or the vector's mask, whose clearing lets a pending event go. -/
def State.msixWord (s : State) (e v : Nat) : State :=
  if e % 16 = 12 then
    (s.modPci (fun p => { p with
      unmasked := if bit v 0 then without (e / 16) p.unmasked
        else if p.unmasked.contains (e / 16) then p.unmasked else insertBy id (e / 16) p.unmasked })).msixFlush
  else s.modPci (fun p => { p with msixTable := wrList p.msixTable e (leBytes 4 (if e % 16 = 0 then v / 4 * 4 else v)) })

/-- PCI (R512, R514, R515). -/
def State.pciPut (s : State) (o v : Nat) : State :=
  let i := (o - 0x20) / 0x10
  if o = 4 then s.modPci (fun p => { p with events := w1c p.events v })
  else if o = 0x10 then s.doorbell v
  else if o = 0x14 then s.modPci (fun p => { p with mbxOverrun := p.mbxOverrun && !bit v 2 })
  else if o = 0x18 then s.mailboxAck v
  else if 0x20 ≤ o ∧ o < 0x120 ∧ o % 0x10 = 8 then s.modPci (fun p => { p with obwEn := tset false p.obwEn i (bit v 0) })
  else if 0x1000 ≤ o ∧ o < 0x2000 then
    s.modPci (fun p => if p.mbxState = 0 then { p with reqArea := wrList p.reqArea (o - 0x1000) (leBytes 4 v) }
      else { p with mbxOverrun := true })
  else if 0x8000 ≤ o ∧ o < 0x9000 then s.msixWord (o - 0x8000) v
  else s

/-- The route number of R570 that an access acts as. -/
def Route.keeper : Route → Option Nat
  | .bar0 => some 1
  | .jtag => some 0
  | .cantle => none

/-- A response's words; the last submits them (R570, R573). -/
def State.kprRespond (s : State) (n o v : Nat) : State :=
  let s := { s with kpr := { s.kpr with respWords := tset 0 s.kpr.respWords ((o - 0x80) / 4) v } }
  if o = 0xE0 then
    let b := (upto 0 25).flatMap (fun i => leBytes 4 (tget 0 s.kpr.respWords i))
    ({ s with kpr := { s.kpr with respWords := [] } }).respond
      { route := n, key := b.take 32, signature := (b.drop 32).take 64, keyByte := fieldAt b 96 1 }
  else s

def State.kprPut (s : State) (r : Route) (o v : Nat) : State :=
  if o = 0xF0 then { s with kpr := { s.kpr with accepted := s.kpr.accepted && !bit v 1, rejected := s.kpr.rejected && !bit v 2 } }
  else match Route.keeper r with
    | none => s
    | some n => if o = 0x30 then s.askChallenge n (bits v 4 0) else if 0x80 ≤ o ∧ o < 0xE4 then s.kprRespond n o v else s

/-- A threshold of a shedding step, within its range and R467's order; its entry is the same value (R480). -/
def State.pwrPut (s : State) (o v : Nat) : State :=
  let n := o / 0x10
  let r := o % 0x10
  let set := fun (lo hi w : Nat) (f : ShedStep → Nat → ShedStep) =>
    let x := bits v (w - 1) 0
    let xs := ((upto 1 6).zip s.pwr.steps).map (fun p => if p.1 = n then f p.2 x else p.2)
    if lo ≤ x ∧ x ≤ hi ∧ stepsOk xs then (s.setSteps xs).odPutNat (0x4100 + n) (r / 4 + 1) x else s
  if 0x10 ≤ o ∧ o < 0x70 then
    (if r = 0 then set 10 150 8 (fun k x => { k with d := x })
     else if r = 4 then set 10 100000 17 (fun k x => { k with t := x })
     else if r = 8 then set 0 1000000 20 (fun k x => { k with w := x })
     else set 100 600000 20 (fun k x => { k with h := x }))
  else s

def State.stcPut (s : State) (o v : Nat) : State :=
  if o = 0x108 then { s with stc := { s.stc with overflow := s.stc.overflow && !bit v 16 } } else s

/-- MDO (R356). -/
def State.mdoPut (s : State) (o v : Nat) : State :=
  let n := o / 0x40
  let r := o % 0x40
  if 0x1000 ≤ o then s
  else if r = 8 then s.ringCtrl n v
  else if r = 0xC then s.modRing n (fun x => { x with modTime := bits v 15 0, modCount := bits v 31 16 })
  else if r = 0x18 then s.ringTail n v
  else if r = 0x28 then s.modRing n (fun x => { x with tailFault := x.tailFault && !bit v 0 })
  else s

/-- MEM (R370, R381): targets of 1 to 63 are discarded. -/
def State.memPut (s : State) (o v : Nat) : State :=
  let x := bits v 15 0
  if o = 0x104 then (if 1 ≤ x ∧ x ≤ 63 then s else s.modPortStat (s.sel (regOff 16 0x100)) (fun m => { m with target := some x }))
  else if o = 0x200 then { s with mem := { s.mem with pasr := x } }
  else s

/-- MSC (R374, R375). -/
def State.mscPut (s : State) (o v : Nat) : State :=
  let p := s.sel (regOff 17 0x100)
  if o = 0x104 then (if ctxPort p then s else s.modPortStat p (fun m => { m with ways := bits v 15 0 }))
  else if o = 0x300 then (if bit v 0 then { s with mem := { s.mem with flushing := true } } else s)
  else s

/-- BRN: the integrity entries hold the same values (R407). -/
def State.brnPut (s : State) (o v : Nat) : State :=
  let put := fun (s : State) (f : Burnisher → Burnisher) => { s with mem := { s.mem with burn := f s.mem.burn } }
  if o = 0 then
    ((put s (fun b => { b with dramEn := bit v 0, onchipEn := bit v 1 })).odPutNat 0x5000 3 (b2n (bit v 0))).odPutNat 0x5000 4 (b2n (bit v 1))
  else if o = 4 then s.ranged 1 168 (bits v 7 0) (fun s => (put s (fun b => { b with hours := bits v 7 0 })).odPutNat 0x5000 1 (bits v 7 0))
  else if o = 8 then s.ranged 100 1000000 (bits v 19 0) (fun s =>
    (put s (fun b => { b with onchipInterval := bits v 19 0 })).odPutNat 0x5000 2 (bits v 19 0))
  else s

/-- STP_HB_TIMEOUT is hb_timeout (R482, R504). -/
def State.stpPut (s : State) (o v : Nat) : State :=
  if o = 0x24 then s.ranged 2 100 (bits v 6 0) (fun s => (s.modPair (fun p => { p with hbMs := bits v 6 0 })).odPutNat 0x6010 3 (bits v 6 0))
  else s

/-- EVT (R54, R56). -/
def State.evtPut (s : State) (o v : Nat) : State :=
  if o = 4 then { s with evt := { s.evt with events := w1c s.evt.events (v % 2 ^ 16) } }
  else if o = 0x14 then s.evtOut (bits v 2 0) (bits v 5 4) (bits v 19 6)
  else if o = 0x24 then s.lineCtrl v
  else if o = 0x28 then s.lineFilter v
  else if o = 0x2C then s.lineMaxAct v
  else s

/-! ### The whole space -/

/-- A 32-bit register is written. -/
def State.put32 (s : State) (r : Route) (off v : Nat) : State :=
  match selRegs.find? (fun x => x.1 == off) with
  | some x => if selOk off (v &&& x.2) then { s with sels := tset 0 s.sels off (v &&& x.2) } else s
  | none =>
    let o := off % 0x10000
    match off / 0x10000 with
    | 1 => s.ingPut o v
    | 4 => s.skvPut o v
    | 8 => s.synPut o v
    | 9 => s.rnePut o v
    | 10 => s.pciPut o v
    | 11 => s.kprPut r o v
    | 12 => s.pwrPut o v
    | 13 => s.stcPut o v
    | 15 => s.mdoPut o v
    | 16 => s.memPut o v
    | 17 => s.mscPut o v
    | 19 => s.brnPut o v
    | 22 => s.stpPut o v
    | 24 => if o = 0 then { s with clk := { s.clk with refLost := s.clk.refLost && !bit v 1 } } else s
    | 25 => s.evtPut o v
    | _ => s

/-- A 64-bit register takes both its words. Address bits that must be zero are part of its range (R595). -/
def State.put64 (s : State) (off v : Nat) : State :=
  let o := off % 0x10000
  if off = regOff 1 0x100 then (if v % 64 = 0 then { s with push := { s.push with base := v } } else s)
  else if off = skvSubmitOff then s.skvSubmit v
  else if off = stcSubmitOff then s.stcSubmit v
  else if off = hostSignalOff then s.hostSig v
  else if off = tkpCmdOff then s.tkpSubmit v
  else if off = regOff 10 0x200 then s.modPci (fun p => { p with aperture := v / 2 ^ p.barLog2 * 2 ^ p.barLog2 })
  else if off / 0x10000 = 10 ∧ 0x20 ≤ o ∧ o < 0x120 then
    (if v % 4096 = 0 then s.modPci (fun p => { p with obwBase := tset 0 p.obwBase ((o - 0x20) / 0x10) v }) else s)
  else if off / 0x10000 = 15 ∧ o < 0x1000 then
    (if o % 0x40 = 0 then (if v % 4096 = 0 then s.modRing (o / 0x40) (fun x => { x with base := v }) else s)
     else if o % 0x40 = 0x10 then (if v % 8 = 0 then s.modRing (o / 0x40) (fun x => { x with wb := v }) else s)
     else s)
  else s

/-- One aligned word written by a route (R8): a low word is held; the high word commits both. -/
def State.writeWord (s : State) (r : Route) (off v : Nat) : State :=
  match s.reg off with
  | some (false, _) => s.put32 r off v
  | some (true, _) => s.holdLow r off v
  | none => match s.wideAt off with
    | some (base, _) =>
      let t := s.takeHeld r base v
      match t.1 with
      | some w => t.2.put64 base w
      | none => s
    | none => s

/-- Words in ascending address order (R507). -/
def State.writeWords (r : Route) : Nat → Nat → Nat → State → State
  | 0, _, _, s => s
  | n + 1, off, v, s => State.writeWords r n (off + 4) (v / 2 ^ 32) (s.writeWord r off (v % 2 ^ 32))

/-- A write of `n` bytes: whole aligned words, or nothing: an access longer than a word whose length is no multiple of
4 is discarded whole (R7, assumption 116). -/
def State.writeAccess (s : State) (r : Route) (addr n v : Nat) : State :=
  if !s.reaches r addr then (if r = .bar0 then s.aer 20 else s)
  else if addr % 4 ≠ 0 ∨ n % 4 ≠ 0 then s
  else State.writeWords r (n / 4) addr v s

def execRegisterWrite (route : Route) (addr bytes value : Nat) (s : State) : Host.Outcome State Fault Refusal :=
  whenUp s (s.writeAccess route addr bytes value)

end Sys2Proof.Machine
end

