-- ==== Sys2Proof/Machine/Dispatch.lean ====
section
/-! DEFINITION. The dispatch: one arm for each command of the table, each a direct call of its meaning. -/
namespace Sys2Proof.Machine
open Sys2Proof

def exec (i : Instr) (s : State) : Host.Outcome State Fault Refusal :=
  match i with
  | .registerWrite route addr bytes value => Sys2Proof.Machine.execRegisterWrite route addr bytes value s
  | .lowWordRead route addr bytes => Sys2Proof.Machine.execLowWordRead route addr bytes s
  | .rtpPacketArrival dt p => Sys2Proof.Machine.execRtpPacketArrival dt p s
  | .jitterDeadline slot dt => Sys2Proof.Machine.execJitterDeadline slot dt s
  | .policerWindowEnd slot dt => Sys2Proof.Machine.execPolicerWindowEnd slot dt s
  | .rtspResponse slot r => Sys2Proof.Machine.execRtspResponse slot r s
  | .rtspKeepalive t => Sys2Proof.Machine.execRtspKeepalive t s
  | .streamTimeout t => Sys2Proof.Machine.execStreamTimeout t s
  | .rtspRetry t => Sys2Proof.Machine.execRtspRetry t s
  | .rtcpReceiverReport slot => Sys2Proof.Machine.execRtcpReceiverReport slot s
  | .rtcpSenderReport slot ntp rtpTs report => Sys2Proof.Machine.execRtcpSenderReport slot ntp rtpTs report s
  | .fusionSetTimeout w => Sys2Proof.Machine.execFusionSetTimeout w s
  | .pushTailWrite value => Sys2Proof.Machine.execPushTailWrite value s
  | .pushCtrlWrite value => Sys2Proof.Machine.execPushCtrlWrite value s
  | .pushDescriptorRead bytes => Sys2Proof.Machine.execPushDescriptorRead bytes s
  | .pushUnitReadComplete dt bytes => Sys2Proof.Machine.execPushUnitReadComplete dt bytes s
  | .evtInEdge line dt level => Sys2Proof.Machine.execEvtInEdge line dt level s
  | .evtInFilterAccept line dt => Sys2Proof.Machine.execEvtInFilterAccept line dt s
  | .evtInStuck line dt => Sys2Proof.Machine.execEvtInStuck line dt s
  | .evtInStuckClear line dt => Sys2Proof.Machine.execEvtInStuckClear line dt s
  | .evtLineCtrlWrite dt value => Sys2Proof.Machine.execEvtLineCtrlWrite dt value s
  | .evtLineFilterWrite value => Sys2Proof.Machine.execEvtLineFilterWrite value s
  | .evtLineMaxactWrite dt value => Sys2Proof.Machine.execEvtLineMaxactWrite dt value s
  | .evtOutSet line => Sys2Proof.Machine.execEvtOutSet line s
  | .evtOutClear line => Sys2Proof.Machine.execEvtOutClear line s
  | .evtOutPulse line widthMs => Sys2Proof.Machine.execEvtOutPulse line widthMs s
  | .evtOutPulseEnd line => Sys2Proof.Machine.execEvtOutPulseEnd line s
  | .decodePictureStart engine dt hdr bad => Sys2Proof.Machine.execDecodePictureStart engine dt hdr bad s
  | .decodeYield engine dt => Sys2Proof.Machine.execDecodeYield engine dt s
  | .decodeSaveDone engine dt => Sys2Proof.Machine.execDecodeSaveDone engine dt s
  | .decodeRestoreDone engine dt => Sys2Proof.Machine.execDecodeRestoreDone engine dt s
  | .decodeComplete engine dt d => Sys2Proof.Machine.execDecodeComplete engine dt d s
  | .decodeAbandon slot dt => Sys2Proof.Machine.execDecodeAbandon slot dt s
  | .clipRequest req => Sys2Proof.Machine.execClipRequest req s
  | .snapshotRequest req => Sys2Proof.Machine.execSnapshotRequest req s
  | .clipBind => Sys2Proof.Machine.execClipBind s
  | .encodeStart engine dt => Sys2Proof.Machine.execEncodeStart engine dt s
  | .encodePictureComplete engine dt c => Sys2Proof.Machine.execEncodePictureComplete engine dt c s
  | .snapshotComplete engine dt failed cache => Sys2Proof.Machine.execSnapshotComplete engine dt failed cache s
  | .evidenceRelease evidId => Sys2Proof.Machine.execEvidenceRelease evidId s
  | .evidenceRetainExpiry evidId => Sys2Proof.Machine.execEvidenceRetainExpiry evidId s
  | .steeringBuild slot bad => Sys2Proof.Machine.execSteeringBuild slot bad s
  | .skiverSubmit route high => Sys2Proof.Machine.execSkiverSubmit route high s
  | .skiverJobStart unit bad => Sys2Proof.Machine.execSkiverJobStart unit bad s
  | .skiverJobComplete unit dt => Sys2Proof.Machine.execSkiverJobComplete unit dt s
  | .scalarAlu core op f => Sys2Proof.Machine.execScalarAlu core op f s
  | .scalarMuldiv core op f => Sys2Proof.Machine.execScalarMuldiv core op f s
  | .scalarLoadStore core op f e => Sys2Proof.Machine.execScalarLoadStore core op f e s
  | .branch core rd rs1 rs2 cond offset zeros => Sys2Proof.Machine.execBranch core rd rs1 rs2 cond offset zeros s
  | .csrRead core rd csr zeros => Sys2Proof.Machine.execCsrRead core rd csr zeros s
  | .vectorInt core op f => Sys2Proof.Machine.execVectorInt core op f s
  | .vectorFloat core op f => Sys2Proof.Machine.execVectorFloat core op f s
  | .vectorCompare core op f => Sys2Proof.Machine.execVectorCompare core op f s
  | .vectorReduction core op f => Sys2Proof.Machine.execVectorReduction core op f s
  | .vectorConversion core f => Sys2Proof.Machine.execVectorConversion core f s
  | .vectorPermute core op f => Sys2Proof.Machine.execVectorPermute core op f s
  | .vectorLoadStore core store f base offset => Sys2Proof.Machine.execVectorLoadStore core store f base offset s
  | .lds core w => Sys2Proof.Machine.execLds core w s
  | .strm core w => Sys2Proof.Machine.execStrm core w s
  | .ostr core w => Sys2Proof.Machine.execOstr core w s
  | .odrn core w => Sys2Proof.Machine.execOdrn core w s
  | .oclr core w => Sys2Proof.Machine.execOclr core w s
  | .nrw core w => Sys2Proof.Machine.execNrw core w s
  | .nrwf core w => Sys2Proof.Machine.execNrwf core w s
  | .lutl core w => Sys2Proof.Machine.execLutl core w s
  | .dld core w => Sys2Proof.Machine.execDld core w s
  | .ags core w => Sys2Proof.Machine.execAgs core w s
  | .tnx core w => Sys2Proof.Machine.execTnx core w s
  | .agd core w => Sys2Proof.Machine.execAgd core w s
  | .trd core w => Sys2Proof.Machine.execTrd core w s
  | .dmaIssue core w => Sys2Proof.Machine.execDmaIssue core w s
  | .dmaDescriptorStart cluster channel e => Sys2Proof.Machine.execDmaDescriptorStart cluster channel e s
  | .dmaDescriptorComplete cluster channel dt => Sys2Proof.Machine.execDmaDescriptorComplete cluster channel dt s
  | .instructionFill core w => Sys2Proof.Machine.execInstructionFill core w s
  | .ifillBlockLanded cluster => Sys2Proof.Machine.execIfillBlockLanded cluster s
  | .bk core w => Sys2Proof.Machine.execBk core w s
  | .nop core w => Sys2Proof.Machine.execNop core w s
  | .endProgram core w => Sys2Proof.Machine.execEndProgram core w s
  | .breakpoint core w => Sys2Proof.Machine.execBreakpoint core w s
  | .engineQueueAdvance core engine => Sys2Proof.Machine.execEngineQueueAdvance core engine s
  | .sig core w => Sys2Proof.Machine.execSig core w s
  | .sigr core w => Sys2Proof.Machine.execSigr core w s
  | .wait core w => Sys2Proof.Machine.execWait core w s
  | .waitr core w => Sys2Proof.Machine.execWaitr core w s
  | .dec core w => Sys2Proof.Machine.execDec core w s
  | .read core w => Sys2Proof.Machine.execRead core w s
  | .signalSend core => Sys2Proof.Machine.execSignalSend core s
  | .syncIncrementArrival core ctr count => Sys2Proof.Machine.execSyncIncrementArrival core ctr count s
  | .corePark core dt => Sys2Proof.Machine.execCorePark core dt s
  | .descheduleThreshold ctx => Sys2Proof.Machine.execDescheduleThreshold ctx s
  | .wfa core w => Sys2Proof.Machine.execWfa core w s
  | .wset core w => Sys2Proof.Machine.execWset core w s
  | .wrd core w => Sys2Proof.Machine.execWrd core w s
  | .hostSignal route high => Sys2Proof.Machine.execHostSignal route high s
  | .contextEnd ctx => Sys2Proof.Machine.execContextEnd ctx s
  | .awlJobStart cluster e => Sys2Proof.Machine.execAwlJobStart cluster e s
  | .awlJobComplete cluster => Sys2Proof.Machine.execAwlJobComplete cluster s
  | .stcSubmit route high => Sys2Proof.Machine.execStcSubmit route high s
  | .stitcherCallStart unit => Sys2Proof.Machine.execStitcherCallStart unit s
  | .stitcherCallComplete unit dt => Sys2Proof.Machine.execStitcherCallComplete unit dt s
  | .trackingPredict slot bad => Sys2Proof.Machine.execTrackingPredict slot bad s
  | .trackingDetectionsReady slot e => Sys2Proof.Machine.execTrackingDetectionsReady slot e s
  | .trackingEmbeddingsReady slot emb => Sys2Proof.Machine.execTrackingEmbeddingsReady slot emb s
  | .trackingAssignmentReady slot => Sys2Proof.Machine.execTrackingAssignmentReady slot s
  | .gallerySearchComplete slot track failing => Sys2Proof.Machine.execGallerySearchComplete slot track failing s
  | .narrationRequest req => Sys2Proof.Machine.execNarrationRequest req s
  | .narrationCancel session => Sys2Proof.Machine.execNarrationCancel session s
  | .narratorStepStart => Sys2Proof.Machine.execNarratorStepStart s
  | .narratorStepComplete us logits => Sys2Proof.Machine.execNarratorStepComplete us logits s
  | .narratorEmbedComplete session => Sys2Proof.Machine.execNarratorEmbedComplete session s
  | .msixModerationTimer ring => Sys2Proof.Machine.execMsixModerationTimer ring s
  | .ringTailWrite ring value => Sys2Proof.Machine.execRingTailWrite ring value s
  | .ringCtrlWrite ring value => Sys2Proof.Machine.execRingCtrlWrite ring value s
  | .collectorDatagramTimer collector => Sys2Proof.Machine.execCollectorDatagramTimer collector s
  | .deliveryAck collector highest bitmap => Sys2Proof.Machine.execDeliveryAck collector highest bitmap s
  | .collectorAckTimeout collector => Sys2Proof.Machine.execCollectorAckTimeout collector s
  | .requestUrgencyRise port age => Sys2Proof.Machine.execRequestUrgencyRise port age s
  | .refreshDue channel bank busyUrgent => Sys2Proof.Machine.execRefreshDue channel bank busyUrgent s
  | .channelRetrain channel tempC => Sys2Proof.Machine.execChannelRetrain channel tempC s
  | .retrainComplete channel ok => Sys2Proof.Machine.execRetrainComplete channel ok s
  | .cacheFlush => Sys2Proof.Machine.execCacheFlush s
  | .flushComplete => Sys2Proof.Machine.execFlushComplete s
  | .mergeEntryTimeout channel line e => Sys2Proof.Machine.execMergeEntryTimeout channel line e s
  | .burnisherLine e => Sys2Proof.Machine.execBurnisherLine e s
  | .onchipScrubLine failing => Sys2Proof.Machine.execOnchipScrubLine failing s
  | .quarantineCopyComplete channel entry => Sys2Proof.Machine.execQuarantineCopyComplete channel entry s
  | .spareEntryAppend => Sys2Proof.Machine.execSpareEntryAppend s
  | .allocPage route high => Sys2Proof.Machine.execAllocPage route high s
  | .freePage route high => Sys2Proof.Machine.execFreePage route high s
  | .fbGet route high => Sys2Proof.Machine.execFbGet route high s
  | .fbTake route high => Sys2Proof.Machine.execFbTake route high s
  | .fbDrop route high => Sys2Proof.Machine.execFbDrop route high s
  | .fbTakeEv route high => Sys2Proof.Machine.execFbTakeEv route high s
  | .fbDropEv route high => Sys2Proof.Machine.execFbDropEv route high s
  | .tkpIllegalCommand route high => Sys2Proof.Machine.execTkpIllegalCommand route high s
  | .pageZeroingComplete page => Sys2Proof.Machine.execPageZeroingComplete page s
  | .contextCreate route req decl => Sys2Proof.Machine.execContextCreate route req decl s
  | .contextDestroy route ctx => Sys2Proof.Machine.execContextDestroy route ctx s
  | .captureRelease route ctx => Sys2Proof.Machine.execCaptureRelease route ctx s
  | .captureRetainExpiry ctx => Sys2Proof.Machine.execCaptureRetainExpiry ctx s
  | .sliceExpiry ctx => Sys2Proof.Machine.execSliceExpiry ctx s
  | .preemptTimeout ctx => Sys2Proof.Machine.execPreemptTimeout ctx s
  | .contextSwitchStart ctx => Sys2Proof.Machine.execContextSwitchStart ctx s
  | .contextSwitchComplete ctx readFails => Sys2Proof.Machine.execContextSwitchComplete ctx readFails s
  | .primitiveRequest route p layers => Sys2Proof.Machine.execPrimitiveRequest route p layers s
  | .checkpointSigned => Sys2Proof.Machine.execCheckpointSigned s
  | .lockstepChainValue slot group value prefixes => Sys2Proof.Machine.execLockstepChainValue slot group value prefixes s
  | .leaderForcedEntries slot group entries => Sys2Proof.Machine.execLeaderForcedEntries slot group entries s
  | .reinTick m => Sys2Proof.Machine.execReinTick m s
  | .thermalResetRelease tempC => Sys2Proof.Machine.execThermalResetRelease tempC s
  | .calibrationUpdate measured estimated leakage => Sys2Proof.Machine.execCalibrationUpdate measured estimated leakage s
  | .arithDividerChange rootCount => Sys2Proof.Machine.execArithDividerChange rootCount s
  | .pwrWarn asserted us => Sys2Proof.Machine.execPwrWarn asserted us s
  | .droopChange tenths us => Sys2Proof.Machine.execDroopChange tenths us s
  | .shedStepEntry n us => Sys2Proof.Machine.execShedStepEntry n us s
  | .shedStepExit n us => Sys2Proof.Machine.execShedStepExit n us s
  | .shedParkTimeout => Sys2Proof.Machine.execShedParkTimeout s
  | .standbyEnter route => Sys2Proof.Machine.execStandbyEnter route s
  | .standbyWake nonPcie => Sys2Proof.Machine.execStandbyWake nonPcie s
  | .selfRefreshExitComplete => Sys2Proof.Machine.execSelfRefreshExitComplete s
  | .pllLock => Sys2Proof.Machine.execPllLock s
  | .refclkLoss => Sys2Proof.Machine.execRefclkLoss s
  | .serdesRefLoss r => Sys2Proof.Machine.execSerdesRefLoss r s
  | .stirrupWriteFrame f => Sys2Proof.Machine.execStirrupWriteFrame f s
  | .stirrupIncrementFrame f => Sys2Proof.Machine.execStirrupIncrementFrame f s
  | .stirrupMirrorFrame f kind => Sys2Proof.Machine.execStirrupMirrorFrame f kind s
  | .stirrupControlFrame f msg => Sys2Proof.Machine.execStirrupControlFrame f msg s
  | .stirrupIdleFrame f => Sys2Proof.Machine.execStirrupIdleFrame f s
  | .stirrupIdleTimer => Sys2Proof.Machine.execStirrupIdleTimer s
  | .stirrupRetxTimeout => Sys2Proof.Machine.execStirrupRetxTimeout s
  | .linkTrained partnerDigest partnerOwner => Sys2Proof.Machine.execLinkTrained partnerDigest partnerOwner s
  | .linkTrainRetry => Sys2Proof.Machine.execLinkTrainRetry s
  | .linkSilent => Sys2Proof.Machine.execLinkSilent s
  | .failInChange low => Sys2Proof.Machine.execFailInChange low s
  | .hbInMissing => Sys2Proof.Machine.execHbInMissing s
  | .pairHbToggle => Sys2Proof.Machine.execPairHbToggle s
  | .ledgerMirror => Sys2Proof.Machine.execLedgerMirror s
  | .plannedHandover slots => Sys2Proof.Machine.execPlannedHandover slots s
  | .bar2Read offset bytes e => Sys2Proof.Machine.execBar2Read offset bytes e s
  | .bar2Write w => Sys2Proof.Machine.execBar2Write w s
  | .mailboxDoorbell value => Sys2Proof.Machine.execMailboxDoorbell value s
  | .mailboxAck value => Sys2Proof.Machine.execMailboxAck value s
  | .msixUnmask enable functionMask unmask => Sys2Proof.Machine.execMsixUnmask enable functionMask unmask s
  | .d3hotRequest => Sys2Proof.Machine.execD3hotRequest s
  | .d0Request => Sys2Proof.Machine.execD0Request s
  | .pmeTurnOff => Sys2Proof.Machine.execPmeTurnOff s
  | .perst => Sys2Proof.Machine.execPerst s
  | .flr => Sys2Proof.Machine.execFlr s
  | .readCompletion tag status dt bytes => Sys2Proof.Machine.execReadCompletion tag status dt bytes s
  | .completionTimeout tag => Sys2Proof.Machine.execCompletionTimeout tag s
  | .odxRead who k => Sys2Proof.Machine.execOdxRead who k s
  | .odxWrite who k value => Sys2Proof.Machine.execOdxWrite who k value s
  | .odxBegin who => Sys2Proof.Machine.execOdxBegin who s
  | .odxCommit who => Sys2Proof.Machine.execOdxCommit who s
  | .odxRollback who => Sys2Proof.Machine.execOdxRollback who s
  | .odxInfo who k => Sys2Proof.Machine.execOdxInfo who k s
  | .transactionExpiry route => Sys2Proof.Machine.execTransactionExpiry route s
  | .blpOpen => Sys2Proof.Machine.execBlpOpen s
  | .blpClose session => Sys2Proof.Machine.execBlpClose session s
  | .sessionTimeout route session => Sys2Proof.Machine.execSessionTimeout route session s
  | .canFrame bytes classic => Sys2Proof.Machine.execCanFrame bytes classic s
  | .canSegmentTimeout => Sys2Proof.Machine.execCanSegmentTimeout s
  | .canBusOff => Sys2Proof.Machine.execCanBusOff s
  | .expertUnlock who value => Sys2Proof.Machine.execExpertUnlock who value s
  | .warmReset route => Sys2Proof.Machine.execWarmReset route s
  | .allocClassXPages route n => Sys2Proof.Machine.execAllocClassXPages route n s
  | .freeClassXPages route handle => Sys2Proof.Machine.execFreeClassXPages route handle s
  | .attestationRequest route nonce => Sys2Proof.Machine.execAttestationRequest route nonce s
  | .debugChallengeRequest route scope => Sys2Proof.Machine.execDebugChallengeRequest route scope s
  | .debugResponse r => Sys2Proof.Machine.execDebugResponse r s
  | .unlockLockoutEnd => Sys2Proof.Machine.execUnlockLockoutEnd s
  | .ownerKeyBurn route k key verified => Sys2Proof.Machine.execOwnerKeyBurn route k key verified s
  | .ownerFuseSet route f verified => Sys2Proof.Machine.execOwnerFuseSet route f verified s
  | .svnAdvance route kind verified => Sys2Proof.Machine.execSvnAdvance route kind verified s
  | .revocationContainer route c verified => Sys2Proof.Machine.execRevocationContainer route c verified s
  | .stageCountReset route stage => Sys2Proof.Machine.execStageCountReset route stage s
  | .journalSelect route pos => Sys2Proof.Machine.execJournalSelect route pos s
  | .configSave route => Sys2Proof.Machine.execConfigSave route s
  | .configErase route => Sys2Proof.Machine.execConfigErase route s
  | .firmwareUpdate route c => Sys2Proof.Machine.execFirmwareUpdate route c s
  | .firmwareUpdateDone => Sys2Proof.Machine.execFirmwareUpdateDone s
  | .powerOn => Sys2Proof.Machine.execPowerOn s
  | .resetNAssert => Sys2Proof.Machine.execResetNAssert s
  | .railBrownout => Sys2Proof.Machine.execRailBrownout s
  | .bootStagePass r => Sys2Proof.Machine.execBootStagePass r s
  | .stageWatchdog failingClusters => Sys2Proof.Machine.execStageWatchdog failingClusters s
  | .bootRetry => Sys2Proof.Machine.execBootRetry s
  | .highWordRead route addr bytes => Sys2Proof.Machine.execHighWordRead route addr bytes s
  | .evtInBudgetRefill line dt => Sys2Proof.Machine.execEvtInBudgetRefill line dt s
  | .encodeSaveDone engine dt => Sys2Proof.Machine.execEncodeSaveDone engine dt s
  | .encodeRestoreDone engine dt => Sys2Proof.Machine.execEncodeRestoreDone engine dt s
  | .serdesRefReturn r => Sys2Proof.Machine.execSerdesRefReturn r s
  | .hbInEdge => Sys2Proof.Machine.execHbInEdge s
  | .stirrupBadFrame why => Sys2Proof.Machine.execStirrupBadFrame why s
  | .blpUdpRequest d => Sys2Proof.Machine.execBlpUdpRequest d s
  | .pcieTlpError e => Sys2Proof.Machine.execPcieTlpError e s

end Sys2Proof.Machine
end

