-- ==== Sys2Proof/Safety.lean ====
section
/-! DEFINITION. What counts as a safe step in the terms the statements use: the block answers a next
state. Every fault of the device is a record it delivers (26_fault_catalogue.md), never a stop. -/
namespace Sys2Proof.Machine
open Sys2Proof

/-- The command `c` completes in `s`: `exec` answers a next state. -/
def Completes (c : Instr) (s : State) : Prop := ∃ t, exec c s = .next t

/-- The command `c` in `s` answers a next state: `t`, with the queue as it was in `s`. -/
def Answers (c : Instr) (s t : State) : Prop := exec c s = .next { t with pending := s.pending }

/-- The command `c` in `s` answers a next state of which `P` holds. -/
def Reaches (c : Instr) (s : State) (P : State → Prop) : Prop := ∃ t, exec c s = .next t ∧ P t

/-- A step from `s` goes on. -/
def StepSafe (s : State) : Prop := ∃ t, step s = .next t

end Sys2Proof.Machine
end

