-- ==== Sys2Proof/WellFormed.lean ====
section
/-! DEFINITION. Well-formed commands: each operand names a unit, a register or a field that the spec gives the
block. The meanings are defined on every command; one that is not well formed is none that the outside can send. -/
namespace Sys2Proof

/-- A unit number or a field below its count. -/
def below (k n : Nat) : Bool := decide (n < k)

/-- A number from 1 to `k`. -/
def oneTo (k n : Nat) : Bool := decide (1 ≤ n ∧ n ≤ k)

/-- Fields of an RTP packet (R32) on one of the two 25G ports (R26). -/
def Packet.inRange (p : Packet) : Bool :=
  below 2 p.port && below (2 ^ 16) p.udpPort && below (2 ^ 32) p.ssrc && below 128 p.payloadType && below (2 ^ 16) p.seq
    && below (2 ^ 32) p.ts

/-- The destination type of a conversion is a format code (R178). -/
def VecFields.inRange (f : VecFields) : Bool := below 16 f.ty2

/-- A Stirrup frame's fields (R490). -/
def Frame.inRange (f : Frame) : Bool :=
  below (2 ^ 32) f.seq && below (2 ^ 32) f.ack && below (2 ^ 32) f.hb && decide (f.payload.length ≤ 4096)

/-- The operands of a command lie in the fields the spec gives them. -/
def Instr.wf : Instr → Bool
  | .registerWrite _ addr _ value => below 0x4000000 addr && below (2 ^ 32) value
  | .lowWordRead _ addr _ => below 0x4000000 addr
  | .rtpPacketArrival _ p => p.inRange
  | .jitterDeadline slot _ => below 256 slot
  | .policerWindowEnd slot _ => below 256 slot
  | .rtspResponse slot _ => below 256 slot
  | .rtspKeepalive t => below 256 t.slot
  | .streamTimeout t => below 256 t.slot
  | .rtspRetry t => below 256 t.slot
  | .rtcpReceiverReport slot => below 256 slot
  | .rtcpSenderReport slot _ _ _ => below 256 slot
  | .fusionSetTimeout w => below 256 w.set && below 256 w.member
  | .pushTailWrite value => below (2 ^ 32) value
  | .pushCtrlWrite value => below (2 ^ 32) value
  | .pushDescriptorRead bytes => bytes.length == 32
  | .pushUnitReadComplete _ _ => true
  | .evtInEdge line _ _ => below 16 line
  | .evtInFilterAccept line _ => below 16 line
  | .evtInStuck line _ => below 16 line
  | .evtInStuckClear line _ => below 16 line
  | .evtLineCtrlWrite _ value => below (2 ^ 32) value
  | .evtLineFilterWrite value => below (2 ^ 32) value
  | .evtLineMaxactWrite _ value => below (2 ^ 32) value
  | .evtOutSet line => below 8 line
  | .evtOutClear line => below 8 line
  | .evtOutPulse line _ => below 8 line
  | .evtOutPulseEnd line => below 8 line
  | .decodePictureStart engine _ _ _ => below 12 engine
  | .decodeYield engine _ => below 12 engine
  | .decodeSaveDone engine _ => below 12 engine
  | .decodeRestoreDone engine _ => below 12 engine
  | .decodeComplete engine _ _ => below 12 engine
  | .decodeAbandon slot _ => below 256 slot
  | .clipRequest req => below 256 req.slot
  | .snapshotRequest req => below 256 req.slot
  | .clipBind => true
  | .encodeStart engine _ => below 2 engine
  | .encodePictureComplete engine _ _ => below 2 engine
  | .snapshotComplete engine _ _ _ => below 2 engine
  | .evidenceRelease _ => true
  | .evidenceRetainExpiry _ => true
  | .steeringBuild slot _ => below 256 slot
  | .skiverSubmit _ high => below (2 ^ 32) high
  | .skiverJobStart unit _ => below 8 unit
  | .skiverJobComplete unit _ => below 8 unit
  | .scalarAlu core _ _ => below 2048 core
  | .scalarMuldiv core _ _ => below 2048 core
  | .scalarLoadStore core _ _ _ => below 2048 core
  | .branch core rd rs1 rs2 _ _ _ => below 2048 core && below 32 rd && below 32 rs1 && below 32 rs2
  | .csrRead core rd csr _ => below 2048 core && below 32 rd && below (2 ^ 32) csr
  | .vectorInt core _ f => below 2048 core && f.inRange
  | .vectorFloat core _ f => below 2048 core && f.inRange
  | .vectorCompare core _ f => below 2048 core && f.inRange
  | .vectorReduction core _ f => below 2048 core && f.inRange
  | .vectorConversion core f => below 2048 core && f.inRange
  | .vectorPermute core _ f => below 2048 core && f.inRange
  | .vectorLoadStore core _ f _ _ => below 2048 core && f.inRange
  | .lds core _ => below 2048 core
  | .strm core _ => below 2048 core
  | .ostr core _ => below 2048 core
  | .odrn core _ => below 2048 core
  | .oclr core _ => below 2048 core
  | .nrw core _ => below 2048 core
  | .nrwf core _ => below 2048 core
  | .lutl core _ => below 2048 core
  | .dld core _ => below 2048 core
  | .ags core _ => below 2048 core
  | .tnx core _ => below 2048 core
  | .agd core _ => below 2048 core
  | .trd core _ => below 2048 core
  | .dmaIssue core _ => below 2048 core
  | .dmaDescriptorStart cluster channel _ => below 128 cluster && below 2 channel
  | .dmaDescriptorComplete cluster channel _ => below 128 cluster && below 2 channel
  | .instructionFill core _ => below 2048 core
  | .ifillBlockLanded cluster => below 128 cluster
  | .bk core _ => below 2048 core
  | .nop core _ => below 2048 core
  | .endProgram core _ => below 2048 core
  | .breakpoint core _ => below 2048 core
  | .engineQueueAdvance core _ => below 2048 core
  | .sig core _ => below 2048 core
  | .sigr core _ => below 2048 core
  | .wait core _ => below 2048 core
  | .waitr core _ => below 2048 core
  | .dec core _ => below 2048 core
  | .read core _ => below 2048 core
  | .signalSend core => below 2048 core
  | .syncIncrementArrival core ctr _ => below 2048 core && below 48 ctr
  | .corePark core _ => below 2048 core
  | .descheduleThreshold ctx => below 64 ctx
  | .wfa core _ => below 2048 core
  | .wset core _ => below 2048 core
  | .wrd core _ => below 2048 core
  | .hostSignal _ high => below (2 ^ 32) high
  | .contextEnd ctx => below 64 ctx
  | .awlJobStart cluster _ => below 128 cluster
  | .awlJobComplete cluster => below 128 cluster
  | .stcSubmit _ high => below (2 ^ 32) high
  | .stitcherCallStart unit => below 4 unit
  | .stitcherCallComplete unit _ => below 4 unit
  | .trackingPredict slot _ => below 256 slot
  | .trackingDetectionsReady slot _ => below 256 slot
  | .trackingEmbeddingsReady slot _ => below 256 slot
  | .trackingAssignmentReady slot => below 256 slot
  | .gallerySearchComplete slot _ _ => below 256 slot
  | .narrationRequest req => below 256 req.slot
  | .narrationCancel session => below (2 ^ 16) session
  | .narratorStepStart => true
  | .narratorStepComplete _ _ => true
  | .narratorEmbedComplete session => below (2 ^ 16) session
  | .msixModerationTimer ring => below 64 ring
  | .ringTailWrite ring value => below 64 ring && below (2 ^ 32) value
  | .ringCtrlWrite ring value => below 64 ring && below (2 ^ 32) value
  | .collectorDatagramTimer collector => below 16 collector
  | .deliveryAck collector _ _ => below 16 collector
  | .collectorAckTimeout collector => below 16 collector
  | .requestUrgencyRise port _ => below 44 port
  | .refreshDue channel bank _ => below 64 channel && below 32 bank
  | .channelRetrain channel _ => below 64 channel
  | .retrainComplete channel _ => below 64 channel
  | .cacheFlush => true
  | .flushComplete => true
  | .mergeEntryTimeout channel line _ => below 64 channel && decide (line % 64 = 0) && below 0x400000000 line
  | .burnisherLine _ => true
  | .onchipScrubLine _ => true
  | .quarantineCopyComplete channel entry => below 64 channel && below 64 entry
  | .spareEntryAppend => true
  | .allocPage _ high => below (2 ^ 32) high
  | .freePage _ high => below (2 ^ 32) high
  | .fbGet _ high => below (2 ^ 32) high
  | .fbTake _ high => below (2 ^ 32) high
  | .fbDrop _ high => below (2 ^ 32) high
  | .fbTakeEv _ high => below (2 ^ 32) high
  | .fbDropEv _ high => below (2 ^ 32) high
  | .tkpIllegalCommand _ high => below (2 ^ 32) high
  | .pageZeroingComplete page => below 262144 page
  | .contextCreate _ _ _ => true
  | .contextDestroy _ ctx => below 64 ctx
  | .captureRelease _ ctx => below 64 ctx
  | .captureRetainExpiry ctx => below 64 ctx
  | .sliceExpiry ctx => below 64 ctx
  | .preemptTimeout ctx => below 64 ctx
  | .contextSwitchStart ctx => below 64 ctx
  | .contextSwitchComplete ctx _ => below 64 ctx
  | .primitiveRequest _ _ _ => true
  | .checkpointSigned => true
  | .lockstepChainValue slot _ _ _ => below 256 slot
  | .leaderForcedEntries slot _ _ => below 256 slot
  | .reinTick _ => true
  | .thermalResetRelease _ => true
  | .calibrationUpdate _ _ _ => true
  | .arithDividerChange _ => true
  | .pwrWarn _ _ => true
  | .droopChange _ _ => true
  | .shedStepEntry n _ => oneTo 6 n
  | .shedStepExit n _ => oneTo 6 n
  | .shedParkTimeout => true
  | .standbyEnter _ => true
  | .standbyWake _ => true
  | .selfRefreshExitComplete => true
  | .pllLock => true
  | .refclkLoss => true
  | .serdesRefLoss _ => true
  | .stirrupWriteFrame f => f.inRange
  | .stirrupIncrementFrame f => f.inRange
  | .stirrupMirrorFrame f _ => f.inRange
  | .stirrupControlFrame f _ => f.inRange
  | .stirrupIdleFrame f => f.inRange
  | .stirrupIdleTimer => true
  | .stirrupRetxTimeout => true
  | .linkTrained partnerDigest _ => partnerDigest.length == 64
  | .linkTrainRetry => true
  | .linkSilent => true
  | .failInChange _ => true
  | .hbInMissing => true
  | .pairHbToggle => true
  | .ledgerMirror => true
  | .plannedHandover slots => slots.all (below 256)
  | .bar2Read _ _ _ => true
  | .bar2Write w => below (2 ^ 34) w.offset
  | .mailboxDoorbell value => below (2 ^ 32) value
  | .mailboxAck value => below (2 ^ 32) value
  | .msixUnmask _ _ unmask => unmask.all (below 256)
  | .d3hotRequest => true
  | .d0Request => true
  | .pmeTurnOff => true
  | .perst => true
  | .flr => true
  | .readCompletion tag _ _ _ => below 512 tag
  | .completionTimeout tag => below 512 tag
  | .odxRead who k => below (2 ^ 16) who.session && below (2 ^ 16) k.index && below 256 k.sub
  | .odxWrite who k _ => below (2 ^ 16) who.session && below (2 ^ 16) k.index && below 256 k.sub
  | .odxBegin who => below (2 ^ 16) who.session
  | .odxCommit who => below (2 ^ 16) who.session
  | .odxRollback who => below (2 ^ 16) who.session
  | .odxInfo who k => below (2 ^ 16) who.session && below (2 ^ 16) k.index && below 256 k.sub
  | .transactionExpiry _ => true
  | .blpOpen => true
  | .blpClose session => below (2 ^ 16) session
  | .sessionTimeout _ session => below (2 ^ 16) session
  | .canFrame _ _ => true
  | .canSegmentTimeout => true
  | .canBusOff => true
  | .expertUnlock who value => below (2 ^ 16) who.session && below (2 ^ 32) value
  | .warmReset _ => true
  | .allocClassXPages _ _ => true
  | .freeClassXPages _ _ => true
  | .attestationRequest _ nonce => nonce.length == 32
  | .debugChallengeRequest route scope => below 4 route && below 32 scope
  | .debugResponse r => below 4 r.route && r.key.length == 32 && r.signature.length == 64
  | .unlockLockoutEnd => true
  | .ownerKeyBurn _ k key _ => below 4 k && key.length == 32
  | .ownerFuseSet _ _ _ => true
  | .svnAdvance _ kind _ => oneTo 3 kind
  | .revocationContainer _ _ _ => true
  | .stageCountReset _ stage => oneTo 9 stage
  | .journalSelect _ _ => true
  | .configSave _ => true
  | .configErase _ => true
  | .firmwareUpdate _ _ => true
  | .firmwareUpdateDone => true
  | .powerOn => true
  | .resetNAssert => true
  | .railBrownout => true
  | .bootStagePass _ => true
  | .stageWatchdog _ => true
  | .bootRetry => true
  | .highWordRead _ addr _ => below 0x4000000 addr
  | .evtInBudgetRefill line _ => below 16 line
  | .encodeSaveDone engine _ => below 2 engine
  | .encodeRestoreDone engine _ => below 2 engine
  | .serdesRefReturn _ => true
  | .hbInEdge => true
  | .stirrupBadFrame _ => true
  | .blpUdpRequest _ => true
  | .pcieTlpError _ => true

end Sys2Proof
end

