-- ==== Sys2Proof/Certificates/Slice0/Obligations.lean ====
section
/-! DEFINITION. The statements for the provers. Each names the rules it formalises; `Answers c s t` says that
`exec c s` answers the next state `t` with the queue unchanged, `Reaches c s P` that it answers one of which `P`
holds. An equation for the whole next state is the command's frame as well: what it does not name is as before. -/
open Sys2Proof Sys2Proof.Machine

/-! ### The block and its queue -/

/-- The front command of the queue runs on the state with the queue's rest: in place of "a step runs the decoded
instruction".

An empty queue leaves the block as it is (log entry 1: the model's choice). -/
def Obligations.StepRunsTheFrontCommand : Prop :=
  (∀ (c : Instr) (rest : List Instr) (s : State), step { s with pending := c :: rest } = exec c { s with pending := rest }) ∧
  (∀ s : State, s.pending = [] → step s = .next s)


/-- The block never stops: every command answers a next state and leaves the queue's rest to the commands that
wait, so a queue of any length is worked off in as many steps, first in first out (R593 makes every fault a record,
not a stop). -/
def Obligations.QueueIsWorkedOff : Prop :=
  (∀ (c : Instr) (s : State), Reaches c s (fun t => t.pending = s.pending)) ∧
  (∀ s : State, ∃ t, Sys2Proof.core.run s.pending.length s = .next t ∧ t.pending = [])

/-- Memory keeps its canonical form at every step: addresses rising, no listed zero. -/
def Obligations.MemoryStaysCanonical : Prop :=
  ∀ s t : State, Memory.wf s.mem.bytes = true → step s = .next t → Memory.wf t.mem.bytes = true

/-- Reset: every byte of memory reads zero and memory is canonical (log entry 6: the model's choice), no command
waits, and the registers of every block read their Reset column (R6): the first of an array of registers or of a
selected set stands for the rest; PWR_STEP_* are step 1 of R467, MEM_PORT_TARGET port 0 of R369. -/
def Obligations.ResetState : Prop :=
  Memory.wf State.reset.mem.bytes = true ∧ State.reset.pending = [] ∧ (∀ a, State.reset.rdByte a = 0#8)
  ∧ (∀ b ∈ [
       (1, [(0x100, 0), (0x108, 0x40), (0x10C, 0), (0x110, 0)]),  -- ING
       (2, [(0x0, 0), (0x4, 0), (0x8, 0), (0x10, 0), (0x200, 0), (0x208, 0)]),  -- VDC
       (3, [(0x0, 0), (0x4, 0), (0x8, 0), (0x10, 0), (0x100, 0), (0x104, 0), (0x108, 0), (0x200, 0), (0x208, 0)]),  -- VEN
       (4, [(0x0, 0), (0x8, 0), (0x10, 0), (0x100, 0), (0x108, 0)]),  -- SKV
       (5, [(0x0, 0), (0x10, 0), (0x14, 0), (0x18, 0), (0x1C, 0), (0x20, 0), (0x28, 0)]),  -- DZC
       (6, [(0x0, 0), (0x10, 0), (0x14, 0), (0x18, 0)]),  -- CLU
       (7, [(0x100, 0)]),  -- GRT
       (8, [(0x0, 0), (0x4, 0), (0x8, 0), (0x80, 0), (0x200, 0), (0x204, 0x1000), (0x208, 0x7D0), (0x210, 0), (0x218, 0), (0x300, 0), (0x304, 0), (0x308, 0), (0x30C, 0)]),  -- SYN
       (9, [(0x0, 0x249F0), (0x4, 0x2710), (0x8, 0), (0xC, 0), (0x10, 0), (0x14, 0x10000), (0x18, 0), (0x20, 0), (0x24, 0), (0x28, 0x10), (0x30, 0)]),  -- RNE
       (10, [(0x0, 0), (0x4, 0), (0x10, 0), (0x14, 0), (0x18, 0), (0x20, 0), (0x28, 0), (0x200, 0), (0x210, 0), (0x214, 0), (0x218, 0)]),  -- PCI
       (11, [(0x0, 0), (0x4, 0), (0x8, 0), (0xC, 0), (0x10, 0), (0x14, 0), (0x18, 0), (0x30, 0), (0x40, 0), (0x80, 0), (0xF0, 0)]),  -- KPR
       (12, [(0x0, 0), (0x4, 0), (0x8, 0), (0x10, 0x1E), (0x14, 0xA), (0x18, 0), (0x1C, 0x3E8)]),  -- PWR
       (13, [(0x0, 0), (0x8, 0), (0x10, 0), (0x18, 0), (0x100, 0), (0x108, 0)]),  -- STC
       (14, [(0x0, 0), (0x8, 0), (0x10, 0), (0x18, 0), (0x1C, 0), (0x20, 0)]),  -- NAR
       (15, [(0x0, 0), (0x8, 0x18), (0xC, 0), (0x10, 0), (0x18, 0), (0x1C, 0), (0x20, 0), (0x28, 0)]),  -- MDO
       (16, [(0x0, 0), (0x4, 0), (0x8, 0), (0x10, 0), (0x18, 0), (0x1C, 0), (0x100, 0), (0x104, 0x578), (0x108, 0), (0x110, 0), (0x118, 0), (0x200, 0xFFFF), (0x208, 0xFFFFFFFFFFFFFFFF), (0x210, 0xFFFFFFFFFFFFFFFF)]),  -- MEM
       (17, [(0x0, 0), (0x8, 0), (0x10, 0), (0x18, 0), (0x100, 0), (0x104, 0xFFFF), (0x200, 0), (0x204, 0), (0x300, 0)]),  -- MSC
       (18, [(0x0, 0), (0x8, 0), (0x10, 0), (0x14, 0), (0x18, 0), (0x1C, 0)]),  -- INT
       (19, [(0x0, 3), (0x4, 0x18), (0x8, 0x478), (0x10, 0), (0x18, 0), (0x1C, 0), (0x20, 0)]),  -- BRN
       (20, [(0x0, 0), (0x8, 0xFFFFFFFF), (0xC, 0), (0x10, 0), (0x14, 0), (0x18, 0), (0x1C, 0), (0x20, 0x101), (0x28, 0)]),  -- TKP
       (21, [(0x0, 0), (0x4, 0), (0x8, 0), (0xC, 0), (0x10, 0), (0x18, 0), (0x1C, 0), (0x20, 0), (0x28, 0), (0x30, 0)]),  -- CTX
       (22, [(0x0, 0), (0x4, 0), (0x8, 0), (0xC, 0), (0x10, 0), (0x18, 0), (0x20, 0), (0x24, 5), (0x28, 0)]),  -- STP
       (23, [(0x0, 0), (0x4, 0), (0x8, 0), (0xC, 0)]),  -- ODX
       (24, [(0x0, 0), (0x4, 4), (0x8, 0)]),  -- CLK
       (25, [(0x0, 0), (0x4, 0), (0x8, 0), (0x10, 0), (0x14, 0), (0x20, 0), (0x24, 0), (0x28, 0x4E20), (0x2C, 0), (0x30, 0), (0x38, 0)])  -- EVT
       ], ∀ p ∈ b.2, (State.reset.reg (regOff b.1 p.1)).map (·.2) = some p.2)

/-! ### Registers (R4, R5, R7, R8, R595) -/

/-- Reads of one word by a route: a 32-bit register shows its value; the low word of a 64-bit one loads the route's
latch with the high word; the high word is the latch, which it empties, or with an empty latch the current value; a
narrower or unaligned read returns zero. Nothing but the latch changes.

R8: after a low-word read the first high-word read of the route returns the word latched then, whatever
happens to the register between, and empties the latch: a second one without a new low-word read returns the
current value. `t` is any later state in which the route's latch still stands. -/
def Obligations.RegisterReads : Prop :=
  (∀ (s : State) (r : Route) (off : Nat), s.up = true → s.reaches r off = true →
     (∀ v, off % 4 = 0 → s.reg off = some (false, v) →
       Answers (.lowWordRead r off 4) s (s.emit (.readData r v)))
     ∧ (∀ v, off % 4 = 0 → s.reg off = some (true, v) →
       Answers (.lowWordRead r off 4) s
         ({ s with latches := tset none s.latches (latchKey r off) (some (v / 2 ^ 32)) }.emit (.readData r (v % 2 ^ 32))))
     ∧ (∀ b v h, off % 4 = 0 → s.reg off = none → s.wideAt off = some (b, v) → tget none s.latches (latchKey r b) = some h →
       Answers (.highWordRead r off 4) s
         ({ s with latches := tset none s.latches (latchKey r b) none }.emit (.readData r h)))
     ∧ (∀ b v, off % 4 = 0 → s.reg off = none → s.wideAt off = some (b, v) → tget none s.latches (latchKey r b) = none →
       Answers (.highWordRead r off 4) s (s.emit (.readData r (v / 2 ^ 32))))
     ∧ (∀ n, off % 4 ≠ 0 ∨ n % 4 ≠ 0 →
       Answers (.lowWordRead r off n) s (s.emit (.readData r 0)) ∧ Answers (.highWordRead r off n) s (s.emit (.readData r 0)))) ∧
  (∀ (s t : State) (r : Route) (off v v' : Nat), s.up = true → t.up = true → off % 4 = 0 →
     s.reaches r off = true → t.reaches r (off + 4) = true →
     s.reg off = some (true, v) → t.reg off = some (true, v') → t.reg (off + 4) = none →
     Reaches (.lowWordRead r off 4) s (fun u => u.out = .readData r (v % 2 ^ 32) :: s.out ∧
       (t.latches = u.latches →
         Reaches (.highWordRead r (off + 4) 4) t (fun u2 => u2.out = .readData r (v / 2 ^ 32) :: t.out ∧
           Reaches (.highWordRead r (off + 4) 4) u2 (fun u3 => u3.out = .readData r (v' / 2 ^ 32) :: u2.out)))))


/-- Writes of one word by a route: a 32-bit register is written under its access code (`put32`); the low word of a
64-bit one is held, a further one replacing it; the high word commits both and empties the held write, or without a
held low word is discarded; a narrower or unaligned write is discarded.

R4, R595: writes to read-only registers change nothing; a W1C register clears exactly the bits written 1; a
value outside an RW field's range is discarded, one inside it is taken. Shown on registers of ten blocks. -/
def Obligations.RegisterWritesAndCodes : Prop :=
  (∀ (s : State) (r : Route) (off x : Nat), s.up = true → s.reaches r off = true → x < 2 ^ 32 →
     (∀ v, off % 4 = 0 → s.reg off = some (false, v) → Answers (.registerWrite r off 4 x) s (s.put32 r off x))
     ∧ (∀ v, off % 4 = 0 → s.reg off = some (true, v) →
       Answers (.registerWrite r off 4 x) s { s with heldLow := tset none s.heldLow (latchKey r off) (some x) })
     ∧ (∀ b v low, off % 4 = 0 → s.reg off = none → s.wideAt off = some (b, v) →
       tget none s.heldLow (latchKey r b) = some low →
       Answers (.registerWrite r off 4 x) s
         (State.put64 { s with heldLow := tset none s.heldLow (latchKey r b) none } b (low + x * 2 ^ 32)))
     ∧ (∀ b v, off % 4 = 0 → s.reg off = none → s.wideAt off = some (b, v) →
       tget none s.heldLow (latchKey r b) = none → Answers (.registerWrite r off 4 x) s s)
     ∧ (∀ n, off % 4 ≠ 0 ∨ n % 4 ≠ 0 → Answers (.registerWrite r off n x) s s)) ∧
  (∀ (s : State) (r : Route) (x : Nat), s.up = true → x < 2 ^ 32 → (∀ off, s.reaches r off = true) →
     (∀ off ∈ [regOff 0 0, regOff 1 0x110, regOff 2 0, regOff 3 0x100, regOff 4 0, regOff 5 0x10, regOff 6 0x10,
         regOff 7 0x100, regOff 8 4, regOff 9 8, regOff 9 0xC, regOff 10 0, regOff 11 0, regOff 12 0, regOff 12 4,
         regOff 13 0, regOff 14 0, regOff 15 0x1C, regOff 16 4, regOff 17 0x204, regOff 18 0x18, regOff 19 0x18,
         regOff 20 0x10, regOff 21 4, regOff 22 0, regOff 22 4, regOff 23 4, regOff 24 4, regOff 25 0, regOff 25 0x10],
       Answers (.registerWrite r off 4 x) s s)
     ∧ Reaches (.registerWrite r (regOff 10 4) 4 x) s (fun t =>
         (∀ i < 32, bit t.pci.events i = (bit s.pci.events i && !bit x i)) ∧
         t = { s with pci := { s.pci with events := t.pci.events } })
     ∧ (¬ (20000 ≤ bits x 17 0 ∧ bits x 17 0 ≤ 150000) → Answers (.registerWrite r (regOff 9 0) 4 x) s s)
     ∧ (20000 ≤ bits x 17 0 ∧ bits x 17 0 ≤ 150000 →
         Reaches (.registerWrite r (regOff 9 0) 4 x) s (fun t => t.budgetMw = bits x 17 0))
     ∧ (1 ≤ bits x 15 0 ∧ bits x 15 0 ≤ 63 → Answers (.registerWrite r (regOff 16 0x104) 4 x) s s)
     ∧ (¬ (1 ≤ bits x 7 0 ∧ bits x 7 0 ≤ 168) → Answers (.registerWrite r (regOff 19 4) 4 x) s s)
     ∧ (1 ≤ bits x 7 0 ∧ bits x 7 0 ≤ 168 →
         Reaches (.registerWrite r (regOff 19 4) 4 x) s (fun t => t.mem.burn.hours = bits x 7 0)))


/-! ### Stream ingest (R26 to R48) -/

/-- R28, R45, R39: a datagram on a 25G port is stamped, and is counted in exactly one per-port counter where the port
drops it or no slot takes it; one that its slot's format or payload type rules out counts as unsupported; a stopped slot
counts it as stopped_dropped alone, a suspended one as shed_dropped alone; any other slot polices its whole IP length
and, where the policer passes it, places it by its extended sequence number and timestamp; one that it drops marks the
unit that it belongs to.

R38, R39: the policer passes a datagram exactly when the slot's bucket holds its length in tokens, counts it as received,
and counts what it drops as policed; tokens accrue with the slot's arrival counter up to the burst. A window in which
more than 1 % of the offered bytes was dropped lengthens the run of overrun windows, another ends it; a run at the
slot's limit stops the stream with detail policer. -/
def Obligations.DatagramsAndPolicer : Prop :=
  (∀ (s : State) (dt : Nat) (p : Packet), s.up = true → s.ingests = true → p.port < 2 →
     let u := s.modPort p.port (fun q => { q with ticks := q.ticks + dt, stamp := (q.ticks + dt) % 2 ^ 48 })
     let kind := FrameHead.kind p.head (u.vlansOf p.port)
     (kind = .taken → Answers (.rtpPacketArrival dt p) s u)
     ∧ (kind = .fragment → Answers (.rtpPacketArrival dt p) s
       (u.modPort p.port (fun q => { q with fragments := (q.fragments + 1) % 2 ^ 64 })))
     ∧ (kind = .badChecksum → Answers (.rtpPacketArrival dt p) s
       (u.modPort p.port (fun q => { q with checksum := (q.checksum + 1) % 2 ^ 64 })))
     ∧ (kind = .unsupported → Answers (.rtpPacketArrival dt p) s
       (u.modPort p.port (fun q => { q with unsupported := (q.unsupported + 1) % 2 ^ 64 })))
     ∧ (kind = .good → u.slotFor p = none → Answers (.rtpPacketArrival dt p) s
       (u.modPort p.port (fun q => { q with noSlot := (q.noSlot + 1) % 2 ^ 64 })))
     ∧ (∀ n, kind = .good → u.slotFor p = some n → (u.slot n).foreign p = true → Answers (.rtpPacketArrival dt p) s
       (u.modPort p.port (fun q => { q with unsupported := (q.unsupported + 1) % 2 ^ 64 })))
     ∧ (∀ n, kind = .good → u.slotFor p = some n → (u.slot n).foreign p = false →
         let w := u.windows n
         ((w.slot n).run = .stopped → Answers (.rtpPacketArrival dt p) s (w.count n 0x12 1))
         ∧ ((w.slot n).run ≠ .stopped → (w.slot n).shedMode = 5 → (w.slot n).shedNext = 5 →
             Answers (.rtpPacketArrival dt p) s (w.count n 0x11 1))
         ∧ ((w.slot n).run ≠ .stopped → (w.slot n).shedMode ≠ 5 →
             let w := w.modIng n (fun i => { i with
               payloadType := some (i.payloadType.getD p.payloadType)
               rtsp := { i.rtsp with delivered := true, backoffS := if i.rtsp.phase = 5 then 1 else i.rtsp.backoffS } })
             let v := (w.police n p.ipLen).2
             let i := (v.slot n).ing
             ((w.police n p.ipLen).1 = true → Answers (.rtpPacketArrival dt p) s (v.accepted n p (w.srcTicks n)))
             ∧ ((w.police n p.ipLen).1 = false → i.started = true ∧ i.ssrc = some p.ssrc ∧ i.far (i.extend p).1 = false →
               Answers (.rtpPacketArrival dt p) s (v.placePacket n (i.extend p).1 (i.extend p).2 p true false (w.srcTicks n)))
             ∧ ((w.police n p.ipLen).1 = false → ¬ (i.started = true ∧ i.ssrc = some p.ssrc ∧ i.far (i.extend p).1 = false) →
               Answers (.rtpPacketArrival dt p) s (v.modIng n (fun i => { i with
                 unplaced := i.unplaced.filter (fun q => q != (p.ssrc, p.ts)) ++ [(p.ssrc, p.ts)] })))))) ∧
  (∀ (h : FrameHead) (vlans : List Nat), h.control = .data → h.fragment = false → h.extHeaders = [] →
     (h.sum = .wrong ∨ (h.sum = .zero ∧ h.ipVersion = 6) → (h.carried = .rtp ∨ h.carried = .tsDatagram) → FrameHead.kind h vlans = .badChecksum)
     ∧ (h.sum = .right → (9216 < h.len ∨ h.serviceTag = true ∨ 1 < h.vlans.length ∨ (∃ v ∈ h.vlans, v ∉ vlans)) → FrameHead.kind h vlans = .unsupported)
     ∧ ((h.sum = .right ∨ (h.sum = .zero ∧ h.ipVersion = 4)) → h.len ≤ 9216 → h.serviceTag = false → h.vlans.length ≤ 1 → (∀ v ∈ h.vlans, v ∈ vlans) →
        (h.ipVersion = 4 ∨ h.ipVersion = 6) →
        (h.carried = .rtp ∨ h.carried = .tsDatagram → FrameHead.kind h vlans = .good)
        ∧ (h.carried = .srtp ∨ h.carried = .dtls ∨ h.carried = .other → FrameHead.kind h vlans = .unsupported)
        ∧ (h.carried = .host ∨ h.carried = .igmp 3 ∨ h.carried = .mld 2 → FrameHead.kind h vlans = .taken))) ∧
  ((
     ∀ (s : State) (n len : Nat), s.follower = false →
       let x := s.slot n
       let hz := hzOf x.cfg.stream.source
       let have_ := x.tokensAt (s.srcTicks n)
       have_ ≤ x.cfg.stream.burst * hz
       ∧ ((s.police n len).1 = true ↔ len * hz ≤ have_)
       ∧ (((s.police n len).2.slot n).ing.bucket = if len * hz ≤ have_ then have_ - len * hz else have_)
       ∧ (∀ k, tget 0 ((s.police n len).2.slot n).counters k =
           if k = 1 then (tget 0 x.counters 1 + 1) % 2 ^ 64
           else if k = 2 then (tget 0 x.counters 2 + len) % 2 ^ 64
           else if k = 3 ∧ have_ < len * hz then (tget 0 x.counters 3 + 1) % 2 ^ 64
           else if k = 4 ∧ have_ < len * hz then (tget 0 x.counters 4 + len) % 2 ^ 64
           else tget 0 x.counters k))
   ∧
   (
     ∀ (s : State) (n dt : Nat), s.up = true →
       let w := s.srcTick n dt
       let x := w.slot n
       let idx := w.srcTicks n / hzOf x.cfg.stream.source
       let run := if x.ing.winOffered < x.ing.winDropped * 100 then x.ing.overruns + 1 else 0
       let v := w.modIng n (fun i => { i with
         winIdx := idx, winOffered := 0, winDropped := 0, overruns := if i.winIdx + 1 < idx then 0 else run })
       (idx ≤ x.ing.winIdx → Answers (.policerWindowEnd n dt) s w)
       ∧ (x.ing.winIdx < idx → run < x.cfg.stream.overrunLimit → Answers (.policerWindowEnd n dt) s v)
       ∧ (x.ing.winIdx < idx → x.cfg.stream.overrunLimit ≤ run → x.run = .running ∨ x.run = .suspended →
           Answers (.policerWindowEnd n dt) s (v.stopSlot n fltStreamStop 0 0))))


/-- R32, R34: extension takes the nearest number that agrees with the packet's 16 bits (32 for timestamps); a packet 3,000
or more ahead of the highest number or 100 or more behind it is held apart and counted; a restart goes on at the
smallest number above the highest accepted one that agrees with the candidate. A packet at or below a released
timestamp is late, a held sequence number a duplicate: each is only counted.

R33, R35, R44: when a unit's deadline passes, the held units up to the latest such one leave in timestamp order, and then
those that are complete; with no deadline passed nothing leaves. A unit's deadline is its first packet's stamp plus
the delay, and placing a packet keeps the held units in rising timestamp order. The oldest held unit leaves as it
stands: its packets in sequence order, INCOMPLETE where a packet up to the marker is missing or no marker came,
GAP_BEFORE after a gap, its missing packets counted as lost; a policed unit leaves as a token (shown for a slot
outside fusion that shedding does not suspend). -/
def Obligations.PacketPlacement : Prop :=
  ((
     (∀ (i : SlotIngest) (p : Packet), i.started = true →
       let e := i.extend p
       (e.1 - i.extSeq ≥ -32768 ∧ e.1 - i.extSeq ≤ 32767 ∧ (e.1 - p.seq) % 65536 = 0)
       ∧ (e.2 - i.extTs ≥ -2147483648 ∧ e.2 - i.extTs ≤ 2147483647 ∧ (e.2 - i.extTs - (p.ts - i.lastTs)) % 4294967296 = 0))
     ∧ (∀ (s : State) (n : Nat) (p : Packet) (stamp : Nat), (s.slot n).ing.ssrc = some p.ssrc →
         (s.slot n).ing.candidate = none → (s.slot n).ing.started = true →
         (3000 ≤ ((s.slot n).ing.extend p).1 - (s.slot n).ing.highSeq ∨ 100 ≤ (s.slot n).ing.highSeq - ((s.slot n).ing.extend p).1) →
         s.accepted n p stamp = ((s.modIng n (fun i => { i with ssrc := some p.ssrc, unplaced := i.unplaced.filter (fun q => q.1 == p.ssrc) })).modIng n
           (fun i => { i with candidate := some p, candTick := stamp })).count n 9 1)
     ∧ (∀ (i : SlotIngest) (c : Packet), ∃ q : Int, 0 < q ∧ q ≤ 65536 ∧ (i.highSeq + q - c.seq) % 65536 = 0 ∧
         ∀ (s : State) (n : Nat), (s.slot n).ing = i →
           s.resync n c = (s.modIng n (fun i => { i.commit c (i.highSeq + q) (i.extTs + sgn 32 (wrap 32 ((c.ts : Int) - i.lastTs))) with
               skips := i.skips ++ [(i.highSeq + 1, i.highSeq + q)] })).placePacket
             n (i.highSeq + q) (i.extTs + sgn 32 (wrap 32 ((c.ts : Int) - i.lastTs))) c false true i.candTick))
   ∧
   (
     ∀ (s : State) (n : Nat) (seq ts : Int) (p : Packet) (gap : Bool) (stamp : Nat),
       (∀ r, (s.slot n).ing.releasedTs = some r → ts ≤ r → s.placePacket n seq ts p false gap stamp = s.count n 8 1)
       ∧ ((∀ r, (s.slot n).ing.releasedTs = some r → r < ts) → seq ∈ (s.slot n).ing.units.flatMap HeldUnit.seqs →
           s.placePacket n seq ts p false gap stamp = s.count n 7 1))) ∧
  ((
     (∀ (s : State) (n dt : Nat), s.up = true →
       let w := s.srcTick n dt
       let i := (w.slot n).ing
       ((∀ u ∈ i.units, w.srcTicks n < u.deadline) → Answers (.jitterDeadline n dt) s w)
       ∧ (∀ u before after, i.units = before ++ u :: after → u.deadline ≤ w.srcTicks n → (∀ v ∈ after, w.srcTicks n < v.deadline) →
           Answers (.jitterDeadline n dt) s
             (State.releaseReady n i.units.length (State.releaseThrough n u.ts i.units.length w))))
     ∧ (∀ (ts : Int) (due cc : Nat) (p : HeldPacket) (pol gap : Bool) (us : List HeldUnit),
         List.Pairwise (fun a b => a.ts < b.ts) us →
         List.Pairwise (fun a b => a.ts < b.ts) (placeIn ts due p pol gap cc us)
         ∧ (∃ u ∈ placeIn ts due p pol gap cc us, u.ts = ts ∧ p ∈ u.packets ∧
             (u.deadline = due ∨ ∃ v ∈ us, v.ts = ts ∧ u.deadline = v.deadline))))
   ∧
   (
     ∀ (s : State) (n : Nat) (u : HeldUnit) (rest : List HeldUnit), (s.slot n).ing.units = u :: rest →
       (s.slot n).shedNext ≠ 5 → (s.slot n).shedMode ≠ 5 → (s.slot n).cfg.fusion.member = false →
       let i := (s.slot n).ing
       let gapSeq := match i.expectSeq with
         | some e => lostBefore i.skips e u.lo
         | none => 0
       ∃ t : State, (t.slot n).ing.units = rest ∧ (t.slot n).ing.releasedTs = some u.ts ∧
         tget 0 (t.slot n).counters 5 = (tget 0 (s.slot n).counters 5 + (u.lost i.skips + gapSeq)) % 2 ^ 64 ∧
         s.releaseHeld n = t.enterUnit n
           { ts := wrap 64 u.ts, bytes := if u.policed then [] else i.paramSets ++ u.bytes
             incomplete := !u.policed && !(u.mark.isSome && u.gaps.isEmpty && u.ccLost == 0)
             gap := (s.slot n).ing.gapNext || u.gap || decide (0 < gapSeq)
             token := if u.policed then some 1 else none } false))


/-- R30, R31, R28, R29: the Cantle's RTSP client. Phases: 1 OPTIONS, 2 DESCRIBE, 3 SETUP, 4 PLAY sent, 5 playing, 6 down. A good
response sends the next request, a challenge of a known algorithm that is new the same one again; a session description
of a form that R29 refuses stops the slot, and one that it takes gives the parameter sets. A failed request, interleaved
transport or a timeout raises FLT_ING_RTSP and tears the session down; the retry, after its wait, reopens it with the
wait doubled up to 60 s; a playing session sends keepalives at half the announced timeout, else every 30 s, and receiver
reports.

R46, R48: a running slot keeps its latest sender report, extended like its timestamps once these have begun; a member
whose waiting time, its jitter delay and two frame intervals, has passed since a set opened is waited for no longer, and
the sets that wait for no member are released. -/
def Obligations.RtspAndFusion : Prop :=
  (∀ (s : State) (n : Nat), s.ready = true → (s.slot n).rtspRuns = true →
     let v := (s.slot n).cfg.stream
     let q := (s.slot n).ing.rtsp
     let p := q.phase
     let down := (((s.raise { code := fltIngRtsp, slot := n }).rtspSend n 5).modRtsp n (fun r => { r with phase := 6 })).modIng n
       (fun i => { i with units := [], candidate := none })
     let next := fun (r : RtspReply) => s.modRtsp n (fun q => { q with
       timeoutS := if r.timeoutS.isSome then r.timeoutS else q.timeoutS, phase := min 5 (p + 1), delivered := q.delivered && p == 5
       session := if p = 3 then r.session else q.session, transport := if p = 3 then r.transport else q.transport })
     (∀ r, p ≠ 6 → r.ok = false → r.challenge = none → Answers (.rtspResponse n r) s down)
     ∧ (∀ r c, p ≠ 6 → r.ok = false → r.challenge = some c → c.alg = .unknown ∨ q.auth = some c → Answers (.rtspResponse n r) s down)
     ∧ (∀ r c, p ≠ 6 → r.ok = false → r.challenge = some c → c.alg ≠ .unknown → q.auth ≠ some c → Answers (.rtspResponse n r) s
         ((s.modRtsp n (fun q => { q with auth := some c })).rtspSend n (if p = 5 then 4 else p - 1)))
     ∧ (∀ r, p = 3 → r.ok = true → r.transport = some .interleaved → Answers (.rtspResponse n r) s down)
     ∧ (∀ r, (p < 2 ∨ (p = 3 ∧ r.transport ≠ some .interleaved)) → r.ok = true → Answers (.rtspResponse n r) s ((next r).rtspSend n p))
     ∧ (∀ r, p = 2 → r.ok = true → r.sdp = none → Answers (.rtspResponse n r) s ((next r).rtspSend n 2))
     ∧ (∀ r d, p = 2 → r.ok = true → r.sdp = some d → Sdp.refused d v.payload = false → Answers (.rtspResponse n r) s
         (((next r).modIng n (fun i => { i with paramSets := d.parameterSets })).rtspSend n 2))
     ∧ (∀ r d, p = 2 → r.ok = true → r.sdp = some d → Sdp.refused d v.payload = true → Answers (.rtspResponse n r) s
         (((s.rtspSend n 5).modRtsp n (fun r => { r with phase := 0 })).stopSlot n fltAdmitShape 0 0))
     ∧ (∀ r, p = 4 ∨ p = 5 → r.ok = true → Answers (.rtspResponse n r) s (next r))
     ∧ (∀ t : StreamSilence, t.slot = n → p ≠ 6 →
         ((v.timeoutS * 1000 ≤ t.ms ∨ ∃ k, q.timeoutS = some k ∧ k * 1000 ≤ t.sessionMs) → Answers (.streamTimeout t) s down)
         ∧ (t.ms < v.timeoutS * 1000 → (∀ k, q.timeoutS = some k → t.sessionMs < k * 1000) → Answers (.streamTimeout t) s s))
     ∧ (∀ t : RtspTimer, t.slot = n →
         (p = 6 → q.backoffS * 1000 ≤ t.ms → v.url.take 6 ≠ ascii "rtsps:" → Answers (.rtspRetry t) s
           ((s.modRtsp n (fun r => { phase := 1, backoffS := min 60 (2 * r.backoffS) })).rtspSend n 0))
         ∧ (p = 6 → t.ms < q.backoffS * 1000 → Answers (.rtspRetry t) s s)
         ∧ (p = 5 → (match q.timeoutS with | some k => k * 500 | none => 30000) ≤ t.ms → Answers (.rtspKeepalive t) s (s.rtspSend n 4))
         ∧ (p = 5 → t.ms < (match q.timeoutS with | some k => k * 500 | none => 30000) → Answers (.rtspKeepalive t) s s))
     ∧ (p = 5 → Answers (.rtcpReceiverReport n) s (s.emit (.rtcpReport n)))) ∧
  (∀ (s : State) (n ntp rtpTs : Nat) (bytes : List Byte), s.up = true →
     ((s.slot n).run = .running → (s.slot n).ing.started = true →
       Reaches (.rtcpSenderReport n ntp rtpTs bytes) s (fun t =>
         (∃ ts : Int, (ts - (s.slot n).ing.extTs - (rtpTs - (s.slot n).ing.lastTs)) % 4294967296 = 0 ∧
           (t.slot n).ing.report = some ⟨ntp, rtpTs, some ts, bytes⟩) ∧
         (∀ m, m ≠ n → t.slot m = s.slot m) ∧ t = { s with slots := t.slots }))
     ∧ ((s.slot n).run = .running → (s.slot n).ing.started = false → Answers (.rtcpSenderReport n ntp rtpTs bytes) s
         (s.modIng n (fun i => { i with report := some ⟨ntp, rtpTs, none, bytes⟩ })))
     ∧ (∀ w : FusionWait,
         let v := (s.slot w.member).cfg.stream
         let waited := v.jitterMs * 1000 * v.frNum + 2000000 * v.frDen ≤ w.us * v.frNum
         (¬ waited → Answers (.fusionSetTimeout w) s s)
         ∧ (waited → ∀ opens : List FusionOpen, opens.length = (s.fusionSet w.set).opens.length →
             (∀ (j : Nat) (o : FusionOpen), (s.fusionSet w.set).opens[j]? = some o →
               opens[j]? = some (if j = w.index then { o with waited := o.waited ++ [w.member] } else o)) →
             Answers (.fusionSetTimeout w) s
               (State.fusionRun w.set opens.length (s.modFusion w.set (fun f => { f with opens := opens }))))))
  ∧ (∀ (s : State) (k j : Nat) (o : FusionOpen) (os : List FusionOpen), (s.fusionSet k).opens = o :: os →
      let ref := ((o.offsets.head?).map (·.1)).getD 0
      let tol := (s.slot ref).cfg.fusion.tol
      let ready := ∀ m ∈ s.fusionMembers k, m = ref ∨ ((s.fusionSet k).sampleFor o tol m).isSome = true ∨ (s.fusionSet k).later o tol m = true ∨ m ∈ o.waited
      (ready → State.fusionRun k (j + 1) s = State.fusionRun k j (s.fusionRelease k o (s.fusionMembers k) tol))
      ∧ (¬ ready → State.fusionRun k (j + 1) s = s))


/-- R41 to R43: the push path. A tail write makes descriptors available and, with none in progress, reads the one at
the head; a control write sets enable and, within 4 to 16, the ring size; a descriptor that names a push slot with a
legal length and zero reserved fields has its unit read, any other is skipped and counted (in entry .14, assumption 116)
with FLT_ING_PUSH; when the unit's last
byte is read it reaches its slot and the head moves on. -/
def Obligations.PushRing : Prop :=
  (
    ∀ s : State, s.up = true →
      (∀ v, s.push.enable = false →
        Answers (.pushTailWrite v) s { s with push := { s.push with tail := v % 65536 } })
      ∧ (∀ v, s.push.enable = true → s.push.fetching = false → s.push.current = none → s.hostUp = true →
          v % 65536 % 2 ^ s.push.sizeLog2 ≠ s.push.head →
          Answers (.pushTailWrite v) s
            (State.pushIssue { s with push := { s.push with tail := v % 65536, fetching := true } }
              (s.push.base + s.push.head % 2 ^ s.push.sizeLog2 * 32) 32 true))
      ∧ (∀ v, bit v 0 = false → s.pci.cplDisable = false →
          Answers (.pushCtrlWrite v) s { s with push := { s.push with
            enable := false, sizeLog2 := if 4 ≤ bits v 8 4 ∧ bits v 8 4 ≤ 16 then bits v 8 4 else s.push.sizeLog2 } })
      ∧ (∀ v, bit v 0 = false → s.pci.cplDisable = true →
          Answers (.pushCtrlWrite v) s { s with
            push := { s.push with
              enable := false, sizeLog2 := if 4 ≤ bits v 8 4 ∧ bits v 8 4 ≤ 16 then bits v 8 4 else s.push.sizeLog2
              fetching := false, current := none }
            pci := { s.pci with
              outstanding := s.pci.outstanding.filter (fun r => !r.push)
              abandoned := s.pci.abandoned ++ (s.pci.outstanding.filter (·.push)).map (·.tag) } })
      ∧ (∀ v, bit v 0 = true → Answers (.pushCtrlWrite v) s (State.pushFetch { s with push := { s.push with
            enable := true, sizeLog2 := if 4 ≤ bits v 8 4 ∧ bits v 8 4 ≤ 16 then bits v 8 4 else s.push.sizeLog2 } }))
      ∧ (∀ b u, s.pushRetire true = some u → u.pushDescOk b = true →
          Answers (.pushDescriptorRead b) s
            (State.pushIssue { u with push := { u.push with fetching := false, current := some b } } (fieldAt b 16 8) (fieldAt b 0 4) false))
      ∧ (∀ b u, s.pushRetire true = some u → u.pushDescOk b = false →
          Answers (.pushDescriptorRead b) s
            (((u.count (fieldAt b 4 1) 0x14 1).raise { code := fltIngPush, detail := s.push.head, addr := s.push.descAddr }).pushAdvance))
      ∧ (∀ dt d bs u, s.push.current = some d → s.ingests = true →
          (s.modPort 3 (fun p => { p with ticks := p.ticks + dt, stamp := (p.ticks + dt) % 2 ^ 48 })).pushRetire false = some u →
          Answers (.pushUnitReadComplete dt bs) s ((u.pushUnit (fieldAt d 4 1) d bs).pushAdvance)))
  ∧
  (
    ∀ (s : State) (b : List Byte), b.length = 32 →
      (s.pushDescOk b = true ↔ 1 ≤ fieldAt b 0 4 ∧ fieldAt b 0 4 ≤ 8388608 ∧ (s.slot (fieldAt b 4 1)).run ≠ .unconfigured ∧
        (s.slot (fieldAt b 4 1)).cfg.stream.source = 2 ∧ fieldAt b 5 1 ≤ 1 ∧ fieldAt b 6 2 = 0 ∧ fieldAt b 28 4 = 0))

/-! ### Event inputs and outputs (R50 to R56) -/

/-- R50, R52: a level change at a pin leaves the synchroniser two cycles later; there one that differs from the filtered
level starts a filter count with the F then in force, and a change back ends it; when the count completes the line's filtered level changes, and a differing held level
is accepted at the stamp of that cycle where the budget holds an edge, else the edge is dropped and counted.

R51, R50, R56: an accepted active level that lasts the maximum-active timeout marks the line stuck, which reads inactive,
with one fault whose address is the stamp of the active edge; the mark clears after 1 s inactive. Writes of the
selected line's registers: a polarity change is an input change; F outside 2,000 to 2,000,000 and a timeout above
3,600,000 ms are discarded; a shorter timeout marks an overdue line at once. -/
def Obligations.EvtInCommands : Prop :=
  (∀ (s : State) (l dt : Nat), s.up = true → l < 16 →
     let w := s.evtTick dt
     let t := s.evt.ticks + dt
     let x := s.line l
     let y := x.settle t
     (x.sync = [] → y = x)
     ∧ (∀ u v, x.sync = [(u, v)] → t < u → y = x)
     ∧ (∀ u v, x.sync = [(u, v)] → u ≤ t → x.counting = none → y = { x with
         sync := [], input := v, counting := if v = x.filtered then none else some (v, x.filter, u) })
     ∧ (∀ v, (v != x.polarity) = y.given → Answers (.evtInEdge l dt v) s (w.modLine l (fun x => { x.settle t with pin := v })))
     ∧ (∀ v, (v != x.polarity) ≠ y.given →
       Answers (.evtInEdge l dt v) s (w.modLine l (fun x => { x.settle t with pin := v, sync := y.sync ++ [(t + 2, v != x.polarity)] })))
     ∧ (∀ v f st, y.counting = some (v, f, st) → st + f ≤ s.evt.ticks + dt → x.stuck = false → v ≠ x.held →
         edgeCost ≤ x.tokensAt (s.evt.ticks + dt) →
         let z := ({ y with counting := none, filtered := v, inactiveSince := if v then y.inactiveSince else t } : EvtLine).settle t
         Reaches (.evtInFilterAccept l dt) s (fun t =>
           (t.line l).held = v ∧ (t.line l).filtered = v ∧ (t.line l).stamp = (s.evt.ticks + dt) % 2 ^ 48 ∧
           (t.line l).counting = z.counting ∧ (t.line l).drops = x.drops ∧ bit t.evt.events l = true ∧
           (t.line l).tokens = x.tokensAt (s.evt.ticks + dt) - edgeCost ∧ (∀ m, m ≠ l → t.line m = s.line m) ∧
           t = { s with evt := t.evt, slots := t.slots }))
     ∧ (∀ v f st, y.counting = some (v, f, st) → st + f ≤ s.evt.ticks + dt → x.stuck = false → v ≠ x.held →
         x.tokensAt (s.evt.ticks + dt) < edgeCost →
         Reaches (.evtInFilterAccept l dt) s (fun t =>
           (t.line l).held = x.held ∧ (t.line l).filtered = v ∧ (t.line l).drops = (x.drops + 1) % 2 ^ 64 ∧
           (t.line l).stamp = x.stamp ∧ t.slots = s.slots))
     ∧ (x.stuck = false → x.filtered ≠ x.held → edgeCost ≤ x.tokensAt (s.evt.ticks + dt) →
         Reaches (.evtInBudgetRefill l dt) s (fun t =>
           (t.line l).held = x.filtered ∧ (t.line l).stamp = (s.evt.ticks + dt) % 2 ^ 48 ∧ bit t.evt.events l = true))) ∧
  ((
     ∀ (s : State) (l dt : Nat), s.up = true → l < 16 →
       let w := s.evtTick dt
       let x := s.line l
       (x.held = true → x.stuck = false → x.maxMs ≠ 0 → x.activeFrom + x.maxMs * 200000 < s.evt.ticks + dt →
         Answers (.evtInStuck l dt) s ((w.modLine l (fun x => { x with stuck := true, held := false })).raise
           { code := fltEvtStuck, unit := l, addr := x.activeFrom % 2 ^ 48 }))
       ∧ (x.stuck = true → x.filtered = false → x.inactiveSince + 200000000 ≤ s.evt.ticks + dt →
         Answers (.evtInStuckClear l dt) s (w.modLine l (fun x => { x with stuck := false })))
       ∧ (x.stuck = true → x.filtered = false → s.evt.ticks + dt < x.inactiveSince + 200000000 →
         Answers (.evtInStuckClear l dt) s w))
   ∧
   (
     ∀ (s : State) (dt v : Nat), s.up = true →
       let l := s.sel evtSelOff
       Reaches (.evtLineCtrlWrite dt v) s (fun t =>
         t.line l = { ({ (s.line l).settle (s.evt.ticks + dt) with polarity := bit v 0 } : EvtLine).inputAt (s.evt.ticks + dt) with wake := bit v 1 } ∧
         (∀ m, m ≠ l → t.line m = s.line m) ∧ t.evt.ticks = s.evt.ticks + dt)
       ∧ Reaches (.evtLineFilterWrite v) s (fun t =>
         t.line l = (if 2000 ≤ bits v 20 0 ∧ bits v 20 0 ≤ 2000000 then { (s.line l).settle s.evt.ticks with filter := bits v 20 0 } else s.line l) ∧
         (∀ m, m ≠ l → t.line m = s.line m))
       ∧ Reaches (.evtLineMaxactWrite dt v) s (fun t =>
         let ms := if bits v 31 0 ≤ 3600000 then bits v 31 0 else (s.line l).maxMs
         (t.line l).maxMs = ms ∧
         (bits v 31 0 ≤ 3600000 →
           (t.line l).stuck = ((s.line l).stuck ||
             ((s.line l).held && ms != 0 && decide ((s.line l).activeFrom + ms * 200000 < s.evt.ticks + dt)))) ∧
         (∀ m, m ≠ l → t.line m = s.line m))))


/-- R54: SET drives a line active, CLEAR idle, PULSE active for its width and then idle; a new command ends or restarts
a pulse, a width outside 1 to 10,000 ms discards the PULSE, and no other line changes. -/
def Obligations.EvtOutCommands : Prop :=
  ∀ (s : State) (l : Nat), s.up = true → l < 8 →
    Answers (.evtOutSet l) s (s.modOutLine l (fun o => { o with active := true, pulseMs := none }))
    ∧ Answers (.evtOutClear l) s (s.modOutLine l (fun o => { o with active := false, pulseMs := none }))
    ∧ (∀ ms, 1 ≤ ms → ms ≤ 10000 →
        Answers (.evtOutPulse l ms) s (s.modOutLine l (fun o => { o with active := true, pulseMs := some ms })))
    ∧ (∀ ms, ms = 0 ∨ 10000 < ms → Answers (.evtOutPulse l ms) s s)
    ∧ ((s.outLine l).pulseMs ≠ none →
        Answers (.evtOutPulseEnd l) s (s.modOutLine l (fun o => { o with active := false, pulseMs := none })))
    ∧ ((s.outLine l).pulseMs = none → Answers (.evtOutPulseEnd l) s s)

/-! ### Decode (R57 to R91) -/

/-- R71, R72, R74: the released units of a slot wait in its decode queue in order, each with the engine's stamp and
its deadline; a unit that does not fit becomes a token of cause queue overflow. An engine's candidates stand in the
order class, deadline (stamp for replay), slot, whatever the order of the slots; equal keys cannot arise. -/
def Obligations.DecodeOrder : Prop :=
  (∀ (s : State) (n : Nat) (u : AccessUnit),
    let x := s.slot n
    let t := (s.engine x.dec.engine).ticks
    let I := 2800000000 * u.cfg.stream.frDen / (3 * u.cfg.stream.frNum)
    let due := if u.cfg.stream.priority = 0 then some (t + I) else if u.cfg.stream.priority = 1 then some (t + 4 * I) else none
    (u.token ≠ none ∨ x.dec.used + u.bytes.length ≤ x.cfg.stream.queueBytes →
      ((s.handover n u).slot n).dec.queue = x.dec.queue ++ [{ unit := u, stamp := t, deadline := due }] ∧
      ((s.handover n u).slot n).dec.used = x.dec.used + u.bytes.length)
    ∧ (u.token = none → x.cfg.stream.queueBytes < x.dec.used + u.bytes.length →
      ((s.handover n u).slot n).dec.queue = x.dec.queue ++
        [{ unit := { u with token := some 2, bytes := [], incomplete := false }, stamp := t, deadline := due }] ∧
      tget 0 ((s.handover n u).slot n).counters 0x29 = (tget 0 x.counters 0x29 + 1) % 2 ^ 64 ∧
      tget 0 ((s.handover n u).slot n).counters 0x0D = (tget 0 x.counters 0x0D + 1) % 2 ^ 64))
  ∧ (∀ (s : State) (e : Nat), List.Pairwise (fun a b : Nat × QUnit =>
      (a.2.unit.cfg.stream.priority * 2 ^ 80 + a.2.deadline.getD a.2.stamp) * 256 + a.1 ≤
      (b.2.unit.cfg.stream.priority * 2 ^ 80 + b.2.deadline.getD b.2.stamp) * 256 + b.1) (s.heads e))
  ∧ (∀ (s : State) (e : Nat) (p : Nat × QUnit), p ∈ s.heads e →
      ∃ x, (p.1, x) ∈ s.slots ∧ x.dec.engine = e ∧ x.dec.queue.head? = some p.2 ∧ p.2.stamp < (s.engine e).ticks)

/-- R62, R67, R72, R75, R76: what an engine does. A free engine takes the first candidate that is a token or whose slot
can take a buffer; only without one does it restore its yielded picture. At 10 × avg cycles a picture that has not
yielded is saved where no other is yielded; the save frees the engine, the restore resumes the picture. A picture past
100 × avg or its deadline plus I, one that waits for a buffer included, is given up and substituted with cause 5. R73: a
reconfiguration that waited for the picture applies when it has ended (assumption 124). R440: the cycles of a picture count for the
context bound to its slot. -/
def Obligations.DecodeEngine : Prop :=
  ∀ (s : State) (e dt : Nat), s.up = true →
    let w := s.engTick e dt
    let g := w.engine e
    (∀ k c, (s.engine e).st ≠ .idle → (s.engine e).work = some k → (s.slot k.slot).cfg.bound = [c] →
      tget 0 (w.ctxRun c).acct 10 = (tget 0 (s.ctxRun c).acct 10 + dt) % 2 ^ 64)
    ∧ (∀ hdr bad, g.st = .idle → e < s.decoderCount →
      let u := w.markWaits (w.heads e)
      let pick := (w.heads e).find? (fun p => p.2.unit.token.isSome || u.canTakeFb p.1)
      (∀ n q, pick = some (n, q) → Answers (.decodePictureStart e dt hdr bad) s (u.startPic e n q hdr bad))
      ∧ (∀ y, pick = none → g.yielded = some y → Answers (.decodePictureStart e dt hdr bad) s
          (u.modEngine e (fun g => { g with
            st := .restoring, work := some y, yielded := none, slotShown := y.slot, switches := (g.switches + 1) % 2 ^ 64 })))
      ∧ (pick = none → g.yielded = none → Answers (.decodePictureStart e dt hdr bad) s u))
    ∧ (∀ hdr bad, g.st ≠ .idle → Answers (.decodePictureStart e dt hdr bad) s w)
    ∧ (∀ k, g.st = .decoding → g.work = some k → g.yielded = none → k.again = false →
        10 * k.q.unit.cfg.stream.avgCost ≤ k.cycles →
        Answers (.decodeYield e dt) s ((w.count k.slot 0x24 1).modEngine e (fun g => { g with
          st := .saving, work := some { k with again := true }, switches := (g.switches + 1) % 2 ^ 64 })))
    ∧ (g.yielded ≠ none → Answers (.decodeYield e dt) s w)
    ∧ (g.st = .saving → Answers (.decodeSaveDone e dt) s
        (w.modEngine e (fun g => { g with st := .idle, yielded := g.work, work := none, slotShown := 0 })))
    ∧ (g.st = .restoring → Answers (.decodeRestoreDone e dt) s (w.modEngine e (fun g => { g with st := .decoding })))
    ∧ (∀ d k, g.st = .decoding → g.work = some k → (w.slot k.slot).chain.epoch = k.epoch → d.failed = false →
        Answers (.decodeComplete e dt d) s (((w.engFree e).decoded e k d).applyRedo k.slot))
    ∧ (∀ d k, g.st = .decoding → g.work = some k → (w.slot k.slot).chain.epoch = k.epoch → d.failed = true →
        s.follower = false → Answers (.decodeComplete e dt d) s (((w.engFree e).refFailed e k).applyRedo k.slot))
    ∧ (∀ d k, g.st = .decoding → g.work = some k → (w.slot k.slot).chain.epoch ≠ k.epoch →
        Answers (.decodeComplete e dt d) s (((w.engFree e).fbDropSvc k.handle false).applyRedo k.slot))
    ∧ (∀ n k, (s.slot n).dec.engine = e → s.follower = false → g.work = some k → k.slot = n →
        k.epoch = (s.slot n).chain.epoch →
        (100 * k.q.unit.cfg.stream.avgCost ≤ k.cycles ∨
          ∃ t, k.q.deadline = some t ∧ t + k.q.unit.cfg.stream.interval ≤ g.ticks) →
        Answers (.decodeAbandon n dt) s ((((w.engFree e).fbDropSvc k.handle false).substUnit n e k.q.unit 5 false).applyRedo n))
    ∧ (∀ n q qs t, (s.slot n).dec.engine = e → s.follower = false → g.work = none → g.yielded = none →
        (w.slot n).dec.queue = q :: qs → q.unit.token = none → q.deadline = some t →
        t + q.unit.cfg.stream.interval ≤ g.ticks →
        Answers (.decodeAbandon n dt) s (((w.popUnit n).substUnit n e q.unit 5 false).applyRedo n))

/-- R58 to R62, R77, R78, R81: the fate of a head unit. One of enhancement layers alone is discarded. A token is substituted with its cause; while the slot waits, every
picture but a refresh point, the SEI picture of a recovery count and those of a count already running is substituted with
cause 6; then an unsupported profile (3), an excess of the admission (4), a RASL picture (11), and a missing reference
with no earlier picture (8) are substituted; any other picture is decoded. The supported forms are those of the tables. A
refresh point ends the waiting and the
degradation; a recovery count counts down one each picture.

R86 to R88, R69, R70: an entry of the motion field: mean motion per output interval, intra units, residual >> 4
saturated, the change flag by the slot's thresholds and never in a picture without inter blocks, a concealed block
with nothing but its mark. Planes are padded with the nearest sample of the cropping window; JPEG chroma is averaged to 4:2:0. -/
def Obligations.DecodedPictures : Prop :=
  ((∀ f : H265Form, formSupported (.h265 f) = true ↔ (f.profile = .main ∨ f.profile = .main10 ∨ f.profile = .mainStill) ∧ f.level ≤ 62)
   ∧ (∀ f : H264Form, formSupported (.h264 f) = true ↔
       (f.profile = .constrainedBaseline ∨ f.profile = .main ∨ f.profile = .high ∨ f.profile = .high10
         ∨ (f.profile = .baseline ∧ f.fmo = false ∧ f.aso = false ∧ f.redundantSlices = false))
       ∧ f.level ≤ 62 ∧ f.fieldPicture = false ∧ f.mbaff = false)
   ∧ (∀ f : Av1Form, formSupported (.av1 f) = true ↔ f.seqProfile = 0 ∧ f.level ≤ 63 ∧ f.largeScaleTile = false ∧ f.operatingPoint = 0)
   ∧ (∀ f : JpegForm, formSupported (.jpeg f) = true ↔
       f.process = .baseline ∧ f.precision = 8 ∧ (f.components = 1 ∨ f.components = 3) ∧ f.sampling ≠ .other)
   ∧ (∀ (d : SlotDecode) (u : AccessUnit) (h : PicHeader) (f : H265Form), u.token = none → h.readable = true → h.form = .h265 f →
       0 < f.layerId → planOf d u h = .discard)
   ∧ (∀ (d : SlotDecode) (u : AccessUnit) (h : PicHeader), u.token = none → u.shed = 4 → PicKind.irap h.kind = false →
     planOf d u h = .discard)
   ∧ (∀ (d : SlotDecode) (u : AccessUnit) (h : PicHeader), (u.shed ≠ 4 ∨ PicKind.irap h.kind = true) →
       PicHeader.enhancement h = false →
     (∀ c, u.token = some c → planOf d u h = .subst c)
     ∧ (u.token = none →
         let wait := d.waiting ≠ none ∧ d.recoverIn = none ∧
           h.kind ≠ .idr ∧ h.kind ≠ .cra ∧ h.kind ≠ .bla ∧ h.kind ≠ .avKey ∧ h.kind ≠ .jpeg ∧ ∀ k, h.kind ≠ .recovery k
         let big := u.cfg.stream.maxW < h.width ∨ u.cfg.stream.maxH < h.height ∨ u.cfg.stream.depth < h.depth ∨ u.cfg.stream.dpb < h.dpb
         let ok := PicHeader.profileOk h u.cfg.stream
         (wait → planOf d u h = .subst 6)
         ∧ (¬ wait → ok = false → planOf d u h = .subst 3)
         ∧ (¬ wait → ok = true → big → planOf d u h = .subst 4)
         ∧ (¬ wait → ok = true → ¬ big → h.kind = .rasl → planOf d u h = .subst 11)
         ∧ (¬ wait → ok = true → ¬ big → h.kind ≠ .rasl → h.missingRef = true → d.prev = none → planOf d u h = .subst 8)
         ∧ (¬ wait → ok = true → ¬ big → h.kind ≠ .rasl → (h.missingRef = false ∨ d.prev ≠ none) →
             planOf d u h = .decode)))
   ∧ (∀ (d : SlotDecode) (h : PicHeader),
       let r := d.onDecoded h
       (PicKind.irap h.kind = true → r.refresh = true ∧ r.waits = false ∧ r.degraded = h.missingRef ∧ r.dec.waiting = none)
       ∧ (PicKind.irap h.kind = false → ∀ k, d.recoverIn = some (k + 1) →
           r.refresh = false ∧ r.dec.recoverIn = some k ∧ r.dec.waiting = d.waiting ∧ r.waits = d.waiting.isSome)
       ∧ (PicKind.irap h.kind = false → d.recoverIn = some 0 → r.refresh = true ∧ r.dec.waiting = none ∧ r.dec.recoverIn = none)
       ∧ (r.refresh = false → r.degraded = (d.degraded || h.missingRef)))) ∧
  ((∀ (v : StreamCfg) (order : Int) (noInter : Bool) (b : BlockInfo), b.intra16 ≤ 16 →
     let e := blockEntry v order noInter b
     let vs := b.inter.filterMap (fun u => if u.l0.isSome then u.l0 else u.l1)
     let mx := meanMv (vs.map (fun u => perInterval u.mvX (u.order - order)))
     let my := meanMv (vs.map (fun u => perInterval u.mvY (u.order - order)))
     (b.concealed = true → e = 2 ^ 58)
     ∧ (b.concealed = false →
         sgn 16 (bits e 15 0) = mx ∧ sgn 16 (bits e 31 16) = my ∧ bits e 36 32 = b.intra16 ∧ bits e 39 37 = 0 ∧
         bits e 55 40 = min (b.residual / 16) 65535 ∧ bit e 57 = b.skip ∧ bit e 58 = false ∧ bit e 59 = vs.isEmpty ∧
         e < 2 ^ 60 ∧
         (bit e 56 = true ↔ noInter = false ∧ b.skip = false ∧
           (v.tIntra ≤ b.intra16 ∨ v.tMv ≤ mx.natAbs + my.natAbs ∨ v.tRes ≤ min (b.residual / 16) 65535))))
   ∧ (∀ mv : Int, perInterval mv 0 = mv)
   ∧ (∀ mv d : Int, d ≠ 0 → 2 * (perInterval mv d * d - mv).natAbs ≤ d.natAbs ∧
       (2 * (perInterval mv d * d - mv).natAbs = d.natAbs → perInterval mv d % 2 = 0))
   ∧ (∀ (win : Rect) (w cols rows x y : Nat) (rs : List (List Nat)), 0 < win.w → 0 < win.h → (∀ r ∈ rs, r.length = w) →
       win.x + win.w ≤ w → win.y + win.h ≤ rs.length → x < cols → y < rows →
       ((padPlane win cols rows 0 rs).getD y []).getD x 0
         = (rs.getD (min (max y win.y) (win.y + win.h - 1)) []).getD (min (max x win.x) (win.x + win.w - 1)) 0)
   ∧ (∀ w h : Nat, jpegChroma w h [] = List.replicate (ceilDiv w 2 * ceilDiv h 2) 128))


/-! ### Evidence (R92 to R114, R344) -/

/-- R93 to R101, R110, R344: a request that a check fails is refused with that check's code (shedding, standby,
parameters, a host's request for a picture that the ring holds no more, in this order); a clip request while a clip of
the slot still takes post-roll pictures extends it to the later end, up to 1,200 pictures, beyond which a new clip without
pre-roll begins; otherwise it is bound to the lower-numbered engine with room, queued up to 16 requests, or refused. A
binding holds the pictures of the pre-roll ring from the clip's start and reserves its output pages. A snapshot takes a
hold and its pages; a rule's request whose picture is gone only enters the chain and the count (assumption 122). A
release, by the host or by time, frees an output's pages.

R94, R99, R110: what a binding makes; a clip none of whose pictures is held or to come ends at once (assumption 122). -/
def Obligations.EvidenceRequestsAndBinding : Prop :=
  (∀ (s : State) (req : EvidReq), s.ready = true →
     (∀ code, s.evidCheck req = some code →
       Answers (.clipRequest req) s (evidAnswer req (code, 0, s.evidRefuse req code)) ∧
       Answers (.snapshotRequest req) s (evidAnswer req (code, 0, s.evidRefuse req code)))
     ∧ (s.evidShed = true → s.evidCheck req = some fltVenShed)
     ∧ (s.evidCheck req = none → s.clipFits req = false →
       Answers (.clipRequest req) s (evidAnswer req (fltVenParam, 0, s.evidRefuse req fltVenParam)))
     ∧ (∀ c v, s.evidCheck req = none → s.clipFits req = true → s.openClip req.slot = some c →
         let want := max c.last (req.picture + req.postroll)
         let last := min want (c.first + 1199)
         s.resizeReserv c.res (clipPages c.cfg c.num c.den (last + 1 - c.first)) = some v →
         let u := v.modClip c.id (fun c' => { c' with last := last })
         (want ≤ c.first + 1199 → Answers (.clipRequest req) s (evidAnswer req (0, c.id, u)))
         ∧ (c.first + 1199 < want → Answers (.clipRequest req) s (evidAnswer req
             (u.newClip { req with picture := c.first + 1200, preroll := 0, postroll := want - (c.first + 1200) }))))
     ∧ (∀ id o, s.evid.outs.find? (fun o => o.id == id) = some o →
         let t := State.endReserv { s with evid := { s.evid with outs := s.evid.outs.filter (fun o => o.id != id) } } o.res
         Answers (.evidenceRelease id) s t ∧ Answers (.evidenceRetainExpiry id) s t)) ∧
  (∀ (s : State) (req : EvidReq), s.ready = true → s.pwr.step = 0 → s.noAdmission = false →
     req.preroll ≤ 300 → req.postroll ≤ 900 → req.crop = none →
     let x := s.slot req.slot
     let v := x.cfg.stream
     let area := x.evidArea req
     let first := max (req.picture - req.preroll) (((x.ring.head?).map (·.seq)).getD x.dec.outSeq)
     let last := req.picture + req.postroll
     let room := fun (e : Nat) =>
       let l := ratSum [s.encLoad e, (area.w * area.h * v.frNum, v.frDen)]
       l.1 ≤ 500000000 * l.2
     let pages := clipPages x.cfg.evid v.frNum v.frDen (last + 1 - first)
     let id := s.evid.nextId
     let u := s.evidNumber.2.2
     ((req.host = none ∨ ∃ p ∈ x.ring, p.seq = req.picture) → (∀ c ∈ s.evid.clips, c.slot = req.slot → c.last < x.dec.outSeq) →
       (room 0 ∨ room 1 → u.energyAdmits (clipEnergy area.w area.h v.frNum v.frDen) = true →
         (u.reserve 2 pages 0 s.mem.videoSet).isSome = true → x.dec.outSeq ≤ last →
         ∃ t c, Answers (.clipRequest req) s (evidAnswer req (0, id, t)) ∧ t.evid.clips = s.evid.clips ++ [c] ∧ c.id = id ∧
           c.slot = req.slot ∧ c.first = first ∧ c.last = last ∧ (c.engine = 0 ↔ room 0) ∧ c.engine < 2)
       ∧ (¬ room 0 → ¬ room 1 → s.evid.queue.length < 16 → Answers (.clipRequest req) s (evidAnswer req
           (0, id, { u with evid := { u.evid with queue := s.evid.queue ++ [(id, s.evid.nextReq, req)] } })))
       ∧ (¬ room 0 → ¬ room 1 → 16 ≤ s.evid.queue.length → Answers (.clipRequest req) s (evidAnswer req
           (fltVenBusy, 0, s.evidRefuse req fltVenBusy))))
     ∧ (∀ p, x.ring.find? (fun p => p.seq == req.picture) = some p →
         (s.reserve 2 (ceilDiv x.cfg.evid.snapMax pageSize + 1) 0 s.mem.videoSet).isSome = true →
         ∃ t k, Answers (.snapshotRequest req) s (evidAnswer req (0, id, t)) ∧ t.evid.snaps = s.evid.snaps ++ [k] ∧ k.id = id ∧
           k.pic = p ∧ k.q = x.cfg.evid.jpegQ ∧ k.slot = req.slot ∧ k.maxBytes = x.cfg.evid.snapMax)
     ∧ (req.host = none → (∀ p ∈ x.ring, p.seq ≠ req.picture) →
         Answers (.snapshotRequest req) s ((s.evidEntry req.slot 1 0 req.picture req.picture []).count req.slot 0x4A 1))) ∧
  (∀ (s : State) (id no : Nat) (req : EvidReq) (rest : List (Nat × Nat × EvidReq)), s.ready = true →
     s.evid.queue = (id, no, req) :: rest →
     let x := s.slot req.slot
     let v := x.cfg.stream
     let area := x.evidArea req
     let first := max (req.picture - req.preroll) (((x.ring.head?).map (·.seq)).getD x.dec.outSeq)
     let last := req.picture + req.postroll
     let room := fun (e : Nat) =>
       let l := ratSum [s.encLoad e, (area.w * area.h * v.frNum, v.frDen)]
       l.1 ≤ 500000000 * l.2
     (room 0 ∨ room 1 → s.energyAdmits (clipEnergy area.w area.h v.frNum v.frDen) = true →
       (s.reserve 2 (clipPages x.cfg.evid v.frNum v.frDen (last + 1 - first)) 0 s.mem.videoSet).isSome = true → x.dec.outSeq ≤ last →
       Reaches (.clipBind) s (fun t => t.evid.queue = rest ∧ ∃ c, t.evid.clips = s.evid.clips ++ [c] ∧ c.id = id ∧ c.slot = req.slot ∧
         c.first = first ∧ c.last = last ∧ (c.engine = 0 ↔ room 0) ∧ c.engine < 2))
     ∧ (¬ room 0 → ¬ room 1 → Answers (.clipBind) s s)) ∧
  (∀ (s v : State) (id no : Nat) (req : EvidReq), s.bindClip id no req = some (0, v) →
     let x := s.slot req.slot
     let first := req.picture - req.preroll
     let start := max first (((x.ring.head?).map (·.seq)).getD x.dec.outSeq)
     let last := req.picture + req.postroll
     ((∃ p ∈ x.ring, start ≤ p.seq ∧ p.seq ≤ last) ∨ x.dec.outSeq ≤ last →
       ∃ c, v.evid.clips = s.evid.clips ++ [c] ∧ c.id = id ∧ c.slot = req.slot ∧ c.enc = 0 ∧
       c.last = last ∧ c.first = start ∧ c.next = c.first ∧ (c.short = true ↔ first < c.first) ∧
       (∀ p ∈ c.held, p ∈ x.ring ∧ c.first ≤ p.seq ∧ p.seq ≤ c.last) ∧
       (∀ p ∈ x.ring, c.first ≤ p.seq → p.seq ≤ c.last → p ∈ c.held) ∧
       c.engine < 2 ∧
       (let l := ratSum [s.encLoad c.engine, (c.crop.w * c.crop.h * c.num, c.den)]
        l.1 ≤ 500000000 * l.2) ∧
       (c.engine = 1 → let l := ratSum [s.encLoad 0, (c.crop.w * c.crop.h * c.num, c.den)]
        500000000 * l.2 < l.1) ∧
       (v.reserv c.res).count = clipPages c.cfg c.num c.den (c.last + 1 - c.first))
     ∧ ((∀ p ∈ x.ring, ¬ (start ≤ p.seq ∧ p.seq ≤ last)) → last < x.dec.outSeq → (∀ c ∈ s.evid.clips, c.id ≠ id) →
       v.evid.clips = s.evid.clips))


/-- R95, R103 to R109, R112: the encode engines. A free engine takes the work that stands first (by class, snapshots before
clips, request number, slot), first saving another clip's state; a save or restore that ends hands the engine to the
clip; a pass beyond bmax is followed by the next, up to the fallback; a coded picture goes to the clip's output with its
evidence tag (R106) and filler, its holds are dropped and the CPB's fullness follows; a snapshot beyond snap_max_bytes is
encoded again at half its quality at most twice, then given up, and a smaller one is delivered. The CPB never underflows
where the pass kept is within bmax, and never overflows. The refresh columns of a cycle cover the picture once, left to
right; a fallback slice keeps its bound, and QP its range. -/
def Obligations.EncodeEngine : Prop :=
  (∀ (s : State) (e dt : Nat), s.up = true →
    let w := s.encTick e dt
    let g := w.encEngine e
    let prio := fun (n : Nat) => (s.slot n).cfg.stream.priority
    let cand := fun (key : Nat) (x : EncWork) (n : Nat) =>
      (∃ k ∈ s.evid.snaps, EncWork.taken s (.snap k.id) = false ∧ x = .snap k.id ∧ n = k.slot ∧ key = workKey (prio n) 0 k.reqNo n)
      ∨ (∃ c ∈ s.evid.clips, c.engine = e ∧ c.ready = true ∧ x = .clip c.id ∧ n = c.slot ∧ key = workKey (prio n) 1 c.reqNo n)
    let first := fun (x : EncWork) (n : Nat) => ∃ key, cand key x n ∧ ∀ key' x' n', cand key' x' n' → key < key' ∨ (x' = x ∧ n' = n)
    let on := fun (x : EncWork) (n : Nat) => w.modEnc e (fun g => { g with work := some x, slotShown := n, pass := 0 })
    (∀ k n, g.st = 0 → e < 2 → first (.snap k) n →
      Answers (.encodeStart e dt) s ((on (.snap k) n).modEnc e (fun g => { g with st := 1 })))
    ∧ (∀ id n c, g.st = 0 → e < 2 → first (.clip id) n → s.evid.clips.find? (fun c => c.id == id) = some c →
        (g.lastClip = some id → Answers (.encodeStart e dt) s ((on (.clip id) n).modEnc e (fun g => { g with st := 1 })))
        ∧ (g.lastClip = none → Answers (.encodeStart e dt) s ((on (.clip id) n).modEnc e (fun g =>
            if 0 < c.enc then { g with st := 3, lastClip := some c.id, switches := (g.switches + 1) % 2 ^ 64 }
            else { g with st := 1, lastClip := some c.id })))
        ∧ (g.lastClip ≠ some id → g.lastClip ≠ none →
          Answers (.encodeStart e dt) s ((on (.clip id) n).modEnc e (fun g => { g with st := 2, switches := (g.switches + 1) % 2 ^ 64 }))))
    ∧ (g.st = 0 → (∀ key x n, ¬ cand key x n) → Answers (.encodeStart e dt) s w)
    ∧ (g.st ≠ 0 → Answers (.encodeStart e dt) s w)
    ∧ (∀ id c, g.st = 2 → g.work = some (.clip id) → s.evid.clips.find? (fun c => c.id == id) = some c →
        Answers (.encodeSaveDone e dt) s (w.modEnc e (fun g =>
          if 0 < c.enc then { g with st := 3, lastClip := some c.id, switches := (g.switches + 1) % 2 ^ 64 }
          else { g with st := 1, lastClip := some c.id })))
    ∧ (g.st = 3 → Answers (.encodeRestoreDone e dt) s (w.modEnc e (fun g => { g with st := 1 })))
    ∧ (∀ id c r, g.st = 1 → g.work = some (.clip id) → s.evid.clips.find? (fun c => c.id == id) = some c →
        let p := c.nextPic r
        let b := cpbBounds c.cfg c.num c.den c.fullness
        let rep := p.repeats c.enc
        let tag := evidTag c.id c.slot ((p.pic.map (·.pts)).getD 0) c.next (p.marks + 16 * b2n c.short)
        let o := w.encodePass c g.pass (rep || g.pass == 2) (w.clipSource c p).1 tag
        let fill := fillerOf b.1 o.bits
        (b.2 < o.bits → g.pass < 2 → rep = false → Answers (.encodePictureComplete e dt r) s
          ((w.clipSource c p).2.modEnc e (fun g => { g with pass := g.pass + 1 })))
        ∧ (o.bits ≤ b.2 ∨ 2 ≤ g.pass ∨ rep = true → c.next < c.last →
          Reaches (.encodePictureComplete e dt r) s (fun t => ∃ c', t.evid.clips = modWhere (fun d => d.id == c.id) (fun _ => c') s.evid.clips ∧
            c'.enc = c.enc + 1 ∧ c'.next = c.next + 1 ∧ c'.output = c.coded 0 ∧
            c'.coded 0 = c'.output ++ (o.head ++ tagSei tag ++ (o.body ++ fillerNal fill)) ∧
            o.bits = 8 * (o.head.length + (tagSei tag).length + o.body.length) ∧
            c'.fullness = cpbNext c.cfg c.num c.den c.fullness (o.bits + 8 * fill) ∧
            (∀ q ∈ c'.held, q.seq ≠ c.next) ∧ (t.encEngine e).st = 0 ∧ (t.encEngine e).work = none)))
    ∧ (∀ id k failed cache, g.st = 1 → g.work = some (.snap id) → s.evid.snaps.find? (fun k => k.id == id) = some k →
        let image := w.snapImage k failed
        let u := if failed then image.2.encFailed e k.slot (some k.pic) cache else image.2
        (k.maxBytes < image.1.length → k.tries < 2 →
          Reaches (.snapshotComplete e dt failed cache) s (fun t =>
            t.evid.snaps = modWhere (fun j => j.id == k.id) (fun j => { j with q := max 1 (j.q / 2), tries := j.tries + 1 }) s.evid.snaps ∧
            (t.encEngine e).st = 1))
        ∧ (k.maxBytes < image.1.length → 2 ≤ k.tries →
          Reaches (.snapshotComplete e dt failed cache) s (fun t =>
            t.evid.snaps = s.evid.snaps.filter (fun j => j.id != k.id) ∧ (t.encEngine e).st = 0 ∧
            tget 0 (t.slot k.slot).counters 0x49 = (tget 0 (s.slot k.slot).counters 0x49 + 1) % 2 ^ 64))
        ∧ (image.1.length ≤ k.maxBytes →
          let v : State := { u with evid := { u.evid with snaps := u.evid.snaps.filter (fun j => j.id != k.id) } }
          Answers (.snapshotComplete e dt failed cache) s
            ((((v.encFree e).dropEv k.pic).count k.slot 0x48 1).deliverEvid k.slot k.id 1 (Pic.marks k.pic ||| b2n failed)
              k.pic.seq k.pic.seq k.pic.pts k.res image.1))))
  ∧ (∀ (c : EvidCfg) (num den full bits : Nat), 0 < num →
      let k := 90000 * num
      let a := 90000 * c.bitRate * den
      let b := cpbBounds c num den full
      let n := bits + 8 * fillerOf b.1 bits
      (bits ≤ b.2 → bits * k ≤ full)
      ∧ (c.cbr = true → cpbNext c num den full n ≤ c.cpbSize * k)
      ∧ (c.cbr = false → cpbNext c num den full n ≤ c.cpbSize * k)
      ∧ (n * k ≤ full → c.cbr = true → a ≤ cpbNext c num den full n))
  ∧ (∀ n p c : Nat, 0 < p → 0 < n →
      let r := refreshColumns n p c
      r.1 ≤ r.2 ∧ r.2 ≤ c ∧ ((n - 1) % p = 0 → r.1 = 0) ∧ (n % p = 0 → r.2 = c) ∧ (n % p ≠ 0 → (refreshColumns (n + 1) p c).1 = r.2))
  ∧ (∀ (c : Clip) (fw pass before : Nat) (src : List Byte),
      (c.slice fw pass before true src).length ≤ c.fallbackLimit / 8 - before
      ∧ (c.cfg.minQp ≤ c.cfg.maxQp → c.cfg.minQp ≤ c.qp fw 0 src ∧ c.qp fw 0 src ≤ c.cfg.maxQp)
      ∧ c.qp fw 1 src = min (c.qp fw 0 src + 6) 51)

/-! ### Skiver and steering (R116 to R142) -/

/-- R8, R116, R120 to R122, R141: a submission without a held low word, or of an address that is not 64 B aligned, does
nothing; a full queue discards it and sets overflow; else the job waits, with a reference where its buffer is live. A free
unit takes the oldest ready job of the highest class; an invalid one is refused with its fault, one with tables or outputs
in powered-down buffer banks with FLT_CORE_BANK_OFF (R161), and a valid one runs. A completed job frees its unit, drops its reference, and signals done_n.

R126 to R129: a fitted output never exceeds its tensor and fills one axis; the box factor is the largest power of two up
to 16 that keeps D × N within the length; colour stays in the 10-bit domain; and the manual's worked examples: the
BT.709 sample (784, 594, 473), its codes (195, 148, 118), and the W1 canvas (1280 × 720 at 0, 8). -/
def Obligations.SkiverJobs : Prop :=
  ((∀ (s : State) (r : Route) (high : Nat), s.up = true → s.reaches r skvSubmitOff = true →
     (tget none s.heldLow (latchKey r skvSubmitOff) = none → Answers (.skiverSubmit r high) s s)
     ∧ (∀ low, tget none s.heldLow (latchKey r skvSubmitOff) = some low → high < 2 ^ 32 →
         let u : State := { s with heldLow := tset none s.heldLow (latchKey r skvSubmitOff) none }
         let a := low + high * 2 ^ 32
         let j := readJob a (u.seen a 64)
           ((upto 0 (min (fieldAt (u.seen a 64) 5 1) 64)).map (fun i => readRegion (u.seen (a + 64 + 32 * i) 32)))
         (a % 64 ≠ 0 → Answers (.skiverSubmit r high) s u)
         ∧ (a % 64 = 0 → u.populated a = true → 256 ≤ s.skv.queue.length →
             Answers (.skiverSubmit r high) s { u with skv := { u.skv with overflow := true } })
         ∧ (a % 64 = 0 → u.populated a = true → s.skv.queue.length < 256 → (u.fbTake j.fb false).1 = .ok →
             Answers (.skiverSubmit r high) s
               (let v := (u.fbTake j.fb false).2
                { v with skv := { v.skv with queue := v.skv.queue ++ [{ j with refHeld := true }] } }))
         ∧ (a % 64 = 0 → u.populated a = true → s.skv.queue.length < 256 → (u.fbTake j.fb false).1 ≠ .ok →
             Answers (.skiverSubmit r high) s
               (let v := (u.fbTake j.fb false).2
                { v with skv := { v.skv with queue := v.skv.queue ++ [{ j with refHeld := false }] } }))))
   ∧ (∀ (s : State) (u : Nat) (bad : Bool), s.up = true → u < 8 → (s.skvUnit u).job = none →
       (s.nextJob = none → Answers (.skiverJobStart u bad) s s)
       ∧ (∀ j, s.nextJob = some j →
           let v : State := { s with skv := { s.skv with queue := s.skv.queue.erase j } }
           let refused := fun (code : Nat) => (v.skvRelease j).ctxFault j.ctx { code := code, unit := 0x2000 + u, detail := j.slot, addr := j.addr }
           let off := (v.jobWrites j (v.jobOuts j)).any (fun r => v.bufferOff r.1 r.2)
           (v.tablesOff j = true → Answers (.skiverJobStart u bad) s (refused fltCoreBankOff))
           ∧ (v.tablesOff j = false → v.jobFault j = none → off = false → Answers (.skiverJobStart u bad) s (v.runJob u j bad))
           ∧ (v.tablesOff j = false → v.jobFault j = none → off = true → Answers (.skiverJobStart u bad) s (refused fltCoreBankOff))
           ∧ (∀ code, v.tablesOff j = false → v.jobFault j = some code → Answers (.skiverJobStart u bad) s (refused code))))
   ∧ (∀ (s : State) (u dt : Nat) (j : Job), s.up = true → (s.skvUnit u).job = some j →
       Answers (.skiverJobComplete u dt) s
         (((((s.modSkv u (fun x => { x with
             st := 0, job := none, busy := (x.busy + dt) % 2 ^ 64, jobs := (x.jobs + 1) % 2 ^ 64 })).skvRelease j).account j.ctx 8 dt)).sendIncr
           { ctx := j.ctx, core := j.doneCore, ctr := j.doneCtr, n := j.doneN, fromCtx := false, src := 0x100 + u }))
   ∧ (∀ (s : State) (j : Job), s.nextJob = some j →
       s.jobReady j = true ∧ ∃ before after, s.skv.queue = before ++ j :: after ∧
         (∀ k ∈ before, s.jobReady k = true → s.slotClass j.slot < s.slotClass k.slot) ∧
         (∀ k ∈ after, s.jobReady k = true → s.slotClass j.slot ≤ s.slotClass k.slot))
   ∧ (∀ (s : State) (j : Job) (before after : List Job), s.skv.queue = before ++ j :: after → s.jobReady j = true →
       s.slotClass j.slot < 3 → (∀ k ∈ before, s.jobReady k = true → s.slotClass j.slot < s.slotClass k.slot) →
       (∀ k ∈ after, s.jobReady k = true → s.slotClass j.slot ≤ s.slotClass k.slot) → s.nextJob = some j)) ∧
  ((∀ w h tw th fit : Nat, 0 < w → 0 < h → 0 < tw → 0 < th →
     let n := fitSize w h tw th fit
     n.1 ≤ tw ∧ n.2 ≤ th ∧ 1 ≤ n.1 ∧ 1 ≤ n.2 ∧ (n.1 = tw ∨ n.2 = th))
   ∧ (∀ n len : Nat, 0 < n →
       let d := boxFactor n len
       (d = 1 ∨ d = 2 ∨ d = 4 ∨ d = 8 ∨ d = 16) ∧ (d = 1 ∨ d * n ≤ len) ∧ (d = 16 ∨ len < 2 * d * n))
   ∧ (∀ colour y cb cr : Nat, (toRgb colour y cb cr).length = 3 ∧ ∀ c ∈ toRgb colour y cb cr, c ≤ 1023)
   ∧ toRgb 1 600 440 600 = [784, 594, 473]
   ∧ (∀ o : OutDesc, o.fmt = 0 → o.zp = 0 → o.mul = [16336, 16336, 16336] → o.shift = [16, 16, 16] → o.add = [0, 0, 0] →
       [o.quant 0 784, o.quant 1 594, o.quant 2 473] = [195, 148, 118])
   ∧ (∀ o : OutDesc, o.tw = 1280 → o.th = 736 → o.fit = 1 → o.place 1920 1080 = (1280, 720, 0, 8))
   ∧ (axisOf 1280 1920 0).tap 0 = (0, 16) ∧ (axisOf 1280 1920 0).tap 1 = (1, 48) ∧ (axisOf 1280 960 16384).tap 0 = (0, 8)
   ∧ (∀ o : OutDesc, o.fmt = 0 ∨ o.fmt = 1 ∨ o.fmt = 5 → ∀ c e : Nat,
       o.quant c e < 2 ^ (8 * o.esize)))


/-- R134 to R137: the next picture of a slot is steered when its predecessor's association has ended. A substituted picture
gets a null job; a slot without a detector none. On a good one a scheduled or forced sweep covers the whole picture;
otherwise the tracks' and motion's rectangles, merged; none left is a null job, too many compute tiles a sweep. A detector
that takes crops gets them grown, those that cannot be left out and counted (R138).

R135, R136: merging leaves at most region_max rectangles, and every rectangle lies inside one that is left, so that
the coverage of R140 rests on the margins alone. -/
def Obligations.SteeringOutcome : Prop :=
  ((∀ (s : State) (n c : Nat) (bad : Bool) (p : Pic) (rest : List Pic), s.ready = true → (s.slot n).pics = p :: rest →
     s.steerable n p = true →
     (p.cfg.det = none → Answers (.steeringBuild n bad) s (s.steerDone n p.subst.isNone))
     ∧ (p.cfg.det = some c → (s.ctx c).live = true → p.subst ≠ none →
         Answers (.steeringBuild n bad) s (((s.submitPic n c 0 false p [] 2).count n 0x64 1).steerDone n false))
     ∧ (∀ h u d o, p.cfg.det = some c → (s.ctx c).live = true → p.subst = none → bad = false → p.handle = some h →
         s.readField h p = (none, u) → (u.ctx c).decl = some d →
         (let outs := (upto 0 d.skv.nOut).map (fun i => readOut (u.seen ((u.ctx c).imageAddr d.skv.outOff + 64 * i) 64))
          outs[canvasOf outs]? = some o →
          let st := steer p.cfg o p ((liveTracks (u.slot n).trk.tracks).map (·.2))
            (if p.noInter then [] else u.changedBlocks h p.width p.height) (u.slot n).dec.afterSubst (p.shed == 3 || p.shed == 4)
          let rs := if o.canvas then st.regions else st.regions.filterMap (fun r =>
            (growRegion ⟨r.x, r.y, r.w, r.h⟩ o.tw o.th o.fit p.width p.height).map (fun g => { r with x := g.x, y := g.y, w := g.w, h := g.h }))
          Answers (.steeringBuild n bad) s
            (((u.submitPic n c (canvasOf outs) (!o.canvas) p rs (if rs = [] then 2 else st.flags)).counts n
              (st.counts ++ [(0x69, st.regions.length - rs.length)])).steerDone n true)))
     ∧ (p.cfg.det = some c → (s.ctx c).live = false → p.subst = none →
         Answers (.steeringBuild n bad) s ((s.substFront n 10 p).steerDone n false)))
   ∧ (∀ (s : State) (n : Nat) (bad : Bool), s.ready = true →
       ((s.slot n).pics = [] ∨ ∃ p rest, (s.slot n).pics = p :: rest ∧ s.steerable n p = false) →
       Answers (.steeringBuild n bad) s s)
   ∧ (∀ (cfg : SlotCfg) (o : OutDesc) (p : Pic) (ts : List Track) (ch : List Nat) (forced shed : Bool),
       let r := steer cfg o p ts ch forced shed
       (shed = false → (p.seq % cfg.stream.sweepN = cfg.steer.sweepPhase ∨ forced = true) →
         r.regions = [{ x := 0, y := 0, w := p.width, h := p.height, origin := 4 }] ∧ bit r.flags 0 = true ∧ bit r.flags 2 = forced)
       ∧ (shed = true ∨ (p.seq % cfg.stream.sweepN ≠ cfg.steer.sweepPhase ∧ forced = false) →
           let rects := ts.filterMap (fun t => trackRegion cfg t p.pts p.width p.height) ++
             (if p.noInter then [] else motionRegions cfg.steer ch p.width p.height)
           let m := (mergeRegions cfg.steer.regionMax rects.length rects).1
           (m = [] → r.regions = [] ∧ r.flags = 2)
           ∧ (m ≠ [] → (shed = true ∨ (o.tiles false m p.width p.height).1.length * 100 ≤ cfg.steer.promote * (o.tilesW * o.tilesH)) →
               r.regions = m ∧ r.flags = 0)
           ∧ (m ≠ [] → shed = false → cfg.steer.promote * (o.tilesW * o.tilesH) < (o.tiles false m p.width p.height).1.length * 100 →
               r.regions = [{ x := 0, y := 0, w := p.width, h := p.height, origin := 4 }] ∧ r.flags = 1)))) ∧
  (∀ (limit : Nat) (rs : List Region), 1 ≤ limit →
     let m := mergeRegions limit rs.length rs
     m.1.length ≤ limit ∧ m.1.length + m.2 = rs.length ∧
     ∀ a ∈ rs, ∃ b ∈ m.1, b.x ≤ a.x ∧ b.y ≤ a.y ∧ a.x + a.w ≤ b.x + b.w ∧ a.y + a.h ≤ b.y + b.h)



/-! ### Dziad core and cluster (R143 to R175) -/

/-- R145, R150, R148: scalar results, wrapping at 32 bits, for every word at the PC of a core that can issue, with the
registers and the immediate at the word's bits of RR and RI: arithmetic, logic, comparisons, shifts below 32 (a shift
by 32 or more writes a free value), products and their high words, quotients and remainders with the corners by zero
and of −2^31 by −1 (elsewhere rounded toward zero: log entry 126, the model's choice); branches to (current + offset)
mod 2,048 by the bits of BR, a jump with its return index; the control and status registers. Each retires: the PC and
the counts move on.

R143, R146: what a core's register files hold after a write: s0 reads zero and m0 all ones whatever is written; any
other register reads what was written, and no register of another number or core changes. -/
def Obligations.ScalarResults : Prop :=
  (∀ (s : State) (c : Nat) (f : ScalarFields), s.up = true → (s.core c).issues f.word = true →
     let a := s.sreg c (f.word.field 46 42)
     let b := if f.immediate then BitVec.ofNat 32 (f.word.field 31 0) else s.sreg c (f.word.field 41 37)
     let rd := f.word.field 51 47
     let zeros := if f.immediate then f.word.field 41 32 else f.word.field 36 0
     (coreClass f.word = some .alu → zeros = 0 →
      (∀ p ∈ ([(.add, a + b), (.sub, a - b), (.and, a &&& b), (.or, a ||| b), (.xor, a ^^^ b)
         , (.slt, if a.toInt < b.toInt then 1#32 else 0#32), (.sltu, if a.toNat < b.toNat then 1#32 else 0#32)
         , (.min, if a.toInt < b.toInt then a else b), (.max, if a.toInt < b.toInt then b else a)
         , (.minu, if a.toNat < b.toNat then a else b), (.maxu, if a.toNat < b.toNat then b else a)] : List (AluOp × Word)),
       Answers (.scalarAlu c p.1 f) s ((s.setS c rd p.2).retire c))
     ∧ (b.toNat < 32 → ∀ p ∈ ([(.sll, a <<< b.toNat), (.srl, a >>> b.toNat), (.sra, a.sshiftRight b.toNat)] : List (AluOp × Word)),
         Answers (.scalarAlu c p.1 f) s ((s.setS c rd p.2).retire c))
     ∧ (32 ≤ b.toNat → ∀ op ∈ [AluOp.sll, .srl, .sra],
         Answers (.scalarAlu c op f) s (((s.draw 32).2.setS c rd (BitVec.ofNat 32 (s.draw 32).1)).retire c)))
     ∧ (coreClass f.word = some .muldiv → f.immediate = false → zeros = 0 →
         (∀ p ∈ ([(.mul, a * b), (.mulhu, BitVec.ofNat 32 (a.toNat * b.toNat / 2 ^ 32))
             , (.mulh, BitVec.ofInt 32 (a.toInt * b.toInt / 2 ^ 32))] : List (MulOp × Word)),
           Answers (.scalarMuldiv c p.1 f) s ((s.setS c rd p.2).retire c))
         ∧ (b = 0#32 → ∀ p ∈ ([(.div, 0xFFFFFFFF#32), (.divu, 0xFFFFFFFF#32), (.rem, a), (.remu, a)] : List (MulOp × Word)),
           Answers (.scalarMuldiv c p.1 f) s ((s.setS c rd p.2).retire c))
         ∧ (a = 0x80000000#32 → b = 0xFFFFFFFF#32 → ∀ p ∈ ([(.div, 0x80000000#32), (.rem, 0#32)] : List (MulOp × Word)),
           Answers (.scalarMuldiv c p.1 f) s ((s.setS c rd p.2).retire c))
         ∧ (b ≠ 0#32 → ¬ (a = 0x80000000#32 ∧ b = 0xFFFFFFFF#32) → ∀ p ∈ ([(.div, BitVec.ofInt 32 (a.toInt.tdiv b.toInt))
             , (.rem, BitVec.ofInt 32 (a.toInt.tmod b.toInt))] : List (MulOp × Word)),
           Answers (.scalarMuldiv c p.1 f) s ((s.setS c rd p.2).retire c))
         ∧ (b ≠ 0#32 → ∀ p ∈ ([(.divu, BitVec.ofNat 32 (a.toNat / b.toNat)), (.remu, BitVec.ofNat 32 (a.toNat % b.toNat))] : List (MulOp × Word)),
           Answers (.scalarMuldiv c p.1 f) s ((s.setS c rd p.2).retire c)))) ∧
  (∀ (s : State) (c : Nat) (w : IWord), s.up = true → (s.core c).issues w = true →
     let rd := w.field 51 47
     (coreClass w = some .branch →
         let rs1 := w.field 46 42
         let rs2 := w.field 41 37
         let off := sgn 32 (w.field 31 0)
         let x := s.sreg c rs1
         let y := s.sreg c rs2
         let go : State := (s.modCore c (fun k => { k with pc := ((((s.core c).pc : Int) + off - 1) % 2048).toNat })).retire c
         (∀ p ∈ [(0, Cond.eq, x == y), (1, .ne, x != y), (2, .lt, decide (x.toInt < y.toInt)), (3, .ge, decide (y.toInt ≤ x.toInt))
             , (4, .ltu, decide (x.toNat < y.toNat)), (5, .geu, decide (y.toNat ≤ x.toNat))], w.field 36 32 = p.1 →
           Answers (.branch c rd rs1 rs2 p.2.1 off w) s (if p.2.2 then go else s.retire c))
         ∧ (w.field 36 32 = 6 → Reaches (.branch c rd rs1 rs2 .always off w) s (fun t =>
             ((t.core c).pc : Int) = ((s.core c).pc + off) % 2048 ∧ (rd ≠ 0 → t.sreg c rd = BitVec.ofNat 32 (((s.core c).pc + 1) % 2048)) ∧
             (∀ r, r ≠ rd ∨ r = 0 → t.sreg c r = s.sreg c r)))
         ∧ ((go.core c).pc : Int) = ((s.core c).pc + off) % 2048)
     ∧ (coreClass w = some .csr → w.field 41 32 = 0 →
         let csr := w.field 31 0
         (∀ p ∈ [(0, (s.ctx (s.core c).ctx).relCore c), (1, (s.ctx (s.core c).ctx).k), (2, (s.core c).ctx), (5, (s.core c).pwr)
             , (6, ownBits (s.core c))], csr = p.1 →
           Answers (.csrRead c rd csr w) s ((s.setS c rd (BitVec.ofNat 32 p.2)).retire c))
         ∧ (csr ≠ 3 → Reaches (.csrRead c rd csr w) s (fun t => ∀ r, r ≠ rd ∨ r = 0 → t.sreg c r = s.sreg c r))
         ∧ (csr = 3 → Reaches (.csrRead c rd 3 w) s (fun t => (rd ≠ 0 → (t.sreg c rd).toNat = (t.core c).cycle % 2 ^ 32) ∧
             (t.core c).cycleHi = some ((t.core c).cycle / 2 ^ 32))))) ∧
  (∀ (s : State) (c c' r r' m : Nat) (v : Word) (x : BitVec 512), m < 2 ^ 64 →
     s.sreg c 0 = 0#32 ∧ s.mreg c 0 = 2 ^ 64 - 1
     ∧ (s.setS c r v).sreg c' r' = (if c' = c ∧ r' = r ∧ r ≠ 0 then v else s.sreg c' r')
     ∧ (s.setM c r m).mreg c' r' = (if c' = c ∧ r' = r ∧ r ≠ 0 then m else s.mreg c' r')
     ∧ (s.setV c r x).vreg c' r' = (if c' = c ∧ r' = r then x else s.vreg c' r')
     ∧ ((s.setS c r v).retire c).core c = { (s.setS c r v).core c with
         pc := ((s.core c).pc + 1) % 2048, retired := ((s.core c).retired + 1) % 2 ^ 64 })


/-- R147, R159, R161: a scalar access of 1, 2 or 4 bytes, naturally aligned, inside the populated offsets, to powered
banks that the scalar unit owns, of lines whose check holds: a load writes rd, sign-extended where its operation says
so, and changes no byte; a store changes the accessed bytes and no other. A vector access moves 64 B under its mask.
Outside the offsets or misaligned it is not performed: FLT_CORE_ADDR; a bank that is off or owned by another engine:
FLT_CORE_BANK_OFF and FLT_CORE_BANK_OWN. -/
def Obligations.ScratchpadAccess : Prop :=
  ∀ (s : State) (c : Nat), s.up = true → c < 2048 →
    (∀ (f : ScalarFields) (n : Nat) (e : ReadErrors), (s.core c).issues f.word = true → coreClass f.word = some .loadStore →
      f.immediate = true → f.word.field 41 32 = 0 → n ∈ [1, 2, 4] →
      let off := (s.sreg c (f.word.field 46 42) + BitVec.ofNat 32 (f.word.field 31 0)).toNat
      let rd := f.word.field 51 47
      let k := s.core c
      let fault := fun (code : Nat) => s.ctxFault k.ctx { code := code, unit := c, detail := k.pc, addr := off }
      (off + n ≤ 0x20000 → off % n = 0 → (∀ b ∈ banksOf off n, bit k.pwr b = true ∧ tget 0 k.own b = 0) →
        ((∀ l ∈ linesOf (coreBase c + off) n, s.lineFails l = false ∧ l ∉ e.failing) →
          (∀ signed, Answers (.scalarLoadStore c (.load n signed) f e) s ((s.setS c rd
            (if signed then BitVec.ofInt 32 (sgn (8 * n) (s.rdNat (coreBase c + off) n)) else BitVec.ofNat 32 (s.rdNat (coreBase c + off) n))).retire c))
          ∧ Reaches (.scalarLoadStore c (.store n) f e) s (fun t => t.rdNat (coreBase c + off) n = (s.sreg c rd).toNat % 2 ^ (8 * n) ∧
              (∀ a, a < coreBase c + off ∨ coreBase c + off + n ≤ a → t.rdByte a = s.rdByte a) ∧
              (∀ r, t.sreg c r = s.sreg c r) ∧ (t.core c).pc = (k.pc + 1) % 2048)))
      ∧ ((0x20000 < off + n ∨ off % n ≠ 0) → (∀ signed, Answers (.scalarLoadStore c (.load n signed) f e) s (fault fltCoreAddr))
          ∧ Answers (.scalarLoadStore c (.store n) f e) s (fault fltCoreAddr))
      ∧ (off + n ≤ 0x20000 → off % n = 0 → (∃ b ∈ banksOf off n, bit k.pwr b = false) →
          (∀ signed, Answers (.scalarLoadStore c (.load n signed) f e) s (fault fltCoreBankOff))
          ∧ Answers (.scalarLoadStore c (.store n) f e) s (fault fltCoreBankOff))
      ∧ (off + n ≤ 0x20000 → off % n = 0 → (∀ b ∈ banksOf off n, bit k.pwr b = true) → (∃ b ∈ banksOf off n, tget 0 k.own b ≠ 0) →
          (∀ signed, Answers (.scalarLoadStore c (.load n signed) f e) s (fault fltCoreBankOwn))
          ∧ Answers (.scalarLoadStore c (.store n) f e) s (fault fltCoreBankOwn)))
    ∧ (∀ (f : VecFields), (s.core c).issues f.word = true → coreClass f.word = some .vmem → arithType f.ty = true →
      f.word.field 41 32 = 0 → f.word.field 24 17 = 0 →
      let base := f.word.field 46 42
      let imm := f.word.field 16 0
      let off := ((s.sreg c base).toNat + imm) % 2 ^ 32
      let k := s.core c
      (off + 64 ≤ 0x20000 → off % 64 = 0 → (∀ b ∈ banksOf off 64, bit k.pwr b = true ∧ tget 0 k.own b = 1) →
        ((∀ l ∈ linesOf (coreBase c + off) 64, s.lineFails l = false) →
          Answers (.vectorLoadStore c false f base imm) s
            (((s.setLanes c f (elemBits f.ty) ((lanes (elemBits f.ty) (BitVec.ofNat 512 (s.rdNat (coreBase c + off) 64))).map some)).vecBusy c).retire c)
          ∧ Reaches (.vectorLoadStore c true f base imm) s (fun t =>
              (∀ i < 64, t.rdByte (coreBase c + off + i) =
                if bit (s.mreg c f.mask) (i / (elemBits f.ty / 8)) then BitVec.ofNat 8 ((s.vreg c f.vd).toNat / 256 ^ i)
                else s.rdByte (coreBase c + off + i)) ∧
              (∀ a, a < coreBase c + off ∨ coreBase c + off + 64 ≤ a → t.rdByte a = s.rdByte a) ∧
              (∀ r, t.vreg c r = s.vreg c r))))
      ∧ ((0x20000 < off + 64 ∨ off % 64 ≠ 0) → ∀ st, Answers (.vectorLoadStore c st f base imm) s
          (s.ctxFault k.ctx { code := fltCoreAddr, unit := c, detail := k.pc, addr := off })))

/-- R146, R150, R208, R210, R249: the vector unit, with the registers, mask and type at the bits of VV. A lane that the mask leaves out keeps its value; a masked lane takes the operation's
result where the spec states one, else a free value; a reduction combines the fixed binary tree of its lanes; a
comparison and mask logic write mask registers; conversions, permutations and broadcasts write their lanes. Each
retires with the vector unit's busy count. -/
def Obligations.VectorUnit : Prop :=
  (∀ (f : VecFields), f.vd = f.word.field 51 47 ∧ f.vs1 = f.word.field 46 42 ∧ f.vs2 = f.word.field 41 37 ∧
    f.vs3 = f.word.field 36 32 ∧ f.mask = f.word.field 31 29 ∧ f.ty = f.word.field 28 25) ∧
  (∀ (s : State) (c : Nat) (f : VecFields), s.up = true → (s.core c).issues f.word = true →
    let zero := f.word.field 24 0 = 0
    let is := fun (k : CoreClass) => coreClass f.word = some k
    let w := elemBits f.ty
    let a := lanes w (s.vreg c f.vs1)
    let b := lanes w (s.vreg c f.vs2)
    let d := lanes w (s.vreg c f.vs3)
    let out := fun (xs : List (Option Nat)) => ((s.setLanes c f w xs).vecBusy c).retire c
    (is .vint → intType f.ty = true →
      (zero → ∀ op ∈ [VIntOp.add, .sub, .mul, .and, .or, .xor, .sll, .srl, .sra, .min, .max],
        Answers (.vectorInt c op f) s (out ((a.zip b).map (fun p => vIntLane op f.ty p.1 p.2))))
      ∧ (∀ r zp zo lo hi, r < 32 → codeMin f.ty ≤ lo → lo ≤ hi → hi ≤ codeMax f.ty →
        Answers (.vectorInt c (.scaleChannel r zp zo lo hi) f) s (out ((a.zip (if w = 8 then lanes 16 (s.vreg c f.vs2) ++ lanes 16 (s.vreg c f.vs3)
          else lanes 16 (s.vreg c f.vs2))).map (fun p => some (scaleLane f.ty r zp zo lo hi p.1 p.2)))))
      ∧ (zero → f.ty = 11 → Answers (.vectorInt c .scaleAcc f) s
          (out ((a.zip b).map (fun p => some (wrap 32 (rshiftRne (sgn 32 p.1 * (p.2 : Int)) 15)))))))
    ∧ (is .vfloat → zero → floatType f.ty = true → ∀ op ∈ [VFloatOp.add, .sub, .mul, .fma, .min, .max],
        Answers (.vectorFloat c op f) s (out ((a.zip (b.zip d)).map (fun p => vFloatLane op f.ty p.1 p.2.1 p.2.2))))
    ∧ (arithType f.ty = true →
        (is .vreduce → zero → ∀ op ∈ [VRedOp.add, .min, .max, .and, .or, .xor], Answers (.vectorReduction c op f) s
          (out (redTree op f.ty 6 (a.map some) :: ((lanes w (s.vreg c f.vd)).drop 1).map some)))
        ∧ (is .vcompare → zero → ∀ op ∈ [VCmpOp.eq, .lt, .le], Answers (.vectorCompare c op f) s (((s.vecCompare c op f).vecBusy c).retire c) ∧
            (f.vd % 8 ≠ 0 → ∀ i x y, a[i]? = some x → b[i]? = some y →
              (bit (s.mreg c f.mask) i = false → bit ((s.vecCompare c op f).mreg c (f.vd % 8)) i = bit (s.mreg c (f.vd % 8)) i)
              ∧ (∀ v, bit (s.mreg c f.mask) i = true → vCmpLane op f.ty x y = some v →
                  bit ((s.vecCompare c op f).mreg c (f.vd % 8)) i = v)))
        ∧ (is .vcompare → zero → Answers (.vectorCompare c .select f) s (((s.setV c f.vd (ofLanes w
            (((upto 0 a.length).zip (a.zip b)).map (fun p => if bit (s.mreg c f.mask) p.1 then p.2.1 else p.2.2)))).vecBusy c).retire c))
        ∧ (is .vpermute → zero → Answers (.vectorPermute c .permute f) s (out (b.map (fun i => a[i]?))))
        ∧ (is .vpermute → ∀ n, Answers (.vectorPermute c (.broadcastLane n) f) s (out (a.map (fun _ => a[n]?))))
        ∧ (is .vpermute → zero → Answers (.vectorPermute c .broadcastScalar f) s
            (out (a.map (fun _ => some ((s.sreg c f.vs1).toNat % 2 ^ w))))))
    ∧ (is .vcompare → zero → ∀ p ∈ [(VCmpOp.maskAnd, s.mreg c (f.vs1 % 8) &&& s.mreg c (f.vs2 % 8)), (.maskOr, s.mreg c (f.vs1 % 8) ||| s.mreg c (f.vs2 % 8))
          , (.maskXor, s.mreg c (f.vs1 % 8) ^^^ s.mreg c (f.vs2 % 8)), (.maskNot, 2 ^ 64 - 1 - s.mreg c (f.vs1 % 8))],
        Answers (.vectorCompare c p.1 f) s (((s.setM c (f.vd % 8) p.2).vecBusy c).retire c))
    ∧ (is .vconvert → f.ty ≤ 11 → f.ty2 ≤ 11 → Answers (.vectorConversion c f) s (((s.vecConvert c f).vecBusy c).retire c)))
  ∧ (∀ (op : VRedOp) (ty n : Nat) (xs ys : List (Option Nat)), xs.length = 2 ^ n → ys.length = 2 ^ n →
      redTree op ty (n + 1) (xs ++ ys) = redPair op ty (redTree op ty n xs) (redTree op ty n ys))
  ∧ (∀ (s : State) (c : Nat) (f : VecFields) (w i : Nat) (new : List (Option Nat)), w ∈ [8, 16, 32] → new.length = 512 / w → i < 512 / w →
      (∀ x ∈ new, ∀ v, x = some v → v < 2 ^ w) →
      let r := lanes w ((s.setLanes c f w new).vreg c f.vd)
      (bit (s.mreg c f.mask) i = false → r[i]? = (lanes w (s.vreg c f.vd))[i]?)
      ∧ (∀ v, bit (s.mreg c f.mask) i = true → new[i]? = some (some v) → r[i]? = some v))
  ∧ (∀ (op : VIntOp) (ty a b v : Nat), op ∈ [VIntOp.add, .sub, .mul] → intType ty = true →
      (vIntLane op ty a b = some v ↔ v < 2 ^ elemBits ty ∧
        intVal ty v = (if op = .add then intVal ty a + intVal ty b else if op = .sub then intVal ty a - intVal ty b else intVal ty a * intVal ty b)))

/-- R149, R151, R154, R143: what stops an instruction at issue. A word of a reserved class or, where the spec numbers its
functions, of an undefined one, an undefined function of the other classes, a reserved condition, a type that its
class does not allow, a non-zero bit of a zero field, or a value outside its encoding faults the context with
FLT_CORE_ILLEGAL, before any other effect; a PC in an invalid block waits for its fill, and with none pending faults with
FLT_CORE_IFETCH; behind a waiting instruction, or on a core that does not run, nothing issues; a full engine queue
leaves the instruction at the head of the stream. -/
def Obligations.IssueRefusals : Prop :=
  ∀ (s : State) (c : Nat), s.up = true →
    let k := s.core c
    let illegal := fun (a : Nat) => s.ctxFault k.ctx { code := fltCoreIllegal, unit := c, detail := k.pc, addr := a }
    let words := fun (w : IWord) => [Instr.lds c w, .strm c w, .ostr c w, .odrn c w, .oclr c w, .nrw c w, .nrwf c w, .lutl c w, .dld c w
      , .ags c w, .tnx c w, .agd c w, .trd c w, .sig c w, .sigr c w, .wait c w, .waitr c w, .dec c w, .read c w, .wfa c w, .wset c w
      , .wrd c w, .bk c w, .nop c w, .endProgram c w, .breakpoint c w, .instructionFill c w, .dmaIssue c w]
    (k.canIssue = true →
      let is := fun (x : CoreClass) => coreClass k.word = some x
      (∀ w : IWord, coreClass w = none ↔ (w.field 63 58 ∈ [0x08, 0x09, 0x0A, 0x0B, 0x0C, 0x0D, 0x0E, 0x0F, 0x1D, 0x1E, 0x1F, 0x23
          , 0x28, 0x29, 0x2A, 0x2B, 0x2C, 0x2D, 0x2E, 0x2F, 0x32, 0x33, 0x37, 0x39, 0x3A, 0x3B, 0x3C, 0x3D, 0x3E] ∨
        (w.field 63 58 ∈ [0x20, 0x21, 0x25, 0x27, 0x30, 0x31, 0x38] ∧ w.field 57 52 ≠ 0) ∨ (w.field 63 58 = 0x24 ∧ 1 < w.field 57 52) ∨
        (w.field 63 58 ∈ [0x22, 0x36, 0x3F] ∧ 2 < w.field 57 52) ∨ (w.field 63 58 ∈ [0x26, 0x34] ∧ 3 < w.field 57 52) ∨
        (w.field 63 58 = 0x35 ∧ 1 < w.field 57 52)))
      ∧ (coreClass k.word = none → ∀ i ∈ words k.word, Answers i s (illegal k.word.toNat))
      ∧ (∀ f op e, f.word = k.word → f.zeros ≠ 0 → (is .alu → Answers (.scalarAlu c op f) s (illegal k.word.toNat)) ∧
          (is .muldiv → f.immediate = false → ∀ op, Answers (.scalarMuldiv c op f) s (illegal k.word.toNat)) ∧
          (is .loadStore → f.immediate = true → ∀ op, Answers (.scalarLoadStore c op f e) s (illegal k.word.toNat)))
      ∧ (∀ f e, f.word = k.word → (is .alu → Answers (.scalarAlu c .undefined f) s (illegal k.word.toNat)) ∧
          (is .muldiv → f.immediate = false → Answers (.scalarMuldiv c .undefined f) s (illegal k.word.toNat)) ∧
          (is .loadStore → f.immediate = true → Answers (.scalarLoadStore c .undefined f e) s (illegal k.word.toNat)))
      ∧ (is .branch → 7 ≤ k.word.field 36 32 → Answers (.branch c (k.word.field 51 47) (k.word.field 46 42) (k.word.field 41 37) .reserved
          (sgn 32 (k.word.field 31 0)) k.word) s (illegal k.word.toNat))
      ∧ (is .csr → k.word.field 41 32 ≠ 0 → Answers (.csrRead c (k.word.field 51 47) (k.word.field 31 0) k.word) s (illegal k.word.toNat))
      ∧ (∀ (f : VecFields), f.word = k.word → f.zeros ≠ 0 ∨ f.ty ∉ [0, 1, 5, 8, 9, 10, 11] →
          ∀ p ∈ [(CoreClass.vint, Instr.vectorInt c .add f), (.vfloat, .vectorFloat c .add f), (.vcompare, .vectorCompare c .lt f)
              , (.vreduce, .vectorReduction c .add f), (.vpermute, .vectorPermute c .permute f)], is p.1 → Answers p.2 s (illegal k.word.toNat))
      ∧ (∀ (f : VecFields) (st : Bool), f.word = k.word → is .vmem → f.memZeros ≠ 0 ∨ f.ty ∉ [0, 1, 5, 8, 9, 10, 11] →
          Answers (.vectorLoadStore c st f (k.word.field 46 42) (k.word.field 16 0)) s (illegal k.word.toNat))
      ∧ (∀ (f : VecFields), f.word = k.word → is .vfloat → f.ty ∉ [8, 9, 10] → ∀ op, Answers (.vectorFloat c op f) s (illegal k.word.toNat))
      ∧ (∀ (f : VecFields), f.word = k.word → is .vconvert → 11 < f.ty ∨ 11 < f.ty2 → Answers (.vectorConversion c f) s (illegal k.word.toNat))
      ∧ (∀ p ∈ [(CoreClass.nop, Instr.nop c k.word), (.endProgram, .endProgram c k.word), (.breakpoint, .breakpoint c k.word)],
          is p.1 → k.word.field 51 0 ≠ 0 → Answers p.2 s (illegal k.word.toNat))
      ∧ (is .bk → k.word.field 45 0 ≠ 0 ∨ 8 ≤ k.word.field 51 48 → Answers (.bk c k.word) s (illegal k.word.toNat))
      ∧ (is .dma → k.word.field 49 20 ≠ 0 → Answers (.dmaIssue c k.word) s (illegal k.word.toNat))
      ∧ (is .dma → k.word.field 49 20 = 0 → 4 ≤ tget 0 k.queues 3 →
          Answers (.dmaIssue c k.word) s (s.modCore c (fun x => { x with stalled := some (.dmaIssue c k.word) }))))
    ∧ (∀ w f g op mop rd r1 r2 cond off csr base imm st e,
        ∀ i ∈ words w ++ [Instr.scalarAlu c op f, .scalarMuldiv c mop f, .scalarLoadStore c (.load 4 false) f e
            , .branch c rd r1 r2 cond off w, .csrRead c rd csr w, .vectorInt c .add g, .vectorFloat c .add g, .vectorCompare c .lt g
            , .vectorReduction c .add g, .vectorConversion c g, .vectorPermute c .permute g, .vectorLoadStore c st g base imm],
          (k.st ≠ .running ∨ k.stalled ≠ none ∨ k.wait ≠ none → Answers i s s)
          ∧ (k.st = .running → k.stalled = none → k.wait = none → bit k.valid (k.pc / 64) = false →
              (k.fills.contains (k.pc / 64) = true → Answers i s s)
              ∧ (k.fills.contains (k.pc / 64) = false → Answers i s
                  (s.ctxFault k.ctx { code := fltCoreIfetch, unit := c, detail := k.pc, addr := k.word.toNat }))))

/-- R152, R153, R159, R154, R143, R268: NOP only advances; END ends the core's program; BREAK halts under debug capture with
its event, and is a NOP otherwise; BK gives a bank its owner; IF makes its blocks invalid and queues their copies, and
a landed copy makes its block valid with the words read; a freed queue entry lets a waiting instruction issue, and
brings signals behind it nearer to their turn; the oldest queued signal is sent once no engine instruction issued before
it stands in its queue. -/
def Obligations.SystemInstructions : Prop :=
  (∀ (s : State) (c : Nat), s.up = true → (s.core c).canIssue = true →
    let k := s.core c
    let at_ := fun (n : Nat) => k.word = BitVec.ofNat 64 n
    (at_ 0xFC00000000000000 → Answers (.nop c 0xFC00000000000000#64) s (s.retire c))
    ∧ (at_ 0xFC10000000000000 → Answers (.endProgram c 0xFC10000000000000#64) s ((s.modCore c (fun k => { k with st := .ended })).retire c))
    ∧ (at_ 0xFC20000000000000 → (s.ctx k.ctx).debug = false → Answers (.breakpoint c 0xFC20000000000000#64) s (s.retire c))
    ∧ (at_ 0xFC20000000000000 → (s.ctx k.ctx).debug = true → Answers (.breakpoint c 0xFC20000000000000#64) s
        (((s.raise { code := evtDbgBreak, ctx := k.ctx, unit := c, detail := k.pc, addr := 0xFC20000000000000 }).modCore c
          (fun k => { k with st := .waiting, stalled := some (.breakpoint c 0xFC20000000000000#64) })).retire c))
    ∧ (∀ b o, b < 8 → o < 4 → at_ (0x38 * 2 ^ 58 + b * 2 ^ 48 + o * 2 ^ 46) → Answers (.bk c (BitVec.ofNat 64 (0x38 * 2 ^ 58 + b * 2 ^ 48 + o * 2 ^ 46))) s
        ((s.modCore c (fun k => { k with own := tset 0 k.own b o })).retire c))
    ∧ (∀ r1 r2 first n, r1 < 32 → r2 < 32 → first < 32 → 1 ≤ n → n ≤ 32 →
        at_ (0x31 * 2 ^ 58 + r1 * 2 ^ 42 + r2 * 2 ^ 37 + first * 2 ^ 21 + n * 2 ^ 15) →
        let w := BitVec.ofNat 64 (0x31 * 2 ^ 58 + r1 * 2 ^ 42 + r2 * 2 ^ 37 + first * 2 ^ 21 + n * 2 ^ 15)
        let a := (s.sreg c r1).toNat + (s.sreg c r2).toNat % 2 ^ 16 * 2 ^ 32
        (a % 512 = 0 → (fillBlocks first n).contains (k.pc / 64) = false → Reaches (.instructionFill c w) s (fun t =>
          (∀ b < 32, bit (t.core c).valid b = (bit k.valid b && !(fillBlocks first n).contains b)) ∧
          (t.core c).fills = k.fills ++ fillBlocks first n ∧ (t.core c).ibuf = k.ibuf ∧
          (t.cluster (c / 16)).fills = (s.cluster (c / 16)).fills ++
            ((upto 0 n).zip (fillBlocks first n)).map (fun p => (c % 16, p.2, a + p.1 * 512))))
        ∧ (a % 512 = 0 → (fillBlocks first n).contains (k.pc / 64) = true → Answers (.instructionFill c w) s
            (s.ctxFault k.ctx { code := fltCoreIfetch, unit := c, detail := k.pc, addr := w.toNat }))
        ∧ (a % 512 ≠ 0 → Answers (.instructionFill c w) s
            (s.ctxFault k.ctx { code := fltCoreAddr, unit := c, detail := k.pc, addr := a }))))
  ∧ (∀ (s : State) (cl : Nat), s.up = true →
      ((s.cluster cl).fills = [] → Answers (.ifillBlockLanded cl) s s)
      ∧ (∀ lc b a rest, (s.cluster cl).fills = (lc, b, a) :: rest →
          (s.extOk (s.cluster cl).ctx false (a, a + 512) = false → Answers (.ifillBlockLanded cl) s
            (s.ctxFault (s.cluster cl).ctx { code := fltDmaAddr, unit := 0x1000 + cl, detail := 0, addr := a }))
          ∧ (∀ l u, s.extOk (s.cluster cl).ctx false (a, a + 512) = true → (s.ctx (s.cluster cl).ctx).translate a = some l →
              (s.modCluster cl (fun x => { x with fills := rest })).readRange (dmaPort cl) (s.ctx (s.cluster cl).ctx).ways l 512 noErrors = (none, u) →
              Reaches (.ifillBlockLanded cl) s (fun t => t.core (cl * 16 + lc) = { u.core (cl * 16 + lc) with
                  ibuf := blockWords (u.core (cl * 16 + lc)).ibuf b (u.seen l 512), fills := (u.core (cl * 16 + lc)).fills.erase b
                  src := tset 0 (u.core (cl * 16 + lc)).src b a
                  valid := if ((u.core (cl * 16 + lc)).fills.erase b).contains b then (u.core (cl * 16 + lc)).valid
                    else setBit (u.core (cl * 16 + lc)).valid b true } ∧
                (l < saddleSize → tget 0 (t.ctxRun (s.cluster cl).ctx).acct 11 = (tget 0 (u.ctxRun (s.cluster cl).ctx).acct 11 + 512) % 2 ^ 64) ∧
                t = { u with cores := t.cores, ctxRuns := t.ctxRuns }))))
  ∧ (∀ (old : Tbl IWord) (b : Nat) (bs : List Byte) (j : Nat),
      tget 0#64 (blockWords old b bs) j =
        if b * 64 ≤ j ∧ j < b * 64 + 64 then BitVec.ofNat 64 (fieldAt bs (8 * (j - b * 64)) 8) else tget 0#64 old j)
  ∧ (∀ (s : State) (c : Nat), s.up = true →
      (∀ e, tget 0 (s.core c).queues (Engine.num e) = 0 → Answers (.engineQueueAdvance c e) s s)
      ∧ (∀ e, tget 0 (s.core c).queues (Engine.num e) ≠ 0 → Answers (.engineQueueAdvance c e) s
          ((s.modCore c (fun k => { k with
            queues := tmod 0 k.queues (Engine.num e) (· - 1), arrayQ := if e = .array then k.arrayQ.drop 1 else k.arrayQ
            sigq := k.sigq.map (fun g => { g with behind := tmod 0 g.behind (Engine.num e) (· - 1) }) })).resume c))
      ∧ ((s.core c).sigq = [] → Answers (.signalSend c) s s)
      ∧ (∀ g rest, (s.core c).sigq = g :: rest → g.behind ≠ [] → Answers (.signalSend c) s s)
      ∧ (∀ g rest, (s.core c).sigq = g :: rest → g.behind = [] → Answers (.signalSend c) s
          (((s.modCore c (fun k => { k with sigq := rest })).sendIncr g.incr).resume c))
      ∧ ((s.core c).stalled = none → s.resume c = s)
      ∧ (∀ w, (s.core c).stalled = some (.strm c w) →
          exec (.strm c w) (s.modCore c (fun k => { k with stalled := none })) = .next (s.resume c)))

/-- R167 to R170, R154, R160, R164: D copies the 64 B descriptor at its offset into the channel's queue; an idle channel takes its oldest
descriptor, but after the cluster's pending fills: fields, reserved bytes, or overlapping extents refuse it with FLT_DMA_DESC, an extent that the context may
not touch with FLT_DMA_ADDR, with no byte moved; else its bytes are moved and counted, with the conflict
cycles met. When its writes are acknowledged
the channel is free again and the completion increment goes out, none for done_n = 0. -/
def Obligations.ClusterDma : Prop :=
  (∀ (s : State) (c : Nat), s.up = true → (s.core c).canIssue = true → tget 0 (s.core c).queues 3 < 4 →
    ∀ (m : Nat) (off : Nat), m < 2 → off + 64 ≤ 0x20000 → off % 64 = 0 →
      let k := s.core c
      let w := BitVec.ofNat 64 (0x30 * 2 ^ 58 + m * 2 ^ 51 + off)
      k.word = w →
      let a := coreBase c + off
      (bit k.pwr (coreBankOf off) = true → (∀ l ∈ linesOf a 64, s.lineFails l = false) →
        (s.channel (c / 16) m).queue.length < 16 → Reaches (.dmaIssue c w) s (fun t =>
          (t.channel (c / 16) m).queue = (s.channel (c / 16) m).queue ++ [{ bytes := s.rdBytes a 64, core := c, ctx := k.ctx, addr := a }] ∧
          (t.channel (c / 16) m).busy = (s.channel (c / 16) m).busy ∧ t.mem = s.mem ∧ (t.core c).pc = (k.pc + 1) % 2048))
      ∧ (bit k.pwr (coreBankOf off) = true → 16 ≤ (s.channel (c / 16) m).queue.length →
          Answers (.dmaIssue c w) s (s.modCore c (fun k => { k with stalled := some (.dmaIssue c w) }))))
  ∧ (∀ (s : State) (cl m : Nat) (e : AgentRun), s.up = true →
      let ch := s.channel cl m
      (ch.busy ≠ none ∨ ch.queue = [] ∨ (s.cluster cl).fills ≠ [] → Answers (.dmaDescriptorStart cl m e) s s)
      ∧ (∀ q rest, ch.busy = none → ch.queue = q :: rest → (s.cluster cl).fills = [] →
          let x := s.ctx q.ctx
          let d := readDesc q.bytes
          (d.ok x.numCores = false → Answers (.dmaDescriptorStart cl m e) s
            (s.ctxFault q.ctx { code := fltDmaDesc, unit := 0x1000 + cl, detail := m, addr := q.addr }))
          ∧ (d.ok x.numCores = true → ((d.fill || s.extOk q.ctx false d.srcExt) && d.dstExts.all (s.extOk q.ctx true)) = false →
              Answers (.dmaDescriptorStart cl m e) s
                (s.ctxFault q.ctx { code := fltDmaAddr, unit := 0x1000 + cl, detail := m, addr := q.addr }))
          ∧ (∀ u, d.ok x.numCores = true → ((d.fill || s.extOk q.ctx false d.srcExt) && d.dstExts.all (s.extOk q.ctx true)) = true →
              ((s.modChannel cl m (fun c => { c with queue := rest, busy := some q })).meet e (d.sides x)).moveAll cl q.ctx d e.errors = (none, u) →
              Answers (.dmaDescriptorStart cl m e) s ((u.modChannel cl m (fun c => { c with
                bytes := (c.bytes + d.dsts.length * d.cnt2 * d.cnt1 * d.len0) % 2 ^ 64 })).retryD cl)))
      ∧ (∀ dt, ch.busy = none → Answers (.dmaDescriptorComplete cl m dt) s s)
      ∧ (∀ dt q, ch.busy = some q →
          let d := readDesc q.bytes
          let u := (s.modChannel cl m (fun c => { c with busy := none })).account q.ctx 7 dt
          Answers (.dmaDescriptorComplete cl m dt) s (if d.doneN = 0 then u
            else { u with flight := u.flight ++ [{ ctx := q.ctx, core := d.doneCore, ctr := d.doneCtr, n := d.doneN, src := cl }] })))
  ∧ (∀ (d : DmaDesc) (n : Nat), d.ok n = true → d.fill = false →
      ∀ b ∈ d.dsts, ∀ r ∈ d.runs b, ∀ i < d.len0, ∀ b' ∈ d.dsts, ∀ r' ∈ d.runs b', ∀ i' < d.len0, r.1 + (i : Int) ≠ r'.2 + (i' : Int))

/-! ### Matrix array and narrowing (R176 to R210) -/

/-- R176, R180 to R185: the array's sums. An integer column sum is the base plus the products after zero-point
subtraction, wrapped to 32 bits, in whatever order they are added; a Q4B partial is shifted by its exponent distance,
wrapping upward and rounding to even downward; float products are exact, each sum rounds once in ascending k, and every
NaN result is the canonical one. The worked examples of the chapter come out bit for bit.

R177: the format pairs, their K, cycles per row and accumulator; every other pair is illegal. -/
def Obligations.ArrayArithmetic : Prop :=
  ((∀ (h : HeldOp) (fs : Nat) (xs : List Nat) (zs zt : Int) (base : List Nat) (j : Nat), h.fmtT ≠ 4 → j < 16 →
     let prods := (xs.zip (h.rows.map (fun r => r.getD j 0))).map (fun q => (intVal fs q.1 - zs) * (intVal h.fmtT q.2 - zt))
     (h.rowSums false fs xs zs zt base).1[j]? = some (wrap 32 (sgn 32 (base.getD j 0) + prods.sum)))
   ∧ (∀ (h : HeldOp) (fs : Nat) (xs : List Nat) (zs zt : Int) (base : List Nat) (j : Nat), h.fmtT = 4 → j < 16 →
     let p := ((xs.zip (h.rows.map (fun r => r.getD j 0))).map (fun q => (intVal fs q.1 - zs) * sgn 4 q.2)).sum
     (h.rowSums false fs xs zs zt base).1[j]? = some (wrap 32 (sgn 32 (base.getD j 0) + q4bContrib p (sgn 8 (h.exps.getD j 0) - zt))))
   ∧ (∀ (xs ys : List Int) (b : Int), xs.Perm ys → (addAll xs b).1 = (addAll ys b).1)
   ∧ (∀ p d : Int, 0 ≤ d → d ≤ 31 → (q4bContrib p d - p * 2 ^ d.toNat) % 4294967296 = 0 ∧ -2147483648 ≤ q4bContrib p d ∧ q4bContrib p d < 2147483648)
   ∧ (∀ (t : Int) (n : Nat), 2 * (t - rshiftRne t n * 2 ^ n) ≤ 2 ^ n ∧ -(2 ^ n : Int) ≤ 2 * (t - rshiftRne t n * 2 ^ n) ∧
       (0 < n → 2 * (t - rshiftRne t n * 2 ^ n) = 2 ^ n ∨ 2 * (t - rshiftRne t n * 2 ^ n) = -(2 ^ n : Int) → rshiftRne t n % 2 = 0))
   ∧ (∀ (xs : List FV) (x : FV) (b : Nat), addFloats (xs ++ [x]) b = fenc f32 false (fvAdd (fdec f32 (addFloats xs b)) x))
   ∧ (∀ a b : Nat, a < 2 ^ 32 → b < 2 ^ 32 → (fIsNan f32 (fAdd f32 a b) = true → fAdd f32 a b = 0x7FC00000)
       ∧ (fIsNan f32 (fMul f32 a b) = true → fMul f32 a b = 0x7FC00000))
   ∧ q4bContrib (-10) 2 = -40 ∧ q4bContrib (-10) (-2) = -2
   ∧ addAll [576, 0, 16000, 16510] 2147483000 = (2147516086, true) ∧ sgn 32 (wrap 32 2147516086) = -2147451210
   ∧ addFloats [fvMul (decAs 8 0x6C00) (decAs 8 0x6C00), fvMul (decAs 8 0x3C00) (decAs 8 0x3C00), fvMul (decAs 8 0xEC00) (decAs 8 0x6C00)] 0 = 0
   ∧ addFloats [fvMul (decAs 6 0x4C) (decAs 7 0xC6)] 0 = 0xC2100000
   ∧ addFloats [fvMul (decAs 8 0x7C00) (decAs 8 0)] 0 = 0x7FC00000
   ∧ addFloats [fvMul (decAs 9 0x3FC0) (decAs 9 0x4040)] 0 = 0x40900000) ∧
  ((∀ mode ∈ [0, 1, 2],
     (∀ a ∈ [0, 1], ∀ b ∈ [0, 1, 2, 3], pairOf a b mode = some (16, 1, false))
     ∧ (∀ a ∈ [2, 3], ∀ b ∈ [0, 1], pairOf a b mode = some (16, 1, false))
     ∧ (∀ a ∈ [2, 3], ∀ b ∈ [2, 3], pairOf a b mode = some (32, 1, false))
     ∧ (∀ a ∈ [0, 1], pairOf a 4 mode = (if mode = 0 then some (16, 1, false) else none))
     ∧ (∀ a ∈ [2, 3], pairOf a 4 mode = (if mode = 0 then some (32, 1, false) else none))
     ∧ (∀ b ∈ [0, 1], pairOf 5 b mode = some (16, 2, false) ∧ pairOf b 5 mode = some (16, 2, false))
     ∧ pairOf 5 5 mode = some (16, 4, false)
     ∧ (∀ a ∈ [6, 7], ∀ b ∈ [6, 7], pairOf a b mode = some (16, 2, true))
     ∧ pairOf 8 8 mode = some (16, 4, true) ∧ pairOf 9 9 mode = some (16, 4, true))
   ∧ (∀ a b mode : Nat, 10 ≤ a ∨ 10 ≤ b ∨ a = 4 → pairOf a b mode = none)
   ∧ (∀ a b mode : Nat, (6 ≤ a ∧ b ≤ 5) ∨ (a ≤ 5 ∧ 6 ≤ b) ∨ (a = 5 ∧ 2 ≤ b ∧ b ≤ 4) ∨ (2 ≤ a ∧ a ≤ 3 ∧ b = 5) ∨ (a = 8 ∧ b ≠ 8) ∨ (a = 9 ∧ b ≠ 9) →
       pairOf a b mode = none))


/-- R186 to R189, R180, R230: the array's instructions. LDS fills the held operand with K rows read at the stride, and
waits where both held buffers are in use; STRM runs
its rows through it and writes one accumulator line a row; OSTR adds the products of its rows into the cells, ODRN
drains them into 16 lines and clears them where it says so, OCLR zeroes them and sets their type. A STRM that does not match
the held operand, and an OSTR or ODRN of another type than the cells', fault with FLT_ARR_STATE; a zero point outside
its format with FLT_ARR_ZP; an even stride of a transposed LDS with FLT_CORE_TRANSPOSE; a stream that is not bound with
FLT_TILE_STREAM. -/
def Obligations.ArrayInstructions : Prop :=
  ∀ (s : State) (c : Nat) (w : IWord), s.up = true → (s.core c).issues w = true → tget 0 (s.core c).queues 0 < 4 →
    let k := s.core c
    let q := fun (op : ArrayOp) => (s.modCore c (fun k => { k with queues := tinc k.queues 0 1 })).modCore c (fun k => { k with arrayQ := k.arrayQ ++ [op] })
    let fault := fun (op : ArrayOp) (code : Nat) => (q op).ctxFault k.ctx { code := code, unit := c, detail := k.pc, addr := w.toNat }
    let fs := wf w 51 48
    let ft := wf w 47 44
    let mode := wf w 43 42
    let rz := s.sreg c (wf w 39 35)
    (∀ K cyc fl, pairOf fs ft mode = some (K, cyc, fl) → mode ≤ 1 →
      (wordOk w 0x20 0 [(41, 41), (34, 25)] = true → wf w 24 17 ≠ 0 →
        (k.heldBusy = true → (ft = 4 ∨ wf w 39 35 = 0) → Answers (.lds c w) s (s.modCore c (fun x => { x with stalled := some (.lds c w) })))
        ∧ (k.heldBusy = false →
        (ft ≠ 4 → wf w 39 35 = 0 → bit w.toNat 40 = false → wf w 16 0 % 32 = 0 →
          (∀ i < K, wf w 16 0 + i * wf w 24 17 * 32 + 32 ≤ 0x18000 ∧
            (∀ b ∈ banksOf (wf w 16 0 + i * wf w 24 17 * 32) 32, bit k.pwr b = true ∧ tget 0 k.own b = 2) ∧
            (∀ l ∈ linesOf (coreBase c + (wf w 16 0 + i * wf w 24 17 * 32)) 32, s.lineFails l = false)) →
          Answers (.lds c w) s ((((q .lds).modCore c (fun x => { x with held := some { fmtS := fs, fmtT := ft, mode := mode, k := K, rows := (upto 0 K).map (fun i => elemsOf (halfSize ft) 16 (s.rdBytes (coreBase c + (wf w 16 0 + i * wf w 24 17 * 32)) 32)), exps := [] }, heldPrev := if k.arrayQ.contains .strm then k.held else k.heldPrev })).account k.ctx 2 K).retire c))
        ∧ (∀ rows u ex v, (ft = 4 ∨ wf w 39 35 = 0) → wf w 16 0 % 32 = 0 → (bit w.toNat 40 = true → wf w 24 17 % 2 = 1) →
          State.heldRows c (wf w 16 0) (wf w 24 17) ft (bit w.toNat 40) K 0 (q .lds) = .ok (rows, u) →
          u.expRow c ft (u.sreg c (wf w 39 35)).toNat = .ok (ex, v) →
          Answers (.lds c w) s (((v.modCore c (fun x => { x with held := some { fmtS := fs, fmtT := ft, mode := mode, k := K, rows := rows, exps := ex }, heldPrev := if x.arrayQ.contains .strm then x.held else x.heldPrev })).account (v.core c).ctx 2 (if ft = 4 then K + 1 else K)).retire c))
        ∧ ((ft = 4 ∨ wf w 39 35 = 0) → bit w.toNat 40 = true → wf w 24 17 % 2 = 0 → Answers (.lds c w) s (fault .lds fltCoreTranspose))))
      ∧ (wordOk w 0x21 0 [(40, 40), (31, 29), (25, 16)] = true → wf w 15 0 ≠ 0 →
        (k.held = none → Answers (.strm c w) s (fault .strm fltArrState))
        ∧ (∀ h, k.held = some h → (h.fmtT ≠ ft ∨ h.mode ≠ mode ∨ h.k ≠ K) → Answers (.strm c w) s (fault .strm fltArrState))
        ∧ (∀ h, k.held = some h → h.fmtT = ft → h.mode = mode → h.k = K →
          (zpFits ft (sgn 16 (rz.toNat % 65536)) = false ∨ zpFits fs (sgn 16 (rz.toNat / 65536)) = false → Answers (.strm c w) s (fault .strm fltArrZp))
          ∧ (zpFits ft (sgn 16 (rz.toNat % 65536)) = true → zpFits fs (sgn 16 (rz.toNat / 65536)) = true →
            (s.bound c (wf w 34 32) false = none ∨ s.bound c (wf w 28 26) true = none → Answers (.strm c w) s (fault .strm fltTileStream))
            ∧ (∀ bs ba u, s.bound c (wf w 34 32) false = some bs → s.bound c (wf w 28 26) true = some ba → bs.fits K fs 0 = true → ba.fits 16 11 1 = true →
                runAll (fun s (_ : Nat) => s.strmRow c h fl (bit w.toNat 41) fs (sgn 16 (rz.toNat / 65536)) (sgn 16 (rz.toNat % 65536)) bs ba)
                  ((q .strm).account k.ctx 2 (wf w 15 0 * cyc)) (upto 0 (wf w 15 0)) = .ok u →
                Answers (.strm c w) s (u.retire c))))))
    ∧ (∀ K cyc fl, pairOf fs ft 2 = some (K, cyc, fl) → mode = 2 → wordOk w 0x22 0 [(41, 40), (28, 16)] = true → wf w 15 0 ≠ 0 →
      (k.osFloat ≠ fl → Answers (.ostr c w) s (fault .other fltArrState))
      ∧ (k.osFloat = fl → (zpFits ft (sgn 16 (rz.toNat % 65536)) = false ∨ zpFits fs (sgn 16 (rz.toNat / 65536)) = false) →
          Answers (.ostr c w) s (fault .other fltArrZp))
      ∧ (k.osFloat = fl → zpFits ft (sgn 16 (rz.toNat % 65536)) = true → zpFits fs (sgn 16 (rz.toNat / 65536)) = true →
        (∀ ba bb rows u, s.bound c (wf w 34 32) false = some ba → s.bound c (wf w 31 29) false = some bb → ba.fits K fs 0 = true → bb.fits K ft 0 = true →
          State.osRows c ba bb (fillCode fs (sgn 16 (rz.toNat / 65536))) (fillCode ft (sgn 16 (rz.toNat % 65536))) (wf w 15 0) (q .other) = .ok (rows, u) →
          let steps := rows.flatMap (fun r => osSteps K r.1 r.2)
          Reaches (.ostr c w) s (fun t => (t.core c).osFloat = fl ∧ (t.core c).pc = ((u.core c).pc + 1) % 2048 ∧ t.mem = u.mem ∧
            (fl = false → ∀ i < 256, ((t.core c).cell i).toNat = wrap 32 (sgn 32 (k.cell i).toNat + (steps.map (fun p =>
              (intVal fs (p.1.getD (i / 16) 0) - sgn 16 (rz.toNat / 65536)) * (intVal ft (p.2.getD (i % 16) 0) - sgn 16 (rz.toNat % 65536)))).sum))
            ∧ (fl = true → ∀ i < 256, ((t.core c).cell i).toNat = addFloats (steps.map (fun p =>
              fvMul (decAs fs (p.1.getD (i / 16) 0)) (decAs ft (p.2.getD (i % 16) 0)))) (k.cell i).toNat)))))
    ∧ (wordOk w 0x22 1 [(51, 48), (39, 29), (25, 0)] = true → mode = 2 → ft = 10 ∨ ft = 11 →
      (k.osFloat ≠ (ft == 10) → Answers (.odrn c w) s (fault .other fltArrState))
      ∧ (k.osFloat = (ft == 10) → s.bound c (wf w 28 26) true = none → Answers (.odrn c w) s (fault .other fltTileStream))
      ∧ (∀ ba u, k.osFloat = (ft == 10) → s.bound c (wf w 28 26) true = some ba → ba.fits 16 11 1 = true →
          runAll (State.odrnRow c (ft == 10) (bit w.toNat 41) ba) ((q .other).account k.ctx 2 16) (upto 0 16) = .ok u →
          Answers (.odrn c w) s ((if bit w.toNat 40 then u.modCore c (fun x => { x with os := [] }) else u).retire c)))
    ∧ (wordOk w 0x22 2 [(51, 48), (41, 0)] = true → mode = 2 → ft = 10 ∨ ft = 11 →
        Answers (.oclr c w) s ((((q .other).modCore c (fun x => { x with os := [], osFloat := ft == 10 })).account k.ctx 2 1).retire c))

/-- R198 to R204, R207, R208: the narrowing stage. A lane is the rounded shift of acc + bias, plus the zero point, clamped, and
through the table where lut is set; NRW and NRWF write one group a line; LUTL loads the table. A bad parameter block
faults with FLT_NRW_PARAM and writes nothing, a lookup without a table with FLT_NRW_STATE. Conversions saturate and
canonicalise NaNs: the chapter's examples hold. -/
def Obligations.NarrowingStage : Prop :=
  (∀ (s : State) (c : Nat) (w : IWord), s.up = true → (s.core c).issues w = true → tget 0 (s.core c).queues 1 < 4 →
    let k := s.core c
    let q := s.modCore c (fun k => { k with queues := tinc k.queues 1 1 })
    let off := (s.sreg c (wf w 47 43)).toNat
    let healthy := fun (n : Nat) => off + n ≤ 0x18000 ∧ off % 32 = 0 ∧ (∀ b ∈ banksOf off n, bit k.pwr b = true ∧ tget 0 k.own b = 3) ∧
      (∀ l ∈ linesOf (coreBase c + off) n, s.lineFails l = false)
    let fault := fun (code : Nat) => q.ctxFault k.ctx { code := code, unit := c, detail := k.pc, addr := w.toNat }
    (wordOk w 0x25 0 [(51, 48), (42, 0)] = true → healthy 256 →
      Answers (.lutl c w) s (((q.modCore c (fun x => { x with lut := some (s.rdBytes (coreBase c + off) 256) })).account k.ctx 3 8).retire c))
    ∧ (healthy 96 → wf w 15 0 ≠ 0 →
      let b := s.rdBytes (coreBase c + off) 96
      let fmt := wf w 51 48
      let p := readPar b
      (wordOk w 0x24 0 [(35, 16)] = true → fmt ∈ [0, 1, 2, 3, 5] → (bit w.toNat 36 = true → fmt ≤ 1) →
        (parOk b fmt = false → Answers (.nrw c w) s (fault fltNrwParam))
        ∧ (parOk b fmt = true → bit w.toNat 36 = true → k.lut = none → Answers (.nrw c w) s (fault fltNrwState))
        ∧ (∀ ba bo u, parOk b fmt = true → (bit w.toNat 36 = true → k.lut ≠ none) → s.bound c (wf w 42 40) false = some ba → s.bound c (wf w 39 37) true = some bo →
            ba.fits 16 11 1 = true → bo.fits 16 fmt 0 = true →
            runAll (fun s (_ : Nat) => s.nrwLine c ba bo (fun j acc =>
                let v := narrow (sgn 32 acc) (sgn 32 (p.bias.getD j 0)) p.sh p.zp p.qmin p.qmax
                if bit w.toNat 36 then lutRead (k.lut.getD []) fmt v else wrap (elemBits fmt) v))
              (q.account k.ctx 3 (3 + wf w 15 0)) (upto 0 (wf w 15 0)) = .ok u →
            Answers (.nrw c w) s (u.retire c)))
      ∧ (wordOk w 0x24 1 [(36, 16)] = true → fmt ∈ [6, 7, 8, 9, 10] →
        (parFOk b = false → Answers (.nrwf c w) s (fault fltNrwParam))
        ∧ (∀ ba bo u, parFOk b = true → s.bound c (wf w 42 40) false = some ba → s.bound c (wf w 39 37) true = some bo →
            ba.fits 16 11 1 = true → bo.fits 16 fmt 0 = true →
            runAll (fun s (_ : Nat) => s.nrwLine c ba bo (fun j acc => narrowF acc (fieldAt b (4 * j) 4) (fieldAt b 64 4) (fieldAt b 68 4) fmt))
              (q.account k.ctx 3 (3 + wf w 15 0)) (upto 0 (wf w 15 0)) = .ok u →
            Answers (.nrwf c w) s (u.retire c)))))
  ∧ (∀ (acc bias zp lo hi : Int) (n : Nat), lo ≤ hi → lo ≤ narrow acc bias n zp lo hi ∧ narrow acc bias n zp lo hi ≤ hi ∧
      (lo ≤ rshiftRne (acc + bias) n + zp → rshiftRne (acc + bias) n + zp ≤ hi → narrow acc bias n zp lo hi = rshiftRne (acc + bias) n + zp))
  ∧ narrow 2500 1250 4 0 0 255 = 234 ∧ narrow 3500 (-2500) 4 0 0 255 = 62 ∧ narrow 13488 0 7 (-10) (-128) 127 = 95
  ∧ convCode 10 8 0x3F801000 = some 0x3C00 ∧ convCode 10 6 0x43FA0000 = some 0x7E ∧ convCode 10 6 0x3A800000 = some 0
  ∧ convCode 10 7 0xC788B800 = some 0xFB
  ∧ (∀ dst ∈ [6, 7, 8, 9, 10], ∃ nan ∈ [(6, 0x7F), (7, 0x7E), (8, 0x7E00), (9, 0x7FC0), (10, 0x7FC00000)], nan.1 = dst ∧
      ∀ c < 2 ^ 32, fIsNan f32 c = true → convCode 10 dst c = some nan.2)
  ∧ (∀ c < 2 ^ 32, fIsNan f32 c = true → ∀ dst ∈ [0, 1, 5, 11], convCode 10 dst c = some 0)
  ∧ wordOk 0x90003140000002E0#64 0x24 0 [(35, 16)] = true ∧ wordOk 0x84001228040002E0#64 0x21 0 [(40, 40), (31, 29), (25, 16)] = true

/-! ### Loop descriptors, tiles, layers and the Awl engine (R211 to R261) -/

/-- R218, R219, R226, R237: tile arithmetic, in int64_t. The child tiles of a level start one sibling step apart and their owned ranges
join without gap or overlap; a linear index and its child indices determine each other, so each index of a level names
exactly one tile; and the worked examples: the L4 tile 3 starting at 574, and the spans of the convolution tile. -/
def Obligations.TileArithmetic : Prop :=
  (∀ (v : Tab) (i : Nat → List Nat) (d l : Nat), l < 5 →
    v.start i d 5 = -(v.lo 4 d : Int) ∧
    v.start i d l = i64 (v.start i d (l + 1) + ((i (l + 1)).getD d 0 : Nat) * v.tileT d l) ∧
    v.tileE d (l + 1) = i64 (v.bound (l + 1) d * v.tileT d l + (v.lo l d + v.hi l d : Nat)) ∧
    v.tileT d l = i64 (v.tileE d l - (v.lo l d + v.hi l d : Nat)) ∧
    (0 ≤ v.tileE d l → v.tileE d l < 2 ^ 63 → v.lo l d + v.hi l d < 2 ^ 63 → ∀ a : Int, (v.owned d l a).2 = (v.owned d l (a + v.tileT d l)).1 ∧ (v.owned d l a).2 - (v.owned d l a).1 = v.tileT d l))
  ∧ (∀ (v : Tab) (l n : Nat), v.nDims ≤ 6 → (v.level l).order.length = 6 → permOk v.nDims (v.level l).order = true →
      (∀ d, 1 ≤ v.bound l d) →
      (n < v.count l → v.rank l (v.childIndex l n) = n ∧ ∀ d, (v.childIndex l n).getD d 0 < v.bound l d)
      ∧ (∀ i : List Nat, (∀ d, i.getD d 0 < v.bound l d) → (∀ d, v.nDims ≤ d → i.getD d 0 = 0) →
          v.rank l i < v.count l ∧ ∀ d, (v.childIndex l (v.rank l i)).getD d 0 = i.getD d 0))
  ∧ (∀ (v : Tab) (up : Nat → List Nat) (l step idx pos n : Nat), 0 < step → v.count l ≤ idx + n * step →
      (∀ i p, v.staticNext up l step (n + 1) idx pos = (.tile i, p) → ∃ m < n, idx + m * step < v.count l ∧ i = v.childIndex l (idx + m * step) ∧
        p = pos + m + 1 ∧ v.emptyTile (fun L => if L = l then i else up L) (l - 1) = false ∧
        ∀ j < m, v.emptyTile (fun L => if L = l then v.childIndex l (idx + j * step) else up L) (l - 1) = true)
      ∧ ((v.staticNext up l step (n + 1) idx pos).1 = .done → ∀ j, idx + j * step < v.count l →
        v.emptyTile (fun L => if L = l then v.childIndex l (idx + j * step) else up L) (l - 1) = true)
      ∧ (∀ x, (v.staticNext up l step (n + 1) idx pos).1 ≠ .trap x))
  ∧ (∀ v : Tab, (∀ l, v.bound l 0 = [1, 1, 20, 4, 3, 4].getD l 1) → (∀ l, v.lo l 0 = if 2 ≤ l ∧ l ≤ 4 then 2 else 0) →
      (∀ l, v.hi l 0 = if 2 ≤ l ∧ l ≤ 4 then 2 else 0) → ∀ i : Nat → List Nat, i 5 = [3] →
      v.start i 0 4 = 574 ∧ v.owned 0 4 (v.start i 0 4) = (576, 768) ∧ v.tileE 0 5 = 772)
  ∧ (∀ (v : Tab) (r : TensorRec), v.nDims = 6 → r.nAxes = 3 →
      (∀ d < 6, v.tileE d 2 = [32, 16, 16, 64, 3, 3].getD d 0) → r.format = 0 → r.role = 0 →
      r.coef = [[0, 1, 0, 0, 0, 1], [1, 0, 0, 0, 1, 0], [0, 0, 0, 1, 0, 0]] → r.sstride = [2176, 64, 1, 0] → v.span r = 39168)

/-- R222 to R232: the address generator's instructions. DLD loads a sound table into its slot, unbinds the slot's streams and
starts its cursor afresh, refusing any other with FLT_TILE_DESC; TNX takes the next tile of its level's sequence into
rd, all ones at the end, with FLT_TILE_STREAM before a table or a parent tile exists and FLT_TILE_CAPACITY where a
class-C tile cannot fit; AGS binds a stream at position 0; TRD gives a tile's start; AGD writes the descriptors of the
current tile with their number. -/
def Obligations.TileCommands : Prop :=
  ∀ (s : State) (c : Nat) (w : IWord), s.up = true → (s.core c).issues w = true → tget 0 (s.core c).queues 2 < 4 →
    let k := s.core c
    let q := s.modCore c (fun k => { k with queues := tinc k.queues 2 1 })
    let fault := fun (code d : Nat) => q.ctxFault k.ctx { code := code, unit := c, detail := d, addr := w.toNat }
    let rd := wf w 51 47
    (wordOk w 0x27 0 [(44, 0)] = true →
      let off := (s.sreg c rd).toNat
      let t := s.rdBytes (coreBase c + off) 896
      off + 896 ≤ 0x18000 → off % 32 = 0 → (∀ b ∈ banksOf off 896, bit k.pwr b = true ∧ tget 0 k.own b = 0) →
      (∀ l ∈ linesOf (coreBase c + off) 896, s.lineFails l = false) →
      (tabOk t = false → Answers (.dld c w) s (fault fltTileDesc k.pc))
      ∧ (∀ d, tabOk t = true → (readTab t).cls = 1 → (readTab t).capacity k.pwr = some d → Answers (.dld c w) s (fault fltTileCapacity d))
      ∧ (tabOk t = true → ((readTab t).cls = 1 → (readTab t).capacity k.pwr = none) → Answers (.dld c w) s ((q.modCore c (fun k => { k with
          tabs := tset {} k.tabs (wf w 46 45) { table := t }
          streams := k.streams.filter (fun p => match p.2 with | some x => x.slot != wf w 46 45 | none => false) })).retire c)))
    ∧ (wordOk w 0x26 1 [(42, 0)] = true → wf w 44 43 ≠ 3 →
      let slot := wf w 46 45
      let l := wf w 44 43 + 3
      let t := s.tabSlot c slot
      let v := readTab t.table
      (t.loaded = false ∨ t.has l = false → Answers (.tnx c w) s (fault fltTileStream k.pc))
      ∧ (t.loaded = true → t.has l = true →
        (q.nextTile c slot l v w = none → Answers (.tnx c w) s s)
        ∧ (∀ x u, q.nextTile c slot l v w = some (.trap x, u) → x ≠ .full → x ≠ .later → Answers (.tnx c w) s (u.trap c (.tnx c w) x))
        ∧ (∀ u, q.nextTile c slot l v w = some (.done, u) → Answers (.tnx c w) s
            (((u.takeTile c slot l none).setS c rd 0xFFFFFFFF#32).retire c))
        ∧ (∀ i u, q.nextTile c slot l v w = some (.tile i, u) →
            (∀ d, l = 3 → v.cls = 0 → v.capacity k.pwr = some d → Answers (.tnx c w) s (fault fltTileCapacity d))
            ∧ ((l = 3 → v.cls = 0 → v.capacity k.pwr = none) → Answers (.tnx c w) s
                (((u.takeTile c slot l (some i)).setS c rd (BitVec.ofNat 32 (v.rank l i))).retire c)))))
    ∧ (wordOk w 0x26 0 [(43, 0)] = true →
      let slot := wf w 48 47
      let t := s.tabSlot c slot
      let v := readTab t.table
      let n := wf w 46 45
      (t.loaded = false → Answers (.ags c w) s (fault fltTileStream k.pc))
      ∧ (t.loaded = true → (v.nTens ≤ n ∨ v.agsOk (v.tensor n) (bit w.toNat 44) = false) → Answers (.ags c w) s (fault fltTileDesc k.pc))
      ∧ (t.loaded = true → n < v.nTens → v.agsOk (v.tensor n) (bit w.toNat 44) = true → Answers (.ags c w) s ((q.modCore c (fun k => { k with
          streams := tset none k.streams (wf w 51 49) (some { slot := slot, tensor := n, write := bit w.toNat 44 }) })).retire c)))
    ∧ (wordOk w 0x26 3 [(38, 0)] = true → 2 ≤ wf w 44 42 → wf w 44 42 ≤ 5 →
      let t := s.tabSlot c (wf w 46 45)
      let v := readTab t.table
      let l := wf w 44 42
      (t.loaded = true → v.nDims ≤ wf w 41 39 → Answers (.trd c w) s (s.ctxFault k.ctx { code := fltCoreIllegal, unit := c, detail := k.pc, addr := w.toNat }))
      ∧ (t.loaded = true → wf w 41 39 < v.nDims → t.has l = true → Answers (.trd c w) s
          ((q.setS c rd (BitVec.ofInt 32 (v.start t.idx (wf w 41 39) l))).retire c))
      ∧ (t.loaded = false ∨ (wf w 41 39 < v.nDims ∧ t.has l = false) → Answers (.trd c w) s ((q.setS c rd 0x80000000#32).retire c)))
    ∧ (wordOk w 0x26 2 [(29, 0)] = true → wf w 32 30 ≤ 5 →
      let t := s.tabSlot c (wf w 36 35)
      let v := readTab t.table
      let n := wf w 34 33
      let kd := kindOf (wf w 32 30)
      let off := (s.sreg c rd).toNat
      (t.loaded = false ∨ t.has kd.2.2.1 = false → Answers (.agd c w) s (fault fltTileStream k.pc))
      ∧ (t.loaded = true → t.has kd.2.2.1 = true →
        (v.nTens ≤ n ∨ ((v.tensor n).role = 2 ∧ (kd.1 = 2 ∨ kd.2.1 = 2)) → Answers (.agd c w) s (fault fltTileDesc k.pc))
        ∧ (n < v.nTens → ¬ ((v.tensor n).role = 2 ∧ (kd.1 = 2 ∨ kd.2.1 = 2)) →
          let ds := s.agdDescs c (wf w 32 30) { num := 0, v := v, t := t, r := v.tensor n } (s.sreg c (wf w 46 42)).toNat
          (ds = none → Answers (.agd c w) s (fault fltTileDesc k.pc))
          ∧ (ds = some [] → off % 64 = 0 → Answers (.agd c w) s ((q.setS c (wf w 41 37) 0#32).retire c))
          ∧ (∀ xs u, ds = some xs → xs ≠ [] → q.portWrite c 0 off 64 xs.flatten = .ok u →
              Answers (.agd c w) s ((u.setS c (wf w 41 37) (BitVec.ofNat 32 xs.length)).retire c)))))

/-- R242, R243, R256 to R260: shapes and the Awl engine. The output size is a floor division (the chapter's six shape cases);
a layer passes the
shape check only with those sizes, no pooling window without a valid input, and tables that have its input's axes; an
Awl engine whose bell holds at least 1 takes 1 from it and the next slot of its ring, faults with FLT_CORE_BANK_OFF where
that slot's bank is off, refuses an empty output with FLT_SHAPE and then a bad descriptor with FLT_AWL_DESC, and else writes its whole output; a completed job signals done_n. -/
def Obligations.ShapesAndAwl : Prop :=
  (outSize 5 3 3 7 1 1 = 5 ∧ outSize 5 0 0 7 1 1 = -1 ∧ outSize 2 0 0 5 1 4 = 0 ∧ outSize 6 0 0 3 2 1 = 2
    ∧ outSize 8 0 0 1 1 2 = 4 ∧ outSize 9 1 1 3 1 4 = 3)
  ∧ (∀ inp p0 p1 k d st : Nat, 0 < st → 0 < k → let n : Int := (inp : Int) + p0 + p1 - ((k - 1) * d + 1 : Nat)
      (outSize inp p0 p1 k d st - 1) * st ≤ n ∧ n < outSize inp p0 p1 k d st * st)
  ∧ (∀ (x : LayerSection) (l : LayerRec), (LayerSection.detail x l = some 0 ↔ outSize l.inH l.padTop l.padBottom l.kH l.dH l.sH ≤ 0 ∨
        outSize l.inW l.padLeft l.padRight l.kW l.dW l.sW ≤ 0)
      ∧ (LayerSection.detail x l = none → (l.outH : Int) = outSize l.inH l.padTop l.padBottom l.kH l.dH l.sH ∧
        (l.outW : Int) = outSize l.inW l.padLeft l.padRight l.kW l.dW l.sW ∧
        (l.kind = 2 ∨ l.kind = 4 → emptyWindow l.inH l.padTop l.kH l.dH l.sH l.outH = false ∧
          emptyWindow l.inW l.padLeft l.kW l.dW l.sW l.outW = false) ∧
        (l.kind < 5 → ∃ vs, LayerSection.tablesOf x l = some vs ∧
          (l.sH ≤ (l.kH - 1) * l.dH + 1 → l.sW ≤ (l.kW - 1) * l.dW + 1 → ∀ v ∈ vs, ∃ r ∈ v.tens.take v.nTens, r.role ≠ 1 ∧
            (∃ a < r.nAxes, r.offset.getD a 0 = -(l.padTop : Int) ∧ r.extent.getD a 0 = l.inH) ∧
            (∃ a < r.nAxes, r.offset.getD a 0 = -(l.padLeft : Int) ∧ r.extent.getD a 0 = l.inW)))))
  ∧ (∀ x : LayerSection, (LayerSection.shapeDetail x = none ↔ (∀ l ∈ LayerSection.layers x, LayerSection.detail x l = none) ∧
        groupsOk 0 (LayerSection.layers x) = true ∧ ∀ g ∈ groupsOf [] (LayerSection.layers x), LayerSection.haloBad x g = false)
      ∧ (LayerSection.shapeDetail x = some 5 → ∃ g ∈ groupsOf [] (LayerSection.layers x), (∃ l ∈ g, bit l.group 4 = true) ∧
          ∃ l ∈ g, ∃ vs, LayerSection.tablesOf x l = some vs ∧ ∃ v ∈ vs, v.dist5 ≠ 0 ∨ v.dist3 ≠ 0))
  ∧ (∀ inp pad k d st out : Nat, 0 < st → 0 < d → 0 < k → 0 < out →
      (emptyWindow inp pad k d st out = true ↔ ∃ o < out, ∀ t < k, ¬ (0 ≤ ((st * o + d * t : Nat) : Int) - pad ∧ ((st * o + d * t : Nat) : Int) - pad < inp)))
  ∧ (∀ (s : State) (cl : Nat) (e : AgentRun), s.up = true →
      let c := s.cluster cl
      let x := s.ctx c.ctx
      (c.assigned = false ∨ x.st ≠ .resident ∨ c.awlJob.isSome = true ∨ c.awlStopped = true → Answers (.awlJobStart cl e) s s)
      ∧ (∀ d ring, c.assigned = true → x.st = .resident → c.awlJob = none → c.awlStopped = false → x.decl = some d →
          d.rings[x.relCluster cl]? = some ring → 1 ≤ ring.n →
          let bell := (s.ctrGet c.ctx ring.bellCore ring.bellCtr).getD 0
          (bell = 0 → Answers (.awlJobStart cl e) s s)
          ∧ (1 ≤ bell →
            let v := (s.ctrSet c.ctx ring.bellCore ring.bellCtr (bell - 1)).modCluster cl (fun c => { c with awlIndex := c.awlIndex + 1 })
            let a := clusterBase cl + (ring.off + c.awlIndex % ring.n * 64)
            (v.bufferOff a 64 = true → Answers (.awlJobStart cl e) s
              (v.ctxFault c.ctx { code := fltCoreBankOff, unit := 0x1000 + cl, addr := a }))
            ∧ ∀ u, v.bufferOff a 64 = false → v.readRange (dmaPort cl) 0 a 64 e.errors = (none, u) →
              let j := readAwl (u.rdBytes a 64)
              let flt := fun (code det : Nat) => u.ctxFault c.ctx { code := code, unit := 0x1000 + cl, detail := det, addr := a }
              ((j.outH ≤ 0 ∨ j.outW ≤ 0) → Answers (.awlJobStart cl e) s (flt fltShape 0))
              ∧ (0 < j.outH → 0 < j.outW → j.rangeOk x.numCores = false → Answers (.awlJobStart cl e) s (flt fltAwlDesc 2))
              ∧ (j.rangeOk x.numCores = true → 0 < j.outH → 0 < j.outW → j.regionsOk c.pwr = false → Answers (.awlJobStart cl e) s (flt fltAwlDesc 2))
              ∧ (∀ u1 u2, j.rangeOk x.numCores = true → 0 < j.outH → 0 < j.outW → j.regionsOk c.pwr = true →
                  (u.meet e [clusterBase cl]).readRange (dmaPort cl) 0 (clusterBase cl + j.inOff) (j.inH * j.inW * j.cin) e.errors = (none, u1) →
                  u1.readRange (dmaPort cl) 0 (clusterBase cl + j.wOff) (256 + j.noc * j.kh * j.kw * j.cin) e.errors = (none, u2) →
                  Answers (.awlJobStart cl e) s
                    (((u2.store 0 (clusterBase cl + j.outOff) (j.output (fun o => u2.rdByte (clusterBase cl + o)))).account c.ctx 6 j.cycles).modCluster cl
                      (fun c => { c with awlJob := some { desc := u.rdBytes a 64 } })))))
      ∧ (c.awlJob = none → Answers (.awlJobComplete cl) s s)
      ∧ (∀ j, c.awlJob = some j →
          let d := readAwl j.desc
          Answers (.awlJobComplete cl) s ((s.modCluster cl (fun c => { c with awlJob := none })).sendIncr
            { ctx := c.ctx, core := d.doneCore, ctr := d.doneCtr, n := d.doneN, src := cl })))
  ∧ (∀ (d : AwlDesc) (inp wts : Nat → Nat) (oy ox oc : Nat) (bias : Int), d.fmtOut ≠ 11 →
      d.elem (d.acc inp wts oy ox oc) bias =
        leBytes (4 * halfSize d.fmtOut / 8) (wrap (4 * halfSize d.fmtOut)
          (clampI (rshiftRne (sgn 32 (wrap 32 (d.acc inp wts oy ox oc)) + bias) d.shift + d.zpOut) d.qmin d.qmax)))

/-! ### Synchronisation and work counters (R262 to R285) -/

/-- R263 to R268: sync counter instructions. SIG and SIGR queue a signal to a core of the partition, an amount of 0 none; WAIT
and WAITR stop issue until the counter holds n, and then take n away in one step; DEC takes n away at once, or faults with
FLT_SYNC_UNDERFLOW and takes nothing; READ gives the counter. A target outside the partition faults with FLT_SYNC_TARGET,
a full signal queue waits.
A wait that would take what a bell or a gate that waited before it takes stays for later.

R266, R267, R265, R172: the increments in flight keep the order of each source to a stop; those that arrive together are summed and tested once: a sum above 65,535 is not applied and
faults the owning context with FLT_SYNC_OVERFLOW; else the counter of a resident context takes the sum, and a waiting core
whose amount is then there passes with that amount taken away: no increment is lost or counted twice. -/
def Obligations.SyncInstructions : Prop :=
  (∀ (s : State) (c : Nat) (w : IWord), s.up = true → (s.core c).issues w = true →
     let k := s.core c
     let fault := fun (code : Nat) => s.ctxFault k.ctx { code := code, unit := c, detail := k.pc, addr := w.toNat }
     let ctr := wf w 51 46
     let n := wf w 15 0
     let send := fun (target m : Nat) => (s.modCore c (fun x => { x with sigq := x.sigq ++ [{ incr := { ctx := k.ctx, core := target, ctr := ctr, n := m, src := c / 16 }, behind := k.queues.filter (fun q => q.1 != 3) }] })).retire c
     let sends := fun (i : Instr) (target m : Nat) =>
       (16 * (s.ctx k.ctx).k ≤ target → Answers i s (fault fltSyncTarget))
       ∧ (target < 16 * (s.ctx k.ctx).k → m = 0 → Answers i s (s.retire c))
       ∧ (target < 16 * (s.ctx k.ctx).k → m ≠ 0 → k.sigq.length < 8 → Answers i s (send target m))
       ∧ (target < 16 * (s.ctx k.ctx).k → m ≠ 0 → 8 ≤ k.sigq.length → Answers i s (s.modCore c (fun x => { x with stalled := some i })))
     let waits := fun (i : Instr) (m : Nat) (dp : Bool) =>
       (m ≤ tget 0 k.sync ctr → tget 0 k.sync ctr < m + s.claims c ctr → Answers i s s)
       ∧ ((tget 0 k.sync ctr < m ∨ m + s.claims c ctr ≤ tget 0 k.sync ctr) → Reaches i s (fun t =>
         (dp = true → (s.ctx k.ctx).preempt = true → (t.core c).st = .parked ∧ (t.core c).wait = some { ctr := ctr, n := m, dp := dp, held := true } ∧
           (t.core c).sync = k.sync ∧ (t.core c).pc = k.pc)
         ∧ ((dp = false ∨ (s.ctx k.ctx).preempt = false) →
           (m ≤ tget 0 k.sync ctr → (t.core c).sync = tset 0 k.sync ctr (tget 0 k.sync ctr - m) ∧ (t.core c).st = .running ∧ (t.core c).wait = none ∧
             (t.core c).pc = (k.pc + 1) % 2048)
           ∧ (tget 0 k.sync ctr < m → (t.core c).sync = k.sync ∧ (t.core c).st = .waiting ∧
             (t.core c).wait = some { ctr := ctr, n := m, dp := dp } ∧ (t.core c).pc = k.pc))
         ∧ (t.core c).retired = (k.retired + 1) % 2 ^ 64 ∧ (∀ j, j ≠ c → t.core j = s.core j) ∧ t = { s with cores := t.cores, ctxRuns := t.ctxRuns }))
     (ctr ≤ 47 →
       (n ≠ 0 → wordOk w 0x34 0 [(34, 16)] = true → sends (.sig c w) (wf w 45 35) n)
       ∧ (wordOk w 0x35 0 [(45, 35), (24, 0)] = true → sends (.sigr c w) ((s.sreg c (wf w 34 30)).toNat % 2048) ((s.sreg c (wf w 29 25)).toNat % 65536))
       ∧ (n ≠ 0 → wordOk w 0x34 1 [(45, 17)] = true → waits (.wait c w) n (bit w.toNat 16))
       ∧ (wordOk w 0x35 1 [(45, 30), (24, 17), (15, 0)] = true → waits (.waitr c w) ((s.sreg c (wf w 29 25)).toNat % 65536) (bit w.toNat 16))
       ∧ (n ≠ 0 → wordOk w 0x34 2 [(45, 16)] = true →
           (n ≤ tget 0 k.sync ctr → Answers (.dec c w) s ((s.modCore c (fun x => { x with sync := tset 0 x.sync ctr (tget 0 k.sync ctr - n) })).retire c))
           ∧ (tget 0 k.sync ctr < n → Answers (.dec c w) s (fault fltSyncUnderflow)))
       ∧ (wordOk w 0x34 3 [(45, 35), (29, 0)] = true →
           Answers (.read c w) s ((s.setS c (wf w 34 30) (BitVec.ofNat 32 (tget 0 k.sync ctr))).retire c)))
     ∧ (47 < ctr → ∀ p ∈ [(CoreClass.sig, Instr.sig c w), (.dec, .dec c w), (.read, .read c w), (.wait, .wait c w), (.sigr, .sigr c w)
         , (.waitr, .waitr c w)], coreClass w = some p.1 → Answers p.2 s (fault fltCoreIllegal))
     ∧ (n = 0 → ∀ p ∈ [(CoreClass.sig, Instr.sig c w), (.dec, .dec c w), (.wait, .wait c w)], coreClass w = some p.1 →
         Answers p.2 s (fault fltCoreIllegal))) ∧
  (∀ (mine here : Incr → Bool) (n : Nat) (l : List Incr), (∀ i, mine i = true → here i = true) →
     let r := takeIncrs mine here n [] l
     (r.1 ++ r.2).Perm l ∧ r.1.length ≤ n ∧ (∀ i ∈ r.1, mine i = true)
     ∧ (∀ src, (r.1 ++ r.2).filter (fun i => here i && i.src == src) = l.filter (fun i => here i && i.src == src))
     ∧ ((∀ i ∈ l, here i = true → mine i = true) → r.1 = (l.filter mine).take n)) ∧
  (∀ (s : State) (core ctr count : Nat), s.up = true →
     (s.flight.find? (s.hits core ctr) = none → Answers (.syncIncrementArrival core ctr count) s s)
     ∧ (∀ i, s.flight.find? (s.hits core ctr) = some i → (s.ctx i.ctx).st = .resident →
         let r := takeIncrs (fun j => s.hits core ctr j && j.ctx == i.ctx) (fun j => s.stopOf j == some (core / 16)) count [] s.flight
         let sum := (r.1.map (·.n)).sum
         let v := tget 0 (s.core core).sync ctr
         let k := s.core core
         (r.1 = [] → Answers (.syncIncrementArrival core ctr count) s s)
         ∧ (r.1 ≠ [] → 65535 < v + sum → Answers (.syncIncrementArrival core ctr count) s
             (State.ctxFault { s with flight := r.2 } i.ctx { code := fltSyncOverflow, unit := i.core, detail := ctr }))
         ∧ (r.1 ≠ [] → v + sum ≤ 65535 → Reaches (.syncIncrementArrival core ctr count) s (fun t =>
             t.flight = r.2 ∧
             (∀ j, j ≠ core → t.core j = s.core j) ∧
             (k.wait = none → t.core core = { k with sync := tset 0 k.sync ctr (v + sum) }) ∧
             (∀ w, k.wait = some w → w.ctr = ctr → w.held = false → w.n ≤ v + sum →
               tget 0 (t.core core).sync ctr = v + sum - w.n ∧ (t.core core).wait = none ∧ (t.core core).st = .running ∧ (t.core core).pc = (k.pc + 1) % 2048) ∧
             (∀ w, k.wait = some w → w.ctr = ctr → v + sum < w.n →
               tget 0 (t.core core).sync ctr = v + sum ∧ (t.core core).wait = some w ∧ (t.core core).pc = k.pc)))))


/-- R278 to R281: work counters. A fetch returns v and counts up below the limit, else all ones with v unchanged, so each value
below the limit is handed out once; WSET arms a counter, WRD reads it; an index that the context's map does not hold
faults with FLT_WORK_OWNER, a limit of all ones with FLT_WORK_ARG.

R273, R274, R277, R285: the host's signal sends an increment into a running context, or shows it was dropped; a wait that has
lasted spin_limit parks its core where the partition has more than 4 clusters; a partition whose cores are all parked at
deschedule points becomes deschedulable; a context whose cores have ended and that has drained ends, with
FLT_SYNC_RESIDUE where a counter is not zero. -/
def Obligations.WorkCountersAndParking : Prop :=
  ((∀ (s : State) (c : Nat) (w : IWord), s.up = true → (s.core c).issues w = true →
     let k := s.core c
     let idx := wf w 45 38
     let rd := wf w 51 47
     let fault := fun (code : Nat) => s.ctxFault k.ctx { code := code, unit := c, detail := k.pc, addr := w.toNat }
     (bit w.toNat 46 = false → idx ≤ 15 →
       let p := tget (0, 0) (s.cluster (c / 16)).wc idx
       (wordOk w 0x36 0 [(37, 0)] = true →
         (p.1 < p.2 → Answers (.wfa c w) s (((s.modCluster (c / 16) (fun x => { x with wc := tset (0, 0) x.wc idx (p.1 + 1, p.2) })).setS c rd
             (BitVec.ofNat 32 p.1)).retire c))
         ∧ (p.2 ≤ p.1 → Answers (.wfa c w) s (((s.modCluster (c / 16) (fun x => { x with wc := tset (0, 0) x.wc idx p })).setS c rd 0xFFFFFFFF#32).retire c)))
       ∧ (wordOk w 0x36 1 [(32, 0)] = true →
         let v := s.sreg c rd
         let l := s.sreg c (wf w 37 33)
         (l = 0xFFFFFFFF#32 → Answers (.wset c w) s (fault fltWorkArg))
         ∧ (l ≠ 0xFFFFFFFF#32 → Answers (.wset c w) s ((s.modCluster (c / 16) (fun x => { x with wc := tset (0, 0) x.wc idx (v.toNat, l.toNat) })).retire c)))
       ∧ (wordOk w 0x36 2 [(37, 0)] = true → Answers (.wrd c w) s ((s.setS c rd (BitVec.ofNat 32 p.1)).retire c)))
     ∧ (bit w.toNat 46 = true →
       ((s.ctx k.ctx).ctrs[idx]? = none →
         (wordOk w 0x36 0 [(37, 0)] = true → Answers (.wfa c w) s (fault fltWorkOwner))
         ∧ (wordOk w 0x36 1 [(32, 0)] = true → Answers (.wset c w) s (fault fltWorkOwner))
         ∧ (wordOk w 0x36 2 [(37, 0)] = true → Answers (.wrd c w) s (fault fltWorkOwner)))
       ∧ (∀ p, (s.ctx k.ctx).ctrs[idx]? = some p →
         let x := s.workCtr p
         (wordOk w 0x36 0 [(37, 0)] = true →
           (x.v < x.limit → Answers (.wfa c w) s (((s.modWork p (fun y => { y with v := x.v + 1 })).setS c rd (BitVec.ofNat 32 x.v)).retire c))
           ∧ (x.limit ≤ x.v → Answers (.wfa c w) s (((s.modWork p (fun y => { y with v := x.v })).setS c rd 0xFFFFFFFF#32).retire c)))
         ∧ (wordOk w 0x36 1 [(32, 0)] = true → s.sreg c (wf w 37 33) ≠ 0xFFFFFFFF#32 → Answers (.wset c w) s
             ((s.modWork p (fun y => { y with v := (s.sreg c rd).toNat, limit := (s.sreg c (wf w 37 33)).toNat })).retire c))
         ∧ (wordOk w 0x36 2 [(37, 0)] = true → Answers (.wrd c w) s ((s.setS c rd (BitVec.ofNat 32 x.v)).retire c)))))
   ∧ (∀ (v limit n : Nat), limit < 2 ^ 32 → v ≤ limit →
       let run := (List.range n).foldl (fun (a : List Nat × Nat) _ => (a.1 ++ [(fetchOf a.2 limit).1], (fetchOf a.2 limit).2)) ([], v)
       run.1 = (List.range n).map (fun i => if v + i < limit then v + i else 0xFFFFFFFF) ∧ run.2 = min (v + n) limit)) ∧
  ((∀ (s : State) (r : Route) (high low : Nat), s.up = true → s.reaches r hostSignalOff = true → high < 2 ^ 32 →
     tget none s.heldLow (latchKey r hostSignalOff) = some low →
     let u : State := { s with heldLow := tset none s.heldLow (latchKey r hostSignalOff) none }
     let v := low + high * 2 ^ 32
     let n := v / 2 ^ 32 % 2 ^ 16
     ((s.ctx (v % 64)).runs = true → v / 2 ^ 12 % 2048 < 16 * (s.ctx (v % 64)).k → v / 64 % 64 ≤ 47 → n ≠ 0 →
       Answers (.hostSignal r high) s { u with flight := u.flight ++
         [{ ctx := v % 64, core := v / 2 ^ 12 % 2048, ctr := v / 64 % 64, n := n, fromCtx := false, src := 0x300 }] })
     ∧ ((s.ctx (v % 64)).runs = false ∨ 16 * (s.ctx (v % 64)).k ≤ v / 2 ^ 12 % 2048 ∨ 47 < v / 64 % 64 ∨ n = 0 →
       Answers (.hostSignal r high) s { u with hostDropped := true }))
   ∧ (∀ (s : State) (r : Route) (high : Nat), s.up = true → tget none s.heldLow (latchKey r hostSignalOff) = none →
       Answers (.hostSignal r high) s s)
   ∧ (∀ (s : State) (c dt : Nat) (w : WaitSt), s.up = true → (s.core c).wait = some w →
       let k := s.core c
       let x := s.ctx k.ctx
       (k.st = .waiting → w.cycles + dt < x.spin ∨ k.queues ≠ [] ∨ x.k ≤ 4 → Answers (.corePark c dt) s
         ((s.modCore c (fun k => { k with wait := some { w with cycles := w.cycles + dt } })).account k.ctx 4 dt))
       ∧ (k.st = .waiting → x.spin ≤ w.cycles + dt → k.queues = [] → 4 < x.k → Reaches (.corePark c dt) s (fun t =>
         (t.core c) = { k with st := .parked, wait := some { w with cycles := w.cycles + dt } } ∧ (∀ j, j ≠ c → t.core j = s.core j)))
       ∧ (k.st = .parked → Answers (.corePark c dt) s
         ((s.modCore c (fun k => { k with park := (k.park + dt) % 2 ^ 64 })).account k.ctx 5 dt)))
   ∧ (∀ (s : State) (c : Nat), s.up = true →
       let x := s.ctx c
       let all := x.cores.all (fun n => (s.core n).st == .parked && (match (s.core n).wait with | some w => w.dp | none => false))
       (x.st = .resident → all = true → Answers (.descheduleThreshold c) s (s.modCtx c (fun y => { y with deschedulable := true })))
       ∧ (x.st ≠ .resident ∨ all = false → Answers (.descheduleThreshold c) s s)
       ∧ (s.ctxDoneRunning c = false → Answers (.contextEnd c) s s)
       ∧ (s.ctxDoneRunning c = true → s.residue c = none → Answers (.contextEnd c) s (s.endCtx c 0))
       ∧ (∀ r, s.ctxDoneRunning c = true → s.residue c = some r → Answers (.contextEnd c) s
           (s.ctxFault c { code := fltSyncResidue, unit := r.1, detail := r.2.1, addr := r.2.2 }))
       ∧ (s.residue c = none → ∀ j n, j < x.numCores → n < 48 → x.st = .resident → x.coreAt j ≠ none → s.ctrGet c j n = some 0)))

/-! ### Stitcher, tracking and re-identification (R286 to R317) -/

/-- R303, R304: the auction of a Stitcher call. It never bids more often than bid_limit, gives no two rows one column and no row
an infeasible one; and where it ends before the limit, no assignment of the rows has a greater total benefit.

R302 to R306: the worked example: six bids, total 80,000, d0 to t0, d1 to t2, d2 to t1, in 281 cycles; with a limit of three
bids the third bidder stays unassigned and the result is marked limited. -/
def Obligations.AuctionIsOptimal : Prop :=
  (∀ (a : List (List Nat)) (m limit : Nat), (∀ row ∈ a, row.length = m) →
     let r := auction a m limit
     r.bids ≤ limit ∧ r.col.length = a.length ∧
     (∀ i j, r.col[i]? = some (some j) → j < m ∧ (a.getD i []).getD j 0 ≤ 65536 ∧ ∀ i', r.col[i']? = some (some j) → i' = i) ∧
     (r.limited = false → ∀ g : Nat → Option Nat,
       (∀ i j, g i = some j → i < a.length → j < m ∧ (a.getD i []).getD j 0 ≤ 65536) →
       (∀ i i' j, i < a.length → i' < a.length → g i = some j → g i' = some j → i = i') →
       ((List.range a.length).map (fun i => match g i with | some j => (a.getD i []).getD j 0 | none => 0)).sum ≤ auctionTotal a r)) ∧
  (let x := infeasible
   let a := [[40000, 39000, x], [40000, x, 10000], [x, 30000, x]]
   let r := auction a 3 1048576
   r.col = [some 0, some 2, some 1] ∧ r.owner = [some 0, some 2, some 1] ∧ r.bids = 6 ∧ r.limited = false ∧ auctionTotal a r = 80000
   ∧ r.price = [124002, 120001, 4003] ∧ callCycles 3 3 6 = 281
   ∧ (auction a 3 3).limited = true ∧ (auction a 3 3).bids = 3 ∧ (auction a 3 3).col = [some 1, some 0, none])


/-- R301, R302, R305: Stitcher units. A submission of an aligned, populated address queues a call, or sets overflow where 64
wait; a free unit takes the oldest ready call of the highest class, refuses an invalid one with its fault, and runs the
auction on a valid one; the completed call stores its result area and signals done_n, or hands the tracking service its
result. -/
def Obligations.StitcherUnits : Prop :=
  (∀ (s : State) (r : Route) (high : Nat), s.up = true → s.reaches r stcSubmitOff = true → high < 2 ^ 32 →
    (tget none s.heldLow (latchKey r stcSubmitOff) = none → Answers (.stcSubmit r high) s s)
    ∧ (∀ low, tget none s.heldLow (latchKey r stcSubmitOff) = some low →
        let u : State := { s with heldLow := tset none s.heldLow (latchKey r stcSubmitOff) none }
        let a := low + high * 2 ^ 32
        (a % 64 ≠ 0 → Answers (.stcSubmit r high) s u)
        ∧ (a % 64 = 0 → u.populated a = true → 64 ≤ s.stc.queue.length → Answers (.stcSubmit r high) s { u with stc := { u.stc with overflow := true } })
        ∧ (a % 64 = 0 → u.populated a = true → s.stc.queue.length < 64 →
            Answers (.stcSubmit r high) s { u with stc := { u.stc with queue := u.stc.queue ++ [readCall a (u.seen a 64)] } })
        ∧ (a % 64 = 0 → u.populated a = false → Answers (.stcSubmit r high) s (u.raise { code := fltMemDecode, unit := 38, addr := a }))))
  ∧ (∀ (s : State) (u : Nat), s.up = true → u < 4 → (s.stcUnit u).call = none →
      ((∀ k ∈ s.stc.queue, s.callReady k = false) → Answers (.stitcherCallStart u) s s)
      ∧ (∀ k, s.stc.queue = [k] → k.internal = true → s.slotClass k.slot < 3 →
          let r := auction k.matrix k.m k.bidLimit
          Answers (.stitcherCallStart u) s (State.modStc { s with stc := { s.stc with queue := [] } } u (fun x => { x with
            st := 1, slotShown := k.slot, call := some k, col := r.col, owner := r.owner, callBids := r.bids
            total := auctionTotal k.matrix r, limited := r.limited, badEnt := (x.badEnt + badEntries k.matrix) % 2 ^ 32 })))
      ∧ (∀ k, s.nextCall = some k →
          let v : State := { s with stc := { s.stc with queue := s.stc.queue.erase k } }
          (∀ code, v.callFault k = some code → Answers (.stitcherCallStart u) s
            (v.ctxFault k.ctx { code := code, unit := 0x3000 + u, detail := k.slot, addr := k.addr }))
          ∧ (∀ mat v2, v.callFault k = none →
              (if k.internal then v else v.gateTake k.ctx k.gateCore k.gateCtr k.gateN).callMatrix k = (mat, none, v2) →
              let r := auction mat k.m k.bidLimit
              Answers (.stitcherCallStart u) s (v2.modStc u (fun x => { x with
                st := 1, slotShown := k.slot, call := some k, col := r.col, owner := r.owner, callBids := r.bids
                total := auctionTotal mat r, limited := r.limited, badEnt := (x.badEnt + badEntries mat) % 2 ^ 32 })))))
  ∧ (∀ s : State, (∀ k ∈ s.stc.queue, s.slotClass k.slot < 3) → (s.nextCall = none ↔ ∀ k ∈ s.stc.queue, s.callReady k = false))
  ∧ (∀ (s : State) (k : Call), s.nextCall = some k →
      s.callReady k = true ∧ ∃ before after, s.stc.queue = before ++ k :: after ∧
        (∀ j ∈ before, s.callReady j = true → s.slotClass k.slot < s.slotClass j.slot) ∧
        (∀ j ∈ after, s.callReady j = true → s.slotClass k.slot ≤ s.slotClass j.slot))
  ∧ (∀ (s : State) (u dt : Nat), s.up = true →
      let x := s.stcUnit u
      let v := s.modStc u (fun y => { busy := (y.busy + dt) % 2 ^ 64, bids := (y.bids + y.callBids) % 2 ^ 64, badEnt := y.badEnt })
      (x.call = none → Answers (.stitcherCallComplete u dt) s s)
      ∧ (∀ k, x.call = some k → k.internal = false → Answers (.stitcherCallComplete u dt) s
          (((v.store (s.ctx k.ctx).ways k.resAddr (resultBytes x k.n)).account k.ctx 9 dt).sendIncr
            { ctx := k.ctx, core := k.doneCore, ctr := k.doneCtr, n := k.doneN, fromCtx := false, src := 0x200 + u }))
      ∧ (∀ k, x.call = some k → k.internal = true → Answers (.stitcherCallComplete u dt) s
          (((v.count k.slot 0x70 1).count k.slot 0x77 (b2n x.limited)).modTrk k.slot (fun t => if t.stage = .submitted then { t with stage := .assigned, result := x.col, limited := x.limited } else t))))

/-- R286, R287, R295 to R300, R308, R309: the life of a track. A track more than 16,777,216 ticks behind is deleted without
prediction; a matched tentative track is confirmed when its hits reach confirm_hits, an unmatched one is deleted; a
confirmed one coasts; a coasting one comes back or is deleted at max_miss; a box with no area inside the picture deletes
in any state. An ID holds the slot and a serial that no live track of the slot has, 0 and 0xFFFFFF never issued. -/
def Obligations.TrackLife : Prop :=
  (∀ (p : Pic) (t : Track) (d : Detection) (e : Option (List Byte)),
    let f := fateOf p t (some (d, e))
    (f.dead = !boxInside t.box p.width p.height) ∧ f.t.misses = 0 ∧ f.t.score = d.score ∧ f.t.hits = min 65535 (t.hits + 1) ∧
    (t.state = 1 → p.cfg.track.confirmHits ≤ min 65535 (t.hits + 1) → f.t.state = 2 ∧ f.confirmed = true) ∧
    (t.state = 1 → min 65535 (t.hits + 1) < p.cfg.track.confirmHits → f.t.state = 1 ∧ f.confirmed = false) ∧
    (t.state = 2 ∨ t.state = 3 → f.t.state = 2 ∧ f.confirmed = false) ∧
    (∀ b, e = some b → f.t.emb = b ∧ bit f.t.flags 0 = true) ∧ (e = none → f.t.emb = t.emb))
  ∧ (∀ (p : Pic) (t : Track),
    let f := fateOf p t none
    (t.state = 1 → f.dead = true) ∧
    (t.state = 2 → f.t.state = 3 ∧ f.t.misses = 1 ∧ f.dead = !boxInside t.box p.width p.height) ∧
    (t.state = 3 → f.t.state = 3 ∧ f.t.misses = min 65535 (t.misses + 1) ∧
      (f.dead = true ↔ boxInside t.box p.width p.height = false ∨ p.cfg.track.maxMiss ≤ min 65535 (t.misses + 1))))
  ∧ (∀ (cfg : TrackCfg) (t : Track) (pts : Nat), (t.predict cfg pts = none ↔ t.ptsLast + 16777216 < pts) ∧
      (∀ u, t.predict cfg pts = some u → u.ptsLast = pts ∧ u.id = t.id ∧ u.state = t.state ∧ u.hits = t.hits ∧ u.misses = t.misses ∧ u.emb = t.emb ∧
        ∀ c < 4, u.vel.getD c 0#32 = t.vel.getD c 0#32))
  ∧ (∀ (k : SlotTrack) (n : Nat) (p : Pic) (d : Detection) (e : Option (List Byte)), n < 256 → 1 ≤ k.nextSerial → k.nextSerial ≤ 0xFFFFFE →
      Tbl.wf {} k.tracks = true → (∃ i < 1024, (tget {} k.tracks i).state = 0) → (liveTracks k.tracks).length ≤ 1024 →
      ∃ i < 1024, (tget {} k.tracks i).state = 0 ∧
        let b := k.birth n p d e
        let t := tget {} b.tracks i
        t.state = 1 ∧ t.id / 2 ^ 24 = n ∧ 1 ≤ t.id % 2 ^ 24 ∧ t.id % 2 ^ 24 ≤ 0xFFFFFE ∧
        (∀ u ∈ liveTracks k.tracks, u.2.id % 2 ^ 24 ≠ t.id % 2 ^ 24) ∧ (∀ j, j ≠ i → tget {} b.tracks j = tget {} k.tracks j) ∧
        1 ≤ b.nextSerial ∧ b.nextSerial ≤ 0xFFFFFE)
  ∧ (∀ (cfg : TrackCfg) (t : Track) (d : Detection) (e : Option (List Byte)), cfg.wIou ≤ 16 → benefit cfg t d e ≤ 65536 ∨ benefit cfg t d e = infeasible
      ∨ 4096 < iouQ t.box ⟨d.x0, d.y0, d.x1, d.y1⟩)
  ∧ (∀ a b : List Byte, cosQ a b ≤ 4096)

/-- R289 to R293, R299, R308, R310 to R313: the tracking service's steps on a slot's front picture, each only in its turn:
prediction (a substituted picture coasts; where entries fail, the checkpoint is restored first and a call in flight given
up), the detection list read from memory, filtered and cropped, the matrix submitted, the assignment applied; and a
completed gallery search, which gives the track its global ID, in a follower the recorded one, and inserts it. Out of
turn a step changes nothing. -/
def Obligations.TrackingSteps : Prop :=
  ∀ (s : State) (n : Nat), s.ready = true →
    (∀ p rest, (s.slot n).pics = p :: rest → p.skived = true →
      (p.subst = none → p.cfg.det ≠ none → (s.slot n).trk.stage = .idle → Answers (.trackingPredict n false) s
          ((s.predictAll n p).modTrk n (fun k => { k with stage := .predicted })))
      ∧ (p.subst = none → p.cfg.det ≠ none → (s.slot n).trk.stage ≠ .idle → Answers (.trackingPredict n false) s s)
      ∧ (p.subst ≠ none ∨ p.cfg.det = none → Answers (.trackingPredict n false) s (s.coastPic n p))
      ∧ (p.subst = none → p.cfg.det ≠ none → Answers (.trackingPredict n true) s
          (((s.rewindTracks n).predictAll n p).modTrk n (fun k => { k with stage := .predicted })))
      ∧ (let u := s.rewindTracks n
         (u.slot n).trk = { (s.slot n).trk with tracks := (s.slot n).trk.saved, stage := .idle } ∧
         (∀ k ∈ u.stc.queue, ¬ (k.internal = true ∧ k.slot = n)) ∧
         (∀ i < 4, ∀ k, (u.stcUnit i).call = some k → ¬ (k.internal = true ∧ k.slot = n))))
    ∧ (∀ l, s.frontAt n .predicted = none → Answers (.trackingDetectionsReady n l) s s)
    ∧ (∀ e p c, s.frontAt n .predicted = some p → p.cfg.det = some c →
        let x := s.ctx c
        let a := (x.decl.map (·.detList)).getD 0
        let take := fun (l : DetList) (u : State) =>
          let f := filterDets p.cfg.track p l
          let r := (u.count n 0x76 f.2).cropJob n p f.1
          r.2.modTrk n (fun k => { k with stage := .detected, dets := f.1, crops := r.1 })
        (∀ l u, s.readList c p.cfg.track.detMax e = (.list l, u) → Answers (.trackingDetectionsReady n e) s (take l u))
        ∧ (x.translate a = none → Answers (.trackingDetectionsReady n e) s
            (take ⟨0, 0, 0, []⟩ (s.raise { code := fltMemDecode, unit := 39, addr := a })))
        ∧ (∀ la, x.translate a = some la → (∀ l, s.lineFails l = false ∧ s.cacheBad l = false ∧ s.entryOf l = none) → e.failing = [] → e.cached = [] →
            let k := min (leNat (s.seen la 4)) p.cfg.track.detMax
            s.extOk c false ((a : Int), ((a + 32 : Nat) : Int)) = true → s.extOk c false ((a : Int), ((a + (32 + 32 * k) : Nat) : Int)) = true →
            Reaches (.trackingDetectionsReady n e) s (fun t => (t.slot n).trk.stage = .detected ∧
              (t.slot n).trk.dets = (filterDets p.cfg.track p (detListOf k (s.seen la (32 + 32 * k)))).1)))
    ∧ (∀ (p : Pic) (l : DetList), (l.pts ≠ p.pts ∨ l.seq ≠ p.seq → filterDets p.cfg.track p l = ([], l.count)) ∧
        (∀ d ∈ (filterDets p.cfg.track p l).1, Detection.usable d = true ∧ d ∈ l.entries))
    ∧ (∀ emb, s.frontAt n .detected = none → Answers (.trackingEmbeddingsReady n emb) s s)
    ∧ (∀ emb p, s.frontAt n .detected = some p → s.stc.queue.length < 64 →
        let k := (s.slot n).trk
        let embs := (emb.filter (fun e => k.crops.contains e.1)).map (fun e => (e.1, padTo 256 e.2))
        let live := liveTracks k.tracks
        Answers (.trackingEmbeddingsReady n emb) s
          ((s.stcEnqueue { addr := 0, ctx := 0xFF, slot := n, n := k.dets.length, m := live.length, bidLimit := p.cfg.track.bidLimit, matrix := matrixOf p.cfg.track k.dets embs (live.map (·.2)), internal := true }).modTrk n
            (fun k => { k with stage := .submitted, embs := embs, cols := live.map (·.1) })))
    ∧ (s.frontAt n .assigned = none → Answers (.trackingAssignmentReady n) s s)
    ∧ (∀ p, s.frontAt n .assigned = some p → Answers (.trackingAssignmentReady n) s (s.associate n p))
    ∧ (∀ track failing, s.gallery.searches.find? (fun q => q.slot == n && q.track == track) = none →
        Answers (.gallerySearchComplete n track failing) s s)
    ∧ (∀ track failing q, s.gallery.searches.find? (fun q => q.slot == n && q.track == track) = some q → s.follower = true →
        (∀ r ∈ (s.slot n).trk.recorded, r.1 ≠ track) → Answers (.gallerySearchComplete n track failing) s s)
    ∧ (∀ track failing q e t gid, s.gallery.searches.find? (fun q => q.slot == n && q.track == track) = some q →
        (s.slot n).trk.tracks.find? (fun t => t.2.state != 0 && t.2.id == track) = some (e, t) →
        (s.follower = false → gid = ((s.linkOf q failing).map (·.globalId)).getD track) →
        (s.follower = true → ∃ r, (s.slot n).trk.recorded.find? (fun r => r.1 == track) = some r ∧ gid = r.2) →
        let i := s.gallery.version % (s.slot 0).cfg.track.gallerySize
        Reaches (.gallerySearchComplete n track failing) s (fun u =>
          u.gallery.version = s.gallery.version + 1 ∧ u.gallery.searches = s.gallery.searches.erase q ∧
          u.gallery.entries = tset none s.gallery.entries i
            (some { trackId := track, globalId := gid, slot := n, cls := t.cls, pts := t.ptsLast, emb := t.emb }) ∧
          (tget {} (u.slot n).trk.tracks e).globalId = gid ∧ (tget {} (u.slot n).trk.tracks e).galleryIdx = i))

/-! ### Narrator (R318 to R335) -/


/-- R320 to R324, R328, R330, R332: a request that the service takes. It opens the lowest free session with its pages, or waits
in the queue, and submits its crop job at once; it is refused with FLT_NAR_SHED under shedding, FLT_NAR_PICTURE without
its picture, FLT_NAR_PROMPT for a prompt that cannot fit, FLT_NAR_BUSY with the queue full or no Narrator loaded; each
outcome enters the slot's chain. A cancel ends a session at the next step boundary. A text's next token is the longest of
the table that it begins with, of those as long the lowest ID. -/
def Obligations.NarrationRequests : Prop :=
  (∀ (table : List (List Byte)) (text : List Byte) (id n : Nat), longestToken table text = some (id, n) →
    ∃ t, table[id]? = some t ∧ t ≠ [] ∧ t.isPrefixOf text = true ∧ n = t.length ∧
      ∀ j u, table[j]? = some u → u ≠ [] → u.isPrefixOf text = true → u.length ≤ n ∧ (u.length = n → id ≤ j)) ∧
  ∀ (s : State) (req : NarrReq), s.ready = true → req.host = none →
    (s.narr.ctx = none → Answers (.narrationRequest req) s (s.narrRefuse req 2 fltNarBusy))
    ∧ (∀ c d, s.narr.ctx = some c → s.narrDecl = some d →
      (s.narr.shed = true → Answers (.narrationRequest req) s (s.narrRefuse req 4 fltNarShed))
      ∧ (s.narr.shed = false → s.heldPic req.slot req.picture = none → Answers (.narrationRequest req) s (s.narrRefuse req 5 fltNarPicture))
      ∧ (∀ p, s.narr.shed = false → s.heldPic req.slot req.picture = some p →
        let buf := (lowestFree 96 (s.narr.sessions.map (·.buf) ++ s.narr.queue.map (·.buf))).getD 0
        let w : NarrWait := ⟨req, p.pts, p.marks, buf⟩
        (∀ num, s.narr.sessions.length < 64 → lowestFree 64 (s.narr.sessions.map (·.num)) = some num →
          (NarratorDecl.promptOk d req = true → Answers (.narrationRequest req) s (((s.narrSession d w num).narrEntry req 0 num).narrCrop c req p buf))
          ∧ (NarratorDecl.promptOk d req = false → Answers (.narrationRequest req) s (s.narrRefuse req 3 fltNarPrompt)))
        ∧ (64 ≤ s.narr.sessions.length → s.narr.queue.length < s.odNat 0x8300 2 32 → Answers (.narrationRequest req) s
            (((({ s with narr := { s.narr with queue := s.narr.queue ++ [w] } } : State).narrMirror).narrEntry req 1 0xFF).narrCrop c req p buf))
        ∧ (64 ≤ s.narr.sessions.length → s.odNat 0x8300 2 32 ≤ s.narr.queue.length → Answers (.narrationRequest req) s
            (s.narrRefuse req 2 fltNarBusy))))
    ∧ (∀ route, (NarrReq.inRange { req with host := some route } = false →
        Answers (.narrationRequest { req with host := some route }) s (s.emit (.odReply route 0 3 [])))
      ∧ (s.narr.ctx = none → NarrReq.inRange { req with host := some route } = true →
        Answers (.narrationRequest { req with host := some route }) s
          ((s.narrRefuse { req with host := some route } 2 fltNarBusy).emit (.odReply route 0 9 (leBytes 2 fltNarBusy)))))
    ∧ (∀ num, s.narr.running = true → Answers (.narrationCancel num) s { s with narr := { s.narr with
        sessions := modWhere (fun x => x.num == num) (fun x => { x with cancel := true }) s.narr.sessions } })
    ∧ (∀ num, s.narr.running = false → Answers (.narrationCancel num) s (State.narrBoundary { s with narr := { s.narr with
        sessions := modWhere (fun x => x.num == num) (fun x => { x with cancel := true }) s.narr.sessions } }))

/-- R323, R325, R326, R331: steps. A step gives every session in decode one row, at most 128 prefill rows to the sessions in the
order of opening, and the embedding to one session, and reads the weights of its image; at its end each sampling session takes one token, and ends at the
end-of-sequence or newline token, at max_tokens truncated, or with fault where no logit is a number.

R331, R334: sampling to the bit. Greedy takes the largest logit, ties to the lower ID, a NaN never while another stands; the
weight table holds the nearest integers; with top_k 3, T 0.5 and logits 12, 11.5 and 10 the weights are 65,536, 32,768
and 4,096 and the draws 0x800000 and 0xC00000 give the first and the second; every token is one of the IDs. Captions'
text is well-formed UTF-8 of at most 1,024 bytes, plain ASCII unchanged. -/
def Obligations.NarratorSteps : Prop :=
  ((∀ (s : State) (d : NarratorDecl), s.ready = true → s.narrDecl = some d →
     let xs := buildStep d s.narr.sessions
     (s.narr.running = true → Answers .narratorStepStart s s)
     ∧ (∀ c, s.narr.ctx = some c → s.narr.running = false → xs.any (fun x => x.inStep != 0 || x.embedding) = true →
         Answers .narratorStepStart s (State.account { s with narr := { s.narr with sessions := xs, running := true } } c 11 (s.ctx c).weightBytes))
     ∧ (s.narr.running = false → xs.any (fun x => x.inStep != 0 || x.embedding) = false → Answers .narratorStepStart s s)
     ∧ (∀ num, Answers (.narratorEmbedComplete num) s { s with narr := { s.narr with
         sessions := modWhere (fun x => x.num == num && x.st == .embed && x.embedding) (fun x => { x with st := .ready, embedding := false }) s.narr.sessions } })
     ∧ (∀ us logits, s.narr.running = true → Answers (.narratorStepComplete us logits) s
         (let u : State := { s with narr := { s.narr with
            running := false, steps := (s.narr.steps + 1) % 2 ^ 64, stepMax := max s.narr.stepMax (us % 2 ^ 32) } }
          (u.narr.sessions.foldl (fun s x => s.narrToken d logits x) u).narrBoundary))
     ∧ (∀ us logits, s.narr.running = false → Answers (.narratorStepComplete us logits) s s))
   ∧ (∀ (d : NarratorDecl) (xs : List Session), (xs.map (·.num)).Nodup →
       let ys := buildStep d xs
       ys.map (·.num) = xs.map (·.num) ∧
       (∀ y ∈ ys, y.st = .decode → y.inStep = 1) ∧ ((ys.filter (fun y => y.st == .prefill)).map (·.inStep)).sum ≤ 128 ∧
       (∀ y ∈ ys, y.st = .prefill → y.inStep ≤ NarratorDecl.rows d y - y.pos) ∧ (ys.filter (·.embedding)).length ≤ 1 ∧ (∀ y ∈ ys, y.embedding = true → y.st = .embed))
   ∧ (∀ (s : State) (d : NarratorDecl) (logits : List (Nat × List Word)) (x : Session), (s.narr.sessions.map (·.num)).Nodup → x ∈ s.narr.sessions →
       samples d x = false → ∀ y ∈ (s.narrToken d logits x).narr.sessions, y.num = x.num → y.tokens = x.tokens ∧ y.st = x.st)) ∧
  ((∀ (xs : List (Nat × Word)) (b : Nat × Word), bestId xs = some b →
       (∃ before after, xs = before ++ b :: after ∧ (∀ x ∈ before, logitAbove b.2 x.2 = true) ∧ (∀ x ∈ after, logitAbove x.2 b.2 = false)) ∧
       ((∃ x ∈ xs, fIsNan f32 x.2.toNat = false) → fIsNan f32 b.2.toNat = false))
   ∧ (∀ d < 1024, (2 * expTab d - 1) ^ 64 ≤ 2 ^ (1088 - d) ∧ 2 ^ (1088 - d) < (2 * expTab d + 1) ^ 64)
   ∧ expTab 0 = 65536 ∧ expTab 64 = 32768 ∧ expTab 256 = 4096 ∧ expTab 986 = 2 ∧ expTab 987 = 1 ∧ expTab 1023 = 1
   ∧ topIds 3 [(77, 0x41380000#32), (410, 0x41400000#32), (9002, 0x41200000#32)] =
       [(410, 0x41400000#32), (77, 0x41380000#32), (9002, 0x41200000#32)]
   ∧ (∀ o, logitDist 0x41400000#32 0x41400000#32 0x40000000#32 o = 0 ∧ logitDist 0x41400000#32 0x41380000#32 0x40000000#32 o = 64 ∧
       logitDist 0x41400000#32 0x41200000#32 0x40000000#32 o = 256)
   ∧ pickAt ((0x800000 * 102400) >>> 24) 0 [(410, 65536), (77, 32768), (9002, 4096)] 0 = 410
   ∧ pickAt ((0xC00000 * 102400) >>> 24) 0 [(410, 65536), (77, 32768), (9002, 4096)] 0 = 77
   ∧ (∀ (ws : List (Nat × Nat)) (u last : Nat), u < 2 ^ 24 → ws ≠ [] → (∀ w ∈ ws, 1 ≤ w.2) →
       ∃ w ∈ ws, pickAt ((u * (ws.map (·.2)).sum) >>> 24) 0 ws last = w.1)
   ∧ (∀ bs : List Byte, (cleanUtf8 bs).length ≤ 1024)
   ∧ (∀ bs : List Byte, (∀ b ∈ bs, b.toNat < 0x80) → cleanUtf8 bs = bs.take 1024))
/-! ### Delivery (R336 to R360, R515, R591) -/

/-- R352, R353, R346: a ring takes a record only where it fits with one unit kept free, or together with a pending loss record in
that unit; then no write crosses the ring's end or reaches units that the host has not released, head moves past all
that was written and is written back last. A record that does not fit, or finds the ring disabled, changes no head: it
is counted, and the loss record that will follow counts it too. Record writes carry Relaxed Ordering where the host
enables it, the head's writeback never (R506). The worked example moves head from 2,040 to 2,060.

R337, R345, R351, R591: stream and fault records. A record's length is a whole number of 32 B units, told in its bytes 2 and
3; a slot's seq counts each of its stream records, whatever the route; a fault record carries its fields in the places
of R345 with the next device sequence number, is held as the last record, and goes to ring 0 and collector 0, or sets
PCI_DEV_EVENTS.fault where neither takes it. -/
def Obligations.RingWrites : Prop :=
  ((∀ (ro : Bool) (n : Nat) (r r' : Ring) (bytes : List Byte) (os : List Out), 12 ≤ r.sizeLog2 → r.sizeLog2 ≤ 26 → r.head < 2 ^ 32 → r.tail < 2 ^ 32 →
     bytes.length % 32 = 0 → 32 ≤ bytes.length → r.used ≤ r.units → r.write ro n bytes = some (os, r') →
       r.enable = true ∧ r'.used ≤ r'.units ∧ (r.lost = 0 → r'.used < r'.units) ∧ r'.lost = 0 ∧ r'.tail = r.tail ∧ r'.drops = r.drops ∧
       (∃ skip, skip ≤ 1 + bytes.length / 32 ∧ r'.head = (r.head + skip + bytes.length / 32) % 2 ^ 32 ∧
         r'.used = r.used + skip + bytes.length / 32 ∧ (r.lost = 0 ∧ skip = 0 → os = [.hostWrite (r.addr r.head) bytes ro,
           .hostWrite r.wb (leBytes 4 r'.head ++ leBytes 4 0) false])) ∧
       (∃ pre, os = pre ++ [.hostWrite (r.addr ((r'.head + 2 ^ 32 - bytes.length / 32) % 2 ^ 32)) bytes ro
           , .hostWrite r.wb (leBytes 4 r'.head ++ leBytes 4 0) false] ∧
         (r.lost ≠ 0 → .hostWrite (r.addr r.head) (lossRecord n r.lost r.lostCause) ro ∈ pre) ∧
         (∀ o ∈ pre, ∃ a bs, o = .hostWrite a bs ro)) ∧
       (∀ a bs f, .hostWrite a bs f ∈ os → (a = r.wb ∧ bs.length = 8) ∨ (r.base ≤ a ∧ a + bs.length ≤ r.base + 2 ^ r.sizeLog2)))
   ∧ (∀ (s : State) (n : Nat) (bytes : List Byte), (s.ring n).enable = false ∨ s.hostUp = false →
       s.ringPut n bytes = (false, s.modRing n (fun r => { r with drops := (r.drops + 1) % 2 ^ 64, lost := min (r.lost + 1) (2 ^ 32 - 1) })))
   ∧ (∀ (s : State) (n : Nat) (bytes : List Byte), (s.ringPut n bytes).1 = true →
       ((s.ringPut n bytes).2.ring n).drops = (s.ring n).drops ∧ ∀ m, m ≠ n → (s.ringPut n bytes).2.ring m = s.ring m)
   ∧ (∀ (n : Nat) (r : Ring) (bytes : List Byte), r.enable = true → r.sizeLog2 = 16 → r.head = 2040 → r.tail = 1000 → r.lost = 0 →
       bytes.length = 384 → ∃ os, r.write true n bytes = some ([.hostWrite (r.base + 65280) (padRecord 8) true, .hostWrite r.base bytes true,
         .hostWrite r.wb (leBytes 4 2060 ++ leBytes 4 0) false], os) ∧ os.head = 2060)) ∧
  ((∀ (slot ty seq pts : Nat) (chain body : List Byte), 32 + body.length ≤ 32 * 65535 → slot < 256 → ty < 256 →
     let b := streamRecord slot ty seq pts chain body
     b.length % 32 = 0 ∧ b.length = 32 * fieldAt b 2 2 ∧ fieldAt b 0 1 = ty ∧ fieldAt b 1 1 = slot ∧ fieldAt b 4 4 = seq % 2 ^ 32 ∧
     fieldAt b 8 8 = pts % 2 ^ 64 ∧ (b.drop 32).take body.length = body ∧ (chain.length = 16 → (b.drop 16).take 16 = chain))
   ∧ (∀ (f : FaultInfo) (seq : Nat), let b := faultRecord f seq
     b.length = 32 ∧ fieldAt b 0 1 = 6 ∧ fieldAt b 1 1 = f.ctx % 256 ∧ fieldAt b 2 2 = 1 ∧ fieldAt b 4 4 = f.unit % 2 ^ 32 ∧
     fieldAt b 8 4 = f.detail % 2 ^ 32 ∧ fieldAt b 12 2 = f.code % 65536 ∧ fieldAt b 14 2 = 0 ∧ fieldAt b 16 8 = f.addr % 2 ^ 64 ∧ fieldAt b 24 2 = f.slot % 65536 ∧ fieldAt b 26 2 = 0 ∧
     fieldAt b 28 4 = seq % 2 ^ 32)
   ∧ (∀ (s : State) (f : FaultInfo), (s.raise f).od.faultSeq = s.od.faultSeq + 1 ∧ (s.raise f).od.lastRecord = faultRecord f s.od.faultSeq ∧
       (s.raise f).mem = s.mem ∧ (s.raise f).cores = s.cores ∧ (s.raise f).ctxs = s.ctxs ∧ (s.raise f).slots = s.slots ∧ (s.raise f).tkp = s.tkp ∧
       (s.raise f).pending = s.pending ∧
       ((s.ring 0).enable = false → (s.coll 0).enable = false → bit (s.raise f).pci.events 1 = true))
   ∧ (∀ (s : State) (n ty pts : Nat) (body : List Byte), ((s.streamOut n ty pts body).slot n).chain.seq = ((s.slot n).chain.seq + 1) % 2 ^ 32))


/-- R354, R355, R515: ring and MSI-X commands. A valid tail write moves tail; one beyond head or backwards disables the ring with
FLT_MDO_TAIL; a control write with a legal size enables with head = tail = 0, keeping a pending loss; the moderation
timer signals what stands unsignalled; unmasking sends what is pending in ascending order.

R357 to R359: collectors. The datagram timer sends the datagram being filled under the next number; an acknowledgement resends
what it reports missing and is still held, counts the rest as loss with cause 1, and marks the collector up; a missing
acknowledgement marks it down with FLT_MDO_COLLECTOR, once; records to a collector that is down are counted with cause
2. -/
def Obligations.RingCommandsAndCollectors : Prop :=
  (∀ (s : State) (n v : Nat), s.up = true → n < 64 →
     let r := s.ring n
     let t := v % 2 ^ 32
     (r.enable = false ∨ (t + 2 ^ 32 - r.tail) % 2 ^ 32 ≤ r.used → Answers (.ringTailWrite n v) s (s.modRing n (fun r => { r with tail := t })))
     ∧ (r.enable = true → r.used < (t + 2 ^ 32 - r.tail) % 2 ^ 32 → Answers (.ringTailWrite n v) s
         ((s.modRing n (fun r => { r with enable := false, tailFault := true })).raise { code := fltMdoTail, unit := n, addr := t }))
     ∧ (let size := v / 2 % 32
        (size < 12 ∨ 26 < size → Answers (.ringCtrlWrite n v) s s)
        ∧ (12 ≤ size → size ≤ 26 → v % 2 = 1 → r.enable = false → Answers (.ringCtrlWrite n v) s (s.modRing n (fun r => { r with
             sizeLog2 := size, vector := v / 256 % 256, enable := true, head := 0, tail := 0, drops := 0, unsig := 0 })))
        ∧ (12 ≤ size → size ≤ 26 → v % 2 = 0 ∨ r.enable = true → Answers (.ringCtrlWrite n v) s (s.modRing n (fun r => { r with
             sizeLog2 := size, vector := v / 256 % 256, enable := v % 2 == 1 }))))
     ∧ (r.modTime ≠ 0 → r.unsig ≠ 0 → Answers (.msixModerationTimer n) s ((s.modRing n (fun r => { r with unsig := 0 })).msix r.vector))
     ∧ (r.modTime = 0 ∨ r.unsig = 0 → Answers (.msixModerationTimer n) s s)
     ∧ (∀ un, s.hostUp = true → Answers (.msixUnmask true false un) s (State.emits
         { s with pci := { s.pci with msixEn := true, funcMask := false, unmasked := un, pba := s.pci.pba.filter (fun v => !un.contains v) } }
         ((s.pci.pba.filter (fun v => un.contains v)).map Out.msix)))
     ∧ (∀ en fm un, en = false ∨ fm = true ∨ s.hostUp = false → Answers (.msixUnmask en fm un) s
         { s with pci := { s.pci with msixEn := en, funcMask := fm, unmasked := un } })
     ∧ (∀ k, s.hostUp = true → s.pci.msixEn = true → s.pci.funcMask = false → s.pci.unmasked.contains k = true → s.msix k = s.emit (.msix k))
     ∧ (∀ k, s.hostUp = false ∨ s.pci.msixEn = false ∨ s.pci.funcMask = true ∨ s.pci.unmasked.contains k = false →
         k ∈ (s.msix k).pci.pba ∧ (s.msix k).out = s.out)) ∧
  (∀ (s : State) (k : Nat), s.up = true →
     let c := s.coll k
     (c.filling = [] → Answers (.collectorDatagramTimer k) s s)
     ∧ (c.filling ≠ [] → Reaches (.collectorDatagramTimer k) s (fun t =>
         t.out = .blp k (blpFrame 6 0 0 (leBytes 2 k ++ leBytes 2 c.filling.length ++ leBytes 4 c.nextNo ++ copies 8 0#8 ++ c.filling.flatten)) :: s.out ∧
         (t.coll k).filling = [] ∧ (t.coll k).nextNo = (c.nextNo + 1) % 2 ^ 32 ∧ (t.coll k).lost = c.lost ∧ (∀ j, j ≠ k → t.coll j = s.coll j)))
     ∧ (∀ hi bm, c.enable = false → Answers (.deliveryAck k hi bm) s s)
     ∧ (∀ hi bm, c.enable = true → Reaches (.deliveryAck k hi bm) s (fun t =>
         (t.coll k).up = true ∧ (t.coll k).acked = some hi ∧ (t.coll k).kept = c.kept ∧ (t.coll k).nextNo = c.nextNo ∧
         (∃ sent, t.out = sent ++ s.out ∧ sent.reverse = (c.kept.filter (fun d => (missingOf hi bm).contains d.1)).map (fun d => .blp k d.2)) ∧
         (missingOf hi bm = [] → (t.coll k).lost = c.lost ∧ (t.coll k).dropped = c.dropped) ∧ (c.up = false → (t.coll k).lossDue = true) ∧
         (∀ d n, c.sent = [(d, n)] → d ∈ missingOf hi bm → c.kept = [] → (t.coll k).lossDue = true ∧ (t.coll k).lost = min (c.lost + n) (2 ^ 32 - 1) ∧
           (t.coll k).sent = []) ∧ (∀ j, j ≠ k → t.coll j = s.coll j)))
     ∧ (c.enable = true → c.up = true → Answers (.collectorAckTimeout k) s
         ((s.modColl k (fun c => { c with
             up := false, filling := [], lossDue := true, lost := min (c.lost + c.filling.length) (2 ^ 32 - 1), lostCause := 2,
             dropped := (c.dropped + c.filling.length) % 2 ^ 64 })).raise { code := fltMdoCollector, unit := k }))
     ∧ (c.enable = false ∨ c.up = false → Answers (.collectorAckTimeout k) s s)
     ∧ (∀ bytes, c.enable = true → c.up = false → s.collPut k bytes =
         (false, s.modColl k (fun c => { c with lossDue := true, lost := min (c.lost + 1) (2 ^ 32 - 1), lostCause := 2, dropped := (c.dropped + 1) % 2 ^ 64 })))
     ∧ (∀ hi bm m, m ∈ missingOf hi bm ↔ ∃ i l, i < l ∧ l < 64 ∧ bit bm l = true ∧ bit bm i = false ∧ m = (hi + 1 + i) % 2 ^ 32))

/-! ### The saddle (R361 to R366, R370, R373 to R375, R379, R380, R384 to R407) -/

/-- R362, R363, R373: a DRAM address is its row, channel, column, bank and byte; the duplicate of a page lies in the same row
of the other die. The worked example 0x2_4567_89C0 decodes as the rule says. R373, R386, R387: what an agent stores within a
line with no failing check, agents then see, whether it went to the cache, to DRAM or into the channel's merge buffer; every other
byte is as before, but for the duplicate of a Class P line. -/
def Obligations.SaddleStores : Prop :=
  (∀ a : Nat, a < saddleSize → a = a % 64 + bankOf a * 64 + a / 2048 % 32 * 2048 + chanOf a * 65536 + rowOf a * 2 ^ 22 ∧
     bankOf a < 32 ∧ chanOf a < 64 ∧ rowOf a < 4096 ∧ cacheSet a < 1024 ∧ dieOf (chanOf a) = chanOf a / 32)
   ∧ (∀ (s : State) (p : Nat), s.mem.lostDie = none → p < 2 ^ 18 → s.partner p < 2 ^ 18 ∧ s.partner (s.partner p) = p ∧
       rowOf (s.partner p * pageSize) = rowOf (p * pageSize) ∧ dieOf (chanOf (s.partner p * pageSize)) = 1 - dieOf (chanOf (p * pageSize)))
   ∧ (∀ s : State, s.mem.lostDie = none → chanOf 0x2456789C0 = 39 ∧ rowOf 0x2456789C0 = 2325 ∧ bankOf 0x2456789C0 = 7 ∧
       0x2456789C0 / 2048 % 32 = 17 ∧ s.partner (pageOf 0x2456789C0) = 148807 ∧ cacheSet 0x2456789C0 = 818)
   ∧ (∀ (s : State) (ways a : Nat) (bs : List Byte), bs ≠ [] → a % lineLen a + bs.length ≤ lineLen a →
       let line := a / lineLen a * lineLen a
       s.lineFails line = false → s.cacheBad line = false → s.entryOf line = none → (s.chan (chanOf line)).merges.length < 16 →
       (s.store ways a bs).seen a bs.length = bs ∧
       (∀ x, ¬ (a ≤ x ∧ x < a + bs.length) →
         ¬ (s.classOf a = 1 ∧ s.partner (pageOf a) * pageSize + a % pageSize ≤ x ∧ x < s.partner (pageOf a) * pageSize + a % pageSize + bs.length) →
         (s.store ways a bs).seen x 1 = s.seen x 1))

/-- R385, R391, R392, R404: a line whose check holds is delivered; a saddle line that fails is read once more: a second read that passes
delivers it, counted as transient; else the line's class decides: Class P is delivered and rewritten from its duplicate, or, where that
fails too, is lost with FLT_INT_P_LOST; Class X raises FLT_INT_HOST; Class R is left to its consumer. Each failure is counted
once, and no byte changes but those a duplicate repairs. A line in the memory-side cache is tested there: a clean one that fails is
fetched from DRAM again; a dirty one is a Class R or Class X failure of the line, counted at its slice, with detail 1. -/
def Obligations.LineChecks : Prop :=
  ∀ (s : State) (port line : Nat) (e : ReadErrors), line % 64 = 0 → line < saddleSize →
    let cnt := fun (t : State) (i : Nat) => tget 0 t.mem.cnt (cntKey 0 (chanOf line) i)
    let up := fun (n : Nat) => (n + 1) % 2 ^ 64
    let other := s.partner (pageOf line) * pageSize + line % pageSize
    let r := s.testLine port line e
    (s.lineFails line = false → e.failing.contains line = false → r = (.ok, s))
    ∧ (s.lineFails line = false → e.failing.contains line = true → e.transient.contains line = true →
        r.1 = .ok ∧ r.2.lineFails line = false ∧ r.2.mem.bytes = s.mem.bytes ∧ cnt r.2 0 = up (cnt s 0) ∧ cnt r.2 1 = up (cnt s 1))
    ∧ (s.lineFails line = true ∨ (e.failing.contains line = true ∧ e.transient.contains line = false) →
        cnt r.2 0 = up (cnt s 0) ∧ cnt r.2 1 = cnt s 1
        ∧ (s.classOf line = 1 → s.lineFails other = false → e.failing.contains other = false →
            r.1 = .ok ∧ r.2.lineFails line = false ∧ cnt r.2 2 = up (cnt s 2) ∧ r.2.rdBytes line 64 = s.rdBytes other 64 ∧
            (∀ x, x < line ∨ line + 64 ≤ x → r.2.rdByte x = s.rdByte x))
        ∧ (s.classOf line = 1 → s.lineFails other = true ∨ e.failing.contains other = true →
            r.1 = .lostP ∧ r.2.lineFails line = true ∧ r.2.lineFails other = true ∧ cnt r.2 3 = up (cnt s 3) ∧
            r.2.mem.bytes = s.mem.bytes ∧ r.2.mem.lostLines = s.mem.lostLines ++ [line] ∧
            ∃ q, r.2.od.lastRecord = faultRecord { code := fltIntPLost, unit := port, addr := line } q)
        ∧ (s.classOf line = 2 → r.1 = .failedX ∧ r.2.lineFails line = true ∧ cnt r.2 5 = up (cnt s 5) ∧ r.2.mem.bytes = s.mem.bytes ∧
            ∃ q, r.2.od.lastRecord = faultRecord { code := fltIntHost, unit := port, addr := line } q)
        ∧ (s.classOf line = 0 → r.1 = .failedR ∧ r.2.lineFails line = true ∧ cnt r.2 4 = up (cnt s 4) ∧ r.2.mem.bytes = s.mem.bytes))
    ∧ (∀ (ways : Nat) (c : CacheLine), s.entryOf line = none → tget none s.mem.cache line = some c →
        let q := s.readLine port ways line e
        let slice := fun (t : State) (i : Nat) => tget 0 t.mem.cnt (cntKey 1 (chanOf line) i)
        (c.bad = false → e.cached.contains line = false → q.1 = .ok ∧ q.2.mem.bytes = s.mem.bytes ∧ q.2.mem.failing = s.mem.failing)
        ∧ (c.bad = true ∨ e.cached.contains line = true → slice q.2 0 = up (slice s 0) ∧
            (c.dirty = false → s.lineFails line = false → e.failing.contains line = false → q.1 = .ok ∧ q.2.mem.bytes = s.mem.bytes ∧ q.2.cacheBad line = false)
            ∧ (c.dirty = true → s.classOf line ≠ 2 → q.1 = .failedR ∧ q.2.mem.bytes = s.mem.bytes ∧ q.2.cacheBad line = true ∧ slice q.2 4 = up (slice s 4))
            ∧ (c.dirty = true → s.classOf line = 2 → q.1 = .failedX ∧ q.2.mem.bytes = s.mem.bytes ∧ slice q.2 5 = up (slice s 5) ∧
                ∃ n, q.2.od.lastRecord = faultRecord { code := fltIntHost, unit := port, detail := 1, addr := line } n)))

/-- R370, R375, R379, R380, R387, R397, R398, R402, R403: the commands of the memory system. A request's urgency rises at 50, 75 and 90 %
of its port's target and it is counted late once at 100 %; a bank postpones up to eight refreshes and the ninth is forced; a channel
retrains when no other does and the die moved by 10 °C, and the third failure in a row makes it train with the conservative profile; a
flush leaves every cached line valid and clean; a merge entry closes by read-modify-write, or is discarded where the line fails; the
two walks read their next line and go on; a quarantine copy's end puts the row on its spare; the Keeper appends the oldest pending
entry. -/
def Obligations.MemoryCommands : Prop :=
  ∀ s : State, s.up = true →
    (∀ port age, port < 44 → Reaches (.requestUrgencyRise port age) s (fun t =>
       let m := tget {} s.mem.ports port
       let target := m.target.getD (defaultTarget port)
       let m' := tget {} t.mem.ports port
       (target = 0 ∨ age < target * 50 / 100 → m'.urgency = 0)
       ∧ (target ≠ 0 → target * 50 / 100 ≤ age → age < target * 75 / 100 → m'.urgency = 1)
       ∧ (target ≠ 0 → target * 75 / 100 ≤ age → age < target * 90 / 100 → m'.urgency = 2)
       ∧ (target ≠ 0 → target * 90 / 100 ≤ age → m'.urgency = 3)
       ∧ m'.late = (if target ≠ 0 ∧ age = target then (m.late + 1) % 2 ^ 64 else m.late) ∧ m'.maxLat = max m.maxLat age ∧
       (∀ q, q ≠ port → tget {} t.mem.ports q = tget {} s.mem.ports q) ∧ t = { s with mem := { s.mem with ports := t.mem.ports } }))
    ∧ (∀ ch bank, ch < 64 → bank < 32 → (s.chan ch).st = .active →
        let p := tget 0 (s.chan ch).postponed bank
        Reaches (.refreshDue ch bank true) s (fun t =>
            tget 0 (t.chan ch).postponed bank = (if p < 8 then p + 1 else 0) ∧
            (t.chan ch).refForced = (if p < 8 then (s.chan ch).refForced else ((s.chan ch).refForced + 1) % 2 ^ 32) ∧
            (∀ b, b ≠ bank → tget 0 (t.chan ch).postponed b = tget 0 (s.chan ch).postponed b))
        ∧ Reaches (.refreshDue ch bank false) s (fun t =>
            tget 0 (t.chan ch).postponed bank = 0 ∧ (t.chan ch).refForced = (s.chan ch).refForced))
    ∧ (∀ ch tempC o, ch < 64 → (s.chan ch).st = .active → (s.chan ch).trainTemp = some o →
        (o + 10 ≤ tempC ∨ tempC + 10 ≤ o → (∀ p ∈ s.mem.chans, p.2.st ≠ .training) → Answers (.channelRetrain ch tempC) s
          (s.modChan ch (fun c => { c with st := .training, trainTemp := some tempC, hot := decide (85 < tempC) })))
        ∧ (tempC < o + 10 ∧ o < tempC + 10 → Answers (.channelRetrain ch tempC) s (s.modChan ch (fun c => { c with hot := decide (85 < tempC) }))))
    ∧ (∀ ch, ch < 64 → (s.chan ch).st = .training → (s.chan ch).waitRemap = [] →
        Reaches (.retrainComplete ch true) s (fun t => (t.chan ch).st = .active ∧ (t.chan ch).failRun = 0 ∧
            (t.chan ch).retrained = ((s.chan ch).retrained + 1) % 2 ^ 16 ∧ (t.chan ch).conservative = (s.chan ch).conservative ∧ t.out = s.out)
        ∧ ((∀ c, s.chanLost (s.chan c) = false) → Reaches (.retrainComplete ch false) s (fun t =>
            (t.chan ch).st = (if (s.chan ch).failRun = 2 ∧ (s.chan ch).conservative = false then .training else .active) ∧ (t.chan ch).conservative = decide ((s.chan ch).failRun = 2 ∨ (s.chan ch).conservative = true) ∧
            (t.chan ch).failed = ((s.chan ch).failed + 1) % 2 ^ 16 ∧ (t.chan ch).retrained = (s.chan ch).retrained ∧
            t.od.lastRecord = faultRecord { code := fltMemTrain, unit := ch } s.od.faultSeq)))
    ∧ Answers .cacheFlush s { s with mem := { s.mem with flushing := true } }
    ∧ (s.mem.flushing = false → Answers .flushComplete s s)
    ∧ (s.mem.flushing = true → Reaches .flushComplete s (fun t => t.mem.flushing = false ∧
        (∀ line c, tget none t.mem.cache line = some c → c.dirty = false) ∧
        (∀ line, (tget none s.mem.cache line).isSome = true → (tget none t.mem.cache line).isSome = true) ∧
        (∀ line, (∀ p ∈ s.mem.cache, p.1 ≠ line) → tget none t.mem.cache line = none) ∧
        ((∀ p ∈ s.mem.chans, p.2.merges = []) → t.mem.bytes = s.mem.bytes)))
    ∧ (∀ ch line e m, ch < 64 → line % 64 = 0 → line < saddleSize → chanOf line = ch → s.entryOf line = some m → m.bytes.length < 64 →
        (m.bytes.map (·.1)).Nodup → (∀ b ∈ m.bytes, b.1 < 64) → s.mem.lostLines = [] →
        (s.lineFails line = false → e.failing.contains line = false → Reaches (.mergeEntryTimeout ch line e) s (fun t =>
          t.entryOf line = none ∧ t.rdBytes line 64 = s.seen line 64 ∧ tget 0 t.mem.cnt (cntKey 0 ch 7) = (tget 0 s.mem.cnt (cntKey 0 ch 7) + 1) % 2 ^ 64))
        ∧ (s.lineFails line = true → s.classOf line = 0 → Reaches (.mergeEntryTimeout ch line e) s (fun t =>
          t.entryOf line = none ∧ t.mem.bytes = s.mem.bytes ∧ t.lineFails line = true ∧
          tget 0 t.mem.cnt (cntKey 0 ch 6) = (tget 0 s.mem.cnt (cntKey 0 ch 6) + 1) % 2 ^ 64)))
    ∧ (∀ e, (s.mem.burn.dramEn = false → Answers (.burnisherLine e) s s)
        ∧ (s.mem.burn.dramEn = true → s.mem.lostLines = [] → s.mem.burn.pos < 2 ^ 28 →
            let line := s.mem.burn.pos * 64
            (s.burnSkips line = true ∨ (s.lineFails line = false ∧ e.failing.contains line = false) → Reaches (.burnisherLine e) s (fun t =>
              t.mem.burn.pos = (s.mem.burn.pos + 1) % 2 ^ 28 ∧ t.mem.bytes = s.mem.bytes ∧ t.mem.failing = s.mem.failing ∧ t.out = s.out ∧
              t.mem.burn.passes = (if s.mem.burn.pos = 2 ^ 28 - 1 then (s.mem.burn.passes + 1) % 2 ^ 32 else s.mem.burn.passes) ∧
              t.mem.burn.lines = (if s.burnSkips line then s.mem.burn.lines else (s.mem.burn.lines + 1) % 2 ^ 64)))
            ∧ (s.burnSkips line = false → s.lineFails line = true → s.classOf line ≠ 1 → Reaches (.burnisherLine e) s (fun t =>
              t.mem.burn.pos = (s.mem.burn.pos + 1) % 2 ^ 28 ∧ t.mem.bytes = s.mem.bytes ∧ t.lineFails line = true ∧ t.ctxs = s.ctxs ∧ t.slots = s.slots ∧
              tget 0 t.mem.cnt (cntKey 0 (chanOf line) 9) = (tget 0 s.mem.cnt (cntKey 0 (chanOf line) 9) + 1) % 2 ^ 64))))
    ∧ (∀ f, (s.mem.burn.onchipEn = false → Answers (.onchipScrubLine f) s s)
        ∧ (∀ b, s.mem.burn.onchipEn = true → s.nextBank (s.mem.burn.onchipPos / 1024) (s.walkBanks - s.mem.burn.onchipPos / 1024) = some b →
            let line := s.walkLine b (if b = s.mem.burn.onchipPos / 1024 then s.mem.burn.onchipPos % 1024 else 0)
            Reaches (.onchipScrubLine f) s (fun t => t.mem.burn.lines = (s.mem.burn.lines + 1) % 2 ^ 64 ∧ t.mem.bytes = s.mem.bytes ∧
              t.lineFails line = (f || s.lineFails line) ∧ t.out = s.out))
        ∧ (s.mem.burn.onchipEn = true → s.nextBank (s.mem.burn.onchipPos / 1024) (s.walkBanks - s.mem.burn.onchipPos / 1024) = none →
            Reaches (.onchipScrubLine f) s (fun t => t.mem.burn.onchipPos = 0 ∧ t.mem.burn.onchipPasses = (s.mem.burn.onchipPasses + 1) % 2 ^ 32)))
    ∧ (∀ ch i r, tget none (s.chan ch).remap i = some r → r.copying = true → (∀ l ∈ rowLines ch r.bank r.row, s.classOf l ≠ 1) →
        Answers (.quarantineCopyComplete ch i) s (s.modChan ch (fun c => { c with remap := tset none c.remap i (some { r with copying := false }) })))
    ∧ (s.kpr.appends = [] → Answers .spareEntryAppend s s)
    ∧ (∀ a rest, s.kpr.appends = a :: rest → Reaches .spareEntryAppend s (fun t => t.kpr.appends = rest ∧
        t.flash.pendingSpares = s.flash.pendingSpares ++ [a] ∧ t.kpr.signed = (s.kpr.signed + 1) % 2 ^ 64))

/-! ### The Tack pool (R408 to R423, R596) -/

/-- R596: the Cantle refuses a reservation only when no assignment exists. `give i j` is what demand `i` takes of channel pair `j`:
each demand is met from its own channels, no page goes twice, a Class P demand takes whole pairs. -/
def Obligations.AssignmentsAreFoundExactly : Prop :=
  ∀ (us : List Supply) (ds : List Demand),
    assignable us ds = true ↔ ∃ give : Nat → Nat → Nat,
      (∀ i d, ds[i]? = some d → ((List.range us.length).map (fun j => give i j)).sum = d.n)
      ∧ (∀ i j d u, ds[i]? = some d → us[j]? = some u → bit d.set u.chan = false → give i j = 0)
      ∧ (∀ j u, us[j]? = some u →
          ((List.range ds.length).map (fun i => match ds[i]? with | some d => if d.isP then 2 * give i j else give i j | none => 0)).sum ≤ u.total ∧
          ((List.range ds.length).map (fun i => match ds[i]? with | some d => if d.isP then give i j else 0 | none => 0)).sum ≤ u.pairs)

/-- R408 to R411, R414, R416 to R420, R422: the pool's commands, with the low word held (R8) and no allocation waiting; one that finds
an allocation waiting waits behind it. A page is the lowest (retain) or highest page that may be taken; a release puts it in zeroing,
on its channel's list; zeroing ends with a page that reads zero, has no failing line, is free and has a new generation. A buffer's
references are counted as R416 says; the refusals of R417 and R418 leave the pool unchanged, are counted and raise their fault. What TKP_RESULT
holds after a command that returns no handle is the model's choice (log entry 113). -/
def Obligations.TackPoolCommands : Prop :=
  ∀ (s : State) (r : Route) (low high : Nat), s.up = true → s.reaches r tkpCmdOff = true → low < 2 ^ 32 → high < 2 ^ 32 →
    tget none s.heldLow (latchKey r tkpCmdOff) = some low →
    let s0 : State := { s with heldLow := tset none s.heldLow (latchKey r tkpCmdOff) none }
    let res := bits low 13 4
    let cls := bits low 15 14
    let h := high
    let i := fbIndex h
    let f := s.fb i
    let known := h / 2 ^ 30 = 1 ∧ f.inUse = true ∧ f.live = true ∧ f.gen = fbGen h
    let cmdOf := fun (op : Nat) => if op = 0 then Instr.allocPage r high else if op = 1 then .freePage r high else if op = 2 then .fbGet r high
      else if op = 3 then .fbTake r high else if op = 4 then .fbDrop r high else if op = 5 then .fbTakeEv r high
      else if op = 6 then .fbDropEv r high else .tkpIllegalCommand r high
    (s.tkp.waiting.isSome = true → Answers (cmdOf (low % 16)) s
        { s0 with tkp := { s.tkp with blocked := s.tkp.blocked ++ [low + high * 2 ^ 32], done := false } })
    ∧ (s.tkp.waiting = none →
      (low % 16 = 0 → cls ≠ 3 → (s.reserv res).left < (if cls = 1 then 2 else 1) → Answers (.allocPage r high) s (s0.tkpResult 0xFFFFFFFF 1))
      ∧ (∀ p, low % 16 = 0 → cls ≠ 3 → (if cls = 1 then 2 else 1) ≤ (s.reserv res).left → s.choosePage res cls (bit low 16) .free = some p →
          (s.page p).st = .free ∧ bit (s.reserv res).channels (p % 64) = true
          ∧ (∀ q, q < numPages → s.canTake res cls .free q = true → if bit low 16 then p ≤ q else q ≤ p)
          ∧ Reaches (.allocPage r high) s (fun t =>
            t.tkp.result = pageHandle (s.page p).gen p ∧ t.tkp.done = true ∧ t.tkp.status = 0 ∧
            (t.page p).st = .held ∧ (t.page p).holder = res ∧ (t.page p).cls = cls ∧ (t.page p).retain = bit low 16 ∧
            (cls = 1 → (t.page (s.partner p)).st = .held ∧ (t.page (s.partner p)).holder = res) ∧
            (t.reserv res).used = (s.reserv res).used + (if cls = 1 then 2 else 1) ∧ t.satisfiable = true ∧
            (∀ q, q ≠ p → (cls = 1 → q ≠ s.partner p) → t.page q = s.page q)))
      ∧ (low % 16 = 1 → h / 2 ^ 30 = 0 → (s.page (h % 2 ^ 18)).st = .held → (s.page (h % 2 ^ 18)).gen = h / 2 ^ 18 % 2 ^ 12 →
          Reaches (.freePage r high) s (fun t => (t.page (h % 2 ^ 18)).st = .zeroing ∧ h % 2 ^ 18 ∈ (t.chan (h % 64)).zeroing ∧ t.mem.bytes = s.mem.bytes ∧
            ((s.page (h % 2 ^ 18)).cls = 1 → (t.page (s.partner (h % 2 ^ 18))).st ≠ .held) ∧ t.tkp.status = 0 ∧ t.tkp.done = true))
      ∧ (low % 16 = 1 → (h / 2 ^ 30 ≠ 0 ∨ (s.page (h % 2 ^ 18)).st ≠ .held ∨ (s.page (h % 2 ^ 18)).gen ≠ h / 2 ^ 18 % 2 ^ 12) →
          Reaches (.freePage r high) s (fun t => t.tkp.pages = s.tkp.pages ∧ t.tkp.res = s.tkp.res ∧ t.tkp.status = 4 ∧ t.tkp.faults = (s.tkp.faults + 1) % 2 ^ 64 ∧
            t.od.lastRecord = faultRecord (if h / 2 ^ 30 ≠ 0 then { code := fltTkpHandle, detail := 2, addr := h }
              else { code := fltTkpDoubleFree, detail := if (s.page (h % 2 ^ 18)).st ≠ .held then 0 else 1, addr := h }) s.od.faultSeq))
      ∧ (low % 16 = 2 → s.bufsOf res ≤ s.quotaUsed res → Answers (.fbGet r high) s (s0.tkpResult 0xFFFFFFFF 2))
      ∧ (low % 16 = 2 → s.quotaUsed res < s.bufsOf res → (∃ x ∈ s.slotExtents res, ∃ k ∈ x.2.first, (s.fb k).live = false) →
          Reaches (.fbGet r high) s (fun t => ∃ k, (∃ x ∈ s.slotExtents res, k ∈ x.2.first) ∧ (s.fb k).live = false ∧
            t.tkp.result = fbHandle (s.fb k).gen k ∧ t.tkp.status = 0 ∧ (t.fb k).live = true ∧ (t.fb k).refs = 1 ∧ (t.fb k).ev = 0 ∧ ∀ j, j ≠ k → t.fb j = s.fb j))
      ∧ (∀ ev, low % 16 = (if ev then 5 else 3) →
          (known → f.refs < 65535 → (ev = true → f.ev < 255) → Answers (if ev then .fbTakeEv r high else .fbTake r high) s
            ((s0.modFb i (fun f => { f with refs := f.refs + 1, ev := f.ev + b2n ev, evCharge := f.evCharge || ev })).tkpResult h 0))
          ∧ (¬ known ∨ 65535 ≤ f.refs ∨ (ev = true ∧ 255 ≤ f.ev) → Reaches (if ev then .fbTakeEv r high else .fbTake r high) s (fun t =>
              t.tkp.fbs = s.tkp.fbs ∧ t.tkp.status = 4 ∧ t.tkp.faults = (s.tkp.faults + 1) % 2 ^ 64 ∧
              t.od.lastRecord = faultRecord (if known then { code := fltTkpRefcount, addr := h }
                else { code := fltTkpHandle, addr := h, detail := if h / 2 ^ 30 ≠ 1 then 2 else if f.inUse && f.live then 1 else 0 }) s.od.faultSeq)))
      ∧ (∀ ev, low % 16 = (if ev then 6 else 4) →
          (known → (if ev then f.ev ≠ 0 else f.refs ≠ f.ev) → f.refs ≠ 1 → Answers (if ev then .fbDropEv r high else .fbDrop r high) s
            ((s0.modFb i (fun f => { f with refs := f.refs - 1, ev := f.ev - b2n ev, evCharge := f.evCharge && !(ev && f.ev == 1) })).tkpResult h 0))
          ∧ (known → (if ev then f.ev ≠ 0 else f.refs ≠ f.ev) → f.refs = 1 → (∀ x, tget none s.tkp.extents f.extent = some x → x.old = false) →
              Answers (if ev then .fbDropEv r high else .fbDrop r high) s
                ((s0.modFb i (fun f => { f with refs := 0, ev := 0, live := false, evCharge := false, gen := (f.gen + 1) % 2 ^ 13 })).tkpResult h 0))
          ∧ (¬ known ∨ (if ev then f.ev = 0 else f.refs = f.ev) → Reaches (if ev then .fbDropEv r high else .fbDrop r high) s (fun t =>
              t.tkp.fbs = s.tkp.fbs ∧ t.tkp.status = 4 ∧ t.tkp.faults = (s.tkp.faults + 1) % 2 ^ 64 ∧
              t.od.lastRecord = faultRecord (if known then { code := fltTkpDoubleFree, detail := 2, addr := h }
                else if h / 2 ^ 30 ≠ 1 then { code := fltTkpHandle, detail := 2, addr := h }
                else { code := fltTkpDoubleFree, addr := h, detail := if f.inUse && f.live then 1 else 0 }) s.od.faultSeq)))
      ∧ (7 ≤ low % 16 → Answers (.tkpIllegalCommand r high) s (s0.tkpResult 0xFFFFFFFF 3))
      ∧ (∀ p, (s.chan (p % 64)).zeroing.head? ≠ some p → Answers (.pageZeroingComplete p) s s)
      ∧ (∀ p, (s.chan (p % 64)).zeroing.head? = some p → Reaches (.pageZeroingComplete p) s (fun t =>
          (∀ x, t.rdByte x = if p * pageSize ≤ x ∧ x < (p + 1) * pageSize then 0#8 else s.rdByte x) ∧ (t.page p).st = .free ∧
          (t.page p).gen = ((s.page p).gen + 1) % 2 ^ 12 ∧ p ∉ (t.chan (p % 64)).zeroing ∧ (∀ x, x / pageSize = p → t.lineFails x = false) ∧
          (∀ q, q ≠ p → t.page q = s.page q))))

/-! ### Contexts (R424 to R441) -/

/-- R426 to R439: the commands of owners and of the context scheduler. A create request either fails a check, with that check's fault and
nothing else changed, or makes the context, on clusters that were free, with every core at word 0 in the same state. Only the owner, or the
Cantle, destroys a context or releases its capture. A slice that ends with another ready context of the class makes a pre-emption request,
which stops the cores at their deschedule points; its time-out withdraws it. A switch saves what is resident and restores or starts what
comes in. A primitive request is checked for its limits, its pages and its shapes. -/
def Obligations.ContextCommands : Prop :=
  (∀ (s : State) (route : OdRoute) (req : CreateReq) (d : ImageDecl) (c : Nat) (p : Primitive) (ls : LayerSection), s.ready = true →
     let allowed := route = .cantle ∨ bit (s.odNat 0x7010 (OdRoute.num route + 1) 0x1F) 3 = true
     let b := s.handleBytes req.image
     let x := s.ctx c
     let reply := fun (t : State) (status : Nat) => t.emit (.odReply route 0 status [])
     (¬ allowed → Answers (.contextCreate route req d) s (reply s 2) ∧ Answers (.contextDestroy route c) s (reply s 2) ∧
        Answers (.captureRelease route c) s (reply s 2) ∧ Answers (.primitiveRequest route p ls) s (reply s 2))
     ∧ Answers (.captureRetainExpiry c) s (s.dropCapture c)
     ∧ (x.capture = true → ((s.dropCapture c).ctx c).capture = false ∧ ((s.dropCapture c).ctx c).saved = [] ∧ (s.dropCapture c).mem.bytes = s.mem.bytes)
     ∧ (allowed →
       (∀ code detail, s.noAdmission = false → s.createCtx route req d false b = .error (code, detail) → Answers (.contextCreate route req d) s
          ((s.raise { code := code, unit := OdRoute.num route, detail := if code = fltShape then detail else ctxIndex (req.ctx.getD 0) }).emit
            (.odReply route 0 9 (leBytes 2 code))))
       ∧ (s.noAdmission = true → Answers (.contextCreate route req d) s
          ((s.raise { code := fltRneStandby, unit := OdRoute.num route, detail := ctxIndex (req.ctx.getD 0) }).emit (.odReply route 0 9 (leBytes 2 fltRneStandby))))
       ∧ (∀ n t, s.noAdmission = false → s.createCtx route req d false b = .ok (n, t) →
          s.channelsOk req.channels = true ∧ s.energyAdmits (s.allotOf req d * pW) = true ∧ n < 64 ∧ (s.ctx n).live = false ∧
          (∃ h, readHead b = some h ∧ s.imageSigned b h = true ∧ declOk h d = true ∧ LayerSection.shapeDetail (layersOf b h) = none))
       ∧ (∀ h n map pages, s.noAdmission = false → req.share = none → s.poolHeld 0 + 2 * ceilDiv b.length pageSize ≤ s.poolSize 0 →
          readHead b = some h → s.imageSigned b h = true → declOk h d = true → LayerSection.rangeOk (layersOf b h) = true →
          bit h.flags 1 = d.narrator.isSome → bit h.flags 0 = d.recompute → LayerSection.shapeDetail (layersOf b h) = none →
          (∀ x, d.narrator = some x → narratorOk x d.skv b = true) → s.ctxNumber req.ctx = some n → s.channelsOk req.channels = true →
          s.place req h.k = some map → h.w ≤ s.freeWork.length → s.takeCtxPages h d b req = some pages →
          s.energyAdmits (s.allotOf req d * pW) = true →
          Reaches (.contextCreate route req d) s (fun u =>
            let y := u.ctx n
            y.st = .resident ∧ y.owner = route ∧ y.channels = req.channels ∧ y.ways = req.ways ∧ y.cls = req.cls ∧ y.map.length = y.k ∧
            (∀ m ∈ y.map, s.clusterFree m = true ∧ (u.cluster m).assigned = true ∧ (u.cluster m).ctx = n) ∧
            (∀ i ∈ y.cores, (u.core i).st = .running ∧ (u.core i).pc = 0 ∧ (u.core i).ctx = n ∧ (u.core i).s = [] ∧ (u.core i).sync = []) ∧
            (u.ctxRun n).acct = [] ∧ u.out.head? = some (.odReply route 0 0 [])))
       ∧ (x.live = false → Answers (.contextDestroy route c) s (reply s 3))
       ∧ (x.live = true → x.owner ≠ route → route ≠ .cantle → Answers (.contextDestroy route c) s (reply s 2))
       ∧ (x.live = true → (x.owner = route ∨ route = .cantle) →
          let s1 := s.odPutNat (ctxIndex c) 1 2
          (x.st = .switchingIn ∨ x.st = .switchingOut → Answers (.contextDestroy route c) s (reply (s1.modCtx c (fun x => { x with destroyWish := true })) 0))
          ∧ (x.st ≠ .switchingIn → x.st ≠ .switchingOut → Answers (.contextDestroy route c) s
              (reply ((s1.raise { code := fltCtxKilled, ctx := c }).endCtx c fltCtxKilled) 0)))
       ∧ (x.capture = false → Answers (.captureRelease route c) s (reply s 3))
       ∧ (x.capture = true → x.owner ≠ route → route ≠ .cantle → Answers (.captureRelease route c) s (reply s 2))
       ∧ (x.capture = true → (x.owner = route ∨ route = .cantle) → Answers (.captureRelease route c) s (reply (s.dropCapture c) 0))
       ∧ (primOk p = false ∨ LayerSection.rangeOk ls = false → Answers (.primitiveRequest route p ls) s (reply s 3))
       ∧ (primOk p = true → LayerSection.rangeOk ls = true → (primHandles p).all (s.ownerHolds route) = false → Answers (.primitiveRequest route p ls) s (reply s 2))
       ∧ (primOk p = true → LayerSection.rangeOk ls = true → (primHandles p).all (s.ownerHolds route) = true →
            LayerSection.shapeDetail ls = none → Answers (.primitiveRequest route p ls) s (reply s 0))
       ∧ (∀ v, primOk p = true → LayerSection.rangeOk ls = true → (primHandles p).all (s.ownerHolds route) = true →
            LayerSection.shapeDetail ls = some v → Answers (.primitiveRequest route p ls) s
           ((s.raise { code := fltShape, unit := OdRoute.num route, detail := v }).emit (.odReply route 0 9 (leBytes 2 fltShape))))))
   ∧ (∀ (s : State) (c : Nat), s.up = true →
     let x := s.ctx c
     let other := s.ctxs.any (fun p => p.2.st == .descheduled && p.2.ready && p.2.map == x.map && p.2.cls == x.cls)
     (x.st ≠ .resident ∨ x.preempt = true ∨ other = false → Answers (.sliceExpiry c) s s)
     ∧ (x.st = .resident → x.preempt = false → other = true → Reaches (.sliceExpiry c) s (fun t => (t.ctx c).preempt = true ∧
         ∀ n ∈ x.cores, ∀ w, (s.core n).wait = some w → w.dp = true → (t.core n).st = .parked ∧ (t.core n).wait = some { w with held := true }))
     ∧ (x.st ≠ .resident ∨ x.preempt = false → Answers (.preemptTimeout c) s s)
     ∧ (x.st = .resident → x.preempt = true → s.pwr.mode ≠ .parked → s.pwr.step ≠ 6 → Reaches (.preemptTimeout c) s (fun t => (t.ctx c).preempt = false ∧
         (∀ n ∈ x.cores, ∀ w, (t.core n).wait = some w → w.held = false) ∧ t.od.lastRecord = faultRecord { code := evtCtxPreemptTimeout, ctx := c } s.od.faultSeq))
     ∧ (x.st ≠ .descheduled ∨ s.pwr.mode = .parked ∨ s.nextReady x.map ≠ some c → Answers (.contextSwitchStart c) s s)
     ∧ (x.st = .descheduled → s.pwr.mode ≠ .parked → s.nextReady x.map = some c →
         (s.residentOf x.map = none → Reaches (.contextSwitchStart c) s (fun t => t.ctx c = { x with st := .switchingIn, ready := false } ∧
            (∀ n ∈ x.cores, t.core n = { s.core n with st := if x.started then .restoring else .zeroing, ctx := c }) ∧
            (∀ n, n ∉ x.cores → t.core n = s.core n) ∧ t = { s with ctxs := t.ctxs, cores := t.cores }))
         ∧ (∀ r, s.residentOf x.map = some r → (s.ctx r).st = .resident → ((s.ctx r).preempt = true ∨ (s.ctx r).deschedulable = true) → s.allStopped r = true → s.drained r = true →
             Answers (.contextSwitchStart c) s ((s.saveOut r).modCtx c (fun z => { z with st := .switchingIn, ready := false }))))
     ∧ (∀ f, x.st ≠ .switchingIn → Answers (.contextSwitchComplete c f) s s)
     ∧ (x.st = .switchingIn → x.destroyWish = false → s.ctxs.find? (fun p => p.2.st == .switchingOut && p.2.map == x.map) = none →
         (x.started = true → Answers (.contextSwitchComplete c false) s (((s.restoreIn c).tryWaits c).reschedule x.map))
         ∧ (∀ f d, x.started = false → x.decl = some d → x.map.length = x.k → Reaches (.contextSwitchComplete c f) s (fun t => (t.ctx c).st = .resident ∧
             ∀ n ∈ x.cores, (t.core n).st = .running ∧ (t.core n).pc = 0 ∧ (t.core n).ctx = c))
         ∧ (x.started = true → (∀ d, x.decl = some d → d.recompute = false) → (∀ r, x.req = some r → r.restartMax = 0) →
             Reaches (.contextSwitchComplete c true) s (fun t => (t.ctx c).st = .ended ∧ (t.ctx c).lastFault = fltIntRecompute))))

/-- R436, R437: a teardown ends one context: its queued jobs, calls and increments go, its resident partition and nothing else of memory
reads zero, and no other context, core or cluster is touched. -/
def Obligations.TeardownTouchesNoOther : Prop :=
  ∀ (s : State) (c code : Nat), (s.ctx c).live = true → (s.ctx c).debug = false →
    let x := s.ctx c
    let t := s.teardown c code
    let inPart := fun (a : Nat) => (∃ n ∈ x.cores, coreBase n ≤ a ∧ a < coreBase n + 0x20000) ∨ (∃ m ∈ x.map, clusterBase m ≤ a ∧ a < clusterBase m + 0x100000)
    (t.ctx c).st = .ended ∧ (t.ctx c).lastFault = code ∧ (t.ctx c).map = [] ∧ (t.ctx c).ctrs = []
    ∧ (∀ c', c' ≠ c → t.ctx c' = s.ctx c')
    ∧ (∀ n, n ∉ x.cores → t.core n = s.core n) ∧ (∀ m, m ∉ x.map → t.cluster m = s.cluster m)
    ∧ t.skv.queue = s.skv.queue.filter (fun j => j.ctx != c) ∧ t.stc.queue = s.stc.queue.filter (fun k => k.ctx != c)
    ∧ t.flight = s.flight.filter (fun i => i.ctx != c)
    ∧ (∀ p ∈ x.ctrs, t.workCtr p = {}) ∧ (∀ p, p ∉ x.ctrs → t.workCtr p = s.workCtr p)
    ∧ (∀ a, ¬ inPart a → t.rdByte a = s.rdByte a)
    ∧ (x.onPartition = true → x.standing = false → ∀ a, inPart a → t.rdByte a = 0#8)

/-- R433 to R435: a switch out and back in leaves every core of the partition with the registers, PC, counters, slots and instruction blocks
it had, and its scratchpads, buffers and cluster counters with their bytes, the level-5 results and the Awl engine's place in its ring; what is not live at a deschedule point is not kept. -/
def Obligations.SwitchKeepsTheContext : Prop :=
  ∀ (s : State) (c : Nat), Memory.wf s.mem.bytes = true → (s.ctx c).map.Nodup → (∀ m ∈ (s.ctx c).map, m < 128) → (s.ctx c).map.length = (s.ctx c).k →
    let x := s.ctx c
    let t := (s.saveOut c).restoreIn c
    (t.ctx c).st = .resident
    ∧ (∀ c', c' ≠ c → t.ctx c' = s.ctx c')
    ∧ (∀ n ∈ x.cores,
        let k := s.core n
        let k' := t.core n
        k'.pc = k.pc ∧ k'.s = k.s ∧ k'.v = k.v ∧ k'.m = k.m ∧ k'.ibuf = k.ibuf ∧ k'.valid = k.valid ∧ k'.src = k.src ∧ k'.own = k.own ∧ k'.pwr = k.pwr ∧
        k'.tabs = k.tabs ∧ k'.streams = k.streams ∧ k'.taken5 = k.taken5 ∧ k'.sync = k.sync ∧ k'.rangeFlag = k.rangeFlag ∧ k'.ctx = k.ctx ∧
        k'.st = (if k.st = .parked then .waiting else k.st) ∧ k'.wait = k.wait.map (fun w => { w with held := false }) ∧
        k'.held = none ∧ k'.os = [] ∧ k'.lut = none)
    ∧ (∀ n ∈ x.cores, ∀ o, o < 0x20000 → t.rdByte (coreBase n + o) = s.rdByte (coreBase n + o))
    ∧ (∀ m ∈ x.map, (t.cluster m).wc = (s.cluster m).wc ∧ (t.cluster m).results5 = (s.cluster m).results5 ∧
        (t.cluster m).awlIndex = (s.cluster m).awlIndex ∧ ∀ o, o < 0x100000 → t.rdByte (clusterBase m + o) = s.rdByte (clusterBase m + o))
    ∧ (∀ a, a < saddleSize → t.rdByte a = s.rdByte a)

/-! ### The chain, checkpoints and lock-step (R443 to R455) -/

/-- R443, R445, R448: a group that closes applies each of its entries once, in the rule's order, as H = SHA-512(H ‖ e); it cuts a checkpoint where
one of its output pictures ends an interval, with the chain value then reached; it emits no record and touches no other slot. A new
configuration starts from the genesis entry with seq and checkpoint numbers at 0. R449: the oldest cut is signed over bytes 0 to 95 of its
record, which takes the seq then due, or, for an earlier configuration, the seq after that one's last record. R454, R455: equal chain values
of a group leave the comparison, different ones raise FLT_PAIR_DIVERGE with the first differing entry and cut a final lock-step checkpoint.
R453: a follower's group takes its leader's forced entries and closes with them; the global_ids among them are kept for its own searches. -/
def Obligations.ChainGroups : Prop :=
  (∀ (cfg : Option Entry) (g : Group) (late : List Entry), (groupOrder cfg g late).Perm (cfg.toList ++ g.entries ++ late) ∧
     ∃ a b, groupOrder cfg g late = cfg.toList ++ a ++ b ∧ a.Pairwise (fun x y => x.rank ≤ y.rank) ∧ b.Pairwise (fun x y => x.lateRank ≤ y.lateRank) ∧
       (∀ e ∈ b, e.typ ≠ 8) ∧ ∀ e ∈ late, e.typ = 8 → e ∈ a)
   ∧ (∀ (h : List Byte) (e : Entry), chainStep h e = sha512 (h ++ (leBytes 1 e.typ ++ leBytes 1 e.sub ++ leBytes 2 e.payload.length ++ leBytes 4 0 ++ e.payload)) ∧
       (chainStep h e).length = 64)
   ∧ (∀ (s : State) (n g : Nat) (grp : Group), s.pair.mode = 0 → (s.slot n).chain.groups.find? (fun y => y.num == g) = some grp →
       1 ≤ (s.slot n).cfg.stream.checkpointEvery →
       let c := (s.slot n).chain
       let every := (s.slot n).cfg.stream.checkpointEvery
       let cfg : Option Entry := if c.cfgChange then some { typ := 1, sub := 0, payload := s.entriesDigest n } else none
       let t := s.closeGroup n g
       let c' := (t.slot n).chain
       let h := (groupOrder cfg grp c.late).foldl chainStep c.h
       c'.h = h ∧ c'.closed = g + 1 ∧ c'.late = [] ∧ c'.seq = c.seq ∧ c'.groups = c.groups.filter (fun y => y.num != g) ∧
       ((s.slot n).cfg.audit.enable = false → t.out = s.out) ∧
       (∀ m, m ≠ n → t.slot m = s.slot m)
       ∧ ((∀ p ∈ grp.outs, p.1 % every ≠ every - 1) → c.finalDue = false → c'.cpNumber = c.cpNumber ∧ t.kpr.queue = s.kpr.queue)
       ∧ ((∃ p ∈ grp.outs, p.1 % every = every - 1) → c'.cpNumber = c.cpNumber + 1 ∧ c'.cpFirst = c.seq ∧
           ∃ r, t.kpr.queue = s.kpr.queue ++ [r] ∧ r.slot = n ∧ r.number = c.cpNumber ∧ r.chain = h.take 16 ∧ r.first = c.cpFirst ∧
             r.last = (c.seq + 2 ^ 32 - 1) % 2 ^ 32 ∧ r.ctx = (s.slot n).cfg.det.getD 0xFF))
   ∧ (∀ (s : State) (n : Nat), let c := ((s.genesis n).slot n).chain
       c.genesis.length = 69 ∧ c.h = sha512 (ascii "QSCHAIN1" ++ (leBytes 2 0 ++ leBytes 2 69 ++ leBytes 4 0 ++ c.genesis)) ∧ c.genesis.drop 5 = s.entriesDigest n ∧
       c.seq = 0 ∧ c.cpNumber = 0 ∧ c.cpFirst = 0 ∧ c.nextGroup = 0 ∧ c.epoch = (s.slot n).chain.epoch + 1 ∧ c.oldSeq = (s.slot n).chain.seq)
   ∧ (∀ s : State, s.up = true → s.kpr.queue = [] → Answers .checkpointSigned s s)
   ∧ (∀ (s : State) (r : CutRec) (rest : List CutRec), s.up = true → s.kpr.queue = r :: rest → r.chain.length = 16 → r.imageDigest.length ≤ 16 → r.weightDigest.length ≤ 16 →
       let c := (s.slot r.slot).chain
       let u : State := { s with kpr := { s.kpr with queue := rest, signed := (s.kpr.signed + 1) % 2 ^ 64 } }
       let seq := if r.epoch = c.epoch then c.seq else c.oldSeq
       ∃ body head : List Byte, body.length = 64 ∧ head.length = 96 ∧
         (∀ sig : List Byte, sig.length = 64 → streamRecord r.slot 5 seq r.pts r.chain (body ++ sig) = head ++ sig) ∧
         (r.epoch = c.epoch → Answers .checkpointSigned s
           ((u.streamOutWith r.slot 5 r.pts r.chain (body ++ padTo 64 (Config.deviceSign head))).mirrorChain r.slot)) ∧
         (r.epoch ≠ c.epoch → Answers .checkpointSigned s ((u.modChain r.slot (fun c => { c with oldSeq := (c.oldSeq + 1) % 2 ^ 32 })).route r.slot 5
           (streamRecord r.slot 5 seq r.pts r.chain (body ++ padTo 64 (Config.deviceSign head))))))
   ∧ (∀ (s : State) (n g : Nat) (value : List Byte) (ps : List (List Byte)), s.up = true →
       let c := (s.slot n).chain
       (s.pair.mode ≠ 3 ∨ s.pair.link ≠ 2 ∨ (s.slot n).run = .unconfigured ∨ c.diverged = true → Answers (.lockstepChainValue n g value ps) s s)
       ∧ (∀ mine, s.pair.mode = 3 → s.pair.link = 2 → (s.slot n).run ≠ .unconfigured → c.diverged = false → value.length = 16 →
           c.values = [(g, mine)] → c.partner = [] → (∀ r ∈ s.kpr.queue, r.slot ≠ n) →
           (mine.1 = value → Reaches (.lockstepChainValue n g value ps) s (fun t => (t.slot n).chain.values = [] ∧ (t.slot n).chain.partner = [] ∧
              (t.slot n).chain.diverged = false ∧ (t.slot n).chain.h = c.h ∧ t.out = s.out))
           ∧ (mine.1 ≠ value → Reaches (.lockstepChainValue n g value ps) s (fun t => (t.slot n).chain.diverged = true ∧ (t.slot n).chain.h = c.h ∧
              t.od.lastRecord = faultRecord {
                code := fltPairDiverge, ctx := (s.slot n).cfg.det.getD 0xFF, unit := (firstDiff 0 mine.2 ps).1 * 256 + (firstDiff 0 mine.2 ps).2, detail := g % 2 ^ 32, addr := leNat (mine.1.take 8), slot := n } s.od.faultSeq ∧
              ∃ r, t.kpr.queue = s.kpr.queue ++ [r] ∧ r.slot = n ∧ r.flags = 3))))
   ∧ (∀ (s : State) (n g : Nat) (bs : List (List Byte)), s.up = true →
       let c := (s.slot n).chain
       (s.follower = false ∨ (s.slot n).run = .unconfigured → Answers (.leaderForcedEntries n g bs) s s)
       ∧ (s.follower = true → (s.slot n).run ≠ .unconfigured → c.groups = [] → (s.slot n).pics = [] → c.nextGroup ≤ g → Answers (.leaderForcedEntries n g bs) s
           (s.modSlot n (fun x => { x with
              trk := { x.trk with recorded := x.trk.recorded ++ ((bs.map entryOfBytes).filter (fun e => e.typ == 8)).map (fun e => (e.key2, fieldAt e.payload 12 4)) }
              chain := { x.chain with leader := (x.chain.leader.filter (fun l => decide (x.chain.closed ≤ l.1))) ++ [(g, bs)] } })))
       ∧ (∀ es outs, s.follower = true → (s.slot n).run ≠ .unconfigured → (s.slot n).pics = [] → c.cfgChange = false →
           c.groups = [{ num := g, entries := es, outs := outs, ended := true, waiting := true }] →
           Reaches (.leaderForcedEntries n g bs) s (fun t => (t.slot n).chain.closed = g + 1 ∧ (t.slot n).chain.groups = [] ∧
             (t.slot n).chain.h = (groupOrder none { num := g, entries := es ++ bs.map entryOfBytes, outs := outs, ended := true } c.late).foldl chainStep c.h)))

/-! ### Rein, shedding, power modes and clocks (R456 to R481) -/

/-- R457 to R465, R476, R477, R597: leakage is the table's, interpolated and rounded up; calibration keeps cal within [0.5, 2.0]; the divider changes at a
multiple of 840 root cycles. A tick keeps every duty between 1 and 16 and every allotment, wants the higher of the thermal and the budget
step, and while no shedding step changes touches no register, slot or byte of memory: throttling moves time, never results. Over the device's own
limit replay, then near-live, then live contexts are slowed. At 110 °C the device is held in reset with FAIL_N asserted, below 95 °C it boots. A lost reference stops the domains, asserts FAIL_N and
takes the EVT_OUT pins to high impedance; no lock of the PLLs starts them again without a reset (R22, R55). -/
def Obligations.Rein : Prop :=
  (leakage 25 = 8000 ∧ leakage 45 = 13000 ∧ leakage 65 = 21000 ∧ leakage 85 = 33500 ∧ leakage 105 = 53000
     ∧ (∀ t, t ≤ 20 → leakage (25 + t) = 8000 + (5000 * t + 19) / 20 ∧ leakage (45 + t) = 13000 + (8000 * t + 19) / 20
         ∧ leakage (65 + t) = 21000 + (12500 * t + 19) / 20 ∧ leakage (85 + t) = 33500 + (19500 * t + 19) / 20)
     ∧ (∀ t t', t ≤ t' → leakage t ≤ leakage t') ∧ (∀ s : State, s.baseEnergy = (21000 + leakage (s.odNat 0x4000 3 85)) * pW))
   ∧ (∀ (s : State) (a b c : Nat), s.ready = true →
       (b + c ≠ 0 → Answers (.calibrationUpdate a b c) s { s with
          rne := { s.rne with cal := min 131072 (max 32768 ((3 * s.rne.cal + a * 65536 / (b + c)) / 4)) }
          kpr := { s.kpr with reports := [] }, pci := { s.pci with deniedPages := [] } })
       ∧ Reaches (.calibrationUpdate a b c) s (fun t => 32768 ≤ t.rne.cal ∧ t.rne.cal ≤ 131072))
   ∧ (∀ (s : State) (n d : Nat), s.up = true →
       (s.rne.divNext = none ∨ n % 840 ≠ 0 → Answers (.arithDividerChange n) s s)
       ∧ (s.rne.divNext = some d → n % 840 = 0 → Answers (.arithDividerChange n) s
           { s with rne := { s.rne with divStep := d, divNext := none }, clk := { s.clk with arithDiv := 4 + d } }))
   ∧ (∀ (s : State) (m : Meters), s.ready = true → m.tempC < 110 → Reaches (.reinTick m) s (fun t =>
       t.rne.ticks = s.rne.ticks + 1 ∧ t.rne.measured = m.powerMw ∧ t.rne.energy = (s.rne.energy + m.energyUj) % 2 ^ 64 ∧
       (∀ c, (t.ctxRun c).allotMw = (s.ctxRun c).allotMw) ∧
       ((∀ c, 1 ≤ (s.ctxRun c).duty ∧ (s.ctxRun c).duty ≤ 16) → ∀ c, 1 ≤ (t.ctxRun c).duty ∧ (t.ctxRun c).duty ≤ 16) ∧
       t.rne.divNext = (if max t.rne.thermalStep t.rne.budgetStep = s.rne.divStep then none else some (max t.rne.thermalStep t.rne.budgetStep)) ∧
       (100 ≤ m.tempC → s.rne.thermalStep < 4 → 9 ≤ s.rne.thermTick ∨ s.rne.thermal = false → t.rne.thermalStep = s.rne.thermalStep + 1 ∧ t.rne.thermal = true) ∧
       (97 ≤ m.tempC → m.tempC < 100 → t.rne.thermalStep = s.rne.thermalStep) ∧
       (m.tempC < 97 → 999 ≤ s.rne.thermTick → 0 < s.rne.thermalStep → t.rne.thermalStep = s.rne.thermalStep - 1) ∧
       (s.rne.shedOver < 9 → s.rne.shedUnder < 99999 → t.mem = s.mem ∧ t.slots = s.slots ∧ t.cores = s.cores ∧ t.clusters = s.clusters ∧ t.ctxs = s.ctxs ∧ t.pwr = s.pwr)))
   ∧ (∀ (s : State), (s.ctxs.map (·.1)).Nodup → s.allSlow = false → (∀ p ∈ s.charged, ((s.lowerTick).ctxRun p.1).duty =
       (if p.2.cls = 2 - s.rne.phase then max 1 ((s.ctxRun p.1).duty - 1) else (s.ctxRun p.1).duty)) ∧ (s.lowerTick).rne.budgetStep = s.rne.budgetStep)
   ∧ (∀ (s : State), s.allSlow = true → s.rne.budgetStep < 4 → s.lowerTick = s.modRne (fun r => { r with budgetStep := r.budgetStep + 1, cuts := 3 :: r.cuts }))
   ∧ (∀ (s : State) (m : Meters), s.ready = true → 110 ≤ m.tempC → Reaches (.reinTick m) s (fun t =>
       t.boot.thermalHold = true ∧ t.up = false ∧ t.pair.failOut = true ∧ t.fuses = s.fuses ∧ t.flash = s.flash))
   ∧ (∀ (s : State) (c : Nat), (s.boot.thermalHold = false ∨ 95 ≤ c → Answers (.thermalResetRelease c) s s)
       ∧ (s.boot.thermalHold = true → c < 95 → Reaches (.thermalResetRelease c) s (fun t =>
           t.boot.thermalHold = false ∧ t.boot.booting = true ∧ t.boot.stage = 1 ∧ t.boot.cause = 5 ∧ t.boot.bootNum = (s.boot.bootNum + 1) % 2 ^ 32)))
   ∧ (∀ s : State, Reaches .refclkLoss s (fun t => t.up = false ∧ (∀ l < 8, (t.outLine l).driven = false) ∧
         t = { s with clk := { s.clk with pllLock := false, running := false, stopped := true, refLost := true, monCount := 0 }
                      pair := { s.pair with failOut := true }, evt := t.evt }))
   ∧ (∀ s : State, (s.boot.railsOk = true → s.boot.stage ≠ 0 → s.clk.running = false → s.clk.stopped = false → Answers .pllLock s
         { s with clk := { s.clk with pllLock := true, running := true, monCount := 200 } })
       ∧ (s.boot.railsOk = false ∨ s.boot.stage = 0 ∨ s.clk.running = true ∨ s.clk.stopped = true → Answers .pllLock s s))
   ∧ (∀ s : State, s.up = true →
       (s.clk.pcieRef = true → Answers (.serdesRefLoss .pcie) s { s.raise { code := fltClkSerdesRef } with clk := { s.clk with pcieRef := false } })
       ∧ (s.clk.ethRef = true → Answers (.serdesRefLoss .ethernet) s { s.raise { code := fltClkSerdesRef } with clk := { s.clk with ethRef := false, mgmtLock := false } })
       ∧ (s.clk.stpRef = true → Reaches (.serdesRefLoss .stirrup) s (fun t => t.clk = { s.clk with stpRef := false } ∧ t.pair.link ≠ 2))
       ∧ Answers (.serdesRefReturn .pcie) s { s with clk := { s.clk with pcieRef := true } }
       ∧ Answers (.serdesRefReturn .ethernet) s { s with clk := { s.clk with ethRef := true, mgmtLock := true } }
       ∧ Answers (.serdesRefReturn .stirrup) s { s with clk := { s.clk with stpRef := true } })

/-- R466 to R475: shedding by supply and standby. A step is entered when droop or warn has stood for its time and the step below is in force, left when its
hold count is full and the step above is not in force, each with its record; steps 3 to 5 set shed_mode of the non-live slots; step 6 parks.
The worked example's times come out. Standby ends every slot and context and keeps the retained eighths; its exit leaves the kept eighths as they
were and the lost ones reading zero. -/
def Obligations.SheddingAndStandby : Prop :=
  (∀ (s : State) (w : Bool) (x us : Nat), s.up = true →
     (s.pwr.us ≤ us → Answers (.pwrWarn w us) s (s.sagInputs w s.pwr.droop us) ∧ Answers (.droopChange x us) s (s.sagInputs s.pwr.warn x us))
     ∧ (us < s.pwr.us → Answers (.pwrWarn w us) s s ∧ Answers (.droopChange x us) s s))
   ∧ (∀ s : State, s.pwr.steps = shedDefaults → s.pwr.warn = false → s.pwr.warnSince = none → s.pwr.droop = 0 →
       let a := s.sagInputs true 0 1
       let b := a.sagInputs false 0 12000
       a.entryDue 1 1 = true ∧ a.entryDue 2 1000 = false ∧ a.entryDue 2 1001 = true ∧ a.entryDue 3 5000 = false ∧ a.entryDue 3 5001 = true ∧
       a.entryDue 4 10001 = true ∧ a.entryDue 5 12000 = false ∧ b.entryDue 1 12000 = false ∧ b.exitDue 4 5011999 = false ∧ b.exitDue 4 5012000 = true ∧
       b.exitDue 3 5012000 = true ∧ b.exitDue 2 2011999 = false ∧ b.exitDue 2 2012000 = true ∧ b.exitDue 1 1012000 = true)
   ∧ (∀ (s : State) (n us : Nat), s.up = true →
       let s1 := s.modPwr (fun p => { p with us := us })
       (n = 0 ∨ 6 < n ∨ us < s.pwr.us ∨ s.entryDue n us = false → Answers (.shedStepEntry n us) s s)
       ∧ (1 ≤ n → n ≤ 6 → s.pwr.us ≤ us → s.entryDue n us = true →
           (n ≤ s.pwr.step → Answers (.shedStepEntry n us) s (s1.modPwr (fun p => { p with byBudget := setBit p.byBudget n false })))
           ∧ (s.pwr.step + 1 < n → Answers (.shedStepEntry n us) s s1)
           ∧ (n = s.pwr.step + 1 → n ≤ 2 → Reaches (.shedStepEntry n us) s (fun t => t.pwr.step = n ∧ t.pwr.events = (s.pwr.events + 1) % 2 ^ 32 ∧ (n = 2 → t.narr.shed = true)))
           ∧ (n = s.pwr.step + 1 → 3 ≤ n → n ≤ 5 → Reaches (.shedStepEntry n us) s (fun t => t.pwr.step = n ∧ t.pwr.events = (s.pwr.events + 1) % 2 ^ 32 ∧
               t.od.lastRecord = faultRecord { code := evtPwrShed, unit := 0, detail := n } s.od.faultSeq ∧
               ∀ m, (s.slot m).run ≠ .unconfigured → (t.slot m).shedNext = shedFor (s.slot m).cfg.stream.priority n))
           ∧ (n = s.pwr.step + 1 → n = 6 → s.pair.mode = 0 → Reaches (.shedStepEntry n us) s (fun t => t.pwr.step = 6 ∧ t.pwr.mode = .parked ∧
               ∀ c, (s.ctx c).st = .resident → (t.ctx c).preempt = true)))
       ∧ (n = 0 ∨ n ≠ s.pwr.step ∨ us < s.pwr.us ∨ bit s.pwr.byBudget n = true ∨ s.exitDue n us = false → Answers (.shedStepExit n us) s s)
       ∧ (n = s.pwr.step → 3 ≤ n → n ≤ 5 → s.pwr.us ≤ us → bit s.pwr.byBudget n = false → s.exitDue n us = true → Reaches (.shedStepExit n us) s (fun t =>
           t.pwr.step = n - 1 ∧ t.od.lastRecord = faultRecord { code := evtPwrShed, unit := 0, detail := n - 1 } s.od.faultSeq ∧
           ∀ m, (s.slot m).run ≠ .unconfigured → (t.slot m).shedNext = shedFor (s.slot m).cfg.stream.priority (n - 1))))
   ∧ (∀ s : State, s.ready = true → (s.pwr.parkWait = false → Answers .shedParkTimeout s s)
       ∧ (s.pwr.parkWait = true → Reaches .shedParkTimeout s (fun t => t.pwr.mode = .parked ∧ t.pwr.parkWait = false ∧ ∀ c, (s.ctx c).st = .resident → (t.ctx c).preempt = true)))
   ∧ (∀ (s : State) (r : OdRoute), s.ready = true →
       (s.permits r 1 = false → Answers (.standbyEnter r) s (s.emit (.odReply r 0 2 [])))
       ∧ (s.permits r 1 = true → s.pwr.mode = .run → Reaches (.standbyEnter r) s (fun t => t.pwr.mode = .standby ∧ t.pci.saddleReady = false ∧
           (∀ c, (t.ctx c).live = false) ∧ (∀ n, (t.slot n).run = .unconfigured) ∧ t.mem.pasr = s.keepMask ||| s.pwr.keepExtra % 65536 ∧
           (∀ ch, ch < 64 → (s.chan ch).st ≠ .outOfUse → (t.chan ch).st = .selfRefresh) ∧ t.out.head? = some (.odReply r 0 0 []))))
   ∧ (∀ (s : State) (b : Bool), s.up = true →
       (s.pwr.mode ≠ .standby → Answers (.standbyWake b) s s)
       ∧ (s.pwr.mode = .standby → s.pwr.step ≤ 6 → Reaches (.standbyWake b) s (fun t => t.pwr.mode = .leaving ∧ t.pwr.step = 0 ∧ (b = true → bit t.pci.events 2 = true)))
       ∧ (s.pwr.mode ≠ .leaving → Answers .selfRefreshExitComplete s s)
       ∧ (s.pwr.mode = .leaving → s.pwr.restore = [] → s.pwr.restoreSlots = [] → s.pwr.pendingStandby = false → Reaches .selfRefreshExitComplete s (fun t =>
           t.pwr.mode = .run ∧ t.pci.saddleReady = true ∧ (∀ ch, ch < 64 → (s.chan ch).st ≠ .outOfUse → (t.chan ch).st = .active) ∧
           (∀ a, a < saddleSize → t.rdByte a = if s.keeps a then s.rdByte a else 0#8) ∧ (∀ a, a < saddleSize → s.keeps a = false → t.lineFails a = false))))

/-! ### The pair and its link (R482 to R501) -/

/-- R482, R485, R488 to R492: the Stirrup link. Frames count only while the link is up; a bad one is counted; only the next expected number takes effect.
An acknowledgement frees what it covers; 8 resends without one, 50 µs of silence or a mismatched configuration take the link down, which discards
the unacknowledged frames and raises its fault once. Stated for a device with nothing unacknowledged or waiting where the frame's own effect is meant. -/
def Obligations.StirrupLink : Prop :=
  (∀ (s : State) (kind : Nat) (p : List Byte), (s.pair.link ≠ 2 → s.stirrupSend kind p = s) ∧
     (s.pair.link = 2 → s.pair.txWait = [] → s.pair.heldBytes + p.length + 20 ≤ 2 ^ 20 → s.stirrupSend kind p = { s with
        out := .stirrup (s.pair.frame kind false s.pair.txSeq p) :: s.out
        pair := { s.pair with txSeq := (s.pair.txSeq + 1) % 2 ^ 32, unacked := s.pair.unacked ++ [(kind, s.pair.txSeq, p)] } }))
   ∧ (∀ (s : State) (f : Frame) (k : MirrorKind) (m : CtlMsg) (w : BadFrame), s.up = true →
     let a := fieldAt f.payload 0 8
     let data := f.payload.drop 8
     let bad := s.modPair (fun p => { p with bad := (p.bad + 1) % 2 ^ 64 })
     let seen := s.modPair (fun p => { p with partnerHb := f.hb })
     let next := s.modPair (fun p => { p with partnerHb := f.hb, rxSeq := (p.rxSeq + 1) % 2 ^ 32 })
     (s.pair.link ≠ 2 → Answers (.stirrupWriteFrame f) s s ∧ Answers (.stirrupIncrementFrame f) s s ∧ Answers (.stirrupMirrorFrame f k) s s ∧
        Answers (.stirrupControlFrame f m) s s ∧ Answers (.stirrupIdleFrame f) s s ∧ Answers (.stirrupBadFrame w) s s ∧
        Answers .stirrupIdleTimer s s ∧ Answers .stirrupRetxTimeout s s ∧ Answers .linkSilent s s)
     ∧ (s.pair.link = 2 →
       Answers (.stirrupBadFrame w) s bad
       ∧ (4096 < f.payload.length ∨ data = [] ∨ s.inPairArea a data.length = false → Answers (.stirrupWriteFrame f) s bad)
       ∧ (f.payload.length ≠ 6 → Answers (.stirrupIncrementFrame f) s bad)
       ∧ (4096 < f.payload.length ∨ f.payload.length < 10 → Answers (.stirrupMirrorFrame f k) s bad)
       ∧ (4096 < f.payload.length → Answers (.stirrupControlFrame f m) s bad)
       ∧ (f.payload ≠ [] → Answers (.stirrupIdleFrame f) s bad)
       ∧ (f.payload = [] → s.pair.txWait = [] → s.pair.giving = [] → Reaches (.stirrupIdleFrame f) s (fun t => t.pair.partnerHb = f.hb ∧
           t.pair.unacked = s.pair.unacked.filter (fun u => !seqLe u.2.1 f.ack) ∧ t.pair.rxSeq = s.pair.rxSeq))
       ∧ (s.pair.unacked = [] → s.pair.txWait = [] → s.pair.giving = [] → s.pair.synced = true → f.payload.length ≤ 4096 →
           (f.seq ≠ s.pair.rxSeq → data ≠ [] → s.inPairArea a data.length = true → Answers (.stirrupWriteFrame f) s seen)
           ∧ (f.seq ≠ s.pair.rxSeq → f.payload.length = 6 → Answers (.stirrupIncrementFrame f) s seen)
           ∧ (f.seq ≠ s.pair.rxSeq → 10 ≤ f.payload.length → Answers (.stirrupMirrorFrame f k) s seen)
           ∧ (f.seq ≠ s.pair.rxSeq → Answers (.stirrupControlFrame f m) s seen)
           ∧ (f.seq = s.pair.rxSeq →
             (data ≠ [] → s.inPairArea a data.length = true → Answers (.stirrupWriteFrame f) s (next.store (s.portWays 42) a data))
             ∧ (f.payload.length = 6 → let c := fieldAt f.payload 0 1
                let core := fieldAt f.payload 1 2
                let ctr := fieldAt f.payload 3 1
                let n := fieldAt f.payload 4 2
                (s.pairSh.counters.contains (c, core, ctr) = true → (s.ctx c).runs = true → n ≠ 0 → Answers (.stirrupIncrementFrame f) s
                   { next with flight := s.flight ++ [{ ctx := c, core := core, ctr := ctr, n := n, fromCtx := false, src := 0x301 }] })
                ∧ (s.pairSh.counters.contains (c, core, ctr) = false ∨ (s.ctx c).runs = false ∨ n = 0 → Answers (.stirrupIncrementFrame f) s next))
             ∧ (10 ≤ f.payload.length → s.pairs = true → let n := fieldAt f.payload 1 1
                let b := f.payload.drop 10
                Answers (.stirrupMirrorFrame f .chain) s (next.modShadow n (fun h => { h with
                  h := b.take 64, seq := fieldAt b 64 4, cpNumber := fieldAt b 68 4, cpFirst := fieldAt b 72 4, group := fieldAt f.payload 2 8, valid := true }))
                ∧ Answers (.stirrupMirrorFrame f .tracks) s (next.modShadow n (fun h => { h with
                  nextSerial := fieldAt b 0 4, tracks := tset {} h.tracks (fieldAt b 4 2) (trackOfBytes (b.drop 6)) }))
                ∧ (fieldAt b 0 1 ≠ 1 → Answers (.stirrupMirrorFrame f .full) s next)
                ∧ (fieldAt b 0 1 = 1 → Answers (.stirrupMirrorFrame f .full) s (next.modShadow n (fun h => { h with tracks := [], rules := [] }))))
             ∧ (s.pwr.parkWait = false → Answers (.stirrupControlFrame f .parkAck) s next)
             ∧ (s.pwr.parkWait = true → Reaches (.stirrupControlFrame f .parkAck) s (fun t => t.pwr.mode = .parked ∧ t.pair.failOut = true))
             ∧ Answers (.stirrupControlFrame f (.config s.pairDigest)) s next
             ∧ (∀ d, d ≠ s.pairDigest → Reaches (.stirrupControlFrame f (.config d)) s (fun t => t.pair.link = 3 ∧ ∃ q, t.od.lastRecord = faultRecord { code := fltPairConfig } q))))
       ∧ Answers .stirrupIdleTimer s (s.emit (.stirrup (s.pair.frame 0 false 0 [])))
       ∧ (s.pair.unacked = [] → Answers .stirrupRetxTimeout s s)
       ∧ (s.pair.unacked ≠ [] → s.pair.resends < 8 → Answers .stirrupRetxTimeout s
           ((s.modPair (fun p => { p with resends := p.resends + 1, retx := (p.retx + p.unacked.length) % 2 ^ 64 })).emits
             (s.pair.unacked.map (fun f => .stirrup (s.pair.frame f.1 true f.2.1 f.2.2)))))
       ∧ (s.pair.failLow = false → s.pair.hbOk = true → (∀ n, (s.slot n).chain.awaitFinal = false) →
           let down := fun (t : State) => t.pair.link = 0 ∧ t.pair.unacked = [] ∧ t.pair.linkDowns = (s.pair.linkDowns + 1) % 2 ^ 16 ∧ t.pair.owner = s.pair.owner ∧
             t.od.faultSeq = s.od.faultSeq + 1 ∧ t.od.lastRecord = faultRecord { code := fltPairLink } s.od.faultSeq
           Reaches .linkSilent s down ∧ (s.pair.unacked ≠ [] → 8 ≤ s.pair.resends → Reaches .stirrupRetxTimeout s down))))
   ∧ (∀ (s : State) (d : List Byte) (o : Bool), s.up = true →
       (s.clk.stpRef = false ∨ s.pair.mode = 0 ∨ s.pair.link = 2 → Answers (.linkTrained d o) s s ∧ Answers .linkTrainRetry s s)
       ∧ (s.clk.stpRef = true → s.pair.mode ≠ 0 → s.pair.link ≠ 2 →
           Answers .linkTrainRetry s (s.modPair (fun p => { p with link := 1 }))
           ∧ (d ≠ s.pairDigest → Answers (.linkTrained d o) s ((s.modPair (fun p => { p with link := 3 })).raise { code := fltPairConfig }))
           ∧ (d = s.pairDigest → Reaches (.linkTrained d o) s (fun t => t.pair.link = 2 ∧ t.pair.rxSeq = 0 ∧ t.pair.partnerFailed = false ∧
               (s.pairs = true → t.pair.marked = [])))))
   ∧ (∀ s : State, s.ready = true → (s.pairs = false → Answers .ledgerMirror s s)
       ∧ (s.pairs = true → Answers .ledgerMirror s (s.stirrupSend 3 (mirrorPayload 6 0 0 (leBytes 4 s.budgetMw ++ leBytes 4 s.reserveMw ++
           leBytes 4 (ceilDiv s.baseEnergy pW) ++ leBytes 4 (ceilDiv s.videoEnergy pW) ++ leBytes 4 (ceilDiv s.allotments pW) ++ leBytes 4 s.rne.cal)))))

/-- R486, R494 to R497, R501: the decision table. While the link is up no signal takes a slot over: a failed-looking partner raises FLT_PAIR_SIDEBAND once. With
the link silent, FAIL_IN_N low or HB_IN missing is a takeover, once: the survivor owns every slot, and each shadow slot goes on with the
mirrored chain state and record seq, waiting for a refresh point. In lock-step it leads and its slots stay as they are. A record of a
protected slot is held, not emitted. A planned handover offers owned slots and takes shadows at their refresh points. -/
def Obligations.TakeoverDecisions : Prop :=
  (∀ (s : State) (c : Instr) (low ok : Bool), s.up = true →
     c = .failInChange low ∧ ok = s.pair.hbOk ∨ c = .hbInMissing ∧ ok = false ∧ low = s.pair.failLow ∨ c = .hbInEdge ∧ ok = true ∧ low = s.pair.failLow →
     let u := s.modPair (fun p => { p with failLow := low, hbOk := ok })
     let bad := low = true ∨ ok = false
     (s.pair.mode = 0 → Answers c s u)
     ∧ (s.pair.mode ≠ 0 → s.pair.link ≠ 2 → ¬ bad ∨ s.pair.partnerFailed = true → Answers c s u)
     ∧ (s.pair.mode ≠ 0 → s.pair.link = 2 → ¬ bad → Answers c s (u.modPair (fun p => { p with sideFault := false })))
     ∧ (s.pair.mode ≠ 0 → s.pair.link = 2 → bad → s.pair.sideFault = true → Answers c s u)
     ∧ (s.pair.mode ≠ 0 → s.pair.link = 2 → bad → s.pair.sideFault = false → Answers c s ((u.modPair (fun p => { p with sideFault := true })).raise { code := fltPairSideband }))
     ∧ (s.pair.mode ≠ 0 → s.pair.link ≠ 2 → bad → s.pair.partnerFailed = false → Reaches c s (fun t =>
         t.pair.partnerFailed = true ∧ t.pair.takeovers = (s.pair.takeovers + 1) % 2 ^ 16 ∧ (∀ n, t.owns n = true)
         ∧ (s.pair.mode = 3 → t.pairSh.leaderId = s.pair.id ∧ t.slots = s.slots)
         ∧ (s.pairs = true → ∀ n, (s.slot n).run = .shadow → (t.slot n).run = .running ∧ (t.slot n).ing.gapNext = true ∧ (t.slot n).dec.waiting = some .takeover ∧
             (t.slot n).chain.cfgChange = true ∧ ((tget {} s.pair.shadows n).valid = true →
               (t.slot n).chain.h = (tget {} s.pair.shadows n).h ∧ (t.slot n).chain.seq = (tget {} s.pair.shadows n).seq ∧
               (t.slot n).chain.cpNumber = (tget {} s.pair.shadows n).cpNumber ∧ (t.slot n).trk.tracks = (tget {} s.pair.shadows n).tracks)))))
   ∧ (∀ (s : State) (n ty pts : Nat) (body : List Byte), s.holdsRecords n = true →
       (s.streamOut n ty pts body).out = s.out ∧ ((s.streamOut n ty pts body).slot n).chain.heldRecs = (s.slot n).chain.heldRecs ++
         [(ty, if ty ≤ 3 then (s.slot n).chain.closed else (s.slot n).chain.seq, streamRecord n ty (s.slot n).chain.seq pts (s.chainValue n) body)])
   ∧ (∀ s : State, s.ready = true → Answers .pairHbToggle s (s.modPair (fun p => { p with hbOut := !p.hbOut, hbSent := (p.hbSent + 5) % 2 ^ 32 })))
   ∧ (∀ (s : State) (n : Nat) (ns : List Nat), s.ready = true →
       (s.pairs = false ∨ s.pair.link ≠ 2 → Answers (.plannedHandover ns) s s)
       ∧ (s.pairs = true → s.pair.link = 2 →
           ((s.slot n).run = .shadow → Answers (.plannedHandover [n]) s
             (s.modPair (fun p => { p with taking := if p.taking.contains n then p.taking else p.taking ++ [n] })))
           ∧ ((s.slot n).run = .running → s.owns n = true → Answers (.plannedHandover [n]) s (s.stirrupSend 4 (ctlPayload 0 n 0)))
           ∧ ((s.slot n).run ≠ .shadow → (s.slot n).run ≠ .running ∨ s.owns n = false → Answers (.plannedHandover [n]) s s)))

/-! ### The PCIe endpoint (R505 to R523) -/

/-- R509, R510, R516 to R518, R520 to R523: BAR2 reaches granted pages alone: a request that is unsupported or not granted gives Unsupported
Request, sets its AER bit and moves no byte; a failing Class X line gives Completer Abort; a posted write that is poisoned, unsupported or not granted
is discarded. D3hot enters standby, D0 leaves it. FLR, PERST# and hot reset clear the endpoint, disable the push ring and every delivery ring, roll
back the mailbox's transaction, and leave contexts, slots, pages and memory as they are. A read that fails stops the push path at its
descriptor. -/
def Obligations.PcieHost : Prop :=
  (∀ (s : State) (off n : Nat) (e : ReadErrors) (w : HostWrite), s.up = true →
     let ur := fun (t : State) => ({ t with pci := { t.pci with aerUnc := setBit t.pci.aerUnc 20 true } } : State)
     (s.pci.dState ≠ 0 ∨ s.pci.linkL2 = true ∨ s.pci.saddleReady = false ∨ 2 ^ 34 < (if s.pci.barLog2 = 34 then off else s.pci.aperture + off) + n →
        Answers (.bar2Read off n e) s ((ur s).emit .bar2Unsupported)
        ∧ (w.poisoned = false → w.offset = off → w.bytes.length = n → Answers (.bar2Write w) s (ur s)))
     ∧ (w.poisoned = true → Answers (.bar2Write w) s { s with pci := { s.pci with aerUnc := setBit s.pci.aerUnc 12 true } })
     ∧ (∀ a, s.bar2Addr off n = some a →
         let pages := upto (pageOf a) (pageOf (a + n - 1) - pageOf a + 1)
         ((∃ p ∈ pages, s.granted p = false) → Reaches (.bar2Read off n e) s (fun t => t.out.head? = some .bar2Unsupported ∧ t.mem = s.mem ∧
             t.pci.denied = (s.pci.denied + 1) % 2 ^ 32 ∧ t.pci.aerUnc = setBit s.pci.aerUnc 20 true ∧
             (∀ p ∈ pages, s.granted p = false → t.pci.deniedPages.contains p = true))
           ∧ (w.poisoned = false → w.offset = off → w.bytes.length = n → Reaches (.bar2Write w) s (fun t => t.mem = s.mem ∧ t.pci.denied = (s.pci.denied + 1) % 2 ^ 32)))
         ∧ (∀ p, pages = [p] → s.granted p = false → s.pci.deniedPages.contains p = false → Reaches (.bar2Read off n e) s (fun t =>
             t.od.lastRecord = faultRecord { code := fltPciAccess, addr := max a (p * pageSize) } s.od.faultSeq))
         ∧ ((∀ p ∈ pages, s.granted p = true) → w.poisoned = false → w.offset = off → w.bytes.length = n → s.od.creates = [] →
             Answers (.bar2Write w) s (s.store (s.portWays 40) a w.bytes))
         ∧ ((∀ p ∈ pages, s.granted p = true) → s.inStateBlock a = false →
             ((∀ l ∈ linesOf a n, s.lineFails l = false ∧ e.failing.contains l = false ∧ s.cacheBad l = false ∧ e.cached.contains l = false ∧ s.entryOf l = none) →
               Reaches (.bar2Read off n e) s (fun t =>
               t.out = .bar2Data (s.rdBytes a n) :: s.out ∧ t.mem.bytes = s.mem.bytes ∧ t.pci = s.pci ∧ t.ctxs = s.ctxs ∧ t.slots = s.slots))
             ∧ (∀ l, linesOf a n = [l] → s.lineFails l = true → tget none s.mem.cache l = none → s.classOf l = 2 → s.entryOf l = none → s.mem.lostLines = [] → Reaches (.bar2Read off n e) s (fun t =>
               t.out.head? = some .bar2Abort ∧ t.pci.aerUnc = setBit s.pci.aerUnc 15 true ∧ t.mem.bytes = s.mem.bytes ∧
               ∃ q, t.od.lastRecord = faultRecord { code := fltIntHost, unit := 40, addr := l } q)))))
   ∧ (∀ (s : State) (p : Nat), s.granted p = true ↔ bit s.kpr.scopes 1 = true ∨ s.hostPage p = true ∨ (∃ o ∈ s.evid.outs, o.listPage = p ∨ p ∈ o.pages) ∨
       (∃ x ∈ s.slots, p ∈ x.2.chain.audPages) ∨ (∃ x ∈ s.ctxs, x.2.capture = true ∧ x.2.owner = .mailbox ∧ p ∈ x.2.savePages))
   ∧ (∀ s : State, s.pci.dState = 0 → s.pci.linkL2 = false → s.pci.saddleReady = true → s.mem.lostDie = none → s.pci.barLog2 = 30 → s.pci.aperture = 0x240000000 →
       s.bar2Addr 0x05670000 64 = some (148839 * 65536))
   ∧ (∀ s : State, s.up = true →
       (s.ready = true → s.pwr.mode = .run → Reaches .d3hotRequest s (fun t => t.pci.dState = 3 ∧ t.pwr.mode = .standby ∧ t.pci.saddleReady = false))
       ∧ (s.ready = false → Answers .d3hotRequest s { s with pci := { s.pci with dState := 3 } })
       ∧ (s.pwr.step ≤ 6 → Reaches .d0Request s (fun t => t.pci.dState = 0 ∧ t.pci.linkL2 = false ∧ t.pci.ready = s.pci.ready ∧
           t.pwr.mode = (if s.pwr.mode = .standby then .leaving else s.pwr.mode)))
       ∧ Answers .pmeTurnOff s ({ s with pci := { s.pci with linkL2 := true } }.emit .pmeAck))
   ∧ (∀ s : State, s.up = true → (∀ x, (s.odRoute (OdRoute.num .mailbox)).txn = some x → x.session = 0 ∧ (s.session ⟨.mailbox, 0⟩).isSome = true) →
       let rest := fun (t : State) => t.push.enable = false ∧ t.push.head = s.push.head ∧ (∀ n, (t.ring n).enable = false ∧ (t.ring n).base = (s.ring n).base) ∧
         (t.odRoute (OdRoute.num .mailbox)).txn = none ∧ t.ctxs = s.ctxs ∧ t.slots = s.slots ∧ t.tkp = s.tkp ∧ t.evid = s.evid ∧ t.mem = s.mem ∧
         ((s.session ⟨.mailbox, 0⟩).isSome = true → ∃ c, t.session ⟨.mailbox, 0⟩ = some { challenge := c })
       let base : Pci := { ready := s.pci.ready, saddleReady := s.pci.saddleReady, deniedPages := s.pci.deniedPages }
       Reaches .flr s (fun t => rest t ∧ t.pci = { base with
           aerCor := s.pci.aerCor, aerUnc := s.pci.aerUnc, pmeEn := s.pci.pmeEn, pmeStatus := s.pci.pmeStatus })
       ∧ (s.pci.linkL2 = false ∨ s.pci.wakeAsserted = true → Reaches .perst s (fun t => rest t ∧ t.pci = base))
       ∧ (s.pci.linkL2 = true → s.pci.wakeAsserted = false → Reaches .perst s (fun t => rest t ∧ t.pci = { base with
           linkL2 := true, dState := s.pci.dState, pmeEn := s.pci.pmeEn, pmeStatus := s.pci.pmeStatus })))
   ∧ (∀ (s : State) (tag dt : Nat) (st : CplStatus) (b : List Byte), s.up = true →
       let found := s.pci.outstanding.find? (fun r => r.tag == tag)
       (found = none → Answers (.readCompletion tag st dt b) s { s with pci := { s.pci with
            aerUnc := setBit s.pci.aerUnc 16 true, abandoned := s.pci.abandoned.filter (fun t => t != tag) } }
          ∧ Answers (.completionTimeout tag) s s)
       ∧ (∀ r, found = some r → Answers (.readCompletion tag .success dt b) s (if r.desc then s.pushDesc b else s.pushRead dt b)
          ∧ (s.pci.cplDisable = true → Answers (.completionTimeout tag) s s)
          ∧ (r.push = true →
              let off := { s.push with enable := false, fetching := false, current := none }
              let left := s.pci.outstanding.filter (fun q => q.tag != tag)
              (st ≠ .success → Answers (.readCompletion tag st dt b) s (State.raise { s with push := off, pci := { s.pci with outstanding := left, aerUnc := setBit s.pci.aerUnc (if st = .unsupported then 20 else if st = .abort then 15 else 12) true, cplErrors := (s.pci.cplErrors + 1) % 2 ^ 32 } } { code := fltPciCplError, addr := r.addr }))
              ∧ (s.pci.cplDisable = false → Answers (.completionTimeout tag) s (State.raise { s with push := off, pci := { s.pci with outstanding := left, aerUnc := setBit s.pci.aerUnc 14 true, cplTimeouts := (s.pci.cplTimeouts + 1) % 2 ^ 32 } } { code := fltPciCplTimeout, addr := r.addr })))))
   ∧ (∀ s : State, s.up = true →
       let cor := fun (i : Nat) => ({ s with pci := { s.pci with aerCor := setBit s.pci.aerCor i true } } : State)
       let unc := fun (i : Nat) => ({ s with pci := { s.pci with aerUnc := setBit s.pci.aerUnc i true } } : State)
       (∀ p ∈ [(TlpError.receiver, 0), (.badTlp, 6), (.badDllp, 7), (.replayRollover, 8), (.replayTimeout, 12), (.advisory, 13), (.headerLogOverflow, 15)],
          Answers (.pcieTlpError p.1) s (cor p.2))
       ∧ (∀ p ∈ [(TlpError.poisoned, 12), (.ecrc, 19), (.unexpectedCompletion, 16)], Answers (.pcieTlpError p.1) s (unc p.2))
       ∧ (∀ p ∈ [(TlpError.dataLinkProtocol, 4), (.flowControl, 13), (.receiverOverflow, 17), (.malformed, 18)],
          Answers (.pcieTlpError p.1) s ((unc p.2).raise { code := fltPciLink }))
       ∧ Answers (.pcieTlpError .internal) s (((unc 22).raise { code := fltPciLink }).flr))

/-- R514, R533, R534: the mailbox. A doorbell outside 1 to 4,096, or while a request is held, only sets overrun; a message that does not read, or is not a
request of session 0, is answered empty and counted; a request's response is its records' frame, with vector 0; ack returns to idle. A frame
that the device or a host builds reads back as it was built.

R413, R530: Class X pages and the warm reset as commands of the dictionary: each needs the write permission of its route; an allocation names `n` pages by a
handle that belongs to the route, or is refused with FLT_ADMIT_POOL; a free of another's handle is out of range; a warm reset starts a
boot with cause 2, which keeps fuses and flash slots and clears memory. -/
def Obligations.HostRequests : Prop :=
  ((∀ (s : State) (v : Nat), s.up = true →
      let len := bits v 12 0
      (s.pci.mbxState ≠ 0 ∨ len = 0 ∨ 4096 < len → Answers (.mailboxDoorbell v) s { s with pci := { s.pci with mbxOverrun := true } })
      ∧ (s.pci.mbxState = 0 → 1 ≤ len → len ≤ 4096 →
          let held : State := { s with pci := { s.pci with mbxState := 1, reqLen := len } }
          let msg := readMsg (rdList s.pci.reqArea 0 len)
          let empty := fun (t : State) => t.pci.mbxState = 2 ∧ t.pci.rspLen = 0 ∧ (t.odRoute (OdRoute.num .mailbox)).bad = ((s.odRoute (OdRoute.num .mailbox)).bad + 1) % 2 ^ 32 ∧
            (t.out.head? = some (.msix 0) ∨ t.pci.pba.contains 0 = true) ∧ t.od.values = s.od.values
          (s.ready = false → Answers (.mailboxDoorbell v) s held)
          ∧ (s.ready = true →
              (msg = none → Reaches (.mailboxDoorbell v) s empty)
              ∧ (∀ m, msg = some m → m.ty ≠ 1 ∨ m.session ≠ 0 ∨ readOps (m.body.length + 1) m.body = none → Reaches (.mailboxDoorbell v) s empty)
              ∧ (∀ m ops, msg = some m → readOps (m.body.length + 1) m.body = some ops → m.ty = 1 → m.session = 0 →
                  let run := runOps ⟨.mailbox, 0⟩ 4096 ops false [] none
                    (held.modOdRoute (OdRoute.num .mailbox) (fun r => { r with reqs := (r.reqs + 1) % 2 ^ 32 }))
                  run.2.1 = none → run.2.2.pci.mbxState = 1 → Reaches (.mailboxDoorbell v) s (fun t => t.pci.mbxState = 2 ∧
                    t.pci.rspArea = wrList run.2.2.pci.rspArea 0 (blpFrame 2 0 m.tag run.1) ∧ t.pci.rspLen = 16 + run.1.length ∧
                    (t.out.head? = some (.msix 0) ∨ t.pci.pba.contains 0 = true)))))
      ∧ (bit v 0 = true → s.pci.mbxState = 2 → Answers (.mailboxAck v) s { s with pci := { s.pci with mbxState := 0, rspLen := 0 } })
      ∧ (bit v 0 = false ∨ s.pci.mbxState ≠ 2 → Answers (.mailboxAck v) s s))
    ∧ (∀ ty session tag body, ty < 256 → session < 2 ^ 16 → tag < 2 ^ 32 → body.length < 2 ^ 16 → readMsg (blpFrame ty session tag body) = some ⟨ty, session, tag, body⟩)
    ∧ (∀ (w : OdFrom) (limit : Nat) (r : OpRec) (rest : List OpRec) (out : List Byte) (wait : Option Nat) (s : State),
        runOps w limit (r :: rest) true out wait s = runOps w limit rest true (out ++ r.reply 12 []) wait s
        ∧ (r.op < 1 ∨ 6 < r.op → 24 + out.length + 8 * rest.length ≤ limit →
            runOps w limit (r :: rest) false out wait s = runOps w limit rest true (out ++ r.reply 15 []) wait s))) ∧
  (∀ (s : State) (r : OdRoute) (n : Nat), s.ready = true →
     let say := fun (t : State) (st : Nat) (v : List Byte) => t.emit (.odReply r 0 st v)
     (s.permits r 1 = false → ∀ c ∈ [Instr.allocClassXPages r n, .freeClassXPages r n, .warmReset r], Answers c s (say s 2 []))
     ∧ (s.permits r 1 = true →
         (n = 0 → Answers (.allocClassXPages r n) s (say s 3 []))
         ∧ (n ≠ 0 → s.hostAlloc r n = none → Answers (.allocClassXPages r n) s
             (say (s.raise { code := fltAdmitPool, unit := OdRoute.num r, detail := 0xA030 }) 9 (leBytes 2 fltAdmitPool)))
         ∧ (∀ t, n ≠ 0 → s.hostAlloc r n = some t → Answers (.allocClassXPages r n) s (say t 0 []) ∧
             tget 4 t.tkp.listOwner t.tkp.lastHandle = OdRoute.num r ∧ (tget [] t.tkp.lists t.tkp.lastHandle).length = n ∧ t.ctxs = s.ctxs ∧ t.slots = s.slots)
         ∧ (s.ownerHolds r n = false → Answers (.freeClassXPages r n) s (say s 3 []))
         ∧ (s.ownerHolds r n = true → Reaches (.freeClassXPages r n) s (fun t => tget [] t.tkp.lists n = [] ∧ t.ownerHolds r n = false ∧ t.out.head? = some (.odReply r 0 0 [])))
         ∧ Reaches (.warmReset r) s (fun t => t.boot.cause = 2 ∧ t.boot.stage = 1 ∧ t.boot.booting = true ∧ t.boot.bootNum = (s.boot.bootNum + 1) % 2 ^ 32 ∧
             t.up = false ∧ t.fuses = s.fuses ∧ t.flash.slots = s.flash.slots ∧ t.pair.failOut = true ∧ (∀ a, t.rdByte a = 0#8))))
/-! ### The object dictionary (R524 to R541) -/

/-- R524, R526, R532, R534 to R538: the operations of a session. Reads give what the session has staged, else the committed value; a write of a transactional
entry is checked in the order ACCESS, LEVEL, NO_TXN, TYPE, RANGE, TXN_FULL and staged, changing nothing; begin, commit and rollback answer as the
table says; a changed stamp is a CONFLICT; a commit makes the value the committed one and raises its stamp. The 30 s expiry rolls back with
EVT_ODX_ROLLBACK and a report that is given once. An unlock matches the challenge last read. -/
def Obligations.DictionaryOperations : Prop :=
  (∀ (s : State) (w : OdFrom) (index sub n : Nat) (v : List Byte), s.ready = true →
     let k : OdKey := ⟨index, sub⟩
     (s.sessionOpen w = false → ∀ c ∈ [Instr.odxRead w k, .odxWrite w k v, .odxBegin w, .odxCommit w, .odxRollback w, .odxInfo w k, .expertUnlock w n],
        Answers c s (s.modOdRoute (OdRoute.num w.route) (fun r => { r with bad := (r.bad + 1) % 2 ^ 32 })))
     ∧ (s.sessionOpen w = true →
       let s1 := s.modOdRoute (OdRoute.num w.route) (fun r => { r with reqs := (r.reqs + 1) % 2 ^ 32 })
       let done := fun (t : State) (st : Nat) (x : List Byte) => t.emit (.odReply w.route w.session st x)
       let txn := fun (t : Option Txn) => s1.modOdRoute (OdRoute.num w.route) (fun r => { r with txn := t })
       let key := odKeyNat index sub
       -- begin, rollback, commit
       (∀ x, s.session w = some x → x.report = true → ∀ c ∈ [Instr.odxBegin w, .odxCommit w, .odxRollback w],
          Answers c s (done (s1.modSession w (fun x => { x with report := false })) 13 []))
       ∧ ((∀ x, s.session w = some x → x.report = false) →
          ((s.odRoute (OdRoute.num w.route)).txn.isSome = true → Answers (.odxBegin w) s (done s1 7 []))
          ∧ ((s.odRoute (OdRoute.num w.route)).txn = none → Answers (.odxBegin w) s (done (txn (some { session := w.session })) 0 []))
          ∧ (s.ownTxn w = none → Answers (.odxRollback w) s (done s1 6 []) ∧ Answers (.odxCommit w) s (done s1 6 []))
          ∧ (∀ t, s.ownTxn w = some t → Answers (.odxRollback w) s (done (txn none) 0 [])
             ∧ ((∃ g ∈ t.staged, tget 0 s.od.stamps g.key ≠ g.stamp) → Answers (.odxCommit w) s
                 (done ((txn none).modOdRoute (OdRoute.num w.route) (fun r => { r with conflicts := (r.conflicts + 1) % 2 ^ 32 })) 8 []))
             ∧ (t.staged = [] → Answers (.odxCommit w) s (done (txn none) 0 []))
             ∧ ((∀ g ∈ t.staged, tget 0 s.od.stamps g.key = g.stamp) →
                 let ks := sortBy (·.1) (t.staged.map (fun g => (g.key, g.value)))
                 (∀ e, (txn none).applyKeys w.route ks [] = .error e → e.status = 9 → Answers (.odxCommit w) s
                    (done ((txn none).raise { code := e.code, unit := OdRoute.num w.route, detail := e.detail }) 9 (leBytes 2 e.code)))
                 ∧ (∀ u, (txn none).applyKeys w.route ks [] = .ok u →
                    (s.pair.mode = 0 → u.pair.mode = 0 → u.sessionOpen w = true → (∀ k ∈ ks, fusionKey k.1 = false) ∨ u.fusionOk = true →
                      Answers (.odxCommit w) s (done u 0 []))
                    -- a fusion set without R46's members is refused as a shape (assumption 121)
                    ∧ ((∃ k ∈ ks, fusionKey k.1 = true) → u.fusionOk = false → Answers (.odxCommit w) s
                      (done ((txn none).raise { code := fltAdmitShape, unit := OdRoute.num w.route, detail := 0x2800 }) 9 (leBytes 2 fltAdmitShape)))))
             ∧ (∀ g x, t.staged = [g] → g.key = odKeyNat 0x8000 1 → g.value = leBytes 2 x → tget 0 s.od.stamps g.key = g.stamp → s.odVal 0x8000 1 ≠ g.value →
                 s.pair.mode = 0 → Reaches (.odxCommit w) s (fun u => u.odVal 0x8000 1 = leBytes 2 x ∧ tget 0 u.od.stamps g.key = (g.stamp + 1) % 2 ^ 32 ∧
                   (u.odRoute (OdRoute.num w.route)).txn = none ∧ u.slots = s.slots ∧ u.ctxs = s.ctxs ∧ u.mem = s.mem ∧ u.out = .odReply w.route w.session 0 [] :: s.out))))
       -- read, info and write
       ∧ (s.odEnt index sub = none → Answers (.odxRead w k) s (done s1 1 []) ∧ Answers (.odxInfo w k) s (done s1 1 []) ∧ Answers (.odxWrite w k v) s (done s1 1 []))
       ∧ (∀ e, s.odEnt index sub = some e →
          (s.permits w.route 0 = false → Answers (.odxRead w k) s (done s1 2 []) ∧ Answers (.odxInfo w k) s (done s1 2 []))
          ∧ (s.permits w.route 0 = true → (e.acc ≠ 0 ∨ sub = 0 → Answers (.odxInfo w k) s (done s1 0 (e.info (tget 0 s.od.stamps key))))
             ∧ (e.acc = 0 → sub ≠ 0 → Reaches (.odxInfo w k) s (fun t => ∃ stamp, t.out = .odReply w.route w.session 0 (e.info stamp) :: s.out))
             ∧ (e.acc = 0 → index ≠ 0xA000 → index ≠ 0xA010 → Answers (.odxRead w k) s (done s1 0 (s1.roValue w index sub)))
             ∧ (e.acc = 2 → Answers (.odxRead w k) s (done s1 0 (if e.ty = 7 then [] else copies (tySize e.ty e.n) 0#8)))
             ∧ (e.acc ≠ 0 → e.acc ≠ 2 → Answers (.odxRead w k) s (done s1 0 (match (s.ownTxn w).bind (fun t => t.staged.find? (fun g => g.key == key)) with
                 | some g => g.value
                 | none => s.odVal index sub))))
          ∧ (let unlocked := w.route == .cantle || (match s.session w with | some x => x.unlocked | none => false)
             (sub = 0 ∨ e.acc = 0 → Answers (.odxWrite w k v) s (done s1 2 []))
             ∧ (sub ≠ 0 → e.acc ≠ 0 →
                (s.permits w.route (e.writeBit index sub) = false → Answers (.odxWrite w k v) s (done s1 2 []))
                ∧ (s.permits w.route (e.writeBit index sub) = true →
                   (e.lvl = 1 → unlocked = false → Answers (.odxWrite w k v) s (done s1 5 []))
                   ∧ (e.lvl ≠ 1 ∨ unlocked = true →
                      (e.acc = 2 → (e.typeOk v = false → Answers (.odxWrite w k v) s (done s1 4 []))
                         ∧ (e.typeOk v = true → e.rangeOk index sub v = false → Answers (.odxWrite w k v) s (done s1 3 []))
                         ∧ (e.typeOk v = true → e.rangeOk index sub v = true → Answers (.odxWrite w k v) s ((s1.command w index sub v).answer w)))
                      ∧ (e.acc ≠ 2 → (s.ownTxn w = none → Answers (.odxWrite w k v) s (done s1 6 []))
                         ∧ (∀ t, s.ownTxn w = some t →
                            let old := t.staged.find? (fun g => g.key == key)
                            (e.typeOk v = false → Answers (.odxWrite w k v) s (done s1 4 []))
                            ∧ (e.typeOk v = true → e.rangeOk index sub v = false → Answers (.odxWrite w k v) s (done s1 3 []))
                            ∧ (e.typeOk v = true → e.rangeOk index sub v = true →
                               (old = none → 256 ≤ t.staged.length ∨ 16384 < t.bytes + v.length → Answers (.odxWrite w k v) s (done s1 10 []))
                               ∧ (old = none → t.staged.length < 256 → t.bytes + v.length ≤ 16384 → Answers (.odxWrite w k v) s
                                    (done (txn (some { t with staged := t.staged ++ [⟨key, v, tget 0 s.od.stamps key⟩] })) 0 []))
                               ∧ (∀ g, old = some g → t.bytes - g.value.length + v.length ≤ 16384 → Answers (.odxWrite w k v) s
                                    (done (txn (some { t with staged := t.staged.filter (fun g => g.key != key) ++ [⟨key, v, g.stamp⟩] })) 0 []))))))))))
       -- the expert unlock
       ∧ (s.permits w.route 1 = false → Answers (.expertUnlock w n) s (done s1 2 []))
       ∧ (∀ x, s.session w = some x → s.permits w.route 1 = true → Reaches (.expertUnlock w n) s (fun t =>
            let ok := x.seen = some (n % 2 ^ 32) ∧ x.challenge = n % 2 ^ 32
            (∃ c, t.session w = some { x with challenge := c, seen := none, unlocked := x.unlocked || decide ok }) ∧
            t.out = .odReply w.route w.session (if ok then 0 else 2) [] :: s.out))
       ∧ (∀ x, s.session w = some x → s.permits w.route 0 = true → Reaches (.odxRead w ⟨0xA010, 1⟩) s (fun t =>
            t.session w = some { x with seen := some x.challenge } ∧ t.out = .odReply w.route w.session 0 (leBytes 4 x.challenge) :: s.out))))
   ∧ (∀ (e : OdEnt) (stamp : Nat), (e.info stamp).length = 40)
   ∧ (∀ (s : State) (r : OdRoute), s.ready = true →
       ((s.odRoute (OdRoute.num r)).txn = none → Answers (.transactionExpiry r) s s)
       ∧ (∀ t x, (s.odRoute (OdRoute.num r)).txn = some t → s.session ⟨r, t.session⟩ = some x → Reaches (.transactionExpiry r) s (fun u =>
           (u.odRoute (OdRoute.num r)).txn = none ∧ u.session ⟨r, t.session⟩ = some { x with report := true } ∧ u.od.values = s.od.values ∧ u.slots = s.slots ∧
           u.od.lastRecord = faultRecord { code := evtOdxRollback, unit := OdRoute.num r } s.od.faultSeq)))

/-- R538, R540, R541: BLP. An open message takes the lowest free of 16 UDP sessions, or is answered BUSY; a close or 60 s end a session and roll back its
transaction; a datagram that does not read is counted; a repeated tag receives the last response again and changes nothing; a request's records
run in order and their response leaves in one datagram. CAN FD carries a message in segments in order; a segment out of order, a
new first one, or 100 ms discard it and count it; the one session opens at the first request. -/
def Obligations.ManagementRoutes : Prop :=
  (∀ s : State, s.ready = true →
     let bad := fun (r : OdRoute) => s.modOdRoute (OdRoute.num r) (fun x => { x with bad := (x.bad + 1) % 2 ^ 32 })
     let isOpen := fun (n : Nat) => (s.session ⟨.udp, n⟩).isSome = true
     (∀ n, 1 ≤ n → n ≤ 16 → ¬ isOpen n → (∀ m, 1 ≤ m → m < n → isOpen m) → Reaches .blpOpen s (fun t =>
        (∃ c, t.session ⟨.udp, n⟩ = some { challenge := c }) ∧ t.out = .blpReply n (blpFrame 4 n 0 (leBytes 4 0)) :: s.out))
     ∧ ((∀ m, 1 ≤ m → m ≤ 16 → isOpen m) → Answers .blpOpen s (s.emit (.blpReply 0 (blpFrame 4 0 0 (leBytes 4 14)))))
     ∧ (∀ n, n < 1 ∨ 16 < n ∨ ¬ isOpen n → Answers (.blpClose n) s (bad .udp))
     ∧ (∀ n, (isOpen n → (1 ≤ n → n ≤ 16 → Reaches (.blpClose n) s (fun t => t.session ⟨.udp, n⟩ = none)) ∧
           Reaches (.sessionTimeout .udp n) s (fun t => t.session ⟨.udp, n⟩ = none ∧
             (∀ x, (s.odRoute (OdRoute.num .udp)).txn = some x → x.session = n → (t.odRoute (OdRoute.num .udp)).txn = none ∧
               t.od.lastRecord = faultRecord { code := evtOdxRollback, unit := 1 } s.od.faultSeq) ∧
             (∀ x, (s.odRoute (OdRoute.num .udp)).txn = some x → x.session ≠ n → (t.odRoute (OdRoute.num .udp)).txn = some x)))
         ∧ (¬ isOpen n → Answers (.sessionTimeout .udp n) s s)
         ∧ Answers (.sessionTimeout .mailbox n) s s ∧ Answers (.sessionTimeout .cantle n) s s
         ∧ ((s.session ⟨.can, n⟩).isSome = true → Reaches (.sessionTimeout .can n) s (fun t => t.session ⟨.can, n⟩ = none)))
     -- datagrams
     ∧ (∀ dt b, 1232 < b.length ∨ readMsg b = none → Answers (.blpUdpRequest ⟨dt, b⟩) s
         ((s.modPort 2 (fun p => p.arrive dt)).modOdRoute 1 (fun x => { x with bad := (x.bad + 1) % 2 ^ 32 })))
     ∧ (∀ dt b m, b.length ≤ 1232 → readMsg b = some m → m.ty = 1 →
         let s' := s.modPort 2 (fun p => p.arrive dt)
         let bad' := s'.modOdRoute 1 (fun x => { x with bad := (x.bad + 1) % 2 ^ 32 })
         let w : OdFrom := ⟨.udp, m.session⟩
         (s.session w = none → Answers (.blpUdpRequest ⟨dt, b⟩) s bad')
         ∧ (∀ x, s.session w = some x →
            (x.lastTag = some m.tag → x.lastReply ≠ [] → Answers (.blpUdpRequest ⟨dt, b⟩) s (s'.emit (.blpReply m.session x.lastReply)))
            ∧ (x.lastTag ≠ some m.tag → readOps (m.body.length + 1) m.body = none → Answers (.blpUdpRequest ⟨dt, b⟩) s bad')
            ∧ (∀ ops, x.lastTag ≠ some m.tag → readOps (m.body.length + 1) m.body = some ops →
                let run := runOps w 1232 ops false [] none ((s'.modSession w (fun x => { x with lastTag := some m.tag, lastReply := [] })).modOdRoute 1
                  (fun r => { r with reqs := (r.reqs + 1) % 2 ^ 32 }))
                run.2.1 = none → ∀ y, run.2.2.session w = some y → Reaches (.blpUdpRequest ⟨dt, b⟩) s (fun t =>
                  t.out = .blpReply m.session (blpFrame 2 m.session m.tag run.1) :: run.2.2.out ∧
                  t.session w = some { y with lastTag := some m.tag, lastReply := blpFrame 2 m.session m.tag run.1 } ∧ t.slots = run.2.2.slots))))
     -- CAN FD
     ∧ (∀ b, Answers (.canFrame b true) s (bad .can))
     ∧ Answers (.canFrame [] false) s s
     ∧ (∀ h data, let n := h % 64
         let put := fun (m : Option (Nat × List Byte)) => ({ s with od := { s.od with canMsg := m } } : State)
         let frame := leBytes 1 h ++ data
         h < 256 →
           (h / 64 = 2 → n = 0 → s.od.canMsg = none → Answers (.canFrame frame false) s (put (some (1, data))))
           ∧ (h / 64 = 3 → n = 0 → s.od.canMsg = none → Answers (.canFrame frame false) s (s.canMessage data))
           ∧ (h / 64 = 2 → n = 0 → s.od.canMsg.isSome = true → Answers (.canFrame frame false) s
                { bad .can with od := { (bad .can).od with canMsg := some (1, data) } })
           ∧ (h / 128 = 0 → s.od.canMsg = none → Answers (.canFrame frame false) s (bad .can))
           ∧ (∀ k got, s.od.canMsg = some (k, got) → h / 128 = 0 →
               (n = k → got.length + data.length ≤ 2111 → h / 64 = 0 → Answers (.canFrame frame false) s (put (some ((k + 1) % 64, got ++ data))))
               ∧ (n = k → got.length + data.length ≤ 2111 → h / 64 = 1 → Answers (.canFrame frame false) s ((put none).canMessage (got ++ data)))
               ∧ (n ≠ k → Answers (.canFrame frame false) s { bad .can with od := { (bad .can).od with canMsg := none } })))
     ∧ (∀ b m ops, 16 + fieldAt b 6 2 ≤ 2048 → readMsg (b.take (16 + fieldAt b 6 2)) = some m → m.ty = 1 → readOps (m.body.length + 1) m.body = some ops →
         let w : OdFrom := ⟨.can, 1⟩
         let s0 := if (s.session w).isSome then s else s.openSession w
         let run := runOps w 2048 ops false [] none (s0.modOdRoute 2 (fun r => { r with reqs := (r.reqs + 1) % 2 ^ 32 }))
         s.od.canMsg = none → run.2.1 = none → run.2.2.sessionOpen w = true → Reaches (.canFrame (leBytes 1 0xC0 ++ b) false) s (fun t =>
           t.out = ((canFrames (blpFrame 2 1 m.tag run.1)).map Out.canReply).reverse ++ run.2.2.out ∧ (t.session w).isSome = true))
     ∧ (s.od.canMsg = none → Answers .canSegmentTimeout s s)
     ∧ (∀ m, s.od.canMsg = some m → Answers .canSegmentTimeout s { bad .can with od := { (bad .can).od with canMsg := none } })
     ∧ Answers .canBusOff s { s with pair := { s.pair with commitWait := s.pair.commitWait.filter (fun h => !HeldReply.of h.1 ⟨.can, 1⟩) } })
   ∧ (∀ bs : List Byte, ∀ f ∈ canFrames bs, f.length ≤ 64)

/-! ### The Keeper and the boot (R545 to R572, R581) -/

/-- R545, R546, R552 to R554, R558, R563 to R565, R567 to R570, R572: the Keeper's requests. Each needs its permission. A fuse bit, once set, stays; a write that does
not verify is refused with FLT_KPR_FUSE. The minimum version rises only to the running container's, in a boot at stage 9. An attestation signs its report, at
most 10 per second and route. Each challenge admits one response; scope 4 needs a vendor key; the third rejection begins the lockout, in which both requests
raise FLT_KPR_UNLOCK. An update verifies first, and never touches the slot the boot runs from. -/
def Obligations.KeeperRequests : Prop :=
  (∀ (s : State) (r : OdRoute) (n : Nat) (b : List Byte) (f : OwnerFuse) (ok : Bool) (c : Container), s.ready = true →
     let say := fun (t : State) (st : Nat) => t.emit (.odReply r 0 st [])
     let no := fun (t : State) (index code : Nat) => (t.raise { code := code, unit := OdRoute.num r, detail := index }).emit (.odReply r 0 9 (leBytes 2 code))
     (s.permits r 1 = false → Answers (.attestationRequest r b) s (say s 2))
     ∧ (s.permits r 4 = false → ∀ i ∈ [Instr.ownerKeyBurn r n b ok, .ownerFuseSet r f ok, .svnAdvance r n ok, .revocationContainer r c ok, .stageCountReset r n,
          .journalSelect r n, .configSave r, .configErase r, .firmwareUpdate r c], Answers i s (say s 2))
     ∧ (s.permits r 1 = true →
         (b.length ≠ 32 → Answers (.attestationRequest r b) s (say s 4))
         ∧ (b.length = 32 → 10 ≤ tget 0 s.kpr.reports (OdRoute.num r) → Answers (.attestationRequest r b) s (no s 0x7001 fltKprBusy))
         ∧ (b.length = 32 → tget 0 s.kpr.reports (OdRoute.num r) < 10 → Reaches (.attestationRequest r b) s (fun t =>
             t.kpr.report = s.reportBody b ++ padTo 64 (Config.deviceSign (s.reportBody b)) ∧ (s.reportBody b).take 4 = ascii "QSAT" ∧ ((s.reportBody b).drop 8).take 32 = b ∧
             t.kpr.signed = (s.kpr.signed + 1) % 2 ^ 64 ∧ tget 0 t.kpr.reports (OdRoute.num r) = tget 0 s.kpr.reports (OdRoute.num r) + 1 ∧
             t.fuses = s.fuses ∧ t.flash = s.flash ∧ t.out = .odReply r 0 0 [] :: s.out)))
     ∧ (s.permits r 4 = true →
         let hash := tget none s.fuses.ownerHash
         -- owner keys and fuses
         (s.fuses.ownerLock = true ∨ 4 ≤ n → Answers (.ownerKeyBurn r n b ok) s (say s 2))
         ∧ (s.fuses.ownerLock = false → n < 4 → b.length ≠ 32 → Answers (.ownerKeyBurn r n b ok) s (say s 4))
         ∧ (s.fuses.ownerLock = false → n < 4 → b.length = 32 →
             Answers (.ownerKeyBurn r n b true) s (say { s with fuses := { s.fuses with
               ownerHash := tset none s.fuses.ownerHash n (some (orBytes ((hash n).getD []) (keyHash b))) } } 0)
             ∧ Reaches (.ownerKeyBurn r n b false) s (fun t => t.out.head? = some (.odReply r 0 9 (leBytes 2 fltKprFuse)) ∧
                 (∀ i, i ≠ n → tget none t.fuses.ownerHash i = hash i) ∧ ∃ x, tget none t.fuses.ownerHash n = some (orBytes ((hash n).getD []) x)))
         ∧ Answers (.ownerFuseSet r .ownerLock true) s (say { s with fuses := { s.fuses with ownerLock := true } } 0)
         ∧ Answers (.ownerFuseSet r .imagesRequired true) s (say { s with fuses := { s.fuses with imagesRequired := true } } 0)
         ∧ Answers (.ownerFuseSet r .vendorDebugDisable true) s (say { s with fuses := { s.fuses with vendorDebugOff := true } } 0)
         ∧ Answers (.ownerFuseSet r (.revocation n) true) s (say { s with fuses := { s.fuses with ownerRevoked := s.fuses.ownerRevoked ||| n % 16 } } 0)
         ∧ Reaches (.ownerFuseSet r f false) s (fun t => t.out.head? = some (.odReply r 0 9 (leBytes 2 fltKprFuse)) ∧ (s.fuses.ownerLock = true → t.fuses.ownerLock = true) ∧
             (s.fuses.imagesRequired = true → t.fuses.imagesRequired = true) ∧ (∀ i, bit s.fuses.ownerRevoked i = true → bit t.fuses.ownerRevoked i = true) ∧
             t.fuses.vendorHash = s.fuses.vendorHash ∧ t.fuses.svn = s.fuses.svn)
         -- minimum versions and revocation
         ∧ (n < 1 ∨ 3 < n → Answers (.svnAdvance r n ok) s (say s 3))
         ∧ (1 ≤ n → n ≤ 3 →
             let run := tget none s.flash.slots (n * 2 + tget 0 s.boot.from2 n)
             (run = none → Answers (.svnAdvance r n ok) s (no s 0x7020 fltBootVerify))
             ∧ (∀ x, run = some x → (s.boot.stage ≠ 9 → Answers (.svnAdvance r n ok) s (no s 0x7020 fltBootRollback))
                ∧ (s.boot.stage = 9 → Answers (.svnAdvance r n true) s (say { s with fuses := { s.fuses with
                    svn := tset 0 s.fuses.svn n (max (tget 0 s.fuses.svn n) x.svn) } } 0))))
         ∧ (let mask := leNat (c.payload.take 1) % 16
            (s.containerOk c 5 = false ∨ bit mask c.key = true → Answers (.revocationContainer r c ok) s (no s 0x7020 fltBootVerify))
            ∧ (s.containerOk c 5 = true → bit mask c.key = false →
                Answers (.revocationContainer r c true) s (say { s with fuses := { s.fuses with vendorRevoked := s.fuses.vendorRevoked ||| mask } } 0)))
         -- journal, counts, stored configuration
         ∧ Answers (.journalSelect r n) s (say { s with kpr := { s.kpr with jpos := n } } 0)
         ∧ (n < 1 ∨ 9 < n → Answers (.stageCountReset r n) s (say s 3))
         ∧ (1 ≤ n → n ≤ 9 → Reaches (.stageCountReset r n) s (fun t => tget 0 t.boot.counts n = 0 ∧ tget false t.boot.latched n = false ∧
             (∀ m, m ≠ n → tget 0 t.boot.counts m = tget 0 s.boot.counts m ∧ tget false t.boot.latched m = tget false s.boot.latched m) ∧
             (∃ ms, t.flash.journal.head? = some { boot := s.boot.bootNum, stage := n, outcome := 6, count := 0, cause := s.boot.cause, fault := 0, detail := 0, bitmap := 0, ms := ms }) ∧
             t.out = .odReply r 0 0 [] :: s.out))
         ∧ Answers (.configErase r) s (say { s with flash := { s.flash with stored := none, storedDigest := [], storedImages := [] } } 0)
         ∧ (let vs := s.od.values.filterMap (fun p => p.2.map (fun v => (p.1, v)))
            let size := (vs.flatMap (fun p => leBytes 4 p.1 ++ leBytes 2 p.2.length ++ p.2)).length
            (2 ^ 24 < size → Answers (.configSave r) s (no s 0x7050 fltBootStore))
            ∧ (size ≤ 2 ^ 24 → Reaches (.configSave r) s (fun t => t.flash.stored = some vs ∧ t.od.values = s.od.values ∧ t.flash.slots = s.flash.slots ∧ t.flash.journal = s.flash.journal ∧
                t.out = .odReply r 0 0 [] :: s.out)))
         -- firmware update
         ∧ (let kind := s.kpr.updTarget % 16
            let slot := bits s.kpr.updTarget 4 4
            let fail := fun (code : Nat) => no { s with kpr := { s.kpr with updState := 3 } } 0x7060 code
            (kind < 1 ∨ 3 < kind ∨ s.containerOk c kind = false → Answers (.firmwareUpdate r c) s (fail fltBootVerify))
            ∧ (1 ≤ kind → kind ≤ 3 → s.containerOk c kind = true →
                (c.svn < tget 0 s.fuses.svn kind → Answers (.firmwareUpdate r c) s (fail fltBootRollback))
                ∧ (tget 0 s.fuses.svn kind ≤ c.svn → tget 0 s.boot.from2 kind = slot → Answers (.firmwareUpdate r c) s (fail fltBootUpdate))
                ∧ (tget 0 s.fuses.svn kind ≤ c.svn → tget 0 s.boot.from2 kind ≠ slot → Answers (.firmwareUpdate r c) s (say { s with
                    kpr := { s.kpr with updState := 1, updData := some c }, flash := { s.flash with slots := tset none s.flash.slots (kind * 2 + slot) none } } 0)))
            ∧ (s.kpr.updState = 1 → Answers .firmwareUpdateDone s { s with kpr := { s.kpr with updState := 2, updData := none }, flash := { s.flash with slots := tset none s.flash.slots (kind * 2 + slot) s.kpr.updData } })
            ∧ (s.kpr.updState ≠ 1 → Answers .firmwareUpdateDone s s))))
   -- debug unlock
   ∧ (∀ (s : State) (route scope : Nat) (d : DebugResp), s.up = true →
       let refused := fun (n : Nat) => s.raise { code := fltKprUnlock, unit := n, detail := 0x7040 }
       (4 ≤ route → Answers (.debugChallengeRequest route scope) s s)
       ∧ (route < 4 → s.kpr.lockout = true → Answers (.debugChallengeRequest route scope) s (refused route))
       ∧ (route < 4 → s.kpr.lockout = false → Reaches (.debugChallengeRequest route scope) s (fun t =>
           t.kpr.chalRoute = some route ∧ t.kpr.chalScope = scope % 32 ∧ t.kpr.scopes = s.kpr.scopes ∧ t.out = s.out ∧
           t.kpr.challenge.take 8 = ascii "QSDC" ++ leBytes 2 1 ++ leBytes 1 (scope % 32) ++ leBytes 1 route))
       ∧ (s.kpr.lockout = true → Answers (.debugResponse d) s (refused d.route))
       ∧ (s.kpr.lockout = false → s.responseOk d = true → Answers (.debugResponse d) s (State.raise { s with kpr := { s.kpr with
             scopes := s.kpr.scopes ||| s.kpr.chalScope, grantedEver := s.kpr.grantedEver ||| s.kpr.chalScope, chalRoute := none, accepted := true, rejected := false } }
             { code := evtKprDebug, unit := d.route, detail := 0x7040 }))
       ∧ (s.kpr.lockout = false → s.responseOk d = false →
           (s.kpr.rejects ≠ 2 → Answers (.debugResponse d) s { s with kpr := { s.kpr with
             chalRoute := none, accepted := false, rejected := true, rejects := s.kpr.rejects + 1, lockout := false } })
           ∧ (s.kpr.rejects = 2 → Answers (.debugResponse d) s { s with kpr := { s.kpr with
             chalRoute := none, accepted := false, rejected := true, rejects := 0, lockout := true } }))
       ∧ Answers .unlockLockoutEnd s { s with kpr := { s.kpr with lockout := false } }
       ∧ (s.kpr.chalRoute ≠ some d.route → s.responseOk d = false)
       ∧ (bit s.kpr.chalScope 4 = true → bit d.keyByte 2 = false ∨ s.fuses.vendorDebugOff = true → s.responseOk d = false))

/-- R556 to R561, R566, R579, R581: the boot. A reset starts a boot with its cause, at stage 1, with FAIL_N asserted; fuses, flash slots, the queue and the journal's counts
stay, memory and the rest are at reset. A stage that has done its work enters the next; a container that fails is replaced by the other slot's, which counts as
one failure; both failing, or any other failure, starts again with cause 3; the third failure latches the stage and its alternate runs from then
on; stage 1 halts the device, as the third failure of an alternate does, with FLT_BOOT_HALT; 60 s later the boot is retried. Stage 9 is ready. -/
def Obligations.BootSequence : Prop :=
  (∀ (s : State) (cl : Nat),
     let fresh := fun (cause : Nat) (t : State) => t.boot.cause = cause ∧ t.boot.stage = 1 ∧ t.boot.booting = true ∧ t.boot.bootNum = (s.boot.bootNum + 1) % 2 ^ 32 ∧
       t.up = false ∧ t.ready = false ∧ t.pair.failOut = true ∧ t.fuses = s.fuses ∧ t.flash.slots = s.flash.slots ∧ t.out = s.out ∧ (∀ a, t.rdByte a = 0#8) ∧ t.slots = [] ∧ t.ctxs = []
     (s.boot.testEn = false → Reaches .powerOn s (fun t => fresh 0 t ∧ t.clk.refLost = false))
     ∧ (s.boot.testEn = true → Reaches .powerOn s (fun t => t.boot.booting = false ∧ t.up = false ∧ t.flash = s.flash))
     ∧ (s.boot.testEn = true ∨ s.boot.railsOk = false → Reaches .resetNAssert s (fun t => t.boot.booting = false ∧ t.up = false ∧ t.flash = s.flash))
     ∧ (s.boot.testEn = false → s.boot.railsOk = true →
         (s.boot.thermalHold = true → Reaches .resetNAssert s (fun t => t.boot.thermalHold = true ∧ t.boot.booting = false ∧ t.up = false))
         ∧ (s.boot.thermalHold = false → Reaches .resetNAssert s (fresh (if s.clk.refLost = true ∧ s.clk.running = false then 6 else 1))))
     ∧ Reaches .railBrownout s (fun t => t.boot.railsOk = false ∧ t.boot.booting = false ∧ t.up = false ∧ t.fuses = s.fuses ∧ t.flash = s.flash ∧ (∀ a, t.rdByte a = 0#8))
     ∧ (s.boot.halted = false → Answers .bootRetry s s)
     ∧ (s.boot.halted = true → s.boot.booting = false → Reaches .bootRetry s (fun t => fresh s.boot.cause t ∧ t.boot.retry = true ∧ tget false t.boot.alt 1 = false))
     ∧ (s.boot.booting = false → Answers (.stageWatchdog cl) s s)
     ∧ (∀ r, s.boot.booting = false → Answers (.bootStagePass r) s s)
     -- failures
     ∧ (∀ n r, s.boot.booting = true → s.boot.stage = n → 2 ≤ n → n ≤ 8 → tget false s.boot.alt n = false → tget false s.boot.latched n = false →
         tget 0 s.boot.altFails n < 3 → r.workOk = false → s.up = true →
         let failed := fun (t : State) => fresh 3 t ∧ tget 0 t.boot.counts n = tget 0 s.boot.counts n + 1 ∧ tget false t.boot.latched n = decide (2 ≤ tget 0 s.boot.counts n) ∧
           ∃ j ∈ t.flash.journal, j.boot = s.boot.bootNum ∧ j.stage = n ∧ j.outcome = 2 ∧ j.count = tget 0 s.boot.counts n + 1
         Reaches (.bootStagePass r) s failed ∧ Reaches (.stageWatchdog cl) s failed)
     ∧ (∀ n r, s.boot.booting = true → s.boot.stage = n → 2 ≤ n → n ≤ 8 → tget false s.boot.alt n = true → tget 0 s.boot.altFails n = 2 → r.workOk = false → s.up = true → s.pci.ready = false →
         let halt := fun (t : State) => t.boot.halted = true ∧ t.boot.booting = false ∧ t.pair.failOut = true ∧ t.boot.stage = n ∧
           t.od.lastRecord = faultRecord { code := fltBootHalt, detail := n } s.od.faultSeq
         Reaches (.bootStagePass r) s halt ∧ Reaches (.stageWatchdog cl) s halt)
     ∧ (∀ r, s.boot.booting = true → s.boot.stage = 1 → r.workOk = false → s.clk.pllLock = true → s.pci.ready = false →
         let halt := fun (t : State) => t.boot.halted = true ∧ t.boot.booting = false ∧ t.pair.failOut = true
         Reaches (.bootStagePass r) s halt ∧ Reaches (.stageWatchdog cl) s halt))
   -- stages that pass
   ∧ (∀ (s : State) (r : StageResult), s.boot.booting = true → s.pci.ready = false → r.workOk = true →
       let next := fun (n : Nat) (t : State) => t.boot.stage = n ∧ t.boot.booting = true ∧ t.boot.bootNum = s.boot.bootNum ∧ t.clk = s.clk ∧ t.mem.bytes = s.mem.bytes
       let plain := fun (n : Nat) => s.boot.stage = n ∧ tget false s.boot.alt n = false ∧ tget false s.boot.latched n = false ∧ tget false s.boot.latched (n + 1) = false
       (s.boot.stage = 1 → s.clk.pllLock = false → s.pci.mbxState ≠ 1 → Answers (.bootStagePass r) s s)
       ∧ (plain 1 → s.clk.pllLock = true → r.certOk = true → Reaches (.bootStagePass r) s (fun t => next 2 t ∧ t.boot.identity = true ∧ t.od = s.od))
       ∧ (s.up = true →
           (∀ p ∈ [(2, 1), (5, 2), (7, 3)], plain p.1 →
              (s.slotVerifies p.2 0 r.slotAOk = 0 → Reaches (.bootStagePass r) s (fun t => next (p.1 + 1) t ∧ tget 0 t.boot.from2 p.2 = 0 ∧ tget 0 t.boot.counts p.1 = 0))
              ∧ (s.slotVerifies p.2 0 r.slotAOk ≠ 0 → s.slotVerifies p.2 1 r.slotBOk = 0 → Reaches (.bootStagePass r) s (fun t => next (p.1 + 1) t ∧
                  tget 0 t.boot.from2 p.2 = 1 ∧ tget 0 t.boot.counts p.1 = tget 0 s.boot.counts p.1 + 1 ∧
                  t.od.lastRecord = faultRecord { code := s.slotVerifies p.2 0 r.slotAOk, detail := p.2 } s.od.faultSeq))
              ∧ (s.slotVerifies p.2 0 r.slotAOk ≠ 0 → s.slotVerifies p.2 1 r.slotBOk ≠ 0 → tget 0 s.boot.altFails p.1 < 3 → Reaches (.bootStagePass r) s (fun t =>
                  t.boot.cause = 3 ∧ t.boot.stage = 1 ∧ t.boot.bootNum = (s.boot.bootNum + 1) % 2 ^ 32 ∧ tget 0 t.boot.counts p.1 = tget 0 s.boot.counts p.1 + 1)))
           ∧ (plain 3 → r.softMapOk = true → Reaches (.bootStagePass r) s (fun t => next 4 t ∧ t.flash.pendingSpares = [] ∧
               t.flash.softMap = (s.flash.softMap ++ s.flash.pendingSpares).take 4096))
           ∧ (plain 4 → s.boot.dieOut = none → r.trainedDie0 = true → r.trainedDie1 = true → Reaches (.bootStagePass r) s (fun t =>
               next 5 t ∧ t.mem.lostDie = none ∧ ∀ ch, ch < 64 → (t.chan ch).st = .active))
           ∧ (s.boot.stage = 4 → tget false s.boot.alt 4 = true → tget false s.boot.latched 5 = false → s.boot.dieOut = none → r.trainedDie0 = true → r.trainedDie1 = false →
               Reaches (.bootStagePass r) s (fun t => next 5 t ∧ t.mem.lostDie = some 1 ∧ ∀ ch, ch < 64 → (t.chan ch).st = (if ch < 32 then .active else .outOfUse)))
           ∧ (plain 6 → r.failingClusters = 0 → Reaches (.bootStagePass r) s (next 7))
           ∧ (s.boot.stage = 7 → tget false s.boot.alt 7 = false → tget false s.boot.latched 8 = true → s.boot.retry = false → s.slotVerifies 3 0 r.slotAOk = 0 → s.pci.mbxState ≠ 1 →
               Reaches (.bootStagePass r) s (fun t => t.boot.skipped8 = true ∧ t.boot.stage = 9 ∧ t.pci.ready = true ∧ t.pair.failOut = false))
           ∧ (s.boot.stage = 8 → s.flash.stored = none → s.flash.storedImages = [] → s.pwr.restore = [] → s.pwr.restoreSlots = [] → s.boot.cause ≠ 6 → s.pci.mbxState ≠ 1 →
               Reaches (.bootStagePass r) s (fun t => t.boot.stage = 9 ∧ t.boot.booting = false ∧ t.ready = true ∧ t.pci.saddleReady = true ∧ t.pair.failOut = false ∧
                 bit t.pci.events 0 = true ∧ (t.session ⟨.mailbox, 0⟩).isSome = true ∧ t.mem.bytes = s.mem.bytes ∧ t.slots = s.slots ∧ t.ctxs = s.ctxs))))
   ∧ (∀ (s : State) (kind slot : Nat), s.slotVerifies kind slot false = fltBootVerify
       ∧ (tget none s.flash.slots (kind * 2 + slot) = none → s.slotVerifies kind slot true = 0)
       ∧ (∀ c, tget none s.flash.slots (kind * 2 + slot) = some c → s.slotVerifies kind slot true =
           (if s.containerOk c kind = false then fltBootVerify else if c.svn < tget 0 s.fuses.svn kind then fltBootRollback else 0)))
   ∧ (∀ (f : Fuses) (w : Nat), f.part = 0 → w ≤ 136 → f.capacity w = (if 112 ≤ w then some (112, 10) else if 96 ≤ w then some (96, 8) else if 80 ≤ w then some (80, 6)
       else if 64 ≤ w then some (64, 4) else none))
end

