-- ==== Sys2Proof/Laws/Table.lean ====
section
/-! SUPPORT. The laws of sparse tables: reading after writing, and the canonical form kept by every table and
memory operation. -/
namespace Sys2Proof.Machine
open Sys2Proof

variable {α : Type}

/-! ### Reading after writing -/

@[simp] theorem tget_nil (d : α) (k : Nat) : tget d ([] : Tbl α) k = d := rfl

theorem tget_tdel_same (d : α) (t : Tbl α) (k : Nat) : tget d (tdel t k) k = d := by
  induction t with
  | nil => rfl
  | cons c t ih =>
    obtain ⟨k', v⟩ := c
    by_cases h : k = k' <;> simp [tdel, tget, h]
    · subst h; exact ih
    · exact ih

theorem tget_tdel_ne (d : α) (t : Tbl α) {j k : Nat} (h : j ≠ k) : tget d (tdel t k) j = tget d t j := by
  induction t with
  | nil => rfl
  | cons c t ih =>
    obtain ⟨k', v⟩ := c
    by_cases hk : k = k'
    · subst hk; simp [tdel, tget, h, ih]
    · by_cases hj : j = k' <;> simp [tdel, tget, hk, hj]
      exact ih

theorem tget_tput_same (d : α) (t : Tbl α) (k : Nat) (v : α) : tget d (tput t k v) k = v := by
  induction t with
  | nil => simp [tput, tget]
  | cons c t ih =>
    obtain ⟨k', w⟩ := c
    by_cases h1 : k < k'
    · simp [tput, tget, h1]
    · by_cases h2 : k = k'
      · simp [tput, tget, h2]
      · simp [tput, tget, h1, h2, ih]

theorem tget_tput_ne (d : α) (t : Tbl α) {j k : Nat} (v : α) (h : j ≠ k) :
    tget d (tput t k v) j = tget d t j := by
  induction t with
  | nil => simp [tput, tget, h]
  | cons c t ih =>
    obtain ⟨k', w⟩ := c
    by_cases h1 : k < k'
    · simp [tput, tget, h1, h]
    · by_cases h2 : k = k'
      · subst h2; simp [tput, tget, h]
      · by_cases h3 : j = k' <;> simp [tput, tget, h1, h2, h3]
        exact ih

/-- A written entry reads back. -/
@[simp] theorem tget_tset_same [DecidableEq α] (d : α) (t : Tbl α) (k : Nat) (v : α) :
    tget d (tset d t k v) k = v := by
  unfold tset
  split
  · rename_i h; rw [tget_tdel_same, h]
  · exact tget_tput_same d t k v

/-- A write leaves every other entry. -/
theorem tget_tset_ne [DecidableEq α] (d : α) (t : Tbl α) {j k : Nat} (v : α) (h : j ≠ k) :
    tget d (tset d t k v) j = tget d t j := by
  unfold tset
  split
  · exact tget_tdel_ne d t h
  · exact tget_tput_ne d t v h

@[simp] theorem tget_tmod_same [DecidableEq α] (d : α) (t : Tbl α) (k : Nat) (f : α → α) :
    tget d (tmod d t k f) k = f (tget d t k) := tget_tset_same d t k _

theorem tget_tmod_ne [DecidableEq α] (d : α) (t : Tbl α) {j k : Nat} (f : α → α) (h : j ≠ k) :
    tget d (tmod d t k f) j = tget d t j := tget_tset_ne d t _ h

theorem tget_tset [DecidableEq α] (d : α) (t : Tbl α) (j k : Nat) (v : α) :
    tget d (tset d t k v) j = if j = k then v else tget d t j := by
  by_cases h : j = k
  · subst h; simp
  · simp [h, tget_tset_ne d t v h]

/-! ### The canonical form -/

/-- The first key of a table is above `k`, or the table is empty. -/
def Tbl.above (k : Nat) : Tbl α → Prop
  | [] => True
  | (k', _) :: _ => k < k'

theorem Tbl.wf_cons [DecidableEq α] (d : α) (k : Nat) (v : α) (t : Tbl α) :
    Tbl.wf d ((k, v) :: t) = true ↔ v ≠ d ∧ Tbl.above k t ∧ Tbl.wf d t = true := by
  cases t with
  | nil => simp [Tbl.wf, Tbl.above]
  | cons c t => obtain ⟨k', w⟩ := c; simp [Tbl.wf, Tbl.above, and_assoc]

theorem Tbl.above_trans {j k : Nat} (h : j < k) {t : Tbl α} (ht : Tbl.above k t) : Tbl.above j t := by
  cases t with
  | nil => trivial
  | cons c t => exact Nat.lt_trans h ht

theorem Tbl.above_tdel [DecidableEq α] (d : α) {t : Tbl α} (j k : Nat) (hw : Tbl.wf d t = true) (h : Tbl.above j t) :
    Tbl.above j (tdel t k) := by
  induction t with
  | nil => trivial
  | cons c t ih =>
    obtain ⟨k', v⟩ := c
    rw [Tbl.wf_cons] at hw
    have hj : j < k' := h
    have ht : Tbl.above j t := Tbl.above_trans hj hw.2.1
    by_cases hk : k = k'
    · simp only [tdel, hk, if_true]; rw [← hk]; exact ih hw.2.2 ht
    · simp only [tdel, hk, if_false]; exact hj

theorem Tbl.wf_tdel [DecidableEq α] (d : α) (t : Tbl α) (k : Nat) (h : Tbl.wf d t = true) :
    Tbl.wf d (tdel t k) = true := by
  induction t with
  | nil => rfl
  | cons c t ih =>
    obtain ⟨k', v⟩ := c
    rw [Tbl.wf_cons] at h
    by_cases hk : k = k'
    · simp only [tdel, hk, if_true]; rw [← hk]; exact ih h.2.2
    · simp only [tdel, hk, if_false]
      rw [Tbl.wf_cons]
      exact ⟨h.1, Tbl.above_tdel d _ _ h.2.2 h.2.1, ih h.2.2⟩

theorem Tbl.above_tput {t : Tbl α} {j k : Nat} (v : α) (hk : j < k) (h : Tbl.above j t) :
    Tbl.above j (tput t k v) := by
  cases t with
  | nil => exact hk
  | cons c t =>
    obtain ⟨k', w⟩ := c
    have h' : j < k' := h
    simp only [tput]
    split
    · exact hk
    · split
      · exact hk
      · exact h'

theorem Tbl.wf_tput [DecidableEq α] (d : α) (t : Tbl α) (k : Nat) (v : α) (hv : v ≠ d) (h : Tbl.wf d t = true) :
    Tbl.wf d (tput t k v) = true := by
  induction t with
  | nil => simp [tput, Tbl.wf, hv]
  | cons c t ih =>
    obtain ⟨k', w⟩ := c
    have h0 := h
    rw [Tbl.wf_cons] at h
    simp only [tput]
    split
    · rename_i hlt; rw [Tbl.wf_cons]; exact ⟨hv, hlt, h0⟩
    · rename_i hlt
      split
      · rename_i he; rw [Tbl.wf_cons]; exact ⟨hv, he ▸ h.2.1, h.2.2⟩
      · rename_i he
        rw [Tbl.wf_cons]
        exact ⟨h.1, Tbl.above_tput v (by omega) h.2.1, ih h.2.2⟩

/-- Writing one entry keeps the canonical form. -/
theorem Tbl.wf_tset [DecidableEq α] (d : α) (t : Tbl α) (k : Nat) (v : α) (h : Tbl.wf d t = true) :
    Tbl.wf d (tset d t k v) = true := by
  unfold tset
  split
  · exact Tbl.wf_tdel d t k h
  · rename_i hv; exact Tbl.wf_tput d t k v hv h

theorem Tbl.wf_tmod [DecidableEq α] (d : α) (t : Tbl α) (k : Nat) (f : α → α) (h : Tbl.wf d t = true) :
    Tbl.wf d (tmod d t k f) = true := Tbl.wf_tset d t k _ h

theorem Tbl.above_filter [DecidableEq α] (d : α) (p : Nat × α → Bool) {t : Tbl α} {j : Nat} (hw : Tbl.wf d t = true)
    (h : Tbl.above j t) : Tbl.above j (t.filter p) := by
  induction t with
  | nil => trivial
  | cons c t ih =>
    obtain ⟨k, v⟩ := c
    rw [Tbl.wf_cons] at hw
    have hj : j < k := h
    by_cases hp : p (k, v) = true
    · rw [List.filter_cons_of_pos hp]; exact hj
    · rw [List.filter_cons_of_neg hp]; exact ih hw.2.2 (Tbl.above_trans hj hw.2.1)

/-- Leaving entries out keeps the canonical form. -/
theorem Tbl.wf_filter [DecidableEq α] (d : α) (p : Nat × α → Bool) (t : Tbl α) (h : Tbl.wf d t = true) :
    Tbl.wf d (t.filter p) = true := by
  induction t with
  | nil => rfl
  | cons c t ih =>
    obtain ⟨k, v⟩ := c
    rw [Tbl.wf_cons] at h
    by_cases hp : p (k, v) = true
    · rw [List.filter_cons_of_pos hp, Tbl.wf_cons]
      exact ⟨h.1, Tbl.above_filter d p h.2.2 h.2.1, ih h.2.2⟩
    · rw [List.filter_cons_of_neg hp]; exact ih h.2.2

/-! ### Memory (R364) -/

/-- Writing bytes keeps memory canonical. -/
theorem Memory.wf_wrList (m : Tbl Byte) (a : Nat) (bs : List Byte) (h : Memory.wf m = true) :
    Memory.wf (wrList m a bs) = true := by
  induction bs generalizing m a with
  | nil => exact h
  | cons b t ih => exact ih _ _ (Tbl.wf_tset _ _ _ _ h)

/-- Zeroing a range keeps memory canonical. -/
theorem Memory.wf_zeroRange (m : Tbl Byte) (a n : Nat) (h : Memory.wf m = true) :
    Memory.wf (zeroRange m a n) = true := Tbl.wf_filter _ _ _ h

/-- A byte outside the written range reads as before. -/
theorem tget_wrList_out (m : Tbl Byte) (a : Nat) (bs : List Byte) (x : Nat) (h : x < a ∨ a + bs.length ≤ x) :
    tget 0#8 (wrList m a bs) x = tget 0#8 m x := by
  induction bs generalizing m a with
  | nil => rfl
  | cons b t ih =>
    simp only [List.length_cons] at h
    simp only [wrList]
    rw [ih _ _ (by omega), tget_tset_ne _ _ _ (by omega)]

/-- A written byte reads back. -/
theorem tget_wrList_in (m : Tbl Byte) (a : Nat) (bs : List Byte) (i : Nat) (h : i < bs.length) :
    tget 0#8 (wrList m a bs) (a + i) = bs[i] := by
  induction bs generalizing m a i with
  | nil => simp at h
  | cons b t ih =>
    simp only [wrList]
    cases i with
    | zero => rw [tget_wrList_out _ _ _ _ (by omega)]; simp
    | succ i =>
      have := ih (tset 0#8 m a b) (a + 1) i (by simpa using h)
      rw [show a + (i + 1) = a + 1 + i by omega, this]; rfl

theorem State.wf_wrBytes (s : State) (a : Nat) (bs : List Byte) (h : Memory.wf s.mem.bytes = true) :
    Memory.wf (s.wrBytes a bs).mem.bytes = true := Memory.wf_wrList _ _ _ h

theorem State.wf_wrByte (s : State) (a : Nat) (b : Byte) (h : Memory.wf s.mem.bytes = true) :
    Memory.wf (s.wrByte a b).mem.bytes = true := Tbl.wf_tset _ _ _ _ h

theorem State.wf_zero (s : State) (a n : Nat) (h : Memory.wf s.mem.bytes = true) :
    Memory.wf (s.zero a n).mem.bytes = true := Memory.wf_zeroRange _ _ _ h

end Sys2Proof.Machine
end

