-- ==== Sys2Proof/Laws/State.lean ====
section
/-! SUPPORT. The laws of State: what each named update leaves as it was, field by field, and what it makes a numbered
unit read as. No proof needs to unfold a record update. -/
namespace Sys2Proof.Machine
open Sys2Proof

variable (s : State)

/-! ### A numbered unit after its update -/

@[simp] theorem State.modPort_port (n : Nat) (f : PortState → PortState) : (s.modPort n f).port n = f (s.port n) := by simp [State.modPort, State.port]
theorem State.modPort_port_ne {m n : Nat} (f : PortState → PortState) (h : m ≠ n) : (s.modPort n f).port m = s.port m := tget_tmod_ne _ _ _ h
@[simp] theorem State.modSlot_slot (n : Nat) (f : Slot → Slot) : (s.modSlot n f).slot n = f (s.slot n) := by simp [State.modSlot, State.slot]
theorem State.modSlot_slot_ne {m n : Nat} (f : Slot → Slot) (h : m ≠ n) : (s.modSlot n f).slot m = s.slot m := tget_tmod_ne _ _ _ h
@[simp] theorem State.modEngine_engine (n : Nat) (f : DecEngine → DecEngine) : (s.modEngine n f).engine n = f (s.engine n) := by simp [State.modEngine, State.engine]
theorem State.modEngine_engine_ne {m n : Nat} (f : DecEngine → DecEngine) (h : m ≠ n) : (s.modEngine n f).engine m = s.engine m := tget_tmod_ne _ _ _ h
@[simp] theorem State.modEnc_encEngine (n : Nat) (f : EncEngine → EncEngine) : (s.modEnc n f).encEngine n = f (s.encEngine n) := by simp [State.modEnc, State.encEngine]
theorem State.modEnc_encEngine_ne {m n : Nat} (f : EncEngine → EncEngine) (h : m ≠ n) : (s.modEnc n f).encEngine m = s.encEngine m := tget_tmod_ne _ _ _ h
@[simp] theorem State.modSkv_skvUnit (n : Nat) (f : SkvUnit → SkvUnit) : (s.modSkv n f).skvUnit n = f (s.skvUnit n) := by simp [State.modSkv, State.skvUnit]
theorem State.modSkv_skvUnit_ne {m n : Nat} (f : SkvUnit → SkvUnit) (h : m ≠ n) : (s.modSkv n f).skvUnit m = s.skvUnit m := tget_tmod_ne _ _ _ h
@[simp] theorem State.modCore_core (n : Nat) (f : Core → Core) : (s.modCore n f).core n = f (s.core n) := by simp [State.modCore, State.core]
theorem State.modCore_core_ne {m n : Nat} (f : Core → Core) (h : m ≠ n) : (s.modCore n f).core m = s.core m := tget_tmod_ne _ _ _ h
@[simp] theorem State.modCluster_cluster (n : Nat) (f : Cluster → Cluster) : (s.modCluster n f).cluster n = f (s.cluster n) := by simp [State.modCluster, State.cluster]
theorem State.modCluster_cluster_ne {m n : Nat} (f : Cluster → Cluster) (h : m ≠ n) : (s.modCluster n f).cluster m = s.cluster m := tget_tmod_ne _ _ _ h
@[simp] theorem State.modCtx_ctx (n : Nat) (f : Ctx → Ctx) : (s.modCtx n f).ctx n = f (s.ctx n) := by simp [State.modCtx, State.ctx]
theorem State.modCtx_ctx_ne {m n : Nat} (f : Ctx → Ctx) (h : m ≠ n) : (s.modCtx n f).ctx m = s.ctx m := tget_tmod_ne _ _ _ h
@[simp] theorem State.modRun_ctxRun (n : Nat) (f : CtxRun → CtxRun) : (s.modRun n f).ctxRun n = f (s.ctxRun n) := by simp [State.modRun, State.ctxRun]
theorem State.modRun_ctxRun_ne {m n : Nat} (f : CtxRun → CtxRun) (h : m ≠ n) : (s.modRun n f).ctxRun m = s.ctxRun m := tget_tmod_ne _ _ _ h
@[simp] theorem State.modWork_workCtr (n : Nat) (f : WorkCtr → WorkCtr) : (s.modWork n f).workCtr n = f (s.workCtr n) := by simp [State.modWork, State.workCtr]
theorem State.modWork_workCtr_ne {m n : Nat} (f : WorkCtr → WorkCtr) (h : m ≠ n) : (s.modWork n f).workCtr m = s.workCtr m := tget_tmod_ne _ _ _ h
@[simp] theorem State.modStc_stcUnit (n : Nat) (f : StcUnit → StcUnit) : (s.modStc n f).stcUnit n = f (s.stcUnit n) := by simp [State.modStc, State.stcUnit]
theorem State.modStc_stcUnit_ne {m n : Nat} (f : StcUnit → StcUnit) (h : m ≠ n) : (s.modStc n f).stcUnit m = s.stcUnit m := tget_tmod_ne _ _ _ h
@[simp] theorem State.modRule_rule (n : Nat) (f : Rule → Rule) : (s.modRule n f).rule n = f (s.rule n) := by simp [State.modRule, State.rule]
theorem State.modRule_rule_ne {m n : Nat} (f : Rule → Rule) (h : m ≠ n) : (s.modRule n f).rule m = s.rule m := tget_tmod_ne _ _ _ h
@[simp] theorem State.modRing_ring (n : Nat) (f : Ring → Ring) : (s.modRing n f).ring n = f (s.ring n) := by simp [State.modRing, State.ring]
theorem State.modRing_ring_ne {m n : Nat} (f : Ring → Ring) (h : m ≠ n) : (s.modRing n f).ring m = s.ring m := tget_tmod_ne _ _ _ h
@[simp] theorem State.modColl_coll (n : Nat) (f : Collector → Collector) : (s.modColl n f).coll n = f (s.coll n) := by simp [State.modColl, State.coll]
theorem State.modColl_coll_ne {m n : Nat} (f : Collector → Collector) (h : m ≠ n) : (s.modColl n f).coll m = s.coll m := tget_tmod_ne _ _ _ h
@[simp] theorem State.modLine_line (n : Nat) (f : EvtLine → EvtLine) : (s.modLine n f).line n = f (s.line n) := by simp [State.modLine, State.line]
theorem State.modLine_line_ne {m n : Nat} (f : EvtLine → EvtLine) (h : m ≠ n) : (s.modLine n f).line m = s.line m := tget_tmod_ne _ _ _ h
@[simp] theorem State.modOutLine_outLine (n : Nat) (f : EvtOutLine → EvtOutLine) : (s.modOutLine n f).outLine n = f (s.outLine n) := by simp [State.modOutLine, State.outLine]
theorem State.modOutLine_outLine_ne {m n : Nat} (f : EvtOutLine → EvtOutLine) (h : m ≠ n) : (s.modOutLine n f).outLine m = s.outLine m := tget_tmod_ne _ _ _ h
@[simp] theorem State.modChan_chan (n : Nat) (f : DramChan → DramChan) : (s.modChan n f).chan n = f (s.chan n) := by simp [State.modChan, State.chan]
theorem State.modChan_chan_ne {m n : Nat} (f : DramChan → DramChan) (h : m ≠ n) : (s.modChan n f).chan m = s.chan m := tget_tmod_ne _ _ _ h
@[simp] theorem State.modPage_page (n : Nat) (f : Page → Page) : (s.modPage n f).page n = f (s.page n) := by simp [State.modPage, State.page]
theorem State.modPage_page_ne {m n : Nat} (f : Page → Page) (h : m ≠ n) : (s.modPage n f).page m = s.page m := tget_tmod_ne _ _ _ h
@[simp] theorem State.modReserv_reserv (n : Nat) (f : Reserv → Reserv) : (s.modReserv n f).reserv n = f (s.reserv n) := by simp [State.modReserv, State.reserv]
theorem State.modReserv_reserv_ne {m n : Nat} (f : Reserv → Reserv) (h : m ≠ n) : (s.modReserv n f).reserv m = s.reserv m := tget_tmod_ne _ _ _ h
@[simp] theorem State.modFb_fb (n : Nat) (f : Fb → Fb) : (s.modFb n f).fb n = f (s.fb n) := by simp [State.modFb, State.fb]
theorem State.modFb_fb_ne {m n : Nat} (f : Fb → Fb) (h : m ≠ n) : (s.modFb n f).fb m = s.fb m := tget_tmod_ne _ _ _ h
@[simp] theorem State.modOdRoute_odRoute (n : Nat) (f : OdRouteSt → OdRouteSt) : (s.modOdRoute n f).odRoute n = f (s.odRoute n) := by simp [State.modOdRoute, State.odRoute]
theorem State.modOdRoute_odRoute_ne {m n : Nat} (f : OdRouteSt → OdRouteSt) (h : m ≠ n) : (s.modOdRoute n f).odRoute m = s.odRoute m := tget_tmod_ne _ _ _ h

/-! ### Fields that an update leaves as they were -/

@[simp] theorem State.emit_pending (o : Out) : (s.emit o).pending = s.pending := rfl
@[simp] theorem State.emit_latches (o : Out) : (s.emit o).latches = s.latches := rfl
@[simp] theorem State.emit_heldLow (o : Out) : (s.emit o).heldLow = s.heldLow := rfl
@[simp] theorem State.emit_sels (o : Out) : (s.emit o).sels = s.sels := rfl
@[simp] theorem State.emit_ports (o : Out) : (s.emit o).ports = s.ports := rfl
@[simp] theorem State.emit_push (o : Out) : (s.emit o).push = s.push := rfl
@[simp] theorem State.emit_fusions (o : Out) : (s.emit o).fusions = s.fusions := rfl
@[simp] theorem State.emit_evt (o : Out) : (s.emit o).evt = s.evt := rfl
@[simp] theorem State.emit_slots (o : Out) : (s.emit o).slots = s.slots := rfl
@[simp] theorem State.emit_engines (o : Out) : (s.emit o).engines = s.engines := rfl
@[simp] theorem State.emit_evid (o : Out) : (s.emit o).evid = s.evid := rfl
@[simp] theorem State.emit_skv (o : Out) : (s.emit o).skv = s.skv := rfl
@[simp] theorem State.emit_cores (o : Out) : (s.emit o).cores = s.cores := rfl
@[simp] theorem State.emit_clusters (o : Out) : (s.emit o).clusters = s.clusters := rfl
@[simp] theorem State.emit_flight (o : Out) : (s.emit o).flight = s.flight := rfl
@[simp] theorem State.emit_work (o : Out) : (s.emit o).work = s.work := rfl
@[simp] theorem State.emit_hostDropped (o : Out) : (s.emit o).hostDropped = s.hostDropped := rfl
@[simp] theorem State.emit_ctxs (o : Out) : (s.emit o).ctxs = s.ctxs := rfl
@[simp] theorem State.emit_ctxRuns (o : Out) : (s.emit o).ctxRuns = s.ctxRuns := rfl
@[simp] theorem State.emit_readyClock (o : Out) : (s.emit o).readyClock = s.readyClock := rfl
@[simp] theorem State.emit_stc (o : Out) : (s.emit o).stc = s.stc := rfl
@[simp] theorem State.emit_gallery (o : Out) : (s.emit o).gallery = s.gallery := rfl
@[simp] theorem State.emit_narr (o : Out) : (s.emit o).narr = s.narr := rfl
@[simp] theorem State.emit_rules (o : Out) : (s.emit o).rules = s.rules := rfl
@[simp] theorem State.emit_rings (o : Out) : (s.emit o).rings = s.rings := rfl
@[simp] theorem State.emit_colls (o : Out) : (s.emit o).colls = s.colls := rfl
@[simp] theorem State.emit_mem (o : Out) : (s.emit o).mem = s.mem := rfl
@[simp] theorem State.emit_tkp (o : Out) : (s.emit o).tkp = s.tkp := rfl
@[simp] theorem State.emit_rne (o : Out) : (s.emit o).rne = s.rne := rfl
@[simp] theorem State.emit_pwr (o : Out) : (s.emit o).pwr = s.pwr := rfl
@[simp] theorem State.emit_clk (o : Out) : (s.emit o).clk = s.clk := rfl
@[simp] theorem State.emit_pair (o : Out) : (s.emit o).pair = s.pair := rfl
@[simp] theorem State.emit_pairSh (o : Out) : (s.emit o).pairSh = s.pairSh := rfl
@[simp] theorem State.emit_pci (o : Out) : (s.emit o).pci = s.pci := rfl
@[simp] theorem State.emit_od (o : Out) : (s.emit o).od = s.od := rfl
@[simp] theorem State.emit_fuses (o : Out) : (s.emit o).fuses = s.fuses := rfl
@[simp] theorem State.emit_flash (o : Out) : (s.emit o).flash = s.flash := rfl
@[simp] theorem State.emit_boot (o : Out) : (s.emit o).boot = s.boot := rfl
@[simp] theorem State.emit_kpr (o : Out) : (s.emit o).kpr = s.kpr := rfl

@[simp] theorem State.modPort_pending (n : Nat) (f : PortState → PortState) : (s.modPort n f).pending = s.pending := rfl
@[simp] theorem State.modPort_out (n : Nat) (f : PortState → PortState) : (s.modPort n f).out = s.out := rfl
@[simp] theorem State.modPort_latches (n : Nat) (f : PortState → PortState) : (s.modPort n f).latches = s.latches := rfl
@[simp] theorem State.modPort_heldLow (n : Nat) (f : PortState → PortState) : (s.modPort n f).heldLow = s.heldLow := rfl
@[simp] theorem State.modPort_sels (n : Nat) (f : PortState → PortState) : (s.modPort n f).sels = s.sels := rfl
@[simp] theorem State.modPort_push (n : Nat) (f : PortState → PortState) : (s.modPort n f).push = s.push := rfl
@[simp] theorem State.modPort_fusions (n : Nat) (f : PortState → PortState) : (s.modPort n f).fusions = s.fusions := rfl
@[simp] theorem State.modPort_evt (n : Nat) (f : PortState → PortState) : (s.modPort n f).evt = s.evt := rfl
@[simp] theorem State.modPort_slots (n : Nat) (f : PortState → PortState) : (s.modPort n f).slots = s.slots := rfl
@[simp] theorem State.modPort_engines (n : Nat) (f : PortState → PortState) : (s.modPort n f).engines = s.engines := rfl
@[simp] theorem State.modPort_evid (n : Nat) (f : PortState → PortState) : (s.modPort n f).evid = s.evid := rfl
@[simp] theorem State.modPort_skv (n : Nat) (f : PortState → PortState) : (s.modPort n f).skv = s.skv := rfl
@[simp] theorem State.modPort_cores (n : Nat) (f : PortState → PortState) : (s.modPort n f).cores = s.cores := rfl
@[simp] theorem State.modPort_clusters (n : Nat) (f : PortState → PortState) : (s.modPort n f).clusters = s.clusters := rfl
@[simp] theorem State.modPort_flight (n : Nat) (f : PortState → PortState) : (s.modPort n f).flight = s.flight := rfl
@[simp] theorem State.modPort_work (n : Nat) (f : PortState → PortState) : (s.modPort n f).work = s.work := rfl
@[simp] theorem State.modPort_hostDropped (n : Nat) (f : PortState → PortState) : (s.modPort n f).hostDropped = s.hostDropped := rfl
@[simp] theorem State.modPort_ctxs (n : Nat) (f : PortState → PortState) : (s.modPort n f).ctxs = s.ctxs := rfl
@[simp] theorem State.modPort_ctxRuns (n : Nat) (f : PortState → PortState) : (s.modPort n f).ctxRuns = s.ctxRuns := rfl
@[simp] theorem State.modPort_readyClock (n : Nat) (f : PortState → PortState) : (s.modPort n f).readyClock = s.readyClock := rfl
@[simp] theorem State.modPort_stc (n : Nat) (f : PortState → PortState) : (s.modPort n f).stc = s.stc := rfl
@[simp] theorem State.modPort_gallery (n : Nat) (f : PortState → PortState) : (s.modPort n f).gallery = s.gallery := rfl
@[simp] theorem State.modPort_narr (n : Nat) (f : PortState → PortState) : (s.modPort n f).narr = s.narr := rfl
@[simp] theorem State.modPort_rules (n : Nat) (f : PortState → PortState) : (s.modPort n f).rules = s.rules := rfl
@[simp] theorem State.modPort_rings (n : Nat) (f : PortState → PortState) : (s.modPort n f).rings = s.rings := rfl
@[simp] theorem State.modPort_colls (n : Nat) (f : PortState → PortState) : (s.modPort n f).colls = s.colls := rfl
@[simp] theorem State.modPort_mem (n : Nat) (f : PortState → PortState) : (s.modPort n f).mem = s.mem := rfl
@[simp] theorem State.modPort_tkp (n : Nat) (f : PortState → PortState) : (s.modPort n f).tkp = s.tkp := rfl
@[simp] theorem State.modPort_rne (n : Nat) (f : PortState → PortState) : (s.modPort n f).rne = s.rne := rfl
@[simp] theorem State.modPort_pwr (n : Nat) (f : PortState → PortState) : (s.modPort n f).pwr = s.pwr := rfl
@[simp] theorem State.modPort_clk (n : Nat) (f : PortState → PortState) : (s.modPort n f).clk = s.clk := rfl
@[simp] theorem State.modPort_pair (n : Nat) (f : PortState → PortState) : (s.modPort n f).pair = s.pair := rfl
@[simp] theorem State.modPort_pairSh (n : Nat) (f : PortState → PortState) : (s.modPort n f).pairSh = s.pairSh := rfl
@[simp] theorem State.modPort_pci (n : Nat) (f : PortState → PortState) : (s.modPort n f).pci = s.pci := rfl
@[simp] theorem State.modPort_od (n : Nat) (f : PortState → PortState) : (s.modPort n f).od = s.od := rfl
@[simp] theorem State.modPort_fuses (n : Nat) (f : PortState → PortState) : (s.modPort n f).fuses = s.fuses := rfl
@[simp] theorem State.modPort_flash (n : Nat) (f : PortState → PortState) : (s.modPort n f).flash = s.flash := rfl
@[simp] theorem State.modPort_boot (n : Nat) (f : PortState → PortState) : (s.modPort n f).boot = s.boot := rfl
@[simp] theorem State.modPort_kpr (n : Nat) (f : PortState → PortState) : (s.modPort n f).kpr = s.kpr := rfl

@[simp] theorem State.modSlot_pending (n : Nat) (f : Slot → Slot) : (s.modSlot n f).pending = s.pending := rfl
@[simp] theorem State.modSlot_out (n : Nat) (f : Slot → Slot) : (s.modSlot n f).out = s.out := rfl
@[simp] theorem State.modSlot_latches (n : Nat) (f : Slot → Slot) : (s.modSlot n f).latches = s.latches := rfl
@[simp] theorem State.modSlot_heldLow (n : Nat) (f : Slot → Slot) : (s.modSlot n f).heldLow = s.heldLow := rfl
@[simp] theorem State.modSlot_sels (n : Nat) (f : Slot → Slot) : (s.modSlot n f).sels = s.sels := rfl
@[simp] theorem State.modSlot_ports (n : Nat) (f : Slot → Slot) : (s.modSlot n f).ports = s.ports := rfl
@[simp] theorem State.modSlot_push (n : Nat) (f : Slot → Slot) : (s.modSlot n f).push = s.push := rfl
@[simp] theorem State.modSlot_fusions (n : Nat) (f : Slot → Slot) : (s.modSlot n f).fusions = s.fusions := rfl
@[simp] theorem State.modSlot_evt (n : Nat) (f : Slot → Slot) : (s.modSlot n f).evt = s.evt := rfl
@[simp] theorem State.modSlot_engines (n : Nat) (f : Slot → Slot) : (s.modSlot n f).engines = s.engines := rfl
@[simp] theorem State.modSlot_evid (n : Nat) (f : Slot → Slot) : (s.modSlot n f).evid = s.evid := rfl
@[simp] theorem State.modSlot_skv (n : Nat) (f : Slot → Slot) : (s.modSlot n f).skv = s.skv := rfl
@[simp] theorem State.modSlot_cores (n : Nat) (f : Slot → Slot) : (s.modSlot n f).cores = s.cores := rfl
@[simp] theorem State.modSlot_clusters (n : Nat) (f : Slot → Slot) : (s.modSlot n f).clusters = s.clusters := rfl
@[simp] theorem State.modSlot_flight (n : Nat) (f : Slot → Slot) : (s.modSlot n f).flight = s.flight := rfl
@[simp] theorem State.modSlot_work (n : Nat) (f : Slot → Slot) : (s.modSlot n f).work = s.work := rfl
@[simp] theorem State.modSlot_hostDropped (n : Nat) (f : Slot → Slot) : (s.modSlot n f).hostDropped = s.hostDropped := rfl
@[simp] theorem State.modSlot_ctxs (n : Nat) (f : Slot → Slot) : (s.modSlot n f).ctxs = s.ctxs := rfl
@[simp] theorem State.modSlot_ctxRuns (n : Nat) (f : Slot → Slot) : (s.modSlot n f).ctxRuns = s.ctxRuns := rfl
@[simp] theorem State.modSlot_readyClock (n : Nat) (f : Slot → Slot) : (s.modSlot n f).readyClock = s.readyClock := rfl
@[simp] theorem State.modSlot_stc (n : Nat) (f : Slot → Slot) : (s.modSlot n f).stc = s.stc := rfl
@[simp] theorem State.modSlot_gallery (n : Nat) (f : Slot → Slot) : (s.modSlot n f).gallery = s.gallery := rfl
@[simp] theorem State.modSlot_narr (n : Nat) (f : Slot → Slot) : (s.modSlot n f).narr = s.narr := rfl
@[simp] theorem State.modSlot_rules (n : Nat) (f : Slot → Slot) : (s.modSlot n f).rules = s.rules := rfl
@[simp] theorem State.modSlot_rings (n : Nat) (f : Slot → Slot) : (s.modSlot n f).rings = s.rings := rfl
@[simp] theorem State.modSlot_colls (n : Nat) (f : Slot → Slot) : (s.modSlot n f).colls = s.colls := rfl
@[simp] theorem State.modSlot_mem (n : Nat) (f : Slot → Slot) : (s.modSlot n f).mem = s.mem := rfl
@[simp] theorem State.modSlot_tkp (n : Nat) (f : Slot → Slot) : (s.modSlot n f).tkp = s.tkp := rfl
@[simp] theorem State.modSlot_rne (n : Nat) (f : Slot → Slot) : (s.modSlot n f).rne = s.rne := rfl
@[simp] theorem State.modSlot_pwr (n : Nat) (f : Slot → Slot) : (s.modSlot n f).pwr = s.pwr := rfl
@[simp] theorem State.modSlot_clk (n : Nat) (f : Slot → Slot) : (s.modSlot n f).clk = s.clk := rfl
@[simp] theorem State.modSlot_pair (n : Nat) (f : Slot → Slot) : (s.modSlot n f).pair = s.pair := rfl
@[simp] theorem State.modSlot_pairSh (n : Nat) (f : Slot → Slot) : (s.modSlot n f).pairSh = s.pairSh := rfl
@[simp] theorem State.modSlot_pci (n : Nat) (f : Slot → Slot) : (s.modSlot n f).pci = s.pci := rfl
@[simp] theorem State.modSlot_od (n : Nat) (f : Slot → Slot) : (s.modSlot n f).od = s.od := rfl
@[simp] theorem State.modSlot_fuses (n : Nat) (f : Slot → Slot) : (s.modSlot n f).fuses = s.fuses := rfl
@[simp] theorem State.modSlot_flash (n : Nat) (f : Slot → Slot) : (s.modSlot n f).flash = s.flash := rfl
@[simp] theorem State.modSlot_boot (n : Nat) (f : Slot → Slot) : (s.modSlot n f).boot = s.boot := rfl
@[simp] theorem State.modSlot_kpr (n : Nat) (f : Slot → Slot) : (s.modSlot n f).kpr = s.kpr := rfl

@[simp] theorem State.modIng_pending (n : Nat) (f : SlotIngest → SlotIngest) : (s.modIng n f).pending = s.pending := rfl
@[simp] theorem State.modIng_out (n : Nat) (f : SlotIngest → SlotIngest) : (s.modIng n f).out = s.out := rfl
@[simp] theorem State.modIng_latches (n : Nat) (f : SlotIngest → SlotIngest) : (s.modIng n f).latches = s.latches := rfl
@[simp] theorem State.modIng_heldLow (n : Nat) (f : SlotIngest → SlotIngest) : (s.modIng n f).heldLow = s.heldLow := rfl
@[simp] theorem State.modIng_sels (n : Nat) (f : SlotIngest → SlotIngest) : (s.modIng n f).sels = s.sels := rfl
@[simp] theorem State.modIng_ports (n : Nat) (f : SlotIngest → SlotIngest) : (s.modIng n f).ports = s.ports := rfl
@[simp] theorem State.modIng_push (n : Nat) (f : SlotIngest → SlotIngest) : (s.modIng n f).push = s.push := rfl
@[simp] theorem State.modIng_fusions (n : Nat) (f : SlotIngest → SlotIngest) : (s.modIng n f).fusions = s.fusions := rfl
@[simp] theorem State.modIng_evt (n : Nat) (f : SlotIngest → SlotIngest) : (s.modIng n f).evt = s.evt := rfl
@[simp] theorem State.modIng_engines (n : Nat) (f : SlotIngest → SlotIngest) : (s.modIng n f).engines = s.engines := rfl
@[simp] theorem State.modIng_evid (n : Nat) (f : SlotIngest → SlotIngest) : (s.modIng n f).evid = s.evid := rfl
@[simp] theorem State.modIng_skv (n : Nat) (f : SlotIngest → SlotIngest) : (s.modIng n f).skv = s.skv := rfl
@[simp] theorem State.modIng_cores (n : Nat) (f : SlotIngest → SlotIngest) : (s.modIng n f).cores = s.cores := rfl
@[simp] theorem State.modIng_clusters (n : Nat) (f : SlotIngest → SlotIngest) : (s.modIng n f).clusters = s.clusters := rfl
@[simp] theorem State.modIng_flight (n : Nat) (f : SlotIngest → SlotIngest) : (s.modIng n f).flight = s.flight := rfl
@[simp] theorem State.modIng_work (n : Nat) (f : SlotIngest → SlotIngest) : (s.modIng n f).work = s.work := rfl
@[simp] theorem State.modIng_hostDropped (n : Nat) (f : SlotIngest → SlotIngest) : (s.modIng n f).hostDropped = s.hostDropped := rfl
@[simp] theorem State.modIng_ctxs (n : Nat) (f : SlotIngest → SlotIngest) : (s.modIng n f).ctxs = s.ctxs := rfl
@[simp] theorem State.modIng_ctxRuns (n : Nat) (f : SlotIngest → SlotIngest) : (s.modIng n f).ctxRuns = s.ctxRuns := rfl
@[simp] theorem State.modIng_readyClock (n : Nat) (f : SlotIngest → SlotIngest) : (s.modIng n f).readyClock = s.readyClock := rfl
@[simp] theorem State.modIng_stc (n : Nat) (f : SlotIngest → SlotIngest) : (s.modIng n f).stc = s.stc := rfl
@[simp] theorem State.modIng_gallery (n : Nat) (f : SlotIngest → SlotIngest) : (s.modIng n f).gallery = s.gallery := rfl
@[simp] theorem State.modIng_narr (n : Nat) (f : SlotIngest → SlotIngest) : (s.modIng n f).narr = s.narr := rfl
@[simp] theorem State.modIng_rules (n : Nat) (f : SlotIngest → SlotIngest) : (s.modIng n f).rules = s.rules := rfl
@[simp] theorem State.modIng_rings (n : Nat) (f : SlotIngest → SlotIngest) : (s.modIng n f).rings = s.rings := rfl
@[simp] theorem State.modIng_colls (n : Nat) (f : SlotIngest → SlotIngest) : (s.modIng n f).colls = s.colls := rfl
@[simp] theorem State.modIng_mem (n : Nat) (f : SlotIngest → SlotIngest) : (s.modIng n f).mem = s.mem := rfl
@[simp] theorem State.modIng_tkp (n : Nat) (f : SlotIngest → SlotIngest) : (s.modIng n f).tkp = s.tkp := rfl
@[simp] theorem State.modIng_rne (n : Nat) (f : SlotIngest → SlotIngest) : (s.modIng n f).rne = s.rne := rfl
@[simp] theorem State.modIng_pwr (n : Nat) (f : SlotIngest → SlotIngest) : (s.modIng n f).pwr = s.pwr := rfl
@[simp] theorem State.modIng_clk (n : Nat) (f : SlotIngest → SlotIngest) : (s.modIng n f).clk = s.clk := rfl
@[simp] theorem State.modIng_pair (n : Nat) (f : SlotIngest → SlotIngest) : (s.modIng n f).pair = s.pair := rfl
@[simp] theorem State.modIng_pairSh (n : Nat) (f : SlotIngest → SlotIngest) : (s.modIng n f).pairSh = s.pairSh := rfl
@[simp] theorem State.modIng_pci (n : Nat) (f : SlotIngest → SlotIngest) : (s.modIng n f).pci = s.pci := rfl
@[simp] theorem State.modIng_od (n : Nat) (f : SlotIngest → SlotIngest) : (s.modIng n f).od = s.od := rfl
@[simp] theorem State.modIng_fuses (n : Nat) (f : SlotIngest → SlotIngest) : (s.modIng n f).fuses = s.fuses := rfl
@[simp] theorem State.modIng_flash (n : Nat) (f : SlotIngest → SlotIngest) : (s.modIng n f).flash = s.flash := rfl
@[simp] theorem State.modIng_boot (n : Nat) (f : SlotIngest → SlotIngest) : (s.modIng n f).boot = s.boot := rfl
@[simp] theorem State.modIng_kpr (n : Nat) (f : SlotIngest → SlotIngest) : (s.modIng n f).kpr = s.kpr := rfl

@[simp] theorem State.modDec_pending (n : Nat) (f : SlotDecode → SlotDecode) : (s.modDec n f).pending = s.pending := rfl
@[simp] theorem State.modDec_out (n : Nat) (f : SlotDecode → SlotDecode) : (s.modDec n f).out = s.out := rfl
@[simp] theorem State.modDec_latches (n : Nat) (f : SlotDecode → SlotDecode) : (s.modDec n f).latches = s.latches := rfl
@[simp] theorem State.modDec_heldLow (n : Nat) (f : SlotDecode → SlotDecode) : (s.modDec n f).heldLow = s.heldLow := rfl
@[simp] theorem State.modDec_sels (n : Nat) (f : SlotDecode → SlotDecode) : (s.modDec n f).sels = s.sels := rfl
@[simp] theorem State.modDec_ports (n : Nat) (f : SlotDecode → SlotDecode) : (s.modDec n f).ports = s.ports := rfl
@[simp] theorem State.modDec_push (n : Nat) (f : SlotDecode → SlotDecode) : (s.modDec n f).push = s.push := rfl
@[simp] theorem State.modDec_fusions (n : Nat) (f : SlotDecode → SlotDecode) : (s.modDec n f).fusions = s.fusions := rfl
@[simp] theorem State.modDec_evt (n : Nat) (f : SlotDecode → SlotDecode) : (s.modDec n f).evt = s.evt := rfl
@[simp] theorem State.modDec_engines (n : Nat) (f : SlotDecode → SlotDecode) : (s.modDec n f).engines = s.engines := rfl
@[simp] theorem State.modDec_evid (n : Nat) (f : SlotDecode → SlotDecode) : (s.modDec n f).evid = s.evid := rfl
@[simp] theorem State.modDec_skv (n : Nat) (f : SlotDecode → SlotDecode) : (s.modDec n f).skv = s.skv := rfl
@[simp] theorem State.modDec_cores (n : Nat) (f : SlotDecode → SlotDecode) : (s.modDec n f).cores = s.cores := rfl
@[simp] theorem State.modDec_clusters (n : Nat) (f : SlotDecode → SlotDecode) : (s.modDec n f).clusters = s.clusters := rfl
@[simp] theorem State.modDec_flight (n : Nat) (f : SlotDecode → SlotDecode) : (s.modDec n f).flight = s.flight := rfl
@[simp] theorem State.modDec_work (n : Nat) (f : SlotDecode → SlotDecode) : (s.modDec n f).work = s.work := rfl
@[simp] theorem State.modDec_hostDropped (n : Nat) (f : SlotDecode → SlotDecode) : (s.modDec n f).hostDropped = s.hostDropped := rfl
@[simp] theorem State.modDec_ctxs (n : Nat) (f : SlotDecode → SlotDecode) : (s.modDec n f).ctxs = s.ctxs := rfl
@[simp] theorem State.modDec_ctxRuns (n : Nat) (f : SlotDecode → SlotDecode) : (s.modDec n f).ctxRuns = s.ctxRuns := rfl
@[simp] theorem State.modDec_readyClock (n : Nat) (f : SlotDecode → SlotDecode) : (s.modDec n f).readyClock = s.readyClock := rfl
@[simp] theorem State.modDec_stc (n : Nat) (f : SlotDecode → SlotDecode) : (s.modDec n f).stc = s.stc := rfl
@[simp] theorem State.modDec_gallery (n : Nat) (f : SlotDecode → SlotDecode) : (s.modDec n f).gallery = s.gallery := rfl
@[simp] theorem State.modDec_narr (n : Nat) (f : SlotDecode → SlotDecode) : (s.modDec n f).narr = s.narr := rfl
@[simp] theorem State.modDec_rules (n : Nat) (f : SlotDecode → SlotDecode) : (s.modDec n f).rules = s.rules := rfl
@[simp] theorem State.modDec_rings (n : Nat) (f : SlotDecode → SlotDecode) : (s.modDec n f).rings = s.rings := rfl
@[simp] theorem State.modDec_colls (n : Nat) (f : SlotDecode → SlotDecode) : (s.modDec n f).colls = s.colls := rfl
@[simp] theorem State.modDec_mem (n : Nat) (f : SlotDecode → SlotDecode) : (s.modDec n f).mem = s.mem := rfl
@[simp] theorem State.modDec_tkp (n : Nat) (f : SlotDecode → SlotDecode) : (s.modDec n f).tkp = s.tkp := rfl
@[simp] theorem State.modDec_rne (n : Nat) (f : SlotDecode → SlotDecode) : (s.modDec n f).rne = s.rne := rfl
@[simp] theorem State.modDec_pwr (n : Nat) (f : SlotDecode → SlotDecode) : (s.modDec n f).pwr = s.pwr := rfl
@[simp] theorem State.modDec_clk (n : Nat) (f : SlotDecode → SlotDecode) : (s.modDec n f).clk = s.clk := rfl
@[simp] theorem State.modDec_pair (n : Nat) (f : SlotDecode → SlotDecode) : (s.modDec n f).pair = s.pair := rfl
@[simp] theorem State.modDec_pairSh (n : Nat) (f : SlotDecode → SlotDecode) : (s.modDec n f).pairSh = s.pairSh := rfl
@[simp] theorem State.modDec_pci (n : Nat) (f : SlotDecode → SlotDecode) : (s.modDec n f).pci = s.pci := rfl
@[simp] theorem State.modDec_od (n : Nat) (f : SlotDecode → SlotDecode) : (s.modDec n f).od = s.od := rfl
@[simp] theorem State.modDec_fuses (n : Nat) (f : SlotDecode → SlotDecode) : (s.modDec n f).fuses = s.fuses := rfl
@[simp] theorem State.modDec_flash (n : Nat) (f : SlotDecode → SlotDecode) : (s.modDec n f).flash = s.flash := rfl
@[simp] theorem State.modDec_boot (n : Nat) (f : SlotDecode → SlotDecode) : (s.modDec n f).boot = s.boot := rfl
@[simp] theorem State.modDec_kpr (n : Nat) (f : SlotDecode → SlotDecode) : (s.modDec n f).kpr = s.kpr := rfl

@[simp] theorem State.modTrk_pending (n : Nat) (f : SlotTrack → SlotTrack) : (s.modTrk n f).pending = s.pending := rfl
@[simp] theorem State.modTrk_out (n : Nat) (f : SlotTrack → SlotTrack) : (s.modTrk n f).out = s.out := rfl
@[simp] theorem State.modTrk_latches (n : Nat) (f : SlotTrack → SlotTrack) : (s.modTrk n f).latches = s.latches := rfl
@[simp] theorem State.modTrk_heldLow (n : Nat) (f : SlotTrack → SlotTrack) : (s.modTrk n f).heldLow = s.heldLow := rfl
@[simp] theorem State.modTrk_sels (n : Nat) (f : SlotTrack → SlotTrack) : (s.modTrk n f).sels = s.sels := rfl
@[simp] theorem State.modTrk_ports (n : Nat) (f : SlotTrack → SlotTrack) : (s.modTrk n f).ports = s.ports := rfl
@[simp] theorem State.modTrk_push (n : Nat) (f : SlotTrack → SlotTrack) : (s.modTrk n f).push = s.push := rfl
@[simp] theorem State.modTrk_fusions (n : Nat) (f : SlotTrack → SlotTrack) : (s.modTrk n f).fusions = s.fusions := rfl
@[simp] theorem State.modTrk_evt (n : Nat) (f : SlotTrack → SlotTrack) : (s.modTrk n f).evt = s.evt := rfl
@[simp] theorem State.modTrk_engines (n : Nat) (f : SlotTrack → SlotTrack) : (s.modTrk n f).engines = s.engines := rfl
@[simp] theorem State.modTrk_evid (n : Nat) (f : SlotTrack → SlotTrack) : (s.modTrk n f).evid = s.evid := rfl
@[simp] theorem State.modTrk_skv (n : Nat) (f : SlotTrack → SlotTrack) : (s.modTrk n f).skv = s.skv := rfl
@[simp] theorem State.modTrk_cores (n : Nat) (f : SlotTrack → SlotTrack) : (s.modTrk n f).cores = s.cores := rfl
@[simp] theorem State.modTrk_clusters (n : Nat) (f : SlotTrack → SlotTrack) : (s.modTrk n f).clusters = s.clusters := rfl
@[simp] theorem State.modTrk_flight (n : Nat) (f : SlotTrack → SlotTrack) : (s.modTrk n f).flight = s.flight := rfl
@[simp] theorem State.modTrk_work (n : Nat) (f : SlotTrack → SlotTrack) : (s.modTrk n f).work = s.work := rfl
@[simp] theorem State.modTrk_hostDropped (n : Nat) (f : SlotTrack → SlotTrack) : (s.modTrk n f).hostDropped = s.hostDropped := rfl
@[simp] theorem State.modTrk_ctxs (n : Nat) (f : SlotTrack → SlotTrack) : (s.modTrk n f).ctxs = s.ctxs := rfl
@[simp] theorem State.modTrk_ctxRuns (n : Nat) (f : SlotTrack → SlotTrack) : (s.modTrk n f).ctxRuns = s.ctxRuns := rfl
@[simp] theorem State.modTrk_readyClock (n : Nat) (f : SlotTrack → SlotTrack) : (s.modTrk n f).readyClock = s.readyClock := rfl
@[simp] theorem State.modTrk_stc (n : Nat) (f : SlotTrack → SlotTrack) : (s.modTrk n f).stc = s.stc := rfl
@[simp] theorem State.modTrk_gallery (n : Nat) (f : SlotTrack → SlotTrack) : (s.modTrk n f).gallery = s.gallery := rfl
@[simp] theorem State.modTrk_narr (n : Nat) (f : SlotTrack → SlotTrack) : (s.modTrk n f).narr = s.narr := rfl
@[simp] theorem State.modTrk_rules (n : Nat) (f : SlotTrack → SlotTrack) : (s.modTrk n f).rules = s.rules := rfl
@[simp] theorem State.modTrk_rings (n : Nat) (f : SlotTrack → SlotTrack) : (s.modTrk n f).rings = s.rings := rfl
@[simp] theorem State.modTrk_colls (n : Nat) (f : SlotTrack → SlotTrack) : (s.modTrk n f).colls = s.colls := rfl
@[simp] theorem State.modTrk_mem (n : Nat) (f : SlotTrack → SlotTrack) : (s.modTrk n f).mem = s.mem := rfl
@[simp] theorem State.modTrk_tkp (n : Nat) (f : SlotTrack → SlotTrack) : (s.modTrk n f).tkp = s.tkp := rfl
@[simp] theorem State.modTrk_rne (n : Nat) (f : SlotTrack → SlotTrack) : (s.modTrk n f).rne = s.rne := rfl
@[simp] theorem State.modTrk_pwr (n : Nat) (f : SlotTrack → SlotTrack) : (s.modTrk n f).pwr = s.pwr := rfl
@[simp] theorem State.modTrk_clk (n : Nat) (f : SlotTrack → SlotTrack) : (s.modTrk n f).clk = s.clk := rfl
@[simp] theorem State.modTrk_pair (n : Nat) (f : SlotTrack → SlotTrack) : (s.modTrk n f).pair = s.pair := rfl
@[simp] theorem State.modTrk_pairSh (n : Nat) (f : SlotTrack → SlotTrack) : (s.modTrk n f).pairSh = s.pairSh := rfl
@[simp] theorem State.modTrk_pci (n : Nat) (f : SlotTrack → SlotTrack) : (s.modTrk n f).pci = s.pci := rfl
@[simp] theorem State.modTrk_od (n : Nat) (f : SlotTrack → SlotTrack) : (s.modTrk n f).od = s.od := rfl
@[simp] theorem State.modTrk_fuses (n : Nat) (f : SlotTrack → SlotTrack) : (s.modTrk n f).fuses = s.fuses := rfl
@[simp] theorem State.modTrk_flash (n : Nat) (f : SlotTrack → SlotTrack) : (s.modTrk n f).flash = s.flash := rfl
@[simp] theorem State.modTrk_boot (n : Nat) (f : SlotTrack → SlotTrack) : (s.modTrk n f).boot = s.boot := rfl
@[simp] theorem State.modTrk_kpr (n : Nat) (f : SlotTrack → SlotTrack) : (s.modTrk n f).kpr = s.kpr := rfl

@[simp] theorem State.modChain_pending (n : Nat) (f : SlotChain → SlotChain) : (s.modChain n f).pending = s.pending := rfl
@[simp] theorem State.modChain_out (n : Nat) (f : SlotChain → SlotChain) : (s.modChain n f).out = s.out := rfl
@[simp] theorem State.modChain_latches (n : Nat) (f : SlotChain → SlotChain) : (s.modChain n f).latches = s.latches := rfl
@[simp] theorem State.modChain_heldLow (n : Nat) (f : SlotChain → SlotChain) : (s.modChain n f).heldLow = s.heldLow := rfl
@[simp] theorem State.modChain_sels (n : Nat) (f : SlotChain → SlotChain) : (s.modChain n f).sels = s.sels := rfl
@[simp] theorem State.modChain_ports (n : Nat) (f : SlotChain → SlotChain) : (s.modChain n f).ports = s.ports := rfl
@[simp] theorem State.modChain_push (n : Nat) (f : SlotChain → SlotChain) : (s.modChain n f).push = s.push := rfl
@[simp] theorem State.modChain_fusions (n : Nat) (f : SlotChain → SlotChain) : (s.modChain n f).fusions = s.fusions := rfl
@[simp] theorem State.modChain_evt (n : Nat) (f : SlotChain → SlotChain) : (s.modChain n f).evt = s.evt := rfl
@[simp] theorem State.modChain_engines (n : Nat) (f : SlotChain → SlotChain) : (s.modChain n f).engines = s.engines := rfl
@[simp] theorem State.modChain_evid (n : Nat) (f : SlotChain → SlotChain) : (s.modChain n f).evid = s.evid := rfl
@[simp] theorem State.modChain_skv (n : Nat) (f : SlotChain → SlotChain) : (s.modChain n f).skv = s.skv := rfl
@[simp] theorem State.modChain_cores (n : Nat) (f : SlotChain → SlotChain) : (s.modChain n f).cores = s.cores := rfl
@[simp] theorem State.modChain_clusters (n : Nat) (f : SlotChain → SlotChain) : (s.modChain n f).clusters = s.clusters := rfl
@[simp] theorem State.modChain_flight (n : Nat) (f : SlotChain → SlotChain) : (s.modChain n f).flight = s.flight := rfl
@[simp] theorem State.modChain_work (n : Nat) (f : SlotChain → SlotChain) : (s.modChain n f).work = s.work := rfl
@[simp] theorem State.modChain_hostDropped (n : Nat) (f : SlotChain → SlotChain) : (s.modChain n f).hostDropped = s.hostDropped := rfl
@[simp] theorem State.modChain_ctxs (n : Nat) (f : SlotChain → SlotChain) : (s.modChain n f).ctxs = s.ctxs := rfl
@[simp] theorem State.modChain_ctxRuns (n : Nat) (f : SlotChain → SlotChain) : (s.modChain n f).ctxRuns = s.ctxRuns := rfl
@[simp] theorem State.modChain_readyClock (n : Nat) (f : SlotChain → SlotChain) : (s.modChain n f).readyClock = s.readyClock := rfl
@[simp] theorem State.modChain_stc (n : Nat) (f : SlotChain → SlotChain) : (s.modChain n f).stc = s.stc := rfl
@[simp] theorem State.modChain_gallery (n : Nat) (f : SlotChain → SlotChain) : (s.modChain n f).gallery = s.gallery := rfl
@[simp] theorem State.modChain_narr (n : Nat) (f : SlotChain → SlotChain) : (s.modChain n f).narr = s.narr := rfl
@[simp] theorem State.modChain_rules (n : Nat) (f : SlotChain → SlotChain) : (s.modChain n f).rules = s.rules := rfl
@[simp] theorem State.modChain_rings (n : Nat) (f : SlotChain → SlotChain) : (s.modChain n f).rings = s.rings := rfl
@[simp] theorem State.modChain_colls (n : Nat) (f : SlotChain → SlotChain) : (s.modChain n f).colls = s.colls := rfl
@[simp] theorem State.modChain_mem (n : Nat) (f : SlotChain → SlotChain) : (s.modChain n f).mem = s.mem := rfl
@[simp] theorem State.modChain_tkp (n : Nat) (f : SlotChain → SlotChain) : (s.modChain n f).tkp = s.tkp := rfl
@[simp] theorem State.modChain_rne (n : Nat) (f : SlotChain → SlotChain) : (s.modChain n f).rne = s.rne := rfl
@[simp] theorem State.modChain_pwr (n : Nat) (f : SlotChain → SlotChain) : (s.modChain n f).pwr = s.pwr := rfl
@[simp] theorem State.modChain_clk (n : Nat) (f : SlotChain → SlotChain) : (s.modChain n f).clk = s.clk := rfl
@[simp] theorem State.modChain_pair (n : Nat) (f : SlotChain → SlotChain) : (s.modChain n f).pair = s.pair := rfl
@[simp] theorem State.modChain_pairSh (n : Nat) (f : SlotChain → SlotChain) : (s.modChain n f).pairSh = s.pairSh := rfl
@[simp] theorem State.modChain_pci (n : Nat) (f : SlotChain → SlotChain) : (s.modChain n f).pci = s.pci := rfl
@[simp] theorem State.modChain_od (n : Nat) (f : SlotChain → SlotChain) : (s.modChain n f).od = s.od := rfl
@[simp] theorem State.modChain_fuses (n : Nat) (f : SlotChain → SlotChain) : (s.modChain n f).fuses = s.fuses := rfl
@[simp] theorem State.modChain_flash (n : Nat) (f : SlotChain → SlotChain) : (s.modChain n f).flash = s.flash := rfl
@[simp] theorem State.modChain_boot (n : Nat) (f : SlotChain → SlotChain) : (s.modChain n f).boot = s.boot := rfl
@[simp] theorem State.modChain_kpr (n : Nat) (f : SlotChain → SlotChain) : (s.modChain n f).kpr = s.kpr := rfl

@[simp] theorem State.count_pending (n sub k : Nat) : (s.count n sub k).pending = s.pending := rfl
@[simp] theorem State.count_out (n sub k : Nat) : (s.count n sub k).out = s.out := rfl
@[simp] theorem State.count_latches (n sub k : Nat) : (s.count n sub k).latches = s.latches := rfl
@[simp] theorem State.count_heldLow (n sub k : Nat) : (s.count n sub k).heldLow = s.heldLow := rfl
@[simp] theorem State.count_sels (n sub k : Nat) : (s.count n sub k).sels = s.sels := rfl
@[simp] theorem State.count_ports (n sub k : Nat) : (s.count n sub k).ports = s.ports := rfl
@[simp] theorem State.count_push (n sub k : Nat) : (s.count n sub k).push = s.push := rfl
@[simp] theorem State.count_fusions (n sub k : Nat) : (s.count n sub k).fusions = s.fusions := rfl
@[simp] theorem State.count_evt (n sub k : Nat) : (s.count n sub k).evt = s.evt := rfl
@[simp] theorem State.count_engines (n sub k : Nat) : (s.count n sub k).engines = s.engines := rfl
@[simp] theorem State.count_evid (n sub k : Nat) : (s.count n sub k).evid = s.evid := rfl
@[simp] theorem State.count_skv (n sub k : Nat) : (s.count n sub k).skv = s.skv := rfl
@[simp] theorem State.count_cores (n sub k : Nat) : (s.count n sub k).cores = s.cores := rfl
@[simp] theorem State.count_clusters (n sub k : Nat) : (s.count n sub k).clusters = s.clusters := rfl
@[simp] theorem State.count_flight (n sub k : Nat) : (s.count n sub k).flight = s.flight := rfl
@[simp] theorem State.count_work (n sub k : Nat) : (s.count n sub k).work = s.work := rfl
@[simp] theorem State.count_hostDropped (n sub k : Nat) : (s.count n sub k).hostDropped = s.hostDropped := rfl
@[simp] theorem State.count_ctxs (n sub k : Nat) : (s.count n sub k).ctxs = s.ctxs := rfl
@[simp] theorem State.count_ctxRuns (n sub k : Nat) : (s.count n sub k).ctxRuns = s.ctxRuns := rfl
@[simp] theorem State.count_readyClock (n sub k : Nat) : (s.count n sub k).readyClock = s.readyClock := rfl
@[simp] theorem State.count_stc (n sub k : Nat) : (s.count n sub k).stc = s.stc := rfl
@[simp] theorem State.count_gallery (n sub k : Nat) : (s.count n sub k).gallery = s.gallery := rfl
@[simp] theorem State.count_narr (n sub k : Nat) : (s.count n sub k).narr = s.narr := rfl
@[simp] theorem State.count_rules (n sub k : Nat) : (s.count n sub k).rules = s.rules := rfl
@[simp] theorem State.count_rings (n sub k : Nat) : (s.count n sub k).rings = s.rings := rfl
@[simp] theorem State.count_colls (n sub k : Nat) : (s.count n sub k).colls = s.colls := rfl
@[simp] theorem State.count_mem (n sub k : Nat) : (s.count n sub k).mem = s.mem := rfl
@[simp] theorem State.count_tkp (n sub k : Nat) : (s.count n sub k).tkp = s.tkp := rfl
@[simp] theorem State.count_rne (n sub k : Nat) : (s.count n sub k).rne = s.rne := rfl
@[simp] theorem State.count_pwr (n sub k : Nat) : (s.count n sub k).pwr = s.pwr := rfl
@[simp] theorem State.count_clk (n sub k : Nat) : (s.count n sub k).clk = s.clk := rfl
@[simp] theorem State.count_pair (n sub k : Nat) : (s.count n sub k).pair = s.pair := rfl
@[simp] theorem State.count_pairSh (n sub k : Nat) : (s.count n sub k).pairSh = s.pairSh := rfl
@[simp] theorem State.count_pci (n sub k : Nat) : (s.count n sub k).pci = s.pci := rfl
@[simp] theorem State.count_od (n sub k : Nat) : (s.count n sub k).od = s.od := rfl
@[simp] theorem State.count_fuses (n sub k : Nat) : (s.count n sub k).fuses = s.fuses := rfl
@[simp] theorem State.count_flash (n sub k : Nat) : (s.count n sub k).flash = s.flash := rfl
@[simp] theorem State.count_boot (n sub k : Nat) : (s.count n sub k).boot = s.boot := rfl
@[simp] theorem State.count_kpr (n sub k : Nat) : (s.count n sub k).kpr = s.kpr := rfl

@[simp] theorem State.modEngine_pending (n : Nat) (f : DecEngine → DecEngine) : (s.modEngine n f).pending = s.pending := rfl
@[simp] theorem State.modEngine_out (n : Nat) (f : DecEngine → DecEngine) : (s.modEngine n f).out = s.out := rfl
@[simp] theorem State.modEngine_latches (n : Nat) (f : DecEngine → DecEngine) : (s.modEngine n f).latches = s.latches := rfl
@[simp] theorem State.modEngine_heldLow (n : Nat) (f : DecEngine → DecEngine) : (s.modEngine n f).heldLow = s.heldLow := rfl
@[simp] theorem State.modEngine_sels (n : Nat) (f : DecEngine → DecEngine) : (s.modEngine n f).sels = s.sels := rfl
@[simp] theorem State.modEngine_ports (n : Nat) (f : DecEngine → DecEngine) : (s.modEngine n f).ports = s.ports := rfl
@[simp] theorem State.modEngine_push (n : Nat) (f : DecEngine → DecEngine) : (s.modEngine n f).push = s.push := rfl
@[simp] theorem State.modEngine_fusions (n : Nat) (f : DecEngine → DecEngine) : (s.modEngine n f).fusions = s.fusions := rfl
@[simp] theorem State.modEngine_evt (n : Nat) (f : DecEngine → DecEngine) : (s.modEngine n f).evt = s.evt := rfl
@[simp] theorem State.modEngine_slots (n : Nat) (f : DecEngine → DecEngine) : (s.modEngine n f).slots = s.slots := rfl
@[simp] theorem State.modEngine_evid (n : Nat) (f : DecEngine → DecEngine) : (s.modEngine n f).evid = s.evid := rfl
@[simp] theorem State.modEngine_skv (n : Nat) (f : DecEngine → DecEngine) : (s.modEngine n f).skv = s.skv := rfl
@[simp] theorem State.modEngine_cores (n : Nat) (f : DecEngine → DecEngine) : (s.modEngine n f).cores = s.cores := rfl
@[simp] theorem State.modEngine_clusters (n : Nat) (f : DecEngine → DecEngine) : (s.modEngine n f).clusters = s.clusters := rfl
@[simp] theorem State.modEngine_flight (n : Nat) (f : DecEngine → DecEngine) : (s.modEngine n f).flight = s.flight := rfl
@[simp] theorem State.modEngine_work (n : Nat) (f : DecEngine → DecEngine) : (s.modEngine n f).work = s.work := rfl
@[simp] theorem State.modEngine_hostDropped (n : Nat) (f : DecEngine → DecEngine) : (s.modEngine n f).hostDropped = s.hostDropped := rfl
@[simp] theorem State.modEngine_ctxs (n : Nat) (f : DecEngine → DecEngine) : (s.modEngine n f).ctxs = s.ctxs := rfl
@[simp] theorem State.modEngine_ctxRuns (n : Nat) (f : DecEngine → DecEngine) : (s.modEngine n f).ctxRuns = s.ctxRuns := rfl
@[simp] theorem State.modEngine_readyClock (n : Nat) (f : DecEngine → DecEngine) : (s.modEngine n f).readyClock = s.readyClock := rfl
@[simp] theorem State.modEngine_stc (n : Nat) (f : DecEngine → DecEngine) : (s.modEngine n f).stc = s.stc := rfl
@[simp] theorem State.modEngine_gallery (n : Nat) (f : DecEngine → DecEngine) : (s.modEngine n f).gallery = s.gallery := rfl
@[simp] theorem State.modEngine_narr (n : Nat) (f : DecEngine → DecEngine) : (s.modEngine n f).narr = s.narr := rfl
@[simp] theorem State.modEngine_rules (n : Nat) (f : DecEngine → DecEngine) : (s.modEngine n f).rules = s.rules := rfl
@[simp] theorem State.modEngine_rings (n : Nat) (f : DecEngine → DecEngine) : (s.modEngine n f).rings = s.rings := rfl
@[simp] theorem State.modEngine_colls (n : Nat) (f : DecEngine → DecEngine) : (s.modEngine n f).colls = s.colls := rfl
@[simp] theorem State.modEngine_mem (n : Nat) (f : DecEngine → DecEngine) : (s.modEngine n f).mem = s.mem := rfl
@[simp] theorem State.modEngine_tkp (n : Nat) (f : DecEngine → DecEngine) : (s.modEngine n f).tkp = s.tkp := rfl
@[simp] theorem State.modEngine_rne (n : Nat) (f : DecEngine → DecEngine) : (s.modEngine n f).rne = s.rne := rfl
@[simp] theorem State.modEngine_pwr (n : Nat) (f : DecEngine → DecEngine) : (s.modEngine n f).pwr = s.pwr := rfl
@[simp] theorem State.modEngine_clk (n : Nat) (f : DecEngine → DecEngine) : (s.modEngine n f).clk = s.clk := rfl
@[simp] theorem State.modEngine_pair (n : Nat) (f : DecEngine → DecEngine) : (s.modEngine n f).pair = s.pair := rfl
@[simp] theorem State.modEngine_pairSh (n : Nat) (f : DecEngine → DecEngine) : (s.modEngine n f).pairSh = s.pairSh := rfl
@[simp] theorem State.modEngine_pci (n : Nat) (f : DecEngine → DecEngine) : (s.modEngine n f).pci = s.pci := rfl
@[simp] theorem State.modEngine_od (n : Nat) (f : DecEngine → DecEngine) : (s.modEngine n f).od = s.od := rfl
@[simp] theorem State.modEngine_fuses (n : Nat) (f : DecEngine → DecEngine) : (s.modEngine n f).fuses = s.fuses := rfl
@[simp] theorem State.modEngine_flash (n : Nat) (f : DecEngine → DecEngine) : (s.modEngine n f).flash = s.flash := rfl
@[simp] theorem State.modEngine_boot (n : Nat) (f : DecEngine → DecEngine) : (s.modEngine n f).boot = s.boot := rfl
@[simp] theorem State.modEngine_kpr (n : Nat) (f : DecEngine → DecEngine) : (s.modEngine n f).kpr = s.kpr := rfl

@[simp] theorem State.modEnc_pending (n : Nat) (f : EncEngine → EncEngine) : (s.modEnc n f).pending = s.pending := rfl
@[simp] theorem State.modEnc_out (n : Nat) (f : EncEngine → EncEngine) : (s.modEnc n f).out = s.out := rfl
@[simp] theorem State.modEnc_latches (n : Nat) (f : EncEngine → EncEngine) : (s.modEnc n f).latches = s.latches := rfl
@[simp] theorem State.modEnc_heldLow (n : Nat) (f : EncEngine → EncEngine) : (s.modEnc n f).heldLow = s.heldLow := rfl
@[simp] theorem State.modEnc_sels (n : Nat) (f : EncEngine → EncEngine) : (s.modEnc n f).sels = s.sels := rfl
@[simp] theorem State.modEnc_ports (n : Nat) (f : EncEngine → EncEngine) : (s.modEnc n f).ports = s.ports := rfl
@[simp] theorem State.modEnc_push (n : Nat) (f : EncEngine → EncEngine) : (s.modEnc n f).push = s.push := rfl
@[simp] theorem State.modEnc_fusions (n : Nat) (f : EncEngine → EncEngine) : (s.modEnc n f).fusions = s.fusions := rfl
@[simp] theorem State.modEnc_evt (n : Nat) (f : EncEngine → EncEngine) : (s.modEnc n f).evt = s.evt := rfl
@[simp] theorem State.modEnc_slots (n : Nat) (f : EncEngine → EncEngine) : (s.modEnc n f).slots = s.slots := rfl
@[simp] theorem State.modEnc_engines (n : Nat) (f : EncEngine → EncEngine) : (s.modEnc n f).engines = s.engines := rfl
@[simp] theorem State.modEnc_skv (n : Nat) (f : EncEngine → EncEngine) : (s.modEnc n f).skv = s.skv := rfl
@[simp] theorem State.modEnc_cores (n : Nat) (f : EncEngine → EncEngine) : (s.modEnc n f).cores = s.cores := rfl
@[simp] theorem State.modEnc_clusters (n : Nat) (f : EncEngine → EncEngine) : (s.modEnc n f).clusters = s.clusters := rfl
@[simp] theorem State.modEnc_flight (n : Nat) (f : EncEngine → EncEngine) : (s.modEnc n f).flight = s.flight := rfl
@[simp] theorem State.modEnc_work (n : Nat) (f : EncEngine → EncEngine) : (s.modEnc n f).work = s.work := rfl
@[simp] theorem State.modEnc_hostDropped (n : Nat) (f : EncEngine → EncEngine) : (s.modEnc n f).hostDropped = s.hostDropped := rfl
@[simp] theorem State.modEnc_ctxs (n : Nat) (f : EncEngine → EncEngine) : (s.modEnc n f).ctxs = s.ctxs := rfl
@[simp] theorem State.modEnc_ctxRuns (n : Nat) (f : EncEngine → EncEngine) : (s.modEnc n f).ctxRuns = s.ctxRuns := rfl
@[simp] theorem State.modEnc_readyClock (n : Nat) (f : EncEngine → EncEngine) : (s.modEnc n f).readyClock = s.readyClock := rfl
@[simp] theorem State.modEnc_stc (n : Nat) (f : EncEngine → EncEngine) : (s.modEnc n f).stc = s.stc := rfl
@[simp] theorem State.modEnc_gallery (n : Nat) (f : EncEngine → EncEngine) : (s.modEnc n f).gallery = s.gallery := rfl
@[simp] theorem State.modEnc_narr (n : Nat) (f : EncEngine → EncEngine) : (s.modEnc n f).narr = s.narr := rfl
@[simp] theorem State.modEnc_rules (n : Nat) (f : EncEngine → EncEngine) : (s.modEnc n f).rules = s.rules := rfl
@[simp] theorem State.modEnc_rings (n : Nat) (f : EncEngine → EncEngine) : (s.modEnc n f).rings = s.rings := rfl
@[simp] theorem State.modEnc_colls (n : Nat) (f : EncEngine → EncEngine) : (s.modEnc n f).colls = s.colls := rfl
@[simp] theorem State.modEnc_mem (n : Nat) (f : EncEngine → EncEngine) : (s.modEnc n f).mem = s.mem := rfl
@[simp] theorem State.modEnc_tkp (n : Nat) (f : EncEngine → EncEngine) : (s.modEnc n f).tkp = s.tkp := rfl
@[simp] theorem State.modEnc_rne (n : Nat) (f : EncEngine → EncEngine) : (s.modEnc n f).rne = s.rne := rfl
@[simp] theorem State.modEnc_pwr (n : Nat) (f : EncEngine → EncEngine) : (s.modEnc n f).pwr = s.pwr := rfl
@[simp] theorem State.modEnc_clk (n : Nat) (f : EncEngine → EncEngine) : (s.modEnc n f).clk = s.clk := rfl
@[simp] theorem State.modEnc_pair (n : Nat) (f : EncEngine → EncEngine) : (s.modEnc n f).pair = s.pair := rfl
@[simp] theorem State.modEnc_pairSh (n : Nat) (f : EncEngine → EncEngine) : (s.modEnc n f).pairSh = s.pairSh := rfl
@[simp] theorem State.modEnc_pci (n : Nat) (f : EncEngine → EncEngine) : (s.modEnc n f).pci = s.pci := rfl
@[simp] theorem State.modEnc_od (n : Nat) (f : EncEngine → EncEngine) : (s.modEnc n f).od = s.od := rfl
@[simp] theorem State.modEnc_fuses (n : Nat) (f : EncEngine → EncEngine) : (s.modEnc n f).fuses = s.fuses := rfl
@[simp] theorem State.modEnc_flash (n : Nat) (f : EncEngine → EncEngine) : (s.modEnc n f).flash = s.flash := rfl
@[simp] theorem State.modEnc_boot (n : Nat) (f : EncEngine → EncEngine) : (s.modEnc n f).boot = s.boot := rfl
@[simp] theorem State.modEnc_kpr (n : Nat) (f : EncEngine → EncEngine) : (s.modEnc n f).kpr = s.kpr := rfl

@[simp] theorem State.modSkv_pending (n : Nat) (f : SkvUnit → SkvUnit) : (s.modSkv n f).pending = s.pending := rfl
@[simp] theorem State.modSkv_out (n : Nat) (f : SkvUnit → SkvUnit) : (s.modSkv n f).out = s.out := rfl
@[simp] theorem State.modSkv_latches (n : Nat) (f : SkvUnit → SkvUnit) : (s.modSkv n f).latches = s.latches := rfl
@[simp] theorem State.modSkv_heldLow (n : Nat) (f : SkvUnit → SkvUnit) : (s.modSkv n f).heldLow = s.heldLow := rfl
@[simp] theorem State.modSkv_sels (n : Nat) (f : SkvUnit → SkvUnit) : (s.modSkv n f).sels = s.sels := rfl
@[simp] theorem State.modSkv_ports (n : Nat) (f : SkvUnit → SkvUnit) : (s.modSkv n f).ports = s.ports := rfl
@[simp] theorem State.modSkv_push (n : Nat) (f : SkvUnit → SkvUnit) : (s.modSkv n f).push = s.push := rfl
@[simp] theorem State.modSkv_fusions (n : Nat) (f : SkvUnit → SkvUnit) : (s.modSkv n f).fusions = s.fusions := rfl
@[simp] theorem State.modSkv_evt (n : Nat) (f : SkvUnit → SkvUnit) : (s.modSkv n f).evt = s.evt := rfl
@[simp] theorem State.modSkv_slots (n : Nat) (f : SkvUnit → SkvUnit) : (s.modSkv n f).slots = s.slots := rfl
@[simp] theorem State.modSkv_engines (n : Nat) (f : SkvUnit → SkvUnit) : (s.modSkv n f).engines = s.engines := rfl
@[simp] theorem State.modSkv_evid (n : Nat) (f : SkvUnit → SkvUnit) : (s.modSkv n f).evid = s.evid := rfl
@[simp] theorem State.modSkv_cores (n : Nat) (f : SkvUnit → SkvUnit) : (s.modSkv n f).cores = s.cores := rfl
@[simp] theorem State.modSkv_clusters (n : Nat) (f : SkvUnit → SkvUnit) : (s.modSkv n f).clusters = s.clusters := rfl
@[simp] theorem State.modSkv_flight (n : Nat) (f : SkvUnit → SkvUnit) : (s.modSkv n f).flight = s.flight := rfl
@[simp] theorem State.modSkv_work (n : Nat) (f : SkvUnit → SkvUnit) : (s.modSkv n f).work = s.work := rfl
@[simp] theorem State.modSkv_hostDropped (n : Nat) (f : SkvUnit → SkvUnit) : (s.modSkv n f).hostDropped = s.hostDropped := rfl
@[simp] theorem State.modSkv_ctxs (n : Nat) (f : SkvUnit → SkvUnit) : (s.modSkv n f).ctxs = s.ctxs := rfl
@[simp] theorem State.modSkv_ctxRuns (n : Nat) (f : SkvUnit → SkvUnit) : (s.modSkv n f).ctxRuns = s.ctxRuns := rfl
@[simp] theorem State.modSkv_readyClock (n : Nat) (f : SkvUnit → SkvUnit) : (s.modSkv n f).readyClock = s.readyClock := rfl
@[simp] theorem State.modSkv_stc (n : Nat) (f : SkvUnit → SkvUnit) : (s.modSkv n f).stc = s.stc := rfl
@[simp] theorem State.modSkv_gallery (n : Nat) (f : SkvUnit → SkvUnit) : (s.modSkv n f).gallery = s.gallery := rfl
@[simp] theorem State.modSkv_narr (n : Nat) (f : SkvUnit → SkvUnit) : (s.modSkv n f).narr = s.narr := rfl
@[simp] theorem State.modSkv_rules (n : Nat) (f : SkvUnit → SkvUnit) : (s.modSkv n f).rules = s.rules := rfl
@[simp] theorem State.modSkv_rings (n : Nat) (f : SkvUnit → SkvUnit) : (s.modSkv n f).rings = s.rings := rfl
@[simp] theorem State.modSkv_colls (n : Nat) (f : SkvUnit → SkvUnit) : (s.modSkv n f).colls = s.colls := rfl
@[simp] theorem State.modSkv_mem (n : Nat) (f : SkvUnit → SkvUnit) : (s.modSkv n f).mem = s.mem := rfl
@[simp] theorem State.modSkv_tkp (n : Nat) (f : SkvUnit → SkvUnit) : (s.modSkv n f).tkp = s.tkp := rfl
@[simp] theorem State.modSkv_rne (n : Nat) (f : SkvUnit → SkvUnit) : (s.modSkv n f).rne = s.rne := rfl
@[simp] theorem State.modSkv_pwr (n : Nat) (f : SkvUnit → SkvUnit) : (s.modSkv n f).pwr = s.pwr := rfl
@[simp] theorem State.modSkv_clk (n : Nat) (f : SkvUnit → SkvUnit) : (s.modSkv n f).clk = s.clk := rfl
@[simp] theorem State.modSkv_pair (n : Nat) (f : SkvUnit → SkvUnit) : (s.modSkv n f).pair = s.pair := rfl
@[simp] theorem State.modSkv_pairSh (n : Nat) (f : SkvUnit → SkvUnit) : (s.modSkv n f).pairSh = s.pairSh := rfl
@[simp] theorem State.modSkv_pci (n : Nat) (f : SkvUnit → SkvUnit) : (s.modSkv n f).pci = s.pci := rfl
@[simp] theorem State.modSkv_od (n : Nat) (f : SkvUnit → SkvUnit) : (s.modSkv n f).od = s.od := rfl
@[simp] theorem State.modSkv_fuses (n : Nat) (f : SkvUnit → SkvUnit) : (s.modSkv n f).fuses = s.fuses := rfl
@[simp] theorem State.modSkv_flash (n : Nat) (f : SkvUnit → SkvUnit) : (s.modSkv n f).flash = s.flash := rfl
@[simp] theorem State.modSkv_boot (n : Nat) (f : SkvUnit → SkvUnit) : (s.modSkv n f).boot = s.boot := rfl
@[simp] theorem State.modSkv_kpr (n : Nat) (f : SkvUnit → SkvUnit) : (s.modSkv n f).kpr = s.kpr := rfl

@[simp] theorem State.modCore_pending (n : Nat) (f : Core → Core) : (s.modCore n f).pending = s.pending := rfl
@[simp] theorem State.modCore_out (n : Nat) (f : Core → Core) : (s.modCore n f).out = s.out := rfl
@[simp] theorem State.modCore_latches (n : Nat) (f : Core → Core) : (s.modCore n f).latches = s.latches := rfl
@[simp] theorem State.modCore_heldLow (n : Nat) (f : Core → Core) : (s.modCore n f).heldLow = s.heldLow := rfl
@[simp] theorem State.modCore_sels (n : Nat) (f : Core → Core) : (s.modCore n f).sels = s.sels := rfl
@[simp] theorem State.modCore_ports (n : Nat) (f : Core → Core) : (s.modCore n f).ports = s.ports := rfl
@[simp] theorem State.modCore_push (n : Nat) (f : Core → Core) : (s.modCore n f).push = s.push := rfl
@[simp] theorem State.modCore_fusions (n : Nat) (f : Core → Core) : (s.modCore n f).fusions = s.fusions := rfl
@[simp] theorem State.modCore_evt (n : Nat) (f : Core → Core) : (s.modCore n f).evt = s.evt := rfl
@[simp] theorem State.modCore_slots (n : Nat) (f : Core → Core) : (s.modCore n f).slots = s.slots := rfl
@[simp] theorem State.modCore_engines (n : Nat) (f : Core → Core) : (s.modCore n f).engines = s.engines := rfl
@[simp] theorem State.modCore_evid (n : Nat) (f : Core → Core) : (s.modCore n f).evid = s.evid := rfl
@[simp] theorem State.modCore_skv (n : Nat) (f : Core → Core) : (s.modCore n f).skv = s.skv := rfl
@[simp] theorem State.modCore_clusters (n : Nat) (f : Core → Core) : (s.modCore n f).clusters = s.clusters := rfl
@[simp] theorem State.modCore_flight (n : Nat) (f : Core → Core) : (s.modCore n f).flight = s.flight := rfl
@[simp] theorem State.modCore_work (n : Nat) (f : Core → Core) : (s.modCore n f).work = s.work := rfl
@[simp] theorem State.modCore_hostDropped (n : Nat) (f : Core → Core) : (s.modCore n f).hostDropped = s.hostDropped := rfl
@[simp] theorem State.modCore_ctxs (n : Nat) (f : Core → Core) : (s.modCore n f).ctxs = s.ctxs := rfl
@[simp] theorem State.modCore_ctxRuns (n : Nat) (f : Core → Core) : (s.modCore n f).ctxRuns = s.ctxRuns := rfl
@[simp] theorem State.modCore_readyClock (n : Nat) (f : Core → Core) : (s.modCore n f).readyClock = s.readyClock := rfl
@[simp] theorem State.modCore_stc (n : Nat) (f : Core → Core) : (s.modCore n f).stc = s.stc := rfl
@[simp] theorem State.modCore_gallery (n : Nat) (f : Core → Core) : (s.modCore n f).gallery = s.gallery := rfl
@[simp] theorem State.modCore_narr (n : Nat) (f : Core → Core) : (s.modCore n f).narr = s.narr := rfl
@[simp] theorem State.modCore_rules (n : Nat) (f : Core → Core) : (s.modCore n f).rules = s.rules := rfl
@[simp] theorem State.modCore_rings (n : Nat) (f : Core → Core) : (s.modCore n f).rings = s.rings := rfl
@[simp] theorem State.modCore_colls (n : Nat) (f : Core → Core) : (s.modCore n f).colls = s.colls := rfl
@[simp] theorem State.modCore_mem (n : Nat) (f : Core → Core) : (s.modCore n f).mem = s.mem := rfl
@[simp] theorem State.modCore_tkp (n : Nat) (f : Core → Core) : (s.modCore n f).tkp = s.tkp := rfl
@[simp] theorem State.modCore_rne (n : Nat) (f : Core → Core) : (s.modCore n f).rne = s.rne := rfl
@[simp] theorem State.modCore_pwr (n : Nat) (f : Core → Core) : (s.modCore n f).pwr = s.pwr := rfl
@[simp] theorem State.modCore_clk (n : Nat) (f : Core → Core) : (s.modCore n f).clk = s.clk := rfl
@[simp] theorem State.modCore_pair (n : Nat) (f : Core → Core) : (s.modCore n f).pair = s.pair := rfl
@[simp] theorem State.modCore_pairSh (n : Nat) (f : Core → Core) : (s.modCore n f).pairSh = s.pairSh := rfl
@[simp] theorem State.modCore_pci (n : Nat) (f : Core → Core) : (s.modCore n f).pci = s.pci := rfl
@[simp] theorem State.modCore_od (n : Nat) (f : Core → Core) : (s.modCore n f).od = s.od := rfl
@[simp] theorem State.modCore_fuses (n : Nat) (f : Core → Core) : (s.modCore n f).fuses = s.fuses := rfl
@[simp] theorem State.modCore_flash (n : Nat) (f : Core → Core) : (s.modCore n f).flash = s.flash := rfl
@[simp] theorem State.modCore_boot (n : Nat) (f : Core → Core) : (s.modCore n f).boot = s.boot := rfl
@[simp] theorem State.modCore_kpr (n : Nat) (f : Core → Core) : (s.modCore n f).kpr = s.kpr := rfl

@[simp] theorem State.modCluster_pending (n : Nat) (f : Cluster → Cluster) : (s.modCluster n f).pending = s.pending := rfl
@[simp] theorem State.modCluster_out (n : Nat) (f : Cluster → Cluster) : (s.modCluster n f).out = s.out := rfl
@[simp] theorem State.modCluster_latches (n : Nat) (f : Cluster → Cluster) : (s.modCluster n f).latches = s.latches := rfl
@[simp] theorem State.modCluster_heldLow (n : Nat) (f : Cluster → Cluster) : (s.modCluster n f).heldLow = s.heldLow := rfl
@[simp] theorem State.modCluster_sels (n : Nat) (f : Cluster → Cluster) : (s.modCluster n f).sels = s.sels := rfl
@[simp] theorem State.modCluster_ports (n : Nat) (f : Cluster → Cluster) : (s.modCluster n f).ports = s.ports := rfl
@[simp] theorem State.modCluster_push (n : Nat) (f : Cluster → Cluster) : (s.modCluster n f).push = s.push := rfl
@[simp] theorem State.modCluster_fusions (n : Nat) (f : Cluster → Cluster) : (s.modCluster n f).fusions = s.fusions := rfl
@[simp] theorem State.modCluster_evt (n : Nat) (f : Cluster → Cluster) : (s.modCluster n f).evt = s.evt := rfl
@[simp] theorem State.modCluster_slots (n : Nat) (f : Cluster → Cluster) : (s.modCluster n f).slots = s.slots := rfl
@[simp] theorem State.modCluster_engines (n : Nat) (f : Cluster → Cluster) : (s.modCluster n f).engines = s.engines := rfl
@[simp] theorem State.modCluster_evid (n : Nat) (f : Cluster → Cluster) : (s.modCluster n f).evid = s.evid := rfl
@[simp] theorem State.modCluster_skv (n : Nat) (f : Cluster → Cluster) : (s.modCluster n f).skv = s.skv := rfl
@[simp] theorem State.modCluster_cores (n : Nat) (f : Cluster → Cluster) : (s.modCluster n f).cores = s.cores := rfl
@[simp] theorem State.modCluster_flight (n : Nat) (f : Cluster → Cluster) : (s.modCluster n f).flight = s.flight := rfl
@[simp] theorem State.modCluster_work (n : Nat) (f : Cluster → Cluster) : (s.modCluster n f).work = s.work := rfl
@[simp] theorem State.modCluster_hostDropped (n : Nat) (f : Cluster → Cluster) : (s.modCluster n f).hostDropped = s.hostDropped := rfl
@[simp] theorem State.modCluster_ctxs (n : Nat) (f : Cluster → Cluster) : (s.modCluster n f).ctxs = s.ctxs := rfl
@[simp] theorem State.modCluster_ctxRuns (n : Nat) (f : Cluster → Cluster) : (s.modCluster n f).ctxRuns = s.ctxRuns := rfl
@[simp] theorem State.modCluster_readyClock (n : Nat) (f : Cluster → Cluster) : (s.modCluster n f).readyClock = s.readyClock := rfl
@[simp] theorem State.modCluster_stc (n : Nat) (f : Cluster → Cluster) : (s.modCluster n f).stc = s.stc := rfl
@[simp] theorem State.modCluster_gallery (n : Nat) (f : Cluster → Cluster) : (s.modCluster n f).gallery = s.gallery := rfl
@[simp] theorem State.modCluster_narr (n : Nat) (f : Cluster → Cluster) : (s.modCluster n f).narr = s.narr := rfl
@[simp] theorem State.modCluster_rules (n : Nat) (f : Cluster → Cluster) : (s.modCluster n f).rules = s.rules := rfl
@[simp] theorem State.modCluster_rings (n : Nat) (f : Cluster → Cluster) : (s.modCluster n f).rings = s.rings := rfl
@[simp] theorem State.modCluster_colls (n : Nat) (f : Cluster → Cluster) : (s.modCluster n f).colls = s.colls := rfl
@[simp] theorem State.modCluster_mem (n : Nat) (f : Cluster → Cluster) : (s.modCluster n f).mem = s.mem := rfl
@[simp] theorem State.modCluster_tkp (n : Nat) (f : Cluster → Cluster) : (s.modCluster n f).tkp = s.tkp := rfl
@[simp] theorem State.modCluster_rne (n : Nat) (f : Cluster → Cluster) : (s.modCluster n f).rne = s.rne := rfl
@[simp] theorem State.modCluster_pwr (n : Nat) (f : Cluster → Cluster) : (s.modCluster n f).pwr = s.pwr := rfl
@[simp] theorem State.modCluster_clk (n : Nat) (f : Cluster → Cluster) : (s.modCluster n f).clk = s.clk := rfl
@[simp] theorem State.modCluster_pair (n : Nat) (f : Cluster → Cluster) : (s.modCluster n f).pair = s.pair := rfl
@[simp] theorem State.modCluster_pairSh (n : Nat) (f : Cluster → Cluster) : (s.modCluster n f).pairSh = s.pairSh := rfl
@[simp] theorem State.modCluster_pci (n : Nat) (f : Cluster → Cluster) : (s.modCluster n f).pci = s.pci := rfl
@[simp] theorem State.modCluster_od (n : Nat) (f : Cluster → Cluster) : (s.modCluster n f).od = s.od := rfl
@[simp] theorem State.modCluster_fuses (n : Nat) (f : Cluster → Cluster) : (s.modCluster n f).fuses = s.fuses := rfl
@[simp] theorem State.modCluster_flash (n : Nat) (f : Cluster → Cluster) : (s.modCluster n f).flash = s.flash := rfl
@[simp] theorem State.modCluster_boot (n : Nat) (f : Cluster → Cluster) : (s.modCluster n f).boot = s.boot := rfl
@[simp] theorem State.modCluster_kpr (n : Nat) (f : Cluster → Cluster) : (s.modCluster n f).kpr = s.kpr := rfl

@[simp] theorem State.modCtx_pending (n : Nat) (f : Ctx → Ctx) : (s.modCtx n f).pending = s.pending := rfl
@[simp] theorem State.modCtx_out (n : Nat) (f : Ctx → Ctx) : (s.modCtx n f).out = s.out := rfl
@[simp] theorem State.modCtx_latches (n : Nat) (f : Ctx → Ctx) : (s.modCtx n f).latches = s.latches := rfl
@[simp] theorem State.modCtx_heldLow (n : Nat) (f : Ctx → Ctx) : (s.modCtx n f).heldLow = s.heldLow := rfl
@[simp] theorem State.modCtx_sels (n : Nat) (f : Ctx → Ctx) : (s.modCtx n f).sels = s.sels := rfl
@[simp] theorem State.modCtx_ports (n : Nat) (f : Ctx → Ctx) : (s.modCtx n f).ports = s.ports := rfl
@[simp] theorem State.modCtx_push (n : Nat) (f : Ctx → Ctx) : (s.modCtx n f).push = s.push := rfl
@[simp] theorem State.modCtx_fusions (n : Nat) (f : Ctx → Ctx) : (s.modCtx n f).fusions = s.fusions := rfl
@[simp] theorem State.modCtx_evt (n : Nat) (f : Ctx → Ctx) : (s.modCtx n f).evt = s.evt := rfl
@[simp] theorem State.modCtx_slots (n : Nat) (f : Ctx → Ctx) : (s.modCtx n f).slots = s.slots := rfl
@[simp] theorem State.modCtx_engines (n : Nat) (f : Ctx → Ctx) : (s.modCtx n f).engines = s.engines := rfl
@[simp] theorem State.modCtx_evid (n : Nat) (f : Ctx → Ctx) : (s.modCtx n f).evid = s.evid := rfl
@[simp] theorem State.modCtx_skv (n : Nat) (f : Ctx → Ctx) : (s.modCtx n f).skv = s.skv := rfl
@[simp] theorem State.modCtx_cores (n : Nat) (f : Ctx → Ctx) : (s.modCtx n f).cores = s.cores := rfl
@[simp] theorem State.modCtx_clusters (n : Nat) (f : Ctx → Ctx) : (s.modCtx n f).clusters = s.clusters := rfl
@[simp] theorem State.modCtx_flight (n : Nat) (f : Ctx → Ctx) : (s.modCtx n f).flight = s.flight := rfl
@[simp] theorem State.modCtx_work (n : Nat) (f : Ctx → Ctx) : (s.modCtx n f).work = s.work := rfl
@[simp] theorem State.modCtx_hostDropped (n : Nat) (f : Ctx → Ctx) : (s.modCtx n f).hostDropped = s.hostDropped := rfl
@[simp] theorem State.modCtx_ctxRuns (n : Nat) (f : Ctx → Ctx) : (s.modCtx n f).ctxRuns = s.ctxRuns := rfl
@[simp] theorem State.modCtx_readyClock (n : Nat) (f : Ctx → Ctx) : (s.modCtx n f).readyClock = s.readyClock := rfl
@[simp] theorem State.modCtx_stc (n : Nat) (f : Ctx → Ctx) : (s.modCtx n f).stc = s.stc := rfl
@[simp] theorem State.modCtx_gallery (n : Nat) (f : Ctx → Ctx) : (s.modCtx n f).gallery = s.gallery := rfl
@[simp] theorem State.modCtx_narr (n : Nat) (f : Ctx → Ctx) : (s.modCtx n f).narr = s.narr := rfl
@[simp] theorem State.modCtx_rules (n : Nat) (f : Ctx → Ctx) : (s.modCtx n f).rules = s.rules := rfl
@[simp] theorem State.modCtx_rings (n : Nat) (f : Ctx → Ctx) : (s.modCtx n f).rings = s.rings := rfl
@[simp] theorem State.modCtx_colls (n : Nat) (f : Ctx → Ctx) : (s.modCtx n f).colls = s.colls := rfl
@[simp] theorem State.modCtx_mem (n : Nat) (f : Ctx → Ctx) : (s.modCtx n f).mem = s.mem := rfl
@[simp] theorem State.modCtx_tkp (n : Nat) (f : Ctx → Ctx) : (s.modCtx n f).tkp = s.tkp := rfl
@[simp] theorem State.modCtx_rne (n : Nat) (f : Ctx → Ctx) : (s.modCtx n f).rne = s.rne := rfl
@[simp] theorem State.modCtx_pwr (n : Nat) (f : Ctx → Ctx) : (s.modCtx n f).pwr = s.pwr := rfl
@[simp] theorem State.modCtx_clk (n : Nat) (f : Ctx → Ctx) : (s.modCtx n f).clk = s.clk := rfl
@[simp] theorem State.modCtx_pair (n : Nat) (f : Ctx → Ctx) : (s.modCtx n f).pair = s.pair := rfl
@[simp] theorem State.modCtx_pairSh (n : Nat) (f : Ctx → Ctx) : (s.modCtx n f).pairSh = s.pairSh := rfl
@[simp] theorem State.modCtx_pci (n : Nat) (f : Ctx → Ctx) : (s.modCtx n f).pci = s.pci := rfl
@[simp] theorem State.modCtx_od (n : Nat) (f : Ctx → Ctx) : (s.modCtx n f).od = s.od := rfl
@[simp] theorem State.modCtx_fuses (n : Nat) (f : Ctx → Ctx) : (s.modCtx n f).fuses = s.fuses := rfl
@[simp] theorem State.modCtx_flash (n : Nat) (f : Ctx → Ctx) : (s.modCtx n f).flash = s.flash := rfl
@[simp] theorem State.modCtx_boot (n : Nat) (f : Ctx → Ctx) : (s.modCtx n f).boot = s.boot := rfl
@[simp] theorem State.modCtx_kpr (n : Nat) (f : Ctx → Ctx) : (s.modCtx n f).kpr = s.kpr := rfl

@[simp] theorem State.modRun_pending (n : Nat) (f : CtxRun → CtxRun) : (s.modRun n f).pending = s.pending := rfl
@[simp] theorem State.modRun_out (n : Nat) (f : CtxRun → CtxRun) : (s.modRun n f).out = s.out := rfl
@[simp] theorem State.modRun_latches (n : Nat) (f : CtxRun → CtxRun) : (s.modRun n f).latches = s.latches := rfl
@[simp] theorem State.modRun_heldLow (n : Nat) (f : CtxRun → CtxRun) : (s.modRun n f).heldLow = s.heldLow := rfl
@[simp] theorem State.modRun_sels (n : Nat) (f : CtxRun → CtxRun) : (s.modRun n f).sels = s.sels := rfl
@[simp] theorem State.modRun_ports (n : Nat) (f : CtxRun → CtxRun) : (s.modRun n f).ports = s.ports := rfl
@[simp] theorem State.modRun_push (n : Nat) (f : CtxRun → CtxRun) : (s.modRun n f).push = s.push := rfl
@[simp] theorem State.modRun_fusions (n : Nat) (f : CtxRun → CtxRun) : (s.modRun n f).fusions = s.fusions := rfl
@[simp] theorem State.modRun_evt (n : Nat) (f : CtxRun → CtxRun) : (s.modRun n f).evt = s.evt := rfl
@[simp] theorem State.modRun_slots (n : Nat) (f : CtxRun → CtxRun) : (s.modRun n f).slots = s.slots := rfl
@[simp] theorem State.modRun_engines (n : Nat) (f : CtxRun → CtxRun) : (s.modRun n f).engines = s.engines := rfl
@[simp] theorem State.modRun_evid (n : Nat) (f : CtxRun → CtxRun) : (s.modRun n f).evid = s.evid := rfl
@[simp] theorem State.modRun_skv (n : Nat) (f : CtxRun → CtxRun) : (s.modRun n f).skv = s.skv := rfl
@[simp] theorem State.modRun_cores (n : Nat) (f : CtxRun → CtxRun) : (s.modRun n f).cores = s.cores := rfl
@[simp] theorem State.modRun_clusters (n : Nat) (f : CtxRun → CtxRun) : (s.modRun n f).clusters = s.clusters := rfl
@[simp] theorem State.modRun_flight (n : Nat) (f : CtxRun → CtxRun) : (s.modRun n f).flight = s.flight := rfl
@[simp] theorem State.modRun_work (n : Nat) (f : CtxRun → CtxRun) : (s.modRun n f).work = s.work := rfl
@[simp] theorem State.modRun_hostDropped (n : Nat) (f : CtxRun → CtxRun) : (s.modRun n f).hostDropped = s.hostDropped := rfl
@[simp] theorem State.modRun_ctxs (n : Nat) (f : CtxRun → CtxRun) : (s.modRun n f).ctxs = s.ctxs := rfl
@[simp] theorem State.modRun_readyClock (n : Nat) (f : CtxRun → CtxRun) : (s.modRun n f).readyClock = s.readyClock := rfl
@[simp] theorem State.modRun_stc (n : Nat) (f : CtxRun → CtxRun) : (s.modRun n f).stc = s.stc := rfl
@[simp] theorem State.modRun_gallery (n : Nat) (f : CtxRun → CtxRun) : (s.modRun n f).gallery = s.gallery := rfl
@[simp] theorem State.modRun_narr (n : Nat) (f : CtxRun → CtxRun) : (s.modRun n f).narr = s.narr := rfl
@[simp] theorem State.modRun_rules (n : Nat) (f : CtxRun → CtxRun) : (s.modRun n f).rules = s.rules := rfl
@[simp] theorem State.modRun_rings (n : Nat) (f : CtxRun → CtxRun) : (s.modRun n f).rings = s.rings := rfl
@[simp] theorem State.modRun_colls (n : Nat) (f : CtxRun → CtxRun) : (s.modRun n f).colls = s.colls := rfl
@[simp] theorem State.modRun_mem (n : Nat) (f : CtxRun → CtxRun) : (s.modRun n f).mem = s.mem := rfl
@[simp] theorem State.modRun_tkp (n : Nat) (f : CtxRun → CtxRun) : (s.modRun n f).tkp = s.tkp := rfl
@[simp] theorem State.modRun_rne (n : Nat) (f : CtxRun → CtxRun) : (s.modRun n f).rne = s.rne := rfl
@[simp] theorem State.modRun_pwr (n : Nat) (f : CtxRun → CtxRun) : (s.modRun n f).pwr = s.pwr := rfl
@[simp] theorem State.modRun_clk (n : Nat) (f : CtxRun → CtxRun) : (s.modRun n f).clk = s.clk := rfl
@[simp] theorem State.modRun_pair (n : Nat) (f : CtxRun → CtxRun) : (s.modRun n f).pair = s.pair := rfl
@[simp] theorem State.modRun_pairSh (n : Nat) (f : CtxRun → CtxRun) : (s.modRun n f).pairSh = s.pairSh := rfl
@[simp] theorem State.modRun_pci (n : Nat) (f : CtxRun → CtxRun) : (s.modRun n f).pci = s.pci := rfl
@[simp] theorem State.modRun_od (n : Nat) (f : CtxRun → CtxRun) : (s.modRun n f).od = s.od := rfl
@[simp] theorem State.modRun_fuses (n : Nat) (f : CtxRun → CtxRun) : (s.modRun n f).fuses = s.fuses := rfl
@[simp] theorem State.modRun_flash (n : Nat) (f : CtxRun → CtxRun) : (s.modRun n f).flash = s.flash := rfl
@[simp] theorem State.modRun_boot (n : Nat) (f : CtxRun → CtxRun) : (s.modRun n f).boot = s.boot := rfl
@[simp] theorem State.modRun_kpr (n : Nat) (f : CtxRun → CtxRun) : (s.modRun n f).kpr = s.kpr := rfl

@[simp] theorem State.account_pending (c i k : Nat) : (s.account c i k).pending = s.pending := rfl
@[simp] theorem State.account_out (c i k : Nat) : (s.account c i k).out = s.out := rfl
@[simp] theorem State.account_latches (c i k : Nat) : (s.account c i k).latches = s.latches := rfl
@[simp] theorem State.account_heldLow (c i k : Nat) : (s.account c i k).heldLow = s.heldLow := rfl
@[simp] theorem State.account_sels (c i k : Nat) : (s.account c i k).sels = s.sels := rfl
@[simp] theorem State.account_ports (c i k : Nat) : (s.account c i k).ports = s.ports := rfl
@[simp] theorem State.account_push (c i k : Nat) : (s.account c i k).push = s.push := rfl
@[simp] theorem State.account_fusions (c i k : Nat) : (s.account c i k).fusions = s.fusions := rfl
@[simp] theorem State.account_evt (c i k : Nat) : (s.account c i k).evt = s.evt := rfl
@[simp] theorem State.account_slots (c i k : Nat) : (s.account c i k).slots = s.slots := rfl
@[simp] theorem State.account_engines (c i k : Nat) : (s.account c i k).engines = s.engines := rfl
@[simp] theorem State.account_evid (c i k : Nat) : (s.account c i k).evid = s.evid := rfl
@[simp] theorem State.account_skv (c i k : Nat) : (s.account c i k).skv = s.skv := rfl
@[simp] theorem State.account_cores (c i k : Nat) : (s.account c i k).cores = s.cores := rfl
@[simp] theorem State.account_clusters (c i k : Nat) : (s.account c i k).clusters = s.clusters := rfl
@[simp] theorem State.account_flight (c i k : Nat) : (s.account c i k).flight = s.flight := rfl
@[simp] theorem State.account_work (c i k : Nat) : (s.account c i k).work = s.work := rfl
@[simp] theorem State.account_hostDropped (c i k : Nat) : (s.account c i k).hostDropped = s.hostDropped := rfl
@[simp] theorem State.account_ctxs (c i k : Nat) : (s.account c i k).ctxs = s.ctxs := rfl
@[simp] theorem State.account_readyClock (c i k : Nat) : (s.account c i k).readyClock = s.readyClock := rfl
@[simp] theorem State.account_stc (c i k : Nat) : (s.account c i k).stc = s.stc := rfl
@[simp] theorem State.account_gallery (c i k : Nat) : (s.account c i k).gallery = s.gallery := rfl
@[simp] theorem State.account_narr (c i k : Nat) : (s.account c i k).narr = s.narr := rfl
@[simp] theorem State.account_rules (c i k : Nat) : (s.account c i k).rules = s.rules := rfl
@[simp] theorem State.account_rings (c i k : Nat) : (s.account c i k).rings = s.rings := rfl
@[simp] theorem State.account_colls (c i k : Nat) : (s.account c i k).colls = s.colls := rfl
@[simp] theorem State.account_mem (c i k : Nat) : (s.account c i k).mem = s.mem := rfl
@[simp] theorem State.account_tkp (c i k : Nat) : (s.account c i k).tkp = s.tkp := rfl
@[simp] theorem State.account_rne (c i k : Nat) : (s.account c i k).rne = s.rne := rfl
@[simp] theorem State.account_pwr (c i k : Nat) : (s.account c i k).pwr = s.pwr := rfl
@[simp] theorem State.account_clk (c i k : Nat) : (s.account c i k).clk = s.clk := rfl
@[simp] theorem State.account_pair (c i k : Nat) : (s.account c i k).pair = s.pair := rfl
@[simp] theorem State.account_pairSh (c i k : Nat) : (s.account c i k).pairSh = s.pairSh := rfl
@[simp] theorem State.account_pci (c i k : Nat) : (s.account c i k).pci = s.pci := rfl
@[simp] theorem State.account_od (c i k : Nat) : (s.account c i k).od = s.od := rfl
@[simp] theorem State.account_fuses (c i k : Nat) : (s.account c i k).fuses = s.fuses := rfl
@[simp] theorem State.account_flash (c i k : Nat) : (s.account c i k).flash = s.flash := rfl
@[simp] theorem State.account_boot (c i k : Nat) : (s.account c i k).boot = s.boot := rfl
@[simp] theorem State.account_kpr (c i k : Nat) : (s.account c i k).kpr = s.kpr := rfl

@[simp] theorem State.modWork_pending (n : Nat) (f : WorkCtr → WorkCtr) : (s.modWork n f).pending = s.pending := rfl
@[simp] theorem State.modWork_out (n : Nat) (f : WorkCtr → WorkCtr) : (s.modWork n f).out = s.out := rfl
@[simp] theorem State.modWork_latches (n : Nat) (f : WorkCtr → WorkCtr) : (s.modWork n f).latches = s.latches := rfl
@[simp] theorem State.modWork_heldLow (n : Nat) (f : WorkCtr → WorkCtr) : (s.modWork n f).heldLow = s.heldLow := rfl
@[simp] theorem State.modWork_sels (n : Nat) (f : WorkCtr → WorkCtr) : (s.modWork n f).sels = s.sels := rfl
@[simp] theorem State.modWork_ports (n : Nat) (f : WorkCtr → WorkCtr) : (s.modWork n f).ports = s.ports := rfl
@[simp] theorem State.modWork_push (n : Nat) (f : WorkCtr → WorkCtr) : (s.modWork n f).push = s.push := rfl
@[simp] theorem State.modWork_fusions (n : Nat) (f : WorkCtr → WorkCtr) : (s.modWork n f).fusions = s.fusions := rfl
@[simp] theorem State.modWork_evt (n : Nat) (f : WorkCtr → WorkCtr) : (s.modWork n f).evt = s.evt := rfl
@[simp] theorem State.modWork_slots (n : Nat) (f : WorkCtr → WorkCtr) : (s.modWork n f).slots = s.slots := rfl
@[simp] theorem State.modWork_engines (n : Nat) (f : WorkCtr → WorkCtr) : (s.modWork n f).engines = s.engines := rfl
@[simp] theorem State.modWork_evid (n : Nat) (f : WorkCtr → WorkCtr) : (s.modWork n f).evid = s.evid := rfl
@[simp] theorem State.modWork_skv (n : Nat) (f : WorkCtr → WorkCtr) : (s.modWork n f).skv = s.skv := rfl
@[simp] theorem State.modWork_cores (n : Nat) (f : WorkCtr → WorkCtr) : (s.modWork n f).cores = s.cores := rfl
@[simp] theorem State.modWork_clusters (n : Nat) (f : WorkCtr → WorkCtr) : (s.modWork n f).clusters = s.clusters := rfl
@[simp] theorem State.modWork_flight (n : Nat) (f : WorkCtr → WorkCtr) : (s.modWork n f).flight = s.flight := rfl
@[simp] theorem State.modWork_hostDropped (n : Nat) (f : WorkCtr → WorkCtr) : (s.modWork n f).hostDropped = s.hostDropped := rfl
@[simp] theorem State.modWork_ctxs (n : Nat) (f : WorkCtr → WorkCtr) : (s.modWork n f).ctxs = s.ctxs := rfl
@[simp] theorem State.modWork_ctxRuns (n : Nat) (f : WorkCtr → WorkCtr) : (s.modWork n f).ctxRuns = s.ctxRuns := rfl
@[simp] theorem State.modWork_readyClock (n : Nat) (f : WorkCtr → WorkCtr) : (s.modWork n f).readyClock = s.readyClock := rfl
@[simp] theorem State.modWork_stc (n : Nat) (f : WorkCtr → WorkCtr) : (s.modWork n f).stc = s.stc := rfl
@[simp] theorem State.modWork_gallery (n : Nat) (f : WorkCtr → WorkCtr) : (s.modWork n f).gallery = s.gallery := rfl
@[simp] theorem State.modWork_narr (n : Nat) (f : WorkCtr → WorkCtr) : (s.modWork n f).narr = s.narr := rfl
@[simp] theorem State.modWork_rules (n : Nat) (f : WorkCtr → WorkCtr) : (s.modWork n f).rules = s.rules := rfl
@[simp] theorem State.modWork_rings (n : Nat) (f : WorkCtr → WorkCtr) : (s.modWork n f).rings = s.rings := rfl
@[simp] theorem State.modWork_colls (n : Nat) (f : WorkCtr → WorkCtr) : (s.modWork n f).colls = s.colls := rfl
@[simp] theorem State.modWork_mem (n : Nat) (f : WorkCtr → WorkCtr) : (s.modWork n f).mem = s.mem := rfl
@[simp] theorem State.modWork_tkp (n : Nat) (f : WorkCtr → WorkCtr) : (s.modWork n f).tkp = s.tkp := rfl
@[simp] theorem State.modWork_rne (n : Nat) (f : WorkCtr → WorkCtr) : (s.modWork n f).rne = s.rne := rfl
@[simp] theorem State.modWork_pwr (n : Nat) (f : WorkCtr → WorkCtr) : (s.modWork n f).pwr = s.pwr := rfl
@[simp] theorem State.modWork_clk (n : Nat) (f : WorkCtr → WorkCtr) : (s.modWork n f).clk = s.clk := rfl
@[simp] theorem State.modWork_pair (n : Nat) (f : WorkCtr → WorkCtr) : (s.modWork n f).pair = s.pair := rfl
@[simp] theorem State.modWork_pairSh (n : Nat) (f : WorkCtr → WorkCtr) : (s.modWork n f).pairSh = s.pairSh := rfl
@[simp] theorem State.modWork_pci (n : Nat) (f : WorkCtr → WorkCtr) : (s.modWork n f).pci = s.pci := rfl
@[simp] theorem State.modWork_od (n : Nat) (f : WorkCtr → WorkCtr) : (s.modWork n f).od = s.od := rfl
@[simp] theorem State.modWork_fuses (n : Nat) (f : WorkCtr → WorkCtr) : (s.modWork n f).fuses = s.fuses := rfl
@[simp] theorem State.modWork_flash (n : Nat) (f : WorkCtr → WorkCtr) : (s.modWork n f).flash = s.flash := rfl
@[simp] theorem State.modWork_boot (n : Nat) (f : WorkCtr → WorkCtr) : (s.modWork n f).boot = s.boot := rfl
@[simp] theorem State.modWork_kpr (n : Nat) (f : WorkCtr → WorkCtr) : (s.modWork n f).kpr = s.kpr := rfl

@[simp] theorem State.modStc_pending (n : Nat) (f : StcUnit → StcUnit) : (s.modStc n f).pending = s.pending := rfl
@[simp] theorem State.modStc_out (n : Nat) (f : StcUnit → StcUnit) : (s.modStc n f).out = s.out := rfl
@[simp] theorem State.modStc_latches (n : Nat) (f : StcUnit → StcUnit) : (s.modStc n f).latches = s.latches := rfl
@[simp] theorem State.modStc_heldLow (n : Nat) (f : StcUnit → StcUnit) : (s.modStc n f).heldLow = s.heldLow := rfl
@[simp] theorem State.modStc_sels (n : Nat) (f : StcUnit → StcUnit) : (s.modStc n f).sels = s.sels := rfl
@[simp] theorem State.modStc_ports (n : Nat) (f : StcUnit → StcUnit) : (s.modStc n f).ports = s.ports := rfl
@[simp] theorem State.modStc_push (n : Nat) (f : StcUnit → StcUnit) : (s.modStc n f).push = s.push := rfl
@[simp] theorem State.modStc_fusions (n : Nat) (f : StcUnit → StcUnit) : (s.modStc n f).fusions = s.fusions := rfl
@[simp] theorem State.modStc_evt (n : Nat) (f : StcUnit → StcUnit) : (s.modStc n f).evt = s.evt := rfl
@[simp] theorem State.modStc_slots (n : Nat) (f : StcUnit → StcUnit) : (s.modStc n f).slots = s.slots := rfl
@[simp] theorem State.modStc_engines (n : Nat) (f : StcUnit → StcUnit) : (s.modStc n f).engines = s.engines := rfl
@[simp] theorem State.modStc_evid (n : Nat) (f : StcUnit → StcUnit) : (s.modStc n f).evid = s.evid := rfl
@[simp] theorem State.modStc_skv (n : Nat) (f : StcUnit → StcUnit) : (s.modStc n f).skv = s.skv := rfl
@[simp] theorem State.modStc_cores (n : Nat) (f : StcUnit → StcUnit) : (s.modStc n f).cores = s.cores := rfl
@[simp] theorem State.modStc_clusters (n : Nat) (f : StcUnit → StcUnit) : (s.modStc n f).clusters = s.clusters := rfl
@[simp] theorem State.modStc_flight (n : Nat) (f : StcUnit → StcUnit) : (s.modStc n f).flight = s.flight := rfl
@[simp] theorem State.modStc_work (n : Nat) (f : StcUnit → StcUnit) : (s.modStc n f).work = s.work := rfl
@[simp] theorem State.modStc_hostDropped (n : Nat) (f : StcUnit → StcUnit) : (s.modStc n f).hostDropped = s.hostDropped := rfl
@[simp] theorem State.modStc_ctxs (n : Nat) (f : StcUnit → StcUnit) : (s.modStc n f).ctxs = s.ctxs := rfl
@[simp] theorem State.modStc_ctxRuns (n : Nat) (f : StcUnit → StcUnit) : (s.modStc n f).ctxRuns = s.ctxRuns := rfl
@[simp] theorem State.modStc_readyClock (n : Nat) (f : StcUnit → StcUnit) : (s.modStc n f).readyClock = s.readyClock := rfl
@[simp] theorem State.modStc_gallery (n : Nat) (f : StcUnit → StcUnit) : (s.modStc n f).gallery = s.gallery := rfl
@[simp] theorem State.modStc_narr (n : Nat) (f : StcUnit → StcUnit) : (s.modStc n f).narr = s.narr := rfl
@[simp] theorem State.modStc_rules (n : Nat) (f : StcUnit → StcUnit) : (s.modStc n f).rules = s.rules := rfl
@[simp] theorem State.modStc_rings (n : Nat) (f : StcUnit → StcUnit) : (s.modStc n f).rings = s.rings := rfl
@[simp] theorem State.modStc_colls (n : Nat) (f : StcUnit → StcUnit) : (s.modStc n f).colls = s.colls := rfl
@[simp] theorem State.modStc_mem (n : Nat) (f : StcUnit → StcUnit) : (s.modStc n f).mem = s.mem := rfl
@[simp] theorem State.modStc_tkp (n : Nat) (f : StcUnit → StcUnit) : (s.modStc n f).tkp = s.tkp := rfl
@[simp] theorem State.modStc_rne (n : Nat) (f : StcUnit → StcUnit) : (s.modStc n f).rne = s.rne := rfl
@[simp] theorem State.modStc_pwr (n : Nat) (f : StcUnit → StcUnit) : (s.modStc n f).pwr = s.pwr := rfl
@[simp] theorem State.modStc_clk (n : Nat) (f : StcUnit → StcUnit) : (s.modStc n f).clk = s.clk := rfl
@[simp] theorem State.modStc_pair (n : Nat) (f : StcUnit → StcUnit) : (s.modStc n f).pair = s.pair := rfl
@[simp] theorem State.modStc_pairSh (n : Nat) (f : StcUnit → StcUnit) : (s.modStc n f).pairSh = s.pairSh := rfl
@[simp] theorem State.modStc_pci (n : Nat) (f : StcUnit → StcUnit) : (s.modStc n f).pci = s.pci := rfl
@[simp] theorem State.modStc_od (n : Nat) (f : StcUnit → StcUnit) : (s.modStc n f).od = s.od := rfl
@[simp] theorem State.modStc_fuses (n : Nat) (f : StcUnit → StcUnit) : (s.modStc n f).fuses = s.fuses := rfl
@[simp] theorem State.modStc_flash (n : Nat) (f : StcUnit → StcUnit) : (s.modStc n f).flash = s.flash := rfl
@[simp] theorem State.modStc_boot (n : Nat) (f : StcUnit → StcUnit) : (s.modStc n f).boot = s.boot := rfl
@[simp] theorem State.modStc_kpr (n : Nat) (f : StcUnit → StcUnit) : (s.modStc n f).kpr = s.kpr := rfl

@[simp] theorem State.modRule_pending (n : Nat) (f : Rule → Rule) : (s.modRule n f).pending = s.pending := rfl
@[simp] theorem State.modRule_out (n : Nat) (f : Rule → Rule) : (s.modRule n f).out = s.out := rfl
@[simp] theorem State.modRule_latches (n : Nat) (f : Rule → Rule) : (s.modRule n f).latches = s.latches := rfl
@[simp] theorem State.modRule_heldLow (n : Nat) (f : Rule → Rule) : (s.modRule n f).heldLow = s.heldLow := rfl
@[simp] theorem State.modRule_sels (n : Nat) (f : Rule → Rule) : (s.modRule n f).sels = s.sels := rfl
@[simp] theorem State.modRule_ports (n : Nat) (f : Rule → Rule) : (s.modRule n f).ports = s.ports := rfl
@[simp] theorem State.modRule_push (n : Nat) (f : Rule → Rule) : (s.modRule n f).push = s.push := rfl
@[simp] theorem State.modRule_fusions (n : Nat) (f : Rule → Rule) : (s.modRule n f).fusions = s.fusions := rfl
@[simp] theorem State.modRule_evt (n : Nat) (f : Rule → Rule) : (s.modRule n f).evt = s.evt := rfl
@[simp] theorem State.modRule_slots (n : Nat) (f : Rule → Rule) : (s.modRule n f).slots = s.slots := rfl
@[simp] theorem State.modRule_engines (n : Nat) (f : Rule → Rule) : (s.modRule n f).engines = s.engines := rfl
@[simp] theorem State.modRule_evid (n : Nat) (f : Rule → Rule) : (s.modRule n f).evid = s.evid := rfl
@[simp] theorem State.modRule_skv (n : Nat) (f : Rule → Rule) : (s.modRule n f).skv = s.skv := rfl
@[simp] theorem State.modRule_cores (n : Nat) (f : Rule → Rule) : (s.modRule n f).cores = s.cores := rfl
@[simp] theorem State.modRule_clusters (n : Nat) (f : Rule → Rule) : (s.modRule n f).clusters = s.clusters := rfl
@[simp] theorem State.modRule_flight (n : Nat) (f : Rule → Rule) : (s.modRule n f).flight = s.flight := rfl
@[simp] theorem State.modRule_work (n : Nat) (f : Rule → Rule) : (s.modRule n f).work = s.work := rfl
@[simp] theorem State.modRule_hostDropped (n : Nat) (f : Rule → Rule) : (s.modRule n f).hostDropped = s.hostDropped := rfl
@[simp] theorem State.modRule_ctxs (n : Nat) (f : Rule → Rule) : (s.modRule n f).ctxs = s.ctxs := rfl
@[simp] theorem State.modRule_ctxRuns (n : Nat) (f : Rule → Rule) : (s.modRule n f).ctxRuns = s.ctxRuns := rfl
@[simp] theorem State.modRule_readyClock (n : Nat) (f : Rule → Rule) : (s.modRule n f).readyClock = s.readyClock := rfl
@[simp] theorem State.modRule_stc (n : Nat) (f : Rule → Rule) : (s.modRule n f).stc = s.stc := rfl
@[simp] theorem State.modRule_gallery (n : Nat) (f : Rule → Rule) : (s.modRule n f).gallery = s.gallery := rfl
@[simp] theorem State.modRule_narr (n : Nat) (f : Rule → Rule) : (s.modRule n f).narr = s.narr := rfl
@[simp] theorem State.modRule_rings (n : Nat) (f : Rule → Rule) : (s.modRule n f).rings = s.rings := rfl
@[simp] theorem State.modRule_colls (n : Nat) (f : Rule → Rule) : (s.modRule n f).colls = s.colls := rfl
@[simp] theorem State.modRule_mem (n : Nat) (f : Rule → Rule) : (s.modRule n f).mem = s.mem := rfl
@[simp] theorem State.modRule_tkp (n : Nat) (f : Rule → Rule) : (s.modRule n f).tkp = s.tkp := rfl
@[simp] theorem State.modRule_rne (n : Nat) (f : Rule → Rule) : (s.modRule n f).rne = s.rne := rfl
@[simp] theorem State.modRule_pwr (n : Nat) (f : Rule → Rule) : (s.modRule n f).pwr = s.pwr := rfl
@[simp] theorem State.modRule_clk (n : Nat) (f : Rule → Rule) : (s.modRule n f).clk = s.clk := rfl
@[simp] theorem State.modRule_pair (n : Nat) (f : Rule → Rule) : (s.modRule n f).pair = s.pair := rfl
@[simp] theorem State.modRule_pairSh (n : Nat) (f : Rule → Rule) : (s.modRule n f).pairSh = s.pairSh := rfl
@[simp] theorem State.modRule_pci (n : Nat) (f : Rule → Rule) : (s.modRule n f).pci = s.pci := rfl
@[simp] theorem State.modRule_od (n : Nat) (f : Rule → Rule) : (s.modRule n f).od = s.od := rfl
@[simp] theorem State.modRule_fuses (n : Nat) (f : Rule → Rule) : (s.modRule n f).fuses = s.fuses := rfl
@[simp] theorem State.modRule_flash (n : Nat) (f : Rule → Rule) : (s.modRule n f).flash = s.flash := rfl
@[simp] theorem State.modRule_boot (n : Nat) (f : Rule → Rule) : (s.modRule n f).boot = s.boot := rfl
@[simp] theorem State.modRule_kpr (n : Nat) (f : Rule → Rule) : (s.modRule n f).kpr = s.kpr := rfl

@[simp] theorem State.modRing_pending (n : Nat) (f : Ring → Ring) : (s.modRing n f).pending = s.pending := rfl
@[simp] theorem State.modRing_out (n : Nat) (f : Ring → Ring) : (s.modRing n f).out = s.out := rfl
@[simp] theorem State.modRing_latches (n : Nat) (f : Ring → Ring) : (s.modRing n f).latches = s.latches := rfl
@[simp] theorem State.modRing_heldLow (n : Nat) (f : Ring → Ring) : (s.modRing n f).heldLow = s.heldLow := rfl
@[simp] theorem State.modRing_sels (n : Nat) (f : Ring → Ring) : (s.modRing n f).sels = s.sels := rfl
@[simp] theorem State.modRing_ports (n : Nat) (f : Ring → Ring) : (s.modRing n f).ports = s.ports := rfl
@[simp] theorem State.modRing_push (n : Nat) (f : Ring → Ring) : (s.modRing n f).push = s.push := rfl
@[simp] theorem State.modRing_fusions (n : Nat) (f : Ring → Ring) : (s.modRing n f).fusions = s.fusions := rfl
@[simp] theorem State.modRing_evt (n : Nat) (f : Ring → Ring) : (s.modRing n f).evt = s.evt := rfl
@[simp] theorem State.modRing_slots (n : Nat) (f : Ring → Ring) : (s.modRing n f).slots = s.slots := rfl
@[simp] theorem State.modRing_engines (n : Nat) (f : Ring → Ring) : (s.modRing n f).engines = s.engines := rfl
@[simp] theorem State.modRing_evid (n : Nat) (f : Ring → Ring) : (s.modRing n f).evid = s.evid := rfl
@[simp] theorem State.modRing_skv (n : Nat) (f : Ring → Ring) : (s.modRing n f).skv = s.skv := rfl
@[simp] theorem State.modRing_cores (n : Nat) (f : Ring → Ring) : (s.modRing n f).cores = s.cores := rfl
@[simp] theorem State.modRing_clusters (n : Nat) (f : Ring → Ring) : (s.modRing n f).clusters = s.clusters := rfl
@[simp] theorem State.modRing_flight (n : Nat) (f : Ring → Ring) : (s.modRing n f).flight = s.flight := rfl
@[simp] theorem State.modRing_work (n : Nat) (f : Ring → Ring) : (s.modRing n f).work = s.work := rfl
@[simp] theorem State.modRing_hostDropped (n : Nat) (f : Ring → Ring) : (s.modRing n f).hostDropped = s.hostDropped := rfl
@[simp] theorem State.modRing_ctxs (n : Nat) (f : Ring → Ring) : (s.modRing n f).ctxs = s.ctxs := rfl
@[simp] theorem State.modRing_ctxRuns (n : Nat) (f : Ring → Ring) : (s.modRing n f).ctxRuns = s.ctxRuns := rfl
@[simp] theorem State.modRing_readyClock (n : Nat) (f : Ring → Ring) : (s.modRing n f).readyClock = s.readyClock := rfl
@[simp] theorem State.modRing_stc (n : Nat) (f : Ring → Ring) : (s.modRing n f).stc = s.stc := rfl
@[simp] theorem State.modRing_gallery (n : Nat) (f : Ring → Ring) : (s.modRing n f).gallery = s.gallery := rfl
@[simp] theorem State.modRing_narr (n : Nat) (f : Ring → Ring) : (s.modRing n f).narr = s.narr := rfl
@[simp] theorem State.modRing_rules (n : Nat) (f : Ring → Ring) : (s.modRing n f).rules = s.rules := rfl
@[simp] theorem State.modRing_colls (n : Nat) (f : Ring → Ring) : (s.modRing n f).colls = s.colls := rfl
@[simp] theorem State.modRing_mem (n : Nat) (f : Ring → Ring) : (s.modRing n f).mem = s.mem := rfl
@[simp] theorem State.modRing_tkp (n : Nat) (f : Ring → Ring) : (s.modRing n f).tkp = s.tkp := rfl
@[simp] theorem State.modRing_rne (n : Nat) (f : Ring → Ring) : (s.modRing n f).rne = s.rne := rfl
@[simp] theorem State.modRing_pwr (n : Nat) (f : Ring → Ring) : (s.modRing n f).pwr = s.pwr := rfl
@[simp] theorem State.modRing_clk (n : Nat) (f : Ring → Ring) : (s.modRing n f).clk = s.clk := rfl
@[simp] theorem State.modRing_pair (n : Nat) (f : Ring → Ring) : (s.modRing n f).pair = s.pair := rfl
@[simp] theorem State.modRing_pairSh (n : Nat) (f : Ring → Ring) : (s.modRing n f).pairSh = s.pairSh := rfl
@[simp] theorem State.modRing_pci (n : Nat) (f : Ring → Ring) : (s.modRing n f).pci = s.pci := rfl
@[simp] theorem State.modRing_od (n : Nat) (f : Ring → Ring) : (s.modRing n f).od = s.od := rfl
@[simp] theorem State.modRing_fuses (n : Nat) (f : Ring → Ring) : (s.modRing n f).fuses = s.fuses := rfl
@[simp] theorem State.modRing_flash (n : Nat) (f : Ring → Ring) : (s.modRing n f).flash = s.flash := rfl
@[simp] theorem State.modRing_boot (n : Nat) (f : Ring → Ring) : (s.modRing n f).boot = s.boot := rfl
@[simp] theorem State.modRing_kpr (n : Nat) (f : Ring → Ring) : (s.modRing n f).kpr = s.kpr := rfl

@[simp] theorem State.modColl_pending (n : Nat) (f : Collector → Collector) : (s.modColl n f).pending = s.pending := rfl
@[simp] theorem State.modColl_out (n : Nat) (f : Collector → Collector) : (s.modColl n f).out = s.out := rfl
@[simp] theorem State.modColl_latches (n : Nat) (f : Collector → Collector) : (s.modColl n f).latches = s.latches := rfl
@[simp] theorem State.modColl_heldLow (n : Nat) (f : Collector → Collector) : (s.modColl n f).heldLow = s.heldLow := rfl
@[simp] theorem State.modColl_sels (n : Nat) (f : Collector → Collector) : (s.modColl n f).sels = s.sels := rfl
@[simp] theorem State.modColl_ports (n : Nat) (f : Collector → Collector) : (s.modColl n f).ports = s.ports := rfl
@[simp] theorem State.modColl_push (n : Nat) (f : Collector → Collector) : (s.modColl n f).push = s.push := rfl
@[simp] theorem State.modColl_fusions (n : Nat) (f : Collector → Collector) : (s.modColl n f).fusions = s.fusions := rfl
@[simp] theorem State.modColl_evt (n : Nat) (f : Collector → Collector) : (s.modColl n f).evt = s.evt := rfl
@[simp] theorem State.modColl_slots (n : Nat) (f : Collector → Collector) : (s.modColl n f).slots = s.slots := rfl
@[simp] theorem State.modColl_engines (n : Nat) (f : Collector → Collector) : (s.modColl n f).engines = s.engines := rfl
@[simp] theorem State.modColl_evid (n : Nat) (f : Collector → Collector) : (s.modColl n f).evid = s.evid := rfl
@[simp] theorem State.modColl_skv (n : Nat) (f : Collector → Collector) : (s.modColl n f).skv = s.skv := rfl
@[simp] theorem State.modColl_cores (n : Nat) (f : Collector → Collector) : (s.modColl n f).cores = s.cores := rfl
@[simp] theorem State.modColl_clusters (n : Nat) (f : Collector → Collector) : (s.modColl n f).clusters = s.clusters := rfl
@[simp] theorem State.modColl_flight (n : Nat) (f : Collector → Collector) : (s.modColl n f).flight = s.flight := rfl
@[simp] theorem State.modColl_work (n : Nat) (f : Collector → Collector) : (s.modColl n f).work = s.work := rfl
@[simp] theorem State.modColl_hostDropped (n : Nat) (f : Collector → Collector) : (s.modColl n f).hostDropped = s.hostDropped := rfl
@[simp] theorem State.modColl_ctxs (n : Nat) (f : Collector → Collector) : (s.modColl n f).ctxs = s.ctxs := rfl
@[simp] theorem State.modColl_ctxRuns (n : Nat) (f : Collector → Collector) : (s.modColl n f).ctxRuns = s.ctxRuns := rfl
@[simp] theorem State.modColl_readyClock (n : Nat) (f : Collector → Collector) : (s.modColl n f).readyClock = s.readyClock := rfl
@[simp] theorem State.modColl_stc (n : Nat) (f : Collector → Collector) : (s.modColl n f).stc = s.stc := rfl
@[simp] theorem State.modColl_gallery (n : Nat) (f : Collector → Collector) : (s.modColl n f).gallery = s.gallery := rfl
@[simp] theorem State.modColl_narr (n : Nat) (f : Collector → Collector) : (s.modColl n f).narr = s.narr := rfl
@[simp] theorem State.modColl_rules (n : Nat) (f : Collector → Collector) : (s.modColl n f).rules = s.rules := rfl
@[simp] theorem State.modColl_rings (n : Nat) (f : Collector → Collector) : (s.modColl n f).rings = s.rings := rfl
@[simp] theorem State.modColl_mem (n : Nat) (f : Collector → Collector) : (s.modColl n f).mem = s.mem := rfl
@[simp] theorem State.modColl_tkp (n : Nat) (f : Collector → Collector) : (s.modColl n f).tkp = s.tkp := rfl
@[simp] theorem State.modColl_rne (n : Nat) (f : Collector → Collector) : (s.modColl n f).rne = s.rne := rfl
@[simp] theorem State.modColl_pwr (n : Nat) (f : Collector → Collector) : (s.modColl n f).pwr = s.pwr := rfl
@[simp] theorem State.modColl_clk (n : Nat) (f : Collector → Collector) : (s.modColl n f).clk = s.clk := rfl
@[simp] theorem State.modColl_pair (n : Nat) (f : Collector → Collector) : (s.modColl n f).pair = s.pair := rfl
@[simp] theorem State.modColl_pairSh (n : Nat) (f : Collector → Collector) : (s.modColl n f).pairSh = s.pairSh := rfl
@[simp] theorem State.modColl_pci (n : Nat) (f : Collector → Collector) : (s.modColl n f).pci = s.pci := rfl
@[simp] theorem State.modColl_od (n : Nat) (f : Collector → Collector) : (s.modColl n f).od = s.od := rfl
@[simp] theorem State.modColl_fuses (n : Nat) (f : Collector → Collector) : (s.modColl n f).fuses = s.fuses := rfl
@[simp] theorem State.modColl_flash (n : Nat) (f : Collector → Collector) : (s.modColl n f).flash = s.flash := rfl
@[simp] theorem State.modColl_boot (n : Nat) (f : Collector → Collector) : (s.modColl n f).boot = s.boot := rfl
@[simp] theorem State.modColl_kpr (n : Nat) (f : Collector → Collector) : (s.modColl n f).kpr = s.kpr := rfl

@[simp] theorem State.modLine_pending (n : Nat) (f : EvtLine → EvtLine) : (s.modLine n f).pending = s.pending := rfl
@[simp] theorem State.modLine_out (n : Nat) (f : EvtLine → EvtLine) : (s.modLine n f).out = s.out := rfl
@[simp] theorem State.modLine_latches (n : Nat) (f : EvtLine → EvtLine) : (s.modLine n f).latches = s.latches := rfl
@[simp] theorem State.modLine_heldLow (n : Nat) (f : EvtLine → EvtLine) : (s.modLine n f).heldLow = s.heldLow := rfl
@[simp] theorem State.modLine_sels (n : Nat) (f : EvtLine → EvtLine) : (s.modLine n f).sels = s.sels := rfl
@[simp] theorem State.modLine_ports (n : Nat) (f : EvtLine → EvtLine) : (s.modLine n f).ports = s.ports := rfl
@[simp] theorem State.modLine_push (n : Nat) (f : EvtLine → EvtLine) : (s.modLine n f).push = s.push := rfl
@[simp] theorem State.modLine_fusions (n : Nat) (f : EvtLine → EvtLine) : (s.modLine n f).fusions = s.fusions := rfl
@[simp] theorem State.modLine_slots (n : Nat) (f : EvtLine → EvtLine) : (s.modLine n f).slots = s.slots := rfl
@[simp] theorem State.modLine_engines (n : Nat) (f : EvtLine → EvtLine) : (s.modLine n f).engines = s.engines := rfl
@[simp] theorem State.modLine_evid (n : Nat) (f : EvtLine → EvtLine) : (s.modLine n f).evid = s.evid := rfl
@[simp] theorem State.modLine_skv (n : Nat) (f : EvtLine → EvtLine) : (s.modLine n f).skv = s.skv := rfl
@[simp] theorem State.modLine_cores (n : Nat) (f : EvtLine → EvtLine) : (s.modLine n f).cores = s.cores := rfl
@[simp] theorem State.modLine_clusters (n : Nat) (f : EvtLine → EvtLine) : (s.modLine n f).clusters = s.clusters := rfl
@[simp] theorem State.modLine_flight (n : Nat) (f : EvtLine → EvtLine) : (s.modLine n f).flight = s.flight := rfl
@[simp] theorem State.modLine_work (n : Nat) (f : EvtLine → EvtLine) : (s.modLine n f).work = s.work := rfl
@[simp] theorem State.modLine_hostDropped (n : Nat) (f : EvtLine → EvtLine) : (s.modLine n f).hostDropped = s.hostDropped := rfl
@[simp] theorem State.modLine_ctxs (n : Nat) (f : EvtLine → EvtLine) : (s.modLine n f).ctxs = s.ctxs := rfl
@[simp] theorem State.modLine_ctxRuns (n : Nat) (f : EvtLine → EvtLine) : (s.modLine n f).ctxRuns = s.ctxRuns := rfl
@[simp] theorem State.modLine_readyClock (n : Nat) (f : EvtLine → EvtLine) : (s.modLine n f).readyClock = s.readyClock := rfl
@[simp] theorem State.modLine_stc (n : Nat) (f : EvtLine → EvtLine) : (s.modLine n f).stc = s.stc := rfl
@[simp] theorem State.modLine_gallery (n : Nat) (f : EvtLine → EvtLine) : (s.modLine n f).gallery = s.gallery := rfl
@[simp] theorem State.modLine_narr (n : Nat) (f : EvtLine → EvtLine) : (s.modLine n f).narr = s.narr := rfl
@[simp] theorem State.modLine_rules (n : Nat) (f : EvtLine → EvtLine) : (s.modLine n f).rules = s.rules := rfl
@[simp] theorem State.modLine_rings (n : Nat) (f : EvtLine → EvtLine) : (s.modLine n f).rings = s.rings := rfl
@[simp] theorem State.modLine_colls (n : Nat) (f : EvtLine → EvtLine) : (s.modLine n f).colls = s.colls := rfl
@[simp] theorem State.modLine_mem (n : Nat) (f : EvtLine → EvtLine) : (s.modLine n f).mem = s.mem := rfl
@[simp] theorem State.modLine_tkp (n : Nat) (f : EvtLine → EvtLine) : (s.modLine n f).tkp = s.tkp := rfl
@[simp] theorem State.modLine_rne (n : Nat) (f : EvtLine → EvtLine) : (s.modLine n f).rne = s.rne := rfl
@[simp] theorem State.modLine_pwr (n : Nat) (f : EvtLine → EvtLine) : (s.modLine n f).pwr = s.pwr := rfl
@[simp] theorem State.modLine_clk (n : Nat) (f : EvtLine → EvtLine) : (s.modLine n f).clk = s.clk := rfl
@[simp] theorem State.modLine_pair (n : Nat) (f : EvtLine → EvtLine) : (s.modLine n f).pair = s.pair := rfl
@[simp] theorem State.modLine_pairSh (n : Nat) (f : EvtLine → EvtLine) : (s.modLine n f).pairSh = s.pairSh := rfl
@[simp] theorem State.modLine_pci (n : Nat) (f : EvtLine → EvtLine) : (s.modLine n f).pci = s.pci := rfl
@[simp] theorem State.modLine_od (n : Nat) (f : EvtLine → EvtLine) : (s.modLine n f).od = s.od := rfl
@[simp] theorem State.modLine_fuses (n : Nat) (f : EvtLine → EvtLine) : (s.modLine n f).fuses = s.fuses := rfl
@[simp] theorem State.modLine_flash (n : Nat) (f : EvtLine → EvtLine) : (s.modLine n f).flash = s.flash := rfl
@[simp] theorem State.modLine_boot (n : Nat) (f : EvtLine → EvtLine) : (s.modLine n f).boot = s.boot := rfl
@[simp] theorem State.modLine_kpr (n : Nat) (f : EvtLine → EvtLine) : (s.modLine n f).kpr = s.kpr := rfl

@[simp] theorem State.modOutLine_pending (n : Nat) (f : EvtOutLine → EvtOutLine) : (s.modOutLine n f).pending = s.pending := rfl
@[simp] theorem State.modOutLine_out (n : Nat) (f : EvtOutLine → EvtOutLine) : (s.modOutLine n f).out = s.out := rfl
@[simp] theorem State.modOutLine_latches (n : Nat) (f : EvtOutLine → EvtOutLine) : (s.modOutLine n f).latches = s.latches := rfl
@[simp] theorem State.modOutLine_heldLow (n : Nat) (f : EvtOutLine → EvtOutLine) : (s.modOutLine n f).heldLow = s.heldLow := rfl
@[simp] theorem State.modOutLine_sels (n : Nat) (f : EvtOutLine → EvtOutLine) : (s.modOutLine n f).sels = s.sels := rfl
@[simp] theorem State.modOutLine_ports (n : Nat) (f : EvtOutLine → EvtOutLine) : (s.modOutLine n f).ports = s.ports := rfl
@[simp] theorem State.modOutLine_push (n : Nat) (f : EvtOutLine → EvtOutLine) : (s.modOutLine n f).push = s.push := rfl
@[simp] theorem State.modOutLine_fusions (n : Nat) (f : EvtOutLine → EvtOutLine) : (s.modOutLine n f).fusions = s.fusions := rfl
@[simp] theorem State.modOutLine_slots (n : Nat) (f : EvtOutLine → EvtOutLine) : (s.modOutLine n f).slots = s.slots := rfl
@[simp] theorem State.modOutLine_engines (n : Nat) (f : EvtOutLine → EvtOutLine) : (s.modOutLine n f).engines = s.engines := rfl
@[simp] theorem State.modOutLine_evid (n : Nat) (f : EvtOutLine → EvtOutLine) : (s.modOutLine n f).evid = s.evid := rfl
@[simp] theorem State.modOutLine_skv (n : Nat) (f : EvtOutLine → EvtOutLine) : (s.modOutLine n f).skv = s.skv := rfl
@[simp] theorem State.modOutLine_cores (n : Nat) (f : EvtOutLine → EvtOutLine) : (s.modOutLine n f).cores = s.cores := rfl
@[simp] theorem State.modOutLine_clusters (n : Nat) (f : EvtOutLine → EvtOutLine) : (s.modOutLine n f).clusters = s.clusters := rfl
@[simp] theorem State.modOutLine_flight (n : Nat) (f : EvtOutLine → EvtOutLine) : (s.modOutLine n f).flight = s.flight := rfl
@[simp] theorem State.modOutLine_work (n : Nat) (f : EvtOutLine → EvtOutLine) : (s.modOutLine n f).work = s.work := rfl
@[simp] theorem State.modOutLine_hostDropped (n : Nat) (f : EvtOutLine → EvtOutLine) : (s.modOutLine n f).hostDropped = s.hostDropped := rfl
@[simp] theorem State.modOutLine_ctxs (n : Nat) (f : EvtOutLine → EvtOutLine) : (s.modOutLine n f).ctxs = s.ctxs := rfl
@[simp] theorem State.modOutLine_ctxRuns (n : Nat) (f : EvtOutLine → EvtOutLine) : (s.modOutLine n f).ctxRuns = s.ctxRuns := rfl
@[simp] theorem State.modOutLine_readyClock (n : Nat) (f : EvtOutLine → EvtOutLine) : (s.modOutLine n f).readyClock = s.readyClock := rfl
@[simp] theorem State.modOutLine_stc (n : Nat) (f : EvtOutLine → EvtOutLine) : (s.modOutLine n f).stc = s.stc := rfl
@[simp] theorem State.modOutLine_gallery (n : Nat) (f : EvtOutLine → EvtOutLine) : (s.modOutLine n f).gallery = s.gallery := rfl
@[simp] theorem State.modOutLine_narr (n : Nat) (f : EvtOutLine → EvtOutLine) : (s.modOutLine n f).narr = s.narr := rfl
@[simp] theorem State.modOutLine_rules (n : Nat) (f : EvtOutLine → EvtOutLine) : (s.modOutLine n f).rules = s.rules := rfl
@[simp] theorem State.modOutLine_rings (n : Nat) (f : EvtOutLine → EvtOutLine) : (s.modOutLine n f).rings = s.rings := rfl
@[simp] theorem State.modOutLine_colls (n : Nat) (f : EvtOutLine → EvtOutLine) : (s.modOutLine n f).colls = s.colls := rfl
@[simp] theorem State.modOutLine_mem (n : Nat) (f : EvtOutLine → EvtOutLine) : (s.modOutLine n f).mem = s.mem := rfl
@[simp] theorem State.modOutLine_tkp (n : Nat) (f : EvtOutLine → EvtOutLine) : (s.modOutLine n f).tkp = s.tkp := rfl
@[simp] theorem State.modOutLine_rne (n : Nat) (f : EvtOutLine → EvtOutLine) : (s.modOutLine n f).rne = s.rne := rfl
@[simp] theorem State.modOutLine_pwr (n : Nat) (f : EvtOutLine → EvtOutLine) : (s.modOutLine n f).pwr = s.pwr := rfl
@[simp] theorem State.modOutLine_clk (n : Nat) (f : EvtOutLine → EvtOutLine) : (s.modOutLine n f).clk = s.clk := rfl
@[simp] theorem State.modOutLine_pair (n : Nat) (f : EvtOutLine → EvtOutLine) : (s.modOutLine n f).pair = s.pair := rfl
@[simp] theorem State.modOutLine_pairSh (n : Nat) (f : EvtOutLine → EvtOutLine) : (s.modOutLine n f).pairSh = s.pairSh := rfl
@[simp] theorem State.modOutLine_pci (n : Nat) (f : EvtOutLine → EvtOutLine) : (s.modOutLine n f).pci = s.pci := rfl
@[simp] theorem State.modOutLine_od (n : Nat) (f : EvtOutLine → EvtOutLine) : (s.modOutLine n f).od = s.od := rfl
@[simp] theorem State.modOutLine_fuses (n : Nat) (f : EvtOutLine → EvtOutLine) : (s.modOutLine n f).fuses = s.fuses := rfl
@[simp] theorem State.modOutLine_flash (n : Nat) (f : EvtOutLine → EvtOutLine) : (s.modOutLine n f).flash = s.flash := rfl
@[simp] theorem State.modOutLine_boot (n : Nat) (f : EvtOutLine → EvtOutLine) : (s.modOutLine n f).boot = s.boot := rfl
@[simp] theorem State.modOutLine_kpr (n : Nat) (f : EvtOutLine → EvtOutLine) : (s.modOutLine n f).kpr = s.kpr := rfl

@[simp] theorem State.modChan_pending (n : Nat) (f : DramChan → DramChan) : (s.modChan n f).pending = s.pending := rfl
@[simp] theorem State.modChan_out (n : Nat) (f : DramChan → DramChan) : (s.modChan n f).out = s.out := rfl
@[simp] theorem State.modChan_latches (n : Nat) (f : DramChan → DramChan) : (s.modChan n f).latches = s.latches := rfl
@[simp] theorem State.modChan_heldLow (n : Nat) (f : DramChan → DramChan) : (s.modChan n f).heldLow = s.heldLow := rfl
@[simp] theorem State.modChan_sels (n : Nat) (f : DramChan → DramChan) : (s.modChan n f).sels = s.sels := rfl
@[simp] theorem State.modChan_ports (n : Nat) (f : DramChan → DramChan) : (s.modChan n f).ports = s.ports := rfl
@[simp] theorem State.modChan_push (n : Nat) (f : DramChan → DramChan) : (s.modChan n f).push = s.push := rfl
@[simp] theorem State.modChan_fusions (n : Nat) (f : DramChan → DramChan) : (s.modChan n f).fusions = s.fusions := rfl
@[simp] theorem State.modChan_evt (n : Nat) (f : DramChan → DramChan) : (s.modChan n f).evt = s.evt := rfl
@[simp] theorem State.modChan_slots (n : Nat) (f : DramChan → DramChan) : (s.modChan n f).slots = s.slots := rfl
@[simp] theorem State.modChan_engines (n : Nat) (f : DramChan → DramChan) : (s.modChan n f).engines = s.engines := rfl
@[simp] theorem State.modChan_evid (n : Nat) (f : DramChan → DramChan) : (s.modChan n f).evid = s.evid := rfl
@[simp] theorem State.modChan_skv (n : Nat) (f : DramChan → DramChan) : (s.modChan n f).skv = s.skv := rfl
@[simp] theorem State.modChan_cores (n : Nat) (f : DramChan → DramChan) : (s.modChan n f).cores = s.cores := rfl
@[simp] theorem State.modChan_clusters (n : Nat) (f : DramChan → DramChan) : (s.modChan n f).clusters = s.clusters := rfl
@[simp] theorem State.modChan_flight (n : Nat) (f : DramChan → DramChan) : (s.modChan n f).flight = s.flight := rfl
@[simp] theorem State.modChan_work (n : Nat) (f : DramChan → DramChan) : (s.modChan n f).work = s.work := rfl
@[simp] theorem State.modChan_hostDropped (n : Nat) (f : DramChan → DramChan) : (s.modChan n f).hostDropped = s.hostDropped := rfl
@[simp] theorem State.modChan_ctxs (n : Nat) (f : DramChan → DramChan) : (s.modChan n f).ctxs = s.ctxs := rfl
@[simp] theorem State.modChan_ctxRuns (n : Nat) (f : DramChan → DramChan) : (s.modChan n f).ctxRuns = s.ctxRuns := rfl
@[simp] theorem State.modChan_readyClock (n : Nat) (f : DramChan → DramChan) : (s.modChan n f).readyClock = s.readyClock := rfl
@[simp] theorem State.modChan_stc (n : Nat) (f : DramChan → DramChan) : (s.modChan n f).stc = s.stc := rfl
@[simp] theorem State.modChan_gallery (n : Nat) (f : DramChan → DramChan) : (s.modChan n f).gallery = s.gallery := rfl
@[simp] theorem State.modChan_narr (n : Nat) (f : DramChan → DramChan) : (s.modChan n f).narr = s.narr := rfl
@[simp] theorem State.modChan_rules (n : Nat) (f : DramChan → DramChan) : (s.modChan n f).rules = s.rules := rfl
@[simp] theorem State.modChan_rings (n : Nat) (f : DramChan → DramChan) : (s.modChan n f).rings = s.rings := rfl
@[simp] theorem State.modChan_colls (n : Nat) (f : DramChan → DramChan) : (s.modChan n f).colls = s.colls := rfl
@[simp] theorem State.modChan_tkp (n : Nat) (f : DramChan → DramChan) : (s.modChan n f).tkp = s.tkp := rfl
@[simp] theorem State.modChan_rne (n : Nat) (f : DramChan → DramChan) : (s.modChan n f).rne = s.rne := rfl
@[simp] theorem State.modChan_pwr (n : Nat) (f : DramChan → DramChan) : (s.modChan n f).pwr = s.pwr := rfl
@[simp] theorem State.modChan_clk (n : Nat) (f : DramChan → DramChan) : (s.modChan n f).clk = s.clk := rfl
@[simp] theorem State.modChan_pair (n : Nat) (f : DramChan → DramChan) : (s.modChan n f).pair = s.pair := rfl
@[simp] theorem State.modChan_pairSh (n : Nat) (f : DramChan → DramChan) : (s.modChan n f).pairSh = s.pairSh := rfl
@[simp] theorem State.modChan_pci (n : Nat) (f : DramChan → DramChan) : (s.modChan n f).pci = s.pci := rfl
@[simp] theorem State.modChan_od (n : Nat) (f : DramChan → DramChan) : (s.modChan n f).od = s.od := rfl
@[simp] theorem State.modChan_fuses (n : Nat) (f : DramChan → DramChan) : (s.modChan n f).fuses = s.fuses := rfl
@[simp] theorem State.modChan_flash (n : Nat) (f : DramChan → DramChan) : (s.modChan n f).flash = s.flash := rfl
@[simp] theorem State.modChan_boot (n : Nat) (f : DramChan → DramChan) : (s.modChan n f).boot = s.boot := rfl
@[simp] theorem State.modChan_kpr (n : Nat) (f : DramChan → DramChan) : (s.modChan n f).kpr = s.kpr := rfl

@[simp] theorem State.modPage_pending (n : Nat) (f : Page → Page) : (s.modPage n f).pending = s.pending := rfl
@[simp] theorem State.modPage_out (n : Nat) (f : Page → Page) : (s.modPage n f).out = s.out := rfl
@[simp] theorem State.modPage_latches (n : Nat) (f : Page → Page) : (s.modPage n f).latches = s.latches := rfl
@[simp] theorem State.modPage_heldLow (n : Nat) (f : Page → Page) : (s.modPage n f).heldLow = s.heldLow := rfl
@[simp] theorem State.modPage_sels (n : Nat) (f : Page → Page) : (s.modPage n f).sels = s.sels := rfl
@[simp] theorem State.modPage_ports (n : Nat) (f : Page → Page) : (s.modPage n f).ports = s.ports := rfl
@[simp] theorem State.modPage_push (n : Nat) (f : Page → Page) : (s.modPage n f).push = s.push := rfl
@[simp] theorem State.modPage_fusions (n : Nat) (f : Page → Page) : (s.modPage n f).fusions = s.fusions := rfl
@[simp] theorem State.modPage_evt (n : Nat) (f : Page → Page) : (s.modPage n f).evt = s.evt := rfl
@[simp] theorem State.modPage_slots (n : Nat) (f : Page → Page) : (s.modPage n f).slots = s.slots := rfl
@[simp] theorem State.modPage_engines (n : Nat) (f : Page → Page) : (s.modPage n f).engines = s.engines := rfl
@[simp] theorem State.modPage_evid (n : Nat) (f : Page → Page) : (s.modPage n f).evid = s.evid := rfl
@[simp] theorem State.modPage_skv (n : Nat) (f : Page → Page) : (s.modPage n f).skv = s.skv := rfl
@[simp] theorem State.modPage_cores (n : Nat) (f : Page → Page) : (s.modPage n f).cores = s.cores := rfl
@[simp] theorem State.modPage_clusters (n : Nat) (f : Page → Page) : (s.modPage n f).clusters = s.clusters := rfl
@[simp] theorem State.modPage_flight (n : Nat) (f : Page → Page) : (s.modPage n f).flight = s.flight := rfl
@[simp] theorem State.modPage_work (n : Nat) (f : Page → Page) : (s.modPage n f).work = s.work := rfl
@[simp] theorem State.modPage_hostDropped (n : Nat) (f : Page → Page) : (s.modPage n f).hostDropped = s.hostDropped := rfl
@[simp] theorem State.modPage_ctxs (n : Nat) (f : Page → Page) : (s.modPage n f).ctxs = s.ctxs := rfl
@[simp] theorem State.modPage_ctxRuns (n : Nat) (f : Page → Page) : (s.modPage n f).ctxRuns = s.ctxRuns := rfl
@[simp] theorem State.modPage_readyClock (n : Nat) (f : Page → Page) : (s.modPage n f).readyClock = s.readyClock := rfl
@[simp] theorem State.modPage_stc (n : Nat) (f : Page → Page) : (s.modPage n f).stc = s.stc := rfl
@[simp] theorem State.modPage_gallery (n : Nat) (f : Page → Page) : (s.modPage n f).gallery = s.gallery := rfl
@[simp] theorem State.modPage_narr (n : Nat) (f : Page → Page) : (s.modPage n f).narr = s.narr := rfl
@[simp] theorem State.modPage_rules (n : Nat) (f : Page → Page) : (s.modPage n f).rules = s.rules := rfl
@[simp] theorem State.modPage_rings (n : Nat) (f : Page → Page) : (s.modPage n f).rings = s.rings := rfl
@[simp] theorem State.modPage_colls (n : Nat) (f : Page → Page) : (s.modPage n f).colls = s.colls := rfl
@[simp] theorem State.modPage_mem (n : Nat) (f : Page → Page) : (s.modPage n f).mem = s.mem := rfl
@[simp] theorem State.modPage_rne (n : Nat) (f : Page → Page) : (s.modPage n f).rne = s.rne := rfl
@[simp] theorem State.modPage_pwr (n : Nat) (f : Page → Page) : (s.modPage n f).pwr = s.pwr := rfl
@[simp] theorem State.modPage_clk (n : Nat) (f : Page → Page) : (s.modPage n f).clk = s.clk := rfl
@[simp] theorem State.modPage_pair (n : Nat) (f : Page → Page) : (s.modPage n f).pair = s.pair := rfl
@[simp] theorem State.modPage_pairSh (n : Nat) (f : Page → Page) : (s.modPage n f).pairSh = s.pairSh := rfl
@[simp] theorem State.modPage_pci (n : Nat) (f : Page → Page) : (s.modPage n f).pci = s.pci := rfl
@[simp] theorem State.modPage_od (n : Nat) (f : Page → Page) : (s.modPage n f).od = s.od := rfl
@[simp] theorem State.modPage_fuses (n : Nat) (f : Page → Page) : (s.modPage n f).fuses = s.fuses := rfl
@[simp] theorem State.modPage_flash (n : Nat) (f : Page → Page) : (s.modPage n f).flash = s.flash := rfl
@[simp] theorem State.modPage_boot (n : Nat) (f : Page → Page) : (s.modPage n f).boot = s.boot := rfl
@[simp] theorem State.modPage_kpr (n : Nat) (f : Page → Page) : (s.modPage n f).kpr = s.kpr := rfl

@[simp] theorem State.modReserv_pending (n : Nat) (f : Reserv → Reserv) : (s.modReserv n f).pending = s.pending := rfl
@[simp] theorem State.modReserv_out (n : Nat) (f : Reserv → Reserv) : (s.modReserv n f).out = s.out := rfl
@[simp] theorem State.modReserv_latches (n : Nat) (f : Reserv → Reserv) : (s.modReserv n f).latches = s.latches := rfl
@[simp] theorem State.modReserv_heldLow (n : Nat) (f : Reserv → Reserv) : (s.modReserv n f).heldLow = s.heldLow := rfl
@[simp] theorem State.modReserv_sels (n : Nat) (f : Reserv → Reserv) : (s.modReserv n f).sels = s.sels := rfl
@[simp] theorem State.modReserv_ports (n : Nat) (f : Reserv → Reserv) : (s.modReserv n f).ports = s.ports := rfl
@[simp] theorem State.modReserv_push (n : Nat) (f : Reserv → Reserv) : (s.modReserv n f).push = s.push := rfl
@[simp] theorem State.modReserv_fusions (n : Nat) (f : Reserv → Reserv) : (s.modReserv n f).fusions = s.fusions := rfl
@[simp] theorem State.modReserv_evt (n : Nat) (f : Reserv → Reserv) : (s.modReserv n f).evt = s.evt := rfl
@[simp] theorem State.modReserv_slots (n : Nat) (f : Reserv → Reserv) : (s.modReserv n f).slots = s.slots := rfl
@[simp] theorem State.modReserv_engines (n : Nat) (f : Reserv → Reserv) : (s.modReserv n f).engines = s.engines := rfl
@[simp] theorem State.modReserv_evid (n : Nat) (f : Reserv → Reserv) : (s.modReserv n f).evid = s.evid := rfl
@[simp] theorem State.modReserv_skv (n : Nat) (f : Reserv → Reserv) : (s.modReserv n f).skv = s.skv := rfl
@[simp] theorem State.modReserv_cores (n : Nat) (f : Reserv → Reserv) : (s.modReserv n f).cores = s.cores := rfl
@[simp] theorem State.modReserv_clusters (n : Nat) (f : Reserv → Reserv) : (s.modReserv n f).clusters = s.clusters := rfl
@[simp] theorem State.modReserv_flight (n : Nat) (f : Reserv → Reserv) : (s.modReserv n f).flight = s.flight := rfl
@[simp] theorem State.modReserv_work (n : Nat) (f : Reserv → Reserv) : (s.modReserv n f).work = s.work := rfl
@[simp] theorem State.modReserv_hostDropped (n : Nat) (f : Reserv → Reserv) : (s.modReserv n f).hostDropped = s.hostDropped := rfl
@[simp] theorem State.modReserv_ctxs (n : Nat) (f : Reserv → Reserv) : (s.modReserv n f).ctxs = s.ctxs := rfl
@[simp] theorem State.modReserv_ctxRuns (n : Nat) (f : Reserv → Reserv) : (s.modReserv n f).ctxRuns = s.ctxRuns := rfl
@[simp] theorem State.modReserv_readyClock (n : Nat) (f : Reserv → Reserv) : (s.modReserv n f).readyClock = s.readyClock := rfl
@[simp] theorem State.modReserv_stc (n : Nat) (f : Reserv → Reserv) : (s.modReserv n f).stc = s.stc := rfl
@[simp] theorem State.modReserv_gallery (n : Nat) (f : Reserv → Reserv) : (s.modReserv n f).gallery = s.gallery := rfl
@[simp] theorem State.modReserv_narr (n : Nat) (f : Reserv → Reserv) : (s.modReserv n f).narr = s.narr := rfl
@[simp] theorem State.modReserv_rules (n : Nat) (f : Reserv → Reserv) : (s.modReserv n f).rules = s.rules := rfl
@[simp] theorem State.modReserv_rings (n : Nat) (f : Reserv → Reserv) : (s.modReserv n f).rings = s.rings := rfl
@[simp] theorem State.modReserv_colls (n : Nat) (f : Reserv → Reserv) : (s.modReserv n f).colls = s.colls := rfl
@[simp] theorem State.modReserv_mem (n : Nat) (f : Reserv → Reserv) : (s.modReserv n f).mem = s.mem := rfl
@[simp] theorem State.modReserv_rne (n : Nat) (f : Reserv → Reserv) : (s.modReserv n f).rne = s.rne := rfl
@[simp] theorem State.modReserv_pwr (n : Nat) (f : Reserv → Reserv) : (s.modReserv n f).pwr = s.pwr := rfl
@[simp] theorem State.modReserv_clk (n : Nat) (f : Reserv → Reserv) : (s.modReserv n f).clk = s.clk := rfl
@[simp] theorem State.modReserv_pair (n : Nat) (f : Reserv → Reserv) : (s.modReserv n f).pair = s.pair := rfl
@[simp] theorem State.modReserv_pairSh (n : Nat) (f : Reserv → Reserv) : (s.modReserv n f).pairSh = s.pairSh := rfl
@[simp] theorem State.modReserv_pci (n : Nat) (f : Reserv → Reserv) : (s.modReserv n f).pci = s.pci := rfl
@[simp] theorem State.modReserv_od (n : Nat) (f : Reserv → Reserv) : (s.modReserv n f).od = s.od := rfl
@[simp] theorem State.modReserv_fuses (n : Nat) (f : Reserv → Reserv) : (s.modReserv n f).fuses = s.fuses := rfl
@[simp] theorem State.modReserv_flash (n : Nat) (f : Reserv → Reserv) : (s.modReserv n f).flash = s.flash := rfl
@[simp] theorem State.modReserv_boot (n : Nat) (f : Reserv → Reserv) : (s.modReserv n f).boot = s.boot := rfl
@[simp] theorem State.modReserv_kpr (n : Nat) (f : Reserv → Reserv) : (s.modReserv n f).kpr = s.kpr := rfl

@[simp] theorem State.modFb_pending (n : Nat) (f : Fb → Fb) : (s.modFb n f).pending = s.pending := rfl
@[simp] theorem State.modFb_out (n : Nat) (f : Fb → Fb) : (s.modFb n f).out = s.out := rfl
@[simp] theorem State.modFb_latches (n : Nat) (f : Fb → Fb) : (s.modFb n f).latches = s.latches := rfl
@[simp] theorem State.modFb_heldLow (n : Nat) (f : Fb → Fb) : (s.modFb n f).heldLow = s.heldLow := rfl
@[simp] theorem State.modFb_sels (n : Nat) (f : Fb → Fb) : (s.modFb n f).sels = s.sels := rfl
@[simp] theorem State.modFb_ports (n : Nat) (f : Fb → Fb) : (s.modFb n f).ports = s.ports := rfl
@[simp] theorem State.modFb_push (n : Nat) (f : Fb → Fb) : (s.modFb n f).push = s.push := rfl
@[simp] theorem State.modFb_fusions (n : Nat) (f : Fb → Fb) : (s.modFb n f).fusions = s.fusions := rfl
@[simp] theorem State.modFb_evt (n : Nat) (f : Fb → Fb) : (s.modFb n f).evt = s.evt := rfl
@[simp] theorem State.modFb_slots (n : Nat) (f : Fb → Fb) : (s.modFb n f).slots = s.slots := rfl
@[simp] theorem State.modFb_engines (n : Nat) (f : Fb → Fb) : (s.modFb n f).engines = s.engines := rfl
@[simp] theorem State.modFb_evid (n : Nat) (f : Fb → Fb) : (s.modFb n f).evid = s.evid := rfl
@[simp] theorem State.modFb_skv (n : Nat) (f : Fb → Fb) : (s.modFb n f).skv = s.skv := rfl
@[simp] theorem State.modFb_cores (n : Nat) (f : Fb → Fb) : (s.modFb n f).cores = s.cores := rfl
@[simp] theorem State.modFb_clusters (n : Nat) (f : Fb → Fb) : (s.modFb n f).clusters = s.clusters := rfl
@[simp] theorem State.modFb_flight (n : Nat) (f : Fb → Fb) : (s.modFb n f).flight = s.flight := rfl
@[simp] theorem State.modFb_work (n : Nat) (f : Fb → Fb) : (s.modFb n f).work = s.work := rfl
@[simp] theorem State.modFb_hostDropped (n : Nat) (f : Fb → Fb) : (s.modFb n f).hostDropped = s.hostDropped := rfl
@[simp] theorem State.modFb_ctxs (n : Nat) (f : Fb → Fb) : (s.modFb n f).ctxs = s.ctxs := rfl
@[simp] theorem State.modFb_ctxRuns (n : Nat) (f : Fb → Fb) : (s.modFb n f).ctxRuns = s.ctxRuns := rfl
@[simp] theorem State.modFb_readyClock (n : Nat) (f : Fb → Fb) : (s.modFb n f).readyClock = s.readyClock := rfl
@[simp] theorem State.modFb_stc (n : Nat) (f : Fb → Fb) : (s.modFb n f).stc = s.stc := rfl
@[simp] theorem State.modFb_gallery (n : Nat) (f : Fb → Fb) : (s.modFb n f).gallery = s.gallery := rfl
@[simp] theorem State.modFb_narr (n : Nat) (f : Fb → Fb) : (s.modFb n f).narr = s.narr := rfl
@[simp] theorem State.modFb_rules (n : Nat) (f : Fb → Fb) : (s.modFb n f).rules = s.rules := rfl
@[simp] theorem State.modFb_rings (n : Nat) (f : Fb → Fb) : (s.modFb n f).rings = s.rings := rfl
@[simp] theorem State.modFb_colls (n : Nat) (f : Fb → Fb) : (s.modFb n f).colls = s.colls := rfl
@[simp] theorem State.modFb_mem (n : Nat) (f : Fb → Fb) : (s.modFb n f).mem = s.mem := rfl
@[simp] theorem State.modFb_rne (n : Nat) (f : Fb → Fb) : (s.modFb n f).rne = s.rne := rfl
@[simp] theorem State.modFb_pwr (n : Nat) (f : Fb → Fb) : (s.modFb n f).pwr = s.pwr := rfl
@[simp] theorem State.modFb_clk (n : Nat) (f : Fb → Fb) : (s.modFb n f).clk = s.clk := rfl
@[simp] theorem State.modFb_pair (n : Nat) (f : Fb → Fb) : (s.modFb n f).pair = s.pair := rfl
@[simp] theorem State.modFb_pairSh (n : Nat) (f : Fb → Fb) : (s.modFb n f).pairSh = s.pairSh := rfl
@[simp] theorem State.modFb_pci (n : Nat) (f : Fb → Fb) : (s.modFb n f).pci = s.pci := rfl
@[simp] theorem State.modFb_od (n : Nat) (f : Fb → Fb) : (s.modFb n f).od = s.od := rfl
@[simp] theorem State.modFb_fuses (n : Nat) (f : Fb → Fb) : (s.modFb n f).fuses = s.fuses := rfl
@[simp] theorem State.modFb_flash (n : Nat) (f : Fb → Fb) : (s.modFb n f).flash = s.flash := rfl
@[simp] theorem State.modFb_boot (n : Nat) (f : Fb → Fb) : (s.modFb n f).boot = s.boot := rfl
@[simp] theorem State.modFb_kpr (n : Nat) (f : Fb → Fb) : (s.modFb n f).kpr = s.kpr := rfl

@[simp] theorem State.modOdRoute_pending (n : Nat) (f : OdRouteSt → OdRouteSt) : (s.modOdRoute n f).pending = s.pending := rfl
@[simp] theorem State.modOdRoute_out (n : Nat) (f : OdRouteSt → OdRouteSt) : (s.modOdRoute n f).out = s.out := rfl
@[simp] theorem State.modOdRoute_latches (n : Nat) (f : OdRouteSt → OdRouteSt) : (s.modOdRoute n f).latches = s.latches := rfl
@[simp] theorem State.modOdRoute_heldLow (n : Nat) (f : OdRouteSt → OdRouteSt) : (s.modOdRoute n f).heldLow = s.heldLow := rfl
@[simp] theorem State.modOdRoute_sels (n : Nat) (f : OdRouteSt → OdRouteSt) : (s.modOdRoute n f).sels = s.sels := rfl
@[simp] theorem State.modOdRoute_ports (n : Nat) (f : OdRouteSt → OdRouteSt) : (s.modOdRoute n f).ports = s.ports := rfl
@[simp] theorem State.modOdRoute_push (n : Nat) (f : OdRouteSt → OdRouteSt) : (s.modOdRoute n f).push = s.push := rfl
@[simp] theorem State.modOdRoute_fusions (n : Nat) (f : OdRouteSt → OdRouteSt) : (s.modOdRoute n f).fusions = s.fusions := rfl
@[simp] theorem State.modOdRoute_evt (n : Nat) (f : OdRouteSt → OdRouteSt) : (s.modOdRoute n f).evt = s.evt := rfl
@[simp] theorem State.modOdRoute_slots (n : Nat) (f : OdRouteSt → OdRouteSt) : (s.modOdRoute n f).slots = s.slots := rfl
@[simp] theorem State.modOdRoute_engines (n : Nat) (f : OdRouteSt → OdRouteSt) : (s.modOdRoute n f).engines = s.engines := rfl
@[simp] theorem State.modOdRoute_evid (n : Nat) (f : OdRouteSt → OdRouteSt) : (s.modOdRoute n f).evid = s.evid := rfl
@[simp] theorem State.modOdRoute_skv (n : Nat) (f : OdRouteSt → OdRouteSt) : (s.modOdRoute n f).skv = s.skv := rfl
@[simp] theorem State.modOdRoute_cores (n : Nat) (f : OdRouteSt → OdRouteSt) : (s.modOdRoute n f).cores = s.cores := rfl
@[simp] theorem State.modOdRoute_clusters (n : Nat) (f : OdRouteSt → OdRouteSt) : (s.modOdRoute n f).clusters = s.clusters := rfl
@[simp] theorem State.modOdRoute_flight (n : Nat) (f : OdRouteSt → OdRouteSt) : (s.modOdRoute n f).flight = s.flight := rfl
@[simp] theorem State.modOdRoute_work (n : Nat) (f : OdRouteSt → OdRouteSt) : (s.modOdRoute n f).work = s.work := rfl
@[simp] theorem State.modOdRoute_hostDropped (n : Nat) (f : OdRouteSt → OdRouteSt) : (s.modOdRoute n f).hostDropped = s.hostDropped := rfl
@[simp] theorem State.modOdRoute_ctxs (n : Nat) (f : OdRouteSt → OdRouteSt) : (s.modOdRoute n f).ctxs = s.ctxs := rfl
@[simp] theorem State.modOdRoute_ctxRuns (n : Nat) (f : OdRouteSt → OdRouteSt) : (s.modOdRoute n f).ctxRuns = s.ctxRuns := rfl
@[simp] theorem State.modOdRoute_readyClock (n : Nat) (f : OdRouteSt → OdRouteSt) : (s.modOdRoute n f).readyClock = s.readyClock := rfl
@[simp] theorem State.modOdRoute_stc (n : Nat) (f : OdRouteSt → OdRouteSt) : (s.modOdRoute n f).stc = s.stc := rfl
@[simp] theorem State.modOdRoute_gallery (n : Nat) (f : OdRouteSt → OdRouteSt) : (s.modOdRoute n f).gallery = s.gallery := rfl
@[simp] theorem State.modOdRoute_narr (n : Nat) (f : OdRouteSt → OdRouteSt) : (s.modOdRoute n f).narr = s.narr := rfl
@[simp] theorem State.modOdRoute_rules (n : Nat) (f : OdRouteSt → OdRouteSt) : (s.modOdRoute n f).rules = s.rules := rfl
@[simp] theorem State.modOdRoute_rings (n : Nat) (f : OdRouteSt → OdRouteSt) : (s.modOdRoute n f).rings = s.rings := rfl
@[simp] theorem State.modOdRoute_colls (n : Nat) (f : OdRouteSt → OdRouteSt) : (s.modOdRoute n f).colls = s.colls := rfl
@[simp] theorem State.modOdRoute_mem (n : Nat) (f : OdRouteSt → OdRouteSt) : (s.modOdRoute n f).mem = s.mem := rfl
@[simp] theorem State.modOdRoute_tkp (n : Nat) (f : OdRouteSt → OdRouteSt) : (s.modOdRoute n f).tkp = s.tkp := rfl
@[simp] theorem State.modOdRoute_rne (n : Nat) (f : OdRouteSt → OdRouteSt) : (s.modOdRoute n f).rne = s.rne := rfl
@[simp] theorem State.modOdRoute_pwr (n : Nat) (f : OdRouteSt → OdRouteSt) : (s.modOdRoute n f).pwr = s.pwr := rfl
@[simp] theorem State.modOdRoute_clk (n : Nat) (f : OdRouteSt → OdRouteSt) : (s.modOdRoute n f).clk = s.clk := rfl
@[simp] theorem State.modOdRoute_pair (n : Nat) (f : OdRouteSt → OdRouteSt) : (s.modOdRoute n f).pair = s.pair := rfl
@[simp] theorem State.modOdRoute_pairSh (n : Nat) (f : OdRouteSt → OdRouteSt) : (s.modOdRoute n f).pairSh = s.pairSh := rfl
@[simp] theorem State.modOdRoute_pci (n : Nat) (f : OdRouteSt → OdRouteSt) : (s.modOdRoute n f).pci = s.pci := rfl
@[simp] theorem State.modOdRoute_fuses (n : Nat) (f : OdRouteSt → OdRouteSt) : (s.modOdRoute n f).fuses = s.fuses := rfl
@[simp] theorem State.modOdRoute_flash (n : Nat) (f : OdRouteSt → OdRouteSt) : (s.modOdRoute n f).flash = s.flash := rfl
@[simp] theorem State.modOdRoute_boot (n : Nat) (f : OdRouteSt → OdRouteSt) : (s.modOdRoute n f).boot = s.boot := rfl
@[simp] theorem State.modOdRoute_kpr (n : Nat) (f : OdRouteSt → OdRouteSt) : (s.modOdRoute n f).kpr = s.kpr := rfl

@[simp] theorem State.holdLow_pending (r : Route) (off v : Nat) : (s.holdLow r off v).pending = s.pending := rfl
@[simp] theorem State.holdLow_out (r : Route) (off v : Nat) : (s.holdLow r off v).out = s.out := rfl
@[simp] theorem State.holdLow_latches (r : Route) (off v : Nat) : (s.holdLow r off v).latches = s.latches := rfl
@[simp] theorem State.holdLow_sels (r : Route) (off v : Nat) : (s.holdLow r off v).sels = s.sels := rfl
@[simp] theorem State.holdLow_ports (r : Route) (off v : Nat) : (s.holdLow r off v).ports = s.ports := rfl
@[simp] theorem State.holdLow_push (r : Route) (off v : Nat) : (s.holdLow r off v).push = s.push := rfl
@[simp] theorem State.holdLow_fusions (r : Route) (off v : Nat) : (s.holdLow r off v).fusions = s.fusions := rfl
@[simp] theorem State.holdLow_evt (r : Route) (off v : Nat) : (s.holdLow r off v).evt = s.evt := rfl
@[simp] theorem State.holdLow_slots (r : Route) (off v : Nat) : (s.holdLow r off v).slots = s.slots := rfl
@[simp] theorem State.holdLow_engines (r : Route) (off v : Nat) : (s.holdLow r off v).engines = s.engines := rfl
@[simp] theorem State.holdLow_evid (r : Route) (off v : Nat) : (s.holdLow r off v).evid = s.evid := rfl
@[simp] theorem State.holdLow_skv (r : Route) (off v : Nat) : (s.holdLow r off v).skv = s.skv := rfl
@[simp] theorem State.holdLow_cores (r : Route) (off v : Nat) : (s.holdLow r off v).cores = s.cores := rfl
@[simp] theorem State.holdLow_clusters (r : Route) (off v : Nat) : (s.holdLow r off v).clusters = s.clusters := rfl
@[simp] theorem State.holdLow_flight (r : Route) (off v : Nat) : (s.holdLow r off v).flight = s.flight := rfl
@[simp] theorem State.holdLow_work (r : Route) (off v : Nat) : (s.holdLow r off v).work = s.work := rfl
@[simp] theorem State.holdLow_hostDropped (r : Route) (off v : Nat) : (s.holdLow r off v).hostDropped = s.hostDropped := rfl
@[simp] theorem State.holdLow_ctxs (r : Route) (off v : Nat) : (s.holdLow r off v).ctxs = s.ctxs := rfl
@[simp] theorem State.holdLow_ctxRuns (r : Route) (off v : Nat) : (s.holdLow r off v).ctxRuns = s.ctxRuns := rfl
@[simp] theorem State.holdLow_readyClock (r : Route) (off v : Nat) : (s.holdLow r off v).readyClock = s.readyClock := rfl
@[simp] theorem State.holdLow_stc (r : Route) (off v : Nat) : (s.holdLow r off v).stc = s.stc := rfl
@[simp] theorem State.holdLow_gallery (r : Route) (off v : Nat) : (s.holdLow r off v).gallery = s.gallery := rfl
@[simp] theorem State.holdLow_narr (r : Route) (off v : Nat) : (s.holdLow r off v).narr = s.narr := rfl
@[simp] theorem State.holdLow_rules (r : Route) (off v : Nat) : (s.holdLow r off v).rules = s.rules := rfl
@[simp] theorem State.holdLow_rings (r : Route) (off v : Nat) : (s.holdLow r off v).rings = s.rings := rfl
@[simp] theorem State.holdLow_colls (r : Route) (off v : Nat) : (s.holdLow r off v).colls = s.colls := rfl
@[simp] theorem State.holdLow_mem (r : Route) (off v : Nat) : (s.holdLow r off v).mem = s.mem := rfl
@[simp] theorem State.holdLow_tkp (r : Route) (off v : Nat) : (s.holdLow r off v).tkp = s.tkp := rfl
@[simp] theorem State.holdLow_rne (r : Route) (off v : Nat) : (s.holdLow r off v).rne = s.rne := rfl
@[simp] theorem State.holdLow_pwr (r : Route) (off v : Nat) : (s.holdLow r off v).pwr = s.pwr := rfl
@[simp] theorem State.holdLow_clk (r : Route) (off v : Nat) : (s.holdLow r off v).clk = s.clk := rfl
@[simp] theorem State.holdLow_pair (r : Route) (off v : Nat) : (s.holdLow r off v).pair = s.pair := rfl
@[simp] theorem State.holdLow_pairSh (r : Route) (off v : Nat) : (s.holdLow r off v).pairSh = s.pairSh := rfl
@[simp] theorem State.holdLow_pci (r : Route) (off v : Nat) : (s.holdLow r off v).pci = s.pci := rfl
@[simp] theorem State.holdLow_od (r : Route) (off v : Nat) : (s.holdLow r off v).od = s.od := rfl
@[simp] theorem State.holdLow_fuses (r : Route) (off v : Nat) : (s.holdLow r off v).fuses = s.fuses := rfl
@[simp] theorem State.holdLow_flash (r : Route) (off v : Nat) : (s.holdLow r off v).flash = s.flash := rfl
@[simp] theorem State.holdLow_boot (r : Route) (off v : Nat) : (s.holdLow r off v).boot = s.boot := rfl
@[simp] theorem State.holdLow_kpr (r : Route) (off v : Nat) : (s.holdLow r off v).kpr = s.kpr := rfl

@[simp] theorem State.wrByte_pending (a : Nat) (b : Byte) : (s.wrByte a b).pending = s.pending := rfl
@[simp] theorem State.wrByte_out (a : Nat) (b : Byte) : (s.wrByte a b).out = s.out := rfl
@[simp] theorem State.wrByte_latches (a : Nat) (b : Byte) : (s.wrByte a b).latches = s.latches := rfl
@[simp] theorem State.wrByte_heldLow (a : Nat) (b : Byte) : (s.wrByte a b).heldLow = s.heldLow := rfl
@[simp] theorem State.wrByte_sels (a : Nat) (b : Byte) : (s.wrByte a b).sels = s.sels := rfl
@[simp] theorem State.wrByte_ports (a : Nat) (b : Byte) : (s.wrByte a b).ports = s.ports := rfl
@[simp] theorem State.wrByte_push (a : Nat) (b : Byte) : (s.wrByte a b).push = s.push := rfl
@[simp] theorem State.wrByte_fusions (a : Nat) (b : Byte) : (s.wrByte a b).fusions = s.fusions := rfl
@[simp] theorem State.wrByte_evt (a : Nat) (b : Byte) : (s.wrByte a b).evt = s.evt := rfl
@[simp] theorem State.wrByte_slots (a : Nat) (b : Byte) : (s.wrByte a b).slots = s.slots := rfl
@[simp] theorem State.wrByte_engines (a : Nat) (b : Byte) : (s.wrByte a b).engines = s.engines := rfl
@[simp] theorem State.wrByte_evid (a : Nat) (b : Byte) : (s.wrByte a b).evid = s.evid := rfl
@[simp] theorem State.wrByte_skv (a : Nat) (b : Byte) : (s.wrByte a b).skv = s.skv := rfl
@[simp] theorem State.wrByte_cores (a : Nat) (b : Byte) : (s.wrByte a b).cores = s.cores := rfl
@[simp] theorem State.wrByte_clusters (a : Nat) (b : Byte) : (s.wrByte a b).clusters = s.clusters := rfl
@[simp] theorem State.wrByte_flight (a : Nat) (b : Byte) : (s.wrByte a b).flight = s.flight := rfl
@[simp] theorem State.wrByte_work (a : Nat) (b : Byte) : (s.wrByte a b).work = s.work := rfl
@[simp] theorem State.wrByte_hostDropped (a : Nat) (b : Byte) : (s.wrByte a b).hostDropped = s.hostDropped := rfl
@[simp] theorem State.wrByte_ctxs (a : Nat) (b : Byte) : (s.wrByte a b).ctxs = s.ctxs := rfl
@[simp] theorem State.wrByte_ctxRuns (a : Nat) (b : Byte) : (s.wrByte a b).ctxRuns = s.ctxRuns := rfl
@[simp] theorem State.wrByte_readyClock (a : Nat) (b : Byte) : (s.wrByte a b).readyClock = s.readyClock := rfl
@[simp] theorem State.wrByte_stc (a : Nat) (b : Byte) : (s.wrByte a b).stc = s.stc := rfl
@[simp] theorem State.wrByte_gallery (a : Nat) (b : Byte) : (s.wrByte a b).gallery = s.gallery := rfl
@[simp] theorem State.wrByte_narr (a : Nat) (b : Byte) : (s.wrByte a b).narr = s.narr := rfl
@[simp] theorem State.wrByte_rules (a : Nat) (b : Byte) : (s.wrByte a b).rules = s.rules := rfl
@[simp] theorem State.wrByte_rings (a : Nat) (b : Byte) : (s.wrByte a b).rings = s.rings := rfl
@[simp] theorem State.wrByte_colls (a : Nat) (b : Byte) : (s.wrByte a b).colls = s.colls := rfl
@[simp] theorem State.wrByte_tkp (a : Nat) (b : Byte) : (s.wrByte a b).tkp = s.tkp := rfl
@[simp] theorem State.wrByte_rne (a : Nat) (b : Byte) : (s.wrByte a b).rne = s.rne := rfl
@[simp] theorem State.wrByte_pwr (a : Nat) (b : Byte) : (s.wrByte a b).pwr = s.pwr := rfl
@[simp] theorem State.wrByte_clk (a : Nat) (b : Byte) : (s.wrByte a b).clk = s.clk := rfl
@[simp] theorem State.wrByte_pair (a : Nat) (b : Byte) : (s.wrByte a b).pair = s.pair := rfl
@[simp] theorem State.wrByte_pairSh (a : Nat) (b : Byte) : (s.wrByte a b).pairSh = s.pairSh := rfl
@[simp] theorem State.wrByte_pci (a : Nat) (b : Byte) : (s.wrByte a b).pci = s.pci := rfl
@[simp] theorem State.wrByte_od (a : Nat) (b : Byte) : (s.wrByte a b).od = s.od := rfl
@[simp] theorem State.wrByte_fuses (a : Nat) (b : Byte) : (s.wrByte a b).fuses = s.fuses := rfl
@[simp] theorem State.wrByte_flash (a : Nat) (b : Byte) : (s.wrByte a b).flash = s.flash := rfl
@[simp] theorem State.wrByte_boot (a : Nat) (b : Byte) : (s.wrByte a b).boot = s.boot := rfl
@[simp] theorem State.wrByte_kpr (a : Nat) (b : Byte) : (s.wrByte a b).kpr = s.kpr := rfl

@[simp] theorem State.wrBytes_pending (a : Nat) (bs : List Byte) : (s.wrBytes a bs).pending = s.pending := rfl
@[simp] theorem State.wrBytes_out (a : Nat) (bs : List Byte) : (s.wrBytes a bs).out = s.out := rfl
@[simp] theorem State.wrBytes_latches (a : Nat) (bs : List Byte) : (s.wrBytes a bs).latches = s.latches := rfl
@[simp] theorem State.wrBytes_heldLow (a : Nat) (bs : List Byte) : (s.wrBytes a bs).heldLow = s.heldLow := rfl
@[simp] theorem State.wrBytes_sels (a : Nat) (bs : List Byte) : (s.wrBytes a bs).sels = s.sels := rfl
@[simp] theorem State.wrBytes_ports (a : Nat) (bs : List Byte) : (s.wrBytes a bs).ports = s.ports := rfl
@[simp] theorem State.wrBytes_push (a : Nat) (bs : List Byte) : (s.wrBytes a bs).push = s.push := rfl
@[simp] theorem State.wrBytes_fusions (a : Nat) (bs : List Byte) : (s.wrBytes a bs).fusions = s.fusions := rfl
@[simp] theorem State.wrBytes_evt (a : Nat) (bs : List Byte) : (s.wrBytes a bs).evt = s.evt := rfl
@[simp] theorem State.wrBytes_slots (a : Nat) (bs : List Byte) : (s.wrBytes a bs).slots = s.slots := rfl
@[simp] theorem State.wrBytes_engines (a : Nat) (bs : List Byte) : (s.wrBytes a bs).engines = s.engines := rfl
@[simp] theorem State.wrBytes_evid (a : Nat) (bs : List Byte) : (s.wrBytes a bs).evid = s.evid := rfl
@[simp] theorem State.wrBytes_skv (a : Nat) (bs : List Byte) : (s.wrBytes a bs).skv = s.skv := rfl
@[simp] theorem State.wrBytes_cores (a : Nat) (bs : List Byte) : (s.wrBytes a bs).cores = s.cores := rfl
@[simp] theorem State.wrBytes_clusters (a : Nat) (bs : List Byte) : (s.wrBytes a bs).clusters = s.clusters := rfl
@[simp] theorem State.wrBytes_flight (a : Nat) (bs : List Byte) : (s.wrBytes a bs).flight = s.flight := rfl
@[simp] theorem State.wrBytes_work (a : Nat) (bs : List Byte) : (s.wrBytes a bs).work = s.work := rfl
@[simp] theorem State.wrBytes_hostDropped (a : Nat) (bs : List Byte) : (s.wrBytes a bs).hostDropped = s.hostDropped := rfl
@[simp] theorem State.wrBytes_ctxs (a : Nat) (bs : List Byte) : (s.wrBytes a bs).ctxs = s.ctxs := rfl
@[simp] theorem State.wrBytes_ctxRuns (a : Nat) (bs : List Byte) : (s.wrBytes a bs).ctxRuns = s.ctxRuns := rfl
@[simp] theorem State.wrBytes_readyClock (a : Nat) (bs : List Byte) : (s.wrBytes a bs).readyClock = s.readyClock := rfl
@[simp] theorem State.wrBytes_stc (a : Nat) (bs : List Byte) : (s.wrBytes a bs).stc = s.stc := rfl
@[simp] theorem State.wrBytes_gallery (a : Nat) (bs : List Byte) : (s.wrBytes a bs).gallery = s.gallery := rfl
@[simp] theorem State.wrBytes_narr (a : Nat) (bs : List Byte) : (s.wrBytes a bs).narr = s.narr := rfl
@[simp] theorem State.wrBytes_rules (a : Nat) (bs : List Byte) : (s.wrBytes a bs).rules = s.rules := rfl
@[simp] theorem State.wrBytes_rings (a : Nat) (bs : List Byte) : (s.wrBytes a bs).rings = s.rings := rfl
@[simp] theorem State.wrBytes_colls (a : Nat) (bs : List Byte) : (s.wrBytes a bs).colls = s.colls := rfl
@[simp] theorem State.wrBytes_tkp (a : Nat) (bs : List Byte) : (s.wrBytes a bs).tkp = s.tkp := rfl
@[simp] theorem State.wrBytes_rne (a : Nat) (bs : List Byte) : (s.wrBytes a bs).rne = s.rne := rfl
@[simp] theorem State.wrBytes_pwr (a : Nat) (bs : List Byte) : (s.wrBytes a bs).pwr = s.pwr := rfl
@[simp] theorem State.wrBytes_clk (a : Nat) (bs : List Byte) : (s.wrBytes a bs).clk = s.clk := rfl
@[simp] theorem State.wrBytes_pair (a : Nat) (bs : List Byte) : (s.wrBytes a bs).pair = s.pair := rfl
@[simp] theorem State.wrBytes_pairSh (a : Nat) (bs : List Byte) : (s.wrBytes a bs).pairSh = s.pairSh := rfl
@[simp] theorem State.wrBytes_pci (a : Nat) (bs : List Byte) : (s.wrBytes a bs).pci = s.pci := rfl
@[simp] theorem State.wrBytes_od (a : Nat) (bs : List Byte) : (s.wrBytes a bs).od = s.od := rfl
@[simp] theorem State.wrBytes_fuses (a : Nat) (bs : List Byte) : (s.wrBytes a bs).fuses = s.fuses := rfl
@[simp] theorem State.wrBytes_flash (a : Nat) (bs : List Byte) : (s.wrBytes a bs).flash = s.flash := rfl
@[simp] theorem State.wrBytes_boot (a : Nat) (bs : List Byte) : (s.wrBytes a bs).boot = s.boot := rfl
@[simp] theorem State.wrBytes_kpr (a : Nat) (bs : List Byte) : (s.wrBytes a bs).kpr = s.kpr := rfl

@[simp] theorem State.zero_pending (a n : Nat) : (s.zero a n).pending = s.pending := rfl
@[simp] theorem State.zero_out (a n : Nat) : (s.zero a n).out = s.out := rfl
@[simp] theorem State.zero_latches (a n : Nat) : (s.zero a n).latches = s.latches := rfl
@[simp] theorem State.zero_heldLow (a n : Nat) : (s.zero a n).heldLow = s.heldLow := rfl
@[simp] theorem State.zero_sels (a n : Nat) : (s.zero a n).sels = s.sels := rfl
@[simp] theorem State.zero_ports (a n : Nat) : (s.zero a n).ports = s.ports := rfl
@[simp] theorem State.zero_push (a n : Nat) : (s.zero a n).push = s.push := rfl
@[simp] theorem State.zero_fusions (a n : Nat) : (s.zero a n).fusions = s.fusions := rfl
@[simp] theorem State.zero_evt (a n : Nat) : (s.zero a n).evt = s.evt := rfl
@[simp] theorem State.zero_slots (a n : Nat) : (s.zero a n).slots = s.slots := rfl
@[simp] theorem State.zero_engines (a n : Nat) : (s.zero a n).engines = s.engines := rfl
@[simp] theorem State.zero_evid (a n : Nat) : (s.zero a n).evid = s.evid := rfl
@[simp] theorem State.zero_skv (a n : Nat) : (s.zero a n).skv = s.skv := rfl
@[simp] theorem State.zero_cores (a n : Nat) : (s.zero a n).cores = s.cores := rfl
@[simp] theorem State.zero_clusters (a n : Nat) : (s.zero a n).clusters = s.clusters := rfl
@[simp] theorem State.zero_flight (a n : Nat) : (s.zero a n).flight = s.flight := rfl
@[simp] theorem State.zero_work (a n : Nat) : (s.zero a n).work = s.work := rfl
@[simp] theorem State.zero_hostDropped (a n : Nat) : (s.zero a n).hostDropped = s.hostDropped := rfl
@[simp] theorem State.zero_ctxs (a n : Nat) : (s.zero a n).ctxs = s.ctxs := rfl
@[simp] theorem State.zero_ctxRuns (a n : Nat) : (s.zero a n).ctxRuns = s.ctxRuns := rfl
@[simp] theorem State.zero_readyClock (a n : Nat) : (s.zero a n).readyClock = s.readyClock := rfl
@[simp] theorem State.zero_stc (a n : Nat) : (s.zero a n).stc = s.stc := rfl
@[simp] theorem State.zero_gallery (a n : Nat) : (s.zero a n).gallery = s.gallery := rfl
@[simp] theorem State.zero_narr (a n : Nat) : (s.zero a n).narr = s.narr := rfl
@[simp] theorem State.zero_rules (a n : Nat) : (s.zero a n).rules = s.rules := rfl
@[simp] theorem State.zero_rings (a n : Nat) : (s.zero a n).rings = s.rings := rfl
@[simp] theorem State.zero_colls (a n : Nat) : (s.zero a n).colls = s.colls := rfl
@[simp] theorem State.zero_tkp (a n : Nat) : (s.zero a n).tkp = s.tkp := rfl
@[simp] theorem State.zero_rne (a n : Nat) : (s.zero a n).rne = s.rne := rfl
@[simp] theorem State.zero_pwr (a n : Nat) : (s.zero a n).pwr = s.pwr := rfl
@[simp] theorem State.zero_clk (a n : Nat) : (s.zero a n).clk = s.clk := rfl
@[simp] theorem State.zero_pair (a n : Nat) : (s.zero a n).pair = s.pair := rfl
@[simp] theorem State.zero_pairSh (a n : Nat) : (s.zero a n).pairSh = s.pairSh := rfl
@[simp] theorem State.zero_pci (a n : Nat) : (s.zero a n).pci = s.pci := rfl
@[simp] theorem State.zero_od (a n : Nat) : (s.zero a n).od = s.od := rfl
@[simp] theorem State.zero_fuses (a n : Nat) : (s.zero a n).fuses = s.fuses := rfl
@[simp] theorem State.zero_flash (a n : Nat) : (s.zero a n).flash = s.flash := rfl
@[simp] theorem State.zero_boot (a n : Nat) : (s.zero a n).boot = s.boot := rfl
@[simp] theorem State.zero_kpr (a n : Nat) : (s.zero a n).kpr = s.kpr := rfl

@[simp] theorem State.modPair_pending (f : Pair → Pair) : (s.modPair f).pending = s.pending := rfl
@[simp] theorem State.modPair_out (f : Pair → Pair) : (s.modPair f).out = s.out := rfl
@[simp] theorem State.modPair_latches (f : Pair → Pair) : (s.modPair f).latches = s.latches := rfl
@[simp] theorem State.modPair_heldLow (f : Pair → Pair) : (s.modPair f).heldLow = s.heldLow := rfl
@[simp] theorem State.modPair_sels (f : Pair → Pair) : (s.modPair f).sels = s.sels := rfl
@[simp] theorem State.modPair_ports (f : Pair → Pair) : (s.modPair f).ports = s.ports := rfl
@[simp] theorem State.modPair_push (f : Pair → Pair) : (s.modPair f).push = s.push := rfl
@[simp] theorem State.modPair_fusions (f : Pair → Pair) : (s.modPair f).fusions = s.fusions := rfl
@[simp] theorem State.modPair_evt (f : Pair → Pair) : (s.modPair f).evt = s.evt := rfl
@[simp] theorem State.modPair_slots (f : Pair → Pair) : (s.modPair f).slots = s.slots := rfl
@[simp] theorem State.modPair_engines (f : Pair → Pair) : (s.modPair f).engines = s.engines := rfl
@[simp] theorem State.modPair_evid (f : Pair → Pair) : (s.modPair f).evid = s.evid := rfl
@[simp] theorem State.modPair_skv (f : Pair → Pair) : (s.modPair f).skv = s.skv := rfl
@[simp] theorem State.modPair_cores (f : Pair → Pair) : (s.modPair f).cores = s.cores := rfl
@[simp] theorem State.modPair_clusters (f : Pair → Pair) : (s.modPair f).clusters = s.clusters := rfl
@[simp] theorem State.modPair_flight (f : Pair → Pair) : (s.modPair f).flight = s.flight := rfl
@[simp] theorem State.modPair_work (f : Pair → Pair) : (s.modPair f).work = s.work := rfl
@[simp] theorem State.modPair_hostDropped (f : Pair → Pair) : (s.modPair f).hostDropped = s.hostDropped := rfl
@[simp] theorem State.modPair_ctxs (f : Pair → Pair) : (s.modPair f).ctxs = s.ctxs := rfl
@[simp] theorem State.modPair_ctxRuns (f : Pair → Pair) : (s.modPair f).ctxRuns = s.ctxRuns := rfl
@[simp] theorem State.modPair_readyClock (f : Pair → Pair) : (s.modPair f).readyClock = s.readyClock := rfl
@[simp] theorem State.modPair_stc (f : Pair → Pair) : (s.modPair f).stc = s.stc := rfl
@[simp] theorem State.modPair_gallery (f : Pair → Pair) : (s.modPair f).gallery = s.gallery := rfl
@[simp] theorem State.modPair_narr (f : Pair → Pair) : (s.modPair f).narr = s.narr := rfl
@[simp] theorem State.modPair_rules (f : Pair → Pair) : (s.modPair f).rules = s.rules := rfl
@[simp] theorem State.modPair_rings (f : Pair → Pair) : (s.modPair f).rings = s.rings := rfl
@[simp] theorem State.modPair_colls (f : Pair → Pair) : (s.modPair f).colls = s.colls := rfl
@[simp] theorem State.modPair_mem (f : Pair → Pair) : (s.modPair f).mem = s.mem := rfl
@[simp] theorem State.modPair_tkp (f : Pair → Pair) : (s.modPair f).tkp = s.tkp := rfl
@[simp] theorem State.modPair_rne (f : Pair → Pair) : (s.modPair f).rne = s.rne := rfl
@[simp] theorem State.modPair_pwr (f : Pair → Pair) : (s.modPair f).pwr = s.pwr := rfl
@[simp] theorem State.modPair_clk (f : Pair → Pair) : (s.modPair f).clk = s.clk := rfl
@[simp] theorem State.modPair_pairSh (f : Pair → Pair) : (s.modPair f).pairSh = s.pairSh := rfl
@[simp] theorem State.modPair_pci (f : Pair → Pair) : (s.modPair f).pci = s.pci := rfl
@[simp] theorem State.modPair_od (f : Pair → Pair) : (s.modPair f).od = s.od := rfl
@[simp] theorem State.modPair_fuses (f : Pair → Pair) : (s.modPair f).fuses = s.fuses := rfl
@[simp] theorem State.modPair_flash (f : Pair → Pair) : (s.modPair f).flash = s.flash := rfl
@[simp] theorem State.modPair_boot (f : Pair → Pair) : (s.modPair f).boot = s.boot := rfl
@[simp] theorem State.modPair_kpr (f : Pair → Pair) : (s.modPair f).kpr = s.kpr := rfl

@[simp] theorem State.modPci_pending (f : Pci → Pci) : (s.modPci f).pending = s.pending := rfl
@[simp] theorem State.modPci_out (f : Pci → Pci) : (s.modPci f).out = s.out := rfl
@[simp] theorem State.modPci_latches (f : Pci → Pci) : (s.modPci f).latches = s.latches := rfl
@[simp] theorem State.modPci_heldLow (f : Pci → Pci) : (s.modPci f).heldLow = s.heldLow := rfl
@[simp] theorem State.modPci_sels (f : Pci → Pci) : (s.modPci f).sels = s.sels := rfl
@[simp] theorem State.modPci_ports (f : Pci → Pci) : (s.modPci f).ports = s.ports := rfl
@[simp] theorem State.modPci_push (f : Pci → Pci) : (s.modPci f).push = s.push := rfl
@[simp] theorem State.modPci_fusions (f : Pci → Pci) : (s.modPci f).fusions = s.fusions := rfl
@[simp] theorem State.modPci_evt (f : Pci → Pci) : (s.modPci f).evt = s.evt := rfl
@[simp] theorem State.modPci_slots (f : Pci → Pci) : (s.modPci f).slots = s.slots := rfl
@[simp] theorem State.modPci_engines (f : Pci → Pci) : (s.modPci f).engines = s.engines := rfl
@[simp] theorem State.modPci_evid (f : Pci → Pci) : (s.modPci f).evid = s.evid := rfl
@[simp] theorem State.modPci_skv (f : Pci → Pci) : (s.modPci f).skv = s.skv := rfl
@[simp] theorem State.modPci_cores (f : Pci → Pci) : (s.modPci f).cores = s.cores := rfl
@[simp] theorem State.modPci_clusters (f : Pci → Pci) : (s.modPci f).clusters = s.clusters := rfl
@[simp] theorem State.modPci_flight (f : Pci → Pci) : (s.modPci f).flight = s.flight := rfl
@[simp] theorem State.modPci_work (f : Pci → Pci) : (s.modPci f).work = s.work := rfl
@[simp] theorem State.modPci_hostDropped (f : Pci → Pci) : (s.modPci f).hostDropped = s.hostDropped := rfl
@[simp] theorem State.modPci_ctxs (f : Pci → Pci) : (s.modPci f).ctxs = s.ctxs := rfl
@[simp] theorem State.modPci_ctxRuns (f : Pci → Pci) : (s.modPci f).ctxRuns = s.ctxRuns := rfl
@[simp] theorem State.modPci_readyClock (f : Pci → Pci) : (s.modPci f).readyClock = s.readyClock := rfl
@[simp] theorem State.modPci_stc (f : Pci → Pci) : (s.modPci f).stc = s.stc := rfl
@[simp] theorem State.modPci_gallery (f : Pci → Pci) : (s.modPci f).gallery = s.gallery := rfl
@[simp] theorem State.modPci_narr (f : Pci → Pci) : (s.modPci f).narr = s.narr := rfl
@[simp] theorem State.modPci_rules (f : Pci → Pci) : (s.modPci f).rules = s.rules := rfl
@[simp] theorem State.modPci_rings (f : Pci → Pci) : (s.modPci f).rings = s.rings := rfl
@[simp] theorem State.modPci_colls (f : Pci → Pci) : (s.modPci f).colls = s.colls := rfl
@[simp] theorem State.modPci_mem (f : Pci → Pci) : (s.modPci f).mem = s.mem := rfl
@[simp] theorem State.modPci_tkp (f : Pci → Pci) : (s.modPci f).tkp = s.tkp := rfl
@[simp] theorem State.modPci_rne (f : Pci → Pci) : (s.modPci f).rne = s.rne := rfl
@[simp] theorem State.modPci_pwr (f : Pci → Pci) : (s.modPci f).pwr = s.pwr := rfl
@[simp] theorem State.modPci_clk (f : Pci → Pci) : (s.modPci f).clk = s.clk := rfl
@[simp] theorem State.modPci_pair (f : Pci → Pci) : (s.modPci f).pair = s.pair := rfl
@[simp] theorem State.modPci_pairSh (f : Pci → Pci) : (s.modPci f).pairSh = s.pairSh := rfl
@[simp] theorem State.modPci_od (f : Pci → Pci) : (s.modPci f).od = s.od := rfl
@[simp] theorem State.modPci_fuses (f : Pci → Pci) : (s.modPci f).fuses = s.fuses := rfl
@[simp] theorem State.modPci_flash (f : Pci → Pci) : (s.modPci f).flash = s.flash := rfl
@[simp] theorem State.modPci_boot (f : Pci → Pci) : (s.modPci f).boot = s.boot := rfl
@[simp] theorem State.modPci_kpr (f : Pci → Pci) : (s.modPci f).kpr = s.kpr := rfl

@[simp] theorem State.modRne_pending (f : Rne → Rne) : (s.modRne f).pending = s.pending := rfl
@[simp] theorem State.modRne_out (f : Rne → Rne) : (s.modRne f).out = s.out := rfl
@[simp] theorem State.modRne_latches (f : Rne → Rne) : (s.modRne f).latches = s.latches := rfl
@[simp] theorem State.modRne_heldLow (f : Rne → Rne) : (s.modRne f).heldLow = s.heldLow := rfl
@[simp] theorem State.modRne_sels (f : Rne → Rne) : (s.modRne f).sels = s.sels := rfl
@[simp] theorem State.modRne_ports (f : Rne → Rne) : (s.modRne f).ports = s.ports := rfl
@[simp] theorem State.modRne_push (f : Rne → Rne) : (s.modRne f).push = s.push := rfl
@[simp] theorem State.modRne_fusions (f : Rne → Rne) : (s.modRne f).fusions = s.fusions := rfl
@[simp] theorem State.modRne_evt (f : Rne → Rne) : (s.modRne f).evt = s.evt := rfl
@[simp] theorem State.modRne_slots (f : Rne → Rne) : (s.modRne f).slots = s.slots := rfl
@[simp] theorem State.modRne_engines (f : Rne → Rne) : (s.modRne f).engines = s.engines := rfl
@[simp] theorem State.modRne_evid (f : Rne → Rne) : (s.modRne f).evid = s.evid := rfl
@[simp] theorem State.modRne_skv (f : Rne → Rne) : (s.modRne f).skv = s.skv := rfl
@[simp] theorem State.modRne_cores (f : Rne → Rne) : (s.modRne f).cores = s.cores := rfl
@[simp] theorem State.modRne_clusters (f : Rne → Rne) : (s.modRne f).clusters = s.clusters := rfl
@[simp] theorem State.modRne_flight (f : Rne → Rne) : (s.modRne f).flight = s.flight := rfl
@[simp] theorem State.modRne_work (f : Rne → Rne) : (s.modRne f).work = s.work := rfl
@[simp] theorem State.modRne_hostDropped (f : Rne → Rne) : (s.modRne f).hostDropped = s.hostDropped := rfl
@[simp] theorem State.modRne_ctxs (f : Rne → Rne) : (s.modRne f).ctxs = s.ctxs := rfl
@[simp] theorem State.modRne_ctxRuns (f : Rne → Rne) : (s.modRne f).ctxRuns = s.ctxRuns := rfl
@[simp] theorem State.modRne_readyClock (f : Rne → Rne) : (s.modRne f).readyClock = s.readyClock := rfl
@[simp] theorem State.modRne_stc (f : Rne → Rne) : (s.modRne f).stc = s.stc := rfl
@[simp] theorem State.modRne_gallery (f : Rne → Rne) : (s.modRne f).gallery = s.gallery := rfl
@[simp] theorem State.modRne_narr (f : Rne → Rne) : (s.modRne f).narr = s.narr := rfl
@[simp] theorem State.modRne_rules (f : Rne → Rne) : (s.modRne f).rules = s.rules := rfl
@[simp] theorem State.modRne_rings (f : Rne → Rne) : (s.modRne f).rings = s.rings := rfl
@[simp] theorem State.modRne_colls (f : Rne → Rne) : (s.modRne f).colls = s.colls := rfl
@[simp] theorem State.modRne_mem (f : Rne → Rne) : (s.modRne f).mem = s.mem := rfl
@[simp] theorem State.modRne_tkp (f : Rne → Rne) : (s.modRne f).tkp = s.tkp := rfl
@[simp] theorem State.modRne_pwr (f : Rne → Rne) : (s.modRne f).pwr = s.pwr := rfl
@[simp] theorem State.modRne_clk (f : Rne → Rne) : (s.modRne f).clk = s.clk := rfl
@[simp] theorem State.modRne_pair (f : Rne → Rne) : (s.modRne f).pair = s.pair := rfl
@[simp] theorem State.modRne_pairSh (f : Rne → Rne) : (s.modRne f).pairSh = s.pairSh := rfl
@[simp] theorem State.modRne_pci (f : Rne → Rne) : (s.modRne f).pci = s.pci := rfl
@[simp] theorem State.modRne_od (f : Rne → Rne) : (s.modRne f).od = s.od := rfl
@[simp] theorem State.modRne_fuses (f : Rne → Rne) : (s.modRne f).fuses = s.fuses := rfl
@[simp] theorem State.modRne_flash (f : Rne → Rne) : (s.modRne f).flash = s.flash := rfl
@[simp] theorem State.modRne_boot (f : Rne → Rne) : (s.modRne f).boot = s.boot := rfl
@[simp] theorem State.modRne_kpr (f : Rne → Rne) : (s.modRne f).kpr = s.kpr := rfl

@[simp] theorem State.modPwr_pending (f : Pwr → Pwr) : (s.modPwr f).pending = s.pending := rfl
@[simp] theorem State.modPwr_out (f : Pwr → Pwr) : (s.modPwr f).out = s.out := rfl
@[simp] theorem State.modPwr_latches (f : Pwr → Pwr) : (s.modPwr f).latches = s.latches := rfl
@[simp] theorem State.modPwr_heldLow (f : Pwr → Pwr) : (s.modPwr f).heldLow = s.heldLow := rfl
@[simp] theorem State.modPwr_sels (f : Pwr → Pwr) : (s.modPwr f).sels = s.sels := rfl
@[simp] theorem State.modPwr_ports (f : Pwr → Pwr) : (s.modPwr f).ports = s.ports := rfl
@[simp] theorem State.modPwr_push (f : Pwr → Pwr) : (s.modPwr f).push = s.push := rfl
@[simp] theorem State.modPwr_fusions (f : Pwr → Pwr) : (s.modPwr f).fusions = s.fusions := rfl
@[simp] theorem State.modPwr_evt (f : Pwr → Pwr) : (s.modPwr f).evt = s.evt := rfl
@[simp] theorem State.modPwr_slots (f : Pwr → Pwr) : (s.modPwr f).slots = s.slots := rfl
@[simp] theorem State.modPwr_engines (f : Pwr → Pwr) : (s.modPwr f).engines = s.engines := rfl
@[simp] theorem State.modPwr_evid (f : Pwr → Pwr) : (s.modPwr f).evid = s.evid := rfl
@[simp] theorem State.modPwr_skv (f : Pwr → Pwr) : (s.modPwr f).skv = s.skv := rfl
@[simp] theorem State.modPwr_cores (f : Pwr → Pwr) : (s.modPwr f).cores = s.cores := rfl
@[simp] theorem State.modPwr_clusters (f : Pwr → Pwr) : (s.modPwr f).clusters = s.clusters := rfl
@[simp] theorem State.modPwr_flight (f : Pwr → Pwr) : (s.modPwr f).flight = s.flight := rfl
@[simp] theorem State.modPwr_work (f : Pwr → Pwr) : (s.modPwr f).work = s.work := rfl
@[simp] theorem State.modPwr_hostDropped (f : Pwr → Pwr) : (s.modPwr f).hostDropped = s.hostDropped := rfl
@[simp] theorem State.modPwr_ctxs (f : Pwr → Pwr) : (s.modPwr f).ctxs = s.ctxs := rfl
@[simp] theorem State.modPwr_ctxRuns (f : Pwr → Pwr) : (s.modPwr f).ctxRuns = s.ctxRuns := rfl
@[simp] theorem State.modPwr_readyClock (f : Pwr → Pwr) : (s.modPwr f).readyClock = s.readyClock := rfl
@[simp] theorem State.modPwr_stc (f : Pwr → Pwr) : (s.modPwr f).stc = s.stc := rfl
@[simp] theorem State.modPwr_gallery (f : Pwr → Pwr) : (s.modPwr f).gallery = s.gallery := rfl
@[simp] theorem State.modPwr_narr (f : Pwr → Pwr) : (s.modPwr f).narr = s.narr := rfl
@[simp] theorem State.modPwr_rules (f : Pwr → Pwr) : (s.modPwr f).rules = s.rules := rfl
@[simp] theorem State.modPwr_rings (f : Pwr → Pwr) : (s.modPwr f).rings = s.rings := rfl
@[simp] theorem State.modPwr_colls (f : Pwr → Pwr) : (s.modPwr f).colls = s.colls := rfl
@[simp] theorem State.modPwr_mem (f : Pwr → Pwr) : (s.modPwr f).mem = s.mem := rfl
@[simp] theorem State.modPwr_tkp (f : Pwr → Pwr) : (s.modPwr f).tkp = s.tkp := rfl
@[simp] theorem State.modPwr_rne (f : Pwr → Pwr) : (s.modPwr f).rne = s.rne := rfl
@[simp] theorem State.modPwr_clk (f : Pwr → Pwr) : (s.modPwr f).clk = s.clk := rfl
@[simp] theorem State.modPwr_pair (f : Pwr → Pwr) : (s.modPwr f).pair = s.pair := rfl
@[simp] theorem State.modPwr_pairSh (f : Pwr → Pwr) : (s.modPwr f).pairSh = s.pairSh := rfl
@[simp] theorem State.modPwr_pci (f : Pwr → Pwr) : (s.modPwr f).pci = s.pci := rfl
@[simp] theorem State.modPwr_od (f : Pwr → Pwr) : (s.modPwr f).od = s.od := rfl
@[simp] theorem State.modPwr_fuses (f : Pwr → Pwr) : (s.modPwr f).fuses = s.fuses := rfl
@[simp] theorem State.modPwr_flash (f : Pwr → Pwr) : (s.modPwr f).flash = s.flash := rfl
@[simp] theorem State.modPwr_boot (f : Pwr → Pwr) : (s.modPwr f).boot = s.boot := rfl
@[simp] theorem State.modPwr_kpr (f : Pwr → Pwr) : (s.modPwr f).kpr = s.kpr := rfl

@[simp] theorem State.modBoot_pending (f : Boot → Boot) : (s.modBoot f).pending = s.pending := rfl
@[simp] theorem State.modBoot_out (f : Boot → Boot) : (s.modBoot f).out = s.out := rfl
@[simp] theorem State.modBoot_latches (f : Boot → Boot) : (s.modBoot f).latches = s.latches := rfl
@[simp] theorem State.modBoot_heldLow (f : Boot → Boot) : (s.modBoot f).heldLow = s.heldLow := rfl
@[simp] theorem State.modBoot_sels (f : Boot → Boot) : (s.modBoot f).sels = s.sels := rfl
@[simp] theorem State.modBoot_ports (f : Boot → Boot) : (s.modBoot f).ports = s.ports := rfl
@[simp] theorem State.modBoot_push (f : Boot → Boot) : (s.modBoot f).push = s.push := rfl
@[simp] theorem State.modBoot_fusions (f : Boot → Boot) : (s.modBoot f).fusions = s.fusions := rfl
@[simp] theorem State.modBoot_evt (f : Boot → Boot) : (s.modBoot f).evt = s.evt := rfl
@[simp] theorem State.modBoot_slots (f : Boot → Boot) : (s.modBoot f).slots = s.slots := rfl
@[simp] theorem State.modBoot_engines (f : Boot → Boot) : (s.modBoot f).engines = s.engines := rfl
@[simp] theorem State.modBoot_evid (f : Boot → Boot) : (s.modBoot f).evid = s.evid := rfl
@[simp] theorem State.modBoot_skv (f : Boot → Boot) : (s.modBoot f).skv = s.skv := rfl
@[simp] theorem State.modBoot_cores (f : Boot → Boot) : (s.modBoot f).cores = s.cores := rfl
@[simp] theorem State.modBoot_clusters (f : Boot → Boot) : (s.modBoot f).clusters = s.clusters := rfl
@[simp] theorem State.modBoot_flight (f : Boot → Boot) : (s.modBoot f).flight = s.flight := rfl
@[simp] theorem State.modBoot_work (f : Boot → Boot) : (s.modBoot f).work = s.work := rfl
@[simp] theorem State.modBoot_hostDropped (f : Boot → Boot) : (s.modBoot f).hostDropped = s.hostDropped := rfl
@[simp] theorem State.modBoot_ctxs (f : Boot → Boot) : (s.modBoot f).ctxs = s.ctxs := rfl
@[simp] theorem State.modBoot_ctxRuns (f : Boot → Boot) : (s.modBoot f).ctxRuns = s.ctxRuns := rfl
@[simp] theorem State.modBoot_readyClock (f : Boot → Boot) : (s.modBoot f).readyClock = s.readyClock := rfl
@[simp] theorem State.modBoot_stc (f : Boot → Boot) : (s.modBoot f).stc = s.stc := rfl
@[simp] theorem State.modBoot_gallery (f : Boot → Boot) : (s.modBoot f).gallery = s.gallery := rfl
@[simp] theorem State.modBoot_narr (f : Boot → Boot) : (s.modBoot f).narr = s.narr := rfl
@[simp] theorem State.modBoot_rules (f : Boot → Boot) : (s.modBoot f).rules = s.rules := rfl
@[simp] theorem State.modBoot_rings (f : Boot → Boot) : (s.modBoot f).rings = s.rings := rfl
@[simp] theorem State.modBoot_colls (f : Boot → Boot) : (s.modBoot f).colls = s.colls := rfl
@[simp] theorem State.modBoot_mem (f : Boot → Boot) : (s.modBoot f).mem = s.mem := rfl
@[simp] theorem State.modBoot_tkp (f : Boot → Boot) : (s.modBoot f).tkp = s.tkp := rfl
@[simp] theorem State.modBoot_rne (f : Boot → Boot) : (s.modBoot f).rne = s.rne := rfl
@[simp] theorem State.modBoot_pwr (f : Boot → Boot) : (s.modBoot f).pwr = s.pwr := rfl
@[simp] theorem State.modBoot_clk (f : Boot → Boot) : (s.modBoot f).clk = s.clk := rfl
@[simp] theorem State.modBoot_pair (f : Boot → Boot) : (s.modBoot f).pair = s.pair := rfl
@[simp] theorem State.modBoot_pairSh (f : Boot → Boot) : (s.modBoot f).pairSh = s.pairSh := rfl
@[simp] theorem State.modBoot_pci (f : Boot → Boot) : (s.modBoot f).pci = s.pci := rfl
@[simp] theorem State.modBoot_od (f : Boot → Boot) : (s.modBoot f).od = s.od := rfl
@[simp] theorem State.modBoot_fuses (f : Boot → Boot) : (s.modBoot f).fuses = s.fuses := rfl
@[simp] theorem State.modBoot_flash (f : Boot → Boot) : (s.modBoot f).flash = s.flash := rfl
@[simp] theorem State.modBoot_kpr (f : Boot → Boot) : (s.modBoot f).kpr = s.kpr := rfl

/-! ### Fields within the memory, the page pool and the dictionary -/

@[simp] theorem State.modChan_mem_bytes (n : Nat) (f : DramChan → DramChan) : (s.modChan n f).mem.bytes = s.mem.bytes := rfl
@[simp] theorem State.modChan_mem_failing (n : Nat) (f : DramChan → DramChan) : (s.modChan n f).mem.failing = s.mem.failing := rfl
@[simp] theorem State.modChan_mem_cache (n : Nat) (f : DramChan → DramChan) : (s.modChan n f).mem.cache = s.mem.cache := rfl
@[simp] theorem State.modChan_mem_ports (n : Nat) (f : DramChan → DramChan) : (s.modChan n f).mem.ports = s.mem.ports := rfl
@[simp] theorem State.modChan_mem_cnt (n : Nat) (f : DramChan → DramChan) : (s.modChan n f).mem.cnt = s.mem.cnt := rfl
@[simp] theorem State.modChan_mem_burn (n : Nat) (f : DramChan → DramChan) : (s.modChan n f).mem.burn = s.mem.burn := rfl
@[simp] theorem State.modChan_mem_lostLines (n : Nat) (f : DramChan → DramChan) : (s.modChan n f).mem.lostLines = s.mem.lostLines := rfl
@[simp] theorem State.modChan_mem_lostDie (n : Nat) (f : DramChan → DramChan) : (s.modChan n f).mem.lostDie = s.mem.lostDie := rfl
@[simp] theorem State.modPage_tkp_res (n : Nat) (f : Page → Page) : (s.modPage n f).tkp.res = s.tkp.res := rfl
@[simp] theorem State.modPage_tkp_fbs (n : Nat) (f : Page → Page) : (s.modPage n f).tkp.fbs = s.tkp.fbs := rfl
@[simp] theorem State.modPage_tkp_lists (n : Nat) (f : Page → Page) : (s.modPage n f).tkp.lists = s.tkp.lists := rfl
@[simp] theorem State.modReserv_tkp_pages (n : Nat) (f : Reserv → Reserv) : (s.modReserv n f).tkp.pages = s.tkp.pages := rfl
@[simp] theorem State.modReserv_tkp_fbs (n : Nat) (f : Reserv → Reserv) : (s.modReserv n f).tkp.fbs = s.tkp.fbs := rfl
@[simp] theorem State.modReserv_tkp_lists (n : Nat) (f : Reserv → Reserv) : (s.modReserv n f).tkp.lists = s.tkp.lists := rfl
@[simp] theorem State.modFb_tkp_pages (n : Nat) (f : Fb → Fb) : (s.modFb n f).tkp.pages = s.tkp.pages := rfl
@[simp] theorem State.modFb_tkp_res (n : Nat) (f : Fb → Fb) : (s.modFb n f).tkp.res = s.tkp.res := rfl
@[simp] theorem State.modFb_tkp_lists (n : Nat) (f : Fb → Fb) : (s.modFb n f).tkp.lists = s.tkp.lists := rfl
@[simp] theorem State.modOdRoute_od_values (n : Nat) (f : OdRouteSt → OdRouteSt) : (s.modOdRoute n f).od.values = s.od.values := rfl
@[simp] theorem State.modOdRoute_od_stamps (n : Nat) (f : OdRouteSt → OdRouteSt) : (s.modOdRoute n f).od.stamps = s.od.stamps := rfl
@[simp] theorem State.modOdRoute_od_free (n : Nat) (f : OdRouteSt → OdRouteSt) : (s.modOdRoute n f).od.free = s.od.free := rfl
@[simp] theorem State.modOdRoute_od_lastRecord (n : Nat) (f : OdRouteSt → OdRouteSt) : (s.modOdRoute n f).od.lastRecord = s.od.lastRecord := rfl
@[simp] theorem State.modOdRoute_od_faultSeq (n : Nat) (f : OdRouteSt → OdRouteSt) : (s.modOdRoute n f).od.faultSeq = s.od.faultSeq := rfl

end Sys2Proof.Machine
end

