-- ==== Sys2Proof/Laws/Ops.lean ====
section
/-! SUPPORT. What the shared operations can do, said once: the outcome of a meaning, emissions, the records of faults and events,
and the reads and writes of memory. -/
namespace Sys2Proof.Machine
open Sys2Proof

/-! ### The outcome of a meaning -/

theorem whenUp_up {s : State} (h : s.up = true) (t : State) : whenUp s t = .next { t with pending := s.pending } := by
  simp [whenUp, h, answer]

theorem whenUp_down {s : State} (h : s.up = false) (t : State) : whenUp s t = .next s := by simp [whenUp, h]

theorem whenReady_ready {s : State} (h : s.ready = true) (t : State) : whenReady s t = .next { t with pending := s.pending } := by
  simp [whenReady, h, answer]

theorem whenReady_not {s : State} (h : s.ready = false) (t : State) : whenReady s t = .next s := by simp [whenReady, h]

theorem ready_up {s : State} (h : s.ready = true) : s.up = true := by
  simp only [State.ready, Bool.and_eq_true] at h; exact h.1

/-- A meaning in the internal clock domains leaves the queue to the commands that wait. -/
theorem whenUp_pending {s t u : State} (h : whenUp s t = .next u) : u.pending = s.pending := by
  unfold whenUp answer at h; split at h <;> (injection h with h; subst h; rfl)

theorem whenReady_pending {s t u : State} (h : whenReady s t = .next u) : u.pending = s.pending := by
  unfold whenReady answer at h; split at h <;> (injection h with h; subst h; rfl)

theorem answers_whenUp {s t : State} {c : Instr} (hc : exec c s = whenUp s t) (h : s.up = true) : Answers c s t := by
  rw [Answers, hc, whenUp_up h]

theorem answers_whenReady {s t : State} {c : Instr} (hc : exec c s = whenReady s t) (h : s.ready = true) : Answers c s t := by
  rw [Answers, hc, whenReady_ready h]

/-- What a next state satisfies is stated of the effect itself, where it does not speak of the queue. -/
theorem reaches_of_answers {s t : State} {c : Instr} {P : State → Prop} (h : Answers c s t) (hp : P { t with pending := s.pending }) :
    Reaches c s P := ⟨_, h, hp⟩

/-! ### The parts of a unit -/

@[simp] theorem State.modFusion_fusionSet (s : State) (k : Nat) (f : FusionSet → FusionSet) :
    (s.modFusion k f).fusionSet k = f (s.fusionSet k) := by simp [State.modFusion, State.fusionSet]

@[simp] theorem State.modChannel_channel (s : State) (cl m : Nat) (f : Channel → Channel) :
    (s.modChannel cl m f).channel cl m = f (s.channel cl m) := by simp [State.modChannel, State.channel]

@[simp] theorem State.modChannel_fills (s : State) (cl m : Nat) (f : Channel → Channel) :
    ((s.modChannel cl m f).cluster cl).fills = (s.cluster cl).fills := by simp [State.modChannel]

/-- The front picture of a slot after its update, and the pictures behind it as before. -/
theorem State.modFront_pics (s : State) (n : Nat) (f : Pic → Pic) {p : Pic} {t : List Pic} (h : (s.slot n).pics = p :: t) :
    ((s.modFront n f).slot n).pics = f p :: t := by simp [State.modFront, h]

/-! ### Emissions -/

theorem State.emits_eq (s : State) (os : List Out) : s.emits os = { s with out := os.reverse ++ s.out } := by
  induction os generalizing s with
  | nil => rfl
  | cons o os ih => rw [State.emits, List.foldl_cons]; exact (ih _).trans (by simp [State.emit])

/-! ### Messages, rings, collectors -/

/-- A message of a vector changes what goes out, or the pending bits. -/
theorem State.msix_frame (s : State) (v : Nat) : ∃ o b, s.msix v = { s with out := o, pci := { s.pci with pba := b } } := by
  unfold State.msix
  split
  · exact ⟨_, _, rfl⟩
  · split <;> exact ⟨_, _, rfl⟩

theorem State.devEvent_frame (s : State) (i : Nat) :
    ∃ o b e, s.devEvent i = { s with out := o, pci := { s.pci with pba := b, events := e } } := by
  unfold State.devEvent
  split
  · exact ⟨_, _, _, rfl⟩
  · obtain ⟨o, b, h⟩ := State.msix_frame { s with pci := { s.pci with events := s.pci.events + 2 ^ i } } 1
    exact ⟨o, b, _, h⟩

theorem State.ringPut_frame (s : State) (n : Nat) (bs : List Byte) :
    ∃ o r b, (s.ringPut n bs).2 = { s with out := o, rings := r, pci := { s.pci with pba := b } } := by
  unfold State.ringPut
  split
  · simp only [State.ringSignal]
    split
    · rw [State.emits_eq]
      obtain ⟨o, b, h⟩ := State.msix_frame _ _
      exact ⟨o, _, b, h⟩
    · rw [State.emits_eq]; exact ⟨_, _, _, rfl⟩
  · exact ⟨_, _, _, rfl⟩

theorem State.collAdd_frame (s : State) (k : Nat) (bs : List Byte) : ∃ o c, s.collAdd k bs = { s with out := o, colls := c } := by
  unfold State.collAdd State.collFlush State.collDatagram
  dsimp only
  split
  · split <;> exact ⟨_, _, rfl⟩
  · exact ⟨_, _, rfl⟩

theorem State.collPut_frame (s : State) (k : Nat) (bs : List Byte) : ∃ o c, (s.collPut k bs).2 = { s with out := o, colls := c } := by
  unfold State.collPut
  dsimp only
  split
  · exact ⟨_, _, rfl⟩
  · split
    · exact ⟨_, _, rfl⟩
    · split
      · obtain ⟨o, c, h⟩ := State.collAdd_frame s k (lossRecord k (s.coll k).lost (s.coll k).lostCause)
        rw [h]
        obtain ⟨o', c', h'⟩ := State.collAdd_frame
          ((({ s with out := o, colls := c } : State)).modColl k (fun c => { c with lossDue := false, lost := 0 })) k bs
        exact ⟨o', c', h'⟩
      · exact State.collAdd_frame s k bs

/-- A fault or event takes the next number, is held as the last record, and reaches ring 0 and collector 0; nothing else
changes but the messages it causes. -/
theorem State.raise_frame (s : State) (f : FaultInfo) : ∃ o r c b e, s.raise f = { s with
    out := o, rings := r, colls := c, pci := { s.pci with pba := b, events := e }
    od := { s.od with faultSeq := s.od.faultSeq + 1, lastRecord := faultRecord f s.od.faultSeq } } := by
  unfold State.raise
  dsimp only
  obtain ⟨o, r, b, h⟩ := State.ringPut_frame
    { s with od := { s.od with faultSeq := s.od.faultSeq + 1, lastRecord := faultRecord f s.od.faultSeq } } 0 (faultRecord f s.od.faultSeq)
  rw [h]
  obtain ⟨o2, c, h2⟩ := State.collPut_frame
    { s with od := { s.od with faultSeq := s.od.faultSeq + 1, lastRecord := faultRecord f s.od.faultSeq }
             out := o, rings := r, pci := { s.pci with pba := b } } 0 (faultRecord f s.od.faultSeq)
  rw [h2]
  split
  · exact ⟨o2, r, c, b, _, rfl⟩
  · obtain ⟨o3, b3, e3, h3⟩ := State.devEvent_frame
      { s with od := { s.od with faultSeq := s.od.faultSeq + 1, lastRecord := faultRecord f s.od.faultSeq }
               out := o2, rings := r, colls := c, pci := { s.pci with pba := b } } 1
    exact ⟨o3, r, c, b3, e3, h3⟩

theorem State.raise_faultSeq (s : State) (f : FaultInfo) : (s.raise f).od.faultSeq = s.od.faultSeq + 1 := by
  obtain ⟨_, _, _, _, _, h⟩ := s.raise_frame f; rw [h]

theorem State.raise_lastRecord (s : State) (f : FaultInfo) : (s.raise f).od.lastRecord = faultRecord f s.od.faultSeq := by
  obtain ⟨_, _, _, _, _, h⟩ := s.raise_frame f; rw [h]

@[simp] theorem State.raise_latches (s : State) (f : FaultInfo) : (s.raise f).latches = s.latches := by
  obtain ⟨_, _, _, _, _, h⟩ := s.raise_frame f; rw [h]
@[simp] theorem State.raise_heldLow (s : State) (f : FaultInfo) : (s.raise f).heldLow = s.heldLow := by
  obtain ⟨_, _, _, _, _, h⟩ := s.raise_frame f; rw [h]
@[simp] theorem State.raise_sels (s : State) (f : FaultInfo) : (s.raise f).sels = s.sels := by
  obtain ⟨_, _, _, _, _, h⟩ := s.raise_frame f; rw [h]
@[simp] theorem State.raise_ports (s : State) (f : FaultInfo) : (s.raise f).ports = s.ports := by
  obtain ⟨_, _, _, _, _, h⟩ := s.raise_frame f; rw [h]
@[simp] theorem State.raise_push (s : State) (f : FaultInfo) : (s.raise f).push = s.push := by
  obtain ⟨_, _, _, _, _, h⟩ := s.raise_frame f; rw [h]
@[simp] theorem State.raise_fusions (s : State) (f : FaultInfo) : (s.raise f).fusions = s.fusions := by
  obtain ⟨_, _, _, _, _, h⟩ := s.raise_frame f; rw [h]
@[simp] theorem State.raise_evt (s : State) (f : FaultInfo) : (s.raise f).evt = s.evt := by
  obtain ⟨_, _, _, _, _, h⟩ := s.raise_frame f; rw [h]
@[simp] theorem State.raise_slots (s : State) (f : FaultInfo) : (s.raise f).slots = s.slots := by
  obtain ⟨_, _, _, _, _, h⟩ := s.raise_frame f; rw [h]
@[simp] theorem State.raise_engines (s : State) (f : FaultInfo) : (s.raise f).engines = s.engines := by
  obtain ⟨_, _, _, _, _, h⟩ := s.raise_frame f; rw [h]
@[simp] theorem State.raise_evid (s : State) (f : FaultInfo) : (s.raise f).evid = s.evid := by
  obtain ⟨_, _, _, _, _, h⟩ := s.raise_frame f; rw [h]
@[simp] theorem State.raise_skv (s : State) (f : FaultInfo) : (s.raise f).skv = s.skv := by
  obtain ⟨_, _, _, _, _, h⟩ := s.raise_frame f; rw [h]
@[simp] theorem State.raise_cores (s : State) (f : FaultInfo) : (s.raise f).cores = s.cores := by
  obtain ⟨_, _, _, _, _, h⟩ := s.raise_frame f; rw [h]
@[simp] theorem State.raise_clusters (s : State) (f : FaultInfo) : (s.raise f).clusters = s.clusters := by
  obtain ⟨_, _, _, _, _, h⟩ := s.raise_frame f; rw [h]
@[simp] theorem State.raise_flight (s : State) (f : FaultInfo) : (s.raise f).flight = s.flight := by
  obtain ⟨_, _, _, _, _, h⟩ := s.raise_frame f; rw [h]
@[simp] theorem State.raise_work (s : State) (f : FaultInfo) : (s.raise f).work = s.work := by
  obtain ⟨_, _, _, _, _, h⟩ := s.raise_frame f; rw [h]
@[simp] theorem State.raise_hostDropped (s : State) (f : FaultInfo) : (s.raise f).hostDropped = s.hostDropped := by
  obtain ⟨_, _, _, _, _, h⟩ := s.raise_frame f; rw [h]
@[simp] theorem State.raise_ctxs (s : State) (f : FaultInfo) : (s.raise f).ctxs = s.ctxs := by
  obtain ⟨_, _, _, _, _, h⟩ := s.raise_frame f; rw [h]
@[simp] theorem State.raise_ctxRuns (s : State) (f : FaultInfo) : (s.raise f).ctxRuns = s.ctxRuns := by
  obtain ⟨_, _, _, _, _, h⟩ := s.raise_frame f; rw [h]
@[simp] theorem State.raise_readyClock (s : State) (f : FaultInfo) : (s.raise f).readyClock = s.readyClock := by
  obtain ⟨_, _, _, _, _, h⟩ := s.raise_frame f; rw [h]
@[simp] theorem State.raise_stc (s : State) (f : FaultInfo) : (s.raise f).stc = s.stc := by
  obtain ⟨_, _, _, _, _, h⟩ := s.raise_frame f; rw [h]
@[simp] theorem State.raise_gallery (s : State) (f : FaultInfo) : (s.raise f).gallery = s.gallery := by
  obtain ⟨_, _, _, _, _, h⟩ := s.raise_frame f; rw [h]
@[simp] theorem State.raise_narr (s : State) (f : FaultInfo) : (s.raise f).narr = s.narr := by
  obtain ⟨_, _, _, _, _, h⟩ := s.raise_frame f; rw [h]
@[simp] theorem State.raise_rules (s : State) (f : FaultInfo) : (s.raise f).rules = s.rules := by
  obtain ⟨_, _, _, _, _, h⟩ := s.raise_frame f; rw [h]
@[simp] theorem State.raise_mem (s : State) (f : FaultInfo) : (s.raise f).mem = s.mem := by
  obtain ⟨_, _, _, _, _, h⟩ := s.raise_frame f; rw [h]
@[simp] theorem State.raise_tkp (s : State) (f : FaultInfo) : (s.raise f).tkp = s.tkp := by
  obtain ⟨_, _, _, _, _, h⟩ := s.raise_frame f; rw [h]
@[simp] theorem State.raise_rne (s : State) (f : FaultInfo) : (s.raise f).rne = s.rne := by
  obtain ⟨_, _, _, _, _, h⟩ := s.raise_frame f; rw [h]
@[simp] theorem State.raise_pwr (s : State) (f : FaultInfo) : (s.raise f).pwr = s.pwr := by
  obtain ⟨_, _, _, _, _, h⟩ := s.raise_frame f; rw [h]
@[simp] theorem State.raise_clk (s : State) (f : FaultInfo) : (s.raise f).clk = s.clk := by
  obtain ⟨_, _, _, _, _, h⟩ := s.raise_frame f; rw [h]
@[simp] theorem State.raise_pair (s : State) (f : FaultInfo) : (s.raise f).pair = s.pair := by
  obtain ⟨_, _, _, _, _, h⟩ := s.raise_frame f; rw [h]
@[simp] theorem State.raise_pairSh (s : State) (f : FaultInfo) : (s.raise f).pairSh = s.pairSh := by
  obtain ⟨_, _, _, _, _, h⟩ := s.raise_frame f; rw [h]
@[simp] theorem State.raise_fuses (s : State) (f : FaultInfo) : (s.raise f).fuses = s.fuses := by
  obtain ⟨_, _, _, _, _, h⟩ := s.raise_frame f; rw [h]
@[simp] theorem State.raise_flash (s : State) (f : FaultInfo) : (s.raise f).flash = s.flash := by
  obtain ⟨_, _, _, _, _, h⟩ := s.raise_frame f; rw [h]
@[simp] theorem State.raise_boot (s : State) (f : FaultInfo) : (s.raise f).boot = s.boot := by
  obtain ⟨_, _, _, _, _, h⟩ := s.raise_frame f; rw [h]
@[simp] theorem State.raise_kpr (s : State) (f : FaultInfo) : (s.raise f).kpr = s.kpr := by
  obtain ⟨_, _, _, _, _, h⟩ := s.raise_frame f; rw [h]
@[simp] theorem State.raise_pending (s : State) (f : FaultInfo) : (s.raise f).pending = s.pending := by
  obtain ⟨_, _, _, _, _, h⟩ := s.raise_frame f; rw [h]
@[simp] theorem State.raise_od_values (s : State) (f : FaultInfo) : (s.raise f).od.values = s.od.values := by
  obtain ⟨_, _, _, _, _, h⟩ := s.raise_frame f; rw [h]
@[simp] theorem State.raise_od_stamps (s : State) (f : FaultInfo) : (s.raise f).od.stamps = s.od.stamps := by
  obtain ⟨_, _, _, _, _, h⟩ := s.raise_frame f; rw [h]
@[simp] theorem State.raise_od_routes (s : State) (f : FaultInfo) : (s.raise f).od.routes = s.od.routes := by
  obtain ⟨_, _, _, _, _, h⟩ := s.raise_frame f; rw [h]
@[simp] theorem State.raise_od_free (s : State) (f : FaultInfo) : (s.raise f).od.free = s.od.free := by
  obtain ⟨_, _, _, _, _, h⟩ := s.raise_frame f; rw [h]
@[simp] theorem State.raise_od_creates (s : State) (f : FaultInfo) : (s.raise f).od.creates = s.od.creates := by
  obtain ⟨_, _, _, _, _, h⟩ := s.raise_frame f; rw [h]
@[simp] theorem State.raise_pci_ready (s : State) (f : FaultInfo) : (s.raise f).pci.ready = s.pci.ready := by
  obtain ⟨_, _, _, _, _, h⟩ := s.raise_frame f; rw [h]
@[simp] theorem State.raise_pci_dState (s : State) (f : FaultInfo) : (s.raise f).pci.dState = s.pci.dState := by
  obtain ⟨_, _, _, _, _, h⟩ := s.raise_frame f; rw [h]
@[simp] theorem State.raise_pci_linkL2 (s : State) (f : FaultInfo) : (s.raise f).pci.linkL2 = s.pci.linkL2 := by
  obtain ⟨_, _, _, _, _, h⟩ := s.raise_frame f; rw [h]
@[simp] theorem State.raise_pci_mbxState (s : State) (f : FaultInfo) : (s.raise f).pci.mbxState = s.pci.mbxState := by
  obtain ⟨_, _, _, _, _, h⟩ := s.raise_frame f; rw [h]

end Sys2Proof.Machine
end

