-- ==== Sys2Proof/Laws/Mem.lean ====
section
/-! SUPPORT. What the reads and writes of memory can do, said once: they change memory, the Keeper's list of spare rows and what
faults touch; and they keep the canonical form. -/
namespace Sys2Proof.Machine
open Sys2Proof

/-- A memory operation: which parts of the state it may change, and that it keeps the canonical form. -/
def State.MemStep (s t : State) : Prop :=
  (∃ m k o r c p d, t = { s with mem := m, kpr := k, out := o, rings := r, colls := c, pci := p, od := d })
    ∧ (Memory.wf s.mem.bytes = true → Memory.wf t.mem.bytes = true)

theorem State.MemStep.refl (s : State) : s.MemStep s := ⟨⟨_, _, _, _, _, _, _, rfl⟩, id⟩

theorem State.MemStep.trans {s t u : State} (h : s.MemStep t) (h' : t.MemStep u) : s.MemStep u := by
  obtain ⟨⟨m, k, o, r, c, p, d, rfl⟩, w⟩ := h
  obtain ⟨⟨m', k', o', r', c', p', d', rfl⟩, w'⟩ := h'
  exact ⟨⟨m', k', o', r', c', p', d', rfl⟩, fun x => w' (w x)⟩

/-- A change within memory that leaves its bytes. -/
theorem State.memStep_of (s : State) (m : Mem) (h : m.bytes = s.mem.bytes) : s.MemStep { s with mem := m } :=
  ⟨⟨m, _, _, _, _, _, _, rfl⟩, fun w => by rw [show ({ s with mem := m } : State).mem.bytes = s.mem.bytes from h]; exact w⟩

theorem State.memStep_kpr (s : State) (k : Kpr) : s.MemStep { s with kpr := k } := ⟨⟨_, k, _, _, _, _, _, rfl⟩, id⟩

theorem State.memStep_raise (s : State) (f : FaultInfo) : s.MemStep (s.raise f) := by
  obtain ⟨o, r, c, b, e, h⟩ := s.raise_frame f
  exact ⟨⟨_, _, o, r, c, _, _, by rw [h]⟩, fun w => by rw [State.raise_mem]; exact w⟩

theorem State.memStep_lost (s : State) (l : List Nat) : s.MemStep { s with mem := { s.mem with lostLines := l } } :=
  State.memStep_of s _ rfl

theorem State.memStep_wrBytes (s : State) (a : Nat) (bs : List Byte) : s.MemStep (s.wrBytes a bs) :=
  ⟨⟨_, _, _, _, _, _, _, rfl⟩, State.wf_wrBytes s a bs⟩

theorem State.memStep_intCount (s : State) (a i : Nat) : s.MemStep (s.intCount a i) := State.memStep_of _ _ rfl
theorem State.memStep_modPortStat (s : State) (p : Nat) (f : MemPort → MemPort) : s.MemStep (s.modPortStat p f) := State.memStep_of _ _ rfl
theorem State.memStep_modSlice (s : State) (n : Nat) (f : SliceCnt → SliceCnt) : s.MemStep (s.modSlice n f) := State.memStep_of _ _ rfl
theorem State.memStep_modChan (s : State) (n : Nat) (f : DramChan → DramChan) : s.MemStep (s.modChan n f) := State.memStep_of _ _ rfl
theorem State.memStep_setFails (s : State) (l : Nat) (b : Bool) : s.MemStep (s.setFails l b) := State.memStep_of _ _ rfl
theorem State.memStep_putLine (s : State) (l : Nat) (c : Option CacheLine) : s.MemStep (s.putLine l c) := State.memStep_of _ _ rfl
theorem State.memStep_modCached (s : State) (l : Nat) (f : CacheLine → CacheLine) : s.MemStep (s.modCached l f) := State.memStep_of _ _ rfl
theorem State.memStep_sliceCount (s : State) (l i : Nat) : s.MemStep (s.sliceCount l i) := State.memStep_of _ _ rfl

theorem State.memStep_freshLine (s : State) (l : Nat) : s.MemStep (s.freshLine l) := by
  unfold State.freshLine
  dsimp only
  split
  · exact (State.memStep_setFails s _ _).trans (State.memStep_setFails _ _ _)
  · exact State.memStep_setFails s _ _

theorem State.memStep_dramRead (s : State) (p l : Nat) : s.MemStep (s.dramRead p l) :=
  (State.memStep_modChan s _ _).trans (State.memStep_modPortStat _ _ _)

theorem State.memStep_dramWrite (s : State) (l : Nat) : s.MemStep (s.dramWrite l) := by
  unfold State.dramWrite
  dsimp only
  split
  · exact (State.memStep_modChan s _ _).trans (State.memStep_modChan _ _ _)
  · exact State.memStep_modChan s _ _

theorem State.memStep_writeBack (s : State) (l : Nat) (c : CacheLine) : s.MemStep (s.writeBack l c) :=
  ((State.memStep_dramWrite s l).trans (State.memStep_setFails _ _ _)).trans (State.memStep_modSlice _ _ _)

theorem State.memStep_putBytes (s : State) (a : Nat) (bs : List Byte) : s.MemStep (s.putBytes a bs) := by
  unfold State.putBytes
  dsimp only
  split
  · exact (State.memStep_wrBytes s _ _).trans (State.memStep_wrBytes _ _ _)
  · exact State.memStep_wrBytes s _ _

theorem State.memStep_quarantine (s : State) (ch bank row : Nat) : s.MemStep (s.quarantine ch bank row) := by
  unfold State.quarantine
  dsimp only
  split
  · exact (((State.memStep_modChan s _ _).trans (State.memStep_intCount _ _ _)).trans (State.memStep_kpr _ _)).trans (State.memStep_raise _ _)
  · split
    · exact State.MemStep.refl s
    · exact (State.memStep_modChan s _ _).trans (State.memStep_raise _ _)

theorem State.memStep_countRow (s : State) (line : Nat) : s.MemStep (s.countRow line) := by
  unfold State.countRow
  dsimp only
  split
  · exact State.MemStep.refl s
  · split
    · split
      · exact State.memStep_modChan s _ _
      · split
        · exact (State.memStep_modChan s _ _).trans (State.memStep_modChan _ _ _)
        · exact (State.memStep_modChan s _ _).trans (State.memStep_quarantine _ _ _ _)
    · split
      · exact State.memStep_modChan s _ _
      · split
        · exact State.memStep_modChan s _ _
        · exact State.MemStep.refl s

/-- A line tested: R391. -/
theorem State.memStep_testLine (s : State) (port line : Nat) (e : ReadErrors) : s.MemStep (s.testLine port line e).2 := by
  have row : ∀ t : State, s.MemStep t → s.MemStep (if inSaddle line then t.countRow line else t) := fun t h => by
    split
    · exact h.trans (State.memStep_countRow _ _)
    · exact h
  unfold State.testLine
  dsimp only
  split
  · exact State.MemStep.refl s
  · have h1 := row _ (State.memStep_intCount s line 0)
    revert h1
    generalize (if inSaddle line then (s.intCount line 0).countRow line else s.intCount line 0) = t
    intro h1
    split
    · exact h1.trans (State.memStep_intCount _ _ _)
    · have h2 := h1.trans (State.memStep_setFails _ line true)
      split
      · split
        · exact (((h2.trans (State.memStep_setFails _ _ true)).trans (State.memStep_intCount _ _ _)).trans
            (State.memStep_raise _ _)).trans (State.memStep_lost _ _)
        · exact ((h2.trans (State.memStep_wrBytes _ _ _)).trans (State.memStep_setFails _ _ _)).trans (State.memStep_intCount _ _ _)
      · split
        · exact (h2.trans (State.memStep_intCount _ _ _)).trans (State.memStep_raise _ _)
        · exact h2.trans (State.memStep_intCount _ _ _)

theorem State.memStep_cacheAlloc (s : State) (line ways : Nat) (d : Bool) : s.MemStep (s.cacheAlloc line ways d) := by
  unfold State.cacheAlloc
  dsimp only
  split
  · exact State.memStep_putLine s _ _
  · split
    · exact State.MemStep.refl s
    · refine State.MemStep.trans ?_ ((State.memStep_putLine _ _ _).trans (State.memStep_putLine _ _ _))
      split
      · exact State.memStep_writeBack s _ _
      · exact State.MemStep.refl s

theorem State.memStep_lookup (s : State) (line : Nat) : s.MemStep (s.lookup line).2 := by
  unfold State.lookup
  split
  · exact (State.memStep_putLine s _ _).trans (State.memStep_modSlice _ _ _)
  · exact State.memStep_modSlice s _ _

theorem State.memStep_foldl2 {α β : Type} (f : β × State → α → β × State) (h : ∀ (x : β × State) a, x.2.MemStep (f x a).2) (l : List α)
    (x : β × State) : x.2.MemStep (l.foldl f x).2 := by
  induction l generalizing x with
  | nil => exact State.MemStep.refl _
  | cons a l ih => exact (h x a).trans (ih _)

theorem State.memStep_foldl {α : Type} (f : State → α → State) (h : ∀ (s : State) a, s.MemStep (f s a)) (l : List α) (s : State) :
    s.MemStep (l.foldl f s) := by
  induction l generalizing s with
  | nil => exact State.MemStep.refl s
  | cons a l ih => exact (h s a).trans (ih _)

theorem State.memStep_closeEntry (s : State) (m : MergeEntry) (e : ReadErrors) : s.MemStep (s.closeEntry m e) := by
  have put : ∀ t : State, t.MemStep (((m.bytes.foldl (fun s b => s.putBytes (m.line + b.1) [b.2]) t).dramWrite m.line).freshLine m.line) := fun t =>
    ((State.memStep_foldl _ (fun _ _ => State.memStep_putBytes _ _ _) _ t).trans (State.memStep_dramWrite _ _)).trans (State.memStep_freshLine _ _)
  unfold State.closeEntry
  dsimp only
  have h0 := State.memStep_modChan s (chanOf m.line) (fun c => { c with merges := c.merges.filter (fun x => x.line != m.line) })
  split
  · exact (h0.trans (put _)).trans (State.memStep_intCount _ _ _)
  · have h1 := (h0.trans (State.memStep_dramRead _ 43 m.line)).trans (State.memStep_intCount _ m.line 7)
    have h2 := h1.trans (State.memStep_testLine _ 43 m.line e)
    split
    · rename_i x heq; rw [heq] at h2; exact h2.trans (put _)
    · rename_i x y heq; rw [heq] at h2; exact h2.trans (State.memStep_intCount _ _ _)

theorem State.memStep_closeLine (s : State) (line : Nat) (e : ReadErrors) : s.MemStep (s.closeLine line e) := by
  unfold State.closeLine
  split
  · exact State.memStep_closeEntry s _ _
  · exact State.MemStep.refl s

theorem State.memStep_mergeWrite (s : State) (line off : Nat) (bs : List Byte) : s.MemStep (s.mergeWrite line off bs) := by
  unfold State.mergeWrite
  dsimp only
  split
  · split
    · exact (State.memStep_modChan s _ _).trans (State.memStep_closeEntry _ _ _)
    · exact State.memStep_modChan s _ _
  · refine State.MemStep.trans ?_ (State.memStep_modChan _ _ _)
    split
    · split
      · exact State.memStep_closeEntry s _ _
      · exact State.MemStep.refl s
    · exact State.MemStep.refl s

theorem State.memStep_readMiss (s : State) (port ways line : Nat) (e : ReadErrors) : s.MemStep (s.readMiss port ways line e).2 := by
  unfold State.readMiss
  have h := (State.memStep_dramRead s port line).trans (State.memStep_testLine _ port line e)
  split
  · rename_i y heq; rw [heq] at h; exact h.trans (State.memStep_cacheAlloc _ _ _ _)
  · exact h

theorem State.memStep_cacheFailure (s : State) (port ways line : Nat) (e : ReadErrors) : s.MemStep (s.cacheFailure port ways line e).2 := by
  have h := State.memStep_sliceCount s line 0
  unfold State.cacheFailure
  dsimp only
  split
  · exact (h.trans (State.memStep_putLine _ _ _)).trans (State.memStep_readMiss _ _ _ _ _)
  · split
    · exact (h.trans (State.memStep_sliceCount _ _ _)).trans (State.memStep_raise _ _)
    · exact h.trans (State.memStep_sliceCount _ _ _)

/-- A line read: R373, R385, R387. -/
theorem State.memStep_readLine (s : State) (port ways line : Nat) (e : ReadErrors) : s.MemStep (s.readLine port ways line e).2 := by
  unfold State.readLine
  dsimp only
  split
  · have h0 : s.MemStep (if e.cached.contains line then (s.closeLine line e).modCached line (fun c => { c with bad := true })
        else s.closeLine line e) := by
      split
      · exact (State.memStep_closeLine s line e).trans (State.memStep_modCached _ _ _)
      · exact State.memStep_closeLine s line e
    have h1 := h0.trans (State.memStep_lookup _ line)
    split
    · rename_i x heq
      rw [heq] at h1
      split
      · exact h1.trans (State.memStep_cacheFailure _ _ _ _ _)
      · exact h1
    · rename_i x heq; rw [heq] at h1; exact h1.trans (State.memStep_readMiss _ _ _ _ _)
  · exact State.memStep_testLine s _ _ _

/-- A range read. -/
theorem State.memStep_readRange (s : State) (port ways a n : Nat) (e : ReadErrors) : s.MemStep (s.readRange port ways a n e).2 := by
  unfold State.readRange
  refine State.memStep_foldl2 _ (fun acc x => ?_) _ (none, s)
  split
  · exact State.MemStep.refl _
  · have h := State.memStep_readLine acc.2 port ways x e
    split
    · rename_i y heq; rw [heq] at h; exact h
    · rename_i r y _ heq; rw [heq] at h; exact h

/-- A line written: R375, R385 to R387. -/
theorem State.memStep_writeLine (s : State) (ways line a : Nat) (bs : List Byte) : s.MemStep (s.writeLine ways line a bs) := by
  unfold State.writeLine
  dsimp only
  split
  · split
    · have h0 := (State.memStep_closeLine s line noErrors).trans (State.memStep_putBytes _ a bs)
      have h1 := h0.trans (State.memStep_lookup _ line)
      split
      · rename_i x heq
        rw [heq] at h1
        split
        · exact ((h1.trans (State.memStep_dramWrite _ _)).trans (State.memStep_freshLine _ _)).trans (State.memStep_modCached _ _ _)
        · exact h1.trans (State.memStep_modCached _ _ _)
      · rename_i x heq
        rw [heq] at h1
        split
        · exact (h1.trans (State.memStep_dramWrite _ _)).trans (State.memStep_freshLine _ _)
        · split
          · exact ((h1.trans (State.memStep_dramWrite _ _)).trans (State.memStep_freshLine _ _)).trans (State.memStep_cacheAlloc _ _ _ _)
          · exact h1.trans (State.memStep_cacheAlloc _ _ _ _)
    · have h1 := State.memStep_lookup s line
      split
      · rename_i x heq
        rw [heq] at h1
        split
        · exact h1.trans (State.memStep_sliceCount _ _ _)
        · split
          · exact ((h1.trans (State.memStep_putBytes _ _ _)).trans (State.memStep_dramWrite _ _)).trans (State.memStep_freshLine _ _)
          · exact (h1.trans (State.memStep_putBytes _ _ _)).trans (State.memStep_modCached _ _ _)
      · rename_i x heq; rw [heq] at h1; exact h1.trans (State.memStep_mergeWrite _ _ _ _)
  · split
    · exact (State.memStep_putBytes s _ _).trans (State.memStep_setFails _ _ _)
    · split
      · exact State.memStep_intCount s _ _
      · exact State.memStep_putBytes s _ _

/-- A range written. -/
theorem State.memStep_store (s : State) (ways a : Nat) (bs : List Byte) : s.MemStep (s.store ways a bs) :=
  State.memStep_foldl _ (fun _ _ => State.memStep_writeLine _ _ _ _ _) _ s

end Sys2Proof.Machine
end

