-- ==== Sys2Proof/Laws/Track.lean ====
section
/-! SUPPORT. What the writes of the track store can do: memory operations alone (R288, R289). -/
namespace Sys2Proof.Machine
open Sys2Proof

theorem State.MemStep.slots {s t : State} (h : s.MemStep t) : t.slots = s.slots := by
  obtain ⟨⟨_, _, _, _, _, _, _, rfl⟩, _⟩ := h; rfl

theorem State.memStep_putEntries (s : State) (base n : Nat) (es : List (Nat × Track)) : s.MemStep (s.putEntries base n es) :=
  State.memStep_foldl _ (fun _ _ => State.memStep_store _ _ _ _) _ s

theorem State.memStep_modTracks (s : State) (n : Nat) (f : SlotTrack → SlotTrack) : (s.modTrk n f).MemStep (s.modTracks n f) :=
  State.memStep_putEntries _ _ _ _

theorem State.memStep_checkpoint (s : State) (n : Nat) :
    (s.modTrk n (fun k => { k with saved := k.tracks })).MemStep (s.checkpoint n) := State.memStep_putEntries _ _ _ _

@[simp] theorem State.modTracks_slots (s : State) (n : Nat) (f : SlotTrack → SlotTrack) : (s.modTracks n f).slots = (s.modTrk n f).slots :=
  (s.memStep_modTracks n f).slots

@[simp] theorem State.checkpoint_slots (s : State) (n : Nat) :
    (s.checkpoint n).slots = (s.modTrk n (fun k => { k with saved := k.tracks })).slots := (s.memStep_checkpoint n).slots

/-- What each step of a fold leaves as it was, the fold leaves as it was. -/
theorem foldl_keeps {α β γ : Type} (g : β → γ) (f : β → α → β) (h : ∀ b a, g (f b a) = g b) (l : List α) (b : β) :
    g (l.foldl f b) = g b := by
  induction l generalizing b with
  | nil => rfl
  | cons a l ih => exact (ih (f b a)).trans (h b a)

/-- Giving up a call touches the Stitcher alone. -/
@[simp] theorem State.dropCall_slots (s : State) (n : Nat) : (s.dropCall n).slots = s.slots := by
  unfold State.dropCall
  refine foldl_keeps State.slots _ (fun t u => ?_) _ _
  split
  · split <;> simp
  · rfl

/-- R289: with its call given up, a slot's working entries are those of the checkpoint, and it is idle. -/
theorem State.rewindTracks_trk (s : State) (n : Nat) :
    ((s.rewindTracks n).slot n).trk = { (s.slot n).trk with tracks := (s.slot n).trk.saved, stage := .idle } := by
  have h : (s.dropCall n).slot n = s.slot n := by rw [State.slot, State.slot, State.dropCall_slots]
  have e : (s.rewindTracks n).slot n = ((s.dropCall n).modTrk n (fun k => { k with tracks := k.saved, stage := .idle })).slot n := by
    rw [State.slot, State.slot, State.rewindTracks, State.modTracks_slots]
  rw [e, State.modTrk, State.modSlot_slot, h]

end Sys2Proof.Machine
end

