-- ==== Sys2Proof/Tests/Slice0.lean ====
section
/-! SUPPORT. The model's own tests: each is one step on a small state. A theorem `witness_<Obligation>` (with a suffix where one
statement has several) shows states and operands that meet the hypotheses of the statement's clauses, and what the command does there; the
figures are the spec's worked examples or follow from its rules by hand. -/
open Sys2Proof Sys2Proof.Machine
namespace Sys2Proof.Tests
set_option Elab.async false

/-- The state after a command. -/
def after (c : Instr) (s : State) : State := match exec c s with | .next t => t | _ => State.reset

/-- The state after a step. -/
def stepped (s : State) : State := match step s with | .next t => t | _ => State.reset

/-- A device that has booted: its clocks run and its firmware serves requests. -/
def live : State := { State.reset with
  clk := { running := true, pllLock := true }, pci := { ready := true, saddleReady := true }
  boot := { stage := 9 }, pair := { failOut := false } }

theorem live_up : live.up = true ∧ live.ready = true ∧ live.ingests = true ∧ live.hostUp = true := by decide +kernel

/-- Every channel of the saddle is active. -/
def ram : State := { live with mem := { live.mem with chans := (List.range 64).map (fun c => (c, { st := .active })) } }

/-- One slot, number 3. -/
def slot3 (x : Slot) : State := { ram with slots := [(3, x)] }

/-! ### The queue and the registers -/

/-- A step takes the front command and leaves the rest; on an empty queue it idles. -/
theorem witness_StepRunsTheFrontCommand :
    (stepped { live with pending := [.cacheFlush, .pmeTurnOff] }).pending = [.pmeTurnOff]
      ∧ (stepped { live with pending := [.cacheFlush, .pmeTurnOff] }).mem.flushing = true
      ∧ (stepped { live with pending := [.cacheFlush, .pmeTurnOff] }).pci.linkL2 = false ∧ stepped live = live := by decide +kernel

theorem witness_MemoryStaysCanonical :
    Memory.wf (after (.bar2Write ⟨64, [1#8, 0#8, 2#8], false, false⟩) { ram with kpr := { scopes := 2 } }).mem.bytes = true
      ∧ Memory.wf ram.mem.bytes = true := by decide +kernel

def aperture : State := { live with pci := { live.pci with aperture := 0x240000000, barLog2 := 30 } }
def aLatched : State := after (.lowWordRead .bar0 (regOff 10 0x200) 4) aperture

theorem witness_RegisterReads :
    live.reaches .bar0 (regOff 25 0x28) = true ∧ live.reg (regOff 25 0x28) = some (false, 0x4E20)
      ∧ (after (.lowWordRead .bar0 (regOff 25 0x28) 4) live).out = [.readData .bar0 0x4E20]
      ∧ aperture.reg (regOff 10 0x200) = some (true, 0x240000000) ∧ aperture.reg (regOff 10 0x204) = none
      ∧ aperture.wideAt (regOff 10 0x204) = some (regOff 10 0x200, 0x240000000)
      ∧ aLatched.out = [.readData .bar0 0x40000000] ∧ tget none aLatched.latches (latchKey .bar0 (regOff 10 0x200)) = some 2
      ∧ (after (.highWordRead .bar0 (regOff 10 0x204) 4) aLatched).out = [.readData .bar0 2, .readData .bar0 0x40000000]
      ∧ tget none (after (.highWordRead .bar0 (regOff 10 0x204) 4) aLatched).latches (latchKey .bar0 (regOff 10 0x200)) = none
      ∧ tget none live.latches (latchKey .bar0 (regOff 10 0x200)) = none
      ∧ (after (.highWordRead .bar0 (regOff 10 0x204) 4) aperture).out = [.readData .bar0 2]
      ∧ (after (.lowWordRead .bar0 (regOff 25 0x28 + 1) 4) live).out = [.readData .bar0 0]
      ∧ (after (.highWordRead .bar0 (regOff 10 0x204) 2) live).out = [.readData .bar0 0] := by decide +kernel

theorem witness_RegisterWritesAndCodes :
    (after (.registerWrite .cantle (regOff 9 0) 4 20000) live).budgetMw = 20000
      ∧ (after (.registerWrite .cantle (regOff 9 0) 4 150000) live).budgetMw = 150000
      ∧ after (.registerWrite .cantle (regOff 9 0) 4 19999) live = live
      ∧ after (.registerWrite .cantle (regOff 9 0) 4 150001) live = live
      ∧ (∀ off, live.reaches .cantle off = true)
      ∧ (after (.registerWrite .cantle (regOff 10 4) 4 2) { live with pci := { live.pci with events := 3 } }).pci.events = 1
      ∧ (after (.registerWrite .cantle (regOff 19 4) 4 168) live).mem.burn.hours = 168
      ∧ after (.registerWrite .cantle (regOff 19 4) 4 169) live = live ∧ after (.registerWrite .cantle (regOff 19 4) 4 0) live = live
      ∧ after (.registerWrite .cantle (regOff 16 0x104) 4 1) live = live
      ∧ (after (.registerWrite .bar0 (regOff 10 0x204) 4 2) (after (.registerWrite .bar0 (regOff 10 0x200) 4 0x40000040)
          { live with pci := { live.pci with barLog2 := 30 } })).pci.aperture = 0x240000000
      ∧ after (.registerWrite .bar0 (regOff 10 0x204) 4 2) live = live
      ∧ after (.registerWrite .bar0 (regOff 9 0) 2 30000) live = live := by
  refine ⟨by decide +kernel, by decide +kernel, by decide +kernel, by decide +kernel, fun _ => rfl, by decide +kernel, by decide +kernel, by decide +kernel,
    by decide +kernel, by decide +kernel, by decide +kernel, by decide +kernel, by decide +kernel⟩

/-! ### Ingest -/

def cam : Slot := { run := .running, cfg := { stream := { udpPort := 5004, group := copies 16 0#8 } }, ing := { bucket := 262144 * 156250000 } }
def head : FrameHead := ⟨1438, .data, [], false, 4, false, [], .rtp, .right⟩
def pkt : Packet := ⟨0, head, 5004, [], 1400, 7, 96, 100, 9000, true, 0, [2#8, 1#8, 7#8]⟩

theorem witness_DatagramsAndPolicer_ports :
    let p := fun (h : FrameHead) => (after (.rtpPacketArrival 5 { pkt with head := h }) (slot3 cam)).port 0
    p { head with fragment := true } = { ticks := 5, stamp := 5, fragments := 1 }
      ∧ p { head with sum := .wrong } = { ticks := 5, stamp := 5, checksum := 1 }
      ∧ p { head with sum := .zero, ipVersion := 6 } = { ticks := 5, stamp := 5, checksum := 1 }
      ∧ p { head with len := 9217 } = { ticks := 5, stamp := 5, unsupported := 1 }
      ∧ p { head with vlans := [7] } = { ticks := 5, stamp := 5, unsupported := 1 }
      ∧ p { head with carried := .srtp } = { ticks := 5, stamp := 5, unsupported := 1 }
      ∧ p { head with carried := .mld 2 } = { ticks := 5, stamp := 5 }
      ∧ p { head with carried := .tsDatagram } = { ticks := 5, stamp := 5, unsupported := 1 }
      ∧ (slot3 cam).slotFor { pkt with udpPort := 5006 } = none
      ∧ ((after (.rtpPacketArrival 5 { pkt with udpPort := 5006 }) (slot3 cam)).port 0) = { ticks := 5, stamp := 5, noSlot := 1 } := by decide +kernel

/-- The edges of the subset: 9,216 B, a VLAN of the port, a zero checksum over IPv4. -/
theorem witness_DatagramsAndPolicer_subset :
    FrameHead.kind head [] = .good ∧ FrameHead.kind { head with len := 9216, vlans := [7], sum := .zero } [7] = .good
      ∧ FrameHead.kind { head with serviceTag := true } [] = .unsupported ∧ FrameHead.kind { head with carried := .igmp 3 } [] = .taken := by decide +kernel

theorem witness_DatagramsAndPolicer_slot :
    (slot3 cam).slotFor pkt = some 3
      ∧ ((after (.rtpPacketArrival 0 pkt) (slot3 { cam with run := .stopped })).slot 3).counters = [(0x12, 1)]
      ∧ ((after (.rtpPacketArrival 0 pkt) (slot3 { cam with shedMode := 5, shedNext := 5 })).slot 3).counters = [(0x11, 1)]
      ∧ ((slot3 cam).police 3 1400).1 = true
      ∧ ((after (.rtpPacketArrival 0 pkt) (slot3 cam)).slot 3).counters = [(1, 1), (2, 1400), (0x0B, 1)]
      ∧ ((after (.rtpPacketArrival 0 pkt) (slot3 cam)).slot 3).ing.bucket = (262144 - 1400) * 156250000
      ∧ ((after (.rtpPacketArrival 0 pkt) (slot3 cam)).slot 3).ing.started = true
      ∧ ((after (.rtpPacketArrival 0 pkt) (slot3 { cam with ing := {} })).slot 3).ing.unplaced = [(7, 9000)] := by decide +kernel

/-- The policer at the edge of the bucket: 1,400 B pass on exactly 1,400 B of tokens and not on one less. -/
theorem witness_DatagramsAndPolicer_edge :
    let s := fun (b : Nat) => slot3 { cam with ing := { bucket := b } }
    (s 0).follower = false ∧ ((s (1400 * 156250000)).police 3 1400).1 = true ∧ ((s (1400 * 156250000 - 1)).police 3 1400).1 = false
      ∧ ((after (.rtpPacketArrival 0 pkt) (s (1400 * 156250000 - 1))).slot 3).counters = [(1, 1), (2, 1400), (3, 1), (4, 1400)] := by decide +kernel

theorem witness_DatagramsAndPolicer_window :
    let s := fun (off drop runs : Nat) => slot3 { cam with ing := { cam.ing with winOffered := off, winDropped := drop, overruns := runs } }
    ((after (.policerWindowEnd 3 156249999) (s 1000 11 0)).slot 3).ing.winDropped = 11
      ∧ ((after (.policerWindowEnd 3 156250000) (s 1000 10 4)).slot 3).ing.overruns = 0
      ∧ ((after (.policerWindowEnd 3 156250000) (s 1000 11 4)).slot 3).ing.overruns = 5
      ∧ ((after (.policerWindowEnd 3 156250000) (s 1000 11 8)).slot 3).run = .running
      ∧ ((after (.policerWindowEnd 3 156250000) (s 1000 11 9)).slot 3).run = .stopped := by decide +kernel

/-- R32: sequence numbers extend to the nearest, and 3,000 ahead or 100 behind is held apart. -/
theorem witness_PacketPlacement_extend :
    let i : SlotIngest := { started := true, extSeq := 65535, highSeq := 65535, extTs := 9000, lastTs := 9000, ssrc := some 7 }
    let s := slot3 { cam with ing := { i with bucket := cam.ing.bucket } }
    (i.extend { pkt with seq := 0 }).1 = 65536 ∧ (i.extend { pkt with seq := 65534 }).1 = 65534
      ∧ (i.extend { pkt with seq := 2999 }).1 = 68535
      ∧ ((after (.rtpPacketArrival 0 { pkt with seq := 2999 }) s).slot 3).ing.candidate.isSome = true
      ∧ ((after (.rtpPacketArrival 0 { pkt with seq := 2998 }) s).slot 3).ing.candidate.isSome = false
      ∧ ((after (.rtpPacketArrival 0 { pkt with seq := 65435 }) s).slot 3).ing.candidate.isSome = true
      ∧ ((after (.rtpPacketArrival 0 { pkt with seq := 65436 }) s).slot 3).ing.candidate.isSome = false := by decide +kernel

theorem witness_PacketPlacement_late :
    let s := slot3 { cam with ing := { releasedTs := some 9000, units := [{ ts := 9001, deadline := 0, packets := [⟨100, false, []⟩] }] } }
    ((s.placePacket 3 99 9000 pkt false false 0).slot 3).counters = [(8, 1)]
      ∧ (100 : Int) ∈ (s.slot 3).ing.units.flatMap HeldUnit.seqs
      ∧ ((s.placePacket 3 100 9001 pkt false false 0).slot 3).counters = [(7, 1)] := by decide +kernel

theorem witness_PacketPlacement_jitter :
    let u : HeldUnit := { ts := 9000, deadline := 10, packets := [⟨100, true, [1#8]⟩] }
    let s := slot3 { cam with ing := { units := [u, { u with ts := 9001, deadline := 20 }] } }
    ((after (.jitterDeadline 3 9) s).slot 3).ing.units.length = 2
      ∧ ((after (.jitterDeadline 3 10) s).slot 3).ing.releasedTs = some 9001      -- the next, complete, follows it
      ∧ List.Pairwise (fun a b => a.ts < b.ts) (placeIn 9000 30 ⟨101, false, []⟩ false false 0 (s.slot 3).ing.units)
      ∧ (s.slot 3).shedNext ≠ 5 ∧ (s.slot 3).shedMode ≠ 5 ∧ (s.slot 3).cfg.fusion.member = false := by decide +kernel

def session : Slot := { run := .running, cfg := { stream := { url := ascii "rtsp://c/1" } }, ing := { rtsp := { phase := 1 } } }

theorem witness_RtspAndFusion_client :
    let s := fun (p : Nat) => slot3 { session with ing := { rtsp := { phase := p, backoffS := 32, delivered := p == 5 } } }
    let m := fun (o : Out) => match o with | .rtsp _ k _ _ _ _ => k | .rtcpReport _ => 9 | _ => 10
    let r := fun (t : State) => ((t.slot 3).ing.rtsp.phase, t.out.map m)
    let ok : RtspReply := ⟨true, none, [1#8], none, none, none⟩
    let sdp : Sdp := ⟨1, 0, 1, 1, false, 1, [9#8]⟩
    let c : RtspChallenge := ⟨.unknown, [], []⟩
    (s 1).ready = true ∧ ((s 1).slot 3).rtspRuns = true
      ∧ r (after (.rtspResponse 3 ok) (s 1)) = (2, [1]) ∧ r (after (.rtspResponse 3 ok) (s 3)) = (4, [3])
      ∧ ((after (.rtspResponse 3 ok) (s 3)).slot 3).ing.rtsp.session = [1#8]
      ∧ r (after (.rtspResponse 3 { ok with sdp := some sdp }) (s 2)) = (3, [2])
      ∧ ((after (.rtspResponse 3 { ok with sdp := some sdp }) (s 2)).slot 3).ing.paramSets = [9#8]
      ∧ ((after (.rtspResponse 3 { ok with sdp := some { sdp with maxDonDiff := 1 } }) (s 2)).slot 3).run = .stopped
      ∧ r (after (.rtspResponse 3 { ok with timeoutS := some 20 }) (s 4)) = (5, []) ∧ r (after (.rtspResponse 3 ok) (s 5)) = (5, [])
      ∧ r (after (.rtspResponse 3 { ok with transport := some .interleaved }) (s 3)) = (6, [5])
      ∧ r (after (.rtspResponse 3 { ok with ok := false }) (s 2)) = (6, [5])
      ∧ r (after (.rtspResponse 3 { ok with ok := false, challenge := some c }) (s 2)) = (6, [5])
      ∧ r (after (.streamTimeout ⟨3, 5000, 0⟩) (s 5)) = (6, [5]) ∧ r (after (.streamTimeout ⟨3, 4999, 0⟩) (s 5)) = (5, [])
      ∧ r (after (.rtspRetry ⟨3, 32000⟩) (s 6)) = (1, [0]) ∧ ((after (.rtspRetry ⟨3, 32000⟩) (s 6)).slot 3).ing.rtsp.backoffS = 60
      ∧ r (after (.rtspRetry ⟨3, 31999⟩) (s 6)) = (6, [])
      ∧ r (after (.rtspKeepalive ⟨3, 30000⟩) (s 5)) = (5, [4]) ∧ r (after (.rtspKeepalive ⟨3, 29999⟩) (s 5)) = (5, [])
      ∧ r (after (.rtcpReceiverReport 3) (s 5)) = (5, [9]) := by decide +kernel

/-- R30: a new Digest challenge has the request sent again. -/
theorem witness_RtspAndFusion_digest :
    let s := slot3 { session with ing := { rtsp := { phase := 2 } } }
    let c : RtspChallenge := ⟨.md5, [1#8], [2#8]⟩
    ((after (.rtspResponse 3 ⟨false, none, [], some c, none, none⟩) s).slot 3).ing.rtsp.auth = some c
      ∧ ((after (.rtspResponse 3 ⟨false, none, [], some c, none, none⟩) s).slot 3).ing.rtsp.phase = 2 := by decide +kernel

theorem witness_RtspAndFusion_sets :
    let x : Slot := { cam with ing := { started := true, extTs := 4294967297, lastTs := 1 } }
    let m : SlotCfg := { cam.cfg with fusion := { member := true, set := 2, reference := true } }
    let s := { slot3 { cam with cfg := m } with fusions := [(2, { opens := [⟨0, { ts := 0 }, [(3, 0)], [], []⟩] })] }
    ((after (.rtcpSenderReport 3 77 0xFFFFFFFF []) (slot3 x)).slot 3).ing.report = some ⟨77, 4294967295, some 4294967295, []⟩
      ∧ (s.fusionSet 2).opens.length = 1 ∧ ((after (.fusionSetTimeout ⟨2, 3, 0, 166667⟩) s).fusionSet 2).opens = []
      ∧ ((after (.fusionSetTimeout ⟨2, 3, 0, 166666⟩) s).fusionSet 2).opens.length = 1
      ∧ ((slot3 x).fusionSet 2).opens = [] := by decide +kernel

/-- A descriptor of slot 3: length 16, timestamp 90,000, host address 0x1_0000. -/
def desc : List Byte := leBytes 4 16 ++ leBytes 4 3 ++ leBytes 8 90000 ++ leBytes 8 0x10000 ++ leBytes 8 0
def pushSlot : Slot := { run := .running, cfg := { stream := { source := 2 } }, ing := { bucket := 262144 * 200000000 } }
def pushing (d : Bool) : State := { slot3 pushSlot with
  push := { enable := true, tail := 2, fetching := true, base := 0x8000, current := if d then none else some desc }
  pci := { live.pci with outstanding := [⟨0, true, 0x8000, d⟩] } }

theorem witness_PushRing_tail :
    let on := { live with push := { enable := true, base := 0x8000 } }
    (after (.pushTailWrite 17) live).push.tail = 17 ∧ (after (.pushTailWrite 17) live).out = []
      ∧ live.hostUp = true ∧ (after (.pushTailWrite 1) on).out = [.pushRead 0x8000 32] ∧ (after (.pushTailWrite 1) on).push.fetching = true
      ∧ (after (.pushCtrlWrite 0x51) live).push.sizeLog2 = 5 ∧ (after (.pushCtrlWrite 0x31) live).push.sizeLog2 = 4
      ∧ (after (.pushCtrlWrite 0x110) on).push.sizeLog2 = 4 ∧ (after (.pushCtrlWrite 0x100) on).push = { on.push with enable := false, sizeLog2 := 16 }
      ∧ (after (.pushCtrlWrite 0) { pushing false with pci := { (pushing false).pci with cplDisable := true } }).pci.abandoned = [0] := by decide +kernel

theorem witness_PushRing_unit :
    (pushing true).pushDescOk desc = true ∧ (after (.pushDescriptorRead desc) (pushing true)).out = [.pushRead 0x10000 16]
      ∧ (pushing true).pushDescOk (desc.take 31 ++ [1#8]) = false
      ∧ (after (.pushDescriptorRead (desc.take 31 ++ [1#8])) (pushing true)).od.lastRecord = faultRecord { code := fltIngPush, addr := 0x8000 } 0
      ∧ (after (.pushDescriptorRead (desc.take 31 ++ [1#8])) (pushing true)).push.head = 1
      ∧ ((pushing false).modPort 3 (fun p => { p with ticks := p.ticks + 9 })).pushRetire false ≠ none
      ∧ (after (.pushUnitReadComplete 9 (copies 16 1#8)) (pushing false)).push.head = 1
      ∧ ((after (.pushUnitReadComplete 9 (copies 16 1#8)) (pushing false)).slot 3).ing.pushPts = some 90000 := by decide +kernel

/-! ### Event inputs and outputs -/

def evtAt (t : Nat) (x : EvtLine) : State := { live with evt := { ticks := t, lines := [(5, x)] } }

theorem witness_EvtInCommands_edges :
    ((after (.evtInEdge 5 0 false) (evtAt 100 {})).line 5) = {}
      ∧ ((after (.evtInEdge 5 0 true) (evtAt 100 {})).line 5) = { pin := true, sync := [(102, true)] }
      ∧ (({ pin := true, sync := [(102, true)] } : EvtLine).settle 101).counting = none
      ∧ (({ pin := true, sync := [(102, true)] } : EvtLine).settle 102).counting = some (true, 20000, 102)
      ∧ ((after (.evtInFilterAccept 5 5) (after (.evtInEdge 5 0 false) (evtAt 100 { pin := true, input := true, counting := some (true, 20000, 90) }))).line 5).counting = none
      ∧ ((after (.evtInFilterAccept 5 0) (evtAt 20102 { pin := true, input := true, counting := some (true, 20000, 102) })).line 5).stamp = 20102
      ∧ ((after (.evtInFilterAccept 5 0) (evtAt 20102 { pin := true, input := true, counting := some (true, 20000, 102) })).line 5).held = true
      ∧ ((after (.evtInFilterAccept 5 0) (evtAt 20101 { pin := true, input := true, counting := some (true, 20000, 102) })).line 5).held = false
      ∧ ((after (.evtInFilterAccept 5 0) (evtAt 20102 { counting := some (true, 20000, 102), tokens := 20000, tokenTick := 20102 })).line 5).tokens = 0
      ∧ ((after (.evtInFilterAccept 5 0) (evtAt 20102 { counting := some (true, 20000, 102), tokens := 19999, tokenTick := 20102 })).line 5).drops = 1
      ∧ ((after (.evtInBudgetRefill 5 1) (evtAt 20102 { filtered := true, tokens := 19999, tokenTick := 20102 })).line 5).held = true := by decide +kernel

theorem witness_EvtInCommands_stuck :
    let held : EvtLine := { held := true, maxMs := 1, activeFrom := 50 }
    ((after (.evtInStuck 5 0) (evtAt 200051 held)).line 5).stuck = true
      ∧ (after (.evtInStuck 5 0) (evtAt 200051 held)).od.lastRecord = faultRecord { code := fltEvtStuck, unit := 5, addr := 50 } 0
      ∧ ((after (.evtInStuckClear 5 0) (evtAt 200000010 { stuck := true, inactiveSince := 10 })).line 5).stuck = false
      ∧ ((after (.evtInStuckClear 5 0) (evtAt 200000009 { stuck := true, inactiveSince := 10 })).line 5).stuck = true := by decide +kernel

theorem witness_EvtInCommands_writes :
    let s := { evtAt 200051 { held := true, activeFrom := 50 } with sels := [(evtSelOff, 5)] }
    ((after (.evtLineCtrlWrite 0 3) s).line 5).polarity = true ∧ ((after (.evtLineCtrlWrite 0 3) s).line 5).sync = [(200053, true)]
      ∧ ((after (.evtLineFilterWrite 2000) s).line 5).filter = 2000 ∧ ((after (.evtLineFilterWrite 1999) s).line 5).filter = 20000
      ∧ ((after (.evtLineFilterWrite 2000000) s).line 5).filter = 2000000 ∧ ((after (.evtLineFilterWrite 2000001) s).line 5).filter = 20000
      ∧ ((after (.evtLineMaxactWrite 0 3600001) s).line 5).maxMs = 0 ∧ ((after (.evtLineMaxactWrite 0 1) s).line 5).stuck = true
      ∧ ((after (.evtLineMaxactWrite 0 2) s).line 5).stuck = false := by decide +kernel

theorem witness_EvtOutCommands :
    let p := { live with evt := { outs := [(7, { active := true, pulseMs := some 5 })] } }
    ((after (.evtOutSet 7) live).outLine 7).active = true ∧ ((after (.evtOutClear 7) p).outLine 7) = {}
      ∧ ((after (.evtOutPulse 7 10000) live).outLine 7).pulseMs = some 10000 ∧ ((after (.evtOutPulse 7 1) p).outLine 7).pulseMs = some 1
      ∧ after (.evtOutPulse 7 0) p = p ∧ after (.evtOutPulse 7 10001) p = p
      ∧ ((after (.evtOutPulseEnd 7) p).outLine 7) = {} ∧ after (.evtOutPulseEnd 7) live = live := by decide +kernel

/-! ### Decode -/

/-- A unit in the queue of slot 3, stamped at 10 on engine 0. -/
def qu : QUnit := { unit := { ts := 90000, bytes := [1#8], cfg := cam.cfg }, stamp := 10, deadline := some 31111121 }
def hdr : PicHeader := ⟨.idr, 1920, 1080, 8, 4, ⟨0, 0, 1920, 1080⟩, .h265 ⟨.main, 41, 0, false⟩, false, true⟩
def job3 (c : Nat) : Work := { slot := 3, q := qu, hdr := hdr, handle := 0, epoch := 0, cycles := c }
def decoding (x : Slot) (g : DecEngine) : State := { slot3 x with engines := [(0, g)] }

/-- R75: 1,935,360 cycles on average and a picture interval of 31,111,111 cycles for 1080p30 H.264. -/
theorem witness_DecodeOrder :
    cam.cfg.stream.avgCost = 1949696 ∧ { cam.cfg.stream with maxH := 1080 }.avgCost = 1935360 ∧ cam.cfg.stream.interval = 31111111
      ∧ cam.cfg.stream.queueBytes = 458752
      ∧ (((slot3 cam).handover 3 { ts := 1, bytes := [1#8] }).slot 3).dec.queue = [⟨{ ts := 1, bytes := [1#8] }, 0, some 31111111, false⟩]
      ∧ (((slot3 { cam with dec := { used := 458752 } }).handover 3 { ts := 1, bytes := [1#8] }).slot 3).dec.queue.map (·.unit.token) = [some 2]
      ∧ ((decoding { cam with dec := { queue := [qu] } } { ticks := 11 }).heads 0).map (·.1) = [3]
      ∧ ((decoding { cam with dec := { queue := [qu] } } { ticks := 10 }).heads 0).map (·.1) = [] := by decide +kernel

theorem witness_DecodeEngine_start :
    let tok : QUnit := { qu with unit := { qu.unit with token := some 1, bytes := [] } }
    let s := fun q => decoding { cam with dec := { queue := q } } { ticks := 10 }
    ((after (.decodePictureStart 0 1 hdr false) (s [tok])).slot 3).counters = [(0x21, 1)]
      ∧ ((after (.decodePictureStart 0 1 hdr false) (s [tok])).slot 3).dec.queue = []
      ∧ (s [qu]).canTakeFb 3 = false ∧ ((after (.decodePictureStart 0 1 hdr false) (s [qu])).slot 3).dec.queue = [{ qu with waited := true }]
      ∧ ((after (.decodePictureStart 0 1 hdr false) (decoding cam { ticks := 10, yielded := some (job3 5) })).engine 0).st = .restoring
      ∧ ((after (.decodePictureStart 0 1 hdr false) (decoding cam { st := .saving })).engine 0) = { st := .saving, ticks := 1, busy := 1 } := by decide +kernel

theorem witness_DecodeEngine_work :
    let g := fun (st : DecState) (c : Nat) => decoding cam { st := st, work := some (job3 c) }
    ((after (.decodeYield 0 0) (g .decoding 19496960)).engine 0).st = .saving ∧ ((after (.decodeYield 0 0) (g .decoding 19496959)).engine 0).st = .decoding
      ∧ ((after (.decodeSaveDone 0 0) (g .saving 1)).engine 0).yielded = some (job3 1)
      ∧ ((after (.decodeRestoreDone 0 0) (g .restoring 1)).engine 0).st = .decoding
      ∧ ((after (.decodeAbandon 3 0) (g .decoding 194969600)).engine 0).st = .idle
      ∧ ((after (.decodeAbandon 3 0) (g .decoding 194969599)).engine 0).st = .decoding
      ∧ ((after (.decodeAbandon 3 0) (decoding { cam with dec := { queue := [qu] } } { ticks := 62222232 })).slot 3).dec.queue = []
      ∧ ((after (.decodeAbandon 3 0) (decoding { cam with dec := { queue := [qu] } } { ticks := 62222231 })).slot 3).dec.queue = [qu] := by decide +kernel

theorem witness_DecodeEngine_complete :
    let d : DecodedPic := ⟨false, 0, none, [], [], [], [], [], [], false⟩
    let q : QUnit := { qu with unit := { qu.unit with cfg := { stream := { maxW := 16, maxH := 16 } } } }
    let k : Work := { job3 9 with q := q, hdr := { hdr with width := 16, height := 16 } }
    let s := decoding cam { st := .decoding, work := some k }
    let old := decoding { cam with chain := { epoch := 1 } } { st := .decoding, work := some k }
    (s.engine 0).st = .decoding ∧ (s.engine 0).work = some k ∧ (s.slot 3).chain.epoch = k.epoch
      ∧ ((after (.decodeComplete 0 0 { d with failed := true }) s).od.lastRecord.drop 12).take 2 = leBytes 2 fltIntSubst
      ∧ ((after (.decodeComplete 0 0 d) old).slot 3).dec.decNo = 0 ∧ ((after (.decodeComplete 0 0 d) old).engine 0).st = .idle := by decide +kernel

theorem witness_DecodedPictures :
    let d : SlotDecode := { waiting := none, prev := some 1 }
    let u : AccessUnit := { ts := 0 }
    let p := { hdr with kind := .other }
    planOf d { u with shed := 4 } p = .discard ∧ planOf d { u with token := some 7 } p = .subst 7
      ∧ planOf {} u p = .subst 6 ∧ planOf {} u hdr = .decode ∧ planOf {} u { p with kind := .recovery 2 } = .decode
      ∧ planOf d u { p with form := .h265 ⟨.rangeExtensions, 41, 0, false⟩ } = .subst 3 ∧ planOf d u { p with form := .h265 ⟨.main, 41, 1, false⟩ } = .discard ∧ planOf d u { p with width := 1921 } = .subst 4 ∧ planOf d u { p with width := 1920 } = .decode
      ∧ planOf d u { p with kind := .rasl } = .subst 11 ∧ planOf { d with prev := none } u { p with missingRef := true } = .subst 8
      ∧ planOf d u { p with missingRef := true } = .decode
      ∧ (SlotDecode.onDecoded { recoverIn := some 1 } p).dec.recoverIn = some 0 ∧ (SlotDecode.onDecoded { recoverIn := some 0 } p).refresh = true
      ∧ perInterval 3 2 = 2 ∧ perInterval 5 2 = 2 ∧ perInterval (-3) 2 = -2 ∧ perInterval 7 (-2) = -4
      ∧ (padPlane ⟨1, 0, 2, 2⟩ 4 3 0 [[9, 1, 2, 8], [9, 3, 4, 8]]) = [[1, 1, 2, 2], [3, 3, 4, 4], [3, 3, 4, 4]]
      ∧ blockEntry {} 4 false ⟨[⟨some ⟨8, 0, 5⟩, none⟩], 0, 1023, false, false⟩ = 8 + 63 * 2 ^ 40 + 2 ^ 56
      ∧ blockEntry {} 4 false ⟨[], 4, 0, false, true⟩ = 2 ^ 58 ∧ blockEntry {} 4 true ⟨[], 16, 0, false, false⟩ = 16 * 2 ^ 32 + 2 ^ 59 := by decide +kernel

/-! ### Evidence -/

def pic (n : Nat) : Pic := { dec := n, seq := n, pts := 3000 * n, handle := some n, width := 1920, height := 1080 }
/-- Pictures 10 to 12 in the pre-roll ring; the next output picture is 13. -/
def holding : Slot := { cam with ring := [pic 10, pic 11, pic 12], dec := { outSeq := 13 } }
def ask (preroll postroll : Nat) : EvidReq := ⟨3, 12, preroll, postroll, none, none⟩
def reply (s : State) : Option Nat := s.out.head?.bind (fun o => match o with | .odReply _ _ st _ => some st | _ => none)

theorem witness_EvidenceRequests_checks :
    let s := slot3 holding
    s.evidCheck (ask 0 0) = none ∧ s.evidCheck (ask 300 900) = none ∧ s.evidCheck (ask 301 900) = some fltVenParam ∧ s.evidCheck (ask 300 901) = some fltVenParam
      ∧ s.evidCheck { ask 0 0 with picture := 9, host := some .mailbox } = some fltVenHold ∧ s.evidCheck { ask 0 0 with picture := 9 } = none
      ∧ (slot3 { holding with cfg := { cam.cfg with evid := { bitRate := 1000 } } }).clipFits { ask 0 0 with crop := some ⟨0, 0, 1920, 1080⟩ } = false ∧ s.clipFits (ask 0 0) = true ∧ { s with pwr := { s.pwr with step := 1 } }.evidCheck (ask 0 0) = some fltVenShed
      ∧ s.openClip 3 = none ∧ (s.bindClip 1 0 (ask 5 1)).isSome = true := by decide +kernel

theorem witness_EvidenceRequests_bind :
    let t := after (.clipRequest (ask 1 30)) (slot3 holding)
    t.evid.clips.map (fun c => (c.id, c.first, c.last, c.engine)) = [(1, 11, 42, 0)] ∧ t.evid.clips.map (fun c => c.held.map (·.seq)) = [[11, 12]]
      ∧ (t.openClip 3).isSome = true
      ∧ (after (.clipRequest (ask 0 900)) t).evid.clips.map (fun c => (c.id, c.first, c.last)) = [(1, 11, 912)]
      ∧ (after (.clipRequest (ask 5 0)) (slot3 holding)).evid.clips.map (fun c => (c.first, c.short)) = [(10, true)] := by decide +kernel

/-- The encode engines have no room: 16 requests wait, the next is refused. -/
theorem witness_EvidenceRequests_queue :
    let big := { holding with ring := [{ pic 12 with width := 8192, height := 8192 }] }
    let s := slot3 { big with cfg := { big.cfg with stream := { big.cfg.stream with maxW := 8192, maxH := 8192 } } }
    let full := { s with evid := { s.evid with queue := copies 16 (1, 0, ask 0 0) } }
    s.bindClip 1 0 (ask 0 0) = none ∧ (after (.clipRequest (ask 0 0)) s).evid.queue.length = 1
      ∧ (after (.clipRequest (ask 0 0)) full).evid.queue.length = 16 ∧ (after .clipBind full).evid.queue.length = 16
      ∧ (after .clipBind { slot3 holding with evid := { queue := [(1, 0, ask 0 0)] } }).evid.queue = [] := by decide +kernel

theorem witness_EvidenceRequests_snapshot :
    let s := slot3 holding
    let t := after (.snapshotRequest (ask 0 0)) s
    (s.reserve 2 (ceilDiv (s.slot 3).cfg.evid.snapMax pageSize + 1) 0 s.mem.videoSet).isSome = true
      ∧ t.evid.snaps.map (fun k => (k.id, k.pic.seq, k.q)) = [(1, 12, 85)]
      ∧ (after (.evidenceRelease 4) { s with evid := { s.evid with outs := [⟨4, 3, [70], 71, 0⟩] } }).evid.outs = []
      ∧ (after (.evidenceRetainExpiry 4) { s with evid := { s.evid with outs := [⟨4, 3, [70], 71, 0⟩] } }).evid.outs = [] := by decide +kernel

def clip (enc : Nat) : Clip := { id := 1, slot := 3, first := 11, last := 42, next := 11, crop := ⟨0, 0, 1920, 1080⟩, held := [pic 11, pic 12], enc := enc }
def encoding (g : EncEngine) (e : Evid) : State := { slot3 holding with evid := { e with engines := [(0, g)] } }

theorem witness_EncodeEngine_steps :
    let k : Snapshot := { id := 2, slot := 3, pic := pic 12, crop := ⟨0, 0, 64, 64⟩, q := 85 }
    let c : Evid := { clips := [clip 1] }
    (encoding {} c).nextWork 0 = some (.clip 1, 3) ∧ (encoding {} { snaps := [k] }).nextWork 0 = some (.snap 2, 3)
      ∧ ((after (.encodeStart 0 0) (encoding {} { snaps := [k] })).encEngine 0).st = 1
      ∧ ((after (.encodeStart 0 0) (encoding { lastClip := some 9 } c)).encEngine 0).st = 2
      ∧ (encoding {} {}).nextWork 0 = none ∧ ((after (.encodeStart 0 5) (encoding {} {})).encEngine 0) = { ticks := 5 }
      ∧ ((after (.encodeSaveDone 0 0) (encoding { st := 2, work := some (.clip 1) } c)).encEngine 0).st = 3
      ∧ ((after (.encodeSaveDone 0 0) (encoding { st := 2, work := some (.clip 1) } { clips := [clip 0] })).encEngine 0).st = 1
      ∧ ((after (.encodeRestoreDone 0 0) (encoding { st := 3, work := some (.clip 1) } c)).encEngine 0).st = 1
      := by decide +kernel

/-- A pass is beyond an empty CPB; the third pass is kept whatever its size. -/
theorem witness_EncodeEngine_passes (source tag : List Byte) :
    let c := { clip 1 with fullness := 0 }
    let s := fun (pass : Nat) => encoding { st := 1, work := some (.clip 1), pass := pass } { clips := [c] }
    (cpbBounds c.cfg c.num c.den c.fullness).2 < ((s 0).encodePass c 0 false source tag).bits ∧ ((c.nextPic ⟨false, false⟩).repeats c.enc) = false
      ∧ ((s 2).encEngine 0).pass = 2 ∧ c.next < c.last ∧ (s 0).evid.clips.find? (fun c => c.id == 1) = some c := by
  refine ⟨?_, by decide +kernel, by decide +kernel, by decide +kernel, by decide +kernel⟩
  have h : (cpbBounds (clip 1).cfg (clip 1).num (clip 1).den 0).2 = 0 := by decide +kernel
  simp only [h, State.encodePass, tagSei, List.length_append, List.length_cons]
  omega

/-- An image is larger than 1 byte. -/
theorem jpeg_long (q w h : Nat) (a b : List Byte) : 1 < (jpegImage q w h a b).length := by
  simp only [jpegImage, List.length_append, List.length_cons]; omega

/-- A snapshot larger than its bound is taken again at half its quality, or given up after two more tries. -/
theorem witness_EncodeEngine_snapshot (failed : Bool) :
    let k : Snapshot := { id := 2, slot := 3, pic := pic 12, crop := ⟨0, 0, 64, 64⟩, q := 85, maxBytes := 1 }
    let s := fun (k : Snapshot) => encoding { st := 1, work := some (.snap 2) } { snaps := [k] }
    k.maxBytes < (((s k).encTick 0 0).snapImage k failed).1.length
      ∧ ((s k).encEngine 0).work = some (.snap 2) ∧ (s k).evid.snaps.find? (fun k => k.id == 2) = some k
      ∧ (s { k with tries := 2 }).evid.snaps.find? (fun k => k.id == 2) = some { k with tries := 2 } :=
  ⟨jpeg_long _ _ _ _ _, by decide +kernel, by decide +kernel, by decide +kernel⟩

/-- R111: codes of Annex K.3: DC categories 0 and 5, end of block, sixteen zeros; K.1 scaled by 85 starts with 5. -/
theorem test_jpeg_tables :
    dcLuma.code 0 = [false, false] ∧ dcLuma.code 5 = [true, true, false] ∧ acLuma.code 0 = [true, false, true, false]
      ∧ acLuma.code 0xF0 = copies 8 true ++ [false, false, true] ∧ (jpegScaled 85 jpegLuma).headD 0 = 5 ∧ extraBits (-3) = [false, false]
      ∧ Rect.outward16 ⟨17, 0, 16, 1⟩ = ⟨16, 0, 32, 16⟩ ∧ jpegSample 10 (1023 * 64) = 255 := by decide +kernel

/-- R104: a cycle of 30 pictures over 60 columns refreshes two a picture. -/
theorem test_refresh_cycle :
    refreshColumns 1 30 60 = (0, 2) ∧ refreshColumns 30 30 60 = (58, 60) ∧ refreshColumns 31 30 60 = (0, 2)
      ∧ (picturePlan 1920 30 1 20 false).columns.length = 60 ∧ (picturePlan 1920 30 1 20 false).boundary = some 2
      ∧ (picturePlan 1920 30 30 20 false).boundary = none ∧ (picturePlan 1920 30 2 20 true).columns.take 4 = [.skip, .skip, .intraDc 128, .intraDc 128]
      ∧ fillerNal 6 = [0#8, 0#8, 1#8, 0x4C#8, 1#8, 0x80#8] := by decide +kernel

/-- R109: the CPB of 4 Mbit at 4 Mbit/s and 30 pictures a second, full: a picture may take it all. R108: pass 2 is kept where pass 1 is beyond bmax. -/
theorem witness_EncodeEngine_cpb :
    let full := 4000000 * (90000 * 30)
    cpbBounds {} 30 1 full = (133334, 4000000)
      ∧ cpbNext {} 30 1 full (133334 + 8 * fillerOf 133334 133334) ≤ full ∧ fillerOf 133334 0 = 16667 := by decide +kernel

/-! ### Skiver and steering -/

/-- Context 1 on cluster 0, resident, holding page 5 through reservation 7. -/
def ctx1 : Ctx := { st := .resident, k := 1, map := [0], pages := [5], res := 7 }
def withCtx1 (s : State) : State := { s with
  ctxs := [(1, ctx1)], clusters := [(0, { assigned := true, ctx := 1, pwr := 0xFFFF })]
  tkp := { s.tkp with pages := [(5, { st := .held, holder := 7 })]
                      fbs := [(2, { inUse := true, live := true, refs := 1, slot := 3, picW := 16, picH := 16, extent := 0 })]
                      extents := [(0, some { slot := 3, bufSize := 65536, frame := 6144, w := 16, h := 16, pages := [6] })] } }
def fb2 : Nat := 2 ^ 30 + 2
/-- A null job of slot 3 with one crop output, its tables on page 5. -/
def nullJob : Job :=
  { fb := fb2, slot := 3, nOut := 1, flags := 2, pts := 9, seq := 1, ctx := 1, gateCore := 0, gateCtr := 4, doneCtr := 5, gateN := 0
    doneCore := 0, doneN := 2, outAddr := 0x50000, coefAddr := 0x50040, nReg := 0, regions := [] }
def skv (q : List Job) : State :=
  let s := withCtx1 { live with slots := [(3, cam)] }
  { s with skv := { s.skv with queue := q }, mem := { s.mem with bytes := [(0x50010, 16#8), (0x50012, 16#8)] } }

theorem witness_SkiverJobs_submit :
    let s := { skv [] with heldLow := [(latchKey .cantle skvSubmitOff, some 0x60000)] }
    s.reaches .cantle skvSubmitOff = true ∧ tget none s.heldLow (latchKey .cantle skvSubmitOff) = some 0x60000
      ∧ (after (.skiverSubmit .cantle 0) s).skv.queue.length = 1 ∧ (after (.skiverSubmit .cantle 0) s).heldLow = []
      ∧ after (.skiverSubmit .cantle 0) (skv []) = skv []
      ∧ (after (.skiverSubmit .cantle 0) { s with heldLow := [(latchKey .cantle skvSubmitOff, some 0x60020)] }).skv.queue = []
      ∧ (after (.skiverSubmit .cantle 0) { s with skv := { s.skv with queue := copies 256 nullJob } }).skv.overflow = true := by decide +kernel

/-- A submission of a live buffer's job holds its reference. -/
theorem witness_SkiverJobs_reference :
    let s := skv []
    let s := { s with mem := { s.mem with bytes := wrList [] 0x60000 (leBytes 4 fb2 ++ leBytes 1 3) }
                      heldLow := [(latchKey .cantle skvSubmitOff, some 0x60000)] }
    let t := after (.skiverSubmit .cantle 0) s
    t.skv.queue.map (fun j => (j.fb, j.slot, j.refHeld)) = [(fb2, 3, true)] ∧ (t.fb 2).refs = 2 := by decide +kernel

/-! A valid job needs a table of taps whose 128 phases sum to 256: that table, and what the job reads of it. -/
/-- `n` copies of a block. -/
def rep (b : List Byte) : Nat → List Byte
  | 0 => []
  | n + 1 => b ++ rep b n
theorem drop_rep (b tail : List Byte) (p n : Nat) (h : p ≤ n) : (rep b n ++ tail).drop (b.length * p) = rep b (n - p) ++ tail := by
  induction p generalizing n with
  | zero => simp
  | succ p ih =>
    cases n with
    | zero => omega
    | succ n => rw [Nat.mul_succ, Nat.add_comm, ← List.drop_drop, rep, List.append_assoc, List.drop_left, ih n (by omega), Nat.succ_sub_succ]
theorem field_rep (b tail : List Byte) (p n o : Nat) (h : p < n) (ho : o + 2 ≤ b.length) :
    fieldAt (rep b n ++ tail) (b.length * p + o) 2 = fieldAt b o 2 := by
  obtain ⟨m, hm⟩ : ∃ m, n - p = m + 1 := ⟨n - p - 1, by omega⟩
  rw [fieldAt, ← List.drop_drop, drop_rep b tail p n (by omega), hm, rep, List.append_assoc, List.drop_append_of_le_length (by omega),
    List.take_append_of_le_length (by simp; omega), fieldAt]
def lumaBlk : List Byte := [0#8, 0#8, 0#8, 0#8, 0#8, 0#8, 0#8, 1#8, 0#8, 0#8, 0#8, 0#8, 0#8, 0#8, 0#8, 0#8]
def chromaBlk : List Byte := [0#8, 0#8, 0#8, 1#8, 0#8, 0#8, 0#8, 0#8]
@[irreducible] def coefBytes : List Byte := rep lumaBlk 64 ++ (rep chromaBlk 64 ++ [])
theorem mem_upto {a n i : Nat} (h : i ∈ upto a n) : i < a + n := by
  induction n generalizing a with
  | zero => simp [upto] at h
  | succ n ih =>
    rcases List.mem_cons.1 h with rfl | h
    · omega
    · have := ih h; omega
theorem rep_length (b : List Byte) (n : Nat) : (rep b n).length = b.length * n := by
  induction n with
  | zero => rfl
  | succ n ih => simp [rep, ih, Nat.mul_succ, Nat.add_comm]
theorem coefs_of (b : List Byte)
    (hl : ∀ p < 64, ∀ k < 8, fieldAt b (16 * p + 2 * k) 2 = fieldAt lumaBlk (2 * k) 2)
    (hc : ∀ p < 64, ∀ k < 4, fieldAt b (1024 + 8 * p + 2 * k) 2 = fieldAt chromaBlk (2 * k) 2) : readCoefs b =
    { luma := (upto 0 64).map (fun _ => [0, 0, 0, 256, 0, 0, 0, 0]), chroma := (upto 0 64).map (fun _ => [0, 256, 0, 0]) } := by
  have h1 : ([0, 0, 0, 256, 0, 0, 0, 0] : List Int) = (upto 0 8).map (fun k => sgn 16 (fieldAt lumaBlk (2 * k) 2)) := by decide +kernel
  have h2 : ([0, 256, 0, 0] : List Int) = (upto 0 4).map (fun k => sgn 16 (fieldAt chromaBlk (2 * k) 2)) := by decide +kernel
  rw [h1, h2, readCoefs, Coefs.mk.injEq]
  constructor
  · refine List.map_congr_left (fun p hp => List.map_congr_left (fun k hk => ?_))
    have hp := mem_upto hp
    have hk := mem_upto hk
    show sgn 16 (fieldAt b (16 * p + 2 * k) 2) = _
    rw [hl p (by omega) k (by omega)]
  · refine List.map_congr_left (fun p hp => List.map_congr_left (fun k hk => ?_))
    have hp := mem_upto hp
    have hk := mem_upto hk
    show sgn 16 (fieldAt b (1024 + 8 * p + 2 * k) 2) = _
    rw [hc p (by omega) k (by omega)]
theorem coefs_read : readCoefs coefBytes =
    { luma := (upto 0 64).map (fun _ => [0, 0, 0, 256, 0, 0, 0, 0]), chroma := (upto 0 64).map (fun _ => [0, 256, 0, 0]) } := by
  rw [coefBytes]
  refine coefs_of _ (fun p hp k hk => field_rep lumaBlk _ p 64 (2 * k) hp ?_) (fun p hp k hk => ?_)
  · have : lumaBlk.length = 16 := rfl
    omega
  · have h8 : chromaBlk.length = 8 := rfl
    have h := field_rep chromaBlk [] p 64 (2 * k) hp (by omega)
    rw [← h, h8, fieldAt, fieldAt, Nat.add_assoc 1024, ← List.drop_drop, List.drop_left' (by rw [rep_length]; rfl)]
theorem coefs_ok : ((readCoefs coefBytes).luma ++ (readCoefs coefBytes).chroma).all phaseOk = true := by
  rw [coefs_read]; decide +kernel
theorem upto_length (a n : Nat) : (upto a n).length = n := by
  induction n generalizing a with
  | zero => rfl
  | succ n ih => simp [upto, ih]
theorem upto_get (a n i : Nat) (h : i < (upto a n).length) : (upto a n)[i] = a + i := by
  induction n generalizing a i with
  | zero => simp [upto] at h
  | succ n ih =>
    cases i with
    | zero => rfl
    | succ i => simp [upto, ih]; omega
/-- What is seen inside and below written bytes, where no merge is pending. -/
theorem seen_in (s : State) (hm : s.mem.chans = []) (a : Nat) (bs : List Byte) : (s.wrBytes a bs).seen a bs.length = bs := by
  refine List.ext_getElem (by simp [State.seen, upto_length]) (fun i h1 h2 => ?_)
  have he : ∀ l, (s.wrBytes a bs).entryOf l = none := by intro l; simp [State.entryOf, State.chan, State.wrBytes, hm]
  simp only [State.seen, List.getElem_map, upto_get, he, ite_self]
  exact tget_wrList_in s.mem.bytes a bs i h2
theorem seen_below (s : State) (a : Nat) (bs : List Byte) (x n : Nat) (h : x + n ≤ a) : (s.wrBytes a bs).seen x n = s.seen x n := by
  refine List.map_congr_left (fun y hy => ?_)
  have hy := mem_upto hy
  have hr : (s.wrBytes a bs).rdByte y = s.rdByte y := tget_wrList_out s.mem.bytes a bs y (Or.inl (by omega))
  have he : ∀ l, (s.wrBytes a bs).entryOf l = s.entryOf l := fun _ => rfl
  simp only [hr, he]

/-- `skv` with the table of taps behind the output descriptor. -/
def skvTaps (q : List Job) : State := (skv q).wrBytes 0x50040 coefBytes

/-- The job's faults depend on the outputs and the taps that it sees. -/
theorem valid_of (s : State) (j : Job) (outs : List OutDesc) (b : List Byte) (ho : s.jobOuts j = outs) (hb : s.seen j.coefAddr 1536 = b)
    (h1 : s.handleOk j = true) (h2 : j.rangeOk (s.ctx j.ctx).numCores = true)
    (h3 : j.regions.all (fun r => regionOk r outs (s.fb (fbIndex j.fb)).picW (s.fb (fbIndex j.fb)).picH) = true)
    (h4 : indexOk j.regions outs = true) (h8 : sweepOk j outs (s.fb (fbIndex j.fb)).picW (s.fb (fbIndex j.fb)).picH = true) (h5 : outs.all OutDesc.ok = true) (h6 : s.placesOk j outs = true)
    (h7 : ((readCoefs b).luma ++ (readCoefs b).chroma).all phaseOk = true) : s.jobFault j = none := by
  simp [State.jobFault, ho, hb, h1, h2, h3, h4, h5, h6, h7, h8]

theorem outs_of (s : State) (j : Job) (a : Nat) (b : List Byte) (hn : j.nOut = 1) (ha : j.outAddr = a) (hb : s.seen a 64 = b) :
    s.jobOuts j = [readOut b] := by
  simp [State.jobOuts, hn, ha, hb, upto]

def outBytes : List Byte := (skv []).seen 0x50000 64

theorem taps_valid (q : List Job) : (skvTaps q).jobFault nullJob = none := by
  have h4 : (skvTaps q).seen 0x50040 1536 = coefBytes := by
    have h := seen_in (skv q) rfl 0x50040 coefBytes
    have hl : coefBytes.length = 1536 := by rw [coefBytes]; simp [rep_length, lumaBlk, chromaBlk]
    rwa [hl] at h
  have h5 : [readOut outBytes].all OutDesc.ok = true := by decide +kernel
  have h6 : (skv []).placesOk nullJob [readOut outBytes] = true := by decide +kernel
  exact valid_of _ _ _ _ (outs_of _ _ 0x50000 outBytes rfl rfl (seen_below _ _ _ _ _ (by decide))) h4 rfl rfl rfl rfl rfl h5 h6 coefs_ok

theorem witness_SkiverJobs_run : (skvTaps [nullJob]).nextJob = some nullJob ∧ (skvTaps []).jobFault nullJob = none := by
  refine ⟨?_, taps_valid []⟩
  have h : (skvTaps [nullJob]).jobReady nullJob = true := by rw [State.jobReady, taps_valid]; decide +kernel
  have hc : (skvTaps [nullJob]).slotClass nullJob.slot = 0 := rfl
  have hq : (skvTaps [nullJob]).skv.queue = [nullJob] := rfl
  simp [State.nextJob, upto, hq, h, hc]

theorem witness_SkiverJobs_complete :
    let s := { skv [] with skv := { (skv []).skv with units := [(2, { st := 1, job := some { nullJob with refHeld := true } })] } }
    (after (.skiverJobComplete 2 50) s).flight = [{ ctx := 1, core := 0, ctr := 5, n := 2, fromCtx := false, src := 0x102 }]
      ∧ ((after (.skiverJobComplete 2 50) s).skvUnit 2).jobs = 1 ∧ ((after (.skiverJobComplete 2 50) s).fb 2).inUse = true
      ∧ ((after (.skiverJobComplete 2 50) s).fb 2).refs = 0 := by decide +kernel

/-- A job of a dead handle is refused; a live slot's job goes before an older one of a replay slot. -/
theorem witness_SkiverJobs_order :
    let bad := { nullJob with fb := fb2 + 1, addr := 0x60000 }
    let old := { bad with slot := 4, ctx := 2 }
    let s := skv [old, bad]
    let s := { s with slots := [(3, cam), (4, { cam with cfg := { cam.cfg with stream := { cam.cfg.stream with priority := 2 } } })] }
    s.nextJob = some bad ∧ s.jobFault bad = some fltSkvHandle ∧ (after (.skiverJobStart 0 false) s).skv.queue = [old]
      ∧ (skv []).nextJob = none := by decide +kernel

/-- The Skiver's geometry at the edges of its ranges. -/
theorem witness_SkiverJobs_sizes :
    fitSize 1920 1080 1280 736 1 = (1280, 720) ∧ fitSize 2 4096 16 16 1 = (1, 16) ∧ fitSize 1920 1080 1280 736 0 = (1280, 736)
      ∧ boxFactor 1280 1920 = 1 ∧ boxFactor 960 1920 = 2 ∧ boxFactor 16 4096 = 16
      ∧ (toRgb 0 0 0 0).all (fun c => decide (c ≤ 1023)) = true ∧ (toRgb 3 1023 1023 1023).all (fun c => decide (c ≤ 1023)) = true := by decide +kernel

/-! Steering: slot 3 with detector 1, whose image declares one output. -/
def skvDecl : SkvDecl := ⟨1, 0, 64, 0, 4, 0, 0, 5, 1⟩
def decl1 : ImageDecl := ⟨[], [], [], [], [], none, 0, true, [], skvDecl, 0, true⟩
def seen (n : Nat) : Pic := { pic n with cfg := { cam.cfg with bound := [1] }, handle := some fb2, width := 16, height := 16, noInter := true }
def steering (p : Pic) (x : Ctx) (subst : Bool) : State :=
  let s := skv []
  { s with ctxs := [(1, { x with decl := some decl1, imagePages := [5] })]
           slots := [(3, { cam with pics := [p], dec := { afterSubst := subst } })] }

def steered (s : State) : List (Nat × List (List Nat)) :=
  (after (.steeringBuild 3 false) s).skv.queue.map (fun j => (j.flags, j.regions.map (fun r => [r.x, r.y, r.w, r.h, r.origin])))

theorem witness_SteeringOutcome :
    (steering (seen 1) ctx1 true).steerable 3 (seen 1) = true
      ∧ steered (steering (seen 1) ctx1 true) = [(5, [[0, 0, 16, 16, 4]])]
      ∧ steered (steering (seen 4) ctx1 false) = [(1, [[0, 0, 16, 16, 4]])]
      ∧ steered (steering (seen 1) ctx1 false) = [(2, [])]
      ∧ steered (steering { seen 1 with subst := some 1 } ctx1 false) = [(2, [])] := by decide +kernel

theorem witness_SteeringOutcome_none :
    ((after (.steeringBuild 3 false) (steering (pic 1) ctx1 true)).slot 3).pics.map (·.skived) = [true]
      ∧ steered (steering (pic 1) ctx1 true) = []
      ∧ ((after (.steeringBuild 3 false) (steering (seen 1) { ctx1 with st := .ended } true)).slot 3).pics.map (·.subst) = [some 10]
      ∧ after (.steeringBuild 3 false) (slot3 cam) = slot3 cam := by decide +kernel

theorem witness_SteeringOutcome_merge :
    (mergeRegions 1 2 [{ x := 0, y := 0, w := 16, h := 16 }, { x := 32, y := 0, w := 16, h := 16 }]) = ([{ x := 0, y := 0, w := 48, h := 16 }], 1) := by decide +kernel

/-! ### Cores -/

/-- A running core 0 of context 1: all blocks valid, all banks powered, owned by the scalar unit. -/
def k0 : Core := { st := .running, ctx := 1, valid := 0xFFFFFFFF, pwr := 0xFF, pc := 9, ibuf := [(9, 0x1234#64)] }
def prog (k : Core) : State := { withCtx1 { live with boot := { live.boot with clusters := 128 } } with cores := [(0, k)] }
def regs : State := prog { k0 with s := [(1, 7#32), (2, 0xFFFFFFFE#32), (3, 0x80000000#32), (4, 0xFFFFFFFF#32)] }

/-! Words in the formats of R150. -/
def rrWord (cls rd rs1 rs2 : Nat) : IWord := BitVec.ofNat 64 (cls * 2 ^ 58 + rd * 2 ^ 47 + rs1 * 2 ^ 42 + rs2 * 2 ^ 37)
def riWord (cls rd rs1 imm : Nat) : IWord := BitVec.ofNat 64 (cls * 2 ^ 58 + rd * 2 ^ 47 + rs1 * 2 ^ 42 + imm)
def brWord (rd rs1 rs2 cond off : Nat) : IWord := BitVec.ofNat 64 (6 * 2 ^ 58 + rd * 2 ^ 47 + rs1 * 2 ^ 42 + rs2 * 2 ^ 37 + cond * 2 ^ 32 + off)
def vvWord (cls vd vs1 vs2 vs3 m ty : Nat) : IWord :=
  BitVec.ofNat 64 (cls * 2 ^ 58 + vd * 2 ^ 47 + vs1 * 2 ^ 42 + vs2 * 2 ^ 37 + vs3 * 2 ^ 32 + m * 2 ^ 29 + ty * 2 ^ 25)
def vmWord (vd base m ty off : Nat) : IWord := BitVec.ofNat 64 (0x1C * 2 ^ 58 + vd * 2 ^ 47 + base * 2 ^ 42 + m * 2 ^ 29 + ty * 2 ^ 25 + off)

/-- Core 0 with a command's word at its PC. -/
def place (c : Instr) (s : State) : State := match Instr.coreWord c with
  | some w => s.modCore 0 (fun k => { k with ibuf := tset 0#64 k.ibuf k.pc w.2 })
  | none => s
/-- The state after a command of core 0, its word at the PC. -/
def run (c : Instr) (s : State) : State := after c (place c s)

def alu (op : AluOp) (a b : Nat) : Nat := ((run (.scalarAlu 0 op ⟨rrWord 0 5 a b, false⟩) regs).sreg 0 5).toNat
def aluI (op : AluOp) (a imm : Nat) : Nat := ((run (.scalarAlu 0 op ⟨riWord 0 5 a imm, true⟩) regs).sreg 0 5).toNat
def mul (op : MulOp) (a b : Nat) : Nat := ((run (.scalarMuldiv 0 op ⟨rrWord 4 5 a b, false⟩) regs).sreg 0 5).toNat

theorem witness_ScalarResults_alu :
    (regs.core 0).canIssue = true ∧ alu .add 1 2 = 5 ∧ alu .sub 1 2 = 9 ∧ alu .slt 2 1 = 1 ∧ alu .sltu 2 1 = 0
      ∧ alu .min 1 2 = 0xFFFFFFFE ∧ alu .minu 1 2 = 7 ∧ aluI .sll 1 31 = 0x80000000 ∧ aluI .srl 3 31 = 1
      ∧ aluI .sra 3 31 = 0xFFFFFFFF ∧ aluI .add 1 0xFFFFFFFF = 6
      ∧ 32 ≤ (regs.src2 0 ⟨riWord 0 5 1 32, true⟩).toNat ∧ (run (.scalarAlu 0 .add ⟨rrWord 0 0 1 1, false⟩) regs).sreg 0 0 = 0#32
      ∧ ((run (.scalarAlu 0 .add ⟨rrWord 0 5 1 1, false⟩) regs).core 0).pc = 10
      ∧ after (.scalarAlu 0 .add ⟨rrWord 0 5 1 1, false⟩) regs = regs
      ∧ run (.scalarAlu 0 .add ⟨rrWord 4 5 1 1, false⟩) regs = place (.scalarAlu 0 .add ⟨rrWord 4 5 1 1, false⟩) regs := by decide +kernel

theorem witness_ScalarResults_mul :
    mul .mul 1 2 = 0xFFFFFFF2 ∧ mul .mulh 1 2 = 0xFFFFFFFF ∧ mul .mulhu 1 2 = 6 ∧ mul .div 1 0 = 0xFFFFFFFF ∧ mul .rem 1 0 = 7
      ∧ mul .div 3 4 = 0x80000000 ∧ mul .rem 3 4 = 0 ∧ mul .div 1 2 = 0xFFFFFFFD ∧ mul .rem 1 2 = 1 ∧ mul .divu 2 1 = 0x24924924 ∧ mul .remu 2 1 = 2
      ∧ regs.sreg 0 3 = 0x80000000#32 ∧ regs.sreg 0 4 = 0xFFFFFFFF#32 := by decide +kernel

theorem witness_ScalarResults_branch :
    let csr := fun (n : Nat) => (run (.csrRead 0 5 n (riWord 7 5 0 n)) regs).sreg 0 5
    ((run (.branch 0 0 1 2 .ltu (-10) (brWord 0 1 2 4 0xFFFFFFF6)) regs).core 0).pc = 2047
      ∧ ((run (.branch 0 0 1 2 .lt (-10) (brWord 0 1 2 2 0xFFFFFFF6)) regs).core 0).pc = 10
      ∧ ((run (.branch 0 6 0 0 .always 100 (brWord 6 0 0 6 100)) regs).core 0).pc = 109
      ∧ (run (.branch 0 6 0 0 .always 100 (brWord 6 0 0 6 100)) regs).sreg 0 6 = 10#32
      ∧ csr 1 = 1#32 ∧ csr 5 = 255#32 ∧ csr 2 = 1#32 ∧ csr 0 = 0#32 := by decide +kernel

/-! Scratchpads: bytes 0x80 0x01 at the last two offsets; bank 1 belongs to the vector unit, bank 2 is off. -/
def spad : State :=
  let s := prog { k0 with own := [(1, 1)], pwr := 0xFB, s := [(1, 0x1FFFE#32), (2, 0x4000#32), (3, 0x8000#32), (4, 0x12345678#32)], m := [(1, 5#64)] }
  { s with mem := { s.mem with bytes := [(coreBase 0 + 0x1FFFE, 0x80#8), (coreBase 0 + 0x1FFFF, 0x81#8)] } }
/-- Code of the last fault record. -/
def code (s : State) : Nat := fieldAt s.od.lastRecord 12 2
def ld (n : Nat) (signed : Bool) (base : Nat) (imm : Nat) : Instr := .scalarLoadStore 0 (.load n signed) ⟨riWord 5 5 base imm, true⟩ noErrors
def st (n : Nat) (base : Nat) (imm : Nat) : Instr := .scalarLoadStore 0 (.store n) ⟨riWord 5 4 base imm, true⟩ noErrors

theorem witness_ScratchpadAccess_scalar :
    (run (ld 2 false 1 0) spad).sreg 0 5 = 0x8180#32 ∧ (run (ld 2 true 1 0) spad).sreg 0 5 = 0xFFFF8180#32
      ∧ (run (ld 1 true 1 1) spad).sreg 0 5 = 0xFFFFFF81#32 ∧ (run (st 1 1 1) spad).rdByte (coreBase 0 + 0x1FFFF) = 0x78#8
      ∧ (run (st 4 0 0) spad).rdNat (coreBase 0) 4 = 0x12345678 ∧ code (run (ld 1 true 1 2) spad) = fltCoreAddr
      ∧ code (run (st 2 1 1) spad) = fltCoreAddr := by decide +kernel

theorem witness_ScratchpadAccess_banks :
    code (run (ld 4 false 2 0) spad) = fltCoreBankOwn ∧ code (run (st 4 3 0) spad) = fltCoreBankOff
      ∧ (spad.core 0).canIssue = true ∧ (spad.core 0).pwr = 0xFB := by decide +kernel

/-- v5 from v1, v2 and v3 under m1; an access of v5 at s2 + `off`. -/
def vf (cls ty : Nat) : VecFields := ⟨vvWord cls 5 1 2 3 1 ty, ty⟩
def vmem (off : Nat) : VecFields := ⟨vmWord 5 2 1 11 off, 11⟩

theorem witness_ScratchpadAccess_vector :
    let s := { spad with mem := { spad.mem with bytes := [(coreBase 0 + 0x4000, 1#8), (coreBase 0 + 0x4004, 2#8), (coreBase 0 + 0x4008, 3#8)] } }
    ((run (.vectorLoadStore 0 false (vmem 0) 2 0) s).vreg 0 5).toNat = 1 + 3 * 2 ^ 64
      ∧ (run (.vectorLoadStore 0 true (vmem 0) 2 0) s).rdBytes (coreBase 0 + 0x4000) 12 = [0#8, 0#8, 0#8, 0#8, 2#8, 0#8, 0#8, 0#8, 0#8, 0#8, 0#8, 0#8]
      ∧ code (run (.vectorLoadStore 0 true (vmem 32) 2 32) s) = fltCoreAddr := by decide +kernel

/-! Vector registers: v1 = 1, 2, 3, … in int16 lanes; v2 = 5 in lane 0. Mask m1 selects lanes 0 and 2. -/
def vecs : State := prog { k0 with v := [(1, ofLanes 16 (upto 1 32)), (2, ofLanes 16 [5])], m := [(1, 5#64), (2, 6#64)] }
def lanesOf (c : Instr) (n : Nat) : List Nat := (lanes 16 ((run c vecs).vreg 0 5)).take n

theorem witness_VectorUnit_lanes :
    lanesOf (.vectorInt 0 .add (vf 0x10 5)) 4 = [6, 0, 3, 0] ∧ lanesOf (.vectorInt 0 .sub (vf 0x10 5)) 4 = [0xFFFC, 0, 3, 0]
      ∧ lanesOf (.vectorInt 0 .mul (vf 0x10 5)) 4 = [5, 0, 0, 0] ∧ lanesOf (.vectorInt 0 .max (vf 0x10 5)) 4 = [5, 0, 3, 0]
      ∧ lanesOf (.vectorInt 0 (.scaleChannel 1 0 0 (-100) 100) (vf 0x10 5)) 4 = [2, 0, 0, 0]
      ∧ lanesOf (.vectorReduction 0 .add ⟨vvWord 0x19 5 1 2 3 0 5, 5⟩) 2 = [528, 0]
      ∧ lanesOf (.vectorPermute 0 (.broadcastLane 31) (vf 0x1B 5)) 4 = [32, 0, 32, 0]
      ∧ lanesOf (.vectorFloat 0 .add (vf 0x14 8)) 4 = [6, 0, 3, 0] := by decide +kernel

theorem witness_VectorUnit_masks :
    (run (.vectorCompare 0 .lt ⟨vvWord 0x18 2 1 2 3 1 5, 5⟩) vecs).mreg 0 2 = 3 ∧ (run (.vectorCompare 0 .maskAnd ⟨vvWord 0x18 3 1 2 3 1 5, 5⟩) vecs).mreg 0 3 = 4
      ∧ (run (.vectorCompare 0 .maskNot ⟨vvWord 0x18 3 0 2 3 1 5, 5⟩) vecs).mreg 0 3 = 0
      ∧ lanesOf (.vectorCompare 0 .select (vf 0x18 5)) 4 = [1, 0, 3, 0]
      ∧ intType 5 = true ∧ floatType 8 = true ∧ redTree .add 5 1 [some 3, some 4] = some 7
      ∧ vIntLane .add 5 0x7FFF 1 = none ∧ vIntLane .add 5 0x7FFE 1 = some 0x7FFF ∧ (run (.vectorConversion 0 { vf 0x1A 5 with ty2 := 11 }) vecs).mreg 0 1 = 5 := by
  decide +kernel

theorem witness_IssueRefusals :
    let bad := fun (c : Instr) => code (run c regs) = fltCoreIllegal
    bad (.scalarAlu 0 .undefined ⟨rrWord 0 5 1 2, false⟩) ∧ bad (.scalarAlu 0 .add ⟨rrWord 0 5 1 2 + 1, false⟩) ∧ bad (.nop 0 0xFC00000000000001#64)
      ∧ bad (.nop 0 0xFC30000000000000#64) ∧ bad (.nop 0 0xF800000000000000#64)
      ∧ bad (.vectorFloat 0 .add (vf 0x14 5)) ∧ bad (.vectorInt 0 .add (vf 0x10 12)) ∧ bad (.vectorConversion 0 { vf 0x1A 5 with ty2 := 12 })
      ∧ bad (.branch 0 0 1 2 .reserved 0 (brWord 0 1 2 7 0)) ∧ bad (.csrRead 0 5 1 (riWord 7 5 0 (2 ^ 37 + 1)))
      ∧ bad (.scalarMuldiv 0 .undefined ⟨rrWord 4 5 1 2, false⟩) ∧ bad (.scalarLoadStore 0 .undefined ⟨riWord 5 5 1 0, true⟩ noErrors)
      ∧ bad (.vectorLoadStore 0 false ⟨vmWord 5 2 1 2 0, 2⟩ 2 0)
      ∧ bad (.bk 0 (BitVec.ofNat 64 (0x38 * 2 ^ 58 + 8 * 2 ^ 48))) ∧ bad (.dmaIssue 0 (BitVec.ofNat 64 (0x30 * 2 ^ 58 + 2 ^ 20)))
      ∧ code (run (.nop 0 0xFC00000000000000#64) (prog { k0 with valid := 2 })) = fltCoreIfetch
      ∧ after (.nop 0 0xFC00000000000000#64) (prog { k0 with valid := 2, fills := [0] }) = prog { k0 with valid := 2, fills := [0] }
      ∧ after (.nop 0 0x1234#64) (prog { k0 with st := .parked }) = prog { k0 with st := .parked }
      ∧ ((run (.dmaIssue 0 0xC000000000000000#64) (prog { k0 with queues := [(3, 4)] })).core 0).stalled = some (.dmaIssue 0 0xC000000000000000#64) := by
  decide +kernel

/-- Words of the classes: R149's table read by its bits. -/
theorem test_core_classes :
    coreClass 0#64 = some .alu ∧ coreClass (rrWord 4 0 0 0) = some .muldiv ∧ coreClass (vmWord 0 0 0 0 0) = some .vmem
      ∧ coreClass 0xD040000000000000#64 = none ∧ coreClass 0xD030000000000000#64 = some .read ∧ coreClass 0x2000000000000000#64 = none
      ∧ coreClass 0xFC20000000000000#64 = some .breakpoint ∧ coreClass 0x8820000000000000#64 = some .oclr := by decide +kernel

/-! System instructions. -/
theorem witness_SystemInstructions_core :
    ((run (.nop 0 0xFC00000000000000#64) regs).core 0).pc = 10 ∧ ((run (.endProgram 0 0xFC10000000000000#64) regs).core 0).st = .ended
      ∧ ((run (.breakpoint 0 0xFC20000000000000#64) regs).core 0).pc = 10
      ∧ ((run (.breakpoint 0 0xFC20000000000000#64) { regs with ctxs := [(1, { ctx1 with debug := true })] }).core 0).st = .waiting
      ∧ tget 0 ((run (.bk 0 (BitVec.ofNat 64 (0x38 * 2 ^ 58 + 7 * 2 ^ 48 + 3 * 2 ^ 46))) regs).core 0).own 7 = 3 := by decide +kernel

def fillWord (first n : Nat) : IWord := BitVec.ofNat 64 (0x31 * 2 ^ 58 + 1 * 2 ^ 42 + first * 2 ^ 21 + n * 2 ^ 15)
theorem witness_SystemInstructions_fill :
    let s := prog { k0 with s := [(1, 0x50200#32)] }
    let t := run (.instructionFill 0 (fillWord 31 1)) s
    (t.core 0).valid = 0x7FFFFFFF ∧ (t.cluster 0).fills = [(0, 31, 0x50200)] ∧ code (run (.instructionFill 0 (fillWord 31 2)) s) = fltCoreIfetch
      ∧ code (run (.instructionFill 0 (fillWord 31 1)) regs) = fltCoreAddr
      ∧ after (.ifillBlockLanded 0) s = s := by decide +kernel

/-- A landed block: its first word is read. -/
theorem witness_SystemInstructions_landed :
    let x := { ctx1 with decl := some ⟨[], [], [], [], [], none, 0, true, [], ⟨1, 0, 64, 0, 4, 0, 0, 5, 1⟩, 0, true⟩, imagePages := [5] }
    let k := { k0 with fills := [31], valid := 0x7FFFFFFF }
    let s := { prog k with ctxs := [(1, x)], mem := { ram.mem with bytes := [(0x50200, 7#8)] }
                           clusters := [(0, { assigned := true, ctx := 1, fills := [(0, 31, 0x50200)] })] }
    s.extOk 1 false (0x50200, 0x50400) = true ∧ (s.ctx 1).translate 0x50200 = some 0x50200
      ∧ ((s.modCluster 0 (fun c => { c with fills := [] })).readRange (dmaPort 0) 0 0x50200 512 noErrors).1 = none
      ∧ code (after (.ifillBlockLanded 0) { s with tkp := {} }) = fltDmaAddr := by decide +kernel

theorem witness_SystemInstructions_queue :
    after (.engineQueueAdvance 0 .dma) regs = regs ∧ after (.signalSend 0) regs = regs
      ∧ tget 0 ((after (.engineQueueAdvance 0 .dma) (prog { k0 with queues := [(3, 4)] })).core 0).queues 3 = 3
      ∧ (after (.signalSend 0) (prog { k0 with sigq := [⟨{ ctx := 1, core := 0, ctr := 4, n := 1, src := 0 }, []⟩] })).flight.length = 1
      ∧ (after (.signalSend 0) (prog { k0 with sigq := [⟨{ ctx := 1, core := 0, ctr := 4, n := 1, src := 0 }, [(0, 1)]⟩] })).flight = []
      ∧ tget 0 (((((after (.engineQueueAdvance 0 .dma) (prog { k0 with queues := [(3, 1)], sigq := [⟨{ ctx := 1, core := 0, ctr := 4, n := 1, src := 0 }, [(3, 1)]⟩] })).core 0).sigq.head?).map (·.behind)).getD [(3, 9)]) 3 = 0 := by
  decide +kernel

/-! ### Cluster DMA -/

/-- A descriptor that copies `len` bytes within cluster 0's buffer, from 0x1000 to `to`, then signals counter 5 by 3. -/
def copyDesc (dst len : Nat) : List Byte :=
  leBytes 8 (clusterBase 0 + 0x1000) ++ leBytes 8 (clusterBase 0 + dst) ++ leBytes 4 len ++ leBytes 2 1 ++ leBytes 2 1 ++ leBytes 16 0
    ++ leBytes 3 0 ++ leBytes 1 5 ++ leBytes 2 0 ++ leBytes 2 3 ++ leBytes 16 0
def queued (b : List Byte) : Desc := { bytes := b, core := 0, ctx := 1, addr := 0x100 }
def dma (ch : Channel) : State :=
  let s := prog { k0 with s := [(1, 0#32)] }
  { s with clusters := [(0, { assigned := true, ctx := 1, pwr := 0xFFFF, chans := [(0, ch)] })]
           mem := { s.mem with bytes := [(clusterBase 0 + 0x1000, 9#8)] } }
def moving (ch : Channel) : State := after (.dmaDescriptorStart 0 0 ⟨noErrors, [], []⟩) (dma ch)

theorem witness_ClusterDma_issue :
    let t := run (.dmaIssue 0 0xC000000000000040#64) (dma {})
    (t.channel 0 0).queue.map (fun d => (d.core, d.ctx, d.addr, d.bytes.length)) = [(0, 1, coreBase 0 + 0x40, 64)]
      ∧ tget 0 (t.core 0).queues 3 = 1 ∧ (t.core 0).pc = 10
      ∧ ((run (.dmaIssue 0 0xC000000000000040#64) (dma { queue := copies 16 (queued []) })).core 0).stalled = some (.dmaIssue 0 0xC000000000000040#64) := by
  decide +kernel

theorem witness_ClusterDma_start :
    let t := moving { queue := [queued (copyDesc 0x2000 4)] }
    (readDesc (copyDesc 0x2000 4)).ok 16 = true ∧ t.rdBytes (clusterBase 0 + 0x2000) 2 = [9#8, 0#8] ∧ (t.channel 0 0).bytes = 4
      ∧ (t.channel 0 0).busy = some (queued (copyDesc 0x2000 4)) ∧ (t.channel 0 0).queue = [] := by decide +kernel

/-- Fills go first (R154); conflict cycles met are counted (R164). -/
theorem witness_ClusterDma_fills :
    let s := dma { queue := [queued (copyDesc 0x2000 4)] }
    let f := s.modCluster 0 (fun c => { c with fills := [(0, 31, 0x50200)] })
    after (.dmaDescriptorStart 0 0 ⟨noErrors, [], []⟩) f = f
      ∧ ((after (.dmaDescriptorStart 0 0 ⟨noErrors, [], [⟨0, 3, false⟩]⟩) s).cluster 0).conflicts = 3 := by decide +kernel

theorem witness_ClusterDma_refused :
    code (moving { queue := [queued (copyDesc 0x1003 4)] }) = fltDmaDesc ∧ code (moving { queue := [queued (copyDesc 0x200000 4)] }) = fltDmaAddr
      ∧ (readDesc (copyDesc 0x1004 4)).ok 16 = true ∧ moving {} = dma {} := by decide +kernel

theorem witness_ClusterDma_complete :
    let s := dma { busy := some (queued (copyDesc 0x2000 4)) }
    (after (.dmaDescriptorComplete 0 0 7) s).flight = [{ ctx := 1, core := 0, ctr := 5, n := 3, src := 0 }]
      ∧ ((after (.dmaDescriptorComplete 0 0 7) s).channel 0 0).busy = none ∧ after (.dmaDescriptorComplete 0 0 7) (dma {}) = dma {} := by decide +kernel

/-! ### Array and narrowing -/

/-- A table of two dimensions: 4 rows of 16 lanes. Tensor 0 holds int8 rows at 0, tensor 1 accumulator rows at 0x1_8000, tensor 2 int8 rows at 0x4000. -/
def levelBytes (b0 b1 : Nat) : List Byte := leBytes 4 0x3FFC8 ++ leBytes 2 b0 ++ leBytes 2 b1 ++ leBytes 8 0x0001000100010001 ++ leBytes 16 0
def tensorBytes (sbase format role s0 s1 : Nat) : List Byte :=
  leBytes 16 0 ++ leBytes 8 sbase ++ [BitVec.ofNat 8 format, BitVec.ofNat 8 role, 2#8, 1#8] ++ leBytes 4 0
    ++ leBytes 4 16 ++ leBytes 4 4 ++ leBytes 8 0 ++ leBytes 6 0x100 ++ leBytes 6 1 ++ leBytes 28 0
    ++ leBytes 4 s0 ++ leBytes 4 s1 ++ leBytes 24 0 ++ leBytes 4 s0 ++ leBytes 4 s1 ++ leBytes 32 0
def tabBytes : List Byte :=
  [0#8, 2#8, 3#8, 0#8, 0#8, 0#8, 0#8, 0#8] ++ leBytes 4 4 ++ leBytes 4 16 ++ leBytes 16 0x00000001000000010000000100000001 ++ leBytes 32 0
    ++ (levelBytes 1 1 ++ levelBytes 1 1 ++ levelBytes 1 1 ++ levelBytes 1 1 ++ levelBytes 4 1 ++ levelBytes 1 16)
    ++ (tensorBytes 0 1 0 1 16 ++ tensorBytes 0x18000 11 1 4 64 ++ tensorBytes 0x4000 1 0 1 16 ++ leBytes 160 0)
def tile0 : TabSlot := { table := tabBytes, cur := [(2, some (copies 6 0)), (3, some (copies 6 0)), (4, some (copies 6 0))] }

/-- A core whose banks all belong to `o`, with the table in slot 0: stream 0 reads tensor 0, 1 writes and 2 reads tensor 1, 3 writes and 4 reads tensor 2. -/
def arrayCore (o : Nat) (x : Core) : State :=
  let s := prog { x with
    own := (upto 0 8).map (fun b => (b, o)), tabs := [(0, tile0)], s := [(1, 0x8000#32)]
    streams := [(0, some ⟨0, 0, false, 0⟩), (1, some ⟨0, 1, true, 0⟩), (2, some ⟨0, 1, false, 0⟩), (3, some ⟨0, 2, true, 0⟩), (4, some ⟨0, 2, false, 0⟩)] }
  { s with mem := { s.mem with bytes := [(coreBase 0, 5#8), (coreBase 0 + 0x4000, 3#8), (coreBase 0 + 0x18000, 64#8)] } }
def held0 : HeldOp := { fmtS := 1, fmtT := 1, mode := 0, k := 16, rows := [3 :: copies 15 0] ++ copies 15 (copies 16 0), exps := [] }
/-- int8 × int8 words: LDS of 16 lines from 0x4000, STRM of one row, OSTR of one row, ODRN and OCLR. -/
def ldsWord : IWord := BitVec.ofNat 64 (0x20 * 2 ^ 58 + 2 ^ 48 + 2 ^ 44 + 2 ^ 17 + 0x4000)
def strmWord (acc : Nat) : IWord := BitVec.ofNat 64 (0x21 * 2 ^ 58 + 2 ^ 48 + 2 ^ 44 + acc * 2 ^ 41 + 1 * 2 ^ 26 + 1)
def ostrWord : IWord := BitVec.ofNat 64 (0x22 * 2 ^ 58 + 2 ^ 48 + 2 ^ 44 + 2 * 2 ^ 42 + 4 * 2 ^ 29 + 1)
def odrnWord (t : Nat) : IWord := BitVec.ofNat 64 (0x22 * 2 ^ 58 + 2 ^ 52 + t * 2 ^ 44 + 2 * 2 ^ 42 + 1 * 2 ^ 26)
def oclrWord : IWord := BitVec.ofNat 64 (0x22 * 2 ^ 58 + 2 * 2 ^ 52 + 11 * 2 ^ 44 + 2 * 2 ^ 42)

theorem witness_ArrayInstructions_lds :
    ((run (.lds 0 ldsWord) (arrayCore 2 k0)).core 0).held = some held0
      ∧ code (run (.lds 0 (ldsWord + 0x10000040000#64)) (arrayCore 2 k0)) = 0 ∧ ((run (.lds 0 ldsWord) (arrayCore 2 k0)).core 0).pc = 10
      ∧ code (run (.lds 0 (ldsWord + 0x10000020000#64)) (arrayCore 2 k0)) = fltCoreTranspose := by decide +kernel

theorem witness_ArrayInstructions_strm :
    (run (.strm 0 (strmWord 0)) (arrayCore 2 { k0 with held := some held0 })).rdNat (coreBase 0 + 0x18000) 4 = 15
      ∧ (run (.strm 0 (strmWord 1)) (arrayCore 2 { k0 with held := some held0 })).rdNat (coreBase 0 + 0x18000) 4 = 79 := by decide +kernel

theorem witness_ArrayInstructions_faults :
    code (run (.strm 0 (strmWord 0)) (arrayCore 2 k0)) = fltArrState
      ∧ code (run (.strm 0 (strmWord 0)) (arrayCore 2 { k0 with held := some { held0 with fmtT := 0 } })) = fltArrState
      ∧ code (run (.strm 0 (strmWord 0 + 4 * 2 ^ 26)) (arrayCore 2 { k0 with held := some held0 })) = fltTileStream
      ∧ code (run (.strm 0 (strmWord 0 + 2 ^ 35)) (arrayCore 2 { k0 with held := some held0 })) = fltArrZp
      ∧ code (run (.ostr 0 ostrWord) (arrayCore 2 { k0 with osFloat := true })) = fltArrState
      ∧ code (run (.odrn 0 (odrnWord 10)) (arrayCore 2 k0)) = fltArrState := by decide +kernel

theorem witness_ArrayInstructions_os :
    let t := run (.ostr 0 ostrWord) (arrayCore 2 k0)
    ((t.core 0).cell 0).toNat = 15 ∧ ((t.core 0).cell 1).toNat = 0
      ∧ ((run (.oclr 0 oclrWord) (arrayCore 2 { k0 with osFloat := true, os := [(3, 1#32)] })).core 0).os = [] := by decide +kernel

theorem witness_ArrayInstructions_odrn :
    (run (.odrn 0 (odrnWord 11)) (arrayCore 2 { k0 with os := [(209, 7#32)] })).rdNat (coreBase 0 + 0x18000 + 68) 4 = 7 := by decide +kernel

theorem witness_ArrayArithmetic :
    (held0.rowSums false 1 (5 :: copies 15 0) 1 2 (copies 16 10)).1.take 2 = [44, 32]
      ∧ ({ held0 with fmtT := 4, rows := [15 :: copies 15 0] ++ copies 15 (copies 16 0), exps := copies 16 2 }.rowSums false 1 (5 :: copies 15 0) 0 0 []).1.take 2 = [0xFFFFFFEC, 0]
      ∧ [(1 : Int), 2].Perm [2, 1] ∧ fIsNan f32 (fAdd f32 0x7F800000 0xFF800000) = true ∧ fIsNan f32 (fMul f32 0x7F800000 0) = true
      ∧ rshiftRne 10 2 = 2 ∧ rshiftRne 6 2 = 2 ∧ rshiftRne (-6) 2 = -2 := by decide +kernel

/-! Narrowing: shift 3, zero point 10, limits ±127; the first accumulator is 64, so that its lane reads 18. -/
def parBytes (sh : Nat) : List Byte := leBytes 64 0 ++ leBytes 2 10 ++ leBytes 2 0xFF81 ++ leBytes 2 127 ++ leBytes 1 sh ++ leBytes 25 0
def narrowing (sh : Nat) (x : Core) : State :=
  let s := (arrayCore 3 { x with s := [(2, 0x800#32)] })
  { s with cores := s.cores.map (fun p => (p.1, { p.2 with s := [(2, 0x800#32)] }))
           mem := { s.mem with bytes := wrList s.mem.bytes (coreBase 0 + 0x800) (parBytes sh) } }
def nrwWord (lut : Nat) : IWord := BitVec.ofNat 64 (0x24 * 2 ^ 58 + 2 ^ 48 + 2 * 2 ^ 43 + 2 * 2 ^ 40 + 3 * 2 ^ 37 + lut * 2 ^ 36 + 1)
def nrwfWord : IWord := BitVec.ofNat 64 (0x24 * 2 ^ 58 + 2 ^ 52 + 6 * 2 ^ 48 + 2 * 2 ^ 43 + 2 * 2 ^ 40 + 3 * 2 ^ 37 + 1)
def lutlWord : IWord := BitVec.ofNat 64 (0x25 * 2 ^ 58 + 2 * 2 ^ 43)

theorem witness_NarrowingStage :
    (run (.nrw 0 (nrwWord 0)) (narrowing 3 k0)).rdNat (coreBase 0 + 0x4000) 2 = 18 + 256 * 10 := by decide +kernel

theorem witness_NarrowingStage_faults :
    code (run (.nrw 0 (nrwWord 0)) (narrowing 32 k0)) = fltNrwParam ∧ code (run (.nrw 0 (nrwWord 1)) (narrowing 3 k0)) = fltNrwState
      ∧ code (run (.nrwf 0 nrwfWord) (narrowing 3 k0)) = fltNrwParam
      ∧ (((run (.lutl 0 lutlWord) (narrowing 3 k0)).core 0).lut.map (fun b => (b.length, b.getD 70 0#8))) = some (256, 3#8) := by decide +kernel

/-- NRWF to FP8: 64 as an fp32 pattern rounds to zero; the limits are the infinities. -/
theorem witness_NarrowingStage_float :
    let s := narrowing 3 k0
    let s := { s with mem := { s.mem with bytes := wrList s.mem.bytes (coreBase 0 + 0x800) (leBytes 64 0 ++ leBytes 4 0xFF800000 ++ leBytes 4 0x7F800000 ++ leBytes 24 0) } }
    let s := { s with mem := { s.mem with bytes := wrList s.mem.bytes (coreBase 0 + 0x18000) (leBytes 4 0x42800000) } }
    (run (.nrwf 0 nrwfWord) s).rdNat (coreBase 0 + 0x4000) 2 = 0x68 := by decide +kernel

/-! ### Tiles, layers and the Awl engine -/

/-- The example of the L4 tile 3: bounds 1, 1, 20, 4, 3, 4 from level 0 up, and a halo of 2 at levels 2 to 4. -/
def haloTab : Tab :=
  { cls := 0, nDims := 1, nTens := 0, dist5 := 0, dist3 := 0, wc5 := 0, wc3 := 0, x := [772], list := 0, tens := []
    levels := [⟨[0], [1], [0], [0]⟩, ⟨[0], [1], [0], [0]⟩, ⟨[0], [20], [2], [2]⟩, ⟨[0], [4], [2], [2]⟩, ⟨[0], [3], [2], [2]⟩, ⟨[0], [4], [0], [0]⟩] }

theorem witness_TileArithmetic_halo : (∀ l, haloTab.bound l 0 = [1, 1, 20, 4, 3, 4].getD l 1)
    ∧ (∀ l, haloTab.lo l 0 = if 2 ≤ l ∧ l ≤ 4 then 2 else 0) ∧ (∀ l, haloTab.hi l 0 = if 2 ≤ l ∧ l ≤ 4 then 2 else 0)
    ∧ haloTab.start (fun _ => [3]) 0 4 = 574 := by
  refine ⟨?_, ?_, ?_, by decide +kernel⟩
  all_goals
    intro l
    rcases l with _ | _ | _ | _ | _ | _ | l
    · rfl
    · rfl
    · rfl
    · rfl
    · rfl
    · rfl
    · rfl

/-- Six dimensions with the convolution tile's bounds at level 0, and two at the levels above. -/
def convTab : Tab :=
  { haloTab with nDims := 6
                 levels := ⟨[0, 1, 2, 3, 4, 5], [32, 16, 16, 64, 3, 3], copies 6 0, copies 6 0⟩ :: copies 5 ⟨[1, 0, 2, 3, 4, 5], [1, 1, 1, 1, 1, 1], copies 6 0, copies 6 0⟩ }
def rankTab : Tab := { convTab with levels := copies 6 ⟨[1, 0, 2, 3, 4, 5], [2, 3, 1, 1, 1, 1], copies 6 0, copies 6 0⟩ }

theorem witness_TileArithmetic_tiles : permOk 6 (rankTab.level 5).order = true ∧ (upto 0 6).map (rankTab.childIndex 5) =
      [[0, 0, 0, 0, 0, 0], [0, 1, 0, 0, 0, 0], [0, 2, 0, 0, 0, 0], [1, 0, 0, 0, 0, 0], [1, 1, 0, 0, 0, 0], [1, 2, 0, 0, 0, 0]]
    ∧ rankTab.rank 5 [1, 1, 0, 0, 0, 0] = 4 ∧ (upto 0 6).map (fun d => convTab.tileE d 2) = [32, 16, 16, 64, 3, 3]
    ∧ convTab.span { noTensor with nAxes := 3, coef := [[0, 1, 0, 0, 0, 1], [1, 0, 0, 0, 1, 0], [0, 0, 0, 1, 0, 0]], sstride := [2176, 64, 1, 0] } = 39168
    ∧ rankTab.count 5 ≤ 1 + 6 * 2 := by decide +kernel

/-- What is read back of written bytes. -/
theorem read_back (s : State) (a : Nat) (bs : List Byte) : (s.wrBytes a bs).rdBytes a bs.length = bs := by
  have h : ∀ (m : Tbl Byte) (a n : Nat), (rdList m a n).length = n ∧ ∀ i, i < n → (rdList m a n)[i]? = some (tget 0#8 m (a + i)) := by
    intro m a n
    induction n generalizing a with
    | zero => simp [rdList]
    | succ n ih =>
      refine ⟨by simp [rdList, (ih (a + 1)).1], fun i hi => ?_⟩
      cases i with
      | zero => rfl
      | succ i => rw [rdList, List.getElem?_cons_succ, (ih (a + 1)).2 i (by omega)]; congr 2; omega
  refine List.ext_getElem? (fun i => ?_)
  by_cases hi : i < bs.length
  · rw [State.rdBytes, (h _ _ _).2 i hi, List.getElem?_eq_getElem hi]
    exact congrArg some (tget_wrList_in s.mem.bytes a bs i hi)
  · rw [List.getElem?_eq_none (by rw [State.rdBytes, (h _ _ _).1]; omega), List.getElem?_eq_none (by omega)]

theorem witness_TileCommands_dld :
    let s := (prog { k0 with s := [(1, 0#32)] }).wrBytes (coreBase 0) tabBytes
    s.rdBytes (coreBase 0) 896 = tabBytes ∧ tabOk tabBytes = true ∧ (readTab tabBytes).cls = 0 := by
  refine ⟨?_, by decide +kernel, by decide +kernel⟩
  have h := read_back (prog { k0 with s := [(1, 0#32)] }) (coreBase 0) tabBytes
  rwa [show tabBytes.length = 896 by decide +kernel] at h

def dldWord : IWord := BitVec.ofNat 64 (0x27 * 2 ^ 58 + 1 * 2 ^ 47)
def tnxWord (l : Nat) : IWord := BitVec.ofNat 64 (0x26 * 2 ^ 58 + 2 ^ 52 + 5 * 2 ^ 47 + (l - 3) * 2 ^ 43)
def agsWord (tensor write : Nat) : IWord := BitVec.ofNat 64 (0x26 * 2 ^ 58 + 6 * 2 ^ 49 + tensor * 2 ^ 45 + write * 2 ^ 44)
def trdWord (l d : Nat) : IWord := BitVec.ofNat 64 (0x26 * 2 ^ 58 + 3 * 2 ^ 52 + 5 * 2 ^ 47 + l * 2 ^ 42 + d * 2 ^ 39)
def agdWord (tensor kind : Nat) : IWord := BitVec.ofNat 64 (0x26 * 2 ^ 58 + 2 * 2 ^ 52 + 2 * 2 ^ 47 + 3 * 2 ^ 42 + 5 * 2 ^ 37 + tensor * 2 ^ 33 + kind * 2 ^ 30)
/-- Slot 0 holds the table with current tiles down to `l`. -/
def tiled (l : Nat) : State :=
  prog { k0 with tabs := [(0, { tile0 with cur := tile0.cur.filter (fun p => decide (l ≤ p.1)) })], s := [(2, 0x800#32), (3, 5#32)] }

theorem witness_TileCommands_refused :
    code (run (.dld 0 dldWord) (prog { k0 with s := [(1, 0#32)] })) = fltTileDesc ∧ code (run (.tnx 0 (tnxWord 3)) regs) = fltTileStream
      ∧ code (run (.ags 0 (agsWord 0 0)) regs) = fltTileStream ∧ code (run (.ags 0 (agsWord 3 0)) (tiled 2)) = fltTileDesc
      ∧ code (run (.agd 0 (agdWord 0 4)) regs) = fltTileStream ∧ code (run (.trd 0 (trdWord 2 2)) (tiled 2)) = fltCoreIllegal
      ∧ (run (.trd 0 (trdWord 2 1)) regs).sreg 0 5 = 0x80000000#32 := by decide +kernel

theorem witness_TileCommands_tnx :
    (run (.tnx 0 (tnxWord 3)) (tiled 3)).sreg 0 5 = 0#32
      ∧ (((run (.tnx 0 (tnxWord 3)) (tiled 3)).tabSlot 0 0).has 2) = true
      ∧ (run (.tnx 0 (tnxWord 4)) { tiled 4 with cores := (tiled 4).cores.map (fun p => (p.1, { p.2 with tabs := [(0, { tile0 with seqs := [(4, 1)] })] })) }).sreg 0 5
        = 0xFFFFFFFF#32 := by decide +kernel

theorem witness_TileCommands_ags :
    tget none ((run (.ags 0 (agsWord 0 0)) (tiled 2)).core 0).streams 6 = some ⟨0, 0, false, 0⟩
      ∧ (run (.trd 0 (trdWord 2 1)) (tiled 2)).sreg 0 5 = 0#32 := by decide +kernel

/-- AGD of tensor 0 from its home to the core: one descriptor, of 16 B by 4 rows. -/
theorem witness_TileCommands_agd :
    let t := run (.agd 0 (agdWord 0 4)) (tiled 2)
    t.sreg 0 5 = 1#32 ∧ t.rdNat (coreBase 0 + 0x810) 4 = 16 ∧ t.rdNat (coreBase 0 + 0x814) 2 = 4 := by decide +kernel

/-! An Awl job: one 1 × 1 product, input 3 at 0x100, weight 5 at 0x300, output at 0x400; its ring stands at 0x40. -/
def awlBytes (shift inW : Nat) : List Byte :=
  [1#8, 1#8, 1#8, 1#8, 1#8, 1#8, 1#8, 1#8, 1#8, 1#8, 0#8, 0#8, 0#8, 0#8] ++ leBytes 2 1 ++ leBytes 1 1 ++ leBytes 1 shift ++ leBytes 2 1 ++ leBytes 2 inW
    ++ leBytes 6 0 ++ leBytes 2 0xFF80 ++ leBytes 2 127 ++ leBytes 4 0x100 ++ leBytes 4 0x200 ++ leBytes 4 0x400 ++ leBytes 2 0 ++ leBytes 2 6 ++ leBytes 2 1
    ++ leBytes 14 0
def awl (bell : Nat) (desc : List Byte) (job : Option AwlJob) : State :=
  let s := prog { k0 with sync := if bell = 0 then [] else [(9, bell)] }
  { s with ctxs := [(1, { ctx1 with decl := some { decl1 with rings := [⟨0x40, 4, 0, 9⟩] } })]
           clusters := [(0, { assigned := true, ctx := 1, pwr := 0xFFFF, awlJob := job })]
           mem := { s.mem with bytes := wrList [(clusterBase 0 + 0x100, 3#8), (clusterBase 0 + 0x300, 5#8)] (clusterBase 0 + 0x40) desc } }

/-- A record of 4 channels, one table, a 3 × 3 kernel on 8 × 8 inputs with a padding of `pad`. -/
def layerBytes (kind group outH pad k : Nat) : List Byte :=
  leBytes 1 kind ++ leBytes 1 group ++ leBytes 1 k ++ leBytes 1 3 ++ leBytes 4 0x01010101 ++ leBytes 1 pad ++ leBytes 1 pad ++ leBytes 2 0x0101
    ++ leBytes 4 8 ++ leBytes 4 8 ++ leBytes 4 outH ++ leBytes 4 8 ++ leBytes 4 4 ++ leBytes 4 4 ++ leBytes 2 0 ++ leBytes 1 1 ++ leBytes 9 0
/-- The tensors of the direct form of that layer. -/
def convTens : List TensorRec :=
  [{ noTensor with nAxes := 3, coef := [[0, 1, 0, 0, 0, 1], [1, 0, 0, 0, 1, 0], [0, 0, 0, 1, 0, 0]], offset := [-1, -1, 0], extent := [8, 8, 4] },
   { noTensor with role := 1, nAxes := 3, coef := [[0, 1, 0, 0, 0, 0], [1, 0, 0, 0, 0, 0], [0, 0, 1, 0, 0, 0]], offset := [0, 0, 0], extent := [8, 8, 4] },
   { noTensor with nAxes := 4, coef := [[0, 0, 0, 0, 0, 1], [0, 0, 0, 0, 1, 0], [0, 0, 0, 1, 0, 0], [0, 0, 1, 0, 0, 0]], offset := [0, 0, 0, 0], extent := [3, 3, 4, 4] }]

theorem witness_ShapesAndAwl_layers :
    let sec := fun (b : List Byte) => (⟨b, tabBytes⟩ : LayerSection)
    let d := fun (b : List Byte) => LayerSection.shapeDetail (sec b)
    LayerSection.rangeOk (sec (layerBytes 5 8 8 1 3)) = true ∧ LayerSection.rangeOk (sec (layerBytes 7 8 8 1 3)) = false
      ∧ d (layerBytes 5 8 8 1 3) = none ∧ d (layerBytes 5 8 6 0 9) = some 0 ∧ d (layerBytes 5 8 7 1 3) = some 1
      ∧ d (layerBytes 0 8 8 1 3) = some 3 ∧ d (layerBytes 5 9 8 1 3) = some 4 ∧ d (layerBytes 5 0 8 1 3) = some 4
      ∧ d (layerBytes 2 8 16 5 3) = some 2
      ∧ d (layerBytes 5 0x18 8 1 3) = none ∧ LayerSection.shapeDetail ⟨layerBytes 5 0x18 8 1 3, tabBytes.set 3 1#8⟩ = some 5
      ∧ LayerRec.describes (readLayer (layerBytes 0 8 8 1 3)) (none, none) { haloTab with nTens := 3, tens := convTens } = true
      ∧ LayerRec.describes (readLayer (layerBytes 0 8 8 0 3)) (none, none) { haloTab with nTens := 3, tens := convTens } = false := by decide +kernel

theorem witness_ShapesAndAwl_shapes :
    outSize 5 3 3 7 1 1 = 5 ∧ emptyWindow 5 0 1 1 1 5 = false ∧ emptyWindow 5 3 1 1 1 2 = true := by decide +kernel

theorem witness_ShapesAndAwl_job :
    let t := after (.awlJobStart 0 ⟨noErrors, [], []⟩) (awl 1 (awlBytes 0 1) none)
    t.rdByte (clusterBase 0 + 0x400) = 15#8 ∧ (t.core 0).sync = [] ∧ (t.cluster 0).awlIndex = 1 ∧ (t.cluster 0).awlJob.isSome = true
      ∧ (after (.awlJobComplete 0) (awl 0 [] (some { desc := awlBytes 0 1 }))).flight = [{ ctx := 1, core := 0, ctr := 6, n := 1, src := 0 }] := by
  decide +kernel

theorem witness_ShapesAndAwl_refused :
    code (after (.awlJobStart 0 ⟨noErrors, [], []⟩) (awl 1 (awlBytes 32 1) none)) = fltAwlDesc
      ∧ code (after (.awlJobStart 0 ⟨noErrors, [], []⟩) (awl 1 (awlBytes 0 1 |>.set 4 3#8) none)) = fltShape
      ∧ after (.awlJobStart 0 ⟨noErrors, [], []⟩) (awl 0 [] none) = awl 0 [] none
      ∧ after (.awlJobStart 0 ⟨noErrors, [], []⟩) (awl 1 [] (some { desc := [] })) = awl 1 [] (some { desc := [] })
      ∧ after (.awlJobComplete 0) (awl 0 [] none) = awl 0 [] none := by decide +kernel

/-! ### Synchronisation and work counters -/

def sigWord (target n : Nat) : IWord := BitVec.ofNat 64 (0x34 * 2 ^ 58 + 7 * 2 ^ 46 + target * 2 ^ 35 + n)
def sigrWord : IWord := BitVec.ofNat 64 (0x35 * 2 ^ 58 + 7 * 2 ^ 46 + 1 * 2 ^ 30 + 2 * 2 ^ 25)
def waitWord (dp n : Nat) : IWord := BitVec.ofNat 64 (0x34 * 2 ^ 58 + 2 ^ 52 + 7 * 2 ^ 46 + dp * 2 ^ 16 + n)
def waitrWord : IWord := BitVec.ofNat 64 (0x35 * 2 ^ 58 + 2 ^ 52 + 7 * 2 ^ 46 + 2 * 2 ^ 25)
def decWord (n : Nat) : IWord := BitVec.ofNat 64 (0x34 * 2 ^ 58 + 2 * 2 ^ 52 + 7 * 2 ^ 46 + n)
def readWord : IWord := BitVec.ofNat 64 (0x34 * 2 ^ 58 + 3 * 2 ^ 52 + 7 * 2 ^ 46 + 5 * 2 ^ 30)
/-- Counter 7 holds 3; s1 = 4, s2 = 2. -/
def syncs : State := prog { k0 with sync := [(7, 3)], s := [(1, 4#32), (2, 2#32)] }

theorem witness_SyncInstructions_send :
    ((run (.sig 0 (sigWord 15 2)) syncs).core 0).sigq = [⟨{ ctx := 1, core := 15, ctr := 7, n := 2, src := 0 }, []⟩]
      ∧ ((run (.sigr 0 sigrWord) syncs).core 0).sigq = [⟨{ ctx := 1, core := 4, ctr := 7, n := 2, src := 0 }, []⟩]
      ∧ code (run (.sig 0 (sigWord 16 2)) syncs) = fltSyncTarget ∧ code (run (.sig 0 (sigWord 15 0)) syncs) = fltCoreIllegal
      ∧ ((run (.sig 0 (sigWord 15 2)) (prog { k0 with sigq := copies 8 ⟨{ ctx := 1, core := 1, ctr := 1, n := 1, src := 0 }, []⟩ })).core 0).stalled = some (.sig 0 (sigWord 15 2))
      ∧ code (run (.sig 0 (sigWord 15 2 + 41 * 2 ^ 46)) syncs) = fltCoreIllegal := by decide +kernel

theorem witness_SyncInstructions_wait :
    ((run (.wait 0 (waitWord 0 3)) syncs).core 0).sync = [] ∧ ((run (.wait 0 (waitWord 0 3)) syncs).core 0).pc = 10
      ∧ ((run (.wait 0 (waitWord 1 4)) syncs).core 0).st = .waiting ∧ ((run (.wait 0 (waitWord 1 4)) syncs).core 0).sync = [(7, 3)]
      ∧ ((run (.waitr 0 waitrWord) syncs).core 0).sync = [(7, 1)]
      ∧ ((run (.wait 0 (waitWord 1 3)) { syncs with ctxs := [(1, { ctx1 with preempt := true })] }).core 0).st = .parked
      ∧ ((run (.dec 0 (decWord 2)) syncs).core 0).sync = [(7, 1)] ∧ code (run (.dec 0 (decWord 4)) syncs) = fltSyncUnderflow
      ∧ (run (.read 0 readWord) syncs).sreg 0 5 = 3#32 := by decide +kernel

/-- Three increments of 2 in flight to counter 7 of core 0; the counter holds 3. -/
def arriving (v : Nat) (w : Option WaitSt) : State :=
  { prog { k0 with sync := [(7, v)], wait := w, st := if w.isSome then .waiting else .running } with flight := copies 3 { ctx := 1, core := 0, ctr := 7, n := 2, src := 0 } }

theorem witness_SyncInstructions_arrival :
    ((after (.syncIncrementArrival 0 7 2) (arriving 3 none)).core 0).sync = [(7, 7)] ∧ (after (.syncIncrementArrival 0 7 2) (arriving 3 none)).flight.length = 1
      ∧ code (after (.syncIncrementArrival 0 7 2) (arriving 65532 none)) = fltSyncOverflow
      ∧ ((after (.syncIncrementArrival 0 7 2) (arriving 65531 none)).core 0).sync = [(7, 65535)]
      ∧ ((after (.syncIncrementArrival 0 7 2) (arriving 3 (some { ctr := 7, n := 7, dp := false }))).core 0).sync = []
      ∧ ((after (.syncIncrementArrival 0 7 2) (arriving 3 (some { ctr := 7, n := 8, dp := false }))).core 0).st = .waiting
      ∧ after (.syncIncrementArrival 1 7 2) (arriving 3 none) = arriving 3 none := by decide +kernel

/-- R172: an increment passes none that stands before it from its source to its stop. -/
theorem witness_SyncInstructions_order :
    let i := fun (src ctr n : Nat) => ({ ctx := 1, core := 0, ctr := ctr, n := n, src := src } : Incr)
    takeIncrs (fun j => j.ctr == 7) (fun _ => true) 9 [] [i 0 7 1, i 0 8 2, i 0 7 3, i 5 7 4] = ([i 0 7 1, i 5 7 4], [i 0 8 2, i 0 7 3]) := by decide +kernel

/-- R267: a bell that waited before takes its amount first. -/
theorem witness_SyncInstructions_claims :
    let s := { prog { k0 with sync := [(7, 1)] } with ctxs := [(1, { ctx1 with decl := some { decl1 with rings := [⟨0x40, 4, 0, 7⟩] } })] }
    s.claims 0 7 = 1 ∧ run (.wait 0 (waitWord 0 1)) s = place (.wait 0 (waitWord 0 1)) s := by decide +kernel

def wfaWord (dev : Nat) : IWord := BitVec.ofNat 64 (0x36 * 2 ^ 58 + 5 * 2 ^ 47 + dev * 2 ^ 46 + 1 * 2 ^ 38)
def wsetWord (dev : Nat) : IWord := BitVec.ofNat 64 (0x36 * 2 ^ 58 + 2 ^ 52 + 1 * 2 ^ 47 + dev * 2 ^ 46 + 1 * 2 ^ 38 + 2 * 2 ^ 33)
def wrdWord (dev : Nat) : IWord := BitVec.ofNat 64 (0x36 * 2 ^ 58 + 2 * 2 ^ 52 + 5 * 2 ^ 47 + dev * 2 ^ 46 + 1 * 2 ^ 38)
/-- Cluster counter 1 stands at v with limit 9; device counter 1 of the context is counter 40. -/
def works (v l : Nat) : State :=
  { prog { k0 with s := [(1, 4#32), (2, BitVec.ofNat 32 l)] } with
    ctxs := [(1, { ctx1 with ctrs := [39, 40] })], clusters := [(0, { assigned := true, ctx := 1, wc := [(1, (v, 9))] })], work := [(40, { v := v, limit := 9 })] }

theorem witness_WorkCounters_fetch :
    (run (.wfa 0 (wfaWord 0)) (works 8 9)).sreg 0 5 = 8#32 ∧ ((run (.wfa 0 (wfaWord 0)) (works 8 9)).cluster 0).wc = [(1, (9, 9))]
      ∧ (run (.wfa 0 (wfaWord 0)) (works 9 9)).sreg 0 5 = 0xFFFFFFFF#32 ∧ (run (.wfa 0 (wfaWord 1)) (works 8 9)).sreg 0 5 = 8#32
      ∧ (run (.wfa 0 (wfaWord 1)) (works 9 9)).sreg 0 5 = 0xFFFFFFFF#32 ∧ (run (.wrd 0 (wrdWord 1)) (works 8 9)).sreg 0 5 = 8#32
      ∧ (run (.wrd 0 (wrdWord 0)) (works 8 9)).sreg 0 5 = 8#32 ∧ (run (.wset 0 (wsetWord 1)) (works 8 6)).workCtr 40 = { v := 4, limit := 6 } := by
  decide +kernel

theorem witness_WorkCounters_faults :
    ((run (.wset 0 (wsetWord 0)) (works 8 6)).cluster 0).wc = [(1, (4, 6))] ∧ code (run (.wset 0 (wsetWord 0)) (works 8 0xFFFFFFFF)) = fltWorkArg
      ∧ code (run (.wfa 0 (wfaWord 1)) regs) = fltWorkOwner ∧ code (run (.wset 0 (wsetWord 1)) regs) = fltWorkOwner
      ∧ code (run (.wrd 0 (wrdWord 1)) regs) = fltWorkOwner := by decide +kernel

/-- A host signal of 3 to counter 7 of core 15: bits 5..0 the context, 11..6 the counter, 22..12 the core, 47..32 n. -/
def hosted (low : Nat) : State := { prog k0 with heldLow := [(latchKey .cantle hostSignalOff, some low)] }
theorem witness_Parking_host :
    (after (.hostSignal .cantle 3) (hosted (1 + 7 * 64 + 15 * 4096))).flight = [{ ctx := 1, core := 15, ctr := 7, n := 3, fromCtx := false, src := 0x300 }]
      ∧ (after (.hostSignal .cantle 3) (hosted (1 + 7 * 64 + 16 * 4096))).hostDropped = true
      ∧ (after (.hostSignal .cantle 0) (hosted (1 + 7 * 64 + 15 * 4096))).hostDropped = true
      ∧ (after (.hostSignal .cantle 3) (hosted (2 + 7 * 64))).hostDropped = true ∧ after (.hostSignal .cantle 3) (prog k0) = prog k0 := by decide +kernel

/-- A core that waits at a deschedule point; its context has 5 clusters where `k` says so. -/
def parking (k : Nat) (c : CoreSt) : State :=
  { prog { k0 with st := c, wait := some { ctr := 7, n := 1, dp := true, cycles := 4000 } } with ctxs := [(1, { ctx1 with k := k })] }
theorem witness_Parking_core :
    ((after (.corePark 0 96) (parking 5 .waiting)).core 0).st = .parked ∧ ((after (.corePark 0 95) (parking 5 .waiting)).core 0).st = .waiting
      ∧ ((after (.corePark 0 96) (parking 4 .waiting)).core 0).st = .waiting ∧ ((after (.corePark 0 9) (parking 5 .parked)).core 0).park = 9 := by decide +kernel

def ending (sync : Tbl Nat) (c : CoreSt) : State :=
  { prog k0 with cores := (upto 0 16).map (fun j => (j, { k0 with st := c, sync := sync, wait := some { ctr := 7, n := 1, dp := true } })) }
theorem witness_Parking_context :
    ((after (.descheduleThreshold 1) (ending [] .parked)).ctx 1).deschedulable = true
      ∧ after (.descheduleThreshold 1) (ending [] .waiting) = ending [] .waiting
      ∧ (ending [] .ended).ctxDoneRunning 1 = true ∧ (ending [] .ended).residue 1 = none ∧ (ending [(7, 2)] .ended).residue 1 = some (0, 7, 2)
      ∧ after (.contextEnd 1) (ending [] .parked) = ending [] .parked := by decide +kernel

theorem witness_Parking_end :
    ((after (.contextEnd 1) (ending [] .ended)).ctx 1).live = false ∧ code (after (.contextEnd 1) (ending [(7, 2)] .ended)) = fltSyncResidue := by decide +kernel

/-! ### Stitcher and tracking -/

theorem witness_AuctionIsOptimal :
    let a := [[40000, 39000], [40000, 39000]]
    (∀ row ∈ a, row.length = 2) ∧ (auction a 2 100).limited = false ∧ (auction a 2 100).bids ≤ 100 ∧ auctionTotal a (auction a 2 100) = 79000 := by
  decide +kernel

def callBytes (n : Nat) : List Byte :=
  leBytes 8 0x50000 ++ leBytes 8 0x51000 ++ leBytes 4 64 ++ leBytes 2 n ++ leBytes 2 3 ++ leBytes 4 100 ++ leBytes 1 1 ++ leBytes 1 3 ++ leBytes 2 0
    ++ leBytes 2 0 ++ leBytes 1 0 ++ leBytes 1 5 ++ leBytes 2 0 ++ leBytes 2 0 ++ leBytes 2 1 ++ leBytes 22 0
def call1 (n : Nat) : Call := readCall 0x60000 (callBytes n)
def stc (q : List Call) (low : Nat) : State :=
  let s := withCtx1 { ram with slots := [(3, cam)] }
  { s with stc := { queue := q }, heldLow := [(latchKey .cantle stcSubmitOff, some low)], mem := { s.mem with bytes := wrList [(0x50000, 9#8)] 0x60000 (callBytes 1) } }

theorem witness_StitcherUnits_submit :
    (after (.stcSubmit .cantle 0) (stc [] 0x60000)).stc.queue = [call1 1] ∧ (after (.stcSubmit .cantle 0) (stc [] 0x60020)).stc.queue = []
      ∧ (after (.stcSubmit .cantle 0) (stc (copies 64 (call1 1)) 0x60000)).stc.overflow = true
      ∧ code (after (.stcSubmit .cantle 0x110) (stc [] 0x100000)) = fltMemDecode
      ∧ after (.stcSubmit .cantle 0) ram = ram := by decide +kernel

theorem witness_StitcherUnits_start :
    (stc [call1 1] 0).nextCall = some (call1 1) ∧ (stc [] 0).callFault (call1 1) = none
      ∧ ((after (.stitcherCallStart 2) (stc [call1 1] 0)).stcUnit 2).call = some (call1 1)
      ∧ ((after (.stitcherCallStart 2) (stc [call1 1] 0)).stcUnit 2).col = [some 0]
      ∧ ((after (.stitcherCallStart 2) (stc [call1 1] 0)).stcUnit 2).total = 9
      ∧ (stc [] 0).callFault (call1 1025) = some fltStcDesc ∧ code (after (.stitcherCallStart 2) (stc [call1 1025] 0)) = fltStcDesc
      ∧ (stc [] 0).nextCall = none := by decide +kernel

theorem witness_StitcherUnits_complete :
    let s := { stc [] 0 with stc := { units := [(2, { st := 1, call := some (call1 1), col := [some 0], owner := [some 0, none, none], callBids := 1, total := 9 })] } }
    let i := { s with stc := { units := [(2, { st := 1, call := some { call1 1 with internal := true }, col := [some 0] })] }
                      slots := [(3, { cam with trk := { stage := .submitted } })] }
    (after (.stitcherCallComplete 2 50) s).flight = [{ ctx := 1, core := 0, ctr := 5, n := 1, fromCtx := false, src := 0x202 }]
      ∧ ((after (.stitcherCallComplete 2 50) i).slot 3).trk.stage = .assigned ∧ ((after (.stitcherCallComplete 2 50) i).slot 3).trk.result = [some 0]
      ∧ after (.stitcherCallComplete 2 50) (stc [] 0) = stc [] 0 := by decide +kernel

/-! A track of 100 × 200 at (1000, 500), and a detection there. -/
def trk (st : Nat) : Track :=
  { id := 3 * 2 ^ 24 + 7, state := st, hits := 1, ptsLast := 9000, pos := [0x447A0000#32, 0x43FA0000#32, 0x42C80000#32, 0x43480000#32]
    vel := copies 4 0#32, cov := (upto 0 4).flatMap (fun _ => [0x3F800000#32, 0#32, 0x3F800000#32]) }
def det0 : Detection := ⟨0x446D8000#32, 0x43C80000#32, 0x44834000#32, 0x44160000#32, 0x3F400000#32, 0⟩
def picT (n : Nat) : Pic := { pic n with cfg := { cam.cfg with bound := [1] }, skived := true }

theorem witness_TrackLife_fate :
    (fateOf (picT 3) { trk 1 with hits := 2 } (some (det0, none))).t.state = 2 ∧ (fateOf (picT 3) (trk 1) (some (det0, none))).t.state = 1
      ∧ (fateOf (picT 3) (trk 3) (some (det0, some []))).t.state = 2 ∧ (fateOf (picT 3) (trk 1) none).dead = true
      ∧ (fateOf (picT 3) (trk 2) none).t.state = 3 ∧ (fateOf (picT 3) { trk 3 with misses := 29 } none).dead = true
      ∧ (fateOf (picT 3) { trk 3 with misses := 28 } none).dead = false ∧ boxInside (trk 1).box 1920 1080 = true := by decide +kernel

theorem witness_TrackLife_predict :
    ((trk 1).predict {} (9000 + 16777216)).isSome = true ∧ (trk 1).predict {} (9000 + 16777217) = none
      ∧ benefit {} (trk 1) det0 none = 65536 ∧ cosQ (copies 256 127#8) (copies 256 127#8) = 4096 ∧ Tbl.wf {} ({} : SlotTrack).tracks = true
      ∧ (tget {} (({ nextSerial := 0xFFFFFE, tracks := [(0, { trk 2 with id := 3 * 2 ^ 24 + 0xFFFFFE })] } : SlotTrack).birth 3 (picT 3) det0 none).tracks 1).id
        = 3 * 2 ^ 24 + 1 := by decide +kernel

/-- Slot 3 with its front picture at a stage. -/
def stage (p : Pic) (k : SlotTrack) : State :=
  { withCtx1 ram with slots := [(3, { cam with pics := [p], trk := k })] }
def atStage (s : State) : TrkStage := (s.slot 3).trk.stage

theorem witness_TrackingSteps_predict :
    let late := stage (picT 3) { stage := .submitted }
    let call : Call := { call1 1 with internal := true }
    let s := { late with stc := { queue := [call], units := [(2, { st := 1, call := some call })] } }
    atStage (after (.trackingPredict 3 false) (stage (picT 3) {})) = .predicted
      ∧ after (.trackingPredict 3 false) (stage (picT 3) { stage := .predicted }) = stage (picT 3) { stage := .predicted }
      ∧ ((after (.trackingPredict 3 false) (stage { picT 3 with subst := some 1 } {})).slot 3).pics = []
      ∧ atStage (after (.trackingPredict 3 true) s) = .predicted ∧ (after (.trackingPredict 3 true) s).stc.queue = []
      ∧ ((after (.trackingPredict 3 true) s).stcUnit 2).call = none := by decide +kernel

/-- R289: the checkpoint's entries return, whatever is written to memory. -/
theorem witness_TrackingSteps_rewind (s : State) (h : s.slots = [(3, { cam with trk := { saved := [(0, trk 2)] } })]) :
    ((s.rewindTracks 3).slot 3).trk.tracks = [(0, trk 2)] := by
  have hs : (s.slot 3).trk.saved = [(0, trk 2)] := by rw [State.slot, h]; rfl
  rw [State.rewindTracks_trk]; exact hs

/-! Context 1's image has the detection list at the start of its page. -/
def listBytes : List Byte :=
  leBytes 8 2 ++ leBytes 8 9000 ++ leBytes 16 3 ++ (leBytes 4 0x446D8000 ++ leBytes 4 0x43C80000 ++ leBytes 4 0x44834000 ++ leBytes 4 0x44160000
    ++ leBytes 4 0x3F400000 ++ leBytes 12 0) ++ (leBytes 4 0x446D8000 ++ leBytes 4 0x43C80000 ++ leBytes 4 0x446D8000 ++ leBytes 4 0x44160000
    ++ leBytes 4 0x3F400000 ++ leBytes 12 0)
def detecting (a : Nat) (k : SlotTrack) : State :=
  let s := stage (picT 3) k
  { s with ctxs := [(1, { ctx1 with decl := some { decl1 with detList := a }, imagePages := [5] })], mem := { s.mem with bytes := wrList [] 0x50000 listBytes } }

theorem witness_TrackingSteps_detect :
    let s := detecting 0x50000 { stage := .predicted }
    let t := after (.trackingDetectionsReady 3 noErrors) s
    s.frontAt 3 .predicted = some (picT 3) ∧ (s.ctx 1).translate 0x50000 = some 0x50000 ∧ atStage t = .detected ∧ (t.slot 3).trk.dets = [det0]
      ∧ atStage (after (.trackingEmbeddingsReady 3 []) t) = .submitted ∧ (after (.trackingEmbeddingsReady 3 []) t).stc.queue.length = 1
      ∧ (after (.trackingDetectionsReady 3 noErrors) (detecting 0x9000000 { stage := .predicted })).od.lastRecord = faultRecord { code := fltMemDecode, unit := 39, addr := 0x9000000 } 0
      ∧ filterDets {} (picT 3) ⟨2, 9001, 3, [det0]⟩ = ([], 2)
      ∧ after (.trackingDetectionsReady 3 noErrors) (stage (picT 3) {}) = stage (picT 3) {}
      ∧ after (.trackingEmbeddingsReady 3 []) (stage (picT 3) {}) = stage (picT 3) {}
      ∧ after (.trackingAssignmentReady 3) (stage (picT 3) {}) = stage (picT 3) {} := by decide +kernel

theorem witness_TrackingSteps_assign :
    let s := stage (picT 3) { stage := .assigned, dets := [det0], tracks := [(0, trk 2)], cols := [0], result := [some 0] }
    s.frontAt 3 .assigned = some (picT 3) ∧ s.ready = true
      ∧ ((after (.trackingAssignmentReady 3) (stage (picT 3) { stage := .assigned })).slot 3).pics = [] := by decide +kernel

def search : GSearch := { slot := 3, track := 3 * 2 ^ 24 + 7, version := 0, cls := 0, emb := copies 4 1#8, entries := [] }
theorem witness_TrackingSteps_search :
    let s := { stage (picT 3) { tracks := [(0, { trk 2 with emb := copies 4 1#8, flags := 1 })] } with gallery := { searches := [search] } }
    let f := { s with pair := { s.pair with mode := 3, link := 2, id := 1 }, pairSh := { s.pairSh with leaderId := 0 } }
    s.gallery.searches.find? (fun q => q.slot == 3 && q.track == 3 * 2 ^ 24 + 7) = some search ∧ s.follower = false ∧ s.linkOf search [] = none
      ∧ (((s.slot 3).trk.tracks.find? (fun t => t.2.state != 0 && t.2.id == 3 * 2 ^ 24 + 7)).map (·.1)) = some 0
      ∧ f.follower = true ∧ after (.gallerySearchComplete 3 (3 * 2 ^ 24 + 7) []) f = f
      ∧ after (.gallerySearchComplete 3 9 []) s = s := by decide +kernel

/-! ### Narrator -/

def narDecl : NarratorDecl := ⟨1, true, [], 1, 65536, 8, 4096, 1, 4, 3, 2, 1, 64, 10, 20, [[0x48#8], [0x69#8], [], []]⟩
def ask0 : NarrReq := ⟨3, 77, 12, ⟨0, 0, 16, 16⟩, [], [], 4, 0#32, 1, 0, none⟩
/-- Context 1 is the Narrator; slot 3 holds pictures 10 to 12. -/
def nar (n : Narr) : State :=
  let s := withCtx1 { ram with slots := [(3, holding)] }
  { s with ctxs := [(1, { ctx1 with decl := some { decl1 with narrator := some narDecl }, imagePages := [5] })], narr := n }
def sess (num : Nat) (st : SessSt) : Session := { num := num, req := ask0, st := st, opened := num, pts := 0, prompt := [1] }
def nums (s : State) : List (Nat × SessSt) := s.narr.sessions.map (fun x => (x.num, x.st))

theorem witness_NarrationRequests_refused :
    (after (.narrationRequest ask0) (nar {})).narr.refused = 1 ∧ code (after (.narrationRequest ask0) (nar {})) = fltNarBusy
      ∧ code (after (.narrationRequest ask0) (nar { ctx := some 1, shed := true })) = fltNarShed
      ∧ code (after (.narrationRequest { ask0 with picture := 9 }) (nar { ctx := some 1 })) = fltNarPicture
      ∧ reply (after (.narrationRequest { ask0 with host := some .mailbox, topK := 65 }) (nar { ctx := some 1 })) = some 3
      ∧ reply (after (.narrationRequest { ask0 with host := some .mailbox }) (nar {})) = some 9 := by decide +kernel

/-- A table without bytes gives no token, whatever a template is filled to. -/
theorem tokenise_empty (n : Nat) (text : List Byte) : tokenise (copies 4 []) n text = [] := by
  have h : ∀ x, longestToken (copies 4 []) x = none := fun _ => rfl
  induction n generalizing text with
  | zero => rfl
  | succ n ih =>
    rw [tokenise]
    split
    · rfl
    · rw [h]; exact ih _

theorem witness_NarrationRequests_prompt :
    NarratorDecl.promptOk { narDecl with tokenBytes := copies 4 [] } ask0 = true
      ∧ NarratorDecl.promptOk { narDecl with tokenBytes := copies 4 [] } { ask0 with maxTokens := 64 } = false := by
  have h : ∀ r, NarratorDecl.promptOf { narDecl with tokenBytes := copies 4 [] } r = [] := fun _ => tokenise_empty _ _
  constructor <;> simp only [NarratorDecl.promptOk, h] <;> decide

theorem witness_NarrationRequests_open :
    let s := nar { ctx := some 1, sessions := [sess 0 .decode] }
    s.narrDecl = some narDecl ∧ (s.heldPic 3 12).isSome = true ∧ s.narr.sessions.length < 64
      ∧ lowestFree 64 (s.narr.sessions.map (·.num)) = some 1 ∧ longestToken narDecl.tokenBytes [0x69#8, 0x48#8] = some (1, 1) := by decide +kernel

theorem witness_NarrationRequests_queue :
    let full := (upto 0 64).map (fun i => sess i .decode)
    let s := nar { ctx := some 1, sessions := full }
    s.odNat 0x8300 2 32 = 32 ∧ (after (.narrationRequest ask0) s).narr.queue.length = 1
      ∧ code (after (.narrationRequest ask0) { s with narr := { s.narr with queue := copies 32 ⟨ask0, 0, 0, 0⟩ } }) = fltNarBusy := by decide +kernel

theorem witness_NarrationRequests_cancel :
    (after (.narrationCancel 0) (nar { ctx := some 1, sessions := [sess 0 .decode], running := true })).narr.sessions.map (·.cancel) = [true]
      ∧ nums (after (.narrationCancel 0) (nar { ctx := some 1, sessions := [sess 0 .decode] })) = [] := by decide +kernel

theorem witness_NarratorSteps_run :
    let s := nar { ctx := some 1, sessions := [sess 0 .decode, { sess 1 .ready with prompt := copies 150 1 }, sess 2 .embed] }
    let t := after .narratorStepStart s
    t.narr.running = true ∧ t.narr.sessions.map (fun x => (x.inStep, x.embedding)) = [(1, false), (128, false), (0, true)]
      ∧ (s.narr.sessions.map (·.num)).Nodup ∧ nums (after (.narratorEmbedComplete 2) t) = [(0, .decode), (1, .prefill), (2, .ready)]
      ∧ after .narratorStepStart t = t ∧ after .narratorStepStart (nar { ctx := some 1 }) = nar { ctx := some 1 }
      ∧ after (.narratorStepComplete 5 []) s = s := by decide +kernel

/-- Greedy decoding: the largest logit, the lower ID of two equal ones; token 3 ends the session. -/
theorem witness_NarratorSteps_token :
    let s := nar { ctx := some 1, sessions := [{ sess 0 .decode with inStep := 1, tokens := [0] }], running := true }
    let logit := fun (a b c d : Word) => (after (.narratorStepComplete 5 [(0, [a, b, c, d])]) s).narr.sessions.map (·.tokens)
    logit 0x3F800000#32 0x40000000#32 0x40000000#32 0#32 = [[0, 1]] ∧ logit 0x7FC00000#32 0#32 0xBF800000#32 0x80000000#32 = [[0, 1]]
      ∧ logit 0#32 0#32 0#32 0x3F800000#32 = [] ∧ samples narDecl { sess 0 .decode with inStep := 1 } = true ∧ samples narDecl (sess 0 .embed) = false := by
  decide +kernel

theorem witness_NarratorSteps_sampling :
    bestId [(0, 0x3F800000#32), (1, 0x40000000#32), (2, 0x40000000#32)] = some (1, 0x40000000#32)
      ∧ pickAt ((0xFFFFFF * 3) >>> 24) 0 [(5, 1), (6, 2)] 0 = 6 ∧ cleanUtf8 [0x41#8, 0xC3#8, 0xA9#8, 0x42#8] = [0x41#8, 0xC3#8, 0xA9#8, 0x42#8] := by decide +kernel

/-! ### Delivery -/

def ring0 : Ring := { base := 0x100000, wb := 0x90000, enable := true, sizeLog2 := 16, head := 2040, tail := 1000 }

theorem witness_RingWrites :
    (Ring.write true 3 ring0 (copies 384 0#8)).isSome = true ∧ ring0.used ≤ ring0.units ∧ ring0.used = 1040 ∧ ring0.units = 2048
      ∧ Ring.write true 3 { ring0 with tail := 2041 } (copies 32 0#8) = none
      ∧ (Ring.write true 3 { ring0 with tail := 2047 + 2 ^ 32 - 2048, head := 2045, lost := 2 } (copies 32 0#8)).map (fun r => (r.1.length, r.2.head)) = some (3, 2047)
      ∧ (live.ring 3).enable = false := by decide +kernel

theorem witness_RingWrites_put :
    let s := { live with rings := [(3, ring0)] }
    (s.ringPut 3 (copies 32 0#8)).1 = true ∧ ((s.ringPut 3 (copies 32 0#8)).2.ring 3).head = 2041 ∧ s.hostUp = true
      ∧ (live.ring 0).enable = false ∧ (live.coll 0).enable = false ∧ ((live.ringPut 3 []).2.ring 3).lost = 1 := by decide +kernel

def ringed (r : Ring) : State := { live with rings := [(3, r)] }
theorem witness_RingCommands_tail :
    ((after (.ringTailWrite 3 2040) (ringed ring0)).ring 3).tail = 2040 ∧ ((after (.ringTailWrite 3 2041) (ringed ring0)).ring 3).enable = false
      ∧ code (after (.ringTailWrite 3 999) (ringed ring0)) = fltMdoTail
      ∧ (after (.ringCtrlWrite 3 (1 + 16 * 2)) (ringed { ring0 with enable := false })).ring 3
        = { base := 0x100000, wb := 0x90000, enable := true, sizeLog2 := 16 }
      ∧ ((after (.ringCtrlWrite 3 (16 * 2)) (ringed ring0)).ring 3).enable = false ∧ after (.ringCtrlWrite 3 (1 + 11 * 2)) (ringed ring0) = ringed ring0
      ∧ after (.ringCtrlWrite 3 (1 + 27 * 2)) (ringed ring0) = ringed ring0 := by decide +kernel

theorem witness_RingCommands_msix :
    let s := { live with pci := { live.pci with pba := [2, 5], msixEn := true, funcMask := true } }
    (after (.msixUnmask true false [5, 7]) s).out = [.msix 5] ∧ (after (.msixUnmask true false [5, 7]) s).pci.pba = [2]
      ∧ (after (.msixUnmask false false [5]) s).pci.pba = [2, 5]
      ∧ (after (.msixModerationTimer 3) (ringed { ring0 with modTime := 9, unsig := 4, vector := 6 })).pci.pba = [6]
      ∧ after (.msixModerationTimer 3) (ringed ring0) = ringed ring0
      ∧ ({ live with pci := { live.pci with msixEn := true, unmasked := [2] } } : State).msix 2 = State.emit { live with pci := { live.pci with msixEn := true, unmasked := [2] } } (.msix 2) := by
  decide +kernel

def collected (c : Collector) : State := { live with colls := [(2, c)] }
theorem witness_Collectors :
    ((after (.collectorDatagramTimer 2) (collected { enable := true, up := true, filling := [copies 32 0#8], nextNo := 8 })).coll 2).nextNo = 9
      ∧ after (.collectorDatagramTimer 2) live = live ∧ after (.deliveryAck 2 7 0) live = live
      ∧ ((after (.deliveryAck 2 7 2) (collected { enable := true, kept := [(8, [1#8])] })).coll 2).up = true
      ∧ (after (.deliveryAck 2 7 2) (collected { enable := true, kept := [(8, [1#8])] })).out = [.blp 2 [1#8]]
      ∧ missingOf 7 2 = [8] ∧ missingOf 7 0 = [] ∧ missingOf 7 1 = []
      ∧ code (after (.collectorAckTimeout 2) (collected { enable := true, up := true })) = fltMdoCollector
      ∧ after (.collectorAckTimeout 2) (collected { enable := true, up := false }) = collected { enable := true, up := false }
      ∧ ((collected { enable := true, up := false }).collPut 2 []).1 = false := by decide +kernel

theorem witness_Collectors_loss :
    ((after (.collectorAckTimeout 2) (collected { enable := true, up := true, filling := [copies 32 0#8] })).coll 2).lost = 1
      ∧ ((after (.deliveryAck 2 7 0) (collected { enable := true, up := false })).coll 2).lossDue = true
      ∧ (after (.deliveryAck 2 7 2) (collected { enable := true, up := true, sent := [(8, 3)] })).coll 2
        = { enable := true, up := true, lossDue := true, lost := 3, lostCause := 1, dropped := 3, acked := some 7 } := by decide +kernel

/-! ### The saddle -/

def page (cls : Nat) : State := { ram with tkp := { pages := [(5, { st := .held, cls := cls, holder := 7 })] } }
def failing (cls : Nat) (ls : List Nat) : State := { page cls with mem := { ram.mem with failing := ls.map (fun l => (l, true)) } }
def line5 : Nat := 0x50000
def other5 : Nat := ram.partner 5 * pageSize

theorem witness_SaddleStores :
    ram.mem.lostDie = none ∧ ram.lineFails line5 = false ∧ ram.entryOf line5 = none ∧ (ram.chan (chanOf line5)).merges.length < 16
      ∧ (ram.store 0 (line5 + 8) [1#8, 2#8]).seen (line5 + 8) 3 = [1#8, 2#8, 0#8]
      ∧ ((page 1).store 0 line5 (copies 64 1#8)).seen other5 1 = [1#8] ∧ (page 1).classOf line5 = 1 := by decide +kernel

def cachedLine (c : CacheLine) : State := { ram with mem := { ram.mem with cache := [(line5, some c)] } }
theorem witness_LineChecks_cached :
    ((cachedLine ⟨0, true, 0, false⟩).readLine 3 1 line5 noErrors).1 = .ok
      ∧ ((cachedLine ⟨0, true, 0, true⟩).readLine 3 1 line5 noErrors).1 = .failedR
      ∧ ((cachedLine ⟨0, true, 0, false⟩).readLine 3 1 line5 { noErrors with cached := [line5] }).1 = .failedR
      ∧ ((cachedLine ⟨0, false, 0, true⟩).readLine 3 1 line5 noErrors).1 = .ok
      ∧ ((cachedLine ⟨0, false, 0, true⟩).readLine 3 1 line5 noErrors).2.cacheBad line5 = false := by decide +kernel

def noisy (f t : List Nat) : ReadErrors := { failing := f, transient := t, cached := [] }
theorem witness_LineChecks_kept :
    (ram.testLine 0 line5 noErrors).1 = .ok ∧ (ram.testLine 0 line5 (noisy [line5] [line5])).1 = .ok
      ∧ tget 0 (ram.testLine 0 line5 (noisy [line5] [line5])).2.mem.cnt (cntKey 0 (chanOf line5) 1) = 1
      ∧ ((failing 1 [line5]).testLine 0 line5 noErrors).1 = .ok ∧ ((failing 1 [line5]).testLine 0 line5 noErrors).2.lineFails line5 = false := by decide +kernel

theorem witness_LineChecks_lost :
    ((failing 1 [line5, other5]).testLine 0 line5 noErrors).1 = .lostP ∧ code ((failing 1 [line5, other5]).testLine 0 line5 noErrors).2 = fltIntPLost
      ∧ ((failing 2 [line5]).testLine 0 line5 noErrors).1 = .failedX ∧ code ((failing 2 [line5]).testLine 0 line5 noErrors).2 = fltIntHost
      ∧ ((page 0).testLine 0 line5 (noisy [line5] [])).1 = .failedR := by decide +kernel

def chan0 (c : DramChan) : State := { live with mem := { live.mem with chans := [(5, c)] } }
def urgency (age : Nat) : Nat × Nat :=
  let m := tget {} (after (.requestUrgencyRise 3 age) { live with mem := { live.mem with ports := [(3, { target := some 100 })] } }).mem.ports 3
  (m.urgency, m.late)

theorem witness_MemoryCommands_urgency :
    urgency 49 = (0, 0) ∧ urgency 50 = (1, 0) ∧ urgency 75 = (2, 0) ∧ urgency 90 = (3, 0) ∧ urgency 100 = (3, 1) ∧ urgency 101 = (3, 0) := by decide +kernel

theorem witness_MemoryCommands_channel :
    ((after (.refreshDue 5 2 true) (chan0 { st := .active, postponed := [(2, 7)] })).chan 5).postponed = [(2, 8)]
      ∧ ((after (.refreshDue 5 2 true) (chan0 { st := .active, postponed := [(2, 8)] })).chan 5).refForced = 1
      ∧ ((after (.refreshDue 5 2 false) (chan0 { st := .active, postponed := [(2, 8)] })).chan 5).postponed = []
      ∧ ((after (.channelRetrain 5 60) (chan0 { st := .active, trainTemp := some 50 })).chan 5).st = .training
      ∧ ((after (.channelRetrain 5 59) (chan0 { st := .active, trainTemp := some 50 })).chan 5).st = .active
      ∧ ((after (.retrainComplete 5 true) (chan0 { st := .training, failRun := 2 })).chan 5).failRun = 0
      ∧ ((after (.retrainComplete 5 false) (chan0 { st := .training, failRun := 2 })).chan 5).st = .training
      ∧ ((after (.retrainComplete 5 false) (chan0 { st := .training, failRun := 1 })).chan 5).st = .active := by decide +kernel

theorem witness_MemoryCommands_chanLost : ∀ c, (chan0 { st := .training, failRun := 2 }).chanLost ((chan0 { st := .training, failRun := 2 }).chan c) = false := by
  intro c
  by_cases h : c = 5
  · subst h; decide +kernel
  · have hd : (chan0 { st := .training, failRun := 2 }).chan c = ({} : DramChan) := if_neg h
    rw [hd]; decide +kernel

def cached : State := { live with mem := { live.mem with flushing := true, cache := [(line5, some { way := 1, dirty := true, use := 3 })] } }
theorem witness_MemoryCommands_flush :
    (after .cacheFlush live).mem.flushing = true ∧ after .flushComplete live = live ∧ (after .flushComplete cached).mem.flushing = false
      ∧ (tget none (after .flushComplete cached).mem.cache line5).map (·.dirty) = some false := by decide +kernel

def merging (cls : Nat) (ls : List Nat) : State :=
  { failing cls ls with mem := { (failing cls ls).mem with chans := [(5, { st := .active, merges := [⟨line5, [(3, 9#8)]⟩] })] } }
theorem witness_MemoryCommands_merge :
    ((after (.mergeEntryTimeout 5 line5 noErrors) (merging 0 [])).entryOf line5) = none
      ∧ (after (.mergeEntryTimeout 5 line5 noErrors) (merging 0 [])).rdByte (line5 + 3) = 9#8
      ∧ (after (.mergeEntryTimeout 5 line5 noErrors) (merging 0 [line5])).mem.bytes = []
      ∧ (merging 0 [line5]).entryOf line5 = some ⟨line5, [(3, 9#8)]⟩ ∧ chanOf line5 = 5 := by decide +kernel

def burning (b : Burnisher) (ls : List Nat) : State := { failing 0 ls with mem := { (failing 0 ls).mem with burn := b } }
theorem witness_MemoryCommands_walks :
    after (.burnisherLine noErrors) (burning { dramEn := false } []) = burning { dramEn := false } []
      ∧ (after (.burnisherLine noErrors) (burning { pos := line5 / 64 } [])).mem.burn.pos = line5 / 64 + 1
      ∧ (after (.burnisherLine noErrors) (burning { pos := 2 ^ 28 - 1 } [])).mem.burn.passes = 1
      ∧ (burning { pos := line5 / 64 } [line5]).burnSkips line5 = false
      ∧ tget 0 (after (.burnisherLine noErrors) (burning { pos := line5 / 64 } [line5])).mem.cnt (cntKey 0 (chanOf line5) 9) = 1
      ∧ after (.onchipScrubLine true) (burning { onchipEn := false } []) = burning { onchipEn := false } [] := by decide +kernel

theorem witness_MemoryCommands_onchip :
    let s := prog k0
    s.nextBank 0 s.walkBanks = some 0 ∧ (after (.onchipScrubLine true) s).mem.burn.lines = 1
      ∧ (after (.onchipScrubLine true) { s with mem := { s.mem with burn := { s.mem.burn with onchipPos := s.walkBanks * 1024 } } }).mem.burn.onchipPasses = 1 := by
  decide +kernel

theorem witness_MemoryCommands_spares :
    ((after (.quarantineCopyComplete 5 0) (chan0 { st := .active, remap := [(0, some ⟨1, 2, 3, true⟩)] })).chan 5).remap = [(0, some ⟨1, 2, 3, false⟩)]
      ∧ (after .spareEntryAppend { live with kpr := { live.kpr with appends := [(1, 2, 3, 4, 5)] } }).flash.pendingSpares = [(1, 2, 3, 4, 5)]
      ∧ after .spareEntryAppend live = live := by decide +kernel

/-! ### The Tack pool -/

theorem witness_AssignmentsAreFoundExactly :
    assignable [⟨0, 4, 2⟩, ⟨1, 4, 1⟩] [⟨1, true, 2⟩, ⟨2, false, 4⟩] = true ∧ assignable [⟨0, 4, 2⟩, ⟨1, 4, 1⟩] [⟨3, true, 4⟩] = false := by decide +kernel

/-- Reservation 7 of 4 pages on channel 5 holds page 5; slot 3 has buffer 2 in use and buffer 3 free. -/
def pool (low : Nat) : State :=
  { ram with heldLow := [(latchKey .cantle tkpCmdOff, some low)]
             tkp := { res := [(7, { active := true, pool := 2, count := 4, used := 1, channels := 32 })]
                      pages := [(5, { st := .held, holder := 7, gen := 3 })]
                      fbs := [(2, { inUse := true, live := true, refs := 2, ev := 1, slot := 3, extent := 0 }), (3, { inUse := true, slot := 3, gen := 4, extent := 0 })]
                      extents := [(0, some { slot := 3, bufSize := 65536, w := 16, h := 16, pages := [6, 7], first := [2, 3] })] } }
def cmd7 (op more : Nat) : Nat := op + 7 * 16 + more

theorem witness_TackPool_alloc :
    let t := after (.allocPage .cantle 0) (pool (cmd7 0 0))
    (pool 0).choosePage 7 0 false .free = some 262085 ∧ t.tkp.result = pageHandle 0 262085 ∧ (t.page 262085).st = .held ∧ (t.reserv 7).used = 2
      ∧ (after (.allocPage .cantle 0) (pool (cmd7 0 (2 ^ 16)))).tkp.result = pageHandle 0 69 := by decide +kernel

theorem witness_TackPool_full :
    (after (.allocPage .cantle 0) { pool (cmd7 0 0) with tkp := { (pool 0).tkp with res := [(7, { active := true, count := 1, used := 1 })] } }).tkp.status = 1
      ∧ (after (.allocPage .cantle 0) { pool (cmd7 0 0) with tkp := { (pool 0).tkp with waiting := some (1, 0, false, 9) } }).tkp.blocked = [cmd7 0 0]
      ∧ (after (.tkpIllegalCommand .cantle 0) (pool 7)).tkp.status = 3 := by decide +kernel

theorem witness_TackPool_free :
    let h := pageHandle 3 5
    ((after (.freePage .cantle h) (pool 1)).page 5).st = .zeroing ∧ ((after (.freePage .cantle h) (pool 1)).chan 5).zeroing = [5]
      ∧ (after (.freePage .cantle (pageHandle 2 5)) (pool 1)).tkp.status = 4 ∧ code (after (.freePage .cantle (pageHandle 2 5)) (pool 1)) = fltTkpDoubleFree
      ∧ code (after (.freePage .cantle fb2) (pool 1)) = fltTkpHandle := by decide +kernel

theorem witness_TackPool_buffers :
    (after (.fbTake .cantle fb2) (pool 3)).fb 2 = { inUse := true, live := true, refs := 3, ev := 1, slot := 3, extent := 0 }
      ∧ ((after (.fbTakeEv .cantle fb2) (pool 5)).fb 2).ev = 2 ∧ ((after (.fbDrop .cantle fb2) (pool 4)).fb 2).refs = 1
      ∧ ((after (.fbDropEv .cantle fb2) (pool 6)).fb 2).ev = 0 ∧ code (after (.fbTake .cantle (fb2 + 1)) (pool 3)) = fltTkpHandle
      ∧ code (after (.fbDrop .cantle (fb2 + 1)) (pool 4)) = fltTkpDoubleFree
      ∧ ((pool (2 + 3 * 16)).fbGet 3).isSome = true ∧ (after (.fbGet .cantle 0) (pool (2 + 3 * 16))).tkp.status = 0 := by decide +kernel

theorem witness_TackPool_last :
    let one := fun (refs ev : Nat) => { pool 4 with tkp := { (pool 0).tkp with fbs := [(2, { inUse := true, live := true, refs := refs, ev := ev, slot := 3, extent := 0, gen := 0 })] } }
    ((after (.fbDrop .cantle fb2) (one 1 0)).fb 2).live = false ∧ ((after (.fbDrop .cantle fb2) (one 1 0)).fb 2).gen = 1
      ∧ code (after (.fbDrop .cantle fb2) (one 1 1)) = fltTkpDoubleFree ∧ code (after (.fbTake .cantle fb2) { one 65535 0 with heldLow := [(latchKey .cantle tkpCmdOff, some 3)] }) = fltTkpRefcount
      ∧ (after (.fbGet .cantle 0) { one 1 0 with heldLow := [(latchKey .cantle tkpCmdOff, some (2 + 4 * 16))] }).tkp.status = 2 := by decide +kernel

theorem witness_TackPool_zeroed :
    let s := { pool 0 with mem := { (pool 0).mem with bytes := [(line5, 9#8), (0x60000, 8#8)], chans := [(5, { st := .active, zeroing := [5] })] } }
    let t := after (.pageZeroingComplete 5) s
    t.mem.bytes = [(0x60000, 8#8)] ∧ (t.page 5).st = .free ∧ (t.page 5).gen = 4 ∧ (t.chan 5).zeroing = [] ∧ after (.pageZeroingComplete 69) s = s := by decide +kernel

/-! ### Contexts -/

/-- An image without sections but one empty one of type 2; its digest is what `sha512` gives. -/
def imgHead : List Byte := ascii "QSIM" ++ leBytes 2 1 ++ leBytes 2 1 ++ leBytes 2 1 ++ leBytes 2 0 ++ leBytes 4 0 ++ leBytes 16 0 ++ leBytes 8 144 ++ leBytes 24 0
def imgTail : List Byte := leBytes 2 2 ++ leBytes 2 0 ++ leBytes 4 0 ++ leBytes 8 144
def img : List Byte := imgHead ++ sha512 (imgHead ++ copies 64 0#8 ++ imgTail) ++ imgTail
def declN : ImageDecl := ⟨copies 16 [], copies 16 0x43, [1], [], [], none, 0, false, [], skvDecl, 0, true⟩
def create : CreateReq := ⟨none, 5, [], none, 2 ^ 64 - 1, 0, 1, some 100, 4096, 2000, 1000, 1000, false, 0⟩
def host : State := { ram with mem := { ram.mem with videoSet := 0, svcSet := 0 } }

theorem witness_ContextCommands_create :
    (match host.createCtx .cantle create declN false img with | .ok r => r.1 == 0 | .error _ => false) = true := by decide +kernel

theorem witness_ContextCommands_refused :
    reply (after (.contextDestroy .cantle 9) host) = some 3 ∧ reply (after (.captureRelease .cantle 9) host) = some 3
      ∧ reply (after (.contextCreate .cantle create declN) host) = some 9 ∧ host.noAdmission = false
      ∧ code (after (.contextCreate .cantle create declN) { host with pwr := { host.pwr with mode := .entering } }) = fltRneStandby
      ∧ reply (after (.contextDestroy .udp 9) { host with od := { host.od with values := [(odKeyNat 0x7010 2, some [0x17#8])] } }) = some 2 := by decide +kernel

def owned (o : OdRoute) (x : Ctx) : State := { host with ctxs := [(1, { x with owner := o })] }
theorem witness_ContextCommands_destroy :
    reply (after (.contextDestroy .cantle 1) (owned .mailbox ctx1)) = some 0 ∧ code (after (.contextDestroy .cantle 1) (owned .mailbox ctx1)) = fltCtxKilled
      ∧ (((after (.contextDestroy .cantle 1) (owned .mailbox { ctx1 with st := .switchingIn })).ctx 1).destroyWish) = true
      ∧ ((after (.captureRelease .cantle 1) (owned .mailbox { ctx1 with st := .ended, capture := true })).ctx 1).capture = false
      ∧ ((after (.captureRetainExpiry 1) (owned .mailbox { ctx1 with st := .ended, capture := true })).ctx 1).capture = false := by decide +kernel

theorem witness_ContextCommands_primitive :
    reply (after (.primitiveRequest .cantle (.gemm 16 16 16 1 1 1 2 3) ⟨[], []⟩) host) = some 2
      ∧ reply (after (.primitiveRequest .cantle (.gemm 17 16 16 1 1 1 2 3) ⟨[], []⟩) host) = some 3 ∧ reply (after (.primitiveRequest .cantle (.cropInfer 64 16) ⟨[], []⟩) host) = some 0
      ∧ code (after (.primitiveRequest .cantle (.cropInfer 1 1) ⟨layerBytes 5 8 6 0 9, tabBytes⟩) host) = fltShape := by decide +kernel

/-- Context 1 is resident, context 2 of the same partition and class is ready. -/
def shared (x y : Ctx) : State :=
  { prog { k0 with wait := some { ctr := 7, n := 1, dp := true }, st := .waiting } with ctxs := [(1, x), (2, { y with map := [0], k := 1 })] }
def ready : Ctx := { ctx1 with st := .descheduled, ready := true }

theorem witness_ContextCommands_slice :
    let s := shared ctx1 ready
    ((after (.sliceExpiry 1) s).ctx 1).preempt = true ∧ ((after (.sliceExpiry 1) s).core 0).st = .parked
      ∧ after (.sliceExpiry 2) s = s ∧ ((after (.preemptTimeout 1) (after (.sliceExpiry 1) s)).ctx 1).preempt = false
      ∧ ((after (.preemptTimeout 1) (after (.sliceExpiry 1) s)).core 0).wait = some { ctr := 7, n := 1, dp := true } ∧ after (.preemptTimeout 1) s = s := by decide +kernel

theorem witness_ContextCommands_switch :
    let stopped := { prog k0 with cores := (upto 0 16).map (fun j => (j, { k0 with st := .ended })), ctxs := [(1, { ctx1 with preempt := true }), (2, { ready with map := [0] })] }
    stopped.nextReady [0] = some 2 ∧ stopped.residentOf [0] = some 1 ∧ stopped.allStopped 1 = true ∧ stopped.drained 1 = true
      ∧ ({ stopped with ctxs := [(2, ready)] } : State).residentOf [0] = none
      ∧ ((after (.contextSwitchStart 2) { stopped with ctxs := [(2, ready)] }).ctx 2).st = .switchingIn
      ∧ after (.contextSwitchStart 1) stopped = stopped ∧ after (.contextSwitchComplete 2 false) stopped = stopped := by decide +kernel

theorem witness_ContextCommands_switched :
    let s := { prog k0 with ctxs := [(2, { ctx1 with st := .switchingIn, started := true, saved := [(0, { k0 with pc := 33, st := .parked, wait := some { ctr := 7, n := 1, dp := true } })] })] }
    let u := { s with ctxs := [(2, { ctx1 with st := .switchingIn, decl := some declN, imagePages := [5] })] }
    ((after (.contextSwitchComplete 2 false) s).ctx 2).st = .resident ∧ ((after (.contextSwitchComplete 2 false) s).core 0).pc = 33
      ∧ ((after (.contextSwitchComplete 2 true) s).ctx 2).st = .ended ∧ ((after (.contextSwitchComplete 2 false) u).core 0).st = .running := by decide +kernel

theorem witness_TeardownTouchesNoOther :
    let s := { prog k0 with mem := { ram.mem with bytes := [(line5, 1#8), (coreBase 0 + 4, 2#8), (coreBase 16, 3#8)] }, work := [(40, { v := 1, limit := 2 })]
                            ctxs := [(1, { ctx1 with ctrs := [40] }), (2, { ready with map := [9] })] }
    let t := s.teardown 1 9
    (s.ctx 1).live = true ∧ (s.ctx 1).debug = false ∧ (s.ctx 1).onPartition = true ∧ t.mem.bytes = [(line5, 1#8), (coreBase 16, 3#8)] ∧ (t.ctx 1).st = .ended
      ∧ t.work = [] ∧ t.ctx 2 = s.ctx 2 := by decide +kernel

theorem witness_SwitchKeepsTheContext :
    let s := { prog { k0 with s := [(1, 7#32)], pc := 33 } with mem := { ram.mem with bytes := [(coreBase 0 + 4, 2#8)] } }
    Memory.wf s.mem.bytes = true ∧ (s.ctx 1).map.Nodup ∧ (s.ctx 1).map.length = (s.ctx 1).k ∧ (∀ m ∈ (s.ctx 1).map, m < 128)
      ∧ (((s.saveOut 1).restoreIn 1).core 0).s = [(1, 7#32)] ∧ ((s.saveOut 1).restoreIn 1).mem.bytes = [(coreBase 0 + 4, 2#8)] ∧ (s.saveOut 1).mem.bytes = [] := by
  decide +kernel

/-! ### The chain, checkpoints and lock-step -/

/-- Slot 3 with one open group 5: entries out of order, an output picture that ends an interval of 300. -/
def grp5 : Group := { num := 5, entries := [{ typ := 5, sub := 1, payload := [1#8] }, { typ := 3, sub := 1, payload := [2#8] }], outs := [(299, 9000)], ended := true }
def chained (c : SlotChain) : Slot := { cam with chain := { c with h := copies 64 7#8 } }
def withGroup : State := slot3 (chained { groups := [grp5], seq := 40, cpFirst := 10, late := [{ typ := 8, sub := 0, payload := [] }] })

theorem witness_ChainGroups_order :
    (groupOrder (some { typ := 1, sub := 0, payload := [] }) grp5 [{ typ := 8, sub := 0, payload := [] }, { typ := 6, sub := 0, payload := [] }]).map (·.typ)
      = [1, 3, 5, 8, 6] := by decide +kernel

theorem witness_ChainGroups_close :
    withGroup.pair.mode = 0 ∧ (withGroup.slot 3).chain.groups.find? (fun y => y.num == 5) = some grp5 ∧ 1 ≤ (withGroup.slot 3).cfg.stream.checkpointEvery
      ∧ 299 % (withGroup.slot 3).cfg.stream.checkpointEvery = (withGroup.slot 3).cfg.stream.checkpointEvery - 1
      ∧ ((withGroup.closeGroup 3 5).slot 3).chain.cpNumber = 1 ∧ ((withGroup.closeGroup 3 5).slot 3).chain.cpFirst = 40
      ∧ ((withGroup.closeGroup 3 5).kpr.queue.map (fun r => (r.slot, r.number, r.first, r.last))) = [(3, 0, 10, 39)] := by decide +kernel

def cut (epoch : Nat) : CutRec := ⟨3, 2, copies 16 9#8, 10, 39, 0, 0xFF, [], [], 9000, epoch⟩
theorem witness_ChainGroups_signed :
    (after .checkpointSigned ram) = ram ∧ ram.kpr.queue = []
      ∧ (cut 4).chain.length = 16 ∧ (cut 4).imageDigest.length ≤ 16 ∧ (cut 4).epoch ≠ ((slot3 (chained { epoch := 5 })).slot 3).chain.epoch
      ∧ ((after .checkpointSigned { slot3 (chained { epoch := 5, seq := 7, oldSeq := 40 }) with kpr := { queue := [cut 4] } }).slot 3).chain.oldSeq = 41
      ∧ ((after .checkpointSigned { slot3 (chained { epoch := 5, seq := 7, oldSeq := 40 }) with kpr := { queue := [cut 5] } }).slot 3).chain.seq = 8 := by decide +kernel

def lockstep (c : SlotChain) : State := { slot3 (chained c) with pair := { (slot3 cam).pair with mode := 3, link := 2, hbOk := true } }
def mine : List Byte × List (Nat × List Byte) := (copies 16 1#8, [])
theorem witness_ChainGroups_values :
    ((after (.lockstepChainValue 3 5 (copies 16 1#8) []) (lockstep { values := [(5, mine)] })).slot 3).chain.diverged = false
      ∧ ((after (.lockstepChainValue 3 5 (copies 16 2#8) []) (lockstep { values := [(5, mine)] })).slot 3).chain.diverged = true
      ∧ code (after (.lockstepChainValue 3 5 (copies 16 2#8) []) (lockstep { values := [(5, mine)] })) = fltPairDiverge
      ∧ after (.lockstepChainValue 3 5 [] []) (slot3 cam) = slot3 cam := by decide +kernel

def following (c : SlotChain) : State :=
  { lockstep c with pairSh := { (lockstep c).pairSh with leaderId := 9 } }
theorem witness_ChainGroups_forced :
    let w := { num := 5, entries := [{ typ := 3, sub := 1, payload := [2#8] }], outs := [], ended := true, waiting := true }
    (following {}).follower = true ∧ (lockstep {}).follower = false
      ∧ ((after (.leaderForcedEntries 3 5 []) (following { groups := [w] })).slot 3).chain.closed = 6
      ∧ ((after (.leaderForcedEntries 3 5 [[8#8]]) (following {})).slot 3).chain.leader = [(5, [[8#8]])]
      ∧ after (.leaderForcedEntries 3 5 []) (slot3 cam) = slot3 cam := by decide +kernel

/-! ### Rein, shedding, power modes and clocks -/

/-- Context 1 charged to the replay class. -/
def rein (r : Rne) : State := { host with rne := r, ctxs := [(1, { ctx1 with cls := 2 })], ctxRuns := [(1, { duty := 16, allotMw := 5000 })] }
def meters (mw t : Nat) : Meters := ⟨mw, t, 7, [(1, mw)]⟩

def warm (r : Rne) : State := { host with rne := r }
theorem witness_Rein_tick :
    (warm {}).ready = true ∧ ((after (.reinTick (meters 20000 60)) (warm {})).rne.ticks, (after (.reinTick (meters 20000 60)) (warm {})).rne.energy) = (1, 7)
      ∧ (after (.reinTick (meters 20000 100)) (warm { thermTick := 9 })).rne.thermalStep = 1 ∧ (after (.reinTick (meters 20000 98)) (warm { thermalStep := 2 })).rne.thermalStep = 2
      ∧ (after (.reinTick (meters 20000 96)) (warm { thermalStep := 2, thermTick := 999 })).rne.thermalStep = 1
      ∧ (after (.reinTick (meters 20000 60)) (warm {})).slots = (warm {}).slots := by decide +kernel

theorem witness_Rein_lower :
    ((rein {}).ctxs.map (·.1)).Nodup ∧ (rein {}).allSlow = false ∧ (1, { ctx1 with cls := 2 }) ∈ (rein {}).charged ∧ (((rein {}).lowerTick).ctxRun 1).duty = 15
      ∧ (((rein { phase := 1 }).lowerTick).ctxRun 1).duty = 16 ∧ ({ rein {} with ctxRuns := [(1, { duty := 1 })] } : State).allSlow = true
      ∧ ({ rein {} with ctxRuns := [(1, { duty := 1 })] } : State).lowerTick.rne.budgetStep = 1 := by decide +kernel

theorem witness_Rein_calibration :
    (after (.calibrationUpdate 2000 500 500) (rein {})).rne.cal = 81920 ∧ (after (.calibrationUpdate 9000000 500 500) (rein {})).rne.cal = 131072
      ∧ (after (.calibrationUpdate 0 500 500) (rein { cal := 40000 })).rne.cal = 32768 ∧ leakage 75 = 27250 := by decide +kernel

theorem witness_Rein_clocks :
    (after (.arithDividerChange 840) (rein { divNext := some 2 })).clk.arithDiv = 6 ∧ after (.arithDividerChange 841) (rein { divNext := some 2 }) = rein { divNext := some 2 }
      ∧ (after (.reinTick (meters 1 110)) (rein {})).boot.thermalHold = true ∧ (after (.thermalResetRelease 94) (after (.reinTick (meters 1 110)) (rein {}))).boot.cause = 5
      ∧ (after (.thermalResetRelease 95) (after (.reinTick (meters 1 110)) (rein {}))).boot.thermalHold = true
      ∧ (after .refclkLoss live).clk.refLost = true ∧ (after .refclkLoss live).up = false ∧ (after .pllLock (after .refclkLoss live)).clk.running = false
      ∧ (after .pllLock { live with clk := { live.clk with running := false } }).clk.running = true
      ∧ code (after (.serdesRefLoss .pcie) { live with clk := { live.clk with pcieRef := true } }) = fltClkSerdesRef
      ∧ (after (.serdesRefLoss .stirrup) { live with clk := { live.clk with stpRef := true } }).clk.stpRef = false
      ∧ (after (.serdesRefReturn .ethernet) live).clk.mgmtLock = true := by decide +kernel

/-- Slot 3 of the replay class, and the supply's inputs at step `n`. -/
def supply (n : Nat) (f : ShedStep → ShedStep) : State :=
  { slot3 { cam with cfg := { cam.cfg with stream := { cam.cfg.stream with priority := 2 } } } with
      ctxs := [(1, ctx1)], pwr := { steps := shedDefaults.map f, step := n, us := 5 } }
def sagging (n : Nat) : State := supply n (fun x => { x with droopSince := some 5 })
def easing (n : Nat) : State := supply n (fun x => { x with holdUs := 30000000 })

theorem witness_SheddingAndStandby_entry :
    (sagging 0).entryDue 1 15 = true ∧ (sagging 0).entryDue 1 14 = false ∧ (after (.shedStepEntry 1 15) (sagging 0)).pwr.step = 1
      ∧ (after (.shedStepEntry 2 55) (sagging 1)).narr.shed = true
      ∧ ((after (.shedStepEntry 3 105) (sagging 2)).slot 3).shedNext = shedFor 2 3 ∧ code (after (.shedStepEntry 3 105) (sagging 2)) = evtPwrShed
      ∧ (after (.shedStepEntry 3 105) (sagging 1)).pwr.step = 1 ∧ (after (.shedStepEntry 1 105) (sagging 2)).pwr.step = 2
      ∧ ((after (.shedStepEntry 6 1005) (sagging 5)).pwr.mode, ((after (.shedStepEntry 6 1005) (sagging 5)).ctx 1).preempt) = (.parked, true)
      ∧ after (.shedStepEntry 1 14) (sagging 0) = sagging 0 ∧ after (.shedStepEntry 0 99) (sagging 0) = sagging 0 := by decide +kernel

theorem witness_SheddingAndStandby_exit :
    (easing 4).exitDue 4 9 = true ∧ (after (.shedStepExit 4 9) (easing 4)).pwr.step = 3 ∧ ((after (.shedStepExit 4 9) (easing 4)).slot 3).shedNext = shedFor 2 3
      ∧ after (.shedStepExit 3 9) (easing 4) = easing 4 ∧ (after (.pwrWarn true 9) (easing 4)).pwr.warn = true ∧ after (.droopChange 30 4) (easing 4) = easing 4
      ∧ State.reset.pwr.steps = shedDefaults ∧ State.reset.pwr.warn = false ∧ State.reset.pwr.warnSince = none ∧ State.reset.pwr.droop = 0
      ∧ (after .shedParkTimeout { easing 6 with pwr := { (easing 6).pwr with parkWait := true } }).pwr.mode = .parked ∧ after .shedParkTimeout (easing 6) = easing 6 := by decide +kernel

theorem witness_SheddingAndStandby_standby :
    let s := { host with ctxs := [(1, ctx1)], mem := { host.mem with bytes := [(line5, 1#8)] } }
    let t := after (.standbyEnter .cantle) s
    s.permits .cantle 1 = true ∧ s.pwr.mode = .run ∧ t.pwr.mode = .standby ∧ (t.ctx 1).live = false ∧ (t.chan 5).st = .selfRefresh
      ∧ (after (.standbyWake true) t).pwr.mode = .leaving ∧ (after .selfRefreshExitComplete (after (.standbyWake true) t)).pwr.mode = .run
      ∧ (after .selfRefreshExitComplete (after (.standbyWake true) t)).rdByte line5 = 1#8 ∧ t.keeps line5 = true ∧ t.keeps (2 ^ 34 - 1) = false
      ∧ after (.standbyWake true) s = s ∧ after .selfRefreshExitComplete s = s
      ∧ reply (after (.standbyEnter .udp) { s with od := { s.od with values := [(odKeyNat 0x7010 2, some [0x1D#8])] } }) = some 2 := by decide +kernel

/-! ### The pair and its link -/

/-- A pair device of mode 1 with id 0 whose link is up; the pair area is page 5. -/
def linked (p : Pair) : State :=
  { withCtx1 ram with pair := { p with mode := 1, link := 2, hbOk := true, failOut := false, synced := true }
                      clk := { ram.clk with stpRef := true }, pairSh := { area := 0x50000, areaLen := 4096, counters := [(1, 0, 7)] } }
def frame (b : List Byte) : Frame := ⟨0, 2 ^ 32 - 1, 9, b⟩
def incBytes (n : Nat) : List Byte := leBytes 1 1 ++ leBytes 2 0 ++ leBytes 1 7 ++ leBytes 2 n

theorem witness_StirrupLink_frames :
    (linked {}).up = true ∧ (linked {}).inPairArea 0x50000 4 = true ∧ (linked {}).inPairArea 0x50FFD 4 = false ∧ (linked {}).pairs = true
      ∧ (after (.stirrupWriteFrame (frame (leBytes 8 0x50000 ++ [7#8]))) (linked {})).seen 0x50000 1 = [7#8]
      ∧ ((after (.stirrupWriteFrame (frame (leBytes 8 0x51000 ++ [7#8]))) (linked {})).seen 0x51000 1, (after (.stirrupWriteFrame (frame (leBytes 8 0x51000 ++ [7#8]))) (linked {})).pair.bad) = ([0#8], 1)
      ∧ (after (.stirrupWriteFrame { frame (leBytes 8 0x50000 ++ [7#8]) with seq := 1 }) (linked {})).seen 0x50000 1 = [0#8]
      ∧ (after (.stirrupIncrementFrame (frame (incBytes 3))) (linked {})).flight.length = 1 ∧ (after (.stirrupIncrementFrame (frame (incBytes 0))) (linked {})).flight = []
      ∧ (after (.stirrupIncrementFrame (frame [])) (linked {})).pair.bad = 1 ∧ (after (.stirrupBadFrame .crc) (linked {})).pair.bad = 1 := by decide +kernel

theorem witness_StirrupLink_mirror :
    let b := leBytes 1 3 ++ leBytes 1 3 ++ leBytes 8 12 ++ copies 64 5#8 ++ leBytes 12 7
    (tget {} (after (.stirrupMirrorFrame (frame b) .chain) (linked {})).pair.shadows 3).valid = true
      ∧ (tget {} (after (.stirrupMirrorFrame (frame b) .chain) (linked {})).pair.shadows 3).group = 12
      ∧ (tget {} (after (.stirrupMirrorFrame (frame b) .chain) (linked {})).pair.shadows 3).seq = 7
      ∧ (after (.stirrupMirrorFrame (frame []) .chain) (linked {})).pair.bad = 1 := by decide +kernel

def sent : Pair := { unacked := [(1, 4, [1#8])], txSeq := 5 }
theorem witness_StirrupLink_timers :
    (after (.stirrupIdleFrame { frame [] with ack := 4 }) (linked sent)).pair.unacked = [] ∧ (after (.stirrupIdleFrame { frame [] with ack := 3 }) (linked sent)).pair.unacked = sent.unacked
      ∧ (after .stirrupIdleTimer (linked {})).out.length = 1 ∧ (after .stirrupRetxTimeout (linked sent)).pair.retx = 1
      ∧ (after .stirrupRetxTimeout (linked { sent with resends := 8 })).pair.link = 0 ∧ (after .linkSilent (linked {})).pair.linkDowns = 1
      ∧ code (after .linkSilent (linked {})) = fltPairLink ∧ after .stirrupRetxTimeout (linked {}) = linked {} ∧ after .linkSilent live = live
      ∧ (linked {}).pair.heldBytes + 1 + 20 ≤ 2 ^ 20 ∧ ((linked {}).stirrupSend 1 [1#8]).pair.txSeq = 1 := by decide +kernel

/-- The digest of the configuration is the environment's to tell, so that only a differing one can be named here. -/
theorem witness_StirrupLink_training :
    let s : State := { linked {} with pair := { (linked {}).pair with link := 0 } }
    (after .linkTrainRetry s).pair.link = 1 ∧ (after (.linkTrained [] false) s).pair.link = 3 ∧ s.pairDigest ≠ []
      ∧ (after (.linkTrained s.pairDigest true) s).pair.link = 2 ∧ after .linkTrainRetry (linked {}) = linked {}
      ∧ (after (.stirrupControlFrame (frame []) (.config [])) (linked {})).pair.link = 3
      ∧ (after (.stirrupControlFrame (frame []) .parkAck) { linked {} with pwr := { (linked {}).pwr with parkWait := true } }).pwr.mode = .parked
      ∧ (after .ledgerMirror (linked {})).pair.txSeq = 1 ∧ after .ledgerMirror live = live := by decide +kernel

/-- Slot 3 is the partner's: this device, of mode 1 and id 1, holds it as a shadow. -/
def shadowed (link : Nat) : State :=
  { linked {} with slots := [(3, { cam with run := .shadow })]
                   pair := { (linked {}).pair with id := 1, link := link, shadows := [(3, { h := copies 64 5#8, seq := 77, cpNumber := 2, valid := true })] } }

theorem witness_TakeoverDecisions :
    (shadowed 0).pairs = true ∧ (shadowed 0).owns 3 = false ∧ ((after (.failInChange true) (shadowed 0)).slot 3).run = .running
      ∧ ((after (.failInChange true) (shadowed 0)).slot 3).chain.seq = 77 ∧ ((after .hbInMissing (shadowed 0)).slot 3).dec.waiting = some .takeover
      ∧ (after .hbInMissing (shadowed 0)).pair.takeovers = 1 ∧ (after .hbInMissing (shadowed 0)).owns 3 = true
      ∧ ((after (.failInChange true) (shadowed 2)).slot 3).run = .shadow ∧ code (after (.failInChange true) (shadowed 2)) = fltPairSideband
      ∧ (after .hbInEdge (shadowed 2)).pair.sideFault = false ∧ (after (.failInChange true) live).pair.failLow = true
      ∧ (after .hbInMissing { live with pair := { live.pair with mode := 3 } }).pairSh.leaderId = live.pair.id
      ∧ (after .pairHbToggle live).pair.hbOut = true := by decide +kernel

theorem witness_TakeoverDecisions_handover :
    (after (.plannedHandover [3]) (shadowed 2)).pair.taking = [3] ∧ after (.plannedHandover [4]) (shadowed 2) = shadowed 2 ∧ after (.plannedHandover [3]) live = live
      ∧ ({ linked {} with slots := [(3, cam)] } : State).owns 3 = true ∧ (after (.plannedHandover [3]) { linked {} with slots := [(3, cam)] }).pair.txSeq = 1
      ∧ ({ linked {} with slots := [(3, { cam with protect := true })] } : State).holdsRecords 3 = true := by decide +kernel

/-! ### The PCIe endpoint and the mailbox -/

/-- Page 5 is a Class X page that the host allocated, of handle 9. -/
def bar2 (s : State) : State := { s with
  tkp := { s.tkp with pages := [(5, { st := .held, cls := 2, holder := 7 })], lists := [(9, [5])], listOwner := [(9, OdRoute.num .mailbox)] } }
def bar2Mem (b : Byte) : State := bar2 { ram with mem := { ram.mem with bytes := [(line5, b)] } }
def hostWrite (off : Nat) (p : Bool) : HostWrite := ⟨off, [6#8], false, p⟩

theorem witness_PcieHost_bar2 :
    (bar2Mem 7#8).bar2Addr line5 1 = some line5 ∧ (bar2Mem 7#8).granted 5 = true ∧ (bar2Mem 7#8).granted 6 = false ∧ (bar2Mem 7#8).inStateBlock line5 = false
      ∧ (bar2Mem 7#8).entryOf line5 = none ∧ (bar2Mem 7#8).lineFails line5 = false
      ∧ (after (.bar2Read line5 1 noErrors) (bar2Mem 7#8)).out = [.bar2Data [7#8]]
      ∧ (after (.bar2Read (line5 + pageSize) 1 noErrors) (bar2Mem 7#8)).out = [.bar2Unsupported]
      ∧ code (after (.bar2Read (line5 + pageSize) 1 noErrors) (bar2Mem 7#8)) = fltPciAccess
      ∧ (after (.bar2Write (hostWrite line5 false)) (bar2Mem 7#8)).seen line5 1 = [6#8] ∧ (after (.bar2Write (hostWrite line5 true)) (bar2Mem 7#8)).seen line5 1 = [7#8]
      ∧ (after (.bar2Write (hostWrite (line5 + pageSize) false)) (bar2Mem 7#8)).pci.denied = 1
      ∧ (after (.bar2Write (hostWrite (2 ^ 34) false)) (bar2Mem 7#8)).pci.aerUnc = 2 ^ 20 ∧ (after (.bar2Read (2 ^ 34) 1 noErrors) (bar2Mem 7#8)).out = [.bar2Unsupported] := by decide +kernel

theorem witness_PcieHost_abort :
    let s := bar2 { ram with mem := { ram.mem with failing := [(line5, true)] } }
    s.lineFails line5 = true ∧ s.classOf line5 = 2 ∧ s.mem.lostLines = [] ∧ linesOf line5 1 = [line5]
      ∧ (after (.bar2Read line5 1 noErrors) s).out.head? = some .bar2Abort ∧ code (after (.bar2Read line5 1 noErrors) s) = fltIntHost
      ∧ ({ ram with pci := { ram.pci with barLog2 := 30, aperture := 0x240000000 } } : State).bar2Addr 0x05670000 64 = some (148839 * 65536) := by decide +kernel

theorem witness_PcieHost_power :
    (after .d3hotRequest host).pwr.mode = .standby ∧ (after .d0Request (after .d3hotRequest host)).pwr.mode = .leaving ∧ (after .pmeTurnOff host).out = [.pmeAck]
      ∧ (after .d3hotRequest { host with pci := { host.pci with ready := false } }).pci.dState = 3 := by decide +kernel

theorem witness_PcieHost_resets :
    let s := { bar2Mem 7#8 with push := { enable := true, head := 4 }, rings := [(3, ring0)], pci := { live.pci with aerCor := 1, mbxState := 2, linkL2 := true, dState := 3 } }
    (s.odRoute (OdRoute.num .mailbox)).txn = none ∧ (after .flr s).push = { enable := false, head := 4 } ∧ ((after .flr s).ring 3).enable = false
      ∧ ((after .flr s).pci.aerCor, (after .flr s).pci.mbxState) = (1, 0) ∧ (after .flr s).rdByte line5 = 7#8
      ∧ ((after .perst s).pci.aerCor, (after .perst s).pci.linkL2, (after .perst s).pci.dState) = (0, true, 3)
      ∧ (after .perst { s with pci := { s.pci with wakeAsserted := true } }).pci.dState = 0 := by decide +kernel

theorem witness_PcieHost_completions :
    let s := pushing false
    s.pci.outstanding.find? (fun r => r.tag == 1) = none ∧ (after (.readCompletion 1 .success 0 []) s).pci.aerUnc = 2 ^ 16 ∧ after (.completionTimeout 1) s = s
      ∧ (s.pci.outstanding.find? (fun r => r.tag == 0)).isSome = true ∧ code (after (.readCompletion 0 .abort 0 []) s) = fltPciCplError
      ∧ code (after (.completionTimeout 0) s) = fltPciCplTimeout ∧ (after (.completionTimeout 0) s).push.enable = false
      ∧ (after (.pcieTlpError .malformed) s).pci.aerUnc = 2 ^ 18 ∧ code (after (.pcieTlpError .malformed) s) = fltPciLink
      ∧ (after (.pcieTlpError .badTlp) s).pci.aerCor = 64 ∧ (after (.pcieTlpError .internal) s).push.enable = false := by decide +kernel

/-- The mailbox holds `b`. -/
def mailbox (b : List Byte) : State := { live with
  od := { live.od with routes := [(OdRoute.num .mailbox, { sessions := [(0, some {})] })] }, pci := { live.pci with reqArea := wrList [] 0 b } }
/-- A read of entry 0x8000.01. -/
def readReq (ty : Nat) : List Byte := blpFrame ty 0 7 (leBytes 1 1 ++ leBytes 1 1 ++ leBytes 2 0x8000 ++ leBytes 2 0 ++ leBytes 2 0)

theorem witness_HostRequests_mailbox :
    let s := mailbox (readReq 1)
    (readMsg (readReq 1)).isSome = true ∧ (readMsg (readReq 1)).map (fun m => (readOps (m.body.length + 1) m.body).isSome) = some true
      ∧ (after (.mailboxDoorbell (readReq 1).length) s).pci.mbxState = 2 ∧ 16 < (after (.mailboxDoorbell (readReq 1).length) s).pci.rspLen
      ∧ (after (.mailboxDoorbell 8) s).pci.rspLen = 0 ∧ (after (.mailboxDoorbell 0) s).pci.mbxOverrun = true
      ∧ (after (.mailboxDoorbell (readReq 2).length) (mailbox (readReq 2))).pci.rspLen = 0
      ∧ (after (.mailboxAck 1) (after (.mailboxDoorbell 8) s)).pci.mbxState = 0 ∧ after (.mailboxAck 1) s = s
      ∧ (after (.mailboxDoorbell 8) { s with pci := { s.pci with ready := false } }).pci.mbxState = 1 := by decide +kernel

theorem witness_HostRequests_pages :
    reply (after (.allocClassXPages .mailbox 2) host) = some 0 ∧ reply (after (.allocClassXPages .mailbox 0) host) = some 3
      ∧ reply (after (.allocClassXPages .mailbox 300000) host) = some 9 ∧ code (after (.allocClassXPages .mailbox 300000) host) = fltAdmitPool
      ∧ (bar2 ram).ownerHolds .mailbox 9 = true ∧ reply (after (.freeClassXPages .mailbox 9) (bar2 ram)) = some 0
      ∧ reply (after (.freeClassXPages .mailbox 8) (bar2 ram)) = some 3 ∧ (after (.warmReset .mailbox) (bar2 ram)).boot.cause = 2
      ∧ reply (after (.warmReset .udp) { ram with od := { ram.od with values := [(odKeyNat 0x7010 2, some [0x1D#8])] } }) = some 2 := by decide +kernel

/-! ### The object dictionary and its routes -/

/-- Session 0 of the mailbox, with the transaction `t`. -/
def opened (x : OdSession) (t : Option Txn) (vals : List (Nat × Option (List Byte))) : State := { host with
  od := { values := vals, routes := [(0, { txn := t, sessions := [(0, some x)] })] } }
def mb : OdFrom := ⟨.mailbox, 0⟩
def txn0 (g : List Staged) : Option Txn := some { session := 0, staged := g }
def pulse : OdKey := ⟨0x8000, 1⟩
def pulseKey : Nat := odKeyNat 0x8000 1

theorem witness_DictionaryOperations_txn :
    let s := opened {} none []
    s.sessionOpen mb = true ∧ s.sessionOpen ⟨.mailbox, 1⟩ = false ∧ ((after (.odxBegin ⟨.mailbox, 1⟩) s).odRoute 0).bad = 1
      ∧ ((after (.odxBegin mb) s).odRoute 0).txn = txn0 [] ∧ reply (after (.odxBegin mb) (opened {} (txn0 []) [])) = some 7
      ∧ reply (after (.odxCommit mb) s) = some 6 ∧ reply (after (.odxRollback mb) s) = some 6 ∧ ((after (.odxRollback mb) (opened {} (txn0 []) [])).odRoute 0).txn = none
      ∧ reply (after (.odxBegin mb) (opened { report := true } none [])) = some 13 ∧ reply (after (.odxCommit mb) (opened {} (txn0 []) [])) = some 0
      ∧ reply (after (.odxCommit mb) (opened {} (txn0 [⟨pulseKey, leBytes 2 20, 1⟩]) [])) = some 8 := by decide +kernel

theorem witness_DictionaryOperations_commit :
    let s := opened {} (txn0 [⟨pulseKey, leBytes 2 20, 0⟩]) []
    s.odVal 0x8000 1 ≠ leBytes 2 20 ∧ s.pair.mode = 0 ∧ (after (.odxCommit mb) s).odVal 0x8000 1 = leBytes 2 20 ∧ tget 0 (after (.odxCommit mb) s).od.stamps pulseKey = 1
      ∧ reply (after (.odxRead mb pulse) s) = some 0 ∧ (after (.odxRead mb pulse) s).out.head? = some (.odReply .mailbox 0 0 (leBytes 2 20)) := by decide +kernel

theorem witness_DictionaryOperations_write :
    let s := opened {} (txn0 []) []
    ((after (.odxWrite mb pulse (leBytes 2 20)) s).odRoute 0).txn = txn0 [⟨pulseKey, leBytes 2 20, 0⟩]
      ∧ reply (after (.odxWrite mb pulse (leBytes 4 20)) s) = some 4 ∧ reply (after (.odxWrite mb pulse (leBytes 2 20)) (opened {} none [])) = some 6
      ∧ reply (after (.odxWrite mb pulse (leBytes 2 60000)) s) = some 3 ∧ reply (after (.odxWrite mb ⟨0x8000, 0⟩ [0#8]) s) = some 2
      ∧ reply (after (.odxRead mb ⟨0x0001, 1⟩) s) = some 1 ∧ (s.odEnt 0x8000 1).isSome = true ∧ s.odEnt 0x0001 1 = none
      ∧ reply (after (.odxRead mb pulse) (opened {} none [(odKeyNat 0x7010 1, some [0x1E#8])])) = some 2 ∧ reply (after (.odxInfo mb pulse) s) = some 0
      ∧ reply (after (.odxWrite mb pulse (leBytes 2 20)) (opened {} (txn0 []) [(odKeyNat 0x7010 1, some [0x1D#8])])) = some 2 := by decide +kernel

theorem witness_DictionaryOperations_levels :
    let s := opened { challenge := 77, seen := some 77 } (txn0 []) []
    (s.odEnt 0x1020 1).map (·.lvl) = some 1 ∧ reply (after (.odxWrite mb ⟨0x1020, 1⟩ (leBytes 2 2000)) s) = some 5
      ∧ reply (after (.odxWrite mb ⟨0x1020, 1⟩ (leBytes 2 2000)) (after (.expertUnlock mb 77) s)) = some 0 ∧ reply (after (.expertUnlock mb 77) s) = some 0 ∧ reply (after (.expertUnlock mb 78) s) = some 2
      ∧ (after (.odxRead mb ⟨0xA010, 1⟩) s).out.head? = some (.odReply .mailbox 0 0 (leBytes 4 77))
      ∧ code (after (.transactionExpiry .mailbox) s) = evtOdxRollback ∧ ((after (.transactionExpiry .mailbox) s).session mb).map (·.report) = some true
      ∧ after (.transactionExpiry .mailbox) (opened {} none []) = opened {} none [] := by decide +kernel

/-- UDP sessions with the given numbers are open. -/
def udp (x : OdSession) (ns : List Nat) : State := { host with od := { routes := [(1, { sessions := ns.map (fun n => (n, some x)) })] } }
def readOn (session : Nat) : List Byte := blpFrame 1 session 7 (leBytes 1 1 ++ leBytes 1 1 ++ leBytes 2 0x8000 ++ leBytes 2 0 ++ leBytes 2 0)

theorem witness_ManagementRoutes_sessions :
    ((after .blpOpen (udp {} [1, 3])).session ⟨.udp, 2⟩).isSome = true ∧ (after .blpOpen (udp {} (upto 1 16))).out = [.blpReply 0 (blpFrame 4 0 0 (leBytes 4 14))]
      ∧ (after (.blpClose 3) (udp {} [1, 3])).session ⟨.udp, 3⟩ = none ∧ ((after (.blpClose 2) (udp {} [1, 3])).odRoute 1).bad = 1
      ∧ (after (.sessionTimeout .udp 3) (udp {} [1, 3])).session ⟨.udp, 3⟩ = none ∧ after (.sessionTimeout .udp 2) (udp {} [1, 3]) = udp {} [1, 3]
      ∧ code (after (.sessionTimeout .udp 3) { udp {} [] with od := { routes := [(1, { txn := some { session := 3 }, sessions := [(3, some {})] })] } }) = evtOdxRollback := by decide +kernel

theorem witness_ManagementRoutes_udp :
    (readMsg (readOn 3)).isSome = true ∧ (after (.blpUdpRequest ⟨0, readOn 3⟩) (udp {} [3])).out.length = 1 ∧ ((after (.blpUdpRequest ⟨0, readOn 2⟩) (udp {} [3])).odRoute 1).bad = 1
      ∧ (after (.blpUdpRequest ⟨0, readOn 3⟩) (udp { lastTag := some 7, lastReply := [1#8] } [3])).out = [.blpReply 3 [1#8]]
      ∧ ((after (.blpUdpRequest ⟨0, [1#8]⟩) (udp {} [3])).odRoute 1).bad = 1
      ∧ ((after (.blpUdpRequest ⟨0, blpFrame 1 3 8 [9#8]⟩) (udp {} [3])).odRoute 1).bad = 1 := by decide +kernel

def can (m : Option (Nat × List Byte)) : State := { host with od := { canMsg := m } }
theorem witness_ManagementRoutes_can :
    (after (.canFrame [0x80#8, 1#8] false) (can none)).od.canMsg = some (1, [1#8]) ∧ (after (.canFrame [0x01#8, 2#8] false) (can (some (1, [1#8])))).od.canMsg = some (2, [1#8, 2#8])
      ∧ ((after (.canFrame [0x02#8, 2#8] false) (can (some (1, [1#8])))).od.canMsg, ((after (.canFrame [0x02#8, 2#8] false) (can (some (1, [1#8])))).odRoute 2).bad) = (none, 1)
      ∧ ((after (.canFrame [0x80#8, 9#8] false) (can (some (1, [1#8])))).odRoute 2).bad = 1 ∧ ((after (.canFrame [0x01#8] false) (can none)).odRoute 2).bad = 1
      ∧ (after (.canFrame [0x41#8, 2#8] false) (can (some (1, [1#8])))).od.canMsg = none ∧ (after .canSegmentTimeout (can (some (1, [])))).od.canMsg = none
      ∧ after .canSegmentTimeout (can none) = can none ∧ ((after (.canFrame (0xC0#8 :: readOn 1) false) (can none)).session ⟨.can, 1⟩).isSome = true
      ∧ 1 ≤ (after (.canFrame (0xC0#8 :: readOn 1) false) (can none)).out.length ∧ after .canBusOff (can none) = can none
      ∧ ((after (.canFrame [0xC0#8] true) (can none)).odRoute 2).bad = 1 := by decide +kernel

/-! ### The Keeper and the boot -/

/-- A container of kind 1, svn 3, with an 8 B payload; its signer is key 0. -/
def ctr (kind svn : Nat) (p : List Byte) : Container := ⟨true, 1, kind, 0, 1, svn, p.length, sha512 p, [1#8], [], [], p⟩
def keeper (k : Kpr) : State := { host with kpr := k, fuses := { host.fuses with vendorHash := [keyHash [1#8]] } }
def locked : State := { keeper {} with fuses := { (keeper {}).fuses with ownerLock := true } }
def refusing : State := { host with od := { host.od with values := [(odKeyNat 0x7010 2, some [0#8])] } }

theorem witness_KeeperRequests_permission :
    refusing.permits .udp 1 = false ∧ refusing.permits .udp 4 = false ∧ reply (after (.attestationRequest .udp (copies 32 0#8)) refusing) = some 2
      ∧ reply (after (.ownerKeyBurn .udp 0 (copies 32 0#8) true) refusing) = some 2 ∧ reply (after (.svnAdvance .udp 1 true) refusing) = some 2
      ∧ reply (after (.journalSelect .udp 1) refusing) = some 2 ∧ reply (after (.configErase .udp) refusing) = some 2 := by decide +kernel

/-- The signature is the device's own secret: a report's state is named by what it leaves otherwise. -/
theorem witness_KeeperRequests_attest :
    (keeper {}).permits .cantle 1 = true ∧ reply (after (.attestationRequest .cantle [1#8]) (keeper {})) = some 4
      ∧ code (after (.attestationRequest .cantle (copies 32 7#8)) (keeper { reports := [(3, 10)] })) = fltKprBusy
      ∧ (after (.attestationRequest .cantle (copies 32 7#8)) (keeper {})).kpr.signed = 1
      ∧ tget 0 (after (.attestationRequest .cantle (copies 32 7#8)) (keeper {})).kpr.reports 3 = 1 ∧ OdRoute.num .cantle = 3 := by decide +kernel

theorem witness_KeeperRequests_fuses :
    tget none (after (.ownerKeyBurn .cantle 1 (copies 32 7#8) true) (keeper {})).fuses.ownerHash 1 = some (keyHash (copies 32 7#8))
      ∧ reply (after (.ownerKeyBurn .cantle 1 (copies 32 7#8) true) locked) = some 2 ∧ reply (after (.ownerKeyBurn .cantle 4 (copies 32 7#8) true) (keeper {})) = some 2
      ∧ reply (after (.ownerKeyBurn .cantle 1 [7#8] true) (keeper {})) = some 4 ∧ (after (.ownerFuseSet .cantle .ownerLock true) (keeper {})).fuses.ownerLock = true
      ∧ (after (.ownerFuseSet .cantle (.revocation 2) true) (keeper {})).fuses.ownerRevoked = 2 ∧ reply (after (.ownerFuseSet .cantle .imagesRequired false) locked) = some 9
      ∧ (after (.ownerFuseSet .cantle .imagesRequired false) locked).fuses.ownerLock = true ∧ reply (after (.ownerKeyBurn .cantle 1 (copies 32 7#8) false) (keeper {})) = some 9 := by decide +kernel

def booted (c : Option Container) (stage : Nat) : State :=
  { keeper {} with flash := { (keeper {}).flash with slots := tset none [] 2 c }, boot := { (keeper {}).boot with stage := stage } }
theorem witness_KeeperRequests_svn :
    reply (after (.svnAdvance .cantle 0 true) (keeper {})) = some 3 ∧ code (after (.svnAdvance .cantle 1 true) (keeper {})) = fltBootVerify
      ∧ tget 0 (after (.svnAdvance .cantle 1 true) (booted (some (ctr 1 3 [5#8])) 9)).fuses.svn 1 = 3
      ∧ (after (.journalSelect .cantle 4) (keeper {})).kpr.jpos = 4 ∧ reply (after (.stageCountReset .cantle 10) (keeper {})) = some 3
      ∧ (after (.stageCountReset .cantle 5) (keeper {})).flash.journal.length = 1
      ∧ (after (.configSave .cantle) { keeper {} with od := { values := [(pulseKey, some [1#8, 0#8])] } }).flash.stored = some [(pulseKey, [1#8, 0#8])]
      ∧ (after (.configErase .cantle) { keeper {} with flash := { stored := some [] } }).flash.stored = none := by decide +kernel

/-- Which signatures verify is the environment's to tell: the container is good exactly where its signature is. -/
theorem witness_KeeperRequests_container (h : Config.verify [1#8] [] [] = true) :
    (keeper { updTarget := 17 }).containerOk (ctr 1 3 [5#8]) 1 = true ∧ (keeper {}).containerOk (ctr 5 0 [2#8]) 5 = true := by
  have e0 : (keeper {}).fuses.vendorOk 0 [1#8] = true := by decide +kernel
  have e : ∀ k : Kpr, (keeper k).fuses.vendorOk 0 [1#8] = true := fun _ => e0
  constructor <;> simp [State.containerOk, ctr, h, e, slotBytes]

theorem witness_KeeperRequests_update :
    (keeper { updTarget := 17 }).containerOk (ctr 2 3 [5#8]) 1 = false ∧ code (after (.firmwareUpdate .cantle (ctr 2 3 [5#8])) (keeper { updTarget := 17 })) = fltBootVerify
      ∧ bits 17 4 4 = 1 ∧ tget 0 (keeper {}).boot.from2 1 ≠ 1 ∧ tget 0 (keeper {}).fuses.svn 1 ≤ (ctr 1 3 [5#8]).svn
      ∧ (tget none (after .firmwareUpdateDone (keeper { updTarget := 17, updState := 1, updData := some (ctr 1 3 [5#8]) })).flash.slots 3).isSome = true
      ∧ after .firmwareUpdateDone (keeper {}) = keeper {} ∧ code (after (.revocationContainer .cantle (ctr 1 3 [2#8]) true) (keeper {})) = fltBootVerify := by decide +kernel

def resp : DebugResp := ⟨1, [1#8], [], 4⟩
theorem witness_KeeperRequests_debug :
    (after (.debugChallengeRequest 1 3) (keeper {})).kpr.chalRoute = some 1 ∧ after (.debugChallengeRequest 4 3) (keeper {}) = keeper {}
      ∧ code (after (.debugChallengeRequest 1 3) (keeper { lockout := true })) = fltKprUnlock ∧ code (after (.debugResponse resp) (keeper { lockout := true })) = fltKprUnlock
      ∧ (keeper {}).responseOk resp = false ∧ (after (.debugResponse resp) (keeper {})).kpr.rejects = 1 ∧ (after (.debugResponse resp) (keeper { rejects := 2 })).kpr.lockout = true
      ∧ (after .unlockLockoutEnd (keeper { lockout := true })).kpr.lockout = false := by decide +kernel

theorem witness_KeeperRequests_granted (h : Config.verify [1#8] [] [] = true) : (keeper { chalRoute := some 1 }).responseOk resp = true := by
  have e : (keeper { chalRoute := some 1 }).fuses.vendorOk 0 [1#8] = true := by decide +kernel
  have b : bit resp.keyByte 2 = true := by decide
  simp only [State.responseOk, b]
  simp [resp, h, keeper, bit] at e ⊢
  exact e

/-- A boot in stage `n`; its internal domains run from stage 2 on. -/
def staged (n : Nat) (b : Boot) : State := { live with boot := { b with stage := n, booting := true }, pci := {}, pair := {} }
def passed : StageResult := ⟨true, true, true, true, true, 0, true, true, 0⟩
def stageOf (s : State) : Nat := s.boot.stage

theorem witness_BootSequence_resets :
    (stageOf (after .powerOn State.reset), (after .powerOn State.reset).boot.booting, (after .powerOn State.reset).boot.cause) = (1, true, 0)
      ∧ (after .powerOn { live with boot := { live.boot with testEn := true } }).boot.booting = false
      ∧ (after .resetNAssert live).boot.cause = 1 ∧ (after .resetNAssert { live with clk := { live.clk with refLost := true, running := false } }).boot.cause = 6
      ∧ (after .resetNAssert { live with boot := { live.boot with thermalHold := true } }).boot.booting = false ∧ (after .railBrownout live).boot.railsOk = false
      ∧ after .bootRetry live = live ∧ (after .bootRetry { live with boot := { live.boot with halted := true } }).boot.retry = true
      ∧ after (.stageWatchdog 1) live = live ∧ after (.bootStagePass passed) live = live := by decide +kernel

theorem witness_BootSequence_failures :
    (staged 3 {}).up = true ∧ (stageOf (after (.stageWatchdog 1) (staged 3 {})), (after (.stageWatchdog 1) (staged 3 {})).boot.cause) = (1, 3)
      ∧ tget 0 (after (.bootStagePass { passed with workOk := false }) (staged 3 {})).boot.counts 3 = 1
      ∧ tget false (after (.stageWatchdog 1) (staged 3 { counts := [(3, 2)] })).boot.latched 3 = true
      ∧ (after (.stageWatchdog 1) (staged 3 { alt := [(3, true)], altFails := [(3, 2)] })).boot.halted = true
      ∧ code (after (.stageWatchdog 1) (staged 3 { alt := [(3, true)], altFails := [(3, 2)] })) = fltBootHalt
      ∧ (after (.bootStagePass { passed with workOk := false }) (staged 1 {})).boot.halted = true := by decide +kernel

theorem witness_BootSequence_passes :
    stageOf (after (.bootStagePass passed) (staged 1 {})) = 2 ∧ (staged 2 {}).slotVerifies 1 0 true = 0 ∧ stageOf (after (.bootStagePass passed) (staged 2 {})) = 3
      ∧ (staged 5 {}).slotVerifies 2 0 false = fltBootVerify ∧ tget 0 (after (.bootStagePass { passed with slotAOk := false }) (staged 5 {})).boot.from2 2 = 1
      ∧ (after (.bootStagePass { passed with slotAOk := false, slotBOk := false }) (staged 7 {})).boot.cause = 3
      ∧ stageOf (after (.bootStagePass passed) (staged 3 {})) = 4 ∧ ((after (.bootStagePass passed) (staged 4 {})).chan 63).st = .active
      ∧ (after (.bootStagePass { passed with trainedDie1 := false }) (staged 4 { alt := [(4, true)] })).mem.lostDie = some 1
      ∧ stageOf (after (.bootStagePass passed) (staged 6 {})) = 7 ∧ (after (.bootStagePass passed) (staged 7 { latched := [(8, true)] })).boot.skipped8 = true
      ∧ (after (.bootStagePass passed) (staged 8 {})).ready = true := by decide +kernel

theorem witness_BootSequence_stage1_waits :
    let s := { staged 1 {} with clk := { running := true } }
    s.clk.pllLock = false ∧ s.pci.mbxState ≠ 1 ∧ after (.bootStagePass passed) s = s := by decide +kernel

/-! ### Well-formed commands and the words of the table -/

def refused (cs : List Instr) : Bool := cs.all (fun c => !c.wf)
def accepted (cs : List Instr) : Bool := cs.all Instr.wf
def sf : ScalarFields := ⟨rrWord 0 5 1 2, false⟩

theorem test_wf_slot :
    refused [.jitterDeadline 256 0, .policerWindowEnd 256 0, .rtspResponse 256 ⟨true, none, [], none, none, none⟩, .rtspKeepalive ⟨256, 0⟩, .streamTimeout ⟨256, 0, 0⟩, .rtspRetry ⟨256, 0⟩, .rtcpReceiverReport 256,
      .rtcpSenderReport 256 0 0 [], .fusionSetTimeout ⟨256, 0, 0, 0⟩, .decodeAbandon 256 0, .clipRequest { ask 0 0 with slot := 256 }, .snapshotRequest { ask 0 0 with slot := 256 }, .steeringBuild 256 false,
      .trackingPredict 256 false, .trackingEmbeddingsReady 256 [], .trackingAssignmentReady 256, .gallerySearchComplete 256 0 [], .narrationRequest { ask0 with slot := 256 },
      .lockstepChainValue 256 0 [] [], .leaderForcedEntries 256 0 [], .plannedHandover [3, 256]] = true
    ∧ accepted [.jitterDeadline 255 0, .rtspKeepalive ⟨255, 0⟩, .fusionSetTimeout ⟨255, 0, 0, 0⟩, .clipRequest { ask 0 0 with slot := 255 }, .plannedHandover [0, 255]] = true := by decide +kernel

theorem test_wf_words :
    refused [.registerWrite .bar0 0 4 (2 ^ 32), .registerWrite .bar0 0x4000000 4 0, .lowWordRead .bar0 0x4000000 4, .highWordRead .bar0 0x4000000 4, .pushTailWrite (2 ^ 32),
      .pushCtrlWrite (2 ^ 32), .pushDescriptorRead (copies 31 0#8), .evtLineCtrlWrite 0 (2 ^ 32), .evtLineFilterWrite (2 ^ 32), .evtLineMaxactWrite 0 (2 ^ 32), .skiverSubmit .bar0 (2 ^ 32),
      .hostSignal .bar0 (2 ^ 32), .stcSubmit .bar0 (2 ^ 32), .ringTailWrite 0 (2 ^ 32), .ringCtrlWrite 0 (2 ^ 32), .ringTailWrite 64 0, .ringCtrlWrite 64 0, .allocPage .bar0 (2 ^ 32),
      .freePage .bar0 (2 ^ 32), .fbGet .bar0 (2 ^ 32), .fbTake .bar0 (2 ^ 32), .fbDrop .bar0 (2 ^ 32), .fbTakeEv .bar0 (2 ^ 32), .fbDropEv .bar0 (2 ^ 32), .tkpIllegalCommand .bar0 (2 ^ 32),
      .mailboxDoorbell (2 ^ 32), .mailboxAck (2 ^ 32)] = true
    ∧ accepted [.registerWrite .bar0 0x3FFFFFC 4 (2 ^ 32 - 1), .pushDescriptorRead (copies 32 0#8), .ringTailWrite 63 0, .fbDrop .bar0 (2 ^ 32 - 1)] = true := by decide +kernel

theorem test_wf_core :
    ([Instr.lds, .strm, .ostr, .odrn, .oclr, .nrw, .nrwf, .lutl, .dld, .ags, .tnx, .agd, .trd, .dmaIssue, .instructionFill, .bk, .nop, .endProgram, .breakpoint, .sig, .sigr, .wait, .waitr, .dec,
      .read, .wfa, .wset, .wrd].all (fun f => !(f 2048 0).wf && (f 2047 0).wf)) = true
    ∧ refused [.scalarAlu 2048 .add sf, .scalarMuldiv 2048 .mul sf, .scalarLoadStore 2048 (.store 1) sf noErrors, .branch 2048 0 0 0 .always 0 0,
      .branch 0 32 0 0 .always 0 0, .branch 0 0 32 0 .always 0 0, .branch 0 0 0 32 .always 0 0, .csrRead 2048 0 0 0, .csrRead 0 32 0 0, .csrRead 0 0 (2 ^ 32) 0, .vectorInt 2048 .add (vf 0x10 0),
      .vectorInt 0 .add { vf 0x10 0 with ty2 := 16 }, .vectorFloat 2048 .add (vf 0x10 0), .vectorCompare 2048 .eq (vf 0x10 0), .vectorReduction 2048 .add (vf 0x10 0), .vectorConversion 2048 (vf 0x10 0),
      .vectorPermute 2048 .permute (vf 0x10 0), .vectorLoadStore 2048 true (vf 0x10 0) 0 0, .engineQueueAdvance 2048 .array, .signalSend 2048, .syncIncrementArrival 2048 0 0, .syncIncrementArrival 0 48 0,
      .corePark 2048 0] = true
    ∧ accepted [.scalarAlu 2047 .add sf, .vectorInt 0 .add (vf 0x10 0), .syncIncrementArrival 2047 47 0, .csrRead 0 31 255 0] = true := by decide +kernel

theorem test_wf_units :
    refused [.evtInEdge 16 0 true, .evtInFilterAccept 16 0, .evtInStuck 16 0, .evtInStuckClear 16 0, .evtInBudgetRefill 16 0, .evtOutSet 8, .evtOutClear 8, .evtOutPulse 8 1, .evtOutPulseEnd 8,
      .decodePictureStart 12 0 hdr false, .decodeYield 12 0, .decodeSaveDone 12 0, .decodeRestoreDone 12 0, .encodeStart 2 0, .encodeSaveDone 2 0, .encodeRestoreDone 2 0, .snapshotComplete 2 0 false false,
      .skiverJobStart 8 false, .skiverJobComplete 8 0, .dmaDescriptorStart 128 0 ⟨noErrors, [], []⟩, .dmaDescriptorStart 0 2 ⟨noErrors, [], []⟩, .dmaDescriptorComplete 128 0 0, .dmaDescriptorComplete 0 2 0,
      .ifillBlockLanded 128, .descheduleThreshold 64, .contextEnd 64, .awlJobStart 128 ⟨noErrors, [], []⟩, .awlJobComplete 128, .stitcherCallStart 4, .stitcherCallComplete 4 0, .narrationCancel 65536,
      .narratorEmbedComplete 65536, .msixModerationTimer 64, .collectorDatagramTimer 16, .deliveryAck 16 0 0, .collectorAckTimeout 16] = true
    ∧ accepted [.evtInEdge 15 0 true, .evtOutSet 7, .decodeYield 11 0, .encodeStart 1 0, .skiverJobComplete 7 0, .dmaDescriptorStart 127 1 ⟨noErrors, [], []⟩, .stitcherCallStart 3, .deliveryAck 15 0 0] = true := by
  decide +kernel

theorem test_wf_services :
    refused [.requestUrgencyRise 44 0, .refreshDue 64 0 false, .refreshDue 0 32 false, .channelRetrain 64 0, .retrainComplete 64 true, .mergeEntryTimeout 64 0 noErrors, .mergeEntryTimeout 0 1 noErrors,
      .mergeEntryTimeout 0 (2 ^ 34) noErrors, .quarantineCopyComplete 64 0, .quarantineCopyComplete 0 64, .pageZeroingComplete 262144, .contextDestroy .cantle 64, .captureRelease .cantle 64,
      .captureRetainExpiry 64, .sliceExpiry 64, .preemptTimeout 64, .contextSwitchStart 64, .contextSwitchComplete 64 false, .shedStepEntry 0 0, .shedStepEntry 7 0, .shedStepExit 0 0,
      .stirrupWriteFrame ⟨2 ^ 32, 0, 0, []⟩, .stirrupIncrementFrame ⟨0, 2 ^ 32, 0, []⟩, .stirrupMirrorFrame ⟨0, 0, 2 ^ 32, []⟩ .full, .stirrupControlFrame ⟨2 ^ 32, 0, 0, []⟩ .parkAck,
      .stirrupIdleFrame ⟨0, 0, 0, copies 4097 0#8⟩, .linkTrained [] true, .bar2Write ⟨2 ^ 34, [], false, false⟩, .msixUnmask true false [256], .readCompletion 512 .success 0 [],
      .completionTimeout 512, .rtpPacketArrival 0 { pkt with port := 3 }, .rtpPacketArrival 0 { pkt with seq := 65536 }] = true
    ∧ accepted [.requestUrgencyRise 43 0, .mergeEntryTimeout 0 64 noErrors, .shedStepEntry 6 0, .linkTrained (copies 64 0#8) true, .rtpPacketArrival 0 pkt] = true := by decide +kernel

theorem test_wf_requests :
    refused [.odxRead ⟨.udp, 65536⟩ pulse, .odxRead mb ⟨65536, 0⟩, .odxRead mb ⟨0, 256⟩, .odxWrite mb ⟨65536, 0⟩ [], .odxInfo mb ⟨0, 256⟩, .odxBegin ⟨.udp, 65536⟩, .odxCommit ⟨.udp, 65536⟩,
      .odxRollback ⟨.udp, 65536⟩, .blpClose 65536, .sessionTimeout .udp 65536, .expertUnlock ⟨.udp, 65536⟩ 0, .expertUnlock mb (2 ^ 32), .attestationRequest .cantle [], .debugChallengeRequest 4 0,
      .debugChallengeRequest 0 32, .debugResponse resp, .ownerKeyBurn .cantle 4 (copies 32 0#8) true, .ownerKeyBurn .cantle 0 [] true, .svnAdvance .cantle 0 true, .svnAdvance .cantle 4 true,
      .stageCountReset .cantle 0, .stageCountReset .cantle 10] = true
    ∧ accepted [.odxRead mb pulse, .debugChallengeRequest 3 31, .debugResponse ⟨3, copies 32 0#8, copies 64 0#8, 0⟩, .svnAdvance .cantle 3 true, .stageCountReset .cantle 9] = true := by decide +kernel

/-- No row of the table gives bits: no word spells a command, and a placed word leaves the state as it is. -/
theorem test_table_words : decodeTableWord 0 0 = none ∧ decodeTableWord 64 0x24 = none ∧ live.withFetchWord 64 1 = live := by decide +kernel

end Sys2Proof.Tests
end

