-- ==== Sys2Proof/Proofs/HeadUnitFate.lean ====
section
/-! PROOFS. The fate of a head unit (R58 to R62, R77, R78, R81): the supported forms, the order of the checks before a
decode, and what a decoded picture does to the slot's refresh state. -/
namespace Sys2Proof.Machine
open Sys2Proof

/-! ### The tables of supported forms (R58 to R61) -/

theorem formSupported_h265_iff (f : H265Form) :
    formSupported (.h265 f) = true ↔ (f.profile = .main ∨ f.profile = .main10 ∨ f.profile = .mainStill) ∧ f.level ≤ 62 := by
  simp [formSupported, or_assoc]

theorem formSupported_h264_iff (f : H264Form) :
    formSupported (.h264 f) = true ↔
      (f.profile = .constrainedBaseline ∨ f.profile = .main ∨ f.profile = .high ∨ f.profile = .high10
        ∨ (f.profile = .baseline ∧ f.fmo = false ∧ f.aso = false ∧ f.redundantSlices = false))
      ∧ f.level ≤ 62 ∧ f.fieldPicture = false ∧ f.mbaff = false := by
  obtain ⟨profile, level, fmo, aso, redundantSlices, fieldPicture, mbaff⟩ := f
  cases profile <;> simp [formSupported, and_assoc]

theorem formSupported_av1_iff (f : Av1Form) :
    formSupported (.av1 f) = true ↔ f.seqProfile = 0 ∧ f.level ≤ 63 ∧ f.largeScaleTile = false ∧ f.operatingPoint = 0 := by
  simp [formSupported, and_assoc]

theorem formSupported_jpeg_iff (f : JpegForm) :
    formSupported (.jpeg f) = true ↔
      f.process = .baseline ∧ f.precision = 8 ∧ (f.components = 1 ∨ f.components = 3) ∧ f.sampling ≠ .other := by
  simp [formSupported, and_assoc]

/-! ### The decision before the decode (R58, R62, R77, R78, R81) -/

theorem PicKind.irap_eq_false_iff (k : PicKind) :
    PicKind.irap k = false ↔ k ≠ .idr ∧ k ≠ .cra ∧ k ≠ .bla ∧ k ≠ .avKey ∧ k ≠ .jpeg := by
  cases k <;> simp [PicKind.irap]

theorem PicKind.recover_eq_none_iff (k : PicKind) : PicKind.recover k = none ↔ ∀ n, k ≠ .recovery n := by
  cases k <;> simp [PicKind.recover]

theorem PicHeader.exceeds_iff (h : PicHeader) (v : StreamCfg) :
    PicHeader.exceeds h v = true ↔ v.maxW < h.width ∨ v.maxH < h.height ∨ v.depth < h.depth ∨ v.dpb < h.dpb := by
  simp [PicHeader.exceeds, or_assoc]

theorem PicHeader.enhancement_of_layer {h : PicHeader} {f : H265Form} (hr : h.readable = true) (hf : h.form = .h265 f)
    (hl : 0 < f.layerId) : PicHeader.enhancement h = true := by
  simp [PicHeader.enhancement, hr, hf, hl]

/-- The slot waits for a refresh point, and the picture neither is one nor counts towards one (R77). -/
def SlotDecode.Withholds (d : SlotDecode) (h : PicHeader) : Prop :=
  d.waiting ≠ none ∧ d.recoverIn = none ∧ PicKind.irap h.kind = false ∧ PicKind.recover h.kind = none

theorem SlotDecode.withholds_iff (d : SlotDecode) (h : PicHeader) :
    SlotDecode.Withholds d h ↔ d.waiting ≠ none ∧ d.recoverIn = none ∧
      h.kind ≠ .idr ∧ h.kind ≠ .cra ∧ h.kind ≠ .bla ∧ h.kind ≠ .avKey ∧ h.kind ≠ .jpeg ∧ ∀ k, h.kind ≠ .recovery k := by
  simp only [SlotDecode.Withholds, PicKind.irap_eq_false_iff, PicKind.recover_eq_none_iff, and_assoc]

variable {d : SlotDecode} {u : AccessUnit} {h : PicHeader}

theorem planOf_token {c : Nat} (ht : u.token = some c) : planOf d u h = .subst c := by simp [planOf, ht]

theorem planOf_enhancement (ht : u.token = none) (he : PicHeader.enhancement h = true) : planOf d u h = .discard := by
  simp [planOf, ht, he]

theorem planOf_shed (ht : u.token = none) (hs : u.shed = 4) (hi : PicKind.irap h.kind = false) : planOf d u h = .discard := by
  simp [planOf, ht, hs, hi]

open Classical in
/-- The checks that are left to a unit which nothing discards, in their order. -/
theorem planOf_checks (ht : u.token = none) (hs : u.shed ≠ 4 ∨ PicKind.irap h.kind = true)
    (he : PicHeader.enhancement h = false) :
    planOf d u h =
      if SlotDecode.Withholds d h then .subst 6
      else if PicHeader.profileOk h u.cfg.stream = false then .subst 3
      else if PicHeader.exceeds h u.cfg.stream = true then .subst 4
      else if h.kind = .rasl then .subst 11
      else if h.missingRef = true ∧ d.prev = none then .subst 8
      else .decode := by
  have hshed : ¬ (u.shed = 4 ∧ PicKind.irap h.kind = false) := fun ⟨hfour, hnot⟩ =>
    hs.elim (absurd hfour) fun hirap => Bool.false_ne_true (hnot.symm.trans hirap)
  have hwait : (d.waiting.isSome ∧ PicKind.irap h.kind = false ∧ PicKind.recover h.kind = none ∧ d.recoverIn = none) ↔
      SlotDecode.Withholds d h := by
    rw [SlotDecode.Withholds, Option.isSome_iff_ne_none]
    exact ⟨fun ⟨hw, hi, hk, hr⟩ => ⟨hw, hr, hi, hk⟩, fun ⟨hw, hr, hi, hk⟩ => ⟨hw, hi, hk, hr⟩⟩
  simp only [planOf, ht, he, Bool.false_eq_true, if_false, Bool.not_eq_true', Option.isNone_iff_eq_none, hshed, hwait]

/-- A unit that nothing discards is substituted on account of the first check that it fails, and else decoded. -/
theorem planOf_kept (ht : u.token = none) (hs : u.shed ≠ 4 ∨ PicKind.irap h.kind = true)
    (he : PicHeader.enhancement h = false) :
    let wait := SlotDecode.Withholds d h
    let big := PicHeader.exceeds h u.cfg.stream = true
    let ok := PicHeader.profileOk h u.cfg.stream
    (wait → planOf d u h = .subst 6)
    ∧ (¬ wait → ok = false → planOf d u h = .subst 3)
    ∧ (¬ wait → ok = true → big → planOf d u h = .subst 4)
    ∧ (¬ wait → ok = true → ¬ big → h.kind = .rasl → planOf d u h = .subst 11)
    ∧ (¬ wait → ok = true → ¬ big → h.kind ≠ .rasl → h.missingRef = true → d.prev = none → planOf d u h = .subst 8)
    ∧ (¬ wait → ok = true → ¬ big → h.kind ≠ .rasl → (h.missingRef = false ∨ d.prev ≠ none) → planOf d u h = .decode) := by
  intro wait big ok
  rw [planOf_checks ht hs he]
  refine ⟨fun hw => if_pos hw, fun hw hp => ?_, fun hw hp hb => ?_, fun hw hp hb hr => ?_, fun hw hp hb hr hm hv => ?_,
    fun hw hp hb hr hm => ?_⟩
  all_goals rw [if_neg hw]
  · exact if_pos hp
  all_goals rw [if_neg (by simp [ok, hp] : ¬ ok = false)]
  · exact if_pos hb
  all_goals rw [if_neg hb]
  · exact if_pos hr
  all_goals rw [if_neg hr]
  · exact if_pos ⟨hm, hv⟩
  · refine if_neg fun ⟨hmiss, hprev⟩ => ?_
    rcases hm with hm | hm
    · exact absurd hmiss (by simp [hm])
    · exact hm hprev

/-! ### The refresh state after a decode (R77, R81) -/

theorem SlotDecode.onDecoded_irap (hi : PicKind.irap h.kind = true) :
    (d.onDecoded h).refresh = true ∧ (d.onDecoded h).waits = false ∧ (d.onDecoded h).degraded = h.missingRef
      ∧ (d.onDecoded h).dec.waiting = none := by
  simp [SlotDecode.onDecoded, hi]

/-- A count above 0 goes down by one and is no refresh point. -/
theorem SlotDecode.onDecoded_counting {k : Nat} (hi : PicKind.irap h.kind = false) (hk : d.recoverIn = some (k + 1)) :
    (d.onDecoded h).refresh = false ∧ (d.onDecoded h).dec.recoverIn = some k ∧ (d.onDecoded h).dec.waiting = d.waiting
      ∧ (d.onDecoded h).waits = d.waiting.isSome := by
  simp [SlotDecode.onDecoded, hi, hk]

theorem SlotDecode.onDecoded_counted (hi : PicKind.irap h.kind = false) (hk : d.recoverIn = some 0) :
    (d.onDecoded h).refresh = true ∧ (d.onDecoded h).dec.waiting = none ∧ (d.onDecoded h).dec.recoverIn = none := by
  simp [SlotDecode.onDecoded, hi, hk]

theorem SlotDecode.onDecoded_degraded :
    (d.onDecoded h).degraded = (h.missingRef || (!(d.onDecoded h).refresh && d.degraded)) := rfl

end Sys2Proof.Machine
end

