-- ==== Sys2Proof/Proofs/MotionField.lean ====
section
/-! PROOFS. An entry of the motion field (R86 to R88): rounding half to even, two's complement, and the entry's fields. -/
namespace Sys2Proof.Machine
open Sys2Proof

/-! ### Vectors per output interval (R87) -/

/-- The rounded quotient is within half a divisor, and even where it is half a divisor off. -/
theorem rneDiv_spec (a : Int) {b : Nat} (hb : 0 < b) :
    2 * (rneDiv a b * b - a).natAbs ≤ b ∧ (2 * (rneDiv a b * b - a).natAbs = b → rneDiv a b % 2 = 0) := by
  have hdiv : a / (b : Int) * b + a % b = a := Int.ediv_mul_add_emod a b
  have hlow : 0 ≤ a % (b : Int) := Int.emod_nonneg a (by omega)
  have hhigh : a % (b : Int) < b := Int.emod_lt_of_pos a (by omega)
  have hnext : (a / (b : Int) + 1) * b = a / b * b + b := by rw [Int.add_mul, Int.one_mul]
  simp only [rneDiv]
  split
  · omega
  · rw [hnext]
    omega

@[simp] theorem perInterval_zero (mv : Int) : perInterval mv 0 = mv := rfl

theorem perInterval_spec (mv : Int) {d : Int} (hd : d ≠ 0) :
    2 * (perInterval mv d * d - mv).natAbs ≤ d.natAbs ∧
      (2 * (perInterval mv d * d - mv).natAbs = d.natAbs → perInterval mv d % 2 = 0) := by
  have hpos : 0 < d.natAbs := Int.natAbs_pos.mpr hd
  unfold perInterval
  rw [if_neg hd]
  split
  next hneg =>
    have habs : (d.natAbs : Int) = -d := by omega
    have herr : (rneDiv (-mv) d.natAbs * d - mv).natAbs = (rneDiv (-mv) d.natAbs * d.natAbs - -mv).natAbs := by
      rw [habs, Int.mul_neg]
      omega
    rw [herr]
    exact rneDiv_spec (-mv) hpos
  next hneg =>
    have habs : (d.natAbs : Int) = d := by omega
    have hspec := rneDiv_spec mv hpos
    rwa [habs] at hspec

theorem meanMv_mem_int16 (vs : List Int) : -32768 ≤ meanMv vs ∧ meanMv vs ≤ 32767 := by
  unfold meanMv clampI
  split
  · decide
  · split
    · omega
    · split <;> omega

theorem BlockInfo.vectors_eq (b : BlockInfo) :
    BlockInfo.vectors b = b.inter.filterMap (fun u => if u.l0.isSome then u.l0 else u.l1) := by
  refine congrArg (fun f => b.inter.filterMap f) (funext fun u => ?_)
  cases u.l0 <;> rfl

/-! ### The fields of an entry (R86, R88) -/

theorem wrap_lt (w : Nat) (i : Int) : wrap w i < 2 ^ w := by
  have hpos : 0 < ((2 ^ w : Nat) : Int) := Int.natCast_pos.mpr (Nat.two_pow_pos w)
  have hhigh := Int.emod_lt_of_pos i hpos
  have hlow := Int.emod_nonneg i (Int.ne_of_gt hpos)
  unfold wrap
  omega

theorem sgn_wrap_int16 {i : Int} (hlow : -32768 ≤ i) (hhigh : i ≤ 32767) : sgn 16 (wrap 16 i) = i := by
  unfold sgn wrap
  split <;> omega

theorem b2n_le_one (b : Bool) : b2n b ≤ 1 := by cases b <;> decide

theorem b2n_eq_one_iff (b : Bool) : b2n b = 1 ↔ b = true := by cases b <;> decide

theorem bit_eq_of_mod {v i : Nat} {b : Bool} (h : v / 2 ^ i % 2 = b2n b) : bit v i = b := by
  cases b <;> simp [bit, Nat.shiftRight_eq_div_pow, h, b2n]

/-- An entry laid out from its fields: both means, intra units, residual, and the marks of change, skip and no inter unit. -/
def packEntry (x y intra res : Nat) (change skip still : Bool) : Nat :=
  x + y * 2 ^ 16 + intra * 2 ^ 32 + res * 2 ^ 40 + b2n change * 2 ^ 56 + b2n skip * 2 ^ 57 + b2n still * 2 ^ 59

section
variable {x y intra res : Nat} {change skip still : Bool}

theorem packEntry_bits (hx : x < 2 ^ 16) (hy : y < 2 ^ 16) (hi : intra ≤ 16) (hr : res ≤ 65535) :
    bits (packEntry x y intra res change skip still) 15 0 = x ∧ bits (packEntry x y intra res change skip still) 31 16 = y
      ∧ bits (packEntry x y intra res change skip still) 36 32 = intra ∧ bits (packEntry x y intra res change skip still) 39 37 = 0
      ∧ bits (packEntry x y intra res change skip still) 55 40 = res := by
  have hc := b2n_le_one change
  have hs := b2n_le_one skip
  have he := b2n_le_one still
  simp only [bits, packEntry, Nat.shiftRight_eq_div_pow]
  omega

theorem packEntry_marks (hx : x < 2 ^ 16) (hy : y < 2 ^ 16) (hi : intra ≤ 16) (hr : res ≤ 65535) :
    bit (packEntry x y intra res change skip still) 56 = change ∧ bit (packEntry x y intra res change skip still) 57 = skip
      ∧ bit (packEntry x y intra res change skip still) 58 = false ∧ bit (packEntry x y intra res change skip still) 59 = still := by
  have hc := b2n_le_one change
  have hs := b2n_le_one skip
  have he := b2n_le_one still
  have hf : b2n false = 0 := rfl
  refine ⟨bit_eq_of_mod ?_, bit_eq_of_mod ?_, bit_eq_of_mod ?_, bit_eq_of_mod ?_⟩ <;>
  · simp only [packEntry]
    omega

theorem packEntry_lt (hx : x < 2 ^ 16) (hy : y < 2 ^ 16) (hi : intra ≤ 16) (hr : res ≤ 65535) :
    packEntry x y intra res change skip still < 2 ^ 60 := by
  have hc := b2n_le_one change
  have hs := b2n_le_one skip
  have he := b2n_le_one still
  simp only [packEntry]
  omega

end

/-- The mean motion of a block of a picture of order `order`, over the components `c` of its vectors. -/
def BlockInfo.meanOf (b : BlockInfo) (order : Int) (c : MvRef → Int) : Int :=
  meanMv ((BlockInfo.vectors b).map (fun u => perInterval (c u) (u.order - order)))

/-- The change flag of a block that is not concealed (R88). -/
def BlockInfo.changed (b : BlockInfo) (v : StreamCfg) (order : Int) (noInter : Bool) : Bool :=
  !noInter && !b.skip && (decide (v.tIntra ≤ b.intra16)
    || decide (v.tMv ≤ (BlockInfo.meanOf b order (·.mvX)).natAbs + (BlockInfo.meanOf b order (·.mvY)).natAbs)
    || decide (v.tRes ≤ min (b.residual / 16) 65535))

theorem BlockInfo.changed_iff (b : BlockInfo) (v : StreamCfg) (order : Int) (noInter : Bool) :
    BlockInfo.changed b v order noInter = true ↔ noInter = false ∧ b.skip = false ∧
      (v.tIntra ≤ b.intra16 ∨ v.tMv ≤ (BlockInfo.meanOf b order (·.mvX)).natAbs + (BlockInfo.meanOf b order (·.mvY)).natAbs
        ∨ v.tRes ≤ min (b.residual / 16) 65535) := by
  simp only [BlockInfo.changed, Bool.and_eq_true, Bool.or_eq_true, Bool.not_eq_true', decide_eq_true_iff, and_assoc, or_assoc]

variable {b : BlockInfo} (v : StreamCfg) (order : Int) (noInter : Bool)

theorem blockEntry_concealed (hc : b.concealed = true) : blockEntry v order noInter b = 2 ^ 58 := by
  simp [blockEntry, hc]

theorem blockEntry_eq_packEntry (hc : b.concealed = false) :
    blockEntry v order noInter b = packEntry (wrap 16 (BlockInfo.meanOf b order (·.mvX))) (wrap 16 (BlockInfo.meanOf b order (·.mvY)))
      b.intra16 (min (b.residual / 16) 65535) (BlockInfo.changed b v order noInter) b.skip (BlockInfo.vectors b).isEmpty := by
  rw [blockEntry, hc]
  rfl

/-- Every field of an entry of a block that is not concealed. -/
theorem blockEntry_fields (hc : b.concealed = false) (hi : b.intra16 ≤ 16) :
    sgn 16 (bits (blockEntry v order noInter b) 15 0) = BlockInfo.meanOf b order (·.mvX) ∧
      sgn 16 (bits (blockEntry v order noInter b) 31 16) = BlockInfo.meanOf b order (·.mvY) ∧
      bits (blockEntry v order noInter b) 36 32 = b.intra16 ∧ bits (blockEntry v order noInter b) 39 37 = 0 ∧
      bits (blockEntry v order noInter b) 55 40 = min (b.residual / 16) 65535 ∧
      bit (blockEntry v order noInter b) 57 = b.skip ∧ bit (blockEntry v order noInter b) 58 = false ∧
      bit (blockEntry v order noInter b) 59 = (BlockInfo.vectors b).isEmpty ∧ blockEntry v order noInter b < 2 ^ 60 ∧
      bit (blockEntry v order noInter b) 56 = BlockInfo.changed b v order noInter := by
  have hx := wrap_lt 16 (BlockInfo.meanOf b order (·.mvX))
  have hy := wrap_lt 16 (BlockInfo.meanOf b order (·.mvY))
  have hr : min (b.residual / 16) 65535 ≤ 65535 := Nat.min_le_right _ _
  have hsx : sgn 16 (wrap 16 (BlockInfo.meanOf b order (·.mvX))) = BlockInfo.meanOf b order (·.mvX) :=
    sgn_wrap_int16 (meanMv_mem_int16 _).1 (meanMv_mem_int16 _).2
  have hsy : sgn 16 (wrap 16 (BlockInfo.meanOf b order (·.mvY))) = BlockInfo.meanOf b order (·.mvY) :=
    sgn_wrap_int16 (meanMv_mem_int16 _).1 (meanMv_mem_int16 _).2
  rw [blockEntry_eq_packEntry v order noInter hc]
  obtain ⟨hmx, hmy, hintra, hzero, hres⟩ := packEntry_bits hx hy hi hr
  obtain ⟨hchange, hskip, hmark, hstill⟩ := packEntry_marks hx hy hi hr
  rw [hmx, hmy, hsx, hsy]
  exact ⟨rfl, rfl, hintra, hzero, hres, hskip, hmark, hstill, packEntry_lt hx hy hi hr, hchange⟩

end Sys2Proof.Machine
end

