-- ==== Sys2Proof/Proofs/DecodedPictures.lean ====
section
/-! PROOFS. The planes of a buffer (R69, R70), and the statement on decoded pictures. -/
namespace Sys2Proof.Machine
open Sys2Proof

/-! ### Padding (R69) -/

/-- A padded line holds at every place the sample of the window that is nearest. -/
theorem padLine_getElem? {α : Type} {x n len j : Nat} (z : α) {l : List α} (hn : 0 < n) (hx : x + n ≤ l.length)
    (hj : j < len) : (padLine x n len z l)[j]? = l[min (max j x) (x + n - 1)]? := by
  have hlen : ((l.drop x).take n).length = n := by simp; omega
  have hmid : ∀ i < n, ((l.drop x).take n)[i]? = l[x + i]? := fun i hi => by
    rw [List.getElem?_take_of_lt hi, List.getElem?_drop]
  have hhead : some (((l.drop x).take n).headD z) = l[x]? := by
    have h0 := hmid 0 hn
    rw [← List.head?_eq_getElem?] at h0
    rw [List.headD_eq_head?_getD, h0, Nat.add_zero, List.getElem?_eq_getElem (by omega)]
    rfl
  have hlast : some (((l.drop x).take n).getLast?.getD z) = l[x + n - 1]? := by
    rw [List.getLast?_eq_getElem?, hlen, hmid _ (by omega), ← Nat.add_sub_assoc hn, List.getElem?_eq_getElem (by omega)]
    rfl
  simp only [padLine, copies, hlen]
  rw [List.getElem?_take_of_lt hj, List.append_assoc]
  rcases Nat.lt_or_ge j x with hleft | hright
  · rw [List.getElem?_append_left (by simpa using hleft), List.getElem?_replicate_of_lt hleft, hhead]
    congr 1
    omega
  · rw [List.getElem?_append_right (by simpa using hright), List.length_replicate]
    rcases Nat.lt_or_ge (j - x) n with hin | hout
    · rw [List.getElem?_append_left (by omega), hmid _ hin]
      congr 1
      omega
    · rw [List.getElem?_append_right (by omega), hlen, List.getElem?_replicate_of_lt (by omega), hlast]
      congr 1
      omega

theorem padPlane_getD {win : Rect} {w cols rows x y : Nat} {rs : List (List Nat)} (hw : 0 < win.w) (hh : 0 < win.h)
    (hrow : ∀ r ∈ rs, r.length = w) (hright : win.x + win.w ≤ w) (hbottom : win.y + win.h ≤ rs.length)
    (hx : x < cols) (hy : y < rows) :
    ((padPlane win cols rows 0 rs).getD y []).getD x 0
      = (rs.getD (min (max y win.y) (win.y + win.h - 1)) []).getD (min (max x win.x) (win.x + win.w - 1)) 0 := by
  have hk : min (max y win.y) (win.y + win.h - 1) < rs.length := by omega
  have hline := hrow _ (List.getElem_mem hk)
  simp only [padPlane, List.getD_eq_getElem?_getD]
  rw [padLine_getElem? _ hh (by simpa using hbottom) hy, List.getElem?_map, List.getElem?_eq_getElem hk, Option.map_some,
    Option.getD_some, Option.getD_some, padLine_getElem? _ hw (by omega) hx]

/-- The chroma of a one-component image (R70). -/
theorem jpegChroma_nil (w h : Nat) : jpegChroma w h [] = List.replicate (ceilDiv w 2 * ceilDiv h 2) 128 := rfl

end Sys2Proof.Machine

namespace Sys2Proof.Proofs
open Sys2Proof Sys2Proof.Machine

/-- Settles O15: the head unit by the order of its checks, an entry by its layout, a plane by the nearest sample. -/
theorem decodedPictures : Obligations.DecodedPictures := by
  unfold Obligations.DecodedPictures
  refine ⟨⟨formSupported_h265_iff, formSupported_h264_iff, formSupported_av1_iff, formSupported_jpeg_iff, ?layers, ?shed, ?kept,
    ?refresh⟩, ?entry, perInterval_zero, fun mv _ hd => perInterval_spec mv hd, ?padding, jpegChroma_nil⟩
  case layers => exact fun d u h f ht hr hf hl => planOf_enhancement ht (PicHeader.enhancement_of_layer hr hf hl)
  case shed => exact fun d u h ht hs hi => planOf_shed ht hs hi
  case kept =>
    intro d u h hs he
    refine ⟨fun c hc => planOf_token hc, fun ht => ?_⟩
    simp only [← SlotDecode.withholds_iff, ← PicHeader.exceeds_iff]
    exact planOf_kept ht hs he
  case refresh =>
    refine fun d h => ⟨SlotDecode.onDecoded_irap, fun hi k hk => SlotDecode.onDecoded_counting hi hk,
      SlotDecode.onDecoded_counted, fun hr => ?_⟩
    simp only [SlotDecode.onDecoded_degraded, hr, Bool.not_false, Bool.true_and, Bool.or_comm]
  case entry =>
    intro v order noInter b hi
    refine ⟨blockEntry_concealed v order noInter, fun hc => ?_⟩
    simp only [← BlockInfo.vectors_eq]
    obtain ⟨hx, hy, hintra, hzero, hres, hskip, hmark, hstill, hlt, hchange⟩ := blockEntry_fields v order noInter hc hi
    exact ⟨hx, hy, hintra, hzero, hres, hskip, hmark, hstill, hlt, hchange ▸ BlockInfo.changed_iff b v order noInter⟩
  case padding => exact fun win w cols rows x y rs => padPlane_getD

end Sys2Proof.Proofs
end

