-- ==== Sys2Proof/Proofs/ArraySums.lean ====
section
/-! PROOFS. The integer sums of the matrix array (R176, R180 to R183, R201): the rounding shift, the sixteen column sums
of a row, and the contribution of a Q4B partial. -/
namespace Sys2Proof.Machine
open Sys2Proof

/-! ### The rounding shift (R201) -/

/-- The rounding shift is the rounded quotient by a power of two. -/
theorem rshiftRne_eq_rneDiv (t : Int) (n : Nat) : rshiftRne t n = rneDiv t (2 ^ n) := by
  have hpos : 0 < ((2 ^ n : Nat) : Int) := Int.natCast_pos.mpr (Nat.two_pow_pos n)
  have hrem : t - t / ((2 ^ n : Nat) : Int) * ((2 ^ n : Nat) : Int) = t % ((2 ^ n : Nat) : Int) := by
    rw [Int.emod_def, Int.mul_comm]
  simp only [rshiftRne, rneDiv, Int.fdiv_eq_ediv_of_nonneg t (Int.le_of_lt hpos), hrem]
  split <;> split <;> omega

/-- The shift is within half a step of the exact quotient, and even where it is half a step off. -/
theorem rshiftRne_spec (t : Int) (n : Nat) :
    2 * (t - rshiftRne t n * 2 ^ n) ≤ 2 ^ n ∧ -(2 ^ n : Int) ≤ 2 * (t - rshiftRne t n * 2 ^ n) ∧
      (2 * (t - rshiftRne t n * 2 ^ n) = 2 ^ n ∨ 2 * (t - rshiftRne t n * 2 ^ n) = -(2 ^ n : Int) → rshiftRne t n % 2 = 0) := by
  obtain ⟨hnear, heven⟩ := rneDiv_spec t (Nat.two_pow_pos n)
  rw [← rshiftRne_eq_rneDiv] at hnear heven
  have hcast : ((2 ^ n : Nat) : Int) = 2 ^ n := Int.natCast_pow 2 n
  rw [← hcast]
  omega

/-! ### Words of 32 bits (R182) -/

/-- A wrapped integer reads back as an int32 that is congruent to it. -/
theorem sgn_wrap_int32 (i : Int) :
    (sgn 32 (wrap 32 i) - i) % 4294967296 = 0 ∧ -2147483648 ≤ sgn 32 (wrap 32 i) ∧ sgn 32 (wrap 32 i) < 2147483648 := by
  unfold sgn wrap
  split <;> omega

/-! ### Sums in any order (R182) -/

theorem addAll_fst (xs : List Int) (b : Int) : (addAll xs b).1 = b + xs.sum := by
  rw [addAll, ← List.foldl_hom Prod.fst (g₂ := (· + ·)) (fun _ _ => rfl), List.foldl_eq_apply_foldr, ← List.sum_eq_foldr]

theorem addAll_fst_perm {xs ys : List Int} (h : xs.Perm ys) (b : Int) : (addAll xs b).1 = (addAll ys b).1 := by
  rw [addAll_fst, addAll_fst, List.sum_eq_foldr, List.sum_eq_foldr, h.foldr_eq' fun x _ y _ z => Int.add_left_comm y x z]

theorem addFloats_append_singleton (xs : List FV) (x : FV) (b : Nat) :
    addFloats (xs ++ [x]) b = fenc f32 false (fvAdd (fdec f32 (addFloats xs b)) x) := by
  rw [addFloats, List.foldl_append]
  rfl

/-! ### The column sums of a row (R176, R181) -/

theorem upto_eq_range' (a n : Nat) : upto a n = List.range' a n := by
  induction n generalizing a with
  | zero => rfl
  | succ n ih => rw [upto, ih, List.range'_succ]

variable (h : HeldOp) (fs : Nat) (xs : List Nat) (zs zt : Int)

theorem HeldOp.sumInt_fst_of_ne_q4b (hf : h.fmtT ≠ 4) (j : Nat) (b : Int) :
    (h.sumInt fs xs zs zt j b).1 =
      b + ((xs.zip (h.col j)).map (fun q => (intVal fs q.1 - zs) * (intVal h.fmtT q.2 - zt))).sum := by
  simp only [HeldOp.sumInt, if_neg hf, addAll_fst, List.zip_map_left, List.map_map]
  rfl

theorem HeldOp.sumInt_fst_of_q4b (hf : h.fmtT = 4) (j : Nat) (b : Int) :
    (h.sumInt fs xs zs zt j b).1 =
      b + q4bContrib ((xs.zip (h.col j)).map (fun q => (intVal fs q.1 - zs) * sgn 4 q.2)).sum (sgn 8 (h.exps.getD j 0) - zt) := by
  simp only [HeldOp.sumInt, if_pos hf, addAll_fst, List.sum_singleton, List.zip_map_left, List.map_map, ← List.sum_eq_foldl]
  rfl

theorem HeldOp.rowSums_int_fst (base : List Nat) :
    (h.rowSums false fs xs zs zt base).1 =
      (upto 0 16).map (fun j => wrap 32 (h.sumInt fs xs zs zt j (sgn 32 (base.getD j 0))).1) := by
  simp only [HeldOp.rowSums, Bool.false_eq_true, if_false]
  rw [← List.foldl_hom Prod.fst
      (g₂ := fun acc j => acc ++ [wrap 32 (h.sumInt fs xs zs zt j (sgn 32 (base.getD j 0))).1]) (fun _ _ => rfl),
    List.foldl_append_eq_append, List.nil_append, ← List.flatMap_def, ← List.map_eq_flatMap]

/-- Sum `j` of an integer row is the column's sum wrapped to 32 bits. -/
theorem HeldOp.rowSums_int_getElem? (base : List Nat) {j : Nat} (hj : j < 16) :
    (h.rowSums false fs xs zs zt base).1[j]? = some (wrap 32 (h.sumInt fs xs zs zt j (sgn 32 (base.getD j 0))).1) := by
  rw [HeldOp.rowSums_int_fst, upto_eq_range', List.getElem?_map, List.getElem?_range' hj, Option.map_some, Nat.one_mul, Nat.zero_add]

/-! ### The contribution of a Q4B partial (R181) -/

/-- Up to 31 places, an upward shift is exact modulo 2^32. -/
theorem q4bContrib_upward (p : Int) {d : Int} (hlow : 0 ≤ d) (hhigh : d ≤ 31) :
    (q4bContrib p d - p * 2 ^ d.toNat) % 4294967296 = 0 ∧ -2147483648 ≤ q4bContrib p d ∧ q4bContrib p d < 2147483648 := by
  have hshift : q4bContrib p d = sgn 32 (wrap 32 (p * 2 ^ d.toNat)) := by
    rw [q4bContrib, if_pos hlow, Int.min_eq_left hhigh, Int.natCast_pow, Int.cast_ofNat_Int]
  rw [hshift]
  exact sgn_wrap_int32 _

end Sys2Proof.Machine
end

