-- ==== Sys2Proof/Proofs/CanonicalNan.lean ====
section
/-! PROOFS. The one NaN that a rounded result can be (R185): a rounded value that is not NaN gives a code that is not. -/
namespace Sys2Proof.Machine
open Sys2Proof

variable {f : FFmt}

/-- In an IEEE layout, infinity is a code of the magnitude field. -/
theorem FFmt.top_lt (hf : f.ieee = true) : f.top < 2 ^ (f.ebits + f.mbits) := by
  have he := Nat.two_pow_pos f.ebits
  rw [FFmt.top, if_pos hf, Nat.pow_add]
  exact Nat.mul_lt_mul_of_pos_right (by omega) (Nat.two_pow_pos _)

/-- A code whose magnitude is at most infinity's is not NaN, whatever its sign. -/
theorem fIsNan_eq_false {c : Nat} (hf : f.ieee = true) (hc : c ≤ f.top) (neg : Bool) :
    fIsNan f (c + b2n neg * 2 ^ (f.ebits + f.mbits)) = false := by
  have hmag : (c + b2n neg * 2 ^ (f.ebits + f.mbits)) % 2 ^ (f.ebits + f.mbits) = c := by
    rw [Nat.add_mul_mod_self_right, Nat.mod_eq_of_lt (Nat.lt_of_le_of_lt hc (FFmt.top_lt hf))]
  simp only [fIsNan, fdec, hmag, hf, Bool.true_and, beq_iff_eq]
  split
  next => rfl
  next hne =>
    rw [if_neg (by omega)]
    split <;> rfl

/-- A rounded value is NaN only as the canonical NaN. -/
theorem fenc_eq_nanCode_of_fIsNan (hf : f.ieee = true) {sat : Bool} {v : FV} (hnan : fIsNan f (fenc f sat v) = true) :
    fenc f sat v = f.nanCode := by
  cases v with
  | nan => rfl
  | inf neg =>
    rw [fenc, if_pos hf, fIsNan_eq_false hf (Nat.le_refl _)] at hnan
    cases hnan
  | fin neg m e =>
    have hclamp : ∀ c, (if m = 0 then 0 else if c ≥ f.top then (if sat || !f.ieee then f.top - 1 else f.top) else c) ≤ f.top := by
      intro c
      split
      · exact Nat.zero_le _
      split
      · split <;> omega
      · omega
    simp only [fenc] at hnan
    rw [fIsNan_eq_false hf (hclamp _)] at hnan
    cases hnan

theorem f32_nanCode : f32.nanCode = 0x7FC00000 := by decide

theorem fAdd_f32_of_fIsNan {a b : Nat} (hnan : fIsNan f32 (fAdd f32 a b) = true) : fAdd f32 a b = 0x7FC00000 :=
  (fenc_eq_nanCode_of_fIsNan rfl hnan).trans f32_nanCode

theorem fMul_f32_of_fIsNan {a b : Nat} (hnan : fIsNan f32 (fMul f32 a b) = true) : fMul f32 a b = 0x7FC00000 :=
  (fenc_eq_nanCode_of_fIsNan rfl hnan).trans f32_nanCode

end Sys2Proof.Machine
end

