-- ==== Sys2Proof/Proofs/ArrayArithmetic.lean ====
section
/-! PROOFS. The legal format pairs (R177), and the statement on the array's arithmetic. -/
namespace Sys2Proof.Machine
open Sys2Proof

/-- A pair that stands in no row of the table is illegal. -/
theorem pairOf_eq_none {a b mode : Nat}
    (hrow : ¬ ((a ≤ 3 ∧ b ≤ 4) ∨ (a = 5 ∧ b ≤ 1) ∨ (a ≤ 1 ∧ b = 5) ∨ (a = 5 ∧ b = 5)
      ∨ (6 ≤ a ∧ a ≤ 7 ∧ 6 ≤ b ∧ b ≤ 7) ∨ (a = 8 ∧ b = 8) ∨ (a = 9 ∧ b = 9))) : pairOf a b mode = none := by
  simp only [pairOf, Bool.and_eq_true, Bool.or_eq_true, beq_iff_eq]
  split
  · split
    · rfl
    · rw [if_neg (by omega), if_neg (by omega)]
  · iterate 6 rw [if_neg (by omega)]

end Sys2Proof.Machine

namespace Sys2Proof.Proofs
open Sys2Proof Sys2Proof.Machine

/-- Settles O26: the sums from the column sums of a row, the NaNs from the rounding of a value, the pairs from the rows of
the table. -/
theorem arrayArithmetic : Obligations.ArrayArithmetic := by
  unfold Obligations.ArrayArithmetic
  refine ⟨⟨?int, ?q4b, fun xs ys b hp => addAll_fst_perm hp b, fun p d => q4bContrib_upward p, ?shift,
    addFloats_append_singleton, fun a b _ _ => ⟨fAdd_f32_of_fIsNan, fMul_f32_of_fIsNan⟩, ?examples⟩, ?legal, ?outside, ?mixed⟩
  case int =>
    intro h fs xs zs zt base j hf hj
    rw [h.rowSums_int_getElem? fs xs zs zt base hj, h.sumInt_fst_of_ne_q4b fs xs zs zt hf]
    rfl
  case q4b =>
    intro h fs xs zs zt base j hf hj
    rw [h.rowSums_int_getElem? fs xs zs zt base hj, h.sumInt_fst_of_q4b fs xs zs zt hf]
    rfl
  case shift =>
    intro t n
    obtain ⟨hupper, hlower, heven⟩ := rshiftRne_spec t n
    exact ⟨hupper, hlower, fun _ => heven⟩
  case examples => and_intros <;> decide
  case legal =>
    simp only [imp_and, forall_and]
    and_intros <;> decide
  case outside => exact fun a b mode _ => pairOf_eq_none (by omega)
  case mixed => exact fun a b mode _ => pairOf_eq_none (by omega)

end Sys2Proof.Proofs
end

