-- ==== Sys2Proof/Proofs/PoolingWindows.lean ====
section
/-! PROOFS. Output sizes and pooling windows (R242, R243): the floor division, and an output axis covered by the outputs
that its taps reach. -/
namespace Sys2Proof.Machine
open Sys2Proof

/-! ### The output size (R242) -/

/-- The numerator lies from the last output's step up to, and not at, the next one's. -/
theorem outSize_spec (inp p0 p1 d : Nat) {k st : Nat} (hst : 0 < st) (hk : 0 < k) :
    let n : Int := (inp : Int) + p0 + p1 - ((k - 1) * d + 1 : Nat)
    (outSize inp p0 p1 k d st - 1) * st ≤ n ∧ n < outSize inp p0 p1 k d st * st := by
  intro n
  have hpos : (0 : Int) < st := Int.natCast_pos.mpr hst
  have hkernel : ((k : Int) - 1) * d + 1 = ((k - 1) * d + 1 : Nat) := by
    rw [Int.natCast_add, Int.natCast_mul, Int.ofNat_sub hk, Int.natCast_one]
  have hsize : outSize inp p0 p1 k d st = n / st + 1 := by
    rw [outSize, hkernel, Int.fdiv_eq_ediv_of_nonneg _ (Int.le_of_lt hpos)]
  rw [hsize, Int.add_sub_cancel]
  exact ⟨Int.ediv_mul_le n (Int.ne_of_gt hpos), Int.lt_ediv_add_one_mul_self n hpos⟩

/-! ### The outputs that a tap reaches (R243) -/

theorem mem_upto_iff {a n i : Nat} : i ∈ upto a n ↔ a ≤ i ∧ i < a + n := by
  rw [upto_eq_range', List.mem_range'_1]

theorem le_fdiv_iff_mul_le {a b c : Int} (hc : 0 < c) : a ≤ Int.fdiv b c ↔ a * c ≤ b := by
  rw [Int.fdiv_eq_ediv_of_nonneg b (Int.le_of_lt hc), Int.le_ediv_iff_mul_le hc]

/-- A tap reaches the outputs whose position at the tap lies in the input. -/
theorem mem_tapRange_iff {inp pad d st out t o : Nat} (hst : 0 < st) :
    ((tapRange inp pad d st out t).1 ≤ o ∧ (o : Int) ≤ (tapRange inp pad d st out t).2) ↔
      o < out ∧ 0 ≤ ((st * o + d * t : Nat) : Int) - pad ∧ ((st * o + d * t : Nat) : Int) - pad < inp := by
  have hpos : (0 : Int) < st := Int.natCast_pos.mpr hst
  have hfirst : -Int.fdiv (-((pad : Int) - t * d)) st ≤ o ↔ 0 ≤ ((st * o + d * t : Nat) : Int) - pad := by
    have hneg : ∀ q : Int, -q ≤ o ↔ -(o : Int) ≤ q := fun q => ⟨Int.neg_le_of_neg_le, Int.neg_le_of_neg_le⟩
    rw [hneg, le_fdiv_iff_mul_le hpos]
    push_cast
    rw [Int.neg_mul, Int.mul_comm (o : Int), Int.mul_comm (t : Int)]
    omega
  have hlast : (o : Int) ≤ Int.fdiv ((inp : Int) - 1 + pad - t * d) st ↔ ((st * o + d * t : Nat) : Int) - pad < inp := by
    rw [le_fdiv_iff_mul_le hpos]
    push_cast
    rw [Int.mul_comm (o : Int), Int.mul_comm (t : Int)]
    omega
  simp only [tapRange, Int.max_le, Int.le_min, hfirst, hlast]
  omega

theorem tapRange_bounds (inp pad d st out t : Nat) :
    0 ≤ (tapRange inp pad d st out t).1 ∧ (tapRange inp pad d st out t).2 < out := by
  simp only [tapRange]
  omega

/-! ### The sort by a key -/

section
variable {α : Type} {key : α → Nat} {l : List α} {x y : α}

theorem mem_insertLe : y ∈ sortBy.insertLe key x l ↔ y = x ∨ y ∈ l := by
  induction l with
  | nil => rw [sortBy.insertLe, List.mem_cons]
  | cons z l ih =>
    rw [sortBy.insertLe]
    split
    · exact List.mem_cons
    · rw [List.mem_cons, List.mem_cons, ih, or_left_comm]

theorem pairwise_insertLe (h : l.Pairwise (fun a b => key a ≤ key b)) :
    (sortBy.insertLe key x l).Pairwise (fun a b => key a ≤ key b) := by
  induction l with
  | nil => exact List.pairwise_singleton _ _
  | cons z l ih =>
    obtain ⟨hz, hl⟩ := List.pairwise_cons.mp h
    rw [sortBy.insertLe]
    split
    next hle => exact List.pairwise_cons.mpr ⟨List.forall_mem_cons.mpr ⟨hle, fun w hw => Nat.le_trans hle (hz w hw)⟩, h⟩
    next hgt =>
      refine List.pairwise_cons.mpr ⟨fun w hw => ?_, ih hl⟩
      obtain rfl | hw := mem_insertLe.mp hw
      · exact Nat.le_of_not_le hgt
      · exact hz w hw

theorem sortBy_cons : sortBy key (x :: l) = sortBy.insertLe key x (sortBy key l) := by
  rw [sortBy]
  cases sortBy key l <;> rfl

theorem mem_sortBy : y ∈ sortBy key l ↔ y ∈ l := by
  induction l with
  | nil => exact Iff.rfl
  | cons x l ih => rw [sortBy_cons, mem_insertLe, ih, List.mem_cons]

theorem pairwise_sortBy (key : α → Nat) (l : List α) : (sortBy key l).Pairwise (fun a b => key a ≤ key b) := by
  induction l with
  | nil => exact List.Pairwise.nil
  | cons x l ih =>
    rw [sortBy_cons]
    exact pairwise_insertLe ih

end

/-! ### Ranges that cover an axis (R243) -/

/-- Ranges by rising start cover an axis where each of its positions lies in one of them: the first position that does
not would come before the start of every range that is left. -/
theorem coversFrom_iff {out : Int} {rs : List (Int × Int)} (hsorted : rs.Pairwise (fun a b => a.1 ≤ b.1))
    (hranges : ∀ r ∈ rs, r.1 ≤ r.2 ∧ r.2 < out) (nxt : Int) :
    coversFrom out rs nxt = true ↔ ∀ o, nxt ≤ o → o < out → ∃ r ∈ rs, r.1 ≤ o ∧ o ≤ r.2 := by
  induction rs generalizing nxt with
  | nil =>
    simp only [coversFrom, decide_eq_true_eq, List.not_mem_nil, false_and, exists_false]
    exact ⟨fun hend o hle hlt => by omega, fun hnone => Int.not_lt.mp (hnone nxt (Int.le_refl _))⟩
  | cons r rs ih =>
    obtain ⟨hfirst, hrest⟩ := List.pairwise_cons.mp hsorted
    obtain ⟨⟨hr, hout⟩, hranges⟩ := List.forall_mem_cons.mp hranges
    simp only [coversFrom, Bool.and_eq_true, decide_eq_true_eq, ih hrest hranges, List.mem_cons, or_and_right, exists_or, exists_eq_left]
    refine ⟨fun ⟨hstart, hcover⟩ o hle hlt => ?_, fun hcover => ⟨?_, fun o hle hlt => ?_⟩⟩
    · by_cases ho : o ≤ r.2
      · exact .inl ⟨Int.le_trans hstart hle, ho⟩
      · exact .inr (hcover o (by omega) hlt)
    · refine Int.not_lt.mp fun hgap => ?_
      obtain ⟨hin, -⟩ | ⟨q, hq, hin, -⟩ := hcover nxt (Int.le_refl _) (by omega)
      · omega
      · have hstart := hfirst q hq
        omega
    · exact (hcover o (by omega) hlt).resolve_left (by omega)

/-! ### Pooling windows (R243) -/

/-- The ranges of outputs that the taps of a pooling axis reach, by rising start. -/
def tapRanges (inp pad k d st out : Nat) : List (Int × Int) :=
  sortBy (fun r => r.1.toNat)
    (((upto 0 k).map (fun t => tapRange inp pad d st out t)).filter (fun r => decide (r.1 ≤ r.2)))

theorem emptyWindow_eq (inp pad k d st out : Nat) :
    emptyWindow inp pad k d st out = !coversFrom out (tapRanges inp pad k d st out) 0 := rfl

theorem mem_tapRanges_iff {inp pad k d st out : Nat} {r : Int × Int} :
    r ∈ tapRanges inp pad k d st out ↔ (∃ t < k, tapRange inp pad d st out t = r) ∧ r.1 ≤ r.2 := by
  simp [tapRanges, mem_sortBy, mem_upto_iff]

theorem tapRanges_bounds {inp pad k d st out : Nat} {r : Int × Int} (hr : r ∈ tapRanges inp pad k d st out) :
    0 ≤ r.1 ∧ r.1 ≤ r.2 ∧ r.2 < out := by
  obtain ⟨⟨t, -, rfl⟩, hle⟩ := mem_tapRanges_iff.mp hr
  obtain ⟨hlow, hhigh⟩ := tapRange_bounds inp pad d st out t
  exact ⟨hlow, hle, hhigh⟩

theorem pairwise_tapRanges (inp pad k d st out : Nat) :
    (tapRanges inp pad k d st out).Pairwise (fun a b => a.1 ≤ b.1) :=
  (pairwise_sortBy _ _).imp_of_mem fun {a b} ha hb hab => by
    have hlow : 0 ≤ a.1 := (tapRanges_bounds ha).1
    have hlow' : 0 ≤ b.1 := (tapRanges_bounds hb).1
    have hkey : a.1.toNat ≤ b.1.toNat := hab
    omega

/-- An output lies in one of the ranges where some tap of it reads a position of the input. -/
theorem exists_mem_tapRanges_iff {inp pad k d st out o : Nat} (hst : 0 < st) (ho : o < out) :
    (∃ r ∈ tapRanges inp pad k d st out, r.1 ≤ o ∧ (o : Int) ≤ r.2) ↔
      ∃ t < k, 0 ≤ ((st * o + d * t : Nat) : Int) - pad ∧ ((st * o + d * t : Nat) : Int) - pad < inp := by
  constructor
  · rintro ⟨r, hr, hin⟩
    obtain ⟨⟨t, ht, rfl⟩, -⟩ := mem_tapRanges_iff.mp hr
    exact ⟨t, ht, ((mem_tapRange_iff hst).mp hin).2⟩
  · rintro ⟨t, ht, hreads⟩
    have hin := (mem_tapRange_iff hst).mpr ⟨ho, hreads⟩
    exact ⟨_, mem_tapRanges_iff.mpr ⟨⟨t, ht, rfl⟩, Int.le_trans hin.1 hin.2⟩, hin⟩

/-- A pooling axis has an empty window where no tap of some output reads a position of the input. -/
theorem emptyWindow_iff {inp pad k d st out : Nat} (hst : 0 < st) :
    emptyWindow inp pad k d st out = true ↔
      ∃ o < out, ∀ t < k, ¬ (0 ≤ ((st * o + d * t : Nat) : Int) - pad ∧ ((st * o + d * t : Nat) : Int) - pad < inp) := by
  have hcovers := coversFrom_iff (pairwise_tapRanges inp pad k d st out) (fun r hr => (tapRanges_bounds hr).2) 0
  rw [emptyWindow_eq, Bool.not_eq_true', ← Bool.not_eq_true, hcovers]
  constructor
  · refine fun hgap => Classical.byContradiction fun hfull => hgap fun o hlow hhigh => ?_
    obtain ⟨o, rfl⟩ := Int.eq_ofNat_of_zero_le hlow
    have ho : o < out := Int.ofNat_lt.mp hhigh
    refine (exists_mem_tapRanges_iff hst ho).mpr (Classical.byContradiction fun hnone => ?_)
    exact hfull ⟨o, ho, fun t ht hreads => hnone ⟨t, ht, hreads⟩⟩
  · rintro ⟨o, ho, hnone⟩ hcover
    obtain ⟨t, ht, hreads⟩ :=
      (exists_mem_tapRanges_iff hst ho).mp (hcover o (Int.natCast_nonneg o) (Int.ofNat_lt.mpr ho))
    exact hnone t ht hreads

end Sys2Proof.Machine
end

