-- ==== Sys2Proof/Proofs/ShapeCheck.lean ====
section
/-! PROOFS. The shape check of layer records (R243, R244, R254): what a record that passes it says, and the order of its
details. -/
namespace Sys2Proof.Machine
open Sys2Proof

/-! ### Details 0 to 3 of a record (R243) -/

theorem ite_some_eq_none_iff {α : Type} {p : Prop} [Decidable p] {a : α} {r : Option α} :
    (if p then some a else r) = none ↔ ¬ p ∧ r = none := by
  split <;> simp [*]

variable (x : LayerSection) (l : LayerRec)

theorem LayerSection.detail_eq_some_zero_iff :
    LayerSection.detail x l = some 0 ↔
      outSize l.inH l.padTop l.padBottom l.kH l.dH l.sH ≤ 0 ∨ outSize l.inW l.padLeft l.padRight l.kW l.dW l.sW ≤ 0 := by
  simp only [LayerSection.detail]
  split
  next hempty => simp [hempty]
  next hsome =>
    refine iff_of_false (fun hzero => ?_) hsome
    (repeat' split at hzero) <;> cases hzero

theorem LayerSection.detail_le {n : Nat} (h : LayerSection.detail x l = some n) : n ≤ 3 := by
  simp only [LayerSection.detail] at h
  (repeat' split at h) <;> cases h <;> decide

theorem LayerSection.detail_eq_none_iff :
    LayerSection.detail x l = none ↔
      (0 < outSize l.inH l.padTop l.padBottom l.kH l.dH l.sH ∧ 0 < outSize l.inW l.padLeft l.padRight l.kW l.dW l.sW)
      ∧ ((l.outH : Int) = outSize l.inH l.padTop l.padBottom l.kH l.dH l.sH
        ∧ (l.outW : Int) = outSize l.inW l.padLeft l.padRight l.kW l.dW l.sW)
      ∧ (l.kind = 2 ∨ l.kind = 4 → emptyWindow l.inH l.padTop l.kH l.dH l.sH l.outH = false
        ∧ emptyWindow l.inW l.padLeft l.kW l.dW l.sW l.outW = false)
      ∧ LayerSection.describes x l = true := by
  simp only [LayerSection.detail, ite_some_eq_none_iff, not_or, not_and, Int.not_le, ne_eq, Classical.not_not, Bool.not_eq_true,
    Bool.not_eq_false, and_true, Bool.not_eq_eq_eq_not, Bool.not_true]

/-! ### Tables that have the layer's axes (R244) -/

variable {x l}

theorem TensorRec.exists_axis_of_hasAxes {r : TensorRec} {xs : List AxisSpec} (h : r.hasAxes xs = true) {y : AxisSpec}
    (hy : y ∈ xs) : ∃ a < r.nAxes, r.axis a = y := by
  simp only [TensorRec.hasAxes, Bool.and_eq_true, List.all_eq_true, List.any_eq_true, mem_upto_iff, beq_iff_eq] at h
  obtain ⟨a, ⟨-, ha⟩, haxis⟩ := h.2 y hy
  exact ⟨a, by omega, haxis⟩

/-- The input tensor that a table has for the taps carries the input's rows and columns. -/
theorem LayerRec.inputOf_axes {t : Option Nat × Option Nat} {v : Tab} {r : TensorRec} (h : l.inputOf t v = some r) :
    r ∈ v.tens.take v.nTens ∧ r.role ≠ 1 ∧ (∃ a < r.nAxes, r.axis a = l.row.input t.1)
      ∧ (∃ a < r.nAxes, r.axis a = l.col.input t.2) := by
  have hfound := List.find?_some h
  simp only [Bool.and_eq_true, Bool.or_eq_true, bne_iff_ne] at hfound
  obtain ⟨hrole, haxes⟩ := hfound
  refine ⟨List.mem_of_find?_eq_some h, hrole, ?_, ?_⟩
  all_goals
    obtain haxes | ⟨-, haxes⟩ := haxes
    all_goals exact TensorRec.exists_axis_of_hasAxes haxes (by simp)

theorem LayerAxis.taps_direct {y : LayerAxis} (h : y.s ≤ (y.k - 1) * y.d + 1) : y.taps = [none] := by
  rw [LayerAxis.taps, LayerAxis.split, decide_eq_false (Nat.not_lt.mpr h), if_neg Bool.false_ne_true]

/-- An axis of a tensor record that is the input axis of the direct form. -/
theorem TensorRec.axis_eq_direct {r : TensorRec} {a : Nat} {y : LayerAxis} (h : r.axis a = y.input none) :
    r.offset.getD a 0 = -(y.pad : Int) ∧ r.extent.getD a 0 = y.inp := by
  simp only [TensorRec.axis, LayerAxis.input, AxisSpec.mk.injEq, Int.natCast_inj] at h
  exact h.2

/-- The tables of a layer on the array exist, and each describes it for a pair of its taps. -/
theorem LayerSection.tables_of_describes (h : LayerSection.describes x l = true) (hkind : l.kind < 5) :
    ∃ vs, LayerSection.tablesOf x l = some vs ∧
      ∀ v ∈ vs, ∃ rowTap ∈ l.row.taps, ∃ colTap ∈ l.col.taps, l.describes (rowTap, colTap) v = true := by
  rw [LayerSection.describes] at h
  split at h
  next => cases h
  next vs hvs =>
    rw [if_neg (by omega)] at h
    simp only [Bool.and_eq_true, List.all_eq_true, List.any_eq_true, List.mem_flatMap, List.mem_map] at h
    refine ⟨vs, hvs, fun v hv => ?_⟩
    obtain ⟨_, ⟨a, ha, b, hb, rfl⟩, hdesc⟩ := h.1.1 v hv
    exact ⟨a, ha, b, hb, hdesc⟩

/-- In the direct form, each table of a layer on the array has a tensor with the input's rows and columns. -/
theorem LayerSection.tables_have_input (h : LayerSection.describes x l = true) (hkind : l.kind < 5) :
    ∃ vs, LayerSection.tablesOf x l = some vs ∧
      (l.sH ≤ (l.kH - 1) * l.dH + 1 → l.sW ≤ (l.kW - 1) * l.dW + 1 → ∀ v ∈ vs, ∃ r ∈ v.tens.take v.nTens, r.role ≠ 1 ∧
        (∃ a < r.nAxes, r.offset.getD a 0 = -(l.padTop : Int) ∧ r.extent.getD a 0 = l.inH) ∧
        (∃ a < r.nAxes, r.offset.getD a 0 = -(l.padLeft : Int) ∧ r.extent.getD a 0 = l.inW)) := by
  obtain ⟨vs, hvs, htaps⟩ := LayerSection.tables_of_describes h hkind
  refine ⟨vs, hvs, fun hrow hcol v hv => ?_⟩
  have hrowTaps : l.row.taps = [none] := LayerAxis.taps_direct hrow
  have hcolTaps : l.col.taps = [none] := LayerAxis.taps_direct hcol
  obtain ⟨rowTap, hrowTap, colTap, hcolTap, hdesc⟩ := htaps v hv
  rw [hrowTaps, List.mem_singleton] at hrowTap
  rw [hcolTaps, List.mem_singleton] at hcolTap
  subst hrowTap hcolTap
  simp only [LayerRec.describes, Bool.and_eq_true, Option.isSome_iff_exists] at hdesc
  obtain ⟨⟨⟨r, hr⟩, -⟩, -⟩ := hdesc
  obtain ⟨hmem, hrole, ⟨a, ha, hrowAxis⟩, ⟨b, hb, hcolAxis⟩⟩ := LayerRec.inputOf_axes hr
  exact ⟨r, hmem, hrole, ⟨a, ha, TensorRec.axis_eq_direct hrowAxis⟩, ⟨b, hb, TensorRec.axis_eq_direct hcolAxis⟩⟩

/-! ### The check over all records (R243, R254) -/

variable (x)

theorem LayerSection.shapeDetail_eq_none_iff :
    LayerSection.shapeDetail x = none ↔ (∀ l ∈ LayerSection.layers x, LayerSection.detail x l = none) ∧
      groupsOk 0 (LayerSection.layers x) = true ∧
      ∀ g ∈ groupsOf [] (LayerSection.layers x), LayerSection.haloBad x g = false := by
  rw [LayerSection.shapeDetail, ← List.findSome?_eq_none_iff]
  split
  next d hd => simp [hd]
  next hnone => simp [hnone, ite_some_eq_none_iff]

/-- A group fails the halo check where a layer of it exchanges halos and a table of it is not statically distributed. -/
theorem LayerSection.haloBad_iff (g : List LayerRec) :
    LayerSection.haloBad x g = true ↔ (∃ l ∈ g, bit l.group 4 = true) ∧
      ∃ l ∈ g, ∃ vs, LayerSection.tablesOf x l = some vs ∧ ∃ v ∈ vs, v.dist5 ≠ 0 ∨ v.dist3 ≠ 0 := by
  simp only [LayerSection.haloBad, Bool.and_eq_true, List.any_eq_true, Bool.or_eq_true, bne_iff_ne]
  refine and_congr_right fun _ => exists_congr fun l => and_congr_right fun _ => ?_
  cases LayerSection.tablesOf x l <;> simp

variable {x}

theorem LayerSection.exists_haloBad_of_shapeDetail (h : LayerSection.shapeDetail x = some 5) :
    ∃ g ∈ groupsOf [] (LayerSection.layers x), LayerSection.haloBad x g = true := by
  rw [LayerSection.shapeDetail] at h
  split at h
  next d hd =>
    obtain ⟨l, -, hl⟩ := List.exists_of_findSome?_eq_some hd
    have hle := LayerSection.detail_le x l hl
    cases h
    omega
  next =>
    split at h
    next => cases h
    next =>
      split at h
      next hany => exact List.any_eq_true.mp hany
      next => cases h

end Sys2Proof.Machine
end

