-- ==== Sys2Proof/Proofs/AwlEngine.lean ====
section
/-! PROOFS. The Awl engine (R256 to R260): a job's start, from the bell to the output, and its completion. -/
namespace Sys2Proof.Machine
open Sys2Proof

variable {s u u1 u2 : State} {cl : Nat} {e : AgentRun} {ring : AwlRing}

/-- An answer may be given as any state that it equals. -/
theorem answers_congr {c : Instr} {t : State} (h : Answers c s t) (ht : t = u) : Answers c s u := ht ▸ h

theorem answers_awlJobStart (cl : Nat) (e : AgentRun) (hup : s.up = true) :
    Answers (.awlJobStart cl e) s (s.awlStart cl e) := answers_whenUp rfl hup

theorem answers_awlJobComplete (cl : Nat) (hup : s.up = true) : Answers (.awlJobComplete cl) s (s.awlDone cl) :=
  answers_whenUp rfl hup

/-! ### The bell (R256) -/

/-- An engine that is not assigned or not resident, holds a job or was stopped takes no job. -/
theorem State.awlStart_blocked
    (h : (s.cluster cl).assigned = false ∨ (s.ctx (s.cluster cl).ctx).st ≠ .resident ∨ (s.cluster cl).awlJob.isSome = true
      ∨ (s.cluster cl).awlStopped = true) : s.awlStart cl e = s := by
  rw [State.awlStart]
  split
  next => rfl
  next =>
    rw [if_pos]
    obtain h | h | h | h := h
    · exact .inl (by rw [h]; rfl)
    · exact .inr (.inl h)
    · exact .inr (.inr (.inl h))
    · exact .inr (.inr (.inr (.inl h)))

/-- The engine of a resident context's cluster is idle, not stopped, and has this ring, of at least one slot. -/
structure State.AwlIdle (s : State) (cl : Nat) (ring : AwlRing) : Prop where
  assigned : (s.cluster cl).assigned = true
  resident : (s.ctx (s.cluster cl).ctx).st = .resident
  noJob : (s.cluster cl).awlJob = none
  runs : (s.cluster cl).awlStopped = false
  slots : 1 ≤ ring.n
  ringAt : ((s.ctx (s.cluster cl).ctx).decl.bind (fun d => d.rings[(s.ctx (s.cluster cl).ctx).relCluster cl]?)) = some ring

/-- What the bell of a ring holds. -/
def State.awlBell (s : State) (cl : Nat) (ring : AwlRing) : Nat :=
  (s.ctrGet (s.cluster cl).ctx ring.bellCore ring.bellCtr).getD 0

/-- The state once 1 of the bell and the next slot of the ring are taken. -/
def State.awlTaken (s : State) (cl : Nat) (ring : AwlRing) : State :=
  (s.ctrSet (s.cluster cl).ctx ring.bellCore ring.bellCtr (s.awlBell cl ring - 1)).modCluster cl
    (fun c => { c with awlIndex := c.awlIndex + 1 })

/-- The address of the next slot of the ring. -/
def State.awlSlot (s : State) (cl : Nat) (ring : AwlRing) : Nat :=
  clusterBase cl + (ring.off + (s.cluster cl).awlIndex % ring.n * 64)

/-- The fault of an engine for the descriptor at `a`. -/
def State.awlFault (s : State) (cl ctx a code detail : Nat) : State :=
  s.ctxFault ctx { code := code, unit := 0x1000 + cl, detail := detail, addr := a }

/-- The rest of a start once the slot at `a` is read, with `c` the engine's cluster before it (R258, R259). -/
def State.awlRun (s : State) (cl : Nat) (c : Cluster) (numCores : Nat) (e : AgentRun) (a : Nat) : State :=
  let d := readAwl (s.rdBytes a 64)
  if d.outH ≤ 0 ∨ d.outW ≤ 0 then s.awlFault cl c.ctx a fltShape 0
  else if !d.rangeOk numCores then s.awlFault cl c.ctx a fltAwlDesc 2
  else if !d.regionsOk c.pwr then s.awlFault cl c.ctx a fltAwlDesc 2
  else
    match (d.regions.take 2).foldl (fun (acc : Option (Nat × LineRes) × State) g =>
        match acc.1 with
        | some _ => acc
        | none => acc.2.readRange (dmaPort cl) 0 (clusterBase cl + g.1) g.2 e.errors) (none, s.meet e [clusterBase cl]) with
    | (some (l, r), t) => t.clusterLine cl l r
    | (none, t) =>
      ((t.store 0 (clusterBase cl + d.outOff) (d.output (fun o => t.rdByte (clusterBase cl + o)))).account c.ctx 6
        d.cycles).modCluster cl (fun c => { c with awlJob := some { desc := s.rdBytes a 64 } })

section
variable (h : s.AwlIdle cl ring)
include h

theorem State.awlStart_silent (hbell : s.awlBell cl ring = 0) : s.awlStart cl e = s := by
  simp only [State.awlStart, h.ringAt]
  exact if_pos (.inr (.inr (.inr (.inr (.inl hbell)))))

theorem State.AwlIdle.takes (hbell : 1 ≤ s.awlBell cl ring) :
    ¬ ((!(s.cluster cl).assigned) = true ∨ (s.ctx (s.cluster cl).ctx).st ≠ .resident ∨ (s.cluster cl).awlJob.isSome = true
      ∨ (s.cluster cl).awlStopped = true ∨ s.awlBell cl ring = 0 ∨ ring.n = 0) := by
  have hslots := h.slots
  simp only [h.assigned, h.resident, h.noJob, h.runs, Bool.not_true, Option.isSome_none, ne_eq, not_true_eq_false,
    Bool.false_eq_true, false_or]
  omega

theorem State.awlStart_bankOff (hbell : 1 ≤ s.awlBell cl ring)
    (hoff : (s.awlTaken cl ring).bufferOff (s.awlSlot cl ring) 64 = true) :
    s.awlStart cl e = (s.awlTaken cl ring).awlFault cl (s.cluster cl).ctx (s.awlSlot cl ring) fltCoreBankOff 0 := by
  simp only [State.awlStart, h.ringAt]
  exact (if_neg (h.takes hbell)).trans (if_pos hoff)

theorem State.awlStart_slotRead (hbell : 1 ≤ s.awlBell cl ring)
    (hon : (s.awlTaken cl ring).bufferOff (s.awlSlot cl ring) 64 = false)
    (hread : (s.awlTaken cl ring).readRange (dmaPort cl) 0 (s.awlSlot cl ring) 64 e.errors = (none, u)) :
    s.awlStart cl e = u.awlRun cl (s.cluster cl) (s.ctx (s.cluster cl).ctx).numCores e (s.awlSlot cl ring) := by
  simp only [State.awlStart, h.ringAt]
  refine (if_neg (h.takes hbell)).trans ((if_neg (Bool.not_eq_true _ ▸ hon)).trans ?_)
  simp only [State.awlTaken, State.awlSlot, State.awlBell] at hread
  rw [hread]
  rfl

end

/-! ### The descriptor and the job (R258, R259) -/

section
variable {c : Cluster} {numCores a : Nat} {d : AwlDesc} (hd : readAwl (s.rdBytes a 64) = d)
include hd

theorem State.awlRun_emptyOutput (hempty : d.outH ≤ 0 ∨ d.outW ≤ 0) :
    s.awlRun cl c numCores e a = s.awlFault cl c.ctx a fltShape 0 := by
  subst hd
  exact if_pos hempty

variable (hheight : 0 < d.outH) (hwidth : 0 < d.outW)
include hheight hwidth

theorem State.awlRun_badDesc (hbad : d.rangeOk numCores = false ∨ d.regionsOk c.pwr = false) :
    s.awlRun cl c numCores e a = s.awlFault cl c.ctx a fltAwlDesc 2 := by
  subst hd
  rw [State.awlRun, if_neg (by omega)]
  split
  next => rfl
  next hrange =>
    have hregions := hbad.resolve_left (by simpa using hrange)
    exact if_pos (by rw [hregions]; rfl)

theorem State.awlRun_output (hrange : d.rangeOk numCores = true) (hregions : d.regionsOk c.pwr = true)
    (hin : (s.meet e [clusterBase cl]).readRange (dmaPort cl) 0 (clusterBase cl + d.inOff) (d.inH * d.inW * d.cin) e.errors
      = (none, u1))
    (hwts : u1.readRange (dmaPort cl) 0 (clusterBase cl + d.wOff) (256 + d.noc * d.kh * d.kw * d.cin) e.errors = (none, u2)) :
    s.awlRun cl c numCores e a =
      ((u2.store 0 (clusterBase cl + d.outOff) (d.output (fun o => u2.rdByte (clusterBase cl + o)))).account c.ctx 6
        d.cycles).modCluster cl (fun c => { c with awlJob := some { desc := s.rdBytes a 64 } }) := by
  subst hd
  rw [State.awlRun, if_neg (by omega), if_neg (by simp [hrange]), if_neg (by simp [hregions])]
  simp only [AwlDesc.regions, List.take, List.foldl, hin, hwts]

end

/-! ### The end of a job (R256) -/

theorem State.awlDone_idle (h : (s.cluster cl).awlJob = none) : s.awlDone cl = s := by
  simp only [State.awlDone, h]

theorem State.awlDone_job {j : AwlJob} (h : (s.cluster cl).awlJob = some j) :
    s.awlDone cl = (s.modCluster cl (fun c => { c with awlJob := none })).sendIncr
      { ctx := (s.cluster cl).ctx, core := (readAwl j.desc).doneCore, ctr := (readAwl j.desc).doneCtr
        n := (readAwl j.desc).doneN, src := cl } := by
  simp only [State.awlDone, h]

/-! ### One output element (R201, R259) -/

/-- A narrowed element is rounded, offset and clamped; only a raw sum is not. -/
theorem AwlDesc.elem_narrowed {d : AwlDesc} (hfmt : d.fmtOut ≠ 11) (acc bias : Int) :
    d.elem acc bias = leBytes (4 * halfSize d.fmtOut / 8) (wrap (4 * halfSize d.fmtOut)
      (clampI (rshiftRne (sgn 32 (wrap 32 acc) + bias) d.shift + d.zpOut) d.qmin d.qmax)) := by
  rw [AwlDesc.elem, if_neg hfmt]

end Sys2Proof.Machine
end

