-- ==== Sys2Proof/Proofs/ShapesAndAwl.lean ====
section
/-! PROOFS. The statement on output shapes, the shape check and the Awl engine. -/
namespace Sys2Proof.Proofs
open Sys2Proof Sys2Proof.Machine

/-- Settles O31: the sizes from the floor division, the shape check from its details, the engine from the stages of a
start. -/
theorem shapesAndAwl : Obligations.ShapesAndAwl := by
  unfold Obligations.ShapesAndAwl
  refine ⟨?examples, fun inp p0 p1 k d st => outSize_spec inp p0 p1 d, ?record, ?records,
    fun inp pad k d st out hst _ _ _ => emptyWindow_iff hst, ?engine, fun d inp wts oy ox oc bias hfmt => d.elem_narrowed hfmt _ bias⟩
  case examples => and_intros <;> decide
  case record =>
    refine fun x l => ⟨LayerSection.detail_eq_some_zero_iff x l, fun hnone => ?_⟩
    obtain ⟨-, ⟨hheight, hwidth⟩, hwindows, htables⟩ := (LayerSection.detail_eq_none_iff x l).mp hnone
    exact ⟨hheight, hwidth, hwindows, LayerSection.tables_have_input htables⟩
  case records =>
    refine fun x => ⟨LayerSection.shapeDetail_eq_none_iff x, fun hfive => ?_⟩
    obtain ⟨g, hg, hbad⟩ := LayerSection.exists_haloBad_of_shapeDetail hfive
    exact ⟨g, hg, (LayerSection.haloBad_iff x g).mp hbad⟩
  case engine =>
    intro s cl e hup c x
    have hstart := answers_awlJobStart cl e hup
    have hend := answers_awlJobComplete cl hup
    refine ⟨fun hblocked => answers_congr hstart (State.awlStart_blocked hblocked), ?ringed,
      fun hidle => answers_congr hend (State.awlDone_idle hidle), fun j hjob => answers_congr hend (State.awlDone_job hjob)⟩
    intro d ring hassigned hresident hnoJob hruns hdecl hring hslots bell
    have hidle : s.AwlIdle cl ring := ⟨hassigned, hresident, hnoJob, hruns, hslots, by rw [hdecl]; exact hring⟩
    refine ⟨fun hsilent => answers_congr hstart (State.awlStart_silent hidle hsilent), fun hbell => ?rung⟩
    refine ⟨fun hoff => answers_congr hstart (State.awlStart_bankOff hidle hbell hoff), fun u hon hread => ?read⟩
    have hrun := answers_congr hstart (State.awlStart_slotRead hidle hbell hon hread)
    exact ⟨fun hempty => answers_congr hrun (State.awlRun_emptyOutput rfl hempty),
      fun hheight hwidth hrange => answers_congr hrun (State.awlRun_badDesc rfl hheight hwidth (.inl hrange)),
      fun _ hheight hwidth hregions => answers_congr hrun (State.awlRun_badDesc rfl hheight hwidth (.inr hregions)),
      fun _ _ hrange hheight hwidth hregions hin hwts =>
        answers_congr hrun (State.awlRun_output rfl hheight hwidth hrange hregions hin hwts)⟩

end Sys2Proof.Proofs
end

