-- ==== Sys2Proof/Proofs/CoreIssue.lean ====
section
/-! PROOFS. The issue of a core instruction (R143, R149, R151): what becomes of the state by the outcome of its meaning. -/
namespace Sys2Proof.Machine
open Sys2Proof

variable {s : State} {c : Nat} {w : IWord}

/-- What an issued instruction leaves, by the outcome of its meaning: it retires, waits, or traps. -/
def State.settled (s : State) (c : Nat) (i : Instr) : Run → State
  | .ok t => t.retire c
  | .error (.later, _) => s
  | .error (.full, _) => s.trap c i .full
  | .error (t, u) => u.trap c i t

section
variable {i : Instr} {f : Run} (h : Answers i s (s.settled c i f))
include h

theorem answers_retire {t : State} (hrun : f = .ok t) : Answers i s (t.retire c) :=
  answers_congr h (congrArg (s.settled c i) hrun)

theorem answers_wordFault {code : Nat} (hrun : f = s.wordFault code w) : Answers i s
    (s.ctxFault (s.core c).ctx { code := code, unit := c, detail := (s.core c).pc, addr := w.toNat }) :=
  answers_congr h (congrArg (s.settled c i) hrun)

end

theorem Core.issues_iff {k : Core} : k.issues w = true ↔ k.canIssue = true ∧ k.word = w := by
  rw [Core.issues, Bool.and_eq_true, beq_iff_eq]

/-- The word at the head of the stream, under the command that it spells, ends as its meaning says. -/
theorem State.issue_eq_settled {i : Instr} {k : CoreClass} (f : State → Run) (hissues : (s.core c).issues w = true)
    (hword : i.coreWord = some (k, w)) (hspelt : i.spelt = true) (hclass : coreClass w = some k) :
    s.issue c i f = s.settled c i (f s) := by
  obtain ⟨hcan, hhead⟩ := Core.issues_iff.mp hissues
  simp only [State.issue, State.atHead, hcan, hword, hhead, hspelt, State.dispatch, hclass, and_self, if_true]
  cases f s with
  | ok t => rfl
  | error x =>
    obtain ⟨t, u⟩ := x
    cases t <;> rfl

theorem answers_coreStep {i : Instr} {k : CoreClass} {f : State → Run} (hexec : exec i s = coreStep s c i f) (hup : s.up = true)
    (hissues : (s.core c).issues w = true) (hword : i.coreWord = some (k, w)) (hspelt : i.spelt = true)
    (hclass : coreClass w = some k) : Answers i s (s.settled c i (f s)) :=
  State.issue_eq_settled f hissues hword hspelt hclass ▸ answers_whenUp hexec hup

/-- From class 0x1D on, the function of a word that has a class and function tells what it names. -/
theorem coreClass_of_wordOk {cls fn : Nat} {zeros : List (Nat × Nat)} (hok : wordOk w cls fn zeros = true) (hcls : 0x1C < cls) :
    coreClass w = numberedClass cls fn := by
  simp only [wordOk, clsOf, fnOf, Bool.and_eq_true, beq_iff_eq] at hok
  obtain ⟨⟨rfl, rfl⟩, -⟩ := hok
  simp only [coreClass]
  repeat rw [if_neg (by omega)]

end Sys2Proof.Machine
end

