-- ==== Sys2Proof/Proofs/WorkCounters.lean ====
section
/-! PROOFS. Work counters (R278 to R281): a fetch, the instructions by the scope of their index, and a run of fetches. -/
namespace Sys2Proof.Machine
open Sys2Proof

variable {s : State} {c p : Nat} {w : IWord}

/-! ### A fetch (R278) -/

theorem fetchOf_below {v limit : Nat} (h : v < limit) : fetchOf v limit = (v, v + 1) := if_pos h

theorem fetchOf_exhausted {v limit : Nat} (h : limit ≤ v) : fetchOf v limit = (0xFFFFFFFF, v) := if_neg (Nat.not_lt.mpr h)

/-- Fetches in a row hand out the values below the limit one by one, then all ones. -/
theorem foldl_fetchOf {v limit : Nat} (hv : v ≤ limit) (n : Nat) :
    (List.range n).foldl (fun (a : List Nat × Nat) _ => (a.1 ++ [(fetchOf a.2 limit).1], (fetchOf a.2 limit).2)) ([], v) =
      ((List.range n).map (fun i => if v + i < limit then v + i else 0xFFFFFFFF), min (v + n) limit) := by
  induction n with
  | zero => exact Prod.ext rfl (Nat.min_eq_left hv).symm
  | succ n ih =>
    rw [List.range_succ, List.foldl_append, ih, List.map_append]
    obtain hbelow | hend := Nat.lt_or_ge (v + n) limit
    · have hnext : min (v + (n + 1)) limit = v + n + 1 := Nat.min_eq_left hbelow
      simp only [List.foldl_cons, List.foldl_nil, List.map_cons, List.map_nil, Nat.min_eq_left (Nat.le_of_lt hbelow),
        fetchOf_below hbelow, if_pos hbelow, hnext]
    · have hnext : min (v + (n + 1)) limit = limit := Nat.min_eq_right (Nat.le_succ_of_le hend)
      simp only [List.foldl_cons, List.foldl_nil, List.map_cons, List.map_nil, Nat.min_eq_right hend,
        fetchOf_exhausted (Nat.le_refl limit), if_neg (Nat.not_lt.mpr hend), hnext]

/-! ### The instructions at issue (R281) -/

/-- An index is legal in the device's scope, and in a cluster's up to 15. -/
theorem workOk_of_wordOk {fn : Nat} {zeros : List (Nat × Nat)} (hok : wordOk w 0x36 fn zeros = true)
    (hscope : bit w.toNat 46 = true ∨ wf w 45 38 ≤ 15) : workOk w fn zeros = true := by
  rw [workOk, hok, Bool.true_and, Bool.or_eq_true, decide_eq_true_iff]
  exact hscope

section
variable (hup : s.up = true) (hissues : (s.core c).issues w = true) (hscope : bit w.toNat 46 = true ∨ wf w 45 38 ≤ 15)
include hup hissues hscope

/-- A word of class 0x36 ends as the run of its function says. -/
theorem answers_workRun {i : Instr} {k : CoreClass} {fn : Nat} {zeros : List (Nat × Nat)} {run : State → Run}
    (hexec : exec i s = coreStep s c i (fun s => if workOk w fn zeros then run s else s.illegalWord w))
    (hword : i.coreWord = some (k, w)) (hspelt : i.spelt = true) (hnumber : numberedClass 0x36 fn = some k)
    (hok : wordOk w 0x36 fn zeros = true) : Answers i s (s.settled c i (run s)) :=
  answers_congr (answers_coreStep hexec hup hissues hword hspelt ((coreClass_of_wordOk hok (by decide)).trans hnumber))
    (congrArg (s.settled c i) (if_pos (workOk_of_wordOk hok hscope)))

theorem answers_wfa (hok : wordOk w 0x36 0 [(37, 0)] = true) :
    Answers (.wfa c w) s (s.settled c (.wfa c w) (s.wfaRun c w)) :=
  answers_workRun hup hissues hscope (run := fun s => s.wfaRun c w) rfl rfl rfl rfl hok

theorem answers_wset (hok : wordOk w 0x36 1 [(32, 0)] = true) :
    Answers (.wset c w) s (s.settled c (.wset c w) (s.wsetRun c w)) :=
  answers_workRun hup hissues hscope (run := fun s => s.wsetRun c w) rfl rfl rfl rfl hok

theorem answers_wrd (hok : wordOk w 0x36 2 [(37, 0)] = true) :
    Answers (.wrd c w) s (s.settled c (.wrd c w) (s.wrdRun c w)) :=
  answers_workRun hup hissues hscope (run := fun s => s.wrdRun c w) rfl rfl rfl rfl hok

end

/-! ### A counter of the core's cluster (R279) -/

section
variable (hscope : bit w.toNat 46 = false)
include hscope

theorem State.wfaRun_cluster {r : Nat × Nat}
    (hfetch : fetchOf (tget (0, 0) (s.cluster (c / 16)).wc (wf w 45 38)).1 (tget (0, 0) (s.cluster (c / 16)).wc (wf w 45 38)).2 = r) :
    s.wfaRun c w = .ok ((s.modCluster (c / 16) (fun x => { x with
      wc := tset (0, 0) x.wc (wf w 45 38) (r.2, (tget (0, 0) (s.cluster (c / 16)).wc (wf w 45 38)).2) })).setS c (wf w 51 47)
        (BitVec.ofNat 32 r.1)) := by
  subst hfetch
  simp only [State.wfaRun, hscope, Bool.false_eq_true, if_false, State.fetchCluster]

theorem State.wsetRun_cluster (hlimit : s.sreg c (wf w 37 33) ≠ 0xFFFFFFFF#32) :
    s.wsetRun c w = .ok (s.modCluster (c / 16) (fun x => { x with
      wc := tset (0, 0) x.wc (wf w 45 38) ((s.sreg c (wf w 51 47)).toNat, (s.sreg c (wf w 37 33)).toNat) })) := by
  have hbelow : ¬ (s.sreg c (wf w 37 33)).toNat = 0xFFFFFFFF := fun h => hlimit (BitVec.eq_of_toNat_eq h)
  simp only [State.wsetRun, hscope, Bool.false_eq_true, false_and, if_false, if_neg hbelow]

theorem State.wsetRun_cluster_allOnes (hlimit : s.sreg c (wf w 37 33) = 0xFFFFFFFF#32) :
    s.wsetRun c w = s.wordFault fltWorkArg w := by
  have hones : (s.sreg c (wf w 37 33)).toNat = 0xFFFFFFFF := congrArg BitVec.toNat hlimit
  simp only [State.wsetRun, hscope, Bool.false_eq_true, false_and, if_false, if_pos hones]

theorem State.wrdRun_cluster :
    s.wrdRun c w = .ok (s.setS c (wf w 51 47) (BitVec.ofNat 32 (tget (0, 0) (s.cluster (c / 16)).wc (wf w 45 38)).1)) := by
  simp only [State.wrdRun, hscope, Bool.false_eq_true, if_false]

end

/-! ### A device counter, through the context's map (R280) -/

section
variable (hscope : bit w.toNat 46 = true)
include hscope

section
variable (hmap : (s.ctx (s.core c).ctx).ctrs[wf w 45 38]? = none)
include hmap

theorem State.wfaRun_undeclared : s.wfaRun c w = s.wordFault fltWorkOwner w := by
  simp only [State.wfaRun, hscope, if_true, State.fetchDevice, hmap, Option.map_none]

theorem State.wsetRun_undeclared : s.wsetRun c w = s.wordFault fltWorkOwner w := if_pos ⟨hscope, hmap⟩

theorem State.wrdRun_undeclared : s.wrdRun c w = s.wordFault fltWorkOwner w := by
  simp only [State.wrdRun, hscope, if_true, State.devCtr, hmap]

end

section
variable (hmap : (s.ctx (s.core c).ctx).ctrs[wf w 45 38]? = some p)
include hmap

theorem State.wfaRun_device {r : Nat × Nat} (hfetch : fetchOf (s.workCtr p).v (s.workCtr p).limit = r) :
    s.wfaRun c w = .ok ((s.modWork p (fun y => { y with v := r.2 })).setS c (wf w 51 47) (BitVec.ofNat 32 r.1)) := by
  subst hfetch
  simp only [State.wfaRun, hscope, if_true, State.fetchDevice, hmap, Option.map_some]

theorem State.wsetRun_device (hlimit : s.sreg c (wf w 37 33) ≠ 0xFFFFFFFF#32) :
    s.wsetRun c w = .ok (s.modWork p (fun y => { y with
      v := (s.sreg c (wf w 51 47)).toNat, limit := (s.sreg c (wf w 37 33)).toNat })) := by
  have hbelow : ¬ (s.sreg c (wf w 37 33)).toNat = 0xFFFFFFFF := fun h => hlimit (BitVec.eq_of_toNat_eq h)
  simp only [State.wsetRun, hscope, State.devCtr, hmap, reduceCtorEq, and_false, if_false, if_neg hbelow, if_true]

theorem State.wrdRun_device : s.wrdRun c w = .ok (s.setS c (wf w 51 47) (BitVec.ofNat 32 (s.workCtr p).v)) := by
  simp only [State.wrdRun, hscope, if_true, State.devCtr, hmap]

end

end

end Sys2Proof.Machine
end

