-- ==== Sys2Proof/Proofs/HostSignal.lean ====
section
/-! PROOFS. The host's signal (R273, R285): the write of the high word, and the increment or the discard it gives. -/
namespace Sys2Proof.Machine
open Sys2Proof

variable {s : State} {r : Route} {high low : Nat}

/-- The fields of a host signal. -/
theorem hostSignal_fields (v : Nat) : bits v 5 0 = v % 64 ∧ bits v 11 6 = v / 64 % 64 ∧ bits v 22 12 = v / 2 ^ 12 % 2048 ∧
    bits v 47 32 = v / 2 ^ 32 % 2 ^ 16 := by
  have hfield (hi lo : Nat) : bits v hi lo = v / 2 ^ lo % 2 ^ (hi + 1 - lo) :=
    congrArg (· % 2 ^ (hi + 1 - lo)) (Nat.shiftRight_eq_div_pow v lo)
  exact ⟨(hfield 5 0).trans (congrArg (· % 64) (Nat.div_one v)), hfield 11 6, hfield 22 12, hfield 47 32⟩

theorem State.hostSig_sent {v : Nat} (hruns : (s.ctx (v % 64)).runs = true)
    (hcore : v / 2 ^ 12 % 2048 < 16 * (s.ctx (v % 64)).k) (hctr : v / 64 % 64 ≤ 47) (hn : v / 2 ^ 32 % 2 ^ 16 ≠ 0) :
    s.hostSig v = { s with flight := s.flight ++
      [{ ctx := v % 64, core := v / 2 ^ 12 % 2048, ctr := v / 64 % 64, n := v / 2 ^ 32 % 2 ^ 16, fromCtx := false, src := 0x300 }] } := by
  obtain ⟨ectx, ectr, ecore, en⟩ := hostSignal_fields v
  simp only [State.hostSig, ectx, ectr, ecore, en, hruns, Nat.not_le.mpr hcore, Nat.not_lt.mpr hctr, hn, State.sendIncr,
    Bool.not_true, Bool.false_eq_true, or_self, if_false]

theorem State.hostSig_dropped {v : Nat} (h : (s.ctx (v % 64)).runs = false ∨ 16 * (s.ctx (v % 64)).k ≤ v / 2 ^ 12 % 2048 ∨
    47 < v / 64 % 64 ∨ v / 2 ^ 32 % 2 ^ 16 = 0) : s.hostSig v = { s with hostDropped := true } := by
  obtain ⟨ectx, ectr, ecore, en⟩ := hostSignal_fields v
  rw [← Bool.not_eq_true'] at h
  simp only [State.hostSig, ectx, ectr, ecore, en]
  exact if_pos h

/-- Where a low word is held, a high word that reaches the register completes the signal. -/
theorem answers_hostSignal_held (hup : s.up = true) (hreach : s.reaches r hostSignalOff = true) (hhigh : high < 2 ^ 32)
    (hheld : tget none s.heldLow (latchKey r hostSignalOff) = some low) : Answers (.hostSignal r high) s
      (State.hostSig { s with heldLow := tset none s.heldLow (latchKey r hostSignalOff) none } (low + high * 2 ^ 32)) := by
  refine answers_congr (answers_whenUp rfl hup) ?_
  simp only [State.takeHeld, hheld, hreach, if_true, Nat.mod_eq_of_lt hhigh]

theorem answers_hostSignal_unheld (hup : s.up = true) (hheld : tget none s.heldLow (latchKey r hostSignalOff) = none) :
    Answers (.hostSignal r high) s s := by
  refine answers_congr (answers_whenUp rfl hup) ?_
  simp only [State.takeHeld, hheld, ite_self]

end Sys2Proof.Machine
end

