-- ==== Sys2Proof/Proofs/Parking.lean ====
section
/-! PROOFS. The stages of a wait (R274) and the end of a context (R277). -/
namespace Sys2Proof.Machine
open Sys2Proof

variable {s : State} {c dt : Nat}

/-! ### A core that waits (R274) -/

theorem answers_corePark (hup : s.up = true) : Answers (.corePark c dt) s (s.parkCore c dt) := answers_whenUp rfl hup

@[simp] theorem State.account_core (s : State) (x i k n : Nat) : (s.account x i k).core n = s.core n := rfl

section
variable {w : WaitSt} (hwait : (s.core c).wait = some w)
include hwait

theorem State.parkCore_parked (hst : (s.core c).st = .parked) : s.parkCore c dt =
    (s.modCore c (fun k => { k with park := (k.park + dt) % 2 ^ 64 })).account (s.core c).ctx 5 dt := by
  simp only [State.parkCore, hwait, hst, if_true]

variable (hst : (s.core c).st = .waiting)
include hst

theorem State.parkCore_spins
    (h : w.cycles + dt < (s.ctx (s.core c).ctx).spin ∨ (s.core c).queues ≠ [] ∨ (s.ctx (s.core c).ctx).k ≤ 4) :
    s.parkCore c dt =
      (s.modCore c (fun k => { k with wait := some { w with cycles := w.cycles + dt } })).account (s.core c).ctx 4 dt := by
  have hstays : ¬ ((s.ctx (s.core c).ctx).spin ≤ w.cycles + dt ∧ (s.core c).queues.isEmpty = true ∧
      4 < (s.ctx (s.core c).ctx).k) := by
    rintro ⟨hspin, hidle, hclusters⟩
    obtain hearly | hbusy | hsmall := h
    · exact Nat.not_le.mpr hearly hspin
    · exact hbusy (List.isEmpty_iff.mp hidle)
    · exact Nat.not_lt.mpr hsmall hclusters
  simp only [State.parkCore, hwait, hst, reduceCtorEq, if_false, if_true, if_neg hstays]

theorem State.parkCore_parks_core (hspin : (s.ctx (s.core c).ctx).spin ≤ w.cycles + dt) (hidle : (s.core c).queues = [])
    (hclusters : 4 < (s.ctx (s.core c).ctx).k) :
    (s.parkCore c dt).core c = { s.core c with st := .parked, wait := some { w with cycles := w.cycles + dt } } := by
  have hparks := And.intro hspin (And.intro (List.isEmpty_iff.mpr hidle) hclusters)
  simp only [State.parkCore, hwait, hst, reduceCtorEq, if_false, if_true, if_pos hparks, State.modCore_core,
    State.account_core]

end

/-- The cycles that pass at one core leave every other core as it was. -/
theorem State.parkCore_core_ne {j : Nat} (h : j ≠ c) : (s.parkCore c dt).core j = s.core j := by
  have hmod (t : State) (f : Core → Core) : (t.modCore c f).core j = t.core j := t.modCore_core_ne f h
  simp only [State.parkCore]
  split
  next => rfl
  next =>
    split
    next => rw [State.account_core, hmod]
    next =>
      split
      next =>
        split
        next => rw [hmod, State.account_core, hmod]
        next => rw [State.account_core, hmod]
      next => rfl

/-! ### A partition at its deschedule points (R274) -/

/-- Every core of the partition is parked at a wait with dp = 1. -/
def State.allAtDeschedule (s : State) (c : Nat) : Bool :=
  (s.ctx c).cores.all (fun n => (s.core n).st == .parked && (match (s.core n).wait with | some w => w.dp | none => false))

section
variable (hup : s.up = true)
include hup

theorem answers_descheduleThreshold_all (hst : (s.ctx c).st = .resident) (hall : s.allAtDeschedule c = true) :
    Answers (.descheduleThreshold c) s (s.modCtx c (fun y => { y with deschedulable := true })) :=
  answers_congr (answers_whenUp rfl hup) (if_pos ⟨hst, hall⟩)

theorem answers_descheduleThreshold_notAll (h : (s.ctx c).st ≠ .resident ∨ s.allAtDeschedule c = false) :
    Answers (.descheduleThreshold c) s s := by
  refine answers_congr (answers_whenUp rfl hup) (if_neg ?_)
  rintro ⟨hst, hall⟩
  exact h.elim (· hst) (Bool.eq_false_iff.mp · hall)

/-! ### The end of a context (R277) -/

theorem answers_contextEnd_running (h : s.ctxDoneRunning c = false) : Answers (.contextEnd c) s s :=
  answers_congr (answers_whenUp rfl hup) (if_neg (Bool.eq_false_iff.mp h))

theorem answers_contextEnd_clean (h : s.ctxDoneRunning c = true) (hres : s.residue c = none) :
    Answers (.contextEnd c) s (s.endCtx c 0) :=
  answers_congr (answers_whenUp rfl hup) ((if_pos h).trans (by rw [hres]))

theorem answers_contextEnd_residue {r : Nat × Nat × Nat} (h : s.ctxDoneRunning c = true) (hres : s.residue c = some r) :
    Answers (.contextEnd c) s (s.ctxFault c { code := fltSyncResidue, unit := r.1, detail := r.2.1, addr := r.2.2 }) :=
  answers_congr (answers_whenUp rfl hup) ((if_pos h).trans (by rw [hres]))

end

theorem State.sync_of_residue_none {j n : Nat} (hres : s.residue c = none) (hj : j < (s.ctx c).numCores)
    (hcore : (s.ctx c).coreAt j = some n) : (s.core n).sync = [] := by
  have hnone := List.findSome?_eq_none_iff.mp hres j (mem_upto_iff.mpr ⟨Nat.zero_le j, by omega⟩)
  simpa only [hcore, Option.map_eq_none_iff, List.head?_eq_none_iff] using hnone

/-- A partition without residue reads zero at every counter. -/
theorem State.ctrGet_of_residue_none {j : Nat} (hres : s.residue c = none) (hj : j < (s.ctx c).numCores)
    (hst : (s.ctx c).st = .resident) (hcore : (s.ctx c).coreAt j ≠ none) (ctr : Nat) : s.ctrGet c j ctr = some 0 := by
  obtain ⟨n, hn⟩ := Option.ne_none_iff_exists'.mp hcore
  simp only [State.ctrGet, hst, if_true, hn, Option.map_some, State.sync_of_residue_none hres hj hn, tget_nil]

end Sys2Proof.Machine
end

