-- ==== Sys2Proof/Proofs/WorkCountersAndParking.lean ====
section
/-! PROOFS. The statement on work counters, the host's signal, parking and the end of a context. -/
namespace Sys2Proof.Proofs
open Sys2Proof Sys2Proof.Machine

/-- Settles O33: a work counter instruction by its scope and its index's place in the map, a signal by its fields, a
wait by its stage, the end by the residue. -/
theorem workCountersAndParking : Obligations.WorkCountersAndParking := by
  unfold Obligations.WorkCountersAndParking
  refine ⟨⟨?work, fun v limit n _ hv => ?handedOut⟩, ?signal, fun s r high hup hheld => answers_hostSignal_unheld hup hheld,
    ?park, ?context⟩
  case work =>
    intro s c w hup hissues k idx rd fault
    refine ⟨fun hscope hidx => ?cluster, fun hscope => ⟨fun hmap => ?undeclared, fun p hmap => ?device⟩⟩
    case cluster =>
      intro p
      refine ⟨fun hok => ?fetch, fun hok => ?arm, fun hok => ?value⟩
      case fetch =>
        have hwfa := answers_wfa hup hissues (.inr hidx) hok
        exact ⟨fun hlt => answers_retire hwfa (State.wfaRun_cluster hscope (fetchOf_below hlt)),
          fun hle => answers_retire hwfa (State.wfaRun_cluster hscope (fetchOf_exhausted hle))⟩
      case arm =>
        have hwset := answers_wset hup hissues (.inr hidx) hok
        exact ⟨fun hl => answers_wordFault hwset (State.wsetRun_cluster_allOnes hscope hl),
          fun hl => answers_retire hwset (State.wsetRun_cluster hscope hl)⟩
      case value =>
        exact answers_retire (answers_wrd hup hissues (.inr hidx) hok) (State.wrdRun_cluster hscope)
    case undeclared =>
      exact ⟨fun hok => answers_wordFault (answers_wfa hup hissues (.inl hscope) hok) (State.wfaRun_undeclared hscope hmap),
        fun hok => answers_wordFault (answers_wset hup hissues (.inl hscope) hok) (State.wsetRun_undeclared hscope hmap),
        fun hok => answers_wordFault (answers_wrd hup hissues (.inl hscope) hok) (State.wrdRun_undeclared hscope hmap)⟩
    case device =>
      intro x
      refine ⟨fun hok => ?fetch, fun hok hl => ?arm, fun hok => ?value⟩
      case fetch =>
        have hwfa := answers_wfa hup hissues (.inl hscope) hok
        exact ⟨fun hlt => answers_retire hwfa (State.wfaRun_device hscope hmap (fetchOf_below hlt)),
          fun hle => answers_retire hwfa (State.wfaRun_device hscope hmap (fetchOf_exhausted hle))⟩
      case arm =>
        exact answers_retire (answers_wset hup hissues (.inl hscope) hok) (State.wsetRun_device hscope hmap hl)
      case value =>
        exact answers_retire (answers_wrd hup hissues (.inl hscope) hok) (State.wrdRun_device hscope hmap)
  case handedOut =>
    intro run
    have hrun := foldl_fetchOf hv n
    exact ⟨congrArg Prod.fst hrun, congrArg Prod.snd hrun⟩
  case signal =>
    intro s r high low hup hreach hhigh hheld u v n
    have hsignal := answers_hostSignal_held hup hreach hhigh hheld
    exact ⟨fun hruns hcore hctr hn => answers_congr hsignal (State.hostSig_sent hruns hcore hctr hn),
      fun hbad => answers_congr hsignal (State.hostSig_dropped hbad)⟩
  case park =>
    intro s c dt w hup hwait k x
    have hpark := answers_corePark (c := c) (dt := dt) hup
    exact ⟨fun hst hstays => answers_congr hpark (State.parkCore_spins hwait hst hstays),
      fun hst hspin hidle hclusters => reaches_of_answers hpark
        ⟨State.parkCore_parks_core hwait hst hspin hidle hclusters, fun j hj => State.parkCore_core_ne hj⟩,
      fun hst => answers_congr hpark (State.parkCore_parked hwait hst)⟩
  case context =>
    intro s c hup x all
    exact ⟨answers_descheduleThreshold_all hup, answers_descheduleThreshold_notAll hup, answers_contextEnd_running hup,
      answers_contextEnd_clean hup, fun r => answers_contextEnd_residue hup,
      fun hres j n hj _ hst hcore => State.ctrGet_of_residue_none hres hj hst hcore n⟩

end Sys2Proof.Proofs
end

