-- ==== Sys2Proof/Proofs/RecordFields.lean ====
section
/-! PROOFS. The bytes of a record (R3, R336, R337, R345, R346): little-endian fields read back at their offsets, and the layout of
stream, fault, loss and pad records. -/
namespace Sys2Proof.Machine
open Sys2Proof

/-! ### Little-endian fields (R3) -/

@[simp] theorem leBytes_length (n v : Nat) : (leBytes n v).length = n := by
  induction n generalizing v with
  | zero => rfl
  | succ n ih => simp [leBytes, ih]

@[simp] theorem leNat_leBytes (n v : Nat) : leNat (leBytes n v) = v % 256 ^ n := by
  induction n generalizing v with
  | zero => simp [leBytes, leNat, Nat.mod_one]
  | succ n ih => rw [leBytes, leNat, ih, BitVec.toNat_ofNat, Nat.pow_succ' (m := 256), Nat.mod_mul]

theorem fieldAt_leBytes (n v : Nat) : fieldAt (leBytes n v) 0 n = v % 256 ^ n := by
  rw [fieldAt, List.drop_zero, List.take_of_length_le (Nat.le_of_eq (leBytes_length n v)), leNat_leBytes]

theorem fieldAt_append_left {xs : List Byte} (ys : List Byte) {o n : Nat} (h : o + n ≤ xs.length) :
    fieldAt (xs ++ ys) o n = fieldAt xs o n := by
  rw [fieldAt, fieldAt, List.drop_append_of_le_length (by omega), List.take_append_of_le_length (by rw [List.length_drop]; omega)]

theorem fieldAt_append_right {xs : List Byte} (ys : List Byte) {o : Nat} (n : Nat) (h : xs.length ≤ o) :
    fieldAt (xs ++ ys) o n = fieldAt ys (o - xs.length) n := by
  rw [fieldAt, List.drop_append, List.drop_of_length_le h, List.nil_append, fieldAt]

theorem fieldAt_leBytes_append (n v : Nat) (ys : List Byte) : fieldAt (leBytes n v ++ ys) 0 n = v % 256 ^ n := by
  rw [fieldAt_append_left ys (by simp), fieldAt_leBytes]

theorem fieldAt_skip_leBytes (v : Nat) (ys : List Byte) {m o : Nat} (n : Nat) (h : m ≤ o) :
    fieldAt (leBytes m v ++ ys) o n = fieldAt ys (o - m) n := by
  rw [fieldAt_append_right ys n (by simpa using h), leBytes_length]

/-! ### Padding -/

theorem padTo_eq_append {n : Nat} {bs : List Byte} (h : bs.length ≤ n) : padTo n bs = bs ++ copies (n - bs.length) 0#8 := by
  rw [padTo, List.take_of_length_le]
  simp [copies, h]

@[simp] theorem padTo_length (n : Nat) (bs : List Byte) : (padTo n bs).length = n := by
  simp only [padTo, copies, List.length_take, List.length_append, List.length_replicate]
  omega

theorem padTo_of_length {n : Nat} {bs : List Byte} (h : bs.length = n) : padTo n bs = bs := by
  subst h
  simp [padTo]

@[simp] theorem lossRecord_length (unit count cause : Nat) : (lossRecord unit count cause).length = 32 := padTo_length _ _

@[simp] theorem padRecord_length (n : Nat) : (padRecord n).length = 32 * n := padTo_length _ _

/-! ### Fault records (R345) -/

theorem faultRecord_eq (f : FaultInfo) (seq : Nat) :
    faultRecord f seq = leBytes 1 6 ++ (leBytes 1 f.ctx ++ (leBytes 2 1 ++ (leBytes 4 f.unit ++ (leBytes 4 f.detail ++
      (leBytes 2 f.code ++ (leBytes 2 0 ++ (leBytes 8 f.addr ++ (leBytes 2 f.slot ++ (leBytes 2 0 ++ leBytes 4 seq))))))))) := by
  simp only [faultRecord, List.append_assoc]
  rfl

@[simp] theorem faultRecord_length (f : FaultInfo) (seq : Nat) : (faultRecord f seq).length = 32 := by
  simp [faultRecord_eq]

theorem faultRecord_fields (f : FaultInfo) (seq : Nat) :
    let b := faultRecord f seq
    fieldAt b 0 1 = 6 ∧ fieldAt b 1 1 = f.ctx % 256 ∧ fieldAt b 2 2 = 1 ∧ fieldAt b 4 4 = f.unit % 2 ^ 32 ∧
      fieldAt b 8 4 = f.detail % 2 ^ 32 ∧ fieldAt b 12 2 = f.code % 65536 ∧ fieldAt b 14 2 = 0 ∧ fieldAt b 16 8 = f.addr % 2 ^ 64 ∧
      fieldAt b 24 2 = f.slot % 65536 ∧ fieldAt b 26 2 = 0 ∧ fieldAt b 28 4 = seq % 2 ^ 32 := by
  simp [faultRecord_eq, fieldAt_skip_leBytes, fieldAt_leBytes_append, fieldAt_leBytes]

/-! ### Stream records (R337) -/

section
variable (slot ty seq pts : Nat) (chain body : List Byte)

/-- The units of a stream record with `body`. -/
def streamUnits (body : List Byte) : Nat := ceilDiv (32 + body.length) 32

theorem le_streamUnits : 32 + body.length ≤ 32 * streamUnits body := by
  simp only [streamUnits, ceilDiv]
  omega

theorem streamUnits_lt (h : 32 + body.length ≤ 32 * 65535) : streamUnits body < 65536 := by
  simp only [streamUnits, ceilDiv]
  omega

/-- The first 16 B of a stream record: type, slot, length, seq and presentation time. -/
def streamHead (n : Nat) : List Byte := leBytes 1 ty ++ (leBytes 1 slot ++ (leBytes 2 n ++ (leBytes 4 seq ++ leBytes 8 pts)))

@[simp] theorem streamHead_length (n : Nat) : (streamHead slot ty seq pts n).length = 16 := by simp [streamHead]

/-- A stream record is its head, its chain value and its body, filled up with zeros to a whole number of units. -/
theorem streamRecord_eq : streamRecord slot ty seq pts chain body =
    streamHead slot ty seq pts (streamUnits body) ++ (padTo 16 chain ++ (body ++ copies (32 * streamUnits body - (32 + body.length)) 0#8)) := by
  have hlen : (streamHead slot ty seq pts (streamUnits body) ++ (padTo 16 chain ++ body)).length = 32 + body.length := by
    simp only [List.length_append, streamHead_length, padTo_length]
    omega
  have hpad := padTo_eq_append (hlen ▸ le_streamUnits body)
  rw [hlen] at hpad
  simp only [List.append_assoc] at hpad
  rw [← hpad]
  simp only [streamRecord, streamHead, List.append_assoc]
  rfl

@[simp] theorem streamRecord_length : (streamRecord slot ty seq pts chain body).length = 32 * streamUnits body := padTo_length _ _

theorem streamRecord_fields :
    let b := streamRecord slot ty seq pts chain body
    fieldAt b 0 1 = ty % 256 ∧ fieldAt b 1 1 = slot % 256 ∧ fieldAt b 2 2 = streamUnits body % 65536 ∧ fieldAt b 4 4 = seq % 2 ^ 32 ∧
      fieldAt b 8 8 = pts % 2 ^ 64 := by
  have hhead {o n : Nat} (h : o + n ≤ 16) :
      fieldAt (streamRecord slot ty seq pts chain body) o n = fieldAt (streamHead slot ty seq pts (streamUnits body)) o n := by
    rw [streamRecord_eq, fieldAt_append_left _ (by simpa using h)]
  simp [hhead, streamHead, fieldAt_skip_leBytes, fieldAt_leBytes_append, fieldAt_leBytes]

theorem streamRecord_body : ((streamRecord slot ty seq pts chain body).drop 32).take body.length = body := by
  rw [streamRecord_eq, ← List.append_assoc, List.drop_left' (by simp), List.take_left]

theorem streamRecord_chain (h : chain.length = 16) : ((streamRecord slot ty seq pts chain body).drop 16).take 16 = chain := by
  rw [streamRecord_eq, List.drop_left' (by simp), List.take_left' (by simp), padTo_of_length h]

end

end Sys2Proof.Machine
end

