-- ==== Sys2Proof/Proofs/RingGeometry.lean ====
section
/-! PROOFS. What a ring's write does (R352 to R354, R506): the places of the loss record, the pad and the record, the condition under
which the ring takes them, and the ring after it. -/
namespace Sys2Proof.Machine
open Sys2Proof

/-! ### The parts of a write -/

variable {r r' : Ring} {ro : Bool} {n len : Nat} {bytes : List Byte} {os : List Out}

/-- The units of the pending loss record, which goes before the next record (R353). -/
def Ring.lossUnits (r : Ring) : Nat := if r.lost = 0 then 0 else 1

/-- The unit count behind the pending loss record. -/
def Ring.afterLoss (r : Ring) : Nat := (r.head + r.lossUnits) % 2 ^ 32

/-- The pad units between the loss record and a record of `len` units. -/
def Ring.padUnits (r : Ring) (len : Nat) : Nat := r.pad r.afterLoss len

/-- The unit count at which a record of `len` units begins. -/
def Ring.recordAt (r : Ring) (len : Nat) : Nat := (r.afterLoss + r.padUnits len) % 2 ^ 32

/-- The units between head and the record. -/
def Ring.skip (r : Ring) (len : Nat) : Nat := r.lossUnits + r.padUnits len

/-- A record of `len` units fits: all that is written does, and without a pending loss one unit stays free (R352, R353). -/
def Ring.Fits (r : Ring) (len : Nat) : Prop :=
  r.used + r.skip len + len ≤ r.units ∧ (r.lost = 0 → r.used + r.skip len + len < r.units)

/-- The ring after a record of `len` units. -/
def Ring.advanced (r : Ring) (len : Nat) : Ring :=
  { r with head := (r.recordAt len + len) % 2 ^ 32, lost := 0, unsig := r.unsig + 1 + r.lossUnits }

/-- What is written before a record of `len` units: the pending loss record and the pad. -/
def Ring.preWrites (r : Ring) (ro : Bool) (n len : Nat) : List Out :=
  (if r.lost = 0 then [] else [.hostWrite (r.addr r.head) (lossRecord n r.lost r.lostCause) ro]) ++
    (if r.padUnits len = 0 then [] else [.hostWrite (r.addr r.afterLoss) (padRecord (r.padUnits len)) ro])

/-- All writes of a record: what comes before it, the record, and the head's writeback. -/
def Ring.writes (r : Ring) (ro : Bool) (n : Nat) (bytes : List Byte) : List Out :=
  r.preWrites ro n (bytes.length / 32) ++ [.hostWrite (r.addr (r.recordAt (bytes.length / 32))) bytes ro,
    .hostWrite r.wb (leBytes 4 (r.advanced (bytes.length / 32)).head ++ leBytes 4 0) false]

/-- The model's two conditions, with a pending loss and without one, say that the record fits. -/
theorem Ring.fits_iff : r.Fits len ↔
    if r.lost = 0 then r.used + r.padUnits len + len + 1 ≤ r.units else r.used + 1 + r.padUnits len + len ≤ r.units := by
  unfold Ring.Fits Ring.skip Ring.lossUnits
  split
  next hlost => simp only [hlost, true_imp_iff]; omega
  next hlost => simp only [hlost, false_imp_iff, and_true]; omega

/-- A ring takes a record just where it is enabled and the record fits, and then writes and advances as said. -/
theorem Ring.write_eq_some_iff : r.write ro n bytes = some (os, r') ↔
    r.enable = true ∧ r.Fits (bytes.length / 32) ∧ os = r.writes ro n bytes ∧ r' = r.advanced (bytes.length / 32) := by
  have hwrite : r.write ro n bytes =
      if r.enable ∧ (if r.lost = 0 then r.used + r.padUnits (bytes.length / 32) + bytes.length / 32 + 1 ≤ r.units
        else r.used + 1 + r.padUnits (bytes.length / 32) + bytes.length / 32 ≤ r.units)
      then some (r.writes ro n bytes, r.advanced (bytes.length / 32)) else none := rfl
  rw [hwrite, Option.ite_none_right_eq_some, Ring.fits_iff, and_assoc, Option.some_inj, Prod.mk.injEq, eq_comm (a := os), eq_comm (a := r')]

/-! ### The places in the ring (R352) -/

/-- A ring's size is a whole number of units that divides the range of the unit counts. -/
def Ring.Sized (r : Ring) : Prop := 12 ≤ r.sizeLog2 ∧ r.sizeLog2 ≤ 26

theorem Ring.Sized.units_eq (h : r.Sized) : r.units = 2 ^ (r.sizeLog2 - 5) := by
  have : 5 ≤ r.sizeLog2 := by have := h.1; omega
  rw [Ring.units, show (32 : Nat) = 2 ^ 5 from rfl, Nat.pow_div this (by decide)]

theorem Ring.Sized.bytes_eq (h : r.Sized) : r.units * 32 = 2 ^ r.sizeLog2 := by
  have : r.sizeLog2 = r.sizeLog2 - 5 + 5 := by have := h.1; omega
  rw [h.units_eq, show (32 : Nat) = 2 ^ 5 from rfl, ← Nat.pow_add, ← this]

theorem Ring.Sized.units_pos (h : r.Sized) : 0 < r.units := h.units_eq ▸ Nat.two_pow_pos _

theorem Ring.Sized.units_le (h : r.Sized) : r.units ≤ 2 ^ 21 :=
  h.units_eq ▸ Nat.pow_le_pow_right (by decide) (by have := h.2; omega)

theorem Ring.Sized.mod_mod (h : r.Sized) (x : Nat) : x % 2 ^ 32 % r.units = x % r.units :=
  Nat.mod_mod_of_dvd x (h.units_eq ▸ Nat.pow_dvd_pow 2 (by have := h.2; omega))

/-- Units that stop short of the ring's end lie in the ring's bytes. -/
theorem Ring.Sized.addr_within (h : r.Sized) {a k : Nat} (hk : a % r.units + k ≤ r.units) :
    r.base ≤ r.addr a ∧ r.addr a + 32 * k ≤ r.base + 2 ^ r.sizeLog2 := by
  rw [Ring.addr, ← h.bytes_eq]
  omega

theorem Ring.pad_lt (h : Nat) (hlen : 0 < len) : r.pad h len < len := by
  simp only [Ring.pad]
  split <;> omega

theorem Ring.Sized.pad_within (hsize : r.Sized) (h : Nat) : h % r.units + r.pad h len ≤ r.units := by
  have := Nat.mod_lt h hsize.units_pos
  simp only [Ring.pad]
  split <;> omega

/-- Behind its pad a record does not cross the ring's end: it begins at the ring's base, or nothing was to pad. -/
theorem Ring.Sized.padded_within (hsize : r.Sized) (h : Nat) (hlen : len ≤ r.units) : (h + r.pad h len) % r.units + len ≤ r.units := by
  have := Nat.mod_lt h hsize.units_pos
  simp only [Ring.pad]
  split
  next =>
    have hend : h + (r.units - h % r.units) = (h / r.units + 1) * r.units := by
      have := Nat.div_add_mod' h r.units
      rw [Nat.succ_mul]
      omega
    rw [hend, Nat.mul_mod_left]
    omega
  next => rw [Nat.add_zero]; omega

theorem Ring.Fits.len_le (hfits : r.Fits len) : len ≤ r.units := by
  have := hfits.1
  omega

theorem Ring.Fits.used_advanced (hfits : r.Fits len) (hsize : r.Sized) (htail : r.tail < 2 ^ 32) :
    (r.advanced len).used = r.used + r.skip len + len := by
  have := hfits.1
  have := hsize.units_le
  simp only [Ring.used, Ring.skip, Ring.advanced, Ring.recordAt, Ring.afterLoss] at *
  omega

theorem Ring.skip_le (hlen : 0 < len) : r.skip len ≤ len := by
  have : r.lossUnits ≤ 1 := by unfold Ring.lossUnits; split <;> omega
  have := Ring.pad_lt (r := r) r.afterLoss hlen
  simp only [Ring.skip, Ring.padUnits]
  omega

theorem Ring.advanced_head : (r.advanced len).head = (r.head + r.skip len + len) % 2 ^ 32 := by
  simp only [Ring.advanced, Ring.recordAt, Ring.afterLoss, Ring.skip]
  omega

theorem Ring.recordAt_eq (hlen : len ≤ 2 ^ 21) : r.recordAt len = ((r.advanced len).head + 2 ^ 32 - len) % 2 ^ 32 := by
  simp only [Ring.advanced, Ring.recordAt]
  omega

/-! ### The writes -/

theorem Ring.mem_preWrites {o : Out} : o ∈ r.preWrites ro n len ↔
    (r.lost ≠ 0 ∧ o = .hostWrite (r.addr r.head) (lossRecord n r.lost r.lostCause) ro) ∨
      (r.padUnits len ≠ 0 ∧ o = .hostWrite (r.addr r.afterLoss) (padRecord (r.padUnits len)) ro) := by
  simp only [Ring.preWrites, List.mem_append]
  split <;> split <;> simp [*]

theorem Ring.preWrites_eq_nil (hlost : r.lost = 0) (hskip : r.skip len = 0) : r.preWrites ro n len = [] := by
  have hpad : r.padUnits len = 0 := (Nat.add_eq_zero_iff.mp hskip).2
  rw [Ring.preWrites, if_pos hlost, if_pos hpad, List.append_nil]

theorem Ring.recordAt_of_skip (hhead : r.head < 2 ^ 32) (hskip : r.skip len = 0) : r.recordAt len = r.head := by
  simp only [Ring.recordAt, Ring.afterLoss, Ring.skip] at *
  omega

/-- Every write is the head's writeback, or lies within the ring. -/
theorem Ring.Fits.write_within (hfits : r.Fits (bytes.length / 32)) (hsize : r.Sized) (hwhole : bytes.length % 32 = 0)
    {a : Nat} {bs : List Byte} {f : Bool} (hmem : .hostWrite a bs f ∈ r.writes ro n bytes) :
    (a = r.wb ∧ bs.length = 8) ∨ (r.base ≤ a ∧ a + bs.length ≤ r.base + 2 ^ r.sizeLog2) := by
  simp only [List.mem_append, Ring.writes, Ring.mem_preWrites, List.mem_cons, List.not_mem_nil, or_false, Out.hostWrite.injEq] at hmem
  obtain (⟨-, rfl, hbs, -⟩ | ⟨-, rfl, hbs, -⟩) | ⟨rfl, hbs, -⟩ | ⟨rfl, hbs, -⟩ := hmem
  case inl.inl =>
    rw [hbs, lossRecord_length]
    exact .inr (hsize.addr_within (k := 1) (Nat.mod_lt r.head hsize.units_pos))
  case inl.inr =>
    rw [hbs, padRecord_length]
    exact .inr (hsize.addr_within (hsize.pad_within r.afterLoss))
  case inr.inl =>
    have hplace : r.recordAt (bytes.length / 32) % r.units + bytes.length / 32 ≤ r.units := by
      rw [Ring.recordAt, hsize.mod_mod]
      exact hsize.padded_within r.afterLoss hfits.len_le
    have hwithin := hsize.addr_within hplace
    rw [Nat.mul_div_cancel' (Nat.dvd_of_mod_eq_zero hwhole)] at hwithin
    exact .inr (hbs ▸ hwithin)
  case inr.inr => exact .inl ⟨rfl, by simp [hbs]⟩

/-- The worked example of R352: 12 units at head 2,040 of 2,048 go behind a pad of 8 units, to the ring's base. -/
theorem Ring.write_worked (henable : r.enable = true) (hsize : r.sizeLog2 = 16) (hhead : r.head = 2040) (htail : r.tail = 1000)
    (hlost : r.lost = 0) (hlen : bytes.length = 384) :
    ∃ r', r.write true n bytes = some ([.hostWrite (r.base + 65280) (padRecord 8) true, .hostWrite r.base bytes true,
      .hostWrite r.wb (leBytes 4 2060 ++ leBytes 4 0) false], r') ∧ r'.head = 2060 := by
  have hunits : r.units = 2048 := congrArg (fun k => 2 ^ k / 32) hsize
  have hloss : r.lossUnits = 0 := if_pos hlost
  have hafter : r.afterLoss = 2040 := by simp [Ring.afterLoss, hloss, hhead]
  have hpad : r.padUnits 12 = 8 := by rw [Ring.padUnits, hafter, Ring.pad, hunits]; rfl
  have hat : r.recordAt 12 = 2048 := by simp [Ring.recordAt, hafter, hpad]
  have hnext : (r.advanced 12).head = 2060 := by simp [Ring.advanced, hat]
  have hfits : r.Fits 12 := by
    simp [Ring.Fits, Ring.skip, hloss, hpad, Ring.used, hhead, htail, hunits]
  have hpre : r.preWrites true n 12 = [.hostWrite (r.base + 65280) (padRecord 8) true] := by
    rw [Ring.preWrites, if_pos hlost, hpad, hafter, Ring.addr, hunits]
    rfl
  have hunits12 : bytes.length / 32 = 12 := by rw [hlen]
  refine ⟨r.advanced 12, Ring.write_eq_some_iff.mpr ?_, hnext⟩
  rw [Ring.writes, hunits12, hpre, hat, hnext, Ring.addr, hunits]
  exact ⟨henable, hfits, rfl, rfl⟩

end Sys2Proof.Machine
end

