-- ==== Sys2Proof/Proofs/RecordDelivery.lean ====
section
/-! PROOFS. The delivery of records (R337, R351 to R354, R512): what the state keeps where a ring takes a record and where it does not, the
event of a fault that nothing takes, and the seq of a slot's records. -/
namespace Sys2Proof.Machine
open Sys2Proof

/-! ### Rings -/

section
variable (s : State) {n : Nat} {bytes : List Byte}

@[simp] theorem State.msix_ring (v m : Nat) : (s.msix v).ring m = s.ring m := by
  obtain ⟨o, b, h⟩ := s.msix_frame v
  rw [h]
  rfl

@[simp] theorem State.emits_ring (os : List Out) (m : Nat) : (s.emits os).ring m = s.ring m := by
  rw [State.emits_eq]
  rfl

theorem State.ringSignal_ring_drops : ((s.ringSignal n).ring n).drops = (s.ring n).drops := by
  simp only [State.ringSignal]
  split <;> simp

theorem State.ringSignal_ring_ne {m : Nat} (h : m ≠ n) : (s.ringSignal n).ring m = s.ring m := by
  simp only [State.ringSignal]
  split
  next => rw [State.msix_ring, State.modRing_ring_ne _ _ h]
  next => rfl

/-- A ring that takes a record goes on as its write says, and signals. -/
theorem State.ringPut_taken (h : (s.ringPut n bytes).1 = true) : ∃ os r, (s.ring n).write s.pci.relaxedEn n bytes = some (os, r) ∧
    (s.ringPut n bytes).2 = ((s.emits os).modRing n (fun _ => r)).ringSignal n := by
  unfold State.ringPut at h ⊢
  split
  next os r hwrite =>
    rw [Option.ite_none_right_eq_some] at hwrite
    exact ⟨os, r, hwrite.2, rfl⟩
  next hwrite => simp [hwrite] at h

/-- A disabled ring, or one the endpoint may not write to, drops the record. -/
theorem State.ringPut_dropped (h : (s.ring n).enable = false ∨ s.hostUp = false) :
    s.ringPut n bytes = (false, s.modRing n Ring.drop) := by
  have hnone : (if s.hostUp then (s.ring n).write s.pci.relaxedEn n bytes else none) = none := by
    obtain hring | hhost := h
    · rw [ite_eq_right_iff]
      exact fun _ => if_neg (by simp [hring])
    · exact if_neg (by simp [hhost])
  rw [State.ringPut, hnone]

theorem State.ringPut_ring_drops (h : (s.ringPut n bytes).1 = true) : ((s.ringPut n bytes).2.ring n).drops = (s.ring n).drops := by
  obtain ⟨os, r, hwrite, hstate⟩ := s.ringPut_taken h
  obtain ⟨-, -, -, rfl⟩ := Ring.write_eq_some_iff.mp hwrite
  rw [hstate, State.ringSignal_ring_drops, State.modRing_ring, Ring.advanced]

theorem State.ringPut_ring_ne (h : (s.ringPut n bytes).1 = true) {m : Nat} (hne : m ≠ n) : (s.ringPut n bytes).2.ring m = s.ring m := by
  obtain ⟨os, r, -, hstate⟩ := s.ringPut_taken h
  rw [hstate, State.ringSignal_ring_ne _ hne, State.modRing_ring_ne _ _ hne, State.emits_ring]

end

/-! ### Faults that nothing takes (R351, R512) -/

theorem State.collPut_disabled {s : State} {k : Nat} (h : (s.coll k).enable = false) (bytes : List Byte) :
    s.collPut k bytes = (false, s) := by simp [State.collPut, h]

@[simp] theorem State.msix_events (s : State) (v : Nat) : (s.msix v).pci.events = s.pci.events := by
  obtain ⟨o, b, h⟩ := s.msix_frame v
  rw [h]

theorem bit_add_two_pow {v i : Nat} (h : bit v i = false) : bit (v + 2 ^ i) i = true := by
  simp only [bit, Nat.shiftRight_eq_div_pow, beq_eq_false_iff_ne, beq_iff_eq] at *
  rw [Nat.add_div_right _ (Nat.two_pow_pos i)]
  omega

theorem State.bit_devEvent (s : State) (i : Nat) : bit (s.devEvent i).pci.events i = true := by
  unfold State.devEvent
  split
  next hset => exact hset
  next hclear =>
    rw [State.msix_events]
    exact bit_add_two_pow (Bool.not_eq_true _ ▸ hclear)

/-- The state that has numbered a fault and holds its record, before the record goes out. -/
def State.recorded (s : State) (f : FaultInfo) : State :=
  { s with od := { s.od with faultSeq := s.od.faultSeq + 1, lastRecord := faultRecord f s.od.faultSeq } }

theorem State.raise_eq (s : State) (f : FaultInfo) :
    let put := (s.recorded f).ringPut 0 (faultRecord f s.od.faultSeq)
    let coll := put.2.collPut 0 (faultRecord f s.od.faultSeq)
    s.raise f = if put.1 || coll.1 then coll.2 else coll.2.devEvent 1 := rfl

theorem State.raise_untaken {s : State} (f : FaultInfo) (hring : (s.ring 0).enable = false) (hcoll : (s.coll 0).enable = false) :
    bit (s.raise f).pci.events 1 = true := by
  have hput := (s.recorded f).ringPut_dropped (n := 0) (bytes := faultRecord f s.od.faultSeq) (.inl hring)
  have hcollPut := State.collPut_disabled (s := (s.recorded f).modRing 0 Ring.drop) (k := 0) hcoll (faultRecord f s.od.faultSeq)
  rw [State.raise_eq, hput, hcollPut]
  exact State.bit_devEvent _ 1

/-! ### The seq of a slot's stream records (R337) -/

@[simp] theorem State.route_slots (s : State) (n ty : Nat) (bytes : List Byte) : (s.route n ty bytes).slots = s.slots := by
  have hring (t : State) (m : Nat) : (t.ringPut m bytes).2.slots = t.slots := by
    obtain ⟨o, r, b, h⟩ := t.ringPut_frame m bytes
    rw [h]
  have hcoll (t : State) (k : Nat) : (t.collPut k bytes).2.slots = t.slots := by
    obtain ⟨o, c, h⟩ := t.collPut_frame k bytes
    rw [h]
  unfold State.route
  dsimp only
  split <;> split <;> simp only [hring, hcoll]

theorem State.streamOutWith_seq (s : State) (n ty pts : Nat) (chain body : List Byte) :
    ((s.streamOutWith n ty pts chain body).slot n).chain.seq = ((s.slot n).chain.seq + 1) % 2 ^ 32 := by
  unfold State.streamOutWith
  dsimp only
  split
  next => simp [State.modChain]
  next => rw [State.slot, State.route_slots, ← State.slot, State.modChain, State.modSlot_slot]

end Sys2Proof.Machine
end

