-- ==== Sys2Proof/Proofs/RingWrites.lean ====
section
/-! PROOFS. The statement on ring writes, stream records and fault records. -/
namespace Sys2Proof.Proofs
open Sys2Proof Sys2Proof.Machine

/-- Settles O40: a ring's write by its places and the condition under which it fits, a record by the fields of its layout, a raised fault by
what takes it. -/
theorem ringWrites : Obligations.RingWrites := by
  unfold Obligations.RingWrites
  refine ⟨⟨?taken, fun s n bytes => s.ringPut_dropped,
    fun s n bytes htaken => ⟨s.ringPut_ring_drops htaken, fun m => s.ringPut_ring_ne htaken⟩, ?worked⟩,
    ?stream, fun f seq => ⟨faultRecord_length f seq, faultRecord_fields f seq⟩, ?raised,
    fun s n ty pts body => s.streamOutWith_seq n ty pts _ body⟩
  case taken =>
    intro ro n r r' bytes os hlow hhigh hhead htail hwhole hlen _ hwrite
    obtain ⟨henable, hfits, rfl, rfl⟩ := Ring.write_eq_some_iff.mp hwrite
    have hsize : r.Sized := ⟨hlow, hhigh⟩
    have hused := hfits.used_advanced hsize htail
    have hskip := r.skip_le (len := bytes.length / 32) (by omega)
    have hat := r.recordAt_eq (Nat.le_trans hfits.len_le hsize.units_le)
    refine ⟨henable, hused ▸ hfits.1, fun hlost => hused ▸ hfits.2 hlost, rfl, rfl, rfl,
      ⟨r.skip (bytes.length / 32), by omega, Ring.advanced_head, hused, fun ⟨hlost, hnone⟩ => ?plain⟩,
      ⟨r.preWrites ro n (bytes.length / 32), by rw [← hat]; rfl, fun hlost => Ring.mem_preWrites.mpr (.inl ⟨hlost, rfl⟩),
        fun o ho => ?records⟩,
      fun a bs f => hfits.write_within hsize hwhole⟩
    case plain =>
      rw [Ring.writes, Ring.preWrites_eq_nil hlost hnone, Ring.recordAt_of_skip hhead hnone, List.nil_append]
    case records =>
      obtain ⟨-, rfl⟩ | ⟨-, rfl⟩ := Ring.mem_preWrites.mp ho <;> exact ⟨_, _, rfl⟩
  case worked =>
    intro n r bytes henable hsize hhead htail hlost hlen
    exact Ring.write_worked henable hsize hhead htail hlost hlen
  case stream =>
    intro slot ty seq pts chain body hbody hslot hty
    obtain ⟨htype, hslotField, hlength, hseq, hpts⟩ := streamRecord_fields slot ty seq pts chain body
    rw [Nat.mod_eq_of_lt (streamUnits_lt body hbody)] at hlength
    have hbytes := streamRecord_length slot ty seq pts chain body
    exact ⟨hbytes ▸ Nat.mul_mod_right 32 _, hlength ▸ hbytes, htype.trans (Nat.mod_eq_of_lt hty), hslotField.trans (Nat.mod_eq_of_lt hslot),
      hseq, hpts, streamRecord_body .., streamRecord_chain slot ty seq pts chain body⟩
  case raised =>
    intro s f
    exact ⟨s.raise_faultSeq f, s.raise_lastRecord f, s.raise_mem f, s.raise_cores f, s.raise_ctxs f, s.raise_slots f, s.raise_tkp f,
      s.raise_pending f, State.raise_untaken f⟩

end Sys2Proof.Proofs
end

