-- ==== Sys2Proof/Proofs/SaddleAddresses.lean ====
section
/-! PROOFS. DRAM addresses (R362), the partner page (R363) and the lines of a range (R384). -/
namespace Sys2Proof.Machine
open Sys2Proof

/-! ### The fields of an address (R362, R373) -/

theorem bankOf_lt (a : Nat) : bankOf a < 32 := Nat.mod_lt _ (by decide)

theorem chanOf_lt (a : Nat) : chanOf a < 64 := Nat.mod_lt _ (by decide)

theorem rowOf_lt {a : Nat} (h : a < saddleSize) : rowOf a < 4096 := by
  simp only [saddleSize] at h
  simp only [rowOf]
  omega

theorem cacheSet_lt (a : Nat) : cacheSet a < 1024 :=
  Nat.xor_lt_two_pow (n := 10) (Nat.mod_lt _ (by decide)) (Nat.mod_lt _ (by decide))

theorem address_eq_fields (a : Nat) :
    a = a % 64 + bankOf a * 64 + a / 2048 % 32 * 2048 + chanOf a * 65536 + rowOf a * 2 ^ 22 := by
  simp only [bankOf, chanOf, rowOf, pageSize]
  omega

theorem chanOf_page (p : Nat) : chanOf (p * pageSize) = p % 64 := by
  rw [chanOf, Nat.mul_div_cancel _ (by decide)]

theorem rowOf_page (p : Nat) : rowOf (p * pageSize) = p / 64 := by
  simp only [rowOf, pageSize]
  omega

/-! ### The partner page (R363) -/

/-- A mask that changes nothing is empty. -/
theorem eq_zero_of_xor_eq_left {p k : Nat} (h : p ^^^ k = p) : k = 0 := by
  rw [← Nat.zero_xor k, ← Nat.xor_self p, Nat.xor_assoc, h, Nat.xor_self]

section
variable (s : State) (p : Nat)

theorem State.partner_of_both_dies (h : s.mem.lostDie = none) : s.partner p = p ^^^ 32 := by
  rw [State.partner, if_pos h]

theorem State.partner_lt (h : s.mem.lostDie = none) (hp : p < 2 ^ 18) : s.partner p < 2 ^ 18 :=
  s.partner_of_both_dies p h ▸ Nat.xor_lt_two_pow hp (by decide)

theorem State.partner_partner : s.partner (s.partner p) = p := by
  rw [State.partner, State.partner, Nat.xor_assoc, Nat.xor_self, Nat.xor_zero]

theorem State.partner_ne : s.partner p ≠ p := by
  intro heq
  have hmask := eq_zero_of_xor_eq_left heq
  split at hmask <;> cases hmask

/-- With both dies the partner has the row of its page: only bit 5 of the page number differs. -/
theorem State.partner_row (h : s.mem.lostDie = none) : s.partner p / 64 = p / 64 := by
  rw [s.partner_of_both_dies p h, Nat.xor_div_two_pow (n := 6)]
  exact Nat.xor_zero _

theorem State.partner_die (h : s.mem.lostDie = none) : dieOf (s.partner p % 64) = 1 - dieOf (p % 64) := by
  have hdie : s.partner p / 32 % 2 = (p / 32 + 1) % 2 := by
    have hparity := Nat.xor_mod_two_eq_one (a := p / 32) (b := 1)
    rw [s.partner_of_both_dies p h, Nat.xor_div_two_pow (n := 5)]
    change (p / 32 ^^^ 1) % 2 = (p / 32 + 1) % 2
    omega
  simp only [dieOf]
  omega

end

/-! ### Lines (R384) -/

theorem inSaddle_iff (a : Nat) : inSaddle a = true ↔ a < 0x400000000 := decide_eq_true_iff

theorem lineLen_cases (a : Nat) : lineLen a = 32 ∨ lineLen a = 64 := by
  unfold lineLen
  split
  · exact .inl rfl
  · exact .inr rfl

theorem lineLen_of_inSaddle {a : Nat} (h : inSaddle a = true) : lineLen a = 64 := by
  rw [inSaddle_iff] at h
  have hcores : inCores a = false := by simp only [inCores, decide_eq_false_iff_not]; omega
  rw [lineLen, hcores, if_neg Bool.false_ne_true]

/-- The windows of the cores begin and end between lines. -/
theorem lineLen_lineStart (a : Nat) : lineLen (a / lineLen a * lineLen a) = lineLen a := by
  have hcores : inCores (a / lineLen a * lineLen a) = inCores a := by
    obtain h | h := lineLen_cases a <;> simp only [h, inCores, decide_eq_decide] <;> omega
  rw [lineLen, hcores, ← lineLen]

theorem inSaddle_lineStart (a : Nat) : inSaddle (a / lineLen a * lineLen a) = inSaddle a := by
  rw [Bool.eq_iff_iff, inSaddle_iff, inSaddle_iff]
  obtain h | h := lineLen_cases a <;> rw [h] <;> omega

/-- A range that does not leave its line has that line only. -/
theorem linesOf_within {a n : Nat} (hn : n ≠ 0) (h : a % lineLen a + n ≤ lineLen a) : linesOf a n = [a / lineLen a * lineLen a] := by
  have hlast : (a + n - 1) / lineLen a = a / lineLen a := by
    obtain hl | hl := lineLen_cases a <;> rw [hl] at h ⊢ <;> omega
  simp only [linesOf, if_neg hn, hlast, Nat.sub_self, upto, List.map_cons, List.map_nil]

theorem partIn_within {line len a : Nat} {bs : List Byte} (hlow : line ≤ a) (hhigh : a + bs.length ≤ line + len) :
    partIn line len a bs = (a, bs) := by
  simp [partIn, Nat.max_eq_left hlow, Nat.min_eq_left hhigh]

/-- A store within one line is one line's write. -/
theorem State.store_within (s : State) (ways : Nat) {a : Nat} {bs : List Byte} (hbs : bs ≠ [])
    (h : a % lineLen a + bs.length ≤ lineLen a) :
    s.store ways a bs = s.writeLine ways (a / lineLen a * lineLen a) a bs := by
  have hline := Nat.div_add_mod' a (lineLen a)
  rw [State.store, linesOf_within (mt List.length_eq_zero_iff.mp hbs) h]
  simp only [List.foldl_cons, List.foldl_nil, lineLen_lineStart]
  rw [partIn_within (by omega) (by omega)]

end Sys2Proof.Machine
end

