-- ==== Sys2Proof/Proofs/MemoryAsSeen.lean ====
section
/-! PROOFS. Memory as agents see it (R387): a byte is that of its line's open merge entry where the entry holds one, else storage's; and
the operations of the cache and of DRAM that leave all of it as it is. -/
namespace Sys2Proof.Machine
open Sys2Proof

/-! ### The bytes of a merge entry (R387) -/

/-- The byte that an entry's list holds at an offset. -/
def byteAt (t : List (Nat × Byte)) (k : Nat) : Option Byte := (t.find? (fun b => b.1 == k)).map (·.2)

@[simp] theorem byteAt_nil (k : Nat) : byteAt [] k = none := rfl

theorem byteAt_cons (c : Nat × Byte) (t : List (Nat × Byte)) (k : Nat) :
    byteAt (c :: t) k = if c.1 = k then some c.2 else byteAt t k := by
  by_cases h : c.1 = k <;> simp [byteAt, h]

theorem byteAt_tput (t : List (Nat × Byte)) (j k : Nat) (v : Byte) : byteAt (tput t k v) j = if k = j then some v else byteAt t j := by
  induction t with
  | nil => exact byteAt_cons ..
  | cons c t ih =>
    rw [tput]
    split
    · exact byteAt_cons ..
    · split
      next hk => by_cases hj : k = j <;> simp [byteAt_cons, ← hk, hj]
      next hk =>
        by_cases hj : k = j
        · subst hj; simp [byteAt_cons, ih, Ne.symm hk]
        · simp [byteAt_cons, ih, hj]

theorem mergeBytes_cons (old : List (Nat × Byte)) (off : Nat) (b : Byte) (bs : List Byte) :
    mergeBytes old off (b :: bs) = mergeBytes (tput old off b) (off + 1) bs := rfl

theorem byteAt_mergeBytes_out (old : List (Nat × Byte)) (off : Nat) (bs : List Byte) {k : Nat} (h : k < off ∨ off + bs.length ≤ k) :
    byteAt (mergeBytes old off bs) k = byteAt old k := by
  induction bs generalizing old off with
  | nil => rfl
  | cons b bs ih =>
    rw [List.length_cons] at h
    rw [mergeBytes_cons, ih _ _ (by omega), byteAt_tput, if_neg (by omega)]

theorem byteAt_mergeBytes_in (old : List (Nat × Byte)) (off : Nat) (bs : List Byte) {i : Nat} (h : i < bs.length) :
    byteAt (mergeBytes old off bs) (off + i) = some bs[i] := by
  induction bs generalizing old off i with
  | nil => cases h
  | cons b bs ih =>
    rw [mergeBytes_cons]
    cases i with
    | zero => exact (byteAt_mergeBytes_out _ _ _ (.inl (by omega))).trans ((byteAt_tput ..).trans (if_pos rfl))
    | succ i => rw [show off + (i + 1) = off + 1 + i by omega]; exact ih _ _ (Nat.lt_of_succ_lt_succ h)

/-! ### One byte as it is seen -/

/-- The open merge entry of an address's line. -/
def State.openEntry (s : State) (x : Nat) : Option MergeEntry := if inSaddle x then s.entryOf (x / 64 * 64) else none

theorem State.openEntry_of_inSaddle (s : State) {x : Nat} (h : inSaddle x = true) : s.openEntry x = s.entryOf (x / 64 * 64) := if_pos h

theorem State.openEntry_congr_line (s : State) {x y : Nat} (h : x / 64 = y / 64) : s.openEntry x = s.openEntry y := by
  have hsaddle : inSaddle x = inSaddle y := by rw [Bool.eq_iff_iff, inSaddle_iff, inSaddle_iff]; omega
  rw [State.openEntry, hsaddle, h, ← State.openEntry]

/-- The byte at an address as a reader sees it. -/
def State.seenByte (s : State) (x : Nat) : Byte := ((s.openEntry x).bind (fun m => byteAt m.bytes (x % 64))).getD (s.rdByte x)

theorem State.seen_eq_map (s : State) (a n : Nat) : s.seen a n = (upto a n).map s.seenByte := by
  refine List.map_congr_left fun x _ => ?_
  rw [State.seenByte, State.openEntry]
  generalize (if inSaddle x = true then s.entryOf (x / 64 * 64) else none) = entry
  cases entry <;> rfl

theorem State.seen_one (s : State) (x : Nat) : s.seen x 1 = [s.seenByte x] := s.seen_eq_map x 1

theorem State.seen_eq {s : State} {a : Nat} {bs : List Byte} (h : ∀ i (hi : i < bs.length), s.seenByte (a + i) = bs[i]) :
    s.seen a bs.length = bs := by
  rw [State.seen_eq_map, upto_eq_range']
  refine List.ext_getElem (by simp) fun i _ hi => ?_
  simpa using h i hi

theorem State.seenByte_of_no_entry {s : State} {x : Nat} (h : s.openEntry x = none) : s.seenByte x = s.rdByte x := by
  rw [State.seenByte, h]; rfl

theorem State.seenByte_of_entry {s : State} {x : Nat} {m : MergeEntry} (h : s.openEntry x = some m) :
    s.seenByte x = (byteAt m.bytes (x % 64)).getD (s.rdByte x) := by
  rw [State.seenByte, h]; rfl

/-! ### What leaves memory as it is seen -/

/-- `t` has the stored bytes and the merge entries of `s`, and the pages and dies on which duplicates rest. -/
structure State.SameMemory (s t : State) : Prop where
  bytes : t.mem.bytes = s.mem.bytes
  lostDie : t.mem.lostDie = s.mem.lostDie
  tkp : t.tkp = s.tkp
  merges : ∀ n, (t.chan n).merges = (s.chan n).merges

namespace State.SameMemory
variable {s t u : State}

theorem refl (s : State) : s.SameMemory s := ⟨rfl, rfl, rfl, fun _ => rfl⟩

theorem trans (h : s.SameMemory t) (h' : t.SameMemory u) : s.SameMemory u :=
  ⟨h'.bytes.trans h.bytes, h'.lostDie.trans h.lostDie, h'.tkp.trans h.tkp, fun n => (h'.merges n).trans (h.merges n)⟩

theorem rdByte (h : s.SameMemory t) (x : Nat) : t.rdByte x = s.rdByte x := by rw [State.rdByte, h.bytes, ← State.rdByte]

theorem entryOf (h : s.SameMemory t) (l : Nat) : t.entryOf l = s.entryOf l := by rw [State.entryOf, h.merges, ← State.entryOf]

theorem openEntry (h : s.SameMemory t) (x : Nat) : t.openEntry x = s.openEntry x := by
  rw [State.openEntry, h.entryOf, ← State.openEntry]

theorem seenByte (h : s.SameMemory t) (x : Nat) : t.seenByte x = s.seenByte x := by
  rw [State.seenByte, h.openEntry, h.rdByte, ← State.seenByte]

theorem classOf (h : s.SameMemory t) (a : Nat) : t.classOf a = s.classOf a := by
  rw [State.classOf, State.page, h.tkp, ← State.page, ← State.classOf]

theorem partner (h : s.SameMemory t) (p : Nat) : t.partner p = s.partner p := by
  rw [State.partner, h.lostDie, ← State.partner]

end State.SameMemory

section
variable (s : State) (line : Nat)

theorem State.sameMemory_modSlice (n : Nat) (f : SliceCnt → SliceCnt) : s.SameMemory (s.modSlice n f) := ⟨rfl, rfl, rfl, fun _ => rfl⟩

theorem State.sameMemory_setFails (b : Bool) : s.SameMemory (s.setFails line b) := ⟨rfl, rfl, rfl, fun _ => rfl⟩

theorem State.sameMemory_putLine (c : Option CacheLine) : s.SameMemory (s.putLine line c) := ⟨rfl, rfl, rfl, fun _ => rfl⟩

theorem State.sameMemory_modCached (f : CacheLine → CacheLine) : s.SameMemory (s.modCached line f) := ⟨rfl, rfl, rfl, fun _ => rfl⟩

theorem State.sameMemory_modChan (n : Nat) {f : DramChan → DramChan} (hf : ∀ c, (f c).merges = c.merges) :
    s.SameMemory (s.modChan n f) := by
  refine ⟨rfl, rfl, rfl, fun m => ?_⟩
  by_cases h : m = n
  · rw [h, State.modChan_chan, hf]
  · rw [State.modChan_chan_ne _ _ h]

theorem State.sameMemory_dramWrite : s.SameMemory (s.dramWrite line) := by
  have hchan := s.sameMemory_modChan (chanOf line) (f := fun c => { c with writeBytes := (c.writeBytes + 64) % 2 ^ 64 }) fun _ => rfl
  unfold State.dramWrite
  dsimp only
  split
  · exact hchan.trans (State.sameMemory_modChan _ _ fun _ => rfl)
  · exact hchan

theorem State.sameMemory_freshLine : s.SameMemory (s.freshLine line) := by
  unfold State.freshLine
  dsimp only
  split
  · exact (s.sameMemory_setFails line false).trans (State.sameMemory_setFails ..)
  · exact s.sameMemory_setFails line false

/-- A line written to DRAM with a fresh check: traffic and checks alone. -/
theorem State.sameMemory_dramWrite_freshLine : s.SameMemory ((s.dramWrite line).freshLine line) :=
  (s.sameMemory_dramWrite line).trans (State.sameMemory_freshLine ..)

theorem State.sameMemory_writeBack (c : CacheLine) : s.SameMemory (s.writeBack line c) :=
  ((s.sameMemory_dramWrite line).trans (State.sameMemory_setFails ..)).trans (State.sameMemory_modSlice ..)

theorem State.sameMemory_cacheAlloc (ways : Nat) (dirty : Bool) : s.SameMemory (s.cacheAlloc line ways dirty) := by
  unfold State.cacheAlloc
  dsimp only
  split
  · exact s.sameMemory_putLine ..
  · split
    · exact .refl s
    · refine .trans ?_ ((State.sameMemory_putLine ..).trans (State.sameMemory_putLine ..))
      split
      · exact s.sameMemory_writeBack ..
      · exact .refl s

variable {s line}

theorem State.sameMemory_of_lookup {hit : Bool} {t : State} (h : s.lookup line = (hit, t)) : s.SameMemory t := by
  unfold State.lookup at h
  split at h <;> cases h
  · exact (s.sameMemory_putLine ..).trans (State.sameMemory_modSlice ..)
  · exact s.sameMemory_modSlice ..

/-- A lookup does not touch the check of a cached copy. -/
theorem State.cacheBad_of_lookup {hit : Bool} {t : State} (h : s.lookup line = (hit, t)) : t.cacheBad line = s.cacheBad line := by
  unfold State.lookup at h
  split at h <;> cases h
  next c hc => simp [State.cacheBad, State.putLine, State.modSlice, hc]
  next => rfl

end

end Sys2Proof.Machine
end

