-- ==== Sys2Proof/Proofs/StoredBytes.lean ====
section
/-! PROOFS. What a write of bytes within a line changes of memory as agents see it (R363, R373, R386, R387). -/
namespace Sys2Proof.Machine
open Sys2Proof

/-- `x` is the duplicate of an address of `[a, a + n)` on a Class P page (R363). -/
def State.DuplicateOf (s : State) (a n x : Nat) : Prop :=
  s.classOf a = 1 ∧ s.partner (pageOf a) * pageSize + a % pageSize ≤ x ∧ x < s.partner (pageOf a) * pageSize + a % pageSize + n

/-- From `s` to `t` agents come to see `bs` at `a`, and else what they saw, but for a Class P duplicate. -/
structure State.Stores (s t : State) (a : Nat) (bs : List Byte) : Prop where
  written : ∀ i (hi : i < bs.length), t.seenByte (a + i) = bs[i]
  kept : ∀ x, ¬ (a ≤ x ∧ x < a + bs.length) → ¬ s.DuplicateOf a bs.length x → t.seenByte x = s.seenByte x

section
variable {s t u : State} {a : Nat} {bs : List Byte}

theorem State.SameMemory.duplicateOf_iff (h : s.SameMemory t) (n x : Nat) : t.DuplicateOf a n x ↔ s.DuplicateOf a n x := by
  rw [State.DuplicateOf, h.classOf, h.partner, ← State.DuplicateOf]

theorem State.Stores.then_same (h : s.Stores t a bs) (h' : t.SameMemory u) : s.Stores u a bs :=
  ⟨fun i hi => (h'.seenByte _).trans (h.written i hi), fun x hx hd => (h'.seenByte x).trans (h.kept x hx hd)⟩

theorem State.SameMemory.then_stores (h : s.SameMemory t) (h' : t.Stores u a bs) : s.Stores u a bs :=
  ⟨h'.written, fun x hx hd => (h'.kept x hx (mt (h.duplicateOf_iff _ x).mp hd)).trans (h.seenByte x)⟩

/-! ### Storage -/

theorem State.rdByte_wrBytes_in {i : Nat} (hi : i < bs.length) : (s.wrBytes a bs).rdByte (a + i) = bs[i] :=
  tget_wrList_in s.mem.bytes a bs i hi

theorem State.rdByte_wrBytes_out {x : Nat} (h : ¬ (a ≤ x ∧ x < a + bs.length)) : (s.wrBytes a bs).rdByte x = s.rdByte x :=
  tget_wrList_out s.mem.bytes a bs x (by omega)

theorem State.putBytes_of_classP (h : s.classOf a = 1) :
    s.putBytes a bs = (s.wrBytes a bs).wrBytes (s.partner (pageOf a) * pageSize + a % pageSize) bs := if_pos h

theorem State.putBytes_of_not_classP (h : s.classOf a ≠ 1) : s.putBytes a bs = s.wrBytes a bs := if_neg h

@[simp] theorem State.putBytes_entryOf (l : Nat) : (s.putBytes a bs).entryOf l = s.entryOf l := by
  by_cases h : s.classOf a = 1
  · rw [State.putBytes_of_classP h]; rfl
  · rw [State.putBytes_of_not_classP h]; rfl

/-- The duplicate lies in another page, so that its write leaves the bytes just stored. -/
theorem State.putBytes_rdByte_in (hpage : a % pageSize + bs.length ≤ pageSize) {i : Nat} (hi : i < bs.length) :
    (s.putBytes a bs).rdByte (a + i) = bs[i] := by
  by_cases h : s.classOf a = 1
  · have hne := s.partner_ne (pageOf a)
    rw [State.putBytes_of_classP h, State.rdByte_wrBytes_out, State.rdByte_wrBytes_in hi]
    generalize s.partner (pageOf a) = p at hne ⊢
    simp only [pageOf, pageSize] at hne hpage ⊢
    omega
  · rw [State.putBytes_of_not_classP h, State.rdByte_wrBytes_in hi]

theorem State.putBytes_rdByte_out {x : Nat} (hx : ¬ (a ≤ x ∧ x < a + bs.length)) (hd : ¬ s.DuplicateOf a bs.length x) :
    (s.putBytes a bs).rdByte x = s.rdByte x := by
  by_cases h : s.classOf a = 1
  · rw [State.putBytes_of_classP h, State.rdByte_wrBytes_out fun hr => hd ⟨h, hr⟩, State.rdByte_wrBytes_out hx]
  · rw [State.putBytes_of_not_classP h, State.rdByte_wrBytes_out hx]

/-- Bytes put to storage are seen where no merge entry lies over them. -/
theorem State.stores_putBytes (hline : a % 64 + bs.length ≤ 64) (hopen : s.openEntry a = none) : s.Stores (s.putBytes a bs) a bs where
  written i hi := by
    have hentry : (s.putBytes a bs).openEntry (a + i) = none := by
      rw [State.openEntry_congr_line _ (y := a) (by omega), State.openEntry, State.putBytes_entryOf, ← State.openEntry, hopen]
    rw [State.seenByte_of_no_entry hentry, State.putBytes_rdByte_in (by simp only [pageSize]; omega) hi]
  kept x hx hd := by
    simp only [State.seenByte, State.openEntry, State.putBytes_entryOf, State.putBytes_rdByte_out hx hd]

/-! ### The channel's merge buffer (R387) -/

/-- The entry that a narrow write opens for the line of its address. -/
def MergeEntry.ofWrite (a : Nat) (bs : List Byte) : MergeEntry := ⟨a / 64 * 64, mergeBytes [] (a % 64) bs⟩

/-- The state with one more open entry in its channel. -/
def State.withEntry (s : State) (m : MergeEntry) : State := s.modChan (chanOf m.line) (fun c => { c with merges := c.merges ++ [m] })

/-- A narrow write that misses opens an entry where its line has none and the buffer has room. -/
theorem State.mergeWrite_opens (hnone : s.entryOf (a / 64 * 64) = none)
    (hroom : (s.chan (chanOf (a / 64 * 64))).merges.length < 16) :
    s.mergeWrite (a / 64 * 64) (a - a / 64 * 64) bs = s.withEntry (.ofWrite a bs) := by
  rw [State.mergeWrite, hnone, show a - a / 64 * 64 = a % 64 by omega]
  dsimp only
  split
  · rw [if_neg (Nat.not_le.mpr hroom)]; rfl
  · rfl

theorem State.withEntry_entryOf_same {m : MergeEntry} (hnone : s.entryOf m.line = none) : (s.withEntry m).entryOf m.line = some m := by
  rw [State.entryOf] at hnone
  simp [State.withEntry, State.entryOf, List.find?_append, hnone]

theorem State.withEntry_entryOf_ne {m : MergeEntry} {l : Nat} (h : l ≠ m.line) : (s.withEntry m).entryOf l = s.entryOf l := by
  rw [State.withEntry, State.entryOf]
  by_cases hch : chanOf l = chanOf m.line
  · simp [hch, State.entryOf, List.find?_append, h.symm]
  · rw [State.modChan_chan_ne _ _ hch, ← State.entryOf]

theorem State.withEntry_rdByte (m : MergeEntry) (x : Nat) : (s.withEntry m).rdByte x = s.rdByte x := rfl

/-- An entry shows its bytes over its line, and storage elsewhere in it. -/
theorem State.stores_withEntry (hsaddle : inSaddle a = true) (hline : a % 64 + bs.length ≤ 64) (hopen : s.openEntry a = none) :
    s.Stores (s.withEntry (.ofWrite a bs)) a bs := by
  have hnone : s.entryOf (MergeEntry.ofWrite a bs).line = none := (s.openEntry_of_inSaddle hsaddle).symm.trans hopen
  have hnew : ∀ x, x / 64 = a / 64 → (s.withEntry (.ofWrite a bs)).openEntry x = some (.ofWrite a bs) := fun x hx => by
    rw [State.openEntry_congr_line _ hx, State.openEntry_of_inSaddle _ hsaddle]
    exact State.withEntry_entryOf_same hnone
  constructor
  case written =>
    intro i hi
    have hbyte : byteAt (MergeEntry.ofWrite a bs).bytes ((a + i) % 64) = some bs[i] := by
      rw [show (a + i) % 64 = a % 64 + i by omega]
      exact byteAt_mergeBytes_in _ _ _ hi
    rw [State.seenByte_of_entry (hnew _ (by omega)), hbyte, Option.getD_some]
  case kept =>
    intro x hx _
    by_cases hin : x / 64 = a / 64
    · have hbyte : byteAt (MergeEntry.ofWrite a bs).bytes (x % 64) = none := byteAt_mergeBytes_out _ _ _ (by omega)
      rw [State.seenByte_of_entry (hnew x hin), hbyte, Option.getD_none, State.withEntry_rdByte,
        State.seenByte_of_no_entry ((s.openEntry_congr_line hin).trans hopen)]
    · have hother : x / 64 * 64 ≠ (MergeEntry.ofWrite a bs).line := by simp only [MergeEntry.ofWrite]; omega
      rw [State.seenByte, State.openEntry, State.withEntry_entryOf_ne hother, State.withEntry_rdByte, ← State.openEntry, ← State.seenByte]

/-! ### One line written (R373, R375, R385 to R387) -/

theorem State.closeLine_of_no_entry {line : Nat} (e : ReadErrors) (h : s.entryOf line = none) : s.closeLine line e = s := by
  rw [State.closeLine, h]

/-- A full line: in the cache or in DRAM, its bytes are those put to storage. -/
theorem State.sameMemory_writeLine_full (ways : Nat) {line : Nat} (hsaddle : inSaddle line = true) (hfull : lineLen line ≤ bs.length)
    (hnone : s.entryOf line = none) : (s.putBytes a bs).SameMemory (s.writeLine ways line a bs) := by
  simp only [State.writeLine, hsaddle, hfull, decide_true, if_true, State.closeLine_of_no_entry _ hnone]
  split
  next t hlookup =>
    refine (State.sameMemory_of_lookup hlookup).trans ?_
    split
    · exact (State.sameMemory_dramWrite_freshLine ..).trans (State.sameMemory_modCached ..)
    · exact State.sameMemory_modCached ..
  next t hlookup =>
    refine (State.sameMemory_of_lookup hlookup).trans ?_
    split
    · exact State.sameMemory_dramWrite_freshLine ..
    · split
      · exact (State.sameMemory_dramWrite_freshLine ..).trans (State.sameMemory_cacheAlloc ..)
      · exact State.sameMemory_cacheAlloc ..

/-- A narrower write: into the cached copy where that is good, else into the merge buffer. -/
theorem State.stores_writeLine_narrow (ways : Nat) (hsaddle : inSaddle a = true) (hline : a % 64 + bs.length ≤ 64)
    (hnarrow : ¬ lineLen (a / 64 * 64) ≤ bs.length) (hopen : s.openEntry a = none) (hgood : s.cacheBad (a / 64 * 64) = false)
    (hroom : (s.chan (chanOf (a / 64 * 64))).merges.length < 16) : s.Stores (s.writeLine ways (a / 64 * 64) a bs) a bs := by
  have hstart : inSaddle (a / 64 * 64) = true := by rw [inSaddle_iff] at hsaddle ⊢; omega
  simp only [State.writeLine, hstart, hnarrow, decide_false, if_true, Bool.false_eq_true, if_false]
  split
  next t hlookup =>
    have hsame := State.sameMemory_of_lookup hlookup
    have hput := hsame.then_stores (State.stores_putBytes hline ((hsame.openEntry a).trans hopen))
    rw [State.cacheBad_of_lookup hlookup, hgood, if_neg Bool.false_ne_true]
    split
    · exact hput.then_same (State.sameMemory_dramWrite_freshLine ..)
    · exact hput.then_same (State.sameMemory_modCached ..)
  next t hlookup =>
    have hsame := State.sameMemory_of_lookup hlookup
    have hnone : t.entryOf (a / 64 * 64) = none := (hsame.entryOf _).trans ((s.openEntry_of_inSaddle hsaddle).symm.trans hopen)
    rw [State.mergeWrite_opens hnone (hsame.merges _ ▸ hroom)]
    exact hsame.then_stores (State.stores_withEntry hsaddle hline ((hsame.openEntry a).trans hopen))

/-- A line of a scratchpad or a cluster buffer whose check holds. -/
theorem State.stores_writeLine_onchip (ways : Nat) {line : Nat} (hline : a % 64 + bs.length ≤ 64) (hstart : inSaddle line = false)
    (hopen : s.openEntry a = none) (hgood : s.lineFails line = false) : s.Stores (s.writeLine ways line a bs) a bs := by
  have hput := State.stores_putBytes hline hopen
  simp only [State.writeLine, hstart, hgood, Bool.false_eq_true, if_false]
  split
  · exact hput.then_same (State.sameMemory_setFails ..)
  · exact hput

/-- A store within a line with no failing check and no open entry, in a channel with room for one. -/
theorem State.stores_store (ways : Nat) (hbs : bs ≠ []) (hfits : a % lineLen a + bs.length ≤ lineLen a)
    (hgood : s.lineFails (a / lineLen a * lineLen a) = false) (hcached : s.cacheBad (a / lineLen a * lineLen a) = false)
    (hnone : s.entryOf (a / lineLen a * lineLen a) = none)
    (hroom : (s.chan (chanOf (a / lineLen a * lineLen a))).merges.length < 16) : s.Stores (s.store ways a bs) a bs := by
  have hline : a % 64 + bs.length ≤ 64 := by obtain hl | hl := lineLen_cases a <;> rw [hl] at hfits <;> omega
  rw [State.store_within s ways hbs hfits]
  cases hsaddle : inSaddle a with
  | false =>
    have hopen : s.openEntry a = none := if_neg (Bool.eq_false_iff.mp hsaddle)
    exact State.stores_writeLine_onchip ways hline ((inSaddle_lineStart a).trans hsaddle) hopen hgood
  | true =>
    have hlen := lineLen_of_inSaddle hsaddle
    have hopen : s.openEntry a = none := (s.openEntry_of_inSaddle hsaddle).trans (hlen ▸ hnone)
    by_cases hfull : lineLen (a / lineLen a * lineLen a) ≤ bs.length
    · exact (State.stores_putBytes hline hopen).then_same
        (State.sameMemory_writeLine_full ways ((inSaddle_lineStart a).trans hsaddle) hfull hnone)
    · rw [hlen] at hfull hcached hroom ⊢
      exact State.stores_writeLine_narrow ways hsaddle hline hfull hopen hcached hroom

end

end Sys2Proof.Machine
end

