-- ==== Sys2Proof/Proofs/SaddleStores.lean ====
section
/-! PROOFS. The statement on DRAM addresses and stores. -/
namespace Sys2Proof.Proofs
open Sys2Proof Sys2Proof.Machine

/-- Settles O42: an address by its fields, the duplicate by the one bit in which its page number differs, a store by the line that it
writes. -/
theorem saddleStores : Obligations.SaddleStores := by
  unfold Obligations.SaddleStores
  refine ⟨fun a ha => ⟨address_eq_fields a, bankOf_lt a, chanOf_lt a, rowOf_lt ha, cacheSet_lt a, rfl⟩, ?duplicate, ?worked, ?stored⟩
  case duplicate =>
    intro s p hdies hp
    simp only [rowOf_page, chanOf_page]
    exact ⟨s.partner_lt p hdies hp, s.partner_partner p, s.partner_row p hdies, s.partner_die p hdies⟩
  case worked =>
    intro s hdies
    rw [State.partner_of_both_dies _ _ hdies]
    decide
  case stored =>
    intro s ways a bs hbs hfits line hgood hcached hnone hroom
    have hstore := State.stores_store ways hbs hfits hgood hcached hnone hroom
    refine ⟨State.seen_eq hstore.written, fun x hx hd => ?_⟩
    rw [State.seen_one, State.seen_one, hstore.kept x hx hd]

end Sys2Proof.Proofs
end

