-- ==== Sys2Proof/Proofs/TackCommandWord.lean ====
section
/-! PROOFS. A command of the Tack pool (R8, R414, R422): the high-word write that completes its word, the word's fields, the command
by its op, and what a refusal leaves. -/
namespace Sys2Proof.Machine
open Sys2Proof

variable {s : State} {r : Route} {high low w : Nat}

/-! ### The word (R422) -/

/-- The low word of TKP_CMD is no longer held for the route (R8). -/
def State.takenTkp (s : State) (r : Route) : State := { s with heldLow := tset none s.heldLow (latchKey r tkpCmdOff) none }

/-- The instruction of an op of TKP_CMD. -/
def tkpInstr (r : Route) (high op : Nat) : Instr :=
  if op = 0 then .allocPage r high else if op = 1 then .freePage r high else if op = 2 then .fbGet r high
  else if op = 3 then .fbTake r high else if op = 4 then .fbDrop r high else if op = 5 then .fbTakeEv r high
  else if op = 6 then .fbDropEv r high else .tkpIllegalCommand r high

theorem exec_tkpInstr (r : Route) (high op : Nat) (s : State) :
    ∃ accepts : Nat → Bool, accepts op = true ∧ exec (tkpInstr r high op) s = tkpRow accepts r high s := by
  match op with
  | 0 => exact ⟨(· == 0), rfl, rfl⟩
  | 1 => exact ⟨(· == 1), rfl, rfl⟩
  | 2 => exact ⟨(· == 2), rfl, rfl⟩
  | 3 => exact ⟨(· == 3), rfl, rfl⟩
  | 4 => exact ⟨(· == 4), rfl, rfl⟩
  | 5 => exact ⟨(· == 5), rfl, rfl⟩
  | 6 => exact ⟨(· == 6), rfl, rfl⟩
  | n + 7 => exact ⟨(fun op => decide (7 ≤ op)), decide_eq_true (Nat.le_add_left 7 n), rfl⟩

theorem tkpInstr_illegal {op : Nat} (h : 7 ≤ op) : tkpInstr r high op = .tkpIllegalCommand r high := by
  unfold tkpInstr
  repeat rw [if_neg (by omega)]

/-- The high word stands above the fields of the low word. -/
theorem tkpWord_fields (hlow : low < 2 ^ 32) (high : Nat) :
    (low + high * 2 ^ 32) % 16 = low % 16 ∧ (low + high * 2 ^ 32) / 2 ^ 32 = high ∧
    bits (low + high * 2 ^ 32) 13 4 = bits low 13 4 ∧ bits (low + high * 2 ^ 32) 15 14 = bits low 15 14 ∧
    bit (low + high * 2 ^ 32) 16 = bit low 16 := by
  simp only [bits, bit, Nat.shiftRight_eq_div_pow]
  refine ⟨by omega, by omega, by omega, by omega, congrArg (· == 1) ?_⟩
  omega

/-- The high word completes the command of the op that the held low word names. -/
theorem answers_tkpSubmit (hup : s.up = true) (hreach : s.reaches r tkpCmdOff = true) (hlow : low < 2 ^ 32) (hhigh : high < 2 ^ 32)
    (hheld : tget none s.heldLow (latchKey r tkpCmdOff) = some low) :
    Answers (tkpInstr r high (low % 16)) s ((s.takenTkp r).tkpSubmit (low + high * 2 ^ 32)) := by
  obtain ⟨accepts, haccepts, hexec⟩ := exec_tkpInstr r high (low % 16) s
  refine answers_congr (answers_whenUp hexec hup) ?_
  simp only [State.takeHeld, hheld, hreach, if_true, Nat.mod_eq_of_lt hhigh, (tkpWord_fields hlow high).1, haccepts]
  rfl

theorem State.tkpSubmit_waiting (h : s.tkp.waiting.isSome = true) :
    s.tkpSubmit w = { s with tkp := { s.tkp with blocked := s.tkp.blocked ++ [w], done := false } } := if_pos h

theorem State.tkpSubmit_idle (h : s.tkp.waiting = none) : s.tkpSubmit w = s.tkpCmd w := by
  simp only [State.tkpSubmit, h, Option.isSome_none, Bool.false_eq_true, if_false]

/-! ### The command of an op (R422) -/

theorem State.tkpCmd_alloc (h : w % 16 = 0) : s.tkpCmd w = s.cmdAlloc w := if_pos h

theorem State.tkpCmd_free (h : w % 16 = 1) : s.tkpCmd w = s.cmdFree (w / 2 ^ 32) := by
  simp [State.tkpCmd, h]

theorem State.tkpCmd_get_none (h : w % 16 = 2) (hget : s.fbGet (bits w 13 4) = none) : s.tkpCmd w = s.tkpResult 0xFFFFFFFF 2 := by
  simp [State.tkpCmd, h, hget]

theorem State.tkpCmd_get_some {k : Nat} {t : State} (h : w % 16 = 2) (hget : s.fbGet (bits w 13 4) = some (k, t)) :
    s.tkpCmd w = t.tkpResult k 0 := by
  simp [State.tkpCmd, h, hget]

theorem State.tkpCmd_take (ev : Bool) (h : w % 16 = if ev then 5 else 3) :
    s.tkpCmd w = s.cmdFb (w / 2 ^ 32) (s.fbTake (w / 2 ^ 32) ev) := by
  cases ev <;> simp [State.tkpCmd, h]

theorem State.tkpCmd_drop (ev : Bool) (h : w % 16 = if ev then 6 else 4) :
    s.tkpCmd w = s.cmdFb (w / 2 ^ 32) (s.fbDrop (w / 2 ^ 32) ev) := by
  cases ev <;> simp [State.tkpCmd, h]

theorem State.tkpCmd_illegal (h : 7 ≤ w % 16) : s.tkpCmd w = s.tkpResult 0xFFFFFFFF 3 := by
  unfold State.tkpCmd
  repeat rw [if_neg (by omega)]

/-! ### The answer where no allocation waits (R8, R422) -/

section
variable (hup : s.up = true) (hreach : s.reaches r tkpCmdOff = true) (hlow : low < 2 ^ 32) (hhigh : high < 2 ^ 32)
  (hheld : tget none s.heldLow (latchKey r tkpCmdOff) = some low) (hidle : s.tkp.waiting = none)
include hup hreach hlow hhigh hheld hidle

theorem answers_tkpCmd {t : State} (ht : (s.takenTkp r).tkpCmd (low + high * 2 ^ 32) = t) :
    Answers (tkpInstr r high (low % 16)) s t := by
  have hidle' : (s.takenTkp r).tkp.waiting = none := hidle
  exact answers_congr (answers_tkpSubmit hup hreach hlow hhigh hheld) ((State.tkpSubmit_idle hidle').trans ht)

theorem answers_allocPage (hop : low % 16 = 0) :
    Answers (.allocPage r high) s ((s.takenTkp r).cmdAlloc (low + high * 2 ^ 32)) := by
  have hcmd := answers_tkpCmd hup hreach hlow hhigh hheld hidle (State.tkpCmd_alloc ((tkpWord_fields hlow high).1.trans hop))
  rwa [hop] at hcmd

theorem answers_freePage (hop : low % 16 = 1) : Answers (.freePage r high) s ((s.takenTkp r).cmdFree high) := by
  obtain ⟨eop, ehigh, -⟩ := tkpWord_fields hlow high
  have hcmd := answers_tkpCmd hup hreach hlow hhigh hheld hidle (State.tkpCmd_free (eop.trans hop))
  rwa [hop, ehigh] at hcmd

theorem answers_fbGet_none (hop : low % 16 = 2) (hget : (s.takenTkp r).fbGet (bits low 13 4) = none) :
    Answers (.fbGet r high) s ((s.takenTkp r).tkpResult 0xFFFFFFFF 2) := by
  obtain ⟨eop, -, eslot, -⟩ := tkpWord_fields hlow high
  rw [← eslot] at hget
  have hcmd := answers_tkpCmd hup hreach hlow hhigh hheld hidle (State.tkpCmd_get_none (eop.trans hop) hget)
  rwa [hop] at hcmd

theorem answers_fbGet_some (hop : low % 16 = 2) {k : Nat} {t : State} (hget : (s.takenTkp r).fbGet (bits low 13 4) = some (k, t)) :
    Answers (.fbGet r high) s (t.tkpResult k 0) := by
  obtain ⟨eop, -, eslot, -⟩ := tkpWord_fields hlow high
  rw [← eslot] at hget
  have hcmd := answers_tkpCmd hup hreach hlow hhigh hheld hidle (State.tkpCmd_get_some (eop.trans hop) hget)
  rwa [hop] at hcmd

theorem answers_fbTake (ev : Bool) (hop : low % 16 = if ev then 5 else 3) : Answers (if ev then .fbTakeEv r high else .fbTake r high) s
    ((s.takenTkp r).cmdFb high ((s.takenTkp r).fbTake high ev)) := by
  obtain ⟨eop, ehigh, -⟩ := tkpWord_fields hlow high
  have hcmd := answers_tkpCmd hup hreach hlow hhigh hheld hidle (State.tkpCmd_take ev (eop.trans hop))
  rw [hop, ehigh] at hcmd
  cases ev <;> exact hcmd

theorem answers_fbDrop (ev : Bool) (hop : low % 16 = if ev then 6 else 4) : Answers (if ev then .fbDropEv r high else .fbDrop r high) s
    ((s.takenTkp r).cmdFb high ((s.takenTkp r).fbDrop high ev)) := by
  obtain ⟨eop, ehigh, -⟩ := tkpWord_fields hlow high
  have hcmd := answers_tkpCmd hup hreach hlow hhigh hheld hidle (State.tkpCmd_drop ev (eop.trans hop))
  rw [hop, ehigh] at hcmd
  cases ev <;> exact hcmd

theorem answers_tkpIllegalCommand (hop : 7 ≤ low % 16) :
    Answers (.tkpIllegalCommand r high) s ((s.takenTkp r).tkpResult 0xFFFFFFFF 3) := by
  rw [← tkpInstr_illegal hop]
  exact answers_tkpCmd hup hreach hlow hhigh hheld hidle (State.tkpCmd_illegal ((tkpWord_fields hlow high).1 ▸ hop))

end

/-! ### Refusals (R417, R418, R423) -/

/-- A command is refused with a fault: status 4, counted, and one record. -/
def State.tkpRefuse (s : State) (f : FaultInfo) : State :=
  State.raise { s with tkp := { s.tkp with result := 0xFFFFFFFF, done := true, status := 4, faults := (s.tkp.faults + 1) % 2 ^ 64 } } f

/-- A refusal leaves the pool as it was, is counted, and raises its fault. -/
theorem reaches_of_tkpRefuse {c : Instr} {f : FaultInfo} (hc : Answers c s ((s.takenTkp r).tkpRefuse f)) :
    Reaches c s (fun t => (t.tkp.pages = s.tkp.pages ∧ t.tkp.res = s.tkp.res ∧ t.tkp.fbs = s.tkp.fbs) ∧
      t.tkp.status = 4 ∧ t.tkp.faults = (s.tkp.faults + 1) % 2 ^ 64 ∧ t.od.lastRecord = faultRecord f s.od.faultSeq) := by
  have htkp : ((s.takenTkp r).tkpRefuse f).tkp =
      { s.tkp with result := 0xFFFFFFFF, done := true, status := 4, faults := (s.tkp.faults + 1) % 2 ^ 64 } := State.raise_tkp _ _
  refine reaches_of_answers hc ⟨?pool, ?counted⟩
  case pool => exact ⟨(congrArg Tkp.pages htkp :), (congrArg Tkp.res htkp :), (congrArg Tkp.fbs htkp :)⟩
  case counted => exact ⟨congrArg Tkp.status htkp, congrArg Tkp.faults htkp, State.raise_lastRecord _ _⟩

theorem reaches_of_tkpRefuse_fbs {c : Instr} {f : FaultInfo} (hc : Answers c s ((s.takenTkp r).tkpRefuse f)) :
    Reaches c s (fun t => t.tkp.fbs = s.tkp.fbs ∧ t.tkp.status = 4 ∧ t.tkp.faults = (s.tkp.faults + 1) % 2 ^ 64 ∧
      t.od.lastRecord = faultRecord f s.od.faultSeq) :=
  (reaches_of_tkpRefuse hc).imp fun _ ⟨ht, ⟨_, _, hfbs⟩, hcounted⟩ => ⟨ht, hfbs, hcounted⟩

end Sys2Proof.Machine
end

