-- ==== Sys2Proof/Proofs/TackPages.lean ====
section
/-! PROOFS. Pages of the Tack pool (R408 to R411, R414, R419, R420): the page that is chosen, what taking, freeing and zeroing it
changes, and the assignments that depend only on the pages' states. -/
namespace Sys2Proof.Machine
open Sys2Proof

/-! ### Searches (R410) -/

theorem findUp_spec {p : Nat → Bool} {a n i : Nat} (h : findUp p a n = some i) : p i = true ∧ ∀ j, a ≤ j → p j = true → i ≤ j := by
  induction n generalizing a with
  | zero => cases h
  | succ n ih =>
    rw [findUp] at h
    split at h
    case isTrue ha =>
      cases h
      exact ⟨ha, fun j hj _ => hj⟩
    case isFalse ha =>
      obtain ⟨hi, hleast⟩ := ih h
      refine ⟨hi, fun j hj hpj => hleast j (Nat.lt_of_le_of_ne hj ?_) hpj⟩
      rintro rfl
      exact ha hpj

theorem findDown_spec {p : Nat → Bool} {n i : Nat} (h : findDown p n = some i) : p i = true ∧ ∀ j, j < n → p j = true → j ≤ i := by
  induction n with
  | zero => cases h
  | succ n ih =>
    rw [findDown] at h
    split at h
    case isTrue hn =>
      cases h
      exact ⟨hn, fun j hj _ => Nat.le_of_lt_succ hj⟩
    case isFalse hn =>
      obtain ⟨hi, hmost⟩ := ih h
      refine ⟨hi, fun j hj hpj => hmost j (Nat.lt_of_le_of_ne (Nat.le_of_lt_succ hj) ?_) hpj⟩
      rintro rfl
      exact hn hpj

/-! ### Tables of pages and bytes -/

@[simp] theorem State.modReserv_page (s : State) (n q : Nat) (f : Reserv → Reserv) : (s.modReserv n f).page q = s.page q := rfl

theorem tget_filter_keys {α : Type} (d : α) (keep : Nat → Bool) (t : Tbl α) (k : Nat) :
    tget d (t.filter (fun c => keep c.1)) k = if keep k = true then tget d t k else d := by
  induction t with
  | nil => exact (ite_self d).symm
  | cons c t ih =>
    obtain ⟨j, v⟩ := c
    by_cases hj : keep j = true
    · rw [List.filter_cons_of_pos (by exact hj), tget, tget, ih]
      by_cases hkj : k = j
      · subst hkj; simp [hj]
      · simp [hkj]
    · rw [List.filter_cons_of_neg (by exact hj), ih, tget]
      by_cases hkj : k = j
      · subst hkj; simp [hj]
      · simp [hkj]

theorem map_tput {α β : Type} (g : α → β) (t : Tbl α) (k : Nat) (v : α) :
    (tput t k v).map (fun c => (c.1, g c.2)) = tput (t.map (fun c => (c.1, g c.2))) k (g v) := by
  induction t with
  | nil => rfl
  | cons c t ih =>
    obtain ⟨j, u⟩ := c
    simp only [List.map_cons, tput]
    split
    · rfl
    · split
      · rfl
      · rw [List.map_cons, ih]

/-! ### Assignments (R410, R596) -/

/-- The states of the listed pages: all that an assignment sees of them. -/
def pageStates (t : Tbl Page) : Tbl PageSt := t.map (fun c => (c.1, c.2.st))

theorem State.supply_congr {s t : State} (hpages : pageStates s.tkp.pages = pageStates t.tkp.pages)
    (hdie : s.mem.lostDie = t.mem.lostDie) (c : Nat) : s.supply c = t.supply c := by
  have hpartner : s.partner c = t.partner c := by rw [State.partner, State.partner, hdie]
  have hgone (u : State) (c' : Nat) :
      (u.tkp.pages.filter (fun p => (p.1 % 64 == c || p.1 % 64 == c') && !(p.2.st == .free || p.2.st == .zeroing))).map
          (fun p => (p.1, p.2.st)) =
        (pageStates u.tkp.pages).filter (fun p => (p.1 % 64 == c || p.1 % 64 == c') && !(p.2 == .free || p.2 == .zeroing)) := by
    rw [pageStates, List.filter_map]; rfl
  have hsame := (hgone s (t.partner c)).trans ((congrArg (List.filter _) hpages).trans (hgone t (t.partner c)).symm)
  have hlen := congrArg List.length hsame
  have hrows := congrArg (List.foldl (fun (rs : List Nat) p => if rs.contains (p.1 / 64) then rs else p.1 / 64 :: rs) []) hsame
  rw [List.length_map, List.length_map] at hlen
  rw [List.foldl_map, List.foldl_map] at hrows
  simp only [State.supply, hpartner]
  rw [hlen, hrows]

theorem State.satisfiable_congr {s t : State} (hpages : pageStates s.tkp.pages = pageStates t.tkp.pages)
    (hres : s.tkp.res = t.tkp.res) (hdie : s.mem.lostDie = t.mem.lostDie) : s.satisfiable = t.satisfiable := by
  have hsupply : s.supply = t.supply := funext (State.supply_congr hpages hdie)
  rw [State.satisfiable, State.satisfiable, State.supplies, State.supplies, State.demands, State.demands, hsupply, hres, hdie]

/-! ### Taking a page (R408 to R411) -/

section
variable (s : State) (res p cls : Nat) (retain : Bool)

theorem State.holdPage_page : (s.holdPage p res cls retain).page p =
    { s.page p with st := .held, cls := cls, holder := res, retain := retain } := State.modPage_page _ _ _

variable {s p} in
theorem State.holdPage_page_ne {q : Nat} (h : q ≠ p) : (s.holdPage p res cls retain).page q = s.page q := State.modPage_page_ne _ _ h

theorem State.pageStates_holdPage : pageStates (s.holdPage p res cls retain).tkp.pages = tput (pageStates s.tkp.pages) p .held := by
  simp only [State.holdPage, State.modPage, tmod, tset]
  rw [if_neg (by simp), pageStates, map_tput Page.st]
  rfl

theorem State.takePage_of_classP : s.takePage res p 1 retain =
    ((s.holdPage p res 1 retain).holdPage (s.partner p) res 1 retain).modReserv res
      (fun r => { r with used := r.used + 2, pairs := r.pairs + 1 }) := rfl

variable {cls} in
theorem State.takePage_of_not_classP (h : cls ≠ 1) : s.takePage res p cls retain =
    (s.holdPage p res cls retain).modReserv res (fun r => { r with used := r.used + 1 }) := if_neg h

theorem State.takePage_page : (s.takePage res p cls retain).page p =
    { s.page p with st := .held, cls := cls, holder := res, retain := retain } := by
  by_cases h : cls = 1
  · subst h
    rw [State.takePage_of_classP, State.modReserv_page, State.holdPage_page_ne _ _ _ (s.partner_ne p).symm, State.holdPage_page]
  · rw [s.takePage_of_not_classP res p retain h, State.modReserv_page, State.holdPage_page]

theorem State.takePage_page_partner : (s.takePage res p 1 retain).page (s.partner p) =
    { s.page (s.partner p) with st := .held, cls := 1, holder := res, retain := retain } := by
  rw [State.takePage_of_classP, State.modReserv_page, State.holdPage_page, State.holdPage_page_ne _ _ _ (s.partner_ne p)]

variable {cls} in
theorem State.takePage_holds_partner (h : cls = 1) : ((s.takePage res p cls retain).page (s.partner p)).st = .held ∧
    ((s.takePage res p cls retain).page (s.partner p)).holder = res := by
  subst h
  rw [State.takePage_page_partner]
  exact ⟨rfl, rfl⟩

variable {s p cls} in
theorem State.takePage_page_ne {q : Nat} (hq : q ≠ p) (hpair : cls = 1 → q ≠ s.partner p) :
    (s.takePage res p cls retain).page q = s.page q := by
  by_cases h : cls = 1
  · subst h
    rw [State.takePage_of_classP, State.modReserv_page, State.holdPage_page_ne _ _ _ (hpair rfl), State.holdPage_page_ne _ _ _ hq]
  · rw [s.takePage_of_not_classP res p retain h, State.modReserv_page, State.holdPage_page_ne _ _ _ hq]

theorem State.takePage_used : ((s.takePage res p cls retain).reserv res).used = (s.reserv res).used + (if cls = 1 then 2 else 1) := by
  by_cases h : cls = 1
  · subst h
    exact congrArg Reserv.used (State.modReserv_reserv _ _ _)
  · rw [s.takePage_of_not_classP res p retain h, if_neg h]
    exact congrArg Reserv.used (State.modReserv_reserv _ _ _)

/-- An assignment does not see whether the page is retained. -/
theorem State.takePage_satisfiable : (s.takePage res p cls retain).satisfiable = (s.takePage res p cls false).satisfiable := by
  by_cases h : cls = 1
  · subst h
    refine State.satisfiable_congr ?_ rfl rfl
    change pageStates ((s.holdPage p res 1 retain).holdPage (s.partner p) res 1 retain).tkp.pages =
      pageStates ((s.holdPage p res 1 false).holdPage (s.partner p) res 1 false).tkp.pages
    simp only [State.pageStates_holdPage]
  · rw [s.takePage_of_not_classP res p _ h, s.takePage_of_not_classP res p _ h]
    exact State.satisfiable_congr ((s.pageStates_holdPage ..).trans (s.pageStates_holdPage ..).symm) rfl rfl

end

/-! ### The page that is chosen (R409, R410) -/

section
variable {s : State} {res cls p : Nat} {retain : Bool}

theorem State.canTake_free (h : s.canTake res cls .free p = true) : (s.page p).st = .free ∧
    bit (s.reserv res).channels (p % 64) = true ∧ (s.takePage res p cls false).satisfiable = true := by
  simp only [State.canTake, State.pageAvail, Bool.and_eq_true, Bool.or_eq_true, beq_iff_eq] at h
  obtain ⟨⟨⟨⟨⟨hst, -⟩, hchan⟩, -⟩, hzeroing⟩, hsat⟩ := h
  refine ⟨hst.resolve_right fun hz => ?_, hchan, hsat⟩
  simp [hz] at hzeroing

theorem State.choosePage_spec {st : PageSt} (h : s.choosePage res cls retain st = some p) : s.canTake res cls st p = true ∧
    ∀ q, q < numPages → s.canTake res cls st q = true → if retain then p ≤ q else q ≤ p := by
  cases retain with
  | true =>
    simp only [State.choosePage, if_true] at h ⊢
    obtain ⟨hp, hleast⟩ := findUp_spec h
    exact ⟨hp, fun q _ hq => hleast q (Nat.zero_le q) hq⟩
  | false =>
    simp only [State.choosePage, Bool.false_eq_true, if_false] at h ⊢
    exact findDown_spec h

/-- The choice does not see which low words are held. -/
theorem State.takenTkp_choosePage (r : Route) : (s.takenTkp r).choosePage res cls retain .free = s.choosePage res cls retain .free := by
  have hcan : (s.takenTkp r).canTake res cls .free = s.canTake res cls .free := by
    funext p
    have hsat : ((s.takenTkp r).takePage res p cls false).satisfiable = (s.takePage res p cls false).satisfiable := by
      by_cases h : cls = 1
      · subst h
        exact State.satisfiable_congr rfl rfl rfl
      · rw [State.takePage_of_not_classP _ _ _ _ h, State.takePage_of_not_classP _ _ _ _ h]
        exact State.satisfiable_congr rfl rfl rfl
    rw [State.canTake, State.canTake, hsat]
    rfl
  rw [State.choosePage, State.choosePage, hcan]

end

/-! ### ALLOC_PAGE and FREE_PAGE (R410, R414, R418, R420) -/

section
variable {s : State} {w h p res cls : Nat} {retain : Bool}

theorem State.cmdAlloc_full (hres : bits w 13 4 = res) (hcls : bits w 15 14 = cls) (hclass : cls ≠ 3)
    (hroom : (s.reserv res).left < (if cls = 1 then 2 else 1)) : s.cmdAlloc w = s.tkpResult 0xFFFFFFFF 1 := by
  have hfull : s.resRoom res cls = false := decide_eq_false (Nat.not_le.mpr hroom)
  simp only [State.cmdAlloc, hres, hcls, hclass, hfull, if_false, Bool.not_false, if_true]

theorem State.cmdAlloc_free (hres : bits w 13 4 = res) (hcls : bits w 15 14 = cls) (hretain : bit w 16 = retain) (hclass : cls ≠ 3)
    (hroom : (if cls = 1 then 2 else 1) ≤ (s.reserv res).left) (hp : s.choosePage res cls retain .free = some p) :
    s.cmdAlloc w = (s.takePage res p cls retain).tkpResult (pageHandle (s.page p).gen p) 0 := by
  have hfits : s.resRoom res cls = true := decide_eq_true hroom
  simp only [State.cmdAlloc, hres, hcls, hretain, hclass, hfits, hp, if_false, Bool.not_true, Bool.false_eq_true]

/-- The handle names a page that is held and its generation. -/
def State.knowsPage (s : State) (h : Nat) : Prop :=
  h / 2 ^ 30 = 0 ∧ (s.page (h % 2 ^ 18)).st = .held ∧ (s.page (h % 2 ^ 18)).gen = h / 2 ^ 18 % 2 ^ 12

theorem State.cmdFree_known (hknown : s.knowsPage h) : s.cmdFree h = (s.freeHeld (h % 2 ^ 18)).tkpResult h 0 := by
  obtain ⟨hkind, hst, hgen⟩ := hknown
  simp only [State.cmdFree, hkind, hst, hgen, ne_eq, not_true_eq_false, if_false]

theorem State.cmdFree_refused (hunknown : ¬ s.knowsPage h) : s.cmdFree h = s.tkpRefuse
    (if h / 2 ^ 30 ≠ 0 then { code := fltTkpHandle, detail := 2, addr := h }
      else { code := fltTkpDoubleFree, detail := if (s.page (h % 2 ^ 18)).st ≠ .held then 0 else 1, addr := h }) := by
  by_cases hkind : h / 2 ^ 30 = 0
  · simp only [State.cmdFree, hkind, ne_eq, not_true_eq_false, if_false]
    by_cases hst : (s.page (h % 2 ^ 18)).st = .held
    · have hgen : (s.page (h % 2 ^ 18)).gen ≠ h / 2 ^ 18 % 2 ^ 12 := fun hgen => hunknown ⟨hkind, hst, hgen⟩
      simp only [hst, hgen, not_true_eq_false, not_false_eq_true, if_false, if_true]
      rfl
    · simp only [hst, not_false_eq_true, if_true]
      rfl
  · simp only [State.cmdFree, hkind, ne_eq, not_false_eq_true, if_true]
    rfl

end

/-! ### A page enters zeroing (R419, R420) -/

section
variable {s : State} {p : Nat}

theorem State.pageToZero_page (s : State) (p : Nat) : ((s.pageToZero p).page p).st = .zeroing :=
  congrArg Page.st (State.modPage_page s p (fun g => { g with st := .zeroing }))

theorem State.pageToZero_page_ne {q : Nat} (h : q ≠ p) : (s.pageToZero p).page q = s.page q := State.modPage_page_ne _ _ h

theorem State.pageToZero_zeroing (s : State) (p : Nat) : p ∈ ((s.pageToZero p).chan (p % 64)).zeroing := by
  simp [State.pageToZero]

theorem State.pageToZero_keeps_zeroing {q c : Nat} (h : q ∈ (s.chan c).zeroing) : q ∈ ((s.pageToZero p).chan c).zeroing := by
  by_cases hc : c = p % 64
  · subst hc
    rw [State.pageToZero, State.modChan_chan]
    exact List.mem_append_left _ h
  · rw [State.pageToZero, State.modChan_chan_ne _ _ hc]
    exact h

/-- `t` comes of `s` by the release of page `p`, and of the other page of its Class P pair. -/
structure State.FreesPage (s t : State) (p : Nat) : Prop where
  zeroing : (t.page p).st = .zeroing
  listed : p ∈ (t.chan (p % 64)).zeroing
  bytes : t.mem.bytes = s.mem.bytes
  pair : (s.page p).cls = 1 → (t.page (s.partner p)).st ≠ .held

theorem State.freeHeld_frees (hst : (s.page p).st = .held) : s.FreesPage (s.freeHeld p) p := by
  have hne := s.partner_ne p
  simp only [State.freeHeld, hst, beq_self_eq_true, if_true]
  split
  case isTrue hpair =>
    exact {
      zeroing := (congrArg Page.st (State.pageToZero_page_ne (p := s.partner p) hne.symm)).trans (s.pageToZero_page p)
      listed := State.pageToZero_keeps_zeroing (s.pageToZero_zeroing p)
      bytes := rfl
      pair := fun _ hheld => nomatch (State.pageToZero_page _ _).symm.trans hheld }
  case isFalse hpair =>
    exact {
      zeroing := s.pageToZero_page p
      listed := s.pageToZero_zeroing p
      bytes := rfl
      pair := fun hcls hheld => hpair ⟨hcls, hheld⟩ }

end

/-! ### Zeroing ends (R408, R419) -/

section
variable {s : State} {p : Nat}

theorem answers_pageZeroingComplete (hup : s.up = true) : Answers (.pageZeroingComplete p) s (s.zeroingDone p) := answers_whenUp rfl hup

theorem State.zeroingDone_not_first (h : (s.chan (p % 64)).zeroing.head? ≠ some p) : s.zeroingDone p = s := if_neg h

theorem State.zeroingDone_idle (h : (s.chan (p % 64)).zeroing.head? = some p) (hidle : s.tkp.waiting = none) :
    s.zeroingDone p = s.pageZeroed p := by
  have hstill : (s.pageZeroed p).tkp.waiting = none := hidle
  simp only [State.zeroingDone, h, if_true, hstill]

theorem State.pageZeroed_page (s : State) (p : Nat) :
    (s.pageZeroed p).page p = { st := .free, gen := ((s.page p).gen + 1) % 2 ^ 12 } := State.modPage_page _ _ _

theorem State.pageZeroed_page_ne {q : Nat} (h : q ≠ p) : (s.pageZeroed p).page q = s.page q := State.modPage_page_ne _ _ h

theorem State.pageZeroed_rdByte (s : State) (p x : Nat) : (s.pageZeroed p).rdByte x =
    if p * pageSize ≤ x ∧ x < (p + 1) * pageSize then 0#8 else s.rdByte x := by
  refine (tget_filter_keys 0#8 (fun a => decide (a < p * pageSize ∨ p * pageSize + pageSize ≤ a)) s.mem.bytes x).trans ?_
  simp only [decide_eq_true_iff, Nat.succ_mul]
  by_cases hin : p * pageSize ≤ x ∧ x < p * pageSize + pageSize
  · rw [if_pos hin, if_neg (by omega)]
  · rw [if_neg hin, if_pos (by omega)]
    rfl

theorem State.pageZeroed_lineFails {x : Nat} (h : x / pageSize = p) : (s.pageZeroed p).lineFails x = false := by
  refine (tget_filter_keys false (fun a => decide (a / pageSize ≠ p)) s.mem.failing x).trans ?_
  rw [h, decide_eq_false (by simp), if_neg Bool.false_ne_true]

theorem State.pageZeroed_zeroing (s : State) (p : Nat) : p ∉ ((s.pageZeroed p).chan (p % 64)).zeroing := by
  have hlist : ((s.pageZeroed p).chan (p % 64)).zeroing = without p (s.chan (p % 64)).zeroing :=
    congrArg DramChan.zeroing (State.modChan_chan _ _ _)
  simp [hlist, without]

end

end Sys2Proof.Machine
end

