-- ==== Sys2Proof/Proofs/FrameBufferReferences.lean ====
section
/-! PROOFS. References to frame buffers (R415 to R418): the handle's check, FB_GET, and the takes and drops with their refusals. -/
namespace Sys2Proof.Machine
open Sys2Proof

variable {s : State} {h : Nat}

/-! ### The handle's check (R418) -/

/-- The handle names a live buffer and its generation. -/
def State.knowsFb (s : State) (h : Nat) : Prop :=
  h / 2 ^ 30 = 1 ∧ (s.fb (fbIndex h)).inUse = true ∧ (s.fb (fbIndex h)).live = true ∧ (s.fb (fbIndex h)).gen = fbGen h

theorem State.fbCheck_known (hknown : s.knowsFb h) (release : Bool) : s.fbCheck h release = .ok := by
  obtain ⟨hkind, huse, hlive, hgen⟩ := hknown
  simp only [State.fbCheck, hkind, huse, hlive, hgen, ne_eq, not_true_eq_false, if_false, Bool.not_true, Bool.or_self, Bool.false_eq_true]

theorem State.fbCheck_unknown (hunknown : ¬ s.knowsFb h) (release : Bool) : s.fbCheck h release =
    .fault (if h / 2 ^ 30 ≠ 1 then fltTkpHandle else if release then fltTkpDoubleFree else fltTkpHandle)
      (if h / 2 ^ 30 ≠ 1 then 2 else if (s.fb (fbIndex h)).inUse && (s.fb (fbIndex h)).live then 1 else 0) := by
  have hdead : (!(s.fb (fbIndex h)).inUse || !(s.fb (fbIndex h)).live) = !((s.fb (fbIndex h)).inUse && (s.fb (fbIndex h)).live) :=
    (Bool.not_and _ _).symm
  by_cases hkind : h / 2 ^ 30 = 1
  · simp only [State.fbCheck, hkind, hdead, ne_eq, not_true_eq_false, if_false]
    by_cases hlive : ((s.fb (fbIndex h)).inUse && (s.fb (fbIndex h)).live) = true
    · have hgen : (s.fb (fbIndex h)).gen ≠ fbGen h := fun hgen =>
        hunknown ⟨hkind, (Bool.and_eq_true_iff.mp hlive).1, (Bool.and_eq_true_iff.mp hlive).2, hgen⟩
      simp only [hlive, hgen, Bool.not_true, Bool.false_eq_true, not_false_eq_true, if_false, if_true]
    · simp only [hlive, Bool.not_false, Bool.false_eq_true, if_false, if_true]
  · simp only [State.fbCheck, hkind, ne_eq, not_false_eq_true, if_true]

/-! ### FB_TAKE and FB_TAKE_EV (R416, R417) -/

section
variable {ev : Bool}

/-- A buffer with one more reference. -/
def Fb.taken (f : Fb) (ev : Bool) : Fb := { f with refs := f.refs + 1, ev := f.ev + b2n ev, evCharge := f.evCharge || ev }

theorem State.cmdFb_take_taken (hknown : s.knowsFb h) (hrefs : (s.fb (fbIndex h)).refs < 65535) (hev : ev = true → (s.fb (fbIndex h)).ev < 255) :
    s.cmdFb h (s.fbTake h ev) = (s.modFb (fbIndex h) (fun f => f.taken ev)).tkpResult h 0 := by
  have hroom : ¬ (65535 ≤ (s.fb (fbIndex h)).refs ∨ (ev = true ∧ 255 ≤ (s.fb (fbIndex h)).ev)) := by
    rintro (hfull | ⟨he, hfull⟩)
    · omega
    · exact absurd (hev he) (by omega)
  simp only [State.fbTake, State.fbCheck_known hknown, hroom, if_false, State.cmdFb]
  rfl

theorem State.cmdFb_take_full (hknown : s.knowsFb h) (hfull : 65535 ≤ (s.fb (fbIndex h)).refs ∨ (ev = true ∧ 255 ≤ (s.fb (fbIndex h)).ev)) :
    s.cmdFb h (s.fbTake h ev) = s.tkpRefuse { code := fltTkpRefcount, addr := h } := by
  simp only [State.fbTake, State.fbCheck_known hknown, hfull, if_true, State.cmdFb]
  rfl

theorem State.cmdFb_take_unknown (hunknown : ¬ s.knowsFb h) : s.cmdFb h (s.fbTake h ev) = s.tkpRefuse {
    code := fltTkpHandle, addr := h
    detail := if h / 2 ^ 30 ≠ 1 then 2 else if (s.fb (fbIndex h)).inUse && (s.fb (fbIndex h)).live then 1 else 0 } := by
  simp only [State.fbTake, State.fbCheck_unknown hunknown, Bool.false_eq_true, if_false, ite_self, State.cmdFb]
  rfl

/-! ### FB_DROP and FB_DROP_EV (R416, R417) -/

theorem ite_ne_iff_not_ite_eq {b : Bool} {a a' c c' : Nat} : (if b then a ≠ a' else c ≠ c') ↔ ¬ (if b then a = a' else c = c') := by
  cases b <;> exact Iff.rfl

/-- A buffer with one reference less, of those it keeps. -/
def Fb.dropped (f : Fb) (ev : Bool) : Fb :=
  { f with refs := f.refs - 1, ev := f.ev - b2n ev, evCharge := f.evCharge && !(ev && f.ev == 1) }

/-- A buffer whose last reference went: free, with a new generation. -/
def Fb.freed (f : Fb) : Fb := { f with refs := 0, ev := 0, live := false, evCharge := false, gen := (f.gen + 1) % 2 ^ 13 }

theorem State.cmdFb_drop_dropped (hknown : s.knowsFb h)
    (hkind : if ev then (s.fb (fbIndex h)).ev ≠ 0 else (s.fb (fbIndex h)).refs ≠ (s.fb (fbIndex h)).ev)
    (hrefs : (s.fb (fbIndex h)).refs ≠ 1) :
    s.cmdFb h (s.fbDrop h ev) = (s.modFb (fbIndex h) (fun f => f.dropped ev)).tkpResult h 0 := by
  rw [ite_ne_iff_not_ite_eq] at hkind
  simp only [State.fbDrop, State.fbCheck_known hknown, hkind, hrefs, decide_false, Bool.false_eq_true, if_false, State.cmdFb]
  rfl

theorem State.settleExtent_current {id : Nat} (hcurrent : ∀ x, tget none s.tkp.extents id = some x → x.old = false) :
    s.settleExtent id = s := by
  unfold State.settleExtent
  split
  case h_1 x hx => simp [hcurrent x hx]
  case h_2 => rfl

theorem State.cmdFb_drop_last (hknown : s.knowsFb h)
    (hkind : if ev then (s.fb (fbIndex h)).ev ≠ 0 else (s.fb (fbIndex h)).refs ≠ (s.fb (fbIndex h)).ev)
    (hrefs : (s.fb (fbIndex h)).refs = 1)
    (hcurrent : ∀ x, tget none s.tkp.extents (s.fb (fbIndex h)).extent = some x → x.old = false) :
    s.cmdFb h (s.fbDrop h ev) = (s.modFb (fbIndex h) Fb.freed).tkpResult h 0 := by
  rw [ite_ne_iff_not_ite_eq] at hkind
  simp only [State.fbDrop, State.fbCheck_known hknown, hkind, if_false, decide_eq_true hrefs, if_true, State.cmdFb]
  exact congrArg (State.tkpResult · h 0) (State.settleExtent_current hcurrent)

theorem State.cmdFb_drop_none (hknown : s.knowsFb h) (hkind : if ev then (s.fb (fbIndex h)).ev = 0 else (s.fb (fbIndex h)).refs = (s.fb (fbIndex h)).ev) :
    s.cmdFb h (s.fbDrop h ev) = s.tkpRefuse { code := fltTkpDoubleFree, detail := 2, addr := h } := by
  simp only [State.fbDrop, State.fbCheck_known hknown, hkind, if_true, State.cmdFb]
  rfl

theorem State.cmdFb_drop_unknown (hunknown : ¬ s.knowsFb h) : s.cmdFb h (s.fbDrop h ev) = s.tkpRefuse
    (if h / 2 ^ 30 ≠ 1 then { code := fltTkpHandle, detail := 2, addr := h }
      else { code := fltTkpDoubleFree, addr := h, detail := if (s.fb (fbIndex h)).inUse && (s.fb (fbIndex h)).live then 1 else 0 }) := by
  simp only [State.fbDrop, State.fbCheck_unknown hunknown, if_true, State.cmdFb]
  by_cases hkind : h / 2 ^ 30 = 1
  · simp only [hkind, ne_eq, not_true_eq_false, if_false]
    rfl
  · simp only [hkind, ne_eq, not_false_eq_true, if_true]
    rfl

end

/-! ### FB_GET (R416) -/

section
variable {slot : Nat}

theorem State.fbGet_full (hfull : s.bufsOf slot ≤ s.quotaUsed slot) : s.fbGet slot = none := if_pos hfull

/-- The free buffers of a slot's current extents. -/
def State.freeFbs (s : State) (slot : Nat) : List Nat :=
  (s.slotExtents slot).flatMap (fun x => x.2.first.filter (fun i => !(s.fb i).live))

theorem State.mem_freeFbs {k : Nat} : k ∈ s.freeFbs slot ↔ (∃ x ∈ s.slotExtents slot, k ∈ x.2.first) ∧ (s.fb k).live = false := by
  simp only [State.freeFbs, List.mem_flatMap, List.mem_filter, Bool.not_eq_true']
  exact ⟨fun ⟨x, hx, hk, hlive⟩ => ⟨⟨x, hx, hk⟩, hlive⟩, fun ⟨⟨x, hx, hk⟩, hlive⟩ => ⟨x, hx, hk, hlive⟩⟩

/-- A live buffer with its first reference. -/
def Fb.got (f : Fb) : Fb := { f with live := true, refs := 1, ev := 0, evCharge := false }

theorem State.fbGet_free (hroom : s.quotaUsed slot < s.bufsOf slot) (hfree : s.freeFbs slot ≠ []) :
    ∃ k ∈ s.freeFbs slot, s.fbGet slot = some (fbHandle (s.fb k).gen k, (s.draw 17).2.modFb k Fb.got) := by
  obtain ⟨i, rest, hlist⟩ := List.exists_cons_of_ne_nil hfree
  rw [hlist]
  refine ⟨(i :: rest).getD ((s.draw 17).1 % (i :: rest).length) i, ?chosen, ?got⟩
  case chosen =>
    have hdrawn : (s.draw 17).1 % (i :: rest).length < (i :: rest).length := Nat.mod_lt _ (Nat.succ_pos _)
    rw [List.getD_eq_getElem?_getD, List.getElem?_eq_getElem hdrawn, Option.getD_some]
    exact List.getElem_mem hdrawn
  case got =>
    rw [State.freeFbs] at hlist
    simp only [State.fbGet, Nat.not_le.mpr hroom, if_false, hlist]
    rfl

end

end Sys2Proof.Machine
end

