-- ==== Sys2Proof/Proofs/TackPoolCommands.lean ====
section
/-! PROOFS. The statement on the Tack pool's commands. -/
namespace Sys2Proof.Proofs
open Sys2Proof Sys2Proof.Machine

/-- Settles O46: a command by its op, a page by the search that chooses it, a reference by the handle's check, and the end of
zeroing by the head of the channel's list. -/
theorem tackPoolCommands : Obligations.TackPoolCommands := by
  unfold Obligations.TackPoolCommands
  intro s r low high hup hreach hlow hhigh hheld s0 res cls h i f known cmdOf
  refine ⟨fun hwaiting => ?waits, fun hidle => ⟨?full, ?allocated, ?freed, ?notFreed, ?noneLeft, ?got, ?take, ?drop, ?illegal,
    fun p hfirst => ?notFirst, fun p hfirst => ?zeroed⟩⟩
  case waits =>
    exact answers_congr (answers_tkpSubmit hup hreach hlow hhigh hheld) (State.tkpSubmit_waiting hwaiting)
  case illegal => exact answers_tkpIllegalCommand hup hreach hlow hhigh hheld hidle
  case full =>
    intro hop hclass hroom
    obtain ⟨-, -, eres, ecls, -⟩ := tkpWord_fields hlow high
    exact answers_congr (answers_allocPage hup hreach hlow hhigh hheld hidle hop) (State.cmdAlloc_full eres ecls hclass hroom)
  case allocated =>
    intro p hop hclass hroom hp
    obtain ⟨-, -, eres, ecls, eretain⟩ := tkpWord_fields hlow high
    have hp0 := (State.takenTkp_choosePage r).trans hp
    have halloc := answers_congr (answers_allocPage hup hreach hlow hhigh hheld hidle hop)
      (State.cmdAlloc_free eres ecls eretain hclass hroom hp0)
    obtain ⟨htake, hextreme⟩ := State.choosePage_spec hp
    obtain ⟨hfree, hchannel, -⟩ := State.canTake_free htake
    obtain ⟨-, -, hsat⟩ := State.canTake_free (State.choosePage_spec hp0).1
    have hpage := (s.takenTkp r).takePage_page res p cls (bit low 16)
    refine ⟨hfree, hchannel, hextreme, reaches_of_answers halloc ⟨rfl, rfl, rfl, congrArg Page.st hpage, congrArg Page.holder hpage,
      congrArg Page.cls hpage, congrArg Page.retain hpage, (s.takenTkp r).takePage_holds_partner res p _,
      (s.takenTkp r).takePage_used res p cls _, ?_, fun q hq hpair => State.takePage_page_ne res _ hq hpair⟩⟩
    exact (State.satisfiable_congr rfl rfl rfl).trans (((s.takenTkp r).takePage_satisfiable res p cls _).trans hsat)
  case freed =>
    intro hop hkind hst hgen
    have hfree := answers_congr (answers_freePage hup hreach hlow hhigh hheld hidle hop) (State.cmdFree_known ⟨hkind, hst, hgen⟩)
    obtain ⟨hzeroing, hlisted, hbytes, hpair⟩ := State.freeHeld_frees (s := s.takenTkp r) hst
    rw [Nat.mod_mod_of_dvd high (by decide : 64 ∣ 2 ^ 18)] at hlisted
    exact reaches_of_answers hfree ⟨hzeroing, hlisted, hbytes, hpair, rfl, rfl⟩
  case notFreed =>
    intro hop hbad
    have hfree := answers_freePage hup hreach hlow hhigh hheld hidle hop
    have hunknown : ¬ (s.takenTkp r).knowsPage h := by
      rintro ⟨hkind, hst, hgen⟩
      exact hbad.elim (· hkind) (Or.elim · (· hst) (· hgen))
    refine (reaches_of_tkpRefuse (answers_congr hfree (State.cmdFree_refused hunknown))).imp ?_
    exact fun t ⟨ht, ⟨hpages, hres, _⟩, hcounted⟩ => ⟨ht, hpages, hres, hcounted⟩
  case noneLeft =>
    exact fun hop hfull => answers_fbGet_none hup hreach hlow hhigh hheld hidle hop (State.fbGet_full hfull)
  case got =>
    intro hop hroom ⟨x, hx, k, hk, hlive⟩
    have hsome : (s.takenTkp r).freeFbs res ≠ [] := List.ne_nil_of_mem (State.mem_freeFbs.mpr ⟨⟨x, hx, hk⟩, hlive⟩)
    obtain ⟨j, hj, hget⟩ := State.fbGet_free (s := s.takenTkp r) hroom hsome
    obtain ⟨hextent, hfree⟩ := State.mem_freeFbs.mp hj
    have hfb := ((s.takenTkp r).draw 17).2.modFb_fb j Fb.got
    exact reaches_of_answers (answers_fbGet_some hup hreach hlow hhigh hheld hidle hop hget) ⟨j, hextent, hfree, rfl, rfl,
      congrArg Fb.live hfb, congrArg Fb.refs hfb, congrArg Fb.ev hfb, fun i hi => State.modFb_fb_ne _ _ hi⟩
  case take =>
    intro ev hop
    have htake := answers_fbTake hup hreach hlow hhigh hheld hidle ev hop
    refine ⟨fun hknown hrefs hev => answers_congr htake (State.cmdFb_take_taken hknown hrefs hev), fun hbad => ?_⟩
    by_cases hknown : known
    · have hfull := hbad.resolve_left (not_not_intro hknown)
      simp only [if_pos hknown]
      exact reaches_of_tkpRefuse_fbs (answers_congr htake (State.cmdFb_take_full hknown hfull))
    · simp only [if_neg hknown]
      exact reaches_of_tkpRefuse_fbs (answers_congr htake (State.cmdFb_take_unknown hknown))
  case drop =>
    intro ev hop
    have hdrop := answers_fbDrop hup hreach hlow hhigh hheld hidle ev hop
    refine ⟨fun hknown hkind hrefs => answers_congr hdrop (State.cmdFb_drop_dropped hknown hkind hrefs),
      fun hknown hkind hrefs hcurrent => answers_congr hdrop (State.cmdFb_drop_last hknown hkind hrefs hcurrent), fun hbad => ?_⟩
    by_cases hknown : known
    · have hnone := hbad.resolve_left (not_not_intro hknown)
      simp only [if_pos hknown]
      exact reaches_of_tkpRefuse_fbs (answers_congr hdrop (State.cmdFb_drop_none hknown hnone))
    · simp only [if_neg hknown]
      exact reaches_of_tkpRefuse_fbs (answers_congr hdrop (State.cmdFb_drop_unknown hknown))
  case notFirst => exact answers_congr (answers_pageZeroingComplete hup) (State.zeroingDone_not_first hfirst)
  case zeroed =>
    have hdone := answers_congr (answers_pageZeroingComplete hup) (State.zeroingDone_idle hfirst hidle)
    exact reaches_of_answers hdone ⟨s.pageZeroed_rdByte p, congrArg Page.st (s.pageZeroed_page p), congrArg Page.gen (s.pageZeroed_page p),
      s.pageZeroed_zeroing p, fun x => State.pageZeroed_lineFails, fun q => State.pageZeroed_page_ne⟩

end Sys2Proof.Proofs
end

