-- ==== Sys2Proof/Proofs/PowerView.lean ====
section
/-! PROOFS. Rein's registers, the running figures of contexts, the clocks and the link's state: what the services of the
device leave as it is, from the pages up to a step of shedding (R467 to R472). -/
namespace Sys2Proof.Machine
open Sys2Proof

/-- What neither a step of shedding nor a takeover writes: Rein's registers, the running figures of contexts, the clocks, and
the state of the pair's link. -/
def State.powerView (s : State) : Rne × Tbl CtxRun × Clk × Nat := (s.rne, s.ctxRuns, s.clk, s.pair.link)

theorem State.powerView_eq_iff {s t : State} : t.powerView = s.powerView ↔
    t.rne = s.rne ∧ t.ctxRuns = s.ctxRuns ∧ t.clk = s.clk ∧ t.pair.link = s.pair.link := by
  simp only [State.powerView, Prod.mk.injEq]

variable {s t : State}

theorem State.ite_powerView {c : Prop} [Decidable c] {t u : State} (ht : t.powerView = s.powerView) (hu : u.powerView = s.powerView) :
    (if c then t else u).powerView = s.powerView := by
  split
  · exact ht
  · exact hu

theorem State.foldl_powerView {α : Type} {f : State → α → State} {l : List α} (h : ∀ t a, (f t a).powerView = t.powerView) :
    (l.foldl f s).powerView = s.powerView := foldl_keeps State.powerView f h l s

/-! ### Writes of other units -/

section
variable (s)
@[simp] theorem State.count_powerView (n sub k : Nat) : (s.count n sub k).powerView = s.powerView := rfl
@[simp] theorem State.modSlot_powerView (n : Nat) (f : Slot → Slot) : (s.modSlot n f).powerView = s.powerView := rfl
@[simp] theorem State.modChain_powerView (n : Nat) (f : SlotChain → SlotChain) : (s.modChain n f).powerView = s.powerView := rfl
@[simp] theorem State.modPage_powerView (n : Nat) (f : Page → Page) : (s.modPage n f).powerView = s.powerView := rfl
@[simp] theorem State.modChan_powerView (n : Nat) (f : DramChan → DramChan) : (s.modChan n f).powerView = s.powerView := rfl
@[simp] theorem State.modReserv_powerView (n : Nat) (f : Reserv → Reserv) : (s.modReserv n f).powerView = s.powerView := rfl
@[simp] theorem State.modFb_powerView (n : Nat) (f : Fb → Fb) : (s.modFb n f).powerView = s.powerView := rfl
@[simp] theorem State.withEvid_powerView (e : Evid) : ({ s with evid := e } : State).powerView = s.powerView := rfl
@[simp] theorem State.withNarr_powerView (n : Narr) : ({ s with narr := n } : State).powerView = s.powerView := rfl
@[simp] theorem State.withTkp_powerView (k : Tkp) : ({ s with tkp := k } : State).powerView = s.powerView := rfl
@[simp] theorem State.withMem_powerView (m : Mem) : ({ s with mem := m } : State).powerView = s.powerView := rfl
@[simp] theorem State.withPwr_powerView (p : Pwr) : ({ s with pwr := p } : State).powerView = s.powerView := rfl
end

/-! ### Memory and delivery -/

theorem State.MemStep.powerView (h : s.MemStep t) : t.powerView = s.powerView := by
  obtain ⟨⟨_, _, _, _, _, _, _, rfl⟩, -⟩ := h
  rfl

variable (s)

@[simp] theorem State.raise_powerView (f : FaultInfo) : (s.raise f).powerView = s.powerView := (s.memStep_raise f).powerView

@[simp] theorem State.store_powerView (ways a : Nat) (bs : List Byte) : (s.store ways a bs).powerView = s.powerView :=
  (s.memStep_store ways a bs).powerView

@[simp] theorem State.msix_powerView (v : Nat) : (s.msix v).powerView = s.powerView := by
  obtain ⟨_, _, h⟩ := s.msix_frame v
  rw [h]
  rfl

@[simp] theorem State.ringPut_powerView (n : Nat) (bs : List Byte) : (s.ringPut n bs).2.powerView = s.powerView := by
  obtain ⟨_, _, _, h⟩ := s.ringPut_frame n bs
  rw [h]
  rfl

@[simp] theorem State.collPut_powerView (k : Nat) (bs : List Byte) : (s.collPut k bs).2.powerView = s.powerView := by
  obtain ⟨_, _, h⟩ := s.collPut_frame k bs
  rw [h]
  rfl

@[simp] theorem State.collFlush_powerView (k : Nat) : (s.collFlush k).powerView = s.powerView := State.ite_powerView rfl rfl

@[simp] theorem State.route_powerView (n ty : Nat) (bytes : List Byte) : (s.route n ty bytes).powerView = s.powerView := by
  simp only [State.route, apply_ite State.powerView, State.ringPut_powerView, State.collPut_powerView, ite_self]

@[simp] theorem State.streamOut_powerView (n ty pts : Nat) (body : List Byte) : (s.streamOut n ty pts body).powerView = s.powerView :=
  State.ite_powerView rfl (State.route_powerView _ _ _ _)

/-! ### The Stirrup link and the chain -/

@[simp] theorem State.stirrupDrain_powerView (k : Nat) : (State.stirrupDrain k s).powerView = s.powerView := by
  induction k generalizing s with
  | zero => rfl
  | succ k ih =>
    unfold State.stirrupDrain
    split
    · exact State.ite_powerView (ih _) rfl
    · rfl

@[simp] theorem State.stirrupSend_powerView (kind : Nat) (payload : List Byte) : (s.stirrupSend kind payload).powerView = s.powerView :=
  State.ite_powerView (State.stirrupDrain_powerView _ _) rfl

@[simp] theorem State.mirrorChain_powerView (n : Nat) : (s.mirrorChain n).powerView = s.powerView :=
  State.ite_powerView (State.stirrupSend_powerView _ _ _) rfl

@[simp] theorem State.chainLate_powerView (n : Nat) (e : Entry) : (s.chainLate n e).powerView = s.powerView := State.ite_powerView rfl rfl

/-! ### Pages and frame buffers -/

@[simp] theorem State.pageToZero_powerView (p : Nat) : (s.pageToZero p).powerView = s.powerView := rfl

@[simp] theorem State.pageZeroed_powerView (p : Nat) : (s.pageZeroed p).powerView = s.powerView := by
  simp only [State.pageZeroed, State.zero, State.modPage_powerView, State.modChan_powerView, State.withMem_powerView]

@[simp] theorem State.endReserv_powerView (res : Nat) : (s.endReserv res).powerView = s.powerView := by
  simp only [State.endReserv, State.modReserv_powerView]
  exact State.ite_powerView (State.foldl_powerView State.pageToZero_powerView) rfl

@[simp] theorem State.freeHeld_powerView (p : Nat) : (s.freeHeld p).powerView = s.powerView := by
  simp only [State.freeHeld, apply_ite State.powerView, State.modReserv_powerView, State.pageToZero_powerView, ite_self]

@[simp] theorem State.settleExtent_powerView (id : Nat) : (s.settleExtent id).powerView = s.powerView := by
  unfold State.settleExtent
  split
  · refine State.ite_powerView ?_ rfl
    simp only [State.withTkp_powerView, State.endReserv_powerView]
    exact State.foldl_powerView (fun _ _ => rfl)
  · rfl

@[simp] theorem State.fbDrop_powerView (h : Nat) (ev : Bool) : (s.fbDrop h ev).2.powerView = s.powerView := by
  unfold State.fbDrop
  split
  · rfl
  · simp only [apply_ite Prod.snd, apply_ite State.powerView, State.settleExtent_powerView, State.modFb_powerView, ite_self]

@[simp] theorem State.fbDropSvc_powerView (h : Nat) (ev : Bool) : (s.fbDropSvc h ev).powerView = s.powerView := by
  have hdrop := s.fbDrop_powerView h ev
  unfold State.fbDropSvc
  split
  next heq => rwa [heq] at hdrop
  next heq =>
    rw [heq] at hdrop
    exact Eq.trans (State.raise_powerView _ _) hdrop

@[simp] theorem State.takePage_powerView (res p cls : Nat) (retain : Bool) : (s.takePage res p cls retain).powerView = s.powerView := by
  simp only [State.takePage, State.holdPage, apply_ite State.powerView, State.modReserv_powerView, State.modPage_powerView, ite_self]

variable {s}

theorem State.powerView_of_allocPage {res cls p : Nat} {retain : Bool} (h : s.allocPage res cls retain = some (p, t)) :
    t.powerView = s.powerView := by
  unfold State.allocPage at h
  split at h
  · cases h
  split at h
  · cases h
    exact State.takePage_powerView _ _ _ _ _
  split at h
  · cases h
    rw [State.takePage_powerView]
    exact State.foldl_powerView (fun t q => State.ite_powerView (t.pageZeroed_powerView q) rfl)
  · cases h

theorem State.powerView_of_allocPages {res cls n : Nat} {retain : Bool} {acc ps : List Nat}
    (h : s.allocPages res cls retain n acc = some (ps, t)) : t.powerView = s.powerView := by
  induction n generalizing s acc with
  | zero => cases h; rfl
  | succ n ih =>
    unfold State.allocPages at h
    split at h
    next hpage => exact (ih h).trans (State.powerView_of_allocPage hpage)
    next => cases h

variable (s)

/-! ### Evidence (R469) -/

@[simp] theorem State.encStop_powerView (w : EncWork) : (s.encStop w).powerView = s.powerView :=
  State.foldl_powerView (fun _ _ => State.ite_powerView rfl rfl)

@[simp] theorem State.dropEv_powerView (p : Pic) : (s.dropEv p).powerView = s.powerView := by
  unfold State.dropEv
  split
  · exact State.fbDropSvc_powerView _ _ _
  · rfl

@[simp] theorem State.evidEntry_powerView (n sub id first last : Nat) (digest : List Byte) :
    (s.evidEntry n sub id first last digest).powerView = s.powerView := State.ite_powerView rfl (State.chainLate_powerView _ _ _)

@[simp] theorem State.evidPush_powerView (n id : Nat) (bytes : List Byte) : (s.evidPush n id bytes).powerView = s.powerView :=
  State.ite_powerView (Eq.trans (State.foldl_powerView (fun _ _ => rfl)) (State.collFlush_powerView _ _)) rfl

@[simp] theorem State.deliverEvid_powerView (n id kind flags first last pts res : Nat) (bytes : List Byte) :
    (s.deliverEvid n id kind flags first last pts res bytes).powerView = s.powerView := by
  unfold State.deliverEvid
  dsimp only
  split
  next => rfl
  next halloc =>
    simp only [State.withEvid_powerView, State.mirrorChain_powerView, State.streamOut_powerView, State.evidPush_powerView,
      State.evidEntry_powerView, State.store_powerView]
    exact Eq.trans (State.foldl_powerView (fun _ _ => State.store_powerView _ _ _ _)) (State.powerView_of_allocPages halloc)

@[simp] theorem State.closeClip_powerView (c : Clip) (truncated : Bool) : (s.closeClip c truncated).powerView = s.powerView := by
  unfold State.closeClip
  extract_lets s1 evid s2 s3 s4 last s5
  have h2 : s2.powerView = s.powerView := s.encStop_powerView (.clip c.id)
  have h3 : s3.powerView = s2.powerView := State.foldl_powerView (fun _ _ => State.ite_powerView rfl rfl)
  have h4 : s4.powerView = s3.powerView := State.foldl_powerView State.dropEv_powerView
  have h5 : s5.powerView = s4.powerView := State.ite_powerView (State.evidEntry_powerView _ _ _ _ _ _ _) rfl
  rw [← h2, ← h3, ← h4, ← h5]
  exact State.ite_powerView (State.endReserv_powerView _ _) (State.deliverEvid_powerView _ _ _ _ _ _ _ _ _ _)

@[simp] theorem State.cancelSnap_powerView (k : Snapshot) : (s.cancelSnap k).powerView = s.powerView := by
  simp only [State.cancelSnap, State.endReserv_powerView, State.evidEntry_powerView, State.withEvid_powerView, State.dropEv_powerView,
    State.encStop_powerView]

theorem State.dropQueued_powerView (p : EvidReq → Bool) {f : State → EvidReq → State}
    (h : ∀ t r, (f t r).powerView = t.powerView) : (s.dropQueued p f).powerView = s.powerView :=
  State.foldl_powerView (s := { s with evid := _ }) (fun _ _ => h _ _)

@[simp] theorem State.evidRefuse_powerView (req : EvidReq) (code : Nat) : (s.evidRefuse req code).powerView = s.powerView := by
  simp only [State.evidRefuse, State.raise_powerView, State.count_powerView, State.evidEntry_powerView]

@[simp] theorem State.evidStop_powerView : s.evidStop.powerView = s.powerView := by
  simp only [State.evidStop, State.dropQueued_powerView _ _ (fun t (r : EvidReq) => t.evidRefuse_powerView r fltVenShed)]
  exact Eq.trans (State.foldl_powerView State.cancelSnap_powerView) (State.foldl_powerView (fun t c => t.closeClip_powerView c true))

/-! ### The Narrator (R469) -/

@[simp] theorem State.narrEntry_powerView (req : NarrReq) (sub session : Nat) : (s.narrEntry req sub session).powerView = s.powerView :=
  State.chainLate_powerView _ _ _

@[simp] theorem State.narrRefuse_powerView (req : NarrReq) (sub code : Nat) : (s.narrRefuse req sub code).powerView = s.powerView := by
  simp only [State.narrRefuse, State.raise_powerView, State.withNarr_powerView, State.narrEntry_powerView]

@[simp] theorem State.narrMirror_powerView : s.narrMirror.powerView = s.powerView :=
  State.ite_powerView (State.ite_powerView (State.stirrupSend_powerView _ _ _)
    (State.foldl_powerView (fun _ _ => State.stirrupSend_powerView _ _ _))) rfl

@[simp] theorem State.caption_powerView (x : Session) (flags : Nat) (text : List Byte) (final : Bool) :
    (s.caption x flags text final).powerView = s.powerView := by
  simp only [State.caption, apply_ite State.powerView, State.chainLate_powerView, State.mirrorChain_powerView, State.streamOut_powerView,
    ite_self]

@[simp] theorem State.narrEnd_powerView (num flags : Nat) (withText : Bool) : (s.narrEnd num flags withText).powerView = s.powerView := by
  unfold State.narrEnd
  split
  · rw [State.narrMirror_powerView, State.foldl_powerView State.freeHeld_powerView]
    exact State.caption_powerView _ _ _ _ _
  · rfl

@[simp] theorem State.narrSession_powerView (d : NarratorDecl) (w : NarrWait) (num : Nat) :
    (s.narrSession d w num).powerView = s.powerView := by
  simp only [State.narrSession, State.narrMirror_powerView, State.withNarr_powerView]
  cases halloc : s.allocPages s.narr.kvRes 0 false (NarratorDecl.sessionPages d) [] with
  | none => rfl
  | some got => exact State.powerView_of_allocPages halloc

@[simp] theorem State.narrOpen_powerView (d : NarratorDecl) (w : NarrWait) : (s.narrOpen d w).2.powerView = s.powerView := by
  unfold State.narrOpen
  split
  · rfl
  · simp only [apply_ite Prod.snd, apply_ite State.powerView, State.narrRefuse_powerView, State.narrEntry_powerView,
      State.narrSession_powerView, ite_self]

@[simp] theorem State.narrRefill_powerView (n : Nat) : (State.narrRefill n s).powerView = s.powerView := by
  induction n generalizing s with
  | zero => rfl
  | succ n ih =>
    unfold State.narrRefill
    split
    · exact State.ite_powerView (Eq.trans (ih _) (State.narrOpen_powerView { s with narr := _ } _ _)) rfl
    · rfl

@[simp] theorem State.narrBoundary_powerView : s.narrBoundary.powerView = s.powerView := by
  simp only [State.narrBoundary, State.narrRefill_powerView]
  exact State.foldl_powerView (fun t x => State.ite_powerView (t.narrEnd_powerView _ _ _)
    (State.ite_powerView (t.narrEnd_powerView _ _ _) rfl))

@[simp] theorem State.narrShed_powerView (on : Bool) : (s.narrShed on).powerView = s.powerView := by
  simp only [State.narrShed, apply_ite State.powerView, State.narrBoundary_powerView, State.narrMirror_powerView, State.withNarr_powerView,
    State.foldl_powerView (fun t (w : NarrWait) => t.narrRefuse_powerView w.req 4 fltNarShed), ite_self]

/-! ### Steps of shedding (R468, R469) -/

@[simp] theorem State.shedAct_powerView (n step : Nat) : (s.shedAct n step).powerView = s.powerView :=
  State.ite_powerView (State.ite_powerView s.evidStop_powerView rfl) (State.ite_powerView (s.narrShed_powerView _) rfl)

@[simp] theorem State.shedRecord_powerView (byBudget : Bool) (step : Nat) : (s.shedRecord byBudget step).powerView = s.powerView :=
  State.raise_powerView { s with pwr := _ } _

@[simp] theorem State.enterStep_powerView (n : Nat) (byBudget : Bool) : (s.enterStep n byBudget).powerView = s.powerView := by
  simp only [State.enterStep, State.shedAct_powerView, State.shedRecord_powerView, State.withPwr_powerView]

@[simp] theorem State.leaveStep_powerView (n : Nat) : (s.leaveStep n).powerView = s.powerView := by
  simp only [State.leaveStep, State.shedAct_powerView, State.shedRecord_powerView, State.withPwr_powerView]

end Sys2Proof.Machine
end

