-- ==== Sys2Proof/Proofs/PowerViewOfPair.lean ====
section
/-! PROOFS. Rein's registers, the running figures of contexts, the clocks and the link's state through the end of the pair's link and
a takeover (R453, R492, R495, R496). -/
namespace Sys2Proof.Machine
open Sys2Proof

variable {s t : State}

/-! ### Writes of other units -/

section
variable (s)
@[simp] theorem State.modIng_powerView (n : Nat) (f : SlotIngest → SlotIngest) : (s.modIng n f).powerView = s.powerView := rfl
@[simp] theorem State.modDec_powerView (n : Nat) (f : SlotDecode → SlotDecode) : (s.modDec n f).powerView = s.powerView := rfl
@[simp] theorem State.modCtx_powerView (n : Nat) (f : Ctx → Ctx) : (s.modCtx n f).powerView = s.powerView := rfl
@[simp] theorem State.draw_powerView (w : Nat) : (s.draw w).2.powerView = s.powerView := rfl
@[simp] theorem State.newShadow_powerView (n : Nat) : (s.newShadow n).powerView = s.powerView := rfl
@[simp] theorem State.withStc_powerView (c : Stc) : ({ s with stc := c } : State).powerView = s.powerView := rfl
@[simp] theorem State.withKpr_powerView (k : Kpr) : ({ s with kpr := k } : State).powerView = s.powerView := rfl
@[simp] theorem State.withPairSh_powerView (p : PairShadow) : ({ s with pairSh := p } : State).powerView = s.powerView := rfl
end

/-- A write of the pair's registers that leaves the link as it is. -/
theorem State.modPair_powerView (s : State) {f : Pair → Pair} (h : ∀ p, (f p).link = p.link) :
    (s.modPair f).powerView = s.powerView := State.powerView_eq_iff.mpr ⟨rfl, rfl, rfl, h s.pair⟩

variable (s)

/-! ### A slot becomes a shadow (R500) -/

@[simp] theorem State.evidGone_powerView (req : EvidReq) : (s.evidGone req).powerView = s.powerView := by
  simp only [State.evidGone, State.count_powerView, State.evidEntry_powerView]

@[simp] theorem State.ringClear_powerView (n : Nat) : (s.ringClear n).powerView = s.powerView := by
  simp only [State.ringClear, State.modSlot_powerView, State.foldl_powerView State.dropEv_powerView]

@[simp] theorem State.truncateSlot_powerView (n : Nat) : (s.truncateSlot n).powerView = s.powerView :=
  State.foldl_powerView (fun t c => t.closeClip_powerView c true)

@[simp] theorem State.evidEndSlot_powerView (n : Nat) : (s.evidEndSlot n).powerView = s.powerView := by
  simp only [State.evidEndSlot, State.ringClear_powerView, State.dropQueued_powerView _ _ State.evidGone_powerView,
    State.foldl_powerView State.cancelSnap_powerView, State.truncateSlot_powerView]

@[simp] theorem State.decodeEndSlot_powerView (n : Nat) : (s.decodeEndSlot n).powerView = s.powerView := by
  unfold State.decodeEndSlot
  extract_lets d s1 s2 s3
  have h1 : s1.powerView = s.powerView := State.foldl_powerView (fun t p => t.fbDropSvc_powerView p.2 false)
  have h2 : s2.powerView = s1.powerView := by
    unfold s2
    split
    · exact State.fbDropSvc_powerView _ _ _
    · rfl
  have h3 : s3.powerView = s2.powerView := by
    unfold s3
    split
    · exact State.ite_powerView (State.fbDropSvc_powerView (s2.modEngine _ _) _ _) rfl
    · rfl
  rw [State.modDec_powerView, h3, h2, h1]

@[simp] theorem State.rtspSend_powerView (n method : Nat) : (s.rtspSend n method).powerView = s.powerView := rfl

@[simp] theorem State.dropCall_powerView (n : Nat) : (s.dropCall n).powerView = s.powerView := by
  refine Eq.trans (State.foldl_powerView (fun t u => ?_)) (s.withStc_powerView _)
  split
  · exact State.ite_powerView rfl rfl
  · rfl

@[simp] theorem State.modTracks_powerView (n : Nat) (f : SlotTrack → SlotTrack) : (s.modTracks n f).powerView = s.powerView :=
  (s.memStep_modTracks n f).powerView

@[simp] theorem State.checkpoint_powerView (n : Nat) : (s.checkpoint n).powerView = s.powerView := (s.memStep_checkpoint n).powerView

@[simp] theorem State.emptyTracks_powerView (n : Nat) : (s.emptyTracks n).powerView = s.powerView := by
  simp only [State.emptyTracks, State.checkpoint_powerView, State.modTracks_powerView, State.dropCall_powerView]

@[simp] theorem State.toShadow_powerView (n : Nat) : (s.toShadow n).powerView = s.powerView := by
  unfold State.toShadow
  extract_lets x s1 s2 s3 s4 s5
  have h2 : s2.powerView = s1.powerView := by
    refine State.foldl_powerView (fun t p => ?_)
    split
    · exact t.fbDropSvc_powerView _ _
    · rfl
  have h4 : s4.powerView = s3.powerView := State.ite_powerView (s3.rtspSend_powerView n 5) rfl
  have h5 : s5.powerView = s4.powerView := State.foldl_powerView (fun t r => t.route_powerView n r.1 r.2.2)
  refine State.ite_powerView rfl ?_
  rw [State.modSlot_powerView, State.newShadow_powerView, State.emptyTracks_powerView, h5, h4, State.decodeEndSlot_powerView, h2,
    State.evidEndSlot_powerView]

/-! ### Groups that close (R443 to R446, R453) -/

@[simp] theorem State.auditBytes_powerView (pages : List Nat) (at_ : Nat) (bs : List Byte) :
    (s.auditBytes pages at_ bs).powerView = s.powerView := State.foldl_powerView (fun _ _ => rfl)

@[simp] theorem State.auditPush_powerView (n : Nat) (bs : List Byte) : (s.auditPush n bs).powerView = s.powerView :=
  State.ite_powerView rfl rfl

@[simp] theorem State.auditWrite_powerView (n num : Nat) (es : List Entry) : (s.auditWrite n num es).powerView = s.powerView := by
  simp only [State.auditWrite, apply_ite State.powerView, State.auditPush_powerView, State.modChain_powerView, State.auditBytes_powerView,
    ite_self]

@[simp] theorem State.cutCheckpoint_powerView (n flags pts : Nat) : (s.cutCheckpoint n flags pts).powerView = s.powerView := by
  simp only [State.cutCheckpoint, State.withKpr_powerView, State.modChain_powerView]

@[simp] theorem State.divergeCut_powerView (n : Nat) : (s.divergeCut n).powerView = s.powerView :=
  State.ite_powerView rfl (State.cutCheckpoint_powerView _ _ _ _)

@[simp] theorem State.diverge_powerView (n g unit : Nat) (value : List Byte) : (s.diverge n g unit value).powerView = s.powerView := by
  simp only [State.diverge, State.divergeCut_powerView, State.raise_powerView, State.modChain_powerView]

@[simp] theorem State.compareFrom_powerView (n k : Nat) : (State.compareFrom n k s).powerView = s.powerView := by
  induction k generalizing s with
  | zero => rfl
  | succ k ih =>
    unfold State.compareFrom
    extract_lets c late
    have hlate (len g : Nat) : (late len g).powerView = s.powerView := State.ite_powerView (s.diverge_powerView n g 0xFF _) rfl
    split
    · simp only [apply_ite State.powerView, ih, State.diverge_powerView, State.modChain_powerView, ite_self]
    · exact hlate _ _
    · exact hlate _ _
    · rfl

@[simp] theorem State.compareChain_powerView (n : Nat) : (s.compareChain n).powerView = s.powerView :=
  State.ite_powerView rfl (State.compareFrom_powerView _ _ _)

@[simp] theorem State.closeGroup_powerView (n g : Nat) : (s.closeGroup n g).powerView = s.powerView := by
  unfold State.closeGroup
  extract_lets x leads rest final every
  split
  · rfl
  extract_lets forced s1 cfg es s2 s3 s4 s5
  have h1 : s1.powerView = s.powerView := State.ite_powerView (s.stirrupSend_powerView _ _) rfl
  have h4 : s4.powerView = s3.powerView := by
    unfold s4
    split
    · exact s3.cutCheckpoint_powerView _ _ _
    · exact State.ite_powerView (s3.cutCheckpoint_powerView _ _ _) rfl
  simp only [apply_ite State.powerView, State.compareChain_powerView, State.modChain_powerView, State.stirrupSend_powerView, s5,
    State.mirrorChain_powerView, h4, s3, State.auditWrite_powerView, s2, h1, ite_self]

@[simp] theorem State.settleFrom_powerView (n : Nat) (l : List Group) : (State.settleFrom n l s).powerView = s.powerView := by
  induction l generalizing s with
  | nil => rfl
  | cons g l ih => exact State.ite_powerView (Eq.trans (ih _) (s.closeGroup_powerView n g.num)) rfl

@[simp] theorem State.stopLockstep_powerView (n : Nat) : (s.stopLockstep n).powerView = s.powerView := by
  simp only [State.stopLockstep, State.settleGroups, State.settleFrom_powerView, State.modChain_powerView]

/-! ### The link goes down (R492) -/

@[simp] theorem HeldReply.deliver_powerView (h : HeldReply) : (h.deliver s).powerView = s.powerView := by
  cases h with
  | op w st v => exact State.ite_powerView rfl rfl
  | mailbox bs => exact State.ite_powerView (State.msix_powerView { s with pci := _ } 0) rfl
  | udp n tag bs => exact State.ite_powerView rfl rfl
  | can bs =>
    refine State.ite_powerView ?_ rfl
    rw [State.emits_eq]
    rfl

/-- Once the link is up, its end leaves it down, and nothing else of what Rein and the clocks hold changes. -/
theorem State.linkDown_powerView_up (h : s.pair.link = 2) :
    s.linkDown.powerView = (s.modPair (fun p => { p with link := 0 })).powerView := by
  unfold State.linkDown
  rw [if_neg (not_not_intro h)]
  extract_lets held half wait s1 s2 s3 s4 s5
  have h3 : s3.powerView = s2.powerView := by
    refine State.foldl_powerView (fun t n => ?_)
    simp only [State.modSlot_powerView, State.foldl_powerView (fun t (r : Nat × Nat × List Byte) => t.route_powerView n r.1 r.2.2)]
  have h4 : s4.powerView = s3.powerView :=
    State.foldl_powerView (fun t n => Eq.trans (State.modPair_powerView _ (fun _ => rfl)) (t.toShadow_powerView n))
  have h5 : s5.powerView = s4.powerView := State.ite_powerView (State.foldl_powerView State.stopLockstep_powerView) rfl
  rw [State.foldl_powerView (fun t (w : HeldReply × Nat) => w.1.deliver_powerView t), h5, h4, h3, State.raise_powerView]
  rfl

theorem State.linkDown_down (h : s.pair.link ≠ 2) : s.linkDown = s := if_pos h

theorem State.linkDown_clk : s.linkDown.clk = s.clk := by
  by_cases h : s.pair.link = 2
  · exact (State.powerView_eq_iff.mp (s.linkDown_powerView_up h)).2.2.1
  · rw [s.linkDown_down h]

theorem State.linkDown_link : s.linkDown.pair.link ≠ 2 := by
  by_cases h : s.pair.link = 2
  · rw [(State.powerView_eq_iff.mp (s.linkDown_powerView_up h)).2.2.2]
    exact Nat.zero_ne_add_one 1
  · rwa [s.linkDown_down h]

/-! ### Takeover (R495, R496) -/

@[simp] theorem State.wipePartition_powerView (x : Ctx) : (s.wipePartition x).powerView = s.powerView :=
  Eq.trans (State.foldl_powerView (fun _ _ => rfl)) (State.foldl_powerView (fun _ _ => rfl))

@[simp] theorem State.startClusters_powerView (c : Nat) (x : Ctx) (d : ImageDecl) : (s.startClusters c x d).powerView = s.powerView :=
  Eq.trans (State.foldl_powerView (fun _ _ => rfl)) (State.foldl_powerView (fun _ _ => rfl))

@[simp] theorem State.startCores_powerView (c : Nat) (x : Ctx) (d : ImageDecl) : (s.startCores c x d).powerView = s.powerView := by
  refine State.foldl_powerView (fun t j => ?_)
  split <;> rfl

@[simp] theorem State.startPartition_powerView (c : Nat) : (s.startPartition c).powerView = s.powerView := by
  unfold State.startPartition
  dsimp only
  split
  · rfl
  · simp only [State.modCtx_powerView, State.startCores_powerView, State.startClusters_powerView, State.wipePartition_powerView]

@[simp] theorem State.bindEntry_powerView (n c sub code : Nat) : (s.bindEntry n c sub code).powerView = s.powerView :=
  State.ite_powerView rfl (s.chainLate_powerView _ _)

@[simp] theorem State.startStanding_powerView (c : Nat) : (s.startStanding c).powerView = s.powerView :=
  State.ite_powerView (Eq.trans (State.foldl_powerView (fun t n => t.bindEntry_powerView n c 0 0)) (s.startPartition_powerView c)) rfl

@[simp] theorem State.shedFailover_powerView : s.shedFailover.powerView = s.powerView :=
  State.ite_powerView (s.enterStep_powerView _ _) rfl

@[simp] theorem State.loadShadow_powerView (n : Nat) : (s.loadShadow n).powerView = s.powerView := by
  refine State.ite_powerView rfl ?_
  refine Eq.trans (State.foldl_powerView (fun _ _ => rfl)) ?_
  rw [State.modSlot_powerView, State.checkpoint_powerView, State.modTracks_powerView]

@[simp] theorem State.rtspOpen_powerView (n : Nat) : (s.rtspOpen n).powerView = s.powerView := by
  simp only [State.rtspOpen, apply_ite State.powerView, State.modIng_powerView, State.raise_powerView, State.rtspSend_powerView, ite_self]

@[simp] theorem State.promote_powerView (n : Nat) (kind : WaitKind) (gap : Bool) : (s.promote n kind gap).powerView = s.powerView := by
  simp only [State.promote, apply_ite State.powerView, State.rtspOpen_powerView, State.modSlot_powerView, ite_self]

@[simp] theorem State.narrReopen_powerView (w : NarrWait) : (s.narrReopen w).powerView = s.powerView := by
  unfold State.narrReopen
  split
  · exact s.narrSession_powerView _ _ _
  · rfl
  · rfl

@[simp] theorem State.takeover_powerView : s.takeover.powerView = s.powerView := by
  unfold State.takeover
  extract_lets s1 s2 lead s3 s4 s5 ns s6 s7 d s8 sessions
  have h2 : s2.powerView = s.powerView := Eq.trans (s1.raise_powerView _) (s.modPair_powerView (fun _ => rfl))
  have h3 : s3.powerView = s2.powerView := s2.modPair_powerView (fun _ => rfl)
  have h4 : s4.powerView = s3.powerView := State.foldl_powerView State.startStanding_powerView
  have h6 : s6.powerView = s5.powerView :=
    State.foldl_powerView (fun t n => Eq.trans (State.promote_powerView _ _ _ _) (t.loadShadow_powerView n))
  have h7 : s7.powerView = s6.powerView := State.foldl_powerView State.narrReopen_powerView
  have h8 : s8.powerView = s7.powerView := Eq.trans (d.2.modPair_powerView (fun _ => rfl)) (s7.draw_powerView 32)
  refine State.ite_powerView (Eq.trans (s2.withPairSh_powerView _) h2) ?_
  rw [State.withPairSh_powerView, h8, h7, h6, State.shedFailover_powerView, h4, h3, h2]

@[simp] theorem State.judge_powerView : s.judge.powerView = s.powerView :=
  State.ite_powerView rfl
    (State.ite_powerView (State.ite_powerView s.takeover_powerView rfl)
      (State.ite_powerView (State.ite_powerView rfl (Eq.trans (State.raise_powerView _ _) (s.modPair_powerView (fun _ => rfl))))
        (s.modPair_powerView (fun _ => rfl))))

/-- The Stirrup reference is lost (R478): the link is not up, whatever a takeover then does. -/
theorem State.refLost_stirrup : (s.refLost .stirrup).clk = { s.clk with stpRef := false } ∧ (s.refLost .stirrup).pair.link ≠ 2 := by
  unfold State.refLost
  extract_lets u
  have hclk : u.clk = s.clk := s.raise_clk _
  generalize hw : ({ u with clk := { u.clk with stpRef := false } } : State) = w
  obtain ⟨-, -, hjudged, hlink⟩ := State.powerView_eq_iff.mp w.linkDown.judge_powerView
  refine ⟨?_, fun h => w.linkDown_link (hlink ▸ h)⟩
  rw [hjudged, w.linkDown_clk, ← hw, hclk]

end Sys2Proof.Machine
end

