-- ==== Sys2Proof/Proofs/Leakage.lean ====
section
/-! PROOFS. The leakage table (R597): one equation over its five rows. -/
namespace Sys2Proof.Machine
open Sys2Proof

/-- Leakage between the table's rows, and outside them. -/
theorem leakage_eq (t : Nat) : leakage t =
    if t ≤ 25 then 8000
    else if t ≤ 45 then 8000 + (5000 * (t - 25) + 19) / 20
    else if t ≤ 65 then 13000 + (8000 * (t - 45) + 19) / 20
    else if t ≤ 85 then 21000 + (12500 * (t - 65) + 19) / 20
    else if t ≤ 105 then 33500 + (19500 * (t - 85) + 19) / 20
    else 53000 := by
  simp only [leakage, leakTable, leakAt, ceilDiv]
  repeat' split
  all_goals omega

theorem leakage_between {t : Nat} (h : t ≤ 20) : leakage (25 + t) = 8000 + (5000 * t + 19) / 20 ∧
    leakage (45 + t) = 13000 + (8000 * t + 19) / 20 ∧ leakage (65 + t) = 21000 + (12500 * t + 19) / 20 ∧
    leakage (85 + t) = 33500 + (19500 * t + 19) / 20 := by
  simp only [leakage_eq]
  and_intros
  all_goals
    repeat' split
    all_goals omega

theorem leakage_mono {t t' : Nat} (h : t ≤ t') : leakage t ≤ leakage t' := by
  rw [leakage_eq, leakage_eq]
  repeat' split
  all_goals omega

end Sys2Proof.Machine
end

