-- ==== Sys2Proof/Proofs/Throttling.lean ====
section
/-! PROOFS. Duties and the budget in a tick (R459, R461, R463): every change of a tick before its shedding is one of Rein's own
registers, of running figures of contexts, and of the free values. -/
namespace Sys2Proof.Machine
open Sys2Proof

@[simp] theorem State.modRne_rne (s : State) (f : Rne → Rne) : (s.modRne f).rne = f s.rne := rfl

/-- Rein steers the contexts: shares, duties and the budget's step change, with every allotment and the range of every duty kept. -/
structure State.Steers (s t : State) : Prop where
  frame : ∃ lent high phase under step cuts runs od, t = { s with
    rne := { s.rne with lent := lent, overTicks := high, phase := phase, under := under, budgetStep := step, cuts := cuts }
    ctxRuns := runs, od := od }
  allot : ∀ c, (t.ctxRun c).allotMw = (s.ctxRun c).allotMw
  duty : ∀ c, 1 ≤ (s.ctxRun c).duty ∧ (s.ctxRun c).duty ≤ 16 → 1 ≤ (t.ctxRun c).duty ∧ (t.ctxRun c).duty ≤ 16

namespace State.Steers

variable {s t u : State}

theorem refl (s : State) : s.Steers s := ⟨⟨_, _, _, _, _, _, _, _, rfl⟩, fun _ => rfl, fun _ h => h⟩

theorem trans (h : s.Steers t) (h' : t.Steers u) : s.Steers u := by
  obtain ⟨⟨_, _, _, _, _, _, _, _, rfl⟩, hallot, hduty⟩ := h
  obtain ⟨⟨_, _, _, _, _, _, _, _, rfl⟩, hallot', hduty'⟩ := h'
  exact ⟨⟨_, _, _, _, _, _, _, _, rfl⟩, fun c => (hallot' c).trans (hallot c), fun c hc => hduty' c (hduty c hc)⟩

theorem foldl {α : Type} {f : State → α → State} {l : List α} (h : ∀ (t : State) a, t.Steers (f t a)) : s.Steers (l.foldl f s) := by
  induction l generalizing s with
  | nil => exact refl s
  | cons a l ih => exact (h s a).trans ih

theorem ite {c : Prop} [Decidable c] (ht : s.Steers t) (hu : s.Steers u) : s.Steers (if c then t else u) := by
  split
  · exact ht
  · exact hu

/-- A write of Rein's registers for lending and the budget. -/
theorem budget (s : State) (lent high phase under step : Nat) (cuts : List Nat) : s.Steers (s.modRne (fun r =>
    { r with lent := lent, overTicks := high, phase := phase, under := under, budgetStep := step, cuts := cuts })) :=
  ⟨⟨_, _, _, _, _, _, _, _, rfl⟩, fun _ => rfl, fun _ h => h⟩

theorem draw (s : State) (w : Nat) : s.Steers (s.draw w).2 := ⟨⟨_, _, _, _, _, _, _, _, rfl⟩, fun _ => rfl, fun _ h => h⟩

/-- A write of one context's running figures that keeps its allotment and the range of its duty. -/
theorem modRun (s : State) (n : Nat) {f : CtxRun → CtxRun} (hallot : ∀ r, (f r).allotMw = r.allotMw)
    (hduty : ∀ r, 1 ≤ r.duty ∧ r.duty ≤ 16 → 1 ≤ (f r).duty ∧ (f r).duty ≤ 16) : s.Steers (s.modRun n f) where
  frame := ⟨_, _, _, _, _, _, _, _, rfl⟩
  allot c := by
    by_cases hc : c = n
    · rw [hc, State.modRun_ctxRun, hallot]
    · rw [State.modRun_ctxRun_ne _ _ hc]
  duty c := by
    by_cases hc : c = n
    · rw [hc, State.modRun_ctxRun]
      exact hduty _
    · rw [State.modRun_ctxRun_ne _ _ hc]
      exact id

end State.Steers

variable (s : State)

theorem State.steers_shareClass (pool cls : Nat) : s.Steers (s.shareClass pool cls).2 := by
  unfold State.shareClass
  dsimp only
  split
  · exact .refl s
  · exact (State.Steers.draw s 32).trans (.foldl (fun t p => .modRun t p.1 (fun _ => rfl) (fun _ h => h)))

theorem State.steers_shares : s.Steers s.shares := by
  unfold State.shares
  extract_lets lent s1
  have hzero : s.Steers (s.charged.foldl (fun t p => t.modRun p.1 (fun r => { r with lentMw := 0 })) s) :=
    .foldl (fun t p => .modRun t p.1 (fun _ => rfl) (fun _ h => h))
  have h1 : s.Steers s1 := hzero.trans (.budget _ lent _ _ _ _ _)
  exact ((h1.trans (s1.steers_shareClass _ 0)).trans (State.steers_shareClass _ _ 1)).trans (State.steers_shareClass _ _ 2)

theorem State.steers_dutyTick (m : Meters) (p : Nat × Ctx) : s.Steers (s.dutyTick m p) := by
  refine .modRun s p.1 (fun _ => rfl) (fun r hr => ?_)
  dsimp only
  split
  · omega
  · split <;> omega

theorem State.steers_classDuty (cls : Nat) (up : Bool) : s.Steers (s.classDuty cls up) := by
  refine .foldl (fun t p => .modRun t p.1 (fun _ => rfl) (fun r hr => ?_))
  dsimp only
  split <;> omega

theorem State.steers_lowerTick : s.Steers s.lowerTick :=
  .ite (.ite (.budget s _ _ _ _ _ _) (.refl s)) ((State.Steers.budget s _ _ _ _ _ _).trans (State.steers_classDuty _ _ _))

theorem State.steers_raiseTick : s.Steers s.raiseTick := by
  unfold State.raiseTick
  split
  · exact .refl s
  next c cuts _ =>
    have hcuts := State.Steers.budget s s.rne.lent s.rne.overTicks s.rne.phase s.rne.under
      (if c = 3 then s.rne.budgetStep - 1 else s.rne.budgetStep) cuts
    exact .ite hcuts (hcuts.trans (State.steers_classDuty _ _ _))

theorem State.steers_budgetTick (mw : Nat) : s.Steers (s.budgetTick mw) := by
  unfold State.budgetTick
  extract_lets high low s1
  have h1 : s.Steers s1 := .budget s _ _ _ _ _ _
  exact .ite (h1.trans s1.steers_lowerTick) (.ite (h1.trans s1.steers_raiseTick) h1)

/-! ### The device's own limit (R461) -/

section
variable {s : State}

theorem State.foldl_modRun_of_notMem (ps : List (Nat × Ctx)) (f : CtxRun → CtxRun) {c : Nat} (h : c ∉ ps.map (·.1)) :
    (ps.foldl (fun t p => t.modRun p.1 f) s).ctxRun c = s.ctxRun c := by
  induction ps generalizing s with
  | nil => rfl
  | cons p ps ih =>
    rw [List.map_cons, List.mem_cons, not_or] at h
    exact (ih h.2).trans (State.modRun_ctxRun_ne _ _ h.1)

theorem State.foldl_modRun_of_mem {ps : List (Nat × Ctx)} (f : CtxRun → CtxRun) (hnodup : (ps.map (·.1)).Nodup) {c : Nat}
    (h : c ∈ ps.map (·.1)) : (ps.foldl (fun t p => t.modRun p.1 f) s).ctxRun c = f (s.ctxRun c) := by
  induction ps generalizing s with
  | nil => cases h
  | cons p ps ih =>
    obtain ⟨hnew, hrest⟩ := List.nodup_cons.mp hnodup
    rcases List.mem_cons.mp h with rfl | hlater
    · exact (State.foldl_modRun_of_notMem ps f hnew).trans (State.modRun_ctxRun _ _ _)
    · exact (ih hrest hlater).trans (congrArg f (State.modRun_ctxRun_ne _ _ (by rintro rfl; exact hnew hlater)))

/-- One d lower, and 1 at the least. -/
def CtxRun.lowered (r : CtxRun) : CtxRun := { r with duty := max 1 (r.duty - 1) }

theorem State.classDuty_false (s : State) (cls : Nat) : s.classDuty cls false =
    (s.charged.filter (fun p => p.2.cls == cls)).foldl (fun t p => t.modRun p.1 CtxRun.lowered) s := rfl

@[simp] theorem State.classDuty_rne (s : State) (cls : Nat) (up : Bool) : (s.classDuty cls up).rne = s.rne :=
  foldl_keeps State.rne _ (by intros; rfl) _ _

/-- Where no key stands twice, a key names one entry. -/
theorem eq_of_nodup_keys {α : Type} {l : List (Nat × α)} (hnodup : (l.map (·.1)).Nodup) {p q : Nat × α} (hp : p ∈ l) (hq : q ∈ l)
    (hkey : p.1 = q.1) : p = q := by
  induction l with
  | nil => cases hp
  | cons x l ih =>
    obtain ⟨hnew, hrest⟩ := List.nodup_cons.mp hnodup
    rcases List.mem_cons.mp hp with rfl | hpl
    · rcases List.mem_cons.mp hq with rfl | hql
      · rfl
      · exact absurd (List.mem_map.mpr ⟨q, hql, hkey.symm⟩) hnew
    · rcases List.mem_cons.mp hq with rfl | hql
      · exact absurd (List.mem_map.mpr ⟨p, hpl, hkey⟩) hnew
      · exact ih hrest hpl hql

/-- The contexts of the class are lowered, and no other. -/
theorem State.classDuty_lower (hnodup : (s.ctxs.map (·.1)).Nodup) {p : Nat × Ctx} (hp : p ∈ s.charged) (cls : Nat) :
    ((s.classDuty cls false).ctxRun p.1).duty = if p.2.cls = cls then max 1 ((s.ctxRun p.1).duty - 1) else (s.ctxRun p.1).duty := by
  have hcharged : (s.charged.map (·.1)).Nodup := hnodup.sublist (List.filter_sublist.map _)
  rw [State.classDuty_false]
  split
  next hcls =>
    have hmem : p.1 ∈ (s.charged.filter (fun q => q.2.cls == cls)).map (·.1) :=
      List.mem_map_of_mem (List.mem_filter.mpr ⟨hp, beq_iff_eq.mpr hcls⟩)
    rw [State.foldl_modRun_of_mem _ (hcharged.sublist (List.filter_sublist.map _)) hmem, CtxRun.lowered]
  next hcls =>
    rw [State.foldl_modRun_of_notMem]
    intro hmem
    obtain ⟨q, hq, hkey⟩ := List.mem_map.mp hmem
    obtain ⟨hcq, hclsq⟩ := List.mem_filter.mp hq
    rw [eq_of_nodup_keys hcharged hcq hp hkey] at hclsq
    exact hcls (beq_iff_eq.mp hclsq)

theorem State.lowerTick_duty (hnodup : (s.ctxs.map (·.1)).Nodup) (hslow : s.allSlow = false) {p : Nat × Ctx} (hp : p ∈ s.charged) :
    ((s.lowerTick).ctxRun p.1).duty =
      if p.2.cls = 2 - s.rne.phase then max 1 ((s.ctxRun p.1).duty - 1) else (s.ctxRun p.1).duty := by
  unfold State.lowerTick
  rw [hslow, if_neg Bool.false_ne_true]
  exact State.classDuty_lower (s := s.modRne _) hnodup hp _

theorem State.lowerTick_budgetStep (hslow : s.allSlow = false) : s.lowerTick.rne.budgetStep = s.rne.budgetStep := by
  unfold State.lowerTick
  rw [hslow, if_neg Bool.false_ne_true]
  simp only [State.classDuty_rne, State.modRne_rne]

theorem State.lowerTick_allSlow (hslow : s.allSlow = true) (hstep : s.rne.budgetStep < 4) :
    s.lowerTick = s.modRne (fun r => { r with budgetStep := r.budgetStep + 1, cuts := 3 :: r.cuts }) := by
  unfold State.lowerTick
  rw [if_pos hslow, if_pos hstep]

end

end Sys2Proof.Machine
end

