-- ==== Sys2Proof/Proofs/ReinTick.lean ====
section
/-! PROOFS. Heat, the divider and shedding in a tick (R460, R465, R472), and what a whole tick below 110 °C does. -/
namespace Sys2Proof.Machine
open Sys2Proof

/-! ### Heat and the divider (R460, R465) -/

section
variable (s : State) (t : Nat)

theorem State.thermalTick_frame : ∃ hot step n, s.thermalTick t =
    s.modRne (fun r => { r with thermal := hot, thermalStep := step, thermTick := n }) := by
  unfold State.thermalTick
  dsimp only
  split
  · split <;> exact ⟨_, _, _, rfl⟩
  split
  · split <;> exact ⟨_, _, _, rfl⟩
  · exact ⟨_, _, _, rfl⟩

variable {s t}

theorem State.thermalTick_hot (ht : 100 ≤ t) (hstep : s.rne.thermalStep < 4) (hdue : 9 ≤ s.rne.thermTick ∨ s.rne.thermal = false) :
    s.thermalTick t = s.modRne (fun r => { r with thermal := true, thermalStep := r.thermalStep + 1, thermTick := 0 }) := by
  have hdue' : 10 ≤ s.rne.thermTick + 1 ∨ (!s.rne.thermal) = true := hdue.imp (by omega) (fun h => by rw [h, Bool.not_false])
  unfold State.thermalTick
  rw [if_pos ht, if_pos ⟨hstep, hdue'⟩]

theorem State.thermalTick_warm (hlow : 97 ≤ t) (hhigh : t < 100) :
    s.thermalTick t = s.modRne (fun r => { r with thermTick := s.rne.thermTick + 1 }) := by
  unfold State.thermalTick
  rw [if_neg (by omega), if_neg (by omega)]

theorem State.thermalTick_cool (ht : t < 97) (hdue : 999 ≤ s.rne.thermTick) (hstep : 0 < s.rne.thermalStep) :
    (s.thermalTick t).rne.thermalStep = s.rne.thermalStep - 1 := by
  unfold State.thermalTick
  rw [if_neg (by omega), if_pos ht, if_pos ⟨by omega, hstep⟩]
  rfl

end

/-! ### Shedding by budget and the record of throttling (R464, R472) -/

section
variable (s : State)

@[simp] theorem State.leaveByBudget_powerView : s.leaveByBudget.powerView = s.powerView :=
  State.ite_powerView (s.leaveStep_powerView _) rfl

/-- Whatever step of shedding a tick enters or leaves, of Rein's registers its two counts alone change. -/
theorem State.shedTick_powerView (mw : Nat) : ∃ high low, (s.shedTick mw).powerView =
    (s.modRne (fun r => { r with shedOver := high, shedUnder := low })).powerView := by
  unfold State.shedTick
  extract_lets stuck calm s1 counted s2
  have h2 : ∃ high, s2.powerView = (s1.modRne (fun r => { r with shedOver := high })).powerView := by
    unfold s2
    split
    · exact ⟨0, State.ite_powerView (State.enterStep_powerView _ _ _) rfl⟩
    · exact ⟨s1.rne.shedOver, rfl⟩
  obtain ⟨high, h2⟩ := h2
  obtain ⟨hrne, hrun, hclk, hlink⟩ := State.powerView_eq_iff.mp h2
  split
  · refine ⟨high, 0, (State.leaveByBudget_powerView _).trans (State.powerView_eq_iff.mpr ⟨?_, hrun, hclk, hlink⟩)⟩
    exact congrArg (fun r : Rne => { r with shedUnder := 0 }) hrne
  · exact ⟨high, s1.rne.shedUnder, h2⟩

/-- While neither count is full, no step of shedding changes. -/
theorem State.shedTick_counting {s : State} (mw : Nat) (hover : s.rne.shedOver < 9) (hunder : s.rne.shedUnder < 99999) :
    ∃ high low, s.shedTick mw = s.modRne (fun r => { r with shedOver := high, shedUnder := low }) := by
  unfold State.shedTick
  extract_lets stuck calm s1 counted s2
  have h1 : s1.rne.shedOver < 10 ∧ s1.rne.shedUnder < 100000 := by
    constructor
    · change (if stuck then s.rne.shedOver + 1 else 0) < 10
      split <;> omega
    · change (if calm then s.rne.shedUnder + 1 else 0) < 100000
      split <;> omega
  have h2 : s2 = s1 := if_neg (Nat.not_le.mpr h1.1)
  rw [h2, if_neg (Nat.not_le.mpr h1.2)]
  exact ⟨_, _, rfl⟩

/-- The record of throttling: its time, and what a fault's delivery changes. -/
theorem State.throttleEvent_frame : ∃ last o r c p d, s.throttleEvent = { s with
    rne := { s.rne with lastThrottle := last }, out := o, rings := r, colls := c, pci := p, od := d } := by
  unfold State.throttleEvent
  extract_lets on due
  split
  · obtain ⟨o, r, c, b, e, h⟩ := (s.modRne (fun r => { r with lastThrottle := some r.ticks })).raise_frame { code := evtRneThrottle }
    exact ⟨_, o, r, c, _, _, h⟩
  · exact ⟨_, _, _, _, _, _, rfl⟩

theorem State.shedTick_throttleEvent_view (mw : Nat) : ∃ high low last, (s.shedTick mw).throttleEvent.rne =
    { s.rne with shedOver := high, shedUnder := low, lastThrottle := last } ∧ (s.shedTick mw).throttleEvent.ctxRuns = s.ctxRuns := by
  obtain ⟨high, low, hshed⟩ := s.shedTick_powerView mw
  obtain ⟨hrne, hruns, -, -⟩ := State.powerView_eq_iff.mp hshed
  obtain ⟨last, _, _, _, _, _, hevent⟩ := (s.shedTick mw).throttleEvent_frame
  rw [hevent]
  exact ⟨high, low, last, congrArg (fun r : Rne => { r with lastThrottle := last }) hrne, hruns⟩

end

/-! ### A whole tick (R461) -/

section
variable (s : State) (m : Meters)

/-- The meters of a tick are taken. -/
def State.metered : State := s.modRne (fun r => { r with
  ticks := r.ticks + 1, measured := m.powerMw, energy := (r.energy + m.energyUj) % 2 ^ 64 })

/-- A tick up to the device's own limit: meters, shares, duties, the budget. -/
def State.steered : State :=
  let s := (s.metered m).shares
  (s.charged.foldl (fun s p => s.dutyTick m p) s).budgetTick m.powerMw

theorem State.steers_steered : (s.metered m).Steers (s.steered m) := by
  unfold State.steered
  extract_lets u
  have hduty : u.Steers (u.charged.foldl (fun s p => s.dutyTick m p) u) := .foldl (fun t p => t.steers_dutyTick m p)
  exact ((s.metered m).steers_shares.trans hduty).trans (State.steers_budgetTick _ m.powerMw)

/-- A tick up to the divider that it wants. -/
def State.throttled : State := ((s.steered m).thermalTick m.tempC).wantDivider

variable {s m}

theorem State.reinTick_cool (h : m.tempC < 110) : s.reinTick m = ((s.throttled m).shedTick m.powerMw).throttleEvent :=
  if_neg (Nat.not_le.mpr h)

theorem State.reinTick_hot (h : 110 ≤ m.tempC) : s.reinTick m = s.overheat := if_pos h

/-- Of Rein's registers, heat and the divider change those of heat, and the step that is wanted. -/
theorem State.throttled_eq (s : State) (m : Meters) : ∃ hot step n, s.throttled m = (s.steered m).modRne (fun r => { r with
    thermal := hot, thermalStep := step, thermTick := n
    divNext := if max step r.budgetStep = r.divStep then none else some (max step r.budgetStep) }) := by
  unfold State.throttled
  generalize s.steered m = u
  obtain ⟨hot, step, n, h⟩ := u.thermalTick_frame m.tempC
  rw [h]
  exact ⟨hot, step, n, rfl⟩

/-- What is left of Rein's registers and of the contexts' figures after the shedding and the record. -/
theorem State.reinTick_view (h : m.tempC < 110) : ∃ high low last, (s.reinTick m).rne =
      { (s.throttled m).rne with shedOver := high, shedUnder := low, lastThrottle := last } ∧
    (s.reinTick m).ctxRuns = (s.steered m).ctxRuns := by
  obtain ⟨high, low, last, hrne, hruns⟩ := (s.throttled m).shedTick_throttleEvent_view m.powerMw
  obtain ⟨_, _, _, hthrottled⟩ := s.throttled_eq m
  rw [State.reinTick_cool h]
  refine ⟨high, low, last, hrne, hruns.trans ?_⟩
  rw [hthrottled, State.modRne_ctxRuns]

end

/-! ### Rein's registers after a tick -/

section
variable {s : State} {m : Meters}

/-- The registers of heat, the divider and the counts of shedding stand as they were when a tick comes to them. -/
theorem State.steered_rne (s : State) (m : Meters) : ∃ lent high phase under step cuts, (s.steered m).rne = { (s.metered m).rne with
    lent := lent, overTicks := high, phase := phase, under := under, budgetStep := step, cuts := cuts } := by
  obtain ⟨lent, high, phase, under, step, cuts, _, _, h⟩ := (s.steers_steered m).frame
  exact ⟨lent, high, phase, under, step, cuts, congrArg State.rne h⟩

/-- Rein's registers after a tick below 110 °C: its meters, and a divider step that follows the two steps. -/
theorem State.reinTick_rne (h : m.tempC < 110) : ∃ lent high phase under budget cuts hot thermal n more less last, (s.reinTick m).rne =
    { s.rne with
      ticks := s.rne.ticks + 1, measured := m.powerMw, energy := (s.rne.energy + m.energyUj) % 2 ^ 64
      lent := lent, overTicks := high, phase := phase, under := under, budgetStep := budget, cuts := cuts
      thermal := hot, thermalStep := thermal, thermTick := n
      divNext := if max thermal budget = s.rne.divStep then none else some (max thermal budget)
      shedOver := more, shedUnder := less, lastThrottle := last } := by
  obtain ⟨more, less, last, hrne, -⟩ := State.reinTick_view (s := s) h
  obtain ⟨hot, thermal, n, hthrottled⟩ := s.throttled_eq m
  obtain ⟨lent, high, phase, under, budget, cuts, hsteered⟩ := s.steered_rne m
  rw [hrne, hthrottled, State.modRne_rne, hsteered]
  exact ⟨lent, high, phase, under, budget, cuts, hot, thermal, n, more, less, last, rfl⟩

theorem State.reinTick_meters (h : m.tempC < 110) : (s.reinTick m).rne.ticks = s.rne.ticks + 1 ∧
    (s.reinTick m).rne.measured = m.powerMw ∧ (s.reinTick m).rne.energy = (s.rne.energy + m.energyUj) % 2 ^ 64 := by
  obtain ⟨_, _, _, _, _, _, _, _, _, _, _, _, hrne⟩ := State.reinTick_rne (s := s) h
  rw [hrne]
  exact ⟨rfl, rfl, rfl⟩

/-- A tick wants the higher of the two divider steps. -/
theorem State.reinTick_divNext (h : m.tempC < 110) : (s.reinTick m).rne.divNext =
    if max (s.reinTick m).rne.thermalStep (s.reinTick m).rne.budgetStep = s.rne.divStep then none
    else some (max (s.reinTick m).rne.thermalStep (s.reinTick m).rne.budgetStep) := by
  obtain ⟨_, _, _, _, _, _, _, _, _, _, _, _, hrne⟩ := State.reinTick_rne (s := s) h
  rw [hrne]

theorem State.reinTick_allotMw (h : m.tempC < 110) (c : Nat) : ((s.reinTick m).ctxRun c).allotMw = (s.ctxRun c).allotMw := by
  obtain ⟨_, _, _, -, hruns⟩ := State.reinTick_view (s := s) h
  rw [State.ctxRun, hruns]
  exact (s.steers_steered m).allot c

theorem State.reinTick_duty (h : m.tempC < 110) {c : Nat} (hc : 1 ≤ (s.ctxRun c).duty ∧ (s.ctxRun c).duty ≤ 16) :
    1 ≤ ((s.reinTick m).ctxRun c).duty ∧ ((s.reinTick m).ctxRun c).duty ≤ 16 := by
  obtain ⟨_, _, _, -, hruns⟩ := State.reinTick_view (s := s) h
  rw [State.ctxRun, hruns]
  exact (s.steers_steered m).duty c hc

theorem State.reinTick_thermal (h : m.tempC < 110) :
    (s.reinTick m).rne.thermalStep = ((s.steered m).thermalTick m.tempC).rne.thermalStep ∧
    (s.reinTick m).rne.thermal = ((s.steered m).thermalTick m.tempC).rne.thermal := by
  obtain ⟨_, _, _, hrne, -⟩ := State.reinTick_view (s := s) h
  rw [hrne]
  exact ⟨rfl, rfl⟩

/-- Up to heat, a tick leaves the registers of heat and the counts of shedding as they were. -/
theorem State.steered_keeps (s : State) (m : Meters) : (s.steered m).rne.thermalStep = s.rne.thermalStep ∧
    (s.steered m).rne.thermal = s.rne.thermal ∧ (s.steered m).rne.thermTick = s.rne.thermTick ∧
    (s.steered m).rne.shedOver = s.rne.shedOver ∧ (s.steered m).rne.shedUnder = s.rne.shedUnder := by
  obtain ⟨_, _, _, _, _, _, hsteered⟩ := s.steered_rne m
  rw [hsteered]
  exact ⟨rfl, rfl, rfl, rfl, rfl⟩

theorem State.reinTick_hotStep (h : m.tempC < 110) (ht : 100 ≤ m.tempC) (hstep : s.rne.thermalStep < 4)
    (hdue : 9 ≤ s.rne.thermTick ∨ s.rne.thermal = false) :
    (s.reinTick m).rne.thermalStep = s.rne.thermalStep + 1 ∧ (s.reinTick m).rne.thermal = true := by
  obtain ⟨hthermalStep, hthermal⟩ := State.reinTick_thermal (s := s) h
  obtain ⟨hkept, hhot, htick, -, -⟩ := s.steered_keeps m
  rw [← hkept] at hstep
  rw [← htick, ← hhot] at hdue
  simp only [hthermalStep, hthermal, State.thermalTick_hot ht hstep hdue, State.modRne_rne, hkept, and_self]

theorem State.reinTick_warmStep (hlow : 97 ≤ m.tempC) (hhigh : m.tempC < 100) :
    (s.reinTick m).rne.thermalStep = s.rne.thermalStep := by
  obtain ⟨hthermalStep, -⟩ := State.reinTick_thermal (s := s) (show m.tempC < 110 by omega)
  obtain ⟨hkept, -⟩ := s.steered_keeps m
  simp only [hthermalStep, State.thermalTick_warm hlow hhigh, State.modRne_rne, hkept]

theorem State.reinTick_coolStep (ht : m.tempC < 97) (hdue : 999 ≤ s.rne.thermTick) (hstep : 0 < s.rne.thermalStep) :
    (s.reinTick m).rne.thermalStep = s.rne.thermalStep - 1 := by
  obtain ⟨hthermalStep, -⟩ := State.reinTick_thermal (s := s) (show m.tempC < 110 by omega)
  obtain ⟨hkept, -, htick, -, -⟩ := s.steered_keeps m
  rw [← htick] at hdue
  rw [← hkept] at hstep
  rw [hthermalStep, State.thermalTick_cool ht hdue hstep, hkept]

/-! ### Results (R461) -/

/-- What throttling leaves alone: memory, slots, cores, clusters, contexts, and the registers of the supply. -/
def State.resultView (s : State) : Mem × Tbl Slot × Tbl Core × Tbl Cluster × Tbl Ctx × Pwr :=
  (s.mem, s.slots, s.cores, s.clusters, s.ctxs, s.pwr)

@[simp] theorem State.modRne_resultView (s : State) (f : Rne → Rne) : (s.modRne f).resultView = s.resultView := rfl

theorem State.Steers.resultView {t : State} (h : s.Steers t) : t.resultView = s.resultView := by
  obtain ⟨_, _, _, _, _, _, _, _, hframe⟩ := h.frame
  rw [hframe]
  rfl

@[simp] theorem State.throttleEvent_resultView (s : State) : s.throttleEvent.resultView = s.resultView := by
  obtain ⟨_, _, _, _, _, _, hevent⟩ := s.throttleEvent_frame
  rw [hevent]
  rfl

/-- Throttling moves time, never results: while no step of shedding changes, a tick touches nothing of what results rest on. -/
theorem State.reinTick_resultView (h : m.tempC < 110) (hover : s.rne.shedOver < 9) (hunder : s.rne.shedUnder < 99999) :
    (s.reinTick m).resultView = s.resultView := by
  obtain ⟨_, _, _, hthrottled⟩ := s.throttled_eq m
  obtain ⟨-, -, -, hkeptOver, hkeptUnder⟩ := s.steered_keeps m
  have hcounts : (s.throttled m).rne.shedOver = s.rne.shedOver ∧ (s.throttled m).rne.shedUnder = s.rne.shedUnder := by
    simp only [hthrottled, State.modRne_rne, hkeptOver, hkeptUnder, and_self]
  obtain ⟨_, _, hshed⟩ := State.shedTick_counting m.powerMw (hcounts.1 ▸ hover) (hcounts.2 ▸ hunder)
  rw [State.reinTick_cool h, State.throttleEvent_resultView, hshed, State.modRne_resultView, hthrottled, State.modRne_resultView,
    (s.steers_steered m).resultView, State.metered, State.modRne_resultView]

end

end Sys2Proof.Machine
end

