-- ==== Sys2Proof/Proofs/HeatAndClocks.lean ====
section
/-! PROOFS. Calibration and the change of the divider (R457, R460), the hold of a hot device (R465), and the loss and return of
reference clocks (R22, R55, R476 to R478). -/
namespace Sys2Proof.Machine
open Sys2Proof

/-! ### Calibration and the divider (R457, R460) -/

section
variable {s : State}

theorem State.calibrate_cal (s : State) (a b c : Nat) : 32768 ≤ (s.calibrate a b c).rne.cal ∧ (s.calibrate a b c).rne.cal ≤ 131072 := by
  change 32768 ≤ min 131072 (max 32768 _) ∧ min 131072 (max 32768 _) ≤ 131072
  omega

theorem State.calibrate_estimated {b c : Nat} (a : Nat) (h : b + c ≠ 0) : s.calibrate a b c = { s with
    rne := { s.rne with cal := min 131072 (max 32768 ((3 * s.rne.cal + a * 65536 / (b + c)) / 4)) }
    kpr := { s.kpr with reports := [] }, pci := { s.pci with deniedPages := [] } } := by
  unfold State.calibrate
  simp only [if_neg h]
  rfl

theorem answers_arithDividerChange_waits {n : Nat} (hup : s.up = true) (h : s.rne.divNext = none ∨ n % 840 ≠ 0) :
    Answers (.arithDividerChange n) s s := by
  refine answers_congr (answers_whenUp rfl hup) ?_
  split
  · next d hd => exact if_neg (h.resolve_left (by rw [hd]; exact Option.some_ne_none d))
  · rfl

theorem answers_arithDividerChange_changes {n d : Nat} (hup : s.up = true) (hnext : s.rne.divNext = some d) (hn : n % 840 = 0) :
    Answers (.arithDividerChange n) s
      { s with rne := { s.rne with divStep := d, divNext := none }, clk := { s.clk with arithDiv := 4 + d } } := by
  refine answers_congr (answers_whenUp rfl hup) ?_
  rw [hnext]
  exact if_pos hn

end

/-! ### Heat (R465) -/

section
variable {s : State}

theorem State.overheat_holds (s : State) : s.overheat.boot.thermalHold = true ∧ s.overheat.up = false ∧ s.overheat.pair.failOut = true ∧
    s.overheat.fuses = s.fuses ∧ s.overheat.flash = s.flash := by
  obtain ⟨_, _, _, _, _, h⟩ := ({ s with pair := { s.pair with failOut := true } } : State).raise_frame { code := fltPwrThermal }
  unfold State.overheat
  dsimp only
  rw [h]
  exact ⟨rfl, rfl, rfl, rfl, rfl⟩

theorem State.countFail_bootNum (s : State) (n : Nat) : (s.countFail n).boot.bootNum = s.boot.bootNum := by
  unfold State.countFail
  dsimp only
  split
  · rfl
  · split <;> rfl

/-- Stage 1 has no way around it: it is entered and journaled. -/
theorem State.enterStage_one (s : State) : ∃ alt od flash, s.enterStage 1 = { s with
    boot := { s.boot with stage := 1, alt := alt }, od := od, flash := flash } := by
  unfold State.enterStage State.enterFrom
  have hskip (b : Bool) : (b && 1 == 8) = false ∧ (b && 1 == 6) = false := ⟨Bool.and_false b, Bool.and_false b⟩
  dsimp only
  rw [if_neg (by decide), (hskip _).1, (hskip _).2]
  exact ⟨_, _, _, rfl⟩

/-- A boot enters stage 1 with its cause and the next number. -/
theorem State.startBoot_boot (s : State) (cause : Nat) (retry : Bool) : (s.startBoot cause retry).boot.thermalHold = false ∧
    (s.startBoot cause retry).boot.booting = true ∧ (s.startBoot cause retry).boot.stage = 1 ∧
    (s.startBoot cause retry).boot.cause = cause ∧ (s.startBoot cause retry).boot.bootNum = (s.boot.bootNum + 1) % 2 ^ 32 := by
  unfold State.startBoot
  extract_lets s1 s2 g s3
  have h1 : s1.boot.bootNum = s.boot.bootNum := by
    unfold s1
    split
    · exact s.countFail_bootNum _
    · rfl
  obtain ⟨_, _, _, h⟩ := s3.enterStage_one
  rw [h, ← h1]
  exact ⟨rfl, rfl, rfl, rfl, rfl⟩

end

/-! ### The reference clocks (R22, R55, R478) -/

section
variable (s : State) (on : Bool)

theorem State.driveOuts_frame : ∃ e, s.driveOuts on = { s with evt := e } := by
  unfold State.driveOuts
  generalize upto 0 8 = ls
  induction ls generalizing s with
  | nil => exact ⟨s.evt, rfl⟩
  | cons l ls ih => exact ih _

theorem State.foldl_modOutLine_driven (ls : List Nat) {l : Nat} (h : l ∈ ls ∨ (s.outLine l).driven = on) :
    ((ls.foldl (fun s l => s.modOutLine l (fun o => { o with driven := on })) s).outLine l).driven = on := by
  induction ls generalizing s with
  | nil => exact h.resolve_left List.not_mem_nil
  | cons k ls ih =>
    refine ih _ ?_
    by_cases hk : l = k
    · rw [hk, State.modOutLine_outLine]
      exact .inr rfl
    · rw [State.modOutLine_outLine_ne _ _ hk]
      exact h.imp_left (fun hmem => (List.mem_cons.mp hmem).resolve_left hk)

theorem State.driveOuts_driven {l : Nat} (hl : l < 8) : ((s.driveOuts on).outLine l).driven = on :=
  s.foldl_modOutLine_driven on _ (.inl (mem_upto_iff.mpr ⟨Nat.zero_le l, by omega⟩))

end

section
variable {s : State} {c : Nat} {r : SerdesRef}

theorem answers_thermalResetRelease : Answers (.thermalResetRelease c) s
    (if s.boot.thermalHold && decide (c < 95) then s.startBoot 5 false else s) := rfl

theorem answers_thermalResetRelease_holds (h : s.boot.thermalHold = false ∨ 95 ≤ c) : Answers (.thermalResetRelease c) s s := by
  have hstays : (s.boot.thermalHold && decide (c < 95)) = false := by
    rcases h with h | h
    · rw [h, Bool.false_and]
    · rw [decide_eq_false (Nat.not_lt.mpr h), Bool.and_false]
  exact answers_congr answers_thermalResetRelease (by rw [hstays, if_neg Bool.false_ne_true])

theorem answers_thermalResetRelease_boots (hhold : s.boot.thermalHold = true) (hc : c < 95) :
    Answers (.thermalResetRelease c) s (s.startBoot 5 false) :=
  answers_congr answers_thermalResetRelease (by rw [hhold, decide_eq_true hc, Bool.and_self, if_pos rfl])

theorem answers_pllLock : Answers .pllLock s
    (if s.boot.railsOk && s.boot.stage != 0 && !s.clk.running && !s.clk.stopped then
      { s with clk := { s.clk with pllLock := true, running := true, monCount := 200 } }
    else s) := rfl

theorem answers_pllLock_starts (hrails : s.boot.railsOk = true) (hstage : s.boot.stage ≠ 0) (hrunning : s.clk.running = false)
    (hstopped : s.clk.stopped = false) :
    Answers .pllLock s { s with clk := { s.clk with pllLock := true, running := true, monCount := 200 } } :=
  answers_congr answers_pllLock (if_pos (by
    simp only [hrails, bne_iff_ne.mpr hstage, hrunning, hstopped, Bool.not_false, Bool.and_self]))

theorem answers_pllLock_stays (h : s.boot.railsOk = false ∨ s.boot.stage = 0 ∨ s.clk.running = true ∨ s.clk.stopped = true) :
    Answers .pllLock s s := by
  refine answers_congr answers_pllLock (if_neg ?_)
  simp only [Bool.and_eq_true, bne_iff_ne, Bool.not_eq_true']
  rintro ⟨⟨⟨hrails, hstage⟩, hrunning⟩, hstopped⟩
  rcases h with h | h | h | h
  · exact Bool.false_ne_true (h.symm.trans hrails)
  · exact hstage h
  · exact Bool.false_ne_true (hrunning.symm.trans h)
  · exact Bool.false_ne_true (hstopped.symm.trans h)

/-- The state at the loss of the reference: the domains stand still, and FAIL_N is asserted. -/
def State.clocksStopped (s : State) : State := { s with
  clk := { s.clk with pllLock := false, running := false, stopped := true, refLost := true, monCount := 0 }
  pair := { s.pair with failOut := true } }

theorem answers_refclkLoss : Answers .refclkLoss s (s.clocksStopped.driveOuts false) := rfl

theorem reaches_refclkLoss (s : State) : Reaches .refclkLoss s (fun t => t.up = false ∧ (∀ l < 8, (t.outLine l).driven = false) ∧
    t = { s with clk := { s.clk with pllLock := false, running := false, stopped := true, refLost := true, monCount := 0 }
                 pair := { s.pair with failOut := true }, evt := t.evt }) := by
  obtain ⟨e, h⟩ := s.clocksStopped.driveOuts_frame false
  have hdriven {l : Nat} (hl : l < 8) : (({ s.clocksStopped with evt := e } : State).outLine l).driven = false := by
    rw [← h]
    exact s.clocksStopped.driveOuts_driven false hl
  exact reaches_of_answers (answers_congr answers_refclkLoss h) ⟨rfl, fun l hl => hdriven hl, rfl⟩

theorem answers_serdesRefLoss (hup : s.up = true) (h : s.refHere r = true) : Answers (.serdesRefLoss r) s (s.refLost r) := by
  have hanswer : Answers (.serdesRefLoss r) s (if s.up then (if s.refHere r then s.refLost r else s) else _) := rfl
  rwa [hup, if_pos rfl, h, if_pos rfl] at hanswer

theorem State.refLost_pcie (s : State) : s.refLost .pcie =
    { s.raise { code := fltClkSerdesRef } with clk := { s.clk with pcieRef := false } } := by
  unfold State.refLost
  simp only [State.raise_clk]

theorem State.refLost_ethernet (s : State) : s.refLost .ethernet =
    { s.raise { code := fltClkSerdesRef } with clk := { s.clk with ethRef := false, mgmtLock := false } } := by
  unfold State.refLost
  simp only [State.raise_clk]

end

end Sys2Proof.Machine
end

