-- ==== Sys2Proof/Proofs/Rein.lean ====
section
/-! PROOFS. The statement on leakage, calibration, throttling, clocks and the thermal hold. -/
namespace Sys2Proof.Proofs
open Sys2Proof Sys2Proof.Machine

/-- Settles O51: the table from one equation over its rows, a tick from what each of its parts leaves alone, the stop of the clocks
from the state that the command writes, and the lost Stirrup reference from what a takeover leaves alone. -/
theorem rein : Obligations.Rein := by
  unfold Obligations.Rein
  refine ⟨?leakage, ?calibration, ?divider, ?tick, ?lower, fun s => State.lowerTick_allSlow, ?overheat, ?release, ?refclk, ?pllLock, ?serdes⟩
  case leakage =>
    refine ⟨?_, ?_, ?_, ?_, ?_, fun t => leakage_between, fun t t' => leakage_mono, fun s => rfl⟩ <;> decide
  case calibration =>
    intro s a b c hready
    have hcalibrate : Answers (.calibrationUpdate a b c) s (s.calibrate a b c) := answers_whenReady rfl hready
    exact ⟨fun h => answers_congr hcalibrate (State.calibrate_estimated a h), reaches_of_answers hcalibrate (s.calibrate_cal a b c)⟩
  case divider => exact fun s n d hup => ⟨answers_arithDividerChange_waits hup, answers_arithDividerChange_changes hup⟩
  case tick =>
    intro s m hready h
    obtain ⟨hticks, hmeasured, henergy⟩ := State.reinTick_meters (s := s) h
    refine reaches_of_answers (answers_whenReady rfl hready) ⟨hticks, hmeasured, henergy, State.reinTick_allotMw h,
      fun hall c => State.reinTick_duty h (hall c), State.reinTick_divNext h, State.reinTick_hotStep h, State.reinTick_warmStep,
      State.reinTick_coolStep, fun hover hunder => ?_⟩
    simpa only [State.resultView, Prod.mk.injEq] using State.reinTick_resultView h hover hunder
  case lower =>
    exact fun s hnodup hslow => ⟨fun p hp => State.lowerTick_duty hnodup hslow hp, State.lowerTick_budgetStep hslow⟩
  case overheat =>
    intro s m hready h
    have htick : Answers (.reinTick m) s (s.reinTick m) := answers_whenReady rfl hready
    exact reaches_of_answers (answers_congr htick (State.reinTick_hot h)) s.overheat_holds
  case release => exact fun s c => ⟨answers_thermalResetRelease_holds, fun hhold hc =>
    reaches_of_answers (answers_thermalResetRelease_boots hhold hc) (s.startBoot_boot 5 false)⟩
  case refclk => exact reaches_refclkLoss
  case pllLock => exact fun s => ⟨answers_pllLock_starts, answers_pllLock_stays⟩
  case serdes =>
    intro s hup
    refine ⟨fun h => ?_, fun h => ?_, fun h => ?_, rfl, rfl, rfl⟩
    · exact answers_congr (answers_serdesRefLoss hup h) s.refLost_pcie
    · exact answers_congr (answers_serdesRefLoss hup h) s.refLost_ethernet
    · exact reaches_of_answers (answers_serdesRefLoss hup h) s.refLost_stirrup

end Sys2Proof.Proofs
end

