-- ==== Sys2Proof/Proofs/QueueWorkedOff.lean ====
section
/-! PROOFS. The queue (R593): every meaning answers a next state and leaves the commands that wait, so a queue is worked off. -/
namespace Sys2Proof.Machine
open Sys2Proof

/-- A meaning goes on, and leaves the queue as it found it. -/
def KeepsQueue (s : State) (o : Host.Outcome State Fault Refusal) : Prop := ∃ t, o = .next t ∧ t.pending = s.pending

theorem keepsQueue_answer (s t : State) : KeepsQueue s (answer s t) := ⟨_, rfl, rfl⟩

theorem keepsQueue_whenUp (s t : State) : KeepsQueue s (whenUp s t) := by
  unfold whenUp
  split
  · exact keepsQueue_answer s t
  · exact ⟨s, rfl, rfl⟩

theorem keepsQueue_whenReady (s t : State) : KeepsQueue s (whenReady s t) := by
  unfold whenReady
  split
  · exact keepsQueue_answer s t
  · exact ⟨s, rfl, rfl⟩

/-- Every meaning ends in one of three ways: whatever the clocks do, while they run, or while the firmware serves. -/
theorem exec_keepsQueue (c : Instr) (s : State) : KeepsQueue s (exec c s) := by
  cases c with
  | thermalResetRelease | pllLock | refclkLoss | serdesRefLoss | msixUnmask | powerOn | resetNAssert | railBrownout
  | bootStagePass | stageWatchdog | bootRetry | serdesRefReturn => exact keepsQueue_answer s _
  | rtspResponse | rtspKeepalive | streamTimeout | rtspRetry | rtcpReceiverReport | clipRequest | snapshotRequest
  | clipBind | evidenceRelease | evidenceRetainExpiry | steeringBuild | trackingPredict | trackingDetectionsReady
  | trackingEmbeddingsReady | trackingAssignmentReady | gallerySearchComplete | narrationRequest | narrationCancel
  | narratorStepStart | narratorStepComplete | narratorEmbedComplete | contextCreate | contextDestroy | captureRelease
  | captureRetainExpiry | primitiveRequest | reinTick | calibrationUpdate | shedParkTimeout | standbyEnter
  | pairHbToggle | ledgerMirror | plannedHandover | odxRead | odxWrite | odxBegin | odxCommit | odxRollback | odxInfo
  | transactionExpiry | blpOpen | blpClose | sessionTimeout | canFrame | canSegmentTimeout | canBusOff | expertUnlock
  | warmReset | allocClassXPages | freeClassXPages | attestationRequest | ownerKeyBurn | ownerFuseSet | svnAdvance
  | revocationContainer | stageCountReset | journalSelect | configSave | configErase | firmwareUpdate
  | firmwareUpdateDone => exact keepsQueue_whenReady s _
  | _ => exact keepsQueue_whenUp s _

theorem step_of_pending {s : State} {c : Instr} {rest : List Instr} (h : s.pending = c :: rest) :
    ∃ t, step s = .next t ∧ t.pending = rest := by
  obtain ⟨t, hexec, hrest⟩ := exec_keepsQueue c { s with pending := rest }
  refine ⟨t, ?_, hrest⟩
  rw [step, h]
  exact hexec

theorem run_succ_of_step {M : Host.Core} {s u : M.State} (k : Nat) (h : M.step s = .next u) : M.run (k + 1) s = M.run k u := by
  simp only [Host.Core.run, h]

/-- A queue of any length is worked off in as many steps. -/
theorem run_pending (q : List Instr) : ∀ s : State, s.pending = q →
    ∃ t, Host.Core.run core q.length s = .next t ∧ t.pending = [] := by
  induction q with
  | nil => exact fun s h => ⟨s, rfl, h⟩
  | cons c rest ih =>
    intro s h
    obtain ⟨u, hstep, hrest⟩ := step_of_pending h
    obtain ⟨t, hrun, hempty⟩ := ih u hrest
    refine ⟨t, ?_, hempty⟩
    exact (run_succ_of_step rest.length hstep).trans hrun

end Sys2Proof.Machine

namespace Sys2Proof.Proofs
open Sys2Proof Sys2Proof.Machine

/-- Settles O1: both parts are the definition of a step. -/
theorem stepRunsTheFrontCommand : Obligations.StepRunsTheFrontCommand :=
  ⟨fun _ _ _ => rfl, fun s h => by rw [step, h]⟩

/-- Settles O2: each meaning by the way in which it ends, the queue by induction on its length. -/
theorem queueIsWorkedOff : Obligations.QueueIsWorkedOff :=
  ⟨fun c s => exec_keepsQueue c s, fun s => run_pending s.pending s rfl⟩

end Sys2Proof.Proofs
end

