-- ==== Sys2Proof/Proofs/ExactAssignment.lean ====
section
/-! PROOFS. The exact assignment of a reservation (R596): the search of the Cantle finds one exactly when there is one. -/
namespace Sys2Proof.Machine
open Sys2Proof

/-! ### What a demand takes of one channel pair -/

/-- Pages that `k` units of a demand take: a Class P unit is a pair of pages. -/
def Demand.pages (d : Demand) (k : Nat) : Nat := if d.isP then 2 * k else k

/-- Whole pairs that `k` units of a demand take. -/
def Demand.rows (d : Demand) (k : Nat) : Nat := if d.isP then k else 0

/-- A demand after it was given `k` units. -/
def Demand.less (d : Demand) (k : Nat) : Demand := { d with n := d.n - k }

/-- A channel pair after a demand took `k` units of it. -/
def Supply.less (u : Supply) (d : Demand) (k : Nat) : Supply :=
  if d.isP then { u with total := u.total - 2 * k, pairs := u.pairs - k } else { u with total := u.total - k }

/-- The most units that a demand can take of a channel pair. -/
def Demand.most (d : Demand) (u : Supply) : Nat :=
  if bit d.set u.chan then (if d.isP then min d.n (min u.pairs (u.total / 2)) else min d.n u.total) else 0

theorem Demand.le_most_iff (d : Demand) (u : Supply) (k : Nat) :
    k ≤ d.most u ↔ k ≤ d.n ∧ (bit d.set u.chan = false → k = 0) ∧ d.pages k ≤ u.total ∧ d.rows k ≤ u.pairs := by
  obtain ⟨set, isP, n⟩ := d
  cases hb : bit set u.chan <;> cases isP <;> simp [most, pages, rows, hb] <;> omega

@[simp] theorem Supply.less_chan (u : Supply) (d : Demand) (k : Nat) : (u.less d k).chan = u.chan := by
  unfold less; split <;> rfl

theorem Supply.less_total (u : Supply) (d : Demand) (k : Nat) : (u.less d k).total = u.total - d.pages k := by
  unfold less Demand.pages; split <;> rfl

theorem Supply.less_pairs (u : Supply) (d : Demand) (k : Nat) : (u.less d k).pairs = u.pairs - d.rows k := by
  unfold less Demand.rows; split <;> rfl

theorem Demand.pages_le {d : Demand} {k : Nat} (h : k ≤ d.n) : d.pages d.n = d.pages k + (d.less k).pages (d.less k).n := by
  obtain ⟨set, isP, n⟩ := d
  cases isP <;> (simp_all [pages, less]; try omega)

/-! ### Plans: what each demand takes of every channel pair -/

/-- Each demand with the units that it takes of the channel pairs, by their place. -/
abbrev PagePlan := List (Demand × (Nat → Nat))

/-- Units that a way of taking draws from the first `n` channel pairs. -/
def drawn (g : Nat → Nat) (n : Nat) : Nat := ((List.range n).map g).sum

@[simp] theorem drawn_zero (g : Nat → Nat) : drawn g 0 = 0 := rfl

theorem drawn_succ (g : Nat → Nat) (n : Nat) : drawn g (n + 1) = g 0 + drawn (fun j => g (j + 1)) n := by
  simp only [drawn, List.range_succ_eq_map, List.map_cons, List.map_map, List.sum_cons]
  rfl

/-- `k` units of the first channel pair, and of the others as `g` says. -/
def drawFirst (k : Nat) (g : Nat → Nat) : Nat → Nat
  | 0 => k
  | j + 1 => g j

theorem drawn_drawFirst (k : Nat) (g : Nat → Nat) (n : Nat) : drawn (drawFirst k g) (n + 1) = k + drawn g n := drawn_succ _ _

/-- The pages of a channel pair that a plan takes, and its whole pairs. -/
def PagePlan.pagesAt (ps : PagePlan) (j : Nat) : Nat := (ps.map (fun p => p.1.pages (p.2 j))).sum
def PagePlan.rowsAt (ps : PagePlan) (j : Nat) : Nat := (ps.map (fun p => p.1.rows (p.2 j))).sum

/-- A plan keeps within the channel pairs and meets each of its demands from its own channels. -/
def PagePlan.Meets (us : List Supply) (ps : PagePlan) : Prop :=
  (∀ p ∈ ps, drawn p.2 us.length = p.1.n ∧ ∀ j u, us[j]? = some u → bit p.1.set u.chan = false → p.2 j = 0)
    ∧ ∀ j u, us[j]? = some u → ps.pagesAt j ≤ u.total ∧ ps.rowsAt j ≤ u.pairs

/-- Some plan meets the demands. -/
def Feasible (us : List Supply) (ds : List Demand) : Prop := ∃ ps : PagePlan, ps.map Prod.fst = ds ∧ PagePlan.Meets us ps

/-! ### One channel pair after the other -/

/-- Units of one channel pair, given to each demand. -/
abbrev Share := List (Demand × Nat)

/-- A share lies within a channel pair. -/
def Share.Fits (u : Supply) (qs : Share) : Prop :=
  (∀ q ∈ qs, q.2 ≤ q.1.n ∧ (bit q.1.set u.chan = false → q.2 = 0))
    ∧ (qs.map (fun q => q.1.pages q.2)).sum ≤ u.total ∧ (qs.map (fun q => q.1.rows q.2)).sum ≤ u.pairs

/-- The demands that a share leaves. -/
def Share.left (qs : Share) : List Demand := qs.map (fun q => q.1.less q.2)

theorem Share.fits_cons (u : Supply) (d : Demand) (k : Nat) (qs : Share) :
    Share.Fits u ((d, k) :: qs) ↔ k ≤ d.most u ∧ Share.Fits (u.less d k) qs := by
  simp only [Fits, List.forall_mem_cons, List.map_cons, List.sum_cons, Demand.le_most_iff, Supply.less_chan, Supply.less_total,
    Supply.less_pairs]
  constructor
  · rintro ⟨⟨⟨hn, hb⟩, hq⟩, ht, hr⟩
    exact ⟨⟨hn, hb, by omega, by omega⟩, hq, by omega, by omega⟩
  · rintro ⟨⟨hn, hb, hp, hr⟩, hq, ht, hs⟩
    exact ⟨⟨⟨hn, hb⟩, hq⟩, by omega, by omega⟩

theorem feasible_nil (ds : List Demand) : Feasible [] ds ↔ ∀ d ∈ ds, d.n = 0 := by
  constructor
  · rintro ⟨ps, rfl, hp, -⟩ d hd
    obtain ⟨p, hmem, rfl⟩ := List.mem_map.mp hd
    exact ((hp p hmem).1).symm
  · intro h
    refine ⟨ds.map (fun d => (d, fun _ => 0)), by simp [Function.comp_def], fun p hp => ?_, by simp⟩
    obtain ⟨d, hd, rfl⟩ := List.mem_map.mp hp
    exact ⟨(h d hd).symm, by simp⟩

/-- A plan is a share of the first channel pair and a plan of the others for what the share leaves. -/
theorem feasible_cons (u : Supply) (us : List Supply) (ds : List Demand) :
    Feasible (u :: us) ds ↔ ∃ qs : Share, qs.map Prod.fst = ds ∧ qs.Fits u ∧ Feasible us qs.left := by
  constructor
  · rintro ⟨ps, rfl, hp, hs⟩
    have hn : ∀ p ∈ ps, p.2 0 + drawn (fun j => p.2 (j + 1)) us.length = p.1.n := fun p hmem => by
      rw [← drawn_succ]; exact (hp p hmem).1
    refine ⟨ps.map (fun p => (p.1, p.2 0)), by simp, ⟨fun q hq => ?_, ?_⟩,
      ps.map (fun p => (p.1.less (p.2 0), fun j => p.2 (j + 1))), by simp [Share.left], fun q hq => ?_, fun j v hv => ?_⟩
    · obtain ⟨p, hmem, rfl⟩ := List.mem_map.mp hq
      have := hn p hmem
      exact ⟨by simp only; omega, (hp p hmem).2 0 u rfl⟩
    · simpa [PagePlan.pagesAt, PagePlan.rowsAt, Function.comp_def] using hs 0 u rfl
    · obtain ⟨p, hmem, rfl⟩ := List.mem_map.mp hq
      have := hn p hmem
      exact ⟨by simp only [Demand.less]; omega, fun j v hv => (hp p hmem).2 (j + 1) v (by simpa using hv)⟩
    · simpa [PagePlan.pagesAt, PagePlan.rowsAt, Function.comp_def, Demand.less, Demand.pages, Demand.rows] using hs (j + 1) v (by simpa using hv)
  · rintro ⟨qs, rfl, ⟨hq, ht⟩, ps, hps, hp, hs⟩
    have hlen : ps.length = qs.length := by simpa [Share.left] using congrArg List.length hps
    have hfst : (qs.zip ps).map Prod.fst = qs := List.map_fst_zip hlen.ge
    have hsnd : (qs.zip ps).map Prod.snd = ps := List.map_snd_zip hlen.le
    have hpair : ∀ x ∈ qs.zip ps, x.2.1 = x.1.1.less x.1.2 := fun x hx => by
      obtain ⟨i, hi, rfl⟩ := List.getElem_of_mem hx
      have := congrArg (fun l => l[i]?) hps
      simp only [List.length_zip, lt_min_iff] at hi
      simpa [Share.left, hi] using this
    refine ⟨(qs.zip ps).map (fun x => (x.1.1, drawFirst x.1.2 x.2.2)), ?_, fun p hmem => ?_, fun j v hv => ?_⟩
    · rw [List.map_map]
      exact (List.map_map (l := qs.zip ps) (f := Prod.fst) (g := Prod.fst)).symm.trans (congrArg (List.map Prod.fst) hfst)
    · obtain ⟨x, hx, rfl⟩ := List.mem_map.mp hmem
      have hx1 := hq x.1 (List.of_mem_zip hx).1
      have hx2 := hp x.2 (List.of_mem_zip hx).2
      rw [hpair x hx] at hx2
      refine ⟨?_, fun j v hv => ?_⟩
      · rw [List.length_cons, drawn_drawFirst]
        have := hx2.1
        simp only [Demand.less] at this ⊢
        have := hx1.1
        omega
      · cases j with
        | zero => obtain rfl : u = v := by simpa using hv
                  exact hx1.2
        | succ j => exact hx2.2 j v (by simpa using hv)
    · cases j with
      | zero =>
        obtain rfl : u = v := by simpa using hv
        have : ∀ f : Demand × Nat → Nat, ((qs.zip ps).map (fun x => f x.1)).sum = (qs.map f).sum := fun f => by
          conv_rhs => rw [← hfst, List.map_map]
          rfl
        simp only [PagePlan.pagesAt, PagePlan.rowsAt, List.map_map, Function.comp_def]
        exact ⟨(this (fun q => q.1.pages q.2)).trans_le ht.1, (this (fun q => q.1.rows q.2)).trans_le ht.2⟩
      | succ j =>
        have : ∀ f : Demand × (Nat → Nat) → Nat, ((qs.zip ps).map (fun x => f x.2)).sum = (ps.map f).sum := fun f => by
          conv_rhs => rw [← hsnd, List.map_map]
          rfl
        have hv' := hs j v (by simpa using hv)
        rw [PagePlan.pagesAt, PagePlan.rowsAt, ← this, ← this] at hv'
        simp only [PagePlan.pagesAt, PagePlan.rowsAt, List.map_map, Function.comp_def]
        constructor
        · refine le_trans (le_of_eq (congrArg List.sum (List.map_congr_left fun x hx => ?_))) hv'.1
          rw [hpair x hx]; rfl
        · refine le_trans (le_of_eq (congrArg List.sum (List.map_congr_left fun x hx => ?_))) hv'.2
          rw [hpair x hx]; rfl

/-! ### The exact search -/

/-- Trying every way to give a channel pair finds a share that fits and leaves demands which pass. -/
theorem giveAll_iff (k : List Demand → Bool) (ds : List Demand) : ∀ (u : Supply) (done : List Demand),
    giveAll u k ds done = true ↔ ∃ qs : Share, qs.map Prod.fst = ds ∧ qs.Fits u ∧ k (done.reverse ++ qs.left) = true := by
  induction ds with
  | nil =>
    intro u done
    simp only [giveAll, List.map_eq_nil_iff]
    constructor
    · exact fun h => ⟨[], rfl, by simp [Share.Fits], by simpa [Share.left] using h⟩
    · rintro ⟨_, rfl, -, h⟩
      simpa [Share.left] using h
  | cons d ds ih =>
    intro u done
    have hstep : giveAll u k (d :: ds) done = true ↔
        ∃ g, g ≤ d.most u ∧ giveAll (u.less d g) k ds (d.less g :: done) = true := by
      simp only [giveAll, List.any_eq_true, mem_upto_iff]
      exact exists_congr fun g => and_congr_left fun _ => by rw [Demand.most]; omega
    rw [hstep]
    constructor
    · rintro ⟨g, hg, h⟩
      obtain ⟨qs, rfl, hfit, hk⟩ := (ih _ _).mp h
      exact ⟨(d, g) :: qs, rfl, (Share.fits_cons u d g qs).mpr ⟨hg, hfit⟩, by simpa [Share.left] using hk⟩
    · rintro ⟨_ | ⟨⟨d', g⟩, qs⟩, hds, hfit, hk⟩
      · cases hds
      · obtain ⟨rfl, rfl⟩ := List.cons.inj hds
        obtain ⟨hg, hrest⟩ := (Share.fits_cons u d' g qs).mp hfit
        exact ⟨g, hg, (ih _ _).mpr ⟨qs, rfl, hrest, by simpa [Share.left] using hk⟩⟩

theorem assignExact_iff (us : List Supply) : ∀ ds, assignExact us ds = true ↔ Feasible us ds := by
  induction us with
  | nil => simp [assignExact, feasible_nil]
  | cons u us ih =>
    intro ds
    rw [assignExact, giveAll_iff, feasible_cons]
    simp only [List.reverse_nil, List.nil_append, ih]

/-! ### The two refusals without a search -/

/-- The pages of all channel pairs. -/
def pagesOf (us : List Supply) : Nat := (us.map (·.total)).sum

theorem supplyIn_cons (set : Nat) (u : Supply) (us : List Supply) :
    supplyIn set (u :: us) = (if bit set u.chan then u.total else 0) + supplyIn set us := by
  have h : ∀ (l : List Supply) (n : Nat), l.foldl (fun n u => if bit set u.chan then n + u.total else n) n =
      n + l.foldl (fun n u => if bit set u.chan then n + u.total else n) 0 := by
    intro l
    induction l with
    | nil => simp
    | cons v l ih =>
      intro n
      simp only [List.foldl_cons]
      rw [ih, ih (if bit set v.chan then 0 + v.total else 0)]
      split <;> omega
  simp only [supplyIn, List.foldl_cons, Nat.zero_add]
  exact h us _

/-- No demand of a plan is larger than the pages of its channels. -/
theorem Feasible.le_supplyIn {us : List Supply} : ∀ {ds : List Demand}, Feasible us ds → ∀ d ∈ ds, d.pages d.n ≤ supplyIn d.set us := by
  induction us with
  | nil =>
    intro ds h d hd
    rw [(feasible_nil ds).mp h d hd]
    simp [Demand.pages]
  | cons u us ih =>
    intro ds h d hd
    obtain ⟨qs, rfl, ⟨hq, ht, -⟩, hrest⟩ := (feasible_cons u us ds).mp h
    obtain ⟨q, hmem, rfl⟩ := List.mem_map.mp hd
    have hle := ih hrest (q.1.less q.2) (List.mem_map_of_mem hmem)
    have hone : q.1.pages q.2 ≤ (qs.map (fun q => q.1.pages q.2)).sum := List.single_le_sum (by simp) _ (List.mem_map_of_mem hmem)
    have hset : (q.1.less q.2).set = q.1.set := rfl
    rw [hset] at hle
    rw [supplyIn_cons, Demand.pages_le (hq q hmem).1]
    split
    · omega
    · rename_i hb
      have hz : q.1.pages q.2 = 0 := by
        rw [(hq q hmem).2 (by simpa using hb)]
        simp [Demand.pages]
      omega

/-- The demands of a plan are together no larger than all pages. -/
theorem Feasible.sum_le {us : List Supply} : ∀ {ds : List Demand}, Feasible us ds →
    (ds.map (fun d => d.pages d.n)).sum ≤ pagesOf us := by
  induction us with
  | nil =>
    intro ds h
    refine le_of_eq (List.sum_eq_zero fun x hx => ?_)
    obtain ⟨d, hd, rfl⟩ := List.mem_map.mp hx
    rw [(feasible_nil ds).mp h d hd]
    simp [Demand.pages]
  | cons u us ih =>
    intro ds h
    obtain ⟨qs, rfl, ⟨hq, ht, -⟩, hrest⟩ := (feasible_cons u us ds).mp h
    have hsplit : ((qs.map Prod.fst).map (fun d => d.pages d.n)).sum =
        (qs.map (fun q => q.1.pages q.2)).sum + (qs.left.map (fun d => d.pages d.n)).sum := by
      rw [Share.left, List.map_map, List.map_map, ← List.sum_map_add]
      exact congrArg List.sum (List.map_congr_left fun q hmem => Demand.pages_le (hq q hmem).1)
    have := ih hrest
    rw [hsplit]
    simp only [pagesOf, List.map_cons, List.sum_cons] at this ⊢
    omega

/-! ### The greedy try -/

theorem feasible_cons_demand {us us' : List Supply} {d : Demand} {ds : List Demand} (h : Nat → Nat) (hn : drawn h us.length = d.n)
    (hlen : us'.length = us.length)
    (hu : ∀ j u, us[j]? = some u → h j ≤ d.most u ∧ us'[j]? = some (u.less d (h j))) (hf : Feasible us' ds) : Feasible us (d :: ds) := by
  obtain ⟨ps, rfl, hp, hs⟩ := hf
  refine ⟨(d, h) :: ps, rfl, List.forall_mem_cons.mpr ⟨⟨hn, fun j u hj => ?_⟩, fun p hmem => ⟨hlen ▸ (hp p hmem).1, fun j u hj => ?_⟩⟩,
    fun j u hj => ?_⟩
  · exact ((d.le_most_iff u (h j)).mp (hu j u hj).1).2.1
  · have := (hp p hmem).2 j _ (hu j u hj).2
    rwa [Supply.less_chan] at this
  · obtain ⟨-, -, ht, hr⟩ := (d.le_most_iff u (h j)).mp (hu j u hj).1
    have := hs j _ (hu j u hj).2
    rw [Supply.less_total, Supply.less_pairs] at this
    simp only [PagePlan.pagesAt, PagePlan.rowsAt, List.map_cons, List.sum_cons] at this ⊢
    omega

/-- What the greedy try gives to one demand, and what it leaves. -/
theorem greedy_spec (us : List Supply) : ∀ d : Demand, ∃ h : Nat → Nat, drawn h us.length + (greedy d us).1 = d.n
    ∧ (greedy d us).2.length = us.length
    ∧ ∀ j u, us[j]? = some u → h j ≤ d.most u ∧ (greedy d us).2[j]? = some (u.less d (h j)) := by
  induction us with
  | nil => exact fun d => ⟨fun _ => 0, by simp [greedy], rfl, by simp⟩
  | cons u us ih =>
    intro d
    have hstep : greedy d (u :: us) = ((greedy (d.less (d.most u)) us).1, u.less d (d.most u) :: (greedy (d.less (d.most u)) us).2) := by
      by_cases hb : bit d.set u.chan = true
      · simp [greedy, hb, Demand.most, Demand.less, Supply.less]
      · have hk : d.most u = 0 := by simp [Demand.most, hb]
        simp [greedy, hb, hk, Demand.less, Supply.less]
    obtain ⟨h, hn, hlen, hu⟩ := ih (d.less (d.most u))
    refine ⟨drawFirst (d.most u) h, ?_, by rw [hstep]; simp [hlen], fun j v hv => ?_⟩
    · rw [hstep, List.length_cons, drawn_drawFirst]
      have := ((d.le_most_iff u (d.most u)).mp le_rfl).1
      simp only [Demand.less] at hn ⊢
      omega
    · rw [hstep]
      cases j with
      | zero =>
        obtain rfl : u = v := by simpa using hv
        exact ⟨le_rfl, rfl⟩
      | succ j =>
        obtain ⟨hm, hg⟩ := hu j v (by simpa using hv)
        refine ⟨le_trans hm ?_, hg⟩
        rw [d.le_most_iff]
        obtain ⟨h1, h2, h3, h4⟩ := ((d.less (d.most u)).le_most_iff v _).mp (le_refl ((d.less (d.most u)).most v))
        exact ⟨h1.trans (Nat.sub_le _ _), h2, h3, h4⟩

theorem greedyAll_feasible (ds : List Demand) : ∀ us, greedyAll ds us = true → Feasible us ds := by
  induction ds with
  | nil => exact fun us _ => ⟨[], rfl, by simp, by simp [PagePlan.pagesAt, PagePlan.rowsAt]⟩
  | cons d ds ih =>
    intro us h
    obtain ⟨g, hn, hlen, hu⟩ := greedy_spec us d
    simp only [greedyAll] at h
    split at h
    · rename_i us' heq
      rw [heq] at hn hlen hu
      exact feasible_cons_demand g hn hlen hu (ih us' h)
    · cases h

/-- The order of the demands does not matter to whether a plan exists. -/
theorem Feasible.perm {us : List Supply} {ds ds' : List Demand} (h : ds.Perm ds') (hf : Feasible us ds) : Feasible us ds' := by
  have hperm : ∃ ps' : PagePlan, ps'.map Prod.fst = ds' ∧ PagePlan.Meets us ps' := by
    obtain ⟨ps, hds, hp, hs⟩ := hf
    obtain ⟨ps', hps, hds'⟩ : ∃ ps' : PagePlan, ps.Perm ps' ∧ ps'.map Prod.fst = ds' := by
      clear hp hs
      induction h generalizing ps with
      | nil => exact ⟨ps, .refl _, hds⟩
      | cons d _ ih =>
        obtain ⟨p, t, rfl, rfl, htail⟩ := List.map_eq_cons_iff.mp hds
        obtain ⟨t', ht, rfl⟩ := ih t htail
        exact ⟨p :: t', ht.cons p, rfl⟩
      | swap d e l =>
        obtain ⟨p, t, rfl, rfl, htail⟩ := List.map_eq_cons_iff.mp hds
        obtain ⟨q, t, rfl, rfl, rfl⟩ := List.map_eq_cons_iff.mp htail
        exact ⟨q :: p :: t, .swap _ _ _, rfl⟩
      | trans _ _ ih1 ih2 =>
        obtain ⟨t, ht, hds⟩ := ih1 ps hds
        obtain ⟨t', ht', hds'⟩ := ih2 t hds
        exact ⟨t', ht.trans ht', hds'⟩
    refine ⟨ps', hds', fun p hmem => hp p (hps.mem_iff.mpr hmem), fun j u hj => ?_⟩
    have hpages : PagePlan.pagesAt ps' j = PagePlan.pagesAt ps j := ((hps.map _).sum_eq).symm
    have hrows : PagePlan.rowsAt ps' j = PagePlan.rowsAt ps j := ((hps.map _).sum_eq).symm
    rw [hpages, hrows]
    exact hs j u hj
  exact hperm

theorem foldl_add_eq_sum (l : List Nat) : l.foldl (· + ·) 0 = l.sum := by rw [List.sum_eq_foldl]

/-- The Cantle's check: the greedy try is a plan, both refusals exclude one, and the search decides the rest. -/
theorem assignable_iff_feasible (us : List Supply) (ds : List Demand) : assignable us ds = true ↔ Feasible us ds := by
  unfold assignable
  dsimp only
  split
  · rename_i h
    exact iff_of_true rfl ((greedyAll_feasible _ us h).perm (List.filter_append_perm _ ds))
  · split
    · rename_i h
      refine iff_of_false (by simp) fun hf => ?_
      simp only [Bool.or_eq_true, List.any_eq_true, decide_eq_true_eq, foldl_add_eq_sum] at h
      rcases h with ⟨d, hd, hlt⟩ | hlt
      · exact absurd (hf.le_supplyIn d hd) (not_le.mpr hlt)
      · exact absurd hf.sum_le (not_le.mpr hlt)
    · exact assignExact_iff us ds

/-! ### Plans as a table by demand and channel pair -/

/-- The plan that a table of units names. -/
def pagePlanOf (give : Nat → Nat → Nat) (ds : List Demand) : PagePlan := ds.mapIdx (fun i d => (d, give i))

theorem sum_range_eq_sum_plan (give : Nat → Nat → Nat) (ds : List Demand) (f : Demand → (Nat → Nat) → Nat) :
    ((List.range ds.length).map (fun i => match ds[i]? with | some d => f d (give i) | none => 0)).sum =
      ((pagePlanOf give ds).map (fun p => f p.1 p.2)).sum := by
  refine congrArg List.sum (List.ext_getElem (by simp [pagePlanOf]) fun i h1 h2 => ?_)
  have hi : i < ds.length := by simpa using h1
  simp [pagePlanOf, hi]

theorem mem_pagePlanOf {give : Nat → Nat → Nat} {ds : List Demand} {p : Demand × (Nat → Nat)} :
    p ∈ pagePlanOf give ds ↔ ∃ i, ds[i]? = some p.1 ∧ p.2 = give i := by
  simp only [pagePlanOf, List.mem_iff_getElem?, List.getElem?_mapIdx, Option.map_eq_some_iff]
  constructor
  · rintro ⟨i, d, hd, rfl⟩
    exact ⟨i, hd, rfl⟩
  · rintro ⟨i, hd, hg⟩
    exact ⟨i, p.1, hd, by rw [← hg]⟩

theorem exists_table (ps : PagePlan) : ∃ give, pagePlanOf give (ps.map Prod.fst) = ps := by
  refine ⟨fun i => ((ps[i]?).map Prod.snd).getD (fun _ => 0), List.ext_getElem (by simp [pagePlanOf]) fun i h1 h2 => ?_⟩
  simp [pagePlanOf, h2]

theorem feasible_iff_table (us : List Supply) (ds : List Demand) :
    Feasible us ds ↔ ∃ give : Nat → Nat → Nat, PagePlan.Meets us (pagePlanOf give ds) := by
  constructor
  · rintro ⟨ps, rfl, hm⟩
    obtain ⟨give, hg⟩ := exists_table ps
    exact ⟨give, by rw [hg]; exact hm⟩
  · rintro ⟨give, hm⟩
    exact ⟨pagePlanOf give ds, List.ext_getElem (by simp [pagePlanOf]) fun i h1 h2 => by simp [pagePlanOf], hm⟩

end Sys2Proof.Machine

namespace Sys2Proof.Proofs
open Sys2Proof Sys2Proof.Machine

/-- Settles O45: the search by one channel pair after the other, the greedy try by one demand after the other. -/
theorem assignmentsAreFoundExactly : Obligations.AssignmentsAreFoundExactly := by
  intro us ds
  rw [assignable_iff_feasible, feasible_iff_table]
  refine exists_congr fun give => ?_
  have hpages := fun j => sum_range_eq_sum_plan give ds (fun d g => d.pages (g j))
  have hrows := fun j => sum_range_eq_sum_plan give ds (fun d g => d.rows (g j))
  constructor
  · rintro ⟨hd, hu⟩
    exact ⟨fun i d hi => (hd (d, give i) (mem_pagePlanOf.mpr ⟨i, hi, rfl⟩)).1,
      fun i j d u hi => (hd (d, give i) (mem_pagePlanOf.mpr ⟨i, hi, rfl⟩)).2 j u,
      fun j u hj => ⟨(hpages j).trans_le (hu j u hj).1, (hrows j).trans_le (hu j u hj).2⟩⟩
  · rintro ⟨hn, hb, hu⟩
    refine ⟨fun p hp => ?_, fun j u hj => ⟨(hpages j).symm.trans_le (hu j u hj).1, (hrows j).symm.trans_le (hu j u hj).2⟩⟩
    obtain ⟨d, g⟩ := p
    obtain ⟨i, hi, rfl⟩ := mem_pagePlanOf.mp hp
    exact ⟨hn i d hi, fun j u => hb i j d u hi⟩

end Sys2Proof.Proofs
end

