-- ==== Sys2Proof/Proofs/AuctionOptimal.lean ====
section
/-! PROOFS. The auction (R303, R304): bids, prices, and the assignment that they end with. -/
namespace Sys2Proof.Machine
open Sys2Proof

theorem upto_zero_eq_range (n : Nat) : upto 0 n = List.range n := by rw [upto_eq_range', List.range_eq_range']

/-! ### The best object of a row -/

/-- The value of a benefit at a price, in the auction's scale. -/
def netValue (scale : Nat) (price : List Int) (e : Nat × Nat) : Int := ((e.2 * scale : Nat) : Int) - price.getD e.1 0

/-- What a bidder that has looked at the entries `l` knows: the best object, its value and the second value. -/
structure BestOf (scale : Nat) (price : List Int) (l : List (Nat × Nat)) (r : Option Nat × Int × Int) : Prop where
  second_nonneg : 0 ≤ r.2.2
  second_le : r.2.2 ≤ r.2.1
  le_best : ∀ e ∈ l, e.2 ≤ 65536 → netValue scale price e ≤ r.2.1
  le_second : ∀ e ∈ l, e.2 ≤ 65536 → r.1 ≠ some e.1 → netValue scale price e ≤ r.2.2
  best_none : r.1 = none → r.2.1 = 0
  best_some : ∀ j, r.1 = some j → ∃ e ∈ l, e.1 = j ∧ e.2 ≤ 65536 ∧ netValue scale price e = r.2.1

/-- One entry more. -/
def lookAt (scale : Nat) (price : List Int) (acc : Option Nat × Int × Int) (e : Nat × Nat) : Option Nat × Int × Int :=
  if e.2 ≤ 65536 then
    if netValue scale price e > acc.2.1 || (acc.1.isNone && decide (netValue scale price e > 0) && netValue scale price e == acc.2.1) then (some e.1, netValue scale price e, acc.2.1)
    else if netValue scale price e > acc.2.2 then (acc.1, acc.2.1, netValue scale price e) else acc
  else acc

variable {scale : Nat} {price : List Int}

theorem BestOf.snoc {l : List (Nat × Nat)} {r : Option Nat × Int × Int} (h : BestOf scale price l r) (e : Nat × Nat) :
    BestOf scale price (l ++ [e]) (lookAt scale price r e) := by
  obtain ⟨h0, h12, hbest, hsecond, hnone, hsome⟩ := h
  have hsome' : ∀ j, r.1 = some j → ∃ x ∈ l ++ [e], x.1 = j ∧ x.2 ≤ 65536 ∧ netValue scale price x = r.2.1 := fun j hj => by
    obtain ⟨x, hx, hr⟩ := hsome j hj
    exact ⟨x, List.mem_append_left _ hx, hr⟩
  have hbeats : (netValue scale price e > r.2.1 || (r.1.isNone && decide (netValue scale price e > 0) && netValue scale price e == r.2.1)) = true ↔
      netValue scale price e > r.2.1 := by
    simp only [Bool.or_eq_true, Bool.and_eq_true, decide_eq_true_eq, Option.isNone_iff_eq_none, beq_iff_eq, or_iff_left_iff_imp]
    rintro ⟨⟨hn, hpos⟩, heq⟩
    have := hnone hn
    omega
  simp only [lookAt, hbeats]
  split
  case isTrue hfeas =>
    split
    · refine ⟨h0.trans h12, le_of_lt ‹_›, ?_, ?_, by simp, fun j hj => ⟨e, by simp, by simpa using hj, hfeas, rfl⟩⟩ <;>
        simp only [List.mem_append, List.mem_singleton]
      · rintro x (hx | rfl) hf
        · exact (hbest x hx hf).trans (le_of_lt ‹_›)
        · exact le_rfl
      · rintro x (hx | rfl) hf hne
        · exact hbest x hx hf
        · exact absurd rfl hne
    · split
      · refine ⟨by simp only; omega, by simp only; omega, ?_, ?_, hnone, hsome'⟩ <;> simp only [List.mem_append, List.mem_singleton]
        · rintro x (hx | rfl) hf
          · exact hbest x hx hf
          · omega
        · rintro x (hx | rfl) hf hne
          · exact (hsecond x hx hf hne).trans (le_of_lt ‹_›)
          · exact le_rfl
      · refine ⟨h0, h12, ?_, ?_, hnone, hsome'⟩ <;> simp only [List.mem_append, List.mem_singleton]
        · rintro x (hx | rfl) hf
          · exact hbest x hx hf
          · omega
        · rintro x (hx | rfl) hf hne
          · exact hsecond x hx hf hne
          · omega
  case isFalse hfeas =>
    refine ⟨h0, h12, ?_, ?_, hnone, hsome'⟩ <;> simp only [List.mem_append, List.mem_singleton]
    · rintro x (hx | rfl) hf
      · exact hbest x hx hf
      · exact absurd hf hfeas
    · rintro x (hx | rfl) hf hne
      · exact hsecond x hx hf hne
      · exact absurd hf hfeas

theorem BestOf.foldl {l l' : List (Nat × Nat)} {r : Option Nat × Int × Int} (h : BestOf scale price l r) :
    BestOf scale price (l ++ l') (l'.foldl (lookAt scale price) r) := by
  induction l' generalizing l r with
  | nil => simpa using h
  | cons e l' ih => simpa using ih (h.snoc e)

theorem bestBid_eq_foldl (row : List Nat) (scale : Nat) (price : List Int) :
    bestBid row scale price = ((upto 0 row.length).zip row).foldl (lookAt scale price) (none, 0, 0) := rfl

theorem mem_zip_upto {β : Type} {row : List β} {e : Nat × β} : e ∈ (upto 0 row.length).zip row ↔ row[e.1]? = some e.2 := by
  rw [upto_zero_eq_range, List.mem_iff_getElem?]
  constructor
  · rintro ⟨i, hi⟩
    obtain ⟨h1, h2⟩ := List.getElem?_zip_eq_some.mp hi
    obtain ⟨hlt, h1⟩ := List.getElem?_eq_some_iff.mp h1
    rw [← h1, List.getElem_range]
    exact h2
  · intro h
    have hlt := (List.getElem?_eq_some_iff.mp h).1
    exact ⟨e.1, List.getElem?_zip_eq_some.mpr ⟨by simp [hlt], h⟩⟩

theorem bestBid_bestOf (row : List Nat) (scale : Nat) (price : List Int) :
    BestOf scale price ((upto 0 row.length).zip row) (bestBid row scale price) := by
  rw [bestBid_eq_foldl]
  exact BestOf.foldl (l := []) ⟨le_rfl, le_rfl, by simp, by simp, by simp, by simp⟩

/-! ### The rows and columns of an auction -/

/-- Row `i` can be given column `j`. -/
def mayTake (a : List (List Nat)) (i j : Nat) : Prop := j < (a.getD i []).length ∧ (a.getD i []).getD j 0 ≤ 65536

/-- What column `j` is worth to row `i` at the prices. -/
def worth (a : List (List Nat)) (price : List Int) (i j : Nat) : Int := netValue (a.length + 1) price (j, (a.getD i []).getD j 0)

variable {a : List (List Nat)} {m limit : Nat}

/-- The best column of a row, and how much its price may rise. -/
theorem bestBid_spec (a : List (List Nat)) (i : Nat) (price : List Int) :
    let b := bestBid (a.getD i []) (a.length + 1) price
    0 ≤ b.2.2 ∧ b.2.2 ≤ b.2.1
      ∧ (b.1 = none → ∀ k, mayTake a i k → worth a price i k ≤ 0)
      ∧ ∀ j, b.1 = some j → mayTake a i j ∧ worth a price i j = b.2.1 ∧ ∀ k, mayTake a i k → k ≠ j → worth a price i k ≤ b.2.2 := by
  intro b
  obtain ⟨h0, h12, hbest, hsecond, hnone, hsome⟩ := bestBid_bestOf (a.getD i []) (a.length + 1) price
  have hmem : ∀ k, mayTake a i k → (k, (a.getD i []).getD k 0) ∈ (upto 0 (a.getD i []).length).zip (a.getD i []) := fun k hk => by
    rw [mem_zip_upto, List.getElem?_eq_some_iff]
    exact ⟨hk.1, (List.getD_eq_getElem _ 0 hk.1).symm⟩
  refine ⟨h0, h12, fun hn k hk => (hbest _ (hmem k hk) hk.2).trans_eq (hnone hn), fun j hj => ?_⟩
  obtain ⟨⟨j', e⟩, he, rfl, hf, hv⟩ := hsome j hj
  obtain ⟨hlt, hget⟩ := List.getElem?_eq_some_iff.mp (mem_zip_upto.mp he)
  have hd : (a.getD i []).getD j' 0 = e := by rw [List.getD_eq_getElem _ 0 hlt]; exact hget
  refine ⟨⟨hlt, hd ▸ hf⟩, by rw [worth, hd]; exact hv, fun k hk hne => hsecond _ (hmem k hk) hk.2 fun h => hne ?_⟩
  exact (Option.some.inj (hj.symm.trans h)).symm

/-! ### The invariant of the bids -/

/-- Rows and columns name each other; prices are not negative, and zero where nobody owns; a placed row has, within one step of
the scale, its best column, and a row that gave up has none. -/
structure Auction.Inv (a : List (List Nat)) (m : Nat) (s : Auction) : Prop where
  price_len : s.price.length = m
  owner_len : s.owner.length = m
  col_len : s.col.length = a.length
  done_len : s.done.length = a.length
  col_owner : ∀ i j, s.col.getD i none = some j ↔ s.owner.getD j none = some i
  price_nonneg : ∀ j, 0 ≤ s.price.getD j 0
  price_free : ∀ j, s.owner.getD j none = none → s.price.getD j 0 = 0
  placed : ∀ i j, s.col.getD i none = some j → mayTake a i j ∧ 0 ≤ worth a s.price i j + 1 ∧
    ∀ k, mayTake a i k → worth a s.price i k ≤ worth a s.price i j + 1
  gaveUp : ∀ i, i < a.length → s.done.getD i true = true → ∀ k, mayTake a i k → worth a s.price i k ≤ 0

theorem Auction.inv_start (a : List (List Nat)) (m : Nat) :
    Auction.Inv a m { price := copies m 0, owner := copies m none, col := copies a.length none, done := copies a.length false } := by
  have hget : ∀ {α : Type} (n k : Nat) (x d : α), (copies n x).getD k d = if k < n then x else d := fun n k x d => by
    simp only [copies, List.getD_eq_getElem?_getD, List.getElem?_replicate]
    split <;> rfl
  refine ⟨by simp [copies], by simp [copies], by simp [copies], by simp [copies], fun i j => ?_, fun j => ?_, fun j _ => ?_,
    fun i j h => ?_, fun i hi h => ?_⟩
  all_goals simp only [hget, ite_self] at *
  · simp
  · exact le_rfl
  · cases h
  · simp [hi] at h

theorem getD_set {α : Type} (l : List α) (i k : Nat) (x d : α) (hi : i < l.length) :
    (l.set i x).getD k d = if k = i then x else l.getD k d := by
  by_cases h : k = i
  · subst h; simp [List.getD_eq_getElem?_getD, hi]
  · simp [List.getD_eq_getElem?_getD, List.getElem?_set_ne (Ne.symm h), h]

/-- A row that finds nothing worth its price gives up. -/
theorem Auction.Inv.giveUp {s : Auction} (h : Auction.Inv a m s) {i n : Nat} (hi : i < a.length)
    (hb : (bestBid (a.getD i []) (a.length + 1) s.price).1 = none) :
    Auction.Inv a m { s with bids := n, done := s.done.set i true } := by
  refine ⟨h.price_len, h.owner_len, h.col_len, by simp [h.done_len], h.col_owner, h.price_nonneg, h.price_free, h.placed, fun k hk hd => ?_⟩
  simp only [getD_set _ _ _ _ _ (h.done_len.symm ▸ hi : i < s.done.length)] at hd
  split at hd
  · subst k; exact (bestBid_spec a i s.price).2.2.1 hb
  · exact h.gaveUp k hk hd

/-- The state after the row `i` has bid for its best column `j`, with that column's value and the second value. -/
def Auction.bid (s : Auction) (i j : Nat) (v : Int × Int) : Auction :=
  { s with bids := s.bids + 1, price := s.price.set j (s.price.getD j 0 + v.1 - v.2 + 1), owner := s.owner.set j (some i)
           col := (match s.owner.getD j none with | some o => s.col.set o none | none => s.col).set i (some j) }

theorem Auction.Inv.bid {s : Auction} (h : Auction.Inv a m s) (hm : ∀ row ∈ a, row.length = m) {i j : Nat} (hi : i < a.length)
    (hfree : s.col.getD i none = none) (hb : (bestBid (a.getD i []) (a.length + 1) s.price).1 = some j) :
    Auction.Inv a m (s.bid i j (bestBid (a.getD i []) (a.length + 1) s.price).2) := by
  obtain ⟨h0, h12, -, hsome⟩ := bestBid_spec a i s.price
  obtain ⟨hmay, hv, hsecond⟩ := hsome j hb
  generalize (bestBid (a.getD i []) (a.length + 1) s.price).2 = v at h0 h12 hv hsecond ⊢
  have hj : j < m := by
    have := hmay.1
    rwa [List.getD_eq_getElem _ _ hi, hm _ (List.getElem_mem hi)] at this
  have hprice : ∀ k, (s.price.set j (s.price.getD j 0 + v.1 - v.2 + 1)).getD k 0 =
      s.price.getD k 0 + if k = j then v.1 - v.2 + 1 else 0 := fun k => by
    rw [getD_set _ _ _ _ _ (h.price_len.symm ▸ hj)]
    split
    · subst k; omega
    · simp
  have howner : ∀ k, (s.owner.set j (some i)).getD k none = if k = j then some i else s.owner.getD k none := fun k =>
    getD_set _ _ _ _ _ (h.owner_len.symm ▸ hj)
  have hcol : ∀ k, (s.bid i j v).col.getD k none =
      if k = i then some j else if s.owner.getD j none = some k then none else s.col.getD k none := fun k => by
    unfold Auction.bid
    dsimp only
    split
    case _ o ho =>
      have hlt : o < s.col.length := by
        by_contra hge
        have := (h.col_owner o j).mpr ho
        simp [List.getD_eq_getElem?_getD, List.getElem?_eq_none (not_lt.mp hge)] at this
      rw [getD_set _ _ _ _ _ (by simpa [h.col_len] using hi), getD_set _ _ _ _ _ hlt]
      simp only [ho, Option.some.injEq, eq_comm]
    case _ ho =>
      rw [getD_set _ _ _ _ _ (h.col_len.symm ▸ hi)]
      simp only [ho, reduceCtorEq, if_false]
  have hworth : ∀ k l, worth a (s.bid i j v).price k l = worth a s.price k l - if l = j then v.1 - v.2 + 1 else 0 :=
    fun k l => by simp only [worth, netValue, Auction.bid, hprice]; omega
  refine ⟨by simp [Auction.bid, h.price_len], by simp [Auction.bid, h.owner_len], ?_, h.done_len, fun k l => ?_, fun k => ?_,
    fun k hk => ?_, fun k l hk => ?_, fun k hk hd l hl => ?_⟩
  · unfold Auction.bid; dsimp only; split <;> simp [h.col_len]
  · rw [hcol]
    show _ ↔ (s.owner.set j (some i)).getD l none = some k
    rw [howner]
    have hk := h.col_owner k l
    by_cases hki : k = i
    · subst k
      rw [if_pos rfl, Option.some.injEq]
      by_cases hlj : l = j
      · simp [hlj]
      · rw [if_neg hlj, ← hk, hfree]
        simp [Ne.symm hlj]
    · rw [if_neg hki]
      have hkj := h.col_owner k j
      by_cases hown : s.owner.getD j none = some k
      · rw [if_pos hown]
        by_cases hlj : l = j
        · simp [hlj, Ne.symm hki]
        · rw [if_neg hlj, ← hk, hkj.mpr hown]
          simp [Ne.symm hlj]
      · rw [if_neg hown]
        by_cases hlj : l = j
        · rw [if_pos hlj, hlj]
          exact iff_of_false (fun hc => hown (hkj.mp hc)) (by simp [Ne.symm hki])
        · rw [if_neg hlj]
          exact hk
  · show 0 ≤ (s.price.set j _).getD k 0
    rw [hprice]
    have := h.price_nonneg k
    split <;> omega
  · replace hk : (s.owner.set j (some i)).getD k none = none := hk
    show (s.price.set j _).getD k 0 = 0
    rw [howner] at hk
    rw [hprice]
    split at hk
    · cases hk
    · rw [if_neg ‹_›, h.price_free k hk, add_zero]
  · rw [hcol] at hk
    simp only [hworth]
    by_cases hki : k = i
    · subst k
      obtain rfl : j = l := by simpa using hk
      refine ⟨hmay, by rw [if_pos rfl]; omega, fun c hc => ?_⟩
      by_cases hcj : c = j
      · subst c; omega
      · have := hsecond c hc hcj
        rw [if_neg hcj, if_pos rfl]; omega
    · rw [if_neg hki] at hk
      split at hk
      · cases hk
      · obtain ⟨hml, h1, hall⟩ := h.placed k l hk
        have hlj : l ≠ j := fun hlj => ‹¬ s.owner.getD j none = some k› ((h.col_owner k j).mp (hlj ▸ hk))
        refine ⟨hml, by rw [if_neg hlj]; omega, fun c hc => ?_⟩
        have := hall c hc
        rw [if_neg hlj]
        split <;> omega
  · rw [hworth]
    have := h.gaveUp k hk hd l hl
    split <;> omega

/-! ### The run -/

/-- What an auction ends with: the invariant, no more bids than the limit, and every row placed or given up unless it was limited. -/
structure Auction.Ends (a : List (List Nat)) (m limit : Nat) (s : Auction) : Prop where
  inv : Auction.Inv a m s
  bids_le : s.bids ≤ limit
  settled : s.limited = false → ∀ i < a.length, s.col.getD i none = none → s.done.getD i true = true

theorem auctionRun_ends (hm : ∀ row ∈ a, row.length = m) (fuel : Nat) : ∀ s : Auction, Auction.Inv a m s → s.bids + fuel = limit + 1 →
    s.bids ≤ limit → s.limited = false → Auction.Ends a m limit (auctionRun a limit fuel s) := by
  induction fuel with
  | zero => intro s h hsum hle; omega
  | succ fuel ih =>
    intro s h hsum hle hlim
    simp only [auctionRun]
    split
    case _ hnone =>
      refine ⟨h, hle, fun _ i hi hfree => ?_⟩
      have := List.find?_eq_none.mp hnone i (by simpa [upto_zero_eq_range] using hi)
      simpa only [hfree, Option.isNone_none, Bool.true_and, Bool.not_eq_true', Bool.not_eq_false] using this
    case _ i hfound =>
      have hi : i < a.length := by simpa [upto_zero_eq_range] using List.mem_of_find?_eq_some hfound
      have hsel := List.find?_some hfound
      rw [Bool.and_eq_true, Option.isNone_iff_eq_none] at hsel
      split
      · exact ⟨⟨h.price_len, h.owner_len, h.col_len, h.done_len, h.col_owner, h.price_nonneg, h.price_free, h.placed, h.gaveUp⟩, hle,
          fun hl => absurd hl (by simp)⟩
      · split
        case _ hb => exact ih _ (h.giveUp hi hb) (by simp only; omega) (by simp only; omega) hlim
        case _ j hb => exact ih (s.bid i j _) (h.bid hm hi hsel.1 hb) (by simp only [Auction.bid]; omega) (by simp only [Auction.bid]; omega) hlim

theorem auction_ends (hm : ∀ row ∈ a, row.length = m) : Auction.Ends a m limit (auction a m limit) :=
  auctionRun_ends hm (limit + 1) _ (Auction.inv_start a m) (by simp only; omega) (Nat.zero_le _) rfl

/-! ### The total (R303: within one step of the scale, each row has its best column) -/

/-- The benefit of the column that a row has, none where it has none. -/
def benefitOf (a : List (List Nat)) (i : Nat) : Option Nat → Nat
  | some j => (a.getD i []).getD j 0
  | none => 0

/-- The total benefit of an assignment. -/
def totalOf (a : List (List Nat)) (g : Nat → Option Nat) : Nat := ∑ i ∈ Finset.range a.length, benefitOf a i (g i)

theorem auctionTotal_eq (a : List (List Nat)) (r : Auction) (hlen : r.col.length = a.length) :
    auctionTotal a r = totalOf a (fun i => r.col.getD i none) := by
  have hfold : ∀ (l : List (Nat × Option Nat)) (t : Nat), l.foldl (fun t p => match p.2 with
      | some j => t + (a.getD p.1 []).getD j 0
      | none => t) t = t + (l.map (fun p => benefitOf a p.1 p.2)).sum := by
    intro l
    induction l with
    | nil => simp
    | cons p l ih =>
      intro t
      rw [List.foldl_cons, ih, List.map_cons, List.sum_cons]
      obtain ⟨i, j | _⟩ := p <;> simp only [benefitOf] <;> omega
  have hzip : ((upto 0 a.length).zip r.col).map (fun p => benefitOf a p.1 p.2) =
      (List.range a.length).map (fun i => benefitOf a i (r.col.getD i none)) := by
    refine List.ext_getElem (by simp [upto_zero_eq_range, hlen]) fun i h1 h2 => ?_
    have hi : i < r.col.length := by simpa [hlen] using h2
    simp [upto_zero_eq_range, hi]
  exact (hfold _ 0).trans (by rw [hzip, Nat.zero_add]; rfl)

/-- An assignment gives no two rows one column, and no row one that it may not take. -/
structure Assignment (a : List (List Nat)) (g : Nat → Option Nat) : Prop where
  mayTake : ∀ i < a.length, ∀ j, g i = some j → mayTake a i j
  inj : ∀ i < a.length, ∀ i' < a.length, ∀ j, g i = some j → g i' = some j → i = i'

/-- The price of what a row has. -/
def priceOf (price : List Int) : Option Nat → Int
  | some j => price.getD j 0
  | none => 0

theorem priceOf_eq_sum (price : List Int) {o : Option Nat} (ho : ∀ j, o = some j → j < m) :
    priceOf price o = ∑ j ∈ Finset.range m, if o = some j then price.getD j 0 else 0 := by
  cases o with
  | none => simp [priceOf]
  | some j => simp [priceOf, ho j rfl]

/-- What the rows of an assignment have costs no more than all columns together. -/
theorem sum_priceOf_le {g : Nat → Option Nat} (hg : Assignment a g) (hlt : ∀ i < a.length, ∀ j, g i = some j → j < m) {price : List Int}
    (hpos : ∀ j, 0 ≤ price.getD j 0) :
    ∑ i ∈ Finset.range a.length, priceOf price (g i) ≤ ∑ j ∈ Finset.range m, price.getD j 0 := by
  rw [Finset.sum_congr rfl fun i hi => priceOf_eq_sum price (hlt i (Finset.mem_range.mp hi)), Finset.sum_comm]
  refine Finset.sum_le_sum fun j _ => ?_
  by_cases hex : ∃ i ∈ Finset.range a.length, g i = some j
  · obtain ⟨i, hi, hij⟩ := hex
    refine le_of_eq ((Finset.sum_eq_single_of_mem i hi fun k hk hne => if_neg fun hkj => hne ?_).trans (if_pos hij))
    exact hg.inj k (Finset.mem_range.mp hk) i (Finset.mem_range.mp hi) j hkj hij
  · exact (Finset.sum_eq_zero fun i hi => if_neg fun hij => hex ⟨i, hi, hij⟩).trans_le (hpos j)

theorem Auction.Inv.col_lt {r : Auction} (h : Auction.Inv a m r) {i j : Nat} (hc : r.col.getD i none = some j) : i < a.length ∧ j < m := by
  constructor
  · by_contra hge
    rw [List.getD_eq_default _ _ (by rw [h.col_len]; omega)] at hc
    cases hc
  · by_contra hge
    have := (h.col_owner i j).mp hc
    rw [List.getD_eq_default _ _ (by rw [h.owner_len]; omega)] at this
    cases this

/-- All columns together cost no more than what the rows of the auction have: a column that nobody owns costs nothing. -/
theorem Auction.Inv.sum_price_le {r : Auction} (h : Auction.Inv a m r) :
    ∑ j ∈ Finset.range m, r.price.getD j 0 ≤ ∑ i ∈ Finset.range a.length, priceOf r.price (r.col.getD i none) := by
  rw [Finset.sum_congr rfl fun i _ => priceOf_eq_sum r.price fun j hc => (h.col_lt hc).2, Finset.sum_comm]
  refine Finset.sum_le_sum fun j _ => ?_
  have hterm : ∀ i ∈ Finset.range a.length, 0 ≤ if r.col.getD i none = some j then r.price.getD j 0 else 0 := fun i _ => by
    split
    · exact h.price_nonneg j
    · exact le_rfl
  cases hown : r.owner.getD j none with
  | none => exact (h.price_free j hown).trans_le (Finset.sum_nonneg hterm)
  | some i =>
    have hc := (h.col_owner i j).mpr hown
    exact (if_pos hc).symm.trans_le (Finset.single_le_sum hterm (Finset.mem_range.mpr (h.col_lt hc).1))

/-- Within one step of the scale, no other column is worth more to a row than what it has. -/
theorem Auction.Ends.row_le {r : Auction} (h : Auction.Ends a m limit r) (hlim : r.limited = false) {i : Nat} (hi : i < a.length)
    {o : Option Nat} (ho : ∀ j, o = some j → Machine.mayTake a i j) :
    (benefitOf a i o * (a.length + 1) : Int) - priceOf r.price o ≤
      benefitOf a i (r.col.getD i none) * (a.length + 1) - priceOf r.price (r.col.getD i none) + 1 := by
  have hworth : ∀ j, (benefitOf a i (some j) * (a.length + 1) : Int) - priceOf r.price (some j) = worth a r.price i j := fun j => by
    simp [benefitOf, priceOf, worth, netValue]
  have hnone : (benefitOf a i none * (a.length + 1) : Int) - priceOf r.price none = 0 := by simp [benefitOf, priceOf]
  cases hc : r.col.getD i none with
  | some j =>
    obtain ⟨-, hpos, hall⟩ := h.inv.placed i j hc
    rw [hworth]
    cases o with
    | none => rw [hnone]; exact hpos
    | some k => rw [hworth]; exact hall k (ho k rfl)
  | none =>
    have hdone := h.inv.gaveUp i hi (h.settled hlim i hi hc)
    rw [hnone]
    cases o with
    | none => rw [hnone]; decide
    | some k => rw [hworth]; exact (hdone k (ho k rfl)).trans (by decide)

/-- An auction that was not limited has the greatest total benefit: the steps of the scale together are less than one benefit. -/
theorem Auction.Ends.total_le {r : Auction} (h : Auction.Ends a m limit r) (hlim : r.limited = false) {g : Nat → Option Nat}
    (hg : Assignment a g) (hlt : ∀ i < a.length, ∀ j, g i = some j → j < m) :
    totalOf a g ≤ totalOf a (fun i => r.col.getD i none) := by
  have hrows := Finset.sum_le_sum fun i (hi : i ∈ Finset.range a.length) =>
    h.row_le hlim (Finset.mem_range.mp hi) (hg.mayTake i (Finset.mem_range.mp hi))
  simp only [Finset.sum_add_distrib, Finset.sum_sub_distrib, ← Finset.sum_mul, ← Nat.cast_sum, Finset.sum_const, Finset.card_range,
    nsmul_eq_mul, mul_one] at hrows
  have hprices := (sum_priceOf_le hg hlt h.inv.price_nonneg).trans h.inv.sum_price_le
  have hscaled : (totalOf a g : Int) * (a.length + 1) < (totalOf a (fun i => r.col.getD i none) + 1) * (a.length + 1) := by
    simp only [totalOf]
    linarith
  have hlt' : (totalOf a g : Int) < totalOf a (fun i => r.col.getD i none) + 1 := lt_of_mul_lt_mul_right hscaled (by positivity)
  omega

end Sys2Proof.Machine

namespace Sys2Proof.Proofs
open Sys2Proof Sys2Proof.Machine

/-- Settles O34: the invariant of the bids, and the prices as the witness of the greatest total; the worked example by running it. -/
theorem auctionIsOptimal : Obligations.AuctionIsOptimal := by
  refine ⟨fun a m limit hm => ?_, by decide⟩
  have h := auction_ends (limit := limit) hm
  have hlen : ∀ i < a.length, (a.getD i []).length = m := fun i hi => by
    rw [List.getD_eq_getElem _ _ hi]; exact hm _ (List.getElem_mem hi)
  have hget : ∀ i o, (auction a m limit).col[i]? = some (some o) → (auction a m limit).col.getD i none = some o := fun i o hi => by
    rw [List.getD_eq_getElem?_getD, hi]; rfl
  refine ⟨h.bids_le, h.inv.col_len, fun i j hij => ?_, fun hlim g hfeas hinj => ?_⟩
  · have hc := hget i j hij
    obtain ⟨-, hj⟩ := h.inv.col_lt hc
    refine ⟨hj, (h.inv.placed i j hc).1.2, fun i' hi' => ?_⟩
    have howner := (h.inv.col_owner i j).mp hc
    exact Option.some.inj (((h.inv.col_owner i' j).mp (hget i' j hi')).symm.trans howner)
  · rw [auctionTotal_eq _ _ h.inv.col_len]
    have hg : Assignment a g := ⟨fun i hi j hij => ⟨(hlen i hi).symm ▸ (hfeas i j hij hi).1, (hfeas i j hij hi).2⟩, fun i hi i' hi' j => hinj i i' j hi hi'⟩
    exact h.total_le hlim hg fun i hi j hij => (hfeas i j hij hi).1

end Sys2Proof.Proofs
end

