-- ==== Sys2Proof/Proofs/ServiceSteps.lean ====
section
/-! PROOFS. What the services of the device touch: delivery, the chain and its partner, the pool, and the Narrator's sessions; and what
a fold over numbered units leaves. -/
namespace Sys2Proof.Machine
open Sys2Proof

/-! ### Steps of the services -/

/-- A step of the services: what goes out and where it is queued, the slots, the pool, the partner's frames, the Keeper, the Narrator,
and memory but for its bytes. -/
def State.ServiceStep (s t : State) : Prop :=
  ∃ out rings colls pci od slots pair kpr narr tkp mem, mem.bytes = s.mem.bytes ∧ t = { s with
    out := out, rings := rings, colls := colls, pci := pci, od := od, slots := slots, pair := pair, kpr := kpr, narr := narr, tkp := tkp, mem := mem }

namespace State.ServiceStep
variable {s t u : State}

theorem refl (s : State) : s.ServiceStep s := ⟨_, _, _, _, _, _, _, _, _, _, _, rfl, rfl⟩

theorem trans (h : s.ServiceStep t) (h' : t.ServiceStep u) : s.ServiceStep u := by
  obtain ⟨_, _, _, _, _, _, _, _, _, _, m, hm, rfl⟩ := h
  obtain ⟨a, b, c, d, e, f, g, h, i, j, m', hm', rfl⟩ := h'
  exact ⟨a, b, c, d, e, f, g, h, i, j, m', hm'.trans hm, rfl⟩

theorem ite {c : Prop} [Decidable c] (ht : c → s.ServiceStep t) (hu : ¬ c → s.ServiceStep u) : s.ServiceStep (if c then t else u) := by
  split
  · exact ht ‹_›
  · exact hu ‹_›

theorem foldl {α : Type} {f : State → α → State} (h : ∀ t a, State.ServiceStep t (f t a)) (l : List α) (s : State) :
    s.ServiceStep (l.foldl f s) := by
  induction l generalizing s with
  | nil => exact refl s
  | cons a l ih => exact (h s a).trans (ih _)

theorem foldl_of (hst : s.ServiceStep t) {α : Type} {f : State → α → State} (h : ∀ t a, State.ServiceStep t (f t a)) (l : List α) :
    s.ServiceStep (l.foldl f t) := hst.trans (foldl h l t)

theorem ctxs (h : s.ServiceStep t) : t.ctxs = s.ctxs := by obtain ⟨_, _, _, _, _, _, _, _, _, _, _, _, rfl⟩ := h; rfl
theorem ctxRuns (h : s.ServiceStep t) : t.ctxRuns = s.ctxRuns := by obtain ⟨_, _, _, _, _, _, _, _, _, _, _, _, rfl⟩ := h; rfl
theorem cores (h : s.ServiceStep t) : t.cores = s.cores := by obtain ⟨_, _, _, _, _, _, _, _, _, _, _, _, rfl⟩ := h; rfl
theorem clusters (h : s.ServiceStep t) : t.clusters = s.clusters := by obtain ⟨_, _, _, _, _, _, _, _, _, _, _, _, rfl⟩ := h; rfl
theorem skv (h : s.ServiceStep t) : t.skv = s.skv := by obtain ⟨_, _, _, _, _, _, _, _, _, _, _, _, rfl⟩ := h; rfl
theorem stc (h : s.ServiceStep t) : t.stc = s.stc := by obtain ⟨_, _, _, _, _, _, _, _, _, _, _, _, rfl⟩ := h; rfl
theorem flight (h : s.ServiceStep t) : t.flight = s.flight := by obtain ⟨_, _, _, _, _, _, _, _, _, _, _, _, rfl⟩ := h; rfl
theorem work (h : s.ServiceStep t) : t.work = s.work := by obtain ⟨_, _, _, _, _, _, _, _, _, _, _, _, rfl⟩ := h; rfl
theorem bytes (h : s.ServiceStep t) : t.mem.bytes = s.mem.bytes := by obtain ⟨_, _, _, _, _, _, _, _, _, _, _, hm, rfl⟩ := h; exact hm

end State.ServiceStep

/-- What a command writes of one of the parts that services keep. -/
theorem State.serviceStep_of {s : State} (out rings colls pci od slots pair kpr narr tkp mem) (hm : mem.bytes = s.mem.bytes) :
    s.ServiceStep { s with
      out := out, rings := rings, colls := colls, pci := pci, od := od, slots := slots, pair := pair, kpr := kpr, narr := narr, tkp := tkp, mem := mem } :=
  ⟨_, _, _, _, _, _, _, _, _, _, _, hm, rfl⟩

section
variable (s : State)

theorem State.serviceStep_emit (o : Out) : s.ServiceStep (s.emit o) := State.serviceStep_of _ _ _ _ _ _ _ _ _ _ _ rfl
theorem State.serviceStep_modSlot (n : Nat) (f : Slot → Slot) : s.ServiceStep (s.modSlot n f) := State.serviceStep_of _ _ _ _ _ _ _ _ _ _ _ rfl
theorem State.serviceStep_modChain (n : Nat) (f : SlotChain → SlotChain) : s.ServiceStep (s.modChain n f) := s.serviceStep_modSlot n _
theorem State.serviceStep_count (n sub k : Nat) : s.ServiceStep (s.count n sub k) := s.serviceStep_modSlot n _
theorem State.serviceStep_narr (v : Narr) : s.ServiceStep { s with narr := v } := State.serviceStep_of _ _ _ _ _ _ _ _ _ _ _ rfl
theorem State.serviceStep_tkp (v : Tkp) : s.ServiceStep { s with tkp := v } := State.serviceStep_of _ _ _ _ _ _ _ _ _ _ _ rfl
theorem State.serviceStep_modReserv (n : Nat) (f : Reserv → Reserv) : s.ServiceStep (s.modReserv n f) := s.serviceStep_tkp _
theorem State.serviceStep_modFb (n : Nat) (f : Fb → Fb) : s.ServiceStep (s.modFb n f) := s.serviceStep_tkp _

theorem State.serviceStep_raise (f : FaultInfo) : s.ServiceStep (s.raise f) := by
  obtain ⟨_, _, _, _, _, h⟩ := s.raise_frame f
  rw [h]
  exact State.serviceStep_of _ _ _ _ _ _ _ _ _ _ _ rfl

theorem State.serviceStep_ringPut (n : Nat) (bs : List Byte) : s.ServiceStep (s.ringPut n bs).2 := by
  obtain ⟨_, _, _, h⟩ := s.ringPut_frame n bs
  rw [h]
  exact State.serviceStep_of _ _ _ _ _ _ _ _ _ _ _ rfl

theorem State.serviceStep_collPut (n : Nat) (bs : List Byte) : s.ServiceStep (s.collPut n bs).2 := by
  obtain ⟨_, _, h⟩ := s.collPut_frame n bs
  rw [h]
  exact State.serviceStep_of _ _ _ _ _ _ _ _ _ _ _ rfl

theorem State.serviceStep_route (n ty : Nat) (bytes : List Byte) : s.ServiceStep (s.route n ty bytes) := by
  have hring : s.ServiceStep (if (((s.slot n).cfg.routes.find? (fun p => p.1 == ty)).map (·.2)).getD 0xFFFF % 256 < 64 then
      (s.ringPut ((((s.slot n).cfg.routes.find? (fun p => p.1 == ty)).map (·.2)).getD 0xFFFF % 256) bytes).2 else s) :=
    .ite (fun _ => s.serviceStep_ringPut _ _) fun _ => .refl s
  exact .ite (fun _ => hring.trans (State.serviceStep_collPut _ _ _)) fun _ => hring

theorem State.serviceStep_streamOutWith (n ty pts : Nat) (chain body : List Byte) : s.ServiceStep (s.streamOutWith n ty pts chain body) :=
  (s.serviceStep_modChain n _).trans (.ite (fun _ => State.serviceStep_modChain _ _ _) fun _ => State.serviceStep_route _ _ _ _)

theorem State.serviceStep_stirrupDrain (k : Nat) : s.ServiceStep (State.stirrupDrain k s) := by
  induction k generalizing s with
  | zero => exact .refl s
  | succ k ih =>
    unfold State.stirrupDrain
    split
    · exact .ite (fun _ => (State.serviceStep_of _ _ _ _ _ _ _ _ _ _ _ rfl).trans (ih _)) fun _ => .refl s
    · exact .refl s

theorem State.serviceStep_stirrupSend (kind : Nat) (payload : List Byte) : s.ServiceStep (s.stirrupSend kind payload) :=
  .ite (fun _ => (State.serviceStep_of _ _ _ _ _ _ _ _ _ _ _ rfl).trans (State.serviceStep_stirrupDrain _ _)) fun _ => .refl s

theorem State.serviceStep_mirrorChain (n : Nat) : s.ServiceStep (s.mirrorChain n) :=
  .ite (fun _ => s.serviceStep_stirrupSend _ _) fun _ => .refl s

theorem State.serviceStep_chainLate (n : Nat) (e : Entry) : s.ServiceStep (s.chainLate n e) :=
  .ite (fun _ => .refl s) fun _ => s.serviceStep_modChain _ _

/-! ### The pool -/

theorem State.serviceStep_pageToZero (p : Nat) : s.ServiceStep (s.pageToZero p) := State.serviceStep_of _ _ _ _ _ _ _ _ _ _ _ rfl

theorem State.serviceStep_freeHeld (p : Nat) : s.ServiceStep (s.freeHeld p) :=
  .ite (fun _ => ((s.serviceStep_pageToZero p).trans (State.serviceStep_modReserv _ _ _)).trans
    (.ite (fun _ => (State.serviceStep_pageToZero _ _).trans (State.serviceStep_modReserv _ _ _)) fun _ => .refl _)) fun _ => .refl s

theorem State.serviceStep_endReserv (res : Nat) : s.ServiceStep (s.endReserv res) :=
  State.ServiceStep.trans (.ite (fun _ => .foldl State.serviceStep_pageToZero _ s) fun _ => .refl s) (State.serviceStep_modReserv _ _ _)

theorem State.serviceStep_settleExtent (id : Nat) : s.ServiceStep (s.settleExtent id) := by
  unfold State.settleExtent
  split
  · exact .ite (fun _ => ((State.ServiceStep.foldl (fun t i => t.serviceStep_modFb i _) _ s).trans (State.serviceStep_endReserv _ _)).trans
      (State.serviceStep_tkp _ _)) fun _ => .refl s
  · exact .refl s

theorem State.serviceStep_fbDrop (h : Nat) (ev : Bool) : s.ServiceStep (s.fbDrop h ev).2 := by
  unfold State.fbDrop
  split
  · exact .refl s
  · rw [apply_ite Prod.snd]
    exact .ite (fun _ => .refl s) fun _ =>
      (s.serviceStep_modFb _ _).trans (.ite (fun _ => State.serviceStep_settleExtent _ _) fun _ => .refl _)

theorem State.serviceStep_fbDropSvc (h : Nat) (ev : Bool) : s.ServiceStep (s.fbDropSvc h ev) := by
  have hdrop := s.serviceStep_fbDrop h ev
  unfold State.fbDropSvc
  split <;> rename_i heq <;> rw [heq] at hdrop
  · exact hdrop
  · exact (hdrop.trans (State.serviceStep_tkp _ _)).trans (State.serviceStep_raise _ _)

theorem State.serviceStep_skvRelease (j : Job) : s.ServiceStep (s.skvRelease j) :=
  .ite (fun _ => s.serviceStep_fbDropSvc _ _) fun _ => .refl s

/-! ### The Narrator -/

theorem State.serviceStep_narrMirror : s.ServiceStep s.narrMirror :=
  .ite (fun _ => .ite (fun _ => s.serviceStep_stirrupSend _ _) fun _ => .foldl (fun t _ => t.serviceStep_stirrupSend _ _) _ s) fun _ => .refl s

theorem State.serviceStep_caption (x : Session) (flags : Nat) (text : List Byte) (final : Bool) : s.ServiceStep (s.caption x flags text final) :=
  ((s.serviceStep_streamOutWith _ _ _ _ _).trans (State.serviceStep_mirrorChain _ _)).trans
    (.ite (fun _ => State.serviceStep_chainLate _ _ _) fun _ => .refl _)

theorem State.serviceStep_narrEnd (num flags : Nat) (withText : Bool) : s.ServiceStep (s.narrEnd num flags withText) := by
  unfold State.narrEnd
  split
  · exact (((s.serviceStep_caption _ _ _ _).trans (State.serviceStep_narr _ _)).foldl_of State.serviceStep_freeHeld _).trans (State.serviceStep_narrMirror _)
  · exact .refl s

theorem State.serviceStep_narrRefuse (req : NarrReq) (sub code : Nat) : s.ServiceStep (s.narrRefuse req sub code) :=
  ((s.serviceStep_chainLate _ _).trans (State.serviceStep_narr _ _)).trans (State.serviceStep_raise _ _)

theorem State.serviceStep_narrFault : s.ServiceStep s.narrFault :=
  (((State.ServiceStep.foldl (fun t _ => t.serviceStep_narrEnd _ _ _) _ s).foldl_of (fun t _ => t.serviceStep_narrRefuse _ _ _) _).trans
    (State.serviceStep_narr _ _)).trans (State.serviceStep_narrMirror _)

/-! ### Slots that a context leaves -/

theorem State.serviceStep_dropPics (n c cause : Nat) : s.ServiceStep (s.dropPics n c cause) :=
  ((State.ServiceStep.foldl (fun t _ => t.serviceStep_chainLate _ _) _ s).trans (State.serviceStep_count _ _ _ _)).trans (State.serviceStep_modSlot _ _ _)

theorem State.serviceStep_bindEntry (n c sub code : Nat) : s.ServiceStep (s.bindEntry n c sub code) :=
  .ite (fun _ => .refl s) fun _ => s.serviceStep_chainLate _ _

theorem State.serviceStep_freePages (c : Nat) : s.ServiceStep (s.freePages c) :=
  (s.serviceStep_endReserv _).trans (.ite (fun _ => .foldl State.serviceStep_freeHeld _ _) fun _ => State.serviceStep_endReserv _ _)

end

/-! ### Folds over numbered units -/

section
variable {α β : Type} [DecidableEq β] (d : β) (key : α → Nat) (f : α → β → β)

theorem tget_foldl_tmod_of_notMem {l : List α} {k : Nat} (h : ∀ a ∈ l, key a ≠ k) (t : Tbl β) :
    tget d (l.foldl (fun t a => tmod d t (key a) (f a)) t) k = tget d t k := by
  induction l generalizing t with
  | nil => rfl
  | cons a l ih =>
    rw [List.foldl_cons, ih fun b hb => h b (List.mem_cons_of_mem a hb), tget_tmod_ne d t (f a) (h a List.mem_cons_self).symm]

theorem tget_foldl_tmod_of_mem {l : List α} (hnodup : (l.map key).Nodup) {a : α} (ha : a ∈ l) (t : Tbl β) :
    tget d (l.foldl (fun t a => tmod d t (key a) (f a)) t) (key a) = f a (tget d t (key a)) := by
  induction l generalizing t with
  | nil => cases ha
  | cons b l ih =>
    rw [List.map_cons, List.nodup_cons] at hnodup
    rw [List.foldl_cons]
    rcases List.mem_cons.mp ha with rfl | hmem
    · rw [tget_foldl_tmod_of_notMem d key f fun c hc heq => hnodup.1 (List.mem_map.mpr ⟨c, hc, heq⟩), tget_tmod_same]
    · rw [ih hnodup.2 hmem, tget_tmod_ne]
      exact fun heq => hnodup.1 (List.mem_map.mpr ⟨a, hmem, heq⟩)

/-- Writing one value to units, in whatever order and however often. -/
theorem tget_foldl_tset_const (v : β) (l : List Nat) (k : Nat) (t : Tbl β) :
    tget d (l.foldl (fun t a => tmod d t a (fun _ => v)) t) k = if k ∈ l then v else tget d t k := by
  induction l generalizing t with
  | nil => rfl
  | cons a l ih =>
    rw [List.foldl_cons, ih]
    by_cases hk : k ∈ l
    · simp [hk]
    · by_cases hka : k = a
      · subst hka; simp [hk]
      · simp [hk, hka, tget_tmod_ne _ _ _ hka]
end

section
variable {α : Type} (key : α → Nat) (l : List α) (s : State)

theorem State.foldl_modCore (f : α → Core → Core) : l.foldl (fun s a => s.modCore (key a) (f a)) s =
    { s with cores := l.foldl (fun t a => tmod {} t (key a) (f a)) s.cores } := by
  induction l generalizing s with
  | nil => rfl
  | cons a l ih => rw [List.foldl_cons, ih]; rfl

theorem State.foldl_modCluster (f : α → Cluster → Cluster) : l.foldl (fun s a => s.modCluster (key a) (f a)) s =
    { s with clusters := l.foldl (fun t a => tmod {} t (key a) (f a)) s.clusters } := by
  induction l generalizing s with
  | nil => rfl
  | cons a l ih => rw [List.foldl_cons, ih]; rfl

theorem State.foldl_modWork (f : α → WorkCtr → WorkCtr) : l.foldl (fun s a => s.modWork (key a) (f a)) s =
    { s with work := l.foldl (fun t a => tmod {} t (key a) (f a)) s.work } := by
  induction l generalizing s with
  | nil => rfl
  | cons a l ih => rw [List.foldl_cons, ih]; rfl

theorem State.core_foldl_of_notMem {f : α → Core → Core} {n : Nat} (h : ∀ a ∈ l, key a ≠ n) :
    (l.foldl (fun s a => s.modCore (key a) (f a)) s).core n = s.core n := by
  rw [State.foldl_modCore]
  exact tget_foldl_tmod_of_notMem _ key f h _

theorem State.core_foldl_of_mem {f : α → Core → Core} (hnodup : (l.map key).Nodup) {a : α} (ha : a ∈ l) :
    (l.foldl (fun s a => s.modCore (key a) (f a)) s).core (key a) = f a (s.core (key a)) := by
  rw [State.foldl_modCore]
  exact tget_foldl_tmod_of_mem _ key f hnodup ha _

theorem State.cluster_foldl_of_notMem {f : α → Cluster → Cluster} {n : Nat} (h : ∀ a ∈ l, key a ≠ n) :
    (l.foldl (fun s a => s.modCluster (key a) (f a)) s).cluster n = s.cluster n := by
  rw [State.foldl_modCluster]
  exact tget_foldl_tmod_of_notMem _ key f h _

theorem State.cluster_foldl_of_mem {f : α → Cluster → Cluster} (hnodup : (l.map key).Nodup) {a : α} (ha : a ∈ l) :
    (l.foldl (fun s a => s.modCluster (key a) (f a)) s).cluster (key a) = f a (s.cluster (key a)) := by
  rw [State.foldl_modCluster]
  exact tget_foldl_tmod_of_mem _ key f hnodup ha _

end

end Sys2Proof.Machine
end

