-- ==== Sys2Proof/Proofs/ContextTeardown.lean ====
section
/-! PROOFS. The storage of a partition (R162, R166, R436), and the teardown of a context. -/
namespace Sys2Proof.Machine
open Sys2Proof

/-! ### Wiping (R162) -/

theorem tget_filter_key {α : Type} (d : α) (p : Nat → Bool) (t : Tbl α) (k : Nat) :
    tget d (t.filter (fun c => p c.1)) k = if p k then tget d t k else d := by
  induction t with
  | nil => simp
  | cons c t ih =>
    obtain ⟨j, v⟩ := c
    by_cases hp : p j = true
    · rw [List.filter_cons_of_pos (by exact hp)]
      by_cases hk : k = j
      · subst hk; simp [tget, hp]
      · simp [tget, hk, ih]
    · rw [List.filter_cons_of_neg (by exact hp), ih]
      by_cases hk : k = j
      · subst hk; simp [hp]
      · simp [tget, hk]

theorem State.rdByte_wipe (s : State) (a n x : Nat) : (s.wipe a n).rdByte x = if a ≤ x ∧ x < a + n then 0#8 else s.rdByte x := by
  have h := tget_filter_key 0#8 (fun k => decide (k < a ∨ a + n ≤ k)) s.mem.bytes x
  simp only [decide_eq_true_eq] at h
  rw [show (s.wipe a n).rdByte x = tget 0#8 (s.mem.bytes.filter fun c => decide (c.1 < a ∨ a + n ≤ c.1)) x from rfl, h]
  split <;> split <;> first | rfl | omega

/-- A change of memory alone. -/
def State.MemOnly (s t : State) : Prop := ∃ m, t = { s with mem := m }

theorem State.memOnly_foldl_wipe (base : Nat → Nat) (len : Nat) (l : List Nat) (s : State) :
    s.MemOnly (l.foldl (fun s n => s.wipe (base n) len) s) := by
  induction l generalizing s with
  | nil => exact ⟨_, rfl⟩
  | cons a l ih =>
    obtain ⟨m, h⟩ := ih (s.wipe (base a) len)
    exact ⟨m, h⟩

theorem State.rdByte_foldl_wipe (base : Nat → Nat) (len : Nat) (l : List Nat) (s : State) (x : Nat) :
    (l.foldl (fun s n => s.wipe (base n) len) s).rdByte x = if ∃ n ∈ l, base n ≤ x ∧ x < base n + len then 0#8 else s.rdByte x := by
  induction l generalizing s with
  | nil => simp
  | cons a l ih =>
    rw [List.foldl_cons, ih, State.rdByte_wipe]
    simp only [List.exists_mem_cons_iff]
    split <;> split <;> simp_all

/-- An address in the scratchpads or buffers of a partition. -/
def Ctx.inPartition (x : Ctx) (a : Nat) : Prop :=
  (∃ n ∈ x.cores, coreBase n ≤ a ∧ a < coreBase n + 0x20000) ∨ (∃ m ∈ x.map, clusterBase m ≤ a ∧ a < clusterBase m + 0x100000)

theorem State.memOnly_wipePartition (s : State) (x : Ctx) : s.MemOnly (s.wipePartition x) := by
  obtain ⟨m, h⟩ := State.memOnly_foldl_wipe coreBase 0x20000 x.cores s
  obtain ⟨m', h'⟩ := State.memOnly_foldl_wipe clusterBase 0x100000 x.map (x.cores.foldl (fun s n => s.wipe (coreBase n) 0x20000) s)
  exact ⟨m', h'.trans (by rw [h])⟩

theorem State.rdByte_wipePartition_in (s : State) {x : Ctx} {a : Nat} (h : x.inPartition a) : (s.wipePartition x).rdByte a = 0#8 := by
  simp only [State.wipePartition, State.rdByte_foldl_wipe]
  rcases h with hcore | hcl
  · simp only [if_pos hcore, ite_self]
  · exact if_pos hcl

theorem State.rdByte_wipePartition_out (s : State) {x : Ctx} {a : Nat} (h : ¬ x.inPartition a) : (s.wipePartition x).rdByte a = s.rdByte a := by
  rw [Ctx.inPartition, not_or] at h
  simp only [State.wipePartition, State.rdByte_foldl_wipe, if_neg h.1, if_neg h.2]

/-! ### A partition left idle (R436) -/

theorem State.core_idleCores_of_notMem (s : State) (x : Ctx) {n : Nat} (h : n ∉ x.cores) : (s.idleCores x).core n = s.core n :=
  State.core_foldl_of_notMem id x.cores s fun _ ha heq => h (heq ▸ ha)

theorem State.cluster_idleClusters_of_notMem (s : State) (x : Ctx) (on : Bool) {n : Nat} (h : n ∉ x.map) :
    (s.idleClusters x on).cluster n = s.cluster n :=
  State.cluster_foldl_of_notMem id x.map s fun _ ha heq => h (heq ▸ ha)

theorem State.idleCores_eq (s : State) (x : Ctx) : ∃ k, s.idleCores x = { s with cores := k } := ⟨_, State.foldl_modCore id x.cores s _⟩

theorem State.idleClusters_eq (s : State) (x : Ctx) (on : Bool) : ∃ k, s.idleClusters x on = { s with clusters := k } :=
  ⟨_, State.foldl_modCluster id x.map s _⟩

/-! ### The work of a context is discarded (steps 1 to 4 of R436) -/

/-- A step of the services that may also empty units of the Skiver and the Stitcher. -/
def State.FreesUnits (s t : State) : Prop :=
  ∃ u v t', s.ServiceStep t' ∧ t = { t' with skv := { s.skv with units := u }, stc := { s.stc with units := v } }

theorem State.ServiceStep.freesUnits {s t : State} (h : s.ServiceStep t) : s.FreesUnits t := by
  obtain ⟨_, _, _, _, _, _, _, _, _, _, m, hm, rfl⟩ := h
  exact ⟨_, _, _, State.serviceStep_of _ _ _ _ _ _ _ _ _ _ m hm, rfl⟩

theorem State.FreesUnits.trans {s t u : State} (h : s.FreesUnits t) (h' : t.FreesUnits u) : s.FreesUnits u := by
  obtain ⟨_, _, _, ⟨_, _, _, _, _, _, _, _, _, _, m, hm, rfl⟩, rfl⟩ := h
  obtain ⟨u', v', _, ⟨_, _, _, _, _, _, _, _, _, _, m', hm', rfl⟩, rfl⟩ := h'
  exact ⟨u', v', _, State.serviceStep_of _ _ _ _ _ _ _ _ _ _ m' (hm'.trans hm), rfl⟩

theorem State.FreesUnits.foldl {α : Type} {f : State → α → State} (h : ∀ t a, State.FreesUnits t (f t a)) (l : List α) (s : State) :
    s.FreesUnits (l.foldl f s) := by
  induction l generalizing s with
  | nil => exact (State.ServiceStep.refl s).freesUnits
  | cons a l ih => exact (h s a).trans (ih _)

theorem State.freesUnits_modSkv (s : State) (n : Nat) (f : SkvUnit → SkvUnit) : s.FreesUnits (s.modSkv n f) := ⟨_, _, s, .refl s, rfl⟩

theorem State.freesUnits_modStc (s : State) (n : Nat) (f : StcUnit → StcUnit) : s.FreesUnits (s.modStc n f) := ⟨_, _, s, .refl s, rfl⟩

/-- The queues lose what is the context's, the units what they ran of it; else only the services step. -/
theorem State.discardWork_eq (s : State) (c : Nat) : ∃ u v t, s.ServiceStep t ∧ s.discardWork c = { t with
    skv := { s.skv with queue := s.skv.queue.filter (fun j => j.ctx != c), units := u }
    stc := { s.stc with queue := s.stc.queue.filter (fun k => k.ctx != c), units := v }
    flight := s.flight.filter (fun i => i.ctx != c) } := by
  unfold State.discardWork
  extract_lets mine skv queued released jobless stc called callless
  have hjobs : queued.FreesUnits jobless := by
    refine (State.ServiceStep.foldl State.serviceStep_skvRelease _ _).freesUnits.trans (State.FreesUnits.foldl (fun t n => ?_) _ _)
    split
    · split
      · exact (t.serviceStep_skvRelease _).freesUnits.trans (State.freesUnits_modSkv _ _ _)
      · exact (State.ServiceStep.refl t).freesUnits
    · exact (State.ServiceStep.refl t).freesUnits
  have hcalls : called.FreesUnits callless := by
    refine State.FreesUnits.foldl (fun t n => ?_) _ _
    split
    · split
      · exact State.freesUnits_modStc _ _ _
      · exact (State.ServiceStep.refl t).freesUnits
    · exact (State.ServiceStep.refl t).freesUnits
  clear_value jobless callless
  obtain ⟨_, _, _, ⟨_, _, _, _, _, _, _, _, _, _, m, hm, rfl⟩, rfl⟩ := hjobs
  obtain ⟨u, v, _, ⟨_, _, _, _, _, _, _, _, _, _, m', hm', rfl⟩, rfl⟩ := hcalls
  exact ⟨u, v, _, State.serviceStep_of _ _ _ _ _ _ _ _ _ _ m' (hm'.trans hm), rfl⟩

/-! ### Teardown (R436) -/

/-- The partition of a context that leaves it: wiped where the context stood on it, idle clusters where nobody shares them. -/
def State.vacate (d : State) (x : Ctx) (shared : Bool) : State :=
  if x.onPartition && !x.standing then ((d.idleCores x).idleClusters x shared).wipePartition x
  else if shared then d else d.idleClusters x false

section
variable (d : State) (x : Ctx) (shared : Bool)

theorem State.vacate_eq : ∃ k l m, d.vacate x shared = { d with cores := k, clusters := l, mem := m } := by
  obtain ⟨k, hk⟩ := d.idleCores_eq x
  obtain ⟨l, hl⟩ := (d.idleCores x).idleClusters_eq x shared
  obtain ⟨m, hm⟩ := ((d.idleCores x).idleClusters x shared).memOnly_wipePartition x
  obtain ⟨l', hl'⟩ := d.idleClusters_eq x false
  unfold State.vacate
  split
  · exact ⟨k, l, m, by rw [hm, hl, hk]⟩
  · split
    · exact ⟨_, _, _, rfl⟩
    · exact ⟨_, l', _, hl'⟩

theorem State.core_vacate {n : Nat} (h : n ∉ x.cores) : (d.vacate x shared).core n = d.core n := by
  have hidle := d.core_idleCores_of_notMem x h
  obtain ⟨l, hl⟩ := (d.idleCores x).idleClusters_eq x shared
  obtain ⟨m, hm⟩ := ((d.idleCores x).idleClusters x shared).memOnly_wipePartition x
  obtain ⟨l', hl'⟩ := d.idleClusters_eq x false
  unfold State.vacate
  split
  · rw [hm, hl]; exact hidle
  · split
    · rfl
    · rw [hl']; rfl

theorem State.cluster_vacate {n : Nat} (h : n ∉ x.map) : (d.vacate x shared).cluster n = d.cluster n := by
  obtain ⟨k, hk⟩ := d.idleCores_eq x
  obtain ⟨m, hm⟩ := ((d.idleCores x).idleClusters x shared).memOnly_wipePartition x
  unfold State.vacate
  split
  · rw [hm]
    refine ((d.idleCores x).cluster_idleClusters_of_notMem x shared h).trans ?_
    rw [hk]; rfl
  · split
    · rfl
    · exact d.cluster_idleClusters_of_notMem x false h

theorem State.rdByte_vacate_out {a : Nat} (h : ¬ x.inPartition a) : (d.vacate x shared).rdByte a = d.rdByte a := by
  obtain ⟨k, hk⟩ := d.idleCores_eq x
  obtain ⟨l, hl⟩ := (d.idleCores x).idleClusters_eq x shared
  obtain ⟨l', hl'⟩ := d.idleClusters_eq x false
  unfold State.vacate
  split
  · rw [State.rdByte_wipePartition_out _ h, hl, hk]; rfl
  · split
    · rfl
    · rw [hl']; rfl

theorem State.rdByte_vacate_in {a : Nat} (hon : x.onPartition = true) (hst : x.standing = false) (h : x.inPartition a) :
    (d.vacate x shared).rdByte a = 0#8 := by
  rw [State.vacate, if_pos (by simp [hon, hst])]
  exact State.rdByte_wipePartition_in _ h

end

/-- A context after its teardown, with nothing of a capture kept. -/
def Ctx.tornDown (y : Ctx) (code : Nat) : Ctx :=
  { y with
    st := .ended, lastFault := code, capture := false, ready := false, preempt := false, standing := false, deschedulable := false
    destroyWish := false, saved := [], savedMem := [], savedWc := [], savedSeq := [], map := [], ctrs := [] }

/-- What a teardown leaves but for the steps of the services: the partition vacated, the work counters free, and the context ended. -/
theorem State.teardown_eq (s : State) (c code : Nat) (hlive : (s.ctx c).live = true) (hdebug : (s.ctx c).debug = false) :
    ∃ shared t r, State.ServiceStep
        (((s.ctx c).ctrs.foldl (fun s p => s.modWork p (fun _ => {})) ((s.discardWork c).vacate (s.ctx c) shared)).modCtx c (·.tornDown code)) t
      ∧ s.teardown c code = { t with ctxRuns := r } := by
  have hkeep : (true && (s.ctx c).debug && !(s.ctx c).standing) = false := by simp [hdebug]
  unfold State.teardown State.teardownWith
  simp only [hlive, hkeep, Bool.not_true, Bool.false_eq_true, if_false, Bool.false_and]
  have hnarr : ∀ u : State, u.ServiceStep (if u.narr.ctx = some c then u.narrFault.endReserv u.narr.kvRes else u) := fun u =>
    .ite (fun _ => u.serviceStep_narrFault.trans (State.serviceStep_endReserv _ _)) fun _ => .refl u
  exact ⟨_, _, _, ((State.serviceStep_freePages _ c).trans (hnarr _)).foldl_of
    (fun t n => (t.serviceStep_dropPics n c 10).trans (State.serviceStep_bindEntry _ _ _ _ _)) _, rfl⟩

end Sys2Proof.Machine

namespace Sys2Proof.Proofs
open Sys2Proof Sys2Proof.Machine

/-- Settles O48: the work that is discarded, the partition that is vacated, and the services, which touch neither. -/
theorem teardownTouchesNoOther : Obligations.TeardownTouchesNoOther := by
  intro s c code hlive hdebug x t inPart
  obtain ⟨shared, t', r, hstep, ht⟩ := s.teardown_eq c code hlive hdebug
  obtain ⟨u, v, w, hw, hd⟩ := s.discardWork_eq c
  rw [hd] at hstep
  generalize hdrop : ({ w with
    skv := { s.skv with queue := s.skv.queue.filter (fun j => j.ctx != c), units := u }
    stc := { s.stc with queue := s.stc.queue.filter (fun k => k.ctx != c), units := v }
    flight := s.flight.filter (fun i => i.ctx != c) } : State) = d at hstep
  have hctx : ∀ n, d.ctx n = s.ctx n := fun n => by rw [← hdrop]; exact congrArg (fun l => tget {} l n) hw.ctxs
  have hcore : ∀ n, d.core n = s.core n := fun n => by rw [← hdrop]; exact congrArg (fun l => tget {} l n) hw.cores
  have hcluster : ∀ n, d.cluster n = s.cluster n := fun n => by rw [← hdrop]; exact congrArg (fun l => tget {} l n) hw.clusters
  have hwork : ∀ n, d.workCtr n = s.workCtr n := fun n => by rw [← hdrop]; exact congrArg (fun l => tget {} l n) hw.work
  have hbyte : ∀ a, d.rdByte a = s.rdByte a := fun a => by rw [← hdrop]; exact congrArg (fun l => tget 0#8 l a) hw.bytes
  obtain ⟨k, l, m, hv⟩ := d.vacate_eq x shared
  have hvcore := fun n => @State.core_vacate d x shared n
  have hvcluster := fun n => @State.cluster_vacate d x shared n
  have hvout := fun a => @State.rdByte_vacate_out d x shared a
  have hvin := fun a => @State.rdByte_vacate_in d x shared a
  change State.ServiceStep ((x.ctrs.foldl (fun (s : State) p => s.modWork (id p) (fun _ => {})) _).modCtx c _) _ at hstep
  rw [State.foldl_modWork id] at hstep
  have htctx : ∀ n, t.ctx n = if n = c then (s.ctx c).tornDown code else s.ctx n := fun n => by
    have hn : t.ctx n = tget {} (tmod {} (d.vacate x shared).ctxs c (·.tornDown code)) n := by
      rw [show t = _ from ht]; exact congrArg (fun l => tget {} l n) hstep.ctxs
    rw [hn, hv]
    split
    · subst n; rw [tget_tmod_same]; exact congrArg (·.tornDown code) (hctx c)
    · rw [tget_tmod_ne _ _ _ ‹_›]; exact hctx n
  have htwork : ∀ n, t.workCtr n = if n ∈ x.ctrs then {} else s.workCtr n := fun n => by
    have hn : t.workCtr n = tget {} (x.ctrs.foldl (fun t a => tmod {} t a (fun _ => {})) (d.vacate x shared).work) n := by
      rw [show t = _ from ht]; exact congrArg (fun l => tget {} l n) hstep.work
    rw [hn, tget_foldl_tset_const, hv]
    exact if_congr Iff.rfl rfl (hwork n)
  have htcore : ∀ n, t.core n = (d.vacate x shared).core n := fun n => by
    rw [show t = _ from ht]; exact congrArg (fun l => tget {} l n) hstep.cores
  have htcluster : ∀ n, t.cluster n = (d.vacate x shared).cluster n := fun n => by
    rw [show t = _ from ht]; exact congrArg (fun l => tget {} l n) hstep.clusters
  have htbyte : ∀ a, t.rdByte a = (d.vacate x shared).rdByte a := fun a => by
    rw [show t = _ from ht]; exact congrArg (fun l => tget 0#8 l a) hstep.bytes
  have htc := (htctx c).trans (if_pos rfl)
  refine ⟨by rw [htc]; rfl, by rw [htc]; rfl, by rw [htc]; rfl, by rw [htc]; rfl, fun c' hc => (htctx c').trans (if_neg hc),
    fun n hn => by rw [htcore, hvcore n hn, hcore], fun n hn => by rw [htcluster, hvcluster n hn, hcluster], ?_, ?_, ?_,
    fun p hp => (htwork p).trans (if_pos hp), fun p hp => (htwork p).trans (if_neg hp),
    fun a ha => by rw [htbyte, hvout a ha, hbyte], fun hon hst a ha => by rw [htbyte, hvin a hon hst ha]⟩
  all_goals rw [show t = _ from ht]
  · refine (congrArg Skv.queue hstep.skv).trans ?_
    rw [hv, ← hdrop]; rfl
  · refine (congrArg Stc.queue hstep.stc).trans ?_
    rw [hv, ← hdrop]; rfl
  · refine hstep.flight.trans ?_
    rw [hv, ← hdrop]; rfl

end Sys2Proof.Proofs
end

