-- ==== Sys2Proof/Proofs/ContextSwitch.lean ====
section
/-! PROOFS. A switch (R433 to R435): the save area's image of a partition, and its restoration. -/
namespace Sys2Proof.Machine
open Sys2Proof

/-! ### The cores and clusters of a partition, and their windows (R165, R166) -/

/-- A partition as a context may hold it: its clusters are distinct clusters of the device. -/
structure Ctx.Placed (x : Ctx) : Prop where
  nodup : x.map.Nodup
  lt : ∀ m ∈ x.map, m < 128
  len : x.map.length = x.k

section
variable {x : Ctx}

theorem Ctx.Placed.k_le (h : x.Placed) : x.k ≤ 128 := by
  rw [← h.len, ← List.toFinset_card_of_nodup h.nodup]
  exact (Finset.card_le_card fun m hm => Finset.mem_range.mpr (h.lt m (List.mem_toFinset.mp hm))).trans_eq (Finset.card_range 128)

theorem Ctx.Placed.coreAt_of_lt (h : x.Placed) {j : Nat} (hj : j < x.numCores) : ∃ n, x.coreAt j = some n := by
  have : j / 16 < x.map.length := by rw [h.len]; unfold Ctx.numCores at hj; omega
  exact ⟨_, by rw [Ctx.coreAt, List.getElem?_eq_getElem this]; rfl⟩

theorem Ctx.coreAt_eq_some_iff {j n : Nat} : x.coreAt j = some n ↔ ∃ m, x.map[j / 16]? = some m ∧ n = m * 16 + j % 16 := by
  rw [Ctx.coreAt, Option.map_eq_some_iff]
  exact exists_congr fun m => and_congr_right fun _ => eq_comm

theorem Ctx.Placed.mem_cores_iff (h : x.Placed) {n : Nat} : n ∈ x.cores ↔ ∃ j < x.numCores, x.coreAt j = some n := by
  simp only [Ctx.cores, List.mem_flatMap, mem_upto_iff, Ctx.coreAt_eq_some_iff, Ctx.numCores]
  constructor
  · rintro ⟨m, hm, hlo, hhi⟩
    obtain ⟨i, hi, rfl⟩ := List.getElem_of_mem hm
    have hk := h.len
    refine ⟨i * 16 + (n - x.map[i] * 16), by omega, x.map[i], ?_, by omega⟩
    rw [show (i * 16 + (n - x.map[i] * 16)) / 16 = i by omega]
    exact List.getElem?_eq_getElem hi
  · rintro ⟨j, -, m, hm, rfl⟩
    exact ⟨m, List.mem_of_getElem? hm, by omega, by omega⟩

theorem Ctx.Placed.coreAt_inj (h : x.Placed) {i j n : Nat} (hi : x.coreAt i = some n) (hj : x.coreAt j = some n) : i = j := by
  obtain ⟨m, hm, rfl⟩ := Ctx.coreAt_eq_some_iff.mp hi
  obtain ⟨m', hm', heq⟩ := Ctx.coreAt_eq_some_iff.mp hj
  obtain rfl : m = m' := by omega
  have hlt := (List.getElem?_eq_some_iff.mp hm).1
  have : i / 16 = j / 16 := (List.getElem?_inj hlt h.nodup).mp (hm.trans hm'.symm)
  omega

theorem Ctx.Placed.coreAt_lt (h : x.Placed) {j n : Nat} (hj : x.coreAt j = some n) : n < 2048 := by
  obtain ⟨m, hm, rfl⟩ := Ctx.coreAt_eq_some_iff.mp hj
  have := h.lt m (List.mem_of_getElem? hm)
  omega

/-- A window address of the partition is translated to the core's own window. -/
theorem Ctx.Placed.translate_core (h : x.Placed) {j n o : Nat} (hlt : j < x.numCores) (hj : x.coreAt j = some n) (ho : o < 0x20000) :
    x.translate (coreBase j + o) = some (coreBase n + o) := by
  have hk := h.k_le
  have hj' : j < 2048 := by unfold Ctx.numCores at hlt; omega
  have hcore : coreOf (coreBase j + o) = (j, o) := by
    simp only [coreOf, coreBase, Prod.mk.injEq]
    omega
  unfold Ctx.translate
  rw [if_neg (by rw [inSaddle, decide_eq_true_eq, saddleSize, coreBase]; omega),
    if_pos (by unfold coreBase; omega), hcore]
  simp only [if_pos ho, hj, Option.map_some]

theorem Ctx.Placed.translate_cluster (h : x.Placed) {i m o : Nat} (hi : x.map[i]? = some m) (ho : o < 0x100000) :
    x.translate (clusterBase i + o) = some (clusterBase m + o) := by
  have hk := h.k_le
  have hi' : i < 128 := by
    have := (List.getElem?_eq_some_iff.mp hi).1
    rw [h.len] at this
    omega
  have hcl : clusterOf (clusterBase i + o) = (i, o) := by
    simp only [clusterOf, clusterBase, Prod.mk.injEq]
    omega
  unfold Ctx.translate
  rw [if_neg (by rw [inSaddle, decide_eq_true_eq, saddleSize, clusterBase]; omega),
    if_neg (by unfold clusterBase; omega), if_pos (by unfold clusterBase; omega), hcl]
  simp only [if_pos ho, hi, Option.map_some]

end

/-! ### Writing back listed bytes -/

/-- In canonical form a listed entry is what reads at its key. -/
theorem Tbl.tget_of_mem {α : Type} [DecidableEq α] (d : α) {t : Tbl α} (hw : Tbl.wf d t = true) {k : Nat} {v : α} (h : (k, v) ∈ t) :
    tget d t k = v := by
  have habove : ∀ (t : Tbl α) (j : Nat), Tbl.wf d t = true → Tbl.above j t → ∀ c ∈ t, j < c.1 := by
    intro t
    induction t with
    | nil => simp
    | cons c t ih =>
      intro j hw hj e he
      rw [Tbl.wf_cons] at hw
      rcases List.mem_cons.mp he with rfl | hmem
      · exact hj
      · exact ih j hw.2.2 (Tbl.above_trans hj hw.2.1) e hmem
  induction t with
  | nil => cases h
  | cons c t ih =>
    obtain ⟨j, w⟩ := c
    rw [Tbl.wf_cons] at hw
    rcases List.mem_cons.mp h with heq | hmem
    · obtain ⟨rfl, rfl⟩ := Prod.mk.inj heq
      simp [tget]
    · have := habove t j hw.2.2 hw.2.1 _ hmem
      rw [tget, if_neg (by simp only at this; omega)]
      exact ih hw.2.2 hmem

theorem Tbl.mem_of_tget_ne {α : Type} (d : α) {t : Tbl α} {k : Nat} (h : tget d t k ≠ d) : ∃ v, (k, v) ∈ t := by
  induction t with
  | nil => exact absurd rfl h
  | cons c t ih =>
    obtain ⟨j, w⟩ := c
    by_cases hk : k = j
    · exact ⟨w, by simp [hk]⟩
    · rw [tget, if_neg hk] at h
      obtain ⟨v, hv⟩ := ih h
      exact ⟨v, List.mem_cons_of_mem _ hv⟩

theorem State.memOnly_foldl_wrByte {α : Type} (f : α → Option (Nat × Byte)) (l : List α) (s : State) :
    s.MemOnly (l.foldl (fun s b => match f b with | some p => s.wrByte p.1 p.2 | none => s) s) := by
  induction l generalizing s with
  | nil => exact ⟨s.mem, rfl⟩
  | cons b l ih =>
    rw [List.foldl_cons]
    cases f b with
    | none => exact ih s
    | some p =>
      obtain ⟨m, hm⟩ := ih (s.wrByte p.1 p.2)
      exact ⟨m, hm⟩

/-- Writing back bytes of `m`, wherever each is put by `f`: what they cover reads as in `m`, the rest as before. -/
theorem State.rdByte_foldl_wrByte {α : Type} (f : α → Option (Nat × Byte)) (m : Nat → Byte) (l : List α) (s : State) (a : Nat)
    (h : ∀ b ∈ l, ∀ p, f b = some p → p.2 = m p.1) :
    (l.foldl (fun s b => match f b with | some p => s.wrByte p.1 p.2 | none => s) s).rdByte a =
      if ∃ b ∈ l, ∃ v, f b = some (a, v) then m a else s.rdByte a := by
  induction l generalizing s with
  | nil => simp
  | cons b l ih =>
    have hl : ∀ c ∈ l, ∀ p, f c = some p → p.2 = m p.1 := fun c hc => h c (List.mem_cons_of_mem b hc)
    rw [List.foldl_cons, ih _ hl]
    cases hb : f b with
    | none => simp [hb]
    | some p =>
      obtain ⟨a', v⟩ := p
      have hv : v = m a' := h b List.mem_cons_self _ hb
      by_cases ha : a = a'
      · subst ha
        simp [hb, State.rdByte, State.wrByte, hv]
      · simp [hb, State.rdByte, State.wrByte, tget_tset_ne _ _ _ ha, Ne.symm ha]

/-! ### Saving (R433) -/

/-- A core as its state block keeps it. -/
def Core.block (k : Core) : Core :=
  { k with held := none, heldPrev := none, arrayQ := [], os := [], osFloat := false, lut := none, queues := [], stalled := none, sigq := [], fills := [] }

/-- A core as its state block restores it: a parked core waits again. -/
def Core.resumed (k : Core) : Core :=
  { k with st := match k.st with | .parked => .waiting | t => t, wait := k.wait.map (fun w => { w with held := false }) }

/-- A context whose state stands in its save area. -/
def Ctx.savedOut (x : Ctx) (s : State) : Ctx :=
  let g := s.saveImage x
  { x with saved := g.1, savedMem := g.2.1, savedWc := g.2.2.1, savedSeq := g.2.2.2, st := .switchingOut, preempt := false, deschedulable := false }

/-- The partition emptied at a save. -/
def State.emptied (s : State) (x : Ctx) : State := ((s.idleCores x).idleClusters x true).wipePartition x

theorem State.emptied_spec (s : State) (x : Ctx) :
    (s.emptied x).ctxs = s.ctxs ∧ ∀ a, ¬ x.inPartition a → (s.emptied x).rdByte a = s.rdByte a := by
  obtain ⟨k, hk⟩ := s.idleCores_eq x
  obtain ⟨l, hl⟩ := (s.idleCores x).idleClusters_eq x true
  obtain ⟨m, hm⟩ := ((s.idleCores x).idleClusters x true).memOnly_wipePartition x
  unfold State.emptied
  refine ⟨by rw [hm, hl, hk], fun a ha => (State.rdByte_wipePartition_out _ ha).trans ?_⟩
  rw [hl, hk]
  rfl

theorem State.saveOut_eq (s : State) (c : Nat) {u : State} (hu : u = ((s.storeSave c).emptied (s.ctx c)).modCtx c
    (fun y => { y with st := .switchingOut, preempt := false, deschedulable := false })) :
    ∃ k r, s.saveOut c = { u with cores := k, ctxRuns := r } := by
  unfold State.saveOut
  extract_lets x a b d e
  have hu : u = b.modCtx c (fun y => { y with st := .switchingOut, preempt := false, deschedulable := false }) := hu
  obtain ⟨r, hd⟩ : ∃ r, d = { b with ctxRuns := r } := ⟨_, rfl⟩
  obtain ⟨k, hk⟩ : ∃ k, x.cores.foldl (fun s n => s.modCore n (fun k => { k with st := .saving, ctx := c })) e = { e with cores := k } :=
    ⟨_, State.foldl_modCore id x.cores e (fun _ k => { k with st := .saving, ctx := c })⟩
  have he : e = { u with ctxRuns := r } := by
    rw [show e = d.modCtx c _ from rfl, hd, hu]
    rfl
  clear_value e
  subst he
  exact ⟨k, r, hk⟩

/-- What a save leaves: the context in its save area, and its partition emptied. -/
theorem State.saveOut_spec (s : State) (c : Nat) :
    (s.saveOut c).ctx c = (s.ctx c).savedOut s ∧ (∀ c', c' ≠ c → (s.saveOut c).ctx c' = s.ctx c')
      ∧ ∀ a, ¬ (s.ctx c).inPartition a → (s.saveOut c).rdByte a = s.rdByte a := by
  obtain ⟨k, r, hout⟩ := s.saveOut_eq c rfl
  obtain ⟨hctxs, hbyte⟩ := (s.storeSave c).emptied_spec (s.ctx c)
  have hctx : ∀ n, ((s.storeSave c).emptied (s.ctx c)).ctx n = (s.storeSave c).ctx n := fun n =>
    congrArg (fun l : Tbl Ctx => tget ({} : Ctx) l n) hctxs
  rw [hout]
  refine ⟨?_, fun c' hc => ?_, hbyte⟩
  · refine (State.modCtx_ctx ((s.storeSave c).emptied (s.ctx c)) c (fun y => { y with st := .switchingOut, preempt := false, deschedulable := false })).trans ?_
    rw [hctx, show (s.storeSave c).ctx c = _ from State.modCtx_ctx s c _]
    rfl
  · refine (State.modCtx_ctx_ne ((s.storeSave c).emptied (s.ctx c)) (fun y => { y with st := .switchingOut, preempt := false, deschedulable := false }) hc).trans ?_
    rw [hctx]
    exact State.modCtx_ctx_ne s _ hc

/-! ### The image and its way back -/

/-- The bytes of the image with the addresses to which they go back. -/
def Ctx.placeOf (x : Ctx) (b : Nat × Byte) : Option (Nat × Byte) := (x.translate b.1).map (fun a => (a, b.2))

section
variable {s : State} {x : Ctx}

theorem State.mem_listed {a n : Nat} {b : Nat × Byte} : b ∈ s.listed a n ↔ b ∈ s.mem.bytes ∧ a ≤ b.1 ∧ b.1 < a + n := by
  simp [State.listed]

/-- A byte of the image goes back to where it was listed. -/
theorem State.placeOf_saved (h : x.Placed) {b : Nat × Byte} (hb : b ∈ (s.saveImage x).2.1) {p : Nat × Byte} (hp : x.placeOf b = some p) :
    p ∈ s.mem.bytes ∧ x.inPartition p.1 := by
  rw [State.saveImage] at hb
  simp only [List.mem_append, List.mem_flatMap, mem_upto_iff] at hb
  rcases hb with ⟨j, ⟨-, hj⟩, hmem⟩ | ⟨⟨i, m⟩, hzip, hmem⟩
  · rw [Nat.zero_add] at hj
    obtain ⟨n, hn⟩ := h.coreAt_of_lt hj
    simp only [hn, List.mem_map, State.mem_listed] at hmem
    obtain ⟨e, ⟨he, hlo, hhi⟩, rfl⟩ := hmem
    rw [Ctx.placeOf, h.translate_core hj hn (by omega)] at hp
    obtain rfl := Option.some.inj hp
    rw [Nat.add_sub_cancel' hlo]
    exact ⟨he, .inl ⟨n, h.mem_cores_iff.mpr ⟨j, hj, hn⟩, hlo, hhi⟩⟩
  · simp only [List.mem_map, State.mem_listed] at hmem
    obtain ⟨e, ⟨he, hlo, hhi⟩, rfl⟩ := hmem
    have hi : x.map[i]? = some m := mem_zip_upto.mp hzip
    rw [Ctx.placeOf, h.translate_cluster hi (by omega)] at hp
    obtain rfl := Option.some.inj hp
    rw [Nat.add_sub_cancel' hlo]
    exact ⟨he, .inr ⟨m, List.mem_of_getElem? hi, hlo, hhi⟩⟩

/-- Every listed byte of the partition is in the image. -/
theorem State.exists_saved (h : x.Placed) {p : Nat × Byte} (hp : p ∈ s.mem.bytes) (hin : x.inPartition p.1) :
    ∃ b ∈ (s.saveImage x).2.1, x.placeOf b = some p := by
  rw [State.saveImage]
  simp only [List.mem_append, List.mem_flatMap, mem_upto_iff]
  rcases hin with ⟨n, hn, hlo, hhi⟩ | ⟨m, hm, hlo, hhi⟩
  · obtain ⟨j, hj, hjn⟩ := h.mem_cores_iff.mp hn
    refine ⟨(coreBase j + (p.1 - coreBase n), p.2), .inl ⟨j, by omega, ?_⟩, ?_⟩
    · simp only [hjn, List.mem_map, State.mem_listed]
      exact ⟨p, ⟨hp, hlo, hhi⟩, rfl⟩
    · rw [Ctx.placeOf, h.translate_core hj hjn (by omega), Nat.add_sub_cancel' hlo]
      rfl
  · obtain ⟨i, hi, rfl⟩ := List.getElem_of_mem hm
    have hget := List.getElem?_eq_getElem hi
    refine ⟨(clusterBase i + (p.1 - clusterBase x.map[i]), p.2), .inr ⟨(i, x.map[i]), mem_zip_upto.mpr hget, ?_⟩, ?_⟩
    · simp only [List.mem_map, State.mem_listed]
      exact ⟨p, ⟨hp, hlo, hhi⟩, rfl⟩
    · rw [Ctx.placeOf, h.translate_cluster hget (by omega), Nat.add_sub_cancel' hlo]
      rfl

theorem State.saveImage_cores : (s.saveImage x).1 = (upto 0 x.numCores).filterMap (fun j => (x.coreAt j).map (fun n => (j, (s.core n).block))) := rfl

/-- Each core of the device is restored once. -/
theorem State.savedCores_nodup (h : x.Placed) :
    (((s.saveImage x).1.filterMap (fun p => (x.coreAt p.1).map (fun n => (n, p.2)))).map Prod.fst).Nodup := by
  have heq : ((s.saveImage x).1.filterMap (fun p => (x.coreAt p.1).map (fun n => (n, p.2)))).map Prod.fst = (upto 0 x.numCores).filterMap x.coreAt := by
    rw [State.saveImage_cores, List.filterMap_filterMap, List.map_filterMap]
    refine congrArg (fun f => List.filterMap f _) (funext fun j => ?_)
    cases hj : x.coreAt j <;> simp [hj]
  rw [heq]
  refine List.Nodup.filterMap (fun i j n hi hj => h.coreAt_inj hi hj) ?_
  rw [upto_zero_eq_range]
  exact List.nodup_range

/-- The cores of the image, by their place in the partition. -/
theorem State.mem_saveImage_cores {j : Nat} {k : Core} :
    (j, k) ∈ (s.saveImage x).1 ↔ j < x.numCores ∧ ∃ n, x.coreAt j = some n ∧ k = (s.core n).block := by
  simp only [State.saveImage, List.mem_filterMap, mem_upto_iff, Option.map_eq_some_iff, Prod.mk.injEq, Nat.zero_add, Nat.zero_le, true_and]
  constructor
  · rintro ⟨i, hi, n, hn, rfl, rfl⟩
    exact ⟨hi, n, hn, rfl⟩
  · rintro ⟨hj, n, hn, rfl⟩
    exact ⟨j, hj, n, hn, rfl, rfl⟩

end

theorem map_fst_zip_upto {β : Type} (l : List β) : ((upto 0 l.length).zip l).map Prod.fst = upto 0 l.length :=
  List.map_fst_zip (by rw [upto_zero_eq_range, List.length_range])

theorem map_snd_zip_upto {β : Type} (l : List β) : ((upto 0 l.length).zip l).map Prod.snd = l :=
  List.map_snd_zip (by rw [upto_zero_eq_range, List.length_range])

/-- The first entry of a key is the entry of that key, where keys are distinct. -/
theorem find?_key {β : Type} {l : List (Nat × β)} (hnodup : (l.map Prod.fst).Nodup) {p : Nat × β} (h : p ∈ l) :
    l.find? (fun w => w.1 == p.1) = some p := by
  induction l with
  | nil => cases h
  | cons e l ih =>
    rw [List.map_cons, List.nodup_cons] at hnodup
    rw [List.find?_cons]
    rcases List.mem_cons.mp h with rfl | hmem
    · simp
    · have hne : e.1 ≠ p.1 := fun heq => hnodup.1 (heq ▸ List.mem_map_of_mem hmem)
      rw [ih hnodup.2 hmem, beq_eq_false_iff_ne.mpr hne]

/-- What a place of the partition has listed for it is found at that place. -/
theorem find?_zip_upto {α β : Type} (l : List α) (f : α → β) {i : Nat} {m : α} (h : l[i]? = some m) :
    (((upto 0 l.length).zip l).map (fun c => (c.1, f c.2))).find? (fun w => w.1 == i) = some (i, f m) := by
  refine find?_key (p := (i, f m)) ?_ (List.mem_map.mpr ⟨(i, m), mem_zip_upto.mpr h, rfl⟩)
  rw [List.map_map, show (Prod.fst ∘ fun c : Nat × α => (c.1, f c.2)) = Prod.fst from rfl, map_fst_zip_upto, upto_zero_eq_range]
  exact List.nodup_range

/-- The cluster at a place of the partition, as its blocks restore it. -/
def Ctx.clusterBack (x : Ctx) (c i : Nat) (k : Cluster) : Cluster :=
  { k with
    assigned := true, ctx := c, pwr := match x.decl with | some d => d.bufferBanks.getD i 0 | none => 0
    wc := ((x.savedWc.find? (fun w => w.1 == i)).map (·.2)).getD []
    results5 := ((x.savedSeq.find? (fun w => w.1 == i)).map (·.2.1)).getD []
    awlIndex := ((x.savedSeq.find? (fun w => w.1 == i)).map (·.2.2)).getD 0 }

theorem State.clusterBack_savedOut {s : State} {x : Ctx} {c i m : Nat} (h : x.map[i]? = some m) (k : Cluster) :
    ((x.savedOut s).clusterBack c i k).wc = (s.cluster m).wc ∧ ((x.savedOut s).clusterBack c i k).results5 = (s.cluster m).results5 ∧
      ((x.savedOut s).clusterBack c i k).awlIndex = (s.cluster m).awlIndex := by
  have hwc := find?_zip_upto x.map (fun m => (s.cluster m).wc) h
  have hseq := find?_zip_upto x.map (fun m => ((s.cluster m).results5, (s.cluster m).awlIndex)) h
  refine ⟨?_, ?_, ?_⟩
  · exact congrArg (fun o : Option (Nat × Tbl (Nat × Nat)) => (o.map (·.2)).getD []) hwc
  · exact congrArg (fun o : Option (Nat × Tbl Nat × Nat) => (o.map (·.2.1)).getD []) hseq
  · exact congrArg (fun o : Option (Nat × Tbl Nat × Nat) => (o.map (·.2.2)).getD 0) hseq

/-! ### Restoring (R433, R434) -/

/-- A context that is resident again. -/
def Ctx.back (y : Ctx) : Ctx := { y with st := .resident, saved := [], savedMem := [], savedWc := [], savedSeq := [] }

/-- What a restore makes, part by part. -/
theorem State.restoreIn_eq (s : State) (c : Nat) : ∃ r m,
    { s with mem := m } = (s.ctx c).savedMem.foldl (fun t b => match (s.ctx c).placeOf b with | some p => t.wrByte p.1 p.2 | none => t)
      (s.wipePartition (s.ctx c)) ∧
    s.restoreIn c = { s with
      ctxs := tmod {} s.ctxs c Ctx.back, ctxRuns := r, mem := m
      clusters := ((upto 0 (s.ctx c).map.length).zip (s.ctx c).map).foldl
        (fun t p => tmod {} t p.2 ((s.ctx c).clusterBack c p.1)) s.clusters
      cores := ((s.ctx c).saved.filterMap (fun p => ((s.ctx c).coreAt p.1).map (fun n => (n, p.2)))).foldl
        (fun t p => tmod {} t p.1 (fun _ => p.2.resumed)) s.cores } := by
  unfold State.restoreIn
  extract_lets x d a b k n refill
  have hb : b = x.savedMem.foldl (fun s b => match x.placeOf b with | some p => s.wrByte p.1 p.2 | none => s) a :=
    congrArg (fun f => List.foldl f a x.savedMem) (funext fun s => funext fun e => by
      unfold Ctx.placeOf
      cases x.translate e.1 <;> rfl)
  have hk : k = { b with clusters := ((upto 0 x.map.length).zip x.map).foldl (fun t p => tmod {} t p.2 (x.clusterBack c p.1)) b.clusters } :=
    State.foldl_modCluster (Prod.snd : Nat × Nat → Nat) _ _ _
  have hn : n = { k with
      cores := (x.saved.filterMap (fun p => (x.coreAt p.1).map (fun n => (n, p.2)))).foldl
        (fun t p => tmod {} t p.1 (fun _ => p.2.resumed)) k.cores } := by
    refine Eq.trans ?_ (State.foldl_modCore Prod.fst _ _ (fun (p : Nat × Core) _ => p.2.resumed))
    rw [List.foldl_filterMap]
    refine congrArg (fun f => List.foldl f k x.saved) (funext fun s => funext fun p => ?_)
    cases x.coreAt p.1 <;> rfl
  clear_value n
  subst hn
  clear_value k
  subst hk
  have hmem : s.MemOnly b := by
    obtain ⟨m, hm⟩ := s.memOnly_wipePartition x
    obtain ⟨m', hm'⟩ := State.memOnly_foldl_wrByte x.placeOf x.savedMem a
    exact ⟨m', hb.trans (hm'.trans (by rw [show a = _ from hm]))⟩
  clear_value b
  obtain ⟨m, rfl⟩ := hmem
  exact ⟨_, m, hb, rfl⟩


/-! ### A switch out and back in -/

section
variable {s : State} {c : Nat}

/-- The memory after a switch out and back in: the partition as it was, and all else. -/
theorem State.rdByte_switch (hwf : Memory.wf s.mem.bytes = true) (h : (s.ctx c).Placed) (a : Nat) :
    ((s.saveOut c).restoreIn c).rdByte a = s.rdByte a := by
  obtain ⟨hx, -, hout⟩ := s.saveOut_spec c
  obtain ⟨r, m, hm, ht⟩ := (s.saveOut c).restoreIn_eq c
  rw [hx] at hm
  have hread := State.rdByte_foldl_wrByte ((s.ctx c).savedOut s).placeOf s.rdByte ((s.ctx c).savedOut s).savedMem
    ((s.saveOut c).wipePartition ((s.ctx c).savedOut s)) a (fun b hb p hp => by
      obtain ⟨hmem, -⟩ := State.placeOf_saved h hb hp
      exact (Tbl.tget_of_mem 0#8 hwf hmem).symm)
  rw [← hm] at hread
  rw [ht]
  refine Eq.trans hread ?_
  split
  next => rfl
  next hnot =>
    by_cases hin : (s.ctx c).inPartition a
    · rw [State.rdByte_wipePartition_in _ (show ((s.ctx c).savedOut s).inPartition a from hin)]
      by_contra hne
      obtain ⟨v, hv⟩ := Tbl.mem_of_tget_ne 0#8 (Ne.symm hne)
      obtain ⟨b, hb, hp⟩ := State.exists_saved h hv hin
      exact hnot ⟨b, hb, v, hp⟩
    · rw [State.rdByte_wipePartition_out _ (show ¬ ((s.ctx c).savedOut s).inPartition a from hin)]
      exact hout a hin

theorem State.ctx_switch : (((s.saveOut c).restoreIn c).ctx c).st = .resident ∧
    ∀ c', c' ≠ c → ((s.saveOut c).restoreIn c).ctx c' = s.ctx c' := by
  obtain ⟨-, hother, -⟩ := s.saveOut_spec c
  obtain ⟨r, m, -, ht⟩ := (s.saveOut c).restoreIn_eq c
  have hctxs : ∀ c', ((s.saveOut c).restoreIn c).ctx c' = tget {} (tmod {} (s.saveOut c).ctxs c Ctx.back) c' := fun c' =>
    congrArg (fun u : State => u.ctx c') ht
  refine ⟨?_, fun c' hc => ?_⟩
  · rw [hctxs, tget_tmod_same]
    rfl
  · rw [hctxs, tget_tmod_ne _ _ _ hc]
    exact hother c' hc

/-- A core of the partition after a switch: its state block, resumed. -/
theorem State.core_switch (h : (s.ctx c).Placed) {n : Nat} (hn : n ∈ (s.ctx c).cores) :
    ((s.saveOut c).restoreIn c).core n = (s.core n).block.resumed := by
  obtain ⟨hx, -, -⟩ := s.saveOut_spec c
  obtain ⟨r, m, -, ht⟩ := (s.saveOut c).restoreIn_eq c
  obtain ⟨j, hj, hjn⟩ := h.mem_cores_iff.mp hn
  rw [ht, hx]
  refine tget_foldl_tmod_of_mem {} Prod.fst (fun (p : Nat × Core) _ => p.2.resumed) (a := (n, (s.core n).block)) ?_ ?_ _
  · exact State.savedCores_nodup (x := s.ctx c) h
  · exact List.mem_filterMap.mpr ⟨(j, (s.core n).block), State.mem_saveImage_cores.mpr ⟨hj, n, hjn, rfl⟩,
      by simp [show ((s.ctx c).savedOut s).coreAt j = some n from hjn]⟩

/-- A cluster of the partition after a switch. -/
theorem State.cluster_switch (h : (s.ctx c).Placed) {i m : Nat} (hm : (s.ctx c).map[i]? = some m) :
    ((s.saveOut c).restoreIn c).cluster m = ((s.ctx c).savedOut s).clusterBack c i ((s.saveOut c).cluster m) := by
  obtain ⟨hx, -, -⟩ := s.saveOut_spec c
  obtain ⟨r, mem, -, ht⟩ := (s.saveOut c).restoreIn_eq c
  rw [ht, hx]
  refine tget_foldl_tmod_of_mem {} Prod.snd (fun (p : Nat × Nat) => ((s.ctx c).savedOut s).clusterBack c p.1) (a := (i, m)) ?_
    (mem_zip_upto.mpr hm) _
  exact (map_snd_zip_upto _).symm ▸ h.nodup
end

end Sys2Proof.Machine

namespace Sys2Proof.Proofs
open Sys2Proof.Machine

/-- Settles O49: the image of a partition holds every listed byte of its windows and every core's state block under its place in the
partition, and each place translates back to where it was. -/
theorem switchKeepsTheContext : Obligations.SwitchKeepsTheContext := by
  intro s c hwf hnodup hlt hlen x t
  have h : x.Placed := ⟨hnodup, hlt, hlen⟩
  have hbyte : ∀ a, t.rdByte a = s.rdByte a := State.rdByte_switch hwf h
  obtain ⟨hst, hother⟩ := State.ctx_switch (s := s) (c := c)
  refine ⟨hst, hother, fun n hn => ?_, fun n _ o _ => hbyte _, fun m hm => ?_, fun a _ => hbyte a⟩
  · have hcore : t.core n = (s.core n).block.resumed := State.core_switch h hn
    intro k k'
    rw [show k' = k.block.resumed from hcore]
    refine ⟨rfl, rfl, rfl, rfl, rfl, rfl, rfl, rfl, rfl, rfl, rfl, rfl, rfl, rfl, rfl, ?_, rfl, rfl, rfl, rfl⟩
    show (match k.st with | .parked => CoreSt.waiting | t => t) = _
    split
    next hp => rw [if_pos hp]
    next hp => rw [if_neg hp]
  · obtain ⟨i, hi, rfl⟩ := List.getElem_of_mem hm
    have hget := List.getElem?_eq_getElem hi
    obtain ⟨hwc, h5, hawl⟩ := State.clusterBack_savedOut (s := s) (c := c) hget ((s.saveOut c).cluster x.map[i])
    have hcluster : t.cluster x.map[i] = _ := State.cluster_switch h hget
    rw [hcluster]
    exact ⟨hwc, h5, hawl, fun o _ => hbyte _⟩

end Sys2Proof.Proofs
end

