-- ==== Sys2Proof/Proofs/EventLines.lean ====
section
/-! PROOFS. Event inputs and outputs (R50 to R56). -/
namespace Sys2Proof.Machine
open Sys2Proof

theorem bit_setBit_true (v i : Nat) : bit (setBit v i true) i = true := by
  have hpos : 0 < 2 ^ i := Nat.two_pow_pos i
  unfold setBit
  by_cases h : bit v i = true
  · have hle : 2 ^ i ≤ v := by
      by_contra hlt
      rw [bit, Nat.shiftRight_eq_div_pow, Nat.div_eq_of_lt (by omega)] at h
      cases h
    rw [h, b2n, if_pos rfl, Nat.one_mul, Nat.sub_add_cancel hle]
    exact h
  · rw [Bool.not_eq_true] at h
    rw [h]
    rw [bit, Nat.shiftRight_eq_div_pow, beq_eq_false_iff_ne] at h
    simp only [b2n, Bool.false_eq_true, if_false, if_true, Nat.zero_mul, Nat.sub_zero, Nat.one_mul, bit, Nat.shiftRight_eq_div_pow,
      Nat.add_div_right _ hpos, beq_iff_eq]
    omega

/-! ### A line's synchroniser and filter count -/

section
variable (l : EvtLine) (t : Nat)

/-- Settling moves changes through the synchroniser and the filter count; nothing else of the line moves. -/
theorem EvtLine.settle_frame : ∃ i c q, l.settle t = { l with input := i, counting := c, sync := q } := by
  have hfrom : ∀ (q : List (Nat × Bool)) (l : EvtLine), ∃ i c q', EvtLine.settleFrom t q l = { l with input := i, counting := c, sync := q' } := by
    intro q
    induction q with
    | nil => exact fun l => ⟨l.input, l.counting, [], rfl⟩
    | cons e q ih =>
      intro l
      rw [EvtLine.settleFrom]
      split
      · obtain ⟨i, c, q', h⟩ := ih (l.change e.1 e.2)
        exact ⟨i, c, q', h⟩
      · exact ⟨l.input, l.counting, _, rfl⟩
  exact hfrom l.sync l

@[simp] theorem EvtLine.settle_polarity : (l.settle t).polarity = l.polarity := by obtain ⟨_, _, _, h⟩ := l.settle_frame t; rw [h]
@[simp] theorem EvtLine.settle_stuck : (l.settle t).stuck = l.stuck := by obtain ⟨_, _, _, h⟩ := l.settle_frame t; rw [h]
@[simp] theorem EvtLine.settle_held : (l.settle t).held = l.held := by obtain ⟨_, _, _, h⟩ := l.settle_frame t; rw [h]
@[simp] theorem EvtLine.settle_filtered : (l.settle t).filtered = l.filtered := by obtain ⟨_, _, _, h⟩ := l.settle_frame t; rw [h]
@[simp] theorem EvtLine.settle_drops : (l.settle t).drops = l.drops := by obtain ⟨_, _, _, h⟩ := l.settle_frame t; rw [h]
@[simp] theorem EvtLine.settle_stamp : (l.settle t).stamp = l.stamp := by obtain ⟨_, _, _, h⟩ := l.settle_frame t; rw [h]
@[simp] theorem EvtLine.settle_tokens : (l.settle t).tokens = l.tokens := by obtain ⟨_, _, _, h⟩ := l.settle_frame t; rw [h]
@[simp] theorem EvtLine.settle_tokenTick : (l.settle t).tokenTick = l.tokenTick := by obtain ⟨_, _, _, h⟩ := l.settle_frame t; rw [h]
@[simp] theorem EvtLine.settle_tokensAt (u : Nat) : (l.settle t).tokensAt u = l.tokensAt u := by obtain ⟨_, _, _, h⟩ := l.settle_frame t; rw [h]; rfl

variable {l t}

theorem EvtLine.settle_of_nil (h : l.sync = []) : l.settle t = l := by
  rw [EvtLine.settle, h, EvtLine.settleFrom, ← h]

theorem EvtLine.settle_of_later {u : Nat} {v : Bool} (h : l.sync = [(u, v)]) (hu : t < u) : l.settle t = l := by
  rw [EvtLine.settle, h, EvtLine.settleFrom, if_neg (by omega), ← h]

theorem EvtLine.settle_of_due {u : Nat} {v : Bool} (h : l.sync = [(u, v)]) (hu : u ≤ t) (hc : l.counting = none) :
    l.settle t = { l with sync := [], input := v, counting := if v = l.filtered then none else some (v, l.filter, u) } := by
  rw [EvtLine.settle, h, EvtLine.settleFrom, if_pos ⟨hu, by rw [EvtLine.ripe, hc]⟩]
  rfl

theorem EvtLine.inputAt_pin_of_eq {v : Bool} (h : (v != l.polarity) = l.given) : ({ l with pin := v } : EvtLine).inputAt t = { l with pin := v } :=
  if_pos h

theorem EvtLine.inputAt_pin_of_ne {v : Bool} (h : (v != l.polarity) ≠ l.given) :
    ({ l with pin := v } : EvtLine).inputAt t = { l with pin := v, sync := l.sync ++ [(t + 2, v != l.polarity)] } :=
  if_neg h

end

section
variable (s : State) (l : Nat)

theorem State.modLine_congr {f g : EvtLine → EvtLine} (h : f (s.line l) = g (s.line l)) : s.modLine l f = s.modLine l g :=
  congrArg (fun x => ({ s with evt := { s.evt with lines := tset {} s.evt.lines l x } } : State)) h

/-- The line after an accepted edge (R50, R52). -/
def EvtLine.accepted (x : EvtLine) (t : Nat) : EvtLine :=
  { x with held := x.filtered, stamp := t % 2 ^ 48, tokens := x.tokensAt t - edgeCost, tokenTick := t, activeFrom := if x.filtered then t else x.activeFrom }

theorem State.acceptEdge_eq : ∃ q, s.acceptEdge l = { s with
    slots := q
    evt := { s.evt with lines := tmod {} s.evt.lines l (fun x => x.accepted s.evt.ticks), events := setBit s.evt.events l true } } := ⟨_, rfl⟩

@[simp] theorem State.acceptEdge_line : (s.acceptEdge l).line l = (s.line l).accepted s.evt.ticks := by
  obtain ⟨q, h⟩ := s.acceptEdge_eq l
  rw [h]
  exact tget_tmod_same {} s.evt.lines l (fun x => x.accepted s.evt.ticks)

theorem State.acceptEdge_line_ne {m : Nat} (hm : m ≠ l) : (s.acceptEdge l).line m = s.line m := by
  obtain ⟨q, h⟩ := s.acceptEdge_eq l
  rw [h]
  exact tget_tmod_ne {} s.evt.lines (fun x => x.accepted s.evt.ticks) hm

theorem State.acceptEdge_events : bit (s.acceptEdge l).evt.events l = true := by
  obtain ⟨q, h⟩ := s.acceptEdge_eq l
  rw [h]
  exact bit_setBit_true _ _

/-- A change of the event inputs, and of the edges that wait for a slot's next unit. -/
def State.EvtOnly (s t : State) : Prop := t = { s with evt := t.evt, slots := t.slots }

theorem State.evtOnly_acceptEdge : s.EvtOnly (s.acceptEdge l) := rfl

/-- A dropped edge leaves what the line holds and counts one more drop. -/
theorem State.dropEdge_line : ((s.dropEdge l).line l).held = (s.line l).held ∧ ((s.dropEdge l).line l).filtered = (s.line l).filtered ∧
    ((s.dropEdge l).line l).drops = ((s.line l).drops + 1) % 2 ^ 64 ∧ ((s.dropEdge l).line l).stamp = (s.line l).stamp ∧
    (s.dropEdge l).slots = s.slots := by
  unfold State.dropEdge
  dsimp only
  split
  · simp [State.line, State.modLine]
  · simp [State.line, State.modLine]

/-- The line when its filter count has completed: its level changes, and what waited behind the count moves on. -/
def EvtLine.counted (x : EvtLine) (t : Nat) (v : Bool) : EvtLine :=
  ({ x.settle t with counting := none, filtered := v, inactiveSince := if v then (x.settle t).inactiveSince else t } : EvtLine).settle t

@[simp] theorem EvtLine.counted_filtered (x : EvtLine) (t : Nat) (v : Bool) : (x.counted t v).filtered = v := EvtLine.settle_filtered _ _

@[simp] theorem EvtLine.counted_held (x : EvtLine) (t : Nat) (v : Bool) : (x.counted t v).held = x.held := by simp [EvtLine.counted]

@[simp] theorem EvtLine.counted_drops (x : EvtLine) (t : Nat) (v : Bool) : (x.counted t v).drops = x.drops := by simp [EvtLine.counted]

@[simp] theorem EvtLine.counted_stamp (x : EvtLine) (t : Nat) (v : Bool) : (x.counted t v).stamp = x.stamp := by simp [EvtLine.counted]

@[simp] theorem EvtLine.counted_tokensAt (x : EvtLine) (t : Nat) (v : Bool) (u : Nat) : (x.counted t v).tokensAt u = x.tokensAt u := by
  simp [EvtLine.counted, EvtLine.tokensAt]

/-- A complete count of a line that is not stuck: the new level is accepted where the budget holds an edge, else dropped. -/
theorem State.filterDone_of_count {v : Bool} {f st : Nat} (hc : ((s.line l).settle s.evt.ticks).counting = some (v, f, st)) (hf : st + f ≤ s.evt.ticks)
    (hs : (s.line l).stuck = false) (hv : v ≠ (s.line l).held) : ∃ u : State,
      s.EvtOnly u ∧ u.slots = s.slots ∧ u.evt.ticks = s.evt.ticks ∧ u.line l = (s.line l).counted s.evt.ticks v ∧ (∀ m, m ≠ l → u.line m = s.line m) ∧
      s.filterDone l = if edgeCost ≤ (s.line l).tokensAt s.evt.ticks then u.acceptEdge l else u.dropEdge l := by
  refine ⟨(s.modLine l (fun x => x.settle s.evt.ticks)).modLine l (fun x => ({ x with
      counting := none, filtered := v, inactiveSince := if v then x.inactiveSince else s.evt.ticks } : EvtLine).settle s.evt.ticks),
    rfl, rfl, rfl, ?_, fun m hm => ?_, ?_⟩
  · rw [State.modLine_line, State.modLine_line]
    rfl
  · rw [State.modLine_line_ne _ _ hm, State.modLine_line_ne _ _ hm]
  · unfold State.filterDone
    simp [hc, hf, hs, hv, EvtLine.tokensAt]

end

/-! ### The meanings -/

section
variable {s : State} {l dt : Nat} (hup : s.up = true) (hl : l < 16)
include hup hl

theorem answers_evtInEdge (v : Bool) : Answers (.evtInEdge l dt v) s
    ((s.evtTick dt).modLine l (fun x => ({ x.settle (s.evt.ticks + dt) with pin := v } : EvtLine).inputAt (s.evt.ticks + dt))) :=
  answers_congr (answers_whenUp rfl hup) (if_pos hl)

theorem answers_evtInFilterAccept : Answers (.evtInFilterAccept l dt) s ((s.evtTick dt).filterDone l) :=
  answers_congr (answers_whenUp rfl hup) (if_pos hl)

theorem answers_evtInBudgetRefill (hs : (s.line l).stuck = false) (hf : (s.line l).filtered ≠ (s.line l).held)
    (hb : edgeCost ≤ (s.line l).tokensAt (s.evt.ticks + dt)) : Answers (.evtInBudgetRefill l dt) s ((s.evtTick dt).acceptEdge l) :=
  answers_congr (answers_whenUp rfl hup) ((if_pos hl).trans (if_pos (by
    have : (s.evtTick dt).line l = s.line l := rfl
    simp [this, hs, hf, show (s.evtTick dt).evt.ticks = s.evt.ticks + dt from rfl, hb])))

end

/-! ### The selected line's registers (R56) -/

section
variable (s : State)

/-- A value put into an entry changes the dictionary alone. -/
theorem State.odPut_eq (i sub : Nat) (v : List Byte) : ∃ o, s.odPut i sub v = { s with od := o } := by
  unfold State.odPut
  split
  · exact ⟨_, rfl⟩
  · exact ⟨_, rfl⟩

theorem State.odPutNat_eq (i sub v : Nat) : ∃ o, s.odPutNat i sub v = { s with od := o } := by
  unfold State.odPutNat
  split
  · exact s.odPut_eq i sub _
  · exact ⟨_, rfl⟩

/-- The line's entries in the dictionary follow its registers. -/
theorem State.lineEntries_eq (l : Nat) : ∃ o, s.lineEntries l = { s with od := o } := by
  unfold State.lineEntries
  dsimp only
  obtain ⟨o1, h1⟩ := s.odPutNat_eq (0x9100 + l) 1 (b2n (s.line l).polarity)
  rw [h1]
  obtain ⟨o2, h2⟩ := State.odPutNat_eq { s with od := o1 } (0x9100 + l) 2 (s.line l).filter
  rw [h2]
  obtain ⟨o3, h3⟩ := State.odPutNat_eq { s with od := o2 } (0x9100 + l) 3 (s.line l).maxMs
  rw [h3]
  exact State.odPutNat_eq _ _ _ _

@[simp] theorem State.lineEntries_line (l m : Nat) : (s.lineEntries l).line m = s.line m := by
  obtain ⟨o, h⟩ := s.lineEntries_eq l
  rw [h]
  rfl

@[simp] theorem State.lineEntries_evt (l : Nat) : (s.lineEntries l).evt = s.evt := by
  obtain ⟨o, h⟩ := s.lineEntries_eq l
  rw [h]

theorem State.raise_line (f : FaultInfo) (m : Nat) : (s.raise f).line m = s.line m := by rw [State.line, State.raise_evt]; rfl

theorem State.lineOverdue_iff (l : Nat) : s.lineOverdue l = true ↔ (s.line l).held = true ∧ (s.line l).stuck = false ∧ (s.line l).maxMs ≠ 0 ∧
    (s.line l).activeFrom + (s.line l).maxMs * 200000 < s.evt.ticks := by
  simp only [State.lineOverdue, Bool.and_eq_true, Bool.not_eq_true', bne_iff_ne, decide_eq_true_eq, and_assoc]
  rfl

/-- A new maximum-active timeout: an overdue line is marked stuck at once. -/
theorem State.setMaxAct_line (l ms : Nat) :
    ((s.setMaxAct l ms).line l).maxMs = (if ms ≤ 3600000 then ms else (s.line l).maxMs) ∧
    (ms ≤ 3600000 → ((s.setMaxAct l ms).line l).stuck = ((s.line l).stuck ||
      ((s.line l).held && ms != 0 && decide ((s.line l).activeFrom + ms * 200000 < s.evt.ticks)))) ∧
    ∀ m, m ≠ l → (s.setMaxAct l ms).line m = s.line m := by
  by_cases h : ms ≤ 3600000
  · have hset : s.setMaxAct l ms = if (s.modLine l (fun x => { x with maxMs := ms })).lineOverdue l
        then (s.modLine l (fun x => { x with maxMs := ms })).markStuck l else s.modLine l (fun x => { x with maxMs := ms }) := if_pos h
    have hover : (s.modLine l (fun x => { x with maxMs := ms })).lineOverdue l = true ↔ (s.line l).held = true ∧ (s.line l).stuck = false ∧ ms ≠ 0 ∧
        (s.line l).activeFrom + ms * 200000 < s.evt.ticks := by
      rw [State.lineOverdue_iff, State.modLine_line]
      rfl
    rw [if_pos h, hset]
    split
    next ho =>
      obtain ⟨hheld, hst, hne, hlt⟩ := hover.mp ho
      refine ⟨?_, fun _ => ?_, fun m hm => ?_⟩
      · rw [State.markStuck, State.raise_line, State.modLine_line, State.modLine_line]
      · rw [State.markStuck, State.raise_line, State.modLine_line, hheld, decide_eq_true hlt, bne_iff_ne.mpr hne]
        exact (Bool.or_true _).symm
      · rw [State.markStuck, State.raise_line, State.modLine_line_ne _ _ hm, State.modLine_line_ne _ _ hm]
    next ho =>
      refine ⟨by rw [State.modLine_line], fun _ => ?_, fun m hm => State.modLine_line_ne s _ hm⟩
      rw [State.modLine_line]
      cases hst : (s.line l).stuck with
      | true => simp
      | false =>
        have hnot : ¬ ((s.line l).held = true ∧ ms ≠ 0 ∧ (s.line l).activeFrom + ms * 200000 < s.evt.ticks) :=
          fun ⟨hheld, hne, hlt⟩ => ho (hover.mpr ⟨hheld, hst, hne, hlt⟩)
        simpa [hst, and_assoc] using hnot
  · have hset : s.setMaxAct l ms = s := if_neg h
    rw [hset, if_neg h]
    exact ⟨rfl, fun h' => absurd h' h, fun _ _ => rfl⟩

end

end Sys2Proof.Machine

namespace Sys2Proof.Proofs
open Sys2Proof.Machine

/-- Settles O12. -/
theorem evtOutCommands : Obligations.EvtOutCommands := by
  intro s l hup hl
  refine ⟨answers_congr (answers_whenUp rfl hup) ?_, answers_congr (answers_whenUp rfl hup) ?_, fun ms h1 h2 => answers_congr (answers_whenUp rfl hup) ?_,
    fun ms h => answers_congr (answers_whenUp rfl hup) ?_, fun h => answers_congr (answers_whenUp rfl hup) ?_,
    fun h => answers_congr (answers_whenUp rfl hup) ?_⟩
  · simp [State.evtOut, hl]
  · simp [State.evtOut, hl]
  · simp [State.evtOut, hl, h1, h2]
  · have : ¬ (1 ≤ ms ∧ ms ≤ 10000) := by omega
    simp [State.evtOut, this]
  · rw [if_pos (Option.isSome_iff_ne_none.mpr h)]
    simp [State.evtOut, hl]
  · rw [h]
    rfl

/-- Settles O11. -/
theorem evtInCommands : Obligations.EvtInCommands := by
  refine ⟨fun s l dt hup hl => ?_, fun s l dt hup hl => ?_, fun s dt v hup => ?_⟩
  · intro w t x y
    refine ⟨EvtLine.settle_of_nil, fun u v => EvtLine.settle_of_later, fun u v => EvtLine.settle_of_due, fun v h => ?_, fun v h => ?_, ?_, ?_, ?_⟩
    · refine answers_congr (answers_evtInEdge hup hl v) (State.modLine_congr _ _ ?_)
      exact EvtLine.inputAt_pin_of_eq (show (v != y.polarity) = y.given by rw [EvtLine.settle_polarity]; exact h)
    · refine answers_congr (answers_evtInEdge hup hl v) (State.modLine_congr _ _ ?_)
      refine (EvtLine.inputAt_pin_of_ne (show (v != y.polarity) ≠ y.given by rw [EvtLine.settle_polarity]; exact h)).trans ?_
      rw [show w.line l = x from rfl, EvtLine.settle_polarity, ← EvtLine.settle_polarity x t]
    · intro v f st hc hf hs hv hb z
      obtain ⟨u, hevt, hslots, hticks, hline, hother, hdone⟩ := State.filterDone_of_count w l hc hf hs hv
      replace hdone := hdone.trans (if_pos hb)
      have hacc : ((u.acceptEdge l)).line l = (x.counted t v).accepted t := by rw [State.acceptEdge_line, hline, hticks]; rfl
      refine reaches_of_answers (answers_congr (answers_evtInFilterAccept hup hl) hdone) ?_
      rw [show ({ u.acceptEdge l with pending := s.pending } : State).line l = _ from hacc]
      refine ⟨EvtLine.counted_filtered x t v, EvtLine.counted_filtered x t v, rfl, rfl, EvtLine.counted_drops x t v, State.acceptEdge_events u l, ?_,
        fun m hm => (State.acceptEdge_line_ne u l hm).trans (hother m hm), ?_⟩
      · exact congrArg (· - edgeCost) (EvtLine.counted_tokensAt x t v t)
      · rw [State.evtOnly_acceptEdge u l, hevt]
        rfl
    · intro v f st hc hf hs hv hb
      obtain ⟨u, hevt, hslots, hticks, hline, hother, hdone⟩ := State.filterDone_of_count w l hc hf hs hv
      replace hdone := hdone.trans (if_neg (Nat.not_le.mpr hb))
      obtain ⟨hheld, hfil, hdrops, hstamp, hq⟩ := u.dropEdge_line l
      rw [hline] at hheld hfil hdrops hstamp
      refine reaches_of_answers (answers_congr (answers_evtInFilterAccept hup hl) hdone) ⟨?_, ?_, ?_, ?_, ?_⟩
      · exact hheld.trans (EvtLine.counted_held x t v)
      · exact hfil.trans (EvtLine.counted_filtered x t v)
      · exact hdrops.trans (congrArg (fun d => (d + 1) % 2 ^ 64) (EvtLine.counted_drops x t v))
      · exact hstamp.trans (EvtLine.counted_stamp x t v)
      · exact hq.trans hslots
    · intro hs hf hb
      refine reaches_of_answers (answers_evtInBudgetRefill hup hl hs hf hb) ?_
      have hacc : (w.acceptEdge l).line l = x.accepted t := State.acceptEdge_line w l
      rw [show ({ w.acceptEdge l with pending := s.pending } : State).line l = _ from hacc]
      exact ⟨rfl, rfl, State.acceptEdge_events w l⟩
  · intro w x
    refine ⟨fun hh hs hm ht => ?_, fun hs hf ht => ?_, fun hs hf ht => ?_⟩
    · refine answers_congr (answers_whenUp rfl hup) ((if_pos hl).trans (if_pos ?_))
      exact (State.lineOverdue_iff w l).mpr ⟨hh, hs, hm, ht⟩
    · refine answers_congr (answers_whenUp rfl hup) ((if_pos hl).trans (if_pos ?_))
      have : decide (x.inactiveSince + periHz ≤ s.evt.ticks + dt) = true := decide_eq_true ht
      exact Bool.and_eq_true_iff.mpr ⟨Bool.and_eq_true_iff.mpr ⟨hs, by rw [show (s.evtTick dt).line l = x from rfl, hf]; rfl⟩, this⟩
    · refine answers_congr (answers_whenUp rfl hup) ((if_pos hl).trans (if_neg ?_))
      have : decide (x.inactiveSince + periHz ≤ s.evt.ticks + dt) = false := decide_eq_false (Nat.not_le.mpr ht)
      rw [Bool.not_eq_true]
      exact (congrArg (_ && ·) this).trans (Bool.and_false _)
  · intro l
    refine ⟨reaches_of_answers (answers_whenUp rfl hup) ?_, reaches_of_answers (answers_whenUp rfl hup) ?_, reaches_of_answers (answers_whenUp rfl hup) ?_⟩
    · refine ⟨?_, fun m hm => ?_, ?_⟩
      · refine (State.lineEntries_line _ l l).trans ?_
        refine (State.modLine_line _ l _).trans ?_
        exact congrArg (fun x : EvtLine => ({ x with wake := bit v 1 } : EvtLine)) (State.modLine_line (s.evtTick dt) l _)
      · refine (State.lineEntries_line _ l m).trans ?_
        exact (State.modLine_line_ne _ _ hm).trans (State.modLine_line_ne (s.evtTick dt) _ hm)
      · exact congrArg Evt.ticks (State.lineEntries_evt _ l)
    · refine ⟨(State.lineEntries_line _ l l).trans ?_, fun m hm => (State.lineEntries_line _ l m).trans ?_⟩
      · unfold State.setFilter
        split
        · exact State.modLine_line s l _
        · rfl
      · unfold State.setFilter
        split
        · exact State.modLine_line_ne s _ hm
        · rfl
    · obtain ⟨hms, hstuck, hother⟩ := State.setMaxAct_line (s.evtTick dt) l (bits v 31 0)
      refine ⟨?_, fun h => ?_, fun m hm => (State.lineEntries_line _ l m).trans (hother m hm)⟩
      · exact (congrArg EvtLine.maxMs (State.lineEntries_line _ l l)).trans hms
      · exact (congrArg EvtLine.stuck (State.lineEntries_line _ l l)).trans ((hstuck h).trans (by rw [if_pos h]; rfl))

end Sys2Proof.Proofs
end

