-- ==== Sys2Proof/Proofs/ResetRegisters.lean ====
section
namespace Sys2Proof.Proofs
open Sys2Proof.Machine

/-- Settles O4. -/
theorem resetState : Obligations.ResetState := by
  refine ⟨by decide, rfl, fun a => rfl, ?_⟩
  decide

end Sys2Proof.Proofs
end

