-- ==== Sys2Proof/Proofs/RegisterReads.lean ====
section
/-! PROOFS. Register reads and the latch of a route (R5, R7, R8). -/
namespace Sys2Proof.Machine
open Sys2Proof

section
variable {s : State} {r : Route} {off v b h : Nat}

/-! ### One word -/

theorem State.readWord_narrow (hv : s.reg off = some (false, v)) : s.readWord r off = (v, s) := by
  unfold State.readWord
  rw [hv]

theorem State.readWord_low (hv : s.reg off = some (true, v)) :
    s.readWord r off = (v % 2 ^ 32, { s with latches := tset none s.latches (latchKey r off) (some (v / 2 ^ 32)) }) := by
  unfold State.readWord
  rw [hv]

theorem State.readWord_latched (hn : s.reg off = none) (hw : s.wideAt off = some (b, v)) (hl : tget none s.latches (latchKey r b) = some h) :
    s.readWord r off = (h, { s with latches := tset none s.latches (latchKey r b) none }) := by
  unfold State.readWord
  simp only [hn, hw, hl]

theorem State.readWord_high (hn : s.reg off = none) (hw : s.wideAt off = some (b, v)) (hl : tget none s.latches (latchKey r b) = none) :
    s.readWord r off = (v / 2 ^ 32, s) := by
  unfold State.readWord
  simp only [hn, hw, hl]

/-- The high word of a 64-bit register lies four bytes above it. -/
theorem State.wideAt_add_four (hv : s.reg off = some (true, v)) : s.wideAt (off + 4) = some (off, v) := by
  unfold State.wideAt
  rw [if_neg (by omega), Nat.add_sub_cancel, hv]

theorem State.readAccess_word (hr : s.reaches r off = true) (h4 : off % 4 = 0) :
    s.readAccess r off 4 = (s.readWord r off).2.emit (.readData r (s.readWord r off).1) := by
  simp [State.readAccess, hr, h4, State.readWords]

theorem State.readAccess_unaligned {n : Nat} (hr : s.reaches r off = true) (h : off % 4 ≠ 0 ∨ n % 4 ≠ 0) :
    s.readAccess r off n = s.emit (.readData r 0) := by
  have h' : off % 4 ≠ 0 ∨ n % 4 ≠ 0 ∨ n = 0 := h.imp_right .inl
  simp only [State.readAccess, hr, Bool.not_true, Bool.false_eq_true, if_false, if_pos h']

/-- What a register shows does not depend on the latches, on what goes out, or on the queue. -/
theorem State.reg_latched (s : State) (l : Tbl (Option Nat)) (o : List Out) (p : List Instr) (off : Nat) :
    ({ s with latches := l, out := o, pending := p } : State).reg off = s.reg off := rfl

/-! ### The rows -/

theorem answers_lowWordRead (hup : s.up = true) (n : Nat) : Answers (.lowWordRead r off n) s (s.readAccess r off n) := answers_whenUp rfl hup

theorem answers_highWordRead (hup : s.up = true) (n : Nat) : Answers (.highWordRead r off n) s (s.readAccess r off n) := answers_whenUp rfl hup

theorem answers_lowWordRead_of_readWord {t : State} (hup : s.up = true) (hr : s.reaches r off = true) (h4 : off % 4 = 0) (hw : s.readWord r off = (v, t)) :
    Answers (.lowWordRead r off 4) s (t.emit (.readData r v)) :=
  answers_congr (answers_lowWordRead hup 4) (by rw [State.readAccess_word hr h4, hw])

theorem answers_highWordRead_of_readWord {t : State} (hup : s.up = true) (hr : s.reaches r off = true) (h4 : off % 4 = 0) (hw : s.readWord r off = (v, t)) :
    Answers (.highWordRead r off 4) s (t.emit (.readData r v)) :=
  answers_congr (answers_highWordRead hup 4) (by rw [State.readAccess_word hr h4, hw])

end

end Sys2Proof.Machine

namespace Sys2Proof.Proofs
open Sys2Proof.Machine

/-- Settles O5: the latch that a low word loads is what the next high word of the route returns, and it is then empty. -/
theorem registerReads : Obligations.RegisterReads := by
  refine ⟨fun s r off hup hr => ⟨fun v h4 hv => ?_, fun v h4 hv => ?_, fun b v h h4 hn hw hl => ?_, fun b v h4 hn hw hl => ?_, fun n h => ⟨?_, ?_⟩⟩,
    fun s t r off v v' hup htup h4 hr htr hv hv' hn => ?_⟩
  · exact answers_lowWordRead_of_readWord hup hr h4 (State.readWord_narrow hv)
  · exact answers_lowWordRead_of_readWord hup hr h4 (State.readWord_low hv)
  · exact answers_highWordRead_of_readWord hup hr h4 (State.readWord_latched hn hw hl)
  · exact answers_highWordRead_of_readWord hup hr h4 (State.readWord_high hn hw hl)
  · exact answers_congr (answers_lowWordRead hup n) (State.readAccess_unaligned hr h)
  · exact answers_congr (answers_highWordRead hup n) (State.readAccess_unaligned hr h)
  · refine reaches_of_answers (answers_lowWordRead_of_readWord hup hr h4 (State.readWord_low hv)) ⟨rfl, fun hlatch => ?_⟩
    have hget : tget none t.latches (latchKey r off) = some (v / 2 ^ 32) := by
      rw [hlatch]
      exact tget_tset_same none s.latches (latchKey r off) (some (v / 2 ^ 32))
    have h4' : (off + 4) % 4 = 0 := by omega
    refine reaches_of_answers (answers_highWordRead_of_readWord htup htr h4' (State.readWord_latched hn (State.wideAt_add_four hv') hget)) ⟨rfl, ?_⟩
    refine reaches_of_answers (answers_highWordRead_of_readWord htup htr h4' (State.readWord_high ?_ (State.wideAt_add_four ?_) ?_)) rfl
    · exact (State.reg_latched t _ _ _ _).trans hn
    · exact (State.reg_latched t _ _ _ _).trans hv'
    · exact tget_tset_same none t.latches (latchKey r off) none

end Sys2Proof.Proofs
end

