-- ==== Sys2Proof/Proofs/RegisterWrites.lean ====
section
/-! PROOFS. Register writes, the held low word, and the access codes (R4, R5, R8, R595). -/
namespace Sys2Proof.Machine
open Sys2Proof

/-! ### Single bits -/

theorem bit_eq_testBit (v i : Nat) : bit v i = v.testBit i := by
  rw [bit, Nat.shiftRight_eq_div_pow, Nat.testBit_eq_decide_div_mod_eq]
  rfl

/-- Setting a bit changes that bit alone. -/
theorem bit_setBit (v i j : Nat) (b : Bool) : bit (setBit v i b) j = if j = i then b else bit v j := by
  obtain ⟨q, c, r, hr, rfl⟩ : ∃ q, ∃ c : Bool, ∃ r, r < 2 ^ i ∧ v = 2 ^ i * (2 * q + c.toNat) + r := by
    refine ⟨v / 2 ^ i / 2, v.testBit i, v % 2 ^ i, Nat.mod_lt _ (Nat.two_pow_pos i), ?_⟩
    have h1 := Nat.div_add_mod (v / 2 ^ i) 2
    have h2 := Nat.div_add_mod v (2 ^ i)
    have hc : (v.testBit i).toNat = v / 2 ^ i % 2 := by
      rw [Nat.testBit_eq_decide_div_mod_eq]
      rcases Nat.mod_two_eq_zero_or_one (v / 2 ^ i) with h | h <;> simp [h]
    rw [hc, h1, h2]
  have hbit : ∀ c : Bool, bit (2 ^ i * (2 * q + c.toNat) + r) i = c := by
    intro c
    rw [bit_eq_testBit, Nat.testBit_two_pow_mul_add _ hr]
    cases c <;> simp [Nat.testBit_zero, Nat.add_mod]
  have hset : setBit (2 ^ i * (2 * q + c.toNat) + r) i b = 2 ^ i * (2 * q + b.toNat) + r := by
    rw [setBit, hbit]
    have hc : ∀ c : Bool, b2n c = c.toNat := by decide
    rw [hc, hc, Nat.mul_add, Nat.mul_add, Nat.mul_comm c.toNat, Nat.mul_comm b.toNat]
    omega
  rw [hset]
  by_cases hj : j = i
  · rw [if_pos hj, hj, hbit]
  · rw [if_neg hj, bit_eq_testBit, bit_eq_testBit, Nat.testBit_two_pow_mul_add _ hr, Nat.testBit_two_pow_mul_add _ hr]
    split
    · rfl
    · obtain ⟨k, hk⟩ : ∃ k, j - i = k + 1 := ⟨j - i - 1, by omega⟩
      rw [hk, Nat.testBit_succ, Nat.testBit_succ]
      congr 1
      cases c <;> cases b <;> simp <;> omega

/-- W1C: the bits written 1 are cleared, and no other. -/
theorem bit_w1c (old v : Nat) {j : Nat} (hj : j < 32) : bit (w1c old v) j = (bit old j && !bit v j) := by
  have hfold : ∀ (l : List Nat) (m : Nat), bit (l.foldl (fun m i => if bit v i then setBit m i false else m) m) j =
      (bit m j && !(decide (j ∈ l) && bit v j)) := by
    intro l
    induction l with
    | nil => simp
    | cons i l ih =>
      intro m
      rw [List.foldl_cons, ih]
      by_cases hi : bit v i = true
      · rw [if_pos hi, bit_setBit]
        by_cases hji : j = i
        · subst hji
          simp [hi]
        · simp [hji]
      · rw [if_neg hi]
        by_cases hji : j = i
        · subst hji
          simp [hi]
        · simp [hji]
  have hmem : j ∈ upto 0 32 := mem_upto_iff.mpr ⟨by omega, by omega⟩
  rw [w1c, hfold, decide_eq_true hmem, Bool.true_and]

/-! ### One word -/

section
variable {s : State} {r : Route} {off x v b low : Nat}

theorem State.writeAccess_word (hr : s.reaches r off = true) (h4 : off % 4 = 0) (hx : x < 2 ^ 32) :
    s.writeAccess r off 4 x = s.writeWord r off x := by
  simp only [State.writeAccess, hr, h4, Bool.not_true, Bool.false_eq_true, if_false, ne_eq, not_true_eq_false, false_or]
  exact congrArg (s.writeWord r off) (Nat.mod_eq_of_lt hx)

theorem State.writeAccess_unaligned {n : Nat} (hr : s.reaches r off = true) (h : off % 4 ≠ 0 ∨ n % 4 ≠ 0) : s.writeAccess r off n x = s := by
  simp only [State.writeAccess, hr, Bool.not_true, Bool.false_eq_true, if_false, if_pos h]

theorem State.writeWord_narrow (hv : s.reg off = some (false, v)) : s.writeWord r off x = s.put32 r off x := by
  unfold State.writeWord
  rw [hv]

theorem State.writeWord_low (hv : s.reg off = some (true, v)) : s.writeWord r off x = s.holdLow r off x := by
  unfold State.writeWord
  rw [hv]

theorem State.writeWord_high (hn : s.reg off = none) (hw : s.wideAt off = some (b, v)) (hl : tget none s.heldLow (latchKey r b) = some low) (hx : x < 2 ^ 32) :
    s.writeWord r off x = State.put64 { s with heldLow := tset none s.heldLow (latchKey r b) none } b (low + x * 2 ^ 32) := by
  unfold State.writeWord
  simp only [hn, hw, State.takeHeld, hl, Nat.mod_eq_of_lt hx]

theorem State.writeWord_high_alone (hn : s.reg off = none) (hw : s.wideAt off = some (b, v)) (hl : tget none s.heldLow (latchKey r b) = none) :
    s.writeWord r off x = s := by
  unfold State.writeWord
  simp only [hn, hw, State.takeHeld, hl]

theorem answers_registerWrite_word (hup : s.up = true) (hr : s.reaches r off = true) (h4 : off % 4 = 0) (hx : x < 2 ^ 32) :
    Answers (.registerWrite r off 4 x) s (s.writeWord r off x) :=
  answers_congr (answers_whenUp rfl hup) (State.writeAccess_word hr h4 hx)

theorem answers_registerWrite_narrow (hup : s.up = true) (hr : s.reaches r off = true) (h4 : off % 4 = 0) (hx : x < 2 ^ 32)
    (hv : ∃ v, s.reg off = some (false, v)) : Answers (.registerWrite r off 4 x) s (s.put32 r off x) :=
  answers_congr (answers_registerWrite_word hup hr h4 hx) (State.writeWord_narrow hv.choose_spec)

end

/-! ### Read-only registers -/

/-- A register of 32 bits that no write changes. -/
def ReadOnly (off : Nat) : Prop := off % 4 = 0 ∧ ∀ s : State, (∃ v, s.reg off = some (false, v)) ∧ ∀ r x, s.put32 r off x = s

theorem answers_registerWrite_readOnly {s : State} {r : Route} {off x : Nat} (hup : s.up = true) (hr : s.reaches r off = true) (hx : x < 2 ^ 32)
    (h : ReadOnly off) : Answers (.registerWrite r off 4 x) s s := by
  obtain ⟨h4, hro⟩ := h
  obtain ⟨hv, hput⟩ := hro s
  exact answers_congr (answers_registerWrite_narrow hup hr h4 hx hv) (hput r x)

/-- Read-only registers of the blocks: their offsets have no case in the block's writes. -/
theorem readOnly_registers : ∀ off ∈ [regOff 0 0, regOff 1 0x110, regOff 2 0, regOff 3 0x100, regOff 4 0, regOff 5 0x10, regOff 6 0x10,
    regOff 7 0x100, regOff 8 4, regOff 9 8, regOff 9 0xC, regOff 10 0, regOff 11 0, regOff 12 0, regOff 12 4,
    regOff 13 0, regOff 14 0, regOff 15 0x1C, regOff 16 4, regOff 17 0x204, regOff 18 0x18, regOff 19 0x18,
    regOff 20 0x10, regOff 21 4, regOff 22 0, regOff 22 4, regOff 23 4, regOff 24 4, regOff 25 0, regOff 25 0x10], ReadOnly off := by
  simp only [List.forall_mem_cons]
  have hkpr : ReadOnly (regOff 11 0) := ⟨rfl, fun s => ⟨⟨_, rfl⟩, fun r x => by cases r <;> rfl⟩⟩
  have hgrt : ReadOnly (regOff 7 0x100) := ⟨rfl, fun s => ⟨by
    rw [show s.reg (regOff 7 0x100) = s.grtReg 0x100 from rfl, State.grtReg, if_pos ⟨by decide, by decide⟩]
    split <;> exact ⟨_, rfl⟩, fun r x => rfl⟩⟩
  have hsyn : ReadOnly (regOff 8 4) := ⟨rfl, fun s => ⟨by
    rw [show s.reg (regOff 8 4) = s.synReg 4 from rfl, State.synReg, if_pos rfl]
    split <;> exact ⟨_, rfl⟩, fun r x => rfl⟩⟩
  refine ⟨?_, ?_, ?_, ?_, ?_, ?_, ?_, hgrt, hsyn, ?_, ?_, ?_, hkpr, ?_, ?_, ?_, ?_, ?_, ?_, ?_, ?_, ?_, ?_, ?_, ?_, ?_, ?_, ?_, ?_, ?_,
    fun _ h => absurd h List.not_mem_nil⟩
  all_goals exact ⟨rfl, fun s => ⟨⟨_, rfl⟩, fun r x => rfl⟩⟩

/-! ### Entries that registers show -/

/-- A number put into a dictionary entry is what the entry then reads. -/
theorem State.odNat_odPutNat {s : State} {index sub d v : Nat} {e : OdEnt} (he : s.odEnt index sub = some e)
    (hd : e.dflt = some (leBytes (tySize e.ty e.n) d)) (hdlt : d < 256 ^ tySize e.ty e.n) (hv : v < 256 ^ tySize e.ty e.n) :
    (s.odPutNat index sub v).odNat index sub d = v := by
  have hle : ∀ w, w < 256 ^ tySize e.ty e.n → leNat (leBytes (tySize e.ty e.n) w) = w := fun w hw => by
    rw [leNat_leBytes, Nat.mod_eq_of_lt hw]
  unfold State.odPutNat
  rw [he]
  dsimp only
  unfold State.odPut
  split
  next h =>
    obtain ⟨hval, -⟩ := h
    unfold State.odVal at hval
    unfold State.odNat
    split at hval
    next w hw =>
      rw [hval]
      exact hle v hv
    next hw =>
      simp only [he, hd, Option.getD_some] at hval
      rw [← hle v hv, ← hval]
      exact (hle d hdlt).symm
  next h =>
    unfold State.odNat State.odRaw
    dsimp only
    rw [tget_tset_same]
    split
    next w hw =>
      split at hw
      · cases hw
      · rw [← Option.some.inj hw, hle v hv]
    next hw =>
      split at hw
      next hb =>
        rw [he, Option.bind_some, hd] at hb
        rw [← hle v hv, ← Option.some.inj hb.1]
        exact (hle d hdlt).symm
      · cases hw

/-- The energy budget is entry 0x4000.01 (R479). -/
theorem State.budgetMw_odPutNat (s : State) {v : Nat} (hv : v < 2 ^ 32) : (s.odPutNat 0x4000 1 v).budgetMw = v :=
  State.odNat_odPutNat (e := num tyU32 150000 20000 150000 0) rfl rfl (by decide) hv

end Sys2Proof.Machine

namespace Sys2Proof.Proofs
open Sys2Proof.Machine

/-- Settles O6: one word reaches the register's access code, or the held low word, or nothing. -/
theorem registerWritesAndCodes : Obligations.RegisterWritesAndCodes := by
  refine ⟨fun s r off x hup hr hx => ⟨fun v h4 hv => ?_, fun v h4 hv => ?_, fun b v low h4 hn hw hl => ?_, fun b v h4 hn hw hl => ?_, fun n h => ?_⟩,
    fun s r x hup hx hr => ⟨fun off hoff => ?_, ?_, fun h => ?_, fun h => ?_, fun h => ?_, fun h => ?_, fun h => ?_⟩⟩
  · exact answers_registerWrite_narrow hup hr h4 hx ⟨v, hv⟩
  · exact answers_congr (answers_registerWrite_word hup hr h4 hx) (State.writeWord_low hv)
  · exact answers_congr (answers_registerWrite_word hup hr h4 hx) (State.writeWord_high hn hw hl hx)
  · exact answers_congr (answers_registerWrite_word hup hr h4 hx) (State.writeWord_high_alone hn hw hl)
  · exact answers_congr (answers_whenUp rfl hup) (State.writeAccess_unaligned hr h)
  · exact answers_registerWrite_readOnly hup (hr off) hx (readOnly_registers off hoff)
  · refine reaches_of_answers (answers_registerWrite_narrow hup (hr _) rfl hx ⟨_, rfl⟩) ⟨fun i hi => bit_w1c _ _ hi, rfl⟩
  · exact answers_congr (answers_registerWrite_narrow hup (hr _) rfl hx ⟨_, rfl⟩) (if_neg h)
  · have hput : s.put32 r (regOff 9 0) x = s.odPutNat 0x4000 1 (bits x 17 0) := if_pos h
    refine reaches_of_answers (answers_congr (answers_registerWrite_narrow hup (hr _) rfl hx ⟨_, rfl⟩) hput) ?_
    exact State.budgetMw_odPutNat s (by omega)
  · exact answers_congr (answers_registerWrite_narrow hup (hr _) rfl hx ⟨_, rfl⟩) (if_pos h)
  · exact answers_congr (answers_registerWrite_narrow hup (hr _) rfl hx ⟨_, rfl⟩) (if_neg h)
  · have hput : s.put32 r (regOff 19 4) x = ({ s with mem := { s.mem with burn := { s.mem.burn with hours := bits x 7 0 } } } : State).odPutNat 0x5000 1 (bits x 7 0) :=
      if_pos h
    refine reaches_of_answers (answers_congr (answers_registerWrite_narrow hup (hr _) rfl hx ⟨_, rfl⟩) hput) ?_
    obtain ⟨o, ho⟩ := State.odPutNat_eq { s with mem := { s.mem with burn := { s.mem.burn with hours := bits x 7 0 } } } 0x5000 1 (bits x 7 0)
    rw [ho]

end Sys2Proof.Proofs
end

