-- ==== Sys2Proof/Proofs/PushRing.lean ====
section
/-! PROOFS. The host push path (R41 to R43, R521). -/
namespace Sys2Proof.Machine
open Sys2Proof

section
variable {s u : State} {v : Nat} {b : List Byte}

theorem State.pushFetch_of_disabled (h : s.push.enable = false) : s.pushFetch = s := if_neg (by simp [h])

/-- A descriptor is available and none is in progress: the one at the head is read. -/
theorem State.pushFetch_of_available (he : s.push.enable = true) (hf : s.push.fetching = false) (hc : s.push.current = none) (hu : s.hostUp = true)
    (ht : s.push.tail % 2 ^ s.push.sizeLog2 ≠ s.push.head) :
    s.pushFetch = ({ s with push := { s.push with fetching := true } } : State).pushIssue s.push.descAddr 32 true :=
  if_pos ⟨he, by rw [hf]; rfl, by rw [hc]; rfl, ht.symm, hu⟩

/-- A control write: enable, the ring size within its range, and, where reads never time out, the reads in flight given up. -/
theorem State.pushCtrl_eq (s : State) (v : Nat) : s.pushCtrl v =
    (if bit v 0 = false ∧ s.pci.cplDisable = true then ({ s with
        push := { s.push with
          enable := bit v 0, sizeLog2 := if 4 ≤ bits v 8 4 ∧ bits v 8 4 ≤ 16 then bits v 8 4 else s.push.sizeLog2
          fetching := false, current := none }
        pci := { s.pci with
          outstanding := s.pci.outstanding.filter (fun r : PciRead => !r.push)
          abandoned := s.pci.abandoned ++ (s.pci.outstanding.filter PciRead.push).map PciRead.tag } } : State)
    else { s with push := { s.push with
      enable := bit v 0, sizeLog2 := if 4 ≤ bits v 8 4 ∧ bits v 8 4 ≤ 16 then bits v 8 4 else s.push.sizeLog2 } }).pushFetch := by
  refine congrArg State.pushFetch (if_congr ?_ rfl rfl)
  rw [Bool.not_eq_true']

theorem State.pushDesc_of_ok (hr : s.pushRetire true = some u) (hok : u.pushDescOk b = true) :
    s.pushDesc b = ({ u with push := { u.push with fetching := false, current := some b } } : State).pushIssue (fieldAt b 16 8) (fieldAt b 0 4) false := by
  unfold State.pushDesc
  simp only [hr, if_pos hok]

theorem State.pushDesc_of_bad (hr : s.pushRetire true = some u) (hbad : u.pushDescOk b = false) :
    s.pushDesc b = ((u.count (fieldAt b 4 1) 0x14 1).raise { code := fltIngPush, detail := u.push.head, addr := u.push.descAddr }).pushAdvance := by
  unfold State.pushDesc
  simp only [hr, hbad, Bool.false_eq_true, if_false]

/-- A read that is answered leaves the ring, and whether units enter, as they were. -/
theorem State.pushRetire_frame {d : Bool} (hr : s.pushRetire d = some u) : u.push = s.push ∧ u.ingests = s.ingests := by
  unfold State.pushRetire at hr
  split at hr
  · cases hr
    exact ⟨rfl, rfl⟩
  · cases hr

/-- The last byte of the unit of the descriptor in progress: the unit reaches its slot, and the head moves on. -/
theorem State.pushRead_of_current {dt : Nat} {d bs : List Byte} (hc : s.push.current = some d) (hi : u.ingests = true)
    (hr : (s.modPort 3 (fun p => p.arrive dt)).pushRetire false = some u) :
    s.pushRead dt bs = (u.pushUnit (fieldAt d 4 1) d bs).pushAdvance := by
  unfold State.pushRead
  simp only [show (s.modPort 3 (fun p => p.arrive dt)).push.current = some d from hc, hr, if_pos hi]

theorem State.pushDescOk_iff (hb : b.length = 32) : s.pushDescOk b = true ↔ 1 ≤ fieldAt b 0 4 ∧ fieldAt b 0 4 ≤ 8388608 ∧
    (s.slot (fieldAt b 4 1)).run ≠ .unconfigured ∧ (s.slot (fieldAt b 4 1)).cfg.stream.source = 2 ∧ fieldAt b 5 1 ≤ 1 ∧ fieldAt b 6 2 = 0 ∧
    fieldAt b 28 4 = 0 := by
  simp [State.pushDescOk, hb, and_assoc]

end

end Sys2Proof.Machine

namespace Sys2Proof.Proofs
open Sys2Proof.Machine

/-- Settles O10. -/
theorem pushRing : Obligations.PushRing := by
  refine ⟨fun s hup => ⟨fun v he => ?_, fun v he hf hc hu ht => ?_, fun v hb hd => ?_, fun v hb hd => ?_, fun v hb => ?_, fun b u hr hok => ?_,
    fun b u hr hbad => ?_, fun dt d bs u hc hi hr => ?_⟩, fun s b hb => State.pushDescOk_iff hb⟩
  · exact answers_congr (answers_whenUp rfl hup) (State.pushFetch_of_disabled he)
  · exact answers_congr (answers_whenUp rfl hup) (State.pushFetch_of_available he hf hc hu ht)
  · refine answers_congr (answers_whenUp rfl hup) ((s.pushCtrl_eq v).trans ?_)
    rw [if_neg (by simp [hd]), hb]
    exact State.pushFetch_of_disabled rfl
  · refine answers_congr (answers_whenUp rfl hup) ((s.pushCtrl_eq v).trans ?_)
    rw [if_pos ⟨hb, hd⟩, hb]
    exact State.pushFetch_of_disabled rfl
  · refine answers_congr (answers_whenUp rfl hup) ((s.pushCtrl_eq v).trans ?_)
    rw [if_neg (by simp [hb]), hb]
  · exact answers_congr (answers_whenUp rfl hup) (State.pushDesc_of_ok hr hok)
  · obtain ⟨hp, -⟩ := State.pushRetire_frame hr
    refine answers_congr (answers_whenUp rfl hup) ((State.pushDesc_of_bad hr hbad).trans ?_)
    rw [hp]
  · obtain ⟨-, hu⟩ := State.pushRetire_frame hr
    refine answers_congr (answers_whenUp rfl hup) (State.pushRead_of_current hc (hu.trans hi) hr)

end Sys2Proof.Proofs
end

