-- ==== Sys2Proof/Proofs/Datagrams.lean ====
section
/-! PROOFS. Datagrams and the policer (R28, R38, R39, R45). -/
namespace Sys2Proof.Machine
open Sys2Proof

theorem tget_tmod {α : Type} [DecidableEq α] (d : α) (t : Tbl α) (j k : Nat) (f : α → α) :
    tget d (tmod d t j f) k = if k = j then f (tget d t j) else tget d t k := by
  split
  next h => rw [h, tget_tmod_same]
  next h => rw [tget_tmod_ne _ _ _ h]

section
variable (s : State) (n : Nat)

@[simp] theorem State.modIng_slot (f : SlotIngest → SlotIngest) : (s.modIng n f).slot n = { s.slot n with ing := f (s.slot n).ing } :=
  s.modSlot_slot n _

@[simp] theorem State.count_slot (sub k : Nat) : (s.count n sub k).slot n =
    { s.slot n with counters := tmod 0 (s.slot n).counters sub (fun c => (c + k) % 2 ^ 64) } := s.modSlot_slot n _

/-- The arrival counter of a slot's source is the port's: what changes the slot's ingest leaves it. -/
theorem State.modIng_srcTicks (f : SlotIngest → SlotIngest) : (s.modIng n f).srcTicks n = s.srcTicks n := by
  rw [State.srcTicks, State.modIng_slot]
  rfl

theorem Slot.tokensAt_le (x : Slot) (t : Nat) : x.tokensAt t ≤ x.cfg.stream.burst * hzOf x.cfg.stream.source := Nat.min_le_left _ _

/-! ### The policer -/

theorem State.police_fst (hf : s.follower = false) (len : Nat) :
    (s.police n len).1 = decide (len * hzOf (s.slot n).cfg.stream.source ≤ (s.slot n).tokensAt (s.srcTicks n)) := by
  exact (congrArg (decide _ || ·) hf).trans (Bool.or_false _)

/-- The counters of a datagram that the policer sees: received, and, where it is dropped, policed. -/
def policedCounters (t : Tbl Nat) (ok : Bool) (len : Nat) : Tbl Nat :=
  let u := tmod 0 (tmod 0 t 1 (fun c => (c + 1) % 2 ^ 64)) 2 (fun c => (c + len) % 2 ^ 64)
  if ok then u else tmod 0 (tmod 0 u 3 (fun c => (c + 1) % 2 ^ 64)) 4 (fun c => (c + len) % 2 ^ 64)

theorem State.police_slot (len : Nat) {ok : Bool} (h : (s.police n len).1 = ok) :
    ((s.police n len).2.slot n).ing.bucket =
      (if ok then (s.slot n).tokensAt (s.srcTicks n) - len * hzOf (s.slot n).cfg.stream.source else (s.slot n).tokensAt (s.srcTicks n)) ∧
    ((s.police n len).2.slot n).counters = policedCounters (s.slot n).counters ok len := by
  have hok : (decide (len * hzOf (s.slot n).cfg.stream.source ≤ (s.slot n).tokensAt (s.srcTicks n)) || s.follower) = ok := h
  unfold State.police
  dsimp only
  rw [hok]
  cases ok <;> simp [State.counts, policedCounters]

theorem tget_policedCounters (t : Tbl Nat) (ok : Bool) (len k : Nat) : tget 0 (policedCounters t ok len) k =
    if k = 1 then (tget 0 t 1 + 1) % 2 ^ 64 else if k = 2 then (tget 0 t 2 + len) % 2 ^ 64
    else if k = 3 ∧ ok = false then (tget 0 t 3 + 1) % 2 ^ 64 else if k = 4 ∧ ok = false then (tget 0 t 4 + len) % 2 ^ 64 else tget 0 t k := by
  unfold policedCounters
  by_cases h1 : k = 1
  · subst h1
    cases ok <;> simp [tget_tmod]
  by_cases h2 : k = 2
  · subst h2
    cases ok <;> simp [tget_tmod]
  by_cases h3 : k = 3
  · subst h3
    cases ok <;> simp [tget_tmod]
  · cases ok <;> simp [tget_tmod, h1, h2, h3]

/-- The windows that have ended are judged. -/
theorem State.windows_eq : let x := s.slot n
    let idx := s.srcTicks n / hzOf x.cfg.stream.source
    let run := if x.ing.winOffered < x.ing.winDropped * 100 then x.ing.overruns + 1 else 0
    let v := s.modIng n (fun i => { i with winIdx := idx, winOffered := 0, winDropped := 0, overruns := if i.winIdx + 1 < idx then 0 else run })
    s.windows n = if idx ≤ x.ing.winIdx then s
      else if x.cfg.stream.overrunLimit ≤ run ∧ (x.run = .running ∨ x.run = .suspended) then v.stopSlot n fltStreamStop 0 0 else v := by
  intro x idx run v
  unfold State.windows
  by_cases h : x.ing.winOffered < x.ing.winDropped * 100
  · simp [x, idx, run, v, h]
  · simp [x, idx, run, v, h]

/-! ### A frame at its port -/

end

section
variable {s : State} {n dt : Nat} {p : Packet}

/-- A frame is stamped at its port, and judged. -/
theorem State.packet_of_ingests (hp : p.port < 2) (hi : s.ingests = true) : let u := s.modPort p.port (fun q => q.arrive dt)
    let outside := u.modPort p.port (fun q => { q with unsupported := (q.unsupported + 1) % 2 ^ 64 })
    (FrameHead.kind p.head (u.vlansOf p.port) = .taken → s.packet dt p = u) ∧
    (FrameHead.kind p.head (u.vlansOf p.port) = .fragment → s.packet dt p = u.modPort p.port (fun q => { q with fragments := (q.fragments + 1) % 2 ^ 64 })) ∧
    (FrameHead.kind p.head (u.vlansOf p.port) = .badChecksum → s.packet dt p = u.modPort p.port (fun q => { q with checksum := (q.checksum + 1) % 2 ^ 64 })) ∧
    (FrameHead.kind p.head (u.vlansOf p.port) = .unsupported → s.packet dt p = outside) ∧
    (FrameHead.kind p.head (u.vlansOf p.port) = .good → u.slotFor p = none →
      s.packet dt p = u.modPort p.port (fun q => { q with noSlot := (q.noSlot + 1) % 2 ^ 64 })) ∧
    ∀ n, FrameHead.kind p.head (u.vlansOf p.port) = .good → u.slotFor p = some n →
      s.packet dt p = if (u.slot n).foreign p then outside else u.slotPacket n p := by
  intro u outside
  have hpk : s.packet dt p = match FrameHead.kind p.head (u.vlansOf p.port) with
      | .taken => u
      | .fragment => u.modPort p.port (fun q => { q with fragments := (q.fragments + 1) % 2 ^ 64 })
      | .badChecksum => u.modPort p.port (fun q => { q with checksum := (q.checksum + 1) % 2 ^ 64 })
      | .unsupported => outside
      | .good => match u.slotFor p with
        | none => u.modPort p.port (fun q => { q with noSlot := (q.noSlot + 1) % 2 ^ 64 })
        | some n => if (u.slot n).foreign p then outside else u.slotPacket n p := by
    unfold State.packet
    rw [if_neg (by omega)]
    dsimp only
    rw [if_neg (by rw [show (s.modPort p.port (fun q => q.arrive dt)).ingests = true from hi]; simp)] <;> rfl
  rw [hpk]
  refine ⟨fun h => ?_, fun h => ?_, fun h => ?_, fun h => ?_, fun h h' => ?_, fun n h h' => ?_⟩ <;> simp only [*]

/-- A slot that a datagram reaches: its payload type is known, and its session delivers. -/
def State.delivered (s : State) (n : Nat) (p : Packet) : State := s.modIng n (fun i => { i with
  payloadType := some (i.payloadType.getD p.payloadType)
  rtsp := { i.rtsp with delivered := true, backoffS := if i.rtsp.phase = 5 then 1 else i.rtsp.backoffS } })

/-- A datagram that the policer drops: it marks its unit, or waits for its place. -/
def State.unpassed (v : State) (n : Nat) (p : Packet) (stamp : Nat) : State :=
  if (v.slot n).ing.started = true ∧ (v.slot n).ing.ssrc = some p.ssrc ∧ (v.slot n).ing.far ((v.slot n).ing.extend p).1 = false then
    v.placePacket n ((v.slot n).ing.extend p).1 ((v.slot n).ing.extend p).2 p true false stamp
  else v.modIng n (fun i => { i with unplaced := i.unplaced.filter (fun q => q != (p.ssrc, p.ts)) ++ [(p.ssrc, p.ts)] })

variable (s n p)

/-- A good datagram at its slot: a stopped or suspended slot counts it; else the policer, then its place. -/
theorem State.slotPacket_eq : s.slotPacket n p =
    if ((s.windows n).slot n).run = .stopped then (s.windows n).count n 0x12 1
    else if ((s.windows n).slot n).shedMode = 5 ∧ ((s.windows n).slot n).shedNext = 5 then (s.windows n).count n 0x11 1
    else if (((s.windows n).delivered n p).police n p.ipLen).1 then
      (((s.windows n).delivered n p).police n p.ipLen).2.accepted n p (((s.windows n).delivered n p).srcTicks n)
    else ((((s.windows n).delivered n p).police n p.ipLen).2).unpassed n p (((s.windows n).delivered n p).srcTicks n) := by
  have hy : (s.windows n).modIng n (fun i => { i with
      payloadType := i.payloadType.orElse (fun _ => some p.payloadType)
      rtsp := { i.rtsp with delivered := true, backoffS := if i.rtsp.phase = 5 then 1 else i.rtsp.backoffS } }) = (s.windows n).delivered n p :=
    congrArg ((s.windows n).modIng n) (funext fun i => by cases i.payloadType <;> rfl)
  have ht : (s.windows n).srcTicks n = ((s.windows n).delivered n p).srcTicks n := (State.modIng_srcTicks (s.windows n) n _).symm
  unfold State.slotPacket
  extract_lets w x t y r i e
  have hr : r = ((s.windows n).delivered n p).police n p.ipLen := congrArg (fun q : State => q.police n p.ipLen) hy
  replace ht : t = ((s.windows n).delivered n p).srcTicks n := ht
  clear_value r t
  subst hr ht
  exact if_congr Iff.rfl rfl (if_congr Iff.rfl rfl (if_congr Iff.rfl rfl (if_congr (by rw [Bool.not_eq_true']) rfl rfl)))

end

/-! ### The subset of frames (R28) -/

section
variable {h : FrameHead} {vlans : List Nat}

theorem FrameHead.kind_badChecksum (hc : h.control = .data) (hf : h.fragment = false) (he : h.extHeaders = [])
    (hs : h.sum = .wrong ∨ (h.sum = .zero ∧ h.ipVersion = 6)) (hu : h.carried = .rtp ∨ h.carried = .tsDatagram) : FrameHead.kind h vlans = .badChecksum := by
  have hudp : Carried.udp h.carried = true := by rcases hu with hu | hu <;> rw [hu] <;> rfl
  have hsum : (h.sum == .wrong || (h.sum == .zero && h.ipVersion != 4)) = true := by
    rcases hs with hs | ⟨hs, hv⟩
    · rw [hs]; rfl
    · rw [hs, hv]; rfl
  simp [FrameHead.kind, hc, hf, he, hudp, hsum]

/-- A whole frame over UDP whose checksum holds, or is absent over IPv4. -/
theorem FrameHead.kind_of_sum (hc : h.control = .data) (hf : h.fragment = false) (he : h.extHeaders = [])
    (hs : h.sum = .right ∨ (h.sum = .zero ∧ h.ipVersion = 4)) : FrameHead.kind h vlans =
      if 9216 < h.len ∨ h.serviceTag = true ∨ 1 < h.vlans.length ∨ h.vlans.any (fun v => !vlans.contains v) = true ∨ (h.ipVersion ≠ 4 ∧ h.ipVersion ≠ 6)
      then .unsupported else match h.carried with
        | .rtp | .tsDatagram => .good
        | .host => .taken
        | .igmp v => if v = 3 then .taken else .unsupported
        | .mld v => if v = 2 then .taken else .unsupported
        | .srtp | .dtls | .other => .unsupported := by
  have hsum : (h.sum == .wrong || (h.sum == .zero && h.ipVersion != 4)) = false := by
    rcases hs with hs | ⟨hs, hv⟩
    · rw [hs]; rfl
    · rw [hs, hv]; rfl
  unfold FrameHead.kind
  rw [hc, hf, he, hsum, Bool.and_false, if_neg (by decide), if_neg (by decide), if_neg (by decide)]
  exact if_congr (by simp) rfl rfl

end

end Sys2Proof.Machine

namespace Sys2Proof.Proofs
open Sys2Proof.Machine

/-- Settles O7. -/
theorem datagramsAndPolicer : Obligations.DatagramsAndPolicer := by
  refine ⟨fun s dt p hup hi hp => ?_, fun h vlans hc hf he => ⟨fun hs hu => FrameHead.kind_badChecksum hc hf he hs hu, fun hs hbad => ?_,
    fun hs hlen htag hv hvl hip => ?_⟩, fun s n len hf => ?_, fun s n dt hup => ?_⟩
  · intro u kind
    have hans : Answers (.rtpPacketArrival dt p) s (s.packet dt p) := answers_whenUp rfl hup
    obtain ⟨htaken, hfrag, hsum, huns, hnone, hsome⟩ := State.packet_of_ingests (dt := dt) hp hi
    refine ⟨fun h => answers_congr hans (htaken h), fun h => answers_congr hans (hfrag h), fun h => answers_congr hans (hsum h),
      fun h => answers_congr hans (huns h), fun h h' => answers_congr hans (hnone h h'),
      fun n h h' hfor => answers_congr hans ((hsome n h h').trans (if_pos hfor)), fun n h h' hfor => ?_⟩
    intro w
    have hslot : s.packet dt p = u.slotPacket n p := (hsome n h h').trans (if_neg (by rw [Bool.not_eq_true]; exact hfor))
    rw [hslot, State.slotPacket_eq] at hans
    refine ⟨fun hrun => ?_, fun hrun h5 h5' => ?_, fun hrun h5 => ?_⟩
    · rw [if_pos hrun] at hans
      exact hans
    · rw [if_neg hrun, if_pos ⟨h5, h5'⟩] at hans
      exact hans
    · rw [if_neg hrun, if_neg fun h => h5 h.1] at hans
      intro y v i
      rw [show (u.windows n).delivered n p = y from rfl] at hans
      clear_value y
      refine ⟨fun hpass => ?_, fun hdrop hcur => ?_, fun hdrop hcur => ?_⟩
      · rw [if_pos hpass] at hans
        exact hans
      · rw [hdrop, if_neg Bool.false_ne_true, State.unpassed, if_pos hcur] at hans
        exact hans
      · rw [hdrop, if_neg Bool.false_ne_true, State.unpassed, if_neg hcur] at hans
        exact hans
  · rw [FrameHead.kind_of_sum hc hf he (.inl hs)]
    refine if_pos ?_
    rcases hbad with h1 | h2 | h3 | ⟨v, hmem, hv⟩
    · exact .inl h1
    · exact .inr (.inl h2)
    · exact .inr (.inr (.inl h3))
    · exact .inr (.inr (.inr (.inl (List.any_eq_true.mpr ⟨v, hmem, by simpa using hv⟩))))
  · have hkind := FrameHead.kind_of_sum (vlans := vlans) hc hf he hs
    have hvl' : h.vlans.any (fun v => !vlans.contains v) = false := List.any_eq_false.mpr fun v hmem => by simpa using hvl v hmem
    rw [if_neg (by rw [htag, hvl']; simp; omega)] at hkind
    rw [hkind]
    refine ⟨fun hca => ?_, fun hca => ?_, fun hca => ?_⟩
    · rcases hca with hca | hca <;> rw [hca]
    · rcases hca with hca | hca | hca <;> rw [hca]
    · rcases hca with hca | hca | hca <;> rw [hca] <;> rfl
  · intro x hz have_
    have hok := s.police_fst n hf len
    obtain ⟨hbucket, hcounters⟩ := s.police_slot n len hok
    refine ⟨x.tokensAt_le _, ?_, ?_, fun k => ?_⟩
    · rw [hok, decide_eq_true_eq]
    · rw [hbucket]
      simp only [decide_eq_true_eq]
      rfl
    · rw [hcounters, tget_policedCounters]
      simp only [decide_eq_false_iff_not, Nat.not_le]
      rfl
  · intro w x idx run v
    have hans : Answers (.policerWindowEnd n dt) s (w.windows n) := answers_whenUp rfl hup
    replace hans := answers_congr hans (w.windows_eq n)
    refine ⟨fun h => answers_congr hans (if_pos h), fun h hrun => answers_congr hans ((if_neg (Nat.not_le.mpr h)).trans (if_neg ?_)),
      fun h hrun hst => answers_congr hans ((if_neg (Nat.not_le.mpr h)).trans (if_pos ⟨hrun, hst⟩))⟩
    exact fun h => absurd h.1 (Nat.not_le.mpr hrun)

end Sys2Proof.Proofs
end

