-- ==== Sys2Proof/Proofs/PacketPlacement.lean ====
section
/-! PROOFS. The placement of packets and the release of held units (R32 to R35, R44). -/
namespace Sys2Proof.Machine
open Sys2Proof

/-! ### Extension (R32) -/

theorem sgn_wrap16 (i : Int) : (sgn 16 (wrap 16 i) - i) % 65536 = 0 ∧ -32768 ≤ sgn 16 (wrap 16 i) ∧ sgn 16 (wrap 16 i) < 32768 := by
  unfold sgn wrap
  split <;> omega

/-- The step to a number above `h` that agrees with the low 16 bits of `c`. -/
def stepAbove (h : Int) (c : Nat) : Int := ((if wrap 16 ((c : Int) - h) = 0 then 65536 else wrap 16 ((c : Int) - h) : Nat) : Int)

theorem stepAbove_spec (h : Int) (c : Nat) : 0 < stepAbove h c ∧ stepAbove h c ≤ 65536 ∧ (h + stepAbove h c - c) % 65536 = 0 := by
  have hlt := wrap_lt 16 ((c : Int) - h)
  have hw : ((wrap 16 ((c : Int) - h) : Nat) : Int) = ((c : Int) - h) % 65536 := by
    unfold wrap
    omega
  unfold stepAbove
  split <;> omega

section
variable {i : SlotIngest} {p : Packet}

theorem SlotIngest.extend_of_started (h : i.started = true) :
    i.extend p = (i.extSeq + sgn 16 (wrap 16 ((p.seq : Int) - i.extSeq)), i.extTs + sgn 32 (wrap 32 ((p.ts : Int) - i.lastTs))) := by
  rw [SlotIngest.extend, h]
  rfl

theorem SlotIngest.far_of_started {q : Int} (h : i.started = true) (hf : 3000 ≤ q - i.highSeq ∨ 100 ≤ i.highSeq - q) : i.far q = true := by
  simpa [SlotIngest.far, h] using hf

end

section
variable (s : State) (n : Nat)

theorem State.modIng_congr {f g : SlotIngest → SlotIngest} (h : f (s.slot n).ing = g (s.slot n).ing) : s.modIng n f = s.modIng n g :=
  congrArg (fun x : SlotIngest => ({ s with slots := tset {} s.slots n { s.slot n with ing := x } } : State)) h

/-- A packet far from the highest number is held apart, and counted. -/
theorem State.accepted_of_far {p : Packet} {stamp : Nat} (hs : (s.slot n).ing.ssrc = some p.ssrc) (hc : (s.slot n).ing.candidate = none)
    (hf : (s.slot n).ing.far ((s.slot n).ing.extend p).1 = true) :
    s.accepted n p stamp = ((s.modIng n (fun i => { i with ssrc := some p.ssrc, unplaced := i.unplaced.filter (fun q => q.1 == p.ssrc) })).modIng n
      (fun i => { i with candidate := some p, candTick := stamp })).count n 9 1 := by
  unfold State.accepted
  extract_lets a b cand m i e
  have ha : a = s := if_neg (by simp [hs])
  have hb : b = s.modIng n (fun i => { i with ssrc := some p.ssrc, unplaced := i.unplaced.filter (fun q => q.1 == p.ssrc) }) :=
    congrArg (fun t : State => t.modIng n _) ha
  have hing : (b.slot n).ing = { (s.slot n).ing with ssrc := some p.ssrc, unplaced := (s.slot n).ing.unplaced.filter (fun q => q.1 == p.ssrc) } := by
    rw [hb, State.modIng_slot]
  have hcand : cand = none := (congrArg SlotIngest.candidate hing).trans hc
  have hm : m = b := by simp only [m, hcand]
  have hi : i.far e.1 = true := by
    rw [show e = i.extend p from rfl, show i = (m.slot n).ing from rfl, hm, hing]
    exact hf
  rw [if_pos hi, hm, hb]

/-- A restart goes on at the smallest number above the highest accepted one that agrees with the candidate. -/
theorem State.resync_eq (c : Packet) : let i := (s.slot n).ing
    let q := stepAbove i.highSeq c.seq
    s.resync n c = (s.modIng n (fun i => { i.commit c (i.highSeq + q) (i.extTs + sgn 32 (wrap 32 ((c.ts : Int) - i.lastTs))) with
        skips := i.skips ++ [(i.highSeq + 1, i.highSeq + q)] })).placePacket
      n (i.highSeq + q) (i.extTs + sgn 32 (wrap 32 ((c.ts : Int) - i.lastTs))) c false true i.candTick := by
  intro i q
  refine congrArg (fun t : State => t.placePacket n _ _ c false true i.candTick) (State.modIng_congr s n rfl)

/-! ### Late packets and duplicates (R34) -/

theorem State.placePacket_of_late {seq ts r : Int} {p : Packet} {gap : Bool} {stamp : Nat} (hr : (s.slot n).ing.releasedTs = some r) (hts : ts ≤ r) :
    s.placePacket n seq ts p false gap stamp = s.count n 8 1 := by
  unfold State.placePacket
  dsimp only
  rw [hr]
  exact if_pos (by simpa using hts)

theorem State.placePacket_of_duplicate {seq ts : Int} {p : Packet} {gap : Bool} {stamp : Nat} (hr : ∀ r, (s.slot n).ing.releasedTs = some r → r < ts)
    (hseq : seq ∈ (s.slot n).ing.units.flatMap HeldUnit.seqs) : s.placePacket n seq ts p false gap stamp = s.count n 7 1 := by
  have hlate : (s.slot n).ing.releasedTs.any (fun r => decide (ts ≤ r)) = false := by
    cases h : (s.slot n).ing.releasedTs with
    | none => rfl
    | some r => simpa using hr r h
  unfold State.placePacket
  dsimp only
  rw [hlate, if_neg Bool.false_ne_true, if_pos (by simpa using hseq)]
  rfl

/-! ### Held units (R33, R35) -/

theorem State.jitterDue_of_none (h : ∀ u ∈ (s.slot n).ing.units, s.srcTicks n < u.deadline) : s.jitterDue n = s := by
  have hnil : (s.slot n).ing.units.filter (fun u => decide (u.deadline ≤ s.srcTicks n)) = [] :=
    List.filter_eq_nil_iff.mpr fun u hu => by simpa using h u hu
  unfold State.jitterDue
  dsimp only
  rw [hnil]
  rfl

theorem State.jitterDue_of_last {u : HeldUnit} {before after : List HeldUnit} (hu : (s.slot n).ing.units = before ++ u :: after)
    (hdue : u.deadline ≤ s.srcTicks n) (hafter : ∀ v ∈ after, s.srcTicks n < v.deadline) :
    s.jitterDue n = State.releaseReady n (s.slot n).ing.units.length (State.releaseThrough n u.ts (s.slot n).ing.units.length s) := by
  have hlast : ((s.slot n).ing.units.filter (fun u => decide (u.deadline ≤ s.srcTicks n))).getLast? = some u := by
    have hnil : after.filter (fun u => decide (u.deadline ≤ s.srcTicks n)) = [] :=
      List.filter_eq_nil_iff.mpr fun v hv => by simpa using hafter v hv
    rw [hu, List.filter_append, List.filter_cons_of_pos (by simpa using hdue), hnil, List.getLast?_append]
    rfl
  unfold State.jitterDue
  dsimp only
  rw [hlast]

end

section
variable {ts : Int} {due cc : Nat} {p : HeldPacket} {pol gap : Bool}

/-- Placing adds no timestamp but the packet's own. -/
theorem ts_of_mem_placeIn {us : List HeldUnit} {v : HeldUnit} (h : v ∈ placeIn ts due p pol gap cc us) : v.ts = ts ∨ ∃ w ∈ us, v.ts = w.ts := by
  induction us with
  | nil => exact .inl (by rw [List.mem_singleton.mp h])
  | cons u us ih =>
    rw [placeIn] at h
    split at h
    next he =>
      rcases List.mem_cons.mp h with rfl | h
      · exact .inl he
      · exact .inr ⟨v, List.mem_cons_of_mem u h, rfl⟩
    next =>
      split at h
      · rcases List.mem_cons.mp h with rfl | h
        · exact .inl rfl
        · exact .inr ⟨v, h, rfl⟩
      · rcases List.mem_cons.mp h with rfl | h
        · exact .inr ⟨v, List.mem_cons_self, rfl⟩
        · exact (ih h).imp_right fun ⟨w, hw, he⟩ => ⟨w, List.mem_cons_of_mem u hw, he⟩

theorem placeIn_pairwise {us : List HeldUnit} (h : us.Pairwise (fun a b => a.ts < b.ts)) : (placeIn ts due p pol gap cc us).Pairwise (fun a b => a.ts < b.ts) := by
  induction us with
  | nil => exact List.pairwise_singleton _ _
  | cons u us ih =>
    obtain ⟨hu, hus⟩ := List.pairwise_cons.mp h
    rw [placeIn]
    split
    next => exact List.pairwise_cons.mpr ⟨hu, hus⟩
    next hne =>
      split
      next hlt =>
        refine List.pairwise_cons.mpr ⟨fun v hv => ?_, h⟩
        rcases List.mem_cons.mp hv with rfl | hv
        · exact hlt
        · exact Int.lt_trans hlt (hu v hv)
      next hge =>
        refine List.pairwise_cons.mpr ⟨fun v hv => ?_, ih hus⟩
        rcases ts_of_mem_placeIn hv with he | ⟨w, hw, he⟩
        · omega
        · rw [he]
          exact hu w hw

/-- The packet is in the unit of its timestamp, whose deadline is its first packet's. -/
theorem mem_placeIn (us : List HeldUnit) : ∃ u ∈ placeIn ts due p pol gap cc us, u.ts = ts ∧ p ∈ u.packets ∧
    (u.deadline = due ∨ ∃ v ∈ us, v.ts = ts ∧ u.deadline = v.deadline) := by
  induction us with
  | nil => exact ⟨_, List.mem_singleton_self _, rfl, List.mem_singleton_self p, .inl rfl⟩
  | cons u us ih =>
    rw [placeIn]
    split
    next he => exact ⟨_, List.mem_cons_self, he, by simp, .inr ⟨u, List.mem_cons_self, he, rfl⟩⟩
    next =>
      split
      · exact ⟨_, List.mem_cons_self, rfl, List.mem_singleton_self p, .inl rfl⟩
      · obtain ⟨w, hw, hts, hp, hd⟩ := ih
        exact ⟨w, List.mem_cons_of_mem u hw, hts, hp, hd.imp_right fun ⟨v, hv, h⟩ => ⟨v, List.mem_cons_of_mem u hv, h⟩⟩

end

/-! ### The oldest held unit leaves (R35, R44) -/

/-- Packets lost between the number that is due and a unit's first. -/
def SlotIngest.gapBefore (i : SlotIngest) (u : HeldUnit) : Nat := match i.expectSeq with
  | some e => lostBefore i.skips e u.lo
  | none => 0

/-- The unit as it leaves the jitter buffer. -/
def SlotIngest.leaving (i : SlotIngest) (u : HeldUnit) : AccessUnit where
  ts := wrap 64 u.ts
  bytes := if u.policed then [] else i.paramSets ++ u.bytes
  incomplete := !u.policed && !u.complete
  gap := i.gapNext || u.gap || decide (0 < i.gapBefore u)
  token := if u.policed then some 1 else none

theorem State.releaseHeld_eq {s : State} {n : Nat} {u : HeldUnit} {rest : List HeldUnit} (hu : (s.slot n).ing.units = u :: rest) (h5 : (s.slot n).shedNext ≠ 5)
    (h5' : (s.slot n).shedMode ≠ 5) (hf : (s.slot n).cfg.fusion.member = false) : ∃ t : State, (t.slot n).ing.units = rest ∧
      (t.slot n).ing.releasedTs = some u.ts ∧
      tget 0 (t.slot n).counters 5 = (tget 0 (s.slot n).counters 5 + (u.lost (s.slot n).ing.skips + (s.slot n).ing.gapBefore u)) % 2 ^ 64 ∧
      s.releaseHeld n = t.enterUnit n ((s.slot n).ing.leaving u) false := by
  unfold State.releaseHeld
  dsimp only
  split
  next h => rw [hu] at h; cases h
  next u' rest' h =>
    obtain ⟨rfl, rfl⟩ := List.cons.inj (hu.symm.trans h)
    rw [if_neg h5, if_neg (by simp [hf]), decide_eq_false h5']
    refine ⟨_, ?_, ?_, ?_, rfl⟩
    · simp
    · simp
    · simp
      rfl

end Sys2Proof.Machine

namespace Sys2Proof.Proofs
open Sys2Proof.Machine

/-- Settles O8. -/
theorem packetPlacement : Obligations.PacketPlacement := by
  refine ⟨⟨⟨fun i p hst => ?_, fun s n p stamp hs hc hst hf => ?_, fun i c => ?_⟩, fun s n seq ts p gap stamp => ⟨fun r hr hts => ?_, fun hr hseq => ?_⟩⟩,
    ⟨fun s n dt hup => ?_, fun ts due cc p pol gap us h => ⟨placeIn_pairwise h, mem_placeIn us⟩⟩, fun s n u rest hu h5 h5' hf => ?_⟩
  · intro e
    obtain ⟨hmod, hlow, hhigh⟩ := sgn_wrap16 ((p.seq : Int) - i.extSeq)
    obtain ⟨hmod', hlow', hhigh'⟩ := sgn_wrap_int32 ((p.ts : Int) - i.lastTs)
    have he : e = _ := SlotIngest.extend_of_started hst
    rw [he]
    refine ⟨⟨?_, ?_, ?_⟩, ?_, ?_, ?_⟩ <;> dsimp only <;> omega
  · exact State.accepted_of_far s n hs hc (SlotIngest.far_of_started hst hf)
  · obtain ⟨hpos, hle, hmod⟩ := stepAbove_spec i.highSeq c.seq
    refine ⟨stepAbove i.highSeq c.seq, hpos, hle, hmod, fun s n hi => ?_⟩
    subst hi
    exact s.resync_eq n c
  · exact State.placePacket_of_late s n hr hts
  · exact State.placePacket_of_duplicate s n hr hseq
  · intro w i
    have hans : Answers (.jitterDeadline n dt) s (w.jitterDue n) := answers_whenUp rfl hup
    exact ⟨fun h => answers_congr hans (State.jitterDue_of_none w n h),
      fun u before after hu hdue hafter => answers_congr hans (State.jitterDue_of_last w n hu hdue hafter)⟩
  · intro i gapSeq
    exact State.releaseHeld_eq hu h5 h5' hf

end Sys2Proof.Proofs
end

