-- ==== Sys2Proof/Proofs/RtspFusion.lean ====
section
/-! PROOFS. The RTSP client and the fusion set (R28 to R31, R46, R48). -/
namespace Sys2Proof.Machine
open Sys2Proof

/-! ### What leaves by the Stirrup link -/

/-- A frame to the partner changes the link's state and what goes out. -/
theorem State.stirrupSend_eq (s : State) (kind : Nat) (payload : List Byte) : ∃ o p, s.stirrupSend kind payload = { s with out := o, pair := p } := by
  have hdrain : ∀ (k : Nat) (s : State), ∃ o p, State.stirrupDrain k s = { s with out := o, pair := p } := by
    intro k
    induction k with
    | zero => exact fun s => ⟨_, _, rfl⟩
    | succ k ih =>
      intro s
      unfold State.stirrupDrain
      split
      · split
        · obtain ⟨o, p, h⟩ := ih { s with
            out := .stirrup (s.pair.frame _ false s.pair.txSeq _) :: s.out
            pair := { s.pair with txWait := _, txSeq := (s.pair.txSeq + 1) % 2 ^ 32, unacked := s.pair.unacked ++ [(_, s.pair.txSeq, _)] } }
          exact ⟨o, p, h⟩
        · exact ⟨_, _, rfl⟩
      · exact ⟨_, _, rfl⟩
  unfold State.stirrupSend
  split
  · obtain ⟨o, p, h⟩ := hdrain (s.pair.txWait.length + 1) { s with pair := { s.pair with txWait := s.pair.txWait ++ [(kind, payload)] } }
    exact ⟨o, p, h⟩
  · exact ⟨_, _, rfl⟩

@[simp] theorem State.stirrupSend_slots (s : State) (kind : Nat) (payload : List Byte) : (s.stirrupSend kind payload).slots = s.slots := by
  obtain ⟨o, p, h⟩ := s.stirrupSend_eq kind payload
  rw [h]

/-! ### The session (R30, R31) -/

section
variable {s : State} {n : Nat}

/-- A change of a session changes the slot's session, and what the partner is told. -/
theorem State.modRtsp_slot (f : Rtsp → Rtsp) : (s.modRtsp n f).slot n = { s.slot n with ing := { (s.slot n).ing with rtsp := f (s.slot n).ing.rtsp } } := by
  have hmod : (s.modRtsp n f).slots = (s.modIng n (fun i => { i with rtsp := f i.rtsp })).slots := by
    unfold State.modRtsp
    dsimp only
    split
    · exact State.stirrupSend_slots _ _ _
    · rfl
  rw [State.slot, hmod]
  exact State.modIng_slot s n _

/-- A good response takes the session to its next phase. -/
def State.rtspNext (s : State) (n : Nat) (r : RtspReply) : State :=
  let p := (s.slot n).ing.rtsp.phase
  s.modRtsp n (fun q => { q with
    timeoutS := if r.timeoutS.isSome then r.timeoutS else q.timeoutS, phase := min 5 (p + 1), delivered := q.delivered && p == 5
    session := if p = 3 then r.session else q.session, transport := if p = 3 then r.transport else q.transport })

variable {r : RtspReply} (hr : (s.slot n).rtspRuns = true) (hp : (s.slot n).ing.rtsp.phase ≠ 6)
include hr hp

theorem State.rtspResponse_of_bad (hok : r.ok = false) (ha : (s.slot n).ing.rtsp.answers r = none) : s.rtspResponse n r = s.rtspFail n := by
  unfold State.rtspResponse
  simp only [hr, hp, hok, ha, Bool.not_true, Bool.false_eq_true, or_false, if_false, Bool.not_false, if_true]

theorem State.rtspResponse_of_challenge (hok : r.ok = false) {c : RtspChallenge} (ha : (s.slot n).ing.rtsp.answers r = some c) :
    s.rtspResponse n r = (s.modRtsp n (fun q => { q with auth := some c })).rtspSend n
      (if (s.slot n).ing.rtsp.phase = 5 then 4 else (s.slot n).ing.rtsp.phase - 1) := by
  unfold State.rtspResponse
  simp only [hr, hp, hok, ha, Bool.not_true, Bool.false_eq_true, or_false, if_false, Bool.not_false, if_true]

omit hp

theorem State.rtspResponse_of_interleaved (hok : r.ok = true) (h3 : (s.slot n).ing.rtsp.phase = 3) (ht : r.transport = some .interleaved) :
    s.rtspResponse n r = s.rtspFail n := by
  unfold State.rtspResponse
  simp [hr, hok, h3, ht]

theorem State.rtspResponse_of_sdp_refused (hok : r.ok = true) (h2 : (s.slot n).ing.rtsp.phase = 2) {d : Sdp} (hd : r.sdp = some d)
    (href : Sdp.refused d (s.slot n).cfg.stream.payload = true) : s.rtspResponse n r = s.sdpRefused n := by
  unfold State.rtspResponse
  simp [hr, hok, h2, hd, href]

theorem State.rtspResponse_of_sdp (hok : r.ok = true) (h2 : (s.slot n).ing.rtsp.phase = 2) {d : Sdp} (hd : r.sdp = some d)
    (href : Sdp.refused d (s.slot n).cfg.stream.payload = false) :
    s.rtspResponse n r = ((s.rtspNext n r).modIng n (fun i => { i with paramSets := d.parameterSets })).rtspSend n 2 := by
  unfold State.rtspResponse State.rtspNext
  simp [hr, hok, h2, hd, href]

theorem State.rtspResponse_of_no_sdp (hok : r.ok = true) (h2 : (s.slot n).ing.rtsp.phase = 2) (hd : r.sdp = none) :
    s.rtspResponse n r = (s.rtspNext n r).rtspSend n 2 := by
  unfold State.rtspResponse State.rtspNext
  simp [hr, hok, h2, hd]

include hp in
theorem State.rtspResponse_of_ok (hok : r.ok = true) (h2 : (s.slot n).ing.rtsp.phase ≠ 2)
    (h3 : (s.slot n).ing.rtsp.phase = 3 → r.transport ≠ some .interleaved) :
    s.rtspResponse n r = if (s.slot n).ing.rtsp.phase < 4 then (s.rtspNext n r).rtspSend n (s.slot n).ing.rtsp.phase else s.rtspNext n r := by
  unfold State.rtspResponse
  extract_lets x q p a b
  have h3' : ¬ (p = 3 ∧ r.transport = some .interleaved) := fun h => h3 h.1 h.2
  have hb : b = a := by simp only [b, if_neg (show p ≠ 2 from h2)]
  have h2' : ¬ (p = 2 ∧ r.sdp.any (fun d => Sdp.refused d x.cfg.stream.payload) = true) := fun h => h2 h.1
  rw [if_neg (by simp [x, hr, p, q, hp]), hok, if_neg (by simp), if_neg h3', if_neg h2', hb]
  rfl

end

/-! ### Timers of a session (R31) -/

section
variable {s : State} {n ms : Nat} (hr : (s.slot n).rtspRuns = true)
include hr

theorem State.streamTimeout_eq (hp : (s.slot n).ing.rtsp.phase ≠ 6) (sessionMs : Nat) :
    s.streamTimeout n ms sessionMs = if (s.slot n).timedOut ms sessionMs = true then s.rtspFail n else s := by
  unfold State.streamTimeout
  rw [hr, bne_iff_ne.mpr hp, Bool.true_and, Bool.true_and]

theorem State.rtspKeepalive_eq (hp : (s.slot n).ing.rtsp.phase = 5) :
    s.rtspKeepalive n ms = if (s.slot n).ing.rtsp.keepaliveMs ≤ ms then s.rtspSend n 4 else s := by
  unfold State.rtspKeepalive
  simp [hr, hp]

theorem State.rtspRetry_eq (hp : (s.slot n).ing.rtsp.phase = 6) : s.rtspRetry n ms = if (s.slot n).ing.rtsp.backoffS * 1000 ≤ ms then
    (s.modRtsp n (fun r => { phase := 1, backoffS := min 60 (2 * r.backoffS) })).rtspOpen n else s := by
  unfold State.rtspRetry
  simp [hr, hp]

theorem State.receiverReport_eq (hp : (s.slot n).ing.rtsp.phase = 5) : s.receiverReport n = s.emit (.rtcpReport n) := by
  unfold State.receiverReport
  simp [hr, hp]

end

theorem Slot.timedOut_iff {x : Slot} {ms sessionMs : Nat} : x.timedOut ms sessionMs = true ↔
    x.cfg.stream.timeoutS * 1000 ≤ ms ∨ ∃ k, x.ing.rtsp.timeoutS = some k ∧ k * 1000 ≤ sessionMs := by
  rw [Slot.timedOut, Bool.or_eq_true, decide_eq_true_eq]
  refine or_congr_right ?_
  cases x.ing.rtsp.timeoutS <;> simp

/-- A session that is opened again sends its first request, unless it is RTSPS. -/
theorem State.rtspOpen_of_plain {s : State} {n : Nat} (f : Rtsp → Rtsp) (hu : (s.slot n).cfg.stream.url.take 6 ≠ ascii "rtsps:") :
    (s.modRtsp n f).rtspOpen n = (s.modRtsp n f).rtspSend n 0 := by
  unfold State.rtspOpen
  rw [State.modRtsp_slot, if_neg (by simpa using hu)]

/-! ### Fusion (R46, R48) -/

theorem StreamCfg.waitedOut_iff (v : StreamCfg) (us : Nat) :
    v.waitedOut us = true ↔ v.jitterMs * 1000 * v.frNum + 2000000 * v.frDen ≤ us * v.frNum := decide_eq_true_iff

/-- A member's waiting time has passed: it is waited for no longer, and the sets that wait for no member are released. -/
theorem State.fusionTimeout_of_waited {s : State} {k m index us : Nat} (h : (s.slot m).cfg.stream.waitedOut us = true) {opens : List FusionOpen}
    (hlen : opens.length = (s.fusionSet k).opens.length)
    (hget : ∀ (j : Nat) (o : FusionOpen), (s.fusionSet k).opens[j]? = some o →
      opens[j]? = some (if j = index then { o with waited := o.waited ++ [m] } else o)) :
    s.fusionTimeout k m index us = State.fusionRun k opens.length (s.modFusion k (fun f => { f with opens := opens })) := by
  have hopens : ((upto 0 (s.fusionSet k).opens.length).zip (s.fusionSet k).opens).map (fun p =>
      if p.1 = index then { p.2 with waited := p.2.waited ++ [m] } else p.2) = opens := by
    refine List.ext_getElem? fun j => ?_
    rw [List.getElem?_map]
    cases ho : (s.fusionSet k).opens[j]? with
    | none =>
      have hj := List.getElem?_eq_none_iff.mp ho
      rw [List.getElem?_eq_none (by rw [List.length_zip]; omega), List.getElem?_eq_none (by omega)]
      rfl
    | some o =>
      have hj := (List.getElem?_eq_some_iff.mp ho).1
      have hu : (upto 0 (s.fusionSet k).opens.length)[j]? = some j := by
        rw [upto_eq_range', List.getElem?_range' (by omega)]
        simp
      have hz : ((upto 0 (s.fusionSet k).opens.length).zip (s.fusionSet k).opens)[j]? = some (j, o) := List.getElem?_zip_eq_some.mpr ⟨hu, ho⟩
      rw [hz, hget j o ho]
      rfl
  have hset : s.modFusion k (fun f => { f with
      opens := ((upto 0 f.opens.length).zip f.opens).map (fun p =>
        if p.1 = index then { p.2 with waited := p.2.waited ++ [m] } else p.2) }) = s.modFusion k (fun f => { f with opens := opens }) := by
    rw [← hopens]
    rfl
  unfold State.fusionTimeout
  rw [if_pos h]
  dsimp only
  rw [hset, State.modFusion_fusionSet]

/-- The front set is released where every member but the reference has a sample, is past the window, or is waited for no longer. -/
theorem State.fusionRun_cons {s : State} {k j : Nat} {o : FusionOpen} {os : List FusionOpen} (ho : (s.fusionSet k).opens = o :: os) :
    State.fusionRun k (j + 1) s = if (∀ m ∈ s.fusionMembers k, m = ((o.offsets.head?).map (·.1)).getD 0 ∨
        ((s.fusionSet k).sampleFor o (s.slot (((o.offsets.head?).map (·.1)).getD 0)).cfg.fusion.tol m).isSome = true ∨
        (s.fusionSet k).later o (s.slot (((o.offsets.head?).map (·.1)).getD 0)).cfg.fusion.tol m = true ∨ m ∈ o.waited)
      then State.fusionRun k j (s.fusionRelease k o (s.fusionMembers k) (s.slot (((o.offsets.head?).map (·.1)).getD 0)).cfg.fusion.tol) else s := by
  rw [State.fusionRun]
  simp only [ho]
  exact if_congr (by simp only [List.all_eq_true, Bool.or_eq_true, beq_iff_eq, List.contains_iff_mem, or_assoc]) rfl rfl

end Sys2Proof.Machine

namespace Sys2Proof.Proofs
open Sys2Proof.Machine

/-- Settles O9. -/
theorem rtspAndFusion : Obligations.RtspAndFusion := by
  refine ⟨fun s n hready hr => ?_, fun s n ntp rtpTs bytes hup => ?_, fun s k j o os ho => ?_⟩
  · intro v q p down next
    have hans : ∀ r, Answers (.rtspResponse n r) s (s.rtspResponse n r) := fun r => answers_whenReady rfl hready
    refine ⟨fun r hp hok hc => ?_, fun r c hp hok hc ha => ?_, fun r c hp hok hc halg ha => ?_, fun r hp hok ht => ?_, fun r hp hok => ?_,
      fun r hp hok hd => ?_, fun r d hp hok hd href => ?_, fun r d hp hok hd href => ?_, fun r hp hok => ?_, fun t hn hp => ?_, fun t hn => ?_, fun hp => ?_⟩
    · exact answers_congr (hans r) (State.rtspResponse_of_bad hr hp hok (by rw [Rtsp.answers, hc]))
    · exact answers_congr (hans r) (State.rtspResponse_of_bad hr hp hok (by rw [Rtsp.answers, hc]; exact if_pos ha))
    · exact answers_congr (hans r) (State.rtspResponse_of_challenge hr hp hok (by rw [Rtsp.answers, hc]; exact if_neg (by tauto)))
    · exact answers_congr (hans r) (State.rtspResponse_of_interleaved hr hok hp ht)
    · refine answers_congr (hans r) ((State.rtspResponse_of_ok hr ?_ hok ?_ ?_).trans (if_pos ?_))
      · exact show p ≠ 6 by omega
      · exact show p ≠ 2 by omega
      · exact fun (h3 : p = 3) => (hp.resolve_left (by omega)).2
      · exact show p < 4 by omega
    · exact answers_congr (hans r) (State.rtspResponse_of_no_sdp hr hok hp hd)
    · exact answers_congr (hans r) (State.rtspResponse_of_sdp hr hok hp hd href)
    · exact answers_congr (hans r) (State.rtspResponse_of_sdp_refused hr hok hp hd href)
    · refine answers_congr (hans r) ((State.rtspResponse_of_ok hr ?_ hok ?_ ?_).trans (if_neg ?_))
      · exact show p ≠ 6 by omega
      · exact show p ≠ 2 by omega
      · exact fun (h3 : p = 3) => absurd h3 (by omega)
      · exact show ¬ p < 4 by omega
    · subst hn
      have hst := answers_congr (answers_whenReady (c := .streamTimeout t) rfl hready) (State.streamTimeout_eq hr hp t.sessionMs)
      refine ⟨fun h => answers_congr hst (if_pos (Slot.timedOut_iff.mpr h)), fun h h' => answers_congr hst (if_neg ?_)⟩
      rw [Slot.timedOut_iff]
      rintro (h1 | ⟨k, hk, hle⟩)
      · exact absurd h1 (Nat.not_le.mpr h)
      · exact absurd hle (Nat.not_le.mpr (h' k hk))
    · subst hn
      refine ⟨fun hp h hu => ?_, fun hp h => ?_, fun hp h => ?_, fun hp h => ?_⟩
      · refine answers_congr (answers_whenReady rfl hready) ((State.rtspRetry_eq hr hp).trans ((if_pos h).trans (State.rtspOpen_of_plain _ hu)))
      · exact answers_congr (answers_whenReady rfl hready) ((State.rtspRetry_eq hr hp).trans (if_neg (Nat.not_le.mpr h)))
      · exact answers_congr (answers_whenReady rfl hready) ((State.rtspKeepalive_eq hr hp).trans (if_pos h))
      · exact answers_congr (answers_whenReady rfl hready) ((State.rtspKeepalive_eq hr hp).trans (if_neg (Nat.not_le.mpr h)))
    · exact answers_congr (answers_whenReady rfl hready) (State.receiverReport_eq hr hp)
  · refine ⟨fun hrun hst => ?_, fun hrun hst => ?_, fun w => ?_⟩
    · have hrep : s.senderReport n ntp rtpTs bytes = s.modIng n (fun i => { i with report := some ⟨ntp, rtpTs, some (i.extendTs rtpTs), bytes⟩ }) := by
        rw [State.senderReport, if_neg (by simpa using hrun)]
        exact State.modIng_congr s n (by rw [hst]; rfl)
      refine reaches_of_answers (answers_congr (answers_whenUp rfl hup) hrep) ?_
      refine ⟨⟨(s.slot n).ing.extTs + sgn 32 (wrap 32 ((rtpTs : Int) - (s.slot n).ing.lastTs)), ?_, ?_⟩, fun m hm => ?_, rfl⟩
      · have := sgn_wrap_int32 ((rtpTs : Int) - (s.slot n).ing.lastTs)
        omega
      · exact congrArg (fun x : Slot => x.ing.report)
          (State.modIng_slot s n (fun i => { i with report := some ⟨ntp, rtpTs, some (i.extendTs rtpTs), bytes⟩ }))
      · exact State.modSlot_slot_ne s (fun x => { x with ing := { x.ing with report := some ⟨ntp, rtpTs, some (x.ing.extendTs rtpTs), bytes⟩ } }) hm
    · refine answers_congr (answers_whenUp rfl hup) ?_
      rw [State.senderReport, if_neg (by simpa using hrun)]
      exact State.modIng_congr s n (by rw [hst]; rfl)
    · intro v waited
      have hans : Answers (.fusionSetTimeout w) s (s.fusionTimeout w.set w.member w.index w.us) := answers_whenUp rfl hup
      refine ⟨fun h => answers_congr hans (if_neg ?_), fun h opens hlen hget => answers_congr hans (State.fusionTimeout_of_waited ?_ hlen hget)⟩
      · rw [StreamCfg.waitedOut_iff]
        exact h
      · exact (StreamCfg.waitedOut_iff _ _).mpr h
  · intro ref tol ready
    exact ⟨fun h => (State.fusionRun_cons ho).trans (if_pos h), fun h => (State.fusionRun_cons ho).trans (if_neg h)⟩

end Sys2Proof.Proofs
end

