-- ==== Sys2Proof/Proofs/DecodeOrder.lean ====
section
/-! PROOFS. The decode queue and its order (R71, R72, R74). -/
namespace Sys2Proof.Machine
open Sys2Proof

section
variable (s : State) (n : Nat)

@[simp] theorem State.modDec_slot (f : SlotDecode → SlotDecode) : (s.modDec n f).slot n = { s.slot n with dec := f (s.slot n).dec } :=
  s.modSlot_slot n _

theorem State.count_slot_ne {m : Nat} (sub k : Nat) (h : m ≠ n) : (s.count n sub k).slot m = s.slot m := s.modSlot_slot_ne _ h

theorem State.modDec_slot_ne {m : Nat} (f : SlotDecode → SlotDecode) (h : m ≠ n) : (s.modDec n f).slot m = s.slot m := s.modSlot_slot_ne _ h

variable {s n} {u : AccessUnit}

/-- A unit that fits, or a token, waits at the end of the queue. -/
theorem State.handover_of_fits (h : u.token ≠ none ∨ (s.slot n).dec.used + u.bytes.length ≤ (s.slot n).cfg.stream.queueBytes) :
    s.handover n u = s.modDec n (fun d => { d with
      queue := d.queue ++ [{ unit := u, stamp := (s.engine (s.slot n).dec.engine).ticks
                             deadline := u.cfg.stream.deadline (s.engine (s.slot n).dec.engine).ticks }]
      used := d.used + u.bytes.length }) := by
  have hfits : (u.token.isSome || decide ((s.slot n).dec.used + u.bytes.length ≤ (s.slot n).cfg.stream.queueBytes)) = true := by
    rw [Bool.or_eq_true, Option.isSome_iff_ne_none, decide_eq_true_eq]
    exact h
  unfold State.handover
  simp only [hfits, if_true]

/-- A unit that does not fit waits as a token, and is counted. -/
theorem State.handover_of_overflow (ht : u.token = none) (h : (s.slot n).cfg.stream.queueBytes < (s.slot n).dec.used + u.bytes.length) :
    s.handover n u = ((s.count n 0x29 1).count n 0x0D 1).modDec n (fun d => { d with
      queue := d.queue ++ [{ unit := { u with token := some 2, bytes := [], incomplete := false }
                             stamp := (s.engine (s.slot n).dec.engine).ticks
                             deadline := u.cfg.stream.deadline (s.engine (s.slot n).dec.engine).ticks }] }) := by
  have hfits : (u.token.isSome || decide ((s.slot n).dec.used + u.bytes.length ≤ (s.slot n).cfg.stream.queueBytes)) = false := by
    rw [ht, decide_eq_false (Nat.not_le.mpr h)]
    rfl
  unfold State.handover
  simp only [hfits, Bool.false_eq_true, if_false]
  rfl

/-- A head of the engine's order: a slot of the engine whose first unit has arrived. -/
theorem State.of_mem_heads {e : Nat} {p : Nat × QUnit} (h : p ∈ s.heads e) :
    ∃ x, (p.1, x) ∈ s.slots ∧ x.dec.engine = e ∧ x.dec.queue.head? = some p.2 ∧ p.2.stamp < (s.engine e).ticks := by
  unfold State.heads at h
  extract_lets busy hs at h
  clear_value busy
  obtain ⟨⟨m, x⟩, hx, hp⟩ := List.mem_filterMap.mp (mem_sortBy.mp h)
  dsimp only at hp
  split at hp
  next q _ hq =>
    split at hp
    next hc =>
      obtain ⟨heng, -, -, -, hst⟩ := hc
      obtain rfl := Option.some.inj hp
      exact ⟨x, hx, heng, by rw [hq]; rfl, hst⟩
    next => cases hp
  next => cases hp

end

end Sys2Proof.Machine

namespace Sys2Proof.Proofs
open Sys2Proof.Machine

/-- Settles O13. -/
theorem decodeOrder : Obligations.DecodeOrder := by
  refine ⟨fun s n u => ?_, fun s e => pairwise_sortBy _ _, fun s e p h => State.of_mem_heads h⟩
  intro x t I due
  refine ⟨fun h => ?_, fun ht h => ?_⟩
  · rw [State.handover_of_fits h, State.modDec_slot]
    exact ⟨rfl, rfl⟩
  · rw [State.handover_of_overflow ht h, State.modDec_slot, State.count_slot, State.count_slot]
    refine ⟨rfl, ?_, ?_⟩
    · dsimp only
      rw [tget_tmod, if_neg (by decide), tget_tmod, if_pos rfl]
    · dsimp only
      rw [tget_tmod, if_pos rfl, tget_tmod, if_neg (by decide)]

end Sys2Proof.Proofs
end

