-- ==== Sys2Proof/Proofs/DecodeEngines.lean ====
section
/-! PROOFS. What a decode engine does (R62, R67, R72, R73, R75, R76, R440). -/
namespace Sys2Proof.Machine
open Sys2Proof

/-! ### The engine's clock -/

section
variable (s : State) (e dt : Nat)

/-- An account of each context of a list. -/
theorem State.foldl_account_eq (l : List Nat) (i k : Nat) (s : State) : ∃ r, l.foldl (fun s c => s.account c i k) s = { s with ctxRuns := r } := by
  induction l generalizing s with
  | nil => exact ⟨_, rfl⟩
  | cons c l ih =>
    obtain ⟨r, h⟩ := ih (s.account c i k)
    exact ⟨r, h⟩

/-- The engine's record after `dt` cycles. -/
def DecEngine.ticked (g : DecEngine) (dt : Nat) : DecEngine :=
  { g with
    ticks := g.ticks + dt, busy := if g.st = .idle then g.busy else (g.busy + dt) % 2 ^ 64
    work := if g.st = .decoding then g.work.map (fun w => { w with cycles := w.cycles + dt }) else g.work }

theorem State.engTick_eq : ∃ t : State, s.engTick e dt = t.modEngine e (fun g => g.ticked dt) ∧
    (t = s ∨ ∃ k, (s.engine e).work = some k ∧ t = (s.count k.slot 0x2C dt).accountBound k.slot 10 dt) ∧
    (∀ k, (s.engine e).st ≠ .idle → (s.engine e).work = some k → t = (s.count k.slot 0x2C dt).accountBound k.slot 10 dt) := by
  unfold State.engTick
  dsimp only
  refine ⟨_, rfl, ?_, fun k hst hk => ?_⟩
  · split
    · exact .inl rfl
    · exact .inr ⟨_, by assumption, rfl⟩
    · exact .inl rfl
  · split
    next _ h => exact absurd h hst
    next h => rw [Option.some.inj (hk.symm.trans (by assumption))]
    next h => rw [hk] at *; contradiction

/-- What the clock of an engine changes: that engine, counters of slots, and accounts. -/
theorem State.engTick_frame : ∃ q r, s.engTick e dt = { s with slots := q, ctxRuns := r, engines := tmod {} s.engines e (fun g => g.ticked dt) } ∧
    ∀ n, ∃ c, tget {} q n = { s.slot n with counters := c } := by
  obtain ⟨t, ht, hcase, -⟩ := s.engTick_eq e dt
  rw [ht]
  rcases hcase with rfl | ⟨k, -, rfl⟩
  · exact ⟨_, _, rfl, fun n => ⟨(t.slot n).counters, rfl⟩⟩
  · obtain ⟨r, h⟩ := State.foldl_account_eq ((s.count k.slot 0x2C dt).slot k.slot).cfg.bound 10 dt (s.count k.slot 0x2C dt)
    rw [State.accountBound, h]
    refine ⟨_, r, rfl, fun n => ?_⟩
    by_cases hn : n = k.slot
    · subst hn
      exact ⟨_, s.count_slot k.slot 0x2C dt⟩
    · exact ⟨(s.slot n).counters, s.count_slot_ne k.slot 0x2C dt hn⟩

@[simp] theorem State.engTick_engine : (s.engTick e dt).engine e = (s.engine e).ticked dt := by
  obtain ⟨q, r, h, -⟩ := s.engTick_frame e dt
  rw [h]
  exact tget_tmod_same {} s.engines e (fun g => g.ticked dt)

theorem State.engTick_slot (n : Nat) : ∃ c, (s.engTick e dt).slot n = { s.slot n with counters := c } := by
  obtain ⟨q, r, h, hq⟩ := s.engTick_frame e dt
  rw [h]
  exact hq n

@[simp] theorem State.engTick_follower : (s.engTick e dt).follower = s.follower := by
  obtain ⟨q, r, h, -⟩ := s.engTick_frame e dt
  rw [h]
  rfl

@[simp] theorem State.engTick_decoderCount : (s.engTick e dt).decoderCount = s.decoderCount := by
  obtain ⟨q, r, h, -⟩ := s.engTick_frame e dt
  rw [h]
  rfl

/-- The cycles of a picture count for the one context bound to its slot. -/
theorem State.engTick_acct {k : Work} {c : Nat} (hst : (s.engine e).st ≠ .idle) (hk : (s.engine e).work = some k) (hc : (s.slot k.slot).cfg.bound = [c]) :
    tget 0 ((s.engTick e dt).ctxRun c).acct 10 = (tget 0 (s.ctxRun c).acct 10 + dt) % 2 ^ 64 := by
  obtain ⟨t, ht, -, hwork⟩ := s.engTick_eq e dt
  have hbound : ((s.count k.slot 0x2C dt).slot k.slot).cfg.bound = [c] := by rw [State.count_slot, hc]
  have hacc : t = (s.count k.slot 0x2C dt).account c 10 dt := by
    rw [hwork k hst hk, State.accountBound, hbound]
    rfl
  have hrun : t.ctxRun c = { s.ctxRun c with acct := tmod 0 (s.ctxRun c).acct 10 (fun v => (v + dt) % 2 ^ 64) } := by
    rw [hacc]
    exact State.modRun_ctxRun (s := s.count k.slot 0x2C dt) c _
  rw [ht, show (t.modEngine e (fun g => g.ticked dt)).ctxRun c = t.ctxRun c from rfl, hrun]
  exact tget_tmod_same 0 (s.ctxRun c).acct 10 (fun v => (v + dt) % 2 ^ 64)

/-- The slot of the picture in an engine is the same after the tick. -/
theorem State.engSlot_of_work {k : Work} (h : ((s.engTick e dt).engine e).work = some k) : s.engSlot e = k.slot := by
  rw [State.engTick_engine, DecEngine.ticked] at h
  unfold State.engSlot
  cases hw : (s.engine e).work with
  | none => simp [hw] at h
  | some w =>
    simp only [hw, Option.map_some] at h
    split at h <;> cases h <;> rfl

end

/-! ### The rows, each in the case that it has an effect -/

section
variable {s : State} {e : Nat}

theorem State.decodeStart_of_idle (hdr : PicHeader) (bad : Bool) (hst : (s.engine e).st = .idle) (he : e < s.decoderCount) :
    s.decodeStart e hdr bad = match (s.heads e).find? (fun p => p.2.unit.token.isSome || (s.markWaits (s.heads e)).canTakeFb p.1) with
      | some p => (s.markWaits (s.heads e)).startPic e p.1 p.2 hdr bad
      | none => match (s.engine e).yielded with
        | none => s.markWaits (s.heads e)
        | some w => (s.markWaits (s.heads e)).modEngine e (fun g => { g with
            st := .restoring, work := some w, yielded := none, slotShown := w.slot, switches := (g.switches + 1) % 2 ^ 64 }) := by
  have hgo : ¬ ((s.engine e).st ≠ .idle ∨ s.decoderCount ≤ e) := by
    rw [hst]
    simp [he]
  unfold State.decodeStart
  rw [if_neg hgo] <;> rfl

theorem State.decodeYield_of_slow {k : Work} (hst : (s.engine e).st = .decoding) (hk : (s.engine e).work = some k) (hy : (s.engine e).yielded = none)
    (ha : k.again = false) (hc : 10 * k.q.unit.cfg.stream.avgCost ≤ k.cycles) :
    s.decodeYield e = (s.count k.slot 0x24 1).modEngine e (fun g => { g with
      st := .saving, work := some { k with again := true }, switches := (g.switches + 1) % 2 ^ 64 }) := by
  unfold State.decodeYield
  simp only [hst, hk, hy, ha, hc, Bool.not_false, and_self, if_true]

theorem State.decodeYield_of_yielded (hy : (s.engine e).yielded ≠ none) : s.decodeYield e = s := by
  unfold State.decodeYield
  dsimp only
  split
  next h => exact absurd h hy
  next => rfl

theorem State.decodeDone_of_work {k : Work} (d : DecodedPic) (hst : (s.engine e).st = .decoding) (hk : (s.engine e).work = some k) :
    s.decodeDone e d = if (s.slot k.slot).chain.epoch ≠ k.epoch then (s.engFree e).fbDropSvc k.handle false
      else if d.failed && !s.follower then (s.engFree e).refFailed e k else (s.engFree e).decoded e k d := by
  unfold State.decodeDone
  simp only [hst, hk]
  rfl

theorem QUnit.overdue_of_deadline {q : QUnit} {t ticks : Nat} (hd : q.deadline = some t) (h : t + q.unit.cfg.stream.interval ≤ ticks) :
    q.overdue ticks = true := by
  rw [QUnit.overdue, hd]
  exact decide_eq_true h

theorem Work.spent_of {w : Work} {ticks : Nat} (h : 100 * w.q.unit.cfg.stream.avgCost ≤ w.cycles ∨
    ∃ t, w.q.deadline = some t ∧ t + w.q.unit.cfg.stream.interval ≤ ticks) : w.spent ticks = true := by
  rw [Work.spent, Bool.or_eq_true, decide_eq_true_eq]
  exact h.imp_right fun ⟨t, hd, ht⟩ => QUnit.overdue_of_deadline hd ht

/-- The engine's picture of the slot is given up. -/
theorem State.abandon_of_work {n : Nat} {k : Work} (he : (s.slot n).dec.engine = e) (hf : s.follower = false) (hk : (s.engine e).work = some k)
    (hn : k.slot = n) (hep : k.epoch = (s.slot n).chain.epoch) (hs : k.spent (s.engine e).ticks = true) :
    s.abandon n = ((s.engFree e).fbDropSvc k.handle false).substUnit n e k.q.unit 5 false := by
  subst he
  unfold State.abandon
  dsimp only
  rw [hf, hk]
  simp only [Bool.false_eq_true, if_false, Option.filter_some, hn, hep, hs, beq_self_eq_true, Bool.and_self, if_true]

/-- The head that waits for a buffer is given up. -/
theorem State.abandon_of_head {n : Nat} {q : QUnit} {qs : List QUnit} (he : (s.slot n).dec.engine = e) (hf : s.follower = false)
    (hk : (s.engine e).work = none) (hy : (s.engine e).yielded = none) (hq : (s.slot n).dec.queue = q :: qs) (ht : q.unit.token = none)
    (ho : q.overdue (s.engine e).ticks = true) : s.abandon n = (s.popUnit n).substUnit n e q.unit 5 false := by
  subst he
  unfold State.abandon
  dsimp only
  rw [hf, hk, hy, hq]
  simp [ht, ho]

end

end Sys2Proof.Machine

namespace Sys2Proof.Proofs
open Sys2Proof.Machine

/-- Settles O14. -/
theorem decodeEngine : Obligations.DecodeEngine := by
  intro s e dt hup w g
  have hslot : ∀ n, (w.slot n).dec = (s.slot n).dec ∧ (w.slot n).chain = (s.slot n).chain := fun n => by
    obtain ⟨c, hc⟩ := s.engTick_slot e dt n
    rw [show w.slot n = _ from hc]
    exact ⟨rfl, rfl⟩
  have hdone : ∀ d, Answers (.decodeComplete e dt d) s ((w.decodeDone e d).applyRedo (s.engSlot e)) := fun d => answers_whenUp rfl hup
  have habandon : ∀ n, (s.slot n).dec.engine = e → Answers (.decodeAbandon n dt) s ((w.abandon n).applyRedo n) := fun n he => by
    subst he
    exact answers_whenUp rfl hup
  have hfol : w.follower = s.follower := s.engTick_follower e dt
  refine ⟨fun k c => s.engTick_acct e dt, fun hdr bad hst he => ?_, fun hdr bad hst => ?_, fun k hst hk hy ha hc => ?_, fun hy => ?_, fun hst => ?_,
    fun hst => ?_, fun d k hst hk hep hd => ?_, fun d k hst hk hep hd hf => ?_, fun d k hst hk hep => ?_, fun n k he hf hk hn hep hs => ?_,
    fun n q qs t he hf hk hy hq ht hd ho => ?_⟩
  · intro u pick
    have hans : Answers (.decodePictureStart e dt hdr bad) s (w.decodeStart e hdr bad) := answers_whenUp rfl hup
    rw [State.decodeStart_of_idle hdr bad hst (by rw [s.engTick_decoderCount e dt]; exact he)] at hans
    refine ⟨fun n q hp => ?_, fun y hp hy => ?_, fun hp hy => ?_⟩
    · rw [show (w.heads e).find? (fun p => p.2.unit.token.isSome || (w.markWaits (w.heads e)).canTakeFb p.1) = _ from hp] at hans
      exact hans
    · rw [show (w.heads e).find? (fun p => p.2.unit.token.isSome || (w.markWaits (w.heads e)).canTakeFb p.1) = _ from hp,
        show (w.engine e).yielded = _ from hy] at hans
      exact hans
    · rw [show (w.heads e).find? (fun p => p.2.unit.token.isSome || (w.markWaits (w.heads e)).canTakeFb p.1) = _ from hp,
        show (w.engine e).yielded = _ from hy] at hans
      exact hans
  · exact answers_congr (answers_whenUp rfl hup) (if_pos (.inl hst))
  · exact answers_congr (answers_whenUp rfl hup) (State.decodeYield_of_slow hst hk hy ha hc)
  · exact answers_congr (answers_whenUp rfl hup) (State.decodeYield_of_yielded hy)
  · exact answers_congr (answers_whenUp rfl hup) (if_pos hst)
  · exact answers_congr (answers_whenUp rfl hup) (if_pos hst)
  · refine answers_congr (hdone d) ?_
    rw [s.engSlot_of_work e dt hk, State.decodeDone_of_work d hst hk, if_neg (not_not_intro hep), hd]
    rfl
  · refine answers_congr (hdone d) ?_
    rw [s.engSlot_of_work e dt hk, State.decodeDone_of_work d hst hk, if_neg (not_not_intro hep), hd, hfol, hf]
    rfl
  · refine answers_congr (hdone d) ?_
    rw [s.engSlot_of_work e dt hk, State.decodeDone_of_work d hst hk, if_pos hep]
  · refine answers_congr (habandon n he) ?_
    rw [State.abandon_of_work ((congrArg SlotDecode.engine (hslot n).1).trans he) (hfol.trans hf) hk hn (hep.trans (congrArg SlotChain.epoch (hslot n).2).symm)
      (Work.spent_of hs)]
  · refine answers_congr (habandon n he) ?_
    rw [State.abandon_of_head ((congrArg SlotDecode.engine (hslot n).1).trans he) (hfol.trans hf) hk hy hq ht (QUnit.overdue_of_deadline hd ho)]

end Sys2Proof.Proofs
end

