-- ==== Sys2Proof/Proofs/EvidenceRequests.lean ====
section
/-! PROOFS. Evidence requests, bindings and releases (R93 to R101, R110, R344). -/
namespace Sys2Proof.Machine
open Sys2Proof

/-! ### Holds -/

/-- A hold on a picture's buffer leaves the clips, requests and reservations. -/
theorem State.holdEv_keeps (s : State) (p : Pic) : (s.holdEv p).evid = s.evid ∧ (s.holdEv p).tkp.res = s.tkp.res := by
  unfold State.holdEv
  split
  · unfold State.fbTakeSvc State.fbTake
    dsimp only
    split
    next h =>
      split at h
      · cases h
      · split at h
        · cases h
        · cases h
          exact ⟨rfl, rfl⟩
    next h =>
      split at h
      · cases h
        simp [State.tkpFault]
      · split at h
        · cases h
          simp [State.tkpFault]
        · cases h
  · exact ⟨rfl, rfl⟩

theorem State.foldl_holdEv_keeps (l : List Pic) (s : State) : (l.foldl State.holdEv s).evid = s.evid ∧ (l.foldl State.holdEv s).tkp.res = s.tkp.res := by
  induction l generalizing s with
  | nil => exact ⟨rfl, rfl⟩
  | cons p l ih =>
    obtain ⟨h1, h2⟩ := ih (s.holdEv p)
    obtain ⟨h3, h4⟩ := s.holdEv_keeps p
    exact ⟨h1.trans h3, h2.trans h4⟩

/-! ### Bindings (R94, R99, R110) -/

/-- An engine has room for a rate of samples (R94). -/
abbrev State.encRoom (s : State) (e : Nat) (rate : Nat × Nat) : Prop := (ratSum [s.encLoad e, rate]).1 ≤ 500000000 * (ratSum [s.encLoad e, rate]).2

section
variable {s : State} {id no : Nat} {req : EvidReq}

/-- The rate of samples that a request asks for, the first picture that it can have, and its pages. -/
def State.askedRate (s : State) (req : EvidReq) : Nat × Nat :=
  (((s.slot req.slot).evidArea req).w * ((s.slot req.slot).evidArea req).h * (s.slot req.slot).cfg.stream.frNum, (s.slot req.slot).cfg.stream.frDen)

def State.askedFirst (s : State) (req : EvidReq) : Nat :=
  max (req.picture - req.preroll) ((((s.slot req.slot).ring.head?).map (·.seq)).getD (s.slot req.slot).dec.outSeq)

def State.askedPages (s : State) (req : EvidReq) : Nat :=
  clipPages (s.slot req.slot).cfg.evid (s.slot req.slot).cfg.stream.frNum (s.slot req.slot).cfg.stream.frDen (req.picture + req.postroll + 1 - s.askedFirst req)

def State.askedHeld (s : State) (req : EvidReq) : List Pic :=
  (s.slot req.slot).ring.filter (fun p => decide (s.askedFirst req ≤ p.seq) && decide (p.seq ≤ req.picture + req.postroll))

theorem State.mem_askedHeld {p : Pic} : p ∈ s.askedHeld req ↔
    p ∈ (s.slot req.slot).ring ∧ s.askedFirst req ≤ p.seq ∧ p.seq ≤ req.picture + req.postroll := by
  simp [State.askedHeld]

/-- The clip that a request is bound to on engine `e` with reservation `res`. -/
def State.askedClip (s : State) (id no : Nat) (req : EvidReq) (e res : Nat) : Clip where
  id := id
  slot := req.slot
  first := s.askedFirst req
  last := req.picture + req.postroll
  next := s.askedFirst req
  crop := (s.slot req.slot).evidArea req
  cfg := (s.slot req.slot).cfg.evid
  num := (s.slot req.slot).cfg.stream.frNum
  den := (s.slot req.slot).cfg.stream.frDen
  depth := (s.slot req.slot).cfg.stream.depth
  engine := e
  reqNo := no
  short := decide (req.picture - req.preroll < s.askedFirst req)
  pts := (((s.askedHeld req).head?).map (·.pts)).getD 0
  held := s.askedHeld req
  base := (s.slot req.slot).dec.outSeq
  fullness := firstFullness (s.slot req.slot).cfg.evid (s.slot req.slot).cfg.stream.frNum
  res := res
  host := req.host

/-- The state that a binding with reservation `res` makes of the state after the reservation. -/
def State.withClip (t : State) (c : Clip) : State :=
  { c.held.foldl State.holdEv t with evid := { (c.held.foldl State.holdEv t).evid with clips := (c.held.foldl State.holdEv t).evid.clips ++ [c] } }

theorem State.withClip_evid (t : State) (c : Clip) : (t.withClip c).evid = { t.evid with clips := t.evid.clips ++ [c] } := by
  unfold State.withClip
  dsimp only
  rw [(State.foldl_holdEv_keeps c.held t).1]

theorem State.withClip_reserv (t : State) (c : Clip) (n : Nat) : (t.withClip c).reserv n = t.reserv n :=
  congrArg (fun l : Tbl Reserv => tget ({} : Reserv) l n) (State.foldl_holdEv_keeps c.held t).2

theorem State.bindClip_eq : s.bindClip id no req =
    match (upto 0 2).find? (fun e => decide (s.encRoom e (s.askedRate req))) with
    | none => none
    | some e =>
      if !s.energyAdmits (clipEnergy ((s.slot req.slot).evidArea req).w ((s.slot req.slot).evidArea req).h
        (s.slot req.slot).cfg.stream.frNum (s.slot req.slot).cfg.stream.frDen) then some (fltRneBudget, s)
      else match s.reserve 2 (s.askedPages req) 0 s.mem.videoSet with
        | none => some (fltAdmitPool, s)
        | some (res, t) => some (0, if (s.askedHeld req).isEmpty ∧ req.picture + req.postroll < (s.slot req.slot).dec.outSeq
            then (t.withClip (s.askedClip id no req e res)).closeClip (s.askedClip id no req e res) true
            else t.withClip (s.askedClip id no req e res)) := by
  unfold State.bindClip
  extract_lets x first v area room last oldest first' held
  rw [show room = fun e => decide (s.encRoom e (s.askedRate req)) from rfl]
  cases (upto 0 2).find? (fun e => decide (s.encRoom e (s.askedRate req))) with
  | none => rfl
  | some e =>
    refine if_congr Iff.rfl rfl ?_
    rw [show clipPages x.cfg.evid v.frNum v.frDen (last + 1 - first') = s.askedPages req from rfl]
    cases hres : s.reserve 2 (s.askedPages req) 0 s.mem.videoSet with
    | none => rfl
    | some r => rfl


theorem find?_upto_two (p : Nat → Bool) : (upto 0 2).find? p = if p 0 then some 0 else if p 1 then some 1 else none := by
  change [0, 1].find? p = _
  simp only [List.find?_cons, List.find?_nil]
  cases p 0 <;> cases p 1 <;> rfl

/-- The lower-numbered engine with room. -/
theorem encRoom_find : ((¬ s.encRoom 0 (s.askedRate req) ∧ ¬ s.encRoom 1 (s.askedRate req)) ∧
      (upto 0 2).find? (fun e => decide (s.encRoom e (s.askedRate req))) = none) ∨
    ∃ e, (upto 0 2).find? (fun e => decide (s.encRoom e (s.askedRate req))) = some e ∧ e < 2 ∧
      s.encRoom e (s.askedRate req) ∧ (e = 0 ↔ s.encRoom 0 (s.askedRate req)) := by
  rw [find?_upto_two]
  by_cases h0 : s.encRoom 0 (s.askedRate req)
  · exact .inr ⟨0, if_pos (decide_eq_true h0), by decide, h0, iff_of_true rfl h0⟩
  · rw [if_neg (by simpa using h0)]
    by_cases h1 : s.encRoom 1 (s.askedRate req)
    · exact .inr ⟨1, if_pos (decide_eq_true h1), by decide, h1, iff_of_false (by decide) h0⟩
    · exact .inl ⟨⟨h0, h1⟩, if_neg (by simpa using h1)⟩

/-- No engine has room: no binding. -/
theorem State.bindClip_of_full (h0 : ¬ s.encRoom 0 (s.askedRate req)) (h1 : ¬ s.encRoom 1 (s.askedRate req)) :
    s.bindClip id no req = none := by
  rw [State.bindClip_eq]
  rcases encRoom_find (s := s) (req := req) with ⟨-, hfind⟩ | ⟨e, -, he, hroom, -⟩
  · rw [hfind]
  · interval_cases e <;> contradiction

/-- What a reservation makes (R413). -/
theorem State.reserve_spec {pool count cls channels n : Nat} {t : State} (h : s.reserve pool count cls channels = some (n, t)) :
    t = s.modReserv n (fun _ => { active := true, pool := pool, count := count, cls := cls, channels := channels }) := by
  unfold State.reserve at h
  split at h
  · split at h
    · dsimp only at h
      split at h
      · cases h
        rfl
      · cases h
    · cases h
  · cases h

/-- A binding succeeds with an engine that has room, the charge of its energy admitted and its pages reserved. -/
theorem State.bindClip_of_room (hroom : s.encRoom 0 (s.askedRate req) ∨ s.encRoom 1 (s.askedRate req))
    (henergy : s.energyAdmits (clipEnergy ((s.slot req.slot).evidArea req).w ((s.slot req.slot).evidArea req).h
      (s.slot req.slot).cfg.stream.frNum (s.slot req.slot).cfg.stream.frDen) = true)
    (hres : (s.reserve 2 (s.askedPages req) 0 s.mem.videoSet).isSome = true)
    (hcome : (s.slot req.slot).dec.outSeq ≤ req.picture + req.postroll) :
    ∃ e res t, s.bindClip id no req = some (0, t) ∧ t.evid = { s.evid with clips := s.evid.clips ++ [s.askedClip id no req e res] } ∧
      (e = 0 ↔ s.encRoom 0 (s.askedRate req)) ∧ e < 2 := by
  rcases encRoom_find (s := s) (req := req) with ⟨⟨h0, h1⟩, -⟩ | ⟨e, hfind, he, -, hiff⟩
  · exact absurd hroom (not_or.2 ⟨h0, h1⟩)
  · obtain ⟨⟨res, t⟩, ht⟩ := Option.isSome_iff_exists.1 hres
    refine ⟨e, res, t.withClip (s.askedClip id no req e res), ?_, ?_, hiff, he⟩
    · rw [State.bindClip_eq, hfind]
      refine (if_neg (by simp [henergy])).trans ?_
      rw [ht]
      exact congrArg (fun u => some (0, u)) (if_neg (fun h => absurd h.2 (by omega)))
    · rw [State.withClip_evid, State.reserve_spec ht]
      rfl

/-- What a binding made: the engine, the reservation, and the clip, ended at once where none of its pictures is held or to come. -/
theorem State.bindClip_spec {v : State} (h : s.bindClip id no req = some (0, v)) :
    ∃ e res, e < 2 ∧ s.encRoom e (s.askedRate req) ∧ (e = 1 → ¬ s.encRoom 0 (s.askedRate req)) ∧ ∃ t : State,
      t.evid = s.evid ∧ (t.reserv res).count = s.askedPages req ∧
      v = if (s.askedHeld req).isEmpty ∧ req.picture + req.postroll < (s.slot req.slot).dec.outSeq
        then (t.withClip (s.askedClip id no req e res)).closeClip (s.askedClip id no req e res) true
        else t.withClip (s.askedClip id no req e res) := by
  rw [State.bindClip_eq] at h
  rcases encRoom_find (s := s) (req := req) with ⟨-, hfind⟩ | ⟨e, hfind, he, hroom, hiff⟩
  · rw [hfind] at h
    cases h
  · rw [hfind] at h
    dsimp only at h
    split at h
    · cases h
    · split at h
      · cases h
      next res t ht =>
        refine ⟨e, res, he, hroom, fun h1 => fun h0 => absurd (hiff.2 h0) (by omega), t, ?_, ?_, ?_⟩
        · rw [State.reserve_spec ht]
          rfl
        · rw [State.reserve_spec ht]
          simp
        · exact (congrArg Prod.snd (Option.some.inj h)).symm

/-! ### A clip that ends at once, and releases (R101, R344) -/

theorem State.encStop_clips (u : State) (w : EncWork) : (u.encStop w).evid.clips = u.evid.clips := by
  unfold State.encStop
  refine foldl_keeps (fun u : State => u.evid.clips) _ (fun b e => ?_) _ _
  split <;> rfl

@[simp] theorem State.evidEntry_evid (u : State) (n sub id first last : Nat) (d : List Byte) : (u.evidEntry n sub id first last d).evid = u.evid := by
  unfold State.evidEntry State.chainLate
  split
  · rfl
  · split <;> rfl

@[simp] theorem State.endReserv_evid (u : State) (r : Nat) : (u.endReserv r).evid = u.evid := by
  unfold State.endReserv
  dsimp only
  rw [State.modReserv_evid]
  split
  · exact foldl_keeps (fun u : State => u.evid) State.pageToZero (fun _ _ => rfl) _ _
  · rfl

/-- A clip without a picture that ends leaves the list. -/
theorem State.closeClip_clips (t : State) {c : Clip} (henc : c.enc = 0) (hheld : c.held = []) :
    (t.closeClip c true).evid.clips = t.evid.clips.filter (fun d => d.id != c.id) := by
  unfold State.closeClip
  extract_lets s1 ev s2 s3 s4 last s5
  refine (congrArg (fun u : State => u.evid.clips) (if_pos henc)).trans ?_
  have h4 : s4 = s3 := by
    rw [show s4 = c.held.foldl State.dropEv s3 from rfl, hheld]
    rfl
  have h3 : s3.evid.clips = s2.evid.clips := by
    refine foldl_keeps (fun u : State => u.evid.clips) _ (fun b e => ?_) _ _
    split <;> rfl
  have h5 : s5.evid = s4.evid := State.evidEntry_evid _ _ _ _ _ _ _
  rw [State.endReserv_evid, h5, h4, h3]
  exact congrArg (List.filter _) (State.encStop_clips t _)

end

section
variable {s : State} {req : EvidReq} (hready : s.ready = true)

theorem State.askClip_of_refused {code : Nat} (h : s.evidCheck req = some code) : s.askClip req = (code, 0, s.evidRefuse req code) := by
  rw [State.askClip, h]
  rfl

theorem State.askSnap_of_refused {code : Nat} (h : s.evidCheck req = some code) : s.askSnap req = (code, 0, s.evidRefuse req code) := by
  rw [State.askSnap, h]

theorem State.askClip_of_unfit (h : s.evidCheck req = none) (hfit : s.clipFits req = false) :
    s.askClip req = (fltVenParam, 0, s.evidRefuse req fltVenParam) := by
  rw [State.askClip, h, hfit] <;> rfl

/-- A request that no check refuses goes on with the slot's open clip. -/
theorem State.askClip_of_fits (h : s.evidCheck req = none) (hfit : s.clipFits req = true) : s.askClip req =
    match s.openClip req.slot with
    | none => s.newClip req
    | some c =>
      match s.resizeReserv c.res (clipPages c.cfg c.num c.den (min (max c.last (req.picture + req.postroll)) (c.first + 1199) + 1 - c.first)) with
      | none => (fltAdmitPool, 0, s.evidRefuse req fltAdmitPool)
      | some s' =>
        if min (max c.last (req.picture + req.postroll)) (c.first + 1199) = max c.last (req.picture + req.postroll) then
          (0, c.id, s'.modClip c.id (fun c' => { c' with last := min (max c.last (req.picture + req.postroll)) (c.first + 1199) }))
        else (s'.modClip c.id (fun c' => { c' with last := min (max c.last (req.picture + req.postroll)) (c.first + 1199) })).newClip
          { req with
            picture := min (max c.last (req.picture + req.postroll)) (c.first + 1199) + 1, preroll := 0
            postroll := max c.last (req.picture + req.postroll) - (min (max c.last (req.picture + req.postroll)) (c.first + 1199) + 1) } := by
  rw [State.askClip, h, hfit] <;> rfl

theorem State.evidRelease_eq {id : Nat} {o : EvidOut} (h : s.evid.outs.find? (fun o => o.id == id) = some o) :
    s.evidRelease id = State.endReserv { s with evid := { s.evid with outs := s.evid.outs.filter (fun o => o.id != id) } } o.res := by
  rw [State.evidRelease, h]

/-- Outside shedding and standby a request of legal lengths, without a crop, of a rule or of a picture in the ring is taken. -/
theorem State.evidCheck_none (hstep : s.pwr.step = 0) (hadm : s.noAdmission = false) (hpre : req.preroll ≤ 300) (hpost : req.postroll ≤ 900)
    (hcrop : req.crop = none) (hring : req.host = none ∨ ∃ p ∈ (s.slot req.slot).ring, p.seq = req.picture) : s.evidCheck req = none := by
  have hshed : s.evidShed = false := by simp [State.evidShed, hstep]
  have hhost : (req.host.isSome && !(s.slot req.slot).inRing req.picture) = false := by
    rcases hring with h | ⟨p, hp, hseq⟩
    · simp [h]
    · have : (s.slot req.slot).inRing req.picture = true := List.any_eq_true.2 ⟨p, hp, by simpa using hseq⟩
      simp [this]
  simp [State.evidCheck, hshed, hadm, hcrop, hhost]
  omega

theorem State.newClip_of_bound {t : State} (h : (s.evidNumber).2.2.bindClip s.evid.nextId s.evid.nextReq req = some (0, t)) :
    s.newClip req = (0, s.evid.nextId, t) := by
  unfold State.newClip
  dsimp only [State.evidNumber] at h ⊢
  rw [h] <;> rfl

theorem State.newClip_of_unbound (h : (s.evidNumber).2.2.bindClip s.evid.nextId s.evid.nextReq req = none) : s.newClip req =
    if s.evid.queue.length < 16 then (0, s.evid.nextId,
      { (s.evidNumber).2.2 with evid := { (s.evidNumber).2.2.evid with queue := s.evid.queue ++ [(s.evid.nextId, s.evid.nextReq, req)] } })
    else (fltVenBusy, 0, s.evidRefuse req fltVenBusy) := by
  unfold State.newClip
  dsimp only [State.evidNumber] at h ⊢
  rw [h]

/-- No open clip takes the request: a new one. -/
theorem State.askClip_of_new (h : s.evidCheck req = none) (hcrop : req.crop = none)
    (hclosed : ∀ c ∈ s.evid.clips, c.slot = req.slot → c.last < (s.slot req.slot).dec.outSeq) : s.askClip req = s.newClip req := by
  have hopen : s.openClip req.slot = none :=
    List.find?_eq_none.2 (fun c hc => by
      have := hclosed c hc
      simp
      exact this)
  rw [State.askClip_of_fits h (by simp [State.clipFits, hcrop]), hopen]

/-- The snapshot that a request for picture `p` makes. -/
def State.askedSnap (s : State) (req : EvidReq) (p : Pic) (id no res : Nat) : Snapshot where
  id := id
  slot := req.slot
  pic := p
  crop := (s.slot req.slot).evidArea req
  q := (s.slot req.slot).cfg.evid.jpegQ
  maxBytes := (s.slot req.slot).cfg.evid.snapMax
  reqNo := no
  res := res

/-- The state that a snapshot leaves of the state after its reservation. -/
def State.withSnap (u : State) (p : Pic) (k : Snapshot) : State :=
  let t := (u.evidNumber).2.2.holdEv p
  { t with evid := { t.evid with snaps := t.evid.snaps ++ [k] } }

theorem State.withSnap_snaps (u : State) (p : Pic) (k : Snapshot) : (u.withSnap p k).evid.snaps = u.evid.snaps ++ [k] :=
  have h : ((u.evidNumber).2.2.holdEv p).evid.snaps = (u.evidNumber).2.2.evid.snaps := congrArg Evid.snaps ((u.evidNumber).2.2.holdEv_keeps p).1
  congrArg (· ++ [k]) h

theorem State.askSnap_eq {p : Pic} (hnone : s.evidCheck req = none)
    (hp : (s.slot req.slot).ring.find? (fun p => p.seq == req.picture) = some p) : s.askSnap req =
    match s.reserve 2 (ceilDiv (s.slot req.slot).cfg.evid.snapMax pageSize + 1) 0 s.mem.videoSet with
    | none => (fltAdmitPool, 0, s.evidRefuse req fltAdmitPool)
    | some (res, u) => (0, u.evid.nextId, u.withSnap p (s.askedSnap req p u.evid.nextId u.evid.nextReq res)) := by
  unfold State.askSnap
  extract_lets x no
  rw [hnone, show x = s.slot req.slot from rfl, hp]
  cases s.reserve 2 (ceilDiv (s.slot req.slot).cfg.evid.snapMax pageSize + 1) 0 s.mem.videoSet with
  | none => rfl
  | some r => rfl

/-- A snapshot takes its picture, with a reservation for its output (R96, R110). -/
theorem State.askSnap_of_held {p : Pic} (hnone : s.evidCheck req = none) (hp : (s.slot req.slot).ring.find? (fun p => p.seq == req.picture) = some p)
    (hres : (s.reserve 2 (ceilDiv (s.slot req.slot).cfg.evid.snapMax pageSize + 1) 0 s.mem.videoSet).isSome = true) :
    ∃ t k, s.askSnap req = (0, s.evid.nextId, t) ∧ t.evid.snaps = s.evid.snaps ++ [k] ∧ k.id = s.evid.nextId ∧
      k.pic = p ∧ k.q = (s.slot req.slot).cfg.evid.jpegQ ∧ k.slot = req.slot ∧ k.maxBytes = (s.slot req.slot).cfg.evid.snapMax := by
  obtain ⟨⟨res, u⟩, hu⟩ := Option.isSome_iff_exists.1 hres
  have hev : u.evid = s.evid := by rw [State.reserve_spec hu]; rfl
  have hid : u.evid.nextId = s.evid.nextId := congrArg Evid.nextId hev
  refine ⟨u.withSnap p (s.askedSnap req p u.evid.nextId u.evid.nextReq res), s.askedSnap req p u.evid.nextId u.evid.nextReq res, ?_, ?_, hid, rfl, rfl, rfl, rfl⟩
  · rw [State.askSnap_eq hnone hp, hu, ← hid]
  · rw [State.withSnap_snaps, hev]

/-- A rule's request for a picture that is gone (assumption 122). -/
theorem State.askSnap_of_gone (hnone : s.evidCheck req = none) (hgone : ∀ p ∈ (s.slot req.slot).ring, p.seq ≠ req.picture) :
    s.askSnap req = (0, 0, s.evidGone req) := by
  have hfind : (s.slot req.slot).ring.find? (fun p => p.seq == req.picture) = none :=
    List.find?_eq_none.2 (fun p hp => by simpa using hgone p hp)
  rw [State.askSnap, hnone, hfind]

end

end Sys2Proof.Machine

namespace Sys2Proof.Proofs
open Sys2Proof.Machine

/-- Settles O16. -/
theorem evidenceRequestsAndBinding : Obligations.EvidenceRequestsAndBinding := by
  unfold Obligations.EvidenceRequestsAndBinding
  refine ⟨fun s req hready => ⟨fun code h => ⟨?_, ?_⟩, fun h => ?_, fun h hfit => ?_, ?_, ?_⟩, ?_, ?_, ?_⟩
  · exact answers_congr (answers_whenReady rfl hready) (congrArg (evidAnswer req) (State.askClip_of_refused h))
  · exact answers_congr (answers_whenReady rfl hready) (congrArg (evidAnswer req) (State.askSnap_of_refused h))
  · simp [State.evidCheck, h]
  · exact answers_congr (answers_whenReady rfl hready) (congrArg (evidAnswer req) (State.askClip_of_unfit h hfit))
  · intro c v hnone hfit hopen want last hres u
    have hask := State.askClip_of_fits hnone hfit
    rw [hopen] at hask
    dsimp only at hask
    rw [hres] at hask
    refine ⟨fun hw => ?_, fun hw => ?_⟩
    · exact answers_congr (answers_whenReady rfl hready) (congrArg (evidAnswer req) (hask.trans (if_pos (min_eq_left hw))))
    · have hlast : min want (c.first + 1199) = c.first + 1199 := min_eq_right hw.le
      refine answers_congr (answers_whenReady rfl hready) (congrArg (evidAnswer req) (hask.trans ((if_neg ?_).trans ?_)))
      · exact fun he => absurd (hlast.symm.trans he) (by omega)
      · exact congrArg (fun n => u.newClip { req with picture := n + 1, preroll := 0, postroll := want - (n + 1) }) hlast
  · intro id o ho t
    exact ⟨answers_congr (answers_whenReady rfl hready) (State.evidRelease_eq ho), answers_congr (answers_whenReady rfl hready) (State.evidRelease_eq ho)⟩
  · intro s req hready hstep hadm hpre hpost hcrop x v area first last room pages id u
    refine ⟨fun hring hclosed => ?_, fun p hp hres => ?_, fun hhost hgone => ?_⟩
    · have hask := State.askClip_of_new (s.evidCheck_none hstep hadm hpre hpost hcrop hring) hcrop hclosed
      refine ⟨fun hroom henergy hres hcome => ?_, fun h0 h1 hq => ?_, fun h0 h1 hq => ?_⟩
      · obtain ⟨e, res, t, hbind, hev, hiff, he⟩ := State.bindClip_of_room (s := u) (id := id) (no := s.evid.nextReq) (req := req) hroom henergy hres hcome
        exact ⟨t, u.askedClip id s.evid.nextReq req e res,
          answers_congr (answers_whenReady rfl hready) (congrArg (evidAnswer req) (hask.trans (State.newClip_of_bound hbind))),
          congrArg Evid.clips hev, rfl, rfl, rfl, rfl, hiff, he⟩
      · exact answers_congr (answers_whenReady rfl hready) (congrArg (evidAnswer req)
          (hask.trans ((State.newClip_of_unbound (State.bindClip_of_full (s := u) h0 h1)).trans (if_pos hq))))
      · exact answers_congr (answers_whenReady rfl hready) (congrArg (evidAnswer req)
          (hask.trans ((State.newClip_of_unbound (State.bindClip_of_full (s := u) h0 h1)).trans (if_neg (by omega)))))
    · have hring : req.host = none ∨ ∃ p ∈ (s.slot req.slot).ring, p.seq = req.picture :=
        .inr ⟨p, List.mem_of_find?_eq_some hp, by simpa using List.find?_some hp⟩
      obtain ⟨t, k, hask, hk⟩ := State.askSnap_of_held (s.evidCheck_none hstep hadm hpre hpost hcrop hring) hp hres
      exact ⟨t, k, answers_congr (answers_whenReady rfl hready) (congrArg (evidAnswer req) hask), hk⟩
    · have hask := State.askSnap_of_gone (s.evidCheck_none hstep hadm hpre hpost hcrop (.inl hhost)) hgone
      refine answers_congr (answers_whenReady rfl hready) ((congrArg (evidAnswer req) hask).trans ?_)
      rw [evidAnswer, hhost]
      rfl
  · intro s id no req rest hready hqueue x v area first last room
    refine ⟨fun hroom henergy hres hcome => ?_, fun h0 h1 => ?_⟩
    · obtain ⟨e, res, t, hbind, hev, hiff, he⟩ := State.bindClip_of_room (s := s) (id := id) (no := no) (req := req) hroom henergy hres hcome
      have hdone : s.clipBind = { t with evid := { t.evid with queue := rest } } := by
        rw [State.clipBind, hqueue]
        dsimp only
        rw [hbind]
        rfl
      exact reaches_of_answers (answers_congr (answers_whenReady rfl hready) hdone)
        ⟨rfl, s.askedClip id no req e res, congrArg Evid.clips hev, rfl, rfl, rfl, rfl, hiff, he⟩
    · refine answers_congr (answers_whenReady rfl hready) ?_
      rw [State.clipBind, hqueue]
      dsimp only
      rw [State.bindClip_of_full h0 h1]
  · intro s v id no req hbind x first start last
    obtain ⟨e, res, he, hroom, hone, t, hev, hcount, rfl⟩ := State.bindClip_spec hbind
    refine ⟨fun hcome => ?_, fun hnone hpast hfresh => ?_⟩
    · have hopen : ¬ ((s.askedHeld req).isEmpty ∧ req.picture + req.postroll < (s.slot req.slot).dec.outSeq) := by
        rintro ⟨hempty, hpast⟩
        rcases hcome with ⟨p, hp, h1, h2⟩ | hcome
        · have : p ∈ s.askedHeld req := State.mem_askedHeld.2 ⟨hp, h1, h2⟩
          rw [List.isEmpty_iff.1 hempty] at this
          cases this
        · exact Nat.not_lt.2 hcome hpast
      rw [if_neg hopen]
      refine ⟨s.askedClip id no req e res, ?_, rfl, rfl, rfl, rfl, rfl, rfl, ?_, ?_, ?_, he, hroom, ?_, ?_⟩
      · rw [State.withClip_evid, hev]
      · exact decide_eq_true_iff
      · exact fun p => State.mem_askedHeld.1
      · exact fun p hp h1 h2 => State.mem_askedHeld.2 ⟨hp, h1, h2⟩
      · intro h1
        exact Nat.lt_of_not_le (hone h1)
      · rw [State.withClip_reserv]
        exact hcount
    · have hheld : s.askedHeld req = [] := List.eq_nil_iff_forall_not_mem.2 (fun p hp =>
        hnone p (State.mem_askedHeld.1 hp).1 (State.mem_askedHeld.1 hp).2)
      rw [if_pos ⟨List.isEmpty_iff.2 hheld, hpast⟩, State.closeClip_clips _ rfl hheld, State.withClip_evid, hev]
      have hkeep : s.evid.clips.filter (fun d => d.id != id) = s.evid.clips := List.filter_eq_self.2 (fun c hc => by simpa using hfresh c hc)
      exact (List.filter_append _ _).trans (by simp [State.askedClip, hkeep])

end Sys2Proof.Proofs

end

