-- ==== Sys2Proof/Proofs/EncodeEngines.lean ====
section
/-! PROOFS. The encode engines and the CPB (R95, R103 to R109, R112). -/
namespace Sys2Proof.Machine
open Sys2Proof

/-! ### A dropped hold -/

theorem State.ServiceStep.evid {s t : State} (h : s.ServiceStep t) : t.evid = s.evid := by
  obtain ⟨_, _, _, _, _, _, _, _, _, _, _, _, rfl⟩ := h
  rfl

@[simp] theorem State.dropEv_evid (s : State) (p : Pic) : (s.dropEv p).evid = s.evid := by
  unfold State.dropEv
  split
  · exact (s.serviceStep_fbDropSvc _ _).evid
  · rfl

@[simp] theorem State.endReserv_slots (s : State) (r : Nat) : (s.endReserv r).slots = s.slots := by
  unfold State.endReserv
  dsimp only
  rw [State.modReserv_slots]
  split
  · exact foldl_keeps (fun u : State => u.slots) State.pageToZero (fun _ _ => rfl) _ _
  · rfl

@[simp] theorem State.settleExtent_slots (s : State) (id : Nat) : (s.settleExtent id).slots = s.slots := by
  unfold State.settleExtent
  split
  · split
    · refine (State.endReserv_slots _ _).trans ?_
      exact foldl_keeps (fun u : State => u.slots) (fun s i => s.modFb i (fun f => { gen := f.gen })) (fun _ _ => rfl) _ _
    · rfl
  · rfl

@[simp] theorem State.fbDrop_slots (s : State) (h : Nat) (ev : Bool) : (s.fbDrop h ev).2.slots = s.slots := by
  unfold State.fbDrop
  split
  · rfl
  · rw [apply_ite Prod.snd, apply_ite State.slots]
    refine (ite_congr rfl (fun _ => rfl) (fun _ => ?_)).trans (ite_self _)
    dsimp only
    split
    · rw [State.settleExtent_slots, State.modFb_slots]
    · rfl

@[simp] theorem State.dropEv_slots (s : State) (p : Pic) : (s.dropEv p).slots = s.slots := by
  unfold State.dropEv State.fbDropSvc
  split
  next h _ =>
    have hdrop := s.fbDrop_slots h true
    split <;> rename_i heq <;> rw [heq] at hdrop
    · exact hdrop
    · rw [State.tkpFault, State.raise_slots]
      exact hdrop
  · rfl

/-! ### The choice of work (R95) -/

theorem minBy_spec {α : Type} (key : α → Nat) {l : List α} (h : l ≠ []) : ∃ x ∈ l, minBy key l = some x ∧ ∀ y ∈ l, key x ≤ key y := by
  induction l with
  | nil => exact absurd rfl h
  | cons a t ih =>
    rw [minBy]
    rcases eq_or_ne t [] with rfl | ht
    · exact ⟨a, List.mem_cons_self, rfl, fun y hy => (List.mem_singleton.1 hy) ▸ le_refl _⟩
    · obtain ⟨x, hx, hmin, hle⟩ := ih ht
      rw [hmin]
      dsimp only
      by_cases hax : key a ≤ key x
      · rw [if_pos hax]
        exact ⟨a, List.mem_cons_self, rfl, fun y hy => (List.mem_cons.1 hy).elim (fun e => e ▸ le_refl _) fun hy => hax.trans (hle y hy)⟩
      · rw [if_neg hax]
        exact ⟨x, List.mem_cons_of_mem _ hx, rfl, fun y hy => (List.mem_cons.1 hy).elim (fun e => e ▸ by omega) fun hy => hle y hy⟩

section
variable (s : State) (e dt : Nat)

@[simp] theorem State.encTick_work (k : Nat) : ((s.encTick e dt).encEngine k).work = (s.encEngine k).work := by
  unfold State.encTick
  by_cases hk : k = e
  · subst hk
    rw [State.modEnc_encEngine]
  · rw [State.modEnc_encEngine_ne _ _ hk]

theorem State.encTick_taken (x : EncWork) : EncWork.taken (s.encTick e dt) x = EncWork.taken s x := by
  unfold EncWork.taken
  simp

/-- The work that waits for an engine, with its keys. -/
def State.encWorks : List (Nat × EncWork × Nat) :=
  (s.evid.snaps.filter (fun k => !EncWork.taken s (.snap k.id))).map
    (fun k => (workKey (s.slot k.slot).cfg.stream.priority 0 k.reqNo k.slot, EncWork.snap k.id, k.slot)) ++
  (s.evid.clips.filter (fun c => c.engine == e && c.ready)).map
    (fun c => (workKey (s.slot c.slot).cfg.stream.priority 1 c.reqNo c.slot, EncWork.clip c.id, c.slot))

theorem State.nextWork_eq : s.nextWork e = (minBy (fun w => w.1) (s.encWorks e)).map (·.2) := rfl

theorem State.mem_encWorks {key : Nat} {x : EncWork} {n : Nat} : (key, x, n) ∈ s.encWorks e ↔
    (∃ k ∈ s.evid.snaps, EncWork.taken s (.snap k.id) = false ∧ x = .snap k.id ∧ n = k.slot ∧
      key = workKey (s.slot n).cfg.stream.priority 0 k.reqNo n) ∨
    (∃ c ∈ s.evid.clips, c.engine = e ∧ c.ready = true ∧ x = .clip c.id ∧ n = c.slot ∧
      key = workKey (s.slot n).cfg.stream.priority 1 c.reqNo n) := by
  unfold State.encWorks
  simp only [List.mem_append, List.mem_map, List.mem_filter, Bool.not_eq_true', Bool.and_eq_true, beq_iff_eq, Prod.mk.injEq]
  constructor
  · rintro (⟨k, ⟨hk, ht⟩, rfl, rfl, rfl⟩ | ⟨c, ⟨hc, he, hr⟩, rfl, rfl, rfl⟩)
    · exact .inl ⟨k, hk, ht, rfl, rfl, rfl⟩
    · exact .inr ⟨c, hc, he, hr, rfl, rfl, rfl⟩
  · rintro (⟨k, hk, ht, rfl, rfl, rfl⟩ | ⟨c, hc, he, hr, rfl, rfl, rfl⟩)
    · exact .inl ⟨k, ⟨hk, ht⟩, rfl, rfl, rfl⟩
    · exact .inr ⟨c, ⟨hc, he, hr⟩, rfl, rfl, rfl⟩

theorem State.encWorks_encTick : (s.encTick e dt).encWorks e = s.encWorks e := by
  unfold State.encWorks
  simp only [State.encTick_taken]
  rfl

/-- The work that stands first is the next. -/
theorem State.nextWork_of_first {key : Nat} {x : EncWork} {n : Nat} (hmem : (key, x, n) ∈ s.encWorks e)
    (hfirst : ∀ key' x' n', (key', x', n') ∈ s.encWorks e → key < key' ∨ (x' = x ∧ n' = n)) : s.nextWork e = some (x, n) := by
  obtain ⟨⟨key', x', n'⟩, hw, hmin, hle⟩ := minBy_spec (fun w => w.1) (List.ne_nil_of_mem hmem)
  rw [State.nextWork_eq, hmin]
  rcases hfirst key' x' n' hw with h | ⟨rfl, rfl⟩
  · exact absurd (hle _ hmem) (Nat.not_le.2 h)
  · rfl

theorem State.nextWork_none (h : ∀ key x n, (key, x, n) ∉ s.encWorks e) : s.nextWork e = none := by
  have hnil : s.encWorks e = [] := List.eq_nil_iff_forall_not_mem.2 (fun ⟨key, x, n⟩ => h key x n)
  rw [State.nextWork_eq, hnil]
  rfl

variable {s e}

theorem State.encodeStart_busy (h : (s.encEngine e).st ≠ 0) : s.encodeStart e = s := if_pos (.inl h)

theorem State.encodeStart_none (h : s.nextWork e = none) : s.encodeStart e = s := by
  unfold State.encodeStart
  dsimp only
  split
  · rfl
  · rw [h]

/-- The engine with new work. -/
def State.encTake (s : State) (e : Nat) (x : EncWork) (n : Nat) : State :=
  s.modEnc e (fun g => { g with work := some x, slotShown := n, pass := 0 })

theorem State.encodeStart_snap {k n : Nat} (hst : (s.encEngine e).st = 0) (he : e < 2) (h : s.nextWork e = some (.snap k, n)) :
    s.encodeStart e = (s.encTake e (.snap k) n).modEnc e (fun g => { g with st := 1 }) := by
  unfold State.encodeStart
  refine (if_neg (by omega)).trans ?_
  rw [h] <;> rfl

theorem State.encodeStart_clip {id n : Nat} {c : Clip} (hst : (s.encEngine e).st = 0) (he : e < 2) (h : s.nextWork e = some (.clip id, n))
    (hc : s.clipOf id = some c) : s.encodeStart e =
      if (s.encEngine e).lastClip = some id then (s.encTake e (.clip id) n).modEnc e (fun g => { g with st := 1 })
      else if (s.encEngine e).lastClip.isSome then
        (s.encTake e (.clip id) n).modEnc e (fun g => { g with st := 2, switches := (g.switches + 1) % 2 ^ 64 })
      else (s.encTake e (.clip id) n).turnTo e c := by
  unfold State.encodeStart
  refine (if_neg (by omega)).trans ?_
  rw [h]
  dsimp only
  rw [show (s.modEnc e (fun g => { g with work := some (.clip id), slotShown := n, pass := 0 })).clipOf id = some c from hc] <;> rfl

theorem State.encodeSaved_of {id : Nat} {c : Clip} (hst : (s.encEngine e).st = 2) (hw : (s.encEngine e).work = some (.clip id))
    (hc : s.clipOf id = some c) : s.encodeSaved e = s.turnTo e c := by
  simp only [State.encodeSaved, hst, hw, hc]

/-! ### A clip's picture (R106 to R109) -/

/-- A clip with its next picture coded. -/
def Clip.grown (c : Clip) (p : ClipPic) (o : PassOutput) (bmin : Nat) : Clip :=
  { c with
    enc := c.enc + 1, next := c.next + 1, output := c.coded 0, marks := c.marks ||| p.marks
    tail := some ⟨o.head, o.body ++ fillerNal (fillerOf bmin o.bits), (p.pic.map (·.pts)).getD 0, c.next, p.marks + 16 * b2n c.short⟩
    recon := Config.reconstruct c.recon o.body
    fullness := cpbNext c.cfg c.num c.den c.fullness (o.bits + 8 * fillerOf bmin o.bits)
    held := c.held.filter (fun q => q.seq != c.next), droppedPics := c.droppedPics.filter (fun q => q.seq != c.next) }

theorem Clip.grown_coded (c : Clip) (p : ClipPic) (o : PassOutput) (bmin : Nat) :
    (c.grown p o bmin).coded 0 = c.coded 0 ++ (o.head ++
      tagSei (evidTag c.id c.slot ((p.pic.map (·.pts)).getD 0) c.next (p.marks + 16 * b2n c.short)) ++ (o.body ++ fillerNal (fillerOf bmin o.bits))) := by
  rw [show ∀ d : Clip, d.coded 0 = d.output ++ match d.tail with
    | some t => t.head ++ tagSei (evidTag d.id d.slot t.pts t.seq (t.flags ||| 0)) ++ t.body
    | none => [] from fun _ => rfl]
  dsimp only [Clip.grown]
  rw [Nat.or_zero]

@[simp] theorem State.chainLate_evid (u : State) (n : Nat) (x : Entry) : (u.chainLate n x).evid = u.evid := by
  unfold State.chainLate
  split <;> rfl

@[simp] theorem State.encFailed_evid (u : State) (n : Nat) (p : Option Pic) (cache : Bool) : (u.encFailed e n p cache).evid = u.evid := by
  unfold State.encFailed
  split
  · rfl
  · rw [State.chainLate_evid, State.raise_evid]

theorem State.counts_evid (u : State) (n : Nat) (l : List (Nat × Nat)) : (u.counts n l).evid = u.evid :=
  foldl_keeps (fun u : State => u.evid) (fun (s : State) (c : Nat × Nat) => s.count n c.1 c.2) (fun _ _ => rfl) _ _

/-- Clips and engines after a coded picture that is not the clip's last. -/
theorem State.clipCoded_evid {c : Clip} (p : ClipPic) (cache : Bool) (pass : Nat) (o : PassOutput) (bmin : Nat) (hlast : c.next < c.last) :
    (s.clipCoded e c p cache pass o bmin).evid = ((s.modClip c.id (fun _ => c.grown p o bmin)).encFree e).evid := by
  unfold State.clipCoded
  extract_lets s1 fill s2 c' s3 s4 s5
  have h2 : s2.evid = s.evid := by
    rw [show s2.evid = s1.evid from State.counts_evid s1 _ _, show s1 = if p.failed then s.encFailed e c.slot p.pic cache else s from rfl]
    split
    · exact State.encFailed_evid _ _ _ _
    · rfl
  have h4 : s4.evid = s3.evid := by
    rw [show s4 = match c.held.find? (fun q => q.seq == c.next) with
      | some q => s3.dropEv q
      | none => s3 from rfl]
    split
    · exact State.dropEv_evid _ _
    · rfl
  refine (congrArg State.evid (if_neg (Nat.not_lt.2 hlast))).trans ?_
  have h5 : ∀ t u : State, t.evid = u.evid → (t.encFree e).evid = (u.encFree e).evid := by
    intro t u h
    unfold State.encFree State.modEnc
    dsimp only
    rw [h]
  refine h5 s4 _ (h4.trans ?_)
  have h3 : ∀ t u : State, t.evid = u.evid → (t.modClip c.id (fun _ => c')).evid = (u.modClip c.id (fun _ => c')).evid := by
    intro t u h
    unfold State.modClip
    dsimp only
    rw [h]
  exact h3 s2 s h2

/-- A pass over a picture beyond bmax: the next one begins (R108). -/
theorem State.encodeDone_next {id : Nat} {c : Clip} (r : SourceRead) (hst : (s.encEngine e).st = 1) (hw : (s.encEngine e).work = some (.clip id))
    (hc : s.clipOf id = some c) : s.encodeDone e r = s.passDone e c r := by
  simp only [State.encodeDone, hst, hw, hc]

theorem State.clipSource_evid (c : Clip) (p : ClipPic) : (s.clipSource c p).2.evid = s.evid := by
  unfold State.clipSource
  dsimp only
  split <;> rfl

/-! ### Snapshots (R111, R112) -/

theorem State.snapDone_of {id : Nat} {k : Snapshot} (failed cache : Bool) (hst : (s.encEngine e).st = 1)
    (hw : (s.encEngine e).work = some (.snap id)) (hk : s.evid.snaps.find? (fun k => k.id == id) = some k) :
    s.snapDone e failed cache = s.snapCoded e k failed cache := by
  simp only [State.snapDone, hst, hw, hk]

/-- The state with a snapshot's image made: the free value of lost samples, and the record of their loss. -/
def State.snapMade (s : State) (e : Nat) (k : Snapshot) (failed cache : Bool) : State :=
  if failed then (s.snapImage k failed).2.encFailed e k.slot (some k.pic) cache else (s.snapImage k failed).2

theorem State.snapMade_evid (k : Snapshot) (failed cache : Bool) : (s.snapMade e k failed cache).evid = s.evid := by
  unfold State.snapMade
  cases failed with
  | false => rfl
  | true => exact (State.encFailed_evid (s.snapImage k true).2 k.slot (some k.pic) cache).trans rfl

@[simp] theorem State.chainLate_counters (u : State) (n : Nat) (x : Entry) (k : Nat) :
    ((u.chainLate n x).slot k).counters = (u.slot k).counters := by
  unfold State.chainLate
  split
  · rfl
  · by_cases hk : k = n
    · subst hk
      rw [State.modChain, State.modSlot_slot]
    · rw [State.modChain, State.modSlot_slot_ne _ _ hk]

theorem State.snapMade_counters (k : Snapshot) (failed cache : Bool) (n : Nat) :
    ((s.snapMade e k failed cache).slot n).counters = (s.slot n).counters := by
  unfold State.snapMade State.snapImage State.encFailed
  cases failed with
  | false => rfl
  | true =>
    refine (State.chainLate_counters _ _ _ _).trans ?_
    rw [State.slot, State.raise_slots]
    rfl

/-- The state without a snapshot, its engine free and its hold dropped. -/
def State.snapGone (s : State) (e : Nat) (k : Snapshot) : State :=
  (State.encFree { s with evid := { s.evid with snaps := s.evid.snaps.filter (fun j => j.id != k.id) } } e).dropEv k.pic

/-- The state after a snapshot that is given up. -/
def State.snapLost (s : State) (e : Nat) (k : Snapshot) (failed cache : Bool) : State :=
  ((((s.snapMade e k failed cache).snapGone e k).raise { code := fltVenSnapSize, unit := 0x5000 + e, detail := k.slot, slot := k.slot }).count
    k.slot 0x49 1).endReserv k.res

theorem State.snapLost_evid (k : Snapshot) (failed cache : Bool) : (s.snapLost e k failed cache).evid =
    (State.encFree { s.snapMade e k failed cache with
      evid := { (s.snapMade e k failed cache).evid with snaps := (s.snapMade e k failed cache).evid.snaps.filter (fun j => j.id != k.id) } } e).evid := by
  unfold State.snapLost State.snapGone
  rw [State.endReserv_evid, State.count_evid, State.raise_evid, State.dropEv_evid]

theorem State.snapLost_counter (k : Snapshot) (failed cache : Bool) :
    tget 0 ((s.snapLost e k failed cache).slot k.slot).counters 0x49 = (tget 0 (s.slot k.slot).counters 0x49 + 1) % 2 ^ 64 := by
  have hgone : (((s.snapMade e k failed cache).snapGone e k).slot k.slot).counters = (s.slot k.slot).counters := by
    rw [← s.snapMade_counters k failed cache k.slot (e := e)]
    exact congrArg (fun l : Tbl Slot => (tget ({} : Slot) l k.slot).counters) (State.dropEv_slots _ _)
  rw [← hgone, State.snapLost, State.slot, State.endReserv_slots, ← State.slot, State.count_slot]
  dsimp only
  rw [tget_tmod_same, State.slot, State.raise_slots] <;> rfl

theorem State.snapCoded_eq (k : Snapshot) (failed cache : Bool) : s.snapCoded e k failed cache =
    if k.maxBytes < (s.snapImage k failed).1.length ∧ k.tries < 2 then
      { (s.snapMade e k failed cache).modEnc e (fun g => { g with pass := k.tries + 1 }) with
        evid := { ((s.snapMade e k failed cache).modEnc e (fun g => { g with pass := k.tries + 1 })).evid with
          snaps := modWhere (fun j => j.id == k.id) (fun j => { j with q := max 1 (j.q / 2), tries := j.tries + 1 })
            ((s.snapMade e k failed cache).modEnc e (fun g => { g with pass := k.tries + 1 })).evid.snaps } }
    else if k.maxBytes < (s.snapImage k failed).1.length then
      s.snapLost e k failed cache
    else (((s.snapMade e k failed cache).snapGone e k).count k.slot 0x48 1).deliverEvid k.slot k.id 1 (Pic.marks k.pic ||| b2n failed)
      k.pic.seq k.pic.seq k.pic.pts k.res (s.snapImage k failed).1 := rfl

end

/-! ### The CPB, refresh columns and slices (R104, R107 to R109) -/

theorem Nat.le_ceilDiv_mul (a : Nat) {b : Nat} (hb : 0 < b) : a ≤ ceilDiv a b * b := by
  have h := Nat.div_add_mod (a + b - 1) b
  have hm := Nat.mod_lt (a + b - 1) hb
  rw [ceilDiv, Nat.mul_comm]
  omega

/-- With its filler a picture has at least its least bits. -/
theorem le_add_filler (bmin b : Nat) : bmin ≤ b + 8 * fillerOf bmin b := by
  have := Nat.le_ceilDiv_mul (bmin - b) (b := 8) (by decide)
  unfold fillerOf
  omega

section
variable (c : EvidCfg) {num : Nat} (den full bits : Nat)

theorem cpb_no_underflow (h : bits ≤ (cpbBounds c num den full).2) : bits * (90000 * num) ≤ full :=
  (Nat.mul_le_mul_right _ h).trans (Nat.div_mul_le_self _ _)

theorem cpb_no_overflow_vbr (n : Nat) (h : c.cbr = false) : cpbNext c num den full n ≤ c.cpbSize * (90000 * num) := by
  unfold cpbNext
  dsimp only
  rw [h]
  split <;> simp_all

/-- At a constant rate filler keeps the CPB from overflowing. -/
theorem cpb_no_overflow_cbr (hnum : 0 < num) (h : c.cbr = true) :
    cpbNext c num den full (bits + 8 * fillerOf (cpbBounds c num den full).1 bits) ≤ c.cpbSize * (90000 * num) := by
  have hnext : ∀ n, cpbNext c num den full n = full + 90000 * c.bitRate * den - n * (90000 * num) := fun n => if_neg (by simp [h])
  have hfill := Nat.mul_le_mul_right (90000 * num) (le_add_filler (cpbBounds c num den full).1 bits)
  rw [hnext]
  by_cases hfull : c.cpbSize * (90000 * num) < full + 90000 * c.bitRate * den
  · have hmin : (cpbBounds c num den full).1 = ceilDiv (full + 90000 * c.bitRate * den - c.cpbSize * (90000 * num)) (90000 * num) := if_pos ⟨h, hfull⟩
    have hceil := Nat.le_ceilDiv_mul (full + 90000 * c.bitRate * den - c.cpbSize * (90000 * num)) (b := 90000 * num) (by omega)
    rw [← hmin] at hceil
    have := hceil.trans hfill
    omega
  · omega

theorem cpb_next_ge {n : Nat} (h : c.cbr = true) (hn : n * (90000 * num) ≤ full) : 90000 * c.bitRate * den ≤ cpbNext c num den full n := by
  have hnext : cpbNext c num den full n = full + 90000 * c.bitRate * den - n * (90000 * num) := if_neg (by simp [h])
  omega

end

/-- The refresh columns of a cycle follow one another from the first column to the last. -/
theorem refreshColumns_cover (n c : Nat) {p : Nat} (hp : 0 < p) (hn : 0 < n) :
    (refreshColumns n p c).1 ≤ (refreshColumns n p c).2 ∧ (refreshColumns n p c).2 ≤ c ∧
      ((n - 1) % p = 0 → (refreshColumns n p c).1 = 0) ∧ (n % p = 0 → (refreshColumns n p c).2 = c) ∧
      (n % p ≠ 0 → (refreshColumns (n + 1) p c).1 = (refreshColumns n p c).2) := by
  have hlt : (n - 1) % p < p := Nat.mod_lt _ hp
  have hsucc : n % p = ((n - 1) % p + 1) % p := by rw [Nat.mod_add_mod, Nat.sub_add_cancel hn]
  refine ⟨Nat.div_le_div_right (Nat.mul_le_mul_right _ (Nat.le_succ _)), ?_, fun h => ?_, fun h => ?_, fun h => ?_⟩
  · calc ((n - 1) % p + 1) * c / p ≤ p * c / p := Nat.div_le_div_right (Nat.mul_le_mul_right _ hlt)
      _ = c := Nat.mul_div_cancel_left _ hp
  · simp [refreshColumns, h]
  · have hlast : (n - 1) % p + 1 = p := by
      by_contra hne
      rw [hsucc, Nat.mod_eq_of_lt (by omega)] at h
      omega
    rw [refreshColumns, hlast]
    exact Nat.mul_div_cancel_left _ hp
  · have hnext : n % p = (n - 1) % p + 1 := by
      rcases Nat.lt_or_ge ((n - 1) % p + 1) p with hc | hc
      · rw [hsucc, Nat.mod_eq_of_lt hc]
      · rw [hsucc, show (n - 1) % p + 1 = p by omega, Nat.mod_self] at h
        exact absurd rfl h
    rw [refreshColumns, refreshColumns, Nat.add_sub_cancel, hnext]

end Sys2Proof.Machine

namespace Sys2Proof.Proofs
open Sys2Proof.Machine

/-- Settles O17. -/
theorem encodeEngine : Obligations.EncodeEngine := by
  unfold Obligations.EncodeEngine
  refine ⟨?_, ?_, ?_, ?_⟩
  · intro s e dt hup w g prio cand first on
    have hcand : ∀ key x n, (key, x, n) ∈ w.encWorks e ↔ cand key x n := fun key x n => by
      rw [show w = s.encTick e dt from rfl, State.encWorks_encTick]
      exact s.mem_encWorks e
    have hfirst : ∀ x n, first x n → w.nextWork e = some (x, n) := by
      rintro x n ⟨key, hc, hmin⟩
      exact w.nextWork_of_first e ((hcand key x n).2 hc) fun key' x' n' h => hmin key' x' n' ((hcand key' x' n').1 h)
    refine ⟨fun k n hst he h => ?_, fun id n c hst he h hc => ?_, fun hst h => ?_, fun hst => ?_, fun id c hst hw hc => ?_, fun hst => ?_, ?_, ?_⟩
    · exact answers_congr (answers_whenUp rfl hup) (State.encodeStart_snap hst he (hfirst _ _ h))
    · have hstart := State.encodeStart_clip hst he (hfirst _ _ h) hc
      refine ⟨fun hl => ?_, fun hl => ?_, fun hl hn => ?_⟩
      · exact answers_congr (answers_whenUp rfl hup) (hstart.trans (if_pos hl))
      · have hid := List.find?_some hc
        refine answers_congr (answers_whenUp rfl hup) (hstart.trans ((if_neg ?_).trans (if_neg ?_)))
        · exact fun h => absurd (hl.symm.trans h) (by simp)
        · rw [show (w.encEngine e).lastClip = none from hl]
          simp
      · exact answers_congr (answers_whenUp rfl hup) (hstart.trans ((if_neg hl).trans (if_pos (Option.isSome_iff_ne_none.2 hn))))
    · exact answers_congr (answers_whenUp rfl hup) (State.encodeStart_none (w.nextWork_none e fun key x n hm => h key x n ((hcand key x n).1 hm)))
    · exact answers_congr (answers_whenUp rfl hup) (State.encodeStart_busy hst)
    · exact answers_congr (answers_whenUp rfl hup) (State.encodeSaved_of hst hw hc)
    · exact answers_congr (answers_whenUp rfl hup) (if_pos hst)
    · intro id c r hst hw hc p b rep tag o fill
      have hdone : w.encodeDone e r = w.passDone e c r := State.encodeDone_next r hst hw hc
      refine ⟨fun hbig hpass hrep => ?_, fun hkept hlast => ?_⟩
      · refine answers_congr (answers_whenUp rfl hup) (hdone.trans (if_pos ⟨hbig, hpass, ?_⟩))
        rw [show p.repeats c.enc = false from hrep]
        rfl
      · have hkeep : w.passDone e c r = (w.clipSource c p).2.clipCoded e c p r.cache g.pass o b.1 := by
          refine if_neg ?_
          rintro ⟨h1, h2, h3⟩
          rcases hkept with h | h | h
          · exact absurd h1 (Nat.not_lt.2 h)
          · exact absurd h2 (Nat.not_lt.2 h)
          · rw [show c.nextPic r = p from rfl, show p.repeats c.enc = true from h] at h3
            cases h3
        have hev := State.clipCoded_evid (s := (w.clipSource c p).2) (e := e) p r.cache g.pass o b.1 hlast
        have hsrc : (w.clipSource c p).2.evid = w.evid := State.clipSource_evid c p
        refine reaches_of_answers (answers_congr (answers_whenUp rfl hup) (hdone.trans hkeep)) ⟨c.grown p o b.1, ?_, rfl, rfl, rfl, ?_, rfl, rfl, ?_, ?_, ?_⟩
        · refine (congrArg Evid.clips hev).trans ?_
          exact congrArg (fun v : Evid => modWhere (fun d => d.id == c.id) (fun _ => c.grown p o b.1) v.clips) hsrc
        · exact c.grown_coded p o b.1
        · intro q hq
          have := (List.mem_filter.1 hq).2
          simpa using this
        · refine (congrArg (fun v : Evid => (tget ({} : EncEngine) v.engines e).st) hev).trans ?_
          exact congrArg EncEngine.st (State.modEnc_encEngine _ e _)
        · refine (congrArg (fun v : Evid => (tget ({} : EncEngine) v.engines e).work) hev).trans ?_
          exact congrArg EncEngine.work (State.modEnc_encEngine _ e _)
    · intro id k failed cache hst hw hk image u
      have hdone : w.snapDone e failed cache = _ := (State.snapDone_of failed cache hst hw hk).trans (State.snapCoded_eq k failed cache)
      have hev : (w.snapMade e k failed cache).evid = w.evid := State.snapMade_evid k failed cache
      refine ⟨fun hbig htries => ?_, fun hbig htries => ?_, fun hsmall => ?_⟩
      · refine reaches_of_answers (answers_congr (answers_whenUp rfl hup) (hdone.trans (if_pos ⟨hbig, htries⟩))) ⟨?_, ?_⟩
        · exact congrArg (fun v : Evid => modWhere (fun j => j.id == k.id) (fun j => { j with q := max 1 (j.q / 2), tries := j.tries + 1 }) v.snaps) hev
        · refine (congrArg EncEngine.st (State.modEnc_encEngine (w.snapMade e k failed cache) e (fun g => { g with pass := k.tries + 1 }))).trans ?_
          exact (congrArg (fun v : Evid => (tget ({} : EncEngine) v.engines e).st) hev).trans hst
      · refine reaches_of_answers (answers_congr (answers_whenUp rfl hup) (hdone.trans ((if_neg (by omega)).trans (if_pos hbig)))) ⟨?_, ?_, ?_⟩
        · refine (congrArg Evid.snaps (State.snapLost_evid k failed cache)).trans ?_
          exact congrArg (fun v : Evid => v.snaps.filter (fun j => j.id != k.id)) hev
        · refine (congrArg (fun v : Evid => (tget ({} : EncEngine) v.engines e).st) (State.snapLost_evid k failed cache)).trans ?_
          exact congrArg EncEngine.st (State.modEnc_encEngine _ e _)
        · exact State.snapLost_counter k failed cache
      · intro v
        exact answers_congr (answers_whenUp rfl hup) (hdone.trans ((if_neg fun h => Nat.not_lt.2 hsmall h.1).trans (if_neg (Nat.not_lt.2 hsmall))))
  · intro c num den full bits hnum k a b n
    exact ⟨cpb_no_underflow c den full bits, cpb_no_overflow_cbr c den full bits hnum, cpb_no_overflow_vbr c den full n, fun hn hcbr => cpb_next_ge c den full hcbr hn⟩
  · exact fun n p c hp hn => refreshColumns_cover n c hp hn
  · intro c fw pass before src
    refine ⟨List.length_take_le _ _, fun h => ⟨le_max_left _ _, ?_⟩, rfl⟩
    exact max_le h (min_le_right _ _)

end Sys2Proof.Proofs

end

