-- ==== Sys2Proof/Proofs/SkiverJobs.lean ====
section
/-! PROOFS. Skiver submissions, jobs, output sizes and colour (R116 to R130, R141). -/
namespace Sys2Proof.Machine
open Sys2Proof

/-! ### Submissions (R8, R116, R141) -/

section
variable {s : State} {r : Route} {high : Nat} (hup : s.up = true) (hreach : s.reaches r skvSubmitOff = true)
include hup

include hreach in
theorem answers_skiverSubmit_held {low : Nat} (hheld : tget none s.heldLow (latchKey r skvSubmitOff) = some low) (hhigh : high < 2 ^ 32) :
    Answers (.skiverSubmit r high) s (State.skvSubmit { s with heldLow := tset none s.heldLow (latchKey r skvSubmitOff) none } (low + high * 2 ^ 32)) := by
  refine answers_congr (answers_whenUp rfl hup) ?_
  simp only [State.takeHeld, hheld, hreach, if_true, Nat.mod_eq_of_lt hhigh]

theorem answers_skiverSubmit_empty (hheld : tget none s.heldLow (latchKey r skvSubmitOff) = none) : Answers (.skiverSubmit r high) s s := by
  refine answers_congr (answers_whenUp rfl hup) ?_
  simp only [State.takeHeld, hheld, ite_self]

end

section
variable {u : State} {a : Nat}

/-- The job that stands at an address. -/
def State.jobAt (u : State) (a : Nat) : Job :=
  readJob a (u.seen a 64) ((upto 0 (min (fieldAt (u.seen a 64) 5 1) 64)).map (fun i => readRegion (u.seen (a + 64 + 32 * i) 32)))

theorem State.skvSubmit_populated (ha : a % 64 = 0) (hpop : u.populated a = true) : u.skvSubmit a = u.skvEnqueue (u.jobAt a) := by
  unfold State.skvSubmit
  refine (if_neg (not_not_intro ha)).trans (if_neg ?_)
  simp [hpop]

theorem State.skvEnqueue_full (j : Job) (h : 256 ≤ u.skv.queue.length) : u.skvEnqueue j = { u with skv := { u.skv with overflow := true } } := if_pos h

theorem State.skvEnqueue_taken {j : Job} (h : u.skv.queue.length < 256) (hfb : (u.fbTake j.fb false).1 = .ok) : u.skvEnqueue j =
    { (u.fbTake j.fb false).2 with skv := { (u.fbTake j.fb false).2.skv with queue := (u.fbTake j.fb false).2.skv.queue ++ [{ j with refHeld := true }] } } := by
  refine (if_neg (Nat.not_le.2 h)).trans ?_
  generalize u.fbTake j.fb false = p at hfb ⊢
  obtain ⟨x, v⟩ := p
  subst hfb
  rfl

theorem State.skvEnqueue_untaken {j : Job} (h : u.skv.queue.length < 256) (hfb : (u.fbTake j.fb false).1 ≠ .ok) : u.skvEnqueue j =
    { (u.fbTake j.fb false).2 with skv := { (u.fbTake j.fb false).2.skv with queue := (u.fbTake j.fb false).2.skv.queue ++ [{ j with refHeld := false }] } } := by
  refine (if_neg (Nat.not_le.2 h)).trans ?_
  generalize u.fbTake j.fb false = p at hfb ⊢
  obtain ⟨x, v⟩ := p
  cases x with
  | ok => exact absurd rfl hfb
  | fault c d => rfl

end

/-! ### The choice of a job (R120) -/

section
variable {s : State} {j : Job}

/-- The oldest ready job of a class. -/
def State.oldestJob (s : State) (k : Nat) : Option Job := s.skv.queue.find? (fun j => s.slotClass j.slot == k && s.jobReady j)

theorem State.nextJob_iff : s.nextJob = some j ↔ ∃ k < 3, s.oldestJob k = some j ∧ ∀ i < k, s.oldestJob i = none := by
  rw [show s.nextJob = [0, 1, 2].findSome? s.oldestJob from rfl]
  constructor
  · intro h
    rcases h0 : s.oldestJob 0 with _ | x
    · rcases h1 : s.oldestJob 1 with _ | x
      · refine ⟨2, by decide, by simpa [h0, h1] using h, fun i hi => ?_⟩
        interval_cases i <;> assumption
      · refine ⟨1, by decide, by simpa [h0, h1] using h, fun i hi => ?_⟩
        interval_cases i
        assumption
    · exact ⟨0, by decide, by simpa [h0] using h, fun i hi => absurd hi (Nat.not_lt_zero i)⟩
  · rintro ⟨k, hk, hj, hnone⟩
    interval_cases k
    · simp [hj]
    · simp [hj, hnone 0 (by decide)]
    · simp [hj, hnone 0 (by decide), hnone 1 (by decide)]

theorem State.oldestJob_none {k : Nat} : s.oldestJob k = none ↔ ∀ x ∈ s.skv.queue, s.jobReady x = true → s.slotClass x.slot ≠ k := by
  unfold State.oldestJob
  rw [List.find?_eq_none]
  refine forall₂_congr fun x hx => ?_
  simp only [Bool.and_eq_true, beq_iff_eq, not_and]
  exact ⟨fun h hr hc => h hc hr, fun h hc hr => h hr hc⟩

theorem State.oldestJob_some {k : Nat} : s.oldestJob k = some j ↔ (s.slotClass j.slot = k ∧ s.jobReady j = true) ∧
    ∃ before after, s.skv.queue = before ++ j :: after ∧ ∀ x ∈ before, s.jobReady x = true → s.slotClass x.slot ≠ k := by
  unfold State.oldestJob
  rw [List.find?_eq_some_iff_append]
  simp only [Bool.and_eq_true, beq_iff_eq, Bool.not_eq_true', Bool.and_eq_false_iff, beq_eq_false_iff_ne]
  refine and_congr_right fun _ => exists_congr fun before => exists_congr fun after => and_congr_right fun _ => forall₂_congr fun x hx => ?_
  constructor
  · rintro (h | h) hr
    · exact h
    · rw [h] at hr
      cases hr
  · intro h
    by_cases hr : s.jobReady x = true
    · exact .inl (h hr)
    · exact .inr (Bool.eq_false_iff.2 hr)

/-- The next job is the oldest ready one of the highest class. -/
theorem State.nextJob_spec (h : s.nextJob = some j) : s.jobReady j = true ∧ ∃ before after, s.skv.queue = before ++ j :: after ∧
    (∀ k ∈ before, s.jobReady k = true → s.slotClass j.slot < s.slotClass k.slot) ∧
    (∀ k ∈ after, s.jobReady k = true → s.slotClass j.slot ≤ s.slotClass k.slot) := by
  obtain ⟨k, hk, hj, hlower⟩ := State.nextJob_iff.1 h
  obtain ⟨⟨rfl, hready⟩, before, after, hq, hbefore⟩ := State.oldestJob_some.1 hj
  have hle : ∀ x ∈ s.skv.queue, s.jobReady x = true → s.slotClass j.slot ≤ s.slotClass x.slot := fun x hx hr =>
    Nat.le_of_not_lt fun hlt => State.oldestJob_none.1 (hlower _ hlt) x hx hr rfl
  refine ⟨hready, before, after, hq, fun x hx hr => ?_, fun x hx hr => ?_⟩
  · exact lt_of_le_of_ne (hle x (by rw [hq]; exact List.mem_append_left _ hx) hr) (hbefore x hx hr).symm
  · exact hle x (by rw [hq]; exact List.mem_append_right _ (List.mem_cons_of_mem _ hx)) hr

theorem State.nextJob_of {before after : List Job} (hq : s.skv.queue = before ++ j :: after) (hready : s.jobReady j = true)
    (hclass : s.slotClass j.slot < 3) (hbefore : ∀ k ∈ before, s.jobReady k = true → s.slotClass j.slot < s.slotClass k.slot)
    (hafter : ∀ k ∈ after, s.jobReady k = true → s.slotClass j.slot ≤ s.slotClass k.slot) : s.nextJob = some j := by
  refine State.nextJob_iff.2 ⟨_, hclass, State.oldestJob_some.2 ⟨⟨rfl, hready⟩, before, after, hq, fun x hx hr => (hbefore x hx hr).ne'⟩, fun i hi => ?_⟩
  refine State.oldestJob_none.2 fun x hx hr hc => ?_
  rw [hq] at hx
  rcases List.mem_append.1 hx with hx | hx
  · exact absurd (hbefore x hx hr) (by omega)
  · rcases List.mem_cons.1 hx with rfl | hx
    · omega
    · exact absurd (hafter x hx hr) (by omega)

end

/-! ### Starts and completions (R120 to R122, R161) -/

section
variable {s : State} {u : Nat}

/-- The state without a queued job. -/
def State.unqueued (s : State) (j : Job) : State := { s with skv := { s.skv with queue := s.skv.queue.erase j } }

/-- The state with a job refused. -/
def State.jobRefused (v : State) (u : Nat) (j : Job) (code : Nat) : State :=
  (v.skvRelease j).ctxFault j.ctx { code := code, unit := 0x2000 + u, detail := j.slot, addr := j.addr }

theorem State.skvStart_none (bad : Bool) (h : s.nextJob = none) : s.skvStart u bad = s := by
  unfold State.skvStart
  split
  · rfl
  · rw [h]

theorem State.skvStart_some {j : Job} (bad : Bool) (hu : u < 8) (hfree : (s.skvUnit u).job = none) (h : s.nextJob = some j) : s.skvStart u bad =
    if (s.unqueued j).tablesOff j then (s.unqueued j).jobRefused u j fltCoreBankOff
    else match (s.unqueued j).jobFault j with
      | some code => (s.unqueued j).jobRefused u j code
      | none => if ((s.unqueued j).jobWrites j ((s.unqueued j).jobOuts j)).any (fun r => (s.unqueued j).bufferOff r.1 r.2)
          then (s.unqueued j).jobRefused u j fltCoreBankOff else (s.unqueued j).runJob u j bad := by
  unfold State.skvStart
  refine (if_neg (by simp [hfree]; omega)).trans ?_
  rw [h] <;> rfl

theorem State.skvDone_of {j : Job} (dt : Nat) (h : (s.skvUnit u).job = some j) : s.skvDone u dt =
    (((((s.modSkv u (fun x => { x with
      st := 0, job := none, busy := (x.busy + dt) % 2 ^ 64, jobs := (x.jobs + 1) % 2 ^ 64 })).skvRelease j).account j.ctx 8 dt)).sendIncr
      { ctx := j.ctx, core := j.doneCore, ctr := j.doneCtr, n := j.doneN, fromCtx := false, src := 0x100 + u }) := by
  unfold State.skvDone
  rw [h]

end

/-! ### Sizes (R126) -/

/-- A side scaled to the other's tensor length does not exceed its own. -/
theorem scaled_le {a b len : Nat} (hlen : 0 < len) (h : a ≤ len * b) : (a + len / 2) / len ≤ b := by
  have hhalf : len / 2 < len := Nat.div_lt_self hlen (by decide)
  rw [← Nat.lt_succ_iff, Nat.div_lt_iff_lt_mul hlen]
  calc a + len / 2 < len * b + len := by omega
    _ = (b + 1) * len := by ring

theorem fitSize_fits {w h tw th : Nat} (fit : Nat) (hw : 0 < w) (hh : 0 < h) (htw : 0 < tw) (hth : 0 < th) :
    (fitSize w h tw th fit).1 ≤ tw ∧ (fitSize w h tw th fit).2 ≤ th ∧ 1 ≤ (fitSize w h tw th fit).1 ∧ 1 ≤ (fitSize w h tw th fit).2 ∧
      ((fitSize w h tw th fit).1 = tw ∨ (fitSize w h tw th fit).2 = th) := by
  unfold fitSize
  split
  · exact ⟨le_refl _, le_refl _, htw, hth, .inl rfl⟩
  · split
    next hle => exact ⟨le_refl _, max_le hth (scaled_le hw hle), htw, le_max_left _ _, .inl rfl⟩
    next hgt =>
      refine ⟨max_le htw (scaled_le hh ?_), le_refl _, le_max_left _ _, hth, .inr rfl⟩
      omega

/-- One doubling of the box factor. -/
def boxDouble (n len d : Nat) : Nat := if d < 16 ∧ 2 * d * n ≤ len then 2 * d else d

theorem boxDouble_fits {n len d : Nat} (h : d = 1 ∨ d * n ≤ len) : boxDouble n len d = 1 ∨ boxDouble n len d * n ≤ len := by
  unfold boxDouble
  split
  next hd => exact .inr hd.2
  · exact h

theorem boxDouble_stop {n len d : Nat} (h : d = 16 ∨ len < 2 * d * n) : boxDouble n len d = d := by
  refine if_neg ?_
  rintro ⟨h1, h2⟩
  rcases h with rfl | h
  · exact absurd h1 (by decide)
  · exact absurd h2 (Nat.not_le.2 h)

theorem boxFactor_eq (n len : Nat) : boxFactor n len = boxDouble n len (boxDouble n len (boxDouble n len (boxDouble n len 1))) := rfl

/-- A doubling at `d` below 16 goes on to `2 d` or stops for good. -/
theorem boxDouble_cases {n len d : Nat} (hd : d < 16) : (boxDouble n len d = 2 * d) ∨ (boxDouble n len d = d ∧ len < 2 * d * n) := by
  unfold boxDouble
  by_cases h : 2 * d * n ≤ len
  · exact .inl (if_pos ⟨hd, h⟩)
  · exact .inr ⟨if_neg fun hh => h hh.2, Nat.lt_of_not_le h⟩

theorem boxFactor_spec (n len : Nat) : (boxFactor n len = 1 ∨ boxFactor n len = 2 ∨ boxFactor n len = 4 ∨ boxFactor n len = 8 ∨ boxFactor n len = 16) ∧
    (boxFactor n len = 1 ∨ boxFactor n len * n ≤ len) ∧ (boxFactor n len = 16 ∨ len < 2 * boxFactor n len * n) := by
  have hfits : boxFactor n len = 1 ∨ boxFactor n len * n ≤ len :=
    boxDouble_fits (boxDouble_fits (boxDouble_fits (boxDouble_fits (.inl rfl))))
  rw [boxFactor_eq] at hfits ⊢
  rcases boxDouble_cases (n := n) (len := len) (d := 1) (by decide) with h1 | ⟨h1, hs⟩
  · rcases boxDouble_cases (n := n) (len := len) (d := 2) (by decide) with h2 | ⟨h2, hs⟩
    · rcases boxDouble_cases (n := n) (len := len) (d := 4) (by decide) with h3 | ⟨h3, hs⟩
      · rcases boxDouble_cases (n := n) (len := len) (d := 8) (by decide) with h4 | ⟨h4, hs⟩
        · simp only [h1, h2, h3, h4] at hfits ⊢
          exact ⟨by decide, hfits, .inl trivial⟩
        · simp only [h1, h2, h3, h4] at hfits ⊢
          exact ⟨by decide, hfits, .inr hs⟩
      · simp only [h1, h2, h3] at hfits ⊢
        exact ⟨by decide, hfits, .inr hs⟩
    · simp only [h1, h2] at hfits ⊢
      exact ⟨by decide, hfits, .inr hs⟩
  · simp only [h1] at hfits ⊢
    exact ⟨by decide, hfits, .inr hs⟩

/-! ### Colour and codes (R127 to R129) -/

theorem clampI_bounds {v lo hi : Int} (h : lo ≤ hi) : lo ≤ clampI v lo hi ∧ clampI v lo hi ≤ hi := by
  unfold clampI
  split
  · exact ⟨le_refl _, h⟩
  · split
    · exact ⟨h, le_refl _⟩
    · omega

theorem toRgb_range (colour y cb cr : Nat) : (toRgb colour y cb cr).length = 3 ∧ ∀ c ∈ toRgb colour y cb cr, c ≤ 1023 := by
  refine ⟨rfl, fun c hc => ?_⟩
  have hfin : ∀ x : Int, (clampI x 0 1023).toNat ≤ 1023 := fun x => by
    have := clampI_bounds (v := x) (lo := 0) (hi := 1023) (by decide)
    omega
  unfold toRgb at hc
  simp only [List.mem_cons, List.not_mem_nil, or_false] at hc
  rcases hc with rfl | rfl | rfl <;> exact hfin _

/-- An integer format's code fits its element. -/
theorem OutDesc.quant_lt (o : OutDesc) (h : o.fmt = 0 ∨ o.fmt = 1 ∨ o.fmt = 5) (c e : Nat) : o.quant c e < 2 ^ (8 * o.esize) := by
  unfold OutDesc.quant OutDesc.esize
  rcases h with h | h | h
  · simp only [h, floatFmt]
    exact wrap_lt 8 _
  · simp only [h, floatFmt]
    exact wrap_lt 8 _
  · simp only [h, floatFmt]
    exact wrap_lt 16 _

end Sys2Proof.Machine

namespace Sys2Proof.Proofs
open Sys2Proof.Machine

/-- Settles O18. -/
theorem skiverJobs : Obligations.SkiverJobs := by
  unfold Obligations.SkiverJobs
  refine ⟨⟨?_, ?_, ?_, fun s j => State.nextJob_spec, fun s j before after => State.nextJob_of⟩, ?_⟩
  · refine fun s r high hup hreach => ⟨answers_skiverSubmit_empty hup, fun low hheld hhigh => ?_⟩
    intro u a j
    have hsubmit := answers_skiverSubmit_held hup hreach hheld hhigh
    refine ⟨fun ha => answers_congr hsubmit (if_pos ha), fun ha hpop hfull => ?_, fun ha hpop hroom hfb => ?_, fun ha hpop hroom hfb => ?_⟩
    · exact answers_congr hsubmit ((State.skvSubmit_populated ha hpop).trans (State.skvEnqueue_full _ hfull))
    · exact answers_congr hsubmit ((State.skvSubmit_populated ha hpop).trans (State.skvEnqueue_taken hroom hfb))
    · exact answers_congr hsubmit ((State.skvSubmit_populated ha hpop).trans (State.skvEnqueue_untaken hroom hfb))
  · intro s u bad hup hu hfree
    refine ⟨fun h => answers_congr (answers_whenUp rfl hup) (State.skvStart_none bad h), fun j hj => ?_⟩
    intro v refused off
    have hstart : s.skvStart u bad = _ := State.skvStart_some bad hu hfree hj
    refine ⟨fun ht => ?_, fun ht hf hoff => ?_, fun ht hf hoff => ?_, fun code ht hf => ?_⟩
    · exact answers_congr (answers_whenUp rfl hup) (hstart.trans (if_pos ht))
    · refine answers_congr (answers_whenUp rfl hup) ((hstart.trans (if_neg (by rw [show (s.unqueued j).tablesOff j = false from ht]; decide))).trans ?_)
      rw [show (s.unqueued j).jobFault j = none from hf]
      exact if_neg (Bool.eq_false_iff.1 hoff)
    · refine answers_congr (answers_whenUp rfl hup) ((hstart.trans (if_neg (by rw [show (s.unqueued j).tablesOff j = false from ht]; decide))).trans ?_)
      rw [show (s.unqueued j).jobFault j = none from hf]
      exact if_pos hoff
    · refine answers_congr (answers_whenUp rfl hup) ((hstart.trans (if_neg (by rw [show (s.unqueued j).tablesOff j = false from ht]; decide))).trans ?_)
      rw [show (s.unqueued j).jobFault j = some code from hf] <;> rfl
  · exact fun s u dt j hup hj => answers_congr (answers_whenUp rfl hup) (State.skvDone_of dt hj)
  · refine ⟨fun w h tw th fit => fitSize_fits fit, fun n len _ => boxFactor_spec n len, toRgb_range, by decide, ?_, ?_, by decide, by decide, by decide,
      fun o h c e => o.quant_lt h c e⟩
    · intro o hfmt hzp hmul hshift hadd
      simp only [OutDesc.quant, hfmt, hzp, hmul, hshift, hadd]
      decide
    · intro o htw hth hfit
      simp only [OutDesc.place, htw, hth, hfit]
      decide

end Sys2Proof.Proofs

end

