-- ==== Sys2Proof/Proofs/RegionSteering.lean ====
section
/-! PROOFS. Region steering: null jobs, sweeps, merged regions (R134 to R138, R140). -/
namespace Sys2Proof.Machine
open Sys2Proof

/-! ### The pair to merge (R136) -/

section
variable {α β : Type} {f : Option β → α → Option β} (hkeep : ∀ acc x, acc.isSome = true → (f acc x).isSome = true)
include hkeep

/-- A fold over options stays some. -/
theorem isSome_foldl_of_isSome (l : List α) {acc : Option β} (h : acc.isSome = true) : (l.foldl f acc).isSome = true := by
  induction l generalizing acc with
  | nil => exact h
  | cons a l ih => exact ih (hkeep acc a h)

/-- A fold over options becomes some where an element makes it so. -/
theorem isSome_foldl_of_mem {l : List α} {x : α} (hx : x ∈ l) (hmake : ∀ acc, (f acc x).isSome = true) (acc : Option β) :
    (l.foldl f acc).isSome = true := by
  induction l generalizing acc with
  | nil => cases hx
  | cons a l ih =>
    rcases List.mem_cons.1 hx with rfl | hx
    · exact isSome_foldl_of_isSome hkeep l (hmake acc)
    · exact ih hx _

end

/-- A step of the search for the pair of least cost. -/
def pairStep (a : Nat × Region) (acc : Option (Int × Nat × Nat)) (b : Nat × Region) : Option (Int × Nat × Nat) :=
  if a.1 < b.1 then
    let c := a.2.cost b.2
    match acc with
    | some m => if c < m.1 then some (c, a.1, b.1) else acc
    | none => some (c, a.1, b.1)
  else acc

theorem bestPair_eq (rs : List Region) : bestPair rs =
    ((upto 0 rs.length).zip rs).foldl (fun acc a => ((upto 0 rs.length).zip rs).foldl (pairStep a) acc) none := rfl

theorem pairStep_isSome {a b : Nat × Region} {acc : Option (Int × Nat × Nat)} (h : acc.isSome = true ∨ a.1 < b.1) : (pairStep a acc b).isSome = true := by
  obtain _ | m := acc
  · rcases h with h | h
    · cases h
    · simp [pairStep, h]
  · unfold pairStep
    dsimp only
    split
    · split <;> rfl
    · rfl

/-- A search's result names two indices below `n`, the lower first. -/
def PairBelow (n : Nat) (acc : Option (Int × Nat × Nat)) : Prop := ∀ c i j, acc = some (c, i, j) → i < j ∧ j < n

theorem pairStep_below {n : Nat} {a b : Nat × Region} {acc : Option (Int × Nat × Nat)} (hb : b.1 < n) (h : PairBelow n acc) : PairBelow n (pairStep a acc b) := by
  unfold pairStep
  dsimp only
  split
  next hlt =>
    have hnew : PairBelow n (some (a.2.cost b.2, a.1, b.1)) := by
      rintro c i j he
      cases he
      exact ⟨hlt, hb⟩
    split
    · split
      · exact hnew
      · exact h
    · exact hnew
  next => exact h

theorem foldl_pairBelow {α : Type} {n : Nat} {f : Option (Int × Nat × Nat) → α → Option (Int × Nat × Nat)} {l : List α}
    (h : ∀ acc, ∀ x ∈ l, PairBelow n acc → PairBelow n (f acc x)) {acc : Option (Int × Nat × Nat)} (hacc : PairBelow n acc) : PairBelow n (l.foldl f acc) := by
  induction l generalizing acc with
  | nil => exact hacc
  | cons x l ih => exact ih (fun acc y hy => h acc y (List.mem_cons_of_mem _ hy)) (h acc x List.mem_cons_self hacc)

theorem mem_zip_upto_lt {α : Type} {l : List α} {p : Nat × α} (h : p ∈ (upto 0 l.length).zip l) : p.1 < l.length := by
  have := (List.of_mem_zip (a := p.1) (b := p.2) h).1
  rw [mem_upto_iff] at this
  omega

theorem getElem_mem_zip_upto {α : Type} {l : List α} {i : Nat} (h : i < l.length) : (i, l[i]) ∈ (upto 0 l.length).zip l := by
  have hlen : (upto 0 l.length).length = l.length := by rw [upto_eq_range', List.length_range']
  have hget : ((upto 0 l.length).zip l)[i]'(by rw [List.length_zip, hlen]; simpa using h) = (i, l[i]) := by
    simp [upto_eq_range']
  rw [← hget]
  exact List.getElem_mem _

/-- Two or more regions have a pair to merge. -/
theorem bestPair_some {rs : List Region} (h : 2 ≤ rs.length) : ∃ c i j, bestPair rs = some (c, i, j) ∧ i < j ∧ j < rs.length := by
  have hsome : (bestPair rs).isSome = true := by
    rw [bestPair_eq]
    refine isSome_foldl_of_mem (fun acc a hacc => isSome_foldl_of_isSome (fun acc b h => pairStep_isSome (.inl h)) _ hacc)
      (getElem_mem_zip_upto (show 0 < rs.length by omega)) (fun acc => ?_) none
    exact isSome_foldl_of_mem (fun acc b h => pairStep_isSome (.inl h)) (getElem_mem_zip_upto (show 1 < rs.length by omega))
      (fun acc => pairStep_isSome (.inr (by decide : 0 < 1))) acc
  have hbelow : PairBelow rs.length (bestPair rs) := by
    rw [bestPair_eq]
    refine foldl_pairBelow (fun acc a _ hacc => foldl_pairBelow (fun acc b hb hacc => pairStep_below (mem_zip_upto_lt hb) hacc) hacc) ?_
    rintro c i j he
    cases he
  obtain ⟨⟨c, i, j⟩, hp⟩ := Option.isSome_iff_exists.1 hsome
  exact ⟨c, i, j, hp, hbelow c i j hp⟩

/-! ### Merging (R135, R136) -/

/-- Region `a` lies inside region `b`. -/
def Region.Inside (a b : Region) : Prop := b.x ≤ a.x ∧ b.y ≤ a.y ∧ a.x + a.w ≤ b.x + b.w ∧ a.y + a.h ≤ b.y + b.h

theorem Region.Inside.refl (a : Region) : a.Inside a := ⟨le_refl _, le_refl _, le_refl _, le_refl _⟩

theorem Region.Inside.trans {a b c : Region} (h : a.Inside b) (h' : b.Inside c) : a.Inside c := by
  obtain ⟨h1, h2, h3, h4⟩ := h
  obtain ⟨h5, h6, h7, h8⟩ := h'
  exact ⟨h5.trans h1, h6.trans h2, h3.trans h7, h4.trans h8⟩

theorem Region.inside_join_left (a b : Region) : a.Inside (a.join b) := by
  simp only [Region.Inside, Region.join]
  omega

theorem Region.inside_join_right (a b : Region) : b.Inside (a.join b) := by
  simp only [Region.Inside, Region.join]
  omega

/-- One merge takes a region away and covers what it takes. -/
theorem merge_covers {rs : List Region} {i j : Nat} (hij : i < j) (hj : j < rs.length) :
    ((rs.set i (rs[i].join rs[j])).eraseIdx j).length + 1 = rs.length ∧
      ∀ a ∈ rs, ∃ b ∈ (rs.set i (rs[i].join rs[j])).eraseIdx j, a.Inside b := by
  have hset : (rs.set i (rs[i].join rs[j])).length = rs.length := List.length_set
  refine ⟨by rw [List.length_eraseIdx_of_lt (by omega), hset]; omega, fun a ha => ?_⟩
  have hjoin : rs[i].join rs[j] ∈ (rs.set i (rs[i].join rs[j])).eraseIdx j :=
    List.mem_eraseIdx_iff_getElem.2 ⟨i, by omega, by omega, List.getElem_set_self _⟩
  obtain ⟨k, hk, rfl⟩ := List.mem_iff_getElem.1 ha
  by_cases hki : k = i
  · subst hki
    exact ⟨_, hjoin, Region.inside_join_left _ _⟩
  · by_cases hkj : k = j
    · subst hkj
      exact ⟨_, hjoin, Region.inside_join_right _ _⟩
    · exact ⟨rs[k], List.mem_eraseIdx_iff_getElem.2 ⟨k, by omega, hkj, List.getElem_set_ne (Ne.symm hki) _⟩, .refl _⟩

/-- Merging leaves at most `limit` regions, which cover those it was given. -/
theorem mergeRegions_spec {limit : Nat} (hlimit : 1 ≤ limit) (fuel : Nat) (rs : List Region) (hfuel : rs.length ≤ fuel) :
    (mergeRegions limit fuel rs).1.length ≤ limit ∧ (mergeRegions limit fuel rs).1.length + (mergeRegions limit fuel rs).2 = rs.length ∧
      ∀ a ∈ rs, ∃ b ∈ (mergeRegions limit fuel rs).1, a.Inside b := by
  induction fuel generalizing rs with
  | zero =>
    obtain rfl : rs = [] := List.eq_nil_of_length_eq_zero (by omega)
    exact ⟨Nat.zero_le _, rfl, fun a ha => by cases ha⟩
  | succ fuel ih =>
    rw [mergeRegions]
    split
    next hle => exact ⟨hle, rfl, fun a ha => ⟨a, ha, .refl a⟩⟩
    next hgt =>
      obtain ⟨c, i, j, hp, hij, hj⟩ := bestPair_some (rs := rs) (by omega)
      rw [hp]
      dsimp only
      rw [List.getElem?_eq_getElem (show i < rs.length by omega), List.getElem?_eq_getElem hj]
      obtain ⟨hlen, hcover⟩ := merge_covers hij hj
      obtain ⟨h1, h2, h3⟩ := ih ((rs.set i (rs[i].join rs[j])).eraseIdx j) (by omega)
      refine ⟨h1, by dsimp only; omega, fun a ha => ?_⟩
      obtain ⟨b, hb, hab⟩ := hcover a ha
      obtain ⟨d, hd, hbd⟩ := h3 b hb
      exact ⟨d, hd, hab.trans hbd⟩

/-! ### The regions of a picture (R135 to R137) -/

section
variable {cfg : SlotCfg} {o : OutDesc} {p : Pic} {ts : List Track} {ch : List Nat} {forced shed : Bool}

/-- The region of a whole picture. -/
def Pic.whole (p : Pic) : Region := { x := 0, y := 0, w := p.width, h := p.height, origin := 4 }

/-- A scheduled or forced sweep. -/
theorem steer_sweep (h : p.seq % cfg.stream.sweepN = cfg.steer.sweepPhase ∨ forced = true) :
    (steer cfg o p ts ch forced false).regions = [p.whole] ∧ bit (steer cfg o p ts ch forced false).flags 0 = true ∧
      bit (steer cfg o p ts ch forced false).flags 2 = forced := by
  have hs : ∃ cs, steer cfg o p ts ch forced false = { regions := [p.whole], flags := 1 + 4 * b2n forced, counts := cs } := by
    refine ⟨_, if_pos ?_⟩
    rcases h with h | h <;> simp [h]
  obtain ⟨cs, hs⟩ := hs
  have hflags : ∀ b : Bool, bit (1 + 4 * b2n b) 0 = true ∧ bit (1 + 4 * b2n b) 2 = b := by decide
  rw [hs]
  exact ⟨rfl, hflags forced⟩

/-- The rectangles of a picture's tracks and motion, merged. -/
def steerMerged (cfg : SlotCfg) (p : Pic) (ts : List Track) (ch : List Nat) : List Region × Nat :=
  let rects := ts.filterMap (fun t => trackRegion cfg t p.pts p.width p.height) ++
    (if p.noInter then [] else motionRegions cfg.steer ch p.width p.height)
  mergeRegions cfg.steer.regionMax rects.length rects

/-- Without a sweep the merged rectangles, a null job or a promotion. -/
theorem steer_merged (h : shed = true ∨ (p.seq % cfg.stream.sweepN ≠ cfg.steer.sweepPhase ∧ forced = false)) :
    ∃ c1 c2 c3, steer cfg o p ts ch forced shed =
      if (steerMerged cfg p ts ch).1.isEmpty then { regions := [], flags := 2, counts := c1 }
      else if !shed && decide (cfg.steer.promote * (o.tilesW * o.tilesH) < (o.tiles false (steerMerged cfg p ts ch).1 p.width p.height).1.length * 100) then
        { regions := [p.whole], flags := 1, counts := c2 }
      else { regions := (steerMerged cfg p ts ch).1, flags := 0, counts := c3 } := by
  refine ⟨_, _, _, if_neg ?_⟩
  rcases h with h | ⟨h, h'⟩
  · simp [h]
  · simp [h, h']

end

/-! ### The picture's job (R134, R137, R138) -/

section
variable {s : State} {n c : Nat} {bad : Bool} {p : Pic} {rest : List Pic}

theorem State.steerSlot_idle (h : (s.slot n).pics = [] ∨ ∃ p rest, (s.slot n).pics = p :: rest ∧ s.steerable n p = false) : s.steerSlot n bad = s := by
  unfold State.steerSlot
  rcases h with h | ⟨p, rest, h, hst⟩
  · rw [h]
  · rw [h]
    exact if_pos (by simp [hst])

theorem State.steerSlot_front (hp : (s.slot n).pics = p :: rest) (hst : s.steerable n p = true) : s.steerSlot n bad =
    match p.cfg.det with
    | none => s.steerDone n p.subst.isNone
    | some c => if (s.ctx c).live then s.steerFor n c p bad else (if p.subst.isSome then s else s.substFront n 10 p).steerDone n false := by
  unfold State.steerSlot
  rw [hp]
  exact if_neg (by simp [hst])

/-- A picture is steered for a detector's live context. -/
theorem State.steerSlot_det (hp : (s.slot n).pics = p :: rest) (hst : s.steerable n p = true) (hdet : p.cfg.det = some c) (hlive : (s.ctx c).live = true) :
    s.steerSlot n bad = s.steerFor n c p bad := by
  rw [State.steerSlot_front hp hst, hdet]
  exact if_pos hlive

/-- A good picture's regions become a job. -/
theorem State.steerFor_good {h : Nat} {u : State} {d : ImageDecl} {o : OutDesc} (hsub : p.subst = none) (hh : p.handle = some h) (hread : s.readField h p = (none, u))
    (hdecl : (u.ctx c).decl = some d) (ho : ((upto 0 d.skv.nOut).map (fun i => readOut (u.seen ((u.ctx c).imageAddr d.skv.outOff + 64 * i) 64)))[canvasOf
      ((upto 0 d.skv.nOut).map (fun i => readOut (u.seen ((u.ctx c).imageAddr d.skv.outOff + 64 * i) 64)))]? = some o)
    {st : Steered} (hsteer : steer p.cfg o p ((liveTracks (u.slot n).trk.tracks).map (·.2)) (if p.noInter then [] else u.changedBlocks h p.width p.height)
      (u.slot n).dec.afterSubst (p.shed == 3 || p.shed == 4) = st) : s.steerFor n c p false =
    (((u.submitPic n c (canvasOf ((upto 0 d.skv.nOut).map (fun i => readOut (u.seen ((u.ctx c).imageAddr d.skv.outOff + 64 * i) 64)))) (!o.canvas) p
      (cropRegions o p st.regions) (if cropRegions o p st.regions = [] then 2 else st.flags)).counts n
      (st.counts ++ [(0x69, st.regions.length - (cropRegions o p st.regions).length)])).steerDone n true) := by
  unfold State.steerFor
  extract_lets null
  refine (if_neg (by simp [hsub])).trans ?_
  rw [hh]
  dsimp only
  rw [hread]
  refine (if_neg (by simp)).trans ?_
  rw [hdecl]
  dsimp only
  rw [ho]
  dsimp only
  rw [hsteer, if_congr List.isEmpty_iff rfl rfl]

end

end Sys2Proof.Machine

namespace Sys2Proof.Proofs
open Sys2Proof.Machine

/-- Settles O19. -/
theorem steeringOutcome : Obligations.SteeringOutcome := by
  unfold Obligations.SteeringOutcome
  refine ⟨⟨?_, ?_, ?_⟩, ?_⟩
  · intro s n c bad p rest hready hp hst
    refine ⟨fun hdet => ?_, fun hdet hlive hsub => ?_, fun h u d o hdet hlive hsub hbad hh hread hdecl => ?_, fun hdet hlive hsub => ?_⟩
    · refine answers_congr (answers_whenReady rfl hready) ((State.steerSlot_front hp hst).trans ?_)
      rw [hdet]
    · refine answers_congr (answers_whenReady rfl hready) ((State.steerSlot_det hp hst hdet hlive).trans ?_)
      exact if_pos (Option.isSome_iff_ne_none.2 hsub)
    · intro outs ho st rs
      subst hbad
      exact answers_congr (answers_whenReady rfl hready) ((State.steerSlot_det hp hst hdet hlive).trans (State.steerFor_good hsub hh hread hdecl ho rfl))
    · refine answers_congr (answers_whenReady rfl hready) ((State.steerSlot_front hp hst).trans ?_)
      rw [hdet]
      refine (if_neg (by rw [hlive]; decide)).trans ?_
      rw [hsub] <;> rfl
  · exact fun s n bad hready h => answers_congr (answers_whenReady rfl hready) (State.steerSlot_idle h)
  · intro cfg o p ts ch forced shed r
    refine ⟨fun hshed h => ?_, fun h => ?_⟩
    · subst hshed
      exact steer_sweep h
    · intro rects m
      obtain ⟨c1, c2, c3, hsteer⟩ := steer_merged (o := o) (ts := ts) (ch := ch) h
      have hr : r = _ := hsteer
      refine ⟨fun hm => ?_, fun hm hk => ?_, fun hm hshed hk => ?_⟩
      · rw [hr.trans (if_pos (List.isEmpty_iff.2 hm))]
        exact ⟨rfl, rfl⟩
      · have hstay : ¬ ((!shed && decide (cfg.steer.promote * (o.tilesW * o.tilesH) < (o.tiles false (steerMerged cfg p ts ch).1 p.width p.height).1.length * 100)) = true) := by
          rcases hk with hk | hk
          · simp [hk]
          · simp only [Bool.and_eq_true, decide_eq_true_eq, not_and, Nat.not_lt]
            exact fun _ => hk
        rw [hr.trans ((if_neg fun he => hm (List.isEmpty_iff.1 he)).trans (if_neg hstay))]
        exact ⟨rfl, rfl⟩
      · rw [hr.trans ((if_neg fun he => hm (List.isEmpty_iff.1 he)).trans (if_pos (by rw [hshed]; exact decide_eq_true hk)))]
        exact ⟨rfl, rfl⟩
  · intro limit rs hlimit m
    exact mergeRegions_spec hlimit rs.length rs le_rfl

end Sys2Proof.Proofs

end

