-- ==== Sys2Proof/Proofs/CoreRegisters.lean ====
section
/-! PROOFS. The register files of a core and its retirement (R143, R146), rules for every instruction. -/
namespace Sys2Proof.Machine
open Sys2Proof

/-- A command reaches what its effect satisfies, where that does not speak of the queue. -/
theorem reaches_of_effect {s t : State} {c : Instr} {P : State → Prop} (h : Answers c s t) (hp : P t)
    (hqueue : ∀ (u : State) q, P u → P { u with pending := q }) : Reaches c s P := reaches_of_answers h (hqueue t s.pending hp)

/-- A trap with a fault ends as that fault of the core's context. -/
theorem answers_fault {s t : State} {c : Nat} {i : Instr} {f : Run} {code : Nat} {d : Option Nat} {a : Nat} (h : Answers i s (s.settled c i f))
    (hrun : f = .error (.fault code d a, t)) :
    Answers i s (t.ctxFault (t.core c).ctx { code := code, unit := c, detail := d.getD (t.core c).pc, addr := a }) :=
  answers_congr h (congrArg (s.settled c i) hrun)

/-- An instruction that faults before any effect. -/
theorem answers_refused {s : State} {c : Nat} {i : Instr} {f : Run} {code a : Nat} (h : Answers i s (s.settled c i f))
    (hrun : f = .error (.fault code none a, s)) :
    Answers i s (s.ctxFault (s.core c).ctx { code := code, unit := c, detail := (s.core c).pc, addr := a }) :=
  answers_congr h (congrArg (s.settled c i) hrun)

section
variable (s : State) (c : Nat)

/-! ### Register files (R143, R146) -/

@[simp] theorem State.sreg_zero : s.sreg c 0 = 0#32 := if_pos rfl

@[simp] theorem State.mreg_zero : s.mreg c 0 = 2 ^ 64 - 1 := if_pos rfl

/-- Scalar registers are the core's alone. -/
theorem State.sreg_congr {s t : State} {c : Nat} (h : (t.core c).s = (s.core c).s) (r : Nat) : t.sreg c r = s.sreg c r := by
  rw [State.sreg, State.sreg, h]

theorem State.setS_sreg (r : Nat) (v : Word) (c' r' : Nat) :
    (s.setS c r v).sreg c' r' = if c' = c ∧ r' = r ∧ r ≠ 0 then v else s.sreg c' r' := by
  by_cases hr : r = 0
  · rw [State.setS, if_pos hr, if_neg fun h => h.2.2 hr]
  · rw [State.setS, if_neg hr]
    by_cases hc : c' = c
    · subst hc
      rw [State.sreg, State.modCore_core]
      by_cases hr' : r' = r
      · subst hr'
        rw [if_neg hr, if_pos ⟨rfl, rfl, hr⟩, tget_tset_same]
      · rw [if_neg (show ¬ (c' = c' ∧ r' = r ∧ r ≠ 0) from fun h => hr' h.2.1), tget_tset_ne _ _ _ hr']
        rfl
    · rw [State.sreg, State.modCore_core_ne _ _ hc, if_neg (show ¬ (c' = c ∧ r' = r ∧ r ≠ 0) from fun h => hc h.1)]
      rfl

theorem State.setS_sreg_same {r : Nat} (hr : r ≠ 0) (v : Word) : (s.setS c r v).sreg c r = v := by
  rw [State.setS_sreg, if_pos ⟨rfl, rfl, hr⟩]

/-- A write of rd leaves the other registers, and s0. -/
theorem State.setS_sreg_of_ne {r r' : Nat} (h : r' ≠ r ∨ r' = 0) (v : Word) : (s.setS c r v).sreg c r' = s.sreg c r' := by
  rw [State.setS_sreg, if_neg]
  rintro ⟨-, rfl, hr⟩
  rcases h with h | h
  · exact h rfl
  · exact hr h

theorem State.setM_mreg {m : Nat} (hm : m < 2 ^ 64) (r c' r' : Nat) :
    (s.setM c r m).mreg c' r' = if c' = c ∧ r' = r ∧ r ≠ 0 then m else s.mreg c' r' := by
  by_cases hr : r = 0
  · rw [State.setM, if_pos hr, if_neg fun h => h.2.2 hr]
  · rw [State.setM, if_neg hr]
    by_cases hc : c' = c
    · subst hc
      rw [State.mreg, State.modCore_core]
      by_cases hr' : r' = r
      · subst hr'
        rw [if_neg hr, if_pos ⟨rfl, rfl, hr⟩, tget_tset_same, BitVec.toNat_ofNat, Nat.mod_eq_of_lt hm]
      · rw [if_neg (show ¬ (c' = c' ∧ r' = r ∧ r ≠ 0) from fun h => hr' h.2.1), tget_tset_ne _ _ _ hr']
        rfl
    · rw [State.mreg, State.modCore_core_ne _ _ hc, if_neg (show ¬ (c' = c ∧ r' = r ∧ r ≠ 0) from fun h => hc h.1)]
      rfl

theorem State.setV_vreg (r : Nat) (x : BitVec 512) (c' r' : Nat) :
    (s.setV c r x).vreg c' r' = if c' = c ∧ r' = r then x else s.vreg c' r' := by
  rw [State.setV]
  by_cases hc : c' = c
  · subst hc
    rw [State.vreg, State.modCore_core]
    by_cases hr : r' = r
    · subst hr
      rw [if_pos ⟨rfl, rfl⟩, tget_tset_same]
    · rw [if_neg fun h => hr h.2, tget_tset_ne _ _ _ hr]
      rfl
  · rw [State.vreg, State.modCore_core_ne _ _ hc, if_neg fun h => hc h.1]
    rfl

/-- A scalar write changes nothing of the core but the register. -/
theorem State.setS_core (r : Nat) (v : Word) : (s.setS c r v).core c =
    { s.core c with s := if r = 0 then (s.core c).s else tset 0#32 (s.core c).s r v } := by
  unfold State.setS
  split
  · rfl
  · exact State.modCore_core _ _ _

/-! ### Retirement -/

@[simp] theorem State.retire_core : (s.retire c).core c =
    { s.core c with pc := ((s.core c).pc + 1) % 2048, retired := ((s.core c).retired + 1) % 2 ^ 64 } :=
  State.modCore_core s c (fun k => { k with pc := (k.pc + 1) % 2048, retired := (k.retired + 1) % 2 ^ 64 })

@[simp] theorem State.retire_mem : (s.retire c).mem = s.mem := by rw [State.retire, State.account_mem, State.modCore_mem]

@[simp] theorem State.vecBusy_mem : (s.vecBusy c).mem = s.mem := by rw [State.vecBusy, State.account_mem]

@[simp] theorem State.vecBusy_core (n : Nat) : (s.vecBusy c).core n = s.core n := rfl

/-- Vector registers are the core's alone. -/
theorem State.vreg_congr {s t : State} {c : Nat} (h : (t.core c).v = (s.core c).v) (r : Nat) : t.vreg c r = s.vreg c r := by
  rw [State.vreg, State.vreg, h]

@[simp] theorem State.retire_vreg (r : Nat) : (s.retire c).vreg c r = s.vreg c r := State.vreg_congr (by rw [State.retire_core]) r

@[simp] theorem State.vecBusy_vreg (r : Nat) : (s.vecBusy c).vreg c r = s.vreg c r := State.vreg_congr (by rw [State.vecBusy_core]) r

@[simp] theorem State.retire_sreg (r : Nat) : (s.retire c).sreg c r = s.sreg c r :=
  State.sreg_congr (by rw [State.retire_core]) r

end

end Sys2Proof.Machine
end

