-- ==== Sys2Proof/Proofs/ScratchpadLines.lean ====
section
/-! PROOFS. Scratchpad accesses (R147, R156, R159, R161): what a port's check refuses, the lines that it tests, the bytes that a store
leaves. -/
namespace Sys2Proof.Machine
open Sys2Proof

/-! ### Bytes of a range -/

theorem State.rdBytes_eq_map (s : State) (a n : Nat) : s.rdBytes a n = (upto a n).map s.rdByte := by
  unfold State.rdBytes
  induction n generalizing a with
  | zero => rfl
  | succ n ih =>
    rw [rdList, ih, upto, List.map_cons]
    rfl

theorem State.rdBytes_eq {s : State} {a : Nat} {bs : List Byte} (h : ∀ i (hi : i < bs.length), s.rdByte (a + i) = bs[i]) :
    s.rdBytes a bs.length = bs := by
  rw [State.rdBytes_eq_map, upto_eq_range']
  refine List.ext_getElem (by simp) fun i _ hi => ?_
  simpa using h i hi

/-- Byte `i` of a number. -/
theorem getElem_leBytes (n v i : Nat) (h : i < (leBytes n v).length) : (leBytes n v)[i] = BitVec.ofNat 8 (v / 256 ^ i) := by
  induction n generalizing v i with
  | zero => simp [leBytes] at h
  | succ n ih =>
    cases i with
    | zero => simp [leBytes]
    | succ i =>
      simp only [leBytes, List.getElem_cons_succ]
      rw [ih, Nat.div_div_eq_div_mul, ← pow_succ']

/-! ### The check of an access (R147, R159, R161) -/

section
variable {s : State} {c owner off n align : Nat}

theorem State.portCheck_addr (h : 0x20000 < off + n ∨ off % align ≠ 0) : s.portCheck c owner off n align = some (.fault fltCoreAddr none off) := if_pos h

section
variable (hfit : off + n ≤ 0x20000) (halign : off % align = 0)
include hfit halign

theorem State.portCheck_off (h : ∃ b ∈ banksOf off n, bit (s.core c).pwr b = false) :
    s.portCheck c owner off n align = some (.fault fltCoreBankOff none off) := by
  obtain ⟨b, hb, hoff⟩ := h
  refine (if_neg (by omega)).trans (if_pos ?_)
  exact List.any_eq_true.2 ⟨b, hb, by simp [hoff]⟩

variable (hpwr : ∀ b ∈ banksOf off n, bit (s.core c).pwr b = true)
include hpwr

omit hfit halign in
theorem powered_any : ¬ ((banksOf off n).any (fun b => !bit (s.core c).pwr b)) = true := by
  rw [Bool.not_eq_true, List.any_eq_false]
  intro b hb
  simp [hpwr b hb]

theorem State.portCheck_own (h : ∃ b ∈ banksOf off n, tget 0 (s.core c).own b ≠ owner) :
    s.portCheck c owner off n align = some (.fault fltCoreBankOwn none off) := by
  obtain ⟨b, hb, hown⟩ := h
  refine (if_neg (by omega)).trans ((if_neg (powered_any hpwr)).trans (if_pos ?_))
  exact List.any_eq_true.2 ⟨b, hb, by simpa using hown⟩

theorem State.portCheck_none (hown : ∀ b ∈ banksOf off n, tget 0 (s.core c).own b = owner) : s.portCheck c owner off n align = none := by
  refine (if_neg (by omega)).trans ((if_neg (powered_any hpwr)).trans (if_neg ?_))
  rw [Bool.not_eq_true, List.any_eq_false]
  intro b hb
  simp [hown b hb]

end

/-! ### Reads -/

/-- Lines whose check holds are read without a failure. -/
theorem State.testLines_ok (e : ReadErrors) (ls : List Nat) (h : ∀ l ∈ ls, s.lineFails l = false ∧ l ∉ e.failing) : State.testLines s e ls = .ok s := by
  induction ls with
  | nil => rfl
  | cons l t ih =>
    obtain ⟨hgood, hread⟩ := h l List.mem_cons_self
    have hline : s.testLine 43 l e = (.ok, s) := if_pos (by simp [hgood, hread])
    rw [State.testLines, hline]
    exact ih fun x hx => h x (List.mem_cons_of_mem _ hx)

theorem State.portRead_ok {e : ReadErrors} (hcheck : s.portCheck c owner off n align = none)
    (hlines : ∀ l ∈ linesOf (coreBase c + off) n, s.lineFails l = false ∧ l ∉ e.failing) :
    s.portRead c owner off n align e = .ok (s.rdBytes (coreBase c + off) n, s) := by
  rw [State.portRead, hcheck, State.testLines_ok e _ hlines]

theorem State.portRead_refused {e : ReadErrors} {t : Trap} (hcheck : s.portCheck c owner off n align = some t) :
    s.portRead c owner off n align e = .error (t, s) := by
  rw [State.portRead, hcheck]

theorem State.portWrite_ok {bs : List Byte} (hcheck : s.portCheck c owner off bs.length align = none) :
    s.portWrite c owner off align bs = .ok (s.store 0 (coreBase c + off) bs) := by
  rw [State.portWrite, hcheck]

theorem State.portWrite_refused {bs : List Byte} {t : Trap} (hcheck : s.portCheck c owner off bs.length align = some t) :
    s.portWrite c owner off align bs = .error (t, s) := by
  rw [State.portWrite, hcheck]

end

/-! ### Stores on the chip (R156, R386) -/

/-- Only stored bytes changed; every line's check stands as it did. -/
def State.OnChip (s t : State) : Prop :=
  ∃ b f, t = { s with mem := { s.mem with bytes := b, failing := f } } ∧ ∀ l, tget false f l = tget false s.mem.failing l

theorem State.OnChip.refl (s : State) : s.OnChip s := ⟨_, _, rfl, fun _ => rfl⟩

theorem State.OnChip.trans {s t u : State} (h : s.OnChip t) (h' : t.OnChip u) : s.OnChip u := by
  obtain ⟨_, _, rfl, h⟩ := h
  obtain ⟨b, f, rfl, h'⟩ := h'
  exact ⟨b, f, rfl, fun l => (h' l).trans (h l)⟩

theorem State.OnChip.lineFails {s t : State} (h : s.OnChip t) (l : Nat) : t.lineFails l = s.lineFails l := by
  obtain ⟨_, _, rfl, h⟩ := h
  exact h l

theorem State.OnChip.cores {s t : State} (h : s.OnChip t) : t.cores = s.cores := by
  obtain ⟨_, _, rfl, -⟩ := h
  rfl

theorem State.OnChip.core {s t : State} (h : s.OnChip t) (n : Nat) : t.core n = s.core n := by
  rw [State.core, h.cores, ← State.core]

/-- The bytes `bs` stand at `a`, every other byte is as it was. -/
def State.Holds (s t : State) (a : Nat) (bs : List Byte) : Prop :=
  (∀ i (hi : i < bs.length), t.rdByte (a + i) = bs[i]) ∧ ∀ x, ¬ (a ≤ x ∧ x < a + bs.length) → t.rdByte x = s.rdByte x

/-- Bytes written in two parts. -/
theorem State.Holds.append {s t u : State} {a : Nat} {xs ys : List Byte} (h : s.Holds t a xs) (h' : t.Holds u (a + xs.length) ys) :
    s.Holds u a (xs ++ ys) := by
  obtain ⟨h1, h2⟩ := h
  obtain ⟨h3, h4⟩ := h'
  refine ⟨fun i hi => ?_, fun x hx => ?_⟩
  · by_cases hix : i < xs.length
    · rw [h4 _ (by omega), h1 i hix, List.getElem_append_left hix]
    · rw [List.getElem_append_right (by omega)]
      rw [List.length_append] at hi
      have := h3 (i - xs.length) (by omega)
      rwa [show a + xs.length + (i - xs.length) = a + i by omega] at this
  · rw [List.length_append] at hx
    rw [h4 x (by omega), h2 x (by omega)]

section
variable {s : State} {a line : Nat} {bs : List Byte}

/-- A line outside the saddle whose check holds takes the bytes. -/
theorem State.writeLine_onchip (ways : Nat) (hline : inSaddle line = false) (ha : inSaddle a = false) (hgood : s.lineFails line = false) :
    s.OnChip (s.writeLine ways line a bs) ∧ s.Holds (s.writeLine ways line a bs) a bs := by
  have hput : s.putBytes a bs = s.wrBytes a bs := State.putBytes_of_not_classP (by simp [State.classOf, ha])
  have hbytes : s.Holds (s.wrBytes a bs) a bs := ⟨fun i hi => State.rdByte_wrBytes_in hi, fun x hx => State.rdByte_wrBytes_out hx⟩
  simp only [State.writeLine, hline, hgood, Bool.false_eq_true, if_false, hput]
  split
  · refine ⟨⟨_, _, rfl, fun l => ?_⟩, hbytes⟩
    by_cases hl : l = line
    · subst hl
      exact (tget_tset_same ..).trans hgood.symm
    · exact tget_tset_ne _ _ _ hl
  · exact ⟨⟨_, _, rfl, fun _ => rfl⟩, hbytes⟩

/-- Addresses of the cores' windows. -/
theorem core_address {c off : Nat} (hc : c < 2048) (hoff : off < 0x20000) : lineLen (coreBase c + off) = 32 ∧ inSaddle (coreBase c + off) = false ∧
    (coreBase c + off) % 32 = off % 32 ∧ (coreBase c + off) % 64 = off % 64 := by
  have hcores : inCores (coreBase c + off) = true := by
    refine decide_eq_true ?_
    simp only [coreBase]
    omega
  refine ⟨by rw [lineLen, hcores, if_pos rfl], ?_, by simp only [coreBase]; omega, by simp only [coreBase]; omega⟩
  rw [Bool.eq_false_iff, Ne, inSaddle_iff]
  simp only [coreBase]
  omega

theorem State.store_in_line (hlen : lineLen a = 32) (hbs : bs ≠ []) (hfits : a % 32 + bs.length ≤ 32) :
    s.store 0 a bs = s.writeLine 0 (a / 32 * 32) a bs := by
  rw [State.store_within s 0 hbs (by rw [hlen]; exact hfits), hlen]

/-- A store inside one line of 32 B on the chip. -/
theorem State.store_line (hlen : lineLen a = 32) (hsaddle : inSaddle a = false) (hbs : bs ≠ []) (hfits : a % 32 + bs.length ≤ 32)
    (hgood : s.lineFails (a / 32 * 32) = false) : s.OnChip (s.store 0 a bs) ∧ s.Holds (s.store 0 a bs) a bs := by
  have hline := inSaddle_lineStart a
  rw [hlen] at hline
  have hwrite := State.writeLine_onchip (s := s) (bs := bs) 0 (hline.trans hsaddle) hsaddle hgood
  rwa [State.store_in_line hlen hbs hfits]

/-- A store inside one line of a scratchpad. -/
theorem State.store_scratch {c off : Nat} (hc : c < 2048) (hoff : off < 0x20000) (hbs : bs ≠ []) (hfits : off % 32 + bs.length ≤ 32)
    (hgood : s.lineFails ((coreBase c + off) / 32 * 32) = false) :
    s.OnChip (s.store 0 (coreBase c + off) bs) ∧ s.Holds (s.store 0 (coreBase c + off) bs) (coreBase c + off) bs := by
  obtain ⟨hlen, hsaddle, hmod, -⟩ := core_address hc hoff
  exact State.store_line hlen hsaddle hbs (by rw [hmod]; exact hfits) hgood

/-- Two lines from a line's start. -/
theorem linesOf_two (hlen : lineLen a = 32) (ha : a % 32 = 0) : linesOf a 64 = [a, a + 32] := by
  have hcount : (a + 64 - 1) / 32 - a / 32 = 1 := by omega
  simp only [linesOf, hlen, hcount, upto, List.map_cons, List.map_nil]
  rw [if_neg (by decide), show a / 32 * 32 = a by omega, show (a / 32 + 1) * 32 = a + 32 by omega]

theorem partIn_first (hbs : bs.length = 64) : partIn a 32 a bs = (a, bs.take 32) := by
  simp only [partIn, Nat.max_self, Nat.sub_self, List.drop_zero]
  rw [show min (a + bs.length) (a + 32) - a = 32 by omega]

theorem partIn_second (hbs : bs.length = 64) : partIn (a + 32) 32 a bs = (a + 32, bs.drop 32) := by
  simp only [partIn]
  rw [show max a (a + 32) = a + 32 by omega, show a + 32 - a = 32 by omega, List.take_of_length_le]
  rw [List.length_drop]
  omega

/-- A store of two whole lines on the chip. -/
theorem State.store_two (ha : a % 32 = 0) (hbs : bs.length = 64) (hlen : lineLen a = 32) (hlen' : lineLen (a + 32) = 32) (hsaddle : inSaddle a = false)
    (hsaddle' : inSaddle (a + 32) = false) (hgood : ∀ l ∈ linesOf a 64, s.lineFails l = false) :
    s.OnChip (s.store 0 a bs) ∧ s.Holds (s.store 0 a bs) a bs := by
  rw [linesOf_two hlen ha] at hgood
  have hstore : s.store 0 a bs = (s.writeLine 0 a a (bs.take 32)).writeLine 0 (a + 32) (a + 32) (bs.drop 32) := by
    rw [State.store, hbs, linesOf_two hlen ha]
    simp only [List.foldl_cons, List.foldl_nil, hlen, hlen', partIn_first hbs, partIn_second hbs]
  obtain ⟨hchip, hholds⟩ := State.writeLine_onchip (bs := bs.take 32) 0 hsaddle hsaddle (hgood _ List.mem_cons_self)
  obtain ⟨hchip', hholds'⟩ := State.writeLine_onchip (s := s.writeLine 0 a a (bs.take 32)) (bs := bs.drop 32) 0 hsaddle' hsaddle'
    ((hchip.lineFails _).trans (hgood _ (List.mem_cons_of_mem _ List.mem_cons_self)))
  have htake : (bs.take 32).length = 32 := by rw [List.length_take]; omega
  have hboth := State.Holds.append (xs := bs.take 32) (ys := bs.drop 32) hholds (by rw [htake]; exact hholds')
  rw [List.take_append_drop] at hboth
  rw [hstore]
  exact ⟨hchip.trans hchip', hboth⟩

/-- A store of two whole lines of a scratchpad. -/
theorem State.store_scratch_two {c off : Nat} (hc : c < 2048) (hoff : off + 64 ≤ 0x20000) (halign : off % 32 = 0) (hbs : bs.length = 64)
    (hgood : ∀ l ∈ linesOf (coreBase c + off) 64, s.lineFails l = false) :
    s.OnChip (s.store 0 (coreBase c + off) bs) ∧ s.Holds (s.store 0 (coreBase c + off) bs) (coreBase c + off) bs := by
  obtain ⟨hlen, hsaddle, hmod, -⟩ := core_address hc (show off < 0x20000 by omega)
  obtain ⟨hlen', hsaddle', -, -⟩ := core_address hc (show off + 32 < 0x20000 by omega)
  rw [← Nat.add_assoc] at hlen' hsaddle'
  exact State.store_two (hmod.trans halign) hbs hlen hlen' hsaddle hsaddle' hgood

end

end Sys2Proof.Machine
end

