-- ==== Sys2Proof/Proofs/ScalarResults.lean ====
section
/-! PROOFS. Scalar instructions: results, branches, control and status registers (R145, R148, R150). -/
namespace Sys2Proof.Machine
open Sys2Proof

section
variable {s : State} {c : Nat} (hup : s.up = true)
include hup

/-! ### Arithmetic (R145) -/

section
variable {f : ScalarFields} (hissues : (s.core c).issues f.word = true)
include hissues

/-- The second operand at the word's bits. -/
def State.operandB (s : State) (c : Nat) (f : ScalarFields) : Word :=
  if f.immediate then BitVec.ofNat 32 (f.word.field 31 0) else s.sreg c (f.word.field 41 37)

theorem answers_scalarAlu {op : AluOp} {r : Option Word} (hop : op ≠ .undefined) (hclass : coreClass f.word = some .alu) (hzeros : f.zeros = 0)
    (hval : aluVal op (s.sreg c (f.word.field 46 42)) (s.operandB c f) = r) :
    Answers (.scalarAlu c op f) s ((s.setOrFree c (f.word.field 51 47) r).retire c) := by
  refine answers_retire (answers_coreStep rfl hup hissues rfl rfl hclass) (if_neg ?_ |>.trans ?_)
  · rintro (h | h)
    · exact hop h
    · exact h hzeros
  · rw [← hval]
    rfl

theorem answers_scalarMuldiv {op : MulOp} {v : Word} (hop : op ≠ .undefined) (hclass : coreClass f.word = some .muldiv) (himm : f.immediate = false)
    (hzeros : f.zeros = 0) (hval : mulVal op (s.sreg c (f.word.field 46 42)) (s.operandB c f) = v) :
    Answers (.scalarMuldiv c op f) s ((s.setS c (f.word.field 51 47) v).retire c) := by
  refine answers_retire (answers_coreStep rfl hup hissues rfl (by simp [Instr.spelt, himm]) hclass) (if_neg ?_ |>.trans ?_)
  · rintro (h | h)
    · exact hop h
    · exact h hzeros
  · rw [← hval]
    rfl

end

end

theorem boolWord_decide (p : Prop) [Decidable p] : boolWord (decide p) = if p then 1#32 else 0#32 := by
  unfold boolWord
  by_cases h : p <;> simp [h]

theorem divS_zero (a : Word) : divS a 0#32 = (0xFFFFFFFF#32, a) := rfl

theorem divS_overflow : divS 0x80000000#32 0xFFFFFFFF#32 = (0x80000000#32, 0#32) := by decide

theorem divS_of_ne {a b : Word} (hb : b ≠ 0#32) (h : ¬ (a = 0x80000000#32 ∧ b = 0xFFFFFFFF#32)) :
    divS a b = (BitVec.ofInt 32 (a.toInt.tdiv b.toInt), BitVec.ofInt 32 (a.toInt.tmod b.toInt)) := (if_neg hb).trans (if_neg h)

theorem divU_zero (a : Word) : divU a 0#32 = (0xFFFFFFFF#32, a) := rfl

theorem divU_of_ne {a b : Word} (hb : b ≠ 0#32) : divU a b = (BitVec.ofNat 32 (a.toNat / b.toNat), BitVec.ofNat 32 (a.toNat % b.toNat)) := if_neg hb

/-- The results that the spec states of every operand. -/
theorem aluVal_table (a b : Word) : ∀ p ∈ ([(.add, a + b), (.sub, a - b), (.and, a &&& b), (.or, a ||| b), (.xor, a ^^^ b)
    , (.slt, if a.toInt < b.toInt then 1#32 else 0#32), (.sltu, if a.toNat < b.toNat then 1#32 else 0#32)
    , (.min, if a.toInt < b.toInt then a else b), (.max, if a.toInt < b.toInt then b else a)
    , (.minu, if a.toNat < b.toNat then a else b), (.maxu, if a.toNat < b.toNat then b else a)] : List (AluOp × Word)),
    p.1 ≠ .undefined ∧ aluVal p.1 a b = some p.2 := by
  simp only [List.forall_mem_cons, List.not_mem_nil, false_imp_iff, implies_true, and_true]
  refine ⟨⟨by decide, rfl⟩, ⟨by decide, rfl⟩, ⟨by decide, rfl⟩, ⟨by decide, rfl⟩, ⟨by decide, rfl⟩, ⟨by decide, ?_⟩, ⟨by decide, ?_⟩,
    ⟨by decide, ?_⟩, ⟨by decide, ?_⟩, ⟨by decide, ?_⟩, by decide, ?_⟩
  · exact congrArg some (boolWord_decide _)
  · exact congrArg some (boolWord_decide _)
  all_goals simp only [aluVal, BitVec.slt, BitVec.ult, decide_eq_true_eq]

theorem aluVal_shift {a b : Word} (h : b.toNat < 32) : ∀ p ∈ ([(.sll, a <<< b.toNat), (.srl, a >>> b.toNat), (.sra, a.sshiftRight b.toNat)] : List (AluOp × Word)),
    p.1 ≠ .undefined ∧ aluVal p.1 a b = some p.2 := by
  simp only [List.forall_mem_cons, List.not_mem_nil, false_imp_iff, implies_true, and_true]
  exact ⟨⟨by decide, if_pos h⟩, ⟨by decide, if_pos h⟩, by decide, if_pos h⟩

theorem aluVal_shift_free {a b : Word} (h : 32 ≤ b.toNat) : ∀ op ∈ [AluOp.sll, .srl, .sra], op ≠ .undefined ∧ aluVal op a b = none := by
  simp only [List.forall_mem_cons, List.not_mem_nil, false_imp_iff, implies_true, and_true]
  exact ⟨⟨by decide, if_neg (Nat.not_lt.2 h)⟩, ⟨by decide, if_neg (Nat.not_lt.2 h)⟩, by decide, if_neg (Nat.not_lt.2 h)⟩

/-! ### Branches and jumps (R150) -/

theorem condHolds_table (x y : Word) : ∀ p ∈ [(0, Cond.eq, x == y), (1, .ne, x != y), (2, .lt, decide (x.toInt < y.toInt)), (3, .ge, decide (y.toInt ≤ x.toInt))
    , (4, .ltu, decide (x.toNat < y.toNat)), (5, .geu, decide (y.toNat ≤ x.toNat))],
    condOf p.1 = p.2.1 ∧ p.2.1 ≠ .reserved ∧ p.2.1 ≠ .always ∧ condHolds p.2.1 x y = p.2.2 := by
  have hge : (!x.slt y) = decide (y.toInt ≤ x.toInt) := by simp [BitVec.slt, ← decide_not]
  have hgeu : (!x.ult y) = decide (y.toNat ≤ x.toNat) := by simp [BitVec.ult, ← decide_not]
  simp only [List.forall_mem_cons, List.not_mem_nil, false_imp_iff, implies_true, and_true]
  exact ⟨⟨rfl, by decide, by decide, rfl⟩, ⟨rfl, by decide, by decide, rfl⟩, ⟨rfl, by decide, by decide, rfl⟩, ⟨rfl, by decide, by decide, hge⟩,
    ⟨rfl, by decide, by decide, rfl⟩, rfl, by decide, by decide, hgeu⟩

section
variable {s : State} {c : Nat} {w : IWord}

/-- The core turned to `off` from its PC, one short of it. -/
def State.turned (s : State) (c : Nat) (off : Int) : State :=
  s.modCore c (fun k => { k with pc := ((((s.core c).pc : Int) + off - 1) % 2048).toNat })

theorem pc_turned (pc : Nat) (off : Int) : ((((((pc : Int) + off - 1) % 2048).toNat + 1) % 2048 : Nat) : Int) = (pc + off) % 2048 := by omega

theorem State.turned_retire_pc (off : Int) : ((((s.turned c off).retire c).core c).pc : Int) = ((s.core c).pc + off) % 2048 := by
  rw [State.retire_core, State.turned, State.modCore_core]
  exact pc_turned _ _

theorem answers_branch (hup : s.up = true) (hissues : (s.core c).issues w = true) (hclass : coreClass w = some .branch) {cond : Cond} (hcond : condOf (w.field 36 32) = cond)
    (hres : cond ≠ .reserved) : Answers (.branch c (w.field 51 47) (w.field 46 42) (w.field 41 37) cond (sgn 32 (w.field 31 0)) w) s
      ((s.branchTo c (w.field 51 47) (w.field 46 42) (w.field 41 37) cond (sgn 32 (w.field 31 0))).retire c) :=
  answers_retire (answers_coreStep rfl hup hissues rfl (by simp [Instr.spelt, hcond]) hclass) (if_neg hres)

theorem State.branchTo_cond {rd rs1 rs2 : Nat} {cond : Cond} {off : Int} (h : cond ≠ .always) : s.branchTo c rd rs1 rs2 cond off =
    if condHolds cond (s.sreg c rs1) (s.sreg c rs2) then s.turned c off else s := by
  unfold State.branchTo
  simp only [if_neg h]
  rfl

theorem State.branchTo_always {rd rs1 rs2 : Nat} {off : Int} : s.branchTo c rd rs1 rs2 .always off =
    (s.setS c rd (BitVec.ofNat 32 (((s.core c).pc + 1) % 2048))).modCore c (fun k => { k with pc := ((((s.core c).pc : Int) + off - 1) % 2048).toNat }) := rfl

/-- A jump goes to its target, and writes the index after it to rd alone. -/
theorem State.jump_retire (rd rs1 rs2 : Nat) (off : Int) :
    ((((s.branchTo c rd rs1 rs2 .always off).retire c).core c).pc : Int) = ((s.core c).pc + off) % 2048 ∧
      (rd ≠ 0 → ((s.branchTo c rd rs1 rs2 .always off).retire c).sreg c rd = BitVec.ofNat 32 (((s.core c).pc + 1) % 2048)) ∧
      ∀ r, r ≠ rd ∨ r = 0 → ((s.branchTo c rd rs1 rs2 .always off).retire c).sreg c r = s.sreg c r := by
  rw [State.branchTo_always]
  have hregs : ∀ r, (((s.setS c rd (BitVec.ofNat 32 (((s.core c).pc + 1) % 2048))).modCore c
      (fun k => { k with pc := ((((s.core c).pc : Int) + off - 1) % 2048).toNat })).retire c).sreg c r =
        (s.setS c rd (BitVec.ofNat 32 (((s.core c).pc + 1) % 2048))).sreg c r := fun r => by
    rw [State.retire_sreg]
    exact State.sreg_congr (by rw [State.modCore_core]) r
  refine ⟨?_, fun hrd => (hregs rd).trans (State.setS_sreg_same s c hrd _), fun r hr => (hregs r).trans (State.setS_sreg_of_ne s c hr _)⟩
  rw [State.retire_core, State.modCore_core]
  exact pc_turned _ _

/-! ### Control and status registers (R148) -/

/-- CYCLE is read with its high word latched. -/
theorem State.csrVal_cycle : ∃ n t, s.csrVal c 3 = (n % 2 ^ 32, t) ∧ (t.core c).cycle = n ∧ (t.core c).cycleHi = some (n / 2 ^ 32) :=
  ⟨((s.core c).cycle + (s.draw 64).1) % 2 ^ 64, _, rfl, congrArg Core.cycle (State.modCore_core _ c _), congrArg Core.cycleHi (State.modCore_core _ c _)⟩

theorem State.cycleRead_retire (rd : Nat) : (rd ≠ 0 →
      (((((s.csrVal c 3).2).setS c rd (BitVec.ofNat 32 (s.csrVal c 3).1)).retire c).sreg c rd).toNat =
        (((((s.csrVal c 3).2).setS c rd (BitVec.ofNat 32 (s.csrVal c 3).1)).retire c).core c).cycle % 2 ^ 32) ∧
    (((((s.csrVal c 3).2).setS c rd (BitVec.ofNat 32 (s.csrVal c 3).1)).retire c).core c).cycleHi =
      some ((((((s.csrVal c 3).2).setS c rd (BitVec.ofNat 32 (s.csrVal c 3).1)).retire c).core c).cycle / 2 ^ 32) := by
  obtain ⟨n, t, hval, hcycle, hhi⟩ := s.csrVal_cycle (c := c)
  rw [hval, State.retire_core, State.setS_core]
  refine ⟨fun hrd => ?_, by dsimp only; rw [hhi, hcycle]⟩
  rw [State.retire_sreg, State.setS_sreg_same _ _ hrd]
  dsimp only
  rw [hcycle, BitVec.toNat_ofNat, Nat.mod_mod]

theorem answers_csrRead (hup : s.up = true) (hissues : (s.core c).issues w = true) (hclass : coreClass w = some .csr) (hzero : w.field 41 32 = 0) :
    Answers (.csrRead c (w.field 51 47) (w.field 31 0) w) s
      ((((s.csrVal c (w.field 31 0)).2).setS c (w.field 51 47) (BitVec.ofNat 32 (s.csrVal c (w.field 31 0)).1)).retire c) :=
  answers_retire (answers_coreStep rfl hup hissues rfl (by simp [Instr.spelt]) hclass) (if_neg (not_not_intro hzero))

/-- Reading a register but CYCLE changes no core. -/
theorem State.csrVal_cores {csr : Nat} (h : csr ≠ 3) : (s.csrVal c csr).2.cores = s.cores := by
  unfold State.csrVal
  split
  case h_4 => exact absurd rfl h
  all_goals rfl

end

end Sys2Proof.Machine

namespace Sys2Proof.Proofs
open Sys2Proof.Machine

/-- Settles O20. -/
theorem scalarResults : Obligations.ScalarResults := by
  unfold Obligations.ScalarResults
  refine ⟨?_, ?_, ?_⟩
  · intro s c f hup hissues a b rd zeros
    refine ⟨fun hclass hzeros => ⟨fun p hp => ?_, fun hb p hp => ?_, fun hb op hop => ?_⟩, fun hclass himm hzeros => ?_⟩
    · obtain ⟨hop, hval⟩ := aluVal_table a b p hp
      exact answers_scalarAlu hup hissues hop hclass hzeros hval
    · obtain ⟨hop, hval⟩ := aluVal_shift (a := a) hb p hp
      exact answers_scalarAlu hup hissues hop hclass hzeros hval
    · obtain ⟨hop, hval⟩ := aluVal_shift_free (a := a) hb op hop
      exact answers_scalarAlu hup hissues hop hclass hzeros hval
    · have hdo : ∀ op v, op ≠ MulOp.undefined → mulVal op a b = v → Answers (.scalarMuldiv c op f) s ((s.setS c rd v).retire c) :=
        fun op v hop hval => answers_scalarMuldiv hup hissues hop hclass himm hzeros hval
      simp only [List.forall_mem_cons, List.not_mem_nil, false_imp_iff, implies_true, and_true]
      refine ⟨⟨hdo _ _ (by decide) rfl, hdo _ _ (by decide) rfl, hdo _ _ (by decide) ?_⟩, fun hb => ?_, fun ha hb => ?_, fun hb hab => ?_, fun hb => ?_⟩
      · exact congrArg (BitVec.ofInt 32) (Int.fdiv_eq_ediv_of_nonneg _ (by decide))
      · rw [hb] at hdo
        exact ⟨hdo _ _ (by decide) rfl, hdo _ _ (by decide) rfl, hdo _ _ (by decide) rfl, hdo _ _ (by decide) rfl⟩
      · rw [ha, hb] at hdo
        exact ⟨hdo _ _ (by decide) (congrArg Prod.fst divS_overflow), hdo _ _ (by decide) (congrArg Prod.snd divS_overflow)⟩
      · exact ⟨hdo _ _ (by decide) (congrArg Prod.fst (divS_of_ne hb hab)), hdo _ _ (by decide) (congrArg Prod.snd (divS_of_ne hb hab))⟩
      · exact ⟨hdo _ _ (by decide) (congrArg Prod.fst (divU_of_ne hb)), hdo _ _ (by decide) (congrArg Prod.snd (divU_of_ne hb))⟩
  · intro s c w hup hissues rd
    refine ⟨fun hclass => ?_, fun hclass hzero => ?_⟩
    · intro rs1 rs2 off x y go
      refine ⟨fun p hp hw => ?_, fun hw => ?_, State.turned_retire_pc off⟩
      · obtain ⟨hcond, hres, halways, hholds⟩ := condHolds_table x y p hp
        refine answers_congr (answers_branch hup hissues hclass (hw ▸ hcond) hres) ?_
        rw [State.branchTo_cond halways, apply_ite (State.retire · c)]
        exact if_congr (by rw [hholds]) rfl rfl
      · exact reaches_of_effect (answers_branch hup hissues hclass (cond := .always) (congrArg condOf hw) (by decide)) (State.jump_retire rd rs1 rs2 off) fun _ _ h => h
    · intro csr
      have hread := answers_csrRead hup hissues hclass hzero
      refine ⟨fun p hp hcsr => ?_, fun hcsr => ?_, fun hcsr => ?_⟩
      · refine answers_congr hread ?_
        have hval : s.csrVal c (w.field 31 0) = (p.2, s) := by
          rw [show w.field 31 0 = p.1 from hcsr]
          revert p
          simp only [List.forall_mem_cons, List.not_mem_nil, false_imp_iff, implies_true, and_true]
          exact ⟨fun _ => rfl, fun _ => rfl, fun _ => rfl, fun _ => rfl, fun _ => rfl⟩
        rw [hval]
      · refine reaches_of_effect hread (fun r hr => ?_) fun _ _ h => h
        refine (State.retire_sreg _ c r).trans ((State.setS_sreg_of_ne _ c hr _).trans (State.sreg_congr ?_ r))
        exact congrArg (fun l : Tbl Core => (tget ({} : Core) l c).s) (State.csrVal_cores hcsr)
      · rw [show w.field 31 0 = 3 from hcsr] at hread
        exact reaches_of_effect hread (State.cycleRead_retire rd) fun _ _ h => h
  · intro s c c' r r' m v x hm
    refine ⟨s.sreg_zero c, s.mreg_zero c, s.setS_sreg c r v c' r', s.setM_mreg c hm r c' r', s.setV_vreg c r x c' r', ?_⟩
    rw [State.retire_core, State.setS_core]

end Sys2Proof.Proofs

end

