-- ==== Sys2Proof/Proofs/ScratchpadAccesses.lean ====
section
/-! PROOFS. Scratchpad loads and stores (R147, R159, R161). -/
namespace Sys2Proof.Machine
open Sys2Proof

/-! ### Scalar accesses -/

section
variable {s : State} {c n : Nat} {f : ScalarFields} {e : ReadErrors}

/-- The offset that a scalar access names. -/
def State.scalarOff (s : State) (c : Nat) (f : ScalarFields) : Nat := (s.sreg c (f.word.field 46 42) + BitVec.ofNat 32 (f.word.field 31 0)).toNat

section
variable (himm : f.immediate = true)
include himm

theorem State.scalarOff_eq : (s.sreg c f.rs1 + s.src2 c f).toNat = s.scalarOff c f := by
  rw [State.src2, himm, if_pos rfl] <;> rfl

variable (hzero : f.word.field 41 32 = 0) (hn : n ∈ [1, 2, 4])
include hzero hn

omit hzero hn in
theorem ScalarFields.zeros_of_immediate : f.zeros = f.word.field 41 32 := by rw [ScalarFields.zeros, himm, if_pos rfl]

theorem legal_access : ¬ (f.zeros ≠ 0 ∨ (!([1, 2, 4].contains n)) = true) := by
  rintro (h | h)
  · exact h ((ScalarFields.zeros_of_immediate himm).trans hzero)
  · rw [List.contains_iff_mem.2 hn] at h
    cases h

theorem State.scalarMem_load (signed : Bool) : s.scalarMem c (.load n signed) f e =
    match s.portRead c ownScalar (s.scalarOff c f) n n e with
    | .error x => .error x
    | .ok (bs, t) => .ok (t.setS c f.rd (if signed then BitVec.ofInt 32 (sgn (8 * n) (leNat bs)) else BitVec.ofNat 32 (leNat bs))) := by
  unfold State.scalarMem
  rw [State.scalarOff_eq himm]
  exact (if_neg (legal_access himm hzero hn)).trans (by cases s.portRead c ownScalar (s.scalarOff c f) n n e <;> rfl)

theorem State.scalarMem_store : s.scalarMem c (.store n) f e = s.portWrite c ownScalar (s.scalarOff c f) n (leBytes n (s.sreg c f.rd).toNat) := by
  unfold State.scalarMem
  rw [State.scalarOff_eq himm]
  exact if_neg (legal_access himm hzero hn)

theorem State.scalarMem_refused {t : Trap} (hcheck : s.portCheck c ownScalar (s.scalarOff c f) n n = some t) :
    (∀ signed, s.scalarMem c (.load n signed) f e = .error (t, s)) ∧ s.scalarMem c (.store n) f e = .error (t, s) := by
  refine ⟨fun signed => ?_, ?_⟩
  · rw [State.scalarMem_load himm hzero hn, State.portRead_refused hcheck]
  · rw [State.scalarMem_store himm hzero hn]
    exact State.portWrite_refused (by rw [leBytes_length]; exact hcheck)

theorem State.scalarMem_load_ok (signed : Bool) (hcheck : s.portCheck c ownScalar (s.scalarOff c f) n n = none)
    (hlines : ∀ l ∈ linesOf (coreBase c + s.scalarOff c f) n, s.lineFails l = false ∧ l ∉ e.failing) :
    s.scalarMem c (.load n signed) f e = .ok (s.setS c f.rd
      (if signed then BitVec.ofInt 32 (sgn (8 * n) (s.rdNat (coreBase c + s.scalarOff c f) n)) else BitVec.ofNat 32 (s.rdNat (coreBase c + s.scalarOff c f) n))) := by
  rw [State.scalarMem_load himm hzero hn, State.portRead_ok hcheck hlines] <;> rfl

theorem State.scalarMem_store_ok (hcheck : s.portCheck c ownScalar (s.scalarOff c f) n n = none) :
    s.scalarMem c (.store n) f e = .ok (s.store 0 (coreBase c + s.scalarOff c f) (leBytes n (s.sreg c f.rd).toNat)) := by
  rw [State.scalarMem_store himm hzero hn]
  exact State.portWrite_ok (by rw [leBytes_length]; exact hcheck)

end

/-- A naturally aligned store of 1, 2 or 4 bytes. -/
theorem State.store_aligned (v : Nat) (hc : c < 2048) {off : Nat} (hn : n ∈ [1, 2, 4]) (hfit : off + n ≤ 0x20000) (halign : off % n = 0)
    (hlines : ∀ l ∈ linesOf (coreBase c + off) n, s.lineFails l = false) :
    s.OnChip (s.store 0 (coreBase c + off) (leBytes n v)) ∧ s.Holds (s.store 0 (coreBase c + off) (leBytes n v)) (coreBase c + off) (leBytes n v) := by
  have hpos : 0 < n ∧ off % 32 + n ≤ 32 := by
    simp only [List.mem_cons, List.not_mem_nil, or_false] at hn
    rcases hn with rfl | rfl | rfl <;> omega
  obtain ⟨hlen, -, hmod, -⟩ := core_address hc (show off < 0x20000 by omega)
  have hwithin := linesOf_within (a := coreBase c + off) (n := n) (by omega) (by rw [hlen, hmod]; exact hpos.2)
  rw [hwithin, hlen] at hlines
  refine State.store_scratch hc (by omega) (fun h => ?_) (by rw [leBytes_length]; exact hpos.2) (hlines _ List.mem_cons_self)
  have := congrArg List.length h
  rw [leBytes_length, List.length_nil] at this
  omega

theorem State.Holds.rdNat {t : State} {a v : Nat} (h : s.Holds t a (leBytes n v)) : t.rdNat a n = v % 2 ^ (8 * n) := by
  have hbytes := State.rdBytes_eq h.1
  rw [leBytes_length] at hbytes
  rw [State.rdNat, hbytes, leNat_leBytes, pow_mul, show (2 : Nat) ^ 8 = 256 from rfl]

end

/-! ### Vector accesses -/

section
variable {s : State} {A b n mask : Nat} {bs : List Byte}

/-- One lane of a masked store. -/
def State.storeLane (mask A b : Nat) (bs : List Byte) (t : State) (i : Nat) : State :=
  if bit mask i then t.store 0 (A + i * b) ((bs.drop (i * b)).take b) else t

/-- Lanes stored one by one, under the mask. -/
theorem State.foldl_storeLane (hb : 0 < b) (hlen : n * b = bs.length)
    (hlane : ∀ t i, s.OnChip t → i < n → t.OnChip (t.store 0 (A + i * b) ((bs.drop (i * b)).take b)) ∧
      t.Holds (t.store 0 (A + i * b) ((bs.drop (i * b)).take b)) (A + i * b) ((bs.drop (i * b)).take b)) (k : Nat) (hk : k ≤ n) :
    s.OnChip ((List.range k).foldl (State.storeLane mask A b bs) s) ∧
      (∀ j (hj : j < bs.length), ((List.range k).foldl (State.storeLane mask A b bs) s).rdByte (A + j) =
        if j / b < k ∧ bit mask (j / b) = true then bs[j] else s.rdByte (A + j)) ∧
      ∀ x, x < A ∨ A + bs.length ≤ x → ((List.range k).foldl (State.storeLane mask A b bs) s).rdByte x = s.rdByte x := by
  induction k with
  | zero => exact ⟨.refl s, fun j _ => (if_neg (fun h => Nat.not_lt_zero _ h.1)).symm, fun _ _ => rfl⟩
  | succ k ih =>
    obtain ⟨hchip, hin, hout⟩ := ih (by omega)
    rw [List.range_succ, List.foldl_append, List.foldl_cons, List.foldl_nil]
    generalize (List.range k).foldl (State.storeLane mask A b bs) s = t at hchip hin hout ⊢
    have hend : k * b + b ≤ bs.length := by
      rw [← hlen, ← Nat.succ_mul]
      exact Nat.mul_le_mul_right b hk
    by_cases hbit : bit mask k = true
    · rw [State.storeLane, if_pos hbit]
      obtain ⟨hstep, hheld, hkept⟩ := hlane t k hchip (by omega)
      have hpart : ((bs.drop (k * b)).take b).length = b := by rw [List.length_take, List.length_drop]; omega
      rw [hpart] at hkept
      refine ⟨hchip.trans hstep, fun j hj => ?_, fun x hx => ?_⟩
      · by_cases hjk : j / b = k
        · have hlow : k * b ≤ j := hjk ▸ Nat.div_mul_le_self j b
          have hhigh : j < k * b + b := by
            rw [← Nat.succ_mul, ← hjk]
            exact Nat.lt_mul_of_div_lt (Nat.lt_succ_self _) hb
          have hget := hheld (j - k * b) (by omega)
          rw [show A + k * b + (j - k * b) = A + j by omega] at hget
          rw [if_pos ⟨by omega, hjk ▸ hbit⟩, hget]
          simp only [List.getElem_take, List.getElem_drop]
          congr 1
          omega
        · have hout : ¬ (A + k * b ≤ A + j ∧ A + j < A + k * b + b) := by
            rintro ⟨h1, h2⟩
            exact hjk (Nat.div_eq_of_lt_le (by omega) (by rw [Nat.succ_mul]; omega))
          rw [hkept _ hout, hin j hj]
          exact if_congr (and_congr_left fun _ => by omega) rfl rfl
      · rw [hkept x (by omega), hout x hx]
    · rw [State.storeLane, if_neg hbit]
      refine ⟨hchip, fun j hj => (hin j hj).trans (if_congr ?_ rfl rfl), hout⟩
      refine and_congr_left fun hj => ⟨fun h => by omega, fun h => ?_⟩
      have : j / b ≠ k := fun he => hbit (he ▸ hj)
      omega


end

section
variable {s : State} {c : Nat} {f : VecFields}

theorem elemBits_arith {ty : Nat} (h : arithType ty = true) : elemBits ty = 8 ∨ elemBits ty = 16 ∨ elemBits ty = 32 := by
  have hty : ty ∈ [0, 1, 5, 11] ∨ ty ∈ [8, 9, 10] := by
    rcases Bool.or_eq_true_iff.1 h with h | h
    · exact .inl (List.contains_iff_mem.1 h)
    · exact .inr (List.contains_iff_mem.1 h)
  simp only [List.mem_cons, List.not_mem_nil, or_false] at hty
  rcases hty with (rfl | rfl | rfl | rfl) | rfl | rfl | rfl <;> decide

/-- Each lane of a vector's store lies in one line. -/
theorem State.store_lane {s : State} {off w : Nat} {bs : List Byte} (hc : c < 2048) (hfit : off + 64 ≤ 0x20000) (halign : off % 64 = 0) (hbs : bs.length = 64)
    (hw : w = 8 ∨ w = 16 ∨ w = 32) (hlines : ∀ l ∈ linesOf (coreBase c + off) 64, s.lineFails l = false) (t : State) (i : Nat) (hst : s.OnChip t) (hi : i < 512 / w) :
    t.OnChip (t.store 0 (coreBase c + off + i * (w / 8)) ((bs.drop (i * (w / 8))).take (w / 8))) ∧
      t.Holds (t.store 0 (coreBase c + off + i * (w / 8)) ((bs.drop (i * (w / 8))).take (w / 8))) (coreBase c + off + i * (w / 8))
        ((bs.drop (i * (w / 8))).take (w / 8)) := by
  obtain ⟨hpos, hin, hline⟩ : 0 < w / 8 ∧ i * (w / 8) + w / 8 ≤ 64 ∧ i * (w / 8) % 32 + w / 8 ≤ 32 := by
    rcases hw with rfl | rfl | rfl <;> omega
  obtain ⟨hlen, -, hmod, -⟩ := core_address hc (show off < 0x20000 by omega)
  obtain ⟨hlen', hsaddle', -, -⟩ := core_address hc (show off + i * (w / 8) < 0x20000 by omega)
  rw [← Nat.add_assoc] at hlen' hsaddle'
  rw [linesOf_two hlen (by omega)] at hlines
  generalize coreBase c + off = a at *
  have hpart : ((bs.drop (i * (w / 8))).take (w / 8)).length = w / 8 := by rw [List.length_take, List.length_drop]; omega
  refine State.store_line hlen' hsaddle' (fun h => ?_) (by rw [hpart]; omega) ((hst.lineFails _).trans (hlines _ ?_))
  · rw [h, List.length_nil] at hpart
    omega
  · have : (a + i * (w / 8)) / 32 * 32 = a ∨ (a + i * (w / 8)) / 32 * 32 = a + 32 := by omega
    simpa using this

/-- The vector unit is busy for an access that succeeds. -/
def withVecBusy (c : Nat) : Run → Run
  | .ok s => .ok (s.vecBusy c)
  | .error x => .error x

/-- The offset that a vector access names. -/
def State.vectorOff (s : State) (c base imm : Nat) : Nat := ((s.sreg c base).toNat + imm) % 2 ^ 32

theorem State.vecMem_refused {base imm : Nat} {t : Trap} (hcheck : s.portCheck c ownVector (s.vectorOff c base imm) 64 64 = some t) (st : Bool) :
    s.vecMem c st f base imm = .error (t, s) := by
  have hlen : (vecBytes (s.vreg c f.vd)).length = 64 := leBytes_length _ _
  unfold State.vecMem
  extract_lets w off mask full bs
  split
  · split
    · exact State.portWrite_refused (by rw [hlen]; exact hcheck)
    · rw [show s.portCheck c ownVector off 64 64 = some t from hcheck]
  · rw [State.portRead_refused (show s.portCheck c ownVector off 64 64 = some t from hcheck)]

theorem State.vecMem_load {base imm : Nat} (hcheck : s.portCheck c ownVector (s.vectorOff c base imm) 64 64 = none)
    (hlines : ∀ l ∈ linesOf (coreBase c + s.vectorOff c base imm) 64, s.lineFails l = false) : s.vecMem c false f base imm =
      .ok (s.setLanes c f (elemBits f.ty) ((lanes (elemBits f.ty) (BitVec.ofNat 512 (s.rdNat (coreBase c + s.vectorOff c base imm) 64))).map some)) := by
  have hread := State.portRead_ok (e := noErrors) hcheck fun l hl => ⟨hlines l hl, List.not_mem_nil⟩
  unfold State.vecMem
  extract_lets w off mask full bs
  refine (if_neg Bool.false_ne_true).trans ?_
  rw [show s.portRead c ownVector off 64 64 noErrors = _ from hread] <;> rfl

/-- A masked store of a register leaves its lanes' bytes in place. -/
theorem State.vecMem_store {base imm : Nat} (hc : c < 2048) (hty : arithType f.ty = true) (hfit : s.vectorOff c base imm + 64 ≤ 0x20000)
    (halign : s.vectorOff c base imm % 64 = 0) (hcheck : s.portCheck c ownVector (s.vectorOff c base imm) 64 64 = none)
    (hlines : ∀ l ∈ linesOf (coreBase c + s.vectorOff c base imm) 64, s.lineFails l = false) :
    ∃ t, s.vecMem c true f base imm = .ok t ∧ s.OnChip t ∧
      (∀ i < 64, t.rdByte (coreBase c + s.vectorOff c base imm + i) =
        if bit (s.mreg c f.mask) (i / (elemBits f.ty / 8)) then BitVec.ofNat 8 ((s.vreg c f.vd).toNat / 256 ^ i)
        else s.rdByte (coreBase c + s.vectorOff c base imm + i)) ∧
      ∀ a, a < coreBase c + s.vectorOff c base imm ∨ coreBase c + s.vectorOff c base imm + 64 ≤ a → t.rdByte a = s.rdByte a := by
  have hlen : (vecBytes (s.vreg c f.vd)).length = 64 := leBytes_length _ _
  have hget : ∀ i (hi : i < (vecBytes (s.vreg c f.vd)).length), (vecBytes (s.vreg c f.vd))[i] = BitVec.ofNat 8 ((s.vreg c f.vd).toNat / 256 ^ i) :=
    fun i hi => getElem_leBytes 64 _ i hi
  obtain ⟨hw, hlanes, hmul⟩ : 0 < elemBits f.ty / 8 ∧ 32 % (elemBits f.ty / 8) = 0 ∧ 512 / elemBits f.ty * (elemBits f.ty / 8) = 64 := by
    rcases elemBits_arith hty with h | h | h <;> rw [h] <;> decide
  unfold State.vecMem
  extract_lets w off mask full bs
  rw [if_pos rfl]
  by_cases hfull : full = true
  · rw [if_pos hfull]
    obtain ⟨hchip, hin, hout⟩ := State.store_scratch_two hc hfit (by omega) hlen hlines
    refine ⟨_, State.portWrite_ok (by rw [hlen]; exact hcheck), hchip, fun i hi => ?_, fun a ha => hout a (by rw [hlen]; omega)⟩
    have hbit : bit (s.mreg c f.mask) (i / (elemBits f.ty / 8)) = true := by
      refine List.all_eq_true.1 hfull _ ?_
      rw [mem_upto_iff]
      exact ⟨Nat.zero_le _, by rw [Nat.zero_add]; exact Nat.div_lt_of_lt_mul (lt_of_lt_of_eq hi (hmul.symm.trans (Nat.mul_comm _ _)))⟩
    rw [if_pos hbit]
    exact (hin i (hlen.symm ▸ hi)).trans (hget i (hlen.symm ▸ hi))
  · rw [if_neg hfull]
    rw [show s.portCheck c ownVector off 64 64 = none from hcheck]
    rw [upto_eq_range', ← List.range_eq_range']
    have hstore := State.foldl_storeLane (s := s) (A := coreBase c + off) (mask := mask) (b := w / 8) (n := 512 / w) (bs := bs) hw (hmul.trans hlen.symm)
      (State.store_lane hc hfit halign hlen (elemBits_arith hty) hlines) (512 / w) le_rfl
    obtain ⟨hchip, hin, hout⟩ := hstore
    refine ⟨_, rfl, hchip, fun i hi => ?_, fun a ha => hout a (by rw [hlen]; exact ha)⟩
    have hlane : i / (w / 8) < 512 / w := Nat.div_lt_of_lt_mul (lt_of_lt_of_eq hi (hmul.symm.trans (Nat.mul_comm _ _)))
    refine (hin i (hlen.symm ▸ hi)).trans (if_congr (and_iff_right hlane) (hget i (hlen.symm ▸ hi)) rfl)

end

end Sys2Proof.Machine

namespace Sys2Proof.Proofs
open Sys2Proof.Machine

/-- Settles O21. -/
theorem scratchpadAccess : Obligations.ScratchpadAccess := by
  unfold Obligations.ScratchpadAccess
  intro s c hup hc
  refine ⟨?_, ?_⟩
  · intro f n e hissues hclass himm hzero hn off rd k fault
    have hspelt : ∀ op, (Instr.scalarLoadStore c op f e).spelt = true := fun _ => himm
    have hrun : ∀ op, Answers (.scalarLoadStore c op f e) s (s.settled c (.scalarLoadStore c op f e) (s.scalarMem c op f e)) := fun op =>
      answers_coreStep rfl hup hissues rfl (hspelt op) hclass
    have hrefused : ∀ code, s.portCheck c ownScalar off n n = some (.fault code none off) →
        (∀ signed, Answers (.scalarLoadStore c (.load n signed) f e) s (fault code)) ∧ Answers (.scalarLoadStore c (.store n) f e) s (fault code) := by
      intro code hcheck
      obtain ⟨hload, hstore⟩ := State.scalarMem_refused (e := e) himm hzero hn hcheck
      exact ⟨fun signed => answers_refused (hrun (.load n signed)) (hload signed), answers_refused (hrun (.store n)) hstore⟩
    refine ⟨fun hfit halign hbanks hlines => ?_, fun h => hrefused _ (State.portCheck_addr h), fun hfit halign hoff => hrefused _ (State.portCheck_off hfit halign hoff),
      fun hfit halign hpwr hown => hrefused _ (State.portCheck_own hfit halign hpwr hown)⟩
    have hcheck : s.portCheck c ownScalar off n n = none :=
      State.portCheck_none hfit halign (fun b hb => (hbanks b hb).1) (fun b hb => (hbanks b hb).2)
    refine ⟨fun signed => answers_retire (hrun (.load n signed)) (State.scalarMem_load_ok himm hzero hn signed hcheck hlines), ?_⟩
    obtain ⟨hchip, hheld⟩ := State.store_aligned (s.sreg c f.rd).toNat hc hn hfit halign (fun l hl => (hlines l hl).1)
    refine reaches_of_effect (answers_retire (hrun (.store n)) (State.scalarMem_store_ok himm hzero hn hcheck)) ⟨hheld.rdNat, fun a ha => hheld.2 a ?_, fun r => ?_, ?_⟩ fun _ _ h => h
    · rw [leBytes_length]
      omega
    · rw [State.retire_sreg]
      exact State.sreg_congr (congrArg Core.s (hchip.core c)) r
    · rw [State.retire_core]
      exact congrArg (fun k : Core => (k.pc + 1) % 2048) (hchip.core c)
  · intro f hissues hclass hty hz1 hz2 base imm off k
    have hzeros : f.memZeros = 0 := by rw [VecFields.memZeros, hz1, hz2]
    have hrun : ∀ st, Answers (.vectorLoadStore c st f base imm) s (s.settled c (.vectorLoadStore c st f base imm)
        (withVecBusy c (s.vecMem c st f base imm))) := fun st =>
      answers_congr (answers_coreStep rfl hup hissues rfl (by simp [Instr.spelt, base, imm]) hclass) (congrArg (s.settled c _) (if_pos ⟨hty, hzeros⟩))
    refine ⟨fun hfit halign hbanks hlines => ?_, fun h st => ?_⟩
    · have hcheck : s.portCheck c ownVector off 64 64 = none :=
        State.portCheck_none hfit halign (fun b hb => (hbanks b hb).1) (fun b hb => (hbanks b hb).2)
      refine ⟨answers_retire (hrun false) (congrArg (withVecBusy c) (State.vecMem_load hcheck hlines)), ?_⟩
      obtain ⟨t, ht, hchip, hin, hout⟩ := State.vecMem_store hc hty hfit halign hcheck hlines
      have hbyte : ∀ a, ((t.vecBusy c).retire c).rdByte a = t.rdByte a := fun a => by
        rw [State.rdByte, State.retire_mem, State.vecBusy_mem, ← State.rdByte]
      refine reaches_of_effect (answers_retire (hrun true) (congrArg (withVecBusy c) ht))
        ⟨fun i hi => (hbyte _).trans (hin i hi), fun a ha => (hbyte a).trans (hout a ha), fun r => ?_⟩ fun _ _ h => h
      rw [State.retire_vreg, State.vecBusy_vreg]
      exact State.vreg_congr (congrArg Core.v (hchip.core c)) r
    · exact answers_refused (hrun st) (congrArg (withVecBusy c) (State.vecMem_refused (State.portCheck_addr h) st))

end Sys2Proof.Proofs

end

