-- ==== Sys2Proof/Proofs/VectorUnit.lean ====
section
/-! PROOFS. The vector unit: registers as lanes, lanes under a mask, the reduction tree, and the instructions (R146, R150, R210). -/
namespace Sys2Proof.Machine
open Sys2Proof

/-! ### Registers as lanes -/

theorem lanes_getElem? {w i : Nat} (hw : 0 < w) (v : BitVec 512) (hi : i < 512 / w) : (lanes w v)[i]? = some (v.toNat / 2 ^ (w * i) % 2 ^ w) := by
  have hwidth : w * i + w - 1 + 1 - w * i = w := by omega
  rw [lanes, List.getElem?_map, upto_zero_eq_range, List.getElem?_range hi, Option.map_some, bits, Nat.shiftRight_eq_div_pow, hwidth]

@[simp] theorem length_lanes (w : Nat) (v : BitVec 512) : (lanes w v).length = 512 / w := by
  rw [lanes, List.length_map, upto_zero_eq_range, List.length_range]

/-- Digit `i` of a number put together from digits. -/
theorem digit_foldr (b : Nat) (hb : 0 < b) : ∀ (xs : List Nat) (i : Nat) (hi : i < xs.length),
    xs.foldr (fun x a => x % b + a * b) 0 / b ^ i % b = xs[i] % b
  | x :: xs, 0, _ => by simp
  | x :: xs, i + 1, hi => by
    have hstep : (x % b + xs.foldr (fun x a => x % b + a * b) 0 * b) / b = xs.foldr (fun x a => x % b + a * b) 0 := by
      rw [Nat.add_mul_div_right _ _ hb, Nat.div_eq_of_lt (Nat.mod_lt _ hb), Nat.zero_add]
    rw [List.foldr_cons, Nat.pow_succ', ← Nat.div_div_eq_div_mul, hstep, digit_foldr b hb xs i (by simpa using hi)]
    rfl

theorem field_of_mod {m a w : Nat} (hfit : a + w ≤ m) (n : Nat) : n % 2 ^ m / 2 ^ a % 2 ^ w = n / 2 ^ a % 2 ^ w := by
  have hsplit : (2 : Nat) ^ m = 2 ^ a * 2 ^ (m - a) := by rw [← Nat.pow_add]; congr 1; omega
  rw [hsplit, Nat.mod_mul_right_div_self, Nat.mod_mod_of_dvd _ (Nat.pow_dvd_pow 2 (show w ≤ m - a by omega))]

theorem lanes_ofLanes {w i : Nat} (hw : 0 < w) {xs : List Nat} (hlen : xs.length = 512 / w) (hi : i < 512 / w) :
    (lanes w (ofLanes w xs))[i]? = (xs[i]?).map (· % 2 ^ w) := by
  have hfit : w * i + w ≤ 512 := by
    have := Nat.mul_le_mul_left w hi
    have := Nat.mul_div_le 512 w
    rw [Nat.mul_succ] at *
    omega
  rw [lanes_getElem? hw _ hi, ofLanes, BitVec.toNat_ofNat, field_of_mod hfit, Nat.pow_mul,
    digit_foldr _ (Nat.two_pow_pos w) xs i (hlen ▸ hi), List.getElem?_eq_getElem (hlen ▸ hi), Option.map_some]

/-! ### Lanes under a mask -/

/-- What a lane becomes: its old value where the mask leaves it out, else the new one, free where none is stated. -/
def LaneOf (w mask : Nat) (p : Nat × Nat × Option Nat) (x : Nat) : Prop :=
  (bit mask p.1 = false → x = p.2.1) ∧ (bit mask p.1 = true → (∀ v, p.2.2 = some v → x = v) ∧ (p.2.2 = none → x < 2 ^ w))

/-- One lane of a merge. -/
def mergeStep (w mask : Nat) (acc : List Nat × State) (p : Nat × Nat × Option Nat) : List Nat × State :=
  if bit mask p.1 then
    match p.2.2 with
    | some v => (acc.1 ++ [v], acc.2)
    | none => let d := acc.2.draw w; (acc.1 ++ [d.1], d.2)
  else (acc.1 ++ [p.2.1], acc.2)

theorem State.mergeLanes_eq (s : State) (w mask : Nat) (old : List Nat) (new : List (Option Nat)) :
    s.mergeLanes w mask old new = ((upto 0 old.length).zip (old.zip new)).foldl (mergeStep w mask) ([], s) := rfl

theorem mergeStep_spec (w mask : Nat) (acc : List Nat × State) (p : Nat × Nat × Option Nat) :
    ∃ x, (mergeStep w mask acc p).1 = acc.1 ++ [x] ∧ LaneOf w mask p x ∧ (mergeStep w mask acc p).2.cores = acc.2.cores := by
  obtain ⟨i, o, n⟩ := p
  by_cases hm : bit mask i = true
  · cases n with
    | some v =>
      refine ⟨v, by simp [mergeStep, hm], ⟨fun h => absurd hm (by simp [h]), fun _ => ⟨fun v' h => Option.some.inj h, nofun⟩⟩, ?_⟩
      simp [mergeStep, hm]
    | none =>
      refine ⟨(acc.2.draw w).1, by simp [mergeStep, hm], ⟨fun h => absurd hm (by simp [h]), fun _ => ⟨nofun, fun _ => ?_⟩⟩, ?_⟩
      · exact Nat.mod_lt _ (Nat.two_pow_pos w)
      · simp [mergeStep, hm, State.draw]
  · exact ⟨o, by simp [mergeStep, hm], ⟨fun _ => rfl, fun h => absurd h hm⟩, by simp [mergeStep, hm]⟩

theorem mergeFold_spec (w mask : Nat) : ∀ (l : List (Nat × Nat × Option Nat)) (acc : List Nat × State),
    ∃ out, (l.foldl (mergeStep w mask) acc).1 = acc.1 ++ out ∧ List.Forall₂ (LaneOf w mask) l out ∧
      (l.foldl (mergeStep w mask) acc).2.cores = acc.2.cores
  | [], acc => ⟨[], by simp⟩
  | p :: l, acc => by
    obtain ⟨x, hx, hlane, hcores⟩ := mergeStep_spec w mask acc p
    obtain ⟨out, hout, hrest, hcores'⟩ := mergeFold_spec w mask l (mergeStep w mask acc p)
    exact ⟨x :: out, by rw [List.foldl_cons, hout, hx, List.append_assoc]; rfl, .cons hlane hrest, hcores'.trans hcores⟩

/-- Each lane of a merge, and that no core changes. -/
theorem State.mergeLanes_spec (s : State) (w mask : Nat) {old : List Nat} {new : List (Option Nat)} (hlen : new.length = old.length) :
    (s.mergeLanes w mask old new).2.cores = s.cores ∧ (s.mergeLanes w mask old new).1.length = old.length ∧
      ∀ (i o : Nat) (n : Option Nat), old[i]? = some o → new[i]? = some n →
        ∃ x, (s.mergeLanes w mask old new).1[i]? = some x ∧ LaneOf w mask (i, o, n) x := by
  obtain ⟨out, hout, hlanes, hcores⟩ := mergeFold_spec w mask ((upto 0 old.length).zip (old.zip new)) ([], s)
  rw [← State.mergeLanes_eq] at hout hcores
  rw [List.nil_append] at hout
  have hziplen : ((upto 0 old.length).zip (old.zip new)).length = old.length := by
    simp [upto_zero_eq_range, hlen]
  refine ⟨hcores, by rw [hout, ← hlanes.length_eq, hziplen], fun i o n ho hn => ?_⟩
  obtain ⟨hi, ho⟩ := List.getElem?_eq_some_iff.mp ho
  obtain ⟨hi', hn⟩ := List.getElem?_eq_some_iff.mp hn
  have hio : i < out.length := by rw [← hlanes.length_eq, hziplen]; exact hi
  have hlane := hlanes.get (hziplen.symm ▸ hi) hio
  simp only [List.get_eq_getElem, List.getElem_zip, ho, hn, upto_zero_eq_range, List.getElem_range] at hlane
  exact ⟨out[i], by rw [hout, List.getElem?_eq_getElem hio], hlane⟩

/-- Lane `i` of the destination after a write under the mask (R146). -/
theorem State.setLanes_lane (s : State) (c : Nat) (f : VecFields) {w i : Nat} {new : List (Option Nat)} (hw : 0 < w) (hlen : new.length = 512 / w)
    (hi : i < 512 / w) (hfits : ∀ x ∈ new, ∀ v, x = some v → v < 2 ^ w) :
    (bit (s.mreg c f.mask) i = false → (lanes w ((s.setLanes c f w new).vreg c f.vd))[i]? = (lanes w (s.vreg c f.vd))[i]?)
      ∧ (∀ v, bit (s.mreg c f.mask) i = true → new[i]? = some (some v) → (lanes w ((s.setLanes c f w new).vreg c f.vd))[i]? = some v) := by
  obtain ⟨-, hmlen, hmerge⟩ := s.mergeLanes_spec w (s.mreg c f.mask) (old := lanes w (s.vreg c f.vd)) (new := new) (hlen.trans (length_lanes w _).symm)
  rw [length_lanes] at hmlen
  have hold := lanes_getElem? hw (s.vreg c f.vd) hi
  obtain ⟨x, hx, hoff, hon⟩ := hmerge i _ _ hold (List.getElem?_eq_getElem (hlen ▸ hi))
  have hlane : (lanes w ((s.setLanes c f w new).vreg c f.vd))[i]? = some (x % 2 ^ w) := by
    rw [State.setLanes, State.setV_vreg, if_pos ⟨rfl, rfl⟩, lanes_ofLanes hw hmlen hi, hx, Option.map_some]
  refine ⟨fun hm => ?_, fun v hm hv => ?_⟩
  · rw [hlane, hold, hoff hm, Nat.mod_mod]
  · have hv' := (List.getElem?_eq_some_iff.mp hv).2
    rw [hlane, (hon hm).1 v hv', Nat.mod_eq_of_lt (hfits _ (List.mem_of_getElem? hv) v rfl)]

/-! ### Comparisons -/

theorem foldr_bits (i : Nat) : ∀ (xs : List Nat) (h : i < xs.length), (∀ x ∈ xs, x < 2) → ∀ k,
    bit (k * 2 ^ xs.length + xs.foldr (fun x t => x + 2 * t) 0) i = (xs[i] == 1) := by
  induction i with
  | zero =>
    intro xs h hxs k
    obtain ⟨x, xs, rfl⟩ := List.exists_cons_of_length_pos h
    have := hxs x (by simp)
    have hdouble : k * (2 ^ xs.length * 2) = 2 * (k * 2 ^ xs.length) := by ring
    have hlow : (k * 2 ^ (x :: xs).length + (x :: xs).foldr (fun x t => x + 2 * t) 0) % 2 = x := by
      rw [List.foldr_cons, List.length_cons, Nat.pow_succ, hdouble]
      omega
    rw [bit, Nat.shiftRight_zero, hlow]
    rfl
  | succ i ih =>
    intro xs h hxs k
    obtain ⟨x, xs, rfl⟩ := List.exists_cons_of_length_pos (Nat.lt_of_le_of_lt (Nat.zero_le _) h)
    have hx := hxs x (by simp)
    rw [List.getElem_cons_succ, ← ih xs (by simpa using h) (fun y hy => hxs y (by simp [hy])) k]
    have hdouble : k * (2 ^ xs.length * 2) = 2 * (k * 2 ^ xs.length) := by ring
    have hhalf : (k * 2 ^ (x :: xs).length + (x :: xs).foldr (fun x t => x + 2 * t) 0) / 2 = k * 2 ^ xs.length + xs.foldr (fun x t => x + 2 * t) 0 := by
      rw [List.foldr_cons, List.length_cons, Nat.pow_succ, hdouble]
      omega
    rw [bit, bit, Nat.shiftRight_succ_inside, hhalf]

theorem bit_mod_word {v i : Nat} (hi : i < 64) : bit (v % 2 ^ 64) i = bit v i := by
  rw [bit_eq_testBit, bit_eq_testBit, Nat.testBit_mod_two_pow, decide_eq_true hi, Bool.true_and]

theorem State.setM_mreg_same (s : State) (c : Nat) {r : Nat} (hr : r ≠ 0) (v : Nat) : (s.setM c r v).mreg c r = v % 2 ^ 64 := by
  rw [State.setM, if_neg hr, State.mreg, if_neg hr, State.modCore_core, tget_tset_same, BitVec.toNat_ofNat]

/-- The mask bits of a comparison. -/
def State.compared (s : State) (c : Nat) (op : VCmpOp) (f : VecFields) : List Nat × State :=
  s.mergeLanes 1 (s.mreg c f.mask) ((upto 0 (lanes (elemBits f.ty) (s.vreg c f.vs1)).length).map (fun i => b2n (bit (s.mreg c (f.vd % 8)) i)))
    (((lanes (elemBits f.ty) (s.vreg c f.vs1)).zip (lanes (elemBits f.ty) (s.vreg c f.vs2))).map (fun p => (vCmpLane op f.ty p.1 p.2).map b2n))

theorem State.vecCompare_eq (s : State) (c : Nat) {op : VCmpOp} (f : VecFields) (hop : op ∈ [VCmpOp.eq, .lt, .le]) :
    s.vecCompare c op f = (s.compared c op f).2.setM c (f.vd % 8)
      (s.mreg c (f.vd % 8) / 2 ^ (lanes (elemBits f.ty) (s.vreg c f.vs1)).length * 2 ^ (lanes (elemBits f.ty) (s.vreg c f.vs1)).length
        + (s.compared c op f).1.foldr (fun x t => x + 2 * t) 0) := by
  simp only [List.mem_cons, List.not_mem_nil, or_false] at hop
  rcases hop with rfl | rfl | rfl <;> rfl

theorem elemBits_pos {ty : Nat} (h : arithType ty = true) : 0 < elemBits ty := by
  rcases elemBits_arith h with h | h | h <;> omega

theorem b2n_lt (b : Bool) : b2n b < 2 := by cases b <;> decide

theorem b2n_beq_one (b : Bool) : (b2n b == 1) = b := by cases b <;> rfl

/-- Bit `i` of the mask register that a comparison writes (R146). -/
theorem State.vecCompare_bit (s : State) (c : Nat) {op : VCmpOp} {f : VecFields} (hop : op ∈ [VCmpOp.eq, .lt, .le]) (hty : arithType f.ty = true)
    (hvd : f.vd % 8 ≠ 0) {i x y : Nat} (hx : (lanes (elemBits f.ty) (s.vreg c f.vs1))[i]? = some x)
    (hy : (lanes (elemBits f.ty) (s.vreg c f.vs2))[i]? = some y) :
    (bit (s.mreg c f.mask) i = false → bit ((s.vecCompare c op f).mreg c (f.vd % 8)) i = bit (s.mreg c (f.vd % 8)) i)
      ∧ (∀ v, bit (s.mreg c f.mask) i = true → vCmpLane op f.ty x y = some v → bit ((s.vecCompare c op f).mreg c (f.vd % 8)) i = v) := by
  have hi : i < 512 / elemBits f.ty := by
    rw [← length_lanes _ (s.vreg c f.vs1)]
    exact (List.getElem?_eq_some_iff.mp hx).1
  have hi64 : i < 64 := by rcases elemBits_arith hty with h | h | h <;> rw [h] at hi <;> omega
  obtain ⟨-, hlen, hmerge⟩ := s.mergeLanes_spec 1 (s.mreg c f.mask)
    (old := (upto 0 (lanes (elemBits f.ty) (s.vreg c f.vs1)).length).map (fun i => b2n (bit (s.mreg c (f.vd % 8)) i)))
    (new := ((lanes (elemBits f.ty) (s.vreg c f.vs1)).zip (lanes (elemBits f.ty) (s.vreg c f.vs2))).map (fun p => (vCmpLane op f.ty p.1 p.2).map b2n))
    (by simp [upto_zero_eq_range])
  have hat : ∀ j x y, (lanes (elemBits f.ty) (s.vreg c f.vs1))[j]? = some x → (lanes (elemBits f.ty) (s.vreg c f.vs2))[j]? = some y →
      ∃ z, (s.compared c op f).1[j]? = some z ∧
        LaneOf 1 (s.mreg c f.mask) (j, b2n (bit (s.mreg c (f.vd % 8)) j), (vCmpLane op f.ty x y).map b2n) z := by
    intro j x y hjx hjy
    refine hmerge j _ _ ?_ ?_
    · rw [upto_zero_eq_range, List.getElem?_map, List.getElem?_range (List.getElem?_eq_some_iff.mp hjx).1]; rfl
    · rw [List.getElem?_map, (List.getElem?_zip_eq_some (z := (x, y))).mpr ⟨hjx, hjy⟩]; rfl
  have hlen : (s.compared c op f).1.length = 512 / elemBits f.ty := hlen.trans (by simp [upto_zero_eq_range])
  have hbits : ∀ z ∈ (s.compared c op f).1, z < 2 := by
    intro z hz
    obtain ⟨j, hj, rfl⟩ := List.getElem_of_mem hz
    have hj' : j < 512 / elemBits f.ty := hlen ▸ hj
    have hlane : ∀ r, (lanes (elemBits f.ty) (s.vreg c r))[j]? = some _ := fun r => lanes_getElem? (elemBits_pos hty) _ hj'
    obtain ⟨z, hz, hoff, hon⟩ := hat j _ _ (hlane f.vs1) (hlane f.vs2)
    rw [(List.getElem?_eq_some_iff.mp hz).2]
    cases hm : bit (s.mreg c f.mask) j with
    | false => exact hoff hm ▸ b2n_lt _
    | true =>
      generalize vCmpLane op f.ty _ _ = r at hon
      cases r with
      | none => exact (hon hm).2 rfl
      | some v => exact (hon hm).1 _ rfl ▸ b2n_lt v
  obtain ⟨z, hz, hoff, hon⟩ := hat i x y hx hy
  have hbit : bit ((s.vecCompare c op f).mreg c (f.vd % 8)) i = (z == 1) := by
    rw [State.vecCompare_eq s c f hop, State.setM_mreg_same _ _ hvd, bit_mod_word hi64, length_lanes, ← hlen,
      foldr_bits i _ (hlen.symm ▸ hi) hbits, (List.getElem?_eq_some_iff.mp hz).2]
  rw [hbit]
  exact ⟨fun hm => by rw [hoff hm, b2n_beq_one], fun v hm hv => by rw [(hon hm).1 _ (congrArg (Option.map b2n) hv), b2n_beq_one]⟩

/-! ### The reduction tree -/

section
variable (op : VRedOp) (ty : Nat)

theorem redLayer_append : ∀ (xs ys : List (Option Nat)) (k : Nat), xs.length = 2 * k → redLayer op ty (xs ++ ys) = redLayer op ty xs ++ redLayer op ty ys
  | [], ys, _, _ => rfl
  | [_], _, k, h => by simp at h; omega
  | a :: b :: xs, ys, k, h => by
    obtain ⟨k, rfl⟩ : ∃ j, k = j + 1 := ⟨k - 1, by simp at h; omega⟩
    exact congrArg (redPair op ty a b :: ·) (redLayer_append xs ys k (by simp at h; omega))

theorem length_redLayer : ∀ (xs : List (Option Nat)) (k : Nat), xs.length = 2 * k → (redLayer op ty xs).length = k
  | [], k, h => by simp at h; simp [redLayer, ← h]
  | [_], k, h => by simp at h; omega
  | a :: b :: xs, k, h => by
    obtain ⟨k, rfl⟩ : ∃ j, k = j + 1 := ⟨k - 1, by simp at h; omega⟩
    exact congrArg (· + 1) (length_redLayer xs k (by simp at h; omega))

/-- The tree of two halves is the pair of their trees (R146). -/
theorem redTree_append (n : Nat) : ∀ (xs ys : List (Option Nat)), xs.length = 2 ^ n → ys.length = 2 ^ n →
    redTree op ty (n + 1) (xs ++ ys) = redPair op ty (redTree op ty n xs) (redTree op ty n ys) := by
  induction n with
  | zero =>
    intro xs ys hxs hys
    obtain ⟨x, rfl⟩ := List.length_eq_one_iff.mp hxs
    obtain ⟨y, rfl⟩ := List.length_eq_one_iff.mp hys
    rfl
  | succ n ih =>
    intro xs ys hxs hys
    have hxs := hxs.trans (Nat.pow_succ')
    have hys := hys.trans (Nat.pow_succ')
    rw [redTree, redLayer_append op ty xs ys _ hxs, ih _ _ (length_redLayer op ty xs _ hxs) (length_redLayer op ty ys _ hys)]
    rfl

end

/-! ### Integer lanes -/

theorem inType_eq_some {ty v : Nat} {x : Int} (hty : intType ty = true) : inType ty x = some v ↔ v < 2 ^ elemBits ty ∧ intVal ty v = x := by
  have hmem : ty ∈ [0, 1, 5, 11] := List.contains_iff_mem.1 hty
  simp only [List.mem_cons, List.not_mem_nil, or_false] at hmem
  rcases hmem with rfl | rfl | rfl | rfl <;> simp [inType, codeMin, codeMax, intVal, elemBits, sgn, wrap] <;> omega

theorem vIntLane_eq_some {op : VIntOp} {ty a b v : Nat} (hop : op ∈ [VIntOp.add, .sub, .mul]) (hty : intType ty = true) :
    vIntLane op ty a b = some v ↔ v < 2 ^ elemBits ty ∧
      intVal ty v = (if op = .add then intVal ty a + intVal ty b else if op = .sub then intVal ty a - intVal ty b else intVal ty a * intVal ty b) := by
  simp only [List.mem_cons, List.not_mem_nil, or_false] at hop
  rcases hop with rfl | rfl | rfl <;> exact inType_eq_some hty

end Sys2Proof.Machine

namespace Sys2Proof.Proofs
open Sys2Proof.Machine

/-- Settles O22. -/
theorem vectorUnit : Obligations.VectorUnit := by
  unfold Obligations.VectorUnit
  refine ⟨fun f => ⟨rfl, rfl, rfl, rfl, rfl, rfl⟩, ?_, fun op ty n xs ys hxs hys => redTree_append op ty n xs ys hxs hys, ?_,
    fun op ty a b v hop hty => vIntLane_eq_some hop hty⟩
  · intro s c f hup hissues zero is w a b d out
    have harith : ∀ {ty}, intType ty = true → arithType ty = true := fun h => by rw [arithType, h]; rfl
    have hrun : ∀ {i : Instr} {k : CoreClass} {g : State → Run}, exec i s = coreStep s c i g → i.coreWord = some (k, f.word) → i.spelt = true →
        is k → ∀ {t : State}, g s = .ok t → Answers i s (t.retire c) :=
      fun hexec hword hspelt hclass _ ht => answers_retire (answers_coreStep hexec hup hissues hword hspelt hclass) ht
    refine ⟨fun hclass hty => ⟨fun hzero op hop => ?_, fun r zp zo lo hi hr hlo hlh hhi => ?_, fun hzero h11 => ?_⟩, fun hclass hzero hty op hop => ?_,
      fun hty => ⟨fun hclass hzero op hop => ?_, fun hclass hzero op hop => ⟨?_, fun hvd i x y hx hy => s.vecCompare_bit c hop hty hvd hx hy⟩,
        fun hclass hzero => ?_, fun hclass hzero => ?_, fun hclass n => ?_, fun hclass hzero => ?_⟩, fun hclass hzero p hp => ?_, fun hclass hle hle2 => ?_⟩
    · refine hrun rfl rfl rfl hclass ((if_pos ?_).trans (congrArg (fun t : State => Except.ok (t.vecBusy c)) ?_))
      · have hok : (intType f.ty && f.zeros == 0) = true := Bool.and_eq_true_iff.mpr ⟨hty, beq_iff_eq.mpr hzero⟩
        simp only [List.mem_cons, List.not_mem_nil, or_false] at hop
        rcases hop with rfl | rfl | rfl | rfl | rfl | rfl | rfl | rfl | rfl | rfl | rfl <;> exact hok
      · simp only [List.mem_cons, List.not_mem_nil, or_false] at hop
        rcases hop with rfl | rfl | rfl | rfl | rfl | rfl | rfl | rfl | rfl | rfl | rfl <;> rfl
    · exact hrun rfl rfl rfl hclass (if_pos (by simp [vIntOk, hr, hlo, hlh, hhi, hty]))
    · exact hrun rfl rfl rfl hclass (if_pos (Bool.and_eq_true_iff.mpr ⟨beq_iff_eq.mpr h11, beq_iff_eq.mpr hzero⟩))
    · refine hrun rfl rfl rfl hclass (if_pos ⟨?_, hty, hzero⟩)
      rintro rfl
      simp at hop
    · refine hrun rfl rfl rfl hclass (if_pos ⟨?_, hty, hzero⟩)
      rintro rfl
      simp at hop
    · refine hrun rfl rfl rfl hclass (if_pos ?_)
      have hok : (arithType f.ty && f.zeros == 0) = true := Bool.and_eq_true_iff.mpr ⟨hty, beq_iff_eq.mpr hzero⟩
      simp only [List.mem_cons, List.not_mem_nil, or_false] at hop
      rcases hop with rfl | rfl | rfl <;> exact hok
    · exact hrun rfl rfl rfl hclass (if_pos (Bool.and_eq_true_iff.mpr ⟨hty, beq_iff_eq.mpr hzero⟩))
    · exact hrun rfl rfl rfl hclass (if_pos ⟨nofun, hty, .inr hzero⟩)
    · exact hrun rfl rfl rfl hclass (if_pos ⟨nofun, hty, .inl ⟨nofun, nofun⟩⟩)
    · exact hrun rfl rfl rfl hclass (if_pos ⟨nofun, hty, .inr hzero⟩)
    · simp only [List.mem_cons, List.not_mem_nil, or_false] at hp
      rcases hp with rfl | rfl | rfl | rfl <;> exact hrun rfl rfl rfl hclass (if_pos (beq_iff_eq.mpr hzero))
    · exact hrun rfl rfl rfl hclass (if_pos ⟨hle, hle2⟩)
  · intro s c f w i new hw hlen hi hfits
    have hpos : 0 < w := by
      simp only [List.mem_cons, List.not_mem_nil, or_false] at hw
      omega
    exact s.setLanes_lane c f hpos hlen hi hfits

end Sys2Proof.Proofs

end

