-- ==== Sys2Proof/Proofs/IssueRefusals.lean ====
section
/-! PROOFS. What stops an instruction at issue: reserved words, zero fields, blocks without words, waits and full queues (R143, R149, R151, R154). -/
namespace Sys2Proof.Machine
open Sys2Proof

/-! ### Reserved classes and functions (R149, R151) -/

theorem numberedClass_eq_none {cls fn : Nat} : numberedClass cls fn = none ↔
    (cls, fn) ∉ [(0x20, 0), (0x21, 0), (0x22, 0), (0x22, 1), (0x22, 2), (0x24, 0), (0x24, 1), (0x25, 0), (0x26, 0), (0x26, 1), (0x26, 2), (0x26, 3), (0x27, 0),
      (0x30, 0), (0x31, 0), (0x34, 0), (0x34, 1), (0x34, 2), (0x34, 3), (0x35, 0), (0x35, 1), (0x36, 0), (0x36, 1), (0x36, 2), (0x38, 0), (0x3F, 0), (0x3F, 1),
      (0x3F, 2)] := by
  unfold numberedClass
  split <;> simp_all

theorem coreClass_eq_none (w : IWord) : coreClass w = none ↔
    8 ≤ w.field 63 58 ∧ w.field 63 58 < 0x10 ∨ 0x1D ≤ w.field 63 58 ∧ numberedClass (w.field 63 58) (w.field 57 52) = none := by
  simp only [coreClass]
  generalize w.field 63 58 = cls
  obtain hlow | hhigh := Nat.lt_or_ge cls 0x1D
  · rw [or_iff_left fun h => absurd h.1 (Nat.not_le.mpr hlow)]
    interval_cases cls <;> simp
    all_goals rfl
  · repeat rw [if_neg (by omega)]
    rw [or_iff_right fun h => by omega, and_iff_right hhigh]

/-- The words without a meaning, by class and function. -/
theorem coreClass_eq_none_iff (w : IWord) : coreClass w = none ↔ (w.field 63 58 ∈ [0x08, 0x09, 0x0A, 0x0B, 0x0C, 0x0D, 0x0E, 0x0F, 0x1D, 0x1E, 0x1F, 0x23
      , 0x28, 0x29, 0x2A, 0x2B, 0x2C, 0x2D, 0x2E, 0x2F, 0x32, 0x33, 0x37, 0x39, 0x3A, 0x3B, 0x3C, 0x3D, 0x3E] ∨
    (w.field 63 58 ∈ [0x20, 0x21, 0x25, 0x27, 0x30, 0x31, 0x38] ∧ w.field 57 52 ≠ 0) ∨ (w.field 63 58 = 0x24 ∧ 1 < w.field 57 52) ∨
    (w.field 63 58 ∈ [0x22, 0x36, 0x3F] ∧ 2 < w.field 57 52) ∨ (w.field 63 58 ∈ [0x26, 0x34] ∧ 3 < w.field 57 52) ∨
    (w.field 63 58 = 0x35 ∧ 1 < w.field 57 52)) := by
  have hcls : w.field 63 58 < 64 := Nat.mod_lt _ (by decide)
  rw [coreClass_eq_none, numberedClass_eq_none]
  simp only [List.mem_cons, List.not_mem_nil, or_false, Prod.mk.injEq]
  generalize w.field 63 58 = cls at *
  generalize w.field 57 52 = fn
  interval_cases cls <;> simp <;> omega

theorem numberedClass_eq_dma {cls fn : Nat} (h : numberedClass cls fn = some .dma) : cls = 0x30 ∧ fn = 0 := by
  unfold numberedClass at h
  split at h <;> simp_all

theorem field_of_dma {w : IWord} (h : coreClass w = some .dma) : w.field 63 58 = 0x30 ∧ w.field 57 52 = 0 := by
  refine numberedClass_eq_dma (Eq.trans ?_ h)
  have hhigh : 0x1D ≤ w.field 63 58 := by
    by_contra hlow
    simp only [coreClass] at h
    generalize w.field 63 58 = cls at *
    replace hlow := Nat.not_le.mp hlow
    interval_cases cls <;> simp at h <;> cases h
  simp only [coreClass]
  repeat rw [if_neg (by omega)]

/-! ### Instructions at the head of the stream -/

/-- A command whose meaning is an instruction of core `c`. -/
def AtHead (c : Nat) (i : Instr) : Prop := ∃ g, ∀ s, exec i s = whenUp s (s.atHead c i g)

/-- The instructions that carry no more than their word. -/
def wordInstrs (c : Nat) (w : IWord) : List Instr :=
  [.lds c w, .strm c w, .ostr c w, .odrn c w, .oclr c w, .nrw c w, .nrwf c w, .lutl c w, .dld c w
    , .ags c w, .tnx c w, .agd c w, .trd c w, .sig c w, .sigr c w, .wait c w, .waitr c w, .dec c w, .read c w, .wfa c w, .wset c w
    , .wrd c w, .bk c w, .nop c w, .endProgram c w, .breakpoint c w, .instructionFill c w, .dmaIssue c w]

theorem wordInstrs_atHead {c : Nat} {w : IWord} {i : Instr} (hi : i ∈ wordInstrs c w) : AtHead c i ∧ (∃ k, i.coreWord = some (k, w)) ∧ i.spelt = true := by
  simp only [wordInstrs, List.mem_cons, List.not_mem_nil, or_false] at hi
  rcases hi with rfl | rfl | rfl | rfl | rfl | rfl | rfl | rfl | rfl | rfl | rfl | rfl | rfl | rfl | rfl | rfl | rfl | rfl | rfl | rfl | rfl | rfl | rfl | rfl
    | rfl | rfl | rfl | rfl <;> exact ⟨⟨_, fun _ => rfl⟩, ⟨_, rfl⟩, rfl⟩

theorem not_canIssue_of_invalid {k : Core} (h : bit k.valid (k.pc / 64) = false) : ¬ k.canIssue = true := by
  rw [Core.canIssue, h, Bool.and_false]
  exact Bool.false_ne_true

section
variable {s : State} {c : Nat} {i : Instr} (hup : s.up = true) (h : AtHead c i)
include hup h

/-- A word that names nothing is illegal, whatever its command. -/
theorem answers_reserved {k : CoreClass} (hcan : (s.core c).canIssue = true) (hword : i.coreWord = some (k, (s.core c).word)) (hspelt : i.spelt = true)
    (hnone : coreClass (s.core c).word = none) : Answers i s
      (s.ctxFault (s.core c).ctx { code := fltCoreIllegal, unit := c, detail := (s.core c).pc, addr := (s.core c).word.toNat }) := by
  obtain ⟨g, hg⟩ := h
  refine answers_congr (answers_whenUp (hg s) hup) ?_
  simp only [State.atHead, hcan, hword, hspelt, State.dispatch, hnone, and_self, if_true]
  rfl

/-- Behind a waiting instruction, or on a core that does not run, nothing issues (R143). -/
theorem answers_waiting (hwait : (s.core c).st ≠ .running ∨ (s.core c).stalled ≠ none ∨ (s.core c).wait ≠ none) : Answers i s s := by
  obtain ⟨g, hg⟩ := h
  refine answers_congr (answers_whenUp (hg s) hup) ((if_neg fun hcan => ?_).trans (if_neg ?_))
  · simp only [Core.canIssue, Bool.and_eq_true, beq_iff_eq, Option.isNone_iff_eq_none] at hcan
    obtain ⟨⟨⟨hrun, hstall⟩, hnone⟩, -⟩ := hcan
    rcases hwait with h | h | h <;> contradiction
  · rintro ⟨hrun, hstall, hnone, -⟩
    rcases hwait with h | h | h <;> contradiction

section
variable (hinvalid : bit (s.core c).valid ((s.core c).pc / 64) = false)
include hinvalid

/-- A PC in an invalid block waits for its fill. -/
theorem answers_fillPending (hfill : (s.core c).fills.contains ((s.core c).pc / 64) = true) : Answers i s s := by
  have hnot := not_canIssue_of_invalid hinvalid
  obtain ⟨g, hg⟩ := h
  refine answers_congr (answers_whenUp (hg s) hup) ((if_neg hnot).trans (if_neg ?_))
  rintro ⟨-, -, -, -, hno⟩
  rw [hfill] at hno
  cases hno

/-- A PC in an invalid block without a fill faults (R154). -/
theorem answers_fillMissing (hrun : (s.core c).st = .running) (hstall : (s.core c).stalled = none) (hwait : (s.core c).wait = none)
    (hfill : (s.core c).fills.contains ((s.core c).pc / 64) = false) : Answers i s
      (s.ctxFault (s.core c).ctx { code := fltCoreIfetch, unit := c, detail := (s.core c).pc, addr := (s.core c).word.toNat }) := by
  have hnot := not_canIssue_of_invalid hinvalid
  obtain ⟨g, hg⟩ := h
  exact answers_congr (answers_whenUp (hg s) hup) ((if_neg hnot).trans (if_pos ⟨hrun, hstall, hwait, by rw [hinvalid]; rfl, by rw [hfill]; rfl⟩))

end

end

theorem arithType_iff {ty : Nat} : arithType ty = true ↔ ty ∈ [0, 1, 5, 8, 9, 10, 11] := by
  simp only [arithType, intType, floatType, Bool.or_eq_true, List.contains_iff_mem, List.mem_cons, List.not_mem_nil, or_false]
  omega

theorem intType_imp_arith {ty : Nat} (h : intType ty = true) : arithType ty = true := by rw [arithType, h, Bool.true_or]

theorem floatType_imp_arith {ty : Nat} (h : floatType ty = true) : arithType ty = true := by rw [arithType, h, Bool.or_true]

theorem State.enqueue_full {s : State} {c : Nat} {e : Engine} {g : State → Run} (h : 4 ≤ tget 0 (s.core c).queues (Engine.num e)) :
    s.enqueue c e g = .error (.full, s) := if_pos h

/-- An instruction that finds a queue full waits at the head of the stream. -/
theorem answers_full {s t : State} {c : Nat} {i : Instr} {f : Run} (h : Answers i s (s.settled c i f)) (hrun : f = .error (.full, t)) :
    Answers i s (s.modCore c (fun x => { x with stalled := some i })) := answers_congr h (congrArg (s.settled c i) hrun)

end Sys2Proof.Machine

namespace Sys2Proof.Proofs
open Sys2Proof.Machine

/-- Settles O23. -/
theorem issueRefusals : Obligations.IssueRefusals := by
  unfold Obligations.IssueRefusals
  intro s c hup k illegal words
  refine ⟨fun hcan => ?_, fun w f g op mop rd r1 r2 cond off csr base imm st e i hi => ?_⟩
  · intro is
    have hissues : ∀ {w : IWord}, w = k.word → (s.core c).issues w = true := fun h => Core.issues_iff.mpr ⟨hcan, h.symm⟩
    have hrun : ∀ {w : IWord} {i : Instr} {d : CoreClass} {g : State → Run}, w = k.word → exec i s = coreStep s c i g → i.coreWord = some (d, w) →
        i.spelt = true → is d → g s = .error (.fault fltCoreIllegal none k.word.toNat, s) → Answers i s (illegal k.word.toNat) :=
      fun hw hexec hword hspelt hclass hg => answers_refused (answers_coreStep hexec hup (hissues hw) hword hspelt (hw ▸ hclass)) hg
    have hzeroOk : ∀ {cls fn hi lo : Nat}, k.word.field hi lo ≠ 0 → (!wordOk k.word cls fn [(hi, lo)]) = true := fun h => by
      simp [wordOk, wf, h]
    refine ⟨coreClass_eq_none_iff, fun hnone i hi => ?_, fun f op e hw hz => ⟨fun hc => ?_, fun hc himm op => ?_, fun hc himm op => ?_⟩,
      fun f e hw => ⟨fun hc => ?_, fun hc himm => ?_, fun hc himm => ?_⟩, fun hc hcond => ?_, fun hc hz => ?_, fun f hw hbad p hp hc => ?_,
      fun f st hw hc hbad => ?_, fun f hw hc hty op => ?_, fun f hw hc hty => ?_, fun p hp hc hz => ?_, fun hc hz => ?_, fun hc hz => ?_, fun hc hz hfull => ?_⟩
    · obtain ⟨hhead, ⟨d, hword⟩, hspelt⟩ := wordInstrs_atHead hi
      exact answers_reserved hup hhead hcan hword hspelt hnone
    · exact hrun hw rfl rfl rfl hc (if_pos (.inr hz))
    · exact hrun hw rfl rfl (by simp [Instr.spelt, himm]) hc (if_pos (.inr hz))
    · refine hrun hw rfl rfl himm hc ?_
      cases op with
      | undefined => rfl
      | load n signed => exact if_pos (.inl hz)
      | store n => exact if_pos (.inl hz)
    · exact hrun hw rfl rfl rfl hc (if_pos (.inl rfl))
    · exact hrun hw rfl rfl (by simp [Instr.spelt, himm]) hc (if_pos (.inl rfl))
    · exact hrun hw rfl rfl himm hc rfl
    · refine hrun rfl rfl rfl ?_ hc (if_pos rfl)
      have hreserved : condOf (k.word.field 36 32) = .reserved := by
        obtain ⟨m, hm⟩ := Nat.exists_eq_add_of_le' hcond
        rw [hm]
        rfl
      simp [Instr.spelt, hreserved]
    · exact hrun rfl rfl rfl (by simp [Instr.spelt]) hc (if_pos hz)
    · rw [← arithType_iff] at hbad
      simp only [List.mem_cons, List.not_mem_nil, or_false] at hp
      rcases hp with rfl | rfl | rfl | rfl | rfl
      · refine hrun hw rfl rfl rfl hc (if_neg fun hok => ?_)
        obtain ⟨hty, hz⟩ := Bool.and_eq_true_iff.mp hok
        exact hbad.elim (· (beq_iff_eq.mp hz)) (· (intType_imp_arith hty))
      · exact hrun hw rfl rfl rfl hc (if_neg fun ⟨_, hty, hz⟩ => hbad.elim (· hz) (· (floatType_imp_arith hty)))
      · refine hrun hw rfl rfl rfl hc (if_neg fun hok => ?_)
        obtain ⟨hty, hz⟩ := Bool.and_eq_true_iff.mp hok
        exact hbad.elim (· (beq_iff_eq.mp hz)) (· hty)
      · exact hrun hw rfl rfl rfl hc (if_neg fun ⟨_, hty, hz⟩ => hbad.elim (· hz) (· hty))
      · exact hrun hw rfl rfl rfl hc (if_neg fun ⟨_, hty, hz⟩ => hbad.elim (fun h => hz.elim (fun h' => h'.1 rfl) h) (· hty))
    · rw [← arithType_iff] at hbad
      exact hrun hw rfl rfl (by simp [Instr.spelt, hw]) hc (if_neg fun ⟨hty, hz⟩ => hbad.elim (· hz) (· hty))
    · exact hrun hw rfl rfl rfl hc (if_neg fun ⟨_, h, _⟩ => hty (List.contains_iff_mem.mp h))
    · exact hrun hw rfl rfl rfl hc (if_neg fun ⟨h, h2⟩ => by omega)
    · simp only [List.mem_cons, List.not_mem_nil, or_false] at hp
      rcases hp with rfl | rfl | rfl
      · exact hrun rfl rfl rfl rfl hc (if_neg (by simp [wordOk, wf, hz]))
      · exact hrun rfl rfl rfl rfl hc (if_neg (by simp [wordOk, wf, hz]))
      · exact hrun rfl rfl rfl rfl hc (if_pos (hzeroOk hz))
    · exact hrun rfl rfl rfl rfl hc (if_pos (hz.imp hzeroOk id))
    · exact hrun rfl rfl rfl rfl hc (if_pos (hzeroOk hz))
    · obtain ⟨hcls, hfn⟩ := field_of_dma hc
      have hok : wordOk k.word 0x30 0 [(49, 20)] = true := by simp [wordOk, clsOf, fnOf, wf, hcls, hfn, hz]
      refine answers_full (answers_coreStep rfl hup (hissues rfl) rfl rfl hc) ((if_neg (by rw [hok]; decide)).trans (State.enqueue_full hfull))
  · have hhead : AtHead c i := by
      rcases List.mem_append.mp hi with hi | hi
      · exact (wordInstrs_atHead hi).1
      · simp only [List.mem_cons, List.not_mem_nil, or_false] at hi
        rcases hi with rfl | rfl | rfl | rfl | rfl | rfl | rfl | rfl | rfl | rfl | rfl | rfl <;> exact ⟨_, fun _ => rfl⟩
    exact ⟨answers_waiting hup hhead, fun hrun hstall hwait hinvalid =>
      ⟨answers_fillPending hup hhead hinvalid, answers_fillMissing hup hhead hinvalid hrun hstall hwait⟩⟩

end Sys2Proof.Proofs

end

