-- ==== Sys2Proof/Proofs/SystemInstructions.lean ====
section
/-! PROOFS. System instructions, instruction fills, engine queues and queued signals (R143, R152 to R154, R159, R268). -/
namespace Sys2Proof.Machine
open Sys2Proof

/-- A field of a word written as a number. -/
theorem wf_ofNat {n : Nat} (h : n < 2 ^ 64) (hi lo : Nat) : wf (BitVec.ofNat 64 n) hi lo = n / 2 ^ lo % 2 ^ (hi + 1 - lo) := by
  rw [wf, IWord.field, bits, BitVec.toNat_ofNat, Nat.mod_eq_of_lt h, Nat.shiftRight_eq_div_pow]

/-! ### Fills (R153, R154) -/

theorem bit_foldl_clear (j : Nat) : ∀ (bs : List Nat) (v : Nat), bit (bs.foldl (fun v b => setBit v b false) v) j = (bit v j && !bs.contains j)
  | [], v => by simp
  | b :: bs, v => by
    rw [List.foldl_cons, bit_foldl_clear j bs, bit_setBit]
    by_cases h : j = b <;> simp [h]

/-- Word `j` after a block's words came in. -/
theorem tget_blockWords (old : Tbl IWord) (b : Nat) (bs : List Byte) (j : Nat) :
    tget 0#64 (blockWords old b bs) j =
      if b * 64 ≤ j ∧ j < b * 64 + 64 then BitVec.ofNat 64 (fieldAt bs (8 * (j - b * 64)) 8) else tget 0#64 old j := by
  have hfold : ∀ n, tget 0#64 ((upto 0 n).foldl (fun t i => tset 0#64 t (b * 64 + i) (BitVec.ofNat 64 (fieldAt bs (8 * i) 8))) old) j =
      if b * 64 ≤ j ∧ j < b * 64 + n then BitVec.ofNat 64 (fieldAt bs (8 * (j - b * 64)) 8) else tget 0#64 old j := by
    intro n
    induction n with
    | zero => exact (if_neg (by omega)).symm
    | succ n ih =>
      rw [upto_zero_eq_range] at ih ⊢
      rw [List.range_succ, List.foldl_append, List.foldl_cons, List.foldl_nil]
      by_cases h : j = b * 64 + n
      · rw [if_pos (by omega), h, tget_tset_same, Nat.add_sub_cancel_left]
      · rw [tget_tset_ne _ _ _ h, ih]
        exact if_congr (by omega) rfl rfl
  exact hfold 64

/-- Accounting changes nothing else. -/
theorem State.accountDram_eq (s : State) (c i a n : Nat) :
    s.accountDram c i a n = { s with ctxRuns := (s.accountDram c i a n).ctxRuns } := by
  unfold State.accountDram
  split <;> rfl

theorem State.accountDram_acct (s : State) (c i n : Nat) {a : Nat} (h : a < saddleSize) :
    tget 0 ((s.accountDram c i a n).ctxRun c).acct i = (tget 0 (s.ctxRun c).acct i + n) % 2 ^ 64 := by
  have hin : inSaddle a = true := decide_eq_true h
  rw [State.accountDram, if_pos hin, State.account, State.modRun_ctxRun]
  exact tget_tmod_same 0 _ i (fun v => (v + n) % 2 ^ 64)

/-- A fill that lands makes its block valid with the words read. -/
def Core.landed (k : Core) (b a : Nat) (bs : List Byte) : Core :=
  { k with
    ibuf := blockWords k.ibuf b bs, fills := k.fills.erase b, src := tset 0 k.src b a
    valid := if (k.fills.erase b).contains b then k.valid else setBit k.valid b true }

section
variable {s : State} {cl lc b a : Nat} {rest : List (Nat × Nat × Nat)} (h : (s.cluster cl).fills = (lc, b, a) :: rest)
include h

theorem State.fillLand_refused (hext : s.extOk (s.cluster cl).ctx false (a, a + 512) = false) : s.fillLand cl =
    s.ctxFault (s.cluster cl).ctx { code := fltDmaAddr, unit := 0x1000 + cl, detail := 0, addr := a } := by
  simp only [State.fillLand, h, hext]
  rfl

theorem State.fillLand_landed {l : Nat} {u : State} (hext : s.extOk (s.cluster cl).ctx false (a, a + 512) = true)
    (hl : (s.ctx (s.cluster cl).ctx).translate a = some l)
    (hread : (s.modCluster cl (fun x => { x with fills := rest })).readRange (dmaPort cl) (s.ctx (s.cluster cl).ctx).ways l 512 noErrors = (none, u)) :
    s.fillLand cl = (u.accountDram (s.cluster cl).ctx 11 l 512).modCore (cl * 16 + lc) (fun k =>
      k.landed b a (u.seen l 512)) := by
  simp only [State.fillLand, h, hext, hl, Option.getD_some, hread, Core.landed]
  exact if_neg (by decide)

end

theorem State.accountDram_core (s : State) (c i a n m : Nat) : (s.accountDram c i a n).core m = s.core m := by
  rw [State.accountDram_eq]
  rfl

theorem State.MemStep.pending {s t : State} (h : s.MemStep t) : t.pending = s.pending := by
  obtain ⟨⟨m, k, o, r, c, p, d, rfl⟩, -⟩ := h
  rfl

/-- What a next state that kept the queue satisfies. -/
theorem reaches_of_kept {s t : State} {c : Instr} {P : State → Prop} (h : Answers c s t) (hkept : t.pending = s.pending) (hp : P t) : Reaches c s P := by
  have hsame : { t with pending := s.pending } = t := by rw [← hkept]
  exact reaches_of_answers h (hsame.symm ▸ hp)

theorem exists_next_of_coreStep {s : State} (hup : s.up = true) (c : Nat) (i : Instr) (g : State → Run) : ∃ t, coreStep s c i g = .next t :=
  ⟨_, whenUp_up hup _⟩

theorem wordOk_of_fields {w : IWord} {cls fn : Nat} {zeros : List (Nat × Nat)} (hcls : wf w 63 58 = cls) (hfn : wf w 57 52 = fn)
    (hz : ∀ z ∈ zeros, wf w z.1 z.2 = 0) : wordOk w cls fn zeros = true := by
  simp only [wordOk, Bool.and_eq_true, beq_iff_eq, List.all_eq_true]
  exact ⟨⟨hcls, hfn⟩, hz⟩

/-- An instruction fill that is not refused (R153, R154). -/
def State.filled (s : State) (c a : Nat) (blocks : List Nat) (n : Nat) : State :=
  (s.modCore c (fun k => { k with
    valid := blocks.foldl (fun v b => setBit v b false) k.valid, fills := k.fills ++ blocks
    src := blocks.foldl (fun t b => tdel t b) k.src })).modCluster (c / 16) (fun x => { x with
      fills := x.fills ++ ((upto 0 n).zip blocks).map (fun p => (c % 16, p.2, a + p.1 * 512)) })

theorem State.filled_core (s : State) (c a : Nat) (blocks : List Nat) (n : Nat) : (s.filled c a blocks n).core c =
    { s.core c with
      valid := blocks.foldl (fun v b => setBit v b false) (s.core c).valid, fills := (s.core c).fills ++ blocks
      src := blocks.foldl (fun t b => tdel t b) (s.core c).src } :=
  s.modCore_core c (fun k => { k with
    valid := blocks.foldl (fun v b => setBit v b false) k.valid, fills := k.fills ++ blocks
    src := blocks.foldl (fun t b => tdel t b) k.src })

theorem State.filled_fills (s : State) (c a : Nat) (blocks : List Nat) (n : Nat) : ((s.filled c a blocks n).cluster (c / 16)).fills =
    (s.cluster (c / 16)).fills ++ ((upto 0 n).zip blocks).map (fun p => (c % 16, p.2, a + p.1 * 512)) := by
  rw [State.filled, State.modCluster_cluster]
  rfl

theorem State.retire_cluster (s : State) (c cl : Nat) : (s.retire c).cluster cl = s.cluster cl := rfl

section
variable {s : State} {c : Nat} {w : IWord} {r1 r2 first n : Nat} (hok : wordOk w 0x31 0 [(51, 47), (36, 32), (31, 26), (14, 0)] = true)
  (hr1 : wf w 46 42 = r1) (hr2 : wf w 41 37 = r2) (hfirst : wf w 25 21 = first) (hcount : wf w 20 15 = n) (hn : 1 ≤ n) (hn32 : n ≤ 32)
include hok hr1 hr2 hfirst hcount hn hn32

/-- What an IF does, by its address and its blocks. -/
theorem State.fillIssue_eq : s.fillIssue c w =
    if ((s.sreg c r1).toNat + (s.sreg c r2).toNat % 2 ^ 16 * 2 ^ 32) % 512 ≠ 0 then
      .error (.fault fltCoreAddr none ((s.sreg c r1).toNat + (s.sreg c r2).toNat % 2 ^ 16 * 2 ^ 32), s)
    else if (fillBlocks first n).contains ((s.core c).pc / 64) then s.wordFault fltCoreIfetch w
    else .ok (s.filled c ((s.sreg c r1).toNat + (s.sreg c r2).toNat % 2 ^ 16 * 2 ^ 32) (fillBlocks first n) n) := by
  subst hr1 hr2 hfirst hcount
  refine if_neg ?_
  rw [hok]
  rintro (h | h | h)
  · cases h
  · omega
  · omega

end

end Sys2Proof.Machine

namespace Sys2Proof.Proofs
open Sys2Proof.Machine

/-- Settles O24. -/
theorem systemInstructions : Obligations.SystemInstructions := by
  unfold Obligations.SystemInstructions
  refine ⟨fun s c hup hcan => ?_, fun s cl hup => ⟨fun h => ?_, fun lc b a rest h => ⟨fun hext => ?_, fun l u hext hl hread => ?_⟩⟩, tget_blockWords, fun s c hup => ?_⟩
  · intro k at_
    have hrun : ∀ {n : Nat} {i : Instr} {d : CoreClass} {g : State → Run}, at_ n → exec i s = coreStep s c i g → i.coreWord = some (d, BitVec.ofNat 64 n) →
        i.spelt = true → coreClass (BitVec.ofNat 64 n) = some d → Answers i s (s.settled c i (g s)) :=
      fun hw hexec hword hspelt hclass => answers_coreStep hexec hup (Core.issues_iff.mpr ⟨hcan, hw⟩) hword hspelt hclass
    refine ⟨fun hw => ?_, fun hw => ?_, fun hw hdebug => ?_, fun hw hdebug => ?_, fun b o hb ho hw => ?_, fun r1 r2 first n hr1 hr2 hfirst hn hn32 hw => ?_⟩
    · exact answers_retire (hrun hw rfl rfl rfl (by decide)) (if_pos (by decide))
    · exact answers_retire (hrun hw rfl rfl rfl (by decide)) (if_pos (by decide))
    · exact answers_retire (hrun hw rfl rfl rfl (by decide)) ((if_neg (by decide)).trans (if_neg (by rw [hdebug]; decide)))
    · exact answers_retire (hrun hw rfl rfl rfl (by decide)) ((if_neg (by decide)).trans (if_pos hdebug))
    · have hfield := wf_ofNat (n := 0x38 * 2 ^ 58 + b * 2 ^ 48 + o * 2 ^ 46) (by omega)
      have hbank : wf (BitVec.ofNat 64 (0x38 * 2 ^ 58 + b * 2 ^ 48 + o * 2 ^ 46)) 51 48 = b := (hfield _ _).trans (by omega)
      have howner : wf (BitVec.ofNat 64 (0x38 * 2 ^ 58 + b * 2 ^ 48 + o * 2 ^ 46)) 47 46 = o := (hfield _ _).trans (by omega)
      have hok : wordOk (BitVec.ofNat 64 (0x38 * 2 ^ 58 + b * 2 ^ 48 + o * 2 ^ 46)) 0x38 0 [(45, 0)] = true := by
        refine wordOk_of_fields ((hfield _ _).trans (by omega)) ((hfield _ _).trans (by omega)) fun z hz => ?_
        rw [List.mem_singleton.mp hz]
        exact (hfield _ _).trans (by dsimp only; omega)
      refine answers_retire (hrun hw rfl rfl rfl ((coreClass_of_wordOk hok (by decide)).trans rfl)) ((if_neg ?_).trans ?_)
      · rw [hok, hbank]
        rintro (h | h)
        · cases h
        · omega
      · rw [hbank, howner]
    · intro w a
      have hfield := wf_ofNat (n := 0x31 * 2 ^ 58 + r1 * 2 ^ 42 + r2 * 2 ^ 37 + first * 2 ^ 21 + n * 2 ^ 15) (by omega)
      have hok : wordOk w 0x31 0 [(51, 47), (36, 32), (31, 26), (14, 0)] = true := by
        refine wordOk_of_fields ((hfield _ _).trans (by omega)) ((hfield _ _).trans (by omega)) fun z hz => ?_
        simp only [List.mem_cons, List.not_mem_nil, or_false] at hz
        rcases hz with rfl | rfl | rfl | rfl <;> exact (hfield _ _).trans (by dsimp only; omega)
      have hissue := State.fillIssue_eq (s := s) (c := c) (r1 := r1) (r2 := r2) (first := first) (n := n) hok ((hfield _ _).trans (by omega))
        ((hfield _ _).trans (by omega)) ((hfield _ _).trans (by omega)) ((hfield _ _).trans (by omega)) hn hn32
      have hans := hrun hw (i := .instructionFill c w) (g := fun s => s.fillIssue c w) rfl rfl rfl ((coreClass_of_wordOk hok (by decide)).trans rfl)
      refine ⟨fun ha hpc => ?_, fun ha hpc => ?_, fun ha => ?_⟩
      · refine reaches_of_effect (answers_retire hans (hissue.trans ((if_neg (not_not.mpr ha)).trans (if_neg (by rw [hpc]; decide)))))
          ⟨fun b _ => ?_, ?_, ?_, ?_⟩ fun _ _ h => h
        · rw [State.retire_core, State.filled_core]
          exact bit_foldl_clear b _ _
        · rw [State.retire_core, State.filled_core]
        · rw [State.retire_core, State.filled_core]
        · rw [State.retire_cluster, State.filled_fills]
      · exact answers_wordFault hans (hissue.trans ((if_neg (not_not.mpr ha)).trans (if_pos hpc)))
      · exact answers_refused hans (hissue.trans (if_pos ha))
  · exact answers_congr (answers_whenUp rfl hup) (by simp only [State.fillLand, h])
  · exact answers_congr (answers_whenUp rfl hup) (State.fillLand_refused h hext)
  · have hkept : u.pending = s.pending := (congrArg (fun r => r.2.pending) hread).symm.trans (State.memStep_readRange _ _ _ _ _ _).pending
    refine reaches_of_kept (answers_congr (answers_whenUp rfl hup) (State.fillLand_landed h hext hl hread)) ?_ ⟨?_, fun hsaddle => ?_, ?_⟩
    · rw [State.modCore_pending, State.accountDram_eq]
      exact hkept
    · rw [State.modCore_core, State.accountDram_core]
      rfl
    · exact State.accountDram_acct u _ _ _ hsaddle
    · rw [State.accountDram_eq]
      rfl
  · refine ⟨fun e h => ?_, fun e h => ?_, fun h => ?_, fun g rest h hb => ?_, fun g rest h hb => ?_, fun h => ?_, fun w h => ?_⟩
    · exact answers_congr (answers_whenUp rfl hup) (if_pos h)
    · exact answers_congr (answers_whenUp rfl hup) (if_neg h)
    · exact answers_congr (answers_whenUp rfl hup) (by rw [State.sendSignal, h])
    · exact answers_congr (answers_whenUp rfl hup) (by rw [State.sendSignal, h]; exact if_neg (by simpa using hb))
    · exact answers_congr (answers_whenUp rfl hup) (by rw [State.sendSignal, h]; exact if_pos (by simpa using hb))
    · rw [State.resume, h]
    · obtain ⟨t, ht⟩ : ∃ t, execStrm c w (s.modCore c (fun k => { k with stalled := none })) = .next t  :=
        exists_next_of_coreStep (s := s.modCore c (fun k => { k with stalled := none })) hup c (.strm c w) _
      rw [State.resume, h]
      exact ht.trans (by simp only [ht, nextOf])

end Sys2Proof.Proofs

end

