-- ==== Sys2Proof/Proofs/ClusterDmaDescriptors.lean ====
section
/-! PROOFS. The cluster DMA: descriptors queued, refused, moved and completed, and the extents of a descriptor (R167 to R170). -/
namespace Sys2Proof.Machine
open Sys2Proof

/-! ### Extents (R168, R169) -/

theorem mul_between {i n : Nat} (h : i ≤ n) (x : Int) : min ((n : Int) * x) 0 ≤ (i : Int) * x ∧ (i : Int) * x ≤ max ((n : Int) * x) 0 := by
  have hi : (0 : Int) ≤ i := Int.natCast_nonneg i
  have hn : (i : Int) ≤ n := Int.ofNat_le.mpr h
  obtain hx | hx := Int.le_total 0 x
  · exact ⟨(min_le_right _ _).trans (Int.mul_nonneg hi hx), (Int.mul_le_mul_of_nonneg_right hn hx).trans (le_max_left _ _)⟩
  · exact ⟨(min_le_left _ _).trans (Int.mul_le_mul_of_nonpos_right hn hx), (Int.mul_nonpos_of_nonneg_of_nonpos hi hx).trans (le_max_right _ _)⟩

/-- Every byte of a run lies in the extent of its side. -/
theorem extentOf_contains {base len cnt1 cnt2 i1 i2 i : Nat} (s1 s2 : Int) (h1 : i1 < cnt1) (h2 : i2 < cnt2) (hi : i < len) :
    (extentOf base len cnt1 cnt2 s1 s2).1 ≤ (base : Int) + (i2 : Int) * s2 + (i1 : Int) * s1 + (i : Int) ∧
      (base : Int) + (i2 : Int) * s2 + (i1 : Int) * s1 + (i : Int) < (extentOf base len cnt1 cnt2 s1 s2).2 := by
  obtain ⟨hlo1, hhi1⟩ := mul_between (Nat.le_sub_one_of_lt h1) s1
  obtain ⟨hlo2, hhi2⟩ := mul_between (Nat.le_sub_one_of_lt h2) s2
  simp only [extentOf]
  omega

theorem mem_runs {d : DmaDesc} {b : Nat} {r : Int × Int} (h : r ∈ d.runs b) : ∃ i1 i2, i1 < d.cnt1 ∧ i2 < d.cnt2 ∧
    r = ((d.src : Int) + (i2 : Int) * d.ss2 + (i1 : Int) * d.ss1, (b : Int) + (i2 : Int) * d.ds2 + (i1 : Int) * d.ds1) := by
  simp only [DmaDesc.runs, List.mem_flatMap, List.mem_map, mem_upto_iff] at h
  obtain ⟨i2, h2, i1, h1, rfl⟩ := h
  exact ⟨i1, i2, by omega, by omega, rfl⟩

/-- A descriptor that is taken writes no byte that it reads. -/
theorem DmaDesc.source_ne_destination {d : DmaDesc} {n : Nat} (hok : d.ok n = true) (hfill : d.fill = false) {b b' : Nat} (hb' : b' ∈ d.dsts)
    {r r' : Int × Int} (hr : r ∈ d.runs b) (hr' : r' ∈ d.runs b') {i i' : Nat} (hi : i < d.len0) (hi' : i' < d.len0) : r.1 + (i : Int) ≠ r'.2 + (i' : Int) := by
  obtain ⟨i1, i2, h1, h2, rfl⟩ := mem_runs hr
  obtain ⟨j1, j2, h1', h2', rfl⟩ := mem_runs hr'
  have hsrc := extentOf_contains (base := d.src) d.ss1 d.ss2 h1 h2 hi
  have hdst := extentOf_contains (base := b') d.ds1 d.ds2 h1' h2' hi'
  have hapart : overlaps d.srcExt (extentOf b' d.len0 d.cnt1 d.cnt2 d.ds1 d.ds2) = false := by
    have hany : (d.fill || !(d.dstExts.any (overlaps d.srcExt))) = true := (Bool.and_eq_true_iff.mp hok).2
    rw [hfill, Bool.false_or, Bool.not_eq_true', List.any_eq_false] at hany
    exact Bool.eq_false_iff.mpr (hany _ (List.mem_map_of_mem hb'))
  intro heq
  dsimp only at heq
  rw [heq] at hsrc
  rw [overlaps, Bool.and_eq_false_iff, decide_eq_false_iff_not, decide_eq_false_iff_not] at hapart
  rcases hapart with h | h
  · exact h (hsrc.1.trans_lt hdst.2)
  · exact h (hdst.1.trans_lt hsrc.2)

/-! ### D (R167) -/

theorem bit_ofNat {n : Nat} (h : n < 2 ^ 64) (i : Nat) : bit (BitVec.ofNat 64 n).toNat i = (n / 2 ^ i % 2 == 1) := by
  rw [bit, BitVec.toNat_ofNat, Nat.mod_eq_of_lt h, Nat.shiftRight_eq_div_pow]

theorem State.enqueue_ok {s : State} {c : Nat} {e : Engine} {f : State → Run} (h : tget 0 (s.core c).queues (Engine.num e) < 4) :
    s.enqueue c e f = f (s.modCore c (fun k => { k with queues := tinc k.queues (Engine.num e) 1 })) := if_neg (Nat.not_le.mpr h)

theorem State.channel_congr {s t : State} {cl : Nat} (h : t.cluster cl = s.cluster cl) (m : Nat) : t.channel cl m = s.channel cl m := by
  rw [State.channel, State.channel, h]

/-- The core after it took an entry of the DMA queue. -/
def State.tookDma (s : State) (c : Nat) : State := s.modCore c (fun k => { k with queues := tinc k.queues (Engine.num .dma) 1 })

theorem State.tookDma_core (s : State) (c : Nat) : (s.tookDma c).core c = { s.core c with queues := tinc (s.core c).queues (Engine.num .dma) 1 } :=
  s.modCore_core c (fun k => { k with queues := tinc k.queues (Engine.num .dma) 1 })

section
variable {s : State} {c off : Nat} {w : IWord} (hlocal : bit w.toNat 50 = false) (hoff : wf w 19 0 = off)
  (hfit : off + 64 ≤ 0x20000) (halign : off % 64 = 0) (hpwr : bit (s.core c).pwr (coreBankOf off) = true)
include hlocal hoff hfit halign hpwr

/-- What a D of a descriptor in the scratchpad does, by its channel and lines. -/
theorem State.dIssue_eq : s.dIssue c w = if 16 ≤ (s.channel (c / 16) (b2n (bit w.toNat 51))).queue.length then .error (.full, s)
    else match s.testLines noErrors (linesOf (coreBase c + off) 64) with
    | .error x => .error x
    | .ok s' => .ok (s'.modChannel (c / 16) (b2n (bit w.toNat 51)) (fun x => { x with
        queue := x.queue ++ [{ bytes := s'.rdBytes (coreBase c + off) 64, core := c, ctx := (s.core c).ctx, addr := coreBase c + off }] })) := by
  have haddr : descAddr c w = coreBase c + off := by
    rw [descAddr, hlocal, hoff]
    rfl
  rw [State.dIssue]
  simp only [haddr, hoff, hlocal]
  exact (if_neg (by simp; omega)).trans (if_neg (by simp [hpwr]))

theorem State.dIssue_full (hfull : 16 ≤ (s.channel (c / 16) (b2n (bit w.toNat 51))).queue.length) : s.dIssue c w = .error (.full, s) := by
  rw [State.dIssue_eq hlocal hoff hfit halign hpwr, if_pos hfull]

theorem State.dIssue_queued (hroom : (s.channel (c / 16) (b2n (bit w.toNat 51))).queue.length < 16)
    (hlines : ∀ l ∈ linesOf (coreBase c + off) 64, s.lineFails l = false) :
    s.dIssue c w = .ok (s.modChannel (c / 16) (b2n (bit w.toNat 51)) (fun x => { x with
      queue := x.queue ++ [{ bytes := s.rdBytes (coreBase c + off) 64, core := c, ctx := (s.core c).ctx, addr := coreBase c + off }] })) := by
  rw [State.dIssue_eq hlocal hoff hfit halign hpwr, if_neg (Nat.not_le.mpr hroom), State.testLines_ok _ _ fun l hl => ⟨hlines l hl, List.not_mem_nil⟩]

end

/-! ### Start and completion (R154, R169, R170) -/

section
variable {s : State} {cl m : Nat} {e : AgentRun}

theorem State.dmaStart_idle (h : (s.channel cl m).busy ≠ none ∨ (s.channel cl m).queue = [] ∨ (s.cluster cl).fills ≠ []) : s.dmaStart cl m e = s := by
  unfold State.dmaStart
  extract_lets ch
  split
  case h_1 q rest hbusy hq =>
    exfalso
    cases hf : (s.cluster cl).fills with
    | nil =>
      rw [hf] at hq h
      rcases h with h | h | h
      · exact h hbusy
      · exact List.cons_ne_nil _ _ (hq.symm.trans h)
      · exact h rfl
    | cons x l =>
      rw [hf] at hq
      cases hq
  case h_2 => rfl

section
variable {q : Desc} {rest : List Desc} (hbusy : (s.channel cl m).busy = none) (hq : (s.channel cl m).queue = q :: rest) (hfills : (s.cluster cl).fills = [])
include hbusy hq hfills

/-- The oldest descriptor of an idle channel. -/
theorem State.dmaStart_eq : s.dmaStart cl m e =
    if !(readDesc q.bytes).ok (s.ctx q.ctx).numCores then
      s.ctxFault q.ctx { code := fltDmaDesc, unit := 0x1000 + cl, detail := m, addr := q.addr }
    else if !(((readDesc q.bytes).fill || s.extOk q.ctx false (readDesc q.bytes).srcExt) && (readDesc q.bytes).dstExts.all (s.extOk q.ctx true)) then
      s.ctxFault q.ctx { code := fltDmaAddr, unit := 0x1000 + cl, detail := m, addr := q.addr }
    else
      match ((s.modChannel cl m (fun c => { c with queue := rest, busy := some q })).meet e ((readDesc q.bytes).sides (s.ctx q.ctx))).moveAll cl q.ctx
        (readDesc q.bytes) e.errors with
      | (some (a, r), s) => s.clusterLine cl a r
      | (none, s) => (s.modChannel cl m (fun c => { c with
          bytes := (c.bytes + (readDesc q.bytes).dsts.length * (readDesc q.bytes).cnt2 * (readDesc q.bytes).cnt1 * (readDesc q.bytes).len0) % 2 ^ 64 })).retryD cl := by
  unfold State.dmaStart
  simp only [hbusy, hq, hfills, List.isEmpty_nil, if_true] <;> rfl

end

end

end Sys2Proof.Machine

namespace Sys2Proof.Proofs
open Sys2Proof.Machine

/-- Settles O25. -/
theorem clusterDma : Obligations.ClusterDma := by
  unfold Obligations.ClusterDma
  refine ⟨fun s c hup hcan hroom m off hm hfit halign => ?_, fun s cl m e hup => ?_, fun d n hok hfill b hb r hr i hi b' hb' r' hr' i' hi' =>
    d.source_ne_destination hok hfill hb' hr hr' hi hi'⟩
  · intro k w hw a
    have hfield := wf_ofNat (n := 0x30 * 2 ^ 58 + m * 2 ^ 51 + off) (by omega)
    have hbit := bit_ofNat (n := 0x30 * 2 ^ 58 + m * 2 ^ 51 + off) (by omega)
    have hok : wordOk w 0x30 0 [(49, 20)] = true := by
      refine wordOk_of_fields ((hfield _ _).trans (by omega)) ((hfield _ _).trans (by omega)) fun z hz => ?_
      rw [List.mem_singleton.mp hz]
      exact (hfield _ _).trans (by dsimp only; omega)
    have hlocal : bit w.toNat 50 = false := (hbit 50).trans (beq_eq_false_iff_ne.mpr (by omega))
    have hchan : b2n (bit w.toNat 51) = m := by
      have hdigit : (0x30 * 2 ^ 58 + m * 2 ^ 51 + off) / 2 ^ 51 % 2 = m := by omega
      rw [hbit 51, hdigit]
      interval_cases m <;> rfl
    have hoff : wf w 19 0 = off := (hfield _ _).trans (by omega)
    have hans := answers_coreStep (i := .dmaIssue c w) (f := fun s => s.dmaRun c w) rfl hup (Core.issues_iff.mpr ⟨hcan, hw⟩) rfl rfl
      ((coreClass_of_wordOk hok (by decide)).trans rfl)
    have hqueued : s.dmaRun c w = (s.tookDma c).dIssue c w := (if_neg (by rw [hok]; decide)).trans (State.enqueue_ok hroom)
    have hpower : ∀ {b : Bool}, bit k.pwr (coreBankOf off) = b → bit ((s.tookDma c).core c).pwr (coreBankOf off) = b := fun h => by
      rw [State.tookDma_core]
      exact h
    rw [← hchan]
    refine ⟨fun hpwr hlines hlen => ?_, fun hpwr hlen => ?_⟩
    · refine reaches_of_effect (answers_retire hans (hqueued.trans (State.dIssue_queued hlocal hoff hfit halign (hpower hpwr) hlen hlines)))
        ⟨?_, ?_, ?_, ?_⟩ fun _ _ h => h
      · rw [State.channel_congr (State.retire_cluster _ _ _), State.modChannel_channel, State.tookDma_core]
        rfl
      · rw [State.channel_congr (State.retire_cluster _ _ _), State.modChannel_channel]
        rfl
      · rw [State.retire_mem]
        rfl
      · rw [State.retire_core]
        show (((s.tookDma c).core c).pc + 1) % 2048 = _
        rw [State.tookDma_core]
    · exact answers_full hans (hqueued.trans (State.dIssue_full hlocal hoff hfit halign (hpower hpwr) hlen))
  · intro ch
    refine ⟨fun h => answers_congr (answers_whenUp rfl hup) (State.dmaStart_idle h), fun q rest hbusy hq hfills => ?_, fun dt hbusy => ?_, fun dt q hbusy => ?_⟩
    · intro x d
      have hstart := State.dmaStart_eq (e := e) hbusy hq hfills
      refine ⟨fun hok => ?_, fun hok hext => ?_, fun u hok hext hmove => ?_⟩
      · exact answers_congr (answers_whenUp rfl hup) (hstart.trans (if_pos (by rw [hok]; rfl)))
      · exact answers_congr (answers_whenUp rfl hup) (hstart.trans ((if_neg (by rw [hok]; decide)).trans (if_pos (by rw [hext]; rfl))))
      · refine answers_congr (answers_whenUp rfl hup) (hstart.trans ((if_neg (by rw [hok]; decide)).trans ((if_neg (by rw [hext]; decide)).trans ?_)))
        rw [hmove]
    · exact answers_congr (answers_whenUp rfl hup) (by rw [State.dmaDone, hbusy])
    · refine answers_congr (answers_whenUp rfl hup) ?_
      rw [State.dmaDone, hbusy]
      rfl

end Sys2Proof.Proofs

end

