-- ==== Sys2Proof/Proofs/ArrayInstructions.lean ====
section
/-! PROOFS. The array's instructions: the held operand, streamed rows, and the cells of the output-stationary mode (R186 to R190). -/
namespace Sys2Proof.Machine
open Sys2Proof

/-! ### An entry of the array's queue (R143) -/

/-- The core after an instruction took an entry of its array's queue. -/
def State.tookArray (s : State) (c : Nat) (op : ArrayOp) : State :=
  (s.modCore c (fun k => { k with queues := tinc k.queues 0 1 })).modCore c (fun k => { k with arrayQ := k.arrayQ ++ [op] })

theorem State.modCore_congr {s : State} {c : Nat} {f g : Core → Core} (h : f (s.core c) = g (s.core c)) : s.modCore c f = s.modCore c g :=
  congrArg (fun k => { s with cores := tset {} s.cores c k }) h

section
variable (s : State) (c : Nat) (op : ArrayOp)

theorem State.tookArray_core : (s.tookArray c op).core c = { s.core c with queues := tinc (s.core c).queues 0 1, arrayQ := (s.core c).arrayQ ++ [op] } := by
  rw [State.tookArray, State.modCore_core, State.modCore_core]

@[simp] theorem State.tookArray_mem : (s.tookArray c op).mem = s.mem := rfl

@[simp] theorem State.tookArray_sreg (r : Nat) : (s.tookArray c op).sreg c r = s.sreg c r := State.sreg_congr (by rw [State.tookArray_core]) r

/-- A stream is found by the tables and streams of its core. -/
theorem State.bound_congr {s t : State} {c : Nat} (htabs : (t.core c).tabs = (s.core c).tabs) (hstreams : (t.core c).streams = (s.core c).streams)
    (n : Nat) (write : Bool) : t.bound c n write = s.bound c n write := by
  unfold State.bound State.tabSlot
  rw [htabs, hstreams]

@[simp] theorem State.tookArray_bound (n : Nat) (write : Bool) : (s.tookArray c op).bound c n write = s.bound c n write :=
  State.bound_congr (by rw [State.tookArray_core]) (by rw [State.tookArray_core]) n write

end

section
variable {s : State} {c : Nat} {i : Instr} {op : ArrayOp}

theorem State.enqueueArray_ok {f : State → Run} (h : tget 0 (s.core c).queues 0 < 4) : s.enqueueArray c op f = f (s.tookArray c op) :=
  State.enqueue_ok h

/-- An instruction of the array that faults once it is queued. -/
theorem answers_arrayFault {w : IWord} {f : Run} {code : Nat} (h : Answers i s (s.settled c i f)) (hrun : f = (s.tookArray c op).wordFault code w) :
    Answers i s ((s.tookArray c op).ctxFault (s.core c).ctx { code := code, unit := c, detail := (s.core c).pc, addr := w.toNat }) := by
  have hfault := answers_fault h (hrun.trans rfl)
  rw [State.tookArray_core] at hfault
  exact hfault

end

/-! ### LDS (R186, R187) -/

section
variable {s : State} {c off stride ft : Nat}

/-- A row that an LDS can read. -/
def State.RowHealthy (s : State) (c a : Nat) : Prop :=
  a + 32 ≤ 0x18000 ∧ (∀ b ∈ banksOf a 32, bit (s.core c).pwr b = true ∧ tget 0 (s.core c).own b = 2) ∧
    (∀ l ∈ linesOf (coreBase c + a) 32, s.lineFails l = false)

theorem State.heldLine_ok {a : Nat} (halign : a % 32 = 0) (h : s.RowHealthy c a) :
    s.heldLine c a = .ok (s.rdBytes (coreBase c + a) 32, s) := by
  obtain ⟨hfit, hbanks, hlines⟩ := h
  rw [State.heldLine, if_neg (by omega)]
  exact State.portRead_ok (State.portCheck_none (by omega) halign (fun b hb => (hbanks b hb).1) (fun b hb => (hbanks b hb).2))
    fun l hl => ⟨hlines l hl, List.not_mem_nil⟩

theorem State.heldRows_ok (halign : off % 32 = 0) (n : Nat) : ∀ k, (∀ i, k ≤ i → i < k + n → s.RowHealthy c (off + i * stride * 32)) →
    State.heldRows c off stride ft false n k s =
      .ok ((upto k n).map (fun i => elemsOf (halfSize ft) 16 (s.rdBytes (coreBase c + (off + i * stride * 32)) 32)), s) := by
  induction n with
  | zero => exact fun k _ => rfl
  | succ n ih =>
    intro k h
    have hrow : s.heldRow c off stride ft k false = .ok (elemsOf (halfSize ft) 16 (s.rdBytes (coreBase c + (off + k * stride * 32)) 32), s) := by
      rw [State.heldRow]
      simp only [Bool.false_eq_true, if_false]
      rw [State.heldLine_ok (by omega) (h k le_rfl (by omega))]
    rw [State.heldRows, hrow]
    dsimp only
    rw [ih (k + 1) fun i hi hi' => h i (by omega) (by omega)]
    rfl

end

/-! ### Cells (R189) -/

theorem tget_absent {α : Type} (d : α) : ∀ {t : Tbl α} {k : Nat}, k ∉ t.map Prod.fst → tget d t k = d
  | [], _, _ => rfl
  | (k', v) :: t, k, h => by
    rw [List.map_cons, List.mem_cons, not_or] at h
    exact (if_neg h.1).trans (tget_absent d h.2)

/-- A table that leaves out the default holds it all the same. -/
theorem tget_filter_ne {α : Type} [DecidableEq α] (d : α) : ∀ {t : Tbl α} {k : Nat} {v : α}, (t.map Prod.fst).Nodup → (k, v) ∈ t →
    tget d (t.filter (fun p => decide (p.2 ≠ d))) k = v
  | (k', v') :: t, k, v, hnodup, hmem => by
    rw [List.map_cons, List.nodup_cons] at hnodup
    dsimp only at hnodup
    have habsent : k' ∉ (t.filter (fun p => decide (p.2 ≠ d))).map Prod.fst := fun hin => by
      obtain ⟨p, hp, heq⟩ := List.mem_map.mp hin
      exact hnodup.1 (by rw [← heq]; exact List.mem_map_of_mem (List.mem_filter.mp hp).1)
    rcases List.mem_cons.mp hmem with heq | htail
    · obtain ⟨rfl, rfl⟩ := Prod.mk.inj heq
      by_cases hv : v = d
      · rw [List.filter_cons_of_neg (by simp [hv]), tget_absent d habsent, hv]
      · rw [List.filter_cons_of_pos (by simp [hv]), tget, if_pos rfl]
    · have hne : k ≠ k' := fun heq => hnodup.1 (by rw [← heq]; exact List.mem_map_of_mem htail)
      by_cases hv : v' = d
      · rw [List.filter_cons_of_neg (by simp [hv]), tget_filter_ne d hnodup.2 htail]
      · rw [List.filter_cons_of_pos (by simp [hv]), tget, if_neg hne, tget_filter_ne d hnodup.2 htail]

theorem tget_osTable {xs : List Nat} (hlen : xs.length = 256) {i x : Nat} (hx : xs[i]? = some x) : tget 0#32 (osTable xs) i = BitVec.ofNat 32 x := by
  have hlen' : (xs.map (BitVec.ofNat 32)).length = 256 := by rw [List.length_map, hlen]
  rw [osTable, ← hlen']
  refine tget_filter_ne _ ?_ (mem_zip_upto.mpr (by rw [List.getElem?_map, hx]; rfl))
  rw [map_fst_zip_upto, upto_zero_eq_range]
  exact List.nodup_range

theorem getElem?_zip_upto_map {α β : Type} {l : List α} {n : Nat} (hlen : l.length = n) (f : Nat × α → β) (i : Nat) :
    (((upto 0 n).zip l).map f)[i]? = (l[i]?).map (fun x => f (i, x)) := by
  subst hlen
  rw [List.getElem?_map]
  cases hx : l[i]? with
  | none => rw [List.getElem?_eq_none (by simpa [upto_zero_eq_range] using hx)]; rfl
  | some x =>
    have hi := (List.getElem?_eq_some_iff.mp hx).1
    rw [(List.getElem?_zip_eq_some (z := (i, x))).mpr ⟨by rw [upto_zero_eq_range, List.getElem?_range hi], hx⟩]
    rfl

/-- The product that cell `i` takes from a step. -/
def osProduct (fa fb : Nat) (za zb : Int) (i : Nat) (p : List Nat × List Nat) : Int :=
  (intVal fa (p.1.getD (i / 16) 0) - za) * (intVal fb (p.2.getD (i % 16) 0) - zb)

theorem length_osInt (fa fb : Nat) (za zb : Int) {cells : List (Int × Bool)} (h : cells.length = 256) (p : List Nat × List Nat) :
    (osInt fa fb za zb cells p).length = 256 := by
  simp [osInt, upto_zero_eq_range, h]

/-- Integer cells after steps hold their exact sums. -/
theorem foldl_osInt (fa fb : Nat) (za zb : Int) (steps : List (List Nat × List Nat)) : ∀ {cells : List (Int × Bool)} {i : Nat} {x : Int × Bool},
    cells.length = 256 → cells[i]? = some x → (steps.foldl (osInt fa fb za zb) cells).length = 256 ∧
      ∃ b, (steps.foldl (osInt fa fb za zb) cells)[i]? = some (x.1 + (steps.map (osProduct fa fb za zb i)).sum, b) := by
  induction steps with
  | nil => exact fun {cells i x} hlen hx => ⟨hlen, x.2, by simpa using hx⟩
  | cons p steps ih =>
    intro cells i x hlen hx
    obtain ⟨hlen', b, hb⟩ := ih (i := i) (length_osInt fa fb za zb hlen p) ((getElem?_zip_upto_map hlen _ i).trans (congrArg (Option.map _) hx))
    refine ⟨hlen', b, hb.trans ?_⟩
    rw [addAll_fst, List.map_cons, List.sum_cons, List.sum_cons, List.sum_nil, osProduct]
    congr 2
    ring

theorem foldl_osFloats (fa fb : Nat) (steps : List (List Nat × List Nat)) : ∀ {cells : List Nat} {i x : Nat},
    cells.length = 256 → cells[i]? = some x → (steps.foldl (osFloats fa fb) cells).length = 256 ∧
      (steps.foldl (osFloats fa fb) cells)[i]? = some (addFloats (steps.map (fun p =>
        fvMul (decAs fa (p.1.getD (i / 16) 0)) (decAs fb (p.2.getD (i % 16) 0)))) x) := by
  induction steps with
  | nil => exact fun {cells i x} hlen hx => ⟨hlen, hx⟩
  | cons p steps ih =>
    intro cells i x hlen hx
    exact ih (by simp [osFloats, upto_zero_eq_range, hlen]) ((getElem?_zip_upto_map hlen _ i).trans (congrArg (Option.map _) hx))

/-- A significand that reaches the top is infinity. -/
theorem f32_packed_lt (m c : Nat) {b : Nat} (hb : b < 2) :
    (if m = 0 then 0 else if c ≥ f32.top then (if (false || !f32.ieee) = true then f32.top - 1 else f32.top) else c) + b * 2 ^ (f32.ebits + f32.mbits) < 2 ^ 32 := by
  have htop : f32.top = 255 * 2 ^ 23 := by decide
  have hwidth : f32.ebits + f32.mbits = 31 := rfl
  have hsat : (if (false || !f32.ieee) = true then f32.top - 1 else f32.top) = f32.top := if_neg (by decide)
  rw [hsat, htop, hwidth]
  split_ifs <;> omega

theorem fenc_f32_lt (v : FV) : fenc f32 false v < 2 ^ 32 := by
  cases v with
  | nan => exact (by decide : f32.nanCode < 2 ^ 32)
  | inf neg => exact (by decide : ∀ b : Bool, fenc f32 false (.inf b) < 2 ^ 32) neg
  | fin neg m e => exact f32_packed_lt m _ (b2n_lt neg)

theorem addFloats_lt {xs : List FV} {x : Nat} (hx : x < 2 ^ 32) : addFloats xs x < 2 ^ 32 := by
  induction xs generalizing x with
  | nil => exact hx
  | cons v xs ih => exact ih (fenc_f32_lt _)

/-! ### Rows read through a stream (R230) -/

theorem State.testLines_step {s t : State} {e : ReadErrors} {ls : List Nat} (h : s.testLines e ls = .ok t) : s.MemStep t := by
  induction ls generalizing s with
  | nil =>
    cases h
    exact .refl _
  | cons l ls ih =>
    rw [State.testLines] at h
    have hline := s.memStep_testLine 43 l e
    split at h
    case h_1 u hu =>
      rw [hu] at hline
      exact hline.trans (ih h)
    case h_2 => cases h

theorem State.portRead_step {s t : State} {c owner off n align : Nat} {e : ReadErrors} {bs : List Byte} (h : s.portRead c owner off n align e = .ok (bs, t)) :
    s.MemStep t := by
  rw [State.portRead] at h
  split at h
  · cases h
  · split at h
    case h_1 u hu =>
      cases h
      exact State.testLines_step hu
    case h_2 => cases h

theorem State.MemStep.core {s t : State} (h : s.MemStep t) (c : Nat) : t.core c = s.core c := by
  obtain ⟨⟨m, k, o, r, c', p, d, rfl⟩, -⟩ := h
  rfl

theorem State.readRow_osFloat {s t : State} {c owner : Nat} {b : Bound} {fill : Nat} {xs : List Nat} (h : s.readRow c owner b fill = .ok (xs, t)) :
    (t.core c).osFloat = (s.core c).osFloat := by
  have htake : ((s.takeRow c b).2.core c).osFloat = (s.core c).osFloat := by
    rw [State.takeRow, State.modCore_core]
  rw [State.readRow, State.readAt] at h
  split at h
  · cases h
    exact htake
  · split at h
    · cases h
    case h_2 bs u hu =>
      cases h
      rw [(State.portRead_step hu).core, htake]

theorem State.osRows_osFloat {c : Nat} {ba bb : Bound} {ca cb n : Nat} : ∀ {s t : State} {rows : List (List Nat × List Nat)},
    State.osRows c ba bb ca cb n s = .ok (rows, t) → (t.core c).osFloat = (s.core c).osFloat := by
  induction n with
  | zero =>
    intro s t rows h
    cases h
    rfl
  | succ n ih =>
    intro s t rows h
    rw [State.osRows] at h
    split at h
    · cases h
    · split at h
      · cases h
      · split at h
        · cases h
        next ha _ _ _ hb _ _ _ hrest =>
          cases h
          rw [ih hrest, State.readRow_osFloat hb, State.readRow_osFloat ha]

/-! ### The instructions at issue -/

/-- Formats of an accumulator. -/
theorem accFormat {ft : Nat} (h : ft = 10 ∨ ft = 11) : ([10, 11] : List Nat).contains ft = true := by
  rcases h with rfl | rfl <;> rfl

theorem answers_numbered {s : State} {c : Nat} {w : IWord} {i : Instr} {k : CoreClass} {f : State → Run} {cls fn : Nat} {zeros : List (Nat × Nat)}
    (hup : s.up = true) (hissues : (s.core c).issues w = true) (hexec : exec i s = coreStep s c i f) (hword : i.coreWord = some (k, w)) (hspelt : i.spelt = true)
    (hok : wordOk w cls fn zeros = true) (hcls : 0x1C < cls) (hnumber : numberedClass cls fn = some k) : Answers i s (s.settled c i (f s)) :=
  answers_coreStep hexec hup hissues hword hspelt ((coreClass_of_wordOk hok hcls).trans hnumber)

section
variable {s : State} {c : Nat} {w : IWord} (hup : s.up = true) (hissues : (s.core c).issues w = true) (hroom : tget 0 (s.core c).queues 0 < 4)
include hup hissues hroom

theorem answers_lds {K cyc : Nat} {fl : Bool} (hpair : pairOf (wf w 51 48) (wf w 47 44) (wf w 43 42) = some (K, cyc, fl)) (hmode : wf w 43 42 ≤ 1)
    (hok : wordOk w 0x20 0 [(41, 41), (34, 25)] = true) (hstride : wf w 24 17 ≠ 0) (hexp : wf w 47 44 = 4 ∨ wf w 39 35 = 0) :
    Answers (.lds c w) s (s.settled c (.lds c w) (if (s.core c).heldBusy then .error (.full, s) else (s.tookArray c .lds).lds c w K)) := by
  refine answers_congr (answers_numbered hup hissues rfl rfl rfl hok (by decide) rfl) (congrArg (s.settled c _) ?_)
  simp only [hpair]
  rw [if_neg (by rw [hok]; simp; omega)]
  split
  · rfl
  · exact State.enqueueArray_ok hroom

theorem answers_strm {K cyc : Nat} {fl : Bool} (hpair : pairOf (wf w 51 48) (wf w 47 44) (wf w 43 42) = some (K, cyc, fl)) (hmode : wf w 43 42 ≤ 1)
    (hok : wordOk w 0x21 0 [(40, 40), (31, 29), (25, 16)] = true) (hrows : wf w 15 0 ≠ 0) :
    Answers (.strm c w) s (s.settled c (.strm c w) ((s.tookArray c .strm).strm c w K cyc fl)) := by
  refine answers_congr (answers_numbered hup hissues rfl rfl rfl hok (by decide) rfl) (congrArg (s.settled c _) ?_)
  simp only [hpair]
  rw [if_neg (by rw [hok]; simp; omega)]
  exact State.enqueueArray_ok hroom

theorem answers_ostr {K cyc : Nat} {fl : Bool} (hpair : pairOf (wf w 51 48) (wf w 47 44) 2 = some (K, cyc, fl)) (hmode : wf w 43 42 = 2)
    (hok : wordOk w 0x22 0 [(41, 40), (28, 16)] = true) (hrows : wf w 15 0 ≠ 0) :
    Answers (.ostr c w) s (s.settled c (.ostr c w) ((s.tookArray c .other).ostr c w K cyc fl)) := by
  refine answers_congr (answers_numbered hup hissues rfl rfl rfl hok (by decide) rfl) (congrArg (s.settled c _) ?_)
  simp only [hpair]
  rw [if_neg (by rw [hok]; simp; omega)]
  exact State.enqueueArray_ok hroom

theorem answers_odrn (hmode : wf w 43 42 = 2) (hft : wf w 47 44 = 10 ∨ wf w 47 44 = 11) (hok : wordOk w 0x22 1 [(51, 48), (39, 29), (25, 0)] = true) :
    Answers (.odrn c w) s (s.settled c (.odrn c w) ((s.tookArray c .other).odrn c w)) := by
  refine answers_congr (answers_numbered hup hissues rfl rfl rfl hok (by decide) rfl) (congrArg (s.settled c _) ?_)
  exact (if_neg (by rw [hok, accFormat hft]; simp; omega)).trans (State.enqueueArray_ok hroom)

theorem answers_oclr (hmode : wf w 43 42 = 2) (hft : wf w 47 44 = 10 ∨ wf w 47 44 = 11) (hok : wordOk w 0x22 2 [(51, 48), (41, 0)] = true) :
    Answers (.oclr c w) s ((((s.tookArray c .other).modCore c (fun x => { x with os := [], osFloat := wf w 47 44 == 10 })).account (s.core c).ctx 2 1).retire c) := by
  refine answers_retire (answers_numbered hup hissues rfl rfl rfl hok (by decide) rfl) ?_
  refine (if_neg (by rw [hok, accFormat hft]; simp; omega)).trans ((State.enqueueArray_ok hroom).trans ?_)
  rw [State.tookArray_core]

end

/-! ### What they do once queued -/

section
variable {s : State} {c : Nat} {w : IWord}

/-- A core whose held operand is replaced. -/
def Core.holds (k : Core) (h : HeldOp) : Core := { k with held := some h, heldPrev := if k.arrayQ.contains .strm then k.held else k.heldPrev }

theorem State.lds_transposed {K : Nat} (ht : bit w.toNat 40 = true) (hstride : wf w 24 17 % 2 = 0) : s.lds c w K = s.wordFault fltCoreTranspose w :=
  if_pos ⟨ht, hstride⟩

theorem State.lds_loads {K : Nat} {rows : List (List Nat)} {u v : State} {ex : List Nat} (halign : wf w 16 0 % 32 = 0)
    (ht : bit w.toNat 40 = true → wf w 24 17 % 2 = 1)
    (hrows : State.heldRows c (wf w 16 0) (wf w 24 17) (wf w 47 44) (bit w.toNat 40) K 0 s = .ok (rows, u))
    (hexp : u.expRow c (wf w 47 44) (u.sreg c (wf w 39 35)).toNat = .ok (ex, v)) :
    s.lds c w K = .ok ((v.modCore c (fun x => x.holds { fmtS := wf w 51 48, fmtT := wf w 47 44, mode := wf w 43 42, k := K, rows := rows, exps := ex })).account
      (v.core c).ctx 2 (if wf w 47 44 = 4 then K + 1 else K)) := by
  unfold State.lds
  extract_lets t stride off ft
  rw [if_neg fun h : t = true ∧ stride % 2 = 0 => by have := ht h.1; have := h.2; omega, if_neg (not_not.mpr halign), hrows]
  dsimp only
  rw [hexp]
  rfl

theorem State.strm_unheld {K cyc : Nat} {fl : Bool} (h : (s.core c).held = none) : s.strm c w K cyc fl = s.wordFault fltArrState w := by
  rw [State.strm, h]

section
variable {K cyc : Nat} {fl : Bool} {h : HeldOp} (hheld : (s.core c).held = some h)
include hheld

theorem State.strm_mismatch (hbad : h.fmtT ≠ wf w 47 44 ∨ h.mode ≠ wf w 43 42 ∨ h.k ≠ K) : s.strm c w K cyc fl = s.wordFault fltArrState w := by
  rw [State.strm, hheld]
  exact if_pos hbad

section
variable (hmatch : ¬ (h.fmtT ≠ wf w 47 44 ∨ h.mode ≠ wf w 43 42 ∨ h.k ≠ K))
include hmatch

theorem State.strm_zeroPoint (hbad : zpFits (wf w 47 44) (zpHeld (s.sreg c (wf w 39 35))) = false ∨ zpFits (wf w 51 48) (zpStream (s.sreg c (wf w 39 35))) = false) :
    s.strm c w K cyc fl = s.wordFault fltArrZp w := by
  rw [State.strm, hheld]
  exact (if_neg hmatch).trans (if_pos (hbad.imp (fun h => by rw [h]; rfl) (fun h => by rw [h]; rfl)))

section
variable (hzt : zpFits (wf w 47 44) (zpHeld (s.sreg c (wf w 39 35))) = true) (hzs : zpFits (wf w 51 48) (zpStream (s.sreg c (wf w 39 35))) = true)
include hzt hzs

theorem State.strm_unbound (hnone : s.bound c (wf w 34 32) false = none ∨ s.bound c (wf w 28 26) true = none) :
    s.strm c w K cyc fl = s.wordFault fltTileStream w := by
  rw [State.strm, hheld]
  refine (if_neg hmatch).trans ((if_neg (by rw [hzt, hzs]; decide)).trans ?_)
  rcases hnone with h | h
  · rw [h]
  · rw [h]
    cases s.bound c (wf w 34 32) false <;> rfl

theorem State.strm_rows {bs ba : Bound} (hbs : s.bound c (wf w 34 32) false = some bs) (hba : s.bound c (wf w 28 26) true = some ba)
    (hfs : bs.fits K (wf w 51 48) 0 = true) (hfa : ba.fits 16 11 1 = true) :
    s.strm c w K cyc fl = runAll (fun t (_ : Nat) => t.strmRow c h fl (bit w.toNat 41) (wf w 51 48) (zpStream (s.sreg c (wf w 39 35))) (zpHeld (s.sreg c (wf w 39 35))) bs ba)
      (s.account (s.core c).ctx 2 (wf w 15 0 * cyc)) (upto 0 (wf w 15 0)) := by
  rw [State.strm, hheld]
  refine (if_neg hmatch).trans ((if_neg (by rw [hzt, hzs]; decide)).trans ?_)
  rw [hbs, hba]
  dsimp only
  exact if_neg (c := (!bs.fits K (wf w 51 48) 0) = true ∨ (!ba.fits 16 11 1) = true) (by rw [hfs, hfa]; decide)

end

end

end

/-- The cells of a core as an OSTR finds them. -/
theorem cells_getElem? (k : Core) {i : Nat} (hi : i < 256) : ((upto 0 256).map (fun i => (k.cell i).toNat))[i]? = some (k.cell i).toNat := by
  rw [upto_zero_eq_range, List.getElem?_map, List.getElem?_range hi]
  rfl

theorem State.flagRange_core (b : Bool) : (s.flagRange c b).core c = { s.core c with rangeFlag := b || (s.core c).rangeFlag } := by
  cases b
  · rfl
  · exact s.modCore_core c (fun k => { k with rangeFlag := true })

theorem State.flagRange_mem (b : Bool) : (s.flagRange c b).mem = s.mem := by cases b <;> rfl

section
variable {K cyc : Nat} {fl : Bool}

theorem State.ostr_mismatch (h : (s.core c).osFloat ≠ fl) : s.ostr c w K cyc fl = s.wordFault fltArrState w := if_pos h

section
variable (hfloat : (s.core c).osFloat = fl)
include hfloat

theorem State.ostr_zeroPoint (hbad : zpFits (wf w 47 44) (zpHeld (s.sreg c (wf w 39 35))) = false ∨ zpFits (wf w 51 48) (zpStream (s.sreg c (wf w 39 35))) = false) :
    s.ostr c w K cyc fl = s.wordFault fltArrZp w :=
  (if_neg (not_not.mpr hfloat)).trans (if_pos (hbad.imp (fun h => by rw [h]; rfl) (fun h => by rw [h]; rfl)))

section
variable (hzt : zpFits (wf w 47 44) (zpHeld (s.sreg c (wf w 39 35))) = true) (hzs : zpFits (wf w 51 48) (zpStream (s.sreg c (wf w 39 35))) = true)
  {ba bb : Bound} {rows : List (List Nat × List Nat)} {u : State} (hba : s.bound c (wf w 34 32) false = some ba) (hbb : s.bound c (wf w 31 29) false = some bb)
  (hfa : ba.fits K (wf w 51 48) 0 = true) (hfb : bb.fits K (wf w 47 44) 0 = true)
  (hrows : State.osRows c ba bb (fillCode (wf w 51 48) (zpStream (s.sreg c (wf w 39 35)))) (fillCode (wf w 47 44) (zpHeld (s.sreg c (wf w 39 35)))) (wf w 15 0) s
    = .ok (rows, u))
include hzt hzs hba hbb hfa hfb hrows

/-- The rows of an OSTR as steps. -/
theorem State.ostr_eq : ∃ busy, s.ostr c w K cyc fl = .ok (if fl then
      (u.account (s.core c).ctx 2 busy).modCore c (fun k => { k with os := osTable ((rows.flatMap (fun r => osSteps K r.1 r.2)).foldl
        (osFloats (wf w 51 48) (wf w 47 44)) ((upto 0 256).map (fun i => ((s.core c).cell i).toNat))) })
    else
      ((u.account (s.core c).ctx 2 busy).modCore c (fun k => { k with os := osTable (((rows.flatMap (fun r => osSteps K r.1 r.2)).foldl
        (osInt (wf w 51 48) (wf w 47 44) (zpStream (s.sreg c (wf w 39 35))) (zpHeld (s.sreg c (wf w 39 35))))
        (((upto 0 256).map (fun i => ((s.core c).cell i).toNat)).map (fun v => (sgn 32 v, false)))).map (fun x => wrap 32 x.1)) })).flagRange c
      (((rows.flatMap (fun r => osSteps K r.1 r.2)).foldl
        (osInt (wf w 51 48) (wf w 47 44) (zpStream (s.sreg c (wf w 39 35))) (zpHeld (s.sreg c (wf w 39 35))))
        (((upto 0 256).map (fun i => ((s.core c).cell i).toNat)).map (fun v => (sgn 32 v, false)))).any (·.2))) := by
  refine ⟨(wf w 15 0 + s.osShared c ba bb (wf w 15 0)) * cyc, ?_⟩
  rw [State.ostr]
  refine (if_neg (not_not.mpr hfloat)).trans ((if_neg (by rw [hzt, hzs]; decide)).trans ?_)
  rw [hba, hbb]
  refine (if_neg (by rw [hfa, hfb]; decide)).trans ?_
  dsimp only
  rw [hrows]
  cases fl <;> rfl

theorem State.ostr_runs : ∃ t, s.ostr c w K cyc fl = .ok t ∧ (t.core c).osFloat = (u.core c).osFloat ∧ (t.core c).pc = (u.core c).pc ∧ t.mem = u.mem ∧
    (fl = false → ∀ i < 256, ((t.core c).cell i).toNat = wrap 32 (sgn 32 ((s.core c).cell i).toNat + ((rows.flatMap (fun r => osSteps K r.1 r.2)).map
      (osProduct (wf w 51 48) (wf w 47 44) (zpStream (s.sreg c (wf w 39 35))) (zpHeld (s.sreg c (wf w 39 35))) i)).sum))
    ∧ (fl = true → ∀ i < 256, ((t.core c).cell i).toNat = addFloats ((rows.flatMap (fun r => osSteps K r.1 r.2)).map (fun p =>
      fvMul (decAs (wf w 51 48) (p.1.getD (i / 16) 0)) (decAs (wf w 47 44) (p.2.getD (i % 16) 0)))) ((s.core c).cell i).toNat) := by
  obtain ⟨busy, hrun⟩ := State.ostr_eq hfloat hzt hzs hba hbb hfa hfb hrows (cyc := cyc)
  refine ⟨_, hrun, ?_⟩
  have hcells : ((upto 0 256).map (fun i => ((s.core c).cell i).toNat)).length = 256 := by rw [upto_zero_eq_range]; simp
  cases fl with
  | true =>
    simp only [if_true]
    rw [State.modCore_core]
    refine ⟨rfl, rfl, rfl, nofun, fun _ i hi => ?_⟩
    obtain ⟨hlen, hi'⟩ := foldl_osFloats (wf w 51 48) (wf w 47 44) (rows.flatMap (fun r => osSteps K r.1 r.2)) hcells (cells_getElem? (s.core c) hi)
    exact (congrArg BitVec.toNat (tget_osTable hlen hi')).trans
      ((BitVec.toNat_ofNat _ _).trans (Nat.mod_eq_of_lt (addFloats_lt (BitVec.isLt _))))
  | false =>
    simp only [Bool.false_eq_true, if_false]
    rw [State.flagRange_core, State.flagRange_mem, State.modCore_core]
    refine ⟨rfl, rfl, rfl, fun _ i hi => ?_, nofun⟩
    obtain ⟨hlen, b, hi'⟩ := foldl_osInt (wf w 51 48) (wf w 47 44) (zpStream (s.sreg c (wf w 39 35))) (zpHeld (s.sreg c (wf w 39 35)))
      (rows.flatMap (fun r => osSteps K r.1 r.2)) ((List.length_map _).trans hcells)
      ((List.getElem?_map).trans (congrArg (Option.map fun v => (sgn 32 v, false)) (cells_getElem? (s.core c) hi)))
    refine (congrArg BitVec.toNat (tget_osTable ((List.length_map _).trans hlen)
      ((List.getElem?_map).trans (congrArg (Option.map fun x : Int × Bool => wrap 32 x.1) hi')))).trans ?_
    exact (BitVec.toNat_ofNat _ _).trans (Nat.mod_eq_of_lt (wrap_lt 32 _))

end

end

end

end

section
variable {s : State} {c : Nat} {w : IWord}

theorem State.odrn_mismatch (h : (s.core c).osFloat ≠ (wf w 47 44 == 10)) : s.odrn c w = s.wordFault fltArrState w := if_pos h

theorem State.odrn_unbound (h : (s.core c).osFloat = (wf w 47 44 == 10)) (hnone : s.bound c (wf w 28 26) true = none) : s.odrn c w = s.wordFault fltTileStream w := by
  rw [State.odrn]
  refine (if_neg (not_not.mpr h)).trans ?_
  rw [hnone]

theorem State.odrn_rows {ba : Bound} {u : State} (h : (s.core c).osFloat = (wf w 47 44 == 10)) (hba : s.bound c (wf w 28 26) true = some ba)
    (hfits : ba.fits 16 11 1 = true)
    (hrun : runAll (State.odrnRow c (wf w 47 44 == 10) (bit w.toNat 41) ba) (s.account (s.core c).ctx 2 16) (upto 0 16) = .ok u) :
    s.odrn c w = .ok (if bit w.toNat 40 then u.modCore c (fun x => { x with os := [] }) else u) := by
  rw [State.odrn]
  refine (if_neg (not_not.mpr h)).trans ?_
  rw [hba]
  dsimp only
  rw [if_neg (by rw [hfits]; decide), hrun]

end

end Sys2Proof.Machine

namespace Sys2Proof.Proofs
open Sys2Proof.Machine

/-- Settles O27. -/
theorem arrayInstructions : Obligations.ArrayInstructions := by
  unfold Obligations.ArrayInstructions
  intro s c w hup hissues hroom k q fault fs ft mode rz
  have hq : ∀ op, q op = s.tookArray c op := fun op => rfl
  have hcore : ∀ op, (q op).core c = _ := fun op => State.tookArray_core s c op
  have hheld : ∀ op, ((q op).core c).held = k.held := fun op => by rw [hcore]
  have hcells : ∀ op, ((q op).core c).osFloat = k.osFloat := fun op => by rw [hcore]
  have hrz : ∀ op, (q op).sreg c (wf w 39 35) = rz := fun op => State.tookArray_sreg s c op _
  refine ⟨fun K cyc fl hpair hmode => ⟨fun hok hstride => ⟨fun hbusy hexp => ?_, fun hfree => ⟨fun hft hreg ht halign hhealthy => ?_,
      fun rows u ex v hexp halign ht hrows hex => ?_, fun hexp ht hstep => ?_⟩⟩, fun hok hrows => ⟨fun hnone => ?_, fun h hh hbad => ?_, fun h hh hT hM hK => ⟨fun hz => ?_,
      fun hzt hzs => ⟨fun hb => ?_, fun bs ba u hbs hba hfs hfa hrun => ?_⟩⟩⟩⟩, fun K cyc fl hpair hmode hok hrows => ⟨fun hne => ?_, fun heq hz => ?_,
      fun heq hzt hzs ba bb rows u hba hbb hfa hfb hosrows => ?_⟩, fun hok hmode hft => ⟨fun hne => ?_, fun heq hnone => ?_, fun ba u heq hba hfits hrun => ?_⟩,
      fun hok hmode hft => ?_⟩
  · exact answers_full (answers_lds hup hissues hroom hpair hmode hok hstride hexp) (if_pos hbusy)
  · have hans := answers_lds hup hissues hroom hpair hmode hok hstride (.inr hreg)
    have hrows := State.heldRows_ok (s := s.tookArray c .lds) (c := c) (stride := wf w 24 17) (ft := wf w 47 44) halign K 0 fun i _ hi => by
      obtain ⟨hfit, hbanks, hlines⟩ := hhealthy i (by omega)
      rw [State.RowHealthy, State.tookArray_core]
      exact ⟨hfit, hbanks, hlines⟩
    rw [← ht] at hrows
    have hloads := State.lds_loads (s := s.tookArray c .lds) (v := s.tookArray c .lds) halign (fun h => by rw [ht] at h; cases h) hrows (if_pos hft)
    refine answers_congr (answers_retire hans ((if_neg (by rw [hfree]; decide)).trans hloads)) ?_
    rw [if_neg hft, State.tookArray_core]
    refine congrArg (fun t : State => (t.account k.ctx 2 K).retire c) (State.modCore_congr ?_)
    rw [State.tookArray_core]
    have hqueue : (k.arrayQ ++ [ArrayOp.lds]).contains .strm = k.arrayQ.contains .strm := by simp
    simp only [Core.holds, show (s.core c).arrayQ = k.arrayQ from rfl, hqueue]
    rfl
  · exact answers_retire (answers_lds hup hissues hroom hpair hmode hok hstride hexp) ((if_neg (by rw [hfree]; decide)).trans
      (State.lds_loads halign ht hrows hex))
  · exact answers_arrayFault (answers_lds hup hissues hroom hpair hmode hok hstride hexp) ((if_neg (by rw [hfree]; decide)).trans (State.lds_transposed ht hstep))
  · exact answers_arrayFault (answers_strm hup hissues hroom hpair hmode hok hrows) (State.strm_unheld ((hheld _).trans hnone))
  · exact answers_arrayFault (answers_strm hup hissues hroom hpair hmode hok hrows) (State.strm_mismatch ((hheld _).trans hh) hbad)
  · exact answers_arrayFault (answers_strm hup hissues hroom hpair hmode hok hrows)
      (State.strm_zeroPoint ((hheld _).trans hh) (by rintro (h | h | h) <;> contradiction) (by rw [← hq, hrz]; exact hz))
  · exact answers_arrayFault (answers_strm hup hissues hroom hpair hmode hok hrows)
      (State.strm_unbound ((hheld _).trans hh) (by rintro (h | h | h) <;> contradiction) (by rw [← hq, hrz]; exact hzt) (by rw [← hq, hrz]; exact hzs)
        (by rw [State.tookArray_bound, State.tookArray_bound]; exact hb))
  · refine answers_retire (answers_strm hup hissues hroom hpair hmode hok hrows) ((State.strm_rows (bs := bs) (ba := ba) ((hheld _).trans hh)
      (by rintro (h | h | h) <;> contradiction) (by rw [hrz]; exact hzt) (by rw [hrz]; exact hzs)
      ((s.tookArray_bound c .strm _ _).trans hbs) ((s.tookArray_bound c .strm _ _).trans hba) hfs hfa).trans ?_)
    rw [hrz, hcore]
    exact hrun
  · exact answers_arrayFault (answers_ostr hup hissues hroom hpair hmode hok hrows) (State.ostr_mismatch (by rw [← hq, hcells]; exact hne))
  · exact answers_arrayFault (answers_ostr hup hissues hroom hpair hmode hok hrows)
      (State.ostr_zeroPoint (by rw [← hq, hcells]; exact heq) (by rw [← hq, hrz]; exact hz))
  · intro steps
    obtain ⟨t, hrun, hfloat, hpc, hmem, hint, hfloats⟩ := State.ostr_runs (s := s.tookArray c .other) (c := c) (w := w) (K := K) (cyc := cyc) (fl := fl)
      (by rw [← hq, hcells]; exact heq) (by rw [← hq, hrz]; exact hzt) (by rw [← hq, hrz]; exact hzs)
      (by rw [State.tookArray_bound]; exact hba) (by rw [State.tookArray_bound]; exact hbb) hfa hfb (by rw [State.tookArray_sreg]; exact hosrows)
    have hkept : (u.core c).osFloat = fl := (State.osRows_osFloat hosrows).trans ((hcells _).trans heq)
    have hcell : ∀ i, ((s.tookArray c .other).core c).cell i = k.cell i := fun i => by rw [State.tookArray_core]; rfl
    refine reaches_of_effect (answers_retire (answers_ostr hup hissues hroom hpair hmode hok hrows) hrun) ⟨?_, ?_, ?_, fun hfl i hi => ?_, fun hfl i hi => ?_⟩
      fun _ _ h => h
    · rw [State.retire_core]
      exact hfloat.trans hkept
    · rw [State.retire_core]
      exact congrArg (fun n => (n + 1) % 2048) hpc
    · rw [State.retire_mem, hmem]
    · rw [State.retire_core]
      exact (hint hfl i hi).trans (by rw [hcell, State.tookArray_sreg]; rfl)
    · rw [State.retire_core]
      exact (hfloats hfl i hi).trans (by rw [hcell])
  · exact answers_arrayFault (answers_odrn hup hissues hroom hmode hft hok) (State.odrn_mismatch (by rw [← hq, hcells]; exact hne))
  · exact answers_arrayFault (answers_odrn hup hissues hroom hmode hft hok)
      (State.odrn_unbound (by rw [← hq, hcells]; exact heq) (by rw [State.tookArray_bound]; exact hnone))
  · refine answers_retire (answers_odrn hup hissues hroom hmode hft hok)
      (State.odrn_rows (ba := ba) (by rw [← hq, hcells]; exact heq) (by rw [State.tookArray_bound]; exact hba) hfits ?_)
    rw [State.tookArray_core]
    exact hrun
  · exact answers_oclr hup hissues hroom hmode hft hok

end Sys2Proof.Proofs

end

