-- ==== Sys2Proof/Proofs/NarrowingStages.lean ====
section
/-! PROOFS. The narrowing stage: NRW, NRWF and LUTL, one lane, and conversions of NaNs (R198 to R204, R207, R208). -/
namespace Sys2Proof.Machine
open Sys2Proof

/-! ### An entry of an engine's queue (R143) -/

/-- The core after an instruction took an entry of queue `n`. -/
def State.tookEntry (s : State) (c n : Nat) : State := s.modCore c (fun k => { k with queues := tinc k.queues n 1 })

section
variable (s : State) (c n : Nat)

theorem State.tookEntry_core : (s.tookEntry c n).core c = { s.core c with queues := tinc (s.core c).queues n 1 } :=
  s.modCore_core c (fun k => { k with queues := tinc k.queues n 1 })

@[simp] theorem State.tookEntry_mem : (s.tookEntry c n).mem = s.mem := rfl

@[simp] theorem State.tookEntry_sreg (r : Nat) : (s.tookEntry c n).sreg c r = s.sreg c r := State.sreg_congr (by rw [State.tookEntry_core]) r

@[simp] theorem State.tookEntry_bound (m : Nat) (write : Bool) : (s.tookEntry c n).bound c m write = s.bound c m write :=
  State.bound_congr (by rw [State.tookEntry_core]) (by rw [State.tookEntry_core]) m write

end

/-- An instruction that faults once it is queued. -/
theorem answers_entryFault {s : State} {c n : Nat} {i : Instr} {w : IWord} {f : Run} {code : Nat} (h : Answers i s (s.settled c i f))
    (hrun : f = (s.tookEntry c n).wordFault code w) :
    Answers i s ((s.tookEntry c n).ctxFault (s.core c).ctx { code := code, unit := c, detail := (s.core c).pc, addr := w.toNat }) := by
  have hfault := answers_fault h (hrun.trans rfl)
  rw [State.tookEntry_core] at hfault
  exact hfault

/-! ### Parameter blocks and tables (R199) -/

/-- A block of `n` bytes that the narrowing engine can read. -/
def State.BlockHealthy (s : State) (c off n : Nat) : Prop :=
  off + n ≤ 0x18000 ∧ off % 32 = 0 ∧ (∀ b ∈ banksOf off n, bit (s.core c).pwr b = true ∧ tget 0 (s.core c).own b = 3) ∧
    (∀ l ∈ linesOf (coreBase c + off) n, s.lineFails l = false)

theorem State.parRead_ok {s : State} {c off n : Nat} (h : s.BlockHealthy c off n) : s.parRead c off n = .ok (s.rdBytes (coreBase c + off) n, s) := by
  obtain ⟨hfit, halign, hbanks, hlines⟩ := h
  rw [State.parRead, if_neg (by omega)]
  exact State.portRead_ok (State.portCheck_none (by omega) halign (fun b hb => (hbanks b hb).1) (fun b hb => (hbanks b hb).2))
    fun l hl => ⟨hlines l hl, List.not_mem_nil⟩

section
variable {s : State} {c : Nat} {w : IWord}

theorem State.lutl_loads (h : s.BlockHealthy c (s.sreg c (wf w 47 43)).toNat 256) : s.lutl c w =
    .ok ((s.modCore c (fun k => { k with lut := some (s.rdBytes (coreBase c + (s.sreg c (wf w 47 43)).toNat) 256) })).account (s.core c).ctx 3 8) := by
  rw [State.lutl, State.parRead_ok h]

theorem State.nrwRun_rows {fmt : Nat} {lane : Nat → Nat → Nat} {ba bo : Bound} (hba : s.bound c (wf w 42 40) false = some ba)
    (hbo : s.bound c (wf w 39 37) true = some bo) (hfa : ba.fits 16 11 1 = true) (hfo : bo.fits 16 fmt 0 = true) :
    s.nrwRun c w fmt lane = runAll (fun t (_ : Nat) => t.nrwLine c ba bo lane) (s.account (s.core c).ctx 3 (3 + wf w 15 0)) (upto 0 (wf w 15 0)) := by
  rw [State.nrwRun, hba, hbo]
  dsimp only
  exact if_neg (c := (!ba.fits 16 11 1) = true ∨ (!bo.fits 16 fmt 0) = true) (by rw [hfa, hfo]; decide)

/-- The lane of an NRW (R201, R204). -/
def nrwLane (w : IWord) (b : List Byte) (lut : Option (List Byte)) (j acc : Nat) : Nat :=
  let v := narrow (sgn 32 acc) (sgn 32 ((readPar b).bias.getD j 0)) (readPar b).sh (readPar b).zp (readPar b).qmin (readPar b).qmax
  if bit w.toNat 36 then lutRead (lut.getD []) (wf w 51 48) v else wrap (elemBits (wf w 51 48)) v

section
variable (h : s.BlockHealthy c (s.sreg c (wf w 47 43)).toNat 96)
include h

/-- What an NRW does with its parameter block. -/
theorem State.nrw_eq : s.nrw c w =
    if !parOk (s.rdBytes (coreBase c + (s.sreg c (wf w 47 43)).toNat) 96) (wf w 51 48) then s.wordFault fltNrwParam w
    else if bit w.toNat 36 ∧ (s.core c).lut = none then s.wordFault fltNrwState w
    else s.nrwRun c w (wf w 51 48) (nrwLane w (s.rdBytes (coreBase c + (s.sreg c (wf w 47 43)).toNat) 96) (s.core c).lut) := by
  rw [State.nrw, State.parRead_ok h]
  rfl

theorem State.nrwf_eq : s.nrwf c w =
    if !parFOk (s.rdBytes (coreBase c + (s.sreg c (wf w 47 43)).toNat) 96) then s.wordFault fltNrwParam w
    else s.nrwRun c w (wf w 51 48) (fun j acc => narrowF acc (fieldAt (s.rdBytes (coreBase c + (s.sreg c (wf w 47 43)).toNat) 96) (4 * j) 4)
      (fieldAt (s.rdBytes (coreBase c + (s.sreg c (wf w 47 43)).toNat) 96) 64 4) (fieldAt (s.rdBytes (coreBase c + (s.sreg c (wf w 47 43)).toNat) 96) 68 4)
      (wf w 51 48)) := by
  rw [State.nrwf, State.parRead_ok h]

end

end

/-! ### The instructions at issue -/

section
variable {s : State} {c : Nat} {w : IWord} (hup : s.up = true) (hissues : (s.core c).issues w = true) (hroom : tget 0 (s.core c).queues 1 < 4)
include hup hissues hroom

theorem answers_lutl (hok : wordOk w 0x25 0 [(51, 48), (42, 0)] = true) : Answers (.lutl c w) s (s.settled c (.lutl c w) ((s.tookEntry c 1).lutl c w)) := by
  refine answers_congr (answers_numbered hup hissues rfl rfl rfl hok (by decide) rfl) (congrArg (s.settled c _) ?_)
  exact (if_neg (by rw [hok]; decide)).trans (State.enqueue_ok hroom)

theorem answers_nrw (hok : wordOk w 0x24 0 [(35, 16)] = true) (hfmt : wf w 51 48 ∈ [0, 1, 2, 3, 5]) (hlut : bit w.toNat 36 = true → wf w 51 48 ≤ 1)
    (hrows : wf w 15 0 ≠ 0) : Answers (.nrw c w) s (s.settled c (.nrw c w) ((s.tookEntry c 1).nrw c w)) := by
  refine answers_congr (answers_numbered hup hissues rfl rfl rfl hok (by decide) rfl) (congrArg (s.settled c _) ?_)
  refine (if_neg ?_).trans (State.enqueue_ok hroom)
  rw [hok, List.contains_iff_mem.mpr hfmt]
  rintro (h | h | ⟨h, h'⟩ | h)
  · cases h
  · cases h
  · have := hlut h
    omega
  · exact hrows h

theorem answers_nrwf (hok : wordOk w 0x24 1 [(36, 16)] = true) (hfmt : wf w 51 48 ∈ [6, 7, 8, 9, 10]) (hrows : wf w 15 0 ≠ 0) :
    Answers (.nrwf c w) s (s.settled c (.nrwf c w) ((s.tookEntry c 1).nrwf c w)) := by
  refine answers_congr (answers_numbered hup hissues rfl rfl rfl hok (by decide) rfl) (congrArg (s.settled c _) ?_)
  refine (if_neg ?_).trans (State.enqueue_ok hroom)
  rw [hok, List.contains_iff_mem.mpr hfmt]
  rintro (h | h | h)
  · cases h
  · cases h
  · exact hrows h

end

/-! ### One lane, and conversions (R201, R208) -/

theorem narrow_spec (acc bias zp : Int) (n : Nat) {lo hi : Int} (h : lo ≤ hi) : lo ≤ narrow acc bias n zp lo hi ∧ narrow acc bias n zp lo hi ≤ hi ∧
    (lo ≤ rshiftRne (acc + bias) n + zp → rshiftRne (acc + bias) n + zp ≤ hi → narrow acc bias n zp lo hi = rshiftRne (acc + bias) n + zp) := by
  unfold narrow clampI
  split_ifs <;> omega

theorem fdec_of_fIsNan {f : FFmt} {c : Nat} (h : fIsNan f c = true) : fdec f c = .nan := by
  rw [fIsNan] at h
  cases hv : fdec f c with
  | nan => rfl
  | inf neg => rw [hv] at h; cases h
  | fin neg m e => rw [hv] at h; cases h

theorem convCode_nan_float {dst x : Nat} {f : FFmt} (h4 : dst ≠ 4) (hf : floatFmt dst = some f) (hx : fIsNan f32 x = true) :
    convCode 10 dst x = some f.nanCode := by
  rw [convCode, if_neg (by simp [h4]), hf]
  exact congrArg (fun v => some (fenc f true v)) (fdec_of_fIsNan hx)

theorem convCode_nan_int {dst x : Nat} (h4 : dst ≠ 4) (hf : floatFmt dst = none) (hx : fIsNan f32 x = true) : convCode 10 dst x = some 0 := by
  have hnan : fdec (⟨8, 23, true⟩ : FFmt) x = .nan := fdec_of_fIsNan hx
  rw [convCode, if_neg (by simp [h4]), hf]
  simp only [floatFmt, hnan]

end Sys2Proof.Machine

namespace Sys2Proof.Proofs
open Sys2Proof.Machine

/-- Settles O28. -/
theorem narrowingStage : Obligations.NarrowingStage := by
  unfold Obligations.NarrowingStage
  refine ⟨fun s c w hup hissues hroom => ?_, fun acc bias zp lo hi n h => narrow_spec acc bias zp n h, by decide, by decide, by decide, by decide, by decide,
    by decide, by decide, fun dst hdst => ?_, fun x _ hx dst hdst => ?_, by decide, by decide⟩
  · intro k q off healthy fault
    have hhealthy : ∀ {n}, healthy n → (s.tookEntry c 1).BlockHealthy c ((s.tookEntry c 1).sreg c (wf w 47 43)).toNat n := by
      rintro n ⟨hfit, halign, hbanks, hlines⟩
      rw [State.BlockHealthy, State.tookEntry_sreg, State.tookEntry_core]
      exact ⟨hfit, halign, hbanks, hlines⟩
    refine ⟨fun hok hblock => ?_, fun hblock hrows => ?_⟩
    · refine answers_congr (answers_retire (answers_lutl hup hissues hroom hok) (State.lutl_loads (hhealthy hblock))) ?_
      rw [State.tookEntry_sreg, State.tookEntry_core]
      rfl
    · intro b fmt p
      have hb : (s.tookEntry c 1).rdBytes (coreBase c + ((s.tookEntry c 1).sreg c (wf w 47 43)).toNat) 96 = b := by
        rw [State.tookEntry_sreg]
        rfl
      have hnrw := State.nrw_eq (hhealthy hblock)
      have hnrwf := State.nrwf_eq (hhealthy hblock)
      rw [hb] at hnrw hnrwf
      rw [State.tookEntry_core] at hnrw
      refine ⟨fun hok hfmt hlut => ⟨fun hbad => ?_, fun hgood hbit hnone => ?_, fun ba bo u hgood hloaded hba hbo hfa hfo hrun => ?_⟩,
        fun hok hfmt => ⟨fun hbad => ?_, fun ba bo u hgood hba hbo hfa hfo hrun => ?_⟩⟩
      · exact answers_entryFault (answers_nrw hup hissues hroom hok hfmt hlut hrows) (hnrw.trans (if_pos (by rw [hbad]; rfl)))
      · exact answers_entryFault (answers_nrw hup hissues hroom hok hfmt hlut hrows) (hnrw.trans ((if_neg (by rw [hgood]; decide)).trans (if_pos ⟨hbit, hnone⟩)))
      · refine answers_retire (answers_nrw hup hissues hroom hok hfmt hlut hrows) (hnrw.trans ((if_neg (by rw [hgood]; decide)).trans
          ((if_neg fun h => hloaded h.1 h.2).trans ((State.nrwRun_rows (ba := ba) (bo := bo) (by rw [State.tookEntry_bound]; exact hba)
            (by rw [State.tookEntry_bound]; exact hbo) hfa hfo).trans ?_))))
        rw [State.tookEntry_core]
        exact hrun
      · exact answers_entryFault (answers_nrwf hup hissues hroom hok hfmt hrows) (hnrwf.trans (if_pos (by rw [hbad]; rfl)))
      · refine answers_retire (answers_nrwf hup hissues hroom hok hfmt hrows) (hnrwf.trans ((if_neg (by rw [hgood]; decide)).trans
          ((State.nrwRun_rows (ba := ba) (bo := bo) (by rw [State.tookEntry_bound]; exact hba) (by rw [State.tookEntry_bound]; exact hbo) hfa hfo).trans ?_)))
        rw [State.tookEntry_core]
        exact hrun
  · have hconv : ∀ {f : FFmt} {n : Nat}, floatFmt dst = some f → f.nanCode = n → dst ≠ 4 → ∀ x < 2 ^ 32, fIsNan f32 x = true → convCode 10 dst x = some n :=
      fun hf hn h4 x _ hx => hn ▸ convCode_nan_float h4 hf hx
    simp only [List.mem_cons, List.not_mem_nil, or_false] at hdst
    rcases hdst with rfl | rfl | rfl | rfl | rfl
    · exact ⟨(6, 0x7F), by simp, rfl, hconv rfl (by decide) (by decide)⟩
    · exact ⟨(7, 0x7E), by simp, rfl, hconv rfl (by decide) (by decide)⟩
    · exact ⟨(8, 0x7E00), by simp, rfl, hconv rfl (by decide) (by decide)⟩
    · exact ⟨(9, 0x7FC0), by simp, rfl, hconv rfl (by decide) (by decide)⟩
    · exact ⟨(10, 0x7FC00000), by simp, rfl, hconv rfl (by decide) (by decide)⟩
  · simp only [List.mem_cons, List.not_mem_nil, or_false] at hdst
    rcases hdst with rfl | rfl | rfl | rfl <;> exact convCode_nan_int (by decide) rfl hx

end Sys2Proof.Proofs

end

