-- ==== Sys2Proof/Proofs/TileArithmetics.lean ====
section
/-! PROOFS. Tile arithmetic: starts and extents in int64_t, linear and child indices, static sequences, and the manual's examples (R218, R219, R226, R237). -/
namespace Sys2Proof.Machine
open Sys2Proof

/-! ### int64_t (R9) -/

theorem i64_eq (v : Int) : i64 v = if v % 2 ^ 64 < 2 ^ 63 then v % 2 ^ 64 else v % 2 ^ 64 - 2 ^ 64 := by
  have h1 := Int.emod_nonneg v (show (2 : Int) ^ 64 ≠ 0 by decide)
  have h2 := Int.emod_lt_of_pos v (show (0 : Int) < 2 ^ 64 by decide)
  simp only [i64, sgn, wrap]
  split_ifs <;> omega

theorem i64_congr {a b : Int} (h : a % 2 ^ 64 = b % 2 ^ 64) : i64 a = i64 b := by rw [i64_eq, i64_eq, h]

theorem i64_emod (a : Int) : i64 a % 2 ^ 64 = a % 2 ^ 64 := by
  rw [i64_eq]
  split_ifs <;> omega

theorem i64_of_range {a : Int} (h1 : -2 ^ 63 ≤ a) (h2 : a < 2 ^ 63) : i64 a = a := by
  rw [i64_eq]
  split_ifs <;> omega

theorem i64_add_i64 (a b : Int) : i64 (i64 a + b) = i64 (a + b) :=
  i64_congr (by rw [Int.add_emod, i64_emod, ← Int.add_emod])

theorem i64_mul_i64_add (a b c : Int) : i64 (a * i64 b + c) = i64 (a * b + c) :=
  i64_congr (by rw [Int.add_emod, Int.mul_emod, i64_emod, ← Int.mul_emod, ← Int.add_emod])

/-- Additions that wrap give the wrapped sum. -/
theorem foldl_i64 (g : Nat → Int) : ∀ (ls : List Nat) (a b : Int), a % 2 ^ 64 = b % 2 ^ 64 →
    (ls.foldl (fun a L => i64 (a + g L)) a) % 2 ^ 64 = (b + (ls.map g).sum) % 2 ^ 64
  | [], a, b, h => by simpa using h
  | L :: ls, a, b, h => by
    have hstep : i64 (a + g L) % 2 ^ 64 = (b + g L) % 2 ^ 64 := by rw [i64_emod, Int.add_emod, h, ← Int.add_emod]
    rw [List.foldl_cons, foldl_i64 g ls _ _ hstep, List.map_cons, List.sum_cons, Int.add_assoc]

theorem foldl_i64_cons (g : Nat → Int) (L : Nat) (ls : List Nat) (a : Int) :
    (L :: ls).foldl (fun a L => i64 (a + g L)) a = i64 (ls.foldl (fun a L => i64 (a + g L)) a + g L) := by
  induction ls generalizing a L with
  | nil => rfl
  | cons K ls ih =>
    calc (L :: K :: ls).foldl (fun a L => i64 (a + g L)) a
        = i64 (ls.foldl (fun a L => i64 (a + g L)) (i64 (a + g L)) + g K) := ih K (i64 (a + g L))
      _ = i64 (i64 (ls.foldl (fun a L => i64 (a + g L)) a + g K) + g L) := i64_congr ?_
      _ = i64 ((K :: ls).foldl (fun a L => i64 (a + g L)) a + g L) := by rw [ih K a]
    have h1 := foldl_i64 g ls (i64 (a + g L)) (a + g L) (i64_emod _)
    have h2 := foldl_i64 g ls a a rfl
    have h3 := i64_emod (ls.foldl (fun a L => i64 (a + g L)) a + g K)
    omega

/-! ### Starts and extents (R218) -/

section
variable (v : Tab) (d l : Nat)

theorem Tab.start_step (i : Nat → List Nat) (hl : l < 5) :
    v.start i d l = i64 (v.start i d (l + 1) + ((i (l + 1)).getD d 0 : Nat) * v.tileT d l) := by
  obtain ⟨n, hn, hn'⟩ : ∃ n, 5 - l = n + 1 ∧ 5 - (l + 1) = n := ⟨5 - l - 1, by omega, by omega⟩
  rw [Tab.start, Tab.start, hn, hn', upto]
  exact foldl_i64_cons (fun L => ((i L).getD d 0 : Nat) * v.tileT d (L - 1)) (l + 1) (upto (l + 1 + 1) n) _

theorem Tab.tileE_step : v.tileE d (l + 1) = i64 (v.bound (l + 1) d * v.tileT d l + (v.lo l d + v.hi l d : Nat)) := by
  rw [Tab.tileE, Tab.tileT, i64_mul_i64_add]

theorem Tab.owned_joins (h0 : 0 ≤ v.tileE d l) (h1 : v.tileE d l < 2 ^ 63) (h2 : v.lo l d + v.hi l d < 2 ^ 63) (a : Int) :
    (v.owned d l a).2 = (v.owned d l (a + v.tileT d l)).1 ∧ (v.owned d l a).2 - (v.owned d l a).1 = v.tileT d l := by
  have hstep : v.tileT d l = v.tileE d l - (v.lo l d + v.hi l d : Nat) := i64_of_range (by omega) (by omega)
  simp only [Tab.owned, hstep]
  omega

end

/-! ### Linear and child indices (R226) -/

section
variable (b : Nat → Nat)

/-- The child index that dimension `d` has in linear index `n`. -/
def digitOf (ds : List Nat) (n d : Nat) : Nat := (((unrank b ds n).find? (fun p => p.1 == d)).map (·.2)).getD 0

/-- The linear index over the dimensions of an order. -/
def rankOf (ds : List Nat) (i : Nat → Nat) : Nat := ds.foldr (fun d acc => i d + b d * acc) 0

/-- Indices over the dimensions of an order. -/
def countOf (ds : List Nat) : Nat := ds.foldr (fun d n => b d * n) 1

theorem digitOf_cons (e : Nat) (ds : List Nat) (n d : Nat) : digitOf b (e :: ds) n d = if d = e then n % b e else digitOf b ds (n / b e) d := by
  by_cases h : d = e
  · subst h
    simp [digitOf, unrank]
  · simp [digitOf, unrank, h, Ne.symm h]

theorem digitOf_absent : ∀ {ds : List Nat} {d : Nat} (n : Nat), d ∉ ds → digitOf b ds n d = 0
  | [], d, n, _ => rfl
  | e :: ds, d, n, h => by
    rw [List.mem_cons, not_or] at h
    rw [digitOf_cons, if_neg h.1, digitOf_absent _ h.2]

theorem rankOf_congr {ds : List Nat} {i j : Nat → Nat} (h : ∀ d ∈ ds, i d = j d) : rankOf b ds i = rankOf b ds j := by
  induction ds with
  | nil => rfl
  | cons e ds ih =>
    simp only [rankOf, List.foldr_cons] at ih ⊢
    rw [h e List.mem_cons_self, ih fun d hd => h d (List.mem_cons_of_mem e hd)]

theorem digitOf_lt (hb : ∀ d, 1 ≤ b d) (ds : List Nat) (n d : Nat) : digitOf b ds n d < b d := by
  induction ds generalizing n with
  | nil => exact hb d
  | cons e ds ih =>
    rw [digitOf_cons]
    split
    next h => exact h ▸ Nat.mod_lt _ (hb d)
    next => exact ih _

theorem rankOf_digitOf (hb : ∀ d, 1 ≤ b d) : ∀ {ds : List Nat} {n : Nat}, ds.Nodup → n < countOf b ds → rankOf b ds (digitOf b ds n) = n
  | [], n, _, h => by simp [countOf] at h; exact h.symm
  | e :: ds, n, hnodup, h => by
    rw [List.nodup_cons] at hnodup
    have hrest : rankOf b ds (digitOf b (e :: ds) n) = rankOf b ds (digitOf b ds (n / b e)) := rankOf_congr b fun d hd => by
      rw [digitOf_cons, if_neg fun heq : d = e => hnodup.1 (heq ▸ hd)]
    have hstep : rankOf b (e :: ds) (digitOf b (e :: ds) n) = digitOf b (e :: ds) n e + b e * rankOf b ds (digitOf b (e :: ds) n) := rfl
    rw [hstep, hrest, rankOf_digitOf hb hnodup.2 (Nat.div_lt_of_lt_mul h), digitOf_cons, if_pos rfl, Nat.mod_add_div]

theorem rankOf_spec (hb : ∀ d, 1 ≤ b d) {i : Nat → Nat} (hi : ∀ d, i d < b d) : ∀ {ds : List Nat}, ds.Nodup →
    rankOf b ds i < countOf b ds ∧ ∀ d ∈ ds, digitOf b ds (rankOf b ds i) d = i d
  | [], _ => ⟨Nat.one_pos, fun d h => absurd h List.not_mem_nil⟩
  | e :: ds, hnodup => by
    rw [List.nodup_cons] at hnodup
    obtain ⟨hlt, hdigit⟩ := rankOf_spec hb hi hnodup.2
    have hstep : rankOf b (e :: ds) i = i e + b e * rankOf b ds i := rfl
    have hcount : countOf b (e :: ds) = b e * countOf b ds := rfl
    rw [hstep, hcount]
    refine ⟨?_, fun d hd => ?_⟩
    · calc i e + b e * rankOf b ds i < b e + b e * rankOf b ds i := Nat.add_lt_add_right (hi e) _
        _ = b e * (rankOf b ds i + 1) := by ring
        _ ≤ b e * countOf b ds := Nat.mul_le_mul_left _ hlt
    · rw [digitOf_cons]
      split
      next h => rw [h, Nat.add_mul_mod_self_left, Nat.mod_eq_of_lt (hi e)]
      next h =>
        rw [Nat.add_mul_div_left _ _ (hb e), Nat.div_eq_of_lt (hi e), Nat.zero_add]
        exact hdigit d ((List.mem_cons.mp hd).resolve_left h)

theorem foldl_count (ds : List Nat) (n : Nat) : ds.foldl (fun n d => n * b d) n = n * countOf b ds := by
  induction ds generalizing n with
  | nil => exact (Nat.mul_one n).symm
  | cons e ds ih =>
    rw [List.foldl_cons, ih, Nat.mul_assoc]
    rfl

end

section
variable (v : Tab) (l : Nat)

theorem Tab.childIndex_getD (n d : Nat) (hd : d < 6) : (v.childIndex l n).getD d 0 = digitOf (v.bound l) ((v.level l).order.take v.nDims) n d := by
  rw [Tab.childIndex, List.getD_eq_getElem?_getD, List.getElem?_map, upto_zero_eq_range, List.getElem?_range hd]
  rfl

theorem Tab.childIndex_getD_past (n d : Nat) (hd : 6 ≤ d) : (v.childIndex l n).getD d 0 = 0 := by
  rw [Tab.childIndex, List.getD_eq_getElem?_getD, List.getElem?_eq_none]
  · rfl
  · rw [List.length_map, upto_zero_eq_range, List.length_range]
    exact hd

theorem Tab.rank_eq (i : List Nat) : v.rank l i = rankOf (v.bound l) ((v.level l).order.take v.nDims) (fun d => i.getD d 0) := rfl

theorem Tab.count_eq : v.count l = countOf (v.bound l) ((v.level l).order.take v.nDims) :=
  (foldl_count _ _ _).trans (Nat.one_mul _)

variable {v l}
variable (hdims : v.nDims ≤ 6) (hlen : (v.level l).order.length = 6) (hperm : permOk v.nDims (v.level l).order = true) (hb : ∀ d, 1 ≤ v.bound l d)
include hdims hlen hperm

/-- The order names each dimension once. -/
theorem Tab.order_spec : ((v.level l).order.take v.nDims).Nodup ∧ ∀ d, d ∈ (v.level l).order.take v.nDims ↔ d < v.nDims := by
  simp only [permOk, Bool.and_eq_true, decide_eq_true_iff, List.all_eq_true] at hperm
  obtain ⟨⟨hnodup, hlt⟩, -⟩ := hperm
  have hsub : (v.level l).order.take v.nDims ⊆ List.range v.nDims := fun d hd => List.mem_range.mpr (hlt d hd)
  have hall := (List.subperm_of_subset hnodup hsub).perm_of_length_le (by rw [List.length_range, List.length_take, hlen, Nat.min_eq_left hdims])
  exact ⟨hnodup, fun d => hall.mem_iff.trans List.mem_range⟩

include hb

theorem Tab.rank_childIndex {n : Nat} (hn : n < v.count l) : v.rank l (v.childIndex l n) = n ∧ ∀ d, (v.childIndex l n).getD d 0 < v.bound l d := by
  obtain ⟨hnodup, hmem⟩ := Tab.order_spec hdims hlen hperm
  refine ⟨?_, fun d => ?_⟩
  · rw [Tab.rank_eq, rankOf_congr (j := digitOf (v.bound l) ((v.level l).order.take v.nDims) n) _
      fun d hd => v.childIndex_getD l n d (Nat.lt_of_lt_of_le ((hmem d).mp hd) hdims)]
    exact rankOf_digitOf _ hb hnodup (Tab.count_eq v l ▸ hn)
  · obtain hd | hd := Nat.lt_or_ge d 6
    · rw [Tab.childIndex_getD v l n d hd]
      exact digitOf_lt _ hb _ _ _
    · rw [Tab.childIndex_getD_past v l n d hd]
      exact hb d

theorem Tab.childIndex_rank {i : List Nat} (hi : ∀ d, i.getD d 0 < v.bound l d) (hpast : ∀ d, v.nDims ≤ d → i.getD d 0 = 0) :
    v.rank l i < v.count l ∧ ∀ d, (v.childIndex l (v.rank l i)).getD d 0 = i.getD d 0 := by
  obtain ⟨hnodup, hmem⟩ := Tab.order_spec hdims hlen hperm
  obtain ⟨hlt, hdigit⟩ := rankOf_spec (v.bound l) hb hi hnodup
  refine ⟨by rw [Tab.count_eq]; exact hlt, fun d => ?_⟩
  obtain hd | hd := Nat.lt_or_ge d v.nDims
  · rw [Tab.childIndex_getD v l _ d (Nat.lt_of_lt_of_le hd hdims)]
    exact hdigit d ((hmem d).mpr hd)
  · rw [hpast d hd]
    obtain hd6 | hd6 := Nat.lt_or_ge d 6
    · rw [Tab.childIndex_getD v l _ d hd6]
      exact digitOf_absent _ _ fun h => Nat.not_lt.mpr hd ((hmem d).mp h)
    · exact Tab.childIndex_getD_past v l _ d hd6

end

/-! ### Static sequences (R226) -/

/-- The child indices of linear index `n` name a tile without an owned coordinate. -/
def Tab.emptyAt (v : Tab) (up : Nat → List Nat) (l n : Nat) : Bool :=
  v.emptyTile (fun L => if L = l then v.childIndex l n else up L) (l - 1)

section
variable (v : Tab) (up : Nat → List Nat) (l step : Nat)

theorem Tab.staticNext_succ (fuel idx pos : Nat) : v.staticNext up l step (fuel + 1) idx pos =
    if v.count l ≤ idx then (.done, 0) else if v.emptyAt up l idx then v.staticNext up l step fuel (idx + step) (pos + 1)
    else (.tile (v.childIndex l idx), pos + 1) := rfl

theorem Tab.staticNext_tile {n : Nat} : ∀ {idx pos p : Nat} {i : List Nat}, v.count l ≤ idx + n * step →
    v.staticNext up l step (n + 1) idx pos = (.tile i, p) → ∃ m < n, idx + m * step < v.count l ∧ i = v.childIndex l (idx + m * step) ∧
      p = pos + m + 1 ∧ v.emptyAt up l (idx + m * step) = false ∧ ∀ j < m, v.emptyAt up l (idx + j * step) = true := by
  induction n with
  | zero =>
    intro idx pos p i hend h
    rw [Tab.staticNext_succ, if_pos (by omega)] at h
    cases h
  | succ n ih =>
    intro idx pos p i hend h
    rw [Tab.staticNext_succ] at h
    split_ifs at h with hpast hempty
    · cases h
    · obtain ⟨m, hm, hlt, hi, hp, hfull, hbefore⟩ := ih (by rw [Nat.succ_mul] at hend; omega) h
      have hshift : ∀ j, idx + step + j * step = idx + (j + 1) * step := fun j => by ring
      simp only [hshift] at hlt hi hfull hbefore
      refine ⟨m + 1, by omega, hlt, hi, by omega, hfull, fun j hj => ?_⟩
      cases j with
      | zero => simpa using hempty
      | succ j => exact hbefore j (by omega)
    · obtain ⟨rfl, rfl⟩ := Prod.mk.inj h |>.imp Next.tile.inj id
      refine ⟨0, by omega, by omega, by simp, rfl, by simpa using hempty, fun j hj => absurd hj (Nat.not_lt_zero j)⟩

theorem Tab.staticNext_done {n : Nat} : ∀ {idx pos : Nat}, v.count l ≤ idx + n * step →
    (v.staticNext up l step (n + 1) idx pos).1 = .done → ∀ j, idx + j * step < v.count l → v.emptyAt up l (idx + j * step) = true := by
  induction n with
  | zero => exact fun {idx pos} hend h j hj => absurd hj (by have := Nat.zero_le (j * step); omega)
  | succ n ih =>
    intro idx pos hend h j hj
    rw [Tab.staticNext_succ] at h
    split_ifs at h with hpast hempty
    · exact absurd hj (by have := Nat.zero_le (j * step); omega)
    · cases j with
      | zero => simpa using hempty
      | succ j =>
        have hshift : idx + (j + 1) * step = idx + step + j * step := by ring
        rw [hshift] at hj ⊢
        exact ih (by rw [Nat.succ_mul] at hend; omega) h j hj

theorem Tab.staticNext_ne_trap (x : Trap) : ∀ (n idx pos : Nat), (v.staticNext up l step n idx pos).1 ≠ .trap x
  | 0, idx, pos => nofun
  | n + 1, idx, pos => by
    rw [Tab.staticNext_succ]
    split_ifs
    · nofun
    · exact Tab.staticNext_ne_trap x n _ _
    · nofun

end

end Sys2Proof.Machine

namespace Sys2Proof.Proofs
open Sys2Proof.Machine

/-- Settles O29. -/
theorem tileArithmetic : Obligations.TileArithmetic := by
  unfold Obligations.TileArithmetic
  refine ⟨fun v i d l hl => ⟨rfl, v.start_step d l i hl, v.tileE_step d l, rfl, v.owned_joins d l⟩,
    fun v l n hdims hlen hperm hb => ⟨fun hn => Tab.rank_childIndex hdims hlen hperm hb hn, fun i hi hpast => Tab.childIndex_rank hdims hlen hperm hb hi hpast⟩,
    fun v up l step idx pos n hstep hend => ⟨fun i p h => ?_, fun h => v.staticNext_done up l step hend h,
      fun x => v.staticNext_ne_trap up l step x _ _ _⟩, fun v hb hlo hhi i hi => ?_, fun v r hn haxes hE hfmt hrole hcoef hstride => ?_⟩
  · obtain ⟨m, hm, hlt, rfl, hp, hfull, hbefore⟩ := v.staticNext_tile up l step hend h
    exact ⟨m, hm, hlt, rfl, hp, hfull, hbefore⟩
  · have hE0 : v.tileE 0 0 = 1 := by rw [Tab.tileE, hb]; rfl
    have hE1 : v.tileE 0 1 = 1 := by rw [Tab.tileE, hE0, hb, hlo, hhi]; decide
    have hE2 : v.tileE 0 2 = 20 := by rw [Tab.tileE, hE1, hb, hlo, hhi]; decide
    have hE3 : v.tileE 0 3 = 68 := by rw [Tab.tileE, hE2, hb, hlo, hhi]; decide
    have hE4 : v.tileE 0 4 = 196 := by rw [Tab.tileE, hE3, hb, hlo, hhi]; decide
    have hE5 : v.tileE 0 5 = 772 := by rw [Tab.tileE, hE4, hb, hlo, hhi]; decide
    have hT4 : v.tileT 0 4 = 192 := by rw [Tab.tileT, hE4, hlo, hhi]; decide
    have hstart : v.start i 0 4 = 574 := by
      rw [v.start_step 0 4 i (by decide), hT4, hi, show v.start i 0 5 = -(v.lo 4 0 : Int) from rfl, hlo]
      decide
    exact ⟨hstart, by rw [Tab.owned, hstart, hE4, hlo, hhi]; rfl, hE5⟩
  · have hspan : ∀ ds : List Nat, (∀ d ∈ ds, d < 6) → ∀ cs : List Nat, ds.foldl (fun w d => w + cs.getD d 0 * (v.tileE d 2 - 1).toNat) 0 =
        ds.foldl (fun w d => w + cs.getD d 0 * (([32, 16, 16, 64, 3, 3] : List Int).getD d 0 - 1).toNat) 0 := fun ds hds cs =>
      List.foldl_ext _ _ _ fun w d hd => by rw [hE d (hds d hd)]
    rw [Tab.span, hn, haxes, hfmt, hrole, hcoef, hstride]
    simp only [hspan (upto 0 6) (by decide)]
    decide

end Sys2Proof.Proofs

end

