-- ==== Sys2Proof/Proofs/TileInstructions.lean ====
section
/-! PROOFS. The address generator's instructions: DLD, TNX, AGS, TRD and AGD (R222 to R232). -/
namespace Sys2Proof.Machine
open Sys2Proof

@[simp] theorem State.tookEntry_tabSlot (s : State) (c n m : Nat) : (s.tookEntry c n).tabSlot c m = s.tabSlot c m := by
  rw [State.tabSlot, State.tookEntry_core, State.tabSlot]

theorem State.copyOf_congr {s t : State} {c : Nat} (hctx : (t.core c).ctx = (s.core c).ctx) (hctxs : t.ctxs = s.ctxs) (n : Nat) (b : Bound) :
    t.copyOf c n b = s.copyOf c n b := by
  unfold State.copyOf State.ctx
  rw [hctx, hctxs]

theorem State.agdDescs_congr {s t : State} {c kind : Nat} {b : Bound} (h : ∀ n, t.copyOf c n b = s.copyOf c n b) (done : Nat) :
    t.agdDescs c kind b done = s.agdDescs c kind b done := by
  delta State.agdDescs
  rcases kindOf kind with ⟨f, g, l, own⟩
  dsimp only
  rw [h f, h g]

@[simp] theorem State.tookEntry_ctxs (s : State) (c n : Nat) : (s.tookEntry c n).ctxs = s.ctxs := rfl

theorem State.tookEntry_ctx (s : State) (c n : Nat) : ((s.tookEntry c n).core c).ctx = (s.core c).ctx := by rw [State.tookEntry_core]

theorem State.tookEntry_agdDescs (s : State) (c n kind : Nat) (b : Bound) (done : Nat) :
    (s.tookEntry c n).agdDescs c kind b done = s.agdDescs c kind b done :=
  State.agdDescs_congr (fun m => State.copyOf_congr (s := s) (t := s.tookEntry c n) (s.tookEntry_ctx c n) (s.tookEntry_ctxs c n) m b) done

section
variable {s : State} {c : Nat} {w : IWord}

/-! ### DLD (R217, R222, R223) -/

section
variable {t : List Byte} {off : Nat} (hoff : (s.sreg c (wf w 51 47)).toNat = off) (hfit : off + 896 ≤ 0x18000)
  (hread : s.portRead c ownScalar off 896 32 noErrors = .ok (t, s))
include hoff hfit hread

theorem State.dld_unsound (hbad : tabOk t = false) : s.dld c w = s.wordFault fltTileDesc w := by
  unfold State.dld
  simp only [hoff, hread]
  rw [if_neg (by omega), if_pos (by rw [hbad]; rfl)]

theorem State.dld_capacity {d : Nat} (hgood : tabOk t = true) (hcap : (if (readTab t).cls = 1 then (readTab t).capacity (s.core c).pwr else none) = some d) :
    s.dld c w = .error (.fault fltTileCapacity (some d) w.toNat, s) := by
  unfold State.dld
  simp only [hoff, hread]
  rw [if_neg (by omega), if_neg (by rw [hgood]; decide), hcap]

theorem State.dld_loads (hgood : tabOk t = true) (hcap : (if (readTab t).cls = 1 then (readTab t).capacity (s.core c).pwr else none) = none) :
    s.dld c w = .ok (s.modCore c (fun k => { k with
      tabs := tset {} k.tabs (wf w 46 45) { table := t }
      streams := k.streams.filter (fun p => match p.2 with | some x => x.slot != wf w 46 45 | none => false) })) := by
  unfold State.dld
  simp only [hoff, hread]
  rw [if_neg (by omega), if_neg (by rw [hgood]; decide), hcap] <;> rfl

end

/-! ### TNX (R226 to R228) -/

/-- The table of the slot is loaded, and the level has a tile above it. -/
def State.tnxReady (s : State) (c : Nat) (w : IWord) : Prop :=
  (s.tabSlot c (wf w 46 45)).loaded = true ∧ (s.tabSlot c (wf w 46 45)).has (wf w 44 43 + 3) = true

theorem State.tnx_unready (h : (s.tabSlot c (wf w 46 45)).loaded = false ∨ (s.tabSlot c (wf w 46 45)).has (wf w 44 43 + 3) = false) :
    s.tnx c w = s.wordFault fltTileStream w := if_pos (h.imp (fun h => by rw [h]; rfl) (fun h => by rw [h]; rfl))

/-- The next tile that a TNX asks for. -/
def State.tnxNext (s : State) (c : Nat) (w : IWord) : Option (Next × State) :=
  s.nextTile c (wf w 46 45) (wf w 44 43 + 3) (readTab (s.tabSlot c (wf w 46 45)).table) w

section
variable (hready : s.tnxReady c w)
include hready

theorem State.not_tnx_unready :
    ¬ ((!(s.tabSlot c (wf w 46 45)).loaded) = true ∨ (!(s.tabSlot c (wf w 46 45)).has (wf w 44 43 + 3)) = true) := by
  rw [hready.1, hready.2]
  decide

theorem State.tnx_waits (h : s.tnxNext c w = none) : s.tnx c w = .error (.later, s) := by
  unfold State.tnxNext at h
  rw [State.tnx]
  refine (if_neg (State.not_tnx_unready hready)).trans ?_
  dsimp only
  rw [h]

theorem State.tnx_traps {x : Trap} {u : State} (h : s.tnxNext c w = some (.trap x, u)) : s.tnx c w = .error (x, u) := by
  unfold State.tnxNext at h
  rw [State.tnx]
  refine (if_neg (State.not_tnx_unready hready)).trans ?_
  dsimp only
  rw [h]

theorem State.tnx_ends {u : State} (h : s.tnxNext c w = some (.done, u)) :
    s.tnx c w = .ok ((u.takeTile c (wf w 46 45) (wf w 44 43 + 3) none).setS c (wf w 51 47) 0xFFFFFFFF#32) := by
  unfold State.tnxNext at h
  rw [State.tnx]
  refine (if_neg (State.not_tnx_unready hready)).trans ?_
  dsimp only
  rw [h]

section
variable {i : List Nat} {u : State} (h : s.tnxNext c w = some (.tile i, u))
include h

theorem State.tnx_capacity {d : Nat} (hcap : (if wf w 44 43 + 3 = 3 ∧ (readTab (s.tabSlot c (wf w 46 45)).table).cls = 0 then
      (readTab (s.tabSlot c (wf w 46 45)).table).capacity (s.core c).pwr else none) = some d) :
    s.tnx c w = .error (.fault fltTileCapacity (some d) w.toNat, s) := by
  unfold State.tnxNext at h
  rw [State.tnx]
  refine (if_neg (State.not_tnx_unready hready)).trans ?_
  dsimp only
  rw [h]
  dsimp only
  rw [hcap]

theorem State.tnx_takes (hcap : (if wf w 44 43 + 3 = 3 ∧ (readTab (s.tabSlot c (wf w 46 45)).table).cls = 0 then
      (readTab (s.tabSlot c (wf w 46 45)).table).capacity (s.core c).pwr else none) = none) :
    s.tnx c w = .ok ((u.takeTile c (wf w 46 45) (wf w 44 43 + 3) (some i)).setS c (wf w 51 47)
      (BitVec.ofNat 32 ((readTab (s.tabSlot c (wf w 46 45)).table).rank (wf w 44 43 + 3) i))) := by
  unfold State.tnxNext at h
  rw [State.tnx]
  refine (if_neg (State.not_tnx_unready hready)).trans ?_
  dsimp only
  rw [h]
  dsimp only
  rw [hcap]

end

end

/-! ### AGD (R231) -/

/-- Table, level and tensor that an AGD names. -/
def State.agdReady (s : State) (c : Nat) (w : IWord) : Prop :=
  (s.tabSlot c (wf w 36 35)).loaded = true ∧ (s.tabSlot c (wf w 36 35)).has (kindOf (wf w 32 30)).2.2.1 = true

theorem State.agd_unready (h : (s.tabSlot c (wf w 36 35)).loaded = false ∨ (s.tabSlot c (wf w 36 35)).has (kindOf (wf w 32 30)).2.2.1 = false) :
    s.agd c w = s.wordFault fltTileStream w := if_pos (h.imp (Bool.not_eq_true' _ |>.mpr) (Bool.not_eq_true' _ |>.mpr))

/-- The tensor that an AGD names does not stand, or lies in no core copy. -/
def State.agdRefused (s : State) (c : Nat) (w : IWord) : Prop :=
  (readTab (s.tabSlot c (wf w 36 35)).table).nTens ≤ wf w 34 33 ∨ (((readTab (s.tabSlot c (wf w 36 35)).table).tensor (wf w 34 33)).role = 2 ∧
    ((kindOf (wf w 32 30)).1 = 2 ∨ (kindOf (wf w 32 30)).2.1 = 2))

/-- The descriptors of an AGD. -/
def State.agdOut (s : State) (c : Nat) (w : IWord) : Option (List (List Byte)) :=
  s.agdDescs c (wf w 32 30) ⟨0, readTab (s.tabSlot c (wf w 36 35)).table, s.tabSlot c (wf w 36 35),
    (readTab (s.tabSlot c (wf w 36 35)).table).tensor (wf w 34 33)⟩ (s.sreg c (wf w 46 42)).toNat

section
variable (hready : s.agdReady c w)
include hready

theorem State.not_agd_unready :
    ¬ ((!(s.tabSlot c (wf w 36 35)).loaded) = true ∨ (!(s.tabSlot c (wf w 36 35)).has (kindOf (wf w 32 30)).2.2.1) = true) := by
  rw [hready.1, hready.2]
  decide

theorem State.agd_refused (h : s.agdRefused c w) : s.agd c w = s.wordFault fltTileDesc w :=
  (if_neg (State.not_agd_unready hready)).trans (if_pos h)

section
variable (hnot : ¬ s.agdRefused c w)
include hnot

theorem State.agd_none (h : s.agdOut c w = none) : s.agd c w = s.wordFault fltTileDesc w := by
  unfold State.agdOut at h
  refine (if_neg (State.not_agd_unready hready)).trans ((if_neg hnot).trans ?_)
  rw [h]

theorem State.agd_empty (h : s.agdOut c w = some []) (halign : (s.sreg c (wf w 51 47)).toNat % 64 = 0) :
    s.agd c w = .ok (s.setS c (wf w 41 37) 0#32) := by
  unfold State.agdOut at h
  refine (if_neg (State.not_agd_unready hready)).trans ((if_neg hnot).trans ?_)
  rw [h]
  simp only [List.isEmpty_nil, if_true, halign]
  rfl

theorem State.agd_writes {xs : List (List Byte)} {u : State} (h : s.agdOut c w = some xs) (hne : xs ≠ [])
    (hwrite : s.portWrite c ownScalar (s.sreg c (wf w 51 47)).toNat 64 xs.flatten = .ok u) :
    s.agd c w = .ok (u.setS c (wf w 41 37) (BitVec.ofNat 32 xs.length)) := by
  unfold State.agdOut at h
  refine (if_neg (State.not_agd_unready hready)).trans ((if_neg hnot).trans ?_)
  rw [h]
  simp only [List.isEmpty_eq_false_iff.mpr hne, Bool.false_eq_true, if_false]
  rw [hwrite]

end

end

end

/-- A trap other than a wait. -/
theorem answers_trap {s u : State} {c : Nat} {i : Instr} {f : Run} {x : Trap} (h : Answers i s (s.settled c i f)) (hrun : f = .error (x, u))
    (hfull : x ≠ .full) (hlater : x ≠ .later) : Answers i s (u.trap c i x) := by
  refine answers_congr h ((congrArg (s.settled c i) hrun).trans ?_)
  cases x with
  | full => exact absurd rfl hfull
  | later => exact absurd rfl hlater
  | fault code d a => rfl
  | line a r => rfl
  | dma cl a => rfl

end Sys2Proof.Machine

namespace Sys2Proof.Proofs
open Sys2Proof.Machine

/-- Settles O30. -/
theorem tileCommands : Obligations.TileCommands := by
  unfold Obligations.TileCommands
  intro s c w hup hissues hroom k q fault rd
  have hq : q = s.tookEntry c 2 := rfl
  refine ⟨fun hok => ?_, fun hok h3 => ?_, fun hok => ?_, fun hok hlo hhi => ?_, fun hok hkind => ?_⟩
  · intro off t hfit halign hbanks hlines
    have hans : Answers (.dld c w) s (s.settled c (.dld c w) ((s.tookEntry c 2).dld c w)) :=
      answers_congr (answers_numbered hup hissues rfl rfl rfl hok (by decide) rfl)
        (congrArg (s.settled c _) ((if_neg (by rw [hok]; decide)).trans (State.enqueue_ok hroom)))
    have hoff : ((s.tookEntry c 2).sreg c (wf w 51 47)).toNat = off := congrArg BitVec.toNat (s.tookEntry_sreg c 2 _)
    have hread : (s.tookEntry c 2).portRead c ownScalar off 896 32 noErrors = .ok (t, s.tookEntry c 2) :=
      State.portRead_ok (State.portCheck_none (by omega) halign (fun b hb => by rw [State.tookEntry_core]; exact (hbanks b hb).1)
        (fun b hb => by rw [State.tookEntry_core]; exact (hbanks b hb).2)) fun l hl => ⟨hlines l hl, List.not_mem_nil⟩
    have hpwr : ((s.tookEntry c 2).core c).pwr = k.pwr := by rw [State.tookEntry_core]
    refine ⟨fun hbad => ?_, fun d hgood hcls hcap => ?_, fun hgood hcap => ?_⟩
    · exact answers_entryFault hans (State.dld_unsound hoff hfit hread hbad)
    · refine answers_congr (answers_fault hans (State.dld_capacity hoff hfit hread hgood (d := d) (by rw [if_pos hcls, hpwr]; exact hcap))) ?_
      rw [State.tookEntry_core]
      rfl
    · refine answers_retire hans (State.dld_loads hoff hfit hread hgood ?_)
      rw [hpwr]
      split
      next hcls => exact hcap hcls
      next => rfl
  · intro slot l t v
    have hans : Answers (.tnx c w) s (s.settled c (.tnx c w) ((s.tookEntry c 2).tnx c w)) := by
      refine answers_congr (answers_numbered hup hissues rfl rfl rfl hok (by decide) rfl) (congrArg (s.settled c _) ((if_neg ?_).trans (State.enqueue_ok hroom)))
      rw [hok]
      rintro (h | h)
      · cases h
      · exact h3 h
    have hnext : ∀ {r}, q.nextTile c slot l v w = r → (s.tookEntry c 2).tnxNext c w = r := fun h => by
      rw [State.tnxNext, State.tookEntry_tabSlot]
      exact h
    refine ⟨fun hun => ?_, fun hloaded hhas => ?_⟩
    · exact answers_entryFault hans (State.tnx_unready (by rw [State.tookEntry_tabSlot]; exact hun))
    · have hready : (s.tookEntry c 2).tnxReady c w := by
        rw [State.tnxReady, State.tookEntry_tabSlot]
        exact ⟨hloaded, hhas⟩
      refine ⟨fun h => ?_, fun x u h hfull hlater => ?_, fun u h => ?_, fun i u h => ⟨fun d hl hcls hcap => ?_, fun hcap => ?_⟩⟩
      · exact answers_congr hans (congrArg (s.settled c _) (State.tnx_waits hready (hnext h)))
      · exact answers_trap hans (State.tnx_traps hready (hnext h)) hfull hlater
      · exact answers_retire hans (State.tnx_ends hready (hnext h))
      · refine answers_congr (answers_fault hans (State.tnx_capacity hready (hnext h) (d := d) ?_)) ?_
        · rw [State.tookEntry_tabSlot, if_pos ⟨hl, hcls⟩, State.tookEntry_core]
          exact hcap
        · rw [State.tookEntry_core]
          rfl
      · refine answers_congr (answers_retire hans (State.tnx_takes hready (hnext h) ?_)) ?_
        · rw [State.tookEntry_tabSlot, State.tookEntry_core]
          split
          next hc => exact hcap hc.1 hc.2
          next => rfl
        · rw [State.tookEntry_tabSlot]
  · intro slot t v n
    have hans : Answers (.ags c w) s (s.settled c (.ags c w) ((s.tookEntry c 2).ags c w)) :=
      answers_congr (answers_numbered hup hissues rfl rfl rfl hok (by decide) rfl)
        (congrArg (s.settled c _) ((if_neg (by rw [hok]; decide)).trans (State.enqueue_ok hroom)))
    have hslot : (s.tookEntry c 2).tabSlot c (wf w 48 47) = t := s.tookEntry_tabSlot c 2 _
    refine ⟨fun hun => ?_, fun hloaded hbad => ?_, fun hloaded hn hgood => ?_⟩
    · exact answers_entryFault hans (if_pos (by rw [hslot, hun]; rfl))
    · exact answers_entryFault hans ((if_neg (by rw [hslot, hloaded]; decide)).trans (if_pos (by rw [hslot]; exact hbad.imp id fun h => by rw [h]; rfl)))
    · refine answers_retire hans ((if_neg (by rw [hslot, hloaded]; decide)).trans (if_neg ?_))
      rw [hslot, hgood]
      rintro (h | h)
      · exact absurd hn (Nat.not_lt.mpr h)
      · cases h
  · intro t v l
    have hans : ∀ {r : Run}, (if !wordOk w 0x26 3 [(38, 0)] ∨ l < 2 ∨ 5 < l ∨ (t.loaded ∧ v.nDims ≤ wf w 41 39) then s.illegalWord w
          else s.enqueue c .addressGen (fun s => .ok (s.trd c w))) = r → Answers (.trd c w) s (s.settled c (.trd c w) r) := fun h =>
      answers_congr (answers_numbered hup hissues rfl rfl rfl hok (by decide) rfl) (congrArg (s.settled c _) h)
    have htrd : ∀ {a : Word}, ¬ (t.loaded = true ∧ v.nDims ≤ wf w 41 39) →
        (if t.loaded && t.has l then BitVec.ofInt 32 (v.start t.idx (wf w 41 39) l) else 0x80000000#32) = a → Answers (.trd c w) s ((q.setS c rd a).retire c) := by
      intro a hdim ha
      refine answers_retire (hans ((if_neg ?_).trans (State.enqueue_ok hroom))) ?_
      · rw [hok]
        rintro (h | h | h | h)
        · cases h
        · omega
        · omega
        · exact hdim h
      · rw [← State.tookEntry, State.trd, State.tookEntry_tabSlot, ← ha]
        rfl
    refine ⟨fun hloaded hdim => ?_, fun hloaded hdim hhas => ?_, fun hun => ?_⟩
    · exact answers_wordFault (hans (if_pos (.inr (.inr (.inr ⟨hloaded, hdim⟩))))) rfl
    · exact htrd (fun h => by omega) (if_pos (by rw [hloaded, hhas]; rfl))
    · refine htrd (fun h => ?_) (if_neg ?_)
      · rcases hun with h' | h'
        · rw [h'] at h
          cases h.1
        · omega
      · rcases hun with h' | ⟨-, h'⟩
        · rw [h', Bool.false_and]
          decide
        · rw [h', Bool.and_false]
          decide
  · intro t v n kd off
    have hans : Answers (.agd c w) s (s.settled c (.agd c w) ((s.tookEntry c 2).agd c w)) := by
      refine answers_congr (answers_numbered hup hissues rfl rfl rfl hok (by decide) rfl) (congrArg (s.settled c _) ((if_neg ?_).trans (State.enqueue_ok hroom)))
      rw [hok]
      rintro (h | h)
      · cases h
      · omega
    have hslot : (s.tookEntry c 2).tabSlot c (wf w 36 35) = t := s.tookEntry_tabSlot c 2 _
    refine ⟨fun hun => ?_, fun hloaded hhas => ?_⟩
    · exact answers_entryFault hans (State.agd_unready (by rw [hslot]; exact hun))
    · have hready : (s.tookEntry c 2).agdReady c w := by
        rw [State.agdReady, hslot]
        exact ⟨hloaded, hhas⟩
      refine ⟨fun hbad => ?_, fun hn hrole => ?_⟩
      · exact answers_entryFault hans (State.agd_refused hready (by rw [State.agdRefused, hslot]; exact hbad))
      · intro ds
        have hnot : ¬ (s.tookEntry c 2).agdRefused c w := by
          rw [State.agdRefused, hslot]
          rintro (h | h)
          · exact absurd hn (Nat.not_lt.mpr h)
          · exact hrole h
        have hout : (s.tookEntry c 2).agdOut c w = ds := by
          rw [State.agdOut, hslot, State.tookEntry_agdDescs, State.tookEntry_sreg]
        refine ⟨fun h => ?_, fun h halign => ?_, fun xs u h hne hwrite => ?_⟩
        · exact answers_entryFault hans (State.agd_none hready hnot (hout.trans h))
        · exact answers_retire hans (State.agd_empty hready hnot (hout.trans h) (by rw [State.tookEntry_sreg]; exact halign))
        · exact answers_retire hans (State.agd_writes hready hnot (hout.trans h) hne (by rw [State.tookEntry_sreg]; exact hwrite))

end Sys2Proof.Proofs

end

