-- ==== Sys2Proof/Proofs/SyncCounters.lean ====
section
/-! PROOFS. Sync counters: signals, waits, decrements and reads at issue, and the arrival of increments (R172, R263 to R268). -/
namespace Sys2Proof.Machine
open Sys2Proof

/-! ### Increments in flight (R172, R266) -/

section
variable (mine here : Incr → Bool)

/-- One increment is taken, or stays with the rest. -/
theorem takeIncrs_cons (n : Nat) (blocked : List Nat) (i : Incr) (t : List Incr) : takeIncrs mine here n blocked (i :: t) =
    if n != 0 && mine i && !blocked.contains i.src then (i :: (takeIncrs mine here (n - 1) blocked t).1, (takeIncrs mine here (n - 1) blocked t).2)
    else ((takeIncrs mine here n (if here i then i.src :: blocked else blocked) t).1, i :: (takeIncrs mine here n (if here i then i.src :: blocked else blocked) t).2) :=
  rfl

theorem takeIncrs_perm (l : List Incr) : ∀ n blocked, ((takeIncrs mine here n blocked l).1 ++ (takeIncrs mine here n blocked l).2).Perm l := by
  induction l with
  | nil => exact fun _ _ => .nil
  | cons i t ih =>
    intro n blocked
    rw [takeIncrs_cons]
    split
    · exact (ih _ _).cons i
    · exact List.perm_middle.trans ((ih _ _).cons i)

theorem length_takeIncrs_le (l : List Incr) : ∀ n blocked, (takeIncrs mine here n blocked l).1.length ≤ n := by
  induction l with
  | nil => exact fun n _ => Nat.zero_le n
  | cons i t ih =>
    intro n blocked
    rw [takeIncrs_cons]
    split
    next h =>
      have hn : n ≠ 0 := by simp at h; exact h.1.1
      have := ih (n - 1) blocked
      rw [List.length_cons]
      omega
    next => exact ih _ _

theorem takeIncrs_taken (l : List Incr) : ∀ n blocked, ∀ i ∈ (takeIncrs mine here n blocked l).1, mine i = true ∧ i.src ∉ blocked := by
  induction l with
  | nil => exact fun _ _ i h => absurd h List.not_mem_nil
  | cons j t ih =>
    intro n blocked i hi
    rw [takeIncrs_cons] at hi
    split at hi
    next h =>
      rcases List.mem_cons.mp hi with rfl | hi
      · simp at h
        exact ⟨h.1.2, h.2⟩
      · exact ih _ _ i hi
    next =>
      obtain ⟨hmine, hsrc⟩ := ih _ _ i hi
      refine ⟨hmine, fun h => hsrc ?_⟩
      split
      · exact List.mem_cons_of_mem _ h
      · exact h

/-- Of each source the increments to the stop keep their order. -/
theorem filter_takeIncrs (src : Nat) (l : List Incr) : ∀ n blocked,
    ((takeIncrs mine here n blocked l).1 ++ (takeIncrs mine here n blocked l).2).filter (fun i => here i && i.src == src) = l.filter (fun i => here i && i.src == src) := by
  induction l with
  | nil => exact fun _ _ => rfl
  | cons i t ih =>
    intro n blocked
    rw [takeIncrs_cons]
    split
    · rw [List.cons_append, List.filter_cons, List.filter_cons, ih]
    · have hblocked : here i = true → i.src ∈ (if here i then i.src :: blocked else blocked) := fun h => by
        rw [if_pos h]
        exact List.mem_cons_self
      generalize (if here i then i.src :: blocked else blocked) = held at hblocked
      have hrest := ih n held
      dsimp only
      rw [List.filter_append] at hrest ⊢
      rw [List.filter_cons, List.filter_cons]
      by_cases hi : (here i && i.src == src) = true
      · obtain ⟨hhere, hsrc⟩ := Bool.and_eq_true_iff.mp hi
        have hnone : (takeIncrs mine here n held t).1.filter (fun i => here i && i.src == src) = [] := by
          refine List.filter_eq_nil_iff.mpr fun j hj hbad => ?_
          have hsrc' := beq_iff_eq.mp (Bool.and_eq_true_iff.mp hbad).2
          refine (takeIncrs_taken mine here t n held j hj).2 ?_
          rw [hsrc', ← beq_iff_eq.mp hsrc]
          exact hblocked hhere
        rw [hnone, List.nil_append] at hrest
        rw [if_pos hi, if_pos hi, hnone, List.nil_append, hrest]
      · rw [if_neg hi, if_neg hi]
        exact hrest

theorem takeIncrs_zero (l : List Incr) : ∀ blocked, (takeIncrs mine here 0 blocked l).1 = [] := by
  intro blocked
  exact List.eq_nil_of_length_eq_zero (Nat.le_zero.mp (length_takeIncrs_le mine here l 0 blocked))

theorem takeIncrs_all {l : List Incr} (h : ∀ i ∈ l, here i = true → mine i = true) : ∀ n, (takeIncrs mine here n [] l).1 = (l.filter mine).take n := by
  induction l with
  | nil => exact fun n => (List.take_nil).symm
  | cons i t ih =>
    intro n
    have ih := ih fun j hj => h j (List.mem_cons_of_mem i hj)
    cases n with
    | zero => rw [takeIncrs_zero, List.take_zero]
    | succ n =>
      rw [takeIncrs_cons]
      cases hi : mine i with
      | true =>
        rw [List.filter_cons_of_pos hi, List.take_succ_cons, ← ih n]
        rfl
      | false =>
        have hhere : here i = false := Bool.eq_false_iff.mpr fun hh => by
          rw [h i List.mem_cons_self hh] at hi
          cases hi
        rw [List.filter_cons_of_neg (by simp [hi]), ← ih (n + 1), hhere]
        simp

end

/-! ### Waits at the head of the stream (R265, R274) -/

section
variable {s : State} {c : Nat} {i : Instr} {k : CoreClass} {w : IWord} {f : State → Run}
  (hexec : exec i s = whenUp s (s.atHead c i f)) (hup : s.up = true) (hissues : (s.core c).issues w = true) (hword : i.coreWord = some (k, w))
  (hspelt : i.spelt = true) (hclass : coreClass w = some k)

include hissues hword hspelt in
/-- An instruction that stays at the head of its stream. -/
theorem State.atHead_eq_dispatch : s.atHead c i f = s.dispatch c i k f := by
  obtain ⟨hcan, hhead⟩ := Core.issues_iff.mp hissues
  simp only [State.atHead, hcan, hword, hhead, hspelt, and_self, if_true]

include hexec hup hissues hword hspelt hclass

theorem answers_head_ok {t : State} (hrun : f s = .ok t) : Answers i s t := by
  refine answers_congr (answers_whenUp hexec hup) ((State.atHead_eq_dispatch hissues hword hspelt).trans ?_)
  simp only [State.dispatch, (Core.issues_iff.mp hissues).2, hclass, if_true, hrun]

theorem answers_head_later {t : State} (hrun : f s = .error (.later, t)) : Answers i s s := by
  refine answers_congr (answers_whenUp hexec hup) ((State.atHead_eq_dispatch hissues hword hspelt).trans ?_)
  simp only [State.dispatch, (Core.issues_iff.mp hissues).2, hclass, if_true, hrun]

theorem answers_head_fault {code a : Nat} (hrun : f s = .error (.fault code none a, s)) : Answers i s
    (s.ctxFault (s.core c).ctx { code := code, unit := c, detail := (s.core c).pc, addr := a }) := by
  refine answers_congr (answers_whenUp hexec hup) ((State.atHead_eq_dispatch hissues hword hspelt).trans ?_)
  simp only [State.dispatch, (Core.issues_iff.mp hissues).2, hclass, if_true, hrun] <;> rfl

end

/-- A core at the start of a wait. -/
def Core.atWait (k : Core) (ctr n : Nat) (dp held : Bool) : Core :=
  { k with wait := some { ctr := ctr, n := n, dp := dp, held := held }, st := if held then .parked else .waiting, retired := (k.retired + 1) % 2 ^ 64 }

/-- A core whose wait on `n` of a counter has passed. -/
def Core.passed (k : Core) (ctr n : Nat) : Core :=
  { k with sync := tset 0 k.sync ctr (tget 0 k.sync ctr - n), wait := none, st := .running, pc := (k.pc + 1) % 2048 }

section
variable {s : State} {c : Nat}

theorem State.tryWait_none (h : (s.core c).wait = none) : s.tryWait c = s := by rw [State.tryWait, h]

theorem State.tryWait_pass {w : WaitSt} (h : (s.core c).wait = some w) (hheld : w.held = false) (hn : w.n ≤ tget 0 (s.core c).sync w.ctr) :
    s.tryWait c = s.modCore c (fun k => k.passed w.ctr w.n) := by
  rw [State.tryWait, h]
  exact if_pos (by rw [hheld, decide_eq_true hn]; rfl)

theorem State.tryWait_stay {w : WaitSt} (h : (s.core c).wait = some w) (hstay : w.held = true ∨ tget 0 (s.core c).sync w.ctr < w.n) : s.tryWait c = s := by
  rw [State.tryWait, h]
  refine if_neg ?_
  rcases hstay with h | h
  · rw [h, Bool.not_true, Bool.false_and]; decide
  · rw [decide_eq_false (Nat.not_le.mpr h), Bool.and_false]; decide

variable (ctr n : Nat) (dp : Bool)

/-- The core at its wait, and the context's count. -/
def State.enterWait (s : State) (c ctr n : Nat) (dp : Bool) : State :=
  (s.modCore c (fun k => k.atWait ctr n dp (dp && (s.ctx (s.core c).ctx).preempt))).account (s.core c).ctx 0 1

theorem State.startWait_eq : s.startWait c ctr n dp = (s.enterWait c ctr n dp).tryWait c := by
  rw [State.startWait, State.modCore_core]
  rfl

theorem State.enterWait_core : (s.enterWait c ctr n dp).core c = (s.core c).atWait ctr n dp (dp && (s.ctx (s.core c).ctx).preempt) :=
  s.modCore_core c (fun k => k.atWait ctr n dp (dp && (s.ctx (s.core c).ctx).preempt))

theorem State.enterWait_core_ne {j : Nat} (h : j ≠ c) : (s.enterWait c ctr n dp).core j = s.core j :=
  s.modCore_core_ne (fun k => k.atWait ctr n dp (dp && (s.ctx (s.core c).ctx).preempt)) h

theorem State.enterWait_rest : s.enterWait c ctr n dp = { s with cores := (s.enterWait c ctr n dp).cores, ctxRuns := (s.enterWait c ctr n dp).ctxRuns } := rfl

/-- The three ways a wait begins: stopped by a pre-emption request, passed at once, or waiting. -/
theorem State.startWait_cases : s.startWait c ctr n dp =
    if (dp && (s.ctx (s.core c).ctx).preempt) = true ∨ tget 0 (s.core c).sync ctr < n then s.enterWait c ctr n dp
    else (s.enterWait c ctr n dp).modCore c (fun k => k.passed ctr n) := by
  have hwait : ((s.enterWait c ctr n dp).core c).wait = some { ctr := ctr, n := n, dp := dp, held := dp && (s.ctx (s.core c).ctx).preempt } := by
    rw [State.enterWait_core]; rfl
  have hsync : ((s.enterWait c ctr n dp).core c).sync = (s.core c).sync := by rw [State.enterWait_core]; rfl
  rw [State.startWait_eq]
  split
  next h => exact State.tryWait_stay hwait (by rw [hsync]; exact h)
  next h =>
    rw [not_or, Bool.not_eq_true, Nat.not_lt] at h
    exact State.tryWait_pass hwait h.1 (by rw [hsync]; exact h.2)

end

section
variable {s : State} {c ctr n : Nat} {dp : Bool}

theorem State.startWait_rest : (s.startWait c ctr n dp) = { s with cores := (s.startWait c ctr n dp).cores, ctxRuns := (s.startWait c ctr n dp).ctxRuns } := by
  rw [State.startWait_cases]
  split <;> rfl

theorem State.startWait_core_ne {j : Nat} (h : j ≠ c) : (s.startWait c ctr n dp).core j = s.core j := by
  rw [State.startWait_cases]
  split
  · exact State.enterWait_core_ne ctr n dp h
  · exact (State.modCore_core_ne _ _ h).trans (State.enterWait_core_ne ctr n dp h)

theorem State.startWait_retired : ((s.startWait c ctr n dp).core c).retired = ((s.core c).retired + 1) % 2 ^ 64 := by
  rw [State.startWait_cases]
  split
  · rw [State.enterWait_core]; rfl
  · rw [State.modCore_core, State.enterWait_core]; rfl

theorem State.startWait_held (h : (dp && (s.ctx (s.core c).ctx).preempt) = true) : (s.startWait c ctr n dp).core c = (s.core c).atWait ctr n dp true := by
  rw [State.startWait_cases, if_pos (.inl h), State.enterWait_core, h]

theorem State.startWait_waits (h : (dp && (s.ctx (s.core c).ctx).preempt) = false) (hlow : tget 0 (s.core c).sync ctr < n) :
    (s.startWait c ctr n dp).core c = (s.core c).atWait ctr n dp false := by
  rw [State.startWait_cases, if_pos (.inr hlow), State.enterWait_core, h]

theorem State.startWait_passes (h : (dp && (s.ctx (s.core c).ctx).preempt) = false) (hn : n ≤ tget 0 (s.core c).sync ctr) :
    (s.startWait c ctr n dp).core c = ((s.core c).atWait ctr n dp false).passed ctr n := by
  rw [State.startWait_cases, if_neg (by rw [h]; simpa using hn), State.modCore_core, State.enterWait_core, h]

end

/-! ### Arrivals (R266, R267, R276) -/

theorem takeIncrs_rest_of_none (mine here : Incr → Bool) (l : List Incr) : ∀ n blocked, (takeIncrs mine here n blocked l).1 = [] →
    (takeIncrs mine here n blocked l).2 = l := by
  induction l with
  | nil => exact fun _ _ _ => rfl
  | cons i t ih =>
    intro n blocked h
    rw [takeIncrs_cons] at h ⊢
    split at h
    next => cases h
    next hno =>
      rw [if_neg hno]
      exact congrArg (i :: ·) (ih _ _ h)

/-- What arrives of the increments for a counter. -/
def State.arrivals (s : State) (core ctr count ctx : Nat) : List Incr × List Incr :=
  takeIncrs (fun j => s.hits core ctr j && j.ctx == ctx) (fun j => s.stopOf j == some (core / 16)) count [] s.flight

/-- A counter that took a sum from the flight. -/
def State.summed (s : State) (core ctr : Nat) (rest : List Incr) (v : Nat) : State :=
  State.modCore { s with flight := rest } core (fun k => { k with sync := tset 0 k.sync ctr v })

theorem State.summed_core (s : State) (core ctr : Nat) (rest : List Incr) (v : Nat) :
    (s.summed core ctr rest v).core core = { s.core core with sync := tset 0 (s.core core).sync ctr v } :=
  State.modCore_core { s with flight := rest } core (fun k => { k with sync := tset 0 k.sync ctr v })

section
variable {s : State} {core ctr count : Nat} {i : Incr} (hfind : s.flight.find? (s.hits core ctr) = some i) (hres : (s.ctx i.ctx).st = .resident)

include hfind in
theorem coreAt_of_find : (s.ctx i.ctx).coreAt i.core = some core := by
  have hhit := List.find?_some hfind
  rw [State.hits, Bool.and_eq_true, beq_iff_eq, beq_iff_eq] at hhit
  exact hhit.2

include hfind hres

theorem State.arrive_eq : s.arrive core ctr count = if (s.arrivals core ctr count i.ctx).1.isEmpty then { s with flight := (s.arrivals core ctr count i.ctx).2 }
    else if 65535 < tget 0 (s.core core).sync ctr + ((s.arrivals core ctr count i.ctx).1.map (·.n)).sum then
      State.ctxFault { s with flight := (s.arrivals core ctr count i.ctx).2 } i.ctx { code := fltSyncOverflow, unit := i.core, detail := ctr }
    else (s.summed core ctr (s.arrivals core ctr count i.ctx).2
      (tget 0 (s.core core).sync ctr + ((s.arrivals core ctr count i.ctx).1.map (·.n)).sum)).afterIncr i.ctx core := by
  have hat := coreAt_of_find hfind
  have hv : (s.ctrGet i.ctx i.core ctr).getD 0 = tget 0 (s.core core).sync ctr := by
    rw [State.ctrGet]
    simp only [hres, if_true, hat, Option.map_some, Option.getD_some]
  have hset : ∀ v fl, State.ctrSet { s with flight := fl } i.ctx i.core ctr v =
      State.modCore { s with flight := fl } core (fun k => { k with sync := tset 0 k.sync ctr v }) := fun v fl => by
    have hres' : (State.ctx { s with flight := fl } i.ctx).st = .resident := hres
    have hat' : (State.ctx { s with flight := fl } i.ctx).coreAt i.core = some core := hat
    rw [State.ctrSet]
    simp only [hres', if_true, hat']
  rw [State.arrive, hfind]
  simp only [hv, hset, List.sum_eq_foldl]
  rfl

end

/-- The cores and the flight after a resident context's counter took a sum. -/
theorem State.afterIncr_resident {s : State} {c core : Nat} (hres : (s.ctx c).st = .resident) :
    (s.afterIncr c core).cores = (s.tryWait core).cores ∧ (s.afterIncr c core).flight = (s.tryWait core).flight := by
  rw [State.afterIncr, if_pos hres]
  dsimp only
  split
  · exact ⟨rfl, rfl⟩
  · exact ⟨rfl, rfl⟩

theorem State.tryWait_flight (s : State) (core : Nat) : (s.tryWait core).flight = s.flight := by
  rw [State.tryWait]
  split
  · split <;> rfl
  · rfl

theorem State.tryWait_core_ne (s : State) {core j : Nat} (h : j ≠ core) : (s.tryWait core).core j = s.core j := by
  rw [State.tryWait]
  split
  · split
    · exact s.modCore_core_ne _ h
    · rfl
  · rfl

/-! ### The instructions at issue -/

section
variable {s : State} {c : Nat} {w : IWord} {i : Instr} {target m : Nat} (hans : Answers i s (s.settled c i (s.signal c w target (wf w 51 46) m)))
include hans

theorem answers_signal_target (h : 16 * (s.ctx (s.core c).ctx).k ≤ target) : Answers i s
    (s.ctxFault (s.core c).ctx { code := fltSyncTarget, unit := c, detail := (s.core c).pc, addr := w.toNat }) := answers_wordFault hans (if_pos h)

theorem answers_signal_zero (h : target < 16 * (s.ctx (s.core c).ctx).k) (hm : m = 0) : Answers i s (s.retire c) :=
  answers_retire hans ((if_neg (Nat.not_le.mpr h)).trans (if_pos hm))

theorem answers_signal_full (h : target < 16 * (s.ctx (s.core c).ctx).k) (hm : m ≠ 0) (hfull : 8 ≤ (s.core c).sigq.length) :
    Answers i s (s.modCore c (fun x => { x with stalled := some i })) :=
  answers_full hans ((if_neg (Nat.not_le.mpr h)).trans ((if_neg hm).trans (if_pos hfull)))

theorem answers_signal_queued (h : target < 16 * (s.ctx (s.core c).ctx).k) (hm : m ≠ 0) (hroom : (s.core c).sigq.length < 8) :
    Answers i s ((s.modCore c (fun x => { x with sigq := x.sigq ++
      [{ incr := { ctx := (s.core c).ctx, core := target, ctr := wf w 51 46, n := m, src := c / 16 }, behind := (s.core c).queues.filter (fun q => q.1 != 3) }] })).retire c) :=
  answers_congr (answers_retire hans ((if_neg (Nat.not_le.mpr h)).trans ((if_neg hm).trans (if_neg (Nat.not_le.mpr hroom)))))
    (congrArg (State.retire · c) (State.modCore_congr rfl))

end

end Sys2Proof.Machine

namespace Sys2Proof.Proofs
open Sys2Proof.Machine

/-- Settles O32. -/
theorem syncInstructions : Obligations.SyncInstructions := by
  unfold Obligations.SyncInstructions
  refine ⟨fun s c w hup hissues => ?_, fun mine here n l hsub => ?_, fun s core ctr count hup => ⟨fun hnone => ?_, fun i hfind hres => ?_⟩⟩
  · intro k fault ctr n send sends waits
    have hsends : ∀ {i : Instr} {target m : Nat}, Answers i s (s.settled c i (s.signal c w target ctr m)) → sends i target m := fun hans =>
      ⟨answers_signal_target hans, answers_signal_zero hans, answers_signal_queued hans, answers_signal_full hans⟩
    have hwaits : ∀ {i : Instr} {d : CoreClass} {f : State → Run} {m : Nat} {dp : Bool}, exec i s = whenUp s (s.atHead c i f) → i.coreWord = some (d, w) → i.spelt = true →
        coreClass w = some d → f s = s.issueWait c ctr m dp → waits i m dp := by
      intro i d f m dp hexec hword hspelt hclass hrun
      refine ⟨fun hm hclaim => answers_head_later hexec hup hissues hword hspelt hclass (hrun.trans (if_pos ⟨hm, hclaim⟩)), fun hnot => ?_⟩
      have hstart : f s = .ok (s.startWait c ctr m dp) := hrun.trans (if_neg fun h => hnot.elim (Nat.not_lt.mpr h.1) (Nat.not_le.mpr h.2))
      refine reaches_of_kept (answers_head_ok hexec hup hissues hword hspelt hclass hstart) (by rw [State.startWait_rest]) ⟨fun hdp hpre => ?_, fun hno => ⟨fun hm => ?_, fun hm => ?_⟩,
        State.startWait_retired, fun j hj => State.startWait_core_ne hj, State.startWait_rest⟩
      · rw [State.startWait_held (by rw [hdp, hpre]; rfl)]
        exact ⟨rfl, by rw [hdp]; rfl, rfl, rfl⟩
      · rw [State.startWait_passes (Bool.and_eq_false_iff.mpr hno) hm]
        exact ⟨rfl, rfl, rfl, rfl⟩
      · rw [State.startWait_waits (Bool.and_eq_false_iff.mpr hno) hm]
        exact ⟨rfl, rfl, rfl, rfl⟩
    refine ⟨fun hctr => ⟨fun hn hok => hsends ?_, fun hok => hsends ?_, fun hn hok => ?_, fun hok => ?_, fun hn hok => ?_, fun hok => ?_⟩, fun hctr p hp hclass => ?_, fun hn p hp hclass => ?_⟩
    · refine answers_congr (answers_numbered hup hissues rfl rfl rfl hok (by decide) rfl) (congrArg (s.settled c _) (if_neg ?_))
      rw [hok]
      rintro (h | h | h)
      · cases h
      · exact absurd hctr (Nat.not_le.mpr h)
      · exact hn h
    · refine answers_congr (answers_numbered hup hissues rfl rfl rfl hok (by decide) rfl) (congrArg (s.settled c _) (if_neg ?_))
      rw [hok]
      rintro (h | h)
      · cases h
      · exact absurd hctr (Nat.not_le.mpr h)
    · refine hwaits rfl rfl rfl ((coreClass_of_wordOk hok (by decide)).trans rfl) (if_neg ?_)
      rw [hok]
      rintro (h | h | h)
      · cases h
      · exact absurd hctr (Nat.not_le.mpr h)
      · exact hn h
    · refine hwaits rfl rfl rfl ((coreClass_of_wordOk hok (by decide)).trans rfl) (if_neg ?_)
      rw [hok]
      rintro (h | h)
      · cases h
      · exact absurd hctr (Nat.not_le.mpr h)
    · have hgood : ¬ ((!wordOk w 0x34 2 [(45, 16)]) = true ∨ 47 < ctr ∨ n = 0) := by
        rw [hok]
        rintro (h | h | h)
        · cases h
        · exact absurd hctr (Nat.not_le.mpr h)
        · exact hn h
      have hans := answers_numbered (i := .dec c w) hup hissues rfl rfl rfl hok (by decide) rfl
      exact ⟨fun hle => answers_retire hans ((if_neg hgood).trans (if_neg (Nat.not_lt.mpr hle))), fun hlt => answers_wordFault hans ((if_neg hgood).trans (if_pos hlt))⟩
    · refine answers_retire (answers_numbered hup hissues rfl rfl rfl hok (by decide) rfl) (if_neg ?_)
      rw [hok]
      rintro (h | h)
      · cases h
      · exact absurd hctr (Nat.not_le.mpr h)
    · simp only [List.mem_cons, List.not_mem_nil, or_false] at hp
      rcases hp with rfl | rfl | rfl | rfl | rfl | rfl
      · exact answers_wordFault (answers_coreStep rfl hup hissues rfl rfl hclass) (if_pos (.inr (.inl hctr)))
      · exact answers_wordFault (answers_coreStep rfl hup hissues rfl rfl hclass) (if_pos (.inr (.inl hctr)))
      · exact answers_wordFault (answers_coreStep rfl hup hissues rfl rfl hclass) (if_pos (.inr hctr))
      · exact answers_head_fault rfl hup hissues rfl rfl hclass (if_pos (.inr (.inl hctr)))
      · exact answers_wordFault (answers_coreStep rfl hup hissues rfl rfl hclass) (if_pos (.inr hctr))
      · exact answers_head_fault rfl hup hissues rfl rfl hclass (if_pos (.inr hctr))
    · simp only [List.mem_cons, List.not_mem_nil, or_false] at hp
      rcases hp with rfl | rfl | rfl
      · exact answers_wordFault (answers_coreStep rfl hup hissues rfl rfl hclass) (if_pos (.inr (.inr hn)))
      · exact answers_wordFault (answers_coreStep rfl hup hissues rfl rfl hclass) (if_pos (.inr (.inr hn)))
      · exact answers_head_fault rfl hup hissues rfl rfl hclass (if_pos (.inr (.inr hn)))
  · intro r
    exact ⟨takeIncrs_perm mine here l n [], length_takeIncrs_le mine here l n [], fun i hi => (takeIncrs_taken mine here l n [] i hi).1,
      fun src => filter_takeIncrs mine here src l n [], fun h => takeIncrs_all mine here h n⟩
  · exact answers_congr (answers_whenUp rfl hup) (by rw [State.arrive, hnone])
  · intro r sum v k
    have harrive : s.arrive core ctr count = if r.1.isEmpty then { s with flight := r.2 } else if 65535 < v + sum then
          State.ctxFault { s with flight := r.2 } i.ctx { code := fltSyncOverflow, unit := i.core, detail := ctr }
        else (s.summed core ctr r.2 (v + sum)).afterIncr i.ctx core := State.arrive_eq (count := count) hfind hres
    refine ⟨fun hnil => ?_, fun hne hover => ?_, fun hne hfits => ?_⟩
    · refine answers_congr (answers_whenUp rfl hup) (harrive.trans ((if_pos (List.isEmpty_iff.mpr hnil)).trans ?_))
      have hrest : r.2 = s.flight := takeIncrs_rest_of_none _ _ _ _ _ hnil
      rw [hrest]
    · exact answers_congr (answers_whenUp rfl hup) (harrive.trans ((if_neg (by simpa using hne)).trans (if_pos hover)))
    · obtain ⟨hcores, hflight⟩ := State.afterIncr_resident (s := s.summed core ctr r.2 (v + sum)) (c := i.ctx) (core := core) hres
      have hcore : ∀ j, ((s.summed core ctr r.2 (v + sum)).afterIncr i.ctx core).core j = ((s.summed core ctr r.2 (v + sum)).tryWait core).core j := fun j => by
        rw [State.core, State.core, hcores]
      have hsummed := s.summed_core core ctr r.2 (v + sum)
      refine reaches_of_effect (answers_congr (answers_whenUp rfl hup) (harrive.trans ((if_neg (by simpa using hne)).trans (if_neg (Nat.not_lt.mpr hfits)))))
        ⟨hflight.trans (State.tryWait_flight _ core), fun j hj => ?_, fun hnone => ?_, fun x hx hxc hheld hn => ?_, fun x hx hxc hn => ?_⟩ fun _ _ h => h
      · exact (hcore j).trans ((State.tryWait_core_ne _ hj).trans (State.modCore_core_ne _ _ hj))
      · refine (hcore core).trans ?_
        rw [State.tryWait_none (by rw [hsummed]; exact hnone), hsummed]
      · have hpass := State.tryWait_pass (s := s.summed core ctr r.2 (v + sum)) (c := core) (by rw [hsummed]; exact hx) hheld (by rw [hsummed, hxc, tget_tset_same]; exact hn)
        rw [show ((s.summed core ctr r.2 (v + sum)).afterIncr i.ctx core).core core = _ from hcore core, hpass, State.modCore_core, hsummed, hxc]
        exact ⟨(tget_tset_same 0 _ ctr _).trans (by rw [tget_tset_same]), rfl, rfl, rfl⟩
      · have hstay := State.tryWait_stay (s := s.summed core ctr r.2 (v + sum)) (c := core) (by rw [hsummed]; exact hx) (.inr (by rw [hsummed, hxc, tget_tset_same]; exact hn))
        rw [show ((s.summed core ctr r.2 (v + sum)).afterIncr i.ctx core).core core = _ from hcore core, hstay, hsummed]
        exact ⟨tget_tset_same 0 _ ctr _, hx, rfl⟩

end Sys2Proof.Proofs

end

