-- ==== Sys2Proof/Proofs/StitcherCalls.lean ====
section
/-! PROOFS. Stitcher units: submissions, the choice of a call, starts and completions (R301, R302, R305). -/
namespace Sys2Proof.Machine
open Sys2Proof

/-! ### The oldest ready entry of the highest class -/

section
variable {α : Type} {cls : α → Nat} {ready : α → Bool} {l : List α} {x : α}

/-- The first ready entry of the lowest class number below 3. -/
def pickByClass (cls : α → Nat) (ready : α → Bool) (l : List α) : Option α := (upto 0 3).findSome? (fun c => l.find? (fun k => cls k == c && ready k))

theorem pickByClass_eq_none (h : ∀ k ∈ l, cls k < 3) : pickByClass cls ready l = none ↔ ∀ k ∈ l, ready k = false := by
  rw [pickByClass, List.findSome?_eq_none_iff]
  constructor
  · intro hnone k hk
    have hcls := h k hk
    have hfind := List.find?_eq_none.mp (hnone (cls k) (by simp [upto]; omega)) k hk
    simpa using hfind
  · intro hnone c _
    exact List.find?_eq_none.mpr fun k hk => by simp [hnone k hk]

theorem pickByClass_spec (h : pickByClass cls ready l = some x) : ready x = true ∧ ∃ before after, l = before ++ x :: after ∧
    (∀ k ∈ before, ready k = true → cls x < cls k) ∧ (∀ k ∈ after, ready k = true → cls x ≤ cls k) := by
  obtain ⟨cs, c, rest, hclasses, hfind, hearlier⟩ := List.findSome?_eq_some_iff.mp h
  obtain ⟨hx, before, after, hl, hbefore⟩ := List.find?_eq_some_iff_append.mp hfind
  obtain ⟨hcls, hready⟩ := Bool.and_eq_true_iff.mp hx
  rw [beq_iff_eq] at hcls
  have hsplit : ∀ d, d < c → d ∈ cs := fun d hd => by
    have hlen : cs.length ≤ 2 := by have := congrArg List.length hclasses; simp [upto] at this; omega
    rcases cs with _ | ⟨a, _ | ⟨b, _ | ⟨e, t⟩⟩⟩
    · simp [upto] at hclasses; omega
    · simp [upto] at hclasses; simp; omega
    · simp [upto] at hclasses; simp; omega
    · simp at hlen
  have hle : ∀ k ∈ l, ready k = true → cls x ≤ cls k := fun k hk hr => Nat.le_of_not_lt fun hlt => by
    have := List.find?_eq_none.mp (hearlier (cls k) (hsplit _ (hcls ▸ hlt))) k hk
    simp [hr] at this
  refine ⟨hready, before, after, hl, fun k hk hr => ?_, fun k hk hr => hle k (by rw [hl]; simp [hk]) hr⟩
  refine lt_of_le_of_ne (hle k (by rw [hl]; simp [hk]) hr) fun heq => ?_
  have := hbefore k hk
  simp [hr, ← heq, hcls] at this

end

/-! ### Submissions (R301, R302) -/

section
variable {s : State} {r : Route} {high : Nat} (hup : s.up = true)
include hup

theorem answers_stcSubmit_empty (hheld : tget none s.heldLow (latchKey r stcSubmitOff) = none) : Answers (.stcSubmit r high) s s := by
  refine answers_congr (answers_whenUp rfl hup) ?_
  simp only [State.takeHeld, hheld, ite_self]

theorem answers_stcSubmit_held (hreach : s.reaches r stcSubmitOff = true) {low : Nat} (hheld : tget none s.heldLow (latchKey r stcSubmitOff) = some low)
    (hhigh : high < 2 ^ 32) : Answers (.stcSubmit r high) s
      (State.stcSubmit { s with heldLow := tset none s.heldLow (latchKey r stcSubmitOff) none } (low + high * 2 ^ 32)) := by
  refine answers_congr (answers_whenUp rfl hup) ?_
  simp only [State.takeHeld, hheld, hreach, if_true, Nat.mod_eq_of_lt hhigh]

end

theorem State.stcSubmit_populated {u : State} {a : Nat} (ha : a % 64 = 0) (hpop : u.populated a = true) : u.stcSubmit a = u.stcEnqueue (readCall a (u.seen a 64)) :=
  (if_neg (not_not_intro ha)).trans (if_neg (by simp [hpop]))

theorem State.stcSubmit_unpopulated {u : State} {a : Nat} (ha : a % 64 = 0) (hpop : u.populated a = false) :
    u.stcSubmit a = u.raise { code := fltMemDecode, unit := 38, addr := a } := (if_neg (not_not_intro ha)).trans (if_pos (by simp [hpop]))

/-! ### Starts and completions (R302, R305) -/

/-- The state without a queued call. -/
def State.uncalled (s : State) (k : Call) : State := { s with stc := { s.stc with queue := s.stc.queue.erase k } }

/-- A unit that runs a call. -/
def StcUnit.running (x : StcUnit) (k : Call) (mat : List (List Nat)) : StcUnit :=
  { x with
    st := 1, slotShown := k.slot, call := some k, col := (auction mat k.m k.bidLimit).col, owner := (auction mat k.m k.bidLimit).owner
    callBids := (auction mat k.m k.bidLimit).bids, total := auctionTotal mat (auction mat k.m k.bidLimit), limited := (auction mat k.m k.bidLimit).limited
    badEnt := (x.badEnt + badEntries mat) % 2 ^ 32 }

section
variable {s : State} {u : Nat} (hfree : ¬ (4 ≤ u ∨ (s.stcUnit u).call.isSome))
include hfree

theorem State.stcStart_none (h : s.nextCall = none) : s.stcStart u = s := by
  refine (if_neg hfree).trans ?_
  rw [h]

section
variable {k : Call} (h : s.nextCall = some k)
include h

theorem State.stcStart_refused {code : Nat} (hfault : (s.uncalled k).callFault k = some code) :
    s.stcStart u = (s.uncalled k).ctxFault k.ctx { code := code, unit := 0x3000 + u, detail := k.slot, addr := k.addr } := by
  refine (if_neg hfree).trans ?_
  rw [h]
  dsimp only
  rw [← State.uncalled, hfault]

theorem State.stcStart_runs {mat : List (List Nat)} {v : State} (hfault : (s.uncalled k).callFault k = none)
    (hmat : (if k.internal then s.uncalled k else (s.uncalled k).gateTake k.ctx k.gateCore k.gateCtr k.gateN).callMatrix k = (mat, none, v)) :
    s.stcStart u = v.modStc u (fun x => x.running k mat) := by
  refine (if_neg hfree).trans ?_
  rw [h]
  dsimp only
  rw [← State.uncalled, hfault]
  dsimp only
  rw [State.runCall]
  dsimp only
  rw [hmat] <;> rfl

end

end

/-- The next call is the choice by class among the queue. -/
theorem State.nextCall_eq (s : State) : s.nextCall = pickByClass (fun k => s.slotClass k.slot) s.callReady s.stc.queue := rfl

theorem State.nextCall_singleton {s : State} {k : Call} (hq : s.stc.queue = [k]) (hint : k.internal = true) (hcls : s.slotClass k.slot < 3) : s.nextCall = some k := by
  have hready : s.callReady k = true := by rw [State.callReady, hint]; rfl
  cases hnext : s.nextCall with
  | none =>
    rw [State.nextCall_eq] at hnext
    have hno := (pickByClass_eq_none (cls := fun k => s.slotClass k.slot) (ready := s.callReady) (l := s.stc.queue) (by rw [hq]; simpa using hcls)).mp hnext
    rw [hno k (by rw [hq]; exact List.mem_cons_self)] at hready
    cases hready
  | some x =>
    obtain ⟨-, before, after, hl, -⟩ := pickByClass_spec ((s.nextCall_eq).symm.trans hnext)
    rw [hq] at hl
    cases before with
    | nil => rw [(List.cons.inj hl).1]
    | cons y t => simp at hl

end Sys2Proof.Machine

namespace Sys2Proof.Proofs
open Sys2Proof.Machine

/-- Settles O35. -/
theorem stitcherUnits : Obligations.StitcherUnits := by
  unfold Obligations.StitcherUnits
  refine ⟨fun s r high hup hreach hhigh => ⟨answers_stcSubmit_empty hup, fun low hheld => ?_⟩, fun s u hup hu hcall => ?_,
    fun s h => pickByClass_eq_none h, fun s k h => pickByClass_spec h, fun s u dt hup => ?_⟩
  · intro u a
    have hans := answers_stcSubmit_held hup hreach hheld hhigh
    refine ⟨fun ha => ?_, fun ha hpop hfull => ?_, fun ha hpop hroom => ?_, fun ha hpop => ?_⟩
    · exact answers_congr hans (if_pos ha)
    · exact answers_congr hans ((State.stcSubmit_populated ha hpop).trans (if_pos hfull))
    · exact answers_congr hans ((State.stcSubmit_populated ha hpop).trans (if_neg (Nat.not_le.mpr hroom)))
    · exact answers_congr hans (State.stcSubmit_unpopulated ha hpop)
  · have hfree : ¬ (4 ≤ u ∨ (s.stcUnit u).call.isSome) := by
      rw [hcall]
      rintro (h | h)
      · omega
      · cases h
    refine ⟨fun hnone => ?_, fun k hq hint hcls => ?_, fun k hk => ?_⟩
    · refine answers_congr (answers_whenUp rfl hup) (State.stcStart_none hfree ?_)
      cases hnext : s.nextCall with
      | none => rfl
      | some k =>
        obtain ⟨hready, before, after, hl, -⟩ := pickByClass_spec ((s.nextCall_eq).symm.trans hnext)
        have hno := hnone k (by rw [hl]; simp)
        rw [show s.callReady k = true from hready] at hno
        cases hno
    · intro r
      have herase : s.uncalled k = { s with stc := { s.stc with queue := [] } } := by
        rw [State.uncalled, hq, List.erase_cons_head]
      refine answers_congr (answers_whenUp rfl hup) ((State.stcStart_runs hfree (State.nextCall_singleton hq hint hcls) (if_pos hint)
        (mat := k.matrix) (v := s.uncalled k) ?_).trans ?_)
      · rw [if_pos hint]
        exact if_pos hint
      · rw [herase]
        rfl
    · intro v
      refine ⟨fun code hfault => ?_, fun mat v2 hfault hmat => ?_⟩
      · exact answers_congr (answers_whenUp rfl hup) (State.stcStart_refused hfree hk hfault)
      · exact answers_congr (answers_whenUp rfl hup) (State.stcStart_runs hfree hk hfault hmat)
  · intro x v
    refine ⟨fun hcall => ?_, fun k hcall hint => ?_, fun k hcall hint => ?_⟩
    · exact answers_congr (answers_whenUp rfl hup) (by rw [State.stcDone]; simp only [show (s.stcUnit u).call = none from hcall])
    · refine answers_congr (answers_whenUp rfl hup) ?_
      rw [State.stcDone]
      simp only [show (s.stcUnit u).call = some k from hcall, hint]
      rfl
    · refine answers_congr (answers_whenUp rfl hup) ?_
      rw [State.stcDone]
      simp only [show (s.stcUnit u).call = some k from hcall, hint]
      rfl

end Sys2Proof.Proofs

end

