-- ==== Sys2Proof/Proofs/TrackLives.lean ====
section
/-! PROOFS. The life of a track: fates, prediction, births and their serials, the benefit matrix (R286, R287, R295 to R300). -/
namespace Sys2Proof.Machine
open Sys2Proof

/-! ### Fates (R287, R308) -/

/-- The track of a match, before its state changes. -/
def Track.matched (cfg : TrackCfg) (t : Track) (d : Detection) (e : Option (List Byte)) : Track :=
  let u := Track.update cfg { t with flags := t.flags &&& 0xFB } d
  { u with hits := min 65535 (u.hits + 1), score := d.score, misses := 0
           emb := e.getD u.emb, flags := if e.isSome then u.flags ||| 1 else u.flags }

section
variable (cfg : TrackCfg) (t : Track) (d : Detection) (e : Option (List Byte))

theorem Track.matched_state : (t.matched cfg d e).state = t.state := rfl
theorem Track.matched_hits : (t.matched cfg d e).hits = min 65535 (t.hits + 1) := rfl
theorem Track.matched_misses : (t.matched cfg d e).misses = 0 := rfl
theorem Track.matched_score : (t.matched cfg d e).score = d.score := rfl
theorem Track.matched_emb : (t.matched cfg d e).emb = e.getD t.emb := rfl
theorem Track.matched_embedded (b : List Byte) : bit (t.matched cfg d (some b)).flags 0 = true := by
  have hbit : ∀ x : Nat, bit (x ||| 1) 0 = true := fun x => by rw [bit_eq_testBit, Nat.testBit_or]; simp
  exact hbit _

end

section
variable (p : Pic) (t : Track) (d : Detection) (e : Option (List Byte))

/-- The match confirms the track. -/
def confirmedBy (p : Pic) (t : Track) : Bool := t.state == 1 && decide (p.trk.confirmHits ≤ min 65535 (t.hits + 1))

theorem fateOf_matched : fateOf p t (some (d, e)) =
    ⟨if confirmedBy p t then { t.matched p.trk d e with state := 2, globalId := t.id }
      else if t.state = 3 then { t.matched p.trk d e with state := 2 } else t.matched p.trk d e,
      !boxInside t.box p.width p.height, confirmedBy p t, t.state == 3⟩ := rfl

theorem fateOf_matched_kept : (fateOf p t (some (d, e))).dead = !boxInside t.box p.width p.height ∧ (fateOf p t (some (d, e))).t.misses = 0 ∧
    (fateOf p t (some (d, e))).t.score = d.score ∧ (fateOf p t (some (d, e))).t.hits = min 65535 (t.hits + 1) ∧
    (fateOf p t (some (d, e))).t.emb = e.getD t.emb ∧ (fateOf p t (some (d, e))).t.flags = (t.matched p.trk d e).flags := by
  rw [fateOf_matched]
  dsimp only
  by_cases hconf : confirmedBy p t = true
  · rw [if_pos hconf]
    exact ⟨rfl, rfl, rfl, rfl, rfl, rfl⟩
  · rw [if_neg hconf]
    by_cases h3 : t.state = 3
    · rw [if_pos h3]
      exact ⟨rfl, rfl, rfl, rfl, rfl, rfl⟩
    · rw [if_neg h3]
      exact ⟨rfl, rfl, rfl, rfl, rfl, rfl⟩

variable {t}

theorem fateOf_matched_confirmed (ht : t.state = 1) (h : p.cfg.track.confirmHits ≤ min 65535 (t.hits + 1)) :
    (fateOf p t (some (d, e))).t.state = 2 ∧ (fateOf p t (some (d, e))).confirmed = true := by
  have hconf : confirmedBy p t = true := by rw [confirmedBy, ht]; exact decide_eq_true h
  rw [fateOf_matched, hconf]
  exact ⟨rfl, rfl⟩

theorem fateOf_matched_tentative (ht : t.state = 1) (h : min 65535 (t.hits + 1) < p.cfg.track.confirmHits) :
    (fateOf p t (some (d, e))).t.state = 1 ∧ (fateOf p t (some (d, e))).confirmed = false := by
  have hconf : confirmedBy p t = false := by rw [confirmedBy, ht]; exact decide_eq_false (Nat.not_le.mpr h)
  rw [fateOf_matched, hconf, if_neg Bool.false_ne_true, if_neg (by rw [ht]; decide)]
  exact ⟨ht, rfl⟩

theorem fateOf_matched_known (ht : t.state = 2 ∨ t.state = 3) :
    (fateOf p t (some (d, e))).t.state = 2 ∧ (fateOf p t (some (d, e))).confirmed = false := by
  have hconf : confirmedBy p t = false := by rcases ht with h | h <;> rw [confirmedBy, h] <;> rfl
  rw [fateOf_matched, hconf, if_neg Bool.false_ne_true]
  rcases ht with h | h
  · rw [if_neg (by rw [h]; decide)]
    exact ⟨h, rfl⟩
  · rw [if_pos h]
    exact ⟨rfl, rfl⟩

theorem fateOf_unmatched_tentative (ht : t.state = 1) : (fateOf p t none).dead = true := by
  rw [fateOf]
  dsimp only
  rw [if_pos ht]

theorem fateOf_unmatched_confirmed (ht : t.state = 2) :
    (fateOf p t none).t.state = 3 ∧ (fateOf p t none).t.misses = 1 ∧ (fateOf p t none).dead = !boxInside t.box p.width p.height := by
  rw [fateOf]
  dsimp only
  rw [if_neg (by rw [ht]; decide), if_pos ht]
  exact ⟨rfl, rfl, rfl⟩

theorem fateOf_unmatched_coasting (ht : t.state = 3) :
    (fateOf p t none).t.state = 3 ∧ (fateOf p t none).t.misses = min 65535 (t.misses + 1) ∧
      (fateOf p t none).dead = (!boxInside t.box p.width p.height || decide (p.cfg.track.maxMiss ≤ min 65535 (t.misses + 1))) := by
  rw [fateOf]
  dsimp only
  rw [if_neg (by rw [ht]; decide), if_neg (by rw [ht]; decide)]
  exact ⟨ht, rfl, rfl⟩

end

/-! ### Prediction (R295) -/

section
variable {cfg : TrackCfg} {t u : Track} {pts : Nat}

theorem Track.predict_eq_none_iff : t.predict cfg pts = none ↔ t.ptsLast + 16777216 < pts := by
  rw [Track.predict]
  split
  · exact iff_of_true rfl (by omega)
  · exact iff_of_false nofun (by omega)

theorem Track.predict_kept (h : t.predict cfg pts = some u) : u.ptsLast = pts ∧ u.id = t.id ∧ u.state = t.state ∧ u.hits = t.hits ∧ u.misses = t.misses ∧
    u.emb = t.emb ∧ ∀ c < 4, u.vel.getD c 0#32 = t.vel.getD c 0#32 := by
  rw [Track.predict] at h
  split at h
  · cases h
  · obtain rfl := Option.some.inj h
    refine ⟨rfl, rfl, rfl, rfl, rfl, rfl, fun c hc => ?_⟩
    obtain rfl | rfl | rfl | rfl : c = 0 ∨ c = 1 ∨ c = 2 ∨ c = 3 := by omega
    all_goals rfl

end

/-! ### Serials (R286) -/

/-- The serial that follows `v` in `i` steps. -/
def serialNth (v i : Nat) : Nat := (v - 1 + i) % 0xFFFFFE + 1

theorem serialNth_range (v i : Nat) : 1 ≤ serialNth v i ∧ serialNth v i ≤ 0xFFFFFE := by
  unfold serialNth
  omega

theorem serialNth_zero {v : Nat} (h1 : 1 ≤ v) (h2 : v ≤ 0xFFFFFE) : serialNth v 0 = v := by
  unfold serialNth
  omega

theorem serialAfter_range {v : Nat} (h1 : 1 ≤ v) : 1 ≤ serialAfter v ∧ serialAfter v ≤ 0xFFFFFE := by
  unfold serialAfter
  split <;> omega

theorem serialNth_serialAfter {v : Nat} (h1 : 1 ≤ v) (h2 : v ≤ 0xFFFFFE) (i : Nat) : serialNth (serialAfter v) i = serialNth v (i + 1) := by
  unfold serialNth serialAfter
  split <;> omega

theorem serialNth_injective (v : Nat) {i j : Nat} (hi : i < 0xFFFFFE) (hj : j < 0xFFFFFE) (h : serialNth v i = serialNth v j) : i = j := by
  unfold serialNth at h
  omega

/-- The search ends at a free serial, or every serial that it can try is held. -/
theorem freeSerial_spec (used : List Nat) : ∀ (fuel v : Nat), 1 ≤ v → v ≤ 0xFFFFFE →
    (1 ≤ freeSerial used fuel v ∧ freeSerial used fuel v ≤ 0xFFFFFE) ∧
      (freeSerial used fuel v ∉ used ∨ ∀ i ≤ fuel, serialNth v i ∈ used)
  | 0, v, h1, h2 => by
    refine ⟨⟨h1, h2⟩, (Decidable.em (v ∈ used)).symm.imp id fun hv i hi => ?_⟩
    rwa [Nat.le_zero.mp hi, serialNth_zero h1 h2]
  | fuel + 1, v, h1, h2 => by
    rw [freeSerial]
    split
    · rename_i hused
      obtain ⟨hr1, hr2⟩ := serialAfter_range h1
      obtain ⟨hrange, hfree⟩ := freeSerial_spec used fuel (serialAfter v) hr1 hr2
      refine ⟨hrange, hfree.imp id fun hall i hi => ?_⟩
      cases i with
      | zero => rw [serialNth_zero h1 h2]; exact List.contains_iff_mem.mp hused
      | succ i => rw [← serialNth_serialAfter h1 h2]; exact hall i (by omega)
    · rename_i hused
      exact ⟨⟨h1, h2⟩, Or.inl fun hv => hused (List.contains_iff_mem.mpr hv)⟩

theorem freeSerial_free {used : List Nat} {fuel v : Nat} (h1 : 1 ≤ v) (h2 : v ≤ 0xFFFFFE) (hlen : used.length ≤ fuel) (hfuel : fuel < 0xFFFFFE) :
    freeSerial used fuel v ∉ used := by
  refine (freeSerial_spec used fuel v h1 h2).2.resolve_right fun hall => ?_
  have hnodup : ((List.range (fuel + 1)).map (serialNth v)).Nodup := List.Nodup.map_on
    (fun i hi j hj h => serialNth_injective v (by have := List.mem_range.mp hi; omega) (by have := List.mem_range.mp hj; omega) h) List.nodup_range
  have hsub : (List.range (fuel + 1)).map (serialNth v) ⊆ used := fun x hx => by
    obtain ⟨i, hi, rfl⟩ := List.mem_map.mp hx
    exact hall i (Nat.le_of_lt_succ (List.mem_range.mp hi))
  have hle := (List.subperm_of_subset hnodup hsub).length_le
  rw [List.length_map, List.length_range] at hle
  omega

/-! ### Births (R287, R297, R309) -/

theorem findUp_exists {p : Nat → Bool} {a n i : Nat} (h1 : a ≤ i) (h2 : i < a + n) (hp : p i = true) : ∃ j, findUp p a n = some j ∧ j < a + n := by
  induction n generalizing a with
  | zero => omega
  | succ n ih =>
    rw [findUp]
    split
    · exact ⟨a, rfl, by omega⟩
    · rename_i hpa
      have hne : a ≠ i := fun h => hpa (h ▸ hp)
      obtain ⟨j, hj, hlt⟩ := ih (a := a + 1) (by omega) (by omega)
      exact ⟨j, hj, by omega⟩

/-- The entry of a birth with serial `v`. -/
def Track.born (n v : Nat) (p : Pic) (d : Detection) (e : Option (List Byte)) : Track :=
  { Track.start p.trk d p.pts with
    id := n * 2 ^ 24 + v, state := 1, cls := d.cls, score := d.score, emb := e.getD [], flags := b2n e.isSome }

theorem SlotTrack.birth_at {k : SlotTrack} {n : Nat} {p : Pic} {d : Detection} {e : Option (List Byte)} {i v : Nat}
    (hv : v = freeSerial ((liveTracks k.tracks).map (fun t => t.2.id % 2 ^ 24)) 1025 k.nextSerial)
    (hfind : findUp (fun i => (tget {} k.tracks i).state == 0) 0 1024 = some i) :
    k.birth n p d e = { k with nextSerial := serialAfter v, tracks := tset {} k.tracks i (Track.born n v p d e) } := by
  rw [SlotTrack.birth, hfind, ← hv]
  rfl

theorem trackId_fields {n v : Nat} (hv : v ≤ 0xFFFFFE) : (n * 2 ^ 24 + v) / 2 ^ 24 = n ∧ (n * 2 ^ 24 + v) % 2 ^ 24 = v := by
  have hlt : v < 2 ^ 24 := by omega
  rw [Nat.mul_comm, Nat.mul_add_div (by positivity), Nat.div_eq_of_lt hlt, Nat.mul_add_mod, Nat.mod_eq_of_lt hlt]
  exact ⟨rfl, rfl⟩

/-! ### The matrix (R299, R300) -/

theorem cosQ_le (a b : List Byte) : cosQ a b ≤ 4096 := by
  rw [cosQ]
  exact Nat.min_le_left _ _

/-- A weighted mean of two similarities is none above 16 times the largest. -/
theorem weighted_le {w x c : Nat} (hw : w ≤ 16) (hx : x ≤ 4096) (hc : c ≤ 4096) : w * x + (16 - w) * c ≤ 65536 := by
  have h1 := Nat.mul_le_mul_left w hx
  have h2 := Nat.mul_le_mul_left (16 - w) hc
  omega

theorem benefit_le {cfg : TrackCfg} {t : Track} {d : Detection} {e : Option (List Byte)} (hw : cfg.wIou ≤ 16)
    (hiou : iouQ t.box ⟨d.x0, d.y0, d.x1, d.y1⟩ ≤ 4096) : benefit cfg t d e ≤ 65536 ∨ benefit cfg t d e = infeasible := by
  unfold benefit
  generalize iouQ t.box ⟨d.x0, d.y0, d.x1, d.y1⟩ = iou at hiou ⊢
  dsimp only
  by_cases hclass : (cfg.classMatch && t.cls != d.cls) = true
  · exact Or.inr (if_pos hclass)
  · rw [if_neg hclass]
    split
    · refine (ite_eq_or_eq _ _ _).imp (fun h => ?_) id
      rw [h]
      exact weighted_le hw hiou (cosQ_le _ _)
    · refine (ite_eq_or_eq _ _ _).imp (fun h => ?_) id
      rw [h]
      exact Nat.mul_le_mul_left 16 hiou

end Sys2Proof.Machine

namespace Sys2Proof.Proofs
open Sys2Proof.Machine

/-- Settles O36. -/
theorem trackLife : Obligations.TrackLife := by
  unfold Obligations.TrackLife
  refine ⟨fun p t d e => ?_, fun p t => ?_, fun cfg t pts => ⟨Track.predict_eq_none_iff, fun u => Track.predict_kept⟩,
    fun k n p d e hn h1 h2 hwf hfree hlive => ?_, fun cfg t d e hw => ?_, fun a b => cosQ_le a b⟩
  · intro f
    obtain ⟨hdead, hmisses, hscore, hhits, hemb, hflags⟩ := fateOf_matched_kept p t d e
    refine ⟨hdead, hmisses, hscore, hhits, fateOf_matched_confirmed p d e, fateOf_matched_tentative p d e, fateOf_matched_known p d e, ?_, ?_⟩
    · rintro b rfl
      exact ⟨hemb, hflags ▸ t.matched_embedded p.trk d b⟩
    · rintro rfl
      exact hemb
  · intro f
    refine ⟨fateOf_unmatched_tentative p, fateOf_unmatched_confirmed p, fun ht => ?_⟩
    obtain ⟨hstate, hmisses, hdead⟩ := fateOf_unmatched_coasting p ht
    refine ⟨hstate, hmisses, ?_⟩
    rw [hdead]
    simp
  · obtain ⟨i0, hi0, hstate0⟩ := hfree
    obtain ⟨i, hfind, hi⟩ := findUp_exists (p := fun i => (tget {} k.tracks i).state == 0) (a := 0) (n := 1024) (Nat.zero_le i0) (by omega) (by simpa using hstate0)
    have hstate := (findUp_spec hfind).1
    obtain ⟨v, hv⟩ : ∃ v, v = freeSerial ((liveTracks k.tracks).map (fun t => t.2.id % 2 ^ 24)) 1025 k.nextSerial := ⟨_, rfl⟩
    have hrange := (freeSerial_spec ((liveTracks k.tracks).map (fun t => t.2.id % 2 ^ 24)) 1025 k.nextSerial h1 h2).1
    have hunused := freeSerial_free (used := (liveTracks k.tracks).map (fun t => t.2.id % 2 ^ 24)) (fuel := 1025) h1 h2 (by rw [List.length_map]; omega) (by decide)
    rw [← hv] at hrange hunused
    refine ⟨i, by omega, by simpa using hstate, ?_⟩
    rw [SlotTrack.birth_at hv hfind]
    intro b t
    have ht : t = Track.born n v p d e := (tget_tset _ _ _ _ _).trans (if_pos rfl)
    obtain ⟨hslot, hserial⟩ := trackId_fields (n := n) hrange.2
    rw [ht]
    refine ⟨rfl, hslot, hserial.symm ▸ hrange.1, hserial.symm ▸ hrange.2, fun u hu h => hunused ?_, fun j hj => tget_tset_ne _ _ _ hj, serialAfter_range hrange.1⟩
    exact List.mem_map.mpr ⟨u, hu, h.trans hserial⟩
  · by_cases hiou : iouQ t.box ⟨d.x0, d.y0, d.x1, d.y1⟩ ≤ 4096
    · exact (benefit_le hw hiou).imp id Or.inl
    · exact Or.inr (Or.inr (by omega))

end Sys2Proof.Proofs

end

