-- ==== Sys2Proof/Proofs/HiddenCacheLines.lean ====
section
/-! PROOFS. A hidden second entry of the cache table makes a healthy line fail: the counterexample of the detection-list clause (R292, R375, R391). -/
namespace Sys2Proof.Machine
open Sys2Proof

/-! ### What a table lists -/

section
variable {α : Type} {d : α} {t : Tbl α} {k : Nat} {v : α} {p : Nat × α}

theorem mem_of_tget_ne (h : tget d t k ≠ d) : (k, tget d t k) ∈ t := by
  induction t with
  | nil => exact absurd rfl h
  | cons q t ih =>
    rw [tget] at h ⊢
    split
    · rename_i hk
      rw [hk]
      exact List.mem_cons_self
    · rename_i hk
      rw [if_neg hk] at h
      exact List.mem_cons_of_mem _ (ih h)

theorem mem_of_mem_tdel (h : p ∈ tdel t k) : p ∈ t := by
  induction t with
  | nil => exact h
  | cons q t ih =>
    rw [tdel] at h
    split at h
    · exact List.mem_cons_of_mem _ (ih h)
    · exact (List.mem_cons.mp h).elim (fun e => e ▸ List.mem_cons_self) (fun hp => List.mem_cons_of_mem _ (ih hp))

theorem mem_of_mem_tput (h : p ∈ tput t k v) : p = (k, v) ∨ p ∈ t := by
  induction t with
  | nil => exact Or.inl (List.mem_singleton.mp h)
  | cons q t ih =>
    rw [tput] at h
    split at h
    · exact List.mem_cons.mp h
    · split at h
      · exact (List.mem_cons.mp h).imp id (List.mem_cons_of_mem _)
      · rcases List.mem_cons.mp h with h | h
        · exact Or.inr (h ▸ List.mem_cons_self)
        · exact (ih h).imp id (List.mem_cons_of_mem _)

theorem mem_of_mem_tset [DecidableEq α] (h : p ∈ tset d t k v) : p = (k, v) ∨ p ∈ t := by
  rw [tset] at h
  split at h
  · exact Or.inr (mem_of_mem_tdel h)
  · exact mem_of_mem_tput h

end

/-! ### A line whose check fails, in a memory that is sound otherwise -/

/-- Of all lines the check of `v` alone fails; no line has a merge entry; what is cached is sound, and `v` is not. -/
structure State.OneBad (s : State) (v : Nat) : Prop where
  fails : ∀ l, s.lineFails l = decide (l = v)
  merges : ∀ l, s.entryOf l = none
  cached : ∀ p ∈ s.mem.cache, p.1 ≠ v ∧ ∀ c, p.2 = some c → c.bad = false

namespace State.OneBad
variable {s t : State} {v x : Nat}

theorem congr (h : s.OneBad v) (hsame : s.SameMemory t) (hfails : t.mem.failing = s.mem.failing) (hcache : t.mem.cache = s.mem.cache) : t.OneBad v :=
  ⟨fun l => by rw [State.lineFails, hfails]; exact h.fails l, fun l => (hsame.entryOf l).trans (h.merges l), by rw [hcache]; exact h.cached⟩

theorem setFails_false (h : s.OneBad v) (hx : x ≠ v) : (s.setFails x false).OneBad v := by
  refine ⟨fun l => ?_, h.merges, h.cached⟩
  rw [State.lineFails, State.setFails]
  dsimp only
  rw [tget_tset]
  split
  · rename_i hl
    rw [hl, decide_eq_false hx]
  · exact h.fails l

theorem putLine (h : s.OneBad v) (hx : x ≠ v) {c : Option CacheLine} (hc : ∀ l, c = some l → l.bad = false) : (s.putLine x c).OneBad v := by
  refine ⟨h.fails, h.merges, fun p hp => ?_⟩
  rcases mem_of_mem_tset hp with rfl | hp
  · exact ⟨hx, hc⟩
  · exact h.cached p hp

theorem modSlice (h : s.OneBad v) (n : Nat) (f : SliceCnt → SliceCnt) : (s.modSlice n f).OneBad v := h.congr (s.sameMemory_modSlice n f) rfl rfl

theorem dramRead (h : s.OneBad v) (port line : Nat) : (s.dramRead port line).OneBad v :=
  h.congr ((s.sameMemory_modChan (chanOf line) (f := fun c => { c with readBytes := (c.readBytes + 64) % 2 ^ 64 }) fun _ => rfl).trans ⟨rfl, rfl, rfl, fun _ => rfl⟩) rfl rfl

theorem dramWrite (h : s.OneBad v) (line : Nat) : (s.dramWrite line).OneBad v := by
  refine h.congr (s.sameMemory_dramWrite line) ?_ ?_
  all_goals
    unfold State.dramWrite
    dsimp only
    split <;> rfl

theorem writeBack (h : s.OneBad v) (hx : x ≠ v) {c : CacheLine} (hc : c.bad = false) : (s.writeBack x c).OneBad v := by
  rw [State.writeBack, hc]
  exact ((h.dramWrite x).setFails_false hx).modSlice _ _

theorem tget_bad (h : s.OneBad v) {c : CacheLine} (hc : tget none s.mem.cache x = some c) : x ≠ v ∧ c.bad = false := by
  have hmem := mem_of_tget_ne (d := none) (t := s.mem.cache) (k := x) (by rw [hc]; exact nofun)
  obtain ⟨hne, hsound⟩ := h.cached _ hmem
  exact ⟨hne, hsound c hc⟩

theorem cacheBad_eq_false (h : s.OneBad v) (x : Nat) : s.cacheBad x = false := by
  rw [State.cacheBad]
  cases hc : tget none s.mem.cache x with
  | none => rfl
  | some c => exact (h.tget_bad hc).2

theorem uncached (h : s.OneBad v) : tget none s.mem.cache v = none := by
  cases hc : tget none s.mem.cache v with
  | none => rfl
  | some c => exact absurd rfl (h.tget_bad hc).1

theorem setLines_sound (h : s.OneBad v) {e : Nat × CacheLine} (he : e ∈ s.setLines x) : e.1 ≠ v ∧ e.2.bad = false := by
  obtain ⟨p, hp, hsome⟩ := List.mem_filterMap.mp he
  obtain ⟨hne, hsound⟩ := h.cached p hp
  obtain ⟨k, c⟩ := p
  cases c with
  | none => cases hsome
  | some c =>
    dsimp only at hsome
    split at hsome
    · obtain rfl := Option.some.inj hsome
      exact ⟨hne, hsound c rfl⟩
    · cases hsome

theorem cacheAlloc (h : s.OneBad v) (hx : x ≠ v) (ways : Nat) : (s.cacheAlloc x ways false).OneBad v := by
  have hfresh : ∀ (w u : Nat) (l : CacheLine), some { way := w, dirty := false, use := u } = some l → l.bad = false := fun w u l hl => by
    rw [← Option.some.inj hl]
  unfold State.cacheAlloc
  dsimp only
  split
  · exact h.putLine hx (hfresh _ _)
  · split
    · exact h
    · rename_i e he
      obtain ⟨hne, hsound⟩ : e.1 ≠ v ∧ e.2.bad = false := by
        have hnonempty : (s.setLines x).filter (fun c => bit ways c.2.way) ≠ [] := fun hnil => by rw [hnil] at he; cases he
        obtain ⟨y, hy, hmin, -⟩ := minBy_spec (fun c : Nat × CacheLine => c.2.use) hnonempty
        obtain rfl := Option.some.inj (hmin.symm.trans he)
        exact h.setLines_sound (List.mem_filter.mp hy).1
      refine State.OneBad.putLine (State.OneBad.putLine ?_ hne fun l hl => absurd hl (Option.some_ne_none l).symm) hx (hfresh _ _)
      split
      · exact h.writeBack hne hsound
      · exact h

theorem lookup {hit : Bool} (h : s.OneBad v) (hl : s.lookup x = (hit, t)) : t.OneBad v := by
  unfold State.lookup at hl
  split at hl
  · rename_i c hc
    cases hl
    obtain ⟨hne, hsound⟩ := h.tget_bad hc
    exact (h.putLine hne (fun l hl => by rw [← Option.some.inj hl]; exact hsound)).modSlice _ _
  · cases hl
    exact h.modSlice _ _

theorem testLine_sound (h : s.OneBad v) (hx : x ≠ v) (port : Nat) : s.testLine port x noErrors = (.ok, s) :=
  if_pos (by rw [h.fails, decide_eq_false hx]; rfl)

/-- Any other line is delivered. -/
theorem readLine_sound (h : s.OneBad v) (hx : x ≠ v) (port ways : Nat) :
    ∃ t, s.readLine port ways x noErrors = (.ok, t) ∧ t.OneBad v := by
  unfold State.readLine
  split
  · have hclose : s.closeLine x noErrors = s := by rw [State.closeLine, h.merges]
    dsimp only
    rw [hclose, show (noErrors.cached.contains x) = false from rfl, if_neg Bool.false_ne_true]
    obtain ⟨hit, t, hl⟩ : ∃ hit t, s.lookup x = (hit, t) := ⟨_, _, rfl⟩
    have ht := h.lookup hl
    rw [hl]
    cases hit
    · refine ⟨_, ?_, (ht.dramRead port x).cacheAlloc hx ways⟩
      dsimp only [State.readMiss]
      rw [(ht.dramRead port x).testLine_sound hx]
    · refine ⟨t, ?_, ht⟩
      dsimp only
      rw [ht.cacheBad_eq_false, if_neg Bool.false_ne_true]
  · exact ⟨s, h.testLine_sound hx port, h⟩

end State.OneBad

/-- A Class R line that fails, and is not read well the second time, is left to its consumer. -/
theorem State.testLine_classR {s : State} {port line : Nat} (hfails : s.lineFails line = true) (hcls : s.classOf line = 0) :
    (s.testLine port line noErrors).1 = .failedR := by
  have hkept : ∀ t : State, s.MemStep t → (t.setFails line true).classOf line = 0 := fun t ht => by
    obtain ⟨⟨m, k, o, r, c, p, d, rfl⟩, -⟩ := ht
    exact hcls
  have hcls' : (State.setFails (if inSaddle line then (s.intCount line 0).countRow line else s.intCount line 0) line true).classOf line = 0 := by
    refine hkept _ ?_
    split
    · exact (s.memStep_intCount line 0).trans (State.memStep_countRow _ _)
    · exact s.memStep_intCount line 0
  unfold State.testLine
  rw [if_neg (by rw [hfails, Bool.true_or]; decide)]
  dsimp only
  rw [if_neg (by rw [show noErrors.transient.contains line = false from rfl, Bool.and_false]; decide), hcls', if_neg (by decide), if_neg (by decide)]

theorem State.OneBad.readLine_bad {s : State} {v : Nat} (h : s.OneBad v) (hin : inSaddle v = true) (hcls : s.classOf v = 0) (port ways : Nat) :
    (s.readLine port ways v noErrors).1 = .failedR := by
  unfold State.readLine
  rw [if_pos hin]
  have hclose : s.closeLine v noErrors = s := by rw [State.closeLine, h.merges]
  dsimp only
  rw [hclose, show (noErrors.cached.contains v) = false from rfl, if_neg Bool.false_ne_true, State.lookup, h.uncached]
  dsimp only [State.readMiss]
  have htest := State.testLine_classR (port := port) (line := v)
    (s := State.dramRead (s.modSlice (chanOf v) (fun x => { x with misses := (x.misses + 1) % 2 ^ 64 })) port v)
    (by rw [((h.modSlice _ _).dramRead port v).fails]; exact decide_eq_true rfl) hcls
  split
  · rename_i heq
    rw [heq] at htest
    cases htest
  · exact htest

/-- A fold that leaves what has stopped as it is. -/
theorem foldl_fst_of_stop {α β γ : Type} {r : γ} (f : Option γ × β → α → Option γ × β) (h : ∀ b a, b.1 = some r → f b a = b) (l : List α) {b : Option γ × β}
    (hb : b.1 = some r) : (l.foldl f b).1 = some r := by
  induction l generalizing b with
  | nil => exact hb
  | cons a l ih => exact ih ((congrArg Prod.fst (h b a hb)).trans hb)

/-- A range with that line is read up to it. -/
theorem State.OneBad.readRange_bad {s : State} {v a n port ways : Nat} (h : s.OneBad v) (hin : inSaddle v = true) (hcls : s.classOf v = 0)
    (hv : v ∈ linesOf a n) : (s.readRange port ways a n noErrors).1 = some (v, .failedR) := by
  unfold State.readRange
  generalize linesOf a n = ls at hv
  induction ls generalizing s with
  | nil => cases hv
  | cons x ls ih =>
    rw [List.foldl_cons]
    dsimp only
    by_cases hx : x = v
    · subst hx
      obtain ⟨r, t, hr⟩ : ∃ r t, s.readLine port ways x noErrors = (r, t) := ⟨_, _, rfl⟩
      have hbad := h.readLine_bad hin hcls port ways
      rw [hr] at hbad
      obtain rfl : r = .failedR := hbad
      rw [hr]
      exact foldl_fst_of_stop _ (fun b y hb => by rw [hb]) ls rfl
    · obtain ⟨t, ht, hone⟩ := h.readLine_sound hx port ways
      have hcls' : t.classOf v = 0 := by
        obtain ⟨⟨m, k, o, r, c, p, d, ht'⟩, -⟩ := State.memStep_readLine s port ways x noErrors
        rw [ht] at ht'
        dsimp only at ht'
        rw [ht']
        exact hcls
      rw [ht]
      exact ih hone hcls' ((List.mem_cons.mp hv).resolve_left (Ne.symm hx))

end Sys2Proof.Machine
end

