-- ==== Sys2Proof/Proofs/DetectionLists.lean ====
section
/-! PROOFS. The detection-list clause of the tracking steps fails (R292, R375, R391). -/
namespace Sys2Proof.Machine
open Sys2Proof

/-! ### Recomputation leaves slots that are not bound as they are (R394) -/

theorem State.discardWork_slots_of_idle {s : State} (hqueue : s.skv.queue = []) (hunits : ∀ n, (s.skvUnit n).job = none) (c : Nat) :
    (s.discardWork c).slots = s.slots := by
  unfold State.discardWork
  extract_lets mine skv queued released jobless stc called callless
  have hreleased : released = queued := by
    have hmine : mine = [] := by rw [show mine = s.skv.queue.filter (fun j => j.ctx == c) from rfl, hqueue]; rfl
    rw [show released = mine.foldl State.skvRelease queued from rfl, hmine, List.foldl_nil]
  have hjobless : jobless = released := List.foldl_fixed' (fun n => by
    have hn : (released.skvUnit n).job = none := by rw [hreleased]; exact hunits n
    rw [hn]) _
  clear_value jobless
  have hcalls : callless.slots = called.slots := foldl_keeps State.slots _ (fun t n => by
    split
    · split <;> rfl
    · rfl) _ _
  calc callless.slots = called.slots := hcalls
    _ = jobless.slots := rfl
    _ = s.slots := by rw [hjobless, hreleased]

theorem State.wipePartition_slots (s : State) (x : Ctx) : (s.wipePartition x).slots = s.slots := by
  unfold State.wipePartition
  refine (foldl_keeps State.slots _ (fun t a => ?_) _ _).trans (foldl_keeps State.slots _ (fun t a => ?_) _ _)
  all_goals rfl

theorem State.startClusters_slots (s : State) (c : Nat) (x : Ctx) (d : ImageDecl) : (s.startClusters c x d).slots = s.slots := by
  unfold State.startClusters
  refine (foldl_keeps State.slots _ (fun t a => ?_) _ _).trans (foldl_keeps State.slots _ (fun t a => ?_) _ _)
  all_goals rfl

theorem State.startCores_slots (s : State) (c : Nat) (x : Ctx) (d : ImageDecl) : (s.startCores c x d).slots = s.slots := by
  refine foldl_keeps State.slots _ (fun t j => ?_) _ _
  split <;> rfl

theorem State.startPartition_slots (s : State) (c : Nat) : (s.startPartition c).slots = s.slots := by
  unfold State.startPartition
  dsimp only
  split
  · rfl
  · rw [State.modCtx_slots, State.startCores_slots, State.startClusters_slots, State.wipePartition_slots]

theorem State.recompute_slots_of_unbound {s : State} {c : Nat} {d : ImageDecl} (hdecl : (s.ctx c).decl = some d) (hrecompute : d.recompute = true)
    (hbound : s.boundSlots c = []) (hrerun : (s.ctxRun c).rerun = []) (hqueue : s.skv.queue = []) (hunits : ∀ n, (s.skvUnit n).job = none) (unit m line : Nat) :
    (s.recompute c unit m line).slots = s.slots := by
  obtain ⟨u, hu⟩ : ∃ u, u = s.raise { code := fltIntRecompute, ctx := c, unit := unit, detail := m, addr := line } := ⟨_, rfl⟩
  obtain ⟨o, r, l, b, e, hframe⟩ := s.raise_frame { code := fltIntRecompute, ctx := c, unit := unit, detail := m, addr := line }
  rw [← hu] at hframe
  have hx : u.ctx c = s.ctx c := by rw [hframe]; rfl
  have hrun : u.ctxRun c = s.ctxRun c := by rw [hframe]; rfl
  have hslots : u.slots = s.slots := by rw [hframe]
  have hwork : (u.discardWork c).slots = u.slots := State.discardWork_slots_of_idle (by rw [hframe]; exact hqueue) (by rw [hframe]; exact hunits) c
  have hnone : u.boundSlots c = [] := by rw [State.boundSlots, hslots]; exact hbound
  unfold State.recompute
  dsimp only
  rw [← hu, hx, hdecl, hrun, hrerun]
  dsimp only
  have hunbound : ∀ v : State, v.slots = u.slots → v.boundSlots c = [] := fun v hv => by rw [State.boundSlots, hv]; exact hnone
  rw [if_neg (by rw [hrecompute]; decide), if_neg (by decide), hunbound (u.discardWork c) hwork, List.foldl_nil, State.startPartition_slots,
    State.modRun_slots, hwork, hslots]

theorem State.trackDetections_classR {s t : State} {n c l : Nat} {e : ReadErrors} {p : Pic} (hfront : s.frontAt n .predicted = some p) (hdet : p.cfg.det = some c)
    (hread : s.readList c p.trk.detMax e = (.failed l .failedR, t)) : s.trackDetections n e = t.recompute c 39 (t.memCode l) l := by
  rw [State.trackDetections, hfront]
  dsimp only
  rw [hdet]
  dsimp only
  rw [hread]

/-- A list whose first lines are read and of which another line then fails. -/
theorem State.readList_failed {s t : State} {c m la k : Nat} {q : Nat × LineRes} {d : ImageDecl} {e : ReadErrors} (hdecl : (s.ctx c).decl = some d)
    (htrans : (s.ctx c).translate d.detList = some la)
    (hhead : s.extOk c false ((d.detList : Nat), ((d.detList + 32 : Nat) : Int)) = true)
    (hfirst : s.readRange 39 (s.portWays 39) la 32 e = (none, t)) (hk : min (leNat (t.seen la 4)) m = k)
    (hwhole : s.extOk c false ((d.detList : Nat), ((d.detList + (32 + 32 * k) : Nat) : Int)) = true)
    (hsecond : (t.readRange 39 (t.portWays 39) la (32 + 32 * k) noErrors).1 = some q) :
    s.readList c m e = (.failed q.1 q.2, (t.readRange 39 (t.portWays 39) la (32 + 32 * k) noErrors).2) := by
  obtain ⟨x, u, hx⟩ : ∃ x u, t.readRange 39 (t.portWays 39) la (32 + 32 * k) noErrors = (x, u) := ⟨_, _, rfl⟩
  rw [hx] at hsecond ⊢
  obtain rfl : x = some q := hsecond
  unfold State.readList
  dsimp only
  rw [hdecl]
  dsimp only [Option.map_some, Option.getD_some]
  rw [htrans]
  dsimp only
  have hnot : ∀ {b : Bool}, b = true → ¬ (!b) = true := fun hb => by rw [hb]; decide
  rw [if_neg (hnot hhead), hfirst]
  dsimp only
  rw [hk, if_neg (hnot hwhole), hx]

/-! ### The counterexample

The table of cached lines lists the line 0x400000 twice: first as absent, which is what a lookup finds, and once more as dirty and bad. The line
is free of faults as far as `lineFails`, `cacheBad` and `entryOf` can tell; but the first line of the list that is read, of the same slice and
set, evicts the hidden entry, whose write-back makes the line fail before the list's end reaches it. -/

/-- The line that is listed twice. -/
def hiddenLine : Nat := 0x400000

/-- An image whose detection list stands at 64, recomputed after a fault. -/
def hiddenDecl : ImageDecl := ⟨[], [], [], [], [], none, 0, true, [], ⟨1, 0, 64, 0, 4, 0, 0, 5, 1⟩, 64, true⟩

/-- A good picture of a detector on context 1, which looks at 131,072 entries. -/
def hiddenPic : Pic := { dec := 0, pts := 0, handle := none, skived := true, cfg := { bound := [1], track := { detMax := 131072 } } }

/-- Slot 3 awaits its list of 131,072 entries, which begins at 64 and ends 96 B beyond the hidden line. -/
def hiddenState : State := { State.reset with
  clk := { running := true, pllLock := true }, pci := { ready := true, saddleReady := true }, boot := { stage := 9 }, pair := { failOut := false }
  slots := [(3, { pics := [hiddenPic], trk := { stage := .predicted } })]
  ctxs := [(1, { st := .resident, res := 7, decl := some hiddenDecl })]
  tkp := { pages := (upto 0 65).map (fun p => (p, { st := .held, holder := 7 })) }
  mem := { bytes := [(66, 2#8)], ports := [(39, { ways := 1 })]
           cache := [(hiddenLine, none), (hiddenLine, some { way := 0, dirty := true, use := 0, bad := true })] } }

/-- What reading the list's first line leaves. -/
def hiddenRead : State := (hiddenState.readRange 39 (hiddenState.portWays 39) 64 32 noErrors).2

theorem hiddenState_ready : hiddenState.ready = true := by decide +kernel

theorem hiddenState_frontAt : hiddenState.frontAt 3 .predicted = some hiddenPic := by decide +kernel

theorem hiddenState_sound (l : Nat) : hiddenState.lineFails l = false ∧ hiddenState.cacheBad l = false ∧ hiddenState.entryOf l = none := by
  refine ⟨rfl, ?_, rfl⟩
  rw [State.cacheBad, hiddenState, tget]
  split
  · rfl
  · rename_i hl
    rw [tget, if_neg hl]
    rfl

theorem hiddenState_translate : (hiddenState.ctx 1).translate 64 = some 64 := by decide +kernel

theorem hiddenState_head : hiddenState.extOk 1 false (((64 : Nat) : Int), ((64 + 32 : Nat) : Int)) = true := by decide +kernel

theorem hiddenState_whole : hiddenState.extOk 1 false (((64 : Nat) : Int), ((64 + (32 + 32 * 131072) : Nat) : Int)) = true := by decide +kernel

theorem hiddenState_count : leNat (hiddenState.seen 64 4) = 131072 := by decide +kernel

theorem hiddenState_first : (hiddenState.readRange 39 (hiddenState.portWays 39) 64 32 noErrors).1 = none := by decide +kernel

theorem hiddenRead_count : leNat (hiddenRead.seen 64 4) = 131072 := by decide +kernel

theorem hiddenRead_mem : hiddenRead.mem.failing = [(hiddenLine, true)] ∧ hiddenRead.mem.cache = [(64, some { way := 0, dirty := false, use := 0 })] ∧
    hiddenRead.mem.chans.map (fun c => c.2.merges) = [[]] := by decide +kernel

theorem entryOf_of_no_merges {s : State} (h : ∀ p ∈ s.mem.chans, p.2.merges = []) (l : Nat) : s.entryOf l = none := by
  have hmerges : (s.chan (chanOf l)).merges = [] := by
    by_cases hd : s.chan (chanOf l) = {}
    · rw [hd]
    · exact h _ (mem_of_tget_ne hd)
  rw [State.entryOf, hmerges]
  rfl

theorem hiddenRead_oneBad : hiddenRead.OneBad hiddenLine := by
  obtain ⟨hfailing, hcache, hchans⟩ := hiddenRead_mem
  refine ⟨fun l => ?_, entryOf_of_no_merges fun p hp => ?_, fun p hp => ?_⟩
  · rw [State.lineFails, hfailing, tget]
    split
    · rename_i hl
      exact (decide_eq_true hl).symm
    · rename_i hl
      exact (decide_eq_false hl).symm
  · have hmem := List.mem_map_of_mem (f := fun c : Nat × DramChan => c.2.merges) hp
    rw [hchans] at hmem
    exact List.mem_singleton.mp hmem
  · rw [hcache] at hp
    obtain rfl := List.mem_singleton.mp hp
    exact ⟨by decide, fun c hc => by rw [← Option.some.inj hc]⟩

theorem hiddenState_whole_min : hiddenState.extOk 1 false (((64 : Nat) : Int),
    ((64 + (32 + 32 * min (leNat (hiddenState.seen 64 4)) hiddenPic.cfg.track.detMax) : Nat) : Int)) = true := by
  rw [hiddenState_count, show hiddenPic.cfg.track.detMax = 131072 from rfl, Nat.min_self]
  exact hiddenState_whole

theorem hiddenRead_memStep : hiddenState.MemStep hiddenRead := State.memStep_readRange _ _ _ _ _ _

theorem hiddenLine_mem : hiddenLine ∈ linesOf 64 (32 + 32 * 131072) := by
  have hlen : lineLen 64 = 64 := by decide
  rw [linesOf, hlen]
  rw [if_neg (by decide)]
  exact List.mem_map.mpr ⟨65536, mem_upto_iff.mpr ⟨by decide, by decide⟩, rfl⟩

theorem hiddenState_readList : ∃ t, hiddenState.MemStep t ∧ hiddenState.readList 1 hiddenPic.trk.detMax noErrors = (.failed hiddenLine .failedR, t) := by
  have hcls : hiddenRead.classOf hiddenLine = 0 := by decide +kernel
  refine ⟨_, hiddenRead_memStep.trans (State.memStep_readRange _ _ _ _ _ _), State.readList_failed (d := hiddenDecl) (q := (hiddenLine, .failedR)) rfl
    hiddenState_translate hiddenState_head (Prod.ext hiddenState_first rfl) ?_ hiddenState_whole
    (hiddenRead_oneBad.readRange_bad (by decide) hcls hiddenLine_mem)⟩
  show min (leNat (hiddenRead.seen 64 4)) hiddenPic.trk.detMax = 131072
  rw [hiddenRead_count]
  exact Nat.min_self _

theorem stage_of_reaches {c : Instr} {s t : State} {n : Nat} {st : TrkStage} {Q : State → Prop} (h : Answers c s t)
    (hr : Reaches c s (fun u => (u.slot n).trk.stage = st ∧ Q u)) : (t.slot n).trk.stage = st := by
  obtain ⟨u, hexec, hstage, -⟩ := hr
  obtain rfl := Host.Outcome.next.inj (hexec.symm.trans h)
  exact hstage

/-- The failure restarts the detector; the slot's tracking waits on. -/
theorem hiddenState_result : (((hiddenState.trackDetections 3 noErrors).slot 3).trk.stage = .predicted) := by
  obtain ⟨t, ⟨⟨m, k, o, r, c, p, d, rfl⟩, -⟩, hread⟩ := hiddenState_readList
  rw [State.trackDetections_classR hiddenState_frontAt rfl hread, State.slot,
    State.recompute_slots_of_unbound (d := hiddenDecl) rfl rfl rfl rfl rfl (fun _ => rfl)]
  rfl

end Sys2Proof.Machine

namespace Sys2Proof.Proofs
open Sys2Proof.Machine

/-- Refutes O37: in `hiddenState` every line is sound, and yet the list's last line fails, so that its detections are not taken. -/
theorem not_trackingSteps : ¬ Obligations.TrackingSteps := by
  unfold Obligations.TrackingSteps
  intro h
  obtain ⟨-, -, hlist, -⟩ := h hiddenState 3 hiddenState_ready
  obtain ⟨-, -, hdetected⟩ := hlist noErrors hiddenPic 1 hiddenState_frontAt rfl
  have hreach := hdetected 64 hiddenState_translate hiddenState_sound rfl rfl hiddenState_head hiddenState_whole_min
  have hstage := stage_of_reaches (answers_whenReady rfl hiddenState_ready) hreach
  rw [hiddenState_result] at hstage
  cases hstage

end Sys2Proof.Proofs

end

