-- ==== Sys2Proof/Proofs/NarrationRequests.lean ====
section
/-! PROOFS. Narration requests: the longest token, openings, refusals and cancels (R320 to R325, R330). -/
namespace Sys2Proof.Machine
open Sys2Proof

/-! ### The longest token (R322) -/

/-- A token that a text begins with. -/
def Begins (text t : List Byte) : Prop := t ≠ [] ∧ t.isPrefixOf text = true

/-- What a search for the longest token does with one entry of the table. -/
def betterToken (text : List Byte) (best : Option (Nat × Nat)) (t : Nat × List Byte) : Option (Nat × Nat) :=
  if t.2.isEmpty || !(t.2.isPrefixOf text) then best
  else match best with
    | some b => if b.2 < t.2.length then some (t.1, t.2.length) else best
    | none => some (t.1, t.2.length)

section
variable {text u : List Byte} {best : Option (Nat × Nat)} {k : Nat}

theorem betterToken_skip (h : ¬ Begins text u) : betterToken text best (k, u) = best := by
  refine if_pos ?_
  rw [Bool.or_eq_true, List.isEmpty_iff, Bool.not_eq_true']
  by_contra hno
  rw [not_or, Bool.not_eq_false] at hno
  exact h hno

theorem betterToken_take (h : Begins text u) (hbest : ∀ b, best = some b → b.2 < u.length) : betterToken text best (k, u) = some (k, u.length) := by
  obtain ⟨hne, hpre⟩ := h
  refine (if_neg ?_).trans ?_
  · rw [Bool.or_eq_true, List.isEmpty_iff, Bool.not_eq_true', hpre]
    rintro (h | h)
    · exact hne h
    · cases h
  · cases best with
    | none => rfl
    | some b => exact if_pos (hbest b rfl)

theorem betterToken_keep {b : Nat × Nat} (hb : u.length ≤ b.2) : betterToken text (some b) (k, u) = some b := by
  unfold betterToken
  split
  · rfl
  · exact if_neg (Nat.not_lt.mpr hb)

/-- The search goes on from the best token so far, or ends at the first of the longest tokens that the rest of the table holds. -/
theorem foldl_betterToken {table : List (List Byte)} {id n : Nat} (h : ((upto k table.length).zip table).foldl (betterToken text) best = some (id, n)) :
    (best = some (id, n) ∧ ∀ (j : Nat) u, table[j]? = some u → Begins text u → u.length ≤ n) ∨
    (∃ i t, id = k + i ∧ table[i]? = some t ∧ Begins text t ∧ n = t.length ∧ (∀ b, best = some b → b.2 < n) ∧
      ∀ (j : Nat) u, table[j]? = some u → Begins text u → u.length ≤ n ∧ (u.length = n → i ≤ j)) := by
  induction table generalizing k best with
  | nil => exact Or.inl ⟨h, fun j u hu => by cases hu⟩
  | cons v table ih =>
    replace h : ((upto (k + 1) table.length).zip table).foldl (betterToken text) (betterToken text best (k, v)) = some (id, n) := h
    by_cases htake : Begins text v ∧ ∀ b, best = some b → b.2 < v.length
    · obtain ⟨hv, hbest⟩ := htake
      rw [betterToken_take hv hbest] at h
      right
      rcases ih h with ⟨heq, hrest⟩ | ⟨i, t, rfl, ht, hbegin, rfl, hlonger, hrest⟩
      · obtain ⟨rfl, rfl⟩ := Prod.mk.inj (Option.some.inj heq)
        refine ⟨0, v, rfl, rfl, hv, rfl, hbest, fun j u hu hub => ?_⟩
        cases j with
        | zero => obtain rfl := Option.some.inj hu; exact ⟨le_rfl, fun _ => le_rfl⟩
        | succ j => exact ⟨hrest j u hu hub, fun _ => Nat.zero_le _⟩
      · have hlt : v.length < t.length := hlonger _ rfl
        refine ⟨i + 1, t, by omega, ht, hbegin, rfl, fun b hb => lt_trans (hbest b hb) hlt, fun j u hu hub => ?_⟩
        cases j with
        | zero => obtain rfl := Option.some.inj hu; exact ⟨hlt.le, fun heq => absurd heq hlt.ne⟩
        | succ j =>
          obtain ⟨hle, hfirst⟩ := hrest j u hu hub
          exact ⟨hle, fun heq => Nat.succ_le_succ (hfirst heq)⟩
    · have hkeep : betterToken text best (k, v) = best := by
        by_cases hv : Begins text v
        · obtain ⟨b, rfl, hb⟩ : ∃ b, best = some b ∧ v.length ≤ b.2 := by
            by_contra hno
            exact htake ⟨hv, fun b hb => Nat.lt_of_not_le fun hle => hno ⟨b, hb, hle⟩⟩
          exact betterToken_keep hb
        · exact betterToken_skip hv
      rw [hkeep] at h
      have hhead : ∀ m, (∀ b, best = some b → b.2 ≤ m) → Begins text v → v.length ≤ m ∧ ((∀ b, best = some b → b.2 < m) → v.length ≠ m) := fun m hm hv => by
        obtain ⟨b, hb, hle⟩ : ∃ b, best = some b ∧ v.length ≤ b.2 := by
          by_contra hno
          exact htake ⟨hv, fun b hb => Nat.lt_of_not_le fun hle => hno ⟨b, hb, hle⟩⟩
        exact ⟨hle.trans (hm b hb), fun hlt => (lt_of_le_of_lt hle (hlt b hb)).ne⟩
      rcases ih h with ⟨rfl, hrest⟩ | ⟨i, t, rfl, ht, hbegin, rfl, hlonger, hrest⟩
      · refine Or.inl ⟨rfl, fun j u hu hub => ?_⟩
        cases j with
        | zero =>
          obtain rfl := Option.some.inj hu
          exact (hhead n (fun b hb => by rw [← Option.some.inj hb]) hub).1
        | succ j => exact hrest j u hu hub
      · refine Or.inr ⟨i + 1, t, by omega, ht, hbegin, rfl, hlonger, fun j u hu hub => ?_⟩
        cases j with
        | zero =>
          obtain rfl := Option.some.inj hu
          obtain ⟨hle, hne⟩ := hhead t.length (fun b hb => (hlonger b hb).le) hub
          exact ⟨hle, fun heq => absurd heq (hne hlonger)⟩
        | succ j =>
          obtain ⟨hle, hfirst⟩ := hrest j u hu hub
          exact ⟨hle, fun heq => Nat.succ_le_succ (hfirst heq)⟩

end

theorem longestToken_spec {table : List (List Byte)} {text : List Byte} {id n : Nat} (h : longestToken table text = some (id, n)) :
    ∃ t, table[id]? = some t ∧ t ≠ [] ∧ t.isPrefixOf text = true ∧ n = t.length ∧
      ∀ (j : Nat) u, table[j]? = some u → u ≠ [] → u.isPrefixOf text = true → u.length ≤ n ∧ (u.length = n → id ≤ j) := by
  rcases foldl_betterToken (k := 0) (best := none) h with ⟨hnone, -⟩ | ⟨i, t, rfl, ht, ⟨hne, hpre⟩, rfl, -, hrest⟩
  · cases hnone
  · rw [Nat.zero_add]
    exact ⟨t, ht, hne, hpre, rfl, fun j u hu hune hupre => hrest j u hu ⟨hune, hupre⟩⟩

/-! ### Requests -/

section
variable {s : State} {req : NarrReq} {c : Nat} {d : NarratorDecl} {p : Pic}

theorem State.narrAsk_unloaded (h : s.narr.ctx = none) : s.narrAsk req = (fltNarBusy, s.narrRefuse req 2 fltNarBusy) := by
  rw [State.narrAsk, h]

theorem State.narrOpen_ok {w : NarrWait} {num : Nat} (hnum : lowestFree 64 (s.narr.sessions.map (·.num)) = some num) (hok : NarratorDecl.promptOk d w.req = true) :
    s.narrOpen d w = (0, (s.narrSession d w num).narrEntry w.req 0 num) := by
  rw [State.narrOpen, hnum]
  exact if_neg (by rw [hok]; decide)

theorem State.narrOpen_refused {w : NarrWait} {num : Nat} (hnum : lowestFree 64 (s.narr.sessions.map (·.num)) = some num)
    (hno : NarratorDecl.promptOk d w.req = false) : s.narrOpen d w = (fltNarPrompt, s.narrRefuse w.req 3 fltNarPrompt) := by
  rw [State.narrOpen, hnum]
  exact if_pos (by rw [hno]; rfl)

section
variable (hctx : s.narr.ctx = some c) (hdecl : s.narrDecl = some d)
include hctx hdecl

theorem State.narrAsk_shed (h : s.narr.shed = true) : s.narrAsk req = (fltNarShed, s.narrRefuse req 4 fltNarShed) := by
  rw [State.narrAsk, hctx, hdecl]
  exact if_pos h

theorem State.narrAsk_gone (h : s.narr.shed = false) (hpic : s.heldPic req.slot req.picture = none) :
    s.narrAsk req = (fltNarPicture, s.narrRefuse req 5 fltNarPicture) := by
  rw [State.narrAsk, hctx, hdecl]
  dsimp only
  rw [h, hpic, if_neg Bool.false_ne_true]

/-- The crop buffer of a request's picture. -/
def State.narrBuf (s : State) : Nat := (lowestFree 96 (s.narr.sessions.map (·.buf) ++ s.narr.queue.map (·.buf))).getD 0

section
variable (h : s.narr.shed = false) (hpic : s.heldPic req.slot req.picture = some p)
include h hpic

theorem State.narrAsk_room (hroom : s.narr.sessions.length < 64) : s.narrAsk req =
    (if (s.narrOpen d ⟨req, p.pts, p.marks, s.narrBuf⟩).1 = 0 then (0, (s.narrOpen d ⟨req, p.pts, p.marks, s.narrBuf⟩).2.narrCrop c req p s.narrBuf)
      else s.narrOpen d ⟨req, p.pts, p.marks, s.narrBuf⟩) := by
  rw [State.narrAsk, hctx, hdecl]
  dsimp only
  rw [h, hpic, if_neg Bool.false_ne_true]
  exact if_pos hroom

section
variable (hroom : s.narr.sessions.length < 64) {num : Nat} (hnum : lowestFree 64 (s.narr.sessions.map (·.num)) = some num)
include hroom hnum

theorem State.narrAsk_opened (hok : NarratorDecl.promptOk d req = true) : s.narrAsk req =
    (0, ((s.narrSession d ⟨req, p.pts, p.marks, s.narrBuf⟩ num).narrEntry req 0 num).narrCrop c req p s.narrBuf) := by
  rw [State.narrAsk_room hctx hdecl h hpic hroom, State.narrOpen_ok hnum hok]
  dsimp only
  rw [if_pos rfl]

theorem State.narrAsk_prompt (hno : NarratorDecl.promptOk d req = false) : s.narrAsk req = (fltNarPrompt, s.narrRefuse req 3 fltNarPrompt) := by
  rw [State.narrAsk_room hctx hdecl h hpic hroom, State.narrOpen_refused hnum hno]
  dsimp only
  rw [if_neg (by decide)]

end

theorem State.narrAsk_queued (hfull : 64 ≤ s.narr.sessions.length) (hroom : s.narr.queue.length < s.odNat 0x8300 2 32) : s.narrAsk req =
    (0, ((({ s with narr := { s.narr with queue := s.narr.queue ++ [⟨req, p.pts, p.marks, s.narrBuf⟩] } } : State).narrMirror).narrEntry req 1 0xFF).narrCrop c req p s.narrBuf) := by
  rw [State.narrAsk, hctx, hdecl]
  dsimp only
  rw [h, hpic, if_neg Bool.false_ne_true]
  exact (if_neg (Nat.not_lt.mpr hfull)).trans (if_pos hroom)

theorem State.narrAsk_full (hfull : 64 ≤ s.narr.sessions.length) (hqueue : s.odNat 0x8300 2 32 ≤ s.narr.queue.length) :
    s.narrAsk req = (fltNarBusy, s.narrRefuse req 2 fltNarBusy) := by
  rw [State.narrAsk, hctx, hdecl]
  dsimp only
  rw [h, hpic, if_neg Bool.false_ne_true]
  exact (if_neg (Nat.not_lt.mpr hfull)).trans (if_neg (Nat.not_lt.mpr hqueue))

end

end

theorem answers_narrationRequest {t : State} {code : Nat} (hready : s.ready = true) (hhost : req.host = none) (h : s.narrAsk req = (code, t)) :
    Answers (.narrationRequest req) s t :=
  answers_congr (answers_whenReady rfl hready) (by rw [State.narrHost, hhost, h])

theorem State.narrHost_outside {route : OdRoute} (hhost : req.host = some route) (h : NarrReq.inRange req = false) :
    s.narrHost req = s.emit (.odReply route 0 3 []) := by
  rw [State.narrHost, hhost]
  exact if_pos (by rw [h]; rfl)

theorem State.narrHost_refused {route : OdRoute} {code : Nat} {t : State} (hhost : req.host = some route) (h : NarrReq.inRange req = true)
    (hask : s.narrAsk req = (code, t)) (hcode : code ≠ 0) : s.narrHost req = t.emit (.odReply route 0 9 (leBytes 2 code)) := by
  rw [State.narrHost, hhost]
  dsimp only
  rw [if_neg (by rw [h]; decide), hask, Reply.send]
  dsimp only
  rw [if_neg hcode]
  rfl

end

end Sys2Proof.Machine

namespace Sys2Proof.Proofs
open Sys2Proof.Machine

/-- Settles O38. -/
theorem narrationRequests : Obligations.NarrationRequests := by
  unfold Obligations.NarrationRequests
  refine ⟨fun table text id n => longestToken_spec, fun s req hready hhost => ⟨fun hctx => ?_, fun c d hctx hdecl => ⟨fun hshed => ?_, fun hshed hpic => ?_, fun p hshed hpic => ?_⟩,
    fun route => ⟨fun hout => ?_, fun hctx hin => ?_⟩, fun num hrun => ?_, fun num hrun => ?_⟩⟩
  · exact answers_narrationRequest hready hhost (State.narrAsk_unloaded hctx)
  · exact answers_narrationRequest hready hhost (State.narrAsk_shed hctx hdecl hshed)
  · exact answers_narrationRequest hready hhost (State.narrAsk_gone hctx hdecl hshed hpic)
  · intro buf w
    refine ⟨fun num hroom hnum => ⟨fun hok => ?_, fun hno => ?_⟩, fun hfull hroom => ?_, fun hfull hqueue => ?_⟩
    · exact answers_narrationRequest hready hhost (State.narrAsk_opened hctx hdecl hshed hpic hroom hnum hok)
    · exact answers_narrationRequest hready hhost (State.narrAsk_prompt hctx hdecl hshed hpic hroom hnum hno)
    · exact answers_narrationRequest hready hhost (State.narrAsk_queued hctx hdecl hshed hpic hfull hroom)
    · exact answers_narrationRequest hready hhost (State.narrAsk_full hctx hdecl hshed hpic hfull hqueue)
  · exact answers_congr (answers_whenReady rfl hready) (State.narrHost_outside rfl hout)
  · exact answers_congr (answers_whenReady rfl hready) (State.narrHost_refused rfl hin (State.narrAsk_unloaded hctx) (by decide))
  · exact answers_congr (answers_whenReady rfl hready) (if_pos hrun)
  · exact answers_congr (answers_whenReady rfl hready) (if_neg (by rw [hrun]; decide))

end Sys2Proof.Proofs

end

