-- ==== Sys2Proof/Proofs/TokenSampling.lean ====
section
/-! PROOFS. Sampling to the bit: the order of logits, the weight table, the choice of a token, captions' text (R331, R334). -/
namespace Sys2Proof.Machine
open Sys2Proof

/-! ### The order of logits -/

/-- The value of a finite float. -/
def finValue (neg : Bool) (m : Nat) (e : Int) : ℚ := (if neg then -(m : ℚ) else m) * 2 ^ e

/-- Where a float stands in the order of logits: a NaN below −∞. -/
def FV.place : FV → ℤ ×ₗ ℚ
  | .nan => toLex (-2, 0)
  | .inf true => toLex (-1, 0)
  | .inf false => toLex (1, 0)
  | .fin neg m e => toLex (0, finValue neg m e)

theorem finValue_eq_sigAt {neg : Bool} {m : Nat} {e k : Int} (h : k ≤ e) : finValue neg m e = (sigAt neg m e k : ℚ) * 2 ^ k := by
  have hpow : (2 : ℚ) ^ e = 2 ^ (e - k).toNat * 2 ^ k := by
    rw [← zpow_natCast, ← zpow_add₀ two_ne_zero, Int.toNat_of_nonneg (by omega), Int.sub_add_cancel]
  rw [finValue, hpow, sigAt, Nat.shiftLeft_eq, ← mul_assoc]
  cases neg <;> simp

theorem fvLt_fin_iff {a b : Bool} {m n : Nat} {e k : Int} : fvLt (.fin a m e) (.fin b n k) = true ↔ finValue a m e < finValue b n k := by
  have hpos : (0 : ℚ) < 2 ^ min e k := by positivity
  rw [finValue_eq_sigAt (min_le_left e k), finValue_eq_sigAt (min_le_right e k), mul_lt_mul_iff_left₀ hpos, Int.cast_lt]
  exact decide_eq_true_iff

theorem fvLt_iff {a b : FV} (ha : fvIsNan a = false) (hb : fvIsNan b = false) : fvLt a b = true ↔ a.place < b.place := by
  cases a with
  | nan => cases ha
  | inf na =>
    cases b with
    | nan => cases hb
    | inf nb => cases na <;> cases nb <;> simp [fvLt, FV.place, Prod.Lex.toLex_lt_toLex]
    | fin nb n k => cases na <;> simp [fvLt, FV.place, Prod.Lex.toLex_lt_toLex]
  | fin na m e =>
    cases b with
    | nan => cases hb
    | inf nb => cases nb <;> simp [fvLt, FV.place, Prod.Lex.toLex_lt_toLex]
    | fin nb n k => rw [fvLt_fin_iff, FV.place, FV.place, Prod.Lex.toLex_lt_toLex]; simp

theorem FV.place_nan_lt {a : FV} (h : fvIsNan a = false) : FV.place .nan < a.place := by
  cases a with
  | nan => cases h
  | inf n => cases n <;> simp [FV.place, Prod.Lex.toLex_lt_toLex]
  | fin n m e => simp [FV.place, Prod.Lex.toLex_lt_toLex]

/-- Where a logit stands. -/
def logitPlace (w : Word) : ℤ ×ₗ ℚ := (fdec f32 w.toNat).place

theorem eq_nan_of_fvIsNan {a : FV} (h : fvIsNan a = true) : a = .nan := by
  cases a with
  | nan => rfl
  | inf n => cases h
  | fin n m e => cases h

theorem logitAbove_iff (a b : Word) : logitAbove a b = true ↔ logitPlace b < logitPlace a := by
  have hsplit : ∀ w : Word, (fIsNan f32 w.toNat = true ∧ logitPlace w = FV.place .nan) ∨ fvIsNan (fdec f32 w.toNat) = false := fun w => by
    cases h : fvIsNan (fdec f32 w.toNat) with
    | false => exact Or.inr rfl
    | true => exact Or.inl ⟨h, by rw [logitPlace, eq_nan_of_fvIsNan h]⟩
  rcases hsplit a with ⟨hna, hpa⟩ | ha <;> rcases hsplit b with ⟨hnb, hpb⟩ | hb
  · rw [logitAbove, if_pos hnb, hna, hpa, hpb]
    exact iff_of_false Bool.false_ne_true (lt_irrefl _)
  · rw [logitAbove, if_neg (c := fIsNan f32 b.toNat = true) (Bool.eq_false_iff.mp hb), hna, hpa]
    exact iff_of_false Bool.false_ne_true (FV.place_nan_lt hb).le.not_gt
  · rw [logitAbove, if_pos hnb, show fIsNan f32 a.toNat = false from ha, hpb]
    exact iff_of_true rfl (FV.place_nan_lt ha)
  · rw [logitAbove, if_neg (c := fIsNan f32 b.toNat = true) (Bool.eq_false_iff.mp hb), show fIsNan f32 a.toNat = false from ha]
    exact fvLt_iff hb ha

theorem logitAbove_eq_false_iff (a b : Word) : logitAbove a b = false ↔ logitPlace a ≤ logitPlace b := by
  rw [← not_lt, ← logitAbove_iff, Bool.not_eq_true]

/-- The best of the IDs: above all before it, and none after it is above it. -/
theorem bestId_spec {xs : List (Nat × Word)} {b : Nat × Word} (h : bestId xs = some b) : ∃ before after, xs = before ++ b :: after ∧
    (∀ x ∈ before, logitAbove b.2 x.2 = true) ∧ (∀ x ∈ after, logitAbove x.2 b.2 = false) := by
  induction xs generalizing b with
  | nil => cases h
  | cons x t ih =>
    rw [bestId] at h
    cases hbest : bestId t with
    | none =>
      rw [hbest] at h
      obtain rfl := Option.some.inj h
      have ht : t = [] := by
        cases t with
        | nil => rfl
        | cons y u =>
          rw [bestId] at hbest
          split at hbest
          · cases hbest
          · split at hbest <;> cases hbest
      exact ⟨[], t, rfl, nofun, by rw [ht]; exact nofun⟩
    | some y =>
      obtain ⟨before, after, rfl, hbefore, hafter⟩ := ih hbest
      rw [hbest] at h
      dsimp only at h
      split at h
      · rename_i habove
        obtain rfl := Option.some.inj h
        refine ⟨x :: before, after, rfl, fun z hz => ?_, hafter⟩
        rcases List.mem_cons.mp hz with rfl | hz
        · exact habove
        · exact hbefore z hz
      · rename_i habove
        obtain rfl := Option.some.inj h
        have hle : logitPlace y.2 ≤ logitPlace x.2 := (logitAbove_eq_false_iff _ _).mp (Bool.eq_false_of_not_eq_true habove)
        refine ⟨[], before ++ y :: after, rfl, nofun, fun z hz => (logitAbove_eq_false_iff _ _).mpr ?_⟩
        rcases List.mem_append.mp hz with hz | hz
        · exact ((logitAbove_iff _ _).mp (hbefore z hz)).le.trans hle
        · rcases List.mem_cons.mp hz with rfl | hz
          · exact hle
          · exact ((logitAbove_eq_false_iff _ _).mp (hafter z hz)).trans hle

theorem logitAbove_nan {a b : Word} (h : fIsNan f32 a.toNat = true) : logitAbove a b = false := by
  rw [logitAbove, h]
  split <;> simp

theorem bestId_not_nan {xs : List (Nat × Word)} {b : Nat × Word} (h : bestId xs = some b) (hx : ∃ x ∈ xs, fIsNan f32 x.2.toNat = false) :
    fIsNan f32 b.2.toNat = false := by
  obtain ⟨before, after, rfl, hbefore, hafter⟩ := bestId_spec h
  obtain ⟨x, hx, hnum⟩ := hx
  refine Bool.eq_false_of_not_eq_true fun hnan => ?_
  rcases List.mem_append.mp hx with hx | hx
  · have := hbefore x hx
    rw [logitAbove_nan hnan] at this
    cases this
  · rcases List.mem_cons.mp hx with rfl | hx
    · rw [hnan] at hnum
      cases hnum
    · have := hafter x hx
      rw [logitAbove, hnan, if_pos rfl, hnum] at this
      cases this

/-! ### The weight table -/

theorem lastTrue_spec {p : Nat → Bool} : ∀ {n r : Nat}, p r = true → p (r + 2 ^ n) = false → p (lastTrue p n r) = true ∧ p (lastTrue p n r + 1) = false
  | 0, _, hr, hlimit => ⟨hr, hlimit⟩
  | n + 1, r, hr, hlimit => by
    rw [lastTrue]
    split
    · rename_i h
      exact lastTrue_spec h (by rw [Nat.add_assoc, ← Nat.two_mul, ← Nat.pow_succ']; exact hlimit)
    · rename_i h
      exact lastTrue_spec hr (Bool.eq_false_of_not_eq_true h)

/-- EXP_TAB holds the nearest integers (R331). -/
theorem expTab_nearest (d : Nat) : (2 * expTab d - 1) ^ 64 ≤ 2 ^ (1088 - d) ∧ 2 ^ (1088 - d) < (2 * expTab d + 1) ^ 64 := by
  have hlimit : ¬ (2 * (0 + 2 ^ 17) < 1 ∨ (2 * (0 + 2 ^ 17) - 1) ^ 64 ≤ 2 ^ (1088 - d)) := by
    rintro (h | h)
    · omega
    · have hpow : 2 ^ (1088 - d) ≤ 2 ^ (17 * 64) := Nat.pow_le_pow_right (by decide) (by omega)
      have hbase : (2 ^ 17) ^ 64 < (2 * (0 + 2 ^ 17) - 1) ^ 64 := Nat.pow_lt_pow_left (by decide) (by decide)
      rw [← Nat.pow_mul] at hbase
      exact absurd (hbase.trans_le (h.trans hpow)) (lt_irrefl _)
  obtain ⟨hle, hgt⟩ := lastTrue_spec (p := fun n => decide (2 * n < 1 ∨ (2 * n - 1) ^ 64 ≤ 2 ^ (1088 - d))) (n := 17) (r := 0)
    (decide_eq_true (Or.inl (by decide))) (decide_eq_false hlimit)
  rw [← expTab] at hle hgt
  have hgt' := of_decide_eq_false hgt
  rw [not_or, Nat.not_le, show 2 * (expTab d + 1) - 1 = 2 * expTab d + 1 by omega] at hgt'
  refine ⟨(of_decide_eq_true hle).elim (fun h => ?_) id, hgt'.2⟩
  rw [show 2 * expTab d - 1 = 0 by omega]
  exact Nat.zero_le _

theorem logitDist_of_floor {top l inv e : Word} {i : Int} (he : wMul (wMul (wSub top l) inv) 0x42800000#32 = e) (h : fvFloor (fdec f32 e.toNat) = some i) (o : Nat) :
    logitDist top l inv o = (clampI i 0 1023).toNat := by
  unfold logitDist
  rw [he]
  dsimp only
  rw [h]

/-! ### The choice -/

theorem pickAt_mem {r acc last : Nat} {ws : List (Nat × Nat)} (hle : acc ≤ r) (hlt : r < acc + (ws.map (·.2)).sum) :
    ∃ w ∈ ws, pickAt r acc ws last = w.1 := by
  induction ws generalizing acc last with
  | nil =>
    rw [List.map_nil, List.sum_nil] at hlt
    omega
  | cons w ws ih =>
    obtain ⟨id, n⟩ := w
    rw [pickAt]
    split
    · exact ⟨_, List.mem_cons_self, rfl⟩
    · rename_i h
      rw [List.map_cons, List.sum_cons] at hlt
      obtain ⟨v, hv, hpick⟩ := ih (acc := acc + n) (last := id) (by omega) (by omega)
      exact ⟨v, List.mem_cons_of_mem _ hv, hpick⟩

theorem draw_lt {u total : Nat} (hu : u < 2 ^ 24) (ht : 0 < total) : (u * total) >>> 24 < total := by
  rw [Nat.shiftRight_eq_div_pow, Nat.div_lt_iff_lt_mul (by positivity), Nat.mul_comm total]
  exact Nat.mul_lt_mul_of_pos_right hu ht

theorem sum_pos_of_weights {ws : List (Nat × Nat)} (hne : ws ≠ []) (h : ∀ w ∈ ws, 1 ≤ w.2) : 0 < (ws.map (·.2)).sum := by
  cases ws with
  | nil => exact absurd rfl hne
  | cons w t =>
    rw [List.map_cons, List.sum_cons]
    have := h w List.mem_cons_self
    omega

/-! ### Captions' text (R334) -/

theorem cleanUtf8_length_le (bs : List Byte) : (cleanUtf8 bs).length ≤ 1024 := (List.length_take_le _ _)

theorem Utf8.next_ascii {out : List Byte} {b : Byte} (h : b.toNat < 0x80) : Utf8.next { out := out } b = { out := out ++ [b] } := by
  rw [Utf8.next, if_pos rfl, Utf8.start, utf8Lead, if_pos h]
  rfl

theorem foldl_next_ascii (bs out : List Byte) (h : ∀ b ∈ bs, b.toNat < 0x80) : bs.foldl Utf8.next { out := out } = { out := out ++ bs } := by
  induction bs generalizing out with
  | nil => rw [List.append_nil]; rfl
  | cons b t ih =>
    rw [List.foldl_cons, Utf8.next_ascii (h b List.mem_cons_self), ih _ (fun c hc => h c (List.mem_cons_of_mem _ hc)), List.append_assoc]
    rfl

theorem cleanUtf8_ascii {bs : List Byte} (h : ∀ b ∈ bs, b.toNat < 0x80) : cleanUtf8 bs = bs.take 1024 := by
  rw [cleanUtf8, foldl_next_ascii bs [] h]
  dsimp only
  rw [if_pos rfl, List.append_nil, List.nil_append]

end Sys2Proof.Machine
end

