-- ==== Sys2Proof/Proofs/StepBuilding.lean ====
section
/-! PROOFS. Building a Narrator step: its rows and its embedding (R323, R326). -/
namespace Sys2Proof.Machine
open Sys2Proof

theorem perm_insertLe {α : Type} (key : α → Nat) (x : α) (l : List α) : (sortBy.insertLe key x l).Perm (x :: l) := by
  induction l with
  | nil => exact .refl _
  | cons y t ih =>
    rw [sortBy.insertLe]
    split
    · exact .refl _
    · exact (ih.cons y).trans (.swap x y t)

theorem perm_sortBy {α : Type} (key : α → Nat) (l : List α) : (sortBy key l).Perm l := by
  induction l with
  | nil => exact .refl _
  | cons x t ih =>
    rw [sortBy_cons]
    exact (perm_insertLe key x _).trans (ih.cons x)

/-! ### Prefill rows -/

/-- The sessions in order, each with the rows that it puts into a step that has `left` more. -/
def prefillRows (d : NarratorDecl) : Nat → List Session → List Session
  | _, [] => []
  | left, x :: t => { x with inStep := min left (NarratorDecl.rows d x - x.pos) } :: prefillRows d (left - min left (NarratorDecl.rows d x - x.pos)) t

section
variable (d : NarratorDecl)

theorem foldl_stepRows (left : Nat) (pre acc : List Session) : (pre.foldl (fun (a : Nat × List Session) x =>
    ((stepRows d a.1 x).1, a.2 ++ [(stepRows d a.1 x).2])) (left, acc)).2 = acc ++ prefillRows d left pre := by
  induction pre generalizing left acc with
  | nil => exact (List.append_nil _).symm
  | cons x t ih =>
    rw [List.foldl_cons, ih, prefillRows, List.append_assoc]
    rfl

theorem map_num_prefillRows (left : Nat) (pre : List Session) : (prefillRows d left pre).map (·.num) = pre.map (·.num) := by
  induction pre generalizing left with
  | nil => rfl
  | cons x t ih => rw [prefillRows, List.map_cons, List.map_cons, ih]

theorem sum_prefillRows_le (left : Nat) (pre : List Session) : ((prefillRows d left pre).map (·.inStep)).sum ≤ left := by
  induction pre generalizing left with
  | nil => exact Nat.zero_le _
  | cons x t ih =>
    rw [prefillRows, List.map_cons, List.sum_cons]
    have := ih (left - min left (NarratorDecl.rows d x - x.pos))
    dsimp only
    omega

theorem mem_prefillRows {left : Nat} {pre : List Session} {y : Session} (h : y ∈ prefillRows d left pre) :
    ∃ x ∈ pre, ∃ k ≤ NarratorDecl.rows d x - x.pos, y = { x with inStep := k } := by
  induction pre generalizing left with
  | nil => cases h
  | cons x t ih =>
    rcases List.mem_cons.mp h with rfl | h
    · exact ⟨x, List.mem_cons_self, _, Nat.min_le_right _ _, rfl⟩
    · obtain ⟨z, hz, hy⟩ := ih h
      exact ⟨z, List.mem_cons_of_mem _ hz, hy⟩

end

/-! ### The parts of a step -/

/-- A session of which nothing is in the step yet. -/
def Session.cleared (x : Session) : Session :=
  { x with inStep := 0, embedding := false, st := if x.st = .ready then .prefill else if x.st = .sampled then .decode else x.st }

/-- A decoding session puts in its row. -/
def Session.withDecodeRow (x : Session) : Session := if x.st = .decode then { x with inStep := 1 } else x

/-- A session at a boundary. -/
def Session.atBoundary (x : Session) : Session := x.cleared.withDecodeRow

/-- The prefilling sessions with their rows. -/
def prefilled (d : NarratorDecl) (xs : List Session) : List Session := prefillRows d 128 (sortBy (·.opened) (xs.filter (fun x => x.st == .prefill)))

/-- A session with its prefill rows. -/
def withRows (d : NarratorDecl) (xs : List Session) (x : Session) : Session := ((prefilled d xs).find? (fun y => y.num == x.num)).getD x

/-- The oldest session in embed takes the step's embedding. -/
def withEmbedding (xs : List Session) : List Session :=
  match minBy (·.opened) (xs.filter (fun x => x.st == .embed)) with
  | some e => modWhere (fun x => x.num == e.num) (fun x => { x with embedding := true }) xs
  | none => xs

theorem buildStep_eq (d : NarratorDecl) (xs : List Session) :
    buildStep d xs = withEmbedding ((xs.map Session.atBoundary).map (withRows d (xs.map Session.atBoundary))) := by
  have hmap : xs.map Session.atBoundary = (xs.map Session.cleared).map Session.withDecodeRow := List.map_map.symm
  unfold buildStep
  dsimp only
  rw [foldl_stepRows, List.nil_append, hmap]
  rfl

theorem Session.atBoundary_num (x : Session) : x.atBoundary.num = x.num := by
  rw [Session.atBoundary, Session.withDecodeRow]
  split <;> rfl

theorem Session.atBoundary_embedding (x : Session) : x.atBoundary.embedding = false := by
  rw [Session.atBoundary, Session.withDecodeRow]
  split <;> rfl

theorem Session.atBoundary_decode {x : Session} (h : x.atBoundary.st = .decode) : x.atBoundary.inStep = 1 := by
  rw [Session.atBoundary, Session.withDecodeRow] at h ⊢
  split
  · rfl
  · rename_i hno
    rw [if_neg hno] at h
    exact absurd h hno

section
variable {d : NarratorDecl} {xs : List Session} (hnodup : (xs.map (·.num)).Nodup)
include hnodup

theorem nodup_prefilled : ((prefilled d xs).map (·.num)).Nodup := by
  rw [prefilled, map_num_prefillRows]
  exact ((perm_sortBy _ _).map _).nodup_iff.mpr (hnodup.sublist (List.filter_sublist.map _))

/-- A prefilling session takes rows within its prefill; any other session stays as it is. -/
theorem withRows_cases {x : Session} (hx : x ∈ xs) : (x.st ≠ .prefill ∧ withRows d xs x = x) ∨
    (x.st = .prefill ∧ ∃ k ≤ NarratorDecl.rows d x - x.pos, withRows d xs x = { x with inStep := k }) := by
  have hpre : ∀ y ∈ sortBy (·.opened) (xs.filter (fun x => x.st == .prefill)), y ∈ xs ∧ y.st = .prefill := fun y hy => by
    obtain ⟨hy, hst⟩ := List.mem_filter.mp (mem_sortBy.mp hy)
    exact ⟨hy, by simpa using hst⟩
  rw [withRows]
  cases hfind : (prefilled d xs).find? (fun y => y.num == x.num) with
  | none =>
    refine Or.inl ⟨fun hst => ?_, rfl⟩
    have hmem : x.num ∈ (prefilled d xs).map (·.num) := by
      rw [prefilled, map_num_prefillRows]
      exact List.mem_map_of_mem (mem_sortBy.mpr (List.mem_filter.mpr ⟨hx, by rw [hst]; rfl⟩))
    obtain ⟨y, hy, hnum⟩ := List.mem_map.mp hmem
    have := List.find?_eq_none.mp hfind y hy
    exact this (beq_iff_eq.mpr hnum)
  | some y =>
    obtain ⟨z, hz, k, hk, rfl⟩ := mem_prefillRows d (List.mem_of_find?_eq_some hfind)
    obtain ⟨hzx, hst⟩ := hpre z hz
    have hnum : z.num = x.num := by simpa using List.find?_some hfind
    obtain rfl := List.inj_on_of_nodup_map hnodup hzx hx hnum
    exact Or.inr ⟨hst, k, hk, rfl⟩

theorem map_withRows_prefilling : (sortBy (·.opened) (xs.filter (fun x => x.st == .prefill))).map (withRows d xs) = prefilled d xs := by
  have hlen : (prefilled d xs).length = (sortBy (fun x : Session => x.opened) (xs.filter (fun x => x.st == .prefill))).length := by
    rw [← List.length_map (f := fun x : Session => x.num), prefilled, map_num_prefillRows, List.length_map]
  refine List.ext_getElem (by rw [List.length_map, hlen]) fun i hi hi' => ?_
  rw [List.getElem_map, withRows]
  have hnum : ((prefilled d xs)[i]).num = ((sortBy (fun x : Session => x.opened) (xs.filter (fun x => x.st == .prefill)))[i]'(hlen ▸ hi')).num := by
    have h := map_num_prefillRows d 128 (sortBy (fun x : Session => x.opened) (xs.filter (fun x => x.st == .prefill)))
    have hget := List.getElem_of_eq h (i := i) (by rw [List.length_map]; exact hi')
    rw [List.getElem_map, List.getElem_map] at hget
    exact hget
  cases hfind : (prefilled d xs).find? (fun y => y.num == ((sortBy (fun x : Session => x.opened) (xs.filter (fun x => x.st == .prefill)))[i]'(hlen ▸ hi')).num) with
  | none => exact absurd (beq_iff_eq.mpr hnum) (List.find?_eq_none.mp hfind _ (List.getElem_mem hi'))
  | some y =>
    have hy : y.num = ((sortBy (fun x : Session => x.opened) (xs.filter (fun x => x.st == .prefill)))[i]'(hlen ▸ hi')).num := by simpa using List.find?_some hfind
    exact List.inj_on_of_nodup_map (nodup_prefilled hnodup) (List.mem_of_find?_eq_some hfind) (List.getElem_mem hi') (hy.trans hnum.symm)

theorem withRows_kept {x : Session} (hx : x ∈ xs) : (withRows d xs x).num = x.num ∧ (withRows d xs x).st = x.st ∧ (withRows d xs x).embedding = x.embedding := by
  rcases withRows_cases (d := d) hnodup hx with ⟨-, h⟩ | ⟨-, k, -, h⟩ <;> rw [h] <;> exact ⟨rfl, rfl, rfl⟩

theorem map_num_withRows : (xs.map (withRows d xs)).map (·.num) = xs.map (·.num) := by
  rw [List.map_map]
  exact List.map_congr_left fun x hx => (withRows_kept hnodup hx).1

theorem sum_withRows_le : (((xs.map (withRows d xs)).filter (fun y => y.st == .prefill)).map (·.inStep)).sum ≤ 128 := by
  have hfilter : (xs.map (withRows d xs)).filter (fun y => y.st == .prefill) = (xs.filter (fun y => y.st == .prefill)).map (withRows d xs) := by
    rw [List.filter_map]
    congr 1
    exact List.filter_congr fun x hx => by rw [Function.comp, (withRows_kept hnodup hx).2.1]
  rw [hfilter, (((perm_sortBy (fun x : Session => x.opened) _).map (withRows d xs)).map (fun y : Session => y.inStep)).symm.sum_eq, map_withRows_prefilling hnodup]
  exact sum_prefillRows_le d 128 _

end

/-! ### The embedding -/

/-- A list with the embedding set for one session, or as it was. -/
theorem withEmbedding_cases (xs : List Session) : withEmbedding xs = xs ∨ ∃ e ∈ xs, e.st = .embed ∧
    withEmbedding xs = xs.map (fun x => if x.num == e.num then { x with embedding := true } else x) := by
  unfold withEmbedding
  split
  · rename_i e he
    have hnonempty : xs.filter (fun x => x.st == .embed) ≠ [] := fun hnil => by rw [hnil] at he; cases he
    obtain ⟨y, hy, hmin, -⟩ := minBy_spec (fun x : Session => x.opened) hnonempty
    obtain rfl := Option.some.inj (hmin.symm.trans he)
    obtain ⟨hy, hst⟩ := List.mem_filter.mp hy
    exact Or.inr ⟨y, hy, by simpa using hst, rfl⟩
  · exact Or.inl rfl

/-- `y` is `x` but for its embedding. -/
def SameRows (x y : Session) : Prop := ∃ b, y = { x with embedding := b }

theorem mem_withEmbedding {xs : List Session} {y : Session} (h : y ∈ withEmbedding xs) : ∃ x ∈ xs, SameRows x y := by
  rcases withEmbedding_cases xs with heq | ⟨e, -, -, heq⟩
  · rw [heq] at h
    exact ⟨y, h, y.embedding, rfl⟩
  · rw [heq] at h
    obtain ⟨x, hx, rfl⟩ := List.mem_map.mp h
    refine ⟨x, hx, ?_⟩
    split
    · exact ⟨true, rfl⟩
    · exact ⟨x.embedding, rfl⟩

theorem map_withEmbedding {β : Type} (f : Session → β) (hf : ∀ x b, f { x with embedding := b } = f x) (xs : List Session) :
    (withEmbedding xs).map f = xs.map f := by
  rcases withEmbedding_cases xs with heq | ⟨e, -, -, heq⟩
  · rw [heq]
  · rw [heq, List.map_map]
    refine List.map_congr_left fun x _ => ?_
    rw [Function.comp]
    split
    · exact hf x true
    · rfl

theorem sum_rows_withEmbedding (xs : List Session) : ((withEmbedding xs).filter (fun y => y.st == .prefill)).map (·.inStep) =
    (xs.filter (fun y => y.st == .prefill)).map (·.inStep) := by
  have h := map_withEmbedding (fun x => (x.st, x.inStep)) (fun _ _ => rfl) xs
  have hrows : ∀ l : List Session, (l.filter (fun y => y.st == .prefill)).map (·.inStep) =
      ((l.map (fun x => (x.st, x.inStep))).filter (fun p => p.1 == .prefill)).map (·.2) := fun l => by
    rw [List.filter_map, List.map_map]
    rfl
  rw [hrows, hrows, h]

/-- Sessions of one number are at most one. -/
theorem length_le_one_of_num {l : List Session} {n : Nat} (hnodup : (l.map (·.num)).Nodup) (h : ∀ y ∈ l, y.num = n) : l.length ≤ 1 := by
  rcases l with _ | ⟨a, _ | ⟨b, t⟩⟩
  · exact Nat.zero_le _
  · exact le_rfl
  · rw [List.map_cons, List.map_cons, List.nodup_cons] at hnodup
    exact absurd (List.mem_cons.mpr (Or.inl ((h a List.mem_cons_self).trans (h b (by simp)).symm))) hnodup.1

theorem withEmbedding_one {xs : List Session} (hnodup : (xs.map (·.num)).Nodup) (hclear : ∀ x ∈ xs, x.embedding = false) :
    ((withEmbedding xs).filter (·.embedding)).length ≤ 1 ∧ ∀ y ∈ withEmbedding xs, y.embedding = true → y.st = .embed := by
  rcases withEmbedding_cases xs with heq | ⟨e, he, hst, heq⟩
  · rw [heq]
    have hnone : xs.filter (·.embedding) = [] := List.filter_eq_nil_iff.mpr fun x hx => by rw [hclear x hx]; decide
    exact ⟨by rw [hnone]; exact Nat.zero_le _, fun y hy hemb => by rw [hclear y hy] at hemb; cases hemb⟩
  · have hone : ∀ y ∈ withEmbedding xs, y.embedding = true → y.num = e.num ∧ y.st = .embed := fun y hy hemb => by
      rw [heq] at hy
      obtain ⟨x, hx, rfl⟩ := List.mem_map.mp hy
      by_cases hnum : (x.num == e.num) = true
      · obtain rfl := List.inj_on_of_nodup_map hnodup hx he (beq_iff_eq.mp hnum)
        rw [if_pos hnum]
        exact ⟨rfl, hst⟩
      · rw [if_neg hnum, hclear x hx] at hemb
        cases hemb
    have hnums : ((withEmbedding xs).map (·.num)).Nodup := by rw [map_withEmbedding _ (fun _ _ => rfl)]; exact hnodup
    refine ⟨length_le_one_of_num (n := e.num) (hnums.sublist (List.filter_sublist.map _)) fun y hy => ?_, fun y hy hemb => (hone y hy hemb).2⟩
    obtain ⟨hy, hemb⟩ := List.mem_filter.mp hy
    exact (hone y hy hemb).1

end Sys2Proof.Machine
end

