-- ==== Sys2Proof/Proofs/NarratorSteps.lean ====
section
/-! PROOFS. The Narrator's steps (R323, R325, R326, R331). -/
namespace Sys2Proof.Machine
open Sys2Proof

/-! ### Starts and ends -/

section
variable {s : State} {d : NarratorDecl} (hdecl : s.narrDecl = some d)
include hdecl

theorem State.narrStart_running (h : s.narr.running = true) : s.narrStart = s := by
  rw [State.narrStart, hdecl]
  exact if_pos h

theorem State.narrStart_idle (h : s.narr.running = false) (hrows : (buildStep d s.narr.sessions).any (fun x => x.inStep != 0 || x.embedding) = false) :
    s.narrStart = s := by
  rw [State.narrStart, hdecl]
  dsimp only
  rw [h, hrows, if_neg Bool.false_ne_true, if_neg Bool.false_ne_true]

theorem State.narrStart_rows {c : Nat} (hctx : s.narr.ctx = some c) (h : s.narr.running = false)
    (hrows : (buildStep d s.narr.sessions).any (fun x => x.inStep != 0 || x.embedding) = true) :
    s.narrStart = State.account { s with narr := { s.narr with sessions := buildStep d s.narr.sessions, running := true } } c 11 (s.ctx c).weightBytes := by
  rw [State.narrStart, hdecl]
  dsimp only
  rw [h, hrows, if_neg Bool.false_ne_true, if_pos rfl, hctx]
  rfl

theorem State.narrComplete_idle (h : s.narr.running = false) (us : Nat) (logits : List (Nat × List Word)) : s.narrComplete us logits = s := by
  rw [State.narrComplete, hdecl]
  exact if_pos (by rw [h]; rfl)

theorem State.narrComplete_running (h : s.narr.running = true) (us : Nat) (logits : List (Nat × List Word)) :
    s.narrComplete us logits =
      (let u : State := { s with narr := { s.narr with
        running := false, steps := (s.narr.steps + 1) % 2 ^ 64, stepMax := max s.narr.stepMax (us % 2 ^ 32) } }
      (u.narr.sessions.foldl (fun s x => s.narrToken d logits x) u).narrBoundary) := by
  rw [State.narrComplete, hdecl]
  exact if_neg (by rw [h]; decide)

end

/-! ### Sessions that do not sample -/

/-- What the end of a step is for a session that does not sample. -/
def Session.stepped (y : Session) : Session := if y.st = .prefill then { y with pos := y.pos + y.inStep, inStep := 0 } else { y with inStep := 0 }

theorem Session.stepped_kept (y : Session) : y.stepped.num = y.num ∧ y.stepped.tokens = y.tokens ∧ y.stepped.st = y.st := by
  rw [Session.stepped]
  split <;> exact ⟨rfl, rfl, rfl⟩

theorem State.narrToken_not_sampling {s : State} {d : NarratorDecl} {logits : List (Nat × List Word)} {x : Session} (h : samples d x = false) :
    (s.narrToken d logits x).narr.sessions = modWhere (fun y => y.num == x.num) Session.stepped s.narr.sessions := by
  have heq : s.narrToken d logits x =
      { s with narr := { s.narr with sessions := modWhere (fun y => y.num == x.num) Session.stepped s.narr.sessions } } := if_pos (by rw [h]; rfl)
  rw [heq]

/-! ### What a step holds -/

section
variable {d : NarratorDecl} {xs : List Session}

theorem map_num_atBoundary (xs : List Session) : (xs.map Session.atBoundary).map (·.num) = xs.map (·.num) := by
  rw [List.map_map]
  exact List.map_congr_left fun x _ => x.atBoundary_num

section
variable (hnodup : (xs.map (·.num)).Nodup)
include hnodup

theorem nodup_atBoundary : ((xs.map Session.atBoundary).map (·.num)).Nodup := by
  rw [map_num_atBoundary]
  exact hnodup

theorem map_num_buildStep : (buildStep d xs).map (·.num) = xs.map (·.num) := by
  rw [buildStep_eq, map_withEmbedding _ (fun _ _ => rfl), map_num_withRows (nodup_atBoundary hnodup), map_num_atBoundary]

theorem sum_buildStep_le : (((buildStep d xs).filter (fun y => y.st == .prefill)).map (·.inStep)).sum ≤ 128 := by
  rw [buildStep_eq, sum_rows_withEmbedding]
  exact sum_withRows_le (nodup_atBoundary hnodup)

/-- A session in the step is one at the boundary, with its rows and perhaps the embedding. -/
theorem mem_buildStep {y : Session} (hy : y ∈ buildStep d xs) : ∃ x : Session, ∃ b : Bool, (y = { x.atBoundary with embedding := b } ∧ x.atBoundary.st ≠ .prefill) ∨
    (∃ k ≤ NarratorDecl.rows d x.atBoundary - x.atBoundary.pos, y = { x.atBoundary with inStep := k, embedding := b } ∧ x.atBoundary.st = .prefill) := by
  rw [buildStep_eq] at hy
  obtain ⟨z, hz, b, rfl⟩ := mem_withEmbedding hy
  obtain ⟨w, hw, rfl⟩ := List.mem_map.mp hz
  obtain ⟨x, hx, rfl⟩ := List.mem_map.mp hw
  refine ⟨x, b, ?_⟩
  rcases withRows_cases (d := d) (nodup_atBoundary hnodup) hw with ⟨hst, heq⟩ | ⟨hst, k, hk, heq⟩
  · exact Or.inl ⟨by rw [heq], hst⟩
  · exact Or.inr ⟨k, hk, by rw [heq], hst⟩

theorem buildStep_decode {y : Session} (hy : y ∈ buildStep d xs) (hst : y.st = .decode) : y.inStep = 1 := by
  obtain ⟨x, b, ⟨rfl, -⟩ | ⟨k, -, rfl, hpre⟩⟩ := mem_buildStep hnodup hy
  · exact x.atBoundary_decode hst
  · rw [show x.atBoundary.st = .decode from hst] at hpre
    cases hpre

theorem buildStep_prefill {y : Session} (hy : y ∈ buildStep d xs) (hst : y.st = .prefill) : y.inStep ≤ NarratorDecl.rows d y - y.pos := by
  obtain ⟨x, b, ⟨rfl, hno⟩ | ⟨k, hk, rfl, -⟩⟩ := mem_buildStep hnodup hy
  · exact absurd hst hno
  · exact hk

theorem buildStep_embedding : ((buildStep d xs).filter (·.embedding)).length ≤ 1 ∧ ∀ y ∈ buildStep d xs, y.embedding = true → y.st = .embed := by
  rw [buildStep_eq]
  refine withEmbedding_one ?_ fun z hz => ?_
  · rw [map_num_withRows (nodup_atBoundary hnodup)]
    exact nodup_atBoundary hnodup
  · obtain ⟨w, hw, rfl⟩ := List.mem_map.mp hz
    obtain ⟨x, hx, rfl⟩ := List.mem_map.mp hw
    rw [(withRows_kept (nodup_atBoundary hnodup) hw).2.2, x.atBoundary_embedding]

end

end

end Sys2Proof.Machine

namespace Sys2Proof.Proofs
open Sys2Proof.Machine

/-- Settles O39. -/
theorem narratorSteps : Obligations.NarratorSteps := by
  unfold Obligations.NarratorSteps
  refine ⟨⟨fun s d hready hdecl => ?_, fun d xs hnodup => ?_, fun s d logits x hnodup hx hno y hy hnum => ?_⟩, fun xs b h => ⟨bestId_spec h, bestId_not_nan h⟩,
    fun d _ => expTab_nearest d, by decide +kernel, by decide +kernel, by decide +kernel, by decide +kernel, by decide +kernel, by decide +kernel, by decide +kernel,
    fun o => ⟨?_, ?_, ?_⟩, by decide +kernel, by decide +kernel, fun ws u last hu hne hpos => ?_, cleanUtf8_length_le, fun bs => cleanUtf8_ascii⟩
  · intro xs
    exact ⟨fun hrun => answers_congr (answers_whenReady rfl hready) (State.narrStart_running hdecl hrun),
      fun c hctx hrun hrows => answers_congr (answers_whenReady rfl hready) (State.narrStart_rows hdecl hctx hrun hrows),
      fun hrun hrows => answers_congr (answers_whenReady rfl hready) (State.narrStart_idle hdecl hrun hrows),
      fun num => answers_whenReady rfl hready,
      fun us logits hrun => answers_congr (answers_whenReady rfl hready) (State.narrComplete_running hdecl hrun us logits),
      fun us logits hrun => answers_congr (answers_whenReady rfl hready) (State.narrComplete_idle hdecl hrun us logits)⟩
  · intro ys
    obtain ⟨hone, hembed⟩ := buildStep_embedding (d := d) hnodup
    exact ⟨map_num_buildStep hnodup, fun y => buildStep_decode hnodup, sum_buildStep_le hnodup, fun y => buildStep_prefill hnodup, hone, hembed⟩
  · rw [State.narrToken_not_sampling hno] at hy
    obtain ⟨z, hz, rfl⟩ := List.mem_map.mp hy
    by_cases hzx : (z.num == x.num) = true
    · obtain rfl := List.inj_on_of_nodup_map hnodup hz hx (beq_iff_eq.mp hzx)
      rw [if_pos hzx]
      exact z.stepped_kept.2
    · rw [if_neg hzx] at hnum
      exact absurd (beq_iff_eq.mpr hnum) hzx
  · exact (logitDist_of_floor rfl (i := 0) (by decide +kernel) o).trans rfl
  · exact (logitDist_of_floor rfl (i := 64) (by decide +kernel) o).trans rfl
  · exact (logitDist_of_floor rfl (i := 256) (by decide +kernel) o).trans rfl
  · exact pickAt_mem (Nat.zero_le _) (by rw [Nat.zero_add]; exact draw_lt hu (sum_pos_of_weights hne hpos))

end Sys2Proof.Proofs

end

