-- ==== Sys2Proof/Proofs/RingCommands.lean ====
section
/-! PROOFS. Ring and MSI-X commands, collectors and acknowledgements (R354 to R359, R515). -/
namespace Sys2Proof.Machine
open Sys2Proof

/-! ### Ring writes (R355, R356) -/

section
variable {s : State} {n : Nat}

theorem tailValid_iff {r : Ring} {t : Nat} : tailValid r t = true ↔ (t + 2 ^ 32 - r.tail) % 2 ^ 32 ≤ r.used := decide_eq_true_iff

theorem State.ringTail_moves {t : Nat} (h : (s.ring n).enable = false ∨ (t + 2 ^ 32 - (s.ring n).tail) % 2 ^ 32 ≤ (s.ring n).used) :
    s.ringTail n t = s.modRing n (fun r => { r with tail := t }) := by
  refine if_pos ?_
  rw [Bool.or_eq_true, Bool.not_eq_true', tailValid_iff]
  exact h

theorem State.ringTail_faults {t : Nat} (hen : (s.ring n).enable = true) (h : (s.ring n).used < (t + 2 ^ 32 - (s.ring n).tail) % 2 ^ 32) :
    s.ringTail n t = (s.modRing n (fun r => { r with enable := false, tailFault := true })).raise { code := fltMdoTail, unit := n, addr := t } := by
  refine if_neg ?_
  rw [Bool.or_eq_true, Bool.not_eq_true', tailValid_iff, hen]
  rintro (hf | hle)
  · cases hf
  · omega

theorem ctrl_size (v : Nat) : bits (v % 2 ^ 32) 5 1 = v / 2 % 32 := by
  simp only [bits, Nat.shiftRight_eq_div_pow]
  omega

theorem ctrl_vector (v : Nat) : bits (v % 2 ^ 32) 15 8 = v / 256 % 256 := by
  simp only [bits, Nat.shiftRight_eq_div_pow]
  omega

theorem ctrl_enable (v : Nat) : bit (v % 2 ^ 32) 0 = (v % 2 == 1) := by
  simp only [bit, Nat.shiftRight_zero]
  rw [show v % 2 ^ 32 % 2 = v % 2 by omega]

/-- The ring's fields after a control write that is taken. -/
theorem State.ringCtrl_taken {v : Nat} (h12 : 12 ≤ v / 2 % 32) (h26 : v / 2 % 32 ≤ 26) :
    s.ringCtrl n (v % 2 ^ 32) = s.modRing n (fun r =>
      if v % 2 == 1 && !r.enable then
        { r with sizeLog2 := v / 2 % 32, vector := v / 256 % 256, enable := v % 2 == 1, head := 0, tail := 0, drops := 0, unsig := 0 }
      else { r with sizeLog2 := v / 2 % 32, vector := v / 256 % 256, enable := v % 2 == 1 }) := by
  unfold State.ringCtrl
  dsimp only
  rw [ctrl_size, ctrl_vector, ctrl_enable, if_neg (by omega)]

theorem State.ringCtrl_discarded {v : Nat} (h : v / 2 % 32 < 12 ∨ 26 < v / 2 % 32) : s.ringCtrl n (v % 2 ^ 32) = s := by
  refine if_pos ?_
  rw [ctrl_size]
  exact h

theorem State.modRing_congr {f g : Ring → Ring} (h : f (s.ring n) = g (s.ring n)) : s.modRing n f = s.modRing n g := by
  rw [State.modRing, State.modRing, tmod, tmod]
  exact congrArg (fun r => { s with rings := tset {} s.rings n r }) h

end

/-! ### Messages (R515) -/

section
variable {s : State} {k : Nat}

theorem State.msix_sent (hup : s.hostUp = true) (hen : s.pci.msixEn = true) (hmask : s.pci.funcMask = false) (hun : s.pci.unmasked.contains k = true) :
    s.msix k = s.emit (.msix k) := if_pos (by rw [hup, hen, hmask, hun]; rfl)

theorem State.msix_held (h : s.hostUp = false ∨ s.pci.msixEn = false ∨ s.pci.funcMask = true ∨ s.pci.unmasked.contains k = false) :
    k ∈ (s.msix k).pci.pba ∧ (s.msix k).out = s.out := by
  have hnot : ¬ (s.hostUp && s.pci.msixEn && !s.pci.funcMask && s.pci.unmasked.contains k) = true := by
    rcases h with h | h | h | h <;> rw [h] <;> simp
  rw [State.msix, if_neg hnot]
  split
  · rename_i hk
    exact ⟨List.contains_iff_mem.mp hk, rfl⟩
  · exact ⟨mem_insertBy_self id k _, rfl⟩
where
  mem_insertBy_self (key : Nat → Nat) (x : Nat) : ∀ l : List Nat, x ∈ insertBy key x l
    | [] => List.mem_singleton_self x
    | y :: t => by
      rw [insertBy]
      split
      · exact List.mem_cons_self
      · exact List.mem_cons_of_mem _ (mem_insertBy_self key x t)

end

/-! ### Collectors (R357 to R359) -/

section
variable {s : State} {k : Nat}

theorem State.collFlush_empty (h : (s.coll k).filling = []) : s.collFlush k = s := by
  refine if_pos ?_
  rw [h]
  rfl

theorem State.collFlush_sends (h : (s.coll k).filling ≠ []) :
    s.collFlush k = (s.collDatagram k 6 (s.coll k).filling.length (deliveryBody k (s.coll k).filling)).modColl k (fun c => { c with filling := [] }) :=
  if_neg (by rwa [List.isEmpty_iff])

theorem State.collFlush_coll (h : (s.coll k).filling ≠ []) : (s.collFlush k).coll k = { s.coll k with
    nextNo := ((s.coll k).nextNo + 1) % 2 ^ 32, filling := []
    kept := keepLast (s.coll k).retxBytes ((s.coll k).kept ++ [((s.coll k).nextNo, blpFrame 6 0 0 (deliveryBody k (s.coll k).filling (s.coll k).nextNo))])
    sent := (s.coll k).sent.filter (fun p => p.1 != (s.coll k).nextNo) ++ [((s.coll k).nextNo, (s.coll k).filling.length)] } := by
  rw [State.collFlush_sends h, State.modColl_coll, State.collDatagram, State.modColl_coll]
  rfl

theorem State.collFlush_coll_ne {j : Nat} (h : (s.coll k).filling ≠ []) (hj : j ≠ k) : (s.collFlush k).coll j = s.coll j := by
  rw [State.collFlush_sends h, State.modColl_coll_ne _ _ hj, State.collDatagram, State.modColl_coll_ne _ _ hj]
  rfl

theorem State.collFlush_out (h : (s.coll k).filling ≠ []) :
    (s.collFlush k).out = .blp k (blpFrame 6 0 0 (deliveryBody k (s.coll k).filling (s.coll k).nextNo)) :: s.out := by
  rw [State.collFlush_sends h]
  rfl

theorem State.emit_coll (o : Out) (j : Nat) : (s.emit o).coll j = s.coll j := rfl

theorem State.emits_coll (os : List Out) (j : Nat) : (s.emits os).coll j = s.coll j := by
  rw [State.emits_eq]
  rfl

/-! #### What an acknowledgement reports missing -/

theorem mem_onBits {v n i : Nat} : i ∈ onBits v n ↔ i < n ∧ bit v i = true := by
  rw [onBits, List.mem_filter, mem_upto_iff, Nat.zero_add, and_iff_right (Nat.zero_le i)]

theorem pairwise_onBits (v n : Nat) : (onBits v n).Pairwise (· < ·) := by
  rw [onBits, upto_eq_range']
  exact (List.pairwise_lt_range' (s := 0) (n := n)).sublist List.filter_sublist

/-- The last bit set is the greatest. -/
theorem le_getLast_onBits {v n l i : Nat} (h : (onBits v n).getLast? = some l) (hi : i ∈ onBits v n) : i ≤ l := by
  obtain ⟨ys, hl⟩ := List.getLast?_eq_some_iff.mp h
  have hpair := pairwise_onBits v n
  rw [hl] at hi hpair
  rcases List.mem_append.mp hi with hi | hi
  · exact ((List.pairwise_append.mp hpair).2.2 i hi l (List.mem_singleton_self l)).le
  · exact (List.mem_singleton.mp hi).le

theorem mem_missingOf {hi bm m : Nat} : m ∈ missingOf hi bm ↔ ∃ i l, i < l ∧ l < 64 ∧ bit bm l = true ∧ bit bm i = false ∧ m = (hi + 1 + i) % 2 ^ 32 := by
  unfold missingOf
  dsimp only
  cases hlast : (onBits bm 64).getLast? with
  | none =>
    have hnil := List.getLast?_eq_none_iff.mp hlast
    refine iff_of_false (by simp) ?_
    rintro ⟨i, l, -, hl, hbit, -⟩
    have hmem : l ∈ onBits bm 64 := mem_onBits.mpr ⟨hl, hbit⟩
    rw [hnil] at hmem
    cases hmem
  | some l =>
    have hl := mem_onBits.mp (List.mem_of_getLast? hlast)
    rw [List.mem_map]
    constructor
    · rintro ⟨i, hi, rfl⟩
      obtain ⟨hup, hbit⟩ := List.mem_filter.mp hi
      exact ⟨i, l, by have := mem_upto_iff.mp hup; omega, hl.1, hl.2, by simpa using hbit, rfl⟩
    · rintro ⟨i, l', hil, hl', hbit', hbit, rfl⟩
      have hle := le_getLast_onBits hlast (mem_onBits.mpr ⟨hl', hbit'⟩)
      exact ⟨i, List.mem_filter.mpr ⟨mem_upto_iff.mpr ⟨Nat.zero_le _, by omega⟩, by rw [hbit]; rfl⟩, rfl⟩

/-! #### Acknowledgements -/

/-- Datagrams reported missing that are no longer held. -/
def goneOf (c : Collector) (missing : List Nat) : List (Nat × Nat) := c.sent.filter (fun p => missing.contains p.1 && !c.kept.any (fun d => d.1 == p.1))

/-- A collector after the loss of the datagrams that are gone. -/
def Collector.loseGone (c : Collector) (missing : List Nat) : Collector :=
  if (goneOf c missing).isEmpty then c
  else c.lose (((goneOf c missing).map (·.2)).foldl (· + ·) 0) (if c.lossDue then c.lostCause else 1)

/-- A collector after an acknowledgement. -/
def Collector.acknowledged (c : Collector) (highest bitmap : Nat) : Collector :=
  { c.loseGone (missingOf highest bitmap) with
    up := true, acked := some highest, lossDue := (c.loseGone (missingOf highest bitmap)).lossDue || !c.up
    sent := c.sent.filter (fun p => decide (2 ^ 31 ≤ (highest + 2 ^ 32 - p.1) % 2 ^ 32) && !(goneOf c (missingOf highest bitmap)).contains p) }

theorem Collector.loseGone_kept (c : Collector) (missing : List Nat) : (c.loseGone missing).kept = c.kept ∧ (c.loseGone missing).nextNo = c.nextNo := by
  rw [Collector.loseGone]
  split <;> exact ⟨rfl, rfl⟩

theorem Collector.loseGone_nothing (c : Collector) : c.loseGone [] = c := by
  refine if_pos ?_
  rw [List.isEmpty_iff, goneOf]
  exact List.filter_eq_nil_iff.mpr fun p _ => by simp

theorem Collector.loseGone_one {c : Collector} {missing : List Nat} {d n : Nat} (hsent : c.sent = [(d, n)]) (hmem : d ∈ missing) (hkept : c.kept = []) :
    goneOf c missing = [(d, n)] ∧ c.loseGone missing = c.lose n (if c.lossDue then c.lostCause else 1) := by
  have hgone : goneOf c missing = [(d, n)] := by
    rw [goneOf, hsent, hkept]
    exact List.filter_eq_self.mpr fun p hp => by
      obtain rfl := List.mem_singleton.mp hp
      simpa using hmem
  refine ⟨hgone, ?_⟩
  rw [Collector.loseGone, hgone]
  simp

theorem State.collAck_eq (hi bm : Nat) : s.collAck k hi bm =
    (s.emits (((s.coll k).kept.filter (fun d => (missingOf hi bm).contains d.1)).map (fun d => Out.blp k d.2))).modColl k
      (fun c => { (if (goneOf (s.coll k) (missingOf hi bm)).isEmpty then c
          else c.lose (((goneOf (s.coll k) (missingOf hi bm)).map (·.2)).foldl (· + ·) 0) (if c.lossDue then c.lostCause else 1)) with
        up := true, acked := some hi
        lossDue := (if (goneOf (s.coll k) (missingOf hi bm)).isEmpty then c
          else c.lose (((goneOf (s.coll k) (missingOf hi bm)).map (·.2)).foldl (· + ·) 0) (if c.lossDue then c.lostCause else 1)).lossDue || !c.up
        sent := c.sent.filter (fun p => decide (2 ^ 31 ≤ (hi + 2 ^ 32 - p.1) % 2 ^ 32) && !(goneOf (s.coll k) (missingOf hi bm)).contains p) }) := rfl

theorem State.collAck_coll (hi bm : Nat) : (s.collAck k hi bm).coll k = (s.coll k).acknowledged hi bm := by
  rw [State.collAck_eq, State.modColl_coll, State.emits_coll]
  rfl

theorem State.collAck_out (hi bm : Nat) : (s.collAck k hi bm).out =
    (((s.coll k).kept.filter (fun d => (missingOf hi bm).contains d.1)).map (fun d => Out.blp k d.2)).reverse ++ s.out := by
  rw [State.collAck_eq, State.emits_eq]
  rfl

theorem State.collAck_coll_ne {j : Nat} (hi bm : Nat) (h : j ≠ k) : (s.collAck k hi bm).coll j = s.coll j := by
  rw [State.collAck_eq, State.modColl_coll_ne _ _ h, State.emits_coll]

theorem State.collPut_down {bytes : List Byte} (hen : (s.coll k).enable = true) (hup : (s.coll k).up = false) :
    s.collPut k bytes = (false, s.modColl k (fun c => c.lose 1 2)) := by
  rw [State.collPut]
  dsimp only
  rw [hen, hup]
  rfl

end

end Sys2Proof.Machine

namespace Sys2Proof.Proofs
open Sys2Proof.Machine

/-- Settles O41. -/
theorem ringCommandsAndCollectors : Obligations.RingCommandsAndCollectors := by
  unfold Obligations.RingCommandsAndCollectors
  refine ⟨fun s n v hup hn => ?_, fun s k hup => ?_⟩
  · intro r t
    refine ⟨fun h => ?_, fun hen h => ?_, ?_, fun htime hunsig => ?_, fun h => ?_, fun un hhost => ?_, fun en fm un h => ?_,
      fun k hhost hen hmask hun => State.msix_sent hhost hen hmask hun, fun k h => State.msix_held h⟩
    · exact answers_congr (answers_whenUp rfl hup) ((if_pos hn).trans (State.ringTail_moves h))
    · exact answers_congr (answers_whenUp rfl hup) ((if_pos hn).trans (State.ringTail_faults hen h))
    · intro size
      refine ⟨fun h => ?_, fun h12 h26 hset hoff => ?_, fun h12 h26 h => ?_⟩
      · exact answers_congr (answers_whenUp rfl hup) ((if_pos hn).trans (State.ringCtrl_discarded h))
      · refine answers_congr (answers_whenUp rfl hup) ((if_pos hn).trans ((State.ringCtrl_taken h12 h26).trans (State.modRing_congr ?_)))
        rw [hset, show (s.ring n).enable = false from hoff]
        rfl
      · refine answers_congr (answers_whenUp rfl hup) ((if_pos hn).trans ((State.ringCtrl_taken h12 h26).trans (State.modRing_congr (if_neg ?_))))
        rcases h with h | h
        · rw [h, show (0 == 1) = false from rfl, Bool.false_and]
          decide
        · rw [show (s.ring n).enable = true from h, Bool.not_true, Bool.and_false]
          decide
    · exact answers_congr (answers_whenUp rfl hup) (if_pos ⟨htime, hunsig⟩)
    · refine answers_congr (answers_whenUp rfl hup) (if_neg ?_)
      rintro ⟨htime, hunsig⟩
      exact h.elim htime hunsig
    · have hsend : (State.msixFlush { s with pci := { s.pci with msixEn := true, funcMask := false, unmasked := un } }) = _ := if_pos (by
        rw [show State.hostUp { s with pci := { s.pci with msixEn := true, funcMask := false, unmasked := un } } = s.hostUp from rfl, hhost]
        rfl)
      exact answers_congr (t := State.msixFlush { s with pci := { s.pci with msixEn := true, funcMask := false, unmasked := un } }) rfl hsend
    · have hkeep : (State.msixFlush { s with pci := { s.pci with msixEn := en, funcMask := fm, unmasked := un } }) =
          { s with pci := { s.pci with msixEn := en, funcMask := fm, unmasked := un } } := if_neg (by
        rw [show State.hostUp { s with pci := { s.pci with msixEn := en, funcMask := fm, unmasked := un } } = s.hostUp from rfl]
        dsimp only
        rcases h with h | h | h <;> rw [h] <;> simp)
      exact answers_congr (t := State.msixFlush { s with pci := { s.pci with msixEn := en, funcMask := fm, unmasked := un } }) rfl hkeep
  · intro c
    refine ⟨fun h => ?_, fun h => ?_, fun hi bm h => ?_, fun hi bm h => ?_, fun hen hcup => ?_, fun h => ?_, fun bytes hen hdown => State.collPut_down hen hdown,
      fun hi bm m => mem_missingOf⟩
    · exact answers_congr (answers_whenUp rfl hup) (State.collFlush_empty h)
    · have hcoll := State.collFlush_coll h
      refine reaches_of_answers (t := s.collFlush k) (answers_whenUp rfl hup) ⟨State.collFlush_out h, ?_, ?_, ?_, fun j hj => State.collFlush_coll_ne h hj⟩
      · exact (congrArg Collector.filling hcoll :)
      · exact (congrArg Collector.nextNo hcoll :)
      · exact (congrArg Collector.lost hcoll :)
    · exact answers_congr (answers_whenUp rfl hup) (if_neg (by rw [show (s.coll k).enable = false from h]; decide))
    · have hcoll := State.collAck_coll (s := s) (k := k) hi bm
      obtain ⟨hkept, hnext⟩ := (s.coll k).loseGone_kept (missingOf hi bm)
      refine reaches_of_answers (t := s.collAck k hi bm) (answers_congr (answers_whenUp rfl hup) (if_pos h)) ⟨congrArg Collector.up hcoll,
        congrArg Collector.acked hcoll, (congrArg Collector.kept hcoll).trans hkept, (congrArg Collector.nextNo hcoll).trans hnext,
        ⟨_, State.collAck_out hi bm, List.reverse_reverse _⟩, fun hnone => ?_, fun hdown => ?_, fun d n hsent hmem hnokept => ?_,
        fun j hj => State.collAck_coll_ne hi bm hj⟩
      · have hsame := (s.coll k).loseGone_nothing
        rw [← hnone] at hsame
        exact ⟨(congrArg Collector.lost hcoll :).trans (congrArg Collector.lost hsame :), (congrArg Collector.dropped hcoll :).trans (congrArg Collector.dropped hsame :)⟩
      · refine (congrArg Collector.lossDue hcoll).trans ?_
        rw [Collector.acknowledged]
        dsimp only
        rw [show (s.coll k).up = false from hdown, Bool.not_false, Bool.or_true]
      · obtain ⟨hgone, hlose⟩ := Collector.loseGone_one hsent hmem hnokept
        refine ⟨(congrArg Collector.lossDue hcoll).trans ?_, (congrArg Collector.lost hcoll).trans (congrArg Collector.lost hlose), (congrArg Collector.sent hcoll).trans ?_⟩
        · rw [Collector.acknowledged, hlose]
          rfl
        · rw [Collector.acknowledged, hgone]
          dsimp only
          rw [show (s.coll k).sent = [(d, n)] from hsent]
          exact List.filter_eq_nil_iff.mpr fun p hp => by simp [List.mem_singleton.mp hp]
    · exact answers_congr (answers_whenUp rfl hup) (if_pos (by rw [show (s.coll k).enable = true from hen, show (s.coll k).up = true from hcup]; rfl))
    · refine answers_congr (answers_whenUp rfl hup) (if_neg ?_)
      rw [Bool.and_eq_true]
      rintro ⟨hen, hcup⟩
      rcases h with h | h
      · exact Bool.false_ne_true (h.symm.trans hen)
      · exact Bool.false_ne_true (h.symm.trans hcup)

end Sys2Proof.Proofs

end

