-- ==== Sys2Proof/Proofs/FailedReads.lean ====
section
/-! PROOFS. What counting a failing line leaves of memory (R385, R391, R401, R405). -/
namespace Sys2Proof.Machine
open Sys2Proof

/-! ### Counters -/

theorem cntKey_inj {c u i c' u' i' : Nat} (hi : i < 16) (hi' : i' < 16) (hu : u < 2 ^ 16) (hu' : u' < 2 ^ 16) (h : cntKey c u i = cntKey c' u' i') :
    c = c' ∧ u = u' ∧ i = i' := by
  unfold cntKey at h
  omega

theorem scopeOf_saddle {a : Nat} (h : inSaddle a = true) : scopeOf a = (0, chanOf a) := if_pos h

/-- A counter of a channel, counted up. -/
theorem State.intCount_cnt {s : State} {a : Nat} (h : inSaddle a = true) (i k : Nat) : tget 0 (s.intCount a i).mem.cnt k =
    if k = cntKey 0 (chanOf a) i then (tget 0 s.mem.cnt k + 1) % 2 ^ 64 else tget 0 s.mem.cnt k := by
  rw [State.intCount, scopeOf_saddle h]
  dsimp only
  rw [tget_tmod]
  split
  · rename_i hk
    rw [hk]
  · rfl

theorem State.sliceCount_cnt (s : State) (a i k : Nat) : tget 0 (s.sliceCount a i).mem.cnt k =
    if k = cntKey 1 (chanOf a) i then (tget 0 s.mem.cnt k + 1) % 2 ^ 64 else tget 0 s.mem.cnt k := by
  rw [State.sliceCount]
  dsimp only
  rw [tget_tmod]
  split
  · rename_i hk
    rw [hk]
  · rfl

/-! ### Rows that fail (R401, R402) -/

/-- `t` differs from `s` in its channels' tables of rows and the count of its quarantined rows, as far as memory goes. -/
structure State.RowStep (s t : State) (ch : Nat) : Prop where
  mem : ∃ chans cnt, t.mem = { s.mem with chans := chans, cnt := cnt }
  cnt : ∀ k, k ≠ cntKey 0 ch 10 → tget 0 t.mem.cnt k = tget 0 s.mem.cnt k
  merges : ∀ n, (t.chan n).merges = (s.chan n).merges
  step : s.MemStep t

namespace State.RowStep
variable {s t u : State} {ch : Nat}

theorem refl (s : State) (ch : Nat) : s.RowStep s ch := ⟨⟨_, _, rfl⟩, fun _ _ => rfl, fun _ => rfl, .refl s⟩

theorem trans (h : s.RowStep t ch) (h' : t.RowStep u ch) : s.RowStep u ch := by
  obtain ⟨c, n, hm⟩ := h.mem
  obtain ⟨c', n', hm'⟩ := h'.mem
  exact ⟨⟨c', n', by rw [hm', hm]⟩, fun k hk => (h'.cnt k hk).trans (h.cnt k hk), fun n => (h'.merges n).trans (h.merges n), h.step.trans h'.step⟩

theorem of_raise (s : State) (ch : Nat) (f : FaultInfo) : s.RowStep (s.raise f) ch :=
  ⟨⟨_, _, by rw [State.raise_mem]⟩, fun _ _ => by rw [State.raise_mem], fun _ => by rw [State.chan, State.raise_mem, ← State.chan], s.memStep_raise f⟩

theorem of_modChan (s : State) (ch n : Nat) {f : DramChan → DramChan} (hf : ∀ c, (f c).merges = c.merges) : s.RowStep (s.modChan n f) ch :=
  ⟨⟨_, _, rfl⟩, fun _ _ => rfl, (s.sameMemory_modChan n hf).merges, s.memStep_modChan n f⟩

theorem of_kpr (s : State) (ch : Nat) (k : Kpr) : s.RowStep { s with kpr := k } ch := ⟨⟨_, _, rfl⟩, fun _ _ => rfl, fun _ => rfl, s.memStep_kpr k⟩

theorem of_quarantined (s : State) {ch : Nat} (hch : ch < 64) : s.RowStep (s.intCount (ch * pageSize) 10) ch := by
  have hin : inSaddle (ch * pageSize) = true := by
    rw [inSaddle_iff, pageSize]
    omega
  have hchan : chanOf (ch * pageSize) = ch := by
    rw [chanOf, pageSize]
    omega
  exact ⟨⟨_, _, rfl⟩, fun k hk => by rw [State.intCount_cnt hin, hchan, if_neg hk], fun _ => rfl, s.memStep_intCount _ _⟩

theorem of_quarantine (s : State) {ch : Nat} (hch : ch < 64) (bank row : Nat) : s.RowStep (s.quarantine ch bank row) ch := by
  unfold State.quarantine
  dsimp only
  split
  · refine (((of_modChan s ch ch ?_).trans (of_quarantined _ hch)).trans (of_kpr _ ch _)).trans (of_raise _ ch _)
    exact fun _ => rfl
  · split
    · exact refl s ch
    · refine (of_modChan s ch ch ?_).trans (of_raise _ ch _)
      exact fun _ => rfl

theorem of_countRow (s : State) (line : Nat) : s.RowStep (s.countRow line) (chanOf line) := by
  unfold State.countRow
  dsimp only
  split
  · exact refl s _
  · split
    · split
      · refine of_modChan s _ _ ?_
        exact fun _ => rfl
      · split
        · refine (of_modChan s _ _ ?_).trans (of_modChan _ _ _ ?_)
          · exact fun _ => rfl
          · exact fun _ => rfl
        · refine (of_modChan s _ _ ?_).trans (of_quarantine _ (chanOf_lt line) _ _)
          exact fun _ => rfl
    · split
      · refine of_modChan s _ _ ?_
        exact fun _ => rfl
      · split
        · refine of_modChan s _ _ ?_
          exact fun _ => rfl
        · exact refl s _

theorem failing (h : s.RowStep t ch) : t.mem.failing = s.mem.failing := by obtain ⟨c, n, hm⟩ := h.mem; rw [hm]
theorem bytes (h : s.RowStep t ch) : t.mem.bytes = s.mem.bytes := by obtain ⟨c, n, hm⟩ := h.mem; rw [hm]
theorem lostLines (h : s.RowStep t ch) : t.mem.lostLines = s.mem.lostLines := by obtain ⟨c, n, hm⟩ := h.mem; rw [hm]
theorem lostDie (h : s.RowStep t ch) : t.mem.lostDie = s.mem.lostDie := by obtain ⟨c, n, hm⟩ := h.mem; rw [hm]
theorem burn (h : s.RowStep t ch) : t.mem.burn = s.mem.burn := by obtain ⟨c, n, hm⟩ := h.mem; rw [hm]

end State.RowStep

/-! ### A line of which a read has failed -/

/-- The first read of a saddle line has failed. -/
def State.readOnce (s : State) (line : Nat) : State := (s.intCount line 0).countRow line

/-- Both reads of a saddle line have failed. -/
def State.readTwice (s : State) (line : Nat) : State := (s.readOnce line).setFails line true

section
variable {s : State} {line : Nat}

theorem State.memStep_readOnce (s : State) (line : Nat) : s.MemStep (s.readOnce line) := (s.memStep_intCount line 0).trans (State.memStep_countRow _ _)

theorem State.memStep_readTwice (s : State) (line : Nat) : s.MemStep (s.readTwice line) := (s.memStep_readOnce line).trans (State.memStep_setFails _ _ _)

theorem State.MemStep.classOf {t : State} (h : s.MemStep t) (a : Nat) : t.classOf a = s.classOf a := by
  obtain ⟨⟨m, k, o, r, c, p, d, rfl⟩, -⟩ := h
  rfl

theorem State.readOnce_bytes (s : State) (line : Nat) : (s.readOnce line).mem.bytes = s.mem.bytes := (State.RowStep.of_countRow _ line).bytes
theorem State.readOnce_failing (s : State) (line : Nat) : (s.readOnce line).mem.failing = s.mem.failing := (State.RowStep.of_countRow _ line).failing
theorem State.readOnce_lineFails (s : State) (line l : Nat) : (s.readOnce line).lineFails l = s.lineFails l := by
  rw [State.lineFails, s.readOnce_failing line, ← State.lineFails]
theorem State.readTwice_bytes (s : State) (line : Nat) : (s.readTwice line).mem.bytes = s.mem.bytes := s.readOnce_bytes line
theorem State.readTwice_lostLines (s : State) (line : Nat) : (s.readTwice line).mem.lostLines = s.mem.lostLines := (State.RowStep.of_countRow _ line).lostLines
theorem State.readTwice_partner (s : State) (line p : Nat) : (s.readTwice line).partner p = s.partner p := by
  have hdie : (s.readTwice line).mem.lostDie = s.mem.lostDie := (State.RowStep.of_countRow _ line).lostDie
  rw [State.partner, hdie, ← State.partner]
theorem State.readTwice_entryOf (s : State) (line l : Nat) : (s.readTwice line).entryOf l = s.entryOf l := by
  have hmerges : ((s.readTwice line).chan (chanOf l)).merges = (s.chan (chanOf l)).merges := (State.RowStep.of_countRow (s.intCount line 0) line).merges _
  rw [State.entryOf, hmerges, ← State.entryOf]

theorem State.setFails_lineFails (s : State) (line l : Nat) (b : Bool) : (s.setFails line b).lineFails l = if l = line then b else s.lineFails l := by
  rw [State.lineFails, State.setFails, tget_tset, State.lineFails]

theorem State.readTwice_lineFails (s : State) (line l : Nat) : (s.readTwice line).lineFails l = if l = line then true else s.lineFails l := by
  rw [State.readTwice, State.setFails_lineFails, State.readOnce_lineFails]

/-- The first failure is counted, and of the channel's other counters at most that of its quarantined rows moves. -/
theorem State.readOnce_cnt (h : inSaddle line = true) {i : Nat} (hi : i < 10) : tget 0 (s.readOnce line).mem.cnt (cntKey 0 (chanOf line) i) =
    if i = 0 then (tget 0 s.mem.cnt (cntKey 0 (chanOf line) i) + 1) % 2 ^ 64 else tget 0 s.mem.cnt (cntKey 0 (chanOf line) i) := by
  have hchan := chanOf_lt line
  have hne : ∀ j, j < 16 → i ≠ j → cntKey 0 (chanOf line) i ≠ cntKey 0 (chanOf line) j := fun j hj hij heq =>
    hij (cntKey_inj (by omega) hj (by omega) (by omega) heq).2.2
  rw [State.readOnce, (State.RowStep.of_countRow _ line).cnt _ (hne 10 (by decide) (by omega)), State.intCount_cnt h]
  by_cases h0 : i = 0
  · rw [h0, if_pos rfl, if_pos rfl]
  · rw [if_neg (hne 0 (by decide) h0), if_neg h0]

theorem State.readTwice_cnt (h : inSaddle line = true) {i : Nat} (hi : i < 10) : tget 0 (s.readTwice line).mem.cnt (cntKey 0 (chanOf line) i) =
    if i = 0 then (tget 0 s.mem.cnt (cntKey 0 (chanOf line) i) + 1) % 2 ^ 64 else tget 0 s.mem.cnt (cntKey 0 (chanOf line) i) := State.readOnce_cnt h hi

/-- A counter of the line's channel, after another one or the same was counted up. -/
theorem State.intCount_chan_cnt (h : inSaddle line = true) {i j : Nat} (hi : i < 16) (hj : j < 16) :
    tget 0 (s.intCount line j).mem.cnt (cntKey 0 (chanOf line) i) =
      if i = j then (tget 0 s.mem.cnt (cntKey 0 (chanOf line) i) + 1) % 2 ^ 64 else tget 0 s.mem.cnt (cntKey 0 (chanOf line) i) := by
  have hchan := chanOf_lt line
  rw [State.intCount_cnt h]
  by_cases hij : i = j
  · rw [hij, if_pos rfl, if_pos rfl]
  · rw [if_neg hij, if_neg fun heq => hij (cntKey_inj hi hj (by omega) (by omega) heq).2.2]

theorem State.sliceCount_chan_cnt (s : State) (line : Nat) {i j : Nat} (hi : i < 16) (hj : j < 16) :
    tget 0 (s.sliceCount line j).mem.cnt (cntKey 1 (chanOf line) i) =
      if i = j then (tget 0 s.mem.cnt (cntKey 1 (chanOf line) i) + 1) % 2 ^ 64 else tget 0 s.mem.cnt (cntKey 1 (chanOf line) i) := by
  have hchan := chanOf_lt line
  rw [State.sliceCount_cnt]
  by_cases hij : i = j
  · rw [hij, if_pos rfl, if_pos rfl]
  · rw [if_neg hij, if_neg fun heq => hij (cntKey_inj hi hj (by omega) (by omega) heq).2.2]

/-! ### Tests of a line (R391) -/

section
variable {e : ReadErrors} (port : Nat)

theorem State.testLine_good (h : s.lineFails line = false) (he : e.failing.contains line = false) : s.testLine port line e = (.ok, s) :=
  if_pos (by rw [h, he]; rfl)

section
variable (hin : inSaddle line = true)
include hin

theorem State.testLine_transient (h : s.lineFails line = false) (he : e.failing.contains line = true) (ht : e.transient.contains line = true) :
    s.testLine port line e = (.ok, (s.readOnce line).intCount line 1) := by
  have hgood := s.readOnce_lineFails line line
  rw [h, State.readOnce] at hgood
  unfold State.testLine
  rw [h, he, if_neg (by decide)]
  dsimp only
  rw [if_pos hin, hin, hgood, ht]
  rfl

section
variable (hbad : s.lineFails line = true ∨ (e.failing.contains line = true ∧ e.transient.contains line = false))
include hbad

/-- A line that fails twice is judged by its class. -/
theorem State.testLine_twice : s.testLine port line e =
    if s.classOf line = 1 then
      if (s.readTwice line).lineFails (s.partner (pageOf line) * pageSize + line % pageSize) || e.failing.contains (s.partner (pageOf line) * pageSize + line % pageSize) then
        let t := (((s.readTwice line).setFails (s.partner (pageOf line) * pageSize + line % pageSize) true).intCount line 3).raise { code := fltIntPLost, unit := port, addr := line }
        (.lostP, { t with mem := { t.mem with lostLines := t.mem.lostLines ++ [line] } })
      else (.ok, (((s.readTwice line).wrBytes line ((s.readTwice line).rdBytes (s.partner (pageOf line) * pageSize + line % pageSize) 64)).setFails line false).intCount line 2)
    else if s.classOf line = 2 then (.failedX, ((s.readTwice line).intCount line 5).raise { code := fltIntHost, unit := port, addr := line })
    else (.failedR, (s.readTwice line).intCount line 4) := by
  have hfails : ¬ (!(s.lineFails line || e.failing.contains line)) = true := by
    rcases hbad with h | ⟨h, -⟩ <;> rw [h] <;> simp
  have hagain : ¬ (inSaddle line && !(s.readOnce line).lineFails line && e.transient.contains line) = true := by
    rw [s.readOnce_lineFails line line]
    rcases hbad with h | ⟨-, h⟩ <;> rw [h] <;> simp
  have hcls : ((s.readOnce line).setFails line true).classOf line = s.classOf line := (s.memStep_readTwice line).classOf line
  have hpartner := s.readTwice_partner line (pageOf line)
  rw [State.readTwice] at hpartner
  rw [State.readOnce] at hagain hcls hpartner
  unfold State.testLine
  rw [if_neg hfails]
  dsimp only
  rw [if_pos hin, if_neg hagain, hcls, hpartner]
  rfl

end

end

end

end

end Sys2Proof.Machine
end

