-- ==== Sys2Proof/Proofs/LineChecks.lean ====
section
/-! PROOFS. Reads of lines whose check fails, by class, and of lines in the memory-side cache (R373, R385, R391, R404). -/
namespace Sys2Proof.Machine
open Sys2Proof

/-! ### What the repair of a Class P line writes -/

section
variable {s : State} {a : Nat} {bs : List Byte}

theorem State.wrBytes_rdBytes (s : State) (a : Nat) (bs : List Byte) : (s.wrBytes a bs).rdBytes a bs.length = bs :=
  State.rdBytes_eq fun _ hi => State.rdByte_wrBytes_in hi

theorem State.rdBytes_length (s : State) (a n : Nat) : (s.rdBytes a n).length = n := by
  rw [State.rdBytes_eq_map, List.length_map, upto_eq_range', List.length_range']

theorem State.rdBytes_congr {t : State} (h : t.mem.bytes = s.mem.bytes) (a n : Nat) : t.rdBytes a n = s.rdBytes a n := by
  rw [State.rdBytes, h, ← State.rdBytes]

theorem State.rdByte_congr {t : State} (h : t.mem.bytes = s.mem.bytes) (a : Nat) : t.rdByte a = s.rdByte a := by
  rw [State.rdByte, h, ← State.rdByte]

end

/-! ### Lost lines -/

/-- A Class P line is lost: its fault is raised, and its owners end. -/
def State.loseLine (s : State) (f : FaultInfo) (line : Nat) : State :=
  { s.raise f with mem := { (s.raise f).mem with lostLines := (s.raise f).mem.lostLines ++ [line] } }

theorem State.loseLine_mem (s : State) (f : FaultInfo) (line : Nat) : (s.loseLine f line).mem = { s.mem with lostLines := s.mem.lostLines ++ [line] } := by
  rw [State.loseLine, State.raise_mem]

theorem State.loseLine_lastRecord (s : State) (f : FaultInfo) (line : Nat) : (s.loseLine f line).od.lastRecord = faultRecord f s.od.faultSeq := s.raise_lastRecord f

/-! ### Judgement by class -/

section
variable {s : State} {port line : Nat} {e : ReadErrors} (hin : inSaddle line = true)
include hin

theorem State.testLine_transient_facts (h : s.lineFails line = false) (he : e.failing.contains line = true) (ht : e.transient.contains line = true) :
    (s.testLine port line e).1 = .ok ∧ (s.testLine port line e).2.lineFails line = false ∧ (s.testLine port line e).2.mem.bytes = s.mem.bytes ∧
      tget 0 (s.testLine port line e).2.mem.cnt (cntKey 0 (chanOf line) 0) = (tget 0 s.mem.cnt (cntKey 0 (chanOf line) 0) + 1) % 2 ^ 64 ∧
      tget 0 (s.testLine port line e).2.mem.cnt (cntKey 0 (chanOf line) 1) = (tget 0 s.mem.cnt (cntKey 0 (chanOf line) 1) + 1) % 2 ^ 64 := by
  rw [State.testLine_transient port hin h he ht]
  refine ⟨rfl, (s.readOnce_lineFails line line).trans h, s.readOnce_bytes line, ?_, ?_⟩
  · rw [State.intCount_chan_cnt hin (by decide) (by decide), if_neg (by decide), State.readOnce_cnt hin (by decide), if_pos rfl]
  · rw [State.intCount_chan_cnt hin (by decide) (by decide), if_pos rfl, State.readOnce_cnt hin (by decide), if_neg (by decide)]

variable (hbad : s.lineFails line = true ∨ (e.failing.contains line = true ∧ e.transient.contains line = false))

/-- Counter `j` of a line that failed twice, counted up too. -/
theorem State.readTwice_intCount_cnt {i j : Nat} (hi : i < 10) (hj : j < 10) (hj0 : j ≠ 0) :
    tget 0 ((s.readTwice line).intCount line j).mem.cnt (cntKey 0 (chanOf line) i) =
      if i = 0 ∨ i = j then (tget 0 s.mem.cnt (cntKey 0 (chanOf line) i) + 1) % 2 ^ 64 else tget 0 s.mem.cnt (cntKey 0 (chanOf line) i) := by
  rw [State.intCount_chan_cnt hin (by omega) (by omega), State.readTwice_cnt hin hi]
  by_cases h0 : i = 0
  · rw [if_pos h0, if_neg (by omega), if_pos (Or.inl h0)]
  · by_cases hij : i = j
    · rw [if_neg h0, if_pos hij, if_pos (Or.inr hij)]
    · rw [if_neg h0, if_neg hij, if_neg (by omega)]

include hbad

theorem State.testLine_repaired (hcls : s.classOf line = 1)
    (hgood : s.lineFails (s.partner (pageOf line) * pageSize + line % pageSize) = false)
    (hread : e.failing.contains (s.partner (pageOf line) * pageSize + line % pageSize) = false)
    (hne : s.partner (pageOf line) * pageSize + line % pageSize ≠ line) :
    s.testLine port line e = (.ok, (((s.readTwice line).wrBytes line (s.rdBytes (s.partner (pageOf line) * pageSize + line % pageSize) 64)).setFails line false).intCount line 2) := by
  rw [State.testLine_twice port hin hbad, if_pos hcls, State.readTwice_lineFails, if_neg hne, hgood, hread, if_neg (by decide),
    State.rdBytes_congr (s.readTwice_bytes line)]

theorem State.testLine_lost (hcls : s.classOf line = 1)
    (hfails : s.lineFails (s.partner (pageOf line) * pageSize + line % pageSize) = true ∨ e.failing.contains (s.partner (pageOf line) * pageSize + line % pageSize) = true) :
    s.testLine port line e = (.lostP, (((s.readTwice line).setFails (s.partner (pageOf line) * pageSize + line % pageSize) true).intCount line 3).loseLine
      { code := fltIntPLost, unit := port, addr := line } line) := by
  rw [State.testLine_twice port hin hbad, if_pos hcls, State.readTwice_lineFails]
  refine if_pos ?_
  split
  · rfl
  · rcases hfails with h | h <;> rw [h]
    · rfl
    · rw [Bool.or_true]

theorem State.testLine_classX_twice (hcls : s.classOf line = 2) :
    s.testLine port line e = (.failedX, ((s.readTwice line).intCount line 5).raise { code := fltIntHost, unit := port, addr := line }) := by
  rw [State.testLine_twice port hin hbad, if_neg (by omega), if_pos hcls]

theorem State.testLine_classR_twice (hcls : s.classOf line ≠ 1) (hcls' : s.classOf line ≠ 2) :
    s.testLine port line e = (.failedR, (s.readTwice line).intCount line 4) := by
  rw [State.testLine_twice port hin hbad, if_neg hcls, if_neg hcls']

end

/-! ### The two copies of a page (R363) -/

theorem State.duplicate_ne (s : State) (line : Nat) : s.partner (pageOf line) * pageSize + line % pageSize ≠ line := by
  intro h
  have hpage : (s.partner (pageOf line) * pageSize + line % pageSize) / pageSize = pageOf line := by rw [h, pageOf]
  have hlt : line % pageSize < pageSize := Nat.mod_lt _ (by decide)
  rw [Nat.mul_comm, Nat.mul_add_div (by decide), Nat.div_eq_of_lt hlt, Nat.add_zero] at hpage
  exact s.partner_ne _ hpage

/-! ### Lines in the memory-side cache (R373, R391, R404) -/

section
variable {s : State} {port ways line : Nat} {e : ReadErrors}

/-- The cached copy, marked where a read finds it bad. -/
def State.marked (s : State) (line : Nat) (e : ReadErrors) : State :=
  if e.cached.contains line then s.modCached line (fun c => { c with bad := true }) else s

theorem State.marked_kept (s : State) (line : Nat) (e : ReadErrors) : (s.marked line e).mem.bytes = s.mem.bytes ∧
    (s.marked line e).mem.failing = s.mem.failing ∧ (s.marked line e).mem.cnt = s.mem.cnt ∧ s.MemStep (s.marked line e) := by
  rw [State.marked]
  split
  · exact ⟨rfl, rfl, rfl, s.memStep_modCached _ _⟩
  · exact ⟨rfl, rfl, rfl, .refl s⟩

/-- The state after a lookup that hits. -/
def State.hit (s : State) (line : Nat) (c : CacheLine) : State :=
  (s.putLine line (some { c with use := s.mem.useClock })).modSlice (chanOf line) (fun x => { x with hits := (x.hits + 1) % 2 ^ 64 })

theorem State.marked_cached {c : CacheLine} (hc : tget none s.mem.cache line = some c) :
    tget none (s.marked line e).mem.cache line = some { c with bad := c.bad || e.cached.contains line } := by
  rw [State.marked]
  split
  · rename_i h
    rw [State.modCached, h, Bool.or_true]
    dsimp only
    rw [tget_tmod, if_pos rfl, hc]
    rfl
  · rename_i h
    rw [Bool.eq_false_of_not_eq_true h, Bool.or_false, hc]

theorem State.hit_cached (c : CacheLine) : tget none (s.hit line c).mem.cache line = some { c with use := s.mem.useClock } := by
  rw [State.hit, State.modSlice, State.putLine, tget_tset, if_pos rfl]

theorem State.hit_kept (s : State) (line : Nat) (c : CacheLine) : (s.hit line c).mem.bytes = s.mem.bytes ∧ (s.hit line c).mem.failing = s.mem.failing ∧
    (s.hit line c).mem.cnt = s.mem.cnt ∧ ∀ a, (s.hit line c).classOf a = s.classOf a := ⟨rfl, rfl, rfl, fun _ => rfl⟩

theorem State.sliceCount_kept (s : State) (line i : Nat) : (s.sliceCount line i).mem.bytes = s.mem.bytes ∧ (s.sliceCount line i).mem.failing = s.mem.failing ∧
    (s.sliceCount line i).mem.cache = s.mem.cache ∧ ∀ a, (s.sliceCount line i).classOf a = s.classOf a := ⟨rfl, rfl, rfl, fun _ => rfl⟩

/-- A read of a cached line without an open entry. -/
theorem State.readLine_cached {c : CacheLine} (hin : inSaddle line = true) (hentry : s.entryOf line = none) (hc : tget none s.mem.cache line = some c) :
    s.readLine port ways line e =
      (if c.bad || e.cached.contains line then ((s.marked line e).hit line { c with bad := c.bad || e.cached.contains line }).cacheFailure port ways line e
       else (.ok, (s.marked line e).hit line { c with bad := c.bad || e.cached.contains line })) := by
  have hclose : s.closeLine line e = s := by rw [State.closeLine, hentry]
  have hlookup : (s.marked line e).lookup line = (true, (s.marked line e).hit line { c with bad := c.bad || e.cached.contains line }) := by
    rw [State.lookup, State.marked_cached hc]
    rfl
  have hbad : ((s.marked line e).hit line { c with bad := c.bad || e.cached.contains line }).cacheBad line = (c.bad || e.cached.contains line) := by
    rw [State.cacheBad, State.hit_cached]
    rfl
  unfold State.readLine
  rw [if_pos hin, hclose]
  dsimp only
  rw [← State.marked, hlookup]
  dsimp only
  rw [hbad]

/-- A line that is fetched from DRAM and sound is cached anew, where it is cached at all. -/
theorem State.cacheAlloc_sound (hnone : tget none s.mem.cache line = none) : (s.cacheAlloc line ways false).cacheBad line = false := by
  have hput : ∀ (t : State) (w u : Nat), (t.putLine line (some { way := w, dirty := false, use := u })).cacheBad line = false := fun t w u => by
    rw [State.cacheBad, State.putLine, tget_tset, if_pos rfl]
    rfl
  unfold State.cacheAlloc
  dsimp only
  split
  · exact hput _ _ _
  · split
    · rw [State.cacheBad, hnone]
      rfl
    · exact hput _ _ _

theorem State.writeBack_cnt (s : State) (l : Nat) (c : CacheLine) : (s.writeBack l c).mem.cnt = s.mem.cnt := by
  have hdram : (s.dramWrite l).mem.cnt = s.mem.cnt := by
    unfold State.dramWrite
    dsimp only
    split <;> rfl
  exact hdram

theorem State.cacheAlloc_cnt (s : State) (line ways : Nat) (dirty : Bool) : (s.cacheAlloc line ways dirty).mem.cnt = s.mem.cnt := by
  unfold State.cacheAlloc
  dsimp only
  split
  · rfl
  · split
    · rfl
    · rename_i v _
      have hback : (if v.2.dirty = true then s.writeBack v.1 v.2 else s).mem.cnt = s.mem.cnt := by
        split
        · exact s.writeBack_cnt _ _
        · rfl
      exact hback

/-- What a read of a cached line whose copy fails finds. -/
def State.copyFailed (s : State) (line : Nat) (e : ReadErrors) (c : CacheLine) : State :=
  ((s.marked line e).hit line { c with bad := c.bad || e.cached.contains line }).sliceCount line 0

section
variable (s line e) (c : CacheLine)

theorem State.copyFailed_cached : tget none (s.copyFailed line e c).mem.cache line =
    some { c with bad := c.bad || e.cached.contains line, use := (s.marked line e).mem.useClock } := by
  rw [State.copyFailed, (State.sliceCount_kept _ _ _).2.2.1, State.hit_cached]

theorem State.copyFailed_bytes : (s.copyFailed line e c).mem.bytes = s.mem.bytes := by
  rw [State.copyFailed, (State.sliceCount_kept _ _ _).1, (State.hit_kept _ _ _).1, (s.marked_kept line e).1]

theorem State.copyFailed_failing : (s.copyFailed line e c).mem.failing = s.mem.failing := by
  rw [State.copyFailed, (State.sliceCount_kept _ _ _).2.1, (State.hit_kept _ _ _).2.1, (s.marked_kept line e).2.1]

theorem State.copyFailed_cnt {i : Nat} (hi : i < 16) : tget 0 (s.copyFailed line e c).mem.cnt (cntKey 1 (chanOf line) i) =
    if i = 0 then (tget 0 s.mem.cnt (cntKey 1 (chanOf line) i) + 1) % 2 ^ 64 else tget 0 s.mem.cnt (cntKey 1 (chanOf line) i) := by
  rw [State.copyFailed, State.sliceCount_chan_cnt _ _ hi (by decide), (State.hit_kept _ _ _).2.2.1, (s.marked_kept line e).2.2.1]

theorem State.copyFailed_classOf (a : Nat) : (s.copyFailed line e c).classOf a = s.classOf a := by
  rw [State.copyFailed, (State.sliceCount_kept _ _ _).2.2.2, (State.hit_kept _ _ _).2.2.2, (s.marked_kept line e).2.2.2.classOf]

end

section
variable {c : CacheLine} (hin : inSaddle line = true) (hentry : s.entryOf line = none) (hc : tget none s.mem.cache line = some c)
include hin hentry hc

theorem State.readLine_hit (hgood : c.bad = false) (hread : e.cached.contains line = false) : (s.readLine port ways line e).1 = .ok ∧
    (s.readLine port ways line e).2.mem.bytes = s.mem.bytes ∧ (s.readLine port ways line e).2.mem.failing = s.mem.failing := by
  obtain ⟨hbytes, hfailing, -, -⟩ := s.marked_kept line e
  rw [State.readLine_cached hin hentry hc, if_neg (by rw [hgood, hread]; decide)]
  exact ⟨rfl, hbytes, hfailing⟩

variable (hbad : c.bad = true ∨ e.cached.contains line = true)
include hbad

theorem State.readLine_copyFailed : s.readLine port ways line e =
    if !c.dirty then ((s.copyFailed line e c).putLine line none).readMiss port ways line e
    else if s.classOf line = 2 then
      (.failedX, ((s.copyFailed line e c).sliceCount line 5).raise { code := fltIntHost, unit := port, detail := 1, addr := line })
    else (.failedR, (s.copyFailed line e c).sliceCount line 4) := by
  have hor : (c.bad || e.cached.contains line) = true := by rcases hbad with h | h <;> rw [h] <;> simp
  have hdirty : (tget none (s.copyFailed line e c).mem.cache line).any (·.dirty) = c.dirty := by
    rw [State.copyFailed_cached]
    rfl
  rw [State.readLine_cached hin hentry hc, if_pos hor, State.cacheFailure, ← State.copyFailed, hdirty, State.copyFailed_classOf]

theorem State.readLine_refetched (hclean : c.dirty = false) (hgood : s.lineFails line = false) (hread : e.failing.contains line = false) :
    s.readLine port ways line e = (.ok, (((s.copyFailed line e c).putLine line none).dramRead port line).cacheAlloc line ways false) := by
  have hfails : (((s.copyFailed line e c).putLine line none).dramRead port line).lineFails line = false := by
    refine Eq.trans ?_ hgood
    rw [State.lineFails, State.lineFails]
    exact congrArg (fun f => tget false f line) (s.copyFailed_failing line e c)
  rw [State.readLine_copyFailed hin hentry hc hbad, hclean, if_pos (by decide), State.readMiss, State.testLine_good port hfails hread]

end

end

/-! ### The counts of a slice -/

theorem State.setFails_cnt (s : State) (line : Nat) (b : Bool) : (s.setFails line b).mem.cnt = s.mem.cnt := rfl
theorem State.wrBytes_cnt (s : State) (a : Nat) (bs : List Byte) : (s.wrBytes a bs).mem.cnt = s.mem.cnt := rfl

section
variable {s : State} {port line : Nat} {e : ReadErrors} (hin : inSaddle line = true) {c i : Nat} (hc : c < 2 ^ 16) (hi : i < 16)
include hin hc hi

theorem State.intCount_slice {j : Nat} (hj : j < 16) : tget 0 (s.intCount line j).mem.cnt (cntKey 1 c i) = tget 0 s.mem.cnt (cntKey 1 c i) := by
  have hchan := chanOf_lt line
  rw [State.intCount_cnt hin, if_neg fun heq => absurd (cntKey_inj hi hj hc (by omega) heq).1 (by decide)]

theorem State.readOnce_slice : tget 0 (s.readOnce line).mem.cnt (cntKey 1 c i) = tget 0 s.mem.cnt (cntKey 1 c i) := by
  have hchan := chanOf_lt line
  rw [State.readOnce, (State.RowStep.of_countRow _ line).cnt _ fun heq => absurd (cntKey_inj hi (by decide) hc (by omega) heq).1 (by decide),
    State.intCount_slice hin hc hi (by decide)]

theorem State.readTwice_slice : tget 0 (s.readTwice line).mem.cnt (cntKey 1 c i) = tget 0 s.mem.cnt (cntKey 1 c i) := by
  rw [State.readTwice, State.setFails_cnt, State.readOnce_slice hin hc hi]

theorem State.readTwice_intCount_slice {j : Nat} (hj : j < 16) : tget 0 ((s.readTwice line).intCount line j).mem.cnt (cntKey 1 c i) = tget 0 s.mem.cnt (cntKey 1 c i) := by
  rw [State.intCount_slice hin hc hi hj, State.readTwice_slice hin hc hi]

/-- A test of a line counts nothing of a slice. -/
theorem State.testLine_slice : tget 0 (s.testLine port line e).2.mem.cnt (cntKey 1 c i) = tget 0 s.mem.cnt (cntKey 1 c i) := by
  by_cases hbad : s.lineFails line = true ∨ (e.failing.contains line = true ∧ e.transient.contains line = false)
  · by_cases h1 : s.classOf line = 1
    · cases hgood : s.lineFails (s.partner (pageOf line) * pageSize + line % pageSize) || e.failing.contains (s.partner (pageOf line) * pageSize + line % pageSize) with
      | false =>
        obtain ⟨hother, hread⟩ := Bool.or_eq_false_iff.mp hgood
        rw [State.testLine_repaired hin hbad h1 hother hread (s.duplicate_ne line)]
        rw [State.intCount_slice hin hc hi (by decide), State.setFails_cnt, State.wrBytes_cnt, State.readTwice_slice hin hc hi]
      | true =>
        rw [State.testLine_lost hin hbad h1 (Bool.or_eq_true_iff.mp hgood)]
        rw [State.loseLine_mem]
        dsimp only
        rw [State.intCount_slice hin hc hi (by decide), State.setFails_cnt, State.readTwice_slice hin hc hi]
    · by_cases h2 : s.classOf line = 2
      · rw [State.testLine_classX_twice hin hbad h2]
        dsimp only
        rw [State.raise_mem]
        exact State.readTwice_intCount_slice hin hc hi (by decide)
      · rw [State.testLine_classR_twice hin hbad h1 h2]
        exact State.readTwice_intCount_slice hin hc hi (by decide)
  · rw [not_or, Bool.not_eq_true, not_and, Bool.not_eq_false] at hbad
    obtain ⟨hgood, htransient⟩ := hbad
    cases hread : e.failing.contains line with
    | false => rw [State.testLine_good port hgood hread]
    | true =>
      rw [State.testLine_transient port hin hgood hread (htransient hread)]
      exact (State.intCount_slice hin hc hi (by decide)).trans (State.readOnce_slice hin hc hi)

theorem State.readMiss_slice (ways : Nat) : tget 0 (s.readMiss port ways line e).2.mem.cnt (cntKey 1 c i) = tget 0 s.mem.cnt (cntKey 1 c i) := by
  have htest := State.testLine_slice (s := s.dramRead port line) (port := port) (e := e) hin hc hi
  rw [State.readMiss]
  split
  · rename_i t heq
    rw [heq] at htest
    rw [State.cacheAlloc_cnt]
    exact htest
  · exact htest

end

/-! ### The counts of a line that failed twice, by class -/

section
variable {s : State} {port line : Nat} {e : ReadErrors} (hin : inSaddle line = true)
include hin

/-- What stands after a line was lost. -/
theorem State.lost_facts (f : FaultInfo) :
    let r := (((s.readTwice line).setFails (s.partner (pageOf line) * pageSize + line % pageSize) true).intCount line 3).loseLine f line
    (∀ i < 10, tget 0 r.mem.cnt (cntKey 0 (chanOf line) i) =
      if i = 0 ∨ i = 3 then (tget 0 s.mem.cnt (cntKey 0 (chanOf line) i) + 1) % 2 ^ 64 else tget 0 s.mem.cnt (cntKey 0 (chanOf line) i)) ∧
    r.lineFails line = true ∧ r.lineFails (s.partner (pageOf line) * pageSize + line % pageSize) = true ∧ r.mem.bytes = s.mem.bytes ∧
    r.mem.lostLines = s.mem.lostLines ++ [line] ∧ ∃ q, r.od.lastRecord = faultRecord f q := by
  intro r
  obtain ⟨u, hu⟩ : ∃ u, u = (s.readTwice line).setFails (s.partner (pageOf line) * pageSize + line % pageSize) true := ⟨_, rfl⟩
  have hr : r = (u.intCount line 3).loseLine f line := by rw [hu]
  have hfails : ∀ l, r.lineFails l = u.lineFails l := fun l => by rw [hr, State.lineFails, State.loseLine_mem]; rfl
  refine ⟨fun i hi => ?_, ?_, ?_, ?_, ?_, _, State.loseLine_lastRecord _ _ _⟩
  · have hcnt : u.mem.cnt = (s.readTwice line).mem.cnt := by rw [hu]; rfl
    rw [← State.readTwice_intCount_cnt hin hi (j := 3) (by decide) (by decide), hr, State.loseLine_mem, State.intCount_chan_cnt hin (by omega) (by decide),
      State.intCount_chan_cnt hin (by omega) (by decide), hcnt]
  · rw [hfails, hu, State.setFails_lineFails, if_neg (s.duplicate_ne line).symm, State.readTwice_lineFails, if_pos rfl]
  · rw [hfails, hu, State.setFails_lineFails, if_pos rfl]
  · have hbytes : (u.intCount line 3).mem.bytes = (s.readTwice line).mem.bytes := by rw [hu]; rfl
    rw [hr, State.loseLine_mem, hbytes, s.readTwice_bytes]
  · have hlost : (u.intCount line 3).mem.lostLines = (s.readTwice line).mem.lostLines := by rw [hu]; rfl
    rw [hr, State.loseLine_mem, hlost, s.readTwice_lostLines]

/-- What stands after the repair of a line from its duplicate. -/
theorem State.repaired_facts (bs : List Byte) (hbs : bs.length = 64) :
    let r := (((s.readTwice line).wrBytes line bs).setFails line false).intCount line 2
    (∀ i < 10, tget 0 r.mem.cnt (cntKey 0 (chanOf line) i) =
      if i = 0 ∨ i = 2 then (tget 0 s.mem.cnt (cntKey 0 (chanOf line) i) + 1) % 2 ^ 64 else tget 0 s.mem.cnt (cntKey 0 (chanOf line) i)) ∧
    r.lineFails line = false ∧ r.rdBytes line 64 = bs ∧ ∀ x, x < line ∨ line + 64 ≤ x → r.rdByte x = s.rdByte x := by
  intro r
  have hbytes : r.mem.bytes = ((s.readTwice line).wrBytes line bs).mem.bytes := rfl
  refine ⟨fun i hi => ?_, ?_, ?_, fun x hx => ?_⟩
  · have hcnt : tget 0 r.mem.cnt (cntKey 0 (chanOf line) i) = tget 0 ((s.readTwice line).intCount line 2).mem.cnt (cntKey 0 (chanOf line) i) := rfl
    rw [hcnt, State.readTwice_intCount_cnt hin hi (by decide) (by decide)]
  · have hfails : r.lineFails line = (((s.readTwice line).wrBytes line bs).setFails line false).lineFails line := rfl
    rw [hfails, State.setFails_lineFails, if_pos rfl]
  · rw [State.rdBytes_congr hbytes, ← hbs, State.wrBytes_rdBytes]
  · rw [State.rdByte_congr hbytes, State.rdByte_wrBytes_out (by omega), State.rdByte_congr (s.readTwice_bytes line)]

/-- What stands after a Class X or Class R failure, counted under `j`, before its record. -/
theorem State.counted_facts {j : Nat} (hj : j < 10) (hj0 : j ≠ 0) :
    let r := (s.readTwice line).intCount line j
    (∀ i < 10, tget 0 r.mem.cnt (cntKey 0 (chanOf line) i) =
      if i = 0 ∨ i = j then (tget 0 s.mem.cnt (cntKey 0 (chanOf line) i) + 1) % 2 ^ 64 else tget 0 s.mem.cnt (cntKey 0 (chanOf line) i)) ∧
    r.lineFails line = true ∧ r.mem.bytes = s.mem.bytes := by
  intro r
  refine ⟨fun i hi => State.readTwice_intCount_cnt hin hi hj hj0, ?_, s.readTwice_bytes line⟩
  have hfails : r.lineFails line = (s.readTwice line).lineFails line := rfl
  rw [hfails, State.readTwice_lineFails, if_pos rfl]

/-- A line that failed twice: the first counter of its channel is counted up, the second is not. -/
theorem State.testLine_twice_cnt (hbad : s.lineFails line = true ∨ (e.failing.contains line = true ∧ e.transient.contains line = false)) :
    tget 0 (s.testLine port line e).2.mem.cnt (cntKey 0 (chanOf line) 0) = (tget 0 s.mem.cnt (cntKey 0 (chanOf line) 0) + 1) % 2 ^ 64 ∧
      tget 0 (s.testLine port line e).2.mem.cnt (cntKey 0 (chanOf line) 1) = tget 0 s.mem.cnt (cntKey 0 (chanOf line) 1) := by
  by_cases h1 : s.classOf line = 1
  · cases hgood : s.lineFails (s.partner (pageOf line) * pageSize + line % pageSize) || e.failing.contains (s.partner (pageOf line) * pageSize + line % pageSize) with
    | false =>
      obtain ⟨hother, hread⟩ := Bool.or_eq_false_iff.mp hgood
      obtain ⟨hcnt, -, -, -⟩ := State.repaired_facts (s := s) hin (s.rdBytes (s.partner (pageOf line) * pageSize + line % pageSize) 64) (s.rdBytes_length _ _)
      rw [State.testLine_repaired hin hbad h1 hother hread (s.duplicate_ne line)]
      exact ⟨(hcnt 0 (by decide)).trans (if_pos (by decide)), (hcnt 1 (by decide)).trans (if_neg (by decide))⟩
    | true =>
      obtain ⟨hcnt, -, -, -, -, -⟩ := State.lost_facts (s := s) hin { code := fltIntPLost, unit := port, addr := line }
      rw [State.testLine_lost hin hbad h1 (Bool.or_eq_true_iff.mp hgood)]
      exact ⟨(hcnt 0 (by decide)).trans (if_pos (by decide)), (hcnt 1 (by decide)).trans (if_neg (by decide))⟩
  · by_cases h2 : s.classOf line = 2
    · obtain ⟨hcnt, -, -⟩ := State.counted_facts (s := s) hin (j := 5) (by decide) (by decide)
      rw [State.testLine_classX_twice hin hbad h2]
      dsimp only
      rw [State.raise_mem]
      exact ⟨(hcnt 0 (by decide)).trans (if_pos (by decide)), (hcnt 1 (by decide)).trans (if_neg (by decide))⟩
    · obtain ⟨hcnt, -, -⟩ := State.counted_facts (s := s) hin (j := 4) (by decide) (by decide)
      rw [State.testLine_classR_twice hin hbad h1 h2]
      exact ⟨(hcnt 0 (by decide)).trans (if_pos (by decide)), (hcnt 1 (by decide)).trans (if_neg (by decide))⟩

end

end Sys2Proof.Machine

namespace Sys2Proof.Proofs
open Sys2Proof.Machine

/-- Settles O43. -/
theorem lineChecks : Obligations.LineChecks := by
  unfold Obligations.LineChecks
  intro s port line e halign hline cnt up other r
  have hin : inSaddle line = true := decide_eq_true hline
  refine ⟨fun hgood hread => State.testLine_good port hgood hread, State.testLine_transient_facts hin, fun hbad => ?_, fun ways c hentry hc => ?_⟩
  · obtain ⟨hcount0, hcount1⟩ := State.testLine_twice_cnt (port := port) hin hbad
    refine ⟨hcount0, hcount1, fun hcls hgood hread => ?_, fun hcls hfails => ?_, fun hcls => ?_, fun hcls => ?_⟩
    · have hr : r = _ := State.testLine_repaired hin hbad hcls hgood hread (s.duplicate_ne line)
      obtain ⟨hcnt, hfails, hbytes, hout⟩ := State.repaired_facts (s := s) hin (s.rdBytes other 64) (s.rdBytes_length _ _)
      rw [hr]
      exact ⟨rfl, hfails, (hcnt 2 (by decide)).trans (if_pos (by decide)), hbytes, hout⟩
    · have hr : r = _ := State.testLine_lost hin hbad hcls hfails
      obtain ⟨hcnt, hline, hother, hbytes, hlost, hrecord⟩ := State.lost_facts (s := s) hin { code := fltIntPLost, unit := port, addr := line }
      rw [hr]
      exact ⟨rfl, hline, hother, (hcnt 3 (by decide)).trans (if_pos (by decide)), hbytes, hlost, hrecord⟩
    · have hr : r = _ := State.testLine_classX_twice hin hbad hcls
      obtain ⟨hcnt, hfails, hbytes⟩ := State.counted_facts (s := s) hin (j := 5) (by decide) (by decide)
      rw [hr]
      refine ⟨rfl, ?_, ?_, ?_, _, State.raise_lastRecord _ _⟩
      · rw [State.lineFails, State.raise_mem, ← State.lineFails, hfails]
      · show tget 0 (State.raise _ _).mem.cnt _ = _
        rw [State.raise_mem, hcnt 5 (by decide), if_pos (by decide)]
      · rw [State.raise_mem, hbytes]
    · have hr : r = _ := State.testLine_classR_twice hin hbad (by omega) (by omega)
      obtain ⟨hcnt, hfails, hbytes⟩ := State.counted_facts (s := s) hin (j := 4) (by decide) (by decide)
      rw [hr]
      exact ⟨rfl, hfails, (hcnt 4 (by decide)).trans (if_pos (by decide)), hbytes⟩
  · intro q slice
    have hslice : ∀ t : State, t.mem.cnt = (s.copyFailed line e c).mem.cnt → slice t 0 = up (slice s 0) := fun t ht => by
      show tget 0 t.mem.cnt _ = _
      rw [ht, State.copyFailed_cnt _ _ _ _ (by decide), if_pos rfl]
    have hcounted : ∀ j < 16, j ≠ 0 → slice ((s.copyFailed line e c).sliceCount line j) 0 = up (slice s 0) ∧
        slice ((s.copyFailed line e c).sliceCount line j) j = up (slice s j) := fun j hj hj0 => by
      have hcnt : ∀ i < 16, slice ((s.copyFailed line e c).sliceCount line j) i = _ := fun i hi => State.sliceCount_chan_cnt _ _ hi hj
      rw [hcnt 0 (by decide), hcnt j hj, if_neg (Ne.symm hj0), if_pos rfl, State.copyFailed_cnt _ _ _ _ (by decide), State.copyFailed_cnt _ _ _ _ hj, if_pos rfl, if_neg hj0]
      exact ⟨rfl, rfl⟩
    have hbytes : ∀ j, ((s.copyFailed line e c).sliceCount line j).mem.bytes = s.mem.bytes := fun j => (State.sliceCount_kept _ _ _).1.trans (s.copyFailed_bytes line e c)
    refine ⟨State.readLine_hit hin hentry hc, fun hbad => ?_⟩
    have hq : q = _ := State.readLine_copyFailed hin hentry hc hbad
    refine ⟨?_, fun hclean hgood hread => ?_, fun hdirty hcls => ?_, fun hdirty hcls => ?_⟩
    · rw [hq]
      split
      · refine (State.readMiss_slice hin (Nat.lt_trans (chanOf_lt line) (by decide)) (by decide) ways).trans ?_
        exact hslice _ rfl
      · split
        · show tget 0 (State.raise _ _).mem.cnt _ = _
          rw [State.raise_mem]
          exact (hcounted 5 (by decide) (by decide)).1
        · exact (hcounted 4 (by decide) (by decide)).1
    · have hfetched : q = _ := State.readLine_refetched hin hentry hc hbad hclean hgood hread
      rw [hfetched]
      refine ⟨rfl, ?_, State.cacheAlloc_sound ?_⟩
      · exact (State.sameMemory_cacheAlloc _ _ _ _).bytes.trans (s.copyFailed_bytes line e c)
      · show tget none (tset none _ line none) line = none
        rw [tget_tset, if_pos rfl]
    · rw [hdirty, if_neg (by decide), if_neg hcls] at hq
      rw [hq]
      refine ⟨rfl, hbytes 4, ?_, (hcounted 4 (by decide) (by decide)).2⟩
      show State.cacheBad ((s.copyFailed line e c).sliceCount line 4) line = true
      rw [State.cacheBad, (State.sliceCount_kept _ _ _).2.2.1, State.copyFailed_cached]
      exact Bool.or_eq_true_iff.mpr hbad
    · rw [hdirty, if_neg (by decide), if_pos hcls] at hq
      rw [hq]
      refine ⟨rfl, ?_, ?_, _, State.raise_lastRecord _ _⟩
      · rw [State.raise_mem, hbytes]
      · show tget 0 (State.raise _ _).mem.cnt _ = _
        rw [State.raise_mem]
        exact (hcounted 5 (by decide) (by decide)).2

end Sys2Proof.Proofs

end

