-- ==== Sys2Proof/Proofs/MergeEntries.lean ====
section
/-! PROOFS. Urgency, refreshes, retraining, flushes and merge entries (R370, R375, R379, R380, R387). -/
namespace Sys2Proof.Machine
open Sys2Proof

/-! ### Lost lines settled -/

theorem State.settleLost_of_nil {s : State} (h : s.mem.lostLines = []) : s.settleLost = s := by
  unfold State.settleLost
  dsimp only
  rw [h, List.foldl_nil, ← h]

/-! ### Urgency (R370) -/

theorem urgencyOf_none {t a : Nat} (h : t = 0 ∨ a < t * 50 / 100) : urgencyOf t a = 0 := by
  unfold urgencyOf
  rcases h with h | h
  · rw [if_pos h]
  · rw [if_neg (by omega), if_neg (by omega), if_neg (by omega), if_neg (by omega)]

theorem urgencyOf_half {t a : Nat} (ht : t ≠ 0) (h : t * 50 / 100 ≤ a) (h' : a < t * 75 / 100) : urgencyOf t a = 1 := by
  unfold urgencyOf
  rw [if_neg ht, if_neg (by omega), if_neg (by omega), if_pos h]

theorem urgencyOf_most {t a : Nat} (ht : t ≠ 0) (h : t * 75 / 100 ≤ a) (h' : a < t * 90 / 100) : urgencyOf t a = 2 := by
  unfold urgencyOf
  rw [if_neg ht, if_neg (by omega), if_pos h]

theorem urgencyOf_near {t a : Nat} (ht : t ≠ 0) (h : t * 90 / 100 ≤ a) : urgencyOf t a = 3 := by
  unfold urgencyOf
  rw [if_neg ht, if_pos h]

/-- A port after its request was examined. -/
def MemPort.aged (m : MemPort) (port age : Nat) : MemPort :=
  { m with
    lastAge := age, urgency := urgencyOf (m.targetOf port) age, maxLat := max m.maxLat age
    late := if m.targetOf port ≠ 0 ∧ age = m.targetOf port then (m.late + 1) % 2 ^ 64 else m.late }

theorem answers_requestUrgencyRise {s : State} (hup : s.up = true) {port : Nat} (age : Nat) (h : port < 44) :
    Answers (.requestUrgencyRise port age) s (s.modPortStat port (fun m => m.aged port age)) := answers_congr (answers_whenUp rfl hup) (if_pos h)

/-! ### Refreshes (R379) -/

section
variable {s : State} (hup : s.up = true) {ch bank : Nat} (hch : ch < 64) (hbank : bank < 32) (hactive : (s.chan ch).st = .active)
include hup hch hbank hactive

theorem answers_refreshDue_postponed (h : tget 0 (s.chan ch).postponed bank < 8) : Answers (.refreshDue ch bank true) s
    (s.modChan ch (fun c => { c with postponed := tset 0 c.postponed bank (tget 0 (s.chan ch).postponed bank + 1) })) :=
  answers_congr (answers_whenUp rfl hup) ((if_pos ⟨hch, hbank, hactive⟩).trans (congrArg _ (funext fun c => if_pos (by rw [decide_eq_true h]; rfl))))

theorem answers_refreshDue_runs {busy : Bool} (h : busy = true → 8 ≤ tget 0 (s.chan ch).postponed bank) : Answers (.refreshDue ch bank busy) s
    (s.modChan ch (fun c => { c with postponed := tset 0 c.postponed bank 0, refForced := if busy then (c.refForced + 1) % 2 ^ 32 else c.refForced })) := by
  refine answers_congr (answers_whenUp rfl hup) ((if_pos ⟨hch, hbank, hactive⟩).trans (congrArg _ (funext fun c => if_neg ?_)))
  rw [Bool.and_eq_true, decide_eq_true_iff]
  rintro ⟨hbusy, hlt⟩
  exact absurd (h hbusy) (Nat.not_le.mpr hlt)

end

/-! ### Retraining (R380) -/

section
variable {s : State} {ch tempC o : Nat}

theorem tempMoved_iff : tempMoved (some o) tempC = true ↔ o + 10 ≤ tempC ∨ tempC + 10 ≤ o := decide_eq_true_iff

theorem answers_channelRetrain_starts (hup : s.up = true) (hch : ch < 64) (hactive : (s.chan ch).st = .active) (htemp : (s.chan ch).trainTemp = some o)
    (hmoved : o + 10 ≤ tempC ∨ tempC + 10 ≤ o) (hfree : ∀ p ∈ s.mem.chans, p.2.st ≠ .training) : Answers (.channelRetrain ch tempC) s
      (s.modChan ch (fun c => { c with st := .training, trainTemp := some tempC, hot := decide (85 < tempC) })) := by
  have hother : s.mem.chans.any (fun p => p.2.st == .training) = false :=
    List.any_eq_false.mpr fun p hp => by simpa using hfree p hp
  refine answers_congr (answers_whenUp rfl hup) ((if_pos ⟨hch, hactive⟩).trans (if_pos ?_))
  rw [hother, htemp, tempMoved_iff.mpr hmoved]
  rfl

theorem answers_channelRetrain_waits (hup : s.up = true) (hch : ch < 64) (hactive : (s.chan ch).st = .active) (htemp : (s.chan ch).trainTemp = some o)
    (hstill : tempC < o + 10 ∧ o < tempC + 10) : Answers (.channelRetrain ch tempC) s (s.modChan ch (fun c => { c with hot := decide (85 < tempC) })) := by
  refine answers_congr (answers_whenUp rfl hup) ((if_pos ⟨hch, hactive⟩).trans (if_neg ?_))
  rw [htemp, Bool.and_eq_true, tempMoved_iff]
  omega

variable (hwait : (s.chan ch).waitRemap = [])
include hwait

/-- A retraining that succeeds. -/
theorem State.retrained_ok : s.retrained ch true =
    (s.modChan ch (fun c => { c with retrained := (c.retrained + 1) % 2 ^ 16, failRun := 0 })).modChan ch (fun c => { c with st := .active, waitRemap := [] }) := by
  unfold State.retrained
  dsimp only
  rw [hwait, if_pos rfl, List.foldl_nil]

/-- The state after a failed retraining and its fault. -/
def State.trainFailed (s : State) (ch : Nat) : State :=
  (s.modChan ch (fun c => { c with failed := (c.failed + 1) % 2 ^ 16, failRun := c.failRun + 1 })).raise { code := fltMemTrain, unit := ch }

omit hwait in
theorem State.trainFailed_chan (s : State) (ch : Nat) :
    (s.trainFailed ch).chan ch = { s.chan ch with failed := ((s.chan ch).failed + 1) % 2 ^ 16, failRun := (s.chan ch).failRun + 1 } := by
  rw [State.trainFailed, State.chan, State.raise_mem, ← State.chan, State.modChan_chan]

omit hwait in
theorem State.trainFailed_chan_ne {c : Nat} (h : c ≠ ch) : (s.trainFailed ch).chan c = s.chan c := by
  rw [State.trainFailed, State.chan, State.raise_mem, ← State.chan, State.modChan_chan_ne _ _ h]

omit hwait in
/-- Only this channel can have failed three times in a row. -/
theorem State.lostChannels_le (hsound : ∀ c, s.chanLost (s.chan c) = false) {t : State} (hboot : t.boot = s.boot) (hchan : ∀ c, c ≠ ch → t.chan c = s.chan c) (a : Nat) :
    ((upto a 32).filter (fun c => t.chanLost (t.chan c))).length < 4 := by
  have hall : ∀ c ∈ (upto a 32).filter (fun c => t.chanLost (t.chan c)), c = ch := fun c hc => by
    by_contra hne
    have hlost := (List.mem_filter.mp hc).2
    rw [hchan c hne, State.chanLost, hboot, ← State.chanLost, hsound c] at hlost
    cases hlost
  have hnodup : ((upto a 32).filter (fun c => t.chanLost (t.chan c))).Nodup := by
    rw [upto_eq_range']
    exact (List.nodup_range' (s := a) (n := 32) (step := 1)).filter _
  have hle := (List.subperm_of_subset hnodup (l₂ := [ch]) (fun c hc => List.mem_singleton.mpr (hall c hc))).length_le
  rw [List.length_singleton] at hle
  omega

/-- A retraining that fails, on a device whose channels have not failed three times in a row. -/
theorem State.retrained_failed (hsound : ∀ c, s.chanLost (s.chan c) = false) : s.retrained ch false =
    if decide (3 ≤ (s.chan ch).failRun + 1) && !(s.chan ch).conservative then (s.trainFailed ch).modChan ch (fun c => { c with conservative := true })
    else (s.trainFailed ch).modChan ch (fun c => { c with st := .active, waitRemap := [] }) := by
  have hboot : (s.trainFailed ch).boot = s.boot := State.raise_boot _ _
  have hlost : ∀ (t : State), t.boot = s.boot → (∀ c, c ≠ ch → t.chan c = s.chan c) →
      ¬ (4 ≤ ((upto (dieOf ch * 32) 32).filter (fun c => t.chanLost (t.chan c))).length ∧ t.mem.lostDie = none) := fun t h h' hno =>
    absurd hno.1 (Nat.not_le.mpr (State.lostChannels_le hsound h h' _))
  unfold State.retrained
  dsimp only
  rw [hwait, if_neg Bool.false_ne_true, List.foldl_nil, ← State.trainFailed, State.trainFailed_chan]
  dsimp only
  by_cases hthird : (decide (3 ≤ (s.chan ch).failRun + 1) && !(s.chan ch).conservative) = true
  · rw [if_pos hthird, if_pos hthird]
    obtain ⟨u, hu⟩ : ∃ u, u = (s.trainFailed ch).modChan ch (fun c => { c with conservative := true }) := ⟨_, rfl⟩
    rw [← hu, if_neg (hlost u (by rw [hu, State.modChan_boot, hboot]) fun c hc => by rw [hu, State.modChan_chan_ne _ _ hc, State.trainFailed_chan_ne hc]),
      if_pos hthird]
  · rw [if_neg hthird, if_neg hthird, if_neg (hlost _ hboot fun c hc => State.trainFailed_chan_ne hc), if_neg hthird]

end

/-! ### Merge entries (R387) -/

section
variable {s : State} {line : Nat} {e : ReadErrors} {m : MergeEntry}

/-- The channel without the entries of a line. -/
def State.withoutEntry (s : State) (line : Nat) : State := s.modChan (chanOf line) (fun c => { c with merges := c.merges.filter (fun x => x.line != line) })

theorem State.withoutEntry_entryOf (s : State) (line : Nat) : (s.withoutEntry line).entryOf line = none := by
  rw [State.withoutEntry, State.entryOf, State.modChan_chan]
  refine List.find?_eq_none.mpr fun x hx => ?_
  simpa using (List.mem_filter.mp hx).2

/-- The bytes of an entry, put to its line. -/
def State.putEntry (s : State) (line : Nat) (bs : List (Nat × Byte)) : State := bs.foldl (fun s b => s.putBytes (line + b.1) [b.2]) s

theorem State.putBytes_cnt (s : State) (a : Nat) (bs : List Byte) : (s.putBytes a bs).mem.cnt = s.mem.cnt := by
  by_cases h : s.classOf a = 1
  · rw [State.putBytes_of_classP h, State.wrBytes_cnt, State.wrBytes_cnt]
  · rw [State.putBytes_of_not_classP h, State.wrBytes_cnt]

theorem State.putEntry_cnt (s : State) (line : Nat) (bs : List (Nat × Byte)) : (s.putEntry line bs).mem.cnt = s.mem.cnt := by
  unfold State.putEntry
  refine foldl_keeps (fun t : State => t.mem.cnt) _ (fun t b => ?_) bs s
  exact t.putBytes_cnt _ _

theorem State.putEntry_entryOf (s : State) (line l : Nat) (bs : List (Nat × Byte)) : (s.putEntry line bs).entryOf l = s.entryOf l := by
  unfold State.putEntry
  refine foldl_keeps (fun t : State => t.entryOf l) _ (fun t b => ?_) bs s
  exact State.putBytes_entryOf l

/-- A byte of a line after one of its bytes was put. -/
theorem State.putBytes_line_byte (s : State) {i o : Nat} (halign : line % 64 = 0) (hi : i < 64) (ho : o < 64) (b : Byte) :
    (s.putBytes (line + o) [b]).rdByte (line + i) = if i = o then b else s.rdByte (line + i) := by
  split
  · rename_i hio
    subst hio
    exact State.putBytes_rdByte_in (by simp only [pageSize, List.length_singleton]; omega) (i := 0) (by simp)
  · rename_i hio
    refine State.putBytes_rdByte_out (by rw [List.length_singleton]; omega) ?_
    rintro ⟨-, hlow, hhigh⟩
    have hne := s.partner_ne (pageOf (line + o))
    rw [List.length_singleton] at hhigh
    generalize s.partner (pageOf (line + o)) = p at hne hlow hhigh
    simp only [pageOf, pageSize] at hne hlow hhigh
    omega

theorem State.putEntry_rdByte (halign : line % 64 = 0) {i : Nat} (hi : i < 64) {bs : List (Nat × Byte)} (hnodup : (bs.map (·.1)).Nodup) (hoff : ∀ b ∈ bs, b.1 < 64)
    (s : State) : (s.putEntry line bs).rdByte (line + i) = (byteAt bs i).getD (s.rdByte (line + i)) := by
  induction bs generalizing s with
  | nil => rfl
  | cons b bs ih =>
    rw [List.map_cons, List.nodup_cons] at hnodup
    have htail := ih hnodup.2 (fun x hx => hoff x (List.mem_cons_of_mem _ hx)) (s.putBytes (line + b.1) [b.2])
    have hcons : s.putEntry line (b :: bs) = (s.putBytes (line + b.1) [b.2]).putEntry line bs := rfl
    rw [hcons, htail, s.putBytes_line_byte halign hi (hoff b List.mem_cons_self), byteAt_cons]
    by_cases hib : i = b.1
    · have hnone : byteAt bs i = none := by
        rw [byteAt, Option.map_eq_none_iff, List.find?_eq_none]
        intro x hx hxi
        exact hnodup.1 (List.mem_map.mpr ⟨x, hx, (beq_iff_eq.mp hxi).trans hib⟩)
      rw [hnone, if_pos hib, if_pos hib.symm]
      rfl
    · rw [if_neg hib, if_neg (Ne.symm hib)]

/-- An entry that is narrower than its line is merged by a read of the line. -/
theorem State.closeEntry_narrow (hnarrow : m.bytes.length < 64) : s.closeEntry m e =
    match (((s.withoutEntry m.line).dramRead 43 m.line).intCount m.line 7).testLine 43 m.line e with
    | (.ok, t) => ((t.putEntry m.line m.bytes).dramWrite m.line).freshLine m.line
    | (_, t) => t.intCount m.line 6 := by
  unfold State.closeEntry
  dsimp only
  rw [if_neg (Nat.not_le.mpr hnarrow)] <;> rfl

theorem State.sameMemory_modPortStat (s : State) (p : Nat) (f : MemPort → MemPort) : s.SameMemory (s.modPortStat p f) := ⟨rfl, rfl, rfl, fun _ => rfl⟩

theorem State.sameMemory_intCount (s : State) (l i : Nat) : s.SameMemory (s.intCount l i) := ⟨rfl, rfl, rfl, fun _ => rfl⟩

theorem State.sameMemory_dramRead (s : State) (port l : Nat) : s.SameMemory (s.dramRead port l) :=
  (s.sameMemory_modChan (chanOf l) (f := fun c => { c with readBytes := (c.readBytes + 64) % 2 ^ 64 }) fun _ => rfl).trans (State.sameMemory_modPortStat _ _ _)

theorem State.sameMemory_withoutEntry_read (s : State) (line : Nat) : (s.withoutEntry line).SameMemory (((s.withoutEntry line).dramRead 43 line).intCount line 7) :=
  (State.sameMemory_dramRead _ _ _).trans (State.sameMemory_intCount _ _ _)

theorem State.dramRead_kept (s : State) (port l : Nat) : (s.dramRead port l).mem.bytes = s.mem.bytes ∧ (s.dramRead port l).mem.failing = s.mem.failing ∧
    (s.dramRead port l).mem.lostLines = s.mem.lostLines := ⟨rfl, rfl, rfl⟩

theorem State.intCount_kept (s : State) (l i : Nat) : (s.intCount l i).mem.bytes = s.mem.bytes ∧ (s.intCount l i).mem.failing = s.mem.failing ∧
    (s.intCount l i).mem.lostLines = s.mem.lostLines := ⟨rfl, rfl, rfl⟩

theorem State.withoutEntry_kept (s : State) (l : Nat) : (s.withoutEntry l).mem.bytes = s.mem.bytes ∧ (s.withoutEntry l).mem.failing = s.mem.failing ∧
    (s.withoutEntry l).mem.lostLines = s.mem.lostLines ∧ ∀ a, (s.withoutEntry l).classOf a = s.classOf a := ⟨rfl, rfl, rfl, fun _ => rfl⟩

/-- The line as the entry's read finds it. -/
def State.mergeRead (s : State) (line : Nat) : State := ((s.withoutEntry line).dramRead 43 line).intCount line 7

theorem State.mergeRead_kept (s : State) (line : Nat) : (s.mergeRead line).mem.bytes = s.mem.bytes ∧ (s.mergeRead line).mem.failing = s.mem.failing ∧
    (s.mergeRead line).mem.lostLines = s.mem.lostLines ∧ (s.mergeRead line).entryOf line = none ∧ ∀ a, (s.mergeRead line).classOf a = s.classOf a := by
  have hsame : (s.withoutEntry line).SameMemory (s.mergeRead line) := s.sameMemory_withoutEntry_read line
  obtain ⟨hbytes, hfailing, hlost, hclass⟩ := s.withoutEntry_kept line
  obtain ⟨hbytes', hfailing', hlost'⟩ := (s.withoutEntry line).dramRead_kept 43 line
  obtain ⟨hbytes'', hfailing'', hlost''⟩ := ((s.withoutEntry line).dramRead 43 line).intCount_kept line 7
  exact ⟨hbytes''.trans (hbytes'.trans hbytes), hfailing''.trans (hfailing'.trans hfailing), hlost''.trans (hlost'.trans hlost),
    (hsame.entryOf line).trans (s.withoutEntry_entryOf line), fun a => (hsame.classOf a).trans (hclass a)⟩

theorem State.mergeRead_cnt (hin : inSaddle line = true) {i : Nat} (hi : i < 16) : tget 0 (s.mergeRead line).mem.cnt (cntKey 0 (chanOf line) i) =
    if i = 7 then (tget 0 s.mem.cnt (cntKey 0 (chanOf line) i) + 1) % 2 ^ 64 else tget 0 s.mem.cnt (cntKey 0 (chanOf line) i) :=
  State.intCount_chan_cnt hin hi (by decide)

theorem State.dramWrite_cnt (s : State) (l : Nat) : (s.dramWrite l).mem.cnt = s.mem.cnt := by
  unfold State.dramWrite
  dsimp only
  split <;> rfl

theorem State.freshLine_cnt (s : State) (l : Nat) : (s.freshLine l).mem.cnt = s.mem.cnt := by
  unfold State.freshLine
  dsimp only
  split <;> rfl

theorem State.dramWrite_lostLines (s : State) (l : Nat) : (s.dramWrite l).mem.lostLines = s.mem.lostLines := by
  unfold State.dramWrite
  dsimp only
  split <;> rfl

theorem State.freshLine_lostLines (s : State) (l : Nat) : (s.freshLine l).mem.lostLines = s.mem.lostLines := by
  unfold State.freshLine
  dsimp only
  split <;> rfl

theorem State.putBytes_lostLines (s : State) (a : Nat) (bs : List Byte) : (s.putBytes a bs).mem.lostLines = s.mem.lostLines := by
  by_cases h : s.classOf a = 1
  · rw [State.putBytes_of_classP h]
    rfl
  · rw [State.putBytes_of_not_classP h]
    rfl

theorem State.putEntry_lostLines (s : State) (line : Nat) (bs : List (Nat × Byte)) : (s.putEntry line bs).mem.lostLines = s.mem.lostLines := by
  unfold State.putEntry
  refine foldl_keeps (fun t : State => t.mem.lostLines) _ (fun t b => ?_) bs s
  exact t.putBytes_lostLines _ _

/-- An entry merged with its line, whose check holds. -/
def State.merged (s : State) (line : Nat) (bs : List (Nat × Byte)) : State := (((s.mergeRead line).putEntry line bs).dramWrite line).freshLine line

theorem State.sameMemory_merged (s : State) (line : Nat) (bs : List (Nat × Byte)) : ((s.mergeRead line).putEntry line bs).SameMemory (s.merged line bs) :=
  State.sameMemory_dramWrite_freshLine _ _

theorem State.merged_lostLines (s : State) (line : Nat) (bs : List (Nat × Byte)) : (s.merged line bs).mem.lostLines = s.mem.lostLines := by
  rw [State.merged, State.freshLine_lostLines, State.dramWrite_lostLines, State.putEntry_lostLines]
  exact s.mergeRead_kept line |>.2.2.1

theorem State.merged_entryOf (s : State) (line : Nat) (bs : List (Nat × Byte)) : (s.merged line bs).entryOf line = none := by
  obtain ⟨-, -, -, hentry, -⟩ := s.mergeRead_kept line
  rw [(s.sameMemory_merged line bs).entryOf, State.putEntry_entryOf, hentry]

theorem State.merged_cnt (hin : inSaddle line = true) (bs : List (Nat × Byte)) : tget 0 (s.merged line bs).mem.cnt (cntKey 0 (chanOf line) 7) =
    (tget 0 s.mem.cnt (cntKey 0 (chanOf line) 7) + 1) % 2 ^ 64 := by
  rw [State.merged, State.freshLine_cnt, State.dramWrite_cnt, State.putEntry_cnt, State.mergeRead_cnt hin (by decide), if_pos rfl]

/-- The merged line holds what agents saw before: the entry's bytes, and the line's elsewhere. -/
theorem State.merged_bytes (hin : inSaddle line = true) (halign : line % 64 = 0) (hentry : s.entryOf line = some m) (hnodup : (m.bytes.map (·.1)).Nodup)
    (hoff : ∀ b ∈ m.bytes, b.1 < 64) : (s.merged line m.bytes).rdBytes line 64 = s.seen line 64 := by
  obtain ⟨hbytes, -⟩ := s.mergeRead_kept line
  rw [State.rdBytes_eq_map, State.seen_eq_map]
  refine List.map_congr_left fun x hx => ?_
  obtain ⟨hlow, hhigh⟩ := mem_upto_iff.mp hx
  obtain ⟨i, rfl⟩ := Nat.exists_eq_add_of_le hlow
  have hi : i < 64 := by omega
  have hopen : s.openEntry (line + i) = some m := by
    have hline : (line + i) / 64 * 64 = line := by omega
    have hsaddle : inSaddle (line + i) = true := by
      rw [inSaddle_iff] at hin ⊢
      omega
    rw [State.openEntry_of_inSaddle _ hsaddle, hline, hentry]
  have hoffset : (line + i) % 64 = i := by omega
  rw [(s.sameMemory_merged line m.bytes).rdByte, State.putEntry_rdByte halign hi hnodup hoff, State.seenByte_of_entry hopen, hoffset, State.rdByte_congr hbytes]

theorem State.closeEntry_good (hnarrow : m.bytes.length < 64) (hgood : s.lineFails m.line = false) (hread : e.failing.contains m.line = false) :
    s.closeEntry m e = s.merged m.line m.bytes := by
  obtain ⟨-, hfailing, -⟩ := s.mergeRead_kept m.line
  have hfails : (s.mergeRead m.line).lineFails m.line = false := by rw [State.lineFails, hfailing, ← State.lineFails, hgood]
  have htest := (s.mergeRead m.line).testLine_good 43 hfails hread
  rw [State.mergeRead] at htest
  rw [State.closeEntry_narrow hnarrow, htest] <;> rfl

/-- An entry discarded: its line is Class R and fails. -/
theorem State.closeEntry_bad (hin : inSaddle m.line = true) (hnarrow : m.bytes.length < 64) (hbad : s.lineFails m.line = true) (hcls : s.classOf m.line = 0) :
    s.closeEntry m e = (((s.mergeRead m.line).readTwice m.line).intCount m.line 4).intCount m.line 6 := by
  obtain ⟨-, hfailing, -, -, hclass⟩ := s.mergeRead_kept m.line
  have hfails : (s.mergeRead m.line).lineFails m.line = true := by rw [State.lineFails, hfailing, ← State.lineFails, hbad]
  have hR : (s.mergeRead m.line).classOf m.line = 0 := (hclass _).trans hcls
  have htest := State.testLine_classR_twice (port := 43) (e := e) hin (Or.inl hfails) (by omega) (by omega)
  rw [State.mergeRead] at htest
  rw [State.closeEntry_narrow hnarrow, htest] <;> rfl

/-- What stands after a line that fails was counted twice. -/
theorem State.countedTwice_facts (hin : inSaddle line = true) :
    let r := ((s.readTwice line).intCount line 4).intCount line 6
    r.mem.lostLines = s.mem.lostLines ∧ r.entryOf line = s.entryOf line ∧ r.mem.bytes = s.mem.bytes ∧ r.lineFails line = true ∧
      tget 0 r.mem.cnt (cntKey 0 (chanOf line) 6) = (tget 0 s.mem.cnt (cntKey 0 (chanOf line) 6) + 1) % 2 ^ 64 := by
  intro r
  obtain ⟨-, hfails, hkept⟩ := State.counted_facts (s := s) hin (j := 4) (by decide) (by decide)
  obtain ⟨hbytes, hfailing, hlost⟩ := ((s.readTwice line).intCount line 4).intCount_kept line 6
  obtain ⟨-, -, hlost'⟩ := (s.readTwice line).intCount_kept line 4
  have hsame : (s.readTwice line).SameMemory r := (State.sameMemory_intCount _ _ _).trans (State.sameMemory_intCount _ _ _)
  refine ⟨hlost.trans (hlost'.trans (s.readTwice_lostLines line)), (hsame.entryOf line).trans (s.readTwice_entryOf line line), hbytes.trans hkept, ?_, ?_⟩
  · rw [State.lineFails, hfailing]
    exact hfails
  · rw [State.intCount_chan_cnt hin (by decide) (by decide), if_pos rfl, State.readTwice_intCount_cnt hin (by decide) (by decide) (by decide),
      if_neg (by decide)]

/-- What stands after an entry was discarded. -/
theorem State.discarded_facts (hin : inSaddle line = true) :
    let r := (((s.mergeRead line).readTwice line).intCount line 4).intCount line 6
    r.mem.lostLines = s.mem.lostLines ∧ r.entryOf line = none ∧ r.mem.bytes = s.mem.bytes ∧ r.lineFails line = true ∧
      tget 0 r.mem.cnt (cntKey 0 (chanOf line) 6) = (tget 0 s.mem.cnt (cntKey 0 (chanOf line) 6) + 1) % 2 ^ 64 := by
  intro r
  obtain ⟨hbytes, -, hlost, hentry, -⟩ := s.mergeRead_kept line
  obtain ⟨hlost', hentry', hbytes', hfails, hcount⟩ := State.countedTwice_facts (s := s.mergeRead line) hin
  rw [State.mergeRead_cnt hin (by decide), if_neg (by decide)] at hcount
  exact ⟨hlost'.trans hlost, hentry'.trans hentry, hbytes'.trans hbytes, hfails, hcount⟩

theorem answers_mergeEntryTimeout (hup : s.up = true) {ch : Nat} (hch : ch < 64) (hline : chanOf line = ch) (hentry : s.entryOf line = some m)
    {t : State} (hclose : s.closeEntry m e = t) (hlost : t.mem.lostLines = []) : Answers (.mergeEntryTimeout ch line e) s t := by
  refine answers_congr (answers_whenUp rfl hup) ((if_pos ⟨hch, hline⟩).trans ?_)
  rw [State.closeLine, hentry]
  exact (congrArg State.settleLost hclose).trans (State.settleLost_of_nil hlost)

theorem State.entryOf_line (h : s.entryOf line = some m) : m.line = line :=
  beq_iff_eq.mp (List.find?_some (p := fun x : MergeEntry => x.line == line) h)

end

end Sys2Proof.Machine
end

