-- ==== Sys2Proof/Proofs/MemoryWalks.lean ====
section
/-! PROOFS. The memory-side cache's flush, the Burnisher's two walks and the copies of quarantined rows (R375, R397, R398, R402, R403). -/
namespace Sys2Proof.Machine
open Sys2Proof

/-! ### The flush (R375) -/

theorem State.RowStep.cache {s t : State} {ch : Nat} (h : s.RowStep t ch) : t.mem.cache = s.mem.cache := by
  obtain ⟨c, n, hm⟩ := h.mem
  rw [hm]

theorem State.testLine_cache (s : State) (port line : Nat) (e : ReadErrors) : (s.testLine port line e).2.mem.cache = s.mem.cache := by
  have hcounted : (if inSaddle line = true then (s.intCount line 0).countRow line else s.intCount line 0).mem.cache = s.mem.cache := by
    split
    · exact (State.RowStep.of_countRow _ line).cache
    · rfl
  unfold State.testLine
  dsimp only
  generalize (if inSaddle line = true then (s.intCount line 0).countRow line else s.intCount line 0) = u at hcounted ⊢
  split
  · rfl
  split
  · exact hcounted
  split
  · split
    · show (State.raise _ _).mem.cache = _
      rw [State.raise_mem]
      exact hcounted
    · exact hcounted
  split
  · show (State.raise _ _).mem.cache = _
    rw [State.raise_mem]
    exact hcounted
  · exact hcounted

theorem State.putBytes_cache (s : State) (a : Nat) (bs : List Byte) : (s.putBytes a bs).mem.cache = s.mem.cache := by
  by_cases h : s.classOf a = 1
  · rw [State.putBytes_of_classP h]
    rfl
  · rw [State.putBytes_of_not_classP h]
    rfl

theorem State.putEntry_cache (s : State) (line : Nat) (bs : List (Nat × Byte)) : (s.putEntry line bs).mem.cache = s.mem.cache := by
  unfold State.putEntry
  refine foldl_keeps (fun t : State => t.mem.cache) _ (fun t b => ?_) bs s
  exact t.putBytes_cache _ _

theorem State.dramWrite_cache (s : State) (l : Nat) : (s.dramWrite l).mem.cache = s.mem.cache := by
  unfold State.dramWrite
  dsimp only
  split <;> rfl

theorem State.freshLine_cache (s : State) (l : Nat) : (s.freshLine l).mem.cache = s.mem.cache := by
  unfold State.freshLine
  dsimp only
  split <;> rfl

theorem State.closeEntry_cache (s : State) (m : MergeEntry) (e : ReadErrors) : (s.closeEntry m e).mem.cache = s.mem.cache := by
  have hput : ∀ t : State, (((t.putEntry m.line m.bytes).dramWrite m.line).freshLine m.line).mem.cache = t.mem.cache := fun t => by
    rw [State.freshLine_cache, State.dramWrite_cache, State.putEntry_cache]
  by_cases hfull : 64 ≤ m.bytes.length
  · unfold State.closeEntry
    dsimp only
    rw [if_pos hfull]
    exact hput (s.withoutEntry m.line)
  · have htest := State.testLine_cache (s.mergeRead m.line) 43 m.line e
    have hread : (s.mergeRead m.line).mem.cache = s.mem.cache := rfl
    rw [hread, State.mergeRead] at htest
    rw [State.closeEntry_narrow (Nat.not_le.mp hfull)]
    split
    · rename_i t heq
      rw [heq] at htest
      exact (hput t).trans htest
    · rename_i t hne heq
      rw [heq] at htest
      exact htest

theorem State.closeAll_cache (s : State) : s.closeAll.mem.cache = s.mem.cache := by
  unfold State.closeAll
  refine foldl_keeps (fun t : State => t.mem.cache) _ (fun t m => ?_) _ s
  exact t.closeEntry_cache m _

theorem State.closeAll_of_none {s : State} (h : ∀ p ∈ s.mem.chans, p.2.merges = []) : s.closeAll = s := by
  have hnil : s.mem.chans.flatMap (fun p => p.2.merges) = [] := List.flatMap_eq_nil_iff.mpr h
  unfold State.closeAll
  rw [hnil]
  rfl

/-- One line of a flush: a dirty one is written back and stays, clean. -/
def State.flushLine (s : State) (p : Nat × Option CacheLine) : State :=
  match p.2 with
  | some c => if c.dirty then (s.writeBack p.1 c).putLine p.1 (some { c with dirty := false }) else s
  | none => s

theorem State.flushLine_some (s : State) (l : Nat) (c : CacheLine) : s.flushLine (l, some c) =
    if c.dirty then (s.writeBack l c).putLine l (some { c with dirty := false }) else s := rfl

theorem State.flushed_eq (s : State) : s.flushed = s.closeAll.mem.cache.foldl State.flushLine s.closeAll := by
  unfold State.flushed
  refine congrArg (fun f => List.foldl f _ _) (funext fun t => funext fun p => ?_)
  rcases p with ⟨l, _ | c⟩ <;> rfl

theorem State.writeBack_cache (s : State) (l : Nat) (c : CacheLine) : (s.writeBack l c).mem.cache = s.mem.cache := s.dramWrite_cache l

theorem State.writeBack_bytes (s : State) (l : Nat) (c : CacheLine) : (s.writeBack l c).mem.bytes = s.mem.bytes := (s.sameMemory_writeBack l c).bytes

theorem State.flushLine_bytes (s : State) (p : Nat × Option CacheLine) : (s.flushLine p).mem.bytes = s.mem.bytes := by
  rcases p with ⟨l, _ | c⟩
  · rfl
  · rw [State.flushLine_some]
    split
    · exact s.writeBack_bytes l c
    · rfl

/-- A flushed line is clean, and no other changes. -/
theorem State.flushLine_cached (s : State) (p : Nat × Option CacheLine) (line : Nat) :
    (tget none (s.flushLine p).mem.cache line = tget none s.mem.cache line ∧ ∀ c, p = (line, some c) → c.dirty = false) ∨
      (p.1 = line ∧ ∃ c, tget none (s.flushLine p).mem.cache line = some c ∧ c.dirty = false) := by
  rcases p with ⟨l, _ | c⟩
  · exact Or.inl ⟨rfl, fun c hc => nomatch hc⟩
  · rw [State.flushLine_some]
    cases hdirty : c.dirty with
    | false =>
      refine Or.inl ⟨by rw [if_neg (by exact Bool.false_ne_true)], fun c' hc' => ?_⟩
      cases hc'
      exact hdirty
    | true =>
      rw [if_pos rfl, State.putLine]
      dsimp only
      rw [tget_tset, State.writeBack_cache]
      by_cases hl : line = l
      · rw [if_pos hl]
        exact Or.inr ⟨hl.symm, _, rfl, rfl⟩
      · rw [if_neg hl]
        exact Or.inl ⟨rfl, fun c' hc' => absurd (congrArg Prod.fst hc').symm hl⟩

/-- After a flush over some lines, a line stands as it stood and was none of the dirty ones, or is clean. -/
theorem State.flushLines_cached (ps : List (Nat × Option CacheLine)) (s : State) (line : Nat) :
    (tget none (ps.foldl State.flushLine s).mem.cache line = tget none s.mem.cache line ∧ ∀ c, (line, some c) ∈ ps → c.dirty = false) ∨
      ((∃ p ∈ ps, p.1 = line) ∧ ∃ c, tget none (ps.foldl State.flushLine s).mem.cache line = some c ∧ c.dirty = false) := by
  induction ps generalizing s with
  | nil => exact Or.inl ⟨rfl, fun c hc => absurd hc List.not_mem_nil⟩
  | cons p ps ih =>
    rw [List.foldl_cons]
    rcases ih (s.flushLine p) with ⟨hsame, hclean⟩ | ⟨⟨q, hq, hline⟩, hc⟩
    · rcases s.flushLine_cached p line with ⟨hsame', hclean'⟩ | ⟨hp, c, hc, hdirty⟩
      · refine Or.inl ⟨hsame.trans hsame', fun c hc => ?_⟩
        rcases List.mem_cons.mp hc with h | h
        · exact hclean' c h.symm
        · exact hclean c h
      · exact Or.inr ⟨⟨p, List.mem_cons_self, hp⟩, c, hsame.trans hc, hdirty⟩
    · exact Or.inr ⟨⟨q, List.mem_cons_of_mem _ hq, hline⟩, hc⟩

section
variable {s : State}

theorem State.flushed_cached (line : Nat) :
    (tget none s.flushed.mem.cache line = tget none s.mem.cache line ∧ ∀ c, (line, some c) ∈ s.mem.cache → c.dirty = false) ∨
      ((∃ p ∈ s.mem.cache, p.1 = line) ∧ ∃ c, tget none s.flushed.mem.cache line = some c ∧ c.dirty = false) := by
  have hlines := State.flushLines_cached s.closeAll.mem.cache s.closeAll line
  rw [← State.flushed_eq, s.closeAll_cache] at hlines
  exact hlines

theorem State.flushed_clean {line : Nat} {c : CacheLine} (h : tget none s.flushed.mem.cache line = some c) : c.dirty = false := by
  rcases s.flushed_cached line with ⟨hsame, hclean⟩ | ⟨-, c', hc', hdirty⟩
  · rw [hsame] at h
    have hmem := mem_of_tget_ne (d := none) (t := s.mem.cache) (k := line) (by rw [h]; exact Option.some_ne_none c)
    rw [h] at hmem
    exact hclean c hmem
  · rw [h] at hc'
    cases hc'
    exact hdirty

theorem State.flushed_valid {line : Nat} (h : (tget none s.mem.cache line).isSome = true) : (tget none s.flushed.mem.cache line).isSome = true := by
  rcases s.flushed_cached line with ⟨hsame, -⟩ | ⟨-, c, hc, -⟩
  · rw [hsame, h]
  · rw [hc]
    rfl

theorem State.flushed_none {line : Nat} (h : ∀ p ∈ s.mem.cache, p.1 ≠ line) : tget none s.flushed.mem.cache line = none := by
  rcases s.flushed_cached line with ⟨hsame, -⟩ | ⟨⟨p, hp, hline⟩, -⟩
  · by_contra hne
    rw [hsame] at hne
    exact h _ (mem_of_tget_ne hne) rfl
  · exact absurd hline (h p hp)

theorem State.flushed_bytes (h : ∀ p ∈ s.mem.chans, p.2.merges = []) : s.flushed.mem.bytes = s.mem.bytes := by
  rw [State.flushed_eq, State.closeAll_of_none h]
  exact foldl_keeps (fun t : State => t.mem.bytes) _ (fun t p => t.flushLine_bytes p) _ _

end

/-! ### The Burnisher's walk of the saddle (R397) -/

section
variable {s : State} {line : Nat} {e : ReadErrors}

/-- The walk counts a line. -/
def State.countWalked (s : State) : State := { s with mem := { s.mem with burn := { s.mem.burn with lines := (s.mem.burn.lines + 1) % 2 ^ 64 } } }

/-- The walk's read of a line, counted. -/
def State.walkRead (s : State) (line : Nat) : State := (s.dramRead 43 line).countWalked

/-- What the walk makes of the line that it read. -/
def State.walkTest (s : State) (line : Nat) (e : ReadErrors) : State :=
  if !(s.lineFails line || e.failing.contains line) then s
  else
    let s := s.intCount line 9
    if s.classOf line = 1 then (s.testLine 43 line e).2
    else
      let s := (s.intCount line 0).countRow line
      if !s.lineFails line && e.transient.contains line then s.intCount line 1
      else
        let s := s.setFails line true
        if s.classOf line = 2 then s.intCount line 5 else s

theorem State.burnRead_eq : s.burnRead line e = (s.walkRead line).walkTest line e := rfl

theorem State.countWalked_kept (u : State) : u.countWalked.mem.bytes = u.mem.bytes ∧ u.countWalked.mem.failing = u.mem.failing ∧
    u.countWalked.mem.lostLines = u.mem.lostLines ∧ u.countWalked.mem.cnt = u.mem.cnt ∧ ∀ a, u.countWalked.classOf a = u.classOf a := ⟨rfl, rfl, rfl, rfl, fun _ => rfl⟩

theorem State.countWalked_walk (u : State) : u.countWalked.mem.burn = { u.mem.burn with lines := (u.mem.burn.lines + 1) % 2 ^ 64 } ∧
    u.countWalked.out = u.out ∧ u.countWalked.ctxs = u.ctxs ∧ u.countWalked.slots = u.slots := ⟨rfl, rfl, rfl, rfl⟩

theorem State.dramRead_walk (s : State) (port l : Nat) : (s.dramRead port l).mem.burn = s.mem.burn ∧ (s.dramRead port l).mem.cnt = s.mem.cnt ∧
    (s.dramRead port l).out = s.out ∧ (s.dramRead port l).ctxs = s.ctxs ∧ (s.dramRead port l).slots = s.slots := ⟨rfl, rfl, rfl, rfl, rfl⟩

theorem State.walkRead_kept (s : State) (line : Nat) : (s.walkRead line).mem.bytes = s.mem.bytes ∧ (s.walkRead line).mem.failing = s.mem.failing ∧
    (s.walkRead line).mem.lostLines = s.mem.lostLines ∧ (s.walkRead line).mem.cnt = s.mem.cnt ∧ ∀ a, (s.walkRead line).classOf a = s.classOf a := by
  obtain ⟨hbytes, hfailing, hlost⟩ := s.dramRead_kept 43 line
  obtain ⟨-, hcnt, -⟩ := s.dramRead_walk 43 line
  have hclass := (s.sameMemory_dramRead 43 line).classOf
  obtain ⟨hbytes', hfailing', hlost', hcnt', hclass'⟩ := (s.dramRead 43 line).countWalked_kept
  exact ⟨hbytes'.trans hbytes, hfailing'.trans hfailing, hlost'.trans hlost, hcnt'.trans hcnt, fun a => (hclass' a).trans (hclass a)⟩

theorem State.walkRead_walk (s : State) (line : Nat) : (s.walkRead line).mem.burn = { s.mem.burn with lines := (s.mem.burn.lines + 1) % 2 ^ 64 } ∧
    (s.walkRead line).out = s.out ∧ (s.walkRead line).ctxs = s.ctxs ∧ (s.walkRead line).slots = s.slots := by
  obtain ⟨hburn, -, hout, hctxs, hslots⟩ := s.dramRead_walk 43 line
  obtain ⟨hburn', hout', hctxs', hslots'⟩ := (s.dramRead 43 line).countWalked_walk
  exact ⟨by rw [State.walkRead, hburn', hburn], hout'.trans hout, hctxs'.trans hctxs, hslots'.trans hslots⟩

theorem State.walkTest_good (hgood : s.lineFails line = false) (hread : e.failing.contains line = false) : s.walkTest line e = s :=
  if_pos (by rw [hgood, hread]; rfl)

/-- A line that fails and is not Class P is read twice and counted. -/
theorem State.walkTest_bad (hbad : s.lineFails line = true) (hcls : s.classOf line ≠ 1) : s.walkTest line e =
    if s.classOf line = 2 then ((s.intCount line 9).readTwice line).intCount line 5 else (s.intCount line 9).readTwice line := by
  have hclass : ((s.intCount line 9).readTwice line).classOf line = s.classOf line := State.MemStep.classOf (State.memStep_readTwice _ _) line
  have hclass' : (s.intCount line 9).classOf line = s.classOf line := rfl
  have hfails : ((s.intCount line 9).readOnce line).lineFails line = true := (State.readOnce_lineFails _ _ _).trans hbad
  have hread : ¬ (!(s.lineFails line || e.failing.contains line)) = true := by
    rw [hbad]
    exact Bool.false_ne_true
  have hagain : ¬ (!((s.intCount line 9).readOnce line).lineFails line && e.transient.contains line) = true := by
    rw [hfails]
    exact Bool.false_ne_true
  rw [State.readTwice] at hclass
  rw [State.readOnce] at hclass hagain
  unfold State.walkTest
  dsimp only
  rw [if_neg hread, hclass', if_neg hcls, if_neg hagain, hclass]
  rfl

/-- What stands after the walk met a line that fails. -/
theorem State.walkTest_bad_facts (hin : inSaddle line = true) (hbad : s.lineFails line = true) (hcls : s.classOf line ≠ 1) :
    let r := s.walkTest line e
    r.mem.burn = s.mem.burn ∧ r.mem.bytes = s.mem.bytes ∧ r.mem.lostLines = s.mem.lostLines ∧ r.lineFails line = true ∧ r.ctxs = s.ctxs ∧ r.slots = s.slots ∧
      tget 0 r.mem.cnt (cntKey 0 (chanOf line) 9) = (tget 0 s.mem.cnt (cntKey 0 (chanOf line) 9) + 1) % 2 ^ 64 := by
  intro r
  have hr : r = _ := State.walkTest_bad hbad hcls
  have hrow := State.RowStep.of_countRow ((s.intCount line 9).intCount line 0) line
  obtain ⟨⟨m, k, o, rg, c, p, d, hstep⟩, -⟩ := (s.memStep_intCount line 9).trans (State.memStep_readTwice _ line)
  obtain ⟨u, hu⟩ : ∃ u, u = (s.intCount line 9).readTwice line := ⟨_, rfl⟩
  have hburn : u.mem.burn = s.mem.burn := by rw [hu]; exact hrow.burn
  have hbytes : u.mem.bytes = s.mem.bytes := by rw [hu, State.readTwice_bytes]; rfl
  have hlost : u.mem.lostLines = s.mem.lostLines := by rw [hu, State.readTwice_lostLines]; rfl
  have hfails : u.lineFails line = true := by rw [hu, State.readTwice_lineFails, if_pos rfl]
  have hctxs : u.ctxs = s.ctxs := by rw [hu, hstep]
  have hslots : u.slots = s.slots := by rw [hu, hstep]
  have hcnt : tget 0 u.mem.cnt (cntKey 0 (chanOf line) 9) = (tget 0 s.mem.cnt (cntKey 0 (chanOf line) 9) + 1) % 2 ^ 64 := by
    rw [hu, State.readTwice_cnt hin (by decide), if_neg (by decide), State.intCount_chan_cnt hin (by decide) (by decide), if_pos rfl]
  rw [hr, ← hu]
  split
  · have hcnt' : tget 0 (u.intCount line 5).mem.cnt (cntKey 0 (chanOf line) 9) = tget 0 u.mem.cnt (cntKey 0 (chanOf line) 9) := by
      rw [State.intCount_chan_cnt hin (by decide) (by decide), if_neg (by decide)]
    exact ⟨hburn, hbytes, hlost, hfails, hctxs, hslots, hcnt'.trans hcnt⟩
  · exact ⟨hburn, hbytes, hlost, hfails, hctxs, hslots, hcnt⟩

/-- The walk after its read of the line at its position. -/
def State.walked (s u : State) : State :=
  { u with mem := { u.mem with burn := { u.mem.burn with
    pos := (s.mem.burn.pos + 1) % 2 ^ 28, passes := if s.mem.burn.pos = 2 ^ 28 - 1 then (s.mem.burn.passes + 1) % 2 ^ 32 else s.mem.burn.passes } } }

theorem burn_last {pos : Nat} (h : pos < 2 ^ 28) : decide (saddleSize / 64 ≤ pos + 1) = true ↔ pos = 2 ^ 28 - 1 := by
  rw [decide_eq_true_iff, saddleSize]
  omega

theorem burn_next {pos : Nat} (h : pos < 2 ^ 28) : (if decide (saddleSize / 64 ≤ pos + 1) = true then 0 else pos + 1) = (pos + 1) % 2 ^ 28 := by
  by_cases hlast : pos = 2 ^ 28 - 1
  · rw [if_pos ((burn_last h).mpr hlast), hlast, Nat.sub_add_cancel (Nat.one_le_two_pow), Nat.mod_self]
  · rw [if_neg (mt (burn_last h).mp hlast), Nat.mod_eq_of_lt (by omega)]

/-- The walk's position is that of the state before: a read of a line does not move it. -/
theorem State.burnStep_eq (hpos : s.mem.burn.pos < 2 ^ 28) {u : State}
    (hu : (if s.burnSkips (s.mem.burn.pos * 64) then s else s.burnRead (s.mem.burn.pos * 64) e) = u) (hkept : u.mem.burn.pos = s.mem.burn.pos)
    (hpasses : u.mem.burn.passes = s.mem.burn.passes) : s.burnStep e = s.walked u := by
  unfold State.burnStep
  dsimp only
  rw [hu, hkept, hpasses, burn_next hpos, if_congr (burn_last hpos) rfl rfl]
  rfl

theorem answers_burnisherLine (hup : s.up = true) (hen : s.mem.burn.dramEn = true) {t : State} (hstep : s.burnStep e = t) (hlost : t.mem.lostLines = []) :
    Answers (.burnisherLine e) s t :=
  answers_congr (answers_whenUp rfl hup) ((if_pos hen).trans ((congrArg State.settleLost hstep).trans (State.settleLost_of_nil hlost)))

end

/-! ### The on-chip walk (R398) -/

section
variable {s : State} {failing : Bool}

theorem State.onchipLine_end (h : s.nextBank (s.mem.burn.onchipPos / 1024) (s.walkBanks - s.mem.burn.onchipPos / 1024) = none) :
    s.onchipLine failing = { s with mem := { s.mem with burn := { s.mem.burn with onchipPos := 0, onchipPasses := (s.mem.burn.onchipPasses + 1) % 2 ^ 32 } } } := by
  unfold State.onchipLine
  dsimp only
  rw [h]

/-- The place after line `j` of bank `b`. -/
def State.walkNext (s : State) (b j : Nat) : Nat := if j + 1 < s.walkLen b then b * 1024 + j + 1 else (b + 1) * 1024

/-- The walk after a line of a bank, whose read failed or did not. -/
def State.scrubbed (s u : State) (next : Nat) : State :=
  { u with mem := { u.mem with burn := { u.mem.burn with onchipPos := next, lines := (s.mem.burn.lines + 1) % 2 ^ 64 } } }

/-- A line that fails in the walk is counted and stays failing. -/
def State.scrubFailed (s : State) (line : Nat) : State := ((s.setFails line true).intCount line 0).intCount line 9

theorem State.onchipLine_line {b : Nat} (h : s.nextBank (s.mem.burn.onchipPos / 1024) (s.walkBanks - s.mem.burn.onchipPos / 1024) = some b) :
    ∃ next, s.onchipLine failing = s.scrubbed
      (if failing || s.lineFails (s.walkLine b (if b = s.mem.burn.onchipPos / 1024 then s.mem.burn.onchipPos % 1024 else 0)) then
        s.scrubFailed (s.walkLine b (if b = s.mem.burn.onchipPos / 1024 then s.mem.burn.onchipPos % 1024 else 0)) else s) next := by
  unfold State.onchipLine
  dsimp only
  rw [h]
  exact ⟨_, rfl⟩

theorem State.scrubbed_facts (u : State) (next : Nat) : (s.scrubbed u next).mem.burn.lines = (s.mem.burn.lines + 1) % 2 ^ 64 ∧
    (s.scrubbed u next).mem.bytes = u.mem.bytes ∧ (s.scrubbed u next).mem.failing = u.mem.failing ∧ (s.scrubbed u next).out = u.out := ⟨rfl, rfl, rfl, rfl⟩

theorem State.scrubFailed_facts (line : Nat) : (s.scrubFailed line).mem.bytes = s.mem.bytes ∧ (s.scrubFailed line).lineFails line = true ∧
    (s.scrubFailed line).out = s.out := ⟨rfl, (s.setFails_lineFails line line true).trans (if_pos rfl), rfl⟩

end

end Sys2Proof.Machine
end

