-- ==== Sys2Proof/Proofs/MemoryCommands.lean ====
section
/-! PROOFS. The commands of the memory system (R370, R375, R379, R380, R387, R397, R398, R402, R403). -/
namespace Sys2Proof.Machine
open Sys2Proof

section
variable {s : State} (hup : s.up = true)
include hup

theorem reaches_refreshDue {ch bank : Nat} (hch : ch < 64) (hbank : bank < 32) (hactive : (s.chan ch).st = .active) :
    let p := tget 0 (s.chan ch).postponed bank
    Reaches (.refreshDue ch bank true) s (fun t =>
        tget 0 (t.chan ch).postponed bank = (if p < 8 then p + 1 else 0) ∧
        (t.chan ch).refForced = (if p < 8 then (s.chan ch).refForced else ((s.chan ch).refForced + 1) % 2 ^ 32) ∧
        (∀ b, b ≠ bank → tget 0 (t.chan ch).postponed b = tget 0 (s.chan ch).postponed b))
    ∧ Reaches (.refreshDue ch bank false) s (fun t =>
        tget 0 (t.chan ch).postponed bank = 0 ∧ (t.chan ch).refForced = (s.chan ch).refForced) := by
  intro p
  constructor
  · by_cases hp : p < 8
    · refine reaches_of_effect (answers_refreshDue_postponed hup hch hbank hactive hp) ?_ (fun _ _ h => h)
      rw [State.modChan_chan, if_pos hp, if_pos hp]
      dsimp only
      exact ⟨tget_tset_same _ _ _ _, rfl, fun b hb => tget_tset_ne _ _ _ hb⟩
    · refine reaches_of_effect (answers_refreshDue_runs hup hch hbank hactive (busy := true) fun _ => Nat.not_lt.mp hp) ?_ (fun _ _ h => h)
      rw [State.modChan_chan, if_neg hp, if_neg hp]
      dsimp only
      exact ⟨tget_tset_same _ _ _ _, rfl, fun b hb => tget_tset_ne _ _ _ hb⟩
  · refine reaches_of_effect (answers_refreshDue_runs hup hch hbank hactive (busy := false) fun h => nomatch h) ?_ (fun _ _ h => h)
    rw [State.modChan_chan]
    dsimp only
    exact ⟨tget_tset_same _ _ _ _, rfl⟩

theorem answers_retrainComplete {ch : Nat} (hch : ch < 64) (htraining : (s.chan ch).st = .training) (ok : Bool) :
    Answers (.retrainComplete ch ok) s (s.retrained ch ok) := answers_congr (answers_whenUp rfl hup) (if_pos ⟨hch, htraining⟩)

theorem reaches_retrainComplete_ok {ch : Nat} (hch : ch < 64) (htraining : (s.chan ch).st = .training) (hwait : (s.chan ch).waitRemap = []) :
    Reaches (.retrainComplete ch true) s (fun t => (t.chan ch).st = .active ∧ (t.chan ch).failRun = 0 ∧
      (t.chan ch).retrained = ((s.chan ch).retrained + 1) % 2 ^ 16 ∧ (t.chan ch).conservative = (s.chan ch).conservative ∧ t.out = s.out) := by
  refine reaches_of_effect (answers_congr (answers_retrainComplete hup hch htraining true) (State.retrained_ok hwait)) ?_ (fun _ _ h => h)
  rw [State.modChan_chan, State.modChan_chan]
  exact ⟨rfl, rfl, rfl, rfl, rfl⟩

theorem reaches_retrainComplete_failed {ch : Nat} (hch : ch < 64) (htraining : (s.chan ch).st = .training) (hwait : (s.chan ch).waitRemap = [])
    (hsound : ∀ c, s.chanLost (s.chan c) = false) : Reaches (.retrainComplete ch false) s (fun t =>
      (t.chan ch).st = (if (s.chan ch).failRun = 2 ∧ (s.chan ch).conservative = false then .training else .active) ∧
      (t.chan ch).conservative = decide ((s.chan ch).failRun = 2 ∨ (s.chan ch).conservative = true) ∧
      (t.chan ch).failed = ((s.chan ch).failed + 1) % 2 ^ 16 ∧ (t.chan ch).retrained = (s.chan ch).retrained ∧
      t.od.lastRecord = faultRecord { code := fltMemTrain, unit := ch } s.od.faultSeq) := by
  refine reaches_of_effect (answers_congr (answers_retrainComplete hup hch htraining false) (State.retrained_failed hwait hsound)) ?_ (fun _ _ h => h)
  have hrecord : (s.trainFailed ch).od.lastRecord = faultRecord { code := fltMemTrain, unit := ch } s.od.faultSeq := State.raise_lastRecord _ _
  have hrun : (s.chan ch).failRun < 3 := by
    have h := hsound ch
    rw [State.chanLost, Bool.or_eq_false_iff, decide_eq_false_iff_not] at h
    omega
  have hthird : (decide (3 ≤ (s.chan ch).failRun + 1) && !(s.chan ch).conservative) = true ↔ (s.chan ch).failRun = 2 ∧ (s.chan ch).conservative = false := by
    rw [Bool.and_eq_true, decide_eq_true_iff, Bool.not_eq_true']
    exact and_congr_left' (by omega)
  split
  · rename_i h
    have hcons := hthird.mp h
    rw [State.modChan_chan, State.trainFailed_chan, if_pos hcons, decide_eq_true (Or.inl hcons.1)]
    exact ⟨htraining, rfl, rfl, rfl, hrecord⟩
  · rename_i h
    have hcons := mt hthird.mpr h
    have hsame : (s.chan ch).conservative = decide ((s.chan ch).failRun = 2 ∨ (s.chan ch).conservative = true) := by
      cases hc : (s.chan ch).conservative with
      | true => exact (decide_eq_true (Or.inr rfl)).symm
      | false => exact (decide_eq_false fun hor => hor.elim (fun h2 => hcons ⟨h2, hc⟩) Bool.false_ne_true).symm
    rw [State.modChan_chan, State.trainFailed_chan, if_neg hcons]
    exact ⟨rfl, hsame, rfl, rfl, hrecord⟩

theorem reaches_flushComplete (hflush : s.mem.flushing = true) : Reaches .flushComplete s (fun t => t.mem.flushing = false ∧
    (∀ line c, tget none t.mem.cache line = some c → c.dirty = false) ∧
    (∀ line, (tget none s.mem.cache line).isSome = true → (tget none t.mem.cache line).isSome = true) ∧
    (∀ line, (∀ p ∈ s.mem.cache, p.1 ≠ line) → tget none t.mem.cache line = none) ∧
    ((∀ p ∈ s.mem.chans, p.2.merges = []) → t.mem.bytes = s.mem.bytes)) := by
  refine reaches_of_effect (answers_congr (answers_whenUp rfl hup) (if_pos hflush)) ?_ (fun _ _ h => h)
  exact ⟨rfl, fun _ _ => State.flushed_clean, fun _ => State.flushed_valid, fun _ => State.flushed_none, State.flushed_bytes⟩

section
variable {ch line : Nat} {e : ReadErrors} {m : MergeEntry} (hch : ch < 64) (hin : line < saddleSize) (hline : chanOf line = ch)
  (hentry : s.entryOf line = some m) (hnarrow : m.bytes.length < 64) (hlost : s.mem.lostLines = [])
include hch hin hline hentry hnarrow hlost

theorem reaches_mergeEntryTimeout_merged (halign : line % 64 = 0) (hnodup : (m.bytes.map (·.1)).Nodup) (hoff : ∀ b ∈ m.bytes, b.1 < 64)
    (hgood : s.lineFails line = false) (hread : e.failing.contains line = false) : Reaches (.mergeEntryTimeout ch line e) s (fun t =>
      t.entryOf line = none ∧ t.rdBytes line 64 = s.seen line 64 ∧ tget 0 t.mem.cnt (cntKey 0 ch 7) = (tget 0 s.mem.cnt (cntKey 0 ch 7) + 1) % 2 ^ 64) := by
  have hm := State.entryOf_line hentry
  subst hm
  have hsaddle : inSaddle m.line = true := decide_eq_true hin
  have hclose := State.closeEntry_good (e := e) hnarrow hgood hread
  refine reaches_of_effect (answers_mergeEntryTimeout hup hch hline hentry hclose ((State.merged_lostLines _ _ _).trans hlost)) ?_ (fun _ _ h => h)
  have hcnt := State.merged_cnt (s := s) hsaddle m.bytes
  rw [hline] at hcnt
  exact ⟨s.merged_entryOf m.line m.bytes, State.merged_bytes hsaddle halign hentry hnodup hoff, hcnt⟩

theorem reaches_mergeEntryTimeout_discarded (hbad : s.lineFails line = true) (hcls : s.classOf line = 0) : Reaches (.mergeEntryTimeout ch line e) s (fun t =>
    t.entryOf line = none ∧ t.mem.bytes = s.mem.bytes ∧ t.lineFails line = true ∧
    tget 0 t.mem.cnt (cntKey 0 ch 6) = (tget 0 s.mem.cnt (cntKey 0 ch 6) + 1) % 2 ^ 64) := by
  have hm := State.entryOf_line hentry
  subst hm
  have hsaddle : inSaddle m.line = true := decide_eq_true hin
  have hclose := State.closeEntry_bad (e := e) hsaddle hnarrow hbad hcls
  obtain ⟨hlost', hnone, hbytes, hfails, hcnt⟩ := State.discarded_facts (s := s) hsaddle
  refine reaches_of_effect (answers_mergeEntryTimeout hup hch hline hentry hclose (hlost'.trans hlost)) ?_ (fun _ _ h => h)
  rw [hline] at hcnt
  exact ⟨hnone, hbytes, hfails, hcnt⟩

end

section
variable {e : ReadErrors} (hen : s.mem.burn.dramEn = true) (hlost : s.mem.lostLines = []) (hpos : s.mem.burn.pos < 2 ^ 28)
include hen hlost hpos

/-- What an interval of the walk reaches, when what it makes of its line `u` leaves the walk's place. -/
theorem reaches_burnisherLine {u : State} {P : State → Prop}
    (hu : (if s.burnSkips (s.mem.burn.pos * 64) then s else s.burnRead (s.mem.burn.pos * 64) e) = u) (hkept : u.mem.burn.pos = s.mem.burn.pos)
    (hpasses : u.mem.burn.passes = s.mem.burn.passes) (hnone : u.mem.lostLines = s.mem.lostLines) (hp : P (s.walked u))
    (hqueue : ∀ (t : State) q, P t → P { t with pending := q }) : Reaches (.burnisherLine e) s P :=
  reaches_of_effect (answers_burnisherLine hup hen (State.burnStep_eq hpos hu hkept hpasses) (hnone.trans hlost)) hp hqueue

theorem reaches_burnisherLine_good (h : s.burnSkips (s.mem.burn.pos * 64) = true ∨
    (s.lineFails (s.mem.burn.pos * 64) = false ∧ e.failing.contains (s.mem.burn.pos * 64) = false)) : Reaches (.burnisherLine e) s (fun t =>
      t.mem.burn.pos = (s.mem.burn.pos + 1) % 2 ^ 28 ∧ t.mem.bytes = s.mem.bytes ∧ t.mem.failing = s.mem.failing ∧ t.out = s.out ∧
      t.mem.burn.passes = (if s.mem.burn.pos = 2 ^ 28 - 1 then (s.mem.burn.passes + 1) % 2 ^ 32 else s.mem.burn.passes) ∧
      t.mem.burn.lines = (if s.burnSkips (s.mem.burn.pos * 64) then s.mem.burn.lines else (s.mem.burn.lines + 1) % 2 ^ 64)) := by
  cases hskip : s.burnSkips (s.mem.burn.pos * 64) with
  | true => exact reaches_burnisherLine hup hen hlost hpos (if_pos hskip) rfl rfl rfl ⟨rfl, rfl, rfl, rfl, rfl, rfl⟩ (fun _ _ h => h)
  | false =>
    rw [hskip] at h
    obtain ⟨hgood, hread⟩ := h.resolve_left Bool.false_ne_true
    obtain ⟨hbytes, hfailing, hlost', -, -⟩ := s.walkRead_kept (s.mem.burn.pos * 64)
    obtain ⟨hburn, hout, -, -⟩ := s.walkRead_walk (s.mem.burn.pos * 64)
    have hread' : s.burnRead (s.mem.burn.pos * 64) e = s.walkRead (s.mem.burn.pos * 64) :=
      State.burnRead_eq.trans (State.walkTest_good (by rw [State.lineFails, hfailing, ← State.lineFails, hgood]) hread)
    generalize s.walkRead (s.mem.burn.pos * 64) = u at *
    refine reaches_burnisherLine hup hen hlost hpos ((if_neg (ne_true_of_eq_false hskip)).trans hread') ?_ ?_ hlost' ⟨rfl, hbytes, hfailing, hout, rfl, ?_⟩
      (fun _ _ h => h)
    · rw [hburn]
    · rw [hburn]
    · show u.mem.burn.lines = _
      rw [hburn]
      rfl

theorem reaches_burnisherLine_bad (hskip : s.burnSkips (s.mem.burn.pos * 64) = false) (hbad : s.lineFails (s.mem.burn.pos * 64) = true)
    (hcls : s.classOf (s.mem.burn.pos * 64) ≠ 1) : Reaches (.burnisherLine e) s (fun t =>
      t.mem.burn.pos = (s.mem.burn.pos + 1) % 2 ^ 28 ∧ t.mem.bytes = s.mem.bytes ∧ t.lineFails (s.mem.burn.pos * 64) = true ∧ t.ctxs = s.ctxs ∧ t.slots = s.slots ∧
      tget 0 t.mem.cnt (cntKey 0 (chanOf (s.mem.burn.pos * 64)) 9) = (tget 0 s.mem.cnt (cntKey 0 (chanOf (s.mem.burn.pos * 64)) 9) + 1) % 2 ^ 64) := by
  have hin : inSaddle (s.mem.burn.pos * 64) = true := decide_eq_true (by rw [saddleSize]; omega)
  obtain ⟨hbytes, hfailing, hlost', hcnt, hclass⟩ := s.walkRead_kept (s.mem.burn.pos * 64)
  obtain ⟨hburn, -, hctxs, hslots⟩ := s.walkRead_walk (s.mem.burn.pos * 64)
  obtain ⟨hburn', hbytes', hlost'', hfails, hctxs', hslots', hcnt'⟩ := State.walkTest_bad_facts (s := s.walkRead (s.mem.burn.pos * 64)) (e := e) hin
    (by rw [State.lineFails, hfailing, ← State.lineFails, hbad]) (by rw [hclass]; exact hcls)
  rw [hcnt] at hcnt'
  rw [← State.burnRead_eq] at hburn' hbytes' hlost'' hfails hctxs' hslots' hcnt'
  refine reaches_burnisherLine hup hen hlost hpos (if_neg (ne_true_of_eq_false hskip)) ?_ ?_ (hlost''.trans hlost')
    ⟨rfl, hbytes'.trans hbytes, hfails, hctxs'.trans hctxs, hslots'.trans hslots, hcnt'⟩ (fun _ _ h => h)
  · rw [hburn', hburn]
  · rw [hburn', hburn]

end

section
variable {f : Bool} (hen : s.mem.burn.onchipEn = true)
include hen

theorem reaches_onchipScrubLine {b : Nat} (hbank : s.nextBank (s.mem.burn.onchipPos / 1024) (s.walkBanks - s.mem.burn.onchipPos / 1024) = some b) :
    let line := s.walkLine b (if b = s.mem.burn.onchipPos / 1024 then s.mem.burn.onchipPos % 1024 else 0)
    Reaches (.onchipScrubLine f) s (fun t => t.mem.burn.lines = (s.mem.burn.lines + 1) % 2 ^ 64 ∧ t.mem.bytes = s.mem.bytes ∧
      t.lineFails line = (f || s.lineFails line) ∧ t.out = s.out) := by
  intro line
  obtain ⟨next, hwalk⟩ := State.onchipLine_line (failing := f) hbank
  refine reaches_of_effect (answers_congr (answers_whenUp rfl hup) ((if_pos hen).trans hwalk)) ?_ (fun _ _ h => h)
  show _ ∧ _
  obtain ⟨hlines, hbytes, hfailing, hout⟩ := s.scrubbed_facts (if (f || s.lineFails line) = true then s.scrubFailed line else s) next
  refine ⟨hlines, hbytes.trans ?_, ?_, hout.trans ?_⟩
  · split
    · exact (State.scrubFailed_facts line).1
    · rfl
  · rw [State.lineFails, hfailing, ← State.lineFails]
    cases hbad : f || s.lineFails line with
    | true => exact (State.scrubFailed_facts line).2.1
    | false => exact (Bool.or_eq_false_iff.mp hbad).2
  · split
    · exact (State.scrubFailed_facts line).2.2
    · rfl

theorem reaches_onchipScrubLine_end (hbank : s.nextBank (s.mem.burn.onchipPos / 1024) (s.walkBanks - s.mem.burn.onchipPos / 1024) = none) :
    Reaches (.onchipScrubLine f) s (fun t => t.mem.burn.onchipPos = 0 ∧ t.mem.burn.onchipPasses = (s.mem.burn.onchipPasses + 1) % 2 ^ 32) :=
  reaches_of_effect (answers_congr (answers_whenUp rfl hup) ((if_pos hen).trans (State.onchipLine_end hbank))) ⟨rfl, rfl⟩ (fun _ _ h => h)

end

theorem answers_quarantineCopyComplete {ch i : Nat} {r : RemapEntry} (hr : tget none (s.chan ch).remap i = some r) (hcopy : r.copying = true)
    (hcls : ∀ l ∈ rowLines ch r.bank r.row, s.classOf l ≠ 1) : Answers (.quarantineCopyComplete ch i) s
      (s.modChan ch (fun c => { c with remap := tset none c.remap i (some { r with copying := false }) })) := by
  refine answers_congr (answers_whenUp rfl hup) ?_
  rw [hr]
  refine (if_pos hcopy).trans ?_
  dsimp only
  obtain ⟨u, hu⟩ : ∃ u, u = s.modChan ch (fun c => { c with remap := tset none c.remap i (some { r with copying := false }) }) := ⟨_, rfl⟩
  rw [← hu]
  have hclass : ∀ l ∈ rowLines ch r.bank r.row, u.classOf l ≠ 1 := fun l hl => by
    rw [hu]
    exact hcls l hl
  generalize rowLines ch r.bank r.row = ls at hclass
  clear hcls
  induction ls with
  | nil => rfl
  | cons l ls ih =>
    rw [List.foldl_cons, if_neg (hclass l List.mem_cons_self)]
    exact ih fun x hx => hclass x (List.mem_cons_of_mem _ hx)

theorem answers_spareEntryAppend {a : Nat × Nat × Nat × Nat × Nat} {rest : List (Nat × Nat × Nat × Nat × Nat)} (h : s.kpr.appends = a :: rest) :
    Answers .spareEntryAppend s { s with kpr := { s.kpr with appends := rest, signed := (s.kpr.signed + 1) % 2 ^ 64 }, flash := { s.flash with pendingSpares := s.flash.pendingSpares ++ [a] } } := by
  refine answers_congr (answers_whenUp rfl hup) ?_
  rw [h] <;> rfl

end

end Sys2Proof.Machine

namespace Sys2Proof.Proofs
open Sys2Proof.Machine

/-- Settles O44. -/
theorem memoryCommands : Obligations.MemoryCommands := by
  unfold Obligations.MemoryCommands
  intro s hup
  refine ⟨fun port age hport => ?_, fun ch bank hch hbank hactive => reaches_refreshDue hup hch hbank hactive,
    fun ch tempC o hch hactive htemp => ⟨answers_channelRetrain_starts hup hch hactive htemp, answers_channelRetrain_waits hup hch hactive htemp⟩,
    fun ch hch htraining hwait => ⟨reaches_retrainComplete_ok hup hch htraining hwait, reaches_retrainComplete_failed hup hch htraining hwait⟩,
    answers_whenUp rfl hup, fun h => answers_congr (answers_whenUp rfl hup) (if_neg (ne_true_of_eq_false h)), reaches_flushComplete hup,
    fun ch line e m hch halign hin hline hentry hnarrow hnodup hoff hlost => ⟨reaches_mergeEntryTimeout_merged hup hch hin hline hentry hnarrow hlost halign hnodup hoff,
      reaches_mergeEntryTimeout_discarded hup hch hin hline hentry hnarrow hlost⟩, fun e => ⟨?_, fun hen hlost hpos => ?_⟩,
    fun f => ⟨?_, fun b hen => reaches_onchipScrubLine hup hen, fun hen => reaches_onchipScrubLine_end hup hen⟩,
    fun ch i r hr hcopy hcls => answers_quarantineCopyComplete hup hr hcopy hcls, fun h => ?_, fun a rest h => ?_⟩
  · refine reaches_of_kept (answers_requestUrgencyRise hup age hport) rfl ?_
    have hport' : tget {} (s.modPortStat port (fun m => m.aged port age)).mem.ports port = (tget {} s.mem.ports port).aged port age := by
      rw [State.modPortStat, tget_tmod, if_pos rfl]
    dsimp only
    rw [hport']
    refine ⟨urgencyOf_none, urgencyOf_half, urgencyOf_most, urgencyOf_near, rfl, rfl, fun q hq => ?_, rfl⟩
    rw [State.modPortStat, tget_tmod, if_neg hq]
  · exact fun h => answers_congr (answers_whenUp rfl hup) (if_neg (ne_true_of_eq_false h))
  · exact ⟨reaches_burnisherLine_good hup hen hlost hpos, reaches_burnisherLine_bad hup hen hlost hpos⟩
  · exact fun h => answers_congr (answers_whenUp rfl hup) (if_neg (ne_true_of_eq_false h))
  · refine answers_congr (answers_whenUp rfl hup) ?_
    rw [h] <;> rfl
  · exact reaches_of_effect (answers_spareEntryAppend hup h) ⟨rfl, rfl, rfl⟩ (fun _ _ h => h)

end Sys2Proof.Proofs
end

