-- ==== Sys2Proof/Proofs/ShadowedContext.lean ====
section
/-! PROOFS. A switch whose read fails, on a table of contexts that lists its context twice. -/
namespace Sys2Proof.Machine
open Sys2Proof

/-- Context 0 switches in; its table lists behind it, hidden, a ready context of the same number. -/
def shadowedCtxState : State := { State.reset with
  clk := { running := true, pllLock := true }, pci := { ready := true, saddleReady := true }, boot := { stage := 9 }, pair := { failOut := false }
  ctxs := [(0, { st := .switchingIn, started := true }), (0, { st := .descheduled, ready := true })] }

theorem shadowedCtxState_up : shadowedCtxState.up = true := by decide +kernel

/-- The context that ended is taken as the partition's next one. -/
theorem shadowedCtxState_result : ∀ t, execContextSwitchComplete 0 true shadowedCtxState = .next t → (t.ctx 0).st ≠ .ended := by
  have h : (match execContextSwitchComplete 0 true shadowedCtxState with
    | .next t => decide ((t.ctx 0).st ≠ .ended)
    | _ => true) = true := by decide +kernel
  intro t ht
  rw [ht] at h
  exact of_decide_eq_true h

end Sys2Proof.Machine

namespace Sys2Proof.Proofs
open Sys2Proof.Machine

/-- Refutes O47: in `shadowedCtxState` context 0 ends at the failed read, and is at once switched in again. -/
theorem not_contextCommands : ¬ Obligations.ContextCommands := by
  unfold Obligations.ContextCommands
  intro h
  obtain ⟨-, hswitch⟩ := h
  obtain ⟨-, -, -, -, -, -, -, hcomplete⟩ := hswitch shadowedCtxState 0 shadowedCtxState_up
  obtain ⟨-, -, hfail⟩ := hcomplete (by decide) (by decide) (by decide)
  obtain ⟨u, hu, hended, -⟩ := hfail (by decide) (fun d hd => nomatch hd) (fun r hr => nomatch hr)
  exact absurd hended (shadowedCtxState_result _ hu)

end Sys2Proof.Proofs
end

