-- ==== Sys2Proof/Proofs/ChainHash.lean ====
section
/-! PROOFS. The chain's hash, the order of a group's entries, and the genesis of a configuration (R443 to R445). -/
namespace Sys2Proof.Machine
open Sys2Proof

/-! ### SHA-512 -/

theorem shaRounds_length (ks w h : List Nat) (hh : h.length = 8) : (shaRounds ks w h).length = 8 := by
  induction ks generalizing w h with
  | nil => exact hh
  | cons k ks ih =>
    unfold shaRounds
    split
    · exact ih _ _ rfl
    · exact hh

theorem shaBlock_length (h : List Nat) (block : List Byte) (hh : h.length = 8) : (shaBlock h block).length = 8 := by
  rw [shaBlock, List.length_zipWith, hh, shaRounds_length _ _ _ hh, Nat.min_self]

theorem shaBlocks_length (blocks : List (List Byte)) (h : List Nat) (hh : h.length = 8) : (blocks.foldl shaBlock h).length = 8 := by
  induction blocks generalizing h with
  | nil => exact hh
  | cons b bs ih => exact ih _ (shaBlock_length h b hh)

theorem beBytes_length (n v : Nat) : (beBytes n v).length = n := by rw [beBytes, List.length_reverse, leBytes_length]

@[simp] theorem sha512_length (m : List Byte) : (sha512 m).length = 64 := by
  have hwords : ∀ ws : List Nat, (ws.flatMap (beBytes 8)).length = 8 * ws.length := fun ws => by
    induction ws with
    | nil => rfl
    | cons w ws ih => rw [List.flatMap_cons, List.length_append, beBytes_length, ih, List.length_cons]; omega
  unfold sha512
  dsimp only
  rw [hwords, shaBlocks_length _ _ rfl]

/-! ### The entries of a group (R445) -/

theorem chainStep_eq (h : List Byte) (e : Entry) : chainStep h e =
    sha512 (h ++ (leBytes 1 e.typ ++ leBytes 1 e.sub ++ leBytes 2 e.payload.length ++ leBytes 4 0 ++ e.payload)) := rfl

theorem groupOrder_perm (cfg : Option Entry) (g : Group) (late : List Entry) : (groupOrder cfg g late).Perm (cfg.toList ++ g.entries ++ late) := by
  have hsplit : (late.filter (fun e => e.typ == 8) ++ late.filter (fun e => e.typ != 8)).Perm late := List.filter_append_perm _ late
  have hlinks := perm_sortBy Entry.rank (g.entries ++ late.filter (fun e => e.typ == 8))
  have hothers := perm_sortBy Entry.lateRank (late.filter (fun e => e.typ != 8))
  refine ((hlinks.append_left cfg.toList).append hothers).trans ?_
  rw [List.append_assoc, List.append_assoc, List.append_assoc]
  exact (hsplit.append_left g.entries).append_left cfg.toList

theorem groupOrder_parts (cfg : Option Entry) (g : Group) (late : List Entry) :
    ∃ a b, groupOrder cfg g late = cfg.toList ++ a ++ b ∧ a.Pairwise (fun x y => x.rank ≤ y.rank) ∧ b.Pairwise (fun x y => x.lateRank ≤ y.lateRank) ∧
      (∀ e ∈ b, e.typ ≠ 8) ∧ ∀ e ∈ late, e.typ = 8 → e ∈ a := by
  refine ⟨_, _, rfl, pairwise_sortBy _ _, pairwise_sortBy _ _, fun e he => ?_, fun e he hlink => ?_⟩
  · simpa using (List.mem_filter.mp (mem_sortBy.mp he)).2
  · exact mem_sortBy.mpr (List.mem_append_right _ (List.mem_filter.mpr ⟨he, by rw [hlink]; rfl⟩))

/-! ### The genesis (R443, R444) -/

section
variable (s : State) (n : Nat)

/-- The firmware's version that the genesis entry names. -/
def State.chainFw (s : State) : Nat := match tget none s.flash.slots (4 + tget 0 s.boot.from2 2) with | some c => c.fwVersion | none => 0

/-- The genesis entry's payload. -/
def State.genesisPayload (s : State) (n : Nat) : List Byte := leBytes 1 n ++ leBytes 4 s.chainFw ++ s.entriesDigest n

theorem State.genesisPayload_length : (s.genesisPayload n).length = 69 := by
  simp [State.genesisPayload, State.entriesDigest]

theorem State.genesis_chain : ((s.genesis n).slot n).chain = {
    h := sha512 (ascii "QSCHAIN1" ++ (leBytes 1 0 ++ leBytes 1 0 ++ leBytes 2 (s.genesisPayload n).length ++ leBytes 4 0 ++ s.genesisPayload n))
    epoch := (s.slot n).chain.epoch + 1, oldSeq := (s.slot n).chain.seq, genesis := s.genesisPayload n
    audPages := (s.slot n).chain.audPages, audHead := (s.slot n).chain.audHead } := by
  unfold State.genesis
  dsimp only
  rw [State.modChain, State.modSlot_slot]
  rfl

theorem State.genesis_facts : let c := ((s.genesis n).slot n).chain
    c.genesis.length = 69 ∧ c.h = sha512 (ascii "QSCHAIN1" ++ (leBytes 2 0 ++ leBytes 2 69 ++ leBytes 4 0 ++ c.genesis)) ∧ c.genesis.drop 5 = s.entriesDigest n ∧
      c.seq = 0 ∧ c.cpNumber = 0 ∧ c.cpFirst = 0 ∧ c.nextGroup = 0 ∧ c.epoch = (s.slot n).chain.epoch + 1 ∧ c.oldSeq = (s.slot n).chain.seq := by
  rw [State.genesis_chain, State.genesisPayload_length]
  refine ⟨s.genesisPayload_length n, rfl, ?_, rfl, rfl, rfl, rfl, rfl, rfl⟩
  rw [State.genesisPayload, List.drop_left' (by simp)]

end

end Sys2Proof.Machine
end

