-- ==== Sys2Proof/Proofs/ClosedGroups.lean ====
section
/-! PROOFS. What closing a group does to its slot (R445, R448, R450, R454). -/
namespace Sys2Proof.Machine
open Sys2Proof

theorem State.modChain_slot (s : State) (n : Nat) (f : SlotChain → SlotChain) : (s.modChain n f).slot n = { s.slot n with chain := f (s.slot n).chain } :=
  s.modSlot_slot n _

theorem State.modChain_slot_ne {s : State} {m n : Nat} (f : SlotChain → SlotChain) (h : m ≠ n) : (s.modChain n f).slot m = s.slot m :=
  s.modSlot_slot_ne _ h

/-! ### The audit export (R450) -/

/-- What an export may change: memory, what goes out, and the audit fields of the slot's chain. -/
structure State.Exports (s t : State) (n : Nat) : Prop where
  slot : ∃ head lost, t.slot n = { s.slot n with chain := { (s.slot n).chain with audHead := head, audLost := lost } }
  other : ∀ m, m ≠ n → t.slot m = s.slot m
  rest : ∃ mem out slots, t = { s with mem := mem, out := out, slots := slots }
  off : (s.slot n).cfg.audit.enable = false → t = s

namespace State.Exports
variable {s t u : State} {n : Nat}

theorem refl (s : State) (n : Nat) : s.Exports s n := ⟨⟨_, _, rfl⟩, fun _ _ => rfl, ⟨_, _, _, rfl⟩, fun _ => rfl⟩

/-- The export of a group: bytes of memory, a message, and the audit fields. -/
theorem of_modChain (hon : (s.slot n).cfg.audit.enable = true) (head : Nat → Nat) (lost : Bool)
    (hslots : t.slots = (s.modChain n (fun c => { c with audHead := head c.audHead, audLost := lost })).slots)
    (hrest : ∃ mem out slots, t = { s with mem := mem, out := out, slots := slots }) : s.Exports t n := by
  have hslot : ∀ m, t.slot m = (s.modChain n (fun c => { c with audHead := head c.audHead, audLost := lost })).slot m := fun m => by
    rw [State.slot, hslots, ← State.slot]
  refine ⟨⟨_, _, (hslot n).trans (s.modChain_slot n _)⟩, fun m hm => (hslot m).trans (State.modChain_slot_ne _ hm), hrest,
    fun h => absurd (hon.symm.trans h) (by decide)⟩

end State.Exports

theorem State.auditBytes_mem (s : State) (pages : List Nat) (a : Nat) (bs : List Byte) : ∃ mem, s.auditBytes pages a bs = { s with mem := mem } := by
  have hfold : ∀ (l : List (Nat × Byte)) (f : State → Nat × Byte → State) (s : State), (∀ t p, ∃ mem, f t p = { t with mem := mem }) →
      ∃ mem, l.foldl f s = { s with mem := mem } := by
    intro l f s hf
    induction l generalizing s with
    | nil => exact ⟨_, rfl⟩
    | cons p l ih =>
      obtain ⟨m, hm⟩ := hf s p
      obtain ⟨m', hm'⟩ := ih (f s p)
      exact ⟨m', by rw [List.foldl_cons, hm', hm]⟩
  exact hfold _ _ s fun t p => ⟨_, rfl⟩

theorem State.auditPush_out (s : State) (n : Nat) (bs : List Byte) : ∃ out, s.auditPush n bs = { s with out := out } := by
  unfold State.auditPush
  dsimp only
  split
  · exact ⟨_, rfl⟩
  · exact ⟨_, rfl⟩

theorem State.exports_auditWrite (s : State) (n num : Nat) (es : List Entry) : s.Exports (s.auditWrite n num es) n := by
  unfold State.auditWrite
  dsimp only
  split
  · rename_i hon
    rw [Bool.and_eq_true] at hon
    split
    · obtain ⟨mem, hmem⟩ := s.auditBytes_mem (s.slot n).chain.audPages (s.slot n).chain.audHead
        (auditGroup num es ((s.slot n).chain.h.take 16) (s.slot n).chain.audLost (s.slot n).cfg.audit.withBytes)
      rw [hmem]
      obtain ⟨out, hout⟩ := (({ s with mem := mem } : State).modChain n (fun c => { c with
        audHead := c.audHead + (auditGroup num es ((s.slot n).chain.h.take 16) (s.slot n).chain.audLost (s.slot n).cfg.audit.withBytes).length, audLost := false })).auditPush_out n
        (auditGroup num es ((s.slot n).chain.h.take 16) (s.slot n).chain.audLost (s.slot n).cfg.audit.withBytes)
      exact .of_modChain hon.1 (fun h => h +
        (auditGroup num es ((s.slot n).chain.h.take 16) (s.slot n).chain.audLost (s.slot n).cfg.audit.withBytes).length) false (by rw [hout]; rfl) ⟨_, _, _, hout⟩
    · exact .of_modChain hon.1 id true rfl ⟨_, _, _, rfl⟩
  · exact .refl s n

/-! ### Checkpoints (R448) -/

/-- The cut made at the chain value of a slot. -/
def State.cutRec (s : State) (n flags pts : Nat) : CutRec :=
  let c := (s.slot n).chain
  let det := (s.slot n).cfg.det
  let d := (det.map s.ctx).getD {}
  { slot := n, number := c.cpNumber, chain := c.h.take 16, first := c.cpFirst, last := (c.seq + 2 ^ 32 - 1) % 2 ^ 32
    flags := flags, ctx := det.getD 0xFF, imageDigest := d.imageDigest.take 16, weightDigest := d.weightDigest.take 16
    pts := pts, epoch := c.epoch }

/-- A chain after a cut. -/
def SlotChain.cut (c : SlotChain) : SlotChain := { c with cpNumber := c.cpNumber + 1, cpFirst := c.seq }

theorem State.cutCheckpoint_eq (s : State) (n flags pts : Nat) : s.cutCheckpoint n flags pts =
    { s.modChain n SlotChain.cut with kpr := { s.kpr with queue := s.kpr.queue ++ [s.cutRec n flags pts] } } := rfl

theorem State.cutCheckpoint_slots (s : State) (n flags pts : Nat) : (s.cutCheckpoint n flags pts).slots = (s.modChain n SlotChain.cut).slots := rfl

theorem State.cutCheckpoint_slot (s : State) (n flags pts : Nat) : (s.cutCheckpoint n flags pts).slot n = { s.slot n with chain := (s.slot n).chain.cut } := by
  rw [State.slot, State.cutCheckpoint_slots]
  exact s.modChain_slot n _

theorem State.cutCheckpoint_slot_ne {s : State} {m n : Nat} (flags pts : Nat) (h : m ≠ n) : (s.cutCheckpoint n flags pts).slot m = s.slot m := by
  rw [State.slot, State.cutCheckpoint_slots]
  exact State.modChain_slot_ne _ h

/-! ### Closing (R445) -/

section
variable (s : State) (n g : Nat) (grp : Group)

/-- The entries of a group, as they are applied. -/
def State.groupEntries : List Entry :=
  groupOrder (if (s.slot n).chain.cfgChange then some { typ := 1, sub := 0, payload := s.entriesDigest n } else none) grp (s.slot n).chain.late

/-- The last open group takes the final checkpoint of a slot that has stopped. -/
def State.closesFinal : Bool := (s.slot n).chain.finalDue && ((s.slot n).chain.groups.filter (fun y => y.num != g)).isEmpty

/-- A chain with a group's entries applied. -/
def SlotChain.afterGroup (c : SlotChain) (g : Nat) (grp : Group) (es : List Entry) (rest : List Group) (final : Bool) : SlotChain := { c with
  h := es.foldl chainStep c.h, closed := g + 1, late := [], cfgChange := false, groups := rest
  lastPts := ((grp.outs.getLast?).map (·.2)).getD c.lastPts, finalDue := c.finalDue && !final }

/-- The slot with the group's entries applied. -/
def State.applied : State := s.modChain n (fun c =>
  c.afterGroup g grp (s.groupEntries n grp) ((s.slot n).chain.groups.filter (fun y => y.num != g)) (s.closesFinal n g))

/-- The group exported. -/
def State.appliedOut : State := (s.applied n g grp).auditWrite n g
  (if g = 0 then { typ := 0, sub := 0, payload := (s.slot n).chain.genesis } :: s.groupEntries n grp else s.groupEntries n grp)

/-- The checkpoint that the group's pictures, or the slot's end, ask for. -/
def State.cutAfter (u : State) : State :=
  match grp.outs.find? (fun p => p.1 % (s.slot n).cfg.stream.checkpointEvery == (s.slot n).cfg.stream.checkpointEvery - 1) with
  | some p => u.cutCheckpoint n (2 * b2n (s.closesFinal n g)) p.2
  | none => if s.closesFinal n g then u.cutCheckpoint n 2 (u.slot n).chain.lastPts else u

/-- The group closed, before what the partner is told. -/
def State.closedLocal : State := s.cutAfter n g grp (s.appliedOut n g grp)

variable {s n g grp}

/-- A group of a device that does not lead a lock-step pair. -/
theorem State.closeGroup_eq (hfind : (s.slot n).chain.groups.find? (fun y => y.num == g) = some grp)
    (hlead : (s.pair.mode == 3 && s.pair.link == 2 && !s.follower) = false) : s.closeGroup n g =
      let u := (s.closedLocal n g grp).mirrorChain n
      if u.pair.mode = 3 ∧ u.pair.link = 2 then
        ((u.stirrupSend 3 (mirrorPayload 2 n g (u.chainValue n))).modChain n (fun c =>
          if c.diverged then c
          else { c with values := c.values ++ [(g, c.h.take 16, (s.groupEntries n grp).map (fun e => (e.typ, e.prefix16)))] })).compareChain n
      else u := by
  unfold State.closeGroup
  dsimp only
  rw [hfind]
  dsimp only
  rw [hlead, if_neg Bool.false_ne_true]
  rfl

/-- The chain with the group's entries applied, before any cut. -/
def State.chainApplied (s : State) (n g : Nat) (grp : Group) : SlotChain := (s.slot n).chain.afterGroup g grp (s.groupEntries n grp)
  ((s.slot n).chain.groups.filter (fun y => y.num != g)) (s.closesFinal n g)

/-- The slot after the group was applied and exported. -/
theorem State.appliedOut_slot : ∃ head lost, (s.appliedOut n g grp).slot n = { s.slot n with chain := { s.chainApplied n g grp with audHead := head, audLost := lost } } := by
  obtain ⟨head, lost, hslot⟩ := ((s.applied n g grp).exports_auditWrite n g
    (if g = 0 then { typ := 0, sub := 0, payload := (s.slot n).chain.genesis } :: s.groupEntries n grp else s.groupEntries n grp)).slot
  have happlied : (s.applied n g grp).slot n = { s.slot n with chain := s.chainApplied n g grp } := s.modChain_slot n _
  rw [happlied] at hslot
  exact ⟨head, lost, hslot⟩

theorem State.appliedOut_slot_ne {m : Nat} (h : m ≠ n) : (s.appliedOut n g grp).slot m = s.slot m :=
  (((s.applied n g grp).exports_auditWrite n g _).other m h).trans (State.modChain_slot_ne _ h)

theorem State.appliedOut_rest : ∃ mem out slots, s.appliedOut n g grp = { s with mem := mem, out := out, slots := slots } := by
  obtain ⟨mem, out, slots, h⟩ := ((s.applied n g grp).exports_auditWrite n g
    (if g = 0 then { typ := 0, sub := 0, payload := (s.slot n).chain.genesis } :: s.groupEntries n grp else s.groupEntries n grp)).rest
  exact ⟨mem, out, slots, h⟩

theorem State.appliedOut_out (h : (s.slot n).cfg.audit.enable = false) : (s.appliedOut n g grp).out = s.out := by
  have happlied : (s.applied n g grp).slot n = { s.slot n with chain := s.chainApplied n g grp } := s.modChain_slot n _
  have hoff := ((s.applied n g grp).exports_auditWrite n g
    (if g = 0 then { typ := 0, sub := 0, payload := (s.slot n).chain.genesis } :: s.groupEntries n grp else s.groupEntries n grp)).off (by rw [happlied]; exact h)
  rw [State.appliedOut, hoff]
  rfl

/-- What a group's close leaves, whether or not it cuts a checkpoint. -/
theorem State.closedLocal_kept : let t := s.closedLocal n g grp
    (t.slot n).chain.h = (s.groupEntries n grp).foldl chainStep (s.slot n).chain.h ∧ (t.slot n).chain.closed = g + 1 ∧ (t.slot n).chain.late = [] ∧
      (t.slot n).chain.seq = (s.slot n).chain.seq ∧ (t.slot n).chain.groups = (s.slot n).chain.groups.filter (fun y => y.num != g) ∧
      (∀ m, m ≠ n → t.slot m = s.slot m) ∧ t.pair = s.pair ∧ t.out = (s.appliedOut n g grp).out := by
  obtain ⟨head, lost, hslot⟩ := State.appliedOut_slot (s := s) (n := n) (g := g) (grp := grp)
  obtain ⟨mem, out, slots, hrest⟩ := State.appliedOut_rest (s := s) (n := n) (g := g) (grp := grp)
  have hother : ∀ m, m ≠ n → (s.appliedOut n g grp).slot m = s.slot m := fun m hm => State.appliedOut_slot_ne hm
  have hpair : (s.appliedOut n g grp).pair = s.pair := by rw [hrest]
  unfold State.closedLocal
  dsimp only
  obtain ⟨u, hu⟩ : ∃ u, u = s.appliedOut n g grp := ⟨_, rfl⟩
  rw [← hu] at hslot hother hpair ⊢
  have hkept : ∀ t : State, (∃ c, t.slot n = { s.slot n with chain := c } ∧ c.h = (s.chainApplied n g grp).h ∧ c.closed = g + 1 ∧ c.late = [] ∧
      c.seq = (s.slot n).chain.seq ∧ c.groups = (s.slot n).chain.groups.filter (fun y => y.num != g)) → (∀ m, m ≠ n → t.slot m = u.slot m) → t.pair = u.pair → t.out = u.out →
      (t.slot n).chain.h = (s.groupEntries n grp).foldl chainStep (s.slot n).chain.h ∧ (t.slot n).chain.closed = g + 1 ∧ (t.slot n).chain.late = [] ∧
        (t.slot n).chain.seq = (s.slot n).chain.seq ∧ (t.slot n).chain.groups = (s.slot n).chain.groups.filter (fun y => y.num != g) ∧
        (∀ m, m ≠ n → t.slot m = s.slot m) ∧ t.pair = s.pair ∧ t.out = u.out := by
    rintro t ⟨c, hc, hh, hclosed, hlate, hseq, hgroups⟩ hne hp ho
    rw [hc]
    exact ⟨hh, hclosed, hlate, hseq, hgroups, fun m hm => (hne m hm).trans (hother m hm), hp.trans hpair, ho⟩
  have hcutSlot : ∀ flags pts, (u.cutCheckpoint n flags pts).slot n =
      { s.slot n with chain := ({ s.chainApplied n g grp with audHead := head, audLost := lost } : SlotChain).cut } := fun flags pts => by
    rw [State.cutCheckpoint_slot, hslot]
  have hcut := fun flags pts => hkept (u.cutCheckpoint n flags pts) ⟨_, hcutSlot flags pts, rfl, rfl, rfl, rfl, rfl⟩ (fun m hm => State.cutCheckpoint_slot_ne flags pts hm) rfl rfl
  unfold State.cutAfter
  split
  · exact hcut _ _
  · split
    · exact hcut _ _
    · exact hkept u ⟨_, hslot, rfl, rfl, rfl, rfl, rfl⟩ (fun _ _ => rfl) rfl rfl

/-- No picture of the group ends an interval, and the slot goes on: no checkpoint. -/
theorem State.closedLocal_uncut (hnone : ∀ p ∈ grp.outs, p.1 % (s.slot n).cfg.stream.checkpointEvery ≠ (s.slot n).cfg.stream.checkpointEvery - 1)
    (hgoes : (s.slot n).chain.finalDue = false) : (s.closedLocal n g grp).kpr = s.kpr ∧
      ((s.closedLocal n g grp).slot n).chain.cpNumber = (s.slot n).chain.cpNumber := by
  obtain ⟨head, lost, hslot⟩ := State.appliedOut_slot (s := s) (n := n) (g := g) (grp := grp)
  obtain ⟨mem, out, slots, hrest⟩ := State.appliedOut_rest (s := s) (n := n) (g := g) (grp := grp)
  have hfind : grp.outs.find? (fun p => p.1 % (s.slot n).cfg.stream.checkpointEvery == (s.slot n).cfg.stream.checkpointEvery - 1) = none :=
    List.find?_eq_none.mpr fun p hp => by simpa using hnone p hp
  have hfinal : s.closesFinal n g = false := by rw [State.closesFinal, hgoes, Bool.false_and]
  have heq : s.closedLocal n g grp = s.appliedOut n g grp := by
    rw [State.closedLocal, State.cutAfter, hfind, hfinal] <;> rfl
  rw [heq, hslot]
  exact ⟨by rw [hrest], rfl⟩

/-- A picture of the group ends an interval: a checkpoint at the value reached. -/
theorem State.closedLocal_cut (hsome : ∃ p ∈ grp.outs, p.1 % (s.slot n).cfg.stream.checkpointEvery = (s.slot n).cfg.stream.checkpointEvery - 1) :
    ((s.closedLocal n g grp).slot n).chain.cpNumber = (s.slot n).chain.cpNumber + 1 ∧ ((s.closedLocal n g grp).slot n).chain.cpFirst = (s.slot n).chain.seq ∧
      ∃ r, (s.closedLocal n g grp).kpr.queue = s.kpr.queue ++ [r] ∧ r.slot = n ∧ r.number = (s.slot n).chain.cpNumber ∧
        r.chain = ((s.groupEntries n grp).foldl chainStep (s.slot n).chain.h).take 16 ∧ r.first = (s.slot n).chain.cpFirst ∧
        r.last = ((s.slot n).chain.seq + 2 ^ 32 - 1) % 2 ^ 32 ∧ r.ctx = (s.slot n).cfg.det.getD 0xFF := by
  obtain ⟨head, lost, hslot⟩ := State.appliedOut_slot (s := s) (n := n) (g := g) (grp := grp)
  obtain ⟨mem, out, slots, hrest⟩ := State.appliedOut_rest (s := s) (n := n) (g := g) (grp := grp)
  have hkpr : (s.appliedOut n g grp).kpr = s.kpr := by rw [hrest]
  obtain ⟨p, hp⟩ : ∃ p, grp.outs.find? (fun p => p.1 % (s.slot n).cfg.stream.checkpointEvery == (s.slot n).cfg.stream.checkpointEvery - 1) = some p :=
    Option.isSome_iff_exists.mp (List.find?_isSome.mpr (by simpa using hsome))
  have heq : s.closedLocal n g grp = (s.appliedOut n g grp).cutCheckpoint n (2 * b2n (s.closesFinal n g)) p.2 := by
    rw [State.closedLocal, State.cutAfter, hp] <;> rfl
  generalize s.appliedOut n g grp = u at hslot hkpr heq
  have hchain : (u.slot n).chain = { s.chainApplied n g grp with audHead := head, audLost := lost } := by rw [hslot]
  have hcfg : (u.slot n).cfg = (s.slot n).cfg := by rw [hslot]
  rw [heq, State.cutCheckpoint_slot, hslot]
  refine ⟨rfl, rfl, u.cutRec n (2 * b2n (s.closesFinal n g)) p.2, ?_, rfl, ?_, ?_, ?_, ?_, ?_⟩
  · rw [State.cutCheckpoint_eq, hkpr]
  · rw [State.cutRec, hchain]
    rfl
  · rw [State.cutRec, hchain]
    rfl
  · rw [State.cutRec, hchain]
    rfl
  · rw [State.cutRec, hchain]
    rfl
  · rw [State.cutRec, hcfg]

theorem State.mirrorChain_of_single (u : State) (h : u.pair.mode = 0) : u.mirrorChain n = u :=
  if_neg (by rw [State.mirrors, h]; simp)

/-- A group closed on a device without a partner. -/
theorem State.closeGroup_single (hmode : s.pair.mode = 0) (hfind : (s.slot n).chain.groups.find? (fun y => y.num == g) = some grp) :
    s.closeGroup n g = s.closedLocal n g grp := by
  obtain ⟨-, -, -, -, -, -, hpair, -⟩ := State.closedLocal_kept (s := s) (n := n) (g := g) (grp := grp)
  have hmode' : (s.closedLocal n g grp).pair.mode = 0 := by rw [hpair, hmode]
  rw [State.closeGroup_eq hfind (by rw [hmode]; rfl)]
  dsimp only
  rw [State.mirrorChain_of_single _ hmode', if_neg (by omega)]

end

end Sys2Proof.Machine
end

