-- ==== Sys2Proof/Proofs/ChainGroups.lean ====
section
/-! PROOFS. Signed checkpoints, the comparison of a lock-step pair, and a leader's forced entries (R343, R449, R453 to R455). -/
namespace Sys2Proof.Machine
open Sys2Proof

/-! ### Signed checkpoints (R343, R449) -/

section
variable {r : CutRec}

theorem CutRec.body_length (r : CutRec) (fw : Nat) : (r.body fw).length = 64 := by
  simp [CutRec.body]

/-- A record's first 96 B do not depend on its signature. -/
theorem streamRecord_signed (slot seq pts : Nat) (chain : List Byte) {body : List Byte} (hbody : body.length = 64) :
    ((streamRecord slot 5 seq pts chain (body ++ copies 64 0#8)).take 96).length = 96 ∧ ∀ sig : List Byte, sig.length = 64 →
      streamRecord slot 5 seq pts chain (body ++ sig) = (streamRecord slot 5 seq pts chain (body ++ copies 64 0#8)).take 96 ++ sig := by
  have hunits : ∀ sig : List Byte, sig.length = 64 → streamUnits (body ++ sig) = 5 := fun sig hsig => by
    rw [streamUnits, List.length_append, hbody, hsig]
    rfl
  have hcut : ∀ sig : List Byte, sig.length = 64 → streamRecord slot 5 seq pts chain (body ++ sig) =
      (streamHead slot 5 seq pts 5 ++ (padTo 16 chain ++ body)) ++ sig := fun sig hsig => by
    rw [streamRecord_eq, hunits sig hsig, List.length_append, hbody, hsig]
    simp [copies]
  have hzeros : (copies 64 0#8 : List Byte).length = 64 := List.length_replicate
  have hlen : (streamHead slot 5 seq pts 5 ++ (padTo 16 chain ++ body)).length = 96 := by simp [hbody]
  rw [hcut _ hzeros, List.take_left' hlen]
  exact ⟨hlen, hcut⟩

variable {s : State} {rest : List CutRec}

theorem State.checkpointSigned_eq (h : s.kpr.queue = r :: rest) : s.checkpointSigned =
    let u : State := { s with kpr := { s.kpr with queue := rest, signed := (s.kpr.signed + 1) % 2 ^ 64 } }
    let c := (s.slot r.slot).chain
    let seq := if decide (r.epoch = c.epoch) then c.seq else c.oldSeq
    let head := (streamRecord r.slot 5 seq r.pts r.chain (r.body s.chainFw ++ copies 64 0#8)).take 96
    let body := r.body s.chainFw ++ padTo 64 (Config.deviceSign head)
    if decide (r.epoch = c.epoch) then (u.streamOutWith r.slot 5 r.pts r.chain body).mirrorChain r.slot
    else (u.modChain r.slot (fun c => { c with oldSeq := (c.oldSeq + 1) % 2 ^ 32 })).route r.slot 5 (streamRecord r.slot 5 seq r.pts r.chain body) := by
  unfold State.checkpointSigned
  rw [h]
  rfl

theorem answers_checkpointSigned (hup : s.up = true) : Answers .checkpointSigned s s.checkpointSigned := answers_whenUp rfl hup

theorem checkpointSigned_answers (hup : s.up = true) (h : s.kpr.queue = r :: rest) :
    let c := (s.slot r.slot).chain
    let u : State := { s with kpr := { s.kpr with queue := rest, signed := (s.kpr.signed + 1) % 2 ^ 64 } }
    let seq := if r.epoch = c.epoch then c.seq else c.oldSeq
    ∃ body head : List Byte, body.length = 64 ∧ head.length = 96 ∧
      (∀ sig : List Byte, sig.length = 64 → streamRecord r.slot 5 seq r.pts r.chain (body ++ sig) = head ++ sig) ∧
      (r.epoch = c.epoch → Answers .checkpointSigned s
        ((u.streamOutWith r.slot 5 r.pts r.chain (body ++ padTo 64 (Config.deviceSign head))).mirrorChain r.slot)) ∧
      (r.epoch ≠ c.epoch → Answers .checkpointSigned s ((u.modChain r.slot (fun c => { c with oldSeq := (c.oldSeq + 1) % 2 ^ 32 })).route r.slot 5
        (streamRecord r.slot 5 seq r.pts r.chain (body ++ padTo 64 (Config.deviceSign head))))) := by
  intro c u seq
  have hbody := r.body_length s.chainFw
  obtain ⟨hhead, hsig⟩ := streamRecord_signed r.slot seq r.pts r.chain hbody
  have hseq : (if decide (r.epoch = c.epoch) = true then c.seq else c.oldSeq) = seq := if_congr decide_eq_true_iff rfl rfl
  have hsigned := State.checkpointSigned_eq h
  dsimp only at hsigned
  rw [hseq] at hsigned
  refine ⟨r.body s.chainFw, _, hbody, hhead, hsig, fun hcur => ?_, fun hold => ?_⟩
  · exact answers_congr (answers_checkpointSigned hup) (hsigned.trans (if_pos (decide_eq_true hcur)))
  · exact answers_congr (answers_checkpointSigned hup) (hsigned.trans (if_neg (by rw [decide_eq_false hold]; exact Bool.false_ne_true)))

end

/-! ### Lock-step comparison (R454, R455) -/

section
variable {s : State} {n g : Nat}

/-- The chain of a slot with the partner's value of a group. -/
def State.partnerTold (s : State) (n g : Nat) (value : List Byte) (ps : List (List Byte)) : State :=
  s.modChain n (fun c => { c with partner := c.partner ++ [(g, padTo 16 value, ps)] })

theorem State.partnerTold_chain (s : State) (n g : Nat) (value : List Byte) (ps : List (List Byte)) : ((s.partnerTold n g value ps).slot n).chain =
    { (s.slot n).chain with partner := (s.slot n).chain.partner ++ [(g, padTo 16 value, ps)] } := by
  rw [State.partnerTold, State.modChain_slot]

theorem State.compareFrom_nil {k : Nat} (hv : (s.slot n).chain.values = []) (hp : (s.slot n).chain.partner = []) : State.compareFrom n k s = s := by
  cases k with
  | zero => rfl
  | succ k =>
    unfold State.compareFrom
    dsimp only
    rw [hv, hp]

section
variable {k : Nat} {mine : List Byte × List (Nat × List Byte)} {value : List Byte} {ps : List (List Byte)}
  (hv : (s.slot n).chain.values = [(g, mine)]) (hp : (s.slot n).chain.partner = [(g, value, ps)])
include hv hp

theorem State.compareFrom_same (hsame : mine.1 = value) :
    State.compareFrom n (k + 1) s = s.modChain n (fun c => { c with values := [], partner := [] }) := by
  have hslot := s.modChain_slot n (fun c => { c with values := [], partner := [] })
  unfold State.compareFrom
  dsimp only
  rw [hv, hp]
  dsimp only
  rw [if_pos rfl, if_pos hsame]
  exact State.compareFrom_nil (by rw [hslot]) (by rw [hslot])

theorem State.compareFrom_differ (hne : mine.1 ≠ value) :
    State.compareFrom n (k + 1) s = s.diverge n g ((firstDiff 0 mine.2 ps).1 * 256 + (firstDiff 0 mine.2 ps).2) mine.1 := by
  unfold State.compareFrom
  dsimp only
  rw [hv, hp]
  dsimp only
  rw [if_pos rfl, if_neg hne]

end

/-- A slot that diverges, without a cut that waits for its signature. -/
theorem State.diverge_facts (unit : Nat) (value : List Byte) (hnone : ∀ r ∈ s.kpr.queue, r.slot ≠ n) :
    let t := s.diverge n g unit value
    (t.slot n).chain.diverged = true ∧ (t.slot n).chain.h = (s.slot n).chain.h ∧
      t.od.lastRecord = faultRecord { code := fltPairDiverge, ctx := (s.slot n).cfg.det.getD 0xFF, unit := unit, detail := g % 2 ^ 32, addr := leNat (value.take 8), slot := n } s.od.faultSeq ∧
      ∃ r, t.kpr.queue = s.kpr.queue ++ [r] ∧ r.slot = n ∧ r.flags = 3 := by
  intro t
  obtain ⟨u, hu⟩ : ∃ u, u = s.modChain n (fun c => { c with diverged := true, values := [], partner := [] }) := ⟨_, rfl⟩
  have hslot : u.slot n = { s.slot n with chain := { (s.slot n).chain with diverged := true, values := [], partner := [] } } := by
    rw [hu]
    exact s.modChain_slot n _
  obtain ⟨f, hf⟩ : ∃ f : FaultInfo, f = { code := fltPairDiverge, ctx := (u.slot n).cfg.det.getD 0xFF, unit := unit, detail := g % 2 ^ 32, addr := leNat (value.take 8), slot := n } := ⟨_, rfl⟩
  have hraised : (u.raise f).slot n = u.slot n := by rw [State.slot, State.raise_slots, ← State.slot]
  have hqueue : (u.raise f).kpr = s.kpr := by rw [State.raise_kpr, hu, State.modChain_kpr]
  have hrecord : (u.raise f).od.lastRecord = faultRecord f s.od.faultSeq := by rw [State.raise_lastRecord, hu]; rfl
  have ht : t = (u.raise f).divergeCut n := by rw [hf, hu]; rfl
  obtain ⟨pts, hcut⟩ : ∃ pts, (u.raise f).divergeCut n = (u.raise f).cutCheckpoint n 3 pts := by
    refine ⟨_, if_neg fun hany => ?_⟩
    obtain ⟨r, hr, hslotr⟩ := List.any_eq_true.mp hany
    rw [hqueue] at hr
    simp only [Bool.and_eq_true, beq_iff_eq] at hslotr
    exact hnone r hr hslotr.1.1.1.1
  rw [ht, hcut, State.cutCheckpoint_slot, hraised, hslot]
  refine ⟨rfl, rfl, ?_, (u.raise f).cutRec n 3 pts, ?_, rfl, rfl⟩
  · refine Eq.trans ?_ (hrecord.trans (by rw [hf, hslot]))
    rfl
  · exact congrArg (· ++ [(u.raise f).cutRec n 3 pts]) (congrArg Kpr.queue hqueue)

/-- The comparison of one group that both devices have closed. -/
theorem State.compareChain_partnerTold {mine : List Byte × List (Nat × List Byte)} {value : List Byte} {ps : List (List Byte)} (hlen : value.length = 16)
    (hgoes : (s.slot n).chain.diverged = false) (hv : (s.slot n).chain.values = [(g, mine)]) (hp : (s.slot n).chain.partner = []) :
    (mine.1 = value → (s.partnerTold n g value ps).compareChain n = (s.partnerTold n g value ps).modChain n (fun c => { c with values := [], partner := [] })) ∧
    (mine.1 ≠ value → (s.partnerTold n g value ps).compareChain n =
      (s.partnerTold n g value ps).diverge n g ((firstDiff 0 mine.2 ps).1 * 256 + (firstDiff 0 mine.2 ps).2) mine.1) := by
  have hchain := s.partnerTold_chain n g value ps
  obtain ⟨u, hu⟩ : ∃ u, u = s.partnerTold n g value ps := ⟨_, rfl⟩
  rw [← hu] at hchain ⊢
  have hvalues : (u.slot n).chain.values = [(g, mine)] := by rw [hchain]; exact hv
  have hpartner : (u.slot n).chain.partner = [(g, value, ps)] := by
    rw [hchain]
    dsimp only
    rw [hp, padTo_of_length hlen, List.nil_append]
  have hcompare : u.compareChain n = State.compareFrom n 3 u := by
    unfold State.compareChain
    rw [if_neg (by rw [hchain]; exact ne_true_of_eq_false hgoes), hvalues, hpartner]
    rfl
  rw [hcompare]
  exact ⟨fun hsame => State.compareFrom_same (k := 2) hvalues hpartner hsame, fun hne => State.compareFrom_differ (k := 2) hvalues hpartner hne⟩

/-! ### A leader's forced entries (R453) -/

theorem State.modSlot_congr {f f' : Slot → Slot} (h : f (s.slot n) = f' (s.slot n)) : s.modSlot n f = s.modSlot n f' := by
  rw [State.slot] at h
  rw [State.modSlot, State.modSlot, tmod, tmod, h]

variable {bs : List (List Byte)}

/-- The links that the leader's searches made. -/
def leaderLinks (bs : List (List Byte)) : List (Nat × Nat) := ((bs.map entryOfBytes).filter (fun e => e.typ == 8)).map (fun e => (e.key2, fieldAt e.payload 12 4))

/-- The leader's entries of a group that has not opened. -/
theorem State.leaderEntries_unopened (hgroups : (s.slot n).chain.groups = []) (hpics : (s.slot n).pics = []) (hg : (s.slot n).chain.nextGroup ≤ g) :
    s.leaderEntries n g bs = s.modSlot n (fun x => { x with
      trk := { x.trk with recorded := x.trk.recorded ++ leaderLinks bs }
      chain := { x.chain with leader := (x.chain.leader.filter (fun l => decide (x.chain.closed ≤ l.1))) ++ [(g, bs)] } }) := by
  have hset : ∀ t : State, (t.slot n).chain.groups = [] → t.settleGroups n = t := fun t ht => by
    rw [State.settleGroups, ht] <;> rfl
  unfold State.leaderEntries
  dsimp only
  rw [hset]
  · refine State.modSlot_congr ?_
    rw [hpics, hgroups, decide_eq_true hg, Bool.or_true, if_pos rfl]
    rfl
  · rw [State.modSlot_slot]
    dsimp only
    rw [hgroups]
    rfl

/-- The value, the count and the open groups of a slot's chain. -/
def State.SameGroups (s t : State) (n : Nat) : Prop :=
  (t.slot n).chain.h = (s.slot n).chain.h ∧ (t.slot n).chain.closed = (s.slot n).chain.closed ∧ (t.slot n).chain.groups = (s.slot n).chain.groups

theorem State.SameGroups.trans {t u : State} (h : s.SameGroups t n) (h' : t.SameGroups u n) : s.SameGroups u n :=
  ⟨h'.1.trans h.1, h'.2.1.trans h.2.1, h'.2.2.trans h.2.2⟩

theorem State.sameGroups_of_slots {t : State} (h : t.slots = s.slots) : s.SameGroups t n := by
  have hslot : t.slot n = s.slot n := by rw [State.slot, h, ← State.slot]
  rw [State.SameGroups, hslot]
  exact ⟨rfl, rfl, rfl⟩

theorem State.sameGroups_modChain (s : State) (n : Nat) {f : SlotChain → SlotChain}
    (hf : ∀ c, (f c).h = c.h ∧ (f c).closed = c.closed ∧ (f c).groups = c.groups) : s.SameGroups (s.modChain n f) n := by
  rw [State.SameGroups, State.modChain_slot]
  exact hf _

theorem State.sameGroups_cutCheckpoint (s : State) (n flags pts : Nat) : s.SameGroups (s.cutCheckpoint n flags pts) n := by
  rw [State.SameGroups, State.cutCheckpoint_slot]
  exact ⟨rfl, rfl, rfl⟩

theorem State.sameGroups_diverge (s : State) (n g unit : Nat) (value : List Byte) : s.SameGroups (s.diverge n g unit value) n := by
  have hmark : s.SameGroups (s.modChain n (fun c => { c with diverged := true, values := [], partner := [] })) n :=
    s.sameGroups_modChain n fun _ => ⟨rfl, rfl, rfl⟩
  unfold State.diverge State.divergeCut
  dsimp only
  split
  · exact (hmark.trans (State.sameGroups_of_slots (State.raise_slots _ _))).trans (State.sameGroups_of_slots rfl)
  · exact (hmark.trans (State.sameGroups_of_slots (State.raise_slots _ _))).trans (State.sameGroups_cutCheckpoint _ _ _ _)

theorem State.sameGroups_compareFrom (n k : Nat) (s : State) : s.SameGroups (State.compareFrom n k s) n := by
  induction k generalizing s with
  | zero => exact State.sameGroups_of_slots rfl
  | succ k ih =>
    have hnext : ∀ {f : SlotChain → SlotChain}, (∀ c, (f c).h = c.h ∧ (f c).closed = c.closed ∧ (f c).groups = c.groups) →
        s.SameGroups (State.compareFrom n k (s.modChain n f)) n := fun hf => (s.sameGroups_modChain n hf).trans (ih _)
    unfold State.compareFrom
    dsimp only
    split
    · split
      · split
        · exact hnext fun _ => ⟨rfl, rfl, rfl⟩
        · exact s.sameGroups_diverge n _ _ _
      · split
        · exact hnext fun _ => ⟨rfl, rfl, rfl⟩
        · exact hnext fun _ => ⟨rfl, rfl, rfl⟩
    · split
      · exact s.sameGroups_diverge n _ _ _
      · exact State.sameGroups_of_slots rfl
    · split
      · exact s.sameGroups_diverge n _ _ _
      · exact State.sameGroups_of_slots rfl
    · exact State.sameGroups_of_slots rfl

theorem State.sameGroups_compareChain (s : State) (n : Nat) : s.SameGroups (s.compareChain n) n := by
  unfold State.compareChain
  split
  · exact State.sameGroups_of_slots rfl
  · exact State.sameGroups_compareFrom n _ s

theorem State.mirrorChain_slots (s : State) (n : Nat) : (s.mirrorChain n).slots = s.slots := by
  unfold State.mirrorChain
  split
  · exact State.stirrupSend_slots _ _ _
  · rfl

/-- A group closed on a follower. -/
theorem State.closeGroup_follower {grp : Group} (hfollow : s.follower = true) (hfind : (s.slot n).chain.groups.find? (fun y => y.num == g) = some grp) :
    ((s.closeGroup n g).slot n).chain.closed = g + 1 ∧ ((s.closeGroup n g).slot n).chain.groups = (s.slot n).chain.groups.filter (fun y => y.num != g) ∧
      ((s.closeGroup n g).slot n).chain.h = (s.groupEntries n grp).foldl chainStep (s.slot n).chain.h := by
  obtain ⟨hh, hclosed, -, -, hgroups, -⟩ := State.closedLocal_kept (s := s) (n := n) (g := g) (grp := grp)
  have hmirror : (s.closedLocal n g grp).SameGroups ((s.closedLocal n g grp).mirrorChain n) n := State.sameGroups_of_slots (State.mirrorChain_slots _ n)
  have hsame : (s.closedLocal n g grp).SameGroups (s.closeGroup n g) n := by
    rw [State.closeGroup_eq hfind (by rw [hfollow, Bool.not_true, Bool.and_false])]
    dsimp only
    split
    · have hsend : ∀ u : State, u.SameGroups (u.stirrupSend 3 (mirrorPayload 2 n g (u.chainValue n))) n := fun u => State.sameGroups_of_slots (State.stirrupSend_slots _ _ _)
      refine ((hmirror.trans (hsend _)).trans (State.sameGroups_modChain _ n fun c => ?_)).trans (State.sameGroups_compareChain _ n)
      split <;> exact ⟨rfl, rfl, rfl⟩
    · exact hmirror
  exact ⟨hsame.2.1.trans hclosed, hsame.2.2.trans hgroups, hsame.1.trans hh⟩

/-- The leader's entries of the one group that waits for them. -/
theorem State.leaderEntries_waiting {es : List Entry} {outs : List (Nat × Nat)} (hfollow : s.follower = true) (hpics : (s.slot n).pics = [])
    (hcfg : (s.slot n).chain.cfgChange = false) (hgroups : (s.slot n).chain.groups = [{ num := g, entries := es, outs := outs, ended := true, waiting := true }]) :
    let t := s.leaderEntries n g bs
    (t.slot n).chain.closed = g + 1 ∧ (t.slot n).chain.groups = [] ∧
      (t.slot n).chain.h = (groupOrder none { num := g, entries := es ++ bs.map entryOfBytes, outs := outs, ended := true } (s.slot n).chain.late).foldl chainStep (s.slot n).chain.h := by
  intro t
  obtain ⟨grp, hgrp⟩ : ∃ grp : Group, grp = { num := g, entries := es ++ bs.map entryOfBytes, outs := outs, ended := true } := ⟨_, rfl⟩
  obtain ⟨u, hslot, hpair, ht⟩ : ∃ u : State, (∃ x : Slot, u.slot n = x ∧ x.pics = [] ∧ x.chain.groups = [grp] ∧ x.chain.cfgChange = false ∧
      x.chain.late = (s.slot n).chain.late ∧ x.chain.h = (s.slot n).chain.h) ∧ u.follower = s.follower ∧ t = u.settleGroups n := by
    refine ⟨_, ⟨_, s.modSlot_slot n _, ?_, ?_, hcfg, ?_, rfl⟩, rfl, rfl⟩
    · dsimp only
      rw [hpics]
      rfl
    · dsimp only
      rw [hgroups, hgrp]
      simp [modWhere]
    · dsimp only
      rw [hgroups]
      simp
  obtain ⟨x, hx, hpics', hgroups', hcfg', hlate', hh'⟩ := hslot
  have hnum : grp.num = g := by rw [hgrp]
  have hsettle : u.settleGroups n = u.closeGroup n g := by
    rw [State.settleGroups, hx, hgroups', State.settleFrom, hx, hpics', hgrp]
    exact if_pos rfl
  have hfind : (u.slot n).chain.groups.find? (fun y => y.num == g) = some grp := by
    rw [hx, hgroups']
    exact List.find?_cons_of_pos (beq_iff_eq.mpr hnum)
  obtain ⟨hclosed, hopen, hvalue⟩ := State.closeGroup_follower (hpair.trans hfollow) hfind
  rw [ht, hsettle]
  refine ⟨hclosed, hopen.trans ?_, hvalue.trans ?_⟩
  · rw [hx, hgroups']
    exact List.filter_cons_of_neg (by simp [hnum])
  · rw [State.groupEntries, hx, hcfg', hlate', hh', hgrp]
    rfl

end

end Sys2Proof.Machine

namespace Sys2Proof.Proofs
open Sys2Proof.Machine

/-- Settles O50. -/
theorem chainGroups : Obligations.ChainGroups := by
  unfold Obligations.ChainGroups
  refine ⟨fun cfg g late => ⟨groupOrder_perm cfg g late, groupOrder_parts cfg g late⟩, fun h e => ⟨chainStep_eq h e, sha512_length _⟩, ?_, State.genesis_facts,
    fun s hup hnone => answers_congr (answers_checkpointSigned hup) ?_, fun s r rest hup hq _ _ _ => checkpointSigned_answers hup hq, ?_, ?_⟩
  · intro s n g grp hmode hfind _ c every cfg t c' h
    obtain ⟨hh, hclosed, hlate, hseq, hgroups, hother, -, hout⟩ := State.closedLocal_kept (s := s) (n := n) (g := g) (grp := grp)
    have ht : t = s.closedLocal n g grp := State.closeGroup_single hmode hfind
    have hc' : c' = ((s.closedLocal n g grp).slot n).chain := congrArg (fun u : State => (u.slot n).chain) ht
    rw [hc', ht]
    refine ⟨hh, hclosed, hlate, hseq, hgroups, fun hoff => hout.trans (State.appliedOut_out hoff), hother, fun hnone hgoes => ?_, State.closedLocal_cut⟩
    obtain ⟨hkpr, hnumber⟩ := State.closedLocal_uncut hnone hgoes
    exact ⟨hnumber, congrArg Kpr.queue hkpr⟩
  · unfold State.checkpointSigned
    rw [hnone] <;> rfl
  · intro s n g value ps hup c
    refine ⟨fun hidle => answers_congr (answers_whenUp rfl hup) (if_neg ?_), fun mine hmode hlink hrun hgoes hlen hv hp hnone => ?_⟩
    · rintro ⟨hmode, hlink, hrun, hgoes⟩
      have hgoes' : (s.slot n).chain.diverged = false := by simpa using hgoes
      rcases hidle with h | h | h | h
      · exact h hmode
      · exact h hlink
      · exact hrun h
      · exact absurd (h.symm.trans hgoes') (by decide)
    · have hgoes' : (!(s.slot n).chain.diverged) = true := by rw [hgoes]; rfl
      have hanswer : Answers (.lockstepChainValue n g value ps) s ((s.partnerTold n g value ps).compareChain n) :=
        answers_congr (answers_whenUp rfl hup) (if_pos ⟨hmode, hlink, hrun, hgoes'⟩)
      obtain ⟨hsame, hdiffer⟩ := State.compareChain_partnerTold (ps := ps) hlen hgoes hv hp
      have htold := s.partnerTold_chain n g value ps
      refine ⟨fun heq => ?_, fun hne => ?_⟩
      · refine reaches_of_effect (answers_congr hanswer (hsame heq)) ?_ (fun _ _ h => h)
        rw [State.modChain_slot]
        dsimp only
        rw [htold]
        exact ⟨rfl, rfl, hgoes, rfl, rfl⟩
      · obtain ⟨hdiverged, hh, hrecord, hcut⟩ := State.diverge_facts (s := s.partnerTold n g value ps) (n := n) (g := g)
          ((firstDiff 0 mine.2 ps).1 * 256 + (firstDiff 0 mine.2 ps).2) mine.1 hnone
        have hcfg : ((s.partnerTold n g value ps).slot n).cfg = (s.slot n).cfg := by rw [State.partnerTold, State.modChain_slot]
        rw [htold] at hh
        rw [hcfg] at hrecord
        exact reaches_of_effect (answers_congr hanswer (hdiffer hne)) ⟨hdiverged, hh, hrecord, hcut⟩ (fun _ _ h => h)
  · intro s n g bs hup c
    have hanswer : s.follower = true → (s.slot n).run ≠ .unconfigured → Answers (.leaderForcedEntries n g bs) s (s.leaderEntries n g bs) := fun hfollow hrun =>
      answers_congr (answers_whenUp rfl hup) (if_pos (by rw [hfollow, Bool.true_and]; simpa using hrun))
    refine ⟨fun hidle => answers_congr (answers_whenUp rfl hup) (if_neg ?_), fun hfollow hrun hgroups hpics hg => ?_, fun es outs hfollow hrun hpics hcfg hgroups => ?_⟩
    · rw [Bool.and_eq_true]
      rintro ⟨hfollow, hrun⟩
      rcases hidle with h | h
      · exact absurd (h.symm.trans hfollow) (by decide)
      · rw [h] at hrun
        exact absurd hrun (by decide)
    · exact answers_congr (hanswer hfollow hrun) (State.leaderEntries_unopened hgroups hpics hg)
    · exact reaches_of_effect (hanswer hfollow hrun) (State.leaderEntries_waiting hfollow hpics hcfg hgroups) (fun _ _ h => h)

end Sys2Proof.Proofs
end

