-- ==== Sys2Proof/Proofs/RouteSessions.lean ====
section
/-! PROOFS. The dictionary's routes: sessions, transactions and their ends (R532, R538). -/
namespace Sys2Proof.Machine
open Sys2Proof

section
variable {s t : State}

/-! ### Sessions -/

theorem State.session_congr (h : t.od.routes = s.od.routes) (w : OdFrom) : t.session w = s.session w := by
  rw [State.session, State.session, State.odRoute, State.odRoute, h]

theorem State.sessionOpen_congr {w : OdFrom} (h : t.session w = s.session w) : t.sessionOpen w = s.sessionOpen w := by
  rw [State.sessionOpen, State.sessionOpen, h]

/-- A change of a route's record that leaves its sessions leaves every session. -/
theorem State.modOdRoute_session (n : Nat) {f : OdRouteSt → OdRouteSt} (hf : ∀ r, (f r).sessions = r.sessions) (w : OdFrom) :
    (s.modOdRoute n f).session w = s.session w := by
  rw [State.session, State.session]
  by_cases h : OdRoute.num w.route = n
  · rw [← h, State.modOdRoute_odRoute, hf]
  · rw [State.modOdRoute_odRoute_ne (h := h)]

@[simp] theorem State.modSession_session (w : OdFrom) (f : OdSession → OdSession) : (s.modSession w f).session w = (s.session w).map f := by
  rw [State.session, State.modSession, State.modOdRoute_odRoute]
  exact tget_tset_same _ _ _ _

theorem State.modSession_sessionOpen (w : OdFrom) (f : OdSession → OdSession) : (s.modSession w f).sessionOpen w = s.sessionOpen w := by
  rw [State.sessionOpen, State.modSession_session, Option.isSome_map, State.sessionOpen]

theorem State.modSession_odRoute_txn (w : OdFrom) (f : OdSession → OdSession) (n : Nat) :
    ((s.modSession w f).odRoute n).txn = (s.odRoute n).txn := by
  by_cases h : n = OdRoute.num w.route
  · rw [h, State.modSession, State.modOdRoute_odRoute]
  · rw [State.modSession, State.modOdRoute_odRoute_ne (h := h)]

theorem State.openSession_session (w : OdFrom) : ∃ c, (s.openSession w).session w = some { challenge := c } := by
  refine ⟨(s.draw 32).1, ?_⟩
  unfold State.openSession
  dsimp only
  generalize (s.draw 32).2 = u
  rw [State.session, State.modOdRoute_odRoute]
  dsimp only
  exact tget_tset_same (none : Option OdSession) _ _ _

/-! ### Transactions that the device rolls back (R538) -/

theorem State.autoRollback_none {r : OdRoute} (h : (s.odRoute (OdRoute.num r)).txn = none) : s.autoRollback r = s := by
  rw [State.autoRollback, h]

theorem State.autoRollback_some {r : OdRoute} {x : Txn} (h : (s.odRoute (OdRoute.num r)).txn = some x) :
    s.autoRollback r = ((s.modOdRoute (OdRoute.num r) (fun c => { c with txn := none })).modSession ⟨r, x.session⟩
      (fun y => { y with report := true })).raise { code := evtOdxRollback, unit := OdRoute.num r } := by
  rw [State.autoRollback, h]

theorem State.autoRollback_txn (r : OdRoute) : ((s.autoRollback r).odRoute (OdRoute.num r)).txn = none := by
  cases h : (s.odRoute (OdRoute.num r)).txn with
  | none => rw [State.autoRollback_none h, h]
  | some x => rw [State.autoRollback_some h, State.odRoute, State.raise_od_routes, ← State.odRoute, State.modSession_odRoute_txn,
      State.modOdRoute_odRoute]

theorem State.autoRollback_session {r : OdRoute} {x : Txn} (h : (s.odRoute (OdRoute.num r)).txn = some x) :
    (s.autoRollback r).session ⟨r, x.session⟩ = (s.session ⟨r, x.session⟩).map (fun y => { y with report := true }) := by
  rw [State.autoRollback_some h, State.session_congr (State.raise_od_routes _ _), State.modSession_session,
    State.modOdRoute_session (OdRoute.num r) (f := fun c => { c with txn := none }) (fun _ => rfl)]

theorem State.autoRollback_lastRecord {r : OdRoute} {x : Txn} (h : (s.odRoute (OdRoute.num r)).txn = some x) :
    (s.autoRollback r).od.lastRecord = faultRecord { code := evtOdxRollback, unit := OdRoute.num r } s.od.faultSeq := by
  rw [State.autoRollback_some h, State.raise_lastRecord]
  rfl

/-- What a rollback leaves: all but the routes, the fault record and its delivery. -/
theorem State.autoRollback_frame (s : State) (r : OdRoute) : ∃ o rt q lr c b e k, s.autoRollback r = { s with
    out := o, rings := k, colls := c, pci := { s.pci with pba := b, events := e }
    od := { s.od with routes := rt, faultSeq := q, lastRecord := lr } } := by
  cases h : (s.odRoute (OdRoute.num r)).txn with
  | none => exact ⟨_, _, _, _, _, _, _, _, State.autoRollback_none h⟩
  | some x =>
    rw [State.autoRollback_some h]
    obtain ⟨rt, hrt⟩ : ∃ rt, (s.modOdRoute (OdRoute.num r) (fun c => { c with txn := none })).modSession ⟨r, x.session⟩
        (fun y => { y with report := true }) = { s with od := { s.od with routes := rt } } := ⟨_, rfl⟩
    rw [hrt]
    obtain ⟨o, k, c, b, e, hr⟩ := State.raise_frame ({ s with od := { s.od with routes := rt } }) { code := evtOdxRollback, unit := OdRoute.num r }
    exact ⟨o, rt, _, _, c, b, e, k, hr⟩

/-! ### A session ends -/

/-- The responses that a session still waited for are discarded. -/
def dropWaiting (w : OdFrom) (p : Pair) : Pair := { p with commitWait := p.commitWait.filter (fun h => !HeldReply.of h.1 w) }

def State.dropSession (s : State) (w : OdFrom) : State :=
  s.modOdRoute (OdRoute.num w.route) (fun r => { r with sessions := tset none r.sessions w.session none })

theorem State.dropSession_session (w : OdFrom) : (s.dropSession w).session w = none := by
  rw [State.session, State.dropSession, State.modOdRoute_odRoute]
  dsimp only
  exact tget_tset_same (none : Option OdSession) _ _ _

theorem State.dropSession_txn (w : OdFrom) : ((s.dropSession w).odRoute (OdRoute.num w.route)).txn = (s.odRoute (OdRoute.num w.route)).txn := by
  rw [State.dropSession, State.modOdRoute_odRoute]

theorem State.endSession_mine {w : OdFrom} {x : Txn} (h : (s.odRoute (OdRoute.num w.route)).txn = some x) (hx : x.session = w.session) :
    s.endSession w = ((s.autoRollback w.route).dropSession w).modPair (dropWaiting w) := by
  unfold State.endSession
  dsimp only
  rw [h]
  dsimp only
  rw [if_pos (beq_iff_eq.mpr hx)]
  rfl

theorem State.endSession_other {w : OdFrom} (h : ∀ x, (s.odRoute (OdRoute.num w.route)).txn = some x → x.session ≠ w.session) :
    s.endSession w = (s.dropSession w).modPair (dropWaiting w) := by
  unfold State.endSession
  dsimp only
  cases hx : (s.odRoute (OdRoute.num w.route)).txn with
  | none =>
    dsimp only
    rw [if_neg Bool.false_ne_true]
    rfl
  | some x =>
    dsimp only
    rw [if_neg (by rw [beq_iff_eq]; exact h x hx)]
    rfl

theorem State.endSession_txn_mine {w : OdFrom} {x : Txn} (h : (s.odRoute (OdRoute.num w.route)).txn = some x) (hx : x.session = w.session) :
    ((s.endSession w).odRoute (OdRoute.num w.route)).txn = none ∧
      (s.endSession w).od.lastRecord = faultRecord { code := evtOdxRollback, unit := OdRoute.num w.route } s.od.faultSeq := by
  rw [State.endSession_mine h hx]
  exact ⟨(State.dropSession_txn w).trans (State.autoRollback_txn _), State.autoRollback_lastRecord h⟩

theorem State.endSession_txn_other {w : OdFrom} (h : ∀ x, (s.odRoute (OdRoute.num w.route)).txn = some x → x.session ≠ w.session) :
    ((s.endSession w).odRoute (OdRoute.num w.route)).txn = (s.odRoute (OdRoute.num w.route)).txn := by
  rw [State.endSession_other h]
  exact State.dropSession_txn w

theorem State.endSession_session (w : OdFrom) : (s.endSession w).session w = none := by
  by_cases h : ∃ x, (s.odRoute (OdRoute.num w.route)).txn = some x ∧ x.session = w.session
  · obtain ⟨x, hx, hw⟩ := h
    rw [State.endSession_mine hx hw]
    exact State.dropSession_session w
  · rw [State.endSession_other (fun x hx hw => h ⟨x, hx, hw⟩)]
    exact State.dropSession_session w

end

end Sys2Proof.Machine
end

