-- ==== Sys2Proof/Proofs/ManagementRoutes.lean ====
section
/-! PROOFS. BLP over UDP and over CAN FD (R540, R541). -/
namespace Sys2Proof.Machine
open Sys2Proof

section
variable {s : State}

theorem State.ready_up (h : s.ready = true) : s.up = true := (Bool.and_eq_true_iff.mp h).1

/-! ### UDP sessions (R540) -/

theorem State.mem_udpSessions {n : Nat} : n ∈ s.udpSessions ↔ (1 ≤ n ∧ n ≤ 16) ∧ (s.session ⟨.udp, n⟩).isSome = true := by
  rw [State.udpSessions, List.mem_filter, mem_upto_iff]
  exact and_congr_left' (and_congr_right' (by omega))

theorem State.udpOpen_lowest {n : Nat} (tag : Nat) (h1 : 1 ≤ n) (h16 : n ≤ 16) (hfree : ¬ (s.session ⟨.udp, n⟩).isSome = true)
    (hlow : ∀ m, 1 ≤ m → m < n → (s.session ⟨.udp, m⟩).isSome = true) :
    s.udpOpen tag = (s.openSession ⟨.udp, n⟩).emit (.blpReply n (blpFrame 4 n tag (leBytes 4 0))) := by
  have hfind : (upto 1 16).find? (fun n => !s.udpSessions.contains n) = some n := by
    rw [upto_eq_range', List.find?_range'_eq_some]
    refine ⟨?_, List.mem_range'_1.mpr ⟨h1, by omega⟩, fun j hj hn => ?_⟩
    · rw [Bool.not_eq_true', List.contains_eq_mem, decide_eq_false_iff_not, State.mem_udpSessions]
      exact fun h => hfree h.2
    · rw [Bool.not_not, List.contains_eq_mem, decide_eq_true_iff, State.mem_udpSessions]
      exact ⟨⟨hj, by omega⟩, hlow j hj hn⟩
  rw [State.udpOpen, hfind]

theorem State.udpOpen_busy (tag : Nat) (h : ∀ m, 1 ≤ m → m ≤ 16 → (s.session ⟨.udp, m⟩).isSome = true) :
    s.udpOpen tag = s.emit (.blpReply 0 (blpFrame 4 0 tag (leBytes 4 14))) := by
  have hfind : (upto 1 16).find? (fun n => !s.udpSessions.contains n) = none := by
    rw [upto_eq_range', List.find?_range'_eq_none]
    intro i h1 h16
    rw [Bool.not_not, List.contains_eq_mem, decide_eq_true_iff, State.mem_udpSessions]
    exact ⟨⟨h1, by omega⟩, h i h1 (by omega)⟩
  rw [State.udpOpen, hfind]

theorem State.udpClose_open {n : Nat} (h1 : 1 ≤ n) (h16 : n ≤ 16) (h : (s.session ⟨.udp, n⟩).isSome = true) :
    s.udpClose n = s.endSession ⟨.udp, n⟩ := by
  rw [State.udpClose, if_pos (List.contains_iff_mem.mpr (State.mem_udpSessions.mpr ⟨⟨h1, h16⟩, h⟩))]

theorem State.udpClose_none {n : Nat} (h : n < 1 ∨ 16 < n ∨ ¬ (s.session ⟨.udp, n⟩).isSome = true) : s.udpClose n = s.routeBad .udp := by
  refine if_neg (fun hc => ?_)
  obtain ⟨⟨h1, h16⟩, ho⟩ := State.mem_udpSessions.mp (List.contains_iff_mem.mp hc)
  rcases h with h | h | h
  · omega
  · omega
  · exact h ho

/-! ### UDP datagrams (R533, R540) -/

theorem State.udpMessage_bad {b : List Byte} (h : 1232 < b.length ∨ readMsg b = none) : s.udpMessage b = s.routeBad .udp := by
  rw [State.udpMessage]
  by_cases hl : b.length ≤ 1232
  · rw [if_pos hl, h.resolve_left (by omega)]
  · rw [if_neg hl]

theorem State.udpMessage_ask {b : List Byte} {m : Msg} (hl : b.length ≤ 1232) (h : readMsg b = some m) (hty : m.ty = 1) :
    s.udpMessage b = s.udpAsk m := by
  rw [State.udpMessage, if_pos hl, h]
  exact if_pos hty

theorem State.udpAsk_closed {m : Msg} (h : s.session ⟨.udp, m.session⟩ = none) : s.udpAsk m = s.routeBad .udp := by
  rw [State.udpAsk, h]

theorem State.udpAsk_again {m : Msg} {x : OdSession} (h : s.session ⟨.udp, m.session⟩ = some x) (htag : x.lastTag = some m.tag)
    (hr : x.lastReply ≠ []) : s.udpAsk m = s.emit (.blpReply m.session x.lastReply) := by
  rw [State.udpAsk, h]
  dsimp only
  rw [if_pos htag, if_neg (by rw [List.isEmpty_iff]; exact hr)]

theorem State.udpAsk_unread {m : Msg} {x : OdSession} (h : s.session ⟨.udp, m.session⟩ = some x) (htag : x.lastTag ≠ some m.tag)
    (hops : readOps (m.body.length + 1) m.body = none) : s.udpAsk m = s.routeBad .udp := by
  rw [State.udpAsk, h]
  dsimp only
  rw [if_neg htag, hops]

theorem State.udpAsk_serve {m : Msg} {x : OdSession} {ops : List OpRec} (h : s.session ⟨.udp, m.session⟩ = some x)
    (htag : x.lastTag ≠ some m.tag) (hops : readOps (m.body.length + 1) m.body = some ops) :
    s.udpAsk m = (s.modSession ⟨.udp, m.session⟩ (fun x => { x with lastTag := some m.tag, lastReply := [] })).serve ⟨.udp, m.session⟩ 1232 ops
      (fun out => .udp m.session m.tag (blpFrame 2 m.session m.tag out)) := by
  rw [State.udpAsk, h]
  dsimp only
  rw [if_neg htag, hops]

/-- A request whose response waits for no partner is answered at once. -/
theorem State.serve_run {w : OdFrom} {limit : Nat} {ops : List OpRec} {wrap_ : List Byte → HeldReply} {out : List Byte} {u : State}
    (h : runOps w limit ops false [] none (s.modOdRoute (OdRoute.num w.route) (fun r => { r with reqs := (r.reqs + 1) % 2 ^ 32 })) = (out, none, u)) :
    s.serve w limit ops wrap_ = (wrap_ out).deliver u := by
  unfold State.serve
  dsimp only
  rw [h]

theorem HeldReply.deliver_udp {n tag : Nat} {bs : List Byte} {y : OdSession} (h : s.session ⟨.udp, n⟩ = some y) :
    (HeldReply.udp n tag bs).deliver s =
      (s.modSession ⟨.udp, n⟩ (fun x => { x with lastTag := some tag, lastReply := bs })).emit (.blpReply n bs) := by
  refine if_pos ?_
  rw [State.sessionOpen, h]
  rfl

/-! ### CAN FD segments (R541) -/

theorem canHead (h : Nat) (data : List Byte) (hh : h < 256) : fieldAt (leBytes 1 h ++ data) 0 1 = h := by
  rw [fieldAt_leBytes_append]
  omega

theorem canData (h : Nat) (data : List Byte) : (leBytes 1 h ++ data).drop 1 = data :=
  List.drop_left' (leBytes_length 1 h)

theorem bit7_of_byte {h : Nat} (hh : h < 256) : bit h 7 = decide (h / 128 ≠ 0) := by
  rw [bit, Nat.shiftRight_eq_div_pow, Bool.eq_iff_iff, beq_iff_eq, decide_eq_true_iff]
  omega

theorem bit6_of_byte (h : Nat) : bit h 6 = decide (h / 64 % 2 = 1) := by
  rw [bit, Nat.shiftRight_eq_div_pow]
  rfl

/-- What a segment that is taken does: the last one makes the message, another one is kept. -/
def State.segEnd (s : State) (h k : Nat) (all : List Byte) : State :=
  if bit h 6 then ({ s with od := { s.od with canMsg := none } }).canMessage all
  else { s with od := { s.od with canMsg := some ((k + 1) % 64, all) } }

theorem State.canSegment_first {h : Nat} {data : List Byte} (hh : h < 256) (h7 : h / 128 ≠ 0) (hn : h % 64 = 0) :
    s.canSegment (leBytes 1 h ++ data) = (if s.od.canMsg.isSome then s.routeBad .can else s).segEnd h 0 data := by
  have hne : ¬ (leBytes 1 h ++ data).isEmpty = true := by
    rw [List.isEmpty_iff]
    exact List.append_ne_nil_of_left_ne_nil (List.ne_nil_of_length_pos (by rw [leBytes_length]; exact Nat.one_pos)) _
  unfold State.canSegment
  dsimp only
  rw [if_neg hne, canHead h data hh, canData, if_pos (by rw [bit7_of_byte hh]; exact decide_eq_true h7), if_pos hn]
  rfl

theorem State.canSegment_next {h : Nat} {data : List Byte} (hh : h < 256) (h7 : h / 128 = 0) :
    s.canSegment (leBytes 1 h ++ data) = match s.od.canMsg with
      | none => s.routeBad .can
      | some (k, got) => if h % 64 = k ∧ got.length + data.length ≤ 2111 then s.segEnd h k (got ++ data)
          else ({ s with od := { s.od with canMsg := none } }).routeBad .can := by
  have hne : ¬ (leBytes 1 h ++ data).isEmpty = true := by
    rw [List.isEmpty_iff]
    exact List.append_ne_nil_of_left_ne_nil (List.ne_nil_of_length_pos (by rw [leBytes_length]; exact Nat.one_pos)) _
  unfold State.canSegment
  dsimp only
  rw [if_neg hne, canHead h data hh, canData, if_neg (by rw [bit7_of_byte hh, h7]; exact Bool.false_ne_true)]
  rfl

theorem State.segEnd_more {h k : Nat} {all : List Byte} (h6 : h / 64 % 2 = 0) :
    s.segEnd h k all = { s with od := { s.od with canMsg := some ((k + 1) % 64, all) } } := by
  refine if_neg ?_
  rw [bit6_of_byte, h6]
  exact Bool.false_ne_true

theorem State.segEnd_last {h k : Nat} {all : List Byte} (h6 : h / 64 % 2 = 1) :
    s.segEnd h k all = ({ s with od := { s.od with canMsg := none } } : State).canMessage all := by
  refine if_pos ?_
  rw [bit6_of_byte]
  exact decide_eq_true h6

theorem State.withCanMsg_self {m : Option (Nat × List Byte)} (h : s.od.canMsg = m) : ({ s with od := { s.od with canMsg := m } } : State) = s := by
  rw [← h]

theorem State.canMessage_serve {b : List Byte} {m : Msg} {ops : List OpRec} (hl : 16 + fieldAt b 6 2 ≤ 2048)
    (hm : readMsg (b.take (16 + fieldAt b 6 2)) = some m) (hty : m.ty = 1) (hops : readOps (m.body.length + 1) m.body = some ops) :
    s.canMessage b = (if (s.session ⟨.can, 1⟩).isSome then s else s.openSession ⟨.can, 1⟩).serve ⟨.can, 1⟩ 2048 ops
      (fun out => .can (blpFrame 2 1 m.tag out)) := by
  unfold State.canMessage
  dsimp only
  rw [if_pos hl, hm]
  dsimp only
  rw [hops]
  exact if_neg (fun h => h hty)

theorem dlcBytes_le (n : Nat) : dlcBytes n ≤ 64 := by
  unfold dlcBytes
  split
  · omega
  · cases h : [12, 16, 20, 24, 32, 48].find? (fun k => decide (n ≤ k)) with
    | none => exact Nat.le_refl 64
    | some k =>
      have hk := List.mem_of_find?_eq_some h
      simp only [List.mem_cons, List.not_mem_nil, or_false] at hk
      simp only [Option.getD_some]
      omega

/-- Every CAN FD frame of a message has at most 64 B. -/
theorem canFrames_length {bs f : List Byte} (h : f ∈ canFrames bs) : f.length ≤ 64 := by
  obtain ⟨p, -, rfl⟩ := List.mem_map.mp h
  rw [padTo_length]
  exact dlcBytes_le _

end

section
variable {s : State}

theorem State.udpReply_reaches {dt : Nat} {b : List Byte} {m : Msg} {ops : List OpRec} {x y : OdSession} (h : s.ready = true)
    (hl : b.length ≤ 1232) (hm : readMsg b = some m) (hty : m.ty = 1) (hx : s.session ⟨.udp, m.session⟩ = some x)
    (htag : x.lastTag ≠ some m.tag) (hops : readOps (m.body.length + 1) m.body = some ops) {out : List Byte} {u : State}
    (hrun : runOps ⟨.udp, m.session⟩ 1232 ops false [] none (((s.modPort 2 (fun p => p.arrive dt)).modSession ⟨.udp, m.session⟩
      (fun x => { x with lastTag := some m.tag, lastReply := [] })).modOdRoute 1 (fun r => { r with reqs := (r.reqs + 1) % 2 ^ 32 })) = (out, none, u))
    (hy : u.session ⟨.udp, m.session⟩ = some y) :
    Reaches (.blpUdpRequest ⟨dt, b⟩) s (fun t => t.out = .blpReply m.session (blpFrame 2 m.session m.tag out) :: u.out ∧
      t.session ⟨.udp, m.session⟩ = some { y with lastTag := some m.tag, lastReply := blpFrame 2 m.session m.tag out } ∧ t.slots = u.slots) := by
  have hstep : Answers (.blpUdpRequest ⟨dt, b⟩) s ((u.modSession ⟨.udp, m.session⟩
      (fun x => { x with lastTag := some m.tag, lastReply := blpFrame 2 m.session m.tag out })).emit (.blpReply m.session (blpFrame 2 m.session m.tag out))) := by
    refine answers_congr (answers_whenUp rfl (State.ready_up h)) ?_
    rw [if_pos h, State.udpMessage_ask hl hm hty, State.udpAsk_serve (s := s.modPort 2 (fun p => p.arrive dt)) hx htag hops,
      State.serve_run hrun, HeldReply.deliver_udp hy]
  refine reaches_of_answers hstep ⟨rfl, ?_, rfl⟩
  exact (State.modSession_session (s := u) _ _).trans (by rw [hy]; rfl)

theorem State.canReply_reaches {b : List Byte} {m : Msg} {ops : List OpRec} (h : s.ready = true) (hl : 16 + fieldAt b 6 2 ≤ 2048)
    (hm : readMsg (b.take (16 + fieldAt b 6 2)) = some m) (hty : m.ty = 1) (hops : readOps (m.body.length + 1) m.body = some ops)
    (hmsg : s.od.canMsg = none) {out : List Byte} {u : State}
    (hrun : runOps ⟨.can, 1⟩ 2048 ops false [] none ((if (s.session ⟨.can, 1⟩).isSome then s else s.openSession ⟨.can, 1⟩).modOdRoute 2
      (fun r => { r with reqs := (r.reqs + 1) % 2 ^ 32 })) = (out, none, u)) (hu : u.sessionOpen ⟨.can, 1⟩ = true) :
    Reaches (.canFrame (leBytes 1 0xC0 ++ b) false) s (fun t =>
      t.out = ((canFrames (blpFrame 2 1 m.tag out)).map Out.canReply).reverse ++ u.out ∧ (t.session ⟨.can, 1⟩).isSome = true) := by
  have hstep : Answers (.canFrame (leBytes 1 0xC0 ++ b) false) s (u.emits ((canFrames (blpFrame 2 1 m.tag out)).map Out.canReply)) := by
    refine answers_congr (answers_whenReady rfl h) ?_
    rw [if_neg Bool.false_ne_true, State.canSegment_first (by omega) (by omega) (by omega), hmsg]
    rw [if_neg (by exact Bool.false_ne_true), State.segEnd_last (by omega), State.withCanMsg_self hmsg, State.canMessage_serve hl hm hty hops,
      State.serve_run hrun]
    exact if_pos hu
  rw [State.emits_eq] at hstep
  exact reaches_of_answers hstep ⟨rfl, hu⟩

end

end Sys2Proof.Machine

namespace Sys2Proof.Proofs
open Sys2Proof.Machine

/-- Settles O58. -/
theorem managementRoutes : Obligations.ManagementRoutes := by
  unfold Obligations.ManagementRoutes
  refine ⟨fun s h => ⟨fun n h1 h16 hfree hlow => ?_, fun hall => answers_congr (answers_whenReady rfl h) (State.udpOpen_busy 0 hall),
    fun n hn => answers_congr (answers_whenReady rfl h) (State.udpClose_none hn),
    fun n => ⟨fun ho => ⟨fun h1 h16 => ?_, ?_⟩, fun hno => ?_, answers_whenReady rfl h, answers_whenReady rfl h, fun ho => ?_⟩,
    fun dt b hb => ?_, fun dt b m hl hm hty => ⟨fun hs => ?_, fun x hx => ⟨fun htag hr => ?_, fun htag hops => ?_, fun ops htag hops => ?_⟩⟩,
    fun b => answers_whenReady rfl h, answers_whenReady rfl h,
    fun hd data hh => ⟨fun h2 hn hnone => ?_, fun h3 hn hnone => ?_, fun h2 hn hsome => ?_, fun h0 hnone => ?_,
      fun k got hmsg h0 => ⟨fun hn hlen h1 => ?_, fun hn hlen h1 => ?_, fun hn => ?_⟩⟩,
    fun b m ops hl hm hty hops hmsg hrun hopen => ?_, fun hnone => ?_, fun m hmsg => ?_, answers_whenReady rfl h⟩,
    fun bs f hf => canFrames_length hf⟩
  · refine reaches_of_answers (answers_congr (answers_whenReady rfl h) (State.udpOpen_lowest 0 h1 h16 hfree hlow)) ⟨?_, rfl⟩
    exact State.openSession_session (s := s) ⟨.udp, n⟩
  · refine reaches_of_answers (answers_congr (answers_whenReady rfl h) (State.udpClose_open h1 h16 ho)) ?_
    exact State.endSession_session (s := s) ⟨.udp, n⟩
  · refine reaches_of_answers (answers_congr (answers_whenReady rfl h) (if_pos ho)) ⟨?_, fun x hx hn => ?_, fun x hx hn => ?_⟩
    · exact State.endSession_session (s := s) ⟨.udp, n⟩
    · exact State.endSession_txn_mine (w := ⟨.udp, n⟩) hx hn
    · have hother := State.endSession_txn_other (s := s) (w := ⟨.udp, n⟩) (fun y hy => by rw [hx] at hy; cases hy; exact hn)
      exact hother.trans hx
  · exact answers_congr (answers_whenReady rfl h) (if_neg hno)
  · refine reaches_of_answers (answers_congr (answers_whenReady rfl h) (if_pos ho)) ?_
    exact State.endSession_session (s := s) ⟨.can, n⟩
  · exact answers_congr (answers_whenUp rfl (State.ready_up h)) ((if_pos h).trans (State.udpMessage_bad hb))
  · exact answers_congr (answers_whenUp rfl (State.ready_up h)) ((if_pos h).trans ((State.udpMessage_ask hl hm hty).trans (State.udpAsk_closed hs)))
  · exact answers_congr (answers_whenUp rfl (State.ready_up h)) ((if_pos h).trans ((State.udpMessage_ask hl hm hty).trans (State.udpAsk_again hx htag hr)))
  · exact answers_congr (answers_whenUp rfl (State.ready_up h)) ((if_pos h).trans ((State.udpMessage_ask hl hm hty).trans (State.udpAsk_unread hx htag hops)))
  · dsimp only
    intro hrun y hy
    exact State.udpReply_reaches h hl hm hty hx htag hops (Prod.ext rfl (Prod.ext hrun rfl)) hy
  · refine answers_congr (answers_whenReady rfl h) ?_
    rw [if_neg Bool.false_ne_true, State.canSegment_first hh (by omega) hn, hnone]
    exact State.segEnd_more (by omega)
  · refine answers_congr (answers_whenReady rfl h) ?_
    rw [if_neg Bool.false_ne_true, State.canSegment_first hh (by omega) hn, if_neg (by rw [hnone]; exact Bool.false_ne_true),
      State.segEnd_last (by omega), State.withCanMsg_self hnone]
  · refine answers_congr (answers_whenReady rfl h) ?_
    rw [if_neg Bool.false_ne_true, State.canSegment_first hh (by omega) hn, if_pos hsome]
    exact State.segEnd_more (by omega)
  · refine answers_congr (answers_whenReady rfl h) ?_
    rw [if_neg Bool.false_ne_true, State.canSegment_next hh h0, hnone]
    rfl
  · refine answers_congr (answers_whenReady rfl h) ?_
    rw [if_neg Bool.false_ne_true, State.canSegment_next hh h0, hmsg]
    exact (if_pos ⟨hn, hlen⟩).trans (State.segEnd_more (by omega))
  · refine answers_congr (answers_whenReady rfl h) ?_
    rw [if_neg Bool.false_ne_true, State.canSegment_next hh h0, hmsg]
    exact (if_pos ⟨hn, hlen⟩).trans (State.segEnd_last (by omega))
  · refine answers_congr (answers_whenReady rfl h) ?_
    rw [if_neg Bool.false_ne_true, State.canSegment_next hh h0, hmsg]
    exact if_neg (fun hc => hn hc.1)
  · exact State.canReply_reaches h hl hm hty hops hmsg (Prod.ext rfl (Prod.ext hrun rfl)) hopen
  · exact answers_congr (answers_whenReady rfl h) (if_neg (by rw [hnone]; exact Bool.false_ne_true))
  · exact answers_congr (answers_whenReady rfl h) (if_pos (by rw [hmsg]; rfl))

end Sys2Proof.Proofs
end

