-- ==== Sys2Proof/Proofs/DictionaryOperations.lean ====
section
/-! PROOFS. The dictionary's operations: reads, writes, transactions and the expert unlock (R524 to R538). -/
namespace Sys2Proof.Machine
open Sys2Proof

section
variable {s : State} {w : OdFrom}

/-- The state with a request of the session's route counted. -/
def State.counted (s : State) (w : OdFrom) : State :=
  s.modOdRoute (OdRoute.num w.route) (fun r => { r with reqs := (r.reqs + 1) % 2 ^ 32 })

theorem State.counted_session : (s.counted w).session w = s.session w := by
  refine State.modOdRoute_session _ ?_ w
  exact fun _ => rfl

theorem State.counted_sessionOpen : (s.counted w).sessionOpen w = s.sessionOpen w := State.sessionOpen_congr State.counted_session

theorem State.counted_txn : ((s.counted w).odRoute (OdRoute.num w.route)).txn = (s.odRoute (OdRoute.num w.route)).txn := by
  rw [State.counted, State.modOdRoute_odRoute]

theorem State.counted_ownTxn : (s.counted w).ownTxn w = s.ownTxn w := by
  rw [State.ownTxn, State.counted_txn, State.ownTxn]

theorem State.setTxn_session (t : Option Txn) : (s.setTxn w t).session w = s.session w := by
  refine State.modOdRoute_session _ ?_ w
  exact fun _ => rfl

theorem State.setTxn_sessionOpen (t : Option Txn) : (s.setTxn w t).sessionOpen w = s.sessionOpen w :=
  State.sessionOpen_congr (State.setTxn_session t)

/-! ### A request of a session (R539 to R541) -/

theorem odRequest_closed {c : Instr} {op : State → OpRes} (hc : exec c s = odRequest w s op) (h : s.ready = true) (ho : s.sessionOpen w = false) :
    Answers c s (s.routeBad w.route) :=
  answers_congr (answers_whenReady hc h) (if_neg (by rw [ho]; exact Bool.false_ne_true))

theorem odRequest_open {c : Instr} {op : State → OpRes} (hc : exec c s = odRequest w s op) (h : s.ready = true) (ho : s.sessionOpen w = true) :
    Answers c s ((op (s.counted w)).answer w) :=
  answers_congr (answers_whenReady hc h) (if_pos ho)

/-- A response that waits for no partner leaves at once where the session is still open. -/
theorem OpRes.answer_now {st : Nat} {v : List Byte} (hu : s.sessionOpen w = true) :
    ({ status := st, value := v, st := s } : OpRes).answer w = s.emit (.odReply w.route w.session st v) := if_pos hu

theorem odRequest_replies {c : Instr} {op : State → OpRes} (hc : exec c s = odRequest w s op) (h : s.ready = true) (ho : s.sessionOpen w = true)
    {st : Nat} {v : List Byte} {u : State} (hr : op (s.counted w) = { status := st, value := v, st := u }) (hu : u.sessionOpen w = true) :
    Answers c s (u.emit (.odReply w.route w.session st v)) :=
  answers_congr (odRequest_open hc h ho) (by rw [hr]; exact OpRes.answer_now hu)

/-! ### Begin, commit and rollback (R536 to R538) -/

theorem State.takeReport_pending {x : OdSession} (hx : s.session w = some x) (hr : x.report = true) :
    s.takeReport w = (true, s.modSession w (fun x => { x with report := false })) := by
  rw [State.takeReport, hx]
  exact Prod.ext hr rfl

theorem State.takeReport_none (h : ∀ x, s.session w = some x → x.report = false) : (s.takeReport w).1 = false := by
  rw [State.takeReport]
  cases hx : s.session w with
  | none => rfl
  | some x => exact h x hx

section
variable (hn : ∀ x, s.session w = some x → x.report = false)
include hn

theorem State.odBegin_busy (h : (s.odRoute (OdRoute.num w.route)).txn.isSome = true) : s.odBegin w = { status := 7, st := s } := by
  unfold State.odBegin
  dsimp only
  rw [if_neg (by rw [State.takeReport_none hn]; exact Bool.false_ne_true), if_pos h]

theorem State.odBegin_fresh (h : (s.odRoute (OdRoute.num w.route)).txn = none) :
    s.odBegin w = { st := s.setTxn w (some { session := w.session }) } := by
  unfold State.odBegin
  dsimp only
  rw [if_neg (by rw [State.takeReport_none hn]; exact Bool.false_ne_true), if_neg (by rw [h]; exact Bool.false_ne_true)]

theorem State.odRollback_none (h : s.ownTxn w = none) : s.odRollback w = { status := 6, st := s } := by
  unfold State.odRollback
  dsimp only
  rw [if_neg (by rw [State.takeReport_none hn]; exact Bool.false_ne_true), if_neg (by rw [h]; exact Bool.false_ne_true)]

theorem State.odRollback_own {t : Txn} (h : s.ownTxn w = some t) : s.odRollback w = { st := s.setTxn w none } := by
  unfold State.odRollback
  dsimp only
  rw [if_neg (by rw [State.takeReport_none hn]; exact Bool.false_ne_true), if_pos (by rw [h]; rfl)]

theorem State.odCommit_none (h : s.ownTxn w = none) : s.odCommit w = { status := 6, st := s } := by
  unfold State.odCommit
  dsimp only
  rw [if_neg (by rw [State.takeReport_none hn]; exact Bool.false_ne_true), h]

theorem State.odCommit_conflict {t : Txn} (h : s.ownTxn w = some t) (hc : ∃ g ∈ t.staged, tget 0 s.od.stamps g.key ≠ g.stamp) :
    s.odCommit w = { status := 8, st := (s.setTxn w none).modOdRoute (OdRoute.num w.route) (fun r => { r with conflicts := (r.conflicts + 1) % 2 ^ 32 }) } := by
  obtain ⟨g, hg, hne⟩ := hc
  unfold State.odCommit
  dsimp only
  rw [if_neg (by rw [State.takeReport_none hn]; exact Bool.false_ne_true), h]
  dsimp only
  exact if_pos (List.any_eq_true.mpr ⟨g, hg, by rw [bne_iff_ne]; exact hne⟩)

/-- A commit whose stamps all stand. -/
theorem State.odCommit_stamped {t : Txn} (h : s.ownTxn w = some t) (hs : ∀ g ∈ t.staged, tget 0 s.od.stamps g.key = g.stamp) :
    s.odCommit w = match (s.setTxn w none).applyKeys w.route (sortBy (·.1) (t.staged.map (fun g => (g.key, g.value)))) [] with
      | .error e => (s.setTxn w none).odRefused w.route e
      | .ok u =>
        if (sortBy (·.1) (t.staged.map (fun g => (g.key, g.value)))).any (fun k => fusionKey k.1) && !u.fusionOk then
          (s.setTxn w none).odRefused w.route { code := fltAdmitShape, detail := 0x2800 }
        else u.mirrorCommit (((sortBy (·.1) (t.staged.map (fun g => (g.key, g.value)))).filter (fun k => pairScope (keyIndex k) && k.1 != odKeyNat 0x6010 2
            && (s.setTxn w none).odVal (keyIndex k) (keySub k) != k.2)).map (·.1)) := by
  unfold State.odCommit
  dsimp only
  rw [if_neg (by rw [State.takeReport_none hn]; exact Bool.false_ne_true), h]
  dsimp only
  refine if_neg ?_
  rw [List.any_eq_true]
  rintro ⟨g, hg, hne⟩
  exact bne_iff_ne.mp hne (hs g hg)

end

theorem State.mirrorCommit_single (h : s.pair.mode = 0) (ks : List Nat) : s.mirrorCommit ks = { st := s } := if_pos (Or.inl h)

theorem State.mirrorCommit_nil : s.mirrorCommit [] = { st := s } := if_pos (Or.inr rfl)

theorem State.odRefused_nine {r : OdRoute} {e : OdErr} (h : e.status = 9) : s.odRefused r e =
    { status := 9, value := leBytes 2 e.code, st := s.raise { code := e.code, unit := OdRoute.num r, detail := e.detail } } := if_pos h

theorem State.raise_sessionOpen (f : FaultInfo) : (s.raise f).sessionOpen w = s.sessionOpen w :=
  State.sessionOpen_congr (State.session_congr (State.raise_od_routes _ _) w)

theorem State.applyKeys_nil (r : OdRoute) : s.applyKeys r [] [] = .ok s := rfl

/-! ### One device entry without an effect of its own -/

theorem odEnt_8000 (s : State) : s.odEnt 0x8000 1 = some (num tyU16 300 10 3600 0) := by
  rw [State.odEnt, show s.odGroup 0x8000 = from_ 1 [num tyU16 300 10 3600 0, num tyU32 3600 60 86400 0, wo tyU32 0 (2 ^ 32 - 1)] from rfl]
  rfl

theorem keyIndex_8000 (v : List Byte) : keyIndex (odKeyNat 0x8000 1, v) = 0x8000 := by simp only [keyIndex, odKeyNat]

theorem keySub_8000 (v : List Byte) : keySub (odKeyNat 0x8000 1, v) = 1 := by simp only [keySub, odKeyNat]

theorem keyLevel_8000 (s : State) (v : List Byte) : s.keyLevel (odKeyNat 0x8000 1, v) = 0 := by
  rw [State.keyLevel, keyIndex_8000, keySub_8000, odEnt_8000]
  rfl

theorem fusionKey_8000 : fusionKey (odKeyNat 0x8000 1) = false := by decide

theorem applyIndex_8000 (s : State) (subs : List Nat) : s.applyIndex 0x8000 subs = .ok s := by
  rw [State.applyIndex]
  rfl

theorem odPut_eq {i j : Nat} {v : List Byte} (h : s.odVal i j ≠ v) : s.odPut i j v = { s with od := { s.od with
    values := tset none s.od.values (odKeyNat i j) (if ((s.odEnt i j).bind (·.dflt)) = some v ∧ ownDefault i j then none else some v)
    stamps := tmod 0 s.od.stamps (odKeyNat i j) (fun k => (k + 1) % 2 ^ 32) } } := by
  unfold State.odPut
  dsimp only
  rw [if_neg (fun hc => h hc.1), if_neg h]

/-- An entry whose kind does not depend on the state reads back the value put. -/
theorem odPut_odVal {i j : Nat} {v : List Byte} {e : OdEnt} (he : ∀ t : State, t.odEnt i j = some e) (h : s.odVal i j ≠ v) :
    (s.odPut i j v).odVal i j = v := by
  have hraw : (s.odPut i j v).odRaw i j = if ((s.odEnt i j).bind (·.dflt)) = some v ∧ ownDefault i j then none else some v := by
    rw [odPut_eq h]
    exact tget_tset_same (none : Option (List Byte)) _ _ _
  rw [State.odVal, hraw, he, he, Option.bind_some]
  by_cases hd : e.dflt = some v ∧ ownDefault i j = true
  · rw [if_pos hd]
    dsimp only
    rw [hd.1]
    rfl
  · rw [if_neg hd]

theorem odPut_stamp {i j : Nat} {v : List Byte} (h : s.odVal i j ≠ v) :
    tget 0 (s.odPut i j v).od.stamps (odKeyNat i j) = (tget 0 s.od.stamps (odKeyNat i j) + 1) % 2 ^ 32 := by
  rw [odPut_eq h]
  dsimp only
  exact tget_tmod_same 0 _ _ _

theorem applyKeys_8000 {r : OdRoute} {v : List Byte} (h : s.odVal 0x8000 1 ≠ v) :
    s.applyKeys r [(odKeyNat 0x8000 1, v)] [] = .ok (s.odPut 0x8000 1 v) := by
  have hput : s.putKeys [(odKeyNat 0x8000 1, v)] = s.odPut 0x8000 1 v := by
    rw [State.putKeys, List.foldl_cons, List.foldl_nil, keyIndex_8000, keySub_8000]
  have hdev : [(odKeyNat 0x8000 1, v)].filter (fun k => s.keyLevel k == 0) = [(odKeyNat 0x8000 1, v)] := by
    rw [List.filter_cons_of_pos (by rw [keyLevel_8000]; rfl), List.filter_nil]
  have hctx : [(odKeyNat 0x8000 1, v)].filter (fun k => s.keyLevel k == 1) = [] := by
    rw [List.filter_cons_of_neg (by rw [keyLevel_8000]; exact Bool.false_ne_true), List.filter_nil]
  have hstr : [(odKeyNat 0x8000 1, v)].filter (fun k => s.keyLevel k == 2) = [] := by
    rw [List.filter_cons_of_neg (by rw [keyLevel_8000]; exact Bool.false_ne_true), List.filter_nil]
  have hmine : ([(odKeyNat 0x8000 1, v)].filter (fun k => keyIndex k == 0x8000)).filter
      (fun k => s.odVal (keyIndex k) (keySub k) != k.2) = [(odKeyNat 0x8000 1, v)] := by
    rw [List.filter_cons_of_pos (by rw [keyIndex_8000]; rfl), List.filter_nil,
      List.filter_cons_of_pos (by rw [keyIndex_8000, keySub_8000, bne_iff_ne]; exact h), List.filter_nil]
  have hdevices : (uniq ([(odKeyNat 0x8000 1, v)].map keyIndex)).foldlM (fun (s : State) i =>
      let mine := ([(odKeyNat 0x8000 1, v)].filter (fun k => keyIndex k == i)).filter (fun k => s.odVal (keyIndex k) (keySub k) != k.2)
      if mine.isEmpty then .ok s else (s.putKeys mine).applyIndex i (mine.map keySub)) s = (.ok (s.odPut 0x8000 1 v) : Except OdErr State) := by
    rw [List.map_cons, keyIndex_8000, List.map_nil, show uniq [0x8000] = [0x8000] from rfl, List.foldlM_cons]
    dsimp only
    rw [hmine, if_neg (by exact Bool.false_ne_true), applyIndex_8000, hput]
    rfl
  unfold State.applyKeys
  dsimp only
  rw [hdev, hctx, hstr, hdevices]
  rfl

/-! ### Reads and infos (R534, R536) -/

section
variable {index sub : Nat}

theorem State.odRead_unknown (h : s.odEnt index sub = none) : s.odRead w index sub = { status := 1, st := s } := by
  rw [State.odRead, h]

theorem State.odInfo_unknown (h : s.odEnt index sub = none) : s.odInfo w index sub = { status := 1, st := s } := by
  rw [State.odInfo, h]

theorem State.odWrite_unknown {v : List Byte} (h : s.odEnt index sub = none) : s.odWrite w index sub v = { status := 1, st := s } := by
  rw [State.odWrite, h]

variable {e : OdEnt} (he : s.odEnt index sub = some e)
include he

theorem State.odRead_denied (hp : s.permits w.route 0 = false) : s.odRead w index sub = { status := 2, st := s } := by
  rw [State.odRead, he]
  exact if_pos (by rw [hp]; rfl)

theorem State.odInfo_denied (hp : s.permits w.route 0 = false) : s.odInfo w index sub = { status := 2, st := s } := by
  rw [State.odInfo, he]
  exact if_pos (by rw [hp]; rfl)

section
variable (hp : s.permits w.route 0 = true)
include hp

theorem State.odInfo_kept (h : e.acc ≠ 0 ∨ sub = 0) : s.odInfo w index sub = { value := e.info (tget 0 s.od.stamps (odKeyNat index sub)), st := s } := by
  rw [State.odInfo, he]
  dsimp only
  rw [hp, Bool.not_true, if_neg Bool.false_ne_true, if_neg (fun hc => h.elim (fun h => h hc.1) hc.2)]

theorem State.odInfo_device (h : e.acc = 0) (hs : sub ≠ 0) : s.odInfo w index sub = { value := e.info (s.draw 32).1, st := (s.draw 32).2 } := by
  rw [State.odInfo, he]
  dsimp only
  rw [hp, Bool.not_true, if_neg Bool.false_ne_true, if_pos ⟨h, hs⟩]

theorem State.odRead_wo (h : e.acc = 2) : s.odRead w index sub = { value := if e.ty = 7 then [] else copies (tySize e.ty e.n) 0#8, st := s } := by
  rw [State.odRead, he]
  dsimp only
  rw [hp, Bool.not_true, if_neg Bool.false_ne_true, if_pos h]

theorem State.odRead_ro (h : e.acc = 0) (h0 : index ≠ 0xA000) (h1 : index ≠ 0xA010) :
    s.odRead w index sub = { value := s.roValue w index sub, st := s } := by
  rw [State.odRead, he]
  dsimp only
  rw [hp, Bool.not_true, if_neg Bool.false_ne_true, if_neg (by omega), if_pos h, if_neg (fun hc => h0 hc.1), if_neg (fun hc => h1 hc.1)]

theorem State.odRead_rw (h0 : e.acc ≠ 0) (h2 : e.acc ≠ 2) : s.odRead w index sub =
    { value := match (s.ownTxn w).bind (fun t => t.staged.find? (fun g => g.key == odKeyNat index sub)) with
        | some g => g.value
        | none => s.odVal index sub
      st := s } := by
  rw [State.odRead, he]
  dsimp only
  rw [hp, Bool.not_true, if_neg Bool.false_ne_true, if_neg h2, if_neg h0]
  cases (s.ownTxn w).bind (fun t => t.staged.find? (fun g => g.key == odKeyNat index sub)) <;> rfl

end

/-! ### Writes (R524, R526, R532, R535, R536) -/

section
variable {v : List Byte}

theorem State.odWrite_readOnly (h : sub = 0 ∨ e.acc = 0) : s.odWrite w index sub v = { status := 2, st := s } := by
  rw [State.odWrite, he]
  exact if_pos h

variable (hs : sub ≠ 0) (ha : e.acc ≠ 0)
include hs ha

theorem State.odWrite_denied (hp : s.permits w.route (e.writeBit index sub) = false) : s.odWrite w index sub v = { status := 2, st := s } := by
  rw [State.odWrite, he]
  dsimp only
  rw [if_neg (not_or.mpr ⟨hs, ha⟩), hp]
  rfl

variable (hp : s.permits w.route (e.writeBit index sub) = true)
include hp

theorem State.odWrite_locked (hl : e.lvl = 1) (hu : (w.route == .cantle || (match s.session w with | some x => x.unlocked | none => false)) = false) :
    s.odWrite w index sub v = { status := 5, st := s } := by
  rw [State.odWrite, he]
  dsimp only
  rw [if_neg (not_or.mpr ⟨hs, ha⟩), hp, Bool.not_true, if_neg Bool.false_ne_true, if_pos]
  rw [Bool.and_eq_true, Bool.not_eq_true', decide_eq_true_iff]
  exact ⟨hl, hu⟩

variable (hl : e.lvl ≠ 1 ∨ (w.route == .cantle || (match s.session w with | some x => x.unlocked | none => false)) = true)
include hl

/-- A write that the session may make: a command acts, any other entry is staged in the session's transaction. -/
theorem State.odWrite_open : s.odWrite w index sub v = if e.acc = 2 then
      (if !e.typeOk v then { status := 4, st := s } else if !e.rangeOk index sub v then { status := 3, st := s } else s.command w index sub v)
    else match s.ownTxn w with
      | none => { status := 6, st := s }
      | some t =>
        if !e.typeOk v then { status := 4, st := s }
        else if !e.rangeOk index sub v then { status := 3, st := s }
        else s.stage w t (odKeyNat index sub) v := by
  have hlvl : ¬ (decide (e.lvl = 1) && !(w.route == .cantle || (match s.session w with | some x => x.unlocked | none => false))) = true := by
    rw [Bool.and_eq_true, Bool.not_eq_true', decide_eq_true_iff]
    rintro ⟨h1, h2⟩
    rcases hl with h | h
    · exact h h1
    · exact Bool.false_ne_true (h2.symm.trans h)
  rw [State.odWrite, he]
  dsimp only
  rw [if_neg (not_or.mpr ⟨hs, ha⟩), hp, Bool.not_true, if_neg Bool.false_ne_true]
  exact if_neg hlvl

end

end

/-! ### Staging (R536) -/

section
variable {t : Txn} {key : Nat} {v : List Byte}

theorem State.stage_full (hold : t.staged.find? (fun g => g.key == key) = none) (h : 256 ≤ t.staged.length ∨ 16384 < t.bytes + v.length) :
    s.stage w t key v = { status := 10, st := s } := by
  unfold State.stage
  dsimp only
  rw [hold]
  dsimp only
  refine if_pos ?_
  rw [Bool.or_eq_true, Bool.and_eq_true, decide_eq_true_iff, decide_eq_true_iff, Nat.sub_zero]
  exact h.imp_left (fun h => ⟨rfl, h⟩)

theorem State.stage_new (hold : t.staged.find? (fun g => g.key == key) = none) (hn : t.staged.length < 256) (hb : t.bytes + v.length ≤ 16384) :
    s.stage w t key v = { st := s.setTxn w (some { t with staged := t.staged ++ [⟨key, v, tget 0 s.od.stamps key⟩] }) } := by
  have hrest : t.staged.filter (fun g => g.key != key) = t.staged := by
    refine List.filter_eq_self.mpr (fun g hg => ?_)
    rw [bne, Bool.not_eq_true']
    exact Bool.not_eq_true _ |>.mp (List.find?_eq_none.mp hold g hg)
  unfold State.stage
  dsimp only
  rw [hold, hrest]
  dsimp only
  refine if_neg ?_
  rw [Bool.or_eq_true, Bool.and_eq_true, decide_eq_true_iff, decide_eq_true_iff, Nat.sub_zero]
  omega

theorem State.stage_again {g : Staged} (hold : t.staged.find? (fun g => g.key == key) = some g) (hb : t.bytes - g.value.length + v.length ≤ 16384) :
    s.stage w t key v = { st := s.setTxn w (some { t with staged := t.staged.filter (fun g => g.key != key) ++ [⟨key, v, g.stamp⟩] }) } := by
  unfold State.stage
  dsimp only
  rw [hold]
  dsimp only
  refine if_neg ?_
  rw [Bool.or_eq_true, Bool.and_eq_true, decide_eq_true_iff, decide_eq_true_iff]
  rintro (⟨hf, -⟩ | h)
  · exact Bool.false_ne_true hf
  · omega

end

theorem OdEnt.info_length (e : OdEnt) (stamp : Nat) : (e.info stamp).length = 40 := by
  unfold OdEnt.info
  simp only [List.length_append, leBytes_length, List.length_cons, List.length_nil, copies, List.length_replicate]

/-! ### The expert unlock and the challenge (R532) -/

theorem State.draw_session (s : State) (n : Nat) (w : OdFrom) : (s.draw n).2.session w = s.session w := State.session_congr rfl w

theorem State.unlock_eq {x : OdSession} (hx : s.session w = some x) (v : Nat) : s.unlock w v =
    { status := if x.seen = some v ∧ x.challenge = v then 0 else 2
      st := (s.draw 32).2.modSession w (fun y => { y with
        challenge := (s.draw 32).1, seen := none, unlocked := y.unlocked || decide (x.seen = some v ∧ x.challenge = v) }) } := by
  have hok : (x.seen == some v && x.challenge == v) = decide (x.seen = some v ∧ x.challenge = v) := by
    rw [Bool.eq_iff_iff, Bool.and_eq_true, beq_iff_eq, beq_iff_eq, decide_eq_true_iff]
  unfold State.unlock
  dsimp only
  rw [hx]
  dsimp only
  simp only [hok, decide_eq_true_iff]

theorem State.odRead_challenge {x : OdSession} (hx : s.session w = some x) (hp : s.permits w.route 0 = true) :
    s.odRead w 0xA010 1 = { value := leBytes 4 x.challenge, st := s.modSession w (fun x => { x with seen := some x.challenge }) } := by
  have hval : s.roValue w 0xA010 1 = leBytes 4 x.challenge := by
    rw [State.roValue, if_neg (by omega), if_neg (by omega), if_neg (by omega), if_neg (by omega), if_neg (by omega), State.roRest,
      if_neg (by omega), if_neg (by omega), if_neg (by omega), if_pos rfl, if_pos rfl, hx]
  have hent : s.odEnt 0xA010 1 = some (ro tyU32) := by
    rw [State.odEnt, show s.odGroup 0xA010 = from_ 1 [ro tyU32, wo tyU32 0 (2 ^ 32 - 1), ro tyBool] from rfl]
    rfl
  rw [State.odRead, hent]
  dsimp only
  rw [hp, Bool.not_true, if_neg Bool.false_ne_true, hval]
  rfl

/-! ### The session's requests, as operations on the counted state -/

theorem exec_odxRead (k : OdKey) : exec (.odxRead w k) s = odRequest w s (fun s => s.odRead w k.index k.sub) := rfl
theorem exec_odxInfo (k : OdKey) : exec (.odxInfo w k) s = odRequest w s (fun s => s.odInfo w k.index k.sub) := rfl
theorem exec_odxWrite (k : OdKey) (v : List Byte) : exec (.odxWrite w k v) s = odRequest w s (fun s => s.odWrite w k.index k.sub v) := rfl
theorem exec_odxBegin : exec (.odxBegin w) s = odRequest w s (fun s => s.odBegin w) := rfl
theorem exec_odxCommit : exec (.odxCommit w) s = odRequest w s (fun s => s.odCommit w) := rfl
theorem exec_odxRollback : exec (.odxRollback w) s = odRequest w s (fun s => s.odRollback w) := rfl
theorem exec_expertUnlock (n : Nat) : exec (.expertUnlock w n) s =
    odRequest w s (fun s => if s.permits w.route 1 then s.unlock w (n % 2 ^ 32) else { status := 2, st := s }) := rfl

/-! ### What each request of an open session answers -/

section
variable (h : s.ready = true) (ho : s.sessionOpen w = true)
include h ho

theorem answers_report {x : OdSession} (hx : s.session w = some x) (hr : x.report = true) :
    ∀ c ∈ [Instr.odxBegin w, .odxCommit w, .odxRollback w],
      Answers c s (((s.counted w).modSession w (fun x => { x with report := false })).emit (.odReply w.route w.session 13 [])) := by
  intro c hc
  have hrep := State.takeReport_pending ((State.counted_session (w := w)).trans hx) hr
  have hopen : ((s.counted w).modSession w (fun x => { x with report := false })).sessionOpen w = true :=
    (State.modSession_sessionOpen _ _).trans (State.counted_sessionOpen.trans ho)
  simp only [List.mem_cons, List.not_mem_nil, or_false] at hc
  rcases hc with rfl | rfl | rfl
  · exact odRequest_replies exec_odxBegin h ho (by rw [State.odBegin, hrep]; rfl) hopen
  · exact odRequest_replies exec_odxCommit h ho (by rw [State.odCommit, hrep]; rfl) hopen
  · exact odRequest_replies exec_odxRollback h ho (by rw [State.odRollback, hrep]; rfl) hopen

section
variable (hn : ∀ x, s.session w = some x → x.report = false)
include hn

theorem answers_odxBegin_busy (hbusy : (s.odRoute (OdRoute.num w.route)).txn.isSome = true) :
    Answers (.odxBegin w) s ((s.counted w).emit (.odReply w.route w.session 7 [])) := by
  refine odRequest_replies exec_odxBegin h ho (State.odBegin_busy ?_ ?_) (State.counted_sessionOpen.trans ho)
  · rw [State.counted_session]
    exact hn
  · rw [State.counted_txn]
    exact hbusy

theorem answers_odxBegin_fresh (hfree : (s.odRoute (OdRoute.num w.route)).txn = none) :
    Answers (.odxBegin w) s (((s.counted w).setTxn w (some { session := w.session })).emit (.odReply w.route w.session 0 [])) := by
  refine odRequest_replies exec_odxBegin h ho (State.odBegin_fresh ?_ ?_) ((State.setTxn_sessionOpen _).trans (State.counted_sessionOpen.trans ho))
  · rw [State.counted_session]
    exact hn
  · rw [State.counted_txn]
    exact hfree

theorem answers_odxRollback_none (hnone : s.ownTxn w = none) :
    Answers (.odxRollback w) s ((s.counted w).emit (.odReply w.route w.session 6 [])) := by
  refine odRequest_replies exec_odxRollback h ho (State.odRollback_none ?_ ?_) (State.counted_sessionOpen.trans ho)
  · rw [State.counted_session]
    exact hn
  · rw [State.counted_ownTxn]
    exact hnone

theorem answers_odxCommit_none (hnone : s.ownTxn w = none) :
    Answers (.odxCommit w) s ((s.counted w).emit (.odReply w.route w.session 6 [])) := by
  refine odRequest_replies exec_odxCommit h ho (State.odCommit_none ?_ ?_) (State.counted_sessionOpen.trans ho)
  · rw [State.counted_session]
    exact hn
  · rw [State.counted_ownTxn]
    exact hnone

variable {t : Txn} (ht : s.ownTxn w = some t)
include ht

theorem answers_odxRollback_own :
    Answers (.odxRollback w) s (((s.counted w).setTxn w none).emit (.odReply w.route w.session 0 [])) := by
  refine odRequest_replies exec_odxRollback h ho (State.odRollback_own (t := t) ?_ ?_) ((State.setTxn_sessionOpen _).trans (State.counted_sessionOpen.trans ho))
  · rw [State.counted_session]
    exact hn
  · rw [State.counted_ownTxn]
    exact ht

theorem answers_odxCommit_conflict (hc : ∃ g ∈ t.staged, tget 0 s.od.stamps g.key ≠ g.stamp) :
    Answers (.odxCommit w) s ((((s.counted w).setTxn w none).modOdRoute (OdRoute.num w.route)
      (fun r => { r with conflicts := (r.conflicts + 1) % 2 ^ 32 })).emit (.odReply w.route w.session 8 [])) := by
  refine odRequest_replies exec_odxCommit h ho (State.odCommit_conflict (t := t) ?_ ?_ hc) ?_
  · rw [State.counted_session]
    exact hn
  · rw [State.counted_ownTxn]
    exact ht
  · refine (State.sessionOpen_congr (State.modOdRoute_session _ ?_ w)).trans ((State.setTxn_sessionOpen _).trans (State.counted_sessionOpen.trans ho))
    exact fun _ => rfl

omit h ho in
/-- A commit whose stamps all stand, on the counted state. -/
theorem State.counted_odCommit (hs : ∀ g ∈ t.staged, tget 0 s.od.stamps g.key = g.stamp) {ks : List (Nat × List Byte)}
    (hks : sortBy (·.1) (t.staged.map (fun g => (g.key, g.value))) = ks) :
    (s.counted w).odCommit w = match ((s.counted w).setTxn w none).applyKeys w.route ks [] with
      | .error e => ((s.counted w).setTxn w none).odRefused w.route e
      | .ok u =>
        if ks.any (fun k => fusionKey k.1) && !u.fusionOk then
          ((s.counted w).setTxn w none).odRefused w.route { code := fltAdmitShape, detail := 0x2800 }
        else u.mirrorCommit ((ks.filter (fun k => pairScope (keyIndex k) && k.1 != odKeyNat 0x6010 2
            && ((s.counted w).setTxn w none).odVal (keyIndex k) (keySub k) != k.2)).map (·.1)) := by
  rw [← hks]
  refine State.odCommit_stamped (t := t) ?_ ?_ hs
  · rw [State.counted_session]
    exact hn
  · rw [State.counted_ownTxn]
    exact ht

theorem answers_odxCommit_empty (hempty : t.staged = []) :
    Answers (.odxCommit w) s (((s.counted w).setTxn w none).emit (.odReply w.route w.session 0 [])) := by
  refine odRequest_replies exec_odxCommit h ho ?_ ((State.setTxn_sessionOpen _).trans (State.counted_sessionOpen.trans ho))
  rw [State.counted_odCommit hn ht (ks := []) (by rw [hempty]; intro g hg; exact absurd hg List.not_mem_nil) (by rw [hempty]; rfl),
    State.applyKeys_nil]
  exact State.mirrorCommit_nil

variable (hs : ∀ g ∈ t.staged, tget 0 s.od.stamps g.key = g.stamp) {ks : List (Nat × List Byte)}
  (hks : sortBy (·.1) (t.staged.map (fun g => (g.key, g.value))) = ks)
include hs hks

theorem answers_odxCommit_refused {e : OdErr} (he : ((s.counted w).setTxn w none).applyKeys w.route ks [] = .error e) (h9 : e.status = 9) :
    Answers (.odxCommit w) s ((((s.counted w).setTxn w none).raise { code := e.code, unit := OdRoute.num w.route, detail := e.detail }).emit
      (.odReply w.route w.session 9 (leBytes 2 e.code))) := by
  refine odRequest_replies exec_odxCommit h ho ?_ ((State.raise_sessionOpen _).trans ((State.setTxn_sessionOpen _).trans (State.counted_sessionOpen.trans ho)))
  rw [State.counted_odCommit hn ht hs hks, he]
  exact State.odRefused_nine h9

theorem answers_odxCommit_done {u : State} (hu : ((s.counted w).setTxn w none).applyKeys w.route ks [] = .ok u) (hmode : u.pair.mode = 0)
    (hopen : u.sessionOpen w = true) (hf : (∀ k ∈ ks, fusionKey k.1 = false) ∨ u.fusionOk = true) :
    Answers (.odxCommit w) s (u.emit (.odReply w.route w.session 0 [])) := by
  have hno : ¬ (ks.any (fun k => fusionKey k.1) && !u.fusionOk) = true := by
    rw [Bool.and_eq_true, List.any_eq_true, Bool.not_eq_true']
    rintro ⟨⟨k, hk, hkf⟩, hbad⟩
    rcases hf with hf | hf
    · exact Bool.false_ne_true ((hf k hk).symm.trans hkf)
    · exact Bool.false_ne_true (hbad.symm.trans hf)
  refine odRequest_replies exec_odxCommit h ho ?_ hopen
  rw [State.counted_odCommit hn ht hs hks, hu]
  dsimp only
  rw [if_neg hno, State.mirrorCommit_single hmode]

theorem answers_odxCommit_fusion {u : State} (hu : ((s.counted w).setTxn w none).applyKeys w.route ks [] = .ok u)
    (hf : ∃ k ∈ ks, fusionKey k.1 = true) (hbad : u.fusionOk = false) :
    Answers (.odxCommit w) s ((((s.counted w).setTxn w none).raise { code := fltAdmitShape, unit := OdRoute.num w.route, detail := 0x2800 }).emit
      (.odReply w.route w.session 9 (leBytes 2 fltAdmitShape))) := by
  refine odRequest_replies exec_odxCommit h ho ?_ ((State.raise_sessionOpen _).trans ((State.setTxn_sessionOpen _).trans (State.counted_sessionOpen.trans ho)))
  rw [State.counted_odCommit hn ht hs hks, hu]
  dsimp only
  rw [if_pos (by rw [Bool.and_eq_true, List.any_eq_true, hbad]; exact ⟨hf, rfl⟩)]
  exact State.odRefused_nine rfl

end

theorem odxCommit_8000 {t : Txn} {g : Staged} {v : List Byte} (hn : ∀ x, s.session w = some x → x.report = false) (ht : s.ownTxn w = some t)
    (hs : t.staged = [g]) (hk : g.key = odKeyNat 0x8000 1) (hst : tget 0 s.od.stamps g.key = g.stamp)
    (hv : g.value = v) (hne : s.odVal 0x8000 1 ≠ v) (hm : s.pair.mode = 0) :
    Reaches (.odxCommit w) s (fun u => u.odVal 0x8000 1 = v ∧ tget 0 u.od.stamps g.key = (g.stamp + 1) % 2 ^ 32 ∧
      (u.odRoute (OdRoute.num w.route)).txn = none ∧ u.slots = s.slots ∧ u.ctxs = s.ctxs ∧ u.mem = s.mem ∧
      u.out = .odReply w.route w.session 0 [] :: s.out) := by
  obtain ⟨u, hu⟩ : ∃ u, u = (s.counted w).setTxn w none := ⟨_, rfl⟩
  have hks : sortBy (·.1) (t.staged.map (fun g => (g.key, g.value))) = [(odKeyNat 0x8000 1, v)] := by
    rw [hs, List.map_cons, List.map_nil, hk, hv]
    rfl
  have hne' : u.odVal 0x8000 1 ≠ v := by
    rw [hu]
    exact hne
  have hopen : u.sessionOpen w = true := by
    rw [hu]
    exact (State.setTxn_sessionOpen _).trans (State.counted_sessionOpen.trans ho)
  have htxn : (u.odRoute (OdRoute.num w.route)).txn = none := by
    rw [hu, State.setTxn, State.modOdRoute_odRoute]
  have hstamps : u.od.stamps = s.od.stamps := by
    rw [hu]
    rfl
  have hans := answers_odxCommit_done h ho hn ht (by rw [hs]; intro k hk; rw [List.mem_singleton.mp hk]; exact hst) hks
    (u := u.odPut 0x8000 1 v) (by rw [← hu]; exact applyKeys_8000 hne') (by rw [odPut_eq hne', hu]; exact hm)
    (by rw [odPut_eq hne']; exact hopen) (Or.inl (by intro k hk; rw [List.mem_singleton.mp hk]; exact fusionKey_8000))
  refine reaches_of_answers hans ⟨odPut_odVal odEnt_8000 hne', ?_, ?_, ?_, ?_, ?_, ?_⟩
  · rw [hk] at hst ⊢
    rw [← hst, ← hstamps]
    exact odPut_stamp hne'
  · rw [odPut_eq hne']
    exact htxn
  · rw [odPut_eq hne', hu]
    rfl
  · rw [odPut_eq hne', hu]
    rfl
  · rw [odPut_eq hne', hu]
    rfl
  · rw [odPut_eq hne', hu]
    rfl

end

/-! ### What a read, a write and an unlock answer -/

section
variable (h : s.ready = true) (ho : s.sessionOpen w = true) {k : OdKey}
include h ho

theorem answers_odxRead {st : Nat} {v : List Byte} (hr : (s.counted w).odRead w k.index k.sub = { status := st, value := v, st := s.counted w }) :
    Answers (.odxRead w k) s ((s.counted w).emit (.odReply w.route w.session st v)) :=
  odRequest_replies (exec_odxRead _) h ho hr (State.counted_sessionOpen.trans ho)

theorem answers_odxInfo {st : Nat} {v : List Byte} (hr : (s.counted w).odInfo w k.index k.sub = { status := st, value := v, st := s.counted w }) :
    Answers (.odxInfo w k) s ((s.counted w).emit (.odReply w.route w.session st v)) :=
  odRequest_replies (exec_odxInfo _) h ho hr (State.counted_sessionOpen.trans ho)

theorem answers_odxWrite {v x : List Byte} {st : Nat} {u : State} (hr : (s.counted w).odWrite w k.index k.sub v = { status := st, value := x, st := u })
    (hu : u.sessionOpen w = (s.counted w).sessionOpen w) : Answers (.odxWrite w k v) s (u.emit (.odReply w.route w.session st x)) :=
  odRequest_replies (exec_odxWrite _ _) h ho hr (hu.trans (State.counted_sessionOpen.trans ho))

theorem answers_expertUnlock_denied {n : Nat} (hp : s.permits w.route 1 = false) :
    Answers (.expertUnlock w n) s ((s.counted w).emit (.odReply w.route w.session 2 [])) := by
  refine odRequest_replies (exec_expertUnlock _) h ho (if_neg ?_) (State.counted_sessionOpen.trans ho)
  rw [show (s.counted w).permits w.route 1 = s.permits w.route 1 from rfl, hp]
  exact Bool.false_ne_true

theorem reaches_expertUnlock {n : Nat} {x : OdSession} (hx : s.session w = some x) (hp : s.permits w.route 1 = true) :
    Reaches (.expertUnlock w n) s (fun t =>
      (∃ c, t.session w = some { x with challenge := c, seen := none, unlocked := x.unlocked || decide (x.seen = some (n % 2 ^ 32) ∧ x.challenge = n % 2 ^ 32) }) ∧
      t.out = .odReply w.route w.session (if x.seen = some (n % 2 ^ 32) ∧ x.challenge = n % 2 ^ 32 then 0 else 2) [] :: s.out) := by
  have hx1 : (s.counted w).session w = some x := State.counted_session.trans hx
  have hp1 : (s.counted w).permits w.route 1 = true := hp
  obtain ⟨u, hu⟩ : ∃ u, u = s.counted w := ⟨_, rfl⟩
  rw [← hu] at hx1 hp1
  have hmod (f : OdSession → OdSession) : ((u.draw 32).2.modSession w f).session w = some (f x) := by
    rw [State.modSession_session, State.draw_session, hx1]
    rfl
  have hop : (if (s.counted w).permits w.route 1 then (s.counted w).unlock w (n % 2 ^ 32) else { status := 2, st := s.counted w }) = _ :=
    (if_pos (hu ▸ hp1)).trans (State.unlock_eq (hu ▸ hx1) (n % 2 ^ 32))
  rw [← hu] at hop
  have hans := odRequest_replies (exec_expertUnlock n) h ho (by rw [← hu]; exact hop) (by rw [State.sessionOpen, hmod]; exact Bool.or_true _)
  refine reaches_of_answers hans ⟨⟨_, hmod _⟩, ?_⟩
  rw [hu]
  rfl

theorem reaches_challenge {x : OdSession} (hx : s.session w = some x) (hp : s.permits w.route 0 = true) :
    Reaches (.odxRead w ⟨0xA010, 1⟩) s (fun t => t.session w = some { x with seen := some x.challenge } ∧
      t.out = .odReply w.route w.session 0 (leBytes 4 x.challenge) :: s.out) := by
  have hx1 : (s.counted w).session w = some x := State.counted_session.trans hx
  refine reaches_of_answers (odRequest_replies (exec_odxRead _) h ho (State.odRead_challenge hx1 hp) ?_) ⟨?_, rfl⟩
  · exact (State.modSession_sessionOpen _ _).trans (State.counted_sessionOpen.trans ho)
  · exact (State.modSession_session (s := s.counted w) w (fun x => { x with seen := some x.challenge })).trans (by rw [hx1]; rfl)

end

end

end Sys2Proof.Machine

namespace Sys2Proof.Proofs
open Sys2Proof.Machine

/-- Settles O57. -/
theorem dictionaryOperations : Obligations.DictionaryOperations := by
  unfold Obligations.DictionaryOperations
  refine ⟨fun s w index sub n v h => ⟨fun hclosed c hc => ?_, fun ho => ?_⟩, OdEnt.info_length, fun s r h => ⟨fun hnone => ?_, fun t x ht hx => ?_⟩⟩
  · simp only [List.mem_cons, List.not_mem_nil, or_false] at hc
    rcases hc with rfl | rfl | rfl | rfl | rfl | rfl | rfl
    · exact odRequest_closed (exec_odxRead _) h hclosed
    · exact odRequest_closed (exec_odxWrite _ _) h hclosed
    · exact odRequest_closed exec_odxBegin h hclosed
    · exact odRequest_closed exec_odxCommit h hclosed
    · exact odRequest_closed exec_odxRollback h hclosed
    · exact odRequest_closed (exec_odxInfo _) h hclosed
    · exact odRequest_closed (exec_expertUnlock _) h hclosed
  · have hopen : (s.counted w).sessionOpen w = true := State.counted_sessionOpen.trans ho
    have hent : (s.counted w).odEnt index sub = s.odEnt index sub := rfl
    have hwrite {e : OdEnt} (he : s.odEnt index sub = some e) (hs : sub ≠ 0) (ha : e.acc ≠ 0) (hp : s.permits w.route (e.writeBit index sub) = true)
        (hl : e.lvl ≠ 1 ∨ (w.route == .cantle || (match s.session w with | some x => x.unlocked | none => false)) = true) :=
      State.odWrite_open (s := s.counted w) (w := w) (v := v) he hs ha hp (by rw [State.counted_session]; exact hl)
    refine ⟨fun x hx hr c hc => ?_, fun hn => ⟨fun hbusy => ?_, fun hfree => ?_, fun hnone => ⟨?_, ?_⟩, fun t ht => ⟨?_, fun hcf => ?_, fun hempty => ?_, fun hst => ⟨fun e he h9 => ?_, fun u hu => ⟨fun hm hmu hou hf => ?_, fun hf hbad => ?_⟩⟩, fun g x hs hk hv hst hne hm => ?_⟩⟩, fun hnone => ⟨?_, ?_, ?_⟩, fun e he => ⟨fun hp => ⟨?_, ?_⟩, fun hp => ⟨fun h0 => ?_, fun h0 hs => ?_, fun h0 hi1 hi2 => ?_, fun h2 => ?_, fun h0 h2 => ?_⟩, fun hro => ?_, fun hs ha => ⟨fun hp => ?_, fun hp => ⟨fun hl hu => ?_, fun hl => ⟨fun h2 => ⟨fun hty => ?_, fun hty hr => ?_, fun hty hr => ?_⟩, fun h2 => ⟨fun hnone => ?_, fun t ht => ⟨fun hty => ?_, fun hty hr => ?_, fun hty hr => ⟨fun hold hfull => ?_, fun hold hlen hbytes => ?_, fun g hold hbytes => ?_⟩⟩⟩⟩⟩⟩⟩, fun hp => ?_, fun x hx hp => ?_, fun x hx hp => ?_⟩
    · exact answers_report h ho hx hr c hc
    · exact answers_odxBegin_busy h ho hn hbusy
    · exact answers_odxBegin_fresh h ho hn hfree
    · exact answers_odxRollback_none h ho hn hnone
    · exact answers_odxCommit_none h ho hn hnone
    · exact answers_odxRollback_own h ho hn ht
    · exact answers_odxCommit_conflict h ho hn ht hcf
    · exact answers_odxCommit_empty h ho hn ht hempty
    · exact answers_odxCommit_refused h ho hn ht hst rfl he h9
    · exact answers_odxCommit_done h ho hn ht hst rfl hu hmu hou hf
    · exact answers_odxCommit_fusion h ho hn ht hst rfl hu hf hbad
    · exact odxCommit_8000 h ho hn ht hs hk hst hv (hv ▸ hne) hm
    · exact answers_odxRead h ho (State.odRead_unknown hnone)
    · exact answers_odxInfo h ho (State.odInfo_unknown hnone)
    · exact answers_odxWrite h ho (State.odWrite_unknown hnone) rfl
    · exact answers_odxRead h ho (State.odRead_denied (hent.trans he) hp)
    · exact answers_odxInfo h ho (State.odInfo_denied (hent.trans he) hp)
    · exact answers_odxInfo h ho (State.odInfo_kept (hent.trans he) hp h0)
    · exact reaches_of_answers (odRequest_replies (exec_odxInfo _) h ho (State.odInfo_device (hent.trans he) hp h0 hs) hopen) ⟨_, rfl⟩
    · exact answers_odxRead h ho (State.odRead_ro (hent.trans he) hp h0 hi1 hi2)
    · exact answers_odxRead h ho (State.odRead_wo (hent.trans he) hp h2)
    · refine answers_odxRead h ho ((State.odRead_rw (hent.trans he) hp h0 h2).trans ?_)
      rw [State.counted_ownTxn]
      rfl
    · exact answers_odxWrite h ho (State.odWrite_readOnly (hent.trans he) hro) rfl
    · exact answers_odxWrite h ho (State.odWrite_denied (hent.trans he) hs ha hp) rfl
    · exact answers_odxWrite h ho (State.odWrite_locked (hent.trans he) hs ha hp hl (by rw [State.counted_session]; exact hu)) rfl
    · refine answers_odxWrite h ho ((hwrite he hs ha hp hl).trans ?_) rfl
      rw [if_pos h2, hty]
      rfl
    · refine answers_odxWrite h ho ((hwrite he hs ha hp hl).trans ?_) rfl
      rw [if_pos h2, hty, hr]
      rfl
    · refine answers_congr (odRequest_open (exec_odxWrite _ _) h ho) ?_
      rw [hwrite he hs ha hp hl, if_pos h2, hty, hr]
      rfl
    · refine answers_odxWrite h ho ((hwrite he hs ha hp hl).trans ?_) rfl
      rw [if_neg h2, State.counted_ownTxn, hnone]
      rfl
    · refine answers_odxWrite h ho ((hwrite he hs ha hp hl).trans ?_) rfl
      rw [if_neg h2, State.counted_ownTxn, ht, hty]
      rfl
    · refine answers_odxWrite h ho ((hwrite he hs ha hp hl).trans ?_) rfl
      rw [if_neg h2, State.counted_ownTxn, ht, hty, hr]
      rfl
    · refine answers_odxWrite h ho ((hwrite he hs ha hp hl).trans ?_) rfl
      rw [if_neg h2, State.counted_ownTxn, ht, hty, hr]
      exact State.stage_full hold hfull
    · refine answers_odxWrite h ho ((hwrite he hs ha hp hl).trans ?_) (State.setTxn_sessionOpen _)
      rw [if_neg h2, State.counted_ownTxn, ht, hty, hr]
      exact State.stage_new hold hlen hbytes
    · refine answers_odxWrite h ho ((hwrite he hs ha hp hl).trans ?_) (State.setTxn_sessionOpen _)
      rw [if_neg h2, State.counted_ownTxn, ht, hty, hr]
      exact State.stage_again hold hbytes
    · exact answers_expertUnlock_denied h ho hp
    · exact reaches_expertUnlock h ho hx hp
    · exact reaches_challenge h ho hx hp
  · exact answers_congr (answers_whenReady rfl h) (State.autoRollback_none hnone)
  · refine reaches_of_answers (answers_whenReady rfl h) ⟨State.autoRollback_txn (s := s) r, ?_, ?_, ?_, State.autoRollback_lastRecord (s := s) ht⟩
    · exact (State.autoRollback_session (s := s) ht).trans (by rw [hx]; rfl)
    · obtain ⟨_, _, _, _, _, _, _, _, hf⟩ := s.autoRollback_frame r
      rw [hf]
    · obtain ⟨_, _, _, _, _, _, _, _, hf⟩ := s.autoRollback_frame r
      rw [hf]

end Sys2Proof.Proofs
end

