-- ==== Sys2Proof/Proofs/BootStarts.lean ====
section
/-! PROOFS. The boot journal, resets and the stages' entries (R556 to R563, R581). -/
namespace Sys2Proof.Machine
open Sys2Proof

section
variable {s t : State}

/-! ### The boot journal (R563) -/

/-- What a journal record leaves, and the record. -/
theorem State.journal_eq (s : State) (stage outcome count fault detail bitmap : Nat) : s.journal stage outcome count fault detail bitmap =
    { s with
      od := { s.od with free := s.od.free + 1 }
      flash := { s.flash with journal :=
        { boot := s.boot.bootNum, stage := stage, outcome := outcome, count := count, cause := s.boot.cause, fault := fault, detail := detail
          bitmap := bitmap, ms := (s.draw 32).1 } ::
        (if s.flash.journal.length < 4096 then s.flash.journal else s.flash.journal.take 3072) } } := rfl

section
variable (n o c f d m : Nat)

@[simp] theorem State.journal_boot : (s.journal n o c f d m).boot = s.boot := rfl
@[simp] theorem State.journal_clk : (s.journal n o c f d m).clk = s.clk := rfl
@[simp] theorem State.journal_pci : (s.journal n o c f d m).pci = s.pci := rfl
@[simp] theorem State.journal_pair : (s.journal n o c f d m).pair = s.pair := rfl
@[simp] theorem State.journal_mem : (s.journal n o c f d m).mem = s.mem := rfl
@[simp] theorem State.journal_slots : (s.journal n o c f d m).slots = s.slots := rfl
@[simp] theorem State.journal_ctxs : (s.journal n o c f d m).ctxs = s.ctxs := rfl
@[simp] theorem State.journal_out : (s.journal n o c f d m).out = s.out := rfl
@[simp] theorem State.journal_fuses : (s.journal n o c f d m).fuses = s.fuses := rfl
@[simp] theorem State.journal_pwr : (s.journal n o c f d m).pwr = s.pwr := rfl
@[simp] theorem State.journal_kpr : (s.journal n o c f d m).kpr = s.kpr := rfl
@[simp] theorem State.journal_flash_slots : (s.journal n o c f d m).flash.slots = s.flash.slots := rfl
@[simp] theorem State.journal_flash_stored : (s.journal n o c f d m).flash.stored = s.flash.stored := rfl
@[simp] theorem State.journal_flash_softMap : (s.journal n o c f d m).flash.softMap = s.flash.softMap := rfl
@[simp] theorem State.journal_flash_pendingSpares : (s.journal n o c f d m).flash.pendingSpares = s.flash.pendingSpares := rfl
@[simp] theorem State.journal_lastRecord : (s.journal n o c f d m).od.lastRecord = s.od.lastRecord := rfl
@[simp] theorem State.journal_faultSeq : (s.journal n o c f d m).od.faultSeq = s.od.faultSeq := rfl
@[simp] theorem State.journal_routes : (s.journal n o c f d m).od.routes = s.od.routes := rfl

/-- The newest record survives the next one. -/
theorem State.mem_journal_of_head {j : JournalRec} {l : List JournalRec} (h : s.flash.journal = j :: l) :
    j ∈ (s.journal n o c f d m).flash.journal := by
  rw [State.journal_eq, h]
  refine List.mem_cons_of_mem _ ?_
  split
  · exact List.mem_cons_self
  · exact List.mem_cons_self

end

@[simp] theorem State.modBoot_boot (f : Boot → Boot) : (s.modBoot f).boot = f s.boot := rfl

/-! ### Counts of the stages (R557, R558) -/

/-- Counting a failure changes the boot's record alone. -/
theorem State.countFail_frame (s : State) (n : Nat) : ∃ a c l, s.countFail n =
    s.modBoot (fun b => { b with altFails := a, counts := c, latched := l }) := by
  unfold State.countFail
  split
  · exact ⟨_, _, _, rfl⟩
  · split
    · exact ⟨_, _, _, rfl⟩
    · exact ⟨_, _, _, rfl⟩

theorem State.countFail_main {n : Nat} (ha : tget false s.boot.alt n = false) (hl : tget false s.boot.latched n = false) :
    s.countFail n = s.modBoot (fun b => { b with
      counts := tset 0 b.counts n (tget 0 s.boot.counts n + 1), latched := tset false b.latched n (decide (3 ≤ tget 0 s.boot.counts n + 1)) }) := by
  unfold State.countFail
  rw [if_neg (by rw [ha]; exact Bool.false_ne_true), if_neg (by rw [hl]; exact Bool.false_ne_true)]

theorem State.countFail_alt {n : Nat} (ha : tget false s.boot.alt n = true) :
    s.countFail n = s.modBoot (fun b => { b with altFails := tinc b.altFails n 1 }) := if_pos ha

/-! ### A reset (R581) -/

@[simp] theorem State.resetBase_out : s.resetBase.out = s.out := rfl
@[simp] theorem State.resetBase_fuses : s.resetBase.fuses = s.fuses := rfl
@[simp] theorem State.resetBase_flash : s.resetBase.flash = s.flash := rfl
@[simp] theorem State.resetBase_slots : s.resetBase.slots = [] := rfl
@[simp] theorem State.resetBase_ctxs : s.resetBase.ctxs = [] := rfl
@[simp] theorem State.resetBase_refLost : s.resetBase.clk.refLost = s.clk.refLost := rfl
@[simp] theorem State.resetBase_running : s.resetBase.clk.running = false := rfl
@[simp] theorem State.resetBase_failOut : s.resetBase.pair.failOut = true := rfl
@[simp] theorem State.resetBase_booting : s.resetBase.boot.booting = false := rfl
@[simp] theorem State.resetBase_bytes : s.resetBase.mem.bytes = [] := rfl
@[simp] theorem State.resetBase_alt : s.resetBase.boot.alt = [] := rfl
@[simp] theorem State.resetBase_counts : s.resetBase.boot.counts = s.boot.counts := rfl
@[simp] theorem State.resetBase_latched : s.resetBase.boot.latched = s.boot.latched := rfl
@[simp] theorem State.resetBase_bootNum : s.resetBase.boot.bootNum = s.boot.bootNum := rfl

theorem State.up_of_stopped (h : s.clk.running = false) : s.up = false := by rw [State.up, h]; rfl

theorem State.ready_of_down (h : s.up = false) : s.ready = false := by rw [State.ready, h]; rfl

theorem State.rdByte_of_empty (h : s.mem.bytes = []) (a : Nat) : s.rdByte a = 0#8 := by rw [State.rdByte, h]; rfl

/-! ### Stages entered (R556, R558) -/

/-- The stage runs its alternate from now on. -/
def State.enterAlt (s : State) (n : Nat) : Bool := tget false s.boot.latched n && !s.boot.retry

/-- The state in which stage `n` is entered. -/
def State.atStage (s : State) (n : Nat) : State :=
  s.modBoot (fun b => { b with stage := n, alt := tset false b.alt n (s.enterAlt n) })

/-- A stage below 9 that is not skipped: its number and its journal record. -/
theorem State.enterStage_plain {n : Nat} (h9 : n ≠ 9) (halt : s.enterAlt n = true → n ≠ 6 ∧ n ≠ 8) :
    s.enterStage n = (s.atStage n).journal n (if s.enterAlt n then 4 else 0) ((s.atStage n).stageCount n)
      (if n == 4 && s.boot.dieOut.isSome then fltMemDie else 0) (s.boot.dieOut.getD 0) 0 := by
  have h8 : ¬ (s.enterAlt n && n == 8) = true := by
    rw [Bool.and_eq_true, beq_iff_eq]
    exact fun h => (halt h.1).2 h.2
  have h6 : ¬ (s.enterAlt n && n == 6) = true := by
    rw [Bool.and_eq_true, beq_iff_eq]
    exact fun h => (halt h.1).1 h.2
  rw [State.enterStage, State.enterFrom]
  dsimp only
  rw [if_neg h9, ← State.enterAlt, if_neg h8, if_neg h6]
  rfl

/-- Stage 9: the device is ready. -/
theorem State.enterStage_nine : s.enterStage 9 = ((s.atStage 9).journal 9 0 0 0 0 0).bootReady := by
  rw [State.enterStage, State.enterFrom]
  exact if_pos rfl

/-! ### A boot starts (R557, R563) -/

/-- The state in which a boot with a cause begins, before its first stage. -/
def State.bootBegun (s : State) (cause : Nat) (retry : Bool) : State :=
  s.resetBase.modBoot (fun b => { b with
    bootNum := (b.bootNum + 1) % 2 ^ 32, cause := cause, booting := true, retry := retry, clusters := s.fuses.grade.1, decoders := s.fuses.grade.2 })

/-- A boot begins at stage 1, with its journal record. -/
theorem State.bootBegun_enter (s : State) (cause : Nat) (retry : Bool) : ∃ o c d, (s.bootBegun cause retry).enterStage 1 =
    ((s.bootBegun cause retry).atStage 1).journal 1 o c 0 d 0 :=
  ⟨_, _, _, State.enterStage_plain (by omega) (fun _ => ⟨by omega, by omega⟩)⟩

theorem State.startBoot_eq (s : State) (cause : Nat) (retry : Bool) : s.startBoot cause retry =
    ((if s.boot.booting then s.countFail s.boot.stage else s).bootBegun cause retry).enterStage 1 := rfl

theorem State.startBoot_idle (h : s.boot.booting = false) (cause : Nat) (retry : Bool) :
    s.startBoot cause retry = (s.bootBegun cause retry).enterStage 1 := by
  rw [State.startBoot_eq, h, if_neg Bool.false_ne_true]

/-- What a boot that starts from `s` finds: nothing but the fuses, the flash's slots and what was sent. -/
structure State.Fresh (s : State) (cause : Nat) (t : State) : Prop where
  cause : t.boot.cause = cause
  stage : t.boot.stage = 1
  booting : t.boot.booting = true
  bootNum : t.boot.bootNum = (s.boot.bootNum + 1) % 2 ^ 32
  down : t.up = false
  failOut : t.pair.failOut = true
  fuses : t.fuses = s.fuses
  flashSlots : t.flash.slots = s.flash.slots
  out : t.out = s.out
  bytes : t.mem.bytes = []
  slots : t.slots = []
  ctxs : t.ctxs = []
  refLost : t.clk.refLost = s.clk.refLost

theorem State.Fresh.all {cause : Nat} (h : s.Fresh cause t) : t.boot.cause = cause ∧ t.boot.stage = 1 ∧ t.boot.booting = true ∧
    t.boot.bootNum = (s.boot.bootNum + 1) % 2 ^ 32 ∧ t.up = false ∧ t.ready = false ∧ t.pair.failOut = true ∧ t.fuses = s.fuses ∧
    t.flash.slots = s.flash.slots ∧ t.out = s.out ∧ (∀ a, t.rdByte a = 0#8) ∧ t.slots = [] ∧ t.ctxs = [] :=
  ⟨h.cause, h.stage, h.booting, h.bootNum, h.down, State.ready_of_down h.down, h.failOut, h.fuses, h.flashSlots, h.out,
    State.rdByte_of_empty h.bytes, h.slots, h.ctxs⟩

theorem State.fresh_bootBegun (s : State) (cause : Nat) (retry : Bool) : s.Fresh cause ((s.bootBegun cause retry).enterStage 1) := by
  obtain ⟨o, c, d, h⟩ := s.bootBegun_enter cause retry
  rw [h]
  exact ⟨rfl, rfl, rfl, rfl, State.up_of_stopped rfl, rfl, rfl, rfl, rfl, rfl, rfl, rfl, rfl⟩

/-- What a start of the boot depends on, when two states agree on it. -/
theorem State.Fresh.of_same {u : State} {cause : Nat} (h : u.Fresh cause t) (hnum : u.boot.bootNum = s.boot.bootNum) (hf : u.fuses = s.fuses)
    (hs : u.flash.slots = s.flash.slots) (ho : u.out = s.out) (hr : u.clk.refLost = s.clk.refLost) : s.Fresh cause t :=
  ⟨h.cause, h.stage, h.booting, hnum ▸ h.bootNum, h.down, h.failOut, h.fuses.trans hf, h.flashSlots.trans hs, h.out.trans ho, h.bytes, h.slots,
    h.ctxs, h.refLost.trans hr⟩

theorem State.fresh_startBoot (s : State) (cause : Nat) (retry : Bool) : s.Fresh cause (s.startBoot cause retry) := by
  rw [State.startBoot_eq]
  split
  · obtain ⟨a, c, l, h⟩ := s.countFail_frame s.boot.stage
    rw [h]
    exact (State.fresh_bootBegun _ cause retry).of_same rfl rfl rfl rfl rfl
  · exact State.fresh_bootBegun s cause retry

theorem State.startBoot_retry (s : State) (cause : Nat) (retry : Bool) : (s.startBoot cause retry).boot.retry = retry := by
  rw [State.startBoot_eq]
  obtain ⟨o, c, d, h⟩ := State.bootBegun_enter (if s.boot.booting then s.countFail s.boot.stage else s) cause retry
  rw [h]
  rfl

/-- A retry runs the primary paths. -/
theorem State.startBoot_retry_alt (s : State) (cause : Nat) : tget false (s.startBoot cause true).boot.alt 1 = false := by
  rw [State.startBoot_eq]
  obtain ⟨o, c, d, h⟩ := State.bootBegun_enter (if s.boot.booting then s.countFail s.boot.stage else s) cause true
  rw [h]
  refine (tget_tset_same false _ _ _).trans ?_
  exact Bool.and_false _

theorem State.startBoot_counts (h : s.boot.booting = false) (cause : Nat) (retry : Bool) : (s.startBoot cause retry).boot.counts = s.boot.counts := by
  obtain ⟨o, c, d, he⟩ := s.bootBegun_enter cause retry
  rw [State.startBoot_idle h, he]
  rfl

theorem State.startBoot_latched (h : s.boot.booting = false) (cause : Nat) (retry : Bool) :
    (s.startBoot cause retry).boot.latched = s.boot.latched := by
  obtain ⟨o, c, d, he⟩ := s.bootBegun_enter cause retry
  rw [State.startBoot_idle h, he]
  rfl

theorem State.startBoot_journal (h : s.boot.booting = false) (cause : Nat) (retry : Bool) {j : JournalRec} {l : List JournalRec}
    (hj : s.flash.journal = j :: l) : j ∈ (s.startBoot cause retry).flash.journal := by
  obtain ⟨o, c, d, he⟩ := s.bootBegun_enter cause retry
  rw [State.startBoot_idle h, he]
  exact State.mem_journal_of_head _ _ _ _ _ _ hj

end

end Sys2Proof.Machine
end

