-- ==== Sys2Proof/Proofs/PoolSteps.lean ====
section
/-! PROOFS. What the page pool's operations leave as it was (R407 to R420). -/
namespace Sys2Proof.Machine
open Sys2Proof

/-- `t` differs from `s` in memory and the page pool alone. -/
def State.PoolStep (s t : State) : Prop := ∃ m k, t = { s with mem := m, tkp := k }

section
variable {s t u : State}

theorem State.PoolStep.refl (s : State) : s.PoolStep s := ⟨_, _, rfl⟩

theorem State.PoolStep.trans (h : s.PoolStep t) (h' : t.PoolStep u) : s.PoolStep u := by
  obtain ⟨m, k, rfl⟩ := h
  obtain ⟨m', k', rfl⟩ := h'
  exact ⟨m', k', rfl⟩

theorem State.PoolStep.ite {c : Prop} [Decidable c] (ht : s.PoolStep t) (hu : s.PoolStep u) : s.PoolStep (if c then t else u) := by
  split
  · exact ht
  · exact hu

theorem State.poolStep_foldl {α : Type} {f : State → α → State} (h : ∀ (t : State) a, t.PoolStep (f t a)) (l : List α) (s : State) :
    s.PoolStep (l.foldl f s) := by
  induction l generalizing s with
  | nil => exact State.PoolStep.refl s
  | cons a l ih => exact (h s a).trans (ih (f s a))

theorem State.poolStep_modReserv (n : Nat) (f : Reserv → Reserv) : s.PoolStep (s.modReserv n f) := ⟨_, _, rfl⟩
theorem State.poolStep_modPage (n : Nat) (f : Page → Page) : s.PoolStep (s.modPage n f) := ⟨_, _, rfl⟩
theorem State.poolStep_modChan (n : Nat) (f : DramChan → DramChan) : s.PoolStep (s.modChan n f) := ⟨_, _, rfl⟩
theorem State.poolStep_pageToZero (p : Nat) : s.PoolStep (s.pageToZero p) := ⟨_, _, rfl⟩
theorem State.poolStep_pageZeroed (p : Nat) : s.PoolStep (s.pageZeroed p) := ⟨_, _, rfl⟩

theorem State.poolStep_putBytes (a : Nat) (bs : List Byte) : s.PoolStep (s.putBytes a bs) := by
  unfold State.putBytes
  exact State.PoolStep.ite ⟨_, _, rfl⟩ ⟨_, _, rfl⟩

theorem State.poolStep_endReserv (res : Nat) : s.PoolStep (s.endReserv res) := by
  unfold State.endReserv
  exact (State.PoolStep.ite (State.poolStep_foldl (fun t p => State.poolStep_pageToZero (s := t) p) _ s) (State.PoolStep.refl s)).trans ⟨_, _, rfl⟩

theorem State.poolStep_takePage (res p cls : Nat) (retain : Bool) : s.PoolStep (s.takePage res p cls retain) := by
  unfold State.takePage State.holdPage
  dsimp only
  exact State.PoolStep.ite ⟨_, _, rfl⟩ ⟨_, _, rfl⟩

theorem State.poolStep_allocPage {res cls p : Nat} {retain : Bool} (h : s.allocPage res cls retain = some (p, t)) : s.PoolStep t := by
  unfold State.allocPage at h
  split at h
  · cases h
  · split at h
    · cases h
      exact State.poolStep_takePage _ _ _ _
    · split at h
      · cases h
        exact (State.poolStep_foldl (fun t q => State.PoolStep.ite (State.poolStep_pageZeroed (s := t) q) (State.PoolStep.refl t)) _ s).trans (State.poolStep_takePage _ _ _ _)
      · cases h

theorem State.poolStep_allocPages {res cls n : Nat} {retain : Bool} {acc ps : List Nat} (h : s.allocPages res cls retain n acc = some (ps, t)) :
    s.PoolStep t := by
  induction n generalizing s acc with
  | zero => cases h; exact State.PoolStep.refl _
  | succ n ih =>
    rw [State.allocPages] at h
    split at h
    next p s' hp => exact (State.poolStep_allocPage hp).trans (ih h)
    next => cases h

theorem State.allocPages_length {res cls n : Nat} {retain : Bool} {acc ps : List Nat} (h : s.allocPages res cls retain n acc = some (ps, t)) :
    ps.length = acc.length + n := by
  induction n generalizing s acc with
  | zero => cases h; exact List.length_reverse
  | succ n ih =>
    rw [State.allocPages] at h
    split at h
    next p s' hp => rw [ih h, List.length_cons]; omega
    next => cases h

theorem State.poolStep_reserve {pool count cls channels res : Nat} (h : s.reserve pool count cls channels = some (res, t)) : s.PoolStep t := by
  unfold State.reserve at h
  split at h
  · split at h
    · dsimp only at h
      split at h
      · cases h
        exact State.poolStep_modReserv _ _
      · cases h
    · cases h
  · cases h

/-! ### Channels changed in turn -/

theorem upto_nodup (a n : Nat) : (upto a n).Nodup := by
  rw [upto_eq_range']
  exact List.nodup_range'

theorem State.foldl_modChan_chan (g : Nat → DramChan → DramChan) {l : List Nat} (hl : l.Nodup) (s : State) (ch : Nat) :
    (l.foldl (fun s c => s.modChan c (g c)) s).chan ch = if ch ∈ l then g ch (s.chan ch) else s.chan ch := by
  induction l generalizing s with
  | nil => rfl
  | cons a l ih =>
    obtain ⟨ha, hl⟩ := List.nodup_cons.mp hl
    rw [List.foldl_cons, ih hl]
    by_cases hc : ch = a
    · subst hc
      rw [if_neg ha, if_pos List.mem_cons_self, State.modChan_chan]
    · rw [State.modChan_chan_ne (h := hc)]
      by_cases hm : ch ∈ l
      · rw [if_pos hm, if_pos (List.mem_cons_of_mem a hm)]
      · rw [if_neg hm, if_neg (fun h => (List.mem_cons.mp h).elim hc hm)]

theorem State.foldl_modChan_all (g : Nat → DramChan → DramChan) (s : State) {ch : Nat} (h : ch < 64) :
    ((upto 0 64).foldl (fun s c => s.modChan c (g c)) s).chan ch = g ch (s.chan ch) := by
  rw [State.foldl_modChan_chan g (upto_nodup 0 64), if_pos (mem_upto_iff.mpr ⟨Nat.zero_le _, by omega⟩)]

end

end Sys2Proof.Machine
end

