-- ==== Sys2Proof/Proofs/HostRequests.lean ====
section
/-! PROOFS. The mailbox, frames that read back, Class X pages and the warm reset (R413, R514, R530, R533, R534). -/
namespace Sys2Proof.Machine
open Sys2Proof

/-! ### Frames (R533) -/

theorem crcBit_lt {c : Nat} (h : c < 2 ^ 32) : crcBit c < 2 ^ 32 := by
  have hs : c >>> 1 < 2 ^ 32 := by
    rw [Nat.shiftRight_eq_div_pow]
    omega
  unfold crcBit
  split
  · exact Nat.xor_lt_two_pow hs (by omega)
  · exact hs

theorem crcByte_lt {c : Nat} (h : c < 2 ^ 32) (b : Byte) :
    crcBit (crcBit (crcBit (crcBit (crcBit (crcBit (crcBit (crcBit (c ^^^ b.toNat)))))))) < 2 ^ 32 := by
  have hb := b.isLt
  exact crcBit_lt (crcBit_lt (crcBit_lt (crcBit_lt (crcBit_lt (crcBit_lt (crcBit_lt (crcBit_lt (Nat.xor_lt_two_pow h (by omega)))))))))

theorem crc32_lt (bs : List Byte) : crc32 bs < 2 ^ 32 := by
  have hfold (c : Nat) (h : c < 2 ^ 32) : bs.foldl (fun c b =>
      crcBit (crcBit (crcBit (crcBit (crcBit (crcBit (crcBit (crcBit (c ^^^ b.toNat))))))))) c < 2 ^ 32 := by
    induction bs generalizing c with
    | nil => exact h
    | cons b bs ih => exact ih _ (crcByte_lt h b)
  exact Nat.xor_lt_two_pow (hfold _ (by omega)) (by omega)

/-- The twelve bytes of a frame before its check. -/
def blpHead (ty session tag : Nat) (body : List Byte) : List Byte :=
  ascii "BX" ++ [1#8] ++ leBytes 1 ty ++ leBytes 2 session ++ leBytes 2 body.length ++ leBytes 4 tag

theorem blpHead_length (ty session tag : Nat) (body : List Byte) : (blpHead ty session tag body).length = 12 := by
  simp only [blpHead, List.length_append, leBytes_length, List.length_cons, List.length_nil]
  rfl

theorem blpFrame_eq (ty session tag : Nat) (body : List Byte) : blpFrame ty session tag body =
    blpHead ty session tag body ++ leBytes 4 (crc32 (blpHead ty session tag body ++ leBytes 4 0 ++ body)) ++ body := rfl

theorem blpFrame_length (ty session tag : Nat) (body : List Byte) : (blpFrame ty session tag body).length = 16 + body.length := by
  rw [blpFrame_eq, List.length_append, List.length_append, blpHead_length, leBytes_length]

theorem blpHead_assoc (ty session tag : Nat) (body : List Byte) : blpHead ty session tag body =
    (ascii "BX" ++ [1#8]) ++ (leBytes 1 ty ++ (leBytes 2 session ++ (leBytes 2 body.length ++ leBytes 4 tag))) := by
  simp only [blpHead, List.append_assoc]

theorem blpMark_length : (ascii "BX" ++ [1#8] : List Byte).length = 3 := rfl

theorem blpHead_mark (ty session tag : Nat) (body : List Byte) :
    (blpHead ty session tag body).take 2 = ascii "BX" ∧ fieldAt (blpHead ty session tag body) 2 1 = 1 := by
  rw [blpHead_assoc, fieldAt_append_left _ (by rw [blpMark_length])]
  exact ⟨rfl, rfl⟩

theorem blpHead_fields (ty session tag : Nat) (body : List Byte) :
    fieldAt (blpHead ty session tag body) 3 1 = ty % 256 ∧ fieldAt (blpHead ty session tag body) 4 2 = session % 2 ^ 16 ∧
    fieldAt (blpHead ty session tag body) 6 2 = body.length % 2 ^ 16 ∧ fieldAt (blpHead ty session tag body) 8 4 = tag % 2 ^ 32 := by
  have hskip (ys : List Byte) (o n : Nat) (h : 3 ≤ o) : fieldAt ((ascii "BX" ++ [1#8]) ++ ys) o n = fieldAt ys (o - 3) n :=
    fieldAt_append_right ys n h
  rw [blpHead_assoc, hskip _ 3 1 (by omega), hskip _ 4 2 (by omega), hskip _ 6 2 (by omega), hskip _ 8 4 (by omega)]
  refine ⟨fieldAt_leBytes_append _ _ _, ?_, ?_, ?_⟩
  · rw [fieldAt_skip_leBytes _ _ _ (by omega)]
    exact fieldAt_leBytes_append _ _ _
  · rw [fieldAt_skip_leBytes _ _ _ (by omega), fieldAt_skip_leBytes _ _ _ (by omega)]
    exact fieldAt_leBytes_append _ _ _
  · rw [fieldAt_skip_leBytes _ _ _ (by omega), fieldAt_skip_leBytes _ _ _ (by omega), fieldAt_skip_leBytes _ _ _ (by omega)]
    exact fieldAt_leBytes _ _

/-- A frame reads back as it was built. -/
theorem readMsg_blpFrame {ty session tag : Nat} {body : List Byte} (hty : ty < 256) (hs : session < 2 ^ 16) (ht : tag < 2 ^ 32)
    (hb : body.length < 2 ^ 16) : readMsg (blpFrame ty session tag body) = some ⟨ty, session, tag, body⟩ := by
  have hlen := blpHead_length ty session tag body
  obtain ⟨hmark, hver⟩ := blpHead_mark ty session tag body
  obtain ⟨hfty, hfs, hfl, hft⟩ := blpHead_fields ty session tag body
  have hcrc := crc32_lt (blpHead ty session tag body ++ leBytes 4 0 ++ body)
  have htotal := blpFrame_length ty session tag body
  rw [blpFrame_eq] at htotal ⊢
  generalize hh : blpHead ty session tag body = head at *
  generalize hc : crc32 (head ++ leBytes 4 0 ++ body) = c at *
  have hleft (o n : Nat) (h : o + n ≤ 12) : fieldAt (head ++ leBytes 4 c ++ body) o n = fieldAt head o n := by
    rw [List.append_assoc, fieldAt_append_left _ (by omega)]
  have hcheck : fieldAt (head ++ leBytes 4 c ++ body) 12 4 = c := by
    rw [List.append_assoc, fieldAt_append_right _ 4 (by omega), hlen, fieldAt_leBytes_append]
    omega
  have htake : (head ++ leBytes 4 c ++ body).take 12 = head := by
    rw [List.append_assoc, List.take_left' hlen]
  have hdrop : (head ++ leBytes 4 c ++ body).drop 16 = body :=
    List.drop_left' (by rw [List.length_append, hlen, leBytes_length])
  have htake2 : (head ++ leBytes 4 c ++ body).take 2 = ascii "BX" := by
    rw [List.append_assoc, List.take_append_of_le_length (by omega), hmark]
  rw [readMsg, if_pos]
  · rw [hleft 3 1 (by omega), hleft 4 2 (by omega), hleft 8 4 (by omega), hdrop, hfty, hfs, hft, Nat.mod_eq_of_lt hty, Nat.mod_eq_of_lt hs,
      Nat.mod_eq_of_lt ht]
  · refine ⟨by omega, htake2, (hleft 2 1 (by omega)).trans hver, ?_, ?_⟩
    · rw [hleft 6 2 (by omega), hfl]
      omega
    · rw [hcheck, htake, hdrop, hc]

/-! ### Operation records (R534, R535) -/

theorem runOps_stopped (w : OdFrom) (limit : Nat) (r : OpRec) (rest : List OpRec) (out : List Byte) (wait : Option Nat) (s : State) :
    runOps w limit (r :: rest) true out wait s = runOps w limit rest true (out ++ r.reply 12 []) wait s := by
  rw [runOps, if_pos rfl]

theorem State.odOp_unknown {s : State} {w : OdFrom} {r : OpRec} (h : r.op < 1 ∨ 6 < r.op) : s.odOp w r = { status := 15, st := s } := by
  unfold State.odOp
  rw [if_neg (by omega), if_neg (by omega), if_neg (by omega), if_neg (by omega), if_neg (by omega), if_neg (by omega)]

theorem runOps_unknown {w : OdFrom} {limit : Nat} {r : OpRec} {rest : List OpRec} {out : List Byte} {wait : Option Nat} {s : State}
    (h : r.op < 1 ∨ 6 < r.op) (hl : 24 + out.length + 8 * rest.length ≤ limit) :
    runOps w limit (r :: rest) false out wait s = runOps w limit rest true (out ++ r.reply 15 []) wait s := by
  rw [runOps, if_neg Bool.false_ne_true]
  dsimp only
  rw [State.odOp_unknown h]
  exact if_neg (by have : alignUp ([] : List Byte).length 4 = 0 := rfl; dsimp only; omega)

/-! ### The mailbox (R514, R539) -/

section
variable {s : State}

theorem State.msix_reports (v : Nat) : (s.msix v).out.head? = some (.msix v) ∨ (s.msix v).pci.pba.contains v = true := by
  unfold State.msix
  split
  · exact Or.inl rfl
  · split
    · exact Or.inr (by assumption)
    · exact Or.inr (List.contains_iff_mem.mpr (State.msix_held.mem_insertBy_self id v _))

theorem State.mailboxReady_facts (bs : List Byte) : (s.mailboxReady bs).pci.mbxState = 2 ∧ (s.mailboxReady bs).pci.rspLen = bs.length ∧
    (s.mailboxReady bs).pci.rspArea = wrList s.pci.rspArea 0 bs ∧ (s.mailboxReady bs).od = s.od ∧
    ((s.mailboxReady bs).out.head? = some (.msix 0) ∨ (s.mailboxReady bs).pci.pba.contains 0 = true) := by
  obtain ⟨u, hu⟩ : ∃ u, u = ({ s with pci := { s.pci with mbxState := 2, rspLen := bs.length, rspArea := wrList s.pci.rspArea 0 bs } } : State) := ⟨_, rfl⟩
  have hready : s.mailboxReady bs = u.msix 0 := by rw [hu]; rfl
  have hrep := State.msix_reports (s := u) 0
  rw [hready]
  obtain ⟨o, b, hm⟩ := u.msix_frame 0
  rw [hm] at hrep ⊢
  refine ⟨?_, ?_, ?_, ?_, hrep⟩ <;> rw [hu]

/-- The mailbox holds the request of a doorbell. -/
def State.mailboxHeld (s : State) (len : Nat) : State := { s with pci := { s.pci with mbxState := 1, reqLen := len } }

theorem State.doorbell_overrun {v : Nat} (h : s.pci.mbxState ≠ 0 ∨ bits v 12 0 = 0 ∨ 4096 < bits v 12 0) :
    s.doorbell v = { s with pci := { s.pci with mbxOverrun := true } } := if_pos h

theorem State.doorbell_held {v : Nat} (h0 : s.pci.mbxState = 0) (h1 : 1 ≤ bits v 12 0) (h2 : bits v 12 0 ≤ 4096) :
    s.doorbell v = (s.mailboxHeld (bits v 12 0)).serveMailbox := if_neg (by omega)

theorem State.serveMailbox_unready (h : s.ready = false) : s.serveMailbox = s := if_pos (Or.inr (by rw [h]; rfl))

theorem State.serveMailbox_idle (h : s.pci.mbxState ≠ 1) : s.serveMailbox = s := if_pos (Or.inl h)

section
variable (hs : s.pci.mbxState = 1) (hr : s.ready = true)
include hs hr

theorem State.serveMailbox_unread (hm : readMsg (rdList s.pci.reqArea 0 s.pci.reqLen) = none) :
    s.serveMailbox = (s.routeBad .mailbox).mailboxReady [] := by
  unfold State.serveMailbox
  dsimp only
  rw [if_neg (by rw [hs, hr]; simp), hm]

theorem State.serveMailbox_refused {m : Msg} (hm : readMsg (rdList s.pci.reqArea 0 s.pci.reqLen) = some m)
    (h : m.ty ≠ 1 ∨ m.session ≠ 0 ∨ readOps (m.body.length + 1) m.body = none) : s.serveMailbox = (s.routeBad .mailbox).mailboxReady [] := by
  unfold State.serveMailbox
  dsimp only
  rw [if_neg (by rw [hs, hr]; simp), hm]
  dsimp only
  cases hops : readOps (m.body.length + 1) m.body with
  | none => rfl
  | some ops =>
    dsimp only
    refine if_neg (fun hc => ?_)
    rcases h with h | h | h
    · exact h hc.1
    · exact h hc.2
    · rw [h] at hops
      cases hops

theorem State.serveMailbox_serve {m : Msg} {ops : List OpRec} (hm : readMsg (rdList s.pci.reqArea 0 s.pci.reqLen) = some m)
    (hty : m.ty = 1) (hse : m.session = 0) (hops : readOps (m.body.length + 1) m.body = some ops) :
    s.serveMailbox = s.serve ⟨.mailbox, 0⟩ 4096 ops (fun out => .mailbox (blpFrame 2 0 m.tag out)) := by
  unfold State.serveMailbox
  dsimp only
  rw [if_neg (by rw [hs, hr]; simp), hm]
  dsimp only
  rw [hops]
  exact if_pos ⟨hty, hse⟩

end

/-- What the host finds where its message was not taken. -/
theorem State.mailboxEmpty_facts : ((s.routeBad .mailbox).mailboxReady []).pci.mbxState = 2 ∧ ((s.routeBad .mailbox).mailboxReady []).pci.rspLen = 0 ∧
    (((s.routeBad .mailbox).mailboxReady []).odRoute (OdRoute.num .mailbox)).bad = ((s.odRoute (OdRoute.num .mailbox)).bad + 1) % 2 ^ 32 ∧
    (((s.routeBad .mailbox).mailboxReady []).out.head? = some (.msix 0) ∨ ((s.routeBad .mailbox).mailboxReady []).pci.pba.contains 0 = true) ∧
    ((s.routeBad .mailbox).mailboxReady []).od.values = s.od.values := by
  obtain ⟨hst, hlen, -, hod, hrep⟩ := State.mailboxReady_facts (s := s.routeBad .mailbox) []
  refine ⟨hst, hlen, ?_, hrep, by rw [hod]; rfl⟩
  rw [State.odRoute, hod, ← State.odRoute, State.routeBad, State.modOdRoute_odRoute]

/-- The response of a request that waits for no partner. -/
theorem reaches_mailboxResponse {v : Nat} {m : Msg} {ops : List OpRec} {out : List Byte} {u : State} (hup : s.up = true) (hr : s.ready = true)
    (h0 : s.pci.mbxState = 0) (h1 : 1 ≤ bits v 12 0) (h2 : bits v 12 0 ≤ 4096)
    (hm : readMsg (rdList s.pci.reqArea 0 (bits v 12 0)) = some m) (hops : readOps (m.body.length + 1) m.body = some ops)
    (hty : m.ty = 1) (hse : m.session = 0)
    (hrun : runOps ⟨.mailbox, 0⟩ 4096 ops false [] none ((s.mailboxHeld (bits v 12 0)).modOdRoute (OdRoute.num .mailbox)
      (fun r => { r with reqs := (r.reqs + 1) % 2 ^ 32 })) = (out, none, u)) (hst : u.pci.mbxState = 1) :
    Reaches (.mailboxDoorbell v) s (fun t => t.pci.mbxState = 2 ∧ t.pci.rspArea = wrList u.pci.rspArea 0 (blpFrame 2 0 m.tag out) ∧
      t.pci.rspLen = 16 + out.length ∧ (t.out.head? = some (.msix 0) ∨ t.pci.pba.contains 0 = true)) := by
  have hans : Answers (.mailboxDoorbell v) s (u.mailboxReady (blpFrame 2 0 m.tag out)) := by
    refine answers_congr (answers_whenUp rfl hup) ?_
    rw [State.doorbell_held h0 h1 h2, State.serveMailbox_serve (s := s.mailboxHeld (bits v 12 0)) rfl hr hm hty hse hops, State.serve_run hrun]
    exact if_pos hst
  obtain ⟨hbox, hlen, harea, -, hrep⟩ := State.mailboxReady_facts (s := u) (blpFrame 2 0 m.tag out)
  exact reaches_of_answers hans ⟨hbox, harea, hlen.trans (blpFrame_length _ _ _ _), hrep⟩

/-! ### Class X pages (R413, R530) -/

theorem State.hostAlloc_facts {s t : State} {r : OdRoute} {n : Nat} (h : s.hostAlloc r n = some t) :
    tget 4 t.tkp.listOwner t.tkp.lastHandle = OdRoute.num r ∧ (tget [] t.tkp.lists t.tkp.lastHandle).length = n ∧ t.ctxs = s.ctxs ∧ t.slots = s.slots := by
  unfold State.hostAlloc at h
  dsimp only at h
  split at h
  · cases h
  next res s1 hres =>
    split at h
    · cases h
    next pages s2 hpages =>
      have hstep : s.PoolStep s2 := (State.poolStep_reserve hres).trans (State.poolStep_allocPages hpages)
      have hlen := State.allocPages_length hpages
      rw [List.length_nil, Nat.zero_add] at hlen
      have hput := State.poolStep_foldl (f := fun (s : State) (p : Nat × List Byte) => s.putBytes (p.1 * pageSize) p.2)
        (fun u p => State.poolStep_putBytes _ _) ((pages.take (ceilDiv (4 * n) pageSize)).zip (chunks pageSize (ceilDiv (4 * n) pageSize)
          ((pages.drop (ceilDiv (4 * n) pageSize)).flatMap (leBytes 4)))) s2
      obtain ⟨m, k, hu⟩ := hstep.trans hput
      rw [hu] at h
      cases h
      dsimp only
      refine ⟨tget_tset_same 4 _ _ _, ?_, rfl, rfl⟩
      rw [tget_tset_same, List.length_drop, hlen]
      omega

theorem State.ownerHolds_of_listOwner {s : State} {r : OdRoute} {n : Nat} (h : tget 4 s.tkp.listOwner n = 4) : s.ownerHolds r n = false := by
  rw [State.ownerHolds, h]
  cases r <;> rfl

theorem State.hostFree_denied {s : State} {r : OdRoute} {n : Nat} (h : s.ownerHolds r n = false) : s.hostFree r n = none :=
  if_neg (by rw [h]; exact Bool.false_ne_true)

theorem State.hostFree_facts {s : State} {r : OdRoute} {n : Nat} (h : s.ownerHolds r n = true) : ∃ t, s.hostFree r n = some t ∧
    tget [] t.tkp.lists n = [] ∧ t.ownerHolds r n = false := by
  refine ⟨_, if_pos h, ?_, State.ownerHolds_of_listOwner ?_⟩
  · dsimp only
    exact tget_tset_same ([] : List Nat) _ _ _
  · dsimp only
    exact tget_tset_same 4 _ _ _

section
variable {r : OdRoute} {n : Nat}

theorem State.pagesEntry_zero : s.pagesEntry r 1 0 = { status := 3, st := s } := by
  rw [State.pagesEntry, if_pos rfl, if_pos rfl]

theorem State.pagesEntry_refused (hn : n ≠ 0) (h : s.hostAlloc r n = none) : s.pagesEntry r 1 n = s.refusedRes r 0xA030 fltAdmitPool := by
  rw [State.pagesEntry, if_pos rfl, if_neg hn, h]

theorem State.pagesEntry_alloc {t : State} (hn : n ≠ 0) (h : s.hostAlloc r n = some t) : s.pagesEntry r 1 n = { st := t } := by
  rw [State.pagesEntry, if_pos rfl, if_neg hn, h]

theorem State.pagesEntry_foreign (h : s.ownerHolds r n = false) : s.pagesEntry r 3 n = { status := 3, st := s } := by
  rw [State.pagesEntry, if_neg (by omega), State.hostFree_denied h]

theorem State.pagesEntry_free {t : State} (h : s.hostFree r n = some t) : s.pagesEntry r 3 n = { st := t } := by
  rw [State.pagesEntry, if_neg (by omega), h]

end

end

end Sys2Proof.Machine

namespace Sys2Proof.Proofs
open Sys2Proof.Machine

/-- Settles O56. -/
theorem hostRequests : Obligations.HostRequests := by
  unfold Obligations.HostRequests
  refine ⟨⟨fun s v hup => ⟨fun h => ?_, fun h0 h1 h2 => ⟨fun hr => ?_, fun hr => ⟨fun hm => ?_, fun m hm hbad => ?_, fun m ops hm hops hty hse hrun hst => ?_⟩⟩, fun hb hst => ?_, fun hb => ?_⟩,
    fun ty session tag body hty hs ht hb => readMsg_blpFrame hty hs ht hb,
    fun w limit r rest out wait s => ⟨runOps_stopped w limit r rest out wait s, fun hop hl => runOps_unknown hop hl⟩⟩,
    fun s r n hr => ⟨fun hp c hc => ?_, fun hp => ⟨fun hn => ?_, fun hn hnone => ?_, fun t hn hsome => ⟨?_, State.hostAlloc_facts hsome⟩, fun hno => ?_, fun hown => ?_, ?_⟩⟩⟩
  · exact answers_congr (answers_whenUp rfl hup) (State.doorbell_overrun h)
  · exact answers_congr (answers_whenUp rfl hup) ((State.doorbell_held h0 h1 h2).trans (State.serveMailbox_unready hr))
  · refine reaches_of_answers (answers_congr (answers_whenUp rfl hup) ((State.doorbell_held h0 h1 h2).trans (State.serveMailbox_unread rfl hr hm))) ?_
    exact State.mailboxEmpty_facts (s := s.mailboxHeld _)
  · refine reaches_of_answers (answers_congr (answers_whenUp rfl hup) ((State.doorbell_held h0 h1 h2).trans (State.serveMailbox_refused rfl hr hm hbad))) ?_
    exact State.mailboxEmpty_facts (s := s.mailboxHeld _)
  · exact reaches_mailboxResponse hup hr h0 h1 h2 hm hops hty hse (Prod.ext rfl (Prod.ext hrun rfl)) hst
  · exact answers_congr (answers_whenUp rfl hup) (if_pos (by rw [hb, hst]; rfl))
  · refine answers_congr (answers_whenUp rfl hup) (if_neg ?_)
    rw [Bool.and_eq_true, beq_iff_eq]
    rintro ⟨h1, h2⟩
    exact hb.elim (fun h => Bool.false_ne_true (h.symm.trans h1)) (fun h => h h2)
  · simp only [List.mem_cons, List.not_mem_nil, or_false] at hc
    have hno : ¬ s.permits r 1 = true := by rw [hp]; exact Bool.false_ne_true
    rcases hc with rfl | rfl | rfl
    · exact answers_congr (answers_whenReady rfl hr) (by rw [if_neg hno]; rfl)
    · exact answers_congr (answers_whenReady rfl hr) (by rw [if_neg hno]; rfl)
    · exact answers_congr (answers_whenReady rfl hr) (if_neg hno)
  · exact answers_congr (answers_whenReady rfl hr) (by rw [if_pos hp, hn, State.pagesEntry_zero]; rfl)
  · exact answers_congr (answers_whenReady rfl hr) (by rw [if_pos hp, State.pagesEntry_refused hn hnone]; rfl)
  · exact answers_congr (answers_whenReady rfl hr) (by rw [if_pos hp, State.pagesEntry_alloc hn hsome]; rfl)
  · exact answers_congr (answers_whenReady rfl hr) (by rw [if_pos hp, State.pagesEntry_foreign hno]; rfl)
  · obtain ⟨t, ht, hlist, hown'⟩ := State.hostFree_facts hown
    have hans : Answers (.freeClassXPages r n) s (t.emit (.odReply r 0 0 [])) :=
      answers_congr (answers_whenReady rfl hr) (by rw [if_pos hp, State.pagesEntry_free ht]; rfl)
    exact reaches_of_answers hans ⟨hlist, hown', rfl⟩
  · have hf := State.fresh_startBoot s 2 false
    refine reaches_of_answers (answers_congr (answers_whenReady rfl hr) (if_pos hp)) ?_
    exact ⟨hf.cause, hf.stage, hf.booting, hf.bootNum, hf.down, hf.fuses, hf.flashSlots, hf.failOut, State.rdByte_of_empty hf.bytes⟩

end Sys2Proof.Proofs
end

