-- ==== Sys2Proof/Proofs/BootSequence.lean ====
section
/-! PROOFS. Stage 1 of the boot: its pass writes two journal records, and each stamps a time that is left free (R556, R563). -/
namespace Sys2Proof.Machine
open Sys2Proof

section
variable {s : State} {r : StageResult}

theorem State.journal_free (n o c f d m : Nat) : (s.journal n o c f d m).od.free = s.od.free + 1 := rfl

/-- Stage 1 that passes enters stage 2: one record for each. -/
theorem State.passStage_one_free : (s.passStage 1).od.free = s.od.free + 2 ∧
    (s.passStage 1).pci = s.pci := by
  have halt : ∀ o c, ((s.countPass 1).journal 1 o c 0 0 0).enterAlt 2 = true → 2 ≠ 6 ∧ 2 ≠ 8 := fun _ _ _ => ⟨by omega, by omega⟩
  unfold State.passStage
  dsimp only
  rw [State.enterStage_plain (by omega) (halt _ _), State.journal_free, State.journal_pci]
  simp [State.atStage, State.modBoot, State.journal_free, State.countPass]

theorem State.stageWork_one (hlock : s.clk.pllLock = true) (hw : r.workOk = true) (hc : r.certOk = true) :
    s.stageWork 1 r = (s.modBoot (fun b => { b with identity := true })).passStage 1 := by
  rw [State.stageWork, if_pos rfl, hlock, if_neg (by exact Bool.false_ne_true), hw, if_neg (by exact Bool.false_ne_true), hc]
  dsimp only
  rw [if_pos rfl]

/-- Stage 1 passes: the free values drawn for its records' times show in the dictionary's state. -/
theorem reaches_one_free (hb : s.boot.booting = true) (hst : s.boot.stage = 1) (hr : s.pci.ready = false)
    (hlock : s.clk.pllLock = true) (hw : r.workOk = true) (hc : r.certOk = true) {t : State} (h : exec (.bootStagePass r) s = .next t) :
    t.od.free = s.od.free + 2 := by
  obtain ⟨hfree, hpci⟩ := State.passStage_one_free (s := s.modBoot (fun b => { b with identity := true }))
  obtain ⟨u, hu⟩ : ∃ u, u = (s.modBoot (fun b => { b with identity := true })).passStage 1 := ⟨_, rfl⟩
  rw [← hu] at hfree hpci
  have hquiet : u.ready = false := by rw [State.ready, hpci, State.modBoot, hr, Bool.and_false]
  have hstage : s.bootStage r = u := by
    unfold State.bootStage
    rw [if_neg (by rw [hb]; exact Bool.false_ne_true)]
    dsimp only
    rw [if_neg (by omega), if_pos (Or.inl hst), hst, State.stageWork_one hlock hw hc, ← hu, State.serveMailbox_unready hquiet]
  have hexec : exec (.bootStagePass r) s = answer s (s.bootStage r) := rfl
  rw [hexec, hstage] at h
  rw [← Host.Outcome.next.inj h]
  exact hfree

end

/-- A first boot whose clocks have locked, in stage 1. -/
def lockedBootState : State := { State.reset with
  clk := { running := true, pllLock := true }, boot := { stage := 1, booting := true, bootNum := 1 } }

/-- A stage's work with nothing amiss. -/
def cleanStage : StageResult :=
  { workOk := true, certOk := true, slotAOk := true, slotBOk := true, softMapOk := true, failingClusters := 0, trainedDie0 := true, trainedDie1 := true
    fault := 0 }

end Sys2Proof.Machine

namespace Sys2Proof.Proofs
open Sys2Proof.Machine

/-- Refutes O60: in `lockedBootState` stage 1 passes, and its two journal records draw free values, which the dictionary's state counts:
it is not the one before. -/
theorem not_bootSequence : ¬ Obligations.BootSequence := by
  unfold Obligations.BootSequence
  intro h
  obtain ⟨-, hpass, -⟩ := h
  obtain ⟨-, hone, -⟩ := hpass lockedBootState cleanStage rfl rfl rfl
  obtain ⟨t, ht, -, -, hod⟩ := hone ⟨rfl, rfl, rfl, rfl⟩ rfl rfl
  have hfree := reaches_one_free (r := cleanStage) rfl rfl rfl rfl rfl rfl ht
  rw [hod] at hfree
  omega

end Sys2Proof.Proofs
end

