-- ==== Sys2Proof/Proofs/KeeperRequests.lean ====
section
/-! PROOFS. The Keeper's requests (R545, R546, R552 to R554, R558, R563 to R565, R567 to R570, R572). -/
namespace Sys2Proof.Machine
open Sys2Proof

section
variable {s : State} {r : OdRoute} {c : Instr} {p : Nat} {rep : Reply}

/-! ### A request and its permission (R535, R572) -/

/-- A request of the route's session 0 answers a status without a body. -/
def State.say (t : State) (r : OdRoute) (st : Nat) : State := t.emit (.odReply r 0 st [])

/-- A refused request: the fault, and the response that carries its code. -/
def State.sayNo (t : State) (r : OdRoute) (index code : Nat) : State :=
  (t.raise { code := code, unit := OdRoute.num r, detail := index }).emit (.odReply r 0 9 (leBytes 2 code))

theorem Reply.send_ok {st : Nat} (t : State) (h : st ≠ 9) : (Reply.mk st 0 t).send r 0 = t.say r st := by
  unfold Reply.send
  rw [if_neg h]
  rfl

theorem State.refuse_send (t : State) (index code : Nat) : (t.refuse r index code).send r 0 = t.sayNo r index code := rfl

theorem answers_denied (hr : s.ready = true) (hp : s.permits r p = false) (h : exec c s = reqDone s r (s.secured r p rep)) :
    Answers c s (s.say r 2) := by
  refine answers_congr (answers_whenReady h hr) ?_
  rw [State.secured, if_neg (by rw [hp]; exact Bool.false_ne_true), Reply.send_ok s (by omega)]

theorem answers_permitted (hr : s.ready = true) (hp : s.permits r p = true) (h : exec c s = reqDone s r (s.secured r p rep)) :
    Answers c s (rep.send r 0) := by
  refine answers_congr (answers_whenReady h hr) ?_
  rw [State.secured, if_pos hp]

theorem answers_rep {rep' : Reply} {t : State} (hr : s.ready = true) (hp : s.permits r p = true) (h : exec c s = reqDone s r (s.secured r p rep))
    (hrep : rep = rep') (ht : rep'.send r 0 = t) : Answers c s t :=
  answers_congr (answers_permitted hr hp h) ((congrArg (fun x : Reply => x.send r 0) hrep).trans ht)

theorem answers_status {st : Nat} {t : State} (hr : s.ready = true) (hp : s.permits r p = true) (h : exec c s = reqDone s r (s.secured r p rep))
    (hrep : rep = Reply.mk st 0 t) (hst : st ≠ 9) : Answers c s (t.say r st) :=
  answers_rep hr hp h hrep (Reply.send_ok t hst)

end

/-! ### Fuses (R545, R546, R553, R572) -/

section
variable {s : State} {r : OdRoute}

theorem keyHash_length_le (k : List Byte) : (keyHash k).length ≤ 32 := List.length_take_le 32 _

/-- A verified write burns every bit of a hash. -/
theorem zipWith_and_ones {l : List Byte} {n : Nat} (h : l.length ≤ n) : List.zipWith (· &&& ·) l (copies n 0xFF#8) = l := by
  refine List.ext_getElem (by simp [copies, h]) (fun i h1 h2 => ?_)
  rw [List.getElem_zipWith]
  simp only [copies, List.getElem_replicate]
  exact BitVec.and_allOnes

theorem State.fuseDone_ok (t : State) (index : Nat) : (t.fuseDone r index true).send r 0 = t.say r 0 := Reply.send_ok t (by omega)

theorem State.fuseDone_bad (t : State) (index : Nat) : (t.fuseDone r index false).send r 0 = t.sayNo r index fltKprFuse := rfl

theorem State.sayNo_head (t : State) (index code : Nat) : (t.sayNo r index code).out.head? = some (.odReply r 0 9 (leBytes 2 code)) := rfl

@[simp] theorem State.sayNo_fuses (t : State) (index code : Nat) : (t.sayNo r index code).fuses = t.fuses := by
  rw [State.sayNo, State.emit, State.raise_fuses]

/-- The owner's key hash `k` after a write that verifies or not. -/
def State.burned (s : State) (k : Nat) (b : List Byte) : State :=
  { s with fuses := { s.fuses with ownerHash := tset none s.fuses.ownerHash k (some (orBytes ((tget none s.fuses.ownerHash k).getD []) b)) } }

theorem State.burned_same (k : Nat) (b : List Byte) : tget none (s.burned k b).fuses.ownerHash k =
    some (orBytes ((tget none s.fuses.ownerHash k).getD []) b) := by
  unfold State.burned
  dsimp only
  exact tget_tset_same (none : Option (List Byte)) _ _ _

theorem State.burned_ne {k i : Nat} (h : i ≠ k) (b : List Byte) : tget none (s.burned k b).fuses.ownerHash i = tget none s.fuses.ownerHash i := by
  unfold State.burned
  dsimp only
  exact tget_tset_ne (none : Option (List Byte)) _ _ h

section
variable {k : Nat} {b : List Byte}

theorem State.burnKey_locked (h : s.fuses.ownerLock = true ∨ 4 ≤ k) (v : Bool) : s.burnKey r k b v = ⟨2, 0, s⟩ := by
  unfold State.burnKey
  refine if_pos ?_
  rw [Bool.or_eq_true, decide_eq_true_iff]
  exact h

theorem State.burnKey_open (hl : s.fuses.ownerLock = false) (hk : k < 4) :
    ¬ (s.fuses.ownerLock || decide (4 ≤ k)) = true := by
  rw [hl, Bool.false_or, decide_eq_true_iff]
  omega

theorem State.burnKey_length (hl : s.fuses.ownerLock = false) (hk : k < 4) (hb : b.length ≠ 32) (v : Bool) : s.burnKey r k b v = ⟨4, 0, s⟩ := by
  unfold State.burnKey
  rw [if_neg (State.burnKey_open hl hk), if_pos hb]

theorem State.burnKey_verified (hl : s.fuses.ownerLock = false) (hk : k < 4) (hb : b.length = 32) :
    s.burnKey r k b true = (s.burned k (keyHash b)).fuseDone r 0x7012 true := by
  unfold State.burnKey
  rw [if_neg (State.burnKey_open hl hk), if_neg (not_not.mpr hb)]
  dsimp only
  rw [if_pos rfl, if_pos rfl, zipWith_and_ones (keyHash_length_le b)]
  rfl

theorem State.burnKey_unverified (hl : s.fuses.ownerLock = false) (hk : k < 4) (hb : b.length = 32) :
    ∃ x, s.burnKey r k b false = ((s.draw 256).2.burned k x).fuseDone r 0x7012 false := by
  unfold State.burnKey
  rw [if_neg (State.burnKey_open hl hk), if_neg (not_not.mpr hb)]
  exact ⟨_, rfl⟩

end

/-! #### The owner's bits -/

/-- The fuses after a write of an owner's bits through a mask. -/
def Fuses.withOwner (u : Fuses) (f : OwnerFuse) (m : Nat) : Fuses :=
  match f with
  | .ownerLock => { u with ownerLock := u.ownerLock || bit m 0 }
  | .imagesRequired => { u with imagesRequired := u.imagesRequired || bit m 0 }
  | .vendorDebugDisable => { u with vendorDebugOff := u.vendorDebugOff || bit m 0 }
  | .revocation mask => { u with ownerRevoked := u.ownerRevoked ||| (mask % 16 &&& m) }

theorem State.setFuse_verified (f : OwnerFuse) : (s.setFuse r f true).send r 0 = { s with fuses := s.fuses.withOwner f 15 }.say r 0 :=
  Reply.send_ok _ (by omega)

theorem State.setFuse_unverified (f : OwnerFuse) : ∃ m, (s.setFuse r f false).send r 0 =
    { (s.draw 4).2 with fuses := s.fuses.withOwner f m }.sayNo r 0x7012 fltKprFuse := ⟨_, rfl⟩

/-- What a write of an owner's bits leaves: a bit, once set, stays. -/
theorem Fuses.withOwner_keeps (u : Fuses) (f : OwnerFuse) (m : Nat) : (u.ownerLock = true → (u.withOwner f m).ownerLock = true) ∧
    (u.imagesRequired = true → (u.withOwner f m).imagesRequired = true) ∧
    (∀ i, bit u.ownerRevoked i = true → bit (u.withOwner f m).ownerRevoked i = true) ∧
    (u.withOwner f m).vendorHash = u.vendorHash ∧ (u.withOwner f m).svn = u.svn := by
  cases f with
  | ownerLock => exact ⟨fun h => by rw [Fuses.withOwner, h, Bool.true_or], id, fun _ => id, rfl, rfl⟩
  | imagesRequired => exact ⟨id, fun h => by rw [Fuses.withOwner, h, Bool.true_or], fun _ => id, rfl, rfl⟩
  | vendorDebugDisable => exact ⟨id, id, fun _ => id, rfl, rfl⟩
  | revocation mask =>
    refine ⟨id, id, fun i h => ?_, rfl, rfl⟩
    rw [bit_eq_testBit] at h ⊢
    rw [Fuses.withOwner, Nat.testBit_or, h, Bool.true_or]

theorem and_fifteen (n : Nat) : n % 16 &&& 15 = n % 16 := by
  rw [show (15 : Nat) = 2 ^ 4 - 1 from rfl, Nat.and_two_pow_sub_one_eq_mod, Nat.mod_mod]

/-! #### Minimum versions and revocation -/

section
variable {n : Nat}

theorem State.advanceSvn_kind (h : n < 1 ∨ 3 < n) (v : Bool) : s.advanceSvn r n v = ⟨3, 0, s⟩ := if_pos h

theorem State.advanceSvn_none (h1 : 1 ≤ n) (h3 : n ≤ 3) (hc : tget none s.flash.slots (n * 2 + tget 0 s.boot.from2 n) = none) (v : Bool) :
    s.advanceSvn r n v = s.refuse r 0x7020 fltBootVerify := by
  unfold State.advanceSvn
  rw [if_neg (by omega), hc]

theorem State.advanceSvn_early {x : Container} (h1 : 1 ≤ n) (h3 : n ≤ 3)
    (hc : tget none s.flash.slots (n * 2 + tget 0 s.boot.from2 n) = some x) (h9 : s.boot.stage ≠ 9) (v : Bool) :
    s.advanceSvn r n v = s.refuse r 0x7020 fltBootRollback := by
  unfold State.advanceSvn
  rw [if_neg (by omega), hc]
  exact if_neg h9

theorem State.advanceSvn_verified {x : Container} (h1 : 1 ≤ n) (h3 : n ≤ 3)
    (hc : tget none s.flash.slots (n * 2 + tget 0 s.boot.from2 n) = some x) (h9 : s.boot.stage = 9) : s.advanceSvn r n true =
      State.fuseDone { s with fuses := { s.fuses with svn := tset 0 s.fuses.svn n (max (tget 0 s.fuses.svn n) x.svn) } } r 0x7020 true := by
  unfold State.advanceSvn
  rw [if_neg (by omega), hc]
  exact if_pos h9

end

theorem State.revoke_refused {c : Container} (h : s.containerOk c 5 = false ∨ bit (leNat (c.payload.take 1) % 16) c.key = true) (v : Bool) :
    s.revoke r c v = s.refuse r 0x7020 fltBootVerify := by
  unfold State.revoke
  refine if_neg ?_
  rw [Bool.and_eq_true, Bool.not_eq_true']
  rintro ⟨h1, h2⟩
  rcases h with h | h
  · exact absurd (h.symm.trans h1) Bool.false_ne_true
  · exact absurd (h2.symm.trans h) Bool.false_ne_true

theorem State.revoke_verified {c : Container} (h : s.containerOk c 5 = true) (hk : bit (leNat (c.payload.take 1) % 16) c.key = false) :
    s.revoke r c true =
      State.fuseDone { s with fuses := { s.fuses with vendorRevoked := s.fuses.vendorRevoked ||| leNat (c.payload.take 1) % 16 } } r 0x7020 true := by
  unfold State.revoke
  dsimp only
  rw [if_pos (by rw [h, hk]; rfl), if_pos rfl, if_pos rfl]

/-! ### Attestation (R567, R568) -/

section
variable {b : List Byte}

theorem State.attest_length (h : b.length ≠ 32) : s.attest r b = ⟨4, 0, s⟩ := if_pos h

theorem State.attest_busy (h : b.length = 32) (hn : 10 ≤ tget 0 s.kpr.reports (OdRoute.num r)) : s.attest r b = s.refuse r 0x7001 fltKprBusy := by
  unfold State.attest
  dsimp only
  rw [if_neg (not_not.mpr h), if_pos hn]

/-- The report given. -/
def State.attested (s : State) (r : OdRoute) (b : List Byte) : State :=
  { s with kpr := { s.kpr with
    report := s.reportBody b ++ padTo 64 (Config.deviceSign (s.reportBody b)), signed := (s.kpr.signed + 1) % 2 ^ 64
    reports := tset 0 s.kpr.reports (OdRoute.num r) (tget 0 s.kpr.reports (OdRoute.num r) + 1) } }

theorem State.attested_kpr : (s.attested r b).kpr.report = s.reportBody b ++ padTo 64 (Config.deviceSign (s.reportBody b)) ∧
    (s.attested r b).kpr.signed = (s.kpr.signed + 1) % 2 ^ 64 ∧
    tget 0 (s.attested r b).kpr.reports (OdRoute.num r) = tget 0 s.kpr.reports (OdRoute.num r) + 1 := by
  unfold State.attested
  dsimp only
  exact ⟨rfl, rfl, tget_tset_same 0 _ _ _⟩

theorem State.attest_reports (h : b.length = 32) (hn : tget 0 s.kpr.reports (OdRoute.num r) < 10) : s.attest r b = ⟨0, 0, s.attested r b⟩ := by
  unfold State.attest
  dsimp only
  rw [if_neg (not_not.mpr h), if_neg (by omega)]
  rfl

/-- A report begins with its magic and version, then the nonce. -/
theorem State.reportBody_head (b : List Byte) : ∃ rest, s.reportBody b = (ascii "QSAT" ++ leBytes 2 1 ++ leBytes 2 0) ++ (padTo 32 b ++ rest) := by
  unfold State.reportBody
  dsimp only
  simp only [List.append_assoc]
  exact ⟨_, rfl⟩

theorem reportHead_length : (ascii "QSAT" ++ leBytes 2 1 ++ leBytes 2 0).length = 8 := by decide

theorem State.reportBody_magic (b : List Byte) : (s.reportBody b).take 4 = ascii "QSAT" := by
  obtain ⟨rest, h⟩ := s.reportBody_head b
  rw [h, List.append_assoc, List.append_assoc]
  exact List.take_left' (by decide)

theorem State.reportBody_nonce (h : b.length = 32) : ((s.reportBody b).drop 8).take 32 = b := by
  obtain ⟨rest, hr⟩ := s.reportBody_head b
  rw [hr, List.drop_left' reportHead_length, padTo_of_length h]
  exact List.take_left' h

end

theorem reaches_attestation (hr : s.ready = true) (hp : s.permits r 1 = true) (h : b.length = 32) (hn : tget 0 s.kpr.reports (OdRoute.num r) < 10) :
    Reaches (.attestationRequest r b) s (fun t => t.kpr = (s.attested r b).kpr ∧ t.fuses = s.fuses ∧ t.flash = s.flash ∧
      t.out = .odReply r 0 0 [] :: s.out) := by
  have hans : Answers (.attestationRequest r b) s ((s.attested r b).say r 0) :=
    answers_congr (answers_permitted hr hp rfl) (by rw [State.attest_reports h hn, Reply.send_ok _ (by omega)])
  exact reaches_of_answers hans ⟨rfl, rfl, rfl, rfl⟩

/-! ### Stage counts, stored configuration and firmware updates (R554, R558, R565) -/

theorem State.saveConfig_large (h : 2 ^ 24 < ((s.od.values.filterMap (fun p => p.2.map (fun v => (p.1, v)))).flatMap
    (fun p => leBytes 4 p.1 ++ leBytes 2 p.2.length ++ p.2)).length) : s.saveConfig r = s.refuse r 0x7050 fltBootStore := if_pos h

theorem State.saveConfig_saves (h : ((s.od.values.filterMap (fun p => p.2.map (fun v => (p.1, v)))).flatMap
    (fun p => leBytes 4 p.1 ++ leBytes 2 p.2.length ++ p.2)).length ≤ 2 ^ 24) : ∃ d l i, s.saveConfig r = ⟨0, 0, { s with flash := { s.flash with
      stored := some (s.od.values.filterMap (fun p => p.2.map (fun v => (p.1, v)))), storedDigest := d, storedImages := l, images := i } }⟩ :=
  ⟨_, _, _, if_neg (Nat.not_lt.mpr h)⟩

section
variable {c : Container} {kind : Nat} (hkind : s.kpr.updTarget % 16 = kind)
include hkind

/-- An update refused: its state shows it. -/
theorem State.update_unverified (h : kind < 1 ∨ 3 < kind ∨ s.containerOk c kind = false) :
    s.update r c = State.refuse { s with kpr := { s.kpr with updState := 3 } } r 0x7060 fltBootVerify := by
  unfold State.update
  dsimp only
  rw [hkind, if_pos (by rwa [Bool.not_eq_true'])]

variable (h1 : 1 ≤ kind) (h3 : kind ≤ 3) (hok : s.containerOk c kind = true)
include h1 h3 hok

theorem State.update_taken : ¬ (kind < 1 ∨ 3 < kind ∨ (!s.containerOk c kind) = true) := by
  rw [hok]
  rintro (h | h | h)
  · omega
  · omega
  · exact Bool.false_ne_true h

theorem State.update_old (h : c.svn < tget 0 s.fuses.svn kind) :
    s.update r c = State.refuse { s with kpr := { s.kpr with updState := 3 } } r 0x7060 fltBootRollback := by
  unfold State.update
  dsimp only
  rw [hkind, if_neg (State.update_taken hkind h1 h3 hok), if_pos h]

theorem State.update_running (h : tget 0 s.fuses.svn kind ≤ c.svn) (hs : tget 0 s.boot.from2 kind = bits s.kpr.updTarget 4 4) :
    s.update r c = State.refuse { s with kpr := { s.kpr with updState := 3 } } r 0x7060 fltBootUpdate := by
  unfold State.update
  dsimp only
  rw [hkind, if_neg (State.update_taken hkind h1 h3 hok), if_neg (by omega), if_pos hs]

theorem State.update_begins (h : tget 0 s.fuses.svn kind ≤ c.svn) (hs : tget 0 s.boot.from2 kind ≠ bits s.kpr.updTarget 4 4) :
    s.update r c = ⟨0, 0, { s with kpr := { s.kpr with updState := 1, updData := some c }, flash := { s.flash with slots := tset none s.flash.slots (kind * 2 + bits s.kpr.updTarget 4 4) none } }⟩ := by
  unfold State.update
  dsimp only
  rw [hkind, if_neg (State.update_taken hkind h1 h3 hok), if_neg (by omega), if_neg hs]

end

/-! ### Debug unlock (R569, R570) -/

section
variable {d : DebugResp}

theorem State.responseOk_other (h : s.kpr.chalRoute ≠ some d.route) : s.responseOk d = false := by
  unfold State.responseOk
  rw [beq_eq_false_iff_ne.mpr h]
  rfl

/-- Scope 4 needs a vendor key, and vendor debug that is not disabled. -/
theorem State.responseOk_scope (hs : bit s.kpr.chalScope 4 = true) (h : bit d.keyByte 2 = false ∨ s.fuses.vendorDebugOff = true) :
    s.responseOk d = false := by
  have hvendor : (bit d.keyByte 2 && !s.fuses.vendorDebugOff) = false := by
    rcases h with h | h
    · rw [h, Bool.false_and]
    · rw [h]
      exact Bool.and_false _
  unfold State.responseOk
  dsimp only
  rw [hs, hvendor]
  exact (congrArg (· && _) (Bool.and_false _)).trans (Bool.false_and _)

theorem State.challenge_head (route scope : Nat) : (s.challenge route scope).kpr.challenge.take 8 =
    ascii "QSDC" ++ leBytes 2 1 ++ leBytes 1 scope ++ leBytes 1 route := by
  unfold State.challenge
  dsimp only
  rw [List.append_assoc, List.append_assoc]
  refine List.take_left' ?_
  simp only [List.length_append, leBytes_length]
  rfl

theorem State.respond_granted (hl : s.kpr.lockout = false) (hok : s.responseOk d = true) : s.respond d = State.raise { s with kpr := { s.kpr with
    scopes := s.kpr.scopes ||| s.kpr.chalScope, grantedEver := s.kpr.grantedEver ||| s.kpr.chalScope, chalRoute := none, accepted := true, rejected := false } }
    { code := evtKprDebug, unit := d.route, detail := 0x7040 } := by
  unfold State.respond
  rw [if_neg (by rw [hl]; exact Bool.false_ne_true), if_pos hok]

theorem State.respond_rejected (hl : s.kpr.lockout = false) (hok : s.responseOk d = false) : s.respond d = { s with kpr := { s.kpr with
    chalRoute := none, accepted := false, rejected := true
    rejects := if s.kpr.rejects + 1 = 3 then 0 else s.kpr.rejects + 1, lockout := decide (s.kpr.rejects + 1 = 3) } } := by
  unfold State.respond
  rw [if_neg (by rw [hl]; exact Bool.false_ne_true), if_neg (by rw [hok]; exact Bool.false_ne_true)]

/-- The rejection before the third one, and the third one. -/
theorem State.respond_counts (hl : s.kpr.lockout = false) (hok : s.responseOk d = false) :
    (s.kpr.rejects ≠ 2 → s.respond d = { s with kpr := { s.kpr with
      chalRoute := none, accepted := false, rejected := true, rejects := s.kpr.rejects + 1, lockout := false } }) ∧
    (s.kpr.rejects = 2 → s.respond d = { s with kpr := { s.kpr with
      chalRoute := none, accepted := false, rejected := true, rejects := 0, lockout := true } }) := by
  rw [State.respond_rejected hl hok]
  refine ⟨fun h => ?_, fun h => ?_⟩
  · rw [if_neg (by omega), decide_eq_false (by omega)]
  · rw [if_pos (by omega), decide_eq_true (by omega)]

end

/-! ### The requests as commands -/

section
variable {n : Nat} {b : List Byte} (hr : s.ready = true) (hp : s.permits r 4 = true)
include hr hp

theorem reaches_burnKey_unverified (hl : s.fuses.ownerLock = false) (hk : n < 4) (hb : b.length = 32) : Reaches (.ownerKeyBurn r n b false) s (fun t =>
    t.out.head? = some (.odReply r 0 9 (leBytes 2 fltKprFuse)) ∧
    (∀ i, i ≠ n → tget none t.fuses.ownerHash i = tget none s.fuses.ownerHash i) ∧
    ∃ x, tget none t.fuses.ownerHash n = some (orBytes ((tget none s.fuses.ownerHash n).getD []) x)) := by
  obtain ⟨x, hx⟩ := State.burnKey_unverified (r := r) hl hk hb
  obtain ⟨u, hu⟩ : ∃ u, u = (s.draw 256).2.burned n x := ⟨_, rfl⟩
  have hans : Answers (.ownerKeyBurn r n b false) s (u.sayNo r 0x7012 fltKprFuse) :=
    answers_rep hr hp rfl hx (hu ▸ State.fuseDone_bad _ _)
  have hfuses := State.sayNo_fuses (r := r) u 0x7012 fltKprFuse
  refine reaches_of_answers hans ⟨State.sayNo_head u _ _, fun i hi => ?_, x, ?_⟩
  · refine (congrArg (fun f : Fuses => tget none f.ownerHash i) hfuses).trans ?_
    rw [hu]
    exact State.burned_ne (s := (s.draw 256).2) hi x
  · refine (congrArg (fun f : Fuses => tget none f.ownerHash n) hfuses).trans ?_
    rw [hu]
    exact State.burned_same (s := (s.draw 256).2) n x

theorem answers_setFuse (f : OwnerFuse) {u : Fuses} (hu : s.fuses.withOwner f 15 = u) :
    Answers (.ownerFuseSet r f true) s ({ s with fuses := u }.say r 0) :=
  hu ▸ answers_rep hr hp rfl rfl (State.setFuse_verified f)

theorem reaches_setFuse_unverified (f : OwnerFuse) : Reaches (.ownerFuseSet r f false) s (fun t =>
    t.out.head? = some (.odReply r 0 9 (leBytes 2 fltKprFuse)) ∧ (s.fuses.ownerLock = true → t.fuses.ownerLock = true) ∧
    (s.fuses.imagesRequired = true → t.fuses.imagesRequired = true) ∧ (∀ i, bit s.fuses.ownerRevoked i = true → bit t.fuses.ownerRevoked i = true) ∧
    t.fuses.vendorHash = s.fuses.vendorHash ∧ t.fuses.svn = s.fuses.svn) := by
  obtain ⟨m, hm⟩ := State.setFuse_unverified (s := s) (r := r) f
  obtain ⟨u, hu⟩ : ∃ u : State, u = { (s.draw 4).2 with fuses := s.fuses.withOwner f m } := ⟨_, rfl⟩
  rw [← hu] at hm
  have hfuses := (State.sayNo_fuses (r := r) u 0x7012 fltKprFuse).trans (congrArg State.fuses hu)
  refine reaches_of_answers (answers_rep hr hp rfl rfl hm) ⟨State.sayNo_head u _ _, ?_⟩
  have hkeeps := s.fuses.withOwner_keeps f m
  rw [← (show _ = s.fuses.withOwner f m from hfuses)] at hkeeps
  exact hkeeps

theorem reaches_stageCountReset (h1 : 1 ≤ n) (h9 : n ≤ 9) : Reaches (.stageCountReset r n) s (fun t =>
    tget 0 t.boot.counts n = 0 ∧ tget false t.boot.latched n = false ∧
    (∀ m, m ≠ n → tget 0 t.boot.counts m = tget 0 s.boot.counts m ∧ tget false t.boot.latched m = tget false s.boot.latched m) ∧
    (∃ ms, t.flash.journal.head? = some {
      boot := s.boot.bootNum, stage := n, outcome := 6, count := 0, cause := s.boot.cause, fault := 0, detail := 0, bitmap := 0, ms := ms }) ∧ t.out = .odReply r 0 0 [] :: s.out) := by
  obtain ⟨u, hu⟩ : ∃ u, u = s.resetCount n := ⟨_, rfl⟩
  have hcounts : u.boot.counts = tset 0 s.boot.counts n 0 ∧ u.boot.latched = tset false s.boot.latched n false ∧ u.out = s.out := by
    rw [hu]
    exact ⟨rfl, rfl, rfl⟩
  obtain ⟨hc, hl, hout⟩ := hcounts
  have hjour : ∃ ms, u.flash.journal.head? = some {
      boot := s.boot.bootNum, stage := n, outcome := 6, count := 0, cause := s.boot.cause, fault := 0, detail := 0, bitmap := 0, ms := ms } := by
    rw [hu]
    exact ⟨_, rfl⟩
  have hans : Answers (.stageCountReset r n) s (u.say r 0) := answers_status hr hp rfl ((if_pos ⟨h1, h9⟩).trans (by rw [hu])) (by omega)
  refine reaches_of_answers hans ⟨?_, ?_, fun m hm => ⟨?_, ?_⟩, hjour, congrArg _ hout⟩
  · exact (congrArg (fun x => tget 0 x n) hc).trans (tget_tset_same 0 _ _ _)
  · exact (congrArg (fun x => tget false x n) hl).trans (tget_tset_same false _ _ _)
  · exact (congrArg (fun x => tget 0 x m) hc).trans (tget_tset_ne 0 _ _ hm)
  · exact (congrArg (fun x => tget false x m) hl).trans (tget_tset_ne false _ _ hm)

theorem reaches_configSave (h : ((s.od.values.filterMap (fun p => p.2.map (fun v => (p.1, v)))).flatMap
    (fun p => leBytes 4 p.1 ++ leBytes 2 p.2.length ++ p.2)).length ≤ 2 ^ 24) : Reaches (.configSave r) s (fun t =>
    t.flash.stored = some (s.od.values.filterMap (fun p => p.2.map (fun v => (p.1, v)))) ∧ t.od.values = s.od.values ∧
    t.flash.slots = s.flash.slots ∧ t.flash.journal = s.flash.journal ∧ t.out = .odReply r 0 0 [] :: s.out) := by
  obtain ⟨d, l, i, hsave⟩ := State.saveConfig_saves (r := r) h
  exact reaches_of_answers (answers_status hr hp rfl hsave (by omega)) ⟨rfl, rfl, rfl, rfl, rfl⟩

end

theorem reaches_debugChallenge {route scope : Nat} (hup : s.up = true) (h : route < 4) (hl : s.kpr.lockout = false) :
    Reaches (.debugChallengeRequest route scope) s (fun t => t.kpr.chalRoute = some route ∧ t.kpr.chalScope = scope % 32 ∧
      t.kpr.scopes = s.kpr.scopes ∧ t.out = s.out ∧
      t.kpr.challenge.take 8 = ascii "QSDC" ++ leBytes 2 1 ++ leBytes 1 (scope % 32) ++ leBytes 1 route) := by
  have hask : s.askChallenge route scope = s.challenge route (scope % 32) := by
    unfold State.askChallenge
    rw [if_neg (by omega), if_neg (by rw [hl]; exact Bool.false_ne_true)]
  exact reaches_of_answers (answers_congr (answers_whenUp rfl hup) hask) ⟨rfl, rfl, rfl, rfl, State.challenge_head route (scope % 32)⟩

end

end Sys2Proof.Machine

namespace Sys2Proof.Proofs
open Sys2Proof.Machine

/-- Settles O59. -/
theorem keeperRequests : Obligations.KeeperRequests := by
  unfold Obligations.KeeperRequests
  refine ⟨fun s r n b f ok c hr => ?_, fun s route scope d hup => ?_⟩
  · refine ⟨fun hp => answers_denied hr hp rfl, fun hp i hi => ?_, fun hp => ⟨fun h => ?_, fun h hn => ?_, fun h hn => ?_⟩, fun hp => ?_⟩
    · simp only [List.mem_cons, List.not_mem_nil, or_false] at hi
      rcases hi with rfl | rfl | rfl | rfl | rfl | rfl | rfl | rfl | rfl
      all_goals exact answers_denied hr hp rfl
    · exact answers_congr (answers_permitted hr hp rfl) (by rw [State.attest_length h, Reply.send_ok s (by omega)]; rfl)
    · exact answers_congr (answers_permitted hr hp rfl) (by rw [State.attest_busy h hn]; rfl)
    · obtain ⟨t, ht, hkpr, hrest⟩ := reaches_attestation hr hp h hn
      obtain ⟨hreport, hsigned, hreports⟩ := State.attested_kpr (s := s) (r := r) (b := b)
      rw [← hkpr] at hreport hsigned hreports
      exact ⟨t, ht, hreport, State.reportBody_magic b, State.reportBody_nonce h, hsigned, hreports, hrest⟩
    · exact ⟨fun h => answers_status hr hp rfl (State.burnKey_locked h ok) (by omega),
        fun hl hk hb => answers_status hr hp rfl (State.burnKey_length hl hk hb ok) (by omega),
        fun hl hk hb => ⟨answers_rep hr hp rfl (State.burnKey_verified hl hk hb) (State.fuseDone_ok _ _), reaches_burnKey_unverified hr hp hl hk hb⟩,
        answers_setFuse hr hp .ownerLock (by rw [Fuses.withOwner]; exact congrArg (fun x => { s.fuses with ownerLock := x }) (Bool.or_true _)),
        answers_setFuse hr hp .imagesRequired (by rw [Fuses.withOwner]; exact congrArg (fun x => { s.fuses with imagesRequired := x }) (Bool.or_true _)),
        answers_setFuse hr hp .vendorDebugDisable (by rw [Fuses.withOwner]; exact congrArg (fun x => { s.fuses with vendorDebugOff := x }) (Bool.or_true _)),
        answers_setFuse hr hp (.revocation n) (by rw [Fuses.withOwner, and_fifteen]),
        reaches_setFuse_unverified hr hp f,
        fun h => answers_status hr hp rfl (State.advanceSvn_kind h ok) (by omega),
        fun h1 h3 => ⟨fun h => answers_rep hr hp rfl (State.advanceSvn_none h1 h3 h ok) rfl,
          fun x h => ⟨fun h9 => answers_rep hr hp rfl (State.advanceSvn_early h1 h3 h h9 ok) rfl,
            fun h9 => answers_rep hr hp rfl (State.advanceSvn_verified h1 h3 h h9) (State.fuseDone_ok _ _)⟩⟩,
        ⟨fun h => answers_rep hr hp rfl (State.revoke_refused h ok) rfl,
          fun h hk => answers_rep hr hp rfl (State.revoke_verified h hk) (State.fuseDone_ok _ _)⟩,
        answers_status hr hp rfl rfl (by omega),
        fun h => answers_status hr hp rfl (if_neg (by omega)) (by omega),
        fun h1 h9 => reaches_stageCountReset hr hp h1 h9,
        answers_status hr hp rfl rfl (by omega),
        ⟨fun h => answers_rep hr hp rfl (State.saveConfig_large h) rfl, fun h => reaches_configSave hr hp h⟩,
        ⟨fun h => answers_rep hr hp rfl (State.update_unverified rfl h) rfl,
          fun h1 h3 hok => ⟨fun h => answers_rep hr hp rfl (State.update_old rfl h1 h3 hok h) rfl,
            fun h hs => answers_rep hr hp rfl (State.update_running rfl h1 h3 hok h hs) rfl,
            fun h hs => answers_status hr hp rfl (State.update_begins rfl h1 h3 hok h hs) (by omega)⟩,
          fun h => answers_congr (answers_whenReady rfl hr) (if_pos h), fun h => answers_congr (answers_whenReady rfl hr) (if_neg h)⟩⟩
  · exact ⟨fun h => answers_congr (answers_whenUp rfl hup) (if_pos h),
      fun h hl => answers_congr (answers_whenUp rfl hup) ((if_neg (by omega)).trans (if_pos hl)),
      fun h hl => reaches_debugChallenge hup h hl,
      fun hl => answers_congr (answers_whenUp rfl hup) (if_pos hl),
      fun hl hok => answers_congr (answers_whenUp rfl hup) (State.respond_granted hl hok),
      fun hl hok => ⟨fun h => answers_congr (answers_whenUp rfl hup) ((State.respond_counts hl hok).1 h),
        fun h => answers_congr (answers_whenUp rfl hup) ((State.respond_counts hl hok).2 h)⟩,
      answers_whenUp rfl hup, State.responseOk_other, State.responseOk_scope⟩

end Sys2Proof.Proofs
end

