-- ==== Sys2Proof/Proofs/PcieHost.lean ====
section
/-! PROOFS. A BAR2 read over two lines of one cache set, on a table of cached lines that lists a line twice (R373 to R375, R510, R516). -/
namespace Sys2Proof.Machine
open Sys2Proof

section
variable {s t : State} {l line port ways : Nat}

/-! ### A line that a read spoils for the lines behind it -/

/-- Line `l` fails its check in DRAM and is not cached; the other cached lines are sound, no merge entry is open, and every page is Class R. -/
structure State.Spoiled (s : State) (l : Nat) : Prop where
  failing : s.lineFails l = true
  cached : ∀ p ∈ s.mem.cache, p.1 ≠ l ∧ ∀ c, p.2 = some c → c.bad = false
  merges : ∀ n, (s.chan n).merges = []
  cls : ∀ a, s.classOf a = 0
  lostLines : s.mem.lostLines = []

namespace State.Spoiled

theorem entryOf (h : s.Spoiled l) (x : Nat) : s.entryOf x = none := by
  rw [State.entryOf, h.merges]
  rfl

theorem not_cached (h : s.Spoiled l) : tget none s.mem.cache l = none := by
  by_contra hne
  exact (h.cached _ (mem_of_tget_ne hne)).1 rfl

theorem of_same (h : s.Spoiled l) (ht : s.MemStep t) (hf : t.mem.failing = s.mem.failing) (hc : t.mem.cache = s.mem.cache)
    (hm : ∀ n, (t.chan n).merges = (s.chan n).merges) (hl : t.mem.lostLines = s.mem.lostLines) : t.Spoiled l :=
  ⟨(congrArg (fun x => tget false x l) hf).trans h.failing, fun p hp => h.cached p (hc ▸ hp), fun n => (hm n).trans (h.merges n),
    fun a => (ht.classOf a).trans (h.cls a), hl.trans h.lostLines⟩

theorem modChan (h : s.Spoiled l) (n : Nat) {f : DramChan → DramChan} (hf : ∀ c, (f c).merges = c.merges) : (s.modChan n f).Spoiled l := by
  refine h.of_same (s.memStep_modChan n f) rfl rfl (fun m => ?_) rfl
  by_cases hmn : m = n
  · rw [hmn, State.modChan_chan, hf]
  · rw [State.modChan_chan_ne (h := hmn)]

theorem modSlice (h : s.Spoiled l) (n : Nat) (f : SliceCnt → SliceCnt) : (s.modSlice n f).Spoiled l :=
  h.of_same (s.memStep_modSlice n f) rfl rfl (fun _ => rfl) rfl

theorem dramRead (h : s.Spoiled l) (port line : Nat) : (s.dramRead port line).Spoiled l :=
  (h.modChan (chanOf line) (f := fun c => { c with readBytes := (c.readBytes + 64) % 2 ^ 64 }) (fun _ => rfl)).of_same
    (State.memStep_modPortStat _ _ _) rfl rfl (fun _ => rfl) rfl

theorem dramWrite (h : s.Spoiled l) (line : Nat) : (s.dramWrite line).Spoiled l := by
  have hw : ∀ c : DramChan, ({ c with writeBytes := (c.writeBytes + 64) % 2 ^ 64 } : DramChan).merges = c.merges := fun _ => rfl
  unfold State.dramWrite
  dsimp only
  split
  · exact (h.modChan _ hw).modChan _ hw
  · exact h.modChan _ hw

theorem writeBack (h : s.Spoiled l) (hne : line ≠ l) (c : CacheLine) : (s.writeBack line c).Spoiled l := by
  have hw := h.dramWrite line
  have hf : ((s.dramWrite line).setFails line c.bad).Spoiled l := by
    refine ⟨?_, hw.cached, hw.merges, fun a => (State.memStep_setFails _ _ _).classOf a |>.trans (hw.cls a), hw.lostLines⟩
    rw [State.setFails_lineFails, if_neg (Ne.symm hne)]
    exact hw.failing
  exact hf.modSlice _ _

theorem putLine (h : s.Spoiled l) (hne : line ≠ l) {c : Option CacheLine} (hc : ∀ x, c = some x → x.bad = false) : (s.putLine line c).Spoiled l := by
  refine ⟨h.failing, fun p hp => ?_, h.merges, fun a => ((s.memStep_putLine line c).classOf a).trans (h.cls a), h.lostLines⟩
  rcases mem_of_mem_tset hp with rfl | hp
  · exact ⟨hne, hc⟩
  · exact h.cached p hp

/-- A cached line is not the spoiled one. -/
theorem setLines_ne (h : s.Spoiled l) {v : Nat × CacheLine} (hv : v ∈ s.setLines line) : v.1 ≠ l := by
  rw [State.setLines, List.mem_filterMap] at hv
  obtain ⟨p, hp, hpv⟩ := hv
  split at hpv
  · split at hpv
    · rw [← Option.some.inj hpv]
      exact (h.cached p hp).1
    · exact absurd hpv (by simp)
  · exact absurd hpv (by simp)

theorem cacheAlloc (h : s.Spoiled l) (hne : line ≠ l) (ways : Nat) : (s.cacheAlloc line ways false).Spoiled l := by
  have hnew : ∀ w u x, some ({ way := w, dirty := false, use := u } : CacheLine) = some x → x.bad = false := fun w u x hx => by
    rw [← Option.some.inj hx]
  unfold State.cacheAlloc
  dsimp only
  split
  · exact h.putLine hne (hnew _ _)
  · split
    · exact h
    · next v hv =>
      obtain ⟨x, hx, hxv, -⟩ := minBy_spec (fun c : Nat × CacheLine => c.2.use) (l := (s.setLines line).filter (fun c => bit ways c.2.way))
        (fun hnil => by rw [hnil] at hv; exact absurd hv (by simp [minBy]))
      rw [hv] at hxv
      have hvl : v.1 ≠ l := h.setLines_ne (Option.some.inj hxv ▸ (List.mem_filter.mp hx).1)
      refine State.Spoiled.putLine (State.Spoiled.putLine ?_ hvl (fun _ hx => absurd hx (by simp))) hne (hnew _ _)
      split
      · exact h.writeBack hvl _
      · exact h

/-- A line that fails twice in a Class R page is left to its consumer. -/
theorem testLine (h : s.Spoiled l) (hin : inSaddle line = true) : s.testLine port line noErrors = (.ok, s) ∧ line ≠ l ∨
    ∃ t, s.testLine port line noErrors = (.failedR, t) ∧ t.mem.lostLines = [] := by
  cases hf : s.lineFails line with
  | false =>
    refine Or.inl ⟨State.testLine_good port hf rfl, fun heq => ?_⟩
    rw [heq, h.failing] at hf
    exact absurd hf (by decide)
  | true =>
    refine Or.inr ⟨(s.readTwice line).intCount line 4, ?_, (s.readTwice_lostLines line).trans h.lostLines⟩
    rw [State.testLine_twice port hin (Or.inl hf), h.cls, if_neg (by decide), if_neg (by decide)]

theorem readMiss (h : s.Spoiled l) (hin : inSaddle line = true) : (∃ t, s.readMiss port ways line noErrors = (.ok, t) ∧ t.Spoiled l ∧ line ≠ l) ∨
    ∃ t, s.readMiss port ways line noErrors = (.failedR, t) ∧ t.mem.lostLines = [] := by
  unfold State.readMiss
  rcases (h.dramRead port line).testLine (port := port) hin with ⟨ht, hne⟩ | ⟨t, ht, hl⟩
  · rw [ht]
    exact Or.inl ⟨_, rfl, (h.dramRead port line).cacheAlloc hne ways, hne⟩
  · rw [ht]
    exact Or.inr ⟨t, rfl, hl⟩

/-- A read of a line either fails, or leaves line `l`, which is another, spoiled. -/
theorem readLine (h : s.Spoiled l) (hin : inSaddle line = true) : (∃ t, s.readLine port ways line noErrors = (.ok, t) ∧ t.Spoiled l ∧ line ≠ l) ∨
    ∃ t, s.readLine port ways line noErrors = (.failedR, t) ∧ t.mem.lostLines = [] := by
  cases hc : tget none s.mem.cache line with
  | none =>
    have hread : s.readLine port ways line noErrors =
        (s.modSlice (chanOf line) (fun x => { x with misses := (x.misses + 1) % 2 ^ 64 })).readMiss port ways line noErrors := by
      unfold State.readLine State.lookup
      rw [if_pos hin, State.closeLine_of_no_entry noErrors (h.entryOf line)]
      dsimp only
      rw [if_neg (show ¬ noErrors.cached.contains line = true from Bool.false_ne_true), hc]
    rw [hread]
    exact (h.modSlice _ _).readMiss hin
  | some c =>
    have hmem := mem_of_tget_ne (d := none) (t := s.mem.cache) (k := line) (by rw [hc]; simp)
    obtain ⟨hne, hbad⟩ := h.cached _ hmem
    have hcbad : c.bad = false := hbad c hc
    have hbad' : (c.bad || noErrors.cached.contains line) = false := by rw [hcbad]; rfl
    refine Or.inl ⟨(s.marked line noErrors).hit line { c with bad := c.bad || noErrors.cached.contains line }, ?_, ?_, hne⟩
    · rw [State.readLine_cached hin (h.entryOf line) hc, hbad', if_neg Bool.false_ne_true]
    · rw [hbad']
      exact (h.putLine hne (fun x hx => by rw [← Option.some.inj hx])).modSlice _ _

end State.Spoiled

/-! ### The range of a read -/

/-- One line of a read's range. -/
def State.readNext (port ways : Nat) (e : ReadErrors) (acc : Option (Nat × LineRes) × State) (line : Nat) : Option (Nat × LineRes) × State :=
  match acc.1 with
  | some _ => acc
  | none =>
    match acc.2.readLine port ways line e with
    | (.ok, s) => (none, s)
    | (r, s) => (some (line, r), s)

theorem State.readRange_eq (s : State) (port ways a n : Nat) (e : ReadErrors) :
    s.readRange port ways a n e = (linesOf a n).foldl (State.readNext port ways e) (none, s) := rfl

theorem State.readNext_stays (x : Nat × LineRes) (e : ReadErrors) (ls : List Nat) : ls.foldl (State.readNext port ways e) (some x, s) = (some x, s) := by
  induction ls with
  | nil => rfl
  | cons line ls ih => exact ih

/-- A range that holds a spoiled line does not pass. -/
theorem State.Spoiled.readNext_fails {ls : List Nat} (h : s.Spoiled l) (hl : l ∈ ls) (hin : ∀ x ∈ ls, inSaddle x = true) :
    ∃ x t, ls.foldl (State.readNext port ways noErrors) (none, s) = (some x, t) ∧ t.mem.lostLines = [] := by
  induction ls generalizing s with
  | nil => exact absurd hl List.not_mem_nil
  | cons line ls ih =>
    rw [List.foldl_cons, State.readNext]
    dsimp only
    rcases h.readLine (port := port) (ways := ways) (hin line List.mem_cons_self) with ⟨t, ht, hspoiled, hne⟩ | ⟨t, ht, hlost⟩
    · rw [ht]
      exact ih hspoiled (List.mem_of_ne_of_mem (Ne.symm hne) hl) (fun x hx => hin x (List.mem_cons_of_mem _ hx))
    · rw [ht]
      exact ⟨_, t, State.readNext_stays _ _ _, hlost⟩

/-- A granted read at a line that does not pass answers Completer Abort. -/
theorem State.bar2Read_aborts {off a n : Nat} {e : ReadErrors} {x : Nat × LineRes} (haddr : s.bar2Addr off n = some a) (hdenied : s.deniedPages a n = [])
    (hread : s.readRange 40 (s.portWays 40) a n e = (some x, t)) (hlost : t.mem.lostLines = []) :
    (s.bar2Read off n e).out.head? = some .bar2Abort := by
  have hsettle : (((t.aer 15).emit .bar2Abort).settleLost).out.head? = some .bar2Abort := by
    have hl : ((t.aer 15).emit .bar2Abort).mem.lostLines = [] := hlost
    unfold State.settleLost
    dsimp only
    rw [hl]
    rfl
  unfold State.bar2Read
  rw [haddr]
  dsimp only
  rw [hdenied, hread]
  exact hsettle

/-- A read that ends in Completer Abort reaches no state in which data left. -/
theorem not_reaches_bar2Data {off n : Nat} {e : ReadErrors} {P : State → Prop} {b : List Byte} (hup : s.up = true)
    (habort : (s.bar2Read off n e).out.head? = some .bar2Abort) (hP : ∀ u, P u → u.out = .bar2Data b :: s.out) : ¬ Reaches (.bar2Read off n e) s P := by
  rintro ⟨u, hu, hp⟩
  have hans : Answers (.bar2Read off n e) s (s.bar2Read off n e) := answers_whenUp rfl hup
  rw [hans] at hu
  rw [← show u.out = _ from congrArg State.out (Host.Outcome.next.inj hu).symm, hP u hp] at habort
  exact absurd (Option.some.inj habort) (by simp)

end

/-! ### The state -/

/-- A line of the cache set of line 0. -/
def twinLine : Nat := 0x400040

/-- A device whose host may read every page; way 0 of line 0's set holds a dirty copy of `twinLine` whose check fails, hidden behind an
entry of the same line that holds none. -/
def hiddenCopyState : State := { State.reset with
  clk := { running := true, pllLock := true }, pci := { ready := true, saddleReady := true, barLog2 := 34 }, boot := { stage := 9 }
  kpr := { scopes := 2 }
  mem := { ports := [(40, { ways := 1 })], cache := [(twinLine, none), (twinLine, some { way := 0, dirty := true, bad := true, use := 0 })] } }

/-- The state after the read of line 0. -/
def hiddenCopyRead : State := (hiddenCopyState.readLine 40 (hiddenCopyState.portWays 40) 0 noErrors).2

/-- The read evicts the hidden copy: it writes the copy's failing check to DRAM. -/
theorem hiddenCopyRead_evicts : (hiddenCopyState.readLine 40 (hiddenCopyState.portWays 40) 0 noErrors).1 = .ok ∧
    hiddenCopyRead.lineFails twinLine = true ∧ hiddenCopyRead.mem.lostLines = [] ∧
    hiddenCopyRead.mem.cache.all (fun p => p.1 != twinLine && p.2.all (fun c => !c.bad)) = true ∧
    hiddenCopyRead.mem.chans.all (fun p => p.2.merges.isEmpty) = true := by
  decide +kernel

theorem hiddenCopyRead_spoiled : hiddenCopyRead.Spoiled twinLine := by
  obtain ⟨-, hfails, hlost, hcache, hchans⟩ := hiddenCopyRead_evicts
  refine ⟨hfails, fun p hp => ?_, fun n => ?_, fun a => ?_, hlost⟩
  · obtain ⟨hne, hgood⟩ := (Bool.and_eq_true _ _).mp (List.all_eq_true.mp hcache p hp)
    refine ⟨bne_iff_ne.mp hne, fun c hc => ?_⟩
    rw [hc] at hgood
    exact (Bool.not_eq_true' _).mp hgood
  · by_cases hne : tget {} hiddenCopyRead.mem.chans n = {}
    · rw [State.chan, hne]
    · exact List.isEmpty_iff.mp (List.all_eq_true.mp hchans _ (mem_of_tget_ne hne))
  · refine ((hiddenCopyState.memStep_readLine _ _ _ _).classOf a).trans ?_
    unfold State.classOf
    split <;> rfl

/-- The lines from 0 to `twinLine`. -/
theorem linesOf_two_pages : linesOf 0 0x400080 = 0 :: (List.range' 1 65537).map (· * 64) := by
  have hlen : lineLen 0 = 64 := by decide
  have hcount : (0 + 0x400080 - 1) / 64 - 0 / 64 + 1 = 65537 + 1 := by norm_num
  unfold linesOf
  dsimp only
  rw [if_neg (by norm_num), hlen, hcount, upto_eq_range', List.range'_succ, List.map_cons, Nat.zero_div, Nat.zero_mul, Nat.zero_add]

/-- The read of line 0 to `twinLine`. -/
theorem hiddenCopyState_readRange : ∃ x t, hiddenCopyState.readRange 40 (hiddenCopyState.portWays 40) 0 0x400080 noErrors = (some x, t) ∧
    t.mem.lostLines = [] := by
  obtain ⟨hok, -⟩ := hiddenCopyRead_evicts
  rw [State.readRange_eq, linesOf_two_pages, List.foldl_cons]
  have hfirst : State.readNext 40 (hiddenCopyState.portWays 40) noErrors (none, hiddenCopyState) 0 = (none, hiddenCopyRead) := by
    obtain ⟨r, hr⟩ : ∃ r, r = hiddenCopyState.readLine 40 (hiddenCopyState.portWays 40) 0 noErrors := ⟨_, rfl⟩
    rw [hiddenCopyRead, State.readNext]
    dsimp only
    rw [← hr] at hok ⊢
    obtain ⟨r1, r2⟩ := r
    subst hok
    rfl
  rw [hfirst]
  refine hiddenCopyRead_spoiled.readNext_fails (List.mem_map.mpr ⟨65537, List.mem_range'_1.mpr (by omega), rfl⟩) (fun x hx => ?_)
  obtain ⟨i, hi, rfl⟩ := List.mem_map.mp hx
  have hlast := List.mem_range'_1.mp hi
  exact decide_eq_true (by unfold saddleSize; omega)

theorem hiddenCopyState_granted (p : Nat) : hiddenCopyState.granted p = true := by
  have hscope : bit hiddenCopyState.kpr.scopes 1 = true := by decide
  unfold State.granted
  rw [hscope]
  rfl

theorem hiddenCopyState_sound (x : Nat) : hiddenCopyState.lineFails x = false ∧ noErrors.failing.contains x = false ∧
    hiddenCopyState.cacheBad x = false ∧ noErrors.cached.contains x = false ∧ hiddenCopyState.entryOf x = none := by
  refine ⟨rfl, rfl, ?_, rfl, rfl⟩
  have hget : tget none hiddenCopyState.mem.cache x = none := by
    by_cases hx : x = twinLine
    · exact if_pos hx
    · exact (if_neg hx).trans (if_neg hx)
  rw [State.cacheBad, hget]
  rfl

theorem hiddenCopyState_addr : hiddenCopyState.bar2Addr 0 0x400080 = some 0 := by decide +kernel

theorem hiddenCopyState_denied (n : Nat) : hiddenCopyState.deniedPages 0 n = [] := by
  unfold State.deniedPages
  rw [List.filter_eq_nil_iff]
  intro p _
  rw [hiddenCopyState_granted]
  exact Bool.false_ne_true

end Sys2Proof.Machine

namespace Sys2Proof.Proofs
open Sys2Proof.Machine

/-- Refutes O55: in `hiddenCopyState` every line of a read is sound, yet its first line evicts the hidden copy, and the read ends in
Completer Abort. -/
theorem not_pcieHost : ¬ Obligations.PcieHost := by
  unfold Obligations.PcieHost
  intro h
  obtain ⟨hbar, -⟩ := h
  obtain ⟨-, -, haddr⟩ := hbar hiddenCopyState 0 0x400080 noErrors { offset := 0, bytes := [], relaxed := false, poisoned := false } rfl
  obtain ⟨-, -, -, hread⟩ := haddr 0 hiddenCopyState_addr
  obtain ⟨hgood, -⟩ := hread (fun p _ => hiddenCopyState_granted p) rfl
  obtain ⟨x, u, hrange, hlost⟩ := hiddenCopyState_readRange
  have habort := State.bar2Read_aborts hiddenCopyState_addr (hiddenCopyState_denied _) hrange hlost
  exact not_reaches_bar2Data rfl habort (fun _ hp => hp.1) (hgood (fun x _ => hiddenCopyState_sound x))

end Sys2Proof.Proofs
end

