-- ==== Sys2Proof/Proofs/ServiceFrames.lean ====
section
/-! PROOFS. What the device's services leave as it is: for any view of the state that does not look at what they write, one development
(R286, R415, R443 to R446, R469, R486, R491). -/
namespace Sys2Proof.Machine
open Sys2Proof

/-- The pair's registers but for the frames that wait or are unacknowledged. -/
def Pair.calm (p : Pair) : Pair := { p with txSeq := 0, txWait := [], unacked := [] }

/-- What sending keeps of them: with the link down, all. -/
def Pair.seen (p : Pair) : Pair := if p.link = 2 then p.calm else p

theorem Pair.seen_of_up {p q : Pair} (hq : q.link = 2) (h : p.calm = q.calm) : p.seen = q.seen := by
  have hp : p.link = 2 := (congrArg Pair.link h).trans hq
  rw [Pair.seen, Pair.seen, if_pos hp, if_pos hq, h]

theorem Pair.seen_calm (p : Pair) : p.seen.calm = p.calm := by
  unfold Pair.seen
  split
  · rfl
  · rfl

theorem Pair.calm_of_seen {p q : Pair} (h : p.seen = q.seen) : p.calm = q.calm := by
  rw [← p.seen_calm, h, q.seen_calm]

theorem Pair.link_of_seen {p q : Pair} (h : p.seen = q.seen) : p.link = q.link := by
  have hc := congrArg Pair.link (Pair.calm_of_seen h)
  exact hc

theorem Pair.eq_of_seen {p q : Pair} (hq : q.link ≠ 2) (h : p.seen = q.seen) : p = q := by
  have hp : p.link ≠ 2 := (congrArg Pair.link (Pair.calm_of_seen h)) ▸ hq
  rwa [Pair.seen, Pair.seen, if_neg hp, if_neg hq] at h

/-- A view of the state that no service's own tables, no delivery and no memory write changes. -/
structure State.Blind {V : Type} (v : State → V) : Prop where
  out : ∀ s o, v { s with out := o } = v s
  rings : ∀ s r, v { s with rings := r } = v s
  colls : ∀ s c, v { s with colls := c } = v s
  pci : ∀ s p, v { s with pci := p } = v s
  od : ∀ s d, d.faultSeq = s.od.faultSeq → d.lastRecord = s.od.lastRecord → v { s with od := d } = v s
  kpr : ∀ s k, v { s with kpr := k } = v s
  evid : ∀ s e, v { s with evid := e } = v s
  tkp : ∀ s k, v { s with tkp := k } = v s
  skv : ∀ s k, v { s with skv := k } = v s
  stc : ∀ s k, v { s with stc := k } = v s
  engines : ∀ s k, v { s with engines := k } = v s
  narr : ∀ s n, n.shed = s.narr.shed → v { s with narr := n } = v s
  mem : ∀ s m, (∀ ch, (tget {} m.chans ch).st = (s.chan ch).st) → v { s with mem := m } = v s
  pair : ∀ s p, s.pair.link = 2 → p.calm = s.pair.calm → v { s with pair := p } = v s

/-- The view does not look at slots either, but for what each of them runs. -/
structure State.BlindToSlots {V : Type} (v : State → V) : Prop extends State.Blind v where
  slot : ∀ s n f, (∀ x : Slot, (f x).run = x.run) → v (s.modSlot n f) = v s

/-- Nor at faults. -/
structure State.BlindToFaults {V : Type} (v : State → V) : Prop extends State.BlindToSlots v where
  raise : ∀ s f, v (s.raise f) = v s

/-- Nor at what context `c` has: its entry, and the cores, clusters, work counters and increments of all. -/
structure State.BlindToContext {V : Type} (v : State → V) (c : Nat) : Prop extends State.BlindToFaults v where
  flight : ∀ s f, v { s with flight := f } = v s
  cores : ∀ s k, v { s with cores := k } = v s
  clusters : ∀ s k, v { s with clusters := k } = v s
  work : ∀ s k, v { s with work := k } = v s
  ctxRuns : ∀ s k, v { s with ctxRuns := k } = v s
  readyClock : ∀ s k, v { s with readyClock := k } = v s
  ctx : ∀ s f, v (s.modCtx c f) = v s

variable {V : Type} {v : State → V} {s t : State}

theorem ite_keeps {c : Prop} [Decidable c] {t u : State} {x : V} (ht : v t = x) (hu : v u = x) : v (if c then t else u) = x := by
  split
  · exact ht
  · exact hu

namespace State.Blind

variable (hv : State.Blind v)
include hv

/-! ### Delivery -/

theorem emits (s : State) (os : List Out) : v (s.emits os) = v s := by
  rw [State.emits_eq]
  exact hv.out s _

theorem modRing (s : State) (n : Nat) (f : Ring → Ring) : v (s.modRing n f) = v s := hv.rings s _

theorem modColl (s : State) (n : Nat) (f : Collector → Collector) : v (s.modColl n f) = v s := hv.colls s _

theorem msix (s : State) (n : Nat) : v (s.msix n) = v s := by
  obtain ⟨o, b, h⟩ := s.msix_frame n
  rw [h]
  exact (hv.pci { s with out := o } _).trans (hv.out s o)

theorem ringPut (s : State) (n : Nat) (bs : List Byte) : v (s.ringPut n bs).2 = v s := by
  obtain ⟨o, r, p, h⟩ := s.ringPut_frame n bs
  rw [h]
  exact (hv.pci { s with out := o, rings := r } _).trans ((hv.rings { s with out := o } r).trans (hv.out s o))

theorem collPut (s : State) (k : Nat) (bs : List Byte) : v (s.collPut k bs).2 = v s := by
  obtain ⟨o, c, h⟩ := s.collPut_frame k bs
  rw [h]
  exact (hv.colls { s with out := o } c).trans (hv.out s o)

theorem collDatagram (s : State) (k ty recs : Nat) (bodyOf : Nat → List Byte) : v (s.collDatagram k ty recs bodyOf) = v s :=
  (hv.modColl _ _ _).trans (hv.out s _)

theorem collFlush (s : State) (k : Nat) : v (s.collFlush k) = v s :=
  ite_keeps rfl ((hv.modColl _ _ _).trans (hv.collDatagram s _ _ _ _))

theorem route (s : State) (n ty : Nat) (bytes : List Byte) : v (s.route n ty bytes) = v s := by
  unfold State.route
  extract_lets r ring coll u
  have hu : v u = v s := ite_keeps (hv.ringPut s ring bytes) rfl
  exact ite_keeps ((hv.collPut u coll bytes).trans hu) hu

/-! ### The Stirrup link -/

theorem sent (s : State) (o : List Out) (p : Pair) (hup : s.pair.link = 2) (h : p.calm = s.pair.calm) : v { s with out := o, pair := p } = v s :=
  (hv.pair { s with out := o } p hup h).trans (hv.out s o)

theorem stirrupDrain (k : Nat) (s : State) (hup : s.pair.link = 2) : v (State.stirrupDrain k s) = v s := by
  induction k generalizing s with
  | zero => rfl
  | succ k ih =>
    unfold State.stirrupDrain
    split
    · refine ite_keeps ((ih _ ?_).trans (hv.sent s _ _ hup ?_)) rfl
      · exact hup
      · rfl
    · rfl

theorem stirrupSend (s : State) (kind : Nat) (payload : List Byte) : v (s.stirrupSend kind payload) = v s := by
  unfold State.stirrupSend
  split
  next hup =>
    refine (hv.stirrupDrain _ _ ?_).trans (hv.pair s _ hup ?_)
    · exact hup
    · rfl
  next => rfl

theorem mirrorChain (s : State) (n : Nat) : v (s.mirrorChain n) = v s := ite_keeps (hv.stirrupSend _ _ _) rfl

theorem narrMirror (s : State) : v s.narrMirror = v s :=
  ite_keeps (ite_keeps (hv.stirrupSend _ _ _) (foldl_keeps v _ (fun t _ => hv.stirrupSend t _ _) _ _)) rfl

/-! ### Pages and frame buffers -/

theorem modPage (s : State) (n : Nat) (f : Page → Page) : v (s.modPage n f) = v s := hv.tkp s _

theorem modReserv (s : State) (n : Nat) (f : Reserv → Reserv) : v (s.modReserv n f) = v s := hv.tkp s _

theorem modFb (s : State) (n : Nat) (f : Fb → Fb) : v (s.modFb n f) = v s := hv.tkp s _

theorem modChan (s : State) (n : Nat) {f : DramChan → DramChan} (hf : ∀ c, (f c).st = c.st) : v (s.modChan n f) = v s := by
  refine hv.mem s _ (fun ch => ?_)
  by_cases h : ch = n
  · rw [h]
    exact (congrArg DramChan.st (s.modChan_chan n f)).trans (hf _)
  · exact congrArg DramChan.st (State.modChan_chan_ne s f h)

theorem zero (s : State) (a n : Nat) : v (s.zero a n) = v s := hv.mem s _ (fun _ => rfl)

theorem wipe (s : State) (a n : Nat) : v (s.wipe a n) = v s := by
  refine (hv.mem (s.zero a n) _ ?_).trans (hv.zero s a n)
  exact fun _ => rfl

theorem wrByte (s : State) (a : Nat) (b : Byte) : v (s.wrByte a b) = v s := hv.mem s _ (fun _ => rfl)

theorem wrBytes (s : State) (a : Nat) (bs : List Byte) : v (s.wrBytes a bs) = v s := hv.mem s _ (fun _ => rfl)

/-! ### Lines of memory -/

theorem intCount (s : State) (a i : Nat) : v (s.intCount a i) = v s := hv.mem s _ (fun _ => rfl)
theorem sliceCount (s : State) (a i : Nat) : v (s.sliceCount a i) = v s := hv.mem s _ (fun _ => rfl)
theorem modPortStat (s : State) (p : Nat) (f : MemPort → MemPort) : v (s.modPortStat p f) = v s := hv.mem s _ (fun _ => rfl)
theorem modSlice (s : State) (n : Nat) (f : SliceCnt → SliceCnt) : v (s.modSlice n f) = v s := hv.mem s _ (fun _ => rfl)
theorem setFails (s : State) (a : Nat) (b : Bool) : v (s.setFails a b) = v s := hv.mem s _ (fun _ => rfl)
theorem putLine (s : State) (a : Nat) (c : Option CacheLine) : v (s.putLine a c) = v s := hv.mem s _ (fun _ => rfl)
theorem modCached (s : State) (a : Nat) (f : CacheLine → CacheLine) : v (s.modCached a f) = v s := hv.mem s _ (fun _ => rfl)

theorem putBytes (s : State) (a : Nat) (bs : List Byte) : v (s.putBytes a bs) = v s :=
  ite_keeps ((hv.wrBytes _ _ _).trans (hv.wrBytes s a bs)) (hv.wrBytes s a bs)

theorem freshLine (s : State) (a : Nat) : v (s.freshLine a) = v s :=
  ite_keeps ((hv.setFails _ _ _).trans (hv.setFails s a false)) (hv.setFails s a false)

theorem dramRead (s : State) (p a : Nat) : v (s.dramRead p a) = v s := by
  refine (hv.modPortStat _ _ _).trans (hv.modChan s _ ?_)
  exact fun _ => rfl

theorem dramWrite (s : State) (a : Nat) : v (s.dramWrite a) = v s := by
  unfold State.dramWrite
  extract_lets w s1
  have hw : ∀ c, (w c).st = c.st := fun _ => rfl
  exact ite_keeps ((hv.modChan s1 _ hw).trans (hv.modChan s _ hw)) (hv.modChan s _ hw)

theorem writeBack (s : State) (a : Nat) (c : CacheLine) : v (s.writeBack a c) = v s :=
  (hv.modSlice _ _ _).trans ((hv.setFails _ _ _).trans (hv.dramWrite s a))

theorem cacheAlloc (s : State) (a ways : Nat) (dirty : Bool) : v (s.cacheAlloc a ways dirty) = v s := by
  unfold State.cacheAlloc
  dsimp only
  split
  · exact hv.putLine s _ _
  · split
    · rfl
    · exact (hv.putLine _ _ _).trans ((hv.putLine _ _ _).trans (ite_keeps (hv.writeBack s _ _) rfl))

theorem lookup (s : State) (a : Nat) : v (s.lookup a).2 = v s := by
  unfold State.lookup
  split
  · exact (hv.modSlice _ _ _).trans (hv.putLine s _ _)
  · exact hv.modSlice s _ _

/-! ### Pages given back -/

theorem pageToZero (s : State) (p : Nat) : v (s.pageToZero p) = v s := by
  refine (hv.modChan _ _ ?_).trans (hv.modPage s p _)
  exact fun _ => rfl

theorem pageZeroed (s : State) (p : Nat) : v (s.pageZeroed p) = v s := by
  unfold State.pageZeroed
  extract_lets s1 m s2 s3
  have h1 : v s1 = v s := hv.zero s _ _
  have h2 : v s2 = v s1 := by
    refine hv.mem s1 _ ?_
    exact fun _ => rfl
  have h3 : v s3 = v s2 := by
    refine hv.modChan s2 _ ?_
    exact fun _ => rfl
  exact (hv.modPage s3 _ _).trans (h3.trans (h2.trans h1))

theorem endReserv (s : State) (res : Nat) : v (s.endReserv res) = v s := by
  refine (hv.modReserv _ _ _).trans (ite_keeps ?_ rfl)
  exact foldl_keeps v _ (fun t p => hv.pageToZero t p) _ _

theorem freeHeld (s : State) (p : Nat) : v (s.freeHeld p) = v s := by
  have h (t : State) (q h : Nat) (f : Reserv → Reserv) : v ((t.pageToZero q).modReserv h f) = v t := (hv.modReserv _ _ _).trans (hv.pageToZero t q)
  exact ite_keeps (ite_keeps ((h _ _ _ _).trans (h s _ _ _)) (h s _ _ _)) rfl

theorem settleExtent (s : State) (id : Nat) : v (s.settleExtent id) = v s := by
  unfold State.settleExtent
  split
  · refine ite_keeps ?_ rfl
    exact (hv.tkp _ _).trans ((hv.endReserv _ _).trans (foldl_keeps v _ (fun t i => hv.modFb t i _) _ _))
  · rfl

theorem fbDrop (s : State) (h : Nat) (ev : Bool) : v (s.fbDrop h ev).2 = v s := by
  unfold State.fbDrop
  split
  · rfl
  · simp only [apply_ite Prod.snd, apply_ite v, hv.settleExtent, hv.modFb, ite_self]

theorem holdPage (s : State) (p res cls : Nat) (retain : Bool) : v (s.holdPage p res cls retain) = v s := hv.modPage s _ _

theorem takePage (s : State) (res p cls : Nat) (retain : Bool) : v (s.takePage res p cls retain) = v s :=
  ite_keeps ((hv.modReserv _ _ _).trans ((hv.holdPage _ _ _ _ _).trans (hv.holdPage s _ _ _ _)))
    ((hv.modReserv _ _ _).trans (hv.holdPage s _ _ _ _))

theorem allocPage {res cls p : Nat} {retain : Bool} (h : s.allocPage res cls retain = some (p, t)) : v t = v s := by
  unfold State.allocPage at h
  split at h
  · cases h
  split at h
  · cases h
    exact hv.takePage _ _ _ _ _
  split at h
  · cases h
    refine (hv.takePage _ _ _ _ _).trans (foldl_keeps v _ (fun t q => ?_) _ _)
    exact ite_keeps (hv.pageZeroed t q) rfl
  · cases h

theorem allocPages {res cls n : Nat} {retain : Bool} {acc ps : List Nat} (h : s.allocPages res cls retain n acc = some (ps, t)) : v t = v s := by
  induction n generalizing s acc with
  | zero => cases h; rfl
  | succ n ih =>
    unfold State.allocPages at h
    split at h
    next hpage => exact (ih h).trans (hv.allocPage hpage)
    next => cases h

theorem reserve {pool count cls channels n : Nat} (h : s.reserve pool count cls channels = some (n, t)) : v t = v s := by
  unfold State.reserve at h
  split at h
  · split at h
    · dsimp only at h
      split at h
      · cases h
        exact hv.modReserv s _ _
      · cases h
    · cases h
  · cases h

/-! ### The engines of services -/

theorem modEngine (s : State) (n : Nat) (f : DecEngine → DecEngine) : v (s.modEngine n f) = v s := hv.engines s _

theorem modEnc (s : State) (n : Nat) (f : EncEngine → EncEngine) : v (s.modEnc n f) = v s := hv.evid s _

theorem modStc (s : State) (n : Nat) (f : StcUnit → StcUnit) : v (s.modStc n f) = v s := hv.stc s _

theorem modSkv (s : State) (n : Nat) (f : SkvUnit → SkvUnit) : v (s.modSkv n f) = v s := hv.skv s _

theorem encStop (s : State) (w : EncWork) : v (s.encStop w) = v s := foldl_keeps v _ (fun t e => ite_keeps (hv.modEnc t e _) rfl) _ _

theorem rtspSend (s : State) (n method : Nat) : v (s.rtspSend n method) = v s := hv.out s _

theorem dropCall (s : State) (n : Nat) : v (s.dropCall n) = v s := by
  refine (foldl_keeps v _ (fun t u => ?_) _ _).trans (hv.stc s _)
  split
  · exact ite_keeps (hv.modStc t u _) rfl
  · rfl

theorem evidPush (s : State) (n id : Nat) (bytes : List Byte) : v (s.evidPush n id bytes) = v s :=
  ite_keeps ((foldl_keeps v _ (fun t _ => hv.collDatagram t _ _ _ _) _ _).trans (hv.collFlush s _)) rfl

theorem narrSession (s : State) (d : NarratorDecl) (w : NarrWait) (num : Nat) : v (s.narrSession d w num) = v s := by
  have hgot : v ((s.allocPages s.narr.kvRes 0 false (NarratorDecl.sessionPages d) []).getD ([], s)).2 = v s := by
    cases halloc : s.allocPages s.narr.kvRes 0 false (NarratorDecl.sessionPages d) [] with
    | none => rfl
    | some got => exact hv.allocPages halloc
  refine (hv.narrMirror _).trans (Eq.trans (hv.narr _ _ ?_) hgot)
  rfl

theorem narrReopen (s : State) (w : NarrWait) : v (s.narrReopen w) = v s := by
  unfold State.narrReopen
  split
  · exact hv.narrSession s _ _ _
  · exact hv.narr s _ rfl
  · rfl

end State.Blind

/-! ### Replies that leave (R487, R540) -/

theorem State.Blind.deliver (hv : State.Blind v) (h : HeldReply) (s : State) : v (h.deliver s) = v s := by
  cases h with
  | op w st b => exact ite_keeps (hv.out s _) rfl
  | mailbox bs => exact ite_keeps ((hv.msix _ 0).trans (hv.pci s _)) rfl
  | udp n tag bs =>
    refine ite_keeps ((hv.out _ _).trans (hv.od s _ ?_ ?_)) rfl
    · rfl
    · rfl
  | can bs => exact ite_keeps (hv.emits s _) rfl

namespace State.BlindToSlots

variable (hv : State.BlindToSlots v)
include hv

/-! ### Slots and their chains -/

theorem modChain (s : State) (n : Nat) (f : SlotChain → SlotChain) : v (s.modChain n f) = v s := hv.slot s n _ (fun _ => rfl)

theorem modIng (s : State) (n : Nat) (f : SlotIngest → SlotIngest) : v (s.modIng n f) = v s := hv.slot s n _ (fun _ => rfl)

theorem modDec (s : State) (n : Nat) (f : SlotDecode → SlotDecode) : v (s.modDec n f) = v s := hv.slot s n _ (fun _ => rfl)

theorem modTrk (s : State) (n : Nat) (f : SlotTrack → SlotTrack) : v (s.modTrk n f) = v s := hv.slot s n _ (fun _ => rfl)

theorem count (s : State) (n sub k : Nat) : v (s.count n sub k) = v s := hv.slot s n _ (fun _ => rfl)

theorem chainLate (s : State) (n : Nat) (e : Entry) : v (s.chainLate n e) = v s := ite_keeps rfl (hv.modChain s n _)

theorem chainAdd (s : State) (n g : Nat) (e : Entry) : v (s.chainAdd n g e) = v s := ite_keeps rfl (hv.modChain s n _)

theorem unitEntries (s : State) (n : Nat) (u : AccessUnit) : v (s.unitEntries n u) = v s :=
  (foldl_keeps v _ (fun t _ => hv.chainAdd t _ _ _) _ _).trans (ite_keeps rfl (hv.chainAdd s _ _ _))

theorem flushUnits (s : State) (n : Nat) : v (s.flushUnits n) = v s := by
  refine foldl_keeps v _ (fun t q => ?_) _ s
  dsimp only
  split
  · exact hv.unitEntries t n _
  · exact (hv.chainAdd _ _ _ _).trans ((hv.modDec _ _ _).trans (hv.unitEntries t n _))

theorem streamOut (s : State) (n ty pts : Nat) (body : List Byte) : v (s.streamOut n ty pts body) = v s := by
  unfold State.streamOut State.streamOutWith
  dsimp only
  exact ite_keeps ((hv.modChain _ _ _).trans (hv.modChain s _ _)) ((hv.route _ _ _ _).trans (hv.modChain s _ _))

theorem bindEntry (s : State) (n c sub code : Nat) : v (s.bindEntry n c sub code) = v s := ite_keeps rfl (hv.chainLate s _ _)

theorem dropPics (s : State) (n c cause : Nat) : v (s.dropPics n c cause) = v s := by
  unfold State.dropPics
  extract_lets mine hit s1 s2
  have h1 : v s1 = v s := foldl_keeps v _ (fun t _ => hv.chainLate t _ _) _ _
  have h2 : v s2 = v s1 := hv.count s1 _ _ _
  refine (hv.slot s2 n _ ?_).trans (h2.trans h1)
  exact fun _ => rfl

theorem evidEntry (s : State) (n sub id first last : Nat) (digest : List Byte) : v (s.evidEntry n sub id first last digest) = v s :=
  ite_keeps rfl (hv.chainLate s _ _)

theorem evidGone (s : State) (req : EvidReq) : v (s.evidGone req) = v s := (hv.count _ _ _ _).trans (hv.evidEntry s _ _ _ _ _ _)

theorem narrEntry (s : State) (req : NarrReq) (sub session : Nat) : v (s.narrEntry req sub session) = v s := hv.chainLate s _ _

theorem caption (s : State) (x : Session) (flags : Nat) (text : List Byte) (final : Bool) : v (s.caption x flags text final) = v s := by
  unfold State.caption
  extract_lets body u
  have hu : v u = v s := (hv.mirrorChain _ _).trans (hv.streamOut s _ _ _ _)
  exact ite_keeps ((hv.chainLate u _ _).trans hu) hu

theorem narrEnd (s : State) (num flags : Nat) (withText : Bool) : v (s.narrEnd num flags withText) = v s := by
  unfold State.narrEnd
  split
  · refine (hv.narrMirror _).trans ((foldl_keeps v _ (fun t p => hv.freeHeld t p) _ _).trans (Eq.trans (hv.narr _ _ ?_) (hv.caption s _ _ _ _)))
    rfl
  · rfl

/-! ### Groups that close -/

theorem auditBytes (s : State) (pages : List Nat) (a : Nat) (bs : List Byte) : v (s.auditBytes pages a bs) = v s :=
  foldl_keeps v _ (fun t _ => hv.wrByte t _ _) _ _

theorem auditPush (s : State) (n : Nat) (bs : List Byte) : v (s.auditPush n bs) = v s := ite_keeps (hv.out s _) rfl

theorem auditWrite (s : State) (n num : Nat) (es : List Entry) : v (s.auditWrite n num es) = v s :=
  ite_keeps (ite_keeps ((hv.auditPush _ _ _).trans ((hv.modChain _ _ _).trans (hv.auditBytes s _ _ _))) (hv.modChain s _ _)) rfl

theorem cutCheckpoint (s : State) (n flags pts : Nat) : v (s.cutCheckpoint n flags pts) = v s :=
  (hv.kpr _ _).trans (hv.modChain s _ _)

/-- A group closes; the comparison with the partner only where the link is up. -/
theorem closeGroup_of {n : Nat} (hc : s.pair.link ≠ 2 ∨ ∀ t, v (t.compareChain n) = v t) (g : Nat) : v (s.closeGroup n g) = v s := by
  unfold State.closeGroup
  extract_lets x leads rest final every
  split
  · rfl
  extract_lets forced s1 cfg es s2 s3 s4 s5
  have h1 : v s1 = v s := ite_keeps (hv.stirrupSend s _ _) rfl
  have hl1 : s1.pair.link = s.pair.link := (State.powerView_eq_iff.mp (State.ite_powerView (s.stirrupSend_powerView _ _) rfl)).2.2.2
  have h2 : v s2 = v s1 := hv.modChain s1 n _
  have h3 : v s3 = v s2 := hv.auditWrite s2 _ _ _
  have hl3 : s3.pair.link = s2.pair.link := (State.powerView_eq_iff.mp (s2.auditWrite_powerView _ _ _)).2.2.2
  have h4 : v s4 = v s3 ∧ s4.pair.link = s3.pair.link := by
    unfold s4
    split
    · exact ⟨hv.cutCheckpoint s3 _ _ _, rfl⟩
    · split
      · exact ⟨hv.cutCheckpoint s3 _ _ _, rfl⟩
      · exact ⟨rfl, rfl⟩
  obtain ⟨h4, hl4⟩ := h4
  have h5 : v s5 = v s := (hv.mirrorChain s4 n).trans (h4.trans (h3.trans (h2.trans h1)))
  have hl5 : s5.pair.link = s4.pair.link := (State.powerView_eq_iff.mp (s4.mirrorChain_powerView n)).2.2.2
  split
  next hup =>
    rcases hc with hdown | hc
    · have hlink : s5.pair.link = s.pair.link := hl5.trans (hl4.trans (hl3.trans hl1))
      exact absurd (hlink ▸ hup.2) hdown
    · exact (hc _).trans ((hv.modChain _ _ _).trans ((hv.stirrupSend s5 _ _).trans h5))
  next => exact h5

theorem settleFrom_of {n : Nat} (hc : s.pair.link ≠ 2 ∨ ∀ t, v (t.compareChain n) = v t) (l : List Group) : v (State.settleFrom n l s) = v s := by
  induction l generalizing s with
  | nil => rfl
  | cons g l ih =>
    have hl := (State.powerView_eq_iff.mp (s.closeGroup_powerView n g.num)).2.2.2
    exact ite_keeps ((ih (hl ▸ hc)).trans (hv.closeGroup_of hc g.num)) rfl

theorem settleGroups_of {n : Nat} (hc : s.pair.link ≠ 2 ∨ ∀ t, v (t.compareChain n) = v t) : v (s.settleGroups n) = v s := hv.settleFrom_of hc _

/-- Comparison stops; once the link is down nothing is compared. -/
theorem stopLockstep (hdown : s.pair.link ≠ 2) (n : Nat) : v (s.stopLockstep n) = v s :=
  (hv.settleGroups_of (s := s.modChain n _) (Or.inl hdown)).trans (hv.modChain s n _)

end State.BlindToSlots

namespace State.BlindToFaults

variable (hv : State.BlindToFaults v)
include hv

/-! ### Stores -/

theorem quarantine (s : State) (ch bank row : Nat) : v (s.quarantine ch bank row) = v s := by
  unfold State.quarantine
  dsimp only
  split
  · refine (hv.raise _ _).trans ((hv.kpr _ _).trans ((hv.intCount _ _ _).trans (hv.modChan s _ ?_)))
    exact fun _ => rfl
  · refine ite_keeps rfl ((hv.raise _ _).trans (hv.modChan s _ ?_))
    exact fun _ => rfl

theorem countRow (s : State) (line : Nat) : v (s.countRow line) = v s := by
  unfold State.countRow
  extract_lets ch bank row c inRemap isRow
  split
  · rfl
  split
  · extract_lets t s1
    have h1 : v s1 = v s := hv.modChan s ch (fun _ => rfl)
    refine ite_keeps h1 (ite_keeps ((hv.modChan s1 ch ?_).trans h1) ((hv.quarantine s1 _ _ _).trans h1))
    exact fun _ => rfl
  · refine ite_keeps (hv.modChan s ch ?_) ?_
    · exact fun _ => rfl
    · split
      · refine hv.modChan s ch ?_
        exact fun _ => rfl
      · rfl

theorem testLine (s : State) (port line : Nat) (e : ReadErrors) : v (s.testLine port line e).2 = v s := by
  unfold State.testLine
  extract_lets s1 s2 s3 cls other lost
  have h2 : v s2 = v s := ite_keeps ((hv.countRow _ _).trans (hv.intCount s _ _)) (hv.intCount s _ _)
  have h3 : v s3 = v s := (hv.setFails s2 _ _).trans h2
  split
  · rfl
  split
  · exact (hv.intCount s2 _ _).trans h2
  split
  · split
    · refine Eq.trans (hv.mem lost _ ?_) (((hv.raise _ _).trans ((hv.intCount _ _ _).trans (hv.setFails s3 _ _))).trans h3)
      exact fun _ => rfl
    · exact (hv.intCount _ _ _).trans ((hv.setFails _ _ _).trans ((hv.wrBytes s3 _ _).trans h3))
  · split
    · exact (hv.raise _ _).trans ((hv.intCount s3 _ _).trans h3)
    · exact (hv.intCount s3 _ _).trans h3

theorem closeEntry (s : State) (m : MergeEntry) (e : ReadErrors) : v (s.closeEntry m e) = v s := by
  unfold State.closeEntry
  extract_lets ch s1 put s2
  have h1 : v s1 = v s := hv.modChan s ch (fun _ => rfl)
  have hput (t : State) : v (put t) = v t :=
    (hv.freshLine _ _).trans ((hv.dramWrite _ _).trans (foldl_keeps v _ (fun t _ => hv.putBytes t _ _) _ t))
  have h2 : v s2 = v s := ((hv.intCount _ _ _).trans (hv.dramRead s1 _ _)).trans h1
  refine ite_keeps ((hv.intCount _ _ _).trans ((hput s1).trans h1)) ?_
  have ht := hv.testLine s2 43 m.line e
  split
  next heq =>
    rw [heq] at ht
    exact (hput _).trans (ht.trans h2)
  next heq =>
    rw [heq] at ht
    exact (hv.intCount _ _ _).trans (ht.trans h2)

theorem closeLine (s : State) (line : Nat) (e : ReadErrors) : v (s.closeLine line e) = v s := by
  unfold State.closeLine
  split
  · exact hv.closeEntry s _ e
  · rfl

theorem mergeWrite (s : State) (line off : Nat) (bs : List Byte) : v (s.mergeWrite line off bs) = v s := by
  unfold State.mergeWrite
  dsimp only
  split
  · refine ite_keeps ((hv.closeEntry _ _ _).trans (hv.modChan s _ ?_)) (hv.modChan s _ ?_)
    · exact fun _ => rfl
    · exact fun _ => rfl
  · refine (hv.modChan _ _ ?_).trans ?_
    · exact fun _ => rfl
    · split
      · exact ite_keeps (hv.closeEntry s _ _) rfl
      · rfl

theorem writeLine (s : State) (ways line a : Nat) (bs : List Byte) : v (s.writeLine ways line a bs) = v s := by
  have hfresh (t : State) : v ((t.dramWrite line).freshLine line) = v t := (hv.freshLine _ _).trans (hv.dramWrite t _)
  unfold State.writeLine
  extract_lets len full s1 s2
  have h2 : v s2 = v s := (hv.putBytes s1 _ _).trans (hv.closeLine s _ _)
  have hl2 := hv.lookup s2 line
  have hl := hv.lookup s line
  split
  · split
    · split
      next heq =>
        rw [heq] at hl2
        rw [← h2, ← hl2]
        exact ite_keeps ((hv.modCached _ _ _).trans (hfresh _)) (hv.modCached _ _ _)
      next heq =>
        rw [heq] at hl2
        rw [← h2, ← hl2]
        exact ite_keeps (hfresh _) (ite_keeps ((hv.cacheAlloc _ _ _ _).trans (hfresh _)) (hv.cacheAlloc _ _ _ _))
    · split
      next heq =>
        rw [heq] at hl
        rw [← hl]
        exact ite_keeps (hv.sliceCount _ _ _) (ite_keeps ((hfresh _).trans (hv.putBytes _ _ _)) ((hv.modCached _ _ _).trans (hv.putBytes _ _ _)))
      next heq =>
        rw [heq] at hl
        exact (hv.mergeWrite _ _ _ _).trans hl
  · exact ite_keeps ((hv.setFails _ _ _).trans (hv.putBytes s _ _)) (ite_keeps (hv.intCount s _ _) (hv.putBytes s _ _))

theorem store (s : State) (ways a : Nat) (bs : List Byte) : v (s.store ways a bs) = v s := foldl_keeps v _ (fun t _ => hv.writeLine t _ _ _ _) _ s

theorem flushed (s : State) : v s.flushed = v s := by
  have hclose : v s.closeAll = v s := foldl_keeps v _ (fun t m => hv.closeEntry t m _) _ s
  refine Eq.trans (foldl_keeps v _ (fun t p => ?_) _ s.closeAll) hclose
  split
  · exact ite_keeps ((hv.putLine _ _ _).trans (hv.writeBack t _ _)) rfl
  · rfl

/-! ### Frame buffers, evidence and the Narrator -/

theorem fbDropSvc (s : State) (h : Nat) (ev : Bool) : v (s.fbDropSvc h ev) = v s := by
  have hdrop := hv.fbDrop s h ev
  unfold State.fbDropSvc
  split
  next heq => rwa [heq] at hdrop
  next heq =>
    rw [heq] at hdrop
    exact ((hv.raise _ _).trans (hv.tkp _ _)).trans hdrop

theorem skvRelease (s : State) (j : Job) : v (s.skvRelease j) = v s := ite_keeps (hv.fbDropSvc s _ _) rfl

theorem dropEv (s : State) (p : Pic) : v (s.dropEv p) = v s := by
  unfold State.dropEv
  split
  · exact hv.fbDropSvc s _ _
  · rfl

theorem deliverEvid (s : State) (n id kind flags first last pts res : Nat) (bytes : List Byte) :
    v (s.deliverEvid n id kind flags first last pts res bytes) = v s := by
  unfold State.deliverEvid
  dsimp only
  split
  next => rfl
  next halloc =>
    refine (hv.evid _ _).trans ((hv.mirrorChain _ _).trans ((hv.streamOut _ _ _ _ _).trans ((hv.evidPush _ _ _ _).trans
      ((hv.evidEntry _ _ _ _ _ _ _).trans ((hv.store _ _ _ _).trans ?_)))))
    exact (foldl_keeps v _ (fun t _ => hv.store t _ _ _) _ _).trans (hv.allocPages halloc)

theorem closeClip (s : State) (c : Clip) (truncated : Bool) : v (s.closeClip c truncated) = v s := by
  unfold State.closeClip
  extract_lets s1 evid s2 s3 s4 last s5
  have h1 : v s1 = v s := (hv.count _ _ _ _).trans (hv.encStop s _)
  have h2 : v s2 = v s1 := hv.evid s1 _
  have h3 : v s3 = v s2 := foldl_keeps v _ (fun t e => ite_keeps (hv.modEnc t e _) rfl) _ _
  have h4 : v s4 = v s3 := foldl_keeps v _ (fun t p => hv.dropEv t p) _ _
  have h5 : v s5 = v s4 := ite_keeps ((hv.evidEntry _ _ _ _ _ _ _).trans (hv.count s4 _ _ _)) rfl
  rw [← h1, ← h2, ← h3, ← h4, ← h5]
  exact ite_keeps (hv.endReserv s5 _) (hv.deliverEvid s5 _ _ _ _ _ _ _ _ _)

theorem cancelSnap (s : State) (k : Snapshot) : v (s.cancelSnap k) = v s :=
  (hv.endReserv _ _).trans ((hv.evidEntry _ _ _ _ _ _ _).trans ((hv.evid _ _).trans ((hv.dropEv _ _).trans (hv.encStop s _))))

theorem dropQueued (s : State) (p : EvidReq → Bool) {f : State → EvidReq → State} (h : ∀ t r, v (f t r) = v t) :
    v (s.dropQueued p f) = v s :=
  (foldl_keeps v _ (fun t _ => h t _) _ _).trans (hv.evid s _)

theorem evidRefuse (s : State) (req : EvidReq) (code : Nat) : v (s.evidRefuse req code) = v s :=
  (hv.raise _ _).trans ((hv.count _ _ _ _).trans (hv.evidEntry s _ _ _ _ _ _))

theorem evidStop (s : State) : v s.evidStop = v s := by
  unfold State.evidStop
  extract_lets s1 s2
  have h1 : v s1 = v s := foldl_keeps v _ (fun t c => hv.closeClip t c true) _ s
  have h2 : v s2 = v s1 := foldl_keeps v _ (fun t k => hv.cancelSnap t k) _ s1
  exact (hv.dropQueued s2 _ (fun t r => hv.evidRefuse t r _)).trans (h2.trans h1)

theorem narrRefuse (s : State) (req : NarrReq) (sub code : Nat) : v (s.narrRefuse req sub code) = v s := by
  refine (hv.raise _ _).trans (Eq.trans (hv.narr _ _ ?_) (hv.narrEntry s _ _ _))
  rfl

theorem narrOpen (s : State) (d : NarratorDecl) (w : NarrWait) : v (s.narrOpen d w).2 = v s := by
  unfold State.narrOpen
  split
  · rfl
  · split
    · exact hv.narrRefuse s _ _ _
    · exact (hv.narrEntry _ _ _ _).trans (hv.narrSession s _ _ _)

theorem narrRefill (n : Nat) (s : State) : v (State.narrRefill n s) = v s := by
  induction n generalizing s with
  | zero => rfl
  | succ n ih =>
    unfold State.narrRefill
    split
    · refine ite_keeps ((ih _).trans ((hv.narrOpen _ _ _).trans (hv.narr s _ ?_))) rfl
      rfl
    · rfl

theorem narrBoundary (s : State) : v s.narrBoundary = v s :=
  (hv.narrRefill _ _).trans (foldl_keeps v _ (fun t _ => ite_keeps (hv.narrEnd t _ _ _) (ite_keeps (hv.narrEnd t _ _ _) rfl)) _ s)

/-- Shedding of the Narrator, once its flag is set. -/
theorem narrShed (s : State) (on : Bool) : v (s.narrShed on) = v { s with narr := { s.narr with shed := on } } := by
  unfold State.narrShed
  extract_lets first s1 s2 left s3
  have h2 : v s2 = v s1 := foldl_keeps v _ (fun t (w : NarrWait) => hv.narrRefuse t w.req 4 fltNarShed) _ s1
  have h3 : v s3 = v s2 := (hv.narrMirror _).trans (hv.narr s2 { left with queue := [] } rfl)
  exact ite_keeps rfl (ite_keeps (h3.trans h2) ((hv.narrBoundary s3).trans (h3.trans h2)))

theorem narrFault (s : State) : v s.narrFault = v s := by
  unfold State.narrFault
  extract_lets s1 s2 left
  have h1 : v s1 = v s := foldl_keeps v _ (fun t (x : Session) => hv.narrEnd t x.num flagFault false) _ s
  have h2 : v s2 = v s1 := foldl_keeps v _ (fun t (w : NarrWait) => hv.narrRefuse t w.req 2 fltNarBusy) _ s1
  exact (hv.narrMirror _).trans ((hv.narr s2 { left with ctx := none, queue := [], running := false } rfl).trans (h2.trans h1))

theorem ringClear (s : State) (n : Nat) : v (s.ringClear n) = v s := by
  refine (hv.slot _ n _ ?_).trans (foldl_keeps v _ (fun t p => hv.dropEv t p) _ s)
  exact fun _ => rfl

theorem truncateSlot (s : State) (n : Nat) : v (s.truncateSlot n) = v s := foldl_keeps v _ (fun t c => hv.closeClip t c true) _ s

theorem evidEndSlot (s : State) (n : Nat) : v (s.evidEndSlot n) = v s :=
  (hv.ringClear _ _).trans ((hv.dropQueued _ _ (fun t r => hv.evidGone t r)).trans
    ((foldl_keeps v _ (fun t k => hv.cancelSnap t k) _ _).trans (hv.truncateSlot s n)))

/-! ### A slot's decoding, tracks and groups -/

theorem decodeEndSlot (s : State) (n : Nat) : v (s.decodeEndSlot n) = v s := by
  unfold State.decodeEndSlot
  extract_lets d s1 s2 s3
  have h1 : v s1 = v s := foldl_keeps v _ (fun t _ => hv.fbDropSvc t _ _) _ s
  have h2 : v s2 = v s1 := by
    unfold s2
    split
    · exact hv.fbDropSvc s1 _ _
    · rfl
  have h3 : v s3 = v s2 := by
    unfold s3
    split
    · exact ite_keeps ((hv.fbDropSvc _ _ _).trans (hv.modEngine s2 _ _)) rfl
    · rfl
  exact (hv.modDec s3 n _).trans (h3.trans (h2.trans h1))

theorem putEntries (s : State) (base n : Nat) (es : List (Nat × Track)) : v (s.putEntries base n es) = v s :=
  foldl_keeps v _ (fun t _ => hv.store t _ _ _) _ s

theorem modTracks (s : State) (n : Nat) (f : SlotTrack → SlotTrack) : v (s.modTracks n f) = v s :=
  (hv.putEntries _ _ _ _).trans (hv.modTrk s n f)

theorem checkpoint (s : State) (n : Nat) : v (s.checkpoint n) = v s := (hv.putEntries _ _ _ _).trans (hv.modTrk s n _)

theorem emptyTracks (s : State) (n : Nat) : v (s.emptyTracks n) = v s :=
  (hv.checkpoint _ _).trans ((hv.modTracks _ _ _).trans (hv.dropCall s n))

theorem divergeCut (s : State) (n : Nat) : v (s.divergeCut n) = v s := ite_keeps (hv.kpr s _) (hv.cutCheckpoint s _ _ _)

theorem diverge (s : State) (n g unit : Nat) (value : List Byte) : v (s.diverge n g unit value) = v s :=
  (hv.divergeCut _ _).trans ((hv.raise _ _).trans (hv.modChain s n _))

theorem compareFrom (n k : Nat) (s : State) : v (State.compareFrom n k s) = v s := by
  induction k generalizing s with
  | zero => rfl
  | succ k ih =>
    unfold State.compareFrom
    extract_lets c late
    have hlate (len g : Nat) : v (late len g) = v s := ite_keeps (hv.diverge s n g 0xFF _) rfl
    split
    · refine ite_keeps (ite_keeps ?_ (hv.diverge s _ _ _ _)) (ite_keeps ?_ ?_)
      · exact (ih _).trans (hv.modChain s n _)
      · exact (ih _).trans (hv.modChain s n _)
      · exact (ih _).trans (hv.modChain s n _)
    · exact hlate _ _
    · exact hlate _ _
    · rfl

theorem compareChain (s : State) (n : Nat) : v (s.compareChain n) = v s := ite_keeps rfl (hv.compareFrom _ _ s)

theorem closeGroup (s : State) (n g : Nat) : v (s.closeGroup n g) = v s := hv.closeGroup_of (Or.inr (fun t => hv.compareChain t n)) g

theorem closeThrough (s : State) (n g : Nat) : v (s.closeThrough n g) = v s := foldl_keeps v _ (fun t k => hv.closeGroup t n k) _ s

theorem settleGroups (s : State) (n : Nat) : v (s.settleGroups n) = v s := hv.settleGroups_of (Or.inr (fun t => hv.compareChain t n))

theorem retireExtents (s : State) (n : Nat) : v (s.retireExtents n) = v s :=
  foldl_keeps v _ (fun t _ => (hv.settleExtent _ _).trans (hv.tkp t _)) _ s

theorem membership (s : State) (n : Nat) (c : StreamCfg) (join : Bool) : v (s.membership n c join) = v s := ite_keeps (hv.out s _) rfl

theorem discardWork (s : State) (c : Nat) : (∀ t f, v { t with flight := f } = v t) → v (s.discardWork c) = v s := by
  intro hflight
  unfold State.discardWork
  extract_lets mine skv s1 s2 s3 stc s4 s5
  have h1 : v s1 = v s := hv.skv s _
  have h2 : v s2 = v s1 := foldl_keeps v _ (fun t j => hv.skvRelease t j) _ s1
  have h3 : v s3 = v s2 := by
    refine foldl_keeps v _ (fun t n => ?_) _ s2
    split
    · exact ite_keeps ((hv.modSkv _ _ _).trans (hv.skvRelease t _)) rfl
    · rfl
  have h4 : v s4 = v s3 := hv.stc s3 _
  have h5 : v s5 = v s4 := by
    refine foldl_keeps v _ (fun t n => ?_) _ s4
    split
    · exact ite_keeps (hv.modStc t n _) rfl
    · rfl
  exact (hflight s5 _).trans (h5.trans (h4.trans (h3.trans (h2.trans h1))))

end State.BlindToFaults

end Sys2Proof.Machine
end

