-- ==== Sys2Proof/Proofs/SlotAndContextFrames.lean ====
section
/-! PROOFS. What the end of a slot's configuration, the change to a shadow, a teardown and a creation leave as it is, for any view that
does not look at that slot or that context (R415, R436, R474, R494). -/
namespace Sys2Proof.Machine
open Sys2Proof

variable {V : Type} {v : State → V} {c n : Nat}

/-- The services' part of a teardown, once the context has its end state. -/
def State.leaveServices (s : State) (c code : Nat) : State :=
  let s := s.freePages c
  let s := if s.narr.ctx = some c then s.narrFault.endReserv s.narr.kvRes else s
  ((s.boundSlots c).foldl (fun s n => (s.dropPics n c 10).bindEntry n c 2 code) s).modRun c
    (fun r => { r with allotMw := 0, lentMw := 0, power := [], rerun := [] })

/-- A context after the part of a teardown that is its own: the partition vacated, the work counters free. -/
def State.endOwn (s : State) (c code : Nat) (shared : Bool) : State :=
  ((s.ctx c).ctrs.foldl (fun s p => s.modWork p (fun _ => {})) ((s.discardWork c).vacate (s.ctx c) shared)).modCtx c (·.tornDown code)

theorem State.teardownWith_eq (s : State) (c code : Nat) (hlive : (s.ctx c).live = true) :
    ∃ shared, s.teardownWith c code false = (s.endOwn c code shared).leaveServices c code := by
  unfold State.teardownWith
  simp only [hlive, Bool.not_true, Bool.false_eq_true, if_false, Bool.false_and]
  exact ⟨_, rfl⟩

theorem State.teardownWith_of_dead (s : State) (c code : Nat) (keep : Bool) (hdead : (s.ctx c).live = false) : s.teardownWith c code keep = s := by
  unfold State.teardownWith
  simp only [hdead, Bool.not_false, if_true]

namespace State.BlindToFaults

variable (hv : State.BlindToFaults v)
include hv

theorem dropHandles (s : State) (ps : List Pic) :
    v (ps.foldl (fun s p => match p.handle with | some h => s.fbDropSvc h false | none => s) s) = v s := by
  refine foldl_keeps v _ (fun t p => ?_) _ s
  split
  · exact hv.fbDropSvc t _ _
  · rfl

theorem endReservs (s : State) (rs : List (Option Nat)) :
    v (rs.foldl (fun s r => match r with | some r => s.endReserv r | none => s) s) = v s := by
  refine foldl_keeps v _ (fun t r => ?_) _ s
  split
  · exact hv.endReserv t _
  · rfl

theorem endSlot (hslot : ∀ s f, v (s.modSlot n f) = v s) (s : State) : v (s.endSlot n) = v s := by
  unfold State.endSlot
  extract_lets x s1 t1 s2 s3 s4 s5 s6 s7 s8
  split
  · rfl
  have h1 : v s1 = v s := (hv.flushUnits _ _).trans (hv.evidEndSlot s n)
  have h2 : v s2 = v s1 :=
    ite_keeps rfl (ite_keeps (ite_keeps rfl (hv.cutCheckpoint s1 _ _ _)) ((hv.closeThrough _ _ _).trans (hv.modChain s1 _ _)))
  have h3 : v s3 = v s2 := hv.dropHandles s2 _
  have h4 : v s4 = v s3 := (hv.retireExtents _ _).trans (hv.decodeEndSlot s3 n)
  have h5 : v s5 = v s4 := ite_keeps (hv.rtspSend s4 _ _) rfl
  have h6 : v s6 = v s5 := hv.membership s5 _ _ _
  have h7 : v s7 = v s6 := foldl_keeps v _ (fun t _ => hv.route t _ _ _) _ s6
  have h8 : v s8 = v s7 := hv.endReservs s7 _
  exact (hslot _ _).trans ((hv.emptyTracks s8 n).trans (h8.trans (h7.trans (h6.trans (h5.trans (h4.trans (h3.trans (h2.trans h1))))))))

theorem toShadow (hslot : ∀ s f, v (s.modSlot n f) = v s) (hsh : ∀ s, v (s.newShadow n) = v s) (s : State) : v (s.toShadow n) = v s := by
  unfold State.toShadow
  extract_lets x s1 s2 s3 s4 s5
  split
  · rfl
  have h1 : v s1 = v s := hv.evidEndSlot s n
  have h2 : v s2 = v s1 := hv.dropHandles s1 _
  have h3 : v s3 = v s2 := hv.decodeEndSlot s2 n
  have h4 : v s4 = v s3 := ite_keeps (hv.rtspSend s3 _ _) rfl
  have h5 : v s5 = v s4 := foldl_keeps v _ (fun t _ => hv.route t _ _ _) _ s4
  exact (hslot _ _).trans ((hsh _).trans ((hv.emptyTracks s5 n).trans (h5.trans (h4.trans (h3.trans (h2.trans h1))))))

theorem rebind (s : State) (c : Nat) : v (s.rebind c) = v s := foldl_keeps v _ (fun t _ => hv.bindEntry t _ _ _ _) _ s

theorem wipePartition (s : State) (x : Ctx) : v (s.wipePartition x) = v s :=
  (foldl_keeps v _ (fun t _ => hv.wipe t _ _) _ _).trans (foldl_keeps v _ (fun t _ => hv.wipe t _ _) _ s)

theorem freePages (s : State) (c : Nat) : v (s.freePages c) = v s :=
  ite_keeps ((foldl_keeps v _ (fun t _ => hv.freeHeld t _) _ _).trans (hv.endReserv s _)) ((hv.endReserv _ _).trans (hv.endReserv s _))

theorem leaveServices (hrun : ∀ s k, v { s with ctxRuns := k } = v s) (s : State) (c code : Nat) : v (s.leaveServices c code) = v s := by
  unfold State.leaveServices
  extract_lets s1 s2
  have h1 : v s1 = v s := hv.freePages s c
  have h2 : v s2 = v s1 := ite_keeps ((hv.endReserv _ _).trans (hv.narrFault s1)) rfl
  exact (hrun _ _).trans ((foldl_keeps v _ (fun t _ => (hv.bindEntry _ _ _ _ _).trans (hv.dropPics t _ _ _)) _ s2).trans (h2.trans h1))

end State.BlindToFaults

namespace State.BlindToContext

variable (hv : State.BlindToContext v c)
include hv

theorem idle (s : State) (x : Ctx) (on : Bool) : v ((s.idleCores x).idleClusters x on) = v s :=
  (foldl_keeps v _ (fun t _ => hv.clusters t _) _ _).trans (foldl_keeps v _ (fun t _ => hv.cores t _) _ s)

theorem startPartition (s : State) : v (s.startPartition c) = v s := by
  unfold State.startPartition State.startCores State.startClusters
  dsimp only
  split
  · rfl
  · refine (hv.ctx _ _).trans (Eq.trans (foldl_keeps v _ (fun t j => ?_) _ _) ?_)
    · split
      · exact hv.cores t _
      · rfl
    · exact (foldl_keeps v _ (fun t _ => hv.work t _) _ _).trans
        ((foldl_keeps v _ (fun t _ => hv.clusters t _) _ _).trans (hv.wipePartition s _))

theorem startStanding (s : State) : v (s.startStanding c) = v s := ite_keeps ((hv.rebind _ _).trans (hv.startPartition s)) rfl

theorem makeReady (s : State) : v (s.makeReady c) = v s := ite_keeps rfl ((hv.ctx _ _).trans (hv.readyClock s _))

theorem vacate (s : State) (x : Ctx) (shared : Bool) : v (s.vacate x shared) = v s :=
  ite_keeps ((hv.wipePartition _ _).trans (hv.idle s _ _)) (ite_keeps rfl (foldl_keeps v _ (fun t _ => hv.clusters t _) _ s))

theorem endOwn (s : State) (code : Nat) (shared : Bool) : v (s.endOwn c code shared) = v s :=
  (hv.ctx _ _).trans ((foldl_keeps v _ (fun t _ => hv.work t _) _ _).trans ((hv.vacate _ _ _).trans (hv.discardWork s c hv.flight)))

theorem teardownWith (s : State) (code : Nat) : v (s.teardownWith c code false) = v s := by
  by_cases hlive : (s.ctx c).live = true
  · obtain ⟨shared, h⟩ := s.teardownWith_eq c code hlive
    rw [h]
    exact (hv.leaveServices hv.ctxRuns _ _ _).trans (hv.endOwn s _ _)
  · rw [s.teardownWith_of_dead c code false (Bool.eq_false_iff.mpr hlive)]

end State.BlindToContext

theorem State.BlindToFaults.takeCtxPages (hv : State.BlindToFaults v) {s : State} {h : ImageHead} {d : ImageDecl} {b : List Byte} {req : CreateReq}
    {rp rr kv : Nat} {ip pages sv : List Nat} {t : State} (heq : s.takeCtxPages h d b req = some (rp, rr, kv, ip, pages, sv, t)) : v t = v s := by
  unfold State.takeCtxPages at heq
  dsimp only at heq
  split at heq
  · cases heq
  next hp =>
  split at heq
  · cases heq
  next s1 hp _ _ s2 hr =>
  split at heq
  · cases heq
  next s3 hk =>
  have h3 : v s3 = v s2 := by
    split at hk
    · exact hv.reserve hk
    · cases hk
      rfl
  split at heq
  · cases heq
  next ha =>
  split at heq
  · cases heq
  next hb =>
  split at heq
  · cases heq
  next hc =>
  split at heq
  · cases heq
  next hd =>
  cases heq
  exact (hv.allocPages hd).trans ((hv.allocPages hc).trans ((hv.allocPages hb).trans ((hv.allocPages ha).trans (h3.trans ((hv.reserve hr).trans (hv.reserve hp))))))

theorem Except.ok_of_ite {ε α : Type} {c : Prop} [Decidable c] {e : ε} {x : Except ε α} {r : α} (h : (if c then .error e else x) = .ok r) :
    x = .ok r := by
  split at h
  · cases h
  · exact h

/-- The entry of a context that is made. -/
def State.newCtx (s : State) (c : Nat) (owner : OdRoute) (req : CreateReq) (d : ImageDecl) (standing : Bool) (b : List Byte) (h : ImageHead)
    (map ip pages sv : List Nat) (rp rr : Nat) : Ctx where
  st := .loading
  cls := req.cls
  debug := req.debug
  owner := owner
  k := h.k
  map := map
  ctrs := s.freeWork.take h.w
  channels := req.channels
  ways := req.ways
  req := some { req with ctx := some c }
  decl := some d
  imageDigest := (b.drop 64).take 64
  weightDigest := sha512 ((sectionOf b h 5).getD [])
  weightBytes := ((sectionOf b h 5).getD []).length
  spin := req.spin
  deschedUs := req.deschedUs
  standing := standing
  pages := pages
  imagePages := ip
  savePages := sv
  res := rr
  resP := rp
  lastFault := (s.ctx c).lastFault

/-- The context is made and, where it has its partition to itself, started. -/
def State.makeCtx (s t : State) (c kv : Nat) (x : Ctx) (copy : List Byte) (d : ImageDecl) (standing : Bool) (req : CreateReq) : State :=
  let t := (t.copyImage x.imagePages copy).modCtx c (fun _ => x)
  let t := x.ctrs.foldl (fun t p => t.modWork p (fun w => { w with owner := some c })) t
  let t := t.modRun c (fun r => { r with allotMw := s.allotOf req d, duty := 16, acct := [], power := [], rerun := [] })
  let t := if d.narrator.isSome then { t with narr := { t.narr with ctx := some c, kvRes := kv } } else t
  let hold := x.map.foldl (fun t cl => t.modCluster cl (fun k => { k with assigned := true, ctx := c })) t
  let t := if standing then hold
    else if req.share.isSome then (t.modCtx c (fun x => { x with st := .descheduled })).makeReady c
    else t.startPartition c
  (t.rebind c).offerBind c

theorem State.makeCtx_keeps (hv : State.BlindToContext v c) (hbind : ∀ s, v (s.offerBind c) = v s) (s t : State) (kv : Nat) (x : Ctx)
    (copy : List Byte) (d : ImageDecl) (standing : Bool) (req : CreateReq) : v (s.makeCtx t c kv x copy d standing req) = v t := by
  unfold State.makeCtx
  extract_lets t1 t2 t3 narr t4 hold t5
  have h1 : v t1 = v t := (hv.ctx _ _).trans (foldl_keeps v _ (fun t _ => hv.putBytes t _ _) _ t)
  have h2 : v t2 = v t1 := foldl_keeps v _ (fun t _ => hv.work t _) _ t1
  have h3 : v t3 = v t2 := hv.ctxRuns t2 _
  have h4 : v t4 = v t3 := ite_keeps (hv.narr t3 { narr with ctx := some c, kvRes := kv } rfl) rfl
  have hold' : v hold = v t4 := foldl_keeps v _ (fun t _ => hv.clusters t _) _ t4
  have h5 : v t5 = v t4 := ite_keeps hold' (ite_keeps ((hv.makeReady _).trans (hv.ctx t4 _)) (hv.startPartition t4))
  exact (hbind _).trans ((hv.rebind t5 c).trans (h5.trans (h4.trans (h3.trans (h2.trans h1)))))

theorem State.createCtx_ok {s t : State} {owner : OdRoute} {req : CreateReq} {d : ImageDecl} {standing : Bool} {b : List Byte}
    (h : s.createCtx owner req d standing b = .ok (c, t)) :
    ∃ (head : ImageHead) (rp rr kv : Nat) (ip pages sv : List Nat) (u : State) (x : Ctx) (copy : List Byte),
      s.takeCtxPages head d b req = some (rp, rr, kv, ip, pages, sv, u) ∧ t = s.makeCtx u c kv x copy d standing req := by
  unfold State.createCtx at h
  replace h := Except.ok_of_ite h
  cases hhead : readHead b with
  | none =>
    rw [hhead] at h
    cases h
  | some head =>
    rw [hhead] at h
    replace h := Except.ok_of_ite (Except.ok_of_ite h)
    cases hshape : LayerSection.shapeDetail (layersOf b head) with
    | some y =>
      rw [hshape] at h
      cases h
    | none =>
      rw [hshape] at h
      replace h := Except.ok_of_ite h
      cases hnum : s.ctxNumber req.ctx with
      | none =>
        rw [hnum] at h
        cases h
      | some c' =>
        rw [hnum] at h
        replace h := Except.ok_of_ite h
        cases hplace : s.place req head.k with
        | none =>
          rw [hplace] at h
          cases h
        | some map =>
          rw [hplace] at h
          replace h := Except.ok_of_ite h
          cases htake : s.takeCtxPages head d b req with
          | none =>
            rw [htake] at h
            cases h
          | some r =>
            obtain ⟨rp, rr, kv, ip, pages, sv, u⟩ := r
            rw [htake] at h
            replace h := Except.ok_of_ite h
            obtain ⟨rfl, rfl⟩ := Prod.mk.inj (Except.ok.inj h)
            exact ⟨head, rp, rr, kv, ip, pages, sv, u, s.newCtx c' owner req d standing b head map ip pages sv rp rr, b.take head.length, htake, rfl⟩

/-- A context made by a creation: what its pages, its partition and its start leave. -/
theorem State.createCtx_keeps (hv : ∀ c, State.BlindToContext v c) (hbind : ∀ s c, v (s.offerBind c) = v s) {s t : State} {owner : OdRoute}
    {req : CreateReq} {d : ImageDecl} {standing : Bool} {b : List Byte} (h : s.createCtx owner req d standing b = .ok (c, t)) : v t = v s := by
  obtain ⟨head, rp, rr, kv, ip, pages, sv, u, x, copy, htake, rfl⟩ := State.createCtx_ok h
  exact (State.makeCtx_keeps (hv c) (fun s => hbind s c) _ _ _ _ _ _ _ _).trans ((hv c).takeCtxPages htake)

/-! ### The views -/

theorem State.BlindToSlots.map {W : Type} (hv : State.BlindToSlots v) (g : V → W) : State.BlindToSlots (fun s => g (v s)) where
  out s o := congrArg g (hv.out s o)
  rings s r := congrArg g (hv.rings s r)
  colls s k := congrArg g (hv.colls s k)
  pci s p := congrArg g (hv.pci s p)
  od s d h h' := congrArg g (hv.od s d h h')
  kpr s k := congrArg g (hv.kpr s k)
  evid s e := congrArg g (hv.evid s e)
  tkp s k := congrArg g (hv.tkp s k)
  skv s k := congrArg g (hv.skv s k)
  stc s k := congrArg g (hv.stc s k)
  engines s k := congrArg g (hv.engines s k)
  narr s x h := congrArg g (hv.narr s x h)
  mem s m h := congrArg g (hv.mem s m h)
  pair s p hup h := congrArg g (hv.pair s p hup h)
  slot s n f h := congrArg g (hv.slot s n f h)

theorem State.BlindToFaults.map {W : Type} (hv : State.BlindToFaults v) (g : V → W) : State.BlindToFaults (fun s => g (v s)) where
  toBlindToSlots := hv.toBlindToSlots.map g
  raise s f := congrArg g (hv.raise s f)

theorem State.BlindToContext.map {W : Type} (hv : State.BlindToContext v c) (g : V → W) : State.BlindToContext (fun s => g (v s)) c where
  toBlindToFaults := hv.toBlindToFaults.map g
  flight s f := congrArg g (hv.flight s f)
  cores s k := congrArg g (hv.cores s k)
  clusters s k := congrArg g (hv.clusters s k)
  work s k := congrArg g (hv.work s k)
  ctxRuns s k := congrArg g (hv.ctxRuns s k)
  readyClock s k := congrArg g (hv.readyClock s k)
  ctx s f := congrArg g (hv.ctx s f)

/-- What neither a service nor a context changes: power, clock and boot, the pair, whether narration stopped, the states of the channels
and of the slots. -/
structure Outlook where
  pwr : Pwr
  clk : Clk
  boot : Boot
  pair : Pair
  pairSh : PairShadow
  shed : Bool
  chan : Nat → ChanSt
  run : Nat → SlotRun

def State.outlook (s : State) : Outlook where
  pwr := s.pwr
  clk := s.clk
  boot := s.boot
  pair := s.pair.seen
  pairSh := s.pairSh
  shed := s.narr.shed
  chan ch := (s.chan ch).st
  run n := (s.slot n).run

theorem State.modSlot_run (s : State) (n m : Nat) (f : Slot → Slot) (hf : ∀ x : Slot, (f x).run = x.run) : ((s.modSlot n f).slot m).run = (s.slot m).run := by
  by_cases h : m = n
  · rw [h]
    exact (congrArg Slot.run (tget_tset_same ({} : Slot) s.slots n _)).trans (hf _)
  · exact congrArg Slot.run (tget_tset_ne ({} : Slot) s.slots _ h)

theorem State.blindToContext_outlook (c : Nat) : State.BlindToContext State.outlook c where
  out _ _ := rfl
  rings _ _ := rfl
  colls _ _ := rfl
  pci _ _ := rfl
  od _ _ _ _ := rfl
  kpr _ _ := rfl
  evid _ _ := rfl
  tkp _ _ := rfl
  skv _ _ := rfl
  stc _ _ := rfl
  engines _ _ := rfl
  narr s _ h := congrArg (fun b => { s.outlook with shed := b }) h
  mem s _ h := congrArg (fun x => { s.outlook with chan := x }) (funext h)
  pair s _ hup h := congrArg (fun p => { s.outlook with pair := p }) (Pair.seen_of_up hup h)
  slot s n f h := congrArg (fun x => { s.outlook with run := x }) (funext (fun m => s.modSlot_run n m f h))
  raise s f := by
    obtain ⟨o, r, k, b, e, h⟩ := s.raise_frame f
    rw [h]
    rfl
  flight _ _ := rfl
  cores _ _ := rfl
  clusters _ _ := rfl
  work _ _ := rfl
  ctxRuns _ _ := rfl
  readyClock _ _ := rfl
  ctx _ _ := rfl

theorem State.blindToFaults_ctxs : State.BlindToFaults State.ctxs where
  out _ _ := rfl
  rings _ _ := rfl
  colls _ _ := rfl
  pci _ _ := rfl
  od _ _ _ _ := rfl
  kpr _ _ := rfl
  evid _ _ := rfl
  tkp _ _ := rfl
  skv _ _ := rfl
  stc _ _ := rfl
  engines _ _ := rfl
  narr _ _ _ := rfl
  mem _ _ _ := rfl
  pair _ _ _ _ := rfl
  slot _ _ _ _ := rfl
  raise s f := s.raise_ctxs f

/-- Another context than the one that is looked away from. -/
theorem State.blindToContext_ctx {m : Nat} (h : m ≠ c) : State.BlindToContext (fun s => s.ctx m) c where
  toBlindToFaults := State.blindToFaults_ctxs.map (fun t => tget ({} : Ctx) t m)
  flight _ _ := rfl
  cores _ _ := rfl
  clusters _ _ := rfl
  work _ _ := rfl
  ctxRuns _ _ := rfl
  readyClock _ _ := rfl
  ctx s _ := tget_tset_ne ({} : Ctx) s.ctxs _ h

/-- The last fault. -/
theorem State.blindToSlots_lastFault : State.BlindToSlots (fun s => (s.od.faultSeq, s.od.lastRecord)) where
  out _ _ := rfl
  rings _ _ := rfl
  colls _ _ := rfl
  pci _ _ := rfl
  od _ _ h h' := congrArg₂ Prod.mk h h'
  kpr _ _ := rfl
  evid _ _ := rfl
  tkp _ _ := rfl
  skv _ _ := rfl
  stc _ _ := rfl
  engines _ _ := rfl
  narr _ _ _ := rfl
  mem _ _ _ := rfl
  pair _ _ _ _ := rfl
  slot _ _ _ _ := rfl

end Sys2Proof.Machine
end

