-- ==== Sys2Proof/Proofs/SheddingAndStandby.lean ====
section
/-! PROOFS. Supply sag, parking, standby and wake (R381, R421, R466 to R471, R474, R475, R517, R523). -/
namespace Sys2Proof.Machine
open Sys2Proof

variable {s t : State} {n us : Nat}

/-! ### The steps' times (R466, R467) -/

theorem State.shedDefaults_due (s : State) (hsteps : s.pwr.steps = shedDefaults) (hwarn : s.pwr.warnSince = none) :
    let a := s.sagInputs true 0 1
    let b := a.sagInputs false 0 12000
    a.entryDue 1 1 = true ∧ a.entryDue 2 1000 = false ∧ a.entryDue 2 1001 = true ∧ a.entryDue 3 5000 = false ∧ a.entryDue 3 5001 = true ∧
    a.entryDue 4 10001 = true ∧ a.entryDue 5 12000 = false ∧ b.entryDue 1 12000 = false ∧ b.exitDue 4 5011999 = false ∧ b.exitDue 4 5012000 = true ∧
    b.exitDue 3 5012000 = true ∧ b.exitDue 2 2011999 = false ∧ b.exitDue 2 2012000 = true ∧ b.exitDue 1 1012000 = true := by
  simp [State.entryDue, State.exitDue, State.shedStep?, State.sagInputs, State.modPwr, hsteps, hwarn, shedDefaults, ShedStep.inputs]

/-! ### Steps entered and left (R467 to R469) -/

theorem tget_map {α : Type} (d : α) (g : α → α) (hd : g d = d) (t : Tbl α) (k : Nat) : tget d (t.map (fun p => (p.1, g p.2))) k = g (tget d t k) := by
  induction t with
  | nil => exact hd.symm
  | cons p t ih =>
    simp only [List.map_cons, tget]
    split
    · rfl
    · exact ih

theorem State.setShed_slot (s : State) (step m : Nat) (h : (s.slot m).run ≠ .unconfigured) :
    ((s.setShed step).slot m).shedNext = shedFor (s.slot m).cfg.stream.priority step := by
  have heq : (s.setShed step).slot m = if (s.slot m).run = .unconfigured then s.slot m
      else { s.slot m with shedNext := shedFor (s.slot m).cfg.stream.priority step } :=
    tget_map ({} : Slot) (fun x : Slot => if x.run = .unconfigured then x else { x with shedNext := shedFor x.cfg.stream.priority step }) rfl s.slots m
  rw [heq, if_neg h]

theorem State.shedAct_pwr (s : State) (n step : Nat) : (s.shedAct n step).pwr = s.pwr := by
  have hv : State.BlindToFaults State.pwr := ((State.blindToContext_outlook 0).map Outlook.pwr).toBlindToFaults
  exact ite_keeps (v := State.pwr) (ite_keeps (v := State.pwr) (hv.evidStop s) rfl) (ite_keeps (v := State.pwr) (hv.narrShed s _) rfl)

theorem State.shedRecord_frame (s : State) (b : Bool) (step : Nat) : (s.shedRecord b step).pwr = { s.pwr with events := (s.pwr.events + 1) % 2 ^ 32 }
    ∧ (s.shedRecord b step).od.lastRecord = faultRecord { code := evtPwrShed, unit := b2n b, detail := step } s.od.faultSeq
    ∧ (s.shedRecord b step).slots = s.slots ∧ (s.shedRecord b step).pair = s.pair ∧ (s.shedRecord b step).ctxs = s.ctxs := by
  obtain ⟨o, r, k, b', e, h⟩ := ({ s with pwr := { s.pwr with events := (s.pwr.events + 1) % 2 ^ 32 } } : State).raise_frame
    { code := evtPwrShed, unit := b2n b, detail := step }
  rw [State.shedRecord, h]
  exact ⟨rfl, rfl, rfl, rfl, rfl⟩

theorem State.enterStep_pwr (s : State) (n : Nat) (b : Bool) : (s.enterStep n b).pwr =
    { s.pwr with step := n, byBudget := setBit s.pwr.byBudget n b, events := (s.pwr.events + 1) % 2 ^ 32 } :=
  (State.shedAct_pwr _ n n).trans (State.shedRecord_frame _ b n).1

theorem State.leaveStep_pwr (s : State) (n : Nat) : (s.leaveStep n).pwr =
    { s.pwr with step := n - 1, byBudget := setBit s.pwr.byBudget n false, events := (s.pwr.events + 1) % 2 ^ 32 } :=
  (State.shedAct_pwr _ n (n - 1)).trans (State.shedRecord_frame _ _ (n - 1)).1

theorem State.shedAct_ge3 (s : State) {n : Nat} (step : Nat) (h : 3 ≤ n) : s.shedAct n step = s.setShed step := by
  rw [State.shedAct, if_neg (by omega), if_neg (by omega)]

theorem State.enterStep_two (s : State) : (s.enterStep 2 false).narr.shed = true :=
  ((State.blindToContext_outlook 0).map Outlook.shed).toBlindToFaults.narrShed _ true

/-- Steps 3 to 5 set the next shed_mode of every configured slot. -/
theorem State.shedModes (u : State) (b : Bool) (step : Nat) :
    ((u.shedRecord b step).setShed step).od.lastRecord = faultRecord { code := evtPwrShed, unit := b2n b, detail := step } u.od.faultSeq
    ∧ ∀ m, (u.slot m).run ≠ .unconfigured → (((u.shedRecord b step).setShed step).slot m).shedNext = shedFor (u.slot m).cfg.stream.priority step := by
  obtain ⟨-, hrec, hslots, -, -⟩ := u.shedRecord_frame b step
  have hslot : ∀ m, (u.shedRecord b step).slot m = u.slot m := fun m => congrArg (fun x => tget ({} : Slot) x m) hslots
  refine ⟨hrec, fun m hm => ?_⟩
  rw [State.setShed_slot _ step m (by rwa [hslot m]), hslot m]

theorem State.enterStep_modes (s : State) (h3 : 3 ≤ n) :
    (s.enterStep n false).od.lastRecord = faultRecord { code := evtPwrShed, unit := 0, detail := n } s.od.faultSeq
    ∧ ∀ m, (s.slot m).run ≠ .unconfigured → ((s.enterStep n false).slot m).shedNext = shedFor (s.slot m).cfg.stream.priority n := by
  rw [State.enterStep, State.shedAct_ge3 _ n h3]
  exact State.shedModes _ false n

theorem State.leaveStep_modes (s : State) (h3 : 3 ≤ n) (hsupply : bit s.pwr.byBudget n = false) :
    (s.leaveStep n).od.lastRecord = faultRecord { code := evtPwrShed, unit := 0, detail := n - 1 } s.od.faultSeq
    ∧ ∀ m, (s.slot m).run ≠ .unconfigured → ((s.leaveStep n).slot m).shedNext = shedFor (s.slot m).cfg.stream.priority (n - 1) := by
  unfold State.leaveStep
  dsimp only
  rw [hsupply, State.shedAct_ge3 _ (n - 1) h3]
  exact State.shedModes _ false (n - 1)

/-! ### Parking (R471) -/

theorem State.preempt_eq (s : State) (c : Nat) : ∃ k, s.preempt c = { s.modCtx c (fun x => { x with preempt := true }) with cores := k } :=
  ⟨_, State.foldl_modCore id _ _ _⟩

theorem State.preempt_ctx (s : State) (c m : Nat) : (s.preempt c).ctx m = if m = c then { s.ctx c with preempt := true } else s.ctx m := by
  obtain ⟨k, hk⟩ := s.preempt_eq c
  rw [hk]
  split
  next h =>
    rw [h]
    exact tget_tset_same ({} : Ctx) s.ctxs c _
  next h => exact tget_tset_ne ({} : Ctx) s.ctxs _ h

theorem State.preempt_pwr (s : State) (c : Nat) : (s.preempt c).pwr = s.pwr := by
  obtain ⟨k, hk⟩ := s.preempt_eq c
  rw [hk]
  rfl

theorem State.preempt_pair (s : State) (c : Nat) : (s.preempt c).pair = s.pair := by
  obtain ⟨k, hk⟩ := s.preempt_eq c
  rw [hk]
  rfl

theorem State.preemptAll (l : List Nat) (s : State) (m : Nat) (h : m ∈ l ∨ (s.ctx m).preempt = true) : ((l.foldl State.preempt s).ctx m).preempt = true := by
  induction l generalizing s with
  | nil =>
    rcases h with h | h
    · cases h
    · exact h
  | cons c l ih =>
    refine ih (s.preempt c) ?_
    rw [State.preempt_ctx]
    by_cases hc : m = c
    · exact Or.inr (by rw [if_pos hc])
    · rw [if_neg hc]
      rcases h with h | h
      · exact Or.inl ((List.mem_cons.mp h).resolve_left hc)
      · exact Or.inr h

/-- A parked device: every resident context has its pre-emption request. -/
theorem State.park_spec (s : State) : s.park.pwr.mode = .parked ∧ s.park.pwr.parkWait = false ∧ s.park.pwr.step = s.pwr.step
    ∧ ∀ c, (s.ctx c).st = .resident → (s.park.ctx c).preempt = true := by
  obtain ⟨run, hrun⟩ : ∃ run, run = (s.ctxs.filter (fun p => p.2.st == .resident && !p.2.preempt)).map (·.1) := ⟨_, rfl⟩
  obtain ⟨u, hu⟩ : ∃ u : State, u = { s with pwr := { s.pwr with mode := .parked, parkWait := false, fenced := run } } := ⟨_, rfl⟩
  have hpark : s.park = run.foldl State.preempt u := by
    rw [hu, hrun]
    rfl
  have hpwr : s.park.pwr = u.pwr := by
    rw [hpark]
    exact foldl_keeps State.pwr _ (fun t c => t.preempt_pwr c) _ _
  have hctx : ∀ c, u.ctx c = s.ctx c := fun c => by rw [hu]; rfl
  refine ⟨?_, ?_, ?_, fun c hc => ?_⟩
  · rw [hpwr, hu]
  · rw [hpwr, hu]
  · rw [hpwr, hu]
  · rw [hpark]
    refine State.preemptAll run u c ?_
    rw [hctx]
    by_cases hp : (s.ctx c).preempt = true
    · exact Or.inr hp
    · refine Or.inl ?_
      have hmem : (c, s.ctx c) ∈ s.ctxs := mem_of_tget_ne (fun h => by rw [State.ctx, h] at hc; cases hc)
      rw [hrun]
      exact List.mem_map.mpr ⟨(c, s.ctx c), List.mem_filter.mpr ⟨hmem, by simp [hc, hp]⟩, rfl⟩

/-! ### Channels -/

theorem State.foldl_modChan (f : DramChan → DramChan) (l : List Nat) (s : State) :
    ∃ k, l.foldl (fun s c => s.modChan c f) s = { s with mem := { s.mem with chans := k } } := by
  induction l generalizing s with
  | nil => exact ⟨_, rfl⟩
  | cons c l ih => exact ih (s.modChan c f)

theorem State.setChannels_frame (s : State) (st : ChanSt) : ∃ k, s.setChannels st = { s with mem := { s.mem with chans := k } } :=
  State.foldl_modChan _ _ s

theorem State.foldl_modChan_st (st : ChanSt) (hst : st ≠ .outOfUse) (l : List Nat) (s : State) (m : Nat) (hin : m ∈ l ∨ (s.chan m).st = st)
    (huse : (s.chan m).st ≠ .outOfUse) :
    ((l.foldl (fun s c => s.modChan c (fun x => if x.st = .outOfUse then x else { x with st := st })) s).chan m).st = st := by
  induction l generalizing s with
  | nil => exact hin.resolve_left (fun h => nomatch h)
  | cons c l ih =>
    by_cases hc : m = c
    · have hnew : ((s.modChan c (fun x => if x.st = .outOfUse then x else { x with st := st })).chan m).st = st := by
        rw [hc, State.modChan_chan, ← hc, if_neg huse]
      exact ih _ (Or.inr hnew) (by rw [hnew]; exact hst)
    · have hold : (s.modChan c (fun x => if x.st = .outOfUse then x else { x with st := st })).chan m = s.chan m := State.modChan_chan_ne s _ hc
      refine ih _ ?_ (by rw [hold]; exact huse)
      rw [hold]
      exact hin.imp_left (fun h => (List.mem_cons.mp h).resolve_left hc)

theorem State.setChannels_st {st : ChanSt} (hst : st ≠ .outOfUse) (s : State) {ch : Nat} (h : ch < 64) (huse : (s.chan ch).st ≠ .outOfUse) :
    ((s.setChannels st).chan ch).st = st :=
  State.foldl_modChan_st st hst _ s ch (Or.inl (mem_upto_iff.mpr (by omega))) huse

/-! ### Standby (R474) -/

theorem State.endSlot_run (s : State) (n m : Nat) : ((s.endSlot n).slot m).run = if m = n then .unconfigured else (s.slot m).run := by
  split
  next h =>
    rw [h]
    unfold State.endSlot
    extract_lets x s1 t1 s2 s3 s4 s5 s6 s7 s8
    split
    next h => exact h
    next => rw [State.modSlot_slot]
  next h =>
    exact ((State.blindToContext_outlook 0).map (fun o => o.run m)).endSlot (fun s _ => congrArg Slot.run (tget_tset_ne ({} : Slot) s.slots _ h)) s

theorem State.endSlots_run (l : List Nat) (s : State) (m : Nat) (h : m ∈ l ∨ (s.slot m).run = .unconfigured) :
    ((l.foldl State.endSlot s).slot m).run = .unconfigured := by
  induction l generalizing s with
  | nil => exact h.resolve_left (fun h => nomatch h)
  | cons n l ih =>
    refine ih (s.endSlot n) ?_
    rw [State.endSlot_run]
    by_cases hm : m = n
    · exact Or.inr (if_pos hm)
    · rw [if_neg hm]
      exact h.imp_left (fun h => (List.mem_cons.mp h).resolve_left hm)

theorem Ctx.tornDown_live (y : Ctx) (code : Nat) : (y.tornDown code).live = false := rfl

theorem State.teardownWith_live (s : State) (c code m : Nat) : ((s.teardownWith c code false).ctx m).live = if m = c then false else (s.ctx m).live := by
  split
  next h =>
    rw [h]
    by_cases hlive : (s.ctx c).live = true
    · obtain ⟨shared, heq⟩ := s.teardownWith_eq c code hlive
      have hctxs := State.blindToFaults_ctxs.leaveServices (fun _ _ => rfl) (s.endOwn c code shared) c code
      have hown : (s.endOwn c code shared).ctx c = (Ctx.tornDown _ code) := State.modCtx_ctx _ c _
      rw [heq, State.ctx, hctxs, ← State.ctx, hown, Ctx.tornDown_live]
    · rw [s.teardownWith_of_dead c code false (Bool.eq_false_iff.mpr hlive)]
      exact Bool.eq_false_iff.mpr hlive
  next h => exact congrArg Ctx.live ((State.blindToContext_ctx h).teardownWith s code)

theorem State.teardowns_live (l : List Nat) (code : Nat) (s : State) (m : Nat) (h : m ∈ l ∨ (s.ctx m).live = false) :
    ((l.foldl (fun s c => s.teardownWith c code false) s).ctx m).live = false := by
  induction l generalizing s with
  | nil => exact h.resolve_left (fun h => nomatch h)
  | cons c l ih =>
    refine ih (s.teardownWith c code false) ?_
    rw [State.teardownWith_live]
    by_cases hm : m = c
    · exact Or.inr (if_pos hm)
    · rw [if_neg hm]
      exact h.imp_left (fun h => (List.mem_cons.mp h).resolve_left hm)

/-- The state in which every slot and every context has ended. -/
def State.vacated (s : State) : State :=
  let s := (s.slots.map (·.1)).foldl State.endSlot s
  ((s.ctxs.filter (fun p => p.2.live)).map (·.1)).foldl (fun s c => s.teardownWith c 0 false) s

theorem State.vacated_outlook (s : State) : s.vacated.outlook.pwr = s.pwr ∧ s.vacated.outlook.chan = s.outlook.chan := by
  have hv : ∀ c, State.BlindToContext (fun s => (s.outlook.pwr, s.outlook.chan)) c := fun c =>
    (State.blindToContext_outlook c).map (fun o => (o.pwr, o.chan))
  have h1 : ∀ l : List Nat, ∀ t : State, ((l.foldl State.endSlot t).outlook.pwr, (l.foldl State.endSlot t).outlook.chan) = (t.outlook.pwr, t.outlook.chan) :=
    fun l t => foldl_keeps (fun s : State => (s.outlook.pwr, s.outlook.chan)) _ (fun t n => (hv 0).endSlot (fun _ _ => rfl) t) l t
  have h2 := foldl_keeps (fun s : State => (s.outlook.pwr, s.outlook.chan)) (fun s c => s.teardownWith c 0 false) (fun t c => (hv c).teardownWith t 0)
    ((((s.slots.map (·.1)).foldl State.endSlot s).ctxs.filter (fun p => p.2.live)).map (·.1)) ((s.slots.map (·.1)).foldl State.endSlot s)
  exact Prod.mk.inj (h2.trans (h1 _ s))

theorem State.vacated_run (s : State) (n : Nat) : (s.vacated.slot n).run = .unconfigured := by
  have hslots : (((s.slots.map (·.1)).foldl State.endSlot s).slot n).run = .unconfigured := by
    refine State.endSlots_run _ s n ?_
    by_cases h : (s.slot n).run = .unconfigured
    · exact Or.inr h
    · exact Or.inl (List.mem_map.mpr ⟨_, mem_of_tget_ne (d := ({} : Slot)) (fun h' => h (congrArg Slot.run h')), rfl⟩)
  have hv : ∀ c, State.BlindToContext (fun s => (s.slot n).run) c := fun c => (State.blindToContext_outlook c).map (fun o => o.run n)
  exact (foldl_keeps (fun s : State => (s.slot n).run) (fun s c => s.teardownWith c 0 false) (fun t c => (hv c).teardownWith t 0) _ _).trans hslots

theorem State.vacated_live (s : State) (c : Nat) : (s.vacated.ctx c).live = false := by
  refine State.teardowns_live _ 0 _ c ?_
  obtain ⟨u, hu⟩ : ∃ u, u = (s.slots.map (·.1)).foldl State.endSlot s := ⟨_, rfl⟩
  rw [← hu]
  by_cases h : (u.ctx c).live = true
  · refine Or.inl (List.mem_map.mpr ⟨(c, u.ctx c), List.mem_filter.mpr ⟨mem_of_tget_ne (fun h' => ?_), h⟩, rfl⟩)
    rw [State.ctx, h'] at h
    exact absurd h (by decide)
  · exact Or.inr (Bool.eq_false_iff.mpr h)

theorem State.vacated_flushed (u : State) : u.vacated.flushed.pwr = u.pwr ∧ (∀ ch, (u.vacated.flushed.chan ch).st = (u.chan ch).st)
    ∧ (∀ c, (u.vacated.flushed.ctx c).live = false) ∧ ∀ n, (u.vacated.flushed.slot n).run = .unconfigured := by
  obtain ⟨hpwr, hst⟩ := u.vacated_outlook
  have hflush := (State.blindToContext_outlook 0).flushed u.vacated
  have hctxs := State.blindToFaults_ctxs.flushed u.vacated
  refine ⟨(congrArg Outlook.pwr hflush).trans hpwr, fun ch => congrFun ((congrArg Outlook.chan hflush).trans hst) ch, fun c => ?_, fun n => ?_⟩
  · exact (congrArg (fun t => (tget ({} : Ctx) t c).live) hctxs).trans (u.vacated_live c)
  · exact (congrFun (congrArg Outlook.run hflush) n).trans (u.vacated_run n)

/-- What standby leaves: nothing runs, the retained eighths named, the channels in self-refresh. -/
structure State.AtStandby (s t : State) : Prop where
  mode : t.pwr.mode = .standby
  saddle : t.pci.saddleReady = false
  live : ∀ c, (t.ctx c).live = false
  run : ∀ n, (t.slot n).run = .unconfigured
  pasr : t.mem.pasr = s.keepMask ||| s.pwr.keepExtra % 65536
  chan : ∀ ch, ch < 64 → (s.chan ch).st ≠ .outOfUse → (t.chan ch).st = .selfRefresh

/-- The saddle goes to sleep. -/
def State.asleep (s : State) (keep : Nat) : State :=
  let s := { s with mem := { s.mem with pasr := keep ||| s.pwr.keepExtra % 65536, cache := [], flushing := false }
                    pci := { s.pci with saddleReady := false } }
  ((s.setChannels .selfRefresh).devEvent 0).modPwr (fun p => { p with mode := .standby })

theorem State.asleep_frame (s : State) (keep : Nat) : ∃ o b e k, s.asleep keep = { s with
    out := o, pci := { s.pci with pba := b, events := e, saddleReady := false }, pwr := { s.pwr with mode := .standby }
    mem := { s.mem with pasr := keep ||| s.pwr.keepExtra % 65536, cache := [], flushing := false, chans := k } }
    ∧ ∀ ch, ch < 64 → (s.chan ch).st ≠ .outOfUse → (tget ({} : DramChan) k ch).st = .selfRefresh := by
  unfold State.asleep
  extract_lets mem pci u
  obtain ⟨k, hk⟩ := u.setChannels_frame .selfRefresh
  obtain ⟨o, b, e, he⟩ := (u.setChannels .selfRefresh).devEvent_frame 0
  refine ⟨o, b, e, k, ?_, fun ch hch huse => ?_⟩
  · rw [he, hk]
    rfl
  · have hst : ((u.setChannels .selfRefresh).chan ch).st = .selfRefresh := State.setChannels_st (by decide) u hch huse
    rw [hk] at hst
    exact hst

theorem State.enterStandby_eq (s : State) (h : s.pwr.mode = .run) : s.enterStandby =
    (s.modPwr (fun p => { p with mode := .entering, parkWait := false, fenced := [] })).remember.vacated.flushed.asleep
      (s.modPwr (fun p => { p with mode := .entering, parkWait := false, fenced := [] })).remember.keepMask := by
  unfold State.enterStandby State.vacated State.asleep
  rw [if_neg (by rw [h]; decide), if_neg (by rw [h]; decide)]

theorem State.enterStandby_of_run (s : State) (h : s.pwr.mode = .run) : s.AtStandby s.enterStandby := by
  obtain ⟨u, hu⟩ : ∃ u : State, u = (s.modPwr (fun p => { p with mode := .entering, parkWait := false, fenced := [] })).remember := ⟨_, rfl⟩
  have heq : s.enterStandby = u.vacated.flushed.asleep u.keepMask := by
    rw [hu]
    exact s.enterStandby_eq h
  have hkeep : u.keepMask = s.keepMask := by rw [hu]; rfl
  have hextra : u.pwr.keepExtra = s.pwr.keepExtra := by rw [hu]; rfl
  have hchan : ∀ ch, u.chan ch = s.chan ch := fun ch => by rw [hu]; rfl
  obtain ⟨hpwr, hst, hlive, hrun⟩ := u.vacated_flushed
  obtain ⟨w, hw⟩ : ∃ w, w = u.vacated.flushed := ⟨_, rfl⟩
  rw [← hw] at hpwr hst hlive hrun heq
  obtain ⟨o, b, e, k, hasleep, hself⟩ := w.asleep_frame u.keepMask
  rw [heq, hasleep]
  refine ⟨rfl, rfl, hlive, hrun, ?_, fun ch hch huse => hself ch hch ?_⟩
  · exact congrArg₂ (fun (x y : Nat) => x ||| y % 65536) hkeep ((congrArg Pwr.keepExtra hpwr).trans hextra)
  · rwa [hst, hchan]

/-! ### Wake and the way back (R381, R475, R517, R518) -/

theorem State.clearSteps_pwr (k : Nat) (s : State) (h : s.pwr.step ≤ k) :
    (State.clearSteps k s).pwr.step = 0 ∧ (State.clearSteps k s).pwr.mode = s.pwr.mode := by
  induction k generalizing s with
  | zero => exact ⟨Nat.le_zero.mp h, rfl⟩
  | succ k ih =>
    unfold State.clearSteps
    split
    next h0 => exact ih s (by omega)
    next h0 =>
      have hp := s.leaveStep_pwr s.pwr.step
      have hstep : (s.leaveStep s.pwr.step).pwr.step = s.pwr.step - 1 := by rw [hp]
      have hmode : (s.leaveStep s.pwr.step).pwr.mode = s.pwr.mode := by rw [hp]
      obtain ⟨h1, h2⟩ := ih (s.leaveStep s.pwr.step) (by omega)
      exact ⟨h1, h2.trans hmode⟩

theorem State.signalWake_spec (s : State) : s.signalWake.pwr = s.pwr ∧ bit s.signalWake.pci.events 2 = true := by
  obtain ⟨o, b, e, h⟩ := s.devEvent_frame 2
  have hp : (s.devEvent 2).pwr = s.pwr := by rw [h]
  have hb := s.bit_devEvent 2
  unfold State.signalWake
  dsimp only
  split
  · exact ⟨hp, hb⟩
  · split
    · exact ⟨hp, hb⟩
    · exact ⟨hp, hb⟩

theorem State.wake_spec (s : State) (b : Bool) (hmode : s.pwr.mode = .standby) (hstep : s.pwr.step ≤ 6) :
    (s.wake b).pwr.mode = .leaving ∧ (s.wake b).pwr.step = 0 ∧ (b = true → bit (s.wake b).pci.events 2 = true) := by
  obtain ⟨u, hu⟩ : ∃ u, u = State.clearSteps 6 (s.modPwr (fun p => { p with mode := .leaving })) := ⟨_, rfl⟩
  obtain ⟨h0, hm⟩ := State.clearSteps_pwr 6 (s.modPwr (fun p => { p with mode := .leaving })) hstep
  rw [← hu] at h0 hm
  have heq : s.wake b = if b then u.signalWake else u := by
    rw [State.wake, if_neg (by rw [hmode]; exact fun h => h rfl), hu]
  obtain ⟨hp, hb⟩ := u.signalWake_spec
  rw [heq]
  cases b with
  | false => exact ⟨hm, h0, fun h => nomatch h⟩
  | true =>
    rw [if_pos rfl, hp]
    exact ⟨hm, h0, fun _ => hb⟩

/-- The saddle wakes: its channels active, its lost eighths filled. -/
def State.awake (s : State) : State :=
  let s := s.loseEighths.setChannels .active
  ({ s with pci := { s.pci with saddleReady := true } }).devEvent 0

theorem State.awake_frame (s : State) : ∃ o b e k, s.awake = { s.loseEighths with
    out := o, pci := { s.pci with pba := b, events := e, saddleReady := true }, mem := { s.loseEighths.mem with chans := k } }
    ∧ ∀ ch, ch < 64 → (s.chan ch).st ≠ .outOfUse → (tget ({} : DramChan) k ch).st = .active := by
  unfold State.awake
  extract_lets u pci
  obtain ⟨k, hk⟩ := s.loseEighths.setChannels_frame .active
  obtain ⟨o, b, e, he⟩ := ({ u with pci := { pci with saddleReady := true } } : State).devEvent_frame 0
  have hu : u = { s.loseEighths with mem := { s.loseEighths.mem with chans := k } } := hk
  refine ⟨o, b, e, k, ?_, fun ch hch huse => ?_⟩
  · rw [he, hu]
    rfl
  · have hst : ((s.loseEighths.setChannels .active).chan ch).st = .active := State.setChannels_st (by decide) s.loseEighths hch huse
    rw [hk] at hst
    exact hst

theorem State.resumeRun_nothing (u : State) (hctx : u.pwr.restore = []) (hslot : u.pwr.restoreSlots = []) :
    u.resumeRun = u.modPwr (fun p => { p with restore := [], restoreSlots := [] }) := by
  unfold State.resumeRun
  dsimp only
  rw [hctx, hslot]
  rfl

theorem State.saddleBack_eq (s : State) (hmode : s.pwr.mode = .leaving) (hctx : s.pwr.restore = []) (hslot : s.pwr.restoreSlots = [])
    (hagain : s.pwr.pendingStandby = false) :
    ∃ p, s.saddleBack = { s.awake with pwr := p } ∧ p.mode = .run := by
  obtain ⟨o, b, e, k, haw, -⟩ := s.awake_frame
  have hpwr : s.awake.pwr = s.pwr := by rw [haw]; rfl
  obtain ⟨u, hu⟩ : ∃ u, u = s.awake := ⟨_, rfl⟩
  have heq : s.saddleBack = if u.pwr.pendingStandby then (u.modPwr (fun p => { p with mode := .run, pendingStandby := false })).resumeRun.enterStandby
      else (u.modPwr (fun p => { p with mode := .run, pendingStandby := false })).resumeRun := by
    rw [State.saddleBack, if_neg (by rw [hmode]; exact fun h => h rfl), hu]
    rfl
  rw [← hu] at hpwr
  refine ⟨{ u.pwr with mode := .run, pendingStandby := false, restore := [], restoreSlots := [] }, ?_, rfl⟩
  rw [heq, if_neg (by rw [hpwr, hagain]; exact Bool.false_ne_true),
    State.resumeRun_nothing _ (by rw [← hctx, ← hpwr]; rfl) (by rw [← hslot, ← hpwr]; rfl), hu]
  rfl

/-- What the end of self-refresh leaves: the channels active, the kept eighths as they were and the lost ones zero. -/
theorem State.saddleBack_spec (s : State) (hmode : s.pwr.mode = .leaving) (hctx : s.pwr.restore = []) (hslot : s.pwr.restoreSlots = [])
    (hagain : s.pwr.pendingStandby = false) :
    s.saddleBack.pwr.mode = .run ∧ s.saddleBack.pci.saddleReady = true ∧ (∀ ch, ch < 64 → (s.chan ch).st ≠ .outOfUse → (s.saddleBack.chan ch).st = .active)
    ∧ (∀ a, a < saddleSize → s.saddleBack.rdByte a = if s.keeps a then s.rdByte a else 0#8)
    ∧ (∀ a, a < saddleSize → s.keeps a = false → s.saddleBack.lineFails a = false) := by
  obtain ⟨p, heq, hrun⟩ := s.saddleBack_eq hmode hctx hslot hagain
  obtain ⟨o, b, e, k, haw, hst⟩ := s.awake_frame
  rw [heq, haw]
  have hstays : ∀ a, a < saddleSize → (!inSaddle a || s.keeps a) = s.keeps a := fun a ha => by simp [inSaddle, ha]
  refine ⟨hrun, rfl, hst, fun a ha => ?_, fun a ha hlost => ?_⟩
  · have h := tget_filter_key (0#8) (fun a => !inSaddle a || s.keeps a) s.mem.bytes a
    rw [hstays a ha] at h
    exact h
  · have h := tget_filter_key false (fun a => !inSaddle a || s.keeps a) s.mem.failing a
    rw [hstays a ha, hlost, if_neg (by exact Bool.false_ne_true)] at h
    exact h

/-! ### The commands -/

section
variable (hup : s.up = true)
include hup

theorem answers_pwrWarn (w : Bool) : (s.pwr.us ≤ us → Answers (.pwrWarn w us) s (s.sagInputs w s.pwr.droop us)) ∧ (us < s.pwr.us → Answers (.pwrWarn w us) s s) :=
  ⟨fun h => answers_congr (answers_whenUp rfl hup) (if_pos h), fun h => answers_congr (answers_whenUp rfl hup) (if_neg (Nat.not_le.mpr h))⟩

theorem answers_droopChange (x : Nat) : (s.pwr.us ≤ us → Answers (.droopChange x us) s (s.sagInputs s.pwr.warn x us)) ∧ (us < s.pwr.us → Answers (.droopChange x us) s s) :=
  ⟨fun h => answers_congr (answers_whenUp rfl hup) (if_pos h), fun h => answers_congr (answers_whenUp rfl hup) (if_neg (Nat.not_le.mpr h))⟩

theorem answers_shedStepEntry_early (h : n = 0 ∨ 6 < n ∨ us < s.pwr.us ∨ s.entryDue n us = false) : Answers (.shedStepEntry n us) s s :=
  answers_congr (answers_whenUp rfl hup) (if_pos (by simpa using h))

/-- A step that is due by supply. -/
theorem answers_shedStepEntry_due (h1 : 1 ≤ n) (h6 : n ≤ 6) (hus : s.pwr.us ≤ us) (hdue : s.entryDue n us = true) :
    Answers (.shedStepEntry n us) s
      (if n ≤ s.pwr.step then (s.modPwr (fun p => { p with us := us })).modPwr (fun p => { p with byBudget := setBit p.byBudget n false })
       else if n ≠ s.pwr.step + 1 then s.modPwr (fun p => { p with us := us })
       else if n = 6 then ((s.modPwr (fun p => { p with us := us })).enterStep n false).stepSix
       else (s.modPwr (fun p => { p with us := us })).enterStep n false) := by
  refine answers_congr (answers_whenUp rfl hup) (if_neg ?_)
  simp only [hdue, Bool.not_true, Bool.false_eq_true, or_false]
  omega

theorem answers_shedStepEntry_next (h1 : 1 ≤ n) (h6 : n ≤ 6) (hus : s.pwr.us ≤ us) (hdue : s.entryDue n us = true) (hn : n = s.pwr.step + 1) :
    Answers (.shedStepEntry n us) s (if n = 6 then ((s.modPwr (fun p => { p with us := us })).enterStep n false).stepSix
       else (s.modPwr (fun p => { p with us := us })).enterStep n false) :=
  answers_congr (answers_shedStepEntry_due hup h1 h6 hus hdue) ((if_neg (by omega)).trans (if_neg (fun h => h hn)))

theorem answers_shedStepExit_early (h : n = 0 ∨ n ≠ s.pwr.step ∨ us < s.pwr.us ∨ bit s.pwr.byBudget n = true ∨ s.exitDue n us = false) :
    Answers (.shedStepExit n us) s s :=
  answers_congr (answers_whenUp rfl hup) (if_pos (by simpa using h))

theorem answers_shedStepExit_due (hn : n = s.pwr.step) (h3 : 3 ≤ n) (h5 : n ≤ 5) (hus : s.pwr.us ≤ us) (hsupply : bit s.pwr.byBudget n = false)
    (hdue : s.exitDue n us = true) : Answers (.shedStepExit n us) s ((s.modPwr (fun p => { p with us := us })).leaveStep n) := by
  refine answers_congr (answers_whenUp rfl hup) ((if_neg ?_).trans (if_neg (by omega)))
  simp only [hdue, hsupply, Bool.not_true, Bool.false_eq_true, or_false]
  omega

theorem answers_standbyWake (b : Bool) : Answers (.standbyWake b) s (s.wake b) := answers_whenUp rfl hup

theorem answers_selfRefreshExitComplete : Answers .selfRefreshExitComplete s s.saddleBack := answers_whenUp rfl hup

end

theorem answers_shedParkTimeout (hr : s.ready = true) : Answers .shedParkTimeout s (if s.pwr.parkWait then s.park else s) := answers_whenReady rfl hr

/-- Steps 1 and 2 of an entry by supply. -/
theorem reaches_shedStepEntry_low (hup : s.up = true) (h1 : 1 ≤ n) (hus : s.pwr.us ≤ us) (hdue : s.entryDue n us = true) (hn : n = s.pwr.step + 1) (h2 : n ≤ 2) :
    Reaches (.shedStepEntry n us) s (fun t => t.pwr.step = n ∧ t.pwr.events = (s.pwr.events + 1) % 2 ^ 32 ∧ (n = 2 → t.narr.shed = true)) := by
  have hp := State.enterStep_pwr (s.modPwr (fun p => { p with us := us })) n false
  refine reaches_of_answers (answers_congr (answers_shedStepEntry_next hup h1 (by omega) hus hdue hn) (if_neg (by omega))) ⟨?_, ?_, ?_⟩
  · exact congrArg Pwr.step hp
  · exact congrArg Pwr.events hp
  · rintro rfl
    exact State.enterStep_two _

theorem reaches_shedStepEntry_modes (hup : s.up = true) (hus : s.pwr.us ≤ us) (hdue : s.entryDue n us = true) (hn : n = s.pwr.step + 1) (h3 : 3 ≤ n) (h5 : n ≤ 5) :
    Reaches (.shedStepEntry n us) s (fun t => t.pwr.step = n ∧ t.pwr.events = (s.pwr.events + 1) % 2 ^ 32 ∧
      t.od.lastRecord = faultRecord { code := evtPwrShed, unit := 0, detail := n } s.od.faultSeq ∧
      ∀ m, (s.slot m).run ≠ .unconfigured → (t.slot m).shedNext = shedFor (s.slot m).cfg.stream.priority n) := by
  have hp := State.enterStep_pwr (s.modPwr (fun p => { p with us := us })) n false
  obtain ⟨hrec, hmodes⟩ := State.enterStep_modes (s.modPwr (fun p => { p with us := us })) h3
  refine reaches_of_answers (answers_congr (answers_shedStepEntry_next hup (by omega) (by omega) hus hdue hn) (if_neg (by omega))) ⟨?_, ?_, hrec, hmodes⟩
  · exact congrArg Pwr.step hp
  · exact congrArg Pwr.events hp

/-- Step 6 without a partner parks at once. -/
theorem reaches_shedStepEntry_six (hup : s.up = true) (hus : s.pwr.us ≤ us) (hdue : s.entryDue 6 us = true) (hn : 6 = s.pwr.step + 1) (hmode : s.pair.mode = 0) :
    Reaches (.shedStepEntry 6 us) s (fun t => t.pwr.step = 6 ∧ t.pwr.mode = .parked ∧ ∀ c, (s.ctx c).st = .resident → (t.ctx c).preempt = true) := by
  obtain ⟨u, hu⟩ : ∃ u, u = (s.modPwr (fun p => { p with us := us })).enterStep 6 false := ⟨_, rfl⟩
  have hp := State.enterStep_pwr (s.modPwr (fun p => { p with us := us })) 6 false
  rw [← hu] at hp
  have hkept : u.pair = s.pair ∧ u.ctxs = s.ctxs := by
    rw [hu, State.enterStep, State.shedAct_ge3 _ 6 (by omega)]
    exact (State.shedRecord_frame _ false 6).2.2.2
  obtain ⟨hpair, hctxs⟩ := hkept
  obtain ⟨hparked, -, hstep, hpre⟩ := u.park_spec
  have hsix : u.stepSix = u.park := by rw [State.stepSix, if_pos (by rw [hpair]; exact hmode)]
  refine reaches_of_answers (answers_congr (answers_shedStepEntry_next hup (by omega) (by omega) hus hdue hn) ((if_pos rfl).trans (hu ▸ hsix))) ⟨?_, hparked, fun c hc => ?_⟩
  · exact hstep.trans (congrArg Pwr.step hp)
  · exact hpre c ((congrArg (fun t => (tget ({} : Ctx) t c).st) hctxs).trans hc)

end Sys2Proof.Machine

namespace Sys2Proof.Proofs
open Sys2Proof Sys2Proof.Machine

/-- Settles O52. -/
theorem sheddingAndStandby : Obligations.SheddingAndStandby := by
  unfold Obligations.SheddingAndStandby
  refine ⟨fun s w x us hup => ⟨fun h => ⟨(answers_pwrWarn hup w).1 h, (answers_droopChange hup x).1 h⟩,
      fun h => ⟨(answers_pwrWarn hup w).2 h, (answers_droopChange hup x).2 h⟩⟩,
    fun s hsteps _ hsince _ => s.shedDefaults_due hsteps hsince, fun s n us hup => ?_, fun s hr => ?_, fun s r hr => ?_, fun s b hup => ?_⟩
  · refine ⟨answers_shedStepEntry_early hup, fun h1 h6 hus hdue => ⟨fun h => ?_, fun h => ?_, fun hn h2 => ?_, fun hn h3 h5 => ?_, fun hn hsix hmode => ?_⟩,
      answers_shedStepExit_early hup, fun hn h3 h5 hus hsupply hdue => ?_⟩
    · exact answers_congr (answers_shedStepEntry_due hup h1 h6 hus hdue) (if_pos h)
    · exact answers_congr (answers_shedStepEntry_due hup h1 h6 hus hdue) ((if_neg (by omega)).trans (if_pos (by omega)))
    · exact reaches_shedStepEntry_low hup h1 hus hdue hn h2
    · exact reaches_shedStepEntry_modes hup hus hdue hn h3 h5
    · subst hsix
      exact reaches_shedStepEntry_six hup hus hdue hn hmode
    · obtain ⟨hrec, hmodes⟩ := State.leaveStep_modes (s.modPwr (fun p => { p with us := us })) h3 hsupply
      exact reaches_of_answers (answers_shedStepExit_due hup hn h3 h5 hus hsupply hdue)
        ⟨congrArg Pwr.step (State.leaveStep_pwr (s.modPwr (fun p => { p with us := us })) n), hrec, hmodes⟩
  · refine ⟨fun h => answers_congr (answers_shedParkTimeout hr) (if_neg (by rw [h]; exact Bool.false_ne_true)), fun h => ?_⟩
    obtain ⟨hparked, hwait, -, hpre⟩ := s.park_spec
    exact reaches_of_answers (answers_congr (answers_shedParkTimeout hr) (if_pos h)) ⟨hparked, hwait, hpre⟩
  · refine ⟨fun h => answers_denied hr h rfl, fun h hmode => ?_⟩
    obtain ⟨hstandby, hsaddle, hlive, hrun, hpasr, hchan⟩ := s.enterStandby_of_run hmode
    exact reaches_of_answers (answers_status hr h rfl rfl (by omega)) ⟨hstandby, hsaddle, hlive, hrun, hpasr, hchan, rfl⟩
  · refine ⟨fun h => answers_congr (answers_standbyWake hup b) (if_pos h), fun hmode hstep => ?_,
      fun h => answers_congr (answers_selfRefreshExitComplete hup) (if_pos h), fun hmode hctx hslot hagain => ?_⟩
    · exact reaches_of_answers (answers_standbyWake hup b) (s.wake_spec b hmode hstep)
    · exact reaches_of_answers (answers_selfRefreshExitComplete hup) (s.saddleBack_spec hmode hctx hslot hagain)

end Sys2Proof.Proofs
end

