-- ==== Sys2Proof/Proofs/StirrupLink.lean ====
section
/-! PROOFS. The Stirrup link: frames sent and received, timers, the link's end and its training (R453, R485 to R492, R500). -/
namespace Sys2Proof.Machine
open Sys2Proof

variable {s t : State} {f : Frame}

/-! ### A frame sent (R490, R491) -/

theorem State.stirrupSend_down (kind : Nat) (p : List Byte) (h : s.pair.link ≠ 2) : s.stirrupSend kind p = s := if_neg h

theorem State.stirrupDrain_none (k : Nat) (h : s.pair.txWait = []) : State.stirrupDrain k s = s := by
  cases k with
  | zero => rfl
  | succ k =>
    unfold State.stirrupDrain
    rw [h]

theorem State.stirrupSend_room (kind : Nat) (p : List Byte) (hup : s.pair.link = 2) (hwait : s.pair.txWait = [])
    (hroom : s.pair.heldBytes + p.length + 20 ≤ 2 ^ 20) : s.stirrupSend kind p = { s with
      out := .stirrup (s.pair.frame kind false s.pair.txSeq p) :: s.out
      pair := { s.pair with txSeq := (s.pair.txSeq + 1) % 2 ^ 32, unacked := s.pair.unacked ++ [(kind, s.pair.txSeq, p)] } } := by
  have hone : ({ s with pair := { s.pair with txWait := s.pair.txWait ++ [(kind, p)] } } : State).pair.txWait = [(kind, p)] := by
    dsimp only
    rw [hwait]
    rfl
  unfold State.stirrupSend
  rw [if_pos hup, State.stirrupDrain]
  rw [hone]
  dsimp only
  rw [if_pos (by exact hroom), State.stirrupDrain_none _ (by rfl)]
  have hpair : ∀ q : Pair, q.txWait = [] → { q with
      txWait := [], txSeq := (q.txSeq + 1) % 2 ^ 32, unacked := q.unacked ++ [(kind, q.txSeq, p)] } =
      { q with txSeq := (q.txSeq + 1) % 2 ^ 32, unacked := q.unacked ++ [(kind, q.txSeq, p)] } := fun q hq => by rw [hq]
  exact congrArg (fun q => ({ s with out := .stirrup (s.pair.frame kind false s.pair.txSeq p) :: s.out, pair := q } : State)) (hpair s.pair hwait)

/-! ### What delivery leaves of the pair -/

theorem State.route_pair (s : State) (n ty : Nat) (bytes : List Byte) : (s.route n ty bytes).pair = s.pair := by
  have hring : ∀ (u : State) (k : Nat), (u.ringPut k bytes).2.pair = u.pair := fun u k => by
    obtain ⟨o, r, b, h⟩ := u.ringPut_frame k bytes
    rw [h]
  have hcoll : ∀ (u : State) (k : Nat), (u.collPut k bytes).2.pair = u.pair := fun u k => by
    obtain ⟨o, c, h⟩ := u.collPut_frame k bytes
    rw [h]
  unfold State.route
  extract_lets r ring coll u
  have hu : u.pair = s.pair := ite_keeps (v := State.pair) (hring s ring) rfl
  exact ite_keeps (v := State.pair) ((hcoll u coll).trans hu) hu

theorem State.msix_pair (s : State) (k : Nat) : (s.msix k).pair = s.pair := by
  obtain ⟨o, b, h⟩ := s.msix_frame k
  rw [h]

theorem State.deliver_pair (h : HeldReply) (s : State) : (h.deliver s).pair = s.pair := by
  unfold HeldReply.deliver
  split
  · exact ite_keeps (v := State.pair) rfl rfl
  · exact ite_keeps (v := State.pair) (State.msix_pair _ 0) rfl
  · exact ite_keeps (v := State.pair) rfl rfl
  · exact ite_keeps (v := State.pair) (by rw [State.emits_eq]) rfl

/-- The acknowledgement of a frame lets responses go, and changes nothing else of the pair. -/
theorem State.ackFrame_pair (s : State) (g : Nat × Nat × List Byte) : ∃ w, (s.ackFrame g).pair = { s.pair with commitWait := w } := by
  unfold State.ackFrame
  extract_lets kind n s1 done s2
  have h1 : s1.pair = s.pair := by
    refine ite_keeps (v := State.pair) ?_ (ite_keeps (v := State.pair) rfl rfl)
    exact foldl_keeps State.pair _ (fun t (r : Nat × Nat × List Byte) => t.route_pair n r.1 r.2.2) _ _
  have h2 : s2.pair = { s.pair with commitWait := s1.pair.commitWait.filter (fun w => w.2 != g.2.1) } :=
    congrArg (fun p : Pair => { p with commitWait := s1.pair.commitWait.filter (fun w => w.2 != g.2.1) }) h1
  exact ⟨_, (foldl_keeps State.pair _ (fun t (w : HeldReply × Nat) => State.deliver_pair w.1 t) done s2).trans h2⟩

theorem State.ackFrames_pair (l : List (Nat × Nat × List Byte)) (s : State) : ∃ w, (l.foldl State.ackFrame s).pair = { s.pair with commitWait := w } := by
  induction l generalizing s with
  | nil => exact ⟨s.pair.commitWait, rfl⟩
  | cons g l ih =>
    obtain ⟨w, hw⟩ := ih (s.ackFrame g)
    obtain ⟨w', hw'⟩ := s.ackFrame_pair g
    rw [hw'] at hw
    exact ⟨w, hw⟩

theorem State.checkSynced_pair (s : State) : ∃ b, s.checkSynced.pair = { s.pair with synced := b } := by
  unfold State.checkSynced
  split
  · exact ⟨true, State.raise_pair _ _⟩
  · exact ⟨s.pair.synced, rfl⟩

theorem State.checkSynced_done (h : s.pair.synced = true) : s.checkSynced = s := by
  unfold State.checkSynced
  rw [if_neg]
  simp [h]

/-! ### The head of a frame (R490, R491) -/

/-- With nothing waiting and no slot being given, a head sets the heartbeat and drops what it acknowledges. -/
theorem State.frameHead_pair (hwait : s.pair.txWait = []) (hgive : s.pair.giving = []) :
    (s.frameHead f).pair.partnerHb = f.hb ∧ (s.frameHead f).pair.unacked = s.pair.unacked.filter (fun u => !seqLe u.2.1 f.ack)
    ∧ (s.frameHead f).pair.rxSeq = s.pair.rxSeq := by
  unfold State.frameHead
  extract_lets got s1 s2 s3
  obtain ⟨w, hw⟩ := State.ackFrames_pair got s1
  have hs2 : s2.pair = { s1.pair with commitWait := w } := hw
  have hdrain : s3 = s2.checkSynced := congrArg State.checkSynced (State.stirrupDrain_none _ (by rw [hs2]; exact hwait))
  obtain ⟨b, hb⟩ := s2.checkSynced_pair
  have hs3 : s3.pair = { s1.pair with commitWait := w, synced := b } := by rw [hdrain, hb, hs2]
  have hnone : (s3.pair.giving.map (·.1)) = [] := by
    rw [hs3]
    exact congrArg (List.map _) hgive
  rw [hnone, List.foldl_nil, hs3]
  exact ⟨rfl, rfl, rfl⟩

/-- With nothing unacknowledged besides, only the heartbeat changes. -/
theorem State.frameHead_quiet (hnone : s.pair.unacked = []) (hwait : s.pair.txWait = []) (hgive : s.pair.giving = []) (hsync : s.pair.synced = true) :
    s.frameHead f = s.modPair (fun p => { p with partnerHb := f.hb }) := by
  have hp : ∀ p : Pair, p.unacked = [] → { p with
      partnerHb := f.hb, resends := if (p.unacked.filter (fun u => seqLe u.2.1 f.ack)).isEmpty then p.resends else 0
      unacked := p.unacked.filter (fun u => !seqLe u.2.1 f.ack) } = { p with partnerHb := f.hb } := fun p h => by
    simp only [h, List.filter_nil, List.isEmpty_nil, if_true]
  obtain ⟨u, hu⟩ : ∃ u, u = s.modPair (fun p => { p with partnerHb := f.hb }) := ⟨_, rfl⟩
  have hu1 : s.modPair (fun p => { p with
      partnerHb := f.hb, resends := if (s.pair.unacked.filter (fun u => seqLe u.2.1 f.ack)).isEmpty then p.resends else 0
      unacked := p.unacked.filter (fun u => !seqLe u.2.1 f.ack) }) = u := by
    rw [hu]
    exact congrArg (fun p => ({ s with pair := p } : State)) (hp s.pair hnone)
  unfold State.frameHead
  dsimp only
  rw [hu1, hnone, List.filter_nil, List.foldl_nil, State.stirrupDrain_none _ (by rw [hu]; exact hwait), State.checkSynced_done (by rw [hu]; exact hsync)]
  have hg : u.pair.giving = [] := by rw [hu]; exact hgive
  rw [hg, hu]
  rfl

/-! ### Frames of types 1 to 4 -/

theorem State.takeFrame_down (ok : Bool) (e : State → State) (h : s.pair.link ≠ 2) : s.takeFrame f ok e = s := if_pos h

theorem State.takeFrame_bad {ok : Bool} (e : State → State) (hup : s.pair.link = 2) (h : 4096 < f.payload.length ∨ ok = false) :
    s.takeFrame f ok e = s.badFrame :=
  (if_neg (not_not_intro hup)).trans (if_pos (by simpa using h))

/-- The link is up with nothing unacknowledged, waiting or given, and a frame of legal length comes. -/
structure State.Quiet (s : State) (f : Frame) : Prop where
  up : s.pair.link = 2
  unacked : s.pair.unacked = []
  wait : s.pair.txWait = []
  giving : s.pair.giving = []
  synced : s.pair.synced = true
  fits : f.payload.length ≤ 4096

/-- A frame out of order shows its heartbeat alone; the next one expected is counted. -/
def State.sees (s : State) (f : Frame) : State := s.modPair (fun p => { p with partnerHb := f.hb })
def State.takes (s : State) (f : Frame) : State := s.modPair (fun p => { p with partnerHb := f.hb, rxSeq := (p.rxSeq + 1) % 2 ^ 32 })

theorem State.takeFrame_quiet (e : State → State) (h : s.Quiet f) :
    s.takeFrame f true e = if f.seq = s.pair.rxSeq then e (s.takes f) else s.sees f := by
  unfold State.takeFrame
  rw [if_neg (not_not_intro h.up), if_neg (by simpa using h.fits), State.frameHead_quiet h.unacked h.wait h.giving h.synced]
  rfl

theorem State.takeFrame_other {ok : Bool} (e : State → State) (h : s.Quiet f) (hok : ok = true) (hseq : f.seq ≠ s.pair.rxSeq) :
    s.takeFrame f ok e = s.sees f := by
  rw [hok, State.takeFrame_quiet e h, if_neg hseq]

theorem State.takeFrame_next {ok : Bool} (e : State → State) (h : s.Quiet f) (hok : ok = true) (hseq : f.seq = s.pair.rxSeq) :
    s.takeFrame f ok e = e (s.takes f) := by
  rw [hok, State.takeFrame_quiet e h, if_pos hseq]

/-! ### The link goes down (R453, R486, R492) -/

/-- Frames are discarded and the fault is raised: what the link's end does before records and responses go out. -/
def State.dropLink (s : State) : State :=
  (s.modPair (fun p => { p with
    link := 0, linkDowns := (p.linkDowns + 1) % 2 ^ 16, unacked := [], txWait := [], resends := 0, synced := false
    commitWait := [], taking := [], giving := [] })).raise { code := fltPairLink }

section
variable {V : Type} {v : State → V} (hv : State.BlindToSlots v)
include hv

theorem State.BlindToSlots.stopAll (l : List Nat) (s : State) (hdown : s.pair.link ≠ 2) : v (l.foldl State.stopLockstep s) = v s := by
  induction l generalizing s with
  | nil => rfl
  | cons n l ih =>
    have hl := (State.powerView_eq_iff.mp (s.stopLockstep_powerView n)).2.2.2
    exact (ih _ (by rwa [hl])).trans (hv.stopLockstep hdown n)

/-- With no slot half taken, the rest of the link's end goes to records, chains and responses. -/
theorem State.BlindToSlots.linkDown (hup : s.pair.link = 2) (hfinal : ∀ n, (s.slot n).chain.awaitFinal = false) : v s.linkDown = v s.dropLink := by
  unfold State.linkDown
  rw [if_neg (not_not_intro hup)]
  extract_lets held half wait s1 s2 s3 s4 s5
  have hhalf : half = [] := List.filter_eq_nil_iff.mpr (fun n _ => by rw [hfinal n]; exact Bool.false_ne_true)
  have hs3 : ∀ (W : Type) (w : State → W), State.BlindToSlots w → w s3 = w s2 := fun W w hw => by
    refine foldl_keeps w _ (fun t n => ?_) held s2
    refine (hw.slot _ n _ ?_).trans (foldl_keeps w _ (fun t (r : Nat × Nat × List Byte) => hw.route t n r.1 r.2.2) _ t)
    exact fun _ => rfl
  have hs4 : s4 = s3 := by
    unfold s4
    rw [hhalf]
    rfl
  have hlink : s4.pair.link ≠ 2 := by
    have h3 := hs3 _ _ ((State.blindToContext_outlook 0).map Outlook.pair).toBlindToSlots
    have h2 : s2.pair.link = 0 := congrArg Pair.link (State.raise_pair _ _)
    have h4 : s3.pair.link = s2.pair.link := Pair.link_of_seen h3
    rw [hs4, h4, h2]
    omega
  have hs5 : v s5 = v s4 := ite_keeps (hv.stopAll _ _ hlink) rfl
  exact (foldl_keeps v _ (fun t (w : HeldReply × Nat) => hv.deliver w.1 t) wait s5).trans (hs5.trans ((congrArg v hs4).trans (hs3 V v hv)))

end

/-- What the link's end leaves. -/
theorem State.linkDown_spec (hup : s.pair.link = 2) (hfinal : ∀ n, (s.slot n).chain.awaitFinal = false) :
    s.linkDown.pair = s.dropLink.pair ∧ s.linkDown.od.faultSeq = s.od.faultSeq + 1
    ∧ s.linkDown.od.lastRecord = faultRecord { code := fltPairLink } s.od.faultSeq := by
  have hpair := ((State.blindToContext_outlook 0).map Outlook.pair).toBlindToSlots.linkDown hup hfinal
  have hfault := State.blindToSlots_lastFault.linkDown hup hfinal
  have hdrop : s.dropLink.pair.link = 0 := congrArg Pair.link (State.raise_pair _ _)
  obtain ⟨hseq, hrec⟩ := Prod.mk.inj hfault
  obtain ⟨o, r, k, b, e, h⟩ := (s.modPair (fun p => { p with
    link := 0, linkDowns := (p.linkDowns + 1) % 2 ^ 16, unacked := [], txWait := [], resends := 0, synced := false
    commitWait := [], taking := [], giving := [] })).raise_frame { code := fltPairLink }
  refine ⟨Pair.eq_of_seen (by rw [hdrop]; omega) hpair, hseq.trans ?_, hrec.trans ?_⟩
  · rw [State.dropLink, h]
    rfl
  · rw [State.dropLink, h]
    rfl

/-- With the sidebands well, the decision table changes nothing while the link is not up. -/
theorem State.judge_well (hdown : s.pair.link ≠ 2) (hlow : s.pair.failLow = false) (hhb : s.pair.hbOk = true) : s.judge = s := by
  unfold State.judge
  simp only [hlow, hhb, Bool.not_true, Bool.or_self, Bool.false_and, Bool.false_eq_true, if_false]
  simp [hdown]

theorem State.linkDown_judge (hup : s.pair.link = 2) (hfinal : ∀ n, (s.slot n).chain.awaitFinal = false) (hlow : s.pair.failLow = false)
    (hhb : s.pair.hbOk = true) : s.linkDown.judge = s.linkDown := by
  obtain ⟨hpair, -, -⟩ := s.linkDown_spec hup hfinal
  have hdrop : s.dropLink.pair = _ := State.raise_pair _ _
  refine State.judge_well s.linkDown_link ?_ ?_
  · rw [hpair, hdrop]
    exact hlow
  · rw [hpair, hdrop]
    exact hhb

/-! ### The link comes up (R482, R488, R500) -/

/-- What a training that succeeds sets, and resynchronisation keeps. -/
def State.linkMarks (s : State) : Nat × Nat × Bool × List Nat := (s.pair.link, s.pair.rxSeq, s.pair.partnerFailed, s.pair.marked)

theorem State.blindToContext_linkMarks (c : Nat) : State.BlindToContext State.linkMarks c := by
  have heq : State.linkMarks = fun s => (s.outlook.pair.calm.link, s.outlook.pair.calm.rxSeq, s.outlook.pair.calm.partnerFailed, s.outlook.pair.calm.marked) := by
    funext s
    have hc : s.outlook.pair.calm = s.pair.calm := Pair.seen_calm s.pair
    rw [hc]
    rfl
  rw [heq]
  exact (State.blindToContext_outlook c).map (fun o => (o.pair.calm.link, o.pair.calm.rxSeq, o.pair.calm.partnerFailed, o.pair.calm.marked))

/-- A view of the link's marks alone. -/
theorem State.rejoin_linkMarks (s : State) : s.rejoin.linkMarks = s.linkMarks := by
  have hv := State.blindToContext_linkMarks
  unfold State.rejoin
  extract_lets ns s1 run s2
  have h1 : s1.linkMarks = s.linkMarks := foldl_keeps State.linkMarks _ (fun t n => (hv 0).toShadow (fun _ _ => rfl) (fun _ => rfl) t) ns s
  have h2 : s2.linkMarks = s1.linkMarks := by
    refine foldl_keeps State.linkMarks _ (fun t c => ?_) run s1
    have ht := (hv c).teardownWith t fltCtxKilled
    dsimp only
    split
    · split
      next hok => exact (State.createCtx_keeps hv (fun _ _ => rfl) hok).trans ht
      next => exact ((hv 0).raise _ _).trans ht
    · exact ht
  exact h2.trans h1

theorem State.sendFull_linkMarks (s : State) (n : Nat) : (s.sendFull n).linkMarks = s.linkMarks := by
  have hv := (State.blindToContext_linkMarks 0)
  unfold State.sendFull
  extract_lets g s1 s2 s3
  have h1 : s1.linkMarks = s.linkMarks := by
    refine (foldl_keeps State.linkMarks _ (fun t _ => hv.stirrupSend t _ _) _ _).trans ((hv.modTrk _ _ _).trans (hv.stirrupSend s _ _))
  have h2 : s2.linkMarks = s1.linkMarks := foldl_keeps State.linkMarks _ (fun t _ => hv.stirrupSend t _ _) _ s1
  have h3 : s3.linkMarks = s2.linkMarks := (ite_keeps (hv.stirrupSend _ _ _) rfl).trans ((hv.modIng _ _ _).trans (hv.mirrorChain s2 n))
  exact (hv.stirrupSend s3 _ _).trans (h3.trans (h2.trans h1))

theorem State.checkSynced_linkMarks (s : State) : s.checkSynced.linkMarks = s.linkMarks := by
  obtain ⟨b, h⟩ := s.checkSynced_pair
  rw [State.linkMarks, h]
  rfl

/-- With the link up no input of the decision table takes anything over. -/
theorem State.judge_up (hup : s.pair.link = 2) : s.judge = if s.pair.mode = 0 then s
    else if (s.pair.failLow || !s.pair.hbOk) = true then
      (if s.pair.sideFault then s else (s.modPair (fun p => { p with sideFault := true })).raise { code := fltPairSideband })
    else s.modPair (fun p => { p with sideFault := false }) := by
  unfold State.judge
  dsimp only
  rw [if_neg (not_not_intro hup)]

theorem State.judge_linkMarks (hup : s.pair.link = 2) : s.judge.linkMarks = s.linkMarks := by
  rw [State.judge_up hup]
  exact ite_keeps rfl (ite_keeps (ite_keeps rfl ((State.blindToContext_linkMarks 0).raise _ _)) rfl)

theorem State.linkUp_of_digest (d : List Byte) (o : Bool) (hmode : s.pair.mode ≠ 0) (hdown : s.pair.link ≠ 2) (hd : d = s.pairDigest) :
    (s.linkUp d o).pair.link = 2 ∧ (s.linkUp d o).pair.rxSeq = 0 ∧ (s.linkUp d o).pair.partnerFailed = false
    ∧ (s.pairs = true → (s.linkUp d o).pair.marked = []) := by
  have hv := State.blindToContext_linkMarks 0
  have hdone : ∀ (t : State) (m : List Nat), t.linkMarks = (2, 0, false, m) →
      t.judge.pair.link = 2 ∧ t.judge.pair.rxSeq = 0 ∧ t.judge.pair.partnerFailed = false ∧ t.judge.pair.marked = m := fun t m ht => by
    have hj := (State.judge_linkMarks (congrArg Prod.fst ht)).trans ht
    simp only [State.linkMarks, Prod.mk.injEq] at hj
    exact hj
  unfold State.linkUp
  rw [if_neg (by simp [hmode, hdown]), if_neg (not_not_intro hd)]
  extract_lets s1 s2 s3 s4 marked s5
  split
  next hpairs =>
    have h2 : s2.linkMarks = s1.linkMarks := ite_keeps (State.rejoin_linkMarks s1) rfl
    have h3 : s3.linkMarks = s2.linkMarks := foldl_keeps State.linkMarks _ State.sendFull_linkMarks _ s2
    have h4 : s4.linkMarks = s3.linkMarks := hv.narrMirror s3
    have hmarks := h4.trans (h3.trans h2)
    simp only [State.linkMarks, Prod.mk.injEq] at hmarks
    obtain ⟨hl, hr, hf, -⟩ := hmarks
    have h5 : s5.linkMarks = (2, 0, false, []) := by
      refine (foldl_keeps State.linkMarks _ (fun t _ => hv.stirrupSend t _ _) _ _).trans ?_
      simp only [State.linkMarks, State.modPair, Prod.mk.injEq]
      exact ⟨hl, hr, hf, trivial⟩
    obtain ⟨h, h', h'', hm⟩ := hdone _ _ ((State.checkSynced_linkMarks s5).trans h5)
    exact ⟨h, h', h'', fun _ => hm⟩
  next hpairs =>
    obtain ⟨h, h', h'', -⟩ := hdone s1 s1.pair.marked rfl
    exact ⟨h, h', h'', fun hp => absurd hp hpairs⟩

/-! ### The commands -/

section
variable (hup : s.up = true)
include hup

/-- Without a link nothing comes from it. -/
theorem answers_linkDown (f : Frame) (k : MirrorKind) (m : CtlMsg) (w : BadFrame) (hdown : s.pair.link ≠ 2) :
    Answers (.stirrupWriteFrame f) s s ∧ Answers (.stirrupIncrementFrame f) s s ∧ Answers (.stirrupMirrorFrame f k) s s ∧
    Answers (.stirrupControlFrame f m) s s ∧ Answers (.stirrupIdleFrame f) s s ∧ Answers (.stirrupBadFrame w) s s ∧
    Answers .stirrupIdleTimer s s ∧ Answers .stirrupRetxTimeout s s ∧ Answers .linkSilent s s :=
  ⟨answers_congr (answers_whenUp rfl hup) (State.takeFrame_down _ _ hdown), answers_congr (answers_whenUp rfl hup) (State.takeFrame_down _ _ hdown),
    answers_congr (answers_whenUp rfl hup) (State.takeFrame_down _ _ hdown), answers_congr (answers_whenUp rfl hup) (State.takeFrame_down _ _ hdown),
    answers_congr (answers_whenUp rfl hup) (if_neg hdown), answers_congr (answers_whenUp rfl hup) (if_neg hdown),
    answers_congr (answers_whenUp rfl hup) (if_neg hdown), answers_congr (answers_whenUp rfl hup) (if_pos (Or.inl hdown)),
    answers_congr (answers_whenUp rfl hup) (if_neg hdown)⟩

theorem answers_stirrupBadFrame (w : BadFrame) (hlink : s.pair.link = 2) : Answers (.stirrupBadFrame w) s s.badFrame := by
  refine answers_congr (answers_whenUp rfl hup) ((if_pos hlink).trans ?_)
  cases w <;> rfl

theorem answers_badWrite (hlink : s.pair.link = 2)
    (h : 4096 < f.payload.length ∨ f.payload.drop 8 = [] ∨ s.inPairArea (fieldAt f.payload 0 8) (f.payload.drop 8).length = false) :
    Answers (.stirrupWriteFrame f) s s.badFrame := by
  refine answers_congr (answers_whenUp rfl hup) (State.takeFrame_bad _ hlink (h.imp_right (fun h => ?_)))
  rcases h with h | h
  · rw [h]
    rfl
  · rw [h, Bool.and_false]

theorem answers_badIncrement (hlink : s.pair.link = 2) (h : f.payload.length ≠ 6) : Answers (.stirrupIncrementFrame f) s s.badFrame :=
  answers_congr (answers_whenUp rfl hup) (State.takeFrame_bad _ hlink (Or.inr (beq_eq_false_iff_ne.mpr h)))

theorem answers_badMirror (k : MirrorKind) (hlink : s.pair.link = 2) (h : 4096 < f.payload.length ∨ f.payload.length < 10) :
    Answers (.stirrupMirrorFrame f k) s s.badFrame :=
  answers_congr (answers_whenUp rfl hup) (State.takeFrame_bad _ hlink (h.imp_right (fun h => decide_eq_false (Nat.not_le.mpr h))))

theorem answers_badControl (m : CtlMsg) (hlink : s.pair.link = 2) (h : 4096 < f.payload.length) : Answers (.stirrupControlFrame f m) s s.badFrame :=
  answers_congr (answers_whenUp rfl hup) (State.takeFrame_bad _ hlink (Or.inl h))

theorem answers_badIdle (hlink : s.pair.link = 2) (h : f.payload ≠ []) : Answers (.stirrupIdleFrame f) s s.badFrame :=
  answers_congr (answers_whenUp rfl hup) ((if_pos hlink).trans (if_neg (by simpa using h)))

theorem reaches_stirrupIdleFrame (hlink : s.pair.link = 2) (h : f.payload = []) (hwait : s.pair.txWait = []) (hgive : s.pair.giving = []) :
    Reaches (.stirrupIdleFrame f) s (fun t => t.pair.partnerHb = f.hb ∧ t.pair.unacked = s.pair.unacked.filter (fun u => !seqLe u.2.1 f.ack)
      ∧ t.pair.rxSeq = s.pair.rxSeq) :=
  reaches_of_answers (answers_congr (answers_whenUp rfl hup) ((if_pos hlink).trans (if_pos (by rw [h]; rfl)))) (State.frameHead_pair hwait hgive)

/-! A frame of each type, with nothing else of the link to do. -/

theorem answers_writeFrame (hq : s.Quiet f) (hdata : f.payload.drop 8 ≠ [])
    (hin : s.inPairArea (fieldAt f.payload 0 8) (f.payload.drop 8).length = true) :
    (f.seq ≠ s.pair.rxSeq → Answers (.stirrupWriteFrame f) s (s.sees f))
    ∧ (f.seq = s.pair.rxSeq → Answers (.stirrupWriteFrame f) s ((s.takes f).store (s.portWays 42) (fieldAt f.payload 0 8) (f.payload.drop 8))) := by
  have hok : (!(f.payload.drop 8).isEmpty && s.inPairArea (fieldAt f.payload 0 8) (f.payload.drop 8).length) = true := by
    rw [hin, Bool.and_true]
    simpa using hdata
  exact ⟨fun h => answers_congr (answers_whenUp rfl hup) (State.takeFrame_other _ hq hok h),
    fun h => answers_congr (answers_whenUp rfl hup) (State.takeFrame_next _ hq hok h)⟩

theorem answers_incrementFrame (hq : s.Quiet f) (hlen : f.payload.length = 6) :
    (f.seq ≠ s.pair.rxSeq → Answers (.stirrupIncrementFrame f) s (s.sees f))
    ∧ (f.seq = s.pair.rxSeq → Answers (.stirrupIncrementFrame f) s ((s.takes f).rxIncrement f.payload)) :=
  ⟨fun h => answers_congr (answers_whenUp rfl hup) (State.takeFrame_other _ hq (beq_iff_eq.mpr hlen) h),
    fun h => answers_congr (answers_whenUp rfl hup) (State.takeFrame_next _ hq (beq_iff_eq.mpr hlen) h)⟩

theorem answers_mirrorFrame (hq : s.Quiet f) (hlen : 10 ≤ f.payload.length) (k : MirrorKind) :
    (f.seq ≠ s.pair.rxSeq → Answers (.stirrupMirrorFrame f k) s (s.sees f))
    ∧ (f.seq = s.pair.rxSeq → s.pairs = true → Answers (.stirrupMirrorFrame f k) s ((s.takes f).mirrored k f.payload)) :=
  ⟨fun h => answers_congr (answers_whenUp rfl hup) (State.takeFrame_other _ hq (decide_eq_true hlen) h),
    fun h hpairs => answers_congr (answers_whenUp rfl hup) ((State.takeFrame_next _ hq (decide_eq_true hlen) h).trans (if_pos hpairs))⟩

theorem answers_controlFrame (hq : s.Quiet f) (m : CtlMsg) :
    (f.seq ≠ s.pair.rxSeq → Answers (.stirrupControlFrame f m) s (s.sees f))
    ∧ (f.seq = s.pair.rxSeq → Answers (.stirrupControlFrame f m) s ((s.takes f).control m)) :=
  ⟨fun h => answers_congr (answers_whenUp rfl hup) (State.takeFrame_other _ hq rfl h),
    fun h => answers_congr (answers_whenUp rfl hup) (State.takeFrame_next _ hq rfl h)⟩

/-! Timers and training. -/

theorem answers_stirrupIdleTimer (hlink : s.pair.link = 2) : Answers .stirrupIdleTimer s (s.emit (.stirrup (s.pair.frame 0 false 0 []))) :=
  answers_congr (answers_whenUp rfl hup) (if_pos hlink)

theorem answers_stirrupRetxTimeout_none (h : s.pair.unacked = []) : Answers .stirrupRetxTimeout s s :=
  answers_congr (answers_whenUp rfl hup) (if_pos (Or.inr (by rw [h]; rfl)))

theorem answers_stirrupRetxTimeout (hlink : s.pair.link = 2) (h : s.pair.unacked ≠ []) : Answers .stirrupRetxTimeout s
    (if 8 ≤ s.pair.resends then s.linkDown.judge
     else (s.modPair (fun p => { p with resends := p.resends + 1, retx := (p.retx + p.unacked.length) % 2 ^ 64 })).emits
       (s.pair.unacked.map (fun f => .stirrup (s.pair.frame f.1 true f.2.1 f.2.2)))) :=
  answers_congr (answers_whenUp rfl hup) (if_neg (by simp [hlink, h]))

theorem answers_linkSilent (hlink : s.pair.link = 2) : Answers .linkSilent s s.linkDown.judge := answers_congr (answers_whenUp rfl hup) (if_pos hlink)

theorem answers_linkTrained (d : List Byte) (o : Bool) : Answers (.linkTrained d o) s (if s.clk.stpRef then s.linkUp d o else s) := answers_whenUp rfl hup

theorem answers_linkTrainRetry : Answers .linkTrainRetry s
    (if s.pair.mode ≠ 0 ∧ s.pair.link ≠ 2 ∧ s.clk.stpRef then s.modPair (fun p => { p with link := 1 }) else s) := answers_whenUp rfl hup

end

theorem State.rxIncrement_taken {p : List Byte} (h : s.pairSh.counters.contains (fieldAt p 0 1, fieldAt p 1 2, fieldAt p 3 1) = true)
    (hruns : (s.ctx (fieldAt p 0 1)).runs = true) (hn : fieldAt p 4 2 ≠ 0) : s.rxIncrement p = { s with
      flight := s.flight ++ [{ ctx := fieldAt p 0 1, core := fieldAt p 1 2, ctr := fieldAt p 3 1, n := fieldAt p 4 2, fromCtx := false, src := 0x301 }] } := by
  unfold State.rxIncrement
  dsimp only
  rw [h, hruns, Bool.and_self, if_pos rfl, State.sendIncr, if_neg hn]

theorem State.rxIncrement_ignored {p : List Byte} (h : s.pairSh.counters.contains (fieldAt p 0 1, fieldAt p 1 2, fieldAt p 3 1) = false
    ∨ (s.ctx (fieldAt p 0 1)).runs = false ∨ fieldAt p 4 2 = 0) : s.rxIncrement p = s := by
  unfold State.rxIncrement
  dsimp only
  split
  next hc =>
    obtain ⟨hcnt, hruns⟩ := Bool.and_eq_true_iff.mp hc
    rcases h with h | h | h
    · rw [h] at hcnt
      exact absurd hcnt Bool.false_ne_true
    · rw [h] at hruns
      exact absurd hruns Bool.false_ne_true
    · exact if_pos h
  next => rfl

end Sys2Proof.Machine

namespace Sys2Proof.Proofs
open Sys2Proof Sys2Proof.Machine

/-- Settles O53. -/
theorem stirrupLink : Obligations.StirrupLink := by
  unfold Obligations.StirrupLink
  refine ⟨fun s kind p => ⟨State.stirrupSend_down kind p, State.stirrupSend_room kind p⟩, fun s f k m w hup => ?_, fun s d o hup => ?_, fun s hr => ?_⟩
  · refine ⟨answers_linkDown hup f k m w, fun hlink => ⟨answers_stirrupBadFrame hup w hlink, answers_badWrite hup hlink, answers_badIncrement hup hlink,
      answers_badMirror hup k hlink, answers_badControl hup m hlink, answers_badIdle hup hlink, reaches_stirrupIdleFrame hup hlink,
      fun hnone hwait hgive hsync hfits => ?_, answers_stirrupIdleTimer hup hlink, answers_stirrupRetxTimeout_none hup, fun h h8 => ?_, fun hlow hhb hfinal => ?_⟩⟩
    · have hq : s.Quiet f := ⟨hlink, hnone, hwait, hgive, hsync, hfits⟩
      refine ⟨fun h hd hin => (answers_writeFrame hup hq hd hin).1 h, fun h hl => (answers_incrementFrame hup hq hl).1 h,
        fun h hl => (answers_mirrorFrame hup hq hl k).1 h, fun h => (answers_controlFrame hup hq m).1 h, fun hseq => ?_⟩
      refine ⟨fun hd hin => (answers_writeFrame hup hq hd hin).2 hseq, fun hl => ⟨fun hc hruns hn => ?_, fun hno => ?_⟩, fun hl hpairs => ?_,
        fun hpark => ?_, fun hpark => ?_, ?_, fun d hd => ?_⟩
      · exact answers_congr ((answers_incrementFrame hup hq hl).2 hseq) (State.rxIncrement_taken hc hruns hn)
      · exact answers_congr ((answers_incrementFrame hup hq hl).2 hseq) (State.rxIncrement_ignored hno)
      · refine ⟨(answers_mirrorFrame hup hq hl .chain).2 hseq hpairs, (answers_mirrorFrame hup hq hl .tracks).2 hseq hpairs, fun h1 => ?_, fun h1 => ?_⟩
        · exact answers_congr ((answers_mirrorFrame hup hq hl .full).2 hseq hpairs) (if_neg h1)
        · exact answers_congr ((answers_mirrorFrame hup hq hl .full).2 hseq hpairs) (if_pos h1)
      · exact answers_congr ((answers_controlFrame hup hq .parkAck).2 hseq) (if_neg (by exact fun h => Bool.false_ne_true (hpark ▸ h)))
      · obtain ⟨hparked, -, -, -⟩ := (s.takes f).park_spec
        exact reaches_of_answers (answers_congr ((answers_controlFrame hup hq .parkAck).2 hseq) (if_pos hpark)) ⟨hparked, rfl⟩
      · exact answers_congr ((answers_controlFrame hup hq _).2 hseq) (if_pos rfl)
      · obtain ⟨o, r, c, b, e, h⟩ := ((s.takes f).linkDown.modPair (fun p => { p with link := 3 })).raise_frame { code := fltPairConfig }
        refine reaches_of_answers (answers_congr ((answers_controlFrame hup hq (.config d)).2 hseq) ((if_neg hd).trans h)) ⟨rfl, _, rfl⟩
    · exact answers_congr (answers_stirrupRetxTimeout hup hlink h) (if_neg (by omega))
    · obtain ⟨hpair, hseq, hrec⟩ := s.linkDown_spec hlink hfinal
      have hdrop : s.dropLink.pair = _ := State.raise_pair _ _
      have hjudge := State.linkDown_judge hlink hfinal hlow hhb
      rw [hdrop] at hpair
      have hdown : s.linkDown.pair.link = 0 ∧ s.linkDown.pair.unacked = [] ∧ s.linkDown.pair.linkDowns = (s.pair.linkDowns + 1) % 2 ^ 16 ∧
          s.linkDown.pair.owner = s.pair.owner := by
        rw [hpair]
        exact ⟨rfl, rfl, rfl, rfl⟩
      obtain ⟨h0, hun, hcnt, hown⟩ := hdown
      exact ⟨reaches_of_answers (answers_congr (answers_linkSilent hup hlink) hjudge) ⟨h0, hun, hcnt, hown, hseq, hrec⟩,
        fun h h8 => reaches_of_answers (answers_congr (answers_stirrupRetxTimeout hup hlink h) ((if_pos h8).trans hjudge)) ⟨h0, hun, hcnt, hown, hseq, hrec⟩⟩
  · refine ⟨fun h => ⟨answers_congr (answers_linkTrained hup d o) ?_, answers_congr (answers_linkTrainRetry hup) (if_neg ?_)⟩, fun href hmode hdown => ⟨?_, fun hd => ?_, fun hd => ?_⟩⟩
    · rcases h with h | h
      · exact if_neg (by rw [h]; exact Bool.false_ne_true)
      · exact ite_eq_right_iff.mpr (fun _ => if_pos h)
    · rintro ⟨hmode, hdown, href⟩
      rcases h with h | h | h
      · exact Bool.false_ne_true (h ▸ href)
      · exact hmode h
      · exact hdown h
    · exact answers_congr (answers_linkTrainRetry hup) (if_pos ⟨hmode, hdown, href⟩)
    · exact answers_congr (answers_linkTrained hup d o) ((if_pos href).trans ((if_neg (by simp [hmode, hdown])).trans (if_pos hd)))
    · exact reaches_of_answers (answers_congr (answers_linkTrained hup d o) (if_pos href)) (State.linkUp_of_digest d o hmode hdown hd)
  · exact ⟨fun h => answers_congr (answers_whenReady rfl hr) (if_neg (by rw [h]; exact Bool.false_ne_true)),
      fun h => answers_congr (answers_whenReady rfl hr) (if_pos h)⟩

end Sys2Proof.Proofs
end

