-- ==== Sys2Proof/Proofs/TakeoverDecisions.lean ====
section
/-! PROOFS. Takeover decisions, held records, the heartbeat and planned handover (R471, R486, R494 to R501). -/
namespace Sys2Proof.Machine
open Sys2Proof

variable {s t : State} {n : Nat}

/-! ### Shadows that become the device's own (R496, R497) -/

/-- Delivery and the Stirrup link leave slots as they are. -/
theorem State.blind_slots : State.Blind State.slots where
  out _ _ := rfl
  rings _ _ := rfl
  colls _ _ := rfl
  pci _ _ := rfl
  od _ _ _ _ := rfl
  kpr _ _ := rfl
  evid _ _ := rfl
  tkp _ _ := rfl
  skv _ _ := rfl
  stc _ _ := rfl
  engines _ _ := rfl
  narr _ _ _ := rfl
  mem _ _ _ := rfl
  pair _ _ _ _ := rfl

/-- A shadow slot that the survivor goes on with: from the mirrored state, where one has come. -/
structure Slot.Promoted (h : Shadow) (x : Slot) : Prop where
  run : x.run = .running
  gap : x.ing.gapNext = true
  waiting : x.dec.waiting = some .takeover
  cfgChange : x.chain.cfgChange = true
  chain : h.valid = true → x.chain.h = h.h ∧ x.chain.seq = h.seq ∧ x.chain.cpNumber = h.cpNumber ∧ x.trk.tracks = h.tracks

theorem State.slot_congr (h : t.slots = s.slots) (m : Nat) : t.slot m = s.slot m := congrArg (fun x => tget ({} : Slot) x m) h

/-- The mirrored chain state on a slot. -/
def Shadow.onChain (h : Shadow) (x : Slot) : Slot :=
  { x with chain := { x.chain with h := h.h, seq := h.seq, cpNumber := h.cpNumber, cpFirst := h.cpFirst, closed := max x.chain.closed h.group } }

theorem State.foldl_modRule {V : Type} (v : State → V) (hv : ∀ s r, v { s with rules := r } = v s) (f : Nat × Rule → Rule → Rule) (l : List (Nat × Rule))
    (s : State) : v (l.foldl (fun s r => s.modRule r.1 (f r)) s) = v s := foldl_keeps v (fun s r => s.modRule r.1 (f r)) (fun t _ => hv t _) l s

theorem State.loadShadow_slots (s : State) (n : Nat) {h : Shadow} (hh : h = tget {} s.pair.shadows n) :
    (s.loadShadow n).slots = if !h.valid then s.slots
      else (((s.modTracks n (fun k => { k with nextSerial := h.nextSerial, tracks := h.tracks })).checkpoint n).modSlot n h.onChain).slots := by
  unfold State.loadShadow
  rw [← hh]
  dsimp only
  split
  · rfl
  · exact State.foldl_modRule State.slots (fun _ _ => rfl) _ _ _

theorem State.loadShadow_slot_ne {m : Nat} (hm : m ≠ n) : (s.loadShadow n).slot m = s.slot m := by
  obtain ⟨h, hh⟩ : ∃ h, h = tget ({} : Shadow) s.pair.shadows n := ⟨_, rfl⟩
  have hslots := s.loadShadow_slots n hh
  split at hslots
  · exact State.slot_congr hslots m
  · rw [State.slot_congr hslots m, State.modSlot_slot_ne _ _ hm, State.slot_congr (State.checkpoint_slots _ n) m, State.modTrk,
      State.modSlot_slot_ne _ _ hm, State.slot_congr (State.modTracks_slots s n _) m, State.modTrk, State.modSlot_slot_ne _ _ hm]

/-- The mirrored state of a slot, where it is valid. -/
theorem State.loadShadow_slot {h : Shadow} (hh : h = tget {} s.pair.shadows n) (hvalid : h.valid = true) :
    ((s.loadShadow n).slot n).chain.h = h.h ∧ ((s.loadShadow n).slot n).chain.seq = h.seq ∧ ((s.loadShadow n).slot n).chain.cpNumber = h.cpNumber
    ∧ ((s.loadShadow n).slot n).trk.tracks = h.tracks := by
  have hslots := s.loadShadow_slots n hh
  rw [hvalid, if_neg (by exact Bool.false_ne_true)] at hslots
  rw [State.slot_congr hslots n, State.modSlot_slot, State.slot_congr (State.checkpoint_slots _ n) n, State.modTrk, State.modSlot_slot,
    State.slot_congr (State.modTracks_slots s n _) n, State.modTrk, State.modSlot_slot]
  exact ⟨rfl, rfl, rfl, rfl⟩

/-- What opening a session leaves of a slot. -/
theorem State.rtspOpen_slot (s : State) (n m : Nat) : ∃ r, (s.rtspOpen n).slot m = { s.slot m with ing := { (s.slot m).ing with rtsp := r } } := by
  unfold State.rtspOpen
  split
  · have hraise : (s.raise { code := fltIngRtsp, slot := n }).slot m = s.slot m := State.slot_congr (State.raise_slots _ _) m
    by_cases hm : m = n
    · rw [hm] at hraise
      rw [hm, State.modIng, State.modSlot_slot, hraise]
      exact ⟨_, rfl⟩
    · rw [State.modIng, State.modSlot_slot_ne _ _ hm, hraise]
      exact ⟨_, rfl⟩
  · exact ⟨_, rfl⟩

/-- A slot of the device's own, waiting for a refresh point: its chain and tracks are those of `x`. -/
structure Slot.Taken (kind : WaitKind) (x y : Slot) : Prop where
  run : y.run = .running
  gap : y.ing.gapNext = true
  waiting : y.dec.waiting = some kind
  cfgChange : y.chain.cfgChange = true
  h : y.chain.h = x.chain.h
  seq : y.chain.seq = x.chain.seq
  cpNumber : y.chain.cpNumber = x.chain.cpNumber
  trk : y.trk = x.trk

theorem State.modSlot_taken {f : Slot → Slot} {kind : WaitKind} (hf : (s.slot n).Taken kind (f (s.slot n))) :
    (s.slot n).Taken kind ((s.modSlot n f).slot n) := by
  rwa [State.modSlot_slot]

theorem State.promote_slot (s : State) (n : Nat) (kind : WaitKind) : ((s.slot n).Taken kind ((s.promote n kind true).slot n)) := by
  unfold State.promote
  extract_lets h rtsp s1
  have h1 : (s.slot n).Taken kind (s1.slot n) := by
    refine State.modSlot_taken ⟨rfl, ?_, rfl, rfl, rfl, rfl, rfl, rfl⟩
    dsimp only
    split
    · exact Bool.or_true _
    · exact Bool.or_true _
  split
  · obtain ⟨r, hr⟩ := s1.rtspOpen_slot n n
    rw [hr]
    exact ⟨h1.run, h1.gap, h1.waiting, h1.cfgChange, h1.h, h1.seq, h1.cpNumber, h1.trk⟩
  · exact h1

theorem State.promote_slot_ne {m : Nat} (hm : m ≠ n) (kind : WaitKind) (gap : Bool) : ∃ r, (s.promote n kind gap).slot m =
    { s.slot m with ing := { (s.slot m).ing with rtsp := r } } := by
  unfold State.promote
  extract_lets h rtsp s1
  have h1 : s1.slot m = s.slot m := State.modSlot_slot_ne _ _ hm
  split
  · obtain ⟨r, hr⟩ := s1.rtspOpen_slot n m
    rw [hr, h1]
    exact ⟨r, rfl⟩
  · rw [h1]
    exact ⟨_, rfl⟩

/-! ### The pair's own state at a takeover (R496) -/

theorem State.blindToContext_pair (c : Nat) : State.BlindToContext (fun s => s.pair.seen) c := (State.blindToContext_outlook c).map Outlook.pair

/-- Equal but for what is sent, and with the link down: equal. -/
theorem State.pair_of_seen (hdown : s.pair.link ≠ 2) (h : t.pair.seen = s.pair.seen) : t.pair = s.pair := Pair.eq_of_seen hdown h

theorem State.loadShadow_seen (s : State) (n : Nat) : (s.loadShadow n).pair.seen = s.pair.seen := by
  have hv := (State.blindToContext_pair 0)
  have hslot : ∀ (s : State) n f, (s.modSlot n f).pair.seen = s.pair.seen := fun _ _ _ => rfl
  unfold State.loadShadow
  extract_lets h s1 s2
  split
  · rfl
  · have h1 : s1.pair.seen = s.pair.seen := (hv.checkpoint _ n).trans (hv.modTracks s n _)
    have h2 : s2.pair.seen = s1.pair.seen := hslot s1 n _
    exact (State.foldl_modRule (fun s : State => s.pair.seen) (fun _ _ => rfl) _ h.rules s2).trans (h2.trans h1)

theorem State.promote_seen (s : State) (n : Nat) (kind : WaitKind) (gap : Bool) : (s.promote n kind gap).pair.seen = s.pair.seen := by
  have hv := (State.blindToContext_pair 0)
  unfold State.promote
  extract_lets h rtsp s1
  have h1 : s1.pair.seen = s.pair.seen := rfl
  refine ite_keeps (v := fun s : State => s.pair.seen) ?_ h1
  unfold State.rtspOpen
  exact ite_keeps (v := fun s : State => s.pair.seen) ((hv.modIng _ _ _).trans ((hv.raise s1 _).trans h1)) ((hv.rtspSend s1 _ _).trans h1)

/-- One shadow slot goes on. -/
def State.survive (s : State) (n : Nat) : State := (s.loadShadow n).promote n .takeover true

theorem State.survive_seen (s : State) (n : Nat) : (s.survive n).pair.seen = s.pair.seen := (State.promote_seen _ n _ _).trans (s.loadShadow_seen n)

theorem State.survive_slot (s : State) (n : Nat) : ((s.survive n).slot n).Promoted (tget {} s.pair.shadows n) := by
  obtain ⟨hrun, hgap, hwait, hcfg, hh, hseq, hcp, htrk⟩ := (s.loadShadow n).promote_slot n .takeover
  refine ⟨hrun, hgap, hwait, hcfg, fun hvalid => ?_⟩
  obtain ⟨h1, h2, h3, h4⟩ := State.loadShadow_slot rfl hvalid
  exact ⟨hh.trans h1, hseq.trans h2, hcp.trans h3, (congrArg SlotTrack.tracks htrk).trans h4⟩

theorem Slot.Promoted.of_rtsp {h : Shadow} {x : Slot} (hx : x.Promoted h) (r : Rtsp) : ({ x with ing := { x.ing with rtsp := r } } : Slot).Promoted h :=
  ⟨hx.run, hx.gap, hx.waiting, hx.cfgChange, hx.chain⟩

theorem State.survive_other {m : Nat} (hm : m ≠ n) {h : Shadow} (hx : (s.slot m).Promoted h) : ((s.survive n).slot m).Promoted h := by
  obtain ⟨r, hr⟩ := State.promote_slot_ne (s := s.loadShadow n) hm .takeover true
  have hload : (s.loadShadow n).slot m = s.slot m := State.loadShadow_slot_ne hm
  have heq : (s.survive n).slot m = _ := hr
  rw [heq, hload]
  exact hx.of_rtsp r

theorem State.survivors (l : List Nat) (s : State) (hdown : s.pair.link ≠ 2) (m : Nat) (h : m ∈ l ∨ (s.slot m).Promoted (tget {} s.pair.shadows m)) :
    ((l.foldl State.survive s).slot m).Promoted (tget {} s.pair.shadows m) := by
  induction l generalizing s with
  | nil => exact h.resolve_left (fun h => nomatch h)
  | cons n l ih =>
    have hpair : (s.survive n).pair = s.pair := State.pair_of_seen hdown (s.survive_seen n)
    have h' := ih (s.survive n) (by rwa [hpair])
    rw [hpair] at h'
    refine h' ?_
    by_cases hm : m = n
    · rw [hm]
      exact Or.inr (s.survive_slot n)
    · exact h.imp (fun h => (List.mem_cons.mp h).resolve_left hm) (fun h => State.survive_other hm h)

/-! ### Takeover (R495, R496) -/

/-- The pair and what the slots run: what standing contexts and a shedding step leave. -/
def State.pairAndRuns (s : State) : Pair × (Nat → SlotRun) := (s.pair.seen, fun m => (s.slot m).run)

theorem State.blindToContext_pairAndRuns (c : Nat) : State.BlindToContext State.pairAndRuns c :=
  (State.blindToContext_outlook c).map (fun o => (o.pair, o.run))

theorem State.setShed_run (s : State) (step m : Nat) : ((s.setShed step).slot m).run = (s.slot m).run := by
  have heq : (s.setShed step).slot m = if (s.slot m).run = .unconfigured then s.slot m
      else { s.slot m with shedNext := shedFor (s.slot m).cfg.stream.priority step } :=
    tget_map ({} : Slot) (fun x : Slot => if x.run = .unconfigured then x else { x with shedNext := shedFor x.cfg.stream.priority step }) rfl s.slots m
  rw [heq]
  split
  · rfl
  · rfl

theorem State.enterStep_pairAndRuns (s : State) (n : Nat) (b : Bool) : (s.enterStep n b).pairAndRuns = s.pairAndRuns := by
  have hv := State.blindToContext_pairAndRuns 0
  have hrec : ∀ u : State, (u.shedRecord b n).pairAndRuns = u.pairAndRuns := fun u => hv.raise _ _
  have hset : ∀ u : State, (u.setShed n).pairAndRuns = u.pairAndRuns := fun u => congrArg (Prod.mk u.pair.seen) (funext (fun m => u.setShed_run n m))
  have hact : ∀ u : State, (u.shedAct n n).pairAndRuns = u.pairAndRuns := fun u =>
    ite_keeps (ite_keeps (hv.evidStop u) rfl) (ite_keeps (hv.narrShed u _) (hset u))
  exact (hact _).trans (hrec _)

theorem State.shedFailover_pairAndRuns (s : State) : s.shedFailover.pairAndRuns = s.pairAndRuns := ite_keeps (s.enterStep_pairAndRuns _ _) rfl

/-- The survivor owns every slot. -/
def State.owner (s : State) : State :=
  ((s.modPair (fun p => { p with partnerFailed := true, takeovers := (p.takeovers + 1) % 2 ^ 16, taking := [], giving := [] })).raise
    { code := evtPairTakeover }).modPair (fun p => { p with owner := true, moved := [], taken := [] })

theorem State.owner_pair (s : State) : s.owner.pair = { s.pair with
    partnerFailed := true, takeovers := (s.pair.takeovers + 1) % 2 ^ 16, taking := [], giving := [], owner := true, moved := [], taken := [] } :=
  congrArg (fun p : Pair => { p with owner := true, moved := [], taken := [] }) (State.raise_pair _ _)

theorem State.owner_slots (s : State) : s.owner.slots = s.slots := State.raise_slots _ _

/-- The standing contexts run, and the step that committed energy asks for is entered. -/
def State.standIn (s : State) : State :=
  (((s.ctxs.filter (fun p => p.2.live && p.2.standing)).map (·.1)).foldl State.startStanding s).shedFailover

theorem State.standIn_pairAndRuns (s : State) : s.standIn.pairAndRuns = s.pairAndRuns :=
  (State.shedFailover_pairAndRuns _).trans
    (foldl_keeps State.pairAndRuns State.startStanding (fun t c => (State.blindToContext_pairAndRuns c).startStanding t) _ s)

/-- Every shadow slot goes on. -/
def State.surviveAll (s : State) : State := ((s.slots.filter (fun p => p.2.run == .shadow)).map (·.1)).foldl State.survive s

theorem State.surviveAll_seen (s : State) : s.surviveAll.pair.seen = s.pair.seen := foldl_keeps (fun s : State => s.pair.seen) _ State.survive_seen _ s

theorem State.surviveAll_slot (s : State) (hdown : s.pair.link ≠ 2) (m : Nat) (h : (s.slot m).run = .shadow) :
    (s.surviveAll.slot m).Promoted (tget {} s.pair.shadows m) := by
  refine State.survivors _ s hdown m (Or.inl ?_)
  refine List.mem_map.mpr ⟨(m, s.slot m), List.mem_filter.mpr ⟨mem_of_tget_ne (d := ({} : Slot)) (fun h' => ?_), by simp [h]⟩, rfl⟩
  rw [State.slot, h'] at h
  cases h

theorem State.takeover_lockstep (h3 : s.pair.mode = 3) : s.takeover.slots = s.slots ∧ s.takeover.pairSh.leaderId = s.pair.id
    ∧ s.takeover.pair = { s.pair with partnerFailed := true, takeovers := (s.pair.takeovers + 1) % 2 ^ 16, taking := [], giving := [] } := by
  obtain ⟨u, hu⟩ : ∃ u, u = (s.modPair (fun p => { p with
    partnerFailed := true, takeovers := (p.takeovers + 1) % 2 ^ 16, taking := [], giving := [] })).raise { code := evtPairTakeover } := ⟨_, rfl⟩
  have hpair : u.pair = { s.pair with partnerFailed := true, takeovers := (s.pair.takeovers + 1) % 2 ^ 16, taking := [], giving := [] } := by
    rw [hu, State.raise_pair]
    rfl
  have hslots : u.slots = s.slots := by
    rw [hu, State.raise_slots]
    rfl
  have heq : s.takeover = { u with pairSh := { u.pairSh with leaderId := u.pair.id } } := by
    rw [State.takeover, ← hu]
    exact if_pos (by rw [hpair]; exact h3)
  rw [heq]
  exact ⟨hslots, by rw [hpair], hpair⟩

/-- The mirrored narration sessions are opened again. -/
def State.reopenAll (s : State) : State := s.pairSh.sessions.foldl State.narrReopen s

/-- The time of the last promotion, and the mirrored sessions used up. -/
def State.closeTakeover (s : State) : State :=
  let d := s.draw 32
  { d.2.modPair (fun p => { p with lastPromote := d.1 }) with pairSh := { d.2.pairSh with sessions := [] } }

theorem State.takeover_eq (h3 : s.pair.mode ≠ 3) : s.takeover = s.owner.standIn.surviveAll.reopenAll.closeTakeover := by
  unfold State.takeover State.closeTakeover State.reopenAll State.surviveAll State.standIn State.owner State.survive
  rw [if_neg (by rw [State.raise_pair]; exact h3)]

theorem State.reopenAll_seen (s : State) : s.reopenAll.pair.seen = s.pair.seen :=
  foldl_keeps (fun s : State => s.pair.seen) State.narrReopen (fun t w => (State.blindToContext_pair 0).narrReopen t w) _ s

theorem State.reopenAll_slots (s : State) : s.reopenAll.slots = s.slots := foldl_keeps State.slots State.narrReopen (fun t w => State.blind_slots.narrReopen t w) _ s

theorem State.closeTakeover_frame (s : State) : s.closeTakeover.slots = s.slots ∧ ∃ l, s.closeTakeover.pair = { s.pair with lastPromote := l } := ⟨rfl, _, rfl⟩

/-- Up to the shadows, the pair stays as the new owner has it. -/
theorem State.standIn_pair (hdown : s.pair.link ≠ 2) : s.owner.standIn.pair = s.owner.pair ∧ s.owner.pair.link ≠ 2 := by
  have hown : s.owner.pair.link ≠ 2 := by rw [State.owner_pair]; exact hdown
  exact ⟨State.pair_of_seen hown (Prod.mk.inj s.owner.standIn_pairAndRuns).1, hown⟩

/-- Outside lock-step the survivor owns every slot and goes on with the shadows. -/
theorem State.takeover_pair (hdown : s.pair.link ≠ 2) (h3 : s.pair.mode ≠ 3) : ∃ l, s.takeover.pair = { s.owner.pair with lastPromote := l } := by
  obtain ⟨h1, hown⟩ := State.standIn_pair hdown
  obtain ⟨u, hu⟩ : ∃ u, u = s.owner.standIn := ⟨_, rfl⟩
  rw [← hu] at h1
  have hpair : u.surviveAll.reopenAll.pair = s.owner.pair :=
    State.pair_of_seen hown (u.surviveAll.reopenAll_seen.trans (u.surviveAll_seen.trans (congrArg Pair.seen h1)))
  obtain ⟨-, l, hl⟩ := u.surviveAll.reopenAll.closeTakeover_frame
  rw [State.takeover_eq h3, ← hu, ← hpair]
  exact ⟨l, hl⟩

theorem State.takeover_slot (hdown : s.pair.link ≠ 2) (h3 : s.pair.mode ≠ 3) {m : Nat} (h : (s.slot m).run = .shadow) :
    (s.takeover.slot m).Promoted (tget {} s.pair.shadows m) := by
  obtain ⟨h1, hown⟩ := State.standIn_pair hdown
  obtain ⟨-, hruns⟩ := Prod.mk.inj s.owner.standIn_pairAndRuns
  obtain ⟨u, hu⟩ : ∃ u, u = s.owner.standIn := ⟨_, rfl⟩
  rw [← hu] at h1 hruns
  have hrun : (u.slot m).run = .shadow :=
    (congrFun hruns m).trans ((congrArg Slot.run (State.slot_congr s.owner_slots m)).trans h)
  have hall := u.surviveAll_slot (by rw [h1]; exact hown) m hrun
  rw [h1, State.owner_pair] at hall
  have hslots : s.takeover.slots = u.surviveAll.slots := by
    rw [State.takeover_eq h3, ← hu]
    exact u.surviveAll.reopenAll.closeTakeover_frame.1.trans u.surviveAll.reopenAll_slots
  rw [State.slot_congr hslots m]
  exact hall

theorem State.owns_of_owner (h : s.pair.owner = true) (n : Nat) : s.owns n = true := by
  unfold State.owns
  exact if_pos (Or.inr (Or.inr h))

theorem State.owns_of_lockstep (h : s.pair.mode = 3) (n : Nat) : s.owns n = true := by
  unfold State.owns
  exact if_pos (Or.inr (Or.inl h))

/-- What a takeover decides. -/
theorem State.takeover_spec (hdown : s.pair.link ≠ 2) : s.takeover.pair.partnerFailed = true ∧ s.takeover.pair.takeovers = (s.pair.takeovers + 1) % 2 ^ 16
    ∧ ∀ n, s.takeover.owns n = true := by
  by_cases h3 : s.pair.mode = 3
  · obtain ⟨-, -, hpair⟩ := State.takeover_lockstep h3
    refine ⟨?_, ?_, State.owns_of_lockstep ?_⟩
    · rw [hpair]
    · rw [hpair]
    · rw [hpair]
      exact h3
  · obtain ⟨l, hpair⟩ := State.takeover_pair hdown h3
    rw [State.owner_pair] at hpair
    refine ⟨?_, ?_, State.owns_of_owner ?_⟩
    · rw [hpair]
    · rw [hpair]
    · rw [hpair]

/-! ### The decision table (R495) -/

/-- An input of the decision table takes new values. -/
def State.sideband (s : State) (low ok : Bool) : State := s.modPair (fun p => { p with failLow := low, hbOk := ok })

theorem answers_sideband {c : Instr} {low ok : Bool} (hup : s.up = true)
    (hc : c = .failInChange low ∧ ok = s.pair.hbOk ∨ c = .hbInMissing ∧ ok = false ∧ low = s.pair.failLow ∨ c = .hbInEdge ∧ ok = true ∧ low = s.pair.failLow) :
    Answers c s (s.sideband low ok).judge := by
  rcases hc with ⟨rfl, rfl⟩ | ⟨rfl, rfl, rfl⟩ | ⟨rfl, rfl, rfl⟩
  · exact answers_whenUp (t := (s.modPair (fun p => { p with failLow := low })).judge) rfl hup
  · exact answers_whenUp (t := (s.modPair (fun p => { p with hbOk := false })).judge) rfl hup
  · exact answers_whenUp (t := (s.modPair (fun p => { p with hbOk := true })).judge) rfl hup

section
variable {low ok : Bool}

theorem badBand (h : low = true ∨ ok = false) : (low || !ok) = true := by
  rcases h with rfl | rfl
  · rfl
  · exact Bool.or_true _

theorem goodBand (h : ¬ (low = true ∨ ok = false)) : (low || !ok) = false := by
  obtain ⟨hlow, hok⟩ := not_or.mp h
  rw [Bool.eq_false_iff.mpr hlow, Bool.of_not_eq_false hok]
  rfl

theorem State.judge_single (h : s.pair.mode = 0) : s.judge = s := by
  unfold State.judge
  dsimp only
  rw [if_pos h]

theorem State.judge_keeps (hdown : s.pair.link ≠ 2) (h : (s.pair.failLow || !s.pair.hbOk) = false ∨ s.pair.partnerFailed = true) : s.judge = s := by
  unfold State.judge
  dsimp only
  rw [if_pos hdown]
  split
  · rfl
  · refine if_neg ?_
    rcases h with h | h
    · rw [h]
      exact Bool.false_ne_true
    · rw [h, Bool.not_true, Bool.and_false]
      exact Bool.false_ne_true

theorem State.judge_takes (hmode : s.pair.mode ≠ 0) (hdown : s.pair.link ≠ 2) (hbad : (s.pair.failLow || !s.pair.hbOk) = true)
    (halive : s.pair.partnerFailed = false) : s.judge = s.takeover := by
  unfold State.judge
  dsimp only
  rw [if_neg hmode, if_pos hdown, if_pos (by rw [hbad, halive]; rfl)]

end

/-! ### Records held, and planned handover (R486, R501) -/

theorem State.streamOut_held (ty pts : Nat) (body : List Byte) (h : s.holdsRecords n = true) :
    (s.streamOut n ty pts body).out = s.out ∧ ((s.streamOut n ty pts body).slot n).chain.heldRecs = (s.slot n).chain.heldRecs ++
      [(ty, if ty ≤ 3 then (s.slot n).chain.closed else (s.slot n).chain.seq, streamRecord n ty (s.slot n).chain.seq pts (s.chainValue n) body)] := by
  have hheld : (s.modChain n (fun c => { c with seq := (c.seq + 1) % 2 ^ 32 })).holdsRecords n = true := by
    unfold State.holdsRecords at h ⊢
    rw [State.modChain, State.modSlot_slot]
    exact h
  unfold State.streamOut State.streamOutWith
  dsimp only
  rw [if_pos hheld]
  refine ⟨rfl, ?_⟩
  rw [State.modChain, State.modSlot_slot, State.modChain, State.modSlot_slot]

theorem answers_plannedHandover (hr : s.ready = true) (hpairs : s.pairs = true) (hup : s.pair.link = 2) (n : Nat) :
    Answers (.plannedHandover [n]) s
      (if (s.slot n).run = .shadow then s.modPair (fun p => { p with taking := if p.taking.contains n then p.taking else p.taking ++ [n] })
       else if (s.slot n).run = .running ∧ s.owns n then s.stirrupSend 4 (ctlPayload 0 n 0) else s) :=
  answers_congr (answers_whenReady rfl hr) (if_pos (by rw [hpairs, hup]; rfl))

end Sys2Proof.Machine

namespace Sys2Proof.Proofs
open Sys2Proof Sys2Proof.Machine

/-- Settles O54. -/
theorem takeoverDecisions : Obligations.TakeoverDecisions := by
  unfold Obligations.TakeoverDecisions
  refine ⟨fun s c low ok hup hc => ?_, fun s n ty pts body h => State.streamOut_held ty pts body h, fun s hr => answers_whenReady rfl hr, fun s n ns hr => ?_⟩
  · have hanswer := answers_sideband hup hc
    refine ⟨fun hmode => answers_congr hanswer (State.judge_single hmode), fun _ hdown h => ?_, fun hmode hlink hgood => ?_, fun hmode hlink hbad hside => ?_,
      fun hmode hlink hbad hside => ?_, fun hmode hdown hbad halive => ?_⟩
    · exact answers_congr hanswer (State.judge_keeps hdown (h.imp_left goodBand))
    · exact answers_congr hanswer ((State.judge_up (s := s.sideband low ok) hlink).trans ((if_neg hmode).trans (if_neg (by exact fun h => Bool.false_ne_true ((goodBand hgood).symm.trans h)))))
    · exact answers_congr hanswer ((State.judge_up (s := s.sideband low ok) hlink).trans ((if_neg hmode).trans ((if_pos (badBand hbad)).trans (if_pos hside))))
    · exact answers_congr hanswer ((State.judge_up (s := s.sideband low ok) hlink).trans ((if_neg hmode).trans ((if_pos (badBand hbad)).trans
        (if_neg (by exact fun h => Bool.false_ne_true (hside.symm.trans h))))))
    · have htake := answers_congr hanswer (State.judge_takes hmode hdown (badBand hbad) halive)
      obtain ⟨hfail, hcount, howns⟩ := State.takeover_spec (s := s.sideband low ok) hdown
      refine reaches_of_answers htake ⟨hfail, hcount, howns, fun h3 => ?_, fun hpairs n hrun => ?_⟩
      · obtain ⟨hslots, hlead, -⟩ := State.takeover_lockstep (s := s.sideband low ok) h3
        exact ⟨hlead, hslots⟩
      · have h3 : s.pair.mode ≠ 3 := fun h => by simp [State.pairs, h] at hpairs
        obtain ⟨hrun', hgap, hwait, hcfg, hchain⟩ := State.takeover_slot (s := s.sideband low ok) hdown h3 hrun
        exact ⟨hrun', hgap, hwait, hcfg, hchain⟩
  · refine ⟨fun h => answers_congr (answers_whenReady rfl hr) (if_neg ?_), fun hpairs hlink => ?_⟩
    · rcases h with h | h
      · rw [h]
        exact Bool.false_ne_true
      · simp [h]
    · have hplan := answers_plannedHandover hr hpairs hlink n
      refine ⟨fun h => answers_congr hplan (if_pos h), fun hrun hown => answers_congr hplan ((if_neg (by rw [hrun]; decide)).trans (if_pos ⟨hrun, hown⟩)),
        fun hshadow h => answers_congr hplan ((if_neg hshadow).trans (if_neg ?_))⟩
      rintro ⟨hrun, hown⟩
      rcases h with h | h
      · exact h hrun
      · exact Bool.false_ne_true (h.symm.trans hown)

end Sys2Proof.Proofs
end
